-- ==== Sys2Proof/Word.lean ====
section
/-! DEFINITION. Word: the bit-vector types of the block's registers, bytes and timestamps. -/
namespace Sys2Proof

/-- A register or memory word of the host address space, 32 bits (R3). -/
abbrev Word := BitVec 32

/-- One byte (R3, little-endian storage). -/
abbrev Byte := BitVec 8

/-- A timestamp: seconds in bits 63:30, nanoseconds in bits 29:0 (R8). -/
abbrev Ts := BitVec 64

/-- A half word: a response field, a voltage in 10 mV units, a sequence number. -/
abbrev Half := BitVec 16

end Sys2Proof
end

