-- ==== Sys2Proof/Machine/Records.lean ====
section
/-! DEFINITION. Records: the records of the alarm service that the active unit of a pair copies to its partner (R363,
R365). A field's default is its value at reset. Times are system time in ticks. -/
namespace Sys2Proof.Machine

open Sys2Proof

/-- Stage of a point's delays, bits 7:4 of byte 40 of its record (R233, R246). -/
inductive Stage where
  | idle
  | onDelay
  | active
  | offDelay
deriving DecidableEq, Repr

/-- An open slice: the histogram of a point over a recorder interval (R390, R391). -/
structure Slice where
  /-- Interval code. -/
  code : Nat := 0
  /-- Interval start, or the opening time of a SHORT slice; its end. -/
  start : Nat := 0
  stop : Nat := 0
  short : Bool := false
  stepped : Bool := false
  takeover : Bool := false
  count : Nat := 0
  /-- The 32 bins, unscaled. -/
  bins : List Nat := List.replicate 32 0
  /-- Minimum and maximum sample, binary32, with their value timestamps. -/
  low : Option (Word × Nat) := none
  high : Option (Word × Nat) := none
  /-- Sum of the samples in units of 2^-149, to 53 significant bits. -/
  sum : Int := 0
  /-- Transitions of the point. -/
  trans : Nat := 0
  /-- Quality summary. -/
  quals : Byte := 0
deriving DecidableEq, Repr

/-- A source's result: its value, quality and time, its number, and the count of TCXO cycles then (R212, R218). -/
structure Prior where
  value : Int := 0
  qual : Nat := 2
  time : Nat := 0
  count : Nat := 0
  mono : Nat := 0
deriving DecidableEq, Repr

/-- The record of a channel's slot without a point: quality BAD_SENSOR, state OUT_OF_SERVICE (R93). -/
def emptyRecord : List Byte := List.replicate 36 0 ++ [2, 7, 0, 0x40] ++ List.replicate 88 0

/-- One point slot: its evaluation state, what its record shows and its annunciation flags. -/
structure Pnt where
  /-- VALUE of the record, binary32 (R246); 0 before the first scan. -/
  value : Word := 0
  /-- MEAS. -/
  meas : Word := 0
  /-- Value timestamp. -/
  vts : Nat := 0
  /-- Scan number of the last evaluation. -/
  scan : Word := 0
  /-- Quality before blocking (R216); DESIGN CHOICE BAD_SENSOR before the first scan, as the sources' registers reset
  (log 3). -/
  qual : Nat := 2
  /-- Quality published, blocking included (R219). -/
  pq : Nat := 2
  /-- The measured value is usable (R220). -/
  usable : Bool := false
  /-- Conditions of steps 5 to 7, bits 8:0 of the record's bytes 38–39. -/
  conds : BitVec 9 := 0
  /-- Fault condition (R234). -/
  fault : Bool := false
  /-- Blocking expression true; blocked; start inhibit (R230, R94). -/
  expr : Bool := false
  blocked : Bool := false
  inh : Bool := false
  /-- Value held by spike rejection, with its timestamp (R222). -/
  held : Option (Word × Nat) := none
  /-- Last accepted value, with its timestamp (R222). -/
  acc : Option (Word × Nat) := none
  /-- Filter state; none where it starts anew (R223). -/
  filt : Option Word := none
  /-- Rate-of-change samples with their scan starts, oldest first, and the scans since the last (R227). -/
  hist : List (Word × Nat) := []
  histCnt : Nat := 0
  /-- Out of service (R224). -/
  oos : Bool := false
  /-- PENDING published and not yet closed (R246). -/
  pend : Bool := false
  stage : Stage := .idle
  onset : Nat := 0
  /-- Expiry of the running on-delay or off-delay (R233). -/
  expiry : Nat := 0
  /-- The running delay has expired by its command. -/
  due : Bool := false
  cause : Nat := 0
  /-- End of the running release delay (R230). -/
  relEnd : Option Nat := none
  relDue : Bool := false
  /-- End of the last release delay, which UNBLOCK carries (R235). -/
  relWas : Nat := 0
  /-- BLOCK was passed to ANN. -/
  blkSent : Bool := false
  /-- The earliest onset that inhibit and blocking leave (R94, R230). -/
  floor : Nat := 0
  /-- End of the start inhibit of a point new at a swap (R101). -/
  inhEnd : Option Nat := none
  /-- Start of the running fault delay (R234). -/
  faultSince : Option Nat := none
  faultDue : Bool := false
  /-- Times of the PENDING frames of the last 10 s (R238). -/
  pubs : List Nat := []
  /-- Spike count, 8 bits. -/
  spikes : Nat := 0
  /-- Rate of change, binary32. -/
  rate : Word := 0
  /-- Deviation d, binary32. -/
  dev : Word := 0
  /-- The deviation was computed in this scan (R228). -/
  devOk : Bool := false
  /-- Substitute value (R224). -/
  subst : Word := 0
  /-- Source integer of the last snapshot. -/
  srcInt : Word := 0
  /-- Source quality of the last snapshot (R212). -/
  srcQual : Nat := 2
  /-- Count of the source's results as last seen, the TCXO count when the last one came, whether this scan saw a new one,
  and whether the source is stale by its time-out (R218). -/
  serial : Nat := 0
  lastNew : Nat := 0
  fresh : Bool := false
  stale : Bool := false
  /-- The point has been evaluated since its start (R218). -/
  begun : Bool := false
  /-- A transfer of its source failed, so that the next scan finds BAD_COMM (R51, R57). -/
  commLost : Bool := false
  /-- Annunciation flags: PEND, ACTIVE, UNACK, BLK, FLT, FLT_UNACK, SHLV, OOS from bit 0 (R249); reset 0. -/
  flags : BitVec 8 := 0
  /-- T_UNACK, T_FUNACK, expiry of the shelving (R249). -/
  tUnack : Nat := 0
  tFunack : Nat := 0
  shlvEnd : Nat := 0
  shlvDue : Bool := false
  /-- Cause and onset of ANN's record, time of the last transition. -/
  annCause : Nat := 0
  annOnset : Nat := 0
  lastTrans : Nat := 0
  /-- An entry was dropped: marked for resynchronisation (R272). -/
  resync : Bool := false
  /-- State, and FAULT unacknowledged, as GRP last read them (R265). -/
  grpSt : Nat := 0
  grpFun : Bool := false
  /-- The point's open slice (R390). -/
  slice : Option Slice := none
  /-- A point new at a swap opens its first slice from this moment on, the next interval start (R101). -/
  slFrom : Nat := 0
deriving DecidableEq, Repr

/-- GRP's record of a member on another node (R265). -/
structure RemRec where
  st : Nat := 0
  cat : Nat := 0
  onset : Nat := 0
  /-- Its last entry was not an ACK. -/
  unack : Bool := false
  /-- A report has arrived; NO_REPORT before. -/
  rep : Bool := false
  /-- State before the PENDING. -/
  prev : Nat := 0
  /-- Cause and value of the last entry (R431). -/
  cause : Nat := 0
  value : Word := 0
deriving DecidableEq, Repr

/-- One alarm group (R266 to R271, R277). -/
structure Grp where
  /-- Group state and category. -/
  st : Nat := 0
  cat : Nat := 0
  prov : Bool := false
  late : Bool := false
  unc : Bool := false
  incomplete : Bool := false
  horn : Bool := false
  silenced : Bool := false
  /-- An episode runs, since this time (R267). -/
  epi : Option Nat := none
  /-- `FO_SETTLE` has passed (R268). -/
  settled : Bool := false
  /-- The first-out was FINAL in this episode. -/
  wasFinal : Bool := false
  /-- Candidates of the episode: address, onset, TIME_UNLOCKED (R267, R269). -/
  cands : List (Nat × Nat × Bool) := []
  /-- First-out: address and onset. -/
  fo : Option (Nat × Nat) := none
  /-- Episode number, 32 bits, wrapping. -/
  episode : Word := 0
  /-- Commands for horn and lamp output, 2 bits each (R270). -/
  hornCmd : Nat := 0
  lampCmd : Nat := 0
  /-- Members in ALARM_UNACK, ALARM_ACK or RETURN_UNACK (R240). -/
  alarmed : Nat := 0
  /-- That number as it stood at the end of the last scan (R216). -/
  posted : Nat := 0
  /-- Scan number of the last update. -/
  scan : Word := 0
deriving DecidableEq, Repr

/-- A call session, the overflow session included (R281 to R292). -/
structure Sess where
  /-- State: 0 IDLE, 1 LOCAL, 2 DUTY, 3 ALL, 4 ACKED, 5 CLEARED. -/
  st : Nat := 0
  addr : Nat := 0
  cat : Nat := 0
  start : Nat := 0
  /-- Entry time of the state (R283). -/
  entry : Nat := 0
  /-- T1, T2 or T3 expiry. -/
  expiry : Option Nat := none
  /-- The expiry has come by its command. -/
  due : Bool := false
  reesc : Bool := false
  unitLost : Bool := false
  replay : Bool := false
  /-- Answering engineer and unit, 0xFF none. -/
  eng : Nat := 0xFF
  unit : Nat := 0xFF
  /-- Duty engineer in the last CALL_STEP, 0xFF none. -/
  dutySent : Nat := 0xFF
  /-- Step sequence number. -/
  seq : Byte := 0
  endCause : Nat := 0
  /-- ALL was reached (R282). -/
  hadAll : Bool := false
  /-- The state in which the overflow session was answered (R292). -/
  lvl : Nat := 0
  /-- Ack time (R288). -/
  ackTime : Nat := 0
  scan : Word := 0
deriving DecidableEq, Repr

/-- An alarm in the wait list, or one that starts a session at the next scan end (R291). -/
structure WaitAlarm where
  addr : Nat
  cat : Nat
  start : Nat
  /-- Steps of system time since the start time, in ticks (R284). -/
  sh : Int := 0
  /-- The start came from a state report, which gives no time (R279). -/
  noTime : Bool := false
deriving DecidableEq, Repr

/-- A tag that the target has applied, with the RSP's data (R342). -/
structure TagRec where
  node : Half
  tag : Byte
  rsp : List Byte
deriving DecidableEq, Repr

/-- A record of a DELTA frame (R365). The bodies of kinds 1 to 4 and 6 are the part's own memory lines, whose layout the
spec does not give: they are carried as the records they hold. A sweep block's bytes are those of the records beside
it. -/
inductive LvRec where
  /-- Kind 1: a point's state. -/
  | point (slot : Fin 80) (p : Pnt)
  /-- Kind 2: a group's record. -/
  | group (g : Nat) (r : Grp)
  /-- Kind 3: a member's record. -/
  | member (addr : Nat) (r : RemRec)
  /-- Kind 4: a call context, 256 the overflow session. -/
  | call (n : Nat) (x : Sess)
  /-- Kind 5: a line of 64 entries of the state table. -/
  | stateLine (line : Nat) (entries : List Half)
  /-- Kind 6: the call wait list, whether an alarm was lost to it and it has had no room since, and the alarms that start
  a session at the next scan end. -/
  | waitList (l : List WaitAlarm) (lost : Bool) (starts : List WaitAlarm)
  /-- Kind 6: the duty selection: engineer, source, CONFLICT. -/
  | duty (eng : Option Nat) (src : Nat) (conflict : Bool)
  /-- Kind 6: call unit states. -/
  | units (lost : BitVec 64)
  /-- Kind 6: the Imzin tag table. -/
  | tags (l : List TagRec)
  /-- Kind 6: the transition sequence number and the node-wide silence. -/
  | annunciator (seq : Half) (silenced : Bool)
  /-- Kind 8: the field snapshot's 1024 bytes. -/
  | field (bytes : List Byte)
  /-- Kind 9: the recorder pointers' 256 bytes. -/
  | recorder (bytes : List Byte)
  /-- Kind 10: the command marks' 64 bytes. -/
  | marks (bytes : List Byte)
  /-- Kind 12: a sweep block from a byte offset, of a length. -/
  | sweep (offset len : Nat)
deriving DecidableEq, Repr

end Sys2Proof.Machine
end

