-- ==== Sys2Proof/Syntax.lean ====
section
/-! DEFINITION. Syntax: the commands the block takes, one constructor per row of spec/opcode_table.json, and the
types of their operands. -/
namespace Sys2Proof

/-- Who writes a register or sends a command (`SYS_WERR.SRC`, R104): a host port, an Imzin command of a node, or the
module itself. -/
inductive Source where
  | hostA
  | hostB
  | imzin (node : Half)
  | chip
deriving DecidableEq, Repr

/-- What a successful initialisation finds of the eMMC: bus width and timing selected, BOOT_SIZE_MULT, and the sectors of
the user area (R83). -/
structure MmcInfo where
  bus4 : Bool
  hs : Bool
  bootMult : Byte
  cap : Word
deriving DecidableEq, Repr

/-- How the partner of a pair answers the copy that VERIFY sends it: no partner, its VERIFY succeeded, or it ended with a
result code and detail (R103). -/
inductive PartnerAnswer where
  | absent
  | accepted
  | refused (code : Byte) (detail : Half)
deriving DecidableEq, Repr

/-- The operation of a fabric request between regions (R47, R49). -/
inductive FabOp where
  /-- A read of a register or memory location. -/
  | read
  /-- A write of a register or memory location. -/
  | write (data : Word)
  /-- SEQ_QUERY of the requester's last applied sequence number (R50). -/
  | seqQuery
  /-- The push of an event record to the event router (R49). -/
  | event (src : BitVec 9) (payload : Word)
  /-- The push of a transition entry's 32 bytes to the recorder (R49, R262). -/
  | entry (bytes : List Byte)
  /-- The push of an Imzin command: its target node, whether that lies downstream, and the CMD's 64 bytes, in which IMZ puts
  the tag (R49, R340). -/
  | imzinCmd (node : Half) (down : Bool) (bytes : List Byte)
  /-- The push of CAN transmit requests, one bit for each buffer (R49). -/
  | canTx (mask : Word)
  /-- The push of a panel update request: rectangle, mode, tag, and whether it may be split (R49, R424). -/
  | panel (x y w h : Half) (mode : BitVec 4) (tag : Byte) (split : Bool)
  /-- A counter increment: one more entry lost to the recorder, of this transition time (R49, R398). -/
  | count (t : Ts)
  /-- The start of a call session: point address, category, start time in ticks (R49, R279). -/
  | callStart (addr : BitVec 23) (cat : BitVec 2) (start : Nat)
  /-- The step of a call session (R49, R287). -/
  | callStep (n : Fin 257)
  /-- The publication of a point's value and quality, with its scan number (R49). -/
  | publish (slot : Fin 80) (value : Word) (qual : BitVec 3) (scan : Word)
  /-- The copy of a point's state into an epoch, with the epoch's number (R49, R363). -/
  | epochCopy (slot : Fin 80) (epoch : Word)
  /-- A recipe swap request: its key, and whether the partner holds the same shadow (R49, R98). -/
  | swap (key : Byte) (same : Bool)
deriving DecidableEq, Repr

/-- A request of a block to a block in another region (R47, R50). -/
structure FabReq where
  /-- Block identifier of the requester (R37). -/
  requester : BitVec 6
  /-- Tag, unique among the requester's outstanding requests. -/
  tag : Byte
  /-- Block identifier of the target (R37). -/
  target : BitVec 6
  op : FabOp
  /-- Byte address for reads and writes. -/
  addr : BitVec 24
  /-- The point that the request serves, where it serves one (R51). -/
  point : Option (Fin 80)
deriving DecidableEq, Repr

/-- What the scrubber finds in a word that it cannot correct (R40). -/
inductive MemErr where
  /-- A point's record in the point and state SRAM. -/
  | point (slot : Fin 80)
  /-- A section of the active recipe bank. -/
  | activeBank (sec : Byte)
  /-- The shadow recipe bank. -/
  | shadowBank
  /-- A record in DRAM of a host's event ring. -/
  | ringRecord (host : Fin 2) (index : Fin 1024)
  /-- An entry in recorder staging, counted from the oldest: full pages, then the open page. -/
  | recStaging (index : BitVec 13)
  /-- A part of the framebuffer: a text line of the panel. -/
  | framebuffer (line : Byte)
  /-- Entries of the manager state table that belong to a child node. -/
  | stateTable (node : Half)
deriving DecidableEq, Repr

/-- A supply quantity whose condition events are limited (R79). -/
inductive Quantity where
  | vin1
  | vin2
  | plate
  | group1
  | group2
deriving DecidableEq, Repr

/-- What a universal input's converter measures for one conversion (R106, R112): voltages in nV, currents in nA,
temperatures in 0.01 °C. The front end's own error lies in these numbers. -/
structure UiMeas where
  /-- The signal: V(SP, SN), or V(SP, RET) in 3-wire connection and for TYPE 14 to 16 and 19. -/
  vSig : Int
  /-- V(EXC, SP) in 3-wire connection; V(EXC, RET) for TYPE 19. -/
  vExc : Int
  /-- Excitation current. -/
  iExc : Nat
  /-- `UIn_EXC` lies at compliance, 2.8 V. -/
  compliance : Bool
  /-- The modulator is overloaded: `some true` upward, `some false` downward. -/
  overload : Option Bool
  /-- The internal cold-junction sensor. -/
  cjInt : Int
  /-- Island die temperature. -/
  island : Int
  /-- The converter's code. -/
  raw : BitVec 24
  /-- Transmitter supply: voltage in 10 mV units, current in µA. -/
  txsVolt : Half
  txsCurr : Half
  /-- The transmitter supply is at its current limit. -/
  txsLimit : Bool
  /-- In listen mode: the conversion overlaps a test window of the active unit. -/
  overlap : Bool
  /-- The conversion, or with `true` its transfer, failed with this cause of `SYS_FLT_LAST`. -/
  fail : Option (Bool × BitVec 3)
deriving DecidableEq, Repr

/-- The results of a test window: the four lead resistances in 10 mΩ units (R1 to R4, or Ra and Rb), and the
thermocouple loop resistance in 0.1 Ω units (R115, R116, R121). -/
structure UiWindow where
  r1 : Nat
  r2 : Nat
  r3 : Nat
  r4 : Nat
  loop : Nat
deriving DecidableEq, Repr

/-- What a loop output's loopback ADC measures in one cell cycle (R142): current in nA, terminal voltage in 10 mV
units, die temperature in 0.1 °C. -/
structure AoMeas where
  curr : Int
  term : Int
  die : Int
  /-- The regulator is at its limit. -/
  atLimit : Bool
  /-- The island answers its coupler. -/
  answers : Bool
  /-- The cycle's transfer failed with this cause of `SYS_FLT_LAST`. -/
  fail : Option (BitVec 3)
deriving DecidableEq, Repr
/-- A data or remote frame as it arrives at a controller (R301, R309). -/
structure CanFrame where
  /-- Identifier: 29 bits. -/
  id : BitVec 29
  /-- Base format, 11-bit identifier. -/
  base : Bool
  /-- Remote frame. -/
  remote : Bool
  fdf : Bool
  brs : Bool
  esi : Bool
  dlc : BitVec 4
  data : List Byte
deriving DecidableEq, Repr

/-- How a transmission attempt ends (R307). -/
inductive TxEnd where
  /-- Acknowledged without error. -/
  | sent
  /-- Arbitration was lost. -/
  | lost
  /-- It ended in an error of the given type and field (CAN_ERR), after the arbitration field or within it. -/
  | error (field type : BitVec 4) (won : Bool)
  /-- A parity error in the transmit buffer: nothing is sent. -/
  | parity
deriving DecidableEq, Repr

/-- A frame of Imzin as it arrives: the controller, the identifier's direction and source, its data and its age in
ticks since the start of frame (R311, R318). -/
structure ImzRx where
  bus : Fin 4
  dir : BitVec 2
  src : Half
  data : List Byte
  age : Nat
deriving DecidableEq, Repr

/-- What AGE measures of an item; the units are thousandths of the ledger's (R469). -/
inductive AgeMeas where
  /-- VREFA and VREFB against the master reference, in 0.001 ppm. -/
  | ref (c : Fin 16) (a b : Int)
  /-- The DAC's gain error in 0.001 ppm, and the seconds of samples behind it. -/
  | gain (c : Fin 4) (err : Int) (secs : Nat)
  /-- The hourly mean of R₂₅ in 0.001 mΩ. -/
  | switch (c : Fin 16) (r25 : Nat)
  /-- A sample of `TIM_FREQ`. -/
  | tcxo
  /-- Capacitance in 0.001 µF and ESR in 0.001 mΩ; whether the partner tests, and whether the test was abandoned. -/
  | hold (cap esr : Nat) (partner abandoned : Bool)
  /-- Life codes and PRE_EOL_INFO of EXT_CSD. -/
  | wear (lifeA lifeB eol : Byte)
  /-- A domain's insulation resistance in kΩ. -/
  | barrier (d : Fin 24) (r : Nat)
deriving DecidableEq, Repr

/-- A cell that runs periodic loopbacks (R483). -/
inductive LoopCell where
  | ui (c : Fin 16)
  | dio (c : Fin 16)
  | ps (c : Fin 2)
deriving DecidableEq, Repr

/-- The commands of the block: one constructor per row of spec/opcode_table.json, in the table's order. -/
inductive Instr where
  /-- FABRIC_REQUEST (R47). A request is made. `queueFull`: the target's queue is full; `parity`: the request has a parity error; `waits`: the target has not taken it yet. -/
  | fabricRequest (r : FabReq) (queueFull : Bool) (parity : Bool) (waits : Bool)
  /-- FABRIC_RESPONSE (R51). The reply posted for the request of this tag reaches its requester. `parity`: the reply has a parity error. -/
  | fabricResponse (requester : BitVec 6) (tag : Byte) (parity : Bool)
  /-- FABRIC_TIMEOUT (R41). No reply to the request of this tag has arrived within 2 µs. -/
  | fabricTimeout (requester : BitVec 6) (tag : Byte)
  /-- SEQ_QUERY (R50). The requester queries the last sequence number that the target applied. -/
  | seqQuery (requester : BitVec 6) (target : BitVec 6)
  /-- BUSY_RESEND (R51). 10 µs have passed since BUSY. -/
  | busyResend (requester : BitVec 6) (tag : Byte)
  /-- GRANT_HOLD_OVERRUN (R43). A cell of the block overruns its grant; `retryOk`: the retried transfer succeeds. -/
  | grantHoldOverrun (block : BitVec 6) (cell : Byte) (retryOk : Bool)
  /-- REQUEST_DEADLINE_MISS (R43). A cell request misses its deadline, or with `parity` its transfer has a parity error; `retryOk`: the retried transfer succeeds. -/
  | requestDeadlineMiss (block : BitVec 6) (cell : Byte) (parity : Bool) (retryOk : Bool)
  /-- READMISSION_TEST (R44). The readmission test of an isolated cell runs with this outcome. -/
  | readmissionTest (block : BitVec 6) (cell : Byte) (pass : Bool)
  /-- CELL_READMIT (R44). A write to the block's cell-readmit register. -/
  | cellReadmit (block : BitVec 6) (cells : BitVec 16)
  /-- REGION_WATCHDOG_EXPIRY (R57). -/
  | regionWatchdogExpiry (r : Fin 5)
  /-- REGION_READY (R53). `partnerSame`, for a swap that waits for ALM: the partner's shadow has the same sequence number and image CRC-32. -/
  | regionReady (r : Fin 5) (partnerSame : Bool)
  /-- READY_LIMIT_EXPIRY (R52). -/
  | readyLimitExpiry (r : Fin 5)
  /-- SYS_RGN_RESET (R53). A write of the RESET field. -/
  | sysRgnReset (src : Source) (mask : BitVec 5)
  /-- SYS_RGN_HOLD (R53). A write of the HOLD field. -/
  | sysRgnHold (src : Source) (mask : BitVec 5)
  /-- SUPERVISOR_WATCHDOG_EXPIRY (R57). -/
  | supervisorWatchdogExpiry
  /-- FABRIC_ROOT_ERROR (R57). A parity error, or with `timeout` a timeout error, at the fabric root. -/
  | fabricRootError (timeout : Bool)
  /-- PLL_LOSS (R57). -/
  | pllLoss
  /-- SAFE_STATE_RESTART (R58). 10 s have passed since the module-level fault. -/
  | safeStateRestart
  /-- SCRUB_PASS (R40). One pass of the scrubber: the number of words corrected and the double-bit errors found. -/
  | scrubPass (corrected : Half) (errors : List MemErr)
  /-- TESTMODE_HIGH (R33). -/
  | testmodeHigh
  /-- ROLE_CHANGE (R30). The new level of `ROLE`. -/
  | roleChange (level : Bool)
  /-- RESETN_LOW (R502). -/
  | resetnLow
  /-- RESETN_RISE (R80). -/
  | resetnRise
  /-- FEED_LOW (R60). The feed's voltage in 10 mV units. -/
  | feedLow (f : Fin 2) (v : Half)
  /-- FEED_LOST (R60). The voltages of the feed and of `HOLD` in 10 mV units. -/
  | feedLost (f : Fin 2) (v : Half) (hold : Half)
  /-- FEED_LOST_END (R60). The voltages of the feed and of `HOLD` in 10 mV units. -/
  | feedLostEnd (f : Fin 2) (v : Half) (hold : Half)
  /-- FEED_HIGH (R60). The feed's voltage in 10 mV units. -/
  | feedHigh (f : Fin 2) (v : Half)
  /-- FEED_IN_RANGE (R60). The feed's voltage in 10 mV units. -/
  | feedInRange (f : Fin 2) (v : Half)
  /-- FEED_DISCONNECT (R59). -/
  | feedDisconnect (f : Fin 2)
  /-- FEED_RECONNECT (R59). -/
  | feedReconnect (f : Fin 2)
  /-- FEED_REVERSED (R59). The voltage of `HOLD` in 10 mV units. -/
  | feedReversed (f : Fin 2) (hold : Half)
  /-- POWER_GOOD (R62). The level of `TESTMODE` at power-good. -/
  | powerGood (testmode : Bool)
  /-- POWER_GOOD_LOSS (R62). -/
  | powerGoodLoss
  /-- HOLD_ABSENT (R64). The voltage of `HOLD` in 10 mV units. -/
  | holdAbsent (v : Half)
  /-- HOLD_OK (R64). The voltage of `HOLD` in 10 mV units. -/
  | holdOk (v : Half)
  /-- HOLD_FAULT (R64). The voltage of `HOLD` in 10 mV units. -/
  | holdFault (v : Half)
  /-- HOLD_CHARGE_RETRY (R64). -/
  | holdChargeRetry
  /-- LAST_BREATH (R67). The voltage of `HOLD` in 10 mV units; `dataDone`: all data sectors of the page being committed are written. -/
  | lastBreath (hold : Half) (dataDone : Bool)
  /-- LAST_BREATH_RESTART (R68). -/
  | lastBreathRestart
  /-- XTAL_HANDOVER (R70). -/
  | xtalHandover
  /-- CLOCK_CHECK (R71). The TCXO's offset against the crystal, and the TCXO's and the crystal's against network time, in 0.01 ppm units. -/
  | clockCheck (diff : Int) (tcxoNet : Int) (xtalNet : Int)
  /-- TEMP_MEASURE (R78). Back plate and logic die, signed, in 0.1 °C units. -/
  | tempMeasure (plate : Half) (die : Half)
  /-- SUPPLY_EVENT_HOLDOFF (R79). The quantity's value at that moment. -/
  | supplyEventHoldoff (q : Quantity) (v : Half)
  /-- DOZE_ENABLE (R74). A write of SYS_PWR_CTL.DOZE_EN. -/
  | dozeEnable (src : Source) (en : Bool)
  /-- DOZE_POWER_DOWN (R74). KEP, or with `fce` FCE, has had no work for one base scan. -/
  | dozePowerDown (fce : Bool)
  /-- DOZE_POWER_UP (R74). Work for KEP, or with `fce` for FCE, has arrived. -/
  | dozePowerUp (fce : Bool)
  /-- DORMANT_REQUEST (R75). -/
  | dormantRequest (src : Source)
  /-- DORMANT_ENTRY (R75). -/
  | dormantEntry
  /-- WAKE_COMMAND (R76). -/
  | wakeCommand (src : Source)
  /-- DORMANT_WAKE (R76). The watched source that fired; none for a feed condition change. -/
  | dormantWake (src : Option (BitVec 9))
  /-- EMMC_INIT (R83). The attempt's outcome, and what it found when it succeeded. -/
  | emmcInit (ok : Bool) (info : MmcInfo)
  /-- EMMC_INIT_RETRY (R83). The attempt's outcome, and what it found when it succeeded. -/
  | emmcInitRetry (ok : Bool) (info : MmcInfo)
  /-- BOOT_HEADERS_READ (R86). The reads of the partitions succeeded. -/
  | bootHeadersRead (ok : Bool)
  /-- ACTIVE_IMAGE_LOADED (R89). The read of the partition succeeded. -/
  | activeImageLoaded (ok : Bool)
  /-- SHADOW_LOADED (R90). The read of the partition succeeded. -/
  | shadowLoaded (ok : Bool)
  /-- START_INHIBIT_END (R94). -/
  | startInhibitEnd
  /-- BARE_RATE_SEARCH_STEP (R92). -/
  | bareRateSearchStep
  /-- BARE_ADDR_CLAIM (R92). -/
  | bareAddrClaim
  /-- RCP_OPEN (R96). `ok`: the header sector was written. -/
  | rcpOpen (src : Source) (ok : Bool)
  /-- RCP_WRITE_BLOCK (R96). `ok`: the block was written. -/
  | rcpWriteBlock (src : Source) (n : Half) (ok : Bool)
  /-- RCP_VERIFY (R97). -/
  | rcpVerify (src : Source)
  /-- RCP_VERIFY_DONE (R97). `fail`: the block whose write or read-back failed. -/
  | rcpVerifyDone (fail : Option Half) (partner : PartnerAnswer)
  /-- RCP_CLOSE (R95). -/
  | rcpClose (src : Source)
  /-- RCP_SWAP (R98). `partnerSame`: the partner's shadow has the same sequence number and image CRC-32. -/
  | rcpSwap (src : Source) (key : Byte) (partnerSame : Bool)
  /-- RCP_SET_ACTIVE (R85). `ok`: the boot-config record was written. -/
  | rcpSetActive (src : Source) (key : Byte) (ok : Bool)
  /-- RCP_RELOAD_SHADOW (R40). `ok`: the partition could be read. -/
  | rcpReloadShadow (src : Source) (ok : Bool)
  /-- RCP_BAD_OP (R95). OP 0x08 to 0xFF. -/
  | rcpBadOp (src : Source) (op : Byte)
  /-- RCP_BUF_WRITE (R95). Word `w` of RCP_BUF. -/
  | rcpBufWrite (src : Source) (w : BitVec 10) (v : Word)
  /-- RCP_OWNER_TIMEOUT (R95). -/
  | rcpOwnerTimeout
  /-- SWAP_BOUNDARY (R99). The end of a base scan, before the next one starts. -/
  | swapBoundary
  /-- SWAP_ABORT (R99). -/
  | swapAbort
  /-- BOOT_CONFIG_WRITTEN (R102). The eMMC wrote the record. -/
  | bootConfigWritten (ok : Bool)
  /-- BOOT_CONFIG_RETRY (R102). The eMMC wrote the record. -/
  | bootConfigRetry (ok : Bool)
  /-- UI_ISLAND_POWERED (R123). -/
  | uiIslandPowered (c : Fin 16)
  /-- UI_CONVERSION (R106). -/
  | uiConversion (c : Fin 16) (m : UiMeas)
  /-- UI_TEST_WINDOW (R118). -/
  | uiTestWindow (c : Fin 16) (w : UiWindow)
  /-- UI_TEST_CMD (R118). -/
  | uiTestCmd (src : Source) (c : Fin 16)
  /-- UI_CAL_INTERVAL (R123). -/
  | uiCalInterval (c : Fin 16)
  /-- UI_CAL_CMD (R123). -/
  | uiCalCmd (src : Source) (c : Fin 16)
  /-- UI_CAL_DONE (R123). The results and the island temperature in 0.01 °C. -/
  | uiCalDone (c : Fin 16) (ofs : Word) (gain : Word) (island : Int)
  /-- UI_REF_CHECK (R119). The difference between VREFA and VREFB in ppm. -/
  | uiRefCheck (c : Fin 16) (ppm : Nat)
  /-- UI_NE43_CONFIRM (R119). `past`: NE43_LOW, NE43_HIGH, LOOP_OPEN, from bit 0, that have stood for NE43_T. -/
  | uiNe43Confirm (c : Fin 16) (past : BitVec 3)
  /-- UI_TXS_OVERLOAD (R122). -/
  | uiTxsOverload (c : Fin 16)
  /-- UI_TXS_RETRY (R122). -/
  | uiTxsRetry (c : Fin 16)
  /-- UI_TXS_ON (R122). -/
  | uiTxsOn (src : Source) (c : Fin 16)
  /-- UI_TREND_RESET (R121). -/
  | uiTrendReset (c : Fin 16)
  /-- UI_CRUMB (R482). `pass`: the injection reads back as it should. -/
  | uiCrumb (src : Source) (c : Fin 16) (pass : Bool)
  /-- UI_BARRIER (R482). `pass`: the echo through the coupler agrees. -/
  | uiBarrier (src : Source) (c : Fin 16) (pass : Bool)
  /-- UI_BLOCK_STOP (R131). The value written to `UI_BLK_CTL`. -/
  | uiBlockStop (stop : BitVec 2)
  /-- UI_SHARED_EXC_CHECK (R128). The sensor voltage measured with the own excitation off, in nV. -/
  | uiSharedExcCheck (c : Fin 16) (v : Int)
  /-- AO_CELL_CYCLE (R142). -/
  | aoCellCycle (c : Fin 4) (m : AoMeas)
  /-- AO_CLOCK_STEP_UP (R137). -/
  | aoClockStepUp (c : Fin 4)
  /-- AO_BROWNOUT (R139). -/
  | aoBrownout (c : Fin 4)
  /-- AO_ISLAND_RESTART (R139). -/
  | aoIslandRestart (c : Fin 4)
  /-- AO_BROWNOUT_CLEAR (R144). -/
  | aoBrownoutClear (c : Fin 4)
  /-- AO_KEEPALIVE (R148). The islands whose echo came back. -/
  | aoKeepalive (echoes : BitVec 4)
  /-- AO_KEEPALIVE_LOST (R148). -/
  | aoKeepaliveLost (c : Fin 4)
  /-- AO_COMPLIANCE_RETRY (R146). -/
  | aoComplianceRetry (c : Fin 4)
  /-- AO_SWITCH_RECLOSE (R147). -/
  | aoSwitchReclose (c : Fin 4)
  /-- AO_RESTART (R143). -/
  | aoRestart (src : Source) (c : Fin 4)
  /-- AO_CAL_DONE (R143). -/
  | aoCalDone (c : Fin 4)
  /-- AO_TRIM_APPLY (R154). -/
  | aoTrimApply (src : Source) (c : Fin 4)
  /-- AO_TRIM_CLEAR (R154). -/
  | aoTrimClear (src : Source) (c : Fin 4)
  /-- AO_HART_TX (R157). -/
  | aoHartTx (src : Source) (c : Fin 4)
  /-- AO_HART_TX_START (R157). -/
  | aoHartTxStart (c : Fin 4)
  /-- AO_HART_TX_DONE (R157). -/
  | aoHartTxDone (c : Fin 4)
  /-- AO_HART_CARRIER_DETECT (R158). -/
  | aoHartCarrierDetect (c : Fin 4)
  /-- AO_HART_RX_DONE (R158). The bytes received since carrier detect, and the parity errors among them. -/
  | aoHartRxDone (c : Fin 4) (bytes : List Byte) (perr : Nat)
  /-- AO_CRUST (R482). The largest difference between level and measured current, in codes. -/
  | aoCrust (src : Source) (c : Fin 4) (diff : Nat)
  /-- AO_TRIM_ENTER (R153). ZERO, or with `span` SPAN, has been held for 3 s. -/
  | aoTrimEnter (c : Fin 4) (span : Bool)
  /-- AO_TRIM_ADJUST (R153). A short press of ZERO, or with `up` of SPAN. -/
  | aoTrimAdjust (c : Fin 4) (up : Bool)
  /-- AO_TRIM_STORE (R153). -/
  | aoTrimStore (c : Fin 4)
  /-- AO_TRIM_DISCARD (R153). -/
  | aoTrimDiscard (c : Fin 4)
  /-- AO_TRIM_TIMEOUT (R153). -/
  | aoTrimTimeout (c : Fin 4)
  /-- AO_BLOCK_STOP (R160). The value written to `AO_BLK_CTL.STOP`. -/
  | aoBlockStop (stop : Bool)
  /-- DIO_INPUT_TRANSITION (R166). The new level and the timestamp of the first sample of the stable run. -/
  | dioInputTransition (c : Fin 16) (level : Bool) (at' : Ts)
  /-- DIO_LINE_BREAK (R167). -/
  | dioLineBreak (c : Fin 16)
  /-- DIO_BUTTON_STUCK (R169). -/
  | dioButtonStuck (c : Fin 16)
  /-- DIO_BLINK_PHASE (R172). -/
  | dioBlinkPhase
  /-- DIO_INRUSH_END (R174). -/
  | dioInrushEnd (c : Fin 16)
  /-- DIO_KEEPALIVE (R175). -/
  | dioKeepalive
  /-- DIO_KEEPALIVE_LOST (R175). -/
  | dioKeepaliveLost (g : Fin 2)
  /-- DIO_OVERLOAD (R176). The current in mA. -/
  | dioOverload (c : Fin 16) (curr : Nat)
  /-- DIO_SHORT_CIRCUIT (R176). -/
  | dioShortCircuit (c : Fin 16)
  /-- DIO_OVERTEMP (R176). -/
  | dioOvertemp (c : Fin 16)
  /-- DIO_OVERTEMP_END (R176). -/
  | dioOvertempEnd (c : Fin 16)
  /-- DIO_OPEN_ON (R176). -/
  | dioOpenOn (c : Fin 16)
  /-- DIO_OPEN_OFF (R176). The pin voltage in 10 mV units, and whether the input stage reads 1. -/
  | dioOpenOff (c : Fin 16) (v : Int) (pin : Bool)
  /-- DIO_SHORT_FSP (R176). The pin voltage in 10 mV units, and whether the input stage reads 1. -/
  | dioShortFsp (c : Fin 16) (v : Int) (pin : Bool)
  /-- DIO_BACKFEED (R176). The pin voltage in 10 mV units, and whether the input stage reads 1. -/
  | dioBackfeed (c : Fin 16) (v : Int) (pin : Bool)
  /-- DIO_PARTNER_DRIVE (R176). The pin voltage in 10 mV units, and whether the input stage reads 1. -/
  | dioPartnerDrive (c : Fin 16) (v : Int) (pin : Bool)
  /-- DIO_OVL_RETRY (R177). -/
  | dioOvlRetry (c : Fin 16)
  /-- DIO_RETRY_CMD (R177). -/
  | dioRetryCmd (src : Source) (c : Fin 16)
  /-- DIO_RETRY_COUNT_RESET (R177). -/
  | dioRetryCountReset (c : Fin 16)
  /-- DIO_GROUP_WARN (R178). `FSPg` in 10 mV units. -/
  | dioGroupWarn (g : Fin 2) (v : Half)
  /-- DIO_GROUP_LOW (R178). `FSPg` in 10 mV units. -/
  | dioGroupLow (g : Fin 2) (v : Half)
  /-- DIO_GROUP_OVERVOLT (R178). `FSPg` in 10 mV units. -/
  | dioGroupOvervolt (g : Fin 2) (v : Half)
  /-- DIO_GROUP_LOST (R178). `FSPg` in 10 mV units. -/
  | dioGroupLost (g : Fin 2) (v : Half)
  /-- DIO_GROUP_NORMAL (R179). `FSPg` in 10 mV units. -/
  | dioGroupNormal (g : Fin 2) (v : Half)
  /-- DIO_GROUP_SHED (R181). The mean current over 100 ms in 10 mA units. -/
  | dioGroupShed (g : Fin 2) (mean : Half)
  /-- DIO_SHED_RETRY (R181). -/
  | dioShedRetry (c : Fin 16)
  /-- DIO_LAMP_AVERAGE (R184). The mean current in 0.1 mA and the group voltage in 10 mV units over 1 ms; `settled`: from 100 ms after switch-on. -/
  | dioLampAverage (c : Fin 16) (curr : Nat) (v : Nat) (settled : Bool)
  /-- DIO_LAMP_PROBE (R185). The mean probe current in 0.1 mA units. -/
  | dioLampProbe (c : Fin 16) (curr : Nat)
  /-- DIO_LEARN_PART_DONE (R183). -/
  | dioLearnPartDone (c : Fin 16) (probe : Bool)
  /-- DIO_LEARN (R183). -/
  | dioLearn (src : Source) (c : Fin 16)
  /-- DIO_LEARN_CLR (R183). -/
  | dioLearnClr (src : Source) (c : Fin 16)
  /-- DIO_CRUMB (R482). `pass`: the pattern agrees. -/
  | dioCrumb (src : Source) (c : Fin 16) (pass : Bool)
  /-- DIO_BARRIER (R482). `pass`: the echo through the coupler agrees. -/
  | dioBarrier (src : Source) (c : Fin 16) (pass : Bool)
  /-- DIO_CRUST (R482). `pass`: the pin and the current agree. -/
  | dioCrust (src : Source) (c : Fin 16) (pass : Bool)
  /-- DIO_BLOCK_STOP (R190). The value written to `DIO_BLK_CTL`. -/
  | dioBlockStop (stop : BitVec 2)
  /-- PS_EDGE (R197). Rising edges accepted in this sample on A and on B; the level of B 200 ns before the A edge, and whether B changed within those 200 ns; `z`: a rising edge of Z that is not the index edge. -/
  | psEdge (c : Fin 2) (a : Bool) (b : Bool) (bLevel : Bool) (bChanged : Bool) (z : Bool)
  /-- PS_INDEX_EDGE (R199). -/
  | psIndexEdge (c : Fin 2)
  /-- PS_STANDSTILL (R203). -/
  | psStandstill (c : Fin 2)
  /-- PS_SET_POS (R200). -/
  | psSetPos (src : Source) (c : Fin 2)
  /-- PS_ARM_Z (R199). -/
  | psArmZ (c : Fin 2)
  /-- PS_CMP_WRITE (R205). The word written to PS_CMP. -/
  | psCmpWrite (src : Source) (c : Fin 2) (v : Word)
  /-- PS_CRUMB (R482). `pass`: the pattern agrees. -/
  | psCrumb (src : Source) (c : Fin 2) (pass : Bool)
  /-- PS_BARRIER (R482). `pass`: the echoes through the couplers agree. -/
  | psBarrier (src : Source) (c : Fin 2) (pass : Bool)
  /-- PS_BLOCK_STOP (R209). -/
  | psBlockStop (stop : Bool)
  /-- PS_DIAG_CLEAR (R206). The bit whose clearing time has passed. -/
  | psDiagClear (c : Fin 2) (bit' : Fin 9)
  /-- SCAN_START (R214). The time from scan start to scan end in µs. -/
  | scanStart (dur : Half)
  /-- ON_DELAY_EXPIRY (R233). -/
  | onDelayExpiry (n : Fin 80)
  /-- OFF_DELAY_EXPIRY (R233). -/
  | offDelayExpiry (n : Fin 80)
  /-- RELEASE_DELAY_EXPIRY (R230). -/
  | releaseDelayExpiry (n : Fin 80)
  /-- FAULT_DELAY_EXPIRY (R234). -/
  | faultDelayExpiry (n : Fin 80)
  /-- STALE_TIMEOUT (R218). -/
  | staleTimeout (n : Fin 80)
  /-- PT_CMD_OOS (R225). -/
  | ptCmdOos (src : Source) (slot : Fin 128)
  /-- PT_CMD_RTS (R225). -/
  | ptCmdRts (src : Source) (slot : Fin 128)
  /-- PT_CMD_SUBST (R225). -/
  | ptCmdSubst (src : Source) (slot : Fin 128)
  /-- ALM_CMD_ACK (R257). -/
  | almCmdAck (src : Source) (scope : Fin 4) (target : BitVec 23)
  /-- ALM_CMD_SILENCE (R271). -/
  | almCmdSilence (src : Source) (scope : Fin 4) (target : BitVec 23)
  /-- ALM_CMD_SHELVE (R261). -/
  | almCmdShelve (src : Source) (scope : Fin 4) (target : BitVec 23)
  /-- ALM_CMD_UNSHELVE (R261). -/
  | almCmdUnshelve (src : Source) (scope : Fin 4) (target : BitVec 23)
  /-- ALM_CMD_BAD_OP (R260). A value of OP from 5 to 7. -/
  | almCmdBadOp (src : Source) (op : Fin 8) (scope : Fin 4) (target : BitVec 23)
  /-- SHELVE_EXPIRY (R261). -/
  | shelveExpiry (n : Fin 80)
  /-- FO_SETTLE_EXPIRY (R268). -/
  | foSettleExpiry (g : Fin 1024)
  /-- IMZ_RESYNC_SEND (R272). -/
  | imzResyncSend
  /-- CALL_T1_EXPIRY (R283). Session 256 is the overflow session. -/
  | callT1Expiry (n : Fin 257)
  /-- CALL_T2_EXPIRY (R283). -/
  | callT2Expiry (n : Fin 257)
  /-- CALL_T3_EXPIRY (R283). -/
  | callT3Expiry (n : Fin 257)
  /-- CALL_CLEARED_EXPIRY (R283). -/
  | callClearedExpiry (n : Fin 257)
  /-- CALL_STEP_REPEAT (R287). -/
  | callStepRepeat (n : Fin 257)
  /-- CALL_CLEAR_REPEAT (R287). -/
  | callClearRepeat (n : Fin 257)
  /-- CALL_UNIT_LOST (R286). -/
  | callUnitLost (u : Fin 64)
  /-- CALL_CMD_SELECT_DUTY (R289). -/
  | callCmdSelectDuty (src : Source) (eng : BitVec 5) (session : BitVec 9)
  /-- CALL_CMD_ACK_CALL (R288). -/
  | callCmdAckCall (src : Source) (eng : BitVec 5) (session : BitVec 9)
  /-- CALL_CMD_BAD_OP (R289). -/
  | callCmdBadOp (src : Source) (session : BitVec 9)
  /-- CAN_FRAME_RECEIVED (R309). `age`: ticks since the start of frame; `parity`: the receive buffer being written has a parity error. -/
  | canFrameReceived (k : Fin 4) (f : CanFrame) (age : Nat) (parity : Bool)
  /-- CAN_TX_REQUEST (R306). The word written to CAN_TXREQ. -/
  | canTxRequest (src : Source) (k : Fin 4) (mask : BitVec 32)
  /-- CAN_TX_ATTEMPT_END (R307). `tdcv`: the transceiver delay measured, if one was; `age`: ticks since the start of frame. -/
  | canTxAttemptEnd (k : Fin 4) (b : Fin 32) (e : TxEnd) (tdcv : Option (BitVec 8)) (age : Nat)
  /-- CAN_TX_ABORT (R307). The word written to CAN_TXABORT; `onBus`: the buffer whose frame is on the bus. -/
  | canTxAbort (src : Source) (k : Fin 4) (mask : BitVec 32) (onBus : Option (Fin 32))
  /-- CAN_ERROR (R314). Field and type of CAN_ERR, type 6 a protocol exception; `heavy`: a receiver's counter rises by 8; `ident`: the frame's identifier. -/
  | canError (k : Fin 4) (field : BitVec 4) (type : BitVec 4) (tx : Bool) (heavy : Bool) (ident : BitVec 29)
  /-- CAN_BUSOFF_RECOVERED (R313). -/
  | canBusoffRecovered (k : Fin 4)
  /-- CAN_DOMINANT_TIMEOUT (R316). -/
  | canDominantTimeout (k : Fin 4)
  /-- CAN_MODE_WRITE (R305). -/
  | canModeWrite (src : Source) (k : Fin 4) (mode : BitVec 3)
  /-- CAN_MODE_CHANGE (R305). -/
  | canModeChange (k : Fin 4)
  /-- CAN_INTEGRATED (R305). -/
  | canIntegrated (k : Fin 4)
  /-- NETWORK_JOIN (R322). -/
  | networkJoin
  /-- ADDR_CLAIM_SEND (R322). A claim of the node is due. -/
  | addrClaimSend
  /-- HEARTBEAT_SEND (R339). One second has passed, or the flags of the HEARTBEAT changed. -/
  | heartbeatSend
  /-- ADDR_CLAIM_RECEIVED (R325). `unitB`: the identifier's unit bit. -/
  | addrClaimReceived (f : ImzRx) (unitB : Bool)
  /-- ADDRESS_CONFLICT_PROBE_END (R325). -/
  | addressConflictProbeEnd
  /-- HEARTBEAT_RECEIVED (R339). `unitB`: the type is that of a unit B. -/
  | heartbeatReceived (f : ImzRx) (unitB : Bool)
  /-- TIME_REF_SEND (R345). -/
  | timeRefSend
  /-- TIME_FOLLOW_SEND (R345). `d`: the downstream segment's second bus. -/
  | timeFollowSend (d : Bool)
  /-- TIME_REF_RECEIVED (R346). -/
  | timeRefReceived (f : ImzRx)
  /-- TIME_FOLLOW_RECEIVED (R346). -/
  | timeFollowReceived (f : ImzRx)
  /-- TIM_HOLDOVER (R347). -/
  | timHoldover
  /-- TIM_FREE (R347). -/
  | timFree
  /-- ALM_TRANS_RECEIVED (R265). `full`: the queue upward has no room. -/
  | almTransReceived (f : ImzRx) (full : Bool)
  /-- ALM_PENDING_RECEIVED (R265). `full`: the queue upward has no room. -/
  | almPendingReceived (f : ImzRx) (full : Bool)
  /-- ALM_RETRACT_RECEIVED (R265). `full`: the queue upward has no room. -/
  | almRetractReceived (f : ImzRx) (full : Bool)
  /-- ALM_FRAME_RELEASE (R331). -/
  | almFrameRelease
  /-- FLOOD_DIGEST_SEND (R332). -/
  | floodDigestSend
  /-- FLOOD_DIGEST_RECEIVED (R332). -/
  | floodDigestReceived (f : ImzRx)
  /-- FLOOD_END (R332). -/
  | floodEnd
  /-- CALL_STEP_RECEIVED (R319). -/
  | callStepReceived (f : ImzRx)
  /-- CALL_ACK_RECEIVED (R288). -/
  | callAckReceived (f : ImzRx)
  /-- POINT_STATE_SWEEP (R329). -/
  | pointStateSweep
  /-- POINT_STATE_RECEIVED (R328). -/
  | pointStateReceived (f : ImzRx)
  /-- DIGEST_SEND (R330). -/
  | digestSend
  /-- DIGEST_RECEIVED (R330). -/
  | digestReceived (f : ImzRx)
  /-- CMD_REG_READ (R341). -/
  | cmdRegRead (f : ImzRx)
  /-- CMD_REG_WRITE (R341). -/
  | cmdRegWrite (f : ImzRx)
  /-- CMD_ALARM (R341). -/
  | cmdAlarm (f : ImzRx)
  /-- CMD_POINT (R341). -/
  | cmdPoint (f : ImzRx)
  /-- CMD_DUTY (R341). -/
  | cmdDuty (f : ImzRx)
  /-- CMD_STATE_REQ (R329). -/
  | cmdStateReq (f : ImzRx)
  /-- CMD_TIME_SET (R348). -/
  | cmdTimeSet (f : ImzRx)
  /-- CMD_CONFLICT (R325). -/
  | cmdConflict (f : ImzRx)
  /-- RSP_RECEIVED (R342). -/
  | rspReceived (f : ImzRx)
  /-- CMD_RSP_TIMEOUT (R342). -/
  | cmdRspTimeout (tag : Byte)
  /-- CMD_TAG_EXPIRY (R342). -/
  | cmdTagExpiry (node : Half) (tag : Byte)
  /-- RCP_XFER_DATA (R343). The 32 bytes of a DATA frame of node `src`. -/
  | rcpXferData (src : Half) (chunk : BitVec 7) (bytes : List Byte)
  /-- REC_XFER_DATA_RECEIVED (R405). -/
  | recXferDataReceived (f : ImzRx)
  /-- REC_XFER_END_RECEIVED (R405). -/
  | recXferEndReceived (f : ImzRx)
  /-- REC_XFER_SEND_PACE (R405). -/
  | recXferSendPace
  /-- MEMBER_LOST (R327). The member's entry in MEMBERS. -/
  | memberLost (m : Fin 64)
  /-- MGR_LOST (R327). -/
  | mgrLost
  /-- SYNC_IN_PULSE (R348). `ok`: the pulse was high for 1 µs to 900 ms. -/
  | syncInPulse (ok : Bool)
  /-- SYNC_IN_LOSS (R348). -/
  | syncInLoss
  /-- SYNC_OUT_PULSE (R349). -/
  | syncOutPulse
  /-- TIM_SET (R348). -/
  | timSet (src : Source)
  /-- TIM_SET_AT_PULSE (R348). -/
  | timSetAtPulse (src : Source)
  /-- LVN_LINK_TRAINED (R355). The one-way latency measured, in ns. -/
  | lvnLinkTrained (lat : Nat)
  /-- LVN_LANE_DOWN (R355). -/
  | lvnLaneDown (l : Fin 2)
  /-- LVN_LANE_RETRAIN (R355). `ok`: the lane comes up. -/
  | lvnLaneRetrain (l : Fin 2) (ok : Bool)
  /-- LV_HEARTBEAT_SEND (R359). -/
  | lvHeartbeatSend
  /-- LV_HEARTBEAT_RECEIVED (R359). The body; `ok`: its CRC holds; `age`: ticks since the start of the frame. -/
  | lvHeartbeatReceived (d : List Byte) (ok : Bool) (age : Nat)
  /-- LV_HELLO_SEND (R358). -/
  | lvHelloSend
  /-- LV_HELLO_RECEIVED (R360). The body; `ok`: its CRC holds. -/
  | lvHelloReceived (d : List Byte) (ok : Bool)
  /-- ROLE_NEGOTIATION (R360). -/
  | roleNegotiation
  /-- PEER_WAIT_EXPIRY (R360). -/
  | peerWaitExpiry
  /-- EPOCH_BOUNDARY (R366). The bytes of the epoch's records, and its DELTA frames. -/
  | epochBoundary (bytes : Nat) (frames : Nat)
  /-- LV_EPOCH_OPEN_RECEIVED (R366). The body's fields; `ok`: its CRC holds. -/
  | lvEpochOpenReceived (n : Word) (base : Word) (t : Ts) (ok : Bool)
  /-- LV_DELTA_RECEIVED (R365). The records and their bytes; `ok`: the frame's CRC holds. -/
  | lvDeltaReceived (recs : List Machine.LvRec) (bytes : Nat) (ok : Bool)
  /-- LV_COMMIT_RECEIVED (R366). The body's fields; `crc`: its CRC over the records holds; `ok`: the frame's CRC holds. -/
  | lvCommitReceived (n : Word) (bytes : Word) (frames : Half) (flags : Half) (crc : Bool) (ok : Bool)
  /-- LV_CMD_FWD_RECEIVED (R368). The body; `ok`: its CRC holds. -/
  | lvCmdFwdReceived (d : List Byte) (ok : Bool)
  /-- LV_FAULT_RECEIVED (R370). The terminal voltages of the AO islands at the decision, in 10 mV units; `swap`: the failed unit had accepted a swap that it has sent in no epoch (R103); `ok`: the frame's CRC holds. -/
  | lvFaultReceived (volts : Vector Int 4) (swap : Bool) (ok : Bool)
  /-- LV_PRES_IN_FALL (R370). -/
  | lvPresInFall
  /-- PRES_CHECK_EXPIRY (R370). The terminal voltages of the AO islands at the decision, in 10 mV units; `swap`: the failed unit had accepted a swap that it has sent in no epoch (R103). -/
  | presCheckExpiry (volts : Vector Int 4) (swap : Bool)
  /-- LV_HEARTBEAT_LOSS (R370). The terminal voltages of the AO islands at the decision, in 10 mV units; `swap`: the failed unit had accepted a swap that it has sent in no epoch (R103). -/
  | lvHeartbeatLoss (volts : Vector Int 4) (swap : Bool)
  /-- AO_HELD_RECHECK (R373). The terminal voltage in 10 mV units; `low`: it has stayed below 0.3 V for 1 ms. -/
  | aoHeldRecheck (c : Fin 4) (v : Int) (low : Bool)
  /-- SPLIT_CHECK_EXPIRY (R375). -/
  | splitCheckExpiry
  /-- SPLIT_PARTNER_LOSS (R376). -/
  | splitPartnerLoss
  /-- REVERT_HOLD_EXPIRY (R377). -/
  | revertHoldExpiry
  /-- LVN_HANDOVER (R377). -/
  | lvnHandover (src : Source)
  /-- LV_REVERT_REQ_RECEIVED (R378). `handover`: byte 1 of the envelope says HANDOVER_REQ; `ok`: the frame's CRC holds. -/
  | lvRevertReqReceived (handover : Bool) (ok : Bool)
  /-- LV_REVERT_PLAN_RECEIVED (R378). The hand-over time T, 0 cancels; `ok`: the frame's CRC holds. -/
  | lvRevertPlanReceived (t : Ts) (ok : Bool)
  /-- REVERT_FREEZE (R378). -/
  | revertFreeze
  /-- REVERT_ACK_DEADLINE (R378). -/
  | revertAckDeadline
  /-- REVERT_SWITCH (R378). On the taking unit: the groups whose drivers are on and without fault, the channels whose loopback confirms. -/
  | revertSwitch (dio : BitVec 2) (ao : BitVec 4)
  /-- LV_CONFIRM_RECEIVED (R378). Groups and channels confirmed; `ok`: the frame's CRC holds. -/
  | lvConfirmReceived (dio : Byte) (ao : Byte) (ok : Bool)
  /-- LV_REVERT_FAIL_RECEIVED (R379). `ok`: the frame's CRC holds. -/
  | lvRevertFailReceived (ok : Bool)
  /-- REVERT_RELEASE (R378). -/
  | revertRelease
  /-- REVERT_END (R378). -/
  | revertEnd
  /-- LV_IMAGE_RECEIVED (R380). The body; `ok`: the frame's CRC holds. -/
  | lvImageReceived (d : List Byte) (ok : Bool)
  /-- PARTNER_UPDATE_DONE (R380). The reads of the partition succeeded. -/
  | partnerUpdateDone (ok : Bool)
  /-- LVN_STOP (R383). The value written to `LVN_CTL.STOP`. -/
  | lvnStop (src : Source) (stop : Bool)
  /-- LVN_LOOP_TEST (R383). The value written to `LVN_CTL.LOOP`. -/
  | lvnLoopTest (src : Source) (depth : BitVec 2)
  /-- LVN_LOOP_DONE (R383). Errors counted in the test. -/
  | lvnLoopDone (errors : Nat)
  /-- SLICE_CLOSE (R390). -/
  | sliceClose (n : Fin 80)
  /-- REC_ENTRY (R398). `sub`: an entry of the subtree. -/
  | recEntry (sub : Bool)
  /-- SLICE_FLUSH_EXPIRY (R394). -/
  | sliceFlushExpiry
  /-- RING_FLUSH_EXPIRY (R397). -/
  | ringFlushExpiry
  /-- REC_FLUSH (R394). -/
  | recFlush
  /-- PAGE_COMMIT_DONE (R396). -/
  | pageCommitDone
  /-- REC_COMMIT_TIMEOUT (R398). -/
  | recCommitTimeout
  /-- CHECKPOINT_TIMER (R399). -/
  | checkpointTimer
  /-- REC_RECOVERY (R400). -/
  | recRecovery
  /-- REC_RECOVERY_DONE (R400). -/
  | recRecoveryDone
  /-- REC_FORMAT (R389). -/
  | recFormat (src : Source) (key : Byte)
  /-- REC_STOP (R394). -/
  | recStop (stop : Bool)
  /-- REC_READ_SEQ (R404). -/
  | recReadSeq (ring : Bool)
  /-- REC_FIND_TIME (R404). -/
  | recFindTime (ring : Bool)
  /-- REC_READ_NEXT (R404). -/
  | recReadNext (ring : Bool)
  /-- REC_READ_OPEN (R404). -/
  | recReadOpen (ring : Bool)
  /-- REC_READ_DONE (R404). `media`: the read failed at the eMMC. -/
  | recReadDone (media : Bool)
  /-- MMC_COMMAND_FAIL (R406). A CRC error, else a timeout; the command and its response; `ok`: a reinitialisation that follows succeeds. -/
  | mmcCommandFail (crc : Bool) (cmd : BitVec 6) (rsp : Word) (ok : Bool)
  /-- MMC_REINIT_TIMER (R406). `ok`: the reinitialisation succeeds. -/
  | mmcReinitTimer (ok : Bool)
  /-- PNL_UPDATE_REQUEST (R424). A write to `PNL_UPD_CMD`. -/
  | pnlUpdateRequest (src : Source) (tag : Byte) (split : Bool) (mode : BitVec 4)
  /-- PNL_RAILS_READY (R411). -/
  | pnlRailsReady
  /-- PNL_RAIL_IDLE (R412). -/
  | pnlRailIdle
  /-- PNL_RAIL_FAULT (R413). -/
  | pnlRailFault
  /-- PNL_RAIL_RETRY (R413). -/
  | pnlRailRetry
  /-- PNL_RAIL_FAULT_RETRY (R413). -/
  | pnlRailFaultRetry
  /-- PNL_RETRY (R413). -/
  | pnlRetry
  /-- PNL_REFRESH (R424). -/
  | pnlRefresh
  /-- PNL_TEMP_SAMPLE (R415). `PNL_TEMP` in mV. -/
  | pnlTempSample (mv : BitVec 12)
  /-- PNL_VCOM_CHANGE (R417). -/
  | pnlVcomChange
  /-- PNL_FRAME_BOUNDARY (R425). Rows of the frame that were delayed. -/
  | pnlFrameBoundary (late : Nat)
  /-- FB_APERTURE_WRITE (R421). A word at a byte offset in the aperture. -/
  | fbApertureWrite (src : Source) (off : Half) (v : Word)
  /-- RND_REDRAW (R433). -/
  | rndRedraw
  /-- RND_PAGE_SELECT (R430). A write to `RND_CTL`. -/
  | rndPageSelect (src : Source) (page : BitVec 2) (group : BitVec 10)
  /-- RND_KEY_UP (R436). -/
  | rndKeyUp
  /-- RND_KEY_DOWN (R436). -/
  | rndKeyDown
  /-- RND_KEY_PAGE (R436). -/
  | rndKeyPage
  /-- RND_KEY_SELECT (R436). -/
  | rndKeySelect
  /-- RND_KEY_ACK (R436). -/
  | rndKeyAck
  /-- RND_KEY_ACK_PAGE (R436). -/
  | rndKeyAckPage
  /-- RND_KEY_SILENCE (R436). -/
  | rndKeySilence
  /-- RND_KEY_ACK_CALL (R436). `RND_KEY.ENG`. -/
  | rndKeyAckCall (eng : BitVec 5)
  /-- RND_KEY_DUTY (R436). `RND_KEY.ENG`. -/
  | rndKeyDuty (eng : BitVec 5)
  /-- RND_KEY_BAD (R436). -/
  | rndKeyBad (key : BitVec 4)
  /-- HOST_READ (R443). A read transaction: the header bytes that the host sends, four, or five with CRC. -/
  | hostRead (h : Fin 2) (mode3 : Bool) (header : List Byte)
  /-- HOST_WRITE (R445). A write transaction: every byte that the host sends. -/
  | hostWrite (h : Fin 2) (mode3 : Bool) (bytes : List Byte)
  /-- HOST_WRITE_APPLY (R448). -/
  | hostWriteApply (h : Fin 2)
  /-- HOST_SLEEP_CHANGE (R452). The level that `Hx_SLP` has held for its filter time. -/
  | hostSleepChange (h : Fin 2) (level : Bool)
  /-- HOST_IDLE_DOORBELL (R452). -/
  | hostIdleDoorbell (h : Fin 2) (idle : Bool)
  /-- HOST_DOORBELL (R453). A write to `HP_DOORBELL_A`, or with `b` to `HP_DOORBELL_B`. -/
  | hostDoorbell (b : Bool) (payload : Word)
  /-- EVR_RECORD_WRITE (R459). The router writes the next record for this host. -/
  | evrRecordWrite (h : Fin 2)
  /-- EVR_CLAIM (R460). -/
  | evrClaim (h : Fin 2)
  /-- EVR_EOI (R461). -/
  | evrEoi (h : Fin 2)
  /-- EVR_EN_SET (R456). -/
  | evrEnSet (src : Source) (n : Fin 16) (mask : Word)
  /-- EVR_EN_CLR (R456). -/
  | evrEnClr (n : Fin 16) (mask : Word)
  /-- EVR_PND_SET (R456). -/
  | evrPndSet (n : Fin 16) (mask : Word)
  /-- EVR_PND_CLR (R456). -/
  | evrPndClr (n : Fin 16) (mask : Word)
  /-- EVR_TARGET_CHANGE (R456). -/
  | evrTargetChange (src : BitVec 9) (target : Fin 2)
  /-- EVR_HOLD_WRITE (R457). -/
  | evrHoldWrite (hold : Bool)
  /-- EVR_HOLDOFF_EXPIRY (R464). -/
  | evrHoldoffExpiry (h : Fin 2)
  /-- AGE_REF_CHECK (R470). VREFA and VREFB against the master reference in 0.001 ppm. -/
  | ageRefCheck (c : Fin 16) (a : Int) (b : Int)
  /-- AGE_AO_GAIN (R471). The DAC's own gain error in 0.001 ppm, and the seconds of samples behind it. -/
  | ageAoGain (c : Fin 4) (err : Int) (secs : Nat)
  /-- AGE_DIO_SWITCH (R472). The hourly mean of R₂₅ in 0.001 mΩ. -/
  | ageDioSwitch (c : Fin 16) (r25 : Nat)
  /-- AGE_TCXO_SAMPLE (R473). -/
  | ageTcxoSample
  /-- AGE_HOLD_TEST (R474). Capacitance in 0.001 µF and ESR in 0.001 mΩ, should the test run; whether the partner tests, and whether the test is abandoned. -/
  | ageHoldTest (cap : Nat) (esr : Nat) (partner : Bool) (abandoned : Bool)
  /-- AGE_EMMC_WEAR (R475). Life codes and PRE_EOL_INFO of EXT_CSD. -/
  | ageEmmcWear (lifeA : Byte) (lifeB : Byte) (eol : Byte)
  /-- AGE_BARRIER_TEST (R476). The domain, by its item less 40, and its insulation resistance in kΩ. -/
  | ageBarrierTest (d : Fin 24) (r : Nat)
  /-- AGE_LEDGER_PAGE (R480). `ok`: the eMMC takes the page. -/
  | ageLedgerPage (ok : Bool)
  /-- AGE_LEDGER_SCAN_DONE (R480). -/
  | ageLedgerScanDone
  /-- AGE_ACK_DUE (R478). `AGE_CMD.ITEM`. -/
  | ageAckDue (src : Source) (item : Byte)
  /-- AGE_REBASE (R477). `AGE_CMD.ITEM`. -/
  | ageRebase (src : Source) (item : Byte)
  /-- AGE_TEST_HOLD (R474). As for AGE_HOLD_TEST. -/
  | ageTestHold (cap : Nat) (esr : Nat) (partner : Bool) (abandoned : Bool)
  /-- AGE_MEASURE (R469). What the measurement of the item gives. -/
  | ageMeasure (m : AgeMeas)
  /-- AGE_CMD_BAD_OP (R478). -/
  | ageCmdBadOp (src : Source)
  /-- PERIODIC_LOOPBACK (R483). Whether the cell's loopbacks pass, whether the retry does, and the failure's cause code less 1. -/
  | periodicLoopback (t : LoopCell) (pass : Bool) (retry : Bool) (cause : Fin 5)
  /-- DIO_FIELD_LOOPBACK (R484). The fields of `TST_FIELD`. -/
  | dioFieldLoopback (src : BitVec 5) (sink : BitVec 5)
  /-- FIELD_LOOPBACK_DONE (R484). Whether the sink read every level, and the largest difference of its edges in µs. -/
  | fieldLoopbackDone (levels : Bool) (skew : Nat)
  /-- JTAG_INSTRUCTION (R487). The instruction loaded, and the level of `TRSTN`. -/
  | jtagInstruction (ir : BitVec 4) (trstn : Bool)
  /-- REGISTER_WRITE (R5). A write of a word at a byte address. -/
  | registerWrite (src : Source) (addr : BitVec 24) (value : Word)
  /-- READ_CLEAR (R5). A read of the register at this byte address, which holds an RC field. -/
  | readClear (addr : BitVec 24)
  /-- TIME_LO_READ (R8). A read of the _LO timestamp register at this byte address. -/
  | timeLoRead (addr : BitVec 24)
  /-- NETWORK_TIME_WAIT_EXPIRY (R80). -/
  | networkTimeWaitExpiry
  /-- AO_ISLAND_POWERED (R143). -/
  | aoIslandPowered (c : Fin 4)
  /-- DIO_DIAG_CLEAR (R176). The condition's bit. -/
  | dioDiagClear (c : Fin 16) (bit' : Fin 19)
  /-- PS_PULSE_REJECTED (R196). -/
  | psPulseRejected (c : Fin 2)
  /-- FLOOD_STATE_REQ_PACE (R332). -/
  | floodStateReqPace
  /-- LV_PRES_IN_RISE (R357). -/
  | lvPresInRise
  /-- LV_IMAGE_SEND (R380). -/
  | lvImageSend
  /-- RECIPE_SECTION_RELOAD_DONE (R40). The section's identifier. -/
  | recipeSectionReloadDone (sec : Byte)
deriving DecidableEq, Repr

end Sys2Proof
end

