-- ==== Sys2Proof/Decode.lean ====
section
/-! DEFINITION. Decode: the commands that a word spells. The spec's table of commands gives no row any bits, so no word
spells one. -/
namespace Sys2Proof

/-- The command that a word of the table's bits spells: none, as no row has bits. -/
def decodeTableWord (_nbits _w : Nat) : Option Instr := none

end Sys2Proof
end

