-- ==== Sys2Proof/Config.lean ====
section
/-! DEFINITION. Config: what a part fixes at manufacture, and the free values that stand where the spec leaves a value
open. None has a body, so no proof can rest on a value of theirs. -/
namespace Sys2Proof.Config

open Sys2Proof

/-- Hardware issue, set at manufacture (SYS_ID.HWREV, ch. 4). -/
opaque hwRev : Byte

/-- The 64-bit serial number, set at manufacture (SYS_SERIAL_LO and _HI, ch. 4). -/
opaque serial : BitVec 64

/-- The free value drawn as the `n`th (log 1). -/
opaque freeWord : Nat → BitVec 64

/-- The quotient of `n` by zero in a measurement (log 4). -/
opaque divZero : Int → Int

/-- Whether an inexact quotient of a measurement is rounded up (log 4). -/
opaque roundUp : Int → Int → Bool

/-- The internal shunt of UI channel `c`, from 0, in µΩ, from factory calibration (R112). -/
opaque intShunt : Nat → Nat

/-- Whether the platinum result lies one unit above the exact inverse rounded down, within the error of the method
(R112, log 5). -/
opaque ptUp : Int → Bool

/-- Error of the method in 0.001 °C of a nickel result, by the resistance in µΩ; no more than 2 is used (R112, log 5). -/
opaque nickelErr : Int → Int

/-- Error of the method in 0.001 °C of a thermocouple result, by TYPE and EMF in nV, of which no more than 5 is used; how
far beyond the measuring range an extrapolated result lies (R112, R113, log 5). -/
opaque tcErr : Nat → Int → Int

/-- EMF in nV of a thermocouple TYPE at a temperature outside the range of its reference function (R112, log 5). -/
opaque tcOutside : Nat → Int → Int

/-- The states in codes of the two poles of the 25 Hz HART filter after one more cycle, its output first, from the
states before and the level asked for: the filter's transient is not given (R142, log 6). -/
opaque hartFilter : Nat × Nat → Nat → Nat × Nat

/-- Node `n` lies below manager `m` in the installation: no frame tells a manager which of its members a node further
down belongs to (R324, R327, log 17). -/
opaque below : Nat → Nat → Bool

/-- A byte of the framebuffer's current plane that the renderer has drawn, by its drawing and its address: the layout of
lines and cells is not given (R430, R431, log 21). -/
opaque rndByte : Nat → Nat → Byte

end Sys2Proof.Config
end

