-- ==== Sys2Proof/Machine/Bits.lean ====
section
/-! DEFINITION. Bits: fields of words, signed fields, saturating counts, byte order, checksums and timestamps. -/
namespace Sys2Proof.Machine

open Sys2Proof

/-- The field of `n` bits of `w` whose lowest bit is `lo`. -/
def fld {k : Nat} (w : BitVec k) (lo n : Nat) : Nat := (w.toNat / 2 ^ lo) % 2 ^ n

/-- Bit `i` of a word. -/
def bit {k : Nat} (w : BitVec k) (i : Nat) : Bool := w.getLsbD i

/-- A field of `n` bits in two's complement. -/
def sfld {k : Nat} (w : BitVec k) (lo n : Nat) : Int :=
  if fld w lo n < 2 ^ (n - 1) then (fld w lo n : Int) else (fld w lo n : Int) - 2 ^ n

/-- A word that holds `v`, cut to `n` bits, at bit `lo` and 0 elsewhere. -/
def put (lo n v : Nat) : Word := BitVec.ofNat 32 ((v % 2 ^ n) * 2 ^ lo)

/-- A word that holds the signed value `v` in `n` bits at bit `lo`. -/
def putI (lo n : Nat) (v : Int) : Word := put lo n (v % (2 ^ n : Nat)).toNat

/-- A word that holds a flag at bit `lo`. -/
def putB (lo : Nat) (b : Bool) : Word := if b then put lo 1 1 else 0

/-- `w` with its field of `n` bits at `lo` replaced by `v`. -/
def setFld (w : Word) (lo n v : Nat) : Word :=
  (w &&& ~~~(put lo n (2 ^ n - 1))) ||| put lo n v

/-- One more, up to the greatest value a saturating counter shows. -/
def satInc (limit n : Nat) : Nat := if n < limit then n + 1 else limit

/-- `k` more, up to the greatest value a saturating counter shows. -/
def satAdd (limit n k : Nat) : Nat := min limit (n + k)

/-- A signed value held between two bounds. -/
def clampI (lo hi v : Int) : Int := if v < lo then lo else if hi < v then hi else v

/-- The bytes of `w`, least significant first (R3). -/
def bytesLE (n v : Nat) : List Byte :=
  (List.range n).map fun i => BitVec.ofNat 8 (v / 2 ^ (8 * i))

/-- The number that bytes spell, least significant first (R3). -/
def ofBytesLE : List Byte → Nat
  | [] => 0
  | b :: bs => b.toNat + 256 * ofBytesLE bs

/-- One bit of the IEEE 802.3 CRC-32, in its reflected form. -/
def crc32Bit (c : Nat) : Nat := if c % 2 = 1 then (c / 2) ^^^ 0xEDB88320 else c / 2

/-- One byte of the IEEE 802.3 CRC-32. -/
def crc32Byte (c : Nat) (b : Byte) : Nat :=
  (List.range 8).foldl (fun x _ => crc32Bit x) (c ^^^ b.toNat)

/-- CRC-32, IEEE 802.3 polynomial, over bytes in order (R69, R85, R87). -/
def crc32 (bs : List Byte) : Word :=
  BitVec.ofNat 32 ((bs.foldl crc32Byte 0xFFFFFFFF) ^^^ 0xFFFFFFFF)

/-- One byte of the CRC-16 with polynomial 0x1021, not reflected. -/
def crc16Byte (c : Nat) (b : Byte) : Nat :=
  (List.range 8).foldl
    (fun x _ => (if 0x8000 ≤ x then (x * 2) ^^^ 0x1021 else x * 2) % 0x10000)
    (c ^^^ (b.toNat * 256))

/-- CRC-16 of a recipe section: polynomial 0x1021, initial value 0xFFFF, no inversion (R88). -/
def crc16 (bs : List Byte) : Nat := bs.foldl crc16Byte 0xFFFF

/-- One byte of the CRC-8 with polynomial 0x07. -/
def crc8Byte (c : Nat) (b : Byte) : Nat :=
  (List.range 8).foldl
    (fun x _ => (if 0x80 ≤ x then (x * 2) ^^^ 0x07 else x * 2) % 0x100)
    (c ^^^ b.toNat)

/-- CRC-8 of an SPI transaction: polynomial 0x07, initial value 0xFF (R446). -/
def crc8 (bs : List Byte) : Byte := BitVec.ofNat 8 (bs.foldl crc8Byte 0xFF)

/-- 20 ns ticks in one second. -/
def ticksPerSec : Nat := 50000000

/-- Ticks in `n` milliseconds. -/
def ms (n : Nat) : Nat := n * 50000

/-- Ticks in `n` seconds. -/
def sec (n : Nat) : Nat := n * ticksPerSec

/-- The timestamp of a system time counted in 20 ns ticks since the epoch (R8): whole seconds in 34 bits,
nanoseconds below one second in 30 bits. -/
def stampOf (ticks : Nat) : Ts :=
  BitVec.ofNat 64 ((ticks / ticksPerSec % 2 ^ 34) * 2 ^ 30 + ticks % ticksPerSec * 20)

/-- A received timestamp is invalid when its nanosecond field reaches a full second (R8). -/
def stampValid (t : Ts) : Bool := decide (fld t 0 30 < 1000000000)

/-- The system time in ticks that a valid timestamp names; the part below one tick is dropped (R8). -/
def ticksOf (t : Ts) : Nat := fld t 30 34 * ticksPerSec + fld t 0 30 / 20

/-- A received timestamp in ticks; an invalid one names no time, and `dflt` stands for it (R8). -/
def stampTicks (t : Ts) (dflt : Nat) : Nat := if stampValid t then ticksOf t else dflt

/-- Bits 31:0 of a timestamp. -/
def loWord (t : Ts) : Word := BitVec.ofNat 32 t.toNat

/-- Bits 63:32 of a timestamp. -/
def hiWord (t : Ts) : Word := BitVec.ofNat 32 (t.toNat / 2 ^ 32)

end Sys2Proof.Machine
end

