-- ==== Sys2Proof/Machine/State.lean ====
section
/-! DEFINITION. State: everything the spec gives the block, as plain data; a field's default is its value at reset.
One structure per block of the part; registers whose fields are read-only summaries are held as their fields and packed
when they are read. -/
namespace Sys2Proof.Machine

open Sys2Proof

/-- Why the block stops with a fault. No command of this block stops so: the spec gives each an effect. -/
inductive Fault where
  /-- The machine has no fault of its own: raised by no command; safe. -/
  | none
deriving DecidableEq, Repr

/-- Why a command has no meaning. -/
inductive Refusal where
  /-- Raised by an arm of `exec` whose command has no meaning yet; safe. -/
  | notModelled (mnemonic : String)
deriving DecidableEq, Repr

/-! ### Module level: regions, faults, identity, contacts (ch. 1, 2, 4, 20) -/

/-- State of a region, coded as in `SYS_RGN_STAT` (R53). -/
inductive RgnState where
  | down
  | inReset
  | init
  | ready
  | held
deriving DecidableEq, Repr

/-- One of the five regions: ACQ 0, ALM 1, LNK 2, KEP 3, FCE 4 (R37). -/
structure Region where
  /-- `SYS_RGN_STAT` field, 3 bits in 4; reset 2 (SYS_RGN_STAT, ch. 2). -/
  st : RgnState := .init
  /-- HOLD bit of `SYS_RGN_RST`; reset 0 (R53). -/
  hold : Bool := false
  /-- Reset count announced with READY (R53); DESIGN CHOICE 0 (log 3). -/
  resets : Nat := 0
  /-- Times of the block faults in the window of 60 s (R57); empty at every start. -/
  blkFaults : List Nat := []
  /-- Times of the region resets in the window of 10 min (R57); empty at every start. -/
  rgnResets : List Nat := []
  /-- Times of TIMEOUT and PARITY responses in the window of 1 ms (R57); empty at every start. -/
  segErrs : List Nat := []
  /-- The region powered down because it had no work in DOZE (R74). -/
  dozing : Bool := false
  /-- The region has been reset and has not raised READY since (R53), and when it was reset, by the count of TCXO cycles. -/
  wasReset : Bool := false
  since : Nat := 0
deriving DecidableEq, Repr

/-- Condition of the module, `SYS_STATE.MODE` (ch. 4). -/
inductive Mode where
  | starting
  | inService
  | bare
  | safe
  | lastBreath
deriving DecidableEq, Repr

/-- Power state, `SYS_PWR_STAT.STATE` (R73). -/
inductive Power where
  | start
  | run
  | doze
  | dormant
  | lastBreath
  | safe
deriving DecidableEq, Repr

/-- The logic-side contacts that the module drives, at their reset states (R27). -/
structure Pins where
  /-- `FAULTN` asserted; reset asserted. -/
  faultLow : Bool := true
  /-- `STAT2` and `STAT1` as a 2-bit code; reset 0 (R82). -/
  stat : BitVec 2 := 0
  /-- `CANA_STB` to `CAND_STB`; reset high. -/
  canStb : Vector Bool 4 := Vector.replicate 4 true
  /-- `MMC_PWR`; reset low. -/
  mmcPwr : Bool := false
  /-- `MMC_RSTN`; reset low. -/
  mmcRstn : Bool := false
  /-- `LV_PRES_OUT`; reset low (R357). -/
  presOut : Bool := false
  /-- `PNL_PWREN`; reset low. -/
  pnlPwren : Bool := false
  /-- The TCXO count at which the pulse on `SYNC_OUT` ends: high before it; reset low (R349). -/
  syncEnd : Nat := 0
  /-- `HA_INTN` and `HB_INTN` driven low; reset high. -/
  intLow : Vector Bool 2 := Vector.replicate 2 false
deriving DecidableEq, Repr

/-- The levels of the logic-side input contacts that the logic samples; an open contact shows its internal resistor's
level (R27). The levels come from outside, so a start keeps them. -/
structure Inputs where
  /-- `ROLE`, which has no internal resistor; DESIGN CHOICE low, the level R30 gives an unpaired module (log 3). -/
  role : Bool := false
  /-- `RESETN`, pulled up. -/
  resetn : Bool := true
  /-- `TESTMODE`, pulled down. -/
  testmode : Bool := false
  /-- `HA_SLP` and `HB_SLP` as last filtered, pulled down (R452). -/
  slp : Vector Bool 2 := Vector.replicate 2 false
  /-- `LV_PRES_IN` as filtered, pulled down (R357). -/
  presIn : Bool := false
deriving DecidableEq, Repr

/-- `SYS_FLT_LAST` and `SYS_FLT_TIME`: the record of the most recent fault (R505). -/
structure FltRec where
  /-- 2 bits; reset 0, kept through resets. -/
  level : Nat := 0
  /-- 6 bits; reset 0, kept through resets. -/
  block : Nat := 0
  /-- 8 bits; reset 0, kept through resets. -/
  cell : Nat := 0
  /-- 8 bits; reset 0, kept through resets. -/
  cause : Nat := 0
  /-- `SYS_FLT_TIME_LO` and `_HI`, 64 bits; reset 0, kept through resets. -/
  time : Ts := 0
deriving DecidableEq, Repr

/-- `SYS_WERR`: the last ignored write (ch. 4). -/
structure Werr where
  /-- 4 bits; reset 0. -/
  reason : Nat := 0
  /-- 4 bits; reset 0. -/
  src : Nat := 0
  /-- 24 bits; reset 0. -/
  addr : Nat := 0
  /-- `SYS_WERR_CNT.CNT`, 8 bits, saturating; reset 0. -/
  cnt : Nat := 0
deriving DecidableEq, Repr

/-- The supervisor's own state and the module-wide registers. -/
structure Sys where
  regions : Vector Region 5 := Vector.replicate 5 {}
  /-- `SYS_STATE.MODE`; reset 0. -/
  mode : Mode := .starting
  /-- `SYS_STATE.STEP`, 4 bits; reset 1 (R80). -/
  step : Nat := 1
  /-- `SYS_STATE.BARE_CAUSE`, 4 bits; reset 0 (R91). -/
  bareCause : Nat := 0
  /-- The TCXO count at the last start, from which HEARTBEAT counts the seconds (R339). -/
  startMono : Nat := 0
  /-- The moment, in ticks of system time, at which start inhibit ends; none while none runs (R94). -/
  inhEnd : Option Nat := none
  /-- The role sampled from `ROLE`: 0 unit A, 1 unit B (R30); DESIGN CHOICE unit A before the first sample (log 3). -/
  roleB : Bool := false
  /-- Block identifier and cell of each isolated cell, rising (R43, R44); none at reset. -/
  isolated : List (Nat × Nat) := []
  fltLast : FltRec := {}
  /-- A module-level fault is latched and keeps the record until the next start (R505). -/
  fltLatched : Bool := false
  /-- `SYS_FLT_CNT.CORR`, 16 bits, saturating; reset 0. -/
  cntCorr : Nat := 0
  /-- `SYS_FLT_CNT.RGN`, 8 bits, saturating; reset 0. -/
  cntRgn : Nat := 0
  /-- `SYS_FLT_CNT.BLK`, 8 bits, saturating; reset 0. -/
  cntBlk : Nat := 0
  /-- Times of the supervisor's restarts in the window of 60 min; kept by every reset, lost with power-good (R58). -/
  restarts : List Nat := []
  werr : Werr := {}
  /-- `SYS_PWR_STAT.STATE`, 3 bits; reset 0 (R73). -/
  power : Power := .start
  /-- `SYS_PWR_CTL.DOZE_EN`; reset 0. -/
  dozeEn : Bool := false
  /-- A DORMANT request has been accepted and its entry is still to come (R75). -/
  dormantReq : Bool := false
  /-- `SYS_PWR_STAT.LASTREQ`, 3 bits; reset 0 (R75). -/
  lastReq : Nat := 0
  /-- `SYS_PWR_STAT.WAKESRC`, 10 bits; reset 0 (R76). -/
  wakeSrc : Nat := 0
  /-- `SYS_WATCH0` to `SYS_WATCH15`, 32 bits each; reset 0 (R77). -/
  watch : Vector Word 16 := Vector.replicate 16 0
  /-- The watch words written in DORMANT, which take effect at the next wake (ch. 3, Caution). -/
  watchNext : Vector Word 16 := Vector.replicate 16 0
  /-- `SYS_CLK_STAT.TCXO_OFS`, signed 16 bits, 0.01 ppm; reset 0. -/
  tcxoOfs : Int := 0
  /-- `SYS_CLK_STAT.ON_RC`; reset 1 (R70). -/
  onRc : Bool := true
  /-- `SYS_CLK_STAT.XTAL_FAIL`; reset 0. -/
  xtalFail : Bool := false
  /-- `SYS_CLK_STAT.MISMATCH`, W1C; reset 0. -/
  mismatch : Bool := false
  /-- `SYS_CLK_STAT.PLL_LOCK`; reset 0. -/
  pllLock : Bool := false
  /-- The high half that the last read of a _LO timestamp register latched, by the register's address (R8). -/
  hiLatch : List (Nat × Word) := []
  /-- Response code and word of the last read by `READ_CLEAR` or `TIME_LO_READ`: the model's own field (log 27). -/
  readOut : Nat × Word := (0, 0)
  /-- The module's AO and DIO outputs have left their reset state (R81); not at reset. -/
  outEn : Bool := false
  pins : Pins := {}
  inp : Inputs := {}
  /-- `TESTMODE` was high at power-good, so the module does not start (R33). -/
  testHold : Bool := false
  /-- Sections of the active recipe bank under reload, with the time of the double-bit error (R40). -/
  secErrs : List (Nat × Nat) := []
  /-- Those whose reload is still to complete. -/
  reloading : List Nat := []
deriving DecidableEq, Repr

/-- How an outstanding fabric request stands at its requester (R51). -/
inductive FabStat where
  /-- On its way; the target has not answered. -/
  | inFlight
  /-- The reply is posted and on its way back: response code and data. -/
  | replied (code : Nat) (data : Word)
  /-- Waiting for the target region's READY event. -/
  | waitReady
  /-- Waiting 10 µs after BUSY. -/
  | waitBusy
  /-- Waiting for the answer to SEQ_QUERY. -/
  | waitSeq
  /-- To be sent again at once. -/
  | resend
deriving DecidableEq, Repr

/-- An outstanding request of a block, with what its requester keeps of it (R47 to R51). -/
structure FabOut where
  req : FabReq
  /-- Sequence number, carried by a request that is not idempotent (R50). -/
  seq : Half := 0
  stat : FabStat := .inFlight
  /-- Resends after TIMEOUT or PARITY, at most 2. -/
  tries : Nat := 0
  /-- Resends after BUSY, at most 100. -/
  busyTries : Nat := 0
  /-- The last answer, 3 bits. -/
  last : Nat := 0
  /-- The reply's data, once it was received. -/
  data : Word := 0
deriving DecidableEq, Repr

/-- The fabric between the regions (R39 to R56). -/
structure Fabric where
  /-- The outstanding requests, oldest first; at most 16 of each requester (ch. 2). -/
  out : List FabOut := []
  /-- The last sequence number applied, by requester × 64 + target; 0 where none was applied (R50). -/
  seqs : List (Nat × Nat) := []
  /-- The sequence number of each requester's next request that is not idempotent, by requester × 64 + target (R50). -/
  next : List (Nat × Nat) := []
  /-- Requests that ended with BAD_ADDR, REFUSED or after their last resend, reported to the requester (R51). -/
  failed : List (FabReq × Nat) := []
  /-- The reply that a requester received last: request, code, data. -/
  lastReply : Option (FabReq × Nat × Word) := none
deriving DecidableEq, Repr

/-! ### Supply monitor (ch. 3) -/

/-- Condition of a feed, `SYS_SUP_STAT.F1` and `F2` (R60). -/
inductive FeedCond where
  | inRange
  | low
  | lost
  | high
deriving DecidableEq, Repr

/-- One feed. -/
structure Feed where
  /-- F1 or F2; reset 0. -/
  cond : FeedCond := .inRange
  /-- OPEN1 or OPEN2; reset 0 (R59). -/
  isOpen : Bool := false
  /-- REV1 or REV2; reset 0 (R59). -/
  rev : Bool := false
  /-- `SYS_SUP_VIN` field, 16 bits, 10 mV; reset 0. -/
  volt : Half := 0
  /-- The measurements of the last 1 ms, one every 100 µs, the latest first (R60, R69). -/
  hist : List Half := []
deriving DecidableEq, Repr

/-- `SYS_SUP_STAT.HOLD` (R64). -/
inductive HoldCond where
  | ok
  | charging
  | absent
  | fault
deriving DecidableEq, Repr

/-- `SYS_SUP_STAT.TEMP` (R78). -/
inductive TempCond where
  | normal
  | low
  | high
  | over110
deriving DecidableEq, Repr

/-- The rate limit of a monitored quantity's events (R79). -/
structure Holdoff where
  /-- 100 ms run since the last event. -/
  running : Bool := false
  /-- The condition code last reported, 0 before the first. -/
  last : Nat := 0
deriving DecidableEq, Repr

/-- The supply monitor. -/
structure Supply where
  feeds : Vector Feed 2 := Vector.replicate 2 {}
  /-- `SYS_SUP_STAT.HOLD`; reset 1, charging. -/
  hold : HoldCond := .charging
  /-- HOLD's charger runs (R64); off at reset. -/
  charging : Bool := false
  /-- The diode between HOLD and the bus is held open (R62); open at reset. -/
  diodeOpen : Bool := true
  /-- HOLD as last measured, 16 bits, 10 mV; `SYS_SUP_HOLD.VOLT` shows a quarter of it; reset 0. -/
  holdVolt : Half := 0
  /-- `SYS_SUP_HOLD.CAP`, 12 bits, 10 µF; reset 0. -/
  cap : Nat := 0
  /-- `SYS_SUP_HOLD.ESR`, 8 bits, 2 mΩ; reset 0. -/
  esr : Nat := 0
  /-- `SYS_SUP_STAT.PFAIL`; reset 0 (R66). -/
  pfail : Bool := false
  /-- `SYS_SUP_STAT.TEMP`; reset 0. -/
  temp : TempCond := .normal
  /-- The back plate has reached +120 °C and not yet fallen below +115 °C (R78); not at reset. -/
  plateOver : Bool := false
  /-- The logic die has reached +140 °C and not yet fallen below +135 °C (R78); not at reset. -/
  dieOver : Bool := false
  /-- `SYS_TEMP.PLATE`, signed 16 bits, 0.1 °C; reset 0. -/
  plate : Int := 0
  /-- `SYS_TEMP.DIE`, signed 16 bits, 0.1 °C; reset 0. -/
  die : Int := 0
  /-- Power-good stands (R62); absent at reset. -/
  powerGood : Bool := false
  /-- The HOLD_ABSENT event is held back until the recipe is loaded (R64). -/
  absentHeld : Bool := false
  /-- Rate limits of VIN1, VIN2, the back plate, DIO groups 1 and 2 (R79). -/
  holdoff : Vector Holdoff 5 := Vector.replicate 5 {}
  /-- Timestamp of POWER_FAIL (R69). -/
  pfTime : Ts := 0
  /-- VIN1 and VIN2 as measured 1 ms before POWER_FAIL (R69). -/
  pfVolt : Vector Half 2 := Vector.replicate 2 0
  /-- The step that LAST_BREATH has reached, 0 outside it (R67). -/
  breathStep : Nat := 0
  /-- A feed has left LOST since LAST_BREATH began (R68). -/
  breathFeed : Bool := false
deriving DecidableEq, Repr

/-! ### Recipes (ch. 4) -/

/-- State of a recipe, `RCP_STAT.A_STATE` and `B_STATE` (ch. 4). -/
inductive RcpState where
  | empty
  | invalid
  | writing
  | verifying
  | valid
  | restartOnly
  | active
deriving DecidableEq, Repr

/-- One of the two recipes: boot partition, bank and what the registers show of it. -/
structure Recipe where
  /-- Boot partition: 2 MiB image and the boot-config sector at 0x200000; in the eMMC, outside the block (R84). -/
  part : List (Nat × Byte) := []
  /-- Recipe bank, 2 MiB; bytes beyond the image read 0 (R451). -/
  bank : List (Nat × Byte) := []
  /-- A_STATE or B_STATE; reset 0. -/
  st : RcpState := .empty
  /-- `RCP_SEQ_x`, 32 bits; reset 0. -/
  seq : Word := 0
  /-- `RCP_CRC_x`, 32 bits; reset 0. -/
  crc : Word := 0
deriving DecidableEq, Repr

/-- The recipe engine. -/
structure Rcp where
  recipes : Vector Recipe 2 := Vector.replicate 2 {}
  /-- `RCP_STAT.ACTIVE`: 0 recipe A, 1 recipe B; reset 0. -/
  active : Fin 2 := 0
  /-- `RCP_STAT.CFG_PEND`; reset 0. -/
  cfgPend : Bool := false
  /-- The last boot-config write failed and waits for its retry (R102). -/
  cfgFailed : Bool := false
  /-- Cause of the boot-config write that is pending, 8 bits (R85). -/
  cfgCause : Nat := 0
  /-- `RCP_STAT.SWAP_PEND`; reset 0. -/
  swapPend : Bool := false
  /-- The requester of the accepted swap (R102). -/
  swapSrc : Source := .chip
  /-- The moment, in ticks of system time, at which the swap was accepted (R99). -/
  swapReq : Nat := 0
  /-- A SWAP that waits for ALM's READY, with its requester (R98). -/
  swapWait : Option Source := none
  /-- The peers whose VERIFY and SWAP by RCP_XFER await their RSP (R343). -/
  verRef : Option Half := none
  swapRef : Option Half := none
  /-- The first epoch that carried the accepted swap to the standby (R103). -/
  swapEpoch : Option Word := none
  /-- The standby has seen the swap in an epoch that it could not apply (R103). -/
  swapHeard : Bool := false
  /-- `RCP_STAT.PARTNER_STALE`; reset 0. -/
  partnerStale : Bool := false
  /-- `RCP_STAT.OWNER`; none at reset. -/
  owner : Option Source := none
  /-- Blocks written since OPEN (R96). -/
  written : List Nat := []
  /-- Block 0 as held in RCP until VERIFY (R96). -/
  block0 : List (Nat × Byte) := []
  /-- `RCP_BUF`, 4 KiB; reset 0. -/
  buf : List (Nat × Byte) := []
  /-- A VERIFY runs (R95). -/
  verifying : Bool := false
  /-- `RCP_RESULT.OP`, 8 bits; reset 0. -/
  resOp : Nat := 0
  /-- `RCP_RESULT.CODE`, 8 bits; reset 0. -/
  resCode : Nat := 0
  /-- `RCP_RESULT.DETAIL`, 16 bits; reset 0. -/
  resDetail : Nat := 0
  /-- `RCP_SWAP_TIME_LO` and `_HI`; reset 0. -/
  swapTime : Ts := 0
  /-- Failed attempts to initialise the eMMC since the start (R83). -/
  mmcFails : Nat := 0
  /-- The bank of the active recipe is loaded (R80 step 6). -/
  loaded : Bool := false
  /-- The position in the BARE search of CAN bit rates, 0 to 15, and whether a combination was found (R92). -/
  bareCombo : Nat := 0
  bareFound : Bool := false
  /-- Consecutive received frames of CAN0 and CAN1 that ended with errors in BARE (R92). -/
  bareErrs : Vector Nat 2 := Vector.replicate 2 0
deriving DecidableEq, Repr

/-! ### Universal inputs (ch. 5) -/

/-- What an island does; STOPPED, ISOLATED and UNUSED lie over it (UI_STAT.STATE, R123). -/
inductive UiPhase where
  | off
  | powering
  | calibrating
  | run
  | listen
deriving DecidableEq, Repr

/-- One universal input channel with its island. -/
structure Ui where
  /-- `UI_CFG0` to `UI_CFG6`, 32 bits each; reset 0. -/
  cfg : Vector Word 7 := Vector.replicate 7 0
  /-- The settings in force: the island takes its registers at a cycle boundary (R99, R131). -/
  use : Vector Word 7 := Vector.replicate 7 0
  /-- A swap has changed the registers, and the conversion in progress completes under the old settings (R99). -/
  changing : Bool := false
  /-- `UI_VAL`, signed 32 bits; reset 0. -/
  val : Int := 0
  /-- `UI_RAW`, 24 bits; reset 0. -/
  raw : BitVec 24 := 0
  /-- `UI_STAT.CONV_CNT`, 16 bits, wrapping; reset 0. -/
  convCnt : Half := 0
  /-- Results delivered to PEV, the system time at which the last one's conversion ended, and the count of TCXO cycles
  then (R212, R218). -/
  results : Nat := 0
  valTime : Nat := 0
  valMono : Nat := 0
  /-- The last result of an earlier scan period than the last one's (R215). -/
  prior : Prior := {}
  /-- `UI_STAT.QUAL`, 3 bits; reset 2, BAD_SENSOR. -/
  qual : Nat := 2
  /-- `UI_STAT.STATE` below STOPPED, ISOLATED and UNUSED; reset 0, OFF. -/
  phase : UiPhase := .off
  /-- `UI_DSTAT`, 17 bits; reset 0. -/
  dstat : BitVec 17 := 0
  /-- `UI_DIAG`, 17 bits; reset 0. -/
  diag : BitVec 17 := 0
  /-- R1 or Ra, R2 or Rb, R3, R4 in 10 mΩ units as last measured (`UI_LEAD01`, `UI_LEAD23`); reset 0. -/
  leads : Vector Nat 4 := Vector.replicate 4 0
  /-- `UI_TCLOOP.LOOP` as measured, 0.1 Ω; reset 0. -/
  tcLoop : Nat := 0
  /-- The loop baseline in 0.1 Ω × 2^32; `UI_TCLOOP.BASE` shows its whole part; reset 0. -/
  tcBase : Nat := 0
  /-- Tests that the forming baseline has taken, 64 once it is formed (R121). -/
  tcTests : Nat := 0
  /-- Sum of those tests in 0.1 Ω. -/
  tcSum : Nat := 0
  /-- Consecutive tests above, and below, the thresholds (R121). -/
  tcHigh : Nat := 0
  tcLow : Nat := 0
  /-- `UI_CJ.ISLAND`, signed 16 bits; reset 0. -/
  island : Int := 0
  /-- `UI_CJ.CJ`, signed 16 bits, 0.01 °C; reset 0. -/
  cj : Int := 0
  /-- `UI_EXC_MEAS`, nA; reset 0. -/
  excMeas : Nat := 0
  /-- `UI_TXS.VOLT`, 16 bits; reset 0. -/
  txsVolt : Half := 0
  /-- `UI_TXS.CURR`, 16 bits; reset 0. -/
  txsCurr : Half := 0
  /-- `UI_CAL_OFS`; reset 0. -/
  calOfs : Word := 0
  /-- `UI_CAL_GAIN`; reset 0. -/
  calGain : Word := 0
  /-- Quality that the last conversion's failure gave, 0 where it did not fail (R57, R120). -/
  failQ : Nat := 0
  /-- The last value that had quality GOOD or UNCERTAIN (R120). -/
  lastGood : Int := 0
  /-- Conversions still to come before the first valid result after a change (R107). -/
  settle : Nat := 0
  /-- Conversions for which the point still holds after a crumb injection (UI_CMD.CRUMB). -/
  hold : Nat := 0
  /-- The result that follows such a hold has not been delivered yet (R218). -/
  crumbed : Bool := false
  /-- A test window was commanded (UI_CMD.TEST). -/
  testReq : Bool := false
  /-- The calibration in progress is the one at island start (R123). -/
  startCal : Bool := false
  /-- Island temperature at the last calibration, 0.01 °C (R123). -/
  calTemp : Int := 0
  /-- The transmitter supply is switched on (R110, R122); off at reset. -/
  txsOn : Bool := false
  /-- The excitation is switched on (R109, R125); off at reset. -/
  excOn : Bool := false
  /-- The island waits for the partner's excitation to end after a take-over (R128). -/
  excWait : Bool := false
  /-- The sensor voltage of the last conversion in listen mode, nV (R128). -/
  lastListen : Int := 0
  /-- The active unit's excitation current of the last committed epoch, nA (R126). -/
  epochExc : Nat := 0
  /-- The last conversion showed I ≤ 3.6 mA, I ≥ 21.0 mA, I < 1.0 mA (R119). -/
  neLow : Bool := false
  neHigh : Bool := false
  neOpen : Bool := false
  /-- VREFA and VREFB differ by more than 1000 ppm (R119). -/
  refBad : Bool := false
deriving DecidableEq, Repr

/-- The common registers of the UI blocks. -/
structure UiBlk where
  /-- `UI_BLK_CTL.STOP0` and `STOP1`; reset 0. -/
  stop : Vector Bool 2 := Vector.replicate 2 false
deriving DecidableEq, Repr

/-! ### Loop outputs (ch. 6) -/

/-- What a loop output's island does below OPEN, STOPPED, ISOLATED, UNUSED and TRIM (AO_STAT.STATE, R143). -/
inductive AoPhase where
  | off
  | powering
  | calibrating
  | run
  | noPower
deriving DecidableEq, Repr

/-- One loop output with its island. -/
structure Ao where
  /-- `AO_CFG0`, `AO_CFG1`, `AO_CFG2`, `AO_SCALE_LO`, `AO_SCALE_HI`, 32 bits each; reset 0. -/
  cfg : Vector Word 5 := Vector.replicate 5 0
  /-- The settings that the island works with: the registers' when it last took them (R99, R160). -/
  use : Vector Word 5 := Vector.replicate 5 0
  /-- The settings changed at a swap: the quality is UNCERTAIN until the next cell cycle (R99). -/
  changing : Bool := false
  /-- `AO_SET`, 16 bits; reset 0. -/
  set : Half := 0
  /-- The command that PEV posted last under SRC 1, in codes (R141). -/
  srcCmd : Nat := 0
  /-- The source point was unusable at the last post (R141). -/
  srcBad : Bool := false
  /-- The slope-limited command, in half codes of 0.2 µA (R142). -/
  ramp : Nat := 0
  /-- The level behind the HART filter, in codes, and the state of the filter's other pole (R142). -/
  filt : Nat := 0
  filtIn : Nat := 0
  /-- The level chosen last by orders 3 to 7, in codes, before trim (R142). -/
  level : Nat := 0
  /-- `AO_OUT.CODE`, 16 bits; reset 0. -/
  code : Nat := 0
  /-- `AO_OUT.WHY`, 4 bits; reset 8. -/
  why : Nat := 8
  /-- `AO_VAL`, signed 32 bits, nA; reset 0. -/
  curr : Int := 0
  /-- `AO_VOLT.TERM`, signed 16 bits, 10 mV; reset 0. -/
  term : Int := 0
  /-- `AO_VOLT.HEAD`, 16 bits, 10 mV; reset 0. -/
  head : Nat := 0
  /-- `AO_STAT.CYCLE_CNT`, 16 bits, wrapping; reset 0. -/
  cycles : Half := 0
  /-- System time at the end of the last cell cycle, and the count of TCXO cycles then (R212, R218). -/
  cycTime : Nat := 0
  cycMono : Nat := 0
  /-- The last cycle of an earlier scan period than the last one's (R215). -/
  prior : Prior := {}
  /-- `AO_STAT.CLK`, 2 bits; reset 0. -/
  clk : Fin 4 := 0
  /-- `AO_STAT.QUAL`, 3 bits; reset 2, BAD_SENSOR. -/
  qual : Nat := 2
  /-- `AO_STAT.STATE` below OPEN, STOPPED, ISOLATED, UNUSED and TRIM; reset 0, OFF. -/
  phase : AoPhase := .off
  /-- `AO_DSTAT`, 13 bits; reset 0. -/
  dstat : BitVec 13 := 0
  /-- `AO_DIAG`, 13 bits; reset 0. -/
  diag : BitVec 13 := 0
  /-- `AO_TRIM`: Z and S, signed codes; reset 0. -/
  trimZ : Int := 0
  trimS : Int := 0
  /-- `AO_TRIM_REQ`, 32 bits; reset 0. -/
  trimReq : Word := 0
  /-- Trim mode at the zero (false) or span (true) point, with the trim to restore (R153). -/
  trimMode : Option (Bool × Int × Int) := none
  /-- The trim record stored in the eMMC's ledger area; outside the block, so that a start keeps it (R155). -/
  trimStored : Int × Int := (0, 0)
  /-- `AO_HART_CTL.TX_LEN`, 9 bits; reset 0. -/
  txLen : Nat := 0
  /-- `AO_HART_TX`, 256 bytes; reset 0. -/
  tx : List (Nat × Byte) := []
  /-- `AO_HART_RX`, 256 bytes; reset 0. -/
  rx : List (Nat × Byte) := []
  /-- `AO_HART_STAT.PERR`, 8 bits; reset 0. -/
  perr : Nat := 0
  /-- `AO_HART_STAT.RX_LEN`, 9 bits; reset 0. -/
  rxLen : Nat := 0
  /-- `AO_HART_STAT.TX_RES`, 3 bits; reset 0. -/
  txRes : Nat := 0
  /-- `AO_HART_STAT.OVR`; reset 0. -/
  ovr : Bool := false
  /-- `AO_HART_STAT.RX_DONE`; reset 0. -/
  rxDone : Bool := false
  /-- `AO_HART_STAT.TX_BUSY`; reset 0. -/
  txBusy : Bool := false
  /-- `AO_HART_STAT.CD`; reset 0. -/
  cd : Bool := false
  /-- The phase in which a sink island lost its supply (R139). -/
  lostFrom : AoPhase := .off
  /-- Milliseconds left in which the wanted level is tried again under COMPLIANCE (R146). -/
  retry : Nat := 0
  /-- The frame that the modem sends now, preamble included; none while it sends none (R157). -/
  sending : Option (List Byte) := none
  /-- No keepalive has arrived for 100 µs (R148). -/
  keepLost : Bool := false
  /-- Consecutive keepalive echoes missed (R483). -/
  echoMiss : Nat := 0
  /-- Consecutive cycles in which the current differed from the level by more than 80 µA (R144). -/
  readCnt : Nat := 0
  /-- The level of the last committed epoch that a unit which takes control drives, until the first command (R150, R151). -/
  takeLevel : Option Nat := none
  /-- The level that a swap keeps, until the next scan (R101, R161). -/
  swapLevel : Option Nat := none
  /-- The source point is new or has left at a swap: the output keeps its reset state until a scan writes it (R101). -/
  waitPost : Bool := false
  /-- The level frozen for a hand-over (R151). -/
  frozen : Option Nat := none
  /-- The active unit's level in codes and measured current in nA of the last committed epoch (R145, R150). -/
  epochLevel : Nat := 0
  epochCurr : Int := 0
  /-- Released by a hand-over, until it ends (R378). -/
  released : Bool := false
  /-- Held open at a take-over until the terminal voltage falls (R373). -/
  held : Bool := false
deriving DecidableEq, Repr

/-- The common registers of AOB. -/
structure AoBlk where
  /-- `AO_BLK_CTL.STOP`; reset 0. -/
  stop : Bool := false
deriving DecidableEq, Repr

/-! ### Digital channels (ch. 7) -/

/-- One digital channel. -/
structure Dio where
  /-- `DIO_CFG0` to `DIO_CFG3`, 32 bits each; reset 0. -/
  cfg : Vector Word 4 := Vector.replicate 4 0
  /-- The settings that the cell works with: the registers' when it last took them (R99, R190). -/
  use : Vector Word 4 := Vector.replicate 4 0
  /-- The settings changed at a swap: the quality is UNCERTAIN until the cell samples under the new ones (R99). -/
  changing : Bool := false
  /-- `DIO_SET.CMD`, 2 bits; reset 0. -/
  set : BitVec 2 := 0
  /-- The channel has taken its settings and runs; OFF at reset (DIO_STAT.STATE). -/
  running : Bool := false
  /-- `DIO_STAT.CMD`, the command in the latch, 2 bits; reset 0. -/
  latch : BitVec 2 := 0
  /-- `DIO_STAT.LEVEL`; reset 0. -/
  level : Bool := false
  /-- `DIO_LEVELS.RAW`; reset 0. -/
  raw : Bool := false
  /-- The switch is on. -/
  on : Bool := false
  /-- `DIO_STAT.WHY`, 4 bits; reset 5. -/
  why : Nat := 5
  /-- `DIO_DSTAT`, 19 bits; reset 0. -/
  dstat : BitVec 19 := 0
  /-- `DIO_DIAG`, 19 bits; reset 0. -/
  diag : BitVec 19 := 0
  /-- `DIO_CURR.VOLT`, signed 16 bits, 10 mV; reset 0. -/
  volt : Int := 0
  /-- `DIO_CURR.CURR`, signed 16 bits, 0.1 mA; reset 0. -/
  curr : Int := 0
  /-- `DIO_LAMP.I_ON`, 16 bits, 0.1 mA; reset 0. -/
  iOn : Nat := 0
  /-- `DIO_LAMP.I_PROBE`, 8 bits, 0.1 mA; reset 0. -/
  iProbe : Nat := 0
  /-- `DIO_LAMP.V_LEARN`, 8 bits, 0.2 V; reset 0. -/
  vLearn : Nat := 0
  /-- The learned values, with R_learn in mΩ, as stored in the ledger area's settings sector; outside the block, so that
  a start keeps them (R183, R479). -/
  stored : Nat × Nat × Nat × Nat := (0, 0, 0, 0)
  /-- R₂₅ at the end of learning, mΩ (R472). -/
  rLearn : Nat := 0
  /-- `DIO_EDGE_LO` and `_HI`; reset 0. -/
  edge : Ts := 0
  /-- An inrush window runs (R174). -/
  inrush : Bool := false
  /-- A switch-on waits for a window (R174). -/
  waiting : Bool := false
  /-- Switched off by OVERLOAD or SHORT_CIRCUIT, waiting for a retry or latched off (R177). -/
  tripped : Bool := false
  /-- The output was switched on by a retry whose count still runs (R177). -/
  retrying : Bool := false
  /-- Consecutive failed retries (R177). -/
  fails : Nat := 0
  /-- Shed under GROUP_OVL (R181). -/
  shed : Bool := false
  /-- When the output last switched on, as a rising number (R181). -/
  onSeq : Nat := 0
  /-- The source point was unusable at the last post (R171). -/
  srcBad : Bool := false
  /-- The level frozen for a hand-over (R189). -/
  frozen : Option Bool := none
  /-- The level before the safe state or DORMANT (R173). -/
  before : Bool := false
  /-- The command pattern kept until the next scan writes the output, since a take-over, or with `true` since a swap, at
  whose scan a SRC 0 output takes `DIO_SET` (R101, R188, R191). -/
  hold : Option (BitVec 2 × Bool) := none
  /-- The source point is new or has left at a swap: the output keeps its reset state until a scan writes it (R101). -/
  waitPost : Bool := false
  /-- Until this count of TCXO cycles lamp watch and the current-based diagnostics rest (R188). -/
  hush : Nat := 0
  /-- Learning of the on-state part: its samples, and their sums of current in 0.1 mA and voltage in 10 mV (R183). -/
  learnOn : Bool := false
  onCnt : Nat := 0
  onSum : Nat := 0
  vSum : Nat := 0
  /-- Learning of the probe part: its samples and their sum in 0.1 mA (R183). -/
  learnProbe : Bool := false
  prCnt : Nat := 0
  prSum : Nat := 0
  /-- Consecutive averages below, and at or above, the dark limit (R184). -/
  darkCnt : Nat := 0
  litCnt : Nat := 0
  /-- Consecutive settled averages that set, and that clear, LAMP_LOW (R184). -/
  lowCnt : Nat := 0
  lowClr : Nat := 0
  /-- Consecutive settled averages that set, and that clear, LAMP_HIGH (R184). -/
  highCnt : Nat := 0
  highClr : Nat := 0
  /-- Consecutive failed probes (R185). -/
  probeFails : Nat := 0
  /-- What AGE takes off OVL_TH, in 10 mA units (R472). -/
  ovlCut : Nat := 0
  /-- The resistance rise that AGE compensates, in mΩ, and its bound in percent (R472). -/
  lampRise : Int := 0
  lampBound : Nat := 0
  /-- The level, the latch and WHY of the last committed epoch (R188). -/
  epochLevel : Bool := false
  epochWhy : Nat := 5
  /-- The last committed epoch shows the partner's output released (R187). -/
  epochFree : Bool := false
  /-- The latch of the last committed epoch (R188). -/
  epochLatch : BitVec 2 := 0
deriving DecidableEq, Repr

/-- Condition of a field supply group, `DIO_GRPg.COND` (R178). -/
inductive GrpCond where
  | normal
  | warn
  | low
  | overvolt
  | lost
deriving DecidableEq, Repr

/-- One field supply group. -/
structure DioGroup where
  /-- `DIO_GRPg.COND`, 4 bits; reset 4, LOST. -/
  cond : GrpCond := .lost
  /-- `DIO_GRPg.VOLT`, 16 bits, 10 mV; reset 0. -/
  volt : Half := 0
  /-- `DIO_GRPg.CURR`, 12 bits, 10 mA; reset 0. -/
  curr : Nat := 0
  /-- No keepalive has arrived for 100 µs (R175). -/
  keepLost : Bool := false
  /-- The group's outputs are released by a hand-over, until it ends (R378). -/
  released : Bool := false
  /-- `DIO_BLK_CTL.STOPg`; reset 0. -/
  stop : Bool := false
deriving DecidableEq, Repr

/-- What the groups share: a rising number for the order of switch-ons (R181). -/
structure DioBlk where
  groups : Vector DioGroup 2 := Vector.replicate 2 {}
  /-- Switch-ons counted since the start (R181). -/
  seq : Nat := 0
deriving DecidableEq, Repr

/-! ### Speed and position (ch. 8) -/

/-- One speed and position channel. -/
structure Ps where
  /-- `PS_CFG0` to `PS_CFG3` as their registers show them, 32 bits each; reset 0. -/
  cfg : Vector Word 4 := Vector.replicate 4 0
  /-- The settings in force: a stopped block takes its registers when STOP returns to 0 (R209). -/
  use : Vector Word 4 := Vector.replicate 4 0
  /-- The channel has taken its settings and counts; OFF at reset (PS_STAT.STATE). -/
  running : Bool := false
  /-- Position, 24 bits; 0 at every start (R194). -/
  pos : Nat := 0
  /-- Revolution count, signed 32 bits, wrapping; 0 at every start (R194). -/
  rev : Word := 0
  /-- `PS_POS`; reset 0. -/
  snapPos : Nat := 0
  /-- `PS_REV`; reset 0. -/
  snapRev : Word := 0
  /-- `PS_SPEED`, 0.001 count/s; reset 0. -/
  speed : Int := 0
  /-- `PS_RPM`, 0.001 rpm; reset 0. -/
  rpm : Int := 0
  /-- Speed and position quality of the snapshot (R201); BAD_SENSOR before the first (PS_STAT.QUAL). -/
  snapSQ : Nat := 2
  snapPQ : Nat := 2
  /-- `PS_STAT.MOVING`; reset 0. -/
  moving : Bool := false
  /-- `PS_STAT.DIR`: the last counted edge counted down; reset 0. -/
  down : Bool := false
  /-- `PS_STAT.HOMED`; reset 0. -/
  homed : Bool := false
  /-- `PS_STAT.METHOD`; reset 0. -/
  gated : Bool := false
  /-- `PS_DSTAT`, 9 bits; reset 0. -/
  dstat : BitVec 9 := 0
  /-- `PS_DIAG`, 9 bits; reset 0. -/
  diag : BitVec 9 := 0
  /-- `PS_ZCAP`; reset 0. -/
  zcap : Nat := 0
  /-- `PS_ZERR`, signed; reset 0. -/
  zerr : Int := 0
  /-- `PS_PRESET_POS`; reset 0. -/
  presetPos : Word := 0
  /-- `PS_PRESET_REV`; reset 0. -/
  presetRev : Word := 0
  /-- `PS_CMP`; reset 0. -/
  cmp : Word := 0
  /-- `PS_CMP_TIME_LO` and `_HI`; reset 0. -/
  cmpTime : Ts := 0
  /-- The TCXO count at the last write of `PS_CMP` and the word before it, by which an edge in that sample is judged
(R205). -/
  cmpOld : Option (Nat × Word) := none
  /-- A single homing is armed (R199). -/
  armed : Bool := false
  /-- TCXO count of the last counted edge since speed measurement began, and the cycles between the last two in one
  direction (R201, R203). -/
  lastEdge : Option Nat := none
  period : Option Nat := none
  /-- TCXO counts of the edges in one direction within the gate, newest first (R201). -/
  gate : List Nat := []
  /-- TCXO counts of the last rising edges of A, B and Z (R206). -/
  rises : Vector (Option Nat) 3 := Vector.replicate 3 none
  /-- TCXO counts of the rejected pulses of the last 100 ms (R206). -/
  rejects : List Nat := []
  /-- Net counts travelled since the last index edge (R199). -/
  travel : Int := 0
  /-- The settings changed at a swap: quality UNCERTAIN until the next snapshot (R99). -/
  changing : Bool := false
  /-- TCXO counts of the last counted edge, and of the last RATE_HIGH and DIR_SETUP (R203, R206). -/
  lastCnt : Nat := 0
  rateAt : Nat := 0
  dirAt : Nat := 0
  /-- Counted edges, up less down, which homings and presets do not move (R208). -/
  edges : Int := 0
  /-- The last two snapshots, newest first: sample time, position, revolution count, HOMED and `edges` then (R208). -/
  snaps : List (Nat × Nat × Word × Bool × Int) := []
deriving DecidableEq, Repr

/-- The common registers of PSB. -/
structure PsBlk where
  /-- `PS_BLK_CTL.STOP`; reset 0. -/
  stop : Bool := false
deriving DecidableEq, Repr

/-! ### CAN controllers (ch. 12) -/

/-- One CAN FD controller. -/
structure Can where
  /-- `CAN_CTL.PXD`; reset 0. -/
  pxd : Bool := false
  /-- `CAN_CTL.FD_EN`; reset 0. -/
  fdEn : Bool := false
  /-- The mode in effect, `CAN_CTL.MODE`, 3 bits; reset 0, OFF (R305). -/
  mode : Nat := 0
  /-- A mode written and not yet in effect (R305). -/
  modeReq : Option Nat := none
  /-- `CAN_NBT`, 32 bits; reset 0. -/
  nbt : Word := 0
  /-- `CAN_DBT`, 32 bits; reset 0. -/
  dbt : Word := 0
  /-- `CAN_TDC` with TDCV, 32 bits; reset 0. -/
  tdc : Word := 0
  /-- `CAN_STAT.TEC`, 8 bits; reset 0. -/
  tec : Nat := 0
  /-- `CAN_STAT.REC`, 7 bits; reset 0. -/
  recv : Nat := 0
  /-- `CAN_STAT.TDC_RANGE`, W1C; reset 0. -/
  tdcRange : Bool := false
  /-- `CAN_STAT.ALONE`; reset 0. -/
  alone : Bool := false
  /-- `CAN_STAT.STATE`: 0 OFF, 1 integrating, 2 error-active, 3 error-passive, 4 bus-off, 5 recovering; reset 0. -/
  st : Nat := 0
  /-- `CAN_ERR`: FIELD, TYPE and TX; reset 0. -/
  errField : Nat := 0
  errType : Nat := 0
  errTx : Bool := false
  /-- `CAN_CNT`: BUSOFF, DBIT, FOREIGN, PXE, 8 bits each; reset 0. -/
  cntBusoff : Nat := 0
  cntDbit : Nat := 0
  cntForeign : Nat := 0
  cntPxe : Nat := 0
  /-- `CAN_RXCNT`: HOST_OVR, 16 bits, IMZ_OVR and PARITY, 8 bits each; reset 0. -/
  hostOvr : Nat := 0
  imzOvr : Nat := 0
  rxParity : Nat := 0
  /-- `CAN_TXPEND`; reset 0. -/
  txPend : BitVec 32 := 0
  /-- Abort requested while the frame is on the bus (R307). -/
  abortReq : BitVec 32 := 0
  /-- `CAN_RXNEW_LO` and `_HI`: NEWDAT for the hosts; reset 0. -/
  rxNew : BitVec 64 := 0
  /-- NEWDAT for IMZ (R309); reset 0. -/
  imzNew : BitVec 64 := 0
  /-- `CAN_RXHEAD.HEAD`; reset 0. -/
  head : Nat := 0
  /-- `CAN_RXHEAD.FRAMES`, 16 bits, wrapping; reset 0. -/
  frames : Half := 0
  /-- Message RAM: 32 transmit buffers at 0, 64 receive buffers at 0x1000, 128 bytes each (R312); DESIGN CHOICE 0 (log
  3). -/
  ram : List (Nat × Byte) := []
  /-- Requests that a reset of LNK cleared and IMZ submits again after READY (R308). -/
  kept : BitVec 32 := 0
  /-- Consecutive attempts that ended with an acknowledgement error (R315). -/
  ackErrs : Nat := 0
  /-- Times of bus-off within the last 10 s (R313). -/
  offs : List Nat := []
deriving DecidableEq, Repr

/-! ### Points, annunciation, groups (ch. 9, 10); times are system time in ticks -/

/-- A transition entry (R262). -/
structure TrEntry where
  /-- Global point address, 23 bits. -/
  addr : Nat := 0
  /-- Event, marks, times, states before and after, cause, category, origin and quality, as R262 lays them out. -/
  event : Nat := 0
  hidden : Bool := false
  unlocked : Bool := false
  replay : Bool := false
  resync : Bool := false
  time : Ts := 0
  onset : Ts := 0
  before : Nat := 0
  after : Nat := 0
  cause : Nat := 0
  cat : Nat := 0
  origin : Nat := 0
  qual : Nat := 0
  /-- Origin location MACHINERY. -/
  loc : Bool := false
  /-- The value, the entry's sequence number and the origin's detail (R262). -/
  value : Word := 0
  seq : Half := 0
  detail : Half := 0
deriving DecidableEq, Repr

/-- The Imzin command that an answer goes to (R340): requester, tag, opcode, and whether it lies downstream. -/
structure ReqRef where
  node : Half
  tag : Byte
  op : Byte
  down : Bool
deriving DecidableEq, Repr

/-- Who gave a point, annunciation or call command: origin code, origin detail, location MACHINERY, its ack time, the
answer owed, and whether it is a replay (R254, R256, R259). -/
structure Origin where
  code : Nat := 0
  detail : Half := 0
  loc : Bool := false
  ack : Nat := 0
  ref : Option ReqRef := none
  replay : Bool := false
deriving DecidableEq, Repr

/-- A `PT_CMD` that waits for the next scan start (R225). -/
structure PtCmd where
  op : Nat
  slot : Nat
  subst : Word
  org : Origin
deriving DecidableEq, Repr

/-- The point evaluator. -/
structure Pev where
  pts : Vector Pnt 80 := Vector.replicate 80 {}
  /-- The point table as the last scan end posted it: the 128 bytes of each slot (R246, R247); before the first, those of
  slots without a point (R93; log 28). -/
  table : Vector (List Byte) 80 := Vector.ofFn fun i => if i.val < 40 then emptyRecord else List.replicate 128 0
  /-- `PT_SCAN_STAT.LAST_DUR`, 16 bits; reset 0. -/
  lastDur : Half := 0
  /-- `PT_SCAN_STAT.LATE`, 8 bits; reset 0. -/
  late : Nat := 0
  /-- `PT_SCAN_STAT.PERIOD`, 3 bits; reset 1. -/
  period : Nat := 1
  /-- `PT_SCAN_NUM`; reset 0. -/
  num : Word := 0
  /-- `PT_SCAN_TIME_LO` and `_HI` in ticks; reset 0. -/
  start : Nat := 0
  /-- The command that waits: `PT_CMD_RES.PEND`; none at reset. -/
  cmd : Option PtCmd := none
  /-- `PT_CMD_RES`: OP, CODE, SLOT; reset 0. -/
  resOp : Nat := 0
  resCode : Nat := 0
  resSlot : Nat := 0
  /-- `PT_SUBST`; reset 0. -/
  subst : Word := 0
  /-- `PT_PEND_CNT.SUPPR` and `SENT`, 16 bits each; reset 0. -/
  suppr : Nat := 0
  sent : Nat := 0
  /-- The earliest start of the next scan after a swap that changed the base scan (R102). -/
  minStart : Nat := 0
  /-- Scans run: from start step 8 until the alarm service stops (R80, R58). -/
  running : Bool := false
deriving DecidableEq, Repr

/-- An annunciation command that waits for its scan (R257 to R261). -/
structure AnnCmd where
  op : Nat
  scope : Nat
  target : Nat
  minutes : Nat
  /-- It came through `ALM_CMD`, which reports its result. -/
  reg : Bool
  org : Origin
  /-- The panel key that gave it, 0 none, and further points that it names (R436). -/
  key : Nat := 0
  more : List Nat := []
deriving DecidableEq, Repr

/-- The annunciator. -/
structure Ann where
  /-- Commands that wait, oldest first, at most 32 (R260). -/
  queue : List AnnCmd := []
  /-- `ALM_CMD_ARG.MIN`, 11 bits; reset 0. -/
  arg : Nat := 0
  /-- `ALM_CMD_RES`: PEND, OP, CODE, COUNT; reset 0. -/
  pend : Bool := false
  resOp : Nat := 0
  resCode : Nat := 0
  resCount : Nat := 0
  /-- `ALM_LOST`: IMZ 16 bits, REC 8 bits, CMD 8 bits; reset 0. -/
  lostImz : Nat := 0
  lostRec : Nat := 0
  lostCmd : Nat := 0
  /-- `ALM_TR_SEQ.SEQ`, 16 bits, wrapping; reset 0. -/
  seq : Half := 0
  /-- Entries on their way to REC, oldest first, at most 64 (R272). -/
  recQ : List TrEntry := []
  /-- SILENCE of the node-wide horn (R271). -/
  silenced : Bool := false
deriving DecidableEq, Repr

/-- The group processor. -/
structure GrpBlk where
  /-- Groups by number; an unlisted group stands at its start. -/
  groups : List (Nat × Grp) := []
  /-- Members on other nodes by point address. -/
  mems : List (Nat × RemRec) := []
  /-- Nodes whose report is awaited, rising (R273). -/
  incNodes : List Nat := []
  /-- `GRP_STAT.DROP`, 8 bits; reset 0. -/
  drop : Nat := 0
deriving DecidableEq, Repr

/-! ### Call service (ch. 11) -/

/-- A `CALL_CMD`, or a selection or answer by another way, that waits for the scan end (R288, R289). -/
structure CallCmd where
  /-- 1 SELECT_DUTY, 2 ACK_CALL, 3 a CALL_ACK frame from a unit. -/
  op : Nat
  /-- Engineer: 0 to 15, 0xFF anonymous. -/
  eng : Nat
  session : Nat
  /-- Source code of the selection (R289), or the answering unit's code (R292, byte 21). -/
  src : Nat
  /-- Point address that a CALL_ACK carries (R288). -/
  addr : Nat
  /-- It came through `CALL_CMD`, which reports its result. -/
  reg : Bool
  org : Origin
  /-- The panel key that gave it, 0 none (R436). -/
  key : Nat := 0
deriving DecidableEq, Repr

/-- The call service. -/
structure Call where
  /-- Sessions by context number, 0 to 255; an unlisted one is IDLE. -/
  sess : List (Nat × Sess) := []
  /-- The overflow session, 256. -/
  ovf : Sess := {}
  /-- The wait list, oldest first, at most 512 (R291). -/
  wait : List WaitAlarm := []
  /-- The wait list has no room for an alarm that was lost (R292). -/
  lostNow : Bool := false
  /-- Alarms that start a session at the next scan end. -/
  starts : List WaitAlarm := []
  /-- Points removed at a swap, whose sessions end with cause REMOVED (R285). -/
  removed : List Nat := []
  /-- Duty engineer; none at reset. -/
  duty : Option Nat := none
  /-- `CALL_DUTY.SRC`, 3 bits; reset 0. -/
  dutySrc : Nat := 0
  /-- `CALL_DUTY.CONFLICT`; reset 0. -/
  conflict : Bool := false
  /-- The duty changed since the last scan end (R290). -/
  dutyNew : Bool := false
  /-- `CALL_UNIT_LOST0` and `_LOST1`; reset 0. -/
  lost : BitVec 64 := 0
  /-- Commands that wait for the scan end. -/
  cmds : List CallCmd := []
  /-- `CALL_CMD_RES`: PEND, OP, CODE, SESSION; reset 0. -/
  pend : Bool := false
  resOp : Nat := 0
  resCode : Nat := 0
  resSess : Nat := 0
  /-- `CALL_CNT`: ACK_REJ, LOST, UNIT_LOSS, REESC, 8 bits each; reset 0. -/
  ackRej : Nat := 0
  lostCnt : Nat := 0
  unitLoss : Nat := 0
  reescCnt : Nat := 0
  /-- SATURATED as last announced. -/
  satSent : Bool := false
deriving DecidableEq, Repr

/-! ### Imzin and time (ch. 13) -/

/-- An alarm frame in the IMZ queue (R272, R331). -/
structure AlmFrame where
  /-- 0x10 ALM_TRANS, 0x11 ALM_PENDING, 0x12 ALM_RETRACT. -/
  typ : Nat
  addr : Nat
  onset : Ts
  /-- It passes without a token (R331). -/
  free : Bool
  data : List Byte
deriving DecidableEq, Repr

/-- A PENDING that the node published and has not yet closed (R237). -/
structure Notice where
  addr : Nat
  onset : Ts
  /-- It has won arbitration on a bus. -/
  won : Bool := false
  /-- It has left the queue for the controllers. -/
  sent : Bool := false
  /-- The ALM_RETRACT that follows if the frame, on the bus when it was withdrawn, still wins arbitration (R307). -/
  ret : Option (List Byte) := none
deriving DecidableEq, Repr

/-- An entry of the claim table (R324). -/
structure Claim where
  node : Nat
  serial : BitVec 64
  unitB : Bool
  /-- It claims with the CONFLICT flag. -/
  conflict : Bool := false
deriving DecidableEq, Repr

/-- A command that the node has sent and that awaits its RSP (R342). -/
structure SentCmd where
  target : Half
  tag : Byte
  down : Bool
  data : List Byte
  tries : Nat
deriving DecidableEq, Repr

/-- The Imzin engine. -/
structure Imz where
  /-- `IMZ_STAT`: FLOOD, MGR_LOST, CONFLICT, JOINED; reset 0. -/
  flood : Bool := false
  mgrLost : Bool := false
  conflict : Bool := false
  joined : Bool := false
  /-- `IMZ_CNT`: BADID, BADLEN, STRANGER, DUP, 8 bits each; reset 0. -/
  badId : Nat := 0
  badLen : Nat := 0
  stranger : Nat := 0
  dup : Nat := 0
  /-- `IMZ_FLOOD.SUPPR`, 16 bits; reset 0. -/
  suppr : Nat := 0
  /-- `IMZ_FLOOD.TOKENS`, 11 bits; reset 0. -/
  tokens : Nat := 0
  /-- `IMZ_LOST0` and `_LOST1`; reset 0. -/
  lost : BitVec 64 := 0
  /-- Alarm frames that wait, oldest first, at most 256 (R272). -/
  queue : List AlmFrame := []
  notices : List Notice := []
  /-- Frames taken from one bus whose copy on the other is discarded: bus, identifier, data, time (R320). -/
  seen : List (Nat × Nat × List Byte × Nat) := []
  claims : List Claim := []
  /-- Serial numbers of the BARE claims recorded (R323). -/
  bareSeen : List (BitVec 64) := []
  /-- TCXO count of the last HEARTBEAT on each controller (R315). -/
  hbAt : Vector (Option Nat) 4 := Vector.replicate 4 none
  /-- Unlisted nodes that raised their event (R327). -/
  strangers : List Nat := []
  /-- Suppressed frames by source node, their total and the start of the suppression (R331, R335). -/
  suppNodes : List (Nat × Nat) := []
  suppTotal : Nat := 0
  suppStart : Nat := 0
  /-- Frames suppressed since the last DIGEST (R338). -/
  suppSec : Nat := 0
  /-- Nodes still to be asked for their state after a flood (R332). -/
  askList : List Nat := []
  /-- The last DIGEST of each member manager, by member entry (R330). -/
  digests : List (Nat × List Byte) := []
  /-- Last HEARTBEAT of each member, by node: byte 3 and byte 5 (R338, R339). -/
  beats : List (Nat × Nat × Nat) := []
  /-- The state table by entry index 80 × n + s (R328). -/
  table : List (Nat × Half) := []
  /-- Heartbeat sequence, report sequence, tag of the next command sent. -/
  hbSeq : Half := 0
  repSeq : Byte := 0
  nextTag : Byte := 0
  /-- Times of data-field bit errors on own frames, and the probe's claims still to send (R325). -/
  dbits : List Nat := []
  probing : Bool := false
  sent : List SentCmd := []
  tags : List TagRec := []
  /-- Chunks of RCP_BUF received since the last WRITE_BLOCK (R343). -/
  chunks : BitVec 128 := 0
  /-- A power-fail HEARTBEAT is due at the next base scan (R66). -/
  pfHb : Bool := false
  /-- Data of the record transfer served: what remains, and its requester (R405). -/
  xferOut : List (List Byte) := []
  xferTo : Option ReqRef := none
  /-- The page being received, and its last result (R405). -/
  xferIn : List (Nat × Byte) := []
  xferCode : Nat := 0
  /-- The last RSP taken, as data. -/
  lastRsp : List Byte := []
deriving DecidableEq, Repr

/-- State of TIM, `TIM_STAT.STATE` (R347). -/
inductive TimState where
  | free
  | acquiring
  | locked
  | holdover
deriving DecidableEq, Repr

/-- A TIME_REF that awaits its TIME_FOLLOW on a bus: sequence and local start of frame in ticks (R346). -/
structure RefRx where
  seq : Half
  sof : Nat
  at' : Nat
deriving DecidableEq, Repr

/-- The time engine. -/
structure Tim where
  /-- `TIM_STAT.STATE`; reset 0, FREE (R347). -/
  st : TimState := .free
  /-- `TIM_STAT`: STEPS 16 bits, reset 0; HOPS, reset 0xFF; TRACEABLE, BUS, MSTATE, reset 0. -/
  steps : Nat := 0
  hops : Nat := 0xFF
  traceable : Bool := false
  busB : Bool := false
  mstate : Nat := 0
  /-- `TIM_OFS.THETA`, ns, signed; reset 0. -/
  theta : Int := 0
  /-- `TIM_FREQ.CORR`, 0.001 ppm, signed; reset 0. -/
  corr : Int := 0
  /-- The correction collected and not yet applied as one increment (R347). -/
  frac : Int := 0
  /-- `TIM_SET_LO` and `TIM_SET_HI`; reset 0. -/
  setLo : Word := 0
  setHi : Word := 0
  /-- A time that the next `SYNC_IN` pulse applies: its seconds (R348). -/
  atPulse : Option Nat := none
  /-- `TIM_SYNC`: PHASE, ns, signed, reset 0; REJ, 8 bits, reset 0. -/
  phase : Int := 0
  rej : Nat := 0
  /-- Consecutive rejected, and consecutive good, pulses (R348). -/
  rejRow : Nat := 0
  goodRow : Nat := 0
  /-- Consecutive good, and bad, pairs (R347). -/
  pairsOk : Nat := 0
  pairsBad : Nat := 0
  /-- TIME_REF frames that await their TIME_FOLLOW, on bus A and B. -/
  refs : Vector (Option RefRx) 2 := Vector.replicate 2 none
  /-- The last pair of each bus: sequence and θ (R346). -/
  last : Vector (Option (Half × Int)) 2 := Vector.replicate 2 none
  /-- Sequence of the last TIME_REF sent, and its start of frame on CAN2 and CAN3 (R345). -/
  refSeq : Half := 0
  /-- Bytes 2 to 7 of the last TIME_REF sent, which its TIME_FOLLOW repeats. -/
  refTail : List Byte := []
  sofs : Vector (Option (Half × Ts)) 2 := Vector.replicate 2 none
  /-- System time stepped since the last TIME_REF (R345). -/
  stepped : Bool := false
deriving DecidableEq, Repr

/-! ### Redundant pair (ch. 14) -/

/-- State of a unit in its pair, `LVN_STAT.STATE` (ch. 14). -/
inductive PairState where
  | off
  | training
  | negotiating
  | active
  | standby
  | splitActive
  | splitStandby
  | solo
  | updating
  | roleClash
  | recipeClash
deriving DecidableEq, Repr

/-- A command that the standby has logged (R368). -/
structure LogCmd where
  /-- Log sequence number of a CMD_FWD, 0 for one taken from a bus. -/
  seq : Word
  /-- Taken from a bus. -/
  bus : Bool
  /-- Ack time. -/
  time : Nat
  /-- Sender of a bus frame. -/
  src : Half
  /-- A CALL_ACK's 16 bytes, else the 64 bytes of R340. -/
  call : Bool
  data : List Byte
deriving DecidableEq, Repr

/-- What the partner's HELLO showed (R358). -/
structure Hello where
  unitB : Bool
  st : PairState
  seq : Word
  crc : Word
  serial : BitVec 64
deriving DecidableEq, Repr

/-- The pair engine. -/
structure Lvn where
  /-- `LVN_STAT.STATE`, 4 bits; reset 0, OFF. -/
  st : PairState := .off
  /-- `LVN_STAT.P_STATE`, 4 bits; reset 0. -/
  pState : PairState := .off
  /-- `LVN_STAT`: SYNCED, CHECK, PRES_FAULT (W1C), LANE0 and LANE1; reset 0. -/
  synced : Bool := false
  check : Bool := false
  presFault : Bool := false
  lanes : Vector Bool 2 := Vector.replicate 2 false
  /-- `LVN_EPOCH`, 32 bits; reset 0. -/
  epoch : Word := 0
  /-- `LVN_EPOCH_SIZE`: LEN 8 bits, BYTES 18 bits; reset 0. -/
  epochLen : Nat := 0
  epochBytes : Nat := 0
  /-- `LVN_CNT`: NACK, STRETCH, CRC, HB_MISS, 8 bits each; reset 0. -/
  cntNack : Nat := 0
  cntStretch : Nat := 0
  cntCrc : Nat := 0
  cntMiss : Nat := 0
  /-- `LVN_TAKE`: CAUSE, NEW 4 bits each, COUNT 16 bits; reset 0. -/
  takeCause : Nat := 0
  takeNew : PairState := .off
  takeCount : Half := 0
  /-- `LVN_TAKE_TIME_LO` and `_HI`; reset 0. -/
  takeTime : Ts := 0
  /-- `LVN_LINK`: LAT in ns, 16 bits; TDIFF in ns, signed 16 bits; reset 0. -/
  lat : Nat := 0
  tdiff : Int := 0
  /-- The command log, oldest first, at most 256; `LVN_LOG.ENTRIES` is its length; reset empty. -/
  log : List LogCmd := []
  /-- `LVN_LOG.LOST`, 16 bits; reset 0. -/
  logLost : Nat := 0
  /-- `LVN_CTL`: LOOP 2 bits, NO_REVERT, STOP; reset 0. -/
  loop : Nat := 0
  noRevert : Bool := false
  stop : Bool := false
  /-- `LVN_LOOP_RES`: ERRORS 8 bits, DEPTH and RESULT 4 bits each; reset 0. -/
  loopErr : Nat := 0
  loopDepth : Nat := 0
  loopRes : Nat := 0
  /-- The link has come up since the start, so that LVN trains no more (R355). -/
  trained : Bool := false
  /-- Sequence of the next HEARTBEAT, and of the next frame (R358, R359). -/
  hbSeq : Word := 0
  frSeq : Word := 0
  /-- Of the partner's last HEARTBEAT: byte 5, the health word, the last epoch committed or applied, NACK; 0 before the
  first (R359). -/
  pFlags : Byte := 0
  pHealth : Half := 0
  pEpoch : Word := 0
  pNack : Bool := false
  /-- The partner's HELLO; none before the first (R360). -/
  hello : Option Hello := none
  /-- Active: the boundary of the last epoch, in ticks (R363). -/
  lastBound : Nat := 0
  /-- Standby: the epoch held aside: its number, base and boundary time; its records (R366). -/
  opened : Option (Word × Word × Ts) := none
  recs : List LvRec := []
  /-- Active: the points' records as the standby holds them, and the slots whose own records were lost, which take them at
  the next epoch (R40). -/
  copy : Vector Pnt 80 := Vector.replicate 80 {}
  want : List Nat := []
  /-- Standby: DELTA frames and record bytes of that epoch that have arrived (R366). -/
  deltas : Nat := 0
  recBytes : Nat := 0
  /-- NACK of the next HEARTBEAT (R366). -/
  nack : Bool := false
  /-- Bytes of sweep slices applied since the link came up (R366). -/
  swept : Nat := 0
  /-- The recorder pointers of the last applied epoch (R365). -/
  ptrs : List Byte := []
  /-- The log sequence number last sent, and the command marks: the last one applied, and the start of frame of the last
  bus command applied (R365, R368). -/
  logSeq : Word := 0
  markSeq : Word := 0
  markSof : Ts := 0
  /-- Start of frame of the last bus command taken; the marks take it over at the scan that applies the queue (R365). -/
  takenSof : Ts := 0
  /-- The logged commands are replayed at the next scan start (R369). -/
  replay : Bool := false
  /-- Consecutive heartbeats with a time difference above 1 µs (R381). -/
  farRow : Nat := 0
  /-- A revert or hand-over is in progress (R378). -/
  reverting : Bool := false
  /-- Its hand-over time T; this unit takes control; it was a hand-over (R378). -/
  plan : Option Nat := none
  taking : Bool := false
  isHandover : Bool := false
  /-- This unit has sent REVERT_REQ, and no plan has followed yet (R377). -/
  asked : Bool := false
  /-- The freeze holds; the hand-over epoch; that it is acknowledged; the DIO groups and AO channels confirmed (R378). -/
  freeze : Bool := false
  handEpoch : Word := 0
  handAck : Bool := false
  confDio : Byte := 0
  confAo : Byte := 0
  /-- The revert has failed (R379). -/
  failed : Bool := false
  /-- Health bits that failed a revert and must be clear for `HOLD` first (R379). -/
  failBits : Half := 0
  /-- Presence fell, and 60 µs run in which a HEARTBEAT may arrive (R370). -/
  presCheck : Bool := false
  /-- Which image the partner sends: 0 active, 1 shadow (R380). -/
  imageKind : Nat := 0
  /-- The image being sent, and the offset of the next part (R380). -/
  sending : Option (Nat × Nat) := none
  /-- The frames that the last command that sent any put on the link: type, byte 1, body; a DELTA's body is its field
  snapshot (R358). -/
  sent : List (Nat × Nat × List Byte) := []
deriving DecidableEq, Repr

/-! ### Recorder and eMMC (ch. 15) -/

/-- State of the recorder, `REC_STAT.STATE`. -/
inductive RecState where
  | off
  | scanning
  | run
  | noSpace
  | mediaError
  | stopped
deriving DecidableEq, Repr

/-- A ring page with what its header will carry (R397). -/
structure RingPage where
  /-- Entries of 32 bytes in order of arrival, at most 127. -/
  entries : List (List Byte) := []
  /-- Entries lost before the first one, and the transition times of the first and last of them. -/
  lost : Nat := 0
  lostFirst : Ts := 0
  lostLast : Ts := 0
  start : Bool := false
  /-- First page after a take-over, with the partner's last committed sequence number. -/
  takeover : Option Word := none
deriving DecidableEq, Repr

/-- The page being committed (R396). -/
structure Commit where
  /-- Ring, else slice area. -/
  ring : Bool
  /-- The 4096 data bytes, the records in them and the times of the first and last. -/
  data : List Byte
  records : Nat
  first : Ts
  last : Ts
  /-- Slot and sequence number. -/
  slot : Nat
  seq : Word
deriving DecidableEq, Repr

/-- What the recorder keeps of an area (R399). -/
structure RecArea where
  /-- Next slot. -/
  slot : Nat := 0
  /-- `REC_SEQ_x` and `REC_OLD_x`, 32 bits; reset 0. -/
  seq : Word := 0
  old : Word := 0
  /-- `RING_WRAP` or `SLICE_WRAP`; reset 0. -/
  wrap : Bool := false
deriving DecidableEq, Repr

/-- The recorder. -/
structure Rec where
  /-- `REC_STAT.STATE`, 4 bits; reset 0. -/
  st : RecState := .off
  /-- The state that REC_CTL.STOP left, and goes back to. -/
  stopFrom : RecState := .run
  /-- `REC_STAT`: SIZE_PEND, FULLSCAN, LOSS; reset 0. -/
  sizePend : Bool := false
  fullscan : Bool := false
  loss : Bool := false
  /-- LEDGER and RING in MiB as read at the start (R388). -/
  ledger : Nat := 0
  ring : Nat := 0
  /-- The slice area and the ring. -/
  sliceArea : RecArea := {}
  ringArea : RecArea := {}
  /-- `REC_LOST`: ENTRIES 16 bits, SLICES and CRC 8 bits; reset 0. -/
  lostEntries : Nat := 0
  lostSlices : Nat := 0
  cntCrc : Nat := 0
  /-- `REC_GEN`, 32 bits; reset 0. -/
  gen : Word := 0
  /-- Slices in the open slice page with the time of its oldest; the pages that wait, at most 8 (R394). -/
  slOpen : List (List Byte) := []
  slWait : List (List (List Byte)) := []
  /-- The open ring page; the staging area, at most 64 pages (R398). -/
  rgOpen : RingPage := {}
  rgWait : List RingPage := []
  /-- The page being committed. -/
  busy : Option Commit := none
  /-- Entries lost and not yet in a page header, with the transition times of the first and last (R398). -/
  lost : Nat := 0
  lostFirst : Ts := 0
  lostLast : Ts := 0
  /-- Slices lost since the start (R399). -/
  slicesLost : Nat := 0
  /-- Checkpoint count and commits since the last (R399). -/
  ckCount : Word := 0
  ckCommits : Nat := 0
  /-- Start count since formatting. -/
  starts : Word := 0
  /-- Transition entries received from the subtree that wait for REC (R386). -/
  subQ : List TrEntry := []
  /-- `REC_RD_ARG_LO` and `_HI`; reset 0. -/
  argLo : Word := 0
  argHi : Word := 0
  /-- `REC_RD_RES`: PEND, CODE, COUNT; reset 0. -/
  rdPend : Bool := false
  rdCode : Nat := 0
  rdCount : Nat := 0
  /-- The request that is pending, and `REC_RD_SEQ`; reset 0. -/
  rdOp : Nat := 0
  rdRing : Bool := false
  rdSeq : Word := 0
  /-- The last page read, of each area. -/
  rdLast : Vector (Option Word) 2 := Vector.replicate 2 none
  /-- `REC_BUF`, 4096 bytes; reset 0. -/
  buf : List Byte := []
  /-- The last page read over Imzin, of each area (R405). -/
  xfLast : Vector (Option Word) 2 := Vector.replicate 2 none
deriving DecidableEq, Repr

/-- State of the eMMC, `MMC_STAT.STATE`. -/
inductive MmcState where
  | off
  | init
  | ready
  | busy
  | error
  | sleep
deriving DecidableEq, Repr

/-- The eMMC controller and the device's user area. -/
structure Mmc where
  /-- `MMC_STAT`: STATE 4 bits, BUS, HS; reset 0. -/
  st : MmcState := .off
  bus4 : Bool := false
  hs : Bool := false
  /-- `MMC_CAP`, sectors managed; reset 0. -/
  cap : Nat := 0
  /-- `MMC_LIFE`: LIFE_B, LIFE_A, PRE_EOL, 8 bits each; reset 0. -/
  lifeB : Nat := 0
  lifeA : Nat := 0
  preEol : Nat := 0
  /-- `MMC_ERR`: REINIT, TIMEOUT, CRC, RETRY, 8 bits each; reset 0. -/
  cntReinit : Nat := 0
  cntTimeout : Nat := 0
  cntCrc : Nat := 0
  cntRetry : Nat := 0
  /-- `MMC_LAST` and `MMC_LAST_RSP`; reset 0. -/
  last : Nat := 0
  lastRsp : Word := 0
  /-- Retries of the command at hand, and the times of the reinitialisations of 10 min (R406). -/
  retries : Nat := 0
  reinits : List Nat := []
  /-- The user area by sector number, 512 bytes each; it lies outside the block, so that a start keeps it. DESIGN CHOICE: a
  sector that nothing has written reads as 0 (log 19). -/
  user : List (Nat × List Byte) := []
deriving DecidableEq, Repr

/-! ### Panel and renderer (ch. 16) -/

/-- State of the panel drive, `PNL_STAT.STATE`. -/
inductive PnlState where
  | none
  | off
  | powering
  | run
  | railFault
deriving DecidableEq, Repr

/-- A rectangle of the panel in pixels. -/
structure Rect where
  x : Nat
  y : Nat
  w : Nat
  h : Nat
deriving DecidableEq, Repr

/-- An update request (R424). -/
structure UpdReq where
  rect : Rect
  mode : Nat
  /-- Its tag and those of the requests that it replaced (R427). -/
  tags : List Byte
  split : Bool
  /-- A part split off: the tags complete with the rest (R426). -/
  part : Bool := false
deriving DecidableEq, Repr

/-- A running update slot (R423, R428). -/
structure PnlSlot where
  req : UpdReq
  band : Nat
  /-- Frames driven, of so many. -/
  frame : Nat
  frames : Nat
  /-- Target levels: the bytes of the rectangle, by address in the plane. -/
  target : List (Nat × Byte)
deriving DecidableEq, Repr

/-- The panel drive. -/
structure Pnl where
  /-- `PNL_STAT.STATE`, 4 bits; reset 0. -/
  st : PnlState := .none
  /-- `PNL_STAT.TEMP_FAULT`; reset 0. -/
  tempFault : Bool := false
  /-- The last samples of `PNL_TEMP` in mV, at most 10, and those in a row for which V lay within range (R415). -/
  samples : List Nat := []
  okRow : Nat := 0
  /-- `PNL_TSENSE`: TEMP signed 16 bits, VOLT 12 bits; reset 0. -/
  temp : Int := 0
  volt : Nat := 0
  /-- `PNL_STAT.BAND`, 4 bits; reset 0. -/
  band : Nat := 0
  /-- `PNL_VCOM_RD.BAND`, 4 bits; reset 0. A change of VCOM is due (R417). -/
  vcomBand : Nat := 0
  vcomDue : Bool := false
  /-- `PNL_UPD_XY` and `PNL_UPD_WH`, 32 bits; reset 0. -/
  xy : Word := 0
  wh : Word := 0
  /-- `PNL_UPD_RES`: TAG, CODE; reset 0. -/
  resTag : Byte := 0
  resCode : Nat := 0
  /-- `PNL_CNT`: LATE, ABANDONED, RAILF, BUSY, 8 bits each; reset 0. -/
  late : Nat := 0
  abandoned : Nat := 0
  railf : Nat := 0
  busy : Nat := 0
  /-- `PNL_FB_PAGE`, 6 bits; reset 0. -/
  fbPage : Nat := 0
  /-- Requests that wait, in queue order, at most 32; slots that run, at most 16. -/
  queue : List UpdReq := []
  slots : List PnlSlot := []
  /-- The current and the previous plane (R420); DESIGN CHOICE 0 before the first write (log 3). -/
  cur : List (Nat × Byte) := []
  prev : List (Nat × Byte) := []
  /-- Rectangles that wait for a repair once the rails are up (R429). -/
  repairs : List Rect := []
  /-- Times of the rail faults of the last 10 min; the rails come up after a fault (R413). -/
  faults : List Nat := []
  faulted : Bool := false
  /-- The 10 s after a rail fault run (R413). -/
  resting : Bool := false
deriving DecidableEq, Repr

/-- The renderer. -/
structure Rnd where
  /-- `RND_STAT` and `RND_CTL`: PAGE 2 bits, GROUP 10 bits, SEL 10 bits; reset 0. -/
  page : Nat := 0
  group : Nat := 0
  sel : Nat := 0
  /-- First line shown. -/
  top : Nat := 0
  /-- Points listed as last drawn, in order (R431); their number is `RND_STAT.LINES`. -/
  listed : List Nat := []
  /-- What the body's lines or cells, the header and the footer showed when last drawn. -/
  body : List (List Nat) := []
  head : List Nat := []
  foot : List Nat := []
  /-- The session in the footer. -/
  session : Option Nat := none
  /-- Redraws since the last full one, and rectangles refused with BUSY (R433). -/
  redraws : Nat := 0
  owed : List Rect := []
  /-- Pixels drawn so far, by count: the model's own field, which the free pixels depend on (log 21). -/
  drawn : Nat := 0
  /-- `RND_KEY_RES`: PEND, KEY, SRCBLK, CODE; reset 0. -/
  keyPend : Bool := false
  resKey : Nat := 0
  resBlk : Nat := 0
  resCode : Nat := 0
deriving DecidableEq, Repr

/-! ### Host ports and event router (ch. 17) -/

/-- One event source (R454, `EVR_SRCn`). -/
structure EvrSrc where
  /-- Enable bit; reset 0. -/
  en : Bool := false
  /-- Pending bit; reset 0. -/
  pend : Bool := false
  /-- Occurrences latched and not yet written, 8 bits; reset 0. -/
  count : Nat := 0
  /-- SAT mark. -/
  sat : Bool := false
  /-- SOFT mark. -/
  soft : Bool := false
  /-- Payload of the latest occurrence. -/
  payload : Word := 0
  /-- Timestamp of the latest occurrence. -/
  time : Ts := 0
  /-- FILT, 8 bits; reset 0. -/
  filt : Byte := 0
  /-- TARGET: 0 host A, 1 host B; reset 0. -/
  target : Fin 2 := 0
  /-- PRI, 4 bits; reset 0. -/
  pri : BitVec 4 := 0
deriving DecidableEq, Repr

/-- An event record in a ring (R458). -/
structure RingRec where
  src : Nat := 0
  pri : Nat := 0
  count : Nat := 0
  masked : Bool := false
  withdrawn : Bool := false
  sat : Bool := false
  soft : Bool := false
  corrupt : Bool := false
  time : Ts := 0
  payload : Word := 0
deriving DecidableEq, Repr

/-- What the router keeps for one host (R458 to R464). -/
structure EvrHost where
  /-- The ring's records by index, 0 to 1023; an index not listed holds 16 bytes of 0. -/
  ring : List (Nat × RingRec) := []
  /-- `EVR_RING_x.WRITE`, 10 bits; reset 0. -/
  write : Nat := 0
  /-- Indices of the unclaimed records, oldest first; `EVR_RING_x.UNCLAIMED` is their number; reset none. -/
  unclaimed : List Nat := []
  /-- The stack, top first: priority pushed and slot of the record claimed; at most 8; reset empty. -/
  stack : List (Nat × Nat) := []
  /-- `EVR_LAST_CLAIM_x`, 32 bits; reset 0. -/
  lastClaim : Word := 0
  /-- `EVR_RUN_x.CLAIMS`, 16 bits, wrapping; reset 0. -/
  claims : Half := 0
  /-- `EVR_MOD_x`, 32 bits; reset 0. -/
  mod : Word := 0
  /-- `EVR_HSTAT_x.SPURIOUS`, 8 bits; reset 0. -/
  spurious : Nat := 0
  /-- `EVR_HSTAT_x.BAD_EOI`, 8 bits; reset 0. -/
  badEoi : Nat := 0
  /-- `EVR_HSTAT_x.STACK_FULL`, 8 bits; reset 0. -/
  stackFull : Nat := 0
  /-- `EVR_HSTAT_x.CORRUPT`, 8 bits; reset 0. -/
  corrupt : Nat := 0
  /-- Records written in the open moderation window; none while no window is open (R464). -/
  window : Option Nat := none
  /-- The highest priority of a record written in that window (R464). -/
  winPri : Nat := 0
  /-- The source of a DORMANT wake whose record is still to come (R466). -/
  waking : Option Nat := none
deriving DecidableEq, Repr

/-- The event router. -/
structure Evr where
  srcs : Vector EvrSrc 512 := Vector.replicate 512 {}
  hosts : Vector EvrHost 2 := Vector.replicate 2 {}
  /-- `EVR_HOLD.HOLD`; reset 0. -/
  hold : Bool := false
deriving DecidableEq, Repr

/-- A write transaction that a host port holds (R448): its sequence number, its first address and its words. -/
structure HeldWrite where
  seq : Half
  addr : BitVec 24
  words : List Word
deriving DecidableEq, Repr

/-- One host port (R441 to R453). -/
structure HostPort where
  /-- `HP_CTL_x.SLP_FILT`, 8 bits; reset 1. -/
  slpFilt : Byte := 1
  /-- `HP_CTL_x.CRC_REQ`; reset 0. -/
  crcReq : Bool := false
  /-- `HP_CTL_x.IDLE`; reset 0. -/
  idle : Bool := false
  /-- `HP_STAT_x.SLP`; reset 0. -/
  slp : Bool := false
  /-- `HP_STAT_x.SEQ`, 16 bits, wrapping; reset 0. -/
  seq : Half := 0
  /-- `HP_STAT_x.MODE3`; reset 0. -/
  mode3 : Bool := false
  /-- The writes held: one being applied and one more (R448). -/
  held : List HeldWrite := []
  /-- `HP_LASTW_x.SEQ`, 16 bits; reset 0. -/
  lwSeq : Half := 0
  /-- `HP_LASTW_x.INDEX`, 8 bits; reset 0. -/
  lwIndex : Nat := 0
  /-- `HP_LASTW_x.CRC`; reset 0. -/
  lwCrc : Bool := false
  /-- `HP_LASTW_x.FRAME`; reset 0. -/
  lwFrame : Bool := false
  /-- `HP_LASTW_x.CODE`, 3 bits; reset 0. -/
  lwCode : Nat := 0
  /-- `HP_CNT_x.CRC`, 8 bits; reset 0. -/
  cntCrc : Nat := 0
  /-- `HP_CNT_x.FRAME`, 8 bits; reset 0. -/
  cntFrame : Nat := 0
  /-- `HP_CNT_x.ABSENT`, 8 bits; reset 0. -/
  cntAbsent : Nat := 0
  /-- `HP_CNT_x.BUSY`, 8 bits; reset 0. -/
  cntBusy : Nat := 0
  /-- The bytes the port shifted out, from the ready byte on, in the last read; none before the first (R443). -/
  reply : List Byte := []
deriving DecidableEq, Repr

/-! ### Ageing ledger and tests (ch. 18) -/

/-- State of AGE, `AGE_STAT.STATE`. -/
inductive AgeState where
  | off
  | restoring
  | run
deriving DecidableEq, Repr

/-- One ledger item; values in thousandths of the item's unit (R469, R477, R478, R480). -/
structure AgeItem where
  /-- The item has been measured. -/
  valid : Bool := false
  value : Int := 0
  /-- The baseline; the next value becomes it while none is set (R477). -/
  base : Option Int := none
  limit : Int := 0
  /-- Values of the last 30 days since the baseline, newest first, with their times in ticks. -/
  hist : List (Nat × Int) := []
  /-- Values held since the baseline. -/
  held : Nat := 0
  /-- Margin in 0.01 %, days to limit, and the trend per day as a fraction of thousandths. -/
  margin : Nat := 0
  days : Nat := 0xFFFF
  trendN : Int := 0
  trendD : Nat := 1
  /-- Correction in force and its bound. -/
  corr : Int := 0
  bound : Int := 0
  /-- Moves of the correction within the last 24 h: time and size (R470, R471). -/
  moves : List (Nat × Int) := []
  due : Bool := false
  /-- Acknowledged, and the margin at which the bit is set again (R478). -/
  ack : Bool := false
  ackMargin : Nat := 0
  /-- LIMIT, and the correction at its bound. -/
  atLimit : Bool := false
  atBound : Bool := false
  /-- Times of the last measurement, of the baseline, and of SERVICE_DUE last set. -/
  tMeas : Ts := 0
  tBase : Ts := 0
  tDue : Ts := 0
deriving DecidableEq, Repr

/-- The ageing service. -/
structure Age where
  /-- `AGE_STAT`: STATE, MASTER_SUSPECT, SCANNING, reset 0; WFAIL, 8 bits, reset 0. -/
  st : AgeState := .off
  suspect : Bool := false
  scanning : Bool := false
  wfail : Nat := 0
  items : Vector AgeItem 64 := Vector.replicate 64 {}
  /-- Islands whose references both differ from the master: the time of the finding (R470). -/
  refBad : Vector (Option Nat) 16 := Vector.replicate 16 none
  /-- Rate corrections filed by temperature band: their sum in 0.001 ppm and count (R473). -/
  bands : Vector (Int × Nat) 16 := Vector.replicate 16 (0, 0)
  /-- Samples of the last 24 h: time and correction (R473). -/
  day : List (Nat × Int) := []
  /-- Tries of the HOLD test that have waited today (R474). -/
  holdTries : Nat := 0
  /-- Field domains below 20 MΩ, by item less 40 (R476). -/
  lowBar : BitVec 24 := 0
  /-- Update counter of the settings sector last written or read (R479). -/
  setCount : Word := 0
  /-- A change of trims or lamps is still to be written (R155, R183). -/
  setDirty : Bool := false
  /-- The next page slot and page sequence number of the ledger area (R396, R480). -/
  slot : Nat := 0
  seq : Word := 0
deriving DecidableEq, Repr

/-- The last loopback, `TST_RES`, and boundary scan. -/
structure Tst where
  /-- DETAIL 16 bits, STATE, IF, DEPTH, CHAN 4 bits each; reset 0. -/
  detail : Nat := 0
  st : Nat := 0
  face : Nat := 0
  depth : Nat := 0
  chan : Nat := 0
  /-- Source and sink channel of the DIO field loopback that runs (R484). -/
  field : Option (Fin 16 × Fin 16) := none
  /-- The instruction in the TAP; IDCODE after the TAP's reset (R486). -/
  jtag : BitVec 4 := 1
deriving DecidableEq, Repr

/-! ### The whole -/

/-- The block's state. -/
structure State where
  /-- The commands that wait, first in, first out. -/
  pending : List Instr := []
  /-- System time in 20 ns ticks since the epoch of R8 (R70); DESIGN CHOICE 0 at reset (log 2). -/
  now : Nat := 0
  /-- TCXO cycles counted, never stepped (R70); DESIGN CHOICE 0 at reset (log 2). -/
  mono : Nat := 0
  /-- How many free values have been drawn: the model's own field (log 1). -/
  drawn : Nat := 0
  sys : Sys := {}
  fab : Fabric := {}
  sup : Supply := {}
  rcp : Rcp := {}
  evr : Evr := {}
  hp : Vector HostPort 2 := Vector.replicate 2 {}
  ui : Vector Ui 16 := Vector.replicate 16 {}
  uiBlk : UiBlk := {}
  ao : Vector Ao 4 := Vector.replicate 4 {}
  aoBlk : AoBlk := {}
  dio : Vector Dio 16 := Vector.replicate 16 {}
  dioBlk : DioBlk := {}
  ps : Vector Ps 2 := Vector.replicate 2 {}
  psBlk : PsBlk := {}
  can : Vector Can 4 := Vector.replicate 4 {}
  pev : Pev := {}
  ann : Ann := {}
  grp : GrpBlk := {}
  call : Call := {}
  imz : Imz := {}
  tim : Tim := {}
  lvn : Lvn := {}
  recd : Rec := {}
  mmc : Mmc := {}
  pnl : Pnl := {}
  rnd : Rnd := {}
  age : Age := {}
  tst : Tst := {}
deriving DecidableEq, Repr

/-- The block right after reset: every field at the value the spec gives for reset, or the one the log names. -/
def State.reset : State := {}

end Sys2Proof.Machine
end

