-- ==== Sys2Proof/Machine/Table.lean ====
section
/-! DEFINITION. Table: sparse tables by number, in one canonical form, and the block's byte memories as such tables. -/
namespace Sys2Proof.Machine

open Sys2Proof

/-- The entry of key `k`, or the default that an unlisted key reads as. -/
def tblGet {α : Type} (d : α) : List (Nat × α) → Nat → α
  | [], _ => d
  | (j, v) :: t, k => if j = k then v else tblGet d t k

/-- The table without key `k`. -/
def tblDel {α : Type} : List (Nat × α) → Nat → List (Nat × α)
  | [], _ => []
  | (j, v) :: t, k => if j = k then t else (j, v) :: tblDel t k

/-- The table with `v` entered under `k`, keys rising. -/
def tblIns {α : Type} : List (Nat × α) → Nat → α → List (Nat × α)
  | [], k, v => [(k, v)]
  | (j, w) :: t, k, v =>
    if k < j then (k, v) :: (j, w) :: t
    else if k = j then (k, v) :: t
    else (j, w) :: tblIns t k v

/-- Store `v` under `k`; storing the default removes the entry, so that equal tables are equal data. -/
def tblPut {α : Type} [DecidableEq α] (d : α) (t : List (Nat × α)) (k : Nat) (v : α) : List (Nat × α) :=
  if v = d then tblDel t k else tblIns t k v

/-- The keys of a table all lie above `lo` and rise strictly, and no entry equals the default. -/
def tblWfFrom {α : Type} [DecidableEq α] (d : α) : Option Nat → List (Nat × α) → Bool
  | _, [] => true
  | lo, (k, v) :: t =>
    (match lo with | none => true | some j => decide (j < k)) && decide (v ≠ d) && tblWfFrom d (some k) t

/-- The canonical form: keys strictly rising, no entry equal to the default. -/
def tblWf {α : Type} [DecidableEq α] (d : α) (t : List (Nat × α)) : Bool := tblWfFrom d none t

/-- A byte memory: the listed bytes, every other byte 0. -/
abbrev Memory := List (Nat × Byte)

/-- The byte at an address of a memory. -/
def memGet (m : Memory) (a : Nat) : Byte := tblGet 0 m a

/-- A memory with one byte stored. -/
def memPut (m : Memory) (a : Nat) (b : Byte) : Memory := tblPut 0 m a b

/-- The canonical form of a memory. -/
abbrev Memory.wf (m : Memory) : Bool := tblWf (0 : Byte) m

/-- `n` bytes of a memory from address `a`. -/
def memBytes (m : Memory) (a n : Nat) : List Byte := (List.range n).map fun i => memGet m (a + i)

/-- A little-endian number of `n` bytes of a memory. -/
def memNat (m : Memory) (a : Nat) : Nat → Nat
  | 0 => 0
  | n + 1 => (memGet m a).toNat + 256 * memNat m (a + 1) n

/-- A memory with a list of bytes stored from address `a`. -/
def memFill (m : Memory) (a : Nat) : List Byte → Memory
  | [] => m
  | b :: bs => memFill (memPut m a b) (a + 1) bs

/-- The part of a memory from address `a`, `n` bytes long, moved to address 0. -/
def memWindow (m : Memory) (a n : Nat) : Memory :=
  (m.filter fun p => a ≤ p.1 && p.1 < a + n).map fun p => (p.1 - a, p.2)

/-- A memory with the bytes from `a` to `a + n` all 0. -/
def memZero (m : Memory) (a n : Nat) : Memory :=
  m.filter fun p => !(a ≤ p.1 && p.1 < a + n)

/-- A memory with a window of `n` bytes at `a` replaced by the bytes of another memory. -/
def memCopyIn (m : Memory) (a n : Nat) (src : Memory) : Memory :=
  (m.filter fun p => p.1 < a) ++ ((src.filter fun p => p.1 < n).map fun p => (p.1 + a, p.2))
    ++ (m.filter fun p => a + n ≤ p.1)

end Sys2Proof.Machine
end

