-- ==== Sys2Proof/Machine/Ops.lean ====
section
/-! DEFINITION. Ops: the operations that every block shares: time, free values, events, ignored writes, region tests and
the fault record. -/
namespace Sys2Proof.Machine

open Sys2Proof

/-- The timestamp of the present moment (R8). -/
def State.stamp (s : State) : Ts := stampOf s.now

/-- The next free value, which nothing constrains (log 1). -/
def State.freeVal (s : State) : BitVec 64 := Config.freeWord s.drawn

/-- The state after a free value has been drawn. -/
def State.drew (s : State) : State := { s with drawn := s.drawn + 1 }

/-- The supervisor runs: power-good stands, `RESETN` is high, and `TESTMODE` does not hold the start (R33, R62, R502). -/
def State.powered (s : State) : Bool := s.sup.powerGood && s.sys.inp.resetn && !s.sys.testHold

/-- One measurement of a feed, kept with those of the last 1 ms (R60, R69). -/
def Feed.measured (f : Feed) (v : Half) : Feed := { f with volt := v, hist := (v :: f.hist).take 11 }

/-- The supervisor measures both feeds every 100 µs: what they hold between the changes of their conditions is free, and 0
where the feed is reversed (R59, R60; log 1). -/
def feedsMeasure (s : State) : State :=
  if s.powered ∧ s.mono % 5000 = 0 then
    let v := s.freeVal
    let l := s.sup.feeds.mapFinIdx fun i f _ => f.measured (if f.rev then 0 else (v >>> (16 * i)).setWidth 16)
    { s.drew with sup := { s.sup with feeds := l } }
  else s

/-- The timebase advances by one TCXO cycle of 20 ns; the rate correction, in 0.001 ppm, adds or omits single increments
(R70, R347). -/
def State.clockCycle (s : State) : State :=
  let f := s.tim.frac + s.tim.corr
  if 1000000000 ≤ f then
    { s with now := s.now + 2, mono := s.mono + 1, tim := { s.tim with frac := f - 1000000000 } }
  else if f ≤ -1000000000 then { s with mono := s.mono + 1, tim := { s.tim with frac := f + 1000000000 } }
  else { s with now := s.now + 1, mono := s.mono + 1, tim := { s.tim with frac := f } }

/-- One TCXO cycle: the timebase advances, and every 100 µs the feeds are measured (R60, R70). -/
def State.tick (s : State) : State := feedsMeasure s.clockCycle

/-- Entries of a sliding window that are younger than `width` ticks (R57). -/
def recent (width now : Nat) (l : List Nat) : List Nat := l.filter fun t => now < t + width

/-- An occurrence at a source: pending is set, the count rises and saturates with SAT, payload and time are replaced
(R454). -/
def EvrSrc.occur (e : EvrSrc) (payload : Word) (t : Ts) : EvrSrc :=
  { e with pend := true, count := satInc 255 e.count, sat := e.sat || e.count == 255, payload := payload, time := t }

/-- The router with one source replaced. -/
def Evr.setSrc (e : Evr) (n : Fin 512) (f : EvrSrc → EvrSrc) : Evr :=
  { e with srcs := e.srcs.set n (f e.srcs[n]) }

/-- The router with one host replaced. -/
def Evr.setHost (e : Evr) (h : Fin 2) (f : EvrHost → EvrHost) : Evr :=
  { e with hosts := e.hosts.set h (f e.hosts[h]) }

/-- A source raises an event with the time of an earlier happening; sources 56 to 63 never do (R454). -/
def raiseAt (src : Nat) (payload : Word) (t : Ts) (s : State) : State :=
  if h : src < 512 then
    if 56 ≤ src ∧ src ≤ 63 then s
    else { s with evr := s.evr.setSrc ⟨src, h⟩ fun e => e.occur payload t }
  else s

/-- A source raises an event now (R454). -/
def raise (src : Nat) (payload : Word) (s : State) : State := raiseAt src payload s.stamp s

/-- The code of a writer in `SYS_WERR.SRC` (ch. 4). -/
def Source.code : Source → Nat
  | .hostA => 0
  | .hostB => 1
  | .imzin _ => 2
  | .chip => 3

/-- A host port's writes come from it. -/
def hostSource (h : Fin 2) : Source := if h = 0 then .hostA else .hostB

/-- An ignored write is logged as the most recent one and counted (R104). -/
def logWerr (reason : Nat) (src : Source) (addr : Nat) (s : State) : State :=
  { s with sys := { s.sys with werr := { reason := reason, src := Source.code src, addr := addr,
                                         cnt := satInc 255 s.sys.werr.cnt } } }

/-- The module-level state with one region replaced. -/
def Sys.setRegion (y : Sys) (r : Fin 5) (f : Region → Region) : Sys :=
  { y with regions := y.regions.set r (f y.regions[r]) }

/-- A region answers requests (R47, R53). -/
def regionUp (r : Fin 5) (s : State) : Bool := s.sys.regions[r].st == .ready

/-- Regions by name (R37). -/
def rACQ : Fin 5 := 0
/-- ALM. -/
def rALM : Fin 5 := 1
/-- LNK. -/
def rLNK : Fin 5 := 2
/-- KEP. -/
def rKEP : Fin 5 := 3
/-- FCE. -/
def rFCE : Fin 5 := 4

/-- The word of `SYS_FLT_LAST` (ch. 2). -/
def fltWord (level block cell cause : Nat) : Word :=
  put 30 2 level ||| put 24 6 block ||| put 16 8 cell ||| put 8 8 cause

/-- A fault is recorded, unless a module-level fault is latched, and raised on source 55 (R57, R505). -/
def recordFault (level block cell cause : Nat) (s : State) : State :=
  let s1 := raise 55 (fltWord level block cell cause) s
  if s1.sys.fltLatched then s1
  else { s1 with sys := { s1.sys with
           fltLast := { level := level, block := block, cell := cell, cause := cause, time := s.stamp } } }

/-- A cell is isolated (R43, R44). -/
def isIsolated (block cell : Nat) (s : State) : Bool := s.sys.isolated.contains (block, cell)

/-- A cell leaves the list of isolated cells (R44). -/
def readmit (block cell : Nat) (s : State) : State :=
  { s with sys := { s.sys with isolated := s.sys.isolated.filter fun p => !(p == (block, cell)) } }

/-- The byte of a section of a recipe bank: the section's offset is found in the section table (R87, R88). -/
def sectionOffset (bank : Memory) (id : Nat) : Option (Nat × Nat) :=
  ((List.range 16).findSome? fun i =>
    let e := 48 + 12 * i
    if (memGet bank e).toNat = id ∧ id ≠ 0 then some (memNat bank (e + 4) 4, memNat bank (e + 8) 4) else none)

/-- The active recipe. -/
def State.activeBank (s : State) : Memory := s.rcp.recipes[s.rcp.active].bank

/-- `n` bytes, little-endian, of a section of a bank; 0 where the bank has no such section. -/
def bankNat (bank : Memory) (id off n : Nat) : Nat :=
  match sectionOffset bank id with
  | none => 0
  | some (o, _) => memNat bank (o + off) n

/-- A bank has a section. -/
def bankHas (bank : Memory) (id : Nat) : Bool := (sectionOffset bank id).isSome

/-- `n` bytes of a section of the active recipe; 0 while no recipe is loaded. -/
def State.cfgNat (s : State) (id off n : Nat) : Nat := bankNat s.activeBank id off n

/-- A 32-bit word of a section of the active recipe. -/
def State.cfgWord (s : State) (id off : Nat) : Word := BitVec.ofNat 32 (s.cfgNat id off 4)

/-- Section identifiers (R88). -/
def secIDENT : Nat := 0x01
/-- ACQ. -/
def secACQ : Nat := 0x02
/-- POINTS. -/
def secPOINTS : Nat := 0x03
/-- GROUPS. -/
def secGROUPS : Nat := 0x04
/-- CALL. -/
def secCALL : Nat := 0x05
/-- NET. -/
def secNET : Nat := 0x06
/-- PAIR. -/
def secPAIR : Nat := 0x07
/-- REC. -/
def secREC : Nat := 0x08
/-- PANEL. -/
def secPANEL : Nat := 0x09
/-- FONTS. -/
def secFONTS : Nat := 0x0A
/-- WAVES. -/
def secWAVES : Nat := 0x0B
/-- EVR. -/
def secEVR : Nat := 0x0C
/-- AGE. -/
def secAGE : Nat := 0x0D

/-- The node number of the active recipe (R87, R90). -/
def State.nodeNum (s : State) : Half := BitVec.ofNat 16 (memNat s.activeBank 16 2)

/-- The manager flag of the active recipe (R87). -/
def State.isManager (s : State) : Bool := bit (memGet s.activeBank 18) 0

/-- The paired flag of the active recipe (R87). -/
def State.isPaired (s : State) : Bool := bit (memGet s.activeBank 18) 1

/-- The base scan in ticks, by the code of IDENT byte 0 (R93). -/
def scanTicksOf : Nat → Nat
  | 0 => ms 5
  | 1 => ms 10
  | 2 => ms 20
  | 3 => ms 50
  | _ => ms 100

/-- IDENT byte 0: the base scan's code (R93). -/
def State.scanCode (s : State) : Nat := s.cfgNat secIDENT 0 1

/-- A flag of IDENT byte 1 (R93). -/
def State.identFlag (s : State) (i : Nat) : Bool := (s.cfgNat secIDENT 1 1).testBit i

/-- The start time in seconds (R93). -/
def State.startTime (s : State) : Nat := s.cfgNat secIDENT 2 2

/-- IDENT declares UI channel `n`, from 0, unused (R93). -/
def State.uiUnused (s : State) (n : Nat) : Bool := (s.cfgNat secIDENT 4 2).testBit n

/-- IDENT declares AO channel `n`, from 0, unused (R93). -/
def State.aoUnused (s : State) (n : Nat) : Bool := (s.cfgNat secIDENT 6 1).testBit n

/-- IDENT declares DIO group `g`, from 0, unused (R93). -/
def State.grpUnused (s : State) (g : Nat) : Bool := (s.cfgNat secIDENT 6 1).testBit (4 + g)

/-- IDENT declares PS channel `n`, from 0, unused (R93). -/
def State.psUnused (s : State) (n : Nat) : Bool := (s.cfgNat secIDENT 6 1).testBit (6 + n)

/-- A bit of IDENT byte 7: 0 and 1 host ports, 2 no panel, 3 no time input (R93). -/
def State.ident7 (s : State) (i : Nat) : Bool := (s.cfgNat secIDENT 7 1).testBit i

/-- Code of `SYS_STATE.MODE` (ch. 4). -/
def Mode.code : Mode → Nat
  | .starting => 0
  | .inService => 1
  | .bare => 2
  | .safe => 3
  | .lastBreath => 4

/-- The module is in BARE (R91). -/
def State.bare (s : State) : Bool := s.sys.mode == .bare

/-- Start inhibit holds (R94). -/
def State.inhibited (s : State) : Bool := s.sys.inhEnd.isSome

/-- The unit is the standby of a pair, or a unit of a pair that has released its outputs (ch. 14). -/
def State.standby (s : State) : Bool :=
  match s.lvn.st with
  | .standby | .splitStandby | .updating | .roleClash | .recipeClash => true
  | _ => false

/-- The unit drives its outputs as the active unit of a pair or as an unpaired module (R81, R82). -/
def State.activeUnit (s : State) : Bool :=
  match s.lvn.st with
  | .active | .splitActive | .solo => true
  | _ => !s.isPaired

/-- Index of a monitored quantity (R79). -/
def quantityIndex : Quantity → Fin 5
  | .vin1 => 0
  | .vin2 => 1
  | .plate => 2
  | .group1 => 3
  | .group2 => 4

/-- Payload of a supply monitor event: the code in bits 7:0, the value in bits 31:16 (R79). -/
def supplyWord (code : Nat) (v : Half) : Word := put 0 8 code ||| put 16 16 v.toNat

/-- A supply monitor event that is never held back (R79). -/
def supplyRaise (code : Nat) (v : Half) (s : State) : State := raise 52 (supplyWord code v) s

/-- A condition event of a quantity: raised unless 100 ms still run since the last one (R79). -/
def supplyEvent (q : Quantity) (code : Nat) (v : Half) (s : State) : State :=
  if s.sup.holdoff[quantityIndex q].running then s
  else
    let s1 := supplyRaise code v s
    { s1 with sup := { s1.sup with holdoff := s1.sup.holdoff.set (quantityIndex q) { running := true, last := code } } }

/-- The quotient of a measured quantity: exact where the division is, else one of its two neighbours, which the spec
leaves open within the stated accuracy; a division by zero is open altogether (log 4). -/
def openDiv (n d : Int) : Int :=
  if d = 0 then Config.divZero n
  else if n % d = 0 then n / d
  else n / d + (if Config.roundUp n d then 1 else 0)

end Sys2Proof.Machine
end

