-- ==== Sys2Proof/Machine/Map.lean ====
section
/-! DEFINITION. Map: what the address space says of an address by itself: its region, and whether a read or write of it is
idempotent (R49, R451, R490). -/
namespace Sys2Proof.Machine

open Sys2Proof

/-- Where a location answers: at module level, or with a region; none where the map names nothing (R490). -/
inductive Home where
  | module
  | region (r : Fin 5)
  | nowhere
deriving DecidableEq, Repr

/-- The spans of R490 and the windows of R451, from the first to the last byte. -/
def addrSpans : List (Nat × Nat × Home) :=
  [(0x000000, 0x00027F, .module), (0x010000, 0x0117FF, .region rFCE), (0x020000, 0x024FFF, .region rACQ),
   (0x028000, 0x029023, .region rACQ), (0x02C000, 0x02C20B, .region rACQ), (0x040000, 0x040403, .region rALM),
   (0x048000, 0x04B01F, .region rALM), (0x060000, 0x06303B, .region rLNK), (0x064000, 0x064017, .region rLNK),
   (0x066000, 0x066027, .region rLNK), (0x068000, 0x068037, .region rLNK), (0x080000, 0x082017, .region rKEP),
   (0x084000, 0x085FFF, .region rKEP), (0x0A0000, 0x0A0037, .region rFCE), (0x0A4000, 0x0A400F, .region rFCE),
   (0x0A8000, 0x0A8033, .module), (0x0C0000, 0x0C1FFF, .module)] ++
  [(0x100000, 0x1027FF, .region rALM), (0x104000, 0x10BFFF, .region rALM), (0x110000, 0x11FFFF, .region rLNK),
   (0x120000, 0x127FFF, .region rFCE), (0x140000, 0x14FFFF, .region rFCE), (0x200000, 0xBFFFFF, .region rLNK),
   (0xC00000, 0xFFFFFF, .region rKEP)]

/-- Where an address answers. -/
def homeOf (a : Nat) : Home :=
  match addrSpans.find? fun p => decide (p.1 ≤ a) && decide (a ≤ p.2.1) with
  | some p => p.2.2
  | none => .nowhere

/-- The region of a block identifier; none for the supervisor (R37). -/
def blockRegion (b : BitVec 6) : Option (Fin 5) :=
  if h : b.toNat / 8 < 5 then some ⟨b.toNat / 8, h⟩ else none

/-- The block identifier is in the table of R37. -/
def blockKnown (b : BitVec 6) : Bool :=
  let i := b.toNat % 8
  match b.toNat / 8 with
  | 0 => decide (i < 6)
  | 1 => decide (i < 4)
  | 2 => decide (i < 7)
  | 3 => decide (i < 4)
  | 4 => decide (i < 5)
  | 5 => i == 0 || i == 7
  | _ => false

/-- Registers that hold an RC field (ch. 19). -/
def rcRegs : List Nat :=
  [0x000024, 0x000108, 0x0A8010, 0x0A8030, 0x0C0000, 0x01011C, 0x01019C, 0x040000, 0x04001C, 0x040110, 0x040400,
   0x048010, 0x064004, 0x064008, 0x066000, 0x066024, 0x06800C, 0x068024, 0x080014, 0x08200C, 0x0A0020] ++
  (List.range 4).flatMap fun k => [0x060014 + 0x1000 * k, 0x060018 + 0x1000 * k, 0x06001C + 0x1000 * k]

/-- `EVR_CLAIM_A` and `EVR_CLAIM_B`. -/
def claimRegs : List Nat := [0x010100, 0x010180]

/-- A read is idempotent: not of an RC field, not a claim (R49). -/
def readIdem (a : Nat) : Bool := !rcRegs.contains a && !claimRegs.contains a

/-- Registers whose write is an end of interrupt, a push or a command, and so is not idempotent (R49). -/
def commandRegs : List Nat :=
  [0x010104, 0x010184, 0x0A800C, 0x0A802C, 0x0C0010, 0x0C0800, 0x040010, 0x040100, 0x048008, 0x066020, 0x080020, 0x080024,
   0x084004, 0x0A0018, 0x0A0034, 0x0A4008] ++
  ((List.range 16).map fun c => 0x020080 + 0x400 * c) ++ ((List.range 4).map fun c => 0x024080 + 0x400 * c) ++
  ((List.range 16).map fun c => 0x028080 + 0x100 * c) ++ [0x02C080, 0x02C180] ++
  ((List.range 4).map fun k => 0x060020 + 0x1000 * k)

/-- A write is idempotent (R49). -/
def writeIdem (a : Nat) : Bool := !commandRegs.contains a

/-- A request is idempotent (R49). -/
def reqIdem (r : FabReq) : Bool :=
  match r.op with
  | .read => readIdem r.addr.toNat
  | .write _ => writeIdem r.addr.toNat
  | .seqQuery => true
  | .publish _ _ _ _ => true
  | .epochCopy _ _ => true
  | .event _ _ => false
  | .entry _ => false
  | .imzinCmd _ _ _ => false
  | .canTx _ => false
  | .panel _ _ _ _ _ _ _ => false
  | .count _ => false
  | .callStart _ _ _ => false
  | .callStep _ => false
  | .swap _ _ => false

end Sys2Proof.Machine
end

