-- ==== Sys2Proof/Machine/Image.lean ====
section
/-! DEFINITION. Image: the recipe image's header, section table and the checks that R89 makes of them; the boot-config
record (R85). -/
namespace Sys2Proof.Machine

open Sys2Proof

/-- Result codes of `RCP_RESULT.CODE` (ch. 4). -/
def rcOK : Nat := 0x00
/-- BUSY. -/
def rcBUSY : Nat := 0x01
/-- NOT_OWNER. -/
def rcNOT_OWNER : Nat := 0x02
/-- BAD_OP. -/
def rcBAD_OP : Nat := 0x03
/-- INCOMPLETE. -/
def rcINCOMPLETE : Nat := 0x04
/-- BAD_HEADER. -/
def rcBAD_HEADER : Nat := 0x05
/-- BAD_CRC. -/
def rcBAD_CRC : Nat := 0x06
/-- BAD_SECTION. -/
def rcBAD_SECTION : Nat := 0x07
/-- SEQ_LOW. -/
def rcSEQ_LOW : Nat := 0x08
/-- NO_SHADOW. -/
def rcNO_SHADOW : Nat := 0x09
/-- RESTART_ONLY. -/
def rcRESTART_ONLY : Nat := 0x0A
/-- PARTNER_MISMATCH. -/
def rcPARTNER_MISMATCH : Nat := 0x0B
/-- POWER_FAIL. -/
def rcPOWER_FAIL : Nat := 0x0C
/-- NO_MEDIA. -/
def rcNO_MEDIA : Nat := 0x0D
/-- MEDIA_ERROR. -/
def rcMEDIA_ERROR : Nat := 0x0E
/-- ABORTED. -/
def rcABORTED : Nat := 0x0F
/-- PAIR_STANDBY. -/
def rcPAIR_STANDBY : Nat := 0x10

/-- Image header fields (R87): length of the image. -/
def imgLength (m : Memory) : Nat := memNat m 12 4
/-- Sequence number. -/
def imgSeq (m : Memory) : Word := BitVec.ofNat 32 (memNat m 8 4)
/-- Node number. -/
def imgNode (m : Memory) : Nat := memNat m 16 2
/-- Flags. -/
def imgFlags (m : Memory) : Byte := memGet m 18
/-- Section count. -/
def imgCount (m : Memory) : Nat := (memGet m 19).toNat
/-- Format minor. -/
def imgMinor (m : Memory) : Nat := (memGet m 4).toNat
/-- Image CRC-32 as the header states it. -/
def imgCrc (m : Memory) : Word := BitVec.ofNat 32 (memNat m 252 4)

/-- One entry of the section table (R88). -/
structure SecEntry where
  id : Nat
  ver : Nat
  crc : Nat
  off : Nat
  len : Nat
deriving DecidableEq, Repr

/-- Entry `i` of the section table (R88). -/
def secEntry (m : Memory) (i : Nat) : SecEntry :=
  let e := 48 + 12 * i
  { id := memNat m e 1, ver := memNat m (e + 1) 1, crc := memNat m (e + 2) 2, off := memNat m (e + 4) 4,
    len := memNat m (e + 8) 4 }

/-- The entries in use. -/
def secEntries (m : Memory) : List SecEntry := (List.range (imgCount m)).map (secEntry m)

/-- A header field, the header CRC or the reserved parts under minor 0 are wrong (R89, first check). -/
def headerBad (m : Memory) : Bool :=
  memNat m 0 4 != 0x4E525643 || memNat m 5 1 != 1 || memNat m 6 2 != 256 ||
  BitVec.ofNat 32 (memNat m 248 4) != crc32 (memBytes m 0 248) ||
  (if imgMinor m = 0 then
     (decide (imgCount m < 4) || decide (13 < imgCount m)) || (imgFlags m).toNat / 4 != 0 || memNat m 240 8 != 0
   else decide (imgCount m < 4) || decide (16 < imgCount m))

/-- The image length is outside R87's limits. -/
def lengthBad (m : Memory) : Bool :=
  decide (imgLength m < 256) || decide (2097152 < imgLength m) || imgLength m % 4 != 0

/-- The image's bytes with the CRC field taken as 0 (R87). -/
def crcBytes (m : Memory) : List Byte :=
  memBytes m 0 252 ++ List.replicate 4 0 ++ memBytes m 256 (imgLength m - 256)

/-- The image CRC-32 is wrong. -/
def imageCrcBad (m : Memory) : Bool := imgCrc m != crc32 (crcBytes m)

/-- Two sections share a byte. -/
def overlaps (a b : SecEntry) : Bool := decide (a.off < b.off + b.len) && decide (b.off < a.off + a.len)

/-- The entry is wrong where it stands behind the entries `prev` (R89, section table). -/
def entryBad (m : Memory) (prev : List SecEntry) (e : SecEntry) : Bool :=
  prev.any (fun p => decide (e.id ≤ p.id)) || decide (e.off < 256) || e.off % 4 != 0 ||
  decide (imgLength m < e.off + e.len) || prev.any (overlaps e)

/-- The first wrong entry among those in use, by its identifier. -/
def tableErr (m : Memory) : List SecEntry → List SecEntry → Option Nat
  | _, [] => none
  | prev, e :: rest => if entryBad m prev e then some e.id else tableErr m (prev ++ [e]) rest

/-- The first entry not in use that is not all 0 (R88). -/
def unusedErr (m : Memory) : Option Nat :=
  (List.range 16).findSome? fun i =>
    if imgCount m ≤ i ∧ secEntry m i ≠ { id := 0, ver := 0, crc := 0, off := 0, len := 0 }
    then some (secEntry m i).id else none

/-- The identifier is in the table of R88. -/
def secKnown (id : Nat) : Bool := decide (1 ≤ id) && decide (id ≤ 13)

/-- The image must hold the section (R88). -/
def secRequired (m : Memory) (id : Nat) : Bool :=
  id == secIDENT || id == secACQ || id == secPOINTS || id == secNET || (id == secPAIR && bit (imgFlags m) 1) ||
  ((id == secFONTS || id == secWAVES) && bankHas m secPANEL)

/-- The image may not hold the section (R88). -/
def secExcluded (m : Memory) (id : Nat) : Bool :=
  (id == secCALL && !bit (imgFlags m) 0) || (id == secPAIR && !bit (imgFlags m) 1) ||
  ((id == secFONTS || id == secWAVES) && !bankHas m secPANEL)

/-- Content of the IDENT section: ranges and reserved bits (R93). -/
def identOk (m : Memory) : Bool :=
  let b := fun i => bankNat m secIDENT i 1
  decide (b 0 ≤ 4) && decide (b 1 / 16 = 0) && decide (bankNat m secIDENT 2 2 ≤ 600) && decide (b 7 / 16 = 0)

/-- The boot-config record's copy in a partition: the sector at 0x200000 (R84). -/
def cfgBase : Nat := 0x200000

/-- A copy is valid: mark and CRC-32 (R86). -/
def cfgValid (p : Memory) : Bool :=
  memNat p cfgBase 4 == 0x4E524243 &&
  BitVec.ofNat 32 (memNat p (cfgBase + 508) 4) == crc32 (memBytes p cfgBase 508)

/-- Update counter of a copy. -/
def cfgCounter (p : Memory) : Nat := memNat p (cfgBase + 4) 4

/-- The partition whose copy is in use: the valid copy with the higher counter (R86). Of two valid copies with equal counters
it is copy A, and with none valid the first record goes to copy A with counter 1: R86 is silent (DESIGN CHOICE, log 26). -/
def cfgInUse (a b : Memory) : Option (Fin 2) :=
  if cfgValid a then (if cfgValid b ∧ cfgCounter a < cfgCounter b then some 1 else some 0)
  else if cfgValid b then some 1 else none

/-- A boot-config record's 512 bytes (R85). -/
def cfgRecord (counter activeCode : Nat) (seqA crcA seqB crcB : Word) (t : Ts) (swaps cause : Nat) : List Byte :=
  let body := bytesLE 4 0x4E524243 ++ bytesLE 4 counter ++ bytesLE 1 activeCode ++ bytesLE 3 0 ++
    bytesLE 4 seqA.toNat ++ bytesLE 4 crcA.toNat ++ bytesLE 4 seqB.toNat ++ bytesLE 4 crcB.toNat ++
    bytesLE 8 t.toNat ++ bytesLE 4 swaps ++ bytesLE 1 cause ++ List.replicate 467 0
  body ++ bytesLE 4 (crc32 body).toNat

/-- The recipe engine with one recipe replaced. -/
def Rcp.setRecipe (c : Rcp) (i : Fin 2) (f : Recipe → Recipe) : Rcp :=
  { c with recipes := c.recipes.set i (f c.recipes[i]) }

/-- A new boot-config record that marks `act` (0 none, 1 A, 2 B) goes into the copy that is not in use (R86). -/
def writeBootConfig (act cause : Nat) (swap : Bool) (s : State) : State :=
  let a := s.rcp.recipes[0].part
  let b := s.rcp.recipes[1].part
  let used := cfgInUse a b
  let old := match used with | some i => s.rcp.recipes[i].part | none => []
  let cnt := match used with | some _ => (cfgCounter old + 1) % 2 ^ 32 | none => 1
  let swaps := (match used with | some _ => memNat old (cfgBase + 36) 4 | none => 0) + (if swap then 1 else 0)
  let dst : Fin 2 := match used with | some i => if i = 0 then 1 else 0 | none => 0
  let rec' := cfgRecord cnt act s.rcp.recipes[0].seq s.rcp.recipes[0].crc s.rcp.recipes[1].seq s.rcp.recipes[1].crc
    s.stamp swaps cause
  { s with rcp := s.rcp.setRecipe dst fun r => { r with part := memFill r.part cfgBase rec' } }

end Sys2Proof.Machine
end

