-- ==== Sys2Proof/Machine/Ps.lean ====
section
/-! DEFINITION. Ps: the speed and position channels: counting, index, speed, compare, conditions, settings and registers
(ch. 8). -/
namespace Sys2Proof.Machine

open Sys2Proof

/-- The state with one speed and position channel replaced. -/
def State.setPs (s : State) (c : Fin 2) (f : Ps → Ps) : State := { s with ps := s.ps.set c (f s.ps[c]) }

/-- Block identifier of PSB (R37). -/
def psbId : Nat := 0x05

/-- Settings in force (ch. 8): up/down mode. -/
def Ps.upDown (p : Ps) : Bool := fld p.use[0] 0 2 == 1
/-- INV. -/
def Ps.inv (p : Ps) : Bool := bit p.use[0] 4
/-- Z_INV. -/
def Ps.zInv (p : Ps) : Bool := bit p.use[0] 8
/-- UNIT is rpm. -/
def Ps.rpmUnit (p : Ps) : Bool := bit p.use[0] 12
/-- POS_PT is the revolution count. -/
def Ps.revPoint (p : Ps) : Bool := bit p.use[0] 16
/-- HOME_REQ. -/
def Ps.homeReq (p : Ps) : Bool := bit p.use[0] 17
/-- Z_MODE. -/
def Ps.zMode (p : Ps) : Nat := fld p.use[0] 20 2
/-- FILT. -/
def Ps.filt (p : Ps) : Nat := fld p.use[0] 24 8
/-- CPR. -/
def Ps.cpr (p : Ps) : Nat := fld p.use[1] 0 24 + 1
/-- CROSS, Hz. -/
def Ps.cross (p : Ps) : Nat := fld p.use[2] 0 16
/-- GATE, ms. -/
def Ps.gateMs (p : Ps) : Nat := fld p.use[2] 16 8
/-- STILL in ticks. -/
def Ps.still (p : Ps) : Nat := ms (10 * fld p.use[2] 24 8)
/-- Z_TOL. -/
def Ps.zTol (p : Ps) : Nat := fld p.use[3] 0 24

/-- `PS_STAT.STATE`. -/
def psCode (s : State) (c : Fin 2) : Nat :=
  if s.psUnused c.val then 4
  else if isIsolated psbId c.val s then 3
  else if !s.ps[c].running then 0
  else if s.psBlk.stop then 2
  else 1

/-- Speed quality of a set of conditions (R206). -/
def psSpeedQ (d : BitVec 9) : Nat := if bit d 0 || bit d 7 then 3 else if bit d 1 then 1 else 0

/-- Position quality of a set of conditions (R206). -/
def psPosQ (d : BitVec 9) : Nat :=
  if bit d 0 || bit d 1 || bit d 2 || bit d 3 || bit d 4 || bit d 5 || bit d 8 then 1 else 0

/-- Quality of a channel's point: BAD_COMM while isolated, BAD_SENSOR while unused or off, UNCERTAIN after a swap
until the next snapshot (R44, R93, R99, R206). -/
def psQual (s : State) (c : Fin 2) (q : BitVec 9 → Nat) : Nat :=
  if s.psUnused c.val then 2 else if isIsolated psbId c.val s then 4
  else if !s.ps[c].running then 2 else if s.ps[c].changing then 1 else q s.ps[c].dstat

/-- Payload of a channel's event, without its marks (R207). -/
def psEventWord (s : State) (c : Fin 2) : Word :=
  put 0 9 s.ps[c].dstat.toNat ||| put 9 3 (psQual s c psSpeedQ) ||| put 12 3 (psQual s c psPosQ) |||
    put 15 4 (psCode s c)

/-- An event of the channel with marks, at a time (R207). -/
def psEvent (c : Fin 2) (marks : Word) (t : Ts) (s : State) : State :=
  if s.psUnused c.val then s else raiseAt (36 + c.val) (psEventWord s c ||| marks) t s

/-- The channel raises its event when its conditions, state or method changed (R207). -/
def psNotify (c : Fin 2) (s0 s1 : State) : State :=
  if s1.ps[c].dstat ≠ s0.ps[c].dstat ∨ psCode s1 c ≠ psCode s0 c ∨ s1.ps[c].gated ≠ s0.ps[c].gated
  then psEvent c 0 s1.stamp s1 else s1

/-- A bit of a 9-bit condition set. -/
def psBit (i : Nat) (b : Bool) : BitVec 9 := if b then BitVec.ofNat 9 (2 ^ i) else 0

/-- One condition set or cleared; DIAG keeps what appears (R206). -/
def Ps.cond (p : Ps) (i : Nat) (b : Bool) : Ps :=
  let n := (p.dstat &&& ~~~(psBit i true)) ||| psBit i b
  { p with dstat := n, diag := p.diag ||| (n &&& ~~~p.dstat) }

/-- HOMELOST follows HOME_REQ and HOMED (R206). -/
def Ps.homeCond (p : Ps) : Ps := p.cond 5 (p.homeReq && !p.homed)

/-! ### Counting (R197, R198) -/

/-- The way travelled since the last index edge, while the index is in use (R199). -/
def Ps.moved (p : Ps) (d : Int) : Ps := { p with edges := p.edges + d, travel := if p.zMode = 0 then 0 else p.travel + d }

/-- One count up or down: position, revolutions with REV_WRAP, and the way travelled (R198). -/
def Ps.count (p : Ps) (down : Bool) : Ps :=
  if down then
    let q := p.moved (-1)
    if p.pos = 0 then ({ q with pos := p.cpr - 1, rev := p.rev - 1 }).cond 6 (bit p.dstat 6 || p.rev == 0x80000000)
    else { q with pos := p.pos - 1 }
  else
    let q := p.moved 1
    if p.cpr ≤ p.pos + 1 then ({ q with pos := 0, rev := p.rev + 1 }).cond 6 (bit p.dstat 6 || p.rev == 0x7FFFFFFF)
    else { q with pos := p.pos + 1 }

/-- The speed timers take a counted edge (R201, R203). -/
def Ps.timeEdge (p : Ps) (down : Bool) (t : Nat) : Ps :=
  if down == p.down then
    { p with moving := true, period := p.lastEdge.map fun l => t - l, lastEdge := some t,
             gate := t :: recent (ms p.gateMs) t p.gate }
  else { p with moving := true, down := down, gated := false, period := none, lastEdge := some t, gate := [t] }

/-- Z_MISSING: an index in use has not come for 1.5 × CPR counts (R199). -/
def Ps.zMissing (p : Ps) : Ps :=
  if p.zMode ≠ 0 ∧ 3 * p.cpr ≤ 2 * p.travel.natAbs then p.cond 3 true else p

/-- The input's last rising edge lies less than 900 ns, 45 samples, back (R206). -/
def Ps.tooFast (p : Ps) (i : Fin 3) (t : Nat) : Bool := (p.rises[i]).any fun l => decide (t < l + 45)

/-- RATE_HIGH: two rising edges on one input less than 900 ns apart (R206). -/
def Ps.rise (p : Ps) (i : Fin 3) (t : Nat) : Ps :=
  let p1 := { p with rises := p.rises.set i (some t) }
  if p.tooFast i t = true then { p1 with rateAt := t }.cond 0 true else p1

/-- The direction that an edge counts in, none where it counts nothing: `some true` is down (R197). -/
def Ps.edgeDir (p : Ps) (a b bLevel : Bool) : Option Bool :=
  if p.upDown then
    (if a == b then none else some (b != p.inv))
  else if a then some (bLevel != p.inv) else none

/-- The compare word that judges an edge at a TCXO count: the old one in the sample of a write (R205). -/
def Ps.cmpAt (p : Ps) (mono : Nat) : Word :=
  match p.cmpOld with
  | some (m, w) => if m = mono then w else p.cmp
  | none => p.cmp

/-- A counted edge brings the position to the compare value in a permitted direction (R205). -/
def Ps.cmpHit (p : Ps) (mono : Nat) (down : Bool) : Bool :=
  let w := p.cmpAt mono
  bit w 31 && p.pos == fld w 0 24 && (fld w 28 2 == 0 || (fld w 28 2 == 1 && !down) || (fld w 28 2 == 2 && down))

/-- EN of a compare word clears unless REPEAT (R205). -/
def cmpFired (w : Word) : Word := if bit w 30 then w else w &&& 0x7FFFFFFF

/-- The compare has fired: its EN clears unless REPEAT; a word written in the same sample stays (R205). -/
def Ps.fired (p : Ps) (mono : Nat) : Ps :=
  match p.cmpOld with
  | some (m, w) => if m = mono then { p with cmpOld := some (m, cmpFired w) } else { p with cmp := cmpFired p.cmp }
  | none => { p with cmp := cmpFired p.cmp }

/-- The TCXO count of an accepted edge: the first sample of its level (R196). -/
def psEdgeTick (s : State) (c : Fin 2) : Nat := s.mono - s.ps[c].filt

/-- The timestamp of an accepted edge (R196). -/
def psEdgeStamp (s : State) (c : Fin 2) : Ts := stampOf (s.now - s.ps[c].filt)

/-- Inputs are taken: the channel has its settings and is neither isolated nor unused (R194, R209). -/
def psCounts (s : State) (c : Fin 2) : Bool := psCode s c == 1 || psCode s c == 2

/-- The compare fires: the edge's time is latched, and the event is marked (R205, R207). -/
def psFire (c : Fin 2) (down : Bool) (t : Ts) (s : State) : State :=
  psEvent c (putB 24 true ||| putB 27 down) t (s.setPs c fun p => { p.fired s.mono with cmpTime := t })

/-- PS_EDGE (R197, R198, R201, R205); `z`: a rising edge of Z that is not the index edge, which counts for RATE_HIGH alone
(R199, R206). -/
def psEdge (s : State) (c : Fin 2) (a b bLevel bChanged z : Bool) : State :=
  if !psCounts s c then s
  else
    let t := psEdgeTick s c
    let s1 := s.setPs c fun p =>
      let p0 := if z && p.zInv && p.zMode != 0 then p.rise 2 t else p
      let p1 := if a then p0.rise 0 t else p0
      let p2 := if b then p1.rise 1 t else p1
      if a && bChanged && !p.upDown then { p2 with dirAt := t }.cond 2 true else p2
    match s.ps[c].edgeDir a b bLevel with
    | none => psNotify c s s1
    | some down =>
      let s2 := psNotify c s (s1.setPs c fun p => { (((p.count down).timeEdge down t).zMissing) with lastCnt := t })
      if s2.ps[c].cmpHit s.mono down then psFire c down (psEdgeStamp s c) s2 else s2

/-! ### Index (R199) -/

/-- The way to 0 goes down: the shorter way; halfway round the spec names neither, and the way is free (log 9). -/
def Ps.homesDown (p : Ps) (free : Bool) : Bool :=
  if 2 * p.pos < p.cpr then true else if p.cpr < 2 * p.pos then false else free

/-- Homing: position 0 by the shorter way, the revolutions as a wrap on it changes them, the signed correction in
`PS_ZERR`, HOMED, and Z_MISMATCH judged (R199, R206). -/
def Ps.home (p : Ps) (free : Bool) : Ps :=
  let down := p.pos = 0 ∨ p.homesDown free
  let corr : Int := if down then -(p.pos : Int) else (p.cpr - p.pos : Nat)
  let p1 := { p with pos := 0, zerr := corr, homed := true, armed := false,
                     rev := if down then p.rev else p.rev + 1 }
  let p2 := if down then p1 else p1.cond 6 (bit p.dstat 6 || p.rev == 0x7FFFFFFF)
  (p2.cond 4 (p.zTol != 0 && decide (p.zTol < corr.natAbs))).homeCond

/-- The index edge homes (R199). -/
def Ps.homesNow (p : Ps) : Bool := p.zMode == 2 || (p.zMode == 3 && p.armed)

/-- PS_INDEX_EDGE; under Z_MODE 0 Z is ignored (R199, R207). -/
def psIndex (s : State) (c : Fin 2) : State :=
  if !psCounts s c ∨ s.ps[c].zMode = 0 then s
  else
    let t := psEdgeStamp s c
    let at0 := psEdgeTick s c
    let s1 := s.setPs c fun p => if p.zInv then p else p.rise 2 at0
    let p := s1.ps[c]
    let homes := p.homesNow
    let tie := homes && p.pos != 0 && 2 * p.pos == p.cpr
    let free := bit s1.freeVal 0
    let s2 := s1.setPs c fun p =>
      let p1 := ({ p with zcap := p.pos, travel := 0 }).cond 3 false
      if homes then p1.home free else p1
    let s3 := if tie then s2.drew else s2
    psEvent c (putB 25 true ||| putB 26 homes) t (psNotify c s s3)

/-! ### Speed (R201 to R204) -/

/-- Speed measurement restarts under the two-edge rule (R203). -/
def Ps.restartSpeed (p : Ps) : Ps := { p with lastEdge := none, period := none, gate := [] }

/-- The sign of a direction. -/
def signOf (down : Bool) (n : Nat) : Int := if down then -(n : Int) else n

/-- Speed by the period method at TCXO count `mono`: numerator and denominator in counts and seconds (R201, R203). -/
def Ps.periodSpeed (p : Ps) (mono : Nat) : Int × Nat :=
  match p.period, p.lastEdge with
  | some n, some l => (signOf p.down ticksPerSec, max n (mono - l))
  | _, _ => (0, 1)

/-- The edges within the gate that ends at TCXO count `mono` (R201). -/
def Ps.gateEdges (p : Ps) (mono : Nat) : List Nat := recent (ms p.gateMs) mono p.gate

/-- Speed by gated counting; with fewer than two edges in the gate the period method decides (R201, log 9). -/
def Ps.gatedSpeed (p : Ps) (mono : Nat) : Int × Nat :=
  let g := p.gateEdges mono
  match g.head?, g.getLast? with
  | some tk, some t1 =>
    if 2 ≤ g.length then (signOf p.down ((g.length - 1) * ticksPerSec), tk - t1) else p.periodSpeed mono
  | _, _ => p.periodSpeed mono

/-- The speed by the method in use. -/
def Ps.speedFrac (p : Ps) (mono : Nat) : Int × Nat :=
  if p.gated then p.gatedSpeed mono else p.periodSpeed mono

/-- The method that a snapshot goes on with (R202). -/
def Ps.nextMethod (p : Ps) (mono : Nat) : Bool :=
  let f := p.speedFrac mono
  if p.gated then !decide (10 * f.1.natAbs < 9 * p.cross * f.2)
  else decide (p.cross * f.2 < f.1.natAbs) && decide (4 ≤ (p.gateEdges mono).length)

/-- A value held to the signed 32-bit range (R204). -/
def sat32 (v : Int) : Int := clampI (-2147483648) 2147483647 v

/-- A value lies beyond the signed 32-bit range. -/
def over32 (v : Int) : Bool := decide (v < -2147483648) || decide (2147483647 < v)

/-- Standstill: no edge has been counted for STILL × 10 ms (R203). -/
def Ps.stands (p : Ps) (mono : Nat) : Bool := decide (p.lastCnt + p.still ≤ mono)

/-- At standstill the speed is 0 and MOVING clears (R203). -/
def Ps.stop (p : Ps) : Ps := { p.restartSpeed with moving := false }

/-- The snapshot of a channel at the start of a base scan, which bears the time `at'` (R201 to R204, R206, R208). -/
def Ps.snapshot (p0 : Ps) (mono at' : Nat) : Ps :=
  let p := if p0.stands mono then p0.stop else p0
  let p1 := { p with gated := p.nextMethod mono, gate := p.gateEdges mono }
  let f := p1.speedFrac mono
  let sp := openDiv (f.1 * 1000) f.2
  let rp := openDiv (f.1 * 60000) (f.2 * p.cpr)
  let p2 := p1.cond 7 (over32 sp || over32 rp)
  ({ p2 with snapPos := p.pos, snapRev := p.rev, speed := sat32 sp, rpm := sat32 rp, snapSQ := psSpeedQ p2.dstat,
             snapPQ := psPosQ p2.dstat, changing := false,
             snaps := (at', p.pos, p.rev, p.homed, p.edges) :: p.snaps.take 1 }).cond 6 false

/-- Both channels are snapshotted at the same sample, for the scan that starts at `at'`; a stopped block takes none (R201,
R209). -/
def psSnapshot (at' : Nat) (s : State) : State :=
  if s.psBlk.stop then s
  else (List.finRange 2).foldl (fun a c =>
    if psCode a c = 1 then psNotify c a (a.setPs c fun p => p.snapshot a.mono at') else a) s

/-- Value of the speed point (R204). -/
def Ps.speedValue (p : Ps) : Int := if p.rpmUnit then p.rpm else p.speed

/-- Value of the position point (R204). -/
def Ps.posValue (p : Ps) : Int := if p.revPoint then p.snapRev.toInt else p.snapPos

/-- PS_STANDSTILL: STILL × 10 ms have passed without a counted edge (R203). -/
def psStandstill (s : State) (c : Fin 2) : State := s.setPs c fun p => if p.stands s.mono then p.stop else p

/-! ### Commands and settings -/

/-- Byte address of a PS register. -/
def psAddr (c : Fin 2) (off : Nat) : Nat := 0x02C000 + 0x100 * c.val + off

/-- PS_SET_POS: the presets are loaded, or refused when the position is CPR or more (R200). -/
def psSetPos (src : Source) (c : Fin 2) (s : State) : State :=
  if s.ps[c].cpr ≤ fld s.ps[c].presetPos 0 24 then logWerr 9 src (psAddr c 0x80) s
  else psNotify c s (s.setPs c fun p =>
    ({ p with pos := fld p.presetPos 0 24, rev := p.presetRev, homed := true }).homeCond)

/-- A compare word that may be written: VALUE below CPR and CDIR not 3 (R205). -/
def psCmpOk (cpr : Nat) (v : Word) : Bool := decide (fld v 0 24 < cpr) && fld v 28 2 != 3

/-- PS_CMP is written, for the next sample on (R205): 0 when taken, 7 when ignored and logged. -/
def psCmpWrite (src : Source) (c : Fin 2) (v : Word) (s : State) : Nat × State :=
  if psCmpOk s.ps[c].cpr v then (0, s.setPs c fun p => { p with cmp := v &&& 0xF0FFFFFF, cmpOld := some (s.mono, p.cmpAt s.mono) })
  else (7, logWerr 9 src (psAddr c 0x70) s)

/-- New settings are applied: a changed CPR cuts the position and clears HOMED, a changed MODE, INV or FILT restarts
the speed; an index that is not used misses nothing (R199, R209). -/
def Ps.apply (p : Ps) (w : Vector Word 4) : Ps :=
  let p1 := { p with cfg := w, use := w }
  let p2 := if p1.cpr = p.cpr then p1 else { p1 with pos := p.pos % p1.cpr, homed := false }
  let p3 := if p1.zMode = 0 then { p2 with travel := 0 }.cond 3 false else p2
  (if p1.upDown == p.upDown && p1.inv == p.inv && p1.filt == p.filt then p3 else p3.restartSpeed).homeCond

/-- PS_BLK_CTL.STOP is written (R209). -/
def psBlkWrite (stop : Bool) (s : State) : State :=
  let s1 := { s with psBlk := { stop := stop } }
  let s2 := if s.psBlk.stop && !stop then { s1 with ps := s1.ps.map fun p => p.apply p.cfg } else s1
  psNotify 1 s (psNotify 0 s s2)

/-- Reserved bits of the configuration words are 0 (R504). -/
def psReservedOk (w : Vector Word 4) : Bool :=
  fld w[0] 22 2 == 0 && fld w[0] 18 2 == 0 && fld w[0] 13 3 == 0 && fld w[0] 9 3 == 0 && fld w[0] 5 3 == 0 &&
  fld w[0] 2 2 == 0 && fld w[1] 24 8 == 0 && fld w[3] 24 8 == 0

/-- The settings of a channel in use are ones that a recipe can hold (R197, R202, R210, R504). -/
def psCfgOk (w : Vector Word 4) : Bool :=
  let cross := fld w[2] 0 16
  let gate := fld w[2] 16 8
  psReservedOk w && decide (fld w[0] 0 2 ≤ 1) && fld w[1] 0 24 != 0 && fld w[2] 24 8 != 0 && gate != 0 && cross != 0 &&
  decide (40000 ≤ 9 * cross * gate)

/-- The four words of a channel in a bank's ACQ section (R210). -/
def psBankCfg (bank : Memory) (c : Nat) : Vector Word 4 :=
  Vector.ofFn fun i => BitVec.ofNat 32 (bankNat bank secACQ (1152 + 32 * c + 4 * i.val) 4)

/-- The initial compare word in a bank (R210). -/
def psBankCmp (bank : Memory) (c : Nat) : Word := BitVec.ofNat 32 (bankNat bank secACQ (1152 + 32 * c + 16) 4)

/-- The entry of a channel in a bank is valid (R210). -/
def psBankOk (bank : Memory) (c : Nat) (unused : Bool) : Bool :=
  let w := psBankCfg bank c
  let v := psBankCmp bank c
  if unused then (List.range 32).all fun i => bankNat bank secACQ (1152 + 32 * c + i) 1 == 0
  else psCfgOk w && psCmpOk (fld w[1] 0 24 + 1) v && fld v 24 4 == 0 &&
    (List.range 12).all fun i => bankNat bank secACQ (1152 + 32 * c + 20 + i) 1 == 0

/-- The channel's settings are loaded at a start (R194, R210). -/
def psLoad (s : State) (c : Fin 2) : State :=
  s.setPs c fun p =>
    ({ p with cfg := psBankCfg s.activeBank c.val, use := psBankCfg s.activeBank c.val,
              cmp := psBankCmp s.activeBank c.val, running := !s.psUnused c.val }).homeCond

/-- The channel's settings at a swap: counts are kept, the compare is loaded; where the settings changed, the quality is
UNCERTAIN until a snapshot under the new ones (R99, R209). -/
def psSwap (s : State) (c : Fin 2) : State :=
  let w := psBankCfg s.activeBank c.val
  s.setPs c fun p =>
    let p1 := { p.apply w with cmp := psBankCmp s.activeBank c.val, cmpOld := none, running := !s.psUnused c.val }
    if w = p.cfg then p1 else { p1 with changing := true, snapSQ := 1, snapPQ := 1 }

/-- The channel after a reset of ACQ: its registers hold the active bank's values again, and where these differ from the
settings in force the cell takes them (R38, R53, R54). -/
def psReady (s : State) (c : Fin 2) : State :=
  let w := psBankCfg s.activeBank c.val
  psNotify c s (s.setPs c fun p => if w = p.use then { p with cfg := w } else p.apply w)

/-- A write of a RWL configuration word: refused and logged while the block runs, or when a recipe could not hold the
value (R5, R104). -/
def psCfgWrite (src : Source) (c : Fin 2) (i : Fin 4) (v : Word) (s : State) : Nat × State :=
  let addr := psAddr c (4 * i.val)
  if !s.psBlk.stop && !s.bare then (7, logWerr 1 src addr s)
  else
    let w := s.ps[c].cfg.set i v
    let ok := if s.psUnused c.val then v == 0 else psCfgOk w
    if ok then (0, s.setPs c fun p => { p with cfg := w }) else (7, logWerr 9 src addr s)

/-- PS_ARM_Z (R199). -/
def psArm (c : Fin 2) (s : State) : State := s.setPs c fun p => { p with armed := true }

/-- A reset of ACQ: counts go on, speed measurement restarts (R194, R203). -/
def psAcqReset (s : State) : State := { s with ps := s.ps.map Ps.restartSpeed }

/-- A read of a channel's register, without effect (ch. 8). -/
def psRead (s : State) (c : Fin 2) (off : Nat) : Option Word :=
  let p := s.ps[c]
  if h : off < 16 ∧ off % 4 = 0 then some (p.cfg[off / 4]'(by omega))
  else match off with
  | 0x40 => some (put 0 24 p.snapPos)
  | 0x44 => some p.snapRev
  | 0x48 => some (putI 0 32 p.speed)
  | 0x4C => some (putI 0 32 p.rpm)
  | 0x50 => some (putB 11 p.moving ||| putB 10 p.down ||| putB 9 p.homed ||| putB 8 p.gated |||
      put 4 3 (psQual s c psPosQ) ||| put 0 4 (psCode s c))
  | 0x54 => some (put 0 9 p.dstat.toNat)
  | 0x58 => some (put 0 9 p.diag.toNat)
  | 0x5C => some (put 0 32 p.zcap)
  | 0x60 => some (putI 0 32 p.zerr)
  | 0x64 => some p.presetPos
  | 0x68 => some p.presetRev
  | 0x70 => some p.cmp
  | 0x74 => some (loWord p.cmpTime)
  | 0x78 => some (hiWord p.cmpTime)
  | 0x80 => some 0
  | _ => none

/-- A read of a common register, by its offset from the block base. -/
def psCommonRead (s : State) (off : Nat) : Option Word :=
  match off with
  | 0x200 => some (putB 0 s.psBlk.stop)
  | 0x204 => some 0
  | 0x208 => some (putB 0 (isIsolated psbId 0 s) ||| putB 1 (isIsolated psbId 1 s))
  | _ => none

/-- The conditions whose clearing time PS_DIAG_CLEAR reports, once it has passed (R206). -/
def Ps.clearable (p : Ps) (i mono : Nat) : Bool :=
  (i == 0 && decide (p.rateAt + ms 100 ≤ mono)) ||
  (i == 1 && decide ((recent (ms 100) mono p.rejects).length ≤ 10)) ||
  (i == 2 && decide (p.dirAt + sec 1 ≤ mono))

/-! ### Pairs (R208) -/

/-- The standby's counts at a committed epoch whose snapshot bears a time, by its bits 31:0: where its own snapshot of that
time differs from the active unit's, it takes that unit's values plus the edges counted since, and PAIR_DIFF is set; where
they agree it clears (R206, R208). -/
def Ps.epochCompare (p : Ps) (time pos : Nat) (rev : Word) (homed : Bool) : Ps :=
  match p.snaps.find? fun x => (stampOf x.1).toNat % 2 ^ 32 == time with
  | none => p
  | some x =>
    if x.2.1 = pos ∧ x.2.2.1 = rev ∧ x.2.2.2.1 = homed then p.cond 8 false
    else
      let total : Int := (pos : Int) + (p.edges - x.2.2.2.2)
      let p1 := { p with pos := (total % p.cpr).toNat, rev := rev + BitVec.ofInt 32 (total / p.cpr), homed := homed }
      (p1.cond 8 true).homeCond

/-! ### Meanings -/

/-- PS_EDGE (R197). -/
def execPsEdge (c : Fin 2) (a b bLevel bChanged z : Bool) (s : State) : Host.Outcome State Fault Refusal :=
  .next (psEdge s c a b bLevel bChanged z)

/-- PS_INDEX_EDGE (R199). -/
def execPsIndexEdge (c : Fin 2) (s : State) : Host.Outcome State Fault Refusal := .next (psIndex s c)

/-- PS_STANDSTILL (R203). -/
def execPsStandstill (c : Fin 2) (s : State) : Host.Outcome State Fault Refusal := .next (psStandstill s c)

/-- PS_SET_POS (R200). -/
def execPsSetPos (src : Source) (c : Fin 2) (s : State) : Host.Outcome State Fault Refusal :=
  .next (psSetPos src c s)

/-- PS_ARM_Z (R199). -/
def execPsArmZ (c : Fin 2) (s : State) : Host.Outcome State Fault Refusal := .next (psArm c s)

/-- PS_CMP_WRITE (R205). -/
def execPsCmpWrite (src : Source) (c : Fin 2) (v : Word) (s : State) : Host.Outcome State Fault Refusal :=
  .next (psCmpWrite src c v s).2

/-- PS_BLOCK_STOP (R209). -/
def execPsBlockStop (stop : Bool) (s : State) : Host.Outcome State Fault Refusal := .next (psBlkWrite stop s)

/-- PS_DIAG_CLEAR (R206). -/
def execPsDiagClear (c : Fin 2) (bit' : Fin 9) (s : State) : Host.Outcome State Fault Refusal :=
  .next (if s.ps[c].clearable bit'.val s.mono then psNotify c s (s.setPs c fun p => p.cond bit'.val false) else s)

/-- PS_PULSE_REJECTED (R196, R206): more than 10 within 100 ms set FILTERED. -/
def execPsPulseRejected (c : Fin 2) (s : State) : Host.Outcome State Fault Refusal :=
  .next (if psCounts s c then
    psNotify c s (s.setPs c fun p =>
      let l := s.mono :: recent (ms 100) s.mono p.rejects
      let p1 := { p with rejects := l }
      if 10 < l.length then p1.cond 1 true else p1)
  else s)

end Sys2Proof.Machine
end

