-- ==== Sys2Proof/Machine/Float.lean ====
section
/-! DEFINITION. Float: the point values' binary32 arithmetic: exact results rounded to nearest, ties to even. -/
namespace Sys2Proof.Machine

open Sys2Proof

/-- The exponent field of a binary32 word. -/
def f32Exp (w : Word) : Nat := fld w 23 8

/-- A finite number: neither infinity nor NaN. -/
def f32Finite (w : Word) : Bool := f32Exp w != 255

/-- The sign bit. -/
def f32Neg (w : Word) : Bool := bit w 31

/-- The magnitude of a finite number in units of 2^-149. -/
def f32Mag (w : Word) : Nat :=
  if f32Exp w = 0 then fld w 0 23 else (2 ^ 23 + fld w 0 23) * 2 ^ (f32Exp w - 1)

/-- The value of a finite number in units of 2^-149. -/
def f32Int (w : Word) : Int := if f32Neg w then -(f32Mag w : Int) else f32Mag w

/-- The quotient `n / d` rounded to the nearest whole number, ties to even. -/
def divEven (n d : Nat) : Nat :=
  let q := n / d
  let r := n % d
  if 2 * r < d then q else if d < 2 * r then q + 1 else if q % 2 = 0 then q else q + 1

/-- The binary32 word nearest to `n / d` units of 2^-149 with a sign; infinity beyond the range; a zero divisor gives
infinity, or NaN for 0 / 0. -/
def f32Round (neg : Bool) (n d : Nat) : Word :=
  let s : Nat := if neg then 2 ^ 31 else 0
  if d = 0 then (if n = 0 then 0x7FC00000 else BitVec.ofNat 32 (s + 255 * 2 ^ 23))
  else
    let l := Nat.log2 (n / d)
    let sh := l - 23
    let m := divEven n (d * 2 ^ sh)
    let w := if m < 2 ^ 23 then m else sh * 2 ^ 23 + m
    BitVec.ofNat 32 (s + min w (255 * 2 ^ 23))

/-- The binary32 word nearest to a number of units of 2^-149; an exact 0 is +0. -/
def f32OfInt (k : Int) : Word := f32Round (decide (k < 0)) k.natAbs 1

/-- The number that no comparison and no sum makes finite again. -/
def f32NaN : Word := 0x7FC00000

/-- Neither a number nor an infinity. -/
def f32IsNaN (w : Word) : Bool := !f32Finite w && fld w 0 23 != 0

/-- An infinity of a sign. -/
def f32Inf (neg : Bool) : Word := if neg then 0xFF800000 else 0x7F800000

/-- Sum (R211). -/
def f32Add (a b : Word) : Word :=
  if f32IsNaN a || f32IsNaN b then f32NaN
  else if !f32Finite a then (if !f32Finite b && f32Neg a != f32Neg b then f32NaN else a)
  else if !f32Finite b then b
  else if f32Int a + f32Int b = 0 then (if f32Neg a && f32Neg b then 0x80000000 else 0)
  else f32OfInt (f32Int a + f32Int b)

/-- The negated number. -/
def f32Negate (a : Word) : Word := a ^^^ 0x80000000

/-- Difference (R211). -/
def f32Sub (a b : Word) : Word := f32Add a (f32Negate b)

/-- Product (R211). -/
def f32Mul (a b : Word) : Word :=
  let neg := f32Neg a != f32Neg b
  if f32IsNaN a || f32IsNaN b then f32NaN
  else if f32Finite a && f32Finite b then f32Round neg (f32Mag a * f32Mag b) (2 ^ 149)
  else if f32Mag a = 0 ∨ f32Mag b = 0 then f32NaN
  else f32Inf neg

/-- Quotient (R211). -/
def f32Div (a b : Word) : Word :=
  let neg := f32Neg a != f32Neg b
  if f32IsNaN a || f32IsNaN b then f32NaN
  else if f32Finite a && f32Finite b then f32Round neg (f32Mag a * 2 ^ 149) (f32Mag b)
  else if f32Finite a then (if neg then 0x80000000 else 0)
  else if f32Finite b then f32Inf neg
  else f32NaN

/-- Comparisons; an infinity lies beyond every number. -/
def f32Lt (a b : Word) : Bool := decide (f32Int a < f32Int b)
/-- At most. -/
def f32Le (a b : Word) : Bool := decide (f32Int a ≤ f32Int b)
/-- Equal as numbers: both zeros are equal. -/
def f32Eq (a b : Word) : Bool := decide (f32Int a = f32Int b)

/-- The magnitude of a number as a word. -/
def f32Abs (a : Word) : Word := a &&& 0x7FFFFFFF

/-- The nearest binary32 to a rational `n / d`. -/
def f32OfRat (n : Int) (d : Nat) : Word := f32Round (decide (n < 0)) (n.natAbs * 2 ^ 149) d

/-- The nearest binary32 to a whole number. -/
def f32OfNum (n : Int) : Word := f32OfRat n 1

/-- The quotient `n / d` rounded to the nearest whole number, halves away from zero. -/
def divAway (n d : Int) : Int :=
  let q := (2 * n.natAbs + d.natAbs) / (2 * d.natAbs)
  if (n < 0) == (d < 0) then (q : Int) else -(q : Int)

end Sys2Proof.Machine
end

