-- ==== Sys2Proof/Machine/Ao.lean ====
section
/-! DEFINITION. Ao: the current loop outputs: level in force, diagnostics, sink clock, trim, HART and registers (ch. 6). -/
namespace Sys2Proof.Machine

open Sys2Proof

/-- The state with one loop output replaced. -/
def State.setAo (s : State) (c : Fin 4) (f : Ao → Ao) : State := { s with ao := s.ao.set c (f s.ao[c]) }

/-- Block identifier of AOB (R37). -/
def aobId : Nat := 0x02

/-- Configuration fields (ch. 6): sink mode. -/
def Ao.sink (a : Ao) : Bool := fld a.use[0] 0 2 == 1
/-- SRC is 1: the command comes from a point. -/
def Ao.fromPoint (a : Ao) : Bool := bit a.use[0] 4
/-- SRC_SLOT. -/
def Ao.srcSlot (a : Ao) : Nat := fld a.use[0] 8 7
/-- CLAMP. -/
def Ao.clamp (a : Ao) : Bool := bit a.use[0] 16
/-- SAFE. -/
def Ao.safe (a : Ao) : Nat := fld a.use[0] 20 2
/-- SRC_ACT. -/
def Ao.srcAct (a : Ao) : Nat := fld a.use[0] 24 2
/-- HART. -/
def Ao.hart (a : Ao) : Nat := fld a.use[1] 0 2
/-- COMP_ACT. -/
def Ao.compAct (a : Ao) : Nat := fld a.use[1] 4 2
/-- PREAMB. -/
def Ao.preamb (a : Ao) : Nat := fld a.use[1] 8 5
/-- HEADROOM, 0.1 V. -/
def Ao.headroom (a : Ao) : Nat := fld a.use[1] 16 8
/-- RAMP, µA per ms. -/
def Ao.rampRate (a : Ao) : Nat := fld a.use[2] 0 16
/-- INIT. -/
def Ao.init (a : Ao) : Nat := fld a.use[2] 16 16

/-- Codes of the fixed levels (R140). -/
def codeFaultLow : Nat := 8750
/-- NE 43 fault high. -/
def codeFaultHigh : Nat := 53750
/-- Span start. -/
def codeSpanLow : Nat := 10000
/-- Span end. -/
def codeSpanHigh : Nat := 50000
/-- The least level of a sink island, 1.40 mA. -/
def codeFloor : Nat := 3500

/-- The module's safe state or DORMANT, unpaired (R142, order 2). -/
def safeLevelHolds (s : State) : Bool := (s.sys.mode == .safe || s.sys.power == .dormant) && !s.isPaired

/-- The island is open: order 1 of R142. -/
def aoOpen (s : State) (c : Fin 4) : Bool :=
  let a := s.ao[c]
  !s.sys.outEn || a.released || a.waitPost || s.aoUnused c.val || a.keepLost || bit a.dstat 3 || bit a.dstat 4 || bit a.dstat 5 || a.held ||
    (safeLevelHolds s && a.safe == 3)

/-- `AO_STAT.STATE`. -/
def aoCode (s : State) (c : Fin 4) : Nat :=
  let a := s.ao[c]
  if s.aoUnused c.val then 7
  else if isIsolated aobId c.val s then 6
  else match a.phase with
  | .off => 0
  | .powering => 1
  | .calibrating => 2
  | .noPower => 9
  | .run => if s.aoBlk.stop then 5 else if aoOpen s c then 4 else if a.trimMode.isSome then 8 else 3

/-- `AO_STAT.QUAL` (R44, R93, R145). -/
def aoQual (s : State) (c : Fin 4) : Nat :=
  if s.aoUnused c.val then 2 else if isIsolated aobId c.val s then 4 else s.ao[c].qual

/-- Payload of a channel's event, without its marks (R163). -/
def aoEventWord (s : State) (c : Fin 4) : Word :=
  put 0 13 s.ao[c].dstat.toNat ||| put 17 3 (aoQual s c) ||| put 20 4 (aoCode s c)

/-- An event of the channel with a mark: bit 24 reception, 25 transmission, 26 trim (R163). -/
def aoEvent (c : Fin 4) (mark : Nat) (s : State) : State :=
  if s.aoUnused c.val then s else raise (16 + c.val) (aoEventWord s c ||| put mark 1 1) s

/-- The channel raises its event when its conditions or its state changed (R163). -/
def aoNotify (c : Fin 4) (s0 s1 : State) : State :=
  if (s1.ao[c].dstat ≠ s0.ao[c].dstat ∨ aoCode s1 c ≠ aoCode s0 c) ∧ s1.aoUnused c.val = false
  then raise (16 + c.val) (aoEventWord s1 c) s1 else s1

/-- The same of all four channels. -/
def aoNotifyAll (s0 s1 : State) : State := (List.finRange 4).foldl (fun a c => aoNotify c s0 a) s1

/-- A bit of a 13-bit condition set. -/
def aoBit (i : Nat) (b : Bool) : BitVec 13 := if b then BitVec.ofNat 13 (2 ^ i) else 0

/-- Quality from the conditions held (R144, R145). -/
def aoQualOf (d : BitVec 13) (clk : Fin 4) : Nat :=
  if bit d 0 || bit d 3 || bit d 4 || bit d 5 || bit d 7 || bit d 8 then 2
  else if bit d 1 || bit d 6 || bit d 9 || bit d 11 || bit d 12 || (bit d 10 && clk == 3) then 1
  else 0

/-- New conditions; the quality follows, unless it is held since a swap (R99, R144). -/
def Ao.setConds (a : Ao) (d : BitVec 13) : Ao :=
  { a with dstat := d, diag := a.diag ||| (d &&& ~~~a.dstat), qual := if a.changing then a.qual else aoQualOf d a.clk }

/-- The island opens at once (R142, order 1). -/
def Ao.openNow (a : Ao) : Ao := { a with code := 0, why := 8 }

/-- Thresholds of the sink clock rows in nA (R137). -/
def clkThreshold : Fin 4 → Int
  | 0 => 3400000
  | 1 => 2600000
  | 2 => 2000000
  | 3 => 1400000

/-- The highest clock whose threshold a current reaches (R137). -/
def clkFor (curr : Int) : Fin 4 :=
  if 3400000 ≤ curr then 0 else if 2600000 ≤ curr then 1 else if 2000000 ≤ curr then 2 else 3

/-- The slower of two clocks. -/
def clkSlower (a b : Fin 4) : Fin 4 := if a.val < b.val then b else a

/-- Cell cycle in ms at a clock (R137). -/
def cycleMs : Fin 4 → Nat
  | 0 => 1
  | 1 => 2
  | 2 => 4
  | 3 => 16

/-- A command held to the clamp range (R142). -/
def Ao.clamped (a : Ao) (c : Nat) : Nat := if a.clamp then min 51250 (max 9500 c) else min 60000 c

/-- The command before clamp, slope limit and filter (R141). -/
def Ao.command (a : Ao) : Nat := if a.fromPoint then a.srcCmd else a.set.toNat

/-- The slope-limited command one cell cycle on, in half codes (R142). -/
def Ao.rampNext (a : Ao) : Nat :=
  let target := 2 * a.clamped a.command
  let d := a.rampRate * cycleMs a.clk * 5
  if a.rampRate = 0 then target
  else if a.ramp < target then min target (a.ramp + d) else max target (a.ramp - d)

/-- The two poles of the filter one cell cycle on, its output first; once both stand at the level, they stay (R142). -/
def Ao.filtNext (a : Ao) (lim : Nat) : Nat × Nat :=
  if a.hart = 1 ∧ (a.filt ≠ lim ∨ a.filtIn ≠ lim) then
    let p := Config.hartFilter (a.filt, a.filtIn) lim
    (min 60000 p.1, p.2)
  else (lim, lim)

/-- The slope limit and the filter stand at a level: a step (R142). -/
def Ao.stepTo (a : Ao) (l : Nat) : Ao := { a with ramp := 2 * l, filt := l, filtIn := l }

/-- The level that trim mode drives (R142, order 3). -/
def trimLevel (span : Bool) : Nat := if span then codeSpanHigh else codeSpanLow

/-- The level of order 2 (R142). -/
def Ao.safeLevel (a : Ao) : Nat :=
  if a.safe = 0 then codeFaultLow else if a.safe = 1 then codeFaultHigh else a.level

/-- The level of order 6 (R141, R142). -/
def Ao.badLevel (a : Ao) : Nat :=
  if a.srcAct = 1 then codeFaultLow else if a.srcAct = 2 then codeFaultHigh else a.clamped a.srcCmd

/-- The level that is held whatever the conditions of the channel: the frozen one of a hand-over, that of a take-over
until the unit's own first command, that of a swap until the next scan (R150, R151, R161). -/
def Ao.heldLevel (a : Ao) : Option Nat := a.frozen <|> a.takeLevel <|> a.swapLevel

/-- The level of orders 3 to 6 with its WHY, none where order 7 applies (R142, R146). -/
def Ao.override (a : Ao) : Option (Nat × Nat) :=
  match a.trimMode with
  | some (span, _, _) => some (trimLevel span, 5)
  | none =>
    if a.hart = 2 then some (codeSpanLow, 4)
    else if bit a.dstat 1 ∧ a.compAct = 1 ∧ a.retry = 0 then some (codeFaultLow, 3)
    else if a.fromPoint ∧ a.srcBad then some (a.badLevel, 2)
    else none

/-- Order 7: the command after clamp, slope limit and filter, with its WHY (R142). -/
def Ao.ownLevel (a : Ao) : Ao × Nat × Nat :=
  let r := a.rampNext
  let f := a.filtNext ((r + 1) / 2)
  ({ a with ramp := r, filt := f.1, filtIn := f.2 }, f.1, if f.1 = a.clamped a.command then 0 else 1)

/-- Trim of a level: the code driven, the result rounded to the nearest code, halves away from zero (R152, log 7). -/
def trimCode (z s : Int) (c : Nat) : Nat :=
  (clampI 0 60000 (divAway (((c : Int) + z) * 40000 + (s - z) * ((c : Int) - 10000)) 40000)).toNat

/-- OVERTEMP caps the level, and a sink island raises it to 1.40 mA with WHY 9 (R142). -/
def Ao.limited (a : Ao) (l why : Nat) : Nat × Nat :=
  let l1 := if bit a.dstat 6 then min l codeFaultLow else l
  if a.sink ∧ l1 < codeFloor then (codeFloor, 9) else (l1, why)

/-- The island drives a chosen level: FLOOR, trim, and in a sink island the clock that the code driven leaves (R138,
R142, R152). -/
def Ao.drive (a : Ao) (l why : Nat) : Ao :=
  let (l1, w1) := a.limited l why
  let k := trimCode a.trimZ a.trimS l1
  let a1 := { a with level := l, code := k, why := w1 }
  if a.sink ∧ !(bit a.dstat 1) then { a1 with clk := clkSlower a.clk (clkFor (k * 400)) } else a1

/-- The island selects the level in force and drives it: orders 1 and 2, a level that is held, orders 3 to 7 (R142, R150,
R151, R161, log 10). -/
def aoSelect (s : State) (c : Fin 4) : Ao :=
  let a := s.ao[c]
  let own := a.stepTo (a.clamped a.command)
  if aoOpen s c then own.openNow
  else if safeLevelHolds s then own.drive a.safeLevel 6
  else match a.heldLevel with
  | some l => (a.stepTo l).drive l 0
  | none => match a.override with
    | some (l, w) => own.drive l w
    | none => let (a1, l, w) := a.ownLevel; a1.drive l w

/-- The island selects and drives its level now, and reports a change of its state. -/
def aoDrive (c : Fin 4) (s : State) : State := aoNotify c s (s.setAo c fun _ => aoSelect s c)

/-- Every island does. -/
def aoDriveAll (s : State) : State := (List.finRange 4).foldl (fun a c => aoDrive c a) s

/-- A stopped island holds the level that it drove, or stays open; trim and the protections act on it (R142, R160, log
10). -/
def aoHold (s : State) (c : Fin 4) : Ao :=
  let a := s.ao[c]
  if aoOpen s c ∨ a.why = 8 then a.openNow else a.drive a.level a.why

/-- Headroom in 10 mV units (R136). -/
def Ao.headOf (a : Ao) (m : AoMeas) (limited : Bool) : Nat :=
  if limited then 0
  else if a.sink then (clampI 0 65535 (m.term - (if a.hart = 0 then 900 else 950))).toNat
  else (clampI 0 65535 (2000 - m.term)).toNat

/-- The driven level is not open. -/
def Ao.driving (a : Ao) : Bool := a.why != 8

/-- OPEN_LOOP (R144). -/
def Ao.openLoop (a : Ao) (m : AoMeas) : Bool :=
  !a.sink && a.driving && decide (m.curr < 200000) && decide (2500 ≤ a.level) && decide (1950 ≤ m.term)

/-- COMPLIANCE, never under OPEN_LOOP; with COMP_ACT 1 it stays until the retry finds the level (R144, R146). -/
def Ao.compliance (a : Ao) (m : AoMeas) : Bool :=
  a.driving && !a.openLoop m &&
    (if a.compAct = 1 ∧ bit a.dstat 1 then
       !(decide (0 < a.retry) && decide ((m.curr - (a.code : Int) * 400).natAbs ≤ 50000))
     else m.atLimit && decide (m.curr < (a.code : Int) * 400 - 50000))

/-- The current differs from the level by more than 80 µA with the regulator not at its limit (R144). -/
def Ao.readMiss (a : Ao) (m : AoMeas) : Bool :=
  a.driving && !m.atLimit && decide (80000 < (m.curr - (a.code : Int) * 400).natAbs)

/-- The die is judged in this cycle: at the slowest clock every 4th cycle (R137). -/
def Ao.judges4 (a : Ao) : Bool := a.clk != 3 || a.cycles.toNat % 4 == 0

/-- The conditions that a cycle finds (R144). -/
def Ao.condsOf (a : Ao) (m : AoMeas) : BitVec 13 :=
  let comp := a.compliance m
  aoBit 0 (a.openLoop m) ||| aoBit 1 comp |||
  aoBit 2 (a.driving && a.headroom != 0 && decide (a.headOf m comp < a.headroom * 10)) |||
  aoBit 3 (!a.sink && (bit a.dstat 3 || decide (2300 < m.term))) |||
  aoBit 4 (!a.sink && (bit a.dstat 4 || decide (m.term < -100))) |||
  aoBit 5 (bit a.dstat 5 || (a.readMiss m && decide (2 ≤ a.readCnt))) |||
  aoBit 6 (if a.judges4 then (if bit a.dstat 6 then decide (1100 < m.die) else decide (1250 ≤ m.die))
           else bit a.dstat 6) |||
  aoBit 8 (bit a.dstat 8) ||| aoBit 9 (a.sink && a.driving && decide (a.level < codeFloor)) |||
  aoBit 10 (a.sink && a.clk != 0) ||| aoBit 11 (a.fromPoint && a.srcBad) ||| aoBit 12 a.trimMode.isSome

/-- A cycle's measurement: readings, clock and conditions (R137, R144). -/
def Ao.measure (a : Ao) (m : AoMeas) : Ao :=
  let a1 := { a with changing := false, curr := m.curr, term := m.term, head := a.headOf m (a.compliance m), cycles := a.cycles + 1,
                     clk := if a.sink then clkSlower a.clk (clkFor m.curr) else 0 }
  let a2 := { a1 with readCnt := if a.readMiss m then a.readCnt + 1 else 0 }
  a2.setConds ({ a1 with readCnt := a.readCnt }.condsOf m)

/-- The retry under COMPLIANCE one cell cycle on: it ends with COMPLIANCE, or after 20 ms (R146). -/
def Ao.retryOn (a : Ao) : Ao := { a with retry := if bit a.dstat 1 then a.retry - cycleMs a.clk else 0 }

/-- The island does not answer its coupler (R139, log 10). -/
def Ao.lost (a : Ao) : Ao :=
  ({ a with phase := .noPower, lostFrom := a.phase, code := 0, why := 8, retry := 0 }).setConds (aoBit 7 true)

/-- A transmission ends without the whole frame sent, with result 2 (R157, log 10). -/
def aoHartAbort (c : Fin 4) (s : State) : State :=
  if s.ao[c].txBusy then
    aoEvent c 25 (s.setAo c fun a => { a with sending := none, txBusy := false, txRes := 2 }) else s

/-- A sink island resets for want of supply (R139). -/
def aoLose (c : Fin 4) (s : State) : State :=
  let s1 := aoHartAbort c s
  aoNotify c s1 (s1.setAo c Ao.lost)

/-- A cell cycle of a powered island: its level, its measurement, and the end of a retry (R142, R144, R146, R160). -/
def aoStep (s : State) (c : Fin 4) (m : AoMeas) : State :=
  let pick := fun (s : State) => if aoCode s c = 5 then aoHold s c else aoSelect s c
  let s1 := s.setAo c fun a => ((pick s).measure m).retryOn
  let s2 := if aoOpen s1 c then s1.setAo c Ao.openNow
    else if s.ao[c].retry ≠ 0 ∧ s1.ao[c].retry = 0 then s1.setAo c fun _ => pick s1 else s1
  aoNotify c s s2

/-- Before the first cycle of a scan period, the last one's result is kept for a scan that starts earlier (R215). -/
def Ao.keepPrior (a : Ao) (s : State) : Ao :=
  if a.cycTime / scanTicksOf s.scanCode < s.now / scanTicksOf s.scanCode then
    { a with prior := { value := a.curr, qual := a.qual, time := a.cycTime, count := a.cycles.toNat, mono := a.cycMono } }
  else a

/-- AO_CELL_CYCLE: a sink island that does not answer has lost its supply; during a reset of ACQ there is none, and the
island holds its level (R54, R139, R142, R160). -/
def aoCycle (s0 : State) (c : Fin 4) (m : AoMeas) : State :=
  let s := s0.setAo c fun a => { a.keepPrior s0 with cycTime := s0.now, cycMono := s0.mono }
  let code := aoCode s c
  if !regionUp rACQ s0 then s0
  else if code = 3 ∨ code = 4 ∨ code = 5 ∨ code = 8 then
    match m.fail with
    | some cause => recordFault 0 aobId c.val cause.toNat (s.setAo c fun a => { a with qual := 4 })
    | none => if s.ao[c].sink ∧ m.answers = false then aoLose c s else aoStep s c m
  else if (code = 1 ∨ code = 2) ∧ s.ao[c].sink ∧ m.answers = false ∧ m.fail = none then aoLose c s0
  else s0

/-- AO_CLOCK_STEP_UP: the current stayed 0.10 mA above the next row's threshold (R137). -/
def aoStepUp (s : State) (c : Fin 4) : State :=
  let a := s.ao[c]
  if a.sink ∧ a.phase = .run ∧ a.clk ≠ 0 ∧ clkThreshold (a.clk - 1) + 100000 ≤ a.curr then
    aoNotify c s (s.setAo c fun a =>
      let a1 := { a with clk := a.clk - 1 }
      a1.setConds ((a.dstat &&& ~~~(aoBit 10 true)) ||| aoBit 10 (a1.clk != 0)))
  else s

/-- AO_BROWNOUT: the terminal voltage of a sink island fell, and the island resets (R139). -/
def aoBrownout (s : State) (c : Fin 4) : State :=
  if s.ao[c].sink ∧ s.ao[c].phase ≠ .off ∧ s.ao[c].phase ≠ .noPower then aoLose c s else s

/-- AO_ISLAND_RESTART: a sink island restarts, and sets BROWNOUT when it had run before; one that had not calibrated yet
does so now (R139, R143, R144, log 10). -/
def aoIslandRestart (s : State) (c : Fin 4) : State :=
  if s.ao[c].phase = .noPower then
    aoNotify c s (s.setAo c fun a =>
      ({ a with phase := if a.lostFrom = AoPhase.run then AoPhase.run else AoPhase.calibrating, clk := 3 }).setConds
        (aoBit 8 (a.lostFrom != AoPhase.powering)))
  else s

/-- AO_BROWNOUT_CLEAR: 1 s in RUN without a reset (R144). -/
def aoBrownoutClear (s : State) (c : Fin 4) : State :=
  if s.ao[c].phase = .run then
    aoNotify c s (s.setAo c fun a => a.setConds (a.dstat &&& ~~~(aoBit 8 true))) else s

/-- AO_KEEPALIVE_LOST: the island opens (R148). -/
def aoKeepLost (s : State) (c : Fin 4) : State :=
  aoNotify c s (s.setAo c fun a => { a.openNow with keepLost := true })

/-- AO_COMPLIANCE_RETRY: the wanted level is driven for 20 ms; the cell cycles until then keep it, or 3.5 mA returns
(R146). -/
def aoCompRetry (s : State) (c : Fin 4) : State :=
  if bit s.ao[c].dstat 1 ∧ s.ao[c].compAct = 1 ∧ aoCode s c = 3 ∧ regionUp rACQ s then
    aoDrive c (s.setAo c fun a => { a with retry := 20 })
  else s

/-- AO_SWITCH_RECLOSE: the terminal voltage stayed in range for 1 s (R147). -/
def aoReclose (s : State) (c : Fin 4) : State :=
  aoNotify c s (s.setAo c fun a => a.setConds (a.dstat &&& ~~~(aoBit 3 true ||| aoBit 4 true)))

/-- Byte address of an AO register. -/
def aoAddr (c : Fin 4) (off : Nat) : Nat := 0x024000 + 0x400 * c.val + off

/-- AO_RESTART opens the island, calibrates it and clears READBACK; in STOPPED, ISOLATED, UNUSED and NO_POWER it is
ignored and logged (R143, AO_CMD). -/
def aoRestart (src : Source) (c : Fin 4) (s : State) : State :=
  let code := aoCode s c
  if code = 5 ∨ code = 6 ∨ code = 7 ∨ code = 9 ∨ code = 0 ∨ code = 1 then logWerr 8 src (aoAddr c 0x80) s
  else
    aoNotify c s (s.setAo c fun a =>
      ({ a with phase := .calibrating, readCnt := 0 }).openNow.setConds (a.dstat &&& ~~~(aoBit 5 true)))

/-- AO_ISLAND_POWERED: the start calibration begins (R143). -/
def aoPowered (s : State) (c : Fin 4) : State :=
  if s.ao[c].phase = .powering then aoNotify c s (s.setAo c fun a => { a with phase := .calibrating }) else s

/-- AO_CAL_DONE: the island runs (R143). -/
def aoCalDone (s : State) (c : Fin 4) : State :=
  if s.ao[c].phase = .calibrating then
    aoNotify c s (s.setAo c fun a => ({ a with phase := .run }).setConds a.dstat) else s

/-- Z or S of a trim word, signed. -/
def trimField (w : Word) (lo : Nat) : Int := sfld w lo 16

/-- A trim value within its limits (R152). -/
def trimOk (z : Int) : Bool := decide (-500 ≤ z) && decide (z ≤ 500)

/-- A trim in force and stored (R154, R155). -/
def Ao.setTrim (a : Ao) (z s : Int) : Ao := { a with trimZ := z, trimS := s, trimStored := (z, s) }

/-- AO_TRIM_APPLY (R154). -/
def aoTrimApply (src : Source) (c : Fin 4) (s : State) : State :=
  let w := s.ao[c].trimReq
  let z := trimField w 16
  let sp := trimField w 0
  if s.standby then aoEvent c 26 (logWerr 8 src (aoAddr c 0x80) s)
  else if trimOk z && trimOk sp then aoEvent c 26 (s.setAo c fun a => a.setTrim z sp)
  else aoEvent c 26 (logWerr 9 src (aoAddr c 0x80) s)

/-- AO_TRIM_CLEAR (R154). -/
def aoTrimClear (src : Source) (c : Fin 4) (s : State) : State :=
  if s.standby then aoEvent c 26 (logWerr 8 src (aoAddr c 0x80) s)
  else aoEvent c 26 (s.setAo c fun a => a.setTrim 0 0)

/-- The modem is available: RUN, HART on, transmitting allowed (R157). -/
def aoHartOff (s : State) (c : Fin 4) : Bool := !(aoCode s c == 3) || s.ao[c].hart == 0

/-- AO_HART_TX: the request is accepted, or refused with its result (R157). -/
def aoHartTx (c : Fin 4) (s : State) : State :=
  let a := s.ao[c]
  if a.txBusy then s
  else if aoHartOff s c ∨ a.txLen = 0 ∨ 256 < a.txLen then
    aoEvent c 25 (s.setAo c fun a => { a with txRes := 4 })
  else if a.clk ≠ 0 then aoEvent c 25 (s.setAo c fun a => { a with txRes := 3 })
  else s.setAo c fun a => { a with txBusy := true, txRes := 0 }

/-- A request that waits ends without a transmission, with its result (R157). -/
def aoHartRefuse (c : Fin 4) (res : Nat) (s : State) : State :=
  aoEvent c 25 (s.setAo c fun a => { a with txBusy := false, txRes := res })

/-- AO_HART_TX_START: preamble and frame go out; a stopped island waits, and one that can send no more ends the request
(R149, R157, R160, log 10). -/
def aoHartStart (c : Fin 4) (s : State) : State :=
  let a := s.ao[c]
  if !a.txBusy ∨ a.sending.isSome ∨ a.cd ∨ aoCode s c = 5 ∨ !regionUp rACQ s then s
  else if aoHartOff s c then aoHartRefuse c 4 s
  else if a.clk ≠ 0 then aoHartRefuse c 3 s
  else s.setAo c fun a => { a with sending := some (List.replicate a.preamb 0xFF ++ memBytes a.tx 0 a.txLen) }

/-- AO_HART_TX_DONE: the frame has been sent (R157). -/
def aoHartDone (c : Fin 4) (s : State) : State :=
  if s.ao[c].sending.isSome then
    aoEvent c 25 (s.setAo c fun a => { a with sending := none, txBusy := false, txRes := 1 }) else s

/-- The modem receives: HART on, full clock, not sending itself (R137, R158). -/
def aoReceives (s : State) (c : Fin 4) : Bool :=
  let a := s.ao[c]
  a.hart != 0 && a.clk == 0 && a.sending.isNone && (aoCode s c == 3 || aoCode s c == 5 || aoCode s c == 8)

/-- AO_HART_CARRIER_DETECT: RX_DONE clears and a new frame begins (R158). -/
def aoCarrier (c : Fin 4) (s : State) : State :=
  if aoReceives s c then
    s.setAo c fun a => { a with cd := true, rxDone := false, rxLen := 0, perr := 0, ovr := false }
  else s

/-- AO_HART_RX_DONE: the frame is complete (R158). -/
def aoRxDone (c : Fin 4) (bytes : List Byte) (perr : Nat) (s : State) : State :=
  if s.ao[c].cd then
    aoEvent c 24 (s.setAo c fun a =>
      { a with cd := false, rxDone := true, rx := memFill a.rx 0 (bytes.take 256), rxLen := min 256 bytes.length,
               perr := min 255 perr, ovr := decide (256 < bytes.length) })
  else s

/-- Trim mode ends. -/
def Ao.trimEnd (a : Ao) : Ao := ({ a with trimMode := none }).setConds (a.dstat &&& ~~~(aoBit 12 true))

/-- The previous trim is restored and trim mode ends (R153). -/
def aoTrimRestore (c : Fin 4) (s : State) : State :=
  match s.ao[c].trimMode with
  | none => s
  | some (_, z, sp) => aoEvent c 26 (s.setAo c fun a => ({ a with trimZ := z, trimS := sp }).trimEnd)

/-- A unit that gives up control ends every transmission and trim mode (R149, R153, R157, log 10). -/
def aoEndSpell (s : State) : State := (List.finRange 4).foldl (fun a c => aoTrimRestore c (aoHartAbort c a)) s

/-- It opens its loops, and holds no level for them (R149, R150, R371). -/
def aoLetGo (s : State) : State :=
  { s with ao := s.ao.map fun a =>
      { a.openNow with frozen := none, takeLevel := none, swapLevel := none, held := false, retry := 0 } }

/-! ### Settings (R160 to R162) and registers -/

/-- Reserved bits of the configuration words are 0 (R504). -/
def aoReservedOk (w : Vector Word 5) : Bool :=
  fld w[0] 26 6 == 0 && fld w[0] 22 2 == 0 && fld w[0] 17 3 == 0 && !bit w[0] 15 && fld w[0] 5 3 == 0 &&
  fld w[0] 2 2 == 0 && fld w[1] 24 8 == 0 && fld w[1] 13 3 == 0 && fld w[1] 6 2 == 0 && fld w[1] 2 2 == 0

/-- The settings of a channel in use are ones that a recipe can hold; `kind k` says that slot `k` is in use (R134,
R141, R146, R149, R159, R162). -/
def aoCfgOk (paired : Bool) (kind : Nat → Bool) (w : Vector Word 5) : Bool :=
  let slot := fld w[0] 8 7
  let hart := fld w[1] 0 2
  let pre := fld w[1] 8 5
  aoReservedOk w && decide (fld w[0] 0 2 ≤ 1) && !(paired && fld w[0] 0 2 == 1) &&
  (!bit w[0] 4 || (decide (slot ≤ 79) && !(decide (16 ≤ slot) && decide (slot ≤ 19)) && kind slot && !f32Eq w[3] w[4])) &&
  decide (fld w[0] 24 2 ≤ 2) && decide (fld w[1] 4 2 ≤ 1) && decide (hart ≤ 2) &&
  (hart == 0 || (decide (5 ≤ pre) && decide (pre ≤ 20))) && decide (fld w[2] 16 16 ≤ 60000) &&
  decide (fld w[2] 0 16 ≤ 24000) && f32Finite w[3] && f32Finite w[4]

/-- The five words of a channel in a bank's ACQ section (R162). -/
def aoBankCfg (bank : Memory) (c : Nat) : Vector Word 5 :=
  Vector.ofFn fun i => BitVec.ofNat 32 (bankNat bank secACQ (512 + 32 * c + 4 * i.val) 4)

/-- The island takes its settings: powered down when unused, calibrated when its MODE changed or it was off, else
running on (R93, R160, R161). -/
def aoApply (s : State) (c : Fin 4) : State :=
  s.setAo c fun a =>
    let b := { a with use := a.cfg }
    if s.aoUnused c.val then
      { b.openNow with phase := .off, dstat := 0, qual := 2, trimMode := none, sending := none, txBusy := false }
    else if a.phase = .off then { b with phase := .powering }
    else if b.sink ≠ a.sink then { b.openNow with phase := if a.phase = .powering then .powering else .calibrating }
    else b

/-- The channel's settings are loaded at a start: INIT goes into AO_SET, and the stored trim is restored (R141,
R155). -/
def aoLoad (s : State) (c : Fin 4) : State :=
  s.setAo c fun a =>
    let w := aoBankCfg s.activeBank c.val
    { a with cfg := w, set := BitVec.ofNat 16 (fld w[2] 16 16), trimZ := a.trimStored.1, trimS := a.trimStored.2 }

/-- The channel's settings at a swap; a stopped island takes them when its block is released. Where they changed, the
quality is UNCERTAIN until a cycle under the new ones (R99, R141, R160, R161). -/
def aoSwap (s : State) (c : Fin 4) : State :=
  let w := aoBankCfg s.activeBank c.val
  let s1 := s.setAo c fun a =>
    let b := { a with cfg := w, set := BitVec.ofNat 16 (fld w[2] 16 16) }
    if w = a.cfg ∨ a.phase = .off then b else { b with changing := true, qual := 1 }
  if s.aoBlk.stop then s1 else aoApply s1 c

/-- The channel after a reset of ACQ: its registers hold the active bank's values again, and where these differ from the
settings in force the island takes them (R38, R53, R54). -/
def aoReady (s : State) (c : Fin 4) : State :=
  let s1 := s.setAo c fun a => { a with cfg := aoBankCfg s.activeBank c.val }
  if s1.ao[c].cfg = s1.ao[c].use then s1 else aoNotify c s (aoApply s1 c)

/-- AO_BLK_CTL.STOP is written (R160). -/
def aoBlkWrite (stop : Bool) (s : State) : State :=
  let s1 := { s with aoBlk := { stop := stop } }
  let s2 := if s.aoBlk.stop && !stop then (List.finRange 4).foldl aoApply s1 else s1
  aoNotifyAll s s2

/-- Every island open, its level in force none (R67, R149). -/
def aoOpenAll (s : State) : State := { s with ao := s.ao.map Ao.openNow }

/-- A read of a channel's register, without effect (ch. 6). -/
def aoRead (s : State) (c : Fin 4) (off : Nat) : Option Word :=
  let a := s.ao[c]
  if h : off < 20 ∧ off % 4 = 0 then some (a.cfg[off / 4]'(by omega))
  else if 0x100 ≤ off ∧ off < 0x200 ∧ off % 4 = 0 then some (BitVec.ofNat 32 (memNat a.tx (off - 0x100) 4))
  else if 0x200 ≤ off ∧ off < 0x300 ∧ off % 4 = 0 then some (BitVec.ofNat 32 (memNat a.rx (off - 0x200) 4))
  else match off with
  | 0x40 => some (put 0 16 a.set.toNat)
  | 0x44 => some (put 16 4 a.why ||| put 0 16 a.code)
  | 0x48 => some (putI 0 32 a.curr)
  | 0x4C => some (putI 16 16 a.term ||| put 0 16 a.head)
  | 0x50 => some (put 16 16 a.cycles.toNat ||| put 8 2 a.clk.val ||| put 4 3 (aoQual s c) ||| put 0 4 (aoCode s c))
  | 0x54 => some (put 0 13 a.dstat.toNat)
  | 0x58 => some (put 0 13 a.diag.toNat)
  | 0x5C => some (putI 16 16 a.trimZ ||| putI 0 16 a.trimS)
  | 0x60 => some a.trimReq
  | 0x70 => some (put 0 9 a.txLen)
  | 0x74 => some (put 20 8 a.perr ||| put 11 9 a.rxLen ||| put 8 3 a.txRes ||| putB 3 a.ovr ||| putB 2 a.rxDone |||
      putB 1 a.txBusy ||| putB 0 a.cd)
  | 0x80 => some 0
  | 0x380 => some (putB 0 s.aoBlk.stop)
  | 0x384 => some 0
  | 0x388 => some ((List.range 4).foldl (fun w k => w ||| putB k (isIsolated aobId k s)) 0)
  | _ => none

/-- AO_CELL_CYCLE (R142). -/
def execAoCellCycle (c : Fin 4) (m : AoMeas) (s : State) : Host.Outcome State Fault Refusal := .next (aoCycle s c m)

/-- AO_CLOCK_STEP_UP (R137). -/
def execAoClockStepUp (c : Fin 4) (s : State) : Host.Outcome State Fault Refusal := .next (aoStepUp s c)

/-- AO_BROWNOUT (R139). -/
def execAoBrownout (c : Fin 4) (s : State) : Host.Outcome State Fault Refusal := .next (aoBrownout s c)

/-- AO_ISLAND_RESTART (R139). -/
def execAoIslandRestart (c : Fin 4) (s : State) : Host.Outcome State Fault Refusal := .next (aoIslandRestart s c)

/-- AO_BROWNOUT_CLEAR (R144). -/
def execAoBrownoutClear (c : Fin 4) (s : State) : Host.Outcome State Fault Refusal := .next (aoBrownoutClear s c)

/-- AO_KEEPALIVE_LOST (R148). -/
def execAoKeepaliveLost (c : Fin 4) (s : State) : Host.Outcome State Fault Refusal := .next (aoKeepLost s c)

/-- AO_COMPLIANCE_RETRY (R146). -/
def execAoComplianceRetry (c : Fin 4) (s : State) : Host.Outcome State Fault Refusal := .next (aoCompRetry s c)

/-- AO_SWITCH_RECLOSE (R147). -/
def execAoSwitchReclose (c : Fin 4) (s : State) : Host.Outcome State Fault Refusal := .next (aoReclose s c)

/-- AO_RESTART (R143). -/
def execAoRestart (src : Source) (c : Fin 4) (s : State) : Host.Outcome State Fault Refusal := .next (aoRestart src c s)

/-- AO_ISLAND_POWERED (R143). -/
def execAoIslandPowered (c : Fin 4) (s : State) : Host.Outcome State Fault Refusal := .next (aoPowered s c)

/-- AO_CAL_DONE (R143). -/
def execAoCalDone (c : Fin 4) (s : State) : Host.Outcome State Fault Refusal := .next (aoCalDone s c)

/-- AO_HART_TX (R157): the writer does not change what the island does. -/
def execAoHartTx (_src : Source) (c : Fin 4) (s : State) : Host.Outcome State Fault Refusal := .next (aoHartTx c s)

/-- AO_HART_TX_START (R157). -/
def execAoHartTxStart (c : Fin 4) (s : State) : Host.Outcome State Fault Refusal := .next (aoHartStart c s)

/-- AO_HART_TX_DONE (R157). -/
def execAoHartTxDone (c : Fin 4) (s : State) : Host.Outcome State Fault Refusal := .next (aoHartDone c s)

/-- AO_HART_CARRIER_DETECT (R158). -/
def execAoHartCarrierDetect (c : Fin 4) (s : State) : Host.Outcome State Fault Refusal := .next (aoCarrier c s)

/-- AO_HART_RX_DONE (R158). -/
def execAoHartRxDone (c : Fin 4) (bytes : List Byte) (perr : Nat) (s : State) : Host.Outcome State Fault Refusal :=
  .next (aoRxDone c bytes perr s)

/-- AO_BLOCK_STOP (R160). -/
def execAoBlockStop (stop : Bool) (s : State) : Host.Outcome State Fault Refusal := .next (aoBlkWrite stop s)

end Sys2Proof.Machine
end

