-- ==== Sys2Proof/Machine/Dio.lean ====
section
/-! DEFINITION. Dio: the digital channels: inputs, outputs and their levels, diagnostics, field supply groups, lamp watch
and registers (ch. 7). -/
namespace Sys2Proof.Machine

open Sys2Proof

/-- The state with one digital channel replaced. -/
def State.setDio (s : State) (c : Fin 16) (f : Dio → Dio) : State := { s with dio := s.dio.set c (f s.dio[c]) }

/-- The state with one field supply group replaced. -/
def State.setGrp (s : State) (g : Fin 2) (f : DioGroup → DioGroup) : State :=
  { s with dioBlk := { s.dioBlk with groups := s.dioBlk.groups.set g (f s.dioBlk.groups[g]) } }

/-- Group of a channel: 0 for DIO1 to DIO8. -/
def dioGroup (c : Fin 16) : Fin 2 := if c.val < 8 then 0 else 1

/-- Block identifier of a channel: DOB0 or DOB1 (R37). -/
def dioBlock (c : Fin 16) : Nat := 0x03 + c.val / 8

/-- Cell of a channel within its block. -/
def dioCell (c : Fin 16) : Nat := c.val % 8

/-- The group of a channel. -/
def dioGrp (s : State) (c : Fin 16) : DioGroup := s.dioBlk.groups[dioGroup c]

/-- Configuration fields (ch. 7): an output. -/
def Dio.output (d : Dio) : Bool := fld d.use[0] 0 2 == 1
/-- SRC. -/
def Dio.src (d : Dio) : Nat := fld d.use[0] 4 2
/-- SRC_SLOT. -/
def Dio.srcSlot (d : Dio) : Nat := fld d.use[0] 8 7
/-- SAFE. -/
def Dio.safe (d : Dio) : Nat := fld d.use[0] 16 2
/-- SRC_ACT. -/
def Dio.srcAct (d : Dio) : Nat := fld d.use[0] 18 2
/-- FUNC. -/
def Dio.func (d : Dio) : Nat := fld d.use[0] 20 4
/-- FUNC_ARG. -/
def Dio.funcArg (d : Dio) : Nat := fld d.use[0] 24 4
/-- INRUSH. -/
def Dio.inrushSet (d : Dio) : Bool := bit d.use[1] 16
/-- OVL_RETRY. -/
def Dio.ovlRetry (d : Dio) : Nat := fld d.use[1] 20 4
/-- OVL_TH in 10 mA units, 65 for 0, less what AGE takes off it (R472). -/
def Dio.ovlTh (d : Dio) : Nat := (if fld d.use[1] 24 8 = 0 then 65 else fld d.use[1] 24 8) - d.ovlCut
/-- LINE_MON. -/
def Dio.lineMon (d : Dio) : Bool := bit d.use[2] 8
/-- OFF_TEST. -/
def Dio.offTest (d : Dio) : Bool := bit d.use[2] 16
/-- UC_TH. -/
def Dio.ucTh (d : Dio) : Nat := fld d.use[2] 24 8
/-- LAMP_EN. -/
def Dio.lampEn (d : Dio) : Bool := bit d.use[3] 0
/-- LAMP_K. -/
def Dio.lampK (d : Dio) : Nat := fld d.use[3] 8 2
/-- PROBE_INT. -/
def Dio.probeInt (d : Dio) : Nat := fld d.use[3] 12 4
/-- DEB in µs. -/
def Dio.deb (d : Dio) : Nat := fld d.use[1] 0 16
/-- LW_LO. -/
def Dio.lwLo (d : Dio) : Nat := fld d.use[3] 16 8
/-- LW_HI. -/
def Dio.lwHi (d : Dio) : Nat := fld d.use[3] 24 8

/-- The group's outputs are off: LOW, OVERVOLT or LOST (R179). -/
def GrpCond.bad : GrpCond → Bool
  | .low => true
  | .overvolt => true
  | .lost => true
  | _ => false

/-- Code of a group condition in `DIO_GRPg.COND` (R178). -/
def GrpCond.code : GrpCond → Nat
  | .normal => 0
  | .warn => 1
  | .low => 2
  | .overvolt => 3
  | .lost => 4

/-- The condition that counts for a channel: an unused group reports NORMAL (R178). -/
def grpCond (s : State) (g : Fin 2) : GrpCond :=
  if s.grpUnused g.val then .normal else s.dioBlk.groups[g].cond

/-- The channel belongs to a group that IDENT declares unused (R93). -/
def dioUnused (s : State) (c : Fin 16) : Bool := s.grpUnused (dioGroup c).val

/-- The output is released: order 1 of R173. -/
def dioReleased (s : State) (c : Fin 16) : Bool :=
  !s.sys.outEn || dioUnused s c || s.dio[c].waitPost || (dioGrp s c).released || (dioGrp s c).keepLost || (s.sys.mode == .safe && s.isPaired)

/-- `DIO_STAT.STATE`. -/
def dioCode (s : State) (c : Fin 16) : Nat :=
  let d := s.dio[c]
  if dioUnused s c then 5
  else if isIsolated (dioBlock c) (dioCell c) s then 4
  else if !d.running then 0
  else if (dioGrp s c).stop then 3
  else if d.output && dioReleased s c then 2
  else 1

/-- Quality from the conditions held (R176). -/
def Dio.qualOf (d : Dio) : Nat :=
  let b := fun i => bit d.dstat i
  if b 0 || b 1 || b 2 || b 3 || b 4 || b 5 || b 10 || b 13 || b 15 || (b 9 && (d.output || d.lineMon)) ||
     (b 8 && d.output) then 2
  else if b 6 || b 11 || b 12 || b 14 || b 16 || (b 8 && d.lineMon) then 1
  else 0

/-- `DIO_STAT.QUAL` (R44, R93, R99, R176). -/
def dioQual (s : State) (c : Fin 16) : Nat :=
  if dioUnused s c then 2 else if isIsolated (dioBlock c) (dioCell c) s then 4
  else if !s.dio[c].running then 2 else if s.dio[c].changing then 1 else s.dio[c].qualOf

/-- Payload of a channel's event, without its marks (R193). -/
def dioEventWord (s : State) (c : Fin 16) : Word :=
  put 0 19 s.dio[c].dstat.toNat ||| put 19 3 (dioQual s c) ||| put 22 3 (dioCode s c)

/-- An event of the channel with marks (R193). -/
def dioEvent (c : Fin 16) (marks : Word) (s : State) : State :=
  if dioUnused s c then s else raise (20 + c.val) (dioEventWord s c ||| marks) s

/-- The channel raises its event when its conditions or its state changed (R193). -/
def dioNotify (c : Fin 16) (s0 s1 : State) : State :=
  if s1.dio[c].dstat ≠ s0.dio[c].dstat ∨ dioCode s1 c ≠ dioCode s0 c then dioEvent c 0 s1 else s1

/-- Every channel raises its event where it changed. -/
def dioNotifyAll (s0 s1 : State) : State := (List.finRange 16).foldl (fun a c => dioNotify c s0 a) s1

/-- A bit of a 19-bit condition set. -/
def dioBit (i : Nat) (b : Bool) : BitVec 19 := if b then BitVec.ofNat 19 (2 ^ i) else 0

/-- New conditions (R176). -/
def Dio.setConds (d : Dio) (n : BitVec 19) : Dio := { d with dstat := n, diag := d.diag ||| (n &&& ~~~d.dstat) }

/-- One condition set or cleared. -/
def Dio.cond (d : Dio) (i : Nat) (b : Bool) : Dio := d.setConds ((d.dstat &&& ~~~(dioBit i true)) ||| dioBit i b)

/-! ### Output levels (R171 to R175) -/

/-- The level of a command at a system time: SLOW on for the first half of each second, FAST for the first half of each
half-second (R172, log 8). -/
def blinkLevel (now : Nat) (cmd : BitVec 2) : Bool :=
  if cmd = 0 then false
  else if cmd = 1 then true
  else if cmd = 2 then decide (now % ticksPerSec < ms 500)
  else decide (now % ms 500 < ms 250)

/-- The level that an output wants and its WHY, inrush waits apart: the first row of R173 that holds. -/
def dioWant (s : State) (c : Fin 16) : Bool × Nat :=
  let d := s.dio[c]
  if dioReleased s c then (false, 5)
  else if (grpCond s (dioGroup c)).bad then (false, 3)
  else if d.tripped || bit d.dstat 2 || d.shed then (false, 4)
  else if (s.sys.mode == .safe || s.sys.power == .dormant) && !s.isPaired then
    (if d.safe = 0 then false else if d.safe = 1 then true else d.before, 2)
  else match d.frozen with
  | some l => (l, 7)
  | none => match d.hold with
  | some k => (blinkLevel s.now k.1, 0)
  | none =>
    if d.src == 1 && d.srcBad then
      (if d.srcAct = 1 then false else if d.srcAct = 2 then true else blinkLevel s.now d.latch, 1)
    else (blinkLevel s.now d.latch, 0)

/-- Inrush windows that run in a group (R174). -/
def inrushRunning (s : State) (g : Fin 2) : Nat :=
  ((List.finRange 16).filter fun c => decide (dioGroup c = g) && s.dio[c].inrush).length

/-- The switch goes on: a window opens where INRUSH is set, and the on-state checks start anew (R174, R184). -/
def Dio.switchOn (d : Dio) (why seq : Nat) : Dio :=
  { d with on := true, level := true, raw := true, why := why, waiting := false, inrush := d.inrushSet, onSeq := seq,
           darkCnt := 0, litCnt := 0, lowCnt := 0, lowClr := 0, highCnt := 0, highClr := 0 }

/-- The switch goes off (R185). -/
def Dio.switchOff (d : Dio) (why : Nat) (wait : Bool) : Dio :=
  { d with on := false, level := false, raw := false, why := why, waiting := wait, probeFails := 0,
           curr := 0 }

/-- An output takes its level; a switch-on that would start a third window in its group waits (R173, R174). -/
def dioDrive (s : State) (c : Fin 16) : State :=
  let d := s.dio[c]
  if !d.output || !d.running then s
  else
    let w := dioWant s c
    if w.1 then
      if d.on then s.setDio c fun d => { d with why := w.2 }
      else if d.inrushSet ∧ 2 ≤ inrushRunning s (dioGroup c) ∧ d.inrush = false ∧ w.2 ≠ 7 then
        s.setDio c fun d => { d with why := 6, waiting := true }
      else
        let s1 := s.setDio c fun d => d.switchOn w.2 (s.dioBlk.seq + 1)
        { s1 with dioBlk := { s1.dioBlk with seq := s1.dioBlk.seq + 1 } }
    else if d.on ∨ d.waiting then s.setDio c fun d => d.switchOff w.2 false
    else s.setDio c fun d => { d with why := w.2 }

/-- Every output takes its level, in channel order (R174). -/
def dioDriveAll (s : State) : State := (List.finRange 16).foldl dioDrive s

/-- Every output off and released at once (R24, R67, R175). -/
def dioReleaseAll (s : State) : State :=
  { s with dio := s.dio.map fun d => if d.output then { d.switchOff 5 false with inrush := false } else d }

/-- The cell takes commands: neither stopped nor isolated, and ACQ is up; else the output holds its level, blink pattern
included (R44, R54, R190). -/
def dioTakes (s : State) (c : Fin 16) : Bool :=
  !(dioGrp s c).stop && !isIsolated (dioBlock c) (dioCell c) s && regionUp rACQ s

/-- A command for the latch: it is kept whatever holds the output (R173). -/
def dioCommand (c : Fin 16) (cmd : BitVec 2) (s : State) : State :=
  if dioTakes s c then dioDrive (s.setDio c fun d => { d with latch := cmd, hold := none, waitPost := false }) c else s

/-- PEV posts a source point's state at the end of a base scan (R171). -/
def dioPostPoint (c : Fin 16) (usable value : Bool) (s : State) : State :=
  if dioTakes s c then
    let s1 := s.setDio c fun d => ({ d with srcBad := !usable, hold := none, waitPost := false }).cond 16 (!usable)
    dioNotify c s (if usable then dioCommand c (if value then 1 else 0) s1 else dioDrive s1 c)
  else s

/-- The end of a base scan at a SRC 0 output: what a swap or a take-over has kept ends (R101, R191). -/
def dioPostSet (c : Fin 16) (s : State) : State :=
  let d := s.dio[c]
  if (d.hold.isSome || d.waitPost) && dioTakes s c then
    let swapped := d.waitPost || d.hold.any Prod.snd
    dioNotify c s (dioCommand c (if swapped then d.set else d.latch) s)
  else s

/-- The levels that the safe state and DORMANT hold under SAFE 2 are noted (R173). -/
def dioMark (s : State) : State := { s with dio := s.dio.map fun d => { d with before := d.on } }

/-! ### Inputs -/

/-- The channel's cell takes input transitions and evaluates conditions: it runs and is neither stopped, isolated nor
unused. -/
def dioActive (s : State) (c : Fin 16) : Bool := dioCode s c == 1 || dioCode s c == 2

/-- An accepted input transition: level, timestamp, BUTTON_STUCK's end, event with its marks (R166, R169, R193). -/
def dioTransition (c : Fin 16) (level : Bool) (t : Ts) (s : State) : State :=
  let d := s.dio[c]
  let press := decide (1 ≤ d.func) && decide (d.func ≤ 3) && level && !bit d.dstat 14 && !s.standby
  let s1 := s.setDio c fun d =>
    ({ d with level := level, raw := level, edge := t, changing := false }).cond 14 (bit d.dstat 14 && level)
  dioEvent c (putB 25 true ||| putB 26 level ||| putB 27 press) s1

/-- A transition is accepted: an input in service whose level changes. -/
def dioAccepts (s : State) (c : Fin 16) (level : Bool) : Bool :=
  dioCode s c == 1 && !s.dio[c].output && s.dio[c].level != level

/-- The output's current is judged: no hand-over freezes it, and 2 ms have passed since a take-over (R188, R189). -/
def dioJudged (s : State) (c : Fin 16) : Bool := s.dio[c].frozen.isNone && decide (s.dio[c].hush ≤ s.mono)

/-- Conditions judged against the group supply are evaluated: the group is NORMAL or WARN, ACQ is up, and no hand-over or
take-over suspends them (R175, R180, R188, R189). -/
def dioEvals (s : State) (c : Fin 16) : Bool :=
  dioActive s c && !(grpCond s (dioGroup c)).bad && regionUp rACQ s && dioJudged s c

/-- Lamp watch and the cell's other checks start their detection times anew (R175, R180). -/
def Dio.detectAnew (d : Dio) : Dio :=
  { d with darkCnt := 0, litCnt := 0, lowCnt := 0, lowClr := 0, highCnt := 0, highClr := 0, probeFails := 0 }

/-- A condition that the row reports is set where it applies. -/
def dioSet (c : Fin 16) (i : Nat) (applies : Bool) (f : Dio → Dio) (s : State) : State :=
  if applies then dioNotify c s (s.setDio c fun d => (f d).cond i true) else s

/-- An output whose trip ends switches on again (R177). -/
def dioRetry (c : Fin 16) (s : State) : State :=
  dioDrive (s.setDio c fun d => { d with tripped := false, retrying := true }) c

/-- SHORT_FSP and BACKFEED are raised: not on a standby, and in a pair only when the last committed epoch shows the
partner's output released and no revert runs (R187). -/
def dioMayBackfeed (s : State) (c : Fin 16) : Bool :=
  !s.standby && (!s.isPaired || (s.dio[c].epochFree && !s.lvn.reverting))

/-- Pin readings reported with a condition (DIO_CURR, DIO_STAT.LEVEL). -/
def Dio.pinRead (v : Int) (pin : Bool) (d : Dio) : Dio := { d with volt := v, level := pin, raw := pin }

/-- DIO_DIAG_CLEAR: the conditions that clear when they have not held, those of the cell while they are evaluated, or
when a retried output stayed on (R176, R180). -/
def dioClearable (s : State) (c : Fin 16) (i : Nat) : Bool :=
  let d := s.dio[c]
  if i = 0 ∨ i = 1 then d.on && !d.tripped
  else if i = 15 then d.on && !d.shed
  else if i = 17 then dioActive s c
  else (i == 3 || i == 4 || i == 5 || i == 6 || i == 13) && dioEvals s c

/-! ### Field supply groups (R178 to R182) -/

/-- The SUPPLY bits of a channel follow its group (R180). -/
def supplyBits (k : GrpCond) : BitVec 19 :=
  dioBit 7 (k == .warn) ||| dioBit 8 (k == .low || k == .overvolt) ||| dioBit 9 (k == .lost)

/-- Event code of a group condition (R182). -/
def grpEventCode (g : Fin 2) (k : GrpCond) : Nat :=
  0x60 + 0x10 * g.val + (match k with | .warn => 0 | .low => 1 | .overvolt => 2 | .lost => 3 | .normal => 4)

/-- The monitored quantity of a group (R79). -/
def grpQuantity (g : Fin 2) : Quantity := if g = 0 then .group1 else .group2

/-- A group takes a condition: SUPPLY bits, outputs and event follow; on its return from LOW, OVERVOLT or LOST detection
starts anew (R178 to R182). -/
def grpEnter (g : Fin 2) (k : GrpCond) (v : Half) (s : State) : State :=
  let was := s.dioBlk.groups[g].cond
  if s.grpUnused g.val ∨ was = k then s.setGrp g fun x => { x with volt := v }
  else
    let s1 := s.setGrp g fun x => { x with cond := k, volt := v }
    let s2 := (List.finRange 16).foldl (fun a c =>
      if dioGroup c = g then
        dioDrive (a.setDio c fun d =>
          (if was.bad && !k.bad then d.detectAnew else d).setConds ((d.dstat &&& 0x7FC7F) ||| supplyBits k)) c
      else a) s1
    dioNotifyAll s (supplyEvent (grpQuantity g) (grpEventCode g k) v s2)

/-- LOW and OVERVOLT are entered from NORMAL and WARN; the other conditions hold until they leave by their own threshold
(R178). -/
def grpFall (g : Fin 2) (k : GrpCond) (v : Half) (s : State) : State :=
  if s.dioBlk.groups[g].cond.bad then s.setGrp g fun x => { x with volt := v } else grpEnter g k v s

/-- A condition's leaving threshold is passed (R178). -/
def GrpCond.leaves (k : GrpCond) (v : Nat) : Bool :=
  match k with
  | .normal => false
  | .warn => decide (1850 ≤ v) && decide (v ≤ 3200)
  | .low | .lost => decide (1650 < v)
  | .overvolt => decide (v < 3200)

/-- The condition that a voltage gives to a group which leaves another: WARN while WARN's leaving thresholds are not
passed (R178). -/
def grpReturn (v : Half) : GrpCond :=
  let n := v.toNat
  if n < 1000 then .lost else if n < 1500 then .low else if 3600 < n then .overvolt
  else if n < 1850 ∨ 3200 < n then .warn else .normal

/-- DIO_GROUP_NORMAL: the condition in force leaves (R178, R179). -/
def grpLeave (g : Fin 2) (v : Half) (s : State) : State :=
  if s.dioBlk.groups[g].cond.leaves v.toNat then grpEnter g (grpReturn v) v s else s.setGrp g fun x => { x with volt := v }

/-- The output of the group that switched on most recently (R181). -/
def latestOn (s : State) (g : Fin 2) : Option (Fin 16) :=
  (List.finRange 16).foldl (fun best c =>
    if dioGroup c = g ∧ s.dio[c].output ∧ s.dio[c].on then
      match best with
      | none => some c
      | some b => if s.dio[b].onSeq < s.dio[c].onSeq then some c else best
    else best) none

/-- DIO_GROUP_SHED: the mean current exceeds 4.0 A and the latest output is shed (R181). -/
def grpShed (g : Fin 2) (mean : Half) (s : State) : State :=
  let s0 := s.setGrp g fun x => { x with curr := mean.toNat }
  if mean.toNat ≤ 400 then s0
  else match latestOn s0 g with
  | none => s0
  | some c =>
    let s1 := dioDrive (s0.setDio c fun d => ({ d with shed := true }).cond 15 true) c
    dioNotify c s (supplyRaise (0x65 + 0x10 * g.val) mean s1)

/-! ### Lamp watch (R183 to R186) -/

/-- `a · curr` lies below `b ·` the expected current of R184 at a scaled group voltage `v` against `vl` at learning:
the comparison is made exact for each LAMP_K. -/
def belowExpected (k iOn curr a b v vl : Nat) : Bool :=
  if k = 0 then decide (curr * a < b * iOn)
  else if k = 1 then decide ((curr * a) ^ 20 * vl ^ 11 < (b * iOn) ^ 20 * v ^ 11)
  else if k = 2 then decide (curr * a * vl < b * iOn * v)
  else decide (curr * a * v < b * iOn * vl)

/-- `a · curr` lies above `b ·` the expected current. -/
def aboveExpected (k iOn curr a b v vl : Nat) : Bool :=
  if k = 0 then decide (b * iOn < curr * a)
  else if k = 1 then decide ((b * iOn) ^ 20 * v ^ 11 < (curr * a) ^ 20 * vl ^ 11)
  else if k = 2 then decide (b * iOn * v < curr * a * vl)
  else decide (b * iOn * vl < curr * a * v)

/-- The group voltage that AGE's compensation leaves, in 0.1 µV units (R472). -/
def Dio.compVolt (d : Dio) (v : Nat) : Nat := ((v : Int) * 100000 - d.iOn * d.lampRise).toNat

/-- Below `b / a` of the expected current in force: the compensated one, held at its bound (R184, R472). -/
def Dio.below (d : Dio) (curr a b v : Nat) : Bool :=
  let vl := d.vLearn * 20 * 100000
  belowExpected d.lampK d.iOn curr a b (d.compVolt v) vl ||
  belowExpected d.lampK d.iOn curr (a * 100) (b * (100 - d.lampBound)) (v * 100000) vl

/-- Above `b / a` of the expected current in force. -/
def Dio.above (d : Dio) (curr a b v : Nat) : Bool :=
  let vl := d.vLearn * 20 * 100000
  aboveExpected d.lampK d.iOn curr a b (d.compVolt v) vl &&
  aboveExpected d.lampK d.iOn curr (a * 100) (b * (100 - d.lampBound)) (v * 100000) vl

/-- Below the dark limit: the larger of 5 mA and 20 % of the expected current, or 5 mA before learning (R184). -/
def Dio.belowDark (d : Dio) (curr v : Nat) : Bool :=
  decide (curr < 50) || (d.iOn != 0 && d.below curr 5 1 v)

/-- A run of consecutive averages that meet a condition. -/
def runOf (holds : Bool) (n limit : Nat) : Nat := if holds then min limit (n + 1) else 0

/-- Learning is in progress in a part: LAMP_DARK, OVERLOAD and SHORT_CIRCUIT are absent (R183). -/
def Dio.canLearn (d : Dio) : Bool := !bit d.dstat 10 && !bit d.dstat 0 && !bit d.dstat 1

/-- Learning starts by itself while LAMP_EN is 1 and a part has no learned value; a fault restarts a part from its first
sample; LEARNING shows a part in progress (R183). -/
def Dio.learnStep (d : Dio) : Dio :=
  let lo := d.lampEn && (d.learnOn || d.iOn == 0)
  let lp := d.lampEn && (d.learnProbe || d.iProbe == 0)
  let ok := d.canLearn
  let d1 := { d with learnOn := lo, learnProbe := lp,
                     onCnt := if lo && ok then d.onCnt else 0, onSum := if lo && ok then d.onSum else 0,
                     vSum := if lo && ok then d.vSum else 0,
                     prCnt := if lp && ok then d.prCnt else 0, prSum := if lp && ok then d.prSum else 0 }
  d1.cond 18 ((lo || lp) && ok)

/-- The output trips: off until a retry; a failed retry counts (R176, R177), and learning stops (R183). -/
def dioTrip (c : Fin 16) (i : Nat) (s : State) : State :=
  let s1 := s.setDio c fun d =>
    (({ d with tripped := true, fails := if d.retrying then d.fails + 1 else d.fails, retrying := false }).cond i true).learnStep
  dioNotify c s (dioDrive s1 c)

/-- The counters of R184 after one average. -/
def Dio.averageCounts (d : Dio) (curr v : Nat) (settled : Bool) : Dio :=
  let dark := d.belowDark curr v
  let learned := d.iOn != 0
  let low := d.below curr 100 (100 - d.lwLo) v
  let high := d.above curr 100 (100 + d.lwHi) v
  { d with darkCnt := runOf dark d.darkCnt 7, litCnt := runOf (!dark) d.litCnt 7,
           lowCnt := if settled && learned then runOf low d.lowCnt 50 else d.lowCnt,
           lowClr := if settled && learned then runOf (!low) d.lowClr 50 else d.lowClr,
           highCnt := if settled && learned && d.lwHi != 0 then runOf high d.highCnt 50 else 0,
           highClr := if settled && learned then runOf (!high) d.highClr 50 else d.highClr }

/-- A condition after its counters: set by one run, cleared by the other, else kept. -/
def latchRun (set' clr held : Bool) : Bool := if set' then true else if clr then false else held

/-- The lamp conditions after one average (R184). -/
def Dio.lampConds (d : Dio) : Dio :=
  ((d.cond 10 (latchRun (d.darkCnt == 7) (d.litCnt == 7) (bit d.dstat 10))).cond 11
    (latchRun (d.lowCnt == 50) (d.lowClr == 50) (bit d.dstat 11))).cond 12
    (latchRun (d.highCnt == 50) (d.highClr == 50) (bit d.dstat 12))

/-- One settled average counts for the on-state part under group NORMAL, up to 1600 of them (R183). -/
def Dio.learnSample (d : Dio) (curr v : Nat) (ok : Bool) : Dio :=
  if ok && d.learnOn && d.canLearn && decide (d.onCnt < 1600) then
    { d with onCnt := d.onCnt + 1, onSum := d.onSum + curr, vSum := d.vSum + v }
  else d

/-- Lamp watch runs on the channel: LAMP_EN, not on a standby, group NORMAL or WARN (R180, R187). -/
def lampWatch (s : State) (c : Fin 16) : Bool :=
  s.dio[c].output && s.dio[c].lampEn && dioEvals s c && !s.standby

/-- DIO_LAMP_AVERAGE (R184). -/
def dioAverage (s : State) (c : Fin 16) (curr v : Nat) (settled : Bool) : State :=
  if lampWatch s c ∧ s.dio[c].on then
    let normal := grpCond s (dioGroup c) == .normal
    dioNotify c s (s.setDio c fun d =>
      (((({ d with curr := curr, changing := false }).averageCounts curr v settled).lampConds).learnStep).learnSample curr v
        (settled && normal))
  else if s.dio[c].on then s.setDio c fun d => { d with curr := curr, changing := false }
  else s

/-- A probe passes: at least the larger of 1.0 mA and 25 % of I_PROBE (R185). -/
def Dio.probePasses (d : Dio) (curr : Nat) : Bool := decide (10 ≤ curr) && decide (d.iProbe ≤ 4 * curr)

/-- DIO_LAMP_PROBE (R185). -/
def dioProbe (s : State) (c : Fin 16) (curr : Nat) : State :=
  let d := s.dio[c]
  if lampWatch s c ∧ d.on = false ∧ d.waiting = false ∧ d.probeInt ≠ 0 then
    let normal := grpCond s (dioGroup c) == .normal
    dioNotify c s (s.setDio c fun d =>
      let pass := d.probePasses curr
      let fails := if pass then 0 else d.probeFails + 1
      let d1 := (({ d with probeFails := fails }).cond 10
        (latchRun (decide (2 ≤ fails)) pass (bit d.dstat 10))).learnStep
      if normal && d1.learnProbe && d1.canLearn && decide (d1.prCnt < 64) then
        { d1 with prCnt := d1.prCnt + 1, prSum := d1.prSum + curr } else d1)
  else s

/-- The on-state part completes: means of its 1600 averages, stored (R183). -/
def Dio.learnedOn (d : Dio) : Dio :=
  let i := (openDiv d.onSum 1600).toNat
  let v := (openDiv d.vSum (1600 * 20)).toNat
  { d with iOn := i, vLearn := v, learnOn := false, onCnt := 0, onSum := 0, vSum := 0,
           stored := (i, d.stored.2.1, v, d.rLearn), lowCnt := 0, lowClr := 0, highCnt := 0, highClr := 0 }

/-- The probe part completes: the mean of its 64 probes, stored (R183). -/
def Dio.learnedProbe (d : Dio) : Dio :=
  let i := (openDiv d.prSum 64).toNat
  { d with iProbe := i, learnProbe := false, prCnt := 0, prSum := 0,
           stored := (d.stored.1, i, d.stored.2.2.1, d.stored.2.2.2) }

/-- LEARNING shows the parts still in progress. -/
def Dio.learnFlag (d : Dio) : Dio := d.cond 18 ((d.learnOn || d.learnProbe) && d.canLearn)

/-- DIO_LEARN_PART_DONE (R183). -/
def dioLearnDone (s : State) (c : Fin 16) (probe : Bool) : State :=
  let d := s.dio[c]
  if probe then
    if d.learnProbe ∧ d.prCnt = 64 then
      dioEvent c (putB 28 true ||| putB 29 true) (s.setDio c fun d => d.learnedProbe.learnFlag) else s
  else
    if d.learnOn ∧ d.onCnt = 1600 then
      dioEvent c (putB 28 true) (s.setDio c fun d => d.learnedOn.learnFlag) else s

/-- Both parts learn again (R183). -/
def Dio.relearn (d : Dio) : Dio :=
  if d.lampEn then
    ({ d with learnOn := true, learnProbe := true, onCnt := 0, onSum := 0, vSum := 0, prCnt := 0,
              prSum := 0 }).learnFlag
  else d

/-- Both parts are erased, which starts learning again (R183). -/
def Dio.learnClear (d : Dio) : Dio :=
  ({ d with iOn := 0, iProbe := 0, vLearn := 0, rLearn := 0, stored := (0, 0, 0, 0) }).relearn

/-- Byte address of a DIO register. -/
def dioAddr (c : Fin 16) (off : Nat) : Nat := 0x028000 + 0x100 * c.val + off

/-- LEARN, LEARN_CLR and RETRY are ignored and logged on a standby unit (DIO_CMD). -/
def dioCmd (src : Source) (c : Fin 16) (f : State → State) (s : State) : State :=
  if s.standby then logWerr 8 src (dioAddr c 0x80) s else dioNotify c s (f s)

/-! ### Settings (R190 to R192) and registers -/

/-- Reserved bits of the configuration words are 0 (R504). -/
def dioReservedOk (w : Vector Word 4) : Bool :=
  fld w[0] 28 4 == 0 && !bit w[0] 15 && fld w[0] 6 2 == 0 && !bit w[0] 3 && fld w[1] 17 3 == 0 &&
  fld w[2] 17 7 == 0 && fld w[2] 9 7 == 0 && fld w[2] 0 8 == 0 && fld w[3] 10 2 == 0 && fld w[3] 1 7 == 0

/-- The function of an input meets R168; `groups`: the image has a GROUPS section. -/
def dioFuncOk (groups output : Bool) (func arg : Nat) : Bool :=
  decide (func ≤ 4) && (func != 0 || arg == 0) && (!(func == 2 || func == 3) || decide (arg ≤ 3)) &&
  (func != 1 || groups) && (!output || func == 0)

/-- The settings of one channel in use are ones that a recipe can hold (R166, R168, R171, R173, R185, R192, R504);
`kind k` says that slot `k` is in use. -/
def dioCfgOk (groups : Bool) (kind : Nat → Bool) (w : Vector Word 4) : Bool :=
  let out := fld w[0] 0 2 == 1
  let src := fld w[0] 4 2
  let slot := fld w[0] 8 7
  let ovl := fld w[1] 24 8
  let deb := fld w[1] 0 16
  let lamp := bit w[3] 0
  let probe := fld w[3] 12 4
  let lo := fld w[3] 16 8
  dioReservedOk w && decide (fld w[0] 0 2 ≤ 1) && decide (src ≤ 2) && (out || src == 0) &&
  (src != 1 || (decide (slot ≤ 79) && !(decide (20 ≤ slot) && decide (slot ≤ 35)) && kind slot)) &&
  decide (fld w[0] 16 2 ≤ 2) && decide (fld w[0] 18 2 ≤ 2) && dioFuncOk groups out (fld w[0] 20 4) (fld w[0] 24 4) &&
  (ovl == 0 || (decide (10 ≤ ovl) && decide (ovl ≤ 65))) && (if out then deb == 0 else decide (10 ≤ deb)) &&
  !(out && bit w[2] 8) && !(!out && lamp) && decide (probe ≠ 1) && !(probe != 0 && bit w[2] 16) &&
  decide (lo ≤ 90) && !(lamp && lo == 0)

/-- The four words of a channel in a bank's ACQ section (R192). -/
def dioBankCfg (bank : Memory) (c : Nat) : Vector Word 4 :=
  Vector.ofFn fun i => BitVec.ofNat 32 (bankNat bank secACQ (640 + 32 * c + 4 * i.val) 4)

/-- The channel's initial command in a bank (R192). -/
def dioBankSet (bank : Memory) (c : Nat) : Nat := bankNat bank secACQ (640 + 32 * c + 16) 4

/-- The number of channels in use whose FUNC and FUNC_ARG are these. -/
def funcCount (cfgs : List (Vector Word 4)) (func arg : Nat) : Nat :=
  (cfgs.filter fun w => fld w[0] 20 4 == func && fld w[0] 24 4 == arg).length

/-- ZERO and SPAN come in pairs, one of each for an AO channel (R168). -/
def buttonsOk (cfgs : List (Vector Word 4)) : Bool :=
  (List.range 4).all fun a =>
    decide (funcCount cfgs 2 a ≤ 1) && decide (funcCount cfgs 2 a = funcCount cfgs 3 a)

/-- The conditions that the settings let arise (R176). -/
def Dio.condMask (d : Dio) : BitVec 19 :=
  let f := fun (i : Nat) (b : Bool) => dioBit i b
  let o := d.output
  f 0 o ||| f 1 o ||| f 2 o ||| f 3 (o && d.ucTh != 0 && !d.lampEn) ||| f 4 (o && d.offTest && !d.lampEn) ||| f 5 o |||
  f 6 o ||| 0x380 ||| f 10 d.lampEn ||| f 11 d.lampEn ||| f 12 (d.lampEn && d.lwHi != 0) ||| f 13 (!o && d.lineMon) |||
  f 14 (!o && decide (1 ≤ d.func) && decide (d.func ≤ 3)) ||| f 15 o ||| f 16 (o && d.src == 1) ||| f 17 o |||
  f 18 d.lampEn

/-- What only an output has is gone from an input, and what the settings do not let arise from any channel (R176,
R191). -/
def Dio.fit (d : Dio) : Dio :=
  let d1 := d.setConds (d.dstat &&& d.condMask)
  let d2 := { d1 with srcBad := d.srcBad && d.src == 1 }
  if d.output then d2
  else { d2 with tripped := false, retrying := false, fails := 0, shed := false, waiting := false, inrush := false,
                 hold := none, waitPost := false, latch := 0, iOn := 0, iProbe := 0, vLearn := 0, rLearn := 0,
                 stored := (0, 0, 0, 0), learnOn := false, learnProbe := false }

/-- The channel takes its settings: off when its group is unused or its direction changes (R93, R190, R191). -/
def dioApply (s : State) (c : Fin 16) : State :=
  s.setDio c fun d =>
    let d1 := { d with use := d.cfg, running := !dioUnused s c }
    if dioUnused s c then { (d1.switchOff 5 false).fit with dstat := 0 }
    else if d1.output == d.output then d1.fit.learnStep
    else if d.output then (d1.switchOff 5 false).fit
    else ({ d1.switchOff 0 false with latch := 0 }).fit.learnStep

/-- The channel takes its settings and its learned values at a start (R183, R192). -/
def dioLoad (s : State) (c : Fin 16) : State :=
  let set := BitVec.ofNat 2 (dioBankSet s.activeBank c.val)
  s.setDio c fun d =>
    let w := dioBankCfg s.activeBank c.val
    ({ d with cfg := w, use := w, set := set, latch := set, running := !dioUnused s c, iOn := d.stored.1,
              iProbe := d.stored.2.1, vLearn := d.stored.2.2.1, rLearn := d.stored.2.2.2 }).learnStep

/-- The pattern that an output drives by the commands of its source, whatever else holds its level (R171, R172). -/
def Dio.pattern (d : Dio) : BitVec 2 :=
  match d.hold with
  | some k => k.1
  | none => if d.src == 1 && d.srcBad && d.srcAct != 0 then (if d.srcAct = 2 then 1 else 0) else d.latch

/-- The channel's settings at a swap: an output keeps its level until scan N + 1 writes it, one that was an input is off
until then; a stopped channel takes its settings when its block is released. Where they changed, the quality is UNCERTAIN
until the cell samples under the new ones (R99, R101, R190, R191). -/
def dioSwap (s : State) (c : Fin 16) : State :=
  let w := dioBankCfg s.activeBank c.val
  let s1 := s.setDio c fun d =>
    let k := if d.output then d.pattern else 0
    { d with cfg := w, set := BitVec.ofNat 2 (dioBankSet s.activeBank c.val), hold := some (k, true),
             changing := d.changing || w != d.cfg }
  if (dioGrp s c).stop then s1 else dioApply s1 c

/-- A channel takes the settings of its registers and a SRC 0 output its command (R190). -/
def dioRetake (s : State) (c : Fin 16) : State :=
  let s1 := dioApply s c
  dioDrive (s1.setDio c fun d => { d with latch := if d.output && d.src == 0 && d.hold.isNone then d.set else d.latch }) c

/-- A block leaves its stop: each channel takes its settings (R190). -/
def dioRelease (s : State) (g : Fin 2) : State :=
  (List.finRange 16).foldl (fun a c => if dioGroup c = g then dioRetake a c else a) s

/-- The channel after a reset of ACQ: its registers hold the active bank's values again, where these differ from the
settings in force the cell takes them, and its checks start their detection times anew (R38, R53, R54, R175). -/
def dioReady (s : State) (c : Fin 16) : State :=
  let s1 := s.setDio c fun d => { d.detectAnew with cfg := dioBankCfg s.activeBank c.val }
  if s1.dio[c].cfg = s1.dio[c].use then s1 else dioNotify c s (dioDrive (dioApply s1 c) c)

/-- DIO_BLK_CTL is written (R190). -/
def dioBlkWrite (stop : BitVec 2) (s : State) : State :=
  let s1 := (s.setGrp 0 fun g => { g with stop := bit stop 0 }).setGrp 1 fun g => { g with stop := bit stop 1 }
  let s2 := if s.dioBlk.groups[0].stop && !bit stop 0 then dioRelease s1 0 else s1
  let s3 := if s.dioBlk.groups[1].stop && !bit stop 1 then dioRelease s2 1 else s2
  dioNotifyAll s s3

/-- DIO_SET is written: the command of a SRC 0 output (R171). -/
def dioSetWrite (c : Fin 16) (cmd : BitVec 2) (s : State) : State :=
  let s1 := s.setDio c fun d => { d with set := cmd }
  if s1.dio[c].output ∧ s1.dio[c].src = 0 then dioNotify c s (dioCommand c cmd s1) else s1

/-- A read of a channel's register, without effect (ch. 7). -/
def dioRead (s : State) (c : Fin 16) (off : Nat) : Option Word :=
  let d := s.dio[c]
  if h : off < 16 ∧ off % 4 = 0 then some (d.cfg[off / 4]'(by omega))
  else match off with
  | 0x40 => some (put 0 2 d.set.toNat)
  | 0x44 => some (put 12 4 d.why ||| put 8 2 d.latch.toNat ||| putB 7 d.level ||| put 4 3 (dioQual s c) |||
      put 0 4 (dioCode s c))
  | 0x48 => some (put 0 19 d.dstat.toNat)
  | 0x4C => some (put 0 19 d.diag.toNat)
  | 0x50 => some (putI 16 16 d.volt ||| putI 0 16 d.curr)
  | 0x54 => some (put 16 16 d.iOn ||| put 8 8 d.iProbe ||| put 0 8 d.vLearn)
  | 0x58 => some (loWord d.edge)
  | 0x5C => some (hiWord d.edge)
  | 0x80 => some 0
  | _ => none

/-- A read of a common register, by its offset from the block base. -/
def dioCommonRead (s : State) (off : Nat) : Option Word :=
  let grp := fun (g : Fin 2) =>
    let x := s.dioBlk.groups[g]
    put 16 16 x.volt.toNat ||| put 4 12 x.curr ||| put 0 4 (grpCond s g).code
  match off with
  | 0x1000 => some (grp 0)
  | 0x1004 => some (grp 1)
  | 0x1010 => some (putB 1 s.dioBlk.groups[1].stop ||| putB 0 s.dioBlk.groups[0].stop)
  | 0x1014 => some 0
  | 0x1018 => some ((List.finRange 16).foldl
      (fun w k => w ||| putB k.val (isIsolated (dioBlock k) (dioCell k) s)) 0)
  | 0x1020 => some ((List.finRange 16).foldl
      (fun w k => w ||| putB k.val s.dio[k].level ||| putB (16 + k.val) s.dio[k].raw) 0)
  | _ => none

/-! ### Meanings -/

/-- DIO_LINE_BREAK (R167). -/
def execDioLineBreak (c : Fin 16) (s : State) : Host.Outcome State Fault Refusal :=
  .next (dioSet c 13 (dioEvals s c && !s.dio[c].output && s.dio[c].lineMon) id s)

/-- DIO_BUTTON_STUCK (R169). -/
def execDioButtonStuck (c : Fin 16) (s : State) : Host.Outcome State Fault Refusal :=
  .next (dioSet c 14 (dioActive s c && !s.dio[c].output && s.dio[c].level && decide (1 ≤ s.dio[c].func) &&
    decide (s.dio[c].func ≤ 3)) id s)

/-- DIO_BLINK_PHASE (R172). -/
def execDioBlinkPhase (s : State) : Host.Outcome State Fault Refusal := .next (dioDriveAll s)

/-- DIO_INRUSH_END (R174): the window ends, and waiting switch-ons of the group are granted in channel order. -/
def execDioInrushEnd (c : Fin 16) (s : State) : Host.Outcome State Fault Refusal :=
  .next (dioDriveAll (s.setDio c fun d => { d with inrush := false }))

/-- DIO_KEEPALIVE (R175). -/
def execDioKeepalive (s : State) : Host.Outcome State Fault Refusal :=
  .next (dioNotifyAll s (dioDriveAll
    ((s.setGrp 0 fun g => { g with keepLost := false }).setGrp 1 fun g => { g with keepLost := false })))

/-- DIO_KEEPALIVE_LOST (R175): the group's outputs are off. -/
def execDioKeepaliveLost (g : Fin 2) (s : State) : Host.Outcome State Fault Refusal :=
  .next (dioNotifyAll s (dioDriveAll (s.setGrp g fun x => { x with keepLost := true })))

/-- DIO_OVERLOAD (R176): above OVL_TH outside the inrush window. -/
def execDioOverload (c : Fin 16) (curr : Nat) (s : State) : Host.Outcome State Fault Refusal :=
  .next (if s.dio[c].output && s.dio[c].on && !s.dio[c].inrush && dioJudged s c && decide (s.dio[c].ovlTh * 10 < curr)
    then dioTrip c 0 s else s)

/-- DIO_SHORT_CIRCUIT (R176). -/
def execDioShortCircuit (c : Fin 16) (s : State) : Host.Outcome State Fault Refusal :=
  .next (if s.dio[c].output && s.dio[c].on && dioJudged s c then dioTrip c 1 s else s)

/-- DIO_OVERTEMP (R176). -/
def execDioOvertemp (c : Fin 16) (s : State) : Host.Outcome State Fault Refusal :=
  .next (if s.dio[c].output && s.dio[c].running then
    dioNotify c s (dioDrive (s.setDio c fun d => d.cond 2 true) c) else s)

/-- DIO_OVERTEMP_END (R176). -/
def execDioOvertempEnd (c : Fin 16) (s : State) : Host.Outcome State Fault Refusal :=
  .next (if bit s.dio[c].dstat 2 then dioNotify c s (dioDrive (s.setDio c fun d => d.cond 2 false) c) else s)

/-- DIO_OPEN_ON (R176). -/
def execDioOpenOn (c : Fin 16) (s : State) : Host.Outcome State Fault Refusal :=
  .next (dioSet c 3 (dioEvals s c && s.dio[c].output && s.dio[c].on && s.dio[c].ucTh != 0 && !s.dio[c].lampEn) id s)

/-- DIO_OPEN_OFF (R176, R187). -/
def execDioOpenOff (c : Fin 16) (v : Int) (pin : Bool) (s : State) : Host.Outcome State Fault Refusal :=
  .next (dioSet c 4 (dioEvals s c && s.dio[c].output && !s.dio[c].on && s.dio[c].offTest && !s.dio[c].lampEn &&
    !s.standby) (Dio.pinRead v pin) s)

/-- DIO_SHORT_FSP (R176, R187). -/
def execDioShortFsp (c : Fin 16) (v : Int) (pin : Bool) (s : State) : Host.Outcome State Fault Refusal :=
  .next (dioSet c 5 (dioEvals s c && s.dio[c].output && !s.dio[c].on && dioMayBackfeed s c) (Dio.pinRead v pin) s)

/-- DIO_BACKFEED (R176, R187). -/
def execDioBackfeed (c : Fin 16) (v : Int) (pin : Bool) (s : State) : Host.Outcome State Fault Refusal :=
  .next (dioSet c 6 (dioEvals s c && s.dio[c].output && dioMayBackfeed s c) (Dio.pinRead v pin) s)

/-- DIO_PARTNER_DRIVE (R176, R187): a released output of a paired standby. -/
def execDioPartnerDrive (c : Fin 16) (v : Int) (pin : Bool) (s : State) : Host.Outcome State Fault Refusal :=
  .next (dioSet c 17 (dioActive s c && s.dio[c].output && !s.dio[c].on && s.isPaired && s.standby)
    (Dio.pinRead v pin) s)

/-- DIO_DIAG_CLEAR (R176). -/
def execDioDiagClear (c : Fin 16) (bit' : Fin 19) (s : State) : Host.Outcome State Fault Refusal :=
  .next (if dioClearable s c bit'.val then
    dioNotify c s (s.setDio c fun d =>
      let d1 := (d.cond bit'.val false).learnStep
      if d1.output && (bit'.val == 5 || bit'.val == 6 || bit'.val == 17) then { d1 with level := d1.on, raw := d1.on }
      else d1)
    else s)

/-- DIO_OVL_RETRY (R177): after OVL_RETRY seconds, unless eight retries have failed, when the latch is on. -/
def execDioOvlRetry (c : Fin 16) (s : State) : Host.Outcome State Fault Refusal :=
  .next (if s.dio[c].tripped && s.dio[c].ovlRetry != 0 && decide (s.dio[c].fails < 8) && s.dio[c].latch != 0
    then dioNotify c s (dioRetry c s) else s)

/-- DIO_RETRY_CMD (R177). -/
def execDioRetryCmd (src : Source) (c : Fin 16) (s : State) : Host.Outcome State Fault Refusal :=
  .next (dioCmd src c (fun s =>
    if s.dio[c].tripped then dioRetry c (s.setDio c fun d => { d with fails := 0 }) else s) s)

/-- DIO_RETRY_COUNT_RESET (R177). -/
def execDioRetryCountReset (c : Fin 16) (s : State) : Host.Outcome State Fault Refusal :=
  .next (if s.dio[c].retrying && s.dio[c].on then s.setDio c fun d => { d with fails := 0, retrying := false } else s)

/-- DIO_GROUP_WARN (R178). -/
def execDioGroupWarn (g : Fin 2) (v : Half) (s : State) : Host.Outcome State Fault Refusal :=
  .next (if s.dioBlk.groups[g].cond = .normal then grpEnter g .warn v s else s)

/-- DIO_GROUP_LOW (R178). -/
def execDioGroupLow (g : Fin 2) (v : Half) (s : State) : Host.Outcome State Fault Refusal := .next (grpFall g .low v s)

/-- DIO_GROUP_OVERVOLT (R178). -/
def execDioGroupOvervolt (g : Fin 2) (v : Half) (s : State) : Host.Outcome State Fault Refusal :=
  .next (grpFall g .overvolt v s)

/-- DIO_GROUP_LOST (R178). -/
def execDioGroupLost (g : Fin 2) (v : Half) (s : State) : Host.Outcome State Fault Refusal :=
  .next (grpEnter g .lost v s)

/-- DIO_GROUP_NORMAL (R179). -/
def execDioGroupNormal (g : Fin 2) (v : Half) (s : State) : Host.Outcome State Fault Refusal :=
  .next (grpLeave g v s)

/-- DIO_GROUP_SHED (R181). -/
def execDioGroupShed (g : Fin 2) (mean : Half) (s : State) : Host.Outcome State Fault Refusal :=
  .next (grpShed g mean s)

/-- DIO_SHED_RETRY (R181). -/
def execDioShedRetry (c : Fin 16) (s : State) : Host.Outcome State Fault Refusal :=
  .next (if s.dio[c].shed && s.dio[c].latch != 0 then
    dioNotify c s (dioDrive (s.setDio c fun d => { d with shed := false }) c) else s)

/-- DIO_LAMP_AVERAGE (R184). -/
def execDioLampAverage (c : Fin 16) (curr v : Nat) (settled : Bool) (s : State) : Host.Outcome State Fault Refusal :=
  .next (dioAverage s c curr v settled)

/-- DIO_LAMP_PROBE (R185). -/
def execDioLampProbe (c : Fin 16) (curr : Nat) (s : State) : Host.Outcome State Fault Refusal := .next (dioProbe s c curr)

/-- DIO_LEARN (R183). -/
def execDioLearn (src : Source) (c : Fin 16) (s : State) : Host.Outcome State Fault Refusal :=
  .next (dioCmd src c (fun s => s.setDio c Dio.relearn) s)

/-- DIO_BLOCK_STOP (R190). -/
def execDioBlockStop (stop : BitVec 2) (s : State) : Host.Outcome State Fault Refusal := .next (dioBlkWrite stop s)

end Sys2Proof.Machine
end

