-- ==== Sys2Proof/Machine/Trim.lean ====
section
/-! DEFINITION. Trim: trim of a loop output by its ZERO and SPAN buttons (R153, R168, R169). -/
namespace Sys2Proof.Machine

open Sys2Proof

/-- Input `k` is the ZERO, or with `span` the SPAN, button of the channel (R168). -/
def isTrimButton (s : State) (c : Fin 4) (span : Bool) (k : Fin 16) : Bool :=
  let d := s.dio[k]
  !d.output && !s.grpUnused (dioGroup k).val && d.func == (if span then 3 else 2) && d.funcArg == c.val

/-- The channel has the button, not stuck (R168, R169). -/
def trimButton (s : State) (c : Fin 4) (span : Bool) : Bool :=
  (List.finRange 16).any fun k => isTrimButton s c span k && !bit s.dio[k].dstat 14

/-- The channel's button is pressed now, on the debounced level. -/
def trimPressed (s : State) (c : Fin 4) (span : Bool) : Bool :=
  (List.finRange 16).any fun k => isTrimButton s c span k && !bit s.dio[k].dstat 14 && s.dio[k].level

/-- AO_TRIM_ENTER: the button has been held for 3 s; trim mode is entered, or refused outside RUN and in the safe state. A
standby unit's buttons act only on their points (R153, R169, log 10). -/
def aoTrimEnter (c : Fin 4) (span : Bool) (s : State) : State :=
  if !trimPressed s c span ∨ s.ao[c].trimMode.isSome then s
  else if s.standby ∨ aoCode s c ≠ 3 ∨ s.sys.mode = .safe then aoEvent c 26 s
  else
    aoDrive c (aoEvent c 26 (s.setAo c fun a =>
      ({ a with trimMode := some (span, a.trimZ, a.trimS) }).setConds (a.dstat ||| aoBit 12 true)))

/-- A correction moved by `d` codes at the trim point, unless it would pass its limit (R153). -/
def Ao.trimMove (a : Ao) (span : Bool) (d : Int) : Ao :=
  if span then (if trimOk (a.trimS + d) then { a with trimS := a.trimS + d } else a)
  else if trimOk (a.trimZ + d) then { a with trimZ := a.trimZ + d } else a

/-- AO_TRIM_ADJUST: a press of ZERO shorter than 1 s lowers the correction at the trim point by 5 codes, one of SPAN raises
it, and the driven current moves at once (R153). -/
def aoTrimAdjust (c : Fin 4) (up : Bool) (s : State) : State :=
  match s.ao[c].trimMode with
  | none => s
  | some (span, _, _) =>
    if trimButton s c up then
      let s1 := s.setAo c fun a => a.trimMove span (if up then 5 else -5)
      if aoCode s1 c = 5 then s1.setAo c fun _ => aoHold s1 c else if aoCode s1 c = 8 then aoDrive c s1 else s1
    else s

/-- AO_TRIM_STORE: either button has been held for 3 s; the trim is stored and trim mode ends (R153, R155). -/
def aoTrimStore (c : Fin 4) (s : State) : State :=
  if s.ao[c].trimMode.isSome ∧ (trimPressed s c false ∨ trimPressed s c true) then
    aoEvent c 26 (s.setAo c fun a => (a.setTrim a.trimZ a.trimS).trimEnd)
  else s

/-- AO_TRIM_DISCARD: both buttons have been held for 3 s (R153). -/
def aoTrimDiscard (c : Fin 4) (s : State) : State :=
  if trimPressed s c false ∧ trimPressed s c true then aoTrimRestore c s else s

/-- AO_TRIM_TIMEOUT: nothing has been pressed for 60 s (R153). -/
def aoTrimTimeout (c : Fin 4) (s : State) : State :=
  if trimPressed s c false ∨ trimPressed s c true then s else aoTrimRestore c s

/-- AO_TRIM_ENTER (R153). -/
def execAoTrimEnter (c : Fin 4) (span : Bool) (s : State) : Host.Outcome State Fault Refusal :=
  .next (aoTrimEnter c span s)

/-- AO_TRIM_ADJUST (R153). -/
def execAoTrimAdjust (c : Fin 4) (up : Bool) (s : State) : Host.Outcome State Fault Refusal :=
  .next (aoTrimAdjust c up s)

/-- AO_TRIM_DISCARD (R153). -/
def execAoTrimDiscard (c : Fin 4) (s : State) : Host.Outcome State Fault Refusal := .next (aoTrimDiscard c s)

/-- AO_TRIM_TIMEOUT (R153). -/
def execAoTrimTimeout (c : Fin 4) (s : State) : Host.Outcome State Fault Refusal := .next (aoTrimTimeout c s)

end Sys2Proof.Machine
end

