-- ==== Sys2Proof/Machine/Thermo.lean ====
section
/-! DEFINITION. Thermo: the characteristics of resistance thermometers and thermocouples (R112). The coefficients of DIN
43760 and IEC 60584-1, which R112 names, are PRESUMED from those standards (log 5). -/
namespace Sys2Proof.Machine

open Sys2Proof

/-- The greatest of the numbers from `lo` to `lo + 2^n - 1` that pass, of a test that the lower ones pass; `lo` when
none does. -/
def bisect (pass : Int → Bool) : Nat → Int → Int
  | 0, lo => lo
  | n + 1, lo => if pass (lo + 2 ^ n) then bisect pass n (lo + 2 ^ n) else bisect pass n lo

/-- A quotient rounded to the nearest integer, halves upward. -/
def nearest (n : Int) (d : Nat) : Int := (2 * n + d).fdiv (2 * d)

/-! ### Resistance thermometers -/

/-- Platinum: 10^27 × W(t), with `t` in 0.001 °C, by the Callendar–Van Dusen equation (R112). -/
def cvd (t : Int) : Int :=
  10 ^ 27 + 39083 * 10 ^ 17 * t - 5775 * 10 ^ 11 * (t * t) -
    (if t < 0 then 4183 * (t - 100000) * (t * t * t) else 0)

/-- Nickel: 10^35 × W(t), with `t` in 0.001 °C: 1 + 5.485e-3 t + 6.65e-6 t² + 2.805e-11 t⁴ - 2e-17 t⁶ (DIN 43760, α =
6.180e-3 K⁻¹; R112; PRESUMED, log 5). -/
def nickelW (t : Int) : Int :=
  10 ^ 35 + 5485 * 10 ^ 26 * t + 665 * 10 ^ 21 * t ^ 2 + 2805 * 10 ^ 9 * t ^ 4 - 2 * t ^ 6

/-- Platinum temperature in 0.001 °C of a resistance in µΩ: the inverse of R112's equation, within its error of the
method. -/
def ptTemp (r0 : Nat) (r : Int) : Int :=
  bisect (fun t => decide (cvd t * r0 * 1000000 ≤ r * 10 ^ 27)) 21 (-400000) + (if Config.ptUp r then 1 else 0)

/-- Resistance in µΩ of a platinum sensor at 850 °C, the top of its range. -/
def ptTop (r0 : Nat) : Int := cvd 850000 * r0 * 1000000 / 10 ^ 27

/-- Nickel temperature in 0.001 °C of a resistance in µΩ: the inverse of the characteristic, within the error of the
method, 0.002 °C (R112). -/
def nickelTemp (r0 : Nat) (r : Int) : Int :=
  bisect (fun t => decide (nickelW t * r0 * 1000000 ≤ r * 10 ^ 35)) 19 (-80000) + clampI (-2) 2 (Config.nickelErr r)

/-- Resistance in µΩ of a nickel sensor at 180 °C, the top of its range. -/
def nickelTop (r0 : Nat) : Int := nickelW 180000 * r0 * 1000000 / 10 ^ 35

/-! ### Thermocouples -/

/-- A part of a reference function: its first and last temperature in 0.001 °C, and the coefficients of the powers of the
temperature in °C, each a mantissa and the negated power of ten, which give the EMF in mV. -/
abbrev EmfPart := (Int × Int) × List (Int × Nat)

/-- Reference function of type K (IEC 60584-1). -/
def emfK : List EmfPart := [
  ((-270000, 0), [
    (0, 0), (39450128025, 12), (23622373598, 15), (-32858906784, 17), (-49904828777, 19), (-67509059173, 21),
     (-57410327428, 23), (-31088872894, 25), (-10451609365, 27), (-19889266878, 30), (-16322697486, 33)]),
  ((0, 1372000), [
    (-17600413686, 12), (38921204975, 12), (18558770032, 15), (-99457592874, 18), (31840945719, 20),
     (-56072844889, 23), (56075059059, 26), (-32020720003, 29), (97151147152, 33), (-12104721275, 36)])]

/-- Reference function of type J (IEC 60584-1). -/
def emfJ : List EmfPart := [
  ((-210000, 760000), [
    (0, 0), (50381187815, 12), (3047583693, 14), (-8568106572, 17), (13228195295, 20), (-17052958337, 23),
     (20948090697, 26), (-12538395336, 29), (15631725697, 33)]),
  ((760000, 1200000), [
    (29645625681, 8), (-14976127786, 10), (31787103924, 13), (-31847686701, 16), (15720819004, 19),
     (-30691369056, 23)])]

/-- Reference function of type T (IEC 60584-1). -/
def emfT : List EmfPart := [
  ((-270000, 0), [
    (0, 0), (38748106364, 12), (44194434347, 15), (11844323105, 17), (20032973554, 18), (90138019559, 20),
     (22651156593, 21), (36071154205, 23), (38493939883, 25), (28213521925, 27), (14251594779, 29),
     (48768662286, 32), (1079553927, 33), (13945027062, 37), (79795153927, 41)]),
  ((0, 400000), [
    (0, 0), (38748106364, 12), (3329222788, 14), (20618243404, 17), (-21882256846, 19), (10996880928, 21),
     (-30815758772, 24), (4547913529, 26), (-27512901673, 30)])]

/-- Reference function of type E (IEC 60584-1). -/
def emfE : List EmfPart := [
  ((-270000, 0), [
    (0, 0), (58665508708, 12), (45410977124, 15), (-77998048686, 17), (-25800160843, 18), (-59452583057, 20),
     (-93214058667, 22), (-10287605534, 23), (-80370123621, 26), (-43979497391, 28), (-16414776355, 30),
     (-39673619516, 33), (-55827328721, 36), (-34657842013, 39)]),
  ((0, 1000000), [
    (0, 0), (5866550871, 11), (45032275582, 15), (28908407212, 18), (-33056896652, 20), (6502440327, 22),
     (-19197495504, 26), (-12536600497, 28), (21489217569, 31), (-14388041782, 34), (35960899481, 38)])]

/-- Reference function of type N (IEC 60584-1). -/
def emfN : List EmfPart := [
  ((-270000, 0), [
    (0, 0), (26159105962, 12), (10957484228, 15), (-93841111554, 18), (-46412039759, 21), (-26303357716, 22),
     (-22653438003, 24), (-76089300791, 27), (-93419667835, 30)]),
  ((0, 1300000), [
    (0, 0), (25929394601, 12), (1571014188, 14), (43825627237, 18), (-25261169794, 20), (64311819339, 23),
     (-10063471519, 25), (99745338992, 29), (-60863245607, 32), (20849229339, 35), (-30682196151, 39)])]

/-- Reference function of type R (IEC 60584-1). -/
def emfR : List EmfPart := [
  ((-50000, 1064180), [
    (0, 0), (528961729765, 14), (139166589782, 16), (-238855693017, 19), (356916001063, 22), (-462347666298, 25),
     (500777441034, 28), (-373105886191, 31), (157716482367, 34), (-281038625251, 38)]),
  ((1064180, 1664500), [
    (295157925316, 11), (-252061251332, 14), (159564501865, 16), (-764085947576, 20), (205305291024, 23),
     (-293359668173, 27)]),
  ((1664500, 1768100), [
    (152232118209, 9), (-268819888545, 12), (171280280471, 15), (-345895706453, 19), (-934633971046, 26)])]

/-- Reference function of type S (IEC 60584-1). -/
def emfS : List EmfPart := [
  ((-50000, 1064180), [
    (0, 0), (540313308631, 14), (12593428974, 15), (-232477968689, 19), (322028823036, 22), (-331465196389, 25),
     (255744251786, 28), (-125068871393, 31), (271443176145, 35)]),
  ((1064180, 1664500), [
    (132900444085, 11), (334509311344, 14), (654805192818, 17), (-164856259209, 20), (129989605174, 25)]),
  ((1664500, 1768100), [
    (146628232636, 9), (-258430516752, 12), (163693574641, 15), (-330439046987, 19), (-943223690612, 26)])]

/-- Reference function of type B (IEC 60584-1). -/
def emfB : List EmfPart := [
  ((0, 630615), [
    (0, 0), (-24650818346, 14), (59040421171, 16), (-13257931636, 19), (15668291901, 22), (-1694452924, 24),
     (62990347094, 29)]),
  ((630615, 1820000), [
    (-38938168621, 10), (2857174747, 11), (-84885104785, 15), (15785280164, 17), (-16835344864, 20),
     (11109794013, 23), (-44515431033, 27), (98975640821, 31), (-93791330289, 35)])]

/-- The reference function of a TYPE from 6 to 13 (R108). -/
def emfParts : Nat → List EmfPart
  | 6 => emfK
  | 7 => emfJ
  | 8 => emfT
  | 9 => emfE
  | 10 => emfN
  | 11 => emfR
  | 12 => emfS
  | _ => emfB

/-- 10^100 × a polynomial with `t` in 0.001 °C, from the power `i` on. -/
def emfPoly (t : Int) : Nat → List (Int × Nat) → Int
  | _, [] => 0
  | i, (m, e) :: cs => m * 10 ^ (100 - e - 3 * i) * t ^ i + emfPoly t (i + 1) cs

/-- 10^30 × exp(-x / 10^30): the Taylor series for a 64th of x, raised to the 64th power. -/
def expNeg (x : Nat) : Int :=
  let one : Int := 10 ^ 30
  let y : Int := (x / 64 : Nat)
  let e := ((List.range 24).foldl (fun (a : Int × Int) (k : Nat) => (a.1 + a.2, a.2 * -y / (one * (k + 1)))) (0, one)).1
  (List.range 6).foldl (fun a _ => a * a / one) e

/-- The exponential part of type K's function at and above 0 °C, in 10^-94 nV: 0.1185976 mV × exp(-1.183432e-4 × (t -
126.9686)²). -/
def emfKExp (t : Int) : Int :=
  let u := (10 * t - 1269686).natAbs
  1185976 * expNeg (1183432 * u * u * 10 ^ 12) * 10 ^ 63

/-- EMF in nV of a thermocouple TYPE at a temperature in 0.001 °C, its reference junction at 0 °C, by the IEC 60584-1
reference function; outside the function's range of temperatures a free value (R112, log 1, log 5). -/
def tcEmf (ty : Nat) (t : Int) : Int :=
  match (emfParts ty).find? fun p => decide (p.1.1 ≤ t) && decide (t ≤ p.1.2) with
  | some p => nearest (emfPoly t 0 p.2 + (if ty = 6 ∧ 0 ≤ t then emfKExp t else 0)) (10 ^ 94)
  | none => Config.tcOutside ty t

/-- A thermocouple's measuring range in 0.001 °C (R112). -/
def tcRange : Nat → Int × Int
  | 6 => (-200000, 1372000)
  | 7 => (-200000, 1200000)
  | 8 => (-200000, 400000)
  | 9 => (-200000, 1000000)
  | 10 => (-200000, 1300000)
  | 11 | 12 => (0, 1768000)
  | _ => (250000, 1820000)

/-- Temperature in 0.001 °C of a thermocouple TYPE at an EMF in nV: the inverse of the reference function within the
error of the method, 0.005 °C; beyond the measuring range an extrapolated value, which R112 does not give, beyond that end
(R112, R113, log 1). -/
def tcTemp (ty : Nat) (e : Int) : Int :=
  let lo := (tcRange ty).1
  let hi := (tcRange ty).2
  let free := Config.tcErr ty e
  if e < tcEmf ty lo then lo - 1 - free.natAbs
  else if tcEmf ty hi < e then hi + 1 + free.natAbs
  else bisect (fun t => decide (t ≤ hi) && decide (tcEmf ty t ≤ e)) 21 lo + clampI (-5) 5 free

end Sys2Proof.Machine
end

