-- ==== Sys2Proof/Machine/Ui.lean ====
section
/-! DEFINITION. Ui: the universal input channels: conversions, linearisation, diagnostics, test windows, calibration,
listen mode, block stop and registers (ch. 5). -/
namespace Sys2Proof.Machine

open Sys2Proof

/-- The state with one UI channel replaced. -/
def State.setUi (s : State) (c : Fin 16) (f : Ui → Ui) : State := { s with ui := s.ui.set c (f s.ui[c]) }

/-- Configuration fields (ch. 5). -/
def Ui.type (u : Ui) : Nat := fld u.use[3] 0 5
/-- WIRE: 0 2-wire, 1 3-wire, 2 4-wire. -/
def Ui.wire (u : Ui) : Nat := fld u.use[3] 8 2
/-- SHARED. -/
def Ui.shared (u : Ui) : Bool := bit u.use[3] 24
/-- CJ_SRC. -/
def Ui.cjSrc (u : Ui) : Nat := fld u.use[3] 12 2
/-- TXS_EN acts for TYPE 14 only (R110). -/
def Ui.txsEnabled (u : Ui) : Bool := u.type == 14 && bit u.use[1] 8
/-- NE43_T. -/
def Ui.ne43T (u : Ui) : Nat := fld u.use[2] 24 8

/-- Types with a resistance element: 1 to 5. -/
def isRtd (t : Nat) : Bool := decide (1 ≤ t) && decide (t ≤ 5)
/-- Thermocouple types: 6 to 13. -/
def isTc (t : Nat) : Bool := decide (6 ≤ t) && decide (t ≤ 13)
/-- Types whose connection WIRE selects: 1 to 5 and 18. -/
def isResistive (t : Nat) : Bool := isRtd t || t == 18
/-- Current types: 14 and 15. -/
def isCurrent (t : Nat) : Bool := t == 14 || t == 15
/-- Types that are excited: 1 to 5, 18 and 19 (R109). -/
def isExcited (t : Nat) : Bool := isResistive t || t == 19

/-- The excitation that is set, in µA: EXC × 0.1 mA, or by type 1.0 mA (Pt100, Ni100, POT) or 0.5 mA for EXC 0 (R109). -/
def Ui.excSet (u : Ui) : Nat :=
  let e := fld u.use[1] 0 5
  if e ≠ 0 then 100 * e else if u.type = 1 ∨ u.type = 4 ∨ u.type = 19 then 1000 else 500

/-- The current in µA that the excitation source drives from `UIn_EXC` to `UIn_RET`, within ±2 % (R109). -/
def Ui.excDriven (u : Ui) : Nat := if u.excOn then u.excSet else 0

/-- The channel listens: SHARED, and its unit of a pair does not hold control, or has given it up in the safe state (R125,
R129). -/
def uiListens (s : State) (c : Fin 16) : Bool := s.ui[c].shared && (!s.activeUnit || (s.isPaired && s.sys.mode == .safe))

/-- Excitation and transmitter supplies may be on: not in the safe state, in LAST_BREATH and in DORMANT (R24, R67, R73). -/
def uiMayDrive (s : State) : Bool := s.sys.mode != .safe && s.sys.mode != .lastBreath && s.sys.power != .dormant

/-- Block identifier of a channel: UIB0 or UIB1 (R37). -/
def uiBlock (c : Fin 16) : Nat := c.val / 8

/-- Cell of a channel within its block. -/
def uiCell (c : Fin 16) : Nat := c.val % 8

/-- The stop bit of the channel's block (R131). -/
def uiStopped (s : State) (c : Fin 16) : Bool := if c.val < 8 then s.uiBlk.stop[0] else s.uiBlk.stop[1]

/-- Code of a phase in `UI_STAT.STATE`. -/
def UiPhase.code : UiPhase → Nat
  | .off => 0
  | .powering => 1
  | .calibrating => 2
  | .run => 3
  | .listen => 4

/-- `UI_STAT.STATE`: UNUSED, ISOLATED and STOPPED lie over the phase (R93, R44, R131). -/
def uiCode (s : State) (c : Fin 16) : Nat :=
  if s.uiUnused c.val then 7
  else if isIsolated (uiBlock c) (uiCell c) s then 6
  else if uiStopped s c then 5
  else s.ui[c].phase.code

/-- `UI_STAT.QUAL`: an isolated channel has BAD_COMM, an unused one BAD_SENSOR (R44, R93). -/
def uiQual (s : State) (c : Fin 16) : Nat :=
  if s.uiUnused c.val then 2 else if isIsolated (uiBlock c) (uiCell c) s then 4 else s.ui[c].qual

/-- A channel's event word (R133). -/
def uiEventWord (s : State) (c : Fin 16) : Word :=
  put 0 17 s.ui[c].dstat.toNat ||| put 17 3 (uiQual s c) ||| put 20 4 (uiCode s c)

/-- The channel raises its event when its conditions or its state changed, unless it is unused (R93, R133). -/
def uiNotify (c : Fin 16) (s0 s1 : State) : State :=
  if (s1.ui[c].dstat ≠ s0.ui[c].dstat ∨ uiCode s1 c ≠ uiCode s0 c) ∧ s1.uiUnused c.val = false
  then raise c.val (uiEventWord s1 c) s1 else s1

/-- A bit of a 17-bit condition set, set to a value. -/
def condBit (i : Nat) (b : Bool) : BitVec 17 := if b then BitVec.ofNat 17 (2 ^ i) else 0

/-- Conditions that give BAD_SENSOR, REF_DRIFT beyond 1000 ppm among them (R119). -/
def condSensor (d : BitVec 17) (refBad : Bool) : Bool :=
  bit d 0 || bit d 1 || bit d 3 || bit d 5 || bit d 10 || bit d 12 || bit d 13 || (bit d 15 && refBad)

/-- Conditions that give BAD_RANGE (R119). -/
def condRange (d : BitVec 17) : Bool := bit d 7 || bit d 8 || bit d 11

/-- Quality from the conditions held: the worst of them (R119, R120). -/
def qualOf (d : BitVec 17) (refBad : Bool) : Nat :=
  if condSensor d refBad then 2 else if condRange d then 3 else if d = 0 then 0 else 1

/-- The quality that a failed conversion and the conditions held give, the worst of them (R57, R119, R120). -/
def Ui.qualNow (u : Ui) : Nat := if u.failQ ≠ 0 then u.failQ else qualOf u.dstat u.refBad

/-- The channel's quality is judged now: in RUN or LISTEN, after the first valid result, with no hold of the point (R99,
R107, R123). -/
def Ui.rated (u : Ui) : Bool :=
  (u.phase == .run || u.phase == .listen) && u.settle == 0 && u.hold == 0 && !u.changing

/-- The quality is taken; under BAD_SENSOR and BAD_COMM the value is the last good one (R120). -/
def Ui.rate (u : Ui) : Ui :=
  let q := u.qualNow
  { u with qual := q, val := if q = 2 ∨ q = 4 then u.lastGood else u.val }

/-- New conditions in DSTAT, and in DIAG those that appear (R119). -/
def Ui.note (u : Ui) (d : BitVec 17) : Ui := { u with dstat := d, diag := u.diag ||| (d &&& ~~~u.dstat) }

/-- New conditions between conversions; the quality follows unless the point holds its own (R107, R119, R120). -/
def Ui.setConds (u : Ui) (d : BitVec 17) : Ui := if (u.note d).rated then (u.note d).rate else u.note d

/-- A valid result with its conditions (R113, R119, R120). -/
def Ui.publish (u : Ui) (v : Int) (d : BitVec 17) : Ui :=
  let q := qualOf d u.refBad
  { u.note d with failQ := 0, qual := q, val := if q = 2 then u.lastGood else v,
                  lastGood := if q = 0 ∨ q = 1 then v else u.lastGood }

/-- A conversion, or its transfer, failed: BAD_SENSOR or BAD_COMM until the next one (R57, R120). -/
def Ui.failed (u : Ui) (q : Nat) : Ui := { u with failQ := q, qual := q, val := u.lastGood }

/-- `UI_VAL`: an isolated channel, which has BAD_COMM, holds its last good value (R44, R120). -/
def uiVal (s : State) (c : Fin 16) : Int :=
  if isIsolated (uiBlock c) (uiCell c) s then s.ui[c].lastGood else s.ui[c].val

/-- The conditions that TYPE, WIRE, CJ_SRC and TXS_EN let arise (R119). -/
def Ui.condMask (u : Ui) : BitVec 17 :=
  let t := u.type
  let f := fun (i : Nat) (b : Bool) => condBit i b
  f 0 (isExcited t) ||| f 1 (isRtd t) ||| f 2 (isResistive t && u.wire != 0) ||| f 3 (isResistive t && u.wire != 0) |||
  f 4 (isResistive t && u.wire == 1) ||| f 5 (isTc t) ||| f 6 (isTc t) ||| f 7 (isCurrent t) ||| f 8 (isCurrent t) |||
  f 9 (isCurrent t) ||| f 10 (isCurrent t) ||| f 11 (t != 0) ||| f 12 u.txsEnabled ||| f 13 (isTc t && u.cjSrc == 0) |||
  f 14 (isTc t && u.cjSrc == 1) ||| f 15 (t != 0) ||| f 16 (isExcited t && u.shared)

/-- R0 in Ω of a resistance thermometer type (R108). -/
def r0Of : Nat → Nat
  | 1 => 100
  | 2 => 500
  | 3 => 1000
  | 4 => 100
  | _ => 1000

/-- The measuring range of a type in units of `UI_VAL` (R111, R112). -/
def uiRange (t : Nat) : Int × Int :=
  match t with
  | 1 | 2 | 3 => (-200000, 850000)
  | 4 | 5 => (-60000, 180000)
  | 14 | 15 => (0, 25000000)
  | 16 => (-500000, 12000000)
  | 17 => (-110000000, 110000000)
  | 18 => (0, 4000000)
  | 19 => (0, 1000000)
  | _ => tcRange t

/-- The value published for a result: beyond the range by up to 5 % of its span it is extrapolated, and further out, or
at a modulator overload, it is held there (R113). -/
def rangeValue (t : Nat) (overload : Option Bool) (v : Int) : Int :=
  let lo := (uiRange t).1
  let hi := (uiRange t).2
  let ext := (hi - lo) / 20
  match overload with
  | some true => hi + ext
  | some false => lo - ext
  | none => clampI (lo - ext) (hi + ext) v

/-- RANGE: outside the measuring range, or overloaded (R113). -/
def outOfRange (t : Nat) (overload : Option Bool) (v : Int) : Bool :=
  overload.isSome || decide (v < (uiRange t).1) || decide ((uiRange t).2 < v)

/-- The excitation current that a conversion computes with: the partner's in listen mode (R126). -/
def excUsed (u : Ui) (m : UiMeas) : Nat := if u.phase = .listen ∨ u.excWait then u.epochExc else m.iExc

/-- Resistance at the signal contacts in µΩ, corrected for the leads (R115 to R117). -/
def uiOhms (u : Ui) (m : UiMeas) : Int :=
  let i : Int := excUsed u m
  let r := openDiv (m.vSig * 1000000) i
  if u.wire = 1 then r - openDiv (m.vExc * 1000000) i
  else if u.wire = 0 then r - fld u.use[4] 0 16 * 1000
  else r

/-- Cold junction of a thermocouple in 0.001 °C, with CJ_FAULT and CJ_FALLBACK (R114, R119). -/
def coldJunction (s : State) (u : Ui) (m : UiMeas) : Int × Bool × Bool :=
  let internal := m.cjInt * 10
  if u.cjSrc = 1 then
    let k := fld u.use[3] 16 7
    if h : k < 16 then
      if uiQual s ⟨k, h⟩ = 0 then (uiVal s ⟨k, h⟩, false, false) else (internal, false, true)
    else (internal, false, true)
  else if u.cjSrc = 2 then (sfld u.use[4] 16 16 * 10, false, false)
  else (internal, decide (m.cjInt < -5000) || decide (13000 < m.cjInt) ||
          decide (1500 < (m.cjInt - s.sup.plate * 10).natAbs), false)

/-- The result of a conversion in units of `UI_VAL`, before R113 (R112). -/
def uiResult (s : State) (c : Fin 16) (u : Ui) (m : UiMeas) : Int :=
  let t := u.type
  if t = 1 ∨ t = 2 ∨ t = 3 then ptTemp (r0Of t) (uiOhms u m)
  else if t = 4 ∨ t = 5 then nickelTemp (r0Of t) (uiOhms u m)
  else if isTc t then tcTemp t (m.vSig + tcEmf t (coldJunction s u m).1)
  else if t = 14 then openDiv (m.vSig * 1000000) (Config.intShunt c.val)
  else if t = 15 then openDiv (m.vSig * 100) (fld u.use[6] 0 16)
  else if t = 16 then openDiv m.vSig 1000
  else if t = 17 then m.vSig
  else if t = 18 then openDiv (uiOhms u m) 1000
  else openDiv (m.vSig * 1000000) m.vExc

/-- Resistance in µΩ above which a type counts as open: 125 % of the top of its range (R119). -/
def openLimit (t : Nat) : Int :=
  if t = 1 ∨ t = 2 ∨ t = 3 then ptTop (r0Of t) * 5 / 4
  else if t = 4 ∨ t = 5 then nickelTop (r0Of t) * 5 / 4
  else if t = 18 then 5000000000
  else 2500000000

/-- Resistance that OPEN judges: the sensor's, or a potentiometer's track (R119). -/
def openOhms (u : Ui) (m : UiMeas) : Int :=
  if u.type = 19 then openDiv (m.vExc * 1000000) (excUsed u m) else uiOhms u m

/-- The conditions that a conversion judges, with those that it does not judge kept (R119). -/
def convConds (s : State) (u : Ui) (m : UiMeas) (v : Int) : BitVec 17 :=
  let t := u.type
  let cj := coldJunction s u m
  let ne := fun (shown : Bool) (i : Nat) => condBit i (isCurrent t && shown && (u.ne43T == 0 || bit u.dstat i))
  (u.dstat &&& u.condMask &&& 0x1807C) |||
  condBit 0 (isExcited t && (m.compliance || decide (openLimit t < openOhms u m))) |||
  condBit 1 (isRtd t && decide (uiOhms u m < r0Of t * 100000)) |||
  ne (decide (v ≤ 3600000)) 7 ||| ne (decide (21000000 ≤ v)) 8 |||
  condBit 9 (isCurrent t && ((decide (3600000 < v) && decide (v < 3800000)) ||
    (decide (20500000 < v) && decide (v < 21000000)))) |||
  ne (decide (v < 1000000)) 10 |||
  condBit 11 (outOfRange t m.overload v) |||
  condBit 12 (bit u.dstat 12 && u.txsEnabled && (!u.txsOn || m.txsLimit)) |||
  condBit 13 (isTc t && cj.2.1) ||| condBit 14 (isTc t && cj.2.2)

/-- The readings of a conversion that are reported beside its value (R506). -/
def Ui.readings (u : Ui) (m : UiMeas) : Ui :=
  { u with raw := m.raw, convCnt := u.convCnt + 1, island := m.island, excMeas := excUsed u m,
           txsVolt := m.txsVolt, txsCurr := m.txsCurr,
           lastListen := if u.phase = .listen then m.vSig else u.lastListen }

/-- Before the first result of a scan period, the last one is kept for a scan that starts earlier (R215). -/
def Ui.keepPrior (u : Ui) (s : State) : Ui :=
  if u.valTime / scanTicksOf s.scanCode < s.now / scanTicksOf s.scanCode then
    { u with prior := { value := u.val, qual := u.qual, time := u.valTime, count := u.results, mono := u.valMono } }
  else u

/-- A result is delivered to PEV (R212). -/
def Ui.deliver (u : Ui) (s : State) : Ui :=
  { u with results := u.results + 1, valTime := s.now, valMono := s.mono, crumbed := false }

/-- A completed conversion whose result is valid; an island whose temperature has changed by more than 5 K calibrates next
(R123). -/
def uiEvaluate (s : State) (c : Fin 16) (u : Ui) (m : UiMeas) : Ui :=
  let v := uiResult s c u m
  let d := convConds s u m v
  let u1 := { u with neLow := isCurrent u.type && decide (v ≤ 3600000),
                     neHigh := isCurrent u.type && decide (21000000 ≤ v),
                     neOpen := isCurrent u.type && decide (v < 1000000),
                     cj := if isTc u.type then openDiv (coldJunction s u m).1 10 else u.cj,
                     leads := if isResistive u.type ∧ u.wire = 1 then
                         #v[(openDiv (m.vExc * 100) (excUsed u m)).toNat, u.leads[1], 0, 0] else u.leads }
  let u2 := u1.publish (rangeValue u.type m.overload v) d
  if 500 < (m.island - u.calTemp).natAbs then { u2 with phase := .calibrating } else u2

/-- The island takes its settings: powered down without a type, else calibrated, with excitation and transmitter supply
as configured, and with no condition that its new settings do not judge (R107, R108, R110, R119, R125, R131). -/
def uiApply (s0 : State) (c : Fin 16) : State :=
  let s := s0.setUi c fun u => { u with use := u.cfg, changing := false }
  let drives := uiMayDrive s && !uiListens s c
  s.setUi c fun u =>
    if s.uiUnused c.val ∨ u.type = 0 then
      { u with phase := .off, excOn := false, txsOn := false, excWait := false, dstat := 0, qual := 2 }
    else
      let d := u.dstat &&& u.condMask
      { u with phase := if u.phase = .off ∨ u.phase = .powering then .powering else .calibrating, startCal := true,
               excOn := isExcited u.type && drives, txsOn := u.txsEnabled && drives && !bit d 12, excWait := false,
               dstat := d,
               leads := if isResistive u.type ∧ u.wire = 2 then u.leads
                        else if isResistive u.type ∧ u.wire = 1 then #v[u.leads[0], u.leads[1], 0, 0]
                        else Vector.replicate 4 0 }

/-- UI_CONVERSION: a conversion that is due completes; one in progress at a swap gives no value to the point (R57, R99,
R106, R107, R125). -/
def uiConvert (s : State) (c : Fin 16) (m : UiMeas) : State :=
  let u := s.ui[c]
  match m.fail with
  | some (transfer, cause) =>
    recordFault 0 (uiBlock c) (uiCell c) cause.toNat
      (s.setUi c fun u => ((u.keepPrior s).deliver s).failed (if transfer then 4 else 2))
  | none =>
    if u.changing then s.setUi c fun u => u.readings m
    else if u.phase = .listen ∧ m.overlap then s
    else if 0 < u.hold then s.setUi c fun u => { u.readings m with hold := u.hold - 1 }
    else if 0 < u.settle then s.setUi c fun u => { u.readings m with settle := u.settle - 1 }
    else s.setUi c fun u => (uiEvaluate s c ((u.keepPrior s).readings m) m).deliver s

/-- A conversion's cycle boundary: settings that a swap has changed are taken (R99). -/
def uiBoundary (s : State) (c : Fin 16) : State := if s.ui[c].changing then uiApply s c else s

/-- The island converts: RUN or LISTEN (R123). -/
def uiConverting (s : State) (c : Fin 16) : Bool := uiCode s c == 3 || uiCode s c == 4

/-- A lead window's conditions (R115, R116, R119): leads in 10 mΩ units. -/
def leadConds (u : Ui) (w : UiWindow) : BitVec 17 :=
  let max := fld u.use[2] 8 8
  let mis := fld u.use[2] 16 8
  let ls := if u.wire = 1 then [w.r1, w.r2] else [w.r1, w.r2, w.r3, w.r4]
  (u.dstat &&& 0x1FFE3) |||
  condBit 2 (max != 0 && ls.any fun r => decide (max * 100 < r)) |||
  condBit 3 (ls.any fun r => decide (1000000 < r)) |||
  condBit 4 (u.wire == 1 && mis != 0 && decide (mis < ((w.r1 : Int) - w.r2).natAbs))

/-- The results of a lead window. -/
def Ui.leadWindow (u : Ui) (w : UiWindow) : Ui :=
  let u1 := { u with leads := if u.wire = 1 then #v[w.r1, w.r2, 0, 0] else #v[w.r1, w.r2, w.r3, w.r4] }
  u1.setConds (leadConds u w)

/-- A loop resistance exceeds a threshold of TC_DEGRADE: the relative one once the baseline stands, or the absolute one
(R121). -/
def tcExceeds (u : Ui) (loop : Nat) : Bool :=
  let trend := fld u.use[5] 16 8
  let rmax := fld u.use[5] 0 16
  (trend != 0 && u.tcTests == 64 && decide (u.tcBase * (100 + trend) < loop * 2 ^ 32 * 100)) ||
  (rmax != 0 && decide (rmax < loop))

/-- A loop resistance lies below both thresholds less 5 % (R121). -/
def tcBelow (u : Ui) (loop : Nat) : Bool :=
  let trend := fld u.use[5] 16 8
  let rmax := fld u.use[5] 0 16
  (trend == 0 || u.tcTests != 64 || decide (loop * 2 ^ 32 * 2000 < u.tcBase * (100 + trend) * 19)) &&
  (rmax == 0 || decide (loop * 20 < rmax * 19))

/-- The baseline after a test: the mean of the first 64, then a weight of 1/65,536, frozen while TC_DEGRADE is set
(R121). -/
def Ui.trendBase (u : Ui) (loop : Nat) (degraded : Bool) : Ui :=
  if u.tcTests < 64 then
    let n := u.tcTests + 1
    let sum := u.tcSum + loop
    { u with tcTests := n, tcSum := sum, tcBase := sum * 2 ^ 32 / n }
  else if degraded then u
  else { u with tcBase := ((u.tcBase : Int) + ((loop : Int) * 2 ^ 32 - u.tcBase) / 65536).toNat }

/-- The results of a thermocouple window (R121). -/
def Ui.tcWindow (u : Ui) (loop : Nat) : Ui :=
  let high := if tcExceeds u loop then u.tcHigh + 1 else 0
  let low := if tcBelow u loop then u.tcLow + 1 else 0
  let deg := if 3 ≤ high then true else if 3 ≤ low then false else bit u.dstat 6
  let u1 := ({ u with tcLoop := loop, tcHigh := high, tcLow := low }).trendBase loop (bit u.dstat 6)
  u1.setConds ((u.dstat &&& 0x1FF9F) ||| condBit 5 (decide (100000 < loop)) ||| condBit 6 deg)

/-- UI_TEST_WINDOW: a window runs in RUN, for thermocouples and for 3- and 4-wire connections (R118). -/
def uiWindow (s : State) (c : Fin 16) (w : UiWindow) : State :=
  let u := s.ui[c]
  if uiCode s c ≠ 3 then s
  else if isTc u.type then s.setUi c fun u => { u.tcWindow w.loop with testReq := false }
  else if isResistive u.type ∧ u.wire ≠ 0 then s.setUi c fun u => { u.leadWindow w with testReq := false }
  else s.setUi c fun u => { u with testReq := false }

/-- Byte address of a UI register. -/
def uiAddr (c : Fin 16) (off : Nat) : Nat := 0x020000 + 0x400 * c.val + off

/-- UI_CMD is ignored and logged in LISTEN, STOPPED, ISOLATED and UNUSED (UI_CMD, ch. 5). -/
def uiCmdRefused (s : State) (c : Fin 16) : Bool := decide (4 ≤ uiCode s c)

/-- A command of `UI_CMD` other than TREND_RESET. -/
def uiCommand (src : Source) (c : Fin 16) (f : Ui → Ui) (s : State) : State :=
  if uiCmdRefused s c then logWerr 8 src (uiAddr c 0x80) s else uiNotify c s (s.setUi c f)

/-- A calibration starts in RUN or LISTEN (R123). -/
def Ui.startCalib (u : Ui) : Ui := if u.phase = .run ∨ u.phase = .listen then { u with phase := .calibrating } else u

/-- TXS_ON re-enables the transmitter supply (R122). -/
def Ui.txsSwitchOn (u : Ui) : Ui := if u.txsEnabled then { u with txsOn := true } else u

/-- TREND_RESET restarts the baseline, and TC_DEGRADE clears at once (R121). -/
def Ui.trendReset (u : Ui) : Ui :=
  ({ u with tcTests := 0, tcSum := 0, tcHigh := 0, tcLow := 0 }).setConds (u.dstat &&& 0x1FFBF)

/-- UI_ISLAND_POWERED: start calibration begins (R123). -/
def uiPowered (s : State) (c : Fin 16) : State :=
  if s.ui[c].phase = .powering then
    uiNotify c s (s.setUi c fun u => { u with phase := .calibrating, startCal := true }) else s

/-- The phase after a calibration: LISTEN for a shared channel of a standby, or one that waits for the partner's
excitation to end, else RUN (R123, R125, R128). -/
def uiServicePhase (s : State) (c : Fin 16) : UiPhase := if uiListens s c || s.ui[c].excWait then .listen else .run

/-- UI_CAL_DONE: the results are stored; after a start calibration the first valid result follows as R107 gives. -/
def uiCalDone (s : State) (c : Fin 16) (ofs gain : Word) (island : Int) : State :=
  if s.ui[c].phase = .calibrating then
    uiNotify c s (s.setUi c fun u =>
      { u with phase := uiServicePhase s c, calOfs := ofs, calGain := gain, calTemp := island,
               settle := if u.startCal then 1 else u.settle, startCal := false })
  else s

/-- A block leaves its stop: its islands take their settings and calibrate (R131). -/
def uiRelease (s : State) (b : Fin 2) : State :=
  (List.finRange 16).foldl (fun s c => if c.val / 8 = b.val then uiApply s c else s) s

/-- UI_BLK_CTL is written (R131). -/
def uiBlkWrite (stop : BitVec 2) (s : State) : State :=
  let old := s.uiBlk.stop
  let s1 := { s with uiBlk := { stop := #v[bit stop 0, bit stop 1] } }
  let s2 := if old[0] && !bit stop 0 then uiRelease s1 0 else s1
  let s3 := if old[1] && !bit stop 1 then uiRelease s2 1 else s2
  (List.finRange 16).foldl (fun a c => uiNotify c s a) s3

/-- UI_SHARED_EXC_CHECK: a shared island that waits checks the sensor voltage (R128). -/
def uiExcCheck (s : State) (c : Fin 16) (v : Int) : State :=
  if s.ui[c].excWait ∧ s.ui[c].phase = .listen ∧ uiMayDrive s then
    uiNotify c s (s.setUi c fun u =>
      if v.natAbs < 10000000 ∨ v.natAbs * 50 < u.lastListen.natAbs then
        ({ u with excWait := false, excOn := true, phase := .run, settle := 1 }).setConds (u.dstat &&& 0x0FFFF)
      else u.setConds (u.dstat ||| 0x10000))
  else s

/-- A shared island of a unit that takes control changes to normal mode, or first checks the sensor voltage; one that
calibrates does so once it has calibrated (R128). -/
def uiTake (s : State) (c : Fin 16) : State :=
  let u := s.ui[c]
  if !u.shared ∨ u.phase = .off ∨ u.phase = .run then s
  else if isExcited u.type then (if u.excOn then s else s.setUi c fun u => { u with excWait := true })
  else if u.phase = .listen then s.setUi c fun u => { u with phase := .run, settle := 1 }
  else s

/-- A take-over (R128). -/
def uiTakeOver (s : State) : State := (List.finRange 16).foldl uiTake s

/-- A shared island of a unit that gives up control, or becomes standby, puts nothing on the sensor; one in service
changes to listen mode, one that calibrates does so once it has calibrated (R125, R129). -/
def uiGive (s : State) (c : Fin 16) : State :=
  let u := s.ui[c]
  if !u.shared ∨ u.phase = .off then s
  else
    s.setUi c fun u =>
      { u with phase := if u.phase = .run then .listen else u.phase, settle := if u.phase = .run then 1 else u.settle,
               excOn := false, txsOn := false, excWait := false }

/-- A unit that gives up control (R129). -/
def uiListenEntry (s : State) : State := (List.finRange 16).foldl uiGive s

/-- Every excitation and transmitter supply is off (R24, R67). -/
def uiQuiet (s : State) : State :=
  { s with ui := s.ui.map fun u => { u with excOn := false, txsOn := false, excWait := false } }

/-- UI_REF_CHECK: VREFA against VREFB (R119). -/
def uiRefCheck (s : State) (c : Fin 16) (ppm : Nat) : State :=
  if s.ui[c].type ≠ 0 ∧ uiConverting s c then
    uiNotify c s (s.setUi c fun u =>
      ({ u with refBad := decide (1000 < ppm) }).setConds
        ((u.dstat &&& 0x17FFF) ||| condBit 15 (decide (200 < ppm))))
  else s

/-- UI_NE43_CONFIRM: those of NE43_LOW, NE43_HIGH and LOOP_OPEN whose time has passed, and which the last conversion
showed, are confirmed (R119). -/
def uiNe43Confirm (s : State) (c : Fin 16) (past : BitVec 3) : State :=
  if uiConverting s c then
    uiNotify c s (s.setUi c fun u =>
      u.setConds (u.dstat ||| condBit 7 (bit past 0 && u.neLow) ||| condBit 8 (bit past 1 && u.neHigh) |||
        condBit 10 (bit past 2 && u.neOpen)))
  else s

/-- UI_TXS_OVERLOAD: TXS_OVL is set and the supply switched off (R122). -/
def uiTxsOverload (s : State) (c : Fin 16) : State :=
  if s.ui[c].txsOn ∧ s.ui[c].txsEnabled then
    uiNotify c s (s.setUi c fun u => ({ u with txsOn := false }).setConds (u.dstat ||| condBit 12 true))
  else s

/-- UI_TXS_RETRY: TXS_RETRY seconds after TXS_OVL the supply is switched on again (R122). -/
def uiTxsRetry (s : State) (c : Fin 16) : State :=
  if bit s.ui[c].dstat 12 ∧ fld s.ui[c].use[1] 12 4 ≠ 0 ∧ s.ui[c].txsEnabled ∧ uiMayDrive s ∧
      uiListens s c = false then
    s.setUi c fun u => { u with txsOn := true }
  else s

/-! ### The UI part of the recipe (R132) and registers -/

/-- Reserved bits of the configuration words are 0 (R504). -/
def uiReservedOk (w : Vector Word 7) : Bool :=
  fld w[0] 16 16 == 0 && fld w[0] 4 4 == 0 && fld w[1] 16 16 == 0 && fld w[1] 9 3 == 0 && fld w[1] 5 3 == 0 &&
  fld w[3] 25 7 == 0 && !bit w[3] 23 && fld w[3] 14 2 == 0 && fld w[3] 10 2 == 0 && fld w[3] 5 3 == 0 &&
  fld w[5] 24 8 == 0 && fld w[6] 16 16 == 0

/-- The cold-junction settings meet R114; `other k` is the TYPE of UI channel `k`, none where it is unused. -/
def uiCjOk (c : Nat) (other : Nat → Option Nat) (w : Vector Word 7) : Bool :=
  let t := fld w[3] 0 5
  let src := fld w[3] 12 2
  let k := fld w[3] 16 7
  let fix := fld w[4] 16 16
  if isTc t then
    decide (src ≤ 2) && (src == 1 || k == 0) && (src == 2 || fix == 0) &&
    (src != 1 || (k != c && decide (k < 16) && (match other k with | some t => isRtd t | none => false)))
  else src == 0 && k == 0 && fix == 0

/-- The settings of a channel in use are ones that a recipe can hold (R106, R108, R109, R114, R118, R127, R504). -/
def uiCfgOk (c : Nat) (other : Nat → Option Nat) (w : Vector Word 7) : Bool :=
  let t := fld w[3] 0 5
  uiReservedOk w && decide (fld w[0] 0 4 ≤ 7) && decide (fld w[1] 0 5 ≤ 20) && decide (t ≤ 19) &&
  decide (fld w[3] 8 2 ≠ 3) && decide (fld w[2] 0 8 ≤ 100) &&
  (!((isTc t || isResistive t)) || decide (fld w[2] 0 8 ≠ 0)) && uiCjOk c other w &&
  !(bit w[3] 24 && (t == 14 || (isTc t && fld w[3] 12 2 == 0))) &&
  (t != 15 || (decide (1000 ≤ fld w[6] 0 16) && decide (fld w[6] 0 16 ≤ 50000)))

/-- The seven words of a channel in a bank's ACQ section (R132). -/
def uiBankCfg (bank : Memory) (c : Nat) : Vector Word 7 :=
  Vector.ofFn fun i => BitVec.ofNat 32 (bankNat bank secACQ (32 * c + 4 * i.val) 4)

/-- The TYPE of a UI channel in a bank, none where IDENT marks it unused. -/
def uiBankType (bank : Memory) (k : Nat) : Option Nat :=
  if (bankNat bank secIDENT 4 2).testBit k then none else some (fld (uiBankCfg bank k)[3] 0 5)

/-- The UI part of a bank's ACQ section is valid (R132). -/
def uiBankOk (bank : Memory) : Bool :=
  (List.range 16).all fun c =>
    bankNat bank secACQ (32 * c + 28) 4 == 0 &&
    (if (bankNat bank secIDENT 4 2).testBit c then bankNat bank secACQ (32 * c) 28 == 0
     else uiCfgOk c (uiBankType bank) (uiBankCfg bank c))

/-- The channel's settings are loaded from the active bank at a start (R130). -/
def uiLoad (s : State) (c : Fin 16) : State :=
  s.setUi c fun u => { u with cfg := uiBankCfg s.activeBank c.val }

/-- The channel's registers take the bank's values. A channel whose settings change holds its value with quality
UNCERTAIN, and its baseline restarts; a running island completes its conversion under the old settings and takes the new
ones then, another takes them now, a stopped one when its block is released (R99, R121, R130, R131). -/
def uiSwap (s : State) (c : Fin 16) : State :=
  let w := uiBankCfg s.activeBank c.val
  if w = s.ui[c].cfg then s
  else
    let s1 := s.setUi c fun u =>
      { u with tcTests := 0, tcSum := 0, tcHigh := 0, tcLow := 0, cfg := w, dstat := u.dstat &&& 0x1FFBF,
               qual := if u.phase = .off then u.qual else 1 }
    if uiStopped s c then s1
    else if uiConverting s c then s1.setUi c fun u => { u with changing := true }
    else uiApply s1 c

/-- The channel after a reset of ACQ: its registers hold the active bank's values again, and where these differ from the
settings in force the island takes them (R38, R53, R54). -/
def uiReady (s : State) (c : Fin 16) : State :=
  let s1 := s.setUi c fun u => { u with cfg := uiBankCfg s.activeBank c.val }
  if s1.ui[c].cfg = s1.ui[c].use then s1 else uiNotify c s (uiApply s1 c)

/-- A lead resistance as its register shows it: 0xFFFF above 655.34 Ω. -/
def leadShown (r : Nat) : Nat := if 65534 < r then 0xFFFF else r

/-- A read of a channel's register, without effect; none where the window names none (ch. 5). -/
def uiRead (s : State) (c : Fin 16) (off : Nat) : Option Word :=
  let u := s.ui[c]
  if h : off < 28 ∧ off % 4 = 0 then some (u.cfg[off / 4]'(by omega))
  else match off with
  | 0x40 => some (putI 0 32 (uiVal s c))
  | 0x44 => some (put 0 24 u.raw.toNat)
  | 0x48 => some (put 16 16 u.convCnt.toNat ||| put 4 3 (uiQual s c) ||| put 0 4 (uiCode s c))
  | 0x4C => some (put 0 17 u.dstat.toNat)
  | 0x50 => some (put 0 17 u.diag.toNat)
  | 0x54 => some (put 16 16 (leadShown u.leads[1]) ||| put 0 16 (leadShown u.leads[0]))
  | 0x58 => some (put 16 16 (leadShown u.leads[3]) ||| put 0 16 (leadShown u.leads[2]))
  | 0x5C => some (put 16 16 (u.tcBase / 2 ^ 32) ||| put 0 16 (leadShown u.tcLoop))
  | 0x60 => some (putI 16 16 u.island ||| putI 0 16 u.cj)
  | 0x64 => some (put 0 32 u.excMeas)
  | 0x68 => some (put 16 16 u.txsVolt.toNat ||| put 0 16 u.txsCurr.toNat)
  | 0x6C => some u.calOfs
  | 0x70 => some u.calGain
  | 0x80 => some 0
  | 0x380 => some (putB 1 s.uiBlk.stop[1] ||| putB 0 s.uiBlk.stop[0])
  | 0x384 => some 0
  | 0x388 => some ((List.finRange 16).foldl
      (fun w k => w ||| putB k.val (isIsolated (uiBlock k) (uiCell k) s)) 0)
  | _ => none

/-- A write of a RWL configuration word: refused and logged while the block runs, or when a recipe could not hold the
value (R5, R104). -/
def uiCfgWrite (src : Source) (c : Fin 16) (i : Fin 7) (v : Word) (s : State) : Nat × State :=
  let addr := uiAddr c (4 * i.val)
  if !uiStopped s c then (7, logWerr 1 src addr s)
  else
    let w := s.ui[c].cfg.set i v
    let other := fun k => if s.uiUnused k then none else if h : k < 16 then some (fld s.ui[k].cfg[3] 0 5) else none
    let ok := if s.uiUnused c.val then v == 0 else uiCfgOk c.val other w
    if ok then (0, s.setUi c fun u => { u with cfg := w }) else (7, logWerr 9 src addr s)

/-- UI_ISLAND_POWERED (R123). -/
def execUiIslandPowered (c : Fin 16) (s : State) : Host.Outcome State Fault Refusal := .next (uiPowered s c)

/-- UI_CONVERSION (R106). -/
def execUiConversion (c : Fin 16) (m : UiMeas) (s : State) : Host.Outcome State Fault Refusal :=
  .next (if uiConverting s c then uiNotify c s (uiBoundary (uiConvert s c m) c) else s)

/-- UI_TEST_WINDOW (R118). -/
def execUiTestWindow (c : Fin 16) (w : UiWindow) (s : State) : Host.Outcome State Fault Refusal :=
  .next (uiNotify c s (uiWindow s c w))

/-- UI_TEST_CMD (R118). -/
def execUiTestCmd (src : Source) (c : Fin 16) (s : State) : Host.Outcome State Fault Refusal :=
  .next (uiCommand src c (fun u => { u with testReq := true }) s)

/-- UI_CAL_INTERVAL (R123): CAL_INT minutes have passed; 0 disables the periodic calibration. -/
def execUiCalInterval (c : Fin 16) (s : State) : Host.Outcome State Fault Refusal :=
  .next (if fld s.ui[c].use[0] 8 8 ≠ 0 ∧ uiConverting s c then uiNotify c s (s.setUi c Ui.startCalib) else s)

/-- UI_CAL_CMD (R123). -/
def execUiCalCmd (src : Source) (c : Fin 16) (s : State) : Host.Outcome State Fault Refusal :=
  .next (uiCommand src c Ui.startCalib s)

/-- UI_CAL_DONE (R123). -/
def execUiCalDone (c : Fin 16) (ofs gain : Word) (island : Int) (s : State) : Host.Outcome State Fault Refusal :=
  .next (uiCalDone s c ofs gain island)

/-- UI_REF_CHECK (R119). -/
def execUiRefCheck (c : Fin 16) (ppm : Nat) (s : State) : Host.Outcome State Fault Refusal := .next (uiRefCheck s c ppm)

/-- UI_NE43_CONFIRM (R119). -/
def execUiNe43Confirm (c : Fin 16) (past : BitVec 3) (s : State) : Host.Outcome State Fault Refusal :=
  .next (uiNe43Confirm s c past)

/-- UI_TXS_OVERLOAD (R122). -/
def execUiTxsOverload (c : Fin 16) (s : State) : Host.Outcome State Fault Refusal := .next (uiTxsOverload s c)

/-- UI_TXS_RETRY (R122). -/
def execUiTxsRetry (c : Fin 16) (s : State) : Host.Outcome State Fault Refusal := .next (uiTxsRetry s c)

/-- UI_TXS_ON (R122). -/
def execUiTxsOn (src : Source) (c : Fin 16) (s : State) : Host.Outcome State Fault Refusal :=
  .next (uiCommand src c Ui.txsSwitchOn s)

/-- UI_TREND_RESET (R121). -/
def execUiTrendReset (c : Fin 16) (s : State) : Host.Outcome State Fault Refusal :=
  .next (uiNotify c s (s.setUi c Ui.trendReset))

/-- UI_BLOCK_STOP (R131). -/
def execUiBlockStop (stop : BitVec 2) (s : State) : Host.Outcome State Fault Refusal := .next (uiBlkWrite stop s)

/-- UI_SHARED_EXC_CHECK (R128). -/
def execUiSharedExcCheck (c : Fin 16) (v : Int) (s : State) : Host.Outcome State Fault Refusal :=
  .next (uiExcCheck s c v)

end Sys2Proof.Machine
end

