-- ==== Sys2Proof/Machine/Cells.lean ====
section
/-! DEFINITION. Cells: what the channels of all four kinds do together: their events, and the giving up and taking of
control (R133, R163, R193, R207). -/
namespace Sys2Proof.Machine

open Sys2Proof

/-- Every channel raises its event where its conditions or its state differ between two states (R133, R163, R193,
R207). -/
def cellNotify (s0 s1 : State) : State :=
  let a := (List.finRange 16).foldl (fun a c => uiNotify c s0 a) s1
  let d := dioNotifyAll s0 (aoNotifyAll s0 a)
  (List.finRange 2).foldl (fun a c => psNotify c s0 a) d

/-- An operation that raises no event of a channel, with the events of what it changes. -/
def noted (f : State → State) (s : State) : State := cellNotify s (f s)

/-- The outputs of the unit are driven, or released (R81, R371). -/
def setOut (b : Bool) (s : State) : State := { s with sys := { s.sys with outEn := b } }

/-- What a hand-over or a take-over has laid on the outputs is taken away. -/
def clearHand (s : State) : State :=
  { s with ao := s.ao.map fun a => { a with frozen := none, released := false }
           dio := s.dio.map fun d => { d with frozen := none }
           dioBlk := { s.dioBlk with groups := s.dioBlk.groups.map fun g => { g with released := false } } }

/-- Every output is released, and the shared islands listen, without events (R129, R371, R375). -/
def letGo (s : State) : State := uiListenEntry (dioReleaseAll (setOut false (clearHand (aoLetGo s))))

/-- The unit gives up control (R129, R149, R375). -/
def releaseControl (s : State) : State := noted letGo (aoEndSpell s)

/-- The shared islands of a unit that takes control change to normal mode (R128). -/
def uiTakeControl (s : State) : State := noted uiTakeOver s

/-- Every output, excitation and transmitter supply is off, without events (R24, R67). -/
def allOff (s : State) : State := uiQuiet (aoOpenAll (dioReleaseAll (setOut false (clearHand s))))

end Sys2Proof.Machine
end

