-- ==== Sys2Proof/Machine/Can.lean ====
section
/-! DEFINITION. Can: the four CAN FD controllers: modes, transmit buffers, error states, events and registers (ch. 12). -/
namespace Sys2Proof.Machine

open Sys2Proof

/-- The state with one controller replaced. -/
def State.setCan (s : State) (k : Fin 4) (f : Can → Can) : State := { s with can := s.can.set k (f s.can[k]) }

/-- Block identifier of a controller (R299). -/
def canBlock (k : Fin 4) : Nat := 0x10 + k.val

/-- A controller is present: CAN2 and CAN3 serve managers only (R299). -/
def canPresent (s : State) (k : Fin 4) : Bool := decide (k.val < 2) || s.isManager

/-- Bytes of a frame by its data length code (R301). -/
def dlcLen (fdf : Bool) (dlc : Nat) : Nat :=
  if dlc ≤ 8 then dlc
  else if !fdf then 8
  else if dlc = 9 then 12 else if dlc = 10 then 16 else if dlc = 11 then 20 else if dlc = 12 then 24
  else if dlc = 13 then 32 else if dlc = 14 then 48 else 64

/-- The data length code of an FD frame of `n` bytes. -/
def lenDlc (n : Nat) : Nat :=
  if n ≤ 8 then n else if n ≤ 12 then 9 else if n ≤ 16 then 10 else if n ≤ 20 then 11 else if n ≤ 24 then 12
  else if n ≤ 32 then 13 else if n ≤ 48 then 14 else 15

/-- A mode that transmits (R305). -/
def canTxMode (m : Nat) : Bool := m == 1 || m == 4 || m == 5 || m == 6

/-- The controller takes part on its bus: error-active or error-passive. -/
def Can.onBus (c : Can) : Bool := c.st == 2 || c.st == 3

/-- Offset of a transmit buffer in the window (R312). -/
def txOff (b : Nat) : Nat := 128 * b
/-- Offset of a receive buffer in the window (R312). -/
def rxOff (r : Nat) : Nat := 0x1000 + 128 * r

/-- Identifier in a transmit buffer. -/
def Can.txId (c : Can) (b : Nat) : Nat := memNat c.ram (txOff b) 4 % 2 ^ 29
/-- Priority class of an identifier (R318). -/
def idClass (id : Nat) : Nat := id / 2 ^ 26 % 8
/-- FDF in a transmit buffer. -/
def Can.txFdf (c : Can) (b : Nat) : Bool := bit (memGet c.ram (txOff b + 4)) 4
/-- RETRY in a transmit buffer. -/
def Can.txRetry (c : Can) (b : Nat) : Nat := fld (memGet c.ram (txOff b + 5)) 0 4
/-- ARBCNT in a transmit buffer. -/
def Can.txArbCnt (c : Can) (b : Nat) : Bool := bit (memGet c.ram (txOff b + 5)) 4
/-- BRS in a transmit buffer. -/
def Can.txBrs (c : Can) (b : Nat) : Bool := bit (memGet c.ram (txOff b + 4)) 5
/-- Data of a transmit buffer. -/
def Can.txData (c : Can) (b : Nat) : List Byte :=
  memBytes c.ram (txOff b + 24) (dlcLen (c.txFdf b) (fld (memGet c.ram (txOff b + 4)) 0 4))

/-- A bit of a 32-bit buffer mask. -/
def bufBit (b : Nat) : BitVec 32 := BitVec.ofNat 32 (2 ^ b)

/-- An event of a controller (R317). -/
def canEvent (k : Fin 4) (kind buf : Nat) (s : State) : State :=
  raise (38 + k.val) (put 0 4 kind ||| put 4 4 s.can[k].st ||| put 8 8 buf) s

/-- The error state follows the counters; a change raises an event (R313, R317). -/
def canState (k : Fin 4) (s : State) : State :=
  let c := s.can[k]
  let n := if c.onBus then (if 127 < c.tec ∨ 127 < c.recv then 3 else 2) else c.st
  if n = c.st then s else canEvent k 1 0 (s.setCan k fun c => { c with st := n })

/-- A buffer completes with a result: 1 SENT, 2 ABORTED, 3 DROPPED, 4 BAD_ID, 5 PARITY; a dropped buffer and a host's
buffer raise an event (R307, R317). -/
def canComplete (k : Fin 4) (b : Nat) (result : Nat) (s : State) : State :=
  let s1 := s.setCan k fun c =>
    { c with ram := memPut c.ram (txOff b + 16) (BitVec.ofNat 8 result), txPend := c.txPend &&& ~~~(bufBit b),
             abortReq := c.abortReq &&& ~~~(bufBit b) }
  if result = 3 then canEvent k 6 b s1 else if 28 ≤ b then canEvent k 7 b s1 else s1

/-- A request that the controller does not accept: a host's frame with another source, a class other than 7 while
ALONE, an FD frame without FD_EN (R306, R315, CAN_CTL). -/
def canBadId (s : State) (k : Fin 4) (b : Nat) : Bool :=
  let c := s.can[k]
  (decide (28 ≤ b) && c.txId b % 2 ^ 16 != s.nodeNum.toNat && c.mode != 4 && c.mode != 5) ||
  (c.alone && idClass (c.txId b) != 7) || (c.txFdf b && !c.fdEn)

/-- The transmitters have gone recessive: no further frame is requested in the safe state, in LAST_BREATH and in DORMANT
(R58, R67, R75). -/
def canQuiet (s : State) : Bool := s.sys.mode == .safe || s.sys.mode == .lastBreath || s.sys.power == .dormant

/-- A buffer is requested: its result, failures and ARB_WON start anew, or it completes at once with BAD_ID (R306,
R307). -/
def canRequest (k : Fin 4) (s : State) (b : Fin 32) : State :=
  if bit s.can[k].txPend b.val || canQuiet s then s
  else
    let s1 := s.setCan k fun c => { c with ram := memPut (memPut c.ram (txOff b.val + 16) 0) (txOff b.val + 17) 0 }
    if canBadId s k b.val then canComplete k b.val 4 s1
    else s1.setCan k fun c => { c with txPend := c.txPend ||| bufBit b.val }

/-- The bits of a write to TXREQ or TXABORT that act: a writer other than IMZ reaches buffers 28 to 31 only. -/
def canMask (src : Source) (mask : BitVec 32) : BitVec 32 := if src = .chip then mask else mask &&& 0xF0000000

/-- Byte address of a CAN register. -/
def canAddr (k : Fin 4) (off : Nat) : Nat := 0x060000 + 0x1000 * k.val + off

/-- The buffers of a mask, in ascending order. -/
def maskBufs (mask : BitVec 32) : List (Fin 32) := (List.finRange 32).filter fun b => bit mask b.val

/-- A write to IMZ's bits by another writer is logged (CAN_TXREQ, R306). -/
def canLogMask (src : Source) (k : Fin 4) (off : Nat) (mask : BitVec 32) (s : State) : State :=
  if src ≠ .chip ∧ mask &&& 0x0FFFFFFF ≠ 0 then logWerr 7 src (canAddr k off) s else s

/-- CAN_TXREQ is written (R306). -/
def canTxReq (src : Source) (k : Fin 4) (mask : BitVec 32) (s : State) : State :=
  if canPresent s k then
    (maskBufs (canMask src mask)).foldl (canRequest k) (canLogMask src k 0x20 mask s)
  else s

/-- A pending buffer is withdrawn: at once, or at the end of the attempt that is on the bus (R307). -/
def canAbort (k : Fin 4) (onBus : Option (Fin 32)) (s : State) (b : Fin 32) : State :=
  if bit s.can[k].txPend b.val then
    if onBus = some b then s.setCan k fun c => { c with abortReq := c.abortReq ||| bufBit b.val }
    else canComplete k b.val 2 s
  else s

/-- The buffer whose frame is on the bus now, none while no own frame is: the commands name no start of a frame, so that
it is a free value where the command that asks does not say it (log 1). -/
def canOnBus (s : State) (k : Fin 4) : Option (Fin 32) :=
  if s.can[k].onBus && canTxMode s.can[k].mode then
    (let v := s.freeVal.toNat / 2 ^ (8 * k.val) % 64
     if h : v < 32 then some ⟨v, h⟩ else none)
  else none

/-- CAN_TXABORT is written (R307). -/
def canTxAbort (src : Source) (k : Fin 4) (mask : BitVec 32) (onBus : Option (Fin 32)) (s : State) : State :=
  if canPresent s k then
    (maskBufs (canMask src mask)).foldl (canAbort k onBus) (canLogMask src k 0x24 mask s)
  else s

/-- Every pending buffer that a test picks is aborted; `onBus` is the one whose frame is on the bus (R307). -/
def canAbortAll (k : Fin 4) (onBus : Option (Fin 32)) (pick : Nat → Bool) (s : State) : State :=
  (List.finRange 32).foldl (fun a b => if pick (a.can[k].txId b.val) then canAbort k onBus a b else a) s

/-- ALONE ends, with its event (R315). -/
def canAloneEnd (k : Fin 4) (s : State) : State :=
  let s1 := s.setCan k fun c => { c with ackErrs := 0 }
  if s.can[k].alone then canEvent k 5 0 (s1.setCan k fun c => { c with alone := false }) else s1

/-- ALONE begins, at the end of an attempt: event, and every buffer of a class other than 7 is aborted (R315). -/
def canAlone (k : Fin 4) (s : State) : State :=
  canAbortAll k none (fun id => idClass id != 7) (canEvent k 4 0 (s.setCan k fun c => { c with alone := true }))

/-- A mode takes effect: OFF aborts what is pending, and a mode that transmits integrates first when it is entered
from OFF, LISTEN or CRUMB (R305). -/
def canEnterMode (k : Fin 4) (m : Nat) (s : State) : State :=
  let c := s.can[k]
  let s0 := s.setCan k fun c => { c with modeReq := none }
  if m = c.mode then s0
  else if m = 0 then
    let s1 := canAbortAll k none (fun _ => true) s0
    (s1.setCan k fun c => { c with mode := 0, st := 0, alone := false, ackErrs := 0 })
  else
    let again := c.mode == 0 || c.mode == 2 || c.mode == 4
    let st := if canTxMode m && again then 1 else if c.mode = 0 then 2 else c.st
    s0.setCan k fun c =>
      { c with mode := m, st := st, tec := if c.mode = 0 then 0 else c.tec, recv := if c.mode = 0 then 0 else c.recv,
               alone := c.alone && m == 1, ackErrs := 0 }

/-- The transceiver's standby contact: high in OFF and CRUMB (R305). -/
def canStandby (k : Fin 4) (s : State) : State :=
  { s with sys := { s.sys with pins := { s.sys.pins with
      canStb := s.sys.pins.canStb.set k (s.can[k].mode == 0 || s.can[k].mode == 4) } } }

/-- A mode is entered with its contact. -/
def canSetMode (k : Fin 4) (m : Nat) (s : State) : State := canStandby k (canEnterMode k m s)

/-- A write of CAN_CTL.MODE: MODE 7 is refused; another mode waits for the end of the frame in progress (R305). -/
def canModeWrite (src : Source) (k : Fin 4) (m : BitVec 3) (s : State) : Nat × State :=
  if !canPresent s k then (7, s)
  else if m = 7 then (7, logWerr 9 src (canAddr k 0) s)
  else (0, s.setCan k fun c => { c with modeReq := some m.toNat })

/-- A frame of 29-bit identifier and data for the network: IMZ sends FD frames with bit rate switching (R318). -/
structure OutFrame where
  id : Nat
  data : List Byte
deriving DecidableEq, Repr

/-- The lowest of IMZ's buffers that is not pending (R306). -/
def Can.freeBuf (c : Can) : Option (Fin 32) :=
  (List.finRange 32).find? fun b => decide (b.val < 28) && !bit c.txPend b.val

/-- RETRY of IMZ's transmit buffers (R352). -/
def State.netRetry (s : State) : Nat := s.cfgNat secNET 29 1

/-- IMZ places a frame in a controller's buffer and requests it: not while the controller is OFF or only listens, or
all its buffers are pending; then the frame has no copy on that bus (log 11). -/
def canSubmit (k : Fin 4) (f : OutFrame) (s : State) : State :=
  let c := s.can[k]
  if !canTxMode c.mode then s
  else match c.freeBuf with
  | none => s
  | some b =>
    let o := txOff b.val
    let head := bytesLE 4 f.id ++ [BitVec.ofNat 8 (lenDlc f.data.length + 0x30), BitVec.ofNat 8 (s.netRetry % 16)]
    canRequest k (s.setCan k fun c =>
      { c with ram := memFill (memFill (memZero c.ram o 128) o head) (o + 24) f.data }) b

/-- The timestamp of a start of frame `age` ticks ago (R311). -/
def sofStamp (s : State) (age : Nat) : Ts := stampOf (s.now - age)

/-- A frame is stored in the receive ring; what it overwrites unread is counted, and for the hosts raised (R309,
R312). -/
def canStore (k : Fin 4) (own : Bool) (f : CanFrame) (age : Nat) (s : State) : State :=
  let c := s.can[k]
  let h := c.head
  let o := rxOff h
  let n := dlcLen f.fdf f.dlc.toNat
  let flags := f.dlc.toNat + (if f.fdf then 0x10 else 0) + (if f.brs then 0x20 else 0) + (if f.esi then 0x40 else 0) +
    (if own then 0x80 else 0)
  let head := bytesLE 4 f.id.toNat ++ [BitVec.ofNat 8 flags, 0] ++ bytesLE 2 (c.frames.toNat + 1) ++
    bytesLE 8 (sofStamp s age).toNat
  let hostLost := c.rxNew.getLsbD h
  let mark : BitVec 64 := BitVec.ofNat 64 (2 ^ h)
  let s1 := s.setCan k fun c =>
    { c with ram := memFill (memFill (memZero c.ram o 128) o head) (o + 24) (f.data.take n),
             rxNew := c.rxNew ||| mark, imzNew := c.imzNew ||| mark, head := (h + 1) % 64, frames := c.frames + 1,
             hostOvr := if hostLost then satInc 0xFFFF c.hostOvr else c.hostOvr,
             imzOvr := if c.imzNew.getLsbD h then satInc 255 c.imzOvr else c.imzOvr }
  if hostLost then canEvent k 8 h s1 else s1

/-- The frame in a transmit buffer as it is looped back (R309). -/
def Can.ownFrame (c : Can) (b : Nat) : CanFrame :=
  let w := memGet c.ram (txOff b + 4)
  { id := BitVec.ofNat 29 (c.txId b), base := false, remote := false, fdf := bit w 4, brs := bit w 5,
    esi := c.st == 3, dlc := BitVec.ofNat 4 w.toNat, data := c.txData b }

/-- ARB_WON and the failure count of a buffer, byte 17 (R312). -/
def Can.setAttempt (c : Can) (b : Nat) (won fail : Bool) : Can :=
  let old := memGet c.ram (txOff b + 17)
  let n := fld old 0 5 + (if fail then 1 else 0)
  { c with ram := memPut c.ram (txOff b + 17) (BitVec.ofNat 8 (n % 32 + (if bit old 7 || won then 0x80 else 0))) }

/-- Failures counted of a buffer. -/
def Can.failures (c : Can) (b : Nat) : Nat := fld (memGet c.ram (txOff b + 17)) 0 5

/-- An attempt that failed: an aborted buffer completes, a buffer out of retries is dropped (R307). -/
def canFail (k : Fin 4) (b : Fin 32) (won counted : Bool) (s : State) : State :=
  let s1 := s.setCan k fun c => c.setAttempt b.val won counted
  if bit s.can[k].abortReq b.val then canComplete k b.val 2 s1
  else if s1.can[k].txRetry b.val + 1 ≤ s1.can[k].failures b.val then canComplete k b.val 3 s1
  else s1

/-- An attempt that succeeded: timestamp, SENT, the counter falls, ALONE ends (R307, R311, R313, R315). -/
def canSent (k : Fin 4) (b : Fin 32) (age : Nat) (s : State) : State :=
  let c := s.can[k]
  let own := c.mode == 4 || c.mode == 5 || c.mode == 6
  let s1 := s.setCan k fun c =>
    { c.setAttempt b.val true false with tec := c.tec - 1 }
  let s2 := s1.setCan k fun c =>
    { c with ram := memFill c.ram (txOff b.val + 8) (bytesLE 8 (sofStamp s age).toNat) }
  let s3 := if own then canStore k true (c.ownFrame b.val) age s2 else s2
  canState k (canAloneEnd k (canComplete k b.val 1 s3))

/-- The loop delay measured in a frame that a buffer sends: only FD frames with BRS are measured (R303). -/
def canDelay (s : State) (k : Fin 4) (b : Fin 32) (v : Option (BitVec 8)) : Option (BitVec 8) :=
  if s.can[k].txFdf b.val && s.can[k].txBrs b.val then v else none

/-- A measured loop delay goes to TDCV; beyond 127 TDC_RANGE is set, with its event (R303). -/
def canTdcv (k : Fin 4) (v : Option (BitVec 8)) (s : State) : State :=
  match v with
  | none => s
  | some v =>
    let s1 := s.setCan k fun c => { c with tdc := setFld c.tdc 16 7 (min v.toNat 127) }
    if 127 < v.toNat then canEvent k 9 0 (s1.setCan k fun c => { c with tdcRange := true }) else s1

/-- A loop delay beyond 127 clock periods, with which the frame ends with a bit error (R303). -/
def delayTooLong (v : Option (BitVec 8)) : Bool :=
  match v with
  | none => false
  | some v => decide (127 < v.toNat)

/-- A transmission attempt of a buffer ends; one that would be SENT ends with a bit error where the loop delay is too long
(R303, R307, R308, R315). -/
def canAttempt (k : Fin 4) (b : Fin 32) (e : TxEnd) (tdcv : Option (BitVec 8)) (age : Nat) (s : State) : State :=
  if !bit s.can[k].txPend b.val || !s.can[k].onBus || !canTxMode s.can[k].mode then s
  else match e with
  | .parity => canComplete k b.val 5 s
  | .sent =>
    let v := canDelay s k b tdcv
    if delayTooLong v then canFail k b true true (canTdcv k v s) else canSent k b age (canTdcv k v s)
  | .lost => canFail k b false (s.can[k].txArbCnt b.val) s
  | .error field type won =>
    let s1 := canFail k b won true (canTdcv k (canDelay s k b tdcv) s)
    if field = 6 ∧ type = 5 then
      let s2 := s1.setCan k fun c => { c with ackErrs := c.ackErrs + 1 }
      if s2.can[k].mode = 1 ∧ 16 ≤ s2.can[k].ackErrs ∧ s2.can[k].alone = false then canAlone k s2 else s2
    else s1

/-- The controller goes bus-off: event, count, and the recovery sequences are counted at once, or after 1 s on the
fifth bus-off within 10 s (R313). -/
def canBusOff (k : Fin 4) (s : State) : State :=
  let l := s.mono :: recent (sec 10) s.mono s.can[k].offs
  canEvent k 2 0 (s.setCan k fun c =>
    { c with st := if l.length < 5 then 5 else 4, offs := l, cntBusoff := satInc 255 c.cntBusoff })

/-- The error counters rise as ISO 11898-1 gives, PRESUMED: a transmitter's by 8, but not for an acknowledgement error
while error-passive; a receiver's by 1 or 8 (R313, log 12). -/
def canCount (k : Fin 4) (type : BitVec 4) (tx heavy : Bool) (s : State) : State :=
  let s1 := s.setCan k fun c =>
    if tx then (if type = 5 ∧ c.st = 3 then c else { c with tec := c.tec + 8 })
    else { c with recv := min 128 (c.recv + (if heavy then 8 else 1)) }
  if 255 < s1.can[k].tec then canBusOff k (s1.setCan k fun c => { c with tec := 255 })
  else canState k s1

/-- A frame received without error lowers the receive counter; from above 127 it falls to between 119 and 127, which
ISO 11898-1 leaves open (R313, log 12). -/
def canRecDown (k : Fin 4) (s : State) : State :=
  if 127 < s.can[k].recv then
    let v := 119 + s.freeVal.toNat % 9
    canState k ((s.setCan k fun c => { c with recv := v }).drew)
  else canState k (s.setCan k fun c => { c with recv := c.recv - 1 })

/-- A reset of LNK: requests are cleared, buffers and results are kept, the controller restarts OFF (R308). -/
def canReset (k : Fin 4) (s : State) : State :=
  let c := s.can[k]
  canStandby k (s.setCan k fun _ => { ram := c.ram, offs := c.offs })

/-- A read of a controller's register, without effect (ch. 12). -/
def canRead (s : State) (k : Fin 4) (off : Nat) : Option Word :=
  let c := if canPresent s k then s.can[k] else {}
  match off with
  | 0x000 => some (putB 4 c.pxd ||| putB 3 c.fdEn ||| put 0 3 (c.modeReq.getD c.mode))
  | 0x004 => some c.nbt
  | 0x008 => some c.dbt
  | 0x00C => some c.tdc
  | 0x010 => some (put 24 8 (min 255 c.tec) ||| put 17 7 (min 127 c.recv) ||| putB 6 c.tdcRange ||| putB 5 c.alone |||
      put 0 4 c.st)
  | 0x014 => some (put 12 4 c.errField ||| put 8 4 c.errType ||| putB 0 c.errTx)
  | 0x018 => some (put 24 8 c.cntBusoff ||| put 16 8 c.cntDbit ||| put 8 8 c.cntForeign ||| put 0 8 c.cntPxe)
  | 0x01C => some (put 16 16 c.hostOvr ||| put 8 8 c.imzOvr ||| put 0 8 c.rxParity)
  | 0x020 => some c.txPend
  | 0x024 => some c.abortReq
  | 0x028 => some c.txPend
  | 0x030 => some (BitVec.ofNat 32 c.rxNew.toNat)
  | 0x034 => some (BitVec.ofNat 32 (c.rxNew.toNat / 2 ^ 32))
  | 0x038 => some (put 16 6 c.head ||| put 0 16 c.frames.toNat)
  | _ => none

/-! ### Bit timing (R302) -/

/-- The three words of a segment's bit timing are within their ranges (R302, R353). -/
def canTimingOk (nbt dbt tdc : Word) : Bool :=
  let brp := fld nbt 0 8 + 1
  let seg1 := fld nbt 16 8 + 1
  let seg2 := fld nbt 8 7 + 1
  let sjw := fld nbt 24 7 + 1
  let dbrp := fld dbt 0 5 + 1
  let dseg1 := fld dbt 16 6 + 1
  let dseg2 := fld dbt 8 5 + 1
  let dsjw := fld dbt 24 5 + 1
  let nq := brp * (1 + seg1 + seg2)
  let dq := dbrp * (1 + dseg1 + dseg2)
  !bit nbt 31 && !bit nbt 15 && fld dbt 29 3 == 0 && fld dbt 22 2 == 0 && fld dbt 13 3 == 0 && fld dbt 5 3 == 0 &&
  fld tdc 16 15 == 0 && !bit tdc 15 && fld tdc 0 8 == 0 &&
  decide (2 ≤ seg1) && decide (2 ≤ seg2) && decide (2 ≤ dseg1) && decide (2 ≤ dseg2) && decide (sjw ≤ seg2) &&
  decide (dsjw ≤ dseg2) && decide (80 ≤ nq) && decide (10 ≤ dq) && decide (dq ≤ nq) &&
  (bit tdc 31 || decide (80 ≤ dq))

/-- A write of CAN_CTL: FD_EN and PXD are RWL, taken only in OFF; MODE is requested (R5, R305). -/
def canCtlWrite (src : Source) (k : Fin 4) (v : Word) (s : State) : Nat × State :=
  if !canPresent s k then (7, s)
  else if fld v 0 3 = 7 then (7, logWerr 9 src (canAddr k 0) s)
  else
    let c := s.can[k]
    let off := c.mode == 0 || s.bare
    let changes := bit v 4 != c.pxd || bit v 3 != c.fdEn
    let s1 := if off then s.setCan k fun c => { c with pxd := bit v 4, fdEn := bit v 3 } else s
    let s2 := s1.setCan k fun c => { c with modeReq := some (fld v 0 3) }
    if !off && changes then (7, logWerr 1 src (canAddr k 0) s2) else (0, s2)

/-- A write of a bit timing word: RWL, and only values that a recipe can hold (R104, R302). -/
def canTimeWrite (src : Source) (k : Fin 4) (off : Nat) (v : Word) (s : State) : Nat × State :=
  if !canPresent s k then (7, s)
  else
    let c := s.can[k]
    if !(c.mode == 0 || s.bare) then (7, logWerr 1 src (canAddr k off) s)
    else
      let nbt := if off = 4 then v else c.nbt
      let dbt := if off = 8 then v else c.dbt
      let tdc := if off = 12 then setFld v 16 7 0 else setFld c.tdc 16 7 0
      if canTimingOk nbt dbt tdc then
        (0, s.setCan k fun c => { c with nbt := nbt, dbt := dbt, tdc := setFld tdc 16 7 (fld c.tdc 16 7) })
      else (7, logWerr 9 src (canAddr k off) s)

/-- A word of a controller's message RAM, by its offset in the window (R312). -/
def canRamRead (s : State) (k : Fin 4) (off : Nat) : Word := BitVec.ofNat 32 (memNat s.can[k].ram off 4)

/-- A write into the window: a host's transmit buffer that is not pending takes it; IMZ's buffers and a pending one
answer REFUSED; any other place is read-only and logged (R306, R312). -/
def canRamWrite (src : Source) (k : Fin 4) (off : Nat) (v : Word) (s : State) : Nat × State :=
  if !canPresent s k then (7, s)
  else
    let b := off / 128
    if 32 ≤ b then (7, logWerr 6 src (0x110000 + 0x4000 * k.val + off) s)
    else if b < 28 then (7, logWerr 6 src (0x110000 + 0x4000 * k.val + off) s)
    else if bit s.can[k].txPend b then (7, s)
    else (0, s.setCan k fun c => { c with ram := memFill c.ram off (bytesLE 4 v.toNat) })

/-! ### Meanings -/

/-- CAN_TX_REQUEST (R306). -/
def execCanTxRequest (src : Source) (k : Fin 4) (mask : BitVec 32) (s : State) : Host.Outcome State Fault Refusal :=
  .next (canTxReq src k mask s)

/-- CAN_TX_ABORT (R307). -/
def execCanTxAbort (src : Source) (k : Fin 4) (mask : BitVec 32) (onBus : Option (Fin 32)) (s : State) :
    Host.Outcome State Fault Refusal := .next (canTxAbort src k mask onBus s)

/-- CAN_BUSOFF_RECOVERED (R313): error-active again with both counters at 0. -/
def execCanBusoffRecovered (k : Fin 4) (s : State) : Host.Outcome State Fault Refusal :=
  .next (if s.can[k].st = 4 ∨ s.can[k].st = 5 then
    canEvent k 3 0 (s.setCan k fun c => { c with st := 2, tec := 0, recv := 0 }) else s)

/-- CAN_MODE_WRITE (R305). -/
def execCanModeWrite (src : Source) (k : Fin 4) (mode : BitVec 3) (s : State) : Host.Outcome State Fault Refusal :=
  .next (canModeWrite src k mode s).2

/-- CAN_MODE_CHANGE (R305): the requested mode takes effect. -/
def execCanModeChange (k : Fin 4) (s : State) : Host.Outcome State Fault Refusal :=
  .next (match s.can[k].modeReq with | none => s | some m => canSetMode k m s)

/-- CAN_INTEGRATED (R305). -/
def execCanIntegrated (k : Fin 4) (s : State) : Host.Outcome State Fault Refusal :=
  .next (if s.can[k].st = 1 then canState k (s.setCan k fun c => { c with st := 2 }) else s)

end Sys2Proof.Machine
end

