-- ==== Sys2Proof/Machine/Pev.lean ====
section
/-! DEFINITION. Pev: the point pipeline's steps 1 to 7 (ch. 9): sources and quality, scaling, spike rejection, filter,
substitution, conditions, deviation sets, virtual points and terms. -/
namespace Sys2Proof.Machine

open Sys2Proof

/-- The state with one point replaced. -/
def State.setPt (s : State) (n : Fin 80) (f : Pnt → Pnt) : State :=
  { s with pev := { s.pev with pts := s.pev.pts.set n (f s.pev.pts[n]) } }

/-- The point of a slot number; a number beyond the slots names none. -/
def State.ptAt (s : State) (i : Nat) : Pnt := if h : i < 80 then s.pev.pts[i] else {}

/-! ### The POINTS section (R242 to R244) -/

/-- A field of a point's entry in a bank. -/
def bankPt (bank : Memory) (n off len : Nat) : Nat := bankNat bank secPOINTS (16 + 128 * n + off) len

/-- A field of a point's entry in the active recipe. -/
def State.pt (s : State) (n off len : Nat) : Nat := bankPt s.activeBank n off len

/-- A binary32 field of a point's entry. -/
def State.ptF (s : State) (n off : Nat) : Word := BitVec.ofNat 32 (s.pt n off 4)

/-- KIND: 0 no point, 1 analogue, 2 binary. -/
def State.ptKind (s : State) (n : Nat) : Nat := s.pt n 20 1
/-- OP. -/
def State.ptOp (s : State) (n : Nat) : Nat := s.pt n 21 1
/-- A bit of FLAGS: 0 NOINH, 1 RANGE_LIM, 2 ALM_LEVEL, 3 FAULT_ALM, 4 LOGIC_FORM, 5 BLK_FORM. -/
def State.ptFlag (s : State) (n i : Nat) : Bool := (s.pt n 22 1).testBit i
/-- Category (R13). -/
def State.ptCat (s : State) (n : Nat) : Nat := s.pt n 23 1 % 4
/-- DEV_SET. -/
def State.ptDevSet (s : State) (n : Nat) : Nat := s.pt n 23 1 / 16
/-- A bit of ENABLES. -/
def State.ptEn (s : State) (n i : Nat) : Bool := (s.pt n 25 1).testBit i
/-- A delay field in ticks: 0.1 s units (R243). -/
def State.ptDly (s : State) (n off : Nat) : Nat := s.pt n off 2 * ms 100

/-- A slot has a point. -/
def State.ptUsed (s : State) (n : Nat) : Bool := decide (n < 80) && s.ptKind n != 0

/-- A term of the POINTS section (R244). -/
structure Term where
  slot : Nat
  invert : Bool
  test : Nat
  group : Nat
  fail : Bool
  k : Word
deriving DecidableEq, Repr

/-- Term `i` of a bank. -/
def bankTerm (bank : Memory) (i : Nat) : Term :=
  let b := fun j => bankNat bank secPOINTS (14544 + 8 * i + j) 1
  { slot := b 0 % 128, invert := (b 0).testBit 7, test := b 1, group := b 2 % 4, fail := (b 2).testBit 4,
    k := BitVec.ofNat 32 (bankNat bank secPOINTS (14544 + 8 * i + 4) 4) }

/-- The terms that an expression uses: its first and its count. -/
def State.terms (s : State) (first count : Nat) : List Term :=
  (List.range count).map fun i => bankTerm s.activeBank (first + i)

/-- MIN_MEMBERS of deviation set `k`, 0 for an unused set (R244). -/
def State.devMin (s : State) (k : Nat) : Nat := s.cfgNat secPOINTS (10256 + 16 * (k - 1)) 1

/-- DEV_MIN of deviation set `k`. -/
def State.devGate (s : State) (k : Nat) : Word := s.cfgWord secPOINTS (10256 + 16 * (k - 1) + 4)

/-- The breakpoints of linearisation table `k` (R244). -/
def State.tablePairs (s : State) (k : Nat) : List (Word × Word) :=
  let o := 10384 + 260 * (k - 1)
  (List.range (s.cfgNat secPOINTS o 1)).map fun i =>
    (s.cfgWord secPOINTS (o + 4 + 8 * i), s.cfgWord secPOINTS (o + 8 + 8 * i))

/-! ### Quality (R11, R219, R220) -/

/-- The place of a quality in the order of R219, the first of which applies. -/
def qualRank : Nat → Nat
  | 6 => 0
  | 4 => 1
  | 7 => 2
  | 2 => 3
  | 3 => 4
  | 5 => 5
  | 1 => 6
  | _ => 7

/-- The quality that comes first in the order of R219. -/
def qualWorse (a b : Nat) : Nat := if qualRank a ≤ qualRank b then a else b

/-- GOOD or UNCERTAIN. -/
def qualOk (q : Nat) : Bool := q == 0 || q == 1

/-- A value is usable (R220). -/
def usableQ (rangeLim : Bool) (q : Nat) : Bool := qualOk q || (q == 3 && rangeLim)

/-- The value of a slot is usable at its quality (R220). -/
def State.usableAt (s : State) (n q : Nat) : Bool := usableQ (s.ptFlag n 1) q

/-! ### Step 1: sources (R212, R218) -/

/-- A source as a scan finds it: its integer, quality, value timestamp and period in ticks; whether it delivers with
every scan, else the number of its results and the TCXO count at the last one. -/
structure SrcNow where
  value : Int
  qual : Nat
  time : Nat
  period : Nat
  each : Bool
  count : Nat
  last : Nat
deriving DecidableEq, Repr

/-- Conversion period by `UI_CFG0.RATE` (R106). -/
def uiPeriod : Nat → Nat
  | 0 => ms 100
  | 1 => ms 50
  | 2 => ms 40
  | 3 => ms 20
  | 4 => ms 10
  | 5 => ms 5
  | 6 => ms 2
  | _ => ms 1

/-- A result that ended at or after the scan start does not count; the one before it does (R215). -/
def endedBefore (start : Nat) (old : Prior) (src : SrcNow) : SrcNow :=
  if start ≤ src.time ∧ old.time < start then
    { src with value := old.value, qual := if src.qual = 4 then 4 else old.qual, time := old.time, count := old.count,
               last := old.mono }
  else src

/-- The source of a slot below 40 (R212); an island that is OPEN as the standby's carries the active unit's current
(R145). -/
def ptSource (s : State) (n : Nat) : SrcNow :=
  if h : n < 16 then
    let c : Fin 16 := ⟨n, h⟩
    let u := s.ui[c]
    endedBefore s.pev.start u.prior
      { value := uiVal s c, qual := uiQual s c, time := u.valTime, period := uiPeriod (fld u.cfg[0] 0 4), each := false,
        count := u.results, last := u.valMono }
  else if h : n < 20 then
    let c : Fin 4 := ⟨n - 16, by omega⟩
    let a := s.ao[c]
    endedBefore s.pev.start a.prior
      { value := if s.standby && aoCode s c == 4 then a.epochCurr else a.curr, qual := aoQual s c, time := a.cycTime,
        period := ms (cycleMs a.clk), each := false, count := a.cycles.toNat, last := a.cycMono }
  else if h : n < 36 then
    let d := s.dio[n - 20]
    { value := if d.level then 1 else 0, qual := dioQual s ⟨n - 20, by omega⟩, time := ticksOf d.edge, period := ms 1,
      each := true, count := 0, last := 0 }
  else
    let c : Fin 2 := if n < 38 then 0 else 1
    let p := s.ps[c]
    let speed := decide (n % 2 = 0)
    { value := if speed then p.speedValue else p.posValue,
      qual := if speed then psQual s c (fun _ => p.snapSQ) else psQual s c (fun _ => p.snapPQ),
      time := s.pev.start, period := 0, each := true, count := 0, last := 0 }

/-- The block of a slot below 40 is stopped (R131, R160, R190, R209). -/
def ptStopped (s : State) (n : Nat) : Bool :=
  if h : n < 16 then uiStopped s ⟨n, h⟩
  else if n < 20 then s.aoBlk.stop
  else if h : n < 36 then (dioGrp s ⟨n - 20, by omega⟩).stop
  else s.psBlk.stop

/-- The crumb hold that an island reports with its results, in ticks (R218). -/
def ptHold (s : State) (n : Nat) : Nat :=
  if h : n < 16 then (if s.ui[n].crumbed then 2 * uiPeriod (fld s.ui[n].cfg[0] 0 4) else 0) else 0

/-- The expected refresh period of a slot below 40 (R218). -/
def ptRefresh (s : State) (n : Nat) (src : SrcNow) : Nat :=
  2 * max (scanTicksOf s.scanCode) src.period + ms 5 + ptHold s n

/-- Step 1 has a new value: the source delivered one before the scan start (R215). -/
def srcIsNew (p : Pnt) (src : SrcNow) : Bool := src.each || !p.begun || src.count != p.serial

/-- The snapshot of a source: the value that it delivered last, and its quality as it stands (R212, R215); a source that
delivers results is timed from the last one (R218). -/
def Pnt.latch (p : Pnt) (src : SrcNow) (mono : Nat) : Pnt :=
  if srcIsNew p src then
    { p with srcInt := BitVec.ofInt 32 src.value, srcQual := src.qual, serial := src.count, fresh := true,
             lastNew := if src.each || src.count = 0 then mono else src.last, stale := false, begun := true }
  else { p with srcQual := src.qual, fresh := false }

/-- The field domain of a slot below 40, as the ledger's item less 40 (R469). -/
def fieldDomain (n : Nat) : Nat :=
  if n < 20 then n else if n < 28 then 20 else if n < 36 then 21 else if n < 38 then 22 else 23

/-- Quality of step 1 (R218, R219): BAD_COMM comes before STALE, which an absent region or a stopped block gives at
once; a domain whose barrier is below 20 MΩ makes GOOD UNCERTAIN (R476),
and so does a back plate at +110 °C for UI and AO channels (R78). -/
def ptQuality (s : State) (n : Nat) (src : SrcNow) (p : Pnt) : Nat :=
  if src.qual = 4 then 4
  else if !regionUp rACQ s || ptStopped s n then 7
  else
    let q0 := p.srcQual
    let q := if s.age.lowBar.getLsbD (fieldDomain n) ∨ (n < 20 ∧ s.sup.temp = .over110) then qualWorse q0 1 else q0
    if p.stale ∨ p.lastNew + ptRefresh s n src < s.mono then qualWorse q 7 else q

/-! ### Step 2: linearisation and scaling (R221) -/

/-- Linear interpolation along the segment between two breakpoints, in the order of R221's formula. -/
def onSegment (a b : Word × Word) (x : Word) : Word :=
  f32Add a.2 (f32Div (f32Mul (f32Sub x a.1) (f32Sub b.2 a.2)) (f32Sub b.1 a.1))

/-- A linearisation table: inside it interpolated, outside extrapolated along the first or last segment (R221). -/
def interpolate : List (Word × Word) → Word → Word
  | a :: b :: rest, x => if rest = [] ∨ f32Lt x b.1 then onSegment a b x else interpolate (b :: rest) x
  | _, x => x

/-- Step 2 for a slot below 40: the scaled value of a source integer (R221); a binary point skips it. -/
def scaled (s : State) (n : Nat) (v : Int) : Word :=
  let x := f32OfNum v
  if s.ptKind n = 2 then x
  else
    let y := if s.pt n 24 1 = 0 then x else interpolate (s.tablePairs (s.pt n 24 1)) x
    f32Add (f32Mul (s.ptF n 32) y) (s.ptF n 36)

/-! ### Step 3: spike rejection and filter (R222, R223) -/

/-- Two values differ by more than a threshold (R222). -/
def farApart (a b thr : Word) : Bool := f32Lt thr (f32Abs (f32Sub a b))

/-- The value and timestamp that step 3 passes on to the filter, and the point's spike state (R222). -/
def Pnt.spike (p : Pnt) (thr x : Word) (ts : Nat) (usable : Bool) : Pnt × Word × Nat :=
  if !usable then (if p.fresh then { p with held := none } else p, x, ts)
  else match p.acc with
  | none => ({ p with acc := some (x, ts), held := none }, x, ts)
  | some a =>
    if thr &&& 0x7FFFFFFF = 0 then ({ p with acc := some (x, ts), held := none }, x, ts)
    else if !p.fresh then (p, a.1, a.2)
    else
      let far := farApart x a.1 thr
      match p.held with
      | some h =>
        if far then ({ p with acc := some (x, ts), held := none }, x, h.2)
        else ({ p with acc := some (x, ts), held := none, spikes := satInc 255 p.spikes }, x, ts)
      | none =>
        if far then ({ p with held := some (x, ts) }, a.1, a.2)
        else ({ p with acc := some (x, ts) }, x, ts)

/-- The series of e^(-n/d) up to its `k`th term, in units of 2^-200. -/
def expSeries (n d : Nat) : Nat → Nat → Int → Int
  | 0, _, _ => 0
  | fuel + 1, k, t => t + expSeries n d fuel (k + 1) (-(t * n / (d * (k + 1) : Nat)))

/-- α = 1 − e^(−T/τ) as the nearest binary32 (R223). -/
def alphaOf (scan tau : Nat) : Word := f32OfRat (2 ^ 200 - expSeries scan tau 60 0 (2 ^ 200)) (2 ^ 200)

/-- The filter one scan on: its new state and output (R223). -/
def Pnt.filter (p : Pnt) (scan tau : Nat) (x : Word) (usable : Bool) : Pnt × Word :=
  if tau = 0 then ({ p with filt := if usable then some x else none }, x)
  else if !usable then ({ p with filt := none }, p.meas)
  else match p.filt with
  | none => ({ p with filt := some x }, x)
  | some y =>
    let z := f32Add y (f32Mul (alphaOf scan (tau * ms 100)) (f32Sub x y))
    ({ p with filt := some z }, z)

/-! ### Steps 5 and 6 (R226, R227) -/

/-- A bit of the nine conditions. -/
def cndBit (i : Nat) (b : Bool) : BitVec 9 := if b then BitVec.ofNat 9 (2 ^ i) else 0

/-- The conditions with one replaced. -/
def cndPut (c : BitVec 9) (i : Nat) (b : Bool) : BitVec 9 := (c &&& ~~~(cndBit i true)) ||| cndBit i b

/-- A condition that sets at its threshold and clears below another figure. -/
def holdsHigh (held : Bool) (v set' clear : Word) : Bool := if held then !f32Lt v clear else f32Le set' v

/-- A limit from above: HH or H (R226). -/
def limitHigh (s : State) (n i off hys : Nat) (y : Word) (c : BitVec 9) : BitVec 9 :=
  cndPut c i (s.ptEn n i && holdsHigh (bit c i) y (s.ptF n off) (f32Sub (s.ptF n off) (s.ptF n hys)))

/-- A limit from below: L or LL (R226). -/
def limitLow (s : State) (n i off hys : Nat) (y : Word) (c : BitVec 9) : BitVec 9 :=
  cndPut c i (s.ptEn n i && holdsHigh (bit c i) (f32Negate y) (f32Negate (s.ptF n off))
    (f32Negate (f32Add (s.ptF n off) (s.ptF n hys))))

/-- Step 5 of an analogue point (R226). -/
def limits (s : State) (n : Nat) (y : Word) (c : BitVec 9) : BitVec 9 :=
  limitLow s n 2 60 76 y (limitLow s n 0 56 72 y (limitHigh s n 1 52 68 y (limitHigh s n 3 48 64 y c)))

/-- Step 5 of a binary point: STATE (R226). -/
def stateCond (s : State) (n : Nat) (y : Word) (c : BitVec 9) : BitVec 9 :=
  cndPut c 8 (f32Eq y (if s.ptFlag n 2 then 0x3F800000 else 0))

/-- The nearest whole number of a quotient; halfway the spec names neither (R227, log 4). -/
def openRound (n d : Nat) : Nat :=
  if 2 * (n % d) = d then n / d + (if Config.roundUp n d then 1 else 0)
  else if d < 2 * (n % d) then n / d + 1 else n / d

/-- Base scans between samples of the rate of change (R227). -/
def rocInterval (win scan : Nat) : Nat := max 1 (openRound (win * ms 100) (8 * scan))

/-- The rate of change over the history, in units per second; after a step of system time the two scan starts may stand
in either order (R227). -/
def rateOf (y : Word) (start : Nat) (old : Word × Nat) : Word :=
  f32Div (f32Sub y old.1) (f32OfRat ((start : Int) - old.2) ticksPerSec)

/-- 80 % of a rate threshold (R227). -/
def eightTenths (w : Word) : Word := f32Div (f32Mul 0x40800000 w) 0x40A00000

/-- The sample history after this scan (R227). -/
def Pnt.sample (p : Pnt) (interval start : Nat) (y : Word) : Pnt :=
  let h := if p.hist = [] ∨ interval ≤ p.histCnt then (p.hist ++ [(y, start)]) else p.hist
  let cnt := if p.hist = [] ∨ interval ≤ p.histCnt then 1 else p.histCnt + 1
  { p with hist := h.drop (h.length - 8), histCnt := cnt }

/-- ROC_UP and ROC_DN (R227). -/
def rateConds (s : State) (n : Nat) (r : Word) (c : BitVec 9) : BitVec 9 :=
  let up := s.ptF n 80
  let dn := s.ptF n 84
  let c1 := cndPut c 4 (s.ptEn n 4 && holdsHigh (bit c 4) r up (eightTenths up))
  cndPut c1 5 (s.ptEn n 5 && holdsHigh (bit c1 5) (f32Negate r) dn (eightTenths dn))

/-- Step 6 (R227); an infinite rate keeps the previous value and gives BAD_RANGE (R211). -/
def rateStep (s : State) (n start : Nat) (y : Word) (p : Pnt) : Pnt :=
  let win := s.pt n 42 2
  if win = 0 then { p with rate := 0, conds := cndPut (cndPut p.conds 4 false) 5 false }
  else
    let p1 := p.sample (rocInterval win (scanTicksOf s.scanCode)) start y
    match p1.hist with
    | old :: _ =>
      if p1.hist.length < 8 then { p1 with rate := 0 }
      else
        let r := rateOf y start old
        if f32Finite r then { p1 with rate := r, conds := rateConds s n r p1.conds }
        else { p1 with value := s.ptAt n |>.value, qual := 3, usable := usableQ (s.ptFlag n 1) 3 }
    | [] => p1

/-! ### Steps 3 to 6 -/

/-- The point keeps its value: there is no new number to work on, or step 2 gave an infinity or a NaN (R211, R218). -/
def Pnt.keeps (p : Pnt) (usable : Bool) : Pnt :=
  { p with filt := if usable then p.filt else none, held := if usable || !p.fresh then p.held else none }

/-- Steps 3 and 4's input: the filtered value, its timestamp and quality (R211, R213, R222, R223). -/
def filtered (s : State) (n : Nat) (x : Option Word) (q ts : Nat) (p : Pnt) : Pnt × Nat :=
  match x with
  | none => (p.keeps (s.usableAt n q), q)
  | some x =>
    if !f32Finite x then let q1 := qualWorse q 3; (p.keeps (s.usableAt n q1), q1)
    else if s.ptKind n = 2 then ({ p with meas := x, vts := ts }, q)
    else
      let us := s.usableAt n q
      let (p1, x1, t1) := p.spike (s.ptF n 44) x ts us
      let (p2, y) := p1.filter (scanTicksOf s.scanCode) (s.pt n 40 2) x1 us
      if f32Finite y then ({ p2 with meas := y, vts := t1 }, q)
      else let q1 := qualWorse q 3; ({ p2.keeps (s.usableAt n q1) with filt := p.filt, vts := t1 }, q1)

/-- Steps 4 to 6 on a filtered point (R220, R224, R226, R227). -/
def evaluated (s : State) (n start q : Nat) (p : Pnt) : Pnt :=
  let us := s.usableAt n q
  let p1 := { p with qual := q, usable := us, value := p.meas }
  if p.oos then { p1 with value := p.subst, qual := 6, hist := [], histCnt := 0, rate := 0 }
  else if !us then { p1 with hist := [], histCnt := 0, rate := 0 }
  else if s.ptKind n = 2 then { p1 with conds := stateCond s n p1.meas p1.conds }
  else rateStep s n start p1.meas { p1 with conds := limits s n p1.meas p1.conds }

/-- Steps 3 to 6 of a point from step 2's value, quality and value timestamp (R217). -/
def finishPoint (s : State) (n start : Nat) (x : Option Word) (q ts : Nat) (p : Pnt) : Pnt :=
  let (p1, q1) := filtered s n x q ts p
  evaluated s n start q1 p1

/-- A transfer failed since the last scan: the point keeps its value, with quality BAD_COMM (R51, R57). -/
def lostPoint (s : State) (n start : Nat) (p : Pnt) : Pnt :=
  finishPoint s n start none 4 p.vts { p with commLost := false, fresh := false }

/-- Phase B for one slot: steps 1 to 6 (R215). A stale value, and one latched before, keeps its timestamp. -/
def physPoint (s : State) (n : Fin 80) : State :=
  let start := s.pev.start
  let src := ptSource s n.val
  s.setPt n fun p0 =>
    let p := if regionUp rACQ s && !ptStopped s n.val then p0.latch src s.mono else { p0 with fresh := false }
    let q := ptQuality s n.val src p
    if p0.commLost then lostPoint s n.val start p0
    else if q = 7 then finishPoint s n.val start none 7 p.vts p
    else
      finishPoint s n.val start (some (scaled s n.val p.srcInt.toInt)) q (if p.fresh then src.time else p.vts) p

/-! ### Terms (R229) -/

/-- A term's result, and whether its FAIL bit gave it. In phase E a point is seen with the quality it publishes
(R216). -/
def termVal (s : State) (phaseE : Bool) (t : Term) : Bool × Bool :=
  let p := s.ptAt t.slot
  let q := if phaseE then p.pq else p.qual
  if t.test ≤ 3 ∧ s.usableAt t.slot q = false then (t.fail != t.invert, true)
  else
    let r := match t.test with
      | 0 => !f32Eq p.value 0
      | 1 => f32Le t.k p.value
      | 2 => f32Lt p.value t.k
      | 3 => p.conds != 0
      | 4 => qualOk q
      | _ => p.grpSt == 2 || p.grpSt == 3 || p.grpSt == 4
    (r != t.invert, false)

/-- The expression over term results: form 0 an OR of ANDs over groups, form 1 an AND of ORs; groups without terms take
no part (R229). -/
def combine (form : Bool) (ts : List (Nat × Bool)) : Bool :=
  let gs := (List.range 4).filter fun g => ts.any fun t => t.1 == g
  if form then gs.all fun g => ts.any fun t => t.1 == g && t.2
  else gs.any fun g => ts.all fun t => t.1 != g || t.2

/-- Every way the results that FAIL bits gave could have been. -/
def failWays : List (Nat × Bool × Bool) → List (List (Nat × Bool))
  | [] => [[]]
  | (g, v, f) :: rest =>
    let r := failWays rest
    if f then r.map (fun l => (g, v) :: l) ++ r.map (fun l => (g, !v) :: l) else r.map fun l => (g, v) :: l

/-- An expression's result, and whether a FAIL bit decided it: with another value of the terms that were not usable it
would differ (R229, R241). -/
def exprVal (s : State) (phaseE form : Bool) (first count : Nat) : Bool × Bool :=
  let ts := (s.terms first count).map fun t => let r := termVal s phaseE t; (t.group, r.1, r.2)
  let v := combine form (ts.map fun t => (t.1, t.2.1))
  (v, (failWays ts).any fun w => combine form w != v)

/-! ### Virtual points (R240, R241) -/

/-- Value, quality and value timestamp of operators 1 to 6; none where too few inputs are usable (R241). -/
def operatorVal (s : State) (n op : Nat) (p : Pnt) : Option Word × Nat × Nat :=
  let ts := s.terms (s.pt n 26 2) (s.pt n 28 1)
  let ok := ts.filter fun t => qualOk (s.ptAt t.slot).qual
  let minGood := s.pt n 29 1
  let need := if minGood = 0 ∨ op = 6 then ts.length else minGood
  if ok.length < need then
    (none, if ts.any fun t => (s.ptAt t.slot).qual == 4 then 4 else 2, p.vts)
  else
    let w := ok.map fun t => f32Mul (s.ptAt t.slot).value t.k
    let mn := w.foldl (fun a x => match a with | none => some x | some m => some (if f32Lt x m then x else m)) none
    let mx := w.foldl (fun a x => match a with | none => some x | some m => some (if f32Lt m x then x else m)) none
    let sum := w.foldl f32Add 0
    let v := match op with
      | 1 => sum
      | 2 => f32Div sum (f32OfNum w.length)
      | 3 => mn.getD 0
      | 4 => mx.getD 0
      | 5 => f32Sub (mx.getD 0) (mn.getD 0)
      | _ => f32Sub (w.getD 0 0) (w.getD 1 0)
    let unc := decide (ok.length < ts.length) || ok.any fun t => (s.ptAt t.slot).qual == 1
    (some v, if unc then 1 else 0, ok.foldl (fun a t => max a (s.ptAt t.slot).vts) 0)

/-- The whole number that a placeholder term's K names (R240). -/
def termNumber (t : Term) : Nat := (f32Int t.k / 2 ^ 149).toNat

/-- The number that the single term of a DEV_OF_SET or GROUP point names. -/
def State.ptNumber (s : State) (n : Nat) : Nat := termNumber (bankTerm s.activeBank (s.pt n 26 2))

/-- The greatest deviation in a set in this scan, 0 when none is computed (R240). -/
def devOfSet (s : State) (k : Nat) : Word :=
  (List.range 80).foldl (fun a i =>
    let p := s.ptAt i
    if s.ptUsed i ∧ s.ptDevSet i = k ∧ p.devOk ∧ f32Lt a (f32Abs p.dev) then f32Abs p.dev else a) 0

/-- A group's record; an unlisted group stands at its start. -/
def GrpBlk.get (g : GrpBlk) (k : Nat) : Grp := tblGet {} g.groups k

/-- Phase C for one slot, and the DEV_OF_SET points after phase D: operator, then steps 3 to 6 (R215, R240). -/
def virtPoint (s : State) (n : Fin 80) : State :=
  let start := s.pev.start
  let op := s.ptOp n.val
  let p := { s.pev.pts[n] with fresh := true, begun := true, srcInt := 0 }
  let r : Option Word × Nat × Nat :=
    if op = 7 then (some (devOfSet s (s.ptNumber n.val)), 0, start)
    else if op = 9 then (some (f32OfNum (s.grp.get (s.ptNumber n.val)).posted), 0, start)
    else if op = 8 then
      let e := exprVal s false (s.ptFlag n.val 4) (s.pt n.val 26 2) (s.pt n.val 28 1)
      let t := (s.terms (s.pt n.val 26 2) (s.pt n.val 28 1)).foldl (fun a t => max a (s.ptAt t.slot).vts) 0
      (some (if e.1 then 0x3F800000 else 0), if e.2 then 1 else 0, t)
    else operatorVal s n.val op p
  s.setPt n fun p0 => if p0.commLost then lostPoint s n.val start p0 else finishPoint s n.val start r.1 r.2.1 r.2.2 p

/-! ### Step 7: deviation sets (R228) -/

/-- The usable members of a set, rising. -/
def devMembers (s : State) (k : Nat) : List (Fin 80) :=
  (List.finRange 80).filter fun i =>
    s.ptKind i.val == 1 && s.ptDevSet i.val == k && qualOk s.pev.pts[i].qual

/-- The mean of values, summed in slot order. -/
def meanOf (ws : List Word) : Word := f32Div (ws.foldl f32Add 0) (f32OfNum ws.length)

/-- DEV_HI and DEV_LO of a member (R228). -/
def devConds (s : State) (n : Nat) (d : Word) (c : BitVec 9) : BitVec 9 :=
  let hi := s.ptF n 88
  let lo := s.ptF n 92
  let hys := s.ptF n 96
  let c1 := cndPut c 6 (s.ptEn n 6 && holdsHigh (bit c 6) d hi (f32Sub hi hys))
  cndPut c1 7 (s.ptEn n 7 && holdsHigh (bit c1 7) (f32Negate d) lo (f32Sub lo hys))

/-- Step 7 of one member: `d`, judged unless the gate is closed (R228); an infinity keeps the value of the scan before
and gives BAD_RANGE (R211). -/
def devMember (s : State) (mem : List (Fin 80)) (gate : Bool) (old : Word) (n : Fin 80) (p : Pnt) : Pnt :=
  let d := f32Sub p.meas (meanOf ((mem.filter (· ≠ n)).map fun i => s.pev.pts[i].meas))
  if !f32Finite d then { p with value := old, qual := 3, usable := usableQ (s.ptFlag n.val 1) 3 }
  else { p with dev := d, devOk := true,
                conds := if gate then cndPut (cndPut p.conds 6 false) 7 false else devConds s n.val d p.conds }

/-- Phase D for one set (R228); `was` holds the points as the scan before left them. -/
def devSet (was : Vector Pnt 80) (s : State) (k : Nat) : State :=
  let mem := devMembers s k
  if s.devMin k = 0 ∨ mem.length < s.devMin k then s
  else
    let gate := f32Lt (meanOf (mem.map fun i => s.pev.pts[i].meas)) (s.devGate k)
    mem.foldl (fun a n => a.setPt n (devMember s mem gate was[n].value n)) s

/-- Deviation conditions of a point cannot be judged: its set has too few usable members (R228). -/
def devTooFew (s : State) (n : Nat) : Bool :=
  s.ptDevSet n != 0 && decide ((devMembers s (s.ptDevSet n)).length < s.devMin (s.ptDevSet n))

/-! ### Phases B to D -/

/-- Slots of a range that hold a point. -/
def slotsIn (s : State) (lo hi : Nat) : List (Fin 80) :=
  (List.finRange 80).filter fun i => decide (lo ≤ i.val) && decide (i.val < hi) && s.ptUsed i.val

/-- A virtual point reads phase D's deviations, itself or through inputs of lower slots, which it sees as this scan leaves
them (R216, R240). -/
def readsDev (s : State) (late : List Nat) (n : Nat) : Bool :=
  s.ptOp n == 7 || (s.ptOp n != 9 && (s.terms (s.pt n 26 2) (s.pt n 28 1)).any fun t => late.contains t.slot)

/-- The virtual points that follow phase D, rising. -/
def lateSlots (s : State) : List Nat :=
  (slotsIn s 40 80).foldl (fun l n => if readsDev s l n.val then l ++ [n.val] else l) []

/-- Phases B, C and D of a scan (R215); the points that read phase D's deviations follow it (R240). -/
def pevPhases (s : State) : State :=
  let s0 := { s with pev := { s.pev with pts := s.pev.pts.map fun p => { p with dev := 0, devOk := false } } }
  let s1 := (slotsIn s0 0 40).foldl physPoint s0
  let late := lateSlots s
  let s2 := ((slotsIn s1 40 80).filter fun i => !late.contains i.val).foldl virtPoint s1
  let s3 := (List.range 8).foldl (fun a k => devSet s.pev.pts a (k + 1)) s2
  ((slotsIn s3 40 80).filter fun i => late.contains i.val).foldl virtPoint s3

end Sys2Proof.Machine
end

