-- ==== Sys2Proof/Machine/Points.lean ====
section
/-! DEFINITION. Points: annunciation states, point addresses, the point table and transition entries as bytes (R9, R246,
R250, R262, R328). -/
namespace Sys2Proof.Machine

open Sys2Proof

/-- The annunciation state that a point's flags give (R250). -/
def annState (f : BitVec 8) : Nat :=
  if bit f 7 then 7
  else if bit f 6 then 6
  else if bit f 4 || bit f 5 then 8
  else if bit f 1 then (if bit f 2 then 2 else 3)
  else if bit f 2 then 4
  else if bit f 3 then 5
  else if bit f 0 then 1
  else 0

/-- FAULT unacknowledged. -/
def faultUnack (f : BitVec 8) : Bool := annState f == 8 && bit f 5

/-- A point is unacknowledged: ALARM_UNACK, RETURN_UNACK, or FAULT unacknowledged (ALM_SUM, R277). -/
def annUnack (f : BitVec 8) : Bool := annState f == 2 || annState f == 4 || faultUnack f

/-- A state code as R12 reads it: 9 to 15 as FAULT. -/
def knownState (st : Nat) : Nat := if 8 < st then 8 else st

/-- The annunciation state of a slot: a channel's slot without a point is OUT_OF_SERVICE (R93, R213). -/
def State.slotState (s : State) (n : Nat) : Nat :=
  if s.ptUsed n then annState (s.ptAt n).flags else if n < 40 then 7 else 0

/-- The published quality of a slot: a channel's slot without a point is BAD_SENSOR (R93). -/
def State.slotQual (s : State) (n : Nat) : Nat :=
  if s.ptUsed n then (s.ptAt n).pq else if n < 40 then 2 else 0

/-- Global point address of a slot of a node (R9). -/
def pointAddr (node : Half) (slot : Nat) : Nat := node.toNat * 128 + slot

/-- Global address of an own slot. -/
def State.ownAddr (s : State) (slot : Nat) : Nat := pointAddr s.nodeNum slot

/-- The node of a point address (R9). -/
def addrNode (a : Nat) : Half := BitVec.ofNat 16 (a / 128)

/-- The slot of a point address (R9). -/
def addrSlot (a : Nat) : Nat := a % 128

/-- An onset that is shown: 0 when none. -/
def Pnt.onsetShown (p : Pnt) : Ts := if p.stage = .idle then 0 else stampOf p.onset

/-- The expiry of the running delay: on-delay, off-delay or release delay; 0 when none (R246). -/
def Pnt.expiryShown (p : Pnt) : Ts :=
  if p.stage = .onDelay ∨ p.stage = .offDelay then stampOf p.expiry
  else match p.relEnd with
  | some e => stampOf e
  | none => 0

/-- Code of a stage (R246). -/
def Stage.code : Stage → Nat
  | .idle => 0
  | .onDelay => 1
  | .active => 2
  | .offDelay => 3

/-- Bytes 38 and 39 of a point's record (R246). -/
def Pnt.marks (p : Pnt) : Nat :=
  p.conds.toNat + (if p.fault then 2 ^ 9 else 0) + (if p.expr then 2 ^ 10 else 0) + (if p.blocked then 2 ^ 11 else 0) +
  (if p.inh then 2 ^ 12 else 0) + (if p.held.isSome then 2 ^ 13 else 0) + (if p.oos then 2 ^ 14 else 0) +
  (if p.pend then 2 ^ 15 else 0)

/-- The cause shown: the condition's, else FAULT while the fault condition holds (R231). -/
def Pnt.causeShown (p : Pnt) : Nat := if p.stage ≠ .idle then p.cause else if p.fault then 10 else 0

/-- A point's record of 128 bytes (R246). -/
def pointRecord (s : State) (n : Nat) : List Byte :=
  let p := s.ptAt n
  if s.ptUsed n then
    bytesLE 4 p.value.toNat ++ bytesLE 4 p.meas.toNat ++ bytesLE 8 (stampOf p.vts).toNat ++
    bytesLE 8 p.onsetShown.toNat ++ bytesLE 8 p.expiryShown.toNat ++ bytesLE 4 p.scan.toNat ++ bytesLE 1 p.pq ++
    bytesLE 1 (annState p.flags + 16 * s.ptCat n) ++ bytesLE 2 p.marks ++
    bytesLE 1 (p.causeShown + 16 * p.stage.code) ++ bytesLE 1 p.spikes ++ bytesLE 2 0 ++ bytesLE 4 p.rate.toNat ++
    bytesLE 4 p.dev.toNat ++ bytesLE 4 p.subst.toNat ++ bytesLE 4 p.srcInt.toNat ++ List.replicate 68 0
  else if n < 40 then emptyRecord
  else List.replicate 128 0

/-- The whole point table is posted, as one step (R247). -/
def tablePost (s : State) : State := { s with pev := { s.pev with table := Vector.ofFn fun i => pointRecord s i.val } }

/-- The record of a slot as the point table shows it. -/
def State.tableAt (s : State) (n : Nat) : List Byte := if h : n < 80 then s.pev.table[n] else []

/-- A transition entry's 32 bytes (R262). -/
def entryBytes (e : TrEntry) : List Byte :=
  bytesLE 4 (e.addr % 2 ^ 23 + 2 ^ 23 * (e.event % 32) + (if e.hidden then 2 ^ 28 else 0) +
    (if e.unlocked then 2 ^ 29 else 0) + (if e.replay then 2 ^ 30 else 0) + (if e.resync then 2 ^ 31 else 0)) ++
  bytesLE 8 e.time.toNat ++ bytesLE 8 e.onset.toNat ++ bytesLE 1 (e.before % 16 + 16 * (e.after % 16)) ++
  bytesLE 1 (e.cause % 16 + 16 * (e.cat % 4)) ++ bytesLE 1 e.origin ++
  bytesLE 1 (e.qual % 8 + (if e.loc then 8 else 0)) ++ bytesLE 4 e.value.toNat ++ bytesLE 2 e.seq.toNat ++
  bytesLE 2 e.detail.toNat

/-- `n` bytes of a frame from an offset, as a number. -/
def dataNat (d : List Byte) (off n : Nat) : Nat := ofBytesLE ((d.drop off).take n)

/-- The transition entry that 32 bytes hold (R262). -/
def entryOf (d : List Byte) : TrEntry :=
  let h := dataNat d 0 4
  { addr := h % 2 ^ 23, event := h / 2 ^ 23 % 32, hidden := h.testBit 28, unlocked := h.testBit 29,
    replay := h.testBit 30, resync := h.testBit 31, time := BitVec.ofNat 64 (dataNat d 4 8),
    onset := BitVec.ofNat 64 (dataNat d 12 8), before := dataNat d 20 1 % 16, after := dataNat d 20 1 / 16,
    cause := dataNat d 21 1 % 16, cat := dataNat d 21 1 / 16 % 4, origin := dataNat d 22 1,
    qual := dataNat d 23 1 % 8, loc := (dataNat d 23 1).testBit 3, value := BitVec.ofNat 32 (dataNat d 24 4),
    seq := BitVec.ofNat 16 (dataNat d 28 2), detail := BitVec.ofNat 16 (dataNat d 30 2) }

/-- A state table entry (R328). -/
def tableEntry (cause : Nat) (unack : Bool) (qual cat st : Nat) : Half :=
  BitVec.ofNat 16 (2 ^ 15 + cause % 16 * 2 ^ 10 + (if unack then 2 ^ 9 else 0) + qual % 8 * 2 ^ 6 + cat % 4 * 2 ^ 4 +
    st % 16)

/-- The cause of a point's annunciation record: FAULT while it shows FAULT (R251). -/
def Pnt.annCauseShown (p : Pnt) : Nat := if annState p.flags = 8 then 10 else p.annCause

/-- The entry of an own slot as a POINT_STATE carries it (R328, R337). -/
def ownEntry (s : State) (n : Nat) : Half :=
  let p := s.ptAt n
  if s.ptUsed n then tableEntry p.annCauseShown (annUnack p.flags) p.pq (s.ptCat n) (annState p.flags) else 0

/-- System time is locked: LOCKED or HOLDOVER; the grand master's is (R347, R348). -/
def State.timeLocked (s : State) : Bool := s.tim.st == .locked || s.tim.st == .holdover

/-- The RESYNC entry of an own point: its present state, its onset and its last transition time; it names no event
(R272, log 13). -/
def resyncEntry (s : State) (n : Nat) : TrEntry :=
  let p := s.ptAt n
  { addr := s.ownAddr n, event := 0, unlocked := !s.timeLocked, resync := true, time := stampOf p.lastTrans,
    onset := if p.flags &&& 7 = 0 then 0 else stampOf p.annOnset, before := annState p.flags, after := annState p.flags,
    cause := p.annCauseShown, cat := s.ptCat n, qual := p.pq, value := p.value, seq := s.ann.seq }

end Sys2Proof.Machine
end

