-- ==== Sys2Proof/Machine/ImzOut.lean ====
section
/-! DEFINITION. ImzOut: what IMZ sends: frames to the controllers of a segment, the queue of alarm frames with its token
bucket, notices of PENDING and their withdrawal, reports (ch. 13, R236, R237, R272, R331). -/
namespace Sys2Proof.Machine

open Sys2Proof

/-- The identifier of an Imzin frame (R318). -/
def frameId (cls typ dir : Nat) (src : Half) : Nat := cls * 2 ^ 26 + typ * 2 ^ 18 + dir * 2 ^ 16 + src.toNat

/-- The state with the Imzin engine replaced. -/
def State.setImz (s : State) (f : Imz → Imz) : State := { s with imz := f s.imz }

/-- The state with the annunciator replaced. -/
def State.setAnn (s : State) (f : Ann → Ann) : State := { s with ann := f s.ann }

/-- TOP of the NET section (R352). -/
def State.netTop (s : State) : Bool := (s.cfgNat secNET 24 1).testBit 0
/-- Level of the NET section. -/
def State.netLevel (s : State) : Nat := s.cfgNat secNET 25 1
/-- Manager of the NET section. -/
def State.netMgr (s : State) : Half := BitVec.ofNat 16 (s.cfgNat secNET 26 2)
/-- `FLOOD_BURST`. -/
def State.netBurst (s : State) : Nat := s.cfgNat secNET 32 2
/-- Member count. -/
def State.netCount (s : State) : Nat := min 64 (s.cfgNat secNET 35 1)
/-- Member entry `i`: its node number. -/
def State.member (s : State) (i : Nat) : Half := BitVec.ofNat 16 (s.cfgNat secNET (64 + 4 * i) 2)

/-- The module takes part in the network: LNK is up, the service runs and no last breath does (R54, R58, R67, R91). -/
def imzLive (s : State) : Bool :=
  regionUp rLNK s && !s.bare && s.sys.mode != .safe && s.sys.mode != .lastBreath && s.sys.power != .dormant

/-- Traffic other than claims may be sent: joined, and not in ADDRESS_CONFLICT (R322, R325). -/
def imzOpen (s : State) : Bool := imzLive s && s.imz.joined && !s.imz.conflict

/-- A frame to both controllers upstream; the top manager has none (R320, R326). -/
def imzUp (f : OutFrame) (s : State) : State := if s.netTop then s else canSubmit 1 f (canSubmit 0 f s)

/-- A frame to both controllers downstream; a worker has none (R320). -/
def imzDown (f : OutFrame) (s : State) : State := if s.isManager then canSubmit 3 f (canSubmit 2 f s) else s

/-- A frame of the active unit to its manager (R322). -/
def imzSendUp (cls typ dir : Nat) (data : List Byte) (s : State) : State :=
  if imzOpen s ∧ s.activeUnit then imzUp { id := frameId cls typ dir s.nodeNum, data := data } s else s

/-- A frame of the active unit to its segment. -/
def imzSendDown (cls typ dir : Nat) (data : List Byte) (s : State) : State :=
  if imzOpen s ∧ s.activeUnit then imzDown { id := frameId cls typ dir s.nodeNum, data := data } s else s

/-- An event of IMZ (R354). -/
def imzEvent (kind : Nat) (node : Half) (s : State) : State := raise 42 (put 0 4 kind ||| put 16 16 node.toNat) s

/-- An event of TIM (R354). -/
def timEvent (kind : Nat) (extra : Int) (s : State) : State := raise 43 (put 0 4 kind ||| putI 4 28 extra) s

/-! ### Reports (R329, R337) -/

/-- One POINT_STATE frame of a report. -/
def stateFrame (s : State) (requested : Bool) (requester : Half) (i : Nat) : List Byte :=
  bytesLE 1 (16 * i) ++ bytesLE 1 16 ++ bytesLE 1 ((if requested then 1 else 0) + (if i = 4 then 2 else 0)) ++
  bytesLE 1 s.imz.repSeq.toNat ++ bytesLE 2 (if requested then requester.toNat else 0) ++ bytesLE 2 0 ++
  bytesLE 8 (stampOf s.pev.start).toNat ++ (List.range 16).flatMap fun j => bytesLE 2 (ownEntry s (16 * i + j)).toNat

/-- A report of the node's points: five frames, local in a sweep, up when requested. -/
def imzReport (requested : Bool) (requester : Half) (s : State) : State :=
  let s1 := s.setImz fun z => { z with repSeq := z.repSeq + 1 }
  (List.range 5).foldl (fun a i => imzSendUp 3 0x30 (if requested then 1 else 0) (stateFrame s1 requested requester i) a) s1

/-! ### The queue of alarm frames (R272, R331) -/

/-- A controller that transmits has a free buffer. -/
def canRoom (c : Can) : Bool := !canTxMode c.mode || c.freeBuf.isSome

/-- The controllers upstream can take a frame now. -/
def imzRoom (s : State) : Bool :=
  (canTxMode s.can[0].mode || canTxMode s.can[1].mode) && canRoom s.can[0] && canRoom s.can[1]

/-- A notice of this point and onset. -/
def Notice.isFor (n : Notice) (addr : Nat) (onset : Ts) : Bool := n.addr == addr && n.onset == onset

/-- A frame passes without a token: an EMERGENCY transition, or one that closes a PENDING already sent (R331). -/
def passesFree (z : Imz) (f : AlmFrame) : Bool :=
  f.free || ((f.typ == 0x12 || f.typ == 0x10) && z.notices.any fun n => n.isFor f.addr f.onset && n.sent)

/-- An alarm frame goes to the controllers; a PENDING is then sent, and a transition that repeats its onset closes it
(R237). -/
def imzLaunch (f : AlmFrame) (s : State) : State :=
  if f.typ = 0x30 then imzReport true (BitVec.ofNat 16 f.addr) s
  else
    let z := s.imz
    let ns :=
      if f.typ = 0x11 then z.notices.map fun n => if n.isFor f.addr f.onset then { n with sent := true } else n
      else z.notices.filter fun n => !n.isFor f.addr f.onset
    imzUp { id := frameId 1 f.typ 1 s.nodeNum, data := f.data } (s.setImz fun z => { z with notices := ns })

/-- The frames that wait are gone through in order: a free one is sent, another takes a token where it is the first that
waits for one; a report follows the frames queued before it (R329, R331, log 14). -/
def drainList : List AlmFrame → List AlmFrame → State → State
  | [], kept, s => s.setImz fun z => { z with queue := kept }
  | f :: rest, kept, s =>
    if imzRoom s = false then s.setImz fun z => { z with queue := kept ++ f :: rest }
    else if f.typ = 0x30 then
      if kept = [] then drainList rest kept (imzLaunch f s) else drainList rest (kept ++ [f]) s
    else if passesFree s.imz f then drainList rest kept (imzLaunch f s)
    else if kept = [] ∧ 0 < s.imz.tokens then
      drainList rest kept (imzLaunch f (s.setImz fun z => { z with tokens := z.tokens - 1 }))
    else drainList rest (kept ++ [f]) s

/-- Alarm frames leave the queue of the active unit while they may: not while the manager is lost (R322, R327). -/
def imzDrain (s : State) : State :=
  if imzOpen s ∧ s.activeUnit ∧ s.imz.mgrLost = false then drainList s.imz.queue [] s else s

/-- Whether the queue takes one more frame (R272). -/
def imzHasRoom (s : State) : Bool := decide (s.imz.queue.length < 256)

/-- A frame enters the queue. -/
def imzEnqueue (f : AlmFrame) (s : State) : State :=
  if s.netTop then s else imzDrain (s.setImz fun z => { z with queue := z.queue ++ [f] })

/-- A frame of a point that finds the queue full is dropped and counted, and the point is marked (R272). -/
def imzLoss (n : Fin 80) (s : State) : State :=
  (s.setPt n fun p => { p with resync := true }).setAnn fun a => { a with lostImz := satInc 0xFFFF a.lostImz }

/-- A transition goes to the network; one that finds the queue full is dropped, counted and its point marked
(R263, R272). -/
def imzEntry (n : Fin 80) (e : TrEntry) (s : State) : State :=
  if s.netTop then s
  else if imzHasRoom s then
    imzEnqueue { typ := 0x10, addr := e.addr, onset := e.onset, free := decide (e.cat = 3), data := entryBytes e } s
  else imzLoss n s

/-- ALM_PENDING or ALM_RETRACT as bytes: address, cause and category, onset, and the expiry or the scan start (R334). -/
def noticeBytes (addr cause cat : Nat) (onset t : Ts) : List Byte :=
  bytesLE 4 (addr % 2 ^ 23 + cause % 16 * 2 ^ 23 + cat % 4 * 2 ^ 27) ++ bytesLE 8 onset.toNat ++ bytesLE 8 t.toNat ++
  bytesLE 4 0

/-- A PENDING is published (R236). -/
def imzPending (addr cause cat : Nat) (onset expiry : Ts) (s : State) : State :=
  if s.netTop ∨ imzHasRoom s = false then s
  else imzEnqueue { typ := 0x11, addr := addr, onset := onset, free := false,
                    data := noticeBytes addr cause cat onset expiry }
         (s.setImz fun z => { z with notices := z.notices ++ [{ addr := addr, onset := onset }] })

/-- A transmit buffer holds the node's PENDING of this point and onset. -/
def holdsPending (s : State) (k : Fin 4) (addr : Nat) (onset : Ts) (b : Fin 32) : Bool :=
  let d := s.can[k].txData b.val
  decide (b.val < 28) && s.can[k].txId b.val == frameId 1 0x11 1 s.nodeNum && dataNat d 0 4 % 2 ^ 23 == addr &&
  dataNat d 4 8 == onset.toNat

/-- A PENDING still waits in a controller's buffers. -/
def pendingWaits (s : State) (addr : Nat) (onset : Ts) : Bool :=
  (List.finRange 32).any fun b =>
    (bit s.can[0].txPend b.val && holdsPending s 0 addr onset b) || (bit s.can[1].txPend b.val && holdsPending s 1 addr onset b)

/-- A PENDING that waits in a controller's buffers is withdrawn; where its frame is on the bus the attempt runs to its
end (R237, R307). -/
def imzWithdraw (addr : Nat) (onset : Ts) (onBus : Option (Fin 32)) (s : State) (k : Fin 4) : State :=
  ((List.finRange 32).filter (holdsPending s k addr onset)).foldl (canAbort k onBus) s

/-- A notice is closed. -/
def dropNotice (addr : Nat) (onset : Ts) (s : State) : State :=
  s.setImz fun z => { z with notices := z.notices.filter fun n => !n.isFor addr onset }

/-- A notice changes. -/
def setNotice (addr : Nat) (onset : Ts) (f : Notice → Notice) (s : State) : State :=
  s.setImz fun z => { z with notices := z.notices.map fun n => if n.isFor addr onset then f n else n }

/-- A PENDING leaves the queue unsent. -/
def imzUnqueue (addr : Nat) (onset : Ts) (s : State) : State :=
  s.setImz fun z => { z with queue := z.queue.filter fun f => !(f.typ == 0x11 && f.addr == addr && f.onset == onset) }

/-- An ALM_RETRACT enters the queue. -/
def retractSend (addr : Nat) (onset : Ts) (data : List Byte) (s : State) : State :=
  imzEnqueue { typ := 0x12, addr := addr, onset := onset, free := true, data := data } s

/-- A PENDING that has left the queue and not yet won arbitration is withdrawn from both buses; where a frame of it is
on a bus, the RETRACT waits for the end of that attempt (R237, R307). -/
def retractWaiting (addr : Nat) (onset : Ts) (data : List Byte) (s : State) : State :=
  let s1 := (imzWithdraw addr onset (canOnBus s 1) (imzWithdraw addr onset (canOnBus s 0) s 0) 1).drew
  if pendingWaits s1 addr onset then setNotice addr onset (fun n => { n with ret := some data }) s1
  else dropNotice addr onset s1

/-- A published PENDING is retracted: withdrawn where it has won arbitration on neither bus, else followed by an
ALM_RETRACT, which the full queue drops as it drops a transition (R237, R272). -/
def imzRetract (p : Fin 80) (cause cat : Nat) (onset scan : Ts) (s : State) : State :=
  let addr := s.ownAddr p.val
  let data := noticeBytes addr cause cat onset scan
  match s.imz.notices.find? fun n => n.isFor addr onset with
  | none => s
  | some n =>
    if n.sent = false then dropNotice addr onset (imzUnqueue addr onset s)
    else if n.won = false then retractWaiting addr onset data s
    else if imzHasRoom s then retractSend addr onset data (dropNotice addr onset s)
    else imzLoss p (dropNotice addr onset s)

/-- Once the queue is below half full, one RESYNC transition goes for each marked point (R272). -/
def imzResync (s : State) : State :=
  if s.imz.queue.length < 128 ∧ imzOpen s then
    (List.finRange 80).foldl (fun a n =>
      if a.pev.pts[n].resync then
        imzEntry n (resyncEntry a n.val) (a.setPt n fun p => { p with resync := false })
      else a) s
  else s

/-- A slot holds no point, or a NORMAL one. -/
def annOff (s : State) (n : Fin 80) : Bool := !s.ptUsed n.val || annState s.pev.pts[n].flags == 0

/-- A STATE_REQ is answered: a RESYNC transition for each point that is not NORMAL, then a report (R329). -/
def imzStateReport (requester : Half) (s : State) : State :=
  let s1 := (List.finRange 80).foldl (fun a n => if annOff a n then a else imzEntry n (resyncEntry a n.val) a) s
  imzEnqueue { typ := 0x30, addr := requester.toNat, onset := 0, free := true, data := [] } s1

/-! ### Answers (R340, R342) -/

/-- An RSP's 48 bytes. -/
def rspBytes (r : ReqRef) (result detail count : Nat) (t : Ts) (words : List Word) : List Byte :=
  bytesLE 2 r.node.toNat ++ [r.tag, r.op] ++ bytesLE 1 result ++ bytesLE 1 detail ++ bytesLE 2 count ++
  bytesLE 8 t.toNat ++ (((words.flatMap fun (w : Word) => bytesLE 4 w.toNat) ++ List.replicate 32 0).take 32)

/-- A frame goes toward a node: down when it lies below, else up (R340). -/
def imzToward (down : Bool) (cls typ : Nat) (data : List Byte) (s : State) : State :=
  if down then imzSendDown cls typ 2 data s else imzSendUp cls typ 1 data s

/-- Of one source node the last 16 tags are kept (R342). -/
def tagTrim (node : Half) (l : List TagRec) : List TagRec :=
  (List.range ((l.filter fun t => t.node == node).length - 16)).foldl (fun a _ => a.eraseP fun t => t.node == node) l

/-- A command is answered, and the answer is kept with its tag (R342); a standby answers nothing. -/
def imzReply (r : ReqRef) (result detail count : Nat) (words : List Word) (s : State) : State :=
  let d := rspBytes r result detail count s.stamp words
  imzToward r.down 4 0x41 d (s.setImz fun z =>
    { z with tags := tagTrim r.node (z.tags.map fun t =>
        if t.node = r.node ∧ t.tag = r.tag then { t with rsp := d } else t) })

/-- An answer that is owed, where a command came over the network. -/
def answerTo (o : Origin) (result detail count : Nat) (s : State) : State :=
  match o.ref with
  | some r => imzReply r result detail count [] s
  | none => s

/-- A command sent to a node of the subtree gets a tag and awaits its RSP (R342). -/
def imzSendCmd (target : Half) (down : Bool) (body : Byte → List Byte) (s : State) : State :=
  let tag := s.imz.nextTag
  let d := body tag
  imzToward down 4 0x40 d (s.setImz fun z =>
    { z with nextTag := tag + 1,
             sent := z.sent ++ [{ target := target, tag := tag, down := down, data := d, tries := 0 }] })

/-- A CMD's 64 bytes (R340). -/
def cmdBytes (target : Half) (op : Byte) (flags origin : Nat) (node : Half) (t : Ts) (args : List Byte) (tag : Byte) :
    List Byte :=
  bytesLE 2 target.toNat ++ [tag, op] ++ bytesLE 1 flags ++ bytesLE 1 origin ++ bytesLE 2 node.toNat ++
  bytesLE 8 t.toNat ++ ((args ++ List.replicate 48 0).take 48)

/-- The link to the partner is up: at least one lane (R355). -/
def linkUp (l : Lvn) : Bool := l.lanes[0] || l.lanes[1]

/-- The active unit forwards what it accepts from a host, the panel or a button: a frame for each opcode with its
arguments (R368). -/
def lvForward (org : Origin) (l : List (Byte × List Byte)) (s : State) : State :=
  if s.lvn.st = .active ∧ linkUp s.lvn ∧ [1, 2, 4, 5].contains org.code ∧ org.replay = false then
    let frame := fun (p : (Byte × List Byte) × Nat) =>
      (6, 0, bytesLE 4 (s.lvn.logSeq.toNat + 1 + p.2) ++
        cmdBytes s.nodeNum p.1.1 (if org.loc then 1 else 0) org.code s.nodeNum (stampOf org.ack) p.1.2 0)
    { s with lvn := { s.lvn with logSeq := s.lvn.logSeq + BitVec.ofNat 32 l.length, sent := l.zipIdx.map frame,
                                 frSeq := s.lvn.frSeq + BitVec.ofNat 32 l.length } }
  else s

/-- STATE_REQ to a node of the subtree (R329). -/
def imzStateReq (node : Half) (s : State) : State :=
  imzSendCmd node true (cmdBytes node 0x30 0 0 s.nodeNum s.stamp []) s

/-- IMZ_RESYNC_SEND (R272). -/
def execImzResyncSend (s : State) : Host.Outcome State Fault Refusal := .next (imzResync s)

end Sys2Proof.Machine
end

