-- ==== Sys2Proof/Machine/Delay.lean ====
section
/-! DEFINITION. Delay: the point pipeline's steps 8 to 10 (ch. 9): blocking, delays, the fault condition, results, PENDING
and RETRACT; point commands and the rows of delay expiries. -/
namespace Sys2Proof.Machine

open Sys2Proof

/-- A result that step 10 passes to ANN, by its event code, with what R235's table lets it carry: `at'` is an ONSET's
expiry, a CAUSE's value timestamp, the end of the delay of UNBLOCK and RETURN, the scan start of BLOCK, FAULT and FAULT_END
(R235, R251). -/
structure Res where
  slot : Fin 80
  ev : Nat
  onset : Nat
  cause : Nat
  at' : Nat := 0
deriving DecidableEq, Repr

/-- What step 8 to 10 yield for a point: its new state, its results in the order of R235, whether a PENDING is due, and
the onset and cause of one to retract. -/
structure EOut where
  p : Pnt
  res : List Res := []
  pend : Bool := false
  retract : Option (Nat × Nat) := none
deriving DecidableEq, Repr

/-- The cause of highest rank among conditions (R231). -/
def causeOf (c : BitVec 9) : Nat :=
  if bit c 3 then 4 else if bit c 2 then 3 else if bit c 8 then 9 else if bit c 1 then 2 else if bit c 0 then 1
  else if bit c 4 then 5 else if bit c 5 then 6 else if bit c 6 then 8 else if bit c 7 then 7 else 0

/-- The later of two moments that may be absent. -/
def laterOf : Option Nat → Option Nat → Option Nat
  | some a, some b => some (max a b)
  | some a, none => some a
  | none, b => b

/-- The end of start inhibit for a point, none where none acts on it (R94, R101). -/
def inhibitEnd (s : State) (n : Nat) (p : Pnt) : Option Nat :=
  if s.ptFlag n 0 then none else laterOf s.sys.inhEnd p.inhEnd

/-- A moment lies after the scan start. -/
def after (start : Nat) : Option Nat → Bool
  | some e => decide (start < e)
  | none => false

/-! ### Step 8: blocking (R230) -/

/-- The blocking expression, false without terms. -/
def blockExpr (s : State) (n : Nat) : Bool :=
  s.pt n 30 1 != 0 && (exprVal s true (s.ptFlag n 5) (s.pt n 112 2) (s.pt n 30 1)).1

/-- The release delay after the expression's value in this scan. -/
def Pnt.release (p : Pnt) (expr : Bool) (start dly : Nat) : Pnt :=
  if expr then { p with expr := true, blocked := true, relEnd := none, relDue := false }
  else if p.expr then { p with expr := false, relEnd := some (start + dly), relDue := false }
  else p

/-- Blocking ends with the release delay (R230). -/
def Pnt.unblock (p : Pnt) (start : Nat) : Pnt :=
  match p.relEnd with
  | some e =>
    if p.relDue ∨ e ≤ start then
      { p with blocked := false, relEnd := none, relDue := false, relWas := min e start, floor := max p.floor (min e start) }
    else p
  | none => p

/-- Step 8. -/
def blockStep (s : State) (n start : Nat) (p : Pnt) : Pnt :=
  (p.release (blockExpr s n) start (s.ptDly n 104)).unblock start

/-- BLOCK and UNBLOCK with what they do to a running on-delay (R230, R235). -/
def blockResults (n : Fin 80) (start : Nat) (p : Pnt) : EOut :=
  if p.blocked ∧ p.blkSent = false then
    let run := p.stage == .onDelay
    { p := { p with stage := .idle, blkSent := true, pend := false, due := false },
      res := (if run then [{ slot := n, ev := 2, onset := p.onset, cause := p.cause }] else []) ++
        [{ slot := n, ev := 6, onset := if p.stage = .active ∨ p.stage = .offDelay then p.onset else 0, cause := 13,
           at' := start }],
      retract := if run ∧ p.pend then some (p.onset, p.cause) else none }
  else if p.blocked = false ∧ p.blkSent then
    { p := { p with blkSent := false }, res := [{ slot := n, ev := 7, onset := 0, cause := 13, at' := p.relWas }] }
  else { p := p }

/-! ### Step 9: delays (R232, R233) -/

/-- The conditions that may begin or keep an on-delay: none while the value is not usable, no deviation while its set
has too few members (R220, R228). -/
def judged (s : State) (n : Nat) (p : Pnt) : BitVec 9 :=
  if !p.usable then 0 else if devTooFew s n then p.conds &&& 0x13F else p.conds

/-- The alarm condition begins (R232, R233, R236). -/
def beginAlarm (s : State) (n : Fin 80) (start : Nat) (p : Pnt) : EOut :=
  let onset := max p.vts p.floor
  let cause := causeOf (judged s n.val p)
  let expiry := onset + s.ptDly n.val 100
  if expiry ≤ start then
    { p := { p with stage := .active, onset := onset, cause := cause, expiry := expiry, due := false },
      res := [{ slot := n, ev := 3, onset := onset, cause := cause }] }
  else
    { p := { p with stage := .onDelay, onset := onset, cause := cause, expiry := expiry, due := false },
      res := [{ slot := n, ev := 1, onset := onset, cause := cause, at' := expiry }], pend := true }

/-- An on-delay runs (R220, R233). -/
def runOnDelay (s : State) (n : Fin 80) (start : Nat) (p : Pnt) : EOut :=
  let may := judged s n.val p
  let p1 := { p with conds := may }
  if may = 0 then
    { p := { p1 with stage := .idle, pend := false, due := false },
      res := [{ slot := n, ev := 2, onset := p.onset, cause := p.cause }],
      retract := if p.pend then some (p.onset, p.cause) else none }
  else if p.due ∨ p.expiry ≤ start then
    { p := { p1 with stage := .active, cause := causeOf may, pend := false, due := false },
      res := [{ slot := n, ev := 3, onset := p.onset, cause := causeOf may }] }
  else { p := { p1 with cause := causeOf may } }

/-- The off-delay has ended: RETURN (R233). -/
def offEnds (n : Fin 80) (start : Nat) (p : Pnt) : EOut :=
  if p.due ∨ p.expiry ≤ start then
    { p := { p with stage := .idle, due := false }, res := [{ slot := n, ev := 5, onset := p.onset, cause := p.cause, at' := p.expiry }] }
  else { p := p }

/-- An alarm that was passed to ANN (R220, R231, R233). -/
def runAlarm (s : State) (n : Fin 80) (start : Nat) (p : Pnt) : EOut :=
  if p.conds ≠ 0 then
    let cause := causeOf p.conds
    { p := { p with stage := .active, due := false, cause := cause },
      res := if cause = p.cause then [] else [{ slot := n, ev := 4, onset := p.onset, cause := cause, at' := p.vts }] }
  else if p.stage = .active then
    offEnds n start { p with stage := .offDelay, expiry := p.vts + s.ptDly n.val 102, due := false }
  else offEnds n start p

/-- Step 9 of a point that is neither blocked nor inhibited. -/
def delayStep (s : State) (n : Fin 80) (start : Nat) (p : Pnt) : EOut :=
  match p.stage with
  | .idle => if judged s n.val p = 0 then { p := p } else beginAlarm s n start p
  | .onDelay => runOnDelay s n start p
  | _ => runAlarm s n start p

/-- Two stages one after the other. -/
def EOut.andThen (o : EOut) (f : Pnt → EOut) : EOut :=
  let r := f o.p
  { p := r.p, res := o.res ++ r.res, pend := o.pend || r.pend, retract := o.retract.or r.retract }

/-! ### The fault condition (R234) -/

/-- A quality that makes for the fault condition. -/
def faultQual (s : State) (n q : Nat) : Bool := q == 2 || q == 4 || q == 7 || (q == 3 && !s.ptFlag n 1)

/-- The start of the running fault delay: the end of an inhibit that has passed replaces it (R94, R234). -/
def faultStart (s : State) (n start : Nat) (p : Pnt) : Option Nat :=
  if faultQual s n p.qual then
    let t := p.faultSince.getD start
    match inhibitEnd s n p with
    | some e => some (max t e)
    | none => some t
  else none

/-- The fault condition in this scan. -/
def faultNow (s : State) (n start : Nat) (p : Pnt) : Bool :=
  s.ptFlag n 3 && (match p.faultSince with
    | some t => p.faultDue || decide (t + s.ptDly n 106 ≤ start)
    | none => false)

/-- FAULT and FAULT_END. -/
def faultStep (s : State) (n : Fin 80) (start : Nat) (quiet : Bool) (p : Pnt) : EOut :=
  let p1 := { p with faultSince := faultStart s n.val start p,
                     faultDue := p.faultDue && faultQual s n.val p.qual }
  let f := faultNow s n.val start p1
  if quiet ∨ f = p.fault then { p := p1 }
  else { p := { p1 with fault := f, faultDue := false },
         res := [{ slot := n, ev := if f then 8 else 9, onset := 0, cause := 10, at' := start }] }

/-! ### Phase E -/

/-- An inhibit that has ended raises the earliest onset (R94). -/
def inhibitFloor (s : State) (n start : Nat) (p : Pnt) : Pnt :=
  let e := inhibitEnd s n p
  if after start e then p
  else { p with floor := max p.floor (e.getD 0), inhEnd := if after start p.inhEnd then p.inhEnd else none }

/-- Steps 8 to 10 of one point (R217): out of service it stops after step 4 (R224). -/
def ePoint (s : State) (n : Fin 80) (start : Nat) (p0 : Pnt) : EOut :=
  if p0.oos then { p := { p0 with pq := 6, inh := false } }
  else
    let quiet := after start (inhibitEnd s n.val p0)
    let p := blockStep s n.val start { inhibitFloor s n.val start p0 with inh := quiet }
    let o : EOut := if quiet then { p := p }
      else (blockResults n start p).andThen fun p => if p.blocked then { p := p } else delayStep s n start p
    let o1 := o.andThen (faultStep s n start quiet)
    { o1 with p := { o1.p with pq := if o1.p.blocked && qualOk o1.p.qual then 5 else o1.p.qual } }

/-- A PENDING that is due: the active unit of a pair, or an unpaired module, queues it, at most 4 in any 10 s; later ones
are counted, and one that finds the queue full is dropped as a transition is (R236, R238, R272). -/
def publishPending (s : State) (n : Fin 80) : State :=
  let p := s.pev.pts[n]
  let pubs := recent (sec 10) s.pev.start p.pubs
  if !s.activeUnit then s
  else if 4 ≤ pubs.length then
    { s with pev := { s.pev with suppr := satInc 0xFFFF s.pev.suppr } }
  else if imzHasRoom s then
    let s1 := s.setPt n fun p => { p with pubs := s.pev.start :: pubs, pend := true }
    imzPending (s.ownAddr n.val) p.cause (s.ptCat n.val) (stampOf p.onset) (stampOf p.expiry)
      { s1 with pev := { s1.pev with sent := satInc 0xFFFF s1.pev.sent } }
  else imzLoss n s

/-- Phase E for one slot: the point, its notices, and its results added to those before (R215, R236, R237). -/
def phaseEPoint (acc : State × List Res) (n : Fin 80) : State × List Res :=
  let s := acc.1
  let o := ePoint s n s.pev.start s.pev.pts[n]
  let s1 := s.setPt n fun _ => o.p
  let s2 := match o.retract with
    | some (onset, cause) =>
      imzRetract n cause (s.ptCat n.val) (stampOf onset) (stampOf s.pev.start) s1
    | none => s1
  (if o.pend then publishPending s2 n else s2, acc.2 ++ o.res)

/-- Phase E (R215). -/
def phaseE (s : State) : State × List Res :=
  let s0 := { s with pev := { s.pev with pts := s.pev.pts.map fun p => { p with pq := p.qual } } }
  (slotsIn s0 0 80).foldl phaseEPoint (s0, [])

/-! ### Point commands (R224, R225) -/

/-- `ACK_LOC` in effect (R255, R275). -/
def State.ackLoc (s : State) : Nat := if bankHas s.activeBank secGROUPS then s.cfgNat secGROUPS 4 1 % 16 else 0xC

/-- A source's location permits a command on a category's points (R255). -/
def State.locPermits (s : State) (cat : Nat) (machinery : Bool) : Bool := !s.ackLoc.testBit cat || machinery

/-- Location of a host port (R254). -/
def State.hostLoc (s : State) (h : Fin 2) : Bool := (s.cfgNat secGROUPS 5 1).testBit h.val

/-- Location of a node, by the location table of GROUPS; a node not in it is ELSEWHERE (R254, R274). -/
def State.nodeLoc (s : State) (node : Half) : Bool :=
  (List.range 64).any fun i =>
    let n := s.cfgNat secGROUPS (144 + 4 * i) 2
    let l := s.cfgNat secGROUPS (144 + 4 * i + 2) 1
    n == node.toNat && l == 1

/-- The origin of a register write (R254). -/
def State.originOf (s : State) (src : Source) : Origin :=
  match src with
  | .hostA => { code := 1, loc := s.hostLoc 0, ack := s.now }
  | .hostB => { code := 2, loc := s.hostLoc 1, ack := s.now }
  | .imzin n => { code := 3, detail := n, loc := s.nodeLoc n, ack := s.now }
  | .chip => { code := 0, loc := true, ack := s.now }

/-- The result code of a point command at its scan (PT_CMD_RES, R225). -/
def ptCmdCode (s : State) (c : PtCmd) : Nat :=
  if !s.ptUsed c.slot then 1
  else if c.op ≠ 1 ∧ (s.ptAt c.slot).oos = false then 3
  else if !s.locPermits (s.ptCat c.slot) c.org.loc then 4
  else if c.op ≠ 2 ∧ f32Finite c.subst = false then 5
  else 0

/-- A point leaves or returns to service: its conditions, delays and filter start anew; its timers and counts stay
(R224). -/
def Pnt.service (p : Pnt) (oos : Bool) : Pnt :=
  { p with oos := oos, conds := 0, stage := .idle, cause := 0, pend := false, due := false, blocked := false,
           expr := false, relEnd := none, relDue := false, blkSent := false, fault := false, faultSince := none,
           faultDue := false, filt := none, hist := [], histCnt := 0, rate := 0, floor := 0 }

/-- A point command that is due acts at the scan start (R225). -/
def ptCmdApply (s : State) (c : PtCmd) : State :=
  if h : c.slot < 80 then
    if ptCmdCode s c = 0 then
      s.setPt ⟨c.slot, h⟩ fun p =>
        if c.op = 1 then (if p.oos then { p with subst := c.subst } else { p.service true with subst := c.subst })
        else if c.op = 2 then p.service false
        else { p with subst := c.subst }
    else s
  else s

/-- PT_CMD is taken, or refused with BUSY while one waits (R225); a standby refuses (STANDBY). -/
def ptCommand (op slot : Nat) (subst : Word) (org : Origin) (s : State) : Nat × State :=
  let res := fun (code : Nat) =>
    { s with pev := { s.pev with resOp := op, resCode := code, resSlot := slot % 128 } }
  if s.standby then (2, res 2)
  else if s.pev.cmd.isSome then (6, res 6)
  else (0, lvForward org [(0x11, bytesLE 1 op ++ bytesLE 1 slot ++ [0, 0] ++ bytesLE 4 subst.toNat)]
    { s with pev := { s.pev with cmd := some { op := op, slot := slot, subst := subst, org := org } } })

/-- A register write of `PT_CMD` with an operation (R225). -/
def ptCmdWrite (op slot : Nat) (src : Source) (s : State) : State :=
  (ptCommand op slot s.pev.subst (s.originOf src) s).2

/-! ### Expiries between scans (R230, R233, R234, R218, R94) -/

/-- A running delay of a stage expires: the next scan acts on it. -/
def delayDue (n : Fin 80) (st : Stage) (s : State) : State :=
  if s.pev.pts[n].stage = st then s.setPt n fun p => { p with due := true } else s

/-- The release delay expires. -/
def releaseDue (n : Fin 80) (s : State) : State :=
  if s.pev.pts[n].relEnd.isSome then s.setPt n fun p => { p with relDue := true } else s

/-- The fault delay expires. -/
def faultDelayDue (n : Fin 80) (s : State) : State :=
  if s.pev.pts[n].faultSince.isSome then s.setPt n fun p => { p with faultDue := true } else s

/-- A source has delivered nothing within its refresh period. -/
def staleDue (n : Fin 80) (s : State) : State :=
  if n.val < 40 ∧ s.ptUsed n.val then s.setPt n fun p => { p with stale := true } else s

/-- A step of system time moves the running expiries and fault delays, the earliest onset, and the window of the PENDING
frames (R214, R232, R238). -/
def Pnt.shift (p : Pnt) (d : Int) : Pnt :=
  let mv := fun (t : Nat) => ((t : Int) + d).toNat
  { p with expiry := if p.stage = .onDelay ∨ p.stage = .offDelay then mv p.expiry else p.expiry,
           relEnd := p.relEnd.map mv, relWas := mv p.relWas, faultSince := p.faultSince.map mv,
           floor := if p.floor = 0 then 0 else mv p.floor, pubs := p.pubs.map mv }

/-- Start inhibit ends for a point: a condition that holds takes this moment as its onset (R94). -/
def Pnt.endInhibit (p : Pnt) (now : Nat) : Pnt :=
  { p with inhEnd := none, floor := max p.floor now, faultSince := p.faultSince.map (max now) }

/-- START_INHIBIT_END: the module's start inhibit ends where it runs, with that of points whose own has passed; else
that of points new at a swap (R94, R101). -/
def startInhibitEnd (s : State) : State :=
  let all := s.sys.inhEnd.isSome
  let s1 := { s with sys := { s.sys with inhEnd := none } }
  (List.finRange 80).foldl (fun a n =>
    a.setPt n fun p =>
      if p.inhEnd.isSome then (if all ∧ after s.now p.inhEnd then p else p.endInhibit s.now)
      else if all ∧ s.ptFlag n.val 0 = false then p.endInhibit s.now else p) s1

/-- ON_DELAY_EXPIRY (R233). -/
def execOnDelayExpiry (n : Fin 80) (s : State) : Host.Outcome State Fault Refusal := .next (delayDue n .onDelay s)

/-- OFF_DELAY_EXPIRY (R233). -/
def execOffDelayExpiry (n : Fin 80) (s : State) : Host.Outcome State Fault Refusal := .next (delayDue n .offDelay s)

/-- RELEASE_DELAY_EXPIRY (R230). -/
def execReleaseDelayExpiry (n : Fin 80) (s : State) : Host.Outcome State Fault Refusal := .next (releaseDue n s)

/-- FAULT_DELAY_EXPIRY (R234). -/
def execFaultDelayExpiry (n : Fin 80) (s : State) : Host.Outcome State Fault Refusal := .next (faultDelayDue n s)

/-- STALE_TIMEOUT (R218). -/
def execStaleTimeout (n : Fin 80) (s : State) : Host.Outcome State Fault Refusal := .next (staleDue n s)

/-- START_INHIBIT_END (R94). -/
def execStartInhibitEnd (s : State) : Host.Outcome State Fault Refusal := .next (startInhibitEnd s)

/-- PT_CMD_OOS (R225): `slot` is the SLOT field, 0 to 127. -/
def execPtCmdOos (src : Source) (slot : Fin 128) (s : State) : Host.Outcome State Fault Refusal :=
  .next (ptCmdWrite 1 slot.val src s)

/-- PT_CMD_RTS (R225). -/
def execPtCmdRts (src : Source) (slot : Fin 128) (s : State) : Host.Outcome State Fault Refusal :=
  .next (ptCmdWrite 2 slot.val src s)

/-- PT_CMD_SUBST (R225). -/
def execPtCmdSubst (src : Source) (slot : Fin 128) (s : State) : Host.Outcome State Fault Refusal :=
  .next (ptCmdWrite 3 slot.val src s)

end Sys2Proof.Machine
end

