-- ==== Sys2Proof/Machine/Loss.lean ====
section
/-! DEFINITION. Loss: what ANN and CALL tell other blocks: recorder events, the count of transition entries that the
recorder could not store, the results of panel keys (R398, R408, R436). -/
namespace Sys2Proof.Machine

open Sys2Proof

/-- The state with the recorder replaced. -/
def State.setRec (s : State) (f : Rec → Rec) : State := { s with recd := f s.recd }

/-- The state with the eMMC replaced. -/
def State.setMmc (s : State) (f : Mmc → Mmc) : State := { s with mmc := f s.mmc }

/-- An event of REC (R408). -/
def recEvent (kind detail : Nat) (s : State) : State := raise 45 (put 0 4 kind ||| put 16 16 detail) s

/-- An event of MMC (R408). -/
def mmcEvent (kind detail : Nat) (s : State) : State := raise 46 (put 0 4 kind ||| put 16 16 detail) s

/-- Code of `REC_STAT.STATE`. -/
def RecState.code : RecState → Nat
  | .off => 0
  | .scanning => 1
  | .run => 2
  | .noSpace => 3
  | .mediaError => 4
  | .stopped => 5

/-- A panel key's result is reported: by RND 0, `ALM_CMD_RES` 1 or `CALL_CMD_RES` 2 (R436, R437). -/
def keyDone (key blk code : Nat) (s : State) : State :=
  raise 49 (put 0 4 1 ||| put 8 8 code)
    { s with rnd := { s.rnd with keyPend := false, resKey := key, resBlk := blk, resCode := code } }

/-- A lost entry is counted with its transition time; the first one begins LOSS, with its event (R398). -/
def recLose (t : Ts) (s : State) : State :=
  if s.recd.st = .off ∨ s.recd.st = .noSpace then s
  else
    let s1 := s.setRec fun r =>
      { r with lostEntries := satInc 0xFFFF r.lostEntries, lost := satInc 0xFFFFFFFF r.lost,
               lostFirst := if r.lost = 0 then t else r.lostFirst, lostLast := t, loss := true }
    if s.recd.loss then s1 else recEvent 2 0 s1

end Sys2Proof.Machine
end

