-- ==== Sys2Proof/Machine/Ann.lean ====
section
/-! DEFINITION. Ann: annunciation: flags, events and transition entries, acknowledgement, shelving and the command queue
(ch. 10). -/
namespace Sys2Proof.Machine

open Sys2Proof

/-! ### Transitions (R249 to R253, R262, R263) -/

/-- A flag of a point's annunciation set or cleared. -/
def flagPut (f : BitVec 8) (i : Nat) (b : Bool) : BitVec 8 :=
  if b then f ||| BitVec.ofNat 8 (2 ^ i) else f &&& ~~~(BitVec.ofNat 8 (2 ^ i))

/-- What PEV's results 1 to 9 do to the flags; `need`: the category requires acknowledgement (R248, R251). -/
def resFlags (ev : Nat) (need : Bool) (f : BitVec 8) : BitVec 8 :=
  match ev with
  | 1 => flagPut f 0 true
  | 2 => flagPut f 0 false
  | 3 => let g := flagPut (flagPut f 0 false) 1 true; if need then flagPut g 2 true else g
  | 5 => flagPut f 1 false
  | 6 => flagPut (flagPut f 3 true) 1 false
  | 7 => flagPut f 3 false
  | 8 => let g := flagPut f 4 true; if need then flagPut g 5 true else g
  | 9 => flagPut f 4 false
  | _ => f

/-- A change that a higher state hides: the rows of R252 marked so. -/
def entryHidden (before after ev : Nat) : Bool :=
  before == after && ((before == 6 && decide (ev ≤ 10)) || (before == 8 && decide (ev ≤ 7)) ||
    (before == 4 && decide (ev ≤ 9)))

/-- An entry goes to the network as ALM_TRANS: not when it is hidden, nor into PENDING by ONSET or out of it by RETRACT
(R252, R263, log 15). -/
def entryTravels (e : TrEntry) : Bool :=
  !e.hidden && !(e.event == 1 && e.after == 1) && !(e.event == 2 && e.before == 1)

/-- An entry on its way: to the recorder's queue, to the network (R263, R272). -/
def annSend (n : Fin 80) (e : TrEntry) (s : State) : State :=
  let s1 := if s.ann.recQ.length < 64 then s.setAnn fun a => { a with recQ := a.recQ ++ [e] }
    else recLose e.time (s.setAnn fun a => { a with lostRec := satInc 255 a.lostRec })
  if entryTravels e then imzEntry n e s1 else s1

/-- A transition: new flags, the record's cause and onset, and its entry, where a flag or the cause changes (R252,
R262); the standby unit of a pair produces no entries (R263). `cause` is the entry's, `keep` the record's. -/
def annTrans (n : Fin 80) (ev : Nat) (flags : BitVec 8) (keep cause onset time : Nat) (org : Origin) (s : State) : State :=
  let p := s.pev.pts[n]
  if flags = p.flags ∧ keep = p.annCause then s
  else
    let ons := if onset = 0 then (if (flags ||| p.flags) &&& 7 = 0 then 0 else p.annOnset) else onset
    let e : TrEntry :=
      { addr := s.ownAddr n.val, event := ev, hidden := entryHidden (annState p.flags) (annState flags) ev,
        unlocked := !s.timeLocked, replay := org.replay, time := stampOf time,
        onset := if ons = 0 then 0 else stampOf ons, before := annState p.flags, after := annState flags, cause := cause,
        cat := s.ptCat n.val, origin := org.code, qual := p.pq, loc := org.loc, value := p.value, seq := s.ann.seq + 1,
        detail := org.detail }
    let s1 := s.setPt n fun p =>
      { p with flags := flags, annCause := if flags &&& 0x37 = 0 then 0 else keep, lastTrans := time,
               annOnset := if onset = 0 then p.annOnset else onset,
               slice := p.slice.map fun x => { x with trans := x.trans + 1 } }
    if s.standby then s1 else annSend n e (s1.setAnn fun a => { a with seq := a.seq + 1 })

/-- One of PEV's results (R251): its transition time is the scan start (R253). -/
def annResult (s : State) (r : Res) : State :=
  let start := s.pev.start
  let need := s.ptCat r.slot.val != 0
  let p := s.pev.pts[r.slot]
  let s1 := if need ∧ r.ev = 3 then s.setPt r.slot fun p => { p with tUnack := start }
    else if need ∧ r.ev = 8 then s.setPt r.slot fun p => { p with tFunack := start } else s
  let keep := if r.ev = 1 ∨ r.ev = 3 ∨ r.ev = 4 then r.cause else p.annCause
  let cause := if r.ev = 5 then p.annCause else r.cause
  annTrans r.slot r.ev (resFlags r.ev need p.flags) keep cause r.onset start {} s1

/-- A point command that acted reaches ANN as OUT_OF_SERVICE or RETURN_TO_SERVICE (R225, R251). -/
def annService (n : Fin 80) (oos : Bool) (org : Origin) (s : State) : State :=
  let p := s.pev.pts[n]
  if oos then
    annTrans n 14 0x80 p.annCause 11 0 org.ack org (s.setPt n fun p => { p with shlvEnd := 0, shlvDue := false })
  else annTrans n 15 (flagPut p.flags 7 false) p.annCause 11 0 org.ack org s

/-- A shelving expires (R251, R261). -/
def annShelveEnd (s : State) (n : Fin 80) : State :=
  let p := s.pev.pts[n]
  annTrans n 13 (flagPut p.flags 6 false) p.annCause 12 0 p.shlvEnd {}
    (s.setPt n fun p => { p with shlvEnd := 0, shlvDue := false })

/-- Shelvings whose time is at or before the scan start, or whose expiry has come by its command (R253). -/
def shelveDue (s : State) : List (Fin 80) :=
  (List.finRange 80).filter fun n =>
    let p := s.pev.pts[n]
    bit p.flags 6 && (p.shlvDue || decide (p.shlvEnd ≤ s.pev.start))

/-- A point of the old recipe only leaves (R101, R251). -/
def annRemove (n : Fin 80) (s : State) : State := annTrans n 16 0 0 14 0 s.now {} s

/-- A point's record could not be corrected (R40, R251). -/
def annMemory (n : Fin 80) (s : State) : State :=
  annTrans n 17 0x20 0 15 0 s.now {} (s.setPt n fun p => { p with tFunack := s.now })

/-! ### The GROUPS section (R274) -/

/-- Group count G. -/
def State.grpCount (s : State) : Nat := s.cfgNat secGROUPS 0 2

/-- A field of group `g`'s entry. -/
def State.grpField (s : State) (g off n : Nat) : Nat := s.cfgNat secGROUPS (400 + 32 * g + off) n

/-- The members of group `g`. -/
def grpMembers (s : State) (g : Nat) : List Nat :=
  if s.grpCount ≤ g then []
  else (List.range (s.grpField g 22 2)).map fun i =>
    s.cfgNat secGROUPS (400 + 32 * s.grpCount + 4 * (s.grpField g 20 2 + i)) 4 % 2 ^ 23

/-- The members of every group, each once. -/
def allMembers (s : State) : List Nat := ((List.range s.grpCount).flatMap (grpMembers s)).eraseDups

/-- `SHELVE_MAX` in minutes; its top without a GROUPS section (log 16). -/
def State.shelveMax (s : State) : Nat := if bankHas s.activeBank secGROUPS then s.cfgNat secGROUPS 10 2 else 1440

/-- A point address names a slot of this node. -/
def State.isOwn (s : State) (a : Nat) : Bool := addrNode a == s.nodeNum

/-- GRP's record of a member on another node. -/
def GrpBlk.mem (g : GrpBlk) (a : Nat) : RemRec := tblGet {} g.mems a

/-- What a group sees of a member: state, category, unacknowledged, onset (R265); and whether an ACK concerns it: an own
point by its flags, another node's as it shows (R257, R258). -/
structure MemView where
  addr : Nat
  st : Nat
  cat : Nat
  unack : Bool
  onset : Nat
  toAck : Bool
deriving DecidableEq, Repr

/-- A member as GRP holds it. -/
def memView (s : State) (a : Nat) : MemView :=
  if s.isOwn a then
    let p := s.ptAt (addrSlot a)
    { addr := a, st := s.slotState (addrSlot a), cat := s.ptCat (addrSlot a), unack := annUnack p.flags,
      onset := p.annOnset, toAck := s.ptUsed (addrSlot a) && (bit p.flags 2 || bit p.flags 5) }
  else
    let r := s.grp.mem a
    let un := r.st == 2 || r.st == 4 || (r.st == 8 && r.unack)
    { addr := a, st := r.st, cat := r.cat, unack := un, onset := r.onset, toAck := un }

/-! ### Commands (R254 to R261) -/

/-- The points of a scope: own slots and addresses on other nodes; none for a bad target (R257, R258). -/
def annTargets (s : State) (scope target : Nat) : Option (List Nat × List Nat) :=
  let own := (List.range 80).filter s.ptUsed
  match scope with
  | 0 =>
    if s.isOwn target then (if s.ptUsed (addrSlot target) then some ([addrSlot target], []) else none)
    else if s.isManager ∧ (allMembers s).contains target then some ([], [target]) else none
  | 1 =>
    let g := target % 1024
    if s.grpCount ≤ g then none
    else
      let m := (grpMembers s g).eraseDups
      some ((m.filter s.isOwn).map addrSlot, m.filter fun a => !s.isOwn a)
  | 2 => some (own, if s.isManager then (allMembers s).filter fun a => !s.isOwn a else [])
  | _ => none

/-- What became of a command: points acted on, forwarded and refused for their location, and another refusal. -/
structure AnnTally where
  done : Nat := 0
  fwd : Nat := 0
  loc : Nat := 0
  why : Nat := 0
deriving DecidableEq, Repr

/-- Result code of a command over points (R257, R258, R261). -/
def AnnTally.code (t : AnnTally) (empty : Nat) : Nat :=
  if 0 < t.done + t.fwd then (if 0 < t.loc then 3 else if 0 < t.fwd then 7 else 0)
  else if t.why ≠ 0 then t.why else if 0 < t.loc then 2 else empty

/-- Whether a command concerns a point, none where it does not, and the refusal that its state brings (R257, R261). -/
def annConcerns (op : Nat) (v : MemView) : Option Nat :=
  match op with
  | 1 => if v.toAck then some 0 else none
  | 3 => if v.st = 7 then some 5 else if v.cat = 3 then some 8 else some 0
  | _ => if v.st = 6 then some 0 else none

/-- ACK of an own point under R256: what was raised after the ack time stays. -/
def annAck (n : Fin 80) (org : Origin) (s : State) : State :=
  let p := s.pev.pts[n]
  let f1 := if bit p.flags 2 ∧ p.tUnack ≤ org.ack then flagPut p.flags 2 false else p.flags
  let f2 := if bit p.flags 5 ∧ p.tFunack ≤ org.ack then flagPut f1 5 false else f1
  annTrans n 10 f2 p.annCause 11 0 org.ack org s

/-- SHELVE of an own point; a second one sets a new expiry (R261). -/
def annShelve (n : Fin 80) (minutes : Nat) (org : Origin) (s : State) : State :=
  let s1 := s.setPt n fun p => { p with shlvEnd := org.ack + minutes * sec 60, shlvDue := false }
  annTrans n 11 (flagPut s.pev.pts[n].flags 6 true) s.pev.pts[n].annCause 11 0 org.ack org s1

/-- UNSHELVE of an own point. -/
def annUnshelve (n : Fin 80) (org : Origin) (s : State) : State :=
  let s1 := s.setPt n fun p => { p with shlvEnd := 0, shlvDue := false }
  annTrans n 12 (flagPut s.pev.pts[n].flags 6 false) s.pev.pts[n].annCause 11 0 org.ack org s1

/-- A command acts on an own point. -/
def annAct (c : AnnCmd) (n : Fin 80) (s : State) : State :=
  match c.op with
  | 1 => annAck n c.org s
  | 3 => annShelve n c.minutes c.org s
  | _ => annUnshelve n c.org s

/-- A command for a point of another node goes to its owner, with the ack time and the origin's location (R258). -/
def annForward (c : AnnCmd) (a : Nat) (s : State) : State :=
  let node := addrNode a
  let args := bytesLE 1 c.op ++ [0] ++ bytesLE 4 a ++ bytesLE 2 c.minutes
  imzSendCmd node true (cmdBytes node 0x10 (2 + if c.org.loc then 1 else 0) c.org.code
    (if c.org.code = 3 then c.org.detail else s.nodeNum) (stampOf c.org.ack) args) s

/-- A command on one own slot (R255, R257). -/
def annOnSlot (c : AnnCmd) (acc : State × AnnTally) (i : Nat) : State × AnnTally :=
  let s := acc.1
  let t := acc.2
  if h : i < 80 then
    let v := memView s (s.ownAddr i)
    match annConcerns c.op v with
    | none => acc
    | some why =>
      if why ≠ 0 then (s, { t with why := if t.why = 0 then why else t.why })
      else if !s.locPermits v.cat c.org.loc then (s, { t with loc := t.loc + 1 })
      else
        let s1 := annAct c ⟨i, h⟩ s
        if c.op = 1 ∧ s1.pev.pts[(⟨i, h⟩ : Fin 80)].flags = s.pev.pts[(⟨i, h⟩ : Fin 80)].flags then (s1, t)
        else (s1, { t with done := t.done + 1 })
  else acc

/-- A command on one point of another node (R255, R258). -/
def annOnRemote (c : AnnCmd) (acc : State × AnnTally) (a : Nat) : State × AnnTally :=
  let s := acc.1
  let t := acc.2
  let v := memView s a
  match annConcerns c.op v with
  | none => acc
  | some why =>
    if why ≠ 0 then (s, { t with why := if t.why = 0 then why else t.why })
    else if !s.locPermits v.cat c.org.loc then (s, { t with loc := t.loc + 1 })
    else (annForward c a s, { t with fwd := t.fwd + 1 })

/-- SILENCE ends the horn request of the groups in its scope (R271, log 16): a point's groups, one group, or every group
and the node-wide horn; a point of slot 80 to 127 is none (R9). -/
def annSilence (s : State) (scope target : Nat) : Nat × State :=
  let gs : Option (List Nat) := match scope with
    | 0 => if 80 ≤ addrSlot target then none else some ((List.range s.grpCount).filter fun g => (grpMembers s g).contains target)
    | 1 => if s.grpCount ≤ target % 1024 then none else some [target % 1024]
    | 2 => some (List.range s.grpCount)
    | _ => none
  match gs with
  | none => (5, s)
  | some l =>
    let was := l.any (fun g => (tblGet {} s.grp.groups g).horn) || decide (scope = 2)
    let s1 := { s with grp := { s.grp with groups := l.foldl (fun t g =>
      tblPut {} t g { tblGet {} t g with silenced := true }) s.grp.groups } }
    (if was then 0 else 1, if scope = 2 then s1.setAnn fun a => { a with silenced := true } else s1)

/-- A command is carried out: its code, the points acted on, and the new state (R257 to R261). -/
def annCarry (s : State) (c : AnnCmd) : Nat × Nat × State :=
  if c.op = 2 then let r := annSilence s c.scope c.target; (r.1, 0, r.2)
  else if 4 < c.op ∨ c.op = 0 ∨ (c.op = 3 ∧ c.scope = 2) then (5, 0, s)
  else if c.op = 3 ∧ (c.minutes = 0 ∨ s.shelveMax < c.minutes) then (9, 0, s)
  else match annTargets s c.scope c.target with
  | none => (5, 0, s)
  | some (own0, remote0) =>
    let also := c.more.filterMap (annTargets s 0)
    let own := (own0 ++ also.flatMap (·.1)).eraseDups
    let remote := (remote0 ++ also.flatMap (·.2)).eraseDups
    let r := remote.foldl (annOnRemote c) (own.foldl (annOnSlot c) (s, {}))
    (r.2.code (if c.op = 4 then 10 else 1), min 0xFFFF r.2.done, r.1)

/-- The result of an annunciation command as an RSP's code (R342). -/
def annRsp (code : Nat) : Nat := if code = 2 then 7 else if code = 4 then 4 else if code = 6 then 3 else 0

/-- A press of an ACK button that its command's result refuses raises the channel's event; its payload has no room for the
code (R193, R260). -/
def buttonRefused (c : AnnCmd) (code : Nat) (s : State) : State :=
  if h : c.org.code = 4 ∧ 1 ≤ c.org.detail.toNat ∧ c.org.detail.toNat ≤ 16 ∧ (code = 2 ∨ code = 4 ∨ code = 5 ∨ code = 6) then
    dioEvent ⟨c.org.detail.toNat - 1, by omega⟩ (putB 27 true) s
  else s

/-- A queued command is carried out, and its result reported (R257, R340). -/
def annCommand (s : State) (c : AnnCmd) : State :=
  let (code, count, s1) := annCarry s c
  let s2 := if c.reg then
      s1.setAnn fun a => { a with pend := false, resOp := c.op, resCode := code, resCount := count } else s1
  answerTo c.org (annRsp code) code count (buttonRefused c code (if c.key = 0 then s2 else keyDone c.key 1 code s2))

/-- A command taken here is forwarded to the partner, one frame for each point that it names (R368). -/
def annForwarded (c : AnnCmd) (s : State) : State :=
  lvForward c.org ((c.target :: c.more).map fun t =>
    (0x10, bytesLE 1 c.op ++ bytesLE 1 c.scope ++ bytesLE 4 t ++ bytesLE 2 c.minutes)) s

/-- A command enters the queue of 32 (R260): 0 taken, 4 on a standby, 6 busy. -/
def annSubmit (c : AnnCmd) (s : State) : Nat × State :=
  if s.standby then (4, s)
  else if 32 ≤ s.ann.queue.length then
    (6, if c.reg then s else s.setAnn fun a => { a with lostCmd := satInc 255 a.lostCmd })
  else (0, annForwarded c (s.setAnn fun a => { a with queue := a.queue ++ [c] }))

/-- A write of `ALM_CMD`: refused with BUSY while one waits (R260). -/
def almCmdWrite (op scope target : Nat) (src : Source) (s : State) : State :=
  if s.ann.pend then s.setAnn fun a => { a with resOp := op, resCode := 6, resCount := 0 }
  else
    let r := annSubmit { op := op, scope := scope, target := target, minutes := s.ann.arg, reg := true,
                         org := s.originOf src } s
    if r.1 = 0 then r.2.setAnn fun a => { a with pend := true }
    else r.2.setAnn fun a => { a with resOp := op, resCode := r.1, resCount := 0 }

/-- SHELVE_EXPIRY: the next scan ends the shelving (R253, R261). -/
def shelveExpiry (n : Fin 80) (s : State) : State :=
  if bit s.pev.pts[n].flags 6 then s.setPt n fun p => { p with shlvDue := true } else s

/-- ALM_CMD_ACK: `ALM_CMD` OP 1 (R257). -/
def execAlmCmdAck (src : Source) (scope : Fin 4) (target : BitVec 23) (s : State) : Host.Outcome State Fault Refusal :=
  .next (almCmdWrite 1 scope.val target.toNat src s)

/-- ALM_CMD_SILENCE: OP 2 (R271). -/
def execAlmCmdSilence (src : Source) (scope : Fin 4) (target : BitVec 23) (s : State) :
    Host.Outcome State Fault Refusal :=
  .next (almCmdWrite 2 scope.val target.toNat src s)

/-- ALM_CMD_SHELVE: OP 3 (R261). -/
def execAlmCmdShelve (src : Source) (scope : Fin 4) (target : BitVec 23) (s : State) : Host.Outcome State Fault Refusal :=
  .next (almCmdWrite 3 scope.val target.toNat src s)

/-- ALM_CMD_UNSHELVE: OP 4 (R261). -/
def execAlmCmdUnshelve (src : Source) (scope : Fin 4) (target : BitVec 23) (s : State) :
    Host.Outcome State Fault Refusal :=
  .next (almCmdWrite 4 scope.val target.toNat src s)

/-- ALM_CMD_BAD_OP: OP 5 to 7, refused with BAD_TARGET; another `op` spells no such command. -/
def execAlmCmdBadOp (src : Source) (op : Fin 8) (scope : Fin 4) (target : BitVec 23) (s : State) :
    Host.Outcome State Fault Refusal :=
  .next (if 5 ≤ op.val then almCmdWrite op.val scope.val target.toNat src s else s)

/-- SHELVE_EXPIRY (R261). -/
def execShelveExpiry (n : Fin 80) (s : State) : Host.Outcome State Fault Refusal := .next (shelveExpiry n s)

end Sys2Proof.Machine
end

