-- ==== Sys2Proof/Machine/Grp.lean ====
section
/-! DEFINITION. Grp: group states, episodes and first-out, horns and lamps, group events and the group table (R264 to
R277). -/
namespace Sys2Proof.Machine

open Sys2Proof

/-- The state with the group processor replaced. -/
def State.setGrps (s : State) (f : GrpBlk → GrpBlk) : State := { s with grp := f s.grp }

/-- A group's record replaced. -/
def State.putGrp (s : State) (g : Nat) (x : Grp) : State :=
  s.setGrps fun b => { b with groups := tblPut {} b.groups g x }

/-- One of the three states of an episode: ALARM_UNACK, ALARM_ACK, RETURN_UNACK (R267). -/
def inEpisode (st : Nat) : Bool := st == 2 || st == 3 || st == 4

/-- A state's place in the order of R266, highest first. -/
def groupRank : Nat → Nat
  | 2 => 8
  | 8 => 7
  | 4 => 6
  | 3 => 5
  | 5 => 4
  | 6 => 3
  | 7 => 2
  | 1 => 1
  | _ => 0

/-- The group state over its members (R266). -/
def groupState (vs : List MemView) : Nat :=
  vs.foldl (fun a v => if groupRank a < groupRank v.st then v.st else a) 0

/-- The group category over its members (R266). -/
def groupCat (vs : List MemView) : Nat :=
  vs.foldl (fun a v => if inEpisode v.st || v.st == 8 then max a v.cat else a) 0

/-- A member sounds the horn by its state: ALARM_UNACK, or FAULT unacknowledged (R270). -/
def MemView.loud (v : MemView) : Bool := v.st == 2 || (v.st == 8 && v.unack)

/-- The highest category that requests the horn, none where none does (R270). -/
def hornOf (vs : List MemView) (least : Nat) : Option Nat :=
  vs.foldl (fun a v => if v.loud && decide (least ≤ v.cat) then some (max (a.getD 0) v.cat) else a) none

/-- A horn pattern's command for a category (R274). -/
def patternCmd (pat cat : Nat) : Nat := pat / 4 ^ cat % 4

/-- The lamp's command (R270). -/
def lampOf (vs : List MemView) : Nat :=
  if vs.any MemView.loud then 3
  else if vs.any fun v => v.st == 3 || (v.st == 8 && !v.unack) then 1
  else if vs.any fun v => v.st == 4 then 2
  else 0

/-- The window of 2 µs (R268, R269). -/
def foWindow : Nat := 100

/-- The candidate with the earliest onset, the lower address first between equals (R267). -/
def bestCand (l : List (Nat × Nat × Bool)) : Option (Nat × Nat) :=
  l.foldl (fun a c => match a with
    | none => some (c.1, c.2.1)
    | some b => if c.2.1 < b.2 ∨ (c.2.1 = b.2 ∧ c.1 < b.1) then some (c.1, c.2.1) else a) none

/-- An episode begins, goes on or ends (R267). -/
def Grp.episodeStep (g : Grp) (vs : List MemView) (now : Nat) : Grp :=
  if vs.any fun v => inEpisode v.st then
    if g.epi.isSome then g
    else { g with epi := some now, settled := false, wasFinal := false, late := false, unc := false, cands := [],
                  fo := none, episode := g.episode + 1 }
  else { g with epi := none, settled := false, wasFinal := false, late := false, unc := false, cands := [], fo := none }

/-- Members that have entered one of the three states become candidates (R267, R269). -/
def Grp.takeCands (g : Grp) (vs : List MemView) (unlocked : Nat → Bool) : Grp :=
  let new := (vs.filter fun v => inEpisode v.st && !g.cands.any fun c => c.1 == v.addr).map
    fun v => (v.addr, v.onset, unlocked v.addr)
  let all := g.cands ++ new
  { g with cands := all, unc := all.any fun c => c.2.2 }

/-- The first-out: the earliest onset while provisional; after FINAL only one more than 2 µs earlier, with LATE (R267,
R268). -/
def Grp.chooseFo (g : Grp) : Grp :=
  match bestCand g.cands with
  | none => { g with fo := none }
  | some b =>
    match g.fo with
    | none => { g with fo := some b }
    | some f =>
      if g.wasFinal then (if b.2 + foWindow < f.2 then { g with fo := some b, late := true } else g)
      else { g with fo := some b }

/-- PROVISIONAL or FINAL (R268). -/
def Grp.finality (g : Grp) (vs : List MemView) (now settle : Nat) : Grp :=
  match g.fo with
  | none => { g with prov := false }
  | some f =>
    let set' := g.settled || (match g.epi with | some t => decide (t + ms settle ≤ now) | none => false)
    let wait := vs.any fun v => v.st == 1 && decide (v.onset < f.2 + foWindow)
    { g with settled := set', prov := !set' || wait, wasFinal := g.wasFinal || (set' && !wait) }

/-- Horn and lamp of a group (R270, R271). -/
def Grp.outputs (g : Grp) (vs : List MemView) (least pat : Nat) : Grp :=
  let h := if g.silenced then none else hornOf vs least
  { g with horn := h.isSome, hornCmd := (h.map (patternCmd pat)).getD 0, lampCmd := lampOf vs }

/-- What a group event tells changes of (R276). -/
def Grp.shown (g : Grp) : List Nat × List Bool :=
  ([g.st, g.cat, (g.fo.map fun f => f.1 + 1).getD 0], [g.prov, g.late, g.unc, g.incomplete, g.horn])

/-- The payload of a group event (R276). -/
def Grp.word (g old : Grp) (n : Nat) : Word :=
  put 0 10 n ||| put 10 4 g.st ||| put 14 2 g.cat ||| putB 16 (decide (g.fo.map (·.1) ≠ old.fo.map (·.1))) |||
  putB 17 (g.fo.isSome && !g.prov) ||| putB 18 g.late ||| putB 19 g.unc ||| putB 20 g.incomplete ||| putB 21 g.horn

/-- Source of a group's events (R276). -/
def grpSource (n : Nat) : Nat := if n ≤ 190 then 320 + n else 511

/-- A group judged anew from its members (R265 to R270). -/
def grpJudge (s : State) (n : Nat) (unlocked : Nat → Bool) (g : Grp) : Grp :=
  let vs := (grpMembers s n).map (memView s)
  let g1 := ((g.episodeStep vs s.now).takeCands vs unlocked).chooseFo
  let g2 := (g1.finality vs s.now (s.cfgNat secGROUPS 6 2)).outputs vs (s.grpField n 26 1 % 4) (s.grpField n 27 1)
  { g2 with st := groupState vs, cat := groupCat vs,
            incomplete := vs.any fun v => s.grp.incNodes.contains (addrNode v.addr).toNat,
            alarmed := (vs.filter fun v => inEpisode v.st).length, scan := s.pev.num }

/-- A group is updated; a change raises its event (R266, R276). -/
def grpUpdate (unlocked : Nat → Bool) (s : State) (n : Nat) : State :=
  let old := s.grp.get n
  let g := grpJudge s n unlocked old
  let s1 := s.putGrp n g
  if g.shown = old.shown then s1 else raise (grpSource n) (g.word old n) s1

/-- The groups that hold one of some points. -/
def groupsOf (s : State) (p : Nat → Bool) : List Nat :=
  (List.range s.grpCount).filter fun n => (grpMembers s n).any p

/-- A member newly in ALARM_UNACK or FAULT unacknowledged ends the silence of its groups and of the node-wide horn
(R271). -/
def grpUnsilence (p : Nat → Bool) (s : State) : State :=
  let s1 := (groupsOf s p).foldl (fun a n => a.putGrp n { a.grp.get n with silenced := false }) s
  s1.setAnn fun a => { a with silenced := false }

/-! ### Call points (R278, R279) -/

/-- The call service runs: a manager with a CALL section (R278). -/
def callOn (s : State) : Bool := s.isManager && bankHas s.activeBank secCALL

/-- A field of the CALL section. -/
def State.callNat (s : State) (off n : Nat) : Nat := s.cfgNat secCALL off n

/-- A point is a member of a call group (R279). -/
def callMember (s : State) (a : Nat) : Bool :=
  (List.range (min 1024 s.grpCount)).any fun g =>
    (s.callNat (16 + g / 8) 1).testBit (g % 8) && (grpMembers s g).contains a

/-- A call point entered ALARM_UNACK, or FAULT unacknowledged with FLT_CALL: its session starts at the next scan end
(R279). -/
def callStart (v : MemView) (time : Nat) (noTime : Bool) (s : State) : State :=
  if callOn s ∧ 2 ≤ v.cat ∧ (v.st = 2 ∨ (s.callNat 8 1).testBit 0) ∧ callMember s v.addr then
    { s with call := { s.call with
        starts := s.call.starts ++ [{ addr := v.addr, cat := v.cat, start := time, noTime := noTime }] } }
  else s

/-- The engineers' alarm sounds: a session is in ALL (R282). -/
def engAlm (s : State) : Bool := s.call.ovf.st == 3 || s.call.sess.any fun p => p.2.st == 3

/-- The own slots that newly are in ALARM_UNACK or FAULT unacknowledged since GRP last read ANN. -/
def newlyLoud (s : State) : List Nat :=
  (List.range 80).filter fun n =>
    let p := s.ptAt n
    let st := s.slotState n
    s.ptUsed n && ((st == 2 && p.grpSt != 2) || (faultUnack p.flags && !(p.grpSt == 8 && p.grpFun)))

/-- GRP reads ANN: what each own point's state now is (R265). -/
def grpRead (s : State) : State :=
  { s with pev := { s.pev with pts := s.pev.pts.mapFinIdx fun i p _ =>
      { p with grpSt := s.slotState i, grpFun := faultUnack p.flags } } }

/-- GRP takes ANN's changes so far: silences end, and calls start (R265, R271, R279). -/
def grpNotice (s : State) : State :=
  let l := newlyLoud s
  let s1 := l.foldl (fun a n => callStart (memView a (a.ownAddr n)) (a.ptAt n).lastTrans false a) s
  grpRead (if l = [] then s else grpUnsilence (fun a => s.isOwn a && l.contains (addrSlot a)) s1)

/-- Every own point and every member, as the node-wide outputs see them (R270). -/
def nodeViews (s : State) : List MemView :=
  (((List.range 80).filter s.ptUsed).map fun n => memView s (s.ownAddr n)) ++
    ((allMembers s).filter fun a => !s.isOwn a).map (memView s)

/-- The default horn patterns of R248: OFF, SLOW, ON, FAST from CAUTION up. -/
def defaultPattern : Nat := 0xD8

/-- The node-wide horn's and lamp's commands (R270, R271). -/
def nodeOutputs (s : State) : Nat × Nat :=
  let vs := nodeViews s
  let h := if s.ann.silenced then none else hornOf vs (s.cfgNat secGROUPS 12 1 % 4)
  ((h.map (patternCmd defaultPattern)).getD 0, lampOf vs)

/-- Height of a command in the order FAST, ON, SLOW, OFF (R271). -/
def cmdRank : Nat → Nat
  | 3 => 3
  | 1 => 2
  | 2 => 1
  | _ => 0

/-- The higher of two commands. -/
def cmdMax (a b : Nat) : Nat := if cmdRank a < cmdRank b then b else a

/-- A point is listed by the renderer: ALARM_UNACK, ALARM_ACK, RETURN_UNACK or FAULT (R431). -/
def MemView.listed (v : MemView) : Bool := inEpisode v.st || v.st == 8

/-- The panel lamp's command: FAST while a listed point is unacknowledged, ON while points are listed (R432). -/
def panelLamp (s : State) : Nat :=
  let l := (nodeViews s).filter MemView.listed
  if l.any (·.unack) then 3 else if l.isEmpty then 0 else 1

/-- The command that the groups, the node-wide assignment and the call service ask of DIO channel `ch`, 1 to 16 (R270,
R271, R282, R432). -/
def wantedCmd (s : State) (node : Nat × Nat) (ch : Nat) : Nat :=
  let eng := if callOn s ∧ s.callNat 10 1 = ch ∧ engAlm s then 1 else 0
  let lamp := if s.cfgNat secPANEL 14 1 = ch then panelLamp s else 0
  let own := cmdMax (cmdMax eng lamp)
    (cmdMax (if s.cfgNat secGROUPS 8 1 = ch then node.1 else 0) (if s.cfgNat secGROUPS 9 1 = ch then node.2 else 0))
  (List.range s.grpCount).foldl (fun a n =>
    let g := s.grp.get n
    cmdMax (cmdMax a (if s.grpField n 24 1 = ch then g.hornCmd else 0)) (if s.grpField n 25 1 = ch then g.lampCmd else 0))
    own

/-- Horn and lamp commands are posted to the outputs with SRC 2 (R270). -/
def grpPost (s : State) : State :=
  let node := nodeOutputs s
  (List.finRange 16).foldl (fun a c =>
    if a.dio[c].output ∧ a.dio[c].src = 2 then
      dioNotify c a (dioCommand c (BitVec.ofNat 2 (wantedCmd s node (c.val + 1))) a) else a) s

/-- The alarmed members of every group as the GROUP operator reads them in the next scan (R216). -/
def grpPosted (s : State) : State :=
  (List.range s.grpCount).foldl (fun a n => a.putGrp n { a.grp.get n with posted := (a.grp.get n).alarmed }) s

/-- GRP's part of a scan end: silences, groups and their events (R265, R266). -/
def grpScanEnd (s : State) : State :=
  let s1 := grpNotice s
  let un := !s.timeLocked
  grpPosted ((List.range s1.grpCount).foldl (grpUpdate fun a => s.isOwn a && un) s1)

/-- A remote member's record replaced, and its groups judged at once: within 100 µs of the frame (R265, R266). `time` is
that of the transition, none in a report. -/
def grpRemote (a : Nat) (r : RemRec) (unlocked : Bool) (time : Option Nat) (s : State) : State :=
  if s.isOwn a ∨ (allMembers s).contains a = false then s
  else
    let old := s.grp.mem a
    let s1 := s.setGrps fun b => { b with mems := tblPut {} b.mems a r }
    let loud := fun (x : RemRec) => x.st == 2 || (x.st == 8 && x.unack)
    let s2 := if loud r && !(loud old && old.st == r.st) then
        callStart (memView s1 a) (time.getD 0) time.isNone (grpUnsilence (· == a) s1) else s1
    (groupsOf s2 (· == a)).foldl (grpUpdate fun _ => unlocked) s2

/-- ALM_TRANS of a member (R265): an entry's fields and whether it was an ACK. -/
def grpTrans (e : TrEntry) (onset time : Nat) (s : State) : State :=
  let r := s.grp.mem e.addr
  grpRemote e.addr { r with st := knownState e.after, cat := e.cat, onset := if onset = 0 then r.onset else onset,
                            unack := e.event != 10, rep := true, cause := e.cause, value := e.value }
    e.unlocked (some time) s

/-- ALM_PENDING makes a member PENDING; its state before is kept (R265). -/
def grpPend (a cat onset : Nat) (s : State) : State :=
  let r := s.grp.mem a
  grpRemote a { r with st := 1, cat := cat, onset := onset, rep := true, prev := if r.st = 1 then r.prev else r.st } false none s

/-- ALM_RETRACT of a member returns it to the state before (R265); the pair is address and onset (R334). -/
def grpRetract (a onset : Nat) (s : State) : State :=
  let r := s.grp.mem a
  if r.st = 1 ∧ r.onset = onset then grpRemote a { r with st := r.prev, rep := true } false none s else s

/-- An entry of a point state report (R265, R328): a newly alarmed member takes the report's scan start as its onset. -/
def grpReport (a : Nat) (e : Half) (t : Nat) (s : State) : State :=
  if bit e 15 = false then s
  else
    let r := s.grp.mem a
    let st := knownState (fld e 0 4)
    grpRemote a { r with st := st, cat := fld e 4 2, unack := bit e 9, rep := true, cause := fld e 10 4,
                         onset := if inEpisode st && !inEpisode r.st then t else r.onset } false none s

/-- A node's groups become INCOMPLETE, or whole again (R273, R332). -/
def grpIncomplete (node : Half) (b : Bool) (s : State) : State :=
  let was := s.grp.incNodes.filter (· != node.toNat)
  let s1 := s.setGrps fun k => { k with incNodes := if b then was ++ [node.toNat] else was }
  (groupsOf s1 fun a => addrNode a == node).foldl (grpUpdate fun _ => false) s1

/-- A received frame finds GRP's queue full (R273). -/
def grpDropped (node : Half) (s : State) : State :=
  imzStateReq node (grpIncomplete node true (s.setGrps fun k => { k with drop := satInc 255 k.drop }))

/-- A group's record in the group table (R277). -/
def grpRecord (s : State) (n : Nat) : List Byte :=
  if s.grpCount ≤ n then List.replicate 32 0
  else
    let g := s.grp.get n
    let vs := (grpMembers s n).map (memView s)
    let noRep := vs.any fun v => !s.isOwn v.addr && !(s.grp.mem v.addr).rep
    let sim := match g.fo with
      | none => 0
      | some f => (g.cands.filter fun c => c.1 ≠ f.1 && decide (c.2.1 ≤ f.2 + foWindow ∧ f.2 ≤ c.2.1 + foWindow)).length
    bytesLE 1 (g.st + 16 * g.cat) ++
    bytesLE 1 ((putB 0 g.prov ||| putB 1 (g.fo.isSome && !g.prov) ||| putB 2 g.late ||| putB 3 g.unc |||
      putB 4 g.incomplete ||| putB 5 g.horn ||| putB 6 g.silenced ||| putB 7 noRep).toNat) ++
    bytesLE 2 sim ++ bytesLE 4 (match g.fo with | none => 0xFFFFFFFF | some f => f.1) ++
    bytesLE 8 (match g.fo with | none => 0 | some f => (stampOf f.2).toNat) ++
    bytesLE 2 (vs.filter fun v => v.st == 2 || v.st == 3).length ++ bytesLE 2 (vs.filter (·.unack)).length ++
    bytesLE 2 (vs.filter fun v => v.st == 1).length ++ bytesLE 2 vs.length ++ bytesLE 4 g.episode.toNat ++
    bytesLE 4 g.scan.toNat

/-- FO_SETTLE_EXPIRY: `FO_SETTLE` has passed in the group's episode (R268). -/
def execFoSettleExpiry (g : Fin 1024) (s : State) : Host.Outcome State Fault Refusal :=
  .next (if (s.grp.get g.val).epi.isSome ∧ g.val < s.grpCount then
    grpUpdate (fun _ => false) (s.putGrp g.val { s.grp.get g.val with settled := true }) g.val else s)

end Sys2Proof.Machine
end

