-- ==== Sys2Proof/Machine/Call.lean ====
section
/-! DEFINITION. Call: the duty engineer call: sessions, wait list and overflow session, units, duty selection, answers,
CALL_STEP (ch. 11). -/
namespace Sys2Proof.Machine

open Sys2Proof

/-- The state with the call service replaced. -/
def State.setCall (s : State) (f : Call → Call) : State := { s with call := f s.call }

/-- Session `n`; 256 is the overflow session. -/
def Call.get (c : Call) (n : Nat) : Sess := if n = 256 then c.ovf else tblGet {} c.sess n

/-- Session `n` replaced. -/
def Call.put (c : Call) (n : Nat) (x : Sess) : Call :=
  if n = 256 then { c with ovf := x } else { c with sess := tblPut {} c.sess n x }

/-- Session `n` replaced in the state. -/
def State.putSess (s : State) (n : Nat) (x : Sess) : State := s.setCall fun c => c.put n x

/-! ### The CALL section (R296) -/

/-- T1, T2, T3 in ticks. -/
def callT1 (s : State) : Nat := sec (s.callNat 0 2)
/-- T2. -/
def callT2 (s : State) : Nat := sec (s.callNat 2 2)
/-- T3. -/
def callT3 (s : State) : Nat := sec (s.callNat 4 2)
/-- Roster entry `e` is in use. -/
def rosterUsed (s : State) (e : Nat) : Bool := decide (e < 16) && (s.callNat (144 + 24 * e) 1).testBit 0
/-- Cabin unit of roster entry `e`, none for 0xFF. -/
def cabinOf (s : State) (e : Nat) : Option Nat :=
  let u := s.callNat (144 + 24 * e + 1) 1
  if u < 64 then some u else none
/-- Node of unit `u`. -/
def unitNode (s : State) (u : Nat) : Nat := s.callNat (528 + 8 * u) 2
/-- Kind of unit `u`, 0 unused. -/
def unitKind (s : State) (u : Nat) : Nat := s.callNat (528 + 8 * u + 2) 1
/-- Roster entry of a CABIN unit. -/
def unitEntry (s : State) (u : Nat) : Nat := s.callNat (528 + 8 * u + 3) 1

/-- The unit that a node is. -/
def unitOf (s : State) (node : Half) : Option Nat :=
  (List.range 64).find? fun u => unitKind s u != 0 && unitNode s u == node.toNat

/-- Unit `u` is LOST. -/
def unitLost (s : State) (u : Nat) : Bool := bit s.call.lost u

/-- Every MACHINERY unit is lost, and there is one (R283). -/
def machLost (s : State) : Bool :=
  let m := (List.range 64).filter fun u => unitKind s u == 1
  !m.isEmpty && m.all (unitLost s)

/-- The duty engineer's cabin unit (R282). -/
def dutyCabin (s : State) : Option Nat := s.call.duty.bind (cabinOf s)

/-- The duty engineer's cabin unit is lost (R283). -/
def cabinLost (s : State) : Bool := match dutyCabin s with | some u => unitLost s u | none => false

/-! ### Events (R298) -/

/-- Kind 0: a session's change. -/
def sessWord (n : Nat) (x : Sess) : Word :=
  put 0 9 n ||| put 9 3 x.st ||| putB 12 x.reesc ||| putB 13 x.unitLost ||| putB 14 x.replay ||| put 15 3 x.endCause

/-- Source of a session's events. -/
def sessSource (n : Nat) : Nat := 64 + min n 255

/-- Kind 1: a duty change. -/
def dutyWord (c : Call) : Word :=
  put 28 4 1 ||| put 0 5 (c.duty.getD 0) ||| putB 5 c.duty.isNone ||| put 8 3 c.dutySrc ||| putB 11 c.conflict

/-- Kind 2: a unit's loss or return. -/
def unitWord (u : Nat) (lost : Bool) : Word := put 28 4 2 ||| put 0 6 u ||| putB 6 lost

/-- Kind 3: SATURATED and the wait list. -/
def waitWord (c : Call) (lost : Bool) : Word :=
  put 28 4 3 ||| putB 0 (!c.wait.isEmpty) ||| putB 1 lost ||| put 16 10 c.wait.length

/-! ### CALL_STEP (R282, R287, R336) -/

/-- Sound mask of a state over the unit kinds. -/
def soundMask : Nat → Nat
  | 1 => 0b00010
  | 2 => 0b11010
  | 3 => 0b11110
  | _ => 0

/-- Show mask. -/
def showMask : Nat → Nat
  | 2 => 0b00100
  | 4 => 0b11110
  | _ => 0

/-- Duty engineer as a byte. -/
def dutyByte (s : State) : Nat := s.call.duty.getD 0xFF

/-- A CALL_STEP's 32 bytes. -/
def stepBytes (s : State) (n : Nat) (x : Sess) : List Byte :=
  bytesLE 2 n ++ bytesLE 1 x.st ++ [x.seq] ++ bytesLE 1 (soundMask x.st) ++ bytesLE 1 (showMask x.st) ++
  bytesLE 1 (dutyByte s) ++ bytesLE 1 x.eng ++
  bytesLE 4 (x.addr % 2 ^ 23 + x.cat % 4 * 2 ^ 23 + x.endCause % 8 * 2 ^ 25 + (if x.reesc then 2 ^ 28 else 0) +
    (if x.unitLost then 2 ^ 29 else 0) + (if x.replay then 2 ^ 30 else 0)) ++
  bytesLE 8 (stampOf x.start).toNat ++
  bytesLE 2 (match dutyCabin s with | some u => unitNode s u | none => 0xFFFF) ++ List.replicate 10 0

/-- A session's CALL_STEP goes downstream; the record keeps the duty engineer sent. -/
def callSend (n : Nat) (s : State) : State :=
  let x := s.call.get n
  imzSendDown 2 0x20 3 (stepBytes s n x) (s.putSess n { x with dutySent := dutyByte s })

/-- A new step: the sequence rises, and the CALL_STEP goes. -/
def callNewStep (n : Nat) (s : State) : State :=
  let x := s.call.get n
  callSend n (s.putSess n { x with seq := x.seq + 1, scan := s.pev.num })

/-- A session's change of state is announced by frame and event; IDLE has no frame (R287, R298). -/
def callAnnounce (n : Nat) (s : State) : State :=
  let s1 := if (s.call.get n).st = 0 then s else callNewStep n s
  raise (sessSource n) (sessWord n (s1.call.get n)) s1

/-! ### Sessions (R279 to R285) -/

/-- The end cause of a point's session, 0 while it holds (R280, R285). -/
def callEnd (s : State) (a : Nat) : Nat :=
  let v := memView s a
  if s.call.removed.contains a || !(allMembers s).contains a then 4
  else if v.st = 6 then 2
  else if v.st = 7 then 3
  else if v.unack then 0 else 1

/-- A running expiry has passed at the scan start, or has come by its command (R284). -/
def Sess.passed (x : Sess) (start : Nat) : Bool :=
  x.due || (match x.expiry with | some e => decide (e ≤ start) | none => false)

/-- LOCAL passes to DUTY (R283). -/
def Sess.toDuty (s : State) (x : Sess) : Sess :=
  let start := s.pev.start
  if x.st = 1 ∧ (x.passed start ∨ machLost s) then
    { x with st := 2, unitLost := x.unitLost || !x.passed start, entry := start, expiry := some (start + callT2 s),
             due := false }
  else x

/-- DUTY passes to ALL, at its entry too (R283). -/
def Sess.toAll (s : State) (x : Sess) : Sess :=
  if x.st = 2 ∧ (x.passed s.pev.start ∨ s.call.duty = none ∨ cabinLost s) then
    { x with st := 3, unitLost := x.unitLost || cabinLost s, entry := s.pev.start, expiry := none, due := false,
             hadAll := true }
  else x

/-- ACKED passes to ALL when T3 has passed with the point unacknowledged (R283). -/
def Sess.reescalate (s : State) (x : Sess) : Sess :=
  if x.st = 4 ∧ x.passed s.pev.start then
    { x with st := 3, reesc := true, entry := s.pev.start, expiry := none, due := false, hadAll := true }
  else x

/-- The escalation of a running session at a scan end. -/
def Sess.escalate (s : State) (x : Sess) : Sess := Sess.toAll s (Sess.toDuty s (Sess.reescalate s x))

/-- A running session ends (R285). -/
def Sess.ended (x : Sess) (cause start : Nat) : Sess :=
  { x with st := 5, endCause := cause, entry := start, expiry := none, due := false }

/-- A running session at a scan end: it ends, escalates or stays, with its frames and events (R283, R287, R290). -/
def callJudge (n : Nat) (old : Nat) (s : State) : State :=
  let x := s.call.get n
  let e := callEnd s x.addr
  let y := if e ≠ 0 then x.ended e s.pev.start else x.escalate s
  let s1 := s.putSess n y
  let s2 := if x.st = 4 ∧ y.st = 3 then s1.setCall fun c => { c with reescCnt := satInc 255 c.reescCnt } else s1
  if y.st ≠ old then callAnnounce n s2
  else if y.st = 2 ∧ s.call.dutyNew then callNewStep n s2
  else s2

/-- A context becomes free: CLEARED for 2 s (R283). -/
def callFree (s : State) (n : Nat) : State :=
  let x := s.call.get n
  if x.st = 5 ∧ (x.due ∨ x.entry + sec 2 ≤ s.pev.start) then
    callAnnounce n (s.putSess n { seq := x.seq, scan := s.pev.num })
  else s

/-- The lowest IDLE context (R291). -/
def freeContext (s : State) : Option Nat := (List.range 256).find? fun n => (s.call.get n).st == 0

/-- The state that a waiting alarm's age gives (R291). -/
def ageState (s : State) (w : WaitAlarm) : Nat :=
  let age := (s.pev.start : Int) - w.start - w.sh
  if age < callT1 s then 1 else if age < callT1 s + callT2 s then 2 else 3

/-- A moment after a waiting alarm's start. -/
def WaitAlarm.at (w : WaitAlarm) (t : Nat) : Nat := ((w.start : Int) + w.sh + t).toNat

/-- An alarm takes a context in a state (R283, R291). -/
def callBegin (n : Nat) (w : WaitAlarm) (st : Nat) (s : State) : State :=
  let x : Sess :=
    { st := st, addr := w.addr, cat := w.cat, start := w.start, entry := s.pev.start, seq := (s.call.get n).seq,
      expiry := if st = 1 then some (w.at (callT1 s)) else if st = 2 then some (w.at (callT1 s + callT2 s)) else none,
      hadAll := decide (st = 3) }
  callJudge n 0 (s.putSess n x)

/-- The oldest waiting alarms take the free contexts, at most `k` of them (R291). -/
def callFill : Nat → State → State
  | 0, s => s
  | k + 1, s =>
    match s.call.wait, freeContext s with
    | w :: rest, some n => callFill k (callBegin n w (ageState s w) (s.setCall fun c => { c with wait := rest }))
    | _, _ => s

/-- An alarm has a running session, or waits for one (R279). -/
def callHas (s : State) (a : Nat) : Bool :=
  (s.call.sess.any fun p => p.2.addr == a && decide (1 ≤ p.2.st) && decide (p.2.st ≤ 4)) ||
    s.call.wait.any fun w => w.addr == a

/-- An alarm that started since the last scan end: a session, the wait list, or the overflow (R279, R291, R292). -/
def callTake (s : State) (w0 : WaitAlarm) : State :=
  let w : WaitAlarm := if w0.noTime then { w0 with start := s.pev.start, noTime := false } else w0
  if callHas s w.addr ∨ callEnd s w.addr ≠ 0 then s
  else
    match freeContext s with
    | some n => callBegin n w 1 s
    | none =>
      if s.call.wait.length < 512 then s.setCall fun c => { c with wait := c.wait ++ [w] }
      else
        let s1 := s.setCall fun c => { c with lostCnt := satInc 255 c.lostCnt, lostNow := true }
        raise 319 (waitWord s1.call true) s1

/-! ### Answers and duty selection (R288 to R290) -/

/-- The present state addresses a unit (R282, R288). -/
def addresses (s : State) (st kind : Nat) (unit : Option Nat) : Bool :=
  match kind with
  | 1 => st == 1 || st == 2 || st == 3
  | 3 => st == 2 || st == 3
  | 4 => st == 3 || (st == 2 && (dutyCabin s).isSome && dutyCabin s == unit)
  | _ => false

/-- The engineer that answers, none where the field names none that may: 0xFF is anonymous, from MACHINERY only. -/
def answerEng (s : State) (kind : Nat) (unit : Option Nat) (eng : Nat) : Option Nat :=
  if kind = 4 then unit.map (unitEntry s)
  else if eng = 0xFF then (if kind = 1 then some 0xFE else none)
  else if rosterUsed s eng then some eng else none

/-- The code that an answer of a session gets, 0 accepted, and the engineer (R283, R288; CALL_CMD_RES). -/
def answerCode (s : State) (c : CallCmd) (kind : Nat) (unit : Option Nat) : Nat × Nat :=
  let x := s.call.get c.session
  if 256 < c.session ∨ x.st = 0 ∨ x.st = 5 then (4, 0)
  else if c.op = 3 ∧ c.addr ≠ x.addr then (4, 0)
  else if x.st = 4 then (5, 0)
  else if !addresses s x.st kind unit then (8, 0)
  else match answerEng s kind unit c.eng with
  | none => (3, 0)
  | some e => (0, e)

/-- An accepted answer takes the session to ACKED (R283); the overflow session stays in ALL while the wait list has no room
for an alarm that was lost, and shows who answered (R292). -/
def callAcked (c : CallCmd) (eng : Nat) (s : State) : State :=
  let x := s.call.get c.session
  let y := { x with eng := eng, unit := c.src, ackTime := c.org.ack, replay := x.replay || c.org.replay }
  if c.session = 256 ∧ s.call.lostNow then callNewStep 256 (s.putSess 256 y)
  else
    callAnnounce c.session (s.putSess c.session
      { y with st := 4, lvl := x.st, entry := s.pev.start, expiry := some (c.org.ack + callT3 s), due := false })

/-- An answer is judged. -/
def callAnswer (c : CallCmd) (s : State) : Nat × State :=
  let unit := if c.op = 3 ∧ c.src < 64 then some c.src else none
  let kind := match unit with
    | some u => unitKind s u
    | none => if c.op = 3 then 0 else if c.org.loc then 1 else 3
  let r := answerCode s c kind unit
  if r.1 = 0 then (0, callAcked c r.2 s)
  else (r.1, if c.op = 3 then s.setCall fun k => { k with ackRej := satInc 255 k.ackRej } else s)

/-- A duty selection takes effect (R289, R290). -/
def setDuty (e src : Nat) (conflict : Bool) (s : State) : State :=
  let s1 := s.setCall fun c =>
    { c with duty := some e, dutySrc := src, conflict := conflict, dutyNew := c.dutyNew || c.duty != some e }
  if s.call.duty = some e ∧ s.call.dutySrc = src ∧ s.call.conflict = conflict then s1 else raise 319 (dutyWord s1.call) s1

/-- One command of the scan end (R288, R289): the code it gets. -/
def callCarry (s : State) (c : CallCmd) : Nat × State :=
  if c.op = 1 then (if rosterUsed s c.eng then (0, setDuty c.eng c.src (decide (c.src = 4 ∧ c.session = 1)) s) else (3, s))
  else callAnswer c s

/-- The RSP's code for a call command (R342). -/
def callRsp (code : Nat) : Nat := if code = 2 then 4 else if code = 1 then 3 else if code = 0 then 0 else 2

/-- A command's result is reported. -/
def callCommand (s : State) (c : CallCmd) : State :=
  let (code, s1) := callCarry s c
  let s2 := if c.reg then s1.setCall fun k =>
      { k with pend := false, resOp := c.op, resCode := code, resSess := c.session } else s1
  answerTo c.org (callRsp code) code 0 (if c.key = 0 then s2 else keyDone c.key 2 code s2)

/-! ### The overflow session (R292) -/

/-- The state that the waiting alarms ask of the overflow session. -/
def ovfTarget (s : State) (x : Sess) : Nat :=
  let aged := s.call.wait.foldl (fun a w => max a (ageState s w)) 0
  let t := if x.due && decide (x.st ≤ 2) then max aged (x.st + 1) else aged
  let held := if x.reesc then 3 else if x.unitLost && decide (x.st ≤ 3) then max t x.st else t
  let t1 := if held = 1 ∧ machLost s then 2 else held
  if t1 = 2 ∧ (s.call.duty = none ∨ cabinLost s) then 3 else t1

/-- Next expiry of the overflow session in a state, by the earliest start among the waiting. -/
def ovfExpiry (s : State) (st : Nat) : Option Nat :=
  let add := if st = 1 then callT1 s else callT1 s + callT2 s
  if st = 1 ∨ st = 2 then (s.call.wait.map fun w => w.at add).min? else none

/-- The overflow session while alarms wait. -/
def ovfRun (s : State) : Sess :=
  let x0 := s.call.ovf
  let x : Sess := if x0.st = 0 ∨ x0.st = 5 then { seq := x0.seq } else x0
  let x1 := match s.call.wait with
    | w :: _ => { x with addr := w.addr, cat := w.cat, start := w.start }
    | [] => x
  let t := ovfTarget s x1
  let lost := x1.unitLost || (t == 2 && machLost s) || (t == 3 && cabinLost s)
  if s.call.lostNow then
    { x1 with st := 3, entry := if x1.st = 3 then x1.entry else s.pev.start, expiry := none, due := false, hadAll := true }
  else if x1.st = 4 then
    let y := x1.reescalate s
    if y.st = 3 then y
    else if x1.lvl < t then
      { x1 with st := t, entry := s.pev.start, expiry := ovfExpiry s t, due := false, hadAll := x1.hadAll || t == 3 }
    else x1
  else
    { x1 with st := t, unitLost := if t = x1.st then x1.unitLost else lost, due := false,
              entry := if t = x1.st then x1.entry else s.pev.start, expiry := ovfExpiry s t,
              hadAll := x1.hadAll || t == 3 }

/-- The overflow session at a scan end; no rule gives the cause of its end, a free value of the field (log 1). -/
def callOverflow (s0 : State) : State :=
  let s := if s0.call.wait.length < 512 then s0.setCall fun c => { c with lostNow := false } else s0
  let x := s.call.ovf
  let done := s.call.wait.isEmpty
  let ends := done && decide (1 ≤ x.st) && decide (x.st ≤ 4)
  let y := if !done then ovfRun s else if ends then x.ended (fld s.freeVal 0 3) s.pev.start else x
  let s1 := (if ends then s.drew else s).putSess 256 y
  let s2 := if x.st = 4 ∧ y.st = 3 then s1.setCall fun c => { c with reescCnt := satInc 255 c.reescCnt } else s1
  if y.st ≠ x.st then callAnnounce 256 s2
  else if y.st = 2 ∧ s.call.dutyNew then callNewStep 256 s2
  else s2

/-! ### The scan end (R284) -/

/-- A change of SATURATED is announced (R291, R298). -/
def callSaturated (s : State) : State :=
  let sat := !s.call.wait.isEmpty
  if sat = s.call.satSent then s else raise 319 (waitWord s.call false) (s.setCall fun c => { c with satSent := sat })

/-- A command that waits as the service goes is refused with NO_SERVICE (R278). -/
def callDropped (s : State) (c : CallCmd) : State :=
  let s1 := if c.reg then s.setCall fun k =>
      { k with pend := false, resOp := c.op, resCode := 6, resSess := c.session } else s
  answerTo c.org (callRsp 6) 6 0 (if c.key = 0 then s1 else keyDone c.key 2 6 s1)

/-- A node without the call service has no sessions and holds no command (R278). -/
def callNone (s : State) : State :=
  let s1 := s.call.cmds.foldl callDropped s
  s1.setCall fun c => { resOp := c.resOp, resCode := c.resCode, resSess := c.resSess }

/-- Contexts whose session runs. -/
def runningSessions (s : State) : List Nat :=
  (List.range 256).filter fun n => decide (1 ≤ (s.call.get n).st) && decide ((s.call.get n).st ≤ 4)

/-- CALL's part of a scan end, after GRP (R284): commands, sessions, freed contexts, the wait list, new alarms and the
overflow session. -/
def callScanEnd (s : State) : State :=
  if !callOn s then callNone s
  else
    let s1 := s.call.cmds.foldl callCommand (s.setCall fun c => { c with cmds := [] })
    let s2 := (runningSessions s1).foldl (fun a n => callJudge n (a.call.get n).st a) s1
    let s3 := (List.range 257).foldl callFree s2
    let s4 := callFill 256 (s3.setCall fun c => { c with wait := c.wait.filter fun w => callEnd s3 w.addr == 0 })
    let s5 := s4.call.starts.foldl callTake (s4.setCall fun c => { c with starts := [] })
    callSaturated (callOverflow s5) |>.setCall fun c => { c with removed := [], dutyNew := false }

/-! ### Units (R286) -/

/-- The call service acts on units and sends: it runs on the unit that is not a standby. -/
def callActive (s : State) : Bool := callOn s && !s.standby && regionUp rALM s

/-- A unit is lost (R286). -/
def unitGone (u : Fin 64) (s : State) : State :=
  if callActive s ∧ regionUp rLNK s ∧ unitKind s u.val ≠ 0 ∧ unitLost s u.val = false then
    raise 319 (unitWord u.val true) (s.setCall fun c =>
      { c with lost := c.lost ||| BitVec.ofNat 64 (2 ^ u.val), unitLoss := satInc 255 c.unitLoss })
  else s

/-- A frame of a unit arrives: it is present again (R286). -/
def unitSeen (node : Half) (s : State) : State :=
  match unitOf s node with
  | none => s
  | some u =>
    if callActive s ∧ unitLost s u then
      raise 319 (unitWord u false) (s.setCall fun c => { c with lost := c.lost &&& ~~~(BitVec.ofNat 64 (2 ^ u)) })
    else s

/-! ### Selections and registers -/

/-- A call command taken here waits for the scan end, and is forwarded to the partner: a selection as DUTY, an answer as
the write of `CALL_CMD` (R288, R289, R368). -/
def callPush (c : CallCmd) (s : State) : State :=
  let w := put 24 5 c.eng ||| put 16 2 2 ||| put 0 9 c.session
  let s1 := s.setCall fun k => { k with cmds := k.cmds ++ [c] }
  if c.op = 1 then lvForward c.org [(0x20, bytesLE 1 c.eng)] s1
  else lvForward c.org [(0x02, bytesLE 4 0x048008 ++ [1, 0, 0, 0] ++ bytesLE 4 w.toNat)] s1

/-- A selection of the duty engineer from a source other than `CALL_CMD`: without the service it goes to the manager
(R278, R289). `conflict`: several selectors read 1. -/
def dutySelect (e src : Nat) (conflict : Bool) (org : Origin) (s : State) : State :=
  if s.standby then s
  else if callOn s then
    callPush { op := 1, eng := e, session := if conflict then 1 else 0, src := src, addr := 0, reg := false, org := org } s
  else if s.netTop then s
  else imzSendCmd s.netMgr false (cmdBytes s.netMgr 0x20 (if org.loc then 1 else 0) org.code s.nodeNum s.stamp
    (bytesLE 1 e)) s

/-- At the end of the first scan the lowest selector input that reads 1 selects, in conflict with others; one whose first
debounce ends later acts by its transition (R289, log 28). -/
def dutyAtStart (s : State) : State :=
  let on := (List.finRange 16).filter fun c => s.dio[c].func == 4 && !s.dio[c].output && s.dio[c].level
  let es := on.map fun c => s.dio[c].funcArg
  match es.min? with
  | some e => dutySelect e 4 (decide (1 < es.length)) { code := 4, loc := true, ack := s.now } s
  | none => s

/-- Answering unit code of a register write (record byte 21). -/
def callSrcUnit : Source → Nat
  | .hostA => 0xFD
  | .hostB => 0xFC
  | .imzin _ => 0xFF
  | .chip => 0xFB

/-- Selection source code of a register write (R289). -/
def callSrcCode : Source → Nat
  | .hostA => 1
  | .hostB => 2
  | .imzin _ => 3
  | .chip => 5

/-- Why `CALL_CMD` is refused at once, 0 when it is taken. -/
def callRefusal (s : State) (op : Nat) : Nat :=
  if !callOn s then 6 else if s.standby then 2 else if s.call.pend then 1 else if op = 3 then 7 else 0

/-- A write of `CALL_CMD` with an operation (ch. 11). -/
def callCmdWrite (op eng session : Nat) (src : Source) (s : State) : State :=
  let code := callRefusal s op
  if code ≠ 0 then s.setCall fun c => { c with resOp := op, resCode := code, resSess := session }
  else
    let e := if eng = 0x1F then 0xFF else eng
    callPush { op := op, eng := e, session := session, src := if op = 1 then callSrcCode src else callSrcUnit src, addr := 0,
               reg := true, org := s.originOf src } (s.setCall fun c => { c with pend := true })

/-- An expiry in a state comes by its command: the next scan end acts on it. -/
def callDue (n : Fin 257) (st : Nat) (s : State) : State :=
  let x := s.call.get n.val
  if x.st = st then s.putSess n.val { x with due := true } else s

/-- A running session's CALL_STEP is repeated; CLEARED once, 1 s after entry (R287). -/
def callRepeat (n : Fin 257) (clear : Bool) (s : State) : State :=
  let st := (s.call.get n.val).st
  if callActive s ∧ (if clear then st = 5 else 1 ≤ st ∧ st ≤ 4) then callSend n.val s else s

/-- A step of system time shifts the running expiries (R284). -/
def Sess.shift (x : Sess) (d : Int) : Sess :=
  let mv := fun (t : Nat) => ((t : Int) + d).toNat
  { x with expiry := x.expiry.map mv, entry := if x.st = 5 then mv x.entry else x.entry }

/-- Every session and waiting alarm is shifted. -/
def callShift (d : Int) (s : State) : State :=
  s.setCall fun c =>
    { c with sess := c.sess.map fun (n, x) => (n, x.shift d), ovf := c.ovf.shift d,
             wait := c.wait.map fun w => { w with sh := w.sh + d } }

/-- At a swap, expiries are recomputed from the new timers, and a duty engineer not in the new roster is dropped
(R295). -/
def Sess.retime (s : State) (x : Sess) : Sess :=
  match x.st with
  | 1 => { x with expiry := some (x.start + callT1 s) }
  | 2 => { x with expiry := some (x.entry + callT2 s) }
  | 4 => { x with expiry := some (x.ackTime + callT3 s) }
  | _ => x

/-- CALL at a swap (R278, R295). -/
def callSwap (s : State) : State :=
  if !callOn s then callNone s
  else
  let s1 := s.setCall fun c =>
    { c with sess := c.sess.map fun (n, x) => (n, x.retime s), ovf := c.ovf.retime s, lost := 0 }
  match s1.call.duty with
  | some e =>
    if rosterUsed s e then s1
    else
      let s2 := s1.setCall fun c => { c with duty := none, dutySrc := 0, conflict := false, dutyNew := true }
      raise 319 (dutyWord s2.call) s2
  | none => s1

/-- The default duty at start (R289). -/
def callInit (s : State) : State :=
  if callOn s then s.setCall fun c => { c with duty := if s.callNat 9 1 < 16 then some (s.callNat 9 1) else none }
  else s

/-- A session's record (ch. 11). -/
def sessRecord (s : State) (n : Nat) : List Byte :=
  let x := s.call.get n
  if !callOn s || x.st == 0 then List.replicate 32 0
  else
    bytesLE 4 (x.addr % 2 ^ 23 + x.st * 2 ^ 23 + x.cat % 4 * 2 ^ 26 + (if x.reesc then 2 ^ 28 else 0) +
      (if x.unitLost then 2 ^ 29 else 0) + (if x.replay then 2 ^ 30 else 0)) ++
    bytesLE 8 (stampOf x.start).toNat ++
    bytesLE 8 (match x.expiry with | some e => (stampOf e).toNat | none => 0) ++ bytesLE 1 x.eng ++ bytesLE 1 x.unit ++
    bytesLE 1 x.dutySent ++ [x.seq] ++ bytesLE 1 x.endCause ++ List.replicate 3 0 ++ bytesLE 4 x.scan.toNat

/-- A read of a CALL register; without the service they read 0, apart from the refusal shown (R278). -/
def callRead (s : State) (off : Nat) : Option Word :=
  let c := s.call
  let res := putB 31 c.pend ||| put 24 2 c.resOp ||| put 16 8 c.resCode ||| put 0 9 c.resSess
  if 0x1000 ≤ off ∧ off < 0x3020 then
    some (BitVec.ofNat 32 (ofBytesLE (((sessRecord s ((off - 0x1000) / 32)).drop (off % 32)).take 4)))
  else if off = 0xC then some res
  else if [0, 4, 8, 0x10, 0x14, 0x18, 0x1C].contains off = false then none
  else if !callOn s then some 0
  else match off with
  | 0 => some (putB 29 (!c.wait.isEmpty) ||| put 26 3 c.ovf.st ||| put 16 10 c.wait.length |||
      put 0 9 (c.sess.filter fun p => p.2.st != 0).length)
  | 4 => some (put 18 3 c.dutySrc ||| putB 16 c.conflict ||| putB 8 c.duty.isSome ||| put 0 5 (c.duty.getD 0))
  | 0x10 => some (put 24 8 c.ackRej ||| put 16 8 c.lostCnt ||| put 8 8 c.unitLoss ||| put 0 8 c.reescCnt)
  | 0x14 => some (BitVec.ofNat 32 c.lost.toNat)
  | 0x18 => some (BitVec.ofNat 32 (c.lost.toNat / 2 ^ 32))
  | 0x1C => some (put 20 11 (s.callNat 4 2) ||| put 10 10 (s.callNat 2 2) ||| put 0 10 (s.callNat 0 2))
  | _ => some 0

/-- CALL_T1_EXPIRY (R283). -/
def execCallT1Expiry (n : Fin 257) (s : State) : Host.Outcome State Fault Refusal := .next (callDue n 1 s)

/-- CALL_T2_EXPIRY (R283). -/
def execCallT2Expiry (n : Fin 257) (s : State) : Host.Outcome State Fault Refusal := .next (callDue n 2 s)

/-- CALL_T3_EXPIRY (R283). -/
def execCallT3Expiry (n : Fin 257) (s : State) : Host.Outcome State Fault Refusal := .next (callDue n 4 s)

/-- CALL_CLEARED_EXPIRY (R283). -/
def execCallClearedExpiry (n : Fin 257) (s : State) : Host.Outcome State Fault Refusal := .next (callDue n 5 s)

/-- CALL_STEP_REPEAT (R287). -/
def execCallStepRepeat (n : Fin 257) (s : State) : Host.Outcome State Fault Refusal := .next (callRepeat n false s)

/-- CALL_CLEAR_REPEAT (R287). -/
def execCallClearRepeat (n : Fin 257) (s : State) : Host.Outcome State Fault Refusal := .next (callRepeat n true s)

/-- CALL_UNIT_LOST (R286). -/
def execCallUnitLost (u : Fin 64) (s : State) : Host.Outcome State Fault Refusal := .next (unitGone u s)

/-- CALL_CMD_SELECT_DUTY (R289). -/
def execCallCmdSelectDuty (src : Source) (eng : BitVec 5) (session : BitVec 9) (s : State) :
    Host.Outcome State Fault Refusal :=
  .next (callCmdWrite 1 eng.toNat session.toNat src s)

/-- CALL_CMD_ACK_CALL (R288). -/
def execCallCmdAckCall (src : Source) (eng : BitVec 5) (session : BitVec 9) (s : State) :
    Host.Outcome State Fault Refusal :=
  .next (callCmdWrite 2 eng.toNat session.toNat src s)

/-- CALL_CMD_BAD_OP: OP 3. -/
def execCallCmdBadOp (src : Source) (session : BitVec 9) (s : State) : Host.Outcome State Fault Refusal :=
  .next (callCmdWrite 3 0 session.toNat src s)

end Sys2Proof.Machine
end

