-- ==== Sys2Proof/Machine/Imz.lean ====
section
/-! DEFINITION. Imz: the Imzin network: claims and conflicts, heartbeats, the state table, alarm frames and the flood
digest, reports, routing of commands and answers (R318 to R342). -/
namespace Sys2Proof.Machine

open Sys2Proof

/-! ### Reception -/

/-- A type's class and data length (R318, R333). -/
def typeShape : Nat → Option (Nat × Nat)
  | 0x01 => some (0, 8)
  | 0x02 => some (0, 16)
  | 0x10 => some (1, 32)
  | 0x11 => some (1, 24)
  | 0x12 => some (1, 24)
  | 0x13 => some (1, 64)
  | 0x20 => some (2, 32)
  | 0x21 => some (2, 16)
  | 0x30 => some (3, 48)
  | 0x31 => some (3, 32)
  | 0x40 => some (4, 64)
  | 0x41 => some (4, 48)
  | 0x50 => some (5, 48)
  | 0x60 => some (6, 64)
  | 0x70 => some (7, 16)
  | 0x71 => some (7, 16)
  | 0x72 => some (7, 16)
  | 0x73 => some (7, 16)
  | _ => none

/-- IMZ takes a frame: NEWDAT for it clears in the oldest receive buffer that holds it (R309). -/
def imzTook (cls typ : Nat) (f : ImzRx) (s : State) : State :=
  let c := s.can[f.bus]
  let id := frameId cls typ f.dir.toNat f.src
  match (List.range 64).find? fun r => bit c.imzNew r && memNat c.ram (rxOff r) 4 % 2 ^ 29 == id &&
      memBytes c.ram (rxOff r + 24) f.data.length == f.data with
  | none => s
  | some r => s.setCan f.bus fun c => { c with imzNew := c.imzNew &&& ~~~(BitVec.ofNat 64 (2 ^ r)) }

/-- An accepted frame of a type acts: while the network runs, of the type's length, and not on a standby, which answers
nothing and only logs commands (R333, R342, R368). -/
def imzRx (typ : Nat) (f : ImzRx) (act : State → State) (s : State) : State :=
  match typeShape typ with
  | none => s
  | some (cls, n) => if imzLive s ∧ s.standby = false ∧ f.data.length = n then act (imzTook cls typ f s) else s

/-- A frame came from the segment below (R326). -/
def fromBelow (s : State) (f : ImzRx) : Bool := decide (2 ≤ f.bus.val) && s.isManager

/-- A frame came from the segment above. -/
def fromAbove (f : ImzRx) : Bool := decide (f.bus.val < 2)

/-- The member entry of a node, where it is listed (R327, R352). -/
def memberOf (s : State) (node : Half) : Option Nat := (List.range s.netCount).find? fun i => s.member i == node

/-- A node of the subtree: a member, or one whose claim was forwarded (R324). -/
def inSubtree (s : State) (node : Half) : Bool :=
  (memberOf s node).isSome || s.imz.claims.any fun c => c.node == node.toNat

/-! ### Claims and conflicts (R322 to R325) -/

/-- An ADDR_CLAIM's 16 bytes (R339). -/
def claimBytes (s : State) : List Byte :=
  let flags := (if s.isManager then 2 else 0) + (if s.isPaired then 4 else 0) + (if s.sys.roleB then 8 else 0) +
    (if s.imz.conflict then 32 else 0)
  bytesLE 8 Config.serial.toNat ++ bytesLE 4 (s.rcp.recipes[s.rcp.active].seq).toNat ++ bytesLE 1 flags ++
  bytesLE 1 s.netLevel ++ bytesLE 2 s.nodeNum.toNat

/-- The type of this unit's claims; its heartbeats' is one less (R322). -/
def claimType (s : State) : Nat := if s.isPaired && s.sys.roleB then 0x73 else 0x71

/-- The node sends ADDR_CLAIM upstream, and a manager downstream too, which it leaves in ADDRESS_CONFLICT (R322,
R325). -/
def imzClaim (s : State) : State :=
  let f : OutFrame := { id := frameId 7 (claimType s) 0 s.nodeNum, data := claimBytes s }
  if imzLive s then (if s.imz.conflict then imzUp f s else imzDown f (imzUp f s)) else s

/-- The node enters ADDRESS_CONFLICT (R325). -/
def enterConflict (s : State) : State :=
  if s.imz.conflict then s
  else imzEvent 1 s.nodeNum (s.setImz fun z => { z with conflict := true, probing := false })

/-- The serial number that a claim carries. -/
def claimSerial (f : ImzRx) : BitVec 64 := BitVec.ofNat 64 (dataNat f.data 0 8)

/-- A CONFLICT command to the whole subtree that names a node and two serial numbers (R325, R341). -/
def imzConflict (node : Half) (a b : BitVec 64) (s : State) : State :=
  let d := cmdBytes node 0x40 4 0 s.nodeNum s.stamp (bytesLE 8 a.toNat ++ bytesLE 8 b.toNat) 0
  imzSendDown 4 0x40 3 d s

/-- A claim enters the table: one that adds or changes an entry is forwarded upward, and a second serial number brings
the CONFLICT command (R324, R325). -/
def claimTable (f : ImzRx) (unitB : Bool) (s : State) : State :=
  let node := dataNat f.data 14 2
  let serial := claimSerial f
  let flags := dataNat f.data 12 1
  let old := s.imz.claims.find? fun c => c.node == node && c.unitB == unitB
  let new : Claim := { node := node, serial := serial, unitB := unitB, conflict := flags.testBit 5 }
  let s1 := s.setImz fun z =>
    { z with claims := (z.claims.filter fun c => !(c.node == node && c.unitB == unitB)) ++ [new] }
  let s2 := if (old.map (·.serial)) = some serial ∨ s.netTop ∨ !imzOpen s ∨ !s.activeUnit then s1
    else imzUp { id := frameId 7 (if unitB then 0x73 else 0x71) 1 f.src,
                 data := f.data.set 12 (BitVec.ofNat 8 (flags ||| 16)) } s1
  match old with
  | none => s2
  | some c => if c.serial = serial then s2 else imzConflict (BitVec.ofNat 16 node) c.serial serial s2

/-- A claim of a BARE module is recorded with an event (R323). -/
def bareClaim (f : ImzRx) (s : State) : State :=
  if s.isManager then
    imzEvent 9 f.src (s.setImz fun z => { z with bareSeen := if z.bareSeen.contains (claimSerial f) then z.bareSeen
      else z.bareSeen ++ [claimSerial f] })
  else s

/-- An ADDR_CLAIM is received: a BARE claim, one for the own number, or one of the subtree (R323 to R325). -/
def claimRx (f : ImzRx) (unitB : Bool) (s : State) : State :=
  if bit (BitVec.ofNat 8 (dataNat f.data 12 1)) 0 then bareClaim f s
  else
    let ours := f.src == s.nodeNum
    let partner := s.isPaired && unitB != s.sys.roleB
    let s1 := if ours ∧ partner = false ∧ claimSerial f ≠ Config.serial then enterConflict s else s
    if fromBelow s f then claimTable f unitB s1 else s1

/-- A data-field bit error on a frame that carries the own source: the third within 10 s starts the probe, whose first
claim goes at once and three more at random intervals (R325). -/
def imzDataError (s : State) : State :=
  let l := s.mono :: recent (sec 10) s.mono s.imz.dbits
  let s1 := s.setImz fun z => { z with dbits := l }
  if 3 ≤ l.length ∧ s.imz.probing = false ∧ s.imz.conflict = false ∧ imzLive s then
    (List.range 4).foldl (fun a _ => imzClaim a) (s1.setImz fun z => { z with probing := true, dbits := [] })
  else s1

/-- The join: the controllers integrate, three claims go out, and the node's traffic begins; the token bucket starts
full (R322, R331). -/
def netJoin (s : State) : State :=
  let on := fun (k : Fin 4) (a : State) =>
    (canSetMode k 1 a).setCan k fun c => { c with st := 2, tec := 0, recv := 0 }
  let s1 := if s.netTop then s else on 1 (on 0 s)
  let s2 := if s.isManager then on 3 (on 2 s1) else s1
  let s3 := (List.range 3).foldl (fun a _ => imzClaim a) s2
  s3.setImz fun z => { z with joined := true, tokens := s.netBurst }

/-! ### HEARTBEAT (R315, R322, R339) -/

/-- Hops as HEARTBEAT shows them. -/
def timHops (s : State) : Nat := if s.timeLocked then s.tim.hops else 0xFF

/-- Seconds since the start, saturating (R339). -/
def upSeconds (s : State) : Nat := min 0xFFFF ((s.mono - s.sys.startMono) / ticksPerSec)

/-- The node's unacknowledged points. -/
def unackCount (s : State) : Nat :=
  ((List.range 80).filter fun n => s.ptUsed n && annUnack (s.ptAt n).flags).length

/-- A HEARTBEAT's 16 bytes; `other`: the other upstream bus is ALONE. -/
def beatBytes (s : State) (dormant fault other : Bool) : List Byte :=
  let b3 := (if s.sup.pfail then 1 else 0) + (if dormant then 2 else 0) + (if fault then 4 else 0) +
    (if s.activeUnit then 8 else 0) + (if s.isPaired then 16 else 0) + (if s.timeLocked then 32 else 0) +
    (if other then 64 else 0) + (if s.imz.conflict then 128 else 0)
  bytesLE 2 s.imz.hbSeq.toNat ++ bytesLE 1 s.sys.mode.code ++ bytesLE 1 b3 ++ bytesLE 1 (timHops s) ++
  bytesLE 1 (min 255 (unackCount s)) ++ bytesLE 2 0 ++ bytesLE 4 (s.rcp.recipes[s.rcp.active].seq).toNat ++
  bytesLE 1 (s.rcp.active.val + 1) ++ bytesLE 1 0 ++ bytesLE 2 (upSeconds s)

/-- A controller that is ALONE has sent its HEARTBEAT of this second (R315). -/
def beatQuiet (k : Fin 4) (s : State) : Bool :=
  s.can[k].alone && match s.imz.hbAt[k] with
    | some t => decide (s.mono < t + sec 1)
    | none => false

/-- The other upstream bus is ALONE (R339); a frame downstream does not say so. -/
def otherAlone (k : Fin 4) (s : State) : Bool :=
  if k = 0 then s.can[1].alone else if k = 1 then s.can[0].alone else false

/-- The HEARTBEAT on one controller. -/
def beatOn (k : Fin 4) (dormant fault : Bool) (s : State) : State :=
  if beatQuiet k s then s
  else canSubmit k { id := frameId 7 (claimType s - 1) 0 s.nodeNum, data := beatBytes s dormant fault (otherAlone k s) }
    (s.setImz fun z => { z with hbAt := z.hbAt.set k (some s.mono) })

/-- A HEARTBEAT on every controller of the node's segments, from the active unit and the standby alike (R322). -/
def imzBeat (dormant fault : Bool) (s : State) : State :=
  if s.imz.joined ∧ s.imz.conflict = false then
    let s1 := s.setImz fun z => { z with hbSeq := z.hbSeq + 1 }
    let s2 := if s.netTop then s1 else beatOn 1 dormant fault (beatOn 0 dormant fault s1)
    if s.isManager then beatOn 3 dormant fault (beatOn 2 dormant fault s2) else s2
  else s

/-- A HEARTBEAT or TIME_REF of the manager ends MGR_LOST; what waits goes on (R327, R354). -/
def mgrSeen (s : State) : State :=
  if s.imz.mgrLost then imzDrain (imzEvent 5 s.netMgr (s.setImz fun z => { z with mgrLost := false })) else s

/-- A HEARTBEAT is received: the manager's presence, and what a member shows (R327, R338). -/
def beatRx (f : ImzRx) (s : State) : State :=
  let s1 := if fromAbove f ∧ f.src = s.netMgr ∧ !s.netTop then mgrSeen s else s
  if fromBelow s f ∧ (memberOf s f.src).isSome then
    s1.setImz fun z => { z with beats := tblIns z.beats f.src.toNat (dataNat f.data 3 1, dataNat f.data 5 1) }
  else s1

/-! ### The state table (R328) -/

/-- Entry index of a point address: 80 × node + slot. -/
def tableKey (a : Nat) : Nat := 80 * (addrNode a).toNat + addrSlot a

/-- An entry of the state table written; a manager holds one for each point of its subtree. -/
def tableSet (a : Nat) (e : Half) (s : State) : State :=
  if s.isManager ∧ addrSlot a < 80 then s.setImz fun z => { z with table := tblPut 0 z.table (tableKey a) e } else s

/-- The STALE mark of every entry of the nodes that a test picks. -/
def tableStale (pick : Nat → Bool) (s : State) : State :=
  s.setImz fun z => { z with table := z.table.map fun (k, e) => (k, if pick (k / 80) then e ||| 0x4000 else e) }

/-- What an entry of R262 makes of its point in the table: FAULT counts as unacknowledged unless the entry is an ACK
(R265). -/
def entryInTable (e : TrEntry) : Half :=
  let st := knownState e.after
  tableEntry e.cause (st == 2 || st == 4 || (st == 8 && e.event != 10)) e.qual e.cat st

/-- A reported entry as the state table holds it: a state code of 9 to 15 as FAULT (R12, R328). -/
def reportedEntry (e : Half) : Half := (e &&& 0xFFF0) ||| BitVec.ofNat 16 (knownState (fld e 0 4))

/-! ### Alarm frames upward (R331, R332) -/

/-- A forwarded frame is suppressed and counted against its source node (R331). -/
def suppress (node : Half) (s : State) : State :=
  let s1 := s.setImz fun z =>
    { z with suppNodes := tblIns z.suppNodes node.toNat (satInc 0xFFFF (tblGet 0 z.suppNodes node.toNat)),
             suppTotal := satInc 0xFFFF z.suppTotal, suppSec := z.suppSec + 1, suppr := satInc 0xFFFF z.suppr,
             flood := true, suppStart := if z.flood then z.suppStart else s.now }
  if s.imz.flood then s1 else imzEvent 7 s.nodeNum s1

/-- A forwarded alarm frame goes up: free, or with a token, else it is suppressed (R319, R331). -/
def forwardAlarm (typ : Nat) (f : ImzRx) (addr : Nat) (onset : Ts) (emergency : Bool) (s : State) : State :=
  if s.netTop ∨ !imzOpen s ∨ !s.activeUnit then s
  else
    let a : AlmFrame := { typ := typ, addr := addr, onset := onset, free := emergency, data := f.data }
    let ns := s.imz.notices.filter fun n => !n.isFor addr onset
    let ns1 := if typ = 0x11 then ns ++ [{ addr := addr, onset := onset, won := true, sent := true }] else ns
    let go := fun (t : State) =>
      imzUp { id := frameId 1 typ 1 f.src, data := f.data } (t.setImz fun z => { z with notices := ns1 })
    if passesFree s.imz a then go s
    else if 0 < s.imz.tokens then go (s.setImz fun z => { z with tokens := z.tokens - 1 })
    else suppress f.src s

/-- GRP takes a received transition, or drops it where its queue of 1024 is full (R265, R273); a point that its node's
recipe removed ends its session so (R285). -/
def grpFrame (e : TrEntry) (full : Bool) (src : Half) (s : State) : State :=
  if full then grpDropped src s
  else
    let s1 := if e.event = 16 ∧ !s.standby then s.setCall fun c => { c with removed := c.removed ++ [e.addr] } else s
    grpTrans e (stampTicks e.onset 0) (stampTicks e.time s.now) s1

/-- A transition received from the subtree is queued for REC where SUBTREE is set (R386, R407). -/
def recSubtree (e : TrEntry) (s : State) : State :=
  if s.isManager ∧ (s.cfgNat secREC 12 1).testBit 0 ∧ s.recd.st ≠ .off then
    s.setRec fun r => { r with subQ := r.subQ ++ [e] } else s

/-- ALM_TRANS is received (R265, R328, R331). -/
def almTransRx (f : ImzRx) (full : Bool) (s : State) : State :=
  if fromBelow s f then
    let e := entryOf f.data
    let s1 := grpFrame e full f.src (tableSet e.addr (entryInTable e) (recSubtree e s))
    forwardAlarm 0x10 f e.addr e.onset (decide (e.cat = 3)) s1
  else s

/-- Onset of an ALM_PENDING or ALM_RETRACT. -/
def noticeOnset (f : ImzRx) : Ts := BitVec.ofNat 64 (dataNat f.data 4 8)

/-- Point address of an ALM_PENDING or ALM_RETRACT. -/
def noticeAddr (f : ImzRx) : Nat := dataNat f.data 0 4 % 2 ^ 23

/-- ALM_PENDING or ALM_RETRACT is received (R265, R331). -/
def noticeRx (typ : Nat) (f : ImzRx) (full : Bool) (s : State) : State :=
  if fromBelow s f then
    let a := noticeAddr f
    let t := stampTicks (noticeOnset f) s.now
    let s1 :=
      if full then grpDropped f.src s
      else if typ = 0x11 then grpPend a (dataNat f.data 0 4 / 2 ^ 27 % 4) t s
      else grpRetract a t s
    forwardAlarm typ f a (noticeOnset f) false s1
  else s

/-- A FLOOD_DIGEST's 64 bytes over at most 11 nodes (R335). -/
def floodBytes (s : State) (l : List (Nat × Nat)) : List Byte :=
  bytesLE 8 (stampOf s.imz.suppStart).toNat ++ bytesLE 8 s.stamp.toNat ++ bytesLE 1 l.length ++ bytesLE 1 0 ++
  bytesLE 2 s.imz.suppTotal ++
  (((l.flatMap fun (n, c) => bytesLE 2 n ++ bytesLE 2 (min 0xFFFF c)) ++ List.replicate 44 0).take 44)

/-- A list in parts of 11. -/
def inElevens : Nat → List (Nat × Nat) → List (List (Nat × Nat))
  | 0, _ => []
  | k + 1, l => if l.isEmpty then [] else l.take 11 :: inElevens k (l.drop 11)

/-- FLOOD_DIGEST goes up while suppressed frames are counted, as many frames as the nodes need (R332). -/
def floodSend (s : State) : State :=
  if s.imz.flood ∧ s.isManager then
    (inElevens s.imz.suppNodes.length s.imz.suppNodes).foldl (fun a l => imzSendUp 1 0x13 1 (floodBytes s l) a) s
  else s

/-- The entries of a FLOOD_DIGEST: node and count. -/
def floodEntries (f : ImzRx) : List (Nat × Nat) :=
  (List.range (min 11 (dataNat f.data 16 1))).map fun i => (dataNat f.data (20 + 4 * i) 2, dataNat f.data (22 + 4 * i) 2)

/-- A FLOOD_DIGEST's counts are added to the own, and the groups of its nodes become INCOMPLETE (R332). -/
def floodRx (f : ImzRx) (s : State) : State :=
  if fromBelow s f then
    (floodEntries f).foldl (fun a (n, c) =>
      let a1 := a.setImz fun z =>
        { z with suppNodes := tblIns z.suppNodes n (satAdd 0xFFFF (tblGet 0 z.suppNodes n) c),
                 suppTotal := satAdd 0xFFFF z.suppTotal c, flood := true,
                 suppStart := if z.flood then z.suppStart else s.now }
      grpIncomplete (BitVec.ofNat 16 n) true (if a.imz.flood then a1 else imzEvent 7 s.nodeNum a1)) s
  else s

/-- The next nodes listed in a flood are asked for their state, at most 4 (R332). -/
def floodAsk (s : State) : State :=
  (s.imz.askList.take 4).foldl (fun a n => imzStateReq (BitVec.ofNat 16 n) a)
    (s.setImz fun z => { z with askList := z.askList.drop 4 })

/-- The flood ends: the bucket has been full for 1 s (R332). -/
def floodEnd (s : State) : State :=
  if s.imz.flood ∧ s.netBurst ≤ s.imz.tokens then
    floodAsk (imzEvent 8 s.nodeNum (s.setImz fun z =>
      { z with flood := false, askList := z.askList ++ z.suppNodes.map (·.1), suppNodes := [],
               suppTotal := 0 }))
  else s

/-! ### Reports and digests (R329, R330, R337, R338) -/

/-- A POINT_STATE is received: table, groups, the requester's way; the last frame of a requested report completes it
(R273, R328, R329). -/
def reportRx (f : ImzRx) (s : State) : State :=
  if fromBelow s f then
    let first := dataNat f.data 0 1
    let flags := dataNat f.data 2 1
    let t := BitVec.ofNat 64 (dataNat f.data 8 8)
    let time := stampTicks t s.now
    let s1 := (List.range 16).foldl (fun a i =>
      let e : Half := reportedEntry (BitVec.ofNat 16 (dataNat f.data (16 + 2 * i) 2))
      let p := pointAddr f.src (first + i)
      if first + i < 80 then grpReport p e time (tableSet p e a) else a) s
    let s2 := if flags.testBit 0 ∧ flags.testBit 1 then grpIncomplete f.src false s1 else s1
    if f.dir = 1 ∧ flags.testBit 0 ∧ dataNat f.data 4 2 ≠ s.nodeNum.toNat ∧ !s.netTop ∧ imzOpen s ∧ s.activeUnit then
      imzUp { id := frameId 3 0x30 1 f.src, data := f.data } s2
    else s2
  else s

/-- The entries of the direct members' points in the table. -/
def memberEntries (s : State) : List Half :=
  (s.imz.table.filter fun (k, e) => (memberOf s (BitVec.ofNat 16 (k / 80))).isSome && bit e 15).map (·.2)

/-- The members present, by entry. -/
def membersUp (s : State) : List Nat := (List.range s.netCount).filter fun i => !bit s.imz.lost i

/-- The digests of the members present. -/
def digestsUp (s : State) : List (List Byte) :=
  (s.imz.digests.filter fun (i, _) => (membersUp s).contains i).map (·.2)

/-- A field of the members' digests, summed. -/
def digestSum (s : State) (off n : Nat) : Nat := ((digestsUp s).map fun d => dataNat d off n).sum

/-- Two claims of one unit's number in the table would be a conflict; one that claims it is (R325, R338). -/
def claimConflict (s : State) : Bool :=
  s.imz.claims.any (·.conflict) || (digestsUp s).any fun d => (dataNat d 6 1).testBit 2

/-- A DIGEST's 32 bytes: the direct members' entries and the members' own digests; it covers the second that has just
ended (R330, R338). -/
def digestBytes (s : State) : List Byte :=
  let es := memberEntries s
  let n := fun (p : Nat → Bool) => (es.filter fun e => p (fld e 0 4)).length
  let c16 := fun (v : Nat) => bytesLE 2 (min 0xFFFF v)
  let locked := ((membersUp s).all fun i => match tblGet (0, 0) s.imz.beats (s.member i).toNat with
    | (b3, _) => b3.testBit 5) && (digestsUp s).all fun d => (dataNat d 6 1).testBit 1
  let flood := s.imz.flood || (digestsUp s).any fun d => (dataNat d 6 1).testBit 0
  let un := es.filter fun e => bit e 9
  let top := max ((un.map fun e => fld e 4 2).foldl max 0) (((digestsUp s).map fun d => dataNat d 7 1).foldl max 0)
  c16 (s.imz.claims.map (·.node)).eraseDups.length ++ c16 ((membersUp s).length + digestSum s 2 2) ++
  c16 (s.netCount - (membersUp s).length + digestSum s 4 2) ++
  bytesLE 1 ((if flood then 1 else 0) + (if locked then 2 else 0) + (if claimConflict s then 4 else 0)) ++
  bytesLE 1 top ++ c16 (un.length + digestSum s 8 2) ++ c16 (n (fun v => v == 2 || v == 3) + digestSum s 10 2) ++
  c16 (n (· == 8) + digestSum s 12 2) ++ c16 (n (· == 6) + digestSum s 14 2) ++ c16 (n (· == 7) + digestSum s 16 2) ++
  c16 ((es.filter fun e => bit e 14).length + digestSum s 18 2) ++ bytesLE 4 (s.imz.suppSec + digestSum s 20 4) ++
  bytesLE 8 (stampOf ((s.now / ticksPerSec - 1) * ticksPerSec)).toNat

/-- DIGEST goes up at a whole second (R330). -/
def digestSend (s : State) : State :=
  if s.isManager then (imzSendUp 3 0x31 1 (digestBytes s) s).setImz fun z => { z with suppSec := 0 } else s

/-- A member manager's DIGEST is kept. -/
def digestRx (f : ImzRx) (s : State) : State :=
  match memberOf s f.src with
  | some i => if fromBelow s f then s.setImz fun z => { z with digests := tblIns z.digests i f.data } else s
  | none => s

/-! ### Presence (R327) -/

/-- A member is lost: its bit, its event, and STALE over its subtree. -/
def memberGone (m : Fin 64) (s : State) : State :=
  if imzLive s ∧ s.standby = false ∧ s.isManager ∧ m.val < s.netCount ∧ bit s.imz.lost m.val = false then
    let node := s.member m.val
    imzEvent 2 node (tableStale (fun n => n == node.toNat || Config.below n node.toNat)
      (s.setImz fun z => { z with lost := z.lost ||| BitVec.ofNat 64 (2 ^ m.val) }))
  else s

/-- A frame of a member that was lost: it is present again and is asked for its state. -/
def memberSeen (node : Half) (s : State) : State :=
  match memberOf s node with
  | some m =>
    if bit s.imz.lost m then
      imzStateReq node (imzEvent 3 node (s.setImz fun z =>
        { z with lost := z.lost &&& ~~~(BitVec.ofNat 64 (2 ^ m)) }))
    else s
  | none => s

/-- MGR_LOST (R327). -/
def mgrGone (s : State) : State :=
  if imzLive s ∧ s.imz.joined ∧ !s.netTop ∧ s.imz.mgrLost = false then
    imzEvent 4 s.netMgr (s.setImz fun z => { z with mgrLost := true })
  else s

/-! ### Routing (R319, R340) -/

/-- A frame for another node goes on its way: down where the target lies below, up otherwise; what comes from above and
lies not below is for another member of the segment. The answer is false where the top manager finds no way. -/
def imzRoute (cls typ : Nat) (target : Half) (f : ImzRx) (s : State) : Bool × State :=
  if !s.isManager ∨ !imzOpen s ∨ !s.activeUnit then (true, s)
  else if inSubtree s target then
    if fromAbove f ∨ f.dir = 1 then (true, imzDown { id := frameId cls typ 2 f.src, data := f.data } s) else (true, s)
  else if fromBelow s f ∧ f.dir = 1 then
    if s.netTop then (false, s) else (true, imzUp { id := frameId cls typ 1 f.src, data := f.data } s)
  else (true, s)

/-- The requester of a CMD: the node that sent it, and where it lies (R340). -/
def cmdRef (s : State) (f : ImzRx) : ReqRef :=
  { node := f.src, tag := f.data.getD 2 0, op := f.data.getD 3 0, down := fromBelow s f }

/-- A CMD for another node (R340). -/
def cmdRoute (f : ImzRx) (s : State) : State :=
  let r := imzRoute 4 0x40 (BitVec.ofNat 16 (dataNat f.data 0 2)) f s
  if r.1 then r.2 else imzSendDown 4 0x41 2 (rspBytes (cmdRef s f) 6 0 0 s.stamp []) r.2

/-- A broadcast goes on downward (R319). -/
def imzRelay (cls typ : Nat) (f : ImzRx) (s : State) : State :=
  if fromAbove f ∧ imzOpen s ∧ s.activeUnit then imzDown { id := frameId cls typ f.dir.toNat f.src, data := f.data } s
  else s

/-- RSP is received: taken by its requester, once, or forwarded toward it (R340, R342). -/
def rspRx (f : ImzRx) (s : State) : State :=
  let node : Half := BitVec.ofNat 16 (dataNat f.data 0 2)
  let tag : Byte := f.data.getD 2 0
  if node = s.nodeNum then
    if s.imz.sent.any fun c => c.tag == tag && c.target == f.src then
      s.setImz fun z => { z with sent := z.sent.filter fun c => !(c.tag == tag && c.target == f.src), lastRsp := f.data }
    else s
  else (imzRoute 4 0x41 node f s).2

/-- 2 s without an RSP: the command goes again with its tag, at most twice (R342). -/
def rspTimeout (tag : Byte) (s : State) : State :=
  match s.imz.sent.find? fun c => c.tag == tag with
  | none => s
  | some c =>
    if c.tries < 2 then
      imzToward c.down 4 0x40 c.data (s.setImz fun z =>
        { z with sent := z.sent.map fun d => if d.tag = tag then { d with tries := d.tries + 1 } else d })
    else s.setImz fun z => { z with sent := z.sent.filter fun d => d.tag != tag }

/-- CALL_ACK is received: for the own call service, or for a manager further up (R288, R336). -/
def callAckRx (f : ImzRx) (s : State) : State :=
  let node : Half := BitVec.ofNat 16 (dataNat f.data 4 2)
  if fromBelow s f = false then s
  else if node = s.nodeNum then
    if callOn s then
      let unit := (unitOf s f.src).getD 0xFF
      let sof := s.now - f.age
      let s1 : State := { s with lvn := { s.lvn with takenSof := stampOf sof } }
      s1.setCall fun c => { c with cmds := c.cmds ++
        [{ op := 3, eng := dataNat f.data 3 1, session := dataNat f.data 0 2, src := unit,
           addr := dataNat f.data 8 4 % 2 ^ 23, reg := false, org := { code := 3, detail := f.src, ack := sof } }] }
    else s
  else if !s.netTop ∧ imzOpen s ∧ s.activeUnit then imzUp { id := frameId 2 0x21 1 f.src, data := f.data } s
  else s

/-! ### The end of an attempt (R237, R307, R345) -/

/-- A PENDING frame has won arbitration: its notice shows it (R237). -/
def noticeWon (k : Fin 4) (b : Fin 32) (s : State) : State :=
  let c := s.can[k]
  if k.val < 2 ∧ c.txId b.val = frameId 1 0x11 1 s.nodeNum then
    let d := c.txData b.val
    let a := dataNat d 0 4 % 2 ^ 23
    let t : Ts := BitVec.ofNat 64 (dataNat d 4 8)
    setNotice a t (fun n => { n with won := true }) s
  else s

/-- Notices whose PENDING was withdrawn while its frame was on a bus: one that has won arbitration is followed by its
RETRACT, one whose frame waits nowhere is closed (R237, R307). -/
def noticeClose (s : State) (n : Notice) : State :=
  match n.ret with
  | none => s
  | some d =>
    if n.won then retractSend n.addr n.onset d (dropNotice n.addr n.onset s)
    else if pendingWaits s n.addr n.onset then s
    else dropNotice n.addr n.onset s

/-- A TIME_REF has been sent on CAN2 or CAN3: its start of frame is kept for TIME_FOLLOW (R345). -/
def refSent (k : Fin 4) (b : Fin 32) (age : Nat) (s : State) : State :=
  let c := s.can[k]
  if c.txId b.val = frameId 0 0x01 0 s.nodeNum then
    let v := some (BitVec.ofNat 16 (dataNat (c.txData b.val) 0 2), sofStamp s age)
    if k = 2 then { s with tim := { s.tim with sofs := s.tim.sofs.set 0 v } }
    else if k = 3 then { s with tim := { s.tim with sofs := s.tim.sofs.set 1 v } }
    else s
  else s

/-- An attempt ends: the buffer, the notices, the start of a TIME_REF, and room for frames that wait. -/
def attemptEnd (k : Fin 4) (b : Fin 32) (e : TxEnd) (tdcv : Option (BitVec 8)) (age : Nat) (s : State) : State :=
  let live := bit s.can[k].txPend b.val && s.can[k].onBus && canTxMode s.can[k].mode
  let s1 := if !live then s
    else match e with
    | .sent => refSent k b age (noticeWon k b s)
    | .error _ _ true => noticeWon k b s
    | _ => s
  let s2 := canAttempt k b e tdcv age s1
  imzDrain (s2.imz.notices.foldl noticeClose s2)

/-! ### Meanings -/

/-- ADDR_CLAIM_SEND (R322, R325). -/
def execAddrClaimSend (s : State) : Host.Outcome State Fault Refusal := .next (if s.imz.joined then imzClaim s else s)

/-- HEARTBEAT_SEND (R339). -/
def execHeartbeatSend (s : State) : Host.Outcome State Fault Refusal :=
  .next (if imzLive s then imzBeat false false s else s)

/-- ADDR_CLAIM_RECEIVED (R323 to R325): a standby keeps watch for conflicts too. -/
def execAddrClaimReceived (f : ImzRx) (unitB : Bool) (s : State) : Host.Outcome State Fault Refusal :=
  .next (if imzLive s ∧ f.data.length = 16 then
    claimRx f unitB (imzTook 7 (if unitB then 0x73 else 0x71) f s) else s)

/-- ADDRESS_CONFLICT_PROBE_END (R325). -/
def execAddressConflictProbeEnd (s : State) : Host.Outcome State Fault Refusal :=
  .next (s.setImz fun z => { z with probing := false })

/-- ALM_TRANS_RECEIVED. -/
def execAlmTransReceived (f : ImzRx) (full : Bool) (s : State) : Host.Outcome State Fault Refusal :=
  .next (imzRx 0x10 f (almTransRx f full) s)

/-- ALM_PENDING_RECEIVED. -/
def execAlmPendingReceived (f : ImzRx) (full : Bool) (s : State) : Host.Outcome State Fault Refusal :=
  .next (imzRx 0x11 f (noticeRx 0x11 f full) s)

/-- ALM_RETRACT_RECEIVED. -/
def execAlmRetractReceived (f : ImzRx) (full : Bool) (s : State) : Host.Outcome State Fault Refusal :=
  .next (imzRx 0x12 f (noticeRx 0x12 f full) s)

/-- ALM_FRAME_RELEASE: one more token, up to the burst, and frames that wait may go (R331). -/
def execAlmFrameRelease (s : State) : Host.Outcome State Fault Refusal :=
  .next (if s.imz.joined then imzDrain (s.setImz fun z => { z with tokens := min s.netBurst (z.tokens + 1) }) else s)

/-- FLOOD_DIGEST_SEND. -/
def execFloodDigestSend (s : State) : Host.Outcome State Fault Refusal := .next (floodSend s)

/-- FLOOD_DIGEST_RECEIVED. -/
def execFloodDigestReceived (f : ImzRx) (s : State) : Host.Outcome State Fault Refusal :=
  .next (imzRx 0x13 f (floodRx f) s)

/-- FLOOD_END. -/
def execFloodEnd (s : State) : Host.Outcome State Fault Refusal := .next (floodEnd s)

/-- FLOOD_STATE_REQ_PACE: 100 ms after the last requests (R332). -/
def execFloodStateReqPace (s : State) : Host.Outcome State Fault Refusal := .next (floodAsk s)

/-- CALL_STEP_RECEIVED (R319). -/
def execCallStepReceived (f : ImzRx) (s : State) : Host.Outcome State Fault Refusal :=
  .next (imzRx 0x20 f (imzRelay 2 0x20 f) s)

/-- CALL_ACK_RECEIVED (R288). -/
def execCallAckReceived (f : ImzRx) (s : State) : Host.Outcome State Fault Refusal := .next (imzRx 0x21 f (callAckRx f) s)

/-- POINT_STATE_SWEEP (R329). -/
def execPointStateSweep (s : State) : Host.Outcome State Fault Refusal := .next (if imzOpen s ∧ s.activeUnit then imzReport false 0 s else s)

/-- POINT_STATE_RECEIVED. -/
def execPointStateReceived (f : ImzRx) (s : State) : Host.Outcome State Fault Refusal :=
  .next (imzRx 0x30 f (reportRx f) s)

/-- DIGEST_SEND. -/
def execDigestSend (s : State) : Host.Outcome State Fault Refusal := .next (digestSend s)

/-- DIGEST_RECEIVED. -/
def execDigestReceived (f : ImzRx) (s : State) : Host.Outcome State Fault Refusal := .next (imzRx 0x31 f (digestRx f) s)

/-- MEMBER_LOST. -/
def execMemberLost (m : Fin 64) (s : State) : Host.Outcome State Fault Refusal := .next (memberGone m s)

/-- MGR_LOST. -/
def execMgrLost (s : State) : Host.Outcome State Fault Refusal := .next (mgrGone s)

/-- RSP_RECEIVED. -/
def execRspReceived (f : ImzRx) (s : State) : Host.Outcome State Fault Refusal := .next (imzRx 0x41 f (rspRx f) s)

/-- CMD_RSP_TIMEOUT. -/
def execCmdRspTimeout (tag : Byte) (s : State) : Host.Outcome State Fault Refusal := .next (rspTimeout tag s)

/-- CMD_TAG_EXPIRY (R342). -/
def execCmdTagExpiry (node : Half) (tag : Byte) (s : State) : Host.Outcome State Fault Refusal :=
  .next (s.setImz fun z => { z with tags := z.tags.filter fun t => !(t.node == node && t.tag == tag) })

/-- CAN_TX_ATTEMPT_END (R307). -/
def execCanTxAttemptEnd (k : Fin 4) (b : Fin 32) (e : TxEnd) (tdcv : Option (BitVec 8)) (age : Nat) (s : State) :
    Host.Outcome State Fault Refusal := .next (attemptEnd k b e tdcv age s)

end Sys2Proof.Machine
end

