-- ==== Sys2Proof/Machine/Slice.lean ====
section
/-! DEFINITION. Slice: slices of points, slice pages and ring pages on their way to the eMMC (R386, R390 to R394, R397,
R398). -/
namespace Sys2Proof.Machine

open Sys2Proof

/-! ### The REC section (R407) -/

/-- A field of a point's entry. -/
def State.recPt (s : State) (n off len : Nat) : Nat := s.cfgNat secREC (16 + 12 * n + off) len

/-- An interval code's seconds (R390). -/
def intervalSec : Nat → Nat
  | 1 => 1
  | 2 => 2
  | 3 => 5
  | 4 => 10
  | 5 => 30
  | 6 => 60
  | 7 => 300
  | 8 => 600
  | 9 => 900
  | 10 => 1800
  | 11 => 3600
  | _ => 0

/-! ### Samples (R390, R392) -/

/-- LO and HI of a slot: 0 and 1 for a binary point. -/
def sliceRange (s : State) (n : Nat) : Word × Word :=
  if s.ptKind n = 2 then (0, 0x3F800000)
  else (BitVec.ofNat 32 (s.recPt n 4 4), BitVec.ofNat 32 (s.recPt n 8 4))

/-- The bin of a sample (R392). -/
def sliceBin (lo hi y : Word) : Nat :=
  if f32Lt y lo then 0
  else if f32Le hi y then 31
  else min 30 (1 + (30 * (f32Int y - f32Int lo) / (f32Int hi - f32Int lo)).toNat)

/-- A number cut to 53 significant bits, nearest even: a binary64 accumulation in units of 2^-149. -/
def round53 (k : Int) : Int :=
  let sh := Nat.log2 k.natAbs - 52
  let m : Int := ((divEven k.natAbs (2 ^ sh) * 2 ^ sh : Nat) : Int)
  if k < 0 then -m else m

/-- One more in a bin. -/
def binAdd (bins : List Nat) (i : Nat) : List Nat := bins.set i (bins.getD i 0 + 1)

/-- A sample enters a slice. -/
def Slice.take (x : Slice) (lo hi : Word) (y : Word) (t : Nat) : Slice :=
  { x with
    count := x.count + 1, bins := binAdd x.bins (sliceBin lo hi y), sum := round53 (x.sum + f32Int y),
    low := match x.low with | some (m, _) => if f32Lt y m then some (y, t) else x.low | none => some (y, t),
    high := match x.high with | some (m, _) => if f32Lt m y then some (y, t) else x.high | none => some (y, t) }

/-- A scan of a point in its slice: the quality's bit, and the sample where the quality is GOOD or UNCERTAIN. -/
def Slice.scan (x : Slice) (lo hi : Word) (p : Pnt) : Slice :=
  let x1 := { x with quals := x.quals ||| BitVec.ofNat 8 (2 ^ p.pq) }
  if p.pq < 2 ∧ f32Finite p.value then x1.take lo hi p.value p.vts else x1

/-! ### A slice as bytes (R391) -/

/-- BIN_SHIFT: the least S for which the interval's scans over 2^S fit 16 bits (R392). -/
def binShift (scans : Nat) : Nat := ((List.range 32).find? fun k => decide (scans ≤ 65535 * 2 ^ k)).getD 0

/-- A bin's count over 2^S, halves up. -/
def binScaled (s c : Nat) : Nat := min 0xFFFF ((2 * c + 2 ^ s) / 2 ^ (s + 1))

/-- The mean of the samples as binary32. -/
def sliceMean (x : Slice) : Word := if x.count = 0 then 0 else f32Round (decide (x.sum < 0)) x.sum.natAbs x.count

/-- The 128 bytes of a slice that closes now. -/
def sliceBytes (s : State) (n : Nat) (x : Slice) : List Byte :=
  let sh := binShift (sec (intervalSec x.code) / scanTicksOf s.scanCode)
  let ext := fun (o : Option (Word × Nat)) => match o with
    | some (w, t) => bytesLE 4 w.toNat ++ bytesLE 8 (stampOf t).toNat
    | none => List.replicate 12 (0 : Byte)
  let d := bytesLE 4 (s.ownAddr n % 2 ^ 23 + x.code % 32 * 2 ^ 23 + (if x.short then 2 ^ 28 else 0) +
      (if x.stepped then 2 ^ 29 else 0) + (if x.takeover then 2 ^ 30 else 0)) ++
    bytesLE 8 (stampOf x.start).toNat ++ bytesLE 4 x.count ++ (x.bins.flatMap fun c => bytesLE 2 (binScaled sh c)) ++
    ext x.low ++ ext x.high ++ bytesLE 4 (sliceMean x).toNat ++ bytesLE 2 (min 0xFFFF x.trans) ++ [x.quals] ++
    bytesLE 1 sh ++ bytesLE 8 s.stamp.toNat ++ List.replicate 6 0
  d ++ bytesLE 2 (crc16 d)

/-! ### Pages as bytes, and their commits (R394 to R397) -/

/-- A ring page's 4096 bytes. -/
def ringBytes (p : RingPage) : List Byte :=
  let flags := (if 0 < p.lost then 1 else 0) + (if p.takeover.isSome then 2 else 0) + (if p.start then 4 else 0)
  ((bytesLE 2 p.entries.length ++ bytesLE 2 flags ++ bytesLE 4 p.lost ++ bytesLE 8 p.lostFirst.toNat ++
    bytesLE 8 p.lostLast.toNat ++ bytesLE 4 (p.takeover.getD 0).toNat ++ bytesLE 4 0 ++ p.entries.flatten) ++
    List.replicate 4096 0).take 4096

/-- A slice page's 4096 bytes; unused places are filled with 0xFF. -/
def slicePageBytes (l : List (List Byte)) : List Byte := (l.flatten ++ List.replicate 4096 0xFF).take 4096

/-- The time in a record: an entry's transition time, or a slice's start; both stand at byte 4. -/
def recordTime (d : List Byte) : Ts := BitVec.ofNat 64 (dataNat d 4 8)

/-- Time of the first and of the last record. -/
def spanOf (l : List (List Byte)) : Ts × Ts := (recordTime (l.headD []), recordTime (l.getLastD []))

/-- The commit of a ring page. -/
def ringCommit (r : Rec) (p : RingPage) : Commit :=
  { ring := true, data := ringBytes p, records := p.entries.length, first := (spanOf p.entries).1,
    last := (spanOf p.entries).2, slot := r.ringArea.slot, seq := r.ringArea.seq }

/-- The commit of a slice page. -/
def sliceCommit (r : Rec) (l : List (List Byte)) : Commit :=
  { ring := false, data := slicePageBytes l, records := l.length, first := (spanOf l).1, last := (spanOf l).2,
    slot := r.sliceArea.slot, seq := r.sliceArea.seq }

/-- A commit may begin: the eMMC is free, REC runs or stops, the unit is no standby and LAST_BREATH has not begun (R67,
R402, R403; log 30). -/
def commitMay (s : State) : Bool :=
  s.recd.busy.isNone && s.mmc.st == .ready && (s.recd.st == .run || s.recd.st == .stopped) && regionUp rKEP s &&
  !s.standby && s.sup.breathStep == 0

/-- The next page that waits is frozen and its commit begins, ring pages first. -/
def commitNext (s : State) : State :=
  if commitMay s = false then s
  else
    let go := fun (c : Commit) (r : Rec) =>
      (s.setRec fun _ => { r with busy := some c }).setMmc fun m => { m with st := .busy }
    match s.recd.rgWait, s.recd.slWait with
    | p :: t, _ => go (ringCommit s.recd p) { s.recd with rgWait := t }
    | [], l :: t => go (sliceCommit s.recd l) { s.recd with slWait := t }
    | [], [] => s

/-! ### Slice pages (R394) -/

/-- REC records as the active unit or an unpaired module (R386, R403). -/
def recActive (s : State) : Bool := s.activeUnit && (s.recd.st == .run || s.recd.st == .scanning)

/-- The open slice page is closed and waits for its commit. -/
def slicePage (r : Rec) : Rec :=
  if r.slOpen = [] then r else { r with slWait := r.slWait ++ [r.slOpen], slOpen := [] }

/-- A slice that finds no room is lost (R394, R408). -/
def sliceLost (n : Nat) (s : State) : State :=
  recEvent 4 n (s.setRec fun r =>
    { r with lostSlices := satInc 255 r.lostSlices, slicesLost := satInc 0xFFFFFFFF r.slicesLost })

/-- A closed slice enters the open page; a full page waits for its commit, at most 8 of them. -/
def slicePush (n : Nat) (d : List Byte) (s : State) : State :=
  if !s.activeUnit then s
  else match s.recd.st with
  | .off => s
  | .noSpace => s
  | .mediaError => sliceLost n s
  | .stopped => sliceLost n s
  | _ =>
    if 8 ≤ s.recd.slWait.length then sliceLost n s
    else
      let s1 := s.setRec fun r => { r with slOpen := r.slOpen ++ [d] }
      if 32 ≤ s1.recd.slOpen.length then commitNext (s1.setRec slicePage) else s1

/-- A point's open slice closes (R390). -/
def sliceClose (n : Fin 80) (s : State) : State :=
  match s.pev.pts[n].slice with
  | none => s
  | some x => slicePush n.val (sliceBytes s n.val x) (s.setPt n fun p => { p with slice := none })

/-- The slice of slot `n` at a scan end: the one that holds the scan start, a new one where none is open (R390). -/
def sliceAt (s : State) (n : Fin 80) : Slice :=
  let code := s.recPt n.val 0 1
  let i := sec (intervalSec code)
  match s.pev.pts[n].slice with
  | some x => x
  | none => { code := code, start := s.pev.start / i * i, stop := s.pev.start / i * i + i }

/-- One point's part of a scan end. -/
def slicePoint (s : State) (n : Fin 80) : State :=
  if s.ptUsed n.val ∧ intervalSec (s.recPt n.val 0 1) ≠ 0 ∧ s.pev.pts[n].slFrom ≤ s.pev.start then
    let s1 := match s.pev.pts[n].slice with
      | some x => if x.stop ≤ s.pev.start then sliceClose n s else s
      | none => s
    let r := sliceRange s n.val
    let x := (sliceAt s1 n).scan r.1 r.2 s1.pev.pts[n]
    s1.setPt n fun p => { p with slice := some x }
  else s

/-- The scan end's samples (R390). -/
def sliceScanEnd (s : State) : State :=
  if bankHas s.activeBank secREC ∧ s.activeUnit then (List.finRange 80).foldl slicePoint s else s

/-- Slices close early at a swap, or as a point leaves the recipe (R393). -/
def sliceShort (n : Fin 80) (s : State) : State :=
  sliceClose n (s.setPt n fun p => { p with slice := p.slice.map fun x => { x with short := true } })

/-- A step of system time closes every open slice with SHORT and STEPPED; a SHORT slice runs on to the next interval start
(R393). -/
def sliceStep (t : Nat) (s : State) (n : Fin 80) : State :=
  match s.pev.pts[n].slice with
  | none => s
  | some x =>
    let i := max 1 (sec (intervalSec x.code))
    let s1 := slicePush n.val (sliceBytes s n.val { x with short := true, stepped := true }) s
    let y : Slice := { code := x.code, start := t, stop := t / i * i + i, short := true }
    s1.setPt n fun p => { p with slice := some y }

/-- The slices that a take-over continues carry TAKEOVER (R393). -/
def sliceTakeover (s : State) : State :=
  (List.finRange 80).foldl (fun a n => a.setPt n fun p =>
    { p with slice := p.slice.map fun x => { x with takeover := true } }) s

/-! ### Ring pages (R397, R398) -/

/-- The open ring page joins the staging area of 64 pages, where it has room. -/
def ringPage (r : Rec) : Rec :=
  if r.rgOpen.entries = [] ∨ 64 ≤ r.rgWait.length then r
  else { r with rgWait := r.rgWait ++ [r.rgOpen], rgOpen := {} }

/-- The entry that first finds room begins a page whose header carries what was lost; LOSS ends with its event (R398). -/
def ringFound (s : State) : State :=
  let n := s.recd.lost
  let s1 := s.setRec fun r =>
    { r with rgOpen := { r.rgOpen with lost := n, lostFirst := r.lostFirst, lostLast := r.lostLast }, lost := 0,
             lostFirst := 0, lostLast := 0, loss := false }
  if s.recd.loss then recEvent 3 (min 0xFFFF n) s1 else s1

/-- A transition entry arrives at REC: it is stored in the open ring page, or counted as lost (R398). -/
def recStore (e : TrEntry) (s : State) : State :=
  if !s.activeUnit then s
  else match s.recd.st with
  | .off => s
  | .noSpace => s
  | .mediaError => recLose e.time s
  | .stopped => recLose e.time s
  | _ =>
    let turn := decide (127 ≤ s.recd.rgOpen.entries.length) || (decide (0 < s.recd.lost) && s.recd.rgOpen.entries != [])
    let s1 := if turn then commitNext (s.setRec ringPage) else s
    if turn ∧ s1.recd.rgOpen.entries ≠ [] then recLose e.time s
    else
      let s2 := if 0 < s1.recd.lost then ringFound s1 else s1
      s2.setRec fun r => { r with rgOpen := { r.rgOpen with entries := r.rgOpen.entries ++ [entryBytes e] } }

/-- REC_ENTRY: the oldest entry of ANN's queue, or with `sub` of those received from the subtree, reaches REC while KEP is
up (R263, R386). -/
def recEntry (sub : Bool) (s : State) : State :=
  if regionUp rKEP s = false then s
  else if sub then
    match s.recd.subQ with
    | [] => s
    | e :: t => recStore e (s.setRec fun r => { r with subQ := t })
  else
    match s.ann.recQ with
    | [] => s
    | e :: t => recStore e (s.setAnn fun a => { a with recQ := t })

/-! ### Meanings -/

/-- SLICE_CLOSE: the scan just ended was the last whose start lies in the slice's interval (R390). -/
def execSliceClose (n : Fin 80) (s : State) : Host.Outcome State Fault Refusal :=
  .next (match s.pev.pts[n].slice with
    | some x => if x.stop ≤ s.pev.start + scanTicksOf s.scanCode then sliceClose n s else s
    | none => s)

/-- REC_ENTRY. -/
def execRecEntry (sub : Bool) (s : State) : Host.Outcome State Fault Refusal := .next (recEntry sub s)

/-- SLICE_FLUSH_EXPIRY (R394). -/
def execSliceFlushExpiry (s : State) : Host.Outcome State Fault Refusal :=
  .next (if regionUp rKEP s ∧ s.recd.slWait.length < 8 then commitNext (s.setRec slicePage) else s)

/-- RING_FLUSH_EXPIRY (R397). -/
def execRingFlushExpiry (s : State) : Host.Outcome State Fault Refusal :=
  .next (if regionUp rKEP s then commitNext (s.setRec ringPage) else s)

end Sys2Proof.Machine
end

