-- ==== Sys2Proof/Machine/Tim.lean ====
section
/-! DEFINITION. Tim: system time: reference frames, offset, steps and slew, the grand master (R345 to R349). -/
namespace Sys2Proof.Machine

open Sys2Proof

/-- The state with the time engine replaced. -/
def State.setTim (s : State) (f : Tim → Tim) : State := { s with tim := f s.tim }

/-- Code of `TIM_STAT.STATE`. -/
def TimState.code : TimState → Nat
  | .free => 0
  | .acquiring => 1
  | .locked => 2
  | .holdover => 3

/-- A change of state raises its event (R354). -/
def timEnter (st : TimState) (s : State) : State :=
  if s.tim.st = st then s else timEvent 1 (st.code : Int) (s.setTim fun t => { t with st := st })

/-- System time steps by `d` ticks; the running expiries, the start inhibit and the call timers move with it, and open
slices close; the next scan starts after the step (R94, R214, R284, R347, R393). -/
def timStep (d : Int) (s : State) : State :=
  let mv := fun (t : Nat) => ((t : Int) + d).toNat
  let s1 := { s with now := mv s.now, sys := { s.sys with inhEnd := s.sys.inhEnd.map mv },
                     pev := { s.pev with minStart := max (mv s.pev.minStart) (mv s.now), pts := s.pev.pts.map fun p =>
                       let q := p.shift d
                       { q with inhEnd := q.inhEnd.map mv } } }
  let s2 := (List.finRange 80).foldl (sliceStep s1.now) (callShift d s1)
  timEvent 2 (clampI (-(2 ^ 27 : Int)) (2 ^ 27 - 1) (Int.tdiv (d * 20) 1000))
    (s2.setTim fun t => { t with steps := satInc 0xFFFF t.steps, stepped := true })

/-- The loop's rate correction: its discrete form is not given, so it is a free value within its limit of 50 ppm (R347,
log 1). -/
def timSlew (s : State) : State :=
  (s.setTim fun t => { t with corr := clampI (-50000) 50000 (sfld s.freeVal 0 32) }).drew

/-- A timestamp in nanoseconds (R8). -/
def stampNs (t : Ts) : Int := (fld t 30 34 : Int) * 1000000000 + fld t 0 30

/-- Nanoseconds as whole ticks, to the nearest (R347, R350). -/
def nsTicks (v : Int) : Int := (v + 10) / 20

/-- `PROP_NS` (R352). -/
def propNs (s : State) : Nat := s.cfgNat secNET 36 2

/-- The upstream bus of a frame: 0 A, 1 B. -/
def busOf (f : ImzRx) : Fin 2 := if f.bus = 1 then 1 else 0

/-- A frame of the manager's time protocol acts: units of a pair both follow it (R345, R346). -/
def timRx (typ n : Nat) (f : ImzRx) (act : State → State) (s : State) : State :=
  if imzLive s ∧ f.data.length = n ∧ fromAbove f ∧ f.src = s.netMgr ∧ !s.netTop then act (imzTook 0 typ f s) else s

/-- A standby follows the active unit over the leaven link while that is up, and not the bus or `SYNC_IN` (R381). -/
def linkTimed (s : State) : Bool := s.standby && linkUp s.lvn

/-- TIME_REF is received: its start of frame is kept for its TIME_FOLLOW (R346, R381). -/
def refRx (f : ImzRx) (s : State) : State :=
  let s1 := mgrSeen s
  s1.setTim fun t =>
    { t with refs := if linkTimed s then t.refs else
               t.refs.set (busOf f) (some { seq := BitVec.ofNat 16 (dataNat f.data 0 2), sof := s.now - f.age, at' := s.mono }),
             mstate := min 3 (dataNat f.data 2 1), hops := min 0xFF (dataNat f.data 3 1 + 1),
             traceable := (dataNat f.data 4 1).testBit 0 }

/-- The state that a valid pair leads to (R347). -/
def pairState (t : Tim) (off : Nat) : TimState :=
  match t.st with
  | .free => .acquiring
  | .acquiring => if 10 ≤ t.pairsOk then .locked else .acquiring
  | .locked => if 3 ≤ t.pairsBad ∨ t.mstate = 0 then .acquiring else .locked
  | .holdover => if off ≤ 1000 then .locked else .holdover

/-- TIM acts on a pair's offset θ in ns: it counts the pair, steps or slews, and changes its state (R347). -/
def timPair (theta : Int) (s : State) : State :=
  let off := theta.natAbs
  let st := s.tim.st
  let s1 := s.setTim fun t =>
    { t with theta := clampI (-(2 ^ 31 : Int)) (2 ^ 31 - 1) theta,
             pairsOk := if off ≤ 200 ∧ t.mstate = 2 then t.pairsOk + 1 else 0,
             pairsBad := if 1000 < off then t.pairsBad + 1 else 0 }
  let s2 := if ((st = .free ∨ st = .acquiring) ∧ 1000 < off) ∨ 100000 < off then timStep (-(nsTicks theta)) s1
    else timSlew s1
  timEnter (pairState s1.tim off) s2

/-- The pairs of bus A arrive: the last one is of this reference or the one before (R346, log 18). -/
def busAUp (t : Tim) (seq : Half) : Bool :=
  match t.last[0] with
  | some (q, _) => q == seq || q + 1 == seq
  | none => false

/-- The offsets of the two buses for one reference differ by more than 500 ns (R346). -/
def abDiff (t : Tim) (bus : Fin 2) (seq : Half) (theta : Int) : Bool :=
  match (if bus = 0 then t.last[1] else t.last[0]) with
  | some (q, th) => q == seq && decide (500 < (th - theta).natAbs)
  | none => false

/-- TIME_FOLLOW is received: with its TIME_REF of the same bus and sequence, not more than 50 ms earlier, it makes a pair
(R346); a timestamp that is not valid pairs with nothing (R8). -/
def followRx (f : ImzRx) (s : State) : State :=
  let seq : Half := BitVec.ofNat 16 (dataNat f.data 0 2)
  let master : Ts := BitVec.ofNat 64 (dataNat f.data 8 8)
  let b := busOf f
  match s.tim.refs[b] with
  | none => s
  | some r =>
    let s0 := s.setTim fun t => { t with refs := t.refs.set b none }
    if r.seq = seq ∧ s.mono ≤ r.at' + ms 50 ∧ stampValid master then
      let theta := (r.sof : Int) * 20 - (stampNs master + propNs s)
      let s1 := if abDiff s.tim b seq theta then timEvent 5 0 s0 else s0
      let s2 := s1.setTim fun t => { t with last := t.last.set b (some (seq, theta)) }
      if b = 0 then timPair theta (s2.setTim fun t => { t with busB := false })
      else if busAUp s.tim seq then s2
      else timPair theta (s2.setTim fun t => { t with busB := true })
    else s0

/-- No valid pair for 300 ms (R347). -/
def timHoldover (s : State) : State :=
  if s.tim.st = .locked ∧ !s.netTop ∧ imzLive s then timEnter .holdover s else s

/-- 1 s in HOLDOVER (R347). -/
def timFree (s : State) : State :=
  if s.tim.st = .holdover ∧ !s.netTop then timEnter .free (s.setTim fun t => { t with pairsOk := 0 }) else s

/-! ### The master of a segment (R345) -/

/-- Master state in TIME_REF: 0 FREE, 1 HOLDOVER, 2 LOCKED; ACQUIRING is not locked and is reported as FREE. -/
def masterState (s : State) : Nat :=
  match s.tim.st with
  | .locked => 2
  | .holdover => 1
  | _ => 0

/-- Bytes 2 to 7 of TIME_REF and TIME_FOLLOW. -/
def refTail (s : State) (step : Bool) : List Byte :=
  bytesLE 1 (masterState s) ++ bytesLE 1 (timHops s) ++
  bytesLE 1 ((if s.tim.traceable then 1 else 0) + (if step then 2 else 0)) ++ bytesLE 3 0

/-- The unit sends the time of its segment: a manager in service, the active unit. -/
def timeMaster (s : State) : Bool := imzOpen s && s.isManager && s.activeUnit && s.sys.mode == .inService

/-- TIME_REF goes out on CAN2 and CAN3 (R345). -/
def refSend (s : State) : State :=
  if timeMaster s then
    let seq := s.tim.refSeq + 1
    let tail := refTail s s.tim.stepped
    imzSendDown 0 0x01 0 (bytesLE 2 seq.toNat ++ tail) (s.setTim fun t =>
      { t with refSeq := seq, stepped := false, refTail := tail })
  else s

/-- TIME_FOLLOW goes out on the bus of a TIME_REF that has been sent (R345). -/
def followSend (k : Fin 2) (s : State) : State :=
  match s.tim.sofs[k] with
  | none => s
  | some (seq, sof) =>
    if timeMaster s then
      canSubmit (if k = 0 then 2 else 3)
        { id := frameId 0 0x02 0 s.nodeNum, data := bytesLE 2 seq.toNat ++ s.tim.refTail ++ bytesLE 8 sof.toNat }
        (s.setTim fun t => { t with sofs := t.sofs.set k none })
    else s

/-! ### The grand master (R348, R349) -/

/-- The time source is `SYNC_IN` (R352, R93). -/
def syncSource (s : State) : Bool := s.netTop && (s.cfgNat secNET 24 1).testBit 1 && !s.ident7 3

/-- The grand master reports LOCKED and no hop once it is in service (R348). -/
def timMaster (s : State) : State :=
  if s.netTop then timEnter .locked (s.setTim fun t => { t with hops := 0 }) else s

/-- TRACEABLE with its event. -/
def timTrace (b : Bool) (s : State) : State :=
  if s.tim.traceable = b then s else timEvent (if b then 3 else 4) 0 (s.setTim fun t => { t with traceable := b })

/-- A pulse's offset from the whole second in ticks, nearest. -/
def syncPhase (now : Nat) : Int :=
  let r := now % ticksPerSec
  if r * 2 < ticksPerSec then r else (r : Int) - ticksPerSec

/-- A pulse on `SYNC_IN`: a time that waits for it, a step after three rejections, a rejection, or the discipline of the
timebase (R348). -/
def syncPulse (s : State) : State :=
  let ph := syncPhase s.now
  let s1 := s.setTim fun t => { t with phase := ph * 20 }
  match s.tim.atPulse with
  | some v =>
    timStep (((v * ticksPerSec : Nat) : Int) - s.now) (s1.setTim fun t => { t with atPulse := none, rejRow := 0, goodRow := 0 })
  | none =>
    if 500 < ph.natAbs then
      if 3 ≤ s.tim.rejRow then timStep (-ph) (s1.setTim fun t => { t with rejRow := 0, goodRow := 0 })
      else s1.setTim fun t => { t with rej := satInc 255 t.rej, rejRow := t.rejRow + 1, goodRow := 0 }
    else
      let n := if ph.natAbs ≤ 5 then s.tim.goodRow + 1 else 0
      let s2 := timSlew (s1.setTim fun t => { t with rejRow := 0, goodRow := n })
      if 10 ≤ n then timTrace true s2 else s2

/-- TIM takes part: LNK is up, and no BARE, safe state or DORMANT holds. -/
def timLive (s : State) : Bool :=
  regionUp rLNK s && !s.bare && s.sys.mode != .safe && s.sys.power != .dormant

/-- A time is set at once on the grand master (R348); the answer is false elsewhere and for a timestamp that is not
valid. -/
def timSet (t : Ts) (s : State) : Bool × State :=
  if s.netTop ∧ timLive s ∧ stampValid t then (true, timStep ((ticksOf t : Int) - s.now) s) else (false, s)

/-- A time is set at the next pulse: its seconds (R348). -/
def timSetAtPulse (t : Ts) (s : State) : Bool × State :=
  if s.netTop ∧ timLive s ∧ stampValid t then (true, s.setTim fun m => { m with atPulse := some (fld t 30 34) })
  else (false, s)

/-- The timestamp in `TIM_SET_LO` and `TIM_SET_HI`. -/
def timSetReg (s : State) : Ts := BitVec.ofNat 64 (s.tim.setLo.toNat + s.tim.setHi.toNat * 2 ^ 32)

/-- An ignored command is logged (TIM_CMD, ch. 13). -/
def timCmd (src : Source) (atPulse : Bool) (s : State) : State :=
  let r := if atPulse then timSetAtPulse (timSetReg s) s else timSet (timSetReg s) s
  if r.1 then r.2
  else if s.netTop then logWerr 9 src 0x066020 s else logWerr 8 src 0x066020 s

/-- A read of an IMZ register, without effect. -/
def imzRead (s : State) (off : Nat) : Option Word :=
  let z := s.imz
  match off with
  | 0x00 => some (put 16 16 s.nodeNum.toNat ||| putB 7 z.flood ||| putB 6 z.mgrLost ||| putB 5 z.conflict |||
      putB 4 z.joined ||| put 2 2 s.netLevel ||| putB 1 s.netTop ||| putB 0 s.isManager)
  | 0x04 => some (put 24 8 z.badId ||| put 16 8 z.badLen ||| put 8 8 z.stranger ||| put 0 8 z.dup)
  | 0x08 => some (put 16 16 z.suppr ||| put 0 11 z.tokens)
  | 0x10 => some (BitVec.ofNat 32 z.lost.toNat)
  | 0x14 => some (BitVec.ofNat 32 (z.lost.toNat / 2 ^ 32))
  | _ => none

/-- A read of a TIM register, without effect; the high half of the time is the latched one (R8). -/
def timRead (s : State) (off : Nat) : Option Word :=
  let t := s.tim
  match off with
  | 0x00 => some (put 16 16 t.steps ||| put 8 8 (timHops s) ||| putB 7 t.traceable ||| putB 6 t.busB ||| put 4 2 t.mstate |||
      put 0 3 t.st.code)
  | 0x04 => some (putI 0 32 t.theta)
  | 0x08 => some (putI 0 32 t.corr)
  | 0x10 => some (loWord s.stamp)
  | 0x14 => some (tblGet (hiWord s.stamp) s.sys.hiLatch 0x066010)
  | 0x18 => some t.setLo
  | 0x1C => some t.setHi
  | 0x20 => some 0
  | 0x24 => some (putI 16 16 (clampI (-32768) 32767 t.phase) ||| put 0 8 t.rej)
  | _ => none

/-! ### Meanings -/

/-- TIME_REF_SEND. -/
def execTimeRefSend (s : State) : Host.Outcome State Fault Refusal := .next (refSend s)

/-- TIME_FOLLOW_SEND: on CAN2, or with `d` on CAN3. -/
def execTimeFollowSend (d : Bool) (s : State) : Host.Outcome State Fault Refusal := .next (followSend (if d then 1 else 0) s)

/-- TIME_REF_RECEIVED. -/
def execTimeRefReceived (f : ImzRx) (s : State) : Host.Outcome State Fault Refusal := .next (timRx 0x01 8 f (refRx f) s)

/-- TIM_HOLDOVER (R347). -/
def execTimHoldover (s : State) : Host.Outcome State Fault Refusal := .next (timHoldover s)

/-- SYNC_IN_PULSE: `ok`, the pulse was high for 1 µs to 900 ms (R348). -/
def execSyncInPulse (ok : Bool) (s : State) : Host.Outcome State Fault Refusal :=
  .next (if ok ∧ syncSource s ∧ timLive s ∧ linkTimed s = false then syncPulse s else s)

/-- SYNC_IN_LOSS: TRACEABLE clears and the last rate is held (R348). -/
def execSyncInLoss (s : State) : Host.Outcome State Fault Refusal :=
  .next (if syncSource s then timTrace false (s.setTim fun t => { t with goodRow := 0 }) else s)

/-- SYNC_OUT_PULSE: high for 100 ms (R349). -/
def execSyncOutPulse (s : State) : Host.Outcome State Fault Refusal :=
  .next (if s.bare ∨ s.sys.mode = .safe ∨ s.ident7 3 then s
    else { s with sys := { s.sys with pins := { s.sys.pins with syncEnd := s.mono + ms 100 } } })

/-- TIM_SET (R348). -/
def execTimSet (src : Source) (s : State) : Host.Outcome State Fault Refusal := .next (timCmd src false s)

/-- TIM_SET_AT_PULSE (R348). -/
def execTimSetAtPulse (src : Source) (s : State) : Host.Outcome State Fault Refusal := .next (timCmd src true s)

end Sys2Proof.Machine
end

