-- ==== Sys2Proof/Machine/Rec.lean ====
section
/-! DEFINITION. Rec: the recorder on the eMMC's user area: commits, checkpoints, recovery, formatting, reads by host and by
Imzin, and the eMMC's errors (R387 to R389, R395 to R406). -/
namespace Sys2Proof.Machine

open Sys2Proof

/-! ### The user area (R387) -/

/-- A sector that nothing has written. -/
def zeroSector : List Byte := List.replicate 512 0

/-- A sector's 512 bytes. -/
def sectorGet (s : State) (n : Nat) : List Byte := tblGet zeroSector s.mmc.user n

/-- A sector is written. -/
def sectorPut (n : Nat) (d : List Byte) (s : State) : State :=
  s.setMmc fun m => { m with user := tblPut zeroSector m.user n ((d ++ zeroSector).take 512) }

/-- Sectors in one MiB. -/
def mibSectors : Nat := 2048

/-- First sector of the ring, or of the slice area. -/
def areaBase (r : Rec) (ring : Bool) : Nat :=
  mibSectors * (1 + r.ledger) + (if ring then 0 else mibSectors * r.ring)

/-- Page slots of the ring, or of the slice area. -/
def areaSlots (s : State) (ring : Bool) : Nat :=
  (if ring then mibSectors * s.recd.ring else s.mmc.cap - areaBase s.recd false) / 9

/-- What is kept of an area. -/
def Rec.area (r : Rec) (ring : Bool) : RecArea := if ring then r.ringArea else r.sliceArea

/-- An area's pointers replaced. -/
def Rec.setArea (r : Rec) (ring : Bool) (a : RecArea) : Rec :=
  if ring then { r with ringArea := a } else { r with sliceArea := a }

/-- First sector of a page slot. -/
def slotBase (r : Rec) (ring : Bool) (k : Nat) : Nat := areaBase r ring + 9 * k

/-- The 4096 data bytes of a page slot. -/
def slotData (s : State) (ring : Bool) (k : Nat) : List Byte :=
  (List.range 8).flatMap fun i => sectorGet s (slotBase s.recd ring k + i)

/-! ### Pages as bytes (R394, R395, R397) -/

/-- A page's trailer sector (R395). -/
def trailerBytes (s : State) (c : Commit) : List Byte :=
  let d := bytesLE 4 0x5A5AC3C3 ++ bytesLE 4 s.recd.gen.toNat ++ bytesLE 1 (if c.ring then 2 else 1) ++
    bytesLE 1 c.records ++ bytesLE 2 0 ++ bytesLE 4 c.seq.toNat ++ bytesLE 4 c.slot ++ bytesLE 4 (crc32 c.data).toNat ++
    bytesLE 8 c.first.toNat ++ bytesLE 8 c.last.toNat ++ bytesLE 8 s.stamp.toNat ++ bytesLE 2 s.nodeNum.toNat ++
    bytesLE 2 0 ++ bytesLE 4 s.recd.starts.toNat ++ List.replicate 452 0
  d ++ bytesLE 4 (crc32 d).toNat

/-- A trailer is a whole one of a slot: mark, CRC, generation, area and slot index (R401). -/
def trailerOk (s : State) (ring : Bool) (k : Nat) : Bool :=
  let d := sectorGet s (slotBase s.recd ring k + 8)
  dataNat d 0 4 == 0x5A5AC3C3 && dataNat d 508 4 == (crc32 (d.take 508)).toNat &&
  dataNat d 4 4 == s.recd.gen.toNat && dataNat d 8 1 == (if ring then 2 else 1) && dataNat d 16 4 == k

/-- A field of a slot's trailer. -/
def trailerNat (s : State) (ring : Bool) (k off n : Nat) : Nat := dataNat (sectorGet s (slotBase s.recd ring k + 8)) off n

/-- The data of a slot agree with the CRC in its trailer. -/
def dataOk (s : State) (ring : Bool) (k : Nat) : Bool :=
  (crc32 (slotData s ring k)).toNat == trailerNat s ring k 20 4

/-- The slots of an area whose trailer sector has been written and is whole. -/
def heldSlots (s : State) (ring : Bool) : List Nat :=
  let base := areaBase s.recd ring
  (s.mmc.user.filterMap fun (n, _) =>
    if base ≤ n ∧ (n - base) % 9 = 8 ∧ (n - base) / 9 < areaSlots s ring then some ((n - base) / 9) else none).filter
    (trailerOk s ring)

/-! ### Checkpoints (R399) -/

/-- The four pointers of an area. -/
def pointerBytes (s : State) (ring : Bool) : List Byte :=
  let a := s.recd.area ring
  bytesLE 4 a.slot ++ bytesLE 4 a.seq.toNat ++ bytesLE 4 a.old.toNat ++ bytesLE 4 (areaSlots s ring)

/-- The recorder pointers record's 256 bytes. -/
def pointers (s : State) : List Byte :=
  let r := s.recd
  let d := bytesLE 4 0x4E525250 ++ bytesLE 4 r.ckCount.toNat ++ bytesLE 4 r.gen.toNat ++ bytesLE 4 r.starts.toNat ++
    pointerBytes s false ++ pointerBytes s true ++ bytesLE 4 r.lost ++ bytesLE 8 r.lostFirst.toNat ++
    bytesLE 8 r.lostLast.toNat ++ bytesLE 4 r.slicesLost ++ bytesLE 8 s.stamp.toNat ++ List.replicate 172 0
  d ++ bytesLE 4 (crc32 d).toNat

/-- A checkpoint is written to sectors 2 and 3 in turn. -/
def checkpoint (s : State) : State :=
  let s1 := s.setRec fun r => { r with ckCount := r.ckCount + 1, ckCommits := 0 }
  sectorPut (2 + s1.recd.ckCount.toNat % 2) (pointers s1) s1

/-- A checkpoint copy is valid. -/
def checkOk (d : List Byte) : Bool :=
  dataNat d 0 4 == 0x4E525250 && dataNat d 252 4 == (crc32 (d.take 252)).toNat

/-- The valid checkpoint copy with the higher count. -/
def checkRead (s : State) : Option (List Byte) :=
  let a := sectorGet s 2
  let b := sectorGet s 3
  match checkOk a, checkOk b with
  | true, true => some (if dataNat a 4 4 < dataNat b 4 4 then b else a)
  | true, false => some a
  | false, true => some b
  | false, false => none

/-! ### Commits (R396, R398) -/

/-- An area's pointers after a commit: the next slot in ring order, the next sequence number, and the oldest page left. -/
def areaAfter (s : State) (c : Commit) : RecArea :=
  let a := s.recd.area c.ring
  let n := areaSlots s c.ring
  let k := if c.slot + 1 < n then c.slot + 1 else 0
  let old := if a.wrap then BitVec.ofNat 32 (trailerNat s c.ring k 12 4) else a.old
  { slot := k, seq := c.seq + 1, old := old, wrap := a.wrap || k == 0 }

/-- A page's data and trailer are in its slot. -/
def commitWrite (c : Commit) (s : State) : State :=
  let base := slotBase s.recd c.ring c.slot
  let s1 := (List.range 8).foldl (fun a i => sectorPut (base + i) ((c.data.drop (512 * i)).take 512) a) s
  sectorPut (base + 8) (trailerBytes s c) s1

/-- A commit is done: pointers, a checkpoint after every 16, and the next page (R396, R399). -/
def commitDone (s : State) : State :=
  match s.recd.busy with
  | none => s
  | some c =>
    let s1 := commitWrite c s
    let s2 := (s1.setRec fun r =>
      { r.setArea c.ring (areaAfter s1 c) with busy := none, ckCommits := r.ckCommits + 1 }).setMmc fun m =>
        { m with st := .ready, retries := 0 }
    let last := s2.recd.st == .stopped && s2.recd.rgWait.isEmpty && s2.recd.slWait.isEmpty
    commitNext (if 16 ≤ s2.recd.ckCommits ∨ last = true then checkpoint s2 else s2)

/-- The open pages are closed for their commit (REC_CTL.FLUSH, STOP). -/
def flushPages (s : State) : State :=
  commitNext (s.setRec fun r => ringPage (if r.slWait.length < 8 then slicePage r else r))

/-! ### Format and recovery (R388, R389, R400, R401) -/

/-- The format descriptor of sector 0 is whole: mark and CRC (R389). -/
def descriptorWhole (s : State) : Bool :=
  let d := sectorGet s 0
  dataNat d 0 4 == 0x4E524644 && dataNat d 508 4 == (crc32 (d.take 508)).toNat

/-- LEDGER and RING of the active recipe. Without a REC section the sizes on the eMMC stand, and on one that is not
formatted those of R407's defaults, 16 and 256 MiB (R386; DESIGN CHOICE, log 30). -/
def recSizes (s : State) : Nat × Nat :=
  if bankHas s.activeBank secREC then (s.cfgNat secREC 0 4, s.cfgNat secREC 4 4)
  else if descriptorWhole s then (dataNat (sectorGet s 0) 8 4, dataNat (sectorGet s 0) 12 4)
  else (16, 256)

/-- The format descriptor (R389). -/
def descriptor (s : State) : List Byte :=
  let r := s.recd
  let d := bytesLE 4 0x4E524644 ++ bytesLE 4 r.gen.toNat ++ bytesLE 4 r.ledger ++ bytesLE 4 r.ring ++
    bytesLE 4 s.mmc.cap ++ bytesLE 8 s.stamp.toNat ++ List.replicate 480 0
  d ++ bytesLE 4 (crc32 d).toNat

/-- The descriptor on the eMMC is valid and of these sizes. -/
def descriptorOk (s : State) : Bool :=
  let d := sectorGet s 0
  descriptorWhole s && (dataNat d 8 4, dataNat d 12 4) == (s.recd.ledger, s.recd.ring) && dataNat d 16 4 == s.mmc.cap

/-- The user area is formatted: a new random generation, a free value; empty areas; the trim and lamp records belong to the
old generation (R389, log 1, log 20). -/
def recFormat (s : State) : State :=
  let gen : Word := BitVec.ofNat 32 s.freeVal.toNat
  let s1 := (s.drew).setRec fun r =>
    { r with gen := gen, sliceArea := {}, ringArea := {}, starts := 0, ckCommits := 0, rdLast := Vector.replicate 2 none,
             xfLast := Vector.replicate 2 none }
  let s2 := { s1 with ao := s1.ao.map fun a => { a with trimStored := (0, 0) },
                      dio := s1.dio.map fun d => { d with stored := (0, 0, 0, 0) } }
  recEvent 6 0 (checkpoint (checkpoint (sectorPut 0 (descriptor s2) s2)))

/-- The pages accepted from a slot on, at most `fuel` of them: the next slot, the next sequence number, the number
accepted and the last slot; `least` is the sequence number that the next page must reach (R400, R401). -/
def scanFrom (s : State) (ring : Bool) : Nat → Nat → Nat → Nat → Option Nat → Nat × Nat × Nat × Option Nat
  | 0, k, least, n, last => (k, least, n, last)
  | fuel + 1, k, least, n, last =>
    let q := trailerNat s ring k 12 4
    if trailerOk s ring k ∧ least ≤ q then
      scanFrom s ring fuel (if k + 1 < areaSlots s ring then k + 1 else 0) (q + 1) (n + 1) (some k)
    else (k, least, n, last)

/-- Every whole page of an area: the one with the highest sequence number, the lowest number, and how many (R400). -/
def scanAll (s : State) (ring : Bool) : Option (Nat × Nat) × Nat × Nat :=
  let l := (heldSlots s ring).map fun k => (k, trailerNat s ring k 12 4)
  let top := l.foldl (fun (a : Option (Nat × Nat)) (k, q) =>
    match a with | none => some (k, q) | some (_, b) => if b < q then some (k, q) else a) none
  (top, (l.map (·.2)).foldl min (match top with | some (_, q) => q | none => 0), l.length)

/-- An area is recovered from the checkpoint, or without one from every slot: its pointers, the pages accepted and the
last of them. -/
def recoverArea (s : State) (ck : Option (List Byte)) (ring : Bool) : RecArea × Nat × Option Nat :=
  let n := areaSlots s ring
  match ck with
  | some d =>
    let o := if ring then 32 else 16
    let r := scanFrom s ring n (dataNat d o 4) (dataNat d (o + 4) 4) 0 none
    let old := dataNat d (o + 8) 4
    let wrap := decide (n ≤ r.2.1 - old) || (decide (0 < r.2.2.1) && decide (r.1 < dataNat d o 4))
    ({ slot := r.1, seq := BitVec.ofNat 32 r.2.1,
       old := if wrap ∧ trailerOk s ring r.1 then BitVec.ofNat 32 (trailerNat s ring r.1 12 4) else BitVec.ofNat 32 old,
       wrap := wrap }, r.2.2.1, r.2.2.2)
  | none =>
    let a := scanAll s ring
    match a.1 with
    | none => ({}, 0, none)
    | some (k, q) =>
      ({ slot := if k + 1 < n then k + 1 else 0, seq := BitVec.ofNat 32 (q + 1), old := BitVec.ofNat 32 a.2.1,
         wrap := decide (n ≤ a.2.2) }, a.2.2, some k)

/-- The last-breath record in control sector 4: the last committed sequence number and the entries lost, where it is valid
(R69, R400). -/
def breathRead (s : State) : Option (Nat × Nat) :=
  let d := sectorGet s 4
  if dataNat d 0 4 = 0xB7EA0D01 ∧ dataNat d 508 4 = (crc32 (d.take 508)).toNat then some (dataNat d 24 4, dataNat d 28 4)
  else none

/-- An area's next sequence number is raised above one that is known to be committed. -/
def RecArea.raise (a : RecArea) (q : Nat) : RecArea := if a.seq.toNat ≤ q then { a with seq := BitVec.ofNat 32 (q + 1) } else a

/-- The descriptor's generation is taken, or the user area is formatted, the control sectors with it (R386, R389). -/
def recDescriptor (s : State) : State :=
  if descriptorOk s then s.setRec fun r => { r with gen := BitVec.ofNat 32 (dataNat (sectorGet s 0) 4 4) } else recFormat s

/-- Recovery begins: the descriptor with a format where it is needed, the generation; then the space, by the sizes read at
the start. Without a REC section REC stays OFF (R386, R388, R389, R400). -/
def recRecovery (s : State) : State :=
  if !regionUp rKEP s ∨ s.mmc.st ≠ .ready then s
  else
    let s1 := recDescriptor s
    if bankHas s.activeBank secREC = false then s1
    else if s.mmc.cap < mibSectors * (1 + s.recd.ledger + s.recd.ring + 16) then
      recEvent 7 RecState.noSpace.code (s1.setRec fun r => { r with st := .noSpace })
    else
      s1.setRec fun r => { r with st := .scanning, rgOpen := { r.rgOpen with start := true },
                                  fullscan := (checkRead s1).isNone }

/-- Recovery ends: slots, sequence numbers, the counts of the last breath, RUN, with its event (R400). -/
def recRecovered (s : State) : State :=
  if s.recd.st ≠ .scanning then s
  else
    let ck := checkRead s
    let a := recoverArea s ck false
    let b := recoverArea s ck true
    let lb := breathRead s
    let up := fun (x : RecArea) => match lb with | some (q, _) => x.raise q | none => x
    let bad := fun (ring : Bool) (o : Option Nat) => match o with
      | some k => !dataOk s ring k
      | none => false
    let crcs := (if bad false a.2.2 then 1 else 0) + (if bad true b.2.2 then 1 else 0)
    let lost := (match ck with | some d => dataNat d 48 4 | none => 0) + (match lb with | some (_, n) => n | none => 0)
    let s1 := s.setRec fun r =>
      { r with st := .run, sliceArea := up a.1, ringArea := up b.1, fullscan := false,
               cntCrc := satAdd 255 r.cntCrc crcs, lost := satAdd 0xFFFFFFFF r.lost lost,
               lostEntries := satAdd 0xFFFF r.lostEntries lost,
               ckCount := BitVec.ofNat 32 (match ck with | some d => dataNat d 4 4 | none => 0),
               starts := BitVec.ofNat 32 ((match ck with | some d => dataNat d 12 4 | none => r.starts.toNat) + 1) }
    commitNext (recEvent 1 (min 0xFFFF b.2.1) s1)

/-- REC_CTL.STOP is written: the open pages are committed and REC stops; at 0 it goes back to the state it stopped in. A
REC that is OFF or recovers stays as it is (REC_CTL; DESIGN CHOICE, log 30). -/
def recStop (stop : Bool) (s : State) : State :=
  if stop then
    match s.recd.st with
    | .run =>
      let s1 := (flushPages s).setRec fun r => { r with st := .stopped, stopFrom := .run }
      if s1.recd.busy.isNone then checkpoint s1 else s1
    | .noSpace => s.setRec fun r => { r with st := .stopped, stopFrom := .noSpace }
    | .mediaError => s.setRec fun r => { r with st := .stopped, stopFrom := .mediaError }
    | _ => s
  else if s.recd.st = .stopped then commitNext (s.setRec fun r => { r with st := r.stopFrom }) else s

/-- REC_CTL.FORMAT is written: with its key, while STOP is 1; else it is logged (REC_CTL). -/
def recFormatCmd (src : Source) (key : Byte) (s : State) : State :=
  if s.recd.st ≠ .stopped then logWerr 8 src 0x080020 s
  else if key ≠ 0x5C then logWerr 9 src 0x080020 s
  else recFormat s

/-! ### Reads (R404, R405) -/

/-- A page read: its data, result code, records, sequence number and trailer's commit time and CRC. -/
structure PageRead where
  data : List Byte := List.replicate 4096 0
  code : Nat
  records : Nat := 0
  seq : Word := 0
  commit : Ts := 0
  crc : Word := 0
deriving DecidableEq, Repr

/-- The page of a slot. -/
def readSlot (s : State) (ring : Bool) (k : Nat) : PageRead :=
  { data := slotData s ring k, code := if dataOk s ring k then 0 else 2, records := trailerNat s ring k 9 1,
    seq := BitVec.ofNat 32 (trailerNat s ring k 12 4), commit := BitVec.ofNat 64 (trailerNat s ring k 40 8),
    crc := BitVec.ofNat 32 (trailerNat s ring k 20 4) }

/-- The committed pages held, as sequence number and slot. -/
def heldPages (s : State) (ring : Bool) : List (Nat × Nat) :=
  let a := s.recd.area ring
  ((heldSlots s ring).map fun k => (trailerNat s ring k 12 4, k)).filter fun p =>
    a.old.toNat ≤ p.1 && decide (p.1 < a.seq.toNat)

/-- The page with the lowest sequence number among some. -/
def lowestPage (l : List (Nat × Nat)) : Option (Nat × Nat) :=
  l.foldl (fun a p => match a with | none => some p | some b => if p.1 < b.1 then some p else a) none

/-- The last record of a page lies at or after a time. -/
def pageReaches (s : State) (ring : Bool) (t : Ts) (p : Nat × Nat) : Bool :=
  decide (stampNs t ≤ stampNs (BitVec.ofNat 64 (trailerNat s ring p.2 32 8)))

/-- The page that an operation names, by sequence number and slot (R404). -/
def pickPage (s : State) (op : Nat) (ring : Bool) (arg : BitVec 64) (last : Option Word) : Option (Nat × Nat) :=
  let l := heldPages s ring
  match op, last with
  | 1, _ => l.find? fun p => p.1 == arg.toNat % 2 ^ 32
  | 2, _ => lowestPage (l.filter (pageReaches s ring arg))
  | _, none => none
  | _, some q => lowestPage (l.filter fun p => decide (q.toNat < p.1))

/-- The open page; its sequence number is not given yet, a free value (R404, log 1). -/
def openPage (s : State) (ring : Bool) : PageRead :=
  if ring then { data := ringBytes s.recd.rgOpen, code := 5, records := s.recd.rgOpen.entries.length,
                 seq := BitVec.ofNat 32 s.freeVal.toNat }
  else { data := slicePageBytes s.recd.slOpen, code := 5, records := s.recd.slOpen.length,
         seq := BitVec.ofNat 32 s.freeVal.toNat }

/-- A read's result (R404). -/
def readPage (s : State) (op : Nat) (ring : Bool) (arg : BitVec 64) (last : Option Word) : PageRead :=
  if s.recd.st = .off then { code := 6 }
  else if op = 4 then openPage s ring
  else match pickPage s op ring arg last with
  | some p => readSlot s ring p.2
  | none => { code := 1 }

/-- A write of REC_RD: one that finds another pending is refused with BUSY (R404). -/
def recRead (op : Nat) (ring : Bool) (s : State) : State :=
  if s.recd.rdPend then s.setRec fun r => { r with rdCode := 4 }
  else s.setRec fun r => { r with rdPend := true, rdOp := op, rdRing := ring }

/-- Index of an area. -/
def areaIdx (ring : Bool) : Fin 2 := if ring then 1 else 0

/-- A host read completes; `media`: the eMMC could not read the page (R404). -/
def recReadDone (media : Bool) (s : State) : State :=
  if s.recd.rdPend = false then s
  else
    let ring := s.recd.rdRing
    let arg : BitVec 64 := BitVec.ofNat 64 (s.recd.argLo.toNat + s.recd.argHi.toNat * 2 ^ 32)
    let p := readPage s s.recd.rdOp ring arg s.recd.rdLast[areaIdx ring]
    let code := if media && (p.code == 0 || p.code == 2) then 3 else p.code
    let got := code == 0 || code == 2 || code == 5
    let s1 := s.setRec fun r =>
      { r with rdPend := false, rdCode := code, rdCount := if got then p.records else 0,
               rdSeq := if got then p.seq else r.rdSeq, buf := if got then p.data else r.buf,
               cntCrc := if code = 2 then satInc 255 r.cntCrc else r.cntCrc,
               rdLast := if code = 0 ∨ code = 2 then r.rdLast.set (areaIdx ring) (some p.seq) else r.rdLast }
    recEvent 5 code (if s.recd.rdOp = 4 then s1.drew else s1)

/-- A word of REC_BUF; without a REC section it reads 0 (R386). -/
def recBufRead (s : State) (off : Nat) : Word :=
  if s.recd.st = .off then 0 else BitVec.ofNat 32 (dataNat s.recd.buf off 4)

/-- A REC_XFER's 64 bytes (R405). -/
def xferBytes (node : Half) (tag : Byte) (op : Nat) (ring : Bool) (chunk code records : Nat) (seq : Word) (time : Ts)
    (crc : Word) (data : List Byte) : List Byte :=
  bytesLE 2 node.toNat ++ [tag] ++ bytesLE 1 op ++ bytesLE 1 (if ring then 1 else 0) ++ bytesLE 1 chunk ++ bytesLE 1 code ++
  bytesLE 1 records ++ bytesLE 4 seq.toNat ++ bytesLE 8 time.toNat ++ bytesLE 4 crc.toNat ++ List.replicate 8 0 ++
  ((data ++ List.replicate 32 0).take 32)

/-- The frames that answer a read: 128 of DATA for a page, then END. -/
def xferFrames (r : ReqRef) (ring : Bool) (p : PageRead) : List (List Byte) :=
  let ok := p.code == 0 || p.code == 5
  (if ok then (List.range 128).map fun i =>
    xferBytes r.node r.tag 0x10 ring i 0 0 p.seq 0 0 ((p.data.drop (32 * i)).take 32) else []) ++
  [xferBytes r.node r.tag 0x11 ring 0 p.code p.records p.seq p.commit (if p.code = 5 then crc32 p.data else p.crc) []]

/-- The next frames of the read being served, at most 32 (R405). -/
def xferSend (s : State) : State :=
  match s.imz.xferTo with
  | none => s
  | some r =>
    let rest := s.imz.xferOut.drop 32
    (s.imz.xferOut.take 32).foldl (fun a d => imzToward r.down 6 0x60 d a)
      (s.setImz fun z => { z with xferOut := rest, xferTo := if rest = [] then none else some r })

/-- A REC_XFER request for this node: one read at a time, a second is answered with END and BUSY (R405). -/
def xferRequest (f : ImzRx) (s : State) : State :=
  let op := dataNat f.data 3 1
  let ring := dataNat f.data 4 1 == 1
  let r : ReqRef := cmdRef s f
  if op = 0 ∨ 4 < op ∨ s.standby ∨ s.activeUnit = false then s
  else if s.imz.xferTo.isSome then
    imzToward r.down 6 0x60 (xferBytes r.node r.tag 0x11 ring 0 4 0 0 0 0 []) s
  else
    let arg : BitVec 64 := BitVec.ofNat 64 (if op = 2 then dataNat f.data 12 8 else dataNat f.data 8 4)
    let p := readPage s op ring arg s.recd.xfLast[areaIdx ring]
    let s1 := s.setRec fun x =>
      { x with xfLast := if p.code = 0 ∨ p.code = 2 then x.xfLast.set (areaIdx ring) (some p.seq) else x.xfLast,
               cntCrc := if p.code = 2 then satInc 255 x.cntCrc else x.cntCrc }
    let s2 := if op = 4 then s1.drew else s1
    xferSend (s2.setImz fun z => { z with xferOut := xferFrames r ring p, xferTo := some r })

/-- A DATA chunk of a page that this node asked for (R405). -/
def xferData (f : ImzRx) (s : State) : State :=
  if dataNat f.data 0 2 = s.nodeNum.toNat ∧ dataNat f.data 3 1 = 0x10 ∧ dataNat f.data 5 1 < 128 then
    s.setImz fun z => { z with xferIn := memFill z.xferIn (32 * dataNat f.data 5 1) (f.data.drop 32) }
  else s

/-- END of a page that this node asked for: the CRC over the 4096 bytes received is checked (R405). -/
def xferEnd (f : ImzRx) (s : State) : State :=
  if dataNat f.data 0 2 = s.nodeNum.toNat ∧ dataNat f.data 3 1 = 0x11 then
    let code := dataNat f.data 6 1
    let ok := (crc32 (memBytes s.imz.xferIn 0 4096)).toNat == dataNat f.data 20 4
    s.setImz fun z => { z with xferCode := if (code = 0 ∨ code = 5) ∧ ok = false then 2 else code }
  else s

/-! ### The eMMC's errors (R406) -/

/-- MMC gives up: ERROR, and MEDIA_ERROR of REC, with their events. -/
def mmcError (cmd : Nat) (s : State) : State :=
  let s1 := mmcEvent 4 cmd (s.setMmc fun m => { m with st := .error })
  if s1.recd.st = .off ∨ s1.recd.st = .noSpace then s1
  else recEvent 7 RecState.mediaError.code (s1.setRec fun r => { r with st := .mediaError })

/-- The eMMC is reinitialised; the third time within 10 min ends in ERROR. -/
def mmcReinit (cmd : Nat) (ok : Bool) (s : State) : State :=
  let l := s.mono :: recent (sec 600) s.mono s.mmc.reinits
  let s1 := s.setMmc fun m => { m with retries := 0, reinits := l, cntReinit := satInc 255 m.cntReinit }
  if ok = false ∨ 3 ≤ l.length then mmcError cmd s1
  else mmcEvent 2 l.length (s1.setMmc fun m => { m with st := if s.recd.busy.isSome then .busy else .ready })

/-- A command of the eMMC fails with a CRC error or a timeout: up to 3 retries, then reinitialisation (R406). -/
def mmcFail (crc : Bool) (cmd : BitVec 6) (rsp : Word) (ok : Bool) (s : State) : State :=
  if s.mmc.st = .ready ∨ s.mmc.st = .busy then
    let s1 := s.setMmc fun m =>
      { m with last := cmd.toNat, lastRsp := rsp, cntCrc := if crc then satInc 255 m.cntCrc else m.cntCrc,
               cntTimeout := if crc then m.cntTimeout else satInc 255 m.cntTimeout }
    if s.mmc.retries < 3 then s1.setMmc fun m => { m with retries := m.retries + 1, cntRetry := satInc 255 m.cntRetry }
    else mmcReinit cmd.toNat ok s1
  else s

/-- The attempt of every 10 min in ERROR; a success starts recovery (R406). -/
def mmcTimer (ok : Bool) (s : State) : State :=
  if s.mmc.st = .error ∧ ok then
    recRecovery (mmcEvent 2 1 (s.setMmc fun m =>
      { m with st := .ready, retries := 0, reinits := [s.mono], cntReinit := satInc 255 m.cntReinit }))
  else s

/-! ### Registers -/

/-- A read of a REC register, without effect. -/
def recRegRead (s : State) (off : Nat) : Option Word :=
  let r := s.recd
  if 0x1000 ≤ off ∧ off < 0x2000 then some (recBufRead s (off - 0x1000))
  else match off with
  | 0x00 => some (put 28 4 r.st.code ||| putB 27 r.sizePend ||| putB 26 r.fullscan ||| putB 25 r.loss |||
      putB 24 r.ringArea.wrap ||| putB 23 r.sliceArea.wrap ||| put 8 8 r.rgWait.length ||| put 4 4 r.slWait.length)
  | 0x04 => some r.ringArea.seq
  | 0x08 => some r.sliceArea.seq
  | 0x0C => some r.ringArea.old
  | 0x10 => some r.sliceArea.old
  | 0x14 => some (put 16 16 r.lostEntries ||| put 8 8 r.lostSlices ||| put 0 8 r.cntCrc)
  | 0x18 => some r.gen
  | 0x20 => some (putB 0 (r.st == .stopped))
  | 0x24 => some 0
  | 0x28 => some r.argLo
  | 0x2C => some r.argHi
  | 0x30 => some (putB 31 r.rdPend ||| put 16 8 r.rdCode ||| put 0 8 r.rdCount)
  | 0x34 => some r.rdSeq
  | _ => none

/-- Code of `MMC_STAT.STATE`. -/
def MmcState.code : MmcState → Nat
  | .off => 0
  | .init => 1
  | .ready => 2
  | .busy => 3
  | .error => 4
  | .sleep => 5

/-- A read of an MMC register, without effect. -/
def mmcRegRead (s : State) (off : Nat) : Option Word :=
  let m := s.mmc
  match off with
  | 0x00 => some (put 28 4 m.st.code ||| putB 26 m.bus4 ||| putB 25 m.hs)
  | 0x04 => some (put 0 32 m.cap)
  | 0x08 => some (put 16 8 m.lifeB ||| put 8 8 m.lifeA ||| put 0 8 m.preEol)
  | 0x0C => some (put 24 8 m.cntReinit ||| put 16 8 m.cntTimeout ||| put 8 8 m.cntCrc ||| put 0 8 m.cntRetry)
  | 0x10 => some (put 0 6 m.last)
  | 0x14 => some m.lastRsp
  | _ => none

/-! ### Meanings -/

/-- A command of KEP acts while the region is up. -/
def inKep (f : State → State) (s : State) : State := if regionUp rKEP s then f s else s

/-- REC_FLUSH. -/
def execRecFlush (s : State) : Host.Outcome State Fault Refusal := .next (inKep flushPages s)

/-- PAGE_COMMIT_DONE. -/
def execPageCommitDone (s : State) : Host.Outcome State Fault Refusal := .next (inKep commitDone s)

/-- REC_COMMIT_TIMEOUT: a commit has taken more than 50 ms (R398). -/
def execRecCommitTimeout (s : State) : Host.Outcome State Fault Refusal :=
  .next (if s.recd.busy.isSome then s.setMmc fun m => { m with cntTimeout := satInc 255 m.cntTimeout } else s)

/-- CHECKPOINT_TIMER. -/
def execCheckpointTimer (s : State) : Host.Outcome State Fault Refusal :=
  .next (inKep (fun a => if a.recd.st = .run then checkpoint a else a) s)

/-- REC_RECOVERY: at start step 7. -/
def execRecRecovery (s : State) : Host.Outcome State Fault Refusal :=
  .next (if s.recd.st = .off ∧ 7 ≤ s.sys.step then recRecovery s else s)

/-- REC_RECOVERY_DONE. -/
def execRecRecoveryDone (s : State) : Host.Outcome State Fault Refusal := .next (inKep recRecovered s)

/-- REC_FORMAT. -/
def execRecFormat (src : Source) (key : Byte) (s : State) : Host.Outcome State Fault Refusal :=
  .next (inKep (recFormatCmd src key) s)

/-- REC_STOP. -/
def execRecStop (stop : Bool) (s : State) : Host.Outcome State Fault Refusal := .next (inKep (recStop stop) s)

/-- REC_READ_SEQ. -/
def execRecReadSeq (ring : Bool) (s : State) : Host.Outcome State Fault Refusal := .next (inKep (recRead 1 ring) s)

/-- REC_FIND_TIME. -/
def execRecFindTime (ring : Bool) (s : State) : Host.Outcome State Fault Refusal := .next (inKep (recRead 2 ring) s)

/-- REC_READ_NEXT. -/
def execRecReadNext (ring : Bool) (s : State) : Host.Outcome State Fault Refusal := .next (inKep (recRead 3 ring) s)

/-- REC_READ_OPEN. -/
def execRecReadOpen (ring : Bool) (s : State) : Host.Outcome State Fault Refusal := .next (inKep (recRead 4 ring) s)

/-- REC_READ_DONE. -/
def execRecReadDone (media : Bool) (s : State) : Host.Outcome State Fault Refusal := .next (inKep (recReadDone media) s)

/-- MMC_COMMAND_FAIL. -/
def execMmcCommandFail (crc : Bool) (cmd : BitVec 6) (rsp : Word) (ok : Bool) (s : State) :
    Host.Outcome State Fault Refusal := .next (inKep (mmcFail crc cmd rsp ok) s)

/-- REC_XFER_DATA_RECEIVED. -/
def execRecXferDataReceived (f : ImzRx) (s : State) : Host.Outcome State Fault Refusal :=
  .next (imzRx 0x60 f (xferData f) s)

/-- REC_XFER_END_RECEIVED. -/
def execRecXferEndReceived (f : ImzRx) (s : State) : Host.Outcome State Fault Refusal := .next (imzRx 0x60 f (xferEnd f) s)

/-- REC_XFER_SEND_PACE. -/
def execRecXferSendPace (s : State) : Host.Outcome State Fault Refusal :=
  .next (if imzOpen s ∧ s.standby = false then xferSend s else s)

end Sys2Proof.Machine
end

