-- ==== Sys2Proof/Machine/Pnl.lean ====
section
/-! DEFINITION. Pnl: the panel drive: rails, temperature and VCOM, framebuffer, update requests and slots (R409 to R429,
R437). -/
namespace Sys2Proof.Machine

open Sys2Proof

/-- The state with the panel drive replaced. -/
def State.setPnl (s : State) (f : Pnl → Pnl) : State := { s with pnl := f s.pnl }

/-- A number of the PANEL section (R438). -/
def State.panel (s : State) (off n : Nat) : Nat := s.cfgNat secPANEL off n

/-- A number of `n` bits in two's complement. -/
def toSigned (n v : Nat) : Int := if v < 2 ^ (n - 1) then (v : Int) else (v : Int) - 2 ^ n

/-- Width of the panel in pixels, a multiple of 8 (R409). -/
def State.pnlW (s : State) : Nat := s.panel 2 2
/-- Height of the panel in rows. -/
def State.pnlH (s : State) : Nat := s.panel 4 2
/-- `HOST_W`. -/
def State.hostW (s : State) : Nat := s.panel 54 2
/-- `HDR_H`. -/
def State.hdrH (s : State) : Nat := s.panel 56 2
/-- `FTR_H`. -/
def State.ftrH (s : State) : Nat := s.panel 58 2
/-- Rows of the body (R430). -/
def State.bodyH (s : State) : Nat := s.pnlH - s.hdrH - s.ftrH
/-- RND is enabled (R438). -/
def State.rndEn (s : State) : Bool := (s.panel 1 1).testBit 1
/-- `LIST_MODE`. -/
def State.listMode (s : State) : Nat := s.panel 20 1
/-- `CLEAR_MODE`. -/
def State.clearMode (s : State) : Nat := s.panel 21 1

/-- The recipe uses the panel: a PANEL section, and IDENT does not mark it unused (R409). -/
def State.hasPanel (s : State) : Bool := bankHas s.activeBank secPANEL && !s.ident7 2

/-- PNL and RND answer. -/
def pnlUp (s : State) : Bool := regionUp rFCE s && !s.bare

/-- An event of PNL (R437). -/
def pnlEvent (kind detail : Nat) (s : State) : State := raise 48 (put 0 4 kind ||| put 8 8 detail) s

/-! ### Rectangles -/

/-- The whole panel. -/
def State.wholePanel (s : State) : Rect := { x := 0, y := 0, w := s.pnlW, h := s.pnlH }

/-- The host area: the right-hand `HOST_W` pixels of the body while RND is enabled, else the whole panel (R421). -/
def State.hostArea (s : State) : Rect :=
  if s.rndEn then { x := s.pnlW - s.hostW, y := s.hdrH, w := s.hostW, h := s.bodyH } else s.wholePanel

/-- A rectangle holds no pixel. -/
def Rect.empty (r : Rect) : Bool := r.w == 0 || r.h == 0

/-- `a` lies wholly inside `b`. -/
def Rect.inside (a b : Rect) : Bool :=
  decide (b.x ≤ a.x) && decide (a.x + a.w ≤ b.x + b.w) && decide (b.y ≤ a.y) && decide (a.y + a.h ≤ b.y + b.h)

/-- Two rectangles share a pixel. -/
def Rect.meets (a b : Rect) : Bool :=
  decide (a.x < b.x + b.w) && decide (b.x < a.x + a.w) && decide (a.y < b.y + b.h) && decide (b.y < a.y + a.h)

/-- A rectangle widened to whole multiples of 4 pixels on the left and right (R424). -/
def Rect.widen (r : Rect) : Rect :=
  let x0 := r.x / 4 * 4
  { r with x := x0, w := (r.x + r.w + 3) / 4 * 4 - x0 }

/-- The smallest rectangle that holds two. -/
def Rect.join (a b : Rect) : Rect :=
  let x := min a.x b.x
  let y := min a.y b.y
  { x := x, y := y, w := max (a.x + a.w) (b.x + b.w) - x, h := max (a.y + a.h) (b.y + b.h) - y }

/-- The part of `a` that lies in `b`. -/
def Rect.meet (a b : Rect) : Rect :=
  let x := max a.x b.x
  let y := max a.y b.y
  { x := x, y := y, w := min (a.x + a.w) (b.x + b.w) - x, h := min (a.y + a.h) (b.y + b.h) - y }

/-- The parts of `a` outside a rectangle `m` within it: above, below, left and right of it (R426). -/
def Rect.around (a m : Rect) : List Rect :=
  [{ x := a.x, y := a.y, w := a.w, h := m.y - a.y },
   { x := a.x, y := m.y + m.h, w := a.w, h := a.y + a.h - (m.y + m.h) },
   { x := a.x, y := m.y, w := m.x - a.x, h := m.h },
   { x := m.x + m.w, y := m.y, w := a.x + a.w - (m.x + m.w), h := m.h }].filter fun r => !r.empty

/-! ### Planes (R420) -/

/-- Bytes in a row of a plane. -/
def State.stride (s : State) : Nat := s.pnlW / 2

/-- Address in a plane of the byte that holds pixel `x` of row `y`. -/
def State.pixelByte (s : State) (x y : Nat) : Nat := y * s.stride + x / 2

/-- The 4-bit level of a pixel in a plane: the left pixel of a byte in bits 3:0. -/
def pixelLevel (s : State) (m : Memory) (x y : Nat) : Nat := fld (memGet m (s.pixelByte x y)) (4 * (x % 2)) 4

/-- A byte of a plane lies in a rectangle. -/
def byteIn (s : State) (r : Rect) (a : Nat) : Bool :=
  let y := a / s.stride
  let x := a % s.stride * 2
  decide (r.x ≤ x) && decide (x < r.x + r.w) && decide (r.y ≤ y) && decide (y < r.y + r.h)

/-- A plane with the bytes of a rectangle taken from another memory. -/
def planeCopy (s : State) (r : Rect) (dst src : Memory) : Memory :=
  (src.filter fun p => byteIn s r p.1).foldl (fun m p => memPut m p.1 p.2) (dst.filter fun p => !byteIn s r p.1)

/-! ### Waveforms (R422, R440) -/

/-- Offset in WAVES of the entry for a mode and band. -/
def waveEntry (mode band : Nat) : Nat := 32 + 8 * (12 * mode + band)

/-- Frames of a mode in a band; 0 where it is undefined. -/
def waveFrames (s : State) (mode band : Nat) : Nat := s.cfgNat secWAVES (waveEntry mode band + 4) 2

/-- A mode is defined (R440). -/
def modeDefined (s : State) (mode : Nat) : Bool := decide (mode < 16) && waveFrames s mode 0 != 0

/-- The drive code of a pixel in frame `f` from level `p` to level `t`; frame data lie from the section's start (R422,
R440). -/
def driveCode (s : State) (mode band f p t : Nat) : Nat :=
  let b := s.cfgNat secWAVES (s.cfgNat secWAVES (waveEntry mode band) 4 + 64 * f + 4 * p + t / 4) 1
  b / 4 ^ (t % 4) % 4

/-- The code that PNL sends for a pixel in the present frame: a running slot's, 0 outside every slot (R418). -/
def sentCode (s : State) (x y : Nat) : Nat :=
  match s.pnl.slots.find? fun k => byteIn s k.req.rect (s.pixelByte x y) with
  | none => 0
  | some k => driveCode s k.req.mode k.band k.frame (pixelLevel s s.pnl.prev x y) (pixelLevel s k.target x y)

/-! ### Temperature and VCOM (R415 to R417) -/

/-- Bound `i` of the bands, signed, 0.1 °C (R440). -/
def bandBound (s : State) (i : Nat) : Int := toSigned 16 (s.cfgNat secWAVES (2 * i) 2)

/-- The band of a temperature of `n` / `d` in 0.1 °C: how many bounds lie at or below it (R416). -/
def bandOf (s : State) (n : Int) (d : Nat) : Nat := ((List.range 11).filter fun i => decide (bandBound s i * d ≤ n)).length

/-- VCOM of a band, signed, 10 mV (R438). -/
def vcomOf (s : State) (band : Nat) : Int := toSigned 16 (s.panel (24 + 2 * band) 2)

/-- The mean V of the samples lies within 50 mV to 2450 mV (R415). -/
def meanOk (l : List Nat) : Bool := decide (50 * l.length ≤ l.sum) && decide (l.sum ≤ 2450 * l.length)

/-- The temperature in force as a fraction in 0.1 °C: (V − TEMP_V0) / TEMP_SLOPE, or the back plate's (R415). -/
def tempNow (s : State) (fault : Bool) (l : List Nat) : Int × Nat :=
  if fault then (s.sup.plate, 1)
  else (((l.sum : Int) - l.length * s.panel 16 2) * 1000, l.length * s.panel 18 2)

/-- A sample of `PNL_TEMP` in mV (R415, R416). -/
def pnlSample (mv : Nat) (s : State) : State :=
  let l := (s.pnl.samples ++ [mv]).drop (s.pnl.samples.length - 9)
  let good := meanOk l
  let row := if good then s.pnl.okRow + 1 else 0
  let fault := if good then s.pnl.tempFault && decide (row < 10) else true
  let t := tempNow s fault l
  let band := bandOf s t.1 t.2
  let s1 := s.setPnl fun p =>
    { p with samples := l, okRow := row, tempFault := fault, temp := openDiv t.1 t.2,
             volt := (openDiv l.sum l.length).toNat, band := band, vcomDue := p.vcomDue && band != p.vcomBand }
  if fault && !s.pnl.tempFault then pnlEvent 5 0 s1
  else if s.pnl.tempFault && !fault then pnlEvent 6 0 s1 else s1

/-! ### Requests (R424, R427) -/

/-- Why a request is refused, 0 when it is accepted (R424, log 22). -/
def updRefusal (s : State) (own : Bool) (r : Rect) (mode : Nat) : Nat :=
  if s.pnl.st = .none then 6
  else if r.empty || !r.inside s.wholePanel then 2
  else if !modeDefined s mode then 3
  else if !own && s.rndEn && !r.inside s.hostArea then 4
  else if 32 ≤ s.pnl.queue.length then 1
  else if s.pnl.st = .railFault then 5
  else 0

/-- A request enters the queue; waiting ones of the same mode that lie inside it are removed, and their tags complete
with it (R427). -/
def updEnqueue (r : UpdReq) (q : List UpdReq) : List UpdReq :=
  let gone := fun (o : UpdReq) => o.mode == r.mode && o.rect.inside r.rect
  q.filter (fun o => !gone o) ++ [{ r with tags := r.tags ++ (q.filter gone).flatMap (·.tags) }]

/-- Waiting requests that lie inside a later one of the same mode are removed (R427). -/
def updMerge (q : List UpdReq) : List UpdReq := q.foldl (fun a r => updEnqueue r a) []

/-- The rails power up when updates wait and neither a fault nor the module's state holds them down (R411 to R413,
log 22). -/
def pnlPower (s : State) : State :=
  if s.pnl.st = .off ∧ s.pnl.resting = false ∧ canQuiet s = false ∧ (s.pnl.queue ≠ [] ∨ s.pnl.repairs ≠ []) then
    let s1 := s.setPnl fun p => { p with st := .powering }
    { s1 with sys := { s1.sys with pins := { s1.sys.pins with pnlPwren := true } } }
  else s

/-- An update request: its code, and the new state (R424). -/
def pnlSubmit (own : Bool) (r : Rect) (mode : Nat) (tag : Byte) (split : Bool) (s : State) : Nat × State :=
  let code := updRefusal s own r mode
  if code = 1 then (1, s.setPnl fun p => { p with busy := satInc 255 p.busy })
  else if code ≠ 0 then (code, s)
  else (0, pnlPower (s.setPnl fun p =>
    { p with queue := updEnqueue { rect := r.widen, mode := mode, tags := [tag], split := split } p.queue }))

/-- A request of the module's own; the spec gives it no tag, so that its tag is a free value (log 1). -/
def pnlOwn (r : Rect) (mode : Nat) (s : State) : Nat × State :=
  pnlSubmit true r mode (BitVec.ofNat 8 s.freeVal.toNat) false s.drew

/-- The rectangle in `PNL_UPD_XY` and `PNL_UPD_WH`. -/
def updRect (p : Pnl) : Rect :=
  { x := fld p.xy 0 12, y := fld p.xy 16 12, w := fld p.wh 0 12, h := fld p.wh 16 12 }

/-- A write of `PNL_UPD_CMD` (R424). -/
def updCmd (src : Source) (tag : Byte) (split : Bool) (mode : Nat) (s : State) : State :=
  let r := pnlSubmit (src == .chip) (updRect s.pnl) mode tag split s
  r.2.setPnl fun p => { p with resTag := tag, resCode := r.1 }

/-- `PNL_CTL.REFRESH`: a CLEAR_MODE request over the whole panel. -/
def pnlRefresh (s : State) : State := (pnlOwn s.wholePanel s.clearMode s).2

/-! ### Slots (R423, R425, R426, R428) -/

/-- A request takes a slot: its band and its targets are those of this moment (R423, R428). -/
def startSlot (s : State) (r : UpdReq) : PnlSlot :=
  { req := r, band := s.pnl.band, frame := 0, frames := waveFrames s r.mode s.pnl.band,
    target := s.pnl.cur.filter fun p => byteIn s r.rect p.1 }

/-- What remains to be seen of the queue, the requests that wait and the slots that run. -/
structure Starting where
  held : List UpdReq
  slots : List PnlSlot
deriving DecidableEq, Repr

/-- A request that only running slots hold is split: the rectangle that they cover together waits, with the tags; the
parts around it start, when slots enough are free (R426, log 22). -/
def splitOff (s : State) (a : Starting) (r : UpdReq) : Starting :=
  let shared := (a.slots.filter fun k => k.req.rect.meets r.rect).map fun k => k.req.rect.meet r.rect
  match shared with
  | [] => { a with held := a.held ++ [r] }
  | m :: rest =>
    let mid := rest.foldl Rect.join m
    let parts := r.rect.around mid
    if parts.length ≤ 16 - a.slots.length then
      { held := a.held ++ [{ r with rect := mid }],
        slots := a.slots ++ parts.map fun x => startSlot s { r with rect := x, part := true } }
    else { a with held := a.held ++ [r] }

/-- One waiting request at a frame boundary (R425). -/
def tryStart (s : State) (a : Starting) (r : UpdReq) : Starting :=
  if a.held.any fun o => o.rect.meets r.rect then { a with held := a.held ++ [r] }
  else if a.slots.any fun k => k.req.rect.meets r.rect then
    if r.split && (s.panel 1 1).testBit 0 then splitOff s a r else { a with held := a.held ++ [r] }
  else if a.slots.length < 16 then { a with slots := a.slots ++ [startSlot s r] }
  else { a with held := a.held ++ [r] }

/-- A slot's last frame has ended: its targets go into the previous plane, and it completes with an event for each tag
(R428). -/
def slotDone (s : State) (k : PnlSlot) : State :=
  let s1 := s.setPnl fun p => { p with prev := planeCopy s k.req.rect p.prev k.target }
  if k.req.part then s1 else k.req.tags.foldl (fun a t => pnlEvent 1 t.toNat a) s1

/-- A frame boundary: `late` rows of the frame were delayed (R417, R419, R423, R425, R428). -/
def pnlFrame (late : Nat) (s : State) : State :=
  let run := s.pnl.slots.map fun k => { k with frame := k.frame + 1 }
  let s1 := s.setPnl fun p =>
    { p with late := satAdd 255 p.late late, slots := run.filter fun k => decide (k.frame < k.frames) }
  let s2 := (run.filter fun k => !decide (k.frame < k.frames)).foldl slotDone s1
  if s2.pnl.slots = [] ∧ s2.pnl.band ≠ s2.pnl.vcomBand then
    s2.setPnl fun p => { p with vcomBand := p.band, vcomDue := false }
  else if s2.pnl.vcomDue then s2
  else
    let a := s2.pnl.queue.foldl (tryStart s2) { held := [], slots := s2.pnl.slots }
    s2.setPnl fun p => { p with queue := updMerge a.held, slots := a.slots }

/-! ### Rails (R411 to R413, R429) -/

/-- A slot is abandoned: its rectangle waits for a repair (R429). -/
def slotAbandon (s : State) (k : PnlSlot) : State :=
  let s1 := s.setPnl fun p => { p with abandoned := satInc 255 p.abandoned, repairs := p.repairs ++ [k.req.rect] }
  k.req.tags.foldl (fun a t => pnlEvent 2 t.toNat a) s1

/-- The rails power down, and every running slot is abandoned (R412, R429). -/
def pnlCut (s : State) : State :=
  let s1 := s.pnl.slots.foldl slotAbandon s
  let s2 := s1.setPnl fun p => { p with slots := [], st := if p.st = .powering ∨ p.st = .run then .off else p.st }
  { s2 with sys := { s2.sys with pins := { s2.sys.pins with pnlPwren := false } } }

/-- Repairs that wait are requested; one that finds the queue full goes on waiting (R429). -/
def pnlRepair (s : State) (r : Rect) : State :=
  let a := pnlOwn r s.clearMode s
  if a.1 = 0 then a.2 else a.2.setPnl fun p => { p with repairs := p.repairs ++ [r] }

/-- Power-up completes: VCOM stands at the panel band's value (R411, R417, R429). -/
def pnlReady (s : State) : State :=
  let s1 := s.setPnl fun p =>
    { p with st := .run, vcomBand := p.band, vcomDue := false, faulted := false, repairs := [] }
  let s2 := if s.pnl.faulted then pnlEvent 4 0 s1 else s1
  s.pnl.repairs.foldl pnlRepair s2

/-- A rail fault: the third within 10 min enters RAIL_FAULT (R413). -/
def pnlRailFault (s : State) : State :=
  let fs := recent (sec 600) s.now s.pnl.faults ++ [s.now]
  let s1 := (pnlEvent 3 0 (pnlCut s)).setPnl fun p =>
    { p with faults := fs, faulted := true, resting := true, railf := satInc 255 p.railf }
  if 3 ≤ fs.length then pnlEvent 7 0 (s1.setPnl fun p => { p with st := .railFault, resting := false }) else s1

/-- RAIL_FAULT is left, and the rails power up when updates wait (R413). -/
def pnlLeaveFault (s : State) : State :=
  if s.pnl.st = .railFault then pnlPower (s.setPnl fun p => { p with st := .off, resting := false }) else s

/-- The hourly retry of RAIL_FAULT (R413). -/
def pnlHourly (s : State) : State :=
  if s.pnl.st = .railFault ∧ canQuiet s = false then
    let s1 := s.setPnl fun p => { p with st := .powering }
    { s1 with sys := { s1.sys with pins := { s1.sys.pins with pnlPwren := true } } }
  else s

/-- What the panel drive keeps through a reset of FCE: the framebuffer, and the repairs of what it abandoned (R38,
R429). -/
def pnlFceReset (s : State) : State :=
  let s1 := pnlCut s
  s1.setPnl fun p =>
    { st := if s1.hasPanel then .off else .none, cur := p.cur, prev := p.prev, repairs := p.repairs }

/-- PNL takes the recipe's settings (R409, R423). -/
def pnlLoad (s : State) : State := s.setPnl fun p => { p with st := if s.hasPanel then .off else .none }

/-! ### The aperture (R421) -/

/-- A host's write of a word into the aperture: the result for the requester, and the new state. -/
def fbWrite (src : Source) (off : Nat) (v : Word) (s : State) : Nat × State :=
  let a := 65536 * s.pnl.fbPage + off / 4 * 4
  if s.stride ≠ 0 ∧ byteIn s s.hostArea a then
    (0, s.setPnl fun p => { p with cur := memFill p.cur a (bytesLE 4 v.toNat) })
  else (7, logWerr 0xA src (0x140000 + off) s)

/-- A read through the aperture: the current plane anywhere. -/
def fbRead (s : State) (off : Nat) : Word := BitVec.ofNat 32 (memNat s.pnl.cur (65536 * s.pnl.fbPage + off / 4 * 4) 4)

/-! ### Registers -/

/-- Code of `PNL_STAT.STATE`. -/
def PnlState.code : PnlState → Nat
  | .none => 0
  | .off => 1
  | .powering => 2
  | .run => 3
  | .railFault => 5

/-- A read of a PNL register. -/
def pnlRead (s : State) (off : Nat) : Option Word :=
  let p := s.pnl
  match off with
  | 0x000 => some (put 28 4 p.st.code ||| putB 27 p.tempFault ||| put 16 5 p.slots.length ||| put 8 6 p.queue.length |||
      put 4 4 p.band ||| put 0 4 (if s.hasPanel then s.panel 0 1 else 0))
  | 0x004 => some (putI 16 16 p.temp ||| put 0 12 p.volt)
  | 0x008 => some (put 16 4 p.vcomBand ||| putI 0 16 (if p.st = .run then vcomOf s p.vcomBand else 0))
  | 0x010 => some p.xy
  | 0x014 => some p.wh
  | 0x018 => some 0
  | 0x01C => some (put 24 8 p.resTag.toNat ||| put 0 8 p.resCode)
  | 0x020 => some (put 24 8 p.late ||| put 16 8 p.abandoned ||| put 8 8 p.railf ||| put 0 8 p.busy)
  | 0x030 => some (put 0 6 p.fbPage)
  | 0x034 => some 0
  | _ => none

/-- PNL acts only while FCE answers. -/
def inPnl (f : State → State) (s : State) : State := if pnlUp s ∧ s.pnl.st ≠ .none then f s else s

/-- PNL_UPDATE_REQUEST (R424). -/
def execPnlUpdateRequest (src : Source) (tag : Byte) (split : Bool) (mode : BitVec 4) (s : State) :
    Host.Outcome State Fault Refusal :=
  .next (if pnlUp s then updCmd src tag split mode.toNat s else s)

/-- PNL_RAILS_READY (R411). -/
def execPnlRailsReady (s : State) : Host.Outcome State Fault Refusal :=
  .next (if s.pnl.st = .powering then inPnl pnlReady s else s)

/-- PNL_RAIL_IDLE (R412): an update that waits powers the rails up again. -/
def execPnlRailIdle (s : State) : Host.Outcome State Fault Refusal :=
  .next (if s.pnl.st = .run ∧ s.pnl.slots = [] then inPnl (fun s => pnlPower (pnlCut s)) s else s)

/-- PNL_RAIL_FAULT (R413). -/
def execPnlRailFault (s : State) : Host.Outcome State Fault Refusal :=
  .next (if s.pnl.st = .powering ∨ s.pnl.st = .run then inPnl pnlRailFault s else s)

/-- PNL_RAIL_RETRY: 10 s after a rail fault (R413). -/
def execPnlRailRetry (s : State) : Host.Outcome State Fault Refusal :=
  .next (inPnl (fun s => pnlPower (s.setPnl fun p => { p with resting := false })) s)

/-- PNL_RAIL_FAULT_RETRY (R413). -/
def execPnlRailFaultRetry (s : State) : Host.Outcome State Fault Refusal := .next (inPnl pnlHourly s)

/-- PNL_RETRY: `PNL_CTL.RETRY` (R413). -/
def execPnlRetry (s : State) : Host.Outcome State Fault Refusal := .next (inPnl pnlLeaveFault s)

/-- PNL_REFRESH: `PNL_CTL.REFRESH` (R424). -/
def execPnlRefresh (s : State) : Host.Outcome State Fault Refusal := .next (if pnlUp s then pnlRefresh s else s)

/-- PNL_TEMP_SAMPLE (R415, R416). -/
def execPnlTempSample (mv : BitVec 12) (s : State) : Host.Outcome State Fault Refusal :=
  .next (inPnl (pnlSample mv.toNat) s)

/-- PNL_VCOM_CHANGE: the band has differed for 60 s (R417). -/
def execPnlVcomChange (s : State) : Host.Outcome State Fault Refusal :=
  .next (if s.pnl.st = .run ∧ s.pnl.band ≠ s.pnl.vcomBand then
    inPnl (fun s => s.setPnl fun p => { p with vcomDue := true }) s else s)

/-- PNL_FRAME_BOUNDARY (R425). -/
def execPnlFrameBoundary (late : Nat) (s : State) : Host.Outcome State Fault Refusal :=
  .next (if s.pnl.st = .run then inPnl (pnlFrame late) s else s)

/-- FB_APERTURE_WRITE (R421). -/
def execFbApertureWrite (src : Source) (off : Half) (v : Word) (s : State) : Host.Outcome State Fault Refusal :=
  .next (if pnlUp s then (fbWrite src off.toNat v s).2 else s)

end Sys2Proof.Machine
end

