-- ==== Sys2Proof/Machine/Rnd.lean ====
section
/-! DEFINITION. Rnd: the renderer: alarm list, group summary, first-out page, header, footer, redraws and keys (R430 to
R437). -/
namespace Sys2Proof.Machine

open Sys2Proof

/-- The state with the renderer replaced. -/
def State.setRnd (s : State) (f : Rnd → Rnd) : State := { s with rnd := f s.rnd }

/-- An event of RND (R437). -/
def rndEvent (kind detail : Nat) (s : State) : State := raise 49 (put 0 4 kind ||| put 8 8 detail) s

/-- RND draws: enabled, and not in BARE, the safe state, LAST_BREATH or DORMANT (R434). -/
def rndOn (s : State) : Bool :=
  pnlUp s && s.hasPanel && s.rndEn && s.sys.mode != .safe && s.sys.mode != .lastBreath && s.sys.power != .dormant

/-! ### What is shown (R430, R431) -/

/-- `a` is listed before `b`: unacknowledged first, then by category from EMERGENCY down, then by onset from newest to
oldest; between equals the lower address (R431, log 22). -/
def listedBefore (a b : MemView) : Bool :=
  if a.unack != b.unack then a.unack
  else if a.cat ≠ b.cat then decide (b.cat < a.cat)
  else if a.onset ≠ b.onset then decide (b.onset < a.onset)
  else decide (a.addr < b.addr)

/-- A view entered into a sorted list. -/
def listInsert (v : MemView) : List MemView → List MemView
  | [] => [v]
  | u :: t => if listedBefore v u then v :: u :: t else u :: listInsert v t

/-- The alarm list (R431). -/
def alarmList (s : State) : List MemView :=
  ((nodeViews s).filter MemView.listed).foldl (fun l v => listInsert v l) []

/-- Cause and value of a point's line (R431). -/
def lineRest (s : State) (a : Nat) : Nat × Word :=
  if s.isOwn a then ((s.ptAt (addrSlot a)).annCauseShown, (s.ptAt (addrSlot a)).value)
  else ((s.grp.mem a).cause, (s.grp.mem a).value)

/-- What a line shows of a point: address, for onset and tag, category, state, cause, value and the inverse bar (R431,
R432). -/
def lineOf (s : State) (v : MemView) : List Nat :=
  [v.addr, v.onset, v.cat, v.st, (lineRest s v.addr).1, (lineRest s v.addr).2.toNat, if v.unack then 1 else 0]

/-- A mark on the selected line or cell. -/
def selMark (s : State) (i : Nat) : Nat := if i = s.rnd.sel then 1 else 0

/-- Height of a font (R439). -/
def fontHeight (s : State) (k : Nat) : Nat := s.cfgNat secFONTS (16 + 16 * k + 1) 1

/-- Rows of a list line. -/
def lineHeight (s : State) : Nat := fontHeight s (s.panel 22 1)

/-- Lines that fit into the body. -/
def bodyLines (s : State) : Nat := s.bodyH / lineHeight s

/-- The listed members of a group, in the order of the alarm list. -/
def groupListed (s : State) (g : Nat) : List MemView :=
  (alarmList s).filter fun v => (grpMembers s g).contains v.addr

/-- The body of the page shown: its lines or cells (R430). -/
def bodyNow (s : State) : List (List Nat) :=
  match s.rnd.page with
  | 0 => (((alarmList s).zipIdx.drop s.rnd.top).take (bodyLines s)).map fun p => selMark s p.2 :: lineOf s p.1
  | 1 => (List.range s.grpCount).map fun g =>
      let x := s.grp.get g
      [selMark s g, g, x.st, x.cat, (((grpMembers s g).map (memView s)).filter (·.unack)).length]
  | _ => ((grpRecord s s.rnd.group).map (·.toNat)).take 24 ::
      (groupListed s s.rnd.group).zipIdx.map fun p => selMark s p.2 :: lineOf s p.1

/-- `ALM_SUM` (ch. 10). -/
def almSum (s : State) : Word :=
  let sts := ((List.range 80).filter s.ptUsed).map fun n => (s.ptAt n).flags
  let count := fun (p : BitVec 8 → Bool) => (sts.filter p).length
  put 24 8 (count annUnack) ||| put 16 8 (count fun f => annState f == 2 || annState f == 3) |||
  put 8 8 (count fun f => annState f == 8) ||| put 0 8 (count fun f => annState f == 6)

/-- Display time in whole seconds: system time plus `DISP_OFS` (R431). -/
def displaySec (s : State) : Int := (s.now / ticksPerSec : Nat) + toSigned 32 (s.panel 48 4)

/-- The header: the minute, counted from before the least display time, and the counts (R430, R438). -/
def headNow (s : State) : List Nat := [((displaySec s + 100020) / 60).toNat, (almSum s).toNat]

/-- The oldest call session that is not IDLE (R430). -/
def oldestSession (s : State) : Option Nat :=
  let all := s.call.sess ++ [(256, s.call.ovf)]
  ((all.filter fun p => p.2.st != 0).foldl (fun (a : Option (Nat × Sess)) p => match a with
    | none => some p
    | some b => if p.2.start < b.2.start then some p else a) none).map (·.1)

/-- The footer: duty engineer, session, the last key's result, STANDBY (R430). -/
def footNow (s : State) : List Nat :=
  let n := oldestSession s
  [(s.call.duty.map (· + 1)).getD 0, (n.map (· + 1)).getD 0, (n.map fun k => (s.call.get k).st).getD 0, s.rnd.resKey,
   s.rnd.resBlk, s.rnd.resCode, if s.standby then 1 else 0]

/-! ### Redraws (R433, R434) -/

/-- The header's rows. -/
def headRect (s : State) : Rect := { x := 0, y := 0, w := s.pnlW, h := s.hdrH }
/-- The footer's rows. -/
def footRect (s : State) : Rect := { x := 0, y := s.pnlH - s.ftrH, w := s.pnlW, h := s.ftrH }
/-- The body left of the host area. -/
def bodyRect (s : State) : Rect := { x := 0, y := s.hdrH, w := s.pnlW - s.hostW, h := s.bodyH }

/-- Line `i` of the list. -/
def lineRect (s : State) (i : Nat) : Rect :=
  { x := 0, y := s.hdrH + i * lineHeight s, w := s.pnlW - s.hostW, h := lineHeight s }

/-- The rectangle joined to one that may be absent. -/
def joinTo (a : Option Rect) (r : Rect) : Option Rect := some ((a.map fun x => x.join r).getD r)

/-- The bounding rectangle of the changed body rows: lines of the list; the whole body of another page (R433, log
22). -/
def bodyChange (s : State) (now : List (List Nat)) : Option Rect :=
  if now = s.rnd.body then none
  else if s.rnd.page ≠ 0 then some (bodyRect s)
  else ((List.range (max now.length s.rnd.body.length)).filter fun i => now.getD i [] ≠ s.rnd.body.getD i []).foldl
    (fun a i => joinTo a (lineRect s i)) none

/-- The addresses of a rectangle's bytes in a plane. -/
def rectBytes (s : State) (r : Rect) : List Nat :=
  (List.range r.h).flatMap fun y => (List.range (r.w / 2)).map fun i => s.pixelByte (r.x + 2 * i) (r.y + y)

/-- RND draws a rectangle into the current plane, outside the host area: its pixels are free values (R430, log 21). -/
def drawRect (r : Rect) (s : State) : State :=
  let k := s.rnd.drawn
  (s.setPnl fun p => { p with cur := ((rectBytes s r.widen).filter fun a => !byteIn s s.hostArea a).foldl (fun m a => memPut m a (Config.rndByte k a)) p.cur }).setRnd
    fun x => { x with drawn := x.drawn + 1 }

/-- A request for a drawn rectangle; refused with BUSY, or in RAIL_FAULT, it is made again at the next redraw (R433, log
22). -/
def askRect (mode : Nat) (r : Rect) (s : State) : State :=
  let a := pnlOwn r mode s
  if a.1 = 1 ∨ a.1 = 5 then a.2.setRnd fun x => { x with owed := x.owed ++ [r] } else a.2

/-- What is owed within an area, joined to what has changed in it. -/
def withOwed (s : State) (area : Rect) (a : Option Rect) : Option Rect :=
  (s.rnd.owed.filter fun r => r.inside area).foldl joinTo a

/-- A changed area is drawn and requested. -/
def redrawPart (s : State) (r : Option Rect) : State :=
  match r with
  | none => s
  | some x => askRect s.listMode x (drawRect x s)

/-- RND draws its whole area: one request over the panel, with `CLEAR_MODE` (R433, R434, log 22). -/
def drawWhole (s : State) : State :=
  let s1 := (drawRect (footRect s) (drawRect (bodyRect s) (drawRect (headRect s) s))).setRnd fun x => { x with owed := [] }
  let a := pnlOwn s.wholePanel s.clearMode s1
  a.2.setRnd fun x => if a.1 = 1 ∨ a.1 = 5 then { x with owed := [s.wholePanel], redraws := 255 } else { x with redraws := 0 }

/-- The contents are those now drawn. -/
def rndShown (s : State) : State :=
  s.setRnd fun x => { x with listed := (alarmList s).map (·.addr), body := bodyNow s, head := headNow s, foot := footNow s,
                             session := oldestSession s }

/-- RND's whole area is drawn (R434). -/
def rndFull (s : State) : State := if rndOn s then drawWhole (rndShown s) else s

/-- A redraw, if anything has changed or is owed (R433). -/
def rndRedraw (s : State) : State :=
  let body := bodyChange s (bodyNow s)
  let head := if headNow s = s.rnd.head then none else some (headRect s)
  let foot := if footNow s = s.rnd.foot then none else some (footRect s)
  if body = none ∧ head = none ∧ foot = none ∧ s.rnd.owed = [] then s
  else if s.rnd.owed.contains s.wholePanel || (s.panel 15 1 != 0 && decide (s.panel 15 1 ≤ s.rnd.redraws)) then rndFull s
  else
    let parts := [withOwed s (bodyRect s) body, withOwed s (headRect s) head, withOwed s (footRect s) foot]
    parts.foldl redrawPart ((rndShown s).setRnd fun x => { x with owed := [], redraws := x.redraws + 1 })

/-- A text line of the panel whose framebuffer memory failed is drawn anew, with `CLEAR_MODE` (R40, R434). -/
def rndRepair (line : Nat) (s : State) : State :=
  let r := { x := 0, y := line * lineHeight s, w := s.pnlW, h := min (lineHeight s) (s.pnlH - line * lineHeight s) }
  if rndOn s ∧ r.empty = false then askRect s.clearMode r (drawRect r s) else s

/-! ### Pages and keys (R430, R436) -/

/-- A page is shown; a change raises its event (R437). -/
def showPage (page group : Nat) (s : State) : State :=
  let s1 := s.setRnd fun x =>
    if page = x.page ∧ group = x.group then x else { x with page := page, group := group, sel := 0, top := 0 }
  if page = s.rnd.page then s1 else rndEvent 2 page s1

/-- A write of `RND_CTL`: each field is taken, or ignored and logged (ch. 16). -/
def rndCtlWrite (src : Source) (page group : Nat) (s : State) : Nat × State :=
  let badP := page == 3
  let badG := decide (s.grpCount ≤ group)
  let s1 := showPage (if badP then s.rnd.page else page) (if badG then s.rnd.group else group) s
  if badP || badG then (7, logWerr 9 src 0x0A4004 s1) else (0, s1)

/-- A key that acts within RND: its result OK. -/
def keyOk (key : Nat) (s : State) : State := keyDone key 0 0 s

/-- A key refused by RND while another is pending keeps it pending (R436). -/
def keyBusy (key : Nat) (s : State) : State :=
  rndEvent 1 1 (s.setRnd fun x => { x with resKey := key, resBlk := 0, resCode := 1 })

/-- A key is judged: BUSY, STANDBY, or its effect (R436). -/
def rndKey (key : Nat) (act : State → State) (s : State) : State :=
  if s.rnd.keyPend then keyBusy key s
  else if s.standby ∧ 5 ≤ key ∧ key ≤ 9 then keyDone key 0 2 s
  else act s

/-- Number of lines or cells that the selection moves over. -/
def selCount (s : State) : Nat :=
  match s.rnd.page with
  | 0 => s.rnd.listed.length
  | 1 => s.grpCount
  | _ => (groupListed s s.rnd.group).length

/-- The first line shown so that line `i` is shown. -/
def scrollTo (lines i top : Nat) : Nat := if i < top then i else if top + lines ≤ i then i + 1 - lines else top

/-- UP and DOWN: the selection moves and the body scrolls (R436). -/
def moveSel (down : Bool) (s : State) : State :=
  let i := if down then min (s.rnd.sel + 1) (selCount s - 1) else min (s.rnd.sel - 1) (selCount s - 1)
  s.setRnd fun x => { x with sel := i, top := scrollTo (bodyLines s) i x.top }

/-- PAGE: the next page. -/
def nextPage (s : State) : State := showPage ((s.rnd.page + 1) % 3) s.rnd.group s

/-- SELECT on the group summary. -/
def selectGroup (s : State) : State :=
  if s.rnd.page = 1 ∧ s.rnd.sel < s.grpCount then keyOk 4 (showPage 2 s.rnd.sel s) else keyDone 4 0 4 s

/-- The origin of a key: the panel, with `PNL_LOC` (R254, R436). -/
def keyOrigin (s : State) : Origin := { code := 5, loc := (s.cfgNat secGROUPS 5 1).testBit 2, ack := s.now }

/-- An annunciation command of a key. -/
def keyAnn (key op scope target : Nat) (more : List Nat) (s : State) : State :=
  let r := annSubmit { op := op, scope := scope, target := target, minutes := 0, reg := false, org := keyOrigin s,
                       key := key, more := more } s
  if r.1 = 0 then r.2.setRnd fun x => { x with keyPend := true } else keyDone key 1 r.1 r.2

/-- ACK: the selected line's point, or the group shown (R436). -/
def keyAck (s : State) : State :=
  match s.rnd.page with
  | 0 => match s.rnd.listed[s.rnd.sel]? with
    | some a => keyAnn 5 1 0 a [] s
    | none => keyDone 5 0 4 s
  | 2 => keyAnn 5 1 1 s.rnd.group [] s
  | _ => keyDone 5 0 4 s

/-- The points on the lines shown. -/
def shownPoints (s : State) : List Nat :=
  match s.rnd.page with
  | 0 => (s.rnd.listed.drop s.rnd.top).take (bodyLines s)
  | 2 => (groupListed s s.rnd.group).map (·.addr)
  | _ => []

/-- ACK_PAGE: every line shown, with one ack time (R436). -/
def keyAckPage (s : State) : State :=
  match shownPoints s with
  | a :: more => keyAnn 6 1 0 a more s
  | [] => keyDone 6 0 4 s

/-- A call command of a key waits for the scan end. -/
def keyCall (key op eng session src : Nat) (s : State) : State :=
  let code := callRefusal s op
  if code ≠ 0 then keyDone key 2 code s
  else
    (callPush { op := op, eng := eng, session := session, src := src, addr := 0, reg := false, org := keyOrigin s,
                key := key } s).setRnd fun x => { x with keyPend := true }

/-- ACK_CALL: the session in the footer is answered (R288, R436). -/
def keyAckCall (eng : Nat) (s : State) : State :=
  match s.rnd.session with
  | none => keyDone 8 0 4 s
  | some n => keyCall 8 2 (if eng = 0x1F then 0xFF else eng) n 0xFB s

/-- DUTY: a selection with source 5; a node without the call service passes it to its manager (R289, R436). -/
def keyDuty (eng : Nat) (s : State) : State :=
  if callOn s ∨ s.netTop then keyCall 9 1 eng 0 5 s else keyOk 9 (dutySelect eng 5 false (keyOrigin s) s)

/-- A write of `RND_KEY` (R436). -/
def rndKeyWrite (key eng : Nat) (s : State) : State :=
  rndKey key (match key with
    | 1 => fun s => keyOk 1 (moveSel false s)
    | 2 => fun s => keyOk 2 (moveSel true s)
    | 3 => fun s => keyOk 3 (nextPage s)
    | 4 => selectGroup
    | 5 => keyAck
    | 6 => keyAckPage
    | 7 => keyAnn 7 2 2 0 []
    | 8 => keyAckCall eng
    | 9 => keyDuty eng
    | k => keyDone k 0 3) s

/-- A read of an RND register. -/
def rndRead (s : State) (off : Nat) : Option Word :=
  let x := s.rnd
  match off with
  | 0x000 => some (put 30 2 x.page ||| put 20 10 x.group ||| put 10 10 x.sel ||| put 0 10 (min 0x3FF x.listed.length))
  | 0x004 => some (put 16 10 x.group ||| put 0 2 x.page)
  | 0x008 => some 0
  | 0x00C => some (putB 31 x.keyPend ||| put 16 4 x.resKey ||| put 8 8 x.resBlk ||| put 0 8 x.resCode)
  | _ => none

/-- A key acts only while FCE answers. -/
def inRnd (f : State → State) (s : State) : State := if pnlUp s then f s else s

/-- RND_REDRAW (R433). -/
def execRndRedraw (s : State) : Host.Outcome State Fault Refusal := .next (if rndOn s then rndRedraw s else s)

/-- RND_PAGE_SELECT: a write of `RND_CTL` (R430). -/
def execRndPageSelect (src : Source) (page : BitVec 2) (group : BitVec 10) (s : State) : Host.Outcome State Fault Refusal :=
  .next (inRnd (fun s => (rndCtlWrite src page.toNat group.toNat s).2) s)

/-- RND_KEY_UP (R436). -/
def execRndKeyUp (s : State) : Host.Outcome State Fault Refusal := .next (inRnd (rndKeyWrite 1 0) s)

/-- RND_KEY_DOWN (R436). -/
def execRndKeyDown (s : State) : Host.Outcome State Fault Refusal := .next (inRnd (rndKeyWrite 2 0) s)

/-- RND_KEY_PAGE (R436). -/
def execRndKeyPage (s : State) : Host.Outcome State Fault Refusal := .next (inRnd (rndKeyWrite 3 0) s)

/-- RND_KEY_SELECT (R436). -/
def execRndKeySelect (s : State) : Host.Outcome State Fault Refusal := .next (inRnd (rndKeyWrite 4 0) s)

/-- RND_KEY_ACK (R436). -/
def execRndKeyAck (s : State) : Host.Outcome State Fault Refusal := .next (inRnd (rndKeyWrite 5 0) s)

/-- RND_KEY_ACK_PAGE (R436). -/
def execRndKeyAckPage (s : State) : Host.Outcome State Fault Refusal := .next (inRnd (rndKeyWrite 6 0) s)

/-- RND_KEY_SILENCE (R436). -/
def execRndKeySilence (s : State) : Host.Outcome State Fault Refusal := .next (inRnd (rndKeyWrite 7 0) s)

/-- RND_KEY_ACK_CALL (R436). -/
def execRndKeyAckCall (eng : BitVec 5) (s : State) : Host.Outcome State Fault Refusal :=
  .next (inRnd (rndKeyWrite 8 eng.toNat) s)

/-- RND_KEY_DUTY (R436). -/
def execRndKeyDuty (eng : BitVec 5) (s : State) : Host.Outcome State Fault Refusal :=
  .next (inRnd (rndKeyWrite 9 eng.toNat) s)

/-- RND_KEY_BAD: code 0 or 10 to 15 (R436); another `key` spells no such command. -/
def execRndKeyBad (key : BitVec 4) (s : State) : Host.Outcome State Fault Refusal :=
  .next (if key = 0 ∨ 10 ≤ key.toNat then inRnd (rndKeyWrite key.toNat 0) s else s)

end Sys2Proof.Machine
end

