-- ==== Sys2Proof/Machine/Service.lean ====
section
/-! DEFINITION. Service: the end of the start sequence: the network is joined, network time is awaited, full service
begins (R80 steps 10 to 12, R82, R322, R352). -/
namespace Sys2Proof.Machine

open Sys2Proof

/-- The code on `STAT2` and `STAT1` (R82). -/
def statCode (s : State) : BitVec 2 :=
  match s.sys.mode with
  | .inService => if s.standby then 2 else 1
  | .bare => 3
  | _ => 0

/-- The contacts show the condition. -/
def restat (s : State) : State :=
  { s with sys := { s.sys with pins := { s.sys.pins with stat := statCode s } } }

/-- A controller takes its settings from the NET section (R304, R352); IMZ sends FD frames. -/
def netTiming (s : State) (k : Fin 4) : State :=
  let base := if k.val < 2 then 0 else 12
  s.setCan k fun c =>
    { c with nbt := s.cfgWord secNET base, dbt := s.cfgWord secNET (base + 4), tdc := s.cfgWord secNET (base + 8), fdEn := true }

/-- Every controller that the node uses takes its settings. -/
def netLoad (s : State) : State :=
  let s1 := if s.netTop then s else netTiming (netTiming s 0) 1
  if s.isManager then netTiming (netTiming s1 2) 3 else s1

/-- Full service: `FAULTN` is released; the power state is RUN, from which DOZE_EN leads to DOZE (R74, R80 step 12). -/
def fullService (s : State) : State :=
  restat (timMaster { s with sys := { s.sys with mode := .inService, step := 12, power := if s.sys.dozeEn then .doze else .run,
                                                 pins := { s.sys.pins with faultLow := false } } })

/-- Code of a pair state in `LVN_STAT.STATE`. -/
def PairState.code : PairState → Nat
  | .off => 0
  | .training => 1
  | .negotiating => 2
  | .active => 3
  | .standby => 4
  | .splitActive => 5
  | .splitStandby => 6
  | .solo => 7
  | .updating => 8
  | .roleClash => 9
  | .recipeClash => 10

/-- The pair state changes, with its event (R385). -/
def setPair (st : PairState) (s : State) : State :=
  if s.lvn.st = st then s
  else raise 54 (put 0 4 st.code ||| put 4 4 s.lvn.takeCause ||| put 8 4 s.lvn.st.code) { s with lvn := { s.lvn with st := st } }

/-- Network time is locked, or no longer awaited: an unpaired module begins full service, a paired one negotiates (R80
steps 10 to 12). -/
def timeSettled (s : State) : State :=
  if s.sys.step ≠ 10 then s
  else if s.isPaired then setPair .negotiating { s with sys := { s.sys with step := 11 } }
  else fullService s

/-- The module joins the network; the top manager, whose time no other node gives, goes on at once (R80 step 10,
R322). -/
def networkJoin (s : State) : State :=
  if imzLive s ∧ 9 ≤ s.sys.step ∧ s.imz.joined = false then
    let s1 := netJoin (netLoad s)
    let s2 := if s1.sys.step = 9 then { s1 with sys := { s1.sys with step := 10 } } else s1
    if s.netTop then timeSettled s2 else s2
  else s

/-- NETWORK_JOIN (R80, R322). -/
def execNetworkJoin (s : State) : Host.Outcome State Fault Refusal := .next (networkJoin s)

/-- TIME_FOLLOW_RECEIVED (R346): the first lock ends start step 10. -/
def execTimeFollowReceived (f : ImzRx) (s : State) : Host.Outcome State Fault Refusal :=
  let s1 := timRx 0x02 16 f (followRx f) s
  .next (if s1.tim.st = .locked then timeSettled s1 else s1)

/-- NETWORK_TIME_WAIT_EXPIRY (R80). -/
def execNetworkTimeWaitExpiry (s : State) : Host.Outcome State Fault Refusal := .next (timeSettled s)

end Sys2Proof.Machine
end

