-- ==== Sys2Proof/Machine/Settings.lean ====
section
/-! DEFINITION. Settings: the settings sector of the ledger area, which holds trims and learned lamp values, and the
commands that write it (R155, R183, R479). -/
namespace Sys2Proof.Machine

open Sys2Proof

/-- The state with the ageing service replaced. -/
def State.setAge (s : State) (f : Age → Age) : State := { s with age := f s.age }

/-- An event of AGE (R489). -/
def ageEvent (kind item : Nat) (detail : Int) (s : State) : State :=
  raise 53 (put 0 4 kind ||| put 8 8 item ||| putI 16 16 detail) s

/-- The eMMC answers writes of the ledger area: it is initialised and KEP is up. -/
def ledgerUp (s : State) : Bool := regionUp rKEP s && (s.mmc.st == .ready || s.mmc.st == .busy)

/-- A ledger page or settings sector could not be written (R480, R489). -/
def ledgerFail (s : State) : State := ageEvent 7 0 0 (s.setAge fun a => { a with wfail := satInc 255 a.wfail })

/-- The settings sector's 512 bytes (R479). -/
def settingsBytes (s : State) (count : Word) : List Byte :=
  let d := bytesLE 4 0x4E524C53 ++ bytesLE 4 count.toNat ++ bytesLE 4 s.recd.gen.toNat ++
    ((List.finRange 4).flatMap fun c =>
      bytesLE 2 (s.ao[c].trimStored.1 % 65536).toNat ++ bytesLE 2 (s.ao[c].trimStored.2 % 65536).toNat ++ bytesLE 4 0) ++
    ((List.finRange 16).flatMap fun c =>
      let x := s.dio[c].stored
      bytesLE 4 (put 16 16 x.1 ||| put 8 8 x.2.1 ||| put 0 8 x.2.2.1).toNat ++ bytesLE 2 x.2.2.2 ++ bytesLE 2 0) ++
    List.replicate 336 0
  d ++ bytesLE 4 (crc32 d).toNat

/-- A copy of the settings sector is valid and of the current generation. -/
def settingsOk (s : State) (d : List Byte) : Bool :=
  dataNat d 0 4 == 0x4E524C53 && dataNat d 508 4 == (crc32 (d.take 508)).toNat && dataNat d 8 4 == s.recd.gen.toNat

/-- The copy in use: the valid one with the higher counter. -/
def settingsCopy (s : State) : Option Nat :=
  let a := sectorGet s mibSectors
  let b := sectorGet s (mibSectors + 1)
  if settingsOk s a then (if settingsOk s b ∧ dataNat a 4 4 < dataNat b 4 4 then some 1 else some 0)
  else if settingsOk s b then some 1 else none

/-- The settings sector is written into the copy that is not in use (R479); where the eMMC cannot take it, it is written as
soon as it can (R155, R183). -/
def settingsSave (s : State) : State :=
  if ledgerUp s then
    let k := match settingsCopy s with | some 0 => 1 | _ => 0
    let n := s.age.setCount + 1
    sectorPut (mibSectors + k) (settingsBytes s n) (s.setAge fun a => { a with setCount := n, setDirty := false })
  else ledgerFail (s.setAge fun a => { a with setDirty := true })

/-- A change that is still to be written is written once the eMMC takes it (R155, R183). -/
def settingsRetry (s : State) : State := if s.age.setDirty && ledgerUp s then settingsSave s else s

/-- What the settings sector holds of two states is the same. -/
def settingsSame (a b : State) : Bool :=
  (List.finRange 4).all (fun c => a.ao[c].trimStored == b.ao[c].trimStored) &&
  (List.finRange 16).all fun c => a.dio[c].stored == b.dio[c].stored

/-- A change of trims or lamps is written (R155, R183). -/
def settingsSync (s0 s1 : State) : State := if settingsSame s0 s1 then s1 else settingsSave s1

/-- The settings are loaded at start step 7; without a valid copy trims are 0 and lamps unlearned (R479). -/
def settingsLoad (s : State) : State :=
  match settingsCopy s with
  | none => { s with ao := s.ao.map fun a => { a with trimStored := (0, 0) }
                     dio := s.dio.map fun d => { d with stored := (0, 0, 0, 0) } }
  | some k =>
    let d := sectorGet s (mibSectors + k)
    let s1 := s.setAge fun a => { a with setCount := BitVec.ofNat 32 (dataNat d 4 4), setDirty := false }
    { s1 with
      ao := s1.ao.mapFinIdx fun i a _ =>
        { a with trimStored := (toSigned 16 (dataNat d (12 + 8 * i) 2), toSigned 16 (dataNat d (14 + 8 * i) 2)) }
      dio := s1.dio.mapFinIdx fun i x _ =>
        let o := 44 + 8 * i
        { x with stored := (dataNat d (o + 2) 2, dataNat d (o + 1) 1, dataNat d o 1, dataNat d (o + 4) 2) } }

/-- The on-resistance at the end of learning is noted with the on-state part (R472). -/
def learnR (c : Fin 16) (probe : Bool) (s : State) : State :=
  if probe then s
  else
    let r := (s.age.items[20 + c.val]'(by omega)).value / 1000
    s.setDio c fun d => { d with rLearn := r.toNat % 65536, lampRise := 0 }

/-- AO_TRIM_APPLY (R154). -/
def execAoTrimApply (src : Source) (c : Fin 4) (s : State) : Host.Outcome State Fault Refusal :=
  .next (settingsSync s (aoTrimApply src c s))

/-- AO_TRIM_CLEAR (R154). -/
def execAoTrimClear (src : Source) (c : Fin 4) (s : State) : Host.Outcome State Fault Refusal :=
  .next (settingsSync s (aoTrimClear src c s))

/-- AO_TRIM_STORE (R153). -/
def execAoTrimStore (c : Fin 4) (s : State) : Host.Outcome State Fault Refusal := .next (settingsSync s (aoTrimStore c s))

/-- DIO_LEARN_PART_DONE (R183). -/
def execDioLearnPartDone (c : Fin 16) (probe : Bool) (s : State) : Host.Outcome State Fault Refusal :=
  .next (settingsSync s (dioLearnDone (learnR c probe s) c probe))

/-- DIO_LEARN_CLR (R183). -/
def execDioLearnClr (src : Source) (c : Fin 16) (s : State) : Host.Outcome State Fault Refusal :=
  .next (settingsSync s (dioCmd src c (fun s => s.setDio c Dio.learnClear) s))

end Sys2Proof.Machine
end

