-- ==== Sys2Proof/Machine/Lvn.lean ====
section
/-! DEFINITION. Lvn: the leaven link and the redundant pair: link, heartbeats, roles, epochs, the command log, take-over
and the split check (R355 to R376). -/
namespace Sys2Proof.Machine

open Sys2Proof

/-- The state with the pair engine replaced. -/
def State.setLvn (s : State) (f : Lvn → Lvn) : State := { s with lvn := f s.lvn }

/-- An event of LVN (R385). -/
def lvnEvent (kind lane detail : Nat) (s : State) : State := raise 44 (put 0 4 kind ||| put 4 1 lane ||| put 16 16 detail) s

/-- LVN runs: LNK is up, no stop, no safe state or LAST_BREATH, in a pair from start step 7, or in BARE (R355, R380). -/
def lvnUp (s : State) : Bool :=
  regionUp rLNK s && !s.lvn.stop && s.sys.mode != .safe && s.sys.mode != .lastBreath &&
    ((s.isPaired && decide (7 ≤ s.sys.step)) || s.bare)

/-- The frames that a command puts on the link; each takes the next frame number (R358, log 23). -/
def lvSend (l : List (Nat × Nat × List Byte)) (s : State) : State :=
  s.setLvn fun v => { v with sent := l, frSeq := v.frSeq + BitVec.ofNat 32 l.length }

/-- A unit that holds control (R360, R375). -/
def PairState.holds : PairState → Bool
  | .active | .splitActive | .solo => true
  | _ => false

/-- The state that a HEARTBEAT's code names; an unknown code reads as OFF. -/
def pairOfCode : Nat → PairState
  | 1 => .training
  | 2 => .negotiating
  | 3 => .active
  | 4 => .standby
  | 5 => .splitActive
  | 6 => .splitStandby
  | 7 => .solo
  | 8 => .updating
  | 9 => .roleClash
  | 10 => .recipeClash
  | _ => .off

/-! ### Link (R355) -/

/-- A lane comes up; the link with the first one. -/
def laneUp (s : State) (l : Fin 2) : State :=
  if s.lvn.lanes[l] then s
  else
    let was := linkUp s.lvn
    let s1 := lvnEvent 2 l.val 0 (s.setLvn fun v => { v with lanes := v.lanes.set l true })
    if was then s1 else lvnEvent 4 0 0 (s1.setLvn fun v => { v with swept := 0 })

/-- A lane goes down; with the last one the link, the open epoch and SYNCED (R355, R366). -/
def laneDown (l : Fin 2) (s : State) : State :=
  if s.lvn.lanes[l] = false then s
  else
    let s1 := lvnEvent 1 l.val 0 (s.setLvn fun v => { v with lanes := v.lanes.set l false })
    if linkUp s1.lvn then s1
    else lvnEvent 3 0 0 (s1.setLvn fun v =>
      { v with synced := false, opened := none, recs := [], deltas := 0, recBytes := 0, hello := none })

/-- Training completes; the latency is half the round trip measured, in ns (R355, R381). -/
def linkTrained (lat : Nat) (s : State) : State :=
  if lvnUp s ∧ s.lvn.trained = false then
    laneUp (laneUp (s.setLvn fun v => { v with trained := true, lat := min 0xFFFF lat }) 0) 1
  else s

/-! ### Roles (R360 to R362) -/

/-- A role is taken, or a failed revert recorded, in `LVN_TAKE` (ch. 14). -/
def setRole (st : PairState) (cause : Nat) (s : State) : State :=
  restat (setPair st (s.setLvn fun v =>
    { v with takeCause := cause, takeNew := st, takeCount := v.takeCount + 1, takeTime := s.stamp }))

/-- Start inhibit begins anew (R94, R371, R376). -/
def inhibitAll (s : State) : State :=
  { s with sys := { s.sys with inhEnd := if s.startTime = 0 then none else some (s.now + sec s.startTime) } }

/-- The split check starts, with an Imzin HEARTBEAT at once (R374, R375). -/
def splitStart (s : State) : State := imzBeat false false (lvnEvent 7 0 0 (s.setLvn fun v => { v with check := true }))

/-- The split check ends (R375). -/
def splitEnd (s : State) : State :=
  if s.lvn.check then lvnEvent 8 0 0 (s.setLvn fun v => { v with check := false }) else s

/-- Roles are settled: a unit in service ends the start sequence; one that clashes stays at step 11 (R125, R128, R360, R361). -/
def settleRole (st : PairState) (s : State) : State :=
  let s1 := if st.holds then uiTakeControl (setRole st 7 s) else noted uiListenEntry (setRole st 7 s)
  match st with
  | .roleClash => enterConflict (lvnEvent 12 0 0 s1)
  | .recipeClash => lvnEvent 12 0 1 s1
  | .updating => lvnEvent 14 0 0 s1
  | _ => fullService s1

/-- The partner's recipe is this unit's: sequence number and image CRC. -/
def sameRecipe (s : State) (h : Hello) : Bool :=
  h.seq == (s.rcp.recipes[s.rcp.active]).seq && h.crc == (s.rcp.recipes[s.rcp.active]).crc

/-- A partner that stands at step 11, or has settled its role there against this unit's HELLO first (R360, log 23). -/
def PairState.atEleven : PairState → Bool
  | .negotiating | .standby | .updating | .recipeClash => true
  | _ => false

/-- The role that the table of R360 gives, none while it gives none yet. -/
def roleByTable (s : State) : Option PairState :=
  let mySeq := (s.rcp.recipes[s.rcp.active]).seq
  if s.sys.inp.presIn = false then some .solo
  else match s.lvn.hello with
  | none => none
  | some h =>
    if h.unitB = s.sys.roleB then some .roleClash
    else if h.st.holds then some (if sameRecipe s h then .standby else .updating)
    else if h.st.atEleven then
      some (if sameRecipe s h then (if s.sys.roleB then .standby else .active)
        else if h.seq ≠ mySeq then (if h.seq.toNat < mySeq.toNat then .active else .updating)
        else if s.sys.roleB then .recipeClash else .active)
    else none

/-- ROLE_NEGOTIATION at step 11; a unit in POWER_FAIL takes no control (R360, R362). -/
def negotiate (s : State) : State :=
  if s.lvn.st ≠ .negotiating ∨ s.sys.step ≠ 11 then s
  else match roleByTable s with
  | none => s
  | some st => if st.holds ∧ s.sup.pfail then s else settleRole st s

/-- No HELLO within `PEER_WAIT`: the pair is split (R360). -/
def peerWaitEnd (s : State) : State :=
  if s.lvn.st = .negotiating ∧ s.sys.step = 11 ∧ s.lvn.hello = none ∧ s.sys.inp.presIn ∧ (s.sys.roleB ∨ !s.sup.pfail) then
    splitStart (settleRole (if s.sys.roleB then .splitStandby else .splitActive) s)
  else s

/-! ### Health and reverting conditions (R377) -/

/-- A controller is bus-off, and stays so until it has recovered (R313, R377). -/
def busOff (c : Can) : Bool := c.st == 4 || c.st == 5

/-- The health word. -/
def healthWord (s : State) : Half :=
  let b := fun (i : Nat) (p : Bool) => if p then 2 ^ i else 0
  BitVec.ofNat 16 (
    b 0 ((List.finRange 2).any fun f => s.sup.feeds[f].cond == .low || s.sup.feeds[f].cond == .lost) +
    b 1 (s.sup.hold != .ok) +
    b 2 ((List.finRange 16).any fun c => !s.uiUnused c.val && (uiCode s c == 6 || uiCode s c == 0)) +
    b 3 ((List.finRange 4).any fun c => aoCode s c == 6 || bit s.ao[c].dstat 5) +
    b 4 ((List.finRange 2).any fun g => (grpCond s g).bad) +
    b 5 ((List.finRange 16).any fun c => dioCode s c == 4) +
    b 6 (s.can[0].alone || s.can[1].alone || busOff s.can[0] || busOff s.can[1]) +
    b 7 (s.mmc.st != .ready && s.mmc.st != .busy) +
    b 8 (!s.timeLocked) +
    b 9 (s.sup.temp == .high || s.sup.temp == .over110) +
    b 10 (s.lvn.lanes[0] != s.lvn.lanes[1]))

/-- REVERT of the PAIR section (R384). -/
def State.revertive (s : State) : Bool := (s.cfgNat secPAIR 2 1).testBit 0

/-- The conditions of R377 hold; after a failed revert, the health word is clear of what failed (R379). -/
def revertReady (s : State) : Bool :=
  s.revertive && !s.lvn.noRevert && !s.sys.roleB && s.lvn.st == .standby && s.lvn.synced && !s.sys.pins.faultLow &&
    decide (s.lvn.tdiff.natAbs ≤ 1000) && healthWord s &&& ~~~s.lvn.pHealth == 0 && healthWord s &&& s.lvn.failBits == 0

/-! ### Heartbeats and HELLO (R358 to R360, R381) -/

/-- A HEARTBEAT's body (R359). -/
def lvBeat (s : State) : List Byte :=
  let b5 := (if s.sys.roleB then 1 else 0) + (if s.sup.pfail then 2 else 0) + (if s.lvn.synced then 4 else 0) +
    (if revertReady s then 8 else 0) + (if s.lvn.noRevert then 16 else 0)
  bytesLE 4 s.lvn.hbSeq.toNat ++ bytesLE 1 s.lvn.st.code ++ bytesLE 1 b5 ++ bytesLE 2 (healthWord s).toNat ++
  bytesLE 4 s.lvn.epoch.toNat ++ bytesLE 1 (if s.lvn.st = .standby ∧ s.lvn.nack then 1 else 0) ++ List.replicate 11 0 ++
  bytesLE 8 s.stamp.toNat

/-- Every 50 µs a HEARTBEAT goes on each lane that is up. -/
def lvBeatSend (s : State) : State :=
  if lvnUp s ∧ linkUp s.lvn then
    let s1 := s.setLvn fun v => { v with hbSeq := v.hbSeq + 1 }
    let n := (if s.lvn.lanes[0] then 1 else 0) + (if s.lvn.lanes[1] then 1 else 0)
    lvSend (List.replicate n (1, 0, lvBeat s1)) s1
  else s

/-- A pair state before its roles are set. -/
def PairState.unset : PairState → Bool
  | .off | .training | .negotiating => true
  | _ => false

/-- Until the roles of both units are set, HELLO every 10 ms. -/
def lvHelloSend (s : State) : State :=
  if lvnUp s ∧ linkUp s.lvn ∧ (s.lvn.st.unset ∨ s.lvn.pState.unset) then
    let r := s.rcp.recipes[s.rcp.active]
    lvSend [(2, 0, lvBeat s ++ bytesLE 4 r.seq.toNat ++ bytesLE 4 r.crc.toNat ++ bytesLE 8 Config.serial.toNat)] s
  else s

/-- An epoch of this unit is committed: the partner, STANDBY, has acknowledged it, so that its outputs are released (R187,
R366). -/
def epochAcked (s : State) : State :=
  if s.lvn.st = .active ∧ s.lvn.pState = .standby ∧ s.lvn.pEpoch = s.lvn.epoch ∧ s.lvn.epoch ≠ 0 then
    { s with dio := s.dio.map fun d => { d with epochFree := true } }
  else s

/-- What a received HEARTBEAT says is taken; the standby disciplines its time by it, unless its time is invalid (R8, R359,
R381). -/
def lvBeatTake (d : List Byte) (age : Nat) (s : State) : State :=
  let st := pairOfCode (dataNat d 4 1)
  let ep : Word := BitVec.ofNat 32 (dataNat d 8 4)
  let nk := (dataNat d 12 1).testBit 0
  let timed := stampValid (BitVec.ofNat 64 (dataNat d 24 8) : Ts)
  let theta := ((s.now - age : Nat) : Int) * 20 - stampNs (BitVec.ofNat 64 (dataNat d 24 8)) - s.lvn.lat
  let far := if !timed then s.lvn.farRow else if 1000 < theta.natAbs then s.lvn.farRow + 1 else 0
  let s1 := epochAcked <| s.setLvn fun v =>
    { v with pState := st, pFlags := BitVec.ofNat 8 (dataNat d 5 1), pHealth := BitVec.ofNat 16 (dataNat d 6 2),
             pEpoch := ep, pNack := nk, tdiff := if timed then clampI (-32768) 32767 theta else v.tdiff, farRow := far,
             handAck := v.handAck || (v.freeze && !v.taking && v.handEpoch != 0 && ep == v.handEpoch),
             synced := if v.st = .active then (dataNat d 5 1).testBit 2 else v.synced }
  let s2 := if s.lvn.st = .active ∧ nk ∧ s.lvn.pNack = false then
      lvnEvent 5 0 0 (s1.setLvn fun v => { v with cntNack := satInc 255 v.cntNack }) else s1
  if s.lvn.st = .standby ∧ timed then
    let s3 := timPair theta (s2.setTim fun t => { t with mstate := if (dataNat d 6 2).testBit 8 then 0 else 2 })
    if far = 10 then lvnEvent 10 0 0 s3 else s3
  else s2

/-- A HEARTBEAT within 60 µs of a fall of presence (R370). -/
def presFault (s : State) : State :=
  if s.lvn.presCheck then lvnEvent 11 0 0 (s.setLvn fun v => { v with presCheck := false, presFault := true }) else s

/-- The link is up again after a split: the unit that holds control stays active, the other becomes STANDBY; of two that
hold it, unit B releases (R375, R376). -/
def lvRejoin (s : State) : State :=
  let p := s.lvn.pState
  match s.lvn.st with
  | .splitStandby =>
    if p.holds then splitEnd (restat (setPair .standby (s.setLvn fun v => { v with synced := false, swept := 0 }))) else s
  | .active | .splitActive | .solo =>
    if p.holds ∧ s.sys.roleB then
      splitEnd (setRole .standby 6 (releaseControl (s.setLvn fun v => { v with synced := false, swept := 0 })))
    else if p = .standby ∨ p = .updating then splitEnd (setPair .active s)
    else s
  | _ => s

/-- A frame whose CRC fails is discarded and counted (R358). -/
def lvFrame (ok : Bool) (f : State → State) (s : State) : State :=
  if lvnUp s ∧ linkUp s.lvn then
    if ok then f s else s.setLvn fun v => { v with cntCrc := satInc 255 v.cntCrc }
  else s

/-- A HEARTBEAT is received: `age` ticks ago its frame began. -/
def lvBeatRx (d : List Byte) (age : Nat) (s : State) : State := lvRejoin (presFault (lvBeatTake d age s))

/-- A HELLO is received (R360). -/
def lvHelloRx (d : List Byte) (s : State) : State :=
  let h : Hello := { unitB := (dataNat d 5 1).testBit 0, st := pairOfCode (dataNat d 4 1), seq := BitVec.ofNat 32 (dataNat d 32 4),
                     crc := BitVec.ofNat 32 (dataNat d 36 4), serial := BitVec.ofNat 64 (dataNat d 40 8) }
  s.setLvn fun v => { v with hello := some h, pState := h.st }

/-! ### Epochs (R363 to R367) -/

/-- The field snapshot's 1024 bytes (R365). -/
def fieldBytes (s : State) : List Byte :=
  let flag := fun (b : Bool) (n : Nat) => if b then n else 0
  bytesLE 8 s.stamp.toNat ++
  (List.finRange 4).flatMap (fun c =>
    let a := s.ao[c]
    bytesLE 2 a.code ++ bytesLE 1 a.why ++ [0] ++ bytesLE 4 (a.curr % 4294967296).toNat) ++
  (List.finRange 16).flatMap (fun c =>
    let d := s.dio[c]
    bytesLE 1 d.latch.toNat ++ bytesLE 1 (flag d.on 1 + flag d.level 2) ++ bytesLE 1 d.why ++ [0] ++
    bytesLE 1 d.vLearn ++ bytesLE 1 d.iProbe ++ bytesLE 2 d.iOn) ++
  (List.finRange 16).flatMap (fun c =>
    let u := s.ui[c]
    bytesLE 4 u.excMeas ++ bytesLE 4 u.dstat.toNat ++ (List.finRange 4).flatMap (fun i => bytesLE 2 (leadShown u.leads[i])) ++
    bytesLE 2 (leadShown u.tcLoop) ++ bytesLE 2 (u.tcBase / 2 ^ 32)) ++
  (List.finRange 2).flatMap (fun c =>
    let p := s.ps[c]
    let x := p.snaps.headD (s.pev.start, p.snapPos, p.snapRev, p.homed, 0)
    bytesLE 4 x.2.1 ++ bytesLE 4 x.2.2.1.toNat ++ bytesLE 1 (flag x.2.2.2.1 1) ++ List.replicate 3 0 ++
    bytesLE 4 (stampOf x.1).toNat) ++
  List.replicate 504 0

/-- The command marks' 64 bytes (R365). -/
def markBytes (v : Lvn) : List Byte := bytesLE 4 v.markSeq.toNat ++ bytesLE 8 v.markSof.toNat ++ List.replicate 52 0

/-- Size of the replicated state in bytes (R364). -/
def replicaSize (s : State) : Nat := if s.isManager then 12582912 else 2097152

/-- Bytes that an epoch may take before it is stretched (R364). -/
def epochLimit (v : Lvn) : Nat := if v.lanes[0] && v.lanes[1] then 175000 else 87500

/-- Both units of the pair stand as active and standby with the link up. -/
def epochsRun (s : State) : Bool := lvnUp s && linkUp s.lvn && s.lvn.st == .active && s.lvn.pState == .standby

/-- A point whose own record was lost takes the standby's copy (R40). -/
def takeCopies (s : State) : State :=
  s.lvn.want.foldl (fun a n => if h : n < 80 then a.setPt ⟨n, h⟩ fun _ => a.lvn.copy[n] else a) s |>.setLvn fun v => { v with want := [] }

/-- An epoch of so many record bytes in so many DELTA frames goes to the standby (R364 to R366, R378). Its CRC over the
records, whose bodies the spec does not lay out, is a free value (log 1). -/
def epochSend (bytes frames : Nat) (s0 : State) : State :=
  let s := takeCopies s0
  let n := s.lvn.epoch + 1
  let total := bytes + 15 * frames + 62
  let hand := s.lvn.freeze && !s.lvn.taking && s.lvn.handEpoch == 0
  let flags := (if hand then 1 else 0) + (if s.rcp.swapPend then 2 else 0)
  let commit := bytesLE 4 n.toNat ++ bytesLE 4 bytes ++ bytesLE 4 s.freeVal.toNat ++ bytesLE 2 frames ++ bytesLE 2 flags
  let s1 := (lvSend [(3, 0, bytesLE 4 n.toNat ++ bytesLE 4 s.lvn.pEpoch.toNat ++ bytesLE 8 s.stamp.toNat),
    (4, 0, fieldBytes s), (4, 0, pointers s), (4, 0, markBytes s.lvn), (5, 0, commit)] s.drew).setLvn fun v =>
      { v with epoch := n, copy := s.pev.pts, epochLen := min 255 ((s.now - v.lastBound) / ms 1), lastBound := s.now,
               epochBytes := min 0x3FFFF total, handEpoch := if hand then n else v.handEpoch }
  let s1 := if s.rcp.swapPend ∧ s.rcp.swapEpoch.isNone then { s1 with rcp := { s1.rcp with swapEpoch := some n } } else s1
  if epochLimit s.lvn < total then
    lvnEvent 6 0 0 (s1.setLvn fun v => { v with cntStretch := satInc 255 v.cntStretch }) else s1

/-- What the standby takes of the active unit's field snapshot (R126, R145, R187, R188, R208). -/
def takeField (d : List Byte) (s : State) : State :=
  let at' := fun (off n : Nat) => dataNat d off n
  { s with
    ao := s.ao.mapFinIdx fun i a _ => { a with epochLevel := at' (8 + 8 * i) 2, epochCurr := toSigned 32 (at' (12 + 8 * i) 4) }
    dio := s.dio.mapFinIdx fun i x _ =>
      let o := 40 + 8 * i
      { x with epochLatch := BitVec.ofNat 2 (at' o 1), epochLevel := (at' (o + 1) 1).testBit 0, epochWhy := at' (o + 2) 1,
               epochFree := at' (o + 2) 1 == 5, vLearn := at' (o + 4) 1, iProbe := at' (o + 5) 1, iOn := at' (o + 6) 2,
               stored := (at' (o + 6) 2, at' (o + 5) 1, at' (o + 4) 1, x.stored.2.2.2) }
    ui := s.ui.mapFinIdx fun i u _ =>
      let o := 168 + 20 * i
      let u1 := { u with epochExc := at' o 4 }
      if u.phase = .listen then
        { u1.setConds ((u.dstat &&& 0x1FF83) ||| (BitVec.ofNat 17 (at' (o + 4) 4) &&& 0x7C)) with
            leads := Vector.ofFn fun j => at' (o + 8 + 2 * j.val) 2, tcLoop := at' (o + 16) 2, tcBase := at' (o + 18) 2 * 2 ^ 32 }
      else u1
    ps := s.ps.mapFinIdx fun i p _ =>
      let o := 488 + 16 * i
      p.epochCompare (at' (o + 12) 4) (at' o 4) (BitVec.ofNat 32 (at' (o + 4) 4)) ((at' (o + 8) 1).testBit 0) }

/-- The standby takes a field snapshot, and its channels report what changes (R119, R133, R207). -/
def applyField (d : List Byte) (s : State) : State := noted (takeField d) s

/-- The standby applies the command marks: log entries at or before them are freed (R368). -/
def applyMarks (d : List Byte) (s : State) : State :=
  let q : Word := BitVec.ofNat 32 (dataNat d 0 4)
  let t : Ts := BitVec.ofNat 64 (dataNat d 4 8)
  s.setLvn fun v =>
    { v with markSeq := q, markSof := t,
             log := v.log.filter fun e => if e.bus then decide (t.toNat < (stampOf e.time).toNat) else decide (q.toNat < e.seq.toNat) }

/-- The standby applies a record (R365). -/
def applyRec (s : State) : LvRec → State
  | .point n p => s.setPt n fun _ => p
  | .group g x => s.putGrp g x
  | .member a x => s.setGrps fun b => { b with mems := tblPut {} b.mems a x }
  | .call n x => s.putSess n x
  | .stateLine l es => s.setImz fun z => { z with table := es.zipIdx.foldl (fun t p => tblPut 0 t (64 * l + p.2) p.1) z.table }
  | .waitList l lost starts => s.setCall fun c => { c with wait := l, lostNow := lost, starts := starts }
  | .duty e src x => s.setCall fun c => { c with duty := e, dutySrc := src, conflict := x }
  | .units l => s.setCall fun c => { c with lost := l }
  | .tags l => s.setImz fun z => { z with tags := l }
  | .annunciator q b => s.setAnn fun a => { a with seq := q, silenced := b }
  | .field d => applyField d s
  | .recorder d => s.setLvn fun v => { v with ptrs := d }
  | .marks d => applyMarks d s
  | .sweep _ n => s.setLvn fun v => { v with swept := v.swept + n }

/-- The epoch held aside is dropped. -/
def dropOpen (s : State) : State := s.setLvn fun v => { v with opened := none, recs := [], deltas := 0, recBytes := 0 }

/-- An epoch that the standby discards tells it of a swap that it does not take (R103). -/
def swapHear (flags : Half) (s : State) : State :=
  if bit flags 1 && !s.rcp.swapPend then { s with rcp := { s.rcp with swapHeard := true } } else s

/-- The unit that takes over reports ABORTED for a swap whose epoch was never committed: one that an epoch which it did not
apply named, or, `swap`, one that the failed unit had accepted and sent in none (R103, log 23). -/
def swapLost (swap : Bool) (s : State) : State :=
  if s.rcp.swapHeard ∨ (swap ∧ s.rcp.swapPend = false) then
    let s1 := { s with rcp := { s.rcp with swapHeard := false, resOp := 5, resCode := 0x0F, resDetail := 0 } }
    raise 47 (put 8 8 5 ||| put 0 8 0x0F) s1
  else s

/-- COMMIT: the epoch is applied, or discarded with NACK (R366). `crc`: the record bytes match the COMMIT's CRC. -/
def epochCommit (n bytes : Word) (frames flags : Half) (crc : Bool) (s : State) : State :=
  match s.lvn.opened with
  | none => s
  | some (k, base, _) =>
    if k = n ∧ base = s.lvn.epoch ∧ s.lvn.recBytes = bytes.toNat ∧ s.lvn.deltas = frames.toNat ∧ crc then
      let s1 := settingsSync s (tablePost (dropOpen (s.lvn.recs.foldl applyRec s)))
      let s2 := s1.setLvn fun v =>
        { v with epoch := n, nack := false, synced := v.synced || decide (replicaSize s ≤ v.swept),
                 handAck := v.handAck || bit flags 0 }
      if bit flags 1 then { s2 with rcp := { s2.rcp with swapPend := true, swapReq := s2.now, swapHeard := false } } else s2
    else swapHear flags <| lvnEvent 5 0 0 ((dropOpen s).setLvn fun v => { v with nack := true, cntNack := satInc 255 v.cntNack })

/-- A frame that only a standby takes. -/
def asStandby (f : State → State) (s : State) : State := if s.lvn.st = .standby then f s else s

/-! ### The command log (R368) -/

/-- The standby logs a command; a full log drops its oldest entry. -/
def lvLog (e : LogCmd) (s : State) : State :=
  asStandby (fun s => s.setLvn fun v =>
    if v.log.length < 256 then { v with log := v.log ++ [e] }
    else { v with log := v.log.drop 1 ++ [e], logLost := satInc 0xFFFF v.logLost }) s

/-- A CMD_FWD's entry: its ack time lies in bytes 8 to 15 of the command; the time of reception stands for an invalid one
(R8, R340, R358, log 23). -/
def fwdEntry (s : State) (d : List Byte) : LogCmd :=
  { seq := BitVec.ofNat 32 (dataNat d 0 4), bus := false, time := stampTicks (BitVec.ofNat 64 (dataNat d 12 8)) s.now,
    src := BitVec.ofNat 16 (dataNat d 10 2), call := false, data := d.drop 4 }

/-! ### Take-over (R370 to R373) -/

/-- DIO outputs drive the snapshot's levels without an inrush wait: by the latch where it gave the level, else the level
itself until the next scan; the diagnostics of their current rest for 2 ms (R188, R371). -/
def dioTake (s : State) : State :=
  let s1 := dioDriveAll { s with dio := s.dio.map fun d =>
    if d.output then
      { d with latch := d.epochLatch, frozen := some d.epochLevel, srcBad := false, hush := s.mono + ms 2,
               hold := if d.epochWhy = 0 then none else some (if d.epochLevel then 1 else 0, false) }.detectAnew
    else d }
  { s1 with dio := s1.dio.map fun d => { d with frozen := none, why := if d.why = 7 then 0 else d.why } }

/-- Each AO island measures its terminal voltage in 10 mV: from 0.3 V up it stays open, else it drives the snapshot's
level until the unit's own first command (R150, R373). -/
def aoTake (volts : Vector Int 4) (s : State) : State :=
  (List.finRange 4).foldl (fun a c =>
    let a1 := a.setAo c fun x => { x with term := volts[c], held := decide (30 ≤ volts[c]), takeLevel := some x.epochLevel,
                                          swapLevel := none, frozen := none }
    a1.setAo c fun _ => aoSelect a1 c) s

/-- The recorder continues: slices are marked, sequence numbers lie above the partner's, the next ring page names the
partner's last one (R402). -/
def recTake (s : State) : State :=
  let d := s.lvn.ptrs
  if d = [] then sliceTakeover s
  else
    let last := fun (off : Nat) => dataNat d off 4 - 1
    (sliceTakeover s).setRec fun r =>
      { r with sliceArea := r.sliceArea.raise (last 20), ringArea := r.ringArea.raise (last 36),
               rgOpen := { r.rgOpen with takeover := some (BitVec.ofNat 32 (last 36)) } }

/-- The standby takes over (R371); not in POWER_FAIL or LAST_BREATH (R362). -/
def takeOver (cause : Nat) (volts : Vector Int 4) (swap : Bool) (s : State) : State :=
  if s.lvn.st ≠ .standby ∨ s.sup.pfail ∨ s.sys.mode = .lastBreath ∨ s.sys.mode = .safe then s
  else
    let synced := s.lvn.synced
    let s1 := setRole .active cause (dropOpen s)
    let s2 := if synced then s1 else lvnEvent 13 0 0 (inhibitAll s1)
    let outs := noted (fun a => uiTakeOver (aoTake volts (dioTake (setOut true (clearHand a))))) s2
    let s3 := swapLost swap (recTake outs)
    let s4 := s3.setLvn fun v => { v with replay := true, presCheck := false, reverting := false, freeze := false, plan := none }
    if cause = 1 then s4 else splitStart s4

/-- The active unit has lost its partner's heartbeats (R374). -/
def splitEnter (s : State) : State :=
  let s1 := s.setLvn fun v => { v with synced := false }
  if s.sys.inp.presIn then splitStart (setPair .splitActive s1) else setPair .solo s1

/-- No valid HEARTBEAT on either lane for 200 µs (R370, R374). -/
def beatLoss (volts : Vector Int 4) (swap : Bool) (s : State) : State :=
  let s1 := s.setLvn fun v => { v with cntMiss := satAdd 255 v.cntMiss 4 }
  match s.lvn.st with
  | .standby => takeOver 3 volts swap s1
  | .active => splitEnter s1
  | _ => s1

/-- An AO island held open measures again: `low`, its voltage has stayed below 0.3 V for 1 ms (R373). -/
def aoRecheck (c : Fin 4) (v : Int) (low : Bool) (s : State) : State :=
  if s.ao[c].held then
    let s1 := s.setAo c fun a => { a with term := v, held := !low }
    aoNotify c s (if low then s1.setAo c fun _ => aoSelect s1 c else s1)
  else s

/-- Islands held open drive at once, when the split check hands the unit control (R373). -/
def aoUnhold (s : State) : State :=
  (List.finRange 4).foldl (fun a c =>
    if a.ao[c].held then
      let a1 := a.setAo c fun x => { x with held := false }
      aoNotify c a (a1.setAo c fun _ => aoSelect a1 c)
    else a) s

/-! ### Split (R374 to R376) -/

/-- A unit without the state copy takes control: as a start from step 8, with its shared islands (R128, R376). -/
def splitTake (st : PairState) (s : State) : State :=
  if s.sup.pfail ∨ s.sys.mode = .safe ∨ s.sys.mode = .lastBreath then s
  else uiTakeControl (inhibitAll (setRole st 6 s))

/-- The split check gives this unit control, alone or not. -/
def splitKeep (st : PairState) (s : State) : State :=
  if s.lvn.st = .splitStandby then splitEnd (splitTake st s) else aoUnhold (splitEnd (setPair st s))

/-- The partner's Imzin HEARTBEAT during the split check, or while this unit is SPLIT_STANDBY (R375, R376). -/
def splitBeat (active fault : Bool) (s : State) : State :=
  if s.lvn.check then
    if active ∧ fault = false then
      if s.sys.roleB then
        if s.lvn.st.holds then splitEnd (setRole .splitStandby 6 (releaseControl s)) else splitEnd s
      else splitKeep .splitActive s
    else splitKeep .splitActive s
  else if s.lvn.st = .splitStandby ∧ fault then splitTake .solo s
  else s

/-- No HEARTBEAT of the partner for 1 s (R375). -/
def splitCheckEnd (s : State) : State := if s.lvn.check then splitKeep .solo s else s

/-! ### Registers -/

/-- A read of an LVN register; on an unpaired module the reset values (ch. 14). -/
def lvnRead (s : State) (off : Nat) : Option Word :=
  let v := s.lvn
  if ([0, 4, 8, 0xC, 0x10, 0x14, 0x18, 0x1C, 0x20, 0x24, 0x30, 0x34].contains off) = false then none
  else if s.isPaired = false then some 0
  else match off with
  | 0x000 => some (put 28 4 v.st.code ||| put 24 4 v.pState.code ||| putB 15 v.synced ||| putB 14 (revertReady s) |||
      putB 12 v.check ||| putB 7 s.sys.inp.presIn ||| putB 6 v.presFault ||| putB 5 (linkUp v) ||| putB 4 v.lanes[1] |||
      putB 3 v.lanes[0] ||| putB 0 s.sys.roleB)
  | 0x004 => some v.epoch
  | 0x008 => some (put 24 8 v.epochLen ||| put 0 18 v.epochBytes)
  | 0x00C => some (put 24 8 v.cntNack ||| put 16 8 v.cntStretch ||| put 8 8 v.cntCrc ||| put 0 8 v.cntMiss)
  | 0x010 => some (put 28 4 v.takeCause ||| put 24 4 v.takeNew.code ||| put 0 16 v.takeCount.toNat)
  | 0x014 => some (loWord v.takeTime)
  | 0x018 => some (hiWord v.takeTime)
  | 0x01C => some (put 16 16 v.lat ||| putI 0 16 v.tdiff)
  | 0x020 => some ((List.finRange 4).foldl (fun w c => w ||| putB c.val s.ao[c].held) 0)
  | 0x024 => some (put 16 16 v.logLost ||| put 0 9 v.log.length)
  | 0x030 => some (put 8 2 v.loop ||| putB 2 v.noRevert ||| putB 0 v.stop)
  | _ => some (put 16 8 v.loopErr ||| put 4 4 v.loopDepth ||| put 0 4 v.loopRes)

/-! ### Meanings -/

/-- LVN_LINK_TRAINED (R355, R381). -/
def execLvnLinkTrained (lat : Nat) (s : State) : Host.Outcome State Fault Refusal := .next (linkTrained lat s)

/-- LVN_LANE_DOWN (R355). -/
def execLvnLaneDown (l : Fin 2) (s : State) : Host.Outcome State Fault Refusal := .next (if lvnUp s then laneDown l s else s)

/-- LVN_LANE_RETRAIN (R355). -/
def execLvnLaneRetrain (l : Fin 2) (ok : Bool) (s : State) : Host.Outcome State Fault Refusal :=
  .next (if lvnUp s ∧ s.lvn.trained ∧ ok then laneUp s l else s)

/-- LV_HEARTBEAT_SEND (R359). -/
def execLvHeartbeatSend (s : State) : Host.Outcome State Fault Refusal := .next (lvBeatSend s)

/-- LV_HEARTBEAT_RECEIVED (R359, R381): one whose CRC fails leaves its lane's interval without a HEARTBEAT (LVN_CNT). -/
def execLvHeartbeatReceived (d : List Byte) (ok : Bool) (age : Nat) (s : State) : Host.Outcome State Fault Refusal :=
  .next (lvFrame ok (lvBeatRx d age) (if !ok ∧ lvnUp s ∧ linkUp s.lvn then
    s.setLvn fun v => { v with cntMiss := satInc 255 v.cntMiss } else s))

/-- LV_HELLO_SEND (R358). -/
def execLvHelloSend (s : State) : Host.Outcome State Fault Refusal := .next (lvHelloSend s)

/-- LV_HELLO_RECEIVED (R360). -/
def execLvHelloReceived (d : List Byte) (ok : Bool) (s : State) : Host.Outcome State Fault Refusal :=
  .next (lvFrame ok (lvHelloRx d) s)

/-- ROLE_NEGOTIATION (R360). -/
def execRoleNegotiation (s : State) : Host.Outcome State Fault Refusal := .next (negotiate s)

/-- PEER_WAIT_EXPIRY (R360). -/
def execPeerWaitExpiry (s : State) : Host.Outcome State Fault Refusal := .next (peerWaitEnd s)

/-- EPOCH_BOUNDARY (R363, R366). -/
def execEpochBoundary (bytes frames : Nat) (s : State) : Host.Outcome State Fault Refusal :=
  .next (if epochsRun s then epochSend bytes frames s else s)

/-- LV_EPOCH_OPEN_RECEIVED (R366). -/
def execLvEpochOpenReceived (n base : Word) (t : Ts) (ok : Bool) (s : State) : Host.Outcome State Fault Refusal :=
  .next (lvFrame ok (asStandby fun s => (dropOpen s).setLvn fun v => { v with opened := some (n, base, t) }) s)

/-- LV_DELTA_RECEIVED (R365). -/
def execLvDeltaReceived (recs : List LvRec) (bytes : Nat) (ok : Bool) (s : State) : Host.Outcome State Fault Refusal :=
  .next (lvFrame ok (asStandby fun s => if s.lvn.opened.isSome then
    s.setLvn fun v => { v with recs := v.recs ++ recs, deltas := v.deltas + 1, recBytes := v.recBytes + bytes } else s) s)

/-- LV_COMMIT_RECEIVED (R366). -/
def execLvCommitReceived (n bytes : Word) (frames flags : Half) (crc ok : Bool) (s : State) :
    Host.Outcome State Fault Refusal :=
  .next (lvFrame ok (asStandby (epochCommit n bytes frames flags crc)) s)

/-- LV_CMD_FWD_RECEIVED (R368). -/
def execLvCmdFwdReceived (d : List Byte) (ok : Bool) (s : State) : Host.Outcome State Fault Refusal :=
  .next (lvFrame ok (fun s => lvLog (fwdEntry s d) s) s)

/-- LV_FAULT_RECEIVED (R370). -/
def execLvFaultReceived (volts : Vector Int 4) (swap ok : Bool) (s : State) : Host.Outcome State Fault Refusal :=
  .next (lvFrame ok (takeOver 1 volts swap) s)

/-- LV_PRES_IN_FALL (R370). -/
def execLvPresInFall (s : State) : Host.Outcome State Fault Refusal :=
  let s1 := { s with sys := { s.sys with inp := { s.sys.inp with presIn := false } } }
  .next (if s.lvn.st = .standby then s1.setLvn fun v => { v with presCheck := true } else s1)

/-- LV_PRES_IN_RISE (R357). -/
def execLvPresInRise (s : State) : Host.Outcome State Fault Refusal :=
  .next ({ s with sys := { s.sys with inp := { s.sys.inp with presIn := true } } }.setLvn fun v => { v with presCheck := false })

/-- PRES_CHECK_EXPIRY (R370). -/
def execPresCheckExpiry (volts : Vector Int 4) (swap : Bool) (s : State) : Host.Outcome State Fault Refusal :=
  .next (if s.lvn.presCheck then takeOver 2 volts swap (s.setLvn fun v => { v with presCheck := false }) else s)

/-- LV_HEARTBEAT_LOSS (R370, R374). -/
def execLvHeartbeatLoss (volts : Vector Int 4) (swap : Bool) (s : State) : Host.Outcome State Fault Refusal :=
  .next (if lvnUp s then beatLoss volts swap s else s)

/-- AO_HELD_RECHECK (R373). -/
def execAoHeldRecheck (c : Fin 4) (v : Int) (low : Bool) (s : State) : Host.Outcome State Fault Refusal :=
  .next (aoRecheck c v low s)

/-- SPLIT_CHECK_EXPIRY (R375). -/
def execSplitCheckExpiry (s : State) : Host.Outcome State Fault Refusal := .next (splitCheckEnd s)

/-- SPLIT_PARTNER_LOSS (R376). -/
def execSplitPartnerLoss (s : State) : Host.Outcome State Fault Refusal :=
  .next (if s.lvn.st = .splitStandby ∧ s.lvn.check = false then splitTake .solo s else s)

/-- HEARTBEAT_RECEIVED (R339, R375): another node's, or the partner's by its unit type. -/
def execHeartbeatReceived (f : ImzRx) (unitB : Bool) (s : State) : Host.Outcome State Fault Refusal :=
  let s1 := if s.standby ∧ imzLive s ∧ f.data.length = 16 ∧ fromAbove f ∧ f.src = s.netMgr ∧ !s.netTop then mgrSeen s
    else imzRx (if unitB then 0x72 else 0x70) f (beatRx f) s
  let b3 := dataNat f.data 3 1
  .next (if s.isPaired ∧ f.src = s.nodeNum ∧ unitB ≠ s.sys.roleB ∧ f.data.length = 16 then
    splitBeat (b3.testBit 3) (b3.testBit 2) s1 else s1)

end Sys2Proof.Machine
end

