-- ==== Sys2Proof/Machine/Revert.lean ====
section
/-! DEFINITION. Revert: revert and hand-over, the image of a partner that is brought up to date, stop and loopback of the
leaven link (R151, R189, R377 to R380, R383). -/
namespace Sys2Proof.Machine

open Sys2Proof

/-- The scan period in ticks (R93, R214). -/
def State.scanTicks (s : State) : Nat := scanTicksOf s.scanCode

/-- The first scan start at or after a system time (R214). -/
def scanStartFrom (s : State) (t : Nat) : Nat := (t + s.scanTicks - 1) / s.scanTicks * s.scanTicks

/-- AO channels in use, as the bits of CONFIRM. -/
def aoUsedMask (s : State) : BitVec 4 := (List.finRange 4).foldl (fun m c => m ||| (if s.aoUnused c.val then 0 else BitVec.ofNat 4 (2 ^ c.val))) 0

/-- DIO groups in use. -/
def dioUsedMask (s : State) : BitVec 2 := (List.finRange 2).foldl (fun m g => m ||| (if s.grpUnused g.val then 0 else BitVec.ofNat 2 (2 ^ g.val))) 0

/-- A revert or hand-over leaves nothing behind. -/
def Lvn.revertOver (v : Lvn) : Lvn :=
  { v with reverting := false, plan := none, taking := false, isHandover := false, asked := false, freeze := false,
           handEpoch := 0, handAck := false, confDio := 0, confAo := 0, failed := false }

/-- REVERT_REQ goes out once the conditions have held for `HOLD` (R377). -/
def revertAsk (s : State) : State :=
  if revertReady s ∧ !s.lvn.reverting then
    lvSend [(8, 0, [])] (s.setLvn fun v => { v with asked := true, failBits := 0 })
  else s

/-- The active unit of a SYNCED pair accepts a request and sends the plan: T lies 2 ms before the first scan start at or
after 6 ms from now (R378). -/
def handAccept (handover : Bool) (s : State) : State :=
  if s.lvn.st = .active ∧ s.lvn.pState = .standby ∧ s.lvn.synced ∧ linkUp s.lvn ∧ !s.lvn.reverting then
    let t := scanStartFrom s (s.now + ms 6) - ms 2
    lvSend [(9, 0, bytesLE 8 (stampOf t).toNat)]
      (s.setLvn fun v => { v.revertOver with reverting := true, plan := some t, isHandover := handover })
  else s

/-- Byte address of `LVN_CTL`. -/
def lvnCtlAddr : Nat := 0x068030

/-- `LVN_CTL.HANDOVER`: the active unit of a SYNCED pair starts a hand-over; elsewhere the write is ignored and logged. -/
def handStart (src : Source) (s : State) : State :=
  if s.lvn.st = .active ∧ s.lvn.synced then handAccept true s else logWerr 8 src lvnCtlAddr s

/-- The freeze ends: levels follow their commands again. -/
def unfreeze (s : State) : State := noted (fun a => dioDriveAll (clearHand a)) s

/-- The plan reaches the unit that takes control; T of 0 cancels, and an invalid T plans nothing (R8, R378, log 23). -/
def planTake (t : Ts) (s : State) : State :=
  if t = 0 then
    if s.lvn.reverting then unfreeze (s.setLvn Lvn.revertOver) else s
  else if stampValid t = false then s
  else s.setLvn fun v =>
    { v.revertOver with reverting := true, taking := true, plan := some (ticksOf t), isHandover := !v.asked }

/-- T − 1 ms: the outputs that the unit drives are frozen; the taking unit's loops will hold the level of the epoch until a
command arrives (R151, R189). -/
def revertFreeze (s : State) : State :=
  if s.lvn.reverting ∧ !s.lvn.freeze then
    let s1 := s.setLvn fun v => { v with freeze := true, handEpoch := 0, handAck := false }
    if s.lvn.taking then { s1 with ao := s1.ao.map fun a => { a with takeLevel := some a.epochLevel } }
    else dioDriveAll { s1 with
      ao := s1.ao.map fun a => { a with frozen := some a.level }
      dio := s1.dio.map fun d => if d.output then { d with frozen := some d.on } else d }
  else s

/-- T − 100 µs without acknowledgement: the plan is cancelled and nothing changes (R378). -/
def ackDeadline (s : State) : State :=
  if s.lvn.reverting ∧ s.lvn.freeze ∧ !s.lvn.taking ∧ !s.lvn.handAck then
    lvSend [(9, 0, bytesLE 8 0)] (unfreeze (s.setLvn Lvn.revertOver))
  else s

/-- A failed revert, as each unit records it: no role changes (R379, ch. 14). -/
def revertFailed (s : State) : State :=
  lvnEvent 9 0 0 (s.setLvn fun v => { v with failed := true, takeCause := 8, takeNew := v.st, takeTime := s.stamp })

/-- The unit that gives up control opens its loops at T (R151). -/
def aoHandOff (s : State) : State :=
  noted (fun a => { a with ao := a.ao.map fun x => { x.openNow with released := true } }) (aoEndSpell s)

/-- The unit that takes control drives the levels of the hand-over epoch, from the latch where it gave the level (R151,
R189). -/
def handDrive (s : State) : State :=
  noted (fun a =>
    let a1 := dioDriveAll { setOut true a with dio := a.dio.map fun d =>
      if d.output then
        { d with latch := d.epochLatch, frozen := some d.epochLevel, srcBad := false,
                 hold := if d.epochWhy = 0 ∨ d.epochWhy = 7 then none else some (if d.epochLevel then 1 else 0, false) }
      else d }
    (List.finRange 4).foldl (fun a c =>
      let a1 := a.setAo c fun x => { x with frozen := some x.epochLevel, takeLevel := x.takeLevel.map fun _ => x.epochLevel }
      a1.setAo c fun _ => aoSelect a1 c) a1) s

/-- Step 4: the loops are confirmed, and commands apply to them again (R151). -/
def aoThaw (s : State) : State := { s with ao := s.ao.map fun a => { a with frozen := none } }

/-- Health bits of what a revert failed on: bit 3 the AO channels, bits 4 and 5 the DIO groups (R377, R379). -/
def failHealth (dioOk aoOk : Bool) : Half := (if aoOk then 0 else 8) ||| (if dioOk then 0 else 48)

/-- The taking unit's outputs did not all confirm: READBACK on the loops, and its outputs are released again (R151, R379). -/
def handFail (dio : BitVec 2) (ao : BitVec 4) (s : State) : State :=
  let s1 := (List.finRange 4).foldl (fun a c =>
    if bit ao c.val || a.aoUnused c.val then a
    else aoNotify c a (a.setAo c fun x => x.setConds (x.dstat ||| aoBit 5 true))) s
  let s3 := noted (fun a => dioReleaseAll (setOut false (clearHand (aoLetGo a)))) s1
  lvSend [(0x0A, 1, bytesLE 1 dio.toNat ++ bytesLE 1 ao.toNat)] (revertFailed (s3.setLvn fun v =>
    { v with failBits := failHealth (dioUsedMask s &&& ~~~dio == 0) (aoUsedMask s &&& ~~~ao == 0) }))

/-- T: the releasing unit opens its loops; the taking unit drives and reports what it confirms: `dio`, the groups whose
drivers are on and without fault; `ao`, the channels whose loopback is within 1 % of the level (R151, R189, R378). A unit in
POWER_FAIL takes no control (R362). -/
def revertSwitch (dio : BitVec 2) (ao : BitVec 4) (s : State) : State :=
  if s.lvn.reverting ∧ s.lvn.freeze then
    if !s.lvn.taking then aoHandOff s
    else if !s.lvn.handAck then s
    else if s.sup.pfail then
      lvSend [(0x0A, 1, [0, 0])] (revertFailed s)
    else
      let s1 := handDrive s
      if dioUsedMask s &&& ~~~dio = 0 ∧ aoUsedMask s &&& ~~~ao = 0 then
        lvSend [(0x0A, 0, bytesLE 1 dio.toNat ++ bytesLE 1 ao.toNat)] (aoThaw s1)
      else handFail dio ao s1
  else s

/-- This unit releases control in a revert whose freeze holds. -/
def handingOver (s : State) : Bool := s.lvn.reverting && s.lvn.freeze && !s.lvn.taking

/-- The loops drive again (R379). -/
def aoHandBack (s : State) : State :=
  noted (fun s => (List.finRange 4).foldl (fun a c =>
    let a1 := a.setAo c fun x => { x with released := false }
    a1.setAo c fun _ => aoSelect a1 c) s) s

/-- REVERT_FAIL: the releasing unit keeps control (R379). -/
def revertKeep (s : State) : State :=
  if handingOver s ∧ !s.lvn.failed then revertFailed (aoHandBack s) else s

/-- CONFIRM reaches the releasing unit (R378). -/
def handConfirmed (dio ao : Byte) (s : State) : State :=
  if handingOver s ∧ !s.lvn.failed then s.setLvn fun v => { v with confDio := dio, confAo := ao } else s

/-- Every group and channel in use is confirmed. -/
def allConfirmed (s : State) : Bool :=
  dioUsedMask s &&& ~~~(s.lvn.confDio.setWidth 2) == 0 && aoUsedMask s &&& ~~~(s.lvn.confAo.setWidth 4) == 0

/-- T + 200 µs: the releasing unit releases the confirmed groups, and its shared islands listen; without a full CONFIRM it
keeps control (R129, R189, R378, log 23). -/
def revertRelease (s : State) : State :=
  if !handingOver s || s.lvn.failed then s
  else if allConfirmed s then
    noted (fun a => uiListenEntry (dioDriveAll { a with dioBlk := { a.dioBlk with
      groups := a.dioBlk.groups.mapFinIdx fun g x _ => { x with released := a.lvn.confDio.getLsbD g } } })) s
  else revertKeep s

/-- Commands that wait on the releasing unit are the taking unit's: they end here with STANDBY (R378, log 23). -/
def dropCommands (s : State) : State :=
  let s1 := match s.pev.cmd with
    | some c => { s with pev := { s.pev with cmd := none, resOp := c.op, resCode := 2, resSlot := c.slot % 128 } }
    | none => s
  let s2 := if s1.ann.pend then s1.setAnn fun a => { a with pend := false, resCode := 4, resCount := 0 } else s1
  let s3 := if s2.call.pend then s2.setCall fun c => { c with pend := false, resCode := 2 } else s2
  (s3.setAnn fun a => { a with queue := [] }).setCall fun c => { c with cmds := [] }

/-- Cause of the role change in `LVN_TAKE` (ch. 14). -/
def Lvn.handCause (v : Lvn) : Nat := if v.isHandover then 5 else 4

/-- S: the freeze ends; the roles change, unless the revert has failed (R378, R379). -/
def revertEnd (s : State) : State :=
  if s.lvn.reverting ∧ s.lvn.freeze then
    let v := s.lvn
    let ended := fun (x : State) => x.setLvn Lvn.revertOver
    if v.failed || (v.taking && !v.handAck) then unfreeze (ended s)
    else if v.taking then
      let s1 := setRole .active v.handCause (ended s)
      (recTake (uiTakeControl (unfreeze s1))).setLvn fun x => { x with replay := true, synced := false }
    else
      let s1 := setRole .standby v.handCause (dropCommands (releaseControl (ended s)))
      s1.setLvn fun x => { x with synced := decide (replicaSize s ≤ x.swept) }
  else s

/-! ### A partner that is brought up to date (R380) -/

/-- Which image the partner gets: the active one while it is UPDATING or, in BARE, OFF; the one that a VERIFY checks while
that runs; the shadow while PARTNER_STALE and the shadow is VALID (R103, R380). -/
def imageWanted (s : State) : Option Nat :=
  if s.lvn.pState = .updating ∨ s.lvn.pState = .off then some 0
  else if s.rcp.verifying ∧ !s.bare then some 1
  else if s.rcp.partnerStale ∧ (s.rcp.recipes[1 - s.rcp.active]).st = .valid then some 1
  else none

/-- The image of a kind: the active bank, the shadow bank, or under a VERIFY its partition with block 0 in place (R96,
R103). -/
def imageOf (s : State) (kind : Nat) : Memory :=
  let r := s.rcp.recipes[if kind = 0 then s.rcp.active else 1 - s.rcp.active]
  if kind ≠ 0 ∧ s.rcp.verifying then memCopyIn r.part 0 4096 s.rcp.block0 else r.bank

/-- The next IMAGE frame; none once the whole image has gone (R358, R380). -/
def imageSend (s : State) : State :=
  if lvnUp s ∧ linkUp s.lvn ∧ s.lvn.st.holds then
    match imageWanted s with
    | none => s.setLvn fun v => { v with sending := none }
    | some k =>
      let off := match s.lvn.sending with
        | some (k', o) => if k' = k then o else 0
        | none => 0
      let m := imageOf s k
      let n := min 4088 (imgLength m - off)
      if n = 0 then s.setLvn fun v => { v with sending := some (k, off) }
      else lvSend [(0x0B, 0, bytesLE 1 k ++ bytesLE 3 0 ++ bytesLE 4 off ++ memBytes m off n)]
        (s.setLvn fun v => { v with sending := some (k, off + n) })
  else s

/-- The recipe whose partition a received image goes to: in BARE that of recipe A, else the shadow's (R380). -/
def imageTarget (s : State) : Fin 2 := if s.bare then 0 else 1 - s.rcp.active

/-- A unit that takes images: UPDATING, STANDBY or in BARE. -/
def imageTakes (s : State) : Bool := s.bare || s.lvn.st == .updating || s.lvn.st == .standby

/-- An IMAGE frame is written to the partition; the shadow is then being written (R380). -/
def imageTake (d : List Byte) (s : State) : State :=
  let off := dataNat d 4 4
  let bytes := d.drop 8
  if imageTakes s ∧ off + bytes.length ≤ 0x200000 ∧ dataNat d 0 1 ≤ 1 then
    { s with rcp := s.rcp.setRecipe (imageTarget s) fun r =>
        { r with part := memFill r.part off bytes, st := .writing, seq := 0, crc := 0 } }.setLvn fun v =>
      { v with imageKind := dataNat d 0 1 }
  else s

/-! ### Stop and loopback (R383) -/

/-- STOP is permitted: on an unpaired unit, in SOLO and in BARE. -/
def lvnMayStop (s : State) : Bool := !s.isPaired || s.lvn.st == .solo || s.bare

/-- A write of `LVN_CTL.STOP`: LVN stops and its lanes go down, or the write is ignored and logged. -/
def lvnStop (src : Source) (stop : Bool) (s : State) : State :=
  if stop = s.lvn.stop then s
  else if stop ∧ !lvnMayStop s then logWerr 8 src lvnCtlAddr s
  else if stop then (laneDown 1 (laneDown 0 s)).setLvn fun v => { v with stop := true }
  else s.setLvn fun v => { v with stop := false, loop := 0 }

/-- A write of `LVN_CTL.LOOP`, which takes a value while LVN is stopped; a test runs only then (R104, R383, R481). -/
def lvnLoopStart (src : Source) (depth : Nat) (s : State) : State :=
  if s.lvn.stop then
    if depth = 0 then s.setLvn fun v => { v with loop := 0 }
    else lvSend [(0x0C, 0, [])] (s.setLvn fun v => { v with loop := depth, loopDepth := depth, loopRes := 1, loopErr := 0 })
  else if depth = s.lvn.loop then s
  else
    let s1 := if s.bare then s.setLvn fun v => { v with loop := depth } else logWerr 1 src lvnCtlAddr s
    if depth = 0 then s1 else s1.setLvn fun v => { v with loopDepth := depth, loopRes := 4, loopErr := 0 }

/-- The test ends: it passes without an error. -/
def lvnLoopDone (errors : Nat) (s : State) : State :=
  if s.lvn.loopRes = 1 then
    s.setLvn fun v => { v with loopRes := if errors = 0 then 2 else 3, loopErr := min 255 errors, loop := 0 }
  else s

/-! ### Meanings -/

/-- REVERT_HOLD_EXPIRY (R377). -/
def execRevertHoldExpiry (s : State) : Host.Outcome State Fault Refusal := .next (revertAsk s)

/-- LVN_HANDOVER (R377). -/
def execLvnHandover (src : Source) (s : State) : Host.Outcome State Fault Refusal := .next (handStart src s)

/-- LV_REVERT_REQ_RECEIVED (R378). -/
def execLvRevertReqReceived (handover ok : Bool) (s : State) : Host.Outcome State Fault Refusal :=
  .next (lvFrame ok (handAccept handover) s)

/-- LV_REVERT_PLAN_RECEIVED (R378). -/
def execLvRevertPlanReceived (t : Ts) (ok : Bool) (s : State) : Host.Outcome State Fault Refusal :=
  .next (lvFrame ok (asStandby (planTake t)) s)

/-- REVERT_FREEZE (R378). -/
def execRevertFreeze (s : State) : Host.Outcome State Fault Refusal := .next (revertFreeze s)

/-- REVERT_ACK_DEADLINE (R378). -/
def execRevertAckDeadline (s : State) : Host.Outcome State Fault Refusal := .next (ackDeadline s)

/-- REVERT_SWITCH (R378). -/
def execRevertSwitch (dio : BitVec 2) (ao : BitVec 4) (s : State) : Host.Outcome State Fault Refusal :=
  .next (revertSwitch dio ao s)

/-- LV_CONFIRM_RECEIVED (R378). -/
def execLvConfirmReceived (dio ao : Byte) (ok : Bool) (s : State) : Host.Outcome State Fault Refusal :=
  .next (lvFrame ok (handConfirmed dio ao) s)

/-- LV_REVERT_FAIL_RECEIVED (R379). -/
def execLvRevertFailReceived (ok : Bool) (s : State) : Host.Outcome State Fault Refusal := .next (lvFrame ok revertKeep s)

/-- REVERT_RELEASE (R378). -/
def execRevertRelease (s : State) : Host.Outcome State Fault Refusal := .next (revertRelease s)

/-- REVERT_END (R378). -/
def execRevertEnd (s : State) : Host.Outcome State Fault Refusal := .next (revertEnd s)

/-- LV_IMAGE_SEND (R380). -/
def execLvImageSend (s : State) : Host.Outcome State Fault Refusal := .next (imageSend s)

/-- LV_IMAGE_RECEIVED (R380). -/
def execLvImageReceived (d : List Byte) (ok : Bool) (s : State) : Host.Outcome State Fault Refusal :=
  .next (lvFrame ok (imageTake d) s)

/-- LVN_STOP (R383). -/
def execLvnStop (src : Source) (stop : Bool) (s : State) : Host.Outcome State Fault Refusal := .next (lvnStop src stop s)

/-- LVN_LOOP_TEST (R383). -/
def execLvnLoopTest (src : Source) (depth : BitVec 2) (s : State) : Host.Outcome State Fault Refusal :=
  .next (lvnLoopStart src depth.toNat s)

/-- LVN_LOOP_DONE (R383). -/
def execLvnLoopDone (errors : Nat) (s : State) : Host.Outcome State Fault Refusal := .next (lvnLoopDone errors s)

end Sys2Proof.Machine
end

