-- ==== Sys2Proof/Machine/Fault.lean ====
section
/-! DEFINITION. Fault: block faults, region resets, the module-level fault and the safe state (R38, R43, R44, R53 to R58,
R505). -/
namespace Sys2Proof.Machine

open Sys2Proof

/-! ### Recipe operations that end (RCP_CMD, ch. 4) -/

/-- The recipe engine replaced. -/
def State.setRcp (s : State) (f : Rcp → Rcp) : State := { s with rcp := f s.rcp }

/-- The source field of a BARE module's frames: bits 15:0 of its serial number (R323). -/
def bareSource : Half := Config.serial.setWidth 16

/-- A frame goes out on both buses in BARE. -/
def bareSend (f : OutFrame) (s : State) : State :=
  if s.bare ∧ s.rcp.bareFound then canSubmit 1 f (canSubmit 0 f s) else s

/-- The RSP of an operation that came by RCP_XFER: result 0 and `RCP_RESULT.CODE` as detail; the tag and the opcode of an
RCP_XFER are not stated and are free (R343, log 1). -/
def rcpRsp (node : Half) (s : State) : State :=
  if s.standby then s
  else
    let d := rspBytes { node := node, tag := s.freeVal.setWidth 8, op := (s.freeVal >>> 8).setWidth 8, down := false }
      0 s.rcp.resCode 0 s.stamp []
    if s.bare then bareSend { id := frameId 4 0x41 1 bareSource, data := d } s.drew
    else imzToward (inSubtree s node) 4 0x41 d s.drew

/-- A recipe operation ends: `RCP_RESULT`, and its event on source 47. -/
def rcpEnd (op code detail : Nat) (s : State) : State :=
  raise 47 (put 8 8 op ||| put 0 8 code)
    { s with rcp := { s.rcp with resOp := op, resCode := code, resDetail := detail % 65536 } }

/-- VERIFY ends, and the peer that sent it by RCP_XFER is answered (R343). -/
def verifyEnd (code detail : Nat) (s : State) : State :=
  let s1 := rcpEnd 3 code detail (s.setRcp fun c => { c with verifying := false, verRef := none })
  match s.rcp.verRef with
  | some n => rcpRsp n s1
  | none => s1

/-- SWAP ends, and the peer that sent it by RCP_XFER is answered (R99, R343). -/
def swapFinish (code : Nat) (s : State) : State :=
  let s1 := rcpEnd 5 code 0 (s.setRcp fun c =>
    { c with swapPend := false, swapWait := none, swapEpoch := none, swapRef := none })
  match s.rcp.swapRef with
  | some n => rcpRsp n s1
  | none => s1

/-- An accepted swap, or one that waits for ALM, does not take place (R98, R99). -/
def swapAbort (s : State) : State :=
  if s.rcp.swapPend ∨ s.rcp.swapWait.isSome then swapFinish rcABORTED s else s

/-- An open write ends without a valid image (R95, RCP_CMD). -/
def rcpDropWrite (s : State) : State :=
  let i : Fin 2 := if s.bare then 0 else 1 - s.rcp.active
  let c := { s.rcp with owner := none, verifying := false, written := [], block0 := [] }
  { s with rcp := c.setRecipe i fun r =>
      if r.st = .writing ∨ r.st = .verifying then { r with st := .invalid, seq := 0, crc := 0 } else r }

/-! ### The safe state (R58) -/

/-- The FAULT frame on both lanes (R58, R358). -/
def faultFrame (cause : Nat) (s : State) : State :=
  let n := (if s.lvn.lanes[0] then 1 else 0) + (if s.lvn.lanes[1] then 1 else 0)
  lvSend (List.replicate n (7, 0, bytesLE 1 cause)) s

/-- A paired unit that holds control. -/
def pairHolds (s : State) : Bool := s.isPaired && s.lvn.st.holds

/-- Outputs go to the recipe's safe state, without events (R142, R173). -/
def driveSafe (s : State) : State :=
  let s1 := dioDriveAll s
  (List.finRange 4).foldl (fun a c => if a.ao[c].phase = .run then a.setAo c fun _ => aoSelect a c else a) s1

/-- Every pending frame is withdrawn, and one HEARTBEAT with the fault flag goes out before the transmitters stop. -/
def lastBeat (s : State) : State :=
  imzBeat false true ((List.finRange 4).foldl (fun a k => canAbortAll k (canOnBus s k) (fun _ => true) a) s).drew

/-- The safe state's mode, with scans stopped, `FAULTN` low and presence withdrawn (R58). -/
def safeMode (s : State) : State :=
  { s with sys := { s.sys with mode := .safe, power := .safe, pins := { s.sys.pins with faultLow := true, presOut := false } }
           pev := { s.pev with running := false } }

/-- The safe state is entered: excitation and transmitter supplies go off, an unpaired unit's outputs go to the recipe's
safe state, a paired unit's are released (R24, R58; log 29). -/
def safeEntry (cause : Nat) (s : State) : State :=
  let s0 := if pairHolds s then faultFrame cause s else s
  let s1 := swapAbort s0
  let s2 := dioMark (if s.standby then s1 else lastBeat s1)
  let s3 := if s.isPaired then aoEndSpell s2 else s2
  let s4 := safeMode s3
  restat (pnlCut (cellNotify s3 (uiQuiet (if s.isPaired then letGo s4 else driveSafe s4))))

/-- A module-level fault (R57, R58, R505): the record is latched, and the safe state is entered, except in it and in
LAST_BREATH. -/
def moduleFault (block cell cause : Nat) (s : State) : State :=
  let s1 := recordFault 3 block cell cause s
  let s2 := { s1 with sys := { s1.sys with fltLatched := true, pins := { s1.sys.pins with faultLow := true } } }
  if s.sys.mode = .safe ∨ s.sys.mode = .lastBreath then s2 else safeEntry cause s2

/-- A module-level fault that the supervisor finds itself. -/
def supervisorFault (cell cause : Nat) (s : State) : State := moduleFault 0x2F cell cause s

/-! ### Region resets (R38, R53 to R57) -/

/-- The request was made by a block of the region. -/
def reqFrom (q : FabReq) (r : Fin 5) : Bool := blockRegion q.requester == some r

/-- The request goes to a block of the region. -/
def reqTo (q : FabReq) (r : Fin 5) : Bool := blockRegion q.target == some r

/-- A region goes absent for an outstanding request: one to it that is not answered gets the code; a reply due to it is
discarded, and its requester asks again after READY (R53, R55). -/
def FabOut.cancel (r : Fin 5) (code : Nat) (o : FabOut) : FabOut :=
  if reqFrom o.req r then { o with stat := if reqIdem o.req then .resend else .waitSeq }
  else if reqTo o.req r ∧ o.stat = .inFlight then { o with stat := .replied code 0 }
  else o

/-- A region goes absent: what is outstanding at it ends with a code, CANCELLED at a reset (R47, R53). -/
def fabAbsent (r : Fin 5) (code : Nat) (f : Fabric) : Fabric := { f with out := f.out.map (FabOut.cancel r code) }

/-- The sequence tables of the region's targets are cleared by its reset only (R50). -/
def fabClear (r : Fin 5) (f : Fabric) : Fabric :=
  { f with seqs := f.seqs.filter fun p => decide (p.1 % 64 / 8 ≠ r.val) }

/-- The blocks of ACQ: HART frames end, outputs hold their latched levels, speed measurement and detection times restart,
stopped blocks run again (R54, R131, R157, R185, R203). -/
def acqReset (s : State) : State :=
  let s1 := (List.finRange 4).foldl (fun a c => aoHartAbort c a) s
  let s2 := psAcqReset s1
  { s2 with dio := s2.dio.map Dio.detectAnew, uiBlk := {}, aoBlk := {}, psBlk := {},
            dioBlk := { s2.dioBlk with groups := s2.dioBlk.groups.map fun g => { g with stop := false } } }

/-- The blocks of ALM: commands that have not been applied are lost, with the keys that gave them; the flags, times, groups
and sessions lie in memory arrays (R38, R54). -/
def almReset (s : State) : State :=
  { s with pev := { s.pev with cmd := none }, ann := { s.ann with queue := [], pend := false },
           call := { s.call with cmds := [], pend := false }, rnd := { s.rnd with keyPend := false } }

/-- The blocks of FCE: the panel's update and the renderer's page, selection and keys; the router's state and the plane
lie in memory arrays (R38, R54, R466). -/
def fceReset (s : State) : State :=
  let s1 := pnlFceReset s
  { s1 with rnd := { listed := s1.rnd.listed, body := s1.rnd.body, head := s1.rnd.head, foot := s1.rnd.foot,
                     session := s1.rnd.session, drawn := s1.rnd.drawn } }

/-- LNK resets: frames are cut, the lanes go down, the timebase runs free (R54, R308, R355). -/
def lnkReset (s : State) : State :=
  let s1 := laneDown 1 (laneDown 0 s)
  let s2 := (List.finRange 4).foldl (fun a k =>
    let p := a.can[k].txPend
    (canReset k a).setCan k fun c => { c with kept := p }) s1
  let s3 := timEnter .free s2
  { s3 with tim := { s3.tim with st := .free, corr := 0, frac := 0, pairsOk := 0, pairsBad := 0 } }.setLvn fun v =>
    { v with trained := false }

/-- KEP resets: a recipe operation under way ends, and the eMMC is initialised again (R54, R402). -/
def kepReset (s : State) : State :=
  let s1 := if s.rcp.verifying then verifyEnd rcABORTED 0 s else s
  let s2 := if s1.rcp.owner.isSome ∨ s1.rcp.verifying then rcpDropWrite s1 else s1
  { s2 with mmc := { s2.mmc with st := if s2.mmc.st = .off then .off else .init, retries := 0 } }

/-- The logic state of a region is cleared; memory arrays, island circuits and output latches are kept (R38), and so is the
set of isolated cells, which the spec does not name here: it ends by the readmission test and the readmit register alone
(R44; DESIGN CHOICE, log 29). -/
def regionClear (r : Fin 5) (s : State) : State :=
  if r = rACQ then acqReset s
  else if r = rALM then almReset s
  else if r = rLNK then lnkReset s
  else if r = rKEP then kepReset s
  else fceReset s

/-- On the active unit of a pair, a reset of LNK first hands control to the partner (R56). What this unit then is, the spec
does not say: SPLIT_STANDBY, with cause 1 (DESIGN CHOICE, log 29). -/
def lnkHandover (cause : Nat) (s : State) : State :=
  if pairHolds s then
    setRole .splitStandby 1 (releaseControl (faultFrame cause s))
  else s

/-- A region reset is decided (R53); its record and count (R57, R505). -/
def regionReset (r : Fin 5) (block cell cause : Nat) (s : State) : State :=
  let s1 := recordFault 2 block cell cause (if r = rLNK then lnkHandover cause s else s)
  let s2 := { s1 with sys := { s1.sys.setRegion r (fun g =>
                                 { g with st := if g.hold then .held else .inReset, dozing := false, wasReset := true, since := s.mono })
                               with cntRgn := satInc 255 s1.sys.cntRgn }
                      fab := fabClear r (fabAbsent r 2 s1.fab) }
  regionClear r s2

/-- First block of a region (R37). -/
def firstBlock (r : Fin 5) : Nat := 8 * r.val

/-- A region reset that the escalation decides: the third of a region within 10 min is a module-level fault (R57). -/
def regionFault (r : Fin 5) (block cell cause : Nat) (s : State) : State :=
  let s1 := regionReset r block cell cause s
  let l := s1.mono :: recent (sec 600) s1.mono s1.sys.regions[r].rgnResets
  if l.length < 3 then { s1 with sys := s1.sys.setRegion r fun g => { g with rgnResets := l } }
  else moduleFault (firstBlock r) 0 0x08 { s1 with sys := s1.sys.setRegion r fun g => { g with rgnResets := [] } }

/-- A block fault: the fourth within 60 s resets the region (R43, R57). -/
def blockFault (block cell cause : Nat) (s : State) : State :=
  let s1 := recordFault 1 block cell cause s
  let s2 := { s1 with sys := { s1.sys with cntBlk := satInc 255 s1.sys.cntBlk } }
  match blockRegion (BitVec.ofNat 6 block) with
  | none => s2
  | some r =>
    let l := s2.mono :: recent (sec 60) s2.mono s2.sys.regions[r].blkFaults
    if l.length < 4 then { s2 with sys := s2.sys.setRegion r fun g => { g with blkFaults := l } }
    else regionFault r block cell 0x08 { s2 with sys := s2.sys.setRegion r fun g => { g with blkFaults := [] } }

/-- A TIMEOUT or PARITY response of a region's segment: the eighth within 1 ms resets the region (R57). -/
def segmentError (r : Fin 5) (timeout : Bool) (s : State) : State :=
  let l := s.mono :: recent (ms 1) s.mono s.sys.regions[r].segErrs
  if l.length < 8 then { s with sys := s.sys.setRegion r fun g => { g with segErrs := l } }
  else regionFault r (firstBlock r) 0 (if timeout then 2 else 1)
    { s with sys := s.sys.setRegion r fun g => { g with segErrs := [] } }

/-! ### Cells (R43, R44) -/

/-- The cells of a block that the model isolates: islands, channels and the cells of other blocks by their index. -/
def isolate (block cell : Nat) (s : State) : State :=
  if isIsolated block cell s then s
  else
    let below := s.sys.isolated.filter fun p => decide (p.1 < block ∨ (p.1 = block ∧ p.2 < cell))
    let above := s.sys.isolated.filter fun p => decide (block < p.1 ∨ (p.1 = block ∧ cell < p.2))
    { s with sys := { s.sys with isolated := below ++ (block, cell) :: above } }

/-- The UI channel of a cell. -/
def uiOfCell (block cell : Nat) : Option (Fin 16) := (List.finRange 16).find? fun c => uiBlock c == block && uiCell c == cell

/-- The DIO channel of a cell. -/
def dioOfCell (block cell : Nat) : Option (Fin 16) :=
  (List.finRange 16).find? fun c => dioBlock c == block && dioCell c == cell

/-- The slots of the points that a cell's channel feeds (R212). -/
def cellSlots (block cell : Nat) : List Nat :=
  match uiOfCell block cell, dioOfCell block cell with
  | some c, _ => [c.val]
  | none, some c => [20 + c.val]
  | none, none =>
    if block = aobId ∧ cell < 4 then [16 + cell]
    else if block = psbId ∧ cell < 2 then [36 + 2 * cell, 37 + 2 * cell] else []

/-- A cell is isolated, with a UI channel's quality BAD_COMM until its next conversion (R43, R44, R120). -/
def cellIsolate (block cell : Nat) (s : State) : State :=
  match uiOfCell block cell with
  | some c => isolate block cell (s.setUi c fun u => u.failed 4)
  | none => isolate block cell s

/-- A block fault that isolates its cell (R43). -/
def cellFault (block cell cause : Nat) (s : State) : State :=
  let s1 := blockFault block cell cause s
  cellNotify s1 (cellIsolate block cell s1)

/-- An isolated cell is readmitted at its next cycle boundary; a digital output follows its command again (R44). -/
def cellReadmit (block cell : Nat) (s : State) : State :=
  cellNotify s (match dioOfCell block cell with
    | some c => dioRetake (readmit block cell s) c
    | none => readmit block cell s)

end Sys2Proof.Machine
end

