-- ==== Sys2Proof/Machine/Age.lean ====
section
/-! DEFINITION. Age: the ageing ledger: its items, corrections, projections, pages and commands (R468 to R480, R488,
R489). -/
namespace Sys2Proof.Machine

open Sys2Proof

/-! ### The AGE section (R488) -/

/-- A field of the AGE section, or its default. -/
def State.ageNat (s : State) (off n dflt : Nat) : Nat := if bankHas s.activeBank secAGE then s.cfgNat secAGE off n else dflt

/-- An enable of the AGE section: 0 UI trim, 1 AO gain, 2 derating, 3 lamp compensation, 4 oscillator. -/
def State.ageEn (s : State) (i : Nat) : Bool := (s.ageNat 3 1 0x1F).testBit i

/-- The fields keep their ranges. -/
def ageBankOk (b : Memory) : Bool :=
  let f := fun (off n lo hi : Nat) => decide (lo ≤ bankNat b secAGE off n) && decide (bankNat b secAGE off n ≤ hi)
  !bankHas b secAGE || (f 0 2 7 3650 && f 2 1 5 50 && f 3 1 0 31 && f 4 2 0 1000 && f 6 2 0 5000 && f 8 2 200 1000 &&
    f 10 1 50 65 && f 11 1 0 20 && f 12 2 0 2000 && f 14 2 0 1439 && f 16 2 20 10000 && f 18 1 50 100 &&
    (List.range 13).all fun i => bankNat b secAGE (19 + i) 1 == 0)

/-! ### Items (R469, R477, R478) -/

/-- The state with an item replaced. -/
def State.setItem (s : State) (i : Fin 64) (f : AgeItem → AgeItem) : State :=
  s.setAge fun a => { a with items := a.items.set i (f a.items[i]) }

/-- An item that does not apply carries N/A (R469). -/
def itemNa (s : State) (i : Nat) : Bool :=
  if i < 16 then s.uiUnused i
  else if i < 20 then s.aoUnused (i - 16)
  else if h : i < 36 then s.grpUnused ((i - 20) / 8) || !(s.dio[i - 20]).output
  else if i = 36 then s.netTop
  else if i < 39 then s.identFlag 3
  else if i = 39 then false
  else if i < 56 then s.uiUnused (i - 40)
  else if i < 60 then s.aoUnused (i - 56)
  else if i < 62 then s.grpUnused (i - 60)
  else s.psUnused (i - 62)

/-- The item's limit, in thousandths (R469). -/
def itemLimit (s : State) (i : Nat) : Int :=
  if i < 16 then s.ageNat 4 2 300 * 1000
  else if i < 20 then s.ageNat 6 2 2000 * 1000
  else if i < 36 then s.ageNat 8 2 350 * 1000
  else if i = 36 then s.ageNat 12 2 1000 * 10
  else if i = 37 then 1760000
  else if i = 38 then 100000
  else if i = 39 then s.ageNat 18 1 80 * 1000
  else s.ageNat 16 2 500 * 1000

/-- Items with a two-sided limit (R477). -/
def itemTwoSided (i : Nat) : Bool := decide (i < 20) || i == 36

/-- Items whose value falls towards its limit: the capacitance and the barriers. -/
def itemFalls (i : Nat) : Bool := i == 37 || decide (40 ≤ i)

/-- Distance of a value to the limit. -/
def itemDist (i : Nat) (limit v : Int) : Int :=
  if itemTwoSided i then limit - v.natAbs else if itemFalls i then v - limit else limit - v

/-- One day in ticks. -/
def dayTicks : Nat := sec 86400

/-- The least-squares slope per day of values with their times (R477). -/
def trendOf (l : List (Nat × Int)) : Int × Nat :=
  let t0 := (l.getLast?.map (·.1)).getD 0
  let n : Int := l.length
  let sum := fun (f : Nat × Int → Int) => (l.map f).foldl (· + ·) 0
  let st := sum fun p => p.1 - t0
  let sv := sum fun p => p.2
  let stt := sum fun p => (p.1 - t0) * (p.1 - t0)
  let stv := sum fun p => (p.1 - t0) * p.2
  let den := n * stt - st * st
  if den ≤ 0 then (0, 1) else ((n * stv - st * sv) * dayTicks, den.toNat)

/-- Days to the limit at a trend; 0xFFFF when it points away, or with less than 7 days of values (R477). -/
def daysOf (i : Nat) (limit v : Int) (l : List (Nat × Int)) (tr : Int × Nat) : Nat :=
  let span := (l.head?.map (·.1)).getD 0 - (l.getLast?.map (·.1)).getD 0
  let toward := if itemTwoSided i then (if v < 0 then -tr.1 else tr.1) else if itemFalls i then -tr.1 else tr.1
  if span < 7 * dayTicks ∨ toward ≤ 0 then 0xFFFF
  else min 65534 ((itemDist i limit v).toNat * tr.2 / toward.toNat)

/-- Margin in 0.01 %, held between 0 and 100 % (R477). -/
def marginOf (i : Nat) (limit base v : Int) : Nat :=
  (clampI 0 10000 (openDiv (10000 * itemDist i limit v) (itemDist i limit base))).toNat

/-- OVL_TH of the recipe, in 10 mA (R472). -/
def thBase (s : State) (c : Fin 16) : Nat := Dio.ovlTh { s.dio[c] with ovlCut := 0 }

/-- The bound of the item's correction, in thousandths of its unit; 0 for an item without one (R468). -/
def itemBound (s : State) (i : Nat) : Int :=
  if i < 16 then s.ageNat 4 2 300 * 1000
  else if i < 20 then s.ageNat 6 2 2000 * 1000
  else if h : i < 36 then
    if 20 ≤ i then ((thBase s ⟨i - 20, by omega⟩ : Int) - min (thBase s ⟨i - 20, by omega⟩) (s.ageNat 10 1 55)) * 10000 else 0
  else if i = 36 then s.ageNat 12 2 1000 * 10
  else 0

/-- The enable of the item's correction (R468). -/
def corrEn (s : State) (i : Nat) : Bool :=
  if i < 16 then s.ageEn 0 else if i < 20 then s.ageEn 1 else if i < 36 then s.ageEn 2 else decide (i = 36) && s.ageEn 4

/-- A measured value enters its item (R477). -/
def AgeItem.take (x : AgeItem) (i : Nat) (limit v : Int) (now : Nat) : AgeItem :=
  let base := x.base.getD v
  let hist := (now, v) :: if x.base.isSome then x.hist.filter fun p => decide (now ≤ p.1 + 30 * dayTicks) else []
  let tr := trendOf hist
  let m := marginOf i limit base v
  { x with valid := true, value := v, base := some base, limit := limit, hist := hist,
           held := if x.base.isSome then x.held + 1 else 1, margin := m, days := daysOf i limit v hist tr, trendN := tr.1,
           trendD := tr.2, tMeas := stampOf now, tBase := if x.base.isSome then x.tBase else stampOf now,
           atLimit := x.atLimit || m == 0 }

/-- SERVICE_DUE is set, or set again after an acknowledgement, with its event (R478). -/
def itemDue (i : Fin 64) (forced : Bool) (s : State) : State :=
  let x := s.age.items[i]
  let low := forced || decide (x.margin ≤ s.ageNat 2 1 20 * 100) || decide (x.days ≤ s.ageNat 0 2 180)
  let set := fun (s : State) => ageEvent 1 i.val (x.margin / 100) (s.setItem i fun x =>
    { x with due := true, ack := false, tDue := s.stamp })
  if x.due then
    if x.ack ∧ x.margin + 1000 ≤ x.ackMargin then set s
    else if !forced && decide ((s.ageNat 2 1 20 + 5) * 100 < x.margin) && decide (s.ageNat 0 2 180 < x.days) then
      ageEvent 2 i.val (x.margin / 100) (s.setItem i fun x => { x with due := false, ack := false })
    else s
  else if low then set s
  else s

/-- An item is measured; `forced`: SERVICE_DUE whatever the margin. -/
def itemMeasure (i : Fin 64) (v : Int) (forced : Bool) (s : State) : State :=
  itemDue i forced (s.setItem i fun x => { x.take i.val (itemLimit s i.val) v s.now with bound := itemBound s i.val })

/-! ### Corrections (R468, R470 to R473) -/

/-- What a correction has moved within the last 24 h. -/
def AgeItem.moved (x : AgeItem) (now : Nat) : Int :=
  ((x.moves.filter fun p => decide (now < p.1 + dayTicks)).map fun p => (p.2.natAbs : Int)).foldl (· + ·) 0

/-- A correction of an item is set, with its events (R468, R489). -/
def itemCorrect (i : Fin 64) (new bound : Int) (s : State) : State :=
  let x := s.age.items[i]
  let at' := decide (bound ≤ new.natAbs)
  let s1 := s.setItem i fun x =>
    { x with corr := new, bound := bound, atBound := at',
             moves := if new = x.corr then x.moves
               else (s.now, new - x.corr) :: x.moves.filter fun p => decide (s.now < p.1 + dayTicks) }
  let s2 := if new = x.corr then s1 else ageEvent 3 i.val (clampI (-32768) 32767 (new / 1000)) s1
  if at' ∧ !x.atBound then ageEvent 4 i.val 0 s2 else s2

/-- A correction follows a wanted value within its bound and what it may move in a day; at LIMIT it moves no more, and
disabled it is 0 (R468, R470, R471, R478). -/
def itemFollow (i : Fin 64) (en : Bool) (want bound perDay : Int) (s : State) : State :=
  let x := s.age.items[i]
  if !en then itemCorrect i 0 bound s
  else if x.atLimit then s
  else
    let room := max 0 (perDay - x.moved s.now)
    itemCorrect i (x.corr + clampI (-room) room (clampI (-bound) bound want - x.corr)) bound s

/-- The gain that `UI_CAL_GAIN` reads after its trim has moved is a free value (R123, log 1, log 24). -/
def gainMoved (c : Fin 16) (s : State) : State :=
  (s.setUi c fun u => { u with calGain := BitVec.ofNat 32 s.freeVal.toNat }).drew

/-- A reference: the UI gain trim follows VREFA where VREFB proves it; a jump is not followed; where both differ from the
master, the master is suspect (R470). Values in 0.001 ppm. -/
def ageRef (c : Fin 16) (a b : Int) (s : State) : State :=
  let i : Fin 64 := ⟨c.val, by omega⟩
  let far := fun (v : Int) => decide (50000 < v.natAbs)
  let x := s.age.items[i]
  let jump := far a && !far b && decide (100000 < (a - x.corr).natAbs)
  let s1 := itemMeasure i a jump s
  let both := far a && far b && decide ((a - b).natAbs ≤ 50000)
  let s2 := s1.setAge fun g => { g with refBad := g.refBad.set c (if both then some s.now else none) }
  if both then
    let n := ((List.finRange 16).filter fun k => match s2.age.refBad[k] with
      | some t => decide (s.now < t + sec 3600)
      | none => false).length
    if 4 ≤ n then
      (List.finRange 16).foldl (fun g k =>
        if itemNa g k.val then g else itemDue ⟨k.val, by omega⟩ true g) (s2.setAge fun g => { g with suspect := true })
    else s2
  else if far a && !far b then
    if jump then ageEvent 8 c.val (clampI (-32768) 32767 ((a - x.corr) / 1000)) s2
    else
      let s3 := itemFollow i (s2.ageEn 0) a (itemBound s2 c.val) 20000 s2
      if s3.age.items[i].corr = x.corr then s3 else gainMoved c s3
  else s2

/-- A DAC gain error, from at least 600 s of samples (R471). -/
def ageGain (c : Fin 4) (err : Int) (secs : Nat) (s : State) : State :=
  let i : Fin 64 := ⟨16 + c.val, by omega⟩
  if secs < 600 then s
  else itemFollow i (s.ageEn 1) (-err) (itemBound s (16 + c.val)) 200000 (itemMeasure i err false s)

/-- OVL_TH in force at a derating: the greatest `k` of 10 mA with `k² · R₂₅ ≤ OVL_TH² · R_base` (R472). -/
def derated (th : Nat) (base r25 : Nat) : Nat :=
  ((List.range (th + 1)).filter fun k => decide (k * k * r25 ≤ th * th * base)).getLastD 0

/-- By how much R₂₅ lies above R_learn, in mΩ, where lamp compensation is enabled (R472). -/
def lampRiseOf (s : State) (c : Fin 16) (r25 : Int) : Int :=
  if s.ageEn 3 ∧ s.dio[c].rLearn ≠ 0 then r25 / 1000 - s.dio[c].rLearn else 0

/-- A switch's hourly mean of R₂₅ in 0.001 mΩ: derating and lamp compensation (R472). -/
def ageSwitch (c : Fin 16) (r25 : Nat) (s : State) : State :=
  let i : Fin 64 := ⟨20 + c.val, by omega⟩
  let s1 := itemMeasure i r25 false s
  let x := s1.age.items[i]
  let th := thBase s1 c
  let k := max (min th (s1.ageNat 10 1 55)) (min th (derated th (x.base.getD r25).toNat r25))
  let cut := if s1.ageEn 2 then (if x.atLimit then s1.dio[c].ovlCut else th - k) else 0
  let d := s1.dio[c]
  let s2 := s1.setDio c fun d =>
    { d with ovlCut := cut, lampRise := lampRiseOf s1 c r25, lampBound := s1.ageNat 11 1 10 }
  if d.ovlCut = cut then s2 else itemCorrect i (-10000 * cut) (itemBound s1 i.val) s2

/-- An item's correction is held within the recipe's bound, or at 0 where its enable is 0, and acts on its channel (R468). -/
def corrKeep (s : State) (i : Fin 64) : State :=
  let x := s.age.items[i]
  let b := itemBound s i.val
  let c := if corrEn s i.val then clampI (-b) b x.corr else 0
  let s1 := if c = x.corr then s.setItem i fun x => { x with bound := b } else itemCorrect i c b s
  if h : i.val < 16 then (if c = x.corr then s1 else gainMoved ⟨i.val, h⟩ s1)
  else if h : 20 ≤ i.val ∧ i.val < 36 then
    let k : Fin 16 := ⟨i.val - 20, by omega⟩
    s1.setDio k fun d =>
      { d with ovlCut := (-c / 10000).toNat, lampRise := if x.valid then lampRiseOf s1 k x.value else 0,
               lampBound := s1.ageNat 11 1 10 }
  else s1

/-- The corrections follow the AGE section of the recipe loaded (R104, R468). -/
def ageBounds (s : State) : State :=
  if s.age.st = .off then s else ((List.finRange 64).filter fun i => decide (i.val < 37)).foldl corrKeep s

/-- The temperature band of the back plate (R473). -/
def tempBand (s : State) : Fin 16 :=
  let b := (clampI 0 15 ((s.sup.plate + 400) / 100)).toNat
  if h : b < 16 then ⟨b, h⟩ else 0

/-- The mean of a band, in 0.001 ppm. -/
def bandMean (p : Int × Nat) : Int := openDiv p.1 p.2

/-- While time is not locked, in FREE and ACQUIRING, the timebase takes the band mean for the present temperature, within the
bound (R347, R473). -/
def oscApply (s : State) : State :=
  let p := s.age.bands[tempBand s]
  if s.tim.st = .locked ∨ s.tim.st = .holdover ∨ s.age.st = .off then s
  else if !s.ageEn 4 then s
  else if p.2 = 0 then s
  else
    let b : Int := s.ageNat 12 2 1000 * 10
    let v := clampI (-b) b (bandMean p)
    itemCorrect 36 v b { s with tim := { s.tim with corr := v } }

/-- A sample of `TIM_FREQ` while LOCKED; the item's value is the mean over 24 h (R473). -/
def ageTcxo (s : State) : State :=
  if s.tim.st = .locked ∧ !itemNa s 36 then
    let k := tempBand s
    let day := (s.now, s.tim.corr) :: s.age.day.filter fun p => decide (s.now < p.1 + dayTicks)
    let s1 := s.setAge fun a =>
      { a with bands := a.bands.set k (a.bands[k].1 + s.tim.corr, a.bands[k].2 + 1), day := day }
    if ticksOf s.age.items[36].tMeas + dayTicks ≤ s.now ∨ !s.age.items[36].valid then
      itemMeasure 36 (openDiv ((day.map (·.2)).foldl (· + ·) 0) day.length) false s1
    else s1
  else oscApply s

/-- The HOLD test may run (R474). -/
def holdMayTest (s : State) (partner : Bool) : Bool :=
  s.sup.hold == .ok && !s.sup.pfail && !(s.isPaired && partner) &&
    (List.finRange 2).all fun f => s.sup.feeds[f].cond == .inRange && decide (2200 ≤ s.sup.feeds[f].volt.toNat)

/-- The HOLD test: it waits up to 6 times a day, is abandoned, or writes capacitance and ESR; values in 0.001 µF and
0.001 mΩ (R474). -/
def ageHold (cap esr : Nat) (partner abandoned : Bool) (s : State) : State :=
  if !holdMayTest s partner then
    if 6 ≤ s.age.holdTries then ageEvent 5 37 0 (s.setAge fun a => { a with holdTries := 0 })
    else s.setAge fun a => { a with holdTries := a.holdTries + 1 }
  else
    let s1 := s.setAge fun a => { a with holdTries := 0 }
    if abandoned then ageEvent 5 37 0 s1
    else
      let s2 := { s1 with sup := { s1.sup with cap := min 4095 (openDiv cap 10000).toNat, esr := min 255 (openDiv esr 2000).toNat } }
      ageEvent 5 37 1 (itemMeasure 38 esr false (itemMeasure 37 cap false s2))

/-- A life code as percent of life used (R475). -/
def lifePercent (code : Byte) : Int := if 0x0B ≤ code.toNat then 100 else (code.toNat - 1 : Nat) * 10

/-- The eMMC's wear, with MMC's event when PRE_EOL_INFO is first found above 1 (R408, R475). -/
def ageWear (lifeA lifeB eol : Byte) (s : State) : State :=
  if ledgerUp s then
    let s1 := itemMeasure 39 (max (lifePercent lifeA) (lifePercent lifeB) * 1000) (eol == 2 || eol == 3)
      { s with mmc := { s.mmc with lifeA := lifeA.toNat, lifeB := lifeB.toNat, preEol := eol.toNat } }
    if 1 < eol.toNat ∧ s.mmc.preEol ≤ 1 then mmcEvent 5 eol.toNat s1 else s1
  else s

/-- A domain's barrier, in kΩ: below BAR_LIM it is due, below 20 MΩ its points are UNCERTAIN until above 25 MΩ (R476). -/
def ageBarrier (d : Fin 24) (r : Nat) (s : State) : State :=
  let i : Fin 64 := ⟨40 + d.val, by omega⟩
  let v := max 1000 (min 100000000 r)
  let s1 := itemMeasure i v (decide ((v : Int) < itemLimit s i.val)) s
  let low := s.age.lowBar.getLsbD d.val
  let mask := BitVec.ofNat 24 (2 ^ d.val)
  if v < 20000 ∧ !low then ageEvent 9 i.val (v / 1000) (s1.setAge fun a => { a with lowBar := a.lowBar ||| mask })
  else if 25000 < v ∧ low then
    ageEvent 10 i.val (min 65535 (v / 1000)) (s1.setAge fun a => { a with lowBar := a.lowBar &&& ~~~mask })
  else s1

/-- The item that a measurement belongs to. -/
def measItem : AgeMeas → Nat
  | .ref c _ _ => c.val
  | .gain c _ _ => 16 + c.val
  | .switch c _ => 20 + c.val
  | .tcxo => 36
  | .hold _ _ _ _ => 37
  | .wear _ _ _ => 39
  | .barrier d _ => 40 + d.val

/-- A measurement is taken, while AGE runs and the item applies (R469). -/
def ageTake (m : AgeMeas) (s : State) : State :=
  if s.age.st = .off ∨ itemNa s (measItem m) then s
  else match m with
  | .ref c a b => ageRef c a b s
  | .gain c err secs => ageGain c err secs s
  | .switch c r => ageSwitch c r s
  | .tcxo => ageTcxo s
  | .hold cap esr p ab => ageHold cap esr p ab s
  | .wear a b e => ageWear a b e s
  | .barrier d r => ageBarrier d r s

/-! ### The ledger area (R479, R480) -/

/-- A record's 64 bytes (R480). -/
def itemBytes (s : State) (i : Nat) (x : AgeItem) : List Byte :=
  let fl := fun (n : Nat) (b : Bool) => if b then 2 ^ n else 0
  let f := fun (v : Int) => bytesLE 4 (f32OfRat v 1000).toNat
  bytesLE 1 i ++ bytesLE 1 (fl 0 x.valid + fl 1 x.due + fl 2 x.atLimit + fl 3 x.atBound + fl 4 (itemNa s i) + fl 5 x.ack) ++
  bytesLE 2 x.margin ++ bytesLE 2 x.days ++ bytesLE 2 (min 0xFFFF x.held) ++ f x.value ++ f (x.base.getD 0) ++ f x.limit ++
  bytesLE 4 (f32OfRat x.trendN (1000 * x.trendD)).toNat ++ f x.corr ++ f x.bound ++ bytesLE 8 x.tMeas.toNat ++
  bytesLE 8 x.tBase.toNat ++ bytesLE 8 x.tDue.toNat ++ List.replicate 8 0

/-- The 64 records. -/
def ledgerBytes (s : State) : List Byte := (List.finRange 64).flatMap fun i => itemBytes s i.val s.age.items[i]

/-- First sector of a ledger page slot (R479). -/
def ledgerSlot (k : Nat) : Nat := mibSectors + 16 + 9 * k

/-- Page slots of the ledger area. -/
def ledgerSlots (s : State) : Nat := (mibSectors * s.recd.ledger - 16) / 9

/-- A ledger page's trailer: area 3, 64 records, both times the hour (R395, R480). -/
def ledgerTrailer (s : State) (data : List Byte) (hour : Ts) : List Byte :=
  let d := bytesLE 4 0x5A5AC3C3 ++ bytesLE 4 s.recd.gen.toNat ++ bytesLE 1 3 ++ bytesLE 1 64 ++ bytesLE 2 0 ++
    bytesLE 4 s.age.seq.toNat ++ bytesLE 4 s.age.slot ++ bytesLE 4 (crc32 data).toNat ++ bytesLE 8 hour.toNat ++
    bytesLE 8 hour.toNat ++ bytesLE 8 s.stamp.toNat ++ bytesLE 2 s.nodeNum.toNat ++ bytesLE 2 0 ++
    bytesLE 4 s.recd.starts.toNat ++ List.replicate 452 0
  d ++ bytesLE 4 (crc32 d).toNat

/-- The page of an hour is committed, or counted as not written (R480). -/
def ledgerPage (ok : Bool) (s : State) : State :=
  if s.age.st = .off then s
  else if ok ∧ ledgerUp s ∧ s.age.slot < ledgerSlots s then
    let data := ledgerBytes s
    let hour := stampOf (s.now / sec 3600 * sec 3600)
    let b := ledgerSlot s.age.slot
    let s1 := (List.range 8).foldl (fun a i => sectorPut (b + i) ((data.drop (512 * i)).take 512) a) s
    (sectorPut (b + 8) (ledgerTrailer s data hour) s1).setAge fun a =>
      { a with seq := a.seq + 1, slot := if a.slot + 1 < ledgerSlots s then a.slot + 1 else 0 }
  else ledgerFail s

/-- A slot's trailer is accepted (R401). -/
def ledgerOk (s : State) (k : Nat) : Bool :=
  let d := sectorGet s (ledgerSlot k + 8)
  dataNat d 0 4 == 0x5A5AC3C3 && dataNat d 508 4 == (crc32 (d.take 508)).toNat && dataNat d 4 4 == s.recd.gen.toNat &&
  dataNat d 8 1 == 3 && dataNat d 16 4 == k

/-- Sequence number and data of a slot. -/
def ledgerSeq (s : State) (k : Nat) : Nat := dataNat (sectorGet s (ledgerSlot k + 8)) 12 4
/-- The 4096 data bytes of a slot. -/
def ledgerData (s : State) (k : Nat) : List Byte := (List.range 8).flatMap fun i => sectorGet s (ledgerSlot k + i)

/-- A binary32 as thousandths. -/
def milliOf (w : Nat) : Int := divAway (f32Int (BitVec.ofNat 32 w) * 1000) (2 ^ 149)

/-- An item as a record holds it. -/
def itemOf (d : List Byte) (hist : List (Nat × Int)) : AgeItem :=
  let fl := dataNat d 1 1
  let tr := trendOf hist
  { valid := fl.testBit 0, due := fl.testBit 1, atLimit := fl.testBit 2, atBound := fl.testBit 3, ack := fl.testBit 5,
    margin := dataNat d 2 2, days := dataNat d 4 2, held := dataNat d 6 2, value := milliOf (dataNat d 8 4),
    base := if fl.testBit 0 then some (milliOf (dataNat d 12 4)) else none, limit := milliOf (dataNat d 16 4),
    trendN := tr.1, trendD := tr.2, corr := milliOf (dataNat d 24 4), bound := milliOf (dataNat d 28 4), hist := hist,
    ackMargin := dataNat d 2 2, tMeas := BitVec.ofNat 64 (dataNat d 32 8), tBase := BitVec.ofNat 64 (dataNat d 40 8),
    tDue := BitVec.ofNat 64 (dataNat d 48 8) }

/-- The values of an item in the pages of the last 30 days, newest first. -/
def ledgerHist (s : State) (slots : List Nat) (i : Nat) (tBase : Ts) : List (Nat × Int) :=
  (slots.filterMap fun k =>
    let d := (ledgerData s k).drop (64 * i)
    let t : Ts := BitVec.ofNat 64 (dataNat d 32 8)
    if dataNat d 1 1 % 2 = 1 ∧ tBase.toNat ≤ t.toNat ∧ s.now ≤ ticksOf t + 30 * dayTicks then
      some (ticksOf t, milliOf (dataNat d 8 4)) else none).eraseDups

/-- Every item is restored from the newest accepted page (R480). -/
def ledgerRestore (s : State) : State :=
  let l := ((List.range (ledgerSlots s)).filter (ledgerOk s)).map fun k => (ledgerSeq s k, k)
  let top := l.foldl (fun (a : Option (Nat × Nat)) p => match a with
    | none => some p
    | some q => if q.1 < p.1 then some p else a) none
  match top with
  | none => s.setAge fun a => { a with st := .run, scanning := false }
  | some (q, k) =>
    let newest := (l.mergeSort fun a b => decide (b.1 ≤ a.1)).map (·.2)
    let d := ledgerData s k
    let s1 := s.setAge fun a =>
      { a with st := .run, scanning := false, seq := BitVec.ofNat 32 (q + 1),
               slot := if k + 1 < ledgerSlots s then k + 1 else 0,
               items := Vector.ofFn fun i =>
                 let r := d.drop (64 * i.val)
                 itemOf r (ledgerHist s newest i.val (BitVec.ofNat 64 (dataNat r 40 8))) }
    ageBounds s1

/-- AGE restores its items at start step 7; a trailer that fails, here that of slot 0, makes it scan in the background with
empty items meanwhile (R480, log 24). -/
def ageStart (s : State) : State :=
  if ledgerOk s 0 then ledgerRestore (s.setAge fun a => { a with st := .restoring })
  else s.setAge fun a => { a with st := .run, scanning := true }

/-! ### Commands and registers -/

/-- Byte address of `AGE_CMD`. -/
def ageCmdAddr : Nat := 0x0C0010

/-- A command on an item: refused on a standby for the channels that it does not drive, and for an index beyond 63 (ch.
18). -/
def ageCmd (src : Source) (item : Byte) (f : Fin 64 → State → State) (s : State) : State :=
  if h : item.toNat < 64 then
    if s.standby ∧ 16 ≤ item.toNat ∧ item.toNat ≤ 35 then logWerr 8 src ageCmdAddr s else f ⟨item.toNat, h⟩ s
  else logWerr 9 src ageCmdAddr s

/-- ACK_DUE clears the item's bit; it is set again when the margin has fallen by a further 10 % (R478). -/
def ageAck (i : Fin 64) (s : State) : State :=
  s.setItem i fun x => if x.due then { x with ack := true, ackMargin := x.margin } else x

/-- REBASE: the next value is the baseline; SERVICE_DUE clears (R477, R478). -/
def ageRebase (i : Fin 64) (s : State) : State :=
  let x := s.age.items[i]
  let s1 := s.setItem i fun x =>
    { x with base := none, hist := [], held := 0, due := false, ack := false, atLimit := false, days := 0xFFFF,
             trendN := 0, trendD := 1 }
  if x.due then ageEvent 2 i.val (x.margin / 100) s1 else s1

/-- Items whose bit in `AGE_DUE0` and `AGE_DUE1` is set. -/
def dueBits (s : State) : Nat :=
  (List.finRange 64).foldl (fun n i => if s.age.items[i].due && !s.age.items[i].ack then n + 2 ^ i.val else n) 0

/-- Code of `AGE_STAT.STATE`. -/
def AgeState.code : AgeState → Nat
  | .off => 0
  | .restoring => 1
  | .run => 2

/-- A read of an AGE or TST register, without effect. -/
def ageRead (s : State) (off : Nat) : Option Word :=
  let a := s.age
  let n := ((List.finRange 64).filter fun i => a.items[i].due).length
  if off = 0x000 then
    some (put 28 4 a.st.code ||| putB 27 a.suspect ||| putB 26 a.scanning ||| put 16 8 a.wfail ||| put 0 7 n)
  else if off = 0x004 then some (BitVec.ofNat 32 (dueBits s))
  else if off = 0x008 then some (BitVec.ofNat 32 (dueBits s / 2 ^ 32))
  else if off = 0x010 ∨ off = 0x800 then some 0
  else if off = 0x804 then
    some (put 16 16 s.tst.detail ||| put 12 4 s.tst.st ||| put 8 4 s.tst.face ||| put 4 4 s.tst.depth ||| put 0 4 s.tst.chan)
  else if 0x1000 ≤ off ∧ off < 0x2000 then some (if a.st = .off then 0 else BitVec.ofNat 32 (dataNat (ledgerBytes s) (off - 0x1000) 4))
  else none

/-! ### Meanings -/

/-- AGE_REF_CHECK (R470). -/
def execAgeRefCheck (c : Fin 16) (a b : Int) (s : State) : Host.Outcome State Fault Refusal := .next (ageTake (.ref c a b) s)

/-- AGE_AO_GAIN (R471). -/
def execAgeAoGain (c : Fin 4) (err : Int) (secs : Nat) (s : State) : Host.Outcome State Fault Refusal :=
  .next (ageTake (.gain c err secs) s)

/-- AGE_DIO_SWITCH (R472). -/
def execAgeDioSwitch (c : Fin 16) (r25 : Nat) (s : State) : Host.Outcome State Fault Refusal := .next (ageTake (.switch c r25) s)

/-- AGE_TCXO_SAMPLE (R473). -/
def execAgeTcxoSample (s : State) : Host.Outcome State Fault Refusal := .next (ageTake .tcxo s)

/-- AGE_HOLD_TEST (R474). -/
def execAgeHoldTest (cap esr : Nat) (partner abandoned : Bool) (s : State) : Host.Outcome State Fault Refusal :=
  .next (ageTake (.hold cap esr partner abandoned) s)

/-- AGE_EMMC_WEAR (R475). -/
def execAgeEmmcWear (lifeA lifeB eol : Byte) (s : State) : Host.Outcome State Fault Refusal :=
  .next (ageTake (.wear lifeA lifeB eol) s)

/-- AGE_BARRIER_TEST (R476). -/
def execAgeBarrierTest (d : Fin 24) (r : Nat) (s : State) : Host.Outcome State Fault Refusal := .next (ageTake (.barrier d r) s)

/-- AGE_LEDGER_PAGE (R480). -/
def execAgeLedgerPage (ok : Bool) (s : State) : Host.Outcome State Fault Refusal := .next (ledgerPage ok s)

/-- AGE_LEDGER_SCAN_DONE (R480). -/
def execAgeLedgerScanDone (s : State) : Host.Outcome State Fault Refusal :=
  .next (if s.age.scanning then ledgerRestore s else s)

/-- AGE_ACK_DUE (R478). -/
def execAgeAckDue (src : Source) (item : Byte) (s : State) : Host.Outcome State Fault Refusal := .next (ageCmd src item ageAck s)

/-- AGE_REBASE (R477). -/
def execAgeRebase (src : Source) (item : Byte) (s : State) : Host.Outcome State Fault Refusal := .next (ageCmd src item ageRebase s)

/-- AGE_TEST_HOLD (R474): the test runs now. -/
def execAgeTestHold (cap esr : Nat) (partner abandoned : Bool) (s : State) : Host.Outcome State Fault Refusal :=
  .next (ageTake (.hold cap esr partner abandoned) s)

/-- AGE_MEASURE (R469): the item is measured now. -/
def execAgeMeasure (m : AgeMeas) (s : State) : Host.Outcome State Fault Refusal := .next (ageTake m s)

/-- AGE_CMD_BAD_OP (R478). -/
def execAgeCmdBadOp (src : Source) (s : State) : Host.Outcome State Fault Refusal := .next (logWerr 9 src ageCmdAddr s)

/-- TIM_FREE (R347): time is no longer locked, and the oscillator correction acts (R473). -/
def execTimFree (s : State) : Host.Outcome State Fault Refusal := .next (oscApply (timFree s))

end Sys2Proof.Machine
end

