-- ==== Sys2Proof/Machine/Router.lean ====
section
/-! DEFINITION. Router: the event router's records, claims, ends of interrupt, enables and interrupt lines (R454 to
R466). -/
namespace Sys2Proof.Machine

open Sys2Proof

/-- EVR answers: FCE is ready and the module is not in BARE (R91, R466). -/
def evrUp (s : State) : Bool := regionUp rFCE s && !s.bare

/-- Sources 56 to 63 have no enable and no pending bit (R454). -/
def srcReserved (n : Nat) : Bool := decide (56 ≤ n ∧ n ≤ 63)

/-- The host is idle: filtered sleep contact or idle doorbell (R452). -/
def hostIdle (s : State) (h : Fin 2) : Bool := s.hp[h].slp || s.hp[h].idle

/-- The interrupt line of a host driven to a level (R464). -/
def setLine (h : Fin 2) (low : Bool) (s : State) : State :=
  { s with sys := { s.sys with pins := { s.sys.pins with intLow := s.sys.pins.intLow.set h low } } }

/-- The line of a host is low. -/
def lineLow (s : State) (h : Fin 2) : Bool := s.sys.pins.intLow[h]

/-- The running priority of a host, none while its stack is empty (R460). -/
def EvrHost.running (k : EvrHost) : Option Nat := k.stack.head?.map (·.1)

/-- A record of the source is unclaimed in the host's ring (R459). -/
def EvrHost.hasUnclaimed (k : EvrHost) (src : Nat) : Bool :=
  k.unclaimed.any fun i => (tblGet ({} : RingRec) k.ring i).src == src

/-- A slot is not free: unclaimed, or claimed and not yet ended (R461). -/
def EvrHost.slotBusy (k : EvrHost) (i : Nat) : Bool :=
  k.unclaimed.contains i || k.stack.any fun p => p.2 == i

/-- A source is eligible for a record in its host's ring (R459). -/
def eligible (e : Evr) (h : Fin 2) (n : Fin 512) : Bool :=
  let x := e.srcs[n]
  let k := e.hosts[h]
  x.pend && x.en && !e.hold && x.target == h && !srcReserved n.val &&
    (match k.running with | none => true | some p => decide (p < x.pri.toNat)) && !k.hasUnclaimed n.val

/-- The eligible source of highest priority, the lower number first between equals (R459). -/
def nextSource (e : Evr) (h : Fin 2) : Option (Fin 512) :=
  (List.finRange 512).foldl (fun best n =>
    if eligible e h n then
      match best with
      | none => some n
      | some b => if e.srcs[b].pri.toNat < e.srcs[n].pri.toNat then some n else best
    else best) none

/-- The record that a source's latched state gives (R458). -/
def recordOf (n : Nat) (x : EvrSrc) : RingRec :=
  { src := n, pri := x.pri.toNat, count := x.count, sat := x.sat, soft := x.soft, time := x.time, payload := x.payload }

/-- What a source keeps once its record is written: count and marks have moved into the record (R458). -/
def EvrSrc.drained (x : EvrSrc) : EvrSrc := { x with pend := false, count := 0, sat := false, soft := false }

/-- The host's ring with one record entered at the write index (R459). -/
def EvrHost.enter (k : EvrHost) (r : RingRec) : EvrHost :=
  { k with ring := tblPut {} k.ring k.write r, unclaimed := k.unclaimed ++ [k.write], write := (k.write + 1) % 1024,
           waking := if k.waking = some r.src then none else k.waking }

/-- COUNT of `EVR_MOD_x`, 1 when 0 (R464). -/
def modCount (w : Word) : Nat := if fld w 16 10 = 0 then 1 else fld w 16 10

/-- With `n` records in the window, of which `pri` is the highest priority, the moderation lets the line fall (R464). -/
def modFires (s : State) (h : Fin 2) (n pri : Nat) : Bool :=
  let w := s.evr.hosts[h].mod
  decide (fld w 0 16 = 0) || decide (modCount w ≤ n) || (decide (fld w 28 4 ≠ 0) && decide (fld w 28 4 ≤ pri)) ||
    hostIdle s h

/-- Moderation after a record was written: a window opens while the line is high, and the line falls when the
moderation allows it (R464). -/
def moderate (h : Fin 2) (pri : Nat) (s : State) : State :=
  if lineLow s h then s
  else
    let n := (s.evr.hosts[h].window.getD 0) + 1
    let top := max pri (if n = 1 then 0 else s.evr.hosts[h].winPri)
    let s1 := { s with evr := s.evr.setHost h fun k => { k with window := some n, winPri := top } }
    if modFires s1 h n top then setLine h true s1 else s1

/-- A record that waits in an open window is judged anew (R464). -/
def modJudge (h : Fin 2) (s : State) : State :=
  let k := s.evr.hosts[h]
  if k.window.isSome && !k.unclaimed.isEmpty && modFires s h (k.window.getD 0) k.winPri then setLine h true s else s

/-- A write of `EVR_MOD_x`, which acts on the open window at once (R464). -/
def modWrite (h : Fin 2) (v : Word) (s : State) : State :=
  modJudge h { s with evr := s.evr.setHost h fun k => { k with mod := v &&& 0xF3FFFFFF } }

/-- The router writes the next record for a host (R459). -/
def evrRecordWrite (h : Fin 2) (s : State) : State :=
  if !evrUp s || s.evr.hosts[h].slotBusy s.evr.hosts[h].write then s
  else
    match nextSource s.evr h with
    | none => s
    | some n =>
      let x := s.evr.srcs[n]
      let e := (s.evr.setSrc n EvrSrc.drained).setHost h fun k => k.enter (recordOf n.val x)
      moderate h x.pri.toNat { s with evr := e }

/-- The line rises when no unclaimed record remains and no DORMANT wake record is to come; the next record opens a new
window (R464, R466). -/
def settleLine (h : Fin 2) (s : State) : State :=
  if s.evr.hosts[h].unclaimed.isEmpty && s.evr.hosts[h].waking.isNone then
    setLine h false { s with evr := s.evr.setHost h fun k => { k with window := none } }
  else s

/-- The word that a claim returns, WAKING as it stands (EVR_CLAIM_x, ch. 17). -/
def claimWord (k : EvrHost) (index pri src : Nat) : Word :=
  putB 29 k.waking.isSome ||| put 16 10 index ||| put 10 4 pri ||| put 0 10 src

/-- The word of a claim that claims nothing: EMPTY, STACK_FULL and WAKING as they stand, source 0x3FF (R460). -/
def noClaimWord (k : EvrHost) : Word :=
  putB 31 k.unclaimed.isEmpty ||| putB 30 (decide (8 ≤ k.stack.length)) ||| putB 29 k.waking.isSome ||| put 0 10 0x3FF

/-- A read of `EVR_CLAIM_x` that the router answers (R460). -/
def evrClaim (h : Fin 2) (s : State) : Word × State :=
  let k := s.evr.hosts[h]
  match k.unclaimed with
  | [] =>
    (noClaimWord k, { s with evr := s.evr.setHost h fun k =>
      { k with spurious := satInc 255 k.spurious,
               stackFull := if 8 ≤ k.stack.length then satInc 255 k.stackFull else k.stackFull } })
  | i :: rest =>
    if 8 ≤ k.stack.length then
      (noClaimWord k, { s with evr := s.evr.setHost h fun k =>
        { k with spurious := satInc 255 k.spurious, stackFull := satInc 255 k.stackFull } })
    else
      let r := tblGet ({} : RingRec) k.ring i
      if r.withdrawn then
        let w := claimWord k i r.pri 0x3FF
        (w, settleLine h { s with evr := s.evr.setHost h fun k =>
          { k with unclaimed := rest, claims := k.claims + 1, lastClaim := w, spurious := satInc 255 k.spurious } })
      else
        let w := claimWord k i r.pri r.src
        let p := match k.running with | none => r.pri | some q => max q r.pri
        (w, settleLine h { s with evr := s.evr.setHost h fun k =>
          { k with unclaimed := rest, claims := k.claims + 1, lastClaim := w, stack := (p, i) :: k.stack } })

/-- The host's next read of its claim register ends its idle doorbell (R452). -/
def clearIdle (h : Fin 2) (s : State) : State :=
  { s with hp := s.hp.set h { s.hp[h] with idle := false } }

/-- A write to `EVR_EOI_x`: the top of the stack is popped and its slot freed (R461). -/
def evrEoi (h : Fin 2) (s : State) : State :=
  { s with evr := s.evr.setHost h fun k =>
      match k.stack with
      | [] => { k with badEoi := satInc 255 k.badEoi }
      | _ :: t => { k with stack := t } }

/-- The router with a function applied to every source of register `n` whose bit is set in `mask`, reserved sources
apart (R454, R456). -/
def Evr.onMask (e : Evr) (n : Fin 16) (mask : Word) (f : EvrSrc → EvrSrc) : Evr :=
  { e with srcs := e.srcs.mapFinIdx fun i x _ =>
      if i / 32 = n.val ∧ bit mask (i % 32) = true ∧ srcReserved i = false then f x else x }

/-- A source is addressed by a write of `mask` to register `n` of a pair (R456). -/
def inMask (n : Fin 16) (mask : Word) (src : Nat) : Bool :=
  decide (src / 32 = n.val) && bit mask (src % 32) && !srcReserved src

/-- Every unclaimed record of a host whose source a write addresses is changed (R456, R462). -/
def EvrHost.onUnclaimed (k : EvrHost) (p : Nat → Bool) (f : RingRec → RingRec) : EvrHost :=
  { k with ring := k.ring.map fun (i, r) => if k.unclaimed.contains i && p r.src then (i, f r) else (i, r) }

/-- Sources are enabled as a recipe's bits say (R456, R467). -/
def evrEnable (n : Fin 16) (mask : Word) (s : State) : State :=
  { s with evr := s.evr.onMask n mask fun x => { x with en := true } }

/-- The source's target is a host port that IDENT marks unused: a recipe could not enable it (R467). -/
def targetUnused (s : State) (x : EvrSrc) : Bool := s.ident7 x.target.val

/-- A write of EVR_EN_SETn addresses a source that a recipe could not enable (R104, R467). -/
def enRefused (s : State) (n : Fin 16) (mask : Word) : Bool :=
  (List.finRange 512).any fun m => inMask n mask m.val && targetUnused s s.evr.srcs[m]

/-- EVR_EN_SETn enables sources; a source whose target is an unused host port is left alone, and the write logged (R104,
R456, R467). -/
def evrEnSet (src : Source) (n : Fin 16) (mask : Word) (s : State) : State :=
  let s1 := { s with evr := s.evr.onMask n mask fun x => if targetUnused s x then x else { x with en := true } }
  if enRefused s n mask then logWerr 9 src (0x010200 + 4 * n.val) s1 else s1

/-- EVR_EN_CLRn masks sources; their unclaimed records take MASKED (R456, R462). -/
def evrEnClr (n : Fin 16) (mask : Word) (s : State) : State :=
  let e := s.evr.onMask n mask fun x => { x with en := false }
  { s with evr := { e with hosts := e.hosts.map (EvrHost.onUnclaimed · (inMask n mask) fun r => { r with masked := true }) } }

/-- EVR_PND_SETn: an occurrence with payload 0 and the SOFT mark (R456). -/
def evrPndSet (n : Fin 16) (mask : Word) (s : State) : State :=
  { s with evr := s.evr.onMask n mask fun x => { x.occur 0 s.stamp with soft := true } }

/-- EVR_PND_CLRn clears pending, count and marks and withdraws the unclaimed records (R456). -/
def evrPndClr (n : Fin 16) (mask : Word) (s : State) : State :=
  let e := s.evr.onMask n mask EvrSrc.drained
  { s with evr := { e with hosts := e.hosts.map (EvrHost.onUnclaimed · (inMask n mask) fun r => { r with withdrawn := true }) } }

/-- The count of the source's unclaimed record in a ring, none where it has none there or it is withdrawn. -/
def unclaimedCount (k : EvrHost) (src : Nat) : Option Nat :=
  (k.unclaimed.find? fun i =>
      (tblGet ({} : RingRec) k.ring i).src == src && !(tblGet ({} : RingRec) k.ring i).withdrawn).map
    fun i => (tblGet ({} : RingRec) k.ring i).count

/-- A change of `EVR_SRCn.TARGET` withdraws the record in the old host's ring and adds its count back (R456). -/
def evrTargetChange (n : Fin 512) (t : Fin 2) (s : State) : State :=
  let x := s.evr.srcs[n]
  if x.target = t then s
  else
    let old := s.evr.hosts[x.target]
    match unclaimedCount old n.val with
    | none => { s with evr := s.evr.setSrc n fun x => { x with target := t } }
    | some c =>
      let e := s.evr.setHost x.target fun k => k.onUnclaimed (· == n.val) fun r => { r with withdrawn := true }
      { s with evr := e.setSrc n fun x =>
        { x with target := t, pend := true, count := satAdd 255 x.count c, sat := x.sat || decide (255 < x.count + c) } }

/-- A target that a recipe could not give: the source is enabled, and IDENT marks the host port unused (R104, R467). -/
def targetRefused (s : State) (n : Fin 512) (t : Fin 2) : Bool := s.evr.srcs[n].en && s.ident7 t.val

/-- The writer that a command does not name, a free value (log 1). -/
def freeSource (s : State) : Source :=
  match fld s.freeVal 0 2 with
  | 0 => .hostA
  | 1 => .hostB
  | 2 => .chip
  | _ => .imzin 0

/-- `EVR_HOLD.HOLD` is written (R457). -/
def evrHoldWrite (b : Bool) (s : State) : State := { s with evr := { s.evr with hold := b } }

/-- A waiting record's line falls when the host becomes idle (R465). -/
def idleEndsHold (h : Fin 2) (s : State) : State :=
  if hostIdle s h && !s.evr.hosts[h].unclaimed.isEmpty then setLine h true s else s

/-- EVR_RECORD_WRITE (R459). -/
def execEvrRecordWrite (h : Fin 2) (s : State) : Host.Outcome State Fault Refusal := .next (evrRecordWrite h s)

/-- EVR_CLAIM (R460): the read ends the idle doorbell, and claims where the router answers. -/
def execEvrClaim (h : Fin 2) (s : State) : Host.Outcome State Fault Refusal :=
  .next (if evrUp s then (evrClaim h (clearIdle h s)).2 else clearIdle h s)

/-- EVR_EOI (R461). -/
def execEvrEoi (h : Fin 2) (s : State) : Host.Outcome State Fault Refusal :=
  .next (if evrUp s then evrEoi h s else s)

/-- EVR_EN_SET (R104, R456). -/
def execEvrEnSet (src : Source) (n : Fin 16) (mask : Word) (s : State) : Host.Outcome State Fault Refusal :=
  .next (if evrUp s then evrEnSet src n mask s else s)

/-- EVR_EN_CLR (R456, R462). -/
def execEvrEnClr (n : Fin 16) (mask : Word) (s : State) : Host.Outcome State Fault Refusal :=
  .next (if evrUp s then evrEnClr n mask s else s)

/-- EVR_PND_SET (R456). -/
def execEvrPndSet (n : Fin 16) (mask : Word) (s : State) : Host.Outcome State Fault Refusal :=
  .next (if evrUp s then evrPndSet n mask s else s)

/-- EVR_PND_CLR (R456). -/
def execEvrPndClr (n : Fin 16) (mask : Word) (s : State) : Host.Outcome State Fault Refusal :=
  .next (if evrUp s then evrPndClr n mask s else s)

/-- EVR_TARGET_CHANGE (R456); one that a recipe could not give is ignored and logged (R104, R467). -/
def execEvrTargetChange (src : BitVec 9) (target : Fin 2) (s : State) : Host.Outcome State Fault Refusal :=
  .next (if !evrUp s || srcReserved src.toNat then s
    else if targetRefused s src.toFin target then logWerr 9 (freeSource s) (0x011000 + 4 * src.toNat) s.drew
    else evrTargetChange src.toFin target s)

/-- EVR_HOLD_WRITE (R457). -/
def execEvrHoldWrite (hold : Bool) (s : State) : Host.Outcome State Fault Refusal :=
  .next (if evrUp s then evrHoldWrite hold s else s)

/-- EVR_HOLDOFF_EXPIRY (R464): HOLDOFF has passed in an open window. -/
def execEvrHoldoffExpiry (h : Fin 2) (s : State) : Host.Outcome State Fault Refusal :=
  .next (if evrUp s && s.evr.hosts[h].window.isSome && !s.evr.hosts[h].unclaimed.isEmpty then setLine h true s else s)

end Sys2Proof.Machine
end

