-- ==== Sys2Proof/Machine/Checks.lean ====
section
/-! DEFINITION. Checks: the content of each section of a recipe image, and the whole of R89 in its order. `m` is the
image as it stands in a partition or a bank. -/
namespace Sys2Proof.Machine

open Sys2Proof

/-- `n` bytes of a section are 0. -/
def secZero (m : Memory) (id off n : Nat) : Bool := (List.range n).all fun i => bankNat m id (off + i) 1 == 0

/-- A little-endian field of a section lies between two bounds. -/
def secIn (m : Memory) (id off n lo hi : Nat) : Bool :=
  decide (lo ≤ bankNat m id off n) && decide (bankNat m id off n ≤ hi)

/-- A signed field of 16 bits. -/
def secS16 (m : Memory) (id off : Nat) : Int := sfld (BitVec.ofNat 16 (bankNat m id off 2)) 0 16

/-- A word of a section. -/
def secWord (m : Memory) (id off : Nat) : Word := BitVec.ofNat 32 (bankNat m id off 4)

/-- A list of numbers has no repeats. -/
def distinct : List Nat → Bool
  | [] => true
  | a :: t => !t.contains a && distinct t

/-- The manager flag of the header (R87). -/
def imgManager (m : Memory) : Bool := bit (imgFlags m) 0

/-- The paired flag of the header (R87). -/
def imgPaired (m : Memory) : Bool := bit (imgFlags m) 1

/-- KIND of a slot. -/
def slotKind (m : Memory) (n : Nat) : Nat := if n < 80 then bankPt m n 20 1 else 0

/-- The channel behind a physical slot is marked unused (R93). -/
def slotUnused (m : Memory) (n : Nat) : Bool :=
  if n < 16 then (bankNat m secIDENT 4 2).testBit n
  else if n < 20 then (bankNat m secIDENT 6 1).testBit (n - 16)
  else if n < 36 then (bankNat m secIDENT 6 1).testBit (4 + (n - 20) / 8)
  else if n < 40 then (bankNat m secIDENT 6 1).testBit (6 + (n - 36) / 2)
  else false

/-- G, the group count; 0 without a GROUPS section (R274). -/
def imgGroups (m : Memory) : Nat := bankNat m secGROUPS 0 2

/-- M, the member count. -/
def imgMembers (m : Memory) : Nat := bankNat m secGROUPS 2 2

/-- A horn, lamp or engineers' alarm channel, 1 to 16, is a DIO output with SRC 2; 0 names none (R275, R297, R438). -/
def outChanOk (m : Memory) (c : Nat) : Bool :=
  c == 0 || (decide (c ≤ 16) && fld (dioBankCfg m (c - 1))[0] 0 2 == 1 && fld (dioBankCfg m (c - 1))[0] 4 2 == 2)

/-- A point address of a GROUPS entry: its slot exists; on the node itself the slot holds a point; on a worker the
address is the node's own (R9, R275). -/
def memberOk (m : Memory) (w : Nat) : Bool :=
  decide (w < 2 ^ 23) && decide (w % 128 < 80) &&
  (if w / 128 = imgNode m then slotKind m (w % 128) != 0 else imgManager m)

/-! ### ACQ (R132, R162, R192, R210) -/

/-- The AO part (R162). -/
def aoBankOk (m : Memory) : Bool :=
  (List.range 4).all fun c =>
    if slotUnused m (16 + c) then secZero m secACQ (512 + 32 * c) 32
    else aoCfgOk (imgPaired m) (fun k => slotKind m k != 0) (aoBankCfg m c) && secZero m secACQ (512 + 32 * c + 20) 12

/-- The DIO part (R168, R192). A SRC_SLOT of kind 0 is a matter of the POINTS section (R245). -/
def dioBankOk (m : Memory) : Bool :=
  ((List.range 16).all fun c =>
    if slotUnused m (20 + c) then secZero m secACQ (640 + 32 * c) 32
    else dioCfgOk (bankHas m secGROUPS) (fun _ => true) (dioBankCfg m c) && decide (dioBankSet m c < 4) &&
      secZero m secACQ (640 + 32 * c + 20) 12) &&
  buttonsOk ((List.range 16).map (dioBankCfg m))

/-- The ACQ section. -/
def acqOk (m : Memory) : Bool :=
  uiBankOk m && aoBankOk m && dioBankOk m &&
  (List.range 2).all fun c => psBankOk m c (slotUnused m (36 + 2 * c))

/-! ### POINTS (R226, R228, R229, R240 to R245) -/

/-- A binary32 field of a point's entry in an image. -/
def imgPtF (m : Memory) (n off : Nat) : Word := BitVec.ofNat 32 (bankPt m n off 4)

/-- Every binary32 field of an entry is finite (R242). -/
def ptFinite (m : Memory) (n : Nat) : Bool :=
  f32Finite (imgPtF m n 32) && f32Finite (imgPtF m n 36) && f32Finite (imgPtF m n 108) &&
  (List.range 14).all fun i => f32Finite (imgPtF m n (44 + 4 * i))

/-- Bytes of a deviation set (R244). -/
def imgSetN (m : Memory) (k off n : Nat) : Nat := bankNat m secPOINTS (10256 + 16 * (k - 1) + off) n

/-- MIN_MEMBERS of a set, 1 to 8; 0 when unused. -/
def imgSetMin (m : Memory) (k : Nat) : Nat := imgSetN m k 0 1

/-- Bytes of a linearisation table (R244). -/
def imgTabN (m : Memory) (k off n : Nat) : Nat := bankNat m secPOINTS (10384 + 260 * (k - 1) + off) n

/-- A breakpoint's x. -/
def imgTabX (m : Memory) (k i : Nat) : Word := BitVec.ofNat 32 (imgTabN m k (4 + 8 * i) 4)

/-- The enabled limits satisfy HH ≥ H > L ≥ LL (R226). -/
def limitsOk (m : Memory) (n : Nat) : Bool :=
  let en := bankPt m n 25 1
  let hh := imgPtF m n 48
  let h := imgPtF m n 52
  let l := imgPtF m n 56
  let ll := imgPtF m n 60
  let both := fun a b => en.testBit a && en.testBit b
  (!both 3 1 || f32Le h hh) && (!both 1 0 || f32Lt l h) && (!both 0 2 || f32Le ll l) && (!both 3 0 || f32Lt l hh) &&
  (!both 3 2 || f32Lt ll hh) && (!both 1 2 || f32Lt ll h)

/-- Fewest and most inputs of an operator (R240). -/
def opCount : Nat → Nat × Nat
  | 5 => (2, 8)
  | 6 => (2, 2)
  | 7 => (1, 1)
  | 9 => (1, 1)
  | _ => (1, 8)

/-- The terms that an entry uses: those of its operator, then its blocking terms, as first and count. -/
def termRanges (m : Memory) (n : Nat) : List (Nat × Nat) :=
  (if 40 ≤ n then [(bankPt m n 26 2, bankPt m n 28 1)] else []) ++ [(bankPt m n 112 2, bankPt m n 30 1)]

/-- The terms that an entry uses, by number. -/
def termsUsed (m : Memory) (n : Nat) : List Nat :=
  if slotKind m n = 0 then []
  else (termRanges m n).flatMap fun r => (List.range r.2).map fun i => r.1 + i

/-- A term that names a slot: the slot holds a point, is not the entry's own, and the test is in the list (R229, R245). -/
def termSlotOk (m : Memory) (n : Nat) (t : Term) : Bool :=
  slotKind m t.slot != 0 && t.slot != n && decide (t.test ≤ 5)

/-- A whole number that a constant holds; none for another value (R240). -/
def f32Whole (w : Word) : Option Int := if f32Mag w % 2 ^ 149 = 0 then some (f32Int w / 2 ^ 149) else none

/-- The placeholder term of DEV_OF_SET and GROUP (R240). -/
def placeholderOk (m : Memory) (op : Nat) (t : Term) : Bool :=
  t.slot == 0 && t.test == 0 && !t.invert && t.group == 0 && !t.fail &&
  (match f32Whole t.k with
   | none => false
   | some k => if op = 7 then decide (1 ≤ k) && decide (k ≤ 8) && imgSetMin m k.toNat != 0
               else decide (0 ≤ k) && decide (k < imgGroups m))

/-- The operator of a virtual point and its terms (R240, R241). -/
def operatorOk (m : Memory) (n : Nat) : Bool :=
  let op := bankPt m n 21 1
  let first := bankPt m n 26 2
  let count := bankPt m n 28 1
  let terms := (List.range count).map fun i => bankTerm m (first + i)
  decide (1 ≤ op) && decide (op ≤ 9) && decide ((opCount op).1 ≤ count) && decide (count ≤ (opCount op).2) &&
  (slotKind m n == 2) == (op == 8) &&
  (if op = 7 ∨ op = 9 then terms.all (placeholderOk m op)
   else terms.all fun t => termSlotOk m n t && (op == 8 || t.test == 0))

/-- A binary point's analogue settings are 0 (R245). -/
def binaryOk (m : Memory) (n : Nat) : Bool :=
  bankPt m n 24 1 == 0 && bankPt m n 40 2 == 0 && bankPt m n 42 2 == 0 && f32Mag (imgPtF m n 44) == 0 &&
  bankPt m n 25 1 == 0 && bankPt m n 23 1 / 16 == 0 && f32Mag (imgPtF m n 32) == 0 && f32Mag (imgPtF m n 36) == 0

/-- Rates and deviation of an entry (R228, R243, R245). -/
def ratesOk (m : Memory) (n : Nat) : Bool :=
  let en := bankPt m n 25 1
  let tab := bankPt m n 24 1
  let set := bankPt m n 23 1 / 16
  (!(en.testBit 4 || en.testBit 5) || bankPt m n 42 2 != 0) &&
  (!en.testBit 4 || f32Lt 0 (imgPtF m n 80)) && (!en.testBit 5 || f32Lt 0 (imgPtF m n 84)) &&
  (!(en.testBit 6 || en.testBit 7) || set != 0) &&
  decide (set ≤ 8) && (set == 0 || imgSetMin m set != 0) &&
  decide (tab ≤ 16) && (tab == 0 || imgTabN m tab 0 1 != 0)

/-- An entry of a slot with a point (R243, R245). -/
def ptEntryOk (m : Memory) (n : Nat) : Bool :=
  let kind := slotKind m n
  let dly := fun off => decide (bankPt m n off 2 ≤ 36000)
  let blk := (List.range (bankPt m n 30 1)).map fun i => bankTerm m (bankPt m n 112 2 + i)
  decide (kind ≤ 2) && ptFinite m n && decide (bankPt m n 22 1 < 64) && bankPt m n 23 1 / 4 % 4 == 0 &&
  bankPt m n 31 1 == 0 && (List.range 14).all (fun i => bankPt m n (114 + i) 1 == 0) &&
  dly 100 && dly 102 && dly 104 && dly 106 && decide (bankPt m n 28 1 ≤ 8) && decide (bankPt m n 30 1 ≤ 8) &&
  decide (bankPt m n 29 1 ≤ bankPt m n 28 1) &&
  (List.range 4).all (fun i => f32Le 0 (imgPtF m n (64 + 4 * i))) && limitsOk m n && ratesOk m n &&
  (kind != 2 || binaryOk m n) &&
  (if n < 40 then
     !slotUnused m n && bankPt m n 21 1 == 0 && (kind == 2) == (decide (20 ≤ n) && decide (n ≤ 35)) &&
     (kind == 2 || f32Mag (imgPtF m n 32) != 0)
   else
     operatorOk m n && bankPt m n 24 1 == 0 && f32Mag (imgPtF m n 32) == 0 && f32Mag (imgPtF m n 36) == 0) &&
  (termRanges m n).all (fun r => r.2 == 0 || decide (r.1 + r.2 ≤ 512)) && blk.all (termSlotOk m n)

/-- A term's reserved bits, and its constant is finite (R242, R244). -/
def termOk (m : Memory) (i : Nat) : Bool :=
  let b2 := bankNat m secPOINTS (14544 + 8 * i + 2) 1
  b2 / 4 % 4 == 0 && b2 / 32 == 0 && bankNat m secPOINTS (14544 + 8 * i + 3) 1 == 0 && f32Finite (bankTerm m i).k

/-- A deviation set (R244, R245). -/
def setOk (m : Memory) (k : Nat) : Bool :=
  let mm := imgSetMin m k
  let members := ((List.range 80).filter fun n => slotKind m n != 0 && bankPt m n 23 1 / 16 == k).length
  if mm = 0 then secZero m secPOINTS (10256 + 16 * (k - 1)) 16
  else decide (2 ≤ mm) && decide (mm ≤ 16) && decide (mm ≤ members) && imgSetN m k 1 3 == 0 && imgSetN m k 8 8 == 0 &&
    f32Finite (BitVec.ofNat 32 (imgSetN m k 4 4))

/-- A linearisation table (R242, R244, R245). -/
def tabOk (m : Memory) (k : Nat) : Bool :=
  let c := imgTabN m k 0 1
  if c = 0 then secZero m secPOINTS (10384 + 260 * (k - 1)) 260
  else decide (2 ≤ c) && decide (c ≤ 32) && imgTabN m k 1 3 == 0 &&
    (List.range 64).all (fun i => f32Finite (BitVec.ofNat 32 (imgTabN m k (4 + 4 * i) 4))) &&
    (List.range (c - 1)).all (fun i => f32Lt (imgTabX m k i) (imgTabX m k (i + 1))) &&
    (List.range (32 - c)).all (fun i => imgTabN m k (4 + 8 * (c + i)) 8 == 0)

/-- A DIO channel with SRC 1 names a slot that holds a point (R245). -/
def dioSrcOk (m : Memory) : Bool :=
  (List.range 16).all fun c =>
    let w := (dioBankCfg m c)[0]
    fld w 4 2 != 1 || slotKind m (fld w 8 7) != 0

/-- The POINTS section. -/
def pointsOk (m : Memory) : Bool :=
  let used := (List.range 80).flatMap (termsUsed m)
  bankNat m secPOINTS 0 2 == 80 && bankNat m secPOINTS 2 2 == 128 && secZero m secPOINTS 4 12 &&
  ((List.range 80).all fun n =>
    if slotKind m n = 0 then secZero m secPOINTS (16 + 128 * n) 128 else ptEntryOk m n) &&
  distinct used && (List.range 8).all (fun k => setOk m (k + 1)) && (List.range 16).all (fun k => tabOk m (k + 1)) &&
  ((List.range 512).all fun i => termOk m i && (used.contains i || secZero m secPOINTS (14544 + 8 * i) 8)) && dioSrcOk m

/-! ### GROUPS (R274, R275) -/

/-- A scope entry (R274, R275). -/
def scopeOk (m : Memory) (a : Nat) : Bool :=
  let o := 16 + 8 * a
  let kind := bankNat m secGROUPS o 1
  decide (kind ≤ 3) && decide (bankNat m secGROUPS (o + 1) 1 ≤ 1) && decide (bankNat m secGROUPS (o + 4) 4 < 2 ^ 23) &&
  (kind != 1 || memberOk m (bankNat m secGROUPS (o + 4) 4)) &&
  (kind != 2 || decide (bankNat m secGROUPS (o + 2) 2 < imgGroups m))

/-- A location entry is in use (R274). -/
def locUsed (m : Memory) (i : Nat) : Bool :=
  bankNat m secGROUPS (144 + 4 * i) 2 != 0 || bankNat m secGROUPS (144 + 4 * i + 2) 1 != 0

/-- A group entry (R274, R275). -/
def groupOk (m : Memory) (g : Nat) : Bool :=
  let o := 400 + 32 * g
  let first := bankNat m secGROUPS (o + 20) 2
  let count := bankNat m secGROUPS (o + 22) 2
  decide (1 ≤ count) && decide (count ≤ 1024) && decide (first + count ≤ imgMembers m) &&
  outChanOk m (bankNat m secGROUPS (o + 24) 1) && outChanOk m (bankNat m secGROUPS (o + 25) 1) &&
  decide (bankNat m secGROUPS (o + 26) 1 < 4) && secZero m secGROUPS (o + 28) 4

/-- The members that a group takes, by entry number. -/
def groupTakes (m : Memory) (g : Nat) : List Nat :=
  (List.range (bankNat m secGROUPS (400 + 32 * g + 22) 2)).map fun i => bankNat m secGROUPS (400 + 32 * g + 20) 2 + i

/-- A DIO input with FUNC 1 names a used scope entry (R275). -/
def ackButtonsOk (m : Memory) : Bool :=
  (List.range 16).all fun c =>
    let w := (dioBankCfg m c)[0]
    fld w 20 4 != 1 || bankNat m secGROUPS (16 + 8 * fld w 24 4) 1 != 0

/-- The GROUPS section. -/
def groupsOk (m : Memory) : Bool :=
  let g := imgGroups m
  let n := imgMembers m
  decide (g ≤ if imgManager m then 1024 else 32) && decide (n ≤ if imgManager m then 16384 else 256) &&
  decide (bankNat m secGROUPS 4 1 < 16) && decide (bankNat m secGROUPS 5 1 < 8) && secIn m secGROUPS 6 2 10 5000 &&
  outChanOk m (bankNat m secGROUPS 8 1) && outChanOk m (bankNat m secGROUPS 9 1) && secIn m secGROUPS 10 2 1 1440 &&
  decide (bankNat m secGROUPS 12 1 < 4) && secZero m secGROUPS 13 3 && (List.range 16).all (scopeOk m) &&
  ((List.range 64).all fun i => decide (bankNat m secGROUPS (144 + 4 * i + 2) 1 ≤ 1) &&
    bankNat m secGROUPS (144 + 4 * i + 3) 1 == 0) &&
  distinct (((List.range 64).filter (locUsed m)).map fun i => bankNat m secGROUPS (144 + 4 * i) 2) &&
  (List.range g).all (groupOk m) && distinct ((List.range g).flatMap (groupTakes m)) &&
  ((List.range n).all fun i => memberOk m (bankNat m secGROUPS (400 + 32 * g + 4 * i) 4)) && ackButtonsOk m

/-! ### CALL (R296, R297) -/

/-- A roster entry is in use. -/
def imgRosterUsed (m : Memory) (e : Nat) : Bool := bankNat m secCALL (144 + 24 * e) 1 == 1

/-- Kind of a call unit; 0 unused. -/
def imgUnitKind (m : Memory) (u : Nat) : Nat := bankNat m secCALL (528 + 8 * u + 2) 1

/-- A roster entry (R296, R297). -/
def rosterOk (m : Memory) (e : Nat) : Bool :=
  let o := 144 + 24 * e
  let cabin := bankNat m secCALL (o + 1) 1
  if imgRosterUsed m e then
    secZero m secCALL (o + 2) 2 && secZero m secCALL (o + 20) 4 &&
    (cabin == 0xFF || (decide (cabin < 64) && imgUnitKind m cabin == 4 && bankNat m secCALL (528 + 8 * cabin + 3) 1 == e))
  else secZero m secCALL o 24

/-- A unit entry (R296, R297). -/
def unitOk (m : Memory) (u : Nat) : Bool :=
  let o := 528 + 8 * u
  let e := bankNat m secCALL (o + 3) 1
  if imgUnitKind m u = 0 then secZero m secCALL o 8
  else decide (imgUnitKind m u ≤ 5) && secZero m secCALL (o + 4) 4 &&
    (if imgUnitKind m u = 4 then decide (e < 16) && imgRosterUsed m e && bankNat m secCALL (144 + 24 * e + 1) 1 == u
     else e == 0xFF)

/-- The CALL section. -/
def callOk (m : Memory) : Bool :=
  let duty := bankNat m secCALL 9 1
  secIn m secCALL 0 2 10 600 && secIn m secCALL 2 2 10 600 && secIn m secCALL 4 2 30 1800 && secIn m secCALL 6 1 1 30 &&
  secIn m secCALL 7 1 1 30 && decide (bankNat m secCALL 8 1 < 2) &&
  (duty == 0xFF || (decide (duty < 16) && imgRosterUsed m duty)) && outChanOk m (bankNat m secCALL 10 1) &&
  secZero m secCALL 11 5 &&
  ((List.range 1024).all fun g => decide (g < imgGroups m) || !(bankNat m secCALL (16 + g / 8) 1).testBit (g % 8)) &&
  ((List.range 16).all fun c =>
    let w := (dioBankCfg m c)[0]
    fld w 20 4 != 4 || imgRosterUsed m (fld w 24 4)) &&
  (List.range 16).all (rosterOk m) && (List.range 64).all (unitOk m) &&
  distinct (((List.range 64).filter fun u => imgUnitKind m u != 0).map fun u => bankNat m secCALL (528 + 8 * u) 2)

/-! ### NET, PAIR, REC (R352, R353, R384, R407) -/

/-- Three bit timing words of the NET section meet R302. -/
def netTimingOk (m : Memory) (off : Nat) : Bool :=
  canTimingOk (secWord m secNET off) (secWord m secNET (off + 4)) (secWord m secNET (off + 8))

/-- The member entries in use: node numbers. -/
def imgNetMembers (m : Memory) : List Nat :=
  (List.range (bankNat m secNET 35 1)).map fun i => bankNat m secNET (64 + 4 * i) 2

/-- The NET section. -/
def netOk (m : Memory) : Bool :=
  let b := bankNat m secNET 24 1
  let top := b.testBit 0
  let lvl := bankNat m secNET 25 1
  let mgr := bankNat m secNET 26 2
  let cnt := bankNat m secNET 35 1
  let man := imgManager m
  (if top then secZero m secNET 0 12 && man && lvl == 0 && mgr == 0 else netTimingOk m 0 && lvl != 0) &&
  (if man then netTimingOk m 12 else secZero m secNET 12 12 && cnt == 0) &&
  decide (b < 4) && (!b.testBit 1 || top) && decide (lvl ≤ 3) && !(lvl == 3 && man) && secIn m secNET 28 1 5 100 &&
  secIn m secNET 29 1 0 15 && secIn m secNET 30 2 1 2000 && secIn m secNET 32 2 1 1024 && secIn m secNET 34 1 1 60 &&
  decide (cnt ≤ 64) && secIn m secNET 36 2 0 2000 && secZero m secNET 38 26 &&
  ((List.range 64).all fun i =>
    if i < cnt then decide (bankNat m secNET (64 + 4 * i + 2) 1 < 4) && bankNat m secNET (64 + 4 * i + 3) 1 == 0
    else secZero m secNET (64 + 4 * i) 4) &&
  distinct (imgNetMembers m) && ((imgNetMembers m).all fun k => k != imgNode m && (top || k != mgr))

/-- The PAIR section (R384). -/
def pairOk (m : Memory) : Bool :=
  secIn m secPAIR 0 2 1 600 && decide (bankNat m secPAIR 2 1 < 2) && secIn m secPAIR 3 1 5 50 && secZero m secPAIR 4 12

/-- The REC section (R407). -/
def recOk (m : Memory) : Bool :=
  secIn m secREC 0 4 4 64 && secIn m secREC 4 4 4 1024 && secIn m secREC 8 2 1 600 && secIn m secREC 10 2 100 10000 &&
  decide (bankNat m secREC 12 1 < 2) && !(bankNat m secREC 12 1 == 1 && !imgManager m) && secZero m secREC 13 3 &&
  (List.range 80).all fun n =>
    let o := 16 + 12 * n
    let lo := secWord m secREC (o + 4)
    let hi := secWord m secREC (o + 8)
    if slotKind m n = 0 then secZero m secREC o 12
    else decide (bankNat m secREC o 1 ≤ 11) && secZero m secREC (o + 1) 3 &&
      (bankNat m secREC o 1 == 0 || (f32Finite lo && f32Finite hi && f32Lt lo hi))

/-! ### PANEL, FONTS, WAVES (R409, R418, R438 to R440) -/

/-- A font is defined: the FONTS section counts it. -/
def fontDefined (m : Memory) (k : Nat) : Bool := decide (k < bankNat m secFONTS 0 1) && decide (k < 4)

/-- A waveform mode is defined: its band 0 entry has frames (R440). -/
def imgModeDefined (m : Memory) (k : Nat) : Bool := decide (k < 16) && bankNat m secWAVES (32 + 96 * k + 4) 2 != 0

/-- Panel size, frame period and line (R409, R418, R438). -/
def panelSizeOk (m : Memory) : Bool :=
  let cfg := bankNat m secPANEL 0 1
  let w := bankNat m secPANEL 2 2
  let h := bankNat m secPANEL 4 2
  let sdiv := bankNat m secPANEL 6 1
  let line := bankNat m secPANEL 8 2
  let frame := line * 20 * (h + bankNat m secPANEL 7 1)
  decide (cfg ≤ 1) && decide (64 ≤ w) && decide (64 ≤ h) && w % 8 == 0 && decide (w ≤ if cfg = 0 then 1024 else 2560) &&
  decide (h ≤ if cfg = 0 then 768 else 1600) && decide (4 ≤ sdiv) && decide (sdiv ≤ 16) && secIn m secPANEL 7 1 2 32 &&
  decide (11524800 ≤ frame) && decide (frame ≤ 11995200) && decide ((w / 8 + 10) * sdiv ≤ 4 * line) &&
  (if cfg = 0 then secIn m secPANEL 10 2 1 50 else bankNat m secPANEL 10 2 == 0)

/-- The list's room: 4 lines of the list font, and 40 characters of its widest glyph (R438). -/
def panelListOk (m : Memory) : Bool :=
  let f := 16 + 16 * bankNat m secPANEL 22 1
  let hostW := bankNat m secPANEL 54 2
  hostW % 8 == 0 &&
  decide (bankNat m secPANEL 56 2 + bankNat m secPANEL 58 2 + 4 * bankNat m secFONTS (f + 1) 1 ≤ bankNat m secPANEL 4 2) &&
  decide (hostW + 40 * bankNat m secFONTS (f + 2) 1 ≤ bankNat m secPANEL 2 2)

/-- Point addresses of the tag table. -/
def panelTags (m : Memory) : List Nat :=
  (List.range (bankNat m secPANEL 60 2)).map fun i => bankNat m secPANEL (128 + 20 * i) 4

/-- The PANEL section. -/
def panelOk (m : Memory) : Bool :=
  let ofs := sfld (secWord m secPANEL 48) 0 32
  !(bankNat m secIDENT 7 1).testBit 2 && panelSizeOk m && decide (bankNat m secPANEL 1 1 < 4) &&
  secIn m secPANEL 12 2 0 10000 && outChanOk m (bankNat m secPANEL 14 1) && secIn m secPANEL 16 2 0 2500 &&
  secIn m secPANEL 18 2 100 5000 && imgModeDefined m (bankNat m secPANEL 20 1) && imgModeDefined m (bankNat m secPANEL 21 1) &&
  fontDefined m (bankNat m secPANEL 22 1) && fontDefined m (bankNat m secPANEL 23 1) &&
  ((List.range 12).all fun i => decide (-300 ≤ secS16 m secPANEL (24 + 2 * i)) &&
    decide (secS16 m secPANEL (24 + 2 * i) ≤ -30)) &&
  decide (-100000 ≤ ofs) && decide (ofs ≤ 100000) && secIn m secPANEL 52 2 100 2000 && panelListOk m &&
  secIn m secPANEL 60 2 0 1024 && secZero m secPANEL 62 66 &&
  ((panelTags m).all fun a => decide (a < 2 ^ 23) && decide (a % 128 < 80)) && distinct (panelTags m)

/-- The FONTS section: entries and reserved bytes (R439). -/
def fontsOk (m : Memory) : Bool :=
  decide (bankNat m secFONTS 0 1 ≤ 4) && secZero m secFONTS 1 15 &&
  (List.range 4).all fun k =>
    let o := 16 + 16 * k
    let bpp := bankNat m secFONTS o 1
    secZero m secFONTS (o + 3) 5 && secZero m secFONTS (o + 12) 4 && (!fontDefined m k || bpp == 1 || bpp == 4)

/-- The bytes that the FONTS section's indexes name (R89, R439). -/
def fontsNeed (m : Memory) : Nat :=
  (List.range 4).foldl (fun n k =>
    let o := 16 + 16 * k
    let ix := bankNat m secFONTS (o + 8) 4
    if fontDefined m k then
      (List.range 224).foldl (fun n g =>
        let off := bankNat m secFONTS (ix + 4 * g) 3
        let row := (bankNat m secFONTS (ix + 4 * g + 3) 1 * bankNat m secFONTS o 1 + 7) / 8
        if off = 0 then n else max n (off + row * bankNat m secFONTS (o + 1) 1)) (max n (ix + 896))
    else n) 80

/-- The WAVES section: bounds, frame counts, reserved bytes (R440). -/
def wavesOk (m : Memory) : Bool :=
  ((List.range 10).all fun i => decide (secS16 m secWAVES (2 * i) < secS16 m secWAVES (2 * (i + 1)))) &&
  secZero m secWAVES 22 10 &&
  ((List.range 192).all fun i => decide (bankNat m secWAVES (32 + 8 * i + 4) 2 ≤ 256) &&
    secZero m secWAVES (32 + 8 * i + 6) 2) &&
  (List.range 16).all fun k =>
    !imgModeDefined m k || (List.range 12).all fun b => bankNat m secWAVES (32 + 8 * (12 * k + b) + 4) 2 != 0

/-- The bytes that the WAVES section's entries name (R89, R440). -/
def wavesNeed (m : Memory) : Nat :=
  (List.range 192).foldl (fun n i =>
    let c := bankNat m secWAVES (32 + 8 * i + 4) 2
    if c = 0 then n else max n (bankNat m secWAVES (32 + 8 * i) 4 + 64 * c)) 1568

/-! ### EVR (R467) -/

/-- A source is enabled by the EVR section. -/
def evrEnabled (m : Memory) (n : Nat) : Bool := (bankNat m secEVR (n / 8) 1).testBit (n % 8)

/-- One source's word (R467). -/
def evrSrcOk (m : Memory) (n : Nat) : Bool :=
  let w := secWord m secEVR (144 + 4 * n)
  let target := if bit w 8 then 1 else 0
  fld w 24 8 == 0 && fld w 9 7 == 0 && fld w 4 4 == 0 &&
  !(evrEnabled m n && (bankNat m secIDENT 7 1).testBit target) && (fld w 16 8 == 0 || n == 36 || n == 37) &&
  !(srcReserved n && (evrEnabled m n || w != 0))

/-- A watch word: an enabled entry names a source that exists (R77, R467). -/
def watchWordOk (w : Word) : Bool :=
  fld w 26 5 == 0 && fld w 10 5 == 0 && !(bit w 15 && (srcReserved (fld w 0 10) || decide (511 < fld w 0 10))) &&
  !(bit w 31 && (srcReserved (fld w 16 10) || decide (511 < fld w 16 10)))

/-- A port control word that a recipe can hold: IDLE 0, SLP_FILT not 0 (R467). -/
def hpCtlOk (w : Word) : Bool := fld w 24 8 == 0 && fld w 9 7 == 0 && fld w 0 8 == 0 && fld w 16 8 != 0

/-- The EVR section. -/
def evrOk (m : Memory) : Bool :=
  ((List.range 2).all fun h => fld (secWord m secEVR (64 + 4 * h)) 26 2 == 0 && hpCtlOk (secWord m secEVR (72 + 4 * h))) &&
  ((List.range 16).all fun i => watchWordOk (secWord m secEVR (80 + 4 * i))) && (List.range 512).all (evrSrcOk m)

/-! ### The whole image (R89) -/

/-- Bytes that a section's layout takes (R89). -/
def secNeed (m : Memory) (id : Nat) : Nat :=
  match id with
  | 0x01 => 8
  | 0x02 => 1216
  | 0x03 => 18640
  | 0x04 => 400 + 32 * imgGroups m + 4 * imgMembers m
  | 0x05 => 1040
  | 0x06 => 320
  | 0x07 => 16
  | 0x08 => 976
  | 0x09 => 128 + 20 * bankNat m secPANEL 60 2
  | 0x0A => fontsNeed m
  | 0x0B => wavesNeed m
  | 0x0C => 2192
  | _ => 32

/-- A section's length is wrong: shorter than its layout, or longer under minor 0; FONTS and WAVES have no exact
length (R89). -/
def secLenBad (m : Memory) (e : SecEntry) : Bool :=
  decide (e.len < secNeed m e.id) ||
  (imgMinor m == 0 && !(e.id == secFONTS || e.id == secWAVES) && decide (secNeed m e.id < e.len))

/-- A section's content meets its chapter and R504. -/
def secContentOk (m : Memory) (id : Nat) : Bool :=
  match id with
  | 0x01 => identOk m
  | 0x02 => acqOk m
  | 0x03 => pointsOk m
  | 0x04 => groupsOk m
  | 0x05 => callOk m
  | 0x06 => netOk m
  | 0x07 => pairOk m
  | 0x08 => recOk m
  | 0x09 => panelOk m
  | 0x0A => fontsOk m
  | 0x0B => wavesOk m
  | 0x0C => evrOk m
  | _ => ageBankOk m

/-- The section named by an identifier fails its checks, in the order of R89: CRC-16, format version, length, required or
excluded, content. The PANEL rule of R409 also fails where the section is missing and IDENT does not mark the panel
unused. -/
def secFails (m : Memory) (id : Nat) : Bool :=
  match (secEntries m).find? fun e => e.id == id with
  | none => secRequired m id || (id == secPANEL && !(bankNat m secIDENT 7 1).testBit 2)
  | some e =>
    e.crc != crc16 (memBytes m e.off e.len) ||
    (if secKnown id then e.ver != 1 || secLenBad m e || secExcluded m id || !secContentOk m id else imgMinor m == 0)

/-- The first section, in ascending order of identifier, that fails. -/
def secFirstFail (m : Memory) : Option Nat := (List.range 256).find? fun id => secFails m id

/-- What R89 finds wrong with an image: the result code of VERIFY and its detail; none for a valid image (R89, R97). -/
def imageErr (m : Memory) : Option (Nat × Nat) :=
  if headerBad m || lengthBad m then some (rcBAD_HEADER, 0)
  else if imageCrcBad m then some (rcBAD_CRC, 0)
  else match tableErr m [] (secEntries m) with
  | some id => some (rcBAD_SECTION, id)
  | none =>
    match unusedErr m with
    | some id => some (rcBAD_SECTION, id)
    | none =>
      match secFirstFail m with
      | some id => some (rcBAD_SECTION, id)
      | none => none

/-- A recipe whose differences from the active one need a restart: node number, manager or paired flag, CAN bit timing
(R97). -/
def restartOnly (act new : Memory) : Bool :=
  imgNode act != imgNode new || imgManager act != imgManager new || imgPaired act != imgPaired new ||
  (List.range 24).any fun i => bankNat act secNET i 1 != bankNat new secNET i 1

end Sys2Proof.Machine
end

