-- ==== Sys2Proof/Machine/Loopback.lean ====
section
/-! DEFINITION. Loopback: the loopbacks of cells and channels, keepalive echoes of the AO islands, and boundary scan (R148,
R481 to R487). -/
namespace Sys2Proof.Machine

open Sys2Proof

/-- `TST_RES.STATE`: 2 PASS, 3 FAIL. -/
def passCode (pass : Bool) : Nat := if pass then 2 else 3

/-- A loopback's result stands in `TST_RES`, with its event (R489). -/
def testResult (face depth chan st detail : Nat) (s : State) : State :=
  let w := put 12 4 st ||| put 8 4 face ||| put 4 4 depth ||| put 0 4 chan
  ageEvent 6 0 w.toNat { s with tst := { s.tst with detail := min 0xFFFF detail, st := st, face := face, depth := depth, chan := chan } }

/-! ### Commanded loopbacks (R482) -/

/-- A UI loopback: refused unless the island converts; a crumb holds the point for two conversions. -/
def uiLoop (src : Source) (c : Fin 16) (depth : Nat) (pass : Bool) (s : State) : State :=
  if uiCmdRefused s c then testResult 0 depth c.val 4 0 (logWerr 8 src (uiAddr c 0x80) s)
  else
    let s1 := if depth = 1 then s.setUi c fun u => { u with hold := 2, crumbed := true } else s
    testResult 0 depth c.val (passCode pass) 0 s1

/-- A DIO crumb or barrier: refused where the cell does not run. -/
def dioLoop (c : Fin 16) (depth : Nat) (pass : Bool) (s : State) : State :=
  testResult 2 depth c.val (if dioActive s c then passCode pass else 4) 0 s

/-- A DIO crust: refused on a paired standby and outside group NORMAL and WARN, skipped on an input that reads 1. -/
def dioCrust (c : Fin 16) (pass : Bool) (s : State) : State :=
  let g := grpCond s (dioGroup c)
  let st :=
    if !dioActive s c || (s.isPaired && s.standby) || !(g == .normal || g == .warn) then 4
    else if !s.dio[c].output && s.dio[c].level then 5
    else passCode pass
  testResult 2 3 c.val st 0 s

/-- A PS crumb or barrier: refused where the cell does not run. -/
def psLoop (c : Fin 2) (depth : Nat) (pass : Bool) (s : State) : State :=
  testResult 3 depth c.val (if psCounts s c then passCode pass else 4) 0 s

/-- An AO crust reports the largest difference, in codes, as µA; what counts as a pass is not stated: a free value (R482,
log 1). -/
def aoCrust (c : Fin 4) (diff : Nat) (s : State) : State :=
  if aoCode s c = 3 ∨ aoCode s c = 8 then
    testResult 1 3 c.val (passCode (s.freeVal.getLsbD 0)) (diff * 2 / 5) s.drew
  else testResult 1 3 c.val 4 0 s

/-! ### Periodic loopbacks (R483) -/

/-- An island's echo: the keepalive has arrived; after 3 missed echoes in a row the island is isolated (R148, R483). -/
def aoEcho (echoes : BitVec 4) (s : State) (c : Fin 4) : State :=
  if s.aoUnused c.val ∨ s.ao[c].phase = .off then s
  else if bit echoes c.val then aoNotify c s (s.setAo c fun a => { a with keepLost := false, echoMiss := 0 })
  else
    let n := s.ao[c].echoMiss + 1
    let s1 := s.setAo c fun a => { a with echoMiss := n }
    if n = 3 ∧ !isIsolated aobId c.val s then cellFault aobId c.val 0x02 s1 else s1

/-- A cell that runs periodic loopbacks is in service. -/
def loopCell (s : State) : LoopCell → Option (Nat × Nat)
  | .ui c => if uiConverting s c then some (uiBlock c, uiCell c) else none
  | .dio c => if dioActive s c then some (dioBlock c, dioCell c) else none
  | .ps c => if psCounts s c then some (psbId, c.val) else none

/-- A cell's loopbacks run: a second failure isolates it with a block fault of the failure's cause (R43, R483). -/
def periodicLoop (t : LoopCell) (pass retry : Bool) (cause : Fin 5) (s : State) : State :=
  match loopCell s t with
  | none => s
  | some (b, c) => if pass || retry then s else cellFault b c (cause.val + 1) s

/-! ### The DIO field loopback (R484) -/

/-- A channel number of `TST_FIELD`, 1 to 16. -/
def fieldChan (n : BitVec 5) : Option (Fin 16) := if h : 1 ≤ n.toNat ∧ n.toNat ≤ 16 then some ⟨n.toNat - 1, by omega⟩ else none

/-- The loopback can run: both channels of one stopped group, the source an output, the sink an input. -/
def fieldMayRun (s : State) (a b : Fin 16) : Bool :=
  dioGroup a == dioGroup b && dioCode s a == 3 && dioCode s b == 3 && s.dio[a].output && !s.dio[b].output && a != b

/-- TST_FIELD is written. -/
def fieldStart (src sink : BitVec 5) (s : State) : State :=
  let chan := (src.toNat - 1) % 16
  match fieldChan src, fieldChan sink with
  | some a, some b =>
    if fieldMayRun s a b ∧ s.tst.field = none then
      { s with tst := { s.tst with detail := 0, st := 1, face := 2, depth := 4, chan := a.val, field := some (a, b) } }
    else testResult 2 4 chan 4 0 s
  | _, _ => testResult 2 4 chan 4 0 s

/-- The loopback passes: its block is still stopped, every level was read, and the skew is within DEB + 100 µs. -/
def fieldPass (s : State) (b : Fin 16) (levels : Bool) (skew : Nat) : Bool :=
  levels && decide (skew ≤ (s.dio[b]).deb + 100) && dioCode s b == 3

/-- No field loopback runs. -/
def fieldEnd (s : State) : State := { s with tst := { s.tst with field := none } }

/-- The 10 cycles end: every level was read, and the edges, the latest by `skew` µs, lie within DEB + 100 µs. -/
def fieldDone (levels : Bool) (skew : Nat) (s : State) : State :=
  match s.tst.field with
  | none => s
  | some (a, b) => testResult 2 4 a.val (passCode (fieldPass s b levels skew)) skew (fieldEnd s)

/-! ### Boundary scan (R486, R487) -/

/-- Instructions that take the contacts: EXTEST, CLAMP, HIGHZ. -/
def jtagTakes (i : BitVec 4) : Bool := i == 0 || i == 3 || i == 4

/-- An instruction is loaded; while `TRSTN` is low the TAP is in reset. -/
def jtagLoad (i : BitVec 4) (trstn : Bool) (s : State) : State :=
  let s1 := { s with tst := { s.tst with jtag := if trstn then i else 1 } }
  if trstn ∧ jtagTakes i ∧ s.sup.powerGood ∧ s.sys.inp.resetn then supervisorFault 0 0x0C s1 else s1

/-! ### Meanings -/

/-- UI_CRUMB (R482). -/
def execUiCrumb (src : Source) (c : Fin 16) (pass : Bool) (s : State) : Host.Outcome State Fault Refusal :=
  .next (uiLoop src c 1 pass s)

/-- UI_BARRIER (R482). -/
def execUiBarrier (src : Source) (c : Fin 16) (pass : Bool) (s : State) : Host.Outcome State Fault Refusal :=
  .next (uiLoop src c 2 pass s)

/-- AO_CRUST (R482): the writer does not change what the island does. -/
def execAoCrust (_src : Source) (c : Fin 4) (diff : Nat) (s : State) : Host.Outcome State Fault Refusal := .next (aoCrust c diff s)

/-- AO_KEEPALIVE (R148, R483). -/
def execAoKeepalive (echoes : BitVec 4) (s : State) : Host.Outcome State Fault Refusal :=
  .next ((List.finRange 4).foldl (aoEcho echoes) s)

/-- DIO_CRUMB (R482): the writer does not change what the cell does. -/
def execDioCrumb (_src : Source) (c : Fin 16) (pass : Bool) (s : State) : Host.Outcome State Fault Refusal :=
  .next (dioLoop c 1 pass s)

/-- DIO_BARRIER (R482): the writer does not change what the cell does. -/
def execDioBarrier (_src : Source) (c : Fin 16) (pass : Bool) (s : State) : Host.Outcome State Fault Refusal :=
  .next (dioLoop c 2 pass s)

/-- DIO_CRUST (R482): the writer does not change what the cell does. -/
def execDioCrust (_src : Source) (c : Fin 16) (pass : Bool) (s : State) : Host.Outcome State Fault Refusal :=
  .next (dioCrust c pass s)

/-- PS_CRUMB (R482): the writer does not change what the cell does. -/
def execPsCrumb (_src : Source) (c : Fin 2) (pass : Bool) (s : State) : Host.Outcome State Fault Refusal :=
  .next (psLoop c 1 pass s)

/-- PS_BARRIER (R482): the writer does not change what the cell does. -/
def execPsBarrier (_src : Source) (c : Fin 2) (pass : Bool) (s : State) : Host.Outcome State Fault Refusal :=
  .next (psLoop c 2 pass s)

/-- PERIODIC_LOOPBACK (R483). -/
def execPeriodicLoopback (t : LoopCell) (pass retry : Bool) (cause : Fin 5) (s : State) : Host.Outcome State Fault Refusal :=
  .next (periodicLoop t pass retry cause s)

/-- DIO_FIELD_LOOPBACK (R484). -/
def execDioFieldLoopback (src sink : BitVec 5) (s : State) : Host.Outcome State Fault Refusal := .next (fieldStart src sink s)

/-- FIELD_LOOPBACK_DONE (R484). -/
def execFieldLoopbackDone (levels : Bool) (skew : Nat) (s : State) : Host.Outcome State Fault Refusal :=
  .next (fieldDone levels skew s)

/-- JTAG_INSTRUCTION (R487). -/
def execJtagInstruction (i : BitVec 4) (trstn : Bool) (s : State) : Host.Outcome State Fault Refusal := .next (jtagLoad i trstn s)

end Sys2Proof.Machine
end

