-- ==== Sys2Proof/Machine/Supply.lean ====
section
/-! DEFINITION. Supply: feeds, hold-up capacitor, clocks and temperature (R59 to R66, R70, R71, R78, R79). -/
namespace Sys2Proof.Machine

open Sys2Proof

/-- The state with its supply monitor changed. -/
def State.setSup (s : State) (f : Supply → Supply) : State := { s with sup := f s.sup }

/-- The supply monitor with one feed changed. -/
def Supply.setFeed (u : Supply) (f : Fin 2) (g : Feed → Feed) : Supply := { u with feeds := u.feeds.set f (g u.feeds[f]) }

/-- The state with one feed changed. -/
def State.setFeed (s : State) (f : Fin 2) (g : Feed → Feed) : State := s.setSup fun u => u.setFeed f g

/-- A signed value that fills a field of 16 bits; a value outside it leaves the field open. -/
def fit16 (v : Int) (open' : BitVec 64) : Int := if -32768 ≤ v ∧ v ≤ 32767 then v else sfld open' 0 16

/-! ### Feeds (R59 to R61, R66) -/

/-- The monitored quantity of a feed. -/
def feedQuantity (f : Fin 2) : Quantity := if f = 0 then .vin1 else .vin2

/-- Event code of a feed's condition (R79). -/
def feedCode (f : Fin 2) (c : FeedCond) : Nat :=
  0x10 * f.val + (match c with | .low => 1 | .lost => 2 | .high => 3 | .inRange => 4)

/-- A feed takes a condition: register and event (R61). -/
def feedEnter (f : Fin 2) (c : FeedCond) (v : Half) (s : State) : State :=
  supplyEvent (feedQuantity f) (feedCode f c) v (s.setFeed f fun x => { x with cond := c, volt := v })

/-- A feed as measured 1 ms ago: of the measurements every 100 µs the latest that is so old, or the oldest there is
(R69). -/
def Feed.before (x : Feed) : Half := x.hist.getD 10 (x.hist.getLastD x.volt)

/-- Both feeds are LOST. -/
def bothLost (s : State) : Bool := s.sup.feeds[0].cond == .lost && s.sup.feeds[1].cond == .lost

/-- POWER_FAIL, when both feeds are LOST (R66); `volts` is what they measured before (R69). -/
def powerFail (volts : Vector Half 2) (hold : Half) (s : State) : State :=
  if !bothLost s ∨ s.sup.pfail then s
  else
    let s1 := s.setSup fun u => { u with pfail := true, pfTime := s.stamp, pfVolt := volts, holdVolt := hold }
    supplyRaise 0x20 hold { s1 with imz := { s1.imz with pfHb := true } }

/-- A feed leaves LOST: POWER_RESTORED, or in LAST_BREATH the mark for the restart (R66, R68). The power-fail HEARTBEAT
that was due at the next base scan is withdrawn; whether it still goes out R66 does not say (DESIGN CHOICE, log
25). -/
def powerRestore (hold : Half) (s : State) : State :=
  if !s.sup.pfail then s
  else if s.sys.mode = .lastBreath then s.setSup fun u => { u with breathFeed := true, holdVolt := hold }
  else
    let s1 := s.setSup fun u => { u with pfail := false, holdVolt := hold }
    supplyRaise 0x21 hold { s1 with imz := { s1.imz with pfHb := false } }

/-- A feed is LOST, by falling or by reversal (R59, R60). -/
def feedLost (f : Fin 2) (rev : Bool) (v hold : Half) (s : State) : State :=
  let before : Vector Half 2 := #v[s.sup.feeds[0].before, s.sup.feeds[1].before]
  let s1 := if s.sup.feeds[f].cond = .lost then s.setFeed f fun x => { x with volt := v } else feedEnter f .lost v s
  powerFail before hold (s1.setFeed f fun x => { x with rev := rev })

/-- FEED_LOW: a feed below 18.0 V for 1 ms (R60). -/
def execFeedLow (f : Fin 2) (v : Half) (s : State) : Host.Outcome State Fault Refusal :=
  .next (if s.powered ∧ v.toNat < 1800 ∧ (s.sup.feeds[f].cond = .inRange ∨ s.sup.feeds[f].cond = .high) then
    feedEnter f .low v s else s)

/-- FEED_LOST: a feed below 15.0 V for 20 µs (R60). -/
def execFeedLost (f : Fin 2) (v hold : Half) (s : State) : Host.Outcome State Fault Refusal :=
  .next (if s.powered ∧ v.toNat < 1500 ∧ s.sup.feeds[f].cond ≠ .lost then feedLost f false v hold s else s)

/-- FEED_LOST_END: a feed above 16.5 V for 10 ms; it is then in LOW where it is below 18.0 V (R60). -/
def execFeedLostEnd (f : Fin 2) (v hold : Half) (s : State) : Host.Outcome State Fault Refusal :=
  .next (if s.powered ∧ 1650 < v.toNat ∧ s.sup.feeds[f].cond = .lost then
    powerRestore hold (feedEnter f (if v.toNat < 1800 then .low else .inRange) v (s.setFeed f fun x => { x with rev := false }))
  else s)

/-- FEED_HIGH: a feed above 32.5 V for 1 ms (R60). -/
def execFeedHigh (f : Fin 2) (v : Half) (s : State) : Host.Outcome State Fault Refusal :=
  .next (if s.powered ∧ 3250 < v.toNat ∧ (s.sup.feeds[f].cond = .inRange ∨ s.sup.feeds[f].cond = .low) then
    feedEnter f .high v s else s)

/-- FEED_IN_RANGE: a feed leaves LOW above 18.5 V, or HIGH below 32.0 V (R60). -/
def execFeedInRange (f : Fin 2) (v : Half) (s : State) : Host.Outcome State Fault Refusal :=
  .next (if s.powered ∧ ((s.sup.feeds[f].cond = .low ∧ 1850 < v.toNat) ∨ (s.sup.feeds[f].cond = .high ∧ v.toNat < 3200)) then
    feedEnter f .inRange v s else s)

/-- FEED_DISCONNECT: above 34 V for more than 100 ms the feed's switch opens (R59). -/
def execFeedDisconnect (f : Fin 2) (s : State) : Host.Outcome State Fault Refusal :=
  .next (if s.powered then s.setFeed f fun x => { x with isOpen := true } else s)

/-- FEED_RECONNECT: below 32 V for 1 s it closes again (R59). -/
def execFeedReconnect (f : Fin 2) (s : State) : Host.Outcome State Fault Refusal :=
  .next (if s.powered then s.setFeed f fun x => { x with isOpen := false } else s)

/-- FEED_REVERSED: the feed is blocked and reported LOST with its REV bit (R59). -/
def execFeedReversed (f : Fin 2) (hold : Half) (s : State) : Host.Outcome State Fault Refusal :=
  .next (if s.powered then feedLost f true 0 hold s else s)

/-! ### The hold-up capacitor (R64) -/

/-- A held-back HOLD_ABSENT event is released: raised unless `declared` (R64). -/
def absentRelease (declared : Bool) (s : State) : State :=
  if !s.sup.absentHeld then s
  else
    let s1 := s.setSup fun u => { u with absentHeld := false }
    if declared then s1 else supplyRaise 0x30 0 s1

/-- HOLD_ABSENT: the capacitor is classified absent; its event waits until the recipe is loaded or BARE entered (R64). -/
def execHoldAbsent (v : Half) (s : State) : Host.Outcome State Fault Refusal :=
  .next (if s.powered ∧ s.sup.charging then
    let s1 := s.setSup fun u =>
      { u with hold := .absent, charging := false, diodeOpen := false, holdVolt := v, absentHeld := true }
    if s.bare then absentRelease false s1
    else if s.rcp.loaded then absentRelease (s.identFlag 3) s1
    else s1
  else s)

/-- HOLD_OK: `HOLD` has reached its target in a normal time (R64). -/
def execHoldOk (v : Half) (s : State) : Host.Outcome State Fault Refusal :=
  .next (if s.powered ∧ s.sup.charging then
    s.setSup fun u => { u with hold := .ok, charging := false, diodeOpen := false, holdVolt := v } else s)

/-- HOLD_FAULT: the target is not reached within 2 s; charging stops and `HOLD` stays out of the bus (R64). -/
def execHoldFault (v : Half) (s : State) : Host.Outcome State Fault Refusal :=
  .next (if s.powered ∧ s.sup.charging then
    supplyRaise 0x31 v (s.setSup fun u => { u with hold := .fault, charging := false, diodeOpen := true, holdVolt := v })
  else s)

/-- HOLD_CHARGE_RETRY: 60 s after HOLD_FAULT the charger tries again (R64). `SYS_SUP_STAT.HOLD` goes on to read 3, fault,
until the retry is classified, which R64 does not say (DESIGN CHOICE, log 25). -/
def execHoldChargeRetry (s : State) : Host.Outcome State Fault Refusal :=
  .next (if s.powered ∧ s.sup.hold = .fault ∧ !s.sup.charging then s.setSup fun u => { u with charging := true } else s)

/-! ### Clocks (R70, R71) -/

/-- XTAL_HANDOVER: 1 s after power-good the crystal takes over, also while a start is held back (R70). -/
def execXtalHandover (s : State) : Host.Outcome State Fault Refusal :=
  .next (if s.sup.powerGood then { s with sys := { s.sys with onRc := false } } else s)

/-- A failed crystal: CLK32_FAIL (R71). -/
def crystalFailed (s : State) : State :=
  supplyRaise 0x51 0 { s with sys := { s.sys with xtalFail := true } }

/-- Network time is locked (R347). -/
def netTimeLocked (s : State) : Bool := s.tim.st == .locked

/-- CLK_MISMATCH and the decision which clock has failed (R71). -/
def clockMismatch (diff tcxoNet xtalNet : Int) (s : State) : State :=
  let s1 := supplyRaise 0x50 (BitVec.ofInt 16 (fit16 (openDiv diff 100) s.freeVal))
    { s.drew with sys := { s.sys with mismatch := true } }
  let net := netTimeLocked s
  let s2 := if !net ∨ 5000 < xtalNet.natAbs then crystalFailed s1 else s1
  if net ∧ 5000 < tcxoNet.natAbs then supervisorFault 0 0x07 s2 else s2

/-- CLOCK_CHECK: each second of the crystal; the offsets are in 0.01 ppm (R71). -/
def execClockCheck (diff tcxoNet xtalNet : Int) (s : State) : Host.Outcome State Fault Refusal :=
  .next (if s.powered ∧ !s.sys.onRc ∧ !s.sys.xtalFail then
    let s1 := { s.drew with sys := { s.sys with tcxoOfs := fit16 diff s.freeVal } }
    if 50000 < diff.natAbs then clockMismatch diff tcxoNet xtalNet s1 else s1
  else s)

/-! ### Temperature (R78) -/

/-- `SYS_SUP_STAT.TEMP` after a measurement of the back plate, each threshold with a hysteresis of 5 K (R78). -/
def tempNext (old : TempCond) (plate : Int) : TempCond :=
  if 1100 ≤ plate ∨ (old = .over110 ∧ 1050 ≤ plate) then .over110
  else if 1050 ≤ plate ∨ ((old = .high ∨ old = .over110) ∧ 1000 ≤ plate) then .high
  else if plate ≤ -400 ∨ (old = .low ∧ plate ≤ -350) then .low
  else .normal

/-- Event code of a temperature condition (R79). -/
def tempCode : TempCond → Nat
  | .normal => 0x41
  | .low => 0x42
  | .high | .over110 => 0x40

/-- TEMP_MEASURE: every 100 ms; the event of a changed condition, and over-temperature as a module-level fault (R78). A
rise from +105 °C to +110 °C raises no second TEMP_HIGH, its code being in force already, which R78 does not say
(DESIGN CHOICE, log 25). -/
def execTempMeasure (plate die : Half) (s : State) : Host.Outcome State Fault Refusal :=
  .next (if s.powered then
    let p := plate.toInt
    let d := die.toInt
    let t := tempNext s.sup.temp p
    let po := decide (1200 ≤ p) || (s.sup.plateOver && decide (1150 ≤ p))
    let do' := decide (1400 ≤ d) || (s.sup.dieOver && decide (1350 ≤ d))
    let s1 := s.setSup fun u => { u with temp := t, plate := p, die := d, plateOver := po, dieOver := do' }
    let s2 := if tempCode t = tempCode s.sup.temp then s1 else supplyEvent .plate (tempCode t) plate s1
    let s3 := if po ∧ !s.sup.plateOver then supervisorFault 0 0x0B s2 else s2
    if do' ∧ !s.sup.dieOver then supervisorFault 1 0x0B s3 else s3
  else s)

/-! ### The rate limit (R79) -/

/-- The condition of a quantity that is in force, as its event code (R79, R182). -/
def quantityCode (s : State) : Quantity → Nat
  | .vin1 => feedCode 0 s.sup.feeds[0].cond
  | .vin2 => feedCode 1 s.sup.feeds[1].cond
  | .plate => tempCode s.sup.temp
  | .group1 => grpEventCode 0 s.dioBlk.groups[0].cond
  | .group2 => grpEventCode 1 s.dioBlk.groups[1].cond

/-- A quantity whose changes raise no event: a group that the recipe declares unused (R34). -/
def quantityUnused (s : State) : Quantity → Bool
  | .group1 => s.grpUnused 0
  | .group2 => s.grpUnused 1
  | _ => false

/-- SUPPLY_EVENT_HOLDOFF: the 100 ms after an event end, and a condition that differs from the one last reported is
reported, unless the recipe loaded since declares a group unused (R34, R79). -/
def execSupplyEventHoldoff (q : Quantity) (v : Half) (s : State) : Host.Outcome State Fault Refusal :=
  .next (if s.sup.holdoff[quantityIndex q].running then
    let s1 := s.setSup fun u =>
      { u with holdoff := u.holdoff.set (quantityIndex q) { u.holdoff[quantityIndex q] with running := false } }
    if quantityCode s q = s.sup.holdoff[quantityIndex q].last ∨ quantityUnused s q then s1 else supplyEvent q (quantityCode s q) v s1
  else s)

end Sys2Proof.Machine
end

