-- ==== Sys2Proof/Machine/Start.lean ====
section
/-! DEFINITION. Start: what begins and ends a run of the module: power-good, `RESETN`, restarts, LAST_BREATH, and step 7
of the start sequence (R62, R67 to R69, R80, R502). -/
namespace Sys2Proof.Machine

open Sys2Proof

/-! ### The state after a reset -/

/-- What a start keeps: the queue, time, the levels of the contacts, the fault record and the supervisor's restart
budget, power-good with the oscillator in use since, the sampled role and the TAP; the eMMC lies outside the block (R57,
R58, R70, R84, R505). Until the start begins the `HOLD` diode is open: R62 names power-good alone, and not a start that
`RESETN` or `TESTMODE` holds back while power-good stands (DESIGN CHOICE, log 25). -/
def coldStart (s : State) : State :=
  { pending := s.pending, now := s.now, mono := s.mono, drawn := s.drawn,
    sys := { fltLast := s.sys.fltLast, restarts := s.sys.restarts, inp := s.sys.inp, roleB := s.sys.roleB,
             onRc := s.sys.onRc, startMono := s.mono },
    sup := { powerGood := s.sup.powerGood },
    rcp := { recipes := s.rcp.recipes.map fun r => { part := r.part } },
    mmc := { user := s.mmc.user }, rnd := { drawn := s.rnd.drawn }, tst := { jtag := s.tst.jtag } }

/-- Steps 1 and 2: the PLL locks, `ROLE` is sampled, presence is shown, `HOLD` is charged (R30, R64, R80, R357). -/
def startBegin (s : State) : State :=
  let s1 := coldStart s
  { s1 with sys := { s1.sys with step := 2, roleB := s.sys.inp.role, pllLock := true, testHold := false,
                                 pins := { s1.sys.pins with presOut := true } }
            sup := { s1.sup with charging := true, diodeOpen := false } }

/-- Power-good is lost, or not yet there: time, the fault record and the restart budget go with it, and the RC oscillator
stands in again (R58, R62, R70). -/
def powerless (s : State) : State :=
  let s1 := coldStart { s with now := 0, mono := 0 }
  { s1 with sys := { s1.sys with fltLast := {}, restarts := [], roleB := false, onRc := true }, sup := {} }

/-- POWER_GOOD: the start begins, unless `TESTMODE` is high or `RESETN` low (R33, R62, R502). -/
def execPowerGood (testmode : Bool) (s : State) : Host.Outcome State Fault Refusal :=
  .next (if s.sup.powerGood then s
    else
      let s1 := powerless s
      let s2 := { s1 with sys := { s1.sys with testHold := testmode, roleB := s.sys.inp.role,
                                               inp := { s1.sys.inp with testmode := testmode } }
                          sup := { s1.sup with powerGood := true } }
      if testmode ∨ !s2.sys.inp.resetn then s2 else startBegin s2)

/-- POWER_GOOD_LOSS (R62). -/
def execPowerGoodLoss (s : State) : Host.Outcome State Fault Refusal := .next (if s.sup.powerGood then powerless s else s)

/-- Boundary scan holds the safe state until its instruction is left (R487). -/
def jtagHolds (s : State) : Bool := jtagTakes s.tst.jtag && s.sys.mode == .safe

/-- The level of `RESETN`. -/
def setResetn (b : Bool) (s : State) : State := { s with sys := { s.sys with inp := { s.sys.inp with resetn := b } } }

/-- RESETN_LOW: every contact is in its reset state (R502). -/
def execResetnLow (s : State) : Host.Outcome State Fault Refusal :=
  .next (if !s.sys.inp.resetn then s
    else if jtagHolds s then setResetn false s
    else
      let s1 := coldStart (setResetn false s)
      { s1 with sys := { s1.sys with testHold := s.sys.testHold } })

/-- RESETN_RISE: the start begins, or waits for power-good (R30, R80, R502). A module that `TESTMODE` held at power-good
stays held until the next power-good, even with `TESTMODE` low since: R33 says only that it does not start at power-good
(DESIGN CHOICE, log 25). -/
def execResetnRise (s : State) : Host.Outcome State Fault Refusal :=
  .next (if s.sys.inp.resetn then s
    else
      let s1 := setResetn true s
      if jtagHolds s ∨ !s.sup.powerGood ∨ s.sys.testHold then s1 else startBegin s1)

/-- ROLE_CHANGE: the sampled role is kept, and the change is logged (R30). -/
def execRoleChange (level : Bool) (s : State) : Host.Outcome State Fault Refusal :=
  .next (let s1 := { s with sys := { s.sys with inp := { s.sys.inp with role := level } } }
    if level ≠ s.sys.inp.role ∧ s.powered then logWerr 3 .chip 0 s1 else s1)

/-- SAFE_STATE_RESTART: where the recipe permits it, at most 3 times in 60 min (R58). -/
def execSafeStateRestart (s : State) : Host.Outcome State Fault Refusal :=
  .next (let l := recent (sec 3600) s.mono s.sys.restarts
    if s.powered ∧ s.sys.mode = .safe ∧ s.identFlag 0 ∧ l.length < 3 ∧ !jtagTakes s.tst.jtag then
      startBegin { s with sys := { s.sys with restarts := s.mono :: l } }
    else s)

/-! ### LAST_BREATH (R67 to R69) -/

/-- The entries that wait in ANN's queue pass to recorder staging (R67 step 2). -/
def annToRec (s : State) : State := (List.range 64).foldl (fun a _ => recEntry false a) s

/-- KEP runs for LAST_BREATH, also where DOZE had powered it down (R67). -/
def breathKep (s : State) : State :=
  if s.sys.regions[rKEP].dozing then
    { s with sys := s.sys.setRegion rKEP fun g => { g with st := .ready, dozing := false } }
  else s

/-- Every output, transmitter supply and excitation is off; HART frames end and trim mode is left (R67 step 3). -/
def outputsOff (s : State) : State := noted allOff (aoEndSpell s)

/-- Ring entries of a commit that is abandoned. -/
def commitEntries : Option Commit → Nat
  | some c => if c.ring then c.records else 0
  | none => 0

/-- The page in progress gets its trailer when its data sectors are written, else it is abandoned (R67 step 5). -/
def breathPage (dataDone : Bool) (s : State) : Bool × Nat × State :=
  match s.recd.busy with
  | none => (false, 0, s)
  | some c =>
    if dataDone then
      let s1 := commitWrite c s
      (false, 0, s1.setRec fun r => { r.setArea c.ring (areaAfter s1 c) with busy := none })
    else (true, commitEntries (some c), s.setRec fun r => { r with busy := none })

/-- Entries that wait or are lost (R69, R402). -/
def breathLost (r : Rec) : Nat := r.lost + r.rgOpen.entries.length + (r.rgWait.map fun p => p.entries.length).sum

/-- The last-breath record's 512 bytes (R69, R402). The step it shows as reached is 6, the step that writes it, which the
spec does not say (DESIGN CHOICE, log 25). -/
def breathBytes (s : State) (abandoned : Bool) (more : Nat) : List Byte :=
  let d := bytesLE 4 0xB7EA0D01 ++ bytesLE 8 s.sup.pfTime.toNat ++ bytesLE 8 s.stamp.toNat ++
    bytesLE 2 s.sup.pfVolt[0].toNat ++ bytesLE 2 s.sup.pfVolt[1].toNat ++
    bytesLE 4 (s.recd.ringArea.seq - 1).toNat ++ bytesLE 4 (breathLost s.recd + more) ++
    bytesLE 4 (6 + (if abandoned then 256 else 0)) ++ List.replicate 472 0
  d ++ bytesLE 4 (crc32 d).toNat

/-- Steps 5 to 7 as far as the eMMC answers: the page, the record in control sector 4, the device to sleep. -/
def breathMedia (dataDone : Bool) (s : State) : State :=
  if ledgerUp s then
    let p := breathPage dataDone s
    (sectorPut 4 (breathBytes p.2.2 p.1 p.2.1) p.2.2).setMmc fun m => { m with st := .sleep }
  else s

/-- Step 1 on the active unit of a pair: the partner takes over, unless its last status shows POWER_FAIL (R67). -/
def breathHand (s : State) : State :=
  if pairHolds s ∧ !bit s.lvn.pFlags 1 then faultFrame s.sys.fltLast.cause s else s

/-- LAST_BREATH as a whole. -/
def lastBreath (hold : Half) (dataDone : Bool) (s : State) : State :=
  let s1 := breathKep (breathHand (supplyRaise 0x22 0 (s.setSup fun u => { u with holdVolt := hold, breathStep := 1 })))
  let s2 := annToRec (swapAbort { s1 with pev := { s1.pev with running := false } })
  let s3 := pnlCut (outputsOff s2)
  let s4 := breathMedia dataDone { s3 with sys := { s3.sys with mode := .lastBreath, power := .lastBreath } }
  restat { s4 with sys := { s4.sys with pins := { s4.sys.pins with faultLow := true, presOut := false, mmcPwr := false,
                                                                   mmcRstn := false } }
                   sup := { s4.sup with breathStep := 7 } }

/-- LAST_BREATH: `HOLD` below 13.0 V while POWER_FAIL stands (R67). -/
def execLastBreath (hold : Half) (dataDone : Bool) (s : State) : Host.Outcome State Fault Refusal :=
  .next (if s.powered ∧ s.sup.pfail ∧ hold.toNat < 1300 ∧ s.sys.mode ≠ .lastBreath then lastBreath hold dataDone s else s)

/-- LAST_BREATH_RESTART: a feed is back and power-good was kept (R68). -/
def execLastBreathRestart (s : State) : Host.Outcome State Fault Refusal :=
  .next (if s.powered ∧ s.sys.mode = .lastBreath ∧ s.sup.breathFeed then startBegin s else s)

/-! ### The EVR section (R467) -/

/-- Router, port controls and watch list take the recipe's values; without the section every source is disabled. -/
def evrLoad (s : State) : State :=
  let has := bankHas s.activeBank secEVR
  { s with
    evr := { s.evr with
      srcs := s.evr.srcs.mapFinIdx fun i x _ =>
        let w := s.cfgWord secEVR (144 + 4 * i)
        { x with en := (s.cfgNat secEVR (i / 8) 1).testBit (i % 8), filt := BitVec.ofNat 8 (fld w 16 8),
                 target := if bit w 8 then 1 else 0, pri := BitVec.ofNat 4 (fld w 0 4) }
      hosts := s.evr.hosts.mapFinIdx fun h x _ => { x with mod := s.cfgWord secEVR (64 + 4 * h) } }
    hp := s.hp.mapFinIdx fun h x _ =>
      let w := s.cfgWord secEVR (72 + 4 * h)
      { x with slpFilt := if has then BitVec.ofNat 8 (fld w 16 8) else 1, crcReq := bit w 8, idle := false }
    sys := { s.sys with
      watch := s.sys.watch.mapFinIdx fun n _ _ => s.cfgWord secEVR (80 + 4 * n)
      watchNext := s.sys.watch.mapFinIdx fun n _ _ => s.cfgWord secEVR (80 + 4 * n) } }

/-! ### Step 7 -/

/-- The recorder's generation in force when the settings are loaded: that of a valid descriptor which is not about to be
formatted away (R389, R479). -/
def genAtStart (s : State) : Word :=
  let s1 := s.setRec fun r => { r with ledger := (recSizes s).1, ring := (recSizes s).2 }
  if descriptorOk s1 then BitVec.ofNat 32 (dataNat (sectorGet s 0) 4 4) else 0

/-- The substitute values (R243). -/
def substLoad (s : State) : State :=
  { s with pev := { s.pev with pts := s.pev.pts.mapFinIdx fun i p _ => { p with subst := s.ptF i 108 } } }

/-- The islands are powered, and the cells take their settings, without events. -/
def islandsLoad (s : State) : State :=
  let s1 := (List.finRange 16).foldl (fun a c => uiApply (uiLoad a c) c) s
  let s2 := (List.finRange 4).foldl (fun a c => aoApply (aoLoad a c) c) s1
  let s3 := (List.finRange 16).foldl dioLoad s2
  (List.finRange 2).foldl psLoad s3

/-- The islands are powered, and the channels raise the events of what this changes (R133, R163, R193, R207). -/
def islandsUp (s : State) : State := noted islandsLoad s

/-- A paired unit's link trains from step 7 on (R355). -/
def pairTrain (s : State) : State := if s.isPaired ∧ !s.lvn.stop then setPair .training s else s

/-- Step 7: ACQ, ALM, KEP and FCE are configured, the islands are powered, and the services that restore their records
do so (R80, R155, R480). -/
def step7 (s : State) : State :=
  let s1 := settingsLoad (s.setRec fun r => { r with gen := genAtStart s, ledger := (recSizes s).1, ring := (recSizes s).2 })
  let s2 := substLoad (islandsUp s1)
  let s3 := pairTrain (callInit (ageStart (pnlLoad (evrLoad s2))))
  { s3 with sys := { s3.sys with step := 7, dozeEn := s3.identFlag 2 }
            pev := { s3.pev with running := true, period := s3.scanCode } }

end Sys2Proof.Machine
end

