-- ==== Sys2Proof/Machine/Power.lean ====
section
/-! DEFINITION. Power: DOZE, DORMANT and the watch list (R73 to R77, R466). -/
namespace Sys2Proof.Machine

open Sys2Proof

/-- The state with one region changed. -/
def State.setRegion (s : State) (r : Fin 5) (f : Region → Region) : State := { s with sys := s.sys.setRegion r f }

/-- The state with the power state changed. -/
def State.setPower (s : State) (p : Power) : State := { s with sys := { s.sys with power := p } }

/-- Byte address of `SYS_PWR_CTL`. -/
def pwrCtlAddr : Nat := 0x000210

/-! ### DOZE (R74) -/

/-- A region that was powered down for want of work powers up; its READY follows. -/
def dozeUp (r : Fin 5) (s : State) : State :=
  if s.sys.regions[r].dozing then s.setRegion r fun g => { g with st := if g.hold then .held else .init, dozing := false }
  else s

/-- The power state follows DOZE_EN: from RUN to DOZE, or back with KEP and FCE powered up (R74). -/
def dozeSync (s : State) : State :=
  if s.sys.dozeEn then (if s.sys.power = .run ∧ s.sys.mode = .inService then s.setPower .doze else s)
  else if s.sys.power = .doze then dozeUp rFCE (dozeUp rKEP (s.setPower .run)) else s

/-- A write of DOZE_EN. -/
def dozeEnable (en : Bool) (s : State) : State := dozeSync { s with sys := { s.sys with dozeEn := en } }

/-- KEP has work: recipe operations, a page being committed or waiting, a read, an entry queued for REC. -/
def kepBusy (s : State) : Bool :=
  s.rcp.owner.isSome || s.rcp.verifying || s.rcp.cfgPend || s.recd.busy.isSome || s.recd.rgWait != [] || s.recd.slWait != [] ||
  s.recd.rdPend || s.recd.subQ != [] || s.ann.recQ != []

/-- FCE has work: an update of the panel, or an event that waits for a host. -/
def fceBusy (s : State) : Bool :=
  s.pnl.queue != [] || s.pnl.slots != [] || s.rnd.keyPend || (nextSource s.evr 0).isSome || (nextSource s.evr 1).isSome

/-- DOZE_POWER_DOWN: a region without work powers down, and what is outstanding at it is answered ABSENT. Its blocks have no
work, and what State holds of them is kept (R38, R47, R74; log 25). -/
def dozeDown (fce : Bool) (s : State) : State :=
  let r := if fce then rFCE else rKEP
  if s.sys.power = .doze ∧ regionUp r s ∧ !(if fce then fceBusy s else kepBusy s) then
    let s1 := s.setRegion r fun g => { g with st := .down, dozing := true }
    { s1 with fab := fabAbsent r 1 s1.fab }
  else s

/-! ### DORMANT (R75, R76) -/

/-- A point holds an alarm state that DORMANT waits for (R75). -/
def alarmHeld (s : State) : Bool :=
  (List.range 80).any fun n => s.ptUsed n && (match annState (s.ptAt n).flags with | 2 | 3 | 4 | 8 => true | _ => false)

/-- Result of a request for DORMANT, the first case that applies (R75). -/
def dormantCode (s : State) : Nat :=
  if s.bare ∨ !s.identFlag 1 then 1
  else if s.isManager then 2
  else if s.isPaired ∧ s.activeUnit then 3
  else if alarmHeld s then 4
  else 0

/-- A write of 1 to `SYS_PWR_CTL.DORMANT`; outside service and BARE no scan completes, so that it is a command not
permitted in the present state (R75, R104). -/
def dormantAsk (src : Source) (s : State) : State :=
  if !s.bare ∧ !(s.sys.mode == .inService && (s.sys.power == .run || s.sys.power == .doze)) then logWerr 8 src pwrCtlAddr s
  else { s with sys := { s.sys with lastReq := dormantCode s, dormantReq := dormantCode s == 0 } }

/-- A pending frame of a controller on the bus goes out. -/
def canFlush (k : Fin 4) (s : State) : State :=
  (List.finRange 32).foldl (fun a b => if bit a.can[k].txPend b.val ∧ a.can[k].onBus then canSent k b 0 a else a) s

/-- The HEARTBEAT with the dormant flag goes out alone, and every controller is OFF. What becomes of frames still pending
R75 does not say: they are aborted (DESIGN CHOICE, log 25). -/
def dormantBeat (s : State) : State :=
  let s1 := imzBeat true false ((List.finRange 4).foldl (fun a k => canAbortAll k none (fun _ => true) a) s)
  (List.finRange 4).foldl (fun a k => canSetMode k 0 (canFlush k a)) s1

/-- Every region powers down; memory arrays, output latches and AO islands are kept (R73). -/
def regionsDown (s : State) : State :=
  (List.finRange 5).foldl (fun a r =>
    let b := (regionClear r a).setRegion r fun g => { g with st := .down, dozing := false }
    { b with fab := fabAbsent r 1 b.fab }) s

/-- The UI islands are off (R73). -/
def islandsOff (s : State) : State := { s with ui := s.ui.map fun u => { u with phase := .off, excOn := false, txsOn := false } }

/-- DORMANT is entered: the outputs go to the safe state, the regions down, the UI islands off (R73, R75). The level of
`LV_PRES_OUT` in DORMANT is not stated: it goes low, and high at the wake (DESIGN CHOICE, log 25). -/
def dormantEnter (s : State) : State :=
  let s1 := dioMark (dormantBeat (swapAbort s))
  let s2 := cellNotify s1 (islandsOff (regionsDown (driveSafe (s1.setPower .dormant))))
  let s3 := { s2 with sys := { s2.sys with dormantReq := false, pllLock := false,
                                           pins := { s2.sys.pins with presOut := false } } }
  s3.setMmc fun m => { m with st := if m.st = .off then .off else .sleep }

/-- Sources that the proofing domain watches in DORMANT (R77). -/
def watchable (n : Nat) : Bool := (decide (20 ≤ n) && decide (n ≤ 41)) || n == 50 || n == 51 || n == 52

/-- The watch list holds an enabled entry for a source (R77). -/
def watched (s : State) (n : Nat) : Bool :=
  (List.finRange 16).any fun i =>
    (bit s.sys.watch[i] 15 && fld s.sys.watch[i] 0 10 == n) || (bit s.sys.watch[i] 31 && fld s.sys.watch[i] 16 10 == n)

/-- The source that fired has its event, with a payload that the spec leaves open where its block has raised none, and
its host's line is pulled low until the record is claimed (R466). -/
def wakeSource (n : Fin 512) (s : State) : State :=
  let s1 := if s.evr.srcs[n].pend then s else raise n.val (BitVec.ofNat 32 s.freeVal.toNat) s.drew
  let h := s1.evr.srcs[n].target
  setLine h true { s1 with evr := s1.evr.setHost h fun k => { k with waking := some n.val } }

/-- The module wakes: the PLL and the regions restart, watch words written meanwhile take effect, and the start sequence
goes on from the islands (R76, ch. 3 Caution). -/
def wakeUp (code : Nat) (s : State) : State :=
  let s1 := { s with sys := { s.sys with power := .start, mode := .starting, wakeSrc := code, pllLock := true, outEn := false,
                                         watch := s.sys.watchNext, step := 7,
                                         pins := { s.sys.pins with presOut := true } } }
  let s2 := (List.finRange 5).foldl (fun a r => a.setRegion r fun g => { g with st := if g.hold then .held else .init }) s1
  let s3 := (s2.setMmc fun m => { m with st := if m.st = .off then .off else .init }).setImz fun z => { z with joined := false }
  let s4 := cellNotify s ((List.finRange 16).foldl uiApply (aoLetGo (dioReleaseAll s3)))
  restat (pairTrain s4)

/-- A write of 1 to `SYS_PWR_CTL.WAKE` (R74, R76). -/
def wakeCmd (s : State) : State :=
  if s.sys.power = .dormant then wakeUp 0x3FE s
  else if s.sys.power = .doze then dozeUp rFCE (dozeUp rKEP s) else s

/-! ### Meanings -/

/-- DOZE_ENABLE (R74): the writer makes no difference. -/
def execDozeEnable (_src : Source) (en : Bool) (s : State) : Host.Outcome State Fault Refusal := .next (dozeEnable en s)

/-- DOZE_POWER_DOWN (R74). -/
def execDozePowerDown (fce : Bool) (s : State) : Host.Outcome State Fault Refusal := .next (dozeDown fce s)

/-- DOZE_POWER_UP (R74). -/
def execDozePowerUp (fce : Bool) (s : State) : Host.Outcome State Fault Refusal :=
  .next (if s.sys.power = .doze then dozeUp (if fce then rFCE else rKEP) s else s)

/-- DORMANT_REQUEST (R75). -/
def execDormantRequest (src : Source) (s : State) : Host.Outcome State Fault Refusal := .next (dormantAsk src s)

/-- DORMANT_ENTRY (R75): an accepted request takes effect once the scan has completed. -/
def execDormantEntry (s : State) : Host.Outcome State Fault Refusal :=
  .next (if s.sys.dormantReq ∧ s.sys.mode = .inService then dormantEnter s else s)

/-- WAKE_COMMAND (R74, R76): the writer makes no difference. -/
def execWakeCommand (_src : Source) (s : State) : Host.Outcome State Fault Refusal := .next (wakeCmd s)

/-- DORMANT_WAKE: a watched source fires, or with none a feed condition changes (R76, R77). -/
def execDormantWake (src : Option (BitVec 9)) (s : State) : Host.Outcome State Fault Refusal :=
  .next (if s.sys.power = .dormant then
    match src with
    | none => wakeUp 0x3FE s
    | some n => if watchable n.toNat ∧ watched s n.toNat then wakeUp n.toNat (wakeSource n.toFin s) else s
  else s)

end Sys2Proof.Machine
end

