-- ==== Sys2Proof/Machine/Boot.lean ====
section
/-! DEFINITION. Boot: the eMMC's initialisation, the selection and loading of the recipes, BARE, the boot-config record
after a swap, and a partner's update (R80, R83 to R92, R102, R380). -/
namespace Sys2Proof.Machine

open Sys2Proof

/-- The power and reset contacts of the eMMC. -/
def mmcPower (on : Bool) (s : State) : State :=
  { s with sys := { s.sys with pins := { s.sys.pins with mmcPwr := on, mmcRstn := on } } }

/-- The step reached. -/
def setStep (n : Nat) (s : State) : State := { s with sys := { s.sys with step := n } }

/-! ### BARE (R91, R92) -/

/-- `CAN_NBT` of an arbitration rate of the search: 1000, 500, 250, 125 kbit/s (R304). -/
def bareNbt : Nat → Word
  | 0 => 0x0F3E0F00
  | 1 => 0x1F7E1F00
  | 2 => 0x1F7E1F01
  | _ => 0x1F7E1F03

/-- `CAN_DBT` of a data-phase rate of the search: 5, 8, 2, 4 Mbit/s (R304). -/
def bareDbt : Nat → Word
  | 0 => 0x030A0300
  | 1 => 0x01060100
  | 2 => 0x091C0900
  | _ => 0x040D0400

/-- `CAN_TDC` of a data-phase rate of the search. -/
def bareTdc : Nat → Word
  | 0 => 0x80000C00
  | 1 => 0x80000800
  | 2 => 0x80001E00
  | _ => 0x80000F00

/-- One controller runs the search's combination `n` in a mode. -/
def bareCan (n mode : Nat) (k : Fin 4) (s : State) : State :=
  canSetMode k mode (s.setCan k fun c =>
    { c with nbt := bareNbt (n / 4), dbt := bareDbt (n % 4), tdc := bareTdc (n % 4), fdEn := true })

/-- CAN A and B listen at combination `n`. -/
def bareSearch (n : Nat) (s : State) : State :=
  bareCan n 2 1 (bareCan n 2 0 (s.setRcp fun c =>
    { c with bareCombo := n, bareFound := false, bareErrs := Vector.replicate 2 0 }))

/-- A frame arrived without error: both controllers change to NORMAL at the combination, and integrate (R92, R305). -/
def bareRatesFound (s : State) : State :=
  if s.bare ∧ !s.rcp.bareFound then
    canSetMode 1 1 (canSetMode 0 1 (s.setRcp fun c => { c with bareFound := true, bareErrs := Vector.replicate 2 0 }))
  else s

/-- A received frame ends with an error in BARE: the 32nd in a row of a controller restarts the search (R92). -/
def bareError (k : Fin 2) (s : State) : State :=
  if s.bare ∧ s.rcp.bareFound then
    let n := s.rcp.bareErrs[k] + 1
    if 32 ≤ n then bareSearch 0 s else s.setRcp fun c => { c with bareErrs := c.bareErrs.set k n }
  else s

/-- The module enters BARE (R82, R91). -/
def bareEnter (cause : Nat) (s : State) : State :=
  let s1 := absentRelease false { s with sys := { s.sys with mode := .bare, bareCause := cause, power := .run } }
  restat (bareSearch 0 s1)

/-- A BARE module's claim: its serial number, the BARE flag, the rest 0 (R323, R339). -/
def bareClaimSend (s : State) : State :=
  bareSend { id := frameId 7 0x71 3 bareSource,
             data := bytesLE 8 Config.serial.toNat ++ bytesLE 4 0 ++ bytesLE 1 1 ++ bytesLE 3 0 } s

/-! ### The eMMC (R83) -/

/-- The eMMC answers: bus, timing and size are known; a 1-bit bus raises an event, and settings that could not be written
meanwhile are written, as are the pages that wait (R155, R402, R489). -/
def mmcReady (info : MmcInfo) (s : State) : State :=
  let s1 := (mmcPower true s).setMmc fun m =>
    { m with st := if s.recd.busy.isSome then .busy else .ready, bus4 := info.bus4, hs := info.hs, cap := info.cap.toNat,
             retries := 0 }
  commitNext (settingsRetry (if info.bus4 then s1 else mmcEvent 3 0 s1))

/-- An attempt of start step 3: it succeeds, or the third failure leads into BARE; boot partitions that are too small do
as well. -/
def mmcAttempt (ok : Bool) (info : MmcInfo) (s : State) : State :=
  if ok then
    let s1 := setStep 3 (mmcReady info s)
    if info.bootMult.toNat < 17 then bareEnter 4 s1 else s1
  else
    let n := s.rcp.mmcFails + 1
    let s1 := mmcEvent 1 n (mmcPower false (s.setRcp fun c => { c with mmcFails := n }))
    if 3 ≤ n then bareEnter 2 s1 else s1

/-- The start waits for the eMMC. -/
def mmcAwaited (s : State) : Bool := s.powered && s.sys.mode == .starting && s.sys.step == 2

/-- EMMC_INIT: the first attempt of a start, or the reinitialisation after a reset of KEP or a wake, which ends in MMC's
ERROR when it fails (R83, R402, R406). -/
def execEmmcInit (ok : Bool) (info : MmcInfo) (s : State) : Host.Outcome State Fault Refusal :=
  .next (if mmcAwaited s ∧ s.rcp.mmcFails = 0 then mmcAttempt ok info s
    else if s.mmc.st = .init ∧ regionUp rKEP s then (if ok then mmcReady info s else mmcError 1 s)
    else s)

/-- EMMC_INIT_RETRY: a further attempt, 100 ms after a failed one (R83). -/
def execEmmcInitRetry (ok : Bool) (info : MmcInfo) (s : State) : Host.Outcome State Fault Refusal :=
  .next (if mmcAwaited s ∧ 0 < s.rcp.mmcFails then mmcAttempt ok info s else s)

/-- MMC_REINIT_TIMER: the attempt of every 10 min in ERROR; with its success settings that wait are written (R155, R406). -/
def execMmcReinitTimer (ok : Bool) (s : State) : Host.Outcome State Fault Refusal :=
  .next (settingsRetry (inKep (mmcTimer ok) s))

/-! ### Selection (R86, R90) -/

/-- A partition holds a header: its first 256 bytes are not all 0, as OPEN leaves them (R90, R96; DEDUCED, log 26). -/
def hasHeader (p : Memory) : Bool := (memBytes p 0 256).any fun b => b != 0

/-- What step 4 finds of a recipe: EMPTY, INVALID, or one whose full check is still to come. -/
def headerTake (r : Recipe) : Recipe :=
  if !hasHeader r.part then { r with st := .empty, seq := 0, crc := 0, bank := [] }
  else if headerBad r.part || lengthBad r.part then { r with st := .invalid, seq := 0, crc := 0, bank := [] }
  else { r with st := .verifying, seq := imgSeq r.part, crc := imgCrc r.part, bank := [] }

/-- The recipe may be selected. -/
def Recipe.candidate (r : Recipe) : Bool := !(r.st == .empty || r.st == .invalid)

/-- The boot-config record in use: the recipe it marks, 0 none, and the CRC it holds for each (R85). -/
def bootMark (s : State) : Nat × Vector Word 2 :=
  match cfgInUse s.rcp.recipes[0].part s.rcp.recipes[1].part with
  | none => (0, Vector.replicate 2 0)
  | some i =>
    let p := s.rcp.recipes[i].part
    ((memGet p (cfgBase + 8)).toNat, Vector.ofFn fun k => BitVec.ofNat 32 (memNat p (cfgBase + 16 + 8 * k.val) 4))

/-- A recipe that the record marks, that is valid and whose CRC is the one recorded (R90, rule 1). -/
def bootMarked (s : State) (i : Fin 2) : Bool :=
  let m := bootMark s
  m.1 == i.val + 1 && s.rcp.recipes[i].candidate && s.rcp.recipes[i].crc == m.2[i]

/-- The recipe that R90 selects. -/
def bootChoice (s : State) : Option (Fin 2) :=
  let a := s.rcp.recipes[0]
  let b := s.rcp.recipes[1]
  if bootMarked s 0 then some 0
  else if bootMarked s 1 then some 1
  else if a.candidate then (if b.candidate ∧ a.seq.toNat < b.seq.toNat then some 1 else some 0)
  else if b.candidate then some 1 else none

/-- The selection: a new record and RECIPE_FALLBACK where it differs from the record's mark; BARE where no recipe is
valid (R90). -/
def bootSelect (s : State) : State :=
  match bootChoice s with
  | none => bareEnter 1 (setStep 5 s)
  | some i =>
    let mark := (bootMark s).1
    let s1 := (setStep 5 s).setRcp fun c => { c.setRecipe i (fun r => { r with st := .active }) with active := i }
    if mark = i.val + 1 then s1
    else raise 47 (put 8 8 0x80 ||| put 0 8 (i.val + 1) ||| put 16 8 mark) (writeBootConfig (i.val + 1) 0 false s1)

/-- BOOT_HEADERS_READ: start steps 4 and 5 (R80, R83, R86). -/
def execBootHeadersRead (ok : Bool) (s : State) : Host.Outcome State Fault Refusal :=
  .next (if s.powered ∧ s.sys.mode = .starting ∧ s.sys.step = 3 then
    if ok then bootSelect ((setStep 4 s).setRcp fun c => { c with recipes := c.recipes.map headerTake })
    else bareEnter 3 (setStep 4 s)
  else s)

/-! ### Loading (R80 step 6, R89, R90) -/

/-- The bank of a recipe holds the image of its partition; bytes beyond the image read 0 (R451). -/
def bankLoad (r : Recipe) : Recipe := { r with bank := memWindow r.part 0 (imgLength r.part), seq := imgSeq r.part,
                                               crc := imgCrc r.part }

/-- A recipe that a check has found invalid. -/
def Recipe.fail (r : Recipe) : Recipe := { r with st := .invalid, seq := 0, crc := 0, bank := [] }

/-- ACTIVE_IMAGE_LOADED: the image is in its bank and meets R89, and step 7 follows; else the recipe is marked invalid
and the rules of the selection apply again (R80, R90). -/
def execActiveImageLoaded (ok : Bool) (s : State) : Host.Outcome State Fault Refusal :=
  .next (if s.powered ∧ s.sys.mode = .starting ∧ s.sys.step = 5 then
    let i := s.rcp.active
    if !ok then bareEnter 3 s
    else if (imageErr s.rcp.recipes[i].part).isSome then bootSelect (s.setRcp fun c => c.setRecipe i Recipe.fail)
    else
      let s1 := (setStep 6 s).setRcp fun c =>
        { (c.setRecipe i bankLoad).setRecipe (1 - i) (fun r => { r with st := .verifying }) with loaded := true }
      step7 (absentRelease (s1.identFlag 3) s1)
  else s)

/-- The state that a checked image has as the shadow (R90, R97). -/
def shadowState (act part : Memory) : RcpState := if restartOnly act part then .restartOnly else .valid

/-- The shadow's bank is loaded from its partition, and the shadow shows what the check found (R40, R90). -/
def shadowLoad (ok : Bool) (s : State) : State :=
  let i : Fin 2 := 1 - s.rcp.active
  let act := s.activeBank
  s.setRcp fun c => c.setRecipe i fun r =>
    if ok ∧ !hasHeader r.part then { r with st := .empty, seq := 0, crc := 0, bank := [] }
    else if !ok ∨ (imageErr r.part).isSome then r.fail
    else { bankLoad r with st := shadowState act r.part }

/-- SHADOW_LOADED: the load and check in the background end (R90). -/
def execShadowLoaded (ok : Bool) (s : State) : Host.Outcome State Fault Refusal :=
  .next (if s.rcp.loaded ∧ (s.rcp.recipes[1 - s.rcp.active]).st = .verifying ∧ !s.rcp.verifying then shadowLoad ok s else s)

/-! ### BARE's commands (R92) -/

/-- BARE_RATE_SEARCH_STEP: 1 s has passed without a frame. -/
def execBareRateSearchStep (s : State) : Host.Outcome State Fault Refusal :=
  .next (if s.bare ∧ !s.rcp.bareFound then bareSearch ((s.rcp.bareCombo + 1) % 16) s else s)

/-- BARE_ADDR_CLAIM: once a second in NORMAL. -/
def execBareAddrClaim (s : State) : Host.Outcome State Fault Refusal := .next (bareClaimSend s)

/-! ### The boot-config record after a swap (R102) -/

/-- The write that marks the new recipe active ends. -/
def cfgWriteEnd (ok : Bool) (s : State) : State :=
  if ok then
    (writeBootConfig (s.rcp.active.val + 1) s.rcp.cfgCause true s).setRcp fun c =>
      { c with cfgPend := false, cfgFailed := false }
  else mmcEvent 6 0 (s.setRcp fun c => { c with cfgFailed := true })

/-- BOOT_CONFIG_WRITTEN (R102). -/
def execBootConfigWritten (ok : Bool) (s : State) : Host.Outcome State Fault Refusal :=
  .next (if s.rcp.cfgPend ∧ !s.rcp.cfgFailed then cfgWriteEnd ok s else s)

/-- BOOT_CONFIG_RETRY: 10 s after a write that failed (R102). -/
def execBootConfigRetry (ok : Bool) (s : State) : Host.Outcome State Fault Refusal :=
  .next (if s.rcp.cfgPend ∧ s.rcp.cfgFailed then cfgWriteEnd ok s else s)

/-! ### A partner's update (R380) -/

/-- The active image has arrived on a unit that is UPDATING or in BARE: once it is valid, the record marks it and the
unit restarts. -/
def updateTake (ok : Bool) (s : State) : State :=
  let i := imageTarget s
  let p := s.rcp.recipes[i].part
  if ok = false ∨ (imageErr p).isSome then s.setRcp fun c => c.setRecipe i Recipe.fail
  else
    let s1 := s.setRcp fun c => c.setRecipe i fun r => { bankLoad r with st := .valid }
    startBegin (writeBootConfig (i.val + 1) (if s.bare then 4 else 5) false s1)

/-- PARTNER_UPDATE_DONE: the received image is verified; on the unit that sent its shadow, PARTNER_STALE clears (R380). -/
def execPartnerUpdateDone (ok : Bool) (s : State) : Host.Outcome State Fault Refusal :=
  .next (if s.powered then
    let i := imageTarget s
    if (s.bare ∨ s.lvn.st = .updating) ∧ s.lvn.imageKind = 0 ∧ s.rcp.recipes[i].st = .writing then updateTake ok s
    else if s.lvn.st = .standby ∧ s.rcp.recipes[i].st = .writing ∧ s.rcp.owner.isNone then shadowLoad ok s
    else if s.lvn.st.holds ∧ s.rcp.partnerStale ∧ ok ∧ s.lvn.sending.isSome then
      (s.setRcp fun c => { c with partnerStale := false }).setLvn fun v => { v with sending := none }
    else s
  else s)

end Sys2Proof.Machine
end

