-- ==== Sys2Proof/Machine/Rcp.lean ====
section
/-! DEFINITION. Rcp: the operations of `RCP_CMD` and RCP_XFER, the write buffer, and the swap's request (R40, R85, R95 to
R99, R103, R343). -/
namespace Sys2Proof.Machine

open Sys2Proof

/-- RCP takes operations: in BARE, and from start step 6 while KEP is ready. -/
def rcpUp (s : State) : Bool := s.powered && (s.bare || (s.rcp.loaded && regionUp rKEP s))

/-- BARE without an eMMC refuses recipes (R92). -/
def noMedia (s : State) : Bool := s.bare && (s.sys.bareCause == 2 || s.sys.bareCause == 3 || s.sys.bareCause == 4)

/-- Another source owns RCP (R95). -/
def otherOwns (src : Source) (s : State) : Bool :=
  match s.rcp.owner with
  | some o => o != src
  | none => false

/-- OPEN (R95, R96): ownership, a header sector of zeros, a shadow bank that is not valid; `ok`: the sector was written. -/
def rcpOpen (src : Source) (ok : Bool) (s : State) : State :=
  if s.rcp.verifying then rcpEnd 1 rcBUSY 0 s
  else if noMedia s then rcpEnd 1 rcNO_MEDIA 0 s
  else if s.standby then rcpEnd 1 rcPAIR_STANDBY 0 s
  else if otherOwns src s then rcpEnd 1 rcNOT_OWNER 0 s
  else if s.rcp.swapPend then rcpEnd 1 rcBUSY 0 s
  else if !ok then rcpEnd 1 rcMEDIA_ERROR 0 s
  else rcpEnd 1 rcOK 0 (s.setRcp fun c =>
    let c1 := { c with owner := some src, written := [], block0 := [] }
    c1.setRecipe (imageTarget s) fun r =>
      { r with part := memZero r.part 0 512, bank := [], st := .writing, seq := 0, crc := 0 })

/-- A block of the image reaches the partition; block 0 stays in RCP until VERIFY (R96). -/
def blockWrite (n : Nat) (s : State) : State :=
  s.setRcp fun c =>
    let c1 := { c with written := n :: c.written.filter fun m => m != n }
    if n = 0 then { c1 with block0 := c.buf }
    else c1.setRecipe (imageTarget s) fun r => { r with part := memCopyIn r.part (4096 * n) 4096 c.buf }

/-- WRITE_BLOCK (R95, R96, R343): `xfer`, it came by RCP_XFER and needs all 128 chunks. -/
def rcpWriteBlock (src : Source) (xfer : Bool) (n : Nat) (ok : Bool) (s : State) : State :=
  if s.rcp.verifying then rcpEnd 2 rcBUSY 0 s
  else if s.rcp.owner ≠ some src then rcpEnd 2 rcNOT_OWNER 0 s
  else
    let full := !xfer || s.imz.chunks == BitVec.allOnes 128
    let s1 := s.setImz fun z => { z with chunks := 0 }
    if 511 < n then rcpEnd 2 rcBAD_OP n s1
    else if !full then rcpEnd 2 rcINCOMPLETE n s1
    else if !ok then rcpEnd 2 rcMEDIA_ERROR n s1
    else rcpEnd 2 rcOK 0 (blockWrite n s1)

/-- VERIFY starts; on the active unit of a pair the image then goes to the partner (R95, R97, R103). -/
def rcpVerify (src : Source) (s : State) : State :=
  if s.rcp.verifying then rcpEnd 3 rcBUSY 0 s
  else if s.rcp.owner ≠ some src then rcpEnd 3 rcNOT_OWNER 0 s
  else s.setRcp fun c =>
    let c1 := { c with verifying := true }
    c1.setRecipe (imageTarget s) fun r => { r with st := .verifying }

/-- The image that VERIFY checks: the partition with block 0 in place. -/
def verifyImage (s : State) : Memory :=
  memCopyIn s.rcp.recipes[imageTarget s].part 0 4096 s.rcp.block0

/-- The lowest block that R97's first check misses. -/
def missingBlock (s : State) : Option Nat :=
  let n := min 511 ((imgLength s.rcp.block0 - 1) / 4096)
  (List.range (n + 1)).find? fun b => !s.rcp.written.contains b

/-- The first check of R97 that fails, with its result and detail. -/
def verifyErr (s : State) : Option (Nat × Nat) :=
  match missingBlock s with
  | some b => some (rcINCOMPLETE, b)
  | none =>
    match imageErr (verifyImage s) with
    | some e => some e
    | none =>
      if !s.bare ∧ (imgSeq s.rcp.block0).toNat ≤ (s.rcp.recipes[s.rcp.active]).seq.toNat then some (rcSEQ_LOW, 0)
      else none

/-- VERIFY fails: the shadow is INVALID and nothing further is written; the owner stays (R95, R97). -/
def verifyFail (code detail : Nat) (s : State) : State :=
  verifyEnd code detail (s.setRcp fun c => c.setRecipe (imageTarget s) Recipe.fail)

/-- VERIFY succeeds: block 0 is written, the image is in the bank, ownership ends; BARE marks recipe A and restarts (R92,
R95, R97). -/
def verifyDone (partnerAbsent : Bool) (s : State) : State :=
  let m := verifyImage s
  let act := s.activeBank
  let s1 := s.setRcp fun c =>
    let c1 := { c with owner := none, written := [], block0 := [], partnerStale := s.isPaired && partnerAbsent }
    c1.setRecipe (imageTarget s) fun r =>
      { bankLoad { r with part := m } with st := if s.bare then .valid else shadowState act m }
  if s.bare then startBegin (writeBootConfig 1 4 false (verifyEnd rcOK 0 s1)) else verifyEnd rcOK 0 s1

/-- What the partner answers, where the unit has one that its link reaches (R103). -/
def partnerOf (p : PartnerAnswer) (s : State) : PartnerAnswer :=
  if !s.bare ∧ s.isPaired ∧ linkUp s.lvn then p else .absent

/-- VERIFY ends: `fail`, the block whose write or read-back failed; `p`, the partner's answer (R97, R103). -/
def verifyResult (fail : Option Half) (p : PartnerAnswer) (s : State) : State :=
  match verifyErr s with
  | some (c, d) => verifyFail c d s
  | none =>
    match fail with
    | some b => verifyFail rcMEDIA_ERROR b.toNat s
    | none =>
      match partnerOf p s with
      | .refused c d => verifyFail c.toNat d.toNat s
      | .absent => verifyDone true s
      | .accepted => verifyDone false s

/-- CLOSE (R95). -/
def rcpClose (src : Source) (s : State) : State :=
  if s.rcp.verifying then rcpEnd 4 rcBUSY 0 s
  else if s.rcp.owner ≠ some src then rcpEnd 4 rcNOT_OWNER 0 s
  else rcpEnd 4 rcOK 0 (rcpDropWrite s)

/-- The shadow. -/
def shadow (s : State) : Recipe := s.rcp.recipes[1 - s.rcp.active]

/-- Why the shadow may not be put in service: NO_SHADOW, or RESTART_ONLY. -/
def shadowCode (s : State) : Nat := if (shadow s).st = .restartOnly then rcRESTART_ONLY else rcNO_SHADOW

/-- The first condition of R98's table that holds; `same`: the partner's shadow has the same number and CRC-32. -/
def swapRefusal (same : Bool) (s : State) : Option Nat :=
  if s.rcp.owner.isSome ∨ s.rcp.verifying ∨ s.rcp.swapPend ∨ s.rcp.swapWait.isSome then some rcBUSY
  else if (shadow s).st ≠ .valid ∨ s.bare then some (shadowCode s)
  else if s.sup.pfail then some rcPOWER_FAIL
  else if s.activeUnit ∧ s.isPaired ∧ linkUp s.lvn ∧ !same then some rcPARTNER_MISMATCH
  else none

/-- The swap is accepted for the next scan boundary (R99). -/
def swapAccept (src : Source) (s : State) : State :=
  s.setRcp fun c => { c with swapPend := true, swapWait := none, swapSrc := src, swapReq := s.now, swapEpoch := none }

/-- SWAP (R98): with ALM absent it waits for ALM's READY. -/
def rcpSwap (src : Source) (key : Byte) (same : Bool) (s : State) : State :=
  if key ≠ 0x5C then rcpEnd 5 rcBAD_OP 0 s
  else match swapRefusal same s with
  | some c => rcpEnd 5 c 0 s
  | none => if regionUp rALM s then swapAccept src s else s.setRcp fun c => { c with swapWait := some src }

/-- ALM raised READY: the swap that waits for it is judged again (R98). -/
def swapRetry (same : Bool) (s : State) : State :=
  match s.rcp.swapWait with
  | none => s
  | some src =>
    let s1 := s.setRcp fun c => { c with swapWait := none }
    match swapRefusal same s1 with
    | some c => swapFinish c s1
    | none => swapAccept src s1

/-- SET_ACTIVE (R85, R97): a record with cause 5 marks the shadow; `ok`: it was written. -/
def rcpSetActive (key : Byte) (ok : Bool) (s : State) : State :=
  if s.rcp.verifying then rcpEnd 6 rcBUSY 0 s
  else if key ≠ 0x5C then rcpEnd 6 rcBAD_OP 0 s
  else if ((shadow s).st ≠ .valid ∧ (shadow s).st ≠ .restartOnly) ∨ s.bare then rcpEnd 6 rcNO_SHADOW 0 s
  else if !ok then rcpEnd 6 rcMEDIA_ERROR 0 s
  else rcpEnd 6 rcOK 0 (writeBootConfig ((1 - s.rcp.active).val + 1) 5 false s)

/-- RELOAD_SHADOW (R40, R95, R96): `ok`, the partition could be read. -/
def rcpReload (src : Source) (ok : Bool) (s : State) : State :=
  if s.rcp.verifying then rcpEnd 7 rcBUSY 0 s
  else if otherOwns src s then rcpEnd 7 rcNOT_OWNER 0 s
  else if s.rcp.owner.isSome ∨ s.rcp.swapPend then rcpEnd 7 rcBUSY 0 s
  else if noMedia s then rcpEnd 7 rcNO_MEDIA 0 s
  else if s.bare then rcpEnd 7 rcNO_SHADOW 0 s
  else
    let s1 := shadowLoad ok s
    if !ok then rcpEnd 7 rcMEDIA_ERROR 0 s1
    else if (shadow s1).st = .empty then rcpEnd 7 rcNO_SHADOW 0 s1
    else match imageErr (shadow s1).part with
    | some (c, d) => rcpEnd 7 c d s1
    | none => rcpEnd 7 rcOK 0 s1

/-- OP 0x08 to 0xFF: BUSY during a VERIFY, NOT_OWNER from another than the owner, else BAD_OP (R95, RCP_CMD). -/
def rcpBadOp (src : Source) (op : Nat) (s : State) : State :=
  rcpEnd op (if s.rcp.verifying then rcBUSY else if otherOwns src s then rcNOT_OWNER else rcBAD_OP) 0 s

/-- An operation that came by RCP_XFER is answered at its end; VERIFY and an accepted SWAP end later (R343). -/
def rcpAnswered (src : Source) (op : Nat) (t s : State) : State :=
  match src with
  | .imzin n =>
    if op = 3 ∧ t.rcp.verifying ∧ !s.rcp.verifying then t.setRcp fun c => { c with verRef := some n }
    else if op = 5 ∧ (t.rcp.swapPend ∨ t.rcp.swapWait.isSome) ∧ !(s.rcp.swapPend ∨ s.rcp.swapWait.isSome) then
      t.setRcp fun c => { c with swapRef := some n }
    else rcpRsp n t
  | _ => t

/-- An operation's row: it acts where RCP takes operations. -/
def rcpRow (src : Source) (op : Nat) (act : State → State) (s : State) : State :=
  if rcpUp s then rcpAnswered src op (act s) s else s

/-- `RCP_CMD` written over the register path; whether the medium takes a write and the partner holds the same shadow are
then free (R95, log 1). -/
def rcpCmd (src : Source) (v : Word) (s : State) : State :=
  let ok := bit s.freeVal 0
  let key : Byte := BitVec.ofNat 8 (fld v 8 8)
  match fld v 0 8 with
  | 0 => s
  | 1 => rcpOpen src ok s.drew
  | 2 => rcpWriteBlock src false (fld v 16 16) ok s.drew
  | 3 => rcpVerify src s
  | 4 => rcpClose src s
  | 5 => rcpSwap src key ok s.drew
  | 6 => rcpSetActive key ok s.drew
  | 7 => rcpReload src ok s.drew
  | op => rcpBadOp src op s

/-- `RCP_BUF` (R95). -/
def bufWrite (src : Source) (w : BitVec 10) (v : Word) (s : State) : Nat × State :=
  if otherOwns src s then (7, logWerr 5 src (0x085000 + 4 * w.toNat) s)
  else (0, s.setRcp fun c => { c with buf := memFill c.buf (4 * w.toNat) (bytesLE 4 v.toNat) })

/-- A DATA frame fills its chunk of `RCP_BUF` (R95, R343). -/
def chunkWrite (src : Source) (chunk : BitVec 7) (bytes : List Byte) (s : State) : State :=
  if otherOwns src s then logWerr 5 src (0x085000 + 32 * chunk.toNat) s
  else
    let d := (bytes ++ List.replicate 32 0).take 32
    (s.setRcp fun c => { c with buf := memFill c.buf (32 * chunk.toNat) d }).setImz fun z =>
      { z with chunks := z.chunks ||| BitVec.ofNat 128 (2 ^ chunk.toNat) }

/-- RCP_OPEN (R96). -/
def execRcpOpen (src : Source) (ok : Bool) (s : State) : Host.Outcome State Fault Refusal :=
  .next (rcpRow src 1 (rcpOpen src ok) s)

/-- RCP_WRITE_BLOCK (R96). -/
def execRcpWriteBlock (src : Source) (n : Half) (ok : Bool) (s : State) : Host.Outcome State Fault Refusal :=
  let xfer := match src with | .imzin _ => true | _ => false
  .next (rcpRow src 2 (rcpWriteBlock src xfer n.toNat ok) s)

/-- RCP_VERIFY (R97). -/
def execRcpVerify (src : Source) (s : State) : Host.Outcome State Fault Refusal := .next (rcpRow src 3 (rcpVerify src) s)

/-- RCP_VERIFY_DONE (R97). -/
def execRcpVerifyDone (fail : Option Half) (p : PartnerAnswer) (s : State) : Host.Outcome State Fault Refusal :=
  .next (if rcpUp s ∧ s.rcp.verifying then verifyResult fail p s else s)

/-- RCP_CLOSE (R95). -/
def execRcpClose (src : Source) (s : State) : Host.Outcome State Fault Refusal := .next (rcpRow src 4 (rcpClose src) s)

/-- RCP_SWAP (R98). -/
def execRcpSwap (src : Source) (key : Byte) (same : Bool) (s : State) : Host.Outcome State Fault Refusal :=
  .next (rcpRow src 5 (rcpSwap src key same) s)

/-- RCP_SET_ACTIVE (R85). -/
def execRcpSetActive (src : Source) (key : Byte) (ok : Bool) (s : State) : Host.Outcome State Fault Refusal :=
  .next (rcpRow src 6 (rcpSetActive key ok) s)

/-- RCP_RELOAD_SHADOW (R40). -/
def execRcpReloadShadow (src : Source) (ok : Bool) (s : State) : Host.Outcome State Fault Refusal :=
  .next (rcpRow src 7 (rcpReload src ok) s)

/-- RCP_BAD_OP: OP 0x08 to 0xFF; 0x00 does nothing, the others have rows of their own (RCP_CMD, ch. 4). -/
def execRcpBadOp (src : Source) (op : Byte) (s : State) : Host.Outcome State Fault Refusal :=
  .next (if 8 ≤ op.toNat then rcpRow src op.toNat (rcpBadOp src op.toNat) s else s)

/-- RCP_BUF_WRITE (R95). -/
def execRcpBufWrite (src : Source) (w : BitVec 10) (v : Word) (s : State) : Host.Outcome State Fault Refusal :=
  .next (if rcpUp s then (bufWrite src w v s).2 else s)

/-- RCP_XFER_DATA (R343). -/
def execRcpXferData (src : Half) (chunk : BitVec 7) (bytes : List Byte) (s : State) : Host.Outcome State Fault Refusal :=
  .next (if rcpUp s then chunkWrite (.imzin src) chunk bytes s else s)

/-- RCP_OWNER_TIMEOUT: 60 s without an operation of the owner (R95). -/
def execRcpOwnerTimeout (s : State) : Host.Outcome State Fault Refusal :=
  .next (if rcpUp s ∧ s.rcp.owner.isSome ∧ !s.rcp.verifying then rcpDropWrite s else s)

/-- SWAP_ABORT: ALM has not raised READY within 1 s (R98, R99). -/
def execSwapAbort (s : State) : Host.Outcome State Fault Refusal :=
  .next (if s.powered ∧ !regionUp rALM s then swapAbort s else s)

/-- RECIPE_SECTION_RELOAD_DONE: the section's bytes are those of the partition again (R40). -/
def sectionReload (sec : Nat) (s : State) : State :=
  let s1 := { s with sys := { s.sys with reloading := s.sys.reloading.filter fun n => n != sec } }
  s1.setRcp fun c => c.setRecipe c.active fun r =>
    match sectionOffset r.bank sec with
    | some (off, len) => { r with bank := memFill r.bank off (memBytes r.part off len) }
    | none => r

/-- RECIPE_SECTION_RELOAD_DONE (R40). -/
def execRecipeSectionReloadDone (sec : Byte) (s : State) : Host.Outcome State Fault Refusal :=
  .next (if s.powered ∧ s.sys.reloading.contains sec.toNat then sectionReload sec.toNat s else s)

end Sys2Proof.Machine
end

