-- ==== Sys2Proof/Machine/Swap.lean ====
section
/-! DEFINITION. Swap: the scan boundary at which every block changes to the new bank, and what is carried over (R99 to
R103, R130, R161, R191, R209, R295, R388, R393, R467). -/
namespace Sys2Proof.Machine

open Sys2Proof

/-! ### Which points stay (R101) -/

/-- The point of slot `n` exists in both banks: same slot, same key. -/
def ptKept (old new : Memory) (n : Nat) : Bool :=
  bankPt old n 20 1 != 0 && bankPt new n 20 1 != 0 && bankPt old n 0 4 == bankPt new n 0 4

/-- It is only in the old bank. -/
def ptGone (old new : Memory) (n : Nat) : Bool := bankPt old n 20 1 != 0 && !ptKept old new n

/-- It is only in the new bank. -/
def ptNew (old new : Memory) (n : Nat) : Bool := bankPt new n 20 1 != 0 && !ptKept old new n

/-- The base scan changes (R100). -/
def scanChanges (old new : Memory) : Bool := bankNat old secIDENT 0 1 != bankNat new secIDENT 0 1

/-- The point's REC settings change. -/
def recChanges (old new : Memory) (n : Nat) : Bool :=
  bankHas old secREC != bankHas new secREC ||
  (List.range 12).any fun i => bankNat old secREC (16 + 12 * n + i) 1 != bankNat new secREC (16 + 12 * n + i) 1

/-! ### Under the old bank -/

/-- A point that leaves goes to NORMAL with RECIPE_REMOVED and ends its session; slices close whose settings change
(R100, R101, R251, R295, R393). -/
def swapLeave (new : Memory) (s : State) (n : Fin 80) : State :=
  let old := s.activeBank
  if ptGone old new n.val then
    let s1 := sliceShort n (annRemove n s)
    let s2 := if s.standby then s1 else s1.setCall fun c => { c with removed := c.removed ++ [s.ownAddr n.val] }
    s2.setPt n fun p => { resync := p.resync, annOnset := p.annOnset, lastTrans := p.lastTrans }
  else if scanChanges old new || recChanges old new n.val then sliceShort n s
  else s

/-! ### Under the new bank -/

/-- A kept point's running delays and filter (R100, R101). -/
def Pnt.carry (p : Pnt) (old new : Memory) (n : Nat) : Pnt :=
  let dly := fun (b : Memory) (off : Nat) => ms 100 * bankPt b n off 2
  let same := fun (off : Nat) => bankPt old n off 2 == bankPt new n off 2
  let rate := scanChanges old new || !same 42
  { p with
    expiry := if p.stage = .onDelay then p.onset + dly new 100
              else if p.stage = .offDelay then p.expiry + dly new 102 - dly old 102 else p.expiry,
    due := false, relEnd := p.relEnd.map fun t => t + dly new 104 - dly old 104, relDue := false,
    filt := if same 40 then p.filt else none,
    hist := if rate then [] else p.hist, histCnt := if rate then 0 else p.histCnt }

/-- The interval start after a moment. -/
def nextInterval (code t : Nat) : Nat :=
  let i := max 1 (sec (intervalSec code))
  t / i * i + i

/-- The point of a slot after the swap: carried over, new, or none. -/
def swapPnt (old : Memory) (s : State) (n : Fin 80) (p : Pnt) : Pnt :=
  let new := s.activeBank
  if ptKept old new n.val then p.carry old new n.val
  else if ptNew old new n.val then
    { subst := s.ptF n.val 108, slFrom := nextInterval (s.recPt n.val 0 1) s.now,
      inhEnd := if s.startTime = 0 then none else some (s.now + sec s.startTime) }
  else p

/-- A loop output keeps its level until scan N + 1; where its source point is new or has left, it is open until then
(R101, R161). -/
def swapAo (old : Memory) (s : State) (c : Fin 4) : State :=
  let was := s.ao[c]
  let gone := was.fromPoint && ptGone old s.activeBank was.srcSlot
  let s1 := aoSwap s c
  let a := s1.ao[c]
  let fresh := a.fromPoint && ptNew old s.activeBank a.srcSlot
  s1.setAo c fun a =>
    if fresh || gone then { a.openNow with waitPost := true, takeLevel := none, swapLevel := none }
    else { a with swapLevel := if a.phase = .run then some was.level else none }

/-- A digital channel, likewise: its reset state is off (R101, R191). -/
def swapDio (old : Memory) (s : State) (c : Fin 16) : State :=
  let was := s.dio[c]
  let gone := was.output && was.src == 1 && ptGone old s.activeBank was.srcSlot
  let s1 := dioSwap s c
  let d := s1.dio[c]
  let fresh := d.output && d.src == 1 && ptNew old s.activeBank d.srcSlot
  if fresh || (gone && d.output) then
    s1.setDio c fun d => { d.switchOff 5 false with latch := 0, hold := none, waitPost := true }
  else s1

/-- The channels of all four kinds take the new bank's settings, without events (R99, R101). -/
def swapCells (old : Memory) (s : State) : State :=
  let s1 := (List.finRange 16).foldl uiSwap s
  let s2 := (List.finRange 4).foldl (swapAo old) s1
  let s3 := (List.finRange 16).foldl (swapDio old) s2
  (List.finRange 2).foldl psSwap s3

/-- The router's enables and targets change as the registers change them; the other settings are taken (R456, R467). -/
def swapEvr (s : State) : State :=
  let en := fun (n : Fin 16) => BitVec.ofNat 32 (s.cfgNat secEVR (4 * n.val) 4)
  let s1 := (List.finRange 16).foldl (fun a n => evrEnable n (en n) (evrEnClr n (~~~en n) a)) s
  let s2 := (List.finRange 512).foldl (fun a n =>
    evrTargetChange n (if (s.cfgNat secEVR (144 + 4 * n.val) 2).testBit 8 then 1 else 0) a) s1
  evrLoad s2

/-- What the node keeps of its members goes with the node, not with its place in the list (R330, R338). -/
def swapNet (old : Memory) (s : State) : State :=
  let oldAt := fun (i : Nat) => bankNat old secNET (64 + 4 * i) 2
  let oldCount := min 64 (bankNat old secNET 35 1)
  let place := fun (i : Nat) => (List.range oldCount).find? fun k => oldAt k == (s.member i).toNat
  let lost := (List.range s.netCount).foldl (fun (m : BitVec 64) i => match place i with
    | some k => if bit s.imz.lost k then m ||| BitVec.ofNat 64 (2 ^ i) else m
    | none => m) 0
  let dig := (List.range s.netCount).filterMap fun i => match place i with
    | some k => (s.imz.digests.find? fun d => d.1 == k).map fun d => (i, d.2)
    | none => none
  netLoad (s.setImz fun z => { z with lost := lost, digests := dig })

/-- A field of a bank's group entry. -/
def bankGrp (b : Memory) (g off n : Nat) : Nat := bankNat b secGROUPS (400 + 32 * g + off) n

/-- The group's record after the swap: kept with its first-out while that member stays; else it starts anew (R101). -/
def swapGrp (old : Memory) (s : State) (g : Nat) : Grp :=
  if bankNat old secGROUPS 0 2 ≤ g ∨ bankGrp old g 0 4 ≠ bankGrp s.activeBank g 0 4 then {}
  else
    let x := s.grp.get g
    let mem := grpMembers s g
    let y := { x with cands := x.cands.filter fun c => mem.contains c.1 }
    match x.fo with
    | none => y
    | some f => if mem.contains f.1 then y else { y with fo := none, wasFinal := false, late := false }.chooseFo

/-- The group processor. -/
def swapGroups (old : Memory) (s : State) : State :=
  let gs := (List.range s.grpCount).map fun g => (g, swapGrp old s g)
  let all := allMembers s
  s.setGrps fun b =>
    { b with groups := gs.foldl (fun t p => tblPut {} t p.1 p.2) [], mems := b.mems.filter fun m => all.contains m.1 }

/-- The recorder: sizes that differ wait for the next start; without a REC section it is OFF (R386, R388). -/
def swapRec (s : State) : State :=
  s.setRec fun r =>
    { r with sizePend := bankHas s.activeBank secREC && decide (recSizes s ≠ (r.ledger, r.ring)),
             st := if bankHas s.activeBank secREC then r.st else .off }

/-- The panel: its presence may change; everything is drawn anew (R409). -/
def swapPanel (had : Bool) (s : State) : State :=
  rndFull (if had = s.hasPanel then s else pnlLoad (pnlCut s))

/-- Cause of the boot-config record: the swap's requester; the chip has none of its own (R85, R102, log 26). -/
def swapCause (s : State) : Nat :=
  match s.rcp.swapSrc with
  | .hostA => 1
  | .hostB => 2
  | .imzin _ => 3
  | .chip => 1 + s.freeVal.toNat % 3

/-- The banks change their places. -/
def bankChange (s : State) : State :=
  let i := s.rcp.active
  s.drew.setRcp fun c =>
    let c1 := c.setRecipe i fun r => { r with st := .valid }
    let c2 := c1.setRecipe (1 - i) fun r => { r with st := .active }
    { c2 with active := 1 - i, cfgPend := true, cfgFailed := false, cfgCause := swapCause s, swapTime := s.stamp }

/-- The swap as a whole. -/
def swapNow (s : State) : State :=
  let old := s.activeBank
  let new := (shadow s).bank
  let had := s.hasPanel
  let slow := scanChanges old new
  let s1 := (List.finRange 80).foldl (swapLeave new) s
  let s2 := bankChange s1
  let s3 := { s2 with pev := { s2.pev with
    pts := Vector.ofFn fun n => swapPnt old s2 n s2.pev.pts[n]
    minStart := if slow then s2.now + ms 1 / 5 else s2.pev.minStart } }
  let s7 := noted (swapCells old) s3
  let s8 := swapGroups old (callSwap s7)
  let s9 := swapRec (swapNet old (swapEvr s8))
  let s10 := ageBounds (dozeSync { s9 with sys := { s9.sys with dozeEn := s9.identFlag 2 } })
  swapFinish rcOK (settingsSync s (swapPanel had s10))

/-- The boundary is one that the accepted swap takes: the request is at least 200 µs old and, with epochs running, the
standby has acknowledged the epoch that carries it; a standby follows its active unit (R99, R103). -/
def swapDue (s : State) : Bool :=
  s.powered && s.rcp.swapPend && s.pev.running && regionUp rALM s &&
  (s.standby || (decide (s.rcp.swapReq + ms 1 / 5 ≤ s.now) &&
    (!epochsRun s || (match s.rcp.swapEpoch with
      | some e => decide (e.toNat ≤ s.lvn.pEpoch.toNat)
      | none => false))))

/-- SWAP_BOUNDARY (R99). -/
def execSwapBoundary (s : State) : Host.Outcome State Fault Refusal := .next (if swapDue s then swapNow s else s)

end Sys2Proof.Machine
end

