-- ==== Sys2Proof/Machine/CanRx.lean ====
section
/-! DEFINITION. CanRx: what a controller receives, and the errors it detects: storage, IMZ's intake with its checks and
routing, the standby's log, capture of errors, and the dominant time-out (R92, R309 to R316, R318 to R320, R327, R333,
R340, R368). -/
namespace Sys2Proof.Machine

open Sys2Proof

/-! ### IMZ's intake -/

/-- Fields of an identifier (R318). -/
def idType (id : Nat) : Nat := id / 2 ^ 18 % 256
/-- Direction. -/
def idDir (id : Nat) : Nat := id / 2 ^ 16 % 4
/-- Source. -/
def idSrc (id : Nat) : Half := BitVec.ofNat 16 id

/-- An ADDR_CLAIM (R333). -/
def isClaim (typ : Nat) : Bool := typ == 0x71 || typ == 0x73

/-- The claim carries a flag of byte 12: 0 BARE, 4 FORWARDED (R339). -/
def claimFlag (d : List Byte) (i : Nat) : Bool := (dataNat d 12 1).testBit i

/-- A frame on C or D from a node that is neither a member nor of the subtree, BARE and forwarded claims apart (R327). -/
def isStranger (s : State) (k : Fin 4) (typ : Nat) (f : ImzRx) : Bool :=
  decide (2 ≤ k.val) && !inSubtree s f.src && !(isClaim typ && (claimFlag f.data 0 || claimFlag f.data 4))

/-- A frame of an unlisted node is counted; each such node raises one event (R327). -/
def strangerSeen (node : Half) (s : State) : State :=
  let s1 := s.setImz fun z => { z with stranger := satInc 255 z.stranger }
  if s.imz.strangers.contains node.toNat then s1
  else imzEvent 6 node (s1.setImz fun z => { z with strangers := z.strangers ++ [node.toNat] })

/-- The first copy of this frame that arrived on the segment's other bus within 100 ms (R320). -/
def isCopy (s : State) (k : Fin 4) (id : Nat) (d : List Byte) (e : Nat × Nat × List Byte × Nat) : Bool :=
  e.1 != k.val && e.1 / 2 == k.val / 2 && e.2.1 == id && e.2.2.1 == d && decide (s.mono ≤ e.2.2.2 + ms 100)

/-- The frame is kept as one whose copy is discarded; older ones are forgotten (R320). -/
def seenAdd (k : Fin 4) (id : Nat) (d : List Byte) (s : State) : State :=
  s.setImz fun z =>
    { z with seen := (z.seen.filter fun e => decide (s.mono ≤ e.2.2.2 + ms 100)) ++ [(k.val, id, d, s.mono)] }

/-- The opcodes of R341. -/
def cmdKnown (op : Nat) : Bool := [0x01, 0x02, 0x10, 0x11, 0x20, 0x30, 0x31, 0x40].contains op

/-- A CMD: for another node it is routed, a broadcast goes on downward, and an opcode that R341 does not name is answered
BAD_OP; the opcodes have commands of their own (R319, R340, R342). -/
def cmdIntake (f : ImzRx) (s : State) : State :=
  let s1 := if f.dir = 3 then imzRelay 4 0x40 f s else s
  if f.dir = 3 ∨ (dataNat f.data 4 1).testBit 2 then s1
  else if dataNat f.data 0 2 ≠ s.nodeNum.toNat then cmdRoute f s1
  else if cmdKnown (dataNat f.data 3 1) then s1
  else imzReply (cmdRef s f) 5 0 0 [] s1

/-- RCP_XFER and REC_XFER: routed, relayed, or a request for this node's recorder (R319, R343, R405). -/
def xferIntake (cls typ : Nat) (f : ImzRx) (s : State) : State :=
  if f.dir = 3 then imzRelay cls typ f s
  else if dataNat f.data 0 2 ≠ s.nodeNum.toNat then (imzRoute cls typ (BitVec.ofNat 16 (dataNat f.data 0 2)) f s).2
  else if typ = 0x60 then xferRequest f s
  else s

/-- The standby logs each CMD and CALL_ACK for its node (R368). -/
def standbyIntake (typ : Nat) (f : ImzRx) (s : State) : State :=
  let e : LogCmd := { seq := 0, bus := true, time := s.now - f.age, src := f.src, call := typ == 0x21, data := f.data }
  if typ = 0x40 ∧ dataNat f.data 0 2 = s.nodeNum.toNat then lvLog e s
  else if typ = 0x21 ∧ dataNat f.data 4 2 = s.nodeNum.toNat ∧ fromBelow s f then lvLog e s
  else s

/-- IMZ has taken the frame that was stored last: it clears its own NEWDAT of that buffer (R309). -/
def imzDone (k : Fin 4) (s : State) : State :=
  s.setCan k fun c => { c with imzNew := c.imzNew &&& ~~~(BitVec.ofNat 64 (2 ^ ((c.head + 63) % 64))) }

/-- A frame that passed the checks: its sender is present, and what needs no command of its own is done (R288, R327,
R340). -/
def imzAccept (k : Fin 4) (typ : Nat) (f : ImzRx) (s : State) : State :=
  if s.standby then standbyIntake typ f (imzDone k s)
  else
    let s1 := if 2 ≤ k.val then unitSeen f.src (memberSeen f.src s) else s
    match typ with
    | 0x40 => cmdIntake f (imzDone k s1)
    | 0x50 => xferIntake 5 0x50 f (imzDone k s1)
    | 0x60 => xferIntake 6 0x60 f (imzDone k s1)
    | _ => s1

/-- IMZ takes a stored frame: identifier, length, sender and copy are checked in this order (R318, R320, R327, R333). -/
def imzIntake (k : Fin 4) (c : CanFrame) (age : Nat) (s : State) : State :=
  let id := c.id.toNat
  let typ := idType id
  let d := c.data.take (dlcLen c.fdf c.dlc.toNat)
  let f : ImzRx := { bus := k, dir := BitVec.ofNat 2 (idDir id), src := idSrc id, data := d, age := age }
  if !imzLive s then s
  else if !c.fdf || !c.brs then imzDone k s
  else match typeShape typ with
  | none => (imzDone k s).setImz fun z => { z with badId := satInc 255 z.badId }
  | some (cls, n) =>
    if cls ≠ idClass id then (imzDone k s).setImz fun z => { z with badId := satInc 255 z.badId }
    else if d.length ≠ n then (imzDone k s).setImz fun z => { z with badLen := satInc 255 z.badLen }
    else if isStranger s k typ f then strangerSeen f.src (imzDone k s)
    else if typ ≤ 2 then imzAccept k typ f s
    else match s.imz.seen.find? (isCopy s k id d) with
    | some e => (imzDone k s).setImz fun z => { z with dup := satInc 255 z.dup, seen := z.seen.filter fun x => x != e }
    | none => imzAccept k typ f (seenAdd k id d s)

/-! ### Reception -/

/-- The controller takes part in the traffic of its bus. -/
def canHears (s : State) (k : Fin 4) : Bool := regionUp rLNK s && canPresent s k && s.can[k].mode != 0 && s.can[k].onBus

/-- In BARE an error-free frame ends the search and the run of errors of its controller (R92). -/
def bareFrame (k : Fin 4) (s : State) : State :=
  if h : k.val < 2 then
    let i : Fin 2 := ⟨k.val, h⟩
    bareRatesFound (if s.bare then s.setRcp fun c => { c with bareErrs := c.bareErrs.set i 0 } else s)
  else s

/-- A frame arrives without error: ALONE ends, the receive counter falls, and a data frame of extended format is stored
and goes to IMZ; a parity error in the buffer discards it (R301, R309 to R315). -/
def canReceive (k : Fin 4) (f : CanFrame) (age : Nat) (parity : Bool) (s : State) : State :=
  let s1 := bareFrame k (canRecDown k (canAloneEnd k s))
  if f.base || f.remote then s1.setCan k fun c => { c with cntForeign := satInc 255 c.cntForeign }
  else if parity then s1.setCan k fun c => { c with rxParity := satInc 255 c.rxParity }
  else imzIntake k f age (canStore k false f age s1)

/-- CAN_FRAME_RECEIVED (R309). -/
def execCanFrameReceived (k : Fin 4) (f : CanFrame) (age : Nat) (parity : Bool) (s : State) :
    Host.Outcome State Fault Refusal :=
  .next (if canHears s k then canReceive k f age parity s else s)

/-! ### Errors -/

/-- An error frame that ends a frame being received counts in BARE (R92). -/
def bareErrorOn (k : Fin 4) (s : State) : State :=
  if h : k.val < 2 then bareError ⟨k.val, h⟩ s else s

/-- A protocol exception: the controller integrates again and counts it (R301). -/
def canException (k : Fin 4) (s : State) : State :=
  canState k (s.setCan k fun c => { c with cntPxe := satInc 255 c.cntPxe, st := 1 })

/-- An error of a controller: it is captured, the counters rise, and a data-field bit error on an own frame is counted
and told to IMZ (R313, R314, R325). -/
def canErrored (k : Fin 4) (field type : BitVec 4) (tx heavy : Bool) (ident : BitVec 29) (s : State) : State :=
  let s1 := s.setCan k fun c => { c with errField := field.toNat, errType := type.toNat, errTx := tx }
  let s2 := canCount k type tx heavy s1
  let s3 := if tx then s2 else bareErrorOn k s2
  if tx ∧ field = 3 ∧ type = 1 then
    let s4 := s3.setCan k fun c => { c with cntDbit := satInc 255 c.cntDbit }
    if idSrc ident.toNat = s.nodeNum then imzDataError s4 else s4
  else s3

/-- CAN_ERROR (R314): type 6 is a protocol exception, which is a form error while PXD is 1 (R301). -/
def execCanError (k : Fin 4) (field type : BitVec 4) (tx heavy : Bool) (ident : BitVec 29) (s : State) :
    Host.Outcome State Fault Refusal :=
  .next (if canHears s k then
    if type = 6 then (if s.can[k].pxd then canErrored k field 3 tx heavy ident s else canException k s)
    else canErrored k field type tx heavy ident s
  else s)

/-- CAN_DOMINANT_TIMEOUT (R316): OFF, an event, and a cell fault whose cause code is not stated and is free among those
that are produced (log 1). -/
def execCanDominantTimeout (k : Fin 4) (s : State) : Host.Outcome State Fault Refusal :=
  .next (if canHears s k then
    cellFault (canBlock k) 0 (1 + s.freeVal.toNat % 5) (canEvent k 10 0 (canSetMode k 0 s.drew))
  else s)

end Sys2Proof.Machine
end

