-- ==== Sys2Proof/Machine/Buttons.lean ====
section
/-! DEFINITION. Buttons: accepted transitions of inputs and what acts on them: acknowledgement buttons and duty selectors
(R77, R166, R168, R169, R254, R260, R289). -/
namespace Sys2Proof.Machine

open Sys2Proof

/-- A field of acknowledgement scope entry `n` (R274). -/
def scopeNat (s : State) (n off len : Nat) : Nat := s.cfgNat secGROUPS (16 + 8 * n + off) len

/-- An ACK button: its scope entry names what is acknowledged and the location; a refusal raises a further event (R254,
R260). -/
def ackButton (c : Fin 16) (s : State) : State :=
  let n := s.dio[c].funcArg
  let kind := scopeNat s n 0 1
  if kind = 0 then s
  else
    let target := if kind = 1 then scopeNat s n 4 4 else if kind = 2 then scopeNat s n 2 2 else 0
    let cmd : AnnCmd := { op := 1, scope := kind - 1, target := target, minutes := 0, reg := false,
                          org := { code := 4, detail := BitVec.ofNat 16 (c.val + 1), loc := scopeNat s n 1 1 == 1, ack := s.now } }
    let r := annSubmit cmd s
    buttonRefused cmd r.1 r.2

/-- What a transition to 1 does by the input's function; ZERO and SPAN buttons act as they are held, and selectors are read
together at the end of the first scan (R168, R289). -/
def buttonAct (c : Fin 16) (s : State) : State :=
  let d := s.dio[c]
  match d.func with
  | 1 => ackButton c s
  | 4 =>
    if s.sys.step < 9 then s
    else dutySelect d.funcArg 4 false { code := 4, detail := BitVec.ofNat 16 (c.val + 1), loc := true, ack := s.now } s
  | _ => s

/-- An accepted transition; a stuck button and the buttons of a standby act only on their points (R169). -/
def inputTransition (c : Fin 16) (level : Bool) (t : Ts) (s : State) : State :=
  let stuck := bit s.dio[c].dstat 14
  let s1 := dioTransition c level t s
  if level && !stuck && !s.standby && s.sys.power != .dormant then buttonAct c s1 else s1

/-- DIO_INPUT_TRANSITION (R166): in service with ACQ up, or in DORMANT by the proofing domain (R77). -/
def execDioInputTransition (c : Fin 16) (level : Bool) (at' : Ts) (s : State) : Host.Outcome State Fault Refusal :=
  .next (if s.powered ∧ (regionUp rACQ s ∨ s.sys.power = .dormant) ∧ dioAccepts s c level then
    inputTransition c level at' s else s)

end Sys2Proof.Machine
end

