-- ==== Sys2Proof/Machine/Regs.lean ====
section
/-! DEFINITION. Regs: what each register and window location reads, without effect, by its byte address (R5, R8, R450,
R451, R490). -/
namespace Sys2Proof.Machine

open Sys2Proof

/-! ### Module level -/

/-- Code of a region's state (SYS_RGN_STAT). -/
def RgnState.code : RgnState → Nat
  | .down => 0
  | .inReset => 1
  | .init => 2
  | .ready => 3
  | .held => 4

/-- Code of a power state (R73). -/
def Power.code : Power → Nat
  | .start => 0
  | .run => 1
  | .doze => 2
  | .dormant => 3
  | .lastBreath => 4
  | .safe => 5

/-- Code of a feed's condition (SYS_SUP_STAT). -/
def FeedCond.code : FeedCond → Nat
  | .inRange => 0
  | .low => 1
  | .lost => 2
  | .high => 3

/-- Code of `HOLD`'s condition (SYS_SUP_STAT). -/
def HoldCond.code : HoldCond → Nat
  | .ok => 0
  | .charging => 1
  | .absent => 2
  | .fault => 3

/-- Code of the temperature condition (SYS_SUP_STAT). -/
def TempCond.code : TempCond → Nat
  | .normal => 0
  | .low => 1
  | .high => 2
  | .over110 => 3

/-- Code of a recipe's state (RCP_STAT). -/
def RcpState.code : RcpState → Nat
  | .empty => 0
  | .invalid => 1
  | .writing => 2
  | .verifying => 3
  | .valid => 4
  | .restartOnly => 5
  | .active => 6

/-- INH_LEFT: seconds of start inhibit remaining, rounded up (SYS_STATE, R94). -/
def inhLeft (s : State) : Nat :=
  match s.sys.inhEnd with
  | none => 0
  | some e => min 1023 (max 1 ((e - s.now + ticksPerSec - 1) / ticksPerSec))

/-- `SYS_STATE`. -/
def stateWord (s : State) : Word :=
  put 22 10 (inhLeft s) ||| put 16 4 s.sys.bareCause ||| put 12 4 s.sys.step ||| put 8 2 s.sys.pins.stat.toNat |||
  put 0 4 s.sys.mode.code

/-- `SYS_SUP_STAT`. -/
def supWord (u : Supply) : Word :=
  put 12 2 u.temp.code ||| putB 11 u.pfail ||| put 9 2 u.hold.code ||| putB 8 u.feeds[1].rev |||
  put 6 2 u.feeds[1].cond.code ||| putB 5 u.feeds[1].isOpen ||| putB 4 u.feeds[0].rev ||| put 2 2 u.feeds[0].cond.code |||
  putB 1 u.feeds[0].isOpen

/-- Regions held in reset, by bit (SYS_RGN_RST.HOLD). -/
def holdMask (s : State) : BitVec 5 :=
  (List.finRange 5).foldl (fun w r => if s.sys.regions[r].hold then w ||| BitVec.ofNat 5 (2 ^ r.val) else w) 0

/-- What `SYS_RGN_STAT` shows of a region: from 10 µs after the reset decision on it initialises, until READY (R53). -/
def rgnCode (s : State) (g : Region) : Nat :=
  if g.st = .inReset ∧ g.since + 500 ≤ s.mono then RgnState.init.code else g.st.code

/-- A read of a SYS register (ch. 2, 3, 4). -/
def sysRead (s : State) (off : Nat) : Option Word :=
  let y := s.sys
  let u := s.sup
  if h : 0x240 ≤ off ∧ off < 0x280 ∧ off % 4 = 0 then some (y.watchNext[(off - 0x240) / 4]'(by omega))
  else match off with
  | 0x000 => some (put 16 16 0x4080 ||| put 8 8 Config.hwRev.toNat ||| put 0 8 1)
  | 0x004 => some (BitVec.ofNat 32 Config.serial.toNat)
  | 0x008 => some (BitVec.ofNat 32 (Config.serial.toNat / 2 ^ 32))
  | 0x010 => some (stateWord s)
  | 0x020 => some (put 28 4 y.werr.reason ||| put 24 4 y.werr.src ||| put 0 24 y.werr.addr)
  | 0x024 => some (put 0 8 y.werr.cnt)
  | 0x100 => some ((List.finRange 5).foldl (fun w r => w ||| put (4 * r.val) 4 (rgnCode s y.regions[r])) 0)
  | 0x104 => some (put 8 5 (holdMask s).toNat)
  | 0x108 => some (put 16 16 y.cntCorr ||| put 8 8 y.cntRgn ||| put 0 8 y.cntBlk)
  | 0x10C => some (fltWord y.fltLast.level y.fltLast.block y.fltLast.cell y.fltLast.cause)
  | 0x110 => some (loWord y.fltLast.time)
  | 0x114 => some (hiWord y.fltLast.time)
  | 0x200 => some (supWord u)
  | 0x204 => some (put 16 16 u.feeds[1].volt.toNat ||| put 0 16 u.feeds[0].volt.toNat)
  | 0x208 => some (put 24 8 u.esr ||| put 12 12 u.cap ||| put 0 12 (u.holdVolt.toNat / 4))
  | 0x20C => some (putI 16 16 u.plate ||| putI 0 16 u.die)
  | 0x210 => some (putB 0 y.dozeEn)
  | 0x214 => some (put 16 10 y.wakeSrc ||| put 8 3 y.lastReq ||| put 0 3 y.power.code)
  | 0x218 => some (putI 16 16 y.tcxoOfs ||| putB 3 y.onRc ||| putB 2 y.xtalFail ||| putB 1 y.mismatch ||| putB 0 y.pllLock)
  | _ => none

/-- A read of an HP register, by its offset from the block base (ch. 17). -/
def hpRead (s : State) (off : Nat) : Option Word :=
  let h : Fin 2 := if off < 0x20 then 0 else 1
  let p := s.hp[h]
  match off % 0x20 with
  | 0x00 => some (put 16 8 p.slpFilt.toNat ||| putB 8 p.crcReq ||| putB 0 p.idle)
  | 0x04 => some (put 16 16 p.seq.toNat ||| putB 5 p.mode3 ||| putB 3 (!p.held.isEmpty) ||| putB 1 (hostIdle s h) ||| putB 0 p.slp)
  | 0x08 => some (put 16 16 p.lwSeq.toNat ||| put 8 8 p.lwIndex ||| putB 4 p.lwCrc ||| putB 3 p.lwFrame ||| put 0 3 p.lwCode)
  | 0x0C => some 0
  | 0x10 => some (put 24 8 p.cntCrc ||| put 16 8 p.cntFrame ||| put 8 8 p.cntAbsent ||| put 0 8 p.cntBusy)
  | _ => none

/-! ### Event router -/

/-- The bits of 32 sources (R456). -/
def srcBits (s : State) (n : Nat) (f : EvrSrc → Bool) : Word :=
  (List.finRange 512).foldl (fun w i => if i.val / 32 = n then w ||| putB (i.val % 32) (f s.evr.srcs[i]) else w) 0

/-- A priority stack as its register shows it: entry 0 is at the bottom (EVR_STACK_x). -/
def stackWord (l : List (Nat × Nat)) : Word :=
  l.reverse.zipIdx.foldl (fun w p => w ||| put (4 * p.2) 4 p.1.1) 0

/-- A read of a register of one host, by its offset from 0x100 (ch. 17); the claim register is read by its own
operation. -/
def evrHostRead (k : EvrHost) (off : Nat) : Option Word :=
  match off with
  | 0x00 => some (noClaimWord k)
  | 0x04 => some 0
  | 0x08 => some k.lastClaim
  | 0x0C => some (put 16 16 k.claims.toNat ||| put 8 4 k.stack.length ||| put 0 4 (k.running.getD 0))
  | 0x10 => some (stackWord k.stack)
  | 0x14 => some (put 16 10 k.write ||| put 0 10 k.unclaimed.length)
  | 0x18 => some k.mod
  | 0x1C => some (put 24 8 k.spurious ||| put 16 8 k.badEoi ||| put 8 8 k.stackFull ||| put 0 8 k.corrupt)
  | _ => none

/-- `EVR_SRCn`. -/
def srcWord (x : EvrSrc) : Word :=
  put 24 8 x.count ||| put 16 8 x.filt.toNat ||| put 8 1 x.target.val ||| put 0 4 x.pri.toNat

/-- A read of an EVR register (ch. 17). -/
def evrRead (s : State) (off : Nat) : Option Word :=
  if h : 0x1000 ≤ off ∧ off < 0x1800 ∧ off % 4 = 0 then some (srcWord (s.evr.srcs[(off - 0x1000) / 4]'(by omega)))
  else if off = 0 then some (putB 0 s.evr.hold)
  else if 0x100 ≤ off ∧ off < 0x180 then evrHostRead s.evr.hosts[0] (off - 0x100)
  else if 0x180 ≤ off ∧ off < 0x200 then evrHostRead s.evr.hosts[1] (off - 0x180)
  else if 0x200 ≤ off ∧ off < 0x280 then some (srcBits s (off % 0x40 / 4) (·.en))
  else if 0x280 ≤ off ∧ off < 0x300 then some (srcBits s (off % 0x40 / 4) (·.pend))
  else none

/-- An event record's 16 bytes (R458). -/
def ringRecord (r : RingRec) : List Byte :=
  bytesLE 4 (put 0 10 r.src ||| put 10 4 r.pri ||| put 16 8 r.count ||| putB 24 r.masked ||| putB 25 r.withdrawn |||
    putB 26 r.sat ||| putB 27 r.soft ||| putB 28 r.corrupt).toNat ++ bytesLE 8 r.time.toNat ++ bytesLE 4 r.payload.toNat

/-- A word of an event ring, by its offset in the ring (R458); an index never written holds 0. -/
def ringRead (k : EvrHost) (off : Nat) : Word :=
  if k.ring.any fun p => p.1 == off / 16 then BitVec.ofNat 32 (dataNat (ringRecord (tblGet {} k.ring (off / 16))) (off % 16) 4)
  else 0

/-! ### Alarm service -/

/-- One bit for each of 32 slots. -/
def slotBits (k : Nat) (f : Nat → Bool) : Word :=
  (List.range 32).foldl (fun w j => w ||| putB j (decide (32 * k + j < 80) && f (32 * k + j))) 0

/-- `ALM_PTn` (ch. 10); 0 until a recipe is loaded (R491). -/
def almPoint (s : State) (n : Nat) : Word :=
  let p := s.ptAt n
  let left := if bit p.flags 6 then (p.shlvEnd - s.now + 60 * ticksPerSec - 1) / (60 * ticksPerSec) else 0
  if s.rcp.loaded = false then 0
  else if s.ptUsed n then put 21 11 left ||| put 8 8 p.flags.toNat ||| put 4 2 (s.ptCat n) ||| put 0 4 (s.slotState n)
  else put 0 4 (s.slotState n)

/-- `ALM_LOC` (R255); 0 until a recipe is loaded (R491). -/
def almLoc (s : State) : Word :=
  if s.rcp.loaded = false then 0
  else put 8 4 s.ackLoc ||| putB 2 ((s.cfgNat secGROUPS 5 1).testBit 2) ||| putB 1 (s.hostLoc 1) ||| putB 0 (s.hostLoc 0)

/-- A read of a PT, ALM or GRP register (ch. 9, 10). -/
def almRead (s : State) (off : Nat) : Option Word :=
  let v := s.pev
  let a := s.ann
  let cond := fun n => s.ptUsed n && ((s.ptAt n).conds != 0 || (s.ptAt n).fault)
  let bad := fun n => s.ptUsed n && !(s.ptAt n).usable
  if 0x200 ≤ off ∧ off < 0x340 ∧ off % 4 = 0 then some (almPoint s ((off - 0x200) / 4))
  else match off with
  | 0x000 => some (put 16 16 v.lastDur.toNat ||| put 8 8 v.late ||| put 0 3 v.period)
  | 0x004 => some v.num
  | 0x008 => some (loWord (stampOf v.start))
  | 0x00C => some (hiWord (stampOf v.start))
  | 0x010 => some 0
  | 0x014 => some v.subst
  | 0x018 => some (putB 31 v.cmd.isSome ||| put 16 2 v.resOp ||| put 8 8 v.resCode ||| put 0 7 v.resSlot)
  | 0x01C => some (put 16 16 v.suppr ||| put 0 16 v.sent)
  | 0x020 => some (slotBits 0 cond)
  | 0x024 => some (slotBits 1 cond)
  | 0x028 => some (slotBits 2 cond)
  | 0x030 => some (slotBits 0 bad)
  | 0x034 => some (slotBits 1 bad)
  | 0x038 => some (slotBits 2 bad)
  | 0x100 => some 0
  | 0x104 => some (put 0 11 a.arg)
  | 0x108 => some (putB 31 a.pend ||| put 24 3 a.resOp ||| put 16 8 a.resCode ||| put 0 16 (min 0xFFFF a.resCount))
  | 0x10C => some (almSum s)
  | 0x110 => some (put 16 16 a.lostImz ||| put 8 8 a.lostRec ||| put 0 8 a.lostCmd)
  | 0x114 => some (put 0 16 a.seq.toNat)
  | 0x118 => some (almLoc s)
  | 0x400 => some (put 24 8 s.grp.drop ||| put 0 11 s.grpCount)
  | _ => none

/-! ### Recipes -/

/-- `RCP_STAT.OWNER`. -/
def ownerCode : Option Source → Nat
  | none => 0
  | some .hostA => 1
  | some .hostB => 2
  | some (.imzin _) => 3
  | some .chip => 0

/-- A read of an RCP register or of `RCP_BUF` (ch. 4). -/
def rcpRead (s : State) (off : Nat) : Option Word :=
  let c := s.rcp
  if 0x1000 ≤ off ∧ off < 0x2000 then some (BitVec.ofNat 32 (memNat c.buf (off - 0x1000) 4))
  else match off with
  | 0x00 => some (putB 31 s.bare ||| putB 30 c.cfgPend ||| putB 29 c.swapPend ||| putB 28 c.partnerStale |||
      put 26 2 (ownerCode c.owner) ||| put 8 3 c.recipes[1].st.code ||| put 4 3 c.recipes[0].st.code ||| put 0 1 c.active.val)
  | 0x04 => some 0
  | 0x08 => some (put 24 8 c.resOp ||| put 16 8 c.resCode ||| put 0 16 c.resDetail)
  | 0x0C => some c.recipes[0].seq
  | 0x10 => some c.recipes[1].seq
  | 0x14 => some c.recipes[0].crc
  | 0x18 => some c.recipes[1].crc
  | 0x1C => some (loWord c.swapTime)
  | 0x20 => some (hiWord c.swapTime)
  | _ => none

/-- The recipe whose bank a window shows. -/
def bankOf (a : Nat) : Fin 2 := if a < 0xE00000 then 0 else 1

/-- A recipe bank window refuses reads while its recipe is WRITING or VERIFYING (ch. 17). -/
def bankRefuses (s : State) (a : Nat) : Bool :=
  decide (0xC00000 ≤ a) && (s.rcp.recipes[bankOf a].st == .writing || s.rcp.recipes[bankOf a].st == .verifying)

/-! ### By address (R490, R451) -/

/-- A read in the acquisition span. -/
def acqRead (s : State) (o : Nat) : Option Word :=
  if h : o < 0x4000 then uiRead s ⟨o / 0x400, by omega⟩ (o % 0x400)
  else if h : 0x4000 ≤ o ∧ o < 0x5000 then aoRead s ⟨(o - 0x4000) / 0x400, by omega⟩ (o % 0x400)
  else if h : 0x8000 ≤ o ∧ o < 0x9000 then dioRead s ⟨(o - 0x8000) / 0x100, by omega⟩ (o % 0x100)
  else if 0x9000 ≤ o ∧ o < 0xA000 then dioCommonRead s (o - 0x8000)
  else if h : 0xC000 ≤ o ∧ o < 0xC200 then psRead s ⟨(o - 0xC000) / 0x100, by omega⟩ (o % 0x100)
  else psCommonRead s (o - 0xC000)

/-- A read in the link span. -/
def lnkRead (s : State) (o : Nat) : Option Word :=
  if h : o < 0x4000 then canRead s ⟨o / 0x1000, by omega⟩ (o % 0x1000)
  else if o < 0x6000 then imzRead s (o - 0x4000)
  else if o < 0x8000 then timRead s (o - 0x6000)
  else lvnRead s (o - 0x8000)

/-- A word of the manager state table: the entries of two slots; on a worker it reads 0 (R328). -/
def tableWord (s : State) (a : Nat) : Word :=
  let k := (a - 0x200000) / 2
  if s.isManager then put 0 16 (tblGet 0 s.imz.table k).toNat ||| put 16 16 (tblGet 0 s.imz.table (k + 1)).toNat else 0

/-- A read in a memory window (R451). -/
def windowRead (s : State) (a : Nat) : Option Word :=
  if 0xC00000 ≤ a then some (BitVec.ofNat 32 (memNat s.rcp.recipes[bankOf a].bank (a % 0x200000) 4))
  else if 0x200000 ≤ a then some (tableWord s a)
  else if 0x140000 ≤ a then some (fbRead s (a - 0x140000))
  else if 0x124000 ≤ a then some (ringRead s.evr.hosts[1] (a - 0x124000))
  else if 0x120000 ≤ a then some (ringRead s.evr.hosts[0] (a - 0x120000))
  else if h : 0x110000 ≤ a ∧ a < 0x120000 then
    if a % 0x4000 < 0x3000 then some (canRamRead s ⟨(a - 0x110000) / 0x4000, by omega⟩ (a % 0x4000)) else none
  else if 0x104000 ≤ a then some (BitVec.ofNat 32 (dataNat (grpRecord s ((a - 0x104000) / 32)) (a % 32) 4))
  else some (BitVec.ofNat 32 (dataNat (s.tableAt ((a - 0x100000) / 128)) (a % 128) 4))

/-- What a word address reads, without effect; none where it names no location. A _HI register shows the present half
here. -/
def regLive (s : State) (a : Nat) : Option Word :=
  if homeOf a = .nowhere then none
  else match a / 0x10000 with
  | 0x00 => sysRead s a
  | 0x01 => evrRead s (a % 0x10000)
  | 0x02 => acqRead s (a % 0x10000)
  | 0x04 => if a % 0x10000 < 0x8000 then almRead s (a % 0x10000) else callRead s (a % 0x8000)
  | 0x06 => lnkRead s (a % 0x10000)
  | 0x08 =>
    if a % 0x10000 < 0x2000 then recRegRead s (a % 0x2000)
    else if a % 0x10000 < 0x4000 then mmcRegRead s (a % 0x2000) else rcpRead s (a % 0x4000)
  | 0x0A =>
    if a % 0x10000 < 0x4000 then pnlRead s (a % 0x4000)
    else if a % 0x10000 < 0x8000 then rndRead s (a % 0x4000) else hpRead s (a % 0x8000)
  | 0x0C => ageRead s (a % 0x10000)
  | _ => windowRead s a

/-- The _LO timestamp registers whose read latches _HI (R8). -/
def loRegs : List Nat :=
  [0x000110, 0x040008, 0x066010, 0x068014, 0x08401C] ++ ((List.range 16).map fun c => 0x028058 + 0x100 * c) ++
  ((List.range 2).map fun c => 0x02C074 + 0x100 * c)

/-- A register's word: a _HI register shows the half that the last read of its _LO register latched (R8). -/
def regRead (s : State) (a : Nat) : Option Word :=
  (regLive s a).map fun w => if loRegs.contains (a - 4) ∧ 4 ≤ a then tblGet w s.sys.hiLatch (a - 4) else w

/-- Module level or an answering region, or the code that the fabric root gives: ABSENT, BAD_ADDR (R47, R91, R490). -/
def reach (s : State) (a : Nat) : Nat :=
  match homeOf a with
  | .nowhere => 6
  | .module => if s.bare ∧ 0x0C0000 ≤ a then 1 else 0
  | .region r => if s.bare then (if 0x084000 ≤ a ∧ a < 0x086000 then 0 else 1) else if regionUp r s then 0 else 1

/-- The response code and word of a read (R47, R450). -/
def busRead (s : State) (a : Nat) : Nat × Word :=
  if a % 4 ≠ 0 then (6, 0)
  else if reach s a ≠ 0 then (reach s a, 0)
  else if bankRefuses s a then (7, 0)
  else match regRead s a with
  | some w => (0, w)
  | none => (6, 0)

end Sys2Proof.Machine
end

