-- ==== Sys2Proof/Machine/Bus.lean ====
section
/-! DEFINITION. Bus: what a read and a write at a byte address do: the read's effects, each register's write by its access
type, the region resets that `SYS_RGN_RST` commands (R5, R8, R49, R53, R104, R450, R451). -/
namespace Sys2Proof.Machine

open Sys2Proof

/-! ### Effects of a read (R5, R8) -/

/-- The counts of one host cleared. -/
def clearHostCounts (h : Fin 2) (s : State) : State :=
  { s with evr := s.evr.setHost h fun k => { k with spurious := 0, badEoi := 0, stackFull := 0, corrupt := 0 } }

/-- The counts of one port cleared. -/
def clearPortCounts (h : Fin 2) (s : State) : State :=
  { s with hp := s.hp.set h { s.hp[h] with cntCrc := 0, cntFrame := 0, cntAbsent := 0, cntBusy := 0 } }

/-- The RC fields of a CAN register cleared. -/
def clearCan (k : Fin 4) (off : Nat) (s : State) : State :=
  s.setCan k fun c =>
    match off with
    | 0x014 => { c with errField := 0, errType := 0, errTx := false }
    | 0x018 => { c with cntBusoff := 0, cntDbit := 0, cntForeign := 0, cntPxe := 0 }
    | 0x01C => { c with hostOvr := 0, imzOvr := 0, rxParity := 0 }
    | _ => c

/-- The RC fields of a register take their reset values, all of which are 0 (R5). -/
def rcClear (a : Nat) (s : State) : State :=
  match a with
  | 0x000024 => { s with sys := { s.sys with werr := { s.sys.werr with cnt := 0 } } }
  | 0x000108 => { s with sys := { s.sys with cntCorr := 0, cntRgn := 0, cntBlk := 0 } }
  | 0x0A8010 => clearPortCounts 0 s
  | 0x0A8030 => clearPortCounts 1 s
  | 0x0C0000 => s.setAge fun g => { g with wfail := 0 }
  | 0x01011C => clearHostCounts 0 s
  | 0x01019C => clearHostCounts 1 s
  | 0x040000 => { s with pev := { s.pev with late := 0 } }
  | 0x04001C => { s with pev := { s.pev with suppr := 0, sent := 0 } }
  | 0x040110 => s.setAnn fun n => { n with lostImz := 0, lostRec := 0, lostCmd := 0 }
  | 0x040400 => s.setGrps fun g => { g with drop := 0 }
  | 0x048010 => s.setCall fun c => { c with ackRej := 0, lostCnt := 0, unitLoss := 0, reescCnt := 0 }
  | 0x064004 => s.setImz fun z => { z with badId := 0, badLen := 0, stranger := 0, dup := 0 }
  | 0x064008 => s.setImz fun z => { z with suppr := 0 }
  | 0x066000 => s.setTim fun t => { t with steps := 0 }
  | 0x066024 => s.setTim fun t => { t with rej := 0 }
  | 0x06800C => s.setLvn fun v => { v with cntNack := 0, cntStretch := 0, cntCrc := 0, cntMiss := 0 }
  | 0x068024 => s.setLvn fun v => { v with logLost := 0 }
  | 0x080014 => s.setRec fun r => { r with lostEntries := 0, lostSlices := 0, cntCrc := 0 }
  | 0x08200C => s.setMmc fun m => { m with cntReinit := 0, cntTimeout := 0, cntCrc := 0, cntRetry := 0 }
  | 0x0A0020 => s.setPnl fun p => { p with late := 0, abandoned := 0, railf := 0, busy := 0 }
  | _ =>
    if h : 0x060000 ≤ a ∧ a < 0x064000 then clearCan ⟨(a - 0x060000) / 0x1000, by omega⟩ (a % 0x1000) s else s

/-- A read of a _LO register latches the _HI half for the following read (R8). -/
def latchHi (a : Nat) (s : State) : State :=
  if loRegs.contains a then
    let hi := (regLive s (a + 4)).getD 0
    { s with sys := { s.sys with hiLatch := tblIns (tblDel s.sys.hiLatch a) a hi } }
  else s

/-- The host of a claim register. -/
def claimHost (a : Nat) : Fin 2 := if a = 0x010100 then 0 else 1

/-- A read with its effects: response code, word, next state (R5, R8, R452, R460). -/
def busFetch (a : Nat) (s : State) : Nat × Word × State :=
  let r := busRead s a
  if claimRegs.contains a then
    let s1 := clearIdle (claimHost a) s
    if r.1 = 0 then
      let c := evrClaim (claimHost a) s1
      (0, c.1, c.2)
    else (r.1, 0, s1)
  else if r.1 = 0 then (0, r.2, latchHi a (rcClear a s))
  else (r.1, 0, s)

/-! ### Region resets by command (R53) -/

/-- A region is reset by command: it does not count towards escalation (R57, R505). A region that is powered down has no
logic state to clear. -/
def commandReset (s : State) (r : Fin 5) : State :=
  if s.sys.regions[r].st = .down then s else regionReset r (firstBlock r) 0 0x0D s

/-- HOLD of a region changes: while it is 1 the region stays in reset; then it leaves reset (R53). -/
def holdRegion (mask : BitVec 5) (s : State) (r : Fin 5) : State :=
  let on := bit mask r.val
  if on = s.sys.regions[r].hold then s
  else
    let s1 := s.setRegion r fun g => { g with hold := on }
    if on then
      (match s.sys.regions[r].st with
       | .down => s1
       | .inReset | .init => s1.setRegion r fun g => { g with st := .held }
       | _ => commandReset s1 r)
    else if s.sys.regions[r].st = .held then s1.setRegion r fun g => { g with st := .inReset }
    else s1

/-- A write of `SYS_RGN_RST`: HOLD, then RESET. FCE's bits are not written from a host port or over Imzin; such a write is
logged (SYS_RGN_RST, R341). -/
def rgnRst (src : Source) (hold reset : BitVec 5) (s : State) : Nat × State :=
  let own := src == .chip
  let bad := !own && (bit reset 4 || bit hold 4 != s.sys.regions[rFCE].hold)
  let h := if own then hold else (hold &&& 0xF) ||| (if s.sys.regions[rFCE].hold then 0x10 else 0)
  let q := if own then reset else reset &&& 0xF
  let s1 := if bad then logWerr 2 src 0x000104 s else s
  let s2 := (List.finRange 5).foldl (holdRegion h) s1
  let s3 := ((List.finRange 5).filter fun r => bit q r.val).foldl commandReset s2
  (if bad then 7 else 0, s3)

/-! ### Writes by block -/

/-- A write that changes nothing: OK where the address names a register (R5), else BAD_ADDR. -/
def roWrite (a : Nat) (s : State) : Nat × State := if (regLive s a).isSome then (0, s) else (6, s)

/-- A watch word: in DORMANT it takes effect at the next wake (R77, R104, R467). -/
def watchWrite (src : Source) (i : Fin 16) (v : Word) (s : State) : Nat × State :=
  let w := v &&& 0x83FF83FF
  if watchWordOk w then
    (0, { s with sys := { s.sys with watchNext := s.sys.watchNext.set i w,
                                     watch := if s.sys.power = .dormant then s.sys.watch else s.sys.watch.set i w } })
  else (7, logWerr 9 src (0x240 + 4 * i.val) s)

/-- A write of `SYS_PWR_CTL`. -/
def pwrWrite (src : Source) (v : Word) (s : State) : State :=
  let s1 := dozeEnable (bit v 0) s
  let s2 := if bit v 1 then dormantAsk src s1 else s1
  if bit v 2 then wakeCmd s2 else s2

/-- A write of a SYS register. -/
def sysWrite (src : Source) (a : Nat) (v : Word) (s : State) : Nat × State :=
  if h : 0x240 ≤ a ∧ a < 0x280 then watchWrite src ⟨(a - 0x240) / 4, by omega⟩ v s
  else match a with
  | 0x104 => rgnRst src (BitVec.ofNat 5 (fld v 8 5)) (BitVec.ofNat 5 (fld v 0 5)) s
  | 0x210 => (0, pwrWrite src v s)
  | 0x218 => (0, if bit v 1 then { s with sys := { s.sys with mismatch := false } } else s)
  | _ => roWrite a s

/-- The idle doorbell (R452, R465). -/
def idleWrite (h : Fin 2) (b : Bool) (s : State) : State :=
  idleEndsHold h { s with hp := s.hp.set h { s.hp[h] with idle := b } }

/-- A write of `HP_CTL_x`; an SLP_FILT of 0 is ignored and logged (R104, R467). -/
def hpCtlWrite (src : Source) (h : Fin 2) (v : Word) (s : State) : Nat × State :=
  let ok := fld v 16 8 != 0
  let s1 := { s with hp := s.hp.set h { s.hp[h] with
    crcReq := bit v 8, slpFilt := if ok then BitVec.ofNat 8 (fld v 16 8) else s.hp[h].slpFilt } }
  let s2 := idleWrite h (bit v 0) s1
  if ok then (0, s2) else (7, logWerr 9 src (0x0A8000 + 0x20 * h.val) s2)

/-- A doorbell: source 50 or 51, taken at module level (R453). -/
def doorbell (b : Bool) (payload : Word) (s : State) : State := raise (if b then 51 else 50) payload s

/-- A write of an HP register. -/
def hpWrite (src : Source) (a : Nat) (v : Word) (s : State) : Nat × State :=
  match a with
  | 0x0A8000 => hpCtlWrite src 0 v s
  | 0x0A8020 => hpCtlWrite src 1 v s
  | 0x0A800C => (0, doorbell false v s)
  | 0x0A802C => (0, doorbell true v s)
  | _ => roWrite a s

/-- A word of `EVR_SRCn` that a recipe can hold, judged with the source's enable (R104, R467). -/
def srcWordOk (s : State) (n : Fin 512) (v : Word) : Bool :=
  !targetRefused s n (if bit v 8 then 1 else 0) && (fld v 16 8 == 0 || n.val == 36 || n.val == 37) &&
  !(srcReserved n.val && v != 0)

/-- A write of `EVR_SRCn`: FILT, TARGET and PRI (R456, R459). -/
def srcWrite (src : Source) (n : Fin 512) (v : Word) (s : State) : Nat × State :=
  let w := v &&& 0x00FF010F
  if srcWordOk s n w then
    let s1 := evrTargetChange n (if bit w 8 then 1 else 0) s
    (0, { s1 with evr := s1.evr.setSrc n fun x =>
      { x with filt := BitVec.ofNat 8 (fld w 16 8), pri := BitVec.ofNat 4 (fld w 0 4) } })
  else (7, logWerr 9 src (0x011000 + 4 * n.val) s)

/-- A write of `EVR_EN_SETn` and its response (R104, R456). -/
def enSetWrite (src : Source) (n : Fin 16) (v : Word) (s : State) : Nat × State :=
  (if enRefused s n v then 7 else 0, evrEnSet src n v s)

/-- A write of an EVR register. -/
def evrWrite (src : Source) (a : Nat) (v : Word) (s : State) : Nat × State :=
  let o := a - 0x010000
  if h : 0x1000 ≤ o ∧ o < 0x1800 then srcWrite src ⟨(o - 0x1000) / 4, by omega⟩ v s
  else if h : 0x200 ≤ o ∧ o < 0x240 then enSetWrite src ⟨(o - 0x200) / 4, by omega⟩ v s
  else if h : 0x240 ≤ o ∧ o < 0x280 then (0, evrEnClr ⟨(o - 0x240) / 4, by omega⟩ v s)
  else if h : 0x280 ≤ o ∧ o < 0x2C0 then (0, evrPndSet ⟨(o - 0x280) / 4, by omega⟩ v s)
  else if h : 0x2C0 ≤ o ∧ o < 0x300 then (0, evrPndClr ⟨(o - 0x2C0) / 4, by omega⟩ v s)
  else match o with
  | 0x000 => (0, evrHoldWrite (bit v 0) s)
  | 0x104 => (0, evrEoi 0 s)
  | 0x184 => (0, evrEoi 1 s)
  | 0x118 => (0, modWrite 0 v s)
  | 0x198 => (0, modWrite 1 v s)
  | _ => roWrite a s

/-! ### Acquisition -/

/-- A loopback that the register path commands has an outcome of the environment, a free value (log 1). -/
def freeLoop (f : Bool → State → State) (s : State) : State := f (bit s.freeVal 0) s.drew

/-- `f` while a bit is written 1. -/
def onBit (v : Word) (i : Nat) (f : State → State) (s : State) : State := if bit v i then f s else s

/-- A write of `UI_CMD` (ch. 5). -/
def uiCmdWrite (src : Source) (c : Fin 16) (v : Word) (s : State) : State :=
  let s1 := onBit v 0 (uiCommand src c Ui.startCalib) s
  let s2 := onBit v 1 (uiCommand src c fun u => { u with testReq := true }) s1
  let s3 := onBit v 2 (uiCommand src c Ui.txsSwitchOn) s2
  let s4 := onBit v 3 (fun a => uiNotify c a (a.setUi c Ui.trendReset)) s3
  onBit v 5 (freeLoop (uiLoop src c 2)) (onBit v 4 (freeLoop (uiLoop src c 1)) s4)

/-- Cells of a readmit register's bits that are written 1 (R44). -/
def readmitCells {n : Nat} (v : Word) (cell : Fin n → Nat × Nat) (s : State) : State :=
  (List.finRange n).foldl (fun a c => onBit v c.val (cellReadmit (cell c).1 (cell c).2) a) s

/-- A write in a UI window. -/
def uiWrite (src : Source) (c : Fin 16) (a : Nat) (v : Word) (s : State) : Nat × State :=
  let o := a % 0x400
  if h : o < 28 then uiCfgWrite src c ⟨o / 4, by omega⟩ v s
  else match o with
  | 0x050 => (0, s.setUi c fun u => { u with diag := u.diag &&& ~~~(v.setWidth 17) })
  | 0x080 => (0, uiCmdWrite src c v s)
  | 0x380 => (0, uiBlkWrite (v.setWidth 2) s)
  | 0x384 => (0, readmitCells v (fun (k : Fin 16) => (uiBlock k, uiCell k)) s)
  | _ => roWrite a s

/-- A RWL word of an AO channel (R5, R104, R160). -/
def aoCfgWrite (src : Source) (c : Fin 4) (i : Fin 5) (v : Word) (s : State) : Nat × State :=
  let addr := aoAddr c (4 * i.val)
  if !s.aoBlk.stop then (7, logWerr 1 src addr s)
  else
    let w := s.ao[c].cfg.set i v
    let ok := if s.aoUnused c.val then v == 0 else aoCfgOk s.isPaired s.ptUsed w
    if ok then (0, s.setAo c fun x => { x with cfg := w }) else (7, logWerr 9 src addr s)

/-- A write of `AO_CMD` (ch. 6). -/
def aoCmdWrite (src : Source) (c : Fin 4) (v : Word) (s : State) : State :=
  let s1 := onBit v 0 (aoRestart src c) s
  let s2 := onBit v 1 (fun a => settingsSync a (aoTrimApply src c a)) s1
  let s3 := onBit v 2 (fun a => settingsSync a (aoTrimClear src c a)) s2
  let s4 := onBit v 3 (aoHartTx c) s3
  onBit v 4 (fun a => aoCrust c (fld a.freeVal 0 16) a.drew) s4

/-- A write in an AO window. -/
def aoWrite (src : Source) (c : Fin 4) (a : Nat) (v : Word) (s : State) : Nat × State :=
  let o := a % 0x400
  if h : o < 20 then aoCfgWrite src c ⟨o / 4, by omega⟩ v s
  else if 0x100 ≤ o ∧ o < 0x200 then
    (0, s.setAo c fun x => { x with tx := memFill x.tx (o - 0x100) (bytesLE 4 v.toNat) })
  else match o with
  | 0x040 => (0, s.setAo c fun x =>
      { x with set := v.setWidth 16, takeLevel := if x.fromPoint then x.takeLevel else none })
  | 0x058 => (0, s.setAo c fun x => { x with diag := x.diag &&& ~~~(v.setWidth 13) })
  | 0x060 => (0, s.setAo c fun x => { x with trimReq := v })
  | 0x070 => (0, s.setAo c fun x => { x with txLen := fld v 0 9 })
  | 0x080 => (0, aoCmdWrite src c v s)
  | 0x380 => (0, aoBlkWrite (bit v 0) s)
  | 0x384 => (0, readmitCells v (fun (k : Fin 4) => (aobId, k.val)) s)
  | _ => roWrite a s

/-- A RWL word of a DIO channel (R5, R104, R168, R190). -/
def dioCfgWrite (src : Source) (c : Fin 16) (i : Fin 4) (v : Word) (s : State) : Nat × State :=
  let addr := dioAddr c (4 * i.val)
  if !(dioGrp s c).stop then (7, logWerr 1 src addr s)
  else
    let w := s.dio[c].cfg.set i v
    let cfgs := (List.finRange 16).map fun k => if k = c then w else s.dio[k].cfg
    let ok := if dioUnused s c then v == 0 else dioCfgOk (bankHas s.activeBank secGROUPS) s.ptUsed w && buttonsOk cfgs
    if ok then (0, s.setDio c fun x => { x with cfg := w }) else (7, logWerr 9 src addr s)

/-- A write of `DIO_CMD` (ch. 7). -/
def dioCmdWrite (src : Source) (c : Fin 16) (v : Word) (s : State) : State :=
  let s1 := onBit v 0 (dioCmd src c fun s =>
    if s.dio[c].tripped then dioRetry c (s.setDio c fun d => { d with fails := 0 }) else s) s
  let s2 := onBit v 1 (dioCmd src c fun s => s.setDio c Dio.relearn) s1
  let s3 := onBit v 2 (fun a => settingsSync a (dioCmd src c (fun s => s.setDio c Dio.learnClear) a)) s2
  onBit v 5 (freeLoop (dioCrust c)) (onBit v 4 (freeLoop (dioLoop c 2)) (onBit v 3 (freeLoop (dioLoop c 1)) s3))

/-- A write in a DIO window. -/
def dioWrite (src : Source) (c : Fin 16) (a : Nat) (v : Word) (s : State) : Nat × State :=
  let o := a % 0x100
  if h : o < 16 then dioCfgWrite src c ⟨o / 4, by omega⟩ v s
  else match o with
  | 0x040 => (0, dioSetWrite c (v.setWidth 2) s)
  | 0x04C => (0, s.setDio c fun x => { x with diag := x.diag &&& ~~~(v.setWidth 19) })
  | 0x080 => (0, dioCmdWrite src c v s)
  | _ => roWrite a s

/-- A write of a common DIO register. -/
def dioCommonWrite (a : Nat) (v : Word) (s : State) : Nat × State :=
  match a with
  | 0x029010 => (0, dioBlkWrite (v.setWidth 2) s)
  | 0x029014 => (0, readmitCells v (fun (k : Fin 16) => (dioBlock k, dioCell k)) s)
  | _ => roWrite a s

/-- A write of `PS_CMD` (ch. 8). -/
def psCmdWrite (src : Source) (c : Fin 2) (v : Word) (s : State) : State :=
  let s2 := onBit v 1 (psArm c) (onBit v 0 (psSetPos src c) s)
  onBit v 3 (freeLoop (psLoop c 2)) (onBit v 2 (freeLoop (psLoop c 1)) s2)

/-- A write in a PS window. -/
def psWrite (src : Source) (c : Fin 2) (a : Nat) (v : Word) (s : State) : Nat × State :=
  let o := a % 0x100
  if h : o < 16 then psCfgWrite src c ⟨o / 4, by omega⟩ v s
  else match o with
  | 0x058 => (0, s.setPs c fun x => { x with diag := x.diag &&& ~~~(v.setWidth 9) })
  | 0x064 => (0, s.setPs c fun x => { x with presetPos := v })
  | 0x068 => (0, s.setPs c fun x => { x with presetRev := v })
  | 0x070 => psCmpWrite src c v s
  | 0x080 => (0, psCmdWrite src c v s)
  | _ => roWrite a s

/-- A write of a common PS register. -/
def psCommonWrite (a : Nat) (v : Word) (s : State) : Nat × State :=
  match a with
  | 0x02C200 => (0, psBlkWrite (bit v 0) s)
  | 0x02C204 => (0, readmitCells v (fun (k : Fin 2) => (psbId, k.val)) s)
  | _ => roWrite a s

/-- A write in the acquisition span. -/
def acqWrite (src : Source) (a : Nat) (v : Word) (s : State) : Nat × State :=
  let o := a % 0x10000
  if h : o < 0x4000 then uiWrite src ⟨o / 0x400, by omega⟩ a v s
  else if h : 0x4000 ≤ o ∧ o < 0x5000 then aoWrite src ⟨(o - 0x4000) / 0x400, by omega⟩ a v s
  else if h : 0x8000 ≤ o ∧ o < 0x9000 then dioWrite src ⟨(o - 0x8000) / 0x100, by omega⟩ a v s
  else if 0x9000 ≤ o ∧ o < 0xA000 then dioCommonWrite a v s
  else if h : 0xC000 ≤ o ∧ o < 0xC200 then psWrite src ⟨(o - 0xC000) / 0x100, by omega⟩ a v s
  else psCommonWrite a v s

/-! ### Alarm service -/

/-- A write into read-only records is ignored and logged (R246, R277, R328, ch. 4). -/
def recordWrite (src : Source) (a : Nat) (s : State) : Nat × State := (7, logWerr 6 src a s)

/-- A write in the alarm span. -/
def almWrite (src : Source) (a : Nat) (v : Word) (s : State) : Nat × State :=
  if 0x049000 ≤ a ∧ a < 0x04B020 then recordWrite src a s
  else match a with
  | 0x040010 => (0, if fld v 8 2 = 0 then s else ptCmdWrite (fld v 8 2) (fld v 0 7) src s)
  | 0x040014 => (0, { s with pev := { s.pev with subst := v } })
  | 0x040100 => (0, if fld v 24 3 = 0 then s else almCmdWrite (fld v 24 3) (fld v 28 2) (fld v 0 23) src s)
  | 0x040104 => (0, s.setAnn fun n => { n with arg := fld v 0 11 })
  | 0x048008 => (0, if fld v 16 2 = 0 then s else callCmdWrite (fld v 16 2) (fld v 24 5) (fld v 0 9) src s)
  | _ => roWrite a s

/-! ### Link -/

/-- A write of a CAN register; on a worker every write of CAN2 and CAN3 is refused (R299). A write of TXABORT does not say
which frame is on the bus (log 1). -/
def canWrite (src : Source) (k : Fin 4) (a : Nat) (v : Word) (s : State) : Nat × State :=
  let imz := src ≠ .chip ∧ v &&& 0x0FFFFFFF ≠ 0
  if !canPresent s k then (if (regLive s a).isSome then 7 else 6, s)
  else match a % 0x1000 with
  | 0x000 => canCtlWrite src k v s
  | 0x004 => canTimeWrite src k 4 v s
  | 0x008 => canTimeWrite src k 8 v s
  | 0x00C => canTimeWrite src k 12 v s
  | 0x010 => (0, if bit v 6 then s.setCan k fun c => { c with tdcRange := false } else s)
  | 0x020 => (if imz then 7 else 0, canTxReq src k v s)
  | 0x024 => (if imz then 7 else 0, canTxAbort src k v (canOnBus s k) s.drew)
  | 0x030 => (0, s.setCan k fun c => { c with rxNew := c.rxNew &&& ~~~(v.setWidth 64) })
  | 0x034 => (0, s.setCan k fun c => { c with rxNew := c.rxNew &&& ~~~(v.setWidth 64 <<< 32) })
  | _ => roWrite a s

/-- A write of `LVN_CTL` (ch. 14). -/
def lvnCtlWrite (src : Source) (v : Word) (s : State) : Nat × State :=
  let s1 := lvnStop src (bit v 0) (s.setLvn fun n => { n with noRevert := bit v 2 })
  let s2 := lvnLoopStart src (fld v 8 2) s1
  let s3 := if bit v 1 then handStart src s2 else s2
  (if s1.lvn.stop ≠ bit v 0 ∨ s2.lvn.loop ≠ fld v 8 2 then 7 else 0, s3)

/-- A write in the link span. -/
def lnkWrite (src : Source) (a : Nat) (v : Word) (s : State) : Nat × State :=
  if h : 0x060000 ≤ a ∧ a < 0x064000 then canWrite src ⟨(a - 0x060000) / 0x1000, by omega⟩ a v s
  else match a with
  | 0x066018 => (0, s.setTim fun t => { t with setLo := v })
  | 0x06601C => (0, s.setTim fun t => { t with setHi := v })
  | 0x066020 => (0, onBit v 1 (timCmd src true) (onBit v 0 (timCmd src false) s))
  | 0x068000 => (0, if bit v 6 then s.setLvn fun n => { n with presFault := false } else s)
  | 0x068030 => lvnCtlWrite src v s
  | _ => roWrite a s

/-! ### Keep, face and supervisor -/

/-- A write of `REC_CTL`: STOP, then FLUSH, then FORMAT, which sees the STOP just written. -/
def recCtlWrite (src : Source) (v : Word) (s : State) : State :=
  let s1 := onBit v 1 flushPages (recStop (bit v 0) s)
  onBit v 2 (recFormatCmd src (BitVec.ofNat 8 (fld v 8 8))) s1

/-- A write of `REC_RD`; an OP that R404 does not name is a reserved code (R104, log 27). -/
def recRdWrite (src : Source) (v : Word) (s : State) : Nat × State :=
  if 1 ≤ fld v 0 8 ∧ fld v 0 8 ≤ 4 then (0, recRead (fld v 0 8) (bit v 8) s) else (7, logWerr 9 src 0x080024 s)

/-- A write in the keep span. -/
def kepWrite (src : Source) (a : Nat) (v : Word) (s : State) : Nat × State :=
  if 0x085000 ≤ a ∧ a < 0x086000 then bufWrite src (BitVec.ofNat 10 ((a - 0x085000) / 4)) v s
  else match a with
  | 0x080020 => (0, recCtlWrite src v s)
  | 0x080024 => recRdWrite src v s
  | 0x080028 => (0, s.setRec fun r => { r with argLo := v })
  | 0x08002C => (0, s.setRec fun r => { r with argHi := v })
  | 0x084004 => (0, if rcpUp s then rcpCmd src v s else s)
  | _ => roWrite a s

/-- A write of a PNL or RND register. -/
def fceWrite (src : Source) (a : Nat) (v : Word) (s : State) : Nat × State :=
  match a with
  | 0x0A0010 => (0, s.setPnl fun p => { p with xy := v &&& 0x0FFF0FFF })
  | 0x0A0014 => (0, s.setPnl fun p => { p with wh := v &&& 0x0FFF0FFF })
  | 0x0A0018 => (0, updCmd src (BitVec.ofNat 8 (fld v 24 8)) (bit v 8) (fld v 0 4) s)
  | 0x0A0030 => (0, s.setPnl fun p => { p with fbPage := fld v 0 6 })
  | 0x0A0034 => (0, onBit v 0 pnlRefresh (onBit v 1 (inPnl pnlLeaveFault) s))
  | 0x0A4004 => rndCtlWrite src (fld v 0 2) (fld v 16 10) s
  | 0x0A4008 => (0, rndKeyWrite (fld v 0 4) (fld v 24 5) s)
  | _ => roWrite a s

/-- The measurement of an item now, with a reading of the environment that is free (R469, log 1). -/
def freeMeas (i : Fin 64) (f : BitVec 64) : AgeMeas :=
  if h : i.val < 16 then .ref ⟨i.val, h⟩ (sfld f 0 32) (sfld f 32 32)
  else if h : 16 ≤ i.val ∧ i.val < 20 then .gain ⟨i.val - 16, by omega⟩ (sfld f 0 32) (fld f 32 16)
  else if h : 20 ≤ i.val ∧ i.val < 36 then .switch ⟨i.val - 20, by omega⟩ (fld f 0 32)
  else if i.val = 36 then .tcxo
  else if i.val < 39 then .hold (fld f 0 30) (fld f 30 30) (bit f 60) (bit f 61)
  else if h : 40 ≤ i.val then .barrier ⟨i.val - 40, by omega⟩ (fld f 0 27)
  else .wear (BitVec.ofNat 8 (fld f 0 8)) (BitVec.ofNat 8 (fld f 8 8)) (BitVec.ofNat 8 (fld f 16 8))

/-- A write of `AGE_CMD` (ch. 18). -/
def ageCmdWrite (src : Source) (v : Word) (s : State) : State :=
  let item : Byte := BitVec.ofNat 8 (fld v 8 8)
  match fld v 0 3 with
  | 0 => s
  | 1 => ageCmd src item ageAck s
  | 2 => ageCmd src item ageRebase s
  | 3 => ageTake (freeMeas 37 s.freeVal) s.drew
  | 4 =>
    if h : item.toNat < 64 then ageTake (freeMeas ⟨item.toNat, h⟩ s.freeVal) s.drew else logWerr 9 src ageCmdAddr s
  | _ => logWerr 9 src ageCmdAddr s

/-- A write of an AGE or TST register. -/
def supWrite (src : Source) (a : Nat) (v : Word) (s : State) : Nat × State :=
  if 0x0C1000 ≤ a then recordWrite src a s
  else match a with
  | 0x0C0010 => (0, ageCmdWrite src v s)
  | 0x0C0800 => (0, fieldStart (BitVec.ofNat 5 (fld v 8 5)) (BitVec.ofNat 5 (fld v 0 5)) s)
  | _ => roWrite a s

/-- A write in a memory window: transmit buffers and the framebuffer's host area take it; the others are read-only (R312,
R421, R450). -/
def windowWrite (src : Source) (a : Nat) (v : Word) (s : State) : Nat × State :=
  if 0xC00000 ≤ a then (7, logWerr 4 src a s)
  else if 0x200000 ≤ a then recordWrite src a s
  else if 0x140000 ≤ a then fbWrite src (a - 0x140000) v s
  else if h : 0x110000 ≤ a ∧ a < 0x120000 then
    if a % 0x4000 < 0x3000 then canRamWrite src ⟨(a - 0x110000) / 0x4000, by omega⟩ (a % 0x4000) v s else (6, s)
  else recordWrite src a s

/-- A write at a word address that its region serves. -/
def regWrite (src : Source) (a : Nat) (v : Word) (s : State) : Nat × State :=
  match a / 0x10000 with
  | 0x00 => sysWrite src a v s
  | 0x01 => evrWrite src a v s
  | 0x02 => acqWrite src a v s
  | 0x04 => almWrite src a v s
  | 0x06 => lnkWrite src a v s
  | 0x08 => kepWrite src a v s
  | 0x0A => if 0x0A8000 ≤ a then hpWrite src a v s else fceWrite src a v s
  | 0x0C => supWrite src a v s
  | _ => windowWrite src a v s

/-- One write counts as one ignored write however many of its fields are ignored (R104). -/
def oneWerr (s t : State) : State :=
  { t with sys := { t.sys with werr := { t.sys.werr with cnt := min t.sys.werr.cnt (satInc 255 s.sys.werr.cnt) } } }

/-- A write: response code and next state (R47, R450). -/
def busWrite (src : Source) (a : Nat) (v : Word) (s : State) : Nat × State :=
  if a % 4 ≠ 0 then (6, s)
  else if reach s a ≠ 0 then (reach s a, s)
  else
    let r := regWrite src a v s
    (r.1, oneWerr s r.2)

/-! ### Meanings -/

/-- REGISTER_WRITE (R5, R104). -/
def execRegisterWrite (src : Source) (addr : BitVec 24) (v : Word) (s : State) : Host.Outcome State Fault Refusal :=
  .next (if s.powered then (busWrite src addr.toNat v s).2 else s)

/-- A read outside a port's transaction: the code and the word stand in the state. -/
def readNow (a : Nat) (s : State) : State :=
  let r := busFetch a s
  { r.2.2 with sys := { r.2.2.sys with readOut := (r.1, r.2.1) } }

/-- READ_CLEAR (R5): a read of a register with an RC field. -/
def execReadClear (addr : BitVec 24) (s : State) : Host.Outcome State Fault Refusal :=
  .next (if s.powered ∧ rcRegs.contains addr.toNat then readNow addr.toNat s else s)

/-- TIME_LO_READ (R8): a read of a _LO timestamp register. -/
def execTimeLoRead (addr : BitVec 24) (s : State) : Host.Outcome State Fault Refusal :=
  .next (if s.powered ∧ loRegs.contains addr.toNat then readNow addr.toNat s else s)

end Sys2Proof.Machine
end

