-- ==== Sys2Proof/Machine/Cmd.lean ====
section
/-! DEFINITION. Cmd: the commands that arrive for this node over Imzin: register access, annunciation, points, duty, state
reports, the time, and CONFLICT (R325, R340 to R342). -/
namespace Sys2Proof.Machine

open Sys2Proof

/-! ### Intake of a command -/

/-- Byte `i` of a frame as a number. -/
def rxByte (f : ImzRx) (i : Nat) : Nat := dataNat f.data i 1

/-- The moment a bus command was received: the SOF of its frame (R311, R368). -/
def rxTime (f : ImzRx) (s : State) : Nat := s.now - f.age

/-- The stored record of a command's tag (R342). -/
def tagOf (f : ImzRx) (s : State) : Option TagRec :=
  s.imz.tags.find? fun t => t.node == f.src && t.tag == f.data.getD 2 0

/-- A command is taken for execution: its tag is kept and its SOF noted for the marks (R342, R365). -/
def cmdTake (f : ImzRx) (s : State) : State :=
  (s.setLvn fun v => { v with takenSof := stampOf (rxTime f s) }).setImz fun z =>
    { z with tags := z.tags ++ [{ node := f.src, tag := f.data.getD 2 0, rsp := [] }] }

/-- A command that was not applied is answered, and its tag not kept: only applied commands are (R342). -/
def cmdRefuse (f : ImzRx) (result detail : Nat) (s : State) : State :=
  imzReply (cmdRef s f) result detail 0 [] (s.setImz fun z =>
    { z with tags := z.tags.filter fun t => !(t.node == f.src && t.tag == f.data.getD 2 0) })

/-- A command of opcode `op` for this node acts. A repeated tag is answered with the stored RSP, and not applied again; a
unit that hands over takes no bus command (R342, R378). -/
def cmdBody (op : Nat) (f : ImzRx) (act : State → State) (s : State) : State :=
  if handingOver s ∨ f.dir = 3 ∨ (rxByte f 4).testBit 2 ∨ rxByte f 3 ≠ op ∨ dataNat f.data 0 2 ≠ s.nodeNum.toNat then s
  else match tagOf f s with
  | some t => if t.rsp = [] then s else imzToward (cmdRef s f).down 4 0x41 t.rsp s
  | none => act (cmdTake f s)

/-- A command of opcode `op` is received. -/
def cmdFor (op : Nat) (f : ImzRx) (act : State → State) (s : State) : State := imzRx 0x40 f (cmdBody op f act) s

/-- The origin of a command (R254, R256): origin code 3; one that a manager forwarded carries its origin's location and
ack time, and the time of reception stands for an invalid one (R8, log 28). `replay`: the command is replayed at a
take-over (R259). -/
def cmdOrigin (replay : Bool) (f : ImzRx) (s : State) : Origin :=
  let fwd := (rxByte f 4).testBit 1
  { code := 3, detail := f.src, loc := if fwd then (rxByte f 4).testBit 0 else s.nodeLoc f.src,
    ack := if fwd then stampTicks (BitVec.ofNat 64 (dataNat f.data 8 8)) (rxTime f s) else rxTime f s,
    ref := some (cmdRef s f), replay := replay }

/-! ### Register access -/

/-- A response code of R47 as an RSP's result (R342). -/
def rspOf (code : Nat) : Nat := if code = 0 then 0 else if code = 6 then 1 else if code = 5 then 3 else 2

/-- The first code other than OK, with its index; OK and 0 where there is none (R445, R447). -/
def firstBad (l : List Nat) : Nat × Nat :=
  match l.zipIdx.find? fun p => p.1 != 0 with
  | some p => p
  | none => (0, 0)

/-- Words read in order: code and word of each, next state. -/
def fetchWords : List Nat → State → List (Nat × Word) × State
  | [], s => ([], s)
  | a :: l, s =>
    let r := busFetch a s
    let t := fetchWords l r.2.2
    ((r.1, r.2.1) :: t.1, t.2)

/-- Words written in order, each as one request; a failing word does not stop the words after it (R445). -/
def storeWords (src : Source) : List (Nat × Word) → State → List Nat × State
  | [], s => ([], s)
  | (a, v) :: l, s =>
    let r := busWrite src a v s
    let t := storeWords src l r.2
    (r.1 :: t.1, t.2)

/-- The addresses of `n` words from `a`. -/
def wordAddrs (a n : Nat) : List Nat := (List.range n).map fun i => a + 4 * i

/-- REG_READ: 1 to 8 words; a location whose read is not idempotent is refused (R341). -/
def cmdRegRead (f : ImzRx) (s : State) : State :=
  let a := dataNat f.data 16 4
  let n := rxByte f 20
  if n = 0 ∨ 8 < n then cmdRefuse f 8 0 s
  else if a % 4 ≠ 0 then cmdRefuse f 1 0 s
  else if (wordAddrs a n).all readIdem = false then cmdRefuse f 2 0 s
  else
    let r := fetchWords (wordAddrs a n) s
    let bad := firstBad (r.1.map (·.1))
    if bad.1 = 0 then imzReply (cmdRef s f) 0 0 n (r.1.map (·.2)) r.2 else cmdRefuse f (rspOf bad.1) 0 r.2

/-- REG_WRITE: 1 to 8 words, as a host write of the same words (R341). -/
def cmdRegWrite (f : ImzRx) (s : State) : State :=
  let a := dataNat f.data 16 4
  let n := rxByte f 20
  if n = 0 ∨ 8 < n then cmdRefuse f 8 0 s
  else if a % 4 ≠ 0 then cmdRefuse f 1 0 s
  else
    let ws := (wordAddrs a n).zipIdx.map fun p => (p.1, (BitVec.ofNat 32 (dataNat f.data (24 + 4 * p.2) 4) : Word))
    let r := storeWords (.imzin f.src) ws s
    imzReply (cmdRef s f) (rspOf (firstBad r.1).1) 0 n [] r.2

/-! ### Service commands -/

/-- ALARM: as `ALM_CMD` (R254 to R261, R341); a point address that names no point is answered BAD_ADDR, a full queue BUSY.
-/
def cmdAlarm (replay : Bool) (f : ImzRx) (s : State) : State :=
  let target := dataNat f.data 18 4
  let slot := addrSlot target
  let own := addrNode target == s.nodeNum
  if rxByte f 17 = 0 ∧ (80 ≤ slot ∨ (own ∧ s.ptUsed slot = false)) then cmdRefuse f 1 0 s
  else
    let r := annSubmit { op := rxByte f 16, scope := rxByte f 17, target := target, minutes := dataNat f.data 22 2,
                         reg := false, org := cmdOrigin replay f s } s
    if r.1 = 0 then r.2 else cmdRefuse f (annRsp r.1) r.1 r.2

/-- `PT_CMD`'s way of taking a point command (R225). -/
def ptTake (c : PtCmd) (s : State) : Nat × State := ptCommand c.op c.slot c.subst c.org s

/-- POINT: as `PT_CMD` (R225, R341). `run` takes the command, and answers with a refusal's code. -/
def cmdPoint (replay : Bool) (f : ImzRx) (run : PtCmd → State → Nat × State) (s : State) : State :=
  let op := rxByte f 16
  let slot := rxByte f 17
  if op = 0 ∨ 3 < op then cmdRefuse f 5 0 s
  else if s.ptUsed slot = false then cmdRefuse f 1 0 s
  else
    let r := run { op := op, slot := slot, subst := BitVec.ofNat 32 (dataNat f.data 20 4), org := cmdOrigin replay f s } s
    if r.1 = 0 then r.2 else cmdRefuse f (if r.1 = 6 then 3 else 4) r.1 r.2

/-- DUTY: a selection with source 3 (R289); without the call service it is answered NO_SERVICE (R278). -/
def cmdDuty (replay : Bool) (f : ImzRx) (s : State) : State :=
  if callOn s then
    callPush { op := 1, eng := rxByte f 16, session := 0, src := 3, addr := 0, reg := false, org := cmdOrigin replay f s } s
  else cmdRefuse f (callRsp 6) 6 s

/-- STATE_REQ: the answer, then the report (R329, R341). -/
def cmdStateReq (f : ImzRx) (s : State) : State :=
  imzStateReport f.src (imzReply (cmdRef s f) 0 0 0 [] s)

/-- TIME_SET: accepted by the grand master only (R341, R348). -/
def cmdTimeSet (f : ImzRx) (s : State) : State :=
  let t : Ts := BitVec.ofNat 64 (dataNat f.data 16 8)
  let r := if (rxByte f 24).testBit 0 then timSetAtPulse t s else timSet t s
  if r.1 then imzReply (cmdRef s f) 0 0 0 [] r.2 else cmdRefuse f 2 0 s

/-- CONFLICT: it names this node's number and its serial number; it is never answered (R325, R341). -/
def cmdConflict (f : ImzRx) (s : State) : State :=
  let ours := fun (i : Nat) => (BitVec.ofNat 64 (dataNat f.data i 8) : BitVec 64) == Config.serial
  if imzLive s ∧ f.data.length = 64 ∧ rxByte f 3 = 0x40 ∧ dataNat f.data 0 2 = s.nodeNum.toNat ∧ (ours 16 ∨ ours 24) then
    enterConflict (imzTook 4 0x40 f s)
  else s

/-! ### Meanings -/

/-- CMD_REG_READ (R341). -/
def execCmdRegRead (f : ImzRx) (s : State) : Host.Outcome State Fault Refusal :=
  .next (cmdFor 0x01 f (cmdRegRead f) s)

/-- CMD_REG_WRITE (R341). -/
def execCmdRegWrite (f : ImzRx) (s : State) : Host.Outcome State Fault Refusal :=
  .next (cmdFor 0x02 f (cmdRegWrite f) s)

/-- CMD_ALARM (R341). -/
def execCmdAlarm (f : ImzRx) (s : State) : Host.Outcome State Fault Refusal := .next (cmdFor 0x10 f (cmdAlarm false f) s)

/-- CMD_POINT (R341). -/
def execCmdPoint (f : ImzRx) (s : State) : Host.Outcome State Fault Refusal := .next (cmdFor 0x11 f (cmdPoint false f ptTake) s)

/-- CMD_DUTY (R341). -/
def execCmdDuty (f : ImzRx) (s : State) : Host.Outcome State Fault Refusal := .next (cmdFor 0x20 f (cmdDuty false f) s)

/-- CMD_STATE_REQ (R341). -/
def execCmdStateReq (f : ImzRx) (s : State) : Host.Outcome State Fault Refusal :=
  .next (cmdFor 0x30 f (cmdStateReq f) s)

/-- CMD_TIME_SET (R341, R348). -/
def execCmdTimeSet (f : ImzRx) (s : State) : Host.Outcome State Fault Refusal := .next (cmdFor 0x31 f (cmdTimeSet f) s)

/-- CMD_CONFLICT (R325, R341). -/
def execCmdConflict (f : ImzRx) (s : State) : Host.Outcome State Fault Refusal := .next (cmdConflict f s)

end Sys2Proof.Machine
end

