-- ==== Sys2Proof/Machine/HostPort.lean ====
section
/-! DEFINITION. HostPort: the transactions of the two SPI host ports, held writes, host idleness and doorbells
(R74, R441 to R453). -/
namespace Sys2Proof.Machine

open Sys2Proof

/-- The state with a host port replaced. -/
def State.setHp (s : State) (h : Fin 2) (f : HostPort → HostPort) : State := { s with hp := s.hp.set h (f s.hp[h]) }

/-! ### The header (R442) -/

/-- The transaction carries CRC-8. -/
def hdrCrc (b : List Byte) : Bool := (dataNat b 0 1).testBit 7
/-- Direction: a write. -/
def hdrWrite (b : List Byte) : Bool := (dataNat b 0 1).testBit 6
/-- Word count, 1 to 64. -/
def hdrCount (b : List Byte) : Nat := dataNat b 0 1 % 64 + 1
/-- The address, most significant byte first. -/
def hdrAddr (b : List Byte) : BitVec 24 :=
  BitVec.ofNat 24 (dataNat b 1 1 * 65536 + dataNat b 2 1 * 256 + dataNat b 3 1)

/-- The last of a list of bytes is the CRC-8 over those before it (R446). -/
def crcHolds (b : List Byte) : Bool := b.getLast? == some (crc8 b.dropLast)

/-- Words answered ABSENT or CANCELLED. -/
def absentWords (codes : List Nat) : Nat := (codes.filter fun c => c == 1 || c == 2).length

/-- Words answered ABSENT or CANCELLED are counted (HP_CNT_x). -/
def countAbsent (h : Fin 2) (codes : List Nat) (s : State) : State :=
  s.setHp h fun p => { p with cntAbsent := min 255 (p.cntAbsent + absentWords codes) }

/-! ### Held writes (R445, R448) -/

/-- A write's outcome (HP_LASTW_x). -/
def lastWrite (h : Fin 2) (seq : Half) (index code : Nat) (crc frame : Bool) (s : State) : State :=
  s.setHp h fun p => { p with lwSeq := seq, lwIndex := index, lwCode := code, lwCrc := crc, lwFrame := frame }

/-- The words of a held write, in order; a start of the module on the way ends it, with the port's own state. -/
def hostStore (h : Fin 2) : List (Nat × Word) → State → List Nat × State
  | [], s => ([], s)
  | (a, v) :: l, s =>
    if s.hp[h].held = [] then ([], s)
    else
      let r := busWrite (hostSource h) a v s
      let t := hostStore h l r.2
      (r.1 :: t.1, t.2)

/-- The oldest held write is applied word by word, and reported (R445, R448). -/
def hostApply (h : Fin 2) (s : State) : State :=
  match s.hp[h].held with
  | [] => s
  | w :: _ =>
    let r := hostStore h ((wordAddrs w.addr.toNat w.words.length).zip w.words) s
    let bad := firstBad r.1
    if r.2.hp[h].held = [] then r.2
    else lastWrite h w.seq bad.2 bad.1 false false (countAbsent h r.1 (r.2.setHp h fun p => { p with held := p.held.drop 1 }))

/-- The data words of a write, least significant byte first (R442). -/
def wordsOf (n : Nat) (b : List Byte) : List Word := (List.range n).map fun i => BitVec.ofNat 32 (dataNat b (4 + 4 * i) 4)

/-- A write transaction ends: byte count, CRC, CRC_REQ and alignment are judged in this order; else it is held, or finds
the buffer full (R442, R445, R446, R448). -/
def hostWrite (h : Fin 2) (b : List Byte) (s : State) : State :=
  let n := hdrCount b
  let p := s.hp[h]
  let crc := hdrCrc b
  if b.length ≠ (if crc then 5 else 4) + 4 * n then
    lastWrite h p.seq 0 0 false true (s.setHp h fun p => { p with cntFrame := satInc 255 p.cntFrame })
  else if crc && !crcHolds b then
    lastWrite h p.seq 0 0 true false (s.setHp h fun p => { p with cntCrc := satInc 255 p.cntCrc })
  else if !crc && p.crcReq then lastWrite h p.seq 0 7 false false s
  else if (hdrAddr b).toNat % 4 ≠ 0 then lastWrite h p.seq 0 6 false false s
  else if 2 ≤ p.held.length then
    lastWrite h p.seq 0 5 false false (s.setHp h fun p => { p with cntBusy := satInc 255 p.cntBusy })
  else s.setHp h fun p => { p with held := p.held ++ [{ seq := p.seq, addr := hdrAddr b, words := wordsOf n b }] }

/-! ### Reads (R443, R444, R447) -/

/-- The words after the first: a location whose read is not idempotent is not read, and its code is REFUSED (R444). -/
def fetchLater : List Nat → State → List (Nat × Word) × State
  | [], s => ([], s)
  | a :: l, s =>
    let r := if readIdem a then busFetch a s else (7, 0, s)
    let t := fetchLater l r.2.2
    ((r.1, r.2.1) :: t.1, t.2)

/-- The words of a read in order. -/
def hostFetch (a n : Nat) (s : State) : List (Nat × Word) × State :=
  let r := busFetch a s
  let t := fetchLater ((wordAddrs a n).drop 1) r.2.2
  ((r.1, r.2.1) :: t.1, t.2)

/-- What the module shifts out: ready byte, data words, status byte, and with CRC the CRC-8 over them (R443, R447). -/
def replyBytes (crc bad : Bool) (words : List (Nat × Word)) : List Byte :=
  let mark := fun (c : Nat) => (BitVec.ofNat 8 (128 + (if bad then 16 else 0) + c) : Byte)
  let body := mark ((words.map (·.1)).headD 0) :: ((words.flatMap fun w => bytesLE 4 w.2.toNat) ++
    [mark (firstBad (words.map (·.1))).1])
  if crc then body ++ [crc8 body] else body

/-- A read of which every word fails with one code. -/
def failedWords (n code : Nat) : List (Nat × Word) := List.replicate n (code, 0)

/-- A read transaction: it waits for the port's held writes (R443, R446, R448). -/
def hostRead (h : Fin 2) (b : List Byte) (s0 : State) : State :=
  let n := hdrCount b
  let crc := hdrCrc b
  let s := hostApply h (hostApply h s0)
  let a := (hdrAddr b).toNat
  let done := fun (l : List (Nat × Word)) (bad : Bool) (t : State) =>
    (countAbsent h (l.map (·.1)) t).setHp h fun p => { p with reply := replyBytes crc bad l }
  if crc && !crcHolds b then
    done (failedWords n 4) true (s.setHp h fun p => { p with cntCrc := satInc 255 p.cntCrc })
  else if !crc && s.hp[h].crcReq then done (failedWords n 7) false s
  else if a % 4 ≠ 0 then done (failedWords n 6) false s
  else
    let r := hostFetch a n s
    done r.1 false r.2

/-! ### Transactions -/

/-- The port takes part: the module runs, and IDENT does not mark the port unused (R441, R93). -/
def hostUp (s : State) (h : Fin 2) : Bool := s.powered && !s.ident7 h.val

/-- The falling edge of `Hx_CSN` powers KEP and FCE up from DOZE (R74), and the clock's level sets the mode (R441). -/
def hostSelect (h : Fin 2) (mode3 : Bool) (s : State) : State :=
  let s1 := if s.sys.power = .doze then dozeUp rFCE (dozeUp rKEP s) else s
  s1.setHp h fun p => { p with mode3 := mode3 }

/-- A transaction is completed (HP_STAT_x.SEQ). -/
def hostDone (h : Fin 2) (s : State) : State := s.setHp h fun p => { p with seq := p.seq + 1 }

/-- A transaction of the bytes that the host sends: a read once its header is whole, a write at the rising edge of
`Hx_CSN`, of whatever length; a header that breaks off is none. -/
def hostTransact (h : Fin 2) (mode3 : Bool) (b : List Byte) (s : State) : State :=
  if hostUp s h = false then s
  else
    let s1 := hostSelect h mode3 s
    if b = [] then s1
    else if hdrWrite b then hostWrite h b (hostDone h s1)
    else
      let n := if hdrCrc b then 5 else 4
      if b.length < n then s1 else hostDone h (hostRead h (b.take n) s1)

/-! ### Meanings -/

/-- HOST_READ (R443): the header that the host sends. -/
def execHostRead (h : Fin 2) (mode3 : Bool) (header : List Byte) (s : State) : Host.Outcome State Fault Refusal :=
  .next (hostTransact h mode3 header s)

/-- HOST_WRITE (R445): every byte that the host sends. -/
def execHostWrite (h : Fin 2) (mode3 : Bool) (bytes : List Byte) (s : State) : Host.Outcome State Fault Refusal :=
  .next (hostTransact h mode3 bytes s)

/-- HOST_WRITE_APPLY (R448). -/
def execHostWriteApply (h : Fin 2) (s : State) : Host.Outcome State Fault Refusal :=
  .next (if s.powered then hostApply h s else s)

/-- HOST_SLEEP_CHANGE (R452, R465): the level that `Hx_SLP` has held for its filter time. -/
def execHostSleepChange (h : Fin 2) (level : Bool) (s : State) : Host.Outcome State Fault Refusal :=
  .next (if s.powered then idleEndsHold h (s.setHp h fun p => { p with slp := level }) else s)

/-- HOST_IDLE_DOORBELL (R452, R465): a write of `HP_CTL_x.IDLE`. -/
def execHostIdleDoorbell (h : Fin 2) (idle : Bool) (s : State) : Host.Outcome State Fault Refusal :=
  .next (if s.powered then idleWrite h idle s else s)

/-- HOST_DOORBELL (R453). -/
def execHostDoorbell (b : Bool) (payload : Word) (s : State) : Host.Outcome State Fault Refusal :=
  .next (if s.powered then doorbell b payload s else s)

end Sys2Proof.Machine
end

