-- ==== Sys2Proof/Machine/Fabric.lean ====
section
/-! DEFINITION. Fabric: requests between regions, cells and their blocks, READY and its limit, the watchdogs, faults of the
supervisor, and the scrubber (R33, R39 to R57). -/
namespace Sys2Proof.Machine

open Sys2Proof

/-- The fabric replaced. -/
def State.setFab (s : State) (f : Fabric → Fabric) : State := { s with fab := f s.fab }

/-- The fabric and the supervisor's watchdogs run: not without power, not in DORMANT (R77). -/
def fabLive (s : State) : Bool := s.powered && s.sys.power != .dormant

/-! ### Requests (R47 to R51) -/

/-- Requester and target as one index of the sequence tables. -/
def seqKey (requester target : BitVec 6) : Nat := requester.toNat * 64 + target.toNat

/-- The last sequence number that a target applied from a requester, where it has applied one (R50). -/
def seqLast (f : Fabric) (requester target : BitVec 6) : Option Nat :=
  (f.seqs.find? fun p => p.1 == seqKey requester target).map (·.2)

/-- A target notes the sequence number of what it applied (R50). -/
def seqNote (o : FabOut) (f : Fabric) : Fabric :=
  let k := seqKey o.req.requester o.req.target
  if reqIdem o.req then f else { f with seqs := (k, o.seq.toNat) :: f.seqs.filter fun p => p.1 != k }

/-- A new request; one that is not idempotent takes its requester's next number for the target (R50). -/
def fabNew (q : FabReq) (s : State) : FabOut × State :=
  let k := seqKey q.requester q.target
  let n := tblGet 0 s.fab.next k
  if reqIdem q then ({ req := q }, s)
  else ({ req := q, seq := BitVec.ofNat 16 n },
    { s with fab := { s.fab with next := tblPut 0 s.fab.next k ((n + 1) % 65536) } })

/-- This outstanding request. -/
def FabOut.named (o : FabOut) (requester : BitVec 6) (tag : Byte) : Bool := o.req.requester == requester && o.req.tag == tag

/-- The outstanding request of a requester's tag. -/
def fabFind (requester : BitVec 6) (tag : Byte) (s : State) : Option FabOut := s.fab.out.find? fun o => o.named requester tag

/-- Outstanding requests without one of them. -/
def fabDrop (requester : BitVec 6) (tag : Byte) (s : State) : State :=
  s.setFab fun f => { f with out := f.out.filter fun o => !o.named requester tag }

/-- An outstanding request replaced in its place. -/
def fabPut (n : FabOut) (s : State) : State :=
  s.setFab fun f => { f with out := f.out.map fun o => if o.named n.req.requester n.req.tag then n else o }

/-- The address lies with the target: in its region, or at module level for the supervisor (R37, R490). -/
def addrOfTarget (q : FabReq) : Bool :=
  match homeOf q.addr.toNat with
  | .module => q.target == 0x28
  | .region r => blockRegion q.target == some r
  | .nowhere => false

/-- A panel update request's response: BUSY where the panel's queue is full, REFUSED for its other refusals (R47, R424). -/
def panelCode (code : Nat) : Nat := if code = 0 then 0 else if code = 1 then 5 else 7

/-- A push, a publication or a copy is carried out by the block that it is for; at another target it is BAD_ADDR (R49). -/
def fabPush (q : FabReq) (s : State) : Nat × State :=
  let at' := fun (b : BitVec 6) (r : Nat × State) => if q.target = b then r else (6, s)
  match q.op with
  | .event src payload => at' 0x24 (0, raise src.toNat payload s)
  | .entry d => at' 0x18 (0, recStore (entryOf d) s)
  | .imzinCmd node down d => at' 0x14 (0, imzSendCmd node down (fun tag => d.take 2 ++ [tag] ++ d.drop 3) s)
  | .canTx mask =>
    if h : 0x10 ≤ q.target.toNat ∧ q.target.toNat < 0x14 then (0, canTxReq .chip ⟨q.target.toNat - 0x10, by omega⟩ mask s)
    else (6, s)
  | .panel x y w h mode tag split =>
    let r := pnlSubmit true { x := x.toNat, y := y.toNat, w := w.toNat, h := h.toNat } mode.toNat tag split s
    at' 0x20 (panelCode r.1, r.2)
  | .count t => at' 0x18 (0, recLose t s)
  | .callStart a cat t =>
    at' 0x0B (0, s.setCall fun c => { c with starts := c.starts ++ [{ addr := a.toNat, cat := cat.toNat, start := t }] })
  | .callStep n => at' 0x0B (0, if (s.call.get n.val).st = 0 then s else callNewStep n.val s)
  | .publish n v ql scan =>
    at' 0x08 (0, if scan = s.pev.num then s.setPt n fun p => { p with srcInt := v, srcQual := ql.toNat } else s)
  | .epochCopy n e =>
    at' 0x16 (0, if e = s.lvn.epoch + 1 then s.setLvn fun v => { v with copy := v.copy.set n s.pev.pts[n] } else s)
  | .swap key same => at' 0x1A (0, rcpSwap .chip key same s)
  | _ => (6, s)

/-- A target carries out a request: response code, data, next state. A number that was never applied is free (R50,
log 1). -/
def fabApply (q : FabReq) (s : State) : Nat × Word × State :=
  match q.op with
  | .read => if addrOfTarget q then busFetch q.addr.toNat s else (6, 0, s)
  | .write v => if addrOfTarget q then let r := busWrite .chip q.addr.toNat v s; (r.1, 0, r.2) else (6, 0, s)
  | .seqQuery =>
    match seqLast s.fab q.requester q.target with
    | some n => (0, BitVec.ofNat 32 n, s)
    | none => (0, BitVec.ofNat 32 (s.freeVal.toNat % 65536), s.drew)
  | _ => ((fabPush q s).1, 0, (fabPush q s).2)

/-- The block's region is ready; the supervisor always is. -/
def blockUp (block : BitVec 6) (s : State) : Bool :=
  match blockRegion block with
  | some r => regionUp r s
  | none => true

/-- The target region is absent: in reset, initialising, held or powered down (R47). -/
def targetAbsent (q : FabReq) (s : State) : Bool := !blockUp q.target s

/-- The answer to a request that arrives: ABSENT, PARITY and BUSY come from the fabric, the rest from the target
(R39, R47). -/
def fabAnswer (o : FabOut) (queueFull parity : Bool) (s : State) : Nat × Word × State :=
  let q := o.req
  if blockKnown q.target = false then (6, 0, s)
  else if targetAbsent q s then (1, 0, s)
  else if parity then (4, 0, s)
  else if queueFull then (5, 0, s)
  else
    let r := fabApply q s
    if r.1 = 0 then (0, r.2.1, r.2.2.setFab (seqNote o)) else r

/-- A PARITY or TIMEOUT response is counted on the target's segment (R57). -/
def segCount (q : FabReq) (timeout : Bool) (s : State) : State :=
  match blockRegion q.target with
  | some r => segmentError r timeout s
  | none => s

/-- The request is carried out, and its answer posted as one step (R48). -/
def fabServe (o : FabOut) (queueFull parity : Bool) (s : State) : State :=
  let r := fabAnswer o queueFull parity s
  let s1 := fabPut { o with stat := .replied r.1 r.2.1 } r.2.2
  if r.1 = 4 then segCount o.req false s1 else s1

/-- Requests of a block that are outstanding; at most 16 (ch. 2). -/
def fabCount (requester : BitVec 6) (s : State) : Nat := (s.fab.out.filter fun o => o.req.requester == requester).length

/-- A request is made: it is served at once, or with `waits` its target has yet to take it. -/
def fabMake (o : FabOut) (queueFull parity waits : Bool) (s : State) : State :=
  if waits && blockKnown o.req.target && !targetAbsent o.req s then fabPut { o with stat := .inFlight } s
  else fabServe o queueFull parity s

/-- A request is made: a new one, or one that its requester sends again. -/
def fabRequest (q : FabReq) (queueFull parity waits : Bool) (s : State) : State :=
  match fabFind q.requester q.tag s with
  | some o => if o.stat = .resend then fabMake o queueFull parity waits s else s
  | none =>
    if 16 ≤ fabCount q.requester s ∨ blockKnown q.requester = false then s
    else
      let r := fabNew q s
      fabMake r.1 queueFull parity waits (r.2.setFab fun f => { f with out := f.out ++ [r.1] })

/-- A slot's transfer has failed: BAD_COMM, which the next scan publishes too (R51, R52, R57). -/
def slotLost (n : Nat) (s : State) : State :=
  if h : n < 80 then s.setPt ⟨n, h⟩ fun x => { x with srcQual := 4, qual := 4, pq := 4, commLost := true } else s

/-- A point loses its transfer. -/
def pointLost (p : Option (Fin 80)) (s : State) : State :=
  match p with
  | some n => slotLost n.val s
  | none => s

/-- A request ends without success, and its requester is told. -/
def fabReport (o : FabOut) (code : Nat) (s : State) : State :=
  (fabDrop o.req.requester o.req.tag s).setFab fun f =>
    { f with failed := f.failed ++ [(o.req, code)], lastReply := some (o.req, code, 0) }

/-- The cause code of a failed request: fabric parity or timeout; BUSY has none of its own, so that it is free among the
five (R505, log 1). -/
def fabCause (code : Nat) (s : State) : Nat := if code = 4 then 1 else if code = 3 then 2 else 1 + s.freeVal.toNat % 5

/-- The last permitted resend failed: a block fault of the requester, and BAD_COMM (R51). -/
def fabFail (o : FabOut) (code : Nat) (s : State) : State :=
  let s1 := pointLost o.req.point (fabReport o code s)
  blockFault o.req.requester.toNat 0 (fabCause code s) (if code = 5 then s1.drew else s1)

/-- TIMEOUT or PARITY: an idempotent request is sent again at most twice, another after SEQ_QUERY (R51). -/
def fabUncertain (o : FabOut) (code : Nat) (s : State) : State :=
  if reqIdem o.req then
    if o.tries < 2 then fabPut { o with stat := .resend, tries := o.tries + 1, last := code } s else fabFail o code s
  else fabPut { o with stat := .waitSeq, tries := o.tries + 1, last := code } s

/-- What a requester does on a response code (R51). -/
def fabHandle (o : FabOut) (code : Nat) (data : Word) (s : State) : State :=
  match code with
  | 0 => (fabDrop o.req.requester o.req.tag s).setFab fun f => { f with lastReply := some (o.req, 0, data) }
  | 1 => fabPut { o with stat := if targetAbsent o.req s then .waitReady else .resend, last := 1 } s
  | 2 => fabPut { o with stat := if targetAbsent o.req s then .waitReady else .resend, last := 2 } s
  | 3 => fabUncertain o 3 s
  | 4 => fabUncertain o 4 s
  | 5 => if o.busyTries < 100 then fabPut { o with stat := .waitBusy, busyTries := o.busyTries + 1, last := 5 } s
         else fabFail o 5 s
  | c => fabReport o c s

/-- A request that is still on its way reaches its target. -/
def fabArrive (requester : BitVec 6) (tag : Byte) (s : State) : State :=
  match fabFind requester tag s with
  | some o => if o.stat = .inFlight then fabServe o false false s else s
  | none => s

/-- A posted reply reaches its requester; one with a parity error counts as PARITY (R39, R51). -/
def fabResponse (requester : BitVec 6) (tag : Byte) (parity : Bool) (s0 : State) : State :=
  let s := fabArrive requester tag s0
  match fabFind requester tag s with
  | none => s
  | some o =>
    match o.stat with
    | .replied code data =>
      if parity then segCount o.req false (fabHandle o 4 0 s) else fabHandle o code data s
    | _ => s

/-- 2 µs without a reply: TIMEOUT, and a later reply is discarded (R41). -/
def fabTimeout (requester : BitVec 6) (tag : Byte) (s : State) : State :=
  match fabFind requester tag s with
  | none => s
  | some o =>
    match o.stat with
    | .replied _ _ => segCount o.req true (fabHandle o 3 0 s)
    | .inFlight => segCount o.req true (fabHandle o 3 0 s)
    | _ => s

/-- SEQ_QUERY: a request with a number above the one returned is sent again; another was applied (R50, R51, R55). -/
def fabSeqQuery (requester target : BitVec 6) (s : State) : State :=
  let last := seqLast s.fab requester target
  let mine := fun (o : FabOut) => o.stat == .waitSeq && o.req.requester == requester && o.req.target == target
  let done := fun (o : FabOut) => mine o && (match last with | some n => decide (o.seq.toNat ≤ n) | none => false)
  s.setFab fun f =>
    { f with out := (f.out.filter fun o => !done o).map fun o => if mine o then { o with stat := .resend } else o }

/-- 10 µs after BUSY the request is sent again (R51). -/
def fabBusyEnd (requester : BitVec 6) (tag : Byte) (s : State) : State :=
  match fabFind requester tag s with
  | some o => if o.stat = .waitBusy then fabPut { o with stat := .resend } s else s
  | none => s

/-! ### Cells (R42 to R44) -/

/-- A cell's transfer fails: its points have BAD_COMM for that cycle; where the retry fails too, the cell is isolated with a
block fault (R43, R57, R505). -/
def transferFailed (block : BitVec 6) (cell : Byte) (cause : Nat) (retryOk : Bool) (s : State) : State :=
  if fabLive s ∧ blockKnown block ∧ blockUp block s ∧ isIsolated block.toNat cell.toNat s = false then
    let s1 := (cellSlots block.toNat cell.toNat).foldl (fun a n => slotLost n a) (recordFault 0 block.toNat cell.toNat cause s)
    if retryOk then s1 else cellFault block.toNat cell.toNat cause s1
  else s

/-- The readmission test of an isolated cell: it returns when the test passes (R44). -/
def readmitTest (block : BitVec 6) (cell : Byte) (pass : Bool) (s : State) : State :=
  if fabLive s ∧ isIsolated block.toNat cell.toNat s ∧ pass then cellReadmit block.toNat cell.toNat s else s

/-- A write to a block's cell-readmit register; the acquisition blocks have one (R44, ch. 5 to 8). -/
def readmitMask (block : BitVec 6) (cells : BitVec 16) (s : State) : State :=
  if fabLive s ∧ block.toNat < 6 ∧ regionUp rACQ s then
    (List.range 16).foldl (fun a i => if bit cells i && isIsolated block.toNat i a then cellReadmit block.toNat i a else a) s
  else s

/-! ### READY (R50 to R55) -/

/-- A region is initialising, and what it initialises from is there: in BARE only LNK and KEP run, and ACQ, ALM and FCE
need start step 7 (R80, R91). -/
def readyDue (r : Fin 5) (s : State) : Bool :=
  let g := s.sys.regions[r]
  fabLive s && (g.st == .inReset || g.st == .init) && !g.hold &&
  (r == rLNK || r == rKEP || (!s.bare && decide (7 ≤ s.sys.step)))

/-- Requests that waited for the region are sent again. -/
def FabOut.wake (r : Fin 5) (o : FabOut) : FabOut := if reqTo o.req r ∧ o.stat = .waitReady then { o with stat := .resend } else o

/-- The request's number is to restart: it goes to the region, is not idempotent, and has no posted reply (R50). -/
def FabOut.restarts (r : Fin 5) (o : FabOut) : Bool :=
  reqTo o.req r && !reqIdem o.req && (match o.stat with | .replied _ _ => false | _ => true)

/-- Numbers to a region that was reset restart at 0, for each requester and target, in the order of the requests (R50). -/
def renumber (r : Fin 5) : List (Nat × Nat) → List FabOut → List (Nat × Nat) × List FabOut
  | next, [] => (next, [])
  | next, o :: l =>
    if o.restarts r then
      let k := seqKey o.req.requester o.req.target
      let n := tblGet 0 next k
      let t := renumber r (tblPut 0 next k (n + 1)) l
      (t.1, { o with seq := BitVec.ofNat 16 n } :: t.2)
    else
      let t := renumber r next l
      (t.1, o :: t.2)

/-- Requesters hear of a region's READY, and after its reset restart their numbers (R50, R51). -/
def fabReady (r : Fin 5) (wasReset : Bool) (f : Fabric) : Fabric :=
  let out := f.out.map (FabOut.wake r)
  if wasReset then
    let t := renumber r (f.next.filter fun p => decide (p.1 % 64 / 8 ≠ r.val)) out
    { f with out := t.2, next := t.1 }
  else { f with out := out }

/-- LNK is ready: in BARE the search begins anew; else the controllers take the NET section, and IMZ submits again what
the reset cleared (R92, R304, R308). -/
def lnkReady (s : State) : State :=
  if s.bare then (if s.can[(0 : Fin 4)].mode = 0 then bareSearch 0 s else s)
  else if s.imz.joined then
    let on := fun (k : Fin 4) (a : State) =>
      let m := a.can[k].kept &&& 0x0FFFFFFF
      (canTxReq .chip k m (canSetMode k 1 a)).setCan k fun c => { c with kept := 0 }
    let s1 := netLoad s
    let s2 := if s.netTop then s1 else on 1 (on 0 s1)
    if s.isManager then on 3 (on 2 s2) else s2
  else s

/-- ACQ is ready: its channels take the active bank's settings (R53). -/
def acqReady (s : State) : State :=
  let s1 := (List.finRange 16).foldl uiReady s
  let s2 := (List.finRange 4).foldl aoReady s1
  let s3 := (List.finRange 16).foldl dioReady s2
  (List.finRange 2).foldl psReady s3

/-- ALM is ready: the next scan is the next one scheduled, and a swap that waits is judged (R98, R214). -/
def almReady (same : Bool) (s : State) : State :=
  swapRetry same { s with pev := { s.pev with minStart := max s.pev.minStart s.now } }

/-- FCE is ready: the host ports take the active bank's settings, and the panel goes on (R53, R411, R467). -/
def fceReady (s : State) : State :=
  let has := bankHas s.activeBank secEVR
  pnlPower { s with hp := s.hp.mapFinIdx fun h x _ =>
    let w := s.cfgWord secEVR (72 + 4 * h)
    { x with slpFilt := if has then BitVec.ofNat 8 (fld w 16 8) else 1, crcReq := bit w 8 } }

/-- A region raises READY, after a reset with its new reset count (R53). -/
def regionReady (r : Fin 5) (same : Bool) (s : State) : State :=
  if readyDue r s then
    let was := s.sys.regions[r].wasReset
    let s1 := (s.setRegion r fun g => { g with st := .ready, resets := g.resets + (if was then 1 else 0), wasReset := false }).setFab
      (fabReady r was)
    if r = rLNK then lnkReady s1
    else if r = rACQ then (if was then acqReady s1 else s1)
    else if r = rALM then almReady same s1
    else if r = rFCE then (if was then fceReady s1 else pnlPower s1)
    else settingsRetry s1
  else s

/-- A region has not raised READY within its limit: what waits for it fails with BAD_COMM, and the module faults
(R52, R505). -/
def readyLimit (r : Fin 5) (s : State) : State :=
  if readyDue r s then
    let waits := s.fab.out.filter fun o => reqTo o.req r && o.stat == .waitReady
    let s1 := waits.foldl (fun a o => pointLost o.req.point (fabReport o o.last a)) s
    moduleFault (firstBlock r) 0 0x0A s1
  else s

/-! ### The scrubber (R40) -/

/-- A point's record is lost: in a pair with a SYNCED standby its copy is taken at the next epoch, elsewhere MEMORY acts, and
evaluation starts anew under start inhibit (R40, R251). -/
def scrubPoint (n : Fin 80) (s : State) : State :=
  if s.ptUsed n.val = false then s
  else if epochsRun s ∧ s.lvn.synced then
    (slotLost n.val s).setLvn fun v => { v with want := v.want ++ [n.val] }
  else
    let s1 := annMemory n s
    s1.setPt n fun p =>
      { flags := p.flags, annCause := p.annCause, tFunack := p.tFunack, srcQual := 4, qual := 4, pq := 4, commLost := true,
        resync := p.resync, annOnset := p.annOnset, lastTrans := p.lastTrans, subst := s.ptF n.val 108,
        slFrom := p.slFrom, inhEnd := if s.startTime = 0 then none else some (s.now + sec s.startTime) }

/-- A section of the active bank is lost: it is reloaded, or the module faults on the second error within 60 s. -/
def scrubSection (sec' : Nat) (s : State) : State :=
  let again := s.sys.secErrs.any fun e => e.1 == sec' && decide (s.mono < e.2 + sec 60)
  let s1 := { s with sys := { s.sys with
    secErrs := (sec', s.mono) :: s.sys.secErrs.filter fun e => e.1 != sec',
    reloading := if s.sys.reloading.contains sec' then s.sys.reloading else s.sys.reloading ++ [sec'] } }
  if again then moduleFault 0x1A 0 0x05 s1 else s1

/-- The shadow bank is lost: its recipe is invalid until it is reloaded, and a swap to it does not take place. -/
def scrubShadow (s : State) : State :=
  let st := (shadow s).st
  if st = .valid ∨ st = .restartOnly then
    swapAbort (s.setRcp fun c => c.setRecipe (1 - c.active) fun r => { r with st := .invalid, seq := 0, crc := 0 })
  else s

/-- A record of an event ring is delivered with CORRUPT set and payload 0 (R40, R458). -/
def scrubRecord (h : Fin 2) (i : Fin 1024) (s : State) : State :=
  { s with evr := s.evr.setHost h fun k =>
      { k with ring := tblPut {} k.ring i.val { tblGet {} k.ring i.val with corrupt := true, payload := 0 },
               corrupt := satInc 255 k.corrupt } }

/-- An entry taken out of the staged pages, by its place from the oldest on. -/
def stagedTake : Nat → List RingPage → Option (List Byte) × List RingPage
  | _, [] => (none, [])
  | i, p :: l =>
    if i < p.entries.length then (p.entries[i]?, { p with entries := p.entries.eraseIdx i } :: l)
    else
      let r := stagedTake (i - p.entries.length) l
      (r.1, p :: r.2)

/-- A staged entry is counted as lost (R40, R398). -/
def scrubStaging (i : Nat) (s : State) : State :=
  let r := stagedTake i (s.recd.rgWait ++ [s.recd.rgOpen])
  match r.1 with
  | none => s
  | some e =>
    let s1 := s.setRec fun x => { x with rgWait := r.2.dropLast, rgOpen := r.2.getLastD {} }
    recLose (BitVec.ofNat 64 (dataNat e 4 8)) s1

/-- Entries of the state table are lost: they are STALE, and the child is asked for a full report. -/
def scrubTable (node : Half) (s : State) : State :=
  if s.isManager then imzStateReq node (tableStale (fun n => n == node.toNat) s) else s

/-- A double-bit error (R40). -/
def scrubError (s : State) : MemErr → State
  | .point n => scrubPoint n s
  | .activeBank sec' => scrubSection sec'.toNat s
  | .shadowBank => scrubShadow s
  | .ringRecord h i => scrubRecord h i s
  | .recStaging i => scrubStaging i.toNat s
  | .framebuffer line => rndRepair line.toNat s
  | .stateTable node => scrubTable node s

/-- A pass of the scrubber: corrected words are counted, and errors handled in order (R40, SYS_FLT_CNT). -/
def scrubPass (corrected : Half) (errors : List MemErr) (s : State) : State :=
  errors.foldl scrubError { s with sys := { s.sys with cntCorr := min 0xFFFF (s.sys.cntCorr + corrected.toNat) } }

/-! ### Meanings -/

/-- FABRIC_REQUEST (R47). -/
def execFabricRequest (r : FabReq) (queueFull parity waits : Bool) (s : State) : Host.Outcome State Fault Refusal :=
  .next (if fabLive s then fabRequest r queueFull parity waits s else s)

/-- FABRIC_RESPONSE (R51). -/
def execFabricResponse (requester : BitVec 6) (tag : Byte) (parity : Bool) (s : State) : Host.Outcome State Fault Refusal :=
  .next (if fabLive s then fabResponse requester tag parity s else s)

/-- FABRIC_TIMEOUT (R41). -/
def execFabricTimeout (requester : BitVec 6) (tag : Byte) (s : State) : Host.Outcome State Fault Refusal :=
  .next (if fabLive s then fabTimeout requester tag s else s)

/-- SEQ_QUERY (R50). -/
def execSeqQuery (requester target : BitVec 6) (s : State) : Host.Outcome State Fault Refusal :=
  .next (if fabLive s then fabSeqQuery requester target s else s)

/-- BUSY_RESEND (R51). -/
def execBusyResend (requester : BitVec 6) (tag : Byte) (s : State) : Host.Outcome State Fault Refusal :=
  .next (if fabLive s then fabBusyEnd requester tag s else s)

/-- GRANT_HOLD_OVERRUN (R43): cause 0x03. -/
def execGrantHoldOverrun (block : BitVec 6) (cell : Byte) (retryOk : Bool) (s : State) : Host.Outcome State Fault Refusal :=
  .next (transferFailed block cell 3 retryOk s)

/-- REQUEST_DEADLINE_MISS (R43): cause 0x04, or 0x01 for a parity error. -/
def execRequestDeadlineMiss (block : BitVec 6) (cell : Byte) (parity retryOk : Bool) (s : State) :
    Host.Outcome State Fault Refusal :=
  .next (transferFailed block cell (if parity then 1 else 4) retryOk s)

/-- READMISSION_TEST (R44). -/
def execReadmissionTest (block : BitVec 6) (cell : Byte) (pass : Bool) (s : State) : Host.Outcome State Fault Refusal :=
  .next (readmitTest block cell pass s)

/-- CELL_READMIT (R44). -/
def execCellReadmit (block : BitVec 6) (cells : BitVec 16) (s : State) : Host.Outcome State Fault Refusal :=
  .next (readmitMask block cells s)

/-- REGION_WATCHDOG_EXPIRY (R57): cause 0x06. -/
def execRegionWatchdogExpiry (r : Fin 5) (s : State) : Host.Outcome State Fault Refusal :=
  .next (if fabLive s ∧ regionUp r s then regionFault r (firstBlock r) 0 6 s else s)

/-- REGION_READY (R53). -/
def execRegionReady (r : Fin 5) (partnerSame : Bool) (s : State) : Host.Outcome State Fault Refusal :=
  .next (regionReady r partnerSame s)

/-- READY_LIMIT_EXPIRY (R52). -/
def execReadyLimitExpiry (r : Fin 5) (s : State) : Host.Outcome State Fault Refusal := .next (readyLimit r s)

/-- SYS_RGN_RESET (R53): the RESET field alone. -/
def execSysRgnReset (src : Source) (mask : BitVec 5) (s : State) : Host.Outcome State Fault Refusal :=
  .next (if s.powered then (rgnRst src (holdMask s) mask s).2 else s)

/-- SYS_RGN_HOLD (R53): the HOLD field alone. -/
def execSysRgnHold (src : Source) (mask : BitVec 5) (s : State) : Host.Outcome State Fault Refusal :=
  .next (if s.powered then (rgnRst src mask 0 s).2 else s)

/-- SUPERVISOR_WATCHDOG_EXPIRY (R57): cause 0x06. -/
def execSupervisorWatchdogExpiry (s : State) : Host.Outcome State Fault Refusal :=
  .next (if fabLive s then supervisorFault 0 6 s else s)

/-- FABRIC_ROOT_ERROR (R57): cause 0x01 or 0x02. -/
def execFabricRootError (timeout : Bool) (s : State) : Host.Outcome State Fault Refusal :=
  .next (if fabLive s then supervisorFault 0 (if timeout then 2 else 1) s else s)

/-- PLL_LOSS (R57): cause 0x07. -/
def execPllLoss (s : State) : Host.Outcome State Fault Refusal :=
  .next (if fabLive s then supervisorFault 0 7 { s with sys := { s.sys with pllLock := false } } else s)

/-- SCRUB_PASS (R40). -/
def execScrubPass (corrected : Half) (errors : List MemErr) (s : State) : Host.Outcome State Fault Refusal :=
  .next (if fabLive s then scrubPass corrected errors s else s)

/-- TESTMODE_HIGH (R33): cause 0x09 while the module runs; at power-good the level decides whether it starts. A module in
DORMANT does not count as running, and takes no fault (DESIGN CHOICE, log 25). -/
def execTestmodeHigh (s : State) : Host.Outcome State Fault Refusal :=
  .next (let s1 := { s with sys := { s.sys with inp := { s.sys.inp with testmode := true } } }
    if fabLive s then supervisorFault 0 9 s1 else s1)

end Sys2Proof.Machine
end

