-- ==== Sys2Proof/Machine/Scan.lean ====
section
/-! DEFINITION. Scan: the base scan: snapshot, replay after a take-over, pipeline phases, annunciation, groups, calls, and
what is posted at the scan end (R80, R81, R141, R171, R214, R215, R225, R253, R369, R371). -/
namespace Sys2Proof.Machine

open Sys2Proof

/-! ### Point commands at the scan start (R225) -/

/-- A point command acts at the scan start: its code, whether the point left or returned to service, next state. -/
def ptRun (c : PtCmd) (s : State) : Nat × Option Bool × State :=
  let code := ptCmdCode s c
  let was := (s.ptAt c.slot).oos
  let moved := if code ≠ 0 then none else if c.op = 1 ∧ was = false then some true else if c.op = 2 then some false else none
  (code, moved, ptCmdApply s c)

/-- ANN hears of a point that left or returned to service (R252). -/
def ptService (c : PtCmd) (oos : Bool) (s : State) : State :=
  if h : c.slot < 80 then annService ⟨c.slot, h⟩ oos c.org s else s

/-- The result code as an RSP's (R342). -/
def ptRsp (code : Nat) : Nat := if code = 1 then 1 else if code = 4 then 7 else 0

/-- `PT_CMD_RES`, and the answer to a command from the network (R225, R341). -/
def ptReport (c : PtCmd) (code : Nat) (s : State) : State :=
  answerTo c.org (ptRsp code) code 0 { s with pev := { s.pev with resOp := c.op, resCode := code, resSlot := c.slot % 128 } }

/-! ### Replay of logged commands (R259, R294, R369) -/

/-- A log entry's place in the order of ack times. -/
def logInsert (e : LogCmd) : List LogCmd → List LogCmd
  | [] => [e]
  | x :: l => if e.time < x.time then e :: x :: l else x :: logInsert e l

/-- The log in order of ack time; entries of one time stay in order of receipt. -/
def logOrder (l : List LogCmd) : List LogCmd := l.foldl (fun a e => logInsert e a) []

/-- A replayed point command acts at once. -/
def ptReplay (c : PtCmd) (s : State) : Nat × State :=
  let r := ptRun c s
  let s1 := match r.2.1 with
    | some b => ptService c b r.2.2
    | none => r.2.2
  (0, ptReport c r.1 s1)

/-- A logged bus frame as it was received. -/
def logRx (e : LogCmd) (s : State) : ImzRx :=
  { bus := if inSubtree s e.src then 2 else 0, dir := if inSubtree s e.src then 1 else 2, src := e.src, data := e.data,
    age := s.now - e.time }

/-- A logged CALL_ACK (R288, R294). -/
def replayAck (e : LogCmd) (s : State) : State :=
  s.setCall fun c => { c with cmds := c.cmds ++
    [{ op := 3, eng := dataNat e.data 3 1, session := dataNat e.data 0 2, src := (unitOf s e.src).getD 0xFF,
       addr := dataNat e.data 8 4 % 2 ^ 23, reg := false,
       org := { code := 3, detail := e.src, ack := e.time, replay := true } }] }

/-- A logged CMD from the bus; it is answered with RSP (R369). -/
def replayBus (e : LogCmd) (s : State) : State :=
  let f := logRx e s
  match rxByte f 3 with
  | 0x01 => cmdBody 0x01 f (cmdRegRead f) s
  | 0x02 => cmdBody 0x02 f (cmdRegWrite f) s
  | 0x10 => cmdBody 0x10 f (cmdAlarm true f) s
  | 0x11 => cmdBody 0x11 f (cmdPoint true f ptReplay) s
  | 0x20 => cmdBody 0x20 f (cmdDuty true f) s
  | 0x30 => cmdBody 0x30 f (cmdStateReq f) s
  | 0x31 => cmdBody 0x31 f (cmdTimeSet f) s
  | _ => s

/-- The origin of a forwarded command: a CMD_FWD does not carry a button's channel, which is free (R262, R368, log 1). -/
def fwdOrigin (e : LogCmd) (s : State) : Origin :=
  let code := dataNat e.data 5 1
  { code := code, detail := if code = 4 then BitVec.ofNat 16 (1 + s.freeVal.toNat % 16) else 0,
    loc := (dataNat e.data 4 1).testBit 0, ack := e.time, replay := true }

/-- Answering unit code of a forwarded CALL_CMD (record byte 21, R288). -/
def fwdUnit (code : Nat) : Nat := if code = 1 then 0xFD else if code = 2 then 0xFC else 0xFB

/-- A logged CMD_FWD (R368, R369). -/
def replayFwd (e : LogCmd) (s0 : State) : State :=
  let org := fwdOrigin e s0
  let s := s0.drew
  let arg := fun (i n : Nat) => dataNat e.data i n
  match arg 3 1 with
  | 0x10 => s.setAnn fun a => { a with queue := a.queue ++
      [{ op := arg 16 1, scope := arg 17 1, target := arg 18 4, minutes := arg 22 2, reg := false, org := org }] }
  | 0x11 => (ptReplay { op := arg 16 1, slot := arg 17 1, subst := BitVec.ofNat 32 (arg 20 4), org := org } s).2
  | 0x20 => s.setCall fun c => { c with cmds := c.cmds ++
      [{ op := 1, eng := arg 16 1, session := 0, src := org.code, addr := 0, reg := false, org := org }] }
  | 0x02 =>
    let w : Word := BitVec.ofNat 32 (arg 24 4)
    let eng := fld w 24 5
    s.setCall fun c => { c with cmds := c.cmds ++
      [{ op := fld w 16 2, eng := if eng = 0x1F then 0xFF else eng, session := fld w 0 9, src := fwdUnit org.code, addr := 0,
         reg := false, org := org }] }
  | _ => s

/-- One logged command. -/
def replayOne (s : State) (e : LogCmd) : State :=
  if e.call then replayAck e s else if e.bus then replayBus e s else replayFwd e s

/-- The logged commands act, before those taken since the take-over (R369). -/
def replayLog (s : State) : State :=
  let q := s.ann.queue
  let c := s.call.cmds
  let s1 := (s.setAnn fun a => { a with queue := [] }).setCall fun k => { k with cmds := [] }
  let s2 := (logOrder s.lvn.log).foldl replayOne s1
  let s3 := (s2.setAnn fun a => { a with queue := a.queue ++ q }).setCall fun k => { k with cmds := k.cmds ++ c }
  s3.setLvn fun v => { v with log := [] }

/-- The unit that has taken over sends a RESYNC transition for each point that is not NORMAL, and a raised CALL_STEP for
every session that is not IDLE (R294, R371). -/
def takeoverSend (s : State) : State :=
  let s1 := (List.finRange 80).foldl (fun a n => if annOff a n then a else imzEntry n (resyncEntry a n.val) a) s
  let s2 := (List.range 257).foldl (fun a n => if (a.call.get n).st = 0 then a else callNewStep n a) s1
  s2.setLvn fun v => { v with replay := false }

/-! ### Annunciation (R253) -/

/-- Slots in order of the end of their shelving. -/
def shelveInsert (s : State) (n : Fin 80) : List (Fin 80) → List (Fin 80)
  | [] => [n]
  | m :: l => if s.pev.pts[n].shlvEnd < s.pev.pts[m].shlvEnd then n :: m :: l else m :: shelveInsert s n l

/-- The shelvings that end, by their expiry times; where two are equal, by slot. -/
def shelveOrder (s : State) : List (Fin 80) := (shelveDue s).foldl (fun a n => shelveInsert s n a) []

/-- A command acts, and GRP sees each change (R253, R265). -/
def annStep (s : State) (c : AnnCmd) : State := grpNotice (annCommand s c)

/-- A point that leaves service is a command of the scan; a return has acted before the results (R224, R253). -/
def leaveStep (p : Option (PtCmd × Nat × Option Bool)) (s : State) : State :=
  match p with
  | some (c, _, some true) => grpNotice (ptService c true s)
  | _ => s

/-- ANN's part of a scan: results, expiries, commands by receipt (R253). -/
def annScan (res : List Res) (p : Option (PtCmd × Nat × Option Bool)) (s : State) : State :=
  let at' := match p with
    | some (c, _, _) => c.org.ack
    | none => 0
  let q := s.ann.queue
  let s1 := match p with
    | some (c, _, some false) => ptService c false s
    | _ => s
  let s2 := res.foldl annResult s1
  let s3 := grpNotice ((shelveOrder s2).foldl annShelveEnd s2)
  let s4 := (q.takeWhile fun c => decide (c.org.ack ≤ at')).foldl annStep (s3.setAnn fun a => { a with queue := [] })
  (q.dropWhile fun c => decide (c.org.ack ≤ at')).foldl annStep (leaveStep p s4)

/-! ### Posting (R81, R141, R171, R270) -/

/-- A source point's quality is used as it stands (R141, R171). -/
def postUsable (q : Nat) : Bool := q == 0 || q == 1 || q == 5 || q == 6

/-- The command that a point's value gives, in codes: the nearest whole number; the halfway case is open (R141, log 4). A
value that leaves the number format gives none. -/
def aoPostCode (v lo hi : Word) : Option Nat :=
  let d := f32Sub v lo
  let m := f32Mul (f32OfNum 40000) d
  let w := f32Sub hi lo
  let q := f32Div m w
  let c := f32Add (f32OfNum 10000) q
  if f32Finite d ∧ f32Finite m ∧ f32Finite w ∧ f32Finite q ∧ f32Finite c then
    some (if f32Neg c then 0 else min 65535 (openRound (f32Mag c) (2 ^ 149)))
  else none

/-- PEV posts the command of a loop output that follows a point (R141); a command that the format cannot hold is free
(log 1). With it the level kept since a take-over ends; what a swap kept ends with the scan (R101, R150, R161). While ACQ is
absent nothing is posted, and the output holds (R54). -/
def aoPost (s : State) (c : Fin 4) : State :=
  let a := s.ao[c]
  if regionUp rACQ s = false then s
  else if a.fromPoint ∧ s.aoUnused c.val = false then
    let p := s.ptAt a.srcSlot
    let s1 := s.setAo c fun a => { a with takeLevel := none, swapLevel := none, waitPost := false }
    if postUsable p.pq then
      match aoPostCode p.value a.use[3] a.use[4] with
      | some k => s1.setAo c fun a => { a with srcBad := false, srcCmd := k }
      | none => (s1.setAo c fun a => { a with srcBad := false, srcCmd := s.freeVal.toNat % 65536 }).drew
    else s1.setAo c fun a => { a with srcBad := true }
  else s.setAo c fun a => { a with swapLevel := none, waitPost := false }

/-- The command of a digital output that follows its register or a point (R171). -/
def dioPost (s : State) (c : Fin 16) : State :=
  let d := s.dio[c]
  if d.output = false ∨ dioUnused s c then s
  else if d.src = 0 then dioPostSet c s
  else if d.src = 1 then
    let p := s.ptAt d.srcSlot
    dioPostPoint c (postUsable p.pq) (!f32Eq p.value 0) s
  else s

/-- Outputs are driven from the end of the first scan of an unpaired module, and of the unit that has taken the active
role (R81). -/
def outputsOn (s : State) : State :=
  if s.activeUnit ∧ s.sys.outEn = false then noted (fun a => dioDriveAll (setOut true a)) s else s

/-- What the scan end posts. -/
def scanPost (s : State) : State :=
  let s1 := (List.finRange 4).foldl aoPost s
  let s2 := (List.finRange 16).foldl dioPost s1
  outputsOn (grpPost s2)

/-! ### The scan -/

/-- The start of the scan that is due: the last multiple of T (R214). -/
def scanDue (s : State) : Nat := s.now / s.scanTicks * s.scanTicks

/-- Scans run: ALM is ready, and no BARE, safe state, LAST_BREATH or DORMANT holds (R54, R58, R67, R75, R91). -/
def scanLive (s : State) : Bool :=
  s.powered && regionUp rALM s && s.pev.running && s.sys.power != .dormant &&
  (s.sys.mode == .starting || s.sys.mode == .inService)

/-- The scan begins: number and time; no start is run twice, and a late one is counted (R214, PT_SCAN_STAT). -/
def scanBegin (start : Nat) (s : State) : State :=
  { s with pev := { s.pev with
    num := s.pev.num + 1, start := start, minStart := start + 1, period := s.scanCode,
    late := if start + ms 1 / 10 < s.now then satInc 255 s.pev.late else s.pev.late } }

/-- Start step 8: start inhibit begins with the first scan (R80, R94). -/
def firstScan (s : State) : State :=
  if s.sys.step = 7 then
    { s with sys := { s.sys with
      step := 8, inhEnd := if s.startTime = 0 then none else some (s.pev.start + sec s.startTime) } }
  else s

/-- The selectors are read at the end of the first scan, before the sessions are judged (R289). -/
def firstDuty (s : State) : State := if s.sys.step = 8 then dutyAtStart s else s

/-- The end of the first scan: the panel is drawn (R434). -/
def firstEnd (s : State) : State := if s.sys.step = 8 then rndFull { s with sys := { s.sys with step := 9 } } else s

/-- A digital channel in service has been sampled under its present settings (R99). -/
def dioFresh (s : State) : State :=
  { s with dio := s.dio.mapFinIdx fun i d h => if dioActive s ⟨i, h⟩ then { d with changing := false } else d }

/-- The snapshot at a scan's start: both PS channels, and the digital channels' latest samples (R201, R215). -/
def scanSnap (start : Nat) (s : State) : State := if regionUp rACQ s then dioFresh (psSnapshot start s) else s

/-- The power-fail HEARTBEAT that is due goes out (R66). -/
def scanBeat (s : State) : State :=
  if s.imz.pfHb then imzBeat false false (s.setImz fun z => { z with pfHb := false }) else s

/-- The points evaluated in this scan carry its number (R246). -/
def scanMark (s : State) : State :=
  let pts := s.pev.pts.mapFinIdx fun i p _ => if s.ptUsed i then { p with scan := s.pev.num } else p
  { s with pev := { s.pev with pts := pts } }

/-- The command marks follow what this scan has applied (R365). -/
def scanMarks (s : State) : State := s.setLvn fun v => { v with markSeq := v.logSeq, markSof := v.takenSof }

/-- The base scan of an active or unpaired unit. -/
def scanRun (s : State) : State :=
  let s1 := if s.lvn.replay then replayLog s else s
  let p := s1.pev.cmd.map fun c => (c, ptRun c s1)
  let s2 := match p with
    | some (_, r) => r.2.2
    | none => s1
  let done := p.map fun x => (x.1, x.2.1, x.2.2.1)
  let e := phaseE (pevPhases { s2 with pev := { s2.pev with cmd := none } })
  let s3 := annScan e.2 done (scanMark e.1)
  let s4 := match done with
    | some (c, code, _) => ptReport c code s3
    | none => s3
  let s5 := sliceScanEnd (callScanEnd (firstDuty (grpScanEnd s4)))
  let s6 := tablePost (scanMarks (scanPost s5))
  firstEnd (if s6.lvn.replay then takeoverSend s6 else s6)

/-- A base scan. A standby takes the snapshot; its points come with the epochs (R364, R366). -/
def scan (dur : Half) (s : State) : State :=
  let start := scanDue s
  if scanLive s ∧ s.pev.minStart ≤ start then
    if s.standby then scanBeat (scanSnap start { s with pev := { s.pev with minStart := start + 1 } })
    else
      let s1 := scanRun (scanBeat (scanSnap start (firstScan (scanBegin start s))))
      { s1 with pev := { s1.pev with lastDur := dur } }
  else s

/-- SCAN_START (R214): `dur`, the time from scan start to scan end in µs. -/
def execScanStart (dur : Half) (s : State) : Host.Outcome State Fault Refusal := .next (scan dur s)

end Sys2Proof.Machine
end

