-- ==== Sys2Proof/Machine/Dispatch.lean ====
section
/-! DEFINITION. Dispatch: one arm per command of the table, each a direct call of the command's meaning, or a
rejection by name while it has none. -/
namespace Sys2Proof.Machine

open Sys2Proof

/-- The effect of one command on everything but the queue. -/
def exec (i : Instr) (s : State) : Host.Outcome State Fault Refusal :=
  match i with
  | .fabricRequest r queueFull parity waits => Sys2Proof.Machine.execFabricRequest r queueFull parity waits s
  | .fabricResponse requester tag parity => Sys2Proof.Machine.execFabricResponse requester tag parity s
  | .fabricTimeout requester tag => Sys2Proof.Machine.execFabricTimeout requester tag s
  | .seqQuery requester target => Sys2Proof.Machine.execSeqQuery requester target s
  | .busyResend requester tag => Sys2Proof.Machine.execBusyResend requester tag s
  | .grantHoldOverrun block cell retryOk => Sys2Proof.Machine.execGrantHoldOverrun block cell retryOk s
  | .requestDeadlineMiss block cell parity retryOk => Sys2Proof.Machine.execRequestDeadlineMiss block cell parity retryOk s
  | .readmissionTest block cell pass => Sys2Proof.Machine.execReadmissionTest block cell pass s
  | .cellReadmit block cells => Sys2Proof.Machine.execCellReadmit block cells s
  | .regionWatchdogExpiry r => Sys2Proof.Machine.execRegionWatchdogExpiry r s
  | .regionReady r partnerSame => Sys2Proof.Machine.execRegionReady r partnerSame s
  | .readyLimitExpiry r => Sys2Proof.Machine.execReadyLimitExpiry r s
  | .sysRgnReset src mask => Sys2Proof.Machine.execSysRgnReset src mask s
  | .sysRgnHold src mask => Sys2Proof.Machine.execSysRgnHold src mask s
  | .supervisorWatchdogExpiry => Sys2Proof.Machine.execSupervisorWatchdogExpiry s
  | .fabricRootError timeout => Sys2Proof.Machine.execFabricRootError timeout s
  | .pllLoss => Sys2Proof.Machine.execPllLoss s
  | .safeStateRestart => Sys2Proof.Machine.execSafeStateRestart s
  | .scrubPass corrected errors => Sys2Proof.Machine.execScrubPass corrected errors s
  | .testmodeHigh => Sys2Proof.Machine.execTestmodeHigh s
  | .roleChange level => Sys2Proof.Machine.execRoleChange level s
  | .resetnLow => Sys2Proof.Machine.execResetnLow s
  | .resetnRise => Sys2Proof.Machine.execResetnRise s
  | .feedLow f v => Sys2Proof.Machine.execFeedLow f v s
  | .feedLost f v hold => Sys2Proof.Machine.execFeedLost f v hold s
  | .feedLostEnd f v hold => Sys2Proof.Machine.execFeedLostEnd f v hold s
  | .feedHigh f v => Sys2Proof.Machine.execFeedHigh f v s
  | .feedInRange f v => Sys2Proof.Machine.execFeedInRange f v s
  | .feedDisconnect f => Sys2Proof.Machine.execFeedDisconnect f s
  | .feedReconnect f => Sys2Proof.Machine.execFeedReconnect f s
  | .feedReversed f hold => Sys2Proof.Machine.execFeedReversed f hold s
  | .powerGood testmode => Sys2Proof.Machine.execPowerGood testmode s
  | .powerGoodLoss => Sys2Proof.Machine.execPowerGoodLoss s
  | .holdAbsent v => Sys2Proof.Machine.execHoldAbsent v s
  | .holdOk v => Sys2Proof.Machine.execHoldOk v s
  | .holdFault v => Sys2Proof.Machine.execHoldFault v s
  | .holdChargeRetry => Sys2Proof.Machine.execHoldChargeRetry s
  | .lastBreath hold dataDone => Sys2Proof.Machine.execLastBreath hold dataDone s
  | .lastBreathRestart => Sys2Proof.Machine.execLastBreathRestart s
  | .xtalHandover => Sys2Proof.Machine.execXtalHandover s
  | .clockCheck diff tcxoNet xtalNet => Sys2Proof.Machine.execClockCheck diff tcxoNet xtalNet s
  | .tempMeasure plate die => Sys2Proof.Machine.execTempMeasure plate die s
  | .supplyEventHoldoff q v => Sys2Proof.Machine.execSupplyEventHoldoff q v s
  | .dozeEnable src en => Sys2Proof.Machine.execDozeEnable src en s
  | .dozePowerDown fce => Sys2Proof.Machine.execDozePowerDown fce s
  | .dozePowerUp fce => Sys2Proof.Machine.execDozePowerUp fce s
  | .dormantRequest src => Sys2Proof.Machine.execDormantRequest src s
  | .dormantEntry => Sys2Proof.Machine.execDormantEntry s
  | .wakeCommand src => Sys2Proof.Machine.execWakeCommand src s
  | .dormantWake src => Sys2Proof.Machine.execDormantWake src s
  | .emmcInit ok info => Sys2Proof.Machine.execEmmcInit ok info s
  | .emmcInitRetry ok info => Sys2Proof.Machine.execEmmcInitRetry ok info s
  | .bootHeadersRead ok => Sys2Proof.Machine.execBootHeadersRead ok s
  | .activeImageLoaded ok => Sys2Proof.Machine.execActiveImageLoaded ok s
  | .shadowLoaded ok => Sys2Proof.Machine.execShadowLoaded ok s
  | .startInhibitEnd => Sys2Proof.Machine.execStartInhibitEnd s
  | .bareRateSearchStep => Sys2Proof.Machine.execBareRateSearchStep s
  | .bareAddrClaim => Sys2Proof.Machine.execBareAddrClaim s
  | .rcpOpen src ok => Sys2Proof.Machine.execRcpOpen src ok s
  | .rcpWriteBlock src n ok => Sys2Proof.Machine.execRcpWriteBlock src n ok s
  | .rcpVerify src => Sys2Proof.Machine.execRcpVerify src s
  | .rcpVerifyDone fail partner => Sys2Proof.Machine.execRcpVerifyDone fail partner s
  | .rcpClose src => Sys2Proof.Machine.execRcpClose src s
  | .rcpSwap src key partnerSame => Sys2Proof.Machine.execRcpSwap src key partnerSame s
  | .rcpSetActive src key ok => Sys2Proof.Machine.execRcpSetActive src key ok s
  | .rcpReloadShadow src ok => Sys2Proof.Machine.execRcpReloadShadow src ok s
  | .rcpBadOp src op => Sys2Proof.Machine.execRcpBadOp src op s
  | .rcpBufWrite src w v => Sys2Proof.Machine.execRcpBufWrite src w v s
  | .rcpOwnerTimeout => Sys2Proof.Machine.execRcpOwnerTimeout s
  | .swapBoundary => Sys2Proof.Machine.execSwapBoundary s
  | .swapAbort => Sys2Proof.Machine.execSwapAbort s
  | .bootConfigWritten ok => Sys2Proof.Machine.execBootConfigWritten ok s
  | .bootConfigRetry ok => Sys2Proof.Machine.execBootConfigRetry ok s
  | .uiIslandPowered c => Sys2Proof.Machine.execUiIslandPowered c s
  | .uiConversion c m => Sys2Proof.Machine.execUiConversion c m s
  | .uiTestWindow c w => Sys2Proof.Machine.execUiTestWindow c w s
  | .uiTestCmd src c => Sys2Proof.Machine.execUiTestCmd src c s
  | .uiCalInterval c => Sys2Proof.Machine.execUiCalInterval c s
  | .uiCalCmd src c => Sys2Proof.Machine.execUiCalCmd src c s
  | .uiCalDone c ofs gain island => Sys2Proof.Machine.execUiCalDone c ofs gain island s
  | .uiRefCheck c ppm => Sys2Proof.Machine.execUiRefCheck c ppm s
  | .uiNe43Confirm c past => Sys2Proof.Machine.execUiNe43Confirm c past s
  | .uiTxsOverload c => Sys2Proof.Machine.execUiTxsOverload c s
  | .uiTxsRetry c => Sys2Proof.Machine.execUiTxsRetry c s
  | .uiTxsOn src c => Sys2Proof.Machine.execUiTxsOn src c s
  | .uiTrendReset c => Sys2Proof.Machine.execUiTrendReset c s
  | .uiCrumb src c pass => Sys2Proof.Machine.execUiCrumb src c pass s
  | .uiBarrier src c pass => Sys2Proof.Machine.execUiBarrier src c pass s
  | .uiBlockStop stop => Sys2Proof.Machine.execUiBlockStop stop s
  | .uiSharedExcCheck c v => Sys2Proof.Machine.execUiSharedExcCheck c v s
  | .aoCellCycle c m => Sys2Proof.Machine.execAoCellCycle c m s
  | .aoClockStepUp c => Sys2Proof.Machine.execAoClockStepUp c s
  | .aoBrownout c => Sys2Proof.Machine.execAoBrownout c s
  | .aoIslandRestart c => Sys2Proof.Machine.execAoIslandRestart c s
  | .aoBrownoutClear c => Sys2Proof.Machine.execAoBrownoutClear c s
  | .aoKeepalive echoes => Sys2Proof.Machine.execAoKeepalive echoes s
  | .aoKeepaliveLost c => Sys2Proof.Machine.execAoKeepaliveLost c s
  | .aoComplianceRetry c => Sys2Proof.Machine.execAoComplianceRetry c s
  | .aoSwitchReclose c => Sys2Proof.Machine.execAoSwitchReclose c s
  | .aoRestart src c => Sys2Proof.Machine.execAoRestart src c s
  | .aoCalDone c => Sys2Proof.Machine.execAoCalDone c s
  | .aoTrimApply src c => Sys2Proof.Machine.execAoTrimApply src c s
  | .aoTrimClear src c => Sys2Proof.Machine.execAoTrimClear src c s
  | .aoHartTx src c => Sys2Proof.Machine.execAoHartTx src c s
  | .aoHartTxStart c => Sys2Proof.Machine.execAoHartTxStart c s
  | .aoHartTxDone c => Sys2Proof.Machine.execAoHartTxDone c s
  | .aoHartCarrierDetect c => Sys2Proof.Machine.execAoHartCarrierDetect c s
  | .aoHartRxDone c bytes perr => Sys2Proof.Machine.execAoHartRxDone c bytes perr s
  | .aoCrust src c diff => Sys2Proof.Machine.execAoCrust src c diff s
  | .aoTrimEnter c span => Sys2Proof.Machine.execAoTrimEnter c span s
  | .aoTrimAdjust c up => Sys2Proof.Machine.execAoTrimAdjust c up s
  | .aoTrimStore c => Sys2Proof.Machine.execAoTrimStore c s
  | .aoTrimDiscard c => Sys2Proof.Machine.execAoTrimDiscard c s
  | .aoTrimTimeout c => Sys2Proof.Machine.execAoTrimTimeout c s
  | .aoBlockStop stop => Sys2Proof.Machine.execAoBlockStop stop s
  | .dioInputTransition c level at' => Sys2Proof.Machine.execDioInputTransition c level at' s
  | .dioLineBreak c => Sys2Proof.Machine.execDioLineBreak c s
  | .dioButtonStuck c => Sys2Proof.Machine.execDioButtonStuck c s
  | .dioBlinkPhase => Sys2Proof.Machine.execDioBlinkPhase s
  | .dioInrushEnd c => Sys2Proof.Machine.execDioInrushEnd c s
  | .dioKeepalive => Sys2Proof.Machine.execDioKeepalive s
  | .dioKeepaliveLost g => Sys2Proof.Machine.execDioKeepaliveLost g s
  | .dioOverload c curr => Sys2Proof.Machine.execDioOverload c curr s
  | .dioShortCircuit c => Sys2Proof.Machine.execDioShortCircuit c s
  | .dioOvertemp c => Sys2Proof.Machine.execDioOvertemp c s
  | .dioOvertempEnd c => Sys2Proof.Machine.execDioOvertempEnd c s
  | .dioOpenOn c => Sys2Proof.Machine.execDioOpenOn c s
  | .dioOpenOff c v pin => Sys2Proof.Machine.execDioOpenOff c v pin s
  | .dioShortFsp c v pin => Sys2Proof.Machine.execDioShortFsp c v pin s
  | .dioBackfeed c v pin => Sys2Proof.Machine.execDioBackfeed c v pin s
  | .dioPartnerDrive c v pin => Sys2Proof.Machine.execDioPartnerDrive c v pin s
  | .dioOvlRetry c => Sys2Proof.Machine.execDioOvlRetry c s
  | .dioRetryCmd src c => Sys2Proof.Machine.execDioRetryCmd src c s
  | .dioRetryCountReset c => Sys2Proof.Machine.execDioRetryCountReset c s
  | .dioGroupWarn g v => Sys2Proof.Machine.execDioGroupWarn g v s
  | .dioGroupLow g v => Sys2Proof.Machine.execDioGroupLow g v s
  | .dioGroupOvervolt g v => Sys2Proof.Machine.execDioGroupOvervolt g v s
  | .dioGroupLost g v => Sys2Proof.Machine.execDioGroupLost g v s
  | .dioGroupNormal g v => Sys2Proof.Machine.execDioGroupNormal g v s
  | .dioGroupShed g mean => Sys2Proof.Machine.execDioGroupShed g mean s
  | .dioShedRetry c => Sys2Proof.Machine.execDioShedRetry c s
  | .dioLampAverage c curr v settled => Sys2Proof.Machine.execDioLampAverage c curr v settled s
  | .dioLampProbe c curr => Sys2Proof.Machine.execDioLampProbe c curr s
  | .dioLearnPartDone c probe => Sys2Proof.Machine.execDioLearnPartDone c probe s
  | .dioLearn src c => Sys2Proof.Machine.execDioLearn src c s
  | .dioLearnClr src c => Sys2Proof.Machine.execDioLearnClr src c s
  | .dioCrumb src c pass => Sys2Proof.Machine.execDioCrumb src c pass s
  | .dioBarrier src c pass => Sys2Proof.Machine.execDioBarrier src c pass s
  | .dioCrust src c pass => Sys2Proof.Machine.execDioCrust src c pass s
  | .dioBlockStop stop => Sys2Proof.Machine.execDioBlockStop stop s
  | .psEdge c a b bLevel bChanged z => Sys2Proof.Machine.execPsEdge c a b bLevel bChanged z s
  | .psIndexEdge c => Sys2Proof.Machine.execPsIndexEdge c s
  | .psStandstill c => Sys2Proof.Machine.execPsStandstill c s
  | .psSetPos src c => Sys2Proof.Machine.execPsSetPos src c s
  | .psArmZ c => Sys2Proof.Machine.execPsArmZ c s
  | .psCmpWrite src c v => Sys2Proof.Machine.execPsCmpWrite src c v s
  | .psCrumb src c pass => Sys2Proof.Machine.execPsCrumb src c pass s
  | .psBarrier src c pass => Sys2Proof.Machine.execPsBarrier src c pass s
  | .psBlockStop stop => Sys2Proof.Machine.execPsBlockStop stop s
  | .psDiagClear c bit' => Sys2Proof.Machine.execPsDiagClear c bit' s
  | .scanStart dur => Sys2Proof.Machine.execScanStart dur s
  | .onDelayExpiry n => Sys2Proof.Machine.execOnDelayExpiry n s
  | .offDelayExpiry n => Sys2Proof.Machine.execOffDelayExpiry n s
  | .releaseDelayExpiry n => Sys2Proof.Machine.execReleaseDelayExpiry n s
  | .faultDelayExpiry n => Sys2Proof.Machine.execFaultDelayExpiry n s
  | .staleTimeout n => Sys2Proof.Machine.execStaleTimeout n s
  | .ptCmdOos src slot => Sys2Proof.Machine.execPtCmdOos src slot s
  | .ptCmdRts src slot => Sys2Proof.Machine.execPtCmdRts src slot s
  | .ptCmdSubst src slot => Sys2Proof.Machine.execPtCmdSubst src slot s
  | .almCmdAck src scope target => Sys2Proof.Machine.execAlmCmdAck src scope target s
  | .almCmdSilence src scope target => Sys2Proof.Machine.execAlmCmdSilence src scope target s
  | .almCmdShelve src scope target => Sys2Proof.Machine.execAlmCmdShelve src scope target s
  | .almCmdUnshelve src scope target => Sys2Proof.Machine.execAlmCmdUnshelve src scope target s
  | .almCmdBadOp src op scope target => Sys2Proof.Machine.execAlmCmdBadOp src op scope target s
  | .shelveExpiry n => Sys2Proof.Machine.execShelveExpiry n s
  | .foSettleExpiry g => Sys2Proof.Machine.execFoSettleExpiry g s
  | .imzResyncSend => Sys2Proof.Machine.execImzResyncSend s
  | .callT1Expiry n => Sys2Proof.Machine.execCallT1Expiry n s
  | .callT2Expiry n => Sys2Proof.Machine.execCallT2Expiry n s
  | .callT3Expiry n => Sys2Proof.Machine.execCallT3Expiry n s
  | .callClearedExpiry n => Sys2Proof.Machine.execCallClearedExpiry n s
  | .callStepRepeat n => Sys2Proof.Machine.execCallStepRepeat n s
  | .callClearRepeat n => Sys2Proof.Machine.execCallClearRepeat n s
  | .callUnitLost u => Sys2Proof.Machine.execCallUnitLost u s
  | .callCmdSelectDuty src eng session => Sys2Proof.Machine.execCallCmdSelectDuty src eng session s
  | .callCmdAckCall src eng session => Sys2Proof.Machine.execCallCmdAckCall src eng session s
  | .callCmdBadOp src session => Sys2Proof.Machine.execCallCmdBadOp src session s
  | .canFrameReceived k f age parity => Sys2Proof.Machine.execCanFrameReceived k f age parity s
  | .canTxRequest src k mask => Sys2Proof.Machine.execCanTxRequest src k mask s
  | .canTxAttemptEnd k b e tdcv age => Sys2Proof.Machine.execCanTxAttemptEnd k b e tdcv age s
  | .canTxAbort src k mask onBus => Sys2Proof.Machine.execCanTxAbort src k mask onBus s
  | .canError k field type tx heavy ident => Sys2Proof.Machine.execCanError k field type tx heavy ident s
  | .canBusoffRecovered k => Sys2Proof.Machine.execCanBusoffRecovered k s
  | .canDominantTimeout k => Sys2Proof.Machine.execCanDominantTimeout k s
  | .canModeWrite src k mode => Sys2Proof.Machine.execCanModeWrite src k mode s
  | .canModeChange k => Sys2Proof.Machine.execCanModeChange k s
  | .canIntegrated k => Sys2Proof.Machine.execCanIntegrated k s
  | .networkJoin => Sys2Proof.Machine.execNetworkJoin s
  | .addrClaimSend => Sys2Proof.Machine.execAddrClaimSend s
  | .heartbeatSend => Sys2Proof.Machine.execHeartbeatSend s
  | .addrClaimReceived f unitB => Sys2Proof.Machine.execAddrClaimReceived f unitB s
  | .addressConflictProbeEnd => Sys2Proof.Machine.execAddressConflictProbeEnd s
  | .heartbeatReceived f unitB => Sys2Proof.Machine.execHeartbeatReceived f unitB s
  | .timeRefSend => Sys2Proof.Machine.execTimeRefSend s
  | .timeFollowSend d => Sys2Proof.Machine.execTimeFollowSend d s
  | .timeRefReceived f => Sys2Proof.Machine.execTimeRefReceived f s
  | .timeFollowReceived f => Sys2Proof.Machine.execTimeFollowReceived f s
  | .timHoldover => Sys2Proof.Machine.execTimHoldover s
  | .timFree => Sys2Proof.Machine.execTimFree s
  | .almTransReceived f full => Sys2Proof.Machine.execAlmTransReceived f full s
  | .almPendingReceived f full => Sys2Proof.Machine.execAlmPendingReceived f full s
  | .almRetractReceived f full => Sys2Proof.Machine.execAlmRetractReceived f full s
  | .almFrameRelease => Sys2Proof.Machine.execAlmFrameRelease s
  | .floodDigestSend => Sys2Proof.Machine.execFloodDigestSend s
  | .floodDigestReceived f => Sys2Proof.Machine.execFloodDigestReceived f s
  | .floodEnd => Sys2Proof.Machine.execFloodEnd s
  | .callStepReceived f => Sys2Proof.Machine.execCallStepReceived f s
  | .callAckReceived f => Sys2Proof.Machine.execCallAckReceived f s
  | .pointStateSweep => Sys2Proof.Machine.execPointStateSweep s
  | .pointStateReceived f => Sys2Proof.Machine.execPointStateReceived f s
  | .digestSend => Sys2Proof.Machine.execDigestSend s
  | .digestReceived f => Sys2Proof.Machine.execDigestReceived f s
  | .cmdRegRead f => Sys2Proof.Machine.execCmdRegRead f s
  | .cmdRegWrite f => Sys2Proof.Machine.execCmdRegWrite f s
  | .cmdAlarm f => Sys2Proof.Machine.execCmdAlarm f s
  | .cmdPoint f => Sys2Proof.Machine.execCmdPoint f s
  | .cmdDuty f => Sys2Proof.Machine.execCmdDuty f s
  | .cmdStateReq f => Sys2Proof.Machine.execCmdStateReq f s
  | .cmdTimeSet f => Sys2Proof.Machine.execCmdTimeSet f s
  | .cmdConflict f => Sys2Proof.Machine.execCmdConflict f s
  | .rspReceived f => Sys2Proof.Machine.execRspReceived f s
  | .cmdRspTimeout tag => Sys2Proof.Machine.execCmdRspTimeout tag s
  | .cmdTagExpiry node tag => Sys2Proof.Machine.execCmdTagExpiry node tag s
  | .rcpXferData src chunk bytes => Sys2Proof.Machine.execRcpXferData src chunk bytes s
  | .recXferDataReceived f => Sys2Proof.Machine.execRecXferDataReceived f s
  | .recXferEndReceived f => Sys2Proof.Machine.execRecXferEndReceived f s
  | .recXferSendPace => Sys2Proof.Machine.execRecXferSendPace s
  | .memberLost m => Sys2Proof.Machine.execMemberLost m s
  | .mgrLost => Sys2Proof.Machine.execMgrLost s
  | .syncInPulse ok => Sys2Proof.Machine.execSyncInPulse ok s
  | .syncInLoss => Sys2Proof.Machine.execSyncInLoss s
  | .syncOutPulse => Sys2Proof.Machine.execSyncOutPulse s
  | .timSet src => Sys2Proof.Machine.execTimSet src s
  | .timSetAtPulse src => Sys2Proof.Machine.execTimSetAtPulse src s
  | .lvnLinkTrained lat => Sys2Proof.Machine.execLvnLinkTrained lat s
  | .lvnLaneDown l => Sys2Proof.Machine.execLvnLaneDown l s
  | .lvnLaneRetrain l ok => Sys2Proof.Machine.execLvnLaneRetrain l ok s
  | .lvHeartbeatSend => Sys2Proof.Machine.execLvHeartbeatSend s
  | .lvHeartbeatReceived d ok age => Sys2Proof.Machine.execLvHeartbeatReceived d ok age s
  | .lvHelloSend => Sys2Proof.Machine.execLvHelloSend s
  | .lvHelloReceived d ok => Sys2Proof.Machine.execLvHelloReceived d ok s
  | .roleNegotiation => Sys2Proof.Machine.execRoleNegotiation s
  | .peerWaitExpiry => Sys2Proof.Machine.execPeerWaitExpiry s
  | .epochBoundary bytes frames => Sys2Proof.Machine.execEpochBoundary bytes frames s
  | .lvEpochOpenReceived n base t ok => Sys2Proof.Machine.execLvEpochOpenReceived n base t ok s
  | .lvDeltaReceived recs bytes ok => Sys2Proof.Machine.execLvDeltaReceived recs bytes ok s
  | .lvCommitReceived n bytes frames flags crc ok => Sys2Proof.Machine.execLvCommitReceived n bytes frames flags crc ok s
  | .lvCmdFwdReceived d ok => Sys2Proof.Machine.execLvCmdFwdReceived d ok s
  | .lvFaultReceived volts swap ok => Sys2Proof.Machine.execLvFaultReceived volts swap ok s
  | .lvPresInFall => Sys2Proof.Machine.execLvPresInFall s
  | .presCheckExpiry volts swap => Sys2Proof.Machine.execPresCheckExpiry volts swap s
  | .lvHeartbeatLoss volts swap => Sys2Proof.Machine.execLvHeartbeatLoss volts swap s
  | .aoHeldRecheck c v low => Sys2Proof.Machine.execAoHeldRecheck c v low s
  | .splitCheckExpiry => Sys2Proof.Machine.execSplitCheckExpiry s
  | .splitPartnerLoss => Sys2Proof.Machine.execSplitPartnerLoss s
  | .revertHoldExpiry => Sys2Proof.Machine.execRevertHoldExpiry s
  | .lvnHandover src => Sys2Proof.Machine.execLvnHandover src s
  | .lvRevertReqReceived handover ok => Sys2Proof.Machine.execLvRevertReqReceived handover ok s
  | .lvRevertPlanReceived t ok => Sys2Proof.Machine.execLvRevertPlanReceived t ok s
  | .revertFreeze => Sys2Proof.Machine.execRevertFreeze s
  | .revertAckDeadline => Sys2Proof.Machine.execRevertAckDeadline s
  | .revertSwitch dio ao => Sys2Proof.Machine.execRevertSwitch dio ao s
  | .lvConfirmReceived dio ao ok => Sys2Proof.Machine.execLvConfirmReceived dio ao ok s
  | .lvRevertFailReceived ok => Sys2Proof.Machine.execLvRevertFailReceived ok s
  | .revertRelease => Sys2Proof.Machine.execRevertRelease s
  | .revertEnd => Sys2Proof.Machine.execRevertEnd s
  | .lvImageReceived d ok => Sys2Proof.Machine.execLvImageReceived d ok s
  | .partnerUpdateDone ok => Sys2Proof.Machine.execPartnerUpdateDone ok s
  | .lvnStop src stop => Sys2Proof.Machine.execLvnStop src stop s
  | .lvnLoopTest src depth => Sys2Proof.Machine.execLvnLoopTest src depth s
  | .lvnLoopDone errors => Sys2Proof.Machine.execLvnLoopDone errors s
  | .sliceClose n => Sys2Proof.Machine.execSliceClose n s
  | .recEntry sub => Sys2Proof.Machine.execRecEntry sub s
  | .sliceFlushExpiry => Sys2Proof.Machine.execSliceFlushExpiry s
  | .ringFlushExpiry => Sys2Proof.Machine.execRingFlushExpiry s
  | .recFlush => Sys2Proof.Machine.execRecFlush s
  | .pageCommitDone => Sys2Proof.Machine.execPageCommitDone s
  | .recCommitTimeout => Sys2Proof.Machine.execRecCommitTimeout s
  | .checkpointTimer => Sys2Proof.Machine.execCheckpointTimer s
  | .recRecovery => Sys2Proof.Machine.execRecRecovery s
  | .recRecoveryDone => Sys2Proof.Machine.execRecRecoveryDone s
  | .recFormat src key => Sys2Proof.Machine.execRecFormat src key s
  | .recStop stop => Sys2Proof.Machine.execRecStop stop s
  | .recReadSeq ring => Sys2Proof.Machine.execRecReadSeq ring s
  | .recFindTime ring => Sys2Proof.Machine.execRecFindTime ring s
  | .recReadNext ring => Sys2Proof.Machine.execRecReadNext ring s
  | .recReadOpen ring => Sys2Proof.Machine.execRecReadOpen ring s
  | .recReadDone media => Sys2Proof.Machine.execRecReadDone media s
  | .mmcCommandFail crc cmd rsp ok => Sys2Proof.Machine.execMmcCommandFail crc cmd rsp ok s
  | .mmcReinitTimer ok => Sys2Proof.Machine.execMmcReinitTimer ok s
  | .pnlUpdateRequest src tag split mode => Sys2Proof.Machine.execPnlUpdateRequest src tag split mode s
  | .pnlRailsReady => Sys2Proof.Machine.execPnlRailsReady s
  | .pnlRailIdle => Sys2Proof.Machine.execPnlRailIdle s
  | .pnlRailFault => Sys2Proof.Machine.execPnlRailFault s
  | .pnlRailRetry => Sys2Proof.Machine.execPnlRailRetry s
  | .pnlRailFaultRetry => Sys2Proof.Machine.execPnlRailFaultRetry s
  | .pnlRetry => Sys2Proof.Machine.execPnlRetry s
  | .pnlRefresh => Sys2Proof.Machine.execPnlRefresh s
  | .pnlTempSample mv => Sys2Proof.Machine.execPnlTempSample mv s
  | .pnlVcomChange => Sys2Proof.Machine.execPnlVcomChange s
  | .pnlFrameBoundary late => Sys2Proof.Machine.execPnlFrameBoundary late s
  | .fbApertureWrite src off v => Sys2Proof.Machine.execFbApertureWrite src off v s
  | .rndRedraw => Sys2Proof.Machine.execRndRedraw s
  | .rndPageSelect src page group => Sys2Proof.Machine.execRndPageSelect src page group s
  | .rndKeyUp => Sys2Proof.Machine.execRndKeyUp s
  | .rndKeyDown => Sys2Proof.Machine.execRndKeyDown s
  | .rndKeyPage => Sys2Proof.Machine.execRndKeyPage s
  | .rndKeySelect => Sys2Proof.Machine.execRndKeySelect s
  | .rndKeyAck => Sys2Proof.Machine.execRndKeyAck s
  | .rndKeyAckPage => Sys2Proof.Machine.execRndKeyAckPage s
  | .rndKeySilence => Sys2Proof.Machine.execRndKeySilence s
  | .rndKeyAckCall eng => Sys2Proof.Machine.execRndKeyAckCall eng s
  | .rndKeyDuty eng => Sys2Proof.Machine.execRndKeyDuty eng s
  | .rndKeyBad key => Sys2Proof.Machine.execRndKeyBad key s
  | .hostRead h mode3 header => Sys2Proof.Machine.execHostRead h mode3 header s
  | .hostWrite h mode3 bytes => Sys2Proof.Machine.execHostWrite h mode3 bytes s
  | .hostWriteApply h => Sys2Proof.Machine.execHostWriteApply h s
  | .hostSleepChange h level => Sys2Proof.Machine.execHostSleepChange h level s
  | .hostIdleDoorbell h idle => Sys2Proof.Machine.execHostIdleDoorbell h idle s
  | .hostDoorbell b payload => Sys2Proof.Machine.execHostDoorbell b payload s
  | .evrRecordWrite h => Sys2Proof.Machine.execEvrRecordWrite h s
  | .evrClaim h => Sys2Proof.Machine.execEvrClaim h s
  | .evrEoi h => Sys2Proof.Machine.execEvrEoi h s
  | .evrEnSet src n mask => Sys2Proof.Machine.execEvrEnSet src n mask s
  | .evrEnClr n mask => Sys2Proof.Machine.execEvrEnClr n mask s
  | .evrPndSet n mask => Sys2Proof.Machine.execEvrPndSet n mask s
  | .evrPndClr n mask => Sys2Proof.Machine.execEvrPndClr n mask s
  | .evrTargetChange src target => Sys2Proof.Machine.execEvrTargetChange src target s
  | .evrHoldWrite hold => Sys2Proof.Machine.execEvrHoldWrite hold s
  | .evrHoldoffExpiry h => Sys2Proof.Machine.execEvrHoldoffExpiry h s
  | .ageRefCheck c a b => Sys2Proof.Machine.execAgeRefCheck c a b s
  | .ageAoGain c err secs => Sys2Proof.Machine.execAgeAoGain c err secs s
  | .ageDioSwitch c r25 => Sys2Proof.Machine.execAgeDioSwitch c r25 s
  | .ageTcxoSample => Sys2Proof.Machine.execAgeTcxoSample s
  | .ageHoldTest cap esr partner abandoned => Sys2Proof.Machine.execAgeHoldTest cap esr partner abandoned s
  | .ageEmmcWear lifeA lifeB eol => Sys2Proof.Machine.execAgeEmmcWear lifeA lifeB eol s
  | .ageBarrierTest d r => Sys2Proof.Machine.execAgeBarrierTest d r s
  | .ageLedgerPage ok => Sys2Proof.Machine.execAgeLedgerPage ok s
  | .ageLedgerScanDone => Sys2Proof.Machine.execAgeLedgerScanDone s
  | .ageAckDue src item => Sys2Proof.Machine.execAgeAckDue src item s
  | .ageRebase src item => Sys2Proof.Machine.execAgeRebase src item s
  | .ageTestHold cap esr partner abandoned => Sys2Proof.Machine.execAgeTestHold cap esr partner abandoned s
  | .ageMeasure m => Sys2Proof.Machine.execAgeMeasure m s
  | .ageCmdBadOp src => Sys2Proof.Machine.execAgeCmdBadOp src s
  | .periodicLoopback t pass retry cause => Sys2Proof.Machine.execPeriodicLoopback t pass retry cause s
  | .dioFieldLoopback src sink => Sys2Proof.Machine.execDioFieldLoopback src sink s
  | .fieldLoopbackDone levels skew => Sys2Proof.Machine.execFieldLoopbackDone levels skew s
  | .jtagInstruction ir trstn => Sys2Proof.Machine.execJtagInstruction ir trstn s
  | .registerWrite src addr value => Sys2Proof.Machine.execRegisterWrite src addr value s
  | .readClear addr => Sys2Proof.Machine.execReadClear addr s
  | .timeLoRead addr => Sys2Proof.Machine.execTimeLoRead addr s
  | .networkTimeWaitExpiry => Sys2Proof.Machine.execNetworkTimeWaitExpiry s
  | .aoIslandPowered c => Sys2Proof.Machine.execAoIslandPowered c s
  | .dioDiagClear c bit' => Sys2Proof.Machine.execDioDiagClear c bit' s
  | .psPulseRejected c => Sys2Proof.Machine.execPsPulseRejected c s
  | .floodStateReqPace => Sys2Proof.Machine.execFloodStateReqPace s
  | .lvPresInRise => Sys2Proof.Machine.execLvPresInRise s
  | .lvImageSend => Sys2Proof.Machine.execLvImageSend s
  | .recipeSectionReloadDone sec => Sys2Proof.Machine.execRecipeSectionReloadDone sec s

end Sys2Proof.Machine
end

