-- ==== Sys2Proof/Safety.lean ====
section
/-! DEFINITION. Safety: what a statement says of a command. A run of the block is safe as long as every step answers a next
state. A statement also says which parts of the state a command leaves as they are. -/
namespace Sys2Proof.Machine

open Sys2Proof

/-- The parts of the state, one for each field of `State`. -/
inductive Part where
  | pending | now | mono | drawn | sys | fab | sup | rcp | evr | hp | ui | uiBlk | ao | aoBlk | dio | dioBlk | ps | psBlk
  | can | pev | ann | grp | call | imz | tim | lvn | recd | mmc | pnl | rnd | age | tst
deriving DecidableEq, Repr

/-- Both states agree in a part. -/
def Part.same (s t : State) : Part → Prop
  | .pending => t.pending = s.pending
  | .now => t.now = s.now
  | .mono => t.mono = s.mono
  | .drawn => t.drawn = s.drawn
  | .sys => t.sys = s.sys
  | .fab => t.fab = s.fab
  | .sup => t.sup = s.sup
  | .rcp => t.rcp = s.rcp
  | .evr => t.evr = s.evr
  | .hp => t.hp = s.hp
  | .ui => t.ui = s.ui
  | .uiBlk => t.uiBlk = s.uiBlk
  | .ao => t.ao = s.ao
  | .aoBlk => t.aoBlk = s.aoBlk
  | .dio => t.dio = s.dio
  | .dioBlk => t.dioBlk = s.dioBlk
  | .ps => t.ps = s.ps
  | .psBlk => t.psBlk = s.psBlk
  | .can => t.can = s.can
  | .pev => t.pev = s.pev
  | .ann => t.ann = s.ann
  | .grp => t.grp = s.grp
  | .call => t.call = s.call
  | .imz => t.imz = s.imz
  | .tim => t.tim = s.tim
  | .lvn => t.lvn = s.lvn
  | .recd => t.recd = s.recd
  | .mmc => t.mmc = s.mmc
  | .pnl => t.pnl = s.pnl
  | .rnd => t.rnd = s.rnd
  | .age => t.age = s.age
  | .tst => t.tst = s.tst

/-- `t` agrees with `s` in every part outside the list. -/
structure Only (l : List Part) (s t : State) : Prop where
  same : ∀ p : Part, l.contains p = false → p.same s t

/-- The command completes: it answers a next state, of which `P` holds. -/
def Runs (c : Instr) (s : State) (P : State → Prop) : Prop := ∃ t, exec c s = .next t ∧ P t

/-- In `t` the event source has had one more occurrence than in `s`, with this payload, now. -/
def Raised (n : Fin 512) (w : Word) (s t : State) : Prop := t.evr.srcs[n] = (s.evr.srcs[n]).occur w s.stamp

/-- In `t` controller `k` has taken frame `f` of IMZ as it would take it in `s`: see `canSubmit` (R306, R318). -/
def Took (k : Fin 4) (f : OutFrame) (s t : State) : Prop := t.can[k] = (canSubmit k f s).can[k]

/-- Both controllers of a segment have taken a frame; the segment above is CAN0 and CAN1, the one below CAN2 and CAN3
(R320). -/
def TookUp (f : OutFrame) (s t : State) : Prop := Took 0 f s t ∧ Took 1 f s t
/-- The segment below. -/
def TookDown (f : OutFrame) (s t : State) : Prop := Took 2 f s t ∧ Took 3 f s t

/-- The node is a member of a segment above and may send there, and is a single unit or the active one of its pair
(R322, R326). -/
def speaksUp (s : State) : Bool := imzOpen s && s.activeUnit && !s.netTop
/-- The node manages a segment below and may send there. -/
def speaksDown (s : State) : Bool := imzOpen s && s.activeUnit && s.isManager

/-- A received frame of `n` bytes is one that IMZ acts on (R333, R342). -/
def heard (n : Nat) (f : ImzRx) (s : State) : Bool := imzLive s && !s.standby && f.data.length == n

/-- A received frame is a command of an opcode for this node, which hands over no control (R340, R341, R378). -/
def commandHere (op : Nat) (f : ImzRx) (s : State) : Bool :=
  heard 64 f s && !handingOver s && f.dir != 3 && !(rxByte f 4).testBit 2 && rxByte f 3 == op &&
    dataNat f.data 0 2 == s.nodeNum.toNat

/-- A recipe's partition and bank are in canonical form. -/
def RecipeWf (r : Recipe) : Prop := Memory.wf r.part = true ∧ Memory.wf r.bank = true

/-- Every byte memory of the block is in canonical form: partitions, banks and buffers of the recipes, HART buffers, message
RAMs, the page that REC_XFER gathers, the framebuffer's planes and the targets of running slots; and so is the eMMC's table of
sectors. -/
structure MemWf (s : State) : Prop where
  recipes : ∀ i : Fin 2, RecipeWf s.rcp.recipes[i]
  block0 : Memory.wf s.rcp.block0 = true
  buf : Memory.wf s.rcp.buf = true
  tx : ∀ c : Fin 4, Memory.wf s.ao[c].tx = true
  rx : ∀ c : Fin 4, Memory.wf s.ao[c].rx = true
  ram : ∀ k : Fin 4, Memory.wf s.can[k].ram = true
  xferIn : Memory.wf s.imz.xferIn = true
  cur : Memory.wf s.pnl.cur = true
  prev : Memory.wf s.pnl.prev = true
  targets : ∀ k ∈ s.pnl.slots, Memory.wf k.target = true
  user : tblWf zeroSector s.mmc.user = true

/-- The parts of the state that a command may change; it leaves every other part as it is. -/
def partsOf : Instr → List Part
  | .fabricRequest _ _ _ _ => [.now, .drawn, .sys, .fab, .sup, .rcp, .evr, .hp, .ui, .uiBlk, .ao, .aoBlk, .dio,
    .dioBlk, .ps, .psBlk, .can, .pev, .ann, .grp, .call, .imz, .tim, .lvn, .recd, .mmc, .pnl, .rnd, .age, .tst]
  | .fabricResponse _ _ _ => [.now, .drawn, .sys, .fab, .sup, .rcp, .evr, .hp, .ui, .uiBlk, .ao, .aoBlk, .dio,
    .dioBlk, .ps, .psBlk, .can, .pev, .ann, .grp, .call, .imz, .tim, .lvn, .recd, .mmc, .pnl, .rnd, .age, .tst]
  | .fabricTimeout _ _ => [.drawn, .sys, .fab, .rcp, .evr, .ui, .uiBlk, .ao, .aoBlk, .dio, .dioBlk, .ps, .psBlk, .can,
    .pev, .ann, .call, .imz, .tim, .lvn, .mmc, .pnl, .rnd]
  | .seqQuery _ _ => [.fab]
  | .busyResend _ _ => [.fab]
  | .grantHoldOverrun _ _ _ => [.drawn, .sys, .fab, .rcp, .evr, .ui, .uiBlk, .ao, .aoBlk, .dio, .dioBlk, .ps, .psBlk,
    .can, .pev, .ann, .call, .imz, .tim, .lvn, .mmc, .pnl, .rnd]
  | .requestDeadlineMiss _ _ _ _ => [.drawn, .sys, .fab, .rcp, .evr, .ui, .uiBlk, .ao, .aoBlk, .dio, .dioBlk, .ps,
    .psBlk, .can, .pev, .ann, .call, .imz, .tim, .lvn, .mmc, .pnl, .rnd]
  | .readmissionTest _ _ _ => [.sys, .evr, .dio, .dioBlk]
  | .cellReadmit _ _ => [.sys, .evr, .dio, .dioBlk]
  | .regionWatchdogExpiry _ => [.drawn, .sys, .fab, .rcp, .evr, .ui, .uiBlk, .ao, .aoBlk, .dio, .dioBlk, .ps, .psBlk,
    .can, .pev, .ann, .call, .imz, .tim, .lvn, .mmc, .pnl, .rnd]
  | .regionReady _ _ => [.drawn, .sys, .fab, .rcp, .evr, .hp, .ui, .ao, .dio, .dioBlk, .ps, .can, .pev, .mmc, .pnl,
    .age]
  | .readyLimitExpiry _ => [.drawn, .sys, .fab, .rcp, .evr, .ui, .ao, .dio, .dioBlk, .can, .pev, .imz, .lvn, .pnl]
  | .sysRgnReset _ _ => [.drawn, .sys, .fab, .rcp, .evr, .ui, .uiBlk, .ao, .aoBlk, .dio, .dioBlk, .ps, .psBlk, .can,
    .pev, .ann, .call, .tim, .lvn, .mmc, .pnl, .rnd]
  | .sysRgnHold _ _ => [.drawn, .sys, .fab, .rcp, .evr, .ui, .uiBlk, .ao, .aoBlk, .dio, .dioBlk, .ps, .psBlk, .can,
    .pev, .ann, .call, .tim, .lvn, .mmc, .pnl, .rnd]
  | .supervisorWatchdogExpiry => [.drawn, .sys, .rcp, .evr, .ui, .ao, .dio, .dioBlk, .can, .pev, .imz, .lvn, .pnl]
  | .fabricRootError _ => [.drawn, .sys, .rcp, .evr, .ui, .ao, .dio, .dioBlk, .can, .pev, .imz, .lvn, .pnl]
  | .pllLoss => [.drawn, .sys, .rcp, .evr, .ui, .ao, .dio, .dioBlk, .can, .pev, .imz, .lvn, .pnl]
  | .safeStateRestart => [.sys, .fab, .sup, .rcp, .evr, .hp, .ui, .uiBlk, .ao, .aoBlk, .dio, .dioBlk, .ps, .psBlk,
    .can, .pev, .ann, .grp, .call, .imz, .tim, .lvn, .recd, .mmc, .pnl, .rnd, .age, .tst]
  | .scrubPass _ _ => [.drawn, .sys, .rcp, .evr, .ui, .ao, .dio, .dioBlk, .can, .pev, .ann, .imz, .lvn, .recd, .pnl,
    .rnd]
  | .testmodeHigh => [.drawn, .sys, .rcp, .evr, .ui, .ao, .dio, .dioBlk, .can, .pev, .imz, .lvn, .pnl]
  | .roleChange _ => [.sys]
  | .resetnLow => [.sys, .fab, .sup, .rcp, .evr, .hp, .ui, .uiBlk, .ao, .aoBlk, .dio, .dioBlk, .ps, .psBlk, .can,
    .pev, .ann, .grp, .call, .imz, .tim, .lvn, .recd, .mmc, .pnl, .rnd, .age, .tst]
  | .resetnRise => [.sys, .fab, .sup, .rcp, .evr, .hp, .ui, .uiBlk, .ao, .aoBlk, .dio, .dioBlk, .ps, .psBlk, .can,
    .pev, .ann, .grp, .call, .imz, .tim, .lvn, .recd, .mmc, .pnl, .rnd, .age, .tst]
  | .feedLow _ _ => [.sup, .evr]
  | .feedLost _ _ _ => [.sup, .evr, .imz]
  | .feedLostEnd _ _ _ => [.sup, .evr, .imz]
  | .feedHigh _ _ => [.sup, .evr]
  | .feedInRange _ _ => [.sup, .evr]
  | .feedDisconnect _ => [.sup]
  | .feedReconnect _ => [.sup]
  | .feedReversed _ _ => [.sup, .evr, .imz]
  | .powerGood _ => [.now, .mono, .sys, .fab, .sup, .rcp, .evr, .hp, .ui, .uiBlk, .ao, .aoBlk, .dio, .dioBlk, .ps,
    .psBlk, .can, .pev, .ann, .grp, .call, .imz, .tim, .lvn, .recd, .mmc, .pnl, .rnd, .age, .tst]
  | .powerGoodLoss => [.now, .mono, .sys, .fab, .sup, .rcp, .evr, .hp, .ui, .uiBlk, .ao, .aoBlk, .dio, .dioBlk, .ps,
    .psBlk, .can, .pev, .ann, .grp, .call, .imz, .tim, .lvn, .recd, .mmc, .pnl, .rnd, .age, .tst]
  | .holdAbsent _ => [.sup, .evr]
  | .holdOk _ => [.sup]
  | .holdFault _ => [.sup, .evr]
  | .holdChargeRetry => [.sup]
  | .lastBreath _ _ => [.drawn, .sys, .sup, .rcp, .evr, .ui, .ao, .dio, .dioBlk, .can, .pev, .ann, .lvn, .recd, .mmc,
    .pnl]
  | .lastBreathRestart => [.drawn, .sys, .fab, .sup, .rcp, .evr, .hp, .ui, .uiBlk, .ao, .aoBlk, .dio, .dioBlk, .ps,
    .psBlk, .can, .pev, .ann, .grp, .call, .imz, .tim, .lvn, .recd, .mmc, .pnl, .rnd, .age, .tst]
  | .xtalHandover => [.sys]
  | .clockCheck _ _ _ => [.drawn, .sys, .rcp, .evr, .ui, .ao, .dio, .dioBlk, .can, .pev, .imz, .lvn, .pnl]
  | .tempMeasure _ _ => [.drawn, .sys, .sup, .rcp, .evr, .ui, .ao, .dio, .dioBlk, .can, .pev, .imz, .lvn, .pnl]
  | .supplyEventHoldoff _ _ => [.sup, .evr]
  | .dozeEnable _ _ => [.sys]
  | .dozePowerDown _ => [.sys, .fab]
  | .dozePowerUp _ => [.sys]
  | .dormantRequest _ => [.sys]
  | .dormantEntry => [.drawn, .sys, .fab, .rcp, .evr, .ui, .uiBlk, .ao, .aoBlk, .dio, .dioBlk, .ps, .psBlk, .can,
    .pev, .ann, .call, .imz, .tim, .lvn, .mmc, .pnl, .rnd]
  | .wakeCommand _ => [.sys, .evr, .ui, .ao, .dio, .imz, .lvn, .mmc]
  | .dormantWake _ => [.drawn, .sys, .evr, .ui, .ao, .dio, .imz, .lvn, .mmc]
  | .emmcInit _ _ => [.sys, .sup, .rcp, .evr, .can, .recd, .mmc, .age]
  | .emmcInitRetry _ _ => [.sys, .sup, .rcp, .evr, .can, .recd, .mmc, .age]
  | .bootHeadersRead _ => [.sys, .sup, .rcp, .evr, .can]
  | .activeImageLoaded _ => [.drawn, .sys, .sup, .rcp, .evr, .hp, .ui, .ao, .dio, .ps, .can, .pev, .call, .lvn, .recd,
    .pnl, .age]
  | .shadowLoaded _ => [.rcp]
  | .startInhibitEnd => [.sys, .pev]
  | .bareRateSearchStep => [.sys, .rcp, .evr, .can]
  | .bareAddrClaim => [.evr, .can]
  | .rcpOpen _ _ => [.drawn, .rcp, .evr, .can]
  | .rcpWriteBlock _ _ _ => [.drawn, .rcp, .evr, .can, .imz]
  | .rcpVerify _ => [.drawn, .rcp, .evr, .can]
  | .rcpVerifyDone _ _ => [.drawn, .sys, .fab, .sup, .rcp, .evr, .hp, .ui, .uiBlk, .ao, .aoBlk, .dio, .dioBlk, .ps,
    .psBlk, .can, .pev, .ann, .grp, .call, .imz, .tim, .lvn, .recd, .mmc, .pnl, .rnd, .age, .tst]
  | .rcpClose _ => [.drawn, .rcp, .evr, .can]
  | .rcpSwap _ _ _ => [.drawn, .rcp, .evr, .can]
  | .rcpSetActive _ _ _ => [.drawn, .rcp, .evr, .can]
  | .rcpReloadShadow _ _ => [.drawn, .rcp, .evr, .can]
  | .rcpBadOp _ _ => [.drawn, .rcp, .evr, .can]
  | .rcpBufWrite _ _ _ => [.sys, .rcp]
  | .rcpOwnerTimeout => [.rcp]
  | .swapBoundary => [.drawn, .sys, .rcp, .evr, .hp, .ui, .ao, .dio, .ps, .can, .pev, .ann, .grp, .call, .imz, .recd,
    .mmc, .pnl, .rnd, .age]
  | .swapAbort => [.drawn, .rcp, .evr, .can]
  | .bootConfigWritten _ => [.rcp, .evr]
  | .bootConfigRetry _ => [.rcp, .evr]
  | .uiIslandPowered _ => [.evr, .ui]
  | .uiConversion _ _ => [.sys, .evr, .ui]
  | .uiTestWindow _ _ => [.evr, .ui]
  | .uiTestCmd _ _ => [.sys, .evr, .ui]
  | .uiCalInterval _ => [.evr, .ui]
  | .uiCalCmd _ _ => [.sys, .evr, .ui]
  | .uiCalDone _ _ _ _ => [.evr, .ui]
  | .uiRefCheck _ _ => [.evr, .ui]
  | .uiNe43Confirm _ _ => [.evr, .ui]
  | .uiTxsOverload _ => [.evr, .ui]
  | .uiTxsRetry _ => [.ui]
  | .uiTxsOn _ _ => [.sys, .evr, .ui]
  | .uiTrendReset _ => [.evr, .ui]
  | .uiCrumb _ _ _ => [.sys, .evr, .ui, .tst]
  | .uiBarrier _ _ _ => [.sys, .evr, .ui, .tst]
  | .uiBlockStop _ => [.evr, .ui, .uiBlk]
  | .uiSharedExcCheck _ _ => [.evr, .ui]
  | .aoCellCycle _ _ => [.sys, .evr, .ao]
  | .aoClockStepUp _ => [.evr, .ao]
  | .aoBrownout _ => [.evr, .ao]
  | .aoIslandRestart _ => [.evr, .ao]
  | .aoBrownoutClear _ => [.evr, .ao]
  | .aoKeepalive _ => [.drawn, .sys, .fab, .rcp, .evr, .ui, .uiBlk, .ao, .aoBlk, .dio, .dioBlk, .ps, .psBlk, .can,
    .pev, .ann, .call, .imz, .tim, .lvn, .mmc, .pnl, .rnd]
  | .aoKeepaliveLost _ => [.evr, .ao]
  | .aoComplianceRetry _ => [.evr, .ao]
  | .aoSwitchReclose _ => [.evr, .ao]
  | .aoRestart _ _ => [.sys, .evr, .ao]
  | .aoCalDone _ => [.evr, .ao]
  | .aoTrimApply _ _ => [.sys, .evr, .ao, .mmc, .age]
  | .aoTrimClear _ _ => [.sys, .evr, .ao, .mmc, .age]
  | .aoHartTx _ _ => [.evr, .ao]
  | .aoHartTxStart _ => [.evr, .ao]
  | .aoHartTxDone _ => [.evr, .ao]
  | .aoHartCarrierDetect _ => [.ao]
  | .aoHartRxDone _ _ _ => [.evr, .ao]
  | .aoCrust _ _ _ => [.drawn, .evr, .tst]
  | .aoTrimEnter _ _ => [.evr, .ao]
  | .aoTrimAdjust _ _ => [.evr, .ao]
  | .aoTrimStore _ => [.evr, .ao, .mmc, .age]
  | .aoTrimDiscard _ => [.evr, .ao]
  | .aoTrimTimeout _ => [.evr, .ao]
  | .aoBlockStop _ => [.evr, .ao, .aoBlk]
  | .dioInputTransition _ _ _ => [.evr, .dio, .can, .ann, .call, .imz, .lvn]
  | .dioLineBreak _ => [.evr, .dio]
  | .dioButtonStuck _ => [.evr, .dio]
  | .dioBlinkPhase => [.dio, .dioBlk]
  | .dioInrushEnd _ => [.dio, .dioBlk]
  | .dioKeepalive => [.evr, .dio, .dioBlk]
  | .dioKeepaliveLost _ => [.evr, .dio, .dioBlk]
  | .dioOverload _ _ => [.evr, .dio, .dioBlk]
  | .dioShortCircuit _ => [.evr, .dio, .dioBlk]
  | .dioOvertemp _ => [.evr, .dio, .dioBlk]
  | .dioOvertempEnd _ => [.evr, .dio, .dioBlk]
  | .dioOpenOn _ => [.evr, .dio]
  | .dioOpenOff _ _ _ => [.evr, .dio]
  | .dioShortFsp _ _ _ => [.evr, .dio]
  | .dioBackfeed _ _ _ => [.evr, .dio]
  | .dioPartnerDrive _ _ _ => [.evr, .dio]
  | .dioOvlRetry _ => [.evr, .dio, .dioBlk]
  | .dioRetryCmd _ _ => [.sys, .evr, .dio, .dioBlk]
  | .dioRetryCountReset _ => [.dio]
  | .dioGroupWarn _ _ => [.sup, .evr, .dio, .dioBlk]
  | .dioGroupLow _ _ => [.sup, .evr, .dio, .dioBlk]
  | .dioGroupOvervolt _ _ => [.sup, .evr, .dio, .dioBlk]
  | .dioGroupLost _ _ => [.sup, .evr, .dio, .dioBlk]
  | .dioGroupNormal _ _ => [.sup, .evr, .dio, .dioBlk]
  | .dioGroupShed _ _ => [.evr, .dio, .dioBlk]
  | .dioShedRetry _ => [.evr, .dio, .dioBlk]
  | .dioLampAverage _ _ _ _ => [.evr, .dio]
  | .dioLampProbe _ _ => [.evr, .dio]
  | .dioLearnPartDone _ _ => [.evr, .dio, .mmc, .age]
  | .dioLearn _ _ => [.sys, .evr, .dio]
  | .dioLearnClr _ _ => [.sys, .evr, .dio, .mmc, .age]
  | .dioCrumb _ _ _ => [.evr, .tst]
  | .dioBarrier _ _ _ => [.evr, .tst]
  | .dioCrust _ _ _ => [.evr, .tst]
  | .dioBlockStop _ => [.evr, .dio, .dioBlk]
  | .psEdge _ _ _ _ _ _ => [.evr, .ps]
  | .psIndexEdge _ => [.drawn, .evr, .ps]
  | .psStandstill _ => [.ps]
  | .psSetPos _ _ => [.sys, .evr, .ps]
  | .psArmZ _ => [.ps]
  | .psCmpWrite _ _ _ => [.sys, .ps]
  | .psCrumb _ _ _ => [.evr, .tst]
  | .psBarrier _ _ _ => [.evr, .tst]
  | .psBlockStop _ => [.evr, .ps, .psBlk]
  | .psDiagClear _ _ => [.evr, .ps]
  | .scanStart _ => [.now, .drawn, .sys, .fab, .sup, .rcp, .evr, .hp, .ui, .uiBlk, .ao, .aoBlk, .dio, .dioBlk, .ps,
    .psBlk, .can, .pev, .ann, .grp, .call, .imz, .tim, .lvn, .recd, .mmc, .pnl, .rnd, .age, .tst]
  | .onDelayExpiry _ => [.pev]
  | .offDelayExpiry _ => [.pev]
  | .releaseDelayExpiry _ => [.pev]
  | .faultDelayExpiry _ => [.pev]
  | .staleTimeout _ => [.pev]
  | .ptCmdOos _ _ => [.pev, .lvn]
  | .ptCmdRts _ _ => [.pev, .lvn]
  | .ptCmdSubst _ _ => [.pev, .lvn]
  | .almCmdAck _ _ _ => [.ann, .lvn]
  | .almCmdSilence _ _ _ => [.ann, .lvn]
  | .almCmdShelve _ _ _ => [.ann, .lvn]
  | .almCmdUnshelve _ _ _ => [.ann, .lvn]
  | .almCmdBadOp _ _ _ _ => [.ann, .lvn]
  | .shelveExpiry _ => [.pev]
  | .foSettleExpiry _ => [.evr, .grp]
  | .imzResyncSend => [.evr, .can, .pev, .ann, .imz]
  | .callT1Expiry _ => [.call]
  | .callT2Expiry _ => [.call]
  | .callT3Expiry _ => [.call]
  | .callClearedExpiry _ => [.call]
  | .callStepRepeat _ => [.evr, .can, .call]
  | .callClearRepeat _ => [.evr, .can, .call]
  | .callUnitLost _ => [.evr, .call]
  | .callCmdSelectDuty _ _ _ => [.call, .lvn]
  | .callCmdAckCall _ _ _ => [.call, .lvn]
  | .callCmdBadOp _ _ => [.call, .lvn]
  | .canFrameReceived _ _ _ _ => [.drawn, .sys, .rcp, .evr, .can, .call, .imz, .lvn, .recd]
  | .canTxRequest _ _ _ => [.sys, .evr, .can]
  | .canTxAttemptEnd _ _ _ _ _ => [.evr, .can, .imz, .tim]
  | .canTxAbort _ _ _ _ => [.sys, .evr, .can]
  | .canError _ _ _ _ _ _ => [.sys, .rcp, .evr, .can, .imz]
  | .canBusoffRecovered _ => [.evr, .can]
  | .canDominantTimeout _ => [.drawn, .sys, .fab, .rcp, .evr, .ui, .uiBlk, .ao, .aoBlk, .dio, .dioBlk, .ps, .psBlk,
    .can, .pev, .ann, .call, .imz, .tim, .lvn, .mmc, .pnl, .rnd]
  | .canModeWrite _ _ _ => [.sys, .can]
  | .canModeChange _ => [.sys, .evr, .can]
  | .canIntegrated _ => [.evr, .can]
  | .networkJoin => [.sys, .evr, .can, .imz, .tim, .lvn]
  | .addrClaimSend => [.evr, .can]
  | .heartbeatSend => [.evr, .can, .imz]
  | .addrClaimReceived _ _ => [.evr, .can, .imz]
  | .addressConflictProbeEnd => [.imz]
  | .heartbeatReceived _ _ => [.sys, .evr, .ui, .ao, .dio, .dioBlk, .can, .imz, .lvn]
  | .timeRefSend => [.evr, .can, .tim]
  | .timeFollowSend _ => [.evr, .can, .tim]
  | .timeRefReceived _ => [.evr, .can, .imz, .tim]
  | .timeFollowReceived _ => [.now, .drawn, .sys, .evr, .can, .pev, .call, .tim, .lvn, .recd, .mmc]
  | .timHoldover => [.evr, .tim]
  | .timFree => [.evr, .tim, .age]
  | .almTransReceived _ _ => [.evr, .can, .ann, .grp, .call, .imz, .recd]
  | .almPendingReceived _ _ => [.evr, .can, .ann, .grp, .call, .imz]
  | .almRetractReceived _ _ => [.evr, .can, .ann, .grp, .call, .imz]
  | .almFrameRelease => [.evr, .can, .imz]
  | .floodDigestSend => [.evr, .can]
  | .floodDigestReceived _ => [.evr, .can, .grp, .imz]
  | .floodEnd => [.evr, .can, .imz]
  | .callStepReceived _ => [.evr, .can]
  | .callAckReceived _ => [.evr, .can, .call, .lvn]
  | .pointStateSweep => [.evr, .can, .imz]
  | .pointStateReceived _ => [.evr, .can, .ann, .grp, .call, .imz]
  | .digestSend => [.evr, .can, .imz]
  | .digestReceived _ => [.can, .imz]
  | .cmdRegRead _ => [.sys, .evr, .hp, .can, .pev, .ann, .grp, .call, .imz, .tim, .lvn, .recd, .mmc, .pnl, .age]
  | .cmdRegWrite _ => [.now, .drawn, .sys, .fab, .sup, .rcp, .evr, .hp, .ui, .uiBlk, .ao, .aoBlk, .dio, .dioBlk, .ps,
    .psBlk, .can, .pev, .ann, .call, .imz, .tim, .lvn, .recd, .mmc, .pnl, .rnd, .age, .tst]
  | .cmdAlarm _ => [.evr, .can, .ann, .imz, .lvn]
  | .cmdPoint _ => [.evr, .can, .pev, .imz, .lvn]
  | .cmdDuty _ => [.evr, .can, .call, .imz, .lvn]
  | .cmdStateReq _ => [.evr, .can, .pev, .ann, .imz, .lvn]
  | .cmdTimeSet _ => [.now, .sys, .evr, .can, .pev, .call, .imz, .tim, .lvn, .recd, .mmc]
  | .cmdConflict _ => [.evr, .can, .imz]
  | .rspReceived _ => [.evr, .can, .imz]
  | .cmdRspTimeout _ => [.evr, .can, .imz]
  | .cmdTagExpiry _ _ => [.imz]
  | .rcpXferData _ _ _ => [.sys, .rcp, .imz]
  | .recXferDataReceived _ => [.can, .imz]
  | .recXferEndReceived _ => [.can, .imz]
  | .recXferSendPace => [.evr, .can, .imz]
  | .memberLost _ => [.evr, .imz]
  | .mgrLost => [.evr, .imz]
  | .syncInPulse _ => [.now, .drawn, .sys, .evr, .pev, .call, .tim, .recd, .mmc]
  | .syncInLoss => [.evr, .tim]
  | .syncOutPulse => [.sys]
  | .timSet _ => [.now, .sys, .evr, .pev, .call, .tim, .recd, .mmc]
  | .timSetAtPulse _ => [.now, .sys, .evr, .pev, .call, .tim, .recd, .mmc]
  | .lvnLinkTrained _ => [.evr, .lvn]
  | .lvnLaneDown _ => [.evr, .lvn]
  | .lvnLaneRetrain _ _ => [.evr, .lvn]
  | .lvHeartbeatSend => [.lvn]
  | .lvHeartbeatReceived _ _ _ => [.now, .drawn, .sys, .evr, .ui, .ao, .dio, .dioBlk, .pev, .call, .tim, .lvn, .recd,
    .mmc]
  | .lvHelloSend => [.lvn]
  | .lvHelloReceived _ _ => [.lvn]
  | .roleNegotiation => [.sys, .evr, .ui, .imz, .tim, .lvn]
  | .peerWaitExpiry => [.sys, .evr, .ui, .can, .imz, .tim, .lvn]
  | .epochBoundary _ _ => [.drawn, .rcp, .evr, .pev, .lvn]
  | .lvEpochOpenReceived _ _ _ _ => [.lvn]
  | .lvDeltaReceived _ _ _ => [.lvn]
  | .lvCommitReceived _ _ _ _ _ _ => [.rcp, .evr, .ui, .ao, .dio, .ps, .pev, .ann, .grp, .call, .imz, .lvn, .mmc,
    .age]
  | .lvCmdFwdReceived _ _ => [.lvn]
  | .lvFaultReceived _ _ _ => [.sys, .rcp, .evr, .ui, .ao, .dio, .dioBlk, .can, .pev, .imz, .lvn, .recd]
  | .lvPresInFall => [.sys, .lvn]
  | .presCheckExpiry _ _ => [.sys, .rcp, .evr, .ui, .ao, .dio, .dioBlk, .can, .pev, .imz, .lvn, .recd]
  | .lvHeartbeatLoss _ _ => [.sys, .rcp, .evr, .ui, .ao, .dio, .dioBlk, .can, .pev, .imz, .lvn, .recd]
  | .aoHeldRecheck _ _ _ => [.evr, .ao]
  | .splitCheckExpiry => [.sys, .evr, .ui, .ao, .lvn]
  | .splitPartnerLoss => [.sys, .evr, .ui, .lvn]
  | .revertHoldExpiry => [.lvn]
  | .lvnHandover _ => [.sys, .lvn]
  | .lvRevertReqReceived _ _ => [.lvn]
  | .lvRevertPlanReceived _ _ => [.evr, .ao, .dio, .dioBlk, .lvn]
  | .revertFreeze => [.ao, .dio, .dioBlk, .lvn]
  | .revertAckDeadline => [.evr, .ao, .dio, .dioBlk, .lvn]
  | .revertSwitch _ _ => [.sys, .evr, .ao, .dio, .dioBlk, .lvn]
  | .lvConfirmReceived _ _ _ => [.lvn]
  | .lvRevertFailReceived _ => [.evr, .ao, .lvn]
  | .revertRelease => [.evr, .ui, .ao, .dio, .dioBlk, .lvn]
  | .revertEnd => [.sys, .evr, .ui, .ao, .dio, .dioBlk, .pev, .ann, .call, .lvn, .recd]
  | .lvImageReceived _ _ => [.rcp, .lvn]
  | .partnerUpdateDone _ => [.sys, .fab, .sup, .rcp, .evr, .hp, .ui, .uiBlk, .ao, .aoBlk, .dio, .dioBlk, .ps, .psBlk,
    .can, .pev, .ann, .grp, .call, .imz, .tim, .lvn, .recd, .mmc, .pnl, .rnd, .age, .tst]
  | .lvnStop _ _ => [.sys, .evr, .lvn]
  | .lvnLoopTest _ _ => [.sys, .lvn]
  | .lvnLoopDone _ => [.lvn]
  | .sliceClose _ => [.evr, .pev, .recd, .mmc]
  | .recEntry _ => [.evr, .ann, .recd, .mmc]
  | .sliceFlushExpiry => [.recd, .mmc]
  | .ringFlushExpiry => [.recd, .mmc]
  | .recFlush => [.recd, .mmc]
  | .pageCommitDone => [.recd, .mmc]
  | .recCommitTimeout => [.mmc]
  | .checkpointTimer => [.recd, .mmc]
  | .recRecovery => [.drawn, .evr, .ao, .dio, .recd, .mmc]
  | .recRecoveryDone => [.evr, .recd, .mmc]
  | .recFormat _ _ => [.drawn, .sys, .evr, .ao, .dio, .recd, .mmc]
  | .recStop _ => [.recd, .mmc]
  | .recReadSeq _ => [.recd]
  | .recFindTime _ => [.recd]
  | .recReadNext _ => [.recd]
  | .recReadOpen _ => [.recd]
  | .recReadDone _ => [.drawn, .evr, .recd]
  | .mmcCommandFail _ _ _ _ => [.evr, .recd, .mmc]
  | .mmcReinitTimer _ => [.drawn, .evr, .ao, .dio, .recd, .mmc, .age]
  | .pnlUpdateRequest _ _ _ _ => [.sys, .pnl]
  | .pnlRailsReady => [.drawn, .sys, .evr, .pnl]
  | .pnlRailIdle => [.sys, .evr, .pnl]
  | .pnlRailFault => [.sys, .evr, .pnl]
  | .pnlRailRetry => [.sys, .pnl]
  | .pnlRailFaultRetry => [.sys, .pnl]
  | .pnlRetry => [.sys, .pnl]
  | .pnlRefresh => [.drawn, .sys, .pnl]
  | .pnlTempSample _ => [.evr, .pnl]
  | .pnlVcomChange => [.pnl]
  | .pnlFrameBoundary _ => [.evr, .pnl]
  | .fbApertureWrite _ _ _ => [.sys, .pnl]
  | .rndRedraw => [.drawn, .sys, .pnl, .rnd]
  | .rndPageSelect _ _ _ => [.sys, .evr, .rnd]
  | .rndKeyUp => [.evr, .can, .ann, .call, .imz, .lvn, .rnd]
  | .rndKeyDown => [.evr, .can, .ann, .call, .imz, .lvn, .rnd]
  | .rndKeyPage => [.evr, .can, .ann, .call, .imz, .lvn, .rnd]
  | .rndKeySelect => [.evr, .can, .ann, .call, .imz, .lvn, .rnd]
  | .rndKeyAck => [.evr, .can, .ann, .call, .imz, .lvn, .rnd]
  | .rndKeyAckPage => [.evr, .can, .ann, .call, .imz, .lvn, .rnd]
  | .rndKeySilence => [.evr, .can, .ann, .call, .imz, .lvn, .rnd]
  | .rndKeyAckCall _ => [.evr, .can, .ann, .call, .imz, .lvn, .rnd]
  | .rndKeyDuty _ => [.evr, .can, .ann, .call, .imz, .lvn, .rnd]
  | .rndKeyBad _ => [.evr, .can, .ann, .call, .imz, .lvn, .rnd]
  | .hostRead _ _ _ => [.now, .drawn, .sys, .fab, .sup, .rcp, .evr, .hp, .ui, .uiBlk, .ao, .aoBlk, .dio, .dioBlk, .ps,
    .psBlk, .can, .pev, .ann, .grp, .call, .imz, .tim, .lvn, .recd, .mmc, .pnl, .rnd, .age, .tst]
  | .hostWrite _ _ _ => [.now, .drawn, .sys, .fab, .sup, .rcp, .evr, .hp, .ui, .uiBlk, .ao, .aoBlk, .dio, .dioBlk,
    .ps, .psBlk, .can, .pev, .ann, .grp, .call, .imz, .tim, .lvn, .recd, .mmc, .pnl, .rnd, .age, .tst]
  | .hostWriteApply _ => [.now, .drawn, .sys, .fab, .sup, .rcp, .evr, .hp, .ui, .uiBlk, .ao, .aoBlk, .dio, .dioBlk,
    .ps, .psBlk, .can, .pev, .ann, .call, .imz, .tim, .lvn, .recd, .mmc, .pnl, .rnd, .age, .tst]
  | .hostSleepChange _ _ => [.sys, .hp]
  | .hostIdleDoorbell _ _ => [.sys, .hp]
  | .hostDoorbell _ _ => [.evr]
  | .evrRecordWrite _ => [.sys, .evr]
  | .evrClaim _ => [.sys, .evr, .hp]
  | .evrEoi _ => [.evr]
  | .evrEnSet _ _ _ => [.sys, .evr]
  | .evrEnClr _ _ => [.evr]
  | .evrPndSet _ _ => [.evr]
  | .evrPndClr _ _ => [.evr]
  | .evrTargetChange _ _ => [.drawn, .sys, .evr]
  | .evrHoldWrite _ => [.evr]
  | .evrHoldoffExpiry _ => [.sys]
  | .ageRefCheck _ _ _ => [.drawn, .sup, .evr, .ui, .dio, .tim, .mmc, .age]
  | .ageAoGain _ _ _ => [.drawn, .sup, .evr, .ui, .dio, .tim, .mmc, .age]
  | .ageDioSwitch _ _ => [.drawn, .sup, .evr, .ui, .dio, .tim, .mmc, .age]
  | .ageTcxoSample => [.drawn, .sup, .evr, .ui, .dio, .tim, .mmc, .age]
  | .ageHoldTest _ _ _ _ => [.drawn, .sup, .evr, .ui, .dio, .tim, .mmc, .age]
  | .ageEmmcWear _ _ _ => [.drawn, .sup, .evr, .ui, .dio, .tim, .mmc, .age]
  | .ageBarrierTest _ _ => [.drawn, .sup, .evr, .ui, .dio, .tim, .mmc, .age]
  | .ageLedgerPage _ => [.evr, .mmc, .age]
  | .ageLedgerScanDone => [.drawn, .evr, .ui, .dio, .age]
  | .ageAckDue _ _ => [.sys, .age]
  | .ageRebase _ _ => [.sys, .evr, .age]
  | .ageTestHold _ _ _ _ => [.drawn, .sup, .evr, .ui, .dio, .tim, .mmc, .age]
  | .ageMeasure _ => [.drawn, .sup, .evr, .ui, .dio, .tim, .mmc, .age]
  | .ageCmdBadOp _ => [.sys]
  | .periodicLoopback _ _ _ _ => [.drawn, .sys, .fab, .rcp, .evr, .ui, .uiBlk, .ao, .aoBlk, .dio, .dioBlk, .ps,
    .psBlk, .can, .pev, .ann, .call, .imz, .tim, .lvn, .mmc, .pnl, .rnd]
  | .dioFieldLoopback _ _ => [.evr, .tst]
  | .fieldLoopbackDone _ _ => [.evr, .tst]
  | .jtagInstruction _ _ => [.drawn, .sys, .rcp, .evr, .ui, .ao, .dio, .dioBlk, .can, .pev, .imz, .lvn, .pnl, .tst]
  | .registerWrite _ _ _ => [.now, .drawn, .sys, .fab, .sup, .rcp, .evr, .hp, .ui, .uiBlk, .ao, .aoBlk, .dio, .dioBlk,
    .ps, .psBlk, .can, .pev, .ann, .call, .imz, .tim, .lvn, .recd, .mmc, .pnl, .rnd, .age, .tst]
  | .readClear _ => [.sys, .evr, .hp, .can, .pev, .ann, .grp, .call, .imz, .tim, .lvn, .recd, .mmc, .pnl, .age]
  | .timeLoRead _ => [.sys, .evr, .hp, .can, .pev, .ann, .grp, .call, .imz, .tim, .lvn, .recd, .mmc, .pnl, .age]
  | .networkTimeWaitExpiry => [.sys, .evr, .tim, .lvn]
  | .aoIslandPowered _ => [.evr, .ao]
  | .dioDiagClear _ _ => [.evr, .dio]
  | .psPulseRejected _ => [.evr, .ps]
  | .floodStateReqPace => [.evr, .can, .imz]
  | .lvPresInRise => [.sys, .lvn]
  | .lvImageSend => [.lvn]
  | .recipeSectionReloadDone _ => [.sys, .rcp]

end Sys2Proof.Machine
end

