-- ==== Sys2Proof/Certificates/Slice0/Obligations.lean ====
section
/-! DEFINITION. Obligations: the statements about the block that are to be proved. -/

open Sys2Proof Sys2Proof.Machine

/-- The feed rows where no event of the feed's quantity is held off (R59, R60, R61, R66, R79). -/
def Obligations.FeedConditionsAreReported : Prop :=
  ∀ (s : State) (f : Fin 2) (v hold : Half), s.powered = true → s.sup.holdoff[quantityIndex (feedQuantity f)].running = false →
    (v.toNat < 1800 → (s.sup.feeds[f].cond = .inRange ∨ s.sup.feeds[f].cond = .high) →
      Runs (.feedLow f v) s fun t => t.sup.feeds[f] = { s.sup.feeds[f] with cond := .low, volt := v } ∧
        t.sup.feeds[1 - f] = s.sup.feeds[1 - f] ∧ t.sup.pfail = s.sup.pfail ∧
        Raised 52 (supplyWord (16 * f.val + 1) v) s t) ∧
    (v.toNat < 1500 → s.sup.feeds[f].cond ≠ .lost → s.sup.feeds[1 - f].cond ≠ .lost →
      Runs (.feedLost f v hold) s fun t => t.sup.feeds[f] = { s.sup.feeds[f] with cond := .lost, volt := v, rev := false } ∧
        t.sup.feeds[1 - f] = s.sup.feeds[1 - f] ∧ t.sup.pfail = s.sup.pfail ∧
        Raised 52 (supplyWord (16 * f.val + 2) v) s t) ∧
    (v.toNat < 1500 → s.sup.feeds[f].cond ≠ .lost → s.sup.feeds[1 - f].cond = .lost → s.sup.pfail = false →
      Runs (.feedLost f v hold) s fun t => t.sup.feeds[f].cond = .lost ∧ t.sup.pfail = true ∧ t.sup.pfTime = s.stamp ∧
        t.sup.pfVolt[f] = s.sup.feeds[f].before ∧ t.sup.pfVolt[1 - f] = s.sup.feeds[1 - f].before ∧ t.imz.pfHb = true ∧
        t.evr.srcs[52].payload = supplyWord 0x20 hold) ∧
    (1650 < v.toNat → s.sup.feeds[f].cond = .lost → s.sup.pfail = false →
      Runs (.feedLostEnd f v hold) s fun t => t.sup.feeds[f] =
          { s.sup.feeds[f] with cond := if v.toNat < 1800 then .low else .inRange, volt := v, rev := false } ∧
        t.sup.feeds[1 - f] = s.sup.feeds[1 - f] ∧
        Raised 52 (supplyWord (16 * f.val + if v.toNat < 1800 then 1 else 4) v) s t) ∧
    (1650 < v.toNat → s.sup.feeds[f].cond = .lost → s.sup.pfail = true → s.sys.mode ≠ .lastBreath →
      Runs (.feedLostEnd f v hold) s fun t => t.sup.feeds[f].cond ≠ .lost ∧ t.sup.pfail = false ∧ t.imz.pfHb = false ∧
        t.sys = s.sys ∧ t.evr.srcs[52].payload = supplyWord 0x21 hold) ∧
    (3250 < v.toNat → (s.sup.feeds[f].cond = .inRange ∨ s.sup.feeds[f].cond = .low) →
      Runs (.feedHigh f v) s fun t => t.sup.feeds[f] = { s.sup.feeds[f] with cond := .high, volt := v } ∧
        t.sup.feeds[1 - f] = s.sup.feeds[1 - f] ∧ Raised 52 (supplyWord (16 * f.val + 3) v) s t) ∧
    ((s.sup.feeds[f].cond = .low ∧ 1850 < v.toNat) ∨ (s.sup.feeds[f].cond = .high ∧ v.toNat < 3200) →
      Runs (.feedInRange f v) s fun t => t.sup.feeds[f] = { s.sup.feeds[f] with cond := .inRange, volt := v } ∧
        t.sup.feeds[1 - f] = s.sup.feeds[1 - f] ∧ Raised 52 (supplyWord (16 * f.val + 4) v) s t) ∧
    (s.sup.feeds[f].cond ≠ .lost → s.sup.feeds[1 - f].cond ≠ .lost →
      Runs (.feedReversed f hold) s fun t => t.sup.feeds[f] = { s.sup.feeds[f] with cond := .lost, volt := 0, rev := true } ∧
        t.sup.feeds[1 - f] = s.sup.feeds[1 - f] ∧ Raised 52 (supplyWord (16 * f.val + 2) 0) s t) ∧
    Runs (.feedDisconnect f) s (fun t => Only [.sup] s t ∧ t.sup.feeds[f] = { s.sup.feeds[f] with isOpen := true } ∧
      t.sup.feeds[1 - f] = s.sup.feeds[1 - f]) ∧
    Runs (.feedReconnect f) s (fun t => Only [.sup] s t ∧ t.sup.feeds[f] = { s.sup.feeds[f] with isOpen := false } ∧
      t.sup.feeds[1 - f] = s.sup.feeds[1 - f])

/-- The hold-up, clock, temperature and hold-off rows (R34, R64, R70, R71, R78, R79). -/
def Obligations.SupplyMonitorFollowsTheHoldUpAndTheClocks : Prop :=
  ∀ (s : State), s.powered = true →
    (∀ v : Half, s.sup.charging = true →
      (s.bare = true → Runs (.holdAbsent v) s fun t => t.sup.hold = .absent ∧ t.sup.charging = false ∧
        t.sup.diodeOpen = false ∧ t.sup.absentHeld = false ∧ Raised 52 (supplyWord 0x30 0) s t) ∧
      (s.bare = false → s.rcp.loaded = true → s.identFlag 3 = true → Runs (.holdAbsent v) s fun t =>
        t.sup.hold = .absent ∧ t.sup.charging = false ∧ t.sup.absentHeld = false ∧ t.evr = s.evr) ∧
      (s.bare = false → s.rcp.loaded = true → s.identFlag 3 = false → Runs (.holdAbsent v) s fun t =>
        t.sup.hold = .absent ∧ t.sup.absentHeld = false ∧ Raised 52 (supplyWord 0x30 0) s t) ∧
      (s.bare = false → s.rcp.loaded = false → Runs (.holdAbsent v) s fun t =>
        t.sup.hold = .absent ∧ t.sup.absentHeld = true ∧ t.evr = s.evr) ∧
      Runs (.holdOk v) s (fun t => t.sup.hold = .ok ∧ t.sup.charging = false ∧ t.sup.diodeOpen = false ∧
        t.sup.holdVolt = v ∧ t.evr = s.evr) ∧
      Runs (.holdFault v) s (fun t => t.sup.hold = .fault ∧ t.sup.charging = false ∧ t.sup.diodeOpen = true ∧
        Raised 52 (supplyWord 0x31 v) s t)) ∧
    (s.sup.hold = .fault → s.sup.charging = false →
      Runs .holdChargeRetry s fun t => t.sup = { s.sup with charging := true }) ∧
    Runs .xtalHandover s (fun t => t.sys = { s.sys with onRc := false }) ∧
    (∀ diff a b : Int, s.sys.onRc = false → s.sys.xtalFail = false →
      (diff.natAbs ≤ 32767 → Runs (.clockCheck diff a b) s fun t =>
        t.sys = { s.sys with tcxoOfs := diff } ∧ t.evr = s.evr ∧ t.sup = s.sup) ∧
      (50000 < diff.natAbs → s.tim.st ≠ .locked → Runs (.clockCheck diff a b) s fun t =>
        t.sys.mismatch = true ∧ t.sys.xtalFail = true ∧ t.evr.srcs[52].payload = supplyWord 0x51 0 ∧
        t.sys.mode = s.sys.mode)) ∧
    (∀ plate die : Half, s.sup.temp = .normal → s.sup.plateOver = false → s.sup.dieOver = false →
      (-400 < plate.toInt → plate.toInt < 1050 → die.toInt < 1400 → Runs (.tempMeasure plate die) s fun t =>
        t.sup = { s.sup with plate := plate.toInt, die := die.toInt } ∧ t.sys = s.sys ∧ t.evr = s.evr) ∧
      (1050 ≤ plate.toInt → plate.toInt < 1100 → die.toInt < 1400 → s.sup.holdoff[2].running = false →
        Runs (.tempMeasure plate die) s fun t => t.sup.temp = .high ∧ t.sys = s.sys ∧
          Raised 52 (supplyWord 0x40 plate) s t) ∧
      (1200 ≤ plate.toInt → Runs (.tempMeasure plate die) s fun t => t.sup.temp = .over110 ∧ t.sys.fltLatched = true)) ∧
    (∀ (q : Quantity) (v : Half), s.sup.holdoff[quantityIndex q].running = true →
      (quantityCode s q = s.sup.holdoff[quantityIndex q].last → Runs (.supplyEventHoldoff q v) s fun t =>
        t.sup.holdoff[quantityIndex q].running = false ∧ t.evr = s.evr) ∧
      (quantityUnused s q = true → Runs (.supplyEventHoldoff q v) s fun t =>
        t.sup.holdoff[quantityIndex q].running = false ∧ t.evr = s.evr) ∧
      (quantityCode s q ≠ s.sup.holdoff[quantityIndex q].last → quantityUnused s q = false → Runs (.supplyEventHoldoff q v) s fun t =>
        t.sup.holdoff[quantityIndex q] = { running := true, last := quantityCode s q } ∧
        Raised 52 (supplyWord (quantityCode s q) v) s t))

/-- The rows that begin and end a run (R30, R33, R58, R62, R80, R502). -/
def Obligations.StartsAndEndsOfARun : Prop :=
  ∀ (s : State),
    (s.sup.powerGood = false → s.sys.inp.resetn = true → Runs (.powerGood false) s fun t =>
      t.powered = true ∧ t.sys.step = 2 ∧ t.sys.mode = .starting ∧ t.sys.power = .start ∧ t.sys.pllLock = true ∧
      t.sys.roleB = s.sys.inp.role ∧ t.sys.pins.presOut = true ∧ t.sup.charging = true ∧ t.evr = {} ∧ t.hp = Vector.replicate 2 {} ∧
      t.ao = Vector.replicate 4 {} ∧ t.dio = Vector.replicate 16 {} ∧ t.pev = {} ∧ t.mmc.user = s.mmc.user ∧
      t.pending = s.pending) ∧
    (s.sup.powerGood = false → Runs (.powerGood true) s fun t =>
      t.sys.testHold = true ∧ t.powered = false ∧ t.sys.step = 1 ∧ t.sup.powerGood = true) ∧
    (s.sup.powerGood = true → Runs .powerGoodLoss s fun t =>
      t.powered = false ∧ t.sup = {} ∧ t.evr = {} ∧ t.ui = Vector.replicate 16 {} ∧ t.ao = Vector.replicate 4 {} ∧
      t.dio = Vector.replicate 16 {} ∧ t.sys.pins = {} ∧ t.now = 0) ∧
    (s.sys.inp.resetn = true → jtagHolds s = false → Runs .resetnLow s fun t =>
      t.powered = false ∧ t.sup = { powerGood := s.sup.powerGood } ∧ t.evr = {} ∧ t.ao = Vector.replicate 4 {} ∧
      t.dio = Vector.replicate 16 {} ∧ t.sys.pins = {} ∧ t.sys.fltLast = s.sys.fltLast ∧ t.now = s.now) ∧
    (s.sys.inp.resetn = true → jtagHolds s = true → Runs .resetnLow s fun t =>
      t.sys = { s.sys with inp := { s.sys.inp with resetn := false } } ∧ Only [.sys] s t) ∧
    (s.sys.inp.resetn = false → jtagHolds s = false → s.sup.powerGood = true → s.sys.testHold = false →
      Runs .resetnRise s fun t => t.powered = true ∧ t.sys.step = 2 ∧ t.sys.mode = .starting ∧ t.evr = {} ∧
        t.sys.roleB = s.sys.inp.role ∧ t.sys.fltLast = s.sys.fltLast) ∧
    (∀ b : Bool, b ≠ s.sys.inp.role → s.powered = true → Runs (.roleChange b) s fun t =>
      t.sys.roleB = s.sys.roleB ∧ t.sys.inp.role = b ∧
      t.sys.werr = { reason := 3, src := 3, addr := 0, cnt := satInc 255 s.sys.werr.cnt } ∧ Only [.sys] s t) ∧
    (s.powered = true → s.sys.mode = .safe → s.identFlag 0 = true → jtagTakes s.tst.jtag = false →
      ((recent (sec 3600) s.mono s.sys.restarts).length < 3 → Runs .safeStateRestart s fun t =>
        t.sys.step = 2 ∧ t.sys.mode = .starting ∧ t.sys.fltLatched = false ∧
        t.sys.restarts = s.mono :: recent (sec 3600) s.mono s.sys.restarts) ∧
      (3 ≤ (recent (sec 3600) s.mono s.sys.restarts).length → Runs .safeStateRestart s fun t => t = s))

/-- LAST_BREATH and LAST_BREATH_RESTART (R67, R68, R73). -/
def Obligations.LastBreathEndsInSleepAndRestarts : Prop :=
  (∀ (s : State) (hold : Half) (d : Bool), s.powered = true → s.sup.pfail = true → hold.toNat < 1300 →
    s.sys.mode ≠ .lastBreath → Runs (.lastBreath hold d) s fun t =>
      t.sys.mode = .lastBreath ∧ t.sys.power = .lastBreath ∧ t.sys.pins.faultLow = true ∧ t.sys.pins.mmcPwr = false ∧
      t.sys.pins.presOut = false ∧ t.sys.outEn = false ∧ t.sup.breathStep = 7 ∧ t.pev.running = false ∧
      ∀ c : Fin 16, t.ui[c].excOn = false ∧ t.ui[c].txsOn = false) ∧
  (∀ (s : State), s.powered = true → s.sys.mode = .lastBreath → s.sup.breathFeed = true →
    Runs .lastBreathRestart s fun t => t.sys.step = 2 ∧ t.sys.mode = .starting ∧ t.powered = true ∧ t.evr = {} ∧
      t.mmc.user = s.mmc.user)

/-- The rows of DOZE and DORMANT (R73 to R77). -/
def Obligations.DozeAndDormantPowerTheRegions : Prop :=
  ∀ (s : State) (src : Source),
    (s.sys.power = .run → s.sys.mode = .inService → Runs (.dozeEnable src true) s fun t =>
      t.sys = { s.sys with dozeEn := true, power := .doze } ∧ Only [.sys] s t) ∧
    (s.sys.power = .doze → Runs (.dozeEnable src false) s fun t => t.sys.power = .run ∧ t.sys.dozeEn = false ∧
      t.sys.regions[rKEP].dozing = false ∧ t.sys.regions[rFCE].dozing = false ∧ Only [.sys] s t) ∧
    (s.sys.power = .doze → regionUp rKEP s = true → kepBusy s = false → Runs (.dozePowerDown false) s fun t =>
      t.sys.regions[rKEP].st = .down ∧ t.sys.regions[rKEP].dozing = true ∧ t.sys.regions[rACQ] = s.sys.regions[rACQ] ∧
      t.mmc.user = s.mmc.user) ∧
    (s.sys.power = .doze → regionUp rFCE s = true → fceBusy s = false → Runs (.dozePowerDown true) s fun t =>
      t.sys.regions[rFCE].st = .down ∧ t.sys.regions[rFCE].dozing = true ∧ t.sys.regions[rACQ] = s.sys.regions[rACQ]) ∧
    (∀ b : Bool, s.sys.power = .doze → (s.sys.regions[if b then rFCE else rKEP]).dozing = true →
      (s.sys.regions[if b then rFCE else rKEP]).hold = false → Runs (.dozePowerUp b) s fun t =>
        (t.sys.regions[if b then rFCE else rKEP]).st = .init ∧ (t.sys.regions[if b then rFCE else rKEP]).dozing = false ∧
        Only [.sys] s t) ∧
    (s.sys.mode = .inService → s.sys.power = .run →
      (s.identFlag 1 = false → Runs (.dormantRequest src) s fun t =>
        t.sys = { s.sys with lastReq := 1, dormantReq := false }) ∧
      (s.identFlag 1 = true → s.isManager = true → Runs (.dormantRequest src) s fun t =>
        t.sys = { s.sys with lastReq := 2, dormantReq := false }) ∧
      (s.identFlag 1 = true → s.isManager = false → s.isPaired = true → s.activeUnit = true →
        Runs (.dormantRequest src) s fun t => t.sys = { s.sys with lastReq := 3, dormantReq := false }) ∧
      (s.identFlag 1 = true → s.isManager = false → s.isPaired = false → alarmHeld s = true →
        Runs (.dormantRequest src) s fun t => t.sys = { s.sys with lastReq := 4, dormantReq := false }) ∧
      (s.identFlag 1 = true → s.isManager = false → s.isPaired = false → alarmHeld s = false →
        Runs (.dormantRequest src) s fun t => t.sys = { s.sys with lastReq := 0, dormantReq := true })) ∧
    (s.sys.dormantReq = true → s.sys.mode = .inService → Runs .dormantEntry s fun t =>
      t.sys.power = .dormant ∧ t.sys.dormantReq = false ∧ t.sys.pllLock = false ∧ t.sys.pins.presOut = false) ∧
    (s.sys.power = .dormant → Runs (.wakeCommand src) s fun t =>
      t.sys.power = .start ∧ t.sys.mode = .starting ∧ t.sys.step = 7 ∧ t.sys.wakeSrc = 0x3FE ∧ t.sys.pllLock = true ∧
      t.sys.outEn = false) ∧
    (∀ n : BitVec 9, s.sys.power = .dormant →
      (watchable n.toNat = true → watched s n.toNat = true → Runs (.dormantWake (some n)) s fun t =>
        t.sys.power = .start ∧ t.sys.step = 7 ∧ t.sys.wakeSrc = n.toNat ∧ t.sys.pllLock = true) ∧
      (watched s n.toNat = false → Runs (.dormantWake (some n)) s fun t => t = s) ∧
      Runs (.dormantWake none) s (fun t => t.sys.power = .start ∧ t.sys.step = 7 ∧ t.sys.wakeSrc = 0x3FE))

/-- The start's rows on the eMMC and the recipes (R80, R82, R83, R89 to R91). -/
def Obligations.StartReadsTheRecipes : Prop :=
  ∀ (s : State),
    (mmcAwaited s = true →
      (∀ info : MmcInfo, 17 ≤ info.bootMult.toNat →
        (s.rcp.mmcFails = 0 → Runs (.emmcInit true info) s fun t => t.sys.step = 3 ∧ t.sys.mode = .starting ∧
          t.mmc.bus4 = info.bus4 ∧ t.mmc.cap = info.cap.toNat ∧ t.sys.pins.mmcPwr = true) ∧
        (0 < s.rcp.mmcFails → Runs (.emmcInitRetry true info) s fun t => t.sys.step = 3 ∧ t.sys.mode = .starting ∧
          t.mmc.bus4 = info.bus4 ∧ t.mmc.cap = info.cap.toNat ∧ t.sys.pins.mmcPwr = true)) ∧
      (∀ info : MmcInfo, s.rcp.mmcFails = 0 → Runs (.emmcInit false info) s fun t =>
        t.sys.mode = .starting ∧ t.sys.step = 2 ∧ t.rcp.mmcFails = 1 ∧ t.sys.pins.mmcPwr = false) ∧
      (∀ info : MmcInfo, 2 ≤ s.rcp.mmcFails → Runs (.emmcInitRetry false info) s fun t =>
        t.sys.mode = .bare ∧ t.sys.bareCause = 2)) ∧
    (s.powered = true → s.sys.mode = .starting → s.sys.step = 3 →
      Runs (.bootHeadersRead false) s (fun t => t.sys.mode = .bare ∧ t.sys.bareCause = 3) ∧
      (∀ h : s.rcp.recipes.toList.all (fun r => !(headerTake r).candidate) = true,
        Runs (.bootHeadersRead true) s fun t => t.sys.mode = .bare ∧ t.sys.bareCause = 1) ∧
      ((headerTake s.rcp.recipes[0]).candidate = true → (headerTake s.rcp.recipes[1]).candidate = false →
        Runs (.bootHeadersRead true) s fun t => t.sys.mode = .starting ∧ t.sys.step = 5 ∧ t.rcp.active = 0 ∧
          (t.rcp.recipes[0]).st = .active)) ∧
    (s.powered = true → s.sys.mode = .starting → s.sys.step = 5 →
      Runs (.activeImageLoaded false) s (fun t => t.sys.mode = .bare ∧ t.sys.bareCause = 3) ∧
      (imageErr s.rcp.recipes[s.rcp.active].part = none → Runs (.activeImageLoaded true) s fun t =>
        t.sys.step = 7 ∧ t.sys.mode = .starting ∧ t.rcp.loaded = true ∧ t.pev.running = true ∧ t.rcp.active = s.rcp.active ∧
        t.activeBank = memWindow s.rcp.recipes[s.rcp.active].part 0 (imgLength s.rcp.recipes[s.rcp.active].part)) ∧
      (imageErr s.rcp.recipes[s.rcp.active].part ≠ none → (s.rcp.recipes[1 - s.rcp.active]).candidate = false →
        Runs (.activeImageLoaded true) s fun t => t.sys.mode = .bare ∧ t.sys.bareCause = 1 ∧
          (t.rcp.recipes[s.rcp.active]).st = .invalid)) ∧
    (s.rcp.loaded = true → (s.rcp.recipes[1 - s.rcp.active]).st = .verifying → s.rcp.verifying = false →
      (imageErr s.rcp.recipes[1 - s.rcp.active].part ≠ none → hasHeader s.rcp.recipes[1 - s.rcp.active].part = true →
        Runs (.shadowLoaded true) s fun t => (t.rcp.recipes[1 - s.rcp.active]).st = .invalid ∧ t.activeBank = s.activeBank ∧
          Only [.rcp] s t) ∧
      (imageErr s.rcp.recipes[1 - s.rcp.active].part = none → hasHeader s.rcp.recipes[1 - s.rcp.active].part = true →
        Runs (.shadowLoaded true) s fun t =>
          (t.rcp.recipes[1 - s.rcp.active]).st = shadowState s.activeBank s.rcp.recipes[1 - s.rcp.active].part ∧
          t.activeBank = s.activeBank ∧ Only [.rcp] s t))

/-- The rows of BARE, of the boot-config record and of a partner's update (R85, R91, R92, R102, R380). -/
def Obligations.BareSearchesAndClaims : Prop :=
  ∀ (s : State),
    (s.bare = true → s.rcp.bareFound = false →
      Runs .bareRateSearchStep s (fun t => t.rcp.bareCombo = (s.rcp.bareCombo + 1) % 16 ∧ t.rcp.bareFound = false ∧
        t.sys.mode = .bare) ∧
      Runs .bareAddrClaim s (fun t => t = s)) ∧
    (∀ f : OutFrame, f = { id := frameId 7 0x71 3 bareSource, data := bytesLE 8 Config.serial.toNat ++ [0, 0, 0, 0, 1, 0, 0, 0] } →
      s.bare = true → s.rcp.bareFound = true → Runs .bareAddrClaim s fun t => t = canSubmit 1 f (canSubmit 0 f s)) ∧
    (s.rcp.cfgPend = true →
      (s.rcp.cfgFailed = false → Runs (.bootConfigWritten true) s (fun t => t.rcp.cfgPend = false ∧ Only [.rcp] s t) ∧
        Runs (.bootConfigWritten false) s (fun t => t.rcp.cfgPend = true ∧ t.rcp.cfgFailed = true)) ∧
      (s.rcp.cfgFailed = true → Runs (.bootConfigRetry true) s (fun t => t.rcp.cfgPend = false ∧
          t.rcp.cfgFailed = false ∧ Only [.rcp] s t) ∧
        Runs (.bootConfigRetry false) s (fun t => t.rcp.cfgPend = true ∧ t.rcp.cfgFailed = true))) ∧
    (s.powered = true → s.lvn.st = .updating → s.lvn.imageKind = 0 → (s.rcp.recipes[imageTarget s]).st = .writing →
      (imageErr s.rcp.recipes[imageTarget s].part = none → Runs (.partnerUpdateDone true) s fun t =>
        t.sys.step = 2 ∧ t.sys.mode = .starting ∧ t.lvn = {}) ∧
      Runs (.partnerUpdateDone false) s (fun t => (t.rcp.recipes[imageTarget s]).st = .invalid ∧ Only [.rcp] s t))

/-- The operations of `RCP_CMD`, by any source (R95 to R98, R343). -/
def Obligations.RecipeOperationsEndWithTheirCodes : Prop :=
  ∀ (s : State) (src : Source), rcpUp s = true → s.rcp.verifying = false →
    (noMedia s = false → s.standby = false → otherOwns src s = false → s.rcp.swapPend = false →
      Runs (.rcpOpen src true) s fun t => t.rcp.owner = some src ∧ t.rcp.resOp = 1 ∧ t.rcp.resCode = 0 ∧ t.rcp.written = [] ∧
        (t.rcp.recipes[imageTarget s]).st = .writing ∧ t.rcp.recipes[1 - imageTarget s] = s.rcp.recipes[1 - imageTarget s]) ∧
    (noMedia s = false → s.standby = false → otherOwns src s = true → Runs (.rcpOpen src true) s fun t =>
      t.rcp = { s.rcp with resOp := 1, resCode := 2, resDetail := 0 }) ∧
    (∀ n : Half, s.rcp.owner = some src → s.imz.chunks = BitVec.allOnes 128 → n.toNat ≤ 511 →
      Runs (.rcpWriteBlock src n true) s fun t => t.rcp.resOp = 2 ∧ t.rcp.resCode = 0 ∧ n.toNat ∈ t.rcp.written ∧
        t.rcp.owner = some src ∧ t.imz.chunks = 0 ∧
        (n.toNat = 0 → t.rcp.block0 = s.rcp.buf ∧ t.rcp.recipes = s.rcp.recipes) ∧
        (n.toNat ≠ 0 → (t.rcp.recipes[imageTarget s]).part =
          memCopyIn s.rcp.recipes[imageTarget s].part (4096 * n.toNat) 4096 s.rcp.buf)) ∧
    (∀ n : Half, s.rcp.owner = some src → 511 < n.toNat → Runs (.rcpWriteBlock src n true) s fun t =>
      t.rcp = { s.rcp with resOp := 2, resCode := 3, resDetail := n.toNat }) ∧
    (∀ n : Half, s.rcp.owner ≠ some src → Runs (.rcpWriteBlock src n true) s fun t =>
      t.rcp = { s.rcp with resOp := 2, resCode := 2, resDetail := 0 }) ∧
    (s.rcp.owner = some src → Runs (.rcpVerify src) s fun t => t.rcp.verifying = true ∧
      (t.rcp.recipes[imageTarget s]).st = .verifying ∧ t.rcp.resOp = s.rcp.resOp) ∧
    (s.rcp.owner = some src → (s.rcp.recipes[imageTarget s]).st = .writing → Runs (.rcpClose src) s fun t =>
      t.rcp.owner = none ∧ t.rcp.resOp = 4 ∧ t.rcp.resCode = 0 ∧ (t.rcp.recipes[imageTarget s]).st = .invalid) ∧
    (∀ same : Bool, swapRefusal same s = none → regionUp rALM s = true → Runs (.rcpSwap src 0x5C same) s fun t =>
      t.rcp.swapPend = true ∧ t.rcp.swapReq = s.now ∧ t.rcp.swapSrc = src ∧ t.rcp.active = s.rcp.active) ∧
    (∀ (same : Bool) (key : Byte), key ≠ 0x5C → Runs (.rcpSwap src key same) s fun t =>
      t.rcp.resOp = 5 ∧ t.rcp.resCode = 3 ∧ t.rcp.swapPend = s.rcp.swapPend) ∧
    (((shadow s).st = .valid ∨ (shadow s).st = .restartOnly) → s.bare = false → Runs (.rcpSetActive src 0x5C true) s fun t =>
      t.rcp.resOp = 6 ∧ t.rcp.resCode = 0 ∧ t.rcp.active = s.rcp.active) ∧
    (s.rcp.owner = none → s.rcp.swapPend = false → s.bare = false → hasHeader (shadow s).part = true →
      imageErr (shadow s).part = none → Runs (.rcpReloadShadow src true) s fun t =>
        t.rcp.resOp = 7 ∧ t.rcp.resCode = 0 ∧ (shadow t).st = shadowState s.activeBank (shadow s).part) ∧
    (∀ op : Byte, 8 ≤ op.toNat → Runs (.rcpBadOp src op) s fun t => t.rcp.resOp = op.toNat ∧
      t.rcp.resCode = (if otherOwns src s then 2 else 3) ∧ t.rcp.recipes = s.rcp.recipes ∧ t.rcp.owner = s.rcp.owner)

/-- The buffer and the ends of recipe operations (R40, R95, R97, R343). -/
def Obligations.RecipeBuffersAndChecksEnd : Prop :=
  ∀ (s : State),
    (∀ (src : Source) (w : BitVec 10) (v : Word), rcpUp s = true →
      (otherOwns src s = false → Runs (.rcpBufWrite src w v) s fun t =>
        t.rcp = { s.rcp with buf := memFill s.rcp.buf (4 * w.toNat) (bytesLE 4 v.toNat) } ∧ Only [.rcp] s t) ∧
      (otherOwns src s = true → Runs (.rcpBufWrite src w v) s fun t => t.sys.werr.reason = 5 ∧
        t.sys.werr.addr = 0x085000 + 4 * w.toNat ∧ Only [.sys] s t)) ∧
    (∀ (n : Half) (c : BitVec 7) (b : List Byte), rcpUp s = true → b.length = 32 →
      (otherOwns (.imzin n) s = false → Runs (.rcpXferData n c b) s fun t =>
        t.rcp = { s.rcp with buf := memFill s.rcp.buf (32 * c.toNat) b } ∧
        t.imz.chunks = s.imz.chunks ||| BitVec.ofNat 128 (2 ^ c.toNat)) ∧
      (otherOwns (.imzin n) s = true → Runs (.rcpXferData n c b) s fun t => t.sys.werr.reason = 5 ∧ Only [.sys] s t)) ∧
    (rcpUp s = true → s.rcp.verifying = true →
      (∀ p : PartnerAnswer, verifyErr s = none → s.bare = false → s.isPaired = false →
        Runs (.rcpVerifyDone none p) s fun t => t.rcp.verifying = false ∧ t.rcp.owner = none ∧ t.rcp.resOp = 3 ∧
          t.rcp.resCode = 0 ∧ (t.rcp.recipes[1 - s.rcp.active]).part = verifyImage s ∧
          (t.rcp.recipes[1 - s.rcp.active]).bank = memWindow (verifyImage s) 0 (imgLength (verifyImage s)) ∧
          t.rcp.recipes[s.rcp.active] = s.rcp.recipes[s.rcp.active]) ∧
      (∀ (f : Option Half) (p : PartnerAnswer) (c d : Nat), verifyErr s = some (c, d) →
        Runs (.rcpVerifyDone f p) s fun t => t.rcp.verifying = false ∧ t.rcp.owner = s.rcp.owner ∧ t.rcp.resOp = 3 ∧
          t.rcp.resCode = c ∧ t.rcp.resDetail = d % 65536 ∧ (t.rcp.recipes[imageTarget s]).st = .invalid)) ∧
    (rcpUp s = true → s.rcp.owner.isSome = true → s.rcp.verifying = false → Runs .rcpOwnerTimeout s fun t =>
      t.rcp.owner = none ∧ t.evr = s.evr ∧ Only [.rcp] s t) ∧
    (∀ (sec : Byte) (off len : Nat), s.powered = true → s.sys.reloading.contains sec.toNat = true →
      sectionOffset s.activeBank sec.toNat = some (off, len) → Runs (.recipeSectionReloadDone sec) s fun t =>
        t.sys.reloading.contains sec.toNat = false ∧ Only [.sys, .rcp] s t ∧
        t.activeBank = memFill s.activeBank off (memBytes s.rcp.recipes[s.rcp.active].part off len))

/-- SWAP_BOUNDARY and SWAP_ABORT (R99, R100, R102). -/
def Obligations.SwapChangesTheBanksAtABoundary : Prop :=
  ∀ (s : State),
    (swapDue s = true → Runs .swapBoundary s fun t => t.rcp.active = 1 - s.rcp.active ∧ t.activeBank = (shadow s).bank ∧
      (t.rcp.recipes[s.rcp.active]).st = .valid ∧ (t.rcp.recipes[1 - s.rcp.active]).st = .active ∧ t.rcp.swapPend = false ∧
      t.rcp.cfgPend = true ∧ t.rcp.resOp = 5 ∧ t.rcp.resCode = 0 ∧ t.rcp.swapTime = s.stamp) ∧
    (swapDue s = false → Runs .swapBoundary s fun t => t = s) ∧
    (s.powered = true → regionUp rALM s = false → s.rcp.swapPend = true → Runs .swapAbort s fun t =>
      t.rcp.swapPend = false ∧ t.rcp.resOp = 5 ∧ t.rcp.resCode = 0x0F ∧ t.rcp.active = s.rcp.active ∧
      t.rcp.recipes = s.rcp.recipes)

/-- The conversion and calibration rows (R106, R112, R113, R119, R120, R123). -/
def Obligations.UniversalInputsConvert : Prop :=
  ∀ (s : State) (c : Fin 16),
    (∀ m : UiMeas, uiCode s c = 3 → m.fail = none →
      (s.ui[c].changing = true → Runs (.uiConversion c m) s fun t =>
        t.ui[c].val = s.ui[c].val ∧ t.ui[c].results = s.ui[c].results ∧ t.ui[c].use = s.ui[c].cfg ∧
        t.ui[c].changing = false ∧ (∀ d : Fin 16, d ≠ c → t.ui[d] = s.ui[d]) ∧ Only [.ui, .evr] s t) ∧
      (s.ui[c].changing = false → 0 < s.ui[c].hold → Runs (.uiConversion c m) s fun t =>
        t.ui[c].hold = s.ui[c].hold - 1 ∧ t.ui[c].val = s.ui[c].val ∧ t.ui[c].results = s.ui[c].results ∧
        t.ui[c].convCnt = s.ui[c].convCnt + 1 ∧ (∀ d : Fin 16, d ≠ c → t.ui[d] = s.ui[d])) ∧
      (s.ui[c].changing = false → s.ui[c].hold = 0 → s.ui[c].settle = 0 → Runs (.uiConversion c m) s fun t =>
        t.ui[c].raw = m.raw ∧ t.ui[c].convCnt = s.ui[c].convCnt + 1 ∧ t.ui[c].results = s.ui[c].results + 1 ∧
        t.ui[c].valTime = s.now ∧
        t.ui[c].dstat = convConds s ((s.ui[c]).readings m) m (uiResult s c ((s.ui[c]).readings m) m) ∧
        t.ui[c].qual = qualOf t.ui[c].dstat s.ui[c].refBad ∧
        (t.ui[c].qual = 2 → t.ui[c].val = s.ui[c].lastGood) ∧
        (t.ui[c].qual ≠ 2 → t.ui[c].val =
          rangeValue (s.ui[c]).type m.overload (uiResult s c ((s.ui[c]).readings m) m)) ∧
        (∀ d : Fin 16, d ≠ c → t.ui[d] = s.ui[d]) ∧ Only [.ui, .evr] s t) ∧
      (s.ui[c].changing = false → s.ui[c].hold = 0 → 0 < s.ui[c].settle → Runs (.uiConversion c m) s fun t =>
        t.ui[c].settle = s.ui[c].settle - 1 ∧ t.ui[c].val = s.ui[c].val ∧ t.ui[c].results = s.ui[c].results ∧
        t.ui[c].convCnt = s.ui[c].convCnt + 1 ∧ (∀ d : Fin 16, d ≠ c → t.ui[d] = s.ui[d]))) ∧
    (∀ (m : UiMeas) (tr : Bool) (x : BitVec 3), uiConverting s c = true → m.fail = some (tr, x) →
      Runs (.uiConversion c m) s fun t =>
        (s.ui[c].changing = false → t.ui[c].qual = (if tr then 4 else 2) ∧ t.ui[c].dstat = s.ui[c].dstat) ∧
        t.ui[c].val = s.ui[c].lastGood ∧ t.ui[c].results = s.ui[c].results + 1 ∧ (∀ d : Fin 16, d ≠ c → t.ui[d] = s.ui[d])) ∧
    (s.ui[c].phase = .powering → Runs (.uiIslandPowered c) s fun t =>
      t.ui[c] = { s.ui[c] with phase := .calibrating, startCal := true } ∧ (∀ d : Fin 16, d ≠ c → t.ui[d] = s.ui[d]) ∧
      Only [.ui, .evr] s t) ∧
    (∀ (ofs gain : Word) (isl : Int), s.ui[c].phase = .calibrating →
      Runs (.uiCalDone c ofs gain isl) s fun t =>
        t.ui[c].phase = (if uiListens s c || s.ui[c].excWait then .listen else .run) ∧ t.ui[c].calOfs = ofs ∧ t.ui[c].calGain = gain ∧ t.ui[c].calTemp = isl ∧
        t.ui[c].settle = (if s.ui[c].startCal then 1 else s.ui[c].settle) ∧ t.ui[c].val = s.ui[c].val ∧
        (∀ d : Fin 16, d ≠ c → t.ui[d] = s.ui[d]) ∧ Only [.ui, .evr] s t)

/-- The other UI rows (R118, R119, R121 to R123, R128, R131, R482). -/
def Obligations.UniversalInputsTestAndGuard : Prop :=
  ∀ (s : State) (c : Fin 16) (src : Source),
    (∀ w : UiWindow, uiCode s c = 3 →
      (isTc (s.ui[c]).type = true → Runs (.uiTestWindow c w) s fun t =>
        t.ui[c].tcLoop = w.loop ∧ t.ui[c].testReq = false ∧ bit t.ui[c].dstat 5 = decide (100000 < w.loop) ∧
        (∀ d : Fin 16, d ≠ c → t.ui[d] = s.ui[d]) ∧ Only [.ui, .evr] s t) ∧
      (isResistive (s.ui[c]).type = true → (s.ui[c]).wire = 2 → Runs (.uiTestWindow c w) s fun t =>
        t.ui[c].leads = #v[w.r1, w.r2, w.r3, w.r4] ∧ t.ui[c].testReq = false ∧
        (∀ d : Fin 16, d ≠ c → t.ui[d] = s.ui[d]) ∧ Only [.ui, .evr] s t)) ∧
    (uiCode s c < 4 →
      Runs (.uiTestCmd src c) s (fun t => t.ui[c] = { s.ui[c] with testReq := true } ∧ Only [.ui, .evr] s t) ∧
      (s.ui[c].phase = .run → Runs (.uiCalCmd src c) s fun t =>
        t.ui[c] = { s.ui[c] with phase := .calibrating } ∧ (∀ d : Fin 16, d ≠ c → t.ui[d] = s.ui[d]) ∧ Only [.ui, .evr] s t) ∧
      ((s.ui[c]).txsEnabled = true → Runs (.uiTxsOn src c) s fun t =>
        t.ui[c] = { s.ui[c] with txsOn := true } ∧ Only [.ui, .evr] s t) ∧
      (∀ p : Bool, Runs (.uiCrumb src c p) s (fun t => t.ui[c].hold = 2 ∧ t.tst.st = (if p then 2 else 3) ∧
          t.tst.face = 0 ∧ t.tst.depth = 1 ∧ t.tst.chan = c.val ∧ (∀ d : Fin 16, d ≠ c → t.ui[d] = s.ui[d])) ∧
        Runs (.uiBarrier src c p) s (fun t => t.ui = s.ui ∧ t.tst.st = (if p then 2 else 3) ∧ t.tst.depth = 2 ∧
          t.tst.chan = c.val))) ∧
    (4 ≤ uiCode s c → ∀ x : Instr, (x = .uiTestCmd src c ∨ x = .uiCalCmd src c ∨ x = .uiTxsOn src c) →
      Runs x s fun t => t.sys.werr.reason = 8 ∧ t.sys.werr.cnt = satInc 255 s.sys.werr.cnt ∧ Only [.sys] s t) ∧
    (uiConverting s c = true → fld s.ui[c].use[0] 8 8 ≠ 0 → Runs (.uiCalInterval c) s fun t =>
      t.ui[c] = { s.ui[c] with phase := .calibrating } ∧ (∀ d : Fin 16, d ≠ c → t.ui[d] = s.ui[d]) ∧ Only [.ui, .evr] s t) ∧
    (∀ ppm : Nat, (s.ui[c]).type ≠ 0 → uiConverting s c = true → Runs (.uiRefCheck c ppm) s fun t =>
      bit t.ui[c].dstat 15 = decide (200 < ppm) ∧ t.ui[c].refBad = decide (1000 < ppm) ∧
      (∀ d : Fin 16, d ≠ c → t.ui[d] = s.ui[d]) ∧ Only [.ui, .evr] s t) ∧
    (∀ past : BitVec 3, uiConverting s c = true → Runs (.uiNe43Confirm c past) s fun t =>
      t.ui[c].dstat = s.ui[c].dstat ||| condBit 7 (bit past 0 && s.ui[c].neLow) |||
        condBit 8 (bit past 1 && s.ui[c].neHigh) ||| condBit 10 (bit past 2 && s.ui[c].neOpen) ∧
      (∀ d : Fin 16, d ≠ c → t.ui[d] = s.ui[d]) ∧ Only [.ui, .evr] s t) ∧
    (s.ui[c].txsOn = true → (s.ui[c]).txsEnabled = true → Runs (.uiTxsOverload c) s fun t =>
      t.ui[c].txsOn = false ∧ t.ui[c].dstat = s.ui[c].dstat ||| condBit 12 true ∧
      ((s.ui[c]).rated = true → s.ui[c].failQ = 0 → t.ui[c].qual = 2 ∧ t.ui[c].val = s.ui[c].lastGood) ∧
      (∀ d : Fin 16, d ≠ c → t.ui[d] = s.ui[d]) ∧ Only [.ui, .evr] s t) ∧
    (bit s.ui[c].dstat 12 = true → fld s.ui[c].use[1] 12 4 ≠ 0 → (s.ui[c]).txsEnabled = true → uiMayDrive s = true →
      uiListens s c = false → Runs (.uiTxsRetry c) s fun t =>
      t.ui[c] = { s.ui[c] with txsOn := true } ∧ Only [.ui] s t) ∧
    Runs (.uiTrendReset c) s (fun t => t.ui[c].tcTests = 0 ∧ t.ui[c].tcSum = 0 ∧ bit t.ui[c].dstat 6 = false ∧
      (∀ d : Fin 16, d ≠ c → t.ui[d] = s.ui[d]) ∧ Only [.ui, .evr] s t) ∧
    (∀ b : BitVec 2, Runs (.uiBlockStop b) s fun t =>
      t.uiBlk.stop = #v[bit b 0, bit b 1] ∧ Only [.ui, .uiBlk, .evr] s t) ∧
    (∀ v : Int, s.ui[c].excWait = true → s.ui[c].phase = .listen → uiMayDrive s = true → v.natAbs < 10000000 → Runs (.uiSharedExcCheck c v) s fun t =>
      t.ui[c].excWait = false ∧ t.ui[c].excOn = true ∧ t.ui[c].phase = .run ∧ t.ui[c].settle = 1 ∧
      (∀ d : Fin 16, d ≠ c → t.ui[d] = s.ui[d]) ∧ Only [.ui, .evr] s t)

/-- The island rows (R137, R139, R142 to R144, R146 to R148, R160, R483). -/
def Obligations.LoopOutputsDriveTheirLevel : Prop :=
  ∀ (s : State) (c : Fin 4),
    (∀ m : AoMeas, regionUp rACQ s = true → m.fail = none → (s.ao[c].sink = false ∨ m.answers = true) →
      (aoCode s c = 3 → Runs (.aoCellCycle c m) s fun t => t.ao[c].curr = m.curr ∧ t.ao[c].term = m.term ∧
        t.ao[c].cycles = s.ao[c].cycles + 1 ∧ t.ao[c].cycTime = s.now ∧
        bit t.ao[c].dstat 1 = (aoSelect s c).compliance m ∧
        (s.ao[c].retry = 0 → t.ao[c].qual = aoQualOf t.ao[c].dstat t.ao[c].clk ∧
          t.ao[c].level = (aoSelect s c).level ∧
          (aoOpen t c = false → t.ao[c].code = (aoSelect s c).code ∧ t.ao[c].why = (aoSelect s c).why)) ∧
        (∀ d : Fin 4, d ≠ c → t.ao[d] = s.ao[d]) ∧ Only [.ao, .evr] s t) ∧
      (aoCode s c = 5 → Runs (.aoCellCycle c m) s fun t => t.ao[c].curr = m.curr ∧ t.ao[c].term = m.term ∧
        t.ao[c].level = s.ao[c].level ∧
        (s.ao[c].retry = 0 → aoOpen t c = false → t.ao[c].code = (aoHold s c).code ∧ t.ao[c].why = (aoHold s c).why) ∧
        (∀ d : Fin 4, d ≠ c → t.ao[d] = s.ao[d]) ∧ Only [.ao, .evr] s t)) ∧
    (∀ m : AoMeas, regionUp rACQ s = true → m.fail = none → (s.ao[c]).sink = true → m.answers = false →
      (aoCode s c = 2 ∨ aoCode s c = 3 ∨ aoCode s c = 5) → Runs (.aoCellCycle c m) s fun t =>
        t.ao[c].phase = .noPower ∧ t.ao[c].code = 0 ∧ t.ao[c].why = 8 ∧ t.ao[c].dstat = aoBit 7 true ∧
        (∀ d : Fin 4, d ≠ c → t.ao[d] = s.ao[d]) ∧ Only [.ao, .evr] s t) ∧
    (∀ m : AoMeas, regionUp rACQ s = false → Runs (.aoCellCycle c m) s fun t => t = s) ∧
    ((s.ao[c]).sink = true → s.ao[c].phase = .run → s.ao[c].clk ≠ 0 → clkThreshold (s.ao[c].clk - 1) + 100000 ≤ s.ao[c].curr →
      Runs (.aoClockStepUp c) s fun t => t.ao[c].clk = s.ao[c].clk - 1 ∧
        (∀ d : Fin 4, d ≠ c → t.ao[d] = s.ao[d]) ∧ Only [.ao, .evr] s t) ∧
    ((s.ao[c]).sink = true → s.ao[c].phase ≠ .off → s.ao[c].phase ≠ .noPower → Runs (.aoBrownout c) s fun t =>
      t.ao[c].phase = .noPower ∧ t.ao[c].code = 0 ∧ t.ao[c].why = 8 ∧ t.ao[c].dstat = aoBit 7 true ∧
      (s.ao[c].changing = false → t.ao[c].qual = 2) ∧ t.ao[c].txBusy = false ∧
      (∀ d : Fin 4, d ≠ c → t.ao[d] = s.ao[d]) ∧ Only [.ao, .evr] s t) ∧
    (s.ao[c].phase = .noPower → Runs (.aoIslandRestart c) s fun t =>
      t.ao[c].phase = (if s.ao[c].lostFrom = .run then .run else .calibrating) ∧
      t.ao[c].dstat = aoBit 8 (s.ao[c].lostFrom != .powering) ∧ t.ao[c].clk = 3 ∧ (∀ d : Fin 4, d ≠ c → t.ao[d] = s.ao[d]) ∧
      Only [.ao, .evr] s t) ∧
    (s.ao[c].phase = .run → Runs (.aoBrownoutClear c) s fun t =>
      bit t.ao[c].dstat 8 = false ∧ (∀ d : Fin 4, d ≠ c → t.ao[d] = s.ao[d]) ∧ Only [.ao, .evr] s t) ∧
    (∀ e : BitVec 4, (∀ d : Fin 4, s.aoUnused d.val = false ∧ s.ao[d].phase ≠ .off) →
      e = 15 → Runs (.aoKeepalive e) s fun t => (∀ d : Fin 4, t.ao[d].keepLost = false ∧ t.ao[d].echoMiss = 0 ∧
        t.ao[d].level = s.ao[d].level) ∧ Only [.ao, .evr] s t) ∧
    Runs (.aoKeepaliveLost c) s (fun t => t.ao[c].keepLost = true ∧ t.ao[c].code = 0 ∧ t.ao[c].why = 8 ∧
      (∀ d : Fin 4, d ≠ c → t.ao[d] = s.ao[d]) ∧ Only [.ao, .evr] s t) ∧
    (bit s.ao[c].dstat 1 = true → (s.ao[c]).compAct = 1 → aoCode s c = 3 → regionUp rACQ s = true →
      Runs (.aoComplianceRetry c) s fun t => t.ao[c].retry = 20 ∧ t.ao[c].why ≠ 3 ∧
        t.ao[c].level = (aoSelect (s.setAo c fun a => { a with retry := 20 }) c).level ∧
        (∀ d : Fin 4, d ≠ c → t.ao[d] = s.ao[d]) ∧ Only [.ao, .evr] s t) ∧
    ((bit s.ao[c].dstat 1 = false ∨ (s.ao[c]).compAct ≠ 1) → Runs (.aoComplianceRetry c) s fun t => t = s) ∧
    Runs (.aoSwitchReclose c) s (fun t => bit t.ao[c].dstat 3 = false ∧ bit t.ao[c].dstat 4 = false ∧
      (∀ d : Fin 4, d ≠ c → t.ao[d] = s.ao[d]) ∧ Only [.ao, .evr] s t) ∧
    (∀ src : Source, (aoCode s c = 3 → Runs (.aoRestart src c) s fun t =>
        t.ao[c].phase = .calibrating ∧ t.ao[c].code = 0 ∧ t.ao[c].why = 8 ∧ bit t.ao[c].dstat 5 = false ∧
        (∀ d : Fin 4, d ≠ c → t.ao[d] = s.ao[d]) ∧ Only [.ao, .evr] s t) ∧
      ((aoCode s c = 5 ∨ aoCode s c = 7 ∨ aoCode s c = 9) → Runs (.aoRestart src c) s fun t => t.sys.werr.reason = 8 ∧ Only [.sys] s t)) ∧
    (s.ao[c].phase = .powering → Runs (.aoIslandPowered c) s fun t =>
      t.ao[c] = { s.ao[c] with phase := .calibrating } ∧ (∀ d : Fin 4, d ≠ c → t.ao[d] = s.ao[d]) ∧ Only [.ao, .evr] s t) ∧
    (s.ao[c].phase = .calibrating → Runs (.aoCalDone c) s fun t =>
      t.ao[c].phase = .run ∧ (s.ao[c].changing = false → t.ao[c].qual = aoQualOf s.ao[c].dstat s.ao[c].clk) ∧ (∀ d : Fin 4, d ≠ c → t.ao[d] = s.ao[d]) ∧
      Only [.ao, .evr] s t) ∧
    (∀ b : Bool, Runs (.aoBlockStop b) s fun t => t.aoBlk.stop = b ∧ Only [.ao, .aoBlk, .evr] s t)

/-- The trim and HART rows (R152 to R154, R157, R158, R482). -/
def Obligations.LoopOutputsTrimAndTalkHart : Prop :=
  ∀ (s : State) (c : Fin 4) (src : Source),
    (∀ b : Bool, trimPressed s c b = true →
      (s.standby = false → aoCode s c = 3 → s.sys.mode ≠ .safe → Runs (.aoTrimEnter c b) s fun t =>
        t.ao[c].trimMode = some (b, s.ao[c].trimZ, s.ao[c].trimS) ∧ bit t.ao[c].dstat 12 = true ∧
        (∀ d : Fin 4, d ≠ c → t.ao[d] = s.ao[d]) ∧ Only [.ao, .evr] s t) ∧
      (s.ao[c].trimMode = none → (s.standby = true ∨ aoCode s c ≠ 3 ∨ s.sys.mode = .safe) →
        Runs (.aoTrimEnter c b) s fun t => Only [.evr] s t)) ∧
    (∀ (b : Bool) (z sp : Int), s.ao[c].trimMode = some (b, z, sp) →
      (∀ up : Bool, trimButton s c up = true → b = false → trimOk (s.ao[c].trimZ + if up then 5 else -5) = true →
        Runs (.aoTrimAdjust c up) s fun t => t.ao[c].trimZ = (s.ao[c].trimZ + if up then 5 else -5) ∧
          t.ao[c].trimS = s.ao[c].trimS ∧ t.ao[c].trimMode = some (b, z, sp) ∧
          (aoCode s c = 8 → t.ao[c].code = (aoSelect (s.setAo c fun a =>
            { a with trimZ := a.trimZ + if up then 5 else -5 }) c).code) ∧
          (∀ d : Fin 4, d ≠ c → t.ao[d] = s.ao[d]) ∧ Only [.ao, .evr] s t) ∧
      (∀ up : Bool, b = true → trimOk (s.ao[c].trimS + if up then 5 else -5) = false → Runs (.aoTrimAdjust c up) s fun t =>
        t.ao[c].trimZ = s.ao[c].trimZ ∧ t.ao[c].trimS = s.ao[c].trimS ∧ t.ao[c].trimMode = some (b, z, sp)) ∧
      (∀ up : Bool, trimButton s c up = false → Runs (.aoTrimAdjust c up) s fun t => t = s) ∧
      ((trimPressed s c false = true ∨ trimPressed s c true = true) → Runs (.aoTrimStore c) s fun t =>
        t.ao[c].trimMode = none ∧ t.ao[c].trimStored = (s.ao[c].trimZ, s.ao[c].trimS) ∧
        t.ao[c].trimZ = s.ao[c].trimZ ∧ bit t.ao[c].dstat 12 = false ∧ (∀ d : Fin 4, d ≠ c → t.ao[d] = s.ao[d])) ∧
      ∀ x : Instr, ((x = .aoTrimDiscard c ∧ trimPressed s c false = true ∧ trimPressed s c true = true) ∨
          (x = .aoTrimTimeout c ∧ trimPressed s c false = false ∧ trimPressed s c true = false)) →
        Runs x s fun t => t.ao[c].trimMode = none ∧
          t.ao[c].trimZ = z ∧ t.ao[c].trimS = sp ∧ bit t.ao[c].dstat 12 = false ∧
          t.ao[c].trimStored = s.ao[c].trimStored ∧ (∀ d : Fin 4, d ≠ c → t.ao[d] = s.ao[d]) ∧ Only [.ao, .evr] s t) ∧
    (s.standby = false →
      (trimOk (trimField s.ao[c].trimReq 16) = true → trimOk (trimField s.ao[c].trimReq 0) = true →
        Runs (.aoTrimApply src c) s fun t => t.ao[c].trimZ = trimField s.ao[c].trimReq 16 ∧
          t.ao[c].trimS = trimField s.ao[c].trimReq 0 ∧ t.ao[c].trimStored = (t.ao[c].trimZ, t.ao[c].trimS) ∧
          (∀ d : Fin 4, d ≠ c → t.ao[d] = s.ao[d])) ∧
      (trimOk (trimField s.ao[c].trimReq 0) = false → Runs (.aoTrimApply src c) s fun t =>
        t.ao = s.ao ∧ t.sys.werr.reason = 9) ∧
      Runs (.aoTrimClear src c) s (fun t => t.ao[c].trimZ = 0 ∧ t.ao[c].trimS = 0 ∧ t.ao[c].trimStored = (0, 0) ∧
        (∀ d : Fin 4, d ≠ c → t.ao[d] = s.ao[d]))) ∧
    (s.ao[c].txBusy = false →
      (aoHartOff s c = false → s.ao[c].txLen ≠ 0 → s.ao[c].txLen ≤ 256 → s.ao[c].clk = 0 → Runs (.aoHartTx src c) s fun t =>
        t.ao[c].txBusy = true ∧ t.ao[c].txRes = 0 ∧ (∀ d : Fin 4, d ≠ c → t.ao[d] = s.ao[d]) ∧ Only [.ao] s t) ∧
      (aoHartOff s c = true → Runs (.aoHartTx src c) s fun t => t.ao[c].txBusy = false ∧ t.ao[c].txRes = 4 ∧
        Only [.ao, .evr] s t)) ∧
    (s.ao[c].txBusy = true → s.ao[c].sending = none → s.ao[c].cd = false → aoCode s c ≠ 5 → regionUp rACQ s = true →
      (aoHartOff s c = false → s.ao[c].clk = 0 → Runs (.aoHartTxStart c) s fun t => t.ao[c].sending =
        some (List.replicate (s.ao[c]).preamb 0xFF ++ memBytes s.ao[c].tx 0 s.ao[c].txLen) ∧ Only [.ao] s t) ∧
      (aoHartOff s c = true → Runs (.aoHartTxStart c) s fun t => t.ao[c].txBusy = false ∧ t.ao[c].txRes = 4 ∧
        Only [.ao, .evr] s t)) ∧
    (s.ao[c].sending.isSome = true → Runs (.aoHartTxDone c) s fun t => t.ao[c].sending = none ∧ t.ao[c].txBusy = false ∧
      t.ao[c].txRes = 1 ∧ (∀ d : Fin 4, d ≠ c → t.ao[d] = s.ao[d]) ∧ Only [.ao, .evr] s t) ∧
    (aoReceives s c = true → Runs (.aoHartCarrierDetect c) s fun t => t.ao[c].cd = true ∧ t.ao[c].rxDone = false ∧
      t.ao[c].rxLen = 0 ∧ Only [.ao] s t) ∧
    (∀ (l : List Byte) (e : Nat), s.ao[c].cd = true → Runs (.aoHartRxDone c l e) s fun t => t.ao[c].cd = false ∧
      t.ao[c].rxDone = true ∧ t.ao[c].rx = memFill s.ao[c].rx 0 (l.take 256) ∧ t.ao[c].rxLen = min 256 l.length ∧
      t.ao[c].ovr = decide (256 < l.length) ∧ (∀ d : Fin 4, d ≠ c → t.ao[d] = s.ao[d]) ∧ Only [.ao, .evr] s t) ∧
    (∀ n : Nat, (aoCode s c = 4 → Runs (.aoCrust src c n) s fun t => t.tst.st = 4 ∧ t.tst.face = 1 ∧ t.tst.depth = 3 ∧
        t.tst.chan = c.val ∧ Only [.tst, .evr] s t) ∧
      (aoCode s c = 3 → Runs (.aoCrust src c n) s fun t => (t.tst.st = 2 ∨ t.tst.st = 3) ∧
        t.tst.detail = min 0xFFFF (n * 2 / 5) ∧ Only [.tst, .evr, .drawn] s t))

/-- The rows that drive outputs as a whole (R172 to R175, R190). -/
def Obligations.DigitalOutputsTakeTheirLevel : Prop :=
  ∀ (s : State),
    Runs .dioBlinkPhase s (fun t => Only [.dio, .dioBlk] s t ∧ ∀ c : Fin 16, (s.dio[c]).output = true →
      s.dio[c].running = true → (s.dio[c]).inrushSet = false →
        t.dio[c].on = (dioWant s c).1 ∧ t.dio[c].why = (dioWant s c).2) ∧
    (∀ c : Fin 16, s.dio[c].inrush = true → s.dio[c].on = true → (dioWant s c).1 = true → Runs (.dioInrushEnd c) s fun t =>
      t.dio[c].inrush = false ∧ t.dio[c].on = true ∧ Only [.dio, .dioBlk] s t) ∧
    Runs .dioKeepalive s (fun t => (∀ g : Fin 2, t.dioBlk.groups[g].keepLost = false ∧
      t.dioBlk.groups[g].cond = s.dioBlk.groups[g].cond) ∧ Only [.dio, .dioBlk, .evr] s t) ∧
    (∀ g : Fin 2, Runs (.dioKeepaliveLost g) s fun t => t.dioBlk.groups[g].keepLost = true ∧
      t.dioBlk.groups[1 - g] = s.dioBlk.groups[1 - g] ∧ Only [.dio, .dioBlk, .evr] s t ∧
      ∀ c : Fin 16, dioGroup c = g → (s.dio[c]).output = true → s.dio[c].running = true →
        t.dio[c].on = false ∧ t.dio[c].why = 5) ∧
    (∀ b : BitVec 2, Runs (.dioBlockStop b) s fun t => t.dioBlk.groups[0].stop = bit b 0 ∧ t.dioBlk.groups[1].stop = bit b 1 ∧
      Only [.dio, .dioBlk, .evr] s t)

/-- The diagnostic rows of a channel (R166, R167, R169, R176, R177, R187). -/
def Obligations.DigitalChannelsDiagnose : Prop :=
  ∀ (s : State) (c : Fin 16),
    (∀ (b : Bool) (at' : Ts), s.powered = true → regionUp rACQ s = true → dioAccepts s c b = true → (s.dio[c]).func = 0 → Runs (.dioInputTransition c b at') s fun t =>
      t.dio[c].level = b ∧ t.dio[c].raw = b ∧ t.dio[c].edge = at' ∧ (∀ d : Fin 16, d ≠ c → t.dio[d] = s.dio[d]) ∧
      Only [.dio, .evr] s t) ∧
    (dioEvals s c = true → (s.dio[c]).output = false → (s.dio[c]).lineMon = true → Runs (.dioLineBreak c) s fun t =>
      t.dio[c] = (s.dio[c]).cond 13 true ∧ (∀ d : Fin 16, d ≠ c → t.dio[d] = s.dio[d]) ∧ Only [.dio, .evr] s t) ∧
    (dioActive s c = true → (s.dio[c]).output = false → s.dio[c].level = true → (s.dio[c]).func = 1 →
      Runs (.dioButtonStuck c) s fun t => t.dio[c] = (s.dio[c]).cond 14 true ∧
        (∀ d : Fin 16, d ≠ c → t.dio[d] = s.dio[d]) ∧ Only [.dio, .evr] s t) ∧
    ((s.dio[c]).output = true → s.dio[c].on = true → s.dio[c].running = true →
      (dioJudged s c = false → (∀ i : Nat, Runs (.dioOverload c i) s fun t => t = s) ∧ Runs (.dioShortCircuit c) s fun t => t = s) ∧
      (∀ i : Nat, dioJudged s c = true → s.dio[c].inrush = false → (s.dio[c]).ovlTh * 10 < i → Runs (.dioOverload c i) s fun t =>
        t.dio[c].tripped = true ∧ t.dio[c].on = false ∧ t.dio[c].dstat = (((s.dio[c]).cond 0 true).cond 18 false).dstat ∧
        t.dio[c].fails = (if s.dio[c].retrying then s.dio[c].fails + 1 else s.dio[c].fails) ∧
        (∀ d : Fin 16, d ≠ c → t.dio[d] = s.dio[d]) ∧ Only [.dio, .dioBlk, .evr] s t) ∧
      (dioJudged s c = true → Runs (.dioShortCircuit c) s fun t => t.dio[c].tripped = true ∧ t.dio[c].on = false ∧
        t.dio[c].dstat = (((s.dio[c]).cond 1 true).cond 18 false).dstat ∧ (∀ d : Fin 16, d ≠ c → t.dio[d] = s.dio[d]) ∧
        Only [.dio, .dioBlk, .evr] s t)) ∧
    ((s.dio[c]).output = true → s.dio[c].running = true → Runs (.dioOvertemp c) s fun t =>
      t.dio[c].dstat = ((s.dio[c]).cond 2 true).dstat ∧ t.dio[c].on = false ∧ (∀ d : Fin 16, d ≠ c → t.dio[d] = s.dio[d])) ∧
    (bit s.dio[c].dstat 2 = true → Runs (.dioOvertempEnd c) s fun t =>
      t.dio[c].dstat = ((s.dio[c]).cond 2 false).dstat ∧ (∀ d : Fin 16, d ≠ c → t.dio[d] = s.dio[d])) ∧
    (dioEvals s c = true → (s.dio[c]).output = true → s.dio[c].on = true → (s.dio[c]).ucTh ≠ 0 → (s.dio[c]).lampEn = false →
      Runs (.dioOpenOn c) s fun t => t.dio[c] = (s.dio[c]).cond 3 true ∧ (∀ d : Fin 16, d ≠ c → t.dio[d] = s.dio[d]) ∧
        Only [.dio, .evr] s t) ∧
    (∀ (v : Int) (pin : Bool), (s.dio[c]).output = true →
      (dioEvals s c = true → s.dio[c].on = false → (s.dio[c]).offTest = true → (s.dio[c]).lampEn = false → s.standby = false →
        Runs (.dioOpenOff c v pin) s fun t => t.dio[c] = ((s.dio[c]).pinRead v pin).cond 4 true ∧ Only [.dio, .evr] s t) ∧
      (dioEvals s c = true → s.dio[c].on = false → dioMayBackfeed s c = true → Runs (.dioShortFsp c v pin) s fun t =>
        t.dio[c] = ((s.dio[c]).pinRead v pin).cond 5 true ∧ Only [.dio, .evr] s t) ∧
      (dioEvals s c = true → dioMayBackfeed s c = true → Runs (.dioBackfeed c v pin) s fun t =>
        t.dio[c] = ((s.dio[c]).pinRead v pin).cond 6 true ∧ Only [.dio, .evr] s t) ∧
      (dioActive s c = true → s.dio[c].on = false → s.isPaired = true → s.standby = true →
        Runs (.dioPartnerDrive c v pin) s fun t =>
          t.dio[c] = ((s.dio[c]).pinRead v pin).cond 17 true ∧ Only [.dio, .evr] s t)) ∧
    (∀ i : Fin 19, dioClearable s c i.val = false → Runs (.dioDiagClear c i) s fun t => t = s) ∧
    (dioEvals s c = true → Runs (.dioDiagClear c 3) s fun t => t.dio[c] = ((s.dio[c]).cond 3 false).learnStep ∧
      (∀ d : Fin 16, d ≠ c → t.dio[d] = s.dio[d]) ∧ Only [.dio, .evr] s t) ∧
    (s.dio[c].tripped = true → s.dio[c].latch ≠ 0 → (s.dio[c]).ovlRetry ≠ 0 → s.dio[c].fails < 8 → Runs (.dioOvlRetry c) s fun t =>
      t.dio[c].tripped = false ∧ t.dio[c].retrying = true ∧ t.dio[c].fails = s.dio[c].fails ∧
      (∀ d : Fin 16, d ≠ c → t.dio[d] = s.dio[d])) ∧
    (∀ src : Source, (s.standby = false → s.dio[c].tripped = true → Runs (.dioRetryCmd src c) s fun t =>
        t.dio[c].tripped = false ∧ t.dio[c].retrying = true ∧ t.dio[c].fails = 0) ∧
      (s.standby = true → Runs (.dioRetryCmd src c) s fun t => t.dio = s.dio ∧ t.sys.werr.reason = 8)) ∧
    (s.dio[c].retrying = true → s.dio[c].on = true → Runs (.dioRetryCountReset c) s fun t =>
      t.dio[c] = { s.dio[c] with fails := 0, retrying := false } ∧ Only [.dio] s t)

/-- The rows of groups, lamps and loopbacks (R178 to R185, R482, R484). -/
def Obligations.FieldSupplyGroupsAndLampsAreWatched : Prop :=
  ∀ (s : State),
    (∀ (g : Fin 2) (v : Half) (x : Instr) (k : GrpCond), s.grpUnused g.val = false → s.dioBlk.groups[g].cond ≠ k →
      ((x = .dioGroupWarn g v ∧ k = .warn ∧ s.dioBlk.groups[g].cond = .normal) ∨ (x = .dioGroupLow g v ∧ k = .low ∧ s.dioBlk.groups[g].cond.bad = false) ∨
        (x = .dioGroupOvervolt g v ∧ k = .overvolt ∧ s.dioBlk.groups[g].cond.bad = false) ∨ (x = .dioGroupLost g v ∧ k = .lost) ∨
        (x = .dioGroupNormal g v ∧ k = grpReturn v ∧ s.dioBlk.groups[g].cond.leaves v.toNat = true)) →
      Runs x s fun t => t.dioBlk.groups[g].cond = k ∧ t.dioBlk.groups[g].volt = v ∧
        t.dioBlk.groups[1 - g] = s.dioBlk.groups[1 - g] ∧
        (∀ c : Fin 16, (dioGroup c = g → t.dio[c].dstat = (s.dio[c].dstat &&& 0x7FC7F) ||| supplyBits k) ∧
          (dioGroup c ≠ g → t.dio[c] = s.dio[c])) ∧ Only [.dio, .dioBlk, .evr, .sup] s t) ∧
    (∀ (g : Fin 2) (v : Half) (x : Instr), s.dioBlk.groups[g].cond.bad = true → (x = .dioGroupLow g v ∨ x = .dioGroupOvervolt g v) →
      Runs x s fun t => t.dioBlk.groups[g].cond = s.dioBlk.groups[g].cond ∧ t.dioBlk.groups[g].volt = v ∧ Only [.dioBlk] s t) ∧
    (∀ (g : Fin 2) (m : Half), (m.toNat ≤ 400 → Runs (.dioGroupShed g m) s fun t =>
        t.dioBlk.groups[g].curr = m.toNat ∧ t.dio = s.dio ∧ Only [.dioBlk] s t) ∧
      (∀ c : Fin 16, 400 < m.toNat → latestOn s g = some c → s.dio[c].running = true → (s.dio[c]).output = true →
        s.dio[c].on = true → Runs (.dioGroupShed g m) s fun t => t.dio[c].shed = true ∧ t.dio[c].on = false ∧
          t.dio[c].dstat = ((s.dio[c]).cond 15 true).dstat ∧ (∀ d : Fin 16, d ≠ c → t.dio[d] = s.dio[d]))) ∧
    (∀ c : Fin 16, (s.dio[c].shed = true → s.dio[c].latch ≠ 0 → Runs (.dioShedRetry c) s fun t =>
        t.dio[c].shed = false ∧ (∀ d : Fin 16, d ≠ c → t.dio[d] = s.dio[d])) ∧
      (∀ (i v : Nat) (b : Bool), lampWatch s c = true → s.dio[c].on = true → Runs (.dioLampAverage c i v b) s fun t =>
        t.dio[c].curr = i ∧ t.dio[c].darkCnt = (if (s.dio[c]).belowDark i v then min 7 (s.dio[c].darkCnt + 1) else 0) ∧
        t.dio[c].litCnt = (if (s.dio[c]).belowDark i v then 0 else min 7 (s.dio[c].litCnt + 1)) ∧
        (∀ d : Fin 16, d ≠ c → t.dio[d] = s.dio[d]) ∧ Only [.dio, .evr] s t) ∧
      (∀ i : Nat, lampWatch s c = true → s.dio[c].on = false → s.dio[c].waiting = false → (s.dio[c]).probeInt ≠ 0 →
        Runs (.dioLampProbe c i) s fun t =>
          t.dio[c].probeFails = (if (s.dio[c]).probePasses i then 0 else s.dio[c].probeFails + 1) ∧
          (∀ d : Fin 16, d ≠ c → t.dio[d] = s.dio[d]) ∧ Only [.dio, .evr] s t) ∧
      (s.dio[c].learnOn = true → s.dio[c].onCnt = 1600 → Runs (.dioLearnPartDone c false) s fun t =>
        t.dio[c].iOn = (openDiv s.dio[c].onSum 1600).toNat ∧ t.dio[c].learnOn = false ∧ t.dio[c].stored.1 = t.dio[c].iOn) ∧
      (s.dio[c].learnProbe = true → s.dio[c].prCnt = 64 → Runs (.dioLearnPartDone c true) s fun t =>
        t.dio[c].iProbe = (openDiv s.dio[c].prSum 64).toNat ∧ t.dio[c].learnProbe = false ∧
        t.dio[c].stored.2.1 = t.dio[c].iProbe) ∧
      (∀ src : Source, (s.standby = false → (s.dio[c]).lampEn = true → Runs (.dioLearn src c) s fun t =>
          t.dio[c].learnOn = true ∧ t.dio[c].learnProbe = true ∧ t.dio[c].onCnt = 0 ∧ t.dio[c].prCnt = 0 ∧
          t.dio[c].iOn = s.dio[c].iOn ∧ (∀ d : Fin 16, d ≠ c → t.dio[d] = s.dio[d])) ∧
        (s.standby = false → Runs (.dioLearnClr src c) s fun t => t.dio[c].iOn = 0 ∧ t.dio[c].iProbe = 0 ∧
          t.dio[c].vLearn = 0 ∧ t.dio[c].stored = (0, 0, 0, 0) ∧ (∀ d : Fin 16, d ≠ c → t.dio[d] = s.dio[d])) ∧
        (∀ p : Bool, dioActive s c = true →
          Runs (.dioCrumb src c p) s (fun t => t.tst.st = (if p then 2 else 3) ∧ t.tst.face = 2 ∧ t.tst.depth = 1 ∧
            t.tst.chan = c.val ∧ Only [.tst, .evr] s t) ∧
          Runs (.dioBarrier src c p) s (fun t => t.tst.st = (if p then 2 else 3) ∧ t.tst.face = 2 ∧ t.tst.depth = 2 ∧
            t.tst.chan = c.val ∧ Only [.tst, .evr] s t)) ∧
        (∀ p : Bool, dioActive s c = true → s.isPaired = false → grpCond s (dioGroup c) = .normal → (s.dio[c]).output = true →
          Runs (.dioCrust src c p) s fun t => t.tst.st = (if p then 2 else 3) ∧ t.tst.face = 2 ∧ t.tst.depth = 3 ∧
            t.tst.chan = c.val ∧ Only [.tst, .evr] s t))) ∧
    (∀ (a b : BitVec 5) (x y : Fin 16), fieldChan a = some x → fieldChan b = some y → fieldMayRun s x y = true → s.tst.field = none →
      Runs (.dioFieldLoopback a b) s fun t => t.tst.st = 1 ∧ t.tst.face = 2 ∧ t.tst.depth = 4 ∧ t.tst.chan = x.val ∧
        t.tst.field = some (x, y) ∧ Only [.tst] s t) ∧
    (∀ (l : Bool) (k : Nat) (x y : Fin 16), s.tst.field = some (x, y) → dioCode s y = 3 → Runs (.fieldLoopbackDone l k) s fun t =>
      t.tst.st = (if l && decide (k ≤ (s.dio[y]).deb + 100) then 2 else 3) ∧ t.tst.detail = min 0xFFFF k ∧
      t.tst.chan = x.val ∧ t.tst.field = none ∧ Only [.tst, .evr] s t)

/-- The speed and position rows (R196 to R200, R203, R205, R206, R209, R482). -/
def Obligations.SpeedAndPositionChannelsCount : Prop :=
  ∀ (s : State) (c : Fin 2) (src : Source),
    (∀ b z : Bool, psCounts s c = true → (s.ps[c]).upDown = false →
      (b = (s.ps[c]).inv → Runs (.psEdge c true false b false z) s fun t =>
        t.ps[c].pos = (if (s.ps[c]).cpr ≤ s.ps[c].pos + 1 then 0 else s.ps[c].pos + 1) ∧
        t.ps[c].rev = (if (s.ps[c]).cpr ≤ s.ps[c].pos + 1 then s.ps[c].rev + 1 else s.ps[c].rev) ∧
        t.ps[c].moving = true ∧ t.ps[1 - c] = s.ps[1 - c] ∧ Only [.ps, .evr] s t) ∧
      (b ≠ (s.ps[c]).inv → Runs (.psEdge c true false b false z) s fun t =>
        t.ps[c].pos = (if s.ps[c].pos = 0 then (s.ps[c]).cpr - 1 else s.ps[c].pos - 1) ∧
        t.ps[c].rev = (if s.ps[c].pos = 0 then s.ps[c].rev - 1 else s.ps[c].rev) ∧ t.ps[c].down = true ∧
        t.ps[c].moving = true ∧ t.ps[1 - c] = s.ps[1 - c] ∧ Only [.ps, .evr] s t)) ∧
    (psCounts s c = true →
      ((s.ps[c]).zMode = 1 → Runs (.psIndexEdge c) s fun t => t.ps[c].zcap = s.ps[c].pos ∧ t.ps[c].pos = s.ps[c].pos ∧
        t.ps[c].travel = 0 ∧ t.ps[1 - c] = s.ps[1 - c] ∧ Only [.ps, .evr] s t) ∧
      ((s.ps[c]).zMode = 2 → Runs (.psIndexEdge c) s fun t => t.ps[c].zcap = s.ps[c].pos ∧ t.ps[c].pos = 0 ∧
        t.ps[c].homed = true ∧ t.ps[1 - c] = s.ps[1 - c] ∧ Only [.ps, .evr, .drawn] s t)) ∧
    ((s.ps[c]).stands s.mono = true → Runs (.psStandstill c) s fun t => t.ps[c].moving = false ∧ t.ps[c].lastEdge = none ∧
      t.ps[c].pos = s.ps[c].pos ∧ t.ps[1 - c] = s.ps[1 - c] ∧ Only [.ps] s t) ∧
    ((s.ps[c]).stands s.mono = false → Runs (.psStandstill c) s fun t => t = s) ∧
    (fld s.ps[c].presetPos 0 24 < (s.ps[c]).cpr → Runs (.psSetPos src c) s fun t =>
      t.ps[c].pos = fld s.ps[c].presetPos 0 24 ∧ t.ps[c].rev = s.ps[c].presetRev ∧ t.ps[c].homed = true ∧
      t.ps[1 - c] = s.ps[1 - c] ∧ Only [.ps, .evr] s t) ∧
    ((s.ps[c]).cpr ≤ fld s.ps[c].presetPos 0 24 → Runs (.psSetPos src c) s fun t =>
      t.sys.werr.reason = 9 ∧ Only [.sys] s t) ∧
    Runs (.psArmZ c) s (fun t => t.ps[c] = { s.ps[c] with armed := true } ∧ t.ps[1 - c] = s.ps[1 - c] ∧ Only [.ps] s t) ∧
    (∀ v : Word, (psCmpOk (s.ps[c]).cpr v = true → Runs (.psCmpWrite src c v) s fun t =>
        t.ps[c] = { s.ps[c] with cmp := v &&& 0xF0FFFFFF, cmpOld := some (s.mono, (s.ps[c]).cmpAt s.mono) } ∧ t.ps[1 - c] = s.ps[1 - c] ∧ Only [.ps] s t) ∧
      (psCmpOk (s.ps[c]).cpr v = false → Runs (.psCmpWrite src c v) s fun t => t.sys.werr.reason = 9 ∧ Only [.sys] s t)) ∧
    (∀ p : Bool, psCounts s c = true →
      Runs (.psCrumb src c p) s (fun t => t.tst.st = (if p then 2 else 3) ∧ t.tst.face = 3 ∧ t.tst.depth = 1 ∧
        t.tst.chan = c.val ∧ Only [.tst, .evr] s t) ∧
      Runs (.psBarrier src c p) s (fun t => t.tst.st = (if p then 2 else 3) ∧ t.tst.face = 3 ∧ t.tst.depth = 2 ∧
        t.tst.chan = c.val ∧ Only [.tst, .evr] s t)) ∧
    (∀ b : Bool, Runs (.psBlockStop b) s fun t => t.psBlk.stop = b ∧ Only [.ps, .psBlk, .evr] s t) ∧
    (s.ps[c].rateAt + ms 100 ≤ s.mono → Runs (.psDiagClear c 0) s fun t => t.ps[c] = (s.ps[c]).cond 0 false ∧
      t.ps[1 - c] = s.ps[1 - c] ∧ Only [.ps, .evr] s t) ∧
    (psCounts s c = true → (recent (ms 100) s.mono s.ps[c].rejects).length = 10 → Runs (.psPulseRejected c) s fun t =>
      t.ps[c].dstat = ((s.ps[c]).cond 1 true).dstat ∧ t.ps[1 - c] = s.ps[1 - c] ∧ Only [.ps, .evr] s t)

/-- The point pipeline's rows between scans (R94, R218, R225, R230, R233, R234). -/
def Obligations.DelaysExpireForTheNextScan : Prop :=
  ∀ (s : State),
    (∀ n : Fin 80,
      (s.pev.pts[n].stage = .onDelay →
        Runs (.onDelayExpiry n) s (fun t => t.pev.pts[n] = { s.pev.pts[n] with due := true } ∧ Only [.pev] s t) ∧
        Runs (.offDelayExpiry n) s (fun t => t = s)) ∧
      (s.pev.pts[n].stage = .offDelay →
        Runs (.offDelayExpiry n) s (fun t => t.pev.pts[n] = { s.pev.pts[n] with due := true } ∧ Only [.pev] s t) ∧
        Runs (.onDelayExpiry n) s (fun t => t = s)) ∧
      (s.pev.pts[n].relEnd.isSome = true → Runs (.releaseDelayExpiry n) s fun t =>
        t.pev.pts[n] = { s.pev.pts[n] with relDue := true } ∧ Only [.pev] s t) ∧
      (s.pev.pts[n].faultSince.isSome = true → Runs (.faultDelayExpiry n) s fun t =>
        t.pev.pts[n] = { s.pev.pts[n] with faultDue := true } ∧ Only [.pev] s t) ∧
      (n.val < 40 → s.ptUsed n.val = true → Runs (.staleTimeout n) s fun t =>
        t.pev.pts[n] = { s.pev.pts[n] with stale := true } ∧ Only [.pev] s t ∧
        ∀ m : Fin 80, m ≠ n → t.pev.pts[m] = s.pev.pts[m])) ∧
    (s.sys.inhEnd.isSome = true → Runs .startInhibitEnd s fun t => t.sys.inhEnd = none ∧ Only [.sys, .pev] s t) ∧
    (∀ (src : Source) (k : Fin 128) (op : Nat) (x : Instr),
      ((x = .ptCmdOos src k ∧ op = 1) ∨ (x = .ptCmdRts src k ∧ op = 2) ∨ (x = .ptCmdSubst src k ∧ op = 3)) →
        (s.standby = false → s.pev.cmd = none → Runs x s fun t => Only [.pev, .lvn] s t ∧ t.pev = { s.pev with
          cmd := some { op := op, slot := k.val, subst := s.pev.subst, org := s.originOf src } }) ∧
        (s.standby = false → s.pev.cmd.isSome = true → Runs x s fun t =>
          t.pev = { s.pev with resOp := op, resCode := 6, resSlot := k.val } ∧ Only [.pev] s t) ∧
        (s.standby = true → Runs x s fun t =>
          t.pev = { s.pev with resOp := op, resCode := 2, resSlot := k.val } ∧ Only [.pev] s t))

/-- SCAN_START (R201, R214, R215, R247, R364). -/
def Obligations.ABaseScanRuns : Prop :=
  ∀ (s : State) (dur : Half),
    (scanLive s = true → s.pev.minStart ≤ scanDue s → s.standby = false → ∃ t : State, exec (.scanStart dur) s = .next t ∧
      t.pev.lastDur = dur ∧ t.pending = s.pending ∧ t.mono = s.mono ∧ t.lvn.replay = false ∧
      (s.lvn.replay = false → t.pev.num = s.pev.num + 1 ∧ t.pev.start = scanDue s ∧ t.pev.minStart = scanDue s + 1 ∧
        t.pev.period = s.scanCode ∧ t.pev.cmd = none ∧ t.ann.queue = [] ∧ t.now = s.now ∧
        (regionUp rACQ s = true → t.ps = (psSnapshot (scanDue s) s).ps) ∧
        t.pev.table = Vector.ofFn fun i => pointRecord t i.val)) ∧
    (scanLive s = true → s.pev.minStart ≤ scanDue s → s.standby = true → ∃ t : State, exec (.scanStart dur) s = .next t ∧
      t.pev = { s.pev with minStart := scanDue s + 1 } ∧ t.ann = s.ann ∧ t.ao = s.ao ∧ t.grp = s.grp ∧
      (∀ c : Fin 16, t.dio[c] = { s.dio[c] with changing := t.dio[c].changing }) ∧
      (regionUp rACQ s = true → t.ps = (psSnapshot (scanDue s) s).ps)) ∧
    (scanLive s = false ∨ scanDue s < s.pev.minStart → exec (.scanStart dur) s = .next s)

/-- The rows of annunciation and groups (R257, R260, R261, R268, R271). -/
def Obligations.AnnunciationCommandsAreQueued : Prop :=
  ∀ (s : State),
    (∀ (src : Source) (sc : Fin 4) (tg : BitVec 23) (op : Nat) (x : Instr),
      ((x = .almCmdAck src sc tg ∧ op = 1) ∨ (x = .almCmdSilence src sc tg ∧ op = 2) ∨ (x = .almCmdShelve src sc tg ∧ op = 3) ∨
        (x = .almCmdUnshelve src sc tg ∧ op = 4) ∨ ∃ k : Fin 8, x = .almCmdBadOp src k sc tg ∧ op = k.val ∧ 5 ≤ k.val) →
      (s.ann.pend = false → s.standby = false → s.ann.queue.length < 32 → Runs x s fun t =>
        t.ann = { s.ann with pend := true, queue := s.ann.queue ++ [.mk op sc.val tg.toNat s.ann.arg true (s.originOf src) 0 []] } ∧ Only [.ann, .lvn] s t) ∧
      (s.ann.pend = true → Runs x s fun t =>
        t.ann = { s.ann with resOp := op, resCode := 6, resCount := 0 } ∧ Only [.ann] s t) ∧
      (s.ann.pend = false → s.standby = true → Runs x s fun t =>
        t.ann = { s.ann with resOp := op, resCode := 4, resCount := 0 } ∧ Only [.ann] s t)) ∧
    (∀ n : Fin 80, (bit s.pev.pts[n].flags 6 = true → Runs (.shelveExpiry n) s fun t =>
        t.pev.pts[n] = { s.pev.pts[n] with shlvDue := true } ∧ (∀ m : Fin 80, m ≠ n → t.pev.pts[m] = s.pev.pts[m]) ∧
        Only [.pev] s t) ∧
      (bit s.pev.pts[n].flags 6 = false → Runs (.shelveExpiry n) s fun t => t = s)) ∧
    (∀ g : Fin 1024, (s.grp.get g.val).epi.isSome = true → g.val < s.grpCount →
      (∃ a ∈ grpMembers s g.val, inEpisode (memView s a).st = true) → Runs (.foSettleExpiry g) s fun t =>
        (t.grp.get g.val).settled = true ∧ Only [.grp, .evr] s t ∧
        ((∀ a ∈ grpMembers s g.val, (memView s a).st ≠ 1) → (t.grp.get g.val).prov = false))

/-- The operations that ANN makes of commands and results (R251, R256, R261, R262). -/
def Obligations.AnnunciationActsOnItsPoint : Prop :=
  ∀ (s : State) (n : Fin 80) (org : Origin),
    (bit s.pev.pts[n].flags 2 = true → s.pev.pts[n].tUnack ≤ org.ack → bit s.pev.pts[n].flags 5 = false →
      (annAck n org s).pev.pts[n].flags = flagPut s.pev.pts[n].flags 2 false ∧
      (annAck n org s).ann.seq = (if s.standby then s.ann.seq else s.ann.seq + 1)) ∧
    (bit s.pev.pts[n].flags 2 = true → org.ack < s.pev.pts[n].tUnack → bit s.pev.pts[n].flags 5 = false →
      annAck n org s = s) ∧
    (∀ m : Nat, bit s.pev.pts[n].flags 6 = false →
      bit (annShelve n m org s).pev.pts[n].flags 6 = true ∧
      (annShelve n m org s).pev.pts[n].shlvEnd = org.ack + m * sec 60 ∧ (annShelve n m org s).ann.seq = (if s.standby then s.ann.seq else s.ann.seq + 1)) ∧
    (bit s.pev.pts[n].flags 6 = true → bit (annUnshelve n org s).pev.pts[n].flags 6 = false ∧
      (annUnshelve n org s).ann.seq = (if s.standby then s.ann.seq else s.ann.seq + 1)) ∧
    (∀ (onset cause : Nat), s.ptCat n.val ≠ 0 → s.pev.pts[n].flags = 0 →
      (annResult s { slot := n, ev := 3, onset := onset, cause := cause }).pev.pts[n].flags = 0x06 ∧
      (annResult s { slot := n, ev := 3, onset := onset, cause := cause }).pev.pts[n].tUnack = s.pev.start ∧
      (annResult s { slot := n, ev := 3, onset := onset, cause := cause }).ann.seq = (if s.standby then s.ann.seq else s.ann.seq + 1))

/-- The call rows (R283, R286 to R289). -/
def Obligations.CallSessionsAdvanceByTheirRows : Prop :=
  ∀ (s : State),
    (∀ (n : Fin 257) (st : Nat) (x : Instr),
      ((x = .callT1Expiry n ∧ st = 1) ∨ (x = .callT2Expiry n ∧ st = 2) ∨ (x = .callT3Expiry n ∧ st = 4) ∨
        (x = .callClearedExpiry n ∧ st = 5)) →
      ((s.call.get n.val).st = st → Runs x s fun t =>
        t.call.get n.val = { s.call.get n.val with due := true } ∧ Only [.call] s t) ∧
      ((s.call.get n.val).st ≠ st → Runs x s fun t => t = s)) ∧
    (∀ n : Fin 257, callActive s = true →
      (1 ≤ (s.call.get n.val).st → (s.call.get n.val).st ≤ 4 → Runs (.callStepRepeat n) s fun t =>
        t.call.get n.val = { s.call.get n.val with dutySent := dutyByte s } ∧ Only [.call, .can, .evr] s t) ∧
      ((s.call.get n.val).st = 5 → Runs (.callClearRepeat n) s fun t =>
        t.call.get n.val = { s.call.get n.val with dutySent := dutyByte s } ∧ Only [.call, .can, .evr] s t)) ∧
    (∀ u : Fin 64, callActive s = true → regionUp rLNK s = true → unitKind s u.val ≠ 0 → unitLost s u.val = false →
      Runs (.callUnitLost u) s fun t => (∀ c : Call, c = { s.call with lost := s.call.lost ||| BitVec.ofNat 64 (2 ^ u.val), unitLoss := satInc 255 s.call.unitLoss } → t.call = c) ∧ Raised 319 (unitWord u.val true) s t ∧ Only [.call, .evr] s t) ∧
    (∀ (src : Source) (e : BitVec 5) (k : BitVec 9),
      (callOn s = false → ∀ x : Instr, (x = .callCmdSelectDuty src e k ∨ x = .callCmdAckCall src e k ∨ x = .callCmdBadOp src k) →
        Runs x s fun t => t.call.resCode = 6 ∧ t.call.resSess = k.toNat ∧ t.call.cmds = s.call.cmds ∧ Only [.call] s t) ∧
      (callOn s = true → s.standby = false → s.call.pend = false →
        Runs (.callCmdSelectDuty src e k) s (fun t => t.call.pend = true ∧ t.call.cmds = s.call.cmds ++
          [.mk 1 (if e.toNat = 0x1F then 0xFF else e.toNat) k.toNat (callSrcCode src) 0 true (s.originOf src) 0] ∧ Only [.call, .lvn] s t) ∧
        Runs (.callCmdAckCall src e k) s (fun t => t.call.pend = true ∧ t.call.cmds = s.call.cmds ++
          [.mk 2 (if e.toNat = 0x1F then 0xFF else e.toNat) k.toNat (callSrcUnit src) 0 true (s.originOf src) 0] ∧ Only [.call, .lvn] s t) ∧
        Runs (.callCmdBadOp src k) s (fun t => t.call.resOp = 3 ∧ t.call.resCode = 7 ∧ t.call.cmds = s.call.cmds ∧
          Only [.call] s t)))

/-- EVR_RECORD_WRITE, where the router answers, the slot at the write index is free and `n` is the next source: the record
goes into the ring, the slot is unclaimed, the index advances and the source is drained (R458, R459). -/
def Obligations.EventRouterWritesARecord : Prop :=
  ∀ (s : State) (h : Fin 2) (n : Fin 512), evrUp s = true →
    (s.evr.hosts[h]).slotBusy (s.evr.hosts[h]).write = false → nextSource s.evr h = some n →
    Runs (.evrRecordWrite h) s fun t =>
      t.evr.hosts[h].ring = tblPut {} s.evr.hosts[h].ring s.evr.hosts[h].write (recordOf n.val s.evr.srcs[n]) ∧
      t.evr.hosts[h].unclaimed = s.evr.hosts[h].unclaimed ++ [(s.evr.hosts[h]).write] ∧
      t.evr.hosts[h].write = (s.evr.hosts[h].write + 1) % 1024 ∧
      t.evr.srcs[n] = EvrSrc.drained s.evr.srcs[n] ∧ t.evr.hosts[1 - h] = s.evr.hosts[1 - h] ∧
      ∀ m : Fin 512, m ≠ n → t.evr.srcs[m] = s.evr.srcs[m]

/-- EVR_CLAIM with a record and room on the stack, EVR_CLAIM with no record, EVR_EOI with and without an open claim, and
EVR_HOLDOFF_EXPIRY, all where the router answers (R460, R461, R464). -/
def Obligations.EventRouterClaimsAndEnds : Prop :=
  (∀ (s : State) (h : Fin 2) (i : Nat) (rest : List Nat), evrUp s = true → s.evr.hosts[h].unclaimed = i :: rest →
    s.evr.hosts[h].stack.length < 8 → (tblGet ({} : RingRec) s.evr.hosts[h].ring i).withdrawn = false →
    Runs (.evrClaim h) s fun t =>
      t.evr.hosts[h].unclaimed = rest ∧ t.hp[h].idle = false ∧
      t.evr.hosts[h].stack = (max ((s.evr.hosts[h]).running.getD 0) (tblGet ({} : RingRec) s.evr.hosts[h].ring i).pri, i) ::
        s.evr.hosts[h].stack ∧
      t.evr.hosts[h].lastClaim = claimWord s.evr.hosts[h] i (tblGet ({} : RingRec) s.evr.hosts[h].ring i).pri
        (tblGet ({} : RingRec) s.evr.hosts[h].ring i).src) ∧
  (∀ (s : State) (h : Fin 2), evrUp s = true → s.evr.hosts[h].unclaimed = [] →
    Runs (.evrClaim h) s fun t => t.evr.hosts[h].spurious = satInc 255 s.evr.hosts[h].spurious ∧
      t.evr.hosts[h].stack = s.evr.hosts[h].stack ∧ t.hp[h].idle = false) ∧
  (∀ (s : State) (h : Fin 2) (p : Nat × Nat) (l : List (Nat × Nat)), evrUp s = true → s.evr.hosts[h].stack = p :: l →
    Runs (.evrEoi h) s fun t => t.evr.hosts[h].stack = l ∧ t.evr.hosts[h].badEoi = s.evr.hosts[h].badEoi) ∧
  (∀ (s : State) (h : Fin 2), evrUp s = true → s.evr.hosts[h].stack = [] →
    Runs (.evrEoi h) s fun t => t.evr.hosts[h].stack = [] ∧
      t.evr.hosts[h].badEoi = satInc 255 s.evr.hosts[h].badEoi) ∧
  (∀ (s : State) (h : Fin 2), evrUp s = true → s.evr.hosts[h].window.isSome = true →
    s.evr.hosts[h].unclaimed.isEmpty = false →
    Runs (.evrHoldoffExpiry h) s fun t => t.sys.pins.intLow[h] = true ∧ t.evr = s.evr)

/-- While HOLD is 1 no record is written, sources latch and records can be claimed; when it returns to 0 delivery resumes
(R457). Beside that, the masked writes on each source they address and on each other one, the hold bit, and a plain change of
target (R454, R456, R462). -/
def Obligations.EventRouterEnablesAndHolds : Prop :=
  ∀ (s : State), evrUp s = true →
    (∀ (n : Fin 16) (mask : Word) (m : Fin 512),
      (inMask n mask m.val = true →
        (∀ w : Source, Runs (.evrEnSet w n mask) s fun t =>
          t.evr.srcs[m] = if targetUnused s s.evr.srcs[m] then s.evr.srcs[m] else { s.evr.srcs[m] with en := true }) ∧
        Runs (.evrEnClr n mask) s (fun t => t.evr.srcs[m] = { s.evr.srcs[m] with en := false }) ∧
        Runs (.evrPndSet n mask) s (fun t => t.evr.srcs[m] = { (s.evr.srcs[m]).occur 0 s.stamp with soft := true }) ∧
        Runs (.evrPndClr n mask) s (fun t => t.evr.srcs[m] = (s.evr.srcs[m]).drained)) ∧
      (inMask n mask m.val = false →
        (∀ w : Source, Runs (.evrEnSet w n mask) s fun t => t.evr.srcs[m] = s.evr.srcs[m]) ∧
        Runs (.evrEnClr n mask) s (fun t => t.evr.srcs[m] = s.evr.srcs[m]) ∧
        Runs (.evrPndSet n mask) s (fun t => t.evr.srcs[m] = s.evr.srcs[m]) ∧
        Runs (.evrPndClr n mask) s (fun t => t.evr.srcs[m] = s.evr.srcs[m]))) ∧
    (∀ b : Bool, Runs (.evrHoldWrite b) s fun t => t.evr = { s.evr with hold := b }) ∧
    (∀ (src : BitVec 9) (g : Fin 2), srcReserved src.toNat = false → targetRefused s src.toFin g = false →
      s.evr.srcs[src.toFin].target ≠ g →
      unclaimedCount s.evr.hosts[s.evr.srcs[src.toFin].target] src.toNat = none →
      Runs (.evrTargetChange src g) s fun t => t.evr.srcs[src.toFin] = { s.evr.srcs[src.toFin] with target := g } ∧
        t.evr.hosts = s.evr.hosts) ∧
    (∀ (src : BitVec 9) (g : Fin 2), srcReserved src.toNat = false → targetRefused s src.toFin g = true →
      Runs (.evrTargetChange src g) s fun t => t.evr = s.evr ∧ t.sys.werr.reason = 9) ∧
    (s.evr.hold = true →
      (∀ h : Fin 2, Runs (.evrRecordWrite h) s fun t => t = s) ∧
      (∀ (n : Fin 512) (w : Word), srcReserved n.val = false →
        (raise n.val w s).evr.srcs[n] = (s.evr.srcs[n]).occur w s.stamp ∧ (raise n.val w s).evr.hosts = s.evr.hosts) ∧
      (∀ (h : Fin 2) (k : Nat) (rest : List Nat), s.evr.hosts[h].unclaimed = k :: rest → s.evr.hosts[h].stack.length < 8 →
        Runs (.evrClaim h) s fun t => t.evr.hosts[h].unclaimed = rest ∧ t.evr.hold = true) ∧
      Runs (.evrHoldWrite false) s fun t => ∀ (h : Fin 2) (n : Fin 512),
        (t.evr.hosts[h]).slotBusy t.evr.hosts[h].write = false → nextSource t.evr h = some n →
        Runs (.evrRecordWrite h) t fun u => u.evr.hosts[h].unclaimed = t.evr.hosts[h].unclaimed ++ [t.evr.hosts[h].write] ∧
          u.evr.srcs[n] = EvrSrc.drained t.evr.srcs[n])

/-- HOST_WRITE, HOST_READ of one word, HOST_SLEEP_CHANGE, HOST_IDLE_DOORBELL and HOST_DOORBELL (R442, R443, R445, R452,
R453). -/
def Obligations.HostTransactionsAreTaken : Prop :=
  (∀ (s : State) (h : Fin 2) (m : Bool) (b : List Byte), hostUp s h = true → s.sys.power ≠ .doze → b ≠ [] →
    hdrWrite b = true → hdrCrc b = false → s.hp[h].crcReq = false → b.length = 4 + 4 * hdrCount b →
    (hdrAddr b).toNat % 4 = 0 → s.hp[h].held.length < 2 →
    Runs (.hostWrite h m b) s fun t =>
      t.hp[h].held = s.hp[h].held ++ [{ seq := s.hp[h].seq + 1, addr := hdrAddr b, words := wordsOf (hdrCount b) b }] ∧
      t.hp[h].seq = s.hp[h].seq + 1 ∧ t.hp[h].mode3 = m ∧ t.sys = s.sys ∧ t.evr = s.evr) ∧
  (∀ (s : State) (h : Fin 2) (m : Bool) (b : List Byte), hostUp s h = true → s.hp[h].held = [] → s.sys.power ≠ .doze →
    b.length = 4 → hdrWrite b = false → hdrCrc b = false → s.hp[h].crcReq = false → hdrCount b = 1 →
    (hdrAddr b).toNat % 4 = 0 →
    Runs (.hostRead h m b) s fun t => t.hp[h].reply = replyBytes false false
      [((busFetch (hdrAddr b).toNat (hostSelect h m s)).1, (busFetch (hdrAddr b).toNat (hostSelect h m s)).2.1)]) ∧
  (∀ (s : State) (h : Fin 2) (b : Bool), s.powered = true →
    Runs (.hostSleepChange h b) s (fun t => t.hp[h].slp = b ∧ t.hp[h].idle = s.hp[h].idle ∧ t.evr = s.evr) ∧
    Runs (.hostIdleDoorbell h b) s (fun t => t.hp[h].idle = b ∧ t.hp[h].slp = s.hp[h].slp ∧ t.evr = s.evr)) ∧
  (∀ (s : State) (b : Bool) (w : Word), s.powered = true →
    Runs (.hostDoorbell b w) s fun t =>
      t.evr.srcs[if b then (51 : Fin 512) else 50] = (s.evr.srcs[if b then (51 : Fin 512) else 50]).occur w s.stamp)

/-- PT_SUBST written over each path, and REGISTER_WRITE out of reach (R47, R225, R445, R448, R450). -/
def Obligations.RegisterWritesAct : Prop :=
  (∀ (s : State) (src : Source) (v : Word), s.powered = true → reach s 0x040014 = 0 →
    Runs (.registerWrite src 0x040014 v) s fun t => t.pev.subst = v ∧ t.pev.pts = s.pev.pts ∧ t.evr = s.evr) ∧
  (∀ (s : State) (src : Source) (a : BitVec 24) (v : Word), a.toNat % 4 = 0 → reach s a.toNat ≠ 0 →
    Runs (.registerWrite src a v) s fun t => t = s) ∧
  (∀ (s : State) (h : Fin 2) (q : Half) (v : Word) (l : List HeldWrite), s.powered = true → reach s 0x040014 = 0 →
    s.hp[h].held = { seq := q, addr := 0x040014, words := [v] } :: l →
    Runs (.hostWriteApply h) s fun t => t.pev.subst = v ∧ t.hp[h].held = l ∧ t.hp[h].lwSeq = q ∧ t.hp[h].lwCode = 0 ∧
      t.evr = s.evr)

/-- FABRIC_REQUEST with an event, FABRIC_RESPONSE with OK, FABRIC_TIMEOUT of an idempotent request, SEQ_QUERY and
BUSY_RESEND (R41, R47, R48, R50, R51). -/
def Obligations.FabricRequestsAreServed : Prop :=
  (∀ (s : State) (q : FabReq) (src : BitVec 9) (w : Word), fabLive s = true → q.op = .event src w →
    srcReserved src.toNat = false → q.target = 0x24 → regionUp rFCE s = true → fabFind q.requester q.tag s = none →
    fabCount q.requester s < 16 → blockKnown q.requester = true →
    Runs (.fabricRequest q false false false) s (fun t =>
      t.evr.srcs[src.toFin] = (s.evr.srcs[src.toFin]).occur w s.stamp ∧ t.sys = s.sys ∧ t.evr.hosts = s.evr.hosts) ∧
    Runs (.fabricRequest q false false true) s fun t =>
      (fabFind q.requester q.tag t).map FabOut.stat = some .inFlight ∧ Only [.fab] s t) ∧
  (∀ (s : State) (r : BitVec 6) (tag : Byte) (o : FabOut) (d : Word), fabLive s = true → fabFind r tag s = some o →
    o.stat = .replied 0 d →
    Runs (.fabricResponse r tag false) s fun t => t.fab.lastReply = some (o.req, 0, d) ∧
      t.fab.out = s.fab.out.filter (fun p => !p.named o.req.requester o.req.tag) ∧ t.sys = s.sys) ∧
  (∀ (s : State) (r : BitVec 6) (tag : Byte) (o : FabOut), fabLive s = true → fabFind r tag s = some o →
    o.stat = .inFlight → reqIdem o.req = true → o.tries < 2 → blockRegion o.req.target = none →
    Runs (.fabricTimeout r tag) s fun t => t.sys = s.sys ∧ t.fab.out = s.fab.out.map fun p =>
      if p.named o.req.requester o.req.tag then { o with stat := .resend, tries := o.tries + 1, last := 3 } else p) ∧
  (∀ (s : State) (r g : BitVec 6), fabLive s = true →
    Runs (.seqQuery r g) s fun t => t.sys = s.sys ∧
      ∀ o ∈ t.fab.out, ¬(o.stat = .waitSeq ∧ o.req.requester = r ∧ o.req.target = g)) ∧
  (∀ (s : State) (r : BitVec 6) (tag : Byte) (o : FabOut), fabLive s = true → fabFind r tag s = some o →
    o.stat = .waitBusy →
    Runs (.busyResend r tag) s fun t => t.sys = s.sys ∧ t.fab.out = s.fab.out.map fun p =>
      if p.named o.req.requester o.req.tag then { o with stat := .resend } else p)

/-- GRANT_HOLD_OVERRUN, REQUEST_DEADLINE_MISS, READMISSION_TEST and CELL_READMIT (R43, R44). -/
def Obligations.CellFaultsIsolateTheCell : Prop :=
  (∀ (s : State) (b : BitVec 6) (c : Byte) (par : Bool), fabLive s = true → blockKnown b = true → blockUp b s = true →
    isIsolated b.toNat c.toNat s = false →
    Runs (.grantHoldOverrun b c true) s (fun t => t.sys.isolated = s.sys.isolated ∧
      (∀ n : Fin 80, n.val ∈ cellSlots b.toNat c.toNat → t.pev.pts[n].pq = 4) ∧ (s.sys.fltLatched = false →
      t.sys.fltLast = { level := 0, block := b.toNat, cell := c.toNat, cause := 3, time := s.stamp })) ∧
    Runs (.grantHoldOverrun b c false) s (fun t => isIsolated b.toNat c.toNat t = true) ∧
    Runs (.requestDeadlineMiss b c par true) s (fun t => t.sys.isolated = s.sys.isolated ∧ (s.sys.fltLatched = false →
      t.sys.fltLast = { level := 0, block := b.toNat, cell := c.toNat, cause := if par then 1 else 4, time := s.stamp })) ∧
    Runs (.requestDeadlineMiss b c par false) s (fun t => isIsolated b.toNat c.toNat t = true)) ∧
  (∀ (s : State) (b : BitVec 6) (c : Byte), fabLive s = true → isIsolated b.toNat c.toNat s = true →
    Runs (.readmissionTest b c true) s (fun t => isIsolated b.toNat c.toNat t = false ∧
      ∀ p ∈ s.sys.isolated, p ≠ (b.toNat, c.toNat) → p ∈ t.sys.isolated) ∧
    Runs (.readmissionTest b c false) s (fun t => t = s)) ∧
  (∀ (s : State) (b : BitVec 6) (m : BitVec 16), fabLive s = true → b.toNat < 6 → regionUp rACQ s = true →
    Runs (.cellReadmit b m) s fun t => (∀ i < 16, bit m i = true → isIsolated b.toNat i t = false) ∧ t.ui = s.ui)

/-- SUPERVISOR_WATCHDOG_EXPIRY, FABRIC_ROOT_ERROR, PLL_LOSS, TESTMODE_HIGH and READY_LIMIT_EXPIRY (R33, R52, R57, R58). -/
def Obligations.SupervisorFaultsEnterTheSafeState : Prop :=
  ∀ (s : State), fabLive s = true → s.sys.mode ≠ .safe → s.sys.mode ≠ .lastBreath →
    ∀ c : Instr, (c = .supervisorWatchdogExpiry ∨ (∃ b, c = .fabricRootError b) ∨ c = .pllLoss ∨ c = .testmodeHigh ∨
        ∃ r, readyDue r s = true ∧ c = .readyLimitExpiry r) →
      Runs c s fun t => t.sys.mode = .safe ∧ t.sys.power = .safe ∧ t.sys.fltLatched = true ∧ t.sys.pins.faultLow = true ∧
        t.pev.running = false

/-- REGION_WATCHDOG_EXPIRY, SYS_RGN_RESET, SYS_RGN_HOLD, REGION_READY and SCRUB_PASS (R40, R52, R53, R57). -/
def Obligations.RegionsResetAndReturn : Prop :=
  (∀ (s : State) (r : Fin 5), fabLive s = true → regionUp r s = true →
    Runs (.regionWatchdogExpiry r) s fun t =>
      t.sys.regions[r].st = if s.sys.regions[r].hold then .held else .inReset) ∧
  (∀ (s : State) (r : Fin 5) (same : Bool), readyDue r s = true →
    Runs (.regionReady r same) s fun t => t.sys.regions[r].st = .ready ∧
      t.sys.regions[r].resets = s.sys.regions[r].resets + (if s.sys.regions[r].wasReset then 1 else 0)) ∧
  (∀ (s : State) (m : BitVec 5), s.powered = true →
    Runs (.sysRgnHold .chip m) s fun t => ∀ r : Fin 5, t.sys.regions[r].hold = bit m r.val) ∧
  (∀ (s : State) (m : BitVec 5) (r : Fin 5), s.powered = true → bit m r.val = true → regionUp r s = true →
    Runs (.sysRgnReset .chip m) s fun t => regionUp r t = false) ∧
  (∀ (s : State) (n : Half), fabLive s = true →
    Runs (.scrubPass n []) s fun t =>
      t = { s with sys := { s.sys with cntCorr := min 0xFFFF (s.sys.cntCorr + n.toNat) } }) ∧
  (∀ (s : State) (h : Fin 2) (i : Fin 1024), fabLive s = true → Runs (.scrubPass 0 [.ringRecord h i]) s fun t =>
    t.evr.hosts[h].ring = tblPut {} s.evr.hosts[h].ring i.val
      { tblGet {} s.evr.hosts[h].ring i.val with corrupt := true, payload := 0 } ∧ t.evr.srcs = s.evr.srcs) ∧
  (∀ (s : State) (sec' : Byte), fabLive s = true → s.sys.secErrs = [] → Runs (.scrubPass 0 [.activeBank sec']) s fun t =>
    sec'.toNat ∈ t.sys.reloading ∧ t.sys.mode = s.sys.mode ∧ Only [.sys] s t) ∧
  (∀ (s : State), fabLive s = true → (shadow s).st = .valid → Runs (.scrubPass 0 [.shadowBank]) s fun t =>
    (shadow t).st = .invalid ∧ t.activeBank = s.activeBank)

/-- The transmit rows of the controllers (R305 to R308, R313). -/
def Obligations.TransmitBuffersCompleteWithTheirResult : Prop :=
  ∀ (s : State) (k : Fin 4) (b : Fin 32) (src : Source), canPresent s k = true →
    (src = .chip ∨ 28 ≤ b.val →
      (bit s.can[k].txPend b.val = false → canQuiet s = false →
        (canBadId s k b.val = false → Runs (.canTxRequest src k (bufBit b.val)) s fun t =>
          t.can[k] = { s.can[k] with ram := memPut (memPut s.can[k].ram (txOff b.val + 16) 0) (txOff b.val + 17) 0, txPend := s.can[k].txPend ||| bufBit b.val } ∧
          (∀ j : Fin 4, j ≠ k → t.can[j] = s.can[j]) ∧ Only [.can] s t) ∧
        (canBadId s k b.val = true → Runs (.canTxRequest src k (bufBit b.val)) s fun t =>
          memGet t.can[k].ram (txOff b.val + 16) = 4 ∧ bit t.can[k].txPend b.val = false ∧
          (∀ j : Fin 4, j ≠ k → t.can[j] = s.can[j]) ∧ Only [.can, .evr] s t)) ∧
      (bit s.can[k].txPend b.val = true → ∀ o : Option (Fin 32),
        (o ≠ some b → Runs (.canTxAbort src k (bufBit b.val) o) s fun t =>
          memGet t.can[k].ram (txOff b.val + 16) = 2 ∧ bit t.can[k].txPend b.val = false ∧
          (∀ j : Fin 4, j ≠ k → t.can[j] = s.can[j]) ∧ Only [.can, .evr] s t) ∧
        (o = some b → Runs (.canTxAbort src k (bufBit b.val) o) s fun t =>
          t.can[k] = { s.can[k] with abortReq := s.can[k].abortReq ||| bufBit b.val } ∧
          (∀ j : Fin 4, j ≠ k → t.can[j] = s.can[j]) ∧ Only [.can] s t))) ∧
    (src ≠ .chip → b.val < 28 → ∀ o : Option (Fin 32), ∀ x : Instr,
      (x = .canTxRequest src k (bufBit b.val) ∨ x = .canTxAbort src k (bufBit b.val) o) → Runs x s fun t =>
        t.sys.werr.reason = 7 ∧ Only [.sys] s t) ∧
    (bit s.can[k].txPend b.val = true → (s.can[k]).onBus = true → canTxMode s.can[k].mode = true →
      imzOpen s = false → bit s.can[k].abortReq b.val = false →
      (∀ age : Nat, s.can[k].mode = 1 → Runs (.canTxAttemptEnd k b .sent none age) s fun t =>
        memGet t.can[k].ram (txOff b.val + 16) = 1 ∧ bit t.can[k].txPend b.val = false ∧
        t.can[k].tec = s.can[k].tec - 1 ∧ t.can[k].alone = false ∧ (∀ j : Fin 4, j ≠ k → t.can[j] = s.can[j]) ∧
        Only [.can, .evr, .imz, .tim] s t) ∧
      (∀ age : Nat, Runs (.canTxAttemptEnd k b .parity none age) s fun t =>
        memGet t.can[k].ram (txOff b.val + 16) = 5 ∧ bit t.can[k].txPend b.val = false ∧
        (∀ j : Fin 4, j ≠ k → t.can[j] = s.can[j]) ∧ Only [.can, .evr, .imz] s t) ∧
      (∀ age : Nat, (s.can[k]).txArbCnt b.val = true →
        ((s.can[k]).failures b.val < 31 → (s.can[k]).txRetry b.val ≤ (s.can[k]).failures b.val →
          Runs (.canTxAttemptEnd k b .lost none age) s fun t =>
          memGet t.can[k].ram (txOff b.val + 16) = 3 ∧ bit t.can[k].txPend b.val = false ∧
          Raised ⟨38 + k.val, by omega⟩ (put 0 4 6 ||| put 4 4 s.can[k].st ||| put 8 8 b.val) s t ∧ Only [.can, .evr, .imz] s t) ∧
        ((s.can[k]).failures b.val < (s.can[k]).txRetry b.val → Runs (.canTxAttemptEnd k b .lost none age) s fun t =>
          bit t.can[k].txPend b.val = true ∧ (t.can[k]).failures b.val = (s.can[k]).failures b.val + 1 ∧
          Only [.can, .imz] s t)))

/-- The mode and state rows of the controllers (R305, R313, R316). -/
def Obligations.ControllersChangeModeAndState : Prop :=
  ∀ (s : State) (k : Fin 4) (src : Source), canPresent s k = true →
    (∀ m : BitVec 3, (m ≠ 7 → Runs (.canModeWrite src k m) s fun t =>
        t.can[k] = { s.can[k] with modeReq := some m.toNat } ∧ (∀ j : Fin 4, j ≠ k → t.can[j] = s.can[j]) ∧ Only [.can] s t) ∧
      (m = 7 → Runs (.canModeWrite src k m) s fun t => t.sys.werr.reason = 9 ∧ Only [.sys] s t)) ∧
    (s.can[k].modeReq = some 0 → s.can[k].mode ≠ 0 → Runs (.canModeChange k) s fun t =>
      t.can[k].mode = 0 ∧ t.can[k].st = 0 ∧ t.can[k].txPend = 0 ∧ t.can[k].alone = false ∧ t.can[k].modeReq = none ∧
      t.sys.pins.canStb[k] = true ∧ (∀ j : Fin 4, j ≠ k → t.can[j] = s.can[j]) ∧ Only [.sys, .can, .evr] s t) ∧
    (∀ m : Nat, (m = 1 ∨ m = 5 ∨ m = 6) → s.can[k].modeReq = some m → s.can[k].mode = 0 →
      Runs (.canModeChange k) s fun t => t.can[k].mode = m ∧ t.can[k].st = 1 ∧ t.can[k].tec = 0 ∧ t.can[k].recv = 0 ∧
        t.can[k].txPend = s.can[k].txPend ∧ t.sys.pins.canStb[k] = false ∧
        (∀ j : Fin 4, j ≠ k → t.can[j] = s.can[j]) ∧ Only [.sys, .can] s t) ∧
    (s.can[k].modeReq = some 2 → s.can[k].mode = 0 → Runs (.canModeChange k) s fun t =>
      t.can[k].mode = 2 ∧ t.can[k].st = 2 ∧ t.sys.pins.canStb[k] = false ∧ Only [.sys, .can] s t) ∧
    (s.can[k].st = 1 → s.can[k].tec ≤ 127 → s.can[k].recv ≤ 127 → Runs (.canIntegrated k) s fun t =>
      t.can[k] = { s.can[k] with st := 2 } ∧ Only [.can] s t) ∧
    (s.can[k].st ≠ 1 → Runs (.canIntegrated k) s fun t => t = s) ∧
    (s.can[k].st = 4 ∨ s.can[k].st = 5 → Runs (.canBusoffRecovered k) s fun t =>
      t.can[k] = { s.can[k] with st := 2, tec := 0, recv := 0 } ∧
      Raised ⟨38 + k.val, by omega⟩ (put 0 4 3 ||| put 4 4 2) s t ∧ Only [.can, .evr] s t) ∧
    (canHears s k = true → Runs (.canDominantTimeout k) s fun t =>
      t.can[k].mode = 0 ∧ isIsolated (canBlock k) 0 t = true)

/-- The reception rows of the controllers (R301, R309, R312 to R314; the counters' steps are PRESUMED, log 12). -/
def Obligations.ControllersReceiveAndCaptureErrors : Prop :=
  ∀ (s : State) (k : Fin 4), canHears s k = true → s.bare = false →
    (∀ (f : CanFrame) (age : Nat), f.base = false → f.remote = false → imzLive s = false →
      Runs (.canFrameReceived k f age false) s fun t =>
        t.can[k].head = (s.can[k].head + 1) % 64 ∧ t.can[k].frames = s.can[k].frames + 1 ∧
        t.can[k].rxNew = s.can[k].rxNew ||| BitVec.ofNat 64 (2 ^ s.can[k].head) ∧
        t.can[k].imzNew = s.can[k].imzNew ||| BitVec.ofNat 64 (2 ^ s.can[k].head) ∧ t.can[k].alone = false ∧
        t.can[k].hostOvr = (if (s.can[k].rxNew).getLsbD s.can[k].head then satInc 0xFFFF s.can[k].hostOvr else s.can[k].hostOvr) ∧
        (∀ j : Fin 4, j ≠ k → t.can[j] = s.can[j]) ∧ Only [.can, .evr, .drawn] s t) ∧
    (∀ (f : CanFrame) (age : Nat) (p : Bool), (f.base = true ∨ f.remote = true) → Runs (.canFrameReceived k f age p) s fun t =>
      t.can[k].cntForeign = satInc 255 s.can[k].cntForeign ∧ t.can[k].head = s.can[k].head ∧
      t.can[k].ram = s.can[k].ram ∧ Only [.can, .evr, .drawn] s t) ∧
    (∀ (f : CanFrame) (age : Nat), f.base = false → f.remote = false → Runs (.canFrameReceived k f age true) s fun t =>
      t.can[k].rxParity = satInc 255 s.can[k].rxParity ∧ t.can[k].head = s.can[k].head ∧
      t.can[k].ram = s.can[k].ram ∧ Only [.can, .evr, .drawn] s t) ∧
    (∀ (field type : BitVec 4) (heavy : Bool) (i : BitVec 29), type ≠ 6 → ¬ (field = 3 ∧ type = 1) →
      (s.can[k].tec + 8 ≤ 255 → ¬ (type = 5 ∧ s.can[k].st = 3) → Runs (.canError k field type true heavy i) s fun t =>
        t.can[k].tec = s.can[k].tec + 8 ∧ t.can[k].errField = field.toNat ∧ t.can[k].errType = type.toNat ∧
        t.can[k].errTx = true ∧ (∀ j : Fin 4, j ≠ k → t.can[j] = s.can[j]) ∧ Only [.can, .evr] s t) ∧
      (s.can[k].tec ≤ 255 → Runs (.canError k field type false heavy i) s fun t =>
        t.can[k].recv = min 128 (s.can[k].recv + (if heavy then 8 else 1)) ∧ t.can[k].errField = field.toNat ∧
        t.can[k].errType = type.toNat ∧ t.can[k].errTx = false ∧ (∀ j : Fin 4, j ≠ k → t.can[j] = s.can[j]) ∧
        Only [.can, .evr] s t)) ∧
    (∀ (field : BitVec 4) (tx heavy : Bool) (i : BitVec 29), (s.can[k]).pxd = false →
      Runs (.canError k field 6 tx heavy i) s fun t => t.can[k] = { s.can[k] with cntPxe := satInc 255 s.can[k].cntPxe, st := 1 } ∧
        (∀ j : Fin 4, j ≠ k → t.can[j] = s.can[j]) ∧ Only [.can, .evr] s t)

/-- How IMZ's frames enter the controllers (R306, R312, R318); a frame that finds no buffer has no copy on that bus, which
is the model's choice (log 11). -/
def Obligations.SubmittedFramesWaitInABuffer : Prop :=
  ∀ (s : State) (k : Fin 4) (f : OutFrame),
    (∀ b : Fin 32, canTxMode s.can[k].mode = true → (s.can[k]).freeBuf = some b → canQuiet s = false →
      s.can[k].alone = false → s.can[k].fdEn = true → f.id < 2 ^ 29 →
      (f.data.length = 8 ∨ f.data.length = 16 ∨ f.data.length = 24 ∨ f.data.length = 32 ∨ f.data.length = 48 ∨ f.data.length = 64) →
      ((canSubmit k f s).can[k]).txId b.val = f.id ∧ ((canSubmit k f s).can[k]).txData b.val = f.data ∧
      ((canSubmit k f s).can[k]).txFdf b.val = true ∧
      (canSubmit k f s).can[k].txPend = s.can[k].txPend ||| bufBit b.val ∧
      (∀ j : Fin 4, j ≠ k → (canSubmit k f s).can[j] = s.can[j]) ∧ Only [.can] s (canSubmit k f s)) ∧
    (canTxMode s.can[k].mode = false ∨ (s.can[k]).freeBuf = none → canSubmit k f s = s)

/-- The rows of the network's membership (R80, R272, R322 to R327, R339, R352). -/
def Obligations.NetworkMembershipKeepsItsTables : Prop :=
  ∀ (s : State),
    (imzLive s = true → 9 ≤ s.sys.step → s.imz.joined = false → s.netTop = false → Runs .networkJoin s fun t =>
      t.imz.joined = true ∧ t.imz.tokens = s.netBurst ∧ t.sys.step = (if s.sys.step = 9 then 10 else s.sys.step) ∧
      t.can[0].mode = 1 ∧ t.can[1].mode = 1 ∧ t.can[0].fdEn = true ∧ t.can[1].fdEn = true ∧
      t.can[0].nbt = s.cfgWord secNET 0 ∧ t.can[1].dbt = s.cfgWord secNET 4) ∧
    (s.imz.joined = true → imzLive s = true → s.netTop = false → Runs .addrClaimSend s fun t =>
      TookUp { id := frameId 7 (claimType s) 0 s.nodeNum, data := claimBytes s } s t ∧
      (s.imz.conflict = true → t.can[2] = s.can[2] ∧ t.can[3] = s.can[3]) ∧ Only [.can, .evr] s t) ∧
    (imzOpen s = true → s.netTop = false → (∀ k : Fin 4, beatQuiet k s = false) → Runs .heartbeatSend s fun t =>
      t.imz.hbSeq = s.imz.hbSeq + 1 ∧ (∀ b : List Byte,
        b = beatBytes (s.setImz fun z => { z with hbSeq := z.hbSeq + 1 }) false false (otherAlone 0 s) →
        Took 0 { id := frameId 7 (claimType s - 1) 0 s.nodeNum, data := b } s t) ∧ Only [.can, .evr, .imz] s t) ∧
    (∀ (f : ImzRx) (u : Bool), imzLive s = true → f.data.length = 16 → (dataNat f.data 12 1).testBit 0 = false →
      (f.src = s.nodeNum → (s.isPaired && u != s.sys.roleB) = false → claimSerial f ≠ Config.serial → s.imz.conflict = false →
        fromBelow s f = false → Runs (.addrClaimReceived f u) s fun t =>
        t.imz.conflict = true ∧ Raised 42 (put 0 4 1 ||| put 16 16 s.nodeNum.toNat) s t ∧ Only [.can, .evr, .imz] s t) ∧
      (fromBelow s f = true → Runs (.addrClaimReceived f u) s fun t => (∃ c ∈ t.imz.claims,
        c.node = dataNat f.data 14 2 ∧ c.unitB = u ∧ c.serial = claimSerial f) ∧ Only [.can, .evr, .imz] s t)) ∧
    (∀ (f : ImzRx) (u : Bool), imzLive s = true → f.data.length = 16 → (dataNat f.data 12 1).testBit 0 = true →
      s.isManager = true → Runs (.addrClaimReceived f u) s fun t => claimSerial f ∈ t.imz.bareSeen ∧
        Raised 42 (put 0 4 9 ||| put 16 16 f.src.toNat) s t ∧ Only [.can, .evr, .imz] s t) ∧
    Runs .addressConflictProbeEnd s (fun t => t.imz = { s.imz with probing := false } ∧ Only [.imz] s t) ∧
    (∀ (f : ImzRx) (u : Bool), heard 16 f s = true → fromBelow s f = true → (memberOf s f.src).isSome = true →
      s.isPaired = false → Runs (.heartbeatReceived f u) s fun t =>
        tblGet (0, 0) t.imz.beats f.src.toNat = (dataNat f.data 3 1, dataNat f.data 5 1) ∧ Only [.can, .imz] s t) ∧
    (∀ m : Fin 64, imzLive s = true → s.standby = false → s.isManager = true → m.val < s.netCount →
      bit s.imz.lost m.val = false → Runs (.memberLost m) s fun t =>
        t.imz.lost = s.imz.lost ||| BitVec.ofNat 64 (2 ^ m.val) ∧
        Raised 42 (put 0 4 2 ||| put 16 16 (s.member m.val).toNat) s t ∧ Only [.evr, .imz] s t) ∧
    (imzLive s = true → s.imz.joined = true → s.netTop = false → s.imz.mgrLost = false → Runs .mgrLost s fun t =>
      t.imz = { s.imz with mgrLost := true } ∧ Raised 42 (put 0 4 4 ||| put 16 16 s.netMgr.toNat) s t ∧
      Only [.evr, .imz] s t) ∧
    (s.sys.step = 10 → s.isPaired = false → Runs .networkTimeWaitExpiry s fun t =>
      t.sys.mode = .inService ∧ t.sys.step = 12 ∧ t.sys.pins.faultLow = false) ∧
    (s.sys.step = 10 → s.isPaired = true → Runs .networkTimeWaitExpiry s fun t =>
      t.sys = { s.sys with step := 11 } ∧ t.lvn.st = .negotiating ∧ Only [.sys, .lvn, .evr] s t) ∧
    (s.imz.queue.length < 128 → imzOpen s = true → Runs .imzResyncSend s fun t =>
      ∀ n : Fin 80, t.pev.pts[n] = { s.pev.pts[n] with resync := false })

/-- The alarm and flood rows (R265, R328, R331, R332). -/
def Obligations.AlarmFramesReachGroupsAndGoUp : Prop :=
  ∀ (s : State),
    (∀ (f : ImzRx) (e : TrEntry), fromBelow s f = true → heard 32 f s = true → e = entryOf f.data → speaksUp s = true → addrSlot e.addr < 80 →
      (s.imz.notices.all fun n => !n.isFor e.addr e.onset) = true →
      Runs (.almTransReceived f false) s fun t =>
        tblGet 0 t.imz.table (tableKey e.addr) = entryInTable e ∧
        (s.isOwn e.addr = false → (allMembers s).contains e.addr = true →
          (t.grp.mem e.addr).st = knownState e.after ∧ (t.grp.mem e.addr).cat = e.cat ∧ (t.grp.mem e.addr).rep = true) ∧
        (e.cat = 3 → t.imz.tokens = s.imz.tokens ∧ TookUp { id := frameId 1 0x10 1 f.src, data := f.data } s t) ∧
        (e.cat ≠ 3 → 0 < s.imz.tokens → t.imz.tokens = s.imz.tokens - 1 ∧
          TookUp { id := frameId 1 0x10 1 f.src, data := f.data } s t) ∧
        (e.cat ≠ 3 → s.imz.tokens = 0 → t.imz.flood = true ∧ t.imz.suppTotal = satInc 0xFFFF s.imz.suppTotal ∧
          t.can[0] = s.can[0] ∧ t.can[1] = s.can[1])) ∧
    (∀ f : ImzRx, fromBelow s f = true → heard 24 f s = true → s.isOwn (noticeAddr f) = false → (allMembers s).contains (noticeAddr f) = true →
      Runs (.almPendingReceived f false) s (fun t => (t.grp.mem (noticeAddr f)).st = 1 ∧
        ((s.grp.mem (noticeAddr f)).st ≠ 1 → (t.grp.mem (noticeAddr f)).prev = (s.grp.mem (noticeAddr f)).st)) ∧
      ((s.grp.mem (noticeAddr f)).st = 1 → stampValid (noticeOnset f) = true →
        (s.grp.mem (noticeAddr f)).onset = ticksOf (noticeOnset f) → Runs (.almRetractReceived f false) s fun t =>
        (t.grp.mem (noticeAddr f)).st = (s.grp.mem (noticeAddr f)).prev)) ∧
    (s.imz.joined = true → (s.imz.mgrLost = true ∨ s.imz.queue = []) → Runs .almFrameRelease s fun t =>
      t.imz = { s.imz with tokens := min s.netBurst (s.imz.tokens + 1) } ∧ Only [.imz] s t) ∧
    (s.imz.flood = true → speaksUp s = true → s.isManager = true → 0 < s.imz.suppNodes.length → s.imz.suppNodes.length ≤ 11 →
      Runs .floodDigestSend s fun t =>
        TookUp { id := frameId 1 0x13 1 s.nodeNum, data := floodBytes s s.imz.suppNodes } s t ∧ Only [.can, .evr] s t) ∧
    (∀ (f : ImzRx) (n c : Nat), fromBelow s f = true → heard 64 f s = true → floodEntries f = [(n, c)] → Runs (.floodDigestReceived f) s fun t =>
      t.imz.flood = true ∧ t.imz.suppTotal = satAdd 0xFFFF s.imz.suppTotal c ∧
      tblGet 0 t.imz.suppNodes n = satAdd 0xFFFF (tblGet 0 s.imz.suppNodes n) c) ∧
    (s.imz.flood = true → s.netBurst ≤ s.imz.tokens → Runs .floodEnd s fun t => t.imz.flood = false ∧ t.imz.tokens = s.imz.tokens ∧
      t.imz.suppNodes = [] ∧ t.imz.suppTotal = 0 ∧
      t.imz.askList = (s.imz.askList ++ s.imz.suppNodes.map (·.1)).drop 4 ∧ Only [.can, .evr, .imz] s t) ∧
    (speaksDown s = true → Runs .floodStateReqPace s fun t => t.imz.askList = s.imz.askList.drop 4 ∧
      t.imz.sent.length = s.imz.sent.length + min 4 s.imz.askList.length ∧ Only [.can, .evr, .imz] s t)

/-- The report, digest and call rows (R288, R319, R328 to R330). -/
def Obligations.ReportsDigestsAndCallFramesTravel : Prop :=
  ∀ (s : State) (f : ImzRx),
    (imzOpen s = true → s.activeUnit = true → Runs .pointStateSweep s fun t =>
      t.imz = { s.imz with repSeq := s.imz.repSeq + 1 } ∧ Only [.can, .evr, .imz] s t) ∧
    (∀ i : Fin 16, heard 48 f s = true → fromBelow s f = true → dataNat f.data 0 1 + 16 ≤ 80 →
      Runs (.pointStateReceived f) s fun t =>
        bit (BitVec.ofNat 16 (dataNat f.data (16 + 2 * i.val) 2) : Half) 15 = true →
        tblGet 0 t.imz.table (tableKey (pointAddr f.src (dataNat f.data 0 1 + i.val))) =
          reportedEntry (BitVec.ofNat 16 (dataNat f.data (16 + 2 * i.val) 2))) ∧
    (s.isManager = true → speaksUp s = true → Runs .digestSend s fun t =>
      TookUp { id := frameId 3 0x31 1 s.nodeNum, data := digestBytes s } s t ∧ t.imz = { s.imz with suppSec := 0 } ∧
      Only [.can, .evr, .imz] s t) ∧
    (∀ i : Nat, heard 32 f s = true → fromBelow s f = true → memberOf s f.src = some i → Runs (.digestReceived f) s fun t =>
      tblGet [] t.imz.digests i = f.data ∧ (∀ j : Nat, j ≠ i → tblGet [] t.imz.digests j = tblGet [] s.imz.digests j) ∧
      Only [.can, .imz] s t) ∧
    (heard 32 f s = true → fromAbove f = true → speaksDown s = true → Runs (.callStepReceived f) s fun t =>
      TookDown { id := frameId 2 0x20 f.dir.toNat f.src, data := f.data } s t ∧ Only [.can, .evr] s t) ∧
    (heard 16 f s = true → fromBelow s f = true → dataNat f.data 4 2 = s.nodeNum.toNat → callOn s = true →
      Runs (.callAckReceived f) s fun t =>
        t.call.cmds.length = s.call.cmds.length + 1 ∧ (∃ c ∈ t.call.cmds, c.op = 3 ∧ c.session = dataNat f.data 0 2 ∧
          c.eng = dataNat f.data 3 1) ∧ Only [.can, .call, .lvn] s t) ∧
    (heard 16 f s = true → fromBelow s f = true → dataNat f.data 4 2 ≠ s.nodeNum.toNat → speaksUp s = true →
      Runs (.callAckReceived f) s fun t =>
        TookUp { id := frameId 2 0x21 1 f.src, data := f.data } s t ∧ t.call = s.call ∧ Only [.can, .evr] s t)

/-- The command rows for this node (R225, R254, R289, R325, R329, R340 to R342, R348). -/
def Obligations.CommandsForThisNodeActOnce : Prop :=
  ∀ (s : State) (f : ImzRx),
    (∀ (op : Nat) (x : Instr) (r : TagRec), commandHere op f s = true → tagOf f s = some r →
      ((x = .cmdRegRead f ∧ op = 0x01) ∨ (x = .cmdRegWrite f ∧ op = 0x02) ∨ (x = .cmdAlarm f ∧ op = 0x10) ∨
        (x = .cmdPoint f ∧ op = 0x11) ∨ (x = .cmdDuty f ∧ op = 0x20) ∨ (x = .cmdStateReq f ∧ op = 0x30) ∨
        (x = .cmdTimeSet f ∧ op = 0x31)) →
      Runs x s fun t => Only [.can, .evr] s t ∧ (r.rsp ≠ [] → fromBelow s f = false → speaksUp s = true →
        TookUp { id := frameId 4 0x41 1 s.nodeNum, data := r.rsp } s t)) ∧
    (tagOf f s = none →
      (commandHere 0x01 f s = true → (rxByte f 20 = 0 ∨ 8 < rxByte f 20) → Runs (.cmdRegRead f) s fun t =>
        Only [.can, .evr, .imz, .lvn] s t ∧ (fromBelow s f = false → speaksUp s = true →
          TookUp { id := frameId 4 0x41 1 s.nodeNum, data := rspBytes (cmdRef s f) 8 0 0 s.stamp [] } s t)) ∧
      (∀ u : State, u = cmdTake f (imzTook 4 0x40 f s) → commandHere 0x01 f s = true → rxByte f 20 = 1 →
        dataNat f.data 16 4 % 4 = 0 → readIdem (dataNat f.data 16 4) = true → (busFetch (dataNat f.data 16 4) u).1 = 0 →
        Runs (.cmdRegRead f) s fun t =>
          t = imzReply (cmdRef s f) 0 0 1 [(busFetch (dataNat f.data 16 4) u).2.1] (busFetch (dataNat f.data 16 4) u).2.2) ∧
      (∀ (u : State) (v : Word), u = cmdTake f (imzTook 4 0x40 f s) → v = BitVec.ofNat 32 (dataNat f.data 24 4) →
        commandHere 0x02 f s = true → rxByte f 20 = 1 → dataNat f.data 16 4 % 4 = 0 → Runs (.cmdRegWrite f) s fun t =>
          t = imzReply (cmdRef s f) (rspOf (busWrite (.imzin f.src) (dataNat f.data 16 4) v u).1) 0 1 []
            (busWrite (.imzin f.src) (dataNat f.data 16 4) v u).2) ∧
      (commandHere 0x10 f s = true → rxByte f 17 ≠ 0 → s.ann.queue.length < 32 → Runs (.cmdAlarm f) s fun t =>
        t.ann.pend = s.ann.pend ∧ t.ann.queue = s.ann.queue ++ [.mk (rxByte f 16) (rxByte f 17) (dataNat f.data 18 4)
          (dataNat f.data 22 2) false (cmdOrigin false f s) 0 []] ∧ Only [.can, .imz, .lvn, .ann] s t) ∧
      (commandHere 0x11 f s = true → 1 ≤ rxByte f 16 → rxByte f 16 ≤ 3 → s.ptUsed (rxByte f 17) = true → s.pev.cmd = none →
        Runs (.cmdPoint f) s fun t => Only [.can, .imz, .lvn, .pev] s t ∧ t.pev = { s.pev with
          cmd := some { op := rxByte f 16, slot := rxByte f 17, subst := BitVec.ofNat 32 (dataNat f.data 20 4), org := cmdOrigin false f s } }) ∧
      (commandHere 0x20 f s = true → callOn s = true → Runs (.cmdDuty f) s fun t =>
        t.call.cmds = s.call.cmds ++ [.mk 1 (rxByte f 16) 0 3 0 false (cmdOrigin false f s) 0] ∧ Only [.can, .imz, .lvn, .call] s t) ∧
      (commandHere 0x30 f s = true → s.imz.mgrLost = true → s.netTop = false → (∀ n : Fin 80, annOff s n = true) →
        Runs (.cmdStateReq f) s fun t =>
          t.imz.queue = s.imz.queue ++ [{ typ := 0x30, addr := f.src.toNat, onset := 0, free := true, data := [] }] ∧
          Only [.can, .evr, .imz, .lvn] s t) ∧
      (commandHere 0x31 f s = true → (rxByte f 24).testBit 0 = true → s.netTop = true → timLive s = true →
        stampValid (BitVec.ofNat 64 (dataNat f.data 16 8) : Ts) = true → Runs (.cmdTimeSet f) s fun t =>
          t.tim = { s.tim with atPulse := some (fld (BitVec.ofNat 64 (dataNat f.data 16 8) : Ts) 30 34) } ∧
          Only [.can, .evr, .imz, .lvn, .tim] s t)) ∧
    (imzLive s = true → f.data.length = 64 → rxByte f 3 = 0x40 → dataNat f.data 0 2 = s.nodeNum.toNat → s.imz.conflict = false →
      (BitVec.ofNat 64 (dataNat f.data 16 8) = Config.serial ∨ BitVec.ofNat 64 (dataNat f.data 24 8) = Config.serial) →
      Runs (.cmdConflict f) s fun t => t.imz.conflict = true ∧
        Raised 42 (put 0 4 1 ||| put 16 16 s.nodeNum.toNat) s t ∧ Only [.can, .evr, .imz] s t)

/-- The answer and page rows (R340, R342, R405). -/
def Obligations.AnswersAndPagesReachTheirRequester : Prop :=
  ∀ (s : State) (f : ImzRx),
    (heard 48 f s = true → dataNat f.data 0 2 = s.nodeNum.toNat →
      (∃ c ∈ s.imz.sent, c.tag = f.data.getD 2 0 ∧ c.target = f.src) → Runs (.rspReceived f) s fun t =>
        (∀ c ∈ t.imz.sent, ¬ (c.tag = f.data.getD 2 0 ∧ c.target = f.src)) ∧ t.imz.lastRsp = f.data ∧ Only [.can, .imz] s t) ∧
    (heard 48 f s = true → speaksUp s = true → fromBelow s f = true → f.dir = 1 → dataNat f.data 0 2 ≠ s.nodeNum.toNat →
      inSubtree s (BitVec.ofNat 16 (dataNat f.data 0 2)) = false → Runs (.rspReceived f) s fun t =>
        TookUp { id := frameId 4 0x41 1 f.src, data := f.data } s t ∧ t.imz = s.imz ∧ Only [.can, .evr] s t) ∧
    (∀ c : SentCmd, s.imz.sent = [c] → (c.tries < 2 → Runs (.cmdRspTimeout c.tag) s fun t =>
        t.imz.sent = [{ c with tries := c.tries + 1 }] ∧ Only [.can, .evr, .imz] s t ∧
        (c.down = false → speaksUp s = true → TookUp { id := frameId 4 0x40 1 s.nodeNum, data := c.data } s t)) ∧
      (2 ≤ c.tries → Runs (.cmdRspTimeout c.tag) s fun t => t.imz = { s.imz with sent := [] } ∧ Only [.imz] s t)) ∧
    (∀ (node : Half) (tag : Byte), Runs (.cmdTagExpiry node tag) s fun t =>
      (∀ r : TagRec, r ∈ t.imz.tags ↔ r ∈ s.imz.tags ∧ ¬ (r.node = node ∧ r.tag = tag)) ∧ Only [.imz] s t) ∧
    (heard 64 f s = true → dataNat f.data 0 2 = s.nodeNum.toNat →
      (dataNat f.data 3 1 = 0x10 → dataNat f.data 5 1 < 128 → Runs (.recXferDataReceived f) s fun t =>
        t.imz.xferIn = memFill s.imz.xferIn (32 * dataNat f.data 5 1) (f.data.drop 32) ∧ Only [.can, .imz] s t) ∧
      (dataNat f.data 3 1 = 0x11 → Runs (.recXferEndReceived f) s fun t =>
        t.imz.xferCode = (if (dataNat f.data 6 1 = 0 ∨ dataNat f.data 6 1 = 5) ∧
          (crc32 (memBytes s.imz.xferIn 0 4096)).toNat ≠ dataNat f.data 20 4 then 2 else dataNat f.data 6 1) ∧
        Only [.can, .imz] s t)) ∧
    (∀ r : ReqRef, imzOpen s = true → s.standby = false → s.imz.xferTo = some r → 32 < s.imz.xferOut.length →
      Runs .recXferSendPace s fun t => t.imz.xferOut = s.imz.xferOut.drop 32 ∧ t.imz.xferTo = some r ∧
        Only [.can, .evr, .imz] s t)

/-- The time protocol's rows (R345 to R347). -/
def Obligations.TimeIsSentAndFollowed : Prop :=
  ∀ (s : State),
    (timeMaster s = true → Runs .timeRefSend s fun t =>
      t.tim = { s.tim with refSeq := s.tim.refSeq + 1, stepped := false, refTail := refTail s s.tim.stepped } ∧
      TookDown { id := frameId 0 0x01 0 s.nodeNum, data := bytesLE 2 (s.tim.refSeq + 1).toNat ++ refTail s s.tim.stepped } s t ∧
      Only [.can, .evr, .tim] s t) ∧
    (∀ (d : Bool) (k : Fin 2) (q : Half) (sof : Ts), k = (if d then 1 else 0) → timeMaster s = true →
      s.tim.sofs[k] = some (q, sof) → Runs (.timeFollowSend d) s fun t => t.tim.sofs[k] = none ∧
        Took (if d then 3 else 2) { id := frameId 0 0x02 0 s.nodeNum, data := bytesLE 2 q.toNat ++ s.tim.refTail ++ bytesLE 8 sof.toNat } s t ∧
        Only [.can, .evr, .tim] s t) ∧
    (∀ f : ImzRx, imzLive s = true → fromAbove f = true → f.src = s.netMgr → s.netTop = false →
      (f.data.length = 8 → s.imz.mgrLost = false → Runs (.timeRefReceived f) s fun t =>
        (linkTimed s = true → t.tim.refs = s.tim.refs) ∧
        (linkTimed s = false → t.tim.refs[busOf f] = some { seq := BitVec.ofNat 16 (dataNat f.data 0 2), sof := s.now - f.age, at' := s.mono }) ∧
        t.tim.hops = min 0xFF (dataNat f.data 3 1 + 1) ∧ t.tim.mstate = min 3 (dataNat f.data 2 1) ∧ Only [.can, .tim] s t) ∧
      (f.data.length = 16 → s.tim.refs[busOf f] = none → s.tim.st ≠ .locked → Runs (.timeFollowReceived f) s fun t =>
        Only [.can] s t) ∧
      (∀ (r : RefRx) (theta : Int), f.data.length = 16 → busOf f = 0 → s.tim.refs[(0 : Fin 2)] = some r →
        r.seq = BitVec.ofNat 16 (dataNat f.data 0 2) → s.mono ≤ r.at' + ms 50 →
        stampValid (BitVec.ofNat 64 (dataNat f.data 8 8) : Ts) = true → s.tim.st = .free →
        theta = (r.sof : Int) * 20 - (stampNs (BitVec.ofNat 64 (dataNat f.data 8 8)) + propNs s) →
        Runs (.timeFollowReceived f) s fun t => t.tim.st = .acquiring ∧
          t.tim.theta = clampI (-(2 ^ 31 : Int)) (2 ^ 31 - 1) theta ∧ t.tim.busB = false ∧
          (theta.natAbs ≤ 1000 → t.now = s.now) ∧ (1000 < theta.natAbs → t.now = ((s.now : Int) - nsTicks theta).toNat ∧
            t.tim.stepped = true))) ∧
    (s.tim.st = .locked → s.netTop = false → imzLive s = true → Runs .timHoldover s fun t => t.tim.st = .holdover ∧
      t.tim.corr = s.tim.corr) ∧
    (s.tim.st = .holdover → s.netTop = false → s.age.st = .off → Runs .timFree s fun t =>
      t.tim = { s.tim with pairsOk := 0, st := .free } ∧ Raised 43 (put 0 4 1 ||| putI 4 28 0) s t ∧ Only [.evr, .tim] s t) ∧
    (∀ b : Int, s.tim.st = .holdover → s.netTop = false → s.age.st = .run → s.ageEn 4 = true →
      (s.age.bands[tempBand s]).2 ≠ 0 → b = s.ageNat 12 2 1000 * 10 → Runs .timFree s fun t =>
      t.tim = { s.tim with pairsOk := 0, st := .free, corr := clampI (-b) b (bandMean s.age.bands[tempBand s]) } ∧
      Only [.evr, .tim, .age] s t)

/-- The grand master's rows (R348, R349). -/
def Obligations.TheGrandMasterKeepsItsTime : Prop :=
  ∀ (s : State),
    (linkTimed s = true → ∀ ok : Bool, Runs (.syncInPulse ok) s (fun t => t = s)) ∧
    (syncSource s = true → timLive s = true → linkTimed s = false →
      (s.tim.atPulse = none → (syncPhase s.now).natAbs ≤ 5 → 9 ≤ s.tim.goodRow → Runs (.syncInPulse true) s fun t =>
        t.tim.traceable = true ∧ t.tim.phase = syncPhase s.now * 20 ∧ t.tim.rejRow = 0 ∧ t.now = s.now ∧
        Only [.drawn, .evr, .tim] s t) ∧
      (s.tim.atPulse = none → 500 < (syncPhase s.now).natAbs → s.tim.rejRow < 3 → Runs (.syncInPulse true) s fun t =>
        t.tim = { s.tim with phase := syncPhase s.now * 20, rej := satInc 255 s.tim.rej, rejRow := s.tim.rejRow + 1, goodRow := 0 } ∧
        Only [.tim] s t) ∧
      (s.tim.atPulse = none → 500 < (syncPhase s.now).natAbs → 3 ≤ s.tim.rejRow → Runs (.syncInPulse true) s fun t =>
        t.now = ((s.now : Int) - syncPhase s.now).toNat ∧ t.tim.rejRow = 0 ∧ t.tim.stepped = true) ∧
      (∀ v : Nat, s.tim.atPulse = some v → Runs (.syncInPulse true) s fun t =>
        t.now = v * ticksPerSec ∧ t.tim.atPulse = none) ∧
      Runs (.syncInPulse false) s (fun t => t = s)) ∧
    (syncSource s = true → s.tim.traceable = true → Runs .syncInLoss s fun t =>
      t.tim = { s.tim with traceable := false, goodRow := 0 } ∧ Raised 43 (put 0 4 4 ||| putI 4 28 0) s t ∧
      Only [.evr, .tim] s t) ∧
    (s.bare = false → s.sys.mode ≠ .safe → s.ident7 3 = false → Runs .syncOutPulse s fun t =>
      t.sys = { s.sys with pins := { s.sys.pins with syncEnd := s.mono + ms 100 } } ∧ Only [.sys] s t) ∧
    (∀ src : Source,
      (s.netTop = true → timLive s = true → stampValid (timSetReg s) = true →
        Runs (.timSet src) s (fun t => t.now = ticksOf (timSetReg s) ∧ t.tim.stepped = true) ∧
        Runs (.timSetAtPulse src) s (fun t => t.tim = { s.tim with atPulse := some (fld (timSetReg s) 30 34) } ∧ Only [.tim] s t)) ∧
      (∀ x : Instr, (x = .timSet src ∨ x = .timSetAtPulse src) →
        (s.netTop = false → Runs x s fun t => t.sys.werr.reason = 8 ∧ Only [.sys] s t) ∧
        (s.netTop = true → stampValid (timSetReg s) = false → Runs x s fun t => t.sys.werr.reason = 9 ∧ Only [.sys] s t)))

/-- The rows of the link and its heartbeats (R355, R357 to R360). -/
def Obligations.TheLinkCarriesHeartbeats : Prop :=
  ∀ (s : State),
    (lvnUp s = true →
      (∀ lat : Nat, s.lvn.trained = false → Runs (.lvnLinkTrained lat) s fun t =>
        t.lvn.trained = true ∧ t.lvn.lat = min 0xFFFF lat ∧ t.lvn.lanes[0] = true ∧ t.lvn.lanes[1] = true ∧
        t.lvn.st = s.lvn.st ∧ Only [.lvn, .evr] s t) ∧
      (∀ l : Fin 2, s.lvn.lanes[l] = true →
        (s.lvn.lanes[1 - l] = true → Runs (.lvnLaneDown l) s fun t =>
          t.lvn = { s.lvn with lanes := s.lvn.lanes.set l false } ∧
          Raised 44 (put 0 4 1 ||| put 4 1 l.val) s t ∧ Only [.lvn, .evr] s t) ∧
        (s.lvn.lanes[1 - l] = false → Runs (.lvnLaneDown l) s fun t =>
          linkUp t.lvn = false ∧ t.lvn.synced = false ∧ t.lvn.opened = none ∧ t.lvn.hello = none ∧ t.lvn.st = s.lvn.st ∧
          Only [.lvn, .evr] s t)) ∧
      (∀ l : Fin 2, s.lvn.trained = true → s.lvn.lanes[l] = false →
        Runs (.lvnLaneRetrain l true) s (fun t => t.lvn.lanes[l] = true ∧ t.lvn.lanes[1 - l] = s.lvn.lanes[1 - l] ∧
          Only [.lvn, .evr] s t) ∧
        Runs (.lvnLaneRetrain l false) s (fun t => t = s)) ∧
      (linkUp s.lvn = true →
        Runs .lvHeartbeatSend s (fun t => t.lvn.hbSeq = s.lvn.hbSeq + 1 ∧
          t.lvn.sent.length = (if s.lvn.lanes[0] && s.lvn.lanes[1] then 2 else 1) ∧
          (∀ x ∈ t.lvn.sent, x.1 = 1 ∧ dataNat x.2.2 0 4 = (s.lvn.hbSeq + 1).toNat ∧ dataNat x.2.2 4 1 = s.lvn.st.code) ∧
          Only [.lvn] s t) ∧
        (s.lvn.st = .negotiating → Runs .lvHelloSend s fun t => t.lvn.sent.length = 1 ∧
          (∀ x ∈ t.lvn.sent, x.1 = 2 ∧ dataNat x.2.2 32 4 = (s.rcp.recipes[s.rcp.active]).seq.toNat ∧
            dataNat x.2.2 40 8 = Config.serial.toNat) ∧ Only [.lvn] s t) ∧
        (∀ (d : List Byte) (age : Nat), s.lvn.st = .negotiating → s.lvn.presCheck = false →
          Runs (.lvHeartbeatReceived d true age) s fun t => t.lvn.pState = pairOfCode (dataNat d 4 1) ∧
            t.lvn.pHealth = BitVec.ofNat 16 (dataNat d 6 2) ∧ t.lvn.pEpoch = BitVec.ofNat 32 (dataNat d 8 4) ∧
            Only [.lvn] s t) ∧
        (∀ d : List Byte, Runs (.lvHelloReceived d true) s fun t =>
          (∃ h, t.lvn.hello = some h ∧ h.unitB = (dataNat d 5 1).testBit 0 ∧ h.seq = BitVec.ofNat 32 (dataNat d 32 4)) ∧
          t.lvn.pState = pairOfCode (dataNat d 4 1) ∧ Only [.lvn] s t) ∧
        (∀ (d : List Byte) (v : Vector Int 4) (w : Bool) (x : Instr),
          (x = .lvHelloReceived d false ∨ x = .lvCmdFwdReceived d false ∨
            x = .lvFaultReceived v w false) →
          Runs x s fun t => t.lvn = { s.lvn with cntCrc := satInc 255 s.lvn.cntCrc } ∧ Only [.lvn] s t) ∧
        (∀ (d : List Byte) (age : Nat), Runs (.lvHeartbeatReceived d false age) s fun t =>
          t.lvn = { s.lvn with cntCrc := satInc 255 s.lvn.cntCrc, cntMiss := satInc 255 s.lvn.cntMiss } ∧ Only [.lvn] s t))) ∧
    (s.lvn.st = .standby → Runs .lvPresInFall s fun t =>
      t.sys = { s.sys with inp := { s.sys.inp with presIn := false } } ∧ t.lvn = { s.lvn with presCheck := true } ∧
      Only [.sys, .lvn] s t) ∧
    Runs .lvPresInRise s (fun t => t.sys = { s.sys with inp := { s.sys.inp with presIn := true } } ∧
      t.lvn = { s.lvn with presCheck := false } ∧ Only [.sys, .lvn] s t)

/-- The rows of roles, take-over and split (R360, R361, R370, R371, R373 to R376). -/
def Obligations.RolesAreTakenByTheirTable : Prop :=
  ∀ (s : State),
    (s.lvn.st = .negotiating → s.sys.step = 11 →
      (∀ st : PairState, roleByTable s = some st → (st = .active ∨ st = .standby ∨ st = .solo) → s.sup.pfail = false →
        Runs .roleNegotiation s fun t => t.lvn.st = st ∧ t.lvn.takeCause = 7 ∧ t.lvn.takeNew = st ∧
          t.lvn.takeCount = s.lvn.takeCount + 1 ∧ t.sys.mode = .inService ∧ t.sys.step = 12 ∧ t.sys.pins.faultLow = false) ∧
      (∀ st : PairState, roleByTable s = some st → (st = .updating ∨ st = .roleClash ∨ st = .recipeClash) →
        Runs .roleNegotiation s fun t => t.lvn.st = st ∧ t.sys.step = 11 ∧ t.sys.mode = s.sys.mode) ∧
      (s.lvn.hello = none → s.sys.inp.presIn = true → s.sup.pfail = false → Runs .peerWaitExpiry s fun t =>
        t.lvn.st = (if s.sys.roleB then .splitStandby else .splitActive) ∧ t.lvn.check = true ∧ t.sys.mode = .inService)) ∧
    (s.lvn.st = .standby → s.sup.pfail = false → s.sys.mode = .inService → ∀ (volts : Vector Int 4) (swap : Bool),
      (lvnUp s = true → linkUp s.lvn = true → Runs (.lvFaultReceived volts swap true) s fun t =>
        t.lvn.st = .active ∧ t.lvn.takeCause = 1 ∧ t.sys.outEn = true ∧ t.lvn.replay = true) ∧
      (s.lvn.presCheck = true → Runs (.presCheckExpiry volts swap) s fun t =>
        t.lvn.st = .active ∧ t.lvn.takeCause = 2 ∧ t.sys.outEn = true ∧ t.lvn.replay = true ∧ t.lvn.check = true) ∧
      (lvnUp s = true → Runs (.lvHeartbeatLoss volts swap) s fun t =>
        t.lvn.st = .active ∧ t.lvn.takeCause = 3 ∧ t.sys.outEn = true ∧ t.lvn.cntMiss = satAdd 255 s.lvn.cntMiss 4)) ∧
    (s.lvn.st = .active → lvnUp s = true → ∀ (volts : Vector Int 4) (swap : Bool), Runs (.lvHeartbeatLoss volts swap) s fun t =>
      t.lvn.st = (if s.sys.inp.presIn then .splitActive else .solo) ∧ t.lvn.synced = false ∧
      t.lvn.check = (if s.sys.inp.presIn then true else s.lvn.check) ∧ t.sys = s.sys) ∧
    (∀ (c : Fin 4) (v : Int), s.ao[c].held = true →
      Runs (.aoHeldRecheck c v false) s (fun t => t.ao[c].held = true ∧ t.ao[c].term = v ∧ t.ao[c].code = s.ao[c].code ∧
        (∀ d : Fin 4, d ≠ c → t.ao[d] = s.ao[d]) ∧ Only [.ao, .evr] s t) ∧
      Runs (.aoHeldRecheck c v true) s (fun t => t.ao[c].held = false ∧
        t.ao[c] = aoSelect (s.setAo c fun a => { a with term := v, held := false }) c ∧
        (∀ d : Fin 4, d ≠ c → t.ao[d] = s.ao[d]) ∧ Only [.ao, .evr] s t)) ∧
    (s.lvn.check = true → s.lvn.st = .splitActive → Runs .splitCheckExpiry s fun t => t.lvn.st = .solo ∧ t.lvn.check = false) ∧
    (s.lvn.check = true → s.lvn.st = .splitStandby → s.sup.pfail = false → s.sys.mode = .inService →
      Runs .splitCheckExpiry s fun t => t.lvn.st = .solo ∧ t.lvn.check = false ∧ t.lvn.takeCause = 6) ∧
    (s.lvn.st = .splitStandby → s.lvn.check = false → s.sup.pfail = false → s.sys.mode = .inService →
      Runs .splitPartnerLoss s fun t => t.lvn.st = .solo ∧ t.lvn.takeCause = 6 ∧
        t.sys.inhEnd = (if s.startTime = 0 then none else some (s.now + sec s.startTime)))

/-- The epoch and log rows (R363 to R366, R368). -/
def Obligations.EpochsCarryTheState : Prop :=
  ∀ (s : State),
    (∀ bytes frames : Nat,
      (epochsRun s = true → ∃ t : State, exec (.epochBoundary bytes frames) s = .next t ∧
        t.lvn.epoch = s.lvn.epoch + 1 ∧ t.lvn.lastBound = s.now ∧ t.lvn.sent.map (·.1) = [3, 4, 4, 4, 5] ∧
        t.lvn.frSeq = s.lvn.frSeq + 5 ∧ t.lvn.copy = t.pev.pts ∧ t.lvn.want = [] ∧
        t.lvn.cntStretch =
          (if epochLimit s.lvn < bytes + 15 * frames + 62 then satInc 255 s.lvn.cntStretch else s.lvn.cntStretch) ∧
        (s.lvn.want = [] → t.pev = s.pev) ∧ (∀ n : Fin 80, s.lvn.want = [n.val] → t.pev.pts[n] = s.lvn.copy[n]) ∧
        (s.rcp.swapPend = false → t.rcp = s.rcp) ∧
        (s.rcp.swapPend = true → s.rcp.swapEpoch = none → t.rcp.swapEpoch = some (s.lvn.epoch + 1)) ∧
        Only [.lvn, .evr, .drawn, .pev, .rcp] s t) ∧
      (epochsRun s = false → exec (.epochBoundary bytes frames) s = .next s)) ∧
    (lvnUp s = true → linkUp s.lvn = true → s.lvn.st = .standby →
      (∀ (n base : Word) (time : Ts), exec (.lvEpochOpenReceived n base time true) s =
        .next (s.setLvn fun v => { v with opened := some (n, base, time), recs := [], deltas := 0, recBytes := 0 })) ∧
      (∀ (rs : List LvRec) (bytes : Nat),
        (s.lvn.opened.isSome = true → exec (.lvDeltaReceived rs bytes true) s =
          .next (s.setLvn fun v =>
            { v with recs := v.recs ++ rs, deltas := v.deltas + 1, recBytes := v.recBytes + bytes })) ∧
        (s.lvn.opened = none → exec (.lvDeltaReceived rs bytes true) s = .next s)) ∧
      (∀ (n base k : Word) (time : Ts) (bytes : Word) (frames flags : Half) (crc : Bool),
        s.lvn.opened = some (k, base, time) →
        (crc = true → k = n → base = s.lvn.epoch → s.lvn.recBytes = bytes.toNat → s.lvn.deltas = frames.toNat →
          ∃ t : State, exec (.lvCommitReceived n bytes frames flags crc true) s = .next t ∧
            t.lvn.epoch = n ∧ t.lvn.nack = false ∧ t.lvn.opened = none ∧ t.lvn.recs = [] ∧ t.now = s.now ∧
            (t.pev.table = Vector.ofFn fun i => pointRecord t i.val) ∧
            (∀ (i : Fin 80) (p : Pnt), s.lvn.recs = [.point i p] → t.pev.pts[i] = p) ∧
            (bit flags 1 = true → t.rcp.swapPend = true ∧ t.rcp.swapReq = s.now) ∧
            (bit flags 1 = false → t.rcp = s.rcp)) ∧
        ((crc = false ∨ k ≠ n ∨ base ≠ s.lvn.epoch ∨ s.lvn.recBytes ≠ bytes.toNat ∨ s.lvn.deltas ≠ frames.toNat) →
          ∃ t : State, exec (.lvCommitReceived n bytes frames flags crc true) s = .next t ∧
            t.lvn = { s.lvn with opened := none, recs := [], deltas := 0, recBytes := 0, nack := true, cntNack := satInc 255 s.lvn.cntNack } ∧
            Raised 44 (put 0 4 5) s t ∧ t.rcp.swapHeard = (s.rcp.swapHeard || (bit flags 1 && !s.rcp.swapPend)) ∧
            Only [.lvn, .evr, .rcp] s t)) ∧
      (∀ (n bytes : Word) (frames flags : Half) (crc : Bool), s.lvn.opened = none →
        exec (.lvCommitReceived n bytes frames flags crc true) s = .next s) ∧
      (∀ d : List Byte,
        (s.lvn.log.length < 256 → exec (.lvCmdFwdReceived d true) s =
          .next (s.setLvn fun v => { v with log := v.log ++ [fwdEntry s d] })) ∧
        (256 ≤ s.lvn.log.length → exec (.lvCmdFwdReceived d true) s =
          .next (s.setLvn fun v =>
            { v with log := v.log.drop 1 ++ [fwdEntry s d], logLost := satInc 0xFFFF v.logLost }))))

/-- The rows of revert and hand-over (R151, R189, R377 to R379). -/
def Obligations.RevertsArePlannedAndSwitched : Prop :=
  ∀ (s : State),
    (revertReady s = true → s.lvn.reverting = false → Runs .revertHoldExpiry s fun t =>
      t.lvn.asked = true ∧ t.lvn.sent = [(8, 0, [])] ∧ t.lvn.reverting = false ∧ Only [.lvn] s t) ∧
    (∀ (x : Instr) (src : Source) (h : Bool), s.lvn.st = .active → s.lvn.pState = .standby → s.lvn.synced = true →
      linkUp s.lvn = true → s.lvn.reverting = false →
      ((x = .lvnHandover src ∧ h = true) ∨ (x = .lvRevertReqReceived h true ∧ lvnUp s = true)) → Runs x s fun t =>
        t.lvn.reverting = true ∧ t.lvn.taking = false ∧ t.lvn.isHandover = h ∧
        t.lvn.plan = some (scanStartFrom s (s.now + ms 6) - ms 2) ∧ Only [.lvn] s t) ∧
    (∀ src : Source, s.lvn.st ≠ .active → Runs (.lvnHandover src) s fun t => t.sys.werr.reason = 8 ∧ Only [.sys] s t) ∧
    (lvnUp s = true → linkUp s.lvn = true → s.lvn.st = .standby →
      (∀ time : Ts, time ≠ 0 → stampValid time = true → Runs (.lvRevertPlanReceived time true) s fun t =>
        t.lvn.reverting = true ∧ t.lvn.taking = true ∧ t.lvn.plan = some (ticksOf time) ∧ t.lvn.isHandover = !s.lvn.asked ∧
        Only [.lvn] s t) ∧
      (∀ time : Ts, stampValid time = false → Runs (.lvRevertPlanReceived time true) s fun t => t = s) ∧
      (s.lvn.reverting = true → Runs (.lvRevertPlanReceived 0 true) s fun t =>
        t.lvn.reverting = false ∧ t.lvn.plan = none ∧ t.lvn.st = .standby)) ∧
    (s.lvn.reverting = true → s.lvn.freeze = false → Runs .revertFreeze s fun t => t.lvn.freeze = true ∧
      (s.lvn.taking = true → t.dio = s.dio ∧ ∀ c : Fin 4, t.ao[c] = { s.ao[c] with takeLevel := some s.ao[c].epochLevel }) ∧
      (s.lvn.taking = false → ∀ c : Fin 4, t.ao[c].frozen = some s.ao[c].level)) ∧
    (s.lvn.reverting = true → s.lvn.freeze = true → s.lvn.taking = false → s.lvn.handAck = false →
      Runs .revertAckDeadline s fun t => t.lvn.reverting = false ∧ t.lvn.plan = none ∧ t.lvn.st = s.lvn.st ∧
        t.lvn.sent = [(9, 0, bytesLE 8 0)]) ∧
    (∀ (dio : BitVec 2) (ao : BitVec 4), s.lvn.reverting = true → s.lvn.freeze = true →
      (s.lvn.taking = false → Runs (.revertSwitch dio ao) s fun t => ∀ c : Fin 4, t.ao[c].code = 0 ∧ t.ao[c].released = true) ∧
      (s.lvn.taking = true → s.lvn.handAck = true → s.sup.pfail = true → Runs (.revertSwitch dio ao) s fun t =>
        t.lvn.failed = true ∧ t.lvn.takeCause = 8 ∧ t.lvn.sent = [(0x0A, 1, [0, 0])] ∧ t.sys = s.sys) ∧
      (s.lvn.taking = true → s.lvn.handAck = true → s.sup.pfail = false →
        (dioUsedMask s &&& ~~~dio = 0 → aoUsedMask s &&& ~~~ao = 0 → Runs (.revertSwitch dio ao) s fun t =>
          t.sys.outEn = true ∧ t.lvn.sent = [(0x0A, 0, bytesLE 1 dio.toNat ++ bytesLE 1 ao.toNat)] ∧ t.lvn.failed = s.lvn.failed) ∧
        (¬ (dioUsedMask s &&& ~~~dio = 0 ∧ aoUsedMask s &&& ~~~ao = 0) → Runs (.revertSwitch dio ao) s fun t =>
          t.sys.outEn = false ∧ t.lvn.failed = true ∧ t.lvn.takeCause = 8 ∧
          t.lvn.sent = [(0x0A, 1, bytesLE 1 dio.toNat ++ bytesLE 1 ao.toNat)]))) ∧
    (handingOver s = true → s.lvn.failed = false →
      (∀ dio ao : Byte, lvnUp s = true → linkUp s.lvn = true → Runs (.lvConfirmReceived dio ao true) s fun t =>
        t.lvn = { s.lvn with confDio := dio, confAo := ao } ∧ Only [.lvn] s t) ∧
      (lvnUp s = true → linkUp s.lvn = true → Runs (.lvRevertFailReceived true) s fun t =>
        t.lvn.failed = true ∧ t.lvn.takeCause = 8 ∧ t.lvn.takeNew = s.lvn.st ∧ t.lvn.st = s.lvn.st ∧
        ∀ c : Fin 4, t.ao[c].released = false) ∧
      (allConfirmed s = false → Runs .revertRelease s fun t => t.lvn.failed = true ∧ t.lvn.takeCause = 8 ∧ t.lvn.st = s.lvn.st) ∧
      (allConfirmed s = true → Runs .revertRelease s fun t => t.lvn = s.lvn ∧
        ∀ g : Fin 2, t.dioBlk.groups[g].released = (s.lvn.confDio).getLsbD g.val)) ∧
    (s.lvn.reverting = true → s.lvn.freeze = true →
      (s.lvn.failed = true → Runs .revertEnd s fun t => t.lvn.st = s.lvn.st ∧ t.lvn.reverting = false) ∧
      (s.lvn.failed = false → s.lvn.taking = true → s.lvn.handAck = true → Runs .revertEnd s fun t =>
        t.lvn.st = .active ∧ t.lvn.takeCause = (if s.lvn.isHandover then 5 else 4) ∧ t.lvn.replay = true ∧ t.lvn.reverting = false) ∧
      (s.lvn.failed = false → s.lvn.taking = false → Runs .revertEnd s fun t =>
        t.lvn.st = .standby ∧ t.lvn.takeCause = (if s.lvn.isHandover then 5 else 4) ∧ t.sys.outEn = false ∧
        t.ann.queue = [] ∧ t.lvn.reverting = false))

/-- The rows of images, stop and loopback (R358, R380, R383). -/
def Obligations.ImagesAndLinkTestsRun : Prop :=
  ∀ (s : State),
    (∀ o : Nat, lvnUp s = true → linkUp s.lvn = true → (s.lvn.st).holds = true → s.lvn.pState = .updating →
      s.lvn.sending = some (0, o) → o < imgLength (s.rcp.recipes[s.rcp.active]).bank → Runs .lvImageSend s fun t =>
        t.lvn.sending = some (0, o + min 4088 (imgLength (s.rcp.recipes[s.rcp.active]).bank - o)) ∧
        t.lvn.sent = [(0x0B, 0, bytesLE 1 0 ++ bytesLE 3 0 ++ bytesLE 4 o ++
          memBytes (s.rcp.recipes[s.rcp.active]).bank o (min 4088 (imgLength (s.rcp.recipes[s.rcp.active]).bank - o)))] ∧
        Only [.lvn] s t) ∧
    (∀ d : List Byte, lvnUp s = true → linkUp s.lvn = true → imageTakes s = true → dataNat d 0 1 ≤ 1 →
      (dataNat d 4 4 + (d.drop 8).length ≤ 0x200000 → Runs (.lvImageReceived d true) s fun t =>
        t.rcp.recipes[imageTarget s].part = memFill s.rcp.recipes[imageTarget s].part (dataNat d 4 4) (d.drop 8) ∧
        t.rcp.recipes[imageTarget s].st = .writing ∧ t.rcp.recipes[imageTarget s].bank = s.rcp.recipes[imageTarget s].bank ∧
        t.rcp.recipes[1 - imageTarget s] = s.rcp.recipes[1 - imageTarget s] ∧ t.lvn.imageKind = dataNat d 0 1 ∧
        Only [.rcp, .lvn] s t) ∧
      (0x200000 < dataNat d 4 4 + (d.drop 8).length → Runs (.lvImageReceived d true) s fun t => t = s)) ∧
    (∀ src : Source,
      (s.lvn.stop = false → lvnMayStop s = true → Runs (.lvnStop src true) s fun t =>
        t.lvn.stop = true ∧ linkUp t.lvn = false ∧ Only [.lvn, .evr] s t) ∧
      (s.lvn.stop = false → lvnMayStop s = false → Runs (.lvnStop src true) s fun t =>
        t.sys.werr.reason = 8 ∧ t.lvn = s.lvn ∧ Only [.sys] s t) ∧
      (s.lvn.stop = true → Runs (.lvnStop src false) s fun t => t.lvn = { s.lvn with stop := false, loop := 0 } ∧ Only [.lvn] s t) ∧
      (∀ d : BitVec 2, d ≠ 0 →
        (s.lvn.stop = true → Runs (.lvnLoopTest src d) s fun t => t.lvn.loop = d.toNat ∧ t.lvn.loopDepth = d.toNat ∧
          t.lvn.loopRes = 1 ∧ t.lvn.loopErr = 0 ∧ Only [.lvn] s t) ∧
        (s.lvn.stop = false → s.bare = false → d.toNat ≠ s.lvn.loop → Runs (.lvnLoopTest src d) s fun t =>
          t.lvn = { s.lvn with loopDepth := d.toNat, loopRes := 4, loopErr := 0 } ∧ t.sys.werr.reason = 1 ∧ Only [.sys, .lvn] s t))) ∧
    (∀ n : Nat, s.lvn.loopRes = 1 → Runs (.lvnLoopDone n) s fun t => t.lvn = { s.lvn with
      loopRes := (if n = 0 then 2 else 3), loopErr := min 255 n, loop := 0 } ∧ Only [.lvn] s t)

/-- The rows of slices and ring entries (R386, R390, R394, R397, R398). -/
def Obligations.RecordsEnterTheirPages : Prop :=
  ∀ (s : State),
    (∀ (n : Fin 80) (x : Slice), s.pev.pts[n].slice = some x → x.stop ≤ s.pev.start + scanTicksOf s.scanCode →
      s.activeUnit = true → s.recd.st = .run →
      (s.recd.slWait.length < 8 → Runs (.sliceClose n) s fun t => t.pev.pts[n].slice = none ∧
        (s.recd.slOpen.length < 31 → t.recd.slOpen = s.recd.slOpen ++ [sliceBytes s n.val x] ∧ t.recd.slWait = s.recd.slWait) ∧
        (31 ≤ s.recd.slOpen.length → t.recd.slOpen = [] ∧
          (s.recd.busy.isSome = true ∨ s.mmc.st ≠ .ready → t.recd.busy = s.recd.busy ∧
            t.recd.slWait = s.recd.slWait ++ [s.recd.slOpen ++ [sliceBytes s n.val x]]) ∧
          (commitMay s = true → s.recd.rgWait = [] → s.recd.slWait = [] → t.recd.slWait = [] ∧ t.mmc.st = .busy ∧
            t.recd.busy = some (sliceCommit s.recd (s.recd.slOpen ++ [sliceBytes s n.val x])))) ∧
        (∀ m : Fin 80, m ≠ n → t.pev.pts[m] = s.pev.pts[m]) ∧ t.mmc.user = s.mmc.user ∧ Only [.pev, .recd, .mmc] s t) ∧
      (8 ≤ s.recd.slWait.length → Runs (.sliceClose n) s fun t => t.pev.pts[n].slice = none ∧
        t.recd.lostSlices = satInc 255 s.recd.lostSlices ∧ t.recd.slOpen = s.recd.slOpen ∧ Only [.pev, .recd, .evr] s t)) ∧
    (∀ (e : TrEntry) (l : List TrEntry), regionUp rKEP s = true → s.ann.recQ = e :: l → s.activeUnit = true →
      (s.recd.st = .run → s.recd.rgOpen.entries.length < 127 → s.recd.lost = 0 → Runs (.recEntry false) s fun t =>
        t.ann.recQ = l ∧ t.recd.rgOpen.entries = s.recd.rgOpen.entries ++ [entryBytes e] ∧ t.recd.rgWait = s.recd.rgWait ∧
        Only [.ann, .recd] s t) ∧
      (s.recd.st = .run → 127 ≤ s.recd.rgOpen.entries.length → s.recd.rgWait.length < 64 → s.recd.lost = 0 →
        Runs (.recEntry false) s fun t => t.recd.rgOpen.entries = [entryBytes e] ∧
          (s.recd.busy.isSome = true ∨ s.mmc.st ≠ .ready → t.recd.busy = s.recd.busy ∧
            t.recd.rgWait = s.recd.rgWait ++ [s.recd.rgOpen]) ∧
          (commitMay s = true → s.recd.rgWait = [] → t.recd.rgWait = [] ∧ t.mmc.st = .busy ∧
            t.recd.busy = some (ringCommit s.recd s.recd.rgOpen)) ∧ t.mmc.user = s.mmc.user ∧ Only [.ann, .recd, .mmc] s t) ∧
      (s.recd.st = .mediaError ∨ s.recd.st = .stopped → Runs (.recEntry false) s fun t => t.ann.recQ = l ∧
        t.recd.rgOpen = s.recd.rgOpen ∧ t.recd.lost = satInc 0xFFFFFFFF s.recd.lost ∧ Only [.ann, .recd, .evr] s t)) ∧
    (∀ (e : TrEntry) (l : List TrEntry), regionUp rKEP s = true → s.recd.subQ = e :: l → s.activeUnit = true →
      s.recd.st = .run → s.recd.rgOpen.entries.length < 127 → s.recd.lost = 0 → Runs (.recEntry true) s fun t =>
        t.recd.subQ = l ∧ t.recd.rgOpen.entries = s.recd.rgOpen.entries ++ [entryBytes e] ∧ Only [.recd] s t) ∧
    (regionUp rKEP s = true → s.recd.slWait.length < 8 → Runs .sliceFlushExpiry s fun t => t.recd.slOpen = [] ∧
      (commitMay s = false → t.recd.slWait = s.recd.slWait ++ (if s.recd.slOpen = [] then [] else [s.recd.slOpen])) ∧
      (commitMay s = true → s.recd.rgWait = [] → s.recd.slWait = [] → s.recd.slOpen ≠ [] →
        t.recd.busy = some (sliceCommit s.recd s.recd.slOpen) ∧ t.recd.slWait = [] ∧ t.mmc.st = .busy) ∧
      t.mmc.user = s.mmc.user ∧ Only [.recd, .mmc] s t) ∧
    (regionUp rKEP s = true → s.recd.rgWait.length < 64 → s.recd.rgOpen.entries ≠ [] → Runs .ringFlushExpiry s fun t =>
      t.recd.rgOpen = {} ∧ (commitMay s = false → t.recd.rgWait = s.recd.rgWait ++ [s.recd.rgOpen]) ∧
      (commitMay s = true → s.recd.rgWait = [] → t.recd.busy = some (ringCommit s.recd s.recd.rgOpen) ∧
        t.recd.rgWait = [] ∧ t.mmc.st = .busy) ∧ t.mmc.user = s.mmc.user ∧ Only [.recd, .mmc] s t)

/-- The rows of commits, checkpoints and recovery (R387, R389, R395, R396, R398 to R400). -/
def Obligations.PagesAreCommittedAndRecovered : Prop :=
  ∀ (s : State), regionUp rKEP s = true →
    (commitMay s = true → s.recd.rgWait = [] → s.recd.rgOpen.entries ≠ [] →
      Runs .recFlush s fun t => t.recd.busy = some (ringCommit s.recd s.recd.rgOpen) ∧ t.recd.rgOpen = {} ∧
        t.recd.rgWait = [] ∧ t.mmc.st = .busy ∧ t.mmc.user = s.mmc.user ∧ Only [.recd, .mmc] s t) ∧
    (∀ c : Commit, s.recd.busy = some c → s.recd.st = .run → s.recd.rgWait = [] → s.recd.slWait = [] → s.recd.ckCommits < 15 →
      tblWf zeroSector s.mmc.user = true → Runs .pageCommitDone s fun t => t.recd.busy = none ∧ t.mmc.st = .ready ∧
        slotData t c.ring c.slot = (c.data ++ List.replicate 4096 0).take 4096 ∧
        sectorGet t (slotBase s.recd c.ring c.slot + 8) = trailerBytes s c ∧
        (t.recd.area c.ring).seq = c.seq + 1 ∧
        (t.recd.area c.ring).slot = (if c.slot + 1 < areaSlots s c.ring then c.slot + 1 else 0) ∧
        t.recd.area (!c.ring) = s.recd.area (!c.ring) ∧ Only [.recd, .mmc] s t) ∧
    (s.recd.busy.isSome = true → Runs .recCommitTimeout s fun t =>
      t.mmc = { s.mmc with cntTimeout := satInc 255 s.mmc.cntTimeout } ∧ Only [.mmc] s t) ∧
    (s.recd.st = .run → Runs .checkpointTimer s fun t => t.recd = { s.recd with ckCount := s.recd.ckCount + 1, ckCommits := 0 } ∧
      t.mmc.st = s.mmc.st ∧ Only [.recd, .mmc] s t) ∧
    (s.recd.st = .off → 7 ≤ s.sys.step → bankHas s.activeBank secREC = true → s.mmc.st = .ready →
      (s.mmc.cap < mibSectors * (1 + s.recd.ledger + s.recd.ring + 16) → Runs .recRecovery s fun t =>
        t.recd.st = .noSpace ∧ t.recd.ledger = s.recd.ledger ∧ t.recd.ring = s.recd.ring ∧ t.mmc.st = .ready) ∧
      (mibSectors * (1 + s.recd.ledger + s.recd.ring + 16) ≤ s.mmc.cap → Runs .recRecovery s fun t =>
        t.recd.st = .scanning ∧ t.recd.ledger = s.recd.ledger ∧ t.recd.ring = s.recd.ring ∧ t.mmc.st = .ready ∧
        t.recd.rgOpen.start = true)) ∧
    (s.recd.st = .off → 7 ≤ s.sys.step → bankHas s.activeBank secREC = false → s.mmc.st = .ready → Runs .recRecovery s fun t =>
      t.recd.st = .off ∧ t.recd.ledger = s.recd.ledger ∧ t.recd.ring = s.recd.ring ∧ t.mmc.st = .ready) ∧
    (s.recd.st = .scanning → s.recd.rgWait = [] → s.recd.slWait = [] → Runs .recRecoveryDone s fun t =>
      t.recd.st = .run ∧ t.recd.fullscan = false ∧ t.mmc = s.mmc ∧ Only [.recd, .evr] s t) ∧
    (s.recd.st = .run → Runs (.recStop true) s fun t => t.recd.st = .stopped ∧ t.recd.stopFrom = .run) ∧
    (s.recd.st = .noSpace ∨ s.recd.st = .mediaError → Runs (.recStop true) s fun t =>
      t.recd = { s.recd with st := .stopped, stopFrom := s.recd.st } ∧ Only [.recd] s t) ∧
    (s.recd.st = .stopped → Runs (.recStop false) s fun t => t.recd.st = s.recd.stopFrom) ∧
    (∀ src : Source, (s.recd.st = .stopped → Runs (.recFormat src 0x5C) s fun t =>
        t.recd.sliceArea = {} ∧ t.recd.ringArea = {} ∧ t.recd.starts = 0 ∧ t.recd.st = .stopped) ∧
      (∀ key : Byte, s.recd.st = .stopped → key ≠ 0x5C → Runs (.recFormat src key) s fun t =>
        t.sys.werr.reason = 9 ∧ Only [.sys] s t) ∧
      (∀ key : Byte, s.recd.st ≠ .stopped → Runs (.recFormat src key) s fun t => t.sys.werr.reason = 8 ∧ Only [.sys] s t))

/-- The rows of reads and of the card's errors (R404, R406). -/
def Obligations.PagesAreReadAndCardErrorsHandled : Prop :=
  ∀ (s : State), regionUp rKEP s = true →
    (∀ (ring : Bool) (op : Nat) (x : Instr),
      ((x = .recReadSeq ring ∧ op = 1) ∨ (x = .recFindTime ring ∧ op = 2) ∨ (x = .recReadNext ring ∧ op = 3) ∨
        (x = .recReadOpen ring ∧ op = 4)) →
      (s.recd.rdPend = false → Runs x s fun t =>
        t.recd = { s.recd with rdPend := true, rdOp := op, rdRing := ring } ∧ Only [.recd] s t) ∧
      (s.recd.rdPend = true → Runs x s fun t => t.recd = { s.recd with rdCode := 4 } ∧ Only [.recd] s t)) ∧
    (s.recd.rdPend = true → s.recd.st = .run →
      (s.recd.rdOp = 4 → s.recd.rdRing = true → ∀ media : Bool, Runs (.recReadDone media) s fun t =>
        t.recd.rdPend = false ∧ t.recd.rdCode = 5 ∧ t.recd.rdCount = s.recd.rgOpen.entries.length ∧
        t.recd.buf = ringBytes s.recd.rgOpen ∧ Only [.recd, .evr, .drawn] s t) ∧
      (s.recd.rdOp = 1 → heldPages s s.recd.rdRing = [] → ∀ media : Bool, Runs (.recReadDone media) s fun t =>
        t.recd.rdPend = false ∧ t.recd.rdCode = 1 ∧ t.recd.rdCount = 0 ∧ t.recd.buf = s.recd.buf ∧ Only [.recd, .evr] s t) ∧
      (s.recd.rdOp = 1 → ∀ (k : Nat) (l : List (Nat × Nat)), heldPages s s.recd.rdRing = (s.recd.argLo.toNat, k) :: l →
        dataOk s s.recd.rdRing k = true → s.recd.argHi = 0 → Runs (.recReadDone false) s fun t => t.recd.rdPend = false ∧
          t.recd.rdCode = 0 ∧ t.recd.buf = slotData s s.recd.rdRing k ∧ Only [.recd, .evr] s t)) ∧
    (∀ (crc : Bool) (cmd : BitVec 6) (rsp : Word) (ok : Bool), s.mmc.st = .ready →
      (s.mmc.retries < 3 → Runs (.mmcCommandFail crc cmd rsp ok) s fun t => t.mmc.retries = s.mmc.retries + 1 ∧
        t.mmc.last = cmd.toNat ∧ t.mmc.lastRsp = rsp ∧ t.mmc.st = .ready ∧ Only [.mmc] s t) ∧
      (3 ≤ s.mmc.retries → ok = true → s.mmc.reinits = [] → s.recd.busy = none → Runs (.mmcCommandFail crc cmd rsp ok) s fun t =>
        t.mmc.retries = 0 ∧ t.mmc.st = .ready ∧ t.mmc.cntReinit = satInc 255 s.mmc.cntReinit ∧ Only [.mmc, .evr] s t) ∧
      (3 ≤ s.mmc.retries → ok = false → s.recd.st = .run → Runs (.mmcCommandFail crc cmd rsp ok) s fun t =>
        t.mmc.st = .error ∧ t.recd.st = .mediaError ∧ Only [.mmc, .recd, .evr] s t)) ∧
    (s.mmc.st = .error → Runs (.mmcReinitTimer false) s (fun t => t = s) ∧
      (bankHas s.activeBank secREC = false → s.age.setDirty = false → Runs (.mmcReinitTimer true) s fun t => t.mmc.st = .ready ∧ t.mmc.retries = 0))

/-- The panel's rows (R411 to R413, R415, R417, R421, R424, R425, R427, R428). -/
def Obligations.ThePanelDrivesItsUpdates : Prop :=
  ∀ (s : State), pnlUp s = true →
    (∀ (src : Source) (tag : Byte) (split : Bool) (m : BitVec 4),
      (updRefusal s (src == .chip) (updRect s.pnl) m.toNat = 0 → Runs (.pnlUpdateRequest src tag split m) s fun t =>
        t.pnl.queue = updEnqueue (.mk (updRect s.pnl).widen m.toNat [tag] split false) s.pnl.queue ∧
        t.pnl.resTag = tag ∧ t.pnl.resCode = 0 ∧ t.pnl.cur = s.pnl.cur ∧ t.pnl.prev = s.pnl.prev ∧
        (s.pnl.st = .off → s.pnl.resting = false → canQuiet s = false → t.pnl.st = .powering ∧ t.sys.pins.pnlPwren = true) ∧
        Only [.pnl, .sys] s t) ∧
      (∀ code : Nat, updRefusal s (src == .chip) (updRect s.pnl) m.toNat = code → 2 ≤ code →
        Runs (.pnlUpdateRequest src tag split m) s fun t => t.pnl = { s.pnl with resTag := tag, resCode := code } ∧
        Only [.pnl] s t) ∧
      (s.pnl.st = .none → Runs (.pnlUpdateRequest src tag split m) s fun t => t.pnl.resCode = 6 ∧ t.pnl.queue = s.pnl.queue ∧
        Only [.pnl] s t)) ∧
    (s.pnl.st ≠ .none → updRefusal s true s.wholePanel s.clearMode = 0 → Runs .pnlRefresh s fun t =>
      (∃ r ∈ t.pnl.queue, r.rect = (s.wholePanel).widen ∧ r.mode = s.clearMode) ∧ Only [.pnl, .sys, .drawn] s t) ∧
    (s.pnl.st = .powering → s.pnl.repairs = [] → Runs .pnlRailsReady s fun t =>
      t.pnl = { s.pnl with st := .run, vcomBand := s.pnl.band, vcomDue := false, faulted := false } ∧ Only [.pnl, .evr] s t) ∧
    (s.pnl.st = .run → s.pnl.slots = [] → s.pnl.queue = [] → s.pnl.repairs = [] → Runs .pnlRailIdle s fun t =>
      t.pnl = { s.pnl with st := .off } ∧ t.sys.pins.pnlPwren = false ∧ Only [.pnl, .sys] s t) ∧
    ((s.pnl.st = .run ∨ s.pnl.st = .powering) →
      ((recent (sec 600) s.now s.pnl.faults).length < 2 → Runs .pnlRailFault s fun t => t.pnl.st = .off ∧ t.pnl.resting = true ∧
        t.pnl.slots = [] ∧ t.pnl.railf = satInc 255 s.pnl.railf ∧ t.sys.pins.pnlPwren = false) ∧
      (2 ≤ (recent (sec 600) s.now s.pnl.faults).length → Runs .pnlRailFault s fun t => t.pnl.st = .railFault ∧
        t.pnl.slots = [] ∧ t.sys.pins.pnlPwren = false)) ∧
    (s.pnl.st = .off → s.pnl.resting = true → canQuiet s = false → Runs .pnlRailRetry s fun t => t.pnl.resting = false ∧
      t.pnl.st = (if s.pnl.queue = [] ∧ s.pnl.repairs = [] then .off else .powering) ∧ Only [.pnl, .sys] s t) ∧
    (s.pnl.st = .railFault → canQuiet s = false →
      Runs .pnlRailFaultRetry s (fun t => t.pnl = { s.pnl with st := .powering } ∧ t.sys.pins.pnlPwren = true ∧
        Only [.pnl, .sys] s t) ∧
      Runs .pnlRetry s (fun t => t.pnl.resting = false ∧
        t.pnl.st = (if s.pnl.queue = [] ∧ s.pnl.repairs = [] then .off else .powering) ∧ Only [.pnl, .sys] s t)) ∧
    (∀ mv : BitVec 12, s.pnl.st ≠ .none → s.pnl.samples = [] →
      (50 ≤ mv.toNat → mv.toNat ≤ 2450 → s.pnl.tempFault = false → Runs (.pnlTempSample mv) s fun t =>
        t.pnl.samples = [mv.toNat] ∧ t.pnl.okRow = s.pnl.okRow + 1 ∧ t.pnl.tempFault = false ∧ Only [.pnl] s t) ∧
      ((mv.toNat < 50 ∨ 2450 < mv.toNat) → s.pnl.tempFault = false → Runs (.pnlTempSample mv) s fun t =>
        t.pnl.tempFault = true ∧ t.pnl.okRow = 0 ∧ Raised 48 (put 0 4 5) s t ∧ Only [.pnl, .evr] s t)) ∧
    (s.pnl.st = .run → s.pnl.band ≠ s.pnl.vcomBand → Runs .pnlVcomChange s fun t =>
      t.pnl = { s.pnl with vcomDue := true } ∧ Only [.pnl] s t) ∧
    (∀ (late : Nat) (k : PnlSlot), s.pnl.st = .run → s.pnl.queue = [] → s.pnl.slots = [k] → s.pnl.band = s.pnl.vcomBand →
      (k.frame + 1 < k.frames → Runs (.pnlFrameBoundary late) s fun t => t.pnl.slots = [{ k with frame := k.frame + 1 }] ∧
        t.pnl.prev = s.pnl.prev ∧ t.pnl.late = satAdd 255 s.pnl.late late ∧ Only [.pnl] s t) ∧
      (k.frames ≤ k.frame + 1 → Runs (.pnlFrameBoundary late) s fun t => t.pnl.slots = [] ∧
        t.pnl.prev = planeCopy s k.req.rect s.pnl.prev k.target ∧ t.pnl.cur = s.pnl.cur ∧ Only [.pnl, .evr] s t)) ∧
    (∀ (src : Source) (off : Half) (v : Word) (a : Nat), a = 65536 * s.pnl.fbPage + off.toNat / 4 * 4 →
      (s.stride ≠ 0 → byteIn s s.hostArea a = true → Runs (.fbApertureWrite src off v) s fun t =>
        t.pnl = { s.pnl with cur := memFill s.pnl.cur a (bytesLE 4 v.toNat) } ∧ Only [.pnl] s t) ∧
      (s.stride = 0 ∨ byteIn s s.hostArea a = false → Runs (.fbApertureWrite src off v) s fun t =>
        t.sys.werr.reason = 0xA ∧ Only [.sys] s t))

/-- The renderer's rows (R430, R431, R433, R436). -/
def Obligations.TheRendererShowsAndTakesKeys : Prop :=
  ∀ (s : State),
    (rndOn s = true →
      (bodyNow s = s.rnd.body → headNow s = s.rnd.head → footNow s = s.rnd.foot → s.rnd.owed = [] →
        Runs .rndRedraw s fun t => t = s) ∧
      (headNow s ≠ s.rnd.head → Runs .rndRedraw s fun t => t.rnd.body = bodyNow s ∧ t.rnd.head = headNow s ∧
        t.rnd.foot = footNow s ∧ t.rnd.listed = (alarmList s).map (·.addr) ∧ t.pnl.prev = s.pnl.prev)) ∧
    (pnlUp s = true →
      (∀ (src : Source) (p : BitVec 2) (g : BitVec 10),
        (p ≠ 3 → g.toNat < s.grpCount → Runs (.rndPageSelect src p g) s fun t => t.rnd.page = p.toNat ∧ t.rnd.group = g.toNat ∧
          (p.toNat ≠ s.rnd.page → t.rnd.sel = 0 ∧ t.rnd.top = 0 ∧ Raised 49 (put 0 4 2 ||| put 8 8 p.toNat) s t) ∧
          Only [.rnd, .evr] s t) ∧
        (p = 3 → s.grpCount ≤ g.toNat → Runs (.rndPageSelect src p g) s fun t => t.rnd = s.rnd ∧ t.sys.werr.reason = 9 ∧
          Only [.sys] s t)) ∧
      (∀ (e : BitVec 5) (b : BitVec 4) (key : Nat) (x : Instr),
        ((x = .rndKeyUp ∧ key = 1) ∨ (x = .rndKeyDown ∧ key = 2) ∨ (x = .rndKeyPage ∧ key = 3) ∨ (x = .rndKeySelect ∧ key = 4) ∨
          (x = .rndKeyAck ∧ key = 5) ∨ (x = .rndKeyAckPage ∧ key = 6) ∨ (x = .rndKeySilence ∧ key = 7) ∨
          (x = .rndKeyAckCall e ∧ key = 8) ∨ (x = .rndKeyDuty e ∧ key = 9) ∨ (x = .rndKeyBad b ∧ key = b.toNat ∧ 10 ≤ key)) →
        (s.rnd.keyPend = true → Runs x s fun t => t.rnd = { s.rnd with resKey := key, resBlk := 0, resCode := 1 } ∧
          Raised 49 (put 0 4 1 ||| put 8 8 1) s t ∧ Only [.rnd, .evr] s t) ∧
        (s.rnd.keyPend = false → s.standby = true → 5 ≤ key → key ≤ 9 → Runs x s fun t =>
          t.rnd = { s.rnd with resKey := key, resBlk := 0, resCode := 2 } ∧ Only [.rnd, .evr] s t)) ∧
      (s.rnd.keyPend = false →
        Runs .rndKeyUp s (fun t => t.rnd.sel = min (s.rnd.sel - 1) (selCount s - 1) ∧ t.rnd.resKey = 1 ∧ t.rnd.resCode = 0 ∧
          Only [.rnd, .evr] s t) ∧
        Runs .rndKeyDown s (fun t => t.rnd.sel = min (s.rnd.sel + 1) (selCount s - 1) ∧ t.rnd.resKey = 2 ∧ t.rnd.resCode = 0 ∧
          Only [.rnd, .evr] s t) ∧
        Runs .rndKeyPage s (fun t => t.rnd.page = (s.rnd.page + 1) % 3 ∧ t.rnd.group = s.rnd.group ∧ t.rnd.resCode = 0 ∧
          Only [.rnd, .evr] s t) ∧
        (s.rnd.page = 1 → s.rnd.sel < s.grpCount → Runs .rndKeySelect s fun t => t.rnd.page = 2 ∧ t.rnd.group = s.rnd.sel ∧
          t.rnd.resKey = 4 ∧ t.rnd.resCode = 0 ∧ Only [.rnd, .evr] s t) ∧
        (∀ b : BitVec 4, (b = 0 ∨ 10 ≤ b.toNat) → Runs (.rndKeyBad b) s fun t =>
          t.rnd = { s.rnd with resKey := b.toNat, resBlk := 0, resCode := 3 } ∧ Only [.rnd, .evr] s t) ∧
        (s.standby = false → s.ann.queue.length < 32 →
          (∀ a : Nat, s.rnd.page = 0 → s.rnd.listed[s.rnd.sel]? = some a → Runs .rndKeyAck s fun t =>
            t.ann.queue = s.ann.queue ++ [.mk 1 0 a 0 false (keyOrigin s) 5 []] ∧ t.rnd = { s.rnd with keyPend := true } ∧
            Only [.ann, .rnd, .lvn] s t) ∧
          (∀ (a : Nat) (l : List Nat), shownPoints s = a :: l → Runs .rndKeyAckPage s fun t =>
            t.ann.queue = s.ann.queue ++ [.mk 1 0 a 0 false (keyOrigin s) 6 l] ∧ t.rnd = { s.rnd with keyPend := true } ∧
            Only [.ann, .rnd, .lvn] s t) ∧
          Runs .rndKeySilence s (fun t => t.ann.queue = s.ann.queue ++ [.mk 2 2 0 0 false (keyOrigin s) 7 []] ∧
            t.rnd = { s.rnd with keyPend := true } ∧ Only [.ann, .rnd, .lvn] s t)) ∧
        (s.standby = false → callOn s = true → s.call.pend = false → ∀ e : BitVec 5,
          (∀ n : Nat, s.rnd.session = some n → Runs (.rndKeyAckCall e) s fun t =>
            t.call.cmds.length = s.call.cmds.length + 1 ∧ (∃ c ∈ t.call.cmds, c.op = 2 ∧ c.session = n ∧ c.src = 0xFB ∧ c.key = 8) ∧
            t.rnd.keyPend = true ∧ Only [.call, .rnd, .lvn] s t) ∧
          Runs (.rndKeyDuty e) s (fun t => t.call.cmds.length = s.call.cmds.length + 1 ∧
            (∃ c ∈ t.call.cmds, c.op = 1 ∧ c.eng = e.toNat ∧ c.src = 5 ∧ c.key = 9) ∧ t.rnd.keyPend = true ∧
            Only [.call, .rnd, .lvn] s t))))

/-- The rows of AGE (R469 to R478, R480). The cases of the HOLD test and of the ledger rest on log 24. -/
def Obligations.TheLedgerMeasuresAndCorrects : Prop :=
  ∀ (s : State),
    (∀ (m : AgeMeas) (x : Instr), (x = .ageMeasure m ∨
        (∃ (c : Fin 16) (a b : Int), x = .ageRefCheck c a b ∧ m = .ref c a b) ∨
        (∃ (c : Fin 4) (err : Int) (secs : Nat), x = .ageAoGain c err secs ∧ m = .gain c err secs) ∨
        (∃ (c : Fin 16) (r : Nat), x = .ageDioSwitch c r ∧ m = .switch c r) ∨ (x = .ageTcxoSample ∧ m = .tcxo) ∨
        (∃ (cap esr : Nat) (p ab : Bool), (x = .ageHoldTest cap esr p ab ∨ x = .ageTestHold cap esr p ab) ∧ m = .hold cap esr p ab) ∨
        (∃ a b e : Byte, x = .ageEmmcWear a b e ∧ m = .wear a b e) ∨
        (∃ (d : Fin 24) (r : Nat), x = .ageBarrierTest d r ∧ m = .barrier d r)) →
      (s.age.st = .off ∨ itemNa s (measItem m) = true → Runs x s fun t => t = s) ∧
      (s.age.st ≠ .off → itemNa s (measItem m) = false →
        (∀ (c : Fin 16) (a b : Int) (i : Fin 64), m = .ref c a b → i.val = c.val →
          (a.natAbs ≤ 50000 → Runs x s fun t => t.age.items[i].valid = true ∧ t.age.items[i].value = a ∧
            t.age.items[i].tMeas = s.stamp ∧ t.age.items[i].corr = s.age.items[i].corr ∧ Only [.age, .evr] s t) ∧
          (50000 < a.natAbs → b.natAbs ≤ 50000 → s.ageEn 0 = true → Runs x s fun t =>
            (t.age.items[i].corr - s.age.items[i].corr).natAbs ≤ 20000 ∧
            (100000 < (a - s.age.items[i].corr).natAbs → t.age.items[i].corr = s.age.items[i].corr ∧ t.age.items[i].due = true ∧
              t.ui = s.ui) ∧ Only [.age, .evr, .ui, .drawn] s t)) ∧
        (∀ (c : Fin 4) (err : Int) (secs : Nat) (i : Fin 64), m = .gain c err secs → i.val = 16 + c.val →
          (secs < 600 → Runs x s fun t => t = s) ∧
          (600 ≤ secs → Runs x s fun t => t.age.items[i].value = err ∧ t.age.items[i].valid = true ∧
            (s.ageEn 1 = false → t.age.items[i].corr = 0) ∧
            (s.ageEn 1 = true → (t.age.items[i].corr - s.age.items[i].corr).natAbs ≤ 200000) ∧ Only [.age, .evr] s t)) ∧
        (∀ (c : Fin 16) (r : Nat) (i : Fin 64), m = .switch c r → i.val = 20 + c.val → Runs x s fun t =>
          t.age.items[i].value = r ∧ t.age.items[i].valid = true ∧ t.dio[c].lampBound = s.ageNat 11 1 10 ∧
          (s.ageEn 2 = false → t.dio[c].ovlCut = 0) ∧ (s.ageEn 3 = false → t.dio[c].lampRise = 0) ∧
          (∀ k : Fin 16, k ≠ c → t.dio[k] = s.dio[k]) ∧ Only [.age, .evr, .dio] s t) ∧
        (m = .tcxo → (s.tim.st = .locked → Runs x s fun t =>
            t.age.bands[tempBand s] = ((s.age.bands[tempBand s]).1 + s.tim.corr, (s.age.bands[tempBand s]).2 + 1) ∧
            Only [.age, .evr] s t) ∧
          (s.tim.st = .free ∨ s.tim.st = .acquiring → s.ageEn 4 = true → (s.age.bands[tempBand s]).2 ≠ 0 → Runs x s fun t =>
            (∀ b : Int, b = s.ageNat 12 2 1000 * 10 →
              t.tim = { s.tim with corr := clampI (-b) b (bandMean s.age.bands[tempBand s]) }) ∧ Only [.age, .evr, .tim] s t) ∧
          (s.tim.st = .holdover ∨ (s.tim.st ≠ .locked ∧ (s.ageEn 4 = false ∨ (s.age.bands[tempBand s]).2 = 0)) →
            Runs x s fun t => t = s)) ∧
        (∀ (cap esr : Nat) (p ab : Bool), m = .hold cap esr p ab →
          (holdMayTest s p = false → s.age.holdTries < 6 → Runs x s fun t =>
            t.age = { s.age with holdTries := s.age.holdTries + 1 } ∧ Only [.age] s t) ∧
          (holdMayTest s p = false → 6 ≤ s.age.holdTries → Runs x s fun t => t.age = { s.age with holdTries := 0 } ∧
            Raised 53 (put 0 4 5 ||| put 8 8 37) s t ∧ Only [.age, .evr] s t) ∧
          (holdMayTest s p = true → ab = true → Runs x s fun t => t.age = { s.age with holdTries := 0 } ∧
            Only [.age, .evr] s t) ∧
          (holdMayTest s p = true → ab = false → Runs x s fun t => t.age.holdTries = 0 ∧ t.age.items[37].value = cap ∧
            t.age.items[38].value = esr ∧ Only [.age, .evr, .sup] s t)) ∧
        (∀ a b e : Byte, m = .wear a b e →
          (ledgerUp s = false → Runs x s fun t => t = s) ∧
          (ledgerUp s = true → Runs x s fun t => t.mmc.lifeA = a.toNat ∧ t.mmc.lifeB = b.toNat ∧ t.mmc.preEol = e.toNat ∧
            t.age.items[39].value = max (lifePercent a) (lifePercent b) * 1000 ∧ Only [.age, .evr, .mmc] s t)) ∧
        (∀ (d : Fin 24) (r : Nat) (i : Fin 64), m = .barrier d r → i.val = 40 + d.val → r ≤ 100000000 → Runs x s fun t =>
          t.age.items[i].value = max 1000 r ∧ (r < 20000 → t.age.lowBar.getLsbD d.val = true) ∧
          (25000 < r → t.age.lowBar.getLsbD d.val = false) ∧ (20000 ≤ r → r ≤ 25000 → t.age.lowBar = s.age.lowBar) ∧
          Only [.age, .evr] s t))) ∧
    (s.age.st = .off → ∀ ok : Bool, Runs (.ageLedgerPage ok) s fun t => t = s) ∧
    (s.age.st ≠ .off → Runs (.ageLedgerPage false) s fun t => t.age = { s.age with wfail := satInc 255 s.age.wfail } ∧
      Raised 53 (put 0 4 7) s t ∧ Only [.age, .evr] s t) ∧
    (s.age.st ≠ .off → ledgerUp s = true → s.age.slot < ledgerSlots s → Runs (.ageLedgerPage true) s fun t =>
      t.age = { s.age with seq := s.age.seq + 1, slot := (if s.age.slot + 1 < ledgerSlots s then s.age.slot + 1 else 0) } ∧
      Only [.age, .mmc] s t) ∧
    (s.age.scanning = false → Runs .ageLedgerScanDone s fun t => t = s) ∧
    (s.age.scanning = true → Runs .ageLedgerScanDone s fun t => t.age.st = .run ∧ t.age.scanning = false ∧
      Only [.age, .dio, .evr, .ui, .drawn] s t) ∧
    (∀ (src : Source) (item : Byte),
      (∀ i : Fin 64, item.toNat = i.val → (s.standby = false ∨ i.val < 16 ∨ 35 < i.val) →
        Runs (.ageAckDue src item) s (fun t => t.age.items[i].due = s.age.items[i].due ∧
          (s.age.items[i].due = true → t.age.items[i].ack = true ∧ t.age.items[i].ackMargin = s.age.items[i].margin) ∧ (∀ k : Fin 64, k ≠ i → t.age.items[k] = s.age.items[k]) ∧
          Only [.age] s t) ∧
        Runs (.ageRebase src item) s (fun t => t.age.items[i].base = none ∧ t.age.items[i].due = false ∧
          t.age.items[i].atLimit = false ∧ t.age.items[i].corr = s.age.items[i].corr ∧
          (∀ k : Fin 64, k ≠ i → t.age.items[k] = s.age.items[k]) ∧ Only [.age, .evr] s t)) ∧
      (∀ x : Instr, (x = .ageAckDue src item ∨ x = .ageRebase src item) →
        (64 ≤ item.toNat → Runs x s fun t => t.sys.werr.reason = 9 ∧ Only [.sys] s t) ∧
        (s.standby = true → 16 ≤ item.toNat → item.toNat ≤ 35 → Runs x s fun t => t.sys.werr.reason = 8 ∧ Only [.sys] s t)) ∧
      Runs (.ageCmdBadOp src) s (fun t => t.sys.werr.reason = 9 ∧ Only [.sys] s t))

/-- Reads (R5, R8), periodic loopbacks (R43, R483) and the TAP (R487). -/
def Obligations.ReadsClearLatchAndLoopbacksIsolate : Prop :=
  ∀ (s : State),
    (∀ addr : BitVec 24,
      (s.powered = false ∨ rcRegs.contains addr.toNat = false → Runs (.readClear addr) s fun t => t = s) ∧
      (s.powered = true → rcRegs.contains addr.toNat = true →
        ((busRead s addr.toNat).1 ≠ 0 → Runs (.readClear addr) s fun t => t.sys.readOut = ((busRead s addr.toNat).1, 0) ∧
          t.sys.werr = s.sys.werr ∧ Only [.sys] s t) ∧
        ((busRead s addr.toNat).1 = 0 → Runs (.readClear addr) s fun t => t.sys.readOut = (0, (busRead s addr.toNat).2) ∧
          (addr = 0x000024 → t.sys.werr = { s.sys.werr with cnt := 0 } ∧ Only [.sys] s t) ∧
          (addr = 0x0C0000 → t.age = { s.age with wfail := 0 } ∧ Only [.sys, .age] s t) ∧
          (addr = 0x040000 → t.pev = { s.pev with late := 0 } ∧ Only [.sys, .pev] s t) ∧
          (addr = 0x064004 → t.imz = { s.imz with badId := 0, badLen := 0, stranger := 0, dup := 0 } ∧ Only [.sys, .imz] s t) ∧
          (addr = 0x066000 → t.tim = { s.tim with steps := 0 } ∧ Only [.sys, .tim] s t) ∧
          (addr = 0x080014 → t.recd = { s.recd with lostEntries := 0, lostSlices := 0, cntCrc := 0 } ∧ Only [.sys, .recd] s t) ∧
          (addr = 0x0A0020 → t.pnl = { s.pnl with late := 0, abandoned := 0, railf := 0, busy := 0 } ∧ Only [.sys, .pnl] s t) ∧
          (∀ k : Fin 4, addr.toNat = 0x060018 + 0x1000 * k.val →
            t.can[k] = { s.can[k] with cntBusoff := 0, cntDbit := 0, cntForeign := 0, cntPxe := 0 } ∧ (∀ j : Fin 4, j ≠ k → t.can[j] = s.can[j]) ∧
            Only [.sys, .can] s t))) ∧
      (s.powered = false ∨ loRegs.contains addr.toNat = false → Runs (.timeLoRead addr) s fun t => t = s) ∧
      (s.powered = true → loRegs.contains addr.toNat = true →
        ((busRead s addr.toNat).1 ≠ 0 → Runs (.timeLoRead addr) s fun t =>
          t.sys = { s.sys with readOut := ((busRead s addr.toNat).1, 0) } ∧ Only [.sys] s t) ∧
        ((busRead s addr.toNat).1 = 0 → Runs (.timeLoRead addr) s fun t => t.sys.readOut = (0, (busRead s addr.toNat).2) ∧
          (∀ w : Word, tblGet w t.sys.hiLatch addr.toNat = (regLive s (addr.toNat + 4)).getD 0) ∧ t.sys.werr = s.sys.werr ∧
          Only [.sys] s t))) ∧
    (∀ (l : LoopCell) (pass retry : Bool) (cause : Fin 5),
      (pass = true ∨ retry = true ∨ loopCell s l = none → Runs (.periodicLoopback l pass retry cause) s fun t => t = s) ∧
      (∀ b c : Nat, loopCell s l = some (b, c) → Runs (.periodicLoopback l false false cause) s fun t =>
        isIsolated b c t = true ∧ t.pending = s.pending ∧ t.now = s.now)) ∧
    (∀ i : BitVec 4,
      Runs (.jtagInstruction i false) s (fun t => t.tst = { s.tst with jtag := 1 } ∧ Only [.tst] s t) ∧
      (jtagTakes i = false → Runs (.jtagInstruction i true) s fun t => t.tst = { s.tst with jtag := i } ∧ Only [.tst] s t) ∧
      (jtagTakes i = true → s.sup.powerGood = true → s.sys.inp.resetn = true → Runs (.jtagInstruction i true) s fun t =>
        t.tst = { s.tst with jtag := i } ∧ t.sys.fltLatched = true ∧ t.sys.pins.faultLow = true ∧
        (s.sys.mode ≠ .safe → s.sys.mode ≠ .lastBreath → t.sys.mode = .safe)))

/-- One feed LOST or LOW while the other is in range (R61); with an event of the feed's quantity within the last 100 ms the
new one waits (R79). -/
def Obligations.OneFeedKeepsFullService : Prop :=
  ∀ (s : State) (f : Fin 2) (v hold w : Half) (c : FeedCond) (rv : Bool) (x : Instr), s.powered = true →
    s.sup.feeds[1 - f].cond = .inRange →
    ((x = .feedLow f v ∧ v.toNat < 1800 ∧ (s.sup.feeds[f].cond = .inRange ∨ s.sup.feeds[f].cond = .high) ∧ c = .low ∧ w = v ∧
        rv = s.sup.feeds[f].rev) ∨
      (x = .feedLost f v hold ∧ v.toNat < 1500 ∧ s.sup.feeds[f].cond ≠ .lost ∧ c = .lost ∧ w = v ∧ rv = false) ∨
      (x = .feedReversed f hold ∧ s.sup.feeds[f].cond ≠ .lost ∧ c = .lost ∧ w = 0 ∧ rv = true) ∨
      (x = .feedLostEnd f v hold ∧ 1650 < v.toNat ∧ v.toNat < 1800 ∧ s.sup.feeds[f].cond = .lost ∧ s.sup.pfail = false ∧
        c = .low ∧ w = v ∧ rv = false)) →
    Runs x s fun t =>
      t.sup.feeds[f] = { s.sup.feeds[f] with cond := c, volt := w, rev := rv } ∧ t.sup.feeds[1 - f] = s.sup.feeds[1 - f] ∧
      t.sup = { s.sup with feeds := t.sup.feeds, holdoff := t.sup.holdoff } ∧
      regLive t 0x000200 = some (supWord t.sup) ∧ fld (supWord t.sup) (2 + 4 * f.val) 2 = c.code ∧
      (s.sup.holdoff[quantityIndex (feedQuantity f)].running = false →
        Raised 52 (supplyWord (16 * f.val + (if c = .low then 1 else 2)) w) s t) ∧
      (s.sup.holdoff[quantityIndex (feedQuantity f)].running = true → t.evr = s.evr) ∧
      (∀ k : Fin 512, k ≠ 52 → t.evr.srcs[k] = s.evr.srcs[k]) ∧ t.evr.hosts = s.evr.hosts ∧ Only [.sup, .evr] s t

/-- How the block steps (log 2): the front command is carried out, an empty queue lets one cycle of the TCXO pass (R70), and the supervisor measures the
feeds every 100 µs (R60). -/
def Obligations.AStepTakesTheFrontCommand : Prop :=
  (∀ (c : Instr) (s : State), step { s with pending := c :: s.pending } = exec c s) ∧
  (∀ s : State, s.pending = [] → ∃ t, step s = .next t ∧ t.mono = s.mono + 1 ∧ Only [.now, .mono, .tim, .sup, .drawn] s t ∧
    (¬ (s.powered = true ∧ (s.mono + 1) % 5000 = 0) → Only [.now, .mono, .tim] s t) ∧
    (s.powered = true → (s.mono + 1) % 5000 = 0 → t.sup = { s.sup with feeds := t.sup.feeds } ∧
      ∀ f : Fin 2, t.sup.feeds[f] = s.sup.feeds[f].measured t.sup.feeds[f].volt ∧
        (s.sup.feeds[f].rev = true → t.sup.feeds[f].volt = 0)) ∧
    (s.tim.frac + s.tim.corr < 1000000000 → -1000000000 < s.tim.frac + s.tim.corr → t.now = s.now + 1)) ∧
  (∀ (s : State) (nbits w : Nat), s.withFetchWord nbits w = s)

/-- What reset leaves: registers whose value the register summary states, among them all whose value is not 0 (R491), and the
canonical form of every memory. -/
def Obligations.ResetIsPlainAndCanonical : Prop :=
  MemWf State.reset ∧ State.reset.pending = [] ∧ State.reset.powered = false ∧ State.reset.sys.outEn = false ∧
  State.reset.evr.hold = false ∧
  (∀ p ∈ ([(0x000010, 0x00001000), (0x000100, 0x00022222), (0x000200, 0x00000200), (0x000218, 0x00000008), (0x040000, 0x00000001),
      (0x066000, 0x0000FF00)] : List (Nat × Word)), regRead State.reset p.1 = some p.2) ∧
  (∀ c : Fin 16, regRead State.reset (uiAddr c 0x48) = some 0x20 ∧ regRead State.reset (0x028044 + 0x100 * c.val) = some 0x5020) ∧
  (∀ c : Fin 4, regRead State.reset (0x024044 + 0x400 * c.val) = some 0x80000 ∧
    regRead State.reset (0x024050 + 0x400 * c.val) = some 0x20) ∧
  (∀ c : Fin 2, regRead State.reset (0x02C050 + 0x100 * c.val) = some 0x20 ∧
    regRead State.reset (0x029000 + 4 * c.val) = some 4 ∧ regRead State.reset (0x0A8000 + 0x20 * c.val) = some 0x10000) ∧
  (∀ a ∈ [0x000020, 0x000024, 0x000104, 0x000108, 0x00010C, 0x000210, 0x000214, 0x010000, 0x010118, 0x040010, 0x040100, 0x040118,
      0x048000, 0x060010, 0x064000, 0x068000, 0x080000, 0x082000, 0x084000, 0x0A0000, 0x0A4000, 0x0C0000, 0x0C0804],
    regRead State.reset a = some 0)

/-- The frame of every command: it completes, and what it may change is `partsOf` it. -/
def Obligations.EveryCommandCompletesAndKeepsTheRest : Prop :=
  ∀ (c : Instr) (s : State), (∃ t, exec c s = .next t ∧ Only (partsOf c) s t ∧ t.pending = s.pending) ∧
    (partsOf c).contains .pending = false

/-- The canonical form of every memory is kept by every step, whatever command stands in front, from every state in which it
holds; that it holds after reset is a statement of its own. -/
def Obligations.EveryStepKeepsTheMemoriesCanonical : Prop :=
  ∀ s t : State, MemWf s → step s = .next t → MemWf t
end

