-- ==== Sys2Proof/Laws/Frame.lean ====
section
/-! SUPPORT. Frame: how `Only` is put together, and each way in which the model updates the state. -/
namespace Sys2Proof.Machine

open Sys2Proof

theorem Only.refl (l : List Part) (s : State) : Only l s s := by
  constructor
  intro p _
  cases p <;> rfl

theorem Part.same_trans {s t u : State} (p : Part) (h : p.same s t) (k : p.same t u) : p.same s u := by
  cases p <;> exact Eq.trans k h

/-- Every part of `m` is a part of `l`. -/
abbrev Part.sub (m l : List Part) : Bool := m.all l.contains

theorem Part.sub_refl (l : List Part) : Part.sub l l = true := by simp

theorem Part.sub_trans {k m l : List Part} (h : Part.sub k m = true) (g : Part.sub m l = true) : Part.sub k l = true := by
  simp only [List.all_eq_true, List.contains_iff_mem] at *
  exact fun x hx => g x (h x hx)

theorem Only.mono {m l : List Part} {s t : State} (h : Only m s t) (k : Part.sub m l = true) : Only l s t := by
  constructor
  intro p hp
  refine h.same p ?_
  cases hm : m.contains p
  · rfl
  · have hm' : p ∈ m := by simpa using hm
    have := List.all_eq_true.mp k p hm'
    rw [hp] at this
    cases this

theorem Only.trans {l : List Part} {s t u : State} (h : Only l s t) (k : Only l t u) : Only l s u :=
  ⟨fun p hp => p.same_trans (h.same p hp) (k.same p hp)⟩

theorem Only.after {m l : List Part} {s t u : State} (h : Only m t u) (k : Part.sub m l = true) (g : Only l s t) :
    Only l s u := g.trans (h.mono k)

theorem Only.ite {l : List Part} {s t u : State} {c : Prop} [Decidable c] (h : Only l s t) (k : Only l s u) :
    Only l s (if c then t else u) := by split <;> assumption

theorem Only.dite {l : List Part} {s : State} {c : Prop} [Decidable c] {f : c → State} {g : ¬c → State}
    (h : ∀ x, Only l s (f x)) (k : ∀ x, Only l s (g x)) : Only l s (if x : c then f x else g x) := by
  split
  · exact h _
  · exact k _

theorem Only.iteSnd {α : Type} {l : List Part} {s : State} {c : Prop} [Decidable c] {p q : α × State} (h : Only l s p.2)
    (k : Only l s q.2) : Only l s (if c then p else q).2 := by split <;> assumption

theorem Only.iteSnd2 {α β : Type} {l : List Part} {s : State} {c : Prop} [Decidable c] {p q : α × β × State}
    (h : Only l s p.2.2) (k : Only l s q.2.2) : Only l s (if c then p else q).2.2 := by split <;> assumption

theorem Only.foldl {α : Type} {l : List Part} {s t : State} {g : State → α → State} {xs : List α}
    (h : ∀ u x, Only l u (g u x)) (k : Only l s t) : Only l s (xs.foldl g t) := by
  induction xs generalizing t with
  | nil => exact k
  | cons x xs ih => exact ih (k.trans (h t x))

/-! ### Updates -/

theorem Only.set_age {l : List Part} {s t : State} {x0 : Age} (h : Only l s t)
    (k : Part.sub [.age] l = true) : Only l s { t with age := x0 } :=
  Only.after ⟨fun p hp => by cases p <;> first | rfl | cases hp⟩ k h

theorem Only.set_ann {l : List Part} {s t : State} {x0 : Ann} (h : Only l s t)
    (k : Part.sub [.ann] l = true) : Only l s { t with ann := x0 } :=
  Only.after ⟨fun p hp => by cases p <;> first | rfl | cases hp⟩ k h

theorem Only.set_ao {l : List Part} {s t : State} {x0 : Vector Ao 4} (h : Only l s t)
    (k : Part.sub [.ao] l = true) : Only l s { t with ao := x0 } :=
  Only.after ⟨fun p hp => by cases p <;> first | rfl | cases hp⟩ k h

theorem Only.set_aoBlk {l : List Part} {s t : State} {x0 : AoBlk} (h : Only l s t)
    (k : Part.sub [.aoBlk] l = true) : Only l s { t with aoBlk := x0 } :=
  Only.after ⟨fun p hp => by cases p <;> first | rfl | cases hp⟩ k h

theorem Only.set_call {l : List Part} {s t : State} {x0 : Call} (h : Only l s t)
    (k : Part.sub [.call] l = true) : Only l s { t with call := x0 } :=
  Only.after ⟨fun p hp => by cases p <;> first | rfl | cases hp⟩ k h

theorem Only.set_can {l : List Part} {s t : State} {x0 : Vector Can 4} (h : Only l s t)
    (k : Part.sub [.can] l = true) : Only l s { t with can := x0 } :=
  Only.after ⟨fun p hp => by cases p <;> first | rfl | cases hp⟩ k h

theorem Only.set_dio {l : List Part} {s t : State} {x0 : Vector Dio 16} (h : Only l s t)
    (k : Part.sub [.dio] l = true) : Only l s { t with dio := x0 } :=
  Only.after ⟨fun p hp => by cases p <;> first | rfl | cases hp⟩ k h

theorem Only.set_dioBlk {l : List Part} {s t : State} {x0 : DioBlk} (h : Only l s t)
    (k : Part.sub [.dioBlk] l = true) : Only l s { t with dioBlk := x0 } :=
  Only.after ⟨fun p hp => by cases p <;> first | rfl | cases hp⟩ k h

theorem Only.set_drawn {l : List Part} {s t : State} {x0 : Nat} (h : Only l s t)
    (k : Part.sub [.drawn] l = true) : Only l s { t with drawn := x0 } :=
  Only.after ⟨fun p hp => by cases p <;> first | rfl | cases hp⟩ k h

theorem Only.set_evr {l : List Part} {s t : State} {x0 : Evr} (h : Only l s t)
    (k : Part.sub [.evr] l = true) : Only l s { t with evr := x0 } :=
  Only.after ⟨fun p hp => by cases p <;> first | rfl | cases hp⟩ k h

theorem Only.set_fab {l : List Part} {s t : State} {x0 : Fabric} (h : Only l s t)
    (k : Part.sub [.fab] l = true) : Only l s { t with fab := x0 } :=
  Only.after ⟨fun p hp => by cases p <;> first | rfl | cases hp⟩ k h

theorem Only.set_grp {l : List Part} {s t : State} {x0 : GrpBlk} (h : Only l s t)
    (k : Part.sub [.grp] l = true) : Only l s { t with grp := x0 } :=
  Only.after ⟨fun p hp => by cases p <;> first | rfl | cases hp⟩ k h

theorem Only.set_hp {l : List Part} {s t : State} {x0 : Vector HostPort 2} (h : Only l s t)
    (k : Part.sub [.hp] l = true) : Only l s { t with hp := x0 } :=
  Only.after ⟨fun p hp => by cases p <;> first | rfl | cases hp⟩ k h

theorem Only.set_imz {l : List Part} {s t : State} {x0 : Imz} (h : Only l s t)
    (k : Part.sub [.imz] l = true) : Only l s { t with imz := x0 } :=
  Only.after ⟨fun p hp => by cases p <;> first | rfl | cases hp⟩ k h

theorem Only.set_lvn {l : List Part} {s t : State} {x0 : Lvn} (h : Only l s t)
    (k : Part.sub [.lvn] l = true) : Only l s { t with lvn := x0 } :=
  Only.after ⟨fun p hp => by cases p <;> first | rfl | cases hp⟩ k h

theorem Only.set_mmc {l : List Part} {s t : State} {x0 : Mmc} (h : Only l s t)
    (k : Part.sub [.mmc] l = true) : Only l s { t with mmc := x0 } :=
  Only.after ⟨fun p hp => by cases p <;> first | rfl | cases hp⟩ k h

theorem Only.set_pev {l : List Part} {s t : State} {x0 : Pev} (h : Only l s t)
    (k : Part.sub [.pev] l = true) : Only l s { t with pev := x0 } :=
  Only.after ⟨fun p hp => by cases p <;> first | rfl | cases hp⟩ k h

theorem Only.set_pnl {l : List Part} {s t : State} {x0 : Pnl} (h : Only l s t)
    (k : Part.sub [.pnl] l = true) : Only l s { t with pnl := x0 } :=
  Only.after ⟨fun p hp => by cases p <;> first | rfl | cases hp⟩ k h

theorem Only.set_ps {l : List Part} {s t : State} {x0 : Vector Ps 2} (h : Only l s t)
    (k : Part.sub [.ps] l = true) : Only l s { t with ps := x0 } :=
  Only.after ⟨fun p hp => by cases p <;> first | rfl | cases hp⟩ k h

theorem Only.set_psBlk {l : List Part} {s t : State} {x0 : PsBlk} (h : Only l s t)
    (k : Part.sub [.psBlk] l = true) : Only l s { t with psBlk := x0 } :=
  Only.after ⟨fun p hp => by cases p <;> first | rfl | cases hp⟩ k h

theorem Only.set_rcp {l : List Part} {s t : State} {x0 : Rcp} (h : Only l s t)
    (k : Part.sub [.rcp] l = true) : Only l s { t with rcp := x0 } :=
  Only.after ⟨fun p hp => by cases p <;> first | rfl | cases hp⟩ k h

theorem Only.set_recd {l : List Part} {s t : State} {x0 : Rec} (h : Only l s t)
    (k : Part.sub [.recd] l = true) : Only l s { t with recd := x0 } :=
  Only.after ⟨fun p hp => by cases p <;> first | rfl | cases hp⟩ k h

theorem Only.set_rnd {l : List Part} {s t : State} {x0 : Rnd} (h : Only l s t)
    (k : Part.sub [.rnd] l = true) : Only l s { t with rnd := x0 } :=
  Only.after ⟨fun p hp => by cases p <;> first | rfl | cases hp⟩ k h

theorem Only.set_sup {l : List Part} {s t : State} {x0 : Supply} (h : Only l s t)
    (k : Part.sub [.sup] l = true) : Only l s { t with sup := x0 } :=
  Only.after ⟨fun p hp => by cases p <;> first | rfl | cases hp⟩ k h

theorem Only.set_sys {l : List Part} {s t : State} {x0 : Sys} (h : Only l s t)
    (k : Part.sub [.sys] l = true) : Only l s { t with sys := x0 } :=
  Only.after ⟨fun p hp => by cases p <;> first | rfl | cases hp⟩ k h

theorem Only.set_tim {l : List Part} {s t : State} {x0 : Tim} (h : Only l s t)
    (k : Part.sub [.tim] l = true) : Only l s { t with tim := x0 } :=
  Only.after ⟨fun p hp => by cases p <;> first | rfl | cases hp⟩ k h

theorem Only.set_tst {l : List Part} {s t : State} {x0 : Tst} (h : Only l s t)
    (k : Part.sub [.tst] l = true) : Only l s { t with tst := x0 } :=
  Only.after ⟨fun p hp => by cases p <;> first | rfl | cases hp⟩ k h

theorem Only.set_ui {l : List Part} {s t : State} {x0 : Vector Ui 16} (h : Only l s t)
    (k : Part.sub [.ui] l = true) : Only l s { t with ui := x0 } :=
  Only.after ⟨fun p hp => by cases p <;> first | rfl | cases hp⟩ k h

theorem Only.set_uiBlk {l : List Part} {s t : State} {x0 : UiBlk} (h : Only l s t)
    (k : Part.sub [.uiBlk] l = true) : Only l s { t with uiBlk := x0 } :=
  Only.after ⟨fun p hp => by cases p <;> first | rfl | cases hp⟩ k h

theorem Only.set_ao_dio {l : List Part} {s t : State} {x0 : Vector Ao 4} {x1 : Vector Dio 16} (h : Only l s t)
    (k : Part.sub [.ao, .dio] l = true) : Only l s { t with ao := x0, dio := x1 } :=
  Only.after ⟨fun p hp => by cases p <;> first | rfl | cases hp⟩ k h

theorem Only.set_mono_tim {l : List Part} {s t : State} {x0 : Nat} {x1 : Tim} (h : Only l s t)
    (k : Part.sub [.mono, .tim] l = true) : Only l s { t with mono := x0, tim := x1 } :=
  Only.after ⟨fun p hp => by cases p <;> first | rfl | cases hp⟩ k h

theorem Only.set_now_mono {l : List Part} {s t : State} {x0 : Nat} {x1 : Nat} (h : Only l s t)
    (k : Part.sub [.now, .mono] l = true) : Only l s { t with now := x0, mono := x1 } :=
  Only.after ⟨fun p hp => by cases p <;> first | rfl | cases hp⟩ k h

theorem Only.set_sys_fab {l : List Part} {s t : State} {x0 : Sys} {x1 : Fabric} (h : Only l s t)
    (k : Part.sub [.sys, .fab] l = true) : Only l s { t with sys := x0, fab := x1 } :=
  Only.after ⟨fun p hp => by cases p <;> first | rfl | cases hp⟩ k h

theorem Only.set_sys_pev {l : List Part} {s t : State} {x0 : Sys} {x1 : Pev} (h : Only l s t)
    (k : Part.sub [.sys, .pev] l = true) : Only l s { t with sys := x0, pev := x1 } :=
  Only.after ⟨fun p hp => by cases p <;> first | rfl | cases hp⟩ k h

theorem Only.set_sys_sup {l : List Part} {s t : State} {x0 : Sys} {x1 : Supply} (h : Only l s t)
    (k : Part.sub [.sys, .sup] l = true) : Only l s { t with sys := x0, sup := x1 } :=
  Only.after ⟨fun p hp => by cases p <;> first | rfl | cases hp⟩ k h

theorem Only.set_ao_dio_dioBlk {l : List Part} {s t : State} {x0 : Vector Ao 4} {x1 : Vector Dio 16} {x2 : DioBlk} (h : Only l s t)
    (k : Part.sub [.ao, .dio, .dioBlk] l = true) : Only l s { t with ao := x0, dio := x1, dioBlk := x2 } :=
  Only.after ⟨fun p hp => by cases p <;> first | rfl | cases hp⟩ k h

theorem Only.set_evr_hp_sys {l : List Part} {s t : State} {x0 : Evr} {x1 : Vector HostPort 2} {x2 : Sys} (h : Only l s t)
    (k : Part.sub [.sys, .evr, .hp] l = true) : Only l s { t with evr := x0, hp := x1, sys := x2 } :=
  Only.after ⟨fun p hp => by cases p <;> first | rfl | cases hp⟩ k h

theorem Only.set_now_mono_tim {l : List Part} {s t : State} {x0 : Nat} {x1 : Nat} {x2 : Tim} (h : Only l s t)
    (k : Part.sub [.now, .mono, .tim] l = true) : Only l s { t with now := x0, mono := x1, tim := x2 } :=
  Only.after ⟨fun p hp => by cases p <;> first | rfl | cases hp⟩ k h

theorem Only.set_now_sys_pev {l : List Part} {s t : State} {x0 : Nat} {x1 : Sys} {x2 : Pev} (h : Only l s t)
    (k : Part.sub [.now, .sys, .pev] l = true) : Only l s { t with now := x0, sys := x1, pev := x2 } :=
  Only.after ⟨fun p hp => by cases p <;> first | rfl | cases hp⟩ k h

theorem Only.set_ao_dio_ui_ps {l : List Part} {s t : State} {x0 : Vector Ao 4} {x1 : Vector Dio 16} {x2 : Vector Ui 16} {x3 : Vector Ps 2} (h : Only l s t)
    (k : Part.sub [.ui, .ao, .dio, .ps] l = true) : Only l s { t with ao := x0, dio := x1, ui := x2, ps := x3 } :=
  Only.after ⟨fun p hp => by cases p <;> first | rfl | cases hp⟩ k h

theorem Only.set_pev_ann_call_rnd {l : List Part} {s t : State} {x0 : Pev} {x1 : Ann} {x2 : Call} {x3 : Rnd} (h : Only l s t)
    (k : Part.sub [.pev, .ann, .call, .rnd] l = true) : Only l s { t with pev := x0, ann := x1, call := x2, rnd := x3 } :=
  Only.after ⟨fun p hp => by cases p <;> first | rfl | cases hp⟩ k h

theorem Only.set_dio_uiBlk_aoBlk_psBlk_dioBlk {l : List Part} {s t : State} {x0 : Vector Dio 16} {x1 : UiBlk} {x2 : AoBlk} {x3 : PsBlk} {x4 : DioBlk} (h : Only l s t)
    (k : Part.sub [.uiBlk, .aoBlk, .dio, .dioBlk, .psBlk] l = true) : Only l s { t with dio := x0, uiBlk := x1, aoBlk := x2, psBlk := x3, dioBlk := x4 } :=
  Only.after ⟨fun p hp => by cases p <;> first | rfl | cases hp⟩ k h

end Sys2Proof.Machine
end

