-- ==== Sys2Proof/Laws/FrameOps.lean ====
section
/-! SUPPORT. Ops: the parts of the state that each operation of Machine/Ops may change. -/
namespace Sys2Proof.Machine

open Sys2Proof

theorem State.drew_only (s : State) :
    Only [.drawn] s (State.drew s) := by
  unfold State.drew
  repeat' first
    | with_reducible exact Only.refl _ _
    | decide
    | with_reducible apply Only.ite
    | with_reducible apply Only.dite
    | with_reducible apply Only.set_drawn
    | intro _
    | split
    | dsimp only

theorem feedsMeasure_only (s : State) :
    Only [.drawn, .sup] s (feedsMeasure s) := by
  unfold feedsMeasure
  repeat' first
    | with_reducible exact Only.refl _ _
    | decide
    | with_reducible apply Only.ite
    | with_reducible apply Only.dite
    | with_reducible apply Only.after (State.drew_only _)
    | with_reducible apply Only.set_sup
    | intro _
    | split
    | dsimp only

theorem State.clockCycle_only (s : State) :
    Only [.now, .mono, .tim] s (State.clockCycle s) := by
  unfold State.clockCycle
  repeat' first
    | with_reducible exact Only.refl _ _
    | decide
    | with_reducible apply Only.ite
    | with_reducible apply Only.dite
    | with_reducible apply Only.set_now_mono_tim
    | with_reducible apply Only.set_mono_tim
    | intro _
    | split
    | dsimp only

theorem State.tick_only (s : State) :
    Only [.now, .mono, .drawn, .sup, .tim] s (State.tick s) := by
  unfold State.tick
  repeat' first
    | with_reducible exact Only.refl _ _
    | decide
    | with_reducible apply Only.ite
    | with_reducible apply Only.dite
    | with_reducible apply Only.after (feedsMeasure_only _)
    | with_reducible apply Only.after (State.clockCycle_only _)
    | intro _
    | split
    | dsimp only

theorem raiseAt_only (src : Nat) (payload : Word) (t : Ts) (s : State) :
    Only [.evr] s (raiseAt src payload t s) := by
  unfold raiseAt
  repeat' first
    | with_reducible exact Only.refl _ _
    | decide
    | with_reducible apply Only.ite
    | with_reducible apply Only.dite
    | with_reducible apply Only.set_evr
    | intro _
    | split
    | dsimp only

theorem raise_only (src : Nat) (payload : Word) (s : State) :
    Only [.evr] s (raise src payload s) := by
  unfold raise
  repeat' first
    | with_reducible exact Only.refl _ _
    | decide
    | with_reducible apply Only.ite
    | with_reducible apply Only.dite
    | with_reducible apply Only.after (raiseAt_only _ _ _ _)
    | intro _
    | split
    | dsimp only

theorem logWerr_only (reason : Nat) (src : Source) (addr : Nat) (s : State) :
    Only [.sys] s (logWerr reason src addr s) := by
  unfold logWerr
  repeat' first
    | with_reducible exact Only.refl _ _
    | decide
    | with_reducible apply Only.ite
    | with_reducible apply Only.dite
    | with_reducible apply Only.set_sys
    | intro _
    | split
    | dsimp only

theorem recordFault_only (level block cell cause : Nat) (s : State) :
    Only [.sys, .evr] s (recordFault level block cell cause s) := by
  unfold recordFault
  repeat' first
    | with_reducible exact Only.refl _ _
    | decide
    | with_reducible apply Only.ite
    | with_reducible apply Only.dite
    | with_reducible apply Only.after (raise_only _ _ _)
    | with_reducible apply Only.set_sys
    | intro _
    | split
    | dsimp only

theorem readmit_only (block cell : Nat) (s : State) :
    Only [.sys] s (readmit block cell s) := by
  unfold readmit
  repeat' first
    | with_reducible exact Only.refl _ _
    | decide
    | with_reducible apply Only.ite
    | with_reducible apply Only.dite
    | with_reducible apply Only.set_sys
    | intro _
    | split
    | dsimp only

theorem supplyRaise_only (code : Nat) (v : Half) (s : State) :
    Only [.evr] s (supplyRaise code v s) := by
  unfold supplyRaise
  repeat' first
    | with_reducible exact Only.refl _ _
    | decide
    | with_reducible apply Only.ite
    | with_reducible apply Only.dite
    | with_reducible apply Only.after (raise_only _ _ _)
    | intro _
    | split
    | dsimp only

theorem supplyEvent_only (q : Quantity) (code : Nat) (v : Half) (s : State) :
    Only [.sup, .evr] s (supplyEvent q code v s) := by
  unfold supplyEvent
  repeat' first
    | with_reducible exact Only.refl _ _
    | decide
    | with_reducible apply Only.ite
    | with_reducible apply Only.dite
    | with_reducible apply Only.after (supplyRaise_only _ _ _)
    | with_reducible apply Only.set_sup
    | intro _
    | split
    | dsimp only

end Sys2Proof.Machine
end

