-- ==== Sys2Proof/Laws/FrameImage.lean ====
section
/-! SUPPORT. Image: the parts of the state that each operation of Machine/Image may change. -/
namespace Sys2Proof.Machine

open Sys2Proof

theorem writeBootConfig_only (act cause : Nat) (swap : Bool) (s : State) :
    Only [.rcp] s (writeBootConfig act cause swap s) := by
  unfold writeBootConfig
  repeat' first
    | with_reducible exact Only.refl _ _
    | decide
    | with_reducible apply Only.ite
    | with_reducible apply Only.dite
    | with_reducible apply Only.set_rcp
    | intro _
    | split
    | dsimp only

end Sys2Proof.Machine
end

