-- ==== Sys2Proof/Laws/FrameUi.lean ====
section
/-! SUPPORT. Ui: the parts of the state that each operation of Machine/Ui may change. -/
namespace Sys2Proof.Machine

open Sys2Proof

theorem State.setUi_only (s : State) (c : Fin 16) (f : Ui → Ui) :
    Only [.ui] s (State.setUi s c f) := by
  unfold State.setUi
  repeat' first
    | with_reducible exact Only.refl _ _
    | decide
    | with_reducible apply Only.ite
    | with_reducible apply Only.dite
    | with_reducible apply Only.set_ui
    | intro _
    | split
    | dsimp only

theorem uiNotify_only (c : Fin 16) (s0 s1 : State) :
    Only [.evr] s1 (uiNotify c s0 s1) := by
  unfold uiNotify
  repeat' first
    | with_reducible exact Only.refl _ _
    | decide
    | with_reducible apply Only.ite
    | with_reducible apply Only.dite
    | with_reducible apply Only.after (raise_only _ _ _)
    | intro _
    | split
    | dsimp only

theorem uiApply_only (s0 : State) (c : Fin 16) :
    Only [.ui] s0 (uiApply s0 c) := by
  unfold uiApply
  repeat' first
    | with_reducible exact Only.refl _ _
    | decide
    | with_reducible apply Only.ite
    | with_reducible apply Only.dite
    | with_reducible apply Only.after (State.setUi_only _ _ _)
    | intro _
    | split
    | dsimp only

theorem uiConvert_only (s : State) (c : Fin 16) (m : UiMeas) :
    Only [.sys, .evr, .ui] s (uiConvert s c m) := by
  unfold uiConvert
  repeat' first
    | with_reducible exact Only.refl _ _
    | decide
    | with_reducible apply Only.ite
    | with_reducible apply Only.dite
    | with_reducible apply Only.after (recordFault_only _ _ _ _ _)
    | with_reducible apply Only.after (State.setUi_only _ _ _)
    | intro _
    | split
    | dsimp only

theorem uiBoundary_only (s : State) (c : Fin 16) :
    Only [.ui] s (uiBoundary s c) := by
  unfold uiBoundary
  repeat' first
    | with_reducible exact Only.refl _ _
    | decide
    | with_reducible apply Only.ite
    | with_reducible apply Only.dite
    | with_reducible apply Only.after (uiApply_only _ _)
    | intro _
    | split
    | dsimp only

theorem uiWindow_only (s : State) (c : Fin 16) (w : UiWindow) :
    Only [.ui] s (uiWindow s c w) := by
  unfold uiWindow
  repeat' first
    | with_reducible exact Only.refl _ _
    | decide
    | with_reducible apply Only.ite
    | with_reducible apply Only.dite
    | with_reducible apply Only.after (State.setUi_only _ _ _)
    | intro _
    | split
    | dsimp only

theorem uiCommand_only (src : Source) (c : Fin 16) (f : Ui → Ui) (s : State) :
    Only [.sys, .evr, .ui] s (uiCommand src c f s) := by
  unfold uiCommand
  repeat' first
    | with_reducible exact Only.refl _ _
    | decide
    | with_reducible apply Only.ite
    | with_reducible apply Only.dite
    | with_reducible apply Only.after (logWerr_only _ _ _ _)
    | with_reducible apply Only.after (uiNotify_only _ _ _)
    | with_reducible apply Only.after (State.setUi_only _ _ _)
    | intro _
    | split
    | dsimp only

theorem uiPowered_only (s : State) (c : Fin 16) :
    Only [.evr, .ui] s (uiPowered s c) := by
  unfold uiPowered
  repeat' first
    | with_reducible exact Only.refl _ _
    | decide
    | with_reducible apply Only.ite
    | with_reducible apply Only.dite
    | with_reducible apply Only.after (uiNotify_only _ _ _)
    | with_reducible apply Only.after (State.setUi_only _ _ _)
    | intro _
    | split
    | dsimp only

theorem uiCalDone_only (s : State) (c : Fin 16) (ofs gain : Word) (island : Int) :
    Only [.evr, .ui] s (uiCalDone s c ofs gain island) := by
  unfold uiCalDone
  repeat' first
    | with_reducible exact Only.refl _ _
    | decide
    | with_reducible apply Only.ite
    | with_reducible apply Only.dite
    | with_reducible apply Only.after (uiNotify_only _ _ _)
    | with_reducible apply Only.after (State.setUi_only _ _ _)
    | intro _
    | split
    | dsimp only

theorem uiRelease_only (s : State) (b : Fin 2) :
    Only [.ui] s (uiRelease s b) := by
  unfold uiRelease
  repeat' first
    | with_reducible exact Only.refl _ _
    | decide
    | with_reducible apply Only.ite
    | with_reducible apply Only.dite
    | with_reducible apply Only.foldl
    | with_reducible apply Only.after (uiApply_only _ _)
    | intro _
    | split
    | dsimp only

theorem uiBlkWrite_only (stop : BitVec 2) (s : State) :
    Only [.evr, .ui, .uiBlk] s (uiBlkWrite stop s) := by
  unfold uiBlkWrite
  repeat' first
    | with_reducible exact Only.refl _ _
    | decide
    | with_reducible apply Only.ite
    | with_reducible apply Only.dite
    | with_reducible apply Only.foldl
    | with_reducible apply Only.after (uiRelease_only _ _)
    | with_reducible apply Only.after (uiNotify_only _ _ _)
    | with_reducible apply Only.set_uiBlk
    | intro _
    | split
    | dsimp only

theorem uiExcCheck_only (s : State) (c : Fin 16) (v : Int) :
    Only [.evr, .ui] s (uiExcCheck s c v) := by
  unfold uiExcCheck
  repeat' first
    | with_reducible exact Only.refl _ _
    | decide
    | with_reducible apply Only.ite
    | with_reducible apply Only.dite
    | with_reducible apply Only.after (uiNotify_only _ _ _)
    | with_reducible apply Only.after (State.setUi_only _ _ _)
    | intro _
    | split
    | dsimp only

theorem uiTake_only (s : State) (c : Fin 16) :
    Only [.ui] s (uiTake s c) := by
  unfold uiTake
  repeat' first
    | with_reducible exact Only.refl _ _
    | decide
    | with_reducible apply Only.ite
    | with_reducible apply Only.dite
    | with_reducible apply Only.after (State.setUi_only _ _ _)
    | intro _
    | split
    | dsimp only

theorem uiTakeOver_only (s : State) :
    Only [.ui] s (uiTakeOver s) := by
  unfold uiTakeOver
  repeat' first
    | with_reducible exact Only.refl _ _
    | decide
    | with_reducible apply Only.ite
    | with_reducible apply Only.dite
    | with_reducible apply Only.foldl
    | with_reducible apply Only.after (uiTake_only _ _)
    | intro _
    | split
    | dsimp only

theorem uiGive_only (s : State) (c : Fin 16) :
    Only [.ui] s (uiGive s c) := by
  unfold uiGive
  repeat' first
    | with_reducible exact Only.refl _ _
    | decide
    | with_reducible apply Only.ite
    | with_reducible apply Only.dite
    | with_reducible apply Only.after (State.setUi_only _ _ _)
    | intro _
    | split
    | dsimp only

theorem uiListenEntry_only (s : State) :
    Only [.ui] s (uiListenEntry s) := by
  unfold uiListenEntry
  repeat' first
    | with_reducible exact Only.refl _ _
    | decide
    | with_reducible apply Only.ite
    | with_reducible apply Only.dite
    | with_reducible apply Only.foldl
    | with_reducible apply Only.after (uiGive_only _ _)
    | intro _
    | split
    | dsimp only

theorem uiQuiet_only (s : State) :
    Only [.ui] s (uiQuiet s) := by
  unfold uiQuiet
  repeat' first
    | with_reducible exact Only.refl _ _
    | decide
    | with_reducible apply Only.ite
    | with_reducible apply Only.dite
    | with_reducible apply Only.set_ui
    | intro _
    | split
    | dsimp only

theorem uiRefCheck_only (s : State) (c : Fin 16) (ppm : Nat) :
    Only [.evr, .ui] s (uiRefCheck s c ppm) := by
  unfold uiRefCheck
  repeat' first
    | with_reducible exact Only.refl _ _
    | decide
    | with_reducible apply Only.ite
    | with_reducible apply Only.dite
    | with_reducible apply Only.after (uiNotify_only _ _ _)
    | with_reducible apply Only.after (State.setUi_only _ _ _)
    | intro _
    | split
    | dsimp only

theorem uiNe43Confirm_only (s : State) (c : Fin 16) (past : BitVec 3) :
    Only [.evr, .ui] s (uiNe43Confirm s c past) := by
  unfold uiNe43Confirm
  repeat' first
    | with_reducible exact Only.refl _ _
    | decide
    | with_reducible apply Only.ite
    | with_reducible apply Only.dite
    | with_reducible apply Only.after (uiNotify_only _ _ _)
    | with_reducible apply Only.after (State.setUi_only _ _ _)
    | intro _
    | split
    | dsimp only

theorem uiTxsOverload_only (s : State) (c : Fin 16) :
    Only [.evr, .ui] s (uiTxsOverload s c) := by
  unfold uiTxsOverload
  repeat' first
    | with_reducible exact Only.refl _ _
    | decide
    | with_reducible apply Only.ite
    | with_reducible apply Only.dite
    | with_reducible apply Only.after (uiNotify_only _ _ _)
    | with_reducible apply Only.after (State.setUi_only _ _ _)
    | intro _
    | split
    | dsimp only

theorem uiTxsRetry_only (s : State) (c : Fin 16) :
    Only [.ui] s (uiTxsRetry s c) := by
  unfold uiTxsRetry
  repeat' first
    | with_reducible exact Only.refl _ _
    | decide
    | with_reducible apply Only.ite
    | with_reducible apply Only.dite
    | with_reducible apply Only.after (State.setUi_only _ _ _)
    | intro _
    | split
    | dsimp only

theorem uiLoad_only (s : State) (c : Fin 16) :
    Only [.ui] s (uiLoad s c) := by
  unfold uiLoad
  repeat' first
    | with_reducible exact Only.refl _ _
    | decide
    | with_reducible apply Only.ite
    | with_reducible apply Only.dite
    | with_reducible apply Only.after (State.setUi_only _ _ _)
    | intro _
    | split
    | dsimp only

theorem uiSwap_only (s : State) (c : Fin 16) :
    Only [.ui] s (uiSwap s c) := by
  unfold uiSwap
  repeat' first
    | with_reducible exact Only.refl _ _
    | decide
    | with_reducible apply Only.ite
    | with_reducible apply Only.dite
    | with_reducible apply Only.after (State.setUi_only _ _ _)
    | with_reducible apply Only.after (uiApply_only _ _)
    | intro _
    | split
    | dsimp only

theorem uiReady_only (s : State) (c : Fin 16) :
    Only [.evr, .ui] s (uiReady s c) := by
  unfold uiReady
  repeat' first
    | with_reducible exact Only.refl _ _
    | decide
    | with_reducible apply Only.ite
    | with_reducible apply Only.dite
    | with_reducible apply Only.after (State.setUi_only _ _ _)
    | with_reducible apply Only.after (uiNotify_only _ _ _)
    | with_reducible apply Only.after (uiApply_only _ _)
    | intro _
    | split
    | dsimp only

theorem uiCfgWrite_only (src : Source) (c : Fin 16) (i : Fin 7) (v : Word) (s : State) :
    Only [.sys, .ui] s (uiCfgWrite src c i v s).2 := by
  unfold uiCfgWrite
  repeat' first
    | with_reducible exact Only.refl _ _
    | decide
    | with_reducible apply Only.ite
    | with_reducible apply Only.dite
    | with_reducible apply Only.iteSnd
    | with_reducible apply Only.after (logWerr_only _ _ _ _)
    | with_reducible apply Only.after (State.setUi_only _ _ _)
    | intro _
    | split
    | dsimp only

theorem execUiIslandPowered_only (c : Fin 16) (s : State) :
    ∃ t', execUiIslandPowered c s = .next t' ∧ Only [.evr, .ui] s t' := by
  refine ⟨_, rfl, ?_⟩
  repeat' first
    | with_reducible exact Only.refl _ _
    | decide
    | with_reducible apply Only.ite
    | with_reducible apply Only.dite
    | with_reducible apply Only.after (uiPowered_only _ _)
    | intro _
    | split
    | dsimp only

theorem execUiConversion_only (c : Fin 16) (m : UiMeas) (s : State) :
    ∃ t', execUiConversion c m s = .next t' ∧ Only [.sys, .evr, .ui] s t' := by
  refine ⟨_, rfl, ?_⟩
  repeat' first
    | with_reducible exact Only.refl _ _
    | decide
    | with_reducible apply Only.ite
    | with_reducible apply Only.dite
    | with_reducible apply Only.after (uiNotify_only _ _ _)
    | with_reducible apply Only.after (uiBoundary_only _ _)
    | with_reducible apply Only.after (uiConvert_only _ _ _)
    | intro _
    | split
    | dsimp only

theorem execUiTestWindow_only (c : Fin 16) (w : UiWindow) (s : State) :
    ∃ t', execUiTestWindow c w s = .next t' ∧ Only [.evr, .ui] s t' := by
  refine ⟨_, rfl, ?_⟩
  repeat' first
    | with_reducible exact Only.refl _ _
    | decide
    | with_reducible apply Only.ite
    | with_reducible apply Only.dite
    | with_reducible apply Only.after (uiNotify_only _ _ _)
    | with_reducible apply Only.after (uiWindow_only _ _ _)
    | intro _
    | split
    | dsimp only

theorem execUiTestCmd_only (src : Source) (c : Fin 16) (s : State) :
    ∃ t', execUiTestCmd src c s = .next t' ∧ Only [.sys, .evr, .ui] s t' := by
  refine ⟨_, rfl, ?_⟩
  repeat' first
    | with_reducible exact Only.refl _ _
    | decide
    | with_reducible apply Only.ite
    | with_reducible apply Only.dite
    | with_reducible apply Only.after (uiCommand_only _ _ _ _)
    | intro _
    | split
    | dsimp only

theorem execUiCalInterval_only (c : Fin 16) (s : State) :
    ∃ t', execUiCalInterval c s = .next t' ∧ Only [.evr, .ui] s t' := by
  refine ⟨_, rfl, ?_⟩
  repeat' first
    | with_reducible exact Only.refl _ _
    | decide
    | with_reducible apply Only.ite
    | with_reducible apply Only.dite
    | with_reducible apply Only.after (uiNotify_only _ _ _)
    | with_reducible apply Only.after (State.setUi_only _ _ _)
    | intro _
    | split
    | dsimp only

theorem execUiCalCmd_only (src : Source) (c : Fin 16) (s : State) :
    ∃ t', execUiCalCmd src c s = .next t' ∧ Only [.sys, .evr, .ui] s t' := by
  refine ⟨_, rfl, ?_⟩
  repeat' first
    | with_reducible exact Only.refl _ _
    | decide
    | with_reducible apply Only.ite
    | with_reducible apply Only.dite
    | with_reducible apply Only.after (uiCommand_only _ _ _ _)
    | intro _
    | split
    | dsimp only

theorem execUiCalDone_only (c : Fin 16) (ofs gain : Word) (island : Int) (s : State) :
    ∃ t', execUiCalDone c ofs gain island s = .next t' ∧ Only [.evr, .ui] s t' := by
  refine ⟨_, rfl, ?_⟩
  repeat' first
    | with_reducible exact Only.refl _ _
    | decide
    | with_reducible apply Only.ite
    | with_reducible apply Only.dite
    | with_reducible apply Only.after (uiCalDone_only _ _ _ _ _)
    | intro _
    | split
    | dsimp only

theorem execUiRefCheck_only (c : Fin 16) (ppm : Nat) (s : State) :
    ∃ t', execUiRefCheck c ppm s = .next t' ∧ Only [.evr, .ui] s t' := by
  refine ⟨_, rfl, ?_⟩
  repeat' first
    | with_reducible exact Only.refl _ _
    | decide
    | with_reducible apply Only.ite
    | with_reducible apply Only.dite
    | with_reducible apply Only.after (uiRefCheck_only _ _ _)
    | intro _
    | split
    | dsimp only

theorem execUiNe43Confirm_only (c : Fin 16) (past : BitVec 3) (s : State) :
    ∃ t', execUiNe43Confirm c past s = .next t' ∧ Only [.evr, .ui] s t' := by
  refine ⟨_, rfl, ?_⟩
  repeat' first
    | with_reducible exact Only.refl _ _
    | decide
    | with_reducible apply Only.ite
    | with_reducible apply Only.dite
    | with_reducible apply Only.after (uiNe43Confirm_only _ _ _)
    | intro _
    | split
    | dsimp only

theorem execUiTxsOverload_only (c : Fin 16) (s : State) :
    ∃ t', execUiTxsOverload c s = .next t' ∧ Only [.evr, .ui] s t' := by
  refine ⟨_, rfl, ?_⟩
  repeat' first
    | with_reducible exact Only.refl _ _
    | decide
    | with_reducible apply Only.ite
    | with_reducible apply Only.dite
    | with_reducible apply Only.after (uiTxsOverload_only _ _)
    | intro _
    | split
    | dsimp only

theorem execUiTxsRetry_only (c : Fin 16) (s : State) :
    ∃ t', execUiTxsRetry c s = .next t' ∧ Only [.ui] s t' := by
  refine ⟨_, rfl, ?_⟩
  repeat' first
    | with_reducible exact Only.refl _ _
    | decide
    | with_reducible apply Only.ite
    | with_reducible apply Only.dite
    | with_reducible apply Only.after (uiTxsRetry_only _ _)
    | intro _
    | split
    | dsimp only

theorem execUiTxsOn_only (src : Source) (c : Fin 16) (s : State) :
    ∃ t', execUiTxsOn src c s = .next t' ∧ Only [.sys, .evr, .ui] s t' := by
  refine ⟨_, rfl, ?_⟩
  repeat' first
    | with_reducible exact Only.refl _ _
    | decide
    | with_reducible apply Only.ite
    | with_reducible apply Only.dite
    | with_reducible apply Only.after (uiCommand_only _ _ _ _)
    | intro _
    | split
    | dsimp only

theorem execUiTrendReset_only (c : Fin 16) (s : State) :
    ∃ t', execUiTrendReset c s = .next t' ∧ Only [.evr, .ui] s t' := by
  refine ⟨_, rfl, ?_⟩
  repeat' first
    | with_reducible exact Only.refl _ _
    | decide
    | with_reducible apply Only.ite
    | with_reducible apply Only.dite
    | with_reducible apply Only.after (uiNotify_only _ _ _)
    | with_reducible apply Only.after (State.setUi_only _ _ _)
    | intro _
    | split
    | dsimp only

theorem execUiBlockStop_only (stop : BitVec 2) (s : State) :
    ∃ t', execUiBlockStop stop s = .next t' ∧ Only [.evr, .ui, .uiBlk] s t' := by
  refine ⟨_, rfl, ?_⟩
  repeat' first
    | with_reducible exact Only.refl _ _
    | decide
    | with_reducible apply Only.ite
    | with_reducible apply Only.dite
    | with_reducible apply Only.after (uiBlkWrite_only _ _)
    | intro _
    | split
    | dsimp only

theorem execUiSharedExcCheck_only (c : Fin 16) (v : Int) (s : State) :
    ∃ t', execUiSharedExcCheck c v s = .next t' ∧ Only [.evr, .ui] s t' := by
  refine ⟨_, rfl, ?_⟩
  repeat' first
    | with_reducible exact Only.refl _ _
    | decide
    | with_reducible apply Only.ite
    | with_reducible apply Only.dite
    | with_reducible apply Only.after (uiExcCheck_only _ _ _)
    | intro _
    | split
    | dsimp only

end Sys2Proof.Machine
end

