-- ==== Sys2Proof/Laws/FramePs.lean ====
section
/-! SUPPORT. Ps: the parts of the state that each operation of Machine/Ps may change. -/
namespace Sys2Proof.Machine

open Sys2Proof

theorem State.setPs_only (s : State) (c : Fin 2) (f : Ps → Ps) :
    Only [.ps] s (State.setPs s c f) := by
  unfold State.setPs
  repeat' first
    | with_reducible exact Only.refl _ _
    | decide
    | with_reducible apply Only.ite
    | with_reducible apply Only.dite
    | with_reducible apply Only.set_ps
    | intro _
    | split
    | dsimp only

theorem psEvent_only (c : Fin 2) (marks : Word) (t : Ts) (s : State) :
    Only [.evr] s (psEvent c marks t s) := by
  unfold psEvent
  repeat' first
    | with_reducible exact Only.refl _ _
    | decide
    | with_reducible apply Only.ite
    | with_reducible apply Only.dite
    | with_reducible apply Only.after (raiseAt_only _ _ _ _)
    | intro _
    | split
    | dsimp only

theorem psNotify_only (c : Fin 2) (s0 s1 : State) :
    Only [.evr] s1 (psNotify c s0 s1) := by
  unfold psNotify
  repeat' first
    | with_reducible exact Only.refl _ _
    | decide
    | with_reducible apply Only.ite
    | with_reducible apply Only.dite
    | with_reducible apply Only.after (psEvent_only _ _ _ _)
    | intro _
    | split
    | dsimp only

theorem psFire_only (c : Fin 2) (down : Bool) (t : Ts) (s : State) :
    Only [.evr, .ps] s (psFire c down t s) := by
  unfold psFire
  repeat' first
    | with_reducible exact Only.refl _ _
    | decide
    | with_reducible apply Only.ite
    | with_reducible apply Only.dite
    | with_reducible apply Only.after (psEvent_only _ _ _ _)
    | with_reducible apply Only.after (State.setPs_only _ _ _)
    | intro _
    | split
    | dsimp only

theorem psEdge_only (s : State) (c : Fin 2) (a b bLevel bChanged z : Bool) :
    Only [.evr, .ps] s (psEdge s c a b bLevel bChanged z) := by
  unfold psEdge
  repeat' first
    | with_reducible exact Only.refl _ _
    | decide
    | with_reducible apply Only.ite
    | with_reducible apply Only.dite
    | with_reducible apply Only.after (State.setPs_only _ _ _)
    | with_reducible apply Only.after (psNotify_only _ _ _)
    | with_reducible apply Only.after (psFire_only _ _ _ _)
    | intro _
    | split
    | dsimp only

theorem psIndex_only (s : State) (c : Fin 2) :
    Only [.drawn, .evr, .ps] s (psIndex s c) := by
  unfold psIndex
  repeat' first
    | with_reducible exact Only.refl _ _
    | decide
    | with_reducible apply Only.ite
    | with_reducible apply Only.dite
    | with_reducible apply Only.after (State.setPs_only _ _ _)
    | with_reducible apply Only.after (State.drew_only _)
    | with_reducible apply Only.after (psEvent_only _ _ _ _)
    | with_reducible apply Only.after (psNotify_only _ _ _)
    | intro _
    | split
    | dsimp only

theorem psSnapshot_only (at' : Nat) (s : State) :
    Only [.evr, .ps] s (psSnapshot at' s) := by
  unfold psSnapshot
  repeat' first
    | with_reducible exact Only.refl _ _
    | decide
    | with_reducible apply Only.ite
    | with_reducible apply Only.dite
    | with_reducible apply Only.foldl
    | with_reducible apply Only.after (psNotify_only _ _ _)
    | with_reducible apply Only.after (State.setPs_only _ _ _)
    | intro _
    | split
    | dsimp only

theorem psStandstill_only (s : State) (c : Fin 2) :
    Only [.ps] s (psStandstill s c) := by
  unfold psStandstill
  repeat' first
    | with_reducible exact Only.refl _ _
    | decide
    | with_reducible apply Only.ite
    | with_reducible apply Only.dite
    | with_reducible apply Only.after (State.setPs_only _ _ _)
    | intro _
    | split
    | dsimp only

theorem psSetPos_only (src : Source) (c : Fin 2) (s : State) :
    Only [.sys, .evr, .ps] s (psSetPos src c s) := by
  unfold psSetPos
  repeat' first
    | with_reducible exact Only.refl _ _
    | decide
    | with_reducible apply Only.ite
    | with_reducible apply Only.dite
    | with_reducible apply Only.after (logWerr_only _ _ _ _)
    | with_reducible apply Only.after (psNotify_only _ _ _)
    | with_reducible apply Only.after (State.setPs_only _ _ _)
    | intro _
    | split
    | dsimp only

theorem psCmpWrite_only (src : Source) (c : Fin 2) (v : Word) (s : State) :
    Only [.sys, .ps] s (psCmpWrite src c v s).2 := by
  unfold psCmpWrite
  repeat' first
    | with_reducible exact Only.refl _ _
    | decide
    | with_reducible apply Only.ite
    | with_reducible apply Only.dite
    | with_reducible apply Only.iteSnd
    | with_reducible apply Only.after (State.setPs_only _ _ _)
    | with_reducible apply Only.after (logWerr_only _ _ _ _)
    | intro _
    | split
    | dsimp only

theorem psBlkWrite_only (stop : Bool) (s : State) :
    Only [.evr, .ps, .psBlk] s (psBlkWrite stop s) := by
  unfold psBlkWrite
  repeat' first
    | with_reducible exact Only.refl _ _
    | decide
    | with_reducible apply Only.ite
    | with_reducible apply Only.dite
    | with_reducible apply Only.after (psNotify_only _ _ _)
    | with_reducible apply Only.set_psBlk
    | with_reducible apply Only.set_ps
    | intro _
    | split
    | dsimp only

theorem psLoad_only (s : State) (c : Fin 2) :
    Only [.ps] s (psLoad s c) := by
  unfold psLoad
  repeat' first
    | with_reducible exact Only.refl _ _
    | decide
    | with_reducible apply Only.ite
    | with_reducible apply Only.dite
    | with_reducible apply Only.after (State.setPs_only _ _ _)
    | intro _
    | split
    | dsimp only

theorem psSwap_only (s : State) (c : Fin 2) :
    Only [.ps] s (psSwap s c) := by
  unfold psSwap
  repeat' first
    | with_reducible exact Only.refl _ _
    | decide
    | with_reducible apply Only.ite
    | with_reducible apply Only.dite
    | with_reducible apply Only.after (State.setPs_only _ _ _)
    | intro _
    | split
    | dsimp only

theorem psReady_only (s : State) (c : Fin 2) :
    Only [.evr, .ps] s (psReady s c) := by
  unfold psReady
  repeat' first
    | with_reducible exact Only.refl _ _
    | decide
    | with_reducible apply Only.ite
    | with_reducible apply Only.dite
    | with_reducible apply Only.after (psNotify_only _ _ _)
    | with_reducible apply Only.after (State.setPs_only _ _ _)
    | intro _
    | split
    | dsimp only

theorem psCfgWrite_only (src : Source) (c : Fin 2) (i : Fin 4) (v : Word) (s : State) :
    Only [.sys, .ps] s (psCfgWrite src c i v s).2 := by
  unfold psCfgWrite
  repeat' first
    | with_reducible exact Only.refl _ _
    | decide
    | with_reducible apply Only.ite
    | with_reducible apply Only.dite
    | with_reducible apply Only.iteSnd
    | with_reducible apply Only.after (logWerr_only _ _ _ _)
    | with_reducible apply Only.after (State.setPs_only _ _ _)
    | intro _
    | split
    | dsimp only

theorem psArm_only (c : Fin 2) (s : State) :
    Only [.ps] s (psArm c s) := by
  unfold psArm
  repeat' first
    | with_reducible exact Only.refl _ _
    | decide
    | with_reducible apply Only.ite
    | with_reducible apply Only.dite
    | with_reducible apply Only.after (State.setPs_only _ _ _)
    | intro _
    | split
    | dsimp only

theorem psAcqReset_only (s : State) :
    Only [.ps] s (psAcqReset s) := by
  unfold psAcqReset
  repeat' first
    | with_reducible exact Only.refl _ _
    | decide
    | with_reducible apply Only.ite
    | with_reducible apply Only.dite
    | with_reducible apply Only.set_ps
    | intro _
    | split
    | dsimp only

theorem execPsEdge_only (c : Fin 2) (a b bLevel bChanged z : Bool) (s : State) :
    ∃ t', execPsEdge c a b bLevel bChanged z s = .next t' ∧ Only [.evr, .ps] s t' := by
  refine ⟨_, rfl, ?_⟩
  repeat' first
    | with_reducible exact Only.refl _ _
    | decide
    | with_reducible apply Only.ite
    | with_reducible apply Only.dite
    | with_reducible apply Only.after (psEdge_only _ _ _ _ _ _ _)
    | intro _
    | split
    | dsimp only

theorem execPsIndexEdge_only (c : Fin 2) (s : State) :
    ∃ t', execPsIndexEdge c s = .next t' ∧ Only [.drawn, .evr, .ps] s t' := by
  refine ⟨_, rfl, ?_⟩
  repeat' first
    | with_reducible exact Only.refl _ _
    | decide
    | with_reducible apply Only.ite
    | with_reducible apply Only.dite
    | with_reducible apply Only.after (psIndex_only _ _)
    | intro _
    | split
    | dsimp only

theorem execPsStandstill_only (c : Fin 2) (s : State) :
    ∃ t', execPsStandstill c s = .next t' ∧ Only [.ps] s t' := by
  refine ⟨_, rfl, ?_⟩
  repeat' first
    | with_reducible exact Only.refl _ _
    | decide
    | with_reducible apply Only.ite
    | with_reducible apply Only.dite
    | with_reducible apply Only.after (psStandstill_only _ _)
    | intro _
    | split
    | dsimp only

theorem execPsSetPos_only (src : Source) (c : Fin 2) (s : State) :
    ∃ t', execPsSetPos src c s = .next t' ∧ Only [.sys, .evr, .ps] s t' := by
  refine ⟨_, rfl, ?_⟩
  repeat' first
    | with_reducible exact Only.refl _ _
    | decide
    | with_reducible apply Only.ite
    | with_reducible apply Only.dite
    | with_reducible apply Only.after (psSetPos_only _ _ _)
    | intro _
    | split
    | dsimp only

theorem execPsArmZ_only (c : Fin 2) (s : State) :
    ∃ t', execPsArmZ c s = .next t' ∧ Only [.ps] s t' := by
  refine ⟨_, rfl, ?_⟩
  repeat' first
    | with_reducible exact Only.refl _ _
    | decide
    | with_reducible apply Only.ite
    | with_reducible apply Only.dite
    | with_reducible apply Only.after (psArm_only _ _)
    | intro _
    | split
    | dsimp only

theorem execPsCmpWrite_only (src : Source) (c : Fin 2) (v : Word) (s : State) :
    ∃ t', execPsCmpWrite src c v s = .next t' ∧ Only [.sys, .ps] s t' := by
  refine ⟨_, rfl, ?_⟩
  repeat' first
    | with_reducible exact Only.refl _ _
    | decide
    | with_reducible apply Only.ite
    | with_reducible apply Only.dite
    | with_reducible apply Only.after (psCmpWrite_only _ _ _ _)
    | intro _
    | split
    | dsimp only

theorem execPsBlockStop_only (stop : Bool) (s : State) :
    ∃ t', execPsBlockStop stop s = .next t' ∧ Only [.evr, .ps, .psBlk] s t' := by
  refine ⟨_, rfl, ?_⟩
  repeat' first
    | with_reducible exact Only.refl _ _
    | decide
    | with_reducible apply Only.ite
    | with_reducible apply Only.dite
    | with_reducible apply Only.after (psBlkWrite_only _ _)
    | intro _
    | split
    | dsimp only

theorem execPsDiagClear_only (c : Fin 2) (bit' : Fin 9) (s : State) :
    ∃ t', execPsDiagClear c bit' s = .next t' ∧ Only [.evr, .ps] s t' := by
  refine ⟨_, rfl, ?_⟩
  repeat' first
    | with_reducible exact Only.refl _ _
    | decide
    | with_reducible apply Only.ite
    | with_reducible apply Only.dite
    | with_reducible apply Only.after (psNotify_only _ _ _)
    | with_reducible apply Only.after (State.setPs_only _ _ _)
    | intro _
    | split
    | dsimp only

theorem execPsPulseRejected_only (c : Fin 2) (s : State) :
    ∃ t', execPsPulseRejected c s = .next t' ∧ Only [.evr, .ps] s t' := by
  refine ⟨_, rfl, ?_⟩
  repeat' first
    | with_reducible exact Only.refl _ _
    | decide
    | with_reducible apply Only.ite
    | with_reducible apply Only.dite
    | with_reducible apply Only.after (psNotify_only _ _ _)
    | with_reducible apply Only.after (State.setPs_only _ _ _)
    | intro _
    | split
    | dsimp only

end Sys2Proof.Machine
end

