-- ==== Sys2Proof/Laws/FrameAo.lean ====
section
/-! SUPPORT. Ao: the parts of the state that each operation of Machine/Ao may change. -/
namespace Sys2Proof.Machine

open Sys2Proof

theorem State.setAo_only (s : State) (c : Fin 4) (f : Ao → Ao) :
    Only [.ao] s (State.setAo s c f) := by
  unfold State.setAo
  repeat' first
    | with_reducible exact Only.refl _ _
    | decide
    | with_reducible apply Only.ite
    | with_reducible apply Only.dite
    | with_reducible apply Only.set_ao
    | intro _
    | split
    | dsimp only

theorem aoEvent_only (c : Fin 4) (mark : Nat) (s : State) :
    Only [.evr] s (aoEvent c mark s) := by
  unfold aoEvent
  repeat' first
    | with_reducible exact Only.refl _ _
    | decide
    | with_reducible apply Only.ite
    | with_reducible apply Only.dite
    | with_reducible apply Only.after (raise_only _ _ _)
    | intro _
    | split
    | dsimp only

theorem aoNotify_only (c : Fin 4) (s0 s1 : State) :
    Only [.evr] s1 (aoNotify c s0 s1) := by
  unfold aoNotify
  repeat' first
    | with_reducible exact Only.refl _ _
    | decide
    | with_reducible apply Only.ite
    | with_reducible apply Only.dite
    | with_reducible apply Only.after (raise_only _ _ _)
    | intro _
    | split
    | dsimp only

theorem aoNotifyAll_only (s0 s1 : State) :
    Only [.evr] s1 (aoNotifyAll s0 s1) := by
  unfold aoNotifyAll
  repeat' first
    | with_reducible exact Only.refl _ _
    | decide
    | with_reducible apply Only.ite
    | with_reducible apply Only.dite
    | with_reducible apply Only.foldl
    | with_reducible apply Only.after (aoNotify_only _ _ _)
    | intro _
    | split
    | dsimp only

theorem aoDrive_only (c : Fin 4) (s : State) :
    Only [.evr, .ao] s (aoDrive c s) := by
  unfold aoDrive
  repeat' first
    | with_reducible exact Only.refl _ _
    | decide
    | with_reducible apply Only.ite
    | with_reducible apply Only.dite
    | with_reducible apply Only.after (aoNotify_only _ _ _)
    | with_reducible apply Only.after (State.setAo_only _ _ _)
    | intro _
    | split
    | dsimp only

theorem aoDriveAll_only (s : State) :
    Only [.evr, .ao] s (aoDriveAll s) := by
  unfold aoDriveAll
  repeat' first
    | with_reducible exact Only.refl _ _
    | decide
    | with_reducible apply Only.ite
    | with_reducible apply Only.dite
    | with_reducible apply Only.foldl
    | with_reducible apply Only.after (aoDrive_only _ _)
    | intro _
    | split
    | dsimp only

theorem aoHartAbort_only (c : Fin 4) (s : State) :
    Only [.evr, .ao] s (aoHartAbort c s) := by
  unfold aoHartAbort
  repeat' first
    | with_reducible exact Only.refl _ _
    | decide
    | with_reducible apply Only.ite
    | with_reducible apply Only.dite
    | with_reducible apply Only.after (aoEvent_only _ _ _)
    | with_reducible apply Only.after (State.setAo_only _ _ _)
    | intro _
    | split
    | dsimp only

theorem aoLose_only (c : Fin 4) (s : State) :
    Only [.evr, .ao] s (aoLose c s) := by
  unfold aoLose
  repeat' first
    | with_reducible exact Only.refl _ _
    | decide
    | with_reducible apply Only.ite
    | with_reducible apply Only.dite
    | with_reducible apply Only.after (aoHartAbort_only _ _)
    | with_reducible apply Only.after (aoNotify_only _ _ _)
    | with_reducible apply Only.after (State.setAo_only _ _ _)
    | intro _
    | split
    | dsimp only

theorem aoStep_only (s : State) (c : Fin 4) (m : AoMeas) :
    Only [.evr, .ao] s (aoStep s c m) := by
  unfold aoStep
  repeat' first
    | with_reducible exact Only.refl _ _
    | decide
    | with_reducible apply Only.ite
    | with_reducible apply Only.dite
    | with_reducible apply Only.after (State.setAo_only _ _ _)
    | with_reducible apply Only.after (aoNotify_only _ _ _)
    | intro _
    | split
    | dsimp only

theorem aoCycle_only (s0 : State) (c : Fin 4) (m : AoMeas) :
    Only [.sys, .evr, .ao] s0 (aoCycle s0 c m) := by
  unfold aoCycle
  repeat' first
    | with_reducible exact Only.refl _ _
    | decide
    | with_reducible apply Only.ite
    | with_reducible apply Only.dite
    | with_reducible apply Only.after (State.setAo_only _ _ _)
    | with_reducible apply Only.after (recordFault_only _ _ _ _ _)
    | with_reducible apply Only.after (aoLose_only _ _)
    | with_reducible apply Only.after (aoStep_only _ _ _)
    | intro _
    | split
    | dsimp only

theorem aoStepUp_only (s : State) (c : Fin 4) :
    Only [.evr, .ao] s (aoStepUp s c) := by
  unfold aoStepUp
  repeat' first
    | with_reducible exact Only.refl _ _
    | decide
    | with_reducible apply Only.ite
    | with_reducible apply Only.dite
    | with_reducible apply Only.after (aoNotify_only _ _ _)
    | with_reducible apply Only.after (State.setAo_only _ _ _)
    | intro _
    | split
    | dsimp only

theorem aoBrownout_only (s : State) (c : Fin 4) :
    Only [.evr, .ao] s (aoBrownout s c) := by
  unfold aoBrownout
  repeat' first
    | with_reducible exact Only.refl _ _
    | decide
    | with_reducible apply Only.ite
    | with_reducible apply Only.dite
    | with_reducible apply Only.after (aoLose_only _ _)
    | intro _
    | split
    | dsimp only

theorem aoIslandRestart_only (s : State) (c : Fin 4) :
    Only [.evr, .ao] s (aoIslandRestart s c) := by
  unfold aoIslandRestart
  repeat' first
    | with_reducible exact Only.refl _ _
    | decide
    | with_reducible apply Only.ite
    | with_reducible apply Only.dite
    | with_reducible apply Only.after (aoNotify_only _ _ _)
    | with_reducible apply Only.after (State.setAo_only _ _ _)
    | intro _
    | split
    | dsimp only

theorem aoBrownoutClear_only (s : State) (c : Fin 4) :
    Only [.evr, .ao] s (aoBrownoutClear s c) := by
  unfold aoBrownoutClear
  repeat' first
    | with_reducible exact Only.refl _ _
    | decide
    | with_reducible apply Only.ite
    | with_reducible apply Only.dite
    | with_reducible apply Only.after (aoNotify_only _ _ _)
    | with_reducible apply Only.after (State.setAo_only _ _ _)
    | intro _
    | split
    | dsimp only

theorem aoKeepLost_only (s : State) (c : Fin 4) :
    Only [.evr, .ao] s (aoKeepLost s c) := by
  unfold aoKeepLost
  repeat' first
    | with_reducible exact Only.refl _ _
    | decide
    | with_reducible apply Only.ite
    | with_reducible apply Only.dite
    | with_reducible apply Only.after (aoNotify_only _ _ _)
    | with_reducible apply Only.after (State.setAo_only _ _ _)
    | intro _
    | split
    | dsimp only

theorem aoCompRetry_only (s : State) (c : Fin 4) :
    Only [.evr, .ao] s (aoCompRetry s c) := by
  unfold aoCompRetry
  repeat' first
    | with_reducible exact Only.refl _ _
    | decide
    | with_reducible apply Only.ite
    | with_reducible apply Only.dite
    | with_reducible apply Only.after (aoDrive_only _ _)
    | with_reducible apply Only.after (State.setAo_only _ _ _)
    | intro _
    | split
    | dsimp only

theorem aoReclose_only (s : State) (c : Fin 4) :
    Only [.evr, .ao] s (aoReclose s c) := by
  unfold aoReclose
  repeat' first
    | with_reducible exact Only.refl _ _
    | decide
    | with_reducible apply Only.ite
    | with_reducible apply Only.dite
    | with_reducible apply Only.after (aoNotify_only _ _ _)
    | with_reducible apply Only.after (State.setAo_only _ _ _)
    | intro _
    | split
    | dsimp only

theorem aoRestart_only (src : Source) (c : Fin 4) (s : State) :
    Only [.sys, .evr, .ao] s (aoRestart src c s) := by
  unfold aoRestart
  repeat' first
    | with_reducible exact Only.refl _ _
    | decide
    | with_reducible apply Only.ite
    | with_reducible apply Only.dite
    | with_reducible apply Only.after (logWerr_only _ _ _ _)
    | with_reducible apply Only.after (aoNotify_only _ _ _)
    | with_reducible apply Only.after (State.setAo_only _ _ _)
    | intro _
    | split
    | dsimp only

theorem aoPowered_only (s : State) (c : Fin 4) :
    Only [.evr, .ao] s (aoPowered s c) := by
  unfold aoPowered
  repeat' first
    | with_reducible exact Only.refl _ _
    | decide
    | with_reducible apply Only.ite
    | with_reducible apply Only.dite
    | with_reducible apply Only.after (aoNotify_only _ _ _)
    | with_reducible apply Only.after (State.setAo_only _ _ _)
    | intro _
    | split
    | dsimp only

theorem aoCalDone_only (s : State) (c : Fin 4) :
    Only [.evr, .ao] s (aoCalDone s c) := by
  unfold aoCalDone
  repeat' first
    | with_reducible exact Only.refl _ _
    | decide
    | with_reducible apply Only.ite
    | with_reducible apply Only.dite
    | with_reducible apply Only.after (aoNotify_only _ _ _)
    | with_reducible apply Only.after (State.setAo_only _ _ _)
    | intro _
    | split
    | dsimp only

theorem aoTrimApply_only (src : Source) (c : Fin 4) (s : State) :
    Only [.sys, .evr, .ao] s (aoTrimApply src c s) := by
  unfold aoTrimApply
  repeat' first
    | with_reducible exact Only.refl _ _
    | decide
    | with_reducible apply Only.ite
    | with_reducible apply Only.dite
    | with_reducible apply Only.after (aoEvent_only _ _ _)
    | with_reducible apply Only.after (logWerr_only _ _ _ _)
    | with_reducible apply Only.after (State.setAo_only _ _ _)
    | intro _
    | split
    | dsimp only

theorem aoTrimClear_only (src : Source) (c : Fin 4) (s : State) :
    Only [.sys, .evr, .ao] s (aoTrimClear src c s) := by
  unfold aoTrimClear
  repeat' first
    | with_reducible exact Only.refl _ _
    | decide
    | with_reducible apply Only.ite
    | with_reducible apply Only.dite
    | with_reducible apply Only.after (aoEvent_only _ _ _)
    | with_reducible apply Only.after (logWerr_only _ _ _ _)
    | with_reducible apply Only.after (State.setAo_only _ _ _)
    | intro _
    | split
    | dsimp only

theorem aoHartTx_only (c : Fin 4) (s : State) :
    Only [.evr, .ao] s (aoHartTx c s) := by
  unfold aoHartTx
  repeat' first
    | with_reducible exact Only.refl _ _
    | decide
    | with_reducible apply Only.ite
    | with_reducible apply Only.dite
    | with_reducible apply Only.after (aoEvent_only _ _ _)
    | with_reducible apply Only.after (State.setAo_only _ _ _)
    | intro _
    | split
    | dsimp only

theorem aoHartRefuse_only (c : Fin 4) (res : Nat) (s : State) :
    Only [.evr, .ao] s (aoHartRefuse c res s) := by
  unfold aoHartRefuse
  repeat' first
    | with_reducible exact Only.refl _ _
    | decide
    | with_reducible apply Only.ite
    | with_reducible apply Only.dite
    | with_reducible apply Only.after (aoEvent_only _ _ _)
    | with_reducible apply Only.after (State.setAo_only _ _ _)
    | intro _
    | split
    | dsimp only

theorem aoHartStart_only (c : Fin 4) (s : State) :
    Only [.evr, .ao] s (aoHartStart c s) := by
  unfold aoHartStart
  repeat' first
    | with_reducible exact Only.refl _ _
    | decide
    | with_reducible apply Only.ite
    | with_reducible apply Only.dite
    | with_reducible apply Only.after (aoHartRefuse_only _ _ _)
    | with_reducible apply Only.after (State.setAo_only _ _ _)
    | intro _
    | split
    | dsimp only

theorem aoHartDone_only (c : Fin 4) (s : State) :
    Only [.evr, .ao] s (aoHartDone c s) := by
  unfold aoHartDone
  repeat' first
    | with_reducible exact Only.refl _ _
    | decide
    | with_reducible apply Only.ite
    | with_reducible apply Only.dite
    | with_reducible apply Only.after (aoEvent_only _ _ _)
    | with_reducible apply Only.after (State.setAo_only _ _ _)
    | intro _
    | split
    | dsimp only

theorem aoCarrier_only (c : Fin 4) (s : State) :
    Only [.ao] s (aoCarrier c s) := by
  unfold aoCarrier
  repeat' first
    | with_reducible exact Only.refl _ _
    | decide
    | with_reducible apply Only.ite
    | with_reducible apply Only.dite
    | with_reducible apply Only.after (State.setAo_only _ _ _)
    | intro _
    | split
    | dsimp only

theorem aoRxDone_only (c : Fin 4) (bytes : List Byte) (perr : Nat) (s : State) :
    Only [.evr, .ao] s (aoRxDone c bytes perr s) := by
  unfold aoRxDone
  repeat' first
    | with_reducible exact Only.refl _ _
    | decide
    | with_reducible apply Only.ite
    | with_reducible apply Only.dite
    | with_reducible apply Only.after (aoEvent_only _ _ _)
    | with_reducible apply Only.after (State.setAo_only _ _ _)
    | intro _
    | split
    | dsimp only

theorem aoTrimRestore_only (c : Fin 4) (s : State) :
    Only [.evr, .ao] s (aoTrimRestore c s) := by
  unfold aoTrimRestore
  repeat' first
    | with_reducible exact Only.refl _ _
    | decide
    | with_reducible apply Only.ite
    | with_reducible apply Only.dite
    | with_reducible apply Only.after (aoEvent_only _ _ _)
    | with_reducible apply Only.after (State.setAo_only _ _ _)
    | intro _
    | split
    | dsimp only

theorem aoEndSpell_only (s : State) :
    Only [.evr, .ao] s (aoEndSpell s) := by
  unfold aoEndSpell
  repeat' first
    | with_reducible exact Only.refl _ _
    | decide
    | with_reducible apply Only.ite
    | with_reducible apply Only.dite
    | with_reducible apply Only.foldl
    | with_reducible apply Only.after (aoTrimRestore_only _ _)
    | with_reducible apply Only.after (aoHartAbort_only _ _)
    | intro _
    | split
    | dsimp only

theorem aoLetGo_only (s : State) :
    Only [.ao] s (aoLetGo s) := by
  unfold aoLetGo
  repeat' first
    | with_reducible exact Only.refl _ _
    | decide
    | with_reducible apply Only.ite
    | with_reducible apply Only.dite
    | with_reducible apply Only.set_ao
    | intro _
    | split
    | dsimp only

theorem aoApply_only (s : State) (c : Fin 4) :
    Only [.ao] s (aoApply s c) := by
  unfold aoApply
  repeat' first
    | with_reducible exact Only.refl _ _
    | decide
    | with_reducible apply Only.ite
    | with_reducible apply Only.dite
    | with_reducible apply Only.after (State.setAo_only _ _ _)
    | intro _
    | split
    | dsimp only

theorem aoLoad_only (s : State) (c : Fin 4) :
    Only [.ao] s (aoLoad s c) := by
  unfold aoLoad
  repeat' first
    | with_reducible exact Only.refl _ _
    | decide
    | with_reducible apply Only.ite
    | with_reducible apply Only.dite
    | with_reducible apply Only.after (State.setAo_only _ _ _)
    | intro _
    | split
    | dsimp only

theorem aoSwap_only (s : State) (c : Fin 4) :
    Only [.ao] s (aoSwap s c) := by
  unfold aoSwap
  repeat' first
    | with_reducible exact Only.refl _ _
    | decide
    | with_reducible apply Only.ite
    | with_reducible apply Only.dite
    | with_reducible apply Only.after (State.setAo_only _ _ _)
    | with_reducible apply Only.after (aoApply_only _ _)
    | intro _
    | split
    | dsimp only

theorem aoReady_only (s : State) (c : Fin 4) :
    Only [.evr, .ao] s (aoReady s c) := by
  unfold aoReady
  repeat' first
    | with_reducible exact Only.refl _ _
    | decide
    | with_reducible apply Only.ite
    | with_reducible apply Only.dite
    | with_reducible apply Only.after (State.setAo_only _ _ _)
    | with_reducible apply Only.after (aoNotify_only _ _ _)
    | with_reducible apply Only.after (aoApply_only _ _)
    | intro _
    | split
    | dsimp only

theorem aoBlkWrite_only (stop : Bool) (s : State) :
    Only [.evr, .ao, .aoBlk] s (aoBlkWrite stop s) := by
  unfold aoBlkWrite
  repeat' first
    | with_reducible exact Only.refl _ _
    | decide
    | with_reducible apply Only.ite
    | with_reducible apply Only.dite
    | with_reducible apply Only.foldl
    | with_reducible apply Only.after (aoApply_only _ _)
    | with_reducible apply Only.after (aoNotifyAll_only _ _)
    | with_reducible apply Only.set_aoBlk
    | intro _
    | split
    | dsimp only

theorem aoOpenAll_only (s : State) :
    Only [.ao] s (aoOpenAll s) := by
  unfold aoOpenAll
  repeat' first
    | with_reducible exact Only.refl _ _
    | decide
    | with_reducible apply Only.ite
    | with_reducible apply Only.dite
    | with_reducible apply Only.set_ao
    | intro _
    | split
    | dsimp only

theorem execAoCellCycle_only (c : Fin 4) (m : AoMeas) (s : State) :
    ∃ t', execAoCellCycle c m s = .next t' ∧ Only [.sys, .evr, .ao] s t' := by
  refine ⟨_, rfl, ?_⟩
  repeat' first
    | with_reducible exact Only.refl _ _
    | decide
    | with_reducible apply Only.ite
    | with_reducible apply Only.dite
    | with_reducible apply Only.after (aoCycle_only _ _ _)
    | intro _
    | split
    | dsimp only

theorem execAoClockStepUp_only (c : Fin 4) (s : State) :
    ∃ t', execAoClockStepUp c s = .next t' ∧ Only [.evr, .ao] s t' := by
  refine ⟨_, rfl, ?_⟩
  repeat' first
    | with_reducible exact Only.refl _ _
    | decide
    | with_reducible apply Only.ite
    | with_reducible apply Only.dite
    | with_reducible apply Only.after (aoStepUp_only _ _)
    | intro _
    | split
    | dsimp only

theorem execAoBrownout_only (c : Fin 4) (s : State) :
    ∃ t', execAoBrownout c s = .next t' ∧ Only [.evr, .ao] s t' := by
  refine ⟨_, rfl, ?_⟩
  repeat' first
    | with_reducible exact Only.refl _ _
    | decide
    | with_reducible apply Only.ite
    | with_reducible apply Only.dite
    | with_reducible apply Only.after (aoBrownout_only _ _)
    | intro _
    | split
    | dsimp only

theorem execAoIslandRestart_only (c : Fin 4) (s : State) :
    ∃ t', execAoIslandRestart c s = .next t' ∧ Only [.evr, .ao] s t' := by
  refine ⟨_, rfl, ?_⟩
  repeat' first
    | with_reducible exact Only.refl _ _
    | decide
    | with_reducible apply Only.ite
    | with_reducible apply Only.dite
    | with_reducible apply Only.after (aoIslandRestart_only _ _)
    | intro _
    | split
    | dsimp only

theorem execAoBrownoutClear_only (c : Fin 4) (s : State) :
    ∃ t', execAoBrownoutClear c s = .next t' ∧ Only [.evr, .ao] s t' := by
  refine ⟨_, rfl, ?_⟩
  repeat' first
    | with_reducible exact Only.refl _ _
    | decide
    | with_reducible apply Only.ite
    | with_reducible apply Only.dite
    | with_reducible apply Only.after (aoBrownoutClear_only _ _)
    | intro _
    | split
    | dsimp only

theorem execAoKeepaliveLost_only (c : Fin 4) (s : State) :
    ∃ t', execAoKeepaliveLost c s = .next t' ∧ Only [.evr, .ao] s t' := by
  refine ⟨_, rfl, ?_⟩
  repeat' first
    | with_reducible exact Only.refl _ _
    | decide
    | with_reducible apply Only.ite
    | with_reducible apply Only.dite
    | with_reducible apply Only.after (aoKeepLost_only _ _)
    | intro _
    | split
    | dsimp only

theorem execAoComplianceRetry_only (c : Fin 4) (s : State) :
    ∃ t', execAoComplianceRetry c s = .next t' ∧ Only [.evr, .ao] s t' := by
  refine ⟨_, rfl, ?_⟩
  repeat' first
    | with_reducible exact Only.refl _ _
    | decide
    | with_reducible apply Only.ite
    | with_reducible apply Only.dite
    | with_reducible apply Only.after (aoCompRetry_only _ _)
    | intro _
    | split
    | dsimp only

theorem execAoSwitchReclose_only (c : Fin 4) (s : State) :
    ∃ t', execAoSwitchReclose c s = .next t' ∧ Only [.evr, .ao] s t' := by
  refine ⟨_, rfl, ?_⟩
  repeat' first
    | with_reducible exact Only.refl _ _
    | decide
    | with_reducible apply Only.ite
    | with_reducible apply Only.dite
    | with_reducible apply Only.after (aoReclose_only _ _)
    | intro _
    | split
    | dsimp only

theorem execAoRestart_only (src : Source) (c : Fin 4) (s : State) :
    ∃ t', execAoRestart src c s = .next t' ∧ Only [.sys, .evr, .ao] s t' := by
  refine ⟨_, rfl, ?_⟩
  repeat' first
    | with_reducible exact Only.refl _ _
    | decide
    | with_reducible apply Only.ite
    | with_reducible apply Only.dite
    | with_reducible apply Only.after (aoRestart_only _ _ _)
    | intro _
    | split
    | dsimp only

theorem execAoIslandPowered_only (c : Fin 4) (s : State) :
    ∃ t', execAoIslandPowered c s = .next t' ∧ Only [.evr, .ao] s t' := by
  refine ⟨_, rfl, ?_⟩
  repeat' first
    | with_reducible exact Only.refl _ _
    | decide
    | with_reducible apply Only.ite
    | with_reducible apply Only.dite
    | with_reducible apply Only.after (aoPowered_only _ _)
    | intro _
    | split
    | dsimp only

theorem execAoCalDone_only (c : Fin 4) (s : State) :
    ∃ t', execAoCalDone c s = .next t' ∧ Only [.evr, .ao] s t' := by
  refine ⟨_, rfl, ?_⟩
  repeat' first
    | with_reducible exact Only.refl _ _
    | decide
    | with_reducible apply Only.ite
    | with_reducible apply Only.dite
    | with_reducible apply Only.after (aoCalDone_only _ _)
    | intro _
    | split
    | dsimp only

theorem execAoHartTx_only (_src : Source) (c : Fin 4) (s : State) :
    ∃ t', execAoHartTx _src c s = .next t' ∧ Only [.evr, .ao] s t' := by
  refine ⟨_, rfl, ?_⟩
  repeat' first
    | with_reducible exact Only.refl _ _
    | decide
    | with_reducible apply Only.ite
    | with_reducible apply Only.dite
    | with_reducible apply Only.after (aoHartTx_only _ _)
    | intro _
    | split
    | dsimp only

theorem execAoHartTxStart_only (c : Fin 4) (s : State) :
    ∃ t', execAoHartTxStart c s = .next t' ∧ Only [.evr, .ao] s t' := by
  refine ⟨_, rfl, ?_⟩
  repeat' first
    | with_reducible exact Only.refl _ _
    | decide
    | with_reducible apply Only.ite
    | with_reducible apply Only.dite
    | with_reducible apply Only.after (aoHartStart_only _ _)
    | intro _
    | split
    | dsimp only

theorem execAoHartTxDone_only (c : Fin 4) (s : State) :
    ∃ t', execAoHartTxDone c s = .next t' ∧ Only [.evr, .ao] s t' := by
  refine ⟨_, rfl, ?_⟩
  repeat' first
    | with_reducible exact Only.refl _ _
    | decide
    | with_reducible apply Only.ite
    | with_reducible apply Only.dite
    | with_reducible apply Only.after (aoHartDone_only _ _)
    | intro _
    | split
    | dsimp only

theorem execAoHartCarrierDetect_only (c : Fin 4) (s : State) :
    ∃ t', execAoHartCarrierDetect c s = .next t' ∧ Only [.ao] s t' := by
  refine ⟨_, rfl, ?_⟩
  repeat' first
    | with_reducible exact Only.refl _ _
    | decide
    | with_reducible apply Only.ite
    | with_reducible apply Only.dite
    | with_reducible apply Only.after (aoCarrier_only _ _)
    | intro _
    | split
    | dsimp only

theorem execAoHartRxDone_only (c : Fin 4) (bytes : List Byte) (perr : Nat) (s : State) :
    ∃ t', execAoHartRxDone c bytes perr s = .next t' ∧ Only [.evr, .ao] s t' := by
  refine ⟨_, rfl, ?_⟩
  repeat' first
    | with_reducible exact Only.refl _ _
    | decide
    | with_reducible apply Only.ite
    | with_reducible apply Only.dite
    | with_reducible apply Only.after (aoRxDone_only _ _ _ _)
    | intro _
    | split
    | dsimp only

theorem execAoBlockStop_only (stop : Bool) (s : State) :
    ∃ t', execAoBlockStop stop s = .next t' ∧ Only [.evr, .ao, .aoBlk] s t' := by
  refine ⟨_, rfl, ?_⟩
  repeat' first
    | with_reducible exact Only.refl _ _
    | decide
    | with_reducible apply Only.ite
    | with_reducible apply Only.dite
    | with_reducible apply Only.after (aoBlkWrite_only _ _)
    | intro _
    | split
    | dsimp only

end Sys2Proof.Machine
end

