-- ==== Sys2Proof/Laws/FrameDio.lean ====
section
/-! SUPPORT. Dio: the parts of the state that each operation of Machine/Dio may change. -/
namespace Sys2Proof.Machine

open Sys2Proof

theorem State.setDio_only (s : State) (c : Fin 16) (f : Dio → Dio) :
    Only [.dio] s (State.setDio s c f) := by
  unfold State.setDio
  repeat' first
    | with_reducible exact Only.refl _ _
    | decide
    | with_reducible apply Only.ite
    | with_reducible apply Only.dite
    | with_reducible apply Only.set_dio
    | intro _
    | split
    | dsimp only

theorem State.setGrp_only (s : State) (g : Fin 2) (f : DioGroup → DioGroup) :
    Only [.dioBlk] s (State.setGrp s g f) := by
  unfold State.setGrp
  repeat' first
    | with_reducible exact Only.refl _ _
    | decide
    | with_reducible apply Only.ite
    | with_reducible apply Only.dite
    | with_reducible apply Only.set_dioBlk
    | intro _
    | split
    | dsimp only

theorem dioEvent_only (c : Fin 16) (marks : Word) (s : State) :
    Only [.evr] s (dioEvent c marks s) := by
  unfold dioEvent
  repeat' first
    | with_reducible exact Only.refl _ _
    | decide
    | with_reducible apply Only.ite
    | with_reducible apply Only.dite
    | with_reducible apply Only.after (raise_only _ _ _)
    | intro _
    | split
    | dsimp only

theorem dioNotify_only (c : Fin 16) (s0 s1 : State) :
    Only [.evr] s1 (dioNotify c s0 s1) := by
  unfold dioNotify
  repeat' first
    | with_reducible exact Only.refl _ _
    | decide
    | with_reducible apply Only.ite
    | with_reducible apply Only.dite
    | with_reducible apply Only.after (dioEvent_only _ _ _)
    | intro _
    | split
    | dsimp only

theorem dioNotifyAll_only (s0 s1 : State) :
    Only [.evr] s1 (dioNotifyAll s0 s1) := by
  unfold dioNotifyAll
  repeat' first
    | with_reducible exact Only.refl _ _
    | decide
    | with_reducible apply Only.ite
    | with_reducible apply Only.dite
    | with_reducible apply Only.foldl
    | with_reducible apply Only.after (dioNotify_only _ _ _)
    | intro _
    | split
    | dsimp only

theorem dioDrive_only (s : State) (c : Fin 16) :
    Only [.dio, .dioBlk] s (dioDrive s c) := by
  unfold dioDrive
  repeat' first
    | with_reducible exact Only.refl _ _
    | decide
    | with_reducible apply Only.ite
    | with_reducible apply Only.dite
    | with_reducible apply Only.after (State.setDio_only _ _ _)
    | with_reducible apply Only.set_dioBlk
    | intro _
    | split
    | dsimp only

theorem dioDriveAll_only (s : State) :
    Only [.dio, .dioBlk] s (dioDriveAll s) := by
  unfold dioDriveAll
  repeat' first
    | with_reducible exact Only.refl _ _
    | decide
    | with_reducible apply Only.ite
    | with_reducible apply Only.dite
    | with_reducible apply Only.foldl
    | with_reducible apply Only.after (dioDrive_only _ _)
    | intro _
    | split
    | dsimp only

theorem dioReleaseAll_only (s : State) :
    Only [.dio] s (dioReleaseAll s) := by
  unfold dioReleaseAll
  repeat' first
    | with_reducible exact Only.refl _ _
    | decide
    | with_reducible apply Only.ite
    | with_reducible apply Only.dite
    | with_reducible apply Only.set_dio
    | intro _
    | split
    | dsimp only

theorem dioCommand_only (c : Fin 16) (cmd : BitVec 2) (s : State) :
    Only [.dio, .dioBlk] s (dioCommand c cmd s) := by
  unfold dioCommand
  repeat' first
    | with_reducible exact Only.refl _ _
    | decide
    | with_reducible apply Only.ite
    | with_reducible apply Only.dite
    | with_reducible apply Only.after (dioDrive_only _ _)
    | with_reducible apply Only.after (State.setDio_only _ _ _)
    | intro _
    | split
    | dsimp only

theorem dioPostPoint_only (c : Fin 16) (usable value : Bool) (s : State) :
    Only [.evr, .dio, .dioBlk] s (dioPostPoint c usable value s) := by
  unfold dioPostPoint
  repeat' first
    | with_reducible exact Only.refl _ _
    | decide
    | with_reducible apply Only.ite
    | with_reducible apply Only.dite
    | with_reducible apply Only.after (State.setDio_only _ _ _)
    | with_reducible apply Only.after (dioNotify_only _ _ _)
    | with_reducible apply Only.after (dioCommand_only _ _ _)
    | with_reducible apply Only.after (dioDrive_only _ _)
    | intro _
    | split
    | dsimp only

theorem dioPostSet_only (c : Fin 16) (s : State) :
    Only [.evr, .dio, .dioBlk] s (dioPostSet c s) := by
  unfold dioPostSet
  repeat' first
    | with_reducible exact Only.refl _ _
    | decide
    | with_reducible apply Only.ite
    | with_reducible apply Only.dite
    | with_reducible apply Only.after (dioNotify_only _ _ _)
    | with_reducible apply Only.after (dioCommand_only _ _ _)
    | intro _
    | split
    | dsimp only

theorem dioMark_only (s : State) :
    Only [.dio] s (dioMark s) := by
  unfold dioMark
  repeat' first
    | with_reducible exact Only.refl _ _
    | decide
    | with_reducible apply Only.ite
    | with_reducible apply Only.dite
    | with_reducible apply Only.set_dio
    | intro _
    | split
    | dsimp only

theorem dioTransition_only (c : Fin 16) (level : Bool) (t : Ts) (s : State) :
    Only [.evr, .dio] s (dioTransition c level t s) := by
  unfold dioTransition
  repeat' first
    | with_reducible exact Only.refl _ _
    | decide
    | with_reducible apply Only.ite
    | with_reducible apply Only.dite
    | with_reducible apply Only.after (State.setDio_only _ _ _)
    | with_reducible apply Only.after (dioEvent_only _ _ _)
    | intro _
    | split
    | dsimp only

theorem dioSet_only (c : Fin 16) (i : Nat) (applies : Bool) (f : Dio → Dio) (s : State) :
    Only [.evr, .dio] s (dioSet c i applies f s) := by
  unfold dioSet
  repeat' first
    | with_reducible exact Only.refl _ _
    | decide
    | with_reducible apply Only.ite
    | with_reducible apply Only.dite
    | with_reducible apply Only.after (dioNotify_only _ _ _)
    | with_reducible apply Only.after (State.setDio_only _ _ _)
    | intro _
    | split
    | dsimp only

theorem dioRetry_only (c : Fin 16) (s : State) :
    Only [.dio, .dioBlk] s (dioRetry c s) := by
  unfold dioRetry
  repeat' first
    | with_reducible exact Only.refl _ _
    | decide
    | with_reducible apply Only.ite
    | with_reducible apply Only.dite
    | with_reducible apply Only.after (dioDrive_only _ _)
    | with_reducible apply Only.after (State.setDio_only _ _ _)
    | intro _
    | split
    | dsimp only

theorem grpEnter_only (g : Fin 2) (k : GrpCond) (v : Half) (s : State) :
    Only [.sup, .evr, .dio, .dioBlk] s (grpEnter g k v s) := by
  unfold grpEnter
  repeat' first
    | with_reducible exact Only.refl _ _
    | decide
    | with_reducible apply Only.ite
    | with_reducible apply Only.dite
    | with_reducible apply Only.foldl
    | with_reducible apply Only.after (State.setGrp_only _ _ _)
    | with_reducible apply Only.after (dioDrive_only _ _)
    | with_reducible apply Only.after (State.setDio_only _ _ _)
    | with_reducible apply Only.after (dioNotifyAll_only _ _)
    | with_reducible apply Only.after (supplyEvent_only _ _ _ _)
    | intro _
    | split
    | dsimp only

theorem grpFall_only (g : Fin 2) (k : GrpCond) (v : Half) (s : State) :
    Only [.sup, .evr, .dio, .dioBlk] s (grpFall g k v s) := by
  unfold grpFall
  repeat' first
    | with_reducible exact Only.refl _ _
    | decide
    | with_reducible apply Only.ite
    | with_reducible apply Only.dite
    | with_reducible apply Only.after (State.setGrp_only _ _ _)
    | with_reducible apply Only.after (grpEnter_only _ _ _ _)
    | intro _
    | split
    | dsimp only

theorem grpLeave_only (g : Fin 2) (v : Half) (s : State) :
    Only [.sup, .evr, .dio, .dioBlk] s (grpLeave g v s) := by
  unfold grpLeave
  repeat' first
    | with_reducible exact Only.refl _ _
    | decide
    | with_reducible apply Only.ite
    | with_reducible apply Only.dite
    | with_reducible apply Only.after (grpEnter_only _ _ _ _)
    | with_reducible apply Only.after (State.setGrp_only _ _ _)
    | intro _
    | split
    | dsimp only

theorem grpShed_only (g : Fin 2) (mean : Half) (s : State) :
    Only [.evr, .dio, .dioBlk] s (grpShed g mean s) := by
  unfold grpShed
  repeat' first
    | with_reducible exact Only.refl _ _
    | decide
    | with_reducible apply Only.ite
    | with_reducible apply Only.dite
    | with_reducible apply Only.after (State.setGrp_only _ _ _)
    | with_reducible apply Only.after (dioDrive_only _ _)
    | with_reducible apply Only.after (State.setDio_only _ _ _)
    | with_reducible apply Only.after (dioNotify_only _ _ _)
    | with_reducible apply Only.after (supplyRaise_only _ _ _)
    | intro _
    | split
    | dsimp only

theorem dioTrip_only (c : Fin 16) (i : Nat) (s : State) :
    Only [.evr, .dio, .dioBlk] s (dioTrip c i s) := by
  unfold dioTrip
  repeat' first
    | with_reducible exact Only.refl _ _
    | decide
    | with_reducible apply Only.ite
    | with_reducible apply Only.dite
    | with_reducible apply Only.after (State.setDio_only _ _ _)
    | with_reducible apply Only.after (dioNotify_only _ _ _)
    | with_reducible apply Only.after (dioDrive_only _ _)
    | intro _
    | split
    | dsimp only

theorem dioAverage_only (s : State) (c : Fin 16) (curr v : Nat) (settled : Bool) :
    Only [.evr, .dio] s (dioAverage s c curr v settled) := by
  unfold dioAverage
  repeat' first
    | with_reducible exact Only.refl _ _
    | decide
    | with_reducible apply Only.ite
    | with_reducible apply Only.dite
    | with_reducible apply Only.after (dioNotify_only _ _ _)
    | with_reducible apply Only.after (State.setDio_only _ _ _)
    | intro _
    | split
    | dsimp only

theorem dioProbe_only (s : State) (c : Fin 16) (curr : Nat) :
    Only [.evr, .dio] s (dioProbe s c curr) := by
  unfold dioProbe
  repeat' first
    | with_reducible exact Only.refl _ _
    | decide
    | with_reducible apply Only.ite
    | with_reducible apply Only.dite
    | with_reducible apply Only.after (dioNotify_only _ _ _)
    | with_reducible apply Only.after (State.setDio_only _ _ _)
    | intro _
    | split
    | dsimp only

theorem dioLearnDone_only (s : State) (c : Fin 16) (probe : Bool) :
    Only [.evr, .dio] s (dioLearnDone s c probe) := by
  unfold dioLearnDone
  repeat' first
    | with_reducible exact Only.refl _ _
    | decide
    | with_reducible apply Only.ite
    | with_reducible apply Only.dite
    | with_reducible apply Only.after (dioEvent_only _ _ _)
    | with_reducible apply Only.after (State.setDio_only _ _ _)
    | intro _
    | split
    | dsimp only

theorem dioCmd_only {l : List Part} {s : State} (src : Source) (c : Fin 16) (f : State → State) (t : State) (h : ∀ u, Only l u (f u))
    (k : Part.sub [.sys, .evr] l = true) (g : Only l s t) : Only l s (dioCmd src c f t) := by
  unfold dioCmd
  repeat' first
    | assumption
    | with_reducible exact Only.refl _ _
    | with_reducible apply Only.after (h _)
    | with_reducible apply Only.after (h _ _)
    | exact Part.sub_refl _
    | with_reducible apply Only.ite
    | with_reducible apply Only.dite
    | with_reducible apply Only.after (logWerr_only _ _ _ _) (Part.sub_trans (by decide) k)
    | with_reducible apply Only.after (dioNotify_only _ _ _) (Part.sub_trans (by decide) k)
    | intro _
    | split
    | dsimp only

theorem dioApply_only (s : State) (c : Fin 16) :
    Only [.dio] s (dioApply s c) := by
  unfold dioApply
  repeat' first
    | with_reducible exact Only.refl _ _
    | decide
    | with_reducible apply Only.ite
    | with_reducible apply Only.dite
    | with_reducible apply Only.after (State.setDio_only _ _ _)
    | intro _
    | split
    | dsimp only

theorem dioLoad_only (s : State) (c : Fin 16) :
    Only [.dio] s (dioLoad s c) := by
  unfold dioLoad
  repeat' first
    | with_reducible exact Only.refl _ _
    | decide
    | with_reducible apply Only.ite
    | with_reducible apply Only.dite
    | with_reducible apply Only.after (State.setDio_only _ _ _)
    | intro _
    | split
    | dsimp only

theorem dioSwap_only (s : State) (c : Fin 16) :
    Only [.dio] s (dioSwap s c) := by
  unfold dioSwap
  repeat' first
    | with_reducible exact Only.refl _ _
    | decide
    | with_reducible apply Only.ite
    | with_reducible apply Only.dite
    | with_reducible apply Only.after (State.setDio_only _ _ _)
    | with_reducible apply Only.after (dioApply_only _ _)
    | intro _
    | split
    | dsimp only

theorem dioRetake_only (s : State) (c : Fin 16) :
    Only [.dio, .dioBlk] s (dioRetake s c) := by
  unfold dioRetake
  repeat' first
    | with_reducible exact Only.refl _ _
    | decide
    | with_reducible apply Only.ite
    | with_reducible apply Only.dite
    | with_reducible apply Only.after (dioApply_only _ _)
    | with_reducible apply Only.after (dioDrive_only _ _)
    | with_reducible apply Only.after (State.setDio_only _ _ _)
    | intro _
    | split
    | dsimp only

theorem dioRelease_only (s : State) (g : Fin 2) :
    Only [.dio, .dioBlk] s (dioRelease s g) := by
  unfold dioRelease
  repeat' first
    | with_reducible exact Only.refl _ _
    | decide
    | with_reducible apply Only.ite
    | with_reducible apply Only.dite
    | with_reducible apply Only.foldl
    | with_reducible apply Only.after (dioRetake_only _ _)
    | intro _
    | split
    | dsimp only

theorem dioReady_only (s : State) (c : Fin 16) :
    Only [.evr, .dio, .dioBlk] s (dioReady s c) := by
  unfold dioReady
  repeat' first
    | with_reducible exact Only.refl _ _
    | decide
    | with_reducible apply Only.ite
    | with_reducible apply Only.dite
    | with_reducible apply Only.after (State.setDio_only _ _ _)
    | with_reducible apply Only.after (dioNotify_only _ _ _)
    | with_reducible apply Only.after (dioDrive_only _ _)
    | with_reducible apply Only.after (dioApply_only _ _)
    | intro _
    | split
    | dsimp only

theorem dioBlkWrite_only (stop : BitVec 2) (s : State) :
    Only [.evr, .dio, .dioBlk] s (dioBlkWrite stop s) := by
  unfold dioBlkWrite
  repeat' first
    | with_reducible exact Only.refl _ _
    | decide
    | with_reducible apply Only.ite
    | with_reducible apply Only.dite
    | with_reducible apply Only.after (State.setGrp_only _ _ _)
    | with_reducible apply Only.after (dioRelease_only _ _)
    | with_reducible apply Only.after (dioNotifyAll_only _ _)
    | intro _
    | split
    | dsimp only

theorem dioSetWrite_only (c : Fin 16) (cmd : BitVec 2) (s : State) :
    Only [.evr, .dio, .dioBlk] s (dioSetWrite c cmd s) := by
  unfold dioSetWrite
  repeat' first
    | with_reducible exact Only.refl _ _
    | decide
    | with_reducible apply Only.ite
    | with_reducible apply Only.dite
    | with_reducible apply Only.after (State.setDio_only _ _ _)
    | with_reducible apply Only.after (dioNotify_only _ _ _)
    | with_reducible apply Only.after (dioCommand_only _ _ _)
    | intro _
    | split
    | dsimp only

theorem execDioLineBreak_only (c : Fin 16) (s : State) :
    ∃ t', execDioLineBreak c s = .next t' ∧ Only [.evr, .dio] s t' := by
  refine ⟨_, rfl, ?_⟩
  repeat' first
    | with_reducible exact Only.refl _ _
    | decide
    | with_reducible apply Only.ite
    | with_reducible apply Only.dite
    | with_reducible apply Only.after (dioSet_only _ _ _ _ _)
    | intro _
    | split
    | dsimp only

theorem execDioButtonStuck_only (c : Fin 16) (s : State) :
    ∃ t', execDioButtonStuck c s = .next t' ∧ Only [.evr, .dio] s t' := by
  refine ⟨_, rfl, ?_⟩
  repeat' first
    | with_reducible exact Only.refl _ _
    | decide
    | with_reducible apply Only.ite
    | with_reducible apply Only.dite
    | with_reducible apply Only.after (dioSet_only _ _ _ _ _)
    | intro _
    | split
    | dsimp only

theorem execDioBlinkPhase_only (s : State) :
    ∃ t', execDioBlinkPhase s = .next t' ∧ Only [.dio, .dioBlk] s t' := by
  refine ⟨_, rfl, ?_⟩
  repeat' first
    | with_reducible exact Only.refl _ _
    | decide
    | with_reducible apply Only.ite
    | with_reducible apply Only.dite
    | with_reducible apply Only.after (dioDriveAll_only _)
    | intro _
    | split
    | dsimp only

theorem execDioInrushEnd_only (c : Fin 16) (s : State) :
    ∃ t', execDioInrushEnd c s = .next t' ∧ Only [.dio, .dioBlk] s t' := by
  refine ⟨_, rfl, ?_⟩
  repeat' first
    | with_reducible exact Only.refl _ _
    | decide
    | with_reducible apply Only.ite
    | with_reducible apply Only.dite
    | with_reducible apply Only.after (dioDriveAll_only _)
    | with_reducible apply Only.after (State.setDio_only _ _ _)
    | intro _
    | split
    | dsimp only

theorem execDioKeepalive_only (s : State) :
    ∃ t', execDioKeepalive s = .next t' ∧ Only [.evr, .dio, .dioBlk] s t' := by
  refine ⟨_, rfl, ?_⟩
  repeat' first
    | with_reducible exact Only.refl _ _
    | decide
    | with_reducible apply Only.ite
    | with_reducible apply Only.dite
    | with_reducible apply Only.after (dioNotifyAll_only _ _)
    | with_reducible apply Only.after (dioDriveAll_only _)
    | with_reducible apply Only.after (State.setGrp_only _ _ _)
    | intro _
    | split
    | dsimp only

theorem execDioKeepaliveLost_only (g : Fin 2) (s : State) :
    ∃ t', execDioKeepaliveLost g s = .next t' ∧ Only [.evr, .dio, .dioBlk] s t' := by
  refine ⟨_, rfl, ?_⟩
  repeat' first
    | with_reducible exact Only.refl _ _
    | decide
    | with_reducible apply Only.ite
    | with_reducible apply Only.dite
    | with_reducible apply Only.after (dioNotifyAll_only _ _)
    | with_reducible apply Only.after (dioDriveAll_only _)
    | with_reducible apply Only.after (State.setGrp_only _ _ _)
    | intro _
    | split
    | dsimp only

theorem execDioOverload_only (c : Fin 16) (curr : Nat) (s : State) :
    ∃ t', execDioOverload c curr s = .next t' ∧ Only [.evr, .dio, .dioBlk] s t' := by
  refine ⟨_, rfl, ?_⟩
  repeat' first
    | with_reducible exact Only.refl _ _
    | decide
    | with_reducible apply Only.ite
    | with_reducible apply Only.dite
    | with_reducible apply Only.after (dioTrip_only _ _ _)
    | intro _
    | split
    | dsimp only

theorem execDioShortCircuit_only (c : Fin 16) (s : State) :
    ∃ t', execDioShortCircuit c s = .next t' ∧ Only [.evr, .dio, .dioBlk] s t' := by
  refine ⟨_, rfl, ?_⟩
  repeat' first
    | with_reducible exact Only.refl _ _
    | decide
    | with_reducible apply Only.ite
    | with_reducible apply Only.dite
    | with_reducible apply Only.after (dioTrip_only _ _ _)
    | intro _
    | split
    | dsimp only

theorem execDioOvertemp_only (c : Fin 16) (s : State) :
    ∃ t', execDioOvertemp c s = .next t' ∧ Only [.evr, .dio, .dioBlk] s t' := by
  refine ⟨_, rfl, ?_⟩
  repeat' first
    | with_reducible exact Only.refl _ _
    | decide
    | with_reducible apply Only.ite
    | with_reducible apply Only.dite
    | with_reducible apply Only.after (dioNotify_only _ _ _)
    | with_reducible apply Only.after (dioDrive_only _ _)
    | with_reducible apply Only.after (State.setDio_only _ _ _)
    | intro _
    | split
    | dsimp only

theorem execDioOvertempEnd_only (c : Fin 16) (s : State) :
    ∃ t', execDioOvertempEnd c s = .next t' ∧ Only [.evr, .dio, .dioBlk] s t' := by
  refine ⟨_, rfl, ?_⟩
  repeat' first
    | with_reducible exact Only.refl _ _
    | decide
    | with_reducible apply Only.ite
    | with_reducible apply Only.dite
    | with_reducible apply Only.after (dioNotify_only _ _ _)
    | with_reducible apply Only.after (dioDrive_only _ _)
    | with_reducible apply Only.after (State.setDio_only _ _ _)
    | intro _
    | split
    | dsimp only

theorem execDioOpenOn_only (c : Fin 16) (s : State) :
    ∃ t', execDioOpenOn c s = .next t' ∧ Only [.evr, .dio] s t' := by
  refine ⟨_, rfl, ?_⟩
  repeat' first
    | with_reducible exact Only.refl _ _
    | decide
    | with_reducible apply Only.ite
    | with_reducible apply Only.dite
    | with_reducible apply Only.after (dioSet_only _ _ _ _ _)
    | intro _
    | split
    | dsimp only

theorem execDioOpenOff_only (c : Fin 16) (v : Int) (pin : Bool) (s : State) :
    ∃ t', execDioOpenOff c v pin s = .next t' ∧ Only [.evr, .dio] s t' := by
  refine ⟨_, rfl, ?_⟩
  repeat' first
    | with_reducible exact Only.refl _ _
    | decide
    | with_reducible apply Only.ite
    | with_reducible apply Only.dite
    | with_reducible apply Only.after (dioSet_only _ _ _ _ _)
    | intro _
    | split
    | dsimp only

theorem execDioShortFsp_only (c : Fin 16) (v : Int) (pin : Bool) (s : State) :
    ∃ t', execDioShortFsp c v pin s = .next t' ∧ Only [.evr, .dio] s t' := by
  refine ⟨_, rfl, ?_⟩
  repeat' first
    | with_reducible exact Only.refl _ _
    | decide
    | with_reducible apply Only.ite
    | with_reducible apply Only.dite
    | with_reducible apply Only.after (dioSet_only _ _ _ _ _)
    | intro _
    | split
    | dsimp only

theorem execDioBackfeed_only (c : Fin 16) (v : Int) (pin : Bool) (s : State) :
    ∃ t', execDioBackfeed c v pin s = .next t' ∧ Only [.evr, .dio] s t' := by
  refine ⟨_, rfl, ?_⟩
  repeat' first
    | with_reducible exact Only.refl _ _
    | decide
    | with_reducible apply Only.ite
    | with_reducible apply Only.dite
    | with_reducible apply Only.after (dioSet_only _ _ _ _ _)
    | intro _
    | split
    | dsimp only

theorem execDioPartnerDrive_only (c : Fin 16) (v : Int) (pin : Bool) (s : State) :
    ∃ t', execDioPartnerDrive c v pin s = .next t' ∧ Only [.evr, .dio] s t' := by
  refine ⟨_, rfl, ?_⟩
  repeat' first
    | with_reducible exact Only.refl _ _
    | decide
    | with_reducible apply Only.ite
    | with_reducible apply Only.dite
    | with_reducible apply Only.after (dioSet_only _ _ _ _ _)
    | intro _
    | split
    | dsimp only

theorem execDioDiagClear_only (c : Fin 16) (bit' : Fin 19) (s : State) :
    ∃ t', execDioDiagClear c bit' s = .next t' ∧ Only [.evr, .dio] s t' := by
  refine ⟨_, rfl, ?_⟩
  repeat' first
    | with_reducible exact Only.refl _ _
    | decide
    | with_reducible apply Only.ite
    | with_reducible apply Only.dite
    | with_reducible apply Only.after (dioNotify_only _ _ _)
    | with_reducible apply Only.after (State.setDio_only _ _ _)
    | intro _
    | split
    | dsimp only

theorem execDioOvlRetry_only (c : Fin 16) (s : State) :
    ∃ t', execDioOvlRetry c s = .next t' ∧ Only [.evr, .dio, .dioBlk] s t' := by
  refine ⟨_, rfl, ?_⟩
  repeat' first
    | with_reducible exact Only.refl _ _
    | decide
    | with_reducible apply Only.ite
    | with_reducible apply Only.dite
    | with_reducible apply Only.after (dioNotify_only _ _ _)
    | with_reducible apply Only.after (dioRetry_only _ _)
    | intro _
    | split
    | dsimp only

theorem execDioRetryCmd_only (src : Source) (c : Fin 16) (s : State) :
    ∃ t', execDioRetryCmd src c s = .next t' ∧ Only [.sys, .evr, .dio, .dioBlk] s t' := by
  refine ⟨_, rfl, ?_⟩
  repeat' first
    | with_reducible exact Only.refl _ _
    | decide
    | with_reducible apply Only.ite
    | with_reducible apply Only.dite
    | with_reducible apply dioCmd_only
    | with_reducible apply Only.after (dioRetry_only _ _)
    | with_reducible apply Only.after (State.setDio_only _ _ _)
    | intro _
    | split
    | dsimp only

theorem execDioRetryCountReset_only (c : Fin 16) (s : State) :
    ∃ t', execDioRetryCountReset c s = .next t' ∧ Only [.dio] s t' := by
  refine ⟨_, rfl, ?_⟩
  repeat' first
    | with_reducible exact Only.refl _ _
    | decide
    | with_reducible apply Only.ite
    | with_reducible apply Only.dite
    | with_reducible apply Only.after (State.setDio_only _ _ _)
    | intro _
    | split
    | dsimp only

theorem execDioGroupWarn_only (g : Fin 2) (v : Half) (s : State) :
    ∃ t', execDioGroupWarn g v s = .next t' ∧ Only [.sup, .evr, .dio, .dioBlk] s t' := by
  refine ⟨_, rfl, ?_⟩
  repeat' first
    | with_reducible exact Only.refl _ _
    | decide
    | with_reducible apply Only.ite
    | with_reducible apply Only.dite
    | with_reducible apply Only.after (grpEnter_only _ _ _ _)
    | intro _
    | split
    | dsimp only

theorem execDioGroupLow_only (g : Fin 2) (v : Half) (s : State) :
    ∃ t', execDioGroupLow g v s = .next t' ∧ Only [.sup, .evr, .dio, .dioBlk] s t' := by
  refine ⟨_, rfl, ?_⟩
  repeat' first
    | with_reducible exact Only.refl _ _
    | decide
    | with_reducible apply Only.ite
    | with_reducible apply Only.dite
    | with_reducible apply Only.after (grpFall_only _ _ _ _)
    | intro _
    | split
    | dsimp only

theorem execDioGroupOvervolt_only (g : Fin 2) (v : Half) (s : State) :
    ∃ t', execDioGroupOvervolt g v s = .next t' ∧ Only [.sup, .evr, .dio, .dioBlk] s t' := by
  refine ⟨_, rfl, ?_⟩
  repeat' first
    | with_reducible exact Only.refl _ _
    | decide
    | with_reducible apply Only.ite
    | with_reducible apply Only.dite
    | with_reducible apply Only.after (grpFall_only _ _ _ _)
    | intro _
    | split
    | dsimp only

theorem execDioGroupLost_only (g : Fin 2) (v : Half) (s : State) :
    ∃ t', execDioGroupLost g v s = .next t' ∧ Only [.sup, .evr, .dio, .dioBlk] s t' := by
  refine ⟨_, rfl, ?_⟩
  repeat' first
    | with_reducible exact Only.refl _ _
    | decide
    | with_reducible apply Only.ite
    | with_reducible apply Only.dite
    | with_reducible apply Only.after (grpEnter_only _ _ _ _)
    | intro _
    | split
    | dsimp only

theorem execDioGroupNormal_only (g : Fin 2) (v : Half) (s : State) :
    ∃ t', execDioGroupNormal g v s = .next t' ∧ Only [.sup, .evr, .dio, .dioBlk] s t' := by
  refine ⟨_, rfl, ?_⟩
  repeat' first
    | with_reducible exact Only.refl _ _
    | decide
    | with_reducible apply Only.ite
    | with_reducible apply Only.dite
    | with_reducible apply Only.after (grpLeave_only _ _ _)
    | intro _
    | split
    | dsimp only

theorem execDioGroupShed_only (g : Fin 2) (mean : Half) (s : State) :
    ∃ t', execDioGroupShed g mean s = .next t' ∧ Only [.evr, .dio, .dioBlk] s t' := by
  refine ⟨_, rfl, ?_⟩
  repeat' first
    | with_reducible exact Only.refl _ _
    | decide
    | with_reducible apply Only.ite
    | with_reducible apply Only.dite
    | with_reducible apply Only.after (grpShed_only _ _ _)
    | intro _
    | split
    | dsimp only

theorem execDioShedRetry_only (c : Fin 16) (s : State) :
    ∃ t', execDioShedRetry c s = .next t' ∧ Only [.evr, .dio, .dioBlk] s t' := by
  refine ⟨_, rfl, ?_⟩
  repeat' first
    | with_reducible exact Only.refl _ _
    | decide
    | with_reducible apply Only.ite
    | with_reducible apply Only.dite
    | with_reducible apply Only.after (dioNotify_only _ _ _)
    | with_reducible apply Only.after (dioDrive_only _ _)
    | with_reducible apply Only.after (State.setDio_only _ _ _)
    | intro _
    | split
    | dsimp only

theorem execDioLampAverage_only (c : Fin 16) (curr v : Nat) (settled : Bool) (s : State) :
    ∃ t', execDioLampAverage c curr v settled s = .next t' ∧ Only [.evr, .dio] s t' := by
  refine ⟨_, rfl, ?_⟩
  repeat' first
    | with_reducible exact Only.refl _ _
    | decide
    | with_reducible apply Only.ite
    | with_reducible apply Only.dite
    | with_reducible apply Only.after (dioAverage_only _ _ _ _ _)
    | intro _
    | split
    | dsimp only

theorem execDioLampProbe_only (c : Fin 16) (curr : Nat) (s : State) :
    ∃ t', execDioLampProbe c curr s = .next t' ∧ Only [.evr, .dio] s t' := by
  refine ⟨_, rfl, ?_⟩
  repeat' first
    | with_reducible exact Only.refl _ _
    | decide
    | with_reducible apply Only.ite
    | with_reducible apply Only.dite
    | with_reducible apply Only.after (dioProbe_only _ _ _)
    | intro _
    | split
    | dsimp only

theorem execDioLearn_only (src : Source) (c : Fin 16) (s : State) :
    ∃ t', execDioLearn src c s = .next t' ∧ Only [.sys, .evr, .dio] s t' := by
  refine ⟨_, rfl, ?_⟩
  repeat' first
    | with_reducible exact Only.refl _ _
    | decide
    | with_reducible apply Only.ite
    | with_reducible apply Only.dite
    | with_reducible apply dioCmd_only
    | with_reducible apply Only.after (State.setDio_only _ _ _)
    | intro _
    | split
    | dsimp only

theorem execDioBlockStop_only (stop : BitVec 2) (s : State) :
    ∃ t', execDioBlockStop stop s = .next t' ∧ Only [.evr, .dio, .dioBlk] s t' := by
  refine ⟨_, rfl, ?_⟩
  repeat' first
    | with_reducible exact Only.refl _ _
    | decide
    | with_reducible apply Only.ite
    | with_reducible apply Only.dite
    | with_reducible apply Only.after (dioBlkWrite_only _ _)
    | intro _
    | split
    | dsimp only

end Sys2Proof.Machine
end

