-- ==== Sys2Proof/Laws/FrameTrim.lean ====
section
/-! SUPPORT. Trim: the parts of the state that each operation of Machine/Trim may change. -/
namespace Sys2Proof.Machine

open Sys2Proof

theorem aoTrimEnter_only (c : Fin 4) (span : Bool) (s : State) :
    Only [.evr, .ao] s (aoTrimEnter c span s) := by
  unfold aoTrimEnter
  repeat' first
    | with_reducible exact Only.refl _ _
    | decide
    | with_reducible apply Only.ite
    | with_reducible apply Only.dite
    | with_reducible apply Only.after (aoEvent_only _ _ _)
    | with_reducible apply Only.after (aoDrive_only _ _)
    | with_reducible apply Only.after (State.setAo_only _ _ _)
    | intro _
    | split
    | dsimp only

theorem aoTrimAdjust_only (c : Fin 4) (up : Bool) (s : State) :
    Only [.evr, .ao] s (aoTrimAdjust c up s) := by
  unfold aoTrimAdjust
  repeat' first
    | with_reducible exact Only.refl _ _
    | decide
    | with_reducible apply Only.ite
    | with_reducible apply Only.dite
    | with_reducible apply Only.after (State.setAo_only _ _ _)
    | with_reducible apply Only.after (aoDrive_only _ _)
    | intro _
    | split
    | dsimp only

theorem aoTrimStore_only (c : Fin 4) (s : State) :
    Only [.evr, .ao] s (aoTrimStore c s) := by
  unfold aoTrimStore
  repeat' first
    | with_reducible exact Only.refl _ _
    | decide
    | with_reducible apply Only.ite
    | with_reducible apply Only.dite
    | with_reducible apply Only.after (aoEvent_only _ _ _)
    | with_reducible apply Only.after (State.setAo_only _ _ _)
    | intro _
    | split
    | dsimp only

theorem aoTrimDiscard_only (c : Fin 4) (s : State) :
    Only [.evr, .ao] s (aoTrimDiscard c s) := by
  unfold aoTrimDiscard
  repeat' first
    | with_reducible exact Only.refl _ _
    | decide
    | with_reducible apply Only.ite
    | with_reducible apply Only.dite
    | with_reducible apply Only.after (aoTrimRestore_only _ _)
    | intro _
    | split
    | dsimp only

theorem aoTrimTimeout_only (c : Fin 4) (s : State) :
    Only [.evr, .ao] s (aoTrimTimeout c s) := by
  unfold aoTrimTimeout
  repeat' first
    | with_reducible exact Only.refl _ _
    | decide
    | with_reducible apply Only.ite
    | with_reducible apply Only.dite
    | with_reducible apply Only.after (aoTrimRestore_only _ _)
    | intro _
    | split
    | dsimp only

theorem execAoTrimEnter_only (c : Fin 4) (span : Bool) (s : State) :
    ∃ t', execAoTrimEnter c span s = .next t' ∧ Only [.evr, .ao] s t' := by
  refine ⟨_, rfl, ?_⟩
  repeat' first
    | with_reducible exact Only.refl _ _
    | decide
    | with_reducible apply Only.ite
    | with_reducible apply Only.dite
    | with_reducible apply Only.after (aoTrimEnter_only _ _ _)
    | intro _
    | split
    | dsimp only

theorem execAoTrimAdjust_only (c : Fin 4) (up : Bool) (s : State) :
    ∃ t', execAoTrimAdjust c up s = .next t' ∧ Only [.evr, .ao] s t' := by
  refine ⟨_, rfl, ?_⟩
  repeat' first
    | with_reducible exact Only.refl _ _
    | decide
    | with_reducible apply Only.ite
    | with_reducible apply Only.dite
    | with_reducible apply Only.after (aoTrimAdjust_only _ _ _)
    | intro _
    | split
    | dsimp only

theorem execAoTrimDiscard_only (c : Fin 4) (s : State) :
    ∃ t', execAoTrimDiscard c s = .next t' ∧ Only [.evr, .ao] s t' := by
  refine ⟨_, rfl, ?_⟩
  repeat' first
    | with_reducible exact Only.refl _ _
    | decide
    | with_reducible apply Only.ite
    | with_reducible apply Only.dite
    | with_reducible apply Only.after (aoTrimDiscard_only _ _)
    | intro _
    | split
    | dsimp only

theorem execAoTrimTimeout_only (c : Fin 4) (s : State) :
    ∃ t', execAoTrimTimeout c s = .next t' ∧ Only [.evr, .ao] s t' := by
  refine ⟨_, rfl, ?_⟩
  repeat' first
    | with_reducible exact Only.refl _ _
    | decide
    | with_reducible apply Only.ite
    | with_reducible apply Only.dite
    | with_reducible apply Only.after (aoTrimTimeout_only _ _)
    | intro _
    | split
    | dsimp only

end Sys2Proof.Machine
end

