-- ==== Sys2Proof/Laws/FrameCells.lean ====
section
/-! SUPPORT. Cells: the parts of the state that each operation of Machine/Cells may change. -/
namespace Sys2Proof.Machine

open Sys2Proof

theorem cellNotify_only (s0 s1 : State) :
    Only [.evr] s1 (cellNotify s0 s1) := by
  unfold cellNotify
  repeat' first
    | with_reducible exact Only.refl _ _
    | decide
    | with_reducible apply Only.ite
    | with_reducible apply Only.dite
    | with_reducible apply Only.foldl
    | with_reducible apply Only.after (uiNotify_only _ _ _)
    | with_reducible apply Only.after (dioNotifyAll_only _ _)
    | with_reducible apply Only.after (aoNotifyAll_only _ _)
    | with_reducible apply Only.after (psNotify_only _ _ _)
    | intro _
    | split
    | dsimp only

theorem noted_only {l : List Part} {s : State} (f : State → State) (t : State) (h : ∀ u, Only l u (f u))
    (k : Part.sub [.evr] l = true) (g : Only l s t) : Only l s (noted f t) :=
  Only.after (cellNotify_only _ _) k (Only.after (h _) (Part.sub_refl _) g)

theorem setOut_only (b : Bool) (s : State) :
    Only [.sys] s (setOut b s) := by
  unfold setOut
  repeat' first
    | with_reducible exact Only.refl _ _
    | decide
    | with_reducible apply Only.ite
    | with_reducible apply Only.dite
    | with_reducible apply Only.set_sys
    | intro _
    | split
    | dsimp only

theorem clearHand_only (s : State) :
    Only [.ao, .dio, .dioBlk] s (clearHand s) := by
  unfold clearHand
  repeat' first
    | with_reducible exact Only.refl _ _
    | decide
    | with_reducible apply Only.ite
    | with_reducible apply Only.dite
    | with_reducible apply Only.set_ao_dio_dioBlk
    | intro _
    | split
    | dsimp only

theorem letGo_only (s : State) :
    Only [.sys, .ui, .ao, .dio, .dioBlk] s (letGo s) := by
  unfold letGo
  repeat' first
    | with_reducible exact Only.refl _ _
    | decide
    | with_reducible apply Only.ite
    | with_reducible apply Only.dite
    | with_reducible apply Only.after (uiListenEntry_only _)
    | with_reducible apply Only.after (dioReleaseAll_only _)
    | with_reducible apply Only.after (setOut_only _ _)
    | with_reducible apply Only.after (clearHand_only _)
    | with_reducible apply Only.after (aoLetGo_only _)
    | intro _
    | split
    | dsimp only

theorem releaseControl_only (s : State) :
    Only [.sys, .evr, .ui, .ao, .dio, .dioBlk] s (releaseControl s) := by
  unfold releaseControl
  repeat' first
    | with_reducible exact Only.refl _ _
    | decide
    | with_reducible apply Only.ite
    | with_reducible apply Only.dite
    | with_reducible apply noted_only
    | with_reducible apply Only.after (letGo_only _)
    | with_reducible apply Only.after (aoEndSpell_only _)
    | intro _
    | split
    | dsimp only

theorem uiTakeControl_only (s : State) :
    Only [.evr, .ui] s (uiTakeControl s) := by
  unfold uiTakeControl
  repeat' first
    | with_reducible exact Only.refl _ _
    | decide
    | with_reducible apply Only.ite
    | with_reducible apply Only.dite
    | with_reducible apply noted_only
    | with_reducible apply Only.after (uiTakeOver_only _)
    | intro _
    | split
    | dsimp only

theorem allOff_only (s : State) :
    Only [.sys, .ui, .ao, .dio, .dioBlk] s (allOff s) := by
  unfold allOff
  repeat' first
    | with_reducible exact Only.refl _ _
    | decide
    | with_reducible apply Only.ite
    | with_reducible apply Only.dite
    | with_reducible apply Only.after (uiQuiet_only _)
    | with_reducible apply Only.after (aoOpenAll_only _)
    | with_reducible apply Only.after (dioReleaseAll_only _)
    | with_reducible apply Only.after (setOut_only _ _)
    | with_reducible apply Only.after (clearHand_only _)
    | intro _
    | split
    | dsimp only

end Sys2Proof.Machine
end

