-- ==== Sys2Proof/Laws/FramePev.lean ====
section
/-! SUPPORT. Pev: the parts of the state that each operation of Machine/Pev may change. -/
namespace Sys2Proof.Machine

open Sys2Proof

theorem State.setPt_only (s : State) (n : Fin 80) (f : Pnt → Pnt) :
    Only [.pev] s (State.setPt s n f) := by
  unfold State.setPt
  repeat' first
    | with_reducible exact Only.refl _ _
    | decide
    | with_reducible apply Only.ite
    | with_reducible apply Only.dite
    | with_reducible apply Only.set_pev
    | intro _
    | split
    | dsimp only

theorem physPoint_only (s : State) (n : Fin 80) :
    Only [.pev] s (physPoint s n) := by
  unfold physPoint
  repeat' first
    | with_reducible exact Only.refl _ _
    | decide
    | with_reducible apply Only.ite
    | with_reducible apply Only.dite
    | with_reducible apply Only.after (State.setPt_only _ _ _)
    | intro _
    | split
    | dsimp only

theorem virtPoint_only (s : State) (n : Fin 80) :
    Only [.pev] s (virtPoint s n) := by
  unfold virtPoint
  repeat' first
    | with_reducible exact Only.refl _ _
    | decide
    | with_reducible apply Only.ite
    | with_reducible apply Only.dite
    | with_reducible apply Only.foldl
    | with_reducible apply Only.after (State.setPt_only _ _ _)
    | intro _
    | split
    | dsimp only

theorem devSet_only (was : Vector Pnt 80) (s : State) (k : Nat) :
    Only [.pev] s (devSet was s k) := by
  unfold devSet
  repeat' first
    | with_reducible exact Only.refl _ _
    | decide
    | with_reducible apply Only.ite
    | with_reducible apply Only.dite
    | with_reducible apply Only.foldl
    | with_reducible apply Only.after (State.setPt_only _ _ _)
    | intro _
    | split
    | dsimp only

theorem pevPhases_only (s : State) :
    Only [.pev] s (pevPhases s) := by
  unfold pevPhases
  repeat' first
    | with_reducible exact Only.refl _ _
    | decide
    | with_reducible apply Only.ite
    | with_reducible apply Only.dite
    | with_reducible apply Only.foldl
    | with_reducible apply Only.after (physPoint_only _ _)
    | with_reducible apply Only.after (virtPoint_only _ _)
    | with_reducible apply Only.after (devSet_only _ _ _)
    | with_reducible apply Only.set_pev
    | intro _
    | split
    | dsimp only

end Sys2Proof.Machine
end

