-- ==== Sys2Proof/Laws/FramePoints.lean ====
section
/-! SUPPORT. Points: the parts of the state that each operation of Machine/Points may change. -/
namespace Sys2Proof.Machine

open Sys2Proof

theorem tablePost_only (s : State) :
    Only [.pev] s (tablePost s) := by
  unfold tablePost
  repeat' first
    | with_reducible exact Only.refl _ _
    | decide
    | with_reducible apply Only.ite
    | with_reducible apply Only.dite
    | with_reducible apply Only.set_pev
    | intro _
    | split
    | dsimp only

end Sys2Proof.Machine
end

