-- ==== Sys2Proof/Laws/FrameCan.lean ====
section
/-! SUPPORT. Can: the parts of the state that each operation of Machine/Can may change. -/
namespace Sys2Proof.Machine

open Sys2Proof

theorem State.setCan_only (s : State) (k : Fin 4) (f : Can → Can) :
    Only [.can] s (State.setCan s k f) := by
  unfold State.setCan
  repeat' first
    | with_reducible exact Only.refl _ _
    | decide
    | with_reducible apply Only.ite
    | with_reducible apply Only.dite
    | with_reducible apply Only.set_can
    | intro _
    | split
    | dsimp only

theorem canEvent_only (k : Fin 4) (kind buf : Nat) (s : State) :
    Only [.evr] s (canEvent k kind buf s) := by
  unfold canEvent
  repeat' first
    | with_reducible exact Only.refl _ _
    | decide
    | with_reducible apply Only.ite
    | with_reducible apply Only.dite
    | with_reducible apply Only.after (raise_only _ _ _)
    | intro _
    | split
    | dsimp only

theorem canState_only (k : Fin 4) (s : State) :
    Only [.evr, .can] s (canState k s) := by
  unfold canState
  repeat' first
    | with_reducible exact Only.refl _ _
    | decide
    | with_reducible apply Only.ite
    | with_reducible apply Only.dite
    | with_reducible apply Only.after (canEvent_only _ _ _ _)
    | with_reducible apply Only.after (State.setCan_only _ _ _)
    | intro _
    | split
    | dsimp only

theorem canComplete_only (k : Fin 4) (b : Nat) (result : Nat) (s : State) :
    Only [.evr, .can] s (canComplete k b result s) := by
  unfold canComplete
  repeat' first
    | with_reducible exact Only.refl _ _
    | decide
    | with_reducible apply Only.ite
    | with_reducible apply Only.dite
    | with_reducible apply Only.after (State.setCan_only _ _ _)
    | with_reducible apply Only.after (canEvent_only _ _ _ _)
    | intro _
    | split
    | dsimp only

theorem canRequest_only (k : Fin 4) (s : State) (b : Fin 32) :
    Only [.evr, .can] s (canRequest k s b) := by
  unfold canRequest
  repeat' first
    | with_reducible exact Only.refl _ _
    | decide
    | with_reducible apply Only.ite
    | with_reducible apply Only.dite
    | with_reducible apply Only.after (State.setCan_only _ _ _)
    | with_reducible apply Only.after (canComplete_only _ _ _ _)
    | intro _
    | split
    | dsimp only

theorem canLogMask_only (src : Source) (k : Fin 4) (off : Nat) (mask : BitVec 32) (s : State) :
    Only [.sys] s (canLogMask src k off mask s) := by
  unfold canLogMask
  repeat' first
    | with_reducible exact Only.refl _ _
    | decide
    | with_reducible apply Only.ite
    | with_reducible apply Only.dite
    | with_reducible apply Only.after (logWerr_only _ _ _ _)
    | intro _
    | split
    | dsimp only

theorem canTxReq_only (src : Source) (k : Fin 4) (mask : BitVec 32) (s : State) :
    Only [.sys, .evr, .can] s (canTxReq src k mask s) := by
  unfold canTxReq
  repeat' first
    | with_reducible exact Only.refl _ _
    | decide
    | with_reducible apply Only.ite
    | with_reducible apply Only.dite
    | with_reducible apply Only.foldl
    | with_reducible apply Only.after (canRequest_only _ _ _)
    | with_reducible apply Only.after (canLogMask_only _ _ _ _ _)
    | intro _
    | split
    | dsimp only

theorem canAbort_only (k : Fin 4) (onBus : Option (Fin 32)) (s : State) (b : Fin 32) :
    Only [.evr, .can] s (canAbort k onBus s b) := by
  unfold canAbort
  repeat' first
    | with_reducible exact Only.refl _ _
    | decide
    | with_reducible apply Only.ite
    | with_reducible apply Only.dite
    | with_reducible apply Only.after (State.setCan_only _ _ _)
    | with_reducible apply Only.after (canComplete_only _ _ _ _)
    | intro _
    | split
    | dsimp only

theorem canTxAbort_only (src : Source) (k : Fin 4) (mask : BitVec 32) (onBus : Option (Fin 32)) (s : State) :
    Only [.sys, .evr, .can] s (canTxAbort src k mask onBus s) := by
  unfold canTxAbort
  repeat' first
    | with_reducible exact Only.refl _ _
    | decide
    | with_reducible apply Only.ite
    | with_reducible apply Only.dite
    | with_reducible apply Only.foldl
    | with_reducible apply Only.after (canAbort_only _ _ _ _)
    | with_reducible apply Only.after (canLogMask_only _ _ _ _ _)
    | intro _
    | split
    | dsimp only

theorem canAbortAll_only (k : Fin 4) (onBus : Option (Fin 32)) (pick : Nat → Bool) (s : State) :
    Only [.evr, .can] s (canAbortAll k onBus pick s) := by
  unfold canAbortAll
  repeat' first
    | with_reducible exact Only.refl _ _
    | decide
    | with_reducible apply Only.ite
    | with_reducible apply Only.dite
    | with_reducible apply Only.foldl
    | with_reducible apply Only.after (canAbort_only _ _ _ _)
    | intro _
    | split
    | dsimp only

theorem canAloneEnd_only (k : Fin 4) (s : State) :
    Only [.evr, .can] s (canAloneEnd k s) := by
  unfold canAloneEnd
  repeat' first
    | with_reducible exact Only.refl _ _
    | decide
    | with_reducible apply Only.ite
    | with_reducible apply Only.dite
    | with_reducible apply Only.after (State.setCan_only _ _ _)
    | with_reducible apply Only.after (canEvent_only _ _ _ _)
    | intro _
    | split
    | dsimp only

theorem canAlone_only (k : Fin 4) (s : State) :
    Only [.evr, .can] s (canAlone k s) := by
  unfold canAlone
  repeat' first
    | with_reducible exact Only.refl _ _
    | decide
    | with_reducible apply Only.ite
    | with_reducible apply Only.dite
    | with_reducible apply Only.after (canAbortAll_only _ _ _ _)
    | with_reducible apply Only.after (canEvent_only _ _ _ _)
    | with_reducible apply Only.after (State.setCan_only _ _ _)
    | intro _
    | split
    | dsimp only

theorem canEnterMode_only (k : Fin 4) (m : Nat) (s : State) :
    Only [.evr, .can] s (canEnterMode k m s) := by
  unfold canEnterMode
  repeat' first
    | with_reducible exact Only.refl _ _
    | decide
    | with_reducible apply Only.ite
    | with_reducible apply Only.dite
    | with_reducible apply Only.after (State.setCan_only _ _ _)
    | with_reducible apply Only.after (canAbortAll_only _ _ _ _)
    | intro _
    | split
    | dsimp only

theorem canStandby_only (k : Fin 4) (s : State) :
    Only [.sys] s (canStandby k s) := by
  unfold canStandby
  repeat' first
    | with_reducible exact Only.refl _ _
    | decide
    | with_reducible apply Only.ite
    | with_reducible apply Only.dite
    | with_reducible apply Only.set_sys
    | intro _
    | split
    | dsimp only

theorem canSetMode_only (k : Fin 4) (m : Nat) (s : State) :
    Only [.sys, .evr, .can] s (canSetMode k m s) := by
  unfold canSetMode
  repeat' first
    | with_reducible exact Only.refl _ _
    | decide
    | with_reducible apply Only.ite
    | with_reducible apply Only.dite
    | with_reducible apply Only.after (canStandby_only _ _)
    | with_reducible apply Only.after (canEnterMode_only _ _ _)
    | intro _
    | split
    | dsimp only

theorem canModeWrite_only (src : Source) (k : Fin 4) (m : BitVec 3) (s : State) :
    Only [.sys, .can] s (canModeWrite src k m s).2 := by
  unfold canModeWrite
  repeat' first
    | with_reducible exact Only.refl _ _
    | decide
    | with_reducible apply Only.ite
    | with_reducible apply Only.dite
    | with_reducible apply Only.iteSnd
    | with_reducible apply Only.after (logWerr_only _ _ _ _)
    | with_reducible apply Only.after (State.setCan_only _ _ _)
    | intro _
    | split
    | dsimp only

theorem canSubmit_only (k : Fin 4) (f : OutFrame) (s : State) :
    Only [.evr, .can] s (canSubmit k f s) := by
  unfold canSubmit
  repeat' first
    | with_reducible exact Only.refl _ _
    | decide
    | with_reducible apply Only.ite
    | with_reducible apply Only.dite
    | with_reducible apply Only.after (canRequest_only _ _ _)
    | with_reducible apply Only.after (State.setCan_only _ _ _)
    | intro _
    | split
    | dsimp only

theorem canStore_only (k : Fin 4) (own : Bool) (f : CanFrame) (age : Nat) (s : State) :
    Only [.evr, .can] s (canStore k own f age s) := by
  unfold canStore
  repeat' first
    | with_reducible exact Only.refl _ _
    | decide
    | with_reducible apply Only.ite
    | with_reducible apply Only.dite
    | with_reducible apply Only.after (State.setCan_only _ _ _)
    | with_reducible apply Only.after (canEvent_only _ _ _ _)
    | intro _
    | split
    | dsimp only

theorem canFail_only (k : Fin 4) (b : Fin 32) (won counted : Bool) (s : State) :
    Only [.evr, .can] s (canFail k b won counted s) := by
  unfold canFail
  repeat' first
    | with_reducible exact Only.refl _ _
    | decide
    | with_reducible apply Only.ite
    | with_reducible apply Only.dite
    | with_reducible apply Only.after (State.setCan_only _ _ _)
    | with_reducible apply Only.after (canComplete_only _ _ _ _)
    | intro _
    | split
    | dsimp only

theorem canSent_only (k : Fin 4) (b : Fin 32) (age : Nat) (s : State) :
    Only [.evr, .can] s (canSent k b age s) := by
  unfold canSent
  repeat' first
    | with_reducible exact Only.refl _ _
    | decide
    | with_reducible apply Only.ite
    | with_reducible apply Only.dite
    | with_reducible apply Only.after (State.setCan_only _ _ _)
    | with_reducible apply Only.after (canStore_only _ _ _ _ _)
    | with_reducible apply Only.after (canState_only _ _)
    | with_reducible apply Only.after (canAloneEnd_only _ _)
    | with_reducible apply Only.after (canComplete_only _ _ _ _)
    | intro _
    | split
    | dsimp only

theorem canTdcv_only (k : Fin 4) (v : Option (BitVec 8)) (s : State) :
    Only [.evr, .can] s (canTdcv k v s) := by
  unfold canTdcv
  repeat' first
    | with_reducible exact Only.refl _ _
    | decide
    | with_reducible apply Only.ite
    | with_reducible apply Only.dite
    | with_reducible apply Only.after (State.setCan_only _ _ _)
    | with_reducible apply Only.after (canEvent_only _ _ _ _)
    | intro _
    | split
    | dsimp only

theorem canAttempt_only (k : Fin 4) (b : Fin 32) (e : TxEnd) (tdcv : Option (BitVec 8)) (age : Nat) (s : State) :
    Only [.evr, .can] s (canAttempt k b e tdcv age s) := by
  unfold canAttempt
  repeat' first
    | with_reducible exact Only.refl _ _
    | decide
    | with_reducible apply Only.ite
    | with_reducible apply Only.dite
    | with_reducible apply Only.after (canComplete_only _ _ _ _)
    | with_reducible apply Only.after (canFail_only _ _ _ _ _)
    | with_reducible apply Only.after (canTdcv_only _ _ _)
    | with_reducible apply Only.after (canSent_only _ _ _ _)
    | with_reducible apply Only.after (State.setCan_only _ _ _)
    | with_reducible apply Only.after (canAlone_only _ _)
    | intro _
    | split
    | dsimp only

theorem canBusOff_only (k : Fin 4) (s : State) :
    Only [.evr, .can] s (canBusOff k s) := by
  unfold canBusOff
  repeat' first
    | with_reducible exact Only.refl _ _
    | decide
    | with_reducible apply Only.ite
    | with_reducible apply Only.dite
    | with_reducible apply Only.after (canEvent_only _ _ _ _)
    | with_reducible apply Only.after (State.setCan_only _ _ _)
    | intro _
    | split
    | dsimp only

theorem canCount_only (k : Fin 4) (type : BitVec 4) (tx heavy : Bool) (s : State) :
    Only [.evr, .can] s (canCount k type tx heavy s) := by
  unfold canCount
  repeat' first
    | with_reducible exact Only.refl _ _
    | decide
    | with_reducible apply Only.ite
    | with_reducible apply Only.dite
    | with_reducible apply Only.after (State.setCan_only _ _ _)
    | with_reducible apply Only.after (canBusOff_only _ _)
    | with_reducible apply Only.after (canState_only _ _)
    | intro _
    | split
    | dsimp only

theorem canRecDown_only (k : Fin 4) (s : State) :
    Only [.drawn, .evr, .can] s (canRecDown k s) := by
  unfold canRecDown
  repeat' first
    | with_reducible exact Only.refl _ _
    | decide
    | with_reducible apply Only.ite
    | with_reducible apply Only.dite
    | with_reducible apply Only.after (canState_only _ _)
    | with_reducible apply Only.after (State.setCan_only _ _ _)
    | with_reducible apply Only.after (State.drew_only _)
    | intro _
    | split
    | dsimp only

theorem canReset_only (k : Fin 4) (s : State) :
    Only [.sys, .can] s (canReset k s) := by
  unfold canReset
  repeat' first
    | with_reducible exact Only.refl _ _
    | decide
    | with_reducible apply Only.ite
    | with_reducible apply Only.dite
    | with_reducible apply Only.after (canStandby_only _ _)
    | with_reducible apply Only.after (State.setCan_only _ _ _)
    | intro _
    | split
    | dsimp only

theorem canCtlWrite_only (src : Source) (k : Fin 4) (v : Word) (s : State) :
    Only [.sys, .can] s (canCtlWrite src k v s).2 := by
  unfold canCtlWrite
  repeat' first
    | with_reducible exact Only.refl _ _
    | decide
    | with_reducible apply Only.ite
    | with_reducible apply Only.dite
    | with_reducible apply Only.iteSnd
    | with_reducible apply Only.after (logWerr_only _ _ _ _)
    | with_reducible apply Only.after (State.setCan_only _ _ _)
    | intro _
    | split
    | dsimp only

theorem canTimeWrite_only (src : Source) (k : Fin 4) (off : Nat) (v : Word) (s : State) :
    Only [.sys, .can] s (canTimeWrite src k off v s).2 := by
  unfold canTimeWrite
  repeat' first
    | with_reducible exact Only.refl _ _
    | decide
    | with_reducible apply Only.ite
    | with_reducible apply Only.dite
    | with_reducible apply Only.iteSnd
    | with_reducible apply Only.after (logWerr_only _ _ _ _)
    | with_reducible apply Only.after (State.setCan_only _ _ _)
    | intro _
    | split
    | dsimp only

theorem canRamWrite_only (src : Source) (k : Fin 4) (off : Nat) (v : Word) (s : State) :
    Only [.sys, .can] s (canRamWrite src k off v s).2 := by
  unfold canRamWrite
  repeat' first
    | with_reducible exact Only.refl _ _
    | decide
    | with_reducible apply Only.ite
    | with_reducible apply Only.dite
    | with_reducible apply Only.iteSnd
    | with_reducible apply Only.after (logWerr_only _ _ _ _)
    | with_reducible apply Only.after (State.setCan_only _ _ _)
    | intro _
    | split
    | dsimp only

theorem execCanTxRequest_only (src : Source) (k : Fin 4) (mask : BitVec 32) (s : State) :
    ∃ t', execCanTxRequest src k mask s = .next t' ∧ Only [.sys, .evr, .can] s t' := by
  refine ⟨_, rfl, ?_⟩
  repeat' first
    | with_reducible exact Only.refl _ _
    | decide
    | with_reducible apply Only.ite
    | with_reducible apply Only.dite
    | with_reducible apply Only.after (canTxReq_only _ _ _ _)
    | intro _
    | split
    | dsimp only

theorem execCanTxAbort_only (src : Source) (k : Fin 4) (mask : BitVec 32) (onBus : Option (Fin 32)) (s : State) :
    ∃ t', execCanTxAbort src k mask onBus s = .next t' ∧ Only [.sys, .evr, .can] s t' := by
  refine ⟨_, rfl, ?_⟩
  repeat' first
    | with_reducible exact Only.refl _ _
    | decide
    | with_reducible apply Only.ite
    | with_reducible apply Only.dite
    | with_reducible apply Only.after (canTxAbort_only _ _ _ _ _)
    | intro _
    | split
    | dsimp only

theorem execCanBusoffRecovered_only (k : Fin 4) (s : State) :
    ∃ t', execCanBusoffRecovered k s = .next t' ∧ Only [.evr, .can] s t' := by
  refine ⟨_, rfl, ?_⟩
  repeat' first
    | with_reducible exact Only.refl _ _
    | decide
    | with_reducible apply Only.ite
    | with_reducible apply Only.dite
    | with_reducible apply Only.after (canEvent_only _ _ _ _)
    | with_reducible apply Only.after (State.setCan_only _ _ _)
    | intro _
    | split
    | dsimp only

theorem execCanModeWrite_only (src : Source) (k : Fin 4) (mode : BitVec 3) (s : State) :
    ∃ t', execCanModeWrite src k mode s = .next t' ∧ Only [.sys, .can] s t' := by
  refine ⟨_, rfl, ?_⟩
  repeat' first
    | with_reducible exact Only.refl _ _
    | decide
    | with_reducible apply Only.ite
    | with_reducible apply Only.dite
    | with_reducible apply Only.after (canModeWrite_only _ _ _ _)
    | intro _
    | split
    | dsimp only

theorem execCanModeChange_only (k : Fin 4) (s : State) :
    ∃ t', execCanModeChange k s = .next t' ∧ Only [.sys, .evr, .can] s t' := by
  refine ⟨_, rfl, ?_⟩
  repeat' first
    | with_reducible exact Only.refl _ _
    | decide
    | with_reducible apply Only.ite
    | with_reducible apply Only.dite
    | with_reducible apply Only.after (canSetMode_only _ _ _)
    | intro _
    | split
    | dsimp only

theorem execCanIntegrated_only (k : Fin 4) (s : State) :
    ∃ t', execCanIntegrated k s = .next t' ∧ Only [.evr, .can] s t' := by
  refine ⟨_, rfl, ?_⟩
  repeat' first
    | with_reducible exact Only.refl _ _
    | decide
    | with_reducible apply Only.ite
    | with_reducible apply Only.dite
    | with_reducible apply Only.after (canState_only _ _)
    | with_reducible apply Only.after (State.setCan_only _ _ _)
    | intro _
    | split
    | dsimp only

end Sys2Proof.Machine
end

