-- ==== Sys2Proof/Laws/FrameImzOut.lean ====
section
/-! SUPPORT. ImzOut: the parts of the state that each operation of Machine/ImzOut may change. -/
namespace Sys2Proof.Machine

open Sys2Proof

theorem State.setImz_only (s : State) (f : Imz → Imz) :
    Only [.imz] s (State.setImz s f) := by
  unfold State.setImz
  repeat' first
    | with_reducible exact Only.refl _ _
    | decide
    | with_reducible apply Only.ite
    | with_reducible apply Only.dite
    | with_reducible apply Only.set_imz
    | intro _
    | split
    | dsimp only

theorem State.setAnn_only (s : State) (f : Ann → Ann) :
    Only [.ann] s (State.setAnn s f) := by
  unfold State.setAnn
  repeat' first
    | with_reducible exact Only.refl _ _
    | decide
    | with_reducible apply Only.ite
    | with_reducible apply Only.dite
    | with_reducible apply Only.set_ann
    | intro _
    | split
    | dsimp only

theorem imzUp_only (f : OutFrame) (s : State) :
    Only [.evr, .can] s (imzUp f s) := by
  unfold imzUp
  repeat' first
    | with_reducible exact Only.refl _ _
    | decide
    | with_reducible apply Only.ite
    | with_reducible apply Only.dite
    | with_reducible apply Only.after (canSubmit_only _ _ _)
    | intro _
    | split
    | dsimp only

theorem imzDown_only (f : OutFrame) (s : State) :
    Only [.evr, .can] s (imzDown f s) := by
  unfold imzDown
  repeat' first
    | with_reducible exact Only.refl _ _
    | decide
    | with_reducible apply Only.ite
    | with_reducible apply Only.dite
    | with_reducible apply Only.after (canSubmit_only _ _ _)
    | intro _
    | split
    | dsimp only

theorem imzSendUp_only (cls typ dir : Nat) (data : List Byte) (s : State) :
    Only [.evr, .can] s (imzSendUp cls typ dir data s) := by
  unfold imzSendUp
  repeat' first
    | with_reducible exact Only.refl _ _
    | decide
    | with_reducible apply Only.ite
    | with_reducible apply Only.dite
    | with_reducible apply Only.after (imzUp_only _ _)
    | intro _
    | split
    | dsimp only

theorem imzSendDown_only (cls typ dir : Nat) (data : List Byte) (s : State) :
    Only [.evr, .can] s (imzSendDown cls typ dir data s) := by
  unfold imzSendDown
  repeat' first
    | with_reducible exact Only.refl _ _
    | decide
    | with_reducible apply Only.ite
    | with_reducible apply Only.dite
    | with_reducible apply Only.after (imzDown_only _ _)
    | intro _
    | split
    | dsimp only

theorem imzEvent_only (kind : Nat) (node : Half) (s : State) :
    Only [.evr] s (imzEvent kind node s) := by
  unfold imzEvent
  repeat' first
    | with_reducible exact Only.refl _ _
    | decide
    | with_reducible apply Only.ite
    | with_reducible apply Only.dite
    | with_reducible apply Only.after (raise_only _ _ _)
    | intro _
    | split
    | dsimp only

theorem timEvent_only (kind : Nat) (extra : Int) (s : State) :
    Only [.evr] s (timEvent kind extra s) := by
  unfold timEvent
  repeat' first
    | with_reducible exact Only.refl _ _
    | decide
    | with_reducible apply Only.ite
    | with_reducible apply Only.dite
    | with_reducible apply Only.after (raise_only _ _ _)
    | intro _
    | split
    | dsimp only

theorem imzReport_only (requested : Bool) (requester : Half) (s : State) :
    Only [.evr, .can, .imz] s (imzReport requested requester s) := by
  unfold imzReport
  repeat' first
    | with_reducible exact Only.refl _ _
    | decide
    | with_reducible apply Only.ite
    | with_reducible apply Only.dite
    | with_reducible apply Only.foldl
    | with_reducible apply Only.after (State.setImz_only _ _)
    | with_reducible apply Only.after (imzSendUp_only _ _ _ _ _)
    | intro _
    | split
    | dsimp only

theorem imzLaunch_only (f : AlmFrame) (s : State) :
    Only [.evr, .can, .imz] s (imzLaunch f s) := by
  unfold imzLaunch
  repeat' first
    | with_reducible exact Only.refl _ _
    | decide
    | with_reducible apply Only.ite
    | with_reducible apply Only.dite
    | with_reducible apply Only.after (imzReport_only _ _ _)
    | with_reducible apply Only.after (imzUp_only _ _)
    | with_reducible apply Only.after (State.setImz_only _ _)
    | intro _
    | split
    | dsimp only

theorem drainList_only (q kept : List AlmFrame) (s : State) :
    Only [.evr, .can, .imz] s (drainList q kept s) := by
  induction q generalizing kept s with
  | nil => exact Only.mono (State.setImz_only _ _) (by decide)
  | cons f rest ih =>
    unfold drainList
    repeat' first
      | decide
      | with_reducible exact Only.refl _ _
      | with_reducible apply Only.ite
      | with_reducible apply Only.after (ih _ _)
      | with_reducible apply Only.after (imzLaunch_only _ _)
      | with_reducible apply Only.after (State.setImz_only _ _)

theorem imzDrain_only (s : State) :
    Only [.evr, .can, .imz] s (imzDrain s) := by
  unfold imzDrain
  repeat' first
    | with_reducible exact Only.refl _ _
    | decide
    | with_reducible apply Only.ite
    | with_reducible apply Only.dite
    | with_reducible apply Only.after (drainList_only _ _ _)
    | intro _
    | split
    | dsimp only

theorem imzEnqueue_only (f : AlmFrame) (s : State) :
    Only [.evr, .can, .imz] s (imzEnqueue f s) := by
  unfold imzEnqueue
  repeat' first
    | with_reducible exact Only.refl _ _
    | decide
    | with_reducible apply Only.ite
    | with_reducible apply Only.dite
    | with_reducible apply Only.after (imzDrain_only _)
    | with_reducible apply Only.after (State.setImz_only _ _)
    | intro _
    | split
    | dsimp only

theorem imzLoss_only (n : Fin 80) (s : State) :
    Only [.pev, .ann] s (imzLoss n s) := by
  unfold imzLoss
  repeat' first
    | with_reducible exact Only.refl _ _
    | decide
    | with_reducible apply Only.ite
    | with_reducible apply Only.dite
    | with_reducible apply Only.after (State.setPt_only _ _ _)
    | with_reducible apply Only.after (State.setAnn_only _ _)
    | intro _
    | split
    | dsimp only

theorem imzEntry_only (n : Fin 80) (e : TrEntry) (s : State) :
    Only [.evr, .can, .pev, .ann, .imz] s (imzEntry n e s) := by
  unfold imzEntry
  repeat' first
    | with_reducible exact Only.refl _ _
    | decide
    | with_reducible apply Only.ite
    | with_reducible apply Only.dite
    | with_reducible apply Only.after (imzEnqueue_only _ _)
    | with_reducible apply Only.after (imzLoss_only _ _)
    | intro _
    | split
    | dsimp only

theorem imzPending_only (addr cause cat : Nat) (onset expiry : Ts) (s : State) :
    Only [.evr, .can, .imz] s (imzPending addr cause cat onset expiry s) := by
  unfold imzPending
  repeat' first
    | with_reducible exact Only.refl _ _
    | decide
    | with_reducible apply Only.ite
    | with_reducible apply Only.dite
    | with_reducible apply Only.after (imzEnqueue_only _ _)
    | with_reducible apply Only.after (State.setImz_only _ _)
    | intro _
    | split
    | dsimp only

theorem imzWithdraw_only (addr : Nat) (onset : Ts) (onBus : Option (Fin 32)) (s : State) (k : Fin 4) :
    Only [.evr, .can] s (imzWithdraw addr onset onBus s k) := by
  unfold imzWithdraw
  repeat' first
    | with_reducible exact Only.refl _ _
    | decide
    | with_reducible apply Only.ite
    | with_reducible apply Only.dite
    | with_reducible apply Only.foldl
    | with_reducible apply Only.after (canAbort_only _ _ _ _)
    | intro _
    | split
    | dsimp only

theorem dropNotice_only (addr : Nat) (onset : Ts) (s : State) :
    Only [.imz] s (dropNotice addr onset s) := by
  unfold dropNotice
  repeat' first
    | with_reducible exact Only.refl _ _
    | decide
    | with_reducible apply Only.ite
    | with_reducible apply Only.dite
    | with_reducible apply Only.after (State.setImz_only _ _)
    | intro _
    | split
    | dsimp only

theorem setNotice_only (addr : Nat) (onset : Ts) (f : Notice → Notice) (s : State) :
    Only [.imz] s (setNotice addr onset f s) := by
  unfold setNotice
  repeat' first
    | with_reducible exact Only.refl _ _
    | decide
    | with_reducible apply Only.ite
    | with_reducible apply Only.dite
    | with_reducible apply Only.after (State.setImz_only _ _)
    | intro _
    | split
    | dsimp only

theorem imzUnqueue_only (addr : Nat) (onset : Ts) (s : State) :
    Only [.imz] s (imzUnqueue addr onset s) := by
  unfold imzUnqueue
  repeat' first
    | with_reducible exact Only.refl _ _
    | decide
    | with_reducible apply Only.ite
    | with_reducible apply Only.dite
    | with_reducible apply Only.after (State.setImz_only _ _)
    | intro _
    | split
    | dsimp only

theorem retractSend_only (addr : Nat) (onset : Ts) (data : List Byte) (s : State) :
    Only [.evr, .can, .imz] s (retractSend addr onset data s) := by
  unfold retractSend
  repeat' first
    | with_reducible exact Only.refl _ _
    | decide
    | with_reducible apply Only.ite
    | with_reducible apply Only.dite
    | with_reducible apply Only.after (imzEnqueue_only _ _)
    | intro _
    | split
    | dsimp only

theorem retractWaiting_only (addr : Nat) (onset : Ts) (data : List Byte) (s : State) :
    Only [.drawn, .evr, .can, .imz] s (retractWaiting addr onset data s) := by
  unfold retractWaiting
  repeat' first
    | with_reducible exact Only.refl _ _
    | decide
    | with_reducible apply Only.ite
    | with_reducible apply Only.dite
    | with_reducible apply Only.after (imzWithdraw_only _ _ _ _ _)
    | with_reducible apply Only.after (State.drew_only _)
    | with_reducible apply Only.after (setNotice_only _ _ _ _)
    | with_reducible apply Only.after (dropNotice_only _ _ _)
    | intro _
    | split
    | dsimp only

theorem imzRetract_only (p : Fin 80) (cause cat : Nat) (onset scan : Ts) (s : State) :
    Only [.drawn, .evr, .can, .pev, .ann, .imz] s (imzRetract p cause cat onset scan s) := by
  unfold imzRetract
  repeat' first
    | with_reducible exact Only.refl _ _
    | decide
    | with_reducible apply Only.ite
    | with_reducible apply Only.dite
    | with_reducible apply Only.after (dropNotice_only _ _ _)
    | with_reducible apply Only.after (imzUnqueue_only _ _ _)
    | with_reducible apply Only.after (retractWaiting_only _ _ _ _)
    | with_reducible apply Only.after (retractSend_only _ _ _ _)
    | with_reducible apply Only.after (imzLoss_only _ _)
    | intro _
    | split
    | dsimp only

theorem imzResync_only (s : State) :
    Only [.evr, .can, .pev, .ann, .imz] s (imzResync s) := by
  unfold imzResync
  repeat' first
    | with_reducible exact Only.refl _ _
    | decide
    | with_reducible apply Only.ite
    | with_reducible apply Only.dite
    | with_reducible apply Only.foldl
    | with_reducible apply Only.after (imzEntry_only _ _ _)
    | with_reducible apply Only.after (State.setPt_only _ _ _)
    | intro _
    | split
    | dsimp only

theorem imzStateReport_only (requester : Half) (s : State) :
    Only [.evr, .can, .pev, .ann, .imz] s (imzStateReport requester s) := by
  unfold imzStateReport
  repeat' first
    | with_reducible exact Only.refl _ _
    | decide
    | with_reducible apply Only.ite
    | with_reducible apply Only.dite
    | with_reducible apply Only.foldl
    | with_reducible apply Only.after (imzEntry_only _ _ _)
    | with_reducible apply Only.after (imzEnqueue_only _ _)
    | intro _
    | split
    | dsimp only

theorem imzToward_only (down : Bool) (cls typ : Nat) (data : List Byte) (s : State) :
    Only [.evr, .can] s (imzToward down cls typ data s) := by
  unfold imzToward
  repeat' first
    | with_reducible exact Only.refl _ _
    | decide
    | with_reducible apply Only.ite
    | with_reducible apply Only.dite
    | with_reducible apply Only.after (imzSendDown_only _ _ _ _ _)
    | with_reducible apply Only.after (imzSendUp_only _ _ _ _ _)
    | intro _
    | split
    | dsimp only

theorem imzReply_only (r : ReqRef) (result detail count : Nat) (words : List Word) (s : State) :
    Only [.evr, .can, .imz] s (imzReply r result detail count words s) := by
  unfold imzReply
  repeat' first
    | with_reducible exact Only.refl _ _
    | decide
    | with_reducible apply Only.ite
    | with_reducible apply Only.dite
    | with_reducible apply Only.after (imzToward_only _ _ _ _ _)
    | with_reducible apply Only.after (State.setImz_only _ _)
    | intro _
    | split
    | dsimp only

theorem answerTo_only (o : Origin) (result detail count : Nat) (s : State) :
    Only [.evr, .can, .imz] s (answerTo o result detail count s) := by
  unfold answerTo
  repeat' first
    | with_reducible exact Only.refl _ _
    | decide
    | with_reducible apply Only.ite
    | with_reducible apply Only.dite
    | with_reducible apply Only.after (imzReply_only _ _ _ _ _ _)
    | intro _
    | split
    | dsimp only

theorem imzSendCmd_only (target : Half) (down : Bool) (body : Byte → List Byte) (s : State) :
    Only [.evr, .can, .imz] s (imzSendCmd target down body s) := by
  unfold imzSendCmd
  repeat' first
    | with_reducible exact Only.refl _ _
    | decide
    | with_reducible apply Only.ite
    | with_reducible apply Only.dite
    | with_reducible apply Only.after (imzToward_only _ _ _ _ _)
    | with_reducible apply Only.after (State.setImz_only _ _)
    | intro _
    | split
    | dsimp only

theorem lvForward_only (org : Origin) (l : List (Byte × List Byte)) (s : State) :
    Only [.lvn] s (lvForward org l s) := by
  unfold lvForward
  repeat' first
    | with_reducible exact Only.refl _ _
    | decide
    | with_reducible apply Only.ite
    | with_reducible apply Only.dite
    | with_reducible apply Only.set_lvn
    | intro _
    | split
    | dsimp only

theorem imzStateReq_only (node : Half) (s : State) :
    Only [.evr, .can, .imz] s (imzStateReq node s) := by
  unfold imzStateReq
  repeat' first
    | with_reducible exact Only.refl _ _
    | decide
    | with_reducible apply Only.ite
    | with_reducible apply Only.dite
    | with_reducible apply Only.after (imzSendCmd_only _ _ _ _)
    | intro _
    | split
    | dsimp only

theorem execImzResyncSend_only (s : State) :
    ∃ t', execImzResyncSend s = .next t' ∧ Only [.evr, .can, .pev, .ann, .imz] s t' := by
  refine ⟨_, rfl, ?_⟩
  repeat' first
    | with_reducible exact Only.refl _ _
    | decide
    | with_reducible apply Only.ite
    | with_reducible apply Only.dite
    | with_reducible apply Only.after (imzResync_only _)
    | intro _
    | split
    | dsimp only

end Sys2Proof.Machine
end

