-- ==== Sys2Proof/Laws/FrameDelay.lean ====
section
/-! SUPPORT. Delay: the parts of the state that each operation of Machine/Delay may change. -/
namespace Sys2Proof.Machine

open Sys2Proof

theorem publishPending_only (s : State) (n : Fin 80) :
    Only [.evr, .can, .pev, .ann, .imz] s (publishPending s n) := by
  unfold publishPending
  repeat' first
    | with_reducible exact Only.refl _ _
    | decide
    | with_reducible apply Only.ite
    | with_reducible apply Only.dite
    | with_reducible apply Only.after (State.setPt_only _ _ _)
    | with_reducible apply Only.after (imzPending_only _ _ _ _ _ _)
    | with_reducible apply Only.after (imzLoss_only _ _)
    | with_reducible apply Only.set_pev
    | intro _
    | split
    | dsimp only

theorem phaseEPoint_only (acc : State × List Res) (n : Fin 80) :
    Only [.drawn, .evr, .can, .pev, .ann, .imz] acc.1 (phaseEPoint acc n).1 := by
  unfold phaseEPoint
  repeat' first
    | with_reducible exact Only.refl _ _
    | decide
    | with_reducible apply Only.ite
    | with_reducible apply Only.dite
    | with_reducible apply Only.after (State.setPt_only _ _ _)
    | with_reducible apply Only.after (imzRetract_only _ _ _ _ _ _)
    | with_reducible apply Only.after (publishPending_only _ _)
    | intro _
    | split
    | dsimp only

theorem phaseE_only (s : State) : Only [.drawn, .evr, .can, .pev, .ann, .imz] s (phaseE s).1 := by
  unfold phaseE
  have h : ∀ (l : List (Fin 80)) (a : State × List Res), Only [.drawn, .evr, .can, .pev, .ann, .imz] a.1 (l.foldl phaseEPoint a).1 := by
    intro l
    induction l with
    | nil => exact fun a => Only.refl _ _
    | cons n l ih => exact fun a => Only.after (ih _) (by decide) (Only.mono (phaseEPoint_only _ _) (by decide))
  exact Only.after (h _ _) (by decide) (Only.set_pev (Only.refl _ _) (by decide))

theorem ptCmdApply_only (s : State) (c : PtCmd) :
    Only [.pev] s (ptCmdApply s c) := by
  unfold ptCmdApply
  repeat' first
    | with_reducible exact Only.refl _ _
    | decide
    | with_reducible apply Only.ite
    | with_reducible apply Only.dite
    | with_reducible apply Only.after (State.setPt_only _ _ _)
    | intro _
    | split
    | dsimp only

theorem ptCommand_only (op slot : Nat) (subst : Word) (org : Origin) (s : State) :
    Only [.pev, .lvn] s (ptCommand op slot subst org s).2 := by
  unfold ptCommand
  repeat' first
    | with_reducible exact Only.refl _ _
    | decide
    | with_reducible apply Only.ite
    | with_reducible apply Only.dite
    | with_reducible apply Only.iteSnd
    | with_reducible apply Only.after (lvForward_only _ _ _)
    | with_reducible apply Only.set_pev
    | intro _
    | split
    | dsimp only

theorem ptCmdWrite_only (op slot : Nat) (src : Source) (s : State) :
    Only [.pev, .lvn] s (ptCmdWrite op slot src s) := by
  unfold ptCmdWrite
  repeat' first
    | with_reducible exact Only.refl _ _
    | decide
    | with_reducible apply Only.ite
    | with_reducible apply Only.dite
    | with_reducible apply Only.after (ptCommand_only _ _ _ _ _)
    | intro _
    | split
    | dsimp only

theorem delayDue_only (n : Fin 80) (st : Stage) (s : State) :
    Only [.pev] s (delayDue n st s) := by
  unfold delayDue
  repeat' first
    | with_reducible exact Only.refl _ _
    | decide
    | with_reducible apply Only.ite
    | with_reducible apply Only.dite
    | with_reducible apply Only.after (State.setPt_only _ _ _)
    | intro _
    | split
    | dsimp only

theorem releaseDue_only (n : Fin 80) (s : State) :
    Only [.pev] s (releaseDue n s) := by
  unfold releaseDue
  repeat' first
    | with_reducible exact Only.refl _ _
    | decide
    | with_reducible apply Only.ite
    | with_reducible apply Only.dite
    | with_reducible apply Only.after (State.setPt_only _ _ _)
    | intro _
    | split
    | dsimp only

theorem faultDelayDue_only (n : Fin 80) (s : State) :
    Only [.pev] s (faultDelayDue n s) := by
  unfold faultDelayDue
  repeat' first
    | with_reducible exact Only.refl _ _
    | decide
    | with_reducible apply Only.ite
    | with_reducible apply Only.dite
    | with_reducible apply Only.after (State.setPt_only _ _ _)
    | intro _
    | split
    | dsimp only

theorem staleDue_only (n : Fin 80) (s : State) :
    Only [.pev] s (staleDue n s) := by
  unfold staleDue
  repeat' first
    | with_reducible exact Only.refl _ _
    | decide
    | with_reducible apply Only.ite
    | with_reducible apply Only.dite
    | with_reducible apply Only.after (State.setPt_only _ _ _)
    | intro _
    | split
    | dsimp only

theorem startInhibitEnd_only (s : State) :
    Only [.sys, .pev] s (startInhibitEnd s) := by
  unfold startInhibitEnd
  repeat' first
    | with_reducible exact Only.refl _ _
    | decide
    | with_reducible apply Only.ite
    | with_reducible apply Only.dite
    | with_reducible apply Only.foldl
    | with_reducible apply Only.after (State.setPt_only _ _ _)
    | with_reducible apply Only.set_sys
    | intro _
    | split
    | dsimp only

theorem execOnDelayExpiry_only (n : Fin 80) (s : State) :
    ∃ t', execOnDelayExpiry n s = .next t' ∧ Only [.pev] s t' := by
  refine ⟨_, rfl, ?_⟩
  repeat' first
    | with_reducible exact Only.refl _ _
    | decide
    | with_reducible apply Only.ite
    | with_reducible apply Only.dite
    | with_reducible apply Only.after (delayDue_only _ _ _)
    | intro _
    | split
    | dsimp only

theorem execOffDelayExpiry_only (n : Fin 80) (s : State) :
    ∃ t', execOffDelayExpiry n s = .next t' ∧ Only [.pev] s t' := by
  refine ⟨_, rfl, ?_⟩
  repeat' first
    | with_reducible exact Only.refl _ _
    | decide
    | with_reducible apply Only.ite
    | with_reducible apply Only.dite
    | with_reducible apply Only.after (delayDue_only _ _ _)
    | intro _
    | split
    | dsimp only

theorem execReleaseDelayExpiry_only (n : Fin 80) (s : State) :
    ∃ t', execReleaseDelayExpiry n s = .next t' ∧ Only [.pev] s t' := by
  refine ⟨_, rfl, ?_⟩
  repeat' first
    | with_reducible exact Only.refl _ _
    | decide
    | with_reducible apply Only.ite
    | with_reducible apply Only.dite
    | with_reducible apply Only.after (releaseDue_only _ _)
    | intro _
    | split
    | dsimp only

theorem execFaultDelayExpiry_only (n : Fin 80) (s : State) :
    ∃ t', execFaultDelayExpiry n s = .next t' ∧ Only [.pev] s t' := by
  refine ⟨_, rfl, ?_⟩
  repeat' first
    | with_reducible exact Only.refl _ _
    | decide
    | with_reducible apply Only.ite
    | with_reducible apply Only.dite
    | with_reducible apply Only.after (faultDelayDue_only _ _)
    | intro _
    | split
    | dsimp only

theorem execStaleTimeout_only (n : Fin 80) (s : State) :
    ∃ t', execStaleTimeout n s = .next t' ∧ Only [.pev] s t' := by
  refine ⟨_, rfl, ?_⟩
  repeat' first
    | with_reducible exact Only.refl _ _
    | decide
    | with_reducible apply Only.ite
    | with_reducible apply Only.dite
    | with_reducible apply Only.after (staleDue_only _ _)
    | intro _
    | split
    | dsimp only

theorem execStartInhibitEnd_only (s : State) :
    ∃ t', execStartInhibitEnd s = .next t' ∧ Only [.sys, .pev] s t' := by
  refine ⟨_, rfl, ?_⟩
  repeat' first
    | with_reducible exact Only.refl _ _
    | decide
    | with_reducible apply Only.ite
    | with_reducible apply Only.dite
    | with_reducible apply Only.after (startInhibitEnd_only _)
    | intro _
    | split
    | dsimp only

theorem execPtCmdOos_only (src : Source) (slot : Fin 128) (s : State) :
    ∃ t', execPtCmdOos src slot s = .next t' ∧ Only [.pev, .lvn] s t' := by
  refine ⟨_, rfl, ?_⟩
  repeat' first
    | with_reducible exact Only.refl _ _
    | decide
    | with_reducible apply Only.ite
    | with_reducible apply Only.dite
    | with_reducible apply Only.after (ptCmdWrite_only _ _ _ _)
    | intro _
    | split
    | dsimp only

theorem execPtCmdRts_only (src : Source) (slot : Fin 128) (s : State) :
    ∃ t', execPtCmdRts src slot s = .next t' ∧ Only [.pev, .lvn] s t' := by
  refine ⟨_, rfl, ?_⟩
  repeat' first
    | with_reducible exact Only.refl _ _
    | decide
    | with_reducible apply Only.ite
    | with_reducible apply Only.dite
    | with_reducible apply Only.after (ptCmdWrite_only _ _ _ _)
    | intro _
    | split
    | dsimp only

theorem execPtCmdSubst_only (src : Source) (slot : Fin 128) (s : State) :
    ∃ t', execPtCmdSubst src slot s = .next t' ∧ Only [.pev, .lvn] s t' := by
  refine ⟨_, rfl, ?_⟩
  repeat' first
    | with_reducible exact Only.refl _ _
    | decide
    | with_reducible apply Only.ite
    | with_reducible apply Only.dite
    | with_reducible apply Only.after (ptCmdWrite_only _ _ _ _)
    | intro _
    | split
    | dsimp only

end Sys2Proof.Machine
end

