-- ==== Sys2Proof/Laws/FrameLoss.lean ====
section
/-! SUPPORT. Loss: the parts of the state that each operation of Machine/Loss may change. -/
namespace Sys2Proof.Machine

open Sys2Proof

theorem State.setRec_only (s : State) (f : Rec → Rec) :
    Only [.recd] s (State.setRec s f) := by
  unfold State.setRec
  repeat' first
    | with_reducible exact Only.refl _ _
    | decide
    | with_reducible apply Only.ite
    | with_reducible apply Only.dite
    | with_reducible apply Only.set_recd
    | intro _
    | split
    | dsimp only

theorem State.setMmc_only (s : State) (f : Mmc → Mmc) :
    Only [.mmc] s (State.setMmc s f) := by
  unfold State.setMmc
  repeat' first
    | with_reducible exact Only.refl _ _
    | decide
    | with_reducible apply Only.ite
    | with_reducible apply Only.dite
    | with_reducible apply Only.set_mmc
    | intro _
    | split
    | dsimp only

theorem recEvent_only (kind detail : Nat) (s : State) :
    Only [.evr] s (recEvent kind detail s) := by
  unfold recEvent
  repeat' first
    | with_reducible exact Only.refl _ _
    | decide
    | with_reducible apply Only.ite
    | with_reducible apply Only.dite
    | with_reducible apply Only.after (raise_only _ _ _)
    | intro _
    | split
    | dsimp only

theorem mmcEvent_only (kind detail : Nat) (s : State) :
    Only [.evr] s (mmcEvent kind detail s) := by
  unfold mmcEvent
  repeat' first
    | with_reducible exact Only.refl _ _
    | decide
    | with_reducible apply Only.ite
    | with_reducible apply Only.dite
    | with_reducible apply Only.after (raise_only _ _ _)
    | intro _
    | split
    | dsimp only

theorem keyDone_only (key blk code : Nat) (s : State) :
    Only [.evr, .rnd] s (keyDone key blk code s) := by
  unfold keyDone
  repeat' first
    | with_reducible exact Only.refl _ _
    | decide
    | with_reducible apply Only.ite
    | with_reducible apply Only.dite
    | with_reducible apply Only.after (raise_only _ _ _)
    | with_reducible apply Only.set_rnd
    | intro _
    | split
    | dsimp only

theorem recLose_only (t : Ts) (s : State) :
    Only [.evr, .recd] s (recLose t s) := by
  unfold recLose
  repeat' first
    | with_reducible exact Only.refl _ _
    | decide
    | with_reducible apply Only.ite
    | with_reducible apply Only.dite
    | with_reducible apply Only.after (State.setRec_only _ _)
    | with_reducible apply Only.after (recEvent_only _ _ _)
    | intro _
    | split
    | dsimp only

end Sys2Proof.Machine
end

