-- ==== Sys2Proof/Laws/FrameAnn.lean ====
section
/-! SUPPORT. Ann: the parts of the state that each operation of Machine/Ann may change. -/
namespace Sys2Proof.Machine

open Sys2Proof

theorem annSend_only (n : Fin 80) (e : TrEntry) (s : State) :
    Only [.evr, .can, .pev, .ann, .imz, .recd] s (annSend n e s) := by
  unfold annSend
  repeat' first
    | with_reducible exact Only.refl _ _
    | decide
    | with_reducible apply Only.ite
    | with_reducible apply Only.dite
    | with_reducible apply Only.after (State.setAnn_only _ _)
    | with_reducible apply Only.after (recLose_only _ _)
    | with_reducible apply Only.after (imzEntry_only _ _ _)
    | intro _
    | split
    | dsimp only

theorem annTrans_only (n : Fin 80) (ev : Nat) (flags : BitVec 8) (keep cause onset time : Nat) (org : Origin) (s : State) :
    Only [.evr, .can, .pev, .ann, .imz, .recd] s (annTrans n ev flags keep cause onset time org s) := by
  unfold annTrans
  repeat' first
    | with_reducible exact Only.refl _ _
    | decide
    | with_reducible apply Only.ite
    | with_reducible apply Only.dite
    | with_reducible apply Only.after (State.setPt_only _ _ _)
    | with_reducible apply Only.after (annSend_only _ _ _)
    | with_reducible apply Only.after (State.setAnn_only _ _)
    | intro _
    | split
    | dsimp only

theorem annResult_only (s : State) (r : Res) :
    Only [.evr, .can, .pev, .ann, .imz, .recd] s (annResult s r) := by
  unfold annResult
  repeat' first
    | with_reducible exact Only.refl _ _
    | decide
    | with_reducible apply Only.ite
    | with_reducible apply Only.dite
    | with_reducible apply Only.after (State.setPt_only _ _ _)
    | with_reducible apply Only.after (annTrans_only _ _ _ _ _ _ _ _ _)
    | intro _
    | split
    | dsimp only

theorem annService_only (n : Fin 80) (oos : Bool) (org : Origin) (s : State) :
    Only [.evr, .can, .pev, .ann, .imz, .recd] s (annService n oos org s) := by
  unfold annService
  repeat' first
    | with_reducible exact Only.refl _ _
    | decide
    | with_reducible apply Only.ite
    | with_reducible apply Only.dite
    | with_reducible apply Only.after (annTrans_only _ _ _ _ _ _ _ _ _)
    | with_reducible apply Only.after (State.setPt_only _ _ _)
    | intro _
    | split
    | dsimp only

theorem annShelveEnd_only (s : State) (n : Fin 80) :
    Only [.evr, .can, .pev, .ann, .imz, .recd] s (annShelveEnd s n) := by
  unfold annShelveEnd
  repeat' first
    | with_reducible exact Only.refl _ _
    | decide
    | with_reducible apply Only.ite
    | with_reducible apply Only.dite
    | with_reducible apply Only.after (annTrans_only _ _ _ _ _ _ _ _ _)
    | with_reducible apply Only.after (State.setPt_only _ _ _)
    | intro _
    | split
    | dsimp only

theorem annRemove_only (n : Fin 80) (s : State) :
    Only [.evr, .can, .pev, .ann, .imz, .recd] s (annRemove n s) := by
  unfold annRemove
  repeat' first
    | with_reducible exact Only.refl _ _
    | decide
    | with_reducible apply Only.ite
    | with_reducible apply Only.dite
    | with_reducible apply Only.after (annTrans_only _ _ _ _ _ _ _ _ _)
    | intro _
    | split
    | dsimp only

theorem annMemory_only (n : Fin 80) (s : State) :
    Only [.evr, .can, .pev, .ann, .imz, .recd] s (annMemory n s) := by
  unfold annMemory
  repeat' first
    | with_reducible exact Only.refl _ _
    | decide
    | with_reducible apply Only.ite
    | with_reducible apply Only.dite
    | with_reducible apply Only.after (annTrans_only _ _ _ _ _ _ _ _ _)
    | with_reducible apply Only.after (State.setPt_only _ _ _)
    | intro _
    | split
    | dsimp only

theorem annAck_only (n : Fin 80) (org : Origin) (s : State) :
    Only [.evr, .can, .pev, .ann, .imz, .recd] s (annAck n org s) := by
  unfold annAck
  repeat' first
    | with_reducible exact Only.refl _ _
    | decide
    | with_reducible apply Only.ite
    | with_reducible apply Only.dite
    | with_reducible apply Only.after (annTrans_only _ _ _ _ _ _ _ _ _)
    | intro _
    | split
    | dsimp only

theorem annShelve_only (n : Fin 80) (minutes : Nat) (org : Origin) (s : State) :
    Only [.evr, .can, .pev, .ann, .imz, .recd] s (annShelve n minutes org s) := by
  unfold annShelve
  repeat' first
    | with_reducible exact Only.refl _ _
    | decide
    | with_reducible apply Only.ite
    | with_reducible apply Only.dite
    | with_reducible apply Only.after (State.setPt_only _ _ _)
    | with_reducible apply Only.after (annTrans_only _ _ _ _ _ _ _ _ _)
    | intro _
    | split
    | dsimp only

theorem annUnshelve_only (n : Fin 80) (org : Origin) (s : State) :
    Only [.evr, .can, .pev, .ann, .imz, .recd] s (annUnshelve n org s) := by
  unfold annUnshelve
  repeat' first
    | with_reducible exact Only.refl _ _
    | decide
    | with_reducible apply Only.ite
    | with_reducible apply Only.dite
    | with_reducible apply Only.after (State.setPt_only _ _ _)
    | with_reducible apply Only.after (annTrans_only _ _ _ _ _ _ _ _ _)
    | intro _
    | split
    | dsimp only

theorem annAct_only (c : AnnCmd) (n : Fin 80) (s : State) :
    Only [.evr, .can, .pev, .ann, .imz, .recd] s (annAct c n s) := by
  unfold annAct
  repeat' first
    | with_reducible exact Only.refl _ _
    | decide
    | with_reducible apply Only.ite
    | with_reducible apply Only.dite
    | with_reducible apply Only.after (annAck_only _ _ _)
    | with_reducible apply Only.after (annShelve_only _ _ _ _)
    | with_reducible apply Only.after (annUnshelve_only _ _ _)
    | intro _
    | split
    | dsimp only

theorem annForward_only (c : AnnCmd) (a : Nat) (s : State) :
    Only [.evr, .can, .imz] s (annForward c a s) := by
  unfold annForward
  repeat' first
    | with_reducible exact Only.refl _ _
    | decide
    | with_reducible apply Only.ite
    | with_reducible apply Only.dite
    | with_reducible apply Only.after (imzSendCmd_only _ _ _ _)
    | intro _
    | split
    | dsimp only

theorem annOnSlot_only (c : AnnCmd) (acc : State × AnnTally) (i : Nat) :
    Only [.evr, .can, .pev, .ann, .imz, .recd] acc.1 (annOnSlot c acc i).1 := by
  unfold annOnSlot
  repeat' first
    | with_reducible exact Only.refl _ _
    | decide
    | with_reducible apply Only.ite
    | with_reducible apply Only.dite
    | with_reducible apply Only.after (annAct_only _ _ _)
    | intro _
    | split
    | dsimp only

theorem annOnRemote_only (c : AnnCmd) (acc : State × AnnTally) (a : Nat) :
    Only [.evr, .can, .imz] acc.1 (annOnRemote c acc a).1 := by
  unfold annOnRemote
  repeat' first
    | with_reducible exact Only.refl _ _
    | decide
    | with_reducible apply Only.ite
    | with_reducible apply Only.dite
    | with_reducible apply Only.after (annForward_only _ _ _)
    | intro _
    | split
    | dsimp only

theorem annSilence_only (s : State) (scope target : Nat) :
    Only [.ann, .grp] s (annSilence s scope target).2 := by
  unfold annSilence
  extract_lets gs
  clear_value gs
  split
  · exact Only.refl _ _
  · dsimp only
    split
    · exact Only.after (State.setAnn_only _ _) (by decide) (Only.set_grp (Only.refl _ _) (by decide))
    · exact Only.set_grp (Only.refl _ _) (by decide)

theorem annCarry_only (s : State) (c : AnnCmd) : Only [.evr, .can, .pev, .ann, .grp, .imz, .recd] s (annCarry s c).2.2 := by
  have h : ∀ (l : List Nat) (a : State × AnnTally), Only [.evr, .can, .pev, .ann, .grp, .imz, .recd] a.1 (l.foldl (annOnSlot c) a).1 := by
    intro l
    induction l with
    | nil => exact fun a => Only.refl _ _
    | cons n l ih => exact fun a => Only.after (ih _) (by decide) (Only.mono (annOnSlot_only _ _ _) (by decide))
  have k : ∀ (l : List Nat) (a : State × AnnTally), Only [.evr, .can, .pev, .ann, .grp, .imz, .recd] a.1 (l.foldl (annOnRemote c) a).1 := by
    intro l
    induction l with
    | nil => exact fun a => Only.refl _ _
    | cons n l ih => exact fun a => Only.after (ih _) (by decide) (Only.mono (annOnRemote_only _ _ _) (by decide))
  unfold annCarry
  split
  · exact Only.mono (annSilence_only _ _ _) (by decide)
  · split
    · exact Only.refl _ _
    · split
      · exact Only.refl _ _
      · split
        · exact Only.refl _ _
        · exact (h _ (s, {})).trans (k _ _)

theorem buttonRefused_only (c : AnnCmd) (code : Nat) (s : State) :
    Only [.evr] s (buttonRefused c code s) := by
  unfold buttonRefused
  repeat' first
    | with_reducible exact Only.refl _ _
    | decide
    | with_reducible apply Only.ite
    | with_reducible apply Only.dite
    | with_reducible apply Only.after (dioEvent_only _ _ _)
    | intro _
    | split
    | dsimp only

theorem annCommand_only (s : State) (c : AnnCmd) :
    Only [.evr, .can, .pev, .ann, .grp, .imz, .recd, .rnd] s (annCommand s c) := by
  unfold annCommand
  repeat' first
    | with_reducible exact Only.refl _ _
    | decide
    | with_reducible apply Only.ite
    | with_reducible apply Only.dite
    | with_reducible apply Only.after (annCarry_only _ _)
    | with_reducible apply Only.after (State.setAnn_only _ _)
    | with_reducible apply Only.after (answerTo_only _ _ _ _ _)
    | with_reducible apply Only.after (buttonRefused_only _ _ _)
    | with_reducible apply Only.after (keyDone_only _ _ _ _)
    | intro _
    | split
    | dsimp only

theorem annForwarded_only (c : AnnCmd) (s : State) :
    Only [.lvn] s (annForwarded c s) := by
  unfold annForwarded
  repeat' first
    | with_reducible exact Only.refl _ _
    | decide
    | with_reducible apply Only.ite
    | with_reducible apply Only.dite
    | with_reducible apply Only.after (lvForward_only _ _ _)
    | intro _
    | split
    | dsimp only

theorem annSubmit_only (c : AnnCmd) (s : State) :
    Only [.ann, .lvn] s (annSubmit c s).2 := by
  unfold annSubmit
  repeat' first
    | with_reducible exact Only.refl _ _
    | decide
    | with_reducible apply Only.ite
    | with_reducible apply Only.dite
    | with_reducible apply Only.iteSnd
    | with_reducible apply Only.after (State.setAnn_only _ _)
    | with_reducible apply Only.after (annForwarded_only _ _)
    | intro _
    | split
    | dsimp only

theorem almCmdWrite_only (op scope target : Nat) (src : Source) (s : State) :
    Only [.ann, .lvn] s (almCmdWrite op scope target src s) := by
  unfold almCmdWrite
  repeat' first
    | with_reducible exact Only.refl _ _
    | decide
    | with_reducible apply Only.ite
    | with_reducible apply Only.dite
    | with_reducible apply Only.after (State.setAnn_only _ _)
    | with_reducible apply Only.after (annSubmit_only _ _)
    | intro _
    | split
    | dsimp only

theorem shelveExpiry_only (n : Fin 80) (s : State) :
    Only [.pev] s (shelveExpiry n s) := by
  unfold shelveExpiry
  repeat' first
    | with_reducible exact Only.refl _ _
    | decide
    | with_reducible apply Only.ite
    | with_reducible apply Only.dite
    | with_reducible apply Only.after (State.setPt_only _ _ _)
    | intro _
    | split
    | dsimp only

theorem execAlmCmdAck_only (src : Source) (scope : Fin 4) (target : BitVec 23) (s : State) :
    ∃ t', execAlmCmdAck src scope target s = .next t' ∧ Only [.ann, .lvn] s t' := by
  refine ⟨_, rfl, ?_⟩
  repeat' first
    | with_reducible exact Only.refl _ _
    | decide
    | with_reducible apply Only.ite
    | with_reducible apply Only.dite
    | with_reducible apply Only.after (almCmdWrite_only _ _ _ _ _)
    | intro _
    | split
    | dsimp only

theorem execAlmCmdSilence_only (src : Source) (scope : Fin 4) (target : BitVec 23) (s : State) :
    ∃ t', execAlmCmdSilence src scope target s = .next t' ∧ Only [.ann, .lvn] s t' := by
  refine ⟨_, rfl, ?_⟩
  repeat' first
    | with_reducible exact Only.refl _ _
    | decide
    | with_reducible apply Only.ite
    | with_reducible apply Only.dite
    | with_reducible apply Only.after (almCmdWrite_only _ _ _ _ _)
    | intro _
    | split
    | dsimp only

theorem execAlmCmdShelve_only (src : Source) (scope : Fin 4) (target : BitVec 23) (s : State) :
    ∃ t', execAlmCmdShelve src scope target s = .next t' ∧ Only [.ann, .lvn] s t' := by
  refine ⟨_, rfl, ?_⟩
  repeat' first
    | with_reducible exact Only.refl _ _
    | decide
    | with_reducible apply Only.ite
    | with_reducible apply Only.dite
    | with_reducible apply Only.after (almCmdWrite_only _ _ _ _ _)
    | intro _
    | split
    | dsimp only

theorem execAlmCmdUnshelve_only (src : Source) (scope : Fin 4) (target : BitVec 23) (s : State) :
    ∃ t', execAlmCmdUnshelve src scope target s = .next t' ∧ Only [.ann, .lvn] s t' := by
  refine ⟨_, rfl, ?_⟩
  repeat' first
    | with_reducible exact Only.refl _ _
    | decide
    | with_reducible apply Only.ite
    | with_reducible apply Only.dite
    | with_reducible apply Only.after (almCmdWrite_only _ _ _ _ _)
    | intro _
    | split
    | dsimp only

theorem execAlmCmdBadOp_only (src : Source) (op : Fin 8) (scope : Fin 4) (target : BitVec 23) (s : State) :
    ∃ t', execAlmCmdBadOp src op scope target s = .next t' ∧ Only [.ann, .lvn] s t' := by
  refine ⟨_, rfl, ?_⟩
  repeat' first
    | with_reducible exact Only.refl _ _
    | decide
    | with_reducible apply Only.ite
    | with_reducible apply Only.dite
    | with_reducible apply Only.after (almCmdWrite_only _ _ _ _ _)
    | intro _
    | split
    | dsimp only

theorem execShelveExpiry_only (n : Fin 80) (s : State) :
    ∃ t', execShelveExpiry n s = .next t' ∧ Only [.pev] s t' := by
  refine ⟨_, rfl, ?_⟩
  repeat' first
    | with_reducible exact Only.refl _ _
    | decide
    | with_reducible apply Only.ite
    | with_reducible apply Only.dite
    | with_reducible apply Only.after (shelveExpiry_only _ _)
    | intro _
    | split
    | dsimp only

end Sys2Proof.Machine
end

