-- ==== Sys2Proof/Laws/FrameGrp.lean ====
section
/-! SUPPORT. Grp: the parts of the state that each operation of Machine/Grp may change. -/
namespace Sys2Proof.Machine

open Sys2Proof

theorem State.setGrps_only (s : State) (f : GrpBlk → GrpBlk) :
    Only [.grp] s (State.setGrps s f) := by
  unfold State.setGrps
  repeat' first
    | with_reducible exact Only.refl _ _
    | decide
    | with_reducible apply Only.ite
    | with_reducible apply Only.dite
    | with_reducible apply Only.set_grp
    | intro _
    | split
    | dsimp only

theorem State.putGrp_only (s : State) (g : Nat) (x : Grp) :
    Only [.grp] s (State.putGrp s g x) := by
  unfold State.putGrp
  repeat' first
    | with_reducible exact Only.refl _ _
    | decide
    | with_reducible apply Only.ite
    | with_reducible apply Only.dite
    | with_reducible apply Only.after (State.setGrps_only _ _)
    | intro _
    | split
    | dsimp only

theorem grpUpdate_only (unlocked : Nat → Bool) (s : State) (n : Nat) :
    Only [.evr, .grp] s (grpUpdate unlocked s n) := by
  unfold grpUpdate
  repeat' first
    | with_reducible exact Only.refl _ _
    | decide
    | with_reducible apply Only.ite
    | with_reducible apply Only.dite
    | with_reducible apply Only.after (State.putGrp_only _ _ _)
    | with_reducible apply Only.after (raise_only _ _ _)
    | intro _
    | split
    | dsimp only

theorem grpUnsilence_only (p : Nat → Bool) (s : State) :
    Only [.ann, .grp] s (grpUnsilence p s) := by
  unfold grpUnsilence
  repeat' first
    | with_reducible exact Only.refl _ _
    | decide
    | with_reducible apply Only.ite
    | with_reducible apply Only.dite
    | with_reducible apply Only.foldl
    | with_reducible apply Only.after (State.putGrp_only _ _ _)
    | with_reducible apply Only.after (State.setAnn_only _ _)
    | intro _
    | split
    | dsimp only

theorem callStart_only (v : MemView) (time : Nat) (noTime : Bool) (s : State) :
    Only [.call] s (callStart v time noTime s) := by
  unfold callStart
  repeat' first
    | with_reducible exact Only.refl _ _
    | decide
    | with_reducible apply Only.ite
    | with_reducible apply Only.dite
    | with_reducible apply Only.set_call
    | intro _
    | split
    | dsimp only

theorem grpRead_only (s : State) :
    Only [.pev] s (grpRead s) := by
  unfold grpRead
  repeat' first
    | with_reducible exact Only.refl _ _
    | decide
    | with_reducible apply Only.ite
    | with_reducible apply Only.dite
    | with_reducible apply Only.set_pev
    | intro _
    | split
    | dsimp only

theorem grpNotice_only (s : State) :
    Only [.pev, .ann, .grp, .call] s (grpNotice s) := by
  unfold grpNotice
  repeat' first
    | with_reducible exact Only.refl _ _
    | decide
    | with_reducible apply Only.ite
    | with_reducible apply Only.dite
    | with_reducible apply Only.foldl
    | with_reducible apply Only.after (callStart_only _ _ _ _)
    | with_reducible apply Only.after (grpRead_only _)
    | with_reducible apply Only.after (grpUnsilence_only _ _)
    | intro _
    | split
    | dsimp only

theorem grpPost_only (s : State) :
    Only [.evr, .dio, .dioBlk] s (grpPost s) := by
  unfold grpPost
  repeat' first
    | with_reducible exact Only.refl _ _
    | decide
    | with_reducible apply Only.ite
    | with_reducible apply Only.dite
    | with_reducible apply Only.foldl
    | with_reducible apply Only.after (dioNotify_only _ _ _)
    | with_reducible apply Only.after (dioCommand_only _ _ _)
    | intro _
    | split
    | dsimp only

theorem grpPosted_only (s : State) :
    Only [.grp] s (grpPosted s) := by
  unfold grpPosted
  repeat' first
    | with_reducible exact Only.refl _ _
    | decide
    | with_reducible apply Only.ite
    | with_reducible apply Only.dite
    | with_reducible apply Only.foldl
    | with_reducible apply Only.after (State.putGrp_only _ _ _)
    | intro _
    | split
    | dsimp only

theorem grpScanEnd_only (s : State) :
    Only [.evr, .pev, .ann, .grp, .call] s (grpScanEnd s) := by
  unfold grpScanEnd
  repeat' first
    | with_reducible exact Only.refl _ _
    | decide
    | with_reducible apply Only.ite
    | with_reducible apply Only.dite
    | with_reducible apply Only.foldl
    | with_reducible apply Only.after (grpNotice_only _)
    | with_reducible apply Only.after (grpPosted_only _)
    | with_reducible apply Only.after (grpUpdate_only _ _ _)
    | intro _
    | split
    | dsimp only

theorem grpRemote_only (a : Nat) (r : RemRec) (unlocked : Bool) (time : Option Nat) (s : State) :
    Only [.evr, .ann, .grp, .call] s (grpRemote a r unlocked time s) := by
  unfold grpRemote
  repeat' first
    | with_reducible exact Only.refl _ _
    | decide
    | with_reducible apply Only.ite
    | with_reducible apply Only.dite
    | with_reducible apply Only.foldl
    | with_reducible apply Only.after (State.setGrps_only _ _)
    | with_reducible apply Only.after (callStart_only _ _ _ _)
    | with_reducible apply Only.after (grpUnsilence_only _ _)
    | with_reducible apply Only.after (grpUpdate_only _ _ _)
    | intro _
    | split
    | dsimp only

theorem grpTrans_only (e : TrEntry) (onset time : Nat) (s : State) :
    Only [.evr, .ann, .grp, .call] s (grpTrans e onset time s) := by
  unfold grpTrans
  repeat' first
    | with_reducible exact Only.refl _ _
    | decide
    | with_reducible apply Only.ite
    | with_reducible apply Only.dite
    | with_reducible apply Only.after (grpRemote_only _ _ _ _ _)
    | intro _
    | split
    | dsimp only

theorem grpPend_only (a cat onset : Nat) (s : State) :
    Only [.evr, .ann, .grp, .call] s (grpPend a cat onset s) := by
  unfold grpPend
  repeat' first
    | with_reducible exact Only.refl _ _
    | decide
    | with_reducible apply Only.ite
    | with_reducible apply Only.dite
    | with_reducible apply Only.after (grpRemote_only _ _ _ _ _)
    | intro _
    | split
    | dsimp only

theorem grpRetract_only (a onset : Nat) (s : State) :
    Only [.evr, .ann, .grp, .call] s (grpRetract a onset s) := by
  unfold grpRetract
  repeat' first
    | with_reducible exact Only.refl _ _
    | decide
    | with_reducible apply Only.ite
    | with_reducible apply Only.dite
    | with_reducible apply Only.after (grpRemote_only _ _ _ _ _)
    | intro _
    | split
    | dsimp only

theorem grpReport_only (a : Nat) (e : Half) (t : Nat) (s : State) :
    Only [.evr, .ann, .grp, .call] s (grpReport a e t s) := by
  unfold grpReport
  repeat' first
    | with_reducible exact Only.refl _ _
    | decide
    | with_reducible apply Only.ite
    | with_reducible apply Only.dite
    | with_reducible apply Only.after (grpRemote_only _ _ _ _ _)
    | intro _
    | split
    | dsimp only

theorem grpIncomplete_only (node : Half) (b : Bool) (s : State) :
    Only [.evr, .grp] s (grpIncomplete node b s) := by
  unfold grpIncomplete
  repeat' first
    | with_reducible exact Only.refl _ _
    | decide
    | with_reducible apply Only.ite
    | with_reducible apply Only.dite
    | with_reducible apply Only.foldl
    | with_reducible apply Only.after (State.setGrps_only _ _)
    | with_reducible apply Only.after (grpUpdate_only _ _ _)
    | intro _
    | split
    | dsimp only

theorem grpDropped_only (node : Half) (s : State) :
    Only [.evr, .can, .grp, .imz] s (grpDropped node s) := by
  unfold grpDropped
  repeat' first
    | with_reducible exact Only.refl _ _
    | decide
    | with_reducible apply Only.ite
    | with_reducible apply Only.dite
    | with_reducible apply Only.after (imzStateReq_only _ _)
    | with_reducible apply Only.after (grpIncomplete_only _ _ _)
    | with_reducible apply Only.after (State.setGrps_only _ _)
    | intro _
    | split
    | dsimp only

theorem execFoSettleExpiry_only (g : Fin 1024) (s : State) :
    ∃ t', execFoSettleExpiry g s = .next t' ∧ Only [.evr, .grp] s t' := by
  refine ⟨_, rfl, ?_⟩
  repeat' first
    | with_reducible exact Only.refl _ _
    | decide
    | with_reducible apply Only.ite
    | with_reducible apply Only.dite
    | with_reducible apply Only.after (grpUpdate_only _ _ _)
    | with_reducible apply Only.after (State.putGrp_only _ _ _)
    | intro _
    | split
    | dsimp only

end Sys2Proof.Machine
end

