-- ==== Sys2Proof/Laws/FrameCall.lean ====
section
/-! SUPPORT. Call: the parts of the state that each operation of Machine/Call may change. -/
namespace Sys2Proof.Machine

open Sys2Proof

theorem State.setCall_only (s : State) (f : Call → Call) :
    Only [.call] s (State.setCall s f) := by
  unfold State.setCall
  repeat' first
    | with_reducible exact Only.refl _ _
    | decide
    | with_reducible apply Only.ite
    | with_reducible apply Only.dite
    | with_reducible apply Only.set_call
    | intro _
    | split
    | dsimp only

theorem State.putSess_only (s : State) (n : Nat) (x : Sess) :
    Only [.call] s (State.putSess s n x) := by
  unfold State.putSess
  repeat' first
    | with_reducible exact Only.refl _ _
    | decide
    | with_reducible apply Only.ite
    | with_reducible apply Only.dite
    | with_reducible apply Only.after (State.setCall_only _ _)
    | intro _
    | split
    | dsimp only

theorem callSend_only (n : Nat) (s : State) :
    Only [.evr, .can, .call] s (callSend n s) := by
  unfold callSend
  repeat' first
    | with_reducible exact Only.refl _ _
    | decide
    | with_reducible apply Only.ite
    | with_reducible apply Only.dite
    | with_reducible apply Only.after (imzSendDown_only _ _ _ _ _)
    | with_reducible apply Only.after (State.putSess_only _ _ _)
    | intro _
    | split
    | dsimp only

theorem callNewStep_only (n : Nat) (s : State) :
    Only [.evr, .can, .call] s (callNewStep n s) := by
  unfold callNewStep
  repeat' first
    | with_reducible exact Only.refl _ _
    | decide
    | with_reducible apply Only.ite
    | with_reducible apply Only.dite
    | with_reducible apply Only.after (callSend_only _ _)
    | with_reducible apply Only.after (State.putSess_only _ _ _)
    | intro _
    | split
    | dsimp only

theorem callAnnounce_only (n : Nat) (s : State) :
    Only [.evr, .can, .call] s (callAnnounce n s) := by
  unfold callAnnounce
  repeat' first
    | with_reducible exact Only.refl _ _
    | decide
    | with_reducible apply Only.ite
    | with_reducible apply Only.dite
    | with_reducible apply Only.after (callNewStep_only _ _)
    | with_reducible apply Only.after (raise_only _ _ _)
    | intro _
    | split
    | dsimp only

theorem callJudge_only (n : Nat) (old : Nat) (s : State) :
    Only [.evr, .can, .call] s (callJudge n old s) := by
  unfold callJudge
  repeat' first
    | with_reducible exact Only.refl _ _
    | decide
    | with_reducible apply Only.ite
    | with_reducible apply Only.dite
    | with_reducible apply Only.after (State.putSess_only _ _ _)
    | with_reducible apply Only.after (State.setCall_only _ _)
    | with_reducible apply Only.after (callAnnounce_only _ _)
    | with_reducible apply Only.after (callNewStep_only _ _)
    | intro _
    | split
    | dsimp only

theorem callFree_only (s : State) (n : Nat) :
    Only [.evr, .can, .call] s (callFree s n) := by
  unfold callFree
  repeat' first
    | with_reducible exact Only.refl _ _
    | decide
    | with_reducible apply Only.ite
    | with_reducible apply Only.dite
    | with_reducible apply Only.after (callAnnounce_only _ _)
    | with_reducible apply Only.after (State.putSess_only _ _ _)
    | intro _
    | split
    | dsimp only

theorem callBegin_only (n : Nat) (w : WaitAlarm) (st : Nat) (s : State) :
    Only [.evr, .can, .call] s (callBegin n w st s) := by
  unfold callBegin
  repeat' first
    | with_reducible exact Only.refl _ _
    | decide
    | with_reducible apply Only.ite
    | with_reducible apply Only.dite
    | with_reducible apply Only.after (callJudge_only _ _ _)
    | with_reducible apply Only.after (State.putSess_only _ _ _)
    | intro _
    | split
    | dsimp only

theorem callFill_only (n : Nat) (s : State) : Only [.evr, .can, .call] s (callFill n s) := by
  induction n generalizing s with
  | zero => exact Only.refl _ _
  | succ k ih =>
    unfold callFill
    split
    · exact Only.after (ih _) (by decide) (Only.after (callBegin_only _ _ _ _) (by decide)
        (Only.mono (State.setCall_only _ _) (by decide)))
    · exact Only.refl _ _

theorem callTake_only (s : State) (w0 : WaitAlarm) :
    Only [.evr, .can, .call] s (callTake s w0) := by
  unfold callTake
  repeat' first
    | with_reducible exact Only.refl _ _
    | decide
    | with_reducible apply Only.ite
    | with_reducible apply Only.dite
    | with_reducible apply Only.after (callBegin_only _ _ _ _)
    | with_reducible apply Only.after (State.setCall_only _ _)
    | with_reducible apply Only.after (raise_only _ _ _)
    | intro _
    | split
    | dsimp only

theorem callAcked_only (c : CallCmd) (eng : Nat) (s : State) :
    Only [.evr, .can, .call] s (callAcked c eng s) := by
  unfold callAcked
  repeat' first
    | with_reducible exact Only.refl _ _
    | decide
    | with_reducible apply Only.ite
    | with_reducible apply Only.dite
    | with_reducible apply Only.after (callNewStep_only _ _)
    | with_reducible apply Only.after (State.putSess_only _ _ _)
    | with_reducible apply Only.after (callAnnounce_only _ _)
    | intro _
    | split
    | dsimp only

theorem callAnswer_only (c : CallCmd) (s : State) :
    Only [.evr, .can, .call] s (callAnswer c s).2 := by
  unfold callAnswer
  repeat' first
    | with_reducible exact Only.refl _ _
    | decide
    | with_reducible apply Only.ite
    | with_reducible apply Only.dite
    | with_reducible apply Only.iteSnd
    | with_reducible apply Only.after (callAcked_only _ _ _)
    | with_reducible apply Only.after (State.setCall_only _ _)
    | intro _
    | split
    | dsimp only

theorem setDuty_only (e src : Nat) (conflict : Bool) (s : State) :
    Only [.evr, .call] s (setDuty e src conflict s) := by
  unfold setDuty
  repeat' first
    | with_reducible exact Only.refl _ _
    | decide
    | with_reducible apply Only.ite
    | with_reducible apply Only.dite
    | with_reducible apply Only.after (State.setCall_only _ _)
    | with_reducible apply Only.after (raise_only _ _ _)
    | intro _
    | split
    | dsimp only

theorem callCarry_only (s : State) (c : CallCmd) :
    Only [.evr, .can, .call] s (callCarry s c).2 := by
  unfold callCarry
  repeat' first
    | with_reducible exact Only.refl _ _
    | decide
    | with_reducible apply Only.ite
    | with_reducible apply Only.dite
    | with_reducible apply Only.iteSnd
    | with_reducible apply Only.after (setDuty_only _ _ _ _)
    | with_reducible apply Only.after (callAnswer_only _ _)
    | intro _
    | split
    | dsimp only

theorem callCommand_only (s : State) (c : CallCmd) :
    Only [.evr, .can, .call, .imz, .rnd] s (callCommand s c) := by
  unfold callCommand
  repeat' first
    | with_reducible exact Only.refl _ _
    | decide
    | with_reducible apply Only.ite
    | with_reducible apply Only.dite
    | with_reducible apply Only.after (callCarry_only _ _)
    | with_reducible apply Only.after (State.setCall_only _ _)
    | with_reducible apply Only.after (answerTo_only _ _ _ _ _)
    | with_reducible apply Only.after (keyDone_only _ _ _ _)
    | intro _
    | split
    | dsimp only

theorem callOverflow_only (s0 : State) :
    Only [.drawn, .evr, .can, .call] s0 (callOverflow s0) := by
  unfold callOverflow
  repeat' first
    | with_reducible exact Only.refl _ _
    | decide
    | with_reducible apply Only.ite
    | with_reducible apply Only.dite
    | with_reducible apply Only.after (State.setCall_only _ _)
    | with_reducible apply Only.after (State.drew_only _)
    | with_reducible apply Only.after (State.putSess_only _ _ _)
    | with_reducible apply Only.after (callAnnounce_only _ _)
    | with_reducible apply Only.after (callNewStep_only _ _)
    | intro _
    | split
    | dsimp only

theorem callSaturated_only (s : State) :
    Only [.evr, .call] s (callSaturated s) := by
  unfold callSaturated
  repeat' first
    | with_reducible exact Only.refl _ _
    | decide
    | with_reducible apply Only.ite
    | with_reducible apply Only.dite
    | with_reducible apply Only.after (raise_only _ _ _)
    | with_reducible apply Only.after (State.setCall_only _ _)
    | intro _
    | split
    | dsimp only

theorem callDropped_only (s : State) (c : CallCmd) :
    Only [.evr, .can, .call, .imz, .rnd] s (callDropped s c) := by
  unfold callDropped
  repeat' first
    | with_reducible exact Only.refl _ _
    | decide
    | with_reducible apply Only.ite
    | with_reducible apply Only.dite
    | with_reducible apply Only.after (State.setCall_only _ _)
    | with_reducible apply Only.after (answerTo_only _ _ _ _ _)
    | with_reducible apply Only.after (keyDone_only _ _ _ _)
    | intro _
    | split
    | dsimp only

theorem callNone_only (s : State) :
    Only [.evr, .can, .call, .imz, .rnd] s (callNone s) := by
  unfold callNone
  repeat' first
    | with_reducible exact Only.refl _ _
    | decide
    | with_reducible apply Only.ite
    | with_reducible apply Only.dite
    | with_reducible apply Only.foldl
    | with_reducible apply Only.after (callDropped_only _ _)
    | with_reducible apply Only.after (State.setCall_only _ _)
    | intro _
    | split
    | dsimp only

theorem callScanEnd_only (s : State) :
    Only [.drawn, .evr, .can, .call, .imz, .rnd] s (callScanEnd s) := by
  unfold callScanEnd
  repeat' first
    | with_reducible exact Only.refl _ _
    | decide
    | with_reducible apply Only.ite
    | with_reducible apply Only.dite
    | with_reducible apply Only.foldl
    | with_reducible apply Only.after (callNone_only _)
    | with_reducible apply Only.after (callCommand_only _ _)
    | with_reducible apply Only.after (State.setCall_only _ _)
    | with_reducible apply Only.after (callJudge_only _ _ _)
    | with_reducible apply Only.after (callFree_only _ _)
    | with_reducible apply Only.after (callFill_only _ _)
    | with_reducible apply Only.after (callTake_only _ _)
    | with_reducible apply Only.after (callSaturated_only _)
    | with_reducible apply Only.after (callOverflow_only _)
    | intro _
    | split
    | dsimp only

theorem unitGone_only (u : Fin 64) (s : State) :
    Only [.evr, .call] s (unitGone u s) := by
  unfold unitGone
  repeat' first
    | with_reducible exact Only.refl _ _
    | decide
    | with_reducible apply Only.ite
    | with_reducible apply Only.dite
    | with_reducible apply Only.after (raise_only _ _ _)
    | with_reducible apply Only.after (State.setCall_only _ _)
    | intro _
    | split
    | dsimp only

theorem unitSeen_only (node : Half) (s : State) :
    Only [.evr, .call] s (unitSeen node s) := by
  unfold unitSeen
  repeat' first
    | with_reducible exact Only.refl _ _
    | decide
    | with_reducible apply Only.ite
    | with_reducible apply Only.dite
    | with_reducible apply Only.after (raise_only _ _ _)
    | with_reducible apply Only.after (State.setCall_only _ _)
    | intro _
    | split
    | dsimp only

theorem callPush_only (c : CallCmd) (s : State) :
    Only [.call, .lvn] s (callPush c s) := by
  unfold callPush
  repeat' first
    | with_reducible exact Only.refl _ _
    | decide
    | with_reducible apply Only.ite
    | with_reducible apply Only.dite
    | with_reducible apply Only.after (State.setCall_only _ _)
    | with_reducible apply Only.after (lvForward_only _ _ _)
    | intro _
    | split
    | dsimp only

theorem dutySelect_only (e src : Nat) (conflict : Bool) (org : Origin) (s : State) :
    Only [.evr, .can, .call, .imz, .lvn] s (dutySelect e src conflict org s) := by
  unfold dutySelect
  repeat' first
    | with_reducible exact Only.refl _ _
    | decide
    | with_reducible apply Only.ite
    | with_reducible apply Only.dite
    | with_reducible apply Only.after (callPush_only _ _)
    | with_reducible apply Only.after (imzSendCmd_only _ _ _ _)
    | intro _
    | split
    | dsimp only

theorem dutyAtStart_only (s : State) :
    Only [.evr, .can, .call, .imz, .lvn] s (dutyAtStart s) := by
  unfold dutyAtStart
  repeat' first
    | with_reducible exact Only.refl _ _
    | decide
    | with_reducible apply Only.ite
    | with_reducible apply Only.dite
    | with_reducible apply Only.after (dutySelect_only _ _ _ _ _)
    | intro _
    | split
    | dsimp only

theorem callCmdWrite_only (op eng session : Nat) (src : Source) (s : State) :
    Only [.call, .lvn] s (callCmdWrite op eng session src s) := by
  unfold callCmdWrite
  repeat' first
    | with_reducible exact Only.refl _ _
    | decide
    | with_reducible apply Only.ite
    | with_reducible apply Only.dite
    | with_reducible apply Only.after (State.setCall_only _ _)
    | with_reducible apply Only.after (callPush_only _ _)
    | intro _
    | split
    | dsimp only

theorem callDue_only (n : Fin 257) (st : Nat) (s : State) :
    Only [.call] s (callDue n st s) := by
  unfold callDue
  repeat' first
    | with_reducible exact Only.refl _ _
    | decide
    | with_reducible apply Only.ite
    | with_reducible apply Only.dite
    | with_reducible apply Only.after (State.putSess_only _ _ _)
    | intro _
    | split
    | dsimp only

theorem callRepeat_only (n : Fin 257) (clear : Bool) (s : State) :
    Only [.evr, .can, .call] s (callRepeat n clear s) := by
  unfold callRepeat
  repeat' first
    | with_reducible exact Only.refl _ _
    | decide
    | with_reducible apply Only.ite
    | with_reducible apply Only.dite
    | with_reducible apply Only.after (callSend_only _ _)
    | intro _
    | split
    | dsimp only

theorem callShift_only (d : Int) (s : State) :
    Only [.call] s (callShift d s) := by
  unfold callShift
  repeat' first
    | with_reducible exact Only.refl _ _
    | decide
    | with_reducible apply Only.ite
    | with_reducible apply Only.dite
    | with_reducible apply Only.after (State.setCall_only _ _)
    | intro _
    | split
    | dsimp only

theorem callSwap_only (s : State) :
    Only [.evr, .can, .call, .imz, .rnd] s (callSwap s) := by
  unfold callSwap
  repeat' first
    | with_reducible exact Only.refl _ _
    | decide
    | with_reducible apply Only.ite
    | with_reducible apply Only.dite
    | with_reducible apply Only.after (callNone_only _)
    | with_reducible apply Only.after (State.setCall_only _ _)
    | with_reducible apply Only.after (raise_only _ _ _)
    | intro _
    | split
    | dsimp only

theorem callInit_only (s : State) :
    Only [.call] s (callInit s) := by
  unfold callInit
  repeat' first
    | with_reducible exact Only.refl _ _
    | decide
    | with_reducible apply Only.ite
    | with_reducible apply Only.dite
    | with_reducible apply Only.after (State.setCall_only _ _)
    | intro _
    | split
    | dsimp only

theorem execCallT1Expiry_only (n : Fin 257) (s : State) :
    ∃ t', execCallT1Expiry n s = .next t' ∧ Only [.call] s t' := by
  refine ⟨_, rfl, ?_⟩
  repeat' first
    | with_reducible exact Only.refl _ _
    | decide
    | with_reducible apply Only.ite
    | with_reducible apply Only.dite
    | with_reducible apply Only.after (callDue_only _ _ _)
    | intro _
    | split
    | dsimp only

theorem execCallT2Expiry_only (n : Fin 257) (s : State) :
    ∃ t', execCallT2Expiry n s = .next t' ∧ Only [.call] s t' := by
  refine ⟨_, rfl, ?_⟩
  repeat' first
    | with_reducible exact Only.refl _ _
    | decide
    | with_reducible apply Only.ite
    | with_reducible apply Only.dite
    | with_reducible apply Only.after (callDue_only _ _ _)
    | intro _
    | split
    | dsimp only

theorem execCallT3Expiry_only (n : Fin 257) (s : State) :
    ∃ t', execCallT3Expiry n s = .next t' ∧ Only [.call] s t' := by
  refine ⟨_, rfl, ?_⟩
  repeat' first
    | with_reducible exact Only.refl _ _
    | decide
    | with_reducible apply Only.ite
    | with_reducible apply Only.dite
    | with_reducible apply Only.after (callDue_only _ _ _)
    | intro _
    | split
    | dsimp only

theorem execCallClearedExpiry_only (n : Fin 257) (s : State) :
    ∃ t', execCallClearedExpiry n s = .next t' ∧ Only [.call] s t' := by
  refine ⟨_, rfl, ?_⟩
  repeat' first
    | with_reducible exact Only.refl _ _
    | decide
    | with_reducible apply Only.ite
    | with_reducible apply Only.dite
    | with_reducible apply Only.after (callDue_only _ _ _)
    | intro _
    | split
    | dsimp only

theorem execCallStepRepeat_only (n : Fin 257) (s : State) :
    ∃ t', execCallStepRepeat n s = .next t' ∧ Only [.evr, .can, .call] s t' := by
  refine ⟨_, rfl, ?_⟩
  repeat' first
    | with_reducible exact Only.refl _ _
    | decide
    | with_reducible apply Only.ite
    | with_reducible apply Only.dite
    | with_reducible apply Only.after (callRepeat_only _ _ _)
    | intro _
    | split
    | dsimp only

theorem execCallClearRepeat_only (n : Fin 257) (s : State) :
    ∃ t', execCallClearRepeat n s = .next t' ∧ Only [.evr, .can, .call] s t' := by
  refine ⟨_, rfl, ?_⟩
  repeat' first
    | with_reducible exact Only.refl _ _
    | decide
    | with_reducible apply Only.ite
    | with_reducible apply Only.dite
    | with_reducible apply Only.after (callRepeat_only _ _ _)
    | intro _
    | split
    | dsimp only

theorem execCallUnitLost_only (u : Fin 64) (s : State) :
    ∃ t', execCallUnitLost u s = .next t' ∧ Only [.evr, .call] s t' := by
  refine ⟨_, rfl, ?_⟩
  repeat' first
    | with_reducible exact Only.refl _ _
    | decide
    | with_reducible apply Only.ite
    | with_reducible apply Only.dite
    | with_reducible apply Only.after (unitGone_only _ _)
    | intro _
    | split
    | dsimp only

theorem execCallCmdSelectDuty_only (src : Source) (eng : BitVec 5) (session : BitVec 9) (s : State) :
    ∃ t', execCallCmdSelectDuty src eng session s = .next t' ∧ Only [.call, .lvn] s t' := by
  refine ⟨_, rfl, ?_⟩
  repeat' first
    | with_reducible exact Only.refl _ _
    | decide
    | with_reducible apply Only.ite
    | with_reducible apply Only.dite
    | with_reducible apply Only.after (callCmdWrite_only _ _ _ _ _)
    | intro _
    | split
    | dsimp only

theorem execCallCmdAckCall_only (src : Source) (eng : BitVec 5) (session : BitVec 9) (s : State) :
    ∃ t', execCallCmdAckCall src eng session s = .next t' ∧ Only [.call, .lvn] s t' := by
  refine ⟨_, rfl, ?_⟩
  repeat' first
    | with_reducible exact Only.refl _ _
    | decide
    | with_reducible apply Only.ite
    | with_reducible apply Only.dite
    | with_reducible apply Only.after (callCmdWrite_only _ _ _ _ _)
    | intro _
    | split
    | dsimp only

theorem execCallCmdBadOp_only (src : Source) (session : BitVec 9) (s : State) :
    ∃ t', execCallCmdBadOp src session s = .next t' ∧ Only [.call, .lvn] s t' := by
  refine ⟨_, rfl, ?_⟩
  repeat' first
    | with_reducible exact Only.refl _ _
    | decide
    | with_reducible apply Only.ite
    | with_reducible apply Only.dite
    | with_reducible apply Only.after (callCmdWrite_only _ _ _ _ _)
    | intro _
    | split
    | dsimp only

end Sys2Proof.Machine
end

