-- ==== Sys2Proof/Laws/FrameImz.lean ====
section
/-! SUPPORT. Imz: the parts of the state that each operation of Machine/Imz may change. -/
namespace Sys2Proof.Machine

open Sys2Proof

theorem imzTook_only (cls typ : Nat) (f : ImzRx) (s : State) :
    Only [.can] s (imzTook cls typ f s) := by
  unfold imzTook
  repeat' first
    | with_reducible exact Only.refl _ _
    | decide
    | with_reducible apply Only.ite
    | with_reducible apply Only.dite
    | with_reducible apply Only.after (State.setCan_only _ _ _)
    | intro _
    | split
    | dsimp only

theorem imzRx_only {l : List Part} {s : State} (typ : Nat) (f : ImzRx) (act : State → State) (t : State) (h : ∀ u, Only l u (act u))
    (k : Part.sub [.can] l = true) (g : Only l s t) : Only l s (imzRx typ f act t) := by
  unfold imzRx
  repeat' first
    | assumption
    | with_reducible exact Only.refl _ _
    | with_reducible apply Only.after (h _)
    | with_reducible apply Only.after (h _ _)
    | exact Part.sub_refl _
    | with_reducible apply Only.ite
    | with_reducible apply Only.dite
    | with_reducible apply Only.after (imzTook_only _ _ _ _) (Part.sub_trans (by decide) k)
    | intro _
    | split
    | dsimp only

theorem imzClaim_only (s : State) :
    Only [.evr, .can] s (imzClaim s) := by
  unfold imzClaim
  repeat' first
    | with_reducible exact Only.refl _ _
    | decide
    | with_reducible apply Only.ite
    | with_reducible apply Only.dite
    | with_reducible apply Only.after (imzUp_only _ _)
    | with_reducible apply Only.after (imzDown_only _ _)
    | intro _
    | split
    | dsimp only

theorem enterConflict_only (s : State) :
    Only [.evr, .imz] s (enterConflict s) := by
  unfold enterConflict
  repeat' first
    | with_reducible exact Only.refl _ _
    | decide
    | with_reducible apply Only.ite
    | with_reducible apply Only.dite
    | with_reducible apply Only.after (imzEvent_only _ _ _)
    | with_reducible apply Only.after (State.setImz_only _ _)
    | intro _
    | split
    | dsimp only

theorem imzConflict_only (node : Half) (a b : BitVec 64) (s : State) :
    Only [.evr, .can] s (imzConflict node a b s) := by
  unfold imzConflict
  repeat' first
    | with_reducible exact Only.refl _ _
    | decide
    | with_reducible apply Only.ite
    | with_reducible apply Only.dite
    | with_reducible apply Only.after (imzSendDown_only _ _ _ _ _)
    | intro _
    | split
    | dsimp only

theorem claimTable_only (f : ImzRx) (unitB : Bool) (s : State) :
    Only [.evr, .can, .imz] s (claimTable f unitB s) := by
  unfold claimTable
  repeat' first
    | with_reducible exact Only.refl _ _
    | decide
    | with_reducible apply Only.ite
    | with_reducible apply Only.dite
    | with_reducible apply Only.after (State.setImz_only _ _)
    | with_reducible apply Only.after (imzUp_only _ _)
    | with_reducible apply Only.after (imzConflict_only _ _ _ _)
    | intro _
    | split
    | dsimp only

theorem bareClaim_only (f : ImzRx) (s : State) :
    Only [.evr, .imz] s (bareClaim f s) := by
  unfold bareClaim
  repeat' first
    | with_reducible exact Only.refl _ _
    | decide
    | with_reducible apply Only.ite
    | with_reducible apply Only.dite
    | with_reducible apply Only.after (imzEvent_only _ _ _)
    | with_reducible apply Only.after (State.setImz_only _ _)
    | intro _
    | split
    | dsimp only

theorem claimRx_only (f : ImzRx) (unitB : Bool) (s : State) :
    Only [.evr, .can, .imz] s (claimRx f unitB s) := by
  unfold claimRx
  repeat' first
    | with_reducible exact Only.refl _ _
    | decide
    | with_reducible apply Only.ite
    | with_reducible apply Only.dite
    | with_reducible apply Only.after (bareClaim_only _ _)
    | with_reducible apply Only.after (enterConflict_only _)
    | with_reducible apply Only.after (claimTable_only _ _ _)
    | intro _
    | split
    | dsimp only

theorem imzDataError_only (s : State) :
    Only [.evr, .can, .imz] s (imzDataError s) := by
  unfold imzDataError
  repeat' first
    | with_reducible exact Only.refl _ _
    | decide
    | with_reducible apply Only.ite
    | with_reducible apply Only.dite
    | with_reducible apply Only.foldl
    | with_reducible apply Only.after (State.setImz_only _ _)
    | with_reducible apply Only.after (imzClaim_only _)
    | intro _
    | split
    | dsimp only

theorem netJoin_only (s : State) :
    Only [.sys, .evr, .can, .imz] s (netJoin s) := by
  unfold netJoin
  repeat' first
    | with_reducible exact Only.refl _ _
    | decide
    | with_reducible apply Only.ite
    | with_reducible apply Only.dite
    | with_reducible apply Only.foldl
    | with_reducible apply Only.after (canSetMode_only _ _ _)
    | with_reducible apply Only.after (State.setCan_only _ _ _)
    | with_reducible apply Only.after (imzClaim_only _)
    | with_reducible apply Only.after (State.setImz_only _ _)
    | intro _
    | split
    | dsimp only

theorem beatOn_only (k : Fin 4) (dormant fault : Bool) (s : State) :
    Only [.evr, .can, .imz] s (beatOn k dormant fault s) := by
  unfold beatOn
  repeat' first
    | with_reducible exact Only.refl _ _
    | decide
    | with_reducible apply Only.ite
    | with_reducible apply Only.dite
    | with_reducible apply Only.after (canSubmit_only _ _ _)
    | with_reducible apply Only.after (State.setImz_only _ _)
    | intro _
    | split
    | dsimp only

theorem imzBeat_only (dormant fault : Bool) (s : State) :
    Only [.evr, .can, .imz] s (imzBeat dormant fault s) := by
  unfold imzBeat
  repeat' first
    | with_reducible exact Only.refl _ _
    | decide
    | with_reducible apply Only.ite
    | with_reducible apply Only.dite
    | with_reducible apply Only.after (State.setImz_only _ _)
    | with_reducible apply Only.after (beatOn_only _ _ _ _)
    | intro _
    | split
    | dsimp only

theorem mgrSeen_only (s : State) :
    Only [.evr, .can, .imz] s (mgrSeen s) := by
  unfold mgrSeen
  repeat' first
    | with_reducible exact Only.refl _ _
    | decide
    | with_reducible apply Only.ite
    | with_reducible apply Only.dite
    | with_reducible apply Only.after (imzDrain_only _)
    | with_reducible apply Only.after (imzEvent_only _ _ _)
    | with_reducible apply Only.after (State.setImz_only _ _)
    | intro _
    | split
    | dsimp only

theorem beatRx_only (f : ImzRx) (s : State) :
    Only [.evr, .can, .imz] s (beatRx f s) := by
  unfold beatRx
  repeat' first
    | with_reducible exact Only.refl _ _
    | decide
    | with_reducible apply Only.ite
    | with_reducible apply Only.dite
    | with_reducible apply Only.after (mgrSeen_only _)
    | with_reducible apply Only.after (State.setImz_only _ _)
    | intro _
    | split
    | dsimp only

theorem tableSet_only (a : Nat) (e : Half) (s : State) :
    Only [.imz] s (tableSet a e s) := by
  unfold tableSet
  repeat' first
    | with_reducible exact Only.refl _ _
    | decide
    | with_reducible apply Only.ite
    | with_reducible apply Only.dite
    | with_reducible apply Only.after (State.setImz_only _ _)
    | intro _
    | split
    | dsimp only

theorem tableStale_only (pick : Nat → Bool) (s : State) :
    Only [.imz] s (tableStale pick s) := by
  unfold tableStale
  repeat' first
    | with_reducible exact Only.refl _ _
    | decide
    | with_reducible apply Only.ite
    | with_reducible apply Only.dite
    | with_reducible apply Only.after (State.setImz_only _ _)
    | intro _
    | split
    | dsimp only

theorem suppress_only (node : Half) (s : State) :
    Only [.evr, .imz] s (suppress node s) := by
  unfold suppress
  repeat' first
    | with_reducible exact Only.refl _ _
    | decide
    | with_reducible apply Only.ite
    | with_reducible apply Only.dite
    | with_reducible apply Only.after (State.setImz_only _ _)
    | with_reducible apply Only.after (imzEvent_only _ _ _)
    | intro _
    | split
    | dsimp only

theorem forwardAlarm_only (typ : Nat) (f : ImzRx) (addr : Nat) (onset : Ts) (emergency : Bool) (s : State) :
    Only [.evr, .can, .imz] s (forwardAlarm typ f addr onset emergency s) := by
  unfold forwardAlarm
  repeat' first
    | with_reducible exact Only.refl _ _
    | decide
    | with_reducible apply Only.ite
    | with_reducible apply Only.dite
    | with_reducible apply Only.after (imzUp_only _ _)
    | with_reducible apply Only.after (State.setImz_only _ _)
    | with_reducible apply Only.after (suppress_only _ _)
    | intro _
    | split
    | dsimp only

theorem grpFrame_only (e : TrEntry) (full : Bool) (src : Half) (s : State) :
    Only [.evr, .can, .ann, .grp, .call, .imz] s (grpFrame e full src s) := by
  unfold grpFrame
  repeat' first
    | with_reducible exact Only.refl _ _
    | decide
    | with_reducible apply Only.ite
    | with_reducible apply Only.dite
    | with_reducible apply Only.after (grpDropped_only _ _)
    | with_reducible apply Only.after (State.setCall_only _ _)
    | with_reducible apply Only.after (grpTrans_only _ _ _ _)
    | intro _
    | split
    | dsimp only

theorem recSubtree_only (e : TrEntry) (s : State) :
    Only [.recd] s (recSubtree e s) := by
  unfold recSubtree
  repeat' first
    | with_reducible exact Only.refl _ _
    | decide
    | with_reducible apply Only.ite
    | with_reducible apply Only.dite
    | with_reducible apply Only.after (State.setRec_only _ _)
    | intro _
    | split
    | dsimp only

theorem almTransRx_only (f : ImzRx) (full : Bool) (s : State) :
    Only [.evr, .can, .ann, .grp, .call, .imz, .recd] s (almTransRx f full s) := by
  unfold almTransRx
  repeat' first
    | with_reducible exact Only.refl _ _
    | decide
    | with_reducible apply Only.ite
    | with_reducible apply Only.dite
    | with_reducible apply Only.after (grpFrame_only _ _ _ _)
    | with_reducible apply Only.after (tableSet_only _ _ _)
    | with_reducible apply Only.after (recSubtree_only _ _)
    | with_reducible apply Only.after (forwardAlarm_only _ _ _ _ _ _)
    | intro _
    | split
    | dsimp only

theorem noticeRx_only (typ : Nat) (f : ImzRx) (full : Bool) (s : State) :
    Only [.evr, .can, .ann, .grp, .call, .imz] s (noticeRx typ f full s) := by
  unfold noticeRx
  repeat' first
    | with_reducible exact Only.refl _ _
    | decide
    | with_reducible apply Only.ite
    | with_reducible apply Only.dite
    | with_reducible apply Only.after (grpDropped_only _ _)
    | with_reducible apply Only.after (grpPend_only _ _ _ _)
    | with_reducible apply Only.after (grpRetract_only _ _ _)
    | with_reducible apply Only.after (forwardAlarm_only _ _ _ _ _ _)
    | intro _
    | split
    | dsimp only

theorem floodSend_only (s : State) :
    Only [.evr, .can] s (floodSend s) := by
  unfold floodSend
  repeat' first
    | with_reducible exact Only.refl _ _
    | decide
    | with_reducible apply Only.ite
    | with_reducible apply Only.dite
    | with_reducible apply Only.foldl
    | with_reducible apply Only.after (imzSendUp_only _ _ _ _ _)
    | intro _
    | split
    | dsimp only

theorem floodRx_only (f : ImzRx) (s : State) :
    Only [.evr, .grp, .imz] s (floodRx f s) := by
  unfold floodRx
  repeat' first
    | with_reducible exact Only.refl _ _
    | decide
    | with_reducible apply Only.ite
    | with_reducible apply Only.dite
    | with_reducible apply Only.foldl
    | with_reducible apply Only.after (State.setImz_only _ _)
    | with_reducible apply Only.after (grpIncomplete_only _ _ _)
    | with_reducible apply Only.after (imzEvent_only _ _ _)
    | intro _
    | split
    | dsimp only

theorem floodAsk_only (s : State) :
    Only [.evr, .can, .imz] s (floodAsk s) := by
  unfold floodAsk
  repeat' first
    | with_reducible exact Only.refl _ _
    | decide
    | with_reducible apply Only.ite
    | with_reducible apply Only.dite
    | with_reducible apply Only.foldl
    | with_reducible apply Only.after (imzStateReq_only _ _)
    | with_reducible apply Only.after (State.setImz_only _ _)
    | intro _
    | split
    | dsimp only

theorem floodEnd_only (s : State) :
    Only [.evr, .can, .imz] s (floodEnd s) := by
  unfold floodEnd
  repeat' first
    | with_reducible exact Only.refl _ _
    | decide
    | with_reducible apply Only.ite
    | with_reducible apply Only.dite
    | with_reducible apply Only.after (floodAsk_only _)
    | with_reducible apply Only.after (imzEvent_only _ _ _)
    | with_reducible apply Only.after (State.setImz_only _ _)
    | intro _
    | split
    | dsimp only

theorem reportRx_only (f : ImzRx) (s : State) :
    Only [.evr, .can, .ann, .grp, .call, .imz] s (reportRx f s) := by
  unfold reportRx
  repeat' first
    | with_reducible exact Only.refl _ _
    | decide
    | with_reducible apply Only.ite
    | with_reducible apply Only.dite
    | with_reducible apply Only.foldl
    | with_reducible apply Only.after (grpReport_only _ _ _ _)
    | with_reducible apply Only.after (tableSet_only _ _ _)
    | with_reducible apply Only.after (grpIncomplete_only _ _ _)
    | with_reducible apply Only.after (imzUp_only _ _)
    | intro _
    | split
    | dsimp only

theorem digestSend_only (s : State) :
    Only [.evr, .can, .imz] s (digestSend s) := by
  unfold digestSend
  repeat' first
    | with_reducible exact Only.refl _ _
    | decide
    | with_reducible apply Only.ite
    | with_reducible apply Only.dite
    | with_reducible apply Only.after (imzSendUp_only _ _ _ _ _)
    | with_reducible apply Only.after (State.setImz_only _ _)
    | intro _
    | split
    | dsimp only

theorem digestRx_only (f : ImzRx) (s : State) :
    Only [.imz] s (digestRx f s) := by
  unfold digestRx
  repeat' first
    | with_reducible exact Only.refl _ _
    | decide
    | with_reducible apply Only.ite
    | with_reducible apply Only.dite
    | with_reducible apply Only.after (State.setImz_only _ _)
    | intro _
    | split
    | dsimp only

theorem memberGone_only (m : Fin 64) (s : State) :
    Only [.evr, .imz] s (memberGone m s) := by
  unfold memberGone
  repeat' first
    | with_reducible exact Only.refl _ _
    | decide
    | with_reducible apply Only.ite
    | with_reducible apply Only.dite
    | with_reducible apply Only.after (imzEvent_only _ _ _)
    | with_reducible apply Only.after (tableStale_only _ _)
    | with_reducible apply Only.after (State.setImz_only _ _)
    | intro _
    | split
    | dsimp only

theorem memberSeen_only (node : Half) (s : State) :
    Only [.evr, .can, .imz] s (memberSeen node s) := by
  unfold memberSeen
  repeat' first
    | with_reducible exact Only.refl _ _
    | decide
    | with_reducible apply Only.ite
    | with_reducible apply Only.dite
    | with_reducible apply Only.after (imzStateReq_only _ _)
    | with_reducible apply Only.after (imzEvent_only _ _ _)
    | with_reducible apply Only.after (State.setImz_only _ _)
    | intro _
    | split
    | dsimp only

theorem mgrGone_only (s : State) :
    Only [.evr, .imz] s (mgrGone s) := by
  unfold mgrGone
  repeat' first
    | with_reducible exact Only.refl _ _
    | decide
    | with_reducible apply Only.ite
    | with_reducible apply Only.dite
    | with_reducible apply Only.after (imzEvent_only _ _ _)
    | with_reducible apply Only.after (State.setImz_only _ _)
    | intro _
    | split
    | dsimp only

theorem imzRoute_only (cls typ : Nat) (target : Half) (f : ImzRx) (s : State) :
    Only [.evr, .can] s (imzRoute cls typ target f s).2 := by
  unfold imzRoute
  repeat' first
    | with_reducible exact Only.refl _ _
    | decide
    | with_reducible apply Only.ite
    | with_reducible apply Only.dite
    | with_reducible apply Only.iteSnd
    | with_reducible apply Only.after (imzDown_only _ _)
    | with_reducible apply Only.after (imzUp_only _ _)
    | intro _
    | split
    | dsimp only

theorem cmdRoute_only (f : ImzRx) (s : State) :
    Only [.evr, .can] s (cmdRoute f s) := by
  unfold cmdRoute
  repeat' first
    | with_reducible exact Only.refl _ _
    | decide
    | with_reducible apply Only.ite
    | with_reducible apply Only.dite
    | with_reducible apply Only.after (imzRoute_only _ _ _ _ _)
    | with_reducible apply Only.after (imzSendDown_only _ _ _ _ _)
    | intro _
    | split
    | dsimp only

theorem imzRelay_only (cls typ : Nat) (f : ImzRx) (s : State) :
    Only [.evr, .can] s (imzRelay cls typ f s) := by
  unfold imzRelay
  repeat' first
    | with_reducible exact Only.refl _ _
    | decide
    | with_reducible apply Only.ite
    | with_reducible apply Only.dite
    | with_reducible apply Only.after (imzDown_only _ _)
    | intro _
    | split
    | dsimp only

theorem rspRx_only (f : ImzRx) (s : State) :
    Only [.evr, .can, .imz] s (rspRx f s) := by
  unfold rspRx
  repeat' first
    | with_reducible exact Only.refl _ _
    | decide
    | with_reducible apply Only.ite
    | with_reducible apply Only.dite
    | with_reducible apply Only.after (State.setImz_only _ _)
    | with_reducible apply Only.after (imzRoute_only _ _ _ _ _)
    | intro _
    | split
    | dsimp only

theorem rspTimeout_only (tag : Byte) (s : State) :
    Only [.evr, .can, .imz] s (rspTimeout tag s) := by
  unfold rspTimeout
  repeat' first
    | with_reducible exact Only.refl _ _
    | decide
    | with_reducible apply Only.ite
    | with_reducible apply Only.dite
    | with_reducible apply Only.after (imzToward_only _ _ _ _ _)
    | with_reducible apply Only.after (State.setImz_only _ _)
    | intro _
    | split
    | dsimp only

theorem callAckRx_only (f : ImzRx) (s : State) :
    Only [.evr, .can, .call, .lvn] s (callAckRx f s) := by
  unfold callAckRx
  repeat' first
    | with_reducible exact Only.refl _ _
    | decide
    | with_reducible apply Only.ite
    | with_reducible apply Only.dite
    | with_reducible apply Only.after (State.setCall_only _ _)
    | with_reducible apply Only.after (imzUp_only _ _)
    | with_reducible apply Only.set_lvn
    | intro _
    | split
    | dsimp only

theorem noticeWon_only (k : Fin 4) (b : Fin 32) (s : State) :
    Only [.imz] s (noticeWon k b s) := by
  unfold noticeWon
  repeat' first
    | with_reducible exact Only.refl _ _
    | decide
    | with_reducible apply Only.ite
    | with_reducible apply Only.dite
    | with_reducible apply Only.after (setNotice_only _ _ _ _)
    | intro _
    | split
    | dsimp only

theorem noticeClose_only (s : State) (n : Notice) :
    Only [.evr, .can, .imz] s (noticeClose s n) := by
  unfold noticeClose
  repeat' first
    | with_reducible exact Only.refl _ _
    | decide
    | with_reducible apply Only.ite
    | with_reducible apply Only.dite
    | with_reducible apply Only.after (retractSend_only _ _ _ _)
    | with_reducible apply Only.after (dropNotice_only _ _ _)
    | intro _
    | split
    | dsimp only

theorem refSent_only (k : Fin 4) (b : Fin 32) (age : Nat) (s : State) :
    Only [.tim] s (refSent k b age s) := by
  unfold refSent
  repeat' first
    | with_reducible exact Only.refl _ _
    | decide
    | with_reducible apply Only.ite
    | with_reducible apply Only.dite
    | with_reducible apply Only.set_tim
    | intro _
    | split
    | dsimp only

theorem attemptEnd_only (k : Fin 4) (b : Fin 32) (e : TxEnd) (tdcv : Option (BitVec 8)) (age : Nat) (s : State) :
    Only [.evr, .can, .imz, .tim] s (attemptEnd k b e tdcv age s) := by
  unfold attemptEnd
  repeat' first
    | with_reducible exact Only.refl _ _
    | decide
    | with_reducible apply Only.ite
    | with_reducible apply Only.dite
    | with_reducible apply Only.foldl
    | with_reducible apply Only.after (refSent_only _ _ _ _)
    | with_reducible apply Only.after (noticeWon_only _ _ _)
    | with_reducible apply Only.after (canAttempt_only _ _ _ _ _ _)
    | with_reducible apply Only.after (imzDrain_only _)
    | with_reducible apply Only.after (noticeClose_only _ _)
    | intro _
    | split
    | dsimp only

theorem execAddrClaimSend_only (s : State) :
    ∃ t', execAddrClaimSend s = .next t' ∧ Only [.evr, .can] s t' := by
  refine ⟨_, rfl, ?_⟩
  repeat' first
    | with_reducible exact Only.refl _ _
    | decide
    | with_reducible apply Only.ite
    | with_reducible apply Only.dite
    | with_reducible apply Only.after (imzClaim_only _)
    | intro _
    | split
    | dsimp only

theorem execHeartbeatSend_only (s : State) :
    ∃ t', execHeartbeatSend s = .next t' ∧ Only [.evr, .can, .imz] s t' := by
  refine ⟨_, rfl, ?_⟩
  repeat' first
    | with_reducible exact Only.refl _ _
    | decide
    | with_reducible apply Only.ite
    | with_reducible apply Only.dite
    | with_reducible apply Only.after (imzBeat_only _ _ _)
    | intro _
    | split
    | dsimp only

theorem execAddrClaimReceived_only (f : ImzRx) (unitB : Bool) (s : State) :
    ∃ t', execAddrClaimReceived f unitB s = .next t' ∧ Only [.evr, .can, .imz] s t' := by
  refine ⟨_, rfl, ?_⟩
  repeat' first
    | with_reducible exact Only.refl _ _
    | decide
    | with_reducible apply Only.ite
    | with_reducible apply Only.dite
    | with_reducible apply Only.after (claimRx_only _ _ _)
    | with_reducible apply Only.after (imzTook_only _ _ _ _)
    | intro _
    | split
    | dsimp only

theorem execAddressConflictProbeEnd_only (s : State) :
    ∃ t', execAddressConflictProbeEnd s = .next t' ∧ Only [.imz] s t' := by
  refine ⟨_, rfl, ?_⟩
  repeat' first
    | with_reducible exact Only.refl _ _
    | decide
    | with_reducible apply Only.ite
    | with_reducible apply Only.dite
    | with_reducible apply Only.after (State.setImz_only _ _)
    | intro _
    | split
    | dsimp only

theorem execAlmTransReceived_only (f : ImzRx) (full : Bool) (s : State) :
    ∃ t', execAlmTransReceived f full s = .next t' ∧ Only [.evr, .can, .ann, .grp, .call, .imz, .recd] s t' := by
  refine ⟨_, rfl, ?_⟩
  repeat' first
    | with_reducible exact Only.refl _ _
    | decide
    | with_reducible apply Only.ite
    | with_reducible apply Only.dite
    | with_reducible apply imzRx_only
    | with_reducible apply Only.after (almTransRx_only _ _ _)
    | intro _
    | split
    | dsimp only

theorem execAlmPendingReceived_only (f : ImzRx) (full : Bool) (s : State) :
    ∃ t', execAlmPendingReceived f full s = .next t' ∧ Only [.evr, .can, .ann, .grp, .call, .imz] s t' := by
  refine ⟨_, rfl, ?_⟩
  repeat' first
    | with_reducible exact Only.refl _ _
    | decide
    | with_reducible apply Only.ite
    | with_reducible apply Only.dite
    | with_reducible apply imzRx_only
    | with_reducible apply Only.after (noticeRx_only _ _ _ _)
    | intro _
    | split
    | dsimp only

theorem execAlmRetractReceived_only (f : ImzRx) (full : Bool) (s : State) :
    ∃ t', execAlmRetractReceived f full s = .next t' ∧ Only [.evr, .can, .ann, .grp, .call, .imz] s t' := by
  refine ⟨_, rfl, ?_⟩
  repeat' first
    | with_reducible exact Only.refl _ _
    | decide
    | with_reducible apply Only.ite
    | with_reducible apply Only.dite
    | with_reducible apply imzRx_only
    | with_reducible apply Only.after (noticeRx_only _ _ _ _)
    | intro _
    | split
    | dsimp only

theorem execAlmFrameRelease_only (s : State) :
    ∃ t', execAlmFrameRelease s = .next t' ∧ Only [.evr, .can, .imz] s t' := by
  refine ⟨_, rfl, ?_⟩
  repeat' first
    | with_reducible exact Only.refl _ _
    | decide
    | with_reducible apply Only.ite
    | with_reducible apply Only.dite
    | with_reducible apply Only.after (imzDrain_only _)
    | with_reducible apply Only.after (State.setImz_only _ _)
    | intro _
    | split
    | dsimp only

theorem execFloodDigestSend_only (s : State) :
    ∃ t', execFloodDigestSend s = .next t' ∧ Only [.evr, .can] s t' := by
  refine ⟨_, rfl, ?_⟩
  repeat' first
    | with_reducible exact Only.refl _ _
    | decide
    | with_reducible apply Only.ite
    | with_reducible apply Only.dite
    | with_reducible apply Only.after (floodSend_only _)
    | intro _
    | split
    | dsimp only

theorem execFloodDigestReceived_only (f : ImzRx) (s : State) :
    ∃ t', execFloodDigestReceived f s = .next t' ∧ Only [.evr, .can, .grp, .imz] s t' := by
  refine ⟨_, rfl, ?_⟩
  repeat' first
    | with_reducible exact Only.refl _ _
    | decide
    | with_reducible apply Only.ite
    | with_reducible apply Only.dite
    | with_reducible apply imzRx_only
    | with_reducible apply Only.after (floodRx_only _ _)
    | intro _
    | split
    | dsimp only

theorem execFloodEnd_only (s : State) :
    ∃ t', execFloodEnd s = .next t' ∧ Only [.evr, .can, .imz] s t' := by
  refine ⟨_, rfl, ?_⟩
  repeat' first
    | with_reducible exact Only.refl _ _
    | decide
    | with_reducible apply Only.ite
    | with_reducible apply Only.dite
    | with_reducible apply Only.after (floodEnd_only _)
    | intro _
    | split
    | dsimp only

theorem execFloodStateReqPace_only (s : State) :
    ∃ t', execFloodStateReqPace s = .next t' ∧ Only [.evr, .can, .imz] s t' := by
  refine ⟨_, rfl, ?_⟩
  repeat' first
    | with_reducible exact Only.refl _ _
    | decide
    | with_reducible apply Only.ite
    | with_reducible apply Only.dite
    | with_reducible apply Only.after (floodAsk_only _)
    | intro _
    | split
    | dsimp only

theorem execCallStepReceived_only (f : ImzRx) (s : State) :
    ∃ t', execCallStepReceived f s = .next t' ∧ Only [.evr, .can] s t' := by
  refine ⟨_, rfl, ?_⟩
  repeat' first
    | with_reducible exact Only.refl _ _
    | decide
    | with_reducible apply Only.ite
    | with_reducible apply Only.dite
    | with_reducible apply imzRx_only
    | with_reducible apply Only.after (imzRelay_only _ _ _ _)
    | intro _
    | split
    | dsimp only

theorem execCallAckReceived_only (f : ImzRx) (s : State) :
    ∃ t', execCallAckReceived f s = .next t' ∧ Only [.evr, .can, .call, .lvn] s t' := by
  refine ⟨_, rfl, ?_⟩
  repeat' first
    | with_reducible exact Only.refl _ _
    | decide
    | with_reducible apply Only.ite
    | with_reducible apply Only.dite
    | with_reducible apply imzRx_only
    | with_reducible apply Only.after (callAckRx_only _ _)
    | intro _
    | split
    | dsimp only

theorem execPointStateSweep_only (s : State) :
    ∃ t', execPointStateSweep s = .next t' ∧ Only [.evr, .can, .imz] s t' := by
  refine ⟨_, rfl, ?_⟩
  repeat' first
    | with_reducible exact Only.refl _ _
    | decide
    | with_reducible apply Only.ite
    | with_reducible apply Only.dite
    | with_reducible apply Only.after (imzReport_only _ _ _)
    | intro _
    | split
    | dsimp only

theorem execPointStateReceived_only (f : ImzRx) (s : State) :
    ∃ t', execPointStateReceived f s = .next t' ∧ Only [.evr, .can, .ann, .grp, .call, .imz] s t' := by
  refine ⟨_, rfl, ?_⟩
  repeat' first
    | with_reducible exact Only.refl _ _
    | decide
    | with_reducible apply Only.ite
    | with_reducible apply Only.dite
    | with_reducible apply imzRx_only
    | with_reducible apply Only.after (reportRx_only _ _)
    | intro _
    | split
    | dsimp only

theorem execDigestSend_only (s : State) :
    ∃ t', execDigestSend s = .next t' ∧ Only [.evr, .can, .imz] s t' := by
  refine ⟨_, rfl, ?_⟩
  repeat' first
    | with_reducible exact Only.refl _ _
    | decide
    | with_reducible apply Only.ite
    | with_reducible apply Only.dite
    | with_reducible apply Only.after (digestSend_only _)
    | intro _
    | split
    | dsimp only

theorem execDigestReceived_only (f : ImzRx) (s : State) :
    ∃ t', execDigestReceived f s = .next t' ∧ Only [.can, .imz] s t' := by
  refine ⟨_, rfl, ?_⟩
  repeat' first
    | with_reducible exact Only.refl _ _
    | decide
    | with_reducible apply Only.ite
    | with_reducible apply Only.dite
    | with_reducible apply imzRx_only
    | with_reducible apply Only.after (digestRx_only _ _)
    | intro _
    | split
    | dsimp only

theorem execMemberLost_only (m : Fin 64) (s : State) :
    ∃ t', execMemberLost m s = .next t' ∧ Only [.evr, .imz] s t' := by
  refine ⟨_, rfl, ?_⟩
  repeat' first
    | with_reducible exact Only.refl _ _
    | decide
    | with_reducible apply Only.ite
    | with_reducible apply Only.dite
    | with_reducible apply Only.after (memberGone_only _ _)
    | intro _
    | split
    | dsimp only

theorem execMgrLost_only (s : State) :
    ∃ t', execMgrLost s = .next t' ∧ Only [.evr, .imz] s t' := by
  refine ⟨_, rfl, ?_⟩
  repeat' first
    | with_reducible exact Only.refl _ _
    | decide
    | with_reducible apply Only.ite
    | with_reducible apply Only.dite
    | with_reducible apply Only.after (mgrGone_only _)
    | intro _
    | split
    | dsimp only

theorem execRspReceived_only (f : ImzRx) (s : State) :
    ∃ t', execRspReceived f s = .next t' ∧ Only [.evr, .can, .imz] s t' := by
  refine ⟨_, rfl, ?_⟩
  repeat' first
    | with_reducible exact Only.refl _ _
    | decide
    | with_reducible apply Only.ite
    | with_reducible apply Only.dite
    | with_reducible apply imzRx_only
    | with_reducible apply Only.after (rspRx_only _ _)
    | intro _
    | split
    | dsimp only

theorem execCmdRspTimeout_only (tag : Byte) (s : State) :
    ∃ t', execCmdRspTimeout tag s = .next t' ∧ Only [.evr, .can, .imz] s t' := by
  refine ⟨_, rfl, ?_⟩
  repeat' first
    | with_reducible exact Only.refl _ _
    | decide
    | with_reducible apply Only.ite
    | with_reducible apply Only.dite
    | with_reducible apply Only.after (rspTimeout_only _ _)
    | intro _
    | split
    | dsimp only

theorem execCmdTagExpiry_only (node : Half) (tag : Byte) (s : State) :
    ∃ t', execCmdTagExpiry node tag s = .next t' ∧ Only [.imz] s t' := by
  refine ⟨_, rfl, ?_⟩
  repeat' first
    | with_reducible exact Only.refl _ _
    | decide
    | with_reducible apply Only.ite
    | with_reducible apply Only.dite
    | with_reducible apply Only.after (State.setImz_only _ _)
    | intro _
    | split
    | dsimp only

theorem execCanTxAttemptEnd_only (k : Fin 4) (b : Fin 32) (e : TxEnd) (tdcv : Option (BitVec 8)) (age : Nat) (s : State) :
    ∃ t', execCanTxAttemptEnd k b e tdcv age s = .next t' ∧ Only [.evr, .can, .imz, .tim] s t' := by
  refine ⟨_, rfl, ?_⟩
  repeat' first
    | with_reducible exact Only.refl _ _
    | decide
    | with_reducible apply Only.ite
    | with_reducible apply Only.dite
    | with_reducible apply Only.after (attemptEnd_only _ _ _ _ _ _)
    | intro _
    | split
    | dsimp only

end Sys2Proof.Machine
end

