-- ==== Sys2Proof/Laws/FrameSlice.lean ====
section
/-! SUPPORT. Slice: the parts of the state that each operation of Machine/Slice may change. -/
namespace Sys2Proof.Machine

open Sys2Proof

theorem commitNext_only (s : State) :
    Only [.recd, .mmc] s (commitNext s) := by
  unfold commitNext
  repeat' first
    | with_reducible exact Only.refl _ _
    | decide
    | with_reducible apply Only.ite
    | with_reducible apply Only.dite
    | with_reducible apply Only.after (State.setRec_only _ _)
    | with_reducible apply Only.after (State.setMmc_only _ _)
    | intro _
    | split
    | dsimp only

theorem sliceLost_only (n : Nat) (s : State) :
    Only [.evr, .recd] s (sliceLost n s) := by
  unfold sliceLost
  repeat' first
    | with_reducible exact Only.refl _ _
    | decide
    | with_reducible apply Only.ite
    | with_reducible apply Only.dite
    | with_reducible apply Only.after (recEvent_only _ _ _)
    | with_reducible apply Only.after (State.setRec_only _ _)
    | intro _
    | split
    | dsimp only

theorem slicePush_only (n : Nat) (d : List Byte) (s : State) :
    Only [.evr, .recd, .mmc] s (slicePush n d s) := by
  unfold slicePush
  repeat' first
    | with_reducible exact Only.refl _ _
    | decide
    | with_reducible apply Only.ite
    | with_reducible apply Only.dite
    | with_reducible apply Only.after (sliceLost_only _ _)
    | with_reducible apply Only.after (State.setRec_only _ _)
    | with_reducible apply Only.after (commitNext_only _)
    | intro _
    | split
    | dsimp only

theorem sliceClose_only (n : Fin 80) (s : State) :
    Only [.evr, .pev, .recd, .mmc] s (sliceClose n s) := by
  unfold sliceClose
  repeat' first
    | with_reducible exact Only.refl _ _
    | decide
    | with_reducible apply Only.ite
    | with_reducible apply Only.dite
    | with_reducible apply Only.after (slicePush_only _ _ _)
    | with_reducible apply Only.after (State.setPt_only _ _ _)
    | intro _
    | split
    | dsimp only

theorem slicePoint_only (s : State) (n : Fin 80) :
    Only [.evr, .pev, .recd, .mmc] s (slicePoint s n) := by
  unfold slicePoint
  repeat' first
    | with_reducible exact Only.refl _ _
    | decide
    | with_reducible apply Only.ite
    | with_reducible apply Only.dite
    | with_reducible apply Only.after (sliceClose_only _ _)
    | with_reducible apply Only.after (State.setPt_only _ _ _)
    | intro _
    | split
    | dsimp only

theorem sliceScanEnd_only (s : State) :
    Only [.evr, .pev, .recd, .mmc] s (sliceScanEnd s) := by
  unfold sliceScanEnd
  repeat' first
    | with_reducible exact Only.refl _ _
    | decide
    | with_reducible apply Only.ite
    | with_reducible apply Only.dite
    | with_reducible apply Only.foldl
    | with_reducible apply Only.after (slicePoint_only _ _)
    | intro _
    | split
    | dsimp only

theorem sliceShort_only (n : Fin 80) (s : State) :
    Only [.evr, .pev, .recd, .mmc] s (sliceShort n s) := by
  unfold sliceShort
  repeat' first
    | with_reducible exact Only.refl _ _
    | decide
    | with_reducible apply Only.ite
    | with_reducible apply Only.dite
    | with_reducible apply Only.after (sliceClose_only _ _)
    | with_reducible apply Only.after (State.setPt_only _ _ _)
    | intro _
    | split
    | dsimp only

theorem sliceStep_only (t : Nat) (s : State) (n : Fin 80) :
    Only [.evr, .pev, .recd, .mmc] s (sliceStep t s n) := by
  unfold sliceStep
  repeat' first
    | with_reducible exact Only.refl _ _
    | decide
    | with_reducible apply Only.ite
    | with_reducible apply Only.dite
    | with_reducible apply Only.after (slicePush_only _ _ _)
    | with_reducible apply Only.after (State.setPt_only _ _ _)
    | intro _
    | split
    | dsimp only

theorem sliceTakeover_only (s : State) :
    Only [.pev] s (sliceTakeover s) := by
  unfold sliceTakeover
  repeat' first
    | with_reducible exact Only.refl _ _
    | decide
    | with_reducible apply Only.ite
    | with_reducible apply Only.dite
    | with_reducible apply Only.foldl
    | with_reducible apply Only.after (State.setPt_only _ _ _)
    | intro _
    | split
    | dsimp only

theorem ringFound_only (s : State) :
    Only [.evr, .recd] s (ringFound s) := by
  unfold ringFound
  repeat' first
    | with_reducible exact Only.refl _ _
    | decide
    | with_reducible apply Only.ite
    | with_reducible apply Only.dite
    | with_reducible apply Only.after (State.setRec_only _ _)
    | with_reducible apply Only.after (recEvent_only _ _ _)
    | intro _
    | split
    | dsimp only

theorem recStore_only (e : TrEntry) (s : State) :
    Only [.evr, .recd, .mmc] s (recStore e s) := by
  unfold recStore
  repeat' first
    | with_reducible exact Only.refl _ _
    | decide
    | with_reducible apply Only.ite
    | with_reducible apply Only.dite
    | with_reducible apply Only.after (recLose_only _ _)
    | with_reducible apply Only.after (commitNext_only _)
    | with_reducible apply Only.after (State.setRec_only _ _)
    | with_reducible apply Only.after (ringFound_only _)
    | intro _
    | split
    | dsimp only

theorem recEntry_only (sub : Bool) (s : State) :
    Only [.evr, .ann, .recd, .mmc] s (recEntry sub s) := by
  unfold recEntry
  repeat' first
    | with_reducible exact Only.refl _ _
    | decide
    | with_reducible apply Only.ite
    | with_reducible apply Only.dite
    | with_reducible apply Only.after (recStore_only _ _)
    | with_reducible apply Only.after (State.setRec_only _ _)
    | with_reducible apply Only.after (State.setAnn_only _ _)
    | intro _
    | split
    | dsimp only

theorem execSliceClose_only (n : Fin 80) (s : State) :
    ∃ t', execSliceClose n s = .next t' ∧ Only [.evr, .pev, .recd, .mmc] s t' := by
  refine ⟨_, rfl, ?_⟩
  repeat' first
    | with_reducible exact Only.refl _ _
    | decide
    | with_reducible apply Only.ite
    | with_reducible apply Only.dite
    | with_reducible apply Only.after (sliceClose_only _ _)
    | intro _
    | split
    | dsimp only

theorem execRecEntry_only (sub : Bool) (s : State) :
    ∃ t', execRecEntry sub s = .next t' ∧ Only [.evr, .ann, .recd, .mmc] s t' := by
  refine ⟨_, rfl, ?_⟩
  repeat' first
    | with_reducible exact Only.refl _ _
    | decide
    | with_reducible apply Only.ite
    | with_reducible apply Only.dite
    | with_reducible apply Only.after (recEntry_only _ _)
    | intro _
    | split
    | dsimp only

theorem execSliceFlushExpiry_only (s : State) :
    ∃ t', execSliceFlushExpiry s = .next t' ∧ Only [.recd, .mmc] s t' := by
  refine ⟨_, rfl, ?_⟩
  repeat' first
    | with_reducible exact Only.refl _ _
    | decide
    | with_reducible apply Only.ite
    | with_reducible apply Only.dite
    | with_reducible apply Only.after (commitNext_only _)
    | with_reducible apply Only.after (State.setRec_only _ _)
    | intro _
    | split
    | dsimp only

theorem execRingFlushExpiry_only (s : State) :
    ∃ t', execRingFlushExpiry s = .next t' ∧ Only [.recd, .mmc] s t' := by
  refine ⟨_, rfl, ?_⟩
  repeat' first
    | with_reducible exact Only.refl _ _
    | decide
    | with_reducible apply Only.ite
    | with_reducible apply Only.dite
    | with_reducible apply Only.after (commitNext_only _)
    | with_reducible apply Only.after (State.setRec_only _ _)
    | intro _
    | split
    | dsimp only

end Sys2Proof.Machine
end

