-- ==== Sys2Proof/Laws/FrameTim.lean ====
section
/-! SUPPORT. Tim: the parts of the state that each operation of Machine/Tim may change. -/
namespace Sys2Proof.Machine

open Sys2Proof

theorem State.setTim_only (s : State) (f : Tim → Tim) :
    Only [.tim] s (State.setTim s f) := by
  unfold State.setTim
  repeat' first
    | with_reducible exact Only.refl _ _
    | decide
    | with_reducible apply Only.ite
    | with_reducible apply Only.dite
    | with_reducible apply Only.set_tim
    | intro _
    | split
    | dsimp only

theorem timEnter_only (st : TimState) (s : State) :
    Only [.evr, .tim] s (timEnter st s) := by
  unfold timEnter
  repeat' first
    | with_reducible exact Only.refl _ _
    | decide
    | with_reducible apply Only.ite
    | with_reducible apply Only.dite
    | with_reducible apply Only.after (timEvent_only _ _ _)
    | with_reducible apply Only.after (State.setTim_only _ _)
    | intro _
    | split
    | dsimp only

theorem timStep_only (d : Int) (s : State) :
    Only [.now, .sys, .evr, .pev, .call, .tim, .recd, .mmc] s (timStep d s) := by
  unfold timStep
  repeat' first
    | with_reducible exact Only.refl _ _
    | decide
    | with_reducible apply Only.ite
    | with_reducible apply Only.dite
    | with_reducible apply Only.foldl
    | with_reducible apply Only.after (sliceStep_only _ _ _)
    | with_reducible apply Only.after (callShift_only _ _)
    | with_reducible apply Only.after (timEvent_only _ _ _)
    | with_reducible apply Only.after (State.setTim_only _ _)
    | with_reducible apply Only.set_now_sys_pev
    | intro _
    | split
    | dsimp only

theorem timSlew_only (s : State) :
    Only [.drawn, .tim] s (timSlew s) := by
  unfold timSlew
  repeat' first
    | with_reducible exact Only.refl _ _
    | decide
    | with_reducible apply Only.ite
    | with_reducible apply Only.dite
    | with_reducible apply Only.after (State.setTim_only _ _)
    | with_reducible apply Only.after (State.drew_only _)
    | intro _
    | split
    | dsimp only

theorem timRx_only {l : List Part} {s : State} (typ n : Nat) (f : ImzRx) (act : State → State) (t : State) (h : ∀ u, Only l u (act u))
    (k : Part.sub [.can] l = true) (g : Only l s t) : Only l s (timRx typ n f act t) := by
  unfold timRx
  repeat' first
    | assumption
    | with_reducible exact Only.refl _ _
    | with_reducible apply Only.after (h _)
    | with_reducible apply Only.after (h _ _)
    | exact Part.sub_refl _
    | with_reducible apply Only.ite
    | with_reducible apply Only.dite
    | with_reducible apply Only.after (imzTook_only _ _ _ _) (Part.sub_trans (by decide) k)
    | intro _
    | split
    | dsimp only

theorem refRx_only (f : ImzRx) (s : State) :
    Only [.evr, .can, .imz, .tim] s (refRx f s) := by
  unfold refRx
  repeat' first
    | with_reducible exact Only.refl _ _
    | decide
    | with_reducible apply Only.ite
    | with_reducible apply Only.dite
    | with_reducible apply Only.after (mgrSeen_only _)
    | with_reducible apply Only.after (State.setTim_only _ _)
    | intro _
    | split
    | dsimp only

theorem timPair_only (theta : Int) (s : State) :
    Only [.now, .drawn, .sys, .evr, .pev, .call, .tim, .recd, .mmc] s (timPair theta s) := by
  unfold timPair
  repeat' first
    | with_reducible exact Only.refl _ _
    | decide
    | with_reducible apply Only.ite
    | with_reducible apply Only.dite
    | with_reducible apply Only.after (State.setTim_only _ _)
    | with_reducible apply Only.after (timStep_only _ _)
    | with_reducible apply Only.after (timSlew_only _)
    | with_reducible apply Only.after (timEnter_only _ _)
    | intro _
    | split
    | dsimp only

theorem followRx_only (f : ImzRx) (s : State) :
    Only [.now, .drawn, .sys, .evr, .pev, .call, .tim, .recd, .mmc] s (followRx f s) := by
  unfold followRx
  repeat' first
    | with_reducible exact Only.refl _ _
    | decide
    | with_reducible apply Only.ite
    | with_reducible apply Only.dite
    | with_reducible apply Only.after (State.setTim_only _ _)
    | with_reducible apply Only.after (timEvent_only _ _ _)
    | with_reducible apply Only.after (timPair_only _ _)
    | intro _
    | split
    | dsimp only

theorem timHoldover_only (s : State) :
    Only [.evr, .tim] s (timHoldover s) := by
  unfold timHoldover
  repeat' first
    | with_reducible exact Only.refl _ _
    | decide
    | with_reducible apply Only.ite
    | with_reducible apply Only.dite
    | with_reducible apply Only.after (timEnter_only _ _)
    | intro _
    | split
    | dsimp only

theorem timFree_only (s : State) :
    Only [.evr, .tim] s (timFree s) := by
  unfold timFree
  repeat' first
    | with_reducible exact Only.refl _ _
    | decide
    | with_reducible apply Only.ite
    | with_reducible apply Only.dite
    | with_reducible apply Only.after (timEnter_only _ _)
    | with_reducible apply Only.after (State.setTim_only _ _)
    | intro _
    | split
    | dsimp only

theorem refSend_only (s : State) :
    Only [.evr, .can, .tim] s (refSend s) := by
  unfold refSend
  repeat' first
    | with_reducible exact Only.refl _ _
    | decide
    | with_reducible apply Only.ite
    | with_reducible apply Only.dite
    | with_reducible apply Only.after (imzSendDown_only _ _ _ _ _)
    | with_reducible apply Only.after (State.setTim_only _ _)
    | intro _
    | split
    | dsimp only

theorem followSend_only (k : Fin 2) (s : State) :
    Only [.evr, .can, .tim] s (followSend k s) := by
  unfold followSend
  repeat' first
    | with_reducible exact Only.refl _ _
    | decide
    | with_reducible apply Only.ite
    | with_reducible apply Only.dite
    | with_reducible apply Only.after (canSubmit_only _ _ _)
    | with_reducible apply Only.after (State.setTim_only _ _)
    | intro _
    | split
    | dsimp only

theorem timMaster_only (s : State) :
    Only [.evr, .tim] s (timMaster s) := by
  unfold timMaster
  repeat' first
    | with_reducible exact Only.refl _ _
    | decide
    | with_reducible apply Only.ite
    | with_reducible apply Only.dite
    | with_reducible apply Only.after (timEnter_only _ _)
    | with_reducible apply Only.after (State.setTim_only _ _)
    | intro _
    | split
    | dsimp only

theorem timTrace_only (b : Bool) (s : State) :
    Only [.evr, .tim] s (timTrace b s) := by
  unfold timTrace
  repeat' first
    | with_reducible exact Only.refl _ _
    | decide
    | with_reducible apply Only.ite
    | with_reducible apply Only.dite
    | with_reducible apply Only.after (timEvent_only _ _ _)
    | with_reducible apply Only.after (State.setTim_only _ _)
    | intro _
    | split
    | dsimp only

theorem syncPulse_only (s : State) :
    Only [.now, .drawn, .sys, .evr, .pev, .call, .tim, .recd, .mmc] s (syncPulse s) := by
  unfold syncPulse
  repeat' first
    | with_reducible exact Only.refl _ _
    | decide
    | with_reducible apply Only.ite
    | with_reducible apply Only.dite
    | with_reducible apply Only.after (State.setTim_only _ _)
    | with_reducible apply Only.after (timStep_only _ _)
    | with_reducible apply Only.after (timSlew_only _)
    | with_reducible apply Only.after (timTrace_only _ _)
    | intro _
    | split
    | dsimp only

theorem timSet_only (t : Ts) (s : State) :
    Only [.now, .sys, .evr, .pev, .call, .tim, .recd, .mmc] s (timSet t s).2 := by
  unfold timSet
  repeat' first
    | with_reducible exact Only.refl _ _
    | decide
    | with_reducible apply Only.ite
    | with_reducible apply Only.dite
    | with_reducible apply Only.iteSnd
    | with_reducible apply Only.after (timStep_only _ _)
    | intro _
    | split
    | dsimp only

theorem timSetAtPulse_only (t : Ts) (s : State) :
    Only [.tim] s (timSetAtPulse t s).2 := by
  unfold timSetAtPulse
  repeat' first
    | with_reducible exact Only.refl _ _
    | decide
    | with_reducible apply Only.ite
    | with_reducible apply Only.dite
    | with_reducible apply Only.iteSnd
    | with_reducible apply Only.after (State.setTim_only _ _)
    | intro _
    | split
    | dsimp only

theorem timCmd_only (src : Source) (atPulse : Bool) (s : State) :
    Only [.now, .sys, .evr, .pev, .call, .tim, .recd, .mmc] s (timCmd src atPulse s) := by
  unfold timCmd
  repeat' first
    | with_reducible exact Only.refl _ _
    | decide
    | with_reducible apply Only.ite
    | with_reducible apply Only.dite
    | with_reducible apply Only.after (timSetAtPulse_only _ _)
    | with_reducible apply Only.after (timSet_only _ _)
    | with_reducible apply Only.after (logWerr_only _ _ _ _)
    | intro _
    | split
    | dsimp only

theorem execTimeRefSend_only (s : State) :
    ∃ t', execTimeRefSend s = .next t' ∧ Only [.evr, .can, .tim] s t' := by
  refine ⟨_, rfl, ?_⟩
  repeat' first
    | with_reducible exact Only.refl _ _
    | decide
    | with_reducible apply Only.ite
    | with_reducible apply Only.dite
    | with_reducible apply Only.after (refSend_only _)
    | intro _
    | split
    | dsimp only

theorem execTimeFollowSend_only (d : Bool) (s : State) :
    ∃ t', execTimeFollowSend d s = .next t' ∧ Only [.evr, .can, .tim] s t' := by
  refine ⟨_, rfl, ?_⟩
  repeat' first
    | with_reducible exact Only.refl _ _
    | decide
    | with_reducible apply Only.ite
    | with_reducible apply Only.dite
    | with_reducible apply Only.after (followSend_only _ _)
    | intro _
    | split
    | dsimp only

theorem execTimeRefReceived_only (f : ImzRx) (s : State) :
    ∃ t', execTimeRefReceived f s = .next t' ∧ Only [.evr, .can, .imz, .tim] s t' := by
  refine ⟨_, rfl, ?_⟩
  repeat' first
    | with_reducible exact Only.refl _ _
    | decide
    | with_reducible apply Only.ite
    | with_reducible apply Only.dite
    | with_reducible apply timRx_only
    | with_reducible apply Only.after (refRx_only _ _)
    | intro _
    | split
    | dsimp only

theorem execTimHoldover_only (s : State) :
    ∃ t', execTimHoldover s = .next t' ∧ Only [.evr, .tim] s t' := by
  refine ⟨_, rfl, ?_⟩
  repeat' first
    | with_reducible exact Only.refl _ _
    | decide
    | with_reducible apply Only.ite
    | with_reducible apply Only.dite
    | with_reducible apply Only.after (timHoldover_only _)
    | intro _
    | split
    | dsimp only

theorem execSyncInPulse_only (ok : Bool) (s : State) :
    ∃ t', execSyncInPulse ok s = .next t' ∧ Only [.now, .drawn, .sys, .evr, .pev, .call, .tim, .recd, .mmc] s t' := by
  refine ⟨_, rfl, ?_⟩
  repeat' first
    | with_reducible exact Only.refl _ _
    | decide
    | with_reducible apply Only.ite
    | with_reducible apply Only.dite
    | with_reducible apply Only.after (syncPulse_only _)
    | intro _
    | split
    | dsimp only

theorem execSyncInLoss_only (s : State) :
    ∃ t', execSyncInLoss s = .next t' ∧ Only [.evr, .tim] s t' := by
  refine ⟨_, rfl, ?_⟩
  repeat' first
    | with_reducible exact Only.refl _ _
    | decide
    | with_reducible apply Only.ite
    | with_reducible apply Only.dite
    | with_reducible apply Only.after (timTrace_only _ _)
    | with_reducible apply Only.after (State.setTim_only _ _)
    | intro _
    | split
    | dsimp only

theorem execSyncOutPulse_only (s : State) :
    ∃ t', execSyncOutPulse s = .next t' ∧ Only [.sys] s t' := by
  refine ⟨_, rfl, ?_⟩
  repeat' first
    | with_reducible exact Only.refl _ _
    | decide
    | with_reducible apply Only.ite
    | with_reducible apply Only.dite
    | with_reducible apply Only.set_sys
    | intro _
    | split
    | dsimp only

theorem execTimSet_only (src : Source) (s : State) :
    ∃ t', execTimSet src s = .next t' ∧ Only [.now, .sys, .evr, .pev, .call, .tim, .recd, .mmc] s t' := by
  refine ⟨_, rfl, ?_⟩
  repeat' first
    | with_reducible exact Only.refl _ _
    | decide
    | with_reducible apply Only.ite
    | with_reducible apply Only.dite
    | with_reducible apply Only.after (timCmd_only _ _ _)
    | intro _
    | split
    | dsimp only

theorem execTimSetAtPulse_only (src : Source) (s : State) :
    ∃ t', execTimSetAtPulse src s = .next t' ∧ Only [.now, .sys, .evr, .pev, .call, .tim, .recd, .mmc] s t' := by
  refine ⟨_, rfl, ?_⟩
  repeat' first
    | with_reducible exact Only.refl _ _
    | decide
    | with_reducible apply Only.ite
    | with_reducible apply Only.dite
    | with_reducible apply Only.after (timCmd_only _ _ _)
    | intro _
    | split
    | dsimp only

end Sys2Proof.Machine
end

