-- ==== Sys2Proof/Laws/FrameRec.lean ====
section
/-! SUPPORT. Rec: the parts of the state that each operation of Machine/Rec may change. -/
namespace Sys2Proof.Machine

open Sys2Proof

theorem sectorPut_only (n : Nat) (d : List Byte) (s : State) :
    Only [.mmc] s (sectorPut n d s) := by
  unfold sectorPut
  repeat' first
    | with_reducible exact Only.refl _ _
    | decide
    | with_reducible apply Only.ite
    | with_reducible apply Only.dite
    | with_reducible apply Only.after (State.setMmc_only _ _)
    | intro _
    | split
    | dsimp only

theorem checkpoint_only (s : State) :
    Only [.recd, .mmc] s (checkpoint s) := by
  unfold checkpoint
  repeat' first
    | with_reducible exact Only.refl _ _
    | decide
    | with_reducible apply Only.ite
    | with_reducible apply Only.dite
    | with_reducible apply Only.after (State.setRec_only _ _)
    | with_reducible apply Only.after (sectorPut_only _ _ _)
    | intro _
    | split
    | dsimp only

theorem commitWrite_only (c : Commit) (s : State) :
    Only [.mmc] s (commitWrite c s) := by
  unfold commitWrite
  repeat' first
    | with_reducible exact Only.refl _ _
    | decide
    | with_reducible apply Only.ite
    | with_reducible apply Only.dite
    | with_reducible apply Only.foldl
    | with_reducible apply Only.after (sectorPut_only _ _ _)
    | intro _
    | split
    | dsimp only

theorem commitDone_only (s : State) :
    Only [.recd, .mmc] s (commitDone s) := by
  unfold commitDone
  repeat' first
    | with_reducible exact Only.refl _ _
    | decide
    | with_reducible apply Only.ite
    | with_reducible apply Only.dite
    | with_reducible apply Only.after (commitWrite_only _ _)
    | with_reducible apply Only.after (State.setRec_only _ _)
    | with_reducible apply Only.after (State.setMmc_only _ _)
    | with_reducible apply Only.after (commitNext_only _)
    | with_reducible apply Only.after (checkpoint_only _)
    | intro _
    | split
    | dsimp only

theorem flushPages_only (s : State) :
    Only [.recd, .mmc] s (flushPages s) := by
  unfold flushPages
  repeat' first
    | with_reducible exact Only.refl _ _
    | decide
    | with_reducible apply Only.ite
    | with_reducible apply Only.dite
    | with_reducible apply Only.after (commitNext_only _)
    | with_reducible apply Only.after (State.setRec_only _ _)
    | intro _
    | split
    | dsimp only

theorem recFormat_only (s : State) :
    Only [.drawn, .evr, .ao, .dio, .recd, .mmc] s (recFormat s) := by
  unfold recFormat
  repeat' first
    | with_reducible exact Only.refl _ _
    | decide
    | with_reducible apply Only.ite
    | with_reducible apply Only.dite
    | with_reducible apply Only.after (State.drew_only _)
    | with_reducible apply Only.after (State.setRec_only _ _)
    | with_reducible apply Only.after (recEvent_only _ _ _)
    | with_reducible apply Only.after (checkpoint_only _)
    | with_reducible apply Only.after (sectorPut_only _ _ _)
    | with_reducible apply Only.set_ao_dio
    | intro _
    | split
    | dsimp only

theorem recDescriptor_only (s : State) :
    Only [.drawn, .evr, .ao, .dio, .recd, .mmc] s (recDescriptor s) := by
  unfold recDescriptor
  repeat' first
    | with_reducible exact Only.refl _ _
    | decide
    | with_reducible apply Only.ite
    | with_reducible apply Only.dite
    | with_reducible apply Only.after (State.setRec_only _ _)
    | with_reducible apply Only.after (recFormat_only _)
    | intro _
    | split
    | dsimp only

theorem recRecovery_only (s : State) :
    Only [.drawn, .evr, .ao, .dio, .recd, .mmc] s (recRecovery s) := by
  unfold recRecovery
  repeat' first
    | with_reducible exact Only.refl _ _
    | decide
    | with_reducible apply Only.ite
    | with_reducible apply Only.dite
    | with_reducible apply Only.after (recDescriptor_only _)
    | with_reducible apply Only.after (recEvent_only _ _ _)
    | with_reducible apply Only.after (State.setRec_only _ _)
    | intro _
    | split
    | dsimp only

theorem recRecovered_only (s : State) :
    Only [.evr, .recd, .mmc] s (recRecovered s) := by
  unfold recRecovered
  repeat' first
    | with_reducible exact Only.refl _ _
    | decide
    | with_reducible apply Only.ite
    | with_reducible apply Only.dite
    | with_reducible apply Only.after (raise_only _ _ _)
    | with_reducible apply Only.after (State.setRec_only _ _)
    | with_reducible apply Only.after (commitNext_only _)
    | with_reducible apply Only.after (recEvent_only _ _ _)
    | intro _
    | split
    | dsimp only

theorem recStop_only (stop : Bool) (s : State) :
    Only [.recd, .mmc] s (recStop stop s) := by
  unfold recStop
  repeat' first
    | with_reducible exact Only.refl _ _
    | decide
    | with_reducible apply Only.ite
    | with_reducible apply Only.dite
    | with_reducible apply Only.after (flushPages_only _)
    | with_reducible apply Only.after (State.setRec_only _ _)
    | with_reducible apply Only.after (checkpoint_only _)
    | with_reducible apply Only.after (commitNext_only _)
    | intro _
    | split
    | dsimp only

theorem recFormatCmd_only (src : Source) (key : Byte) (s : State) :
    Only [.drawn, .sys, .evr, .ao, .dio, .recd, .mmc] s (recFormatCmd src key s) := by
  unfold recFormatCmd
  repeat' first
    | with_reducible exact Only.refl _ _
    | decide
    | with_reducible apply Only.ite
    | with_reducible apply Only.dite
    | with_reducible apply Only.after (logWerr_only _ _ _ _)
    | with_reducible apply Only.after (recFormat_only _)
    | intro _
    | split
    | dsimp only

theorem recRead_only (op : Nat) (ring : Bool) (s : State) :
    Only [.recd] s (recRead op ring s) := by
  unfold recRead
  repeat' first
    | with_reducible exact Only.refl _ _
    | decide
    | with_reducible apply Only.ite
    | with_reducible apply Only.dite
    | with_reducible apply Only.after (State.setRec_only _ _)
    | intro _
    | split
    | dsimp only

theorem recReadDone_only (media : Bool) (s : State) :
    Only [.drawn, .evr, .recd] s (recReadDone media s) := by
  unfold recReadDone
  repeat' first
    | with_reducible exact Only.refl _ _
    | decide
    | with_reducible apply Only.ite
    | with_reducible apply Only.dite
    | with_reducible apply Only.after (State.setRec_only _ _)
    | with_reducible apply Only.after (recEvent_only _ _ _)
    | with_reducible apply Only.after (State.drew_only _)
    | intro _
    | split
    | dsimp only

theorem xferSend_only (s : State) :
    Only [.evr, .can, .imz] s (xferSend s) := by
  unfold xferSend
  repeat' first
    | with_reducible exact Only.refl _ _
    | decide
    | with_reducible apply Only.ite
    | with_reducible apply Only.dite
    | with_reducible apply Only.foldl
    | with_reducible apply Only.after (imzToward_only _ _ _ _ _)
    | with_reducible apply Only.after (State.setImz_only _ _)
    | intro _
    | split
    | dsimp only

theorem xferRequest_only (f : ImzRx) (s : State) :
    Only [.drawn, .evr, .can, .imz, .recd] s (xferRequest f s) := by
  unfold xferRequest
  repeat' first
    | with_reducible exact Only.refl _ _
    | decide
    | with_reducible apply Only.ite
    | with_reducible apply Only.dite
    | with_reducible apply Only.after (imzToward_only _ _ _ _ _)
    | with_reducible apply Only.after (State.setRec_only _ _)
    | with_reducible apply Only.after (State.drew_only _)
    | with_reducible apply Only.after (xferSend_only _)
    | with_reducible apply Only.after (State.setImz_only _ _)
    | intro _
    | split
    | dsimp only

theorem xferData_only (f : ImzRx) (s : State) :
    Only [.imz] s (xferData f s) := by
  unfold xferData
  repeat' first
    | with_reducible exact Only.refl _ _
    | decide
    | with_reducible apply Only.ite
    | with_reducible apply Only.dite
    | with_reducible apply Only.after (State.setImz_only _ _)
    | intro _
    | split
    | dsimp only

theorem xferEnd_only (f : ImzRx) (s : State) :
    Only [.imz] s (xferEnd f s) := by
  unfold xferEnd
  repeat' first
    | with_reducible exact Only.refl _ _
    | decide
    | with_reducible apply Only.ite
    | with_reducible apply Only.dite
    | with_reducible apply Only.after (State.setImz_only _ _)
    | intro _
    | split
    | dsimp only

theorem mmcError_only (cmd : Nat) (s : State) :
    Only [.evr, .recd, .mmc] s (mmcError cmd s) := by
  unfold mmcError
  repeat' first
    | with_reducible exact Only.refl _ _
    | decide
    | with_reducible apply Only.ite
    | with_reducible apply Only.dite
    | with_reducible apply Only.after (mmcEvent_only _ _ _)
    | with_reducible apply Only.after (State.setMmc_only _ _)
    | with_reducible apply Only.after (recEvent_only _ _ _)
    | with_reducible apply Only.after (State.setRec_only _ _)
    | intro _
    | split
    | dsimp only

theorem mmcReinit_only (cmd : Nat) (ok : Bool) (s : State) :
    Only [.evr, .recd, .mmc] s (mmcReinit cmd ok s) := by
  unfold mmcReinit
  repeat' first
    | with_reducible exact Only.refl _ _
    | decide
    | with_reducible apply Only.ite
    | with_reducible apply Only.dite
    | with_reducible apply Only.after (State.setMmc_only _ _)
    | with_reducible apply Only.after (mmcError_only _ _)
    | with_reducible apply Only.after (mmcEvent_only _ _ _)
    | intro _
    | split
    | dsimp only

theorem mmcFail_only (crc : Bool) (cmd : BitVec 6) (rsp : Word) (ok : Bool) (s : State) :
    Only [.evr, .recd, .mmc] s (mmcFail crc cmd rsp ok s) := by
  unfold mmcFail
  repeat' first
    | with_reducible exact Only.refl _ _
    | decide
    | with_reducible apply Only.ite
    | with_reducible apply Only.dite
    | with_reducible apply Only.after (State.setMmc_only _ _)
    | with_reducible apply Only.after (mmcReinit_only _ _ _)
    | intro _
    | split
    | dsimp only

theorem mmcTimer_only (ok : Bool) (s : State) :
    Only [.drawn, .evr, .ao, .dio, .recd, .mmc] s (mmcTimer ok s) := by
  unfold mmcTimer
  repeat' first
    | with_reducible exact Only.refl _ _
    | decide
    | with_reducible apply Only.ite
    | with_reducible apply Only.dite
    | with_reducible apply Only.after (recRecovery_only _)
    | with_reducible apply Only.after (mmcEvent_only _ _ _)
    | with_reducible apply Only.after (State.setMmc_only _ _)
    | intro _
    | split
    | dsimp only

theorem inKep_only {l : List Part} {s : State} (f : State → State) (t : State) (h : ∀ u, Only l u (f u))
    (_ : Part.sub [] l = true) (g : Only l s t) : Only l s (inKep f t) := by
  unfold inKep
  repeat' first
    | assumption
    | with_reducible exact Only.refl _ _
    | with_reducible apply Only.after (h _)
    | with_reducible apply Only.after (h _ _)
    | exact Part.sub_refl _
    | with_reducible apply Only.ite
    | with_reducible apply Only.dite
    | intro _
    | split
    | dsimp only

theorem execRecFlush_only (s : State) :
    ∃ t', execRecFlush s = .next t' ∧ Only [.recd, .mmc] s t' := by
  refine ⟨_, rfl, ?_⟩
  repeat' first
    | with_reducible exact Only.refl _ _
    | decide
    | with_reducible apply Only.ite
    | with_reducible apply Only.dite
    | with_reducible apply inKep_only
    | with_reducible apply Only.after (flushPages_only _)
    | intro _
    | split
    | dsimp only

theorem execPageCommitDone_only (s : State) :
    ∃ t', execPageCommitDone s = .next t' ∧ Only [.recd, .mmc] s t' := by
  refine ⟨_, rfl, ?_⟩
  repeat' first
    | with_reducible exact Only.refl _ _
    | decide
    | with_reducible apply Only.ite
    | with_reducible apply Only.dite
    | with_reducible apply inKep_only
    | with_reducible apply Only.after (commitDone_only _)
    | intro _
    | split
    | dsimp only

theorem execRecCommitTimeout_only (s : State) :
    ∃ t', execRecCommitTimeout s = .next t' ∧ Only [.mmc] s t' := by
  refine ⟨_, rfl, ?_⟩
  repeat' first
    | with_reducible exact Only.refl _ _
    | decide
    | with_reducible apply Only.ite
    | with_reducible apply Only.dite
    | with_reducible apply Only.after (State.setMmc_only _ _)
    | intro _
    | split
    | dsimp only

theorem execCheckpointTimer_only (s : State) :
    ∃ t', execCheckpointTimer s = .next t' ∧ Only [.recd, .mmc] s t' := by
  refine ⟨_, rfl, ?_⟩
  repeat' first
    | with_reducible exact Only.refl _ _
    | decide
    | with_reducible apply Only.ite
    | with_reducible apply Only.dite
    | with_reducible apply inKep_only
    | with_reducible apply Only.after (checkpoint_only _)
    | intro _
    | split
    | dsimp only

theorem execRecRecovery_only (s : State) :
    ∃ t', execRecRecovery s = .next t' ∧ Only [.drawn, .evr, .ao, .dio, .recd, .mmc] s t' := by
  refine ⟨_, rfl, ?_⟩
  repeat' first
    | with_reducible exact Only.refl _ _
    | decide
    | with_reducible apply Only.ite
    | with_reducible apply Only.dite
    | with_reducible apply Only.after (recRecovery_only _)
    | intro _
    | split
    | dsimp only

theorem execRecRecoveryDone_only (s : State) :
    ∃ t', execRecRecoveryDone s = .next t' ∧ Only [.evr, .recd, .mmc] s t' := by
  refine ⟨_, rfl, ?_⟩
  repeat' first
    | with_reducible exact Only.refl _ _
    | decide
    | with_reducible apply Only.ite
    | with_reducible apply Only.dite
    | with_reducible apply inKep_only
    | with_reducible apply Only.after (recRecovered_only _)
    | intro _
    | split
    | dsimp only

theorem execRecFormat_only (src : Source) (key : Byte) (s : State) :
    ∃ t', execRecFormat src key s = .next t' ∧ Only [.drawn, .sys, .evr, .ao, .dio, .recd, .mmc] s t' := by
  refine ⟨_, rfl, ?_⟩
  repeat' first
    | with_reducible exact Only.refl _ _
    | decide
    | with_reducible apply Only.ite
    | with_reducible apply Only.dite
    | with_reducible apply inKep_only
    | with_reducible apply Only.after (recFormatCmd_only _ _ _)
    | intro _
    | split
    | dsimp only

theorem execRecStop_only (stop : Bool) (s : State) :
    ∃ t', execRecStop stop s = .next t' ∧ Only [.recd, .mmc] s t' := by
  refine ⟨_, rfl, ?_⟩
  repeat' first
    | with_reducible exact Only.refl _ _
    | decide
    | with_reducible apply Only.ite
    | with_reducible apply Only.dite
    | with_reducible apply inKep_only
    | with_reducible apply Only.after (recStop_only _ _)
    | intro _
    | split
    | dsimp only

theorem execRecReadSeq_only (ring : Bool) (s : State) :
    ∃ t', execRecReadSeq ring s = .next t' ∧ Only [.recd] s t' := by
  refine ⟨_, rfl, ?_⟩
  repeat' first
    | with_reducible exact Only.refl _ _
    | decide
    | with_reducible apply Only.ite
    | with_reducible apply Only.dite
    | with_reducible apply inKep_only
    | with_reducible apply Only.after (recRead_only _ _ _)
    | intro _
    | split
    | dsimp only

theorem execRecFindTime_only (ring : Bool) (s : State) :
    ∃ t', execRecFindTime ring s = .next t' ∧ Only [.recd] s t' := by
  refine ⟨_, rfl, ?_⟩
  repeat' first
    | with_reducible exact Only.refl _ _
    | decide
    | with_reducible apply Only.ite
    | with_reducible apply Only.dite
    | with_reducible apply inKep_only
    | with_reducible apply Only.after (recRead_only _ _ _)
    | intro _
    | split
    | dsimp only

theorem execRecReadNext_only (ring : Bool) (s : State) :
    ∃ t', execRecReadNext ring s = .next t' ∧ Only [.recd] s t' := by
  refine ⟨_, rfl, ?_⟩
  repeat' first
    | with_reducible exact Only.refl _ _
    | decide
    | with_reducible apply Only.ite
    | with_reducible apply Only.dite
    | with_reducible apply inKep_only
    | with_reducible apply Only.after (recRead_only _ _ _)
    | intro _
    | split
    | dsimp only

theorem execRecReadOpen_only (ring : Bool) (s : State) :
    ∃ t', execRecReadOpen ring s = .next t' ∧ Only [.recd] s t' := by
  refine ⟨_, rfl, ?_⟩
  repeat' first
    | with_reducible exact Only.refl _ _
    | decide
    | with_reducible apply Only.ite
    | with_reducible apply Only.dite
    | with_reducible apply inKep_only
    | with_reducible apply Only.after (recRead_only _ _ _)
    | intro _
    | split
    | dsimp only

theorem execRecReadDone_only (media : Bool) (s : State) :
    ∃ t', execRecReadDone media s = .next t' ∧ Only [.drawn, .evr, .recd] s t' := by
  refine ⟨_, rfl, ?_⟩
  repeat' first
    | with_reducible exact Only.refl _ _
    | decide
    | with_reducible apply Only.ite
    | with_reducible apply Only.dite
    | with_reducible apply inKep_only
    | with_reducible apply Only.after (recReadDone_only _ _)
    | intro _
    | split
    | dsimp only

theorem execMmcCommandFail_only (crc : Bool) (cmd : BitVec 6) (rsp : Word) (ok : Bool) (s : State) :
    ∃ t', execMmcCommandFail crc cmd rsp ok s = .next t' ∧ Only [.evr, .recd, .mmc] s t' := by
  refine ⟨_, rfl, ?_⟩
  repeat' first
    | with_reducible exact Only.refl _ _
    | decide
    | with_reducible apply Only.ite
    | with_reducible apply Only.dite
    | with_reducible apply inKep_only
    | with_reducible apply Only.after (mmcFail_only _ _ _ _ _)
    | intro _
    | split
    | dsimp only

theorem execRecXferDataReceived_only (f : ImzRx) (s : State) :
    ∃ t', execRecXferDataReceived f s = .next t' ∧ Only [.can, .imz] s t' := by
  refine ⟨_, rfl, ?_⟩
  repeat' first
    | with_reducible exact Only.refl _ _
    | decide
    | with_reducible apply Only.ite
    | with_reducible apply Only.dite
    | with_reducible apply imzRx_only
    | with_reducible apply Only.after (xferData_only _ _)
    | intro _
    | split
    | dsimp only

theorem execRecXferEndReceived_only (f : ImzRx) (s : State) :
    ∃ t', execRecXferEndReceived f s = .next t' ∧ Only [.can, .imz] s t' := by
  refine ⟨_, rfl, ?_⟩
  repeat' first
    | with_reducible exact Only.refl _ _
    | decide
    | with_reducible apply Only.ite
    | with_reducible apply Only.dite
    | with_reducible apply imzRx_only
    | with_reducible apply Only.after (xferEnd_only _ _)
    | intro _
    | split
    | dsimp only

theorem execRecXferSendPace_only (s : State) :
    ∃ t', execRecXferSendPace s = .next t' ∧ Only [.evr, .can, .imz] s t' := by
  refine ⟨_, rfl, ?_⟩
  repeat' first
    | with_reducible exact Only.refl _ _
    | decide
    | with_reducible apply Only.ite
    | with_reducible apply Only.dite
    | with_reducible apply Only.after (xferSend_only _)
    | intro _
    | split
    | dsimp only

end Sys2Proof.Machine
end

