-- ==== Sys2Proof/Laws/FramePnl.lean ====
section
/-! SUPPORT. Pnl: the parts of the state that each operation of Machine/Pnl may change. -/
namespace Sys2Proof.Machine

open Sys2Proof

theorem State.setPnl_only (s : State) (f : Pnl → Pnl) :
    Only [.pnl] s (State.setPnl s f) := by
  unfold State.setPnl
  repeat' first
    | with_reducible exact Only.refl _ _
    | decide
    | with_reducible apply Only.ite
    | with_reducible apply Only.dite
    | with_reducible apply Only.set_pnl
    | intro _
    | split
    | dsimp only

theorem pnlEvent_only (kind detail : Nat) (s : State) :
    Only [.evr] s (pnlEvent kind detail s) := by
  unfold pnlEvent
  repeat' first
    | with_reducible exact Only.refl _ _
    | decide
    | with_reducible apply Only.ite
    | with_reducible apply Only.dite
    | with_reducible apply Only.after (raise_only _ _ _)
    | intro _
    | split
    | dsimp only

theorem pnlSample_only (mv : Nat) (s : State) :
    Only [.evr, .pnl] s (pnlSample mv s) := by
  unfold pnlSample
  repeat' first
    | with_reducible exact Only.refl _ _
    | decide
    | with_reducible apply Only.ite
    | with_reducible apply Only.dite
    | with_reducible apply Only.after (State.setPnl_only _ _)
    | with_reducible apply Only.after (pnlEvent_only _ _ _)
    | intro _
    | split
    | dsimp only

theorem pnlPower_only (s : State) :
    Only [.sys, .pnl] s (pnlPower s) := by
  unfold pnlPower
  repeat' first
    | with_reducible exact Only.refl _ _
    | decide
    | with_reducible apply Only.ite
    | with_reducible apply Only.dite
    | with_reducible apply Only.after (State.setPnl_only _ _)
    | with_reducible apply Only.set_sys
    | intro _
    | split
    | dsimp only

theorem pnlSubmit_only (own : Bool) (r : Rect) (mode : Nat) (tag : Byte) (split : Bool) (s : State) :
    Only [.sys, .pnl] s (pnlSubmit own r mode tag split s).2 := by
  unfold pnlSubmit
  repeat' first
    | with_reducible exact Only.refl _ _
    | decide
    | with_reducible apply Only.ite
    | with_reducible apply Only.dite
    | with_reducible apply Only.iteSnd
    | with_reducible apply Only.after (State.setPnl_only _ _)
    | with_reducible apply Only.after (pnlPower_only _)
    | intro _
    | split
    | dsimp only

theorem pnlOwn_only (r : Rect) (mode : Nat) (s : State) :
    Only [.drawn, .sys, .pnl] s (pnlOwn r mode s).2 := by
  unfold pnlOwn
  repeat' first
    | with_reducible exact Only.refl _ _
    | decide
    | with_reducible apply Only.ite
    | with_reducible apply Only.dite
    | with_reducible apply Only.iteSnd
    | with_reducible apply Only.after (pnlSubmit_only _ _ _ _ _ _)
    | with_reducible apply Only.after (State.drew_only _)
    | intro _
    | split
    | dsimp only

theorem updCmd_only (src : Source) (tag : Byte) (split : Bool) (mode : Nat) (s : State) :
    Only [.sys, .pnl] s (updCmd src tag split mode s) := by
  unfold updCmd
  repeat' first
    | with_reducible exact Only.refl _ _
    | decide
    | with_reducible apply Only.ite
    | with_reducible apply Only.dite
    | with_reducible apply Only.after (pnlSubmit_only _ _ _ _ _ _)
    | with_reducible apply Only.after (State.setPnl_only _ _)
    | intro _
    | split
    | dsimp only

theorem pnlRefresh_only (s : State) :
    Only [.drawn, .sys, .pnl] s (pnlRefresh s) := by
  unfold pnlRefresh
  repeat' first
    | with_reducible exact Only.refl _ _
    | decide
    | with_reducible apply Only.ite
    | with_reducible apply Only.dite
    | with_reducible apply Only.after (pnlOwn_only _ _ _)
    | intro _
    | split
    | dsimp only

theorem slotDone_only (s : State) (k : PnlSlot) :
    Only [.evr, .pnl] s (slotDone s k) := by
  unfold slotDone
  repeat' first
    | with_reducible exact Only.refl _ _
    | decide
    | with_reducible apply Only.ite
    | with_reducible apply Only.dite
    | with_reducible apply Only.foldl
    | with_reducible apply Only.after (State.setPnl_only _ _)
    | with_reducible apply Only.after (pnlEvent_only _ _ _)
    | intro _
    | split
    | dsimp only

theorem pnlFrame_only (late : Nat) (s : State) :
    Only [.evr, .pnl] s (pnlFrame late s) := by
  unfold pnlFrame
  repeat' first
    | with_reducible exact Only.refl _ _
    | decide
    | with_reducible apply Only.ite
    | with_reducible apply Only.dite
    | with_reducible apply Only.foldl
    | with_reducible apply Only.after (State.setPnl_only _ _)
    | with_reducible apply Only.after (slotDone_only _ _)
    | intro _
    | split
    | dsimp only

theorem slotAbandon_only (s : State) (k : PnlSlot) :
    Only [.evr, .pnl] s (slotAbandon s k) := by
  unfold slotAbandon
  repeat' first
    | with_reducible exact Only.refl _ _
    | decide
    | with_reducible apply Only.ite
    | with_reducible apply Only.dite
    | with_reducible apply Only.foldl
    | with_reducible apply Only.after (State.setPnl_only _ _)
    | with_reducible apply Only.after (pnlEvent_only _ _ _)
    | intro _
    | split
    | dsimp only

theorem pnlCut_only (s : State) :
    Only [.sys, .evr, .pnl] s (pnlCut s) := by
  unfold pnlCut
  repeat' first
    | with_reducible exact Only.refl _ _
    | decide
    | with_reducible apply Only.ite
    | with_reducible apply Only.dite
    | with_reducible apply Only.foldl
    | with_reducible apply Only.after (slotAbandon_only _ _)
    | with_reducible apply Only.after (State.setPnl_only _ _)
    | with_reducible apply Only.set_sys
    | intro _
    | split
    | dsimp only

theorem pnlRepair_only (s : State) (r : Rect) :
    Only [.drawn, .sys, .pnl] s (pnlRepair s r) := by
  unfold pnlRepair
  repeat' first
    | with_reducible exact Only.refl _ _
    | decide
    | with_reducible apply Only.ite
    | with_reducible apply Only.dite
    | with_reducible apply Only.after (pnlOwn_only _ _ _)
    | with_reducible apply Only.after (State.setPnl_only _ _)
    | intro _
    | split
    | dsimp only

theorem pnlReady_only (s : State) :
    Only [.drawn, .sys, .evr, .pnl] s (pnlReady s) := by
  unfold pnlReady
  repeat' first
    | with_reducible exact Only.refl _ _
    | decide
    | with_reducible apply Only.ite
    | with_reducible apply Only.dite
    | with_reducible apply Only.foldl
    | with_reducible apply Only.after (State.setPnl_only _ _)
    | with_reducible apply Only.after (pnlEvent_only _ _ _)
    | with_reducible apply Only.after (pnlRepair_only _ _)
    | intro _
    | split
    | dsimp only

theorem pnlRailFault_only (s : State) :
    Only [.sys, .evr, .pnl] s (pnlRailFault s) := by
  unfold pnlRailFault
  repeat' first
    | with_reducible exact Only.refl _ _
    | decide
    | with_reducible apply Only.ite
    | with_reducible apply Only.dite
    | with_reducible apply Only.after (pnlEvent_only _ _ _)
    | with_reducible apply Only.after (pnlCut_only _)
    | with_reducible apply Only.after (State.setPnl_only _ _)
    | intro _
    | split
    | dsimp only

theorem pnlLeaveFault_only (s : State) :
    Only [.sys, .pnl] s (pnlLeaveFault s) := by
  unfold pnlLeaveFault
  repeat' first
    | with_reducible exact Only.refl _ _
    | decide
    | with_reducible apply Only.ite
    | with_reducible apply Only.dite
    | with_reducible apply Only.after (pnlPower_only _)
    | with_reducible apply Only.after (State.setPnl_only _ _)
    | intro _
    | split
    | dsimp only

theorem pnlHourly_only (s : State) :
    Only [.sys, .pnl] s (pnlHourly s) := by
  unfold pnlHourly
  repeat' first
    | with_reducible exact Only.refl _ _
    | decide
    | with_reducible apply Only.ite
    | with_reducible apply Only.dite
    | with_reducible apply Only.after (State.setPnl_only _ _)
    | with_reducible apply Only.set_sys
    | intro _
    | split
    | dsimp only

theorem pnlFceReset_only (s : State) :
    Only [.sys, .evr, .pnl] s (pnlFceReset s) := by
  unfold pnlFceReset
  repeat' first
    | with_reducible exact Only.refl _ _
    | decide
    | with_reducible apply Only.ite
    | with_reducible apply Only.dite
    | with_reducible apply Only.after (pnlCut_only _)
    | with_reducible apply Only.after (State.setPnl_only _ _)
    | intro _
    | split
    | dsimp only

theorem pnlLoad_only (s : State) :
    Only [.pnl] s (pnlLoad s) := by
  unfold pnlLoad
  repeat' first
    | with_reducible exact Only.refl _ _
    | decide
    | with_reducible apply Only.ite
    | with_reducible apply Only.dite
    | with_reducible apply Only.after (State.setPnl_only _ _)
    | intro _
    | split
    | dsimp only

theorem fbWrite_only (src : Source) (off : Nat) (v : Word) (s : State) :
    Only [.sys, .pnl] s (fbWrite src off v s).2 := by
  unfold fbWrite
  repeat' first
    | with_reducible exact Only.refl _ _
    | decide
    | with_reducible apply Only.ite
    | with_reducible apply Only.dite
    | with_reducible apply Only.iteSnd
    | with_reducible apply Only.after (State.setPnl_only _ _)
    | with_reducible apply Only.after (logWerr_only _ _ _ _)
    | intro _
    | split
    | dsimp only

theorem inPnl_only {l : List Part} {s : State} (f : State → State) (t : State) (h : ∀ u, Only l u (f u))
    (_ : Part.sub [] l = true) (g : Only l s t) : Only l s (inPnl f t) := by
  unfold inPnl
  repeat' first
    | assumption
    | with_reducible exact Only.refl _ _
    | with_reducible apply Only.after (h _)
    | with_reducible apply Only.after (h _ _)
    | exact Part.sub_refl _
    | with_reducible apply Only.ite
    | with_reducible apply Only.dite
    | intro _
    | split
    | dsimp only

theorem execPnlUpdateRequest_only (src : Source) (tag : Byte) (split : Bool) (mode : BitVec 4) (s : State) :
    ∃ t', execPnlUpdateRequest src tag split mode s = .next t' ∧ Only [.sys, .pnl] s t' := by
  refine ⟨_, rfl, ?_⟩
  repeat' first
    | with_reducible exact Only.refl _ _
    | decide
    | with_reducible apply Only.ite
    | with_reducible apply Only.dite
    | with_reducible apply Only.after (updCmd_only _ _ _ _ _)
    | intro _
    | split
    | dsimp only

theorem execPnlRailsReady_only (s : State) :
    ∃ t', execPnlRailsReady s = .next t' ∧ Only [.drawn, .sys, .evr, .pnl] s t' := by
  refine ⟨_, rfl, ?_⟩
  repeat' first
    | with_reducible exact Only.refl _ _
    | decide
    | with_reducible apply Only.ite
    | with_reducible apply Only.dite
    | with_reducible apply inPnl_only
    | with_reducible apply Only.after (pnlReady_only _)
    | intro _
    | split
    | dsimp only

theorem execPnlRailIdle_only (s : State) :
    ∃ t', execPnlRailIdle s = .next t' ∧ Only [.sys, .evr, .pnl] s t' := by
  refine ⟨_, rfl, ?_⟩
  repeat' first
    | with_reducible exact Only.refl _ _
    | decide
    | with_reducible apply Only.ite
    | with_reducible apply Only.dite
    | with_reducible apply inPnl_only
    | with_reducible apply Only.after (pnlPower_only _)
    | with_reducible apply Only.after (pnlCut_only _)
    | intro _
    | split
    | dsimp only

theorem execPnlRailFault_only (s : State) :
    ∃ t', execPnlRailFault s = .next t' ∧ Only [.sys, .evr, .pnl] s t' := by
  refine ⟨_, rfl, ?_⟩
  repeat' first
    | with_reducible exact Only.refl _ _
    | decide
    | with_reducible apply Only.ite
    | with_reducible apply Only.dite
    | with_reducible apply inPnl_only
    | with_reducible apply Only.after (pnlRailFault_only _)
    | intro _
    | split
    | dsimp only

theorem execPnlRailRetry_only (s : State) :
    ∃ t', execPnlRailRetry s = .next t' ∧ Only [.sys, .pnl] s t' := by
  refine ⟨_, rfl, ?_⟩
  repeat' first
    | with_reducible exact Only.refl _ _
    | decide
    | with_reducible apply Only.ite
    | with_reducible apply Only.dite
    | with_reducible apply inPnl_only
    | with_reducible apply Only.after (pnlPower_only _)
    | with_reducible apply Only.after (State.setPnl_only _ _)
    | intro _
    | split
    | dsimp only

theorem execPnlRailFaultRetry_only (s : State) :
    ∃ t', execPnlRailFaultRetry s = .next t' ∧ Only [.sys, .pnl] s t' := by
  refine ⟨_, rfl, ?_⟩
  repeat' first
    | with_reducible exact Only.refl _ _
    | decide
    | with_reducible apply Only.ite
    | with_reducible apply Only.dite
    | with_reducible apply inPnl_only
    | with_reducible apply Only.after (pnlHourly_only _)
    | intro _
    | split
    | dsimp only

theorem execPnlRetry_only (s : State) :
    ∃ t', execPnlRetry s = .next t' ∧ Only [.sys, .pnl] s t' := by
  refine ⟨_, rfl, ?_⟩
  repeat' first
    | with_reducible exact Only.refl _ _
    | decide
    | with_reducible apply Only.ite
    | with_reducible apply Only.dite
    | with_reducible apply inPnl_only
    | with_reducible apply Only.after (pnlLeaveFault_only _)
    | intro _
    | split
    | dsimp only

theorem execPnlRefresh_only (s : State) :
    ∃ t', execPnlRefresh s = .next t' ∧ Only [.drawn, .sys, .pnl] s t' := by
  refine ⟨_, rfl, ?_⟩
  repeat' first
    | with_reducible exact Only.refl _ _
    | decide
    | with_reducible apply Only.ite
    | with_reducible apply Only.dite
    | with_reducible apply Only.after (pnlRefresh_only _)
    | intro _
    | split
    | dsimp only

theorem execPnlTempSample_only (mv : BitVec 12) (s : State) :
    ∃ t', execPnlTempSample mv s = .next t' ∧ Only [.evr, .pnl] s t' := by
  refine ⟨_, rfl, ?_⟩
  repeat' first
    | with_reducible exact Only.refl _ _
    | decide
    | with_reducible apply Only.ite
    | with_reducible apply Only.dite
    | with_reducible apply inPnl_only
    | with_reducible apply Only.after (pnlSample_only _ _)
    | intro _
    | split
    | dsimp only

theorem execPnlVcomChange_only (s : State) :
    ∃ t', execPnlVcomChange s = .next t' ∧ Only [.pnl] s t' := by
  refine ⟨_, rfl, ?_⟩
  repeat' first
    | with_reducible exact Only.refl _ _
    | decide
    | with_reducible apply Only.ite
    | with_reducible apply Only.dite
    | with_reducible apply inPnl_only
    | with_reducible apply Only.after (State.setPnl_only _ _)
    | intro _
    | split
    | dsimp only

theorem execPnlFrameBoundary_only (late : Nat) (s : State) :
    ∃ t', execPnlFrameBoundary late s = .next t' ∧ Only [.evr, .pnl] s t' := by
  refine ⟨_, rfl, ?_⟩
  repeat' first
    | with_reducible exact Only.refl _ _
    | decide
    | with_reducible apply Only.ite
    | with_reducible apply Only.dite
    | with_reducible apply inPnl_only
    | with_reducible apply Only.after (pnlFrame_only _ _)
    | intro _
    | split
    | dsimp only

theorem execFbApertureWrite_only (src : Source) (off : Half) (v : Word) (s : State) :
    ∃ t', execFbApertureWrite src off v s = .next t' ∧ Only [.sys, .pnl] s t' := by
  refine ⟨_, rfl, ?_⟩
  repeat' first
    | with_reducible exact Only.refl _ _
    | decide
    | with_reducible apply Only.ite
    | with_reducible apply Only.dite
    | with_reducible apply Only.after (fbWrite_only _ _ _ _)
    | intro _
    | split
    | dsimp only

end Sys2Proof.Machine
end

