-- ==== Sys2Proof/Laws/FrameRnd.lean ====
section
/-! SUPPORT. Rnd: the parts of the state that each operation of Machine/Rnd may change. -/
namespace Sys2Proof.Machine

open Sys2Proof

theorem State.setRnd_only (s : State) (f : Rnd → Rnd) :
    Only [.rnd] s (State.setRnd s f) := by
  unfold State.setRnd
  repeat' first
    | with_reducible exact Only.refl _ _
    | decide
    | with_reducible apply Only.ite
    | with_reducible apply Only.dite
    | with_reducible apply Only.set_rnd
    | intro _
    | split
    | dsimp only

theorem rndEvent_only (kind detail : Nat) (s : State) :
    Only [.evr] s (rndEvent kind detail s) := by
  unfold rndEvent
  repeat' first
    | with_reducible exact Only.refl _ _
    | decide
    | with_reducible apply Only.ite
    | with_reducible apply Only.dite
    | with_reducible apply Only.after (raise_only _ _ _)
    | intro _
    | split
    | dsimp only

theorem drawRect_only (r : Rect) (s : State) :
    Only [.drawn, .pnl, .rnd] s (drawRect r s) := by
  unfold drawRect
  repeat' first
    | with_reducible exact Only.refl _ _
    | decide
    | with_reducible apply Only.ite
    | with_reducible apply Only.dite
    | with_reducible apply Only.foldl
    | with_reducible apply Only.after (State.setPnl_only _ _)
    | with_reducible apply Only.after (State.setRnd_only _ _)
    | with_reducible apply Only.set_drawn
    | intro _
    | split
    | dsimp only

theorem askRect_only (mode : Nat) (r : Rect) (s : State) :
    Only [.drawn, .sys, .pnl, .rnd] s (askRect mode r s) := by
  unfold askRect
  repeat' first
    | with_reducible exact Only.refl _ _
    | decide
    | with_reducible apply Only.ite
    | with_reducible apply Only.dite
    | with_reducible apply Only.after (pnlOwn_only _ _ _)
    | with_reducible apply Only.after (State.setRnd_only _ _)
    | intro _
    | split
    | dsimp only

theorem redrawPart_only (s : State) (r : Option Rect) :
    Only [.drawn, .sys, .pnl, .rnd] s (redrawPart s r) := by
  unfold redrawPart
  repeat' first
    | with_reducible exact Only.refl _ _
    | decide
    | with_reducible apply Only.ite
    | with_reducible apply Only.dite
    | with_reducible apply Only.after (askRect_only _ _ _)
    | with_reducible apply Only.after (drawRect_only _ _)
    | intro _
    | split
    | dsimp only

theorem drawWhole_only (s : State) :
    Only [.drawn, .sys, .pnl, .rnd] s (drawWhole s) := by
  unfold drawWhole
  repeat' first
    | with_reducible exact Only.refl _ _
    | decide
    | with_reducible apply Only.ite
    | with_reducible apply Only.dite
    | with_reducible apply Only.after (drawRect_only _ _)
    | with_reducible apply Only.after (State.setRnd_only _ _)
    | with_reducible apply Only.after (pnlOwn_only _ _ _)
    | intro _
    | split
    | dsimp only

theorem rndShown_only (s : State) :
    Only [.rnd] s (rndShown s) := by
  unfold rndShown
  repeat' first
    | with_reducible exact Only.refl _ _
    | decide
    | with_reducible apply Only.ite
    | with_reducible apply Only.dite
    | with_reducible apply Only.after (State.setRnd_only _ _)
    | intro _
    | split
    | dsimp only

theorem rndFull_only (s : State) :
    Only [.drawn, .sys, .pnl, .rnd] s (rndFull s) := by
  unfold rndFull
  repeat' first
    | with_reducible exact Only.refl _ _
    | decide
    | with_reducible apply Only.ite
    | with_reducible apply Only.dite
    | with_reducible apply Only.after (drawWhole_only _)
    | with_reducible apply Only.after (rndShown_only _)
    | intro _
    | split
    | dsimp only

theorem rndRedraw_only (s : State) :
    Only [.drawn, .sys, .pnl, .rnd] s (rndRedraw s) := by
  unfold rndRedraw
  repeat' first
    | with_reducible exact Only.refl _ _
    | decide
    | with_reducible apply Only.ite
    | with_reducible apply Only.dite
    | with_reducible apply Only.foldl
    | with_reducible apply Only.after (rndFull_only _)
    | with_reducible apply Only.after (redrawPart_only _ _)
    | with_reducible apply Only.after (rndShown_only _)
    | with_reducible apply Only.after (State.setRnd_only _ _)
    | intro _
    | split
    | dsimp only

theorem rndRepair_only (line : Nat) (s : State) :
    Only [.drawn, .sys, .pnl, .rnd] s (rndRepair line s) := by
  unfold rndRepair
  repeat' first
    | with_reducible exact Only.refl _ _
    | decide
    | with_reducible apply Only.ite
    | with_reducible apply Only.dite
    | with_reducible apply Only.after (askRect_only _ _ _)
    | with_reducible apply Only.after (drawRect_only _ _)
    | intro _
    | split
    | dsimp only

theorem showPage_only (page group : Nat) (s : State) :
    Only [.evr, .rnd] s (showPage page group s) := by
  unfold showPage
  repeat' first
    | with_reducible exact Only.refl _ _
    | decide
    | with_reducible apply Only.ite
    | with_reducible apply Only.dite
    | with_reducible apply Only.after (State.setRnd_only _ _)
    | with_reducible apply Only.after (rndEvent_only _ _ _)
    | intro _
    | split
    | dsimp only

theorem rndCtlWrite_only (src : Source) (page group : Nat) (s : State) :
    Only [.sys, .evr, .rnd] s (rndCtlWrite src page group s).2 := by
  unfold rndCtlWrite
  repeat' first
    | with_reducible exact Only.refl _ _
    | decide
    | with_reducible apply Only.ite
    | with_reducible apply Only.dite
    | with_reducible apply Only.iteSnd
    | with_reducible apply Only.after (showPage_only _ _ _)
    | with_reducible apply Only.after (logWerr_only _ _ _ _)
    | intro _
    | split
    | dsimp only

theorem keyOk_only (key : Nat) (s : State) :
    Only [.evr, .rnd] s (keyOk key s) := by
  unfold keyOk
  repeat' first
    | with_reducible exact Only.refl _ _
    | decide
    | with_reducible apply Only.ite
    | with_reducible apply Only.dite
    | with_reducible apply Only.after (keyDone_only _ _ _ _)
    | intro _
    | split
    | dsimp only

theorem keyBusy_only (key : Nat) (s : State) :
    Only [.evr, .rnd] s (keyBusy key s) := by
  unfold keyBusy
  repeat' first
    | with_reducible exact Only.refl _ _
    | decide
    | with_reducible apply Only.ite
    | with_reducible apply Only.dite
    | with_reducible apply Only.after (rndEvent_only _ _ _)
    | with_reducible apply Only.after (State.setRnd_only _ _)
    | intro _
    | split
    | dsimp only

theorem rndKey_only {l : List Part} {s : State} (key : Nat) (act : State → State) (t : State) (h : ∀ u, Only l u (act u))
    (k : Part.sub [.evr, .rnd] l = true) (g : Only l s t) : Only l s (rndKey key act t) := by
  unfold rndKey
  repeat' first
    | assumption
    | with_reducible exact Only.refl _ _
    | with_reducible apply Only.after (h _)
    | with_reducible apply Only.after (h _ _)
    | exact Part.sub_refl _
    | with_reducible apply Only.ite
    | with_reducible apply Only.dite
    | with_reducible apply Only.after (keyBusy_only _ _) (Part.sub_trans (by decide) k)
    | with_reducible apply Only.after (keyDone_only _ _ _ _) (Part.sub_trans (by decide) k)
    | intro _
    | split
    | dsimp only

theorem moveSel_only (down : Bool) (s : State) :
    Only [.rnd] s (moveSel down s) := by
  unfold moveSel
  repeat' first
    | with_reducible exact Only.refl _ _
    | decide
    | with_reducible apply Only.ite
    | with_reducible apply Only.dite
    | with_reducible apply Only.after (State.setRnd_only _ _)
    | intro _
    | split
    | dsimp only

theorem nextPage_only (s : State) :
    Only [.evr, .rnd] s (nextPage s) := by
  unfold nextPage
  repeat' first
    | with_reducible exact Only.refl _ _
    | decide
    | with_reducible apply Only.ite
    | with_reducible apply Only.dite
    | with_reducible apply Only.after (showPage_only _ _ _)
    | intro _
    | split
    | dsimp only

theorem selectGroup_only (s : State) :
    Only [.evr, .rnd] s (selectGroup s) := by
  unfold selectGroup
  repeat' first
    | with_reducible exact Only.refl _ _
    | decide
    | with_reducible apply Only.ite
    | with_reducible apply Only.dite
    | with_reducible apply Only.after (keyOk_only _ _)
    | with_reducible apply Only.after (showPage_only _ _ _)
    | with_reducible apply Only.after (keyDone_only _ _ _ _)
    | intro _
    | split
    | dsimp only

theorem keyAnn_only (key op scope target : Nat) (more : List Nat) (s : State) :
    Only [.evr, .ann, .lvn, .rnd] s (keyAnn key op scope target more s) := by
  unfold keyAnn
  repeat' first
    | with_reducible exact Only.refl _ _
    | decide
    | with_reducible apply Only.ite
    | with_reducible apply Only.dite
    | with_reducible apply Only.after (annSubmit_only _ _)
    | with_reducible apply Only.after (State.setRnd_only _ _)
    | with_reducible apply Only.after (keyDone_only _ _ _ _)
    | intro _
    | split
    | dsimp only

theorem keyAck_only (s : State) :
    Only [.evr, .ann, .lvn, .rnd] s (keyAck s) := by
  unfold keyAck
  repeat' first
    | with_reducible exact Only.refl _ _
    | decide
    | with_reducible apply Only.ite
    | with_reducible apply Only.dite
    | with_reducible apply Only.after (keyAnn_only _ _ _ _ _ _)
    | with_reducible apply Only.after (keyDone_only _ _ _ _)
    | intro _
    | split
    | dsimp only

theorem keyAckPage_only (s : State) :
    Only [.evr, .ann, .lvn, .rnd] s (keyAckPage s) := by
  unfold keyAckPage
  repeat' first
    | with_reducible exact Only.refl _ _
    | decide
    | with_reducible apply Only.ite
    | with_reducible apply Only.dite
    | with_reducible apply Only.after (keyAnn_only _ _ _ _ _ _)
    | with_reducible apply Only.after (keyDone_only _ _ _ _)
    | intro _
    | split
    | dsimp only

theorem keyCall_only (key op eng session src : Nat) (s : State) :
    Only [.evr, .call, .lvn, .rnd] s (keyCall key op eng session src s) := by
  unfold keyCall
  repeat' first
    | with_reducible exact Only.refl _ _
    | decide
    | with_reducible apply Only.ite
    | with_reducible apply Only.dite
    | with_reducible apply Only.after (keyDone_only _ _ _ _)
    | with_reducible apply Only.after (callPush_only _ _)
    | with_reducible apply Only.after (State.setRnd_only _ _)
    | intro _
    | split
    | dsimp only

theorem keyAckCall_only (eng : Nat) (s : State) :
    Only [.evr, .call, .lvn, .rnd] s (keyAckCall eng s) := by
  unfold keyAckCall
  repeat' first
    | with_reducible exact Only.refl _ _
    | decide
    | with_reducible apply Only.ite
    | with_reducible apply Only.dite
    | with_reducible apply Only.after (keyDone_only _ _ _ _)
    | with_reducible apply Only.after (keyCall_only _ _ _ _ _ _)
    | intro _
    | split
    | dsimp only

theorem keyDuty_only (eng : Nat) (s : State) :
    Only [.evr, .can, .call, .imz, .lvn, .rnd] s (keyDuty eng s) := by
  unfold keyDuty
  repeat' first
    | with_reducible exact Only.refl _ _
    | decide
    | with_reducible apply Only.ite
    | with_reducible apply Only.dite
    | with_reducible apply Only.after (keyCall_only _ _ _ _ _ _)
    | with_reducible apply Only.after (keyOk_only _ _)
    | with_reducible apply Only.after (dutySelect_only _ _ _ _ _)
    | intro _
    | split
    | dsimp only

theorem rndKeyWrite_only (key eng : Nat) (s : State) :
    Only [.evr, .can, .ann, .call, .imz, .lvn, .rnd] s (rndKeyWrite key eng s) := by
  unfold rndKeyWrite
  repeat' first
    | with_reducible exact Only.refl _ _
    | decide
    | with_reducible apply Only.ite
    | with_reducible apply Only.dite
    | with_reducible apply rndKey_only
    | with_reducible apply Only.after (keyOk_only _ _)
    | with_reducible apply Only.after (moveSel_only _ _)
    | with_reducible apply Only.after (nextPage_only _)
    | with_reducible apply Only.after (selectGroup_only _)
    | with_reducible apply Only.after (keyAck_only _)
    | with_reducible apply Only.after (keyAckPage_only _)
    | with_reducible apply Only.after (keyAnn_only _ _ _ _ _ _)
    | with_reducible apply Only.after (keyAckCall_only _ _)
    | with_reducible apply Only.after (keyDuty_only _ _)
    | with_reducible apply Only.after (keyDone_only _ _ _ _)
    | intro _
    | split
    | dsimp only

theorem inRnd_only {l : List Part} {s : State} (f : State → State) (t : State) (h : ∀ u, Only l u (f u))
    (_ : Part.sub [] l = true) (g : Only l s t) : Only l s (inRnd f t) := by
  unfold inRnd
  repeat' first
    | assumption
    | with_reducible exact Only.refl _ _
    | with_reducible apply Only.after (h _)
    | with_reducible apply Only.after (h _ _)
    | exact Part.sub_refl _
    | with_reducible apply Only.ite
    | with_reducible apply Only.dite
    | intro _
    | split
    | dsimp only

theorem execRndRedraw_only (s : State) :
    ∃ t', execRndRedraw s = .next t' ∧ Only [.drawn, .sys, .pnl, .rnd] s t' := by
  refine ⟨_, rfl, ?_⟩
  repeat' first
    | with_reducible exact Only.refl _ _
    | decide
    | with_reducible apply Only.ite
    | with_reducible apply Only.dite
    | with_reducible apply Only.after (rndRedraw_only _)
    | intro _
    | split
    | dsimp only

theorem execRndPageSelect_only (src : Source) (page : BitVec 2) (group : BitVec 10) (s : State) :
    ∃ t', execRndPageSelect src page group s = .next t' ∧ Only [.sys, .evr, .rnd] s t' := by
  refine ⟨_, rfl, ?_⟩
  repeat' first
    | with_reducible exact Only.refl _ _
    | decide
    | with_reducible apply Only.ite
    | with_reducible apply Only.dite
    | with_reducible apply inRnd_only
    | with_reducible apply Only.after (rndCtlWrite_only _ _ _ _)
    | intro _
    | split
    | dsimp only

theorem execRndKeyUp_only (s : State) :
    ∃ t', execRndKeyUp s = .next t' ∧ Only [.evr, .can, .ann, .call, .imz, .lvn, .rnd] s t' := by
  refine ⟨_, rfl, ?_⟩
  repeat' first
    | with_reducible exact Only.refl _ _
    | decide
    | with_reducible apply Only.ite
    | with_reducible apply Only.dite
    | with_reducible apply inRnd_only
    | with_reducible apply Only.after (rndKeyWrite_only _ _ _)
    | intro _
    | split
    | dsimp only

theorem execRndKeyDown_only (s : State) :
    ∃ t', execRndKeyDown s = .next t' ∧ Only [.evr, .can, .ann, .call, .imz, .lvn, .rnd] s t' := by
  refine ⟨_, rfl, ?_⟩
  repeat' first
    | with_reducible exact Only.refl _ _
    | decide
    | with_reducible apply Only.ite
    | with_reducible apply Only.dite
    | with_reducible apply inRnd_only
    | with_reducible apply Only.after (rndKeyWrite_only _ _ _)
    | intro _
    | split
    | dsimp only

theorem execRndKeyPage_only (s : State) :
    ∃ t', execRndKeyPage s = .next t' ∧ Only [.evr, .can, .ann, .call, .imz, .lvn, .rnd] s t' := by
  refine ⟨_, rfl, ?_⟩
  repeat' first
    | with_reducible exact Only.refl _ _
    | decide
    | with_reducible apply Only.ite
    | with_reducible apply Only.dite
    | with_reducible apply inRnd_only
    | with_reducible apply Only.after (rndKeyWrite_only _ _ _)
    | intro _
    | split
    | dsimp only

theorem execRndKeySelect_only (s : State) :
    ∃ t', execRndKeySelect s = .next t' ∧ Only [.evr, .can, .ann, .call, .imz, .lvn, .rnd] s t' := by
  refine ⟨_, rfl, ?_⟩
  repeat' first
    | with_reducible exact Only.refl _ _
    | decide
    | with_reducible apply Only.ite
    | with_reducible apply Only.dite
    | with_reducible apply inRnd_only
    | with_reducible apply Only.after (rndKeyWrite_only _ _ _)
    | intro _
    | split
    | dsimp only

theorem execRndKeyAck_only (s : State) :
    ∃ t', execRndKeyAck s = .next t' ∧ Only [.evr, .can, .ann, .call, .imz, .lvn, .rnd] s t' := by
  refine ⟨_, rfl, ?_⟩
  repeat' first
    | with_reducible exact Only.refl _ _
    | decide
    | with_reducible apply Only.ite
    | with_reducible apply Only.dite
    | with_reducible apply inRnd_only
    | with_reducible apply Only.after (rndKeyWrite_only _ _ _)
    | intro _
    | split
    | dsimp only

theorem execRndKeyAckPage_only (s : State) :
    ∃ t', execRndKeyAckPage s = .next t' ∧ Only [.evr, .can, .ann, .call, .imz, .lvn, .rnd] s t' := by
  refine ⟨_, rfl, ?_⟩
  repeat' first
    | with_reducible exact Only.refl _ _
    | decide
    | with_reducible apply Only.ite
    | with_reducible apply Only.dite
    | with_reducible apply inRnd_only
    | with_reducible apply Only.after (rndKeyWrite_only _ _ _)
    | intro _
    | split
    | dsimp only

theorem execRndKeySilence_only (s : State) :
    ∃ t', execRndKeySilence s = .next t' ∧ Only [.evr, .can, .ann, .call, .imz, .lvn, .rnd] s t' := by
  refine ⟨_, rfl, ?_⟩
  repeat' first
    | with_reducible exact Only.refl _ _
    | decide
    | with_reducible apply Only.ite
    | with_reducible apply Only.dite
    | with_reducible apply inRnd_only
    | with_reducible apply Only.after (rndKeyWrite_only _ _ _)
    | intro _
    | split
    | dsimp only

theorem execRndKeyAckCall_only (eng : BitVec 5) (s : State) :
    ∃ t', execRndKeyAckCall eng s = .next t' ∧ Only [.evr, .can, .ann, .call, .imz, .lvn, .rnd] s t' := by
  refine ⟨_, rfl, ?_⟩
  repeat' first
    | with_reducible exact Only.refl _ _
    | decide
    | with_reducible apply Only.ite
    | with_reducible apply Only.dite
    | with_reducible apply inRnd_only
    | with_reducible apply Only.after (rndKeyWrite_only _ _ _)
    | intro _
    | split
    | dsimp only

theorem execRndKeyDuty_only (eng : BitVec 5) (s : State) :
    ∃ t', execRndKeyDuty eng s = .next t' ∧ Only [.evr, .can, .ann, .call, .imz, .lvn, .rnd] s t' := by
  refine ⟨_, rfl, ?_⟩
  repeat' first
    | with_reducible exact Only.refl _ _
    | decide
    | with_reducible apply Only.ite
    | with_reducible apply Only.dite
    | with_reducible apply inRnd_only
    | with_reducible apply Only.after (rndKeyWrite_only _ _ _)
    | intro _
    | split
    | dsimp only

theorem execRndKeyBad_only (key : BitVec 4) (s : State) :
    ∃ t', execRndKeyBad key s = .next t' ∧ Only [.evr, .can, .ann, .call, .imz, .lvn, .rnd] s t' := by
  refine ⟨_, rfl, ?_⟩
  repeat' first
    | with_reducible exact Only.refl _ _
    | decide
    | with_reducible apply Only.ite
    | with_reducible apply Only.dite
    | with_reducible apply inRnd_only
    | with_reducible apply Only.after (rndKeyWrite_only _ _ _)
    | intro _
    | split
    | dsimp only

end Sys2Proof.Machine
end

