-- ==== Sys2Proof/Laws/FrameService.lean ====
section
/-! SUPPORT. Service: the parts of the state that each operation of Machine/Service may change. -/
namespace Sys2Proof.Machine

open Sys2Proof

theorem restat_only (s : State) :
    Only [.sys] s (restat s) := by
  unfold restat
  repeat' first
    | with_reducible exact Only.refl _ _
    | decide
    | with_reducible apply Only.ite
    | with_reducible apply Only.dite
    | with_reducible apply Only.set_sys
    | intro _
    | split
    | dsimp only

theorem netTiming_only (s : State) (k : Fin 4) :
    Only [.can] s (netTiming s k) := by
  unfold netTiming
  repeat' first
    | with_reducible exact Only.refl _ _
    | decide
    | with_reducible apply Only.ite
    | with_reducible apply Only.dite
    | with_reducible apply Only.after (State.setCan_only _ _ _)
    | intro _
    | split
    | dsimp only

theorem netLoad_only (s : State) :
    Only [.can] s (netLoad s) := by
  unfold netLoad
  repeat' first
    | with_reducible exact Only.refl _ _
    | decide
    | with_reducible apply Only.ite
    | with_reducible apply Only.dite
    | with_reducible apply Only.after (netTiming_only _ _)
    | intro _
    | split
    | dsimp only

theorem fullService_only (s : State) :
    Only [.sys, .evr, .tim] s (fullService s) := by
  unfold fullService
  repeat' first
    | with_reducible exact Only.refl _ _
    | decide
    | with_reducible apply Only.ite
    | with_reducible apply Only.dite
    | with_reducible apply Only.after (restat_only _)
    | with_reducible apply Only.after (timMaster_only _)
    | with_reducible apply Only.set_sys
    | intro _
    | split
    | dsimp only

theorem setPair_only (st : PairState) (s : State) :
    Only [.evr, .lvn] s (setPair st s) := by
  unfold setPair
  repeat' first
    | with_reducible exact Only.refl _ _
    | decide
    | with_reducible apply Only.ite
    | with_reducible apply Only.dite
    | with_reducible apply Only.after (raise_only _ _ _)
    | with_reducible apply Only.set_lvn
    | intro _
    | split
    | dsimp only

theorem timeSettled_only (s : State) :
    Only [.sys, .evr, .tim, .lvn] s (timeSettled s) := by
  unfold timeSettled
  repeat' first
    | with_reducible exact Only.refl _ _
    | decide
    | with_reducible apply Only.ite
    | with_reducible apply Only.dite
    | with_reducible apply Only.after (setPair_only _ _)
    | with_reducible apply Only.after (fullService_only _)
    | with_reducible apply Only.set_sys
    | intro _
    | split
    | dsimp only

theorem networkJoin_only (s : State) :
    Only [.sys, .evr, .can, .imz, .tim, .lvn] s (networkJoin s) := by
  unfold networkJoin
  repeat' first
    | with_reducible exact Only.refl _ _
    | decide
    | with_reducible apply Only.ite
    | with_reducible apply Only.dite
    | with_reducible apply Only.after (netJoin_only _)
    | with_reducible apply Only.after (netLoad_only _)
    | with_reducible apply Only.after (timeSettled_only _)
    | with_reducible apply Only.set_sys
    | intro _
    | split
    | dsimp only

theorem execNetworkJoin_only (s : State) :
    ∃ t', execNetworkJoin s = .next t' ∧ Only [.sys, .evr, .can, .imz, .tim, .lvn] s t' := by
  refine ⟨_, rfl, ?_⟩
  repeat' first
    | with_reducible exact Only.refl _ _
    | decide
    | with_reducible apply Only.ite
    | with_reducible apply Only.dite
    | with_reducible apply Only.after (networkJoin_only _)
    | intro _
    | split
    | dsimp only

theorem execTimeFollowReceived_only (f : ImzRx) (s : State) :
    ∃ t', execTimeFollowReceived f s = .next t' ∧ Only [.now, .drawn, .sys, .evr, .can, .pev, .call, .tim, .lvn, .recd, .mmc] s t' := by
  refine ⟨_, rfl, ?_⟩
  repeat' first
    | with_reducible exact Only.refl _ _
    | decide
    | with_reducible apply Only.ite
    | with_reducible apply Only.dite
    | with_reducible apply timRx_only
    | with_reducible apply Only.after (followRx_only _ _)
    | with_reducible apply Only.after (timeSettled_only _)
    | intro _
    | split
    | dsimp only

theorem execNetworkTimeWaitExpiry_only (s : State) :
    ∃ t', execNetworkTimeWaitExpiry s = .next t' ∧ Only [.sys, .evr, .tim, .lvn] s t' := by
  refine ⟨_, rfl, ?_⟩
  repeat' first
    | with_reducible exact Only.refl _ _
    | decide
    | with_reducible apply Only.ite
    | with_reducible apply Only.dite
    | with_reducible apply Only.after (timeSettled_only _)
    | intro _
    | split
    | dsimp only

end Sys2Proof.Machine
end

