-- ==== Sys2Proof/Laws/FrameSettings.lean ====
section
/-! SUPPORT. Settings: the parts of the state that each operation of Machine/Settings may change. -/
namespace Sys2Proof.Machine

open Sys2Proof

theorem State.setAge_only (s : State) (f : Age → Age) :
    Only [.age] s (State.setAge s f) := by
  unfold State.setAge
  repeat' first
    | with_reducible exact Only.refl _ _
    | decide
    | with_reducible apply Only.ite
    | with_reducible apply Only.dite
    | with_reducible apply Only.set_age
    | intro _
    | split
    | dsimp only

theorem ageEvent_only (kind item : Nat) (detail : Int) (s : State) :
    Only [.evr] s (ageEvent kind item detail s) := by
  unfold ageEvent
  repeat' first
    | with_reducible exact Only.refl _ _
    | decide
    | with_reducible apply Only.ite
    | with_reducible apply Only.dite
    | with_reducible apply Only.after (raise_only _ _ _)
    | intro _
    | split
    | dsimp only

theorem ledgerFail_only (s : State) :
    Only [.evr, .age] s (ledgerFail s) := by
  unfold ledgerFail
  repeat' first
    | with_reducible exact Only.refl _ _
    | decide
    | with_reducible apply Only.ite
    | with_reducible apply Only.dite
    | with_reducible apply Only.after (ageEvent_only _ _ _ _)
    | with_reducible apply Only.after (State.setAge_only _ _)
    | intro _
    | split
    | dsimp only

theorem settingsSave_only (s : State) :
    Only [.evr, .mmc, .age] s (settingsSave s) := by
  unfold settingsSave
  repeat' first
    | with_reducible exact Only.refl _ _
    | decide
    | with_reducible apply Only.ite
    | with_reducible apply Only.dite
    | with_reducible apply Only.after (sectorPut_only _ _ _)
    | with_reducible apply Only.after (State.setAge_only _ _)
    | with_reducible apply Only.after (ledgerFail_only _)
    | intro _
    | split
    | dsimp only

theorem settingsRetry_only (s : State) :
    Only [.evr, .mmc, .age] s (settingsRetry s) := by
  unfold settingsRetry
  repeat' first
    | with_reducible exact Only.refl _ _
    | decide
    | with_reducible apply Only.ite
    | with_reducible apply Only.dite
    | with_reducible apply Only.after (settingsSave_only _)
    | intro _
    | split
    | dsimp only

theorem settingsSync_only (s0 s1 : State) :
    Only [.evr, .mmc, .age] s1 (settingsSync s0 s1) := by
  unfold settingsSync
  repeat' first
    | with_reducible exact Only.refl _ _
    | decide
    | with_reducible apply Only.ite
    | with_reducible apply Only.dite
    | with_reducible apply Only.after (settingsSave_only _)
    | intro _
    | split
    | dsimp only

theorem settingsLoad_only (s : State) :
    Only [.ao, .dio, .age] s (settingsLoad s) := by
  unfold settingsLoad
  split
  · exact Only.set_ao_dio (Only.refl _ _) (by decide)
  · extract_lets d s1
    have h : Only [.ao, .dio, .age] s s1 := (State.setAge_only _ _).mono (by decide)
    clear_value d s1
    exact Only.set_ao_dio h (by decide)

theorem learnR_only (c : Fin 16) (probe : Bool) (s : State) :
    Only [.dio] s (learnR c probe s) := by
  unfold learnR
  repeat' first
    | with_reducible exact Only.refl _ _
    | decide
    | with_reducible apply Only.ite
    | with_reducible apply Only.dite
    | with_reducible apply Only.after (State.setDio_only _ _ _)
    | intro _
    | split
    | dsimp only

theorem execAoTrimApply_only (src : Source) (c : Fin 4) (s : State) :
    ∃ t', execAoTrimApply src c s = .next t' ∧ Only [.sys, .evr, .ao, .mmc, .age] s t' := by
  refine ⟨_, rfl, ?_⟩
  repeat' first
    | with_reducible exact Only.refl _ _
    | decide
    | with_reducible apply Only.ite
    | with_reducible apply Only.dite
    | with_reducible apply Only.after (settingsSync_only _ _)
    | with_reducible apply Only.after (aoTrimApply_only _ _ _)
    | intro _
    | split
    | dsimp only

theorem execAoTrimClear_only (src : Source) (c : Fin 4) (s : State) :
    ∃ t', execAoTrimClear src c s = .next t' ∧ Only [.sys, .evr, .ao, .mmc, .age] s t' := by
  refine ⟨_, rfl, ?_⟩
  repeat' first
    | with_reducible exact Only.refl _ _
    | decide
    | with_reducible apply Only.ite
    | with_reducible apply Only.dite
    | with_reducible apply Only.after (settingsSync_only _ _)
    | with_reducible apply Only.after (aoTrimClear_only _ _ _)
    | intro _
    | split
    | dsimp only

theorem execAoTrimStore_only (c : Fin 4) (s : State) :
    ∃ t', execAoTrimStore c s = .next t' ∧ Only [.evr, .ao, .mmc, .age] s t' := by
  refine ⟨_, rfl, ?_⟩
  repeat' first
    | with_reducible exact Only.refl _ _
    | decide
    | with_reducible apply Only.ite
    | with_reducible apply Only.dite
    | with_reducible apply Only.after (settingsSync_only _ _)
    | with_reducible apply Only.after (aoTrimStore_only _ _)
    | intro _
    | split
    | dsimp only

theorem execDioLearnPartDone_only (c : Fin 16) (probe : Bool) (s : State) :
    ∃ t', execDioLearnPartDone c probe s = .next t' ∧ Only [.evr, .dio, .mmc, .age] s t' := by
  refine ⟨_, rfl, ?_⟩
  repeat' first
    | with_reducible exact Only.refl _ _
    | decide
    | with_reducible apply Only.ite
    | with_reducible apply Only.dite
    | with_reducible apply Only.after (settingsSync_only _ _)
    | with_reducible apply Only.after (dioLearnDone_only _ _ _)
    | with_reducible apply Only.after (learnR_only _ _ _)
    | intro _
    | split
    | dsimp only

theorem execDioLearnClr_only (src : Source) (c : Fin 16) (s : State) :
    ∃ t', execDioLearnClr src c s = .next t' ∧ Only [.sys, .evr, .dio, .mmc, .age] s t' := by
  refine ⟨_, rfl, ?_⟩
  repeat' first
    | with_reducible exact Only.refl _ _
    | decide
    | with_reducible apply Only.ite
    | with_reducible apply Only.dite
    | with_reducible apply Only.after (settingsSync_only _ _)
    | with_reducible apply dioCmd_only
    | with_reducible apply Only.after (State.setDio_only _ _ _)
    | intro _
    | split
    | dsimp only

end Sys2Proof.Machine
end

