-- ==== Sys2Proof/Laws/FrameLvn.lean ====
section
/-! SUPPORT. Lvn: the parts of the state that each operation of Machine/Lvn may change. -/
namespace Sys2Proof.Machine

open Sys2Proof

theorem State.setLvn_only (s : State) (f : Lvn → Lvn) :
    Only [.lvn] s (State.setLvn s f) := by
  unfold State.setLvn
  repeat' first
    | with_reducible exact Only.refl _ _
    | decide
    | with_reducible apply Only.ite
    | with_reducible apply Only.dite
    | with_reducible apply Only.set_lvn
    | intro _
    | split
    | dsimp only

theorem lvnEvent_only (kind lane detail : Nat) (s : State) :
    Only [.evr] s (lvnEvent kind lane detail s) := by
  unfold lvnEvent
  repeat' first
    | with_reducible exact Only.refl _ _
    | decide
    | with_reducible apply Only.ite
    | with_reducible apply Only.dite
    | with_reducible apply Only.after (raise_only _ _ _)
    | intro _
    | split
    | dsimp only

theorem lvSend_only (l : List (Nat × Nat × List Byte)) (s : State) :
    Only [.lvn] s (lvSend l s) := by
  unfold lvSend
  repeat' first
    | with_reducible exact Only.refl _ _
    | decide
    | with_reducible apply Only.ite
    | with_reducible apply Only.dite
    | with_reducible apply Only.after (State.setLvn_only _ _)
    | intro _
    | split
    | dsimp only

theorem laneUp_only (s : State) (l : Fin 2) :
    Only [.evr, .lvn] s (laneUp s l) := by
  unfold laneUp
  repeat' first
    | with_reducible exact Only.refl _ _
    | decide
    | with_reducible apply Only.ite
    | with_reducible apply Only.dite
    | with_reducible apply Only.after (lvnEvent_only _ _ _ _)
    | with_reducible apply Only.after (State.setLvn_only _ _)
    | intro _
    | split
    | dsimp only

theorem laneDown_only (l : Fin 2) (s : State) :
    Only [.evr, .lvn] s (laneDown l s) := by
  unfold laneDown
  repeat' first
    | with_reducible exact Only.refl _ _
    | decide
    | with_reducible apply Only.ite
    | with_reducible apply Only.dite
    | with_reducible apply Only.after (lvnEvent_only _ _ _ _)
    | with_reducible apply Only.after (State.setLvn_only _ _)
    | intro _
    | split
    | dsimp only

theorem linkTrained_only (lat : Nat) (s : State) :
    Only [.evr, .lvn] s (linkTrained lat s) := by
  unfold linkTrained
  repeat' first
    | with_reducible exact Only.refl _ _
    | decide
    | with_reducible apply Only.ite
    | with_reducible apply Only.dite
    | with_reducible apply Only.after (laneUp_only _ _)
    | with_reducible apply Only.after (State.setLvn_only _ _)
    | intro _
    | split
    | dsimp only

theorem setRole_only (st : PairState) (cause : Nat) (s : State) :
    Only [.sys, .evr, .lvn] s (setRole st cause s) := by
  unfold setRole
  repeat' first
    | with_reducible exact Only.refl _ _
    | decide
    | with_reducible apply Only.ite
    | with_reducible apply Only.dite
    | with_reducible apply Only.after (restat_only _)
    | with_reducible apply Only.after (setPair_only _ _)
    | with_reducible apply Only.after (State.setLvn_only _ _)
    | intro _
    | split
    | dsimp only

theorem inhibitAll_only (s : State) :
    Only [.sys] s (inhibitAll s) := by
  unfold inhibitAll
  repeat' first
    | with_reducible exact Only.refl _ _
    | decide
    | with_reducible apply Only.ite
    | with_reducible apply Only.dite
    | with_reducible apply Only.set_sys
    | intro _
    | split
    | dsimp only

theorem splitStart_only (s : State) :
    Only [.evr, .can, .imz, .lvn] s (splitStart s) := by
  unfold splitStart
  repeat' first
    | with_reducible exact Only.refl _ _
    | decide
    | with_reducible apply Only.ite
    | with_reducible apply Only.dite
    | with_reducible apply Only.after (imzBeat_only _ _ _)
    | with_reducible apply Only.after (lvnEvent_only _ _ _ _)
    | with_reducible apply Only.after (State.setLvn_only _ _)
    | intro _
    | split
    | dsimp only

theorem splitEnd_only (s : State) :
    Only [.evr, .lvn] s (splitEnd s) := by
  unfold splitEnd
  repeat' first
    | with_reducible exact Only.refl _ _
    | decide
    | with_reducible apply Only.ite
    | with_reducible apply Only.dite
    | with_reducible apply Only.after (lvnEvent_only _ _ _ _)
    | with_reducible apply Only.after (State.setLvn_only _ _)
    | intro _
    | split
    | dsimp only

theorem settleRole_only (st : PairState) (s : State) :
    Only [.sys, .evr, .ui, .imz, .tim, .lvn] s (settleRole st s) := by
  unfold settleRole
  repeat' first
    | with_reducible exact Only.refl _ _
    | decide
    | with_reducible apply Only.ite
    | with_reducible apply Only.dite
    | with_reducible apply Only.after (uiTakeControl_only _)
    | with_reducible apply Only.after (setRole_only _ _ _)
    | with_reducible apply noted_only
    | with_reducible apply Only.after (uiListenEntry_only _)
    | with_reducible apply Only.after (enterConflict_only _)
    | with_reducible apply Only.after (lvnEvent_only _ _ _ _)
    | with_reducible apply Only.after (fullService_only _)
    | intro _
    | split
    | dsimp only

theorem negotiate_only (s : State) :
    Only [.sys, .evr, .ui, .imz, .tim, .lvn] s (negotiate s) := by
  unfold negotiate
  repeat' first
    | with_reducible exact Only.refl _ _
    | decide
    | with_reducible apply Only.ite
    | with_reducible apply Only.dite
    | with_reducible apply Only.after (settleRole_only _ _)
    | intro _
    | split
    | dsimp only

theorem peerWaitEnd_only (s : State) :
    Only [.sys, .evr, .ui, .can, .imz, .tim, .lvn] s (peerWaitEnd s) := by
  unfold peerWaitEnd
  repeat' first
    | with_reducible exact Only.refl _ _
    | decide
    | with_reducible apply Only.ite
    | with_reducible apply Only.dite
    | with_reducible apply Only.after (splitStart_only _)
    | with_reducible apply Only.after (settleRole_only _ _)
    | intro _
    | split
    | dsimp only

theorem lvBeatSend_only (s : State) :
    Only [.lvn] s (lvBeatSend s) := by
  unfold lvBeatSend
  repeat' first
    | with_reducible exact Only.refl _ _
    | decide
    | with_reducible apply Only.ite
    | with_reducible apply Only.dite
    | with_reducible apply Only.after (State.setLvn_only _ _)
    | with_reducible apply Only.after (lvSend_only _ _)
    | intro _
    | split
    | dsimp only

theorem lvHelloSend_only (s : State) :
    Only [.lvn] s (lvHelloSend s) := by
  unfold lvHelloSend
  repeat' first
    | with_reducible exact Only.refl _ _
    | decide
    | with_reducible apply Only.ite
    | with_reducible apply Only.dite
    | with_reducible apply Only.after (lvSend_only _ _)
    | intro _
    | split
    | dsimp only

theorem epochAcked_only (s : State) :
    Only [.dio] s (epochAcked s) := by
  unfold epochAcked
  repeat' first
    | with_reducible exact Only.refl _ _
    | decide
    | with_reducible apply Only.ite
    | with_reducible apply Only.dite
    | with_reducible apply Only.set_dio
    | intro _
    | split
    | dsimp only

theorem lvBeatTake_only (d : List Byte) (age : Nat) (s : State) :
    Only [.now, .drawn, .sys, .evr, .dio, .pev, .call, .tim, .lvn, .recd, .mmc] s (lvBeatTake d age s) := by
  unfold lvBeatTake
  repeat' first
    | with_reducible exact Only.refl _ _
    | decide
    | with_reducible apply Only.ite
    | with_reducible apply Only.dite
    | with_reducible apply Only.after (epochAcked_only _)
    | with_reducible apply Only.after (State.setLvn_only _ _)
    | with_reducible apply Only.after (lvnEvent_only _ _ _ _)
    | with_reducible apply Only.after (timPair_only _ _)
    | with_reducible apply Only.after (State.setTim_only _ _)
    | intro _
    | split
    | dsimp only

theorem presFault_only (s : State) :
    Only [.evr, .lvn] s (presFault s) := by
  unfold presFault
  repeat' first
    | with_reducible exact Only.refl _ _
    | decide
    | with_reducible apply Only.ite
    | with_reducible apply Only.dite
    | with_reducible apply Only.after (lvnEvent_only _ _ _ _)
    | with_reducible apply Only.after (State.setLvn_only _ _)
    | intro _
    | split
    | dsimp only

theorem lvRejoin_only (s : State) :
    Only [.sys, .evr, .ui, .ao, .dio, .dioBlk, .lvn] s (lvRejoin s) := by
  unfold lvRejoin
  repeat' first
    | with_reducible exact Only.refl _ _
    | decide
    | with_reducible apply Only.ite
    | with_reducible apply Only.dite
    | with_reducible apply Only.after (splitEnd_only _)
    | with_reducible apply Only.after (restat_only _)
    | with_reducible apply Only.after (setPair_only _ _)
    | with_reducible apply Only.after (State.setLvn_only _ _)
    | with_reducible apply Only.after (setRole_only _ _ _)
    | with_reducible apply Only.after (releaseControl_only _)
    | intro _
    | split
    | dsimp only

theorem lvFrame_only {l : List Part} {s : State} (ok : Bool) (f : State → State) (t : State) (h : ∀ u, Only l u (f u))
    (k : Part.sub [.lvn] l = true) (g : Only l s t) : Only l s (lvFrame ok f t) := by
  unfold lvFrame
  repeat' first
    | assumption
    | with_reducible exact Only.refl _ _
    | with_reducible apply Only.after (h _)
    | with_reducible apply Only.after (h _ _)
    | exact Part.sub_refl _
    | with_reducible apply Only.ite
    | with_reducible apply Only.dite
    | with_reducible apply Only.after (State.setLvn_only _ _) (Part.sub_trans (by decide) k)
    | intro _
    | split
    | dsimp only

theorem lvBeatRx_only (d : List Byte) (age : Nat) (s : State) :
    Only [.now, .drawn, .sys, .evr, .ui, .ao, .dio, .dioBlk, .pev, .call, .tim, .lvn, .recd, .mmc] s (lvBeatRx d age s) := by
  unfold lvBeatRx
  repeat' first
    | with_reducible exact Only.refl _ _
    | decide
    | with_reducible apply Only.ite
    | with_reducible apply Only.dite
    | with_reducible apply Only.after (lvRejoin_only _)
    | with_reducible apply Only.after (presFault_only _)
    | with_reducible apply Only.after (lvBeatTake_only _ _ _)
    | intro _
    | split
    | dsimp only

theorem lvHelloRx_only (d : List Byte) (s : State) :
    Only [.lvn] s (lvHelloRx d s) := by
  unfold lvHelloRx
  repeat' first
    | with_reducible exact Only.refl _ _
    | decide
    | with_reducible apply Only.ite
    | with_reducible apply Only.dite
    | with_reducible apply Only.after (State.setLvn_only _ _)
    | intro _
    | split
    | dsimp only

theorem takeCopies_only (s : State) :
    Only [.pev, .lvn] s (takeCopies s) := by
  unfold takeCopies
  repeat' first
    | with_reducible exact Only.refl _ _
    | decide
    | with_reducible apply Only.ite
    | with_reducible apply Only.dite
    | with_reducible apply Only.foldl
    | with_reducible apply Only.after (State.setPt_only _ _ _)
    | with_reducible apply Only.after (State.setLvn_only _ _)
    | intro _
    | split
    | dsimp only

theorem epochSend_only (bytes frames : Nat) (s0 : State) :
    Only [.drawn, .rcp, .evr, .pev, .lvn] s0 (epochSend bytes frames s0) := by
  unfold epochSend
  repeat' first
    | with_reducible exact Only.refl _ _
    | decide
    | with_reducible apply Only.ite
    | with_reducible apply Only.dite
    | with_reducible apply Only.after (takeCopies_only _)
    | with_reducible apply Only.after (lvSend_only _ _)
    | with_reducible apply Only.after (State.drew_only _)
    | with_reducible apply Only.after (State.setLvn_only _ _)
    | with_reducible apply Only.after (lvnEvent_only _ _ _ _)
    | with_reducible apply Only.set_rcp
    | intro _
    | split
    | dsimp only

theorem takeField_only (d : List Byte) (s : State) :
    Only [.ui, .ao, .dio, .ps] s (takeField d s) := by
  unfold takeField
  repeat' first
    | with_reducible exact Only.refl _ _
    | decide
    | with_reducible apply Only.ite
    | with_reducible apply Only.dite
    | with_reducible apply Only.set_ao_dio_ui_ps
    | intro _
    | split
    | dsimp only

theorem applyField_only (d : List Byte) (s : State) :
    Only [.evr, .ui, .ao, .dio, .ps] s (applyField d s) := by
  unfold applyField
  repeat' first
    | with_reducible exact Only.refl _ _
    | decide
    | with_reducible apply Only.ite
    | with_reducible apply Only.dite
    | with_reducible apply noted_only
    | with_reducible apply Only.after (takeField_only _ _)
    | intro _
    | split
    | dsimp only

theorem applyMarks_only (d : List Byte) (s : State) :
    Only [.lvn] s (applyMarks d s) := by
  unfold applyMarks
  repeat' first
    | with_reducible exact Only.refl _ _
    | decide
    | with_reducible apply Only.ite
    | with_reducible apply Only.dite
    | with_reducible apply Only.after (State.setLvn_only _ _)
    | intro _
    | split
    | dsimp only

theorem applyRec_only (s : State) (r : LvRec) : Only [.evr, .ui, .ao, .dio, .ps, .pev, .ann, .grp, .call, .imz, .lvn] s (applyRec s r) := by
  cases r
  all_goals
    dsimp only [applyRec]
    repeat' first
      | with_reducible exact Only.refl _ _
      | decide
      | with_reducible apply Only.after (State.setPt_only _ _ _)
      | with_reducible apply Only.after (State.putGrp_only _ _ _)
      | with_reducible apply Only.after (State.setGrps_only _ _)
      | with_reducible apply Only.after (State.putSess_only _ _ _)
      | with_reducible apply Only.after (State.setImz_only _ _)
      | with_reducible apply Only.after (State.setCall_only _ _)
      | with_reducible apply Only.after (State.setAnn_only _ _)
      | with_reducible apply Only.after (State.setLvn_only _ _)
      | with_reducible apply Only.after (applyField_only _ _)
      | with_reducible apply Only.after (applyMarks_only _ _)

theorem dropOpen_only (s : State) :
    Only [.lvn] s (dropOpen s) := by
  unfold dropOpen
  repeat' first
    | with_reducible exact Only.refl _ _
    | decide
    | with_reducible apply Only.ite
    | with_reducible apply Only.dite
    | with_reducible apply Only.after (State.setLvn_only _ _)
    | intro _
    | split
    | dsimp only

theorem swapHear_only (flags : Half) (s : State) :
    Only [.rcp] s (swapHear flags s) := by
  unfold swapHear
  repeat' first
    | with_reducible exact Only.refl _ _
    | decide
    | with_reducible apply Only.ite
    | with_reducible apply Only.dite
    | with_reducible apply Only.set_rcp
    | intro _
    | split
    | dsimp only

theorem swapLost_only (swap : Bool) (s : State) :
    Only [.rcp, .evr] s (swapLost swap s) := by
  unfold swapLost
  repeat' first
    | with_reducible exact Only.refl _ _
    | decide
    | with_reducible apply Only.ite
    | with_reducible apply Only.dite
    | with_reducible apply Only.after (raise_only _ _ _)
    | with_reducible apply Only.set_rcp
    | intro _
    | split
    | dsimp only

theorem epochCommit_only (n bytes : Word) (frames flags : Half) (crc : Bool) (s : State) :
    Only [.rcp, .evr, .ui, .ao, .dio, .ps, .pev, .ann, .grp, .call, .imz, .lvn, .mmc, .age] s (epochCommit n bytes frames flags crc s) := by
  unfold epochCommit
  split
  · exact Only.refl _ _
  · refine Only.ite ?_ ?_
    · extract_lets s1 s2
      have h1 : Only [.rcp, .evr, .ui, .ao, .dio, .ps, .pev, .ann, .grp, .call, .imz, .lvn, .mmc, .age] s s1 := by
        refine Only.after (settingsSync_only _ _) (by decide) (Only.after (tablePost_only _) (by decide)
          (Only.after (dropOpen_only _) (by decide) ?_))
        exact Only.foldl (fun u r => (applyRec_only u r).mono (by decide)) (Only.refl _ _)
      have h : Only [.rcp, .evr, .ui, .ao, .dio, .ps, .pev, .ann, .grp, .call, .imz, .lvn, .mmc, .age] s s2 := Only.after (State.setLvn_only _ _) (by decide) h1
      clear_value s1 s2
      exact Only.ite (Only.set_rcp h (by decide)) h
    · exact Only.after (swapHear_only _ _) (by decide) (Only.after (lvnEvent_only _ _ _ _) (by decide)
        (Only.after (State.setLvn_only _ _) (by decide) ((dropOpen_only _).mono (by decide))))

theorem asStandby_only {l : List Part} {s : State} (f : State → State) (t : State) (h : ∀ u, Only l u (f u))
    (_ : Part.sub [] l = true) (g : Only l s t) : Only l s (asStandby f t) := by
  unfold asStandby
  repeat' first
    | assumption
    | with_reducible exact Only.refl _ _
    | with_reducible apply Only.after (h _)
    | with_reducible apply Only.after (h _ _)
    | exact Part.sub_refl _
    | with_reducible apply Only.ite
    | with_reducible apply Only.dite
    | intro _
    | split
    | dsimp only

theorem lvLog_only (e : LogCmd) (s : State) :
    Only [.lvn] s (lvLog e s) := by
  unfold lvLog
  repeat' first
    | with_reducible exact Only.refl _ _
    | decide
    | with_reducible apply Only.ite
    | with_reducible apply Only.dite
    | with_reducible apply asStandby_only
    | with_reducible apply Only.after (State.setLvn_only _ _)
    | intro _
    | split
    | dsimp only

theorem dioTake_only (s : State) :
    Only [.dio, .dioBlk] s (dioTake s) := by
  unfold dioTake
  repeat' first
    | with_reducible exact Only.refl _ _
    | decide
    | with_reducible apply Only.ite
    | with_reducible apply Only.dite
    | with_reducible apply Only.after (dioDriveAll_only _)
    | with_reducible apply Only.set_dio
    | intro _
    | split
    | dsimp only

theorem aoTake_only (volts : Vector Int 4) (s : State) :
    Only [.ao] s (aoTake volts s) := by
  unfold aoTake
  repeat' first
    | with_reducible exact Only.refl _ _
    | decide
    | with_reducible apply Only.ite
    | with_reducible apply Only.dite
    | with_reducible apply Only.foldl
    | with_reducible apply Only.after (State.setAo_only _ _ _)
    | intro _
    | split
    | dsimp only

theorem recTake_only (s : State) :
    Only [.evr, .pev, .recd] s (recTake s) := by
  unfold recTake
  repeat' first
    | with_reducible exact Only.refl _ _
    | decide
    | with_reducible apply Only.ite
    | with_reducible apply Only.dite
    | with_reducible apply Only.after (sliceTakeover_only _)
    | with_reducible apply Only.after (State.setRec_only _ _)
    | with_reducible apply Only.after (raise_only _ _ _)
    | intro _
    | split
    | dsimp only

theorem takeOver_only (cause : Nat) (volts : Vector Int 4) (swap : Bool) (s : State) :
    Only [.sys, .rcp, .evr, .ui, .ao, .dio, .dioBlk, .can, .pev, .imz, .lvn, .recd] s (takeOver cause volts swap s) := by
  unfold takeOver
  repeat' first
    | with_reducible exact Only.refl _ _
    | decide
    | with_reducible apply Only.ite
    | with_reducible apply Only.dite
    | with_reducible apply Only.after (setRole_only _ _ _)
    | with_reducible apply Only.after (dropOpen_only _)
    | with_reducible apply Only.after (lvnEvent_only _ _ _ _)
    | with_reducible apply Only.after (inhibitAll_only _)
    | with_reducible apply noted_only
    | with_reducible apply Only.after (uiTakeOver_only _)
    | with_reducible apply Only.after (aoTake_only _ _)
    | with_reducible apply Only.after (dioTake_only _)
    | with_reducible apply Only.after (setOut_only _ _)
    | with_reducible apply Only.after (clearHand_only _)
    | with_reducible apply Only.after (swapLost_only _ _)
    | with_reducible apply Only.after (recTake_only _)
    | with_reducible apply Only.after (State.setLvn_only _ _)
    | with_reducible apply Only.after (splitStart_only _)
    | intro _
    | split
    | dsimp only

theorem splitEnter_only (s : State) :
    Only [.evr, .can, .imz, .lvn] s (splitEnter s) := by
  unfold splitEnter
  repeat' first
    | with_reducible exact Only.refl _ _
    | decide
    | with_reducible apply Only.ite
    | with_reducible apply Only.dite
    | with_reducible apply Only.after (State.setLvn_only _ _)
    | with_reducible apply Only.after (splitStart_only _)
    | with_reducible apply Only.after (setPair_only _ _)
    | intro _
    | split
    | dsimp only

theorem beatLoss_only (volts : Vector Int 4) (swap : Bool) (s : State) :
    Only [.sys, .rcp, .evr, .ui, .ao, .dio, .dioBlk, .can, .pev, .imz, .lvn, .recd] s (beatLoss volts swap s) := by
  unfold beatLoss
  repeat' first
    | with_reducible exact Only.refl _ _
    | decide
    | with_reducible apply Only.ite
    | with_reducible apply Only.dite
    | with_reducible apply Only.after (State.setLvn_only _ _)
    | with_reducible apply Only.after (takeOver_only _ _ _ _)
    | with_reducible apply Only.after (splitEnter_only _)
    | intro _
    | split
    | dsimp only

theorem aoRecheck_only (c : Fin 4) (v : Int) (low : Bool) (s : State) :
    Only [.evr, .ao] s (aoRecheck c v low s) := by
  unfold aoRecheck
  repeat' first
    | with_reducible exact Only.refl _ _
    | decide
    | with_reducible apply Only.ite
    | with_reducible apply Only.dite
    | with_reducible apply Only.after (State.setAo_only _ _ _)
    | with_reducible apply Only.after (aoNotify_only _ _ _)
    | intro _
    | split
    | dsimp only

theorem aoUnhold_only (s : State) :
    Only [.evr, .ao] s (aoUnhold s) := by
  unfold aoUnhold
  repeat' first
    | with_reducible exact Only.refl _ _
    | decide
    | with_reducible apply Only.ite
    | with_reducible apply Only.dite
    | with_reducible apply Only.foldl
    | with_reducible apply Only.after (State.setAo_only _ _ _)
    | with_reducible apply Only.after (aoNotify_only _ _ _)
    | intro _
    | split
    | dsimp only

theorem splitTake_only (st : PairState) (s : State) :
    Only [.sys, .evr, .ui, .lvn] s (splitTake st s) := by
  unfold splitTake
  repeat' first
    | with_reducible exact Only.refl _ _
    | decide
    | with_reducible apply Only.ite
    | with_reducible apply Only.dite
    | with_reducible apply Only.after (uiTakeControl_only _)
    | with_reducible apply Only.after (inhibitAll_only _)
    | with_reducible apply Only.after (setRole_only _ _ _)
    | intro _
    | split
    | dsimp only

theorem splitKeep_only (st : PairState) (s : State) :
    Only [.sys, .evr, .ui, .ao, .lvn] s (splitKeep st s) := by
  unfold splitKeep
  repeat' first
    | with_reducible exact Only.refl _ _
    | decide
    | with_reducible apply Only.ite
    | with_reducible apply Only.dite
    | with_reducible apply Only.after (splitEnd_only _)
    | with_reducible apply Only.after (splitTake_only _ _)
    | with_reducible apply Only.after (aoUnhold_only _)
    | with_reducible apply Only.after (setPair_only _ _)
    | intro _
    | split
    | dsimp only

theorem splitBeat_only (active fault : Bool) (s : State) :
    Only [.sys, .evr, .ui, .ao, .dio, .dioBlk, .lvn] s (splitBeat active fault s) := by
  unfold splitBeat
  repeat' first
    | with_reducible exact Only.refl _ _
    | decide
    | with_reducible apply Only.ite
    | with_reducible apply Only.dite
    | with_reducible apply Only.after (splitEnd_only _)
    | with_reducible apply Only.after (setRole_only _ _ _)
    | with_reducible apply Only.after (releaseControl_only _)
    | with_reducible apply Only.after (splitKeep_only _ _)
    | with_reducible apply Only.after (splitTake_only _ _)
    | intro _
    | split
    | dsimp only

theorem splitCheckEnd_only (s : State) :
    Only [.sys, .evr, .ui, .ao, .lvn] s (splitCheckEnd s) := by
  unfold splitCheckEnd
  repeat' first
    | with_reducible exact Only.refl _ _
    | decide
    | with_reducible apply Only.ite
    | with_reducible apply Only.dite
    | with_reducible apply Only.after (splitKeep_only _ _)
    | intro _
    | split
    | dsimp only

theorem execLvnLinkTrained_only (lat : Nat) (s : State) :
    ∃ t', execLvnLinkTrained lat s = .next t' ∧ Only [.evr, .lvn] s t' := by
  refine ⟨_, rfl, ?_⟩
  repeat' first
    | with_reducible exact Only.refl _ _
    | decide
    | with_reducible apply Only.ite
    | with_reducible apply Only.dite
    | with_reducible apply Only.after (linkTrained_only _ _)
    | intro _
    | split
    | dsimp only

theorem execLvnLaneDown_only (l : Fin 2) (s : State) :
    ∃ t', execLvnLaneDown l s = .next t' ∧ Only [.evr, .lvn] s t' := by
  refine ⟨_, rfl, ?_⟩
  repeat' first
    | with_reducible exact Only.refl _ _
    | decide
    | with_reducible apply Only.ite
    | with_reducible apply Only.dite
    | with_reducible apply Only.after (laneDown_only _ _)
    | intro _
    | split
    | dsimp only

theorem execLvnLaneRetrain_only (l : Fin 2) (ok : Bool) (s : State) :
    ∃ t', execLvnLaneRetrain l ok s = .next t' ∧ Only [.evr, .lvn] s t' := by
  refine ⟨_, rfl, ?_⟩
  repeat' first
    | with_reducible exact Only.refl _ _
    | decide
    | with_reducible apply Only.ite
    | with_reducible apply Only.dite
    | with_reducible apply Only.after (laneUp_only _ _)
    | intro _
    | split
    | dsimp only

theorem execLvHeartbeatSend_only (s : State) :
    ∃ t', execLvHeartbeatSend s = .next t' ∧ Only [.lvn] s t' := by
  refine ⟨_, rfl, ?_⟩
  repeat' first
    | with_reducible exact Only.refl _ _
    | decide
    | with_reducible apply Only.ite
    | with_reducible apply Only.dite
    | with_reducible apply Only.after (lvBeatSend_only _)
    | intro _
    | split
    | dsimp only

theorem execLvHeartbeatReceived_only (d : List Byte) (ok : Bool) (age : Nat) (s : State) :
    ∃ t', execLvHeartbeatReceived d ok age s = .next t' ∧ Only [.now, .drawn, .sys, .evr, .ui, .ao, .dio, .dioBlk, .pev, .call, .tim, .lvn, .recd, .mmc] s t' := by
  refine ⟨_, rfl, ?_⟩
  repeat' first
    | with_reducible exact Only.refl _ _
    | decide
    | with_reducible apply Only.ite
    | with_reducible apply Only.dite
    | with_reducible apply lvFrame_only
    | with_reducible apply Only.after (lvBeatRx_only _ _ _)
    | with_reducible apply Only.after (State.setLvn_only _ _)
    | intro _
    | split
    | dsimp only

theorem execLvHelloSend_only (s : State) :
    ∃ t', execLvHelloSend s = .next t' ∧ Only [.lvn] s t' := by
  refine ⟨_, rfl, ?_⟩
  repeat' first
    | with_reducible exact Only.refl _ _
    | decide
    | with_reducible apply Only.ite
    | with_reducible apply Only.dite
    | with_reducible apply Only.after (lvHelloSend_only _)
    | intro _
    | split
    | dsimp only

theorem execLvHelloReceived_only (d : List Byte) (ok : Bool) (s : State) :
    ∃ t', execLvHelloReceived d ok s = .next t' ∧ Only [.lvn] s t' := by
  refine ⟨_, rfl, ?_⟩
  repeat' first
    | with_reducible exact Only.refl _ _
    | decide
    | with_reducible apply Only.ite
    | with_reducible apply Only.dite
    | with_reducible apply lvFrame_only
    | with_reducible apply Only.after (lvHelloRx_only _ _)
    | intro _
    | split
    | dsimp only

theorem execRoleNegotiation_only (s : State) :
    ∃ t', execRoleNegotiation s = .next t' ∧ Only [.sys, .evr, .ui, .imz, .tim, .lvn] s t' := by
  refine ⟨_, rfl, ?_⟩
  repeat' first
    | with_reducible exact Only.refl _ _
    | decide
    | with_reducible apply Only.ite
    | with_reducible apply Only.dite
    | with_reducible apply Only.after (negotiate_only _)
    | intro _
    | split
    | dsimp only

theorem execPeerWaitExpiry_only (s : State) :
    ∃ t', execPeerWaitExpiry s = .next t' ∧ Only [.sys, .evr, .ui, .can, .imz, .tim, .lvn] s t' := by
  refine ⟨_, rfl, ?_⟩
  repeat' first
    | with_reducible exact Only.refl _ _
    | decide
    | with_reducible apply Only.ite
    | with_reducible apply Only.dite
    | with_reducible apply Only.after (peerWaitEnd_only _)
    | intro _
    | split
    | dsimp only

theorem execEpochBoundary_only (bytes frames : Nat) (s : State) :
    ∃ t', execEpochBoundary bytes frames s = .next t' ∧ Only [.drawn, .rcp, .evr, .pev, .lvn] s t' := by
  refine ⟨_, rfl, ?_⟩
  repeat' first
    | with_reducible exact Only.refl _ _
    | decide
    | with_reducible apply Only.ite
    | with_reducible apply Only.dite
    | with_reducible apply Only.after (epochSend_only _ _ _)
    | intro _
    | split
    | dsimp only

theorem execLvEpochOpenReceived_only (n base : Word) (t : Ts) (ok : Bool) (s : State) :
    ∃ t', execLvEpochOpenReceived n base t ok s = .next t' ∧ Only [.lvn] s t' := by
  refine ⟨_, rfl, ?_⟩
  repeat' first
    | with_reducible exact Only.refl _ _
    | decide
    | with_reducible apply Only.ite
    | with_reducible apply Only.dite
    | with_reducible apply lvFrame_only
    | with_reducible apply asStandby_only
    | with_reducible apply Only.after (dropOpen_only _)
    | with_reducible apply Only.after (State.setLvn_only _ _)
    | intro _
    | split
    | dsimp only

theorem execLvDeltaReceived_only (recs : List LvRec) (bytes : Nat) (ok : Bool) (s : State) :
    ∃ t', execLvDeltaReceived recs bytes ok s = .next t' ∧ Only [.lvn] s t' := by
  refine ⟨_, rfl, ?_⟩
  repeat' first
    | with_reducible exact Only.refl _ _
    | decide
    | with_reducible apply Only.ite
    | with_reducible apply Only.dite
    | with_reducible apply lvFrame_only
    | with_reducible apply asStandby_only
    | with_reducible apply Only.after (State.setLvn_only _ _)
    | intro _
    | split
    | dsimp only

theorem execLvCommitReceived_only (n bytes : Word) (frames flags : Half) (crc ok : Bool) (s : State) :
    ∃ t', execLvCommitReceived n bytes frames flags crc ok s = .next t' ∧ Only [.rcp, .evr, .ui, .ao, .dio, .ps, .pev, .ann, .grp, .call, .imz, .lvn, .mmc, .age] s t' := by
  refine ⟨_, rfl, ?_⟩
  repeat' first
    | with_reducible exact Only.refl _ _
    | decide
    | with_reducible apply Only.ite
    | with_reducible apply Only.dite
    | with_reducible apply lvFrame_only
    | with_reducible apply asStandby_only
    | with_reducible apply Only.after (epochCommit_only _ _ _ _ _ _)
    | intro _
    | split
    | dsimp only

theorem execLvCmdFwdReceived_only (d : List Byte) (ok : Bool) (s : State) :
    ∃ t', execLvCmdFwdReceived d ok s = .next t' ∧ Only [.lvn] s t' := by
  refine ⟨_, rfl, ?_⟩
  repeat' first
    | with_reducible exact Only.refl _ _
    | decide
    | with_reducible apply Only.ite
    | with_reducible apply Only.dite
    | with_reducible apply lvFrame_only
    | with_reducible apply Only.after (lvLog_only _ _)
    | intro _
    | split
    | dsimp only

theorem execLvFaultReceived_only (volts : Vector Int 4) (swap ok : Bool) (s : State) :
    ∃ t', execLvFaultReceived volts swap ok s = .next t' ∧ Only [.sys, .rcp, .evr, .ui, .ao, .dio, .dioBlk, .can, .pev, .imz, .lvn, .recd] s t' := by
  refine ⟨_, rfl, ?_⟩
  repeat' first
    | with_reducible exact Only.refl _ _
    | decide
    | with_reducible apply Only.ite
    | with_reducible apply Only.dite
    | with_reducible apply lvFrame_only
    | with_reducible apply Only.after (takeOver_only _ _ _ _)
    | intro _
    | split
    | dsimp only

theorem execLvPresInFall_only (s : State) :
    ∃ t', execLvPresInFall s = .next t' ∧ Only [.sys, .lvn] s t' := by
  refine ⟨_, rfl, ?_⟩
  repeat' first
    | with_reducible exact Only.refl _ _
    | decide
    | with_reducible apply Only.ite
    | with_reducible apply Only.dite
    | with_reducible apply Only.after (State.setLvn_only _ _)
    | with_reducible apply Only.set_sys
    | intro _
    | split
    | dsimp only

theorem execLvPresInRise_only (s : State) :
    ∃ t', execLvPresInRise s = .next t' ∧ Only [.sys, .lvn] s t' := by
  refine ⟨_, rfl, ?_⟩
  repeat' first
    | with_reducible exact Only.refl _ _
    | decide
    | with_reducible apply Only.ite
    | with_reducible apply Only.dite
    | with_reducible apply Only.after (State.setLvn_only _ _)
    | with_reducible apply Only.set_sys
    | intro _
    | split
    | dsimp only

theorem execPresCheckExpiry_only (volts : Vector Int 4) (swap : Bool) (s : State) :
    ∃ t', execPresCheckExpiry volts swap s = .next t' ∧ Only [.sys, .rcp, .evr, .ui, .ao, .dio, .dioBlk, .can, .pev, .imz, .lvn, .recd] s t' := by
  refine ⟨_, rfl, ?_⟩
  repeat' first
    | with_reducible exact Only.refl _ _
    | decide
    | with_reducible apply Only.ite
    | with_reducible apply Only.dite
    | with_reducible apply Only.after (takeOver_only _ _ _ _)
    | with_reducible apply Only.after (State.setLvn_only _ _)
    | intro _
    | split
    | dsimp only

theorem execLvHeartbeatLoss_only (volts : Vector Int 4) (swap : Bool) (s : State) :
    ∃ t', execLvHeartbeatLoss volts swap s = .next t' ∧ Only [.sys, .rcp, .evr, .ui, .ao, .dio, .dioBlk, .can, .pev, .imz, .lvn, .recd] s t' := by
  refine ⟨_, rfl, ?_⟩
  repeat' first
    | with_reducible exact Only.refl _ _
    | decide
    | with_reducible apply Only.ite
    | with_reducible apply Only.dite
    | with_reducible apply Only.after (beatLoss_only _ _ _)
    | intro _
    | split
    | dsimp only

theorem execAoHeldRecheck_only (c : Fin 4) (v : Int) (low : Bool) (s : State) :
    ∃ t', execAoHeldRecheck c v low s = .next t' ∧ Only [.evr, .ao] s t' := by
  refine ⟨_, rfl, ?_⟩
  repeat' first
    | with_reducible exact Only.refl _ _
    | decide
    | with_reducible apply Only.ite
    | with_reducible apply Only.dite
    | with_reducible apply Only.after (aoRecheck_only _ _ _ _)
    | intro _
    | split
    | dsimp only

theorem execSplitCheckExpiry_only (s : State) :
    ∃ t', execSplitCheckExpiry s = .next t' ∧ Only [.sys, .evr, .ui, .ao, .lvn] s t' := by
  refine ⟨_, rfl, ?_⟩
  repeat' first
    | with_reducible exact Only.refl _ _
    | decide
    | with_reducible apply Only.ite
    | with_reducible apply Only.dite
    | with_reducible apply Only.after (splitCheckEnd_only _)
    | intro _
    | split
    | dsimp only

theorem execSplitPartnerLoss_only (s : State) :
    ∃ t', execSplitPartnerLoss s = .next t' ∧ Only [.sys, .evr, .ui, .lvn] s t' := by
  refine ⟨_, rfl, ?_⟩
  repeat' first
    | with_reducible exact Only.refl _ _
    | decide
    | with_reducible apply Only.ite
    | with_reducible apply Only.dite
    | with_reducible apply Only.after (splitTake_only _ _)
    | intro _
    | split
    | dsimp only

theorem execHeartbeatReceived_only (f : ImzRx) (unitB : Bool) (s : State) :
    ∃ t', execHeartbeatReceived f unitB s = .next t' ∧ Only [.sys, .evr, .ui, .ao, .dio, .dioBlk, .can, .imz, .lvn] s t' := by
  refine ⟨_, rfl, ?_⟩
  repeat' first
    | with_reducible exact Only.refl _ _
    | decide
    | with_reducible apply Only.ite
    | with_reducible apply Only.dite
    | with_reducible apply Only.after (mgrSeen_only _)
    | with_reducible apply imzRx_only
    | with_reducible apply Only.after (beatRx_only _ _)
    | with_reducible apply Only.after (splitBeat_only _ _ _)
    | intro _
    | split
    | dsimp only

end Sys2Proof.Machine
end

