-- ==== Sys2Proof/Laws/FrameRevert.lean ====
section
/-! SUPPORT. Revert: the parts of the state that each operation of Machine/Revert may change. -/
namespace Sys2Proof.Machine

open Sys2Proof

theorem revertAsk_only (s : State) :
    Only [.lvn] s (revertAsk s) := by
  unfold revertAsk
  repeat' first
    | with_reducible exact Only.refl _ _
    | decide
    | with_reducible apply Only.ite
    | with_reducible apply Only.dite
    | with_reducible apply Only.after (lvSend_only _ _)
    | with_reducible apply Only.after (State.setLvn_only _ _)
    | intro _
    | split
    | dsimp only

theorem handAccept_only (handover : Bool) (s : State) :
    Only [.lvn] s (handAccept handover s) := by
  unfold handAccept
  repeat' first
    | with_reducible exact Only.refl _ _
    | decide
    | with_reducible apply Only.ite
    | with_reducible apply Only.dite
    | with_reducible apply Only.after (lvSend_only _ _)
    | with_reducible apply Only.after (State.setLvn_only _ _)
    | intro _
    | split
    | dsimp only

theorem handStart_only (src : Source) (s : State) :
    Only [.sys, .lvn] s (handStart src s) := by
  unfold handStart
  repeat' first
    | with_reducible exact Only.refl _ _
    | decide
    | with_reducible apply Only.ite
    | with_reducible apply Only.dite
    | with_reducible apply Only.after (handAccept_only _ _)
    | with_reducible apply Only.after (logWerr_only _ _ _ _)
    | intro _
    | split
    | dsimp only

theorem unfreeze_only (s : State) :
    Only [.evr, .ao, .dio, .dioBlk] s (unfreeze s) := by
  unfold unfreeze
  repeat' first
    | with_reducible exact Only.refl _ _
    | decide
    | with_reducible apply Only.ite
    | with_reducible apply Only.dite
    | with_reducible apply noted_only
    | with_reducible apply Only.after (dioDriveAll_only _)
    | with_reducible apply Only.after (clearHand_only _)
    | intro _
    | split
    | dsimp only

theorem planTake_only (t : Ts) (s : State) :
    Only [.evr, .ao, .dio, .dioBlk, .lvn] s (planTake t s) := by
  unfold planTake
  repeat' first
    | with_reducible exact Only.refl _ _
    | decide
    | with_reducible apply Only.ite
    | with_reducible apply Only.dite
    | with_reducible apply Only.after (unfreeze_only _)
    | with_reducible apply Only.after (State.setLvn_only _ _)
    | intro _
    | split
    | dsimp only

theorem revertFreeze_only (s : State) :
    Only [.ao, .dio, .dioBlk, .lvn] s (revertFreeze s) := by
  unfold revertFreeze
  repeat' first
    | with_reducible exact Only.refl _ _
    | decide
    | with_reducible apply Only.ite
    | with_reducible apply Only.dite
    | with_reducible apply Only.after (State.setLvn_only _ _)
    | with_reducible apply Only.after (dioDriveAll_only _)
    | with_reducible apply Only.set_ao
    | with_reducible apply Only.set_ao_dio
    | intro _
    | split
    | dsimp only

theorem ackDeadline_only (s : State) :
    Only [.evr, .ao, .dio, .dioBlk, .lvn] s (ackDeadline s) := by
  unfold ackDeadline
  repeat' first
    | with_reducible exact Only.refl _ _
    | decide
    | with_reducible apply Only.ite
    | with_reducible apply Only.dite
    | with_reducible apply Only.after (lvSend_only _ _)
    | with_reducible apply Only.after (unfreeze_only _)
    | with_reducible apply Only.after (State.setLvn_only _ _)
    | intro _
    | split
    | dsimp only

theorem revertFailed_only (s : State) :
    Only [.evr, .lvn] s (revertFailed s) := by
  unfold revertFailed
  repeat' first
    | with_reducible exact Only.refl _ _
    | decide
    | with_reducible apply Only.ite
    | with_reducible apply Only.dite
    | with_reducible apply Only.after (lvnEvent_only _ _ _ _)
    | with_reducible apply Only.after (State.setLvn_only _ _)
    | intro _
    | split
    | dsimp only

theorem aoHandOff_only (s : State) :
    Only [.evr, .ao] s (aoHandOff s) := by
  unfold aoHandOff
  repeat' first
    | with_reducible exact Only.refl _ _
    | decide
    | with_reducible apply Only.ite
    | with_reducible apply Only.dite
    | with_reducible apply noted_only
    | with_reducible apply Only.after (aoEndSpell_only _)
    | with_reducible apply Only.set_ao
    | intro _
    | split
    | dsimp only

theorem handDrive_only (s : State) :
    Only [.sys, .evr, .ao, .dio, .dioBlk] s (handDrive s) := by
  unfold handDrive
  repeat' first
    | with_reducible exact Only.refl _ _
    | decide
    | with_reducible apply Only.ite
    | with_reducible apply Only.dite
    | with_reducible apply Only.foldl
    | with_reducible apply noted_only
    | with_reducible apply Only.after (dioDriveAll_only _)
    | with_reducible apply Only.after (setOut_only _ _)
    | with_reducible apply Only.after (State.setAo_only _ _ _)
    | with_reducible apply Only.set_dio
    | intro _
    | split
    | dsimp only

theorem aoThaw_only (s : State) :
    Only [.ao] s (aoThaw s) := by
  unfold aoThaw
  repeat' first
    | with_reducible exact Only.refl _ _
    | decide
    | with_reducible apply Only.ite
    | with_reducible apply Only.dite
    | with_reducible apply Only.set_ao
    | intro _
    | split
    | dsimp only

theorem handFail_only (dio : BitVec 2) (ao : BitVec 4) (s : State) :
    Only [.sys, .evr, .ao, .dio, .dioBlk, .lvn] s (handFail dio ao s) := by
  unfold handFail
  repeat' first
    | with_reducible exact Only.refl _ _
    | decide
    | with_reducible apply Only.ite
    | with_reducible apply Only.dite
    | with_reducible apply Only.foldl
    | with_reducible apply Only.after (aoNotify_only _ _ _)
    | with_reducible apply Only.after (State.setAo_only _ _ _)
    | with_reducible apply noted_only
    | with_reducible apply Only.after (dioReleaseAll_only _)
    | with_reducible apply Only.after (setOut_only _ _)
    | with_reducible apply Only.after (clearHand_only _)
    | with_reducible apply Only.after (aoLetGo_only _)
    | with_reducible apply Only.after (lvSend_only _ _)
    | with_reducible apply Only.after (revertFailed_only _)
    | with_reducible apply Only.after (State.setLvn_only _ _)
    | intro _
    | split
    | dsimp only

theorem revertSwitch_only (dio : BitVec 2) (ao : BitVec 4) (s : State) :
    Only [.sys, .evr, .ao, .dio, .dioBlk, .lvn] s (revertSwitch dio ao s) := by
  unfold revertSwitch
  repeat' first
    | with_reducible exact Only.refl _ _
    | decide
    | with_reducible apply Only.ite
    | with_reducible apply Only.dite
    | with_reducible apply Only.after (aoHandOff_only _)
    | with_reducible apply Only.after (lvSend_only _ _)
    | with_reducible apply Only.after (revertFailed_only _)
    | with_reducible apply Only.after (handDrive_only _)
    | with_reducible apply Only.after (aoThaw_only _)
    | with_reducible apply Only.after (handFail_only _ _ _)
    | intro _
    | split
    | dsimp only

theorem aoHandBack_only (s : State) :
    Only [.evr, .ao] s (aoHandBack s) := by
  unfold aoHandBack
  repeat' first
    | with_reducible exact Only.refl _ _
    | decide
    | with_reducible apply Only.ite
    | with_reducible apply Only.dite
    | with_reducible apply Only.foldl
    | with_reducible apply noted_only
    | with_reducible apply Only.after (State.setAo_only _ _ _)
    | intro _
    | split
    | dsimp only

theorem revertKeep_only (s : State) :
    Only [.evr, .ao, .lvn] s (revertKeep s) := by
  unfold revertKeep
  repeat' first
    | with_reducible exact Only.refl _ _
    | decide
    | with_reducible apply Only.ite
    | with_reducible apply Only.dite
    | with_reducible apply Only.after (revertFailed_only _)
    | with_reducible apply Only.after (aoHandBack_only _)
    | intro _
    | split
    | dsimp only

theorem handConfirmed_only (dio ao : Byte) (s : State) :
    Only [.lvn] s (handConfirmed dio ao s) := by
  unfold handConfirmed
  repeat' first
    | with_reducible exact Only.refl _ _
    | decide
    | with_reducible apply Only.ite
    | with_reducible apply Only.dite
    | with_reducible apply Only.after (State.setLvn_only _ _)
    | intro _
    | split
    | dsimp only

theorem revertRelease_only (s : State) :
    Only [.evr, .ui, .ao, .dio, .dioBlk, .lvn] s (revertRelease s) := by
  unfold revertRelease
  repeat' first
    | with_reducible exact Only.refl _ _
    | decide
    | with_reducible apply Only.ite
    | with_reducible apply Only.dite
    | with_reducible apply noted_only
    | with_reducible apply Only.after (uiListenEntry_only _)
    | with_reducible apply Only.after (dioDriveAll_only _)
    | with_reducible apply Only.after (revertKeep_only _)
    | with_reducible apply Only.set_dioBlk
    | intro _
    | split
    | dsimp only

theorem dropCommands_only (s : State) :
    Only [.pev, .ann, .call] s (dropCommands s) := by
  unfold dropCommands
  extract_lets _ s1 s2 s3
  have h1 : Only [.pev, .ann, .call] s s1 := by
    unfold s1
    split
    · exact Only.set_pev (Only.refl _ _) (by decide)
    · exact Only.refl _ _
  clear_value s1
  have h2 : Only [.pev, .ann, .call] s s2 := Only.ite (Only.after (State.setAnn_only _ _) (by decide) h1) h1
  clear_value s2
  have h3 : Only [.pev, .ann, .call] s s3 := Only.ite (Only.after (State.setCall_only _ _) (by decide) h2) h2
  clear_value s3
  exact Only.after (State.setCall_only _ _) (by decide) (Only.after (State.setAnn_only _ _) (by decide) h3)

theorem revertEnd_only (s : State) :
    Only [.sys, .evr, .ui, .ao, .dio, .dioBlk, .pev, .ann, .call, .lvn, .recd] s (revertEnd s) := by
  unfold revertEnd
  repeat' first
    | with_reducible exact Only.refl _ _
    | decide
    | with_reducible apply Only.ite
    | with_reducible apply Only.dite
    | with_reducible apply Only.after (State.setLvn_only _ _)
    | with_reducible apply Only.after (unfreeze_only _)
    | with_reducible apply Only.after (setRole_only _ _ _)
    | with_reducible apply Only.after (recTake_only _)
    | with_reducible apply Only.after (uiTakeControl_only _)
    | with_reducible apply Only.after (dropCommands_only _)
    | with_reducible apply Only.after (releaseControl_only _)
    | intro _
    | split
    | dsimp only

theorem imageSend_only (s : State) :
    Only [.lvn] s (imageSend s) := by
  unfold imageSend
  repeat' first
    | with_reducible exact Only.refl _ _
    | decide
    | with_reducible apply Only.ite
    | with_reducible apply Only.dite
    | with_reducible apply Only.after (State.setLvn_only _ _)
    | with_reducible apply Only.after (lvSend_only _ _)
    | intro _
    | split
    | dsimp only

theorem imageTake_only (d : List Byte) (s : State) :
    Only [.rcp, .lvn] s (imageTake d s) := by
  unfold imageTake
  repeat' first
    | with_reducible exact Only.refl _ _
    | decide
    | with_reducible apply Only.ite
    | with_reducible apply Only.dite
    | with_reducible apply Only.after (State.setLvn_only _ _)
    | with_reducible apply Only.set_rcp
    | intro _
    | split
    | dsimp only

theorem lvnStop_only (src : Source) (stop : Bool) (s : State) :
    Only [.sys, .evr, .lvn] s (lvnStop src stop s) := by
  unfold lvnStop
  repeat' first
    | with_reducible exact Only.refl _ _
    | decide
    | with_reducible apply Only.ite
    | with_reducible apply Only.dite
    | with_reducible apply Only.after (logWerr_only _ _ _ _)
    | with_reducible apply Only.after (laneDown_only _ _)
    | with_reducible apply Only.after (State.setLvn_only _ _)
    | intro _
    | split
    | dsimp only

theorem lvnLoopStart_only (src : Source) (depth : Nat) (s : State) :
    Only [.sys, .lvn] s (lvnLoopStart src depth s) := by
  unfold lvnLoopStart
  repeat' first
    | with_reducible exact Only.refl _ _
    | decide
    | with_reducible apply Only.ite
    | with_reducible apply Only.dite
    | with_reducible apply Only.after (State.setLvn_only _ _)
    | with_reducible apply Only.after (lvSend_only _ _)
    | with_reducible apply Only.after (logWerr_only _ _ _ _)
    | intro _
    | split
    | dsimp only

theorem lvnLoopDone_only (errors : Nat) (s : State) :
    Only [.lvn] s (lvnLoopDone errors s) := by
  unfold lvnLoopDone
  repeat' first
    | with_reducible exact Only.refl _ _
    | decide
    | with_reducible apply Only.ite
    | with_reducible apply Only.dite
    | with_reducible apply Only.after (State.setLvn_only _ _)
    | intro _
    | split
    | dsimp only

theorem execRevertHoldExpiry_only (s : State) :
    ∃ t', execRevertHoldExpiry s = .next t' ∧ Only [.lvn] s t' := by
  refine ⟨_, rfl, ?_⟩
  repeat' first
    | with_reducible exact Only.refl _ _
    | decide
    | with_reducible apply Only.ite
    | with_reducible apply Only.dite
    | with_reducible apply Only.after (revertAsk_only _)
    | intro _
    | split
    | dsimp only

theorem execLvnHandover_only (src : Source) (s : State) :
    ∃ t', execLvnHandover src s = .next t' ∧ Only [.sys, .lvn] s t' := by
  refine ⟨_, rfl, ?_⟩
  repeat' first
    | with_reducible exact Only.refl _ _
    | decide
    | with_reducible apply Only.ite
    | with_reducible apply Only.dite
    | with_reducible apply Only.after (handStart_only _ _)
    | intro _
    | split
    | dsimp only

theorem execLvRevertReqReceived_only (handover ok : Bool) (s : State) :
    ∃ t', execLvRevertReqReceived handover ok s = .next t' ∧ Only [.lvn] s t' := by
  refine ⟨_, rfl, ?_⟩
  repeat' first
    | with_reducible exact Only.refl _ _
    | decide
    | with_reducible apply Only.ite
    | with_reducible apply Only.dite
    | with_reducible apply lvFrame_only
    | with_reducible apply Only.after (handAccept_only _ _)
    | intro _
    | split
    | dsimp only

theorem execLvRevertPlanReceived_only (t : Ts) (ok : Bool) (s : State) :
    ∃ t', execLvRevertPlanReceived t ok s = .next t' ∧ Only [.evr, .ao, .dio, .dioBlk, .lvn] s t' := by
  refine ⟨_, rfl, ?_⟩
  repeat' first
    | with_reducible exact Only.refl _ _
    | decide
    | with_reducible apply Only.ite
    | with_reducible apply Only.dite
    | with_reducible apply lvFrame_only
    | with_reducible apply asStandby_only
    | with_reducible apply Only.after (planTake_only _ _)
    | intro _
    | split
    | dsimp only

theorem execRevertFreeze_only (s : State) :
    ∃ t', execRevertFreeze s = .next t' ∧ Only [.ao, .dio, .dioBlk, .lvn] s t' := by
  refine ⟨_, rfl, ?_⟩
  repeat' first
    | with_reducible exact Only.refl _ _
    | decide
    | with_reducible apply Only.ite
    | with_reducible apply Only.dite
    | with_reducible apply Only.after (revertFreeze_only _)
    | intro _
    | split
    | dsimp only

theorem execRevertAckDeadline_only (s : State) :
    ∃ t', execRevertAckDeadline s = .next t' ∧ Only [.evr, .ao, .dio, .dioBlk, .lvn] s t' := by
  refine ⟨_, rfl, ?_⟩
  repeat' first
    | with_reducible exact Only.refl _ _
    | decide
    | with_reducible apply Only.ite
    | with_reducible apply Only.dite
    | with_reducible apply Only.after (ackDeadline_only _)
    | intro _
    | split
    | dsimp only

theorem execRevertSwitch_only (dio : BitVec 2) (ao : BitVec 4) (s : State) :
    ∃ t', execRevertSwitch dio ao s = .next t' ∧ Only [.sys, .evr, .ao, .dio, .dioBlk, .lvn] s t' := by
  refine ⟨_, rfl, ?_⟩
  repeat' first
    | with_reducible exact Only.refl _ _
    | decide
    | with_reducible apply Only.ite
    | with_reducible apply Only.dite
    | with_reducible apply Only.after (revertSwitch_only _ _ _)
    | intro _
    | split
    | dsimp only

theorem execLvConfirmReceived_only (dio ao : Byte) (ok : Bool) (s : State) :
    ∃ t', execLvConfirmReceived dio ao ok s = .next t' ∧ Only [.lvn] s t' := by
  refine ⟨_, rfl, ?_⟩
  repeat' first
    | with_reducible exact Only.refl _ _
    | decide
    | with_reducible apply Only.ite
    | with_reducible apply Only.dite
    | with_reducible apply lvFrame_only
    | with_reducible apply Only.after (handConfirmed_only _ _ _)
    | intro _
    | split
    | dsimp only

theorem execLvRevertFailReceived_only (ok : Bool) (s : State) :
    ∃ t', execLvRevertFailReceived ok s = .next t' ∧ Only [.evr, .ao, .lvn] s t' := by
  refine ⟨_, rfl, ?_⟩
  repeat' first
    | with_reducible exact Only.refl _ _
    | decide
    | with_reducible apply Only.ite
    | with_reducible apply Only.dite
    | with_reducible apply lvFrame_only
    | with_reducible apply Only.after (revertKeep_only _)
    | intro _
    | split
    | dsimp only

theorem execRevertRelease_only (s : State) :
    ∃ t', execRevertRelease s = .next t' ∧ Only [.evr, .ui, .ao, .dio, .dioBlk, .lvn] s t' := by
  refine ⟨_, rfl, ?_⟩
  repeat' first
    | with_reducible exact Only.refl _ _
    | decide
    | with_reducible apply Only.ite
    | with_reducible apply Only.dite
    | with_reducible apply Only.after (revertRelease_only _)
    | intro _
    | split
    | dsimp only

theorem execRevertEnd_only (s : State) :
    ∃ t', execRevertEnd s = .next t' ∧ Only [.sys, .evr, .ui, .ao, .dio, .dioBlk, .pev, .ann, .call, .lvn, .recd] s t' := by
  refine ⟨_, rfl, ?_⟩
  repeat' first
    | with_reducible exact Only.refl _ _
    | decide
    | with_reducible apply Only.ite
    | with_reducible apply Only.dite
    | with_reducible apply Only.after (revertEnd_only _)
    | intro _
    | split
    | dsimp only

theorem execLvImageSend_only (s : State) :
    ∃ t', execLvImageSend s = .next t' ∧ Only [.lvn] s t' := by
  refine ⟨_, rfl, ?_⟩
  repeat' first
    | with_reducible exact Only.refl _ _
    | decide
    | with_reducible apply Only.ite
    | with_reducible apply Only.dite
    | with_reducible apply Only.after (imageSend_only _)
    | intro _
    | split
    | dsimp only

theorem execLvImageReceived_only (d : List Byte) (ok : Bool) (s : State) :
    ∃ t', execLvImageReceived d ok s = .next t' ∧ Only [.rcp, .lvn] s t' := by
  refine ⟨_, rfl, ?_⟩
  repeat' first
    | with_reducible exact Only.refl _ _
    | decide
    | with_reducible apply Only.ite
    | with_reducible apply Only.dite
    | with_reducible apply lvFrame_only
    | with_reducible apply Only.after (imageTake_only _ _)
    | intro _
    | split
    | dsimp only

theorem execLvnStop_only (src : Source) (stop : Bool) (s : State) :
    ∃ t', execLvnStop src stop s = .next t' ∧ Only [.sys, .evr, .lvn] s t' := by
  refine ⟨_, rfl, ?_⟩
  repeat' first
    | with_reducible exact Only.refl _ _
    | decide
    | with_reducible apply Only.ite
    | with_reducible apply Only.dite
    | with_reducible apply Only.after (lvnStop_only _ _ _)
    | intro _
    | split
    | dsimp only

theorem execLvnLoopTest_only (src : Source) (depth : BitVec 2) (s : State) :
    ∃ t', execLvnLoopTest src depth s = .next t' ∧ Only [.sys, .lvn] s t' := by
  refine ⟨_, rfl, ?_⟩
  repeat' first
    | with_reducible exact Only.refl _ _
    | decide
    | with_reducible apply Only.ite
    | with_reducible apply Only.dite
    | with_reducible apply Only.after (lvnLoopStart_only _ _ _)
    | intro _
    | split
    | dsimp only

theorem execLvnLoopDone_only (errors : Nat) (s : State) :
    ∃ t', execLvnLoopDone errors s = .next t' ∧ Only [.lvn] s t' := by
  refine ⟨_, rfl, ?_⟩
  repeat' first
    | with_reducible exact Only.refl _ _
    | decide
    | with_reducible apply Only.ite
    | with_reducible apply Only.dite
    | with_reducible apply Only.after (lvnLoopDone_only _ _)
    | intro _
    | split
    | dsimp only

end Sys2Proof.Machine
end

