-- ==== Sys2Proof/Laws/FrameFault.lean ====
section
/-! SUPPORT. Fault: the parts of the state that each operation of Machine/Fault may change. -/
namespace Sys2Proof.Machine

open Sys2Proof

theorem State.setRcp_only (s : State) (f : Rcp → Rcp) :
    Only [.rcp] s (State.setRcp s f) := by
  unfold State.setRcp
  repeat' first
    | with_reducible exact Only.refl _ _
    | decide
    | with_reducible apply Only.ite
    | with_reducible apply Only.dite
    | with_reducible apply Only.set_rcp
    | intro _
    | split
    | dsimp only

theorem bareSend_only (f : OutFrame) (s : State) :
    Only [.evr, .can] s (bareSend f s) := by
  unfold bareSend
  repeat' first
    | with_reducible exact Only.refl _ _
    | decide
    | with_reducible apply Only.ite
    | with_reducible apply Only.dite
    | with_reducible apply Only.after (canSubmit_only _ _ _)
    | intro _
    | split
    | dsimp only

theorem rcpRsp_only (node : Half) (s : State) :
    Only [.drawn, .evr, .can] s (rcpRsp node s) := by
  unfold rcpRsp
  repeat' first
    | with_reducible exact Only.refl _ _
    | decide
    | with_reducible apply Only.ite
    | with_reducible apply Only.dite
    | with_reducible apply Only.after (bareSend_only _ _)
    | with_reducible apply Only.after (State.drew_only _)
    | with_reducible apply Only.after (imzToward_only _ _ _ _ _)
    | intro _
    | split
    | dsimp only

theorem rcpEnd_only (op code detail : Nat) (s : State) :
    Only [.rcp, .evr] s (rcpEnd op code detail s) := by
  unfold rcpEnd
  repeat' first
    | with_reducible exact Only.refl _ _
    | decide
    | with_reducible apply Only.ite
    | with_reducible apply Only.dite
    | with_reducible apply Only.after (raise_only _ _ _)
    | with_reducible apply Only.set_rcp
    | intro _
    | split
    | dsimp only

theorem verifyEnd_only (code detail : Nat) (s : State) :
    Only [.drawn, .rcp, .evr, .can] s (verifyEnd code detail s) := by
  unfold verifyEnd
  repeat' first
    | with_reducible exact Only.refl _ _
    | decide
    | with_reducible apply Only.ite
    | with_reducible apply Only.dite
    | with_reducible apply Only.after (rcpEnd_only _ _ _ _)
    | with_reducible apply Only.after (State.setRcp_only _ _)
    | with_reducible apply Only.after (rcpRsp_only _ _)
    | intro _
    | split
    | dsimp only

theorem swapFinish_only (code : Nat) (s : State) :
    Only [.drawn, .rcp, .evr, .can] s (swapFinish code s) := by
  unfold swapFinish
  repeat' first
    | with_reducible exact Only.refl _ _
    | decide
    | with_reducible apply Only.ite
    | with_reducible apply Only.dite
    | with_reducible apply Only.after (rcpEnd_only _ _ _ _)
    | with_reducible apply Only.after (State.setRcp_only _ _)
    | with_reducible apply Only.after (rcpRsp_only _ _)
    | intro _
    | split
    | dsimp only

theorem swapAbort_only (s : State) :
    Only [.drawn, .rcp, .evr, .can] s (swapAbort s) := by
  unfold swapAbort
  repeat' first
    | with_reducible exact Only.refl _ _
    | decide
    | with_reducible apply Only.ite
    | with_reducible apply Only.dite
    | with_reducible apply Only.after (swapFinish_only _ _)
    | intro _
    | split
    | dsimp only

theorem rcpDropWrite_only (s : State) :
    Only [.rcp] s (rcpDropWrite s) := by
  unfold rcpDropWrite
  repeat' first
    | with_reducible exact Only.refl _ _
    | decide
    | with_reducible apply Only.ite
    | with_reducible apply Only.dite
    | with_reducible apply Only.set_rcp
    | intro _
    | split
    | dsimp only

theorem faultFrame_only (cause : Nat) (s : State) :
    Only [.lvn] s (faultFrame cause s) := by
  unfold faultFrame
  repeat' first
    | with_reducible exact Only.refl _ _
    | decide
    | with_reducible apply Only.ite
    | with_reducible apply Only.dite
    | with_reducible apply Only.after (lvSend_only _ _)
    | intro _
    | split
    | dsimp only

theorem driveSafe_only (s : State) :
    Only [.ao, .dio, .dioBlk] s (driveSafe s) := by
  unfold driveSafe
  repeat' first
    | with_reducible exact Only.refl _ _
    | decide
    | with_reducible apply Only.ite
    | with_reducible apply Only.dite
    | with_reducible apply Only.foldl
    | with_reducible apply Only.after (dioDriveAll_only _)
    | with_reducible apply Only.after (State.setAo_only _ _ _)
    | intro _
    | split
    | dsimp only

theorem lastBeat_only (s : State) :
    Only [.drawn, .evr, .can, .imz] s (lastBeat s) := by
  unfold lastBeat
  repeat' first
    | with_reducible exact Only.refl _ _
    | decide
    | with_reducible apply Only.ite
    | with_reducible apply Only.dite
    | with_reducible apply Only.foldl
    | with_reducible apply Only.after (imzBeat_only _ _ _)
    | with_reducible apply Only.after (canAbortAll_only _ _ _ _)
    | with_reducible apply Only.after (State.drew_only _)
    | intro _
    | split
    | dsimp only

theorem safeMode_only (s : State) :
    Only [.sys, .pev] s (safeMode s) := by
  unfold safeMode
  repeat' first
    | with_reducible exact Only.refl _ _
    | decide
    | with_reducible apply Only.ite
    | with_reducible apply Only.dite
    | with_reducible apply Only.set_sys_pev
    | intro _
    | split
    | dsimp only

theorem safeEntry_only (cause : Nat) (s : State) :
    Only [.drawn, .sys, .rcp, .evr, .ui, .ao, .dio, .dioBlk, .can, .pev, .imz, .lvn, .pnl] s (safeEntry cause s) := by
  unfold safeEntry
  repeat' first
    | with_reducible exact Only.refl _ _
    | decide
    | with_reducible apply Only.ite
    | with_reducible apply Only.dite
    | with_reducible apply Only.after (faultFrame_only _ _)
    | with_reducible apply Only.after (swapAbort_only _)
    | with_reducible apply Only.after (dioMark_only _)
    | with_reducible apply Only.after (lastBeat_only _)
    | with_reducible apply Only.after (aoEndSpell_only _)
    | with_reducible apply Only.after (safeMode_only _)
    | with_reducible apply Only.after (restat_only _)
    | with_reducible apply Only.after (pnlCut_only _)
    | with_reducible apply Only.after (cellNotify_only _ _)
    | with_reducible apply Only.after (uiQuiet_only _)
    | with_reducible apply Only.after (letGo_only _)
    | with_reducible apply Only.after (driveSafe_only _)
    | intro _
    | split
    | dsimp only

theorem moduleFault_only (block cell cause : Nat) (s : State) :
    Only [.drawn, .sys, .rcp, .evr, .ui, .ao, .dio, .dioBlk, .can, .pev, .imz, .lvn, .pnl] s (moduleFault block cell cause s) := by
  unfold moduleFault
  repeat' first
    | with_reducible exact Only.refl _ _
    | decide
    | with_reducible apply Only.ite
    | with_reducible apply Only.dite
    | with_reducible apply Only.after (recordFault_only _ _ _ _ _)
    | with_reducible apply Only.after (safeEntry_only _ _)
    | with_reducible apply Only.set_sys
    | intro _
    | split
    | dsimp only

theorem supervisorFault_only (cell cause : Nat) (s : State) :
    Only [.drawn, .sys, .rcp, .evr, .ui, .ao, .dio, .dioBlk, .can, .pev, .imz, .lvn, .pnl] s (supervisorFault cell cause s) := by
  unfold supervisorFault
  repeat' first
    | with_reducible exact Only.refl _ _
    | decide
    | with_reducible apply Only.ite
    | with_reducible apply Only.dite
    | with_reducible apply Only.after (moduleFault_only _ _ _ _)
    | intro _
    | split
    | dsimp only

theorem acqReset_only (s : State) :
    Only [.evr, .uiBlk, .ao, .aoBlk, .dio, .dioBlk, .ps, .psBlk] s (acqReset s) := by
  unfold acqReset
  repeat' first
    | with_reducible exact Only.refl _ _
    | decide
    | with_reducible apply Only.ite
    | with_reducible apply Only.dite
    | with_reducible apply Only.foldl
    | with_reducible apply Only.after (aoHartAbort_only _ _)
    | with_reducible apply Only.after (psAcqReset_only _)
    | with_reducible apply Only.set_dio_uiBlk_aoBlk_psBlk_dioBlk
    | intro _
    | split
    | dsimp only

theorem almReset_only (s : State) :
    Only [.pev, .ann, .call, .rnd] s (almReset s) := by
  unfold almReset
  repeat' first
    | with_reducible exact Only.refl _ _
    | decide
    | with_reducible apply Only.ite
    | with_reducible apply Only.dite
    | with_reducible apply Only.set_pev_ann_call_rnd
    | intro _
    | split
    | dsimp only

theorem fceReset_only (s : State) :
    Only [.sys, .evr, .pnl, .rnd] s (fceReset s) := by
  unfold fceReset
  repeat' first
    | with_reducible exact Only.refl _ _
    | decide
    | with_reducible apply Only.ite
    | with_reducible apply Only.dite
    | with_reducible apply Only.after (pnlFceReset_only _)
    | with_reducible apply Only.set_rnd
    | intro _
    | split
    | dsimp only

theorem lnkReset_only (s : State) :
    Only [.sys, .evr, .can, .tim, .lvn] s (lnkReset s) := by
  unfold lnkReset
  repeat' first
    | with_reducible exact Only.refl _ _
    | decide
    | with_reducible apply Only.ite
    | with_reducible apply Only.dite
    | with_reducible apply Only.foldl
    | with_reducible apply Only.after (laneDown_only _ _)
    | with_reducible apply Only.after (canReset_only _ _)
    | with_reducible apply Only.after (State.setCan_only _ _ _)
    | with_reducible apply Only.after (timEnter_only _ _)
    | with_reducible apply Only.after (State.setLvn_only _ _)
    | with_reducible apply Only.set_tim
    | intro _
    | split
    | dsimp only

theorem kepReset_only (s : State) :
    Only [.drawn, .rcp, .evr, .can, .mmc] s (kepReset s) := by
  unfold kepReset
  repeat' first
    | with_reducible exact Only.refl _ _
    | decide
    | with_reducible apply Only.ite
    | with_reducible apply Only.dite
    | with_reducible apply Only.after (verifyEnd_only _ _ _)
    | with_reducible apply Only.after (rcpDropWrite_only _)
    | with_reducible apply Only.set_mmc
    | intro _
    | split
    | dsimp only

theorem regionClear_only (r : Fin 5) (s : State) :
    Only [.drawn, .sys, .rcp, .evr, .uiBlk, .ao, .aoBlk, .dio, .dioBlk, .ps, .psBlk, .can, .pev, .ann, .call, .tim, .lvn, .mmc, .pnl, .rnd] s (regionClear r s) := by
  unfold regionClear
  repeat' first
    | with_reducible exact Only.refl _ _
    | decide
    | with_reducible apply Only.ite
    | with_reducible apply Only.dite
    | with_reducible apply Only.after (acqReset_only _)
    | with_reducible apply Only.after (almReset_only _)
    | with_reducible apply Only.after (lnkReset_only _)
    | with_reducible apply Only.after (kepReset_only _)
    | with_reducible apply Only.after (fceReset_only _)
    | intro _
    | split
    | dsimp only

theorem lnkHandover_only (cause : Nat) (s : State) :
    Only [.sys, .evr, .ui, .ao, .dio, .dioBlk, .lvn] s (lnkHandover cause s) := by
  unfold lnkHandover
  repeat' first
    | with_reducible exact Only.refl _ _
    | decide
    | with_reducible apply Only.ite
    | with_reducible apply Only.dite
    | with_reducible apply Only.after (setRole_only _ _ _)
    | with_reducible apply Only.after (releaseControl_only _)
    | with_reducible apply Only.after (faultFrame_only _ _)
    | intro _
    | split
    | dsimp only

theorem regionReset_only (r : Fin 5) (block cell cause : Nat) (s : State) :
    Only [.drawn, .sys, .fab, .rcp, .evr, .ui, .uiBlk, .ao, .aoBlk, .dio, .dioBlk, .ps, .psBlk, .can, .pev, .ann, .call, .tim, .lvn, .mmc, .pnl, .rnd] s (regionReset r block cell cause s) := by
  unfold regionReset
  repeat' first
    | with_reducible exact Only.refl _ _
    | decide
    | with_reducible apply Only.ite
    | with_reducible apply Only.dite
    | with_reducible apply Only.after (recordFault_only _ _ _ _ _)
    | with_reducible apply Only.after (lnkHandover_only _ _)
    | with_reducible apply Only.after (regionClear_only _ _)
    | with_reducible apply Only.set_sys_fab
    | intro _
    | split
    | dsimp only

theorem regionFault_only (r : Fin 5) (block cell cause : Nat) (s : State) :
    Only [.drawn, .sys, .fab, .rcp, .evr, .ui, .uiBlk, .ao, .aoBlk, .dio, .dioBlk, .ps, .psBlk, .can, .pev, .ann, .call, .imz, .tim, .lvn, .mmc, .pnl, .rnd] s (regionFault r block cell cause s) := by
  unfold regionFault
  repeat' first
    | with_reducible exact Only.refl _ _
    | decide
    | with_reducible apply Only.ite
    | with_reducible apply Only.dite
    | with_reducible apply Only.after (regionReset_only _ _ _ _ _)
    | with_reducible apply Only.after (moduleFault_only _ _ _ _)
    | with_reducible apply Only.set_sys
    | intro _
    | split
    | dsimp only

theorem blockFault_only (block cell cause : Nat) (s : State) :
    Only [.drawn, .sys, .fab, .rcp, .evr, .ui, .uiBlk, .ao, .aoBlk, .dio, .dioBlk, .ps, .psBlk, .can, .pev, .ann, .call, .imz, .tim, .lvn, .mmc, .pnl, .rnd] s (blockFault block cell cause s) := by
  unfold blockFault
  extract_lets s1 _ s2
  have h1 : Only [.drawn, .sys, .fab, .rcp, .evr, .ui, .uiBlk, .ao, .aoBlk, .dio, .dioBlk, .ps, .psBlk, .can, .pev, .ann, .call, .imz, .tim, .lvn, .mmc, .pnl, .rnd] s s1 := (recordFault_only _ _ _ _ _).mono (by decide)
  clear_value s1
  have h2 : Only [.drawn, .sys, .fab, .rcp, .evr, .ui, .uiBlk, .ao, .aoBlk, .dio, .dioBlk, .ps, .psBlk, .can, .pev, .ann, .call, .imz, .tim, .lvn, .mmc, .pnl, .rnd] s s2 := Only.set_sys h1 (by decide)
  clear_value s2
  split
  · exact h2
  · extract_lets l
    refine Only.ite (Only.set_sys h2 (by decide)) ?_
    exact Only.after (regionFault_only _ _ _ _ _) (by decide) (Only.set_sys h2 (by decide))

theorem segmentError_only (r : Fin 5) (timeout : Bool) (s : State) :
    Only [.drawn, .sys, .fab, .rcp, .evr, .ui, .uiBlk, .ao, .aoBlk, .dio, .dioBlk, .ps, .psBlk, .can, .pev, .ann, .call, .imz, .tim, .lvn, .mmc, .pnl, .rnd] s (segmentError r timeout s) := by
  unfold segmentError
  repeat' first
    | with_reducible exact Only.refl _ _
    | decide
    | with_reducible apply Only.ite
    | with_reducible apply Only.dite
    | with_reducible apply Only.after (regionFault_only _ _ _ _ _)
    | with_reducible apply Only.set_sys
    | intro _
    | split
    | dsimp only

theorem isolate_only (block cell : Nat) (s : State) :
    Only [.sys] s (isolate block cell s) := by
  unfold isolate
  repeat' first
    | with_reducible exact Only.refl _ _
    | decide
    | with_reducible apply Only.ite
    | with_reducible apply Only.dite
    | with_reducible apply Only.set_sys
    | intro _
    | split
    | dsimp only

theorem cellIsolate_only (block cell : Nat) (s : State) :
    Only [.sys, .ui] s (cellIsolate block cell s) := by
  unfold cellIsolate
  repeat' first
    | with_reducible exact Only.refl _ _
    | decide
    | with_reducible apply Only.ite
    | with_reducible apply Only.dite
    | with_reducible apply Only.after (isolate_only _ _ _)
    | with_reducible apply Only.after (State.setUi_only _ _ _)
    | intro _
    | split
    | dsimp only

theorem cellFault_only (block cell cause : Nat) (s : State) :
    Only [.drawn, .sys, .fab, .rcp, .evr, .ui, .uiBlk, .ao, .aoBlk, .dio, .dioBlk, .ps, .psBlk, .can, .pev, .ann, .call, .imz, .tim, .lvn, .mmc, .pnl, .rnd] s (cellFault block cell cause s) := by
  unfold cellFault
  repeat' first
    | with_reducible exact Only.refl _ _
    | decide
    | with_reducible apply Only.ite
    | with_reducible apply Only.dite
    | with_reducible apply Only.after (blockFault_only _ _ _ _)
    | with_reducible apply Only.after (cellNotify_only _ _)
    | with_reducible apply Only.after (cellIsolate_only _ _ _)
    | intro _
    | split
    | dsimp only

theorem cellReadmit_only (block cell : Nat) (s : State) :
    Only [.sys, .evr, .dio, .dioBlk] s (cellReadmit block cell s) := by
  unfold cellReadmit
  repeat' first
    | with_reducible exact Only.refl _ _
    | decide
    | with_reducible apply Only.ite
    | with_reducible apply Only.dite
    | with_reducible apply Only.after (cellNotify_only _ _)
    | with_reducible apply Only.after (dioRetake_only _ _)
    | with_reducible apply Only.after (readmit_only _ _ _)
    | intro _
    | split
    | dsimp only

end Sys2Proof.Machine
end

