-- ==== Sys2Proof/Laws/FrameAge.lean ====
section
/-! SUPPORT. Age: the parts of the state that each operation of Machine/Age may change. -/
namespace Sys2Proof.Machine

open Sys2Proof

theorem State.setItem_only (s : State) (i : Fin 64) (f : AgeItem → AgeItem) :
    Only [.age] s (State.setItem s i f) := by
  unfold State.setItem
  repeat' first
    | with_reducible exact Only.refl _ _
    | decide
    | with_reducible apply Only.ite
    | with_reducible apply Only.dite
    | with_reducible apply Only.after (State.setAge_only _ _)
    | intro _
    | split
    | dsimp only

theorem itemDue_only (i : Fin 64) (forced : Bool) (s : State) :
    Only [.evr, .age] s (itemDue i forced s) := by
  unfold itemDue
  repeat' first
    | with_reducible exact Only.refl _ _
    | decide
    | with_reducible apply Only.ite
    | with_reducible apply Only.dite
    | with_reducible apply Only.after (ageEvent_only _ _ _ _)
    | with_reducible apply Only.after (State.setItem_only _ _ _)
    | intro _
    | split
    | dsimp only

theorem itemMeasure_only (i : Fin 64) (v : Int) (forced : Bool) (s : State) :
    Only [.evr, .age] s (itemMeasure i v forced s) := by
  unfold itemMeasure
  repeat' first
    | with_reducible exact Only.refl _ _
    | decide
    | with_reducible apply Only.ite
    | with_reducible apply Only.dite
    | with_reducible apply Only.after (itemDue_only _ _ _)
    | with_reducible apply Only.after (State.setItem_only _ _ _)
    | intro _
    | split
    | dsimp only

theorem itemCorrect_only (i : Fin 64) (new bound : Int) (s : State) :
    Only [.evr, .age] s (itemCorrect i new bound s) := by
  unfold itemCorrect
  repeat' first
    | with_reducible exact Only.refl _ _
    | decide
    | with_reducible apply Only.ite
    | with_reducible apply Only.dite
    | with_reducible apply Only.after (State.setItem_only _ _ _)
    | with_reducible apply Only.after (ageEvent_only _ _ _ _)
    | intro _
    | split
    | dsimp only

theorem itemFollow_only (i : Fin 64) (en : Bool) (want bound perDay : Int) (s : State) :
    Only [.evr, .age] s (itemFollow i en want bound perDay s) := by
  unfold itemFollow
  repeat' first
    | with_reducible exact Only.refl _ _
    | decide
    | with_reducible apply Only.ite
    | with_reducible apply Only.dite
    | with_reducible apply Only.after (itemCorrect_only _ _ _ _)
    | intro _
    | split
    | dsimp only

theorem gainMoved_only (c : Fin 16) (s : State) :
    Only [.drawn, .ui] s (gainMoved c s) := by
  unfold gainMoved
  repeat' first
    | with_reducible exact Only.refl _ _
    | decide
    | with_reducible apply Only.ite
    | with_reducible apply Only.dite
    | with_reducible apply Only.after (State.setUi_only _ _ _)
    | with_reducible apply Only.after (State.drew_only _)
    | intro _
    | split
    | dsimp only

theorem ageRef_only (c : Fin 16) (a b : Int) (s : State) :
    Only [.drawn, .evr, .ui, .age] s (ageRef c a b s) := by
  unfold ageRef
  repeat' first
    | with_reducible exact Only.refl _ _
    | decide
    | with_reducible apply Only.ite
    | with_reducible apply Only.dite
    | with_reducible apply Only.foldl
    | with_reducible apply Only.after (itemMeasure_only _ _ _ _)
    | with_reducible apply Only.after (State.setAge_only _ _)
    | with_reducible apply Only.after (itemDue_only _ _ _)
    | with_reducible apply Only.after (ageEvent_only _ _ _ _)
    | with_reducible apply Only.after (itemFollow_only _ _ _ _ _ _)
    | with_reducible apply Only.after (gainMoved_only _ _)
    | intro _
    | split
    | dsimp only

theorem ageGain_only (c : Fin 4) (err : Int) (secs : Nat) (s : State) :
    Only [.evr, .age] s (ageGain c err secs s) := by
  unfold ageGain
  repeat' first
    | with_reducible exact Only.refl _ _
    | decide
    | with_reducible apply Only.ite
    | with_reducible apply Only.dite
    | with_reducible apply Only.after (itemFollow_only _ _ _ _ _ _)
    | with_reducible apply Only.after (itemMeasure_only _ _ _ _)
    | intro _
    | split
    | dsimp only

theorem ageSwitch_only (c : Fin 16) (r25 : Nat) (s : State) :
    Only [.evr, .dio, .age] s (ageSwitch c r25 s) := by
  unfold ageSwitch
  repeat' first
    | with_reducible exact Only.refl _ _
    | decide
    | with_reducible apply Only.ite
    | with_reducible apply Only.dite
    | with_reducible apply Only.after (itemMeasure_only _ _ _ _)
    | with_reducible apply Only.after (State.setDio_only _ _ _)
    | with_reducible apply Only.after (itemCorrect_only _ _ _ _)
    | intro _
    | split
    | dsimp only

theorem corrKeep_only (s : State) (i : Fin 64) :
    Only [.drawn, .evr, .ui, .dio, .age] s (corrKeep s i) := by
  unfold corrKeep
  repeat' first
    | with_reducible exact Only.refl _ _
    | decide
    | with_reducible apply Only.ite
    | with_reducible apply Only.dite
    | with_reducible apply Only.after (State.setItem_only _ _ _)
    | with_reducible apply Only.after (itemCorrect_only _ _ _ _)
    | with_reducible apply Only.after (gainMoved_only _ _)
    | with_reducible apply Only.after (State.setDio_only _ _ _)
    | intro _
    | split
    | dsimp only

theorem ageBounds_only (s : State) :
    Only [.drawn, .evr, .ui, .dio, .age] s (ageBounds s) := by
  unfold ageBounds
  repeat' first
    | with_reducible exact Only.refl _ _
    | decide
    | with_reducible apply Only.ite
    | with_reducible apply Only.dite
    | with_reducible apply Only.foldl
    | with_reducible apply Only.after (corrKeep_only _ _)
    | intro _
    | split
    | dsimp only

theorem oscApply_only (s : State) :
    Only [.evr, .tim, .age] s (oscApply s) := by
  unfold oscApply
  repeat' first
    | with_reducible exact Only.refl _ _
    | decide
    | with_reducible apply Only.ite
    | with_reducible apply Only.dite
    | with_reducible apply Only.after (itemCorrect_only _ _ _ _)
    | with_reducible apply Only.set_tim
    | intro _
    | split
    | dsimp only

theorem ageTcxo_only (s : State) :
    Only [.evr, .tim, .age] s (ageTcxo s) := by
  unfold ageTcxo
  repeat' first
    | with_reducible exact Only.refl _ _
    | decide
    | with_reducible apply Only.ite
    | with_reducible apply Only.dite
    | with_reducible apply Only.foldl
    | with_reducible apply Only.after (State.setAge_only _ _)
    | with_reducible apply Only.after (itemMeasure_only _ _ _ _)
    | with_reducible apply Only.after (oscApply_only _)
    | intro _
    | split
    | dsimp only

theorem ageHold_only (cap esr : Nat) (partner abandoned : Bool) (s : State) :
    Only [.sup, .evr, .age] s (ageHold cap esr partner abandoned s) := by
  unfold ageHold
  repeat' first
    | with_reducible exact Only.refl _ _
    | decide
    | with_reducible apply Only.ite
    | with_reducible apply Only.dite
    | with_reducible apply Only.after (ageEvent_only _ _ _ _)
    | with_reducible apply Only.after (State.setAge_only _ _)
    | with_reducible apply Only.after (itemMeasure_only _ _ _ _)
    | with_reducible apply Only.set_sup
    | intro _
    | split
    | dsimp only

theorem ageWear_only (lifeA lifeB eol : Byte) (s : State) :
    Only [.evr, .mmc, .age] s (ageWear lifeA lifeB eol s) := by
  unfold ageWear
  repeat' first
    | with_reducible exact Only.refl _ _
    | decide
    | with_reducible apply Only.ite
    | with_reducible apply Only.dite
    | with_reducible apply Only.after (itemMeasure_only _ _ _ _)
    | with_reducible apply Only.after (mmcEvent_only _ _ _)
    | with_reducible apply Only.set_mmc
    | intro _
    | split
    | dsimp only

theorem ageBarrier_only (d : Fin 24) (r : Nat) (s : State) :
    Only [.evr, .age] s (ageBarrier d r s) := by
  unfold ageBarrier
  repeat' first
    | with_reducible exact Only.refl _ _
    | decide
    | with_reducible apply Only.ite
    | with_reducible apply Only.dite
    | with_reducible apply Only.after (itemMeasure_only _ _ _ _)
    | with_reducible apply Only.after (ageEvent_only _ _ _ _)
    | with_reducible apply Only.after (State.setAge_only _ _)
    | intro _
    | split
    | dsimp only

theorem ageTake_only (m : AgeMeas) (s : State) :
    Only [.drawn, .sup, .evr, .ui, .dio, .tim, .mmc, .age] s (ageTake m s) := by
  unfold ageTake
  repeat' first
    | with_reducible exact Only.refl _ _
    | decide
    | with_reducible apply Only.ite
    | with_reducible apply Only.dite
    | with_reducible apply Only.after (ageRef_only _ _ _ _)
    | with_reducible apply Only.after (ageGain_only _ _ _ _)
    | with_reducible apply Only.after (ageSwitch_only _ _ _)
    | with_reducible apply Only.after (ageTcxo_only _)
    | with_reducible apply Only.after (ageHold_only _ _ _ _ _)
    | with_reducible apply Only.after (ageWear_only _ _ _ _)
    | with_reducible apply Only.after (ageBarrier_only _ _ _)
    | intro _
    | split
    | dsimp only

theorem ledgerPage_only (ok : Bool) (s : State) :
    Only [.evr, .mmc, .age] s (ledgerPage ok s) := by
  unfold ledgerPage
  repeat' first
    | with_reducible exact Only.refl _ _
    | decide
    | with_reducible apply Only.ite
    | with_reducible apply Only.dite
    | with_reducible apply Only.foldl
    | with_reducible apply Only.after (sectorPut_only _ _ _)
    | with_reducible apply Only.after (State.setAge_only _ _)
    | with_reducible apply Only.after (ledgerFail_only _)
    | intro _
    | split
    | dsimp only

theorem ledgerRestore_only (s : State) :
    Only [.drawn, .evr, .ui, .dio, .age] s (ledgerRestore s) := by
  unfold ledgerRestore
  extract_lets l top newest
  clear_value top
  split
  · exact (State.setAge_only _ _).mono (by decide)
  · extract_lets d s1
    have h : Only [.drawn, .evr, .ui, .dio, .age] s s1 := (State.setAge_only _ _).mono (by decide)
    clear_value s1
    exact Only.after (ageBounds_only _) (by decide) h

theorem ageStart_only (s : State) :
    Only [.drawn, .evr, .ui, .dio, .age] s (ageStart s) := by
  unfold ageStart
  repeat' first
    | with_reducible exact Only.refl _ _
    | decide
    | with_reducible apply Only.ite
    | with_reducible apply Only.dite
    | with_reducible apply Only.after (ledgerRestore_only _)
    | with_reducible apply Only.after (State.setAge_only _ _)
    | intro _
    | split
    | dsimp only

theorem ageCmd_only {l : List Part} {s : State} (src : Source) (item : Byte) (f : Fin 64 → State → State) (t : State) (h : ∀ i u, Only l u (f i u))
    (k : Part.sub [.sys] l = true) (g : Only l s t) : Only l s (ageCmd src item f t) := by
  unfold ageCmd
  repeat' first
    | assumption
    | with_reducible exact Only.refl _ _
    | with_reducible apply Only.after (h _)
    | with_reducible apply Only.after (h _ _)
    | exact Part.sub_refl _
    | with_reducible apply Only.ite
    | with_reducible apply Only.dite
    | with_reducible apply Only.after (logWerr_only _ _ _ _) (Part.sub_trans (by decide) k)
    | intro _
    | split
    | dsimp only

theorem ageAck_only (i : Fin 64) (s : State) :
    Only [.age] s (ageAck i s) := by
  unfold ageAck
  repeat' first
    | with_reducible exact Only.refl _ _
    | decide
    | with_reducible apply Only.ite
    | with_reducible apply Only.dite
    | with_reducible apply Only.after (State.setItem_only _ _ _)
    | intro _
    | split
    | dsimp only

theorem ageRebase_only (i : Fin 64) (s : State) :
    Only [.evr, .age] s (ageRebase i s) := by
  unfold ageRebase
  repeat' first
    | with_reducible exact Only.refl _ _
    | decide
    | with_reducible apply Only.ite
    | with_reducible apply Only.dite
    | with_reducible apply Only.after (State.setItem_only _ _ _)
    | with_reducible apply Only.after (ageEvent_only _ _ _ _)
    | intro _
    | split
    | dsimp only

theorem execAgeRefCheck_only (c : Fin 16) (a b : Int) (s : State) :
    ∃ t', execAgeRefCheck c a b s = .next t' ∧ Only [.drawn, .sup, .evr, .ui, .dio, .tim, .mmc, .age] s t' := by
  refine ⟨_, rfl, ?_⟩
  repeat' first
    | with_reducible exact Only.refl _ _
    | decide
    | with_reducible apply Only.ite
    | with_reducible apply Only.dite
    | with_reducible apply Only.after (ageTake_only _ _)
    | intro _
    | split
    | dsimp only

theorem execAgeAoGain_only (c : Fin 4) (err : Int) (secs : Nat) (s : State) :
    ∃ t', execAgeAoGain c err secs s = .next t' ∧ Only [.drawn, .sup, .evr, .ui, .dio, .tim, .mmc, .age] s t' := by
  refine ⟨_, rfl, ?_⟩
  repeat' first
    | with_reducible exact Only.refl _ _
    | decide
    | with_reducible apply Only.ite
    | with_reducible apply Only.dite
    | with_reducible apply Only.after (ageTake_only _ _)
    | intro _
    | split
    | dsimp only

theorem execAgeDioSwitch_only (c : Fin 16) (r25 : Nat) (s : State) :
    ∃ t', execAgeDioSwitch c r25 s = .next t' ∧ Only [.drawn, .sup, .evr, .ui, .dio, .tim, .mmc, .age] s t' := by
  refine ⟨_, rfl, ?_⟩
  repeat' first
    | with_reducible exact Only.refl _ _
    | decide
    | with_reducible apply Only.ite
    | with_reducible apply Only.dite
    | with_reducible apply Only.after (ageTake_only _ _)
    | intro _
    | split
    | dsimp only

theorem execAgeTcxoSample_only (s : State) :
    ∃ t', execAgeTcxoSample s = .next t' ∧ Only [.drawn, .sup, .evr, .ui, .dio, .tim, .mmc, .age] s t' := by
  refine ⟨_, rfl, ?_⟩
  repeat' first
    | with_reducible exact Only.refl _ _
    | decide
    | with_reducible apply Only.ite
    | with_reducible apply Only.dite
    | with_reducible apply Only.after (ageTake_only _ _)
    | intro _
    | split
    | dsimp only

theorem execAgeHoldTest_only (cap esr : Nat) (partner abandoned : Bool) (s : State) :
    ∃ t', execAgeHoldTest cap esr partner abandoned s = .next t' ∧ Only [.drawn, .sup, .evr, .ui, .dio, .tim, .mmc, .age] s t' := by
  refine ⟨_, rfl, ?_⟩
  repeat' first
    | with_reducible exact Only.refl _ _
    | decide
    | with_reducible apply Only.ite
    | with_reducible apply Only.dite
    | with_reducible apply Only.after (ageTake_only _ _)
    | intro _
    | split
    | dsimp only

theorem execAgeEmmcWear_only (lifeA lifeB eol : Byte) (s : State) :
    ∃ t', execAgeEmmcWear lifeA lifeB eol s = .next t' ∧ Only [.drawn, .sup, .evr, .ui, .dio, .tim, .mmc, .age] s t' := by
  refine ⟨_, rfl, ?_⟩
  repeat' first
    | with_reducible exact Only.refl _ _
    | decide
    | with_reducible apply Only.ite
    | with_reducible apply Only.dite
    | with_reducible apply Only.after (ageTake_only _ _)
    | intro _
    | split
    | dsimp only

theorem execAgeBarrierTest_only (d : Fin 24) (r : Nat) (s : State) :
    ∃ t', execAgeBarrierTest d r s = .next t' ∧ Only [.drawn, .sup, .evr, .ui, .dio, .tim, .mmc, .age] s t' := by
  refine ⟨_, rfl, ?_⟩
  repeat' first
    | with_reducible exact Only.refl _ _
    | decide
    | with_reducible apply Only.ite
    | with_reducible apply Only.dite
    | with_reducible apply Only.after (ageTake_only _ _)
    | intro _
    | split
    | dsimp only

theorem execAgeLedgerPage_only (ok : Bool) (s : State) :
    ∃ t', execAgeLedgerPage ok s = .next t' ∧ Only [.evr, .mmc, .age] s t' := by
  refine ⟨_, rfl, ?_⟩
  repeat' first
    | with_reducible exact Only.refl _ _
    | decide
    | with_reducible apply Only.ite
    | with_reducible apply Only.dite
    | with_reducible apply Only.after (ledgerPage_only _ _)
    | intro _
    | split
    | dsimp only

theorem execAgeLedgerScanDone_only (s : State) :
    ∃ t', execAgeLedgerScanDone s = .next t' ∧ Only [.drawn, .evr, .ui, .dio, .age] s t' := by
  refine ⟨_, rfl, ?_⟩
  repeat' first
    | with_reducible exact Only.refl _ _
    | decide
    | with_reducible apply Only.ite
    | with_reducible apply Only.dite
    | with_reducible apply Only.after (ledgerRestore_only _)
    | intro _
    | split
    | dsimp only

theorem execAgeAckDue_only (src : Source) (item : Byte) (s : State) :
    ∃ t', execAgeAckDue src item s = .next t' ∧ Only [.sys, .age] s t' := by
  refine ⟨_, rfl, ?_⟩
  repeat' first
    | with_reducible exact Only.refl _ _
    | decide
    | with_reducible apply Only.ite
    | with_reducible apply Only.dite
    | with_reducible apply ageCmd_only
    | with_reducible apply Only.after (ageAck_only _ _)
    | intro _
    | split
    | dsimp only

theorem execAgeRebase_only (src : Source) (item : Byte) (s : State) :
    ∃ t', execAgeRebase src item s = .next t' ∧ Only [.sys, .evr, .age] s t' := by
  refine ⟨_, rfl, ?_⟩
  repeat' first
    | with_reducible exact Only.refl _ _
    | decide
    | with_reducible apply Only.ite
    | with_reducible apply Only.dite
    | with_reducible apply ageCmd_only
    | with_reducible apply Only.after (ageRebase_only _ _)
    | intro _
    | split
    | dsimp only

theorem execAgeTestHold_only (cap esr : Nat) (partner abandoned : Bool) (s : State) :
    ∃ t', execAgeTestHold cap esr partner abandoned s = .next t' ∧ Only [.drawn, .sup, .evr, .ui, .dio, .tim, .mmc, .age] s t' := by
  refine ⟨_, rfl, ?_⟩
  repeat' first
    | with_reducible exact Only.refl _ _
    | decide
    | with_reducible apply Only.ite
    | with_reducible apply Only.dite
    | with_reducible apply Only.after (ageTake_only _ _)
    | intro _
    | split
    | dsimp only

theorem execAgeMeasure_only (m : AgeMeas) (s : State) :
    ∃ t', execAgeMeasure m s = .next t' ∧ Only [.drawn, .sup, .evr, .ui, .dio, .tim, .mmc, .age] s t' := by
  refine ⟨_, rfl, ?_⟩
  repeat' first
    | with_reducible exact Only.refl _ _
    | decide
    | with_reducible apply Only.ite
    | with_reducible apply Only.dite
    | with_reducible apply Only.after (ageTake_only _ _)
    | intro _
    | split
    | dsimp only

theorem execAgeCmdBadOp_only (src : Source) (s : State) :
    ∃ t', execAgeCmdBadOp src s = .next t' ∧ Only [.sys] s t' := by
  refine ⟨_, rfl, ?_⟩
  repeat' first
    | with_reducible exact Only.refl _ _
    | decide
    | with_reducible apply Only.ite
    | with_reducible apply Only.dite
    | with_reducible apply Only.after (logWerr_only _ _ _ _)
    | intro _
    | split
    | dsimp only

theorem execTimFree_only (s : State) :
    ∃ t', execTimFree s = .next t' ∧ Only [.evr, .tim, .age] s t' := by
  refine ⟨_, rfl, ?_⟩
  repeat' first
    | with_reducible exact Only.refl _ _
    | decide
    | with_reducible apply Only.ite
    | with_reducible apply Only.dite
    | with_reducible apply Only.after (oscApply_only _)
    | with_reducible apply Only.after (timFree_only _)
    | intro _
    | split
    | dsimp only

end Sys2Proof.Machine
end

