-- ==== Sys2Proof/Laws/FrameRouter.lean ====
section
/-! SUPPORT. Router: the parts of the state that each operation of Machine/Router may change. -/
namespace Sys2Proof.Machine

open Sys2Proof

theorem setLine_only (h : Fin 2) (low : Bool) (s : State) :
    Only [.sys] s (setLine h low s) := by
  unfold setLine
  repeat' first
    | with_reducible exact Only.refl _ _
    | decide
    | with_reducible apply Only.ite
    | with_reducible apply Only.dite
    | with_reducible apply Only.set_sys
    | intro _
    | split
    | dsimp only

theorem moderate_only (h : Fin 2) (pri : Nat) (s : State) :
    Only [.sys, .evr] s (moderate h pri s) := by
  unfold moderate
  repeat' first
    | with_reducible exact Only.refl _ _
    | decide
    | with_reducible apply Only.ite
    | with_reducible apply Only.dite
    | with_reducible apply Only.after (setLine_only _ _ _)
    | with_reducible apply Only.set_evr
    | intro _
    | split
    | dsimp only

theorem modJudge_only (h : Fin 2) (s : State) :
    Only [.sys] s (modJudge h s) := by
  unfold modJudge
  repeat' first
    | with_reducible exact Only.refl _ _
    | decide
    | with_reducible apply Only.ite
    | with_reducible apply Only.dite
    | with_reducible apply Only.after (setLine_only _ _ _)
    | intro _
    | split
    | dsimp only

theorem modWrite_only (h : Fin 2) (v : Word) (s : State) :
    Only [.sys, .evr] s (modWrite h v s) := by
  unfold modWrite
  repeat' first
    | with_reducible exact Only.refl _ _
    | decide
    | with_reducible apply Only.ite
    | with_reducible apply Only.dite
    | with_reducible apply Only.after (modJudge_only _ _)
    | with_reducible apply Only.set_evr
    | intro _
    | split
    | dsimp only

theorem evrRecordWrite_only (h : Fin 2) (s : State) :
    Only [.sys, .evr] s (evrRecordWrite h s) := by
  unfold evrRecordWrite
  refine Only.ite (Only.refl _ _) ?_
  split
  · exact Only.refl _ _
  · exact Only.after (moderate_only _ _ _) (by decide) (Only.set_evr (Only.refl _ _) (by decide))

theorem settleLine_only (h : Fin 2) (s : State) :
    Only [.sys, .evr] s (settleLine h s) := by
  unfold settleLine
  repeat' first
    | with_reducible exact Only.refl _ _
    | decide
    | with_reducible apply Only.ite
    | with_reducible apply Only.dite
    | with_reducible apply Only.after (setLine_only _ _ _)
    | with_reducible apply Only.set_evr
    | intro _
    | split
    | dsimp only

theorem evrClaim_only (h : Fin 2) (s : State) :
    Only [.sys, .evr] s (evrClaim h s).2 := by
  unfold evrClaim
  extract_lets k
  split
  · exact Only.set_evr (Only.refl _ _) (by decide)
  · split
    · exact Only.set_evr (Only.refl _ _) (by decide)
    · extract_lets r
      split
      · exact Only.after (settleLine_only _ _) (by decide) (Only.set_evr (Only.refl _ _) (by decide))
      · exact Only.after (settleLine_only _ _) (by decide) (Only.set_evr (Only.refl _ _) (by decide))

theorem clearIdle_only (h : Fin 2) (s : State) :
    Only [.hp] s (clearIdle h s) := by
  unfold clearIdle
  repeat' first
    | with_reducible exact Only.refl _ _
    | decide
    | with_reducible apply Only.ite
    | with_reducible apply Only.dite
    | with_reducible apply Only.set_hp
    | intro _
    | split
    | dsimp only

theorem evrEoi_only (h : Fin 2) (s : State) :
    Only [.evr] s (evrEoi h s) := by
  unfold evrEoi
  repeat' first
    | with_reducible exact Only.refl _ _
    | decide
    | with_reducible apply Only.ite
    | with_reducible apply Only.dite
    | with_reducible apply Only.set_evr
    | intro _
    | split
    | dsimp only

theorem evrEnable_only (n : Fin 16) (mask : Word) (s : State) :
    Only [.evr] s (evrEnable n mask s) := by
  unfold evrEnable
  repeat' first
    | with_reducible exact Only.refl _ _
    | decide
    | with_reducible apply Only.ite
    | with_reducible apply Only.dite
    | with_reducible apply Only.set_evr
    | intro _
    | split
    | dsimp only

theorem evrEnSet_only (src : Source) (n : Fin 16) (mask : Word) (s : State) :
    Only [.sys, .evr] s (evrEnSet src n mask s) := by
  unfold evrEnSet
  repeat' first
    | with_reducible exact Only.refl _ _
    | decide
    | with_reducible apply Only.ite
    | with_reducible apply Only.dite
    | with_reducible apply Only.after (logWerr_only _ _ _ _)
    | with_reducible apply Only.set_evr
    | intro _
    | split
    | dsimp only

theorem evrEnClr_only (n : Fin 16) (mask : Word) (s : State) :
    Only [.evr] s (evrEnClr n mask s) := by
  unfold evrEnClr
  repeat' first
    | with_reducible exact Only.refl _ _
    | decide
    | with_reducible apply Only.ite
    | with_reducible apply Only.dite
    | with_reducible apply Only.set_evr
    | intro _
    | split
    | dsimp only

theorem evrPndSet_only (n : Fin 16) (mask : Word) (s : State) :
    Only [.evr] s (evrPndSet n mask s) := by
  unfold evrPndSet
  repeat' first
    | with_reducible exact Only.refl _ _
    | decide
    | with_reducible apply Only.ite
    | with_reducible apply Only.dite
    | with_reducible apply Only.set_evr
    | intro _
    | split
    | dsimp only

theorem evrPndClr_only (n : Fin 16) (mask : Word) (s : State) :
    Only [.evr] s (evrPndClr n mask s) := by
  unfold evrPndClr
  repeat' first
    | with_reducible exact Only.refl _ _
    | decide
    | with_reducible apply Only.ite
    | with_reducible apply Only.dite
    | with_reducible apply Only.set_evr
    | intro _
    | split
    | dsimp only

theorem evrTargetChange_only (n : Fin 512) (t : Fin 2) (s : State) :
    Only [.evr] s (evrTargetChange n t s) := by
  unfold evrTargetChange
  extract_lets x
  split
  · exact Only.refl _ _
  · split
    · exact Only.set_evr (Only.refl _ _) (by decide)
    · exact Only.set_evr (Only.refl _ _) (by decide)

theorem evrHoldWrite_only (b : Bool) (s : State) :
    Only [.evr] s (evrHoldWrite b s) := by
  unfold evrHoldWrite
  repeat' first
    | with_reducible exact Only.refl _ _
    | decide
    | with_reducible apply Only.ite
    | with_reducible apply Only.dite
    | with_reducible apply Only.set_evr
    | intro _
    | split
    | dsimp only

theorem idleEndsHold_only (h : Fin 2) (s : State) :
    Only [.sys] s (idleEndsHold h s) := by
  unfold idleEndsHold
  repeat' first
    | with_reducible exact Only.refl _ _
    | decide
    | with_reducible apply Only.ite
    | with_reducible apply Only.dite
    | with_reducible apply Only.after (setLine_only _ _ _)
    | intro _
    | split
    | dsimp only

theorem execEvrRecordWrite_only (h : Fin 2) (s : State) :
    ∃ t', execEvrRecordWrite h s = .next t' ∧ Only [.sys, .evr] s t' := by
  refine ⟨_, rfl, ?_⟩
  repeat' first
    | with_reducible exact Only.refl _ _
    | decide
    | with_reducible apply Only.ite
    | with_reducible apply Only.dite
    | with_reducible apply Only.after (evrRecordWrite_only _ _)
    | intro _
    | split
    | dsimp only

theorem execEvrClaim_only (h : Fin 2) (s : State) :
    ∃ t', execEvrClaim h s = .next t' ∧ Only [.sys, .evr, .hp] s t' := by
  refine ⟨_, rfl, ?_⟩
  repeat' first
    | with_reducible exact Only.refl _ _
    | decide
    | with_reducible apply Only.ite
    | with_reducible apply Only.dite
    | with_reducible apply Only.after (evrClaim_only _ _)
    | with_reducible apply Only.after (clearIdle_only _ _)
    | intro _
    | split
    | dsimp only

theorem execEvrEoi_only (h : Fin 2) (s : State) :
    ∃ t', execEvrEoi h s = .next t' ∧ Only [.evr] s t' := by
  refine ⟨_, rfl, ?_⟩
  repeat' first
    | with_reducible exact Only.refl _ _
    | decide
    | with_reducible apply Only.ite
    | with_reducible apply Only.dite
    | with_reducible apply Only.after (evrEoi_only _ _)
    | intro _
    | split
    | dsimp only

theorem execEvrEnSet_only (src : Source) (n : Fin 16) (mask : Word) (s : State) :
    ∃ t', execEvrEnSet src n mask s = .next t' ∧ Only [.sys, .evr] s t' := by
  refine ⟨_, rfl, ?_⟩
  repeat' first
    | with_reducible exact Only.refl _ _
    | decide
    | with_reducible apply Only.ite
    | with_reducible apply Only.dite
    | with_reducible apply Only.after (evrEnSet_only _ _ _ _)
    | intro _
    | split
    | dsimp only

theorem execEvrEnClr_only (n : Fin 16) (mask : Word) (s : State) :
    ∃ t', execEvrEnClr n mask s = .next t' ∧ Only [.evr] s t' := by
  refine ⟨_, rfl, ?_⟩
  repeat' first
    | with_reducible exact Only.refl _ _
    | decide
    | with_reducible apply Only.ite
    | with_reducible apply Only.dite
    | with_reducible apply Only.after (evrEnClr_only _ _ _)
    | intro _
    | split
    | dsimp only

theorem execEvrPndSet_only (n : Fin 16) (mask : Word) (s : State) :
    ∃ t', execEvrPndSet n mask s = .next t' ∧ Only [.evr] s t' := by
  refine ⟨_, rfl, ?_⟩
  repeat' first
    | with_reducible exact Only.refl _ _
    | decide
    | with_reducible apply Only.ite
    | with_reducible apply Only.dite
    | with_reducible apply Only.after (evrPndSet_only _ _ _)
    | intro _
    | split
    | dsimp only

theorem execEvrPndClr_only (n : Fin 16) (mask : Word) (s : State) :
    ∃ t', execEvrPndClr n mask s = .next t' ∧ Only [.evr] s t' := by
  refine ⟨_, rfl, ?_⟩
  repeat' first
    | with_reducible exact Only.refl _ _
    | decide
    | with_reducible apply Only.ite
    | with_reducible apply Only.dite
    | with_reducible apply Only.after (evrPndClr_only _ _ _)
    | intro _
    | split
    | dsimp only

theorem execEvrTargetChange_only (src : BitVec 9) (target : Fin 2) (s : State) :
    ∃ t', execEvrTargetChange src target s = .next t' ∧ Only [.drawn, .sys, .evr] s t' := by
  refine ⟨_, rfl, ?_⟩
  repeat' first
    | with_reducible exact Only.refl _ _
    | decide
    | with_reducible apply Only.ite
    | with_reducible apply Only.dite
    | with_reducible apply Only.after (logWerr_only _ _ _ _)
    | with_reducible apply Only.after (State.drew_only _)
    | with_reducible apply Only.after (evrTargetChange_only _ _ _)
    | intro _
    | split
    | dsimp only

theorem execEvrHoldWrite_only (hold : Bool) (s : State) :
    ∃ t', execEvrHoldWrite hold s = .next t' ∧ Only [.evr] s t' := by
  refine ⟨_, rfl, ?_⟩
  repeat' first
    | with_reducible exact Only.refl _ _
    | decide
    | with_reducible apply Only.ite
    | with_reducible apply Only.dite
    | with_reducible apply Only.after (evrHoldWrite_only _ _)
    | intro _
    | split
    | dsimp only

theorem execEvrHoldoffExpiry_only (h : Fin 2) (s : State) :
    ∃ t', execEvrHoldoffExpiry h s = .next t' ∧ Only [.sys] s t' := by
  refine ⟨_, rfl, ?_⟩
  repeat' first
    | with_reducible exact Only.refl _ _
    | decide
    | with_reducible apply Only.ite
    | with_reducible apply Only.dite
    | with_reducible apply Only.after (setLine_only _ _ _)
    | intro _
    | split
    | dsimp only

end Sys2Proof.Machine
end

