-- ==== Sys2Proof/Laws/FrameSupply.lean ====
section
/-! SUPPORT. Supply: the parts of the state that each operation of Machine/Supply may change. -/
namespace Sys2Proof.Machine

open Sys2Proof

theorem State.setSup_only (s : State) (f : Supply → Supply) :
    Only [.sup] s (State.setSup s f) := by
  unfold State.setSup
  repeat' first
    | with_reducible exact Only.refl _ _
    | decide
    | with_reducible apply Only.ite
    | with_reducible apply Only.dite
    | with_reducible apply Only.set_sup
    | intro _
    | split
    | dsimp only

theorem State.setFeed_only (s : State) (f : Fin 2) (g : Feed → Feed) :
    Only [.sup] s (State.setFeed s f g) := by
  unfold State.setFeed
  repeat' first
    | with_reducible exact Only.refl _ _
    | decide
    | with_reducible apply Only.ite
    | with_reducible apply Only.dite
    | with_reducible apply Only.after (State.setSup_only _ _)
    | intro _
    | split
    | dsimp only

theorem feedEnter_only (f : Fin 2) (c : FeedCond) (v : Half) (s : State) :
    Only [.sup, .evr] s (feedEnter f c v s) := by
  unfold feedEnter
  repeat' first
    | with_reducible exact Only.refl _ _
    | decide
    | with_reducible apply Only.ite
    | with_reducible apply Only.dite
    | with_reducible apply Only.after (supplyEvent_only _ _ _ _)
    | with_reducible apply Only.after (State.setFeed_only _ _ _)
    | intro _
    | split
    | dsimp only

theorem powerFail_only (volts : Vector Half 2) (hold : Half) (s : State) :
    Only [.sup, .evr, .imz] s (powerFail volts hold s) := by
  unfold powerFail
  repeat' first
    | with_reducible exact Only.refl _ _
    | decide
    | with_reducible apply Only.ite
    | with_reducible apply Only.dite
    | with_reducible apply Only.after (State.setSup_only _ _)
    | with_reducible apply Only.after (supplyRaise_only _ _ _)
    | with_reducible apply Only.set_imz
    | intro _
    | split
    | dsimp only

theorem powerRestore_only (hold : Half) (s : State) :
    Only [.sup, .evr, .imz] s (powerRestore hold s) := by
  unfold powerRestore
  repeat' first
    | with_reducible exact Only.refl _ _
    | decide
    | with_reducible apply Only.ite
    | with_reducible apply Only.dite
    | with_reducible apply Only.after (State.setSup_only _ _)
    | with_reducible apply Only.after (supplyRaise_only _ _ _)
    | with_reducible apply Only.set_imz
    | intro _
    | split
    | dsimp only

theorem feedLost_only (f : Fin 2) (rev : Bool) (v hold : Half) (s : State) :
    Only [.sup, .evr, .imz] s (feedLost f rev v hold s) := by
  unfold feedLost
  repeat' first
    | with_reducible exact Only.refl _ _
    | decide
    | with_reducible apply Only.ite
    | with_reducible apply Only.dite
    | with_reducible apply Only.after (State.setFeed_only _ _ _)
    | with_reducible apply Only.after (feedEnter_only _ _ _ _)
    | with_reducible apply Only.after (powerFail_only _ _ _)
    | intro _
    | split
    | dsimp only

theorem execFeedLow_only (f : Fin 2) (v : Half) (s : State) :
    ∃ t', execFeedLow f v s = .next t' ∧ Only [.sup, .evr] s t' := by
  refine ⟨_, rfl, ?_⟩
  repeat' first
    | with_reducible exact Only.refl _ _
    | decide
    | with_reducible apply Only.ite
    | with_reducible apply Only.dite
    | with_reducible apply Only.after (feedEnter_only _ _ _ _)
    | intro _
    | split
    | dsimp only

theorem execFeedLost_only (f : Fin 2) (v hold : Half) (s : State) :
    ∃ t', execFeedLost f v hold s = .next t' ∧ Only [.sup, .evr, .imz] s t' := by
  refine ⟨_, rfl, ?_⟩
  repeat' first
    | with_reducible exact Only.refl _ _
    | decide
    | with_reducible apply Only.ite
    | with_reducible apply Only.dite
    | with_reducible apply Only.after (feedLost_only _ _ _ _ _)
    | intro _
    | split
    | dsimp only

theorem execFeedLostEnd_only (f : Fin 2) (v hold : Half) (s : State) :
    ∃ t', execFeedLostEnd f v hold s = .next t' ∧ Only [.sup, .evr, .imz] s t' := by
  refine ⟨_, rfl, ?_⟩
  repeat' first
    | with_reducible exact Only.refl _ _
    | decide
    | with_reducible apply Only.ite
    | with_reducible apply Only.dite
    | with_reducible apply Only.after (powerRestore_only _ _)
    | with_reducible apply Only.after (feedEnter_only _ _ _ _)
    | with_reducible apply Only.after (State.setFeed_only _ _ _)
    | intro _
    | split
    | dsimp only

theorem execFeedHigh_only (f : Fin 2) (v : Half) (s : State) :
    ∃ t', execFeedHigh f v s = .next t' ∧ Only [.sup, .evr] s t' := by
  refine ⟨_, rfl, ?_⟩
  repeat' first
    | with_reducible exact Only.refl _ _
    | decide
    | with_reducible apply Only.ite
    | with_reducible apply Only.dite
    | with_reducible apply Only.after (feedEnter_only _ _ _ _)
    | intro _
    | split
    | dsimp only

theorem execFeedInRange_only (f : Fin 2) (v : Half) (s : State) :
    ∃ t', execFeedInRange f v s = .next t' ∧ Only [.sup, .evr] s t' := by
  refine ⟨_, rfl, ?_⟩
  repeat' first
    | with_reducible exact Only.refl _ _
    | decide
    | with_reducible apply Only.ite
    | with_reducible apply Only.dite
    | with_reducible apply Only.after (feedEnter_only _ _ _ _)
    | intro _
    | split
    | dsimp only

theorem execFeedDisconnect_only (f : Fin 2) (s : State) :
    ∃ t', execFeedDisconnect f s = .next t' ∧ Only [.sup] s t' := by
  refine ⟨_, rfl, ?_⟩
  repeat' first
    | with_reducible exact Only.refl _ _
    | decide
    | with_reducible apply Only.ite
    | with_reducible apply Only.dite
    | with_reducible apply Only.after (State.setFeed_only _ _ _)
    | intro _
    | split
    | dsimp only

theorem execFeedReconnect_only (f : Fin 2) (s : State) :
    ∃ t', execFeedReconnect f s = .next t' ∧ Only [.sup] s t' := by
  refine ⟨_, rfl, ?_⟩
  repeat' first
    | with_reducible exact Only.refl _ _
    | decide
    | with_reducible apply Only.ite
    | with_reducible apply Only.dite
    | with_reducible apply Only.after (State.setFeed_only _ _ _)
    | intro _
    | split
    | dsimp only

theorem execFeedReversed_only (f : Fin 2) (hold : Half) (s : State) :
    ∃ t', execFeedReversed f hold s = .next t' ∧ Only [.sup, .evr, .imz] s t' := by
  refine ⟨_, rfl, ?_⟩
  repeat' first
    | with_reducible exact Only.refl _ _
    | decide
    | with_reducible apply Only.ite
    | with_reducible apply Only.dite
    | with_reducible apply Only.after (feedLost_only _ _ _ _ _)
    | intro _
    | split
    | dsimp only

theorem absentRelease_only (declared : Bool) (s : State) :
    Only [.sup, .evr] s (absentRelease declared s) := by
  unfold absentRelease
  repeat' first
    | with_reducible exact Only.refl _ _
    | decide
    | with_reducible apply Only.ite
    | with_reducible apply Only.dite
    | with_reducible apply Only.after (State.setSup_only _ _)
    | with_reducible apply Only.after (supplyRaise_only _ _ _)
    | intro _
    | split
    | dsimp only

theorem execHoldAbsent_only (v : Half) (s : State) :
    ∃ t', execHoldAbsent v s = .next t' ∧ Only [.sup, .evr] s t' := by
  refine ⟨_, rfl, ?_⟩
  repeat' first
    | with_reducible exact Only.refl _ _
    | decide
    | with_reducible apply Only.ite
    | with_reducible apply Only.dite
    | with_reducible apply Only.after (State.setSup_only _ _)
    | with_reducible apply Only.after (absentRelease_only _ _)
    | intro _
    | split
    | dsimp only

theorem execHoldOk_only (v : Half) (s : State) :
    ∃ t', execHoldOk v s = .next t' ∧ Only [.sup] s t' := by
  refine ⟨_, rfl, ?_⟩
  repeat' first
    | with_reducible exact Only.refl _ _
    | decide
    | with_reducible apply Only.ite
    | with_reducible apply Only.dite
    | with_reducible apply Only.after (State.setSup_only _ _)
    | intro _
    | split
    | dsimp only

theorem execHoldFault_only (v : Half) (s : State) :
    ∃ t', execHoldFault v s = .next t' ∧ Only [.sup, .evr] s t' := by
  refine ⟨_, rfl, ?_⟩
  repeat' first
    | with_reducible exact Only.refl _ _
    | decide
    | with_reducible apply Only.ite
    | with_reducible apply Only.dite
    | with_reducible apply Only.after (supplyRaise_only _ _ _)
    | with_reducible apply Only.after (State.setSup_only _ _)
    | intro _
    | split
    | dsimp only

theorem execHoldChargeRetry_only (s : State) :
    ∃ t', execHoldChargeRetry s = .next t' ∧ Only [.sup] s t' := by
  refine ⟨_, rfl, ?_⟩
  repeat' first
    | with_reducible exact Only.refl _ _
    | decide
    | with_reducible apply Only.ite
    | with_reducible apply Only.dite
    | with_reducible apply Only.after (State.setSup_only _ _)
    | intro _
    | split
    | dsimp only

theorem execXtalHandover_only (s : State) :
    ∃ t', execXtalHandover s = .next t' ∧ Only [.sys] s t' := by
  refine ⟨_, rfl, ?_⟩
  repeat' first
    | with_reducible exact Only.refl _ _
    | decide
    | with_reducible apply Only.ite
    | with_reducible apply Only.dite
    | with_reducible apply Only.set_sys
    | intro _
    | split
    | dsimp only

theorem crystalFailed_only (s : State) :
    Only [.sys, .evr] s (crystalFailed s) := by
  unfold crystalFailed
  repeat' first
    | with_reducible exact Only.refl _ _
    | decide
    | with_reducible apply Only.ite
    | with_reducible apply Only.dite
    | with_reducible apply Only.after (supplyRaise_only _ _ _)
    | with_reducible apply Only.set_sys
    | intro _
    | split
    | dsimp only

theorem clockMismatch_only (diff tcxoNet xtalNet : Int) (s : State) :
    Only [.drawn, .sys, .rcp, .evr, .ui, .ao, .dio, .dioBlk, .can, .pev, .imz, .lvn, .pnl] s (clockMismatch diff tcxoNet xtalNet s) := by
  unfold clockMismatch
  repeat' first
    | with_reducible exact Only.refl _ _
    | decide
    | with_reducible apply Only.ite
    | with_reducible apply Only.dite
    | with_reducible apply Only.after (supplyRaise_only _ _ _)
    | with_reducible apply Only.after (State.drew_only _)
    | with_reducible apply Only.after (crystalFailed_only _)
    | with_reducible apply Only.after (supervisorFault_only _ _ _)
    | with_reducible apply Only.set_sys
    | intro _
    | split
    | dsimp only

theorem execClockCheck_only (diff tcxoNet xtalNet : Int) (s : State) :
    ∃ t', execClockCheck diff tcxoNet xtalNet s = .next t' ∧ Only [.drawn, .sys, .rcp, .evr, .ui, .ao, .dio, .dioBlk, .can, .pev, .imz, .lvn, .pnl] s t' := by
  refine ⟨_, rfl, ?_⟩
  repeat' first
    | with_reducible exact Only.refl _ _
    | decide
    | with_reducible apply Only.ite
    | with_reducible apply Only.dite
    | with_reducible apply Only.after (State.drew_only _)
    | with_reducible apply Only.after (clockMismatch_only _ _ _ _)
    | with_reducible apply Only.set_sys
    | intro _
    | split
    | dsimp only

theorem execTempMeasure_only (plate die : Half) (s : State) :
    ∃ t', execTempMeasure plate die s = .next t' ∧ Only [.drawn, .sys, .sup, .rcp, .evr, .ui, .ao, .dio, .dioBlk, .can, .pev, .imz, .lvn, .pnl] s t' := by
  refine ⟨_, rfl, ?_⟩
  repeat' first
    | with_reducible exact Only.refl _ _
    | decide
    | with_reducible apply Only.ite
    | with_reducible apply Only.dite
    | with_reducible apply Only.after (State.setSup_only _ _)
    | with_reducible apply Only.after (supplyEvent_only _ _ _ _)
    | with_reducible apply Only.after (supervisorFault_only _ _ _)
    | intro _
    | split
    | dsimp only

theorem execSupplyEventHoldoff_only (q : Quantity) (v : Half) (s : State) :
    ∃ t', execSupplyEventHoldoff q v s = .next t' ∧ Only [.sup, .evr] s t' := by
  refine ⟨_, rfl, ?_⟩
  repeat' first
    | with_reducible exact Only.refl _ _
    | decide
    | with_reducible apply Only.ite
    | with_reducible apply Only.dite
    | with_reducible apply Only.after (State.setSup_only _ _)
    | with_reducible apply Only.after (supplyEvent_only _ _ _ _)
    | intro _
    | split
    | dsimp only

end Sys2Proof.Machine
end

