-- ==== Sys2Proof/Laws/FrameLoopback.lean ====
section
/-! SUPPORT. Loopback: the parts of the state that each operation of Machine/Loopback may change. -/
namespace Sys2Proof.Machine

open Sys2Proof

theorem testResult_only (face depth chan st detail : Nat) (s : State) :
    Only [.evr, .tst] s (testResult face depth chan st detail s) := by
  unfold testResult
  repeat' first
    | with_reducible exact Only.refl _ _
    | decide
    | with_reducible apply Only.ite
    | with_reducible apply Only.dite
    | with_reducible apply Only.after (ageEvent_only _ _ _ _)
    | with_reducible apply Only.set_tst
    | intro _
    | split
    | dsimp only

theorem uiLoop_only (src : Source) (c : Fin 16) (depth : Nat) (pass : Bool) (s : State) :
    Only [.sys, .evr, .ui, .tst] s (uiLoop src c depth pass s) := by
  unfold uiLoop
  repeat' first
    | with_reducible exact Only.refl _ _
    | decide
    | with_reducible apply Only.ite
    | with_reducible apply Only.dite
    | with_reducible apply Only.after (testResult_only _ _ _ _ _ _)
    | with_reducible apply Only.after (logWerr_only _ _ _ _)
    | with_reducible apply Only.after (State.setUi_only _ _ _)
    | intro _
    | split
    | dsimp only

theorem dioLoop_only (c : Fin 16) (depth : Nat) (pass : Bool) (s : State) :
    Only [.evr, .tst] s (dioLoop c depth pass s) := by
  unfold dioLoop
  repeat' first
    | with_reducible exact Only.refl _ _
    | decide
    | with_reducible apply Only.ite
    | with_reducible apply Only.dite
    | with_reducible apply Only.after (testResult_only _ _ _ _ _ _)
    | intro _
    | split
    | dsimp only

theorem dioCrust_only (c : Fin 16) (pass : Bool) (s : State) :
    Only [.evr, .tst] s (dioCrust c pass s) := by
  unfold dioCrust
  repeat' first
    | with_reducible exact Only.refl _ _
    | decide
    | with_reducible apply Only.ite
    | with_reducible apply Only.dite
    | with_reducible apply Only.after (testResult_only _ _ _ _ _ _)
    | intro _
    | split
    | dsimp only

theorem psLoop_only (c : Fin 2) (depth : Nat) (pass : Bool) (s : State) :
    Only [.evr, .tst] s (psLoop c depth pass s) := by
  unfold psLoop
  repeat' first
    | with_reducible exact Only.refl _ _
    | decide
    | with_reducible apply Only.ite
    | with_reducible apply Only.dite
    | with_reducible apply Only.after (testResult_only _ _ _ _ _ _)
    | intro _
    | split
    | dsimp only

theorem aoCrust_only (c : Fin 4) (diff : Nat) (s : State) :
    Only [.drawn, .evr, .tst] s (aoCrust c diff s) := by
  unfold aoCrust
  repeat' first
    | with_reducible exact Only.refl _ _
    | decide
    | with_reducible apply Only.ite
    | with_reducible apply Only.dite
    | with_reducible apply Only.after (testResult_only _ _ _ _ _ _)
    | with_reducible apply Only.after (State.drew_only _)
    | intro _
    | split
    | dsimp only

theorem aoEcho_only (echoes : BitVec 4) (s : State) (c : Fin 4) :
    Only [.drawn, .sys, .fab, .rcp, .evr, .ui, .uiBlk, .ao, .aoBlk, .dio, .dioBlk, .ps, .psBlk, .can, .pev, .ann, .call, .imz, .tim, .lvn, .mmc, .pnl, .rnd] s (aoEcho echoes s c) := by
  unfold aoEcho
  repeat' first
    | with_reducible exact Only.refl _ _
    | decide
    | with_reducible apply Only.ite
    | with_reducible apply Only.dite
    | with_reducible apply Only.after (aoNotify_only _ _ _)
    | with_reducible apply Only.after (State.setAo_only _ _ _)
    | with_reducible apply Only.after (cellFault_only _ _ _ _)
    | intro _
    | split
    | dsimp only

theorem periodicLoop_only (t : LoopCell) (pass retry : Bool) (cause : Fin 5) (s : State) :
    Only [.drawn, .sys, .fab, .rcp, .evr, .ui, .uiBlk, .ao, .aoBlk, .dio, .dioBlk, .ps, .psBlk, .can, .pev, .ann, .call, .imz, .tim, .lvn, .mmc, .pnl, .rnd] s (periodicLoop t pass retry cause s) := by
  unfold periodicLoop
  repeat' first
    | with_reducible exact Only.refl _ _
    | decide
    | with_reducible apply Only.ite
    | with_reducible apply Only.dite
    | with_reducible apply Only.after (cellFault_only _ _ _ _)
    | intro _
    | split
    | dsimp only

theorem fieldStart_only (src sink : BitVec 5) (s : State) :
    Only [.evr, .tst] s (fieldStart src sink s) := by
  unfold fieldStart
  extract_lets chan
  split
  · refine Only.ite (Only.set_tst (Only.refl _ _) (by decide)) ?_
    exact (testResult_only _ _ _ _ _ _).mono (by decide)
  · exact (testResult_only _ _ _ _ _ _).mono (by decide)

theorem fieldEnd_only (s : State) :
    Only [.tst] s (fieldEnd s) := by
  unfold fieldEnd
  repeat' first
    | with_reducible exact Only.refl _ _
    | decide
    | with_reducible apply Only.ite
    | with_reducible apply Only.dite
    | with_reducible apply Only.set_tst
    | intro _
    | split
    | dsimp only

theorem fieldDone_only (levels : Bool) (skew : Nat) (s : State) :
    Only [.evr, .tst] s (fieldDone levels skew s) := by
  unfold fieldDone
  repeat' first
    | with_reducible exact Only.refl _ _
    | decide
    | with_reducible apply Only.ite
    | with_reducible apply Only.dite
    | with_reducible apply Only.after (testResult_only _ _ _ _ _ _)
    | with_reducible apply Only.after (fieldEnd_only _)
    | intro _
    | split
    | dsimp only

theorem jtagLoad_only (i : BitVec 4) (trstn : Bool) (s : State) :
    Only [.drawn, .sys, .rcp, .evr, .ui, .ao, .dio, .dioBlk, .can, .pev, .imz, .lvn, .pnl, .tst] s (jtagLoad i trstn s) := by
  unfold jtagLoad
  repeat' first
    | with_reducible exact Only.refl _ _
    | decide
    | with_reducible apply Only.ite
    | with_reducible apply Only.dite
    | with_reducible apply Only.after (supervisorFault_only _ _ _)
    | with_reducible apply Only.set_tst
    | intro _
    | split
    | dsimp only

theorem execUiCrumb_only (src : Source) (c : Fin 16) (pass : Bool) (s : State) :
    ∃ t', execUiCrumb src c pass s = .next t' ∧ Only [.sys, .evr, .ui, .tst] s t' := by
  refine ⟨_, rfl, ?_⟩
  repeat' first
    | with_reducible exact Only.refl _ _
    | decide
    | with_reducible apply Only.ite
    | with_reducible apply Only.dite
    | with_reducible apply Only.after (uiLoop_only _ _ _ _ _)
    | intro _
    | split
    | dsimp only

theorem execUiBarrier_only (src : Source) (c : Fin 16) (pass : Bool) (s : State) :
    ∃ t', execUiBarrier src c pass s = .next t' ∧ Only [.sys, .evr, .ui, .tst] s t' := by
  refine ⟨_, rfl, ?_⟩
  repeat' first
    | with_reducible exact Only.refl _ _
    | decide
    | with_reducible apply Only.ite
    | with_reducible apply Only.dite
    | with_reducible apply Only.after (uiLoop_only _ _ _ _ _)
    | intro _
    | split
    | dsimp only

theorem execAoCrust_only (_src : Source) (c : Fin 4) (diff : Nat) (s : State) :
    ∃ t', execAoCrust _src c diff s = .next t' ∧ Only [.drawn, .evr, .tst] s t' := by
  refine ⟨_, rfl, ?_⟩
  repeat' first
    | with_reducible exact Only.refl _ _
    | decide
    | with_reducible apply Only.ite
    | with_reducible apply Only.dite
    | with_reducible apply Only.after (aoCrust_only _ _ _)
    | intro _
    | split
    | dsimp only

theorem execAoKeepalive_only (echoes : BitVec 4) (s : State) :
    ∃ t', execAoKeepalive echoes s = .next t' ∧ Only [.drawn, .sys, .fab, .rcp, .evr, .ui, .uiBlk, .ao, .aoBlk, .dio, .dioBlk, .ps, .psBlk, .can, .pev, .ann, .call, .imz, .tim, .lvn, .mmc, .pnl, .rnd] s t' := by
  refine ⟨_, rfl, ?_⟩
  repeat' first
    | with_reducible exact Only.refl _ _
    | decide
    | with_reducible apply Only.ite
    | with_reducible apply Only.dite
    | with_reducible apply Only.foldl
    | with_reducible apply Only.after (aoEcho_only _ _ _)
    | intro _
    | split
    | dsimp only

theorem execDioCrumb_only (_src : Source) (c : Fin 16) (pass : Bool) (s : State) :
    ∃ t', execDioCrumb _src c pass s = .next t' ∧ Only [.evr, .tst] s t' := by
  refine ⟨_, rfl, ?_⟩
  repeat' first
    | with_reducible exact Only.refl _ _
    | decide
    | with_reducible apply Only.ite
    | with_reducible apply Only.dite
    | with_reducible apply Only.after (dioLoop_only _ _ _ _)
    | intro _
    | split
    | dsimp only

theorem execDioBarrier_only (_src : Source) (c : Fin 16) (pass : Bool) (s : State) :
    ∃ t', execDioBarrier _src c pass s = .next t' ∧ Only [.evr, .tst] s t' := by
  refine ⟨_, rfl, ?_⟩
  repeat' first
    | with_reducible exact Only.refl _ _
    | decide
    | with_reducible apply Only.ite
    | with_reducible apply Only.dite
    | with_reducible apply Only.after (dioLoop_only _ _ _ _)
    | intro _
    | split
    | dsimp only

theorem execDioCrust_only (_src : Source) (c : Fin 16) (pass : Bool) (s : State) :
    ∃ t', execDioCrust _src c pass s = .next t' ∧ Only [.evr, .tst] s t' := by
  refine ⟨_, rfl, ?_⟩
  repeat' first
    | with_reducible exact Only.refl _ _
    | decide
    | with_reducible apply Only.ite
    | with_reducible apply Only.dite
    | with_reducible apply Only.after (dioCrust_only _ _ _)
    | intro _
    | split
    | dsimp only

theorem execPsCrumb_only (_src : Source) (c : Fin 2) (pass : Bool) (s : State) :
    ∃ t', execPsCrumb _src c pass s = .next t' ∧ Only [.evr, .tst] s t' := by
  refine ⟨_, rfl, ?_⟩
  repeat' first
    | with_reducible exact Only.refl _ _
    | decide
    | with_reducible apply Only.ite
    | with_reducible apply Only.dite
    | with_reducible apply Only.after (psLoop_only _ _ _ _)
    | intro _
    | split
    | dsimp only

theorem execPsBarrier_only (_src : Source) (c : Fin 2) (pass : Bool) (s : State) :
    ∃ t', execPsBarrier _src c pass s = .next t' ∧ Only [.evr, .tst] s t' := by
  refine ⟨_, rfl, ?_⟩
  repeat' first
    | with_reducible exact Only.refl _ _
    | decide
    | with_reducible apply Only.ite
    | with_reducible apply Only.dite
    | with_reducible apply Only.after (psLoop_only _ _ _ _)
    | intro _
    | split
    | dsimp only

theorem execPeriodicLoopback_only (t : LoopCell) (pass retry : Bool) (cause : Fin 5) (s : State) :
    ∃ t', execPeriodicLoopback t pass retry cause s = .next t' ∧ Only [.drawn, .sys, .fab, .rcp, .evr, .ui, .uiBlk, .ao, .aoBlk, .dio, .dioBlk, .ps, .psBlk, .can, .pev, .ann, .call, .imz, .tim, .lvn, .mmc, .pnl, .rnd] s t' := by
  refine ⟨_, rfl, ?_⟩
  repeat' first
    | with_reducible exact Only.refl _ _
    | decide
    | with_reducible apply Only.ite
    | with_reducible apply Only.dite
    | with_reducible apply Only.after (periodicLoop_only _ _ _ _ _)
    | intro _
    | split
    | dsimp only

theorem execDioFieldLoopback_only (src sink : BitVec 5) (s : State) :
    ∃ t', execDioFieldLoopback src sink s = .next t' ∧ Only [.evr, .tst] s t' := by
  refine ⟨_, rfl, ?_⟩
  repeat' first
    | with_reducible exact Only.refl _ _
    | decide
    | with_reducible apply Only.ite
    | with_reducible apply Only.dite
    | with_reducible apply Only.after (fieldStart_only _ _ _)
    | intro _
    | split
    | dsimp only

theorem execFieldLoopbackDone_only (levels : Bool) (skew : Nat) (s : State) :
    ∃ t', execFieldLoopbackDone levels skew s = .next t' ∧ Only [.evr, .tst] s t' := by
  refine ⟨_, rfl, ?_⟩
  repeat' first
    | with_reducible exact Only.refl _ _
    | decide
    | with_reducible apply Only.ite
    | with_reducible apply Only.dite
    | with_reducible apply Only.after (fieldDone_only _ _ _)
    | intro _
    | split
    | dsimp only

theorem execJtagInstruction_only (i : BitVec 4) (trstn : Bool) (s : State) :
    ∃ t', execJtagInstruction i trstn s = .next t' ∧ Only [.drawn, .sys, .rcp, .evr, .ui, .ao, .dio, .dioBlk, .can, .pev, .imz, .lvn, .pnl, .tst] s t' := by
  refine ⟨_, rfl, ?_⟩
  repeat' first
    | with_reducible exact Only.refl _ _
    | decide
    | with_reducible apply Only.ite
    | with_reducible apply Only.dite
    | with_reducible apply Only.after (jtagLoad_only _ _ _)
    | intro _
    | split
    | dsimp only

end Sys2Proof.Machine
end

