-- ==== Sys2Proof/Laws/FrameStart.lean ====
section
/-! SUPPORT. Start: the parts of the state that each operation of Machine/Start may change. -/
namespace Sys2Proof.Machine

open Sys2Proof

theorem coldStart_only (s : State) :
    Only [.sys, .fab, .sup, .rcp, .evr, .hp, .ui, .uiBlk, .ao, .aoBlk, .dio, .dioBlk, .ps, .psBlk, .can, .pev, .ann, .grp, .call, .imz, .tim, .lvn, .recd, .mmc, .pnl, .rnd, .age, .tst] s (coldStart s) :=
  ⟨fun p hp => by cases p <;> first | rfl | cases hp⟩

theorem startBegin_only (s : State) :
    Only [.sys, .fab, .sup, .rcp, .evr, .hp, .ui, .uiBlk, .ao, .aoBlk, .dio, .dioBlk, .ps, .psBlk, .can, .pev, .ann, .grp, .call, .imz, .tim, .lvn, .recd, .mmc, .pnl, .rnd, .age, .tst] s (startBegin s) := by
  unfold startBegin
  repeat' first
    | with_reducible exact Only.refl _ _
    | decide
    | with_reducible apply Only.ite
    | with_reducible apply Only.dite
    | with_reducible apply Only.after (coldStart_only _)
    | with_reducible apply Only.set_sys_sup
    | intro _
    | split
    | dsimp only

theorem powerless_only (s : State) :
    Only [.now, .mono, .sys, .fab, .sup, .rcp, .evr, .hp, .ui, .uiBlk, .ao, .aoBlk, .dio, .dioBlk, .ps, .psBlk, .can, .pev, .ann, .grp, .call, .imz, .tim, .lvn, .recd, .mmc, .pnl, .rnd, .age, .tst] s (powerless s) := by
  unfold powerless
  repeat' first
    | with_reducible exact Only.refl _ _
    | decide
    | with_reducible apply Only.ite
    | with_reducible apply Only.dite
    | with_reducible apply Only.after (coldStart_only _)
    | with_reducible apply Only.set_now_mono
    | with_reducible apply Only.set_sys_sup
    | intro _
    | split
    | dsimp only

theorem execPowerGood_only (testmode : Bool) (s : State) :
    ∃ t', execPowerGood testmode s = .next t' ∧ Only [.now, .mono, .sys, .fab, .sup, .rcp, .evr, .hp, .ui, .uiBlk, .ao, .aoBlk, .dio, .dioBlk, .ps, .psBlk, .can, .pev, .ann, .grp, .call, .imz, .tim, .lvn, .recd, .mmc, .pnl, .rnd, .age, .tst] s t' := by
  refine ⟨_, rfl, ?_⟩
  repeat' first
    | with_reducible exact Only.refl _ _
    | decide
    | with_reducible apply Only.ite
    | with_reducible apply Only.dite
    | with_reducible apply Only.after (powerless_only _)
    | with_reducible apply Only.after (startBegin_only _)
    | with_reducible apply Only.set_sys_sup
    | intro _
    | split
    | dsimp only

theorem execPowerGoodLoss_only (s : State) :
    ∃ t', execPowerGoodLoss s = .next t' ∧ Only [.now, .mono, .sys, .fab, .sup, .rcp, .evr, .hp, .ui, .uiBlk, .ao, .aoBlk, .dio, .dioBlk, .ps, .psBlk, .can, .pev, .ann, .grp, .call, .imz, .tim, .lvn, .recd, .mmc, .pnl, .rnd, .age, .tst] s t' := by
  refine ⟨_, rfl, ?_⟩
  repeat' first
    | with_reducible exact Only.refl _ _
    | decide
    | with_reducible apply Only.ite
    | with_reducible apply Only.dite
    | with_reducible apply Only.after (powerless_only _)
    | intro _
    | split
    | dsimp only

theorem setResetn_only (b : Bool) (s : State) :
    Only [.sys] s (setResetn b s) := by
  unfold setResetn
  repeat' first
    | with_reducible exact Only.refl _ _
    | decide
    | with_reducible apply Only.ite
    | with_reducible apply Only.dite
    | with_reducible apply Only.set_sys
    | intro _
    | split
    | dsimp only

theorem execResetnLow_only (s : State) :
    ∃ t', execResetnLow s = .next t' ∧ Only [.sys, .fab, .sup, .rcp, .evr, .hp, .ui, .uiBlk, .ao, .aoBlk, .dio, .dioBlk, .ps, .psBlk, .can, .pev, .ann, .grp, .call, .imz, .tim, .lvn, .recd, .mmc, .pnl, .rnd, .age, .tst] s t' := by
  refine ⟨_, rfl, ?_⟩
  repeat' first
    | with_reducible exact Only.refl _ _
    | decide
    | with_reducible apply Only.ite
    | with_reducible apply Only.dite
    | with_reducible apply Only.after (setResetn_only _ _)
    | with_reducible apply Only.after (coldStart_only _)
    | with_reducible apply Only.set_sys
    | intro _
    | split
    | dsimp only

theorem execResetnRise_only (s : State) :
    ∃ t', execResetnRise s = .next t' ∧ Only [.sys, .fab, .sup, .rcp, .evr, .hp, .ui, .uiBlk, .ao, .aoBlk, .dio, .dioBlk, .ps, .psBlk, .can, .pev, .ann, .grp, .call, .imz, .tim, .lvn, .recd, .mmc, .pnl, .rnd, .age, .tst] s t' := by
  refine ⟨_, rfl, ?_⟩
  repeat' first
    | with_reducible exact Only.refl _ _
    | decide
    | with_reducible apply Only.ite
    | with_reducible apply Only.dite
    | with_reducible apply Only.after (setResetn_only _ _)
    | with_reducible apply Only.after (startBegin_only _)
    | intro _
    | split
    | dsimp only

theorem execRoleChange_only (level : Bool) (s : State) :
    ∃ t', execRoleChange level s = .next t' ∧ Only [.sys] s t' := by
  refine ⟨_, rfl, ?_⟩
  repeat' first
    | with_reducible exact Only.refl _ _
    | decide
    | with_reducible apply Only.ite
    | with_reducible apply Only.dite
    | with_reducible apply Only.after (logWerr_only _ _ _ _)
    | with_reducible apply Only.set_sys
    | intro _
    | split
    | dsimp only

theorem execSafeStateRestart_only (s : State) :
    ∃ t', execSafeStateRestart s = .next t' ∧ Only [.sys, .fab, .sup, .rcp, .evr, .hp, .ui, .uiBlk, .ao, .aoBlk, .dio, .dioBlk, .ps, .psBlk, .can, .pev, .ann, .grp, .call, .imz, .tim, .lvn, .recd, .mmc, .pnl, .rnd, .age, .tst] s t' := by
  refine ⟨_, rfl, ?_⟩
  repeat' first
    | with_reducible exact Only.refl _ _
    | decide
    | with_reducible apply Only.ite
    | with_reducible apply Only.dite
    | with_reducible apply Only.after (startBegin_only _)
    | with_reducible apply Only.set_sys
    | intro _
    | split
    | dsimp only

theorem annToRec_only (s : State) :
    Only [.evr, .ann, .recd, .mmc] s (annToRec s) := by
  unfold annToRec
  repeat' first
    | with_reducible exact Only.refl _ _
    | decide
    | with_reducible apply Only.ite
    | with_reducible apply Only.dite
    | with_reducible apply Only.foldl
    | with_reducible apply Only.after (recEntry_only _ _)
    | intro _
    | split
    | dsimp only

theorem breathKep_only (s : State) :
    Only [.sys] s (breathKep s) := by
  unfold breathKep
  repeat' first
    | with_reducible exact Only.refl _ _
    | decide
    | with_reducible apply Only.ite
    | with_reducible apply Only.dite
    | with_reducible apply Only.set_sys
    | intro _
    | split
    | dsimp only

theorem outputsOff_only (s : State) :
    Only [.sys, .evr, .ui, .ao, .dio, .dioBlk] s (outputsOff s) := by
  unfold outputsOff
  repeat' first
    | with_reducible exact Only.refl _ _
    | decide
    | with_reducible apply Only.ite
    | with_reducible apply Only.dite
    | with_reducible apply noted_only
    | with_reducible apply Only.after (allOff_only _)
    | with_reducible apply Only.after (aoEndSpell_only _)
    | intro _
    | split
    | dsimp only

theorem breathPage_only (dataDone : Bool) (s : State) :
    Only [.recd, .mmc] s (breathPage dataDone s).2.2 := by
  unfold breathPage
  repeat' first
    | with_reducible exact Only.refl _ _
    | decide
    | with_reducible apply Only.ite
    | with_reducible apply Only.dite
    | with_reducible apply Only.iteSnd2
    | with_reducible apply Only.after (commitWrite_only _ _)
    | with_reducible apply Only.after (State.setRec_only _ _)
    | intro _
    | split
    | dsimp only

theorem breathMedia_only (dataDone : Bool) (s : State) :
    Only [.recd, .mmc] s (breathMedia dataDone s) := by
  unfold breathMedia
  repeat' first
    | with_reducible exact Only.refl _ _
    | decide
    | with_reducible apply Only.ite
    | with_reducible apply Only.dite
    | with_reducible apply Only.after (breathPage_only _ _)
    | with_reducible apply Only.after (sectorPut_only _ _ _)
    | with_reducible apply Only.after (State.setMmc_only _ _)
    | intro _
    | split
    | dsimp only

theorem breathHand_only (s : State) :
    Only [.lvn] s (breathHand s) := by
  unfold breathHand
  repeat' first
    | with_reducible exact Only.refl _ _
    | decide
    | with_reducible apply Only.ite
    | with_reducible apply Only.dite
    | with_reducible apply Only.after (faultFrame_only _ _)
    | intro _
    | split
    | dsimp only

theorem lastBreath_only (hold : Half) (dataDone : Bool) (s : State) :
    Only [.drawn, .sys, .sup, .rcp, .evr, .ui, .ao, .dio, .dioBlk, .can, .pev, .ann, .lvn, .recd, .mmc, .pnl] s (lastBreath hold dataDone s) := by
  unfold lastBreath
  repeat' first
    | with_reducible exact Only.refl _ _
    | decide
    | with_reducible apply Only.ite
    | with_reducible apply Only.dite
    | with_reducible apply Only.after (breathKep_only _)
    | with_reducible apply Only.after (breathHand_only _)
    | with_reducible apply Only.after (supplyRaise_only _ _ _)
    | with_reducible apply Only.after (State.setSup_only _ _)
    | with_reducible apply Only.after (annToRec_only _)
    | with_reducible apply Only.after (swapAbort_only _)
    | with_reducible apply Only.after (pnlCut_only _)
    | with_reducible apply Only.after (outputsOff_only _)
    | with_reducible apply Only.after (breathMedia_only _ _)
    | with_reducible apply Only.after (restat_only _)
    | with_reducible apply Only.set_pev
    | with_reducible apply Only.set_sys
    | with_reducible apply Only.set_sys_sup
    | intro _
    | split
    | dsimp only

theorem execLastBreath_only (hold : Half) (dataDone : Bool) (s : State) :
    ∃ t', execLastBreath hold dataDone s = .next t' ∧ Only [.drawn, .sys, .sup, .rcp, .evr, .ui, .ao, .dio, .dioBlk, .can, .pev, .ann, .lvn, .recd, .mmc, .pnl] s t' := by
  refine ⟨_, rfl, ?_⟩
  repeat' first
    | with_reducible exact Only.refl _ _
    | decide
    | with_reducible apply Only.ite
    | with_reducible apply Only.dite
    | with_reducible apply Only.after (lastBreath_only _ _ _)
    | intro _
    | split
    | dsimp only

theorem execLastBreathRestart_only (s : State) :
    ∃ t', execLastBreathRestart s = .next t' ∧ Only [.drawn, .sys, .fab, .sup, .rcp, .evr, .hp, .ui, .uiBlk, .ao, .aoBlk, .dio, .dioBlk, .ps, .psBlk, .can, .pev, .ann, .grp, .call, .imz, .tim, .lvn, .recd, .mmc, .pnl, .rnd, .age, .tst] s t' := by
  refine ⟨_, rfl, ?_⟩
  repeat' first
    | with_reducible exact Only.refl _ _
    | decide
    | with_reducible apply Only.ite
    | with_reducible apply Only.dite
    | with_reducible apply Only.after (lastBreath_only _ _ _)
    | with_reducible apply Only.after (startBegin_only _)
    | intro _
    | split
    | dsimp only

theorem evrLoad_only (s : State) :
    Only [.sys, .evr, .hp] s (evrLoad s) := by
  unfold evrLoad
  repeat' first
    | with_reducible exact Only.refl _ _
    | decide
    | with_reducible apply Only.ite
    | with_reducible apply Only.dite
    | with_reducible apply Only.set_evr_hp_sys
    | intro _
    | split
    | dsimp only

theorem substLoad_only (s : State) :
    Only [.pev] s (substLoad s) := by
  unfold substLoad
  repeat' first
    | with_reducible exact Only.refl _ _
    | decide
    | with_reducible apply Only.ite
    | with_reducible apply Only.dite
    | with_reducible apply Only.set_pev
    | intro _
    | split
    | dsimp only

theorem islandsLoad_only (s : State) :
    Only [.ui, .ao, .dio, .ps] s (islandsLoad s) := by
  unfold islandsLoad
  repeat' first
    | with_reducible exact Only.refl _ _
    | decide
    | with_reducible apply Only.ite
    | with_reducible apply Only.dite
    | with_reducible apply Only.foldl
    | with_reducible apply Only.after (uiApply_only _ _)
    | with_reducible apply Only.after (uiLoad_only _ _)
    | with_reducible apply Only.after (aoApply_only _ _)
    | with_reducible apply Only.after (aoLoad_only _ _)
    | with_reducible apply Only.after (dioLoad_only _ _)
    | with_reducible apply Only.after (psLoad_only _ _)
    | intro _
    | split
    | dsimp only

theorem islandsUp_only (s : State) :
    Only [.evr, .ui, .ao, .dio, .ps] s (islandsUp s) := by
  unfold islandsUp
  repeat' first
    | with_reducible exact Only.refl _ _
    | decide
    | with_reducible apply Only.ite
    | with_reducible apply Only.dite
    | with_reducible apply noted_only
    | with_reducible apply Only.after (islandsLoad_only _)
    | intro _
    | split
    | dsimp only

theorem pairTrain_only (s : State) :
    Only [.evr, .lvn] s (pairTrain s) := by
  unfold pairTrain
  repeat' first
    | with_reducible exact Only.refl _ _
    | decide
    | with_reducible apply Only.ite
    | with_reducible apply Only.dite
    | with_reducible apply Only.after (setPair_only _ _)
    | intro _
    | split
    | dsimp only

theorem step7_only (s : State) :
    Only [.drawn, .sys, .evr, .hp, .ui, .ao, .dio, .ps, .pev, .call, .lvn, .recd, .pnl, .age] s (step7 s) := by
  unfold step7
  repeat' first
    | with_reducible exact Only.refl _ _
    | decide
    | with_reducible apply Only.ite
    | with_reducible apply Only.dite
    | with_reducible apply Only.after (settingsLoad_only _)
    | with_reducible apply Only.after (State.setRec_only _ _)
    | with_reducible apply Only.after (substLoad_only _)
    | with_reducible apply Only.after (islandsUp_only _)
    | with_reducible apply Only.after (pairTrain_only _)
    | with_reducible apply Only.after (callInit_only _)
    | with_reducible apply Only.after (ageStart_only _)
    | with_reducible apply Only.after (pnlLoad_only _)
    | with_reducible apply Only.after (evrLoad_only _)
    | with_reducible apply Only.set_sys_pev
    | intro _
    | split
    | dsimp only

end Sys2Proof.Machine
end

