-- ==== Sys2Proof/Laws/FramePower.lean ====
section
/-! SUPPORT. Power: the parts of the state that each operation of Machine/Power may change. -/
namespace Sys2Proof.Machine

open Sys2Proof

theorem State.setRegion_only (s : State) (r : Fin 5) (f : Region → Region) :
    Only [.sys] s (State.setRegion s r f) := by
  unfold State.setRegion
  repeat' first
    | with_reducible exact Only.refl _ _
    | decide
    | with_reducible apply Only.ite
    | with_reducible apply Only.dite
    | with_reducible apply Only.set_sys
    | intro _
    | split
    | dsimp only

theorem State.setPower_only (s : State) (p : Power) :
    Only [.sys] s (State.setPower s p) := by
  unfold State.setPower
  repeat' first
    | with_reducible exact Only.refl _ _
    | decide
    | with_reducible apply Only.ite
    | with_reducible apply Only.dite
    | with_reducible apply Only.set_sys
    | intro _
    | split
    | dsimp only

theorem dozeUp_only (r : Fin 5) (s : State) :
    Only [.sys] s (dozeUp r s) := by
  unfold dozeUp
  repeat' first
    | with_reducible exact Only.refl _ _
    | decide
    | with_reducible apply Only.ite
    | with_reducible apply Only.dite
    | with_reducible apply Only.after (State.setRegion_only _ _ _)
    | intro _
    | split
    | dsimp only

theorem dozeSync_only (s : State) :
    Only [.sys] s (dozeSync s) := by
  unfold dozeSync
  repeat' first
    | with_reducible exact Only.refl _ _
    | decide
    | with_reducible apply Only.ite
    | with_reducible apply Only.dite
    | with_reducible apply Only.after (State.setPower_only _ _)
    | with_reducible apply Only.after (dozeUp_only _ _)
    | intro _
    | split
    | dsimp only

theorem dozeEnable_only (en : Bool) (s : State) :
    Only [.sys] s (dozeEnable en s) := by
  unfold dozeEnable
  repeat' first
    | with_reducible exact Only.refl _ _
    | decide
    | with_reducible apply Only.ite
    | with_reducible apply Only.dite
    | with_reducible apply Only.after (dozeSync_only _)
    | with_reducible apply Only.set_sys
    | intro _
    | split
    | dsimp only

theorem dozeDown_only (fce : Bool) (s : State) :
    Only [.sys, .fab] s (dozeDown fce s) := by
  unfold dozeDown
  repeat' first
    | with_reducible exact Only.refl _ _
    | decide
    | with_reducible apply Only.ite
    | with_reducible apply Only.dite
    | with_reducible apply Only.after (State.setRegion_only _ _ _)
    | with_reducible apply Only.set_fab
    | intro _
    | split
    | dsimp only

theorem dormantAsk_only (src : Source) (s : State) :
    Only [.sys] s (dormantAsk src s) := by
  unfold dormantAsk
  repeat' first
    | with_reducible exact Only.refl _ _
    | decide
    | with_reducible apply Only.ite
    | with_reducible apply Only.dite
    | with_reducible apply Only.after (logWerr_only _ _ _ _)
    | with_reducible apply Only.set_sys
    | intro _
    | split
    | dsimp only

theorem canFlush_only (k : Fin 4) (s : State) :
    Only [.evr, .can] s (canFlush k s) := by
  unfold canFlush
  repeat' first
    | with_reducible exact Only.refl _ _
    | decide
    | with_reducible apply Only.ite
    | with_reducible apply Only.dite
    | with_reducible apply Only.foldl
    | with_reducible apply Only.after (canSent_only _ _ _ _)
    | intro _
    | split
    | dsimp only

theorem dormantBeat_only (s : State) :
    Only [.sys, .evr, .can, .imz] s (dormantBeat s) := by
  unfold dormantBeat
  repeat' first
    | with_reducible exact Only.refl _ _
    | decide
    | with_reducible apply Only.ite
    | with_reducible apply Only.dite
    | with_reducible apply Only.foldl
    | with_reducible apply Only.after (imzBeat_only _ _ _)
    | with_reducible apply Only.after (canAbortAll_only _ _ _ _)
    | with_reducible apply Only.after (canSetMode_only _ _ _)
    | with_reducible apply Only.after (canFlush_only _ _)
    | intro _
    | split
    | dsimp only

theorem regionsDown_only (s : State) :
    Only [.drawn, .sys, .fab, .rcp, .evr, .uiBlk, .ao, .aoBlk, .dio, .dioBlk, .ps, .psBlk, .can, .pev, .ann, .call, .tim, .lvn, .mmc, .pnl, .rnd] s (regionsDown s) := by
  unfold regionsDown
  repeat' first
    | with_reducible exact Only.refl _ _
    | decide
    | with_reducible apply Only.ite
    | with_reducible apply Only.dite
    | with_reducible apply Only.foldl
    | with_reducible apply Only.after (regionClear_only _ _)
    | with_reducible apply Only.after (State.setRegion_only _ _ _)
    | with_reducible apply Only.set_fab
    | intro _
    | split
    | dsimp only

theorem islandsOff_only (s : State) :
    Only [.ui] s (islandsOff s) := by
  unfold islandsOff
  repeat' first
    | with_reducible exact Only.refl _ _
    | decide
    | with_reducible apply Only.ite
    | with_reducible apply Only.dite
    | with_reducible apply Only.set_ui
    | intro _
    | split
    | dsimp only

theorem dormantEnter_only (s : State) :
    Only [.drawn, .sys, .fab, .rcp, .evr, .ui, .uiBlk, .ao, .aoBlk, .dio, .dioBlk, .ps, .psBlk, .can, .pev, .ann, .call, .imz, .tim, .lvn, .mmc, .pnl, .rnd] s (dormantEnter s) := by
  unfold dormantEnter
  repeat' first
    | with_reducible exact Only.refl _ _
    | decide
    | with_reducible apply Only.ite
    | with_reducible apply Only.dite
    | with_reducible apply Only.after (dioMark_only _)
    | with_reducible apply Only.after (dormantBeat_only _)
    | with_reducible apply Only.after (swapAbort_only _)
    | with_reducible apply Only.after (cellNotify_only _ _)
    | with_reducible apply Only.after (islandsOff_only _)
    | with_reducible apply Only.after (regionsDown_only _)
    | with_reducible apply Only.after (driveSafe_only _)
    | with_reducible apply Only.after (State.setPower_only _ _)
    | with_reducible apply Only.after (State.setMmc_only _ _)
    | with_reducible apply Only.set_sys
    | intro _
    | split
    | dsimp only

theorem wakeSource_only (n : Fin 512) (s : State) :
    Only [.drawn, .sys, .evr] s (wakeSource n s) := by
  unfold wakeSource
  repeat' first
    | with_reducible exact Only.refl _ _
    | decide
    | with_reducible apply Only.ite
    | with_reducible apply Only.dite
    | with_reducible apply Only.after (raise_only _ _ _)
    | with_reducible apply Only.after (State.drew_only _)
    | with_reducible apply Only.after (setLine_only _ _ _)
    | with_reducible apply Only.set_evr
    | intro _
    | split
    | dsimp only

theorem wakeUp_only (code : Nat) (s : State) :
    Only [.sys, .evr, .ui, .ao, .dio, .imz, .lvn, .mmc] s (wakeUp code s) := by
  unfold wakeUp
  repeat' first
    | with_reducible exact Only.refl _ _
    | decide
    | with_reducible apply Only.ite
    | with_reducible apply Only.dite
    | with_reducible apply Only.foldl
    | with_reducible apply Only.after (State.setRegion_only _ _ _)
    | with_reducible apply Only.after (State.setMmc_only _ _)
    | with_reducible apply Only.after (State.setImz_only _ _)
    | with_reducible apply Only.after (cellNotify_only _ _)
    | with_reducible apply Only.after (uiApply_only _ _)
    | with_reducible apply Only.after (aoLetGo_only _)
    | with_reducible apply Only.after (dioReleaseAll_only _)
    | with_reducible apply Only.after (restat_only _)
    | with_reducible apply Only.after (pairTrain_only _)
    | with_reducible apply Only.set_sys
    | intro _
    | split
    | dsimp only

theorem wakeCmd_only (s : State) :
    Only [.sys, .evr, .ui, .ao, .dio, .imz, .lvn, .mmc] s (wakeCmd s) := by
  unfold wakeCmd
  repeat' first
    | with_reducible exact Only.refl _ _
    | decide
    | with_reducible apply Only.ite
    | with_reducible apply Only.dite
    | with_reducible apply Only.after (wakeUp_only _ _)
    | with_reducible apply Only.after (dozeUp_only _ _)
    | intro _
    | split
    | dsimp only

theorem execDozeEnable_only (_src : Source) (en : Bool) (s : State) :
    ∃ t', execDozeEnable _src en s = .next t' ∧ Only [.sys] s t' := by
  refine ⟨_, rfl, ?_⟩
  repeat' first
    | with_reducible exact Only.refl _ _
    | decide
    | with_reducible apply Only.ite
    | with_reducible apply Only.dite
    | with_reducible apply Only.after (dozeEnable_only _ _)
    | intro _
    | split
    | dsimp only

theorem execDozePowerDown_only (fce : Bool) (s : State) :
    ∃ t', execDozePowerDown fce s = .next t' ∧ Only [.sys, .fab] s t' := by
  refine ⟨_, rfl, ?_⟩
  repeat' first
    | with_reducible exact Only.refl _ _
    | decide
    | with_reducible apply Only.ite
    | with_reducible apply Only.dite
    | with_reducible apply Only.after (dozeDown_only _ _)
    | intro _
    | split
    | dsimp only

theorem execDozePowerUp_only (fce : Bool) (s : State) :
    ∃ t', execDozePowerUp fce s = .next t' ∧ Only [.sys] s t' := by
  refine ⟨_, rfl, ?_⟩
  repeat' first
    | with_reducible exact Only.refl _ _
    | decide
    | with_reducible apply Only.ite
    | with_reducible apply Only.dite
    | with_reducible apply Only.after (dozeUp_only _ _)
    | intro _
    | split
    | dsimp only

theorem execDormantRequest_only (src : Source) (s : State) :
    ∃ t', execDormantRequest src s = .next t' ∧ Only [.sys] s t' := by
  refine ⟨_, rfl, ?_⟩
  repeat' first
    | with_reducible exact Only.refl _ _
    | decide
    | with_reducible apply Only.ite
    | with_reducible apply Only.dite
    | with_reducible apply Only.after (dormantAsk_only _ _)
    | intro _
    | split
    | dsimp only

theorem execDormantEntry_only (s : State) :
    ∃ t', execDormantEntry s = .next t' ∧ Only [.drawn, .sys, .fab, .rcp, .evr, .ui, .uiBlk, .ao, .aoBlk, .dio, .dioBlk, .ps, .psBlk, .can, .pev, .ann, .call, .imz, .tim, .lvn, .mmc, .pnl, .rnd] s t' := by
  refine ⟨_, rfl, ?_⟩
  repeat' first
    | with_reducible exact Only.refl _ _
    | decide
    | with_reducible apply Only.ite
    | with_reducible apply Only.dite
    | with_reducible apply Only.after (dormantEnter_only _)
    | intro _
    | split
    | dsimp only

theorem execWakeCommand_only (_src : Source) (s : State) :
    ∃ t', execWakeCommand _src s = .next t' ∧ Only [.sys, .evr, .ui, .ao, .dio, .imz, .lvn, .mmc] s t' := by
  refine ⟨_, rfl, ?_⟩
  repeat' first
    | with_reducible exact Only.refl _ _
    | decide
    | with_reducible apply Only.ite
    | with_reducible apply Only.dite
    | with_reducible apply Only.after (wakeCmd_only _)
    | intro _
    | split
    | dsimp only

theorem execDormantWake_only (src : Option (BitVec 9)) (s : State) :
    ∃ t', execDormantWake src s = .next t' ∧ Only [.drawn, .sys, .evr, .ui, .ao, .dio, .imz, .lvn, .mmc] s t' := by
  refine ⟨_, rfl, ?_⟩
  repeat' first
    | with_reducible exact Only.refl _ _
    | decide
    | with_reducible apply Only.ite
    | with_reducible apply Only.dite
    | with_reducible apply Only.after (wakeUp_only _ _)
    | with_reducible apply Only.after (wakeSource_only _ _)
    | intro _
    | split
    | dsimp only

end Sys2Proof.Machine
end

