-- ==== Sys2Proof/Laws/FrameBoot.lean ====
section
/-! SUPPORT. Boot: the parts of the state that each operation of Machine/Boot may change. -/
namespace Sys2Proof.Machine

open Sys2Proof

theorem mmcPower_only (on : Bool) (s : State) :
    Only [.sys] s (mmcPower on s) := by
  unfold mmcPower
  repeat' first
    | with_reducible exact Only.refl _ _
    | decide
    | with_reducible apply Only.ite
    | with_reducible apply Only.dite
    | with_reducible apply Only.set_sys
    | intro _
    | split
    | dsimp only

theorem setStep_only (n : Nat) (s : State) :
    Only [.sys] s (setStep n s) := by
  unfold setStep
  repeat' first
    | with_reducible exact Only.refl _ _
    | decide
    | with_reducible apply Only.ite
    | with_reducible apply Only.dite
    | with_reducible apply Only.set_sys
    | intro _
    | split
    | dsimp only

theorem bareCan_only (n mode : Nat) (k : Fin 4) (s : State) :
    Only [.sys, .evr, .can] s (bareCan n mode k s) := by
  unfold bareCan
  repeat' first
    | with_reducible exact Only.refl _ _
    | decide
    | with_reducible apply Only.ite
    | with_reducible apply Only.dite
    | with_reducible apply Only.after (canSetMode_only _ _ _)
    | with_reducible apply Only.after (State.setCan_only _ _ _)
    | intro _
    | split
    | dsimp only

theorem bareSearch_only (n : Nat) (s : State) :
    Only [.sys, .rcp, .evr, .can] s (bareSearch n s) := by
  unfold bareSearch
  repeat' first
    | with_reducible exact Only.refl _ _
    | decide
    | with_reducible apply Only.ite
    | with_reducible apply Only.dite
    | with_reducible apply Only.after (bareCan_only _ _ _ _)
    | with_reducible apply Only.after (State.setRcp_only _ _)
    | intro _
    | split
    | dsimp only

theorem bareRatesFound_only (s : State) :
    Only [.sys, .rcp, .evr, .can] s (bareRatesFound s) := by
  unfold bareRatesFound
  repeat' first
    | with_reducible exact Only.refl _ _
    | decide
    | with_reducible apply Only.ite
    | with_reducible apply Only.dite
    | with_reducible apply Only.after (canSetMode_only _ _ _)
    | with_reducible apply Only.after (State.setRcp_only _ _)
    | intro _
    | split
    | dsimp only

theorem bareError_only (k : Fin 2) (s : State) :
    Only [.sys, .rcp, .evr, .can] s (bareError k s) := by
  unfold bareError
  repeat' first
    | with_reducible exact Only.refl _ _
    | decide
    | with_reducible apply Only.ite
    | with_reducible apply Only.dite
    | with_reducible apply Only.after (bareSearch_only _ _)
    | with_reducible apply Only.after (State.setRcp_only _ _)
    | intro _
    | split
    | dsimp only

theorem bareEnter_only (cause : Nat) (s : State) :
    Only [.sys, .sup, .rcp, .evr, .can] s (bareEnter cause s) := by
  unfold bareEnter
  repeat' first
    | with_reducible exact Only.refl _ _
    | decide
    | with_reducible apply Only.ite
    | with_reducible apply Only.dite
    | with_reducible apply Only.after (absentRelease_only _ _)
    | with_reducible apply Only.after (restat_only _)
    | with_reducible apply Only.after (bareSearch_only _ _)
    | with_reducible apply Only.set_sys
    | intro _
    | split
    | dsimp only

theorem bareClaimSend_only (s : State) :
    Only [.evr, .can] s (bareClaimSend s) := by
  unfold bareClaimSend
  repeat' first
    | with_reducible exact Only.refl _ _
    | decide
    | with_reducible apply Only.ite
    | with_reducible apply Only.dite
    | with_reducible apply Only.after (bareSend_only _ _)
    | intro _
    | split
    | dsimp only

theorem mmcReady_only (info : MmcInfo) (s : State) :
    Only [.sys, .evr, .recd, .mmc, .age] s (mmcReady info s) := by
  unfold mmcReady
  repeat' first
    | with_reducible exact Only.refl _ _
    | decide
    | with_reducible apply Only.ite
    | with_reducible apply Only.dite
    | with_reducible apply Only.after (mmcPower_only _ _)
    | with_reducible apply Only.after (State.setMmc_only _ _)
    | with_reducible apply Only.after (commitNext_only _)
    | with_reducible apply Only.after (settingsRetry_only _)
    | with_reducible apply Only.after (mmcEvent_only _ _ _)
    | intro _
    | split
    | dsimp only

theorem mmcAttempt_only (ok : Bool) (info : MmcInfo) (s : State) :
    Only [.sys, .sup, .rcp, .evr, .can, .recd, .mmc, .age] s (mmcAttempt ok info s) := by
  unfold mmcAttempt
  repeat' first
    | with_reducible exact Only.refl _ _
    | decide
    | with_reducible apply Only.ite
    | with_reducible apply Only.dite
    | with_reducible apply Only.after (setStep_only _ _)
    | with_reducible apply Only.after (mmcReady_only _ _)
    | with_reducible apply Only.after (bareEnter_only _ _)
    | with_reducible apply Only.after (mmcEvent_only _ _ _)
    | with_reducible apply Only.after (mmcPower_only _ _)
    | with_reducible apply Only.after (State.setRcp_only _ _)
    | intro _
    | split
    | dsimp only

theorem execEmmcInit_only (ok : Bool) (info : MmcInfo) (s : State) :
    ∃ t', execEmmcInit ok info s = .next t' ∧ Only [.sys, .sup, .rcp, .evr, .can, .recd, .mmc, .age] s t' := by
  refine ⟨_, rfl, ?_⟩
  repeat' first
    | with_reducible exact Only.refl _ _
    | decide
    | with_reducible apply Only.ite
    | with_reducible apply Only.dite
    | with_reducible apply Only.after (mmcAttempt_only _ _ _)
    | with_reducible apply Only.after (mmcReady_only _ _)
    | with_reducible apply Only.after (mmcError_only _ _)
    | intro _
    | split
    | dsimp only

theorem execEmmcInitRetry_only (ok : Bool) (info : MmcInfo) (s : State) :
    ∃ t', execEmmcInitRetry ok info s = .next t' ∧ Only [.sys, .sup, .rcp, .evr, .can, .recd, .mmc, .age] s t' := by
  refine ⟨_, rfl, ?_⟩
  repeat' first
    | with_reducible exact Only.refl _ _
    | decide
    | with_reducible apply Only.ite
    | with_reducible apply Only.dite
    | with_reducible apply Only.after (mmcAttempt_only _ _ _)
    | intro _
    | split
    | dsimp only

theorem execMmcReinitTimer_only (ok : Bool) (s : State) :
    ∃ t', execMmcReinitTimer ok s = .next t' ∧ Only [.drawn, .evr, .ao, .dio, .recd, .mmc, .age] s t' := by
  refine ⟨_, rfl, ?_⟩
  repeat' first
    | with_reducible exact Only.refl _ _
    | decide
    | with_reducible apply Only.ite
    | with_reducible apply Only.dite
    | with_reducible apply Only.after (settingsRetry_only _)
    | with_reducible apply inKep_only
    | with_reducible apply Only.after (mmcTimer_only _ _)
    | intro _
    | split
    | dsimp only

theorem bootSelect_only (s : State) :
    Only [.sys, .sup, .rcp, .evr, .can] s (bootSelect s) := by
  unfold bootSelect
  repeat' first
    | with_reducible exact Only.refl _ _
    | decide
    | with_reducible apply Only.ite
    | with_reducible apply Only.dite
    | with_reducible apply Only.after (bareEnter_only _ _)
    | with_reducible apply Only.after (setStep_only _ _)
    | with_reducible apply Only.after (State.setRcp_only _ _)
    | with_reducible apply Only.after (raise_only _ _ _)
    | with_reducible apply Only.after (writeBootConfig_only _ _ _ _)
    | intro _
    | split
    | dsimp only

theorem execBootHeadersRead_only (ok : Bool) (s : State) :
    ∃ t', execBootHeadersRead ok s = .next t' ∧ Only [.sys, .sup, .rcp, .evr, .can] s t' := by
  refine ⟨_, rfl, ?_⟩
  repeat' first
    | with_reducible exact Only.refl _ _
    | decide
    | with_reducible apply Only.ite
    | with_reducible apply Only.dite
    | with_reducible apply Only.after (bootSelect_only _)
    | with_reducible apply Only.after (setStep_only _ _)
    | with_reducible apply Only.after (State.setRcp_only _ _)
    | with_reducible apply Only.after (bareEnter_only _ _)
    | intro _
    | split
    | dsimp only

theorem execActiveImageLoaded_only (ok : Bool) (s : State) :
    ∃ t', execActiveImageLoaded ok s = .next t' ∧ Only [.drawn, .sys, .sup, .rcp, .evr, .hp, .ui, .ao, .dio, .ps, .can, .pev, .call, .lvn, .recd, .pnl, .age] s t' := by
  refine ⟨_, rfl, ?_⟩
  repeat' first
    | with_reducible exact Only.refl _ _
    | decide
    | with_reducible apply Only.ite
    | with_reducible apply Only.dite
    | with_reducible apply Only.after (bareEnter_only _ _)
    | with_reducible apply Only.after (bootSelect_only _)
    | with_reducible apply Only.after (State.setRcp_only _ _)
    | with_reducible apply Only.after (setStep_only _ _)
    | with_reducible apply Only.after (step7_only _)
    | with_reducible apply Only.after (absentRelease_only _ _)
    | intro _
    | split
    | dsimp only

theorem shadowLoad_only (ok : Bool) (s : State) :
    Only [.rcp] s (shadowLoad ok s) := by
  unfold shadowLoad
  repeat' first
    | with_reducible exact Only.refl _ _
    | decide
    | with_reducible apply Only.ite
    | with_reducible apply Only.dite
    | with_reducible apply Only.after (State.setRcp_only _ _)
    | intro _
    | split
    | dsimp only

theorem execShadowLoaded_only (ok : Bool) (s : State) :
    ∃ t', execShadowLoaded ok s = .next t' ∧ Only [.rcp] s t' := by
  refine ⟨_, rfl, ?_⟩
  repeat' first
    | with_reducible exact Only.refl _ _
    | decide
    | with_reducible apply Only.ite
    | with_reducible apply Only.dite
    | with_reducible apply Only.after (shadowLoad_only _ _)
    | intro _
    | split
    | dsimp only

theorem execBareRateSearchStep_only (s : State) :
    ∃ t', execBareRateSearchStep s = .next t' ∧ Only [.sys, .rcp, .evr, .can] s t' := by
  refine ⟨_, rfl, ?_⟩
  repeat' first
    | with_reducible exact Only.refl _ _
    | decide
    | with_reducible apply Only.ite
    | with_reducible apply Only.dite
    | with_reducible apply Only.after (bareSearch_only _ _)
    | intro _
    | split
    | dsimp only

theorem execBareAddrClaim_only (s : State) :
    ∃ t', execBareAddrClaim s = .next t' ∧ Only [.evr, .can] s t' := by
  refine ⟨_, rfl, ?_⟩
  repeat' first
    | with_reducible exact Only.refl _ _
    | decide
    | with_reducible apply Only.ite
    | with_reducible apply Only.dite
    | with_reducible apply Only.after (bareClaimSend_only _)
    | intro _
    | split
    | dsimp only

theorem cfgWriteEnd_only (ok : Bool) (s : State) :
    Only [.rcp, .evr] s (cfgWriteEnd ok s) := by
  unfold cfgWriteEnd
  repeat' first
    | with_reducible exact Only.refl _ _
    | decide
    | with_reducible apply Only.ite
    | with_reducible apply Only.dite
    | with_reducible apply Only.after (writeBootConfig_only _ _ _ _)
    | with_reducible apply Only.after (State.setRcp_only _ _)
    | with_reducible apply Only.after (mmcEvent_only _ _ _)
    | intro _
    | split
    | dsimp only

theorem execBootConfigWritten_only (ok : Bool) (s : State) :
    ∃ t', execBootConfigWritten ok s = .next t' ∧ Only [.rcp, .evr] s t' := by
  refine ⟨_, rfl, ?_⟩
  repeat' first
    | with_reducible exact Only.refl _ _
    | decide
    | with_reducible apply Only.ite
    | with_reducible apply Only.dite
    | with_reducible apply Only.after (cfgWriteEnd_only _ _)
    | intro _
    | split
    | dsimp only

theorem execBootConfigRetry_only (ok : Bool) (s : State) :
    ∃ t', execBootConfigRetry ok s = .next t' ∧ Only [.rcp, .evr] s t' := by
  refine ⟨_, rfl, ?_⟩
  repeat' first
    | with_reducible exact Only.refl _ _
    | decide
    | with_reducible apply Only.ite
    | with_reducible apply Only.dite
    | with_reducible apply Only.after (cfgWriteEnd_only _ _)
    | intro _
    | split
    | dsimp only

theorem updateTake_only (ok : Bool) (s : State) :
    Only [.sys, .fab, .sup, .rcp, .evr, .hp, .ui, .uiBlk, .ao, .aoBlk, .dio, .dioBlk, .ps, .psBlk, .can, .pev, .ann, .grp, .call, .imz, .tim, .lvn, .recd, .mmc, .pnl, .rnd, .age, .tst] s (updateTake ok s) := by
  unfold updateTake
  repeat' first
    | with_reducible exact Only.refl _ _
    | decide
    | with_reducible apply Only.ite
    | with_reducible apply Only.dite
    | with_reducible apply Only.after (State.setRcp_only _ _)
    | with_reducible apply Only.after (startBegin_only _)
    | with_reducible apply Only.after (writeBootConfig_only _ _ _ _)
    | intro _
    | split
    | dsimp only

theorem execPartnerUpdateDone_only (ok : Bool) (s : State) :
    ∃ t', execPartnerUpdateDone ok s = .next t' ∧ Only [.sys, .fab, .sup, .rcp, .evr, .hp, .ui, .uiBlk, .ao, .aoBlk, .dio, .dioBlk, .ps, .psBlk, .can, .pev, .ann, .grp, .call, .imz, .tim, .lvn, .recd, .mmc, .pnl, .rnd, .age, .tst] s t' := by
  refine ⟨_, rfl, ?_⟩
  repeat' first
    | with_reducible exact Only.refl _ _
    | decide
    | with_reducible apply Only.ite
    | with_reducible apply Only.dite
    | with_reducible apply Only.after (updateTake_only _ _)
    | with_reducible apply Only.after (shadowLoad_only _ _)
    | with_reducible apply Only.after (State.setRcp_only _ _)
    | with_reducible apply Only.after (State.setLvn_only _ _)
    | intro _
    | split
    | dsimp only

end Sys2Proof.Machine
end

