-- ==== Sys2Proof/Laws/FrameRcp.lean ====
section
/-! SUPPORT. Rcp: the parts of the state that each operation of Machine/Rcp may change. -/
namespace Sys2Proof.Machine

open Sys2Proof

theorem rcpOpen_only (src : Source) (ok : Bool) (s : State) :
    Only [.rcp, .evr] s (rcpOpen src ok s) := by
  unfold rcpOpen
  repeat' first
    | with_reducible exact Only.refl _ _
    | decide
    | with_reducible apply Only.ite
    | with_reducible apply Only.dite
    | with_reducible apply Only.after (rcpEnd_only _ _ _ _)
    | with_reducible apply Only.after (State.setRcp_only _ _)
    | intro _
    | split
    | dsimp only

theorem blockWrite_only (n : Nat) (s : State) :
    Only [.rcp] s (blockWrite n s) := by
  unfold blockWrite
  repeat' first
    | with_reducible exact Only.refl _ _
    | decide
    | with_reducible apply Only.ite
    | with_reducible apply Only.dite
    | with_reducible apply Only.after (State.setRcp_only _ _)
    | intro _
    | split
    | dsimp only

theorem rcpWriteBlock_only (src : Source) (xfer : Bool) (n : Nat) (ok : Bool) (s : State) :
    Only [.rcp, .evr, .imz] s (rcpWriteBlock src xfer n ok s) := by
  unfold rcpWriteBlock
  repeat' first
    | with_reducible exact Only.refl _ _
    | decide
    | with_reducible apply Only.ite
    | with_reducible apply Only.dite
    | with_reducible apply Only.after (rcpEnd_only _ _ _ _)
    | with_reducible apply Only.after (State.setImz_only _ _)
    | with_reducible apply Only.after (blockWrite_only _ _)
    | intro _
    | split
    | dsimp only

theorem rcpVerify_only (src : Source) (s : State) :
    Only [.rcp, .evr] s (rcpVerify src s) := by
  unfold rcpVerify
  repeat' first
    | with_reducible exact Only.refl _ _
    | decide
    | with_reducible apply Only.ite
    | with_reducible apply Only.dite
    | with_reducible apply Only.after (rcpEnd_only _ _ _ _)
    | with_reducible apply Only.after (State.setRcp_only _ _)
    | intro _
    | split
    | dsimp only

theorem verifyFail_only (code detail : Nat) (s : State) :
    Only [.drawn, .rcp, .evr, .can] s (verifyFail code detail s) := by
  unfold verifyFail
  repeat' first
    | with_reducible exact Only.refl _ _
    | decide
    | with_reducible apply Only.ite
    | with_reducible apply Only.dite
    | with_reducible apply Only.after (verifyEnd_only _ _ _)
    | with_reducible apply Only.after (State.setRcp_only _ _)
    | intro _
    | split
    | dsimp only

theorem verifyDone_only (partnerAbsent : Bool) (s : State) :
    Only [.drawn, .sys, .fab, .sup, .rcp, .evr, .hp, .ui, .uiBlk, .ao, .aoBlk, .dio, .dioBlk, .ps, .psBlk, .can, .pev, .ann, .grp, .call, .imz, .tim, .lvn, .recd, .mmc, .pnl, .rnd, .age, .tst] s (verifyDone partnerAbsent s) := by
  unfold verifyDone
  repeat' first
    | with_reducible exact Only.refl _ _
    | decide
    | with_reducible apply Only.ite
    | with_reducible apply Only.dite
    | with_reducible apply Only.after (State.setRcp_only _ _)
    | with_reducible apply Only.after (startBegin_only _)
    | with_reducible apply Only.after (writeBootConfig_only _ _ _ _)
    | with_reducible apply Only.after (verifyEnd_only _ _ _)
    | intro _
    | split
    | dsimp only

theorem verifyResult_only (fail : Option Half) (p : PartnerAnswer) (s : State) :
    Only [.drawn, .sys, .fab, .sup, .rcp, .evr, .hp, .ui, .uiBlk, .ao, .aoBlk, .dio, .dioBlk, .ps, .psBlk, .can, .pev, .ann, .grp, .call, .imz, .tim, .lvn, .recd, .mmc, .pnl, .rnd, .age, .tst] s (verifyResult fail p s) := by
  unfold verifyResult
  repeat' first
    | with_reducible exact Only.refl _ _
    | decide
    | with_reducible apply Only.ite
    | with_reducible apply Only.dite
    | with_reducible apply Only.after (verifyFail_only _ _ _)
    | with_reducible apply Only.after (verifyDone_only _ _)
    | intro _
    | split
    | dsimp only

theorem rcpClose_only (src : Source) (s : State) :
    Only [.rcp, .evr] s (rcpClose src s) := by
  unfold rcpClose
  repeat' first
    | with_reducible exact Only.refl _ _
    | decide
    | with_reducible apply Only.ite
    | with_reducible apply Only.dite
    | with_reducible apply Only.after (rcpEnd_only _ _ _ _)
    | with_reducible apply Only.after (rcpDropWrite_only _)
    | intro _
    | split
    | dsimp only

theorem swapAccept_only (src : Source) (s : State) :
    Only [.rcp] s (swapAccept src s) := by
  unfold swapAccept
  repeat' first
    | with_reducible exact Only.refl _ _
    | decide
    | with_reducible apply Only.ite
    | with_reducible apply Only.dite
    | with_reducible apply Only.after (State.setRcp_only _ _)
    | intro _
    | split
    | dsimp only

theorem rcpSwap_only (src : Source) (key : Byte) (same : Bool) (s : State) :
    Only [.rcp, .evr] s (rcpSwap src key same s) := by
  unfold rcpSwap
  repeat' first
    | with_reducible exact Only.refl _ _
    | decide
    | with_reducible apply Only.ite
    | with_reducible apply Only.dite
    | with_reducible apply Only.after (rcpEnd_only _ _ _ _)
    | with_reducible apply Only.after (swapAccept_only _ _)
    | with_reducible apply Only.after (State.setRcp_only _ _)
    | intro _
    | split
    | dsimp only

theorem swapRetry_only (same : Bool) (s : State) :
    Only [.drawn, .rcp, .evr, .can] s (swapRetry same s) := by
  unfold swapRetry
  repeat' first
    | with_reducible exact Only.refl _ _
    | decide
    | with_reducible apply Only.ite
    | with_reducible apply Only.dite
    | with_reducible apply Only.after (State.setRcp_only _ _)
    | with_reducible apply Only.after (swapFinish_only _ _)
    | with_reducible apply Only.after (swapAccept_only _ _)
    | intro _
    | split
    | dsimp only

theorem rcpSetActive_only (key : Byte) (ok : Bool) (s : State) :
    Only [.rcp, .evr] s (rcpSetActive key ok s) := by
  unfold rcpSetActive
  repeat' first
    | with_reducible exact Only.refl _ _
    | decide
    | with_reducible apply Only.ite
    | with_reducible apply Only.dite
    | with_reducible apply Only.after (rcpEnd_only _ _ _ _)
    | with_reducible apply Only.after (writeBootConfig_only _ _ _ _)
    | intro _
    | split
    | dsimp only

theorem rcpReload_only (src : Source) (ok : Bool) (s : State) :
    Only [.rcp, .evr] s (rcpReload src ok s) := by
  unfold rcpReload
  repeat' first
    | with_reducible exact Only.refl _ _
    | decide
    | with_reducible apply Only.ite
    | with_reducible apply Only.dite
    | with_reducible apply Only.after (rcpEnd_only _ _ _ _)
    | with_reducible apply Only.after (shadowLoad_only _ _)
    | intro _
    | split
    | dsimp only

theorem rcpBadOp_only (src : Source) (op : Nat) (s : State) :
    Only [.rcp, .evr] s (rcpBadOp src op s) := by
  unfold rcpBadOp
  repeat' first
    | with_reducible exact Only.refl _ _
    | decide
    | with_reducible apply Only.ite
    | with_reducible apply Only.dite
    | with_reducible apply Only.after (rcpEnd_only _ _ _ _)
    | intro _
    | split
    | dsimp only

theorem rcpAnswered_only (src : Source) (op : Nat) (t s : State) :
    Only [.drawn, .rcp, .evr, .can] t (rcpAnswered src op t s) := by
  unfold rcpAnswered
  repeat' first
    | with_reducible exact Only.refl _ _
    | decide
    | with_reducible apply Only.ite
    | with_reducible apply Only.dite
    | with_reducible apply Only.after (State.setRcp_only _ _)
    | with_reducible apply Only.after (rcpRsp_only _ _)
    | intro _
    | split
    | dsimp only

theorem rcpRow_only {l : List Part} {s : State} (src : Source) (op : Nat) (act : State → State) (t : State) (h : ∀ u, Only l u (act u))
    (k : Part.sub [.drawn, .rcp, .evr, .can] l = true) (g : Only l s t) : Only l s (rcpRow src op act t) := by
  unfold rcpRow
  repeat' first
    | assumption
    | with_reducible exact Only.refl _ _
    | with_reducible apply Only.after (h _)
    | with_reducible apply Only.after (h _ _)
    | exact Part.sub_refl _
    | with_reducible apply Only.ite
    | with_reducible apply Only.dite
    | with_reducible apply Only.after (rcpAnswered_only _ _ _ _) (Part.sub_trans (by decide) k)
    | intro _
    | split
    | dsimp only

theorem rcpCmd_only (src : Source) (v : Word) (s : State) :
    Only [.drawn, .rcp, .evr, .imz] s (rcpCmd src v s) := by
  unfold rcpCmd
  repeat' first
    | with_reducible exact Only.refl _ _
    | decide
    | with_reducible apply Only.ite
    | with_reducible apply Only.dite
    | with_reducible apply Only.after (rcpOpen_only _ _ _)
    | with_reducible apply Only.after (State.drew_only _)
    | with_reducible apply Only.after (rcpWriteBlock_only _ _ _ _ _)
    | with_reducible apply Only.after (rcpVerify_only _ _)
    | with_reducible apply Only.after (rcpClose_only _ _)
    | with_reducible apply Only.after (rcpSwap_only _ _ _ _)
    | with_reducible apply Only.after (rcpSetActive_only _ _ _)
    | with_reducible apply Only.after (rcpReload_only _ _ _)
    | with_reducible apply Only.after (rcpBadOp_only _ _ _)
    | intro _
    | split
    | dsimp only

theorem bufWrite_only (src : Source) (w : BitVec 10) (v : Word) (s : State) :
    Only [.sys, .rcp] s (bufWrite src w v s).2 := by
  unfold bufWrite
  repeat' first
    | with_reducible exact Only.refl _ _
    | decide
    | with_reducible apply Only.ite
    | with_reducible apply Only.dite
    | with_reducible apply Only.iteSnd
    | with_reducible apply Only.after (logWerr_only _ _ _ _)
    | with_reducible apply Only.after (State.setRcp_only _ _)
    | intro _
    | split
    | dsimp only

theorem chunkWrite_only (src : Source) (chunk : BitVec 7) (bytes : List Byte) (s : State) :
    Only [.sys, .rcp, .imz] s (chunkWrite src chunk bytes s) := by
  unfold chunkWrite
  repeat' first
    | with_reducible exact Only.refl _ _
    | decide
    | with_reducible apply Only.ite
    | with_reducible apply Only.dite
    | with_reducible apply Only.after (logWerr_only _ _ _ _)
    | with_reducible apply Only.after (State.setRcp_only _ _)
    | with_reducible apply Only.after (State.setImz_only _ _)
    | intro _
    | split
    | dsimp only

theorem execRcpOpen_only (src : Source) (ok : Bool) (s : State) :
    ∃ t', execRcpOpen src ok s = .next t' ∧ Only [.drawn, .rcp, .evr, .can] s t' := by
  refine ⟨_, rfl, ?_⟩
  repeat' first
    | with_reducible exact Only.refl _ _
    | decide
    | with_reducible apply Only.ite
    | with_reducible apply Only.dite
    | with_reducible apply rcpRow_only
    | with_reducible apply Only.after (rcpOpen_only _ _ _)
    | intro _
    | split
    | dsimp only

theorem execRcpWriteBlock_only (src : Source) (n : Half) (ok : Bool) (s : State) :
    ∃ t', execRcpWriteBlock src n ok s = .next t' ∧ Only [.drawn, .rcp, .evr, .can, .imz] s t' := by
  refine ⟨_, rfl, ?_⟩
  repeat' first
    | with_reducible exact Only.refl _ _
    | decide
    | with_reducible apply Only.ite
    | with_reducible apply Only.dite
    | with_reducible apply rcpRow_only
    | with_reducible apply Only.after (rcpWriteBlock_only _ _ _ _ _)
    | intro _
    | split
    | dsimp only

theorem execRcpVerify_only (src : Source) (s : State) :
    ∃ t', execRcpVerify src s = .next t' ∧ Only [.drawn, .rcp, .evr, .can] s t' := by
  refine ⟨_, rfl, ?_⟩
  repeat' first
    | with_reducible exact Only.refl _ _
    | decide
    | with_reducible apply Only.ite
    | with_reducible apply Only.dite
    | with_reducible apply rcpRow_only
    | with_reducible apply Only.after (rcpVerify_only _ _)
    | intro _
    | split
    | dsimp only

theorem execRcpVerifyDone_only (fail : Option Half) (p : PartnerAnswer) (s : State) :
    ∃ t', execRcpVerifyDone fail p s = .next t' ∧ Only [.drawn, .sys, .fab, .sup, .rcp, .evr, .hp, .ui, .uiBlk, .ao, .aoBlk, .dio, .dioBlk, .ps, .psBlk, .can, .pev, .ann, .grp, .call, .imz, .tim, .lvn, .recd, .mmc, .pnl, .rnd, .age, .tst] s t' := by
  refine ⟨_, rfl, ?_⟩
  repeat' first
    | with_reducible exact Only.refl _ _
    | decide
    | with_reducible apply Only.ite
    | with_reducible apply Only.dite
    | with_reducible apply Only.after (verifyResult_only _ _ _)
    | intro _
    | split
    | dsimp only

theorem execRcpClose_only (src : Source) (s : State) :
    ∃ t', execRcpClose src s = .next t' ∧ Only [.drawn, .rcp, .evr, .can] s t' := by
  refine ⟨_, rfl, ?_⟩
  repeat' first
    | with_reducible exact Only.refl _ _
    | decide
    | with_reducible apply Only.ite
    | with_reducible apply Only.dite
    | with_reducible apply rcpRow_only
    | with_reducible apply Only.after (rcpClose_only _ _)
    | intro _
    | split
    | dsimp only

theorem execRcpSwap_only (src : Source) (key : Byte) (same : Bool) (s : State) :
    ∃ t', execRcpSwap src key same s = .next t' ∧ Only [.drawn, .rcp, .evr, .can] s t' := by
  refine ⟨_, rfl, ?_⟩
  repeat' first
    | with_reducible exact Only.refl _ _
    | decide
    | with_reducible apply Only.ite
    | with_reducible apply Only.dite
    | with_reducible apply rcpRow_only
    | with_reducible apply Only.after (rcpSwap_only _ _ _ _)
    | intro _
    | split
    | dsimp only

theorem execRcpSetActive_only (src : Source) (key : Byte) (ok : Bool) (s : State) :
    ∃ t', execRcpSetActive src key ok s = .next t' ∧ Only [.drawn, .rcp, .evr, .can] s t' := by
  refine ⟨_, rfl, ?_⟩
  repeat' first
    | with_reducible exact Only.refl _ _
    | decide
    | with_reducible apply Only.ite
    | with_reducible apply Only.dite
    | with_reducible apply rcpRow_only
    | with_reducible apply Only.after (rcpSetActive_only _ _ _)
    | intro _
    | split
    | dsimp only

theorem execRcpReloadShadow_only (src : Source) (ok : Bool) (s : State) :
    ∃ t', execRcpReloadShadow src ok s = .next t' ∧ Only [.drawn, .rcp, .evr, .can] s t' := by
  refine ⟨_, rfl, ?_⟩
  repeat' first
    | with_reducible exact Only.refl _ _
    | decide
    | with_reducible apply Only.ite
    | with_reducible apply Only.dite
    | with_reducible apply rcpRow_only
    | with_reducible apply Only.after (rcpReload_only _ _ _)
    | intro _
    | split
    | dsimp only

theorem execRcpBadOp_only (src : Source) (op : Byte) (s : State) :
    ∃ t', execRcpBadOp src op s = .next t' ∧ Only [.drawn, .rcp, .evr, .can] s t' := by
  refine ⟨_, rfl, ?_⟩
  repeat' first
    | with_reducible exact Only.refl _ _
    | decide
    | with_reducible apply Only.ite
    | with_reducible apply Only.dite
    | with_reducible apply rcpRow_only
    | with_reducible apply Only.after (rcpBadOp_only _ _ _)
    | intro _
    | split
    | dsimp only

theorem execRcpBufWrite_only (src : Source) (w : BitVec 10) (v : Word) (s : State) :
    ∃ t', execRcpBufWrite src w v s = .next t' ∧ Only [.sys, .rcp] s t' := by
  refine ⟨_, rfl, ?_⟩
  repeat' first
    | with_reducible exact Only.refl _ _
    | decide
    | with_reducible apply Only.ite
    | with_reducible apply Only.dite
    | with_reducible apply Only.after (bufWrite_only _ _ _ _)
    | intro _
    | split
    | dsimp only

theorem execRcpXferData_only (src : Half) (chunk : BitVec 7) (bytes : List Byte) (s : State) :
    ∃ t', execRcpXferData src chunk bytes s = .next t' ∧ Only [.sys, .rcp, .imz] s t' := by
  refine ⟨_, rfl, ?_⟩
  repeat' first
    | with_reducible exact Only.refl _ _
    | decide
    | with_reducible apply Only.ite
    | with_reducible apply Only.dite
    | with_reducible apply Only.after (chunkWrite_only _ _ _ _)
    | intro _
    | split
    | dsimp only

theorem execRcpOwnerTimeout_only (s : State) :
    ∃ t', execRcpOwnerTimeout s = .next t' ∧ Only [.rcp] s t' := by
  refine ⟨_, rfl, ?_⟩
  repeat' first
    | with_reducible exact Only.refl _ _
    | decide
    | with_reducible apply Only.ite
    | with_reducible apply Only.dite
    | with_reducible apply Only.after (rcpDropWrite_only _)
    | intro _
    | split
    | dsimp only

theorem execSwapAbort_only (s : State) :
    ∃ t', execSwapAbort s = .next t' ∧ Only [.drawn, .rcp, .evr, .can] s t' := by
  refine ⟨_, rfl, ?_⟩
  repeat' first
    | with_reducible exact Only.refl _ _
    | decide
    | with_reducible apply Only.ite
    | with_reducible apply Only.dite
    | with_reducible apply Only.after (swapAbort_only _)
    | intro _
    | split
    | dsimp only

theorem sectionReload_only (sec : Nat) (s : State) :
    Only [.sys, .rcp] s (sectionReload sec s) := by
  unfold sectionReload
  repeat' first
    | with_reducible exact Only.refl _ _
    | decide
    | with_reducible apply Only.ite
    | with_reducible apply Only.dite
    | with_reducible apply Only.after (State.setRcp_only _ _)
    | with_reducible apply Only.set_sys
    | intro _
    | split
    | dsimp only

theorem execRecipeSectionReloadDone_only (sec : Byte) (s : State) :
    ∃ t', execRecipeSectionReloadDone sec s = .next t' ∧ Only [.sys, .rcp] s t' := by
  refine ⟨_, rfl, ?_⟩
  repeat' first
    | with_reducible exact Only.refl _ _
    | decide
    | with_reducible apply Only.ite
    | with_reducible apply Only.dite
    | with_reducible apply Only.after (sectionReload_only _ _)
    | intro _
    | split
    | dsimp only

end Sys2Proof.Machine
end

