-- ==== Sys2Proof/Laws/FrameSwap.lean ====
section
/-! SUPPORT. Swap: the parts of the state that each operation of Machine/Swap may change. -/
namespace Sys2Proof.Machine

open Sys2Proof

theorem swapLeave_only (new : Memory) (s : State) (n : Fin 80) :
    Only [.evr, .can, .pev, .ann, .call, .imz, .recd, .mmc] s (swapLeave new s n) := by
  unfold swapLeave
  repeat' first
    | with_reducible exact Only.refl _ _
    | decide
    | with_reducible apply Only.ite
    | with_reducible apply Only.dite
    | with_reducible apply Only.after (sliceShort_only _ _)
    | with_reducible apply Only.after (annRemove_only _ _)
    | with_reducible apply Only.after (State.setCall_only _ _)
    | with_reducible apply Only.after (State.setPt_only _ _ _)
    | intro _
    | split
    | dsimp only

theorem swapAo_only (old : Memory) (s : State) (c : Fin 4) :
    Only [.ao] s (swapAo old s c) := by
  unfold swapAo
  repeat' first
    | with_reducible exact Only.refl _ _
    | decide
    | with_reducible apply Only.ite
    | with_reducible apply Only.dite
    | with_reducible apply Only.after (aoSwap_only _ _)
    | with_reducible apply Only.after (State.setAo_only _ _ _)
    | intro _
    | split
    | dsimp only

theorem swapDio_only (old : Memory) (s : State) (c : Fin 16) :
    Only [.dio] s (swapDio old s c) := by
  unfold swapDio
  repeat' first
    | with_reducible exact Only.refl _ _
    | decide
    | with_reducible apply Only.ite
    | with_reducible apply Only.dite
    | with_reducible apply Only.after (dioSwap_only _ _)
    | with_reducible apply Only.after (State.setDio_only _ _ _)
    | intro _
    | split
    | dsimp only

theorem swapCells_only (old : Memory) (s : State) :
    Only [.ui, .ao, .dio, .ps] s (swapCells old s) := by
  unfold swapCells
  repeat' first
    | with_reducible exact Only.refl _ _
    | decide
    | with_reducible apply Only.ite
    | with_reducible apply Only.dite
    | with_reducible apply Only.foldl
    | with_reducible apply Only.after (uiSwap_only _ _)
    | with_reducible apply Only.after (swapAo_only _ _ _)
    | with_reducible apply Only.after (swapDio_only _ _ _)
    | with_reducible apply Only.after (psSwap_only _ _)
    | intro _
    | split
    | dsimp only

theorem swapEvr_only (s : State) :
    Only [.sys, .evr, .hp] s (swapEvr s) := by
  unfold swapEvr
  repeat' first
    | with_reducible exact Only.refl _ _
    | decide
    | with_reducible apply Only.ite
    | with_reducible apply Only.dite
    | with_reducible apply Only.foldl
    | with_reducible apply Only.after (evrEnable_only _ _ _)
    | with_reducible apply Only.after (evrEnClr_only _ _ _)
    | with_reducible apply Only.after (evrTargetChange_only _ _ _)
    | with_reducible apply Only.after (evrLoad_only _)
    | intro _
    | split
    | dsimp only

theorem swapNet_only (old : Memory) (s : State) :
    Only [.can, .imz] s (swapNet old s) := by
  unfold swapNet
  repeat' first
    | with_reducible exact Only.refl _ _
    | decide
    | with_reducible apply Only.ite
    | with_reducible apply Only.dite
    | with_reducible apply Only.foldl
    | with_reducible apply Only.after (netLoad_only _)
    | with_reducible apply Only.after (State.setImz_only _ _)
    | intro _
    | split
    | dsimp only

theorem swapGroups_only (old : Memory) (s : State) :
    Only [.grp] s (swapGroups old s) := by
  unfold swapGroups
  repeat' first
    | with_reducible exact Only.refl _ _
    | decide
    | with_reducible apply Only.ite
    | with_reducible apply Only.dite
    | with_reducible apply Only.foldl
    | with_reducible apply Only.after (State.setGrps_only _ _)
    | intro _
    | split
    | dsimp only

theorem swapRec_only (s : State) :
    Only [.recd] s (swapRec s) := by
  unfold swapRec
  repeat' first
    | with_reducible exact Only.refl _ _
    | decide
    | with_reducible apply Only.ite
    | with_reducible apply Only.dite
    | with_reducible apply Only.after (State.setRec_only _ _)
    | intro _
    | split
    | dsimp only

theorem swapPanel_only (had : Bool) (s : State) :
    Only [.drawn, .sys, .evr, .pnl, .rnd] s (swapPanel had s) := by
  unfold swapPanel
  repeat' first
    | with_reducible exact Only.refl _ _
    | decide
    | with_reducible apply Only.ite
    | with_reducible apply Only.dite
    | with_reducible apply Only.after (rndFull_only _)
    | with_reducible apply Only.after (pnlLoad_only _)
    | with_reducible apply Only.after (pnlCut_only _)
    | intro _
    | split
    | dsimp only

theorem bankChange_only (s : State) :
    Only [.drawn, .rcp] s (bankChange s) := by
  unfold bankChange
  repeat' first
    | with_reducible exact Only.refl _ _
    | decide
    | with_reducible apply Only.ite
    | with_reducible apply Only.dite
    | with_reducible apply Only.after (State.drew_only _)
    | with_reducible apply Only.after (State.setRcp_only _ _)
    | intro _
    | split
    | dsimp only

theorem swapNow_only (s : State) :
    Only [.drawn, .sys, .rcp, .evr, .hp, .ui, .ao, .dio, .ps, .can, .pev, .ann, .grp, .call, .imz, .recd, .mmc, .pnl, .rnd, .age] s (swapNow s) := by
  unfold swapNow
  repeat' first
    | with_reducible exact Only.refl _ _
    | decide
    | with_reducible apply Only.ite
    | with_reducible apply Only.dite
    | with_reducible apply Only.foldl
    | with_reducible apply Only.after (swapLeave_only _ _ _)
    | with_reducible apply Only.after (bankChange_only _)
    | with_reducible apply noted_only
    | with_reducible apply Only.after (swapCells_only _ _)
    | with_reducible apply Only.after (swapGroups_only _ _)
    | with_reducible apply Only.after (callSwap_only _)
    | with_reducible apply Only.after (swapRec_only _)
    | with_reducible apply Only.after (swapNet_only _ _)
    | with_reducible apply Only.after (swapEvr_only _)
    | with_reducible apply Only.after (ageBounds_only _)
    | with_reducible apply Only.after (dozeSync_only _)
    | with_reducible apply Only.after (swapFinish_only _ _)
    | with_reducible apply Only.after (settingsSync_only _ _)
    | with_reducible apply Only.after (swapPanel_only _ _)
    | with_reducible apply Only.set_pev
    | with_reducible apply Only.set_sys
    | intro _
    | split
    | dsimp only

theorem execSwapBoundary_only (s : State) :
    ∃ t', execSwapBoundary s = .next t' ∧ Only [.drawn, .sys, .rcp, .evr, .hp, .ui, .ao, .dio, .ps, .can, .pev, .ann, .grp, .call, .imz, .recd, .mmc, .pnl, .rnd, .age] s t' := by
  refine ⟨_, rfl, ?_⟩
  repeat' first
    | with_reducible exact Only.refl _ _
    | decide
    | with_reducible apply Only.ite
    | with_reducible apply Only.dite
    | with_reducible apply Only.after (swapNow_only _)
    | intro _
    | split
    | dsimp only

end Sys2Proof.Machine
end

