-- ==== Sys2Proof/Laws/FrameCanRx.lean ====
section
/-! SUPPORT. CanRx: the parts of the state that each operation of Machine/CanRx may change. -/
namespace Sys2Proof.Machine

open Sys2Proof

theorem strangerSeen_only (node : Half) (s : State) :
    Only [.evr, .imz] s (strangerSeen node s) := by
  unfold strangerSeen
  repeat' first
    | with_reducible exact Only.refl _ _
    | decide
    | with_reducible apply Only.ite
    | with_reducible apply Only.dite
    | with_reducible apply Only.after (State.setImz_only _ _)
    | with_reducible apply Only.after (imzEvent_only _ _ _)
    | intro _
    | split
    | dsimp only

theorem seenAdd_only (k : Fin 4) (id : Nat) (d : List Byte) (s : State) :
    Only [.imz] s (seenAdd k id d s) := by
  unfold seenAdd
  repeat' first
    | with_reducible exact Only.refl _ _
    | decide
    | with_reducible apply Only.ite
    | with_reducible apply Only.dite
    | with_reducible apply Only.after (State.setImz_only _ _)
    | intro _
    | split
    | dsimp only

theorem cmdIntake_only (f : ImzRx) (s : State) :
    Only [.evr, .can, .imz] s (cmdIntake f s) := by
  unfold cmdIntake
  repeat' first
    | with_reducible exact Only.refl _ _
    | decide
    | with_reducible apply Only.ite
    | with_reducible apply Only.dite
    | with_reducible apply Only.after (imzRelay_only _ _ _ _)
    | with_reducible apply Only.after (cmdRoute_only _ _)
    | with_reducible apply Only.after (imzReply_only _ _ _ _ _ _)
    | intro _
    | split
    | dsimp only

theorem xferIntake_only (cls typ : Nat) (f : ImzRx) (s : State) :
    Only [.drawn, .evr, .can, .imz, .recd] s (xferIntake cls typ f s) := by
  unfold xferIntake
  repeat' first
    | with_reducible exact Only.refl _ _
    | decide
    | with_reducible apply Only.ite
    | with_reducible apply Only.dite
    | with_reducible apply Only.after (imzRelay_only _ _ _ _)
    | with_reducible apply Only.after (imzRoute_only _ _ _ _ _)
    | with_reducible apply Only.after (xferRequest_only _ _)
    | intro _
    | split
    | dsimp only

theorem standbyIntake_only (typ : Nat) (f : ImzRx) (s : State) :
    Only [.lvn] s (standbyIntake typ f s) := by
  unfold standbyIntake
  repeat' first
    | with_reducible exact Only.refl _ _
    | decide
    | with_reducible apply Only.ite
    | with_reducible apply Only.dite
    | with_reducible apply Only.after (lvLog_only _ _)
    | intro _
    | split
    | dsimp only

theorem imzDone_only (k : Fin 4) (s : State) :
    Only [.can] s (imzDone k s) := by
  unfold imzDone
  repeat' first
    | with_reducible exact Only.refl _ _
    | decide
    | with_reducible apply Only.ite
    | with_reducible apply Only.dite
    | with_reducible apply Only.after (State.setCan_only _ _ _)
    | intro _
    | split
    | dsimp only

theorem imzAccept_only (k : Fin 4) (typ : Nat) (f : ImzRx) (s : State) :
    Only [.drawn, .evr, .can, .call, .imz, .lvn, .recd] s (imzAccept k typ f s) := by
  unfold imzAccept
  repeat' first
    | with_reducible exact Only.refl _ _
    | decide
    | with_reducible apply Only.ite
    | with_reducible apply Only.dite
    | with_reducible apply Only.after (standbyIntake_only _ _ _)
    | with_reducible apply Only.after (imzDone_only _ _)
    | with_reducible apply Only.after (unitSeen_only _ _)
    | with_reducible apply Only.after (memberSeen_only _ _)
    | with_reducible apply Only.after (cmdIntake_only _ _)
    | with_reducible apply Only.after (xferIntake_only _ _ _ _)
    | intro _
    | split
    | dsimp only

theorem imzIntake_only (k : Fin 4) (c : CanFrame) (age : Nat) (s : State) :
    Only [.drawn, .evr, .can, .call, .imz, .lvn, .recd] s (imzIntake k c age s) := by
  unfold imzIntake
  repeat' first
    | with_reducible exact Only.refl _ _
    | decide
    | with_reducible apply Only.ite
    | with_reducible apply Only.dite
    | with_reducible apply Only.after (imzDone_only _ _)
    | with_reducible apply Only.after (State.setImz_only _ _)
    | with_reducible apply Only.after (strangerSeen_only _ _)
    | with_reducible apply Only.after (imzAccept_only _ _ _ _)
    | with_reducible apply Only.after (seenAdd_only _ _ _ _)
    | intro _
    | split
    | dsimp only

theorem bareFrame_only (k : Fin 4) (s : State) :
    Only [.sys, .rcp, .evr, .can] s (bareFrame k s) := by
  unfold bareFrame
  repeat' first
    | with_reducible exact Only.refl _ _
    | decide
    | with_reducible apply Only.ite
    | with_reducible apply Only.dite
    | with_reducible apply Only.after (bareRatesFound_only _)
    | with_reducible apply Only.after (State.setRcp_only _ _)
    | intro _
    | split
    | dsimp only

theorem canReceive_only (k : Fin 4) (f : CanFrame) (age : Nat) (parity : Bool) (s : State) :
    Only [.drawn, .sys, .rcp, .evr, .can, .call, .imz, .lvn, .recd] s (canReceive k f age parity s) := by
  unfold canReceive
  repeat' first
    | with_reducible exact Only.refl _ _
    | decide
    | with_reducible apply Only.ite
    | with_reducible apply Only.dite
    | with_reducible apply Only.after (bareFrame_only _ _)
    | with_reducible apply Only.after (canRecDown_only _ _)
    | with_reducible apply Only.after (canAloneEnd_only _ _)
    | with_reducible apply Only.after (State.setCan_only _ _ _)
    | with_reducible apply Only.after (imzIntake_only _ _ _ _)
    | with_reducible apply Only.after (canStore_only _ _ _ _ _)
    | intro _
    | split
    | dsimp only

theorem execCanFrameReceived_only (k : Fin 4) (f : CanFrame) (age : Nat) (parity : Bool) (s : State) :
    ∃ t', execCanFrameReceived k f age parity s = .next t' ∧ Only [.drawn, .sys, .rcp, .evr, .can, .call, .imz, .lvn, .recd] s t' := by
  refine ⟨_, rfl, ?_⟩
  repeat' first
    | with_reducible exact Only.refl _ _
    | decide
    | with_reducible apply Only.ite
    | with_reducible apply Only.dite
    | with_reducible apply Only.after (canReceive_only _ _ _ _ _)
    | intro _
    | split
    | dsimp only

theorem bareErrorOn_only (k : Fin 4) (s : State) :
    Only [.sys, .rcp, .evr, .can] s (bareErrorOn k s) := by
  unfold bareErrorOn
  repeat' first
    | with_reducible exact Only.refl _ _
    | decide
    | with_reducible apply Only.ite
    | with_reducible apply Only.dite
    | with_reducible apply Only.after (bareError_only _ _)
    | intro _
    | split
    | dsimp only

theorem canException_only (k : Fin 4) (s : State) :
    Only [.evr, .can] s (canException k s) := by
  unfold canException
  repeat' first
    | with_reducible exact Only.refl _ _
    | decide
    | with_reducible apply Only.ite
    | with_reducible apply Only.dite
    | with_reducible apply Only.after (canState_only _ _)
    | with_reducible apply Only.after (State.setCan_only _ _ _)
    | intro _
    | split
    | dsimp only

theorem canErrored_only (k : Fin 4) (field type : BitVec 4) (tx heavy : Bool) (ident : BitVec 29) (s : State) :
    Only [.sys, .rcp, .evr, .can, .imz] s (canErrored k field type tx heavy ident s) := by
  unfold canErrored
  repeat' first
    | with_reducible exact Only.refl _ _
    | decide
    | with_reducible apply Only.ite
    | with_reducible apply Only.dite
    | with_reducible apply Only.after (State.setCan_only _ _ _)
    | with_reducible apply Only.after (canCount_only _ _ _ _ _)
    | with_reducible apply Only.after (bareErrorOn_only _ _)
    | with_reducible apply Only.after (imzDataError_only _)
    | intro _
    | split
    | dsimp only

theorem execCanError_only (k : Fin 4) (field type : BitVec 4) (tx heavy : Bool) (ident : BitVec 29) (s : State) :
    ∃ t', execCanError k field type tx heavy ident s = .next t' ∧ Only [.sys, .rcp, .evr, .can, .imz] s t' := by
  refine ⟨_, rfl, ?_⟩
  repeat' first
    | with_reducible exact Only.refl _ _
    | decide
    | with_reducible apply Only.ite
    | with_reducible apply Only.dite
    | with_reducible apply Only.after (canErrored_only _ _ _ _ _ _ _)
    | with_reducible apply Only.after (canException_only _ _)
    | intro _
    | split
    | dsimp only

theorem execCanDominantTimeout_only (k : Fin 4) (s : State) :
    ∃ t', execCanDominantTimeout k s = .next t' ∧ Only [.drawn, .sys, .fab, .rcp, .evr, .ui, .uiBlk, .ao, .aoBlk, .dio, .dioBlk, .ps, .psBlk, .can, .pev, .ann, .call, .imz, .tim, .lvn, .mmc, .pnl, .rnd] s t' := by
  refine ⟨_, rfl, ?_⟩
  repeat' first
    | with_reducible exact Only.refl _ _
    | decide
    | with_reducible apply Only.ite
    | with_reducible apply Only.dite
    | with_reducible apply Only.after (cellFault_only _ _ _ _)
    | with_reducible apply Only.after (canEvent_only _ _ _ _)
    | with_reducible apply Only.after (canSetMode_only _ _ _)
    | with_reducible apply Only.after (State.drew_only _)
    | intro _
    | split
    | dsimp only

end Sys2Proof.Machine
end

