-- ==== Sys2Proof/Laws/FrameButtons.lean ====
section
/-! SUPPORT. Buttons: the parts of the state that each operation of Machine/Buttons may change. -/
namespace Sys2Proof.Machine

open Sys2Proof

theorem ackButton_only (c : Fin 16) (s : State) :
    Only [.evr, .ann, .lvn] s (ackButton c s) := by
  unfold ackButton
  repeat' first
    | with_reducible exact Only.refl _ _
    | decide
    | with_reducible apply Only.ite
    | with_reducible apply Only.dite
    | with_reducible apply Only.after (annSubmit_only _ _)
    | with_reducible apply Only.after (buttonRefused_only _ _ _)
    | intro _
    | split
    | dsimp only

theorem buttonAct_only (c : Fin 16) (s : State) :
    Only [.evr, .can, .ann, .call, .imz, .lvn] s (buttonAct c s) := by
  unfold buttonAct
  repeat' first
    | with_reducible exact Only.refl _ _
    | decide
    | with_reducible apply Only.ite
    | with_reducible apply Only.dite
    | with_reducible apply Only.after (ackButton_only _ _)
    | with_reducible apply Only.after (dutySelect_only _ _ _ _ _)
    | intro _
    | split
    | dsimp only

theorem inputTransition_only (c : Fin 16) (level : Bool) (t : Ts) (s : State) :
    Only [.evr, .dio, .can, .ann, .call, .imz, .lvn] s (inputTransition c level t s) := by
  unfold inputTransition
  repeat' first
    | with_reducible exact Only.refl _ _
    | decide
    | with_reducible apply Only.ite
    | with_reducible apply Only.dite
    | with_reducible apply Only.after (dioTransition_only _ _ _ _)
    | with_reducible apply Only.after (buttonAct_only _ _)
    | intro _
    | split
    | dsimp only

theorem execDioInputTransition_only (c : Fin 16) (level : Bool) (at' : Ts) (s : State) :
    ∃ t', execDioInputTransition c level at' s = .next t' ∧ Only [.evr, .dio, .can, .ann, .call, .imz, .lvn] s t' := by
  refine ⟨_, rfl, ?_⟩
  repeat' first
    | with_reducible exact Only.refl _ _
    | decide
    | with_reducible apply Only.ite
    | with_reducible apply Only.dite
    | with_reducible apply Only.after (inputTransition_only _ _ _ _)
    | intro _
    | split
    | dsimp only

end Sys2Proof.Machine
end

