-- ==== Sys2Proof/Laws/FrameBus.lean ====
section
/-! SUPPORT. Bus: the parts of the state that each operation of Machine/Bus may change. -/
namespace Sys2Proof.Machine

open Sys2Proof

theorem clearHostCounts_only (h : Fin 2) (s : State) :
    Only [.evr] s (clearHostCounts h s) := by
  unfold clearHostCounts
  repeat' first
    | with_reducible exact Only.refl _ _
    | decide
    | with_reducible apply Only.ite
    | with_reducible apply Only.dite
    | with_reducible apply Only.set_evr
    | intro _
    | split
    | dsimp only

theorem clearPortCounts_only (h : Fin 2) (s : State) :
    Only [.hp] s (clearPortCounts h s) := by
  unfold clearPortCounts
  repeat' first
    | with_reducible exact Only.refl _ _
    | decide
    | with_reducible apply Only.ite
    | with_reducible apply Only.dite
    | with_reducible apply Only.set_hp
    | intro _
    | split
    | dsimp only

theorem clearCan_only (k : Fin 4) (off : Nat) (s : State) :
    Only [.can] s (clearCan k off s) := by
  unfold clearCan
  repeat' first
    | with_reducible exact Only.refl _ _
    | decide
    | with_reducible apply Only.ite
    | with_reducible apply Only.dite
    | with_reducible apply Only.after (State.setCan_only _ _ _)
    | intro _
    | split
    | dsimp only

theorem rcClear_only (a : Nat) (s : State) :
    Only [.sys, .evr, .hp, .can, .pev, .ann, .grp, .call, .imz, .tim, .lvn, .recd, .mmc, .pnl, .age] s (rcClear a s) := by
  unfold rcClear
  split
  all_goals first
    | exact Only.set_sys (Only.refl _ _) (by decide)
    | exact Only.set_pev (Only.refl _ _) (by decide)
    | exact (clearPortCounts_only _ _).mono (by decide)
    | exact (clearHostCounts_only _ _).mono (by decide)
    | exact (State.setAge_only _ _).mono (by decide)
    | exact (State.setAnn_only _ _).mono (by decide)
    | exact (State.setGrps_only _ _).mono (by decide)
    | exact (State.setCall_only _ _).mono (by decide)
    | exact (State.setImz_only _ _).mono (by decide)
    | exact (State.setTim_only _ _).mono (by decide)
    | exact (State.setLvn_only _ _).mono (by decide)
    | exact (State.setRec_only _ _).mono (by decide)
    | exact (State.setMmc_only _ _).mono (by decide)
    | exact (State.setPnl_only _ _).mono (by decide)
    | exact Only.dite (fun _ => (clearCan_only _ _ _).mono (by decide)) (fun _ => Only.refl _ _)

theorem latchHi_only (a : Nat) (s : State) :
    Only [.sys] s (latchHi a s) := by
  unfold latchHi
  repeat' first
    | with_reducible exact Only.refl _ _
    | decide
    | with_reducible apply Only.ite
    | with_reducible apply Only.dite
    | with_reducible apply Only.set_sys
    | intro _
    | split
    | dsimp only

theorem busFetch_only (a : Nat) (s : State) :
    Only [.sys, .evr, .hp, .can, .pev, .ann, .grp, .call, .imz, .tim, .lvn, .recd, .mmc, .pnl, .age] s (busFetch a s).2.2 := by
  unfold busFetch
  repeat' first
    | with_reducible exact Only.refl _ _
    | decide
    | with_reducible apply Only.ite
    | with_reducible apply Only.dite
    | with_reducible apply Only.iteSnd2
    | with_reducible apply Only.after (clearIdle_only _ _)
    | with_reducible apply Only.after (evrClaim_only _ _)
    | with_reducible apply Only.after (latchHi_only _ _)
    | with_reducible apply Only.after (rcClear_only _ _)
    | intro _
    | split
    | dsimp only

theorem commandReset_only (s : State) (r : Fin 5) :
    Only [.drawn, .sys, .fab, .rcp, .evr, .ui, .uiBlk, .ao, .aoBlk, .dio, .dioBlk, .ps, .psBlk, .can, .pev, .ann, .call, .tim, .lvn, .mmc, .pnl, .rnd] s (commandReset s r) := by
  unfold commandReset
  repeat' first
    | with_reducible exact Only.refl _ _
    | decide
    | with_reducible apply Only.ite
    | with_reducible apply Only.dite
    | with_reducible apply Only.after (regionReset_only _ _ _ _ _)
    | intro _
    | split
    | dsimp only

theorem holdRegion_only (mask : BitVec 5) (s : State) (r : Fin 5) :
    Only [.drawn, .sys, .fab, .rcp, .evr, .ui, .uiBlk, .ao, .aoBlk, .dio, .dioBlk, .ps, .psBlk, .can, .pev, .ann, .call, .tim, .lvn, .mmc, .pnl, .rnd] s (holdRegion mask s r) := by
  unfold holdRegion
  repeat' first
    | with_reducible exact Only.refl _ _
    | decide
    | with_reducible apply Only.ite
    | with_reducible apply Only.dite
    | with_reducible apply Only.after (State.setRegion_only _ _ _)
    | with_reducible apply Only.after (commandReset_only _ _)
    | intro _
    | split
    | dsimp only

theorem rgnRst_only (src : Source) (hold reset : BitVec 5) (s : State) :
    Only [.drawn, .sys, .fab, .rcp, .evr, .ui, .uiBlk, .ao, .aoBlk, .dio, .dioBlk, .ps, .psBlk, .can, .pev, .ann, .call, .tim, .lvn, .mmc, .pnl, .rnd] s (rgnRst src hold reset s).2 := by
  unfold rgnRst
  repeat' first
    | with_reducible exact Only.refl _ _
    | decide
    | with_reducible apply Only.ite
    | with_reducible apply Only.dite
    | with_reducible apply Only.iteSnd
    | with_reducible apply Only.foldl
    | with_reducible apply Only.after (logWerr_only _ _ _ _)
    | with_reducible apply Only.after (holdRegion_only _ _ _)
    | with_reducible apply Only.after (commandReset_only _ _)
    | intro _
    | split
    | dsimp only

theorem roWrite_only (a : Nat) (s : State) :
    Only [] s (roWrite a s).2 := by
  unfold roWrite
  repeat' first
    | with_reducible exact Only.refl _ _
    | decide
    | with_reducible apply Only.ite
    | with_reducible apply Only.dite
    | with_reducible apply Only.iteSnd
    | intro _
    | split
    | dsimp only

theorem watchWrite_only (src : Source) (i : Fin 16) (v : Word) (s : State) :
    Only [.sys] s (watchWrite src i v s).2 := by
  unfold watchWrite
  repeat' first
    | with_reducible exact Only.refl _ _
    | decide
    | with_reducible apply Only.ite
    | with_reducible apply Only.dite
    | with_reducible apply Only.iteSnd
    | with_reducible apply Only.after (logWerr_only _ _ _ _)
    | with_reducible apply Only.set_sys
    | intro _
    | split
    | dsimp only

theorem pwrWrite_only (src : Source) (v : Word) (s : State) :
    Only [.sys, .evr, .ui, .ao, .dio, .imz, .lvn, .mmc] s (pwrWrite src v s) := by
  unfold pwrWrite
  repeat' first
    | with_reducible exact Only.refl _ _
    | decide
    | with_reducible apply Only.ite
    | with_reducible apply Only.dite
    | with_reducible apply Only.after (dozeEnable_only _ _)
    | with_reducible apply Only.after (dormantAsk_only _ _)
    | with_reducible apply Only.after (wakeCmd_only _)
    | intro _
    | split
    | dsimp only

theorem sysWrite_only (src : Source) (a : Nat) (v : Word) (s : State) :
    Only [.drawn, .sys, .fab, .rcp, .evr, .ui, .uiBlk, .ao, .aoBlk, .dio, .dioBlk, .ps, .psBlk, .can, .pev, .ann, .call, .imz, .tim, .lvn, .mmc, .pnl, .rnd] s (sysWrite src a v s).2 := by
  unfold sysWrite
  split
  · exact (watchWrite_only _ _ _ _).mono (by decide)
  · split
    · exact (rgnRst_only _ _ _ _).mono (by decide)
    · exact (pwrWrite_only _ _ _).mono (by decide)
    · exact Only.ite (Only.set_sys (Only.refl _ _) (by decide)) (Only.refl _ _)
    · exact (roWrite_only _ _).mono (by decide)

theorem idleWrite_only (h : Fin 2) (b : Bool) (s : State) :
    Only [.sys, .hp] s (idleWrite h b s) := by
  unfold idleWrite
  repeat' first
    | with_reducible exact Only.refl _ _
    | decide
    | with_reducible apply Only.ite
    | with_reducible apply Only.dite
    | with_reducible apply Only.after (idleEndsHold_only _ _)
    | with_reducible apply Only.set_hp
    | intro _
    | split
    | dsimp only

theorem hpCtlWrite_only (src : Source) (h : Fin 2) (v : Word) (s : State) :
    Only [.sys, .hp] s (hpCtlWrite src h v s).2 := by
  unfold hpCtlWrite
  repeat' first
    | with_reducible exact Only.refl _ _
    | decide
    | with_reducible apply Only.ite
    | with_reducible apply Only.dite
    | with_reducible apply Only.iteSnd
    | with_reducible apply Only.after (idleWrite_only _ _ _)
    | with_reducible apply Only.after (logWerr_only _ _ _ _)
    | with_reducible apply Only.set_hp
    | intro _
    | split
    | dsimp only

theorem doorbell_only (b : Bool) (payload : Word) (s : State) :
    Only [.evr] s (doorbell b payload s) := by
  unfold doorbell
  repeat' first
    | with_reducible exact Only.refl _ _
    | decide
    | with_reducible apply Only.ite
    | with_reducible apply Only.dite
    | with_reducible apply Only.after (raise_only _ _ _)
    | intro _
    | split
    | dsimp only

theorem hpWrite_only (src : Source) (a : Nat) (v : Word) (s : State) :
    Only [.sys, .evr, .hp] s (hpWrite src a v s).2 := by
  unfold hpWrite
  repeat' first
    | with_reducible exact Only.refl _ _
    | decide
    | with_reducible apply Only.ite
    | with_reducible apply Only.dite
    | with_reducible apply Only.iteSnd
    | with_reducible apply Only.after (hpCtlWrite_only _ _ _ _)
    | with_reducible apply Only.after (doorbell_only _ _ _)
    | with_reducible apply Only.after (roWrite_only _ _)
    | intro _
    | split
    | dsimp only

theorem srcWrite_only (src : Source) (n : Fin 512) (v : Word) (s : State) :
    Only [.sys, .evr] s (srcWrite src n v s).2 := by
  unfold srcWrite
  repeat' first
    | with_reducible exact Only.refl _ _
    | decide
    | with_reducible apply Only.ite
    | with_reducible apply Only.dite
    | with_reducible apply Only.iteSnd
    | with_reducible apply Only.after (evrTargetChange_only _ _ _)
    | with_reducible apply Only.after (logWerr_only _ _ _ _)
    | with_reducible apply Only.set_evr
    | intro _
    | split
    | dsimp only

theorem enSetWrite_only (src : Source) (n : Fin 16) (v : Word) (s : State) :
    Only [.sys, .evr] s (enSetWrite src n v s).2 := by
  unfold enSetWrite
  repeat' first
    | with_reducible exact Only.refl _ _
    | decide
    | with_reducible apply Only.ite
    | with_reducible apply Only.dite
    | with_reducible apply Only.iteSnd
    | with_reducible apply Only.after (evrEnSet_only _ _ _ _)
    | intro _
    | split
    | dsimp only

theorem evrWrite_only (src : Source) (a : Nat) (v : Word) (s : State) :
    Only [.sys, .evr] s (evrWrite src a v s).2 := by
  unfold evrWrite
  extract_lets o
  split
  · exact (srcWrite_only _ _ _ _).mono (by decide)
  · split
    · exact (enSetWrite_only _ _ _ _).mono (by decide)
    · split
      · exact (evrEnClr_only _ _ _).mono (by decide)
      · split
        · exact (evrPndSet_only _ _ _).mono (by decide)
        · split
          · exact (evrPndClr_only _ _ _).mono (by decide)
          · clear_value o
            split
            all_goals try dsimp only
            · exact Only.mono (evrHoldWrite_only _ _) (by decide)
            · exact Only.mono (evrEoi_only _ _) (by decide)
            · exact Only.mono (evrEoi_only _ _) (by decide)
            · exact Only.mono (modWrite_only _ _ _) (by decide)
            · exact Only.mono (modWrite_only _ _ _) (by decide)
            · exact Only.mono (roWrite_only _ _) (by decide)

theorem freeLoop_only {l : List Part} {s : State} (f : Bool → State → State) (t : State) (h : ∀ b u, Only l u (f b u))
    (k : Part.sub [.drawn] l = true) (g : Only l s t) : Only l s (freeLoop f t) := by
  unfold freeLoop
  repeat' first
    | assumption
    | with_reducible exact Only.refl _ _
    | with_reducible apply Only.after (h _)
    | with_reducible apply Only.after (h _ _)
    | exact Part.sub_refl _
    | with_reducible apply Only.ite
    | with_reducible apply Only.dite
    | with_reducible apply Only.after (State.drew_only _) (Part.sub_trans (by decide) k)
    | intro _
    | split
    | dsimp only

theorem onBit_only {l : List Part} {s : State} (v : Word) (i : Nat) (f : State → State) (t : State) (h : ∀ u, Only l u (f u))
    (_ : Part.sub [] l = true) (g : Only l s t) : Only l s (onBit v i f t) := by
  unfold onBit
  repeat' first
    | assumption
    | with_reducible exact Only.refl _ _
    | with_reducible apply Only.after (h _)
    | with_reducible apply Only.after (h _ _)
    | exact Part.sub_refl _
    | with_reducible apply Only.ite
    | with_reducible apply Only.dite
    | intro _
    | split
    | dsimp only

theorem uiCmdWrite_only (src : Source) (c : Fin 16) (v : Word) (s : State) :
    Only [.drawn, .sys, .evr, .ui, .tst] s (uiCmdWrite src c v s) := by
  unfold uiCmdWrite
  repeat' first
    | with_reducible exact Only.refl _ _
    | decide
    | with_reducible apply Only.ite
    | with_reducible apply Only.dite
    | with_reducible apply onBit_only
    | with_reducible apply Only.after (uiCommand_only _ _ _ _)
    | with_reducible apply Only.after (uiNotify_only _ _ _)
    | with_reducible apply Only.after (State.setUi_only _ _ _)
    | with_reducible apply freeLoop_only
    | with_reducible apply Only.after (uiLoop_only _ _ _ _ _)
    | intro _
    | split
    | dsimp only

theorem readmitCells_only {n : Nat} (v : Word) (cell : Fin n → Nat × Nat) (s : State) :
    Only [.sys, .evr, .dio, .dioBlk] s (readmitCells v cell s) := by
  unfold readmitCells
  repeat' first
    | with_reducible exact Only.refl _ _
    | decide
    | with_reducible apply Only.ite
    | with_reducible apply Only.dite
    | with_reducible apply Only.foldl
    | with_reducible apply onBit_only
    | with_reducible apply Only.after (cellReadmit_only _ _ _)
    | intro _
    | split
    | dsimp only

theorem uiWrite_only (src : Source) (c : Fin 16) (a : Nat) (v : Word) (s : State) :
    Only [.drawn, .sys, .evr, .ui, .uiBlk, .dio, .dioBlk, .tst] s (uiWrite src c a v s).2 := by
  unfold uiWrite
  repeat' first
    | with_reducible exact Only.refl _ _
    | decide
    | with_reducible apply Only.ite
    | with_reducible apply Only.dite
    | with_reducible apply Only.iteSnd
    | with_reducible apply Only.after (uiCfgWrite_only _ _ _ _ _)
    | with_reducible apply Only.after (State.setUi_only _ _ _)
    | with_reducible apply Only.after (uiCmdWrite_only _ _ _ _)
    | with_reducible apply Only.after (uiBlkWrite_only _ _)
    | with_reducible apply Only.after (readmitCells_only _ _ _)
    | with_reducible apply Only.after (roWrite_only _ _)
    | intro _
    | split
    | dsimp only

theorem aoCfgWrite_only (src : Source) (c : Fin 4) (i : Fin 5) (v : Word) (s : State) :
    Only [.sys, .ao] s (aoCfgWrite src c i v s).2 := by
  unfold aoCfgWrite
  repeat' first
    | with_reducible exact Only.refl _ _
    | decide
    | with_reducible apply Only.ite
    | with_reducible apply Only.dite
    | with_reducible apply Only.iteSnd
    | with_reducible apply Only.after (logWerr_only _ _ _ _)
    | with_reducible apply Only.after (State.setAo_only _ _ _)
    | intro _
    | split
    | dsimp only

theorem aoCmdWrite_only (src : Source) (c : Fin 4) (v : Word) (s : State) :
    Only [.drawn, .sys, .evr, .ao, .mmc, .age, .tst] s (aoCmdWrite src c v s) := by
  unfold aoCmdWrite
  repeat' first
    | with_reducible exact Only.refl _ _
    | decide
    | with_reducible apply Only.ite
    | with_reducible apply Only.dite
    | with_reducible apply onBit_only
    | with_reducible apply Only.after (aoRestart_only _ _ _)
    | with_reducible apply Only.after (settingsSync_only _ _)
    | with_reducible apply Only.after (aoTrimApply_only _ _ _)
    | with_reducible apply Only.after (aoTrimClear_only _ _ _)
    | with_reducible apply Only.after (aoHartTx_only _ _)
    | with_reducible apply Only.after (aoCrust_only _ _ _)
    | with_reducible apply Only.after (State.drew_only _)
    | intro _
    | split
    | dsimp only

theorem aoWrite_only (src : Source) (c : Fin 4) (a : Nat) (v : Word) (s : State) :
    Only [.drawn, .sys, .evr, .ao, .aoBlk, .dio, .dioBlk, .mmc, .age, .tst] s (aoWrite src c a v s).2 := by
  unfold aoWrite
  repeat' first
    | with_reducible exact Only.refl _ _
    | decide
    | with_reducible apply Only.ite
    | with_reducible apply Only.dite
    | with_reducible apply Only.iteSnd
    | with_reducible apply Only.after (aoCfgWrite_only _ _ _ _ _)
    | with_reducible apply Only.after (State.setAo_only _ _ _)
    | with_reducible apply Only.after (aoCmdWrite_only _ _ _ _)
    | with_reducible apply Only.after (aoBlkWrite_only _ _)
    | with_reducible apply Only.after (readmitCells_only _ _ _)
    | with_reducible apply Only.after (roWrite_only _ _)
    | intro _
    | split
    | dsimp only

theorem dioCfgWrite_only (src : Source) (c : Fin 16) (i : Fin 4) (v : Word) (s : State) :
    Only [.sys, .dio] s (dioCfgWrite src c i v s).2 := by
  unfold dioCfgWrite
  repeat' first
    | with_reducible exact Only.refl _ _
    | decide
    | with_reducible apply Only.ite
    | with_reducible apply Only.dite
    | with_reducible apply Only.iteSnd
    | with_reducible apply Only.after (logWerr_only _ _ _ _)
    | with_reducible apply Only.after (State.setDio_only _ _ _)
    | intro _
    | split
    | dsimp only

theorem dioCmdWrite_only (src : Source) (c : Fin 16) (v : Word) (s : State) :
    Only [.drawn, .sys, .evr, .dio, .dioBlk, .mmc, .age, .tst] s (dioCmdWrite src c v s) := by
  unfold dioCmdWrite
  repeat' first
    | with_reducible exact Only.refl _ _
    | decide
    | with_reducible apply Only.ite
    | with_reducible apply Only.dite
    | with_reducible apply onBit_only
    | with_reducible apply dioCmd_only
    | with_reducible apply Only.after (dioRetry_only _ _)
    | with_reducible apply Only.after (State.setDio_only _ _ _)
    | with_reducible apply Only.after (settingsSync_only _ _)
    | with_reducible apply freeLoop_only
    | with_reducible apply Only.after (dioCrust_only _ _ _)
    | with_reducible apply Only.after (dioLoop_only _ _ _ _)
    | intro _
    | split
    | dsimp only

theorem dioWrite_only (src : Source) (c : Fin 16) (a : Nat) (v : Word) (s : State) :
    Only [.drawn, .sys, .evr, .dio, .dioBlk, .mmc, .age, .tst] s (dioWrite src c a v s).2 := by
  unfold dioWrite
  repeat' first
    | with_reducible exact Only.refl _ _
    | decide
    | with_reducible apply Only.ite
    | with_reducible apply Only.dite
    | with_reducible apply Only.iteSnd
    | with_reducible apply Only.after (dioCfgWrite_only _ _ _ _ _)
    | with_reducible apply Only.after (dioSetWrite_only _ _ _)
    | with_reducible apply Only.after (State.setDio_only _ _ _)
    | with_reducible apply Only.after (dioCmdWrite_only _ _ _ _)
    | with_reducible apply Only.after (roWrite_only _ _)
    | intro _
    | split
    | dsimp only

theorem dioCommonWrite_only (a : Nat) (v : Word) (s : State) :
    Only [.sys, .evr, .dio, .dioBlk] s (dioCommonWrite a v s).2 := by
  unfold dioCommonWrite
  repeat' first
    | with_reducible exact Only.refl _ _
    | decide
    | with_reducible apply Only.ite
    | with_reducible apply Only.dite
    | with_reducible apply Only.iteSnd
    | with_reducible apply Only.after (dioBlkWrite_only _ _)
    | with_reducible apply Only.after (readmitCells_only _ _ _)
    | with_reducible apply Only.after (roWrite_only _ _)
    | intro _
    | split
    | dsimp only

theorem psCmdWrite_only (src : Source) (c : Fin 2) (v : Word) (s : State) :
    Only [.drawn, .sys, .evr, .ps, .tst] s (psCmdWrite src c v s) := by
  unfold psCmdWrite
  repeat' first
    | with_reducible exact Only.refl _ _
    | decide
    | with_reducible apply Only.ite
    | with_reducible apply Only.dite
    | with_reducible apply onBit_only
    | with_reducible apply Only.after (psArm_only _ _)
    | with_reducible apply Only.after (psSetPos_only _ _ _)
    | with_reducible apply freeLoop_only
    | with_reducible apply Only.after (psLoop_only _ _ _ _)
    | intro _
    | split
    | dsimp only

theorem psWrite_only (src : Source) (c : Fin 2) (a : Nat) (v : Word) (s : State) :
    Only [.drawn, .sys, .evr, .ps, .tst] s (psWrite src c a v s).2 := by
  unfold psWrite
  repeat' first
    | with_reducible exact Only.refl _ _
    | decide
    | with_reducible apply Only.ite
    | with_reducible apply Only.dite
    | with_reducible apply Only.iteSnd
    | with_reducible apply Only.after (psCfgWrite_only _ _ _ _ _)
    | with_reducible apply Only.after (State.setPs_only _ _ _)
    | with_reducible apply Only.after (psCmpWrite_only _ _ _ _)
    | with_reducible apply Only.after (psCmdWrite_only _ _ _ _)
    | with_reducible apply Only.after (roWrite_only _ _)
    | intro _
    | split
    | dsimp only

theorem psCommonWrite_only (a : Nat) (v : Word) (s : State) :
    Only [.sys, .evr, .dio, .dioBlk, .ps, .psBlk] s (psCommonWrite a v s).2 := by
  unfold psCommonWrite
  repeat' first
    | with_reducible exact Only.refl _ _
    | decide
    | with_reducible apply Only.ite
    | with_reducible apply Only.dite
    | with_reducible apply Only.iteSnd
    | with_reducible apply Only.after (psBlkWrite_only _ _)
    | with_reducible apply Only.after (readmitCells_only _ _ _)
    | with_reducible apply Only.after (roWrite_only _ _)
    | intro _
    | split
    | dsimp only

theorem acqWrite_only (src : Source) (a : Nat) (v : Word) (s : State) :
    Only [.drawn, .sys, .evr, .ui, .uiBlk, .ao, .aoBlk, .dio, .dioBlk, .ps, .psBlk, .mmc, .age, .tst] s (acqWrite src a v s).2 := by
  unfold acqWrite
  repeat' first
    | with_reducible exact Only.refl _ _
    | decide
    | with_reducible apply Only.ite
    | with_reducible apply Only.dite
    | with_reducible apply Only.iteSnd
    | with_reducible apply Only.after (uiWrite_only _ _ _ _ _)
    | with_reducible apply Only.after (aoWrite_only _ _ _ _ _)
    | with_reducible apply Only.after (dioWrite_only _ _ _ _ _)
    | with_reducible apply Only.after (dioCommonWrite_only _ _ _)
    | with_reducible apply Only.after (psWrite_only _ _ _ _ _)
    | with_reducible apply Only.after (psCommonWrite_only _ _ _)
    | intro _
    | split
    | dsimp only

theorem recordWrite_only (src : Source) (a : Nat) (s : State) :
    Only [.sys] s (recordWrite src a s).2 := by
  unfold recordWrite
  repeat' first
    | with_reducible exact Only.refl _ _
    | decide
    | with_reducible apply Only.ite
    | with_reducible apply Only.dite
    | with_reducible apply Only.iteSnd
    | with_reducible apply Only.after (logWerr_only _ _ _ _)
    | intro _
    | split
    | dsimp only

theorem almWrite_only (src : Source) (a : Nat) (v : Word) (s : State) :
    Only [.sys, .pev, .ann, .call, .lvn] s (almWrite src a v s).2 := by
  unfold almWrite
  split
  · exact (recordWrite_only _ _ _).mono (by decide)
  · split
    · exact Only.ite (Only.refl _ _) ((ptCmdWrite_only _ _ _ _).mono (by decide))
    · exact Only.set_pev (Only.refl _ _) (by decide)
    · exact Only.ite (Only.refl _ _) ((almCmdWrite_only _ _ _ _ _).mono (by decide))
    · dsimp only
      exact (State.setAnn_only _ _).mono (by decide)
    · exact Only.ite (Only.refl _ _) ((callCmdWrite_only _ _ _ _ _).mono (by decide))
    · exact (roWrite_only _ _).mono (by decide)

theorem canWrite_only (src : Source) (k : Fin 4) (a : Nat) (v : Word) (s : State) :
    Only [.drawn, .sys, .evr, .can] s (canWrite src k a v s).2 := by
  unfold canWrite
  extract_lets imz
  split
  · exact Only.refl _ _
  split
  · exact (canCtlWrite_only _ _ _ _).mono (by decide)
  · exact (canTimeWrite_only _ _ _ _ _).mono (by decide)
  · exact (canTimeWrite_only _ _ _ _ _).mono (by decide)
  · exact (canTimeWrite_only _ _ _ _ _).mono (by decide)
  · exact Only.ite ((State.setCan_only _ _ _).mono (by decide)) (Only.refl _ _)
  · exact (canTxReq_only _ _ _ _).mono (by decide)
  · exact Only.after (canTxAbort_only _ _ _ _ _) (by decide) ((State.drew_only _).mono (by decide))
  · dsimp only
    exact (State.setCan_only _ _ _).mono (by decide)
  · dsimp only
    exact (State.setCan_only _ _ _).mono (by decide)
  · exact (roWrite_only _ _).mono (by decide)

theorem lvnCtlWrite_only (src : Source) (v : Word) (s : State) :
    Only [.sys, .evr, .lvn] s (lvnCtlWrite src v s).2 := by
  unfold lvnCtlWrite
  repeat' first
    | with_reducible exact Only.refl _ _
    | decide
    | with_reducible apply Only.ite
    | with_reducible apply Only.dite
    | with_reducible apply Only.iteSnd
    | with_reducible apply Only.after (lvnStop_only _ _ _)
    | with_reducible apply Only.after (State.setLvn_only _ _)
    | with_reducible apply Only.after (lvnLoopStart_only _ _ _)
    | with_reducible apply Only.after (handStart_only _ _)
    | intro _
    | split
    | dsimp only

theorem lnkWrite_only (src : Source) (a : Nat) (v : Word) (s : State) :
    Only [.now, .drawn, .sys, .evr, .can, .pev, .call, .tim, .lvn, .recd, .mmc] s (lnkWrite src a v s).2 := by
  unfold lnkWrite
  repeat' first
    | with_reducible exact Only.refl _ _
    | decide
    | with_reducible apply Only.ite
    | with_reducible apply Only.dite
    | with_reducible apply Only.iteSnd
    | with_reducible apply Only.after (canWrite_only _ _ _ _ _)
    | with_reducible apply Only.after (State.setTim_only _ _)
    | with_reducible apply onBit_only
    | with_reducible apply Only.after (timCmd_only _ _ _)
    | with_reducible apply Only.after (State.setLvn_only _ _)
    | with_reducible apply Only.after (presFault_only _)
    | with_reducible apply Only.after (lvnCtlWrite_only _ _ _)
    | with_reducible apply Only.after (roWrite_only _ _)
    | intro _
    | split
    | dsimp only

theorem recCtlWrite_only (src : Source) (v : Word) (s : State) :
    Only [.drawn, .sys, .evr, .ao, .dio, .recd, .mmc] s (recCtlWrite src v s) := by
  unfold recCtlWrite
  repeat' first
    | with_reducible exact Only.refl _ _
    | decide
    | with_reducible apply Only.ite
    | with_reducible apply Only.dite
    | with_reducible apply onBit_only
    | with_reducible apply Only.after (flushPages_only _)
    | with_reducible apply Only.after (recStop_only _ _)
    | with_reducible apply Only.after (recFormatCmd_only _ _ _)
    | intro _
    | split
    | dsimp only

theorem recRdWrite_only (src : Source) (v : Word) (s : State) :
    Only [.sys, .recd] s (recRdWrite src v s).2 := by
  unfold recRdWrite
  repeat' first
    | with_reducible exact Only.refl _ _
    | decide
    | with_reducible apply Only.ite
    | with_reducible apply Only.dite
    | with_reducible apply Only.iteSnd
    | with_reducible apply Only.after (recRead_only _ _ _)
    | with_reducible apply Only.after (logWerr_only _ _ _ _)
    | intro _
    | split
    | dsimp only

theorem kepWrite_only (src : Source) (a : Nat) (v : Word) (s : State) :
    Only [.drawn, .sys, .rcp, .evr, .ao, .dio, .imz, .recd, .mmc] s (kepWrite src a v s).2 := by
  unfold kepWrite
  repeat' first
    | with_reducible exact Only.refl _ _
    | decide
    | with_reducible apply Only.ite
    | with_reducible apply Only.dite
    | with_reducible apply Only.iteSnd
    | with_reducible apply Only.after (bufWrite_only _ _ _ _)
    | with_reducible apply Only.after (recCtlWrite_only _ _ _)
    | with_reducible apply Only.after (recRdWrite_only _ _ _)
    | with_reducible apply Only.after (State.setRec_only _ _)
    | with_reducible apply Only.after (rcpCmd_only _ _ _)
    | with_reducible apply Only.after (roWrite_only _ _)
    | intro _
    | split
    | dsimp only

theorem fceWrite_only (src : Source) (a : Nat) (v : Word) (s : State) :
    Only [.drawn, .sys, .evr, .can, .ann, .call, .imz, .lvn, .pnl, .rnd] s (fceWrite src a v s).2 := by
  unfold fceWrite
  repeat' first
    | with_reducible exact Only.refl _ _
    | decide
    | with_reducible apply Only.ite
    | with_reducible apply Only.dite
    | with_reducible apply Only.iteSnd
    | with_reducible apply Only.after (State.setPnl_only _ _)
    | with_reducible apply Only.after (updCmd_only _ _ _ _ _)
    | with_reducible apply onBit_only
    | with_reducible apply Only.after (pnlRefresh_only _)
    | with_reducible apply inPnl_only
    | with_reducible apply Only.after (pnlLeaveFault_only _)
    | with_reducible apply Only.after (rndCtlWrite_only _ _ _ _)
    | with_reducible apply Only.after (rndKeyWrite_only _ _ _)
    | with_reducible apply Only.after (roWrite_only _ _)
    | intro _
    | split
    | dsimp only

theorem ageCmdWrite_only (src : Source) (v : Word) (s : State) :
    Only [.drawn, .sys, .sup, .evr, .ui, .dio, .tim, .mmc, .age] s (ageCmdWrite src v s) := by
  unfold ageCmdWrite
  repeat' first
    | with_reducible exact Only.refl _ _
    | decide
    | with_reducible apply Only.ite
    | with_reducible apply Only.dite
    | with_reducible apply ageCmd_only
    | with_reducible apply Only.after (ageAck_only _ _)
    | with_reducible apply Only.after (ageRebase_only _ _)
    | with_reducible apply Only.after (ageTake_only _ _)
    | with_reducible apply Only.after (State.drew_only _)
    | with_reducible apply Only.after (logWerr_only _ _ _ _)
    | intro _
    | split
    | dsimp only

theorem supWrite_only (src : Source) (a : Nat) (v : Word) (s : State) :
    Only [.drawn, .sys, .sup, .evr, .ui, .dio, .tim, .mmc, .age, .tst] s (supWrite src a v s).2 := by
  unfold supWrite
  repeat' first
    | with_reducible exact Only.refl _ _
    | decide
    | with_reducible apply Only.ite
    | with_reducible apply Only.dite
    | with_reducible apply Only.iteSnd
    | with_reducible apply Only.after (recordWrite_only _ _ _)
    | with_reducible apply Only.after (ageCmdWrite_only _ _ _)
    | with_reducible apply Only.after (fieldStart_only _ _ _)
    | with_reducible apply Only.after (roWrite_only _ _)
    | intro _
    | split
    | dsimp only

theorem windowWrite_only (src : Source) (a : Nat) (v : Word) (s : State) :
    Only [.sys, .can, .pnl] s (windowWrite src a v s).2 := by
  unfold windowWrite
  repeat' first
    | with_reducible exact Only.refl _ _
    | decide
    | with_reducible apply Only.ite
    | with_reducible apply Only.dite
    | with_reducible apply Only.iteSnd
    | with_reducible apply Only.after (logWerr_only _ _ _ _)
    | with_reducible apply Only.after (recordWrite_only _ _ _)
    | with_reducible apply Only.after (fbWrite_only _ _ _ _)
    | with_reducible apply Only.after (canRamWrite_only _ _ _ _ _)
    | intro _
    | split
    | dsimp only

theorem regWrite_only (src : Source) (a : Nat) (v : Word) (s : State) :
    Only [.now, .drawn, .sys, .fab, .sup, .rcp, .evr, .hp, .ui, .uiBlk, .ao, .aoBlk, .dio, .dioBlk, .ps, .psBlk, .can, .pev, .ann, .call, .imz, .tim, .lvn, .recd, .mmc, .pnl, .rnd, .age, .tst] s (regWrite src a v s).2 := by
  unfold regWrite
  repeat' first
    | with_reducible exact Only.refl _ _
    | decide
    | with_reducible apply Only.ite
    | with_reducible apply Only.dite
    | with_reducible apply Only.iteSnd
    | with_reducible apply Only.after (sysWrite_only _ _ _ _)
    | with_reducible apply Only.after (evrWrite_only _ _ _ _)
    | with_reducible apply Only.after (acqWrite_only _ _ _ _)
    | with_reducible apply Only.after (almWrite_only _ _ _ _)
    | with_reducible apply Only.after (lnkWrite_only _ _ _ _)
    | with_reducible apply Only.after (kepWrite_only _ _ _ _)
    | with_reducible apply Only.after (hpWrite_only _ _ _ _)
    | with_reducible apply Only.after (fceWrite_only _ _ _ _)
    | with_reducible apply Only.after (supWrite_only _ _ _ _)
    | with_reducible apply Only.after (windowWrite_only _ _ _ _)
    | intro _
    | split
    | dsimp only

theorem oneWerr_only (s t : State) :
    Only [.sys] t (oneWerr s t) := by
  unfold oneWerr
  repeat' first
    | with_reducible exact Only.refl _ _
    | decide
    | with_reducible apply Only.ite
    | with_reducible apply Only.dite
    | with_reducible apply Only.set_sys
    | intro _
    | split
    | dsimp only

theorem busWrite_only (src : Source) (a : Nat) (v : Word) (s : State) :
    Only [.now, .drawn, .sys, .fab, .sup, .rcp, .evr, .hp, .ui, .uiBlk, .ao, .aoBlk, .dio, .dioBlk, .ps, .psBlk, .can, .pev, .ann, .call, .imz, .tim, .lvn, .recd, .mmc, .pnl, .rnd, .age, .tst] s (busWrite src a v s).2 := by
  unfold busWrite
  repeat' first
    | with_reducible exact Only.refl _ _
    | decide
    | with_reducible apply Only.ite
    | with_reducible apply Only.dite
    | with_reducible apply Only.iteSnd
    | with_reducible apply Only.after (regWrite_only _ _ _ _)
    | with_reducible apply Only.after (oneWerr_only _ _)
    | intro _
    | split
    | dsimp only

theorem execRegisterWrite_only (src : Source) (addr : BitVec 24) (v : Word) (s : State) :
    ∃ t', execRegisterWrite src addr v s = .next t' ∧ Only [.now, .drawn, .sys, .fab, .sup, .rcp, .evr, .hp, .ui, .uiBlk, .ao, .aoBlk, .dio, .dioBlk, .ps, .psBlk, .can, .pev, .ann, .call, .imz, .tim, .lvn, .recd, .mmc, .pnl, .rnd, .age, .tst] s t' := by
  refine ⟨_, rfl, ?_⟩
  repeat' first
    | with_reducible exact Only.refl _ _
    | decide
    | with_reducible apply Only.ite
    | with_reducible apply Only.dite
    | with_reducible apply Only.after (busWrite_only _ _ _ _)
    | intro _
    | split
    | dsimp only

theorem readNow_only (a : Nat) (s : State) :
    Only [.sys, .evr, .hp, .can, .pev, .ann, .grp, .call, .imz, .tim, .lvn, .recd, .mmc, .pnl, .age] s (readNow a s) := by
  unfold readNow
  repeat' first
    | with_reducible exact Only.refl _ _
    | decide
    | with_reducible apply Only.ite
    | with_reducible apply Only.dite
    | with_reducible apply Only.after (busFetch_only _ _)
    | with_reducible apply Only.set_sys
    | intro _
    | split
    | dsimp only

theorem execReadClear_only (addr : BitVec 24) (s : State) :
    ∃ t', execReadClear addr s = .next t' ∧ Only [.sys, .evr, .hp, .can, .pev, .ann, .grp, .call, .imz, .tim, .lvn, .recd, .mmc, .pnl, .age] s t' := by
  refine ⟨_, rfl, ?_⟩
  repeat' first
    | with_reducible exact Only.refl _ _
    | decide
    | with_reducible apply Only.ite
    | with_reducible apply Only.dite
    | with_reducible apply Only.after (readNow_only _ _)
    | intro _
    | split
    | dsimp only

theorem execTimeLoRead_only (addr : BitVec 24) (s : State) :
    ∃ t', execTimeLoRead addr s = .next t' ∧ Only [.sys, .evr, .hp, .can, .pev, .ann, .grp, .call, .imz, .tim, .lvn, .recd, .mmc, .pnl, .age] s t' := by
  refine ⟨_, rfl, ?_⟩
  repeat' first
    | with_reducible exact Only.refl _ _
    | decide
    | with_reducible apply Only.ite
    | with_reducible apply Only.dite
    | with_reducible apply Only.after (readNow_only _ _)
    | intro _
    | split
    | dsimp only

end Sys2Proof.Machine
end

