-- ==== Sys2Proof/Laws/FrameCmd.lean ====
section
/-! SUPPORT. Cmd: the parts of the state that each operation of Machine/Cmd may change. -/
namespace Sys2Proof.Machine

open Sys2Proof

theorem cmdTake_only (f : ImzRx) (s : State) :
    Only [.imz, .lvn] s (cmdTake f s) := by
  unfold cmdTake
  repeat' first
    | with_reducible exact Only.refl _ _
    | decide
    | with_reducible apply Only.ite
    | with_reducible apply Only.dite
    | with_reducible apply Only.after (State.setLvn_only _ _)
    | with_reducible apply Only.after (State.setImz_only _ _)
    | intro _
    | split
    | dsimp only

theorem cmdRefuse_only (f : ImzRx) (result detail : Nat) (s : State) :
    Only [.evr, .can, .imz] s (cmdRefuse f result detail s) := by
  unfold cmdRefuse
  repeat' first
    | with_reducible exact Only.refl _ _
    | decide
    | with_reducible apply Only.ite
    | with_reducible apply Only.dite
    | with_reducible apply Only.after (imzReply_only _ _ _ _ _ _)
    | with_reducible apply Only.after (State.setImz_only _ _)
    | intro _
    | split
    | dsimp only

theorem cmdBody_only {l : List Part} {s : State} (op : Nat) (f : ImzRx) (act : State → State) (t : State) (h : ∀ u, Only l u (act u))
    (k : Part.sub [.evr, .can, .imz, .lvn] l = true) (g : Only l s t) : Only l s (cmdBody op f act t) := by
  unfold cmdBody
  repeat' first
    | assumption
    | with_reducible exact Only.refl _ _
    | with_reducible apply Only.after (h _)
    | with_reducible apply Only.after (h _ _)
    | exact Part.sub_refl _
    | with_reducible apply Only.ite
    | with_reducible apply Only.dite
    | with_reducible apply Only.after (imzToward_only _ _ _ _ _) (Part.sub_trans (by decide) k)
    | with_reducible apply Only.after (cmdTake_only _ _) (Part.sub_trans (by decide) k)
    | intro _
    | split
    | dsimp only

theorem cmdFor_only {l : List Part} {s : State} (op : Nat) (f : ImzRx) (act : State → State) (t : State) (h : ∀ u, Only l u (act u))
    (k : Part.sub [.evr, .can, .imz, .lvn] l = true) (g : Only l s t) : Only l s (cmdFor op f act t) := by
  unfold cmdFor
  repeat' first
    | assumption
    | with_reducible exact Only.refl _ _
    | with_reducible apply Only.after (h _)
    | with_reducible apply Only.after (h _ _)
    | exact Part.sub_refl _
    | with_reducible apply Only.ite
    | with_reducible apply Only.dite
    | with_reducible apply imzRx_only
    | exact Part.sub_trans (by decide) k
    | with_reducible apply cmdBody_only
    | exact Part.sub_trans (by decide) k
    | intro _
    | split
    | dsimp only

theorem fetchWords_only (l : List Nat) (s : State) : Only [.sys, .evr, .hp, .can, .pev, .ann, .grp, .call, .imz, .tim, .lvn, .recd, .mmc, .pnl, .age] s (fetchWords l s).2 := by
  induction l generalizing s with
  | nil => exact Only.refl _ _
  | cons a l ih =>
    show Only _ s (fetchWords l (busFetch a s).2.2).2
    exact Only.after (ih _) (by decide) (Only.mono (busFetch_only _ _) (by decide))

theorem storeWords_only (src : Source) (l : List (Nat × Word)) (s : State) :
    Only [.now, .drawn, .sys, .fab, .sup, .rcp, .evr, .hp, .ui, .uiBlk, .ao, .aoBlk, .dio, .dioBlk, .ps, .psBlk, .can, .pev, .ann, .call, .imz, .tim, .lvn, .recd, .mmc, .pnl, .rnd, .age, .tst] s (storeWords src l s).2 := by
  induction l generalizing s with
  | nil => exact Only.refl _ _
  | cons p l ih =>
    show Only _ s (storeWords src l (busWrite src p.1 p.2 s).2).2
    exact Only.after (ih _) (by decide) (Only.mono (busWrite_only _ _ _ _) (by decide))

theorem cmdRegRead_only (f : ImzRx) (s : State) :
    Only [.sys, .evr, .hp, .can, .pev, .ann, .grp, .call, .imz, .tim, .lvn, .recd, .mmc, .pnl, .age] s (cmdRegRead f s) := by
  unfold cmdRegRead
  repeat' first
    | with_reducible exact Only.refl _ _
    | decide
    | with_reducible apply Only.ite
    | with_reducible apply Only.dite
    | with_reducible apply Only.after (cmdRefuse_only _ _ _ _)
    | with_reducible apply Only.after (fetchWords_only _ _)
    | with_reducible apply Only.after (imzReply_only _ _ _ _ _ _)
    | intro _
    | split
    | dsimp only

theorem cmdRegWrite_only (f : ImzRx) (s : State) :
    Only [.now, .drawn, .sys, .fab, .sup, .rcp, .evr, .hp, .ui, .uiBlk, .ao, .aoBlk, .dio, .dioBlk, .ps, .psBlk, .can, .pev, .ann, .call, .imz, .tim, .lvn, .recd, .mmc, .pnl, .rnd, .age, .tst] s (cmdRegWrite f s) := by
  unfold cmdRegWrite
  repeat' first
    | with_reducible exact Only.refl _ _
    | decide
    | with_reducible apply Only.ite
    | with_reducible apply Only.dite
    | with_reducible apply Only.after (cmdRefuse_only _ _ _ _)
    | with_reducible apply Only.after (storeWords_only _ _ _)
    | with_reducible apply Only.after (imzReply_only _ _ _ _ _ _)
    | intro _
    | split
    | dsimp only

theorem cmdAlarm_only (replay : Bool) (f : ImzRx) (s : State) :
    Only [.evr, .can, .ann, .imz, .lvn] s (cmdAlarm replay f s) := by
  unfold cmdAlarm
  repeat' first
    | with_reducible exact Only.refl _ _
    | decide
    | with_reducible apply Only.ite
    | with_reducible apply Only.dite
    | with_reducible apply Only.after (cmdRefuse_only _ _ _ _)
    | with_reducible apply Only.after (annSubmit_only _ _)
    | intro _
    | split
    | dsimp only

theorem ptTake_only (c : PtCmd) (s : State) :
    Only [.pev, .lvn] s (ptTake c s).2 := by
  unfold ptTake
  repeat' first
    | with_reducible exact Only.refl _ _
    | decide
    | with_reducible apply Only.ite
    | with_reducible apply Only.dite
    | with_reducible apply Only.iteSnd
    | with_reducible apply Only.after (ptCommand_only _ _ _ _ _)
    | intro _
    | split
    | dsimp only

theorem cmdPoint_only {l : List Part} {s : State} (replay : Bool) (f : ImzRx) (run : PtCmd → State → Nat × State) (t : State) (h : ∀ c u, Only l u (run c u).2)
    (k : Part.sub [.evr, .can, .imz] l = true) (g : Only l s t) : Only l s (cmdPoint replay f run t) := by
  unfold cmdPoint
  repeat' first
    | assumption
    | with_reducible exact Only.refl _ _
    | with_reducible apply Only.after (h _)
    | with_reducible apply Only.after (h _ _)
    | exact Part.sub_refl _
    | with_reducible apply Only.ite
    | with_reducible apply Only.dite
    | with_reducible apply Only.after (cmdRefuse_only _ _ _ _) (Part.sub_trans (by decide) k)
    | intro _
    | split
    | dsimp only

theorem cmdDuty_only (replay : Bool) (f : ImzRx) (s : State) :
    Only [.evr, .can, .call, .imz, .lvn] s (cmdDuty replay f s) := by
  unfold cmdDuty
  repeat' first
    | with_reducible exact Only.refl _ _
    | decide
    | with_reducible apply Only.ite
    | with_reducible apply Only.dite
    | with_reducible apply Only.after (callPush_only _ _)
    | with_reducible apply Only.after (cmdRefuse_only _ _ _ _)
    | intro _
    | split
    | dsimp only

theorem cmdStateReq_only (f : ImzRx) (s : State) :
    Only [.evr, .can, .pev, .ann, .imz] s (cmdStateReq f s) := by
  unfold cmdStateReq
  repeat' first
    | with_reducible exact Only.refl _ _
    | decide
    | with_reducible apply Only.ite
    | with_reducible apply Only.dite
    | with_reducible apply Only.after (imzStateReport_only _ _)
    | with_reducible apply Only.after (imzReply_only _ _ _ _ _ _)
    | intro _
    | split
    | dsimp only

theorem cmdTimeSet_only (f : ImzRx) (s : State) :
    Only [.now, .sys, .evr, .can, .pev, .call, .imz, .tim, .recd, .mmc] s (cmdTimeSet f s) := by
  unfold cmdTimeSet
  repeat' first
    | with_reducible exact Only.refl _ _
    | decide
    | with_reducible apply Only.ite
    | with_reducible apply Only.dite
    | with_reducible apply Only.after (timSetAtPulse_only _ _)
    | with_reducible apply Only.after (timSet_only _ _)
    | with_reducible apply Only.after (imzReply_only _ _ _ _ _ _)
    | with_reducible apply Only.after (cmdRefuse_only _ _ _ _)
    | intro _
    | split
    | dsimp only

theorem cmdConflict_only (f : ImzRx) (s : State) :
    Only [.evr, .can, .imz] s (cmdConflict f s) := by
  unfold cmdConflict
  repeat' first
    | with_reducible exact Only.refl _ _
    | decide
    | with_reducible apply Only.ite
    | with_reducible apply Only.dite
    | with_reducible apply Only.after (enterConflict_only _)
    | with_reducible apply Only.after (imzTook_only _ _ _ _)
    | intro _
    | split
    | dsimp only

theorem execCmdRegRead_only (f : ImzRx) (s : State) :
    ∃ t', execCmdRegRead f s = .next t' ∧ Only [.sys, .evr, .hp, .can, .pev, .ann, .grp, .call, .imz, .tim, .lvn, .recd, .mmc, .pnl, .age] s t' := by
  refine ⟨_, rfl, ?_⟩
  repeat' first
    | with_reducible exact Only.refl _ _
    | decide
    | with_reducible apply Only.ite
    | with_reducible apply Only.dite
    | with_reducible apply cmdFor_only
    | with_reducible apply Only.after (cmdRegRead_only _ _)
    | intro _
    | split
    | dsimp only

theorem execCmdRegWrite_only (f : ImzRx) (s : State) :
    ∃ t', execCmdRegWrite f s = .next t' ∧ Only [.now, .drawn, .sys, .fab, .sup, .rcp, .evr, .hp, .ui, .uiBlk, .ao, .aoBlk, .dio, .dioBlk, .ps, .psBlk, .can, .pev, .ann, .call, .imz, .tim, .lvn, .recd, .mmc, .pnl, .rnd, .age, .tst] s t' := by
  refine ⟨_, rfl, ?_⟩
  repeat' first
    | with_reducible exact Only.refl _ _
    | decide
    | with_reducible apply Only.ite
    | with_reducible apply Only.dite
    | with_reducible apply cmdFor_only
    | with_reducible apply Only.after (cmdRegWrite_only _ _)
    | intro _
    | split
    | dsimp only

theorem execCmdAlarm_only (f : ImzRx) (s : State) :
    ∃ t', execCmdAlarm f s = .next t' ∧ Only [.evr, .can, .ann, .imz, .lvn] s t' := by
  refine ⟨_, rfl, ?_⟩
  repeat' first
    | with_reducible exact Only.refl _ _
    | decide
    | with_reducible apply Only.ite
    | with_reducible apply Only.dite
    | with_reducible apply cmdFor_only
    | with_reducible apply Only.after (cmdAlarm_only _ _ _)
    | intro _
    | split
    | dsimp only

theorem execCmdPoint_only (f : ImzRx) (s : State) :
    ∃ t', execCmdPoint f s = .next t' ∧ Only [.evr, .can, .pev, .imz, .lvn] s t' := by
  refine ⟨_, rfl, ?_⟩
  repeat' first
    | with_reducible exact Only.refl _ _
    | decide
    | with_reducible apply Only.ite
    | with_reducible apply Only.dite
    | with_reducible apply cmdFor_only
    | with_reducible apply cmdPoint_only
    | with_reducible apply Only.after (ptTake_only _ _)
    | intro _
    | split
    | dsimp only

theorem execCmdDuty_only (f : ImzRx) (s : State) :
    ∃ t', execCmdDuty f s = .next t' ∧ Only [.evr, .can, .call, .imz, .lvn] s t' := by
  refine ⟨_, rfl, ?_⟩
  repeat' first
    | with_reducible exact Only.refl _ _
    | decide
    | with_reducible apply Only.ite
    | with_reducible apply Only.dite
    | with_reducible apply cmdFor_only
    | with_reducible apply Only.after (cmdDuty_only _ _ _)
    | intro _
    | split
    | dsimp only

theorem execCmdStateReq_only (f : ImzRx) (s : State) :
    ∃ t', execCmdStateReq f s = .next t' ∧ Only [.evr, .can, .pev, .ann, .imz, .lvn] s t' := by
  refine ⟨_, rfl, ?_⟩
  repeat' first
    | with_reducible exact Only.refl _ _
    | decide
    | with_reducible apply Only.ite
    | with_reducible apply Only.dite
    | with_reducible apply cmdFor_only
    | with_reducible apply Only.after (cmdStateReq_only _ _)
    | intro _
    | split
    | dsimp only

theorem execCmdTimeSet_only (f : ImzRx) (s : State) :
    ∃ t', execCmdTimeSet f s = .next t' ∧ Only [.now, .sys, .evr, .can, .pev, .call, .imz, .tim, .lvn, .recd, .mmc] s t' := by
  refine ⟨_, rfl, ?_⟩
  repeat' first
    | with_reducible exact Only.refl _ _
    | decide
    | with_reducible apply Only.ite
    | with_reducible apply Only.dite
    | with_reducible apply cmdFor_only
    | with_reducible apply Only.after (cmdTimeSet_only _ _)
    | intro _
    | split
    | dsimp only

theorem execCmdConflict_only (f : ImzRx) (s : State) :
    ∃ t', execCmdConflict f s = .next t' ∧ Only [.evr, .can, .imz] s t' := by
  refine ⟨_, rfl, ?_⟩
  repeat' first
    | with_reducible exact Only.refl _ _
    | decide
    | with_reducible apply Only.ite
    | with_reducible apply Only.dite
    | with_reducible apply Only.after (cmdConflict_only _ _)
    | intro _
    | split
    | dsimp only

end Sys2Proof.Machine
end

