-- ==== Sys2Proof/Laws/FrameHostPort.lean ====
section
/-! SUPPORT. HostPort: the parts of the state that each operation of Machine/HostPort may change. -/
namespace Sys2Proof.Machine

open Sys2Proof

theorem State.setHp_only (s : State) (h : Fin 2) (f : HostPort → HostPort) :
    Only [.hp] s (State.setHp s h f) := by
  unfold State.setHp
  repeat' first
    | with_reducible exact Only.refl _ _
    | decide
    | with_reducible apply Only.ite
    | with_reducible apply Only.dite
    | with_reducible apply Only.set_hp
    | intro _
    | split
    | dsimp only

theorem countAbsent_only (h : Fin 2) (codes : List Nat) (s : State) :
    Only [.hp] s (countAbsent h codes s) := by
  unfold countAbsent
  repeat' first
    | with_reducible exact Only.refl _ _
    | decide
    | with_reducible apply Only.ite
    | with_reducible apply Only.dite
    | with_reducible apply Only.after (State.setHp_only _ _ _)
    | intro _
    | split
    | dsimp only

theorem lastWrite_only (h : Fin 2) (seq : Half) (index code : Nat) (crc frame : Bool) (s : State) :
    Only [.hp] s (lastWrite h seq index code crc frame s) := by
  unfold lastWrite
  repeat' first
    | with_reducible exact Only.refl _ _
    | decide
    | with_reducible apply Only.ite
    | with_reducible apply Only.dite
    | with_reducible apply Only.after (State.setHp_only _ _ _)
    | intro _
    | split
    | dsimp only

theorem hostStore_only (h : Fin 2) (l : List (Nat × Word)) (s : State) :
    Only [.now, .drawn, .sys, .fab, .sup, .rcp, .evr, .hp, .ui, .uiBlk, .ao, .aoBlk, .dio, .dioBlk, .ps, .psBlk, .can, .pev, .ann, .call, .imz, .tim, .lvn, .recd, .mmc, .pnl, .rnd, .age, .tst] s (hostStore h l s).2 := by
  induction l generalizing s with
  | nil => exact Only.refl _ _
  | cons p l ih =>
    unfold hostStore
    split
    · exact Only.refl _ _
    · exact Only.after (ih _) (by decide) (Only.mono (busWrite_only _ _ _ _) (by decide))

theorem hostApply_only (h : Fin 2) (s : State) :
    Only [.now, .drawn, .sys, .fab, .sup, .rcp, .evr, .hp, .ui, .uiBlk, .ao, .aoBlk, .dio, .dioBlk, .ps, .psBlk, .can, .pev, .ann, .call, .imz, .tim, .lvn, .recd, .mmc, .pnl, .rnd, .age, .tst] s (hostApply h s) := by
  unfold hostApply
  repeat' first
    | with_reducible exact Only.refl _ _
    | decide
    | with_reducible apply Only.ite
    | with_reducible apply Only.dite
    | with_reducible apply Only.after (hostStore_only _ _ _)
    | with_reducible apply Only.after (lastWrite_only _ _ _ _ _ _ _)
    | with_reducible apply Only.after (countAbsent_only _ _ _)
    | with_reducible apply Only.after (State.setHp_only _ _ _)
    | intro _
    | split
    | dsimp only

theorem hostWrite_only (h : Fin 2) (b : List Byte) (s : State) :
    Only [.hp] s (hostWrite h b s) := by
  unfold hostWrite
  repeat' first
    | with_reducible exact Only.refl _ _
    | decide
    | with_reducible apply Only.ite
    | with_reducible apply Only.dite
    | with_reducible apply Only.after (lastWrite_only _ _ _ _ _ _ _)
    | with_reducible apply Only.after (State.setHp_only _ _ _)
    | intro _
    | split
    | dsimp only

theorem fetchLater_only (l : List Nat) (s : State) : Only [.sys, .evr, .hp, .can, .pev, .ann, .grp, .call, .imz, .tim, .lvn, .recd, .mmc, .pnl, .age] s (fetchLater l s).2 := by
  induction l generalizing s with
  | nil => exact Only.refl _ _
  | cons a l ih =>
    unfold fetchLater
    refine Only.after (ih _) (by decide) ?_
    split
    · exact Only.mono (busFetch_only _ _) (by decide)
    · exact Only.refl _ _

theorem hostFetch_only (a n : Nat) (s : State) :
    Only [.sys, .evr, .hp, .can, .pev, .ann, .grp, .call, .imz, .tim, .lvn, .recd, .mmc, .pnl, .age] s (hostFetch a n s).2 := by
  unfold hostFetch
  repeat' first
    | with_reducible exact Only.refl _ _
    | decide
    | with_reducible apply Only.ite
    | with_reducible apply Only.dite
    | with_reducible apply Only.iteSnd
    | with_reducible apply Only.after (busFetch_only _ _)
    | with_reducible apply Only.after (fetchLater_only _ _)
    | intro _
    | split
    | dsimp only

theorem hostRead_only (h : Fin 2) (b : List Byte) (s0 : State) :
    Only [.now, .drawn, .sys, .fab, .sup, .rcp, .evr, .hp, .ui, .uiBlk, .ao, .aoBlk, .dio, .dioBlk, .ps, .psBlk, .can, .pev, .ann, .grp, .call, .imz, .tim, .lvn, .recd, .mmc, .pnl, .rnd, .age, .tst] s0 (hostRead h b s0) := by
  unfold hostRead
  repeat' first
    | with_reducible exact Only.refl _ _
    | decide
    | with_reducible apply Only.ite
    | with_reducible apply Only.dite
    | with_reducible apply Only.after (hostApply_only _ _)
    | with_reducible apply Only.after (countAbsent_only _ _ _)
    | with_reducible apply Only.after (State.setHp_only _ _ _)
    | with_reducible apply Only.after (hostFetch_only _ _ _)
    | intro _
    | split
    | dsimp only

theorem hostSelect_only (h : Fin 2) (mode3 : Bool) (s : State) :
    Only [.sys, .hp] s (hostSelect h mode3 s) := by
  unfold hostSelect
  repeat' first
    | with_reducible exact Only.refl _ _
    | decide
    | with_reducible apply Only.ite
    | with_reducible apply Only.dite
    | with_reducible apply Only.after (dozeUp_only _ _)
    | with_reducible apply Only.after (State.setHp_only _ _ _)
    | intro _
    | split
    | dsimp only

theorem hostDone_only (h : Fin 2) (s : State) :
    Only [.hp] s (hostDone h s) := by
  unfold hostDone
  repeat' first
    | with_reducible exact Only.refl _ _
    | decide
    | with_reducible apply Only.ite
    | with_reducible apply Only.dite
    | with_reducible apply Only.after (State.setHp_only _ _ _)
    | intro _
    | split
    | dsimp only

theorem hostTransact_only (h : Fin 2) (mode3 : Bool) (b : List Byte) (s : State) :
    Only [.now, .drawn, .sys, .fab, .sup, .rcp, .evr, .hp, .ui, .uiBlk, .ao, .aoBlk, .dio, .dioBlk, .ps, .psBlk, .can, .pev, .ann, .grp, .call, .imz, .tim, .lvn, .recd, .mmc, .pnl, .rnd, .age, .tst] s (hostTransact h mode3 b s) := by
  unfold hostTransact
  repeat' first
    | with_reducible exact Only.refl _ _
    | decide
    | with_reducible apply Only.ite
    | with_reducible apply Only.dite
    | with_reducible apply Only.after (hostSelect_only _ _ _)
    | with_reducible apply Only.after (hostWrite_only _ _ _)
    | with_reducible apply Only.after (hostDone_only _ _)
    | with_reducible apply Only.after (hostRead_only _ _ _)
    | intro _
    | split
    | dsimp only

theorem execHostRead_only (h : Fin 2) (mode3 : Bool) (header : List Byte) (s : State) :
    ∃ t', execHostRead h mode3 header s = .next t' ∧ Only [.now, .drawn, .sys, .fab, .sup, .rcp, .evr, .hp, .ui, .uiBlk, .ao, .aoBlk, .dio, .dioBlk, .ps, .psBlk, .can, .pev, .ann, .grp, .call, .imz, .tim, .lvn, .recd, .mmc, .pnl, .rnd, .age, .tst] s t' := by
  refine ⟨_, rfl, ?_⟩
  repeat' first
    | with_reducible exact Only.refl _ _
    | decide
    | with_reducible apply Only.ite
    | with_reducible apply Only.dite
    | with_reducible apply Only.after (hostTransact_only _ _ _ _)
    | intro _
    | split
    | dsimp only

theorem execHostWrite_only (h : Fin 2) (mode3 : Bool) (bytes : List Byte) (s : State) :
    ∃ t', execHostWrite h mode3 bytes s = .next t' ∧ Only [.now, .drawn, .sys, .fab, .sup, .rcp, .evr, .hp, .ui, .uiBlk, .ao, .aoBlk, .dio, .dioBlk, .ps, .psBlk, .can, .pev, .ann, .grp, .call, .imz, .tim, .lvn, .recd, .mmc, .pnl, .rnd, .age, .tst] s t' := by
  refine ⟨_, rfl, ?_⟩
  repeat' first
    | with_reducible exact Only.refl _ _
    | decide
    | with_reducible apply Only.ite
    | with_reducible apply Only.dite
    | with_reducible apply Only.after (hostTransact_only _ _ _ _)
    | intro _
    | split
    | dsimp only

theorem execHostWriteApply_only (h : Fin 2) (s : State) :
    ∃ t', execHostWriteApply h s = .next t' ∧ Only [.now, .drawn, .sys, .fab, .sup, .rcp, .evr, .hp, .ui, .uiBlk, .ao, .aoBlk, .dio, .dioBlk, .ps, .psBlk, .can, .pev, .ann, .call, .imz, .tim, .lvn, .recd, .mmc, .pnl, .rnd, .age, .tst] s t' := by
  refine ⟨_, rfl, ?_⟩
  repeat' first
    | with_reducible exact Only.refl _ _
    | decide
    | with_reducible apply Only.ite
    | with_reducible apply Only.dite
    | with_reducible apply Only.after (hostApply_only _ _)
    | intro _
    | split
    | dsimp only

theorem execHostSleepChange_only (h : Fin 2) (level : Bool) (s : State) :
    ∃ t', execHostSleepChange h level s = .next t' ∧ Only [.sys, .hp] s t' := by
  refine ⟨_, rfl, ?_⟩
  repeat' first
    | with_reducible exact Only.refl _ _
    | decide
    | with_reducible apply Only.ite
    | with_reducible apply Only.dite
    | with_reducible apply Only.after (idleEndsHold_only _ _)
    | with_reducible apply Only.after (State.setHp_only _ _ _)
    | intro _
    | split
    | dsimp only

theorem execHostIdleDoorbell_only (h : Fin 2) (idle : Bool) (s : State) :
    ∃ t', execHostIdleDoorbell h idle s = .next t' ∧ Only [.sys, .hp] s t' := by
  refine ⟨_, rfl, ?_⟩
  repeat' first
    | with_reducible exact Only.refl _ _
    | decide
    | with_reducible apply Only.ite
    | with_reducible apply Only.dite
    | with_reducible apply Only.after (idleWrite_only _ _ _)
    | intro _
    | split
    | dsimp only

theorem execHostDoorbell_only (b : Bool) (payload : Word) (s : State) :
    ∃ t', execHostDoorbell b payload s = .next t' ∧ Only [.evr] s t' := by
  refine ⟨_, rfl, ?_⟩
  repeat' first
    | with_reducible exact Only.refl _ _
    | decide
    | with_reducible apply Only.ite
    | with_reducible apply Only.dite
    | with_reducible apply Only.after (doorbell_only _ _ _)
    | intro _
    | split
    | dsimp only

end Sys2Proof.Machine
end

