-- ==== Sys2Proof/Laws/FrameFabric.lean ====
section
/-! SUPPORT. Fabric: the parts of the state that each operation of Machine/Fabric may change. -/
namespace Sys2Proof.Machine

open Sys2Proof

theorem State.setFab_only (s : State) (f : Fabric → Fabric) :
    Only [.fab] s (State.setFab s f) := by
  unfold State.setFab
  repeat' first
    | with_reducible exact Only.refl _ _
    | decide
    | with_reducible apply Only.ite
    | with_reducible apply Only.dite
    | with_reducible apply Only.set_fab
    | intro _
    | split
    | dsimp only

theorem fabNew_only (q : FabReq) (s : State) :
    Only [.fab] s (fabNew q s).2 := by
  unfold fabNew
  repeat' first
    | with_reducible exact Only.refl _ _
    | decide
    | with_reducible apply Only.ite
    | with_reducible apply Only.dite
    | with_reducible apply Only.iteSnd
    | with_reducible apply Only.set_fab
    | intro _
    | split
    | dsimp only

theorem fabDrop_only (requester : BitVec 6) (tag : Byte) (s : State) :
    Only [.fab] s (fabDrop requester tag s) := by
  unfold fabDrop
  repeat' first
    | with_reducible exact Only.refl _ _
    | decide
    | with_reducible apply Only.ite
    | with_reducible apply Only.dite
    | with_reducible apply Only.after (State.setFab_only _ _)
    | intro _
    | split
    | dsimp only

theorem fabPut_only (n : FabOut) (s : State) :
    Only [.fab] s (fabPut n s) := by
  unfold fabPut
  repeat' first
    | with_reducible exact Only.refl _ _
    | decide
    | with_reducible apply Only.ite
    | with_reducible apply Only.dite
    | with_reducible apply Only.after (State.setFab_only _ _)
    | intro _
    | split
    | dsimp only

theorem fabPush_only (q : FabReq) (s : State) :
    Only [.sys, .rcp, .evr, .can, .pev, .call, .imz, .lvn, .recd, .mmc, .pnl] s (fabPush q s).2 := by
  unfold fabPush
  repeat' first
    | with_reducible exact Only.refl _ _
    | decide
    | with_reducible apply Only.ite
    | with_reducible apply Only.dite
    | with_reducible apply Only.iteSnd
    | with_reducible apply Only.after (raise_only _ _ _)
    | with_reducible apply Only.after (recStore_only _ _)
    | with_reducible apply Only.after (imzSendCmd_only _ _ _ _)
    | with_reducible apply Only.after (canTxReq_only _ _ _ _)
    | with_reducible apply Only.after (pnlSubmit_only _ _ _ _ _ _)
    | with_reducible apply Only.after (recLose_only _ _)
    | with_reducible apply Only.after (callStart_only _ _ _ _)
    | with_reducible apply Only.after (State.setCall_only _ _)
    | with_reducible apply Only.after (callNewStep_only _ _)
    | with_reducible apply Only.after (State.setPt_only _ _ _)
    | with_reducible apply Only.after (State.setLvn_only _ _)
    | with_reducible apply Only.after (rcpSwap_only _ _ _ _)
    | intro _
    | split
    | dsimp only

theorem fabApply_only (q : FabReq) (s : State) :
    Only [.now, .drawn, .sys, .fab, .sup, .rcp, .evr, .hp, .ui, .uiBlk, .ao, .aoBlk, .dio, .dioBlk, .ps, .psBlk, .can, .pev, .ann, .grp, .call, .imz, .tim, .lvn, .recd, .mmc, .pnl, .rnd, .age, .tst] s (fabApply q s).2.2 := by
  rcases hq : q.op with _ | v | _ | _ | _ | _ | _ | _ | _ | _ | _ | _ | _ | _
  all_goals simp only [fabApply, hq]
  · exact Only.iteSnd2 ((busFetch_only _ _).mono (by decide)) (Only.refl _ _)
  · exact Only.iteSnd2 ((busWrite_only _ _ _ _).mono (by decide)) (Only.refl _ _)
  · split
    · exact Only.refl _ _
    · exact (State.drew_only _).mono (by decide)
  all_goals exact (fabPush_only _ _).mono (by decide)

theorem fabAnswer_only (o : FabOut) (queueFull parity : Bool) (s : State) :
    Only [.now, .drawn, .sys, .fab, .sup, .rcp, .evr, .hp, .ui, .uiBlk, .ao, .aoBlk, .dio, .dioBlk, .ps, .psBlk, .can, .pev, .ann, .grp, .call, .imz, .tim, .lvn, .recd, .mmc, .pnl, .rnd, .age, .tst] s (fabAnswer o queueFull parity s).2.2 := by
  unfold fabAnswer
  repeat' first
    | with_reducible exact Only.refl _ _
    | decide
    | with_reducible apply Only.ite
    | with_reducible apply Only.dite
    | with_reducible apply Only.iteSnd2
    | with_reducible apply Only.after (fabApply_only _ _)
    | with_reducible apply Only.after (State.setFab_only _ _)
    | intro _
    | split
    | dsimp only

theorem segCount_only (q : FabReq) (timeout : Bool) (s : State) :
    Only [.drawn, .sys, .fab, .rcp, .evr, .ui, .uiBlk, .ao, .aoBlk, .dio, .dioBlk, .ps, .psBlk, .can, .pev, .ann, .call, .imz, .tim, .lvn, .mmc, .pnl, .rnd] s (segCount q timeout s) := by
  unfold segCount
  repeat' first
    | with_reducible exact Only.refl _ _
    | decide
    | with_reducible apply Only.ite
    | with_reducible apply Only.dite
    | with_reducible apply Only.after (segmentError_only _ _ _)
    | intro _
    | split
    | dsimp only

theorem fabServe_only (o : FabOut) (queueFull parity : Bool) (s : State) :
    Only [.now, .drawn, .sys, .fab, .sup, .rcp, .evr, .hp, .ui, .uiBlk, .ao, .aoBlk, .dio, .dioBlk, .ps, .psBlk, .can, .pev, .ann, .grp, .call, .imz, .tim, .lvn, .recd, .mmc, .pnl, .rnd, .age, .tst] s (fabServe o queueFull parity s) := by
  unfold fabServe
  repeat' first
    | with_reducible exact Only.refl _ _
    | decide
    | with_reducible apply Only.ite
    | with_reducible apply Only.dite
    | with_reducible apply Only.after (fabAnswer_only _ _ _ _)
    | with_reducible apply Only.after (fabPut_only _ _)
    | with_reducible apply Only.after (segCount_only _ _ _)
    | intro _
    | split
    | dsimp only

theorem fabMake_only (o : FabOut) (queueFull parity waits : Bool) (s : State) :
    Only [.now, .drawn, .sys, .fab, .sup, .rcp, .evr, .hp, .ui, .uiBlk, .ao, .aoBlk, .dio, .dioBlk, .ps, .psBlk, .can, .pev, .ann, .grp, .call, .imz, .tim, .lvn, .recd, .mmc, .pnl, .rnd, .age, .tst] s (fabMake o queueFull parity waits s) := by
  unfold fabMake
  repeat' first
    | with_reducible exact Only.refl _ _
    | decide
    | with_reducible apply Only.ite
    | with_reducible apply Only.dite
    | with_reducible apply Only.after (fabPut_only _ _)
    | with_reducible apply Only.after (fabServe_only _ _ _ _)
    | intro _
    | split
    | dsimp only

theorem fabRequest_only (q : FabReq) (queueFull parity waits : Bool) (s : State) :
    Only [.now, .drawn, .sys, .fab, .sup, .rcp, .evr, .hp, .ui, .uiBlk, .ao, .aoBlk, .dio, .dioBlk, .ps, .psBlk, .can, .pev, .ann, .grp, .call, .imz, .tim, .lvn, .recd, .mmc, .pnl, .rnd, .age, .tst] s (fabRequest q queueFull parity waits s) := by
  unfold fabRequest
  repeat' first
    | with_reducible exact Only.refl _ _
    | decide
    | with_reducible apply Only.ite
    | with_reducible apply Only.dite
    | with_reducible apply Only.after (fabMake_only _ _ _ _ _)
    | with_reducible apply Only.after (fabNew_only _ _)
    | with_reducible apply Only.after (State.setFab_only _ _)
    | intro _
    | split
    | dsimp only

theorem slotLost_only (n : Nat) (s : State) :
    Only [.pev] s (slotLost n s) := by
  unfold slotLost
  repeat' first
    | with_reducible exact Only.refl _ _
    | decide
    | with_reducible apply Only.ite
    | with_reducible apply Only.dite
    | with_reducible apply Only.after (State.setPt_only _ _ _)
    | intro _
    | split
    | dsimp only

theorem pointLost_only (p : Option (Fin 80)) (s : State) :
    Only [.pev] s (pointLost p s) := by
  unfold pointLost
  repeat' first
    | with_reducible exact Only.refl _ _
    | decide
    | with_reducible apply Only.ite
    | with_reducible apply Only.dite
    | with_reducible apply Only.after (slotLost_only _ _)
    | intro _
    | split
    | dsimp only

theorem fabReport_only (o : FabOut) (code : Nat) (s : State) :
    Only [.fab] s (fabReport o code s) := by
  unfold fabReport
  repeat' first
    | with_reducible exact Only.refl _ _
    | decide
    | with_reducible apply Only.ite
    | with_reducible apply Only.dite
    | with_reducible apply Only.after (fabDrop_only _ _ _)
    | with_reducible apply Only.after (State.setFab_only _ _)
    | intro _
    | split
    | dsimp only

theorem fabFail_only (o : FabOut) (code : Nat) (s : State) :
    Only [.drawn, .sys, .fab, .rcp, .evr, .ui, .uiBlk, .ao, .aoBlk, .dio, .dioBlk, .ps, .psBlk, .can, .pev, .ann, .call, .imz, .tim, .lvn, .mmc, .pnl, .rnd] s (fabFail o code s) := by
  unfold fabFail
  repeat' first
    | with_reducible exact Only.refl _ _
    | decide
    | with_reducible apply Only.ite
    | with_reducible apply Only.dite
    | with_reducible apply Only.after (pointLost_only _ _)
    | with_reducible apply Only.after (fabReport_only _ _ _)
    | with_reducible apply Only.after (blockFault_only _ _ _ _)
    | with_reducible apply Only.after (State.drew_only _)
    | intro _
    | split
    | dsimp only

theorem fabUncertain_only (o : FabOut) (code : Nat) (s : State) :
    Only [.drawn, .sys, .fab, .rcp, .evr, .ui, .uiBlk, .ao, .aoBlk, .dio, .dioBlk, .ps, .psBlk, .can, .pev, .ann, .call, .imz, .tim, .lvn, .mmc, .pnl, .rnd] s (fabUncertain o code s) := by
  unfold fabUncertain
  repeat' first
    | with_reducible exact Only.refl _ _
    | decide
    | with_reducible apply Only.ite
    | with_reducible apply Only.dite
    | with_reducible apply Only.after (fabPut_only _ _)
    | with_reducible apply Only.after (fabFail_only _ _ _)
    | intro _
    | split
    | dsimp only

theorem fabHandle_only (o : FabOut) (code : Nat) (data : Word) (s : State) :
    Only [.drawn, .sys, .fab, .rcp, .evr, .ui, .uiBlk, .ao, .aoBlk, .dio, .dioBlk, .ps, .psBlk, .can, .pev, .ann, .call, .imz, .tim, .lvn, .mmc, .pnl, .rnd] s (fabHandle o code data s) := by
  unfold fabHandle
  repeat' first
    | with_reducible exact Only.refl _ _
    | decide
    | with_reducible apply Only.ite
    | with_reducible apply Only.dite
    | with_reducible apply Only.after (fabDrop_only _ _ _)
    | with_reducible apply Only.after (State.setFab_only _ _)
    | with_reducible apply Only.after (fabPut_only _ _)
    | with_reducible apply Only.after (fabUncertain_only _ _ _)
    | with_reducible apply Only.after (fabFail_only _ _ _)
    | with_reducible apply Only.after (fabReport_only _ _ _)
    | intro _
    | split
    | dsimp only

theorem fabArrive_only (requester : BitVec 6) (tag : Byte) (s : State) :
    Only [.now, .drawn, .sys, .fab, .sup, .rcp, .evr, .hp, .ui, .uiBlk, .ao, .aoBlk, .dio, .dioBlk, .ps, .psBlk, .can, .pev, .ann, .grp, .call, .imz, .tim, .lvn, .recd, .mmc, .pnl, .rnd, .age, .tst] s (fabArrive requester tag s) := by
  unfold fabArrive
  repeat' first
    | with_reducible exact Only.refl _ _
    | decide
    | with_reducible apply Only.ite
    | with_reducible apply Only.dite
    | with_reducible apply Only.after (fabServe_only _ _ _ _)
    | intro _
    | split
    | dsimp only

theorem fabResponse_only (requester : BitVec 6) (tag : Byte) (parity : Bool) (s0 : State) :
    Only [.now, .drawn, .sys, .fab, .sup, .rcp, .evr, .hp, .ui, .uiBlk, .ao, .aoBlk, .dio, .dioBlk, .ps, .psBlk, .can, .pev, .ann, .grp, .call, .imz, .tim, .lvn, .recd, .mmc, .pnl, .rnd, .age, .tst] s0 (fabResponse requester tag parity s0) := by
  unfold fabResponse
  repeat' first
    | with_reducible exact Only.refl _ _
    | decide
    | with_reducible apply Only.ite
    | with_reducible apply Only.dite
    | with_reducible apply Only.after (fabArrive_only _ _ _)
    | with_reducible apply Only.after (segCount_only _ _ _)
    | with_reducible apply Only.after (fabHandle_only _ _ _ _)
    | intro _
    | split
    | dsimp only

theorem fabTimeout_only (requester : BitVec 6) (tag : Byte) (s : State) :
    Only [.drawn, .sys, .fab, .rcp, .evr, .ui, .uiBlk, .ao, .aoBlk, .dio, .dioBlk, .ps, .psBlk, .can, .pev, .ann, .call, .imz, .tim, .lvn, .mmc, .pnl, .rnd] s (fabTimeout requester tag s) := by
  unfold fabTimeout
  repeat' first
    | with_reducible exact Only.refl _ _
    | decide
    | with_reducible apply Only.ite
    | with_reducible apply Only.dite
    | with_reducible apply Only.after (segCount_only _ _ _)
    | with_reducible apply Only.after (fabHandle_only _ _ _ _)
    | intro _
    | split
    | dsimp only

theorem fabSeqQuery_only (requester target : BitVec 6) (s : State) :
    Only [.fab] s (fabSeqQuery requester target s) := by
  unfold fabSeqQuery
  repeat' first
    | with_reducible exact Only.refl _ _
    | decide
    | with_reducible apply Only.ite
    | with_reducible apply Only.dite
    | with_reducible apply Only.after (State.setFab_only _ _)
    | intro _
    | split
    | dsimp only

theorem fabBusyEnd_only (requester : BitVec 6) (tag : Byte) (s : State) :
    Only [.fab] s (fabBusyEnd requester tag s) := by
  unfold fabBusyEnd
  repeat' first
    | with_reducible exact Only.refl _ _
    | decide
    | with_reducible apply Only.ite
    | with_reducible apply Only.dite
    | with_reducible apply Only.after (fabPut_only _ _)
    | intro _
    | split
    | dsimp only

theorem transferFailed_only (block : BitVec 6) (cell : Byte) (cause : Nat) (retryOk : Bool) (s : State) :
    Only [.drawn, .sys, .fab, .rcp, .evr, .ui, .uiBlk, .ao, .aoBlk, .dio, .dioBlk, .ps, .psBlk, .can, .pev, .ann, .call, .imz, .tim, .lvn, .mmc, .pnl, .rnd] s (transferFailed block cell cause retryOk s) := by
  unfold transferFailed
  repeat' first
    | with_reducible exact Only.refl _ _
    | decide
    | with_reducible apply Only.ite
    | with_reducible apply Only.dite
    | with_reducible apply Only.foldl
    | with_reducible apply Only.after (slotLost_only _ _)
    | with_reducible apply Only.after (recordFault_only _ _ _ _ _)
    | with_reducible apply Only.after (cellFault_only _ _ _ _)
    | intro _
    | split
    | dsimp only

theorem readmitTest_only (block : BitVec 6) (cell : Byte) (pass : Bool) (s : State) :
    Only [.sys, .evr, .dio, .dioBlk] s (readmitTest block cell pass s) := by
  unfold readmitTest
  repeat' first
    | with_reducible exact Only.refl _ _
    | decide
    | with_reducible apply Only.ite
    | with_reducible apply Only.dite
    | with_reducible apply Only.after (cellReadmit_only _ _ _)
    | intro _
    | split
    | dsimp only

theorem readmitMask_only (block : BitVec 6) (cells : BitVec 16) (s : State) :
    Only [.sys, .evr, .dio, .dioBlk] s (readmitMask block cells s) := by
  unfold readmitMask
  repeat' first
    | with_reducible exact Only.refl _ _
    | decide
    | with_reducible apply Only.ite
    | with_reducible apply Only.dite
    | with_reducible apply Only.foldl
    | with_reducible apply Only.after (cellReadmit_only _ _ _)
    | intro _
    | split
    | dsimp only

theorem lnkReady_only (s : State) :
    Only [.sys, .rcp, .evr, .can] s (lnkReady s) := by
  unfold lnkReady
  repeat' first
    | with_reducible exact Only.refl _ _
    | decide
    | with_reducible apply Only.ite
    | with_reducible apply Only.dite
    | with_reducible apply Only.after (bareSearch_only _ _)
    | with_reducible apply Only.after (canTxReq_only _ _ _ _)
    | with_reducible apply Only.after (canSetMode_only _ _ _)
    | with_reducible apply Only.after (State.setCan_only _ _ _)
    | with_reducible apply Only.after (netLoad_only _)
    | intro _
    | split
    | dsimp only

theorem acqReady_only (s : State) :
    Only [.evr, .ui, .ao, .dio, .dioBlk, .ps] s (acqReady s) := by
  unfold acqReady
  repeat' first
    | with_reducible exact Only.refl _ _
    | decide
    | with_reducible apply Only.ite
    | with_reducible apply Only.dite
    | with_reducible apply Only.foldl
    | with_reducible apply Only.after (uiReady_only _ _)
    | with_reducible apply Only.after (aoReady_only _ _)
    | with_reducible apply Only.after (dioReady_only _ _)
    | with_reducible apply Only.after (psReady_only _ _)
    | intro _
    | split
    | dsimp only

theorem almReady_only (same : Bool) (s : State) :
    Only [.drawn, .rcp, .evr, .can, .pev] s (almReady same s) := by
  unfold almReady
  repeat' first
    | with_reducible exact Only.refl _ _
    | decide
    | with_reducible apply Only.ite
    | with_reducible apply Only.dite
    | with_reducible apply Only.after (swapRetry_only _ _)
    | with_reducible apply Only.set_pev
    | intro _
    | split
    | dsimp only

theorem fceReady_only (s : State) :
    Only [.sys, .hp, .pnl] s (fceReady s) := by
  unfold fceReady
  repeat' first
    | with_reducible exact Only.refl _ _
    | decide
    | with_reducible apply Only.ite
    | with_reducible apply Only.dite
    | with_reducible apply Only.after (pnlPower_only _)
    | with_reducible apply Only.set_hp
    | intro _
    | split
    | dsimp only

theorem regionReady_only (r : Fin 5) (same : Bool) (s : State) :
    Only [.drawn, .sys, .fab, .rcp, .evr, .hp, .ui, .ao, .dio, .dioBlk, .ps, .can, .pev, .mmc, .pnl, .age] s (regionReady r same s) := by
  unfold regionReady
  repeat' first
    | with_reducible exact Only.refl _ _
    | decide
    | with_reducible apply Only.ite
    | with_reducible apply Only.dite
    | with_reducible apply Only.after (State.setRegion_only _ _ _)
    | with_reducible apply Only.after (State.setFab_only _ _)
    | with_reducible apply Only.after (lnkReady_only _)
    | with_reducible apply Only.after (acqReady_only _)
    | with_reducible apply Only.after (almReady_only _ _)
    | with_reducible apply Only.after (fceReady_only _)
    | with_reducible apply Only.after (pnlPower_only _)
    | with_reducible apply Only.after (settingsRetry_only _)
    | intro _
    | split
    | dsimp only

theorem readyLimit_only (r : Fin 5) (s : State) :
    Only [.drawn, .sys, .fab, .rcp, .evr, .ui, .ao, .dio, .dioBlk, .can, .pev, .imz, .lvn, .pnl] s (readyLimit r s) := by
  unfold readyLimit
  repeat' first
    | with_reducible exact Only.refl _ _
    | decide
    | with_reducible apply Only.ite
    | with_reducible apply Only.dite
    | with_reducible apply Only.foldl
    | with_reducible apply Only.after (pointLost_only _ _)
    | with_reducible apply Only.after (fabReport_only _ _ _)
    | with_reducible apply Only.after (moduleFault_only _ _ _ _)
    | intro _
    | split
    | dsimp only

theorem scrubPoint_only (n : Fin 80) (s : State) :
    Only [.evr, .can, .pev, .ann, .imz, .lvn, .recd] s (scrubPoint n s) := by
  unfold scrubPoint
  repeat' first
    | with_reducible exact Only.refl _ _
    | decide
    | with_reducible apply Only.ite
    | with_reducible apply Only.dite
    | with_reducible apply Only.after (slotLost_only _ _)
    | with_reducible apply Only.after (State.setLvn_only _ _)
    | with_reducible apply Only.after (annMemory_only _ _)
    | with_reducible apply Only.after (State.setPt_only _ _ _)
    | intro _
    | split
    | dsimp only

theorem scrubSection_only (sec' : Nat) (s : State) :
    Only [.drawn, .sys, .rcp, .evr, .ui, .ao, .dio, .dioBlk, .can, .pev, .imz, .lvn, .pnl] s (scrubSection sec' s) := by
  unfold scrubSection
  repeat' first
    | with_reducible exact Only.refl _ _
    | decide
    | with_reducible apply Only.ite
    | with_reducible apply Only.dite
    | with_reducible apply Only.after (moduleFault_only _ _ _ _)
    | with_reducible apply Only.set_sys
    | intro _
    | split
    | dsimp only

theorem scrubShadow_only (s : State) :
    Only [.drawn, .rcp, .evr, .can] s (scrubShadow s) := by
  unfold scrubShadow
  repeat' first
    | with_reducible exact Only.refl _ _
    | decide
    | with_reducible apply Only.ite
    | with_reducible apply Only.dite
    | with_reducible apply Only.after (swapAbort_only _)
    | with_reducible apply Only.after (State.setRcp_only _ _)
    | intro _
    | split
    | dsimp only

theorem scrubRecord_only (h : Fin 2) (i : Fin 1024) (s : State) :
    Only [.evr] s (scrubRecord h i s) := by
  unfold scrubRecord
  repeat' first
    | with_reducible exact Only.refl _ _
    | decide
    | with_reducible apply Only.ite
    | with_reducible apply Only.dite
    | with_reducible apply Only.set_evr
    | intro _
    | split
    | dsimp only

theorem scrubStaging_only (i : Nat) (s : State) :
    Only [.evr, .recd] s (scrubStaging i s) := by
  unfold scrubStaging
  repeat' first
    | with_reducible exact Only.refl _ _
    | decide
    | with_reducible apply Only.ite
    | with_reducible apply Only.dite
    | with_reducible apply Only.after (State.setRec_only _ _)
    | with_reducible apply Only.after (recLose_only _ _)
    | intro _
    | split
    | dsimp only

theorem scrubTable_only (node : Half) (s : State) :
    Only [.evr, .can, .imz] s (scrubTable node s) := by
  unfold scrubTable
  repeat' first
    | with_reducible exact Only.refl _ _
    | decide
    | with_reducible apply Only.ite
    | with_reducible apply Only.dite
    | with_reducible apply Only.after (imzStateReq_only _ _)
    | with_reducible apply Only.after (tableStale_only _ _)
    | intro _
    | split
    | dsimp only

theorem scrubError_only (s : State) (e : MemErr) : Only [.drawn, .sys, .rcp, .evr, .ui, .ao, .dio, .dioBlk, .can, .pev, .ann, .imz, .lvn, .recd, .pnl, .rnd] s (scrubError s e) := by
  cases e
  all_goals dsimp only [scrubError]
  · exact Only.mono (scrubPoint_only _ _) (by decide)
  · exact Only.mono (scrubSection_only _ _) (by decide)
  · exact Only.mono (scrubShadow_only _) (by decide)
  · exact Only.mono (scrubRecord_only _ _ _) (by decide)
  · exact Only.mono (scrubStaging_only _ _) (by decide)
  · exact Only.mono (rndRepair_only _ _) (by decide)
  · exact Only.mono (scrubTable_only _ _) (by decide)

theorem scrubPass_only (corrected : Half) (errors : List MemErr) (s : State) :
    Only [.drawn, .sys, .rcp, .evr, .ui, .ao, .dio, .dioBlk, .can, .pev, .ann, .imz, .lvn, .recd, .pnl, .rnd] s (scrubPass corrected errors s) := by
  unfold scrubPass
  repeat' first
    | with_reducible exact Only.refl _ _
    | decide
    | with_reducible apply Only.ite
    | with_reducible apply Only.dite
    | with_reducible apply Only.foldl
    | with_reducible apply Only.after (scrubError_only _ _)
    | with_reducible apply Only.set_sys
    | intro _
    | split
    | dsimp only

theorem execFabricRequest_only (r : FabReq) (queueFull parity waits : Bool) (s : State) :
    ∃ t', execFabricRequest r queueFull parity waits s = .next t' ∧ Only [.now, .drawn, .sys, .fab, .sup, .rcp, .evr, .hp, .ui, .uiBlk, .ao, .aoBlk, .dio, .dioBlk, .ps, .psBlk, .can, .pev, .ann, .grp, .call, .imz, .tim, .lvn, .recd, .mmc, .pnl, .rnd, .age, .tst] s t' := by
  refine ⟨_, rfl, ?_⟩
  repeat' first
    | with_reducible exact Only.refl _ _
    | decide
    | with_reducible apply Only.ite
    | with_reducible apply Only.dite
    | with_reducible apply Only.after (fabRequest_only _ _ _ _ _)
    | intro _
    | split
    | dsimp only

theorem execFabricResponse_only (requester : BitVec 6) (tag : Byte) (parity : Bool) (s : State) :
    ∃ t', execFabricResponse requester tag parity s = .next t' ∧ Only [.now, .drawn, .sys, .fab, .sup, .rcp, .evr, .hp, .ui, .uiBlk, .ao, .aoBlk, .dio, .dioBlk, .ps, .psBlk, .can, .pev, .ann, .grp, .call, .imz, .tim, .lvn, .recd, .mmc, .pnl, .rnd, .age, .tst] s t' := by
  refine ⟨_, rfl, ?_⟩
  repeat' first
    | with_reducible exact Only.refl _ _
    | decide
    | with_reducible apply Only.ite
    | with_reducible apply Only.dite
    | with_reducible apply Only.after (fabResponse_only _ _ _ _)
    | intro _
    | split
    | dsimp only

theorem execFabricTimeout_only (requester : BitVec 6) (tag : Byte) (s : State) :
    ∃ t', execFabricTimeout requester tag s = .next t' ∧ Only [.drawn, .sys, .fab, .rcp, .evr, .ui, .uiBlk, .ao, .aoBlk, .dio, .dioBlk, .ps, .psBlk, .can, .pev, .ann, .call, .imz, .tim, .lvn, .mmc, .pnl, .rnd] s t' := by
  refine ⟨_, rfl, ?_⟩
  repeat' first
    | with_reducible exact Only.refl _ _
    | decide
    | with_reducible apply Only.ite
    | with_reducible apply Only.dite
    | with_reducible apply Only.after (fabTimeout_only _ _ _)
    | intro _
    | split
    | dsimp only

theorem execSeqQuery_only (requester target : BitVec 6) (s : State) :
    ∃ t', execSeqQuery requester target s = .next t' ∧ Only [.fab] s t' := by
  refine ⟨_, rfl, ?_⟩
  repeat' first
    | with_reducible exact Only.refl _ _
    | decide
    | with_reducible apply Only.ite
    | with_reducible apply Only.dite
    | with_reducible apply Only.after (fabSeqQuery_only _ _ _)
    | intro _
    | split
    | dsimp only

theorem execBusyResend_only (requester : BitVec 6) (tag : Byte) (s : State) :
    ∃ t', execBusyResend requester tag s = .next t' ∧ Only [.fab] s t' := by
  refine ⟨_, rfl, ?_⟩
  repeat' first
    | with_reducible exact Only.refl _ _
    | decide
    | with_reducible apply Only.ite
    | with_reducible apply Only.dite
    | with_reducible apply Only.after (fabBusyEnd_only _ _ _)
    | intro _
    | split
    | dsimp only

theorem execGrantHoldOverrun_only (block : BitVec 6) (cell : Byte) (retryOk : Bool) (s : State) :
    ∃ t', execGrantHoldOverrun block cell retryOk s = .next t' ∧ Only [.drawn, .sys, .fab, .rcp, .evr, .ui, .uiBlk, .ao, .aoBlk, .dio, .dioBlk, .ps, .psBlk, .can, .pev, .ann, .call, .imz, .tim, .lvn, .mmc, .pnl, .rnd] s t' := by
  refine ⟨_, rfl, ?_⟩
  repeat' first
    | with_reducible exact Only.refl _ _
    | decide
    | with_reducible apply Only.ite
    | with_reducible apply Only.dite
    | with_reducible apply Only.after (transferFailed_only _ _ _ _ _)
    | intro _
    | split
    | dsimp only

theorem execRequestDeadlineMiss_only (block : BitVec 6) (cell : Byte) (parity retryOk : Bool) (s : State) :
    ∃ t', execRequestDeadlineMiss block cell parity retryOk s = .next t' ∧ Only [.drawn, .sys, .fab, .rcp, .evr, .ui, .uiBlk, .ao, .aoBlk, .dio, .dioBlk, .ps, .psBlk, .can, .pev, .ann, .call, .imz, .tim, .lvn, .mmc, .pnl, .rnd] s t' := by
  refine ⟨_, rfl, ?_⟩
  repeat' first
    | with_reducible exact Only.refl _ _
    | decide
    | with_reducible apply Only.ite
    | with_reducible apply Only.dite
    | with_reducible apply Only.after (transferFailed_only _ _ _ _ _)
    | intro _
    | split
    | dsimp only

theorem execReadmissionTest_only (block : BitVec 6) (cell : Byte) (pass : Bool) (s : State) :
    ∃ t', execReadmissionTest block cell pass s = .next t' ∧ Only [.sys, .evr, .dio, .dioBlk] s t' := by
  refine ⟨_, rfl, ?_⟩
  repeat' first
    | with_reducible exact Only.refl _ _
    | decide
    | with_reducible apply Only.ite
    | with_reducible apply Only.dite
    | with_reducible apply Only.after (readmitTest_only _ _ _ _)
    | intro _
    | split
    | dsimp only

theorem execCellReadmit_only (block : BitVec 6) (cells : BitVec 16) (s : State) :
    ∃ t', execCellReadmit block cells s = .next t' ∧ Only [.sys, .evr, .dio, .dioBlk] s t' := by
  refine ⟨_, rfl, ?_⟩
  repeat' first
    | with_reducible exact Only.refl _ _
    | decide
    | with_reducible apply Only.ite
    | with_reducible apply Only.dite
    | with_reducible apply Only.after (readmitMask_only _ _ _)
    | intro _
    | split
    | dsimp only

theorem execRegionWatchdogExpiry_only (r : Fin 5) (s : State) :
    ∃ t', execRegionWatchdogExpiry r s = .next t' ∧ Only [.drawn, .sys, .fab, .rcp, .evr, .ui, .uiBlk, .ao, .aoBlk, .dio, .dioBlk, .ps, .psBlk, .can, .pev, .ann, .call, .imz, .tim, .lvn, .mmc, .pnl, .rnd] s t' := by
  refine ⟨_, rfl, ?_⟩
  repeat' first
    | with_reducible exact Only.refl _ _
    | decide
    | with_reducible apply Only.ite
    | with_reducible apply Only.dite
    | with_reducible apply Only.after (regionFault_only _ _ _ _ _)
    | intro _
    | split
    | dsimp only

theorem execRegionReady_only (r : Fin 5) (partnerSame : Bool) (s : State) :
    ∃ t', execRegionReady r partnerSame s = .next t' ∧ Only [.drawn, .sys, .fab, .rcp, .evr, .hp, .ui, .ao, .dio, .dioBlk, .ps, .can, .pev, .mmc, .pnl, .age] s t' := by
  refine ⟨_, rfl, ?_⟩
  repeat' first
    | with_reducible exact Only.refl _ _
    | decide
    | with_reducible apply Only.ite
    | with_reducible apply Only.dite
    | with_reducible apply Only.after (regionReady_only _ _ _)
    | intro _
    | split
    | dsimp only

theorem execReadyLimitExpiry_only (r : Fin 5) (s : State) :
    ∃ t', execReadyLimitExpiry r s = .next t' ∧ Only [.drawn, .sys, .fab, .rcp, .evr, .ui, .ao, .dio, .dioBlk, .can, .pev, .imz, .lvn, .pnl] s t' := by
  refine ⟨_, rfl, ?_⟩
  repeat' first
    | with_reducible exact Only.refl _ _
    | decide
    | with_reducible apply Only.ite
    | with_reducible apply Only.dite
    | with_reducible apply Only.after (readyLimit_only _ _)
    | intro _
    | split
    | dsimp only

theorem execSysRgnReset_only (src : Source) (mask : BitVec 5) (s : State) :
    ∃ t', execSysRgnReset src mask s = .next t' ∧ Only [.drawn, .sys, .fab, .rcp, .evr, .ui, .uiBlk, .ao, .aoBlk, .dio, .dioBlk, .ps, .psBlk, .can, .pev, .ann, .call, .tim, .lvn, .mmc, .pnl, .rnd] s t' := by
  refine ⟨_, rfl, ?_⟩
  repeat' first
    | with_reducible exact Only.refl _ _
    | decide
    | with_reducible apply Only.ite
    | with_reducible apply Only.dite
    | with_reducible apply Only.after (rgnRst_only _ _ _ _)
    | intro _
    | split
    | dsimp only

theorem execSysRgnHold_only (src : Source) (mask : BitVec 5) (s : State) :
    ∃ t', execSysRgnHold src mask s = .next t' ∧ Only [.drawn, .sys, .fab, .rcp, .evr, .ui, .uiBlk, .ao, .aoBlk, .dio, .dioBlk, .ps, .psBlk, .can, .pev, .ann, .call, .tim, .lvn, .mmc, .pnl, .rnd] s t' := by
  refine ⟨_, rfl, ?_⟩
  repeat' first
    | with_reducible exact Only.refl _ _
    | decide
    | with_reducible apply Only.ite
    | with_reducible apply Only.dite
    | with_reducible apply Only.after (rgnRst_only _ _ _ _)
    | intro _
    | split
    | dsimp only

theorem execSupervisorWatchdogExpiry_only (s : State) :
    ∃ t', execSupervisorWatchdogExpiry s = .next t' ∧ Only [.drawn, .sys, .rcp, .evr, .ui, .ao, .dio, .dioBlk, .can, .pev, .imz, .lvn, .pnl] s t' := by
  refine ⟨_, rfl, ?_⟩
  repeat' first
    | with_reducible exact Only.refl _ _
    | decide
    | with_reducible apply Only.ite
    | with_reducible apply Only.dite
    | with_reducible apply Only.after (supervisorFault_only _ _ _)
    | intro _
    | split
    | dsimp only

theorem execFabricRootError_only (timeout : Bool) (s : State) :
    ∃ t', execFabricRootError timeout s = .next t' ∧ Only [.drawn, .sys, .rcp, .evr, .ui, .ao, .dio, .dioBlk, .can, .pev, .imz, .lvn, .pnl] s t' := by
  refine ⟨_, rfl, ?_⟩
  repeat' first
    | with_reducible exact Only.refl _ _
    | decide
    | with_reducible apply Only.ite
    | with_reducible apply Only.dite
    | with_reducible apply Only.after (supervisorFault_only _ _ _)
    | intro _
    | split
    | dsimp only

theorem execPllLoss_only (s : State) :
    ∃ t', execPllLoss s = .next t' ∧ Only [.drawn, .sys, .rcp, .evr, .ui, .ao, .dio, .dioBlk, .can, .pev, .imz, .lvn, .pnl] s t' := by
  refine ⟨_, rfl, ?_⟩
  repeat' first
    | with_reducible exact Only.refl _ _
    | decide
    | with_reducible apply Only.ite
    | with_reducible apply Only.dite
    | with_reducible apply Only.after (supervisorFault_only _ _ _)
    | with_reducible apply Only.set_sys
    | intro _
    | split
    | dsimp only

theorem execScrubPass_only (corrected : Half) (errors : List MemErr) (s : State) :
    ∃ t', execScrubPass corrected errors s = .next t' ∧ Only [.drawn, .sys, .rcp, .evr, .ui, .ao, .dio, .dioBlk, .can, .pev, .ann, .imz, .lvn, .recd, .pnl, .rnd] s t' := by
  refine ⟨_, rfl, ?_⟩
  repeat' first
    | with_reducible exact Only.refl _ _
    | decide
    | with_reducible apply Only.ite
    | with_reducible apply Only.dite
    | with_reducible apply Only.after (scrubPass_only _ _ _)
    | intro _
    | split
    | dsimp only

theorem execTestmodeHigh_only (s : State) :
    ∃ t', execTestmodeHigh s = .next t' ∧ Only [.drawn, .sys, .rcp, .evr, .ui, .ao, .dio, .dioBlk, .can, .pev, .imz, .lvn, .pnl] s t' := by
  refine ⟨_, rfl, ?_⟩
  repeat' first
    | with_reducible exact Only.refl _ _
    | decide
    | with_reducible apply Only.ite
    | with_reducible apply Only.dite
    | with_reducible apply Only.after (supervisorFault_only _ _ _)
    | with_reducible apply Only.set_sys
    | intro _
    | split
    | dsimp only

end Sys2Proof.Machine
end

