-- ==== Sys2Proof/Laws/FrameScan.lean ====
section
/-! SUPPORT. Scan: the parts of the state that each operation of Machine/Scan may change. -/
namespace Sys2Proof.Machine

open Sys2Proof

theorem ptRun_only (c : PtCmd) (s : State) :
    Only [.pev] s (ptRun c s).2.2 := by
  unfold ptRun
  repeat' first
    | with_reducible exact Only.refl _ _
    | decide
    | with_reducible apply Only.ite
    | with_reducible apply Only.dite
    | with_reducible apply Only.iteSnd2
    | with_reducible apply Only.after (ptCmdApply_only _ _)
    | intro _
    | split
    | dsimp only

theorem ptService_only (c : PtCmd) (oos : Bool) (s : State) :
    Only [.evr, .can, .pev, .ann, .imz, .recd] s (ptService c oos s) := by
  unfold ptService
  repeat' first
    | with_reducible exact Only.refl _ _
    | decide
    | with_reducible apply Only.ite
    | with_reducible apply Only.dite
    | with_reducible apply Only.after (annService_only _ _ _ _)
    | intro _
    | split
    | dsimp only

theorem ptReport_only (c : PtCmd) (code : Nat) (s : State) :
    Only [.evr, .can, .pev, .imz] s (ptReport c code s) := by
  unfold ptReport
  repeat' first
    | with_reducible exact Only.refl _ _
    | decide
    | with_reducible apply Only.ite
    | with_reducible apply Only.dite
    | with_reducible apply Only.after (answerTo_only _ _ _ _ _)
    | with_reducible apply Only.set_pev
    | intro _
    | split
    | dsimp only

theorem ptReplay_only (c : PtCmd) (s : State) :
    Only [.evr, .can, .pev, .ann, .imz, .recd] s (ptReplay c s).2 := by
  unfold ptReplay
  repeat' first
    | with_reducible exact Only.refl _ _
    | decide
    | with_reducible apply Only.ite
    | with_reducible apply Only.dite
    | with_reducible apply Only.iteSnd
    | with_reducible apply Only.after (ptRun_only _ _)
    | with_reducible apply Only.after (ptService_only _ _ _)
    | with_reducible apply Only.after (ptReport_only _ _ _)
    | intro _
    | split
    | dsimp only

theorem replayAck_only (e : LogCmd) (s : State) :
    Only [.call] s (replayAck e s) := by
  unfold replayAck
  repeat' first
    | with_reducible exact Only.refl _ _
    | decide
    | with_reducible apply Only.ite
    | with_reducible apply Only.dite
    | with_reducible apply Only.after (State.setCall_only _ _)
    | intro _
    | split
    | dsimp only

theorem replayBus_only (e : LogCmd) (s : State) :
    Only [.now, .drawn, .sys, .fab, .sup, .rcp, .evr, .hp, .ui, .uiBlk, .ao, .aoBlk, .dio, .dioBlk, .ps, .psBlk, .can, .pev, .ann, .grp, .call, .imz, .tim, .lvn, .recd, .mmc, .pnl, .rnd, .age, .tst] s (replayBus e s) := by
  unfold replayBus
  repeat' first
    | with_reducible exact Only.refl _ _
    | decide
    | with_reducible apply Only.ite
    | with_reducible apply Only.dite
    | with_reducible apply cmdBody_only
    | with_reducible apply Only.after (cmdRegRead_only _ _)
    | with_reducible apply Only.after (cmdRegWrite_only _ _)
    | with_reducible apply Only.after (cmdAlarm_only _ _ _)
    | with_reducible apply cmdPoint_only
    | with_reducible apply Only.after (ptReplay_only _ _)
    | with_reducible apply Only.after (cmdDuty_only _ _ _)
    | with_reducible apply Only.after (cmdStateReq_only _ _)
    | with_reducible apply Only.after (cmdTimeSet_only _ _)
    | intro _
    | split
    | dsimp only

theorem replayFwd_only (e : LogCmd) (s0 : State) :
    Only [.drawn, .evr, .can, .pev, .ann, .call, .imz, .recd] s0 (replayFwd e s0) := by
  unfold replayFwd
  repeat' first
    | with_reducible exact Only.refl _ _
    | decide
    | with_reducible apply Only.ite
    | with_reducible apply Only.dite
    | with_reducible apply Only.after (State.drew_only _)
    | with_reducible apply Only.after (State.setAnn_only _ _)
    | with_reducible apply Only.after (ptReplay_only _ _)
    | with_reducible apply Only.after (State.setCall_only _ _)
    | intro _
    | split
    | dsimp only

theorem replayOne_only (s : State) (e : LogCmd) :
    Only [.now, .drawn, .sys, .fab, .sup, .rcp, .evr, .hp, .ui, .uiBlk, .ao, .aoBlk, .dio, .dioBlk, .ps, .psBlk, .can, .pev, .ann, .grp, .call, .imz, .tim, .lvn, .recd, .mmc, .pnl, .rnd, .age, .tst] s (replayOne s e) := by
  unfold replayOne
  repeat' first
    | with_reducible exact Only.refl _ _
    | decide
    | with_reducible apply Only.ite
    | with_reducible apply Only.dite
    | with_reducible apply Only.after (replayAck_only _ _)
    | with_reducible apply Only.after (replayBus_only _ _)
    | with_reducible apply Only.after (replayFwd_only _ _)
    | intro _
    | split
    | dsimp only

theorem replayLog_only (s : State) :
    Only [.now, .drawn, .sys, .fab, .sup, .rcp, .evr, .hp, .ui, .uiBlk, .ao, .aoBlk, .dio, .dioBlk, .ps, .psBlk, .can, .pev, .ann, .grp, .call, .imz, .tim, .lvn, .recd, .mmc, .pnl, .rnd, .age, .tst] s (replayLog s) := by
  unfold replayLog
  repeat' first
    | with_reducible exact Only.refl _ _
    | decide
    | with_reducible apply Only.ite
    | with_reducible apply Only.dite
    | with_reducible apply Only.foldl
    | with_reducible apply Only.after (State.setAnn_only _ _)
    | with_reducible apply Only.after (State.setCall_only _ _)
    | with_reducible apply Only.after (replayOne_only _ _)
    | with_reducible apply Only.after (State.setLvn_only _ _)
    | intro _
    | split
    | dsimp only

theorem takeoverSend_only (s : State) :
    Only [.evr, .can, .pev, .ann, .call, .imz, .lvn] s (takeoverSend s) := by
  unfold takeoverSend
  repeat' first
    | with_reducible exact Only.refl _ _
    | decide
    | with_reducible apply Only.ite
    | with_reducible apply Only.dite
    | with_reducible apply Only.foldl
    | with_reducible apply Only.after (imzEntry_only _ _ _)
    | with_reducible apply Only.after (callNewStep_only _ _)
    | with_reducible apply Only.after (State.setLvn_only _ _)
    | intro _
    | split
    | dsimp only

theorem annStep_only (s : State) (c : AnnCmd) :
    Only [.evr, .can, .pev, .ann, .grp, .call, .imz, .recd, .rnd] s (annStep s c) := by
  unfold annStep
  repeat' first
    | with_reducible exact Only.refl _ _
    | decide
    | with_reducible apply Only.ite
    | with_reducible apply Only.dite
    | with_reducible apply Only.after (grpNotice_only _)
    | with_reducible apply Only.after (annCommand_only _ _)
    | intro _
    | split
    | dsimp only

theorem leaveStep_only (p : Option (PtCmd × Nat × Option Bool)) (s : State) :
    Only [.evr, .can, .pev, .ann, .grp, .call, .imz, .recd] s (leaveStep p s) := by
  unfold leaveStep
  repeat' first
    | with_reducible exact Only.refl _ _
    | decide
    | with_reducible apply Only.ite
    | with_reducible apply Only.dite
    | with_reducible apply Only.after (grpNotice_only _)
    | with_reducible apply Only.after (ptService_only _ _ _)
    | intro _
    | split
    | dsimp only

theorem annScan_only (res : List Res) (p : Option (PtCmd × Nat × Option Bool)) (s : State) :
    Only [.evr, .can, .pev, .ann, .grp, .call, .imz, .recd, .rnd] s (annScan res p s) := by
  unfold annScan
  repeat' first
    | with_reducible exact Only.refl _ _
    | decide
    | with_reducible apply Only.ite
    | with_reducible apply Only.dite
    | with_reducible apply Only.foldl
    | with_reducible apply Only.after (ptService_only _ _ _)
    | with_reducible apply Only.after (annResult_only _ _)
    | with_reducible apply Only.after (grpNotice_only _)
    | with_reducible apply Only.after (annShelveEnd_only _ _)
    | with_reducible apply Only.after (annStep_only _ _)
    | with_reducible apply Only.after (State.setAnn_only _ _)
    | with_reducible apply Only.after (leaveStep_only _ _)
    | intro _
    | split
    | dsimp only

theorem aoPost_only (s : State) (c : Fin 4) :
    Only [.drawn, .ao] s (aoPost s c) := by
  unfold aoPost
  repeat' first
    | with_reducible exact Only.refl _ _
    | decide
    | with_reducible apply Only.ite
    | with_reducible apply Only.dite
    | with_reducible apply Only.after (State.setAo_only _ _ _)
    | with_reducible apply Only.after (State.drew_only _)
    | intro _
    | split
    | dsimp only

theorem dioPost_only (s : State) (c : Fin 16) :
    Only [.evr, .dio, .dioBlk] s (dioPost s c) := by
  unfold dioPost
  repeat' first
    | with_reducible exact Only.refl _ _
    | decide
    | with_reducible apply Only.ite
    | with_reducible apply Only.dite
    | with_reducible apply Only.after (dioPostSet_only _ _)
    | with_reducible apply Only.after (dioPostPoint_only _ _ _ _)
    | intro _
    | split
    | dsimp only

theorem outputsOn_only (s : State) :
    Only [.sys, .evr, .dio, .dioBlk] s (outputsOn s) := by
  unfold outputsOn
  repeat' first
    | with_reducible exact Only.refl _ _
    | decide
    | with_reducible apply Only.ite
    | with_reducible apply Only.dite
    | with_reducible apply noted_only
    | with_reducible apply Only.after (dioDriveAll_only _)
    | with_reducible apply Only.after (setOut_only _ _)
    | intro _
    | split
    | dsimp only

theorem scanPost_only (s : State) :
    Only [.drawn, .sys, .evr, .ao, .dio, .dioBlk] s (scanPost s) := by
  unfold scanPost
  repeat' first
    | with_reducible exact Only.refl _ _
    | decide
    | with_reducible apply Only.ite
    | with_reducible apply Only.dite
    | with_reducible apply Only.foldl
    | with_reducible apply Only.after (aoPost_only _ _)
    | with_reducible apply Only.after (dioPost_only _ _)
    | with_reducible apply Only.after (outputsOn_only _)
    | with_reducible apply Only.after (grpPost_only _)
    | intro _
    | split
    | dsimp only

theorem scanBegin_only (start : Nat) (s : State) :
    Only [.pev] s (scanBegin start s) := by
  unfold scanBegin
  repeat' first
    | with_reducible exact Only.refl _ _
    | decide
    | with_reducible apply Only.ite
    | with_reducible apply Only.dite
    | with_reducible apply Only.set_pev
    | intro _
    | split
    | dsimp only

theorem firstScan_only (s : State) :
    Only [.sys] s (firstScan s) := by
  unfold firstScan
  repeat' first
    | with_reducible exact Only.refl _ _
    | decide
    | with_reducible apply Only.ite
    | with_reducible apply Only.dite
    | with_reducible apply Only.set_sys
    | intro _
    | split
    | dsimp only

theorem firstDuty_only (s : State) :
    Only [.evr, .can, .call, .imz, .lvn] s (firstDuty s) := by
  unfold firstDuty
  repeat' first
    | with_reducible exact Only.refl _ _
    | decide
    | with_reducible apply Only.ite
    | with_reducible apply Only.dite
    | with_reducible apply Only.after (dutyAtStart_only _)
    | intro _
    | split
    | dsimp only

theorem firstEnd_only (s : State) :
    Only [.drawn, .sys, .pnl, .rnd] s (firstEnd s) := by
  unfold firstEnd
  repeat' first
    | with_reducible exact Only.refl _ _
    | decide
    | with_reducible apply Only.ite
    | with_reducible apply Only.dite
    | with_reducible apply Only.after (rndFull_only _)
    | with_reducible apply Only.set_sys
    | intro _
    | split
    | dsimp only

theorem dioFresh_only (s : State) :
    Only [.dio] s (dioFresh s) := by
  unfold dioFresh
  repeat' first
    | with_reducible exact Only.refl _ _
    | decide
    | with_reducible apply Only.ite
    | with_reducible apply Only.dite
    | with_reducible apply Only.set_dio
    | intro _
    | split
    | dsimp only

theorem scanSnap_only (start : Nat) (s : State) :
    Only [.evr, .dio, .ps] s (scanSnap start s) := by
  unfold scanSnap
  repeat' first
    | with_reducible exact Only.refl _ _
    | decide
    | with_reducible apply Only.ite
    | with_reducible apply Only.dite
    | with_reducible apply Only.after (dioFresh_only _)
    | with_reducible apply Only.after (psSnapshot_only _ _)
    | intro _
    | split
    | dsimp only

theorem scanBeat_only (s : State) :
    Only [.evr, .can, .imz] s (scanBeat s) := by
  unfold scanBeat
  repeat' first
    | with_reducible exact Only.refl _ _
    | decide
    | with_reducible apply Only.ite
    | with_reducible apply Only.dite
    | with_reducible apply Only.after (imzBeat_only _ _ _)
    | with_reducible apply Only.after (State.setImz_only _ _)
    | intro _
    | split
    | dsimp only

theorem scanMark_only (s : State) :
    Only [.pev] s (scanMark s) := by
  unfold scanMark
  repeat' first
    | with_reducible exact Only.refl _ _
    | decide
    | with_reducible apply Only.ite
    | with_reducible apply Only.dite
    | with_reducible apply Only.set_pev
    | intro _
    | split
    | dsimp only

theorem scanMarks_only (s : State) :
    Only [.lvn] s (scanMarks s) := by
  unfold scanMarks
  repeat' first
    | with_reducible exact Only.refl _ _
    | decide
    | with_reducible apply Only.ite
    | with_reducible apply Only.dite
    | with_reducible apply Only.after (State.setLvn_only _ _)
    | intro _
    | split
    | dsimp only

theorem scanRun_only (s : State) :
    Only [.now, .drawn, .sys, .fab, .sup, .rcp, .evr, .hp, .ui, .uiBlk, .ao, .aoBlk, .dio, .dioBlk, .ps, .psBlk, .can, .pev, .ann, .grp, .call, .imz, .tim, .lvn, .recd, .mmc, .pnl, .rnd, .age, .tst] s (scanRun s) := by
  unfold scanRun
  extract_lets s1 p s2 done _ e s3 s4 s5 s6
  have h1 : Only [.now, .drawn, .sys, .fab, .sup, .rcp, .evr, .hp, .ui, .uiBlk, .ao, .aoBlk, .dio, .dioBlk, .ps, .psBlk, .can, .pev, .ann, .grp, .call, .imz, .tim, .lvn, .recd, .mmc, .pnl, .rnd, .age, .tst] s s1 := Only.ite ((replayLog_only _).mono (by decide)) (Only.refl _ _)
  have h2 : Only [.now, .drawn, .sys, .fab, .sup, .rcp, .evr, .hp, .ui, .uiBlk, .ao, .aoBlk, .dio, .dioBlk, .ps, .psBlk, .can, .pev, .ann, .grp, .call, .imz, .tim, .lvn, .recd, .mmc, .pnl, .rnd, .age, .tst] s s2 := by
    unfold s2 p
    cases s1.pev.cmd with
    | none => exact h1
    | some c => exact Only.after (ptRun_only c s1) (by decide) h1
  clear_value s1 p s2 done
  have h3 : Only [.now, .drawn, .sys, .fab, .sup, .rcp, .evr, .hp, .ui, .uiBlk, .ao, .aoBlk, .dio, .dioBlk, .ps, .psBlk, .can, .pev, .ann, .grp, .call, .imz, .tim, .lvn, .recd, .mmc, .pnl, .rnd, .age, .tst] s e.1 :=
    Only.after (phaseE_only _) (by decide) (Only.after (pevPhases_only _) (by decide) (Only.set_pev h2 (by decide)))
  clear_value e
  have h4 : Only [.now, .drawn, .sys, .fab, .sup, .rcp, .evr, .hp, .ui, .uiBlk, .ao, .aoBlk, .dio, .dioBlk, .ps, .psBlk, .can, .pev, .ann, .grp, .call, .imz, .tim, .lvn, .recd, .mmc, .pnl, .rnd, .age, .tst] s s3 :=
    Only.after (annScan_only _ _ _) (by decide) (Only.after (scanMark_only _) (by decide) h3)
  clear_value s3
  have h5 : Only [.now, .drawn, .sys, .fab, .sup, .rcp, .evr, .hp, .ui, .uiBlk, .ao, .aoBlk, .dio, .dioBlk, .ps, .psBlk, .can, .pev, .ann, .grp, .call, .imz, .tim, .lvn, .recd, .mmc, .pnl, .rnd, .age, .tst] s s4 := by
    unfold s4
    split
    · exact Only.after (ptReport_only _ _ _) (by decide) h4
    · exact h4
  clear_value s4
  have h6 : Only [.now, .drawn, .sys, .fab, .sup, .rcp, .evr, .hp, .ui, .uiBlk, .ao, .aoBlk, .dio, .dioBlk, .ps, .psBlk, .can, .pev, .ann, .grp, .call, .imz, .tim, .lvn, .recd, .mmc, .pnl, .rnd, .age, .tst] s s5 := Only.after (sliceScanEnd_only _) (by decide)
    (Only.after (callScanEnd_only _) (by decide) (Only.after (firstDuty_only _) (by decide)
      (Only.after (grpScanEnd_only _) (by decide) h5)))
  clear_value s5
  have h7 : Only [.now, .drawn, .sys, .fab, .sup, .rcp, .evr, .hp, .ui, .uiBlk, .ao, .aoBlk, .dio, .dioBlk, .ps, .psBlk, .can, .pev, .ann, .grp, .call, .imz, .tim, .lvn, .recd, .mmc, .pnl, .rnd, .age, .tst] s s6 := Only.after (tablePost_only _) (by decide)
    (Only.after (scanMarks_only _) (by decide) (Only.after (scanPost_only _) (by decide) h6))
  clear_value s6
  exact Only.after (firstEnd_only _) (by decide) (Only.ite (Only.after (takeoverSend_only _) (by decide) h7) h7)

theorem scan_only (dur : Half) (s : State) :
    Only [.now, .drawn, .sys, .fab, .sup, .rcp, .evr, .hp, .ui, .uiBlk, .ao, .aoBlk, .dio, .dioBlk, .ps, .psBlk, .can, .pev, .ann, .grp, .call, .imz, .tim, .lvn, .recd, .mmc, .pnl, .rnd, .age, .tst] s (scan dur s) := by
  unfold scan
  repeat' first
    | with_reducible exact Only.refl _ _
    | decide
    | with_reducible apply Only.ite
    | with_reducible apply Only.dite
    | with_reducible apply Only.after (scanBeat_only _)
    | with_reducible apply Only.after (scanSnap_only _ _)
    | with_reducible apply Only.after (scanRun_only _)
    | with_reducible apply Only.after (firstScan_only _)
    | with_reducible apply Only.after (scanBegin_only _ _)
    | with_reducible apply Only.set_pev
    | intro _
    | split
    | dsimp only

theorem execScanStart_only (dur : Half) (s : State) :
    ∃ t', execScanStart dur s = .next t' ∧ Only [.now, .drawn, .sys, .fab, .sup, .rcp, .evr, .hp, .ui, .uiBlk, .ao, .aoBlk, .dio, .dioBlk, .ps, .psBlk, .can, .pev, .ann, .grp, .call, .imz, .tim, .lvn, .recd, .mmc, .pnl, .rnd, .age, .tst] s t' := by
  refine ⟨_, rfl, ?_⟩
  repeat' first
    | with_reducible exact Only.refl _ _
    | decide
    | with_reducible apply Only.ite
    | with_reducible apply Only.dite
    | with_reducible apply Only.after (scan_only _ _)
    | intro _
    | split
    | dsimp only

end Sys2Proof.Machine
end

