-- ==== Sys2Proof/Laws/Table.lean ====
section
/-! SUPPORT. Table: reads after writes of the sparse tables, and the canonical form that every operation on them and on the
byte memories keeps. -/
namespace Sys2Proof.Machine

open Sys2Proof

/-! ### Reads after writes -/

theorem tblGet_tblIns_self {α : Type} (d : α) (t : List (Nat × α)) (k : Nat) (v : α) : tblGet d (tblIns t k v) k = v := by
  induction t with
  | nil => simp [tblIns, tblGet]
  | cons p t ih =>
    unfold tblIns
    split
    · simp [tblGet]
    · split
      · simp [tblGet]
      · next h => simp [tblGet, ih, Ne.symm h]

theorem tblGet_tblIns_other {α : Type} (d : α) (t : List (Nat × α)) (k j : Nat) (v : α) (h : j ≠ k) :
    tblGet d (tblIns t k v) j = tblGet d t j := by
  induction t with
  | nil => simp [tblIns, tblGet, Ne.symm h]
  | cons p t ih =>
    unfold tblIns
    split
    · simp [tblGet, Ne.symm h]
    · split
      · next e => simp [tblGet, Ne.symm h, ← e]
      · simp [tblGet, ih]

theorem tblGet_tblDel_other {α : Type} (d : α) (t : List (Nat × α)) (k j : Nat) (h : j ≠ k) :
    tblGet d (tblDel t k) j = tblGet d t j := by
  induction t with
  | nil => rfl
  | cons p t ih =>
    unfold tblDel
    split
    · next e => simp [tblGet, e, Ne.symm h]
    · simp [tblGet, ih]

/-! ### The canonical form -/

theorem tblWfFrom_iff {α : Type} [DecidableEq α] (d : α) (t : List (Nat × α)) (lo : Option Nat) :
    tblWfFrom d lo t = true ↔
      (∀ j, lo = some j → ∀ p ∈ t, j < p.1) ∧ t.Pairwise (fun p q => p.1 < q.1) ∧ ∀ p ∈ t, p.2 ≠ d := by
  induction t generalizing lo with
  | nil => simp [tblWfFrom]
  | cons p t ih =>
    obtain ⟨k, v⟩ := p
    simp only [tblWfFrom, Bool.and_eq_true, ih, decide_eq_true_eq, List.mem_cons, forall_eq_or_imp, List.pairwise_cons,
      Option.some.injEq]
    constructor
    · rintro ⟨⟨h1, h2⟩, h3, h4, h5⟩
      refine ⟨fun j hj => ?_, ⟨h3 k rfl, h4⟩, h2, h5⟩
      subst hj
      have hk : j < k := by simpa using h1
      exact ⟨hk, fun p hp => Nat.lt_trans hk (h3 k rfl p hp)⟩
    · rintro ⟨h1, ⟨h2, h3⟩, h4, h5⟩
      refine ⟨⟨?_, h4⟩, fun j hj => hj ▸ h2, h3, h5⟩
      cases lo with
      | none => rfl
      | some j => simpa using (h1 j rfl).1

/-- The canonical form, said of the list: keys rise strictly, and no entry is the default. -/
theorem tblWf_iff {α : Type} [DecidableEq α] (d : α) (t : List (Nat × α)) :
    tblWf d t = true ↔ t.Pairwise (fun p q => p.1 < q.1) ∧ ∀ p ∈ t, p.2 ≠ d := by
  simp [tblWf, tblWfFrom_iff]

theorem tblWf_filter {α : Type} [DecidableEq α] (d : α) (t : List (Nat × α)) (f : Nat × α → Bool) (h : tblWf d t = true) :
    tblWf d (t.filter f) = true := by
  rw [tblWf_iff] at *
  exact ⟨h.1.filter f, fun p hp => h.2 p (List.mem_filter.mp hp).1⟩

theorem mem_tblDel {α : Type} (t : List (Nat × α)) (k : Nat) (p : Nat × α) (h : p ∈ tblDel t k) : p ∈ t := by
  induction t with
  | nil => exact h
  | cons q t ih =>
    unfold tblDel at h
    split at h
    · exact List.mem_cons_of_mem _ h
    · rcases List.mem_cons.mp h with rfl | g
      · exact List.mem_cons_self
      · exact List.mem_cons_of_mem _ (ih g)

theorem mem_tblIns {α : Type} (t : List (Nat × α)) (k : Nat) (v : α) (p : Nat × α) (h : p ∈ tblIns t k v) :
    p = (k, v) ∨ p ∈ t := by
  induction t with
  | nil => exact .inl (List.mem_singleton.mp h)
  | cons q t ih =>
    unfold tblIns at h
    split at h
    · exact List.mem_cons.mp h
    · split at h
      · rcases List.mem_cons.mp h with g | g
        · exact .inl g
        · exact .inr (List.mem_cons_of_mem _ g)
      · rcases List.mem_cons.mp h with rfl | g
        · exact .inr List.mem_cons_self
        · exact (ih g).imp id (List.mem_cons_of_mem _)

theorem tblWf_tblDel {α : Type} [DecidableEq α] (d : α) (t : List (Nat × α)) (k : Nat) (h : tblWf d t = true) :
    tblWf d (tblDel t k) = true := by
  rw [tblWf_iff] at *
  refine ⟨?_, fun p hp => h.2 p (mem_tblDel t k p hp)⟩
  have h1 := h.1
  clear h
  induction t with
  | nil => exact List.Pairwise.nil
  | cons q t ih =>
    unfold tblDel
    obtain ⟨a, b⟩ := List.pairwise_cons.mp h1
    split
    · exact b
    · exact List.pairwise_cons.mpr ⟨fun p hp => a p (mem_tblDel t k p hp), ih b⟩

theorem tblWf_tblIns {α : Type} [DecidableEq α] (d : α) (t : List (Nat × α)) (k : Nat) (v : α) (n : v ≠ d)
    (h : tblWf d t = true) : tblWf d (tblIns t k v) = true := by
  rw [tblWf_iff] at *
  refine ⟨?_, fun p hp => (mem_tblIns t k v p hp).elim (fun e => e ▸ n) (h.2 p)⟩
  have h1 := h.1
  clear h
  induction t with
  | nil => exact List.pairwise_singleton _ _
  | cons q t ih =>
    obtain ⟨a, b⟩ := List.pairwise_cons.mp h1
    unfold tblIns
    split
    · next g =>
      refine List.pairwise_cons.mpr ⟨fun p hp => ?_, h1⟩
      rcases List.mem_cons.mp hp with rfl | e
      · exact g
      · exact Nat.lt_trans g (a p e)
    · split
      · next e => exact List.pairwise_cons.mpr ⟨fun p hp => e ▸ a p hp, b⟩
      · refine List.pairwise_cons.mpr ⟨fun p hp => ?_, ih b⟩
        rcases mem_tblIns t k v p hp with rfl | e
        · omega
        · exact a p e

/-- A stored value keeps the canonical form, the default among them. -/
theorem tblWf_tblPut {α : Type} [DecidableEq α] (d : α) (t : List (Nat × α)) (k : Nat) (v : α) (h : tblWf d t = true) :
    tblWf d (tblPut d t k v) = true := by
  unfold tblPut
  split
  · exact tblWf_tblDel d t k h
  · next n => exact tblWf_tblIns d t k v n h

theorem tblGet_tblPut_other {α : Type} [DecidableEq α] (d : α) (t : List (Nat × α)) (k j : Nat) (v : α) (h : j ≠ k) :
    tblGet d (tblPut d t k v) j = tblGet d t j := by
  unfold tblPut
  split
  · exact tblGet_tblDel_other d t k j h
  · exact tblGet_tblIns_other d t k j v h

/-- A read finds no entry where the table lists none. -/
theorem tblGet_none {α : Type} (d : α) (t : List (Nat × α)) (k : Nat) (h : ∀ p ∈ t, p.1 ≠ k) : tblGet d t k = d := by
  induction t with
  | nil => rfl
  | cons p t ih =>
    simp only [tblGet, if_neg (h p List.mem_cons_self)]
    exact ih fun q hq => h q (List.mem_cons_of_mem _ hq)

theorem tblGet_tblPut_self {α : Type} [DecidableEq α] (d : α) (t : List (Nat × α)) (k : Nat) (v : α) (h : tblWf d t = true) :
    tblGet d (tblPut d t k v) k = v := by
  unfold tblPut
  split
  · next e =>
    rw [e]
    apply tblGet_none
    rw [tblWf_iff] at h
    have h1 := h.1
    clear h e
    induction t with
    | nil => intro p hp; cases hp
    | cons q t ih =>
      obtain ⟨a, b⟩ := List.pairwise_cons.mp h1
      unfold tblDel
      split
      · next e => intro p hp; have := a p hp; omega
      · next n =>
        intro p hp
        rcases List.mem_cons.mp hp with rfl | g
        · exact n
        · exact ih b p g
  · exact tblGet_tblIns_self d t k v

/-! ### The byte memories -/

theorem Memory.wf_nil : Memory.wf [] = true := rfl

theorem Memory.wf_memPut (m : Memory) (a : Nat) (b : Byte) (h : Memory.wf m = true) : Memory.wf (memPut m a b) = true :=
  tblWf_tblPut 0 m a b h

theorem Memory.wf_memFill (m : Memory) (a : Nat) (l : List Byte) (h : Memory.wf m = true) :
    Memory.wf (memFill m a l) = true := by
  induction l generalizing m a with
  | nil => exact h
  | cons b l ih => exact ih _ _ (Memory.wf_memPut m a b h)

theorem Memory.wf_filter (m : Memory) (f : Nat × Byte → Bool) (h : Memory.wf m = true) : Memory.wf (m.filter f) = true :=
  tblWf_filter 0 m f h

theorem Memory.wf_memZero (m : Memory) (a n : Nat) (h : Memory.wf m = true) : Memory.wf (memZero m a n) = true :=
  Memory.wf_filter m _ h

theorem Memory.wf_memWindow (m : Memory) (a n : Nat) (h : Memory.wf m = true) : Memory.wf (memWindow m a n) = true := by
  have h := Memory.wf_filter m (fun p => a ≤ p.1 && p.1 < a + n) h
  unfold memWindow
  rw [tblWf_iff] at *
  constructor
  · refine List.pairwise_map.mpr (h.1.imp_of_mem ?_)
    intro p q hp hq g
    have := (List.mem_filter.mp hp).2
    have := (List.mem_filter.mp hq).2
    simp only [Bool.and_eq_true, decide_eq_true_eq] at *
    omega
  · intro p hp
    obtain ⟨q, hq, rfl⟩ := List.mem_map.mp hp
    exact h.2 q hq

theorem Memory.wf_memCopyIn (m : Memory) (a n : Nat) (src : Memory) (h : Memory.wf m = true) (k : Memory.wf src = true) :
    Memory.wf (memCopyIn m a n src) = true := by
  unfold memCopyIn
  rw [tblWf_iff] at *
  constructor
  · refine List.pairwise_append.mpr ⟨List.pairwise_append.mpr ⟨h.1.filter _, ?_, ?_⟩, h.1.filter _, ?_⟩
    · exact List.pairwise_map.mpr ((k.1.filter _).imp fun g => Nat.add_lt_add_right g a)
    · intro p hp q hq
      obtain ⟨r, hr, rfl⟩ := List.mem_map.mp hq
      have := (List.mem_filter.mp hp).2
      simp only [decide_eq_true_eq] at *
      omega
    · intro p hp q hq
      have e := (List.mem_filter.mp hq).2
      simp only [decide_eq_true_eq] at e
      rcases List.mem_append.mp hp with g | g
      · have := (List.mem_filter.mp g).2
        simp only [decide_eq_true_eq] at this
        omega
      · obtain ⟨r, hr, rfl⟩ := List.mem_map.mp g
        have := (List.mem_filter.mp hr).2
        simp only [decide_eq_true_eq] at *
        omega
  · intro p hp
    rcases List.mem_append.mp hp with g | g
    · rcases List.mem_append.mp g with g | g
      · exact h.2 p (List.mem_filter.mp g).1
      · obtain ⟨r, hr, rfl⟩ := List.mem_map.mp g
        exact k.2 r (List.mem_filter.mp hr).1
    · exact h.2 p (List.mem_filter.mp g).1

theorem Memory.wf_foldl_memPut {α : Type} (l : List α) (m : Memory) (f : α → Nat) (g : α → Byte) (h : Memory.wf m = true) :
    Memory.wf (l.foldl (fun m x => memPut m (f x) (g x)) m) = true := by
  induction l generalizing m with
  | nil => exact h
  | cons x l ih => exact ih _ (Memory.wf_memPut m _ _ h)

/-- A byte outside the stored ones reads as before. -/
theorem memGet_memFill_other (m : Memory) (a j : Nat) (l : List Byte) (h : j < a ∨ a + l.length ≤ j) :
    memGet (memFill m a l) j = memGet m j := by
  induction l generalizing m a with
  | nil => rfl
  | cons b l ih =>
    simp only [List.length_cons] at h
    simp only [memFill]
    rw [ih _ _ (by omega)]
    exact tblGet_tblPut_other 0 m a j b (by omega)

end Sys2Proof.Machine
end

