-- ==== Sys2Proof/Laws/Keep.lean ====
section
/-! SUPPORT. Keep: how the canonical form of every memory is kept by each way in which the model updates the state. -/
namespace Sys2Proof.Machine

open Sys2Proof

/-- The recipes and their buffers. -/
def RcpWf (x : Rcp) : Prop := (∀ i : Fin 2, RecipeWf x.recipes[i]) ∧ Memory.wf x.block0 = true ∧ Memory.wf x.buf = true
/-- The HART buffers of a loop output. -/
def AoWf (x : Ao) : Prop := Memory.wf x.tx = true ∧ Memory.wf x.rx = true
/-- A controller's message RAM. -/
def CanWf (x : Can) : Prop := Memory.wf x.ram = true
/-- The page that REC_XFER gathers. -/
def ImzWf (x : Imz) : Prop := Memory.wf x.xferIn = true
/-- The framebuffer's planes and the targets of running slots. -/
def PnlWf (x : Pnl) : Prop :=
  Memory.wf x.cur = true ∧ Memory.wf x.prev = true ∧ ∀ k ∈ x.slots, Memory.wf k.target = true
/-- The eMMC's sectors. -/
def MmcWf (x : Mmc) : Prop := tblWf zeroSector x.user = true

theorem MemWf.of {s : State} (h : RcpWf s.rcp) (a : ∀ c : Fin 4, AoWf s.ao[c]) (b : ∀ k : Fin 4, CanWf s.can[k])
    (z : ImzWf s.imz) (p : PnlWf s.pnl) (m : MmcWf s.mmc) : MemWf s :=
  ⟨h.1, h.2.1, h.2.2, fun c => (a c).1, fun c => (a c).2, b, z, p.1, p.2.1, p.2.2, m⟩

theorem MemWf.rcp {s : State} (h : MemWf s) : RcpWf s.rcp := ⟨h.recipes, h.block0, h.buf⟩
theorem MemWf.ao {s : State} (h : MemWf s) (c : Fin 4) : AoWf s.ao[c] := ⟨h.tx c, h.rx c⟩
theorem MemWf.can {s : State} (h : MemWf s) (k : Fin 4) : CanWf s.can[k] := h.ram k
theorem MemWf.imz {s : State} (h : MemWf s) : ImzWf s.imz := h.xferIn
theorem MemWf.pnl {s : State} (h : MemWf s) : PnlWf s.pnl := ⟨h.cur, h.prev, h.targets⟩
theorem MemWf.mmc {s : State} (h : MemWf s) : MmcWf s.mmc := h.user

/-- No part of the list holds a memory. -/
abbrev memFree (l : List Part) : Bool := !([.rcp, .ao, .can, .imz, .pnl, .mmc] : List Part).any l.contains

theorem Only.keeps {l : List Part} {s t : State} (h : Only l s t) (k : memFree l = true) (w : MemWf s) : MemWf t := by
  simp only [memFree, List.any_cons, List.any_nil, Bool.or_false, Bool.not_eq_true', Bool.or_eq_false_iff] at k
  have e1 : t.rcp = s.rcp := h.same .rcp k.1
  have e2 : t.ao = s.ao := h.same .ao k.2.1
  have e3 : t.can = s.can := h.same .can k.2.2.1
  have e4 : t.imz = s.imz := h.same .imz k.2.2.2.1
  have e5 : t.pnl = s.pnl := h.same .pnl k.2.2.2.2.1
  have e6 : t.mmc = s.mmc := h.same .mmc k.2.2.2.2.2
  exact .of (e1 ▸ w.rcp) (e2 ▸ w.ao) (e3 ▸ w.can) (e4 ▸ w.imz) (e5 ▸ w.pnl) (e6 ▸ w.mmc)

theorem MemWf.ite {c : Prop} [Decidable c] {s t : State} (h : MemWf s) (k : MemWf t) : MemWf (if c then s else t) := by
  split <;> assumption

theorem MemWf.dite {c : Prop} [Decidable c] {f : c → State} {g : ¬c → State} (h : ∀ x, MemWf (f x)) (k : ∀ x, MemWf (g x)) :
    MemWf (if x : c then f x else g x) := by
  split
  · exact h _
  · exact k _

theorem MemWf.iteSnd {α : Type} {c : Prop} [Decidable c] {p q : α × State} (h : MemWf p.2) (k : MemWf q.2) :
    MemWf (if c then p else q).2 := by split <;> assumption

theorem MemWf.iteSnd2 {α β : Type} {c : Prop} [Decidable c] {p q : α × β × State} (h : MemWf p.2.2) (k : MemWf q.2.2) :
    MemWf (if c then p else q).2.2 := by split <;> assumption

theorem MemWf.foldl {α : Type} {t : State} {g : State → α → State} {xs : List α} (h : ∀ u x, MemWf u → MemWf (g u x))
    (k : MemWf t) : MemWf (xs.foldl g t) := by
  induction xs generalizing t with
  | nil => exact k
  | cons x xs ih => exact ih (h t x k)

theorem MemWf.foldl_mem {α : Type} {t : State} {g : State → α → State} {xs : List α}
    (h : ∀ u, ∀ x ∈ xs, MemWf u → MemWf (g u x)) (k : MemWf t) : MemWf (xs.foldl g t) := by
  induction xs generalizing t with
  | nil => exact k
  | cons x xs ih =>
    exact ih (fun u y hy => h u y (List.mem_cons_of_mem _ hy)) (h t x List.mem_cons_self k)

/-! ### Updates of a part without a memory -/

theorem MemWf.set_age {t : State} {x0 : Age} (h : MemWf t) :
    MemWf { t with age := x0 } := .of h.rcp h.ao h.can h.imz h.pnl h.mmc
theorem MemWf.set_ann {t : State} {x0 : Ann} (h : MemWf t) :
    MemWf { t with ann := x0 } := .of h.rcp h.ao h.can h.imz h.pnl h.mmc
theorem MemWf.set_aoBlk {t : State} {x0 : AoBlk} (h : MemWf t) :
    MemWf { t with aoBlk := x0 } := .of h.rcp h.ao h.can h.imz h.pnl h.mmc
theorem MemWf.set_call {t : State} {x0 : Call} (h : MemWf t) :
    MemWf { t with call := x0 } := .of h.rcp h.ao h.can h.imz h.pnl h.mmc
theorem MemWf.set_dio {t : State} {x0 : Vector Dio 16} (h : MemWf t) :
    MemWf { t with dio := x0 } := .of h.rcp h.ao h.can h.imz h.pnl h.mmc
theorem MemWf.set_dioBlk {t : State} {x0 : DioBlk} (h : MemWf t) :
    MemWf { t with dioBlk := x0 } := .of h.rcp h.ao h.can h.imz h.pnl h.mmc
theorem MemWf.set_drawn {t : State} {x0 : Nat} (h : MemWf t) :
    MemWf { t with drawn := x0 } := .of h.rcp h.ao h.can h.imz h.pnl h.mmc
theorem MemWf.set_evr {t : State} {x0 : Evr} (h : MemWf t) :
    MemWf { t with evr := x0 } := .of h.rcp h.ao h.can h.imz h.pnl h.mmc
theorem MemWf.set_fab {t : State} {x0 : Fabric} (h : MemWf t) :
    MemWf { t with fab := x0 } := .of h.rcp h.ao h.can h.imz h.pnl h.mmc
theorem MemWf.set_grp {t : State} {x0 : GrpBlk} (h : MemWf t) :
    MemWf { t with grp := x0 } := .of h.rcp h.ao h.can h.imz h.pnl h.mmc
theorem MemWf.set_hp {t : State} {x0 : Vector HostPort 2} (h : MemWf t) :
    MemWf { t with hp := x0 } := .of h.rcp h.ao h.can h.imz h.pnl h.mmc
theorem MemWf.set_lvn {t : State} {x0 : Lvn} (h : MemWf t) :
    MemWf { t with lvn := x0 } := .of h.rcp h.ao h.can h.imz h.pnl h.mmc
theorem MemWf.set_pev {t : State} {x0 : Pev} (h : MemWf t) :
    MemWf { t with pev := x0 } := .of h.rcp h.ao h.can h.imz h.pnl h.mmc
theorem MemWf.set_ps {t : State} {x0 : Vector Ps 2} (h : MemWf t) :
    MemWf { t with ps := x0 } := .of h.rcp h.ao h.can h.imz h.pnl h.mmc
theorem MemWf.set_psBlk {t : State} {x0 : PsBlk} (h : MemWf t) :
    MemWf { t with psBlk := x0 } := .of h.rcp h.ao h.can h.imz h.pnl h.mmc
theorem MemWf.set_recd {t : State} {x0 : Rec} (h : MemWf t) :
    MemWf { t with recd := x0 } := .of h.rcp h.ao h.can h.imz h.pnl h.mmc
theorem MemWf.set_rnd {t : State} {x0 : Rnd} (h : MemWf t) :
    MemWf { t with rnd := x0 } := .of h.rcp h.ao h.can h.imz h.pnl h.mmc
theorem MemWf.set_sup {t : State} {x0 : Supply} (h : MemWf t) :
    MemWf { t with sup := x0 } := .of h.rcp h.ao h.can h.imz h.pnl h.mmc
theorem MemWf.set_sys {t : State} {x0 : Sys} (h : MemWf t) :
    MemWf { t with sys := x0 } := .of h.rcp h.ao h.can h.imz h.pnl h.mmc
theorem MemWf.set_tim {t : State} {x0 : Tim} (h : MemWf t) :
    MemWf { t with tim := x0 } := .of h.rcp h.ao h.can h.imz h.pnl h.mmc
theorem MemWf.set_tst {t : State} {x0 : Tst} (h : MemWf t) :
    MemWf { t with tst := x0 } := .of h.rcp h.ao h.can h.imz h.pnl h.mmc
theorem MemWf.set_ui {t : State} {x0 : Vector Ui 16} (h : MemWf t) :
    MemWf { t with ui := x0 } := .of h.rcp h.ao h.can h.imz h.pnl h.mmc
theorem MemWf.set_uiBlk {t : State} {x0 : UiBlk} (h : MemWf t) :
    MemWf { t with uiBlk := x0 } := .of h.rcp h.ao h.can h.imz h.pnl h.mmc
theorem MemWf.set_mono_tim {t : State} {x0 : Nat} {x1 : Tim} (h : MemWf t) :
    MemWf { t with mono := x0, tim := x1 } := .of h.rcp h.ao h.can h.imz h.pnl h.mmc
theorem MemWf.set_now_mono {t : State} {x0 : Nat} {x1 : Nat} (h : MemWf t) :
    MemWf { t with now := x0, mono := x1 } := .of h.rcp h.ao h.can h.imz h.pnl h.mmc
theorem MemWf.set_sys_fab {t : State} {x0 : Sys} {x1 : Fabric} (h : MemWf t) :
    MemWf { t with sys := x0, fab := x1 } := .of h.rcp h.ao h.can h.imz h.pnl h.mmc
theorem MemWf.set_sys_pev {t : State} {x0 : Sys} {x1 : Pev} (h : MemWf t) :
    MemWf { t with sys := x0, pev := x1 } := .of h.rcp h.ao h.can h.imz h.pnl h.mmc
theorem MemWf.set_sys_sup {t : State} {x0 : Sys} {x1 : Supply} (h : MemWf t) :
    MemWf { t with sys := x0, sup := x1 } := .of h.rcp h.ao h.can h.imz h.pnl h.mmc
theorem MemWf.set_evr_hp_sys {t : State} {x0 : Evr} {x1 : Vector HostPort 2} {x2 : Sys} (h : MemWf t) :
    MemWf { t with evr := x0, hp := x1, sys := x2 } := .of h.rcp h.ao h.can h.imz h.pnl h.mmc
theorem MemWf.set_now_mono_tim {t : State} {x0 : Nat} {x1 : Nat} {x2 : Tim} (h : MemWf t) :
    MemWf { t with now := x0, mono := x1, tim := x2 } := .of h.rcp h.ao h.can h.imz h.pnl h.mmc
theorem MemWf.set_now_sys_pev {t : State} {x0 : Nat} {x1 : Sys} {x2 : Pev} (h : MemWf t) :
    MemWf { t with now := x0, sys := x1, pev := x2 } := .of h.rcp h.ao h.can h.imz h.pnl h.mmc
theorem MemWf.set_pev_ann_call_rnd {t : State} {x0 : Pev} {x1 : Ann} {x2 : Call} {x3 : Rnd} (h : MemWf t) :
    MemWf { t with pev := x0, ann := x1, call := x2, rnd := x3 } := .of h.rcp h.ao h.can h.imz h.pnl h.mmc
theorem MemWf.set_dio_uiBlk_aoBlk_psBlk_dioBlk {t : State} {x0 : Vector Dio 16} {x1 : UiBlk} {x2 : AoBlk} {x3 : PsBlk} {x4 : DioBlk} (h : MemWf t) :
    MemWf { t with dio := x0, uiBlk := x1, aoBlk := x2, psBlk := x3, dioBlk := x4 } := .of h.rcp h.ao h.can h.imz h.pnl h.mmc
theorem MemWf.set_ao_dio {t : State} {x0 : Vector Ao 4} {x1 : Vector Dio 16} (h : MemWf t) (k0 : (∀ c : Fin 4, AoWf x0[c])) :
    MemWf { t with ao := x0, dio := x1 } := .of h.rcp k0 h.can h.imz h.pnl h.mmc
theorem MemWf.set_ao_dio_dioBlk {t : State} {x0 : Vector Ao 4} {x1 : Vector Dio 16} {x2 : DioBlk} (h : MemWf t) (k0 : (∀ c : Fin 4, AoWf x0[c])) :
    MemWf { t with ao := x0, dio := x1, dioBlk := x2 } := .of h.rcp k0 h.can h.imz h.pnl h.mmc
theorem MemWf.set_ao_dio_ui_ps {t : State} {x0 : Vector Ao 4} {x1 : Vector Dio 16} {x2 : Vector Ui 16} {x3 : Vector Ps 2} (h : MemWf t) (k0 : (∀ c : Fin 4, AoWf x0[c])) :
    MemWf { t with ao := x0, dio := x1, ui := x2, ps := x3 } := .of h.rcp k0 h.can h.imz h.pnl h.mmc

/-! ### Updates of a part with memories -/

theorem MemWf.set_rcp {t : State} {x : Rcp} (h : MemWf t) (k : RcpWf x) : MemWf { t with rcp := x } :=
  .of k h.ao h.can h.imz h.pnl h.mmc
theorem MemWf.set_ao {t : State} {x : Vector Ao 4} (h : MemWf t) (k : ∀ c : Fin 4, AoWf x[c]) : MemWf { t with ao := x } :=
  .of h.rcp k h.can h.imz h.pnl h.mmc
theorem MemWf.set_can {t : State} {x : Vector Can 4} (h : MemWf t) (k : ∀ c : Fin 4, CanWf x[c]) :
    MemWf { t with can := x } := .of h.rcp h.ao k h.imz h.pnl h.mmc
theorem MemWf.set_imz {t : State} {x : Imz} (h : MemWf t) (k : ImzWf x) : MemWf { t with imz := x } :=
  .of h.rcp h.ao h.can k h.pnl h.mmc
theorem MemWf.set_pnl {t : State} {x : Pnl} (h : MemWf t) (k : PnlWf x) : MemWf { t with pnl := x } :=
  .of h.rcp h.ao h.can h.imz k h.mmc
theorem MemWf.set_mmc {t : State} {x : Mmc} (h : MemWf t) (k : MmcWf x) : MemWf { t with mmc := x } :=
  .of h.rcp h.ao h.can h.imz h.pnl k

theorem MemWf.with_rcp {t : State} {x : Rcp} (h : MemWf t) (k : RcpWf t.rcp → RcpWf x) : MemWf { t with rcp := x } :=
  h.set_rcp (k h.rcp)
theorem MemWf.with_ao {t : State} {x : Vector Ao 4} (h : MemWf t) (k : (∀ c : Fin 4, AoWf t.ao[c]) → ∀ c : Fin 4, AoWf x[c]) :
    MemWf { t with ao := x } := h.set_ao (k h.ao)
theorem MemWf.with_imz {t : State} {x : Imz} (h : MemWf t) (k : ImzWf t.imz → ImzWf x) : MemWf { t with imz := x } :=
  h.set_imz (k h.imz)
theorem MemWf.with_mmc {t : State} {x : Mmc} (h : MemWf t) (k : MmcWf t.mmc → MmcWf x) : MemWf { t with mmc := x } :=
  h.set_mmc (k h.mmc)
theorem MemWf.with_pnl {t : State} {x : Pnl} (h : MemWf t) (k : PnlWf t.pnl → PnlWf x) : MemWf { t with pnl := x } :=
  h.set_pnl (k h.pnl)

theorem RcpWf.alike {x y : Rcp} (a : x.recipes = y.recipes) (b : x.block0 = y.block0) (c : x.buf = y.buf) (h : RcpWf y) :
    RcpWf x := ⟨a ▸ h.1, b ▸ h.2.1, c ▸ h.2.2⟩

theorem RcpWf.setRecipe {x : Rcp} {i : Fin 2} {f : Recipe → Recipe} (h : RcpWf x)
    (k : RecipeWf x.recipes[i] → RecipeWf (f x.recipes[i])) : RcpWf (x.setRecipe i f) := by
  refine ⟨fun j => ?_, h.2⟩
  show RecipeWf (x.recipes.set i.val (f x.recipes[i]))[j.val]
  rw [Vector.getElem_set]
  split
  · exact k (h.1 i)
  · exact h.1 j

theorem MemWf.setRcp {t : State} {f : Rcp → Rcp} (h : MemWf t) (k : RcpWf t.rcp → RcpWf (f t.rcp)) : MemWf (t.setRcp f) :=
  h.set_rcp (k h.rcp)
theorem MemWf.setImz {t : State} {f : Imz → Imz} (h : MemWf t) (k : ImzWf t.imz → ImzWf (f t.imz)) : MemWf (t.setImz f) :=
  h.set_imz (k h.imz)
theorem MemWf.setPnl {t : State} {f : Pnl → Pnl} (h : MemWf t) (k : PnlWf t.pnl → PnlWf (f t.pnl)) : MemWf (t.setPnl f) :=
  h.set_pnl (k h.pnl)
theorem MemWf.setMmc {t : State} {f : Mmc → Mmc} (h : MemWf t) (k : MmcWf t.mmc → MmcWf (f t.mmc)) : MemWf (t.setMmc f) :=
  h.set_mmc (k h.mmc)

theorem MemWf.setAo {t : State} {c : Fin 4} {f : Ao → Ao} (h : MemWf t) (k : AoWf t.ao[c] → AoWf (f t.ao[c])) :
    MemWf (t.setAo c f) := by
  refine h.set_ao fun j => ?_
  show AoWf (t.ao.set c.val (f t.ao[c]))[j.val]
  rw [Vector.getElem_set]
  split
  · exact k (h.ao c)
  · exact h.ao j

theorem MemWf.setCan {t : State} {c : Fin 4} {f : Can → Can} (h : MemWf t) (k : CanWf t.can[c] → CanWf (f t.can[c])) :
    MemWf (t.setCan c f) := by
  refine h.set_can fun j => ?_
  show CanWf (t.can.set c.val (f t.can[c]))[j.val]
  rw [Vector.getElem_set]
  split
  · exact k (h.can c)
  · exact h.can j

theorem AoWf.all_map {v : Vector Ao 4} {f : Ao → Ao} (h : ∀ c : Fin 4, AoWf v[c]) (k : ∀ a, AoWf a → AoWf (f a)) (c : Fin 4) :
    AoWf (v.map f)[c] := by
  show AoWf (v.map f)[c.val]
  rw [Vector.getElem_map]
  exact k _ (h c)

theorem AoWf.all_mapFinIdx {v : Vector Ao 4} {f : (i : Nat) → Ao → i < 4 → Ao} (h : ∀ c : Fin 4, AoWf v[c])
    (k : ∀ i a g, AoWf a → AoWf (f i a g)) (c : Fin 4) : AoWf (v.mapFinIdx f)[c] := by
  show AoWf (v.mapFinIdx f)[c.val]
  rw [Vector.getElem_mapFinIdx]
  exact k _ _ _ (h c)

theorem AoWf.all_set {v : Vector Ao 4} {i : Fin 4} {a : Ao} (h : ∀ c : Fin 4, AoWf v[c]) (k : AoWf a) (c : Fin 4) :
    AoWf (v.set i a)[c] := by
  show AoWf (v.set i.val a)[c.val]
  rw [Vector.getElem_set]
  split
  · exact k
  · exact h c

end Sys2Proof.Machine
end

