-- ==== Sys2Proof/Laws/KeepImage.lean ====
section
/-! SUPPORT. Image: the operations of Machine/Image keep every memory in canonical form. -/
namespace Sys2Proof.Machine

open Sys2Proof

theorem writeBootConfig_keeps (act cause : Nat) (swap : Bool) (s : State) (h : MemWf s) :
    MemWf (writeBootConfig act cause swap s) := by
  unfold writeBootConfig
  repeat' first
    | intro _
    | with_reducible assumption
    | decide
    | with_reducible apply MemWf.ite
    | with_reducible apply MemWf.dite
    | with_reducible apply MemWf.with_rcp
    | ((with_reducible show RcpWf _); exact (‹MemWf _› : MemWf _).rcp)
    | ((with_reducible show RcpWf _); with_reducible assumption)
    | with_reducible apply RcpWf.setRecipe
    | ((with_reducible show RecipeWf _); refine ⟨?_, ?_⟩)
    | ((with_reducible show RcpWf _); refine ⟨?_, ?_, ?_⟩)
    | ((with_reducible show Memory.wf _ = true); dsimp only)
    | with_reducible apply Memory.wf_memFill
    | with_reducible apply Memory.wf_memPut
    | with_reducible apply Memory.wf_memZero
    | with_reducible apply Memory.wf_memWindow
    | with_reducible apply Memory.wf_memCopyIn
    | with_reducible apply Memory.wf_foldl_memPut
    | with_reducible apply Memory.wf_filter
    | ((with_reducible show Memory.wf _ = true); first | exact rfl | exact (‹RecipeWf _› : RecipeWf _).1 | exact (‹RecipeWf _› : RecipeWf _).2 | exact ((‹RcpWf _› : RcpWf _).1 _).1 | exact ((‹RcpWf _› : RcpWf _).1 _).2 | exact (‹RcpWf _› : RcpWf _).2.1 | exact (‹RcpWf _› : RcpWf _).2.2)
    | exact (‹RcpWf _› : RcpWf _).1
    | split
    | dsimp only

end Sys2Proof.Machine
end

