-- ==== Sys2Proof/Laws/KeepAo.lean ====
section
/-! SUPPORT. Ao: the operations of Machine/Ao keep every memory in canonical form. -/
namespace Sys2Proof.Machine

open Sys2Proof

theorem Ao.setConds_wf {a : Ao} {d : BitVec 13} (h : AoWf a) : AoWf (a.setConds d) := h

theorem Ao.openNow_wf {a : Ao} (h : AoWf a) : AoWf a.openNow := h

theorem Ao.drive_wf {a : Ao} {l why : Nat} (h : AoWf a) : AoWf (a.drive l why) := by
  unfold Ao.drive
  dsimp only
  split <;> exact h

theorem Ao.ownLevel_wf {a : Ao} (h : AoWf a) : AoWf a.ownLevel.1 := by
  unfold Ao.ownLevel
  repeat' first
    | exact h
    | split
    | dsimp only

theorem Ao.stepTo_wf {a : Ao} {l : Nat} (h : AoWf a) : AoWf (a.stepTo l) := h

theorem Ao.retryOn_wf {a : Ao} (h : AoWf a) : AoWf a.retryOn := h

theorem aoHold_wf {s : State} {c : Fin 4} (h : MemWf s) : AoWf (aoHold s c) := by
  unfold aoHold
  dsimp only
  split
  · exact h.ao c
  · exact Ao.drive_wf (h.ao c)

theorem Ao.keepPrior_wf {a : Ao} {s : State} (h : AoWf a) : AoWf (a.keepPrior s) := by
  unfold Ao.keepPrior
  split <;> exact h

theorem aoSelect_wf {s : State} {c : Fin 4} (h : MemWf s) : AoWf (aoSelect s c) := by
  unfold aoSelect
  repeat' first
    | exact h.ao c
    | with_reducible apply Ao.drive_wf
    | with_reducible apply Ao.openNow_wf
    | with_reducible apply Ao.ownLevel_wf
    | with_reducible apply Ao.stepTo_wf
    | split
    | dsimp only

theorem Ao.measure_wf {a : Ao} {m : AoMeas} (h : AoWf a) : AoWf (a.measure m) := h

theorem Ao.lost_wf {a : Ao} (h : AoWf a) : AoWf a.lost := h

theorem Ao.setTrim_wf {a : Ao} {z s : Int} (h : AoWf a) : AoWf (a.setTrim z s) := h

theorem Ao.trimEnd_wf {a : Ao} (h : AoWf a) : AoWf a.trimEnd := h

theorem aoDrive_keeps (c : Fin 4) (s : State) (h : MemWf s) :
    MemWf (aoDrive c s) := by
  unfold aoDrive
  repeat' first
    | intro _
    | with_reducible assumption
    | decide
    | with_reducible apply MemWf.ite
    | with_reducible apply MemWf.dite
    | with_reducible apply Only.keeps (aoNotify_only _ _ _)
    | with_reducible apply MemWf.setAo
    | ((with_reducible show AoWf _); assumption)
    | with_reducible apply aoSelect_wf
    | split
    | dsimp only

theorem aoDriveAll_keeps (s : State) (h : MemWf s) :
    MemWf (aoDriveAll s) := by
  unfold aoDriveAll
  repeat' first
    | intro _
    | with_reducible assumption
    | decide
    | with_reducible apply MemWf.ite
    | with_reducible apply MemWf.dite
    | with_reducible apply MemWf.foldl
    | with_reducible apply aoDrive_keeps
    | split
    | dsimp only

theorem aoHartAbort_keeps (c : Fin 4) (s : State) (h : MemWf s) :
    MemWf (aoHartAbort c s) := by
  unfold aoHartAbort
  repeat' first
    | intro _
    | with_reducible assumption
    | decide
    | with_reducible apply MemWf.ite
    | with_reducible apply MemWf.dite
    | with_reducible apply Only.keeps (aoEvent_only _ _ _)
    | with_reducible apply MemWf.setAo
    | ((with_reducible show AoWf _); assumption)
    | split
    | dsimp only

theorem aoLose_keeps (c : Fin 4) (s : State) (h : MemWf s) :
    MemWf (aoLose c s) := by
  unfold aoLose
  repeat' first
    | intro _
    | with_reducible assumption
    | decide
    | with_reducible apply MemWf.ite
    | with_reducible apply MemWf.dite
    | with_reducible apply aoHartAbort_keeps
    | with_reducible apply Only.keeps (aoNotify_only _ _ _)
    | with_reducible apply MemWf.setAo
    | ((with_reducible show AoWf _); assumption)
    | with_reducible apply Ao.lost_wf
    | split
    | dsimp only

theorem aoStep_keeps (s : State) (c : Fin 4) (m : AoMeas) (h : MemWf s) :
    MemWf (aoStep s c m) := by
  unfold aoStep
  repeat' first
    | intro _
    | with_reducible assumption
    | decide
    | with_reducible apply MemWf.ite
    | with_reducible apply MemWf.dite
    | with_reducible apply MemWf.setAo
    | with_reducible apply Only.keeps (aoNotify_only _ _ _)
    | ((with_reducible show AoWf _); assumption)
    | with_reducible apply Ao.retryOn_wf
    | with_reducible apply aoHold_wf
    | with_reducible apply Ao.openNow_wf
    | with_reducible apply aoSelect_wf
    | with_reducible apply Ao.measure_wf
    | split
    | dsimp only

theorem aoCycle_keeps (s0 : State) (c : Fin 4) (m : AoMeas) (h : MemWf s0) :
    MemWf (aoCycle s0 c m) := by
  unfold aoCycle
  repeat' first
    | intro _
    | with_reducible assumption
    | decide
    | with_reducible apply MemWf.ite
    | with_reducible apply MemWf.dite
    | with_reducible apply MemWf.setAo
    | with_reducible apply Only.keeps (recordFault_only _ _ _ _ _)
    | with_reducible apply aoLose_keeps
    | with_reducible apply aoStep_keeps
    | ((with_reducible show AoWf _); assumption)
    | with_reducible apply Ao.keepPrior_wf
    | exact Ao.keepPrior_wf ‹AoWf _›
    | split
    | dsimp only

theorem aoStepUp_keeps (s : State) (c : Fin 4) (h : MemWf s) :
    MemWf (aoStepUp s c) := by
  unfold aoStepUp
  repeat' first
    | intro _
    | with_reducible assumption
    | decide
    | with_reducible apply MemWf.ite
    | with_reducible apply MemWf.dite
    | with_reducible apply Only.keeps (aoNotify_only _ _ _)
    | with_reducible apply MemWf.setAo
    | ((with_reducible show AoWf _); assumption)
    | with_reducible apply Ao.setConds_wf
    | split
    | dsimp only

theorem aoBrownout_keeps (s : State) (c : Fin 4) (h : MemWf s) :
    MemWf (aoBrownout s c) := by
  unfold aoBrownout
  repeat' first
    | intro _
    | with_reducible assumption
    | decide
    | with_reducible apply MemWf.ite
    | with_reducible apply MemWf.dite
    | with_reducible apply aoLose_keeps
    | split
    | dsimp only

theorem aoIslandRestart_keeps (s : State) (c : Fin 4) (h : MemWf s) :
    MemWf (aoIslandRestart s c) := by
  unfold aoIslandRestart
  repeat' first
    | intro _
    | with_reducible assumption
    | decide
    | with_reducible apply MemWf.ite
    | with_reducible apply MemWf.dite
    | with_reducible apply Only.keeps (aoNotify_only _ _ _)
    | with_reducible apply MemWf.setAo
    | ((with_reducible show AoWf _); assumption)
    | with_reducible apply Ao.setConds_wf
    | split
    | dsimp only

theorem aoBrownoutClear_keeps (s : State) (c : Fin 4) (h : MemWf s) :
    MemWf (aoBrownoutClear s c) := by
  unfold aoBrownoutClear
  repeat' first
    | intro _
    | with_reducible assumption
    | decide
    | with_reducible apply MemWf.ite
    | with_reducible apply MemWf.dite
    | with_reducible apply Only.keeps (aoNotify_only _ _ _)
    | with_reducible apply MemWf.setAo
    | ((with_reducible show AoWf _); assumption)
    | with_reducible apply Ao.setConds_wf
    | split
    | dsimp only

theorem aoKeepLost_keeps (s : State) (c : Fin 4) (h : MemWf s) :
    MemWf (aoKeepLost s c) := by
  unfold aoKeepLost
  repeat' first
    | intro _
    | with_reducible assumption
    | decide
    | with_reducible apply MemWf.ite
    | with_reducible apply MemWf.dite
    | with_reducible apply Only.keeps (aoNotify_only _ _ _)
    | with_reducible apply MemWf.setAo
    | ((with_reducible show AoWf _); assumption)
    | with_reducible apply Ao.openNow_wf
    | split
    | dsimp only

theorem aoCompRetry_keeps (s : State) (c : Fin 4) (h : MemWf s) :
    MemWf (aoCompRetry s c) := by
  unfold aoCompRetry
  repeat' first
    | intro _
    | with_reducible assumption
    | decide
    | with_reducible apply MemWf.ite
    | with_reducible apply MemWf.dite
    | with_reducible apply aoDrive_keeps
    | with_reducible apply MemWf.setAo
    | ((with_reducible show AoWf _); assumption)
    | split
    | dsimp only

theorem aoReclose_keeps (s : State) (c : Fin 4) (h : MemWf s) :
    MemWf (aoReclose s c) := by
  unfold aoReclose
  repeat' first
    | intro _
    | with_reducible assumption
    | decide
    | with_reducible apply MemWf.ite
    | with_reducible apply MemWf.dite
    | with_reducible apply Only.keeps (aoNotify_only _ _ _)
    | with_reducible apply MemWf.setAo
    | ((with_reducible show AoWf _); assumption)
    | with_reducible apply Ao.setConds_wf
    | split
    | dsimp only

theorem aoRestart_keeps (src : Source) (c : Fin 4) (s : State) (h : MemWf s) :
    MemWf (aoRestart src c s) := by
  unfold aoRestart
  repeat' first
    | intro _
    | with_reducible assumption
    | decide
    | with_reducible apply MemWf.ite
    | with_reducible apply MemWf.dite
    | with_reducible apply Only.keeps (logWerr_only _ _ _ _)
    | with_reducible apply Only.keeps (aoNotify_only _ _ _)
    | with_reducible apply MemWf.setAo
    | ((with_reducible show AoWf _); assumption)
    | with_reducible apply Ao.setConds_wf
    | with_reducible apply Ao.openNow_wf
    | split
    | dsimp only

theorem aoPowered_keeps (s : State) (c : Fin 4) (h : MemWf s) :
    MemWf (aoPowered s c) := by
  unfold aoPowered
  repeat' first
    | intro _
    | with_reducible assumption
    | decide
    | with_reducible apply MemWf.ite
    | with_reducible apply MemWf.dite
    | with_reducible apply Only.keeps (aoNotify_only _ _ _)
    | with_reducible apply MemWf.setAo
    | ((with_reducible show AoWf _); assumption)
    | split
    | dsimp only

theorem aoCalDone_keeps (s : State) (c : Fin 4) (h : MemWf s) :
    MemWf (aoCalDone s c) := by
  unfold aoCalDone
  repeat' first
    | intro _
    | with_reducible assumption
    | decide
    | with_reducible apply MemWf.ite
    | with_reducible apply MemWf.dite
    | with_reducible apply Only.keeps (aoNotify_only _ _ _)
    | with_reducible apply MemWf.setAo
    | ((with_reducible show AoWf _); assumption)
    | with_reducible apply Ao.setConds_wf
    | split
    | dsimp only

theorem aoTrimApply_keeps (src : Source) (c : Fin 4) (s : State) (h : MemWf s) :
    MemWf (aoTrimApply src c s) := by
  unfold aoTrimApply
  repeat' first
    | intro _
    | with_reducible assumption
    | decide
    | with_reducible apply MemWf.ite
    | with_reducible apply MemWf.dite
    | with_reducible apply Only.keeps (aoEvent_only _ _ _)
    | with_reducible apply Only.keeps (logWerr_only _ _ _ _)
    | with_reducible apply MemWf.setAo
    | ((with_reducible show AoWf _); assumption)
    | with_reducible apply Ao.setTrim_wf
    | split
    | dsimp only

theorem aoTrimClear_keeps (src : Source) (c : Fin 4) (s : State) (h : MemWf s) :
    MemWf (aoTrimClear src c s) := by
  unfold aoTrimClear
  repeat' first
    | intro _
    | with_reducible assumption
    | decide
    | with_reducible apply MemWf.ite
    | with_reducible apply MemWf.dite
    | with_reducible apply Only.keeps (aoEvent_only _ _ _)
    | with_reducible apply Only.keeps (logWerr_only _ _ _ _)
    | with_reducible apply MemWf.setAo
    | ((with_reducible show AoWf _); assumption)
    | with_reducible apply Ao.setTrim_wf
    | split
    | dsimp only

theorem aoHartTx_keeps (c : Fin 4) (s : State) (h : MemWf s) :
    MemWf (aoHartTx c s) := by
  unfold aoHartTx
  repeat' first
    | intro _
    | with_reducible assumption
    | decide
    | with_reducible apply MemWf.ite
    | with_reducible apply MemWf.dite
    | with_reducible apply Only.keeps (aoEvent_only _ _ _)
    | with_reducible apply MemWf.setAo
    | ((with_reducible show AoWf _); assumption)
    | split
    | dsimp only

theorem aoHartRefuse_keeps (c : Fin 4) (res : Nat) (s : State) (h : MemWf s) :
    MemWf (aoHartRefuse c res s) := by
  unfold aoHartRefuse
  repeat' first
    | intro _
    | with_reducible assumption
    | decide
    | with_reducible apply MemWf.ite
    | with_reducible apply MemWf.dite
    | with_reducible apply Only.keeps (aoEvent_only _ _ _)
    | with_reducible apply MemWf.setAo
    | ((with_reducible show AoWf _); assumption)
    | split
    | dsimp only

theorem aoHartStart_keeps (c : Fin 4) (s : State) (h : MemWf s) :
    MemWf (aoHartStart c s) := by
  unfold aoHartStart
  repeat' first
    | intro _
    | with_reducible assumption
    | decide
    | with_reducible apply MemWf.ite
    | with_reducible apply MemWf.dite
    | with_reducible apply aoHartRefuse_keeps
    | with_reducible apply MemWf.setAo
    | ((with_reducible show AoWf _); assumption)
    | split
    | dsimp only

theorem aoHartDone_keeps (c : Fin 4) (s : State) (h : MemWf s) :
    MemWf (aoHartDone c s) := by
  unfold aoHartDone
  repeat' first
    | intro _
    | with_reducible assumption
    | decide
    | with_reducible apply MemWf.ite
    | with_reducible apply MemWf.dite
    | with_reducible apply Only.keeps (aoEvent_only _ _ _)
    | with_reducible apply MemWf.setAo
    | ((with_reducible show AoWf _); assumption)
    | split
    | dsimp only

theorem aoCarrier_keeps (c : Fin 4) (s : State) (h : MemWf s) :
    MemWf (aoCarrier c s) := by
  unfold aoCarrier
  repeat' first
    | intro _
    | with_reducible assumption
    | decide
    | with_reducible apply MemWf.ite
    | with_reducible apply MemWf.dite
    | with_reducible apply MemWf.setAo
    | ((with_reducible show AoWf _); assumption)
    | split
    | dsimp only

theorem aoRxDone_keeps (c : Fin 4) (bytes : List Byte) (perr : Nat) (s : State) (h : MemWf s) :
    MemWf (aoRxDone c bytes perr s) := by
  unfold aoRxDone
  repeat' first
    | intro _
    | with_reducible assumption
    | decide
    | with_reducible apply MemWf.ite
    | with_reducible apply MemWf.dite
    | with_reducible apply Only.keeps (aoEvent_only _ _ _)
    | with_reducible apply MemWf.setAo
    | ((with_reducible show AoWf _); refine ⟨?_, ?_⟩)
    | ((with_reducible show Memory.wf _ = true); dsimp only)
    | with_reducible apply Memory.wf_memFill
    | with_reducible apply Memory.wf_memPut
    | with_reducible apply Memory.wf_memZero
    | with_reducible apply Memory.wf_memWindow
    | with_reducible apply Memory.wf_memCopyIn
    | with_reducible apply Memory.wf_foldl_memPut
    | with_reducible apply Memory.wf_filter
    | ((with_reducible show Memory.wf _ = true); first | exact rfl | exact (‹AoWf _› : AoWf _).1 | exact (‹AoWf _› : AoWf _).2)
    | split
    | dsimp only

theorem aoTrimRestore_keeps (c : Fin 4) (s : State) (h : MemWf s) :
    MemWf (aoTrimRestore c s) := by
  unfold aoTrimRestore
  repeat' first
    | intro _
    | with_reducible assumption
    | decide
    | with_reducible apply MemWf.ite
    | with_reducible apply MemWf.dite
    | with_reducible apply Only.keeps (aoEvent_only _ _ _)
    | with_reducible apply MemWf.setAo
    | ((with_reducible show AoWf _); assumption)
    | with_reducible apply Ao.trimEnd_wf
    | split
    | dsimp only

theorem aoEndSpell_keeps (s : State) (h : MemWf s) :
    MemWf (aoEndSpell s) := by
  unfold aoEndSpell
  repeat' first
    | intro _
    | with_reducible assumption
    | decide
    | with_reducible apply MemWf.ite
    | with_reducible apply MemWf.dite
    | with_reducible apply MemWf.foldl
    | with_reducible apply aoTrimRestore_keeps
    | with_reducible apply aoHartAbort_keeps
    | split
    | dsimp only

theorem aoLetGo_keeps (s : State) (h : MemWf s) :
    MemWf (aoLetGo s) := by
  unfold aoLetGo
  repeat' first
    | intro _
    | with_reducible assumption
    | decide
    | with_reducible apply MemWf.ite
    | with_reducible apply MemWf.dite
    | with_reducible apply MemWf.with_ao
    | ((with_reducible show AoWf _); assumption)
    | with_reducible apply Ao.openNow_wf
    | ((with_reducible show AoWf _); with_reducible assumption)
    | with_reducible apply AoWf.all_map
    | with_reducible apply AoWf.all_mapFinIdx
    | with_reducible apply AoWf.all_set
    | with_reducible apply MemWf.ao
    | split
    | dsimp only

theorem aoApply_keeps (s : State) (c : Fin 4) (h : MemWf s) :
    MemWf (aoApply s c) := by
  unfold aoApply
  repeat' first
    | intro _
    | with_reducible assumption
    | decide
    | with_reducible apply MemWf.ite
    | with_reducible apply MemWf.dite
    | with_reducible apply MemWf.setAo
    | ((with_reducible show AoWf _); assumption)
    | with_reducible apply Ao.openNow_wf
    | split
    | dsimp only

theorem aoLoad_keeps (s : State) (c : Fin 4) (h : MemWf s) :
    MemWf (aoLoad s c) := by
  unfold aoLoad
  repeat' first
    | intro _
    | with_reducible assumption
    | decide
    | with_reducible apply MemWf.ite
    | with_reducible apply MemWf.dite
    | with_reducible apply MemWf.setAo
    | ((with_reducible show AoWf _); assumption)
    | split
    | dsimp only

theorem aoSwap_keeps (s : State) (c : Fin 4) (h : MemWf s) :
    MemWf (aoSwap s c) := by
  unfold aoSwap
  repeat' first
    | intro _
    | with_reducible assumption
    | decide
    | with_reducible apply MemWf.ite
    | with_reducible apply MemWf.dite
    | with_reducible apply MemWf.setAo
    | with_reducible apply aoApply_keeps
    | ((with_reducible show AoWf _); assumption)
    | split
    | dsimp only

theorem aoReady_keeps (s : State) (c : Fin 4) (h : MemWf s) :
    MemWf (aoReady s c) := by
  unfold aoReady
  repeat' first
    | intro _
    | with_reducible assumption
    | decide
    | with_reducible apply MemWf.ite
    | with_reducible apply MemWf.dite
    | with_reducible apply MemWf.setAo
    | with_reducible apply Only.keeps (aoNotify_only _ _ _)
    | with_reducible apply aoApply_keeps
    | ((with_reducible show AoWf _); assumption)
    | split
    | dsimp only

theorem aoBlkWrite_keeps (stop : Bool) (s : State) (h : MemWf s) :
    MemWf (aoBlkWrite stop s) := by
  unfold aoBlkWrite
  repeat' first
    | intro _
    | with_reducible assumption
    | decide
    | with_reducible apply MemWf.ite
    | with_reducible apply MemWf.dite
    | with_reducible apply MemWf.foldl
    | with_reducible apply aoApply_keeps
    | with_reducible apply Only.keeps (aoNotifyAll_only _ _)
    | with_reducible apply MemWf.set_aoBlk
    | split
    | dsimp only

theorem aoOpenAll_keeps (s : State) (h : MemWf s) :
    MemWf (aoOpenAll s) := by
  unfold aoOpenAll
  repeat' first
    | intro _
    | with_reducible assumption
    | decide
    | with_reducible apply MemWf.ite
    | with_reducible apply MemWf.dite
    | with_reducible apply MemWf.with_ao
    | ((with_reducible show AoWf _); assumption)
    | with_reducible apply Ao.openNow_wf
    | ((with_reducible show AoWf _); with_reducible assumption)
    | with_reducible apply AoWf.all_map
    | with_reducible apply AoWf.all_mapFinIdx
    | with_reducible apply AoWf.all_set
    | with_reducible apply MemWf.ao
    | split
    | dsimp only

theorem execAoCellCycle_keeps (c : Fin 4) (m : AoMeas) (s : State) (h : MemWf s) :
    ∃ t', execAoCellCycle c m s = .next t' ∧ MemWf t' := by
  refine ⟨_, rfl, ?_⟩
  repeat' first
    | intro _
    | with_reducible assumption
    | decide
    | with_reducible apply MemWf.ite
    | with_reducible apply MemWf.dite
    | with_reducible apply aoCycle_keeps
    | split
    | dsimp only

theorem execAoClockStepUp_keeps (c : Fin 4) (s : State) (h : MemWf s) :
    ∃ t', execAoClockStepUp c s = .next t' ∧ MemWf t' := by
  refine ⟨_, rfl, ?_⟩
  repeat' first
    | intro _
    | with_reducible assumption
    | decide
    | with_reducible apply MemWf.ite
    | with_reducible apply MemWf.dite
    | with_reducible apply aoStepUp_keeps
    | split
    | dsimp only

theorem execAoBrownout_keeps (c : Fin 4) (s : State) (h : MemWf s) :
    ∃ t', execAoBrownout c s = .next t' ∧ MemWf t' := by
  refine ⟨_, rfl, ?_⟩
  repeat' first
    | intro _
    | with_reducible assumption
    | decide
    | with_reducible apply MemWf.ite
    | with_reducible apply MemWf.dite
    | with_reducible apply aoBrownout_keeps
    | split
    | dsimp only

theorem execAoIslandRestart_keeps (c : Fin 4) (s : State) (h : MemWf s) :
    ∃ t', execAoIslandRestart c s = .next t' ∧ MemWf t' := by
  refine ⟨_, rfl, ?_⟩
  repeat' first
    | intro _
    | with_reducible assumption
    | decide
    | with_reducible apply MemWf.ite
    | with_reducible apply MemWf.dite
    | with_reducible apply aoIslandRestart_keeps
    | split
    | dsimp only

theorem execAoBrownoutClear_keeps (c : Fin 4) (s : State) (h : MemWf s) :
    ∃ t', execAoBrownoutClear c s = .next t' ∧ MemWf t' := by
  refine ⟨_, rfl, ?_⟩
  repeat' first
    | intro _
    | with_reducible assumption
    | decide
    | with_reducible apply MemWf.ite
    | with_reducible apply MemWf.dite
    | with_reducible apply aoBrownoutClear_keeps
    | split
    | dsimp only

theorem execAoKeepaliveLost_keeps (c : Fin 4) (s : State) (h : MemWf s) :
    ∃ t', execAoKeepaliveLost c s = .next t' ∧ MemWf t' := by
  refine ⟨_, rfl, ?_⟩
  repeat' first
    | intro _
    | with_reducible assumption
    | decide
    | with_reducible apply MemWf.ite
    | with_reducible apply MemWf.dite
    | with_reducible apply aoKeepLost_keeps
    | split
    | dsimp only

theorem execAoComplianceRetry_keeps (c : Fin 4) (s : State) (h : MemWf s) :
    ∃ t', execAoComplianceRetry c s = .next t' ∧ MemWf t' := by
  refine ⟨_, rfl, ?_⟩
  repeat' first
    | intro _
    | with_reducible assumption
    | decide
    | with_reducible apply MemWf.ite
    | with_reducible apply MemWf.dite
    | with_reducible apply aoCompRetry_keeps
    | split
    | dsimp only

theorem execAoSwitchReclose_keeps (c : Fin 4) (s : State) (h : MemWf s) :
    ∃ t', execAoSwitchReclose c s = .next t' ∧ MemWf t' := by
  refine ⟨_, rfl, ?_⟩
  repeat' first
    | intro _
    | with_reducible assumption
    | decide
    | with_reducible apply MemWf.ite
    | with_reducible apply MemWf.dite
    | with_reducible apply aoReclose_keeps
    | split
    | dsimp only

theorem execAoRestart_keeps (src : Source) (c : Fin 4) (s : State) (h : MemWf s) :
    ∃ t', execAoRestart src c s = .next t' ∧ MemWf t' := by
  refine ⟨_, rfl, ?_⟩
  repeat' first
    | intro _
    | with_reducible assumption
    | decide
    | with_reducible apply MemWf.ite
    | with_reducible apply MemWf.dite
    | with_reducible apply aoRestart_keeps
    | split
    | dsimp only

theorem execAoIslandPowered_keeps (c : Fin 4) (s : State) (h : MemWf s) :
    ∃ t', execAoIslandPowered c s = .next t' ∧ MemWf t' := by
  refine ⟨_, rfl, ?_⟩
  repeat' first
    | intro _
    | with_reducible assumption
    | decide
    | with_reducible apply MemWf.ite
    | with_reducible apply MemWf.dite
    | with_reducible apply aoPowered_keeps
    | split
    | dsimp only

theorem execAoCalDone_keeps (c : Fin 4) (s : State) (h : MemWf s) :
    ∃ t', execAoCalDone c s = .next t' ∧ MemWf t' := by
  refine ⟨_, rfl, ?_⟩
  repeat' first
    | intro _
    | with_reducible assumption
    | decide
    | with_reducible apply MemWf.ite
    | with_reducible apply MemWf.dite
    | with_reducible apply aoCalDone_keeps
    | split
    | dsimp only

theorem execAoHartTx_keeps (_src : Source) (c : Fin 4) (s : State) (h : MemWf s) :
    ∃ t', execAoHartTx _src c s = .next t' ∧ MemWf t' := by
  refine ⟨_, rfl, ?_⟩
  repeat' first
    | intro _
    | with_reducible assumption
    | decide
    | with_reducible apply MemWf.ite
    | with_reducible apply MemWf.dite
    | with_reducible apply aoHartTx_keeps
    | split
    | dsimp only

theorem execAoHartTxStart_keeps (c : Fin 4) (s : State) (h : MemWf s) :
    ∃ t', execAoHartTxStart c s = .next t' ∧ MemWf t' := by
  refine ⟨_, rfl, ?_⟩
  repeat' first
    | intro _
    | with_reducible assumption
    | decide
    | with_reducible apply MemWf.ite
    | with_reducible apply MemWf.dite
    | with_reducible apply aoHartStart_keeps
    | split
    | dsimp only

theorem execAoHartTxDone_keeps (c : Fin 4) (s : State) (h : MemWf s) :
    ∃ t', execAoHartTxDone c s = .next t' ∧ MemWf t' := by
  refine ⟨_, rfl, ?_⟩
  repeat' first
    | intro _
    | with_reducible assumption
    | decide
    | with_reducible apply MemWf.ite
    | with_reducible apply MemWf.dite
    | with_reducible apply aoHartDone_keeps
    | split
    | dsimp only

theorem execAoHartCarrierDetect_keeps (c : Fin 4) (s : State) (h : MemWf s) :
    ∃ t', execAoHartCarrierDetect c s = .next t' ∧ MemWf t' := by
  refine ⟨_, rfl, ?_⟩
  repeat' first
    | intro _
    | with_reducible assumption
    | decide
    | with_reducible apply MemWf.ite
    | with_reducible apply MemWf.dite
    | with_reducible apply aoCarrier_keeps
    | split
    | dsimp only

theorem execAoHartRxDone_keeps (c : Fin 4) (bytes : List Byte) (perr : Nat) (s : State) (h : MemWf s) :
    ∃ t', execAoHartRxDone c bytes perr s = .next t' ∧ MemWf t' := by
  refine ⟨_, rfl, ?_⟩
  repeat' first
    | intro _
    | with_reducible assumption
    | decide
    | with_reducible apply MemWf.ite
    | with_reducible apply MemWf.dite
    | with_reducible apply aoRxDone_keeps
    | split
    | dsimp only

theorem execAoBlockStop_keeps (stop : Bool) (s : State) (h : MemWf s) :
    ∃ t', execAoBlockStop stop s = .next t' ∧ MemWf t' := by
  refine ⟨_, rfl, ?_⟩
  repeat' first
    | intro _
    | with_reducible assumption
    | decide
    | with_reducible apply MemWf.ite
    | with_reducible apply MemWf.dite
    | with_reducible apply aoBlkWrite_keeps
    | split
    | dsimp only

end Sys2Proof.Machine
end

