-- ==== Sys2Proof/Laws/KeepDio.lean ====
section
/-! SUPPORT. Dio: the operations of Machine/Dio keep every memory in canonical form. -/
namespace Sys2Proof.Machine

open Sys2Proof

theorem dioCmd_keeps (src : Source) (c : Fin 16) (f : State → State) (s : State) (hf : ∀ u, MemWf u → MemWf (f u)) (h : MemWf s) :
    MemWf (dioCmd src c f s) := by
  unfold dioCmd
  repeat' first
    | intro _
    | with_reducible assumption
    | decide
    | with_reducible apply hf
    | with_reducible apply MemWf.ite
    | with_reducible apply MemWf.dite
    | with_reducible apply Only.keeps (logWerr_only _ _ _ _)
    | with_reducible apply Only.keeps (dioNotify_only _ _ _)
    | split
    | dsimp only

end Sys2Proof.Machine
end

