-- ==== Sys2Proof/Laws/KeepTrim.lean ====
section
/-! SUPPORT. Trim: the operations of Machine/Trim keep every memory in canonical form. -/
namespace Sys2Proof.Machine

open Sys2Proof

theorem Ao.trimMove_wf {a : Ao} {span : Bool} {d : Int} (h : AoWf a) : AoWf (a.trimMove span d) := by
  unfold Ao.trimMove
  split <;> split <;> exact h

theorem aoTrimEnter_keeps (c : Fin 4) (span : Bool) (s : State) (h : MemWf s) :
    MemWf (aoTrimEnter c span s) := by
  unfold aoTrimEnter
  repeat' first
    | intro _
    | with_reducible assumption
    | decide
    | with_reducible apply MemWf.ite
    | with_reducible apply MemWf.dite
    | with_reducible apply Only.keeps (aoEvent_only _ _ _)
    | with_reducible apply aoDrive_keeps
    | with_reducible apply MemWf.setAo
    | ((with_reducible show AoWf _); assumption)
    | with_reducible apply Ao.setConds_wf
    | split
    | dsimp only

theorem aoTrimAdjust_keeps (c : Fin 4) (up : Bool) (s : State) (h : MemWf s) :
    MemWf (aoTrimAdjust c up s) := by
  unfold aoTrimAdjust
  repeat' first
    | intro _
    | with_reducible assumption
    | decide
    | with_reducible apply MemWf.ite
    | with_reducible apply MemWf.dite
    | with_reducible apply MemWf.setAo
    | with_reducible apply aoDrive_keeps
    | ((with_reducible show AoWf _); assumption)
    | with_reducible apply aoHold_wf
    | with_reducible apply Ao.trimMove_wf
    | split
    | dsimp only

theorem aoTrimStore_keeps (c : Fin 4) (s : State) (h : MemWf s) :
    MemWf (aoTrimStore c s) := by
  unfold aoTrimStore
  repeat' first
    | intro _
    | with_reducible assumption
    | decide
    | with_reducible apply MemWf.ite
    | with_reducible apply MemWf.dite
    | with_reducible apply Only.keeps (aoEvent_only _ _ _)
    | with_reducible apply MemWf.setAo
    | ((with_reducible show AoWf _); assumption)
    | with_reducible apply Ao.setTrim_wf
    | with_reducible apply Ao.trimEnd_wf
    | split
    | dsimp only

theorem aoTrimDiscard_keeps (c : Fin 4) (s : State) (h : MemWf s) :
    MemWf (aoTrimDiscard c s) := by
  unfold aoTrimDiscard
  repeat' first
    | intro _
    | with_reducible assumption
    | decide
    | with_reducible apply MemWf.ite
    | with_reducible apply MemWf.dite
    | with_reducible apply aoTrimRestore_keeps
    | split
    | dsimp only

theorem aoTrimTimeout_keeps (c : Fin 4) (s : State) (h : MemWf s) :
    MemWf (aoTrimTimeout c s) := by
  unfold aoTrimTimeout
  repeat' first
    | intro _
    | with_reducible assumption
    | decide
    | with_reducible apply MemWf.ite
    | with_reducible apply MemWf.dite
    | with_reducible apply aoTrimRestore_keeps
    | split
    | dsimp only

theorem execAoTrimEnter_keeps (c : Fin 4) (span : Bool) (s : State) (h : MemWf s) :
    ∃ t', execAoTrimEnter c span s = .next t' ∧ MemWf t' := by
  refine ⟨_, rfl, ?_⟩
  repeat' first
    | intro _
    | with_reducible assumption
    | decide
    | with_reducible apply MemWf.ite
    | with_reducible apply MemWf.dite
    | with_reducible apply aoTrimEnter_keeps
    | split
    | dsimp only

theorem execAoTrimAdjust_keeps (c : Fin 4) (up : Bool) (s : State) (h : MemWf s) :
    ∃ t', execAoTrimAdjust c up s = .next t' ∧ MemWf t' := by
  refine ⟨_, rfl, ?_⟩
  repeat' first
    | intro _
    | with_reducible assumption
    | decide
    | with_reducible apply MemWf.ite
    | with_reducible apply MemWf.dite
    | with_reducible apply aoTrimAdjust_keeps
    | split
    | dsimp only

theorem execAoTrimDiscard_keeps (c : Fin 4) (s : State) (h : MemWf s) :
    ∃ t', execAoTrimDiscard c s = .next t' ∧ MemWf t' := by
  refine ⟨_, rfl, ?_⟩
  repeat' first
    | intro _
    | with_reducible assumption
    | decide
    | with_reducible apply MemWf.ite
    | with_reducible apply MemWf.dite
    | with_reducible apply aoTrimDiscard_keeps
    | split
    | dsimp only

theorem execAoTrimTimeout_keeps (c : Fin 4) (s : State) (h : MemWf s) :
    ∃ t', execAoTrimTimeout c s = .next t' ∧ MemWf t' := by
  refine ⟨_, rfl, ?_⟩
  repeat' first
    | intro _
    | with_reducible assumption
    | decide
    | with_reducible apply MemWf.ite
    | with_reducible apply MemWf.dite
    | with_reducible apply aoTrimTimeout_keeps
    | split
    | dsimp only

end Sys2Proof.Machine
end

