-- ==== Sys2Proof/Laws/KeepCells.lean ====
section
/-! SUPPORT. Cells: the operations of Machine/Cells keep every memory in canonical form. -/
namespace Sys2Proof.Machine

open Sys2Proof

theorem noted_keeps (f : State → State) (s : State) (hf : ∀ u, MemWf u → MemWf (f u)) (h : MemWf s) :
    MemWf (noted f s) := by
  unfold noted
  repeat' first
    | intro _
    | with_reducible assumption
    | decide
    | with_reducible apply hf
    | with_reducible apply MemWf.ite
    | with_reducible apply MemWf.dite
    | with_reducible apply Only.keeps (cellNotify_only _ _)
    | split
    | dsimp only

theorem clearHand_keeps (s : State) (h : MemWf s) :
    MemWf (clearHand s) := by
  unfold clearHand
  repeat' first
    | intro _
    | with_reducible assumption
    | decide
    | with_reducible apply MemWf.ite
    | with_reducible apply MemWf.dite
    | with_reducible apply MemWf.set_ao_dio_dioBlk
    | ((with_reducible show AoWf _); assumption)
    | ((with_reducible show AoWf _); with_reducible assumption)
    | with_reducible apply AoWf.all_map
    | with_reducible apply AoWf.all_mapFinIdx
    | with_reducible apply AoWf.all_set
    | with_reducible apply MemWf.ao
    | split
    | dsimp only

theorem letGo_keeps (s : State) (h : MemWf s) :
    MemWf (letGo s) := by
  unfold letGo
  repeat' first
    | intro _
    | with_reducible assumption
    | decide
    | with_reducible apply MemWf.ite
    | with_reducible apply MemWf.dite
    | with_reducible apply Only.keeps (uiListenEntry_only _)
    | with_reducible apply Only.keeps (dioReleaseAll_only _)
    | with_reducible apply Only.keeps (setOut_only _ _)
    | with_reducible apply clearHand_keeps
    | with_reducible apply aoLetGo_keeps
    | split
    | dsimp only

theorem releaseControl_keeps (s : State) (h : MemWf s) :
    MemWf (releaseControl s) := by
  unfold releaseControl
  repeat' first
    | intro _
    | with_reducible assumption
    | decide
    | with_reducible apply MemWf.ite
    | with_reducible apply MemWf.dite
    | with_reducible apply noted_keeps
    | with_reducible apply letGo_keeps
    | with_reducible apply aoEndSpell_keeps
    | split
    | dsimp only

theorem allOff_keeps (s : State) (h : MemWf s) :
    MemWf (allOff s) := by
  unfold allOff
  repeat' first
    | intro _
    | with_reducible assumption
    | decide
    | with_reducible apply MemWf.ite
    | with_reducible apply MemWf.dite
    | with_reducible apply Only.keeps (uiQuiet_only _)
    | with_reducible apply aoOpenAll_keeps
    | with_reducible apply Only.keeps (dioReleaseAll_only _)
    | with_reducible apply Only.keeps (setOut_only _ _)
    | with_reducible apply clearHand_keeps
    | split
    | dsimp only

end Sys2Proof.Machine
end

