-- ==== Sys2Proof/Laws/KeepCan.lean ====
section
/-! SUPPORT. Can: the operations of Machine/Can keep every memory in canonical form. -/
namespace Sys2Proof.Machine

open Sys2Proof

theorem Can.setAttempt_wf {c : Can} {b : Nat} {won fail : Bool} (h : CanWf c) : CanWf (c.setAttempt b won fail) := by
  unfold Can.setAttempt CanWf
  exact Memory.wf_memPut _ _ _ h

theorem canState_keeps (k : Fin 4) (s : State) (h : MemWf s) :
    MemWf (canState k s) := by
  unfold canState
  repeat' first
    | intro _
    | with_reducible assumption
    | decide
    | with_reducible apply MemWf.ite
    | with_reducible apply MemWf.dite
    | with_reducible apply Only.keeps (canEvent_only _ _ _ _)
    | with_reducible apply MemWf.setCan
    | ((with_reducible show CanWf _); assumption)
    | split
    | dsimp only

theorem canComplete_keeps (k : Fin 4) (b : Nat) (result : Nat) (s : State) (h : MemWf s) :
    MemWf (canComplete k b result s) := by
  unfold canComplete
  repeat' first
    | intro _
    | with_reducible assumption
    | decide
    | with_reducible apply MemWf.ite
    | with_reducible apply MemWf.dite
    | with_reducible apply MemWf.setCan
    | with_reducible apply Only.keeps (canEvent_only _ _ _ _)
    | ((with_reducible show Memory.wf _ = true); dsimp only)
    | with_reducible apply Memory.wf_memFill
    | with_reducible apply Memory.wf_memPut
    | with_reducible apply Memory.wf_memZero
    | with_reducible apply Memory.wf_memWindow
    | with_reducible apply Memory.wf_memCopyIn
    | with_reducible apply Memory.wf_foldl_memPut
    | with_reducible apply Memory.wf_filter
    | ((with_reducible show Memory.wf _ = true); first | exact rfl | exact (‹CanWf _› : CanWf _))
    | (with_reducible show CanWf _; unfold CanWf; dsimp only)
    | split
    | dsimp only

theorem canRequest_keeps (k : Fin 4) (s : State) (b : Fin 32) (h : MemWf s) :
    MemWf (canRequest k s b) := by
  unfold canRequest
  repeat' first
    | intro _
    | with_reducible assumption
    | decide
    | with_reducible apply MemWf.ite
    | with_reducible apply MemWf.dite
    | with_reducible apply MemWf.setCan
    | with_reducible apply canComplete_keeps
    | ((with_reducible show Memory.wf _ = true); dsimp only)
    | with_reducible apply Memory.wf_memFill
    | with_reducible apply Memory.wf_memPut
    | with_reducible apply Memory.wf_memZero
    | with_reducible apply Memory.wf_memWindow
    | with_reducible apply Memory.wf_memCopyIn
    | with_reducible apply Memory.wf_foldl_memPut
    | with_reducible apply Memory.wf_filter
    | ((with_reducible show Memory.wf _ = true); first | exact rfl | exact (‹CanWf _› : CanWf _))
    | (with_reducible show CanWf _; unfold CanWf; dsimp only)
    | split
    | dsimp only

theorem canTxReq_keeps (src : Source) (k : Fin 4) (mask : BitVec 32) (s : State) (h : MemWf s) :
    MemWf (canTxReq src k mask s) := by
  unfold canTxReq
  repeat' first
    | intro _
    | with_reducible assumption
    | decide
    | with_reducible apply MemWf.ite
    | with_reducible apply MemWf.dite
    | with_reducible apply MemWf.foldl
    | with_reducible apply canRequest_keeps
    | with_reducible apply Only.keeps (canLogMask_only _ _ _ _ _)
    | split
    | dsimp only

theorem canAbort_keeps (k : Fin 4) (onBus : Option (Fin 32)) (s : State) (b : Fin 32) (h : MemWf s) :
    MemWf (canAbort k onBus s b) := by
  unfold canAbort
  repeat' first
    | intro _
    | with_reducible assumption
    | decide
    | with_reducible apply MemWf.ite
    | with_reducible apply MemWf.dite
    | with_reducible apply MemWf.setCan
    | with_reducible apply canComplete_keeps
    | ((with_reducible show CanWf _); assumption)
    | split
    | dsimp only

theorem canTxAbort_keeps (src : Source) (k : Fin 4) (mask : BitVec 32) (onBus : Option (Fin 32)) (s : State) (h : MemWf s) :
    MemWf (canTxAbort src k mask onBus s) := by
  unfold canTxAbort
  repeat' first
    | intro _
    | with_reducible assumption
    | decide
    | with_reducible apply MemWf.ite
    | with_reducible apply MemWf.dite
    | with_reducible apply MemWf.foldl
    | with_reducible apply canAbort_keeps
    | with_reducible apply Only.keeps (canLogMask_only _ _ _ _ _)
    | split
    | dsimp only

theorem canAbortAll_keeps (k : Fin 4) (onBus : Option (Fin 32)) (pick : Nat → Bool) (s : State) (h : MemWf s) :
    MemWf (canAbortAll k onBus pick s) := by
  unfold canAbortAll
  repeat' first
    | intro _
    | with_reducible assumption
    | decide
    | with_reducible apply MemWf.ite
    | with_reducible apply MemWf.dite
    | with_reducible apply MemWf.foldl
    | with_reducible apply canAbort_keeps
    | split
    | dsimp only

theorem canAloneEnd_keeps (k : Fin 4) (s : State) (h : MemWf s) :
    MemWf (canAloneEnd k s) := by
  unfold canAloneEnd
  repeat' first
    | intro _
    | with_reducible assumption
    | decide
    | with_reducible apply MemWf.ite
    | with_reducible apply MemWf.dite
    | with_reducible apply MemWf.setCan
    | with_reducible apply Only.keeps (canEvent_only _ _ _ _)
    | ((with_reducible show CanWf _); assumption)
    | split
    | dsimp only

theorem canAlone_keeps (k : Fin 4) (s : State) (h : MemWf s) :
    MemWf (canAlone k s) := by
  unfold canAlone
  repeat' first
    | intro _
    | with_reducible assumption
    | decide
    | with_reducible apply MemWf.ite
    | with_reducible apply MemWf.dite
    | with_reducible apply canAbortAll_keeps
    | with_reducible apply Only.keeps (canEvent_only _ _ _ _)
    | with_reducible apply MemWf.setCan
    | ((with_reducible show CanWf _); assumption)
    | split
    | dsimp only

theorem canEnterMode_keeps (k : Fin 4) (m : Nat) (s : State) (h : MemWf s) :
    MemWf (canEnterMode k m s) := by
  unfold canEnterMode
  repeat' first
    | intro _
    | with_reducible assumption
    | decide
    | with_reducible apply MemWf.ite
    | with_reducible apply MemWf.dite
    | with_reducible apply MemWf.setCan
    | with_reducible apply canAbortAll_keeps
    | ((with_reducible show CanWf _); assumption)
    | split
    | dsimp only

theorem canSetMode_keeps (k : Fin 4) (m : Nat) (s : State) (h : MemWf s) :
    MemWf (canSetMode k m s) := by
  unfold canSetMode
  repeat' first
    | intro _
    | with_reducible assumption
    | decide
    | with_reducible apply MemWf.ite
    | with_reducible apply MemWf.dite
    | with_reducible apply Only.keeps (canStandby_only _ _)
    | with_reducible apply canEnterMode_keeps
    | split
    | dsimp only

theorem canModeWrite_keeps (src : Source) (k : Fin 4) (m : BitVec 3) (s : State) (h : MemWf s) :
    MemWf (canModeWrite src k m s).2 := by
  unfold canModeWrite
  repeat' first
    | intro _
    | with_reducible assumption
    | decide
    | with_reducible apply MemWf.ite
    | with_reducible apply MemWf.dite
    | with_reducible apply MemWf.iteSnd
    | with_reducible apply Only.keeps (logWerr_only _ _ _ _)
    | with_reducible apply MemWf.setCan
    | ((with_reducible show CanWf _); assumption)
    | split
    | dsimp only

theorem canSubmit_keeps (k : Fin 4) (f : OutFrame) (s : State) (h : MemWf s) :
    MemWf (canSubmit k f s) := by
  unfold canSubmit
  repeat' first
    | intro _
    | with_reducible assumption
    | decide
    | with_reducible apply MemWf.ite
    | with_reducible apply MemWf.dite
    | with_reducible apply canRequest_keeps
    | with_reducible apply MemWf.setCan
    | ((with_reducible show Memory.wf _ = true); dsimp only)
    | with_reducible apply Memory.wf_memFill
    | with_reducible apply Memory.wf_memPut
    | with_reducible apply Memory.wf_memZero
    | with_reducible apply Memory.wf_memWindow
    | with_reducible apply Memory.wf_memCopyIn
    | with_reducible apply Memory.wf_foldl_memPut
    | with_reducible apply Memory.wf_filter
    | ((with_reducible show Memory.wf _ = true); first | exact rfl | exact (‹CanWf _› : CanWf _))
    | (with_reducible show CanWf _; unfold CanWf; dsimp only)
    | split
    | dsimp only

theorem canStore_keeps (k : Fin 4) (own : Bool) (f : CanFrame) (age : Nat) (s : State) (h : MemWf s) :
    MemWf (canStore k own f age s) := by
  unfold canStore
  repeat' first
    | intro _
    | with_reducible assumption
    | decide
    | with_reducible apply MemWf.ite
    | with_reducible apply MemWf.dite
    | with_reducible apply MemWf.setCan
    | with_reducible apply Only.keeps (canEvent_only _ _ _ _)
    | ((with_reducible show Memory.wf _ = true); dsimp only)
    | with_reducible apply Memory.wf_memFill
    | with_reducible apply Memory.wf_memPut
    | with_reducible apply Memory.wf_memZero
    | with_reducible apply Memory.wf_memWindow
    | with_reducible apply Memory.wf_memCopyIn
    | with_reducible apply Memory.wf_foldl_memPut
    | with_reducible apply Memory.wf_filter
    | ((with_reducible show Memory.wf _ = true); first | exact rfl | exact (‹CanWf _› : CanWf _))
    | (with_reducible show CanWf _; unfold CanWf; dsimp only)
    | split
    | dsimp only

theorem canFail_keeps (k : Fin 4) (b : Fin 32) (won counted : Bool) (s : State) (h : MemWf s) :
    MemWf (canFail k b won counted s) := by
  unfold canFail
  repeat' first
    | intro _
    | with_reducible assumption
    | decide
    | with_reducible apply MemWf.ite
    | with_reducible apply MemWf.dite
    | with_reducible apply MemWf.setCan
    | with_reducible apply canComplete_keeps
    | ((with_reducible show CanWf _); assumption)
    | with_reducible apply Can.setAttempt_wf
    | split
    | dsimp only

theorem canSent_keeps (k : Fin 4) (b : Fin 32) (age : Nat) (s : State) (h : MemWf s) :
    MemWf (canSent k b age s) := by
  unfold canSent
  repeat' first
    | intro _
    | with_reducible assumption
    | decide
    | with_reducible apply MemWf.ite
    | with_reducible apply MemWf.dite
    | with_reducible apply MemWf.setCan
    | with_reducible apply canStore_keeps
    | with_reducible apply canState_keeps
    | with_reducible apply canAloneEnd_keeps
    | with_reducible apply canComplete_keeps
    | with_reducible apply Can.setAttempt_wf
    | ((with_reducible show Memory.wf _ = true); dsimp only)
    | with_reducible apply Memory.wf_memFill
    | with_reducible apply Memory.wf_memPut
    | with_reducible apply Memory.wf_memZero
    | with_reducible apply Memory.wf_memWindow
    | with_reducible apply Memory.wf_memCopyIn
    | with_reducible apply Memory.wf_foldl_memPut
    | with_reducible apply Memory.wf_filter
    | ((with_reducible show Memory.wf _ = true); first | exact rfl | exact Can.setAttempt_wf ‹CanWf _› | exact (‹CanWf _› : CanWf _))
    | (with_reducible show CanWf _; unfold CanWf; dsimp only)
    | split
    | dsimp only

theorem canTdcv_keeps (k : Fin 4) (v : Option (BitVec 8)) (s : State) (h : MemWf s) :
    MemWf (canTdcv k v s) := by
  unfold canTdcv
  repeat' first
    | intro _
    | with_reducible assumption
    | decide
    | with_reducible apply MemWf.ite
    | with_reducible apply MemWf.dite
    | with_reducible apply MemWf.setCan
    | with_reducible apply Only.keeps (canEvent_only _ _ _ _)
    | ((with_reducible show CanWf _); assumption)
    | split
    | dsimp only

theorem canAttempt_keeps (k : Fin 4) (b : Fin 32) (e : TxEnd) (tdcv : Option (BitVec 8)) (age : Nat) (s : State) (h : MemWf s) :
    MemWf (canAttempt k b e tdcv age s) := by
  unfold canAttempt
  repeat' first
    | intro _
    | with_reducible assumption
    | decide
    | with_reducible apply MemWf.ite
    | with_reducible apply MemWf.dite
    | with_reducible apply canComplete_keeps
    | with_reducible apply canFail_keeps
    | with_reducible apply canTdcv_keeps
    | with_reducible apply canSent_keeps
    | with_reducible apply MemWf.setCan
    | with_reducible apply canAlone_keeps
    | ((with_reducible show CanWf _); assumption)
    | with_reducible apply Ao.lost_wf
    | split
    | dsimp only

theorem canBusOff_keeps (k : Fin 4) (s : State) (h : MemWf s) :
    MemWf (canBusOff k s) := by
  unfold canBusOff
  repeat' first
    | intro _
    | with_reducible assumption
    | decide
    | with_reducible apply MemWf.ite
    | with_reducible apply MemWf.dite
    | with_reducible apply Only.keeps (canEvent_only _ _ _ _)
    | with_reducible apply MemWf.setCan
    | ((with_reducible show CanWf _); assumption)
    | split
    | dsimp only

theorem canCount_keeps (k : Fin 4) (type : BitVec 4) (tx heavy : Bool) (s : State) (h : MemWf s) :
    MemWf (canCount k type tx heavy s) := by
  unfold canCount
  repeat' first
    | intro _
    | with_reducible assumption
    | decide
    | with_reducible apply MemWf.ite
    | with_reducible apply MemWf.dite
    | with_reducible apply MemWf.setCan
    | with_reducible apply canBusOff_keeps
    | with_reducible apply canState_keeps
    | ((with_reducible show CanWf _); assumption)
    | split
    | dsimp only

theorem canRecDown_keeps (k : Fin 4) (s : State) (h : MemWf s) :
    MemWf (canRecDown k s) := by
  unfold canRecDown
  repeat' first
    | intro _
    | with_reducible assumption
    | decide
    | with_reducible apply MemWf.ite
    | with_reducible apply MemWf.dite
    | with_reducible apply canState_keeps
    | with_reducible apply MemWf.setCan
    | with_reducible apply Only.keeps (State.drew_only _)
    | ((with_reducible show CanWf _); assumption)
    | split
    | dsimp only

theorem canReset_keeps (k : Fin 4) (s : State) (h : MemWf s) :
    MemWf (canReset k s) := by
  unfold canReset
  repeat' first
    | intro _
    | with_reducible assumption
    | decide
    | with_reducible apply MemWf.ite
    | with_reducible apply MemWf.dite
    | with_reducible apply Only.keeps (canStandby_only _ _)
    | with_reducible apply MemWf.setCan
    | ((with_reducible show CanWf _); assumption)
    | split
    | dsimp only

theorem canCtlWrite_keeps (src : Source) (k : Fin 4) (v : Word) (s : State) (h : MemWf s) :
    MemWf (canCtlWrite src k v s).2 := by
  unfold canCtlWrite
  repeat' first
    | intro _
    | with_reducible assumption
    | decide
    | with_reducible apply MemWf.ite
    | with_reducible apply MemWf.dite
    | with_reducible apply MemWf.iteSnd
    | with_reducible apply Only.keeps (logWerr_only _ _ _ _)
    | with_reducible apply MemWf.setCan
    | ((with_reducible show CanWf _); assumption)
    | split
    | dsimp only

theorem canTimeWrite_keeps (src : Source) (k : Fin 4) (off : Nat) (v : Word) (s : State) (h : MemWf s) :
    MemWf (canTimeWrite src k off v s).2 := by
  unfold canTimeWrite
  repeat' first
    | intro _
    | with_reducible assumption
    | decide
    | with_reducible apply MemWf.ite
    | with_reducible apply MemWf.dite
    | with_reducible apply MemWf.iteSnd
    | with_reducible apply Only.keeps (logWerr_only _ _ _ _)
    | with_reducible apply MemWf.setCan
    | ((with_reducible show CanWf _); assumption)
    | split
    | dsimp only

theorem canRamWrite_keeps (src : Source) (k : Fin 4) (off : Nat) (v : Word) (s : State) (h : MemWf s) :
    MemWf (canRamWrite src k off v s).2 := by
  unfold canRamWrite
  repeat' first
    | intro _
    | with_reducible assumption
    | decide
    | with_reducible apply MemWf.ite
    | with_reducible apply MemWf.dite
    | with_reducible apply MemWf.iteSnd
    | with_reducible apply Only.keeps (logWerr_only _ _ _ _)
    | with_reducible apply MemWf.setCan
    | ((with_reducible show Memory.wf _ = true); dsimp only)
    | with_reducible apply Memory.wf_memFill
    | with_reducible apply Memory.wf_memPut
    | with_reducible apply Memory.wf_memZero
    | with_reducible apply Memory.wf_memWindow
    | with_reducible apply Memory.wf_memCopyIn
    | with_reducible apply Memory.wf_foldl_memPut
    | with_reducible apply Memory.wf_filter
    | ((with_reducible show Memory.wf _ = true); first | exact rfl | exact (‹CanWf _› : CanWf _))
    | (with_reducible show CanWf _; unfold CanWf; dsimp only)
    | split
    | dsimp only

theorem execCanTxRequest_keeps (src : Source) (k : Fin 4) (mask : BitVec 32) (s : State) (h : MemWf s) :
    ∃ t', execCanTxRequest src k mask s = .next t' ∧ MemWf t' := by
  refine ⟨_, rfl, ?_⟩
  repeat' first
    | intro _
    | with_reducible assumption
    | decide
    | with_reducible apply MemWf.ite
    | with_reducible apply MemWf.dite
    | with_reducible apply canTxReq_keeps
    | split
    | dsimp only

theorem execCanTxAbort_keeps (src : Source) (k : Fin 4) (mask : BitVec 32) (onBus : Option (Fin 32)) (s : State) (h : MemWf s) :
    ∃ t', execCanTxAbort src k mask onBus s = .next t' ∧ MemWf t' := by
  refine ⟨_, rfl, ?_⟩
  repeat' first
    | intro _
    | with_reducible assumption
    | decide
    | with_reducible apply MemWf.ite
    | with_reducible apply MemWf.dite
    | with_reducible apply canTxAbort_keeps
    | split
    | dsimp only

theorem execCanBusoffRecovered_keeps (k : Fin 4) (s : State) (h : MemWf s) :
    ∃ t', execCanBusoffRecovered k s = .next t' ∧ MemWf t' := by
  refine ⟨_, rfl, ?_⟩
  repeat' first
    | intro _
    | with_reducible assumption
    | decide
    | with_reducible apply MemWf.ite
    | with_reducible apply MemWf.dite
    | with_reducible apply Only.keeps (canEvent_only _ _ _ _)
    | with_reducible apply MemWf.setCan
    | ((with_reducible show CanWf _); assumption)
    | split
    | dsimp only

theorem execCanModeWrite_keeps (src : Source) (k : Fin 4) (mode : BitVec 3) (s : State) (h : MemWf s) :
    ∃ t', execCanModeWrite src k mode s = .next t' ∧ MemWf t' := by
  refine ⟨_, rfl, ?_⟩
  repeat' first
    | intro _
    | with_reducible assumption
    | decide
    | with_reducible apply MemWf.ite
    | with_reducible apply MemWf.dite
    | with_reducible apply canModeWrite_keeps
    | split
    | dsimp only

theorem execCanModeChange_keeps (k : Fin 4) (s : State) (h : MemWf s) :
    ∃ t', execCanModeChange k s = .next t' ∧ MemWf t' := by
  refine ⟨_, rfl, ?_⟩
  repeat' first
    | intro _
    | with_reducible assumption
    | decide
    | with_reducible apply MemWf.ite
    | with_reducible apply MemWf.dite
    | with_reducible apply canSetMode_keeps
    | split
    | dsimp only

theorem execCanIntegrated_keeps (k : Fin 4) (s : State) (h : MemWf s) :
    ∃ t', execCanIntegrated k s = .next t' ∧ MemWf t' := by
  refine ⟨_, rfl, ?_⟩
  repeat' first
    | intro _
    | with_reducible assumption
    | decide
    | with_reducible apply MemWf.ite
    | with_reducible apply MemWf.dite
    | with_reducible apply canState_keeps
    | with_reducible apply MemWf.setCan
    | ((with_reducible show CanWf _); assumption)
    | split
    | dsimp only

end Sys2Proof.Machine
end

