-- ==== Sys2Proof/Laws/KeepImzOut.lean ====
section
/-! SUPPORT. ImzOut: the operations of Machine/ImzOut keep every memory in canonical form. -/
namespace Sys2Proof.Machine

open Sys2Proof

theorem imzUp_keeps (f : OutFrame) (s : State) (h : MemWf s) :
    MemWf (imzUp f s) := by
  unfold imzUp
  repeat' first
    | intro _
    | with_reducible assumption
    | decide
    | with_reducible apply MemWf.ite
    | with_reducible apply MemWf.dite
    | with_reducible apply canSubmit_keeps
    | split
    | dsimp only

theorem imzDown_keeps (f : OutFrame) (s : State) (h : MemWf s) :
    MemWf (imzDown f s) := by
  unfold imzDown
  repeat' first
    | intro _
    | with_reducible assumption
    | decide
    | with_reducible apply MemWf.ite
    | with_reducible apply MemWf.dite
    | with_reducible apply canSubmit_keeps
    | split
    | dsimp only

theorem imzSendUp_keeps (cls typ dir : Nat) (data : List Byte) (s : State) (h : MemWf s) :
    MemWf (imzSendUp cls typ dir data s) := by
  unfold imzSendUp
  repeat' first
    | intro _
    | with_reducible assumption
    | decide
    | with_reducible apply MemWf.ite
    | with_reducible apply MemWf.dite
    | with_reducible apply imzUp_keeps
    | split
    | dsimp only

theorem imzSendDown_keeps (cls typ dir : Nat) (data : List Byte) (s : State) (h : MemWf s) :
    MemWf (imzSendDown cls typ dir data s) := by
  unfold imzSendDown
  repeat' first
    | intro _
    | with_reducible assumption
    | decide
    | with_reducible apply MemWf.ite
    | with_reducible apply MemWf.dite
    | with_reducible apply imzDown_keeps
    | split
    | dsimp only

theorem imzReport_keeps (requested : Bool) (requester : Half) (s : State) (h : MemWf s) :
    MemWf (imzReport requested requester s) := by
  unfold imzReport
  repeat' first
    | intro _
    | with_reducible assumption
    | decide
    | with_reducible apply MemWf.ite
    | with_reducible apply MemWf.dite
    | with_reducible apply MemWf.foldl
    | with_reducible apply MemWf.setImz
    | with_reducible apply imzSendUp_keeps
    | ((with_reducible show ImzWf _); assumption)
    | ((with_reducible show ImzWf _); exact (‹MemWf _› : MemWf _).imz)
    | split
    | dsimp only

theorem imzLaunch_keeps (f : AlmFrame) (s : State) (h : MemWf s) :
    MemWf (imzLaunch f s) := by
  unfold imzLaunch
  repeat' first
    | intro _
    | with_reducible assumption
    | decide
    | with_reducible apply MemWf.ite
    | with_reducible apply MemWf.dite
    | with_reducible apply imzReport_keeps
    | with_reducible apply imzUp_keeps
    | with_reducible apply MemWf.setImz
    | ((with_reducible show ImzWf _); assumption)
    | ((with_reducible show ImzWf _); exact (‹MemWf _› : MemWf _).imz)
    | split
    | dsimp only

theorem drainList_keeps (q kept : List AlmFrame) (s : State) (h : MemWf s) : MemWf (drainList q kept s) := by
  induction q generalizing kept s with
  | nil => exact h.setImz id
  | cons f rest ih =>
    unfold drainList
    repeat' first
      | with_reducible assumption
      | with_reducible apply MemWf.ite
      | with_reducible apply ih
      | with_reducible apply imzLaunch_keeps
      | with_reducible apply MemWf.setImz
      | ((with_reducible show ImzWf _); assumption)
      | intro _

theorem imzDrain_keeps (s : State) (h : MemWf s) :
    MemWf (imzDrain s) := by
  unfold imzDrain
  repeat' first
    | intro _
    | with_reducible assumption
    | decide
    | with_reducible apply MemWf.ite
    | with_reducible apply MemWf.dite
    | with_reducible apply drainList_keeps
    | split
    | dsimp only

theorem imzEnqueue_keeps (f : AlmFrame) (s : State) (h : MemWf s) :
    MemWf (imzEnqueue f s) := by
  unfold imzEnqueue
  repeat' first
    | intro _
    | with_reducible assumption
    | decide
    | with_reducible apply MemWf.ite
    | with_reducible apply MemWf.dite
    | with_reducible apply imzDrain_keeps
    | with_reducible apply MemWf.setImz
    | ((with_reducible show ImzWf _); assumption)
    | ((with_reducible show ImzWf _); exact (‹MemWf _› : MemWf _).imz)
    | split
    | dsimp only

theorem imzEntry_keeps (n : Fin 80) (e : TrEntry) (s : State) (h : MemWf s) :
    MemWf (imzEntry n e s) := by
  unfold imzEntry
  repeat' first
    | intro _
    | with_reducible assumption
    | decide
    | with_reducible apply MemWf.ite
    | with_reducible apply MemWf.dite
    | with_reducible apply imzEnqueue_keeps
    | with_reducible apply Only.keeps (imzLoss_only _ _)
    | split
    | dsimp only

theorem imzPending_keeps (addr cause cat : Nat) (onset expiry : Ts) (s : State) (h : MemWf s) :
    MemWf (imzPending addr cause cat onset expiry s) := by
  unfold imzPending
  repeat' first
    | intro _
    | with_reducible assumption
    | decide
    | with_reducible apply MemWf.ite
    | with_reducible apply MemWf.dite
    | with_reducible apply imzEnqueue_keeps
    | with_reducible apply MemWf.setImz
    | ((with_reducible show ImzWf _); assumption)
    | ((with_reducible show ImzWf _); exact (‹MemWf _› : MemWf _).imz)
    | split
    | dsimp only

theorem imzWithdraw_keeps (addr : Nat) (onset : Ts) (onBus : Option (Fin 32)) (s : State) (k : Fin 4) (h : MemWf s) :
    MemWf (imzWithdraw addr onset onBus s k) := by
  unfold imzWithdraw
  repeat' first
    | intro _
    | with_reducible assumption
    | decide
    | with_reducible apply MemWf.ite
    | with_reducible apply MemWf.dite
    | with_reducible apply MemWf.foldl
    | with_reducible apply canAbort_keeps
    | split
    | dsimp only

theorem dropNotice_keeps (addr : Nat) (onset : Ts) (s : State) (h : MemWf s) :
    MemWf (dropNotice addr onset s) := by
  unfold dropNotice
  repeat' first
    | intro _
    | with_reducible assumption
    | decide
    | with_reducible apply MemWf.ite
    | with_reducible apply MemWf.dite
    | with_reducible apply MemWf.setImz
    | ((with_reducible show ImzWf _); assumption)
    | ((with_reducible show ImzWf _); exact (‹MemWf _› : MemWf _).imz)
    | split
    | dsimp only

theorem setNotice_keeps (addr : Nat) (onset : Ts) (f : Notice → Notice) (s : State) (h : MemWf s) :
    MemWf (setNotice addr onset f s) := by
  unfold setNotice
  repeat' first
    | intro _
    | with_reducible assumption
    | decide
    | with_reducible apply MemWf.ite
    | with_reducible apply MemWf.dite
    | with_reducible apply MemWf.setImz
    | ((with_reducible show ImzWf _); assumption)
    | ((with_reducible show ImzWf _); exact (‹MemWf _› : MemWf _).imz)
    | split
    | dsimp only

theorem imzUnqueue_keeps (addr : Nat) (onset : Ts) (s : State) (h : MemWf s) :
    MemWf (imzUnqueue addr onset s) := by
  unfold imzUnqueue
  repeat' first
    | intro _
    | with_reducible assumption
    | decide
    | with_reducible apply MemWf.ite
    | with_reducible apply MemWf.dite
    | with_reducible apply MemWf.setImz
    | ((with_reducible show ImzWf _); assumption)
    | ((with_reducible show ImzWf _); exact (‹MemWf _› : MemWf _).imz)
    | split
    | dsimp only

theorem retractSend_keeps (addr : Nat) (onset : Ts) (data : List Byte) (s : State) (h : MemWf s) :
    MemWf (retractSend addr onset data s) := by
  unfold retractSend
  repeat' first
    | intro _
    | with_reducible assumption
    | decide
    | with_reducible apply MemWf.ite
    | with_reducible apply MemWf.dite
    | with_reducible apply imzEnqueue_keeps
    | split
    | dsimp only

theorem retractWaiting_keeps (addr : Nat) (onset : Ts) (data : List Byte) (s : State) (h : MemWf s) :
    MemWf (retractWaiting addr onset data s) := by
  unfold retractWaiting
  repeat' first
    | intro _
    | with_reducible assumption
    | decide
    | with_reducible apply MemWf.ite
    | with_reducible apply MemWf.dite
    | with_reducible apply imzWithdraw_keeps
    | with_reducible apply Only.keeps (State.drew_only _)
    | with_reducible apply setNotice_keeps
    | with_reducible apply dropNotice_keeps
    | split
    | dsimp only

theorem imzRetract_keeps (p : Fin 80) (cause cat : Nat) (onset scan : Ts) (s : State) (h : MemWf s) :
    MemWf (imzRetract p cause cat onset scan s) := by
  unfold imzRetract
  repeat' first
    | intro _
    | with_reducible assumption
    | decide
    | with_reducible apply MemWf.ite
    | with_reducible apply MemWf.dite
    | with_reducible apply dropNotice_keeps
    | with_reducible apply imzUnqueue_keeps
    | with_reducible apply retractWaiting_keeps
    | with_reducible apply retractSend_keeps
    | with_reducible apply Only.keeps (imzLoss_only _ _)
    | split
    | dsimp only

theorem imzResync_keeps (s : State) (h : MemWf s) :
    MemWf (imzResync s) := by
  unfold imzResync
  repeat' first
    | intro _
    | with_reducible assumption
    | decide
    | with_reducible apply MemWf.ite
    | with_reducible apply MemWf.dite
    | with_reducible apply MemWf.foldl
    | with_reducible apply imzEntry_keeps
    | with_reducible apply Only.keeps (State.setPt_only _ _ _)
    | split
    | dsimp only

theorem imzStateReport_keeps (requester : Half) (s : State) (h : MemWf s) :
    MemWf (imzStateReport requester s) := by
  unfold imzStateReport
  repeat' first
    | intro _
    | with_reducible assumption
    | decide
    | with_reducible apply MemWf.ite
    | with_reducible apply MemWf.dite
    | with_reducible apply MemWf.foldl
    | with_reducible apply imzEntry_keeps
    | with_reducible apply imzEnqueue_keeps
    | split
    | dsimp only

theorem imzToward_keeps (down : Bool) (cls typ : Nat) (data : List Byte) (s : State) (h : MemWf s) :
    MemWf (imzToward down cls typ data s) := by
  unfold imzToward
  repeat' first
    | intro _
    | with_reducible assumption
    | decide
    | with_reducible apply MemWf.ite
    | with_reducible apply MemWf.dite
    | with_reducible apply imzSendDown_keeps
    | with_reducible apply imzSendUp_keeps
    | split
    | dsimp only

theorem imzReply_keeps (r : ReqRef) (result detail count : Nat) (words : List Word) (s : State) (h : MemWf s) :
    MemWf (imzReply r result detail count words s) := by
  unfold imzReply
  repeat' first
    | intro _
    | with_reducible assumption
    | decide
    | with_reducible apply MemWf.ite
    | with_reducible apply MemWf.dite
    | with_reducible apply imzToward_keeps
    | with_reducible apply MemWf.setImz
    | ((with_reducible show ImzWf _); assumption)
    | ((with_reducible show ImzWf _); exact (‹MemWf _› : MemWf _).imz)
    | split
    | dsimp only

theorem answerTo_keeps (o : Origin) (result detail count : Nat) (s : State) (h : MemWf s) :
    MemWf (answerTo o result detail count s) := by
  unfold answerTo
  repeat' first
    | intro _
    | with_reducible assumption
    | decide
    | with_reducible apply MemWf.ite
    | with_reducible apply MemWf.dite
    | with_reducible apply imzReply_keeps
    | split
    | dsimp only

theorem imzSendCmd_keeps (target : Half) (down : Bool) (body : Byte → List Byte) (s : State) (h : MemWf s) :
    MemWf (imzSendCmd target down body s) := by
  unfold imzSendCmd
  repeat' first
    | intro _
    | with_reducible assumption
    | decide
    | with_reducible apply MemWf.ite
    | with_reducible apply MemWf.dite
    | with_reducible apply imzToward_keeps
    | with_reducible apply MemWf.setImz
    | ((with_reducible show ImzWf _); assumption)
    | ((with_reducible show ImzWf _); exact (‹MemWf _› : MemWf _).imz)
    | split
    | dsimp only

theorem imzStateReq_keeps (node : Half) (s : State) (h : MemWf s) :
    MemWf (imzStateReq node s) := by
  unfold imzStateReq
  repeat' first
    | intro _
    | with_reducible assumption
    | decide
    | with_reducible apply MemWf.ite
    | with_reducible apply MemWf.dite
    | with_reducible apply imzSendCmd_keeps
    | split
    | dsimp only

theorem execImzResyncSend_keeps (s : State) (h : MemWf s) :
    ∃ t', execImzResyncSend s = .next t' ∧ MemWf t' := by
  refine ⟨_, rfl, ?_⟩
  repeat' first
    | intro _
    | with_reducible assumption
    | decide
    | with_reducible apply MemWf.ite
    | with_reducible apply MemWf.dite
    | with_reducible apply imzResync_keeps
    | split
    | dsimp only

end Sys2Proof.Machine
end

