-- ==== Sys2Proof/Laws/KeepDelay.lean ====
section
/-! SUPPORT. Delay: the operations of Machine/Delay keep every memory in canonical form. -/
namespace Sys2Proof.Machine

open Sys2Proof

theorem publishPending_keeps (s : State) (n : Fin 80) (h : MemWf s) :
    MemWf (publishPending s n) := by
  unfold publishPending
  repeat' first
    | intro _
    | with_reducible assumption
    | decide
    | with_reducible apply MemWf.ite
    | with_reducible apply MemWf.dite
    | with_reducible apply Only.keeps (State.setPt_only _ _ _)
    | with_reducible apply imzPending_keeps
    | with_reducible apply Only.keeps (imzLoss_only _ _)
    | with_reducible apply MemWf.set_pev
    | split
    | dsimp only

theorem phaseEPoint_keeps (acc : State × List Res) (n : Fin 80) (h : MemWf acc.1) :
    MemWf (phaseEPoint acc n).1 := by
  unfold phaseEPoint
  repeat' first
    | intro _
    | with_reducible assumption
    | decide
    | with_reducible apply MemWf.ite
    | with_reducible apply MemWf.dite
    | with_reducible apply Only.keeps (State.setPt_only _ _ _)
    | with_reducible apply imzRetract_keeps
    | with_reducible apply publishPending_keeps
    | split
    | dsimp only

theorem phaseE_keeps (s : State) (h : MemWf s) : MemWf (phaseE s).1 := by
  have e : ∀ (l : List (Fin 80)) (a : State × List Res), MemWf a.1 → MemWf (l.foldl phaseEPoint a).1 := by
    intro l
    induction l with
    | nil => exact fun _ g => g
    | cons n l ih => exact fun a g => ih _ (phaseEPoint_keeps _ _ g)
  exact e _ _ h.set_pev

end Sys2Proof.Machine
end

