-- ==== Sys2Proof/Laws/KeepAnn.lean ====
section
/-! SUPPORT. Ann: the operations of Machine/Ann keep every memory in canonical form. -/
namespace Sys2Proof.Machine

open Sys2Proof

theorem annSend_keeps (n : Fin 80) (e : TrEntry) (s : State) (h : MemWf s) :
    MemWf (annSend n e s) := by
  unfold annSend
  repeat' first
    | intro _
    | with_reducible assumption
    | decide
    | with_reducible apply MemWf.ite
    | with_reducible apply MemWf.dite
    | with_reducible apply Only.keeps (State.setAnn_only _ _)
    | with_reducible apply Only.keeps (recLose_only _ _)
    | with_reducible apply imzEntry_keeps
    | split
    | dsimp only

theorem annTrans_keeps (n : Fin 80) (ev : Nat) (flags : BitVec 8) (keep cause onset time : Nat) (org : Origin) (s : State) (h : MemWf s) :
    MemWf (annTrans n ev flags keep cause onset time org s) := by
  unfold annTrans
  repeat' first
    | intro _
    | with_reducible assumption
    | decide
    | with_reducible apply MemWf.ite
    | with_reducible apply MemWf.dite
    | with_reducible apply Only.keeps (State.setPt_only _ _ _)
    | with_reducible apply annSend_keeps
    | with_reducible apply Only.keeps (State.setAnn_only _ _)
    | split
    | dsimp only

theorem annResult_keeps (s : State) (r : Res) (h : MemWf s) :
    MemWf (annResult s r) := by
  unfold annResult
  repeat' first
    | intro _
    | with_reducible assumption
    | decide
    | with_reducible apply MemWf.ite
    | with_reducible apply MemWf.dite
    | with_reducible apply Only.keeps (State.setPt_only _ _ _)
    | with_reducible apply annTrans_keeps
    | split
    | dsimp only

theorem annService_keeps (n : Fin 80) (oos : Bool) (org : Origin) (s : State) (h : MemWf s) :
    MemWf (annService n oos org s) := by
  unfold annService
  repeat' first
    | intro _
    | with_reducible assumption
    | decide
    | with_reducible apply MemWf.ite
    | with_reducible apply MemWf.dite
    | with_reducible apply annTrans_keeps
    | with_reducible apply Only.keeps (State.setPt_only _ _ _)
    | split
    | dsimp only

theorem annShelveEnd_keeps (s : State) (n : Fin 80) (h : MemWf s) :
    MemWf (annShelveEnd s n) := by
  unfold annShelveEnd
  repeat' first
    | intro _
    | with_reducible assumption
    | decide
    | with_reducible apply MemWf.ite
    | with_reducible apply MemWf.dite
    | with_reducible apply annTrans_keeps
    | with_reducible apply Only.keeps (State.setPt_only _ _ _)
    | split
    | dsimp only

theorem annRemove_keeps (n : Fin 80) (s : State) (h : MemWf s) :
    MemWf (annRemove n s) := by
  unfold annRemove
  repeat' first
    | intro _
    | with_reducible assumption
    | decide
    | with_reducible apply MemWf.ite
    | with_reducible apply MemWf.dite
    | with_reducible apply annTrans_keeps
    | split
    | dsimp only

theorem annMemory_keeps (n : Fin 80) (s : State) (h : MemWf s) :
    MemWf (annMemory n s) := by
  unfold annMemory
  repeat' first
    | intro _
    | with_reducible assumption
    | decide
    | with_reducible apply MemWf.ite
    | with_reducible apply MemWf.dite
    | with_reducible apply annTrans_keeps
    | with_reducible apply Only.keeps (State.setPt_only _ _ _)
    | split
    | dsimp only

theorem annAck_keeps (n : Fin 80) (org : Origin) (s : State) (h : MemWf s) :
    MemWf (annAck n org s) := by
  unfold annAck
  repeat' first
    | intro _
    | with_reducible assumption
    | decide
    | with_reducible apply MemWf.ite
    | with_reducible apply MemWf.dite
    | with_reducible apply annTrans_keeps
    | split
    | dsimp only

theorem annShelve_keeps (n : Fin 80) (minutes : Nat) (org : Origin) (s : State) (h : MemWf s) :
    MemWf (annShelve n minutes org s) := by
  unfold annShelve
  repeat' first
    | intro _
    | with_reducible assumption
    | decide
    | with_reducible apply MemWf.ite
    | with_reducible apply MemWf.dite
    | with_reducible apply Only.keeps (State.setPt_only _ _ _)
    | with_reducible apply annTrans_keeps
    | split
    | dsimp only

theorem annUnshelve_keeps (n : Fin 80) (org : Origin) (s : State) (h : MemWf s) :
    MemWf (annUnshelve n org s) := by
  unfold annUnshelve
  repeat' first
    | intro _
    | with_reducible assumption
    | decide
    | with_reducible apply MemWf.ite
    | with_reducible apply MemWf.dite
    | with_reducible apply Only.keeps (State.setPt_only _ _ _)
    | with_reducible apply annTrans_keeps
    | split
    | dsimp only

theorem annAct_keeps (c : AnnCmd) (n : Fin 80) (s : State) (h : MemWf s) :
    MemWf (annAct c n s) := by
  unfold annAct
  repeat' first
    | intro _
    | with_reducible assumption
    | decide
    | with_reducible apply MemWf.ite
    | with_reducible apply MemWf.dite
    | with_reducible apply annAck_keeps
    | with_reducible apply annShelve_keeps
    | with_reducible apply annUnshelve_keeps
    | split
    | dsimp only

theorem annForward_keeps (c : AnnCmd) (a : Nat) (s : State) (h : MemWf s) :
    MemWf (annForward c a s) := by
  unfold annForward
  repeat' first
    | intro _
    | with_reducible assumption
    | decide
    | with_reducible apply MemWf.ite
    | with_reducible apply MemWf.dite
    | with_reducible apply imzSendCmd_keeps
    | split
    | dsimp only

theorem annOnSlot_keeps (c : AnnCmd) (acc : State × AnnTally) (i : Nat) (h : MemWf acc.1) :
    MemWf (annOnSlot c acc i).1 := by
  unfold annOnSlot
  repeat' first
    | intro _
    | with_reducible assumption
    | decide
    | with_reducible apply MemWf.ite
    | with_reducible apply MemWf.dite
    | with_reducible apply annAct_keeps
    | split
    | dsimp only

theorem annOnRemote_keeps (c : AnnCmd) (acc : State × AnnTally) (a : Nat) (h : MemWf acc.1) :
    MemWf (annOnRemote c acc a).1 := by
  unfold annOnRemote
  repeat' first
    | intro _
    | with_reducible assumption
    | decide
    | with_reducible apply MemWf.ite
    | with_reducible apply MemWf.dite
    | with_reducible apply annForward_keeps
    | split
    | dsimp only

theorem annCarry_keeps (s : State) (c : AnnCmd) (h : MemWf s) : MemWf (annCarry s c).2.2 := by
  have e : ∀ (l : List Nat) (a : State × AnnTally), MemWf a.1 → MemWf (l.foldl (annOnSlot c) a).1 := by
    intro l
    induction l with
    | nil => exact fun _ g => g
    | cons n l ih => exact fun a g => ih _ (annOnSlot_keeps _ _ _ g)
  have k : ∀ (l : List Nat) (a : State × AnnTally), MemWf a.1 → MemWf (l.foldl (annOnRemote c) a).1 := by
    intro l
    induction l with
    | nil => exact fun _ g => g
    | cons n l ih => exact fun a g => ih _ (annOnRemote_keeps _ _ _ g)
  unfold annCarry
  split
  · exact (annSilence_only _ _ _).keeps (by decide) h
  · split
    · exact h
    · split
      · exact h
      · split
        · exact h
        · exact k _ _ (e _ (s, {}) h)

theorem annCommand_keeps (s : State) (c : AnnCmd) (h : MemWf s) :
    MemWf (annCommand s c) := by
  unfold annCommand
  repeat' first
    | intro _
    | with_reducible assumption
    | decide
    | with_reducible apply MemWf.ite
    | with_reducible apply MemWf.dite
    | with_reducible apply annCarry_keeps
    | with_reducible apply Only.keeps (State.setAnn_only _ _)
    | with_reducible apply answerTo_keeps
    | with_reducible apply Only.keeps (buttonRefused_only _ _ _)
    | with_reducible apply Only.keeps (keyDone_only _ _ _ _)
    | split
    | dsimp only

end Sys2Proof.Machine
end

