-- ==== Sys2Proof/Laws/KeepGrp.lean ====
section
/-! SUPPORT. Grp: the operations of Machine/Grp keep every memory in canonical form. -/
namespace Sys2Proof.Machine

open Sys2Proof

theorem grpDropped_keeps (node : Half) (s : State) (h : MemWf s) :
    MemWf (grpDropped node s) := by
  unfold grpDropped
  repeat' first
    | intro _
    | with_reducible assumption
    | decide
    | with_reducible apply MemWf.ite
    | with_reducible apply MemWf.dite
    | with_reducible apply imzStateReq_keeps
    | with_reducible apply Only.keeps (grpIncomplete_only _ _ _)
    | with_reducible apply Only.keeps (State.setGrps_only _ _)
    | split
    | dsimp only

end Sys2Proof.Machine
end

