-- ==== Sys2Proof/Laws/KeepCall.lean ====
section
/-! SUPPORT. Call: the operations of Machine/Call keep every memory in canonical form. -/
namespace Sys2Proof.Machine

open Sys2Proof

theorem callSend_keeps (n : Nat) (s : State) (h : MemWf s) :
    MemWf (callSend n s) := by
  unfold callSend
  repeat' first
    | intro _
    | with_reducible assumption
    | decide
    | with_reducible apply MemWf.ite
    | with_reducible apply MemWf.dite
    | with_reducible apply imzSendDown_keeps
    | with_reducible apply Only.keeps (State.putSess_only _ _ _)
    | split
    | dsimp only

theorem callNewStep_keeps (n : Nat) (s : State) (h : MemWf s) :
    MemWf (callNewStep n s) := by
  unfold callNewStep
  repeat' first
    | intro _
    | with_reducible assumption
    | decide
    | with_reducible apply MemWf.ite
    | with_reducible apply MemWf.dite
    | with_reducible apply callSend_keeps
    | with_reducible apply Only.keeps (State.putSess_only _ _ _)
    | ((with_reducible show CanWf _); assumption)
    | split
    | dsimp only

theorem callAnnounce_keeps (n : Nat) (s : State) (h : MemWf s) :
    MemWf (callAnnounce n s) := by
  unfold callAnnounce
  repeat' first
    | intro _
    | with_reducible assumption
    | decide
    | with_reducible apply MemWf.ite
    | with_reducible apply MemWf.dite
    | with_reducible apply callNewStep_keeps
    | with_reducible apply Only.keeps (raise_only _ _ _)
    | split
    | dsimp only

theorem callJudge_keeps (n : Nat) (old : Nat) (s : State) (h : MemWf s) :
    MemWf (callJudge n old s) := by
  unfold callJudge
  repeat' first
    | intro _
    | with_reducible assumption
    | decide
    | with_reducible apply MemWf.ite
    | with_reducible apply MemWf.dite
    | with_reducible apply Only.keeps (State.putSess_only _ _ _)
    | with_reducible apply Only.keeps (State.setCall_only _ _)
    | with_reducible apply callAnnounce_keeps
    | with_reducible apply callNewStep_keeps
    | split
    | dsimp only

theorem callFree_keeps (s : State) (n : Nat) (h : MemWf s) :
    MemWf (callFree s n) := by
  unfold callFree
  repeat' first
    | intro _
    | with_reducible assumption
    | decide
    | with_reducible apply MemWf.ite
    | with_reducible apply MemWf.dite
    | with_reducible apply callAnnounce_keeps
    | with_reducible apply Only.keeps (State.putSess_only _ _ _)
    | ((with_reducible show CanWf _); assumption)
    | split
    | dsimp only

theorem callBegin_keeps (n : Nat) (w : WaitAlarm) (st : Nat) (s : State) (h : MemWf s) :
    MemWf (callBegin n w st s) := by
  unfold callBegin
  repeat' first
    | intro _
    | with_reducible assumption
    | decide
    | with_reducible apply MemWf.ite
    | with_reducible apply MemWf.dite
    | with_reducible apply callJudge_keeps
    | with_reducible apply Only.keeps (State.putSess_only _ _ _)
    | split
    | dsimp only

theorem callFill_keeps (n : Nat) (s : State) (h : MemWf s) : MemWf (callFill n s) := by
  induction n generalizing s with
  | zero => exact h
  | succ k ih =>
    unfold callFill
    split
    · exact ih _ (callBegin_keeps _ _ _ _ ((State.setCall_only _ _).keeps (by decide) h))
    · exact h

theorem callTake_keeps (s : State) (w0 : WaitAlarm) (h : MemWf s) :
    MemWf (callTake s w0) := by
  unfold callTake
  repeat' first
    | intro _
    | with_reducible assumption
    | decide
    | with_reducible apply MemWf.ite
    | with_reducible apply MemWf.dite
    | with_reducible apply callBegin_keeps
    | with_reducible apply Only.keeps (State.setCall_only _ _)
    | with_reducible apply Only.keeps (raise_only _ _ _)
    | split
    | dsimp only

theorem callAcked_keeps (c : CallCmd) (eng : Nat) (s : State) (h : MemWf s) :
    MemWf (callAcked c eng s) := by
  unfold callAcked
  repeat' first
    | intro _
    | with_reducible assumption
    | decide
    | with_reducible apply MemWf.ite
    | with_reducible apply MemWf.dite
    | with_reducible apply callNewStep_keeps
    | with_reducible apply Only.keeps (State.putSess_only _ _ _)
    | with_reducible apply callAnnounce_keeps
    | split
    | dsimp only

theorem callAnswer_keeps (c : CallCmd) (s : State) (h : MemWf s) :
    MemWf (callAnswer c s).2 := by
  unfold callAnswer
  repeat' first
    | intro _
    | with_reducible assumption
    | decide
    | with_reducible apply MemWf.ite
    | with_reducible apply MemWf.dite
    | with_reducible apply MemWf.iteSnd
    | with_reducible apply callAcked_keeps
    | with_reducible apply Only.keeps (State.setCall_only _ _)
    | split
    | dsimp only

theorem callCarry_keeps (s : State) (c : CallCmd) (h : MemWf s) :
    MemWf (callCarry s c).2 := by
  unfold callCarry
  repeat' first
    | intro _
    | with_reducible assumption
    | decide
    | with_reducible apply MemWf.ite
    | with_reducible apply MemWf.dite
    | with_reducible apply MemWf.iteSnd
    | with_reducible apply Only.keeps (setDuty_only _ _ _ _)
    | with_reducible apply callAnswer_keeps
    | split
    | dsimp only

theorem callCommand_keeps (s : State) (c : CallCmd) (h : MemWf s) :
    MemWf (callCommand s c) := by
  unfold callCommand
  repeat' first
    | intro _
    | with_reducible assumption
    | decide
    | with_reducible apply MemWf.ite
    | with_reducible apply MemWf.dite
    | with_reducible apply callCarry_keeps
    | with_reducible apply Only.keeps (State.setCall_only _ _)
    | with_reducible apply answerTo_keeps
    | with_reducible apply Only.keeps (keyDone_only _ _ _ _)
    | split
    | dsimp only

theorem callOverflow_keeps (s0 : State) (h : MemWf s0) :
    MemWf (callOverflow s0) := by
  unfold callOverflow
  repeat' first
    | intro _
    | with_reducible assumption
    | decide
    | with_reducible apply MemWf.ite
    | with_reducible apply MemWf.dite
    | with_reducible apply Only.keeps (State.setCall_only _ _)
    | with_reducible apply Only.keeps (State.drew_only _)
    | with_reducible apply Only.keeps (State.putSess_only _ _ _)
    | with_reducible apply callAnnounce_keeps
    | with_reducible apply callNewStep_keeps
    | split
    | dsimp only

theorem callDropped_keeps (s : State) (c : CallCmd) (h : MemWf s) :
    MemWf (callDropped s c) := by
  unfold callDropped
  repeat' first
    | intro _
    | with_reducible assumption
    | decide
    | with_reducible apply MemWf.ite
    | with_reducible apply MemWf.dite
    | with_reducible apply Only.keeps (State.setCall_only _ _)
    | with_reducible apply answerTo_keeps
    | with_reducible apply Only.keeps (keyDone_only _ _ _ _)
    | split
    | dsimp only

theorem callNone_keeps (s : State) (h : MemWf s) :
    MemWf (callNone s) := by
  unfold callNone
  repeat' first
    | intro _
    | with_reducible assumption
    | decide
    | with_reducible apply MemWf.ite
    | with_reducible apply MemWf.dite
    | with_reducible apply MemWf.foldl
    | with_reducible apply callDropped_keeps
    | with_reducible apply Only.keeps (State.setCall_only _ _)
    | split
    | dsimp only

theorem callScanEnd_keeps (s : State) (h : MemWf s) :
    MemWf (callScanEnd s) := by
  unfold callScanEnd
  repeat' first
    | intro _
    | with_reducible assumption
    | decide
    | with_reducible apply MemWf.ite
    | with_reducible apply MemWf.dite
    | with_reducible apply MemWf.foldl
    | with_reducible apply callNone_keeps
    | with_reducible apply callCommand_keeps
    | with_reducible apply Only.keeps (State.setCall_only _ _)
    | with_reducible apply callJudge_keeps
    | with_reducible apply callFree_keeps
    | with_reducible apply callFill_keeps
    | with_reducible apply callTake_keeps
    | with_reducible apply Only.keeps (callSaturated_only _)
    | with_reducible apply callOverflow_keeps
    | split
    | dsimp only

theorem dutySelect_keeps (e src : Nat) (conflict : Bool) (org : Origin) (s : State) (h : MemWf s) :
    MemWf (dutySelect e src conflict org s) := by
  unfold dutySelect
  repeat' first
    | intro _
    | with_reducible assumption
    | decide
    | with_reducible apply MemWf.ite
    | with_reducible apply MemWf.dite
    | with_reducible apply Only.keeps (callPush_only _ _)
    | with_reducible apply imzSendCmd_keeps
    | split
    | dsimp only

theorem dutyAtStart_keeps (s : State) (h : MemWf s) :
    MemWf (dutyAtStart s) := by
  unfold dutyAtStart
  repeat' first
    | intro _
    | with_reducible assumption
    | decide
    | with_reducible apply MemWf.ite
    | with_reducible apply MemWf.dite
    | with_reducible apply dutySelect_keeps
    | split
    | dsimp only

theorem callRepeat_keeps (n : Fin 257) (clear : Bool) (s : State) (h : MemWf s) :
    MemWf (callRepeat n clear s) := by
  unfold callRepeat
  repeat' first
    | intro _
    | with_reducible assumption
    | decide
    | with_reducible apply MemWf.ite
    | with_reducible apply MemWf.dite
    | with_reducible apply callSend_keeps
    | split
    | dsimp only

theorem callSwap_keeps (s : State) (h : MemWf s) :
    MemWf (callSwap s) := by
  unfold callSwap
  repeat' first
    | intro _
    | with_reducible assumption
    | decide
    | with_reducible apply MemWf.ite
    | with_reducible apply MemWf.dite
    | with_reducible apply callNone_keeps
    | with_reducible apply Only.keeps (State.setCall_only _ _)
    | with_reducible apply Only.keeps (raise_only _ _ _)
    | split
    | dsimp only

theorem execCallStepRepeat_keeps (n : Fin 257) (s : State) (h : MemWf s) :
    ∃ t', execCallStepRepeat n s = .next t' ∧ MemWf t' := by
  refine ⟨_, rfl, ?_⟩
  repeat' first
    | intro _
    | with_reducible assumption
    | decide
    | with_reducible apply MemWf.ite
    | with_reducible apply MemWf.dite
    | with_reducible apply callRepeat_keeps
    | split
    | dsimp only

theorem execCallClearRepeat_keeps (n : Fin 257) (s : State) (h : MemWf s) :
    ∃ t', execCallClearRepeat n s = .next t' ∧ MemWf t' := by
  refine ⟨_, rfl, ?_⟩
  repeat' first
    | intro _
    | with_reducible assumption
    | decide
    | with_reducible apply MemWf.ite
    | with_reducible apply MemWf.dite
    | with_reducible apply callRepeat_keeps
    | split
    | dsimp only

end Sys2Proof.Machine
end

