-- ==== Sys2Proof/Laws/KeepImz.lean ====
section
/-! SUPPORT. Imz: the operations of Machine/Imz keep every memory in canonical form. -/
namespace Sys2Proof.Machine

open Sys2Proof

theorem imzTook_keeps (cls typ : Nat) (f : ImzRx) (s : State) (h : MemWf s) :
    MemWf (imzTook cls typ f s) := by
  unfold imzTook
  repeat' first
    | intro _
    | with_reducible assumption
    | decide
    | with_reducible apply MemWf.ite
    | with_reducible apply MemWf.dite
    | with_reducible apply MemWf.setCan
    | ((with_reducible show CanWf _); assumption)
    | split
    | dsimp only

theorem imzRx_keeps (typ : Nat) (f : ImzRx) (act : State → State) (s : State) (hf : ∀ u, MemWf u → MemWf (act u)) (h : MemWf s) :
    MemWf (imzRx typ f act s) := by
  unfold imzRx
  repeat' first
    | intro _
    | with_reducible assumption
    | decide
    | with_reducible apply hf
    | with_reducible apply MemWf.ite
    | with_reducible apply MemWf.dite
    | with_reducible apply imzTook_keeps
    | split
    | dsimp only

theorem imzClaim_keeps (s : State) (h : MemWf s) :
    MemWf (imzClaim s) := by
  unfold imzClaim
  repeat' first
    | intro _
    | with_reducible assumption
    | decide
    | with_reducible apply MemWf.ite
    | with_reducible apply MemWf.dite
    | with_reducible apply imzUp_keeps
    | with_reducible apply imzDown_keeps
    | split
    | dsimp only

theorem enterConflict_keeps (s : State) (h : MemWf s) :
    MemWf (enterConflict s) := by
  unfold enterConflict
  repeat' first
    | intro _
    | with_reducible assumption
    | decide
    | with_reducible apply MemWf.ite
    | with_reducible apply MemWf.dite
    | with_reducible apply Only.keeps (imzEvent_only _ _ _)
    | with_reducible apply MemWf.setImz
    | ((with_reducible show ImzWf _); assumption)
    | ((with_reducible show ImzWf _); exact (‹MemWf _› : MemWf _).imz)
    | split
    | dsimp only

theorem imzConflict_keeps (node : Half) (a b : BitVec 64) (s : State) (h : MemWf s) :
    MemWf (imzConflict node a b s) := by
  unfold imzConflict
  repeat' first
    | intro _
    | with_reducible assumption
    | decide
    | with_reducible apply MemWf.ite
    | with_reducible apply MemWf.dite
    | with_reducible apply imzSendDown_keeps
    | split
    | dsimp only

theorem claimTable_keeps (f : ImzRx) (unitB : Bool) (s : State) (h : MemWf s) :
    MemWf (claimTable f unitB s) := by
  unfold claimTable
  repeat' first
    | intro _
    | with_reducible assumption
    | decide
    | with_reducible apply MemWf.ite
    | with_reducible apply MemWf.dite
    | with_reducible apply MemWf.setImz
    | with_reducible apply imzUp_keeps
    | with_reducible apply imzConflict_keeps
    | ((with_reducible show ImzWf _); assumption)
    | ((with_reducible show ImzWf _); exact (‹MemWf _› : MemWf _).imz)
    | split
    | dsimp only

theorem bareClaim_keeps (f : ImzRx) (s : State) (h : MemWf s) :
    MemWf (bareClaim f s) := by
  unfold bareClaim
  repeat' first
    | intro _
    | with_reducible assumption
    | decide
    | with_reducible apply MemWf.ite
    | with_reducible apply MemWf.dite
    | with_reducible apply Only.keeps (imzEvent_only _ _ _)
    | with_reducible apply MemWf.setImz
    | ((with_reducible show ImzWf _); assumption)
    | ((with_reducible show ImzWf _); exact (‹MemWf _› : MemWf _).imz)
    | split
    | dsimp only

theorem claimRx_keeps (f : ImzRx) (unitB : Bool) (s : State) (h : MemWf s) :
    MemWf (claimRx f unitB s) := by
  unfold claimRx
  repeat' first
    | intro _
    | with_reducible assumption
    | decide
    | with_reducible apply MemWf.ite
    | with_reducible apply MemWf.dite
    | with_reducible apply bareClaim_keeps
    | with_reducible apply enterConflict_keeps
    | with_reducible apply claimTable_keeps
    | split
    | dsimp only

theorem imzDataError_keeps (s : State) (h : MemWf s) :
    MemWf (imzDataError s) := by
  unfold imzDataError
  repeat' first
    | intro _
    | with_reducible assumption
    | decide
    | with_reducible apply MemWf.ite
    | with_reducible apply MemWf.dite
    | with_reducible apply MemWf.foldl
    | with_reducible apply MemWf.setImz
    | with_reducible apply imzClaim_keeps
    | ((with_reducible show ImzWf _); assumption)
    | ((with_reducible show ImzWf _); exact (‹MemWf _› : MemWf _).imz)
    | split
    | dsimp only

theorem netJoin_keeps (s : State) (h : MemWf s) :
    MemWf (netJoin s) := by
  unfold netJoin
  extract_lets on s1 s2 s3
  have e : ∀ k a, MemWf a → MemWf (on k a) := fun k a g => (canSetMode_keeps k 1 a g).setCan fun x => x
  clear_value on
  have h1 : MemWf s1 := MemWf.ite h (e _ _ (e _ _ h))
  clear_value s1
  have h2 : MemWf s2 := MemWf.ite (e _ _ (e _ _ h1)) h1
  clear_value s2
  have h3 : MemWf s3 := MemWf.foldl (fun u _ g => imzClaim_keeps u g) h2
  clear_value s3
  exact h3.setImz fun g => g

theorem beatOn_keeps (k : Fin 4) (dormant fault : Bool) (s : State) (h : MemWf s) :
    MemWf (beatOn k dormant fault s) := by
  unfold beatOn
  repeat' first
    | intro _
    | with_reducible assumption
    | decide
    | with_reducible apply MemWf.ite
    | with_reducible apply MemWf.dite
    | with_reducible apply canSubmit_keeps
    | with_reducible apply MemWf.setImz
    | ((with_reducible show ImzWf _); assumption)
    | ((with_reducible show ImzWf _); exact (‹MemWf _› : MemWf _).imz)
    | split
    | dsimp only

theorem imzBeat_keeps (dormant fault : Bool) (s : State) (h : MemWf s) :
    MemWf (imzBeat dormant fault s) := by
  unfold imzBeat
  repeat' first
    | intro _
    | with_reducible assumption
    | decide
    | with_reducible apply MemWf.ite
    | with_reducible apply MemWf.dite
    | with_reducible apply MemWf.setImz
    | with_reducible apply beatOn_keeps
    | ((with_reducible show ImzWf _); assumption)
    | ((with_reducible show ImzWf _); exact (‹MemWf _› : MemWf _).imz)
    | split
    | dsimp only

theorem mgrSeen_keeps (s : State) (h : MemWf s) :
    MemWf (mgrSeen s) := by
  unfold mgrSeen
  repeat' first
    | intro _
    | with_reducible assumption
    | decide
    | with_reducible apply MemWf.ite
    | with_reducible apply MemWf.dite
    | with_reducible apply imzDrain_keeps
    | with_reducible apply Only.keeps (imzEvent_only _ _ _)
    | with_reducible apply MemWf.setImz
    | ((with_reducible show ImzWf _); assumption)
    | ((with_reducible show ImzWf _); exact (‹MemWf _› : MemWf _).imz)
    | split
    | dsimp only

theorem beatRx_keeps (f : ImzRx) (s : State) (h : MemWf s) :
    MemWf (beatRx f s) := by
  unfold beatRx
  repeat' first
    | intro _
    | with_reducible assumption
    | decide
    | with_reducible apply MemWf.ite
    | with_reducible apply MemWf.dite
    | with_reducible apply mgrSeen_keeps
    | with_reducible apply MemWf.setImz
    | ((with_reducible show ImzWf _); assumption)
    | ((with_reducible show ImzWf _); exact (‹MemWf _› : MemWf _).imz)
    | split
    | dsimp only

theorem tableSet_keeps (a : Nat) (e : Half) (s : State) (h : MemWf s) :
    MemWf (tableSet a e s) := by
  unfold tableSet
  repeat' first
    | intro _
    | with_reducible assumption
    | decide
    | with_reducible apply MemWf.ite
    | with_reducible apply MemWf.dite
    | with_reducible apply MemWf.setImz
    | ((with_reducible show ImzWf _); assumption)
    | ((with_reducible show ImzWf _); exact (‹MemWf _› : MemWf _).imz)
    | split
    | dsimp only

theorem tableStale_keeps (pick : Nat → Bool) (s : State) (h : MemWf s) :
    MemWf (tableStale pick s) := by
  unfold tableStale
  repeat' first
    | intro _
    | with_reducible assumption
    | decide
    | with_reducible apply MemWf.ite
    | with_reducible apply MemWf.dite
    | with_reducible apply MemWf.setImz
    | ((with_reducible show ImzWf _); assumption)
    | ((with_reducible show ImzWf _); exact (‹MemWf _› : MemWf _).imz)
    | split
    | dsimp only

theorem suppress_keeps (node : Half) (s : State) (h : MemWf s) :
    MemWf (suppress node s) := by
  unfold suppress
  repeat' first
    | intro _
    | with_reducible assumption
    | decide
    | with_reducible apply MemWf.ite
    | with_reducible apply MemWf.dite
    | with_reducible apply MemWf.setImz
    | with_reducible apply Only.keeps (imzEvent_only _ _ _)
    | ((with_reducible show ImzWf _); assumption)
    | ((with_reducible show ImzWf _); exact (‹MemWf _› : MemWf _).imz)
    | split
    | dsimp only

theorem forwardAlarm_keeps (typ : Nat) (f : ImzRx) (addr : Nat) (onset : Ts) (emergency : Bool) (s : State) (h : MemWf s) :
    MemWf (forwardAlarm typ f addr onset emergency s) := by
  unfold forwardAlarm
  repeat' first
    | intro _
    | with_reducible assumption
    | decide
    | with_reducible apply MemWf.ite
    | with_reducible apply MemWf.dite
    | with_reducible apply imzUp_keeps
    | with_reducible apply MemWf.setImz
    | with_reducible apply suppress_keeps
    | ((with_reducible show ImzWf _); assumption)
    | ((with_reducible show ImzWf _); exact (‹MemWf _› : MemWf _).imz)
    | split
    | dsimp only

theorem grpFrame_keeps (e : TrEntry) (full : Bool) (src : Half) (s : State) (h : MemWf s) :
    MemWf (grpFrame e full src s) := by
  unfold grpFrame
  repeat' first
    | intro _
    | with_reducible assumption
    | decide
    | with_reducible apply MemWf.ite
    | with_reducible apply MemWf.dite
    | with_reducible apply grpDropped_keeps
    | with_reducible apply Only.keeps (State.setCall_only _ _)
    | with_reducible apply Only.keeps (grpTrans_only _ _ _ _)
    | split
    | dsimp only

theorem almTransRx_keeps (f : ImzRx) (full : Bool) (s : State) (h : MemWf s) :
    MemWf (almTransRx f full s) := by
  unfold almTransRx
  repeat' first
    | intro _
    | with_reducible assumption
    | decide
    | with_reducible apply MemWf.ite
    | with_reducible apply MemWf.dite
    | with_reducible apply grpFrame_keeps
    | with_reducible apply tableSet_keeps
    | with_reducible apply Only.keeps (recSubtree_only _ _)
    | with_reducible apply forwardAlarm_keeps
    | split
    | dsimp only

theorem noticeRx_keeps (typ : Nat) (f : ImzRx) (full : Bool) (s : State) (h : MemWf s) :
    MemWf (noticeRx typ f full s) := by
  unfold noticeRx
  repeat' first
    | intro _
    | with_reducible assumption
    | decide
    | with_reducible apply MemWf.ite
    | with_reducible apply MemWf.dite
    | with_reducible apply grpDropped_keeps
    | with_reducible apply Only.keeps (grpPend_only _ _ _ _)
    | with_reducible apply Only.keeps (grpRetract_only _ _ _)
    | with_reducible apply forwardAlarm_keeps
    | split
    | dsimp only

theorem floodSend_keeps (s : State) (h : MemWf s) :
    MemWf (floodSend s) := by
  unfold floodSend
  repeat' first
    | intro _
    | with_reducible assumption
    | decide
    | with_reducible apply MemWf.ite
    | with_reducible apply MemWf.dite
    | with_reducible apply MemWf.foldl
    | with_reducible apply imzSendUp_keeps
    | split
    | dsimp only

theorem floodRx_keeps (f : ImzRx) (s : State) (h : MemWf s) :
    MemWf (floodRx f s) := by
  unfold floodRx
  repeat' first
    | intro _
    | with_reducible assumption
    | decide
    | with_reducible apply MemWf.ite
    | with_reducible apply MemWf.dite
    | with_reducible apply MemWf.foldl
    | with_reducible apply MemWf.setImz
    | with_reducible apply Only.keeps (grpIncomplete_only _ _ _)
    | with_reducible apply Only.keeps (imzEvent_only _ _ _)
    | ((with_reducible show ImzWf _); assumption)
    | ((with_reducible show ImzWf _); exact (‹MemWf _› : MemWf _).imz)
    | split
    | dsimp only

theorem floodAsk_keeps (s : State) (h : MemWf s) :
    MemWf (floodAsk s) := by
  unfold floodAsk
  repeat' first
    | intro _
    | with_reducible assumption
    | decide
    | with_reducible apply MemWf.ite
    | with_reducible apply MemWf.dite
    | with_reducible apply MemWf.foldl
    | with_reducible apply imzStateReq_keeps
    | with_reducible apply MemWf.setImz
    | ((with_reducible show ImzWf _); assumption)
    | ((with_reducible show ImzWf _); exact (‹MemWf _› : MemWf _).imz)
    | split
    | dsimp only

theorem floodEnd_keeps (s : State) (h : MemWf s) :
    MemWf (floodEnd s) := by
  unfold floodEnd
  repeat' first
    | intro _
    | with_reducible assumption
    | decide
    | with_reducible apply MemWf.ite
    | with_reducible apply MemWf.dite
    | with_reducible apply floodAsk_keeps
    | with_reducible apply Only.keeps (imzEvent_only _ _ _)
    | with_reducible apply MemWf.setImz
    | ((with_reducible show ImzWf _); assumption)
    | ((with_reducible show ImzWf _); exact (‹MemWf _› : MemWf _).imz)
    | split
    | dsimp only

theorem reportRx_keeps (f : ImzRx) (s : State) (h : MemWf s) :
    MemWf (reportRx f s) := by
  unfold reportRx
  repeat' first
    | intro _
    | with_reducible assumption
    | decide
    | with_reducible apply MemWf.ite
    | with_reducible apply MemWf.dite
    | with_reducible apply MemWf.foldl
    | with_reducible apply Only.keeps (grpReport_only _ _ _ _)
    | with_reducible apply tableSet_keeps
    | with_reducible apply Only.keeps (grpIncomplete_only _ _ _)
    | with_reducible apply imzUp_keeps
    | split
    | dsimp only

theorem digestSend_keeps (s : State) (h : MemWf s) :
    MemWf (digestSend s) := by
  unfold digestSend
  repeat' first
    | intro _
    | with_reducible assumption
    | decide
    | with_reducible apply MemWf.ite
    | with_reducible apply MemWf.dite
    | with_reducible apply imzSendUp_keeps
    | with_reducible apply MemWf.setImz
    | ((with_reducible show ImzWf _); assumption)
    | ((with_reducible show ImzWf _); exact (‹MemWf _› : MemWf _).imz)
    | split
    | dsimp only

theorem digestRx_keeps (f : ImzRx) (s : State) (h : MemWf s) :
    MemWf (digestRx f s) := by
  unfold digestRx
  repeat' first
    | intro _
    | with_reducible assumption
    | decide
    | with_reducible apply MemWf.ite
    | with_reducible apply MemWf.dite
    | with_reducible apply MemWf.setImz
    | ((with_reducible show ImzWf _); assumption)
    | ((with_reducible show ImzWf _); exact (‹MemWf _› : MemWf _).imz)
    | split
    | dsimp only

theorem memberGone_keeps (m : Fin 64) (s : State) (h : MemWf s) :
    MemWf (memberGone m s) := by
  unfold memberGone
  repeat' first
    | intro _
    | with_reducible assumption
    | decide
    | with_reducible apply MemWf.ite
    | with_reducible apply MemWf.dite
    | with_reducible apply Only.keeps (imzEvent_only _ _ _)
    | with_reducible apply tableStale_keeps
    | with_reducible apply MemWf.setImz
    | ((with_reducible show ImzWf _); assumption)
    | ((with_reducible show ImzWf _); exact (‹MemWf _› : MemWf _).imz)
    | split
    | dsimp only

theorem memberSeen_keeps (node : Half) (s : State) (h : MemWf s) :
    MemWf (memberSeen node s) := by
  unfold memberSeen
  repeat' first
    | intro _
    | with_reducible assumption
    | decide
    | with_reducible apply MemWf.ite
    | with_reducible apply MemWf.dite
    | with_reducible apply imzStateReq_keeps
    | with_reducible apply Only.keeps (imzEvent_only _ _ _)
    | with_reducible apply MemWf.setImz
    | ((with_reducible show ImzWf _); assumption)
    | ((with_reducible show ImzWf _); exact (‹MemWf _› : MemWf _).imz)
    | split
    | dsimp only

theorem mgrGone_keeps (s : State) (h : MemWf s) :
    MemWf (mgrGone s) := by
  unfold mgrGone
  repeat' first
    | intro _
    | with_reducible assumption
    | decide
    | with_reducible apply MemWf.ite
    | with_reducible apply MemWf.dite
    | with_reducible apply Only.keeps (imzEvent_only _ _ _)
    | with_reducible apply MemWf.setImz
    | ((with_reducible show ImzWf _); assumption)
    | ((with_reducible show ImzWf _); exact (‹MemWf _› : MemWf _).imz)
    | split
    | dsimp only

theorem imzRoute_keeps (cls typ : Nat) (target : Half) (f : ImzRx) (s : State) (h : MemWf s) :
    MemWf (imzRoute cls typ target f s).2 := by
  unfold imzRoute
  repeat' first
    | intro _
    | with_reducible assumption
    | decide
    | with_reducible apply MemWf.ite
    | with_reducible apply MemWf.dite
    | with_reducible apply MemWf.iteSnd
    | with_reducible apply imzDown_keeps
    | with_reducible apply imzUp_keeps
    | split
    | dsimp only

theorem cmdRoute_keeps (f : ImzRx) (s : State) (h : MemWf s) :
    MemWf (cmdRoute f s) := by
  unfold cmdRoute
  repeat' first
    | intro _
    | with_reducible assumption
    | decide
    | with_reducible apply MemWf.ite
    | with_reducible apply MemWf.dite
    | with_reducible apply imzRoute_keeps
    | with_reducible apply imzSendDown_keeps
    | split
    | dsimp only

theorem imzRelay_keeps (cls typ : Nat) (f : ImzRx) (s : State) (h : MemWf s) :
    MemWf (imzRelay cls typ f s) := by
  unfold imzRelay
  repeat' first
    | intro _
    | with_reducible assumption
    | decide
    | with_reducible apply MemWf.ite
    | with_reducible apply MemWf.dite
    | with_reducible apply imzDown_keeps
    | split
    | dsimp only

theorem rspRx_keeps (f : ImzRx) (s : State) (h : MemWf s) :
    MemWf (rspRx f s) := by
  unfold rspRx
  repeat' first
    | intro _
    | with_reducible assumption
    | decide
    | with_reducible apply MemWf.ite
    | with_reducible apply MemWf.dite
    | with_reducible apply MemWf.setImz
    | with_reducible apply imzRoute_keeps
    | ((with_reducible show ImzWf _); assumption)
    | ((with_reducible show ImzWf _); exact (‹MemWf _› : MemWf _).imz)
    | split
    | dsimp only

theorem rspTimeout_keeps (tag : Byte) (s : State) (h : MemWf s) :
    MemWf (rspTimeout tag s) := by
  unfold rspTimeout
  repeat' first
    | intro _
    | with_reducible assumption
    | decide
    | with_reducible apply MemWf.ite
    | with_reducible apply MemWf.dite
    | with_reducible apply imzToward_keeps
    | with_reducible apply MemWf.setImz
    | ((with_reducible show ImzWf _); assumption)
    | ((with_reducible show ImzWf _); exact (‹MemWf _› : MemWf _).imz)
    | split
    | dsimp only

theorem callAckRx_keeps (f : ImzRx) (s : State) (h : MemWf s) :
    MemWf (callAckRx f s) := by
  unfold callAckRx
  repeat' first
    | intro _
    | with_reducible assumption
    | decide
    | with_reducible apply MemWf.ite
    | with_reducible apply MemWf.dite
    | with_reducible apply Only.keeps (State.setCall_only _ _)
    | with_reducible apply imzUp_keeps
    | with_reducible apply MemWf.set_lvn
    | split
    | dsimp only

theorem noticeWon_keeps (k : Fin 4) (b : Fin 32) (s : State) (h : MemWf s) :
    MemWf (noticeWon k b s) := by
  unfold noticeWon
  repeat' first
    | intro _
    | with_reducible assumption
    | decide
    | with_reducible apply MemWf.ite
    | with_reducible apply MemWf.dite
    | with_reducible apply setNotice_keeps
    | split
    | dsimp only

theorem noticeClose_keeps (s : State) (n : Notice) (h : MemWf s) :
    MemWf (noticeClose s n) := by
  unfold noticeClose
  repeat' first
    | intro _
    | with_reducible assumption
    | decide
    | with_reducible apply MemWf.ite
    | with_reducible apply MemWf.dite
    | with_reducible apply retractSend_keeps
    | with_reducible apply dropNotice_keeps
    | split
    | dsimp only

theorem attemptEnd_keeps (k : Fin 4) (b : Fin 32) (e : TxEnd) (tdcv : Option (BitVec 8)) (age : Nat) (s : State) (h : MemWf s) :
    MemWf (attemptEnd k b e tdcv age s) := by
  unfold attemptEnd
  repeat' first
    | intro _
    | with_reducible assumption
    | decide
    | with_reducible apply MemWf.ite
    | with_reducible apply MemWf.dite
    | with_reducible apply MemWf.foldl
    | with_reducible apply Only.keeps (refSent_only _ _ _ _)
    | with_reducible apply noticeWon_keeps
    | with_reducible apply canAttempt_keeps
    | with_reducible apply imzDrain_keeps
    | with_reducible apply noticeClose_keeps
    | split
    | dsimp only

theorem execAddrClaimSend_keeps (s : State) (h : MemWf s) :
    ∃ t', execAddrClaimSend s = .next t' ∧ MemWf t' := by
  refine ⟨_, rfl, ?_⟩
  repeat' first
    | intro _
    | with_reducible assumption
    | decide
    | with_reducible apply MemWf.ite
    | with_reducible apply MemWf.dite
    | with_reducible apply imzClaim_keeps
    | split
    | dsimp only

theorem execHeartbeatSend_keeps (s : State) (h : MemWf s) :
    ∃ t', execHeartbeatSend s = .next t' ∧ MemWf t' := by
  refine ⟨_, rfl, ?_⟩
  repeat' first
    | intro _
    | with_reducible assumption
    | decide
    | with_reducible apply MemWf.ite
    | with_reducible apply MemWf.dite
    | with_reducible apply imzBeat_keeps
    | split
    | dsimp only

theorem execAddrClaimReceived_keeps (f : ImzRx) (unitB : Bool) (s : State) (h : MemWf s) :
    ∃ t', execAddrClaimReceived f unitB s = .next t' ∧ MemWf t' := by
  refine ⟨_, rfl, ?_⟩
  repeat' first
    | intro _
    | with_reducible assumption
    | decide
    | with_reducible apply MemWf.ite
    | with_reducible apply MemWf.dite
    | with_reducible apply claimRx_keeps
    | with_reducible apply imzTook_keeps
    | split
    | dsimp only

theorem execAddressConflictProbeEnd_keeps (s : State) (h : MemWf s) :
    ∃ t', execAddressConflictProbeEnd s = .next t' ∧ MemWf t' := by
  refine ⟨_, rfl, ?_⟩
  repeat' first
    | intro _
    | with_reducible assumption
    | decide
    | with_reducible apply MemWf.ite
    | with_reducible apply MemWf.dite
    | with_reducible apply MemWf.setImz
    | ((with_reducible show ImzWf _); assumption)
    | ((with_reducible show ImzWf _); exact (‹MemWf _› : MemWf _).imz)
    | split
    | dsimp only

theorem execAlmTransReceived_keeps (f : ImzRx) (full : Bool) (s : State) (h : MemWf s) :
    ∃ t', execAlmTransReceived f full s = .next t' ∧ MemWf t' := by
  refine ⟨_, rfl, ?_⟩
  repeat' first
    | intro _
    | with_reducible assumption
    | decide
    | with_reducible apply MemWf.ite
    | with_reducible apply MemWf.dite
    | with_reducible apply imzRx_keeps
    | with_reducible apply almTransRx_keeps
    | split
    | dsimp only

theorem execAlmPendingReceived_keeps (f : ImzRx) (full : Bool) (s : State) (h : MemWf s) :
    ∃ t', execAlmPendingReceived f full s = .next t' ∧ MemWf t' := by
  refine ⟨_, rfl, ?_⟩
  repeat' first
    | intro _
    | with_reducible assumption
    | decide
    | with_reducible apply MemWf.ite
    | with_reducible apply MemWf.dite
    | with_reducible apply imzRx_keeps
    | with_reducible apply noticeRx_keeps
    | split
    | dsimp only

theorem execAlmRetractReceived_keeps (f : ImzRx) (full : Bool) (s : State) (h : MemWf s) :
    ∃ t', execAlmRetractReceived f full s = .next t' ∧ MemWf t' := by
  refine ⟨_, rfl, ?_⟩
  repeat' first
    | intro _
    | with_reducible assumption
    | decide
    | with_reducible apply MemWf.ite
    | with_reducible apply MemWf.dite
    | with_reducible apply imzRx_keeps
    | with_reducible apply noticeRx_keeps
    | split
    | dsimp only

theorem execAlmFrameRelease_keeps (s : State) (h : MemWf s) :
    ∃ t', execAlmFrameRelease s = .next t' ∧ MemWf t' := by
  refine ⟨_, rfl, ?_⟩
  repeat' first
    | intro _
    | with_reducible assumption
    | decide
    | with_reducible apply MemWf.ite
    | with_reducible apply MemWf.dite
    | with_reducible apply imzDrain_keeps
    | with_reducible apply MemWf.setImz
    | ((with_reducible show ImzWf _); assumption)
    | ((with_reducible show ImzWf _); exact (‹MemWf _› : MemWf _).imz)
    | split
    | dsimp only

theorem execFloodDigestSend_keeps (s : State) (h : MemWf s) :
    ∃ t', execFloodDigestSend s = .next t' ∧ MemWf t' := by
  refine ⟨_, rfl, ?_⟩
  repeat' first
    | intro _
    | with_reducible assumption
    | decide
    | with_reducible apply MemWf.ite
    | with_reducible apply MemWf.dite
    | with_reducible apply floodSend_keeps
    | split
    | dsimp only

theorem execFloodDigestReceived_keeps (f : ImzRx) (s : State) (h : MemWf s) :
    ∃ t', execFloodDigestReceived f s = .next t' ∧ MemWf t' := by
  refine ⟨_, rfl, ?_⟩
  repeat' first
    | intro _
    | with_reducible assumption
    | decide
    | with_reducible apply MemWf.ite
    | with_reducible apply MemWf.dite
    | with_reducible apply imzRx_keeps
    | with_reducible apply floodRx_keeps
    | split
    | dsimp only

theorem execFloodEnd_keeps (s : State) (h : MemWf s) :
    ∃ t', execFloodEnd s = .next t' ∧ MemWf t' := by
  refine ⟨_, rfl, ?_⟩
  repeat' first
    | intro _
    | with_reducible assumption
    | decide
    | with_reducible apply MemWf.ite
    | with_reducible apply MemWf.dite
    | with_reducible apply floodEnd_keeps
    | split
    | dsimp only

theorem execFloodStateReqPace_keeps (s : State) (h : MemWf s) :
    ∃ t', execFloodStateReqPace s = .next t' ∧ MemWf t' := by
  refine ⟨_, rfl, ?_⟩
  repeat' first
    | intro _
    | with_reducible assumption
    | decide
    | with_reducible apply MemWf.ite
    | with_reducible apply MemWf.dite
    | with_reducible apply floodAsk_keeps
    | split
    | dsimp only

theorem execCallStepReceived_keeps (f : ImzRx) (s : State) (h : MemWf s) :
    ∃ t', execCallStepReceived f s = .next t' ∧ MemWf t' := by
  refine ⟨_, rfl, ?_⟩
  repeat' first
    | intro _
    | with_reducible assumption
    | decide
    | with_reducible apply MemWf.ite
    | with_reducible apply MemWf.dite
    | with_reducible apply imzRx_keeps
    | with_reducible apply imzRelay_keeps
    | split
    | dsimp only

theorem execCallAckReceived_keeps (f : ImzRx) (s : State) (h : MemWf s) :
    ∃ t', execCallAckReceived f s = .next t' ∧ MemWf t' := by
  refine ⟨_, rfl, ?_⟩
  repeat' first
    | intro _
    | with_reducible assumption
    | decide
    | with_reducible apply MemWf.ite
    | with_reducible apply MemWf.dite
    | with_reducible apply imzRx_keeps
    | with_reducible apply callAckRx_keeps
    | split
    | dsimp only

theorem execPointStateSweep_keeps (s : State) (h : MemWf s) :
    ∃ t', execPointStateSweep s = .next t' ∧ MemWf t' := by
  refine ⟨_, rfl, ?_⟩
  repeat' first
    | intro _
    | with_reducible assumption
    | decide
    | with_reducible apply MemWf.ite
    | with_reducible apply MemWf.dite
    | with_reducible apply imzReport_keeps
    | split
    | dsimp only

theorem execPointStateReceived_keeps (f : ImzRx) (s : State) (h : MemWf s) :
    ∃ t', execPointStateReceived f s = .next t' ∧ MemWf t' := by
  refine ⟨_, rfl, ?_⟩
  repeat' first
    | intro _
    | with_reducible assumption
    | decide
    | with_reducible apply MemWf.ite
    | with_reducible apply MemWf.dite
    | with_reducible apply imzRx_keeps
    | with_reducible apply reportRx_keeps
    | split
    | dsimp only

theorem execDigestSend_keeps (s : State) (h : MemWf s) :
    ∃ t', execDigestSend s = .next t' ∧ MemWf t' := by
  refine ⟨_, rfl, ?_⟩
  repeat' first
    | intro _
    | with_reducible assumption
    | decide
    | with_reducible apply MemWf.ite
    | with_reducible apply MemWf.dite
    | with_reducible apply digestSend_keeps
    | split
    | dsimp only

theorem execDigestReceived_keeps (f : ImzRx) (s : State) (h : MemWf s) :
    ∃ t', execDigestReceived f s = .next t' ∧ MemWf t' := by
  refine ⟨_, rfl, ?_⟩
  repeat' first
    | intro _
    | with_reducible assumption
    | decide
    | with_reducible apply MemWf.ite
    | with_reducible apply MemWf.dite
    | with_reducible apply imzRx_keeps
    | with_reducible apply digestRx_keeps
    | split
    | dsimp only

theorem execMemberLost_keeps (m : Fin 64) (s : State) (h : MemWf s) :
    ∃ t', execMemberLost m s = .next t' ∧ MemWf t' := by
  refine ⟨_, rfl, ?_⟩
  repeat' first
    | intro _
    | with_reducible assumption
    | decide
    | with_reducible apply MemWf.ite
    | with_reducible apply MemWf.dite
    | with_reducible apply memberGone_keeps
    | split
    | dsimp only

theorem execMgrLost_keeps (s : State) (h : MemWf s) :
    ∃ t', execMgrLost s = .next t' ∧ MemWf t' := by
  refine ⟨_, rfl, ?_⟩
  repeat' first
    | intro _
    | with_reducible assumption
    | decide
    | with_reducible apply MemWf.ite
    | with_reducible apply MemWf.dite
    | with_reducible apply mgrGone_keeps
    | split
    | dsimp only

theorem execRspReceived_keeps (f : ImzRx) (s : State) (h : MemWf s) :
    ∃ t', execRspReceived f s = .next t' ∧ MemWf t' := by
  refine ⟨_, rfl, ?_⟩
  repeat' first
    | intro _
    | with_reducible assumption
    | decide
    | with_reducible apply MemWf.ite
    | with_reducible apply MemWf.dite
    | with_reducible apply imzRx_keeps
    | with_reducible apply rspRx_keeps
    | split
    | dsimp only

theorem execCmdRspTimeout_keeps (tag : Byte) (s : State) (h : MemWf s) :
    ∃ t', execCmdRspTimeout tag s = .next t' ∧ MemWf t' := by
  refine ⟨_, rfl, ?_⟩
  repeat' first
    | intro _
    | with_reducible assumption
    | decide
    | with_reducible apply MemWf.ite
    | with_reducible apply MemWf.dite
    | with_reducible apply rspTimeout_keeps
    | split
    | dsimp only

theorem execCmdTagExpiry_keeps (node : Half) (tag : Byte) (s : State) (h : MemWf s) :
    ∃ t', execCmdTagExpiry node tag s = .next t' ∧ MemWf t' := by
  refine ⟨_, rfl, ?_⟩
  repeat' first
    | intro _
    | with_reducible assumption
    | decide
    | with_reducible apply MemWf.ite
    | with_reducible apply MemWf.dite
    | with_reducible apply MemWf.setImz
    | ((with_reducible show ImzWf _); assumption)
    | ((with_reducible show ImzWf _); exact (‹MemWf _› : MemWf _).imz)
    | split
    | dsimp only

theorem execCanTxAttemptEnd_keeps (k : Fin 4) (b : Fin 32) (e : TxEnd) (tdcv : Option (BitVec 8)) (age : Nat) (s : State) (h : MemWf s) :
    ∃ t', execCanTxAttemptEnd k b e tdcv age s = .next t' ∧ MemWf t' := by
  refine ⟨_, rfl, ?_⟩
  repeat' first
    | intro _
    | with_reducible assumption
    | decide
    | with_reducible apply MemWf.ite
    | with_reducible apply MemWf.dite
    | with_reducible apply attemptEnd_keeps
    | split
    | dsimp only

end Sys2Proof.Machine
end

