-- ==== Sys2Proof/Laws/KeepSlice.lean ====
section
/-! SUPPORT. Slice: the operations of Machine/Slice keep every memory in canonical form. -/
namespace Sys2Proof.Machine

open Sys2Proof

theorem commitNext_keeps (s : State) (h : MemWf s) :
    MemWf (commitNext s) := by
  unfold commitNext
  repeat' first
    | intro _
    | with_reducible assumption
    | decide
    | with_reducible apply MemWf.ite
    | with_reducible apply MemWf.dite
    | with_reducible apply Only.keeps (State.setRec_only _ _)
    | with_reducible apply MemWf.setMmc
    | ((with_reducible show MmcWf _); assumption)
    | ((with_reducible show MmcWf _); exact (‹MemWf _› : MemWf _).mmc)
    | split
    | dsimp only

theorem slicePush_keeps (n : Nat) (d : List Byte) (s : State) (h : MemWf s) :
    MemWf (slicePush n d s) := by
  unfold slicePush
  repeat' first
    | intro _
    | with_reducible assumption
    | decide
    | with_reducible apply MemWf.ite
    | with_reducible apply MemWf.dite
    | with_reducible apply Only.keeps (sliceLost_only _ _)
    | with_reducible apply Only.keeps (State.setRec_only _ _)
    | with_reducible apply commitNext_keeps
    | split
    | dsimp only

theorem sliceClose_keeps (n : Fin 80) (s : State) (h : MemWf s) :
    MemWf (sliceClose n s) := by
  unfold sliceClose
  repeat' first
    | intro _
    | with_reducible assumption
    | decide
    | with_reducible apply MemWf.ite
    | with_reducible apply MemWf.dite
    | with_reducible apply slicePush_keeps
    | with_reducible apply Only.keeps (State.setPt_only _ _ _)
    | split
    | dsimp only

theorem slicePoint_keeps (s : State) (n : Fin 80) (h : MemWf s) :
    MemWf (slicePoint s n) := by
  unfold slicePoint
  repeat' first
    | intro _
    | with_reducible assumption
    | decide
    | with_reducible apply MemWf.ite
    | with_reducible apply MemWf.dite
    | with_reducible apply sliceClose_keeps
    | with_reducible apply Only.keeps (State.setPt_only _ _ _)
    | split
    | dsimp only

theorem sliceScanEnd_keeps (s : State) (h : MemWf s) :
    MemWf (sliceScanEnd s) := by
  unfold sliceScanEnd
  repeat' first
    | intro _
    | with_reducible assumption
    | decide
    | with_reducible apply MemWf.ite
    | with_reducible apply MemWf.dite
    | with_reducible apply MemWf.foldl
    | with_reducible apply slicePoint_keeps
    | split
    | dsimp only

theorem sliceShort_keeps (n : Fin 80) (s : State) (h : MemWf s) :
    MemWf (sliceShort n s) := by
  unfold sliceShort
  repeat' first
    | intro _
    | with_reducible assumption
    | decide
    | with_reducible apply MemWf.ite
    | with_reducible apply MemWf.dite
    | with_reducible apply sliceClose_keeps
    | with_reducible apply Only.keeps (State.setPt_only _ _ _)
    | split
    | dsimp only

theorem sliceStep_keeps (t : Nat) (s : State) (n : Fin 80) (h : MemWf s) :
    MemWf (sliceStep t s n) := by
  unfold sliceStep
  repeat' first
    | intro _
    | with_reducible assumption
    | decide
    | with_reducible apply MemWf.ite
    | with_reducible apply MemWf.dite
    | with_reducible apply slicePush_keeps
    | with_reducible apply Only.keeps (State.setPt_only _ _ _)
    | split
    | dsimp only

theorem recStore_keeps (e : TrEntry) (s : State) (h : MemWf s) :
    MemWf (recStore e s) := by
  unfold recStore
  repeat' first
    | intro _
    | with_reducible assumption
    | decide
    | with_reducible apply MemWf.ite
    | with_reducible apply MemWf.dite
    | with_reducible apply Only.keeps (recLose_only _ _)
    | with_reducible apply commitNext_keeps
    | with_reducible apply Only.keeps (State.setRec_only _ _)
    | with_reducible apply Only.keeps (ringFound_only _)
    | split
    | dsimp only

theorem recEntry_keeps (sub : Bool) (s : State) (h : MemWf s) :
    MemWf (recEntry sub s) := by
  unfold recEntry
  repeat' first
    | intro _
    | with_reducible assumption
    | decide
    | with_reducible apply MemWf.ite
    | with_reducible apply MemWf.dite
    | with_reducible apply recStore_keeps
    | with_reducible apply Only.keeps (State.setRec_only _ _)
    | with_reducible apply Only.keeps (State.setAnn_only _ _)
    | split
    | dsimp only

theorem execSliceClose_keeps (n : Fin 80) (s : State) (h : MemWf s) :
    ∃ t', execSliceClose n s = .next t' ∧ MemWf t' := by
  refine ⟨_, rfl, ?_⟩
  repeat' first
    | intro _
    | with_reducible assumption
    | decide
    | with_reducible apply MemWf.ite
    | with_reducible apply MemWf.dite
    | with_reducible apply sliceClose_keeps
    | split
    | dsimp only

theorem execRecEntry_keeps (sub : Bool) (s : State) (h : MemWf s) :
    ∃ t', execRecEntry sub s = .next t' ∧ MemWf t' := by
  refine ⟨_, rfl, ?_⟩
  repeat' first
    | intro _
    | with_reducible assumption
    | decide
    | with_reducible apply MemWf.ite
    | with_reducible apply MemWf.dite
    | with_reducible apply recEntry_keeps
    | split
    | dsimp only

theorem execSliceFlushExpiry_keeps (s : State) (h : MemWf s) :
    ∃ t', execSliceFlushExpiry s = .next t' ∧ MemWf t' := by
  refine ⟨_, rfl, ?_⟩
  repeat' first
    | intro _
    | with_reducible assumption
    | decide
    | with_reducible apply MemWf.ite
    | with_reducible apply MemWf.dite
    | with_reducible apply commitNext_keeps
    | with_reducible apply Only.keeps (State.setRec_only _ _)
    | split
    | dsimp only

theorem execRingFlushExpiry_keeps (s : State) (h : MemWf s) :
    ∃ t', execRingFlushExpiry s = .next t' ∧ MemWf t' := by
  refine ⟨_, rfl, ?_⟩
  repeat' first
    | intro _
    | with_reducible assumption
    | decide
    | with_reducible apply MemWf.ite
    | with_reducible apply MemWf.dite
    | with_reducible apply commitNext_keeps
    | with_reducible apply Only.keeps (State.setRec_only _ _)
    | split
    | dsimp only

end Sys2Proof.Machine
end

