-- ==== Sys2Proof/Laws/KeepTim.lean ====
section
/-! SUPPORT. Tim: the operations of Machine/Tim keep every memory in canonical form. -/
namespace Sys2Proof.Machine

open Sys2Proof

theorem timStep_keeps (d : Int) (s : State) (h : MemWf s) :
    MemWf (timStep d s) := by
  unfold timStep
  repeat' first
    | intro _
    | with_reducible assumption
    | decide
    | with_reducible apply MemWf.ite
    | with_reducible apply MemWf.dite
    | with_reducible apply MemWf.foldl
    | with_reducible apply sliceStep_keeps
    | with_reducible apply Only.keeps (callShift_only _ _)
    | with_reducible apply Only.keeps (timEvent_only _ _ _)
    | with_reducible apply Only.keeps (State.setTim_only _ _)
    | with_reducible apply MemWf.set_now_sys_pev
    | split
    | dsimp only

theorem timRx_keeps (typ n : Nat) (f : ImzRx) (act : State → State) (s : State) (hf : ∀ u, MemWf u → MemWf (act u)) (h : MemWf s) :
    MemWf (timRx typ n f act s) := by
  unfold timRx
  repeat' first
    | intro _
    | with_reducible assumption
    | decide
    | with_reducible apply hf
    | with_reducible apply MemWf.ite
    | with_reducible apply MemWf.dite
    | with_reducible apply imzTook_keeps
    | split
    | dsimp only

theorem refRx_keeps (f : ImzRx) (s : State) (h : MemWf s) :
    MemWf (refRx f s) := by
  unfold refRx
  repeat' first
    | intro _
    | with_reducible assumption
    | decide
    | with_reducible apply MemWf.ite
    | with_reducible apply MemWf.dite
    | with_reducible apply mgrSeen_keeps
    | with_reducible apply Only.keeps (State.setTim_only _ _)
    | split
    | dsimp only

theorem timPair_keeps (theta : Int) (s : State) (h : MemWf s) :
    MemWf (timPair theta s) := by
  unfold timPair
  repeat' first
    | intro _
    | with_reducible assumption
    | decide
    | with_reducible apply MemWf.ite
    | with_reducible apply MemWf.dite
    | with_reducible apply Only.keeps (State.setTim_only _ _)
    | with_reducible apply timStep_keeps
    | with_reducible apply Only.keeps (timSlew_only _)
    | with_reducible apply Only.keeps (timEnter_only _ _)
    | split
    | dsimp only

theorem followRx_keeps (f : ImzRx) (s : State) (h : MemWf s) :
    MemWf (followRx f s) := by
  unfold followRx
  repeat' first
    | intro _
    | with_reducible assumption
    | decide
    | with_reducible apply MemWf.ite
    | with_reducible apply MemWf.dite
    | with_reducible apply Only.keeps (State.setTim_only _ _)
    | with_reducible apply Only.keeps (timEvent_only _ _ _)
    | with_reducible apply timPair_keeps
    | split
    | dsimp only

theorem refSend_keeps (s : State) (h : MemWf s) :
    MemWf (refSend s) := by
  unfold refSend
  repeat' first
    | intro _
    | with_reducible assumption
    | decide
    | with_reducible apply MemWf.ite
    | with_reducible apply MemWf.dite
    | with_reducible apply imzSendDown_keeps
    | with_reducible apply Only.keeps (State.setTim_only _ _)
    | split
    | dsimp only

theorem followSend_keeps (k : Fin 2) (s : State) (h : MemWf s) :
    MemWf (followSend k s) := by
  unfold followSend
  repeat' first
    | intro _
    | with_reducible assumption
    | decide
    | with_reducible apply MemWf.ite
    | with_reducible apply MemWf.dite
    | with_reducible apply canSubmit_keeps
    | with_reducible apply Only.keeps (State.setTim_only _ _)
    | split
    | dsimp only

theorem syncPulse_keeps (s : State) (h : MemWf s) :
    MemWf (syncPulse s) := by
  unfold syncPulse
  repeat' first
    | intro _
    | with_reducible assumption
    | decide
    | with_reducible apply MemWf.ite
    | with_reducible apply MemWf.dite
    | with_reducible apply Only.keeps (State.setTim_only _ _)
    | with_reducible apply timStep_keeps
    | with_reducible apply Only.keeps (timSlew_only _)
    | with_reducible apply Only.keeps (timTrace_only _ _)
    | split
    | dsimp only

theorem timSet_keeps (t : Ts) (s : State) (h : MemWf s) :
    MemWf (timSet t s).2 := by
  unfold timSet
  repeat' first
    | intro _
    | with_reducible assumption
    | decide
    | with_reducible apply MemWf.ite
    | with_reducible apply MemWf.dite
    | with_reducible apply MemWf.iteSnd
    | with_reducible apply timStep_keeps
    | split
    | dsimp only

theorem timCmd_keeps (src : Source) (atPulse : Bool) (s : State) (h : MemWf s) :
    MemWf (timCmd src atPulse s) := by
  unfold timCmd
  repeat' first
    | intro _
    | with_reducible assumption
    | decide
    | with_reducible apply MemWf.ite
    | with_reducible apply MemWf.dite
    | with_reducible apply Only.keeps (timSetAtPulse_only _ _)
    | with_reducible apply timSet_keeps
    | with_reducible apply Only.keeps (logWerr_only _ _ _ _)
    | split
    | dsimp only

theorem execTimeRefSend_keeps (s : State) (h : MemWf s) :
    ∃ t', execTimeRefSend s = .next t' ∧ MemWf t' := by
  refine ⟨_, rfl, ?_⟩
  repeat' first
    | intro _
    | with_reducible assumption
    | decide
    | with_reducible apply MemWf.ite
    | with_reducible apply MemWf.dite
    | with_reducible apply refSend_keeps
    | split
    | dsimp only

theorem execTimeFollowSend_keeps (d : Bool) (s : State) (h : MemWf s) :
    ∃ t', execTimeFollowSend d s = .next t' ∧ MemWf t' := by
  refine ⟨_, rfl, ?_⟩
  repeat' first
    | intro _
    | with_reducible assumption
    | decide
    | with_reducible apply MemWf.ite
    | with_reducible apply MemWf.dite
    | with_reducible apply followSend_keeps
    | split
    | dsimp only

theorem execTimeRefReceived_keeps (f : ImzRx) (s : State) (h : MemWf s) :
    ∃ t', execTimeRefReceived f s = .next t' ∧ MemWf t' := by
  refine ⟨_, rfl, ?_⟩
  repeat' first
    | intro _
    | with_reducible assumption
    | decide
    | with_reducible apply MemWf.ite
    | with_reducible apply MemWf.dite
    | with_reducible apply timRx_keeps
    | with_reducible apply refRx_keeps
    | split
    | dsimp only

theorem execSyncInPulse_keeps (ok : Bool) (s : State) (h : MemWf s) :
    ∃ t', execSyncInPulse ok s = .next t' ∧ MemWf t' := by
  refine ⟨_, rfl, ?_⟩
  repeat' first
    | intro _
    | with_reducible assumption
    | decide
    | with_reducible apply MemWf.ite
    | with_reducible apply MemWf.dite
    | with_reducible apply syncPulse_keeps
    | split
    | dsimp only

theorem execTimSet_keeps (src : Source) (s : State) (h : MemWf s) :
    ∃ t', execTimSet src s = .next t' ∧ MemWf t' := by
  refine ⟨_, rfl, ?_⟩
  repeat' first
    | intro _
    | with_reducible assumption
    | decide
    | with_reducible apply MemWf.ite
    | with_reducible apply MemWf.dite
    | with_reducible apply timCmd_keeps
    | split
    | dsimp only

theorem execTimSetAtPulse_keeps (src : Source) (s : State) (h : MemWf s) :
    ∃ t', execTimSetAtPulse src s = .next t' ∧ MemWf t' := by
  refine ⟨_, rfl, ?_⟩
  repeat' first
    | intro _
    | with_reducible assumption
    | decide
    | with_reducible apply MemWf.ite
    | with_reducible apply MemWf.dite
    | with_reducible apply timCmd_keeps
    | split
    | dsimp only

end Sys2Proof.Machine
end

