-- ==== Sys2Proof/Laws/KeepRec.lean ====
section
/-! SUPPORT. Rec: the operations of Machine/Rec keep every memory in canonical form. -/
namespace Sys2Proof.Machine

open Sys2Proof

theorem sectorPut_keeps (n : Nat) (d : List Byte) (s : State) (h : MemWf s) :
    MemWf (sectorPut n d s) := by
  unfold sectorPut
  exact h.setMmc fun g => tblWf_tblPut _ _ _ _ g

theorem checkpoint_keeps (s : State) (h : MemWf s) :
    MemWf (checkpoint s) := by
  unfold checkpoint
  repeat' first
    | intro _
    | with_reducible assumption
    | decide
    | with_reducible apply MemWf.ite
    | with_reducible apply MemWf.dite
    | with_reducible apply Only.keeps (State.setRec_only _ _)
    | with_reducible apply sectorPut_keeps
    | split
    | dsimp only

theorem commitWrite_keeps (c : Commit) (s : State) (h : MemWf s) :
    MemWf (commitWrite c s) := by
  unfold commitWrite
  repeat' first
    | intro _
    | with_reducible assumption
    | decide
    | with_reducible apply MemWf.ite
    | with_reducible apply MemWf.dite
    | with_reducible apply MemWf.foldl
    | with_reducible apply sectorPut_keeps
    | split
    | dsimp only

theorem commitDone_keeps (s : State) (h : MemWf s) :
    MemWf (commitDone s) := by
  unfold commitDone
  split
  · exact h
  · next c _ =>
    extract_lets s1 s2 last
    have h1 : MemWf s1 := commitWrite_keeps c s h
    clear_value s1
    have h2 : MemWf s2 := MemWf.setMmc ((State.setRec_only _ _).keeps (by decide) h1) fun g => g
    clear_value s2 last
    exact commitNext_keeps _ (MemWf.ite (checkpoint_keeps _ h2) h2)

theorem flushPages_keeps (s : State) (h : MemWf s) :
    MemWf (flushPages s) := by
  unfold flushPages
  repeat' first
    | intro _
    | with_reducible assumption
    | decide
    | with_reducible apply MemWf.ite
    | with_reducible apply MemWf.dite
    | with_reducible apply commitNext_keeps
    | with_reducible apply Only.keeps (State.setRec_only _ _)
    | split
    | dsimp only

theorem recFormat_keeps (s : State) (h : MemWf s) :
    MemWf (recFormat s) := by
  unfold recFormat
  repeat' first
    | intro _
    | with_reducible assumption
    | decide
    | with_reducible apply MemWf.ite
    | with_reducible apply MemWf.dite
    | with_reducible apply Only.keeps (State.drew_only _)
    | with_reducible apply Only.keeps (State.setRec_only _ _)
    | with_reducible apply Only.keeps (recEvent_only _ _ _)
    | with_reducible apply checkpoint_keeps
    | with_reducible apply sectorPut_keeps
    | with_reducible apply MemWf.set_ao_dio
    | ((with_reducible show AoWf _); assumption)
    | ((with_reducible show AoWf _); with_reducible assumption)
    | with_reducible apply AoWf.all_map
    | with_reducible apply AoWf.all_mapFinIdx
    | with_reducible apply AoWf.all_set
    | with_reducible apply MemWf.ao
    | split
    | dsimp only

theorem recDescriptor_keeps (s : State) (h : MemWf s) :
    MemWf (recDescriptor s) := by
  unfold recDescriptor
  repeat' first
    | intro _
    | with_reducible assumption
    | decide
    | with_reducible apply MemWf.ite
    | with_reducible apply MemWf.dite
    | with_reducible apply Only.keeps (State.setRec_only _ _)
    | with_reducible apply recFormat_keeps
    | split
    | dsimp only

theorem recRecovery_keeps (s : State) (h : MemWf s) :
    MemWf (recRecovery s) := by
  unfold recRecovery
  repeat' first
    | intro _
    | with_reducible assumption
    | decide
    | with_reducible apply MemWf.ite
    | with_reducible apply MemWf.dite
    | with_reducible apply recDescriptor_keeps
    | with_reducible apply Only.keeps (recEvent_only _ _ _)
    | with_reducible apply Only.keeps (State.setRec_only _ _)
    | ((with_reducible show CanWf _); assumption)
    | split
    | dsimp only

theorem recRecovered_keeps (s : State) (h : MemWf s) :
    MemWf (recRecovered s) := by
  unfold recRecovered
  repeat' first
    | intro _
    | with_reducible assumption
    | decide
    | with_reducible apply MemWf.ite
    | with_reducible apply MemWf.dite
    | with_reducible apply Only.keeps (raise_only _ _ _)
    | with_reducible apply Only.keeps (State.setRec_only _ _)
    | with_reducible apply commitNext_keeps
    | with_reducible apply Only.keeps (recEvent_only _ _ _)
    | ((with_reducible show CanWf _); assumption)
    | with_reducible apply Ao.lost_wf
    | split
    | dsimp only

theorem recStop_keeps (stop : Bool) (s : State) (h : MemWf s) :
    MemWf (recStop stop s) := by
  unfold recStop
  repeat' first
    | intro _
    | with_reducible assumption
    | decide
    | with_reducible apply MemWf.ite
    | with_reducible apply MemWf.dite
    | with_reducible apply flushPages_keeps
    | with_reducible apply Only.keeps (State.setRec_only _ _)
    | with_reducible apply checkpoint_keeps
    | with_reducible apply commitNext_keeps
    | split
    | dsimp only

theorem recFormatCmd_keeps (src : Source) (key : Byte) (s : State) (h : MemWf s) :
    MemWf (recFormatCmd src key s) := by
  unfold recFormatCmd
  repeat' first
    | intro _
    | with_reducible assumption
    | decide
    | with_reducible apply MemWf.ite
    | with_reducible apply MemWf.dite
    | with_reducible apply Only.keeps (logWerr_only _ _ _ _)
    | with_reducible apply recFormat_keeps
    | split
    | dsimp only

theorem xferSend_keeps (s : State) (h : MemWf s) :
    MemWf (xferSend s) := by
  unfold xferSend
  repeat' first
    | intro _
    | with_reducible assumption
    | decide
    | with_reducible apply MemWf.ite
    | with_reducible apply MemWf.dite
    | with_reducible apply MemWf.foldl
    | with_reducible apply imzToward_keeps
    | with_reducible apply MemWf.setImz
    | ((with_reducible show ImzWf _); assumption)
    | ((with_reducible show ImzWf _); exact (‹MemWf _› : MemWf _).imz)
    | split
    | dsimp only

theorem xferRequest_keeps (f : ImzRx) (s : State) (h : MemWf s) :
    MemWf (xferRequest f s) := by
  unfold xferRequest
  repeat' first
    | intro _
    | with_reducible assumption
    | decide
    | with_reducible apply MemWf.ite
    | with_reducible apply MemWf.dite
    | with_reducible apply imzToward_keeps
    | with_reducible apply Only.keeps (State.setRec_only _ _)
    | with_reducible apply Only.keeps (State.drew_only _)
    | with_reducible apply xferSend_keeps
    | with_reducible apply MemWf.setImz
    | ((with_reducible show ImzWf _); assumption)
    | ((with_reducible show ImzWf _); exact (‹MemWf _› : MemWf _).imz)
    | split
    | dsimp only

theorem xferData_keeps (f : ImzRx) (s : State) (h : MemWf s) :
    MemWf (xferData f s) := by
  unfold xferData
  repeat' first
    | intro _
    | with_reducible assumption
    | decide
    | with_reducible apply MemWf.ite
    | with_reducible apply MemWf.dite
    | with_reducible apply MemWf.setImz
    | ((with_reducible show ImzWf _); exact (‹MemWf _› : MemWf _).imz)
    | ((with_reducible show Memory.wf _ = true); dsimp only)
    | with_reducible apply Memory.wf_memFill
    | with_reducible apply Memory.wf_memPut
    | with_reducible apply Memory.wf_memZero
    | with_reducible apply Memory.wf_memWindow
    | with_reducible apply Memory.wf_memCopyIn
    | with_reducible apply Memory.wf_foldl_memPut
    | with_reducible apply Memory.wf_filter
    | ((with_reducible show Memory.wf _ = true); first | exact rfl | exact (‹ImzWf _› : ImzWf _))
    | (with_reducible show ImzWf _; unfold ImzWf; dsimp only)
    | split
    | dsimp only

theorem xferEnd_keeps (f : ImzRx) (s : State) (h : MemWf s) :
    MemWf (xferEnd f s) := by
  unfold xferEnd
  repeat' first
    | intro _
    | with_reducible assumption
    | decide
    | with_reducible apply MemWf.ite
    | with_reducible apply MemWf.dite
    | with_reducible apply MemWf.setImz
    | ((with_reducible show ImzWf _); assumption)
    | ((with_reducible show ImzWf _); exact (‹MemWf _› : MemWf _).imz)
    | split
    | dsimp only

theorem mmcError_keeps (cmd : Nat) (s : State) (h : MemWf s) :
    MemWf (mmcError cmd s) := by
  unfold mmcError
  repeat' first
    | intro _
    | with_reducible assumption
    | decide
    | with_reducible apply MemWf.ite
    | with_reducible apply MemWf.dite
    | with_reducible apply Only.keeps (mmcEvent_only _ _ _)
    | with_reducible apply MemWf.setMmc
    | with_reducible apply Only.keeps (recEvent_only _ _ _)
    | with_reducible apply Only.keeps (State.setRec_only _ _)
    | ((with_reducible show MmcWf _); assumption)
    | ((with_reducible show MmcWf _); exact (‹MemWf _› : MemWf _).mmc)
    | split
    | dsimp only

theorem mmcReinit_keeps (cmd : Nat) (ok : Bool) (s : State) (h : MemWf s) :
    MemWf (mmcReinit cmd ok s) := by
  unfold mmcReinit
  repeat' first
    | intro _
    | with_reducible assumption
    | decide
    | with_reducible apply MemWf.ite
    | with_reducible apply MemWf.dite
    | with_reducible apply MemWf.setMmc
    | with_reducible apply mmcError_keeps
    | with_reducible apply Only.keeps (mmcEvent_only _ _ _)
    | ((with_reducible show MmcWf _); assumption)
    | ((with_reducible show MmcWf _); exact (‹MemWf _› : MemWf _).mmc)
    | split
    | dsimp only

theorem mmcFail_keeps (crc : Bool) (cmd : BitVec 6) (rsp : Word) (ok : Bool) (s : State) (h : MemWf s) :
    MemWf (mmcFail crc cmd rsp ok s) := by
  unfold mmcFail
  repeat' first
    | intro _
    | with_reducible assumption
    | decide
    | with_reducible apply MemWf.ite
    | with_reducible apply MemWf.dite
    | with_reducible apply MemWf.setMmc
    | with_reducible apply mmcReinit_keeps
    | ((with_reducible show MmcWf _); assumption)
    | ((with_reducible show MmcWf _); exact (‹MemWf _› : MemWf _).mmc)
    | split
    | dsimp only

theorem mmcTimer_keeps (ok : Bool) (s : State) (h : MemWf s) :
    MemWf (mmcTimer ok s) := by
  unfold mmcTimer
  repeat' first
    | intro _
    | with_reducible assumption
    | decide
    | with_reducible apply MemWf.ite
    | with_reducible apply MemWf.dite
    | with_reducible apply recRecovery_keeps
    | with_reducible apply Only.keeps (mmcEvent_only _ _ _)
    | with_reducible apply MemWf.setMmc
    | ((with_reducible show MmcWf _); assumption)
    | ((with_reducible show MmcWf _); exact (‹MemWf _› : MemWf _).mmc)
    | split
    | dsimp only

theorem inKep_keeps (f : State → State) (s : State) (hf : ∀ u, MemWf u → MemWf (f u)) (h : MemWf s) :
    MemWf (inKep f s) := by
  unfold inKep
  repeat' first
    | intro _
    | with_reducible assumption
    | decide
    | with_reducible apply hf
    | with_reducible apply MemWf.ite
    | with_reducible apply MemWf.dite
    | split
    | dsimp only

theorem execRecFlush_keeps (s : State) (h : MemWf s) :
    ∃ t', execRecFlush s = .next t' ∧ MemWf t' := by
  refine ⟨_, rfl, ?_⟩
  repeat' first
    | intro _
    | with_reducible assumption
    | decide
    | with_reducible apply MemWf.ite
    | with_reducible apply MemWf.dite
    | with_reducible apply inKep_keeps
    | with_reducible apply flushPages_keeps
    | split
    | dsimp only

theorem execPageCommitDone_keeps (s : State) (h : MemWf s) :
    ∃ t', execPageCommitDone s = .next t' ∧ MemWf t' := by
  refine ⟨_, rfl, ?_⟩
  repeat' first
    | intro _
    | with_reducible assumption
    | decide
    | with_reducible apply MemWf.ite
    | with_reducible apply MemWf.dite
    | with_reducible apply inKep_keeps
    | with_reducible apply commitDone_keeps
    | split
    | dsimp only

theorem execRecCommitTimeout_keeps (s : State) (h : MemWf s) :
    ∃ t', execRecCommitTimeout s = .next t' ∧ MemWf t' := by
  refine ⟨_, rfl, ?_⟩
  repeat' first
    | intro _
    | with_reducible assumption
    | decide
    | with_reducible apply MemWf.ite
    | with_reducible apply MemWf.dite
    | with_reducible apply MemWf.setMmc
    | ((with_reducible show MmcWf _); assumption)
    | ((with_reducible show MmcWf _); exact (‹MemWf _› : MemWf _).mmc)
    | split
    | dsimp only

theorem execCheckpointTimer_keeps (s : State) (h : MemWf s) :
    ∃ t', execCheckpointTimer s = .next t' ∧ MemWf t' := by
  refine ⟨_, rfl, ?_⟩
  repeat' first
    | intro _
    | with_reducible assumption
    | decide
    | with_reducible apply MemWf.ite
    | with_reducible apply MemWf.dite
    | with_reducible apply inKep_keeps
    | with_reducible apply checkpoint_keeps
    | split
    | dsimp only

theorem execRecRecovery_keeps (s : State) (h : MemWf s) :
    ∃ t', execRecRecovery s = .next t' ∧ MemWf t' := by
  refine ⟨_, rfl, ?_⟩
  repeat' first
    | intro _
    | with_reducible assumption
    | decide
    | with_reducible apply MemWf.ite
    | with_reducible apply MemWf.dite
    | with_reducible apply recRecovery_keeps
    | split
    | dsimp only

theorem execRecRecoveryDone_keeps (s : State) (h : MemWf s) :
    ∃ t', execRecRecoveryDone s = .next t' ∧ MemWf t' := by
  refine ⟨_, rfl, ?_⟩
  repeat' first
    | intro _
    | with_reducible assumption
    | decide
    | with_reducible apply MemWf.ite
    | with_reducible apply MemWf.dite
    | with_reducible apply inKep_keeps
    | with_reducible apply recRecovered_keeps
    | split
    | dsimp only

theorem execRecFormat_keeps (src : Source) (key : Byte) (s : State) (h : MemWf s) :
    ∃ t', execRecFormat src key s = .next t' ∧ MemWf t' := by
  refine ⟨_, rfl, ?_⟩
  repeat' first
    | intro _
    | with_reducible assumption
    | decide
    | with_reducible apply MemWf.ite
    | with_reducible apply MemWf.dite
    | with_reducible apply inKep_keeps
    | with_reducible apply recFormatCmd_keeps
    | split
    | dsimp only

theorem execRecStop_keeps (stop : Bool) (s : State) (h : MemWf s) :
    ∃ t', execRecStop stop s = .next t' ∧ MemWf t' := by
  refine ⟨_, rfl, ?_⟩
  repeat' first
    | intro _
    | with_reducible assumption
    | decide
    | with_reducible apply MemWf.ite
    | with_reducible apply MemWf.dite
    | with_reducible apply inKep_keeps
    | with_reducible apply recStop_keeps
    | split
    | dsimp only

theorem execMmcCommandFail_keeps (crc : Bool) (cmd : BitVec 6) (rsp : Word) (ok : Bool) (s : State) (h : MemWf s) :
    ∃ t', execMmcCommandFail crc cmd rsp ok s = .next t' ∧ MemWf t' := by
  refine ⟨_, rfl, ?_⟩
  repeat' first
    | intro _
    | with_reducible assumption
    | decide
    | with_reducible apply MemWf.ite
    | with_reducible apply MemWf.dite
    | with_reducible apply inKep_keeps
    | with_reducible apply mmcFail_keeps
    | split
    | dsimp only

theorem execRecXferDataReceived_keeps (f : ImzRx) (s : State) (h : MemWf s) :
    ∃ t', execRecXferDataReceived f s = .next t' ∧ MemWf t' := by
  refine ⟨_, rfl, ?_⟩
  repeat' first
    | intro _
    | with_reducible assumption
    | decide
    | with_reducible apply MemWf.ite
    | with_reducible apply MemWf.dite
    | with_reducible apply imzRx_keeps
    | with_reducible apply xferData_keeps
    | split
    | dsimp only

theorem execRecXferEndReceived_keeps (f : ImzRx) (s : State) (h : MemWf s) :
    ∃ t', execRecXferEndReceived f s = .next t' ∧ MemWf t' := by
  refine ⟨_, rfl, ?_⟩
  repeat' first
    | intro _
    | with_reducible assumption
    | decide
    | with_reducible apply MemWf.ite
    | with_reducible apply MemWf.dite
    | with_reducible apply imzRx_keeps
    | with_reducible apply xferEnd_keeps
    | split
    | dsimp only

theorem execRecXferSendPace_keeps (s : State) (h : MemWf s) :
    ∃ t', execRecXferSendPace s = .next t' ∧ MemWf t' := by
  refine ⟨_, rfl, ?_⟩
  repeat' first
    | intro _
    | with_reducible assumption
    | decide
    | with_reducible apply MemWf.ite
    | with_reducible apply MemWf.dite
    | with_reducible apply xferSend_keeps
    | split
    | dsimp only

end Sys2Proof.Machine
end

