-- ==== Sys2Proof/Laws/KeepPnl.lean ====
section
/-! SUPPORT. Pnl: the operations of Machine/Pnl keep every memory in canonical form. -/
namespace Sys2Proof.Machine

open Sys2Proof

theorem planeCopy_wf {s : State} {r : Rect} {dst src : Memory} (h : Memory.wf dst = true) :
    Memory.wf (planeCopy s r dst src) = true :=
  Memory.wf_foldl_memPut _ _ _ _ (Memory.wf_filter _ _ h)

theorem splitOff_wf {s : State} {a : Starting} {r : UpdReq} (h : Memory.wf s.pnl.cur = true)
    (g : ∀ k ∈ a.slots, Memory.wf k.target = true) : ∀ k ∈ (splitOff s a r).slots, Memory.wf k.target = true := by
  unfold splitOff
  dsimp only
  split
  · exact g
  · split
    · intro k hk
      rcases List.mem_append.mp hk with e | e
      · exact g k e
      · obtain ⟨x, _, rfl⟩ := List.mem_map.mp e
        exact Memory.wf_filter _ _ h
    · exact g

theorem tryStart_wf {s : State} {a : Starting} {r : UpdReq} (h : Memory.wf s.pnl.cur = true)
    (g : ∀ k ∈ a.slots, Memory.wf k.target = true) : ∀ k ∈ (tryStart s a r).slots, Memory.wf k.target = true := by
  unfold tryStart
  split
  · exact g
  · split
    · split
      · exact splitOff_wf h g
      · exact g
    · split
      · intro k hk
        rcases List.mem_append.mp hk with e | e
        · exact g k e
        · rw [List.mem_singleton.mp e]
          exact Memory.wf_filter _ _ h
      · exact g

theorem pnlSample_keeps (mv : Nat) (s : State) (h : MemWf s) :
    MemWf (pnlSample mv s) := by
  unfold pnlSample
  repeat' first
    | intro _
    | with_reducible assumption
    | decide
    | with_reducible apply MemWf.ite
    | with_reducible apply MemWf.dite
    | with_reducible apply MemWf.setPnl
    | with_reducible apply Only.keeps (pnlEvent_only _ _ _)
    | ((with_reducible show PnlWf _); assumption)
    | ((with_reducible show PnlWf _); exact (‹MemWf _› : MemWf _).pnl)
    | split
    | dsimp only

theorem pnlPower_keeps (s : State) (h : MemWf s) :
    MemWf (pnlPower s) := by
  unfold pnlPower
  repeat' first
    | intro _
    | with_reducible assumption
    | decide
    | with_reducible apply MemWf.ite
    | with_reducible apply MemWf.dite
    | with_reducible apply MemWf.setPnl
    | with_reducible apply MemWf.set_sys
    | ((with_reducible show PnlWf _); assumption)
    | ((with_reducible show PnlWf _); exact (‹MemWf _› : MemWf _).pnl)
    | split
    | dsimp only

theorem pnlSubmit_keeps (own : Bool) (r : Rect) (mode : Nat) (tag : Byte) (split : Bool) (s : State) (h : MemWf s) :
    MemWf (pnlSubmit own r mode tag split s).2 := by
  unfold pnlSubmit
  repeat' first
    | intro _
    | with_reducible assumption
    | decide
    | with_reducible apply MemWf.ite
    | with_reducible apply MemWf.dite
    | with_reducible apply MemWf.iteSnd
    | with_reducible apply MemWf.setPnl
    | with_reducible apply pnlPower_keeps
    | ((with_reducible show PnlWf _); assumption)
    | ((with_reducible show PnlWf _); exact (‹MemWf _› : MemWf _).pnl)
    | split
    | dsimp only

theorem pnlOwn_keeps (r : Rect) (mode : Nat) (s : State) (h : MemWf s) :
    MemWf (pnlOwn r mode s).2 := by
  unfold pnlOwn
  repeat' first
    | intro _
    | with_reducible assumption
    | decide
    | with_reducible apply MemWf.ite
    | with_reducible apply MemWf.dite
    | with_reducible apply MemWf.iteSnd
    | with_reducible apply pnlSubmit_keeps
    | with_reducible apply Only.keeps (State.drew_only _)
    | split
    | dsimp only

theorem updCmd_keeps (src : Source) (tag : Byte) (split : Bool) (mode : Nat) (s : State) (h : MemWf s) :
    MemWf (updCmd src tag split mode s) := by
  unfold updCmd
  repeat' first
    | intro _
    | with_reducible assumption
    | decide
    | with_reducible apply MemWf.ite
    | with_reducible apply MemWf.dite
    | with_reducible apply pnlSubmit_keeps
    | with_reducible apply MemWf.setPnl
    | ((with_reducible show PnlWf _); assumption)
    | ((with_reducible show PnlWf _); exact (‹MemWf _› : MemWf _).pnl)
    | split
    | dsimp only

theorem pnlRefresh_keeps (s : State) (h : MemWf s) :
    MemWf (pnlRefresh s) := by
  unfold pnlRefresh
  repeat' first
    | intro _
    | with_reducible assumption
    | decide
    | with_reducible apply MemWf.ite
    | with_reducible apply MemWf.dite
    | with_reducible apply pnlOwn_keeps
    | split
    | dsimp only

theorem slotDone_keeps (s : State) (k : PnlSlot) (h : MemWf s) :
    MemWf (slotDone s k) := by
  unfold slotDone
  have h1 : MemWf (s.setPnl fun p => { p with prev := planeCopy s k.req.rect p.prev k.target }) :=
    h.setPnl fun g => ⟨g.1, planeCopy_wf g.2.1, g.2.2⟩
  dsimp only
  exact MemWf.ite h1 (MemWf.foldl (fun u _ g => (pnlEvent_only _ _ u).keeps (by decide) g) h1)

theorem pnlFrame_keeps (late : Nat) (s : State) (h : MemWf s) :
    MemWf (pnlFrame late s) := by
  unfold pnlFrame
  extract_lets run s1 s2 a
  have hr : ∀ k ∈ run, Memory.wf k.target = true := by
    intro k hk
    obtain ⟨x, hx, rfl⟩ := List.mem_map.mp hk
    exact h.targets x hx
  clear_value run
  have h1 : MemWf s1 := h.setPnl fun g => ⟨g.1, g.2.1, fun k hk => hr k (List.mem_filter.mp hk).1⟩
  clear_value s1
  have h2 : MemWf s2 := MemWf.foldl (fun u k g => slotDone_keeps u k g) h1
  clear_value s2
  have ha : ∀ k ∈ a.slots, Memory.wf k.target = true := by
    have e : ∀ (q : List UpdReq) (b : Starting), (∀ k ∈ b.slots, Memory.wf k.target = true) →
        ∀ k ∈ (q.foldl (tryStart s2) b).slots, Memory.wf k.target = true := by
      intro q
      induction q with
      | nil => exact fun _ g => g
      | cons r q ih => exact fun b g => ih _ (tryStart_wf h2.cur g)
    exact e _ _ h2.targets
  clear_value a
  exact MemWf.ite (h2.setPnl fun g => g) (MemWf.ite h2 (h2.setPnl fun g => ⟨g.1, g.2.1, ha⟩))

theorem slotAbandon_keeps (s : State) (k : PnlSlot) (h : MemWf s) :
    MemWf (slotAbandon s k) := by
  unfold slotAbandon
  repeat' first
    | intro _
    | with_reducible assumption
    | decide
    | with_reducible apply MemWf.ite
    | with_reducible apply MemWf.dite
    | with_reducible apply MemWf.foldl
    | with_reducible apply MemWf.setPnl
    | with_reducible apply Only.keeps (pnlEvent_only _ _ _)
    | ((with_reducible show PnlWf _); assumption)
    | ((with_reducible show PnlWf _); exact (‹MemWf _› : MemWf _).pnl)
    | split
    | dsimp only

theorem pnlCut_keeps (s : State) (h : MemWf s) :
    MemWf (pnlCut s) := by
  unfold pnlCut
  repeat' first
    | intro _
    | with_reducible assumption
    | decide
    | with_reducible apply MemWf.ite
    | with_reducible apply MemWf.dite
    | with_reducible apply MemWf.foldl
    | with_reducible apply slotAbandon_keeps
    | with_reducible apply MemWf.setPnl
    | with_reducible apply MemWf.set_sys
    | ((with_reducible show PnlWf _); exact (‹MemWf _› : MemWf _).pnl)
    | ((with_reducible show PnlWf _); refine ⟨?_, ?_, ?_⟩)
    | ((with_reducible show Memory.wf _ = true); dsimp only)
    | with_reducible apply Memory.wf_memFill
    | with_reducible apply Memory.wf_memPut
    | with_reducible apply Memory.wf_memZero
    | with_reducible apply Memory.wf_memWindow
    | with_reducible apply Memory.wf_memCopyIn
    | with_reducible apply Memory.wf_foldl_memPut
    | with_reducible apply Memory.wf_filter
    | ((with_reducible show Memory.wf _ = true); first | exact rfl | exact (‹PnlWf _› : PnlWf _).1 | exact (‹PnlWf _› : PnlWf _).2.1)
    | exact (‹PnlWf _› : PnlWf _).2.2 _ ‹_›
    | exact (List.not_mem_nil ‹_›).elim
    | split
    | dsimp only

theorem pnlRepair_keeps (s : State) (r : Rect) (h : MemWf s) :
    MemWf (pnlRepair s r) := by
  unfold pnlRepair
  repeat' first
    | intro _
    | with_reducible assumption
    | decide
    | with_reducible apply MemWf.ite
    | with_reducible apply MemWf.dite
    | with_reducible apply pnlOwn_keeps
    | with_reducible apply MemWf.setPnl
    | ((with_reducible show PnlWf _); assumption)
    | ((with_reducible show PnlWf _); exact (‹MemWf _› : MemWf _).pnl)
    | split
    | dsimp only

theorem pnlReady_keeps (s : State) (h : MemWf s) :
    MemWf (pnlReady s) := by
  unfold pnlReady
  repeat' first
    | intro _
    | with_reducible assumption
    | decide
    | with_reducible apply MemWf.ite
    | with_reducible apply MemWf.dite
    | with_reducible apply MemWf.foldl
    | with_reducible apply MemWf.setPnl
    | with_reducible apply Only.keeps (pnlEvent_only _ _ _)
    | with_reducible apply pnlRepair_keeps
    | ((with_reducible show PnlWf _); assumption)
    | ((with_reducible show PnlWf _); exact (‹MemWf _› : MemWf _).pnl)
    | split
    | dsimp only

theorem pnlRailFault_keeps (s : State) (h : MemWf s) :
    MemWf (pnlRailFault s) := by
  unfold pnlRailFault
  repeat' first
    | intro _
    | with_reducible assumption
    | decide
    | with_reducible apply MemWf.ite
    | with_reducible apply MemWf.dite
    | with_reducible apply Only.keeps (pnlEvent_only _ _ _)
    | with_reducible apply pnlCut_keeps
    | with_reducible apply MemWf.setPnl
    | ((with_reducible show PnlWf _); assumption)
    | ((with_reducible show PnlWf _); exact (‹MemWf _› : MemWf _).pnl)
    | split
    | dsimp only

theorem pnlLeaveFault_keeps (s : State) (h : MemWf s) :
    MemWf (pnlLeaveFault s) := by
  unfold pnlLeaveFault
  repeat' first
    | intro _
    | with_reducible assumption
    | decide
    | with_reducible apply MemWf.ite
    | with_reducible apply MemWf.dite
    | with_reducible apply pnlPower_keeps
    | with_reducible apply MemWf.setPnl
    | ((with_reducible show PnlWf _); assumption)
    | ((with_reducible show PnlWf _); exact (‹MemWf _› : MemWf _).pnl)
    | split
    | dsimp only

theorem pnlHourly_keeps (s : State) (h : MemWf s) :
    MemWf (pnlHourly s) := by
  unfold pnlHourly
  repeat' first
    | intro _
    | with_reducible assumption
    | decide
    | with_reducible apply MemWf.ite
    | with_reducible apply MemWf.dite
    | with_reducible apply MemWf.setPnl
    | with_reducible apply MemWf.set_sys
    | ((with_reducible show PnlWf _); assumption)
    | ((with_reducible show PnlWf _); exact (‹MemWf _› : MemWf _).pnl)
    | split
    | dsimp only

theorem pnlFceReset_keeps (s : State) (h : MemWf s) :
    MemWf (pnlFceReset s) := by
  unfold pnlFceReset
  repeat' first
    | intro _
    | with_reducible assumption
    | decide
    | with_reducible apply MemWf.ite
    | with_reducible apply MemWf.dite
    | with_reducible apply pnlCut_keeps
    | with_reducible apply MemWf.setPnl
    | ((with_reducible show PnlWf _); assumption)
    | ((with_reducible show PnlWf _); exact (‹MemWf _› : MemWf _).pnl)
    | split
    | dsimp only

theorem pnlLoad_keeps (s : State) (h : MemWf s) :
    MemWf (pnlLoad s) := by
  unfold pnlLoad
  repeat' first
    | intro _
    | with_reducible assumption
    | decide
    | with_reducible apply MemWf.ite
    | with_reducible apply MemWf.dite
    | with_reducible apply MemWf.setPnl
    | ((with_reducible show PnlWf _); assumption)
    | ((with_reducible show PnlWf _); exact (‹MemWf _› : MemWf _).pnl)
    | split
    | dsimp only

theorem fbWrite_keeps (src : Source) (off : Nat) (v : Word) (s : State) (h : MemWf s) :
    MemWf (fbWrite src off v s).2 := by
  unfold fbWrite
  repeat' first
    | intro _
    | with_reducible assumption
    | decide
    | with_reducible apply MemWf.ite
    | with_reducible apply MemWf.dite
    | with_reducible apply MemWf.iteSnd
    | with_reducible apply MemWf.setPnl
    | with_reducible apply Only.keeps (logWerr_only _ _ _ _)
    | ((with_reducible show PnlWf _); exact (‹MemWf _› : MemWf _).pnl)
    | ((with_reducible show PnlWf _); refine ⟨?_, ?_, ?_⟩)
    | ((with_reducible show Memory.wf _ = true); dsimp only)
    | with_reducible apply Memory.wf_memFill
    | with_reducible apply Memory.wf_memPut
    | with_reducible apply Memory.wf_memZero
    | with_reducible apply Memory.wf_memWindow
    | with_reducible apply Memory.wf_memCopyIn
    | with_reducible apply Memory.wf_foldl_memPut
    | with_reducible apply Memory.wf_filter
    | ((with_reducible show Memory.wf _ = true); first | exact rfl | exact (‹PnlWf _› : PnlWf _).1 | exact (‹PnlWf _› : PnlWf _).2.1)
    | exact (‹PnlWf _› : PnlWf _).2.2 _ ‹_›
    | exact (List.not_mem_nil ‹_›).elim
    | split
    | dsimp only

theorem inPnl_keeps (f : State → State) (s : State) (hf : ∀ u, MemWf u → MemWf (f u)) (h : MemWf s) :
    MemWf (inPnl f s) := by
  unfold inPnl
  repeat' first
    | intro _
    | with_reducible assumption
    | decide
    | with_reducible apply hf
    | with_reducible apply MemWf.ite
    | with_reducible apply MemWf.dite
    | split
    | dsimp only

theorem execPnlUpdateRequest_keeps (src : Source) (tag : Byte) (split : Bool) (mode : BitVec 4) (s : State) (h : MemWf s) :
    ∃ t', execPnlUpdateRequest src tag split mode s = .next t' ∧ MemWf t' := by
  refine ⟨_, rfl, ?_⟩
  repeat' first
    | intro _
    | with_reducible assumption
    | decide
    | with_reducible apply MemWf.ite
    | with_reducible apply MemWf.dite
    | with_reducible apply updCmd_keeps
    | split
    | dsimp only

theorem execPnlRailsReady_keeps (s : State) (h : MemWf s) :
    ∃ t', execPnlRailsReady s = .next t' ∧ MemWf t' := by
  refine ⟨_, rfl, ?_⟩
  repeat' first
    | intro _
    | with_reducible assumption
    | decide
    | with_reducible apply MemWf.ite
    | with_reducible apply MemWf.dite
    | with_reducible apply inPnl_keeps
    | with_reducible apply pnlReady_keeps
    | split
    | dsimp only

theorem execPnlRailIdle_keeps (s : State) (h : MemWf s) :
    ∃ t', execPnlRailIdle s = .next t' ∧ MemWf t' := by
  refine ⟨_, rfl, ?_⟩
  repeat' first
    | intro _
    | with_reducible assumption
    | decide
    | with_reducible apply MemWf.ite
    | with_reducible apply MemWf.dite
    | with_reducible apply inPnl_keeps
    | with_reducible apply pnlPower_keeps
    | with_reducible apply pnlCut_keeps
    | split
    | dsimp only

theorem execPnlRailFault_keeps (s : State) (h : MemWf s) :
    ∃ t', execPnlRailFault s = .next t' ∧ MemWf t' := by
  refine ⟨_, rfl, ?_⟩
  repeat' first
    | intro _
    | with_reducible assumption
    | decide
    | with_reducible apply MemWf.ite
    | with_reducible apply MemWf.dite
    | with_reducible apply inPnl_keeps
    | with_reducible apply pnlRailFault_keeps
    | split
    | dsimp only

theorem execPnlRailRetry_keeps (s : State) (h : MemWf s) :
    ∃ t', execPnlRailRetry s = .next t' ∧ MemWf t' := by
  refine ⟨_, rfl, ?_⟩
  repeat' first
    | intro _
    | with_reducible assumption
    | decide
    | with_reducible apply MemWf.ite
    | with_reducible apply MemWf.dite
    | with_reducible apply inPnl_keeps
    | with_reducible apply pnlPower_keeps
    | with_reducible apply MemWf.setPnl
    | ((with_reducible show PnlWf _); assumption)
    | ((with_reducible show PnlWf _); exact (‹MemWf _› : MemWf _).pnl)
    | split
    | dsimp only

theorem execPnlRailFaultRetry_keeps (s : State) (h : MemWf s) :
    ∃ t', execPnlRailFaultRetry s = .next t' ∧ MemWf t' := by
  refine ⟨_, rfl, ?_⟩
  repeat' first
    | intro _
    | with_reducible assumption
    | decide
    | with_reducible apply MemWf.ite
    | with_reducible apply MemWf.dite
    | with_reducible apply inPnl_keeps
    | with_reducible apply pnlHourly_keeps
    | split
    | dsimp only

theorem execPnlRetry_keeps (s : State) (h : MemWf s) :
    ∃ t', execPnlRetry s = .next t' ∧ MemWf t' := by
  refine ⟨_, rfl, ?_⟩
  repeat' first
    | intro _
    | with_reducible assumption
    | decide
    | with_reducible apply MemWf.ite
    | with_reducible apply MemWf.dite
    | with_reducible apply inPnl_keeps
    | with_reducible apply pnlLeaveFault_keeps
    | split
    | dsimp only

theorem execPnlRefresh_keeps (s : State) (h : MemWf s) :
    ∃ t', execPnlRefresh s = .next t' ∧ MemWf t' := by
  refine ⟨_, rfl, ?_⟩
  repeat' first
    | intro _
    | with_reducible assumption
    | decide
    | with_reducible apply MemWf.ite
    | with_reducible apply MemWf.dite
    | with_reducible apply pnlRefresh_keeps
    | split
    | dsimp only

theorem execPnlTempSample_keeps (mv : BitVec 12) (s : State) (h : MemWf s) :
    ∃ t', execPnlTempSample mv s = .next t' ∧ MemWf t' := by
  refine ⟨_, rfl, ?_⟩
  repeat' first
    | intro _
    | with_reducible assumption
    | decide
    | with_reducible apply MemWf.ite
    | with_reducible apply MemWf.dite
    | with_reducible apply inPnl_keeps
    | with_reducible apply pnlSample_keeps
    | split
    | dsimp only

theorem execPnlVcomChange_keeps (s : State) (h : MemWf s) :
    ∃ t', execPnlVcomChange s = .next t' ∧ MemWf t' := by
  refine ⟨_, rfl, ?_⟩
  repeat' first
    | intro _
    | with_reducible assumption
    | decide
    | with_reducible apply MemWf.ite
    | with_reducible apply MemWf.dite
    | with_reducible apply inPnl_keeps
    | with_reducible apply MemWf.setPnl
    | ((with_reducible show PnlWf _); assumption)
    | ((with_reducible show PnlWf _); exact (‹MemWf _› : MemWf _).pnl)
    | split
    | dsimp only

theorem execPnlFrameBoundary_keeps (late : Nat) (s : State) (h : MemWf s) :
    ∃ t', execPnlFrameBoundary late s = .next t' ∧ MemWf t' := by
  refine ⟨_, rfl, ?_⟩
  repeat' first
    | intro _
    | with_reducible assumption
    | decide
    | with_reducible apply MemWf.ite
    | with_reducible apply MemWf.dite
    | with_reducible apply inPnl_keeps
    | with_reducible apply pnlFrame_keeps
    | split
    | dsimp only

theorem execFbApertureWrite_keeps (src : Source) (off : Half) (v : Word) (s : State) (h : MemWf s) :
    ∃ t', execFbApertureWrite src off v s = .next t' ∧ MemWf t' := by
  refine ⟨_, rfl, ?_⟩
  repeat' first
    | intro _
    | with_reducible assumption
    | decide
    | with_reducible apply MemWf.ite
    | with_reducible apply MemWf.dite
    | with_reducible apply fbWrite_keeps
    | split
    | dsimp only

end Sys2Proof.Machine
end

