-- ==== Sys2Proof/Laws/KeepRnd.lean ====
section
/-! SUPPORT. Rnd: the operations of Machine/Rnd keep every memory in canonical form. -/
namespace Sys2Proof.Machine

open Sys2Proof

theorem drawRect_keeps (r : Rect) (s : State) (h : MemWf s) :
    MemWf (drawRect r s) := by
  unfold drawRect
  repeat' first
    | intro _
    | with_reducible assumption
    | decide
    | with_reducible apply MemWf.ite
    | with_reducible apply MemWf.dite
    | with_reducible apply MemWf.foldl
    | with_reducible apply MemWf.setPnl
    | with_reducible apply Only.keeps (State.setRnd_only _ _)
    | with_reducible apply MemWf.set_drawn
    | ((with_reducible show PnlWf _); exact (‹MemWf _› : MemWf _).pnl)
    | ((with_reducible show PnlWf _); refine ⟨?_, ?_, ?_⟩)
    | ((with_reducible show Memory.wf _ = true); dsimp only)
    | with_reducible apply Memory.wf_memFill
    | with_reducible apply Memory.wf_memPut
    | with_reducible apply Memory.wf_memZero
    | with_reducible apply Memory.wf_memWindow
    | with_reducible apply Memory.wf_memCopyIn
    | with_reducible apply Memory.wf_foldl_memPut
    | with_reducible apply Memory.wf_filter
    | ((with_reducible show Memory.wf _ = true); first | exact rfl | exact (‹PnlWf _› : PnlWf _).1 | exact (‹PnlWf _› : PnlWf _).2.1)
    | exact (‹PnlWf _› : PnlWf _).2.2 _ ‹_›
    | exact (List.not_mem_nil ‹_›).elim
    | split
    | dsimp only

theorem askRect_keeps (mode : Nat) (r : Rect) (s : State) (h : MemWf s) :
    MemWf (askRect mode r s) := by
  unfold askRect
  repeat' first
    | intro _
    | with_reducible assumption
    | decide
    | with_reducible apply MemWf.ite
    | with_reducible apply MemWf.dite
    | with_reducible apply pnlOwn_keeps
    | with_reducible apply Only.keeps (State.setRnd_only _ _)
    | split
    | dsimp only

theorem redrawPart_keeps (s : State) (r : Option Rect) (h : MemWf s) :
    MemWf (redrawPart s r) := by
  unfold redrawPart
  repeat' first
    | intro _
    | with_reducible assumption
    | decide
    | with_reducible apply MemWf.ite
    | with_reducible apply MemWf.dite
    | with_reducible apply askRect_keeps
    | with_reducible apply drawRect_keeps
    | split
    | dsimp only

theorem drawWhole_keeps (s : State) (h : MemWf s) :
    MemWf (drawWhole s) := by
  unfold drawWhole
  repeat' first
    | intro _
    | with_reducible assumption
    | decide
    | with_reducible apply MemWf.ite
    | with_reducible apply MemWf.dite
    | with_reducible apply drawRect_keeps
    | with_reducible apply Only.keeps (State.setRnd_only _ _)
    | with_reducible apply pnlOwn_keeps
    | split
    | dsimp only

theorem rndFull_keeps (s : State) (h : MemWf s) :
    MemWf (rndFull s) := by
  unfold rndFull
  repeat' first
    | intro _
    | with_reducible assumption
    | decide
    | with_reducible apply MemWf.ite
    | with_reducible apply MemWf.dite
    | with_reducible apply drawWhole_keeps
    | with_reducible apply Only.keeps (rndShown_only _)
    | split
    | dsimp only

theorem rndRedraw_keeps (s : State) (h : MemWf s) :
    MemWf (rndRedraw s) := by
  unfold rndRedraw
  repeat' first
    | intro _
    | with_reducible assumption
    | decide
    | with_reducible apply MemWf.ite
    | with_reducible apply MemWf.dite
    | with_reducible apply MemWf.foldl
    | with_reducible apply rndFull_keeps
    | with_reducible apply redrawPart_keeps
    | with_reducible apply Only.keeps (rndShown_only _)
    | with_reducible apply Only.keeps (State.setRnd_only _ _)
    | split
    | dsimp only

theorem rndRepair_keeps (line : Nat) (s : State) (h : MemWf s) :
    MemWf (rndRepair line s) := by
  unfold rndRepair
  repeat' first
    | intro _
    | with_reducible assumption
    | decide
    | with_reducible apply MemWf.ite
    | with_reducible apply MemWf.dite
    | with_reducible apply askRect_keeps
    | with_reducible apply drawRect_keeps
    | split
    | dsimp only

theorem rndKey_keeps (key : Nat) (act : State → State) (s : State) (hf : ∀ u, MemWf u → MemWf (act u)) (h : MemWf s) :
    MemWf (rndKey key act s) := by
  unfold rndKey
  repeat' first
    | intro _
    | with_reducible assumption
    | decide
    | with_reducible apply hf
    | with_reducible apply MemWf.ite
    | with_reducible apply MemWf.dite
    | with_reducible apply Only.keeps (keyBusy_only _ _)
    | with_reducible apply Only.keeps (keyDone_only _ _ _ _)
    | split
    | dsimp only

theorem keyDuty_keeps (eng : Nat) (s : State) (h : MemWf s) :
    MemWf (keyDuty eng s) := by
  unfold keyDuty
  repeat' first
    | intro _
    | with_reducible assumption
    | decide
    | with_reducible apply MemWf.ite
    | with_reducible apply MemWf.dite
    | with_reducible apply Only.keeps (keyCall_only _ _ _ _ _ _)
    | with_reducible apply Only.keeps (keyOk_only _ _)
    | with_reducible apply dutySelect_keeps
    | split
    | dsimp only

theorem rndKeyWrite_keeps (key eng : Nat) (s : State) (h : MemWf s) :
    MemWf (rndKeyWrite key eng s) := by
  unfold rndKeyWrite
  repeat' first
    | intro _
    | with_reducible assumption
    | decide
    | with_reducible apply MemWf.ite
    | with_reducible apply MemWf.dite
    | with_reducible apply rndKey_keeps
    | with_reducible apply Only.keeps (keyOk_only _ _)
    | with_reducible apply Only.keeps (moveSel_only _ _)
    | with_reducible apply Only.keeps (nextPage_only _)
    | with_reducible apply Only.keeps (selectGroup_only _)
    | with_reducible apply Only.keeps (keyAck_only _)
    | with_reducible apply Only.keeps (keyAckPage_only _)
    | with_reducible apply Only.keeps (keyAnn_only _ _ _ _ _ _)
    | with_reducible apply Only.keeps (keyAckCall_only _ _)
    | with_reducible apply keyDuty_keeps
    | with_reducible apply Only.keeps (keyDone_only _ _ _ _)
    | split
    | dsimp only

theorem inRnd_keeps (f : State → State) (s : State) (hf : ∀ u, MemWf u → MemWf (f u)) (h : MemWf s) :
    MemWf (inRnd f s) := by
  unfold inRnd
  repeat' first
    | intro _
    | with_reducible assumption
    | decide
    | with_reducible apply hf
    | with_reducible apply MemWf.ite
    | with_reducible apply MemWf.dite
    | split
    | dsimp only

theorem execRndRedraw_keeps (s : State) (h : MemWf s) :
    ∃ t', execRndRedraw s = .next t' ∧ MemWf t' := by
  refine ⟨_, rfl, ?_⟩
  repeat' first
    | intro _
    | with_reducible assumption
    | decide
    | with_reducible apply MemWf.ite
    | with_reducible apply MemWf.dite
    | with_reducible apply rndRedraw_keeps
    | split
    | dsimp only

theorem execRndKeyUp_keeps (s : State) (h : MemWf s) :
    ∃ t', execRndKeyUp s = .next t' ∧ MemWf t' := by
  refine ⟨_, rfl, ?_⟩
  repeat' first
    | intro _
    | with_reducible assumption
    | decide
    | with_reducible apply MemWf.ite
    | with_reducible apply MemWf.dite
    | with_reducible apply inRnd_keeps
    | with_reducible apply rndKeyWrite_keeps
    | split
    | dsimp only

theorem execRndKeyDown_keeps (s : State) (h : MemWf s) :
    ∃ t', execRndKeyDown s = .next t' ∧ MemWf t' := by
  refine ⟨_, rfl, ?_⟩
  repeat' first
    | intro _
    | with_reducible assumption
    | decide
    | with_reducible apply MemWf.ite
    | with_reducible apply MemWf.dite
    | with_reducible apply inRnd_keeps
    | with_reducible apply rndKeyWrite_keeps
    | split
    | dsimp only

theorem execRndKeyPage_keeps (s : State) (h : MemWf s) :
    ∃ t', execRndKeyPage s = .next t' ∧ MemWf t' := by
  refine ⟨_, rfl, ?_⟩
  repeat' first
    | intro _
    | with_reducible assumption
    | decide
    | with_reducible apply MemWf.ite
    | with_reducible apply MemWf.dite
    | with_reducible apply inRnd_keeps
    | with_reducible apply rndKeyWrite_keeps
    | split
    | dsimp only

theorem execRndKeySelect_keeps (s : State) (h : MemWf s) :
    ∃ t', execRndKeySelect s = .next t' ∧ MemWf t' := by
  refine ⟨_, rfl, ?_⟩
  repeat' first
    | intro _
    | with_reducible assumption
    | decide
    | with_reducible apply MemWf.ite
    | with_reducible apply MemWf.dite
    | with_reducible apply inRnd_keeps
    | with_reducible apply rndKeyWrite_keeps
    | split
    | dsimp only

theorem execRndKeyAck_keeps (s : State) (h : MemWf s) :
    ∃ t', execRndKeyAck s = .next t' ∧ MemWf t' := by
  refine ⟨_, rfl, ?_⟩
  repeat' first
    | intro _
    | with_reducible assumption
    | decide
    | with_reducible apply MemWf.ite
    | with_reducible apply MemWf.dite
    | with_reducible apply inRnd_keeps
    | with_reducible apply rndKeyWrite_keeps
    | split
    | dsimp only

theorem execRndKeyAckPage_keeps (s : State) (h : MemWf s) :
    ∃ t', execRndKeyAckPage s = .next t' ∧ MemWf t' := by
  refine ⟨_, rfl, ?_⟩
  repeat' first
    | intro _
    | with_reducible assumption
    | decide
    | with_reducible apply MemWf.ite
    | with_reducible apply MemWf.dite
    | with_reducible apply inRnd_keeps
    | with_reducible apply rndKeyWrite_keeps
    | split
    | dsimp only

theorem execRndKeySilence_keeps (s : State) (h : MemWf s) :
    ∃ t', execRndKeySilence s = .next t' ∧ MemWf t' := by
  refine ⟨_, rfl, ?_⟩
  repeat' first
    | intro _
    | with_reducible assumption
    | decide
    | with_reducible apply MemWf.ite
    | with_reducible apply MemWf.dite
    | with_reducible apply inRnd_keeps
    | with_reducible apply rndKeyWrite_keeps
    | split
    | dsimp only

theorem execRndKeyAckCall_keeps (eng : BitVec 5) (s : State) (h : MemWf s) :
    ∃ t', execRndKeyAckCall eng s = .next t' ∧ MemWf t' := by
  refine ⟨_, rfl, ?_⟩
  repeat' first
    | intro _
    | with_reducible assumption
    | decide
    | with_reducible apply MemWf.ite
    | with_reducible apply MemWf.dite
    | with_reducible apply inRnd_keeps
    | with_reducible apply rndKeyWrite_keeps
    | split
    | dsimp only

theorem execRndKeyDuty_keeps (eng : BitVec 5) (s : State) (h : MemWf s) :
    ∃ t', execRndKeyDuty eng s = .next t' ∧ MemWf t' := by
  refine ⟨_, rfl, ?_⟩
  repeat' first
    | intro _
    | with_reducible assumption
    | decide
    | with_reducible apply MemWf.ite
    | with_reducible apply MemWf.dite
    | with_reducible apply inRnd_keeps
    | with_reducible apply rndKeyWrite_keeps
    | split
    | dsimp only

theorem execRndKeyBad_keeps (key : BitVec 4) (s : State) (h : MemWf s) :
    ∃ t', execRndKeyBad key s = .next t' ∧ MemWf t' := by
  refine ⟨_, rfl, ?_⟩
  repeat' first
    | intro _
    | with_reducible assumption
    | decide
    | with_reducible apply MemWf.ite
    | with_reducible apply MemWf.dite
    | with_reducible apply inRnd_keeps
    | with_reducible apply rndKeyWrite_keeps
    | split
    | dsimp only

end Sys2Proof.Machine
end

