-- ==== Sys2Proof/Laws/KeepService.lean ====
section
/-! SUPPORT. Service: the operations of Machine/Service keep every memory in canonical form. -/
namespace Sys2Proof.Machine

open Sys2Proof

theorem netTiming_keeps (s : State) (k : Fin 4) (h : MemWf s) :
    MemWf (netTiming s k) := by
  unfold netTiming
  repeat' first
    | intro _
    | with_reducible assumption
    | decide
    | with_reducible apply MemWf.ite
    | with_reducible apply MemWf.dite
    | with_reducible apply MemWf.setCan
    | ((with_reducible show CanWf _); assumption)
    | split
    | dsimp only

theorem netLoad_keeps (s : State) (h : MemWf s) :
    MemWf (netLoad s) := by
  unfold netLoad
  repeat' first
    | intro _
    | with_reducible assumption
    | decide
    | with_reducible apply MemWf.ite
    | with_reducible apply MemWf.dite
    | with_reducible apply netTiming_keeps
    | split
    | dsimp only

theorem networkJoin_keeps (s : State) (h : MemWf s) :
    MemWf (networkJoin s) := by
  unfold networkJoin
  repeat' first
    | intro _
    | with_reducible assumption
    | decide
    | with_reducible apply MemWf.ite
    | with_reducible apply MemWf.dite
    | with_reducible apply netJoin_keeps
    | with_reducible apply netLoad_keeps
    | with_reducible apply Only.keeps (timeSettled_only _)
    | with_reducible apply MemWf.set_sys
    | split
    | dsimp only

theorem execNetworkJoin_keeps (s : State) (h : MemWf s) :
    ∃ t', execNetworkJoin s = .next t' ∧ MemWf t' := by
  refine ⟨_, rfl, ?_⟩
  repeat' first
    | intro _
    | with_reducible assumption
    | decide
    | with_reducible apply MemWf.ite
    | with_reducible apply MemWf.dite
    | with_reducible apply networkJoin_keeps
    | split
    | dsimp only

theorem execTimeFollowReceived_keeps (f : ImzRx) (s : State) (h : MemWf s) :
    ∃ t', execTimeFollowReceived f s = .next t' ∧ MemWf t' := by
  refine ⟨_, rfl, ?_⟩
  repeat' first
    | intro _
    | with_reducible assumption
    | decide
    | with_reducible apply MemWf.ite
    | with_reducible apply MemWf.dite
    | with_reducible apply timRx_keeps
    | with_reducible apply followRx_keeps
    | with_reducible apply Only.keeps (timeSettled_only _)
    | split
    | dsimp only

end Sys2Proof.Machine
end

