-- ==== Sys2Proof/Laws/KeepSettings.lean ====
section
/-! SUPPORT. Settings: the operations of Machine/Settings keep every memory in canonical form. -/
namespace Sys2Proof.Machine

open Sys2Proof

theorem settingsSave_keeps (s : State) (h : MemWf s) :
    MemWf (settingsSave s) := by
  unfold settingsSave
  repeat' first
    | intro _
    | with_reducible assumption
    | decide
    | with_reducible apply MemWf.ite
    | with_reducible apply MemWf.dite
    | with_reducible apply sectorPut_keeps
    | with_reducible apply Only.keeps (State.setAge_only _ _)
    | with_reducible apply Only.keeps (ledgerFail_only _)
    | split
    | dsimp only

theorem settingsRetry_keeps (s : State) (h : MemWf s) :
    MemWf (settingsRetry s) := by
  unfold settingsRetry
  repeat' first
    | intro _
    | with_reducible assumption
    | decide
    | with_reducible apply MemWf.ite
    | with_reducible apply MemWf.dite
    | with_reducible apply settingsSave_keeps
    | split
    | dsimp only

theorem settingsSync_keeps (s0 s1 : State) (h : MemWf s1) :
    MemWf (settingsSync s0 s1) := by
  unfold settingsSync
  repeat' first
    | intro _
    | with_reducible assumption
    | decide
    | with_reducible apply MemWf.ite
    | with_reducible apply MemWf.dite
    | with_reducible apply settingsSave_keeps
    | split
    | dsimp only

theorem settingsLoad_keeps (s : State) (h : MemWf s) :
    MemWf (settingsLoad s) := by
  unfold settingsLoad
  split
  · exact h.set_ao_dio (AoWf.all_map h.ao fun _ g => g)
  · extract_lets d s1
    have h1 : MemWf s1 := (State.setAge_only _ _).keeps (by decide) h
    clear_value d s1
    exact h1.set_ao_dio (AoWf.all_mapFinIdx h1.ao fun _ _ _ g => g)

theorem execAoTrimApply_keeps (src : Source) (c : Fin 4) (s : State) (h : MemWf s) :
    ∃ t', execAoTrimApply src c s = .next t' ∧ MemWf t' := by
  refine ⟨_, rfl, ?_⟩
  repeat' first
    | intro _
    | with_reducible assumption
    | decide
    | with_reducible apply MemWf.ite
    | with_reducible apply MemWf.dite
    | with_reducible apply settingsSync_keeps
    | with_reducible apply aoTrimApply_keeps
    | split
    | dsimp only

theorem execAoTrimClear_keeps (src : Source) (c : Fin 4) (s : State) (h : MemWf s) :
    ∃ t', execAoTrimClear src c s = .next t' ∧ MemWf t' := by
  refine ⟨_, rfl, ?_⟩
  repeat' first
    | intro _
    | with_reducible assumption
    | decide
    | with_reducible apply MemWf.ite
    | with_reducible apply MemWf.dite
    | with_reducible apply settingsSync_keeps
    | with_reducible apply aoTrimClear_keeps
    | split
    | dsimp only

theorem execAoTrimStore_keeps (c : Fin 4) (s : State) (h : MemWf s) :
    ∃ t', execAoTrimStore c s = .next t' ∧ MemWf t' := by
  refine ⟨_, rfl, ?_⟩
  repeat' first
    | intro _
    | with_reducible assumption
    | decide
    | with_reducible apply MemWf.ite
    | with_reducible apply MemWf.dite
    | with_reducible apply settingsSync_keeps
    | with_reducible apply aoTrimStore_keeps
    | split
    | dsimp only

theorem execDioLearnPartDone_keeps (c : Fin 16) (probe : Bool) (s : State) (h : MemWf s) :
    ∃ t', execDioLearnPartDone c probe s = .next t' ∧ MemWf t' := by
  refine ⟨_, rfl, ?_⟩
  repeat' first
    | intro _
    | with_reducible assumption
    | decide
    | with_reducible apply MemWf.ite
    | with_reducible apply MemWf.dite
    | with_reducible apply settingsSync_keeps
    | with_reducible apply Only.keeps (dioLearnDone_only _ _ _)
    | with_reducible apply Only.keeps (learnR_only _ _ _)
    | split
    | dsimp only

theorem execDioLearnClr_keeps (src : Source) (c : Fin 16) (s : State) (h : MemWf s) :
    ∃ t', execDioLearnClr src c s = .next t' ∧ MemWf t' := by
  refine ⟨_, rfl, ?_⟩
  repeat' first
    | intro _
    | with_reducible assumption
    | decide
    | with_reducible apply MemWf.ite
    | with_reducible apply MemWf.dite
    | with_reducible apply settingsSync_keeps
    | with_reducible apply dioCmd_keeps
    | with_reducible apply Only.keeps (State.setDio_only _ _ _)
    | split
    | dsimp only

end Sys2Proof.Machine
end

