-- ==== Sys2Proof/Laws/KeepLvn.lean ====
section
/-! SUPPORT. Lvn: the operations of Machine/Lvn keep every memory in canonical form. -/
namespace Sys2Proof.Machine

open Sys2Proof

theorem splitStart_keeps (s : State) (h : MemWf s) :
    MemWf (splitStart s) := by
  unfold splitStart
  repeat' first
    | intro _
    | with_reducible assumption
    | decide
    | with_reducible apply MemWf.ite
    | with_reducible apply MemWf.dite
    | with_reducible apply imzBeat_keeps
    | with_reducible apply Only.keeps (lvnEvent_only _ _ _ _)
    | with_reducible apply Only.keeps (State.setLvn_only _ _)
    | split
    | dsimp only

theorem settleRole_keeps (st : PairState) (s : State) (h : MemWf s) :
    MemWf (settleRole st s) := by
  unfold settleRole
  repeat' first
    | intro _
    | with_reducible assumption
    | decide
    | with_reducible apply MemWf.ite
    | with_reducible apply MemWf.dite
    | with_reducible apply Only.keeps (uiTakeControl_only _)
    | with_reducible apply Only.keeps (setRole_only _ _ _)
    | with_reducible apply noted_keeps
    | with_reducible apply Only.keeps (uiListenEntry_only _)
    | with_reducible apply enterConflict_keeps
    | with_reducible apply Only.keeps (lvnEvent_only _ _ _ _)
    | with_reducible apply Only.keeps (fullService_only _)
    | split
    | dsimp only

theorem negotiate_keeps (s : State) (h : MemWf s) :
    MemWf (negotiate s) := by
  unfold negotiate
  repeat' first
    | intro _
    | with_reducible assumption
    | decide
    | with_reducible apply MemWf.ite
    | with_reducible apply MemWf.dite
    | with_reducible apply settleRole_keeps
    | split
    | dsimp only

theorem peerWaitEnd_keeps (s : State) (h : MemWf s) :
    MemWf (peerWaitEnd s) := by
  unfold peerWaitEnd
  repeat' first
    | intro _
    | with_reducible assumption
    | decide
    | with_reducible apply MemWf.ite
    | with_reducible apply MemWf.dite
    | with_reducible apply splitStart_keeps
    | with_reducible apply settleRole_keeps
    | split
    | dsimp only

theorem lvBeatTake_keeps (d : List Byte) (age : Nat) (s : State) (h : MemWf s) :
    MemWf (lvBeatTake d age s) := by
  unfold lvBeatTake
  repeat' first
    | intro _
    | with_reducible assumption
    | decide
    | with_reducible apply MemWf.ite
    | with_reducible apply MemWf.dite
    | with_reducible apply Only.keeps (epochAcked_only _)
    | with_reducible apply Only.keeps (State.setLvn_only _ _)
    | with_reducible apply Only.keeps (lvnEvent_only _ _ _ _)
    | with_reducible apply timPair_keeps
    | with_reducible apply Only.keeps (State.setTim_only _ _)
    | split
    | dsimp only

theorem lvRejoin_keeps (s : State) (h : MemWf s) :
    MemWf (lvRejoin s) := by
  unfold lvRejoin
  repeat' first
    | intro _
    | with_reducible assumption
    | decide
    | with_reducible apply MemWf.ite
    | with_reducible apply MemWf.dite
    | with_reducible apply Only.keeps (splitEnd_only _)
    | with_reducible apply Only.keeps (restat_only _)
    | with_reducible apply Only.keeps (setPair_only _ _)
    | with_reducible apply Only.keeps (State.setLvn_only _ _)
    | with_reducible apply Only.keeps (setRole_only _ _ _)
    | with_reducible apply releaseControl_keeps
    | split
    | dsimp only

theorem lvFrame_keeps (ok : Bool) (f : State → State) (s : State) (hf : ∀ u, MemWf u → MemWf (f u)) (h : MemWf s) :
    MemWf (lvFrame ok f s) := by
  unfold lvFrame
  repeat' first
    | intro _
    | with_reducible assumption
    | decide
    | with_reducible apply hf
    | with_reducible apply MemWf.ite
    | with_reducible apply MemWf.dite
    | with_reducible apply Only.keeps (State.setLvn_only _ _)
    | split
    | dsimp only

theorem lvBeatRx_keeps (d : List Byte) (age : Nat) (s : State) (h : MemWf s) :
    MemWf (lvBeatRx d age s) := by
  unfold lvBeatRx
  repeat' first
    | intro _
    | with_reducible assumption
    | decide
    | with_reducible apply MemWf.ite
    | with_reducible apply MemWf.dite
    | with_reducible apply lvRejoin_keeps
    | with_reducible apply Only.keeps (presFault_only _)
    | with_reducible apply lvBeatTake_keeps
    | split
    | dsimp only

theorem epochSend_keeps (bytes frames : Nat) (s0 : State) (h : MemWf s0) :
    MemWf (epochSend bytes frames s0) := by
  unfold epochSend
  repeat' first
    | intro _
    | with_reducible assumption
    | decide
    | with_reducible apply MemWf.ite
    | with_reducible apply MemWf.dite
    | with_reducible apply Only.keeps (takeCopies_only _)
    | with_reducible apply Only.keeps (lvSend_only _ _)
    | with_reducible apply Only.keeps (State.drew_only _)
    | with_reducible apply Only.keeps (State.setLvn_only _ _)
    | with_reducible apply Only.keeps (lvnEvent_only _ _ _ _)
    | with_reducible apply MemWf.with_rcp
    | ((with_reducible show RcpWf _); assumption)
    | ((with_reducible show RecipeWf _); assumption)
    | ((with_reducible show RcpWf _); exact (‹MemWf _› : MemWf _).rcp)
    | ((with_reducible show RcpWf _); with_reducible assumption)
    | with_reducible apply RcpWf.setRecipe
    | split
    | dsimp only

theorem takeField_keeps (d : List Byte) (s : State) (h : MemWf s) :
    MemWf (takeField d s) := by
  unfold takeField
  repeat' first
    | intro _
    | with_reducible assumption
    | decide
    | with_reducible apply MemWf.ite
    | with_reducible apply MemWf.dite
    | with_reducible apply MemWf.set_ao_dio_ui_ps
    | ((with_reducible show AoWf _); assumption)
    | with_reducible apply Ao.setConds_wf
    | ((with_reducible show AoWf _); with_reducible assumption)
    | with_reducible apply AoWf.all_map
    | with_reducible apply AoWf.all_mapFinIdx
    | with_reducible apply AoWf.all_set
    | with_reducible apply MemWf.ao
    | split
    | dsimp only

theorem applyField_keeps (d : List Byte) (s : State) (h : MemWf s) :
    MemWf (applyField d s) := by
  unfold applyField
  repeat' first
    | intro _
    | with_reducible assumption
    | decide
    | with_reducible apply MemWf.ite
    | with_reducible apply MemWf.dite
    | with_reducible apply noted_keeps
    | with_reducible apply takeField_keeps
    | split
    | dsimp only

theorem applyRec_keeps (s : State) (r : LvRec) (h : MemWf s) : MemWf (applyRec s r) := by
  cases r
  all_goals
    dsimp only [applyRec]
    repeat' first
      | with_reducible assumption
      | decide
      | with_reducible apply Only.keeps (State.setPt_only _ _ _)
      | with_reducible apply Only.keeps (State.putGrp_only _ _ _)
      | with_reducible apply Only.keeps (State.setGrps_only _ _)
      | with_reducible apply Only.keeps (State.putSess_only _ _ _)
      | with_reducible apply MemWf.setImz
      | ((with_reducible show ImzWf _); assumption)
      | with_reducible apply Only.keeps (State.setCall_only _ _)
      | with_reducible apply Only.keeps (State.setAnn_only _ _)
      | with_reducible apply Only.keeps (State.setLvn_only _ _)
      | with_reducible apply applyField_keeps
      | with_reducible apply applyMarks_keeps
      | with_reducible apply Only.keeps (applyMarks_only _ _)
      | intro _

theorem swapHear_keeps (flags : Half) (s : State) (h : MemWf s) :
    MemWf (swapHear flags s) := by
  unfold swapHear
  repeat' first
    | intro _
    | with_reducible assumption
    | decide
    | with_reducible apply MemWf.ite
    | with_reducible apply MemWf.dite
    | with_reducible apply MemWf.with_rcp
    | ((with_reducible show RcpWf _); assumption)
    | ((with_reducible show RecipeWf _); assumption)
    | ((with_reducible show RcpWf _); exact (‹MemWf _› : MemWf _).rcp)
    | ((with_reducible show RcpWf _); with_reducible assumption)
    | with_reducible apply RcpWf.setRecipe
    | split
    | dsimp only

theorem swapLost_keeps (swap : Bool) (s : State) (h : MemWf s) :
    MemWf (swapLost swap s) := by
  unfold swapLost
  repeat' first
    | intro _
    | with_reducible assumption
    | decide
    | with_reducible apply MemWf.ite
    | with_reducible apply MemWf.dite
    | with_reducible apply Only.keeps (raise_only _ _ _)
    | with_reducible apply MemWf.with_rcp
    | ((with_reducible show RcpWf _); assumption)
    | ((with_reducible show RecipeWf _); assumption)
    | ((with_reducible show RcpWf _); exact (‹MemWf _› : MemWf _).rcp)
    | ((with_reducible show RcpWf _); with_reducible assumption)
    | with_reducible apply RcpWf.setRecipe
    | split
    | dsimp only

theorem epochCommit_keeps (n bytes : Word) (frames flags : Half) (crc : Bool) (s : State) (h : MemWf s) :
    MemWf (epochCommit n bytes frames flags crc s) := by
  unfold epochCommit
  split
  · exact h
  · refine MemWf.ite ?_ ?_
    · extract_lets s1 s2
      have h1 : MemWf s1 := by
        refine settingsSync_keeps _ _ ((tablePost_only _).keeps (by decide) ((dropOpen_only _).keeps (by decide) ?_))
        exact MemWf.foldl (fun u r g => applyRec_keeps u r g) h
      have h2 : MemWf s2 := (State.setLvn_only _ _).keeps (by decide) h1
      clear_value s1 s2
      exact MemWf.ite (h2.set_rcp h2.rcp) h2
    · exact swapHear_keeps _ _ ((lvnEvent_only _ _ _ _).keeps (by decide)
        ((State.setLvn_only _ _).keeps (by decide) ((dropOpen_only _).keeps (by decide) h)))

theorem asStandby_keeps (f : State → State) (s : State) (hf : ∀ u, MemWf u → MemWf (f u)) (h : MemWf s) :
    MemWf (asStandby f s) := by
  unfold asStandby
  repeat' first
    | intro _
    | with_reducible assumption
    | decide
    | with_reducible apply hf
    | with_reducible apply MemWf.ite
    | with_reducible apply MemWf.dite
    | split
    | dsimp only

theorem aoTake_keeps (volts : Vector Int 4) (s : State) (h : MemWf s) :
    MemWf (aoTake volts s) := by
  unfold aoTake
  repeat' first
    | intro _
    | with_reducible assumption
    | decide
    | with_reducible apply MemWf.ite
    | with_reducible apply MemWf.dite
    | with_reducible apply MemWf.foldl
    | with_reducible apply MemWf.setAo
    | ((with_reducible show AoWf _); assumption)
    | with_reducible apply aoSelect_wf
    | split
    | dsimp only

theorem takeOver_keeps (cause : Nat) (volts : Vector Int 4) (swap : Bool) (s : State) (h : MemWf s) :
    MemWf (takeOver cause volts swap s) := by
  unfold takeOver
  repeat' first
    | intro _
    | with_reducible assumption
    | decide
    | with_reducible apply MemWf.ite
    | with_reducible apply MemWf.dite
    | with_reducible apply Only.keeps (setRole_only _ _ _)
    | with_reducible apply Only.keeps (dropOpen_only _)
    | with_reducible apply Only.keeps (lvnEvent_only _ _ _ _)
    | with_reducible apply Only.keeps (inhibitAll_only _)
    | with_reducible apply noted_keeps
    | with_reducible apply Only.keeps (uiTakeOver_only _)
    | with_reducible apply aoTake_keeps
    | with_reducible apply Only.keeps (dioTake_only _)
    | with_reducible apply Only.keeps (setOut_only _ _)
    | with_reducible apply clearHand_keeps
    | with_reducible apply swapLost_keeps
    | with_reducible apply Only.keeps (recTake_only _)
    | with_reducible apply Only.keeps (State.setLvn_only _ _)
    | with_reducible apply splitStart_keeps
    | split
    | dsimp only

theorem splitEnter_keeps (s : State) (h : MemWf s) :
    MemWf (splitEnter s) := by
  unfold splitEnter
  repeat' first
    | intro _
    | with_reducible assumption
    | decide
    | with_reducible apply MemWf.ite
    | with_reducible apply MemWf.dite
    | with_reducible apply Only.keeps (State.setLvn_only _ _)
    | with_reducible apply splitStart_keeps
    | with_reducible apply Only.keeps (setPair_only _ _)
    | split
    | dsimp only

theorem beatLoss_keeps (volts : Vector Int 4) (swap : Bool) (s : State) (h : MemWf s) :
    MemWf (beatLoss volts swap s) := by
  unfold beatLoss
  repeat' first
    | intro _
    | with_reducible assumption
    | decide
    | with_reducible apply MemWf.ite
    | with_reducible apply MemWf.dite
    | with_reducible apply Only.keeps (State.setLvn_only _ _)
    | with_reducible apply takeOver_keeps
    | with_reducible apply splitEnter_keeps
    | split
    | dsimp only

theorem aoRecheck_keeps (c : Fin 4) (v : Int) (low : Bool) (s : State) (h : MemWf s) :
    MemWf (aoRecheck c v low s) := by
  unfold aoRecheck
  repeat' first
    | intro _
    | with_reducible assumption
    | decide
    | with_reducible apply MemWf.ite
    | with_reducible apply MemWf.dite
    | with_reducible apply MemWf.setAo
    | with_reducible apply Only.keeps (aoNotify_only _ _ _)
    | ((with_reducible show AoWf _); assumption)
    | with_reducible apply aoSelect_wf
    | split
    | dsimp only

theorem aoUnhold_keeps (s : State) (h : MemWf s) :
    MemWf (aoUnhold s) := by
  unfold aoUnhold
  repeat' first
    | intro _
    | with_reducible assumption
    | decide
    | with_reducible apply MemWf.ite
    | with_reducible apply MemWf.dite
    | with_reducible apply MemWf.foldl
    | with_reducible apply MemWf.setAo
    | with_reducible apply Only.keeps (aoNotify_only _ _ _)
    | ((with_reducible show AoWf _); assumption)
    | with_reducible apply aoSelect_wf
    | split
    | dsimp only

theorem splitKeep_keeps (st : PairState) (s : State) (h : MemWf s) :
    MemWf (splitKeep st s) := by
  unfold splitKeep
  repeat' first
    | intro _
    | with_reducible assumption
    | decide
    | with_reducible apply MemWf.ite
    | with_reducible apply MemWf.dite
    | with_reducible apply Only.keeps (splitEnd_only _)
    | with_reducible apply Only.keeps (splitTake_only _ _)
    | with_reducible apply aoUnhold_keeps
    | with_reducible apply Only.keeps (setPair_only _ _)
    | split
    | dsimp only

theorem splitBeat_keeps (active fault : Bool) (s : State) (h : MemWf s) :
    MemWf (splitBeat active fault s) := by
  unfold splitBeat
  repeat' first
    | intro _
    | with_reducible assumption
    | decide
    | with_reducible apply MemWf.ite
    | with_reducible apply MemWf.dite
    | with_reducible apply Only.keeps (splitEnd_only _)
    | with_reducible apply Only.keeps (setRole_only _ _ _)
    | with_reducible apply releaseControl_keeps
    | with_reducible apply splitKeep_keeps
    | with_reducible apply Only.keeps (splitTake_only _ _)
    | split
    | dsimp only

theorem splitCheckEnd_keeps (s : State) (h : MemWf s) :
    MemWf (splitCheckEnd s) := by
  unfold splitCheckEnd
  repeat' first
    | intro _
    | with_reducible assumption
    | decide
    | with_reducible apply MemWf.ite
    | with_reducible apply MemWf.dite
    | with_reducible apply splitKeep_keeps
    | split
    | dsimp only

theorem execLvHeartbeatReceived_keeps (d : List Byte) (ok : Bool) (age : Nat) (s : State) (h : MemWf s) :
    ∃ t', execLvHeartbeatReceived d ok age s = .next t' ∧ MemWf t' := by
  refine ⟨_, rfl, ?_⟩
  repeat' first
    | intro _
    | with_reducible assumption
    | decide
    | with_reducible apply MemWf.ite
    | with_reducible apply MemWf.dite
    | with_reducible apply lvFrame_keeps
    | with_reducible apply lvBeatRx_keeps
    | with_reducible apply Only.keeps (State.setLvn_only _ _)
    | split
    | dsimp only

theorem execRoleNegotiation_keeps (s : State) (h : MemWf s) :
    ∃ t', execRoleNegotiation s = .next t' ∧ MemWf t' := by
  refine ⟨_, rfl, ?_⟩
  repeat' first
    | intro _
    | with_reducible assumption
    | decide
    | with_reducible apply MemWf.ite
    | with_reducible apply MemWf.dite
    | with_reducible apply negotiate_keeps
    | split
    | dsimp only

theorem execPeerWaitExpiry_keeps (s : State) (h : MemWf s) :
    ∃ t', execPeerWaitExpiry s = .next t' ∧ MemWf t' := by
  refine ⟨_, rfl, ?_⟩
  repeat' first
    | intro _
    | with_reducible assumption
    | decide
    | with_reducible apply MemWf.ite
    | with_reducible apply MemWf.dite
    | with_reducible apply peerWaitEnd_keeps
    | split
    | dsimp only

theorem execEpochBoundary_keeps (bytes frames : Nat) (s : State) (h : MemWf s) :
    ∃ t', execEpochBoundary bytes frames s = .next t' ∧ MemWf t' := by
  refine ⟨_, rfl, ?_⟩
  repeat' first
    | intro _
    | with_reducible assumption
    | decide
    | with_reducible apply MemWf.ite
    | with_reducible apply MemWf.dite
    | with_reducible apply epochSend_keeps
    | split
    | dsimp only

theorem execLvCommitReceived_keeps (n bytes : Word) (frames flags : Half) (crc ok : Bool) (s : State) (h : MemWf s) :
    ∃ t', execLvCommitReceived n bytes frames flags crc ok s = .next t' ∧ MemWf t' := by
  refine ⟨_, rfl, ?_⟩
  repeat' first
    | intro _
    | with_reducible assumption
    | decide
    | with_reducible apply MemWf.ite
    | with_reducible apply MemWf.dite
    | with_reducible apply lvFrame_keeps
    | with_reducible apply asStandby_keeps
    | with_reducible apply epochCommit_keeps
    | split
    | dsimp only

theorem execLvFaultReceived_keeps (volts : Vector Int 4) (swap ok : Bool) (s : State) (h : MemWf s) :
    ∃ t', execLvFaultReceived volts swap ok s = .next t' ∧ MemWf t' := by
  refine ⟨_, rfl, ?_⟩
  repeat' first
    | intro _
    | with_reducible assumption
    | decide
    | with_reducible apply MemWf.ite
    | with_reducible apply MemWf.dite
    | with_reducible apply lvFrame_keeps
    | with_reducible apply takeOver_keeps
    | split
    | dsimp only

theorem execPresCheckExpiry_keeps (volts : Vector Int 4) (swap : Bool) (s : State) (h : MemWf s) :
    ∃ t', execPresCheckExpiry volts swap s = .next t' ∧ MemWf t' := by
  refine ⟨_, rfl, ?_⟩
  repeat' first
    | intro _
    | with_reducible assumption
    | decide
    | with_reducible apply MemWf.ite
    | with_reducible apply MemWf.dite
    | with_reducible apply takeOver_keeps
    | with_reducible apply Only.keeps (State.setLvn_only _ _)
    | split
    | dsimp only

theorem execLvHeartbeatLoss_keeps (volts : Vector Int 4) (swap : Bool) (s : State) (h : MemWf s) :
    ∃ t', execLvHeartbeatLoss volts swap s = .next t' ∧ MemWf t' := by
  refine ⟨_, rfl, ?_⟩
  repeat' first
    | intro _
    | with_reducible assumption
    | decide
    | with_reducible apply MemWf.ite
    | with_reducible apply MemWf.dite
    | with_reducible apply beatLoss_keeps
    | split
    | dsimp only

theorem execAoHeldRecheck_keeps (c : Fin 4) (v : Int) (low : Bool) (s : State) (h : MemWf s) :
    ∃ t', execAoHeldRecheck c v low s = .next t' ∧ MemWf t' := by
  refine ⟨_, rfl, ?_⟩
  repeat' first
    | intro _
    | with_reducible assumption
    | decide
    | with_reducible apply MemWf.ite
    | with_reducible apply MemWf.dite
    | with_reducible apply aoRecheck_keeps
    | split
    | dsimp only

theorem execSplitCheckExpiry_keeps (s : State) (h : MemWf s) :
    ∃ t', execSplitCheckExpiry s = .next t' ∧ MemWf t' := by
  refine ⟨_, rfl, ?_⟩
  repeat' first
    | intro _
    | with_reducible assumption
    | decide
    | with_reducible apply MemWf.ite
    | with_reducible apply MemWf.dite
    | with_reducible apply splitCheckEnd_keeps
    | split
    | dsimp only

theorem execHeartbeatReceived_keeps (f : ImzRx) (unitB : Bool) (s : State) (h : MemWf s) :
    ∃ t', execHeartbeatReceived f unitB s = .next t' ∧ MemWf t' := by
  refine ⟨_, rfl, ?_⟩
  repeat' first
    | intro _
    | with_reducible assumption
    | decide
    | with_reducible apply MemWf.ite
    | with_reducible apply MemWf.dite
    | with_reducible apply mgrSeen_keeps
    | with_reducible apply imzRx_keeps
    | with_reducible apply beatRx_keeps
    | with_reducible apply splitBeat_keeps
    | split
    | dsimp only

end Sys2Proof.Machine
end

