-- ==== Sys2Proof/Laws/KeepRevert.lean ====
section
/-! SUPPORT. Revert: the operations of Machine/Revert keep every memory in canonical form. -/
namespace Sys2Proof.Machine

open Sys2Proof

theorem unfreeze_keeps (s : State) (h : MemWf s) :
    MemWf (unfreeze s) := by
  unfold unfreeze
  repeat' first
    | intro _
    | with_reducible assumption
    | decide
    | with_reducible apply MemWf.ite
    | with_reducible apply MemWf.dite
    | with_reducible apply noted_keeps
    | with_reducible apply Only.keeps (dioDriveAll_only _)
    | with_reducible apply clearHand_keeps
    | split
    | dsimp only

theorem planTake_keeps (t : Ts) (s : State) (h : MemWf s) :
    MemWf (planTake t s) := by
  unfold planTake
  repeat' first
    | intro _
    | with_reducible assumption
    | decide
    | with_reducible apply MemWf.ite
    | with_reducible apply MemWf.dite
    | with_reducible apply unfreeze_keeps
    | with_reducible apply Only.keeps (State.setLvn_only _ _)
    | split
    | dsimp only

theorem revertFreeze_keeps (s : State) (h : MemWf s) :
    MemWf (revertFreeze s) := by
  unfold revertFreeze
  repeat' first
    | intro _
    | with_reducible assumption
    | decide
    | with_reducible apply MemWf.ite
    | with_reducible apply MemWf.dite
    | with_reducible apply Only.keeps (State.setLvn_only _ _)
    | with_reducible apply Only.keeps (dioDriveAll_only _)
    | with_reducible apply MemWf.with_ao
    | with_reducible apply MemWf.set_ao_dio
    | ((with_reducible show AoWf _); assumption)
    | ((with_reducible show AoWf _); with_reducible assumption)
    | with_reducible apply AoWf.all_map
    | with_reducible apply AoWf.all_mapFinIdx
    | with_reducible apply AoWf.all_set
    | with_reducible apply MemWf.ao
    | split
    | dsimp only

theorem ackDeadline_keeps (s : State) (h : MemWf s) :
    MemWf (ackDeadline s) := by
  unfold ackDeadline
  repeat' first
    | intro _
    | with_reducible assumption
    | decide
    | with_reducible apply MemWf.ite
    | with_reducible apply MemWf.dite
    | with_reducible apply Only.keeps (lvSend_only _ _)
    | with_reducible apply unfreeze_keeps
    | with_reducible apply Only.keeps (State.setLvn_only _ _)
    | split
    | dsimp only

theorem aoHandOff_keeps (s : State) (h : MemWf s) :
    MemWf (aoHandOff s) := by
  unfold aoHandOff
  repeat' first
    | intro _
    | with_reducible assumption
    | decide
    | with_reducible apply MemWf.ite
    | with_reducible apply MemWf.dite
    | with_reducible apply noted_keeps
    | with_reducible apply aoEndSpell_keeps
    | with_reducible apply MemWf.with_ao
    | ((with_reducible show AoWf _); assumption)
    | with_reducible apply Ao.openNow_wf
    | ((with_reducible show AoWf _); with_reducible assumption)
    | with_reducible apply AoWf.all_map
    | with_reducible apply AoWf.all_mapFinIdx
    | with_reducible apply AoWf.all_set
    | with_reducible apply MemWf.ao
    | split
    | dsimp only

theorem handDrive_keeps (s : State) (h : MemWf s) :
    MemWf (handDrive s) := by
  unfold handDrive
  repeat' first
    | intro _
    | with_reducible assumption
    | decide
    | with_reducible apply MemWf.ite
    | with_reducible apply MemWf.dite
    | with_reducible apply MemWf.foldl
    | with_reducible apply noted_keeps
    | with_reducible apply Only.keeps (dioDriveAll_only _)
    | with_reducible apply Only.keeps (setOut_only _ _)
    | with_reducible apply MemWf.setAo
    | with_reducible apply MemWf.set_dio
    | ((with_reducible show AoWf _); assumption)
    | with_reducible apply aoSelect_wf
    | split
    | dsimp only

theorem aoThaw_keeps (s : State) (h : MemWf s) :
    MemWf (aoThaw s) := by
  unfold aoThaw
  repeat' first
    | intro _
    | with_reducible assumption
    | decide
    | with_reducible apply MemWf.ite
    | with_reducible apply MemWf.dite
    | with_reducible apply MemWf.with_ao
    | ((with_reducible show AoWf _); assumption)
    | ((with_reducible show AoWf _); with_reducible assumption)
    | with_reducible apply AoWf.all_map
    | with_reducible apply AoWf.all_mapFinIdx
    | with_reducible apply AoWf.all_set
    | with_reducible apply MemWf.ao
    | split
    | dsimp only

theorem handFail_keeps (dio : BitVec 2) (ao : BitVec 4) (s : State) (h : MemWf s) :
    MemWf (handFail dio ao s) := by
  unfold handFail
  repeat' first
    | intro _
    | with_reducible assumption
    | decide
    | with_reducible apply MemWf.ite
    | with_reducible apply MemWf.dite
    | with_reducible apply MemWf.foldl
    | with_reducible apply Only.keeps (aoNotify_only _ _ _)
    | with_reducible apply MemWf.setAo
    | with_reducible apply noted_keeps
    | with_reducible apply Only.keeps (dioReleaseAll_only _)
    | with_reducible apply Only.keeps (setOut_only _ _)
    | with_reducible apply clearHand_keeps
    | with_reducible apply aoLetGo_keeps
    | with_reducible apply Only.keeps (lvSend_only _ _)
    | with_reducible apply Only.keeps (revertFailed_only _)
    | with_reducible apply Only.keeps (State.setLvn_only _ _)
    | ((with_reducible show AoWf _); assumption)
    | with_reducible apply Ao.setConds_wf
    | split
    | dsimp only

theorem revertSwitch_keeps (dio : BitVec 2) (ao : BitVec 4) (s : State) (h : MemWf s) :
    MemWf (revertSwitch dio ao s) := by
  unfold revertSwitch
  repeat' first
    | intro _
    | with_reducible assumption
    | decide
    | with_reducible apply MemWf.ite
    | with_reducible apply MemWf.dite
    | with_reducible apply aoHandOff_keeps
    | with_reducible apply Only.keeps (lvSend_only _ _)
    | with_reducible apply Only.keeps (revertFailed_only _)
    | with_reducible apply handDrive_keeps
    | with_reducible apply aoThaw_keeps
    | with_reducible apply handFail_keeps
    | split
    | dsimp only

theorem aoHandBack_keeps (s : State) (h : MemWf s) :
    MemWf (aoHandBack s) := by
  unfold aoHandBack
  repeat' first
    | intro _
    | with_reducible assumption
    | decide
    | with_reducible apply MemWf.ite
    | with_reducible apply MemWf.dite
    | with_reducible apply MemWf.foldl
    | with_reducible apply noted_keeps
    | with_reducible apply MemWf.setAo
    | ((with_reducible show AoWf _); assumption)
    | with_reducible apply aoSelect_wf
    | split
    | dsimp only

theorem revertKeep_keeps (s : State) (h : MemWf s) :
    MemWf (revertKeep s) := by
  unfold revertKeep
  repeat' first
    | intro _
    | with_reducible assumption
    | decide
    | with_reducible apply MemWf.ite
    | with_reducible apply MemWf.dite
    | with_reducible apply Only.keeps (revertFailed_only _)
    | with_reducible apply aoHandBack_keeps
    | split
    | dsimp only

theorem revertRelease_keeps (s : State) (h : MemWf s) :
    MemWf (revertRelease s) := by
  unfold revertRelease
  repeat' first
    | intro _
    | with_reducible assumption
    | decide
    | with_reducible apply MemWf.ite
    | with_reducible apply MemWf.dite
    | with_reducible apply noted_keeps
    | with_reducible apply Only.keeps (uiListenEntry_only _)
    | with_reducible apply Only.keeps (dioDriveAll_only _)
    | with_reducible apply revertKeep_keeps
    | with_reducible apply MemWf.set_dioBlk
    | split
    | dsimp only

theorem revertEnd_keeps (s : State) (h : MemWf s) :
    MemWf (revertEnd s) := by
  unfold revertEnd
  repeat' first
    | intro _
    | with_reducible assumption
    | decide
    | with_reducible apply MemWf.ite
    | with_reducible apply MemWf.dite
    | with_reducible apply Only.keeps (State.setLvn_only _ _)
    | with_reducible apply unfreeze_keeps
    | with_reducible apply Only.keeps (setRole_only _ _ _)
    | with_reducible apply Only.keeps (recTake_only _)
    | with_reducible apply Only.keeps (uiTakeControl_only _)
    | with_reducible apply Only.keeps (dropCommands_only _)
    | with_reducible apply releaseControl_keeps
    | split
    | dsimp only

theorem imageTake_keeps (d : List Byte) (s : State) (h : MemWf s) :
    MemWf (imageTake d s) := by
  unfold imageTake
  repeat' first
    | intro _
    | with_reducible assumption
    | decide
    | with_reducible apply MemWf.ite
    | with_reducible apply MemWf.dite
    | with_reducible apply Only.keeps (State.setLvn_only _ _)
    | with_reducible apply MemWf.with_rcp
    | ((with_reducible show RcpWf _); exact (‹MemWf _› : MemWf _).rcp)
    | ((with_reducible show RcpWf _); with_reducible assumption)
    | with_reducible apply RcpWf.setRecipe
    | ((with_reducible show RecipeWf _); refine ⟨?_, ?_⟩)
    | ((with_reducible show RcpWf _); refine ⟨?_, ?_, ?_⟩)
    | ((with_reducible show Memory.wf _ = true); dsimp only)
    | with_reducible apply Memory.wf_memFill
    | with_reducible apply Memory.wf_memPut
    | with_reducible apply Memory.wf_memZero
    | with_reducible apply Memory.wf_memWindow
    | with_reducible apply Memory.wf_memCopyIn
    | with_reducible apply Memory.wf_foldl_memPut
    | with_reducible apply Memory.wf_filter
    | ((with_reducible show Memory.wf _ = true); first | exact rfl | exact (‹RecipeWf _› : RecipeWf _).1 | exact (‹RecipeWf _› : RecipeWf _).2 | exact ((‹RcpWf _› : RcpWf _).1 _).1 | exact ((‹RcpWf _› : RcpWf _).1 _).2 | exact (‹RcpWf _› : RcpWf _).2.1 | exact (‹RcpWf _› : RcpWf _).2.2)
    | exact (‹RcpWf _› : RcpWf _).1
    | split
    | dsimp only

theorem execLvRevertPlanReceived_keeps (t : Ts) (ok : Bool) (s : State) (h : MemWf s) :
    ∃ t', execLvRevertPlanReceived t ok s = .next t' ∧ MemWf t' := by
  refine ⟨_, rfl, ?_⟩
  repeat' first
    | intro _
    | with_reducible assumption
    | decide
    | with_reducible apply MemWf.ite
    | with_reducible apply MemWf.dite
    | with_reducible apply lvFrame_keeps
    | with_reducible apply asStandby_keeps
    | with_reducible apply planTake_keeps
    | split
    | dsimp only

theorem execRevertFreeze_keeps (s : State) (h : MemWf s) :
    ∃ t', execRevertFreeze s = .next t' ∧ MemWf t' := by
  refine ⟨_, rfl, ?_⟩
  repeat' first
    | intro _
    | with_reducible assumption
    | decide
    | with_reducible apply MemWf.ite
    | with_reducible apply MemWf.dite
    | with_reducible apply revertFreeze_keeps
    | split
    | dsimp only

theorem execRevertAckDeadline_keeps (s : State) (h : MemWf s) :
    ∃ t', execRevertAckDeadline s = .next t' ∧ MemWf t' := by
  refine ⟨_, rfl, ?_⟩
  repeat' first
    | intro _
    | with_reducible assumption
    | decide
    | with_reducible apply MemWf.ite
    | with_reducible apply MemWf.dite
    | with_reducible apply ackDeadline_keeps
    | split
    | dsimp only

theorem execRevertSwitch_keeps (dio : BitVec 2) (ao : BitVec 4) (s : State) (h : MemWf s) :
    ∃ t', execRevertSwitch dio ao s = .next t' ∧ MemWf t' := by
  refine ⟨_, rfl, ?_⟩
  repeat' first
    | intro _
    | with_reducible assumption
    | decide
    | with_reducible apply MemWf.ite
    | with_reducible apply MemWf.dite
    | with_reducible apply revertSwitch_keeps
    | split
    | dsimp only

theorem execLvRevertFailReceived_keeps (ok : Bool) (s : State) (h : MemWf s) :
    ∃ t', execLvRevertFailReceived ok s = .next t' ∧ MemWf t' := by
  refine ⟨_, rfl, ?_⟩
  repeat' first
    | intro _
    | with_reducible assumption
    | decide
    | with_reducible apply MemWf.ite
    | with_reducible apply MemWf.dite
    | with_reducible apply lvFrame_keeps
    | with_reducible apply revertKeep_keeps
    | split
    | dsimp only

theorem execRevertRelease_keeps (s : State) (h : MemWf s) :
    ∃ t', execRevertRelease s = .next t' ∧ MemWf t' := by
  refine ⟨_, rfl, ?_⟩
  repeat' first
    | intro _
    | with_reducible assumption
    | decide
    | with_reducible apply MemWf.ite
    | with_reducible apply MemWf.dite
    | with_reducible apply revertRelease_keeps
    | split
    | dsimp only

theorem execRevertEnd_keeps (s : State) (h : MemWf s) :
    ∃ t', execRevertEnd s = .next t' ∧ MemWf t' := by
  refine ⟨_, rfl, ?_⟩
  repeat' first
    | intro _
    | with_reducible assumption
    | decide
    | with_reducible apply MemWf.ite
    | with_reducible apply MemWf.dite
    | with_reducible apply revertEnd_keeps
    | split
    | dsimp only

theorem execLvImageReceived_keeps (d : List Byte) (ok : Bool) (s : State) (h : MemWf s) :
    ∃ t', execLvImageReceived d ok s = .next t' ∧ MemWf t' := by
  refine ⟨_, rfl, ?_⟩
  repeat' first
    | intro _
    | with_reducible assumption
    | decide
    | with_reducible apply MemWf.ite
    | with_reducible apply MemWf.dite
    | with_reducible apply lvFrame_keeps
    | with_reducible apply imageTake_keeps
    | split
    | dsimp only

end Sys2Proof.Machine
end

