-- ==== Sys2Proof/Laws/KeepFault.lean ====
section
/-! SUPPORT. Fault: the operations of Machine/Fault keep every memory in canonical form. -/
namespace Sys2Proof.Machine

open Sys2Proof

theorem bareSend_keeps (f : OutFrame) (s : State) (h : MemWf s) :
    MemWf (bareSend f s) := by
  unfold bareSend
  repeat' first
    | intro _
    | with_reducible assumption
    | decide
    | with_reducible apply MemWf.ite
    | with_reducible apply MemWf.dite
    | with_reducible apply canSubmit_keeps
    | split
    | dsimp only

theorem rcpRsp_keeps (node : Half) (s : State) (h : MemWf s) :
    MemWf (rcpRsp node s) := by
  unfold rcpRsp
  repeat' first
    | intro _
    | with_reducible assumption
    | decide
    | with_reducible apply MemWf.ite
    | with_reducible apply MemWf.dite
    | with_reducible apply bareSend_keeps
    | with_reducible apply Only.keeps (State.drew_only _)
    | with_reducible apply imzToward_keeps
    | split
    | dsimp only

theorem rcpEnd_keeps (op code detail : Nat) (s : State) (h : MemWf s) :
    MemWf (rcpEnd op code detail s) := by
  unfold rcpEnd
  repeat' first
    | intro _
    | with_reducible assumption
    | decide
    | with_reducible apply MemWf.ite
    | with_reducible apply MemWf.dite
    | with_reducible apply Only.keeps (raise_only _ _ _)
    | with_reducible apply MemWf.with_rcp
    | ((with_reducible show RcpWf _); assumption)
    | ((with_reducible show RecipeWf _); assumption)
    | ((with_reducible show RcpWf _); exact (‹MemWf _› : MemWf _).rcp)
    | ((with_reducible show RcpWf _); with_reducible assumption)
    | with_reducible apply RcpWf.setRecipe
    | split
    | dsimp only

theorem verifyEnd_keeps (code detail : Nat) (s : State) (h : MemWf s) :
    MemWf (verifyEnd code detail s) := by
  unfold verifyEnd
  repeat' first
    | intro _
    | with_reducible assumption
    | decide
    | with_reducible apply MemWf.ite
    | with_reducible apply MemWf.dite
    | with_reducible apply rcpEnd_keeps
    | with_reducible apply MemWf.setRcp
    | with_reducible apply rcpRsp_keeps
    | ((with_reducible show RcpWf _); assumption)
    | ((with_reducible show RecipeWf _); assumption)
    | ((with_reducible show RcpWf _); exact (‹MemWf _› : MemWf _).rcp)
    | ((with_reducible show RcpWf _); with_reducible assumption)
    | with_reducible apply RcpWf.setRecipe
    | split
    | dsimp only

theorem swapFinish_keeps (code : Nat) (s : State) (h : MemWf s) :
    MemWf (swapFinish code s) := by
  unfold swapFinish
  repeat' first
    | intro _
    | with_reducible assumption
    | decide
    | with_reducible apply MemWf.ite
    | with_reducible apply MemWf.dite
    | with_reducible apply rcpEnd_keeps
    | with_reducible apply MemWf.setRcp
    | with_reducible apply rcpRsp_keeps
    | ((with_reducible show RcpWf _); assumption)
    | ((with_reducible show RecipeWf _); assumption)
    | ((with_reducible show RcpWf _); exact (‹MemWf _› : MemWf _).rcp)
    | ((with_reducible show RcpWf _); with_reducible assumption)
    | with_reducible apply RcpWf.setRecipe
    | split
    | dsimp only

theorem swapAbort_keeps (s : State) (h : MemWf s) :
    MemWf (swapAbort s) := by
  unfold swapAbort
  repeat' first
    | intro _
    | with_reducible assumption
    | decide
    | with_reducible apply MemWf.ite
    | with_reducible apply MemWf.dite
    | with_reducible apply swapFinish_keeps
    | split
    | dsimp only

theorem rcpDropWrite_keeps (s : State) (h : MemWf s) :
    MemWf (rcpDropWrite s) := by
  unfold rcpDropWrite
  repeat' first
    | intro _
    | with_reducible assumption
    | decide
    | with_reducible apply MemWf.ite
    | with_reducible apply MemWf.dite
    | with_reducible apply MemWf.with_rcp
    | ((with_reducible show RcpWf _); exact (‹MemWf _› : MemWf _).rcp)
    | ((with_reducible show RcpWf _); with_reducible assumption)
    | with_reducible apply RcpWf.setRecipe
    | ((with_reducible show RecipeWf _); refine ⟨?_, ?_⟩)
    | ((with_reducible show RcpWf _); refine ⟨?_, ?_, ?_⟩)
    | ((with_reducible show Memory.wf _ = true); dsimp only)
    | with_reducible apply Memory.wf_memFill
    | with_reducible apply Memory.wf_memPut
    | with_reducible apply Memory.wf_memZero
    | with_reducible apply Memory.wf_memWindow
    | with_reducible apply Memory.wf_memCopyIn
    | with_reducible apply Memory.wf_foldl_memPut
    | with_reducible apply Memory.wf_filter
    | ((with_reducible show Memory.wf _ = true); first | exact rfl | exact (‹RecipeWf _› : RecipeWf _).1 | exact (‹RecipeWf _› : RecipeWf _).2 | exact ((‹RcpWf _› : RcpWf _).1 _).1 | exact ((‹RcpWf _› : RcpWf _).1 _).2 | exact (‹RcpWf _› : RcpWf _).2.1 | exact (‹RcpWf _› : RcpWf _).2.2)
    | exact (‹RcpWf _› : RcpWf _).1
    | split
    | dsimp only

theorem driveSafe_keeps (s : State) (h : MemWf s) :
    MemWf (driveSafe s) := by
  unfold driveSafe
  repeat' first
    | intro _
    | with_reducible assumption
    | decide
    | with_reducible apply MemWf.ite
    | with_reducible apply MemWf.dite
    | with_reducible apply MemWf.foldl
    | with_reducible apply Only.keeps (dioDriveAll_only _)
    | with_reducible apply MemWf.setAo
    | ((with_reducible show AoWf _); assumption)
    | with_reducible apply aoSelect_wf
    | split
    | dsimp only

theorem lastBeat_keeps (s : State) (h : MemWf s) :
    MemWf (lastBeat s) := by
  unfold lastBeat
  repeat' first
    | intro _
    | with_reducible assumption
    | decide
    | with_reducible apply MemWf.ite
    | with_reducible apply MemWf.dite
    | with_reducible apply MemWf.foldl
    | with_reducible apply imzBeat_keeps
    | with_reducible apply canAbortAll_keeps
    | with_reducible apply Only.keeps (State.drew_only _)
    | split
    | dsimp only

theorem safeEntry_keeps (cause : Nat) (s : State) (h : MemWf s) :
    MemWf (safeEntry cause s) := by
  unfold safeEntry
  repeat' first
    | intro _
    | with_reducible assumption
    | decide
    | with_reducible apply MemWf.ite
    | with_reducible apply MemWf.dite
    | with_reducible apply Only.keeps (faultFrame_only _ _)
    | with_reducible apply swapAbort_keeps
    | with_reducible apply Only.keeps (dioMark_only _)
    | with_reducible apply lastBeat_keeps
    | with_reducible apply aoEndSpell_keeps
    | with_reducible apply Only.keeps (safeMode_only _)
    | with_reducible apply Only.keeps (restat_only _)
    | with_reducible apply pnlCut_keeps
    | with_reducible apply Only.keeps (cellNotify_only _ _)
    | with_reducible apply Only.keeps (uiQuiet_only _)
    | with_reducible apply letGo_keeps
    | with_reducible apply driveSafe_keeps
    | split
    | dsimp only

theorem moduleFault_keeps (block cell cause : Nat) (s : State) (h : MemWf s) :
    MemWf (moduleFault block cell cause s) := by
  unfold moduleFault
  repeat' first
    | intro _
    | with_reducible assumption
    | decide
    | with_reducible apply MemWf.ite
    | with_reducible apply MemWf.dite
    | with_reducible apply Only.keeps (recordFault_only _ _ _ _ _)
    | with_reducible apply safeEntry_keeps
    | with_reducible apply MemWf.set_sys
    | split
    | dsimp only

theorem supervisorFault_keeps (cell cause : Nat) (s : State) (h : MemWf s) :
    MemWf (supervisorFault cell cause s) := by
  unfold supervisorFault
  repeat' first
    | intro _
    | with_reducible assumption
    | decide
    | with_reducible apply MemWf.ite
    | with_reducible apply MemWf.dite
    | with_reducible apply moduleFault_keeps
    | split
    | dsimp only

theorem acqReset_keeps (s : State) (h : MemWf s) :
    MemWf (acqReset s) := by
  unfold acqReset
  repeat' first
    | intro _
    | with_reducible assumption
    | decide
    | with_reducible apply MemWf.ite
    | with_reducible apply MemWf.dite
    | with_reducible apply MemWf.foldl
    | with_reducible apply aoHartAbort_keeps
    | with_reducible apply Only.keeps (psAcqReset_only _)
    | with_reducible apply MemWf.set_dio_uiBlk_aoBlk_psBlk_dioBlk
    | split
    | dsimp only

theorem fceReset_keeps (s : State) (h : MemWf s) :
    MemWf (fceReset s) := by
  unfold fceReset
  repeat' first
    | intro _
    | with_reducible assumption
    | decide
    | with_reducible apply MemWf.ite
    | with_reducible apply MemWf.dite
    | with_reducible apply pnlFceReset_keeps
    | with_reducible apply MemWf.set_rnd
    | split
    | dsimp only

theorem lnkReset_keeps (s : State) (h : MemWf s) :
    MemWf (lnkReset s) := by
  unfold lnkReset
  repeat' first
    | intro _
    | with_reducible assumption
    | decide
    | with_reducible apply MemWf.ite
    | with_reducible apply MemWf.dite
    | with_reducible apply MemWf.foldl
    | with_reducible apply Only.keeps (laneDown_only _ _)
    | with_reducible apply canReset_keeps
    | with_reducible apply MemWf.setCan
    | with_reducible apply Only.keeps (timEnter_only _ _)
    | with_reducible apply Only.keeps (State.setLvn_only _ _)
    | with_reducible apply MemWf.set_tim
    | ((with_reducible show CanWf _); assumption)
    | split
    | dsimp only

theorem kepReset_keeps (s : State) (h : MemWf s) :
    MemWf (kepReset s) := by
  unfold kepReset
  repeat' first
    | intro _
    | with_reducible assumption
    | decide
    | with_reducible apply MemWf.ite
    | with_reducible apply MemWf.dite
    | with_reducible apply verifyEnd_keeps
    | with_reducible apply rcpDropWrite_keeps
    | with_reducible apply MemWf.with_mmc
    | ((with_reducible show MmcWf _); assumption)
    | ((with_reducible show MmcWf _); exact (‹MemWf _› : MemWf _).mmc)
    | split
    | dsimp only

theorem regionClear_keeps (r : Fin 5) (s : State) (h : MemWf s) :
    MemWf (regionClear r s) := by
  unfold regionClear
  repeat' first
    | intro _
    | with_reducible assumption
    | decide
    | with_reducible apply MemWf.ite
    | with_reducible apply MemWf.dite
    | with_reducible apply acqReset_keeps
    | with_reducible apply Only.keeps (almReset_only _)
    | with_reducible apply lnkReset_keeps
    | with_reducible apply kepReset_keeps
    | with_reducible apply fceReset_keeps
    | split
    | dsimp only

theorem lnkHandover_keeps (cause : Nat) (s : State) (h : MemWf s) :
    MemWf (lnkHandover cause s) := by
  unfold lnkHandover
  repeat' first
    | intro _
    | with_reducible assumption
    | decide
    | with_reducible apply MemWf.ite
    | with_reducible apply MemWf.dite
    | with_reducible apply Only.keeps (setRole_only _ _ _)
    | with_reducible apply releaseControl_keeps
    | with_reducible apply Only.keeps (faultFrame_only _ _)
    | split
    | dsimp only

theorem regionReset_keeps (r : Fin 5) (block cell cause : Nat) (s : State) (h : MemWf s) :
    MemWf (regionReset r block cell cause s) := by
  unfold regionReset
  repeat' first
    | intro _
    | with_reducible assumption
    | decide
    | with_reducible apply MemWf.ite
    | with_reducible apply MemWf.dite
    | with_reducible apply Only.keeps (recordFault_only _ _ _ _ _)
    | with_reducible apply lnkHandover_keeps
    | with_reducible apply regionClear_keeps
    | with_reducible apply MemWf.set_sys_fab
    | split
    | dsimp only

theorem regionFault_keeps (r : Fin 5) (block cell cause : Nat) (s : State) (h : MemWf s) :
    MemWf (regionFault r block cell cause s) := by
  unfold regionFault
  repeat' first
    | intro _
    | with_reducible assumption
    | decide
    | with_reducible apply MemWf.ite
    | with_reducible apply MemWf.dite
    | with_reducible apply regionReset_keeps
    | with_reducible apply moduleFault_keeps
    | with_reducible apply MemWf.set_sys
    | split
    | dsimp only

theorem blockFault_keeps (block cell cause : Nat) (s : State) (h : MemWf s) :
    MemWf (blockFault block cell cause s) := by
  unfold blockFault
  extract_lets s1 _ s2
  have h1 : MemWf s1 := (recordFault_only _ _ _ _ _).keeps (by decide) h
  clear_value s1
  have h2 : MemWf s2 := h1.set_sys
  clear_value s2
  split
  · exact h2
  · extract_lets l
    exact MemWf.ite h2.set_sys (regionFault_keeps _ _ _ _ _ h2.set_sys)

theorem segmentError_keeps (r : Fin 5) (timeout : Bool) (s : State) (h : MemWf s) :
    MemWf (segmentError r timeout s) := by
  unfold segmentError
  repeat' first
    | intro _
    | with_reducible assumption
    | decide
    | with_reducible apply MemWf.ite
    | with_reducible apply MemWf.dite
    | with_reducible apply regionFault_keeps
    | with_reducible apply MemWf.set_sys
    | split
    | dsimp only

theorem cellFault_keeps (block cell cause : Nat) (s : State) (h : MemWf s) :
    MemWf (cellFault block cell cause s) := by
  unfold cellFault
  repeat' first
    | intro _
    | with_reducible assumption
    | decide
    | with_reducible apply MemWf.ite
    | with_reducible apply MemWf.dite
    | with_reducible apply blockFault_keeps
    | with_reducible apply Only.keeps (cellNotify_only _ _)
    | with_reducible apply Only.keeps (cellIsolate_only _ _ _)
    | split
    | dsimp only

end Sys2Proof.Machine
end

