-- ==== Sys2Proof/Laws/KeepAge.lean ====
section
/-! SUPPORT. Age: the operations of Machine/Age keep every memory in canonical form. -/
namespace Sys2Proof.Machine

open Sys2Proof

theorem ageWear_keeps (lifeA lifeB eol : Byte) (s : State) (h : MemWf s) :
    MemWf (ageWear lifeA lifeB eol s) := by
  unfold ageWear
  repeat' first
    | intro _
    | with_reducible assumption
    | decide
    | with_reducible apply MemWf.ite
    | with_reducible apply MemWf.dite
    | with_reducible apply Only.keeps (itemMeasure_only _ _ _ _)
    | with_reducible apply Only.keeps (mmcEvent_only _ _ _)
    | with_reducible apply MemWf.with_mmc
    | ((with_reducible show MmcWf _); assumption)
    | ((with_reducible show MmcWf _); exact (‹MemWf _› : MemWf _).mmc)
    | split
    | dsimp only

theorem ageTake_keeps (m : AgeMeas) (s : State) (h : MemWf s) :
    MemWf (ageTake m s) := by
  unfold ageTake
  repeat' first
    | intro _
    | with_reducible assumption
    | decide
    | with_reducible apply MemWf.ite
    | with_reducible apply MemWf.dite
    | with_reducible apply Only.keeps (ageRef_only _ _ _ _)
    | with_reducible apply Only.keeps (ageGain_only _ _ _ _)
    | with_reducible apply Only.keeps (ageSwitch_only _ _ _)
    | with_reducible apply Only.keeps (ageTcxo_only _)
    | with_reducible apply Only.keeps (ageHold_only _ _ _ _ _)
    | with_reducible apply ageWear_keeps
    | with_reducible apply Only.keeps (ageBarrier_only _ _ _)
    | split
    | dsimp only

theorem ledgerPage_keeps (ok : Bool) (s : State) (h : MemWf s) :
    MemWf (ledgerPage ok s) := by
  unfold ledgerPage
  repeat' first
    | intro _
    | with_reducible assumption
    | decide
    | with_reducible apply MemWf.ite
    | with_reducible apply MemWf.dite
    | with_reducible apply MemWf.foldl
    | with_reducible apply sectorPut_keeps
    | with_reducible apply Only.keeps (State.setAge_only _ _)
    | with_reducible apply Only.keeps (ledgerFail_only _)
    | split
    | dsimp only

theorem ageCmd_keeps (src : Source) (item : Byte) (f : Fin 64 → State → State) (s : State) (hf : ∀ i u, MemWf u → MemWf (f i u)) (h : MemWf s) :
    MemWf (ageCmd src item f s) := by
  unfold ageCmd
  repeat' first
    | intro _
    | with_reducible assumption
    | decide
    | with_reducible apply hf
    | with_reducible apply MemWf.ite
    | with_reducible apply MemWf.dite
    | with_reducible apply Only.keeps (logWerr_only _ _ _ _)
    | split
    | dsimp only

theorem execAgeRefCheck_keeps (c : Fin 16) (a b : Int) (s : State) (h : MemWf s) :
    ∃ t', execAgeRefCheck c a b s = .next t' ∧ MemWf t' := by
  refine ⟨_, rfl, ?_⟩
  repeat' first
    | intro _
    | with_reducible assumption
    | decide
    | with_reducible apply MemWf.ite
    | with_reducible apply MemWf.dite
    | with_reducible apply ageTake_keeps
    | split
    | dsimp only

theorem execAgeAoGain_keeps (c : Fin 4) (err : Int) (secs : Nat) (s : State) (h : MemWf s) :
    ∃ t', execAgeAoGain c err secs s = .next t' ∧ MemWf t' := by
  refine ⟨_, rfl, ?_⟩
  repeat' first
    | intro _
    | with_reducible assumption
    | decide
    | with_reducible apply MemWf.ite
    | with_reducible apply MemWf.dite
    | with_reducible apply ageTake_keeps
    | split
    | dsimp only

theorem execAgeDioSwitch_keeps (c : Fin 16) (r25 : Nat) (s : State) (h : MemWf s) :
    ∃ t', execAgeDioSwitch c r25 s = .next t' ∧ MemWf t' := by
  refine ⟨_, rfl, ?_⟩
  repeat' first
    | intro _
    | with_reducible assumption
    | decide
    | with_reducible apply MemWf.ite
    | with_reducible apply MemWf.dite
    | with_reducible apply ageTake_keeps
    | split
    | dsimp only

theorem execAgeTcxoSample_keeps (s : State) (h : MemWf s) :
    ∃ t', execAgeTcxoSample s = .next t' ∧ MemWf t' := by
  refine ⟨_, rfl, ?_⟩
  repeat' first
    | intro _
    | with_reducible assumption
    | decide
    | with_reducible apply MemWf.ite
    | with_reducible apply MemWf.dite
    | with_reducible apply ageTake_keeps
    | split
    | dsimp only

theorem execAgeHoldTest_keeps (cap esr : Nat) (partner abandoned : Bool) (s : State) (h : MemWf s) :
    ∃ t', execAgeHoldTest cap esr partner abandoned s = .next t' ∧ MemWf t' := by
  refine ⟨_, rfl, ?_⟩
  repeat' first
    | intro _
    | with_reducible assumption
    | decide
    | with_reducible apply MemWf.ite
    | with_reducible apply MemWf.dite
    | with_reducible apply ageTake_keeps
    | split
    | dsimp only

theorem execAgeEmmcWear_keeps (lifeA lifeB eol : Byte) (s : State) (h : MemWf s) :
    ∃ t', execAgeEmmcWear lifeA lifeB eol s = .next t' ∧ MemWf t' := by
  refine ⟨_, rfl, ?_⟩
  repeat' first
    | intro _
    | with_reducible assumption
    | decide
    | with_reducible apply MemWf.ite
    | with_reducible apply MemWf.dite
    | with_reducible apply ageTake_keeps
    | split
    | dsimp only

theorem execAgeBarrierTest_keeps (d : Fin 24) (r : Nat) (s : State) (h : MemWf s) :
    ∃ t', execAgeBarrierTest d r s = .next t' ∧ MemWf t' := by
  refine ⟨_, rfl, ?_⟩
  repeat' first
    | intro _
    | with_reducible assumption
    | decide
    | with_reducible apply MemWf.ite
    | with_reducible apply MemWf.dite
    | with_reducible apply ageTake_keeps
    | split
    | dsimp only

theorem execAgeLedgerPage_keeps (ok : Bool) (s : State) (h : MemWf s) :
    ∃ t', execAgeLedgerPage ok s = .next t' ∧ MemWf t' := by
  refine ⟨_, rfl, ?_⟩
  repeat' first
    | intro _
    | with_reducible assumption
    | decide
    | with_reducible apply MemWf.ite
    | with_reducible apply MemWf.dite
    | with_reducible apply ledgerPage_keeps
    | split
    | dsimp only

theorem execAgeTestHold_keeps (cap esr : Nat) (partner abandoned : Bool) (s : State) (h : MemWf s) :
    ∃ t', execAgeTestHold cap esr partner abandoned s = .next t' ∧ MemWf t' := by
  refine ⟨_, rfl, ?_⟩
  repeat' first
    | intro _
    | with_reducible assumption
    | decide
    | with_reducible apply MemWf.ite
    | with_reducible apply MemWf.dite
    | with_reducible apply ageTake_keeps
    | split
    | dsimp only

theorem execAgeMeasure_keeps (m : AgeMeas) (s : State) (h : MemWf s) :
    ∃ t', execAgeMeasure m s = .next t' ∧ MemWf t' := by
  refine ⟨_, rfl, ?_⟩
  repeat' first
    | intro _
    | with_reducible assumption
    | decide
    | with_reducible apply MemWf.ite
    | with_reducible apply MemWf.dite
    | with_reducible apply ageTake_keeps
    | split
    | dsimp only

end Sys2Proof.Machine
end

