-- ==== Sys2Proof/Laws/KeepSupply.lean ====
section
/-! SUPPORT. Supply: the operations of Machine/Supply keep every memory in canonical form. -/
namespace Sys2Proof.Machine

open Sys2Proof

theorem powerFail_keeps (volts : Vector Half 2) (hold : Half) (s : State) (h : MemWf s) :
    MemWf (powerFail volts hold s) := by
  unfold powerFail
  repeat' first
    | intro _
    | with_reducible assumption
    | decide
    | with_reducible apply MemWf.ite
    | with_reducible apply MemWf.dite
    | with_reducible apply Only.keeps (State.setSup_only _ _)
    | with_reducible apply Only.keeps (supplyRaise_only _ _ _)
    | with_reducible apply MemWf.with_imz
    | ((with_reducible show ImzWf _); assumption)
    | ((with_reducible show ImzWf _); exact (‹MemWf _› : MemWf _).imz)
    | split
    | dsimp only

theorem powerRestore_keeps (hold : Half) (s : State) (h : MemWf s) :
    MemWf (powerRestore hold s) := by
  unfold powerRestore
  repeat' first
    | intro _
    | with_reducible assumption
    | decide
    | with_reducible apply MemWf.ite
    | with_reducible apply MemWf.dite
    | with_reducible apply Only.keeps (State.setSup_only _ _)
    | with_reducible apply Only.keeps (supplyRaise_only _ _ _)
    | with_reducible apply MemWf.with_imz
    | ((with_reducible show ImzWf _); assumption)
    | ((with_reducible show ImzWf _); exact (‹MemWf _› : MemWf _).imz)
    | split
    | dsimp only

theorem feedLost_keeps (f : Fin 2) (rev : Bool) (v hold : Half) (s : State) (h : MemWf s) :
    MemWf (feedLost f rev v hold s) := by
  unfold feedLost
  repeat' first
    | intro _
    | with_reducible assumption
    | decide
    | with_reducible apply MemWf.ite
    | with_reducible apply MemWf.dite
    | with_reducible apply Only.keeps (State.setFeed_only _ _ _)
    | with_reducible apply Only.keeps (feedEnter_only _ _ _ _)
    | with_reducible apply powerFail_keeps
    | split
    | dsimp only

theorem execFeedLost_keeps (f : Fin 2) (v hold : Half) (s : State) (h : MemWf s) :
    ∃ t', execFeedLost f v hold s = .next t' ∧ MemWf t' := by
  refine ⟨_, rfl, ?_⟩
  repeat' first
    | intro _
    | with_reducible assumption
    | decide
    | with_reducible apply MemWf.ite
    | with_reducible apply MemWf.dite
    | with_reducible apply feedLost_keeps
    | split
    | dsimp only

theorem execFeedLostEnd_keeps (f : Fin 2) (v hold : Half) (s : State) (h : MemWf s) :
    ∃ t', execFeedLostEnd f v hold s = .next t' ∧ MemWf t' := by
  refine ⟨_, rfl, ?_⟩
  repeat' first
    | intro _
    | with_reducible assumption
    | decide
    | with_reducible apply MemWf.ite
    | with_reducible apply MemWf.dite
    | with_reducible apply powerRestore_keeps
    | with_reducible apply Only.keeps (feedEnter_only _ _ _ _)
    | with_reducible apply Only.keeps (State.setFeed_only _ _ _)
    | split
    | dsimp only

theorem execFeedReversed_keeps (f : Fin 2) (hold : Half) (s : State) (h : MemWf s) :
    ∃ t', execFeedReversed f hold s = .next t' ∧ MemWf t' := by
  refine ⟨_, rfl, ?_⟩
  repeat' first
    | intro _
    | with_reducible assumption
    | decide
    | with_reducible apply MemWf.ite
    | with_reducible apply MemWf.dite
    | with_reducible apply feedLost_keeps
    | split
    | dsimp only

theorem clockMismatch_keeps (diff tcxoNet xtalNet : Int) (s : State) (h : MemWf s) :
    MemWf (clockMismatch diff tcxoNet xtalNet s) := by
  unfold clockMismatch
  repeat' first
    | intro _
    | with_reducible assumption
    | decide
    | with_reducible apply MemWf.ite
    | with_reducible apply MemWf.dite
    | with_reducible apply Only.keeps (supplyRaise_only _ _ _)
    | with_reducible apply Only.keeps (State.drew_only _)
    | with_reducible apply Only.keeps (crystalFailed_only _)
    | with_reducible apply supervisorFault_keeps
    | with_reducible apply MemWf.set_sys
    | split
    | dsimp only

theorem execClockCheck_keeps (diff tcxoNet xtalNet : Int) (s : State) (h : MemWf s) :
    ∃ t', execClockCheck diff tcxoNet xtalNet s = .next t' ∧ MemWf t' := by
  refine ⟨_, rfl, ?_⟩
  repeat' first
    | intro _
    | with_reducible assumption
    | decide
    | with_reducible apply MemWf.ite
    | with_reducible apply MemWf.dite
    | with_reducible apply Only.keeps (State.drew_only _)
    | with_reducible apply clockMismatch_keeps
    | with_reducible apply MemWf.set_sys
    | split
    | dsimp only

theorem execTempMeasure_keeps (plate die : Half) (s : State) (h : MemWf s) :
    ∃ t', execTempMeasure plate die s = .next t' ∧ MemWf t' := by
  refine ⟨_, rfl, ?_⟩
  repeat' first
    | intro _
    | with_reducible assumption
    | decide
    | with_reducible apply MemWf.ite
    | with_reducible apply MemWf.dite
    | with_reducible apply Only.keeps (State.setSup_only _ _)
    | with_reducible apply Only.keeps (supplyEvent_only _ _ _ _)
    | with_reducible apply supervisorFault_keeps
    | split
    | dsimp only

end Sys2Proof.Machine
end

