-- ==== Sys2Proof/Laws/KeepLoopback.lean ====
section
/-! SUPPORT. Loopback: the operations of Machine/Loopback keep every memory in canonical form. -/
namespace Sys2Proof.Machine

open Sys2Proof

theorem aoEcho_keeps (echoes : BitVec 4) (s : State) (c : Fin 4) (h : MemWf s) :
    MemWf (aoEcho echoes s c) := by
  unfold aoEcho
  repeat' first
    | intro _
    | with_reducible assumption
    | decide
    | with_reducible apply MemWf.ite
    | with_reducible apply MemWf.dite
    | with_reducible apply Only.keeps (aoNotify_only _ _ _)
    | with_reducible apply MemWf.setAo
    | with_reducible apply cellFault_keeps
    | ((with_reducible show AoWf _); assumption)
    | split
    | dsimp only

theorem periodicLoop_keeps (t : LoopCell) (pass retry : Bool) (cause : Fin 5) (s : State) (h : MemWf s) :
    MemWf (periodicLoop t pass retry cause s) := by
  unfold periodicLoop
  repeat' first
    | intro _
    | with_reducible assumption
    | decide
    | with_reducible apply MemWf.ite
    | with_reducible apply MemWf.dite
    | with_reducible apply cellFault_keeps
    | split
    | dsimp only

theorem jtagLoad_keeps (i : BitVec 4) (trstn : Bool) (s : State) (h : MemWf s) :
    MemWf (jtagLoad i trstn s) := by
  unfold jtagLoad
  repeat' first
    | intro _
    | with_reducible assumption
    | decide
    | with_reducible apply MemWf.ite
    | with_reducible apply MemWf.dite
    | with_reducible apply supervisorFault_keeps
    | with_reducible apply MemWf.set_tst
    | split
    | dsimp only

theorem execAoKeepalive_keeps (echoes : BitVec 4) (s : State) (h : MemWf s) :
    ∃ t', execAoKeepalive echoes s = .next t' ∧ MemWf t' := by
  refine ⟨_, rfl, ?_⟩
  repeat' first
    | intro _
    | with_reducible assumption
    | decide
    | with_reducible apply MemWf.ite
    | with_reducible apply MemWf.dite
    | with_reducible apply MemWf.foldl
    | with_reducible apply aoEcho_keeps
    | split
    | dsimp only

theorem execPeriodicLoopback_keeps (t : LoopCell) (pass retry : Bool) (cause : Fin 5) (s : State) (h : MemWf s) :
    ∃ t', execPeriodicLoopback t pass retry cause s = .next t' ∧ MemWf t' := by
  refine ⟨_, rfl, ?_⟩
  repeat' first
    | intro _
    | with_reducible assumption
    | decide
    | with_reducible apply MemWf.ite
    | with_reducible apply MemWf.dite
    | with_reducible apply periodicLoop_keeps
    | split
    | dsimp only

theorem execJtagInstruction_keeps (i : BitVec 4) (trstn : Bool) (s : State) (h : MemWf s) :
    ∃ t', execJtagInstruction i trstn s = .next t' ∧ MemWf t' := by
  refine ⟨_, rfl, ?_⟩
  repeat' first
    | intro _
    | with_reducible assumption
    | decide
    | with_reducible apply MemWf.ite
    | with_reducible apply MemWf.dite
    | with_reducible apply jtagLoad_keeps
    | split
    | dsimp only

end Sys2Proof.Machine
end

