-- ==== Sys2Proof/Laws/KeepStart.lean ====
section
/-! SUPPORT. Start: the operations of Machine/Start keep every memory in canonical form. -/
namespace Sys2Proof.Machine

open Sys2Proof

theorem coldStart_keeps (s : State) (h : MemWf s) : MemWf (coldStart s) := by
  refine .of ⟨fun i => ?_, rfl, rfl⟩ (fun c => ?_) (fun k => ?_) rfl ⟨rfl, rfl, fun _ e => nomatch e⟩ h.user
  · show RecipeWf (s.rcp.recipes.map fun r => ({ part := r.part } : Recipe))[i.val]
    rw [Vector.getElem_map]
    exact ⟨(h.recipes i).1, rfl⟩
  · show AoWf (Vector.replicate 4 ({} : Ao))[c.val]
    rw [Vector.getElem_replicate]
    exact ⟨rfl, rfl⟩
  · show CanWf (Vector.replicate 4 ({} : Can))[k.val]
    rw [Vector.getElem_replicate]
    exact rfl

theorem startBegin_keeps (s : State) (h : MemWf s) :
    MemWf (startBegin s) := by
  unfold startBegin
  repeat' first
    | intro _
    | with_reducible assumption
    | decide
    | with_reducible apply MemWf.ite
    | with_reducible apply MemWf.dite
    | with_reducible apply coldStart_keeps
    | with_reducible apply MemWf.set_sys_sup
    | split
    | dsimp only

theorem powerless_keeps (s : State) (h : MemWf s) :
    MemWf (powerless s) := by
  unfold powerless
  repeat' first
    | intro _
    | with_reducible assumption
    | decide
    | with_reducible apply MemWf.ite
    | with_reducible apply MemWf.dite
    | with_reducible apply coldStart_keeps
    | with_reducible apply MemWf.set_now_mono
    | with_reducible apply MemWf.set_sys_sup
    | split
    | dsimp only

theorem execPowerGood_keeps (testmode : Bool) (s : State) (h : MemWf s) :
    ∃ t', execPowerGood testmode s = .next t' ∧ MemWf t' := by
  refine ⟨_, rfl, ?_⟩
  repeat' first
    | intro _
    | with_reducible assumption
    | decide
    | with_reducible apply MemWf.ite
    | with_reducible apply MemWf.dite
    | with_reducible apply powerless_keeps
    | with_reducible apply startBegin_keeps
    | with_reducible apply MemWf.set_sys_sup
    | split
    | dsimp only

theorem execPowerGoodLoss_keeps (s : State) (h : MemWf s) :
    ∃ t', execPowerGoodLoss s = .next t' ∧ MemWf t' := by
  refine ⟨_, rfl, ?_⟩
  repeat' first
    | intro _
    | with_reducible assumption
    | decide
    | with_reducible apply MemWf.ite
    | with_reducible apply MemWf.dite
    | with_reducible apply powerless_keeps
    | split
    | dsimp only

theorem execResetnLow_keeps (s : State) (h : MemWf s) :
    ∃ t', execResetnLow s = .next t' ∧ MemWf t' := by
  refine ⟨_, rfl, ?_⟩
  repeat' first
    | intro _
    | with_reducible assumption
    | decide
    | with_reducible apply MemWf.ite
    | with_reducible apply MemWf.dite
    | with_reducible apply Only.keeps (setResetn_only _ _)
    | with_reducible apply coldStart_keeps
    | with_reducible apply MemWf.set_sys
    | split
    | dsimp only

theorem execResetnRise_keeps (s : State) (h : MemWf s) :
    ∃ t', execResetnRise s = .next t' ∧ MemWf t' := by
  refine ⟨_, rfl, ?_⟩
  repeat' first
    | intro _
    | with_reducible assumption
    | decide
    | with_reducible apply MemWf.ite
    | with_reducible apply MemWf.dite
    | with_reducible apply Only.keeps (setResetn_only _ _)
    | with_reducible apply startBegin_keeps
    | split
    | dsimp only

theorem execSafeStateRestart_keeps (s : State) (h : MemWf s) :
    ∃ t', execSafeStateRestart s = .next t' ∧ MemWf t' := by
  refine ⟨_, rfl, ?_⟩
  repeat' first
    | intro _
    | with_reducible assumption
    | decide
    | with_reducible apply MemWf.ite
    | with_reducible apply MemWf.dite
    | with_reducible apply startBegin_keeps
    | with_reducible apply MemWf.set_sys
    | split
    | dsimp only

theorem annToRec_keeps (s : State) (h : MemWf s) :
    MemWf (annToRec s) := by
  unfold annToRec
  repeat' first
    | intro _
    | with_reducible assumption
    | decide
    | with_reducible apply MemWf.ite
    | with_reducible apply MemWf.dite
    | with_reducible apply MemWf.foldl
    | with_reducible apply recEntry_keeps
    | split
    | dsimp only

theorem outputsOff_keeps (s : State) (h : MemWf s) :
    MemWf (outputsOff s) := by
  unfold outputsOff
  repeat' first
    | intro _
    | with_reducible assumption
    | decide
    | with_reducible apply MemWf.ite
    | with_reducible apply MemWf.dite
    | with_reducible apply noted_keeps
    | with_reducible apply allOff_keeps
    | with_reducible apply aoEndSpell_keeps
    | split
    | dsimp only

theorem breathPage_keeps (dataDone : Bool) (s : State) (h : MemWf s) :
    MemWf (breathPage dataDone s).2.2 := by
  unfold breathPage
  repeat' first
    | intro _
    | with_reducible assumption
    | decide
    | with_reducible apply MemWf.ite
    | with_reducible apply MemWf.dite
    | with_reducible apply MemWf.iteSnd2
    | with_reducible apply commitWrite_keeps
    | with_reducible apply Only.keeps (State.setRec_only _ _)
    | split
    | dsimp only

theorem breathMedia_keeps (dataDone : Bool) (s : State) (h : MemWf s) :
    MemWf (breathMedia dataDone s) := by
  unfold breathMedia
  repeat' first
    | intro _
    | with_reducible assumption
    | decide
    | with_reducible apply MemWf.ite
    | with_reducible apply MemWf.dite
    | with_reducible apply breathPage_keeps
    | with_reducible apply sectorPut_keeps
    | with_reducible apply MemWf.setMmc
    | ((with_reducible show MmcWf _); assumption)
    | ((with_reducible show MmcWf _); exact (‹MemWf _› : MemWf _).mmc)
    | split
    | dsimp only

theorem lastBreath_keeps (hold : Half) (dataDone : Bool) (s : State) (h : MemWf s) :
    MemWf (lastBreath hold dataDone s) := by
  unfold lastBreath
  repeat' first
    | intro _
    | with_reducible assumption
    | decide
    | with_reducible apply MemWf.ite
    | with_reducible apply MemWf.dite
    | with_reducible apply Only.keeps (breathKep_only _)
    | with_reducible apply Only.keeps (breathHand_only _)
    | with_reducible apply Only.keeps (supplyRaise_only _ _ _)
    | with_reducible apply Only.keeps (State.setSup_only _ _)
    | with_reducible apply annToRec_keeps
    | with_reducible apply swapAbort_keeps
    | with_reducible apply pnlCut_keeps
    | with_reducible apply outputsOff_keeps
    | with_reducible apply breathMedia_keeps
    | with_reducible apply Only.keeps (restat_only _)
    | with_reducible apply MemWf.set_pev
    | with_reducible apply MemWf.set_sys
    | with_reducible apply MemWf.set_sys_sup
    | split
    | dsimp only

theorem execLastBreath_keeps (hold : Half) (dataDone : Bool) (s : State) (h : MemWf s) :
    ∃ t', execLastBreath hold dataDone s = .next t' ∧ MemWf t' := by
  refine ⟨_, rfl, ?_⟩
  repeat' first
    | intro _
    | with_reducible assumption
    | decide
    | with_reducible apply MemWf.ite
    | with_reducible apply MemWf.dite
    | with_reducible apply lastBreath_keeps
    | split
    | dsimp only

theorem execLastBreathRestart_keeps (s : State) (h : MemWf s) :
    ∃ t', execLastBreathRestart s = .next t' ∧ MemWf t' := by
  refine ⟨_, rfl, ?_⟩
  repeat' first
    | intro _
    | with_reducible assumption
    | decide
    | with_reducible apply MemWf.ite
    | with_reducible apply MemWf.dite
    | with_reducible apply lastBreath_keeps
    | with_reducible apply startBegin_keeps
    | split
    | dsimp only

theorem islandsLoad_keeps (s : State) (h : MemWf s) :
    MemWf (islandsLoad s) := by
  unfold islandsLoad
  repeat' first
    | intro _
    | with_reducible assumption
    | decide
    | with_reducible apply MemWf.ite
    | with_reducible apply MemWf.dite
    | with_reducible apply MemWf.foldl
    | with_reducible apply Only.keeps (uiApply_only _ _)
    | with_reducible apply Only.keeps (uiLoad_only _ _)
    | with_reducible apply aoApply_keeps
    | with_reducible apply aoLoad_keeps
    | with_reducible apply Only.keeps (dioLoad_only _ _)
    | with_reducible apply Only.keeps (psLoad_only _ _)
    | split
    | dsimp only

theorem islandsUp_keeps (s : State) (h : MemWf s) :
    MemWf (islandsUp s) := by
  unfold islandsUp
  repeat' first
    | intro _
    | with_reducible assumption
    | decide
    | with_reducible apply MemWf.ite
    | with_reducible apply MemWf.dite
    | with_reducible apply noted_keeps
    | with_reducible apply islandsLoad_keeps
    | split
    | dsimp only

theorem step7_keeps (s : State) (h : MemWf s) :
    MemWf (step7 s) := by
  unfold step7
  repeat' first
    | intro _
    | with_reducible assumption
    | decide
    | with_reducible apply MemWf.ite
    | with_reducible apply MemWf.dite
    | with_reducible apply settingsLoad_keeps
    | with_reducible apply Only.keeps (State.setRec_only _ _)
    | with_reducible apply Only.keeps (substLoad_only _)
    | with_reducible apply islandsUp_keeps
    | with_reducible apply Only.keeps (pairTrain_only _)
    | with_reducible apply Only.keeps (callInit_only _)
    | with_reducible apply Only.keeps (ageStart_only _)
    | with_reducible apply pnlLoad_keeps
    | with_reducible apply Only.keeps (evrLoad_only _)
    | with_reducible apply MemWf.set_sys_pev
    | split
    | dsimp only

end Sys2Proof.Machine
end

