-- ==== Sys2Proof/Laws/KeepPower.lean ====
section
/-! SUPPORT. Power: the operations of Machine/Power keep every memory in canonical form. -/
namespace Sys2Proof.Machine

open Sys2Proof

theorem canFlush_keeps (k : Fin 4) (s : State) (h : MemWf s) :
    MemWf (canFlush k s) := by
  unfold canFlush
  repeat' first
    | intro _
    | with_reducible assumption
    | decide
    | with_reducible apply MemWf.ite
    | with_reducible apply MemWf.dite
    | with_reducible apply MemWf.foldl
    | with_reducible apply canSent_keeps
    | split
    | dsimp only

theorem dormantBeat_keeps (s : State) (h : MemWf s) :
    MemWf (dormantBeat s) := by
  unfold dormantBeat
  repeat' first
    | intro _
    | with_reducible assumption
    | decide
    | with_reducible apply MemWf.ite
    | with_reducible apply MemWf.dite
    | with_reducible apply MemWf.foldl
    | with_reducible apply imzBeat_keeps
    | with_reducible apply canAbortAll_keeps
    | with_reducible apply canSetMode_keeps
    | with_reducible apply canFlush_keeps
    | split
    | dsimp only

theorem regionsDown_keeps (s : State) (h : MemWf s) :
    MemWf (regionsDown s) := by
  unfold regionsDown
  repeat' first
    | intro _
    | with_reducible assumption
    | decide
    | with_reducible apply MemWf.ite
    | with_reducible apply MemWf.dite
    | with_reducible apply MemWf.foldl
    | with_reducible apply regionClear_keeps
    | with_reducible apply Only.keeps (State.setRegion_only _ _ _)
    | with_reducible apply MemWf.set_fab
    | split
    | dsimp only

theorem dormantEnter_keeps (s : State) (h : MemWf s) :
    MemWf (dormantEnter s) := by
  have e : ∀ (u : State), MemWf u → MemWf (u.setMmc fun m => { m with st := if m.st = .off then .off else .sleep }) :=
    fun u g => g.setMmc fun x => x
  have f : ∀ (u : State) (x : Sys), MemWf u → MemWf { u with sys := x } := fun u x g => g.set_sys
  unfold dormantEnter
  apply e
  apply f
  exact (cellNotify_only _ _).keeps (by decide) ((islandsOff_only _).keeps (by decide) (regionsDown_keeps _
    (driveSafe_keeps _ ((State.setPower_only _ _).keeps (by decide) ((dioMark_only _).keeps (by decide)
      (dormantBeat_keeps _ (swapAbort_keeps _ h)))))))

theorem wakeUp_keeps (code : Nat) (s : State) (h : MemWf s) :
    MemWf (wakeUp code s) := by
  unfold wakeUp
  repeat' first
    | intro _
    | with_reducible assumption
    | decide
    | with_reducible apply MemWf.ite
    | with_reducible apply MemWf.dite
    | with_reducible apply MemWf.foldl
    | with_reducible apply Only.keeps (State.setRegion_only _ _ _)
    | with_reducible apply MemWf.setMmc
    | with_reducible apply MemWf.setImz
    | with_reducible apply Only.keeps (cellNotify_only _ _)
    | with_reducible apply Only.keeps (uiApply_only _ _)
    | with_reducible apply aoLetGo_keeps
    | with_reducible apply Only.keeps (dioReleaseAll_only _)
    | with_reducible apply Only.keeps (restat_only _)
    | with_reducible apply Only.keeps (pairTrain_only _)
    | with_reducible apply MemWf.set_sys
    | ((with_reducible show ImzWf _); assumption)
    | ((with_reducible show MmcWf _); assumption)
    | ((with_reducible show ImzWf _); exact (‹MemWf _› : MemWf _).imz)
    | ((with_reducible show MmcWf _); exact (‹MemWf _› : MemWf _).mmc)
    | split
    | dsimp only

theorem wakeCmd_keeps (s : State) (h : MemWf s) :
    MemWf (wakeCmd s) := by
  unfold wakeCmd
  repeat' first
    | intro _
    | with_reducible assumption
    | decide
    | with_reducible apply MemWf.ite
    | with_reducible apply MemWf.dite
    | with_reducible apply wakeUp_keeps
    | with_reducible apply Only.keeps (dozeUp_only _ _)
    | split
    | dsimp only

theorem execDormantEntry_keeps (s : State) (h : MemWf s) :
    ∃ t', execDormantEntry s = .next t' ∧ MemWf t' := by
  refine ⟨_, rfl, ?_⟩
  repeat' first
    | intro _
    | with_reducible assumption
    | decide
    | with_reducible apply MemWf.ite
    | with_reducible apply MemWf.dite
    | with_reducible apply dormantEnter_keeps
    | split
    | dsimp only

theorem execWakeCommand_keeps (_src : Source) (s : State) (h : MemWf s) :
    ∃ t', execWakeCommand _src s = .next t' ∧ MemWf t' := by
  refine ⟨_, rfl, ?_⟩
  repeat' first
    | intro _
    | with_reducible assumption
    | decide
    | with_reducible apply MemWf.ite
    | with_reducible apply MemWf.dite
    | with_reducible apply wakeCmd_keeps
    | split
    | dsimp only

theorem execDormantWake_keeps (src : Option (BitVec 9)) (s : State) (h : MemWf s) :
    ∃ t', execDormantWake src s = .next t' ∧ MemWf t' := by
  refine ⟨_, rfl, ?_⟩
  repeat' first
    | intro _
    | with_reducible assumption
    | decide
    | with_reducible apply MemWf.ite
    | with_reducible apply MemWf.dite
    | with_reducible apply wakeUp_keeps
    | with_reducible apply Only.keeps (wakeSource_only _ _)
    | split
    | dsimp only

end Sys2Proof.Machine
end

