-- ==== Sys2Proof/Laws/KeepBoot.lean ====
section
/-! SUPPORT. Boot: the operations of Machine/Boot keep every memory in canonical form. -/
namespace Sys2Proof.Machine

open Sys2Proof

theorem bareCan_keeps (n mode : Nat) (k : Fin 4) (s : State) (h : MemWf s) :
    MemWf (bareCan n mode k s) := by
  unfold bareCan
  repeat' first
    | intro _
    | with_reducible assumption
    | decide
    | with_reducible apply MemWf.ite
    | with_reducible apply MemWf.dite
    | with_reducible apply canSetMode_keeps
    | with_reducible apply MemWf.setCan
    | ((with_reducible show CanWf _); assumption)
    | split
    | dsimp only

theorem bareSearch_keeps (n : Nat) (s : State) (h : MemWf s) :
    MemWf (bareSearch n s) := by
  unfold bareSearch
  repeat' first
    | intro _
    | with_reducible assumption
    | decide
    | with_reducible apply MemWf.ite
    | with_reducible apply MemWf.dite
    | with_reducible apply bareCan_keeps
    | with_reducible apply MemWf.setRcp
    | ((with_reducible show RcpWf _); assumption)
    | ((with_reducible show RecipeWf _); assumption)
    | ((with_reducible show RcpWf _); exact (‹MemWf _› : MemWf _).rcp)
    | ((with_reducible show RcpWf _); with_reducible assumption)
    | with_reducible apply RcpWf.setRecipe
    | split
    | dsimp only

theorem bareRatesFound_keeps (s : State) (h : MemWf s) :
    MemWf (bareRatesFound s) := by
  unfold bareRatesFound
  repeat' first
    | intro _
    | with_reducible assumption
    | decide
    | with_reducible apply MemWf.ite
    | with_reducible apply MemWf.dite
    | with_reducible apply canSetMode_keeps
    | with_reducible apply MemWf.setRcp
    | ((with_reducible show RcpWf _); assumption)
    | ((with_reducible show RecipeWf _); assumption)
    | ((with_reducible show RcpWf _); exact (‹MemWf _› : MemWf _).rcp)
    | ((with_reducible show RcpWf _); with_reducible assumption)
    | with_reducible apply RcpWf.setRecipe
    | split
    | dsimp only

theorem bareError_keeps (k : Fin 2) (s : State) (h : MemWf s) :
    MemWf (bareError k s) := by
  unfold bareError
  repeat' first
    | intro _
    | with_reducible assumption
    | decide
    | with_reducible apply MemWf.ite
    | with_reducible apply MemWf.dite
    | with_reducible apply bareSearch_keeps
    | with_reducible apply MemWf.setRcp
    | ((with_reducible show RcpWf _); assumption)
    | ((with_reducible show RecipeWf _); assumption)
    | ((with_reducible show RcpWf _); exact (‹MemWf _› : MemWf _).rcp)
    | ((with_reducible show RcpWf _); with_reducible assumption)
    | with_reducible apply RcpWf.setRecipe
    | split
    | dsimp only

theorem bareEnter_keeps (cause : Nat) (s : State) (h : MemWf s) :
    MemWf (bareEnter cause s) := by
  unfold bareEnter
  repeat' first
    | intro _
    | with_reducible assumption
    | decide
    | with_reducible apply MemWf.ite
    | with_reducible apply MemWf.dite
    | with_reducible apply Only.keeps (absentRelease_only _ _)
    | with_reducible apply Only.keeps (restat_only _)
    | with_reducible apply bareSearch_keeps
    | with_reducible apply MemWf.set_sys
    | split
    | dsimp only

theorem bareClaimSend_keeps (s : State) (h : MemWf s) :
    MemWf (bareClaimSend s) := by
  unfold bareClaimSend
  repeat' first
    | intro _
    | with_reducible assumption
    | decide
    | with_reducible apply MemWf.ite
    | with_reducible apply MemWf.dite
    | with_reducible apply bareSend_keeps
    | split
    | dsimp only

theorem mmcReady_keeps (info : MmcInfo) (s : State) (h : MemWf s) :
    MemWf (mmcReady info s) := by
  unfold mmcReady
  repeat' first
    | intro _
    | with_reducible assumption
    | decide
    | with_reducible apply MemWf.ite
    | with_reducible apply MemWf.dite
    | with_reducible apply Only.keeps (mmcPower_only _ _)
    | with_reducible apply MemWf.setMmc
    | with_reducible apply commitNext_keeps
    | with_reducible apply settingsRetry_keeps
    | with_reducible apply Only.keeps (mmcEvent_only _ _ _)
    | ((with_reducible show MmcWf _); assumption)
    | ((with_reducible show MmcWf _); exact (‹MemWf _› : MemWf _).mmc)
    | split
    | dsimp only

theorem mmcAttempt_keeps (ok : Bool) (info : MmcInfo) (s : State) (h : MemWf s) :
    MemWf (mmcAttempt ok info s) := by
  unfold mmcAttempt
  repeat' first
    | intro _
    | with_reducible assumption
    | decide
    | with_reducible apply MemWf.ite
    | with_reducible apply MemWf.dite
    | with_reducible apply Only.keeps (setStep_only _ _)
    | with_reducible apply mmcReady_keeps
    | with_reducible apply bareEnter_keeps
    | with_reducible apply Only.keeps (mmcEvent_only _ _ _)
    | with_reducible apply Only.keeps (mmcPower_only _ _)
    | with_reducible apply MemWf.setRcp
    | ((with_reducible show RcpWf _); assumption)
    | ((with_reducible show RecipeWf _); assumption)
    | ((with_reducible show RcpWf _); exact (‹MemWf _› : MemWf _).rcp)
    | ((with_reducible show RcpWf _); with_reducible assumption)
    | with_reducible apply RcpWf.setRecipe
    | split
    | dsimp only

theorem execEmmcInit_keeps (ok : Bool) (info : MmcInfo) (s : State) (h : MemWf s) :
    ∃ t', execEmmcInit ok info s = .next t' ∧ MemWf t' := by
  refine ⟨_, rfl, ?_⟩
  repeat' first
    | intro _
    | with_reducible assumption
    | decide
    | with_reducible apply MemWf.ite
    | with_reducible apply MemWf.dite
    | with_reducible apply mmcAttempt_keeps
    | with_reducible apply mmcReady_keeps
    | with_reducible apply mmcError_keeps
    | split
    | dsimp only

theorem execEmmcInitRetry_keeps (ok : Bool) (info : MmcInfo) (s : State) (h : MemWf s) :
    ∃ t', execEmmcInitRetry ok info s = .next t' ∧ MemWf t' := by
  refine ⟨_, rfl, ?_⟩
  repeat' first
    | intro _
    | with_reducible assumption
    | decide
    | with_reducible apply MemWf.ite
    | with_reducible apply MemWf.dite
    | with_reducible apply mmcAttempt_keeps
    | split
    | dsimp only

theorem execMmcReinitTimer_keeps (ok : Bool) (s : State) (h : MemWf s) :
    ∃ t', execMmcReinitTimer ok s = .next t' ∧ MemWf t' := by
  refine ⟨_, rfl, ?_⟩
  repeat' first
    | intro _
    | with_reducible assumption
    | decide
    | with_reducible apply MemWf.ite
    | with_reducible apply MemWf.dite
    | with_reducible apply settingsRetry_keeps
    | with_reducible apply inKep_keeps
    | with_reducible apply mmcTimer_keeps
    | split
    | dsimp only

theorem Recipe.st_wf {r : Recipe} {x : RcpState} (h : RecipeWf r) : RecipeWf { r with st := x } := ⟨h.1, h.2⟩
theorem bankLoad_wf {r : Recipe} (h : RecipeWf r) : RecipeWf (bankLoad r) := ⟨h.1, Memory.wf_memWindow _ _ _ h.1⟩
theorem Recipe.fail_wf {r : Recipe} (h : RecipeWf r) : RecipeWf r.fail := ⟨h.1, rfl⟩
theorem headerTake_wf {r : Recipe} (h : RecipeWf r) : RecipeWf (headerTake r) := by
  unfold headerTake
  split
  · exact ⟨h.1, rfl⟩
  · split <;> exact ⟨h.1, rfl⟩

theorem bootSelect_keeps (s : State) (h : MemWf s) : MemWf (bootSelect s) := by
  have a := (setStep_only 5 s).keeps (by decide) h
  have b (i : Fin 2) : MemWf ((setStep 5 s).setRcp fun c =>
      { c.setRecipe i (fun r => { r with st := .active }) with active := i }) := a.setRcp fun k =>
    have g := k.setRecipe (i := i) (f := fun r => { r with st := .active }) Recipe.st_wf
    ⟨g.1, g.2⟩
  unfold bootSelect
  split
  · exact bareEnter_keeps _ _ a
  · exact .ite (b _) ((raise_only _ _ _).keeps (by decide) (writeBootConfig_keeps _ _ _ _ (b _)))

theorem execBootHeadersRead_keeps (ok : Bool) (s : State) (h : MemWf s) :
    ∃ t', execBootHeadersRead ok s = .next t' ∧ MemWf t' := by
  refine ⟨_, rfl, ?_⟩
  have a := (setStep_only 4 s).keeps (by decide) h
  refine .ite (.ite (bootSelect_keeps _ (a.setRcp fun k => ⟨fun i => ?_, k.2⟩)) (bareEnter_keeps _ _ a)) h
  show RecipeWf (((setStep 4 s).rcp.recipes.map headerTake)[i.val])
  rw [Vector.getElem_map]
  exact headerTake_wf (k.1 i)

theorem execActiveImageLoaded_keeps (ok : Bool) (s : State) (h : MemWf s) :
    ∃ t', execActiveImageLoaded ok s = .next t' ∧ MemWf t' := by
  refine ⟨_, rfl, .ite (.ite (bareEnter_keeps _ _ h) (.ite (bootSelect_keeps _ ?_) (step7_keeps _ ?_))) h⟩
  · exact h.setRcp fun k => k.setRecipe Recipe.fail_wf
  · refine (absentRelease_only _ _).keeps (by decide) ?_
    exact ((setStep_only 6 s).keeps (by decide) h).setRcp fun k =>
      have g := (k.setRecipe (i := s.rcp.active) bankLoad_wf).setRecipe (i := 1 - s.rcp.active)
        (f := fun r => { r with st := .verifying }) Recipe.st_wf
      ⟨g.1, g.2⟩

theorem shadowLoad_keeps (ok : Bool) (s : State) (h : MemWf s) : MemWf (shadowLoad ok s) := by
  have e (f : Recipe → Recipe) (i : Fin 2) (k : ∀ r, RecipeWf r → RecipeWf (f r)) :
      MemWf (s.setRcp fun c => c.setRecipe i f) := h.setRcp fun g => g.setRecipe (k _)
  refine e _ _ fun r q => ?_
  dsimp only
  split
  · exact ⟨q.1, rfl⟩
  · split
    · exact Recipe.fail_wf q
    · exact Recipe.st_wf (bankLoad_wf q)

theorem execShadowLoaded_keeps (ok : Bool) (s : State) (h : MemWf s) :
    ∃ t', execShadowLoaded ok s = .next t' ∧ MemWf t' := by
  refine ⟨_, rfl, ?_⟩
  repeat' first
    | intro _
    | with_reducible assumption
    | decide
    | with_reducible apply MemWf.ite
    | with_reducible apply MemWf.dite
    | with_reducible apply shadowLoad_keeps
    | split
    | dsimp only

theorem execBareRateSearchStep_keeps (s : State) (h : MemWf s) :
    ∃ t', execBareRateSearchStep s = .next t' ∧ MemWf t' := by
  refine ⟨_, rfl, ?_⟩
  repeat' first
    | intro _
    | with_reducible assumption
    | decide
    | with_reducible apply MemWf.ite
    | with_reducible apply MemWf.dite
    | with_reducible apply bareSearch_keeps
    | split
    | dsimp only

theorem execBareAddrClaim_keeps (s : State) (h : MemWf s) :
    ∃ t', execBareAddrClaim s = .next t' ∧ MemWf t' := by
  refine ⟨_, rfl, ?_⟩
  repeat' first
    | intro _
    | with_reducible assumption
    | decide
    | with_reducible apply MemWf.ite
    | with_reducible apply MemWf.dite
    | with_reducible apply bareClaimSend_keeps
    | split
    | dsimp only

theorem cfgWriteEnd_keeps (ok : Bool) (s : State) (h : MemWf s) :
    MemWf (cfgWriteEnd ok s) := by
  unfold cfgWriteEnd
  repeat' first
    | intro _
    | with_reducible assumption
    | decide
    | with_reducible apply MemWf.ite
    | with_reducible apply MemWf.dite
    | with_reducible apply writeBootConfig_keeps
    | with_reducible apply MemWf.setRcp
    | with_reducible apply Only.keeps (mmcEvent_only _ _ _)
    | ((with_reducible show RcpWf _); assumption)
    | ((with_reducible show RecipeWf _); assumption)
    | ((with_reducible show RcpWf _); exact (‹MemWf _› : MemWf _).rcp)
    | ((with_reducible show RcpWf _); with_reducible assumption)
    | with_reducible apply RcpWf.setRecipe
    | split
    | dsimp only

theorem execBootConfigWritten_keeps (ok : Bool) (s : State) (h : MemWf s) :
    ∃ t', execBootConfigWritten ok s = .next t' ∧ MemWf t' := by
  refine ⟨_, rfl, ?_⟩
  repeat' first
    | intro _
    | with_reducible assumption
    | decide
    | with_reducible apply MemWf.ite
    | with_reducible apply MemWf.dite
    | with_reducible apply cfgWriteEnd_keeps
    | split
    | dsimp only

theorem execBootConfigRetry_keeps (ok : Bool) (s : State) (h : MemWf s) :
    ∃ t', execBootConfigRetry ok s = .next t' ∧ MemWf t' := by
  refine ⟨_, rfl, ?_⟩
  repeat' first
    | intro _
    | with_reducible assumption
    | decide
    | with_reducible apply MemWf.ite
    | with_reducible apply MemWf.dite
    | with_reducible apply cfgWriteEnd_keeps
    | split
    | dsimp only

theorem updateTake_keeps (ok : Bool) (s : State) (h : MemWf s) : MemWf (updateTake ok s) := by
  have e (f : Recipe → Recipe) (i : Fin 2) (k : ∀ r, RecipeWf r → RecipeWf (f r)) :
      MemWf (s.setRcp fun c => c.setRecipe i f) := h.setRcp fun g => g.setRecipe (k _)
  refine .ite (e _ _ fun r => Recipe.fail_wf) (startBegin_keeps _ (writeBootConfig_keeps _ _ _ _ ?_))
  exact e _ _ fun r q => Recipe.st_wf (bankLoad_wf q)

theorem execPartnerUpdateDone_keeps (ok : Bool) (s : State) (h : MemWf s) :
    ∃ t', execPartnerUpdateDone ok s = .next t' ∧ MemWf t' := by
  refine ⟨_, rfl, ?_⟩
  repeat' first
    | intro _
    | with_reducible assumption
    | decide
    | with_reducible apply MemWf.ite
    | with_reducible apply MemWf.dite
    | with_reducible apply updateTake_keeps
    | with_reducible apply shadowLoad_keeps
    | with_reducible apply MemWf.setRcp
    | with_reducible apply Only.keeps (State.setLvn_only _ _)
    | ((with_reducible show RcpWf _); assumption)
    | ((with_reducible show RecipeWf _); assumption)
    | ((with_reducible show RcpWf _); exact (‹MemWf _› : MemWf _).rcp)
    | ((with_reducible show RcpWf _); with_reducible assumption)
    | with_reducible apply RcpWf.setRecipe
    | split
    | dsimp only

end Sys2Proof.Machine
end

