-- ==== Sys2Proof/Laws/KeepRcp.lean ====
section
/-! SUPPORT. Rcp: the operations of Machine/Rcp keep every memory in canonical form. -/
namespace Sys2Proof.Machine

open Sys2Proof

theorem rcpOpen_keeps (src : Source) (ok : Bool) (s : State) (h : MemWf s) :
    MemWf (rcpOpen src ok s) := by
  unfold rcpOpen
  repeat' first
    | intro _
    | with_reducible assumption
    | decide
    | with_reducible apply MemWf.ite
    | with_reducible apply MemWf.dite
    | with_reducible apply rcpEnd_keeps
    | with_reducible apply MemWf.setRcp
    | ((with_reducible show RcpWf _); exact (‹MemWf _› : MemWf _).rcp)
    | ((with_reducible show RcpWf _); with_reducible assumption)
    | with_reducible apply RcpWf.setRecipe
    | ((with_reducible show RecipeWf _); refine ⟨?_, ?_⟩)
    | ((with_reducible show RcpWf _); refine ⟨?_, ?_, ?_⟩)
    | ((with_reducible show Memory.wf _ = true); dsimp only)
    | with_reducible apply Memory.wf_memFill
    | with_reducible apply Memory.wf_memPut
    | with_reducible apply Memory.wf_memZero
    | with_reducible apply Memory.wf_memWindow
    | with_reducible apply Memory.wf_memCopyIn
    | with_reducible apply Memory.wf_foldl_memPut
    | with_reducible apply Memory.wf_filter
    | ((with_reducible show Memory.wf _ = true); first | exact rfl | exact (‹RecipeWf _› : RecipeWf _).1 | exact (‹RecipeWf _› : RecipeWf _).2 | exact ((‹RcpWf _› : RcpWf _).1 _).1 | exact ((‹RcpWf _› : RcpWf _).1 _).2 | exact (‹RcpWf _› : RcpWf _).2.1 | exact (‹RcpWf _› : RcpWf _).2.2)
    | exact (‹RcpWf _› : RcpWf _).1
    | split
    | dsimp only

theorem blockWrite_keeps (n : Nat) (s : State) (h : MemWf s) : MemWf (blockWrite n s) := by
  have a := h.rcp
  refine h.set_rcp ?_
  dsimp only
  split
  · exact ⟨a.1, a.2.2, a.2.2⟩
  · exact .setRecipe ⟨a.1, a.2⟩ fun q => ⟨Memory.wf_memCopyIn _ _ _ _ q.1 a.2.2, q.2⟩

theorem rcpWriteBlock_keeps (src : Source) (xfer : Bool) (n : Nat) (ok : Bool) (s : State) (h : MemWf s) :
    MemWf (rcpWriteBlock src xfer n ok s) := by
  unfold rcpWriteBlock
  repeat' first
    | intro _
    | with_reducible assumption
    | decide
    | with_reducible apply MemWf.ite
    | with_reducible apply MemWf.dite
    | with_reducible apply rcpEnd_keeps
    | with_reducible apply MemWf.setImz
    | with_reducible apply blockWrite_keeps
    | ((with_reducible show ImzWf _); assumption)
    | ((with_reducible show ImzWf _); exact (‹MemWf _› : MemWf _).imz)
    | split
    | dsimp only

theorem rcpVerify_keeps (src : Source) (s : State) (h : MemWf s) :
    MemWf (rcpVerify src s) := by
  unfold rcpVerify
  repeat' first
    | intro _
    | with_reducible assumption
    | decide
    | with_reducible apply MemWf.ite
    | with_reducible apply MemWf.dite
    | with_reducible apply rcpEnd_keeps
    | with_reducible apply MemWf.setRcp
    | ((with_reducible show RcpWf _); assumption)
    | ((with_reducible show RecipeWf _); assumption)
    | ((with_reducible show RcpWf _); exact (‹MemWf _› : MemWf _).rcp)
    | ((with_reducible show RcpWf _); with_reducible assumption)
    | with_reducible apply RcpWf.setRecipe
    | split
    | dsimp only

theorem verifyFail_keeps (code detail : Nat) (s : State) (h : MemWf s) : MemWf (verifyFail code detail s) :=
  verifyEnd_keeps _ _ _ (h.setRcp fun g => g.setRecipe Recipe.fail_wf)

theorem verifyDone_keeps (partnerAbsent : Bool) (s : State) (h : MemWf s) : MemWf (verifyDone partnerAbsent s) := by
  have a := h.rcp
  have e (f : Recipe → Recipe) (i : Fin 2) (k : ∀ r, RecipeWf r → RecipeWf (f r)) :
      MemWf (s.setRcp fun c =>
        let c1 := { c with owner := none, written := [], block0 := [], partnerStale := s.isPaired && partnerAbsent }
        c1.setRecipe i f) := h.set_rcp (.setRecipe ⟨a.1, rfl, a.2.2⟩ (k _))
  have b := e (fun r => { bankLoad { r with part := verifyImage s } with
      st := if s.bare then .valid else shadowState s.activeBank (verifyImage s) }) (imageTarget s) fun r q =>
    Recipe.st_wf (bankLoad_wf ⟨Memory.wf_memCopyIn _ _ _ _ (a.1 _).1 a.2.1, q.2⟩)
  have c := verifyEnd_keeps rcOK 0 _ b
  exact .ite (startBegin_keeps _ (writeBootConfig_keeps _ _ _ _ c)) c

theorem verifyResult_keeps (fail : Option Half) (p : PartnerAnswer) (s : State) (h : MemWf s) :
    MemWf (verifyResult fail p s) := by
  unfold verifyResult
  repeat' first
    | intro _
    | with_reducible assumption
    | decide
    | with_reducible apply MemWf.ite
    | with_reducible apply MemWf.dite
    | with_reducible apply verifyFail_keeps
    | with_reducible apply verifyDone_keeps
    | split
    | dsimp only

theorem rcpClose_keeps (src : Source) (s : State) (h : MemWf s) :
    MemWf (rcpClose src s) := by
  unfold rcpClose
  repeat' first
    | intro _
    | with_reducible assumption
    | decide
    | with_reducible apply MemWf.ite
    | with_reducible apply MemWf.dite
    | with_reducible apply rcpEnd_keeps
    | with_reducible apply rcpDropWrite_keeps
    | split
    | dsimp only

theorem swapAccept_keeps (src : Source) (s : State) (h : MemWf s) :
    MemWf (swapAccept src s) := by
  unfold swapAccept
  repeat' first
    | intro _
    | with_reducible assumption
    | decide
    | with_reducible apply MemWf.ite
    | with_reducible apply MemWf.dite
    | with_reducible apply MemWf.setRcp
    | ((with_reducible show RcpWf _); assumption)
    | ((with_reducible show RecipeWf _); assumption)
    | ((with_reducible show RcpWf _); exact (‹MemWf _› : MemWf _).rcp)
    | ((with_reducible show RcpWf _); with_reducible assumption)
    | with_reducible apply RcpWf.setRecipe
    | split
    | dsimp only

theorem rcpSwap_keeps (src : Source) (key : Byte) (same : Bool) (s : State) (h : MemWf s) :
    MemWf (rcpSwap src key same s) := by
  unfold rcpSwap
  repeat' first
    | intro _
    | with_reducible assumption
    | decide
    | with_reducible apply MemWf.ite
    | with_reducible apply MemWf.dite
    | with_reducible apply rcpEnd_keeps
    | with_reducible apply swapAccept_keeps
    | with_reducible apply MemWf.setRcp
    | ((with_reducible show RcpWf _); assumption)
    | ((with_reducible show RecipeWf _); assumption)
    | ((with_reducible show RcpWf _); exact (‹MemWf _› : MemWf _).rcp)
    | ((with_reducible show RcpWf _); with_reducible assumption)
    | with_reducible apply RcpWf.setRecipe
    | split
    | dsimp only

theorem swapRetry_keeps (same : Bool) (s : State) (h : MemWf s) :
    MemWf (swapRetry same s) := by
  unfold swapRetry
  repeat' first
    | intro _
    | with_reducible assumption
    | decide
    | with_reducible apply MemWf.ite
    | with_reducible apply MemWf.dite
    | with_reducible apply MemWf.setRcp
    | with_reducible apply swapFinish_keeps
    | with_reducible apply swapAccept_keeps
    | ((with_reducible show RcpWf _); assumption)
    | ((with_reducible show RecipeWf _); assumption)
    | ((with_reducible show RcpWf _); exact (‹MemWf _› : MemWf _).rcp)
    | ((with_reducible show RcpWf _); with_reducible assumption)
    | with_reducible apply RcpWf.setRecipe
    | split
    | dsimp only

theorem rcpSetActive_keeps (key : Byte) (ok : Bool) (s : State) (h : MemWf s) :
    MemWf (rcpSetActive key ok s) := by
  unfold rcpSetActive
  repeat' first
    | intro _
    | with_reducible assumption
    | decide
    | with_reducible apply MemWf.ite
    | with_reducible apply MemWf.dite
    | with_reducible apply rcpEnd_keeps
    | with_reducible apply writeBootConfig_keeps
    | split
    | dsimp only

theorem rcpReload_keeps (src : Source) (ok : Bool) (s : State) (h : MemWf s) :
    MemWf (rcpReload src ok s) := by
  unfold rcpReload
  repeat' first
    | intro _
    | with_reducible assumption
    | decide
    | with_reducible apply MemWf.ite
    | with_reducible apply MemWf.dite
    | with_reducible apply rcpEnd_keeps
    | with_reducible apply shadowLoad_keeps
    | split
    | dsimp only

theorem rcpBadOp_keeps (src : Source) (op : Nat) (s : State) (h : MemWf s) :
    MemWf (rcpBadOp src op s) := by
  unfold rcpBadOp
  repeat' first
    | intro _
    | with_reducible assumption
    | decide
    | with_reducible apply MemWf.ite
    | with_reducible apply MemWf.dite
    | with_reducible apply rcpEnd_keeps
    | split
    | dsimp only

theorem rcpAnswered_keeps (src : Source) (op : Nat) (t s : State) (h : MemWf t) : MemWf (rcpAnswered src op t s) := by
  unfold rcpAnswered
  split
  · exact .ite (h.setRcp id) (.ite (h.setRcp id) (rcpRsp_keeps _ _ h))
  · exact h

theorem rcpRow_keeps (src : Source) (op : Nat) (act : State → State) (s : State) (hf : ∀ u, MemWf u → MemWf (act u)) (h : MemWf s) :
    MemWf (rcpRow src op act s) := by
  unfold rcpRow
  repeat' first
    | intro _
    | with_reducible assumption
    | decide
    | with_reducible apply hf
    | with_reducible apply MemWf.ite
    | with_reducible apply MemWf.dite
    | with_reducible apply rcpAnswered_keeps
    | split
    | dsimp only

theorem rcpCmd_keeps (src : Source) (v : Word) (s : State) (h : MemWf s) :
    MemWf (rcpCmd src v s) := by
  unfold rcpCmd
  repeat' first
    | intro _
    | with_reducible assumption
    | decide
    | with_reducible apply MemWf.ite
    | with_reducible apply MemWf.dite
    | with_reducible apply rcpOpen_keeps
    | with_reducible apply Only.keeps (State.drew_only _)
    | with_reducible apply rcpWriteBlock_keeps
    | with_reducible apply rcpVerify_keeps
    | with_reducible apply rcpClose_keeps
    | with_reducible apply rcpSwap_keeps
    | with_reducible apply rcpSetActive_keeps
    | with_reducible apply rcpReload_keeps
    | with_reducible apply rcpBadOp_keeps
    | split
    | dsimp only

theorem bufWrite_keeps (src : Source) (w : BitVec 10) (v : Word) (s : State) (h : MemWf s) :
    MemWf (bufWrite src w v s).2 := by
  unfold bufWrite
  repeat' first
    | intro _
    | with_reducible assumption
    | decide
    | with_reducible apply MemWf.ite
    | with_reducible apply MemWf.dite
    | with_reducible apply MemWf.iteSnd
    | with_reducible apply Only.keeps (logWerr_only _ _ _ _)
    | with_reducible apply MemWf.setRcp
    | ((with_reducible show RcpWf _); exact (‹MemWf _› : MemWf _).rcp)
    | ((with_reducible show RcpWf _); with_reducible assumption)
    | with_reducible apply RcpWf.setRecipe
    | ((with_reducible show RecipeWf _); refine ⟨?_, ?_⟩)
    | ((with_reducible show RcpWf _); refine ⟨?_, ?_, ?_⟩)
    | ((with_reducible show Memory.wf _ = true); dsimp only)
    | with_reducible apply Memory.wf_memFill
    | with_reducible apply Memory.wf_memPut
    | with_reducible apply Memory.wf_memZero
    | with_reducible apply Memory.wf_memWindow
    | with_reducible apply Memory.wf_memCopyIn
    | with_reducible apply Memory.wf_foldl_memPut
    | with_reducible apply Memory.wf_filter
    | ((with_reducible show Memory.wf _ = true); first | exact rfl | exact (‹RecipeWf _› : RecipeWf _).1 | exact (‹RecipeWf _› : RecipeWf _).2 | exact ((‹RcpWf _› : RcpWf _).1 _).1 | exact ((‹RcpWf _› : RcpWf _).1 _).2 | exact (‹RcpWf _› : RcpWf _).2.1 | exact (‹RcpWf _› : RcpWf _).2.2)
    | exact (‹RcpWf _› : RcpWf _).1
    | split
    | dsimp only

theorem chunkWrite_keeps (src : Source) (chunk : BitVec 7) (bytes : List Byte) (s : State) (h : MemWf s) :
    MemWf (chunkWrite src chunk bytes s) := by
  unfold chunkWrite
  repeat' first
    | intro _
    | with_reducible assumption
    | decide
    | with_reducible apply MemWf.ite
    | with_reducible apply MemWf.dite
    | with_reducible apply Only.keeps (logWerr_only _ _ _ _)
    | with_reducible apply MemWf.setRcp
    | with_reducible apply MemWf.setImz
    | ((with_reducible show RcpWf _); exact (‹MemWf _› : MemWf _).rcp)
    | ((with_reducible show ImzWf _); exact (‹MemWf _› : MemWf _).imz)
    | ((with_reducible show RcpWf _); with_reducible assumption)
    | with_reducible apply RcpWf.setRecipe
    | ((with_reducible show RecipeWf _); refine ⟨?_, ?_⟩)
    | ((with_reducible show RcpWf _); refine ⟨?_, ?_, ?_⟩)
    | ((with_reducible show Memory.wf _ = true); dsimp only)
    | with_reducible apply Memory.wf_memFill
    | with_reducible apply Memory.wf_memPut
    | with_reducible apply Memory.wf_memZero
    | with_reducible apply Memory.wf_memWindow
    | with_reducible apply Memory.wf_memCopyIn
    | with_reducible apply Memory.wf_foldl_memPut
    | with_reducible apply Memory.wf_filter
    | ((with_reducible show Memory.wf _ = true); first | exact rfl | exact (‹RecipeWf _› : RecipeWf _).1 | exact (‹RecipeWf _› : RecipeWf _).2 | exact (‹ImzWf _› : ImzWf _) | exact ((‹RcpWf _› : RcpWf _).1 _).1 | exact ((‹RcpWf _› : RcpWf _).1 _).2 | exact (‹RcpWf _› : RcpWf _).2.1 | exact (‹RcpWf _› : RcpWf _).2.2)
    | exact (‹RcpWf _› : RcpWf _).1
    | (with_reducible show ImzWf _; unfold ImzWf; dsimp only)
    | split
    | dsimp only

theorem execRcpOpen_keeps (src : Source) (ok : Bool) (s : State) (h : MemWf s) :
    ∃ t', execRcpOpen src ok s = .next t' ∧ MemWf t' := by
  refine ⟨_, rfl, ?_⟩
  repeat' first
    | intro _
    | with_reducible assumption
    | decide
    | with_reducible apply MemWf.ite
    | with_reducible apply MemWf.dite
    | with_reducible apply rcpRow_keeps
    | with_reducible apply rcpOpen_keeps
    | split
    | dsimp only

theorem execRcpWriteBlock_keeps (src : Source) (n : Half) (ok : Bool) (s : State) (h : MemWf s) :
    ∃ t', execRcpWriteBlock src n ok s = .next t' ∧ MemWf t' := by
  refine ⟨_, rfl, ?_⟩
  repeat' first
    | intro _
    | with_reducible assumption
    | decide
    | with_reducible apply MemWf.ite
    | with_reducible apply MemWf.dite
    | with_reducible apply rcpRow_keeps
    | with_reducible apply rcpWriteBlock_keeps
    | split
    | dsimp only

theorem execRcpVerify_keeps (src : Source) (s : State) (h : MemWf s) :
    ∃ t', execRcpVerify src s = .next t' ∧ MemWf t' := by
  refine ⟨_, rfl, ?_⟩
  repeat' first
    | intro _
    | with_reducible assumption
    | decide
    | with_reducible apply MemWf.ite
    | with_reducible apply MemWf.dite
    | with_reducible apply rcpRow_keeps
    | with_reducible apply rcpVerify_keeps
    | split
    | dsimp only

theorem execRcpVerifyDone_keeps (fail : Option Half) (p : PartnerAnswer) (s : State) (h : MemWf s) :
    ∃ t', execRcpVerifyDone fail p s = .next t' ∧ MemWf t' := by
  refine ⟨_, rfl, ?_⟩
  repeat' first
    | intro _
    | with_reducible assumption
    | decide
    | with_reducible apply MemWf.ite
    | with_reducible apply MemWf.dite
    | with_reducible apply verifyResult_keeps
    | split
    | dsimp only

theorem execRcpClose_keeps (src : Source) (s : State) (h : MemWf s) :
    ∃ t', execRcpClose src s = .next t' ∧ MemWf t' := by
  refine ⟨_, rfl, ?_⟩
  repeat' first
    | intro _
    | with_reducible assumption
    | decide
    | with_reducible apply MemWf.ite
    | with_reducible apply MemWf.dite
    | with_reducible apply rcpRow_keeps
    | with_reducible apply rcpClose_keeps
    | split
    | dsimp only

theorem execRcpSwap_keeps (src : Source) (key : Byte) (same : Bool) (s : State) (h : MemWf s) :
    ∃ t', execRcpSwap src key same s = .next t' ∧ MemWf t' := by
  refine ⟨_, rfl, ?_⟩
  repeat' first
    | intro _
    | with_reducible assumption
    | decide
    | with_reducible apply MemWf.ite
    | with_reducible apply MemWf.dite
    | with_reducible apply rcpRow_keeps
    | with_reducible apply rcpSwap_keeps
    | split
    | dsimp only

theorem execRcpSetActive_keeps (src : Source) (key : Byte) (ok : Bool) (s : State) (h : MemWf s) :
    ∃ t', execRcpSetActive src key ok s = .next t' ∧ MemWf t' := by
  refine ⟨_, rfl, ?_⟩
  repeat' first
    | intro _
    | with_reducible assumption
    | decide
    | with_reducible apply MemWf.ite
    | with_reducible apply MemWf.dite
    | with_reducible apply rcpRow_keeps
    | with_reducible apply rcpSetActive_keeps
    | split
    | dsimp only

theorem execRcpReloadShadow_keeps (src : Source) (ok : Bool) (s : State) (h : MemWf s) :
    ∃ t', execRcpReloadShadow src ok s = .next t' ∧ MemWf t' := by
  refine ⟨_, rfl, ?_⟩
  repeat' first
    | intro _
    | with_reducible assumption
    | decide
    | with_reducible apply MemWf.ite
    | with_reducible apply MemWf.dite
    | with_reducible apply rcpRow_keeps
    | with_reducible apply rcpReload_keeps
    | split
    | dsimp only

theorem execRcpBadOp_keeps (src : Source) (op : Byte) (s : State) (h : MemWf s) :
    ∃ t', execRcpBadOp src op s = .next t' ∧ MemWf t' := by
  refine ⟨_, rfl, ?_⟩
  repeat' first
    | intro _
    | with_reducible assumption
    | decide
    | with_reducible apply MemWf.ite
    | with_reducible apply MemWf.dite
    | with_reducible apply rcpRow_keeps
    | with_reducible apply rcpBadOp_keeps
    | split
    | dsimp only

theorem execRcpBufWrite_keeps (src : Source) (w : BitVec 10) (v : Word) (s : State) (h : MemWf s) :
    ∃ t', execRcpBufWrite src w v s = .next t' ∧ MemWf t' := by
  refine ⟨_, rfl, ?_⟩
  repeat' first
    | intro _
    | with_reducible assumption
    | decide
    | with_reducible apply MemWf.ite
    | with_reducible apply MemWf.dite
    | with_reducible apply bufWrite_keeps
    | split
    | dsimp only

theorem execRcpXferData_keeps (src : Half) (chunk : BitVec 7) (bytes : List Byte) (s : State) (h : MemWf s) :
    ∃ t', execRcpXferData src chunk bytes s = .next t' ∧ MemWf t' := by
  refine ⟨_, rfl, ?_⟩
  repeat' first
    | intro _
    | with_reducible assumption
    | decide
    | with_reducible apply MemWf.ite
    | with_reducible apply MemWf.dite
    | with_reducible apply chunkWrite_keeps
    | split
    | dsimp only

theorem execRcpOwnerTimeout_keeps (s : State) (h : MemWf s) :
    ∃ t', execRcpOwnerTimeout s = .next t' ∧ MemWf t' := by
  refine ⟨_, rfl, ?_⟩
  repeat' first
    | intro _
    | with_reducible assumption
    | decide
    | with_reducible apply MemWf.ite
    | with_reducible apply MemWf.dite
    | with_reducible apply rcpDropWrite_keeps
    | split
    | dsimp only

theorem execSwapAbort_keeps (s : State) (h : MemWf s) :
    ∃ t', execSwapAbort s = .next t' ∧ MemWf t' := by
  refine ⟨_, rfl, ?_⟩
  repeat' first
    | intro _
    | with_reducible assumption
    | decide
    | with_reducible apply MemWf.ite
    | with_reducible apply MemWf.dite
    | with_reducible apply swapAbort_keeps
    | split
    | dsimp only

theorem sectionReload_keeps (sec : Nat) (s : State) (h : MemWf s) :
    MemWf (sectionReload sec s) := by
  unfold sectionReload
  repeat' first
    | intro _
    | with_reducible assumption
    | decide
    | with_reducible apply MemWf.ite
    | with_reducible apply MemWf.dite
    | with_reducible apply MemWf.setRcp
    | with_reducible apply MemWf.set_sys
    | ((with_reducible show RcpWf _); exact (‹MemWf _› : MemWf _).rcp)
    | ((with_reducible show RcpWf _); with_reducible assumption)
    | with_reducible apply RcpWf.setRecipe
    | ((with_reducible show RecipeWf _); refine ⟨?_, ?_⟩)
    | ((with_reducible show RcpWf _); refine ⟨?_, ?_, ?_⟩)
    | ((with_reducible show Memory.wf _ = true); dsimp only)
    | with_reducible apply Memory.wf_memFill
    | with_reducible apply Memory.wf_memPut
    | with_reducible apply Memory.wf_memZero
    | with_reducible apply Memory.wf_memWindow
    | with_reducible apply Memory.wf_memCopyIn
    | with_reducible apply Memory.wf_foldl_memPut
    | with_reducible apply Memory.wf_filter
    | ((with_reducible show Memory.wf _ = true); first | exact rfl | exact (‹RecipeWf _› : RecipeWf _).1 | exact (‹RecipeWf _› : RecipeWf _).2 | exact ((‹RcpWf _› : RcpWf _).1 _).1 | exact ((‹RcpWf _› : RcpWf _).1 _).2 | exact (‹RcpWf _› : RcpWf _).2.1 | exact (‹RcpWf _› : RcpWf _).2.2)
    | exact (‹RcpWf _› : RcpWf _).1
    | split
    | dsimp only

theorem execRecipeSectionReloadDone_keeps (sec : Byte) (s : State) (h : MemWf s) :
    ∃ t', execRecipeSectionReloadDone sec s = .next t' ∧ MemWf t' := by
  refine ⟨_, rfl, ?_⟩
  repeat' first
    | intro _
    | with_reducible assumption
    | decide
    | with_reducible apply MemWf.ite
    | with_reducible apply MemWf.dite
    | with_reducible apply sectionReload_keeps
    | split
    | dsimp only

end Sys2Proof.Machine
end

