-- ==== Sys2Proof/Laws/KeepSwap.lean ====
section
/-! SUPPORT. Swap: the operations of Machine/Swap keep every memory in canonical form. -/
namespace Sys2Proof.Machine

open Sys2Proof

theorem swapLeave_keeps (new : Memory) (s : State) (n : Fin 80) (h : MemWf s) :
    MemWf (swapLeave new s n) := by
  unfold swapLeave
  repeat' first
    | intro _
    | with_reducible assumption
    | decide
    | with_reducible apply MemWf.ite
    | with_reducible apply MemWf.dite
    | with_reducible apply sliceShort_keeps
    | with_reducible apply annRemove_keeps
    | with_reducible apply Only.keeps (State.setCall_only _ _)
    | with_reducible apply Only.keeps (State.setPt_only _ _ _)
    | split
    | dsimp only

theorem swapAo_keeps (old : Memory) (s : State) (c : Fin 4) (h : MemWf s) :
    MemWf (swapAo old s c) := by
  unfold swapAo
  repeat' first
    | intro _
    | with_reducible assumption
    | decide
    | with_reducible apply MemWf.ite
    | with_reducible apply MemWf.dite
    | with_reducible apply aoSwap_keeps
    | with_reducible apply MemWf.setAo
    | ((with_reducible show AoWf _); assumption)
    | with_reducible apply Ao.openNow_wf
    | split
    | dsimp only

theorem swapCells_keeps (old : Memory) (s : State) (h : MemWf s) :
    MemWf (swapCells old s) := by
  unfold swapCells
  repeat' first
    | intro _
    | with_reducible assumption
    | decide
    | with_reducible apply MemWf.ite
    | with_reducible apply MemWf.dite
    | with_reducible apply MemWf.foldl
    | with_reducible apply Only.keeps (uiSwap_only _ _)
    | with_reducible apply swapAo_keeps
    | with_reducible apply Only.keeps (swapDio_only _ _ _)
    | with_reducible apply Only.keeps (psSwap_only _ _)
    | split
    | dsimp only

theorem swapNet_keeps (old : Memory) (s : State) (h : MemWf s) :
    MemWf (swapNet old s) := by
  unfold swapNet
  repeat' first
    | intro _
    | with_reducible assumption
    | decide
    | with_reducible apply MemWf.ite
    | with_reducible apply MemWf.dite
    | with_reducible apply MemWf.foldl
    | with_reducible apply netLoad_keeps
    | with_reducible apply MemWf.setImz
    | ((with_reducible show ImzWf _); assumption)
    | ((with_reducible show ImzWf _); exact (‹MemWf _› : MemWf _).imz)
    | split
    | dsimp only

theorem swapPanel_keeps (had : Bool) (s : State) (h : MemWf s) :
    MemWf (swapPanel had s) := by
  unfold swapPanel
  repeat' first
    | intro _
    | with_reducible assumption
    | decide
    | with_reducible apply MemWf.ite
    | with_reducible apply MemWf.dite
    | with_reducible apply rndFull_keeps
    | with_reducible apply pnlLoad_keeps
    | with_reducible apply pnlCut_keeps
    | split
    | dsimp only

theorem bankChange_keeps (s : State) (h : MemWf s) : MemWf (bankChange s) := by
  have a := (State.drew_only s).keeps (by decide) h
  have g := (a.rcp.setRecipe (i := s.rcp.active) (f := fun r => { r with st := .valid }) Recipe.st_wf).setRecipe
    (i := 1 - s.rcp.active) (f := fun r => { r with st := .active }) Recipe.st_wf
  exact a.set_rcp ⟨g.1, g.2⟩

theorem swapNow_keeps (s : State) (h : MemWf s) :
    MemWf (swapNow s) := by
  unfold swapNow
  repeat' first
    | intro _
    | with_reducible assumption
    | decide
    | with_reducible apply MemWf.ite
    | with_reducible apply MemWf.dite
    | with_reducible apply MemWf.foldl
    | with_reducible apply swapLeave_keeps
    | with_reducible apply bankChange_keeps
    | with_reducible apply noted_keeps
    | with_reducible apply swapCells_keeps
    | with_reducible apply Only.keeps (swapGroups_only _ _)
    | with_reducible apply callSwap_keeps
    | with_reducible apply Only.keeps (swapRec_only _)
    | with_reducible apply swapNet_keeps
    | with_reducible apply Only.keeps (swapEvr_only _)
    | with_reducible apply Only.keeps (ageBounds_only _)
    | with_reducible apply Only.keeps (dozeSync_only _)
    | with_reducible apply swapFinish_keeps
    | with_reducible apply settingsSync_keeps
    | with_reducible apply swapPanel_keeps
    | with_reducible apply MemWf.set_pev
    | with_reducible apply MemWf.set_sys
    | split
    | dsimp only

theorem execSwapBoundary_keeps (s : State) (h : MemWf s) :
    ∃ t', execSwapBoundary s = .next t' ∧ MemWf t' := by
  refine ⟨_, rfl, ?_⟩
  repeat' first
    | intro _
    | with_reducible assumption
    | decide
    | with_reducible apply MemWf.ite
    | with_reducible apply MemWf.dite
    | with_reducible apply swapNow_keeps
    | split
    | dsimp only

end Sys2Proof.Machine
end

