-- ==== Sys2Proof/Laws/KeepCanRx.lean ====
section
/-! SUPPORT. CanRx: the operations of Machine/CanRx keep every memory in canonical form. -/
namespace Sys2Proof.Machine

open Sys2Proof

theorem strangerSeen_keeps (node : Half) (s : State) (h : MemWf s) :
    MemWf (strangerSeen node s) := by
  unfold strangerSeen
  repeat' first
    | intro _
    | with_reducible assumption
    | decide
    | with_reducible apply MemWf.ite
    | with_reducible apply MemWf.dite
    | with_reducible apply MemWf.setImz
    | with_reducible apply Only.keeps (imzEvent_only _ _ _)
    | ((with_reducible show ImzWf _); assumption)
    | ((with_reducible show ImzWf _); exact (‹MemWf _› : MemWf _).imz)
    | split
    | dsimp only

theorem seenAdd_keeps (k : Fin 4) (id : Nat) (d : List Byte) (s : State) (h : MemWf s) :
    MemWf (seenAdd k id d s) := by
  unfold seenAdd
  repeat' first
    | intro _
    | with_reducible assumption
    | decide
    | with_reducible apply MemWf.ite
    | with_reducible apply MemWf.dite
    | with_reducible apply MemWf.setImz
    | ((with_reducible show ImzWf _); assumption)
    | ((with_reducible show ImzWf _); exact (‹MemWf _› : MemWf _).imz)
    | split
    | dsimp only

theorem cmdIntake_keeps (f : ImzRx) (s : State) (h : MemWf s) :
    MemWf (cmdIntake f s) := by
  unfold cmdIntake
  repeat' first
    | intro _
    | with_reducible assumption
    | decide
    | with_reducible apply MemWf.ite
    | with_reducible apply MemWf.dite
    | with_reducible apply imzRelay_keeps
    | with_reducible apply cmdRoute_keeps
    | with_reducible apply imzReply_keeps
    | split
    | dsimp only

theorem xferIntake_keeps (cls typ : Nat) (f : ImzRx) (s : State) (h : MemWf s) :
    MemWf (xferIntake cls typ f s) := by
  unfold xferIntake
  repeat' first
    | intro _
    | with_reducible assumption
    | decide
    | with_reducible apply MemWf.ite
    | with_reducible apply MemWf.dite
    | with_reducible apply imzRelay_keeps
    | with_reducible apply imzRoute_keeps
    | with_reducible apply xferRequest_keeps
    | split
    | dsimp only

theorem imzDone_keeps (k : Fin 4) (s : State) (h : MemWf s) :
    MemWf (imzDone k s) := by
  unfold imzDone
  repeat' first
    | intro _
    | with_reducible assumption
    | decide
    | with_reducible apply MemWf.ite
    | with_reducible apply MemWf.dite
    | with_reducible apply MemWf.setCan
    | ((with_reducible show CanWf _); assumption)
    | split
    | dsimp only

theorem imzAccept_keeps (k : Fin 4) (typ : Nat) (f : ImzRx) (s : State) (h : MemWf s) :
    MemWf (imzAccept k typ f s) := by
  unfold imzAccept
  repeat' first
    | intro _
    | with_reducible assumption
    | decide
    | with_reducible apply MemWf.ite
    | with_reducible apply MemWf.dite
    | with_reducible apply Only.keeps (standbyIntake_only _ _ _)
    | with_reducible apply imzDone_keeps
    | with_reducible apply Only.keeps (unitSeen_only _ _)
    | with_reducible apply memberSeen_keeps
    | with_reducible apply cmdIntake_keeps
    | with_reducible apply xferIntake_keeps
    | split
    | dsimp only

theorem imzIntake_keeps (k : Fin 4) (c : CanFrame) (age : Nat) (s : State) (h : MemWf s) :
    MemWf (imzIntake k c age s) := by
  unfold imzIntake
  repeat' first
    | intro _
    | with_reducible assumption
    | decide
    | with_reducible apply MemWf.ite
    | with_reducible apply MemWf.dite
    | with_reducible apply imzDone_keeps
    | with_reducible apply MemWf.setImz
    | with_reducible apply strangerSeen_keeps
    | with_reducible apply imzAccept_keeps
    | with_reducible apply seenAdd_keeps
    | ((with_reducible show ImzWf _); assumption)
    | ((with_reducible show ImzWf _); exact (‹MemWf _› : MemWf _).imz)
    | split
    | dsimp only

theorem bareFrame_keeps (k : Fin 4) (s : State) (h : MemWf s) :
    MemWf (bareFrame k s) := by
  unfold bareFrame
  repeat' first
    | intro _
    | with_reducible assumption
    | decide
    | with_reducible apply MemWf.ite
    | with_reducible apply MemWf.dite
    | with_reducible apply bareRatesFound_keeps
    | with_reducible apply MemWf.setRcp
    | ((with_reducible show RcpWf _); assumption)
    | ((with_reducible show RecipeWf _); assumption)
    | ((with_reducible show RcpWf _); exact (‹MemWf _› : MemWf _).rcp)
    | ((with_reducible show RcpWf _); with_reducible assumption)
    | with_reducible apply RcpWf.setRecipe
    | split
    | dsimp only

theorem canReceive_keeps (k : Fin 4) (f : CanFrame) (age : Nat) (parity : Bool) (s : State) (h : MemWf s) :
    MemWf (canReceive k f age parity s) := by
  unfold canReceive
  repeat' first
    | intro _
    | with_reducible assumption
    | decide
    | with_reducible apply MemWf.ite
    | with_reducible apply MemWf.dite
    | with_reducible apply bareFrame_keeps
    | with_reducible apply canRecDown_keeps
    | with_reducible apply canAloneEnd_keeps
    | with_reducible apply MemWf.setCan
    | with_reducible apply imzIntake_keeps
    | with_reducible apply canStore_keeps
    | ((with_reducible show CanWf _); assumption)
    | split
    | dsimp only

theorem execCanFrameReceived_keeps (k : Fin 4) (f : CanFrame) (age : Nat) (parity : Bool) (s : State) (h : MemWf s) :
    ∃ t', execCanFrameReceived k f age parity s = .next t' ∧ MemWf t' := by
  refine ⟨_, rfl, ?_⟩
  repeat' first
    | intro _
    | with_reducible assumption
    | decide
    | with_reducible apply MemWf.ite
    | with_reducible apply MemWf.dite
    | with_reducible apply canReceive_keeps
    | split
    | dsimp only

theorem bareErrorOn_keeps (k : Fin 4) (s : State) (h : MemWf s) :
    MemWf (bareErrorOn k s) := by
  unfold bareErrorOn
  repeat' first
    | intro _
    | with_reducible assumption
    | decide
    | with_reducible apply MemWf.ite
    | with_reducible apply MemWf.dite
    | with_reducible apply bareError_keeps
    | split
    | dsimp only

theorem canException_keeps (k : Fin 4) (s : State) (h : MemWf s) :
    MemWf (canException k s) := by
  unfold canException
  repeat' first
    | intro _
    | with_reducible assumption
    | decide
    | with_reducible apply MemWf.ite
    | with_reducible apply MemWf.dite
    | with_reducible apply canState_keeps
    | with_reducible apply MemWf.setCan
    | ((with_reducible show CanWf _); assumption)
    | split
    | dsimp only

theorem canErrored_keeps (k : Fin 4) (field type : BitVec 4) (tx heavy : Bool) (ident : BitVec 29) (s : State) (h : MemWf s) :
    MemWf (canErrored k field type tx heavy ident s) := by
  unfold canErrored
  repeat' first
    | intro _
    | with_reducible assumption
    | decide
    | with_reducible apply MemWf.ite
    | with_reducible apply MemWf.dite
    | with_reducible apply MemWf.setCan
    | with_reducible apply canCount_keeps
    | with_reducible apply bareErrorOn_keeps
    | with_reducible apply imzDataError_keeps
    | ((with_reducible show CanWf _); assumption)
    | split
    | dsimp only

theorem execCanError_keeps (k : Fin 4) (field type : BitVec 4) (tx heavy : Bool) (ident : BitVec 29) (s : State) (h : MemWf s) :
    ∃ t', execCanError k field type tx heavy ident s = .next t' ∧ MemWf t' := by
  refine ⟨_, rfl, ?_⟩
  repeat' first
    | intro _
    | with_reducible assumption
    | decide
    | with_reducible apply MemWf.ite
    | with_reducible apply MemWf.dite
    | with_reducible apply canErrored_keeps
    | with_reducible apply canException_keeps
    | split
    | dsimp only

theorem execCanDominantTimeout_keeps (k : Fin 4) (s : State) (h : MemWf s) :
    ∃ t', execCanDominantTimeout k s = .next t' ∧ MemWf t' := by
  refine ⟨_, rfl, ?_⟩
  repeat' first
    | intro _
    | with_reducible assumption
    | decide
    | with_reducible apply MemWf.ite
    | with_reducible apply MemWf.dite
    | with_reducible apply cellFault_keeps
    | with_reducible apply Only.keeps (canEvent_only _ _ _ _)
    | with_reducible apply canSetMode_keeps
    | with_reducible apply Only.keeps (State.drew_only _)
    | split
    | dsimp only

end Sys2Proof.Machine
end

