-- ==== Sys2Proof/Laws/KeepButtons.lean ====
section
/-! SUPPORT. Buttons: the operations of Machine/Buttons keep every memory in canonical form. -/
namespace Sys2Proof.Machine

open Sys2Proof

theorem buttonAct_keeps (c : Fin 16) (s : State) (h : MemWf s) :
    MemWf (buttonAct c s) := by
  unfold buttonAct
  repeat' first
    | intro _
    | with_reducible assumption
    | decide
    | with_reducible apply MemWf.ite
    | with_reducible apply MemWf.dite
    | with_reducible apply Only.keeps (ackButton_only _ _)
    | with_reducible apply dutySelect_keeps
    | split
    | dsimp only

theorem inputTransition_keeps (c : Fin 16) (level : Bool) (t : Ts) (s : State) (h : MemWf s) :
    MemWf (inputTransition c level t s) := by
  unfold inputTransition
  repeat' first
    | intro _
    | with_reducible assumption
    | decide
    | with_reducible apply MemWf.ite
    | with_reducible apply MemWf.dite
    | with_reducible apply Only.keeps (dioTransition_only _ _ _ _)
    | with_reducible apply buttonAct_keeps
    | split
    | dsimp only

theorem execDioInputTransition_keeps (c : Fin 16) (level : Bool) (at' : Ts) (s : State) (h : MemWf s) :
    ∃ t', execDioInputTransition c level at' s = .next t' ∧ MemWf t' := by
  refine ⟨_, rfl, ?_⟩
  repeat' first
    | intro _
    | with_reducible assumption
    | decide
    | with_reducible apply MemWf.ite
    | with_reducible apply MemWf.dite
    | with_reducible apply inputTransition_keeps
    | split
    | dsimp only

end Sys2Proof.Machine
end

