-- ==== Sys2Proof/Laws/KeepBus.lean ====
section
/-! SUPPORT. Bus: the operations of Machine/Bus keep every memory in canonical form. -/
namespace Sys2Proof.Machine

open Sys2Proof

theorem clearCan_keeps (k : Fin 4) (off : Nat) (s : State) (h : MemWf s) :
    MemWf (clearCan k off s) := by
  unfold clearCan
  repeat' first
    | intro _
    | with_reducible assumption
    | decide
    | with_reducible apply MemWf.ite
    | with_reducible apply MemWf.dite
    | with_reducible apply MemWf.setCan
    | ((with_reducible show CanWf _); assumption)
    | split
    | dsimp only

theorem rcClear_keeps (a : Nat) (s : State) (h : MemWf s) :
    MemWf (rcClear a s) := by
  unfold rcClear
  split
  all_goals first
    | exact h.set_sys
    | exact h.set_pev
    | exact (clearPortCounts_only _ _).keeps (by decide) h
    | exact (clearHostCounts_only _ _).keeps (by decide) h
    | exact (State.setAge_only _ _).keeps (by decide) h
    | exact (State.setAnn_only _ _).keeps (by decide) h
    | exact (State.setGrps_only _ _).keeps (by decide) h
    | exact (State.setCall_only _ _).keeps (by decide) h
    | exact h.setImz fun g => g
    | exact (State.setTim_only _ _).keeps (by decide) h
    | exact (State.setLvn_only _ _).keeps (by decide) h
    | exact (State.setRec_only _ _).keeps (by decide) h
    | exact h.setMmc fun g => g
    | exact h.setPnl fun g => g
    | exact MemWf.dite (fun _ => clearCan_keeps _ _ _ h) (fun _ => h)

theorem busFetch_keeps (a : Nat) (s : State) (h : MemWf s) :
    MemWf (busFetch a s).2.2 := by
  unfold busFetch
  repeat' first
    | intro _
    | with_reducible assumption
    | decide
    | with_reducible apply MemWf.ite
    | with_reducible apply MemWf.dite
    | with_reducible apply MemWf.iteSnd2
    | with_reducible apply Only.keeps (clearIdle_only _ _)
    | with_reducible apply Only.keeps (evrClaim_only _ _)
    | with_reducible apply Only.keeps (latchHi_only _ _)
    | with_reducible apply rcClear_keeps
    | split
    | dsimp only

theorem commandReset_keeps (s : State) (r : Fin 5) (h : MemWf s) :
    MemWf (commandReset s r) := by
  unfold commandReset
  repeat' first
    | intro _
    | with_reducible assumption
    | decide
    | with_reducible apply MemWf.ite
    | with_reducible apply MemWf.dite
    | with_reducible apply regionReset_keeps
    | split
    | dsimp only

theorem holdRegion_keeps (mask : BitVec 5) (s : State) (r : Fin 5) (h : MemWf s) :
    MemWf (holdRegion mask s r) := by
  unfold holdRegion
  repeat' first
    | intro _
    | with_reducible assumption
    | decide
    | with_reducible apply MemWf.ite
    | with_reducible apply MemWf.dite
    | with_reducible apply Only.keeps (State.setRegion_only _ _ _)
    | with_reducible apply commandReset_keeps
    | split
    | dsimp only

theorem rgnRst_keeps (src : Source) (hold reset : BitVec 5) (s : State) (h : MemWf s) :
    MemWf (rgnRst src hold reset s).2 := by
  unfold rgnRst
  repeat' first
    | intro _
    | with_reducible assumption
    | decide
    | with_reducible apply MemWf.ite
    | with_reducible apply MemWf.dite
    | with_reducible apply MemWf.iteSnd
    | with_reducible apply MemWf.foldl
    | with_reducible apply Only.keeps (logWerr_only _ _ _ _)
    | with_reducible apply holdRegion_keeps
    | with_reducible apply commandReset_keeps
    | split
    | dsimp only

theorem pwrWrite_keeps (src : Source) (v : Word) (s : State) (h : MemWf s) :
    MemWf (pwrWrite src v s) := by
  unfold pwrWrite
  repeat' first
    | intro _
    | with_reducible assumption
    | decide
    | with_reducible apply MemWf.ite
    | with_reducible apply MemWf.dite
    | with_reducible apply Only.keeps (dozeEnable_only _ _)
    | with_reducible apply Only.keeps (dormantAsk_only _ _)
    | with_reducible apply wakeCmd_keeps
    | split
    | dsimp only

theorem sysWrite_keeps (src : Source) (a : Nat) (v : Word) (s : State) (h : MemWf s) :
    MemWf (sysWrite src a v s).2 := by
  unfold sysWrite
  split
  · exact (watchWrite_only _ _ _ _).keeps (by decide) h
  · split
    · exact rgnRst_keeps _ _ _ _ h
    · exact pwrWrite_keeps _ _ _ h
    · exact MemWf.ite h.set_sys h
    · exact (roWrite_only _ _).keeps (by decide) h

theorem freeLoop_keeps (f : Bool → State → State) (s : State) (hf : ∀ b u, MemWf u → MemWf (f b u)) (h : MemWf s) :
    MemWf (freeLoop f s) := by
  unfold freeLoop
  repeat' first
    | intro _
    | with_reducible assumption
    | decide
    | with_reducible apply hf
    | with_reducible apply MemWf.ite
    | with_reducible apply MemWf.dite
    | with_reducible apply Only.keeps (State.drew_only _)
    | split
    | dsimp only

theorem onBit_keeps (v : Word) (i : Nat) (f : State → State) (s : State) (hf : ∀ u, MemWf u → MemWf (f u)) (h : MemWf s) :
    MemWf (onBit v i f s) := by
  unfold onBit
  repeat' first
    | intro _
    | with_reducible assumption
    | decide
    | with_reducible apply hf
    | with_reducible apply MemWf.ite
    | with_reducible apply MemWf.dite
    | split
    | dsimp only

theorem aoCfgWrite_keeps (src : Source) (c : Fin 4) (i : Fin 5) (v : Word) (s : State) (h : MemWf s) :
    MemWf (aoCfgWrite src c i v s).2 := by
  unfold aoCfgWrite
  repeat' first
    | intro _
    | with_reducible assumption
    | decide
    | with_reducible apply MemWf.ite
    | with_reducible apply MemWf.dite
    | with_reducible apply MemWf.iteSnd
    | with_reducible apply Only.keeps (logWerr_only _ _ _ _)
    | with_reducible apply MemWf.setAo
    | ((with_reducible show AoWf _); assumption)
    | split
    | dsimp only

theorem aoCmdWrite_keeps (src : Source) (c : Fin 4) (v : Word) (s : State) (h : MemWf s) :
    MemWf (aoCmdWrite src c v s) := by
  unfold aoCmdWrite
  repeat' first
    | intro _
    | with_reducible assumption
    | decide
    | with_reducible apply MemWf.ite
    | with_reducible apply MemWf.dite
    | with_reducible apply onBit_keeps
    | with_reducible apply aoRestart_keeps
    | with_reducible apply settingsSync_keeps
    | with_reducible apply aoTrimApply_keeps
    | with_reducible apply aoTrimClear_keeps
    | with_reducible apply aoHartTx_keeps
    | with_reducible apply Only.keeps (aoCrust_only _ _ _)
    | with_reducible apply Only.keeps (State.drew_only _)
    | split
    | dsimp only

theorem aoWrite_keeps (src : Source) (c : Fin 4) (a : Nat) (v : Word) (s : State) (h : MemWf s) :
    MemWf (aoWrite src c a v s).2 := by
  unfold aoWrite
  repeat' first
    | intro _
    | with_reducible assumption
    | decide
    | with_reducible apply MemWf.ite
    | with_reducible apply MemWf.dite
    | with_reducible apply MemWf.iteSnd
    | with_reducible apply aoCfgWrite_keeps
    | with_reducible apply MemWf.setAo
    | with_reducible apply aoCmdWrite_keeps
    | with_reducible apply aoBlkWrite_keeps
    | with_reducible apply Only.keeps (readmitCells_only _ _ _)
    | with_reducible apply Only.keeps (roWrite_only _ _)
    | ((with_reducible show AoWf _); refine ⟨?_, ?_⟩)
    | ((with_reducible show Memory.wf _ = true); dsimp only)
    | with_reducible apply Memory.wf_memFill
    | with_reducible apply Memory.wf_memPut
    | with_reducible apply Memory.wf_memZero
    | with_reducible apply Memory.wf_memWindow
    | with_reducible apply Memory.wf_memCopyIn
    | with_reducible apply Memory.wf_foldl_memPut
    | with_reducible apply Memory.wf_filter
    | ((with_reducible show Memory.wf _ = true); first | exact rfl | exact (‹AoWf _› : AoWf _).1 | exact (‹AoWf _› : AoWf _).2)
    | split
    | dsimp only

theorem dioCmdWrite_keeps (src : Source) (c : Fin 16) (v : Word) (s : State) (h : MemWf s) :
    MemWf (dioCmdWrite src c v s) := by
  unfold dioCmdWrite
  repeat' first
    | intro _
    | with_reducible assumption
    | decide
    | with_reducible apply MemWf.ite
    | with_reducible apply MemWf.dite
    | with_reducible apply onBit_keeps
    | with_reducible apply dioCmd_keeps
    | with_reducible apply Only.keeps (dioRetry_only _ _)
    | with_reducible apply Only.keeps (State.setDio_only _ _ _)
    | with_reducible apply settingsSync_keeps
    | with_reducible apply freeLoop_keeps
    | with_reducible apply Only.keeps (dioCrust_only _ _ _)
    | with_reducible apply Only.keeps (dioLoop_only _ _ _ _)
    | split
    | dsimp only

theorem dioWrite_keeps (src : Source) (c : Fin 16) (a : Nat) (v : Word) (s : State) (h : MemWf s) :
    MemWf (dioWrite src c a v s).2 := by
  unfold dioWrite
  repeat' first
    | intro _
    | with_reducible assumption
    | decide
    | with_reducible apply MemWf.ite
    | with_reducible apply MemWf.dite
    | with_reducible apply MemWf.iteSnd
    | with_reducible apply Only.keeps (dioCfgWrite_only _ _ _ _ _)
    | with_reducible apply Only.keeps (dioSetWrite_only _ _ _)
    | with_reducible apply Only.keeps (State.setDio_only _ _ _)
    | with_reducible apply dioCmdWrite_keeps
    | with_reducible apply Only.keeps (roWrite_only _ _)
    | split
    | dsimp only

theorem acqWrite_keeps (src : Source) (a : Nat) (v : Word) (s : State) (h : MemWf s) :
    MemWf (acqWrite src a v s).2 := by
  unfold acqWrite
  repeat' first
    | intro _
    | with_reducible assumption
    | decide
    | with_reducible apply MemWf.ite
    | with_reducible apply MemWf.dite
    | with_reducible apply MemWf.iteSnd
    | with_reducible apply Only.keeps (uiWrite_only _ _ _ _ _)
    | with_reducible apply aoWrite_keeps
    | with_reducible apply dioWrite_keeps
    | with_reducible apply Only.keeps (dioCommonWrite_only _ _ _)
    | with_reducible apply Only.keeps (psWrite_only _ _ _ _ _)
    | with_reducible apply Only.keeps (psCommonWrite_only _ _ _)
    | split
    | dsimp only

theorem canWrite_keeps (src : Source) (k : Fin 4) (a : Nat) (v : Word) (s : State) (h : MemWf s) :
    MemWf (canWrite src k a v s).2 := by
  unfold canWrite
  extract_lets imz
  split
  · exact h
  split
  · exact canCtlWrite_keeps _ _ _ _ h
  · exact canTimeWrite_keeps _ _ _ _ _ h
  · exact canTimeWrite_keeps _ _ _ _ _ h
  · exact canTimeWrite_keeps _ _ _ _ _ h
  · exact MemWf.ite (h.setCan fun g => g) h
  · exact canTxReq_keeps _ _ _ _ h
  · exact canTxAbort_keeps _ _ _ _ _ ((State.drew_only _).keeps (by decide) h)
  · dsimp only
    exact h.setCan fun g => g
  · dsimp only
    exact h.setCan fun g => g
  · exact (roWrite_only _ _).keeps (by decide) h

theorem lnkWrite_keeps (src : Source) (a : Nat) (v : Word) (s : State) (h : MemWf s) :
    MemWf (lnkWrite src a v s).2 := by
  unfold lnkWrite
  repeat' first
    | intro _
    | with_reducible assumption
    | decide
    | with_reducible apply MemWf.ite
    | with_reducible apply MemWf.dite
    | with_reducible apply MemWf.iteSnd
    | with_reducible apply canWrite_keeps
    | with_reducible apply Only.keeps (State.setTim_only _ _)
    | with_reducible apply onBit_keeps
    | with_reducible apply timCmd_keeps
    | with_reducible apply Only.keeps (State.setLvn_only _ _)
    | with_reducible apply Only.keeps (presFault_only _)
    | with_reducible apply Only.keeps (lvnCtlWrite_only _ _ _)
    | with_reducible apply Only.keeps (roWrite_only _ _)
    | split
    | dsimp only

theorem recCtlWrite_keeps (src : Source) (v : Word) (s : State) (h : MemWf s) :
    MemWf (recCtlWrite src v s) := by
  unfold recCtlWrite
  repeat' first
    | intro _
    | with_reducible assumption
    | decide
    | with_reducible apply MemWf.ite
    | with_reducible apply MemWf.dite
    | with_reducible apply onBit_keeps
    | with_reducible apply flushPages_keeps
    | with_reducible apply recStop_keeps
    | with_reducible apply recFormatCmd_keeps
    | split
    | dsimp only

theorem kepWrite_keeps (src : Source) (a : Nat) (v : Word) (s : State) (h : MemWf s) :
    MemWf (kepWrite src a v s).2 := by
  unfold kepWrite
  repeat' first
    | intro _
    | with_reducible assumption
    | decide
    | with_reducible apply MemWf.ite
    | with_reducible apply MemWf.dite
    | with_reducible apply MemWf.iteSnd
    | with_reducible apply bufWrite_keeps
    | with_reducible apply recCtlWrite_keeps
    | with_reducible apply Only.keeps (recRdWrite_only _ _ _)
    | with_reducible apply Only.keeps (State.setRec_only _ _)
    | with_reducible apply rcpCmd_keeps
    | with_reducible apply Only.keeps (roWrite_only _ _)
    | split
    | dsimp only

theorem fceWrite_keeps (src : Source) (a : Nat) (v : Word) (s : State) (h : MemWf s) :
    MemWf (fceWrite src a v s).2 := by
  unfold fceWrite
  repeat' first
    | intro _
    | with_reducible assumption
    | decide
    | with_reducible apply MemWf.ite
    | with_reducible apply MemWf.dite
    | with_reducible apply MemWf.iteSnd
    | with_reducible apply MemWf.setPnl
    | with_reducible apply updCmd_keeps
    | with_reducible apply onBit_keeps
    | with_reducible apply pnlRefresh_keeps
    | with_reducible apply inPnl_keeps
    | with_reducible apply pnlLeaveFault_keeps
    | with_reducible apply Only.keeps (rndCtlWrite_only _ _ _ _)
    | with_reducible apply rndKeyWrite_keeps
    | with_reducible apply Only.keeps (roWrite_only _ _)
    | ((with_reducible show PnlWf _); assumption)
    | ((with_reducible show PnlWf _); exact (‹MemWf _› : MemWf _).pnl)
    | split
    | dsimp only

theorem ageCmdWrite_keeps (src : Source) (v : Word) (s : State) (h : MemWf s) :
    MemWf (ageCmdWrite src v s) := by
  unfold ageCmdWrite
  repeat' first
    | intro _
    | with_reducible assumption
    | decide
    | with_reducible apply MemWf.ite
    | with_reducible apply MemWf.dite
    | with_reducible apply ageCmd_keeps
    | with_reducible apply Only.keeps (ageAck_only _ _)
    | with_reducible apply Only.keeps (ageRebase_only _ _)
    | with_reducible apply ageTake_keeps
    | with_reducible apply Only.keeps (State.drew_only _)
    | with_reducible apply Only.keeps (logWerr_only _ _ _ _)
    | split
    | dsimp only

theorem supWrite_keeps (src : Source) (a : Nat) (v : Word) (s : State) (h : MemWf s) :
    MemWf (supWrite src a v s).2 := by
  unfold supWrite
  repeat' first
    | intro _
    | with_reducible assumption
    | decide
    | with_reducible apply MemWf.ite
    | with_reducible apply MemWf.dite
    | with_reducible apply MemWf.iteSnd
    | with_reducible apply Only.keeps (recordWrite_only _ _ _)
    | with_reducible apply ageCmdWrite_keeps
    | with_reducible apply Only.keeps (fieldStart_only _ _ _)
    | with_reducible apply Only.keeps (roWrite_only _ _)
    | split
    | dsimp only

theorem windowWrite_keeps (src : Source) (a : Nat) (v : Word) (s : State) (h : MemWf s) :
    MemWf (windowWrite src a v s).2 := by
  unfold windowWrite
  repeat' first
    | intro _
    | with_reducible assumption
    | decide
    | with_reducible apply MemWf.ite
    | with_reducible apply MemWf.dite
    | with_reducible apply MemWf.iteSnd
    | with_reducible apply Only.keeps (logWerr_only _ _ _ _)
    | with_reducible apply Only.keeps (recordWrite_only _ _ _)
    | with_reducible apply fbWrite_keeps
    | with_reducible apply canRamWrite_keeps
    | split
    | dsimp only

theorem regWrite_keeps (src : Source) (a : Nat) (v : Word) (s : State) (h : MemWf s) :
    MemWf (regWrite src a v s).2 := by
  unfold regWrite
  repeat' first
    | intro _
    | with_reducible assumption
    | decide
    | with_reducible apply MemWf.ite
    | with_reducible apply MemWf.dite
    | with_reducible apply MemWf.iteSnd
    | with_reducible apply sysWrite_keeps
    | with_reducible apply Only.keeps (evrWrite_only _ _ _ _)
    | with_reducible apply acqWrite_keeps
    | with_reducible apply Only.keeps (almWrite_only _ _ _ _)
    | with_reducible apply lnkWrite_keeps
    | with_reducible apply kepWrite_keeps
    | with_reducible apply Only.keeps (hpWrite_only _ _ _ _)
    | with_reducible apply fceWrite_keeps
    | with_reducible apply supWrite_keeps
    | with_reducible apply windowWrite_keeps
    | split
    | dsimp only

theorem busWrite_keeps (src : Source) (a : Nat) (v : Word) (s : State) (h : MemWf s) :
    MemWf (busWrite src a v s).2 := by
  unfold busWrite
  repeat' first
    | intro _
    | with_reducible assumption
    | decide
    | with_reducible apply MemWf.ite
    | with_reducible apply MemWf.dite
    | with_reducible apply MemWf.iteSnd
    | with_reducible apply regWrite_keeps
    | with_reducible apply Only.keeps (oneWerr_only _ _)
    | split
    | dsimp only

theorem execRegisterWrite_keeps (src : Source) (addr : BitVec 24) (v : Word) (s : State) (h : MemWf s) :
    ∃ t', execRegisterWrite src addr v s = .next t' ∧ MemWf t' := by
  refine ⟨_, rfl, ?_⟩
  repeat' first
    | intro _
    | with_reducible assumption
    | decide
    | with_reducible apply MemWf.ite
    | with_reducible apply MemWf.dite
    | with_reducible apply busWrite_keeps
    | split
    | dsimp only

theorem readNow_keeps (a : Nat) (s : State) (h : MemWf s) :
    MemWf (readNow a s) := by
  unfold readNow
  repeat' first
    | intro _
    | with_reducible assumption
    | decide
    | with_reducible apply MemWf.ite
    | with_reducible apply MemWf.dite
    | with_reducible apply busFetch_keeps
    | with_reducible apply MemWf.set_sys
    | split
    | dsimp only

theorem execReadClear_keeps (addr : BitVec 24) (s : State) (h : MemWf s) :
    ∃ t', execReadClear addr s = .next t' ∧ MemWf t' := by
  refine ⟨_, rfl, ?_⟩
  repeat' first
    | intro _
    | with_reducible assumption
    | decide
    | with_reducible apply MemWf.ite
    | with_reducible apply MemWf.dite
    | with_reducible apply readNow_keeps
    | split
    | dsimp only

theorem execTimeLoRead_keeps (addr : BitVec 24) (s : State) (h : MemWf s) :
    ∃ t', execTimeLoRead addr s = .next t' ∧ MemWf t' := by
  refine ⟨_, rfl, ?_⟩
  repeat' first
    | intro _
    | with_reducible assumption
    | decide
    | with_reducible apply MemWf.ite
    | with_reducible apply MemWf.dite
    | with_reducible apply readNow_keeps
    | split
    | dsimp only

end Sys2Proof.Machine
end

