-- ==== Sys2Proof/Laws/KeepCmd.lean ====
section
/-! SUPPORT. Cmd: the operations of Machine/Cmd keep every memory in canonical form. -/
namespace Sys2Proof.Machine

open Sys2Proof

theorem cmdTake_keeps (f : ImzRx) (s : State) (h : MemWf s) :
    MemWf (cmdTake f s) := by
  unfold cmdTake
  repeat' first
    | intro _
    | with_reducible assumption
    | decide
    | with_reducible apply MemWf.ite
    | with_reducible apply MemWf.dite
    | with_reducible apply Only.keeps (State.setLvn_only _ _)
    | with_reducible apply MemWf.setImz
    | ((with_reducible show ImzWf _); assumption)
    | ((with_reducible show ImzWf _); exact (‹MemWf _› : MemWf _).imz)
    | split
    | dsimp only

theorem cmdRefuse_keeps (f : ImzRx) (result detail : Nat) (s : State) (h : MemWf s) :
    MemWf (cmdRefuse f result detail s) := by
  unfold cmdRefuse
  repeat' first
    | intro _
    | with_reducible assumption
    | decide
    | with_reducible apply MemWf.ite
    | with_reducible apply MemWf.dite
    | with_reducible apply imzReply_keeps
    | with_reducible apply MemWf.setImz
    | ((with_reducible show ImzWf _); assumption)
    | ((with_reducible show ImzWf _); exact (‹MemWf _› : MemWf _).imz)
    | split
    | dsimp only

theorem cmdBody_keeps (op : Nat) (f : ImzRx) (act : State → State) (s : State) (hf : ∀ u, MemWf u → MemWf (act u)) (h : MemWf s) :
    MemWf (cmdBody op f act s) := by
  unfold cmdBody
  repeat' first
    | intro _
    | with_reducible assumption
    | decide
    | with_reducible apply hf
    | with_reducible apply MemWf.ite
    | with_reducible apply MemWf.dite
    | with_reducible apply imzToward_keeps
    | with_reducible apply cmdTake_keeps
    | split
    | dsimp only

theorem cmdFor_keeps (op : Nat) (f : ImzRx) (act : State → State) (s : State) (hf : ∀ u, MemWf u → MemWf (act u)) (h : MemWf s) :
    MemWf (cmdFor op f act s) := by
  unfold cmdFor
  repeat' first
    | intro _
    | with_reducible assumption
    | decide
    | with_reducible apply hf
    | with_reducible apply MemWf.ite
    | with_reducible apply MemWf.dite
    | with_reducible apply imzRx_keeps
    | with_reducible apply cmdBody_keeps
    | split
    | dsimp only

theorem fetchWords_keeps (l : List Nat) (s : State) (h : MemWf s) : MemWf (fetchWords l s).2 := by
  induction l generalizing s with
  | nil => exact h
  | cons a l ih => exact ih _ (busFetch_keeps _ _ h)

theorem storeWords_keeps (src : Source) (l : List (Nat × Word)) (s : State) (h : MemWf s) :
    MemWf (storeWords src l s).2 := by
  induction l generalizing s with
  | nil => exact h
  | cons p l ih => exact ih _ (busWrite_keeps _ _ _ _ h)

theorem cmdRegRead_keeps (f : ImzRx) (s : State) (h : MemWf s) :
    MemWf (cmdRegRead f s) := by
  unfold cmdRegRead
  repeat' first
    | intro _
    | with_reducible assumption
    | decide
    | with_reducible apply MemWf.ite
    | with_reducible apply MemWf.dite
    | with_reducible apply cmdRefuse_keeps
    | with_reducible apply fetchWords_keeps
    | with_reducible apply imzReply_keeps
    | split
    | dsimp only

theorem cmdRegWrite_keeps (f : ImzRx) (s : State) (h : MemWf s) :
    MemWf (cmdRegWrite f s) := by
  unfold cmdRegWrite
  repeat' first
    | intro _
    | with_reducible assumption
    | decide
    | with_reducible apply MemWf.ite
    | with_reducible apply MemWf.dite
    | with_reducible apply cmdRefuse_keeps
    | with_reducible apply storeWords_keeps
    | with_reducible apply imzReply_keeps
    | split
    | dsimp only

theorem cmdAlarm_keeps (replay : Bool) (f : ImzRx) (s : State) (h : MemWf s) :
    MemWf (cmdAlarm replay f s) := by
  unfold cmdAlarm
  repeat' first
    | intro _
    | with_reducible assumption
    | decide
    | with_reducible apply MemWf.ite
    | with_reducible apply MemWf.dite
    | with_reducible apply cmdRefuse_keeps
    | with_reducible apply Only.keeps (annSubmit_only _ _)
    | split
    | dsimp only

theorem cmdPoint_keeps (replay : Bool) (f : ImzRx) (run : PtCmd → State → Nat × State) (s : State) (hf : ∀ c u, MemWf u → MemWf (run c u).2) (h : MemWf s) :
    MemWf (cmdPoint replay f run s) := by
  unfold cmdPoint
  repeat' first
    | intro _
    | with_reducible assumption
    | decide
    | with_reducible apply hf
    | with_reducible apply MemWf.ite
    | with_reducible apply MemWf.dite
    | with_reducible apply cmdRefuse_keeps
    | split
    | dsimp only

theorem cmdDuty_keeps (replay : Bool) (f : ImzRx) (s : State) (h : MemWf s) :
    MemWf (cmdDuty replay f s) := by
  unfold cmdDuty
  repeat' first
    | intro _
    | with_reducible assumption
    | decide
    | with_reducible apply MemWf.ite
    | with_reducible apply MemWf.dite
    | with_reducible apply Only.keeps (callPush_only _ _)
    | with_reducible apply cmdRefuse_keeps
    | split
    | dsimp only

theorem cmdStateReq_keeps (f : ImzRx) (s : State) (h : MemWf s) :
    MemWf (cmdStateReq f s) := by
  unfold cmdStateReq
  repeat' first
    | intro _
    | with_reducible assumption
    | decide
    | with_reducible apply MemWf.ite
    | with_reducible apply MemWf.dite
    | with_reducible apply imzStateReport_keeps
    | with_reducible apply imzReply_keeps
    | split
    | dsimp only

theorem cmdTimeSet_keeps (f : ImzRx) (s : State) (h : MemWf s) :
    MemWf (cmdTimeSet f s) := by
  unfold cmdTimeSet
  repeat' first
    | intro _
    | with_reducible assumption
    | decide
    | with_reducible apply MemWf.ite
    | with_reducible apply MemWf.dite
    | with_reducible apply Only.keeps (timSetAtPulse_only _ _)
    | with_reducible apply timSet_keeps
    | with_reducible apply imzReply_keeps
    | with_reducible apply cmdRefuse_keeps
    | split
    | dsimp only

theorem cmdConflict_keeps (f : ImzRx) (s : State) (h : MemWf s) :
    MemWf (cmdConflict f s) := by
  unfold cmdConflict
  repeat' first
    | intro _
    | with_reducible assumption
    | decide
    | with_reducible apply MemWf.ite
    | with_reducible apply MemWf.dite
    | with_reducible apply enterConflict_keeps
    | with_reducible apply imzTook_keeps
    | split
    | dsimp only

theorem execCmdRegRead_keeps (f : ImzRx) (s : State) (h : MemWf s) :
    ∃ t', execCmdRegRead f s = .next t' ∧ MemWf t' := by
  refine ⟨_, rfl, ?_⟩
  repeat' first
    | intro _
    | with_reducible assumption
    | decide
    | with_reducible apply MemWf.ite
    | with_reducible apply MemWf.dite
    | with_reducible apply cmdFor_keeps
    | with_reducible apply cmdRegRead_keeps
    | split
    | dsimp only

theorem execCmdRegWrite_keeps (f : ImzRx) (s : State) (h : MemWf s) :
    ∃ t', execCmdRegWrite f s = .next t' ∧ MemWf t' := by
  refine ⟨_, rfl, ?_⟩
  repeat' first
    | intro _
    | with_reducible assumption
    | decide
    | with_reducible apply MemWf.ite
    | with_reducible apply MemWf.dite
    | with_reducible apply cmdFor_keeps
    | with_reducible apply cmdRegWrite_keeps
    | split
    | dsimp only

theorem execCmdAlarm_keeps (f : ImzRx) (s : State) (h : MemWf s) :
    ∃ t', execCmdAlarm f s = .next t' ∧ MemWf t' := by
  refine ⟨_, rfl, ?_⟩
  repeat' first
    | intro _
    | with_reducible assumption
    | decide
    | with_reducible apply MemWf.ite
    | with_reducible apply MemWf.dite
    | with_reducible apply cmdFor_keeps
    | with_reducible apply cmdAlarm_keeps
    | split
    | dsimp only

theorem execCmdPoint_keeps (f : ImzRx) (s : State) (h : MemWf s) :
    ∃ t', execCmdPoint f s = .next t' ∧ MemWf t' := by
  refine ⟨_, rfl, ?_⟩
  repeat' first
    | intro _
    | with_reducible assumption
    | decide
    | with_reducible apply MemWf.ite
    | with_reducible apply MemWf.dite
    | with_reducible apply cmdFor_keeps
    | with_reducible apply cmdPoint_keeps
    | with_reducible apply Only.keeps (ptTake_only _ _)
    | split
    | dsimp only

theorem execCmdDuty_keeps (f : ImzRx) (s : State) (h : MemWf s) :
    ∃ t', execCmdDuty f s = .next t' ∧ MemWf t' := by
  refine ⟨_, rfl, ?_⟩
  repeat' first
    | intro _
    | with_reducible assumption
    | decide
    | with_reducible apply MemWf.ite
    | with_reducible apply MemWf.dite
    | with_reducible apply cmdFor_keeps
    | with_reducible apply cmdDuty_keeps
    | split
    | dsimp only

theorem execCmdStateReq_keeps (f : ImzRx) (s : State) (h : MemWf s) :
    ∃ t', execCmdStateReq f s = .next t' ∧ MemWf t' := by
  refine ⟨_, rfl, ?_⟩
  repeat' first
    | intro _
    | with_reducible assumption
    | decide
    | with_reducible apply MemWf.ite
    | with_reducible apply MemWf.dite
    | with_reducible apply cmdFor_keeps
    | with_reducible apply cmdStateReq_keeps
    | split
    | dsimp only

theorem execCmdTimeSet_keeps (f : ImzRx) (s : State) (h : MemWf s) :
    ∃ t', execCmdTimeSet f s = .next t' ∧ MemWf t' := by
  refine ⟨_, rfl, ?_⟩
  repeat' first
    | intro _
    | with_reducible assumption
    | decide
    | with_reducible apply MemWf.ite
    | with_reducible apply MemWf.dite
    | with_reducible apply cmdFor_keeps
    | with_reducible apply cmdTimeSet_keeps
    | split
    | dsimp only

theorem execCmdConflict_keeps (f : ImzRx) (s : State) (h : MemWf s) :
    ∃ t', execCmdConflict f s = .next t' ∧ MemWf t' := by
  refine ⟨_, rfl, ?_⟩
  repeat' first
    | intro _
    | with_reducible assumption
    | decide
    | with_reducible apply MemWf.ite
    | with_reducible apply MemWf.dite
    | with_reducible apply cmdConflict_keeps
    | split
    | dsimp only

end Sys2Proof.Machine
end

