-- ==== Sys2Proof/Laws/KeepHostPort.lean ====
section
/-! SUPPORT. HostPort: the operations of Machine/HostPort keep every memory in canonical form. -/
namespace Sys2Proof.Machine

open Sys2Proof

theorem hostStore_keeps (p : Fin 2) (l : List (Nat × Word)) (s : State) (h : MemWf s) : MemWf (hostStore p l s).2 := by
  induction l generalizing s with
  | nil => exact h
  | cons q l ih =>
    unfold hostStore
    split
    · exact h
    · exact ih _ (busWrite_keeps _ _ _ _ h)

theorem hostApply_keeps (h : Fin 2) (s : State) (k : MemWf s) :
    MemWf (hostApply h s) := by
  unfold hostApply
  repeat' first
    | intro _
    | with_reducible assumption
    | decide
    | with_reducible apply MemWf.ite
    | with_reducible apply MemWf.dite
    | with_reducible apply hostStore_keeps
    | with_reducible apply Only.keeps (lastWrite_only _ _ _ _ _ _ _)
    | with_reducible apply Only.keeps (countAbsent_only _ _ _)
    | with_reducible apply Only.keeps (State.setHp_only _ _ _)
    | split
    | dsimp only

theorem fetchLater_keeps (l : List Nat) (s : State) (h : MemWf s) : MemWf (fetchLater l s).2 := by
  induction l generalizing s with
  | nil => exact h
  | cons a l ih =>
    unfold fetchLater
    refine ih _ ?_
    split
    · exact busFetch_keeps _ _ h
    · exact h

theorem hostFetch_keeps (a n : Nat) (s : State) (h : MemWf s) :
    MemWf (hostFetch a n s).2 := by
  unfold hostFetch
  repeat' first
    | intro _
    | with_reducible assumption
    | decide
    | with_reducible apply MemWf.ite
    | with_reducible apply MemWf.dite
    | with_reducible apply MemWf.iteSnd
    | with_reducible apply busFetch_keeps
    | with_reducible apply fetchLater_keeps
    | split
    | dsimp only

theorem hostRead_keeps (h : Fin 2) (b : List Byte) (s0 : State) (k : MemWf s0) :
    MemWf (hostRead h b s0) := by
  unfold hostRead
  repeat' first
    | intro _
    | with_reducible assumption
    | decide
    | with_reducible apply MemWf.ite
    | with_reducible apply MemWf.dite
    | with_reducible apply hostApply_keeps
    | with_reducible apply Only.keeps (countAbsent_only _ _ _)
    | with_reducible apply Only.keeps (State.setHp_only _ _ _)
    | with_reducible apply hostFetch_keeps
    | split
    | dsimp only

theorem hostTransact_keeps (h : Fin 2) (mode3 : Bool) (b : List Byte) (s : State) (k : MemWf s) :
    MemWf (hostTransact h mode3 b s) := by
  unfold hostTransact
  repeat' first
    | intro _
    | with_reducible assumption
    | decide
    | with_reducible apply MemWf.ite
    | with_reducible apply MemWf.dite
    | with_reducible apply Only.keeps (hostSelect_only _ _ _)
    | with_reducible apply Only.keeps (hostWrite_only _ _ _)
    | with_reducible apply Only.keeps (hostDone_only _ _)
    | with_reducible apply hostRead_keeps
    | split
    | dsimp only

theorem execHostRead_keeps (h : Fin 2) (mode3 : Bool) (header : List Byte) (s : State) (k : MemWf s) :
    ∃ t', execHostRead h mode3 header s = .next t' ∧ MemWf t' := by
  refine ⟨_, rfl, ?_⟩
  repeat' first
    | intro _
    | with_reducible assumption
    | decide
    | with_reducible apply MemWf.ite
    | with_reducible apply MemWf.dite
    | with_reducible apply hostTransact_keeps
    | split
    | dsimp only

theorem execHostWrite_keeps (h : Fin 2) (mode3 : Bool) (bytes : List Byte) (s : State) (k : MemWf s) :
    ∃ t', execHostWrite h mode3 bytes s = .next t' ∧ MemWf t' := by
  refine ⟨_, rfl, ?_⟩
  repeat' first
    | intro _
    | with_reducible assumption
    | decide
    | with_reducible apply MemWf.ite
    | with_reducible apply MemWf.dite
    | with_reducible apply hostTransact_keeps
    | split
    | dsimp only

theorem execHostWriteApply_keeps (h : Fin 2) (s : State) (k : MemWf s) :
    ∃ t', execHostWriteApply h s = .next t' ∧ MemWf t' := by
  refine ⟨_, rfl, ?_⟩
  repeat' first
    | intro _
    | with_reducible assumption
    | decide
    | with_reducible apply MemWf.ite
    | with_reducible apply MemWf.dite
    | with_reducible apply hostApply_keeps
    | split
    | dsimp only

end Sys2Proof.Machine
end

