-- ==== Sys2Proof/Laws/KeepFabric.lean ====
section
/-! SUPPORT. Fabric: the operations of Machine/Fabric keep every memory in canonical form. -/
namespace Sys2Proof.Machine

open Sys2Proof

theorem fabPush_keeps (q : FabReq) (s : State) (h : MemWf s) :
    MemWf (fabPush q s).2 := by
  unfold fabPush
  repeat' first
    | intro _
    | with_reducible assumption
    | decide
    | with_reducible apply MemWf.ite
    | with_reducible apply MemWf.dite
    | with_reducible apply MemWf.iteSnd
    | with_reducible apply Only.keeps (raise_only _ _ _)
    | with_reducible apply recStore_keeps
    | with_reducible apply imzSendCmd_keeps
    | with_reducible apply canTxReq_keeps
    | with_reducible apply pnlSubmit_keeps
    | with_reducible apply Only.keeps (recLose_only _ _)
    | with_reducible apply Only.keeps (callStart_only _ _ _ _)
    | with_reducible apply Only.keeps (State.setCall_only _ _)
    | with_reducible apply callNewStep_keeps
    | with_reducible apply Only.keeps (State.setPt_only _ _ _)
    | with_reducible apply Only.keeps (State.setLvn_only _ _)
    | with_reducible apply rcpSwap_keeps
    | split
    | dsimp only

theorem fabApply_keeps (q : FabReq) (s : State) (h : MemWf s) :
    MemWf (fabApply q s).2.2 := by
  rcases hq : q.op with _ | v | _ | _ | _ | _ | _ | _ | _ | _ | _ | _ | _ | _
  all_goals simp only [fabApply, hq]
  · exact MemWf.iteSnd2 (busFetch_keeps _ _ h) h
  · exact MemWf.iteSnd2 (busWrite_keeps _ _ _ _ h) h
  · split
    · exact h
    · exact (State.drew_only _).keeps (by decide) h
  all_goals exact fabPush_keeps _ _ h

theorem fabAnswer_keeps (o : FabOut) (queueFull parity : Bool) (s : State) (h : MemWf s) :
    MemWf (fabAnswer o queueFull parity s).2.2 := by
  unfold fabAnswer
  repeat' first
    | intro _
    | with_reducible assumption
    | decide
    | with_reducible apply MemWf.ite
    | with_reducible apply MemWf.dite
    | with_reducible apply MemWf.iteSnd2
    | with_reducible apply fabApply_keeps
    | with_reducible apply Only.keeps (State.setFab_only _ _)
    | split
    | dsimp only

theorem segCount_keeps (q : FabReq) (timeout : Bool) (s : State) (h : MemWf s) :
    MemWf (segCount q timeout s) := by
  unfold segCount
  repeat' first
    | intro _
    | with_reducible assumption
    | decide
    | with_reducible apply MemWf.ite
    | with_reducible apply MemWf.dite
    | with_reducible apply segmentError_keeps
    | split
    | dsimp only

theorem fabServe_keeps (o : FabOut) (queueFull parity : Bool) (s : State) (h : MemWf s) :
    MemWf (fabServe o queueFull parity s) := by
  unfold fabServe
  repeat' first
    | intro _
    | with_reducible assumption
    | decide
    | with_reducible apply MemWf.ite
    | with_reducible apply MemWf.dite
    | with_reducible apply fabAnswer_keeps
    | with_reducible apply Only.keeps (fabPut_only _ _)
    | with_reducible apply segCount_keeps
    | split
    | dsimp only

theorem fabMake_keeps (o : FabOut) (queueFull parity waits : Bool) (s : State) (h : MemWf s) :
    MemWf (fabMake o queueFull parity waits s) := by
  unfold fabMake
  repeat' first
    | intro _
    | with_reducible assumption
    | decide
    | with_reducible apply MemWf.ite
    | with_reducible apply MemWf.dite
    | with_reducible apply Only.keeps (fabPut_only _ _)
    | with_reducible apply fabServe_keeps
    | split
    | dsimp only

theorem fabRequest_keeps (q : FabReq) (queueFull parity waits : Bool) (s : State) (h : MemWf s) :
    MemWf (fabRequest q queueFull parity waits s) := by
  unfold fabRequest
  repeat' first
    | intro _
    | with_reducible assumption
    | decide
    | with_reducible apply MemWf.ite
    | with_reducible apply MemWf.dite
    | with_reducible apply fabMake_keeps
    | with_reducible apply Only.keeps (fabNew_only _ _)
    | with_reducible apply Only.keeps (State.setFab_only _ _)
    | split
    | dsimp only

theorem fabFail_keeps (o : FabOut) (code : Nat) (s : State) (h : MemWf s) :
    MemWf (fabFail o code s) := by
  unfold fabFail
  repeat' first
    | intro _
    | with_reducible assumption
    | decide
    | with_reducible apply MemWf.ite
    | with_reducible apply MemWf.dite
    | with_reducible apply Only.keeps (pointLost_only _ _)
    | with_reducible apply Only.keeps (fabReport_only _ _ _)
    | with_reducible apply blockFault_keeps
    | with_reducible apply Only.keeps (State.drew_only _)
    | split
    | dsimp only

theorem fabUncertain_keeps (o : FabOut) (code : Nat) (s : State) (h : MemWf s) :
    MemWf (fabUncertain o code s) := by
  unfold fabUncertain
  repeat' first
    | intro _
    | with_reducible assumption
    | decide
    | with_reducible apply MemWf.ite
    | with_reducible apply MemWf.dite
    | with_reducible apply Only.keeps (fabPut_only _ _)
    | with_reducible apply fabFail_keeps
    | split
    | dsimp only

theorem fabHandle_keeps (o : FabOut) (code : Nat) (data : Word) (s : State) (h : MemWf s) :
    MemWf (fabHandle o code data s) := by
  unfold fabHandle
  repeat' first
    | intro _
    | with_reducible assumption
    | decide
    | with_reducible apply MemWf.ite
    | with_reducible apply MemWf.dite
    | with_reducible apply Only.keeps (fabDrop_only _ _ _)
    | with_reducible apply Only.keeps (State.setFab_only _ _)
    | with_reducible apply Only.keeps (fabPut_only _ _)
    | with_reducible apply fabUncertain_keeps
    | with_reducible apply fabFail_keeps
    | with_reducible apply Only.keeps (fabReport_only _ _ _)
    | split
    | dsimp only

theorem fabArrive_keeps (requester : BitVec 6) (tag : Byte) (s : State) (h : MemWf s) :
    MemWf (fabArrive requester tag s) := by
  unfold fabArrive
  repeat' first
    | intro _
    | with_reducible assumption
    | decide
    | with_reducible apply MemWf.ite
    | with_reducible apply MemWf.dite
    | with_reducible apply fabServe_keeps
    | split
    | dsimp only

theorem fabResponse_keeps (requester : BitVec 6) (tag : Byte) (parity : Bool) (s0 : State) (h : MemWf s0) :
    MemWf (fabResponse requester tag parity s0) := by
  unfold fabResponse
  repeat' first
    | intro _
    | with_reducible assumption
    | decide
    | with_reducible apply MemWf.ite
    | with_reducible apply MemWf.dite
    | with_reducible apply fabArrive_keeps
    | with_reducible apply segCount_keeps
    | with_reducible apply fabHandle_keeps
    | split
    | dsimp only

theorem fabTimeout_keeps (requester : BitVec 6) (tag : Byte) (s : State) (h : MemWf s) :
    MemWf (fabTimeout requester tag s) := by
  unfold fabTimeout
  repeat' first
    | intro _
    | with_reducible assumption
    | decide
    | with_reducible apply MemWf.ite
    | with_reducible apply MemWf.dite
    | with_reducible apply segCount_keeps
    | with_reducible apply fabHandle_keeps
    | split
    | dsimp only

theorem transferFailed_keeps (block : BitVec 6) (cell : Byte) (cause : Nat) (retryOk : Bool) (s : State) (h : MemWf s) :
    MemWf (transferFailed block cell cause retryOk s) := by
  unfold transferFailed
  repeat' first
    | intro _
    | with_reducible assumption
    | decide
    | with_reducible apply MemWf.ite
    | with_reducible apply MemWf.dite
    | with_reducible apply MemWf.foldl
    | with_reducible apply Only.keeps (slotLost_only _ _)
    | with_reducible apply Only.keeps (recordFault_only _ _ _ _ _)
    | with_reducible apply cellFault_keeps
    | split
    | dsimp only

theorem lnkReady_keeps (s : State) (h : MemWf s) :
    MemWf (lnkReady s) := by
  unfold lnkReady
  repeat' first
    | intro _
    | with_reducible assumption
    | decide
    | with_reducible apply MemWf.ite
    | with_reducible apply MemWf.dite
    | with_reducible apply bareSearch_keeps
    | with_reducible apply canTxReq_keeps
    | with_reducible apply canSetMode_keeps
    | with_reducible apply MemWf.setCan
    | with_reducible apply netLoad_keeps
    | ((with_reducible show CanWf _); assumption)
    | split
    | dsimp only

theorem acqReady_keeps (s : State) (h : MemWf s) :
    MemWf (acqReady s) := by
  unfold acqReady
  repeat' first
    | intro _
    | with_reducible assumption
    | decide
    | with_reducible apply MemWf.ite
    | with_reducible apply MemWf.dite
    | with_reducible apply MemWf.foldl
    | with_reducible apply Only.keeps (uiReady_only _ _)
    | with_reducible apply aoReady_keeps
    | with_reducible apply Only.keeps (dioReady_only _ _)
    | with_reducible apply Only.keeps (psReady_only _ _)
    | split
    | dsimp only

theorem almReady_keeps (same : Bool) (s : State) (h : MemWf s) :
    MemWf (almReady same s) := by
  unfold almReady
  repeat' first
    | intro _
    | with_reducible assumption
    | decide
    | with_reducible apply MemWf.ite
    | with_reducible apply MemWf.dite
    | with_reducible apply swapRetry_keeps
    | with_reducible apply MemWf.set_pev
    | split
    | dsimp only

theorem fceReady_keeps (s : State) (h : MemWf s) :
    MemWf (fceReady s) := by
  unfold fceReady
  repeat' first
    | intro _
    | with_reducible assumption
    | decide
    | with_reducible apply MemWf.ite
    | with_reducible apply MemWf.dite
    | with_reducible apply pnlPower_keeps
    | with_reducible apply MemWf.set_hp
    | split
    | dsimp only

theorem regionReady_keeps (r : Fin 5) (same : Bool) (s : State) (h : MemWf s) :
    MemWf (regionReady r same s) := by
  unfold regionReady
  repeat' first
    | intro _
    | with_reducible assumption
    | decide
    | with_reducible apply MemWf.ite
    | with_reducible apply MemWf.dite
    | with_reducible apply Only.keeps (State.setRegion_only _ _ _)
    | with_reducible apply Only.keeps (State.setFab_only _ _)
    | with_reducible apply lnkReady_keeps
    | with_reducible apply acqReady_keeps
    | with_reducible apply almReady_keeps
    | with_reducible apply fceReady_keeps
    | with_reducible apply pnlPower_keeps
    | with_reducible apply settingsRetry_keeps
    | split
    | dsimp only

theorem readyLimit_keeps (r : Fin 5) (s : State) (h : MemWf s) :
    MemWf (readyLimit r s) := by
  unfold readyLimit
  repeat' first
    | intro _
    | with_reducible assumption
    | decide
    | with_reducible apply MemWf.ite
    | with_reducible apply MemWf.dite
    | with_reducible apply MemWf.foldl
    | with_reducible apply Only.keeps (pointLost_only _ _)
    | with_reducible apply Only.keeps (fabReport_only _ _ _)
    | with_reducible apply moduleFault_keeps
    | split
    | dsimp only

theorem scrubPoint_keeps (n : Fin 80) (s : State) (h : MemWf s) :
    MemWf (scrubPoint n s) := by
  unfold scrubPoint
  repeat' first
    | intro _
    | with_reducible assumption
    | decide
    | with_reducible apply MemWf.ite
    | with_reducible apply MemWf.dite
    | with_reducible apply Only.keeps (slotLost_only _ _)
    | with_reducible apply Only.keeps (State.setLvn_only _ _)
    | with_reducible apply annMemory_keeps
    | with_reducible apply Only.keeps (State.setPt_only _ _ _)
    | split
    | dsimp only

theorem scrubSection_keeps (sec' : Nat) (s : State) (h : MemWf s) :
    MemWf (scrubSection sec' s) := by
  unfold scrubSection
  repeat' first
    | intro _
    | with_reducible assumption
    | decide
    | with_reducible apply MemWf.ite
    | with_reducible apply MemWf.dite
    | with_reducible apply moduleFault_keeps
    | with_reducible apply MemWf.set_sys
    | split
    | dsimp only

theorem scrubShadow_keeps (s : State) (h : MemWf s) :
    MemWf (scrubShadow s) := by
  unfold scrubShadow
  repeat' first
    | intro _
    | with_reducible assumption
    | decide
    | with_reducible apply MemWf.ite
    | with_reducible apply MemWf.dite
    | with_reducible apply swapAbort_keeps
    | with_reducible apply MemWf.setRcp
    | ((with_reducible show RcpWf _); assumption)
    | ((with_reducible show RecipeWf _); assumption)
    | ((with_reducible show RcpWf _); exact (‹MemWf _› : MemWf _).rcp)
    | ((with_reducible show RcpWf _); with_reducible assumption)
    | with_reducible apply RcpWf.setRecipe
    | split
    | dsimp only

theorem scrubTable_keeps (node : Half) (s : State) (h : MemWf s) :
    MemWf (scrubTable node s) := by
  unfold scrubTable
  repeat' first
    | intro _
    | with_reducible assumption
    | decide
    | with_reducible apply MemWf.ite
    | with_reducible apply MemWf.dite
    | with_reducible apply imzStateReq_keeps
    | with_reducible apply tableStale_keeps
    | split
    | dsimp only

theorem scrubError_keeps (s : State) (e : MemErr) (h : MemWf s) : MemWf (scrubError s e) := by
  cases e
  all_goals dsimp only [scrubError]
  all_goals first
    | exact scrubPoint_keeps _ _ h
    | exact (scrubPoint_only _ _).keeps (by decide) h
    | exact scrubSection_keeps _ _ h
    | exact scrubShadow_keeps _ h
    | exact (scrubRecord_only _ _ _).keeps (by decide) h
    | exact scrubStaging_keeps _ _ h
    | exact (scrubStaging_only _ _).keeps (by decide) h
    | exact rndRepair_keeps _ _ h
    | exact scrubTable_keeps _ _ h
    | exact (scrubTable_only _ _).keeps (by decide) h

theorem scrubPass_keeps (corrected : Half) (errors : List MemErr) (s : State) (h : MemWf s) :
    MemWf (scrubPass corrected errors s) := by
  unfold scrubPass
  repeat' first
    | intro _
    | with_reducible assumption
    | decide
    | with_reducible apply MemWf.ite
    | with_reducible apply MemWf.dite
    | with_reducible apply MemWf.foldl
    | with_reducible apply scrubError_keeps
    | with_reducible apply MemWf.set_sys
    | split
    | dsimp only

theorem execFabricRequest_keeps (r : FabReq) (queueFull parity waits : Bool) (s : State) (h : MemWf s) :
    ∃ t', execFabricRequest r queueFull parity waits s = .next t' ∧ MemWf t' := by
  refine ⟨_, rfl, ?_⟩
  repeat' first
    | intro _
    | with_reducible assumption
    | decide
    | with_reducible apply MemWf.ite
    | with_reducible apply MemWf.dite
    | with_reducible apply fabRequest_keeps
    | split
    | dsimp only

theorem execFabricResponse_keeps (requester : BitVec 6) (tag : Byte) (parity : Bool) (s : State) (h : MemWf s) :
    ∃ t', execFabricResponse requester tag parity s = .next t' ∧ MemWf t' := by
  refine ⟨_, rfl, ?_⟩
  repeat' first
    | intro _
    | with_reducible assumption
    | decide
    | with_reducible apply MemWf.ite
    | with_reducible apply MemWf.dite
    | with_reducible apply fabResponse_keeps
    | split
    | dsimp only

theorem execFabricTimeout_keeps (requester : BitVec 6) (tag : Byte) (s : State) (h : MemWf s) :
    ∃ t', execFabricTimeout requester tag s = .next t' ∧ MemWf t' := by
  refine ⟨_, rfl, ?_⟩
  repeat' first
    | intro _
    | with_reducible assumption
    | decide
    | with_reducible apply MemWf.ite
    | with_reducible apply MemWf.dite
    | with_reducible apply fabTimeout_keeps
    | split
    | dsimp only

theorem execGrantHoldOverrun_keeps (block : BitVec 6) (cell : Byte) (retryOk : Bool) (s : State) (h : MemWf s) :
    ∃ t', execGrantHoldOverrun block cell retryOk s = .next t' ∧ MemWf t' := by
  refine ⟨_, rfl, ?_⟩
  repeat' first
    | intro _
    | with_reducible assumption
    | decide
    | with_reducible apply MemWf.ite
    | with_reducible apply MemWf.dite
    | with_reducible apply transferFailed_keeps
    | split
    | dsimp only

theorem execRequestDeadlineMiss_keeps (block : BitVec 6) (cell : Byte) (parity retryOk : Bool) (s : State) (h : MemWf s) :
    ∃ t', execRequestDeadlineMiss block cell parity retryOk s = .next t' ∧ MemWf t' := by
  refine ⟨_, rfl, ?_⟩
  repeat' first
    | intro _
    | with_reducible assumption
    | decide
    | with_reducible apply MemWf.ite
    | with_reducible apply MemWf.dite
    | with_reducible apply transferFailed_keeps
    | split
    | dsimp only

theorem execRegionWatchdogExpiry_keeps (r : Fin 5) (s : State) (h : MemWf s) :
    ∃ t', execRegionWatchdogExpiry r s = .next t' ∧ MemWf t' := by
  refine ⟨_, rfl, ?_⟩
  repeat' first
    | intro _
    | with_reducible assumption
    | decide
    | with_reducible apply MemWf.ite
    | with_reducible apply MemWf.dite
    | with_reducible apply regionFault_keeps
    | split
    | dsimp only

theorem execRegionReady_keeps (r : Fin 5) (partnerSame : Bool) (s : State) (h : MemWf s) :
    ∃ t', execRegionReady r partnerSame s = .next t' ∧ MemWf t' := by
  refine ⟨_, rfl, ?_⟩
  repeat' first
    | intro _
    | with_reducible assumption
    | decide
    | with_reducible apply MemWf.ite
    | with_reducible apply MemWf.dite
    | with_reducible apply regionReady_keeps
    | split
    | dsimp only

theorem execReadyLimitExpiry_keeps (r : Fin 5) (s : State) (h : MemWf s) :
    ∃ t', execReadyLimitExpiry r s = .next t' ∧ MemWf t' := by
  refine ⟨_, rfl, ?_⟩
  repeat' first
    | intro _
    | with_reducible assumption
    | decide
    | with_reducible apply MemWf.ite
    | with_reducible apply MemWf.dite
    | with_reducible apply readyLimit_keeps
    | split
    | dsimp only

theorem execSysRgnReset_keeps (src : Source) (mask : BitVec 5) (s : State) (h : MemWf s) :
    ∃ t', execSysRgnReset src mask s = .next t' ∧ MemWf t' := by
  refine ⟨_, rfl, ?_⟩
  repeat' first
    | intro _
    | with_reducible assumption
    | decide
    | with_reducible apply MemWf.ite
    | with_reducible apply MemWf.dite
    | with_reducible apply rgnRst_keeps
    | split
    | dsimp only

theorem execSysRgnHold_keeps (src : Source) (mask : BitVec 5) (s : State) (h : MemWf s) :
    ∃ t', execSysRgnHold src mask s = .next t' ∧ MemWf t' := by
  refine ⟨_, rfl, ?_⟩
  repeat' first
    | intro _
    | with_reducible assumption
    | decide
    | with_reducible apply MemWf.ite
    | with_reducible apply MemWf.dite
    | with_reducible apply rgnRst_keeps
    | split
    | dsimp only

theorem execSupervisorWatchdogExpiry_keeps (s : State) (h : MemWf s) :
    ∃ t', execSupervisorWatchdogExpiry s = .next t' ∧ MemWf t' := by
  refine ⟨_, rfl, ?_⟩
  repeat' first
    | intro _
    | with_reducible assumption
    | decide
    | with_reducible apply MemWf.ite
    | with_reducible apply MemWf.dite
    | with_reducible apply supervisorFault_keeps
    | split
    | dsimp only

theorem execFabricRootError_keeps (timeout : Bool) (s : State) (h : MemWf s) :
    ∃ t', execFabricRootError timeout s = .next t' ∧ MemWf t' := by
  refine ⟨_, rfl, ?_⟩
  repeat' first
    | intro _
    | with_reducible assumption
    | decide
    | with_reducible apply MemWf.ite
    | with_reducible apply MemWf.dite
    | with_reducible apply supervisorFault_keeps
    | split
    | dsimp only

theorem execPllLoss_keeps (s : State) (h : MemWf s) :
    ∃ t', execPllLoss s = .next t' ∧ MemWf t' := by
  refine ⟨_, rfl, ?_⟩
  repeat' first
    | intro _
    | with_reducible assumption
    | decide
    | with_reducible apply MemWf.ite
    | with_reducible apply MemWf.dite
    | with_reducible apply supervisorFault_keeps
    | with_reducible apply MemWf.set_sys
    | split
    | dsimp only

theorem execScrubPass_keeps (corrected : Half) (errors : List MemErr) (s : State) (h : MemWf s) :
    ∃ t', execScrubPass corrected errors s = .next t' ∧ MemWf t' := by
  refine ⟨_, rfl, ?_⟩
  repeat' first
    | intro _
    | with_reducible assumption
    | decide
    | with_reducible apply MemWf.ite
    | with_reducible apply MemWf.dite
    | with_reducible apply scrubPass_keeps
    | split
    | dsimp only

theorem execTestmodeHigh_keeps (s : State) (h : MemWf s) :
    ∃ t', execTestmodeHigh s = .next t' ∧ MemWf t' := by
  refine ⟨_, rfl, ?_⟩
  repeat' first
    | intro _
    | with_reducible assumption
    | decide
    | with_reducible apply MemWf.ite
    | with_reducible apply MemWf.dite
    | with_reducible apply supervisorFault_keeps
    | with_reducible apply MemWf.set_sys
    | split
    | dsimp only

end Sys2Proof.Machine
end

