-- ==== Sys2Proof/Laws/KeepScan.lean ====
section
/-! SUPPORT. Scan: the operations of Machine/Scan keep every memory in canonical form. -/
namespace Sys2Proof.Machine

open Sys2Proof

theorem ptService_keeps (c : PtCmd) (oos : Bool) (s : State) (h : MemWf s) :
    MemWf (ptService c oos s) := by
  unfold ptService
  repeat' first
    | intro _
    | with_reducible assumption
    | decide
    | with_reducible apply MemWf.ite
    | with_reducible apply MemWf.dite
    | with_reducible apply annService_keeps
    | split
    | dsimp only

theorem ptReport_keeps (c : PtCmd) (code : Nat) (s : State) (h : MemWf s) :
    MemWf (ptReport c code s) := by
  unfold ptReport
  repeat' first
    | intro _
    | with_reducible assumption
    | decide
    | with_reducible apply MemWf.ite
    | with_reducible apply MemWf.dite
    | with_reducible apply answerTo_keeps
    | with_reducible apply MemWf.set_pev
    | split
    | dsimp only

theorem ptReplay_keeps (c : PtCmd) (s : State) (h : MemWf s) :
    MemWf (ptReplay c s).2 := by
  unfold ptReplay
  repeat' first
    | intro _
    | with_reducible assumption
    | decide
    | with_reducible apply MemWf.ite
    | with_reducible apply MemWf.dite
    | with_reducible apply MemWf.iteSnd
    | with_reducible apply Only.keeps (ptRun_only _ _)
    | with_reducible apply ptService_keeps
    | with_reducible apply ptReport_keeps
    | split
    | dsimp only

theorem replayBus_keeps (e : LogCmd) (s : State) (h : MemWf s) :
    MemWf (replayBus e s) := by
  unfold replayBus
  repeat' first
    | intro _
    | with_reducible assumption
    | decide
    | with_reducible apply MemWf.ite
    | with_reducible apply MemWf.dite
    | with_reducible apply cmdBody_keeps
    | with_reducible apply cmdRegRead_keeps
    | with_reducible apply cmdRegWrite_keeps
    | with_reducible apply cmdAlarm_keeps
    | with_reducible apply cmdPoint_keeps
    | with_reducible apply ptReplay_keeps
    | with_reducible apply cmdDuty_keeps
    | with_reducible apply cmdStateReq_keeps
    | with_reducible apply cmdTimeSet_keeps
    | split
    | dsimp only

theorem replayFwd_keeps (e : LogCmd) (s0 : State) (h : MemWf s0) :
    MemWf (replayFwd e s0) := by
  unfold replayFwd
  repeat' first
    | intro _
    | with_reducible assumption
    | decide
    | with_reducible apply MemWf.ite
    | with_reducible apply MemWf.dite
    | with_reducible apply Only.keeps (State.drew_only _)
    | with_reducible apply Only.keeps (State.setAnn_only _ _)
    | with_reducible apply ptReplay_keeps
    | with_reducible apply Only.keeps (State.setCall_only _ _)
    | split
    | dsimp only

theorem replayOne_keeps (s : State) (e : LogCmd) (h : MemWf s) :
    MemWf (replayOne s e) := by
  unfold replayOne
  repeat' first
    | intro _
    | with_reducible assumption
    | decide
    | with_reducible apply MemWf.ite
    | with_reducible apply MemWf.dite
    | with_reducible apply Only.keeps (replayAck_only _ _)
    | with_reducible apply replayBus_keeps
    | with_reducible apply replayFwd_keeps
    | split
    | dsimp only

theorem replayLog_keeps (s : State) (h : MemWf s) :
    MemWf (replayLog s) := by
  unfold replayLog
  repeat' first
    | intro _
    | with_reducible assumption
    | decide
    | with_reducible apply MemWf.ite
    | with_reducible apply MemWf.dite
    | with_reducible apply MemWf.foldl
    | with_reducible apply Only.keeps (State.setAnn_only _ _)
    | with_reducible apply Only.keeps (State.setCall_only _ _)
    | with_reducible apply replayOne_keeps
    | with_reducible apply Only.keeps (State.setLvn_only _ _)
    | split
    | dsimp only

theorem takeoverSend_keeps (s : State) (h : MemWf s) :
    MemWf (takeoverSend s) := by
  unfold takeoverSend
  repeat' first
    | intro _
    | with_reducible assumption
    | decide
    | with_reducible apply MemWf.ite
    | with_reducible apply MemWf.dite
    | with_reducible apply MemWf.foldl
    | with_reducible apply imzEntry_keeps
    | with_reducible apply callNewStep_keeps
    | with_reducible apply Only.keeps (State.setLvn_only _ _)
    | split
    | dsimp only

theorem annStep_keeps (s : State) (c : AnnCmd) (h : MemWf s) :
    MemWf (annStep s c) := by
  unfold annStep
  repeat' first
    | intro _
    | with_reducible assumption
    | decide
    | with_reducible apply MemWf.ite
    | with_reducible apply MemWf.dite
    | with_reducible apply Only.keeps (grpNotice_only _)
    | with_reducible apply annCommand_keeps
    | split
    | dsimp only

theorem leaveStep_keeps (p : Option (PtCmd × Nat × Option Bool)) (s : State) (h : MemWf s) :
    MemWf (leaveStep p s) := by
  unfold leaveStep
  repeat' first
    | intro _
    | with_reducible assumption
    | decide
    | with_reducible apply MemWf.ite
    | with_reducible apply MemWf.dite
    | with_reducible apply Only.keeps (grpNotice_only _)
    | with_reducible apply ptService_keeps
    | split
    | dsimp only

theorem annScan_keeps (res : List Res) (p : Option (PtCmd × Nat × Option Bool)) (s : State) (h : MemWf s) :
    MemWf (annScan res p s) := by
  unfold annScan
  repeat' first
    | intro _
    | with_reducible assumption
    | decide
    | with_reducible apply MemWf.ite
    | with_reducible apply MemWf.dite
    | with_reducible apply MemWf.foldl
    | with_reducible apply ptService_keeps
    | with_reducible apply annResult_keeps
    | with_reducible apply Only.keeps (grpNotice_only _)
    | with_reducible apply annShelveEnd_keeps
    | with_reducible apply annStep_keeps
    | with_reducible apply Only.keeps (State.setAnn_only _ _)
    | with_reducible apply leaveStep_keeps
    | split
    | dsimp only

theorem aoPost_keeps (s : State) (c : Fin 4) (h : MemWf s) :
    MemWf (aoPost s c) := by
  unfold aoPost
  repeat' first
    | intro _
    | with_reducible assumption
    | decide
    | with_reducible apply MemWf.ite
    | with_reducible apply MemWf.dite
    | with_reducible apply MemWf.setAo
    | with_reducible apply Only.keeps (State.drew_only _)
    | ((with_reducible show AoWf _); assumption)
    | split
    | dsimp only

theorem scanPost_keeps (s : State) (h : MemWf s) :
    MemWf (scanPost s) := by
  unfold scanPost
  repeat' first
    | intro _
    | with_reducible assumption
    | decide
    | with_reducible apply MemWf.ite
    | with_reducible apply MemWf.dite
    | with_reducible apply MemWf.foldl
    | with_reducible apply aoPost_keeps
    | with_reducible apply Only.keeps (dioPost_only _ _)
    | with_reducible apply Only.keeps (outputsOn_only _)
    | with_reducible apply Only.keeps (grpPost_only _)
    | split
    | dsimp only

theorem firstDuty_keeps (s : State) (h : MemWf s) :
    MemWf (firstDuty s) := by
  unfold firstDuty
  repeat' first
    | intro _
    | with_reducible assumption
    | decide
    | with_reducible apply MemWf.ite
    | with_reducible apply MemWf.dite
    | with_reducible apply dutyAtStart_keeps
    | split
    | dsimp only

theorem firstEnd_keeps (s : State) (h : MemWf s) :
    MemWf (firstEnd s) := by
  unfold firstEnd
  repeat' first
    | intro _
    | with_reducible assumption
    | decide
    | with_reducible apply MemWf.ite
    | with_reducible apply MemWf.dite
    | with_reducible apply rndFull_keeps
    | with_reducible apply MemWf.set_sys
    | split
    | dsimp only

theorem scanBeat_keeps (s : State) (h : MemWf s) :
    MemWf (scanBeat s) := by
  unfold scanBeat
  repeat' first
    | intro _
    | with_reducible assumption
    | decide
    | with_reducible apply MemWf.ite
    | with_reducible apply MemWf.dite
    | with_reducible apply imzBeat_keeps
    | with_reducible apply MemWf.setImz
    | ((with_reducible show ImzWf _); assumption)
    | ((with_reducible show ImzWf _); exact (‹MemWf _› : MemWf _).imz)
    | split
    | dsimp only

theorem scanRun_keeps (s : State) (h : MemWf s) :
    MemWf (scanRun s) := by
  unfold scanRun
  extract_lets s1 p s2 done _ e s3 s4 s5 s6
  have h1 : MemWf s1 := MemWf.ite (replayLog_keeps _ h) h
  have h2 : MemWf s2 := by
    unfold s2 p
    cases s1.pev.cmd with
    | none => exact h1
    | some c => first | exact ptRun_keeps c s1 h1 | exact (ptRun_only c s1).keeps (by decide) h1
  clear_value s1 p s2 done
  have h3 : MemWf e.1 := phaseE_keeps _ ((pevPhases_only _).keeps (by decide) h2.set_pev)
  clear_value e
  have h4 : MemWf s3 := annScan_keeps _ _ _ ((scanMark_only _).keeps (by decide) h3)
  clear_value s3
  have h5 : MemWf s4 := by
    unfold s4
    split
    · first | exact ptReport_keeps _ _ _ h4 | exact (ptReport_only _ _ _).keeps (by decide) h4
    · exact h4
  clear_value s4
  have h6 : MemWf s5 := by
    unfold s5
    repeat' first
      | with_reducible assumption
      | with_reducible apply sliceScanEnd_keeps
      | with_reducible apply Only.keeps (sliceScanEnd_only _)
      | decide
      | with_reducible apply callScanEnd_keeps
      | with_reducible apply firstDuty_keeps
      | with_reducible apply grpScanEnd_keeps
      | with_reducible apply Only.keeps (grpScanEnd_only _)
  clear_value s5
  have h7 : MemWf s6 := by
    unfold s6
    repeat' first
      | with_reducible assumption
      | with_reducible apply Only.keeps (tablePost_only _)
      | with_reducible apply scanMarks_keeps
      | with_reducible apply Only.keeps (scanMarks_only _)
      | decide
      | with_reducible apply scanPost_keeps
      | with_reducible apply Only.keeps (scanPost_only _)
  clear_value s6
  exact firstEnd_keeps _ (MemWf.ite (takeoverSend_keeps _ h7) h7)

theorem scan_keeps (dur : Half) (s : State) (h : MemWf s) :
    MemWf (scan dur s) := by
  unfold scan
  repeat' first
    | intro _
    | with_reducible assumption
    | decide
    | with_reducible apply MemWf.ite
    | with_reducible apply MemWf.dite
    | with_reducible apply scanBeat_keeps
    | with_reducible apply Only.keeps (scanSnap_only _ _)
    | with_reducible apply scanRun_keeps
    | with_reducible apply Only.keeps (firstScan_only _)
    | with_reducible apply Only.keeps (scanBegin_only _ _)
    | with_reducible apply MemWf.set_pev
    | split
    | dsimp only

theorem execScanStart_keeps (dur : Half) (s : State) (h : MemWf s) :
    ∃ t', execScanStart dur s = .next t' ∧ MemWf t' := by
  refine ⟨_, rfl, ?_⟩
  repeat' first
    | intro _
    | with_reducible assumption
    | decide
    | with_reducible apply MemWf.ite
    | with_reducible apply MemWf.dite
    | with_reducible apply scan_keeps
    | split
    | dsimp only

end Sys2Proof.Machine
end

