-- ==== Sys2Proof/WellFormed.lean ====
section
/-! DEFINITION. WellFormed: the operands with which a command can reach the block: the lengths of frames and bodies, the
headers of transactions and the ranges that no type holds. -/
namespace Sys2Proof

/-- Data bytes of a CAN frame by its DLC: eight at most in a classical frame (R301). -/
def dlcBytes (fdf : Bool) (dlc : Nat) : Nat :=
  if dlc ≤ 8 then dlc else if fdf then [12, 16, 20, 24, 32, 48, 64].getD (dlc - 9) 64 else 8

/-- A received frame holds the bytes that its DLC says, none in a remote frame, which is a classical one (R301). -/
def CanFrame.wellFormed (f : CanFrame) : Bool :=
  f.data.length == (if f.remote then 0 else dlcBytes f.fdf f.dlc.toNat) && !(f.remote && f.fdf)

/-- A frame of Imzin holds as many bytes as an FD frame can (R301, R318). -/
def ImzRx.wellFormed (f : ImzRx) : Bool := (List.range 16).any fun d => dlcBytes true d == f.data.length

/-- A read or a write of the fabric is of an aligned word; a transition entry has 32 bytes, and a CMD 64 (R3, R47, R262,
R340). -/
def FabReq.wellFormed (r : FabReq) : Bool :=
  match r.op with
  | .read => r.addr.toNat % 4 == 0
  | .write _ => r.addr.toNat % 4 == 0
  | .entry b => b.length == 32
  | .imzinCmd _ _ b => b.length == 64
  | .seqQuery => true
  | .event _ _ => true
  | .canTx _ => true
  | .panel _ _ _ _ _ _ _ => true
  | .count _ => true
  | .callStart _ _ _ => true
  | .callStep _ => true
  | .publish _ _ _ _ => true
  | .epochCopy _ _ => true
  | .swap _ _ => true

/-- A body of a fixed length (R358, R359, R405). -/
def bodyIs (n : Nat) (d : List Byte) : Bool := d.length == n

/-- The body of an IMAGE frame: 8 bytes and up to 4088 of data (R358). -/
def imageBody (d : List Byte) : Bool := decide (8 ≤ d.length) && decide (d.length ≤ 4096)

/-- A HART frame's bytes, with parity errors in some of them; the receiver keeps 256 (R157). -/
def hartIn (d : List Byte) (perr : Nat) : Bool := decide (d.length ≤ 4096) && decide (perr ≤ d.length)

/-- The header of a read: four bytes, five with CRC (R442, R443). -/
def readHeader (d : List Byte) : Bool := d.length == 4 || d.length == 5

/-- Codes of a bad key: 0 and 10 to 15; the others are keys (R436). -/
def badKey (k : BitVec 4) : Bool := k == 0 || decide (10 ≤ k.toNat)

/-- The operands are ones that can occur. The meanings are total, and take others as they come. -/
def wellFormed : Instr → Bool
  | .fabricRequest r _ _ _ => r.wellFormed
  | .fabricResponse _ _ _ => true
  | .fabricTimeout _ _ => true
  | .seqQuery _ _ => true
  | .busyResend _ _ => true
  | .grantHoldOverrun _ _ _ => true
  | .requestDeadlineMiss _ _ _ _ => true
  | .readmissionTest _ _ _ => true
  | .cellReadmit _ _ => true
  | .regionWatchdogExpiry _ => true
  | .regionReady _ _ => true
  | .readyLimitExpiry _ => true
  | .sysRgnReset _ _ => true
  | .sysRgnHold _ _ => true
  | .supervisorWatchdogExpiry => true
  | .fabricRootError _ => true
  | .pllLoss => true
  | .safeStateRestart => true
  | .scrubPass _ _ => true
  | .testmodeHigh => true
  | .roleChange _ => true
  | .resetnLow => true
  | .resetnRise => true
  | .feedLow _ _ => true
  | .feedLost _ _ _ => true
  | .feedLostEnd _ _ _ => true
  | .feedHigh _ _ => true
  | .feedInRange _ _ => true
  | .feedDisconnect _ => true
  | .feedReconnect _ => true
  | .feedReversed _ _ => true
  | .powerGood _ => true
  | .powerGoodLoss => true
  | .holdAbsent _ => true
  | .holdOk _ => true
  | .holdFault _ => true
  | .holdChargeRetry => true
  | .lastBreath _ _ => true
  | .lastBreathRestart => true
  | .xtalHandover => true
  | .clockCheck _ _ _ => true
  | .tempMeasure _ _ => true
  | .supplyEventHoldoff _ _ => true
  | .dozeEnable _ _ => true
  | .dozePowerDown _ => true
  | .dozePowerUp _ => true
  | .dormantRequest _ => true
  | .dormantEntry => true
  | .wakeCommand _ => true
  | .dormantWake _ => true
  | .emmcInit _ _ => true
  | .emmcInitRetry _ _ => true
  | .bootHeadersRead _ => true
  | .activeImageLoaded _ => true
  | .shadowLoaded _ => true
  | .startInhibitEnd => true
  | .bareRateSearchStep => true
  | .bareAddrClaim => true
  | .rcpOpen _ _ => true
  | .rcpWriteBlock _ _ _ => true
  | .rcpVerify _ => true
  | .rcpVerifyDone _ _ => true
  | .rcpClose _ => true
  | .rcpSwap _ _ _ => true
  | .rcpSetActive _ _ _ => true
  | .rcpReloadShadow _ _ => true
  | .rcpBadOp _ _ => true
  | .rcpBufWrite _ _ _ => true
  | .rcpOwnerTimeout => true
  | .swapBoundary => true
  | .swapAbort => true
  | .bootConfigWritten _ => true
  | .bootConfigRetry _ => true
  | .uiIslandPowered _ => true
  | .uiConversion _ _ => true
  | .uiTestWindow _ _ => true
  | .uiTestCmd _ _ => true
  | .uiCalInterval _ => true
  | .uiCalCmd _ _ => true
  | .uiCalDone _ _ _ _ => true
  | .uiRefCheck _ _ => true
  | .uiNe43Confirm _ _ => true
  | .uiTxsOverload _ => true
  | .uiTxsRetry _ => true
  | .uiTxsOn _ _ => true
  | .uiTrendReset _ => true
  | .uiCrumb _ _ _ => true
  | .uiBarrier _ _ _ => true
  | .uiBlockStop _ => true
  | .uiSharedExcCheck _ _ => true
  | .aoCellCycle _ _ => true
  | .aoClockStepUp _ => true
  | .aoBrownout _ => true
  | .aoIslandRestart _ => true
  | .aoBrownoutClear _ => true
  | .aoKeepalive _ => true
  | .aoKeepaliveLost _ => true
  | .aoComplianceRetry _ => true
  | .aoSwitchReclose _ => true
  | .aoRestart _ _ => true
  | .aoCalDone _ => true
  | .aoTrimApply _ _ => true
  | .aoTrimClear _ _ => true
  | .aoHartTx _ _ => true
  | .aoHartTxStart _ => true
  | .aoHartTxDone _ => true
  | .aoHartCarrierDetect _ => true
  | .aoHartRxDone _ bytes perr => hartIn bytes perr
  | .aoCrust _ _ _ => true
  | .aoTrimEnter _ _ => true
  | .aoTrimAdjust _ _ => true
  | .aoTrimStore _ => true
  | .aoTrimDiscard _ => true
  | .aoTrimTimeout _ => true
  | .aoBlockStop _ => true
  | .dioInputTransition _ _ _ => true
  | .dioLineBreak _ => true
  | .dioButtonStuck _ => true
  | .dioBlinkPhase => true
  | .dioInrushEnd _ => true
  | .dioKeepalive => true
  | .dioKeepaliveLost _ => true
  | .dioOverload _ _ => true
  | .dioShortCircuit _ => true
  | .dioOvertemp _ => true
  | .dioOvertempEnd _ => true
  | .dioOpenOn _ => true
  | .dioOpenOff _ _ _ => true
  | .dioShortFsp _ _ _ => true
  | .dioBackfeed _ _ _ => true
  | .dioPartnerDrive _ _ _ => true
  | .dioOvlRetry _ => true
  | .dioRetryCmd _ _ => true
  | .dioRetryCountReset _ => true
  | .dioGroupWarn _ _ => true
  | .dioGroupLow _ _ => true
  | .dioGroupOvervolt _ _ => true
  | .dioGroupLost _ _ => true
  | .dioGroupNormal _ _ => true
  | .dioGroupShed _ _ => true
  | .dioShedRetry _ => true
  | .dioLampAverage _ _ _ _ => true
  | .dioLampProbe _ _ => true
  | .dioLearnPartDone _ _ => true
  | .dioLearn _ _ => true
  | .dioLearnClr _ _ => true
  | .dioCrumb _ _ _ => true
  | .dioBarrier _ _ _ => true
  | .dioCrust _ _ _ => true
  | .dioBlockStop _ => true
  | .psEdge _ _ _ _ _ _ => true
  | .psIndexEdge _ => true
  | .psStandstill _ => true
  | .psSetPos _ _ => true
  | .psArmZ _ => true
  | .psCmpWrite _ _ _ => true
  | .psCrumb _ _ _ => true
  | .psBarrier _ _ _ => true
  | .psBlockStop _ => true
  | .psDiagClear _ _ => true
  | .scanStart _ => true
  | .onDelayExpiry _ => true
  | .offDelayExpiry _ => true
  | .releaseDelayExpiry _ => true
  | .faultDelayExpiry _ => true
  | .staleTimeout _ => true
  | .ptCmdOos _ _ => true
  | .ptCmdRts _ _ => true
  | .ptCmdSubst _ _ => true
  | .almCmdAck _ _ _ => true
  | .almCmdSilence _ _ _ => true
  | .almCmdShelve _ _ _ => true
  | .almCmdUnshelve _ _ _ => true
  | .almCmdBadOp _ _ _ _ => true
  | .shelveExpiry _ => true
  | .foSettleExpiry _ => true
  | .imzResyncSend => true
  | .callT1Expiry _ => true
  | .callT2Expiry _ => true
  | .callT3Expiry _ => true
  | .callClearedExpiry _ => true
  | .callStepRepeat _ => true
  | .callClearRepeat _ => true
  | .callUnitLost _ => true
  | .callCmdSelectDuty _ _ _ => true
  | .callCmdAckCall _ _ _ => true
  | .callCmdBadOp _ _ => true
  | .canFrameReceived _ f _ _ => f.wellFormed
  | .canTxRequest _ _ _ => true
  | .canTxAttemptEnd _ _ _ _ _ => true
  | .canTxAbort _ _ _ _ => true
  | .canError _ _ _ _ _ _ => true
  | .canBusoffRecovered _ => true
  | .canDominantTimeout _ => true
  | .canModeWrite _ _ _ => true
  | .canModeChange _ => true
  | .canIntegrated _ => true
  | .networkJoin => true
  | .addrClaimSend => true
  | .heartbeatSend => true
  | .addrClaimReceived f _ => f.wellFormed
  | .addressConflictProbeEnd => true
  | .heartbeatReceived f _ => f.wellFormed
  | .timeRefSend => true
  | .timeFollowSend _ => true
  | .timeRefReceived f => f.wellFormed
  | .timeFollowReceived f => f.wellFormed
  | .timHoldover => true
  | .timFree => true
  | .almTransReceived f _ => f.wellFormed
  | .almPendingReceived f _ => f.wellFormed
  | .almRetractReceived f _ => f.wellFormed
  | .almFrameRelease => true
  | .floodDigestSend => true
  | .floodDigestReceived f => f.wellFormed
  | .floodEnd => true
  | .callStepReceived f => f.wellFormed
  | .callAckReceived f => f.wellFormed
  | .pointStateSweep => true
  | .pointStateReceived f => f.wellFormed
  | .digestSend => true
  | .digestReceived f => f.wellFormed
  | .cmdRegRead f => f.wellFormed
  | .cmdRegWrite f => f.wellFormed
  | .cmdAlarm f => f.wellFormed
  | .cmdPoint f => f.wellFormed
  | .cmdDuty f => f.wellFormed
  | .cmdStateReq f => f.wellFormed
  | .cmdTimeSet f => f.wellFormed
  | .cmdConflict f => f.wellFormed
  | .rspReceived f => f.wellFormed
  | .cmdRspTimeout _ => true
  | .cmdTagExpiry _ _ => true
  | .rcpXferData _ _ bytes => bodyIs 32 bytes
  | .recXferDataReceived f => f.wellFormed
  | .recXferEndReceived f => f.wellFormed
  | .recXferSendPace => true
  | .memberLost _ => true
  | .mgrLost => true
  | .syncInPulse _ => true
  | .syncInLoss => true
  | .syncOutPulse => true
  | .timSet _ => true
  | .timSetAtPulse _ => true
  | .lvnLinkTrained _ => true
  | .lvnLaneDown _ => true
  | .lvnLaneRetrain _ _ => true
  | .lvHeartbeatSend => true
  | .lvHeartbeatReceived d _ _ => bodyIs 32 d
  | .lvHelloSend => true
  | .lvHelloReceived d _ => bodyIs 48 d
  | .roleNegotiation => true
  | .peerWaitExpiry => true
  | .epochBoundary _ _ => true
  | .lvEpochOpenReceived _ _ _ _ => true
  | .lvDeltaReceived _ _ _ => true
  | .lvCommitReceived _ _ _ _ _ _ => true
  | .lvCmdFwdReceived d _ => bodyIs 68 d
  | .lvFaultReceived _ _ _ => true
  | .lvPresInFall => true
  | .presCheckExpiry _ _ => true
  | .lvHeartbeatLoss _ _ => true
  | .aoHeldRecheck _ _ _ => true
  | .splitCheckExpiry => true
  | .splitPartnerLoss => true
  | .revertHoldExpiry => true
  | .lvnHandover _ => true
  | .lvRevertReqReceived _ _ => true
  | .lvRevertPlanReceived _ _ => true
  | .revertFreeze => true
  | .revertAckDeadline => true
  | .revertSwitch _ _ => true
  | .lvConfirmReceived _ _ _ => true
  | .lvRevertFailReceived _ => true
  | .revertRelease => true
  | .revertEnd => true
  | .lvImageReceived d _ => imageBody d
  | .partnerUpdateDone _ => true
  | .lvnStop _ _ => true
  | .lvnLoopTest _ _ => true
  | .lvnLoopDone _ => true
  | .sliceClose _ => true
  | .recEntry _ => true
  | .sliceFlushExpiry => true
  | .ringFlushExpiry => true
  | .recFlush => true
  | .pageCommitDone => true
  | .recCommitTimeout => true
  | .checkpointTimer => true
  | .recRecovery => true
  | .recRecoveryDone => true
  | .recFormat _ _ => true
  | .recStop _ => true
  | .recReadSeq _ => true
  | .recFindTime _ => true
  | .recReadNext _ => true
  | .recReadOpen _ => true
  | .recReadDone _ => true
  | .mmcCommandFail _ _ _ _ => true
  | .mmcReinitTimer _ => true
  | .pnlUpdateRequest _ _ _ _ => true
  | .pnlRailsReady => true
  | .pnlRailIdle => true
  | .pnlRailFault => true
  | .pnlRailRetry => true
  | .pnlRailFaultRetry => true
  | .pnlRetry => true
  | .pnlRefresh => true
  | .pnlTempSample _ => true
  | .pnlVcomChange => true
  | .pnlFrameBoundary _ => true
  | .fbApertureWrite _ _ _ => true
  | .rndRedraw => true
  | .rndPageSelect _ _ _ => true
  | .rndKeyUp => true
  | .rndKeyDown => true
  | .rndKeyPage => true
  | .rndKeySelect => true
  | .rndKeyAck => true
  | .rndKeyAckPage => true
  | .rndKeySilence => true
  | .rndKeyAckCall _ => true
  | .rndKeyDuty _ => true
  | .rndKeyBad key => badKey key
  | .hostRead _ _ header => readHeader header
  | .hostWrite _ _ _ => true
  | .hostWriteApply _ => true
  | .hostSleepChange _ _ => true
  | .hostIdleDoorbell _ _ => true
  | .hostDoorbell _ _ => true
  | .evrRecordWrite _ => true
  | .evrClaim _ => true
  | .evrEoi _ => true
  | .evrEnSet _ _ _ => true
  | .evrEnClr _ _ => true
  | .evrPndSet _ _ => true
  | .evrPndClr _ _ => true
  | .evrTargetChange _ _ => true
  | .evrHoldWrite _ => true
  | .evrHoldoffExpiry _ => true
  | .ageRefCheck _ _ _ => true
  | .ageAoGain _ _ _ => true
  | .ageDioSwitch _ _ => true
  | .ageTcxoSample => true
  | .ageHoldTest _ _ _ _ => true
  | .ageEmmcWear _ _ _ => true
  | .ageBarrierTest _ _ => true
  | .ageLedgerPage _ => true
  | .ageLedgerScanDone => true
  | .ageAckDue _ _ => true
  | .ageRebase _ _ => true
  | .ageTestHold _ _ _ _ => true
  | .ageMeasure _ => true
  | .ageCmdBadOp _ => true
  | .periodicLoopback _ _ _ _ => true
  | .dioFieldLoopback _ _ => true
  | .fieldLoopbackDone _ _ => true
  | .jtagInstruction _ _ => true
  | .registerWrite _ _ _ => true
  | .readClear _ => true
  | .timeLoRead _ => true
  | .networkTimeWaitExpiry => true
  | .aoIslandPowered _ => true
  | .dioDiagClear _ _ => true
  | .psPulseRejected _ => true
  | .floodStateReqPace => true
  | .lvPresInRise => true
  | .lvImageSend => true
  | .recipeSectionReloadDone _ => true

/-- The byte sequences that a command brings from a bus or a link; a host's write is as long as the host makes it. -/
def byteFields : Instr → List (List Byte)
  | .fabricRequest _ _ _ _ => []
  | .fabricResponse _ _ _ => []
  | .fabricTimeout _ _ => []
  | .seqQuery _ _ => []
  | .busyResend _ _ => []
  | .grantHoldOverrun _ _ _ => []
  | .requestDeadlineMiss _ _ _ _ => []
  | .readmissionTest _ _ _ => []
  | .cellReadmit _ _ => []
  | .regionWatchdogExpiry _ => []
  | .regionReady _ _ => []
  | .readyLimitExpiry _ => []
  | .sysRgnReset _ _ => []
  | .sysRgnHold _ _ => []
  | .supervisorWatchdogExpiry => []
  | .fabricRootError _ => []
  | .pllLoss => []
  | .safeStateRestart => []
  | .scrubPass _ _ => []
  | .testmodeHigh => []
  | .roleChange _ => []
  | .resetnLow => []
  | .resetnRise => []
  | .feedLow _ _ => []
  | .feedLost _ _ _ => []
  | .feedLostEnd _ _ _ => []
  | .feedHigh _ _ => []
  | .feedInRange _ _ => []
  | .feedDisconnect _ => []
  | .feedReconnect _ => []
  | .feedReversed _ _ => []
  | .powerGood _ => []
  | .powerGoodLoss => []
  | .holdAbsent _ => []
  | .holdOk _ => []
  | .holdFault _ => []
  | .holdChargeRetry => []
  | .lastBreath _ _ => []
  | .lastBreathRestart => []
  | .xtalHandover => []
  | .clockCheck _ _ _ => []
  | .tempMeasure _ _ => []
  | .supplyEventHoldoff _ _ => []
  | .dozeEnable _ _ => []
  | .dozePowerDown _ => []
  | .dozePowerUp _ => []
  | .dormantRequest _ => []
  | .dormantEntry => []
  | .wakeCommand _ => []
  | .dormantWake _ => []
  | .emmcInit _ _ => []
  | .emmcInitRetry _ _ => []
  | .bootHeadersRead _ => []
  | .activeImageLoaded _ => []
  | .shadowLoaded _ => []
  | .startInhibitEnd => []
  | .bareRateSearchStep => []
  | .bareAddrClaim => []
  | .rcpOpen _ _ => []
  | .rcpWriteBlock _ _ _ => []
  | .rcpVerify _ => []
  | .rcpVerifyDone _ _ => []
  | .rcpClose _ => []
  | .rcpSwap _ _ _ => []
  | .rcpSetActive _ _ _ => []
  | .rcpReloadShadow _ _ => []
  | .rcpBadOp _ _ => []
  | .rcpBufWrite _ _ _ => []
  | .rcpOwnerTimeout => []
  | .swapBoundary => []
  | .swapAbort => []
  | .bootConfigWritten _ => []
  | .bootConfigRetry _ => []
  | .uiIslandPowered _ => []
  | .uiConversion _ _ => []
  | .uiTestWindow _ _ => []
  | .uiTestCmd _ _ => []
  | .uiCalInterval _ => []
  | .uiCalCmd _ _ => []
  | .uiCalDone _ _ _ _ => []
  | .uiRefCheck _ _ => []
  | .uiNe43Confirm _ _ => []
  | .uiTxsOverload _ => []
  | .uiTxsRetry _ => []
  | .uiTxsOn _ _ => []
  | .uiTrendReset _ => []
  | .uiCrumb _ _ _ => []
  | .uiBarrier _ _ _ => []
  | .uiBlockStop _ => []
  | .uiSharedExcCheck _ _ => []
  | .aoCellCycle _ _ => []
  | .aoClockStepUp _ => []
  | .aoBrownout _ => []
  | .aoIslandRestart _ => []
  | .aoBrownoutClear _ => []
  | .aoKeepalive _ => []
  | .aoKeepaliveLost _ => []
  | .aoComplianceRetry _ => []
  | .aoSwitchReclose _ => []
  | .aoRestart _ _ => []
  | .aoCalDone _ => []
  | .aoTrimApply _ _ => []
  | .aoTrimClear _ _ => []
  | .aoHartTx _ _ => []
  | .aoHartTxStart _ => []
  | .aoHartTxDone _ => []
  | .aoHartCarrierDetect _ => []
  | .aoHartRxDone _ bytes _ => [bytes]
  | .aoCrust _ _ _ => []
  | .aoTrimEnter _ _ => []
  | .aoTrimAdjust _ _ => []
  | .aoTrimStore _ => []
  | .aoTrimDiscard _ => []
  | .aoTrimTimeout _ => []
  | .aoBlockStop _ => []
  | .dioInputTransition _ _ _ => []
  | .dioLineBreak _ => []
  | .dioButtonStuck _ => []
  | .dioBlinkPhase => []
  | .dioInrushEnd _ => []
  | .dioKeepalive => []
  | .dioKeepaliveLost _ => []
  | .dioOverload _ _ => []
  | .dioShortCircuit _ => []
  | .dioOvertemp _ => []
  | .dioOvertempEnd _ => []
  | .dioOpenOn _ => []
  | .dioOpenOff _ _ _ => []
  | .dioShortFsp _ _ _ => []
  | .dioBackfeed _ _ _ => []
  | .dioPartnerDrive _ _ _ => []
  | .dioOvlRetry _ => []
  | .dioRetryCmd _ _ => []
  | .dioRetryCountReset _ => []
  | .dioGroupWarn _ _ => []
  | .dioGroupLow _ _ => []
  | .dioGroupOvervolt _ _ => []
  | .dioGroupLost _ _ => []
  | .dioGroupNormal _ _ => []
  | .dioGroupShed _ _ => []
  | .dioShedRetry _ => []
  | .dioLampAverage _ _ _ _ => []
  | .dioLampProbe _ _ => []
  | .dioLearnPartDone _ _ => []
  | .dioLearn _ _ => []
  | .dioLearnClr _ _ => []
  | .dioCrumb _ _ _ => []
  | .dioBarrier _ _ _ => []
  | .dioCrust _ _ _ => []
  | .dioBlockStop _ => []
  | .psEdge _ _ _ _ _ _ => []
  | .psIndexEdge _ => []
  | .psStandstill _ => []
  | .psSetPos _ _ => []
  | .psArmZ _ => []
  | .psCmpWrite _ _ _ => []
  | .psCrumb _ _ _ => []
  | .psBarrier _ _ _ => []
  | .psBlockStop _ => []
  | .psDiagClear _ _ => []
  | .scanStart _ => []
  | .onDelayExpiry _ => []
  | .offDelayExpiry _ => []
  | .releaseDelayExpiry _ => []
  | .faultDelayExpiry _ => []
  | .staleTimeout _ => []
  | .ptCmdOos _ _ => []
  | .ptCmdRts _ _ => []
  | .ptCmdSubst _ _ => []
  | .almCmdAck _ _ _ => []
  | .almCmdSilence _ _ _ => []
  | .almCmdShelve _ _ _ => []
  | .almCmdUnshelve _ _ _ => []
  | .almCmdBadOp _ _ _ _ => []
  | .shelveExpiry _ => []
  | .foSettleExpiry _ => []
  | .imzResyncSend => []
  | .callT1Expiry _ => []
  | .callT2Expiry _ => []
  | .callT3Expiry _ => []
  | .callClearedExpiry _ => []
  | .callStepRepeat _ => []
  | .callClearRepeat _ => []
  | .callUnitLost _ => []
  | .callCmdSelectDuty _ _ _ => []
  | .callCmdAckCall _ _ _ => []
  | .callCmdBadOp _ _ => []
  | .canFrameReceived _ f _ _ => [f.data]
  | .canTxRequest _ _ _ => []
  | .canTxAttemptEnd _ _ _ _ _ => []
  | .canTxAbort _ _ _ _ => []
  | .canError _ _ _ _ _ _ => []
  | .canBusoffRecovered _ => []
  | .canDominantTimeout _ => []
  | .canModeWrite _ _ _ => []
  | .canModeChange _ => []
  | .canIntegrated _ => []
  | .networkJoin => []
  | .addrClaimSend => []
  | .heartbeatSend => []
  | .addrClaimReceived f _ => [f.data]
  | .addressConflictProbeEnd => []
  | .heartbeatReceived f _ => [f.data]
  | .timeRefSend => []
  | .timeFollowSend _ => []
  | .timeRefReceived f => [f.data]
  | .timeFollowReceived f => [f.data]
  | .timHoldover => []
  | .timFree => []
  | .almTransReceived f _ => [f.data]
  | .almPendingReceived f _ => [f.data]
  | .almRetractReceived f _ => [f.data]
  | .almFrameRelease => []
  | .floodDigestSend => []
  | .floodDigestReceived f => [f.data]
  | .floodEnd => []
  | .callStepReceived f => [f.data]
  | .callAckReceived f => [f.data]
  | .pointStateSweep => []
  | .pointStateReceived f => [f.data]
  | .digestSend => []
  | .digestReceived f => [f.data]
  | .cmdRegRead f => [f.data]
  | .cmdRegWrite f => [f.data]
  | .cmdAlarm f => [f.data]
  | .cmdPoint f => [f.data]
  | .cmdDuty f => [f.data]
  | .cmdStateReq f => [f.data]
  | .cmdTimeSet f => [f.data]
  | .cmdConflict f => [f.data]
  | .rspReceived f => [f.data]
  | .cmdRspTimeout _ => []
  | .cmdTagExpiry _ _ => []
  | .rcpXferData _ _ bytes => [bytes]
  | .recXferDataReceived f => [f.data]
  | .recXferEndReceived f => [f.data]
  | .recXferSendPace => []
  | .memberLost _ => []
  | .mgrLost => []
  | .syncInPulse _ => []
  | .syncInLoss => []
  | .syncOutPulse => []
  | .timSet _ => []
  | .timSetAtPulse _ => []
  | .lvnLinkTrained _ => []
  | .lvnLaneDown _ => []
  | .lvnLaneRetrain _ _ => []
  | .lvHeartbeatSend => []
  | .lvHeartbeatReceived d _ _ => [d]
  | .lvHelloSend => []
  | .lvHelloReceived d _ => [d]
  | .roleNegotiation => []
  | .peerWaitExpiry => []
  | .epochBoundary _ _ => []
  | .lvEpochOpenReceived _ _ _ _ => []
  | .lvDeltaReceived _ _ _ => []
  | .lvCommitReceived _ _ _ _ _ _ => []
  | .lvCmdFwdReceived d _ => [d]
  | .lvFaultReceived _ _ _ => []
  | .lvPresInFall => []
  | .presCheckExpiry _ _ => []
  | .lvHeartbeatLoss _ _ => []
  | .aoHeldRecheck _ _ _ => []
  | .splitCheckExpiry => []
  | .splitPartnerLoss => []
  | .revertHoldExpiry => []
  | .lvnHandover _ => []
  | .lvRevertReqReceived _ _ => []
  | .lvRevertPlanReceived _ _ => []
  | .revertFreeze => []
  | .revertAckDeadline => []
  | .revertSwitch _ _ => []
  | .lvConfirmReceived _ _ _ => []
  | .lvRevertFailReceived _ => []
  | .revertRelease => []
  | .revertEnd => []
  | .lvImageReceived d _ => [d]
  | .partnerUpdateDone _ => []
  | .lvnStop _ _ => []
  | .lvnLoopTest _ _ => []
  | .lvnLoopDone _ => []
  | .sliceClose _ => []
  | .recEntry _ => []
  | .sliceFlushExpiry => []
  | .ringFlushExpiry => []
  | .recFlush => []
  | .pageCommitDone => []
  | .recCommitTimeout => []
  | .checkpointTimer => []
  | .recRecovery => []
  | .recRecoveryDone => []
  | .recFormat _ _ => []
  | .recStop _ => []
  | .recReadSeq _ => []
  | .recFindTime _ => []
  | .recReadNext _ => []
  | .recReadOpen _ => []
  | .recReadDone _ => []
  | .mmcCommandFail _ _ _ _ => []
  | .mmcReinitTimer _ => []
  | .pnlUpdateRequest _ _ _ _ => []
  | .pnlRailsReady => []
  | .pnlRailIdle => []
  | .pnlRailFault => []
  | .pnlRailRetry => []
  | .pnlRailFaultRetry => []
  | .pnlRetry => []
  | .pnlRefresh => []
  | .pnlTempSample _ => []
  | .pnlVcomChange => []
  | .pnlFrameBoundary _ => []
  | .fbApertureWrite _ _ _ => []
  | .rndRedraw => []
  | .rndPageSelect _ _ _ => []
  | .rndKeyUp => []
  | .rndKeyDown => []
  | .rndKeyPage => []
  | .rndKeySelect => []
  | .rndKeyAck => []
  | .rndKeyAckPage => []
  | .rndKeySilence => []
  | .rndKeyAckCall _ => []
  | .rndKeyDuty _ => []
  | .rndKeyBad _ => []
  | .hostRead _ _ header => [header]
  | .hostWrite _ _ _ => []
  | .hostWriteApply _ => []
  | .hostSleepChange _ _ => []
  | .hostIdleDoorbell _ _ => []
  | .hostDoorbell _ _ => []
  | .evrRecordWrite _ => []
  | .evrClaim _ => []
  | .evrEoi _ => []
  | .evrEnSet _ _ _ => []
  | .evrEnClr _ _ => []
  | .evrPndSet _ _ => []
  | .evrPndClr _ _ => []
  | .evrTargetChange _ _ => []
  | .evrHoldWrite _ => []
  | .evrHoldoffExpiry _ => []
  | .ageRefCheck _ _ _ => []
  | .ageAoGain _ _ _ => []
  | .ageDioSwitch _ _ => []
  | .ageTcxoSample => []
  | .ageHoldTest _ _ _ _ => []
  | .ageEmmcWear _ _ _ => []
  | .ageBarrierTest _ _ => []
  | .ageLedgerPage _ => []
  | .ageLedgerScanDone => []
  | .ageAckDue _ _ => []
  | .ageRebase _ _ => []
  | .ageTestHold _ _ _ _ => []
  | .ageMeasure _ => []
  | .ageCmdBadOp _ => []
  | .periodicLoopback _ _ _ _ => []
  | .dioFieldLoopback _ _ => []
  | .fieldLoopbackDone _ _ => []
  | .jtagInstruction _ _ => []
  | .registerWrite _ _ _ => []
  | .readClear _ => []
  | .timeLoRead _ => []
  | .networkTimeWaitExpiry => []
  | .aoIslandPowered _ => []
  | .dioDiagClear _ _ => []
  | .psPulseRejected _ => []
  | .floodStateReqPace => []
  | .lvPresInRise => []
  | .lvImageSend => []
  | .recipeSectionReloadDone _ => []

end Sys2Proof
end

