-- ==== Sys2Proof/Laws/PerInstr.lean ====
section
/-! SUPPORT. PerInstr: the shape of every command: a well-formed one brings sequences of at most 4096 bytes. -/

open Sys2Proof

/-- What is said of every command's shape. -/
def Sys2Proof.Laws.Shape.Statement (i : Instr) : Prop :=
  wellFormed i = true → ∀ d ∈ byteFields i, d.length ≤ 4096

namespace Sys2Proof.Laws.Shape

theorem dlcBytes_le (fdf : Bool) (n : Nat) : dlcBytes fdf n ≤ 4096 := by
  unfold dlcBytes
  split
  · omega
  · split
    · rcases h : n - 9 with _ | _ | _ | _ | _ | _ | _ | k <;> simp [List.getD]
    · omega

theorem canFrame_bound (f : CanFrame) : f.wellFormed = true → ∀ d ∈ [f.data], d.length ≤ 4096 := by
  intro h d hd
  have e := (Bool.and_eq_true_iff.mp h).1
  rw [List.mem_singleton.mp hd, eq_of_beq e]
  split
  · omega
  · exact dlcBytes_le _ _

theorem imzRx_bound (f : ImzRx) : f.wellFormed = true → ∀ d ∈ [f.data], d.length ≤ 4096 := by
  intro h d hd
  obtain ⟨n, _, e⟩ := List.any_eq_true.mp h
  rw [List.mem_singleton.mp hd, ← eq_of_beq e]
  exact dlcBytes_le _ _

theorem bodyIs_bound (n : Nat) (b : List Byte) (k : n ≤ 4096) : bodyIs n b = true → ∀ d ∈ [b], d.length ≤ 4096 := by
  intro h d hd
  rw [List.mem_singleton.mp hd, eq_of_beq h]
  exact k

theorem imageBody_bound (b : List Byte) : imageBody b = true → ∀ d ∈ [b], d.length ≤ 4096 := by
  intro h d hd
  rw [List.mem_singleton.mp hd]
  exact of_decide_eq_true (Bool.and_eq_true_iff.mp h).2

theorem hartIn_bound (b : List Byte) (n : Nat) : hartIn b n = true → ∀ d ∈ [b], d.length ≤ 4096 := by
  intro h d hd
  rw [List.mem_singleton.mp hd]
  exact of_decide_eq_true (Bool.and_eq_true_iff.mp h).1

theorem readHeader_bound (b : List Byte) : readHeader b = true → ∀ d ∈ [b], d.length ≤ 4096 := by
  intro h d hd
  rw [List.mem_singleton.mp hd]
  rcases Bool.or_eq_true_iff.mp h with e | e <;> rw [eq_of_beq e] <;> omega

end Sys2Proof.Laws.Shape

open Sys2Proof.Laws.Shape Sys2Proof.Machine

theorem Sys2Proof.Laws.Shape.fabricRequest (r : FabReq) (queueFull : Bool) (parity : Bool) (waits : Bool) : Statement
    (.fabricRequest r queueFull parity waits) :=
  fun _ _ h => nomatch h

theorem Sys2Proof.Laws.Shape.fabricResponse (requester : BitVec 6) (tag : Byte) (parity : Bool) : Statement
    (.fabricResponse requester tag parity) :=
  fun _ _ h => nomatch h

theorem Sys2Proof.Laws.Shape.fabricTimeout (requester : BitVec 6) (tag : Byte) : Statement (.fabricTimeout requester
    tag) :=
  fun _ _ h => nomatch h

theorem Sys2Proof.Laws.Shape.seqQuery (requester : BitVec 6) (target : BitVec 6) : Statement (.seqQuery requester
    target) :=
  fun _ _ h => nomatch h

theorem Sys2Proof.Laws.Shape.busyResend (requester : BitVec 6) (tag : Byte) : Statement (.busyResend requester tag) :=
  fun _ _ h => nomatch h

theorem Sys2Proof.Laws.Shape.grantHoldOverrun (block : BitVec 6) (cell : Byte) (retryOk : Bool) : Statement
    (.grantHoldOverrun block cell retryOk) :=
  fun _ _ h => nomatch h

theorem Sys2Proof.Laws.Shape.requestDeadlineMiss (block : BitVec 6) (cell : Byte) (parity : Bool) (retryOk : Bool) :
    Statement (.requestDeadlineMiss block cell parity retryOk) :=
  fun _ _ h => nomatch h

theorem Sys2Proof.Laws.Shape.readmissionTest (block : BitVec 6) (cell : Byte) (pass : Bool) : Statement
    (.readmissionTest block cell pass) :=
  fun _ _ h => nomatch h

theorem Sys2Proof.Laws.Shape.cellReadmit (block : BitVec 6) (cells : BitVec 16) : Statement (.cellReadmit block cells)
    :=
  fun _ _ h => nomatch h

theorem Sys2Proof.Laws.Shape.regionWatchdogExpiry (r : Fin 5) : Statement (.regionWatchdogExpiry r) :=
  fun _ _ h => nomatch h

theorem Sys2Proof.Laws.Shape.regionReady (r : Fin 5) (partnerSame : Bool) : Statement (.regionReady r partnerSame) :=
  fun _ _ h => nomatch h

theorem Sys2Proof.Laws.Shape.readyLimitExpiry (r : Fin 5) : Statement (.readyLimitExpiry r) :=
  fun _ _ h => nomatch h

theorem Sys2Proof.Laws.Shape.sysRgnReset (src : Source) (mask : BitVec 5) : Statement (.sysRgnReset src mask) :=
  fun _ _ h => nomatch h

theorem Sys2Proof.Laws.Shape.sysRgnHold (src : Source) (mask : BitVec 5) : Statement (.sysRgnHold src mask) :=
  fun _ _ h => nomatch h

theorem Sys2Proof.Laws.Shape.supervisorWatchdogExpiry : Statement .supervisorWatchdogExpiry :=
  fun _ _ h => nomatch h

theorem Sys2Proof.Laws.Shape.fabricRootError (timeout : Bool) : Statement (.fabricRootError timeout) :=
  fun _ _ h => nomatch h

theorem Sys2Proof.Laws.Shape.pllLoss : Statement .pllLoss :=
  fun _ _ h => nomatch h

theorem Sys2Proof.Laws.Shape.safeStateRestart : Statement .safeStateRestart :=
  fun _ _ h => nomatch h

theorem Sys2Proof.Laws.Shape.scrubPass (corrected : Half) (errors : List MemErr) : Statement (.scrubPass corrected
    errors) :=
  fun _ _ h => nomatch h

theorem Sys2Proof.Laws.Shape.testmodeHigh : Statement .testmodeHigh :=
  fun _ _ h => nomatch h

theorem Sys2Proof.Laws.Shape.roleChange (level : Bool) : Statement (.roleChange level) :=
  fun _ _ h => nomatch h

theorem Sys2Proof.Laws.Shape.resetnLow : Statement .resetnLow :=
  fun _ _ h => nomatch h

theorem Sys2Proof.Laws.Shape.resetnRise : Statement .resetnRise :=
  fun _ _ h => nomatch h

theorem Sys2Proof.Laws.Shape.feedLow (f : Fin 2) (v : Half) : Statement (.feedLow f v) :=
  fun _ _ h => nomatch h

theorem Sys2Proof.Laws.Shape.feedLost (f : Fin 2) (v : Half) (hold : Half) : Statement (.feedLost f v hold) :=
  fun _ _ h => nomatch h

theorem Sys2Proof.Laws.Shape.feedLostEnd (f : Fin 2) (v : Half) (hold : Half) : Statement (.feedLostEnd f v hold) :=
  fun _ _ h => nomatch h

theorem Sys2Proof.Laws.Shape.feedHigh (f : Fin 2) (v : Half) : Statement (.feedHigh f v) :=
  fun _ _ h => nomatch h

theorem Sys2Proof.Laws.Shape.feedInRange (f : Fin 2) (v : Half) : Statement (.feedInRange f v) :=
  fun _ _ h => nomatch h

theorem Sys2Proof.Laws.Shape.feedDisconnect (f : Fin 2) : Statement (.feedDisconnect f) :=
  fun _ _ h => nomatch h

theorem Sys2Proof.Laws.Shape.feedReconnect (f : Fin 2) : Statement (.feedReconnect f) :=
  fun _ _ h => nomatch h

theorem Sys2Proof.Laws.Shape.feedReversed (f : Fin 2) (hold : Half) : Statement (.feedReversed f hold) :=
  fun _ _ h => nomatch h

theorem Sys2Proof.Laws.Shape.powerGood (testmode : Bool) : Statement (.powerGood testmode) :=
  fun _ _ h => nomatch h

theorem Sys2Proof.Laws.Shape.powerGoodLoss : Statement .powerGoodLoss :=
  fun _ _ h => nomatch h

theorem Sys2Proof.Laws.Shape.holdAbsent (v : Half) : Statement (.holdAbsent v) :=
  fun _ _ h => nomatch h

theorem Sys2Proof.Laws.Shape.holdOk (v : Half) : Statement (.holdOk v) :=
  fun _ _ h => nomatch h

theorem Sys2Proof.Laws.Shape.holdFault (v : Half) : Statement (.holdFault v) :=
  fun _ _ h => nomatch h

theorem Sys2Proof.Laws.Shape.holdChargeRetry : Statement .holdChargeRetry :=
  fun _ _ h => nomatch h

theorem Sys2Proof.Laws.Shape.lastBreath (hold : Half) (dataDone : Bool) : Statement (.lastBreath hold dataDone) :=
  fun _ _ h => nomatch h

theorem Sys2Proof.Laws.Shape.lastBreathRestart : Statement .lastBreathRestart :=
  fun _ _ h => nomatch h

theorem Sys2Proof.Laws.Shape.xtalHandover : Statement .xtalHandover :=
  fun _ _ h => nomatch h

theorem Sys2Proof.Laws.Shape.clockCheck (diff : Int) (tcxoNet : Int) (xtalNet : Int) : Statement (.clockCheck diff
    tcxoNet xtalNet) :=
  fun _ _ h => nomatch h

theorem Sys2Proof.Laws.Shape.tempMeasure (plate : Half) (die : Half) : Statement (.tempMeasure plate die) :=
  fun _ _ h => nomatch h

theorem Sys2Proof.Laws.Shape.supplyEventHoldoff (q : Quantity) (v : Half) : Statement (.supplyEventHoldoff q v) :=
  fun _ _ h => nomatch h

theorem Sys2Proof.Laws.Shape.dozeEnable (src : Source) (en : Bool) : Statement (.dozeEnable src en) :=
  fun _ _ h => nomatch h

theorem Sys2Proof.Laws.Shape.dozePowerDown (fce : Bool) : Statement (.dozePowerDown fce) :=
  fun _ _ h => nomatch h

theorem Sys2Proof.Laws.Shape.dozePowerUp (fce : Bool) : Statement (.dozePowerUp fce) :=
  fun _ _ h => nomatch h

theorem Sys2Proof.Laws.Shape.dormantRequest (src : Source) : Statement (.dormantRequest src) :=
  fun _ _ h => nomatch h

theorem Sys2Proof.Laws.Shape.dormantEntry : Statement .dormantEntry :=
  fun _ _ h => nomatch h

theorem Sys2Proof.Laws.Shape.wakeCommand (src : Source) : Statement (.wakeCommand src) :=
  fun _ _ h => nomatch h

theorem Sys2Proof.Laws.Shape.dormantWake (src : Option (BitVec 9)) : Statement (.dormantWake src) :=
  fun _ _ h => nomatch h

theorem Sys2Proof.Laws.Shape.emmcInit (ok : Bool) (info : MmcInfo) : Statement (.emmcInit ok info) :=
  fun _ _ h => nomatch h

theorem Sys2Proof.Laws.Shape.emmcInitRetry (ok : Bool) (info : MmcInfo) : Statement (.emmcInitRetry ok info) :=
  fun _ _ h => nomatch h

theorem Sys2Proof.Laws.Shape.bootHeadersRead (ok : Bool) : Statement (.bootHeadersRead ok) :=
  fun _ _ h => nomatch h

theorem Sys2Proof.Laws.Shape.activeImageLoaded (ok : Bool) : Statement (.activeImageLoaded ok) :=
  fun _ _ h => nomatch h

theorem Sys2Proof.Laws.Shape.shadowLoaded (ok : Bool) : Statement (.shadowLoaded ok) :=
  fun _ _ h => nomatch h

theorem Sys2Proof.Laws.Shape.startInhibitEnd : Statement .startInhibitEnd :=
  fun _ _ h => nomatch h

theorem Sys2Proof.Laws.Shape.bareRateSearchStep : Statement .bareRateSearchStep :=
  fun _ _ h => nomatch h

theorem Sys2Proof.Laws.Shape.bareAddrClaim : Statement .bareAddrClaim :=
  fun _ _ h => nomatch h

theorem Sys2Proof.Laws.Shape.rcpOpen (src : Source) (ok : Bool) : Statement (.rcpOpen src ok) :=
  fun _ _ h => nomatch h

theorem Sys2Proof.Laws.Shape.rcpWriteBlock (src : Source) (n : Half) (ok : Bool) : Statement (.rcpWriteBlock src n ok)
    :=
  fun _ _ h => nomatch h

theorem Sys2Proof.Laws.Shape.rcpVerify (src : Source) : Statement (.rcpVerify src) :=
  fun _ _ h => nomatch h

theorem Sys2Proof.Laws.Shape.rcpVerifyDone (fail : Option Half) (partner : PartnerAnswer) : Statement (.rcpVerifyDone
    fail partner) :=
  fun _ _ h => nomatch h

theorem Sys2Proof.Laws.Shape.rcpClose (src : Source) : Statement (.rcpClose src) :=
  fun _ _ h => nomatch h

theorem Sys2Proof.Laws.Shape.rcpSwap (src : Source) (key : Byte) (partnerSame : Bool) : Statement (.rcpSwap src key
    partnerSame) :=
  fun _ _ h => nomatch h

theorem Sys2Proof.Laws.Shape.rcpSetActive (src : Source) (key : Byte) (ok : Bool) : Statement (.rcpSetActive src key ok)
    :=
  fun _ _ h => nomatch h

theorem Sys2Proof.Laws.Shape.rcpReloadShadow (src : Source) (ok : Bool) : Statement (.rcpReloadShadow src ok) :=
  fun _ _ h => nomatch h

theorem Sys2Proof.Laws.Shape.rcpBadOp (src : Source) (op : Byte) : Statement (.rcpBadOp src op) :=
  fun _ _ h => nomatch h

theorem Sys2Proof.Laws.Shape.rcpBufWrite (src : Source) (w : BitVec 10) (v : Word) : Statement (.rcpBufWrite src w v) :=
  fun _ _ h => nomatch h

theorem Sys2Proof.Laws.Shape.rcpOwnerTimeout : Statement .rcpOwnerTimeout :=
  fun _ _ h => nomatch h

theorem Sys2Proof.Laws.Shape.swapBoundary : Statement .swapBoundary :=
  fun _ _ h => nomatch h

theorem Sys2Proof.Laws.Shape.swapAbort : Statement .swapAbort :=
  fun _ _ h => nomatch h

theorem Sys2Proof.Laws.Shape.bootConfigWritten (ok : Bool) : Statement (.bootConfigWritten ok) :=
  fun _ _ h => nomatch h

theorem Sys2Proof.Laws.Shape.bootConfigRetry (ok : Bool) : Statement (.bootConfigRetry ok) :=
  fun _ _ h => nomatch h

theorem Sys2Proof.Laws.Shape.uiIslandPowered (c : Fin 16) : Statement (.uiIslandPowered c) :=
  fun _ _ h => nomatch h

theorem Sys2Proof.Laws.Shape.uiConversion (c : Fin 16) (m : UiMeas) : Statement (.uiConversion c m) :=
  fun _ _ h => nomatch h

theorem Sys2Proof.Laws.Shape.uiTestWindow (c : Fin 16) (w : UiWindow) : Statement (.uiTestWindow c w) :=
  fun _ _ h => nomatch h

theorem Sys2Proof.Laws.Shape.uiTestCmd (src : Source) (c : Fin 16) : Statement (.uiTestCmd src c) :=
  fun _ _ h => nomatch h

theorem Sys2Proof.Laws.Shape.uiCalInterval (c : Fin 16) : Statement (.uiCalInterval c) :=
  fun _ _ h => nomatch h

theorem Sys2Proof.Laws.Shape.uiCalCmd (src : Source) (c : Fin 16) : Statement (.uiCalCmd src c) :=
  fun _ _ h => nomatch h

theorem Sys2Proof.Laws.Shape.uiCalDone (c : Fin 16) (ofs : Word) (gain : Word) (island : Int) : Statement (.uiCalDone c
    ofs gain island) :=
  fun _ _ h => nomatch h

theorem Sys2Proof.Laws.Shape.uiRefCheck (c : Fin 16) (ppm : Nat) : Statement (.uiRefCheck c ppm) :=
  fun _ _ h => nomatch h

theorem Sys2Proof.Laws.Shape.uiNe43Confirm (c : Fin 16) (past : BitVec 3) : Statement (.uiNe43Confirm c past) :=
  fun _ _ h => nomatch h

theorem Sys2Proof.Laws.Shape.uiTxsOverload (c : Fin 16) : Statement (.uiTxsOverload c) :=
  fun _ _ h => nomatch h

theorem Sys2Proof.Laws.Shape.uiTxsRetry (c : Fin 16) : Statement (.uiTxsRetry c) :=
  fun _ _ h => nomatch h

theorem Sys2Proof.Laws.Shape.uiTxsOn (src : Source) (c : Fin 16) : Statement (.uiTxsOn src c) :=
  fun _ _ h => nomatch h

theorem Sys2Proof.Laws.Shape.uiTrendReset (c : Fin 16) : Statement (.uiTrendReset c) :=
  fun _ _ h => nomatch h

theorem Sys2Proof.Laws.Shape.uiCrumb (src : Source) (c : Fin 16) (pass : Bool) : Statement (.uiCrumb src c pass) :=
  fun _ _ h => nomatch h

theorem Sys2Proof.Laws.Shape.uiBarrier (src : Source) (c : Fin 16) (pass : Bool) : Statement (.uiBarrier src c pass) :=
  fun _ _ h => nomatch h

theorem Sys2Proof.Laws.Shape.uiBlockStop (stop : BitVec 2) : Statement (.uiBlockStop stop) :=
  fun _ _ h => nomatch h

theorem Sys2Proof.Laws.Shape.uiSharedExcCheck (c : Fin 16) (v : Int) : Statement (.uiSharedExcCheck c v) :=
  fun _ _ h => nomatch h

theorem Sys2Proof.Laws.Shape.aoCellCycle (c : Fin 4) (m : AoMeas) : Statement (.aoCellCycle c m) :=
  fun _ _ h => nomatch h

theorem Sys2Proof.Laws.Shape.aoClockStepUp (c : Fin 4) : Statement (.aoClockStepUp c) :=
  fun _ _ h => nomatch h

theorem Sys2Proof.Laws.Shape.aoBrownout (c : Fin 4) : Statement (.aoBrownout c) :=
  fun _ _ h => nomatch h

theorem Sys2Proof.Laws.Shape.aoIslandRestart (c : Fin 4) : Statement (.aoIslandRestart c) :=
  fun _ _ h => nomatch h

theorem Sys2Proof.Laws.Shape.aoBrownoutClear (c : Fin 4) : Statement (.aoBrownoutClear c) :=
  fun _ _ h => nomatch h

theorem Sys2Proof.Laws.Shape.aoKeepalive (echoes : BitVec 4) : Statement (.aoKeepalive echoes) :=
  fun _ _ h => nomatch h

theorem Sys2Proof.Laws.Shape.aoKeepaliveLost (c : Fin 4) : Statement (.aoKeepaliveLost c) :=
  fun _ _ h => nomatch h

theorem Sys2Proof.Laws.Shape.aoComplianceRetry (c : Fin 4) : Statement (.aoComplianceRetry c) :=
  fun _ _ h => nomatch h

theorem Sys2Proof.Laws.Shape.aoSwitchReclose (c : Fin 4) : Statement (.aoSwitchReclose c) :=
  fun _ _ h => nomatch h

theorem Sys2Proof.Laws.Shape.aoRestart (src : Source) (c : Fin 4) : Statement (.aoRestart src c) :=
  fun _ _ h => nomatch h

theorem Sys2Proof.Laws.Shape.aoCalDone (c : Fin 4) : Statement (.aoCalDone c) :=
  fun _ _ h => nomatch h

theorem Sys2Proof.Laws.Shape.aoTrimApply (src : Source) (c : Fin 4) : Statement (.aoTrimApply src c) :=
  fun _ _ h => nomatch h

theorem Sys2Proof.Laws.Shape.aoTrimClear (src : Source) (c : Fin 4) : Statement (.aoTrimClear src c) :=
  fun _ _ h => nomatch h

theorem Sys2Proof.Laws.Shape.aoHartTx (src : Source) (c : Fin 4) : Statement (.aoHartTx src c) :=
  fun _ _ h => nomatch h

theorem Sys2Proof.Laws.Shape.aoHartTxStart (c : Fin 4) : Statement (.aoHartTxStart c) :=
  fun _ _ h => nomatch h

theorem Sys2Proof.Laws.Shape.aoHartTxDone (c : Fin 4) : Statement (.aoHartTxDone c) :=
  fun _ _ h => nomatch h

theorem Sys2Proof.Laws.Shape.aoHartCarrierDetect (c : Fin 4) : Statement (.aoHartCarrierDetect c) :=
  fun _ _ h => nomatch h

theorem Sys2Proof.Laws.Shape.aoHartRxDone (c : Fin 4) (bytes : List Byte) (perr : Nat) : Statement (.aoHartRxDone c
    bytes perr) :=
  hartIn_bound _ _

theorem Sys2Proof.Laws.Shape.aoCrust (src : Source) (c : Fin 4) (diff : Nat) : Statement (.aoCrust src c diff) :=
  fun _ _ h => nomatch h

theorem Sys2Proof.Laws.Shape.aoTrimEnter (c : Fin 4) (span : Bool) : Statement (.aoTrimEnter c span) :=
  fun _ _ h => nomatch h

theorem Sys2Proof.Laws.Shape.aoTrimAdjust (c : Fin 4) (up : Bool) : Statement (.aoTrimAdjust c up) :=
  fun _ _ h => nomatch h

theorem Sys2Proof.Laws.Shape.aoTrimStore (c : Fin 4) : Statement (.aoTrimStore c) :=
  fun _ _ h => nomatch h

theorem Sys2Proof.Laws.Shape.aoTrimDiscard (c : Fin 4) : Statement (.aoTrimDiscard c) :=
  fun _ _ h => nomatch h

theorem Sys2Proof.Laws.Shape.aoTrimTimeout (c : Fin 4) : Statement (.aoTrimTimeout c) :=
  fun _ _ h => nomatch h

theorem Sys2Proof.Laws.Shape.aoBlockStop (stop : Bool) : Statement (.aoBlockStop stop) :=
  fun _ _ h => nomatch h

theorem Sys2Proof.Laws.Shape.dioInputTransition (c : Fin 16) (level : Bool) (at' : Ts) : Statement (.dioInputTransition
    c level at') :=
  fun _ _ h => nomatch h

theorem Sys2Proof.Laws.Shape.dioLineBreak (c : Fin 16) : Statement (.dioLineBreak c) :=
  fun _ _ h => nomatch h

theorem Sys2Proof.Laws.Shape.dioButtonStuck (c : Fin 16) : Statement (.dioButtonStuck c) :=
  fun _ _ h => nomatch h

theorem Sys2Proof.Laws.Shape.dioBlinkPhase : Statement .dioBlinkPhase :=
  fun _ _ h => nomatch h

theorem Sys2Proof.Laws.Shape.dioInrushEnd (c : Fin 16) : Statement (.dioInrushEnd c) :=
  fun _ _ h => nomatch h

theorem Sys2Proof.Laws.Shape.dioKeepalive : Statement .dioKeepalive :=
  fun _ _ h => nomatch h

theorem Sys2Proof.Laws.Shape.dioKeepaliveLost (g : Fin 2) : Statement (.dioKeepaliveLost g) :=
  fun _ _ h => nomatch h

theorem Sys2Proof.Laws.Shape.dioOverload (c : Fin 16) (curr : Nat) : Statement (.dioOverload c curr) :=
  fun _ _ h => nomatch h

theorem Sys2Proof.Laws.Shape.dioShortCircuit (c : Fin 16) : Statement (.dioShortCircuit c) :=
  fun _ _ h => nomatch h

theorem Sys2Proof.Laws.Shape.dioOvertemp (c : Fin 16) : Statement (.dioOvertemp c) :=
  fun _ _ h => nomatch h

theorem Sys2Proof.Laws.Shape.dioOvertempEnd (c : Fin 16) : Statement (.dioOvertempEnd c) :=
  fun _ _ h => nomatch h

theorem Sys2Proof.Laws.Shape.dioOpenOn (c : Fin 16) : Statement (.dioOpenOn c) :=
  fun _ _ h => nomatch h

theorem Sys2Proof.Laws.Shape.dioOpenOff (c : Fin 16) (v : Int) (pin : Bool) : Statement (.dioOpenOff c v pin) :=
  fun _ _ h => nomatch h

theorem Sys2Proof.Laws.Shape.dioShortFsp (c : Fin 16) (v : Int) (pin : Bool) : Statement (.dioShortFsp c v pin) :=
  fun _ _ h => nomatch h

theorem Sys2Proof.Laws.Shape.dioBackfeed (c : Fin 16) (v : Int) (pin : Bool) : Statement (.dioBackfeed c v pin) :=
  fun _ _ h => nomatch h

theorem Sys2Proof.Laws.Shape.dioPartnerDrive (c : Fin 16) (v : Int) (pin : Bool) : Statement (.dioPartnerDrive c v pin)
    :=
  fun _ _ h => nomatch h

theorem Sys2Proof.Laws.Shape.dioOvlRetry (c : Fin 16) : Statement (.dioOvlRetry c) :=
  fun _ _ h => nomatch h

theorem Sys2Proof.Laws.Shape.dioRetryCmd (src : Source) (c : Fin 16) : Statement (.dioRetryCmd src c) :=
  fun _ _ h => nomatch h

theorem Sys2Proof.Laws.Shape.dioRetryCountReset (c : Fin 16) : Statement (.dioRetryCountReset c) :=
  fun _ _ h => nomatch h

theorem Sys2Proof.Laws.Shape.dioGroupWarn (g : Fin 2) (v : Half) : Statement (.dioGroupWarn g v) :=
  fun _ _ h => nomatch h

theorem Sys2Proof.Laws.Shape.dioGroupLow (g : Fin 2) (v : Half) : Statement (.dioGroupLow g v) :=
  fun _ _ h => nomatch h

theorem Sys2Proof.Laws.Shape.dioGroupOvervolt (g : Fin 2) (v : Half) : Statement (.dioGroupOvervolt g v) :=
  fun _ _ h => nomatch h

theorem Sys2Proof.Laws.Shape.dioGroupLost (g : Fin 2) (v : Half) : Statement (.dioGroupLost g v) :=
  fun _ _ h => nomatch h

theorem Sys2Proof.Laws.Shape.dioGroupNormal (g : Fin 2) (v : Half) : Statement (.dioGroupNormal g v) :=
  fun _ _ h => nomatch h

theorem Sys2Proof.Laws.Shape.dioGroupShed (g : Fin 2) (mean : Half) : Statement (.dioGroupShed g mean) :=
  fun _ _ h => nomatch h

theorem Sys2Proof.Laws.Shape.dioShedRetry (c : Fin 16) : Statement (.dioShedRetry c) :=
  fun _ _ h => nomatch h

theorem Sys2Proof.Laws.Shape.dioLampAverage (c : Fin 16) (curr : Nat) (v : Nat) (settled : Bool) : Statement
    (.dioLampAverage c curr v settled) :=
  fun _ _ h => nomatch h

theorem Sys2Proof.Laws.Shape.dioLampProbe (c : Fin 16) (curr : Nat) : Statement (.dioLampProbe c curr) :=
  fun _ _ h => nomatch h

theorem Sys2Proof.Laws.Shape.dioLearnPartDone (c : Fin 16) (probe : Bool) : Statement (.dioLearnPartDone c probe) :=
  fun _ _ h => nomatch h

theorem Sys2Proof.Laws.Shape.dioLearn (src : Source) (c : Fin 16) : Statement (.dioLearn src c) :=
  fun _ _ h => nomatch h

theorem Sys2Proof.Laws.Shape.dioLearnClr (src : Source) (c : Fin 16) : Statement (.dioLearnClr src c) :=
  fun _ _ h => nomatch h

theorem Sys2Proof.Laws.Shape.dioCrumb (src : Source) (c : Fin 16) (pass : Bool) : Statement (.dioCrumb src c pass) :=
  fun _ _ h => nomatch h

theorem Sys2Proof.Laws.Shape.dioBarrier (src : Source) (c : Fin 16) (pass : Bool) : Statement (.dioBarrier src c pass)
    :=
  fun _ _ h => nomatch h

theorem Sys2Proof.Laws.Shape.dioCrust (src : Source) (c : Fin 16) (pass : Bool) : Statement (.dioCrust src c pass) :=
  fun _ _ h => nomatch h

theorem Sys2Proof.Laws.Shape.dioBlockStop (stop : BitVec 2) : Statement (.dioBlockStop stop) :=
  fun _ _ h => nomatch h

theorem Sys2Proof.Laws.Shape.psEdge (c : Fin 2) (a : Bool) (b : Bool) (bLevel : Bool) (bChanged : Bool) (z : Bool) :
    Statement (.psEdge c a b bLevel bChanged z) :=
  fun _ _ h => nomatch h

theorem Sys2Proof.Laws.Shape.psIndexEdge (c : Fin 2) : Statement (.psIndexEdge c) :=
  fun _ _ h => nomatch h

theorem Sys2Proof.Laws.Shape.psStandstill (c : Fin 2) : Statement (.psStandstill c) :=
  fun _ _ h => nomatch h

theorem Sys2Proof.Laws.Shape.psSetPos (src : Source) (c : Fin 2) : Statement (.psSetPos src c) :=
  fun _ _ h => nomatch h

theorem Sys2Proof.Laws.Shape.psArmZ (c : Fin 2) : Statement (.psArmZ c) :=
  fun _ _ h => nomatch h

theorem Sys2Proof.Laws.Shape.psCmpWrite (src : Source) (c : Fin 2) (v : Word) : Statement (.psCmpWrite src c v) :=
  fun _ _ h => nomatch h

theorem Sys2Proof.Laws.Shape.psCrumb (src : Source) (c : Fin 2) (pass : Bool) : Statement (.psCrumb src c pass) :=
  fun _ _ h => nomatch h

theorem Sys2Proof.Laws.Shape.psBarrier (src : Source) (c : Fin 2) (pass : Bool) : Statement (.psBarrier src c pass) :=
  fun _ _ h => nomatch h

theorem Sys2Proof.Laws.Shape.psBlockStop (stop : Bool) : Statement (.psBlockStop stop) :=
  fun _ _ h => nomatch h

theorem Sys2Proof.Laws.Shape.psDiagClear (c : Fin 2) (bit' : Fin 9) : Statement (.psDiagClear c bit') :=
  fun _ _ h => nomatch h

theorem Sys2Proof.Laws.Shape.scanStart (dur : Half) : Statement (.scanStart dur) :=
  fun _ _ h => nomatch h

theorem Sys2Proof.Laws.Shape.onDelayExpiry (n : Fin 80) : Statement (.onDelayExpiry n) :=
  fun _ _ h => nomatch h

theorem Sys2Proof.Laws.Shape.offDelayExpiry (n : Fin 80) : Statement (.offDelayExpiry n) :=
  fun _ _ h => nomatch h

theorem Sys2Proof.Laws.Shape.releaseDelayExpiry (n : Fin 80) : Statement (.releaseDelayExpiry n) :=
  fun _ _ h => nomatch h

theorem Sys2Proof.Laws.Shape.faultDelayExpiry (n : Fin 80) : Statement (.faultDelayExpiry n) :=
  fun _ _ h => nomatch h

theorem Sys2Proof.Laws.Shape.staleTimeout (n : Fin 80) : Statement (.staleTimeout n) :=
  fun _ _ h => nomatch h

theorem Sys2Proof.Laws.Shape.ptCmdOos (src : Source) (slot : Fin 128) : Statement (.ptCmdOos src slot) :=
  fun _ _ h => nomatch h

theorem Sys2Proof.Laws.Shape.ptCmdRts (src : Source) (slot : Fin 128) : Statement (.ptCmdRts src slot) :=
  fun _ _ h => nomatch h

theorem Sys2Proof.Laws.Shape.ptCmdSubst (src : Source) (slot : Fin 128) : Statement (.ptCmdSubst src slot) :=
  fun _ _ h => nomatch h

theorem Sys2Proof.Laws.Shape.almCmdAck (src : Source) (scope : Fin 4) (target : BitVec 23) : Statement (.almCmdAck src
    scope target) :=
  fun _ _ h => nomatch h

theorem Sys2Proof.Laws.Shape.almCmdSilence (src : Source) (scope : Fin 4) (target : BitVec 23) : Statement
    (.almCmdSilence src scope target) :=
  fun _ _ h => nomatch h

theorem Sys2Proof.Laws.Shape.almCmdShelve (src : Source) (scope : Fin 4) (target : BitVec 23) : Statement (.almCmdShelve
    src scope target) :=
  fun _ _ h => nomatch h

theorem Sys2Proof.Laws.Shape.almCmdUnshelve (src : Source) (scope : Fin 4) (target : BitVec 23) : Statement
    (.almCmdUnshelve src scope target) :=
  fun _ _ h => nomatch h

theorem Sys2Proof.Laws.Shape.almCmdBadOp (src : Source) (op : Fin 8) (scope : Fin 4) (target : BitVec 23) : Statement
    (.almCmdBadOp src op scope target) :=
  fun _ _ h => nomatch h

theorem Sys2Proof.Laws.Shape.shelveExpiry (n : Fin 80) : Statement (.shelveExpiry n) :=
  fun _ _ h => nomatch h

theorem Sys2Proof.Laws.Shape.foSettleExpiry (g : Fin 1024) : Statement (.foSettleExpiry g) :=
  fun _ _ h => nomatch h

theorem Sys2Proof.Laws.Shape.imzResyncSend : Statement .imzResyncSend :=
  fun _ _ h => nomatch h

theorem Sys2Proof.Laws.Shape.callT1Expiry (n : Fin 257) : Statement (.callT1Expiry n) :=
  fun _ _ h => nomatch h

theorem Sys2Proof.Laws.Shape.callT2Expiry (n : Fin 257) : Statement (.callT2Expiry n) :=
  fun _ _ h => nomatch h

theorem Sys2Proof.Laws.Shape.callT3Expiry (n : Fin 257) : Statement (.callT3Expiry n) :=
  fun _ _ h => nomatch h

theorem Sys2Proof.Laws.Shape.callClearedExpiry (n : Fin 257) : Statement (.callClearedExpiry n) :=
  fun _ _ h => nomatch h

theorem Sys2Proof.Laws.Shape.callStepRepeat (n : Fin 257) : Statement (.callStepRepeat n) :=
  fun _ _ h => nomatch h

theorem Sys2Proof.Laws.Shape.callClearRepeat (n : Fin 257) : Statement (.callClearRepeat n) :=
  fun _ _ h => nomatch h

theorem Sys2Proof.Laws.Shape.callUnitLost (u : Fin 64) : Statement (.callUnitLost u) :=
  fun _ _ h => nomatch h

theorem Sys2Proof.Laws.Shape.callCmdSelectDuty (src : Source) (eng : BitVec 5) (session : BitVec 9) : Statement
    (.callCmdSelectDuty src eng session) :=
  fun _ _ h => nomatch h

theorem Sys2Proof.Laws.Shape.callCmdAckCall (src : Source) (eng : BitVec 5) (session : BitVec 9) : Statement
    (.callCmdAckCall src eng session) :=
  fun _ _ h => nomatch h

theorem Sys2Proof.Laws.Shape.callCmdBadOp (src : Source) (session : BitVec 9) : Statement (.callCmdBadOp src session) :=
  fun _ _ h => nomatch h

theorem Sys2Proof.Laws.Shape.canFrameReceived (k : Fin 4) (f : CanFrame) (age : Nat) (parity : Bool) : Statement
    (.canFrameReceived k f age parity) :=
  canFrame_bound _

theorem Sys2Proof.Laws.Shape.canTxRequest (src : Source) (k : Fin 4) (mask : BitVec 32) : Statement (.canTxRequest src k
    mask) :=
  fun _ _ h => nomatch h

theorem Sys2Proof.Laws.Shape.canTxAttemptEnd (k : Fin 4) (b : Fin 32) (e : TxEnd) (tdcv : Option (BitVec 8)) (age : Nat)
    : Statement (.canTxAttemptEnd k b e tdcv age) :=
  fun _ _ h => nomatch h

theorem Sys2Proof.Laws.Shape.canTxAbort (src : Source) (k : Fin 4) (mask : BitVec 32) (onBus : Option (Fin 32)) :
    Statement (.canTxAbort src k mask onBus) :=
  fun _ _ h => nomatch h

theorem Sys2Proof.Laws.Shape.canError (k : Fin 4) (field : BitVec 4) (type : BitVec 4) (tx : Bool) (heavy : Bool) (ident
    : BitVec 29) : Statement (.canError k field type tx heavy ident) :=
  fun _ _ h => nomatch h

theorem Sys2Proof.Laws.Shape.canBusoffRecovered (k : Fin 4) : Statement (.canBusoffRecovered k) :=
  fun _ _ h => nomatch h

theorem Sys2Proof.Laws.Shape.canDominantTimeout (k : Fin 4) : Statement (.canDominantTimeout k) :=
  fun _ _ h => nomatch h

theorem Sys2Proof.Laws.Shape.canModeWrite (src : Source) (k : Fin 4) (mode : BitVec 3) : Statement (.canModeWrite src k
    mode) :=
  fun _ _ h => nomatch h

theorem Sys2Proof.Laws.Shape.canModeChange (k : Fin 4) : Statement (.canModeChange k) :=
  fun _ _ h => nomatch h

theorem Sys2Proof.Laws.Shape.canIntegrated (k : Fin 4) : Statement (.canIntegrated k) :=
  fun _ _ h => nomatch h

theorem Sys2Proof.Laws.Shape.networkJoin : Statement .networkJoin :=
  fun _ _ h => nomatch h

theorem Sys2Proof.Laws.Shape.addrClaimSend : Statement .addrClaimSend :=
  fun _ _ h => nomatch h

theorem Sys2Proof.Laws.Shape.heartbeatSend : Statement .heartbeatSend :=
  fun _ _ h => nomatch h

theorem Sys2Proof.Laws.Shape.addrClaimReceived (f : ImzRx) (unitB : Bool) : Statement (.addrClaimReceived f unitB) :=
  imzRx_bound _

theorem Sys2Proof.Laws.Shape.addressConflictProbeEnd : Statement .addressConflictProbeEnd :=
  fun _ _ h => nomatch h

theorem Sys2Proof.Laws.Shape.heartbeatReceived (f : ImzRx) (unitB : Bool) : Statement (.heartbeatReceived f unitB) :=
  imzRx_bound _

theorem Sys2Proof.Laws.Shape.timeRefSend : Statement .timeRefSend :=
  fun _ _ h => nomatch h

theorem Sys2Proof.Laws.Shape.timeFollowSend (d : Bool) : Statement (.timeFollowSend d) :=
  fun _ _ h => nomatch h

theorem Sys2Proof.Laws.Shape.timeRefReceived (f : ImzRx) : Statement (.timeRefReceived f) :=
  imzRx_bound _

theorem Sys2Proof.Laws.Shape.timeFollowReceived (f : ImzRx) : Statement (.timeFollowReceived f) :=
  imzRx_bound _

theorem Sys2Proof.Laws.Shape.timHoldover : Statement .timHoldover :=
  fun _ _ h => nomatch h

theorem Sys2Proof.Laws.Shape.timFree : Statement .timFree :=
  fun _ _ h => nomatch h

theorem Sys2Proof.Laws.Shape.almTransReceived (f : ImzRx) (full : Bool) : Statement (.almTransReceived f full) :=
  imzRx_bound _

theorem Sys2Proof.Laws.Shape.almPendingReceived (f : ImzRx) (full : Bool) : Statement (.almPendingReceived f full) :=
  imzRx_bound _

theorem Sys2Proof.Laws.Shape.almRetractReceived (f : ImzRx) (full : Bool) : Statement (.almRetractReceived f full) :=
  imzRx_bound _

theorem Sys2Proof.Laws.Shape.almFrameRelease : Statement .almFrameRelease :=
  fun _ _ h => nomatch h

theorem Sys2Proof.Laws.Shape.floodDigestSend : Statement .floodDigestSend :=
  fun _ _ h => nomatch h

theorem Sys2Proof.Laws.Shape.floodDigestReceived (f : ImzRx) : Statement (.floodDigestReceived f) :=
  imzRx_bound _

theorem Sys2Proof.Laws.Shape.floodEnd : Statement .floodEnd :=
  fun _ _ h => nomatch h

theorem Sys2Proof.Laws.Shape.callStepReceived (f : ImzRx) : Statement (.callStepReceived f) :=
  imzRx_bound _

theorem Sys2Proof.Laws.Shape.callAckReceived (f : ImzRx) : Statement (.callAckReceived f) :=
  imzRx_bound _

theorem Sys2Proof.Laws.Shape.pointStateSweep : Statement .pointStateSweep :=
  fun _ _ h => nomatch h

theorem Sys2Proof.Laws.Shape.pointStateReceived (f : ImzRx) : Statement (.pointStateReceived f) :=
  imzRx_bound _

theorem Sys2Proof.Laws.Shape.digestSend : Statement .digestSend :=
  fun _ _ h => nomatch h

theorem Sys2Proof.Laws.Shape.digestReceived (f : ImzRx) : Statement (.digestReceived f) :=
  imzRx_bound _

theorem Sys2Proof.Laws.Shape.cmdRegRead (f : ImzRx) : Statement (.cmdRegRead f) :=
  imzRx_bound _

theorem Sys2Proof.Laws.Shape.cmdRegWrite (f : ImzRx) : Statement (.cmdRegWrite f) :=
  imzRx_bound _

theorem Sys2Proof.Laws.Shape.cmdAlarm (f : ImzRx) : Statement (.cmdAlarm f) :=
  imzRx_bound _

theorem Sys2Proof.Laws.Shape.cmdPoint (f : ImzRx) : Statement (.cmdPoint f) :=
  imzRx_bound _

theorem Sys2Proof.Laws.Shape.cmdDuty (f : ImzRx) : Statement (.cmdDuty f) :=
  imzRx_bound _

theorem Sys2Proof.Laws.Shape.cmdStateReq (f : ImzRx) : Statement (.cmdStateReq f) :=
  imzRx_bound _

theorem Sys2Proof.Laws.Shape.cmdTimeSet (f : ImzRx) : Statement (.cmdTimeSet f) :=
  imzRx_bound _

theorem Sys2Proof.Laws.Shape.cmdConflict (f : ImzRx) : Statement (.cmdConflict f) :=
  imzRx_bound _

theorem Sys2Proof.Laws.Shape.rspReceived (f : ImzRx) : Statement (.rspReceived f) :=
  imzRx_bound _

theorem Sys2Proof.Laws.Shape.cmdRspTimeout (tag : Byte) : Statement (.cmdRspTimeout tag) :=
  fun _ _ h => nomatch h

theorem Sys2Proof.Laws.Shape.cmdTagExpiry (node : Half) (tag : Byte) : Statement (.cmdTagExpiry node tag) :=
  fun _ _ h => nomatch h

theorem Sys2Proof.Laws.Shape.rcpXferData (src : Half) (chunk : BitVec 7) (bytes : List Byte) : Statement (.rcpXferData
    src chunk bytes) :=
  bodyIs_bound _ _ (by decide)

theorem Sys2Proof.Laws.Shape.recXferDataReceived (f : ImzRx) : Statement (.recXferDataReceived f) :=
  imzRx_bound _

theorem Sys2Proof.Laws.Shape.recXferEndReceived (f : ImzRx) : Statement (.recXferEndReceived f) :=
  imzRx_bound _

theorem Sys2Proof.Laws.Shape.recXferSendPace : Statement .recXferSendPace :=
  fun _ _ h => nomatch h

theorem Sys2Proof.Laws.Shape.memberLost (m : Fin 64) : Statement (.memberLost m) :=
  fun _ _ h => nomatch h

theorem Sys2Proof.Laws.Shape.mgrLost : Statement .mgrLost :=
  fun _ _ h => nomatch h

theorem Sys2Proof.Laws.Shape.syncInPulse (ok : Bool) : Statement (.syncInPulse ok) :=
  fun _ _ h => nomatch h

theorem Sys2Proof.Laws.Shape.syncInLoss : Statement .syncInLoss :=
  fun _ _ h => nomatch h

theorem Sys2Proof.Laws.Shape.syncOutPulse : Statement .syncOutPulse :=
  fun _ _ h => nomatch h

theorem Sys2Proof.Laws.Shape.timSet (src : Source) : Statement (.timSet src) :=
  fun _ _ h => nomatch h

theorem Sys2Proof.Laws.Shape.timSetAtPulse (src : Source) : Statement (.timSetAtPulse src) :=
  fun _ _ h => nomatch h

theorem Sys2Proof.Laws.Shape.lvnLinkTrained (lat : Nat) : Statement (.lvnLinkTrained lat) :=
  fun _ _ h => nomatch h

theorem Sys2Proof.Laws.Shape.lvnLaneDown (l : Fin 2) : Statement (.lvnLaneDown l) :=
  fun _ _ h => nomatch h

theorem Sys2Proof.Laws.Shape.lvnLaneRetrain (l : Fin 2) (ok : Bool) : Statement (.lvnLaneRetrain l ok) :=
  fun _ _ h => nomatch h

theorem Sys2Proof.Laws.Shape.lvHeartbeatSend : Statement .lvHeartbeatSend :=
  fun _ _ h => nomatch h

theorem Sys2Proof.Laws.Shape.lvHeartbeatReceived (d : List Byte) (ok : Bool) (age : Nat) : Statement
    (.lvHeartbeatReceived d ok age) :=
  bodyIs_bound _ _ (by decide)

theorem Sys2Proof.Laws.Shape.lvHelloSend : Statement .lvHelloSend :=
  fun _ _ h => nomatch h

theorem Sys2Proof.Laws.Shape.lvHelloReceived (d : List Byte) (ok : Bool) : Statement (.lvHelloReceived d ok) :=
  bodyIs_bound _ _ (by decide)

theorem Sys2Proof.Laws.Shape.roleNegotiation : Statement .roleNegotiation :=
  fun _ _ h => nomatch h

theorem Sys2Proof.Laws.Shape.peerWaitExpiry : Statement .peerWaitExpiry :=
  fun _ _ h => nomatch h

theorem Sys2Proof.Laws.Shape.epochBoundary (bytes : Nat) (frames : Nat) : Statement (.epochBoundary bytes frames) :=
  fun _ _ h => nomatch h

theorem Sys2Proof.Laws.Shape.lvEpochOpenReceived (n : Word) (base : Word) (t : Ts) (ok : Bool) : Statement
    (.lvEpochOpenReceived n base t ok) :=
  fun _ _ h => nomatch h

theorem Sys2Proof.Laws.Shape.lvDeltaReceived (recs : List Machine.LvRec) (bytes : Nat) (ok : Bool) : Statement
    (.lvDeltaReceived recs bytes ok) :=
  fun _ _ h => nomatch h

theorem Sys2Proof.Laws.Shape.lvCommitReceived (n : Word) (bytes : Word) (frames : Half) (flags : Half) (crc : Bool) (ok
    : Bool) : Statement (.lvCommitReceived n bytes frames flags crc ok) :=
  fun _ _ h => nomatch h

theorem Sys2Proof.Laws.Shape.lvCmdFwdReceived (d : List Byte) (ok : Bool) : Statement (.lvCmdFwdReceived d ok) :=
  bodyIs_bound _ _ (by decide)

theorem Sys2Proof.Laws.Shape.lvFaultReceived (volts : Vector Int 4) (swap : Bool) (ok : Bool) : Statement
    (.lvFaultReceived volts swap ok) :=
  fun _ _ h => nomatch h

theorem Sys2Proof.Laws.Shape.lvPresInFall : Statement .lvPresInFall :=
  fun _ _ h => nomatch h

theorem Sys2Proof.Laws.Shape.presCheckExpiry (volts : Vector Int 4) (swap : Bool) : Statement (.presCheckExpiry volts
    swap) :=
  fun _ _ h => nomatch h

theorem Sys2Proof.Laws.Shape.lvHeartbeatLoss (volts : Vector Int 4) (swap : Bool) : Statement (.lvHeartbeatLoss volts
    swap) :=
  fun _ _ h => nomatch h

theorem Sys2Proof.Laws.Shape.aoHeldRecheck (c : Fin 4) (v : Int) (low : Bool) : Statement (.aoHeldRecheck c v low) :=
  fun _ _ h => nomatch h

theorem Sys2Proof.Laws.Shape.splitCheckExpiry : Statement .splitCheckExpiry :=
  fun _ _ h => nomatch h

theorem Sys2Proof.Laws.Shape.splitPartnerLoss : Statement .splitPartnerLoss :=
  fun _ _ h => nomatch h

theorem Sys2Proof.Laws.Shape.revertHoldExpiry : Statement .revertHoldExpiry :=
  fun _ _ h => nomatch h

theorem Sys2Proof.Laws.Shape.lvnHandover (src : Source) : Statement (.lvnHandover src) :=
  fun _ _ h => nomatch h

theorem Sys2Proof.Laws.Shape.lvRevertReqReceived (handover : Bool) (ok : Bool) : Statement (.lvRevertReqReceived
    handover ok) :=
  fun _ _ h => nomatch h

theorem Sys2Proof.Laws.Shape.lvRevertPlanReceived (t : Ts) (ok : Bool) : Statement (.lvRevertPlanReceived t ok) :=
  fun _ _ h => nomatch h

theorem Sys2Proof.Laws.Shape.revertFreeze : Statement .revertFreeze :=
  fun _ _ h => nomatch h

theorem Sys2Proof.Laws.Shape.revertAckDeadline : Statement .revertAckDeadline :=
  fun _ _ h => nomatch h

theorem Sys2Proof.Laws.Shape.revertSwitch (dio : BitVec 2) (ao : BitVec 4) : Statement (.revertSwitch dio ao) :=
  fun _ _ h => nomatch h

theorem Sys2Proof.Laws.Shape.lvConfirmReceived (dio : Byte) (ao : Byte) (ok : Bool) : Statement (.lvConfirmReceived dio
    ao ok) :=
  fun _ _ h => nomatch h

theorem Sys2Proof.Laws.Shape.lvRevertFailReceived (ok : Bool) : Statement (.lvRevertFailReceived ok) :=
  fun _ _ h => nomatch h

theorem Sys2Proof.Laws.Shape.revertRelease : Statement .revertRelease :=
  fun _ _ h => nomatch h

theorem Sys2Proof.Laws.Shape.revertEnd : Statement .revertEnd :=
  fun _ _ h => nomatch h

theorem Sys2Proof.Laws.Shape.lvImageReceived (d : List Byte) (ok : Bool) : Statement (.lvImageReceived d ok) :=
  imageBody_bound _

theorem Sys2Proof.Laws.Shape.partnerUpdateDone (ok : Bool) : Statement (.partnerUpdateDone ok) :=
  fun _ _ h => nomatch h

theorem Sys2Proof.Laws.Shape.lvnStop (src : Source) (stop : Bool) : Statement (.lvnStop src stop) :=
  fun _ _ h => nomatch h

theorem Sys2Proof.Laws.Shape.lvnLoopTest (src : Source) (depth : BitVec 2) : Statement (.lvnLoopTest src depth) :=
  fun _ _ h => nomatch h

theorem Sys2Proof.Laws.Shape.lvnLoopDone (errors : Nat) : Statement (.lvnLoopDone errors) :=
  fun _ _ h => nomatch h

theorem Sys2Proof.Laws.Shape.sliceClose (n : Fin 80) : Statement (.sliceClose n) :=
  fun _ _ h => nomatch h

theorem Sys2Proof.Laws.Shape.recEntry (sub : Bool) : Statement (.recEntry sub) :=
  fun _ _ h => nomatch h

theorem Sys2Proof.Laws.Shape.sliceFlushExpiry : Statement .sliceFlushExpiry :=
  fun _ _ h => nomatch h

theorem Sys2Proof.Laws.Shape.ringFlushExpiry : Statement .ringFlushExpiry :=
  fun _ _ h => nomatch h

theorem Sys2Proof.Laws.Shape.recFlush : Statement .recFlush :=
  fun _ _ h => nomatch h

theorem Sys2Proof.Laws.Shape.pageCommitDone : Statement .pageCommitDone :=
  fun _ _ h => nomatch h

theorem Sys2Proof.Laws.Shape.recCommitTimeout : Statement .recCommitTimeout :=
  fun _ _ h => nomatch h

theorem Sys2Proof.Laws.Shape.checkpointTimer : Statement .checkpointTimer :=
  fun _ _ h => nomatch h

theorem Sys2Proof.Laws.Shape.recRecovery : Statement .recRecovery :=
  fun _ _ h => nomatch h

theorem Sys2Proof.Laws.Shape.recRecoveryDone : Statement .recRecoveryDone :=
  fun _ _ h => nomatch h

theorem Sys2Proof.Laws.Shape.recFormat (src : Source) (key : Byte) : Statement (.recFormat src key) :=
  fun _ _ h => nomatch h

theorem Sys2Proof.Laws.Shape.recStop (stop : Bool) : Statement (.recStop stop) :=
  fun _ _ h => nomatch h

theorem Sys2Proof.Laws.Shape.recReadSeq (ring : Bool) : Statement (.recReadSeq ring) :=
  fun _ _ h => nomatch h

theorem Sys2Proof.Laws.Shape.recFindTime (ring : Bool) : Statement (.recFindTime ring) :=
  fun _ _ h => nomatch h

theorem Sys2Proof.Laws.Shape.recReadNext (ring : Bool) : Statement (.recReadNext ring) :=
  fun _ _ h => nomatch h

theorem Sys2Proof.Laws.Shape.recReadOpen (ring : Bool) : Statement (.recReadOpen ring) :=
  fun _ _ h => nomatch h

theorem Sys2Proof.Laws.Shape.recReadDone (media : Bool) : Statement (.recReadDone media) :=
  fun _ _ h => nomatch h

theorem Sys2Proof.Laws.Shape.mmcCommandFail (crc : Bool) (cmd : BitVec 6) (rsp : Word) (ok : Bool) : Statement
    (.mmcCommandFail crc cmd rsp ok) :=
  fun _ _ h => nomatch h

theorem Sys2Proof.Laws.Shape.mmcReinitTimer (ok : Bool) : Statement (.mmcReinitTimer ok) :=
  fun _ _ h => nomatch h

theorem Sys2Proof.Laws.Shape.pnlUpdateRequest (src : Source) (tag : Byte) (split : Bool) (mode : BitVec 4) : Statement
    (.pnlUpdateRequest src tag split mode) :=
  fun _ _ h => nomatch h

theorem Sys2Proof.Laws.Shape.pnlRailsReady : Statement .pnlRailsReady :=
  fun _ _ h => nomatch h

theorem Sys2Proof.Laws.Shape.pnlRailIdle : Statement .pnlRailIdle :=
  fun _ _ h => nomatch h

theorem Sys2Proof.Laws.Shape.pnlRailFault : Statement .pnlRailFault :=
  fun _ _ h => nomatch h

theorem Sys2Proof.Laws.Shape.pnlRailRetry : Statement .pnlRailRetry :=
  fun _ _ h => nomatch h

theorem Sys2Proof.Laws.Shape.pnlRailFaultRetry : Statement .pnlRailFaultRetry :=
  fun _ _ h => nomatch h

theorem Sys2Proof.Laws.Shape.pnlRetry : Statement .pnlRetry :=
  fun _ _ h => nomatch h

theorem Sys2Proof.Laws.Shape.pnlRefresh : Statement .pnlRefresh :=
  fun _ _ h => nomatch h

theorem Sys2Proof.Laws.Shape.pnlTempSample (mv : BitVec 12) : Statement (.pnlTempSample mv) :=
  fun _ _ h => nomatch h

theorem Sys2Proof.Laws.Shape.pnlVcomChange : Statement .pnlVcomChange :=
  fun _ _ h => nomatch h

theorem Sys2Proof.Laws.Shape.pnlFrameBoundary (late : Nat) : Statement (.pnlFrameBoundary late) :=
  fun _ _ h => nomatch h

theorem Sys2Proof.Laws.Shape.fbApertureWrite (src : Source) (off : Half) (v : Word) : Statement (.fbApertureWrite src
    off v) :=
  fun _ _ h => nomatch h

theorem Sys2Proof.Laws.Shape.rndRedraw : Statement .rndRedraw :=
  fun _ _ h => nomatch h

theorem Sys2Proof.Laws.Shape.rndPageSelect (src : Source) (page : BitVec 2) (group : BitVec 10) : Statement
    (.rndPageSelect src page group) :=
  fun _ _ h => nomatch h

theorem Sys2Proof.Laws.Shape.rndKeyUp : Statement .rndKeyUp :=
  fun _ _ h => nomatch h

theorem Sys2Proof.Laws.Shape.rndKeyDown : Statement .rndKeyDown :=
  fun _ _ h => nomatch h

theorem Sys2Proof.Laws.Shape.rndKeyPage : Statement .rndKeyPage :=
  fun _ _ h => nomatch h

theorem Sys2Proof.Laws.Shape.rndKeySelect : Statement .rndKeySelect :=
  fun _ _ h => nomatch h

theorem Sys2Proof.Laws.Shape.rndKeyAck : Statement .rndKeyAck :=
  fun _ _ h => nomatch h

theorem Sys2Proof.Laws.Shape.rndKeyAckPage : Statement .rndKeyAckPage :=
  fun _ _ h => nomatch h

theorem Sys2Proof.Laws.Shape.rndKeySilence : Statement .rndKeySilence :=
  fun _ _ h => nomatch h

theorem Sys2Proof.Laws.Shape.rndKeyAckCall (eng : BitVec 5) : Statement (.rndKeyAckCall eng) :=
  fun _ _ h => nomatch h

theorem Sys2Proof.Laws.Shape.rndKeyDuty (eng : BitVec 5) : Statement (.rndKeyDuty eng) :=
  fun _ _ h => nomatch h

theorem Sys2Proof.Laws.Shape.rndKeyBad (key : BitVec 4) : Statement (.rndKeyBad key) :=
  fun _ _ h => nomatch h

theorem Sys2Proof.Laws.Shape.hostRead (h : Fin 2) (mode3 : Bool) (header : List Byte) : Statement (.hostRead h mode3
    header) :=
  readHeader_bound _

theorem Sys2Proof.Laws.Shape.hostWrite (h : Fin 2) (mode3 : Bool) (bytes : List Byte) : Statement (.hostWrite h mode3
    bytes) :=
  fun _ _ h => nomatch h

theorem Sys2Proof.Laws.Shape.hostWriteApply (h : Fin 2) : Statement (.hostWriteApply h) :=
  fun _ _ h => nomatch h

theorem Sys2Proof.Laws.Shape.hostSleepChange (h : Fin 2) (level : Bool) : Statement (.hostSleepChange h level) :=
  fun _ _ h => nomatch h

theorem Sys2Proof.Laws.Shape.hostIdleDoorbell (h : Fin 2) (idle : Bool) : Statement (.hostIdleDoorbell h idle) :=
  fun _ _ h => nomatch h

theorem Sys2Proof.Laws.Shape.hostDoorbell (b : Bool) (payload : Word) : Statement (.hostDoorbell b payload) :=
  fun _ _ h => nomatch h

theorem Sys2Proof.Laws.Shape.evrRecordWrite (h : Fin 2) : Statement (.evrRecordWrite h) :=
  fun _ _ h => nomatch h

theorem Sys2Proof.Laws.Shape.evrClaim (h : Fin 2) : Statement (.evrClaim h) :=
  fun _ _ h => nomatch h

theorem Sys2Proof.Laws.Shape.evrEoi (h : Fin 2) : Statement (.evrEoi h) :=
  fun _ _ h => nomatch h

theorem Sys2Proof.Laws.Shape.evrEnSet (src : Source) (n : Fin 16) (mask : Word) : Statement (.evrEnSet src n mask) :=
  fun _ _ h => nomatch h

theorem Sys2Proof.Laws.Shape.evrEnClr (n : Fin 16) (mask : Word) : Statement (.evrEnClr n mask) :=
  fun _ _ h => nomatch h

theorem Sys2Proof.Laws.Shape.evrPndSet (n : Fin 16) (mask : Word) : Statement (.evrPndSet n mask) :=
  fun _ _ h => nomatch h

theorem Sys2Proof.Laws.Shape.evrPndClr (n : Fin 16) (mask : Word) : Statement (.evrPndClr n mask) :=
  fun _ _ h => nomatch h

theorem Sys2Proof.Laws.Shape.evrTargetChange (src : BitVec 9) (target : Fin 2) : Statement (.evrTargetChange src target)
    :=
  fun _ _ h => nomatch h

theorem Sys2Proof.Laws.Shape.evrHoldWrite (hold : Bool) : Statement (.evrHoldWrite hold) :=
  fun _ _ h => nomatch h

theorem Sys2Proof.Laws.Shape.evrHoldoffExpiry (h : Fin 2) : Statement (.evrHoldoffExpiry h) :=
  fun _ _ h => nomatch h

theorem Sys2Proof.Laws.Shape.ageRefCheck (c : Fin 16) (a : Int) (b : Int) : Statement (.ageRefCheck c a b) :=
  fun _ _ h => nomatch h

theorem Sys2Proof.Laws.Shape.ageAoGain (c : Fin 4) (err : Int) (secs : Nat) : Statement (.ageAoGain c err secs) :=
  fun _ _ h => nomatch h

theorem Sys2Proof.Laws.Shape.ageDioSwitch (c : Fin 16) (r25 : Nat) : Statement (.ageDioSwitch c r25) :=
  fun _ _ h => nomatch h

theorem Sys2Proof.Laws.Shape.ageTcxoSample : Statement .ageTcxoSample :=
  fun _ _ h => nomatch h

theorem Sys2Proof.Laws.Shape.ageHoldTest (cap : Nat) (esr : Nat) (partner : Bool) (abandoned : Bool) : Statement
    (.ageHoldTest cap esr partner abandoned) :=
  fun _ _ h => nomatch h

theorem Sys2Proof.Laws.Shape.ageEmmcWear (lifeA : Byte) (lifeB : Byte) (eol : Byte) : Statement (.ageEmmcWear lifeA
    lifeB eol) :=
  fun _ _ h => nomatch h

theorem Sys2Proof.Laws.Shape.ageBarrierTest (d : Fin 24) (r : Nat) : Statement (.ageBarrierTest d r) :=
  fun _ _ h => nomatch h

theorem Sys2Proof.Laws.Shape.ageLedgerPage (ok : Bool) : Statement (.ageLedgerPage ok) :=
  fun _ _ h => nomatch h

theorem Sys2Proof.Laws.Shape.ageLedgerScanDone : Statement .ageLedgerScanDone :=
  fun _ _ h => nomatch h

theorem Sys2Proof.Laws.Shape.ageAckDue (src : Source) (item : Byte) : Statement (.ageAckDue src item) :=
  fun _ _ h => nomatch h

theorem Sys2Proof.Laws.Shape.ageRebase (src : Source) (item : Byte) : Statement (.ageRebase src item) :=
  fun _ _ h => nomatch h

theorem Sys2Proof.Laws.Shape.ageTestHold (cap : Nat) (esr : Nat) (partner : Bool) (abandoned : Bool) : Statement
    (.ageTestHold cap esr partner abandoned) :=
  fun _ _ h => nomatch h

theorem Sys2Proof.Laws.Shape.ageMeasure (m : AgeMeas) : Statement (.ageMeasure m) :=
  fun _ _ h => nomatch h

theorem Sys2Proof.Laws.Shape.ageCmdBadOp (src : Source) : Statement (.ageCmdBadOp src) :=
  fun _ _ h => nomatch h

theorem Sys2Proof.Laws.Shape.periodicLoopback (t : LoopCell) (pass : Bool) (retry : Bool) (cause : Fin 5) : Statement
    (.periodicLoopback t pass retry cause) :=
  fun _ _ h => nomatch h

theorem Sys2Proof.Laws.Shape.dioFieldLoopback (src : BitVec 5) (sink : BitVec 5) : Statement (.dioFieldLoopback src
    sink) :=
  fun _ _ h => nomatch h

theorem Sys2Proof.Laws.Shape.fieldLoopbackDone (levels : Bool) (skew : Nat) : Statement (.fieldLoopbackDone levels skew)
    :=
  fun _ _ h => nomatch h

theorem Sys2Proof.Laws.Shape.jtagInstruction (ir : BitVec 4) (trstn : Bool) : Statement (.jtagInstruction ir trstn) :=
  fun _ _ h => nomatch h

theorem Sys2Proof.Laws.Shape.registerWrite (src : Source) (addr : BitVec 24) (value : Word) : Statement (.registerWrite
    src addr value) :=
  fun _ _ h => nomatch h

theorem Sys2Proof.Laws.Shape.readClear (addr : BitVec 24) : Statement (.readClear addr) :=
  fun _ _ h => nomatch h

theorem Sys2Proof.Laws.Shape.timeLoRead (addr : BitVec 24) : Statement (.timeLoRead addr) :=
  fun _ _ h => nomatch h

theorem Sys2Proof.Laws.Shape.networkTimeWaitExpiry : Statement .networkTimeWaitExpiry :=
  fun _ _ h => nomatch h

theorem Sys2Proof.Laws.Shape.aoIslandPowered (c : Fin 4) : Statement (.aoIslandPowered c) :=
  fun _ _ h => nomatch h

theorem Sys2Proof.Laws.Shape.dioDiagClear (c : Fin 16) (bit' : Fin 19) : Statement (.dioDiagClear c bit') :=
  fun _ _ h => nomatch h

theorem Sys2Proof.Laws.Shape.psPulseRejected (c : Fin 2) : Statement (.psPulseRejected c) :=
  fun _ _ h => nomatch h

theorem Sys2Proof.Laws.Shape.floodStateReqPace : Statement .floodStateReqPace :=
  fun _ _ h => nomatch h

theorem Sys2Proof.Laws.Shape.lvPresInRise : Statement .lvPresInRise :=
  fun _ _ h => nomatch h

theorem Sys2Proof.Laws.Shape.lvImageSend : Statement .lvImageSend :=
  fun _ _ h => nomatch h

theorem Sys2Proof.Laws.Shape.recipeSectionReloadDone (sec : Byte) : Statement (.recipeSectionReloadDone sec) :=
  fun _ _ h => nomatch h
end

