-- ==== Sys2Proof/Laws/State.lean ====
section
/-! SUPPORT. State: what each update of one part of the state leaves in every field. -/
namespace Sys2Proof.Machine

open Sys2Proof

/-! ### `setSup` -/
@[simp] theorem State.setSup_pending (s : State) (f : Supply → Supply) : (s.setSup f).pending = s.pending := rfl
@[simp] theorem State.setSup_now (s : State) (f : Supply → Supply) : (s.setSup f).now = s.now := rfl
@[simp] theorem State.setSup_mono (s : State) (f : Supply → Supply) : (s.setSup f).mono = s.mono := rfl
@[simp] theorem State.setSup_drawn (s : State) (f : Supply → Supply) : (s.setSup f).drawn = s.drawn := rfl
@[simp] theorem State.setSup_sys (s : State) (f : Supply → Supply) : (s.setSup f).sys = s.sys := rfl
@[simp] theorem State.setSup_fab (s : State) (f : Supply → Supply) : (s.setSup f).fab = s.fab := rfl
@[simp] theorem State.setSup_sup (s : State) (f : Supply → Supply) : (s.setSup f).sup = f s.sup := rfl
@[simp] theorem State.setSup_rcp (s : State) (f : Supply → Supply) : (s.setSup f).rcp = s.rcp := rfl
@[simp] theorem State.setSup_evr (s : State) (f : Supply → Supply) : (s.setSup f).evr = s.evr := rfl
@[simp] theorem State.setSup_hp (s : State) (f : Supply → Supply) : (s.setSup f).hp = s.hp := rfl
@[simp] theorem State.setSup_ui (s : State) (f : Supply → Supply) : (s.setSup f).ui = s.ui := rfl
@[simp] theorem State.setSup_uiBlk (s : State) (f : Supply → Supply) : (s.setSup f).uiBlk = s.uiBlk := rfl
@[simp] theorem State.setSup_ao (s : State) (f : Supply → Supply) : (s.setSup f).ao = s.ao := rfl
@[simp] theorem State.setSup_aoBlk (s : State) (f : Supply → Supply) : (s.setSup f).aoBlk = s.aoBlk := rfl
@[simp] theorem State.setSup_dio (s : State) (f : Supply → Supply) : (s.setSup f).dio = s.dio := rfl
@[simp] theorem State.setSup_dioBlk (s : State) (f : Supply → Supply) : (s.setSup f).dioBlk = s.dioBlk := rfl
@[simp] theorem State.setSup_ps (s : State) (f : Supply → Supply) : (s.setSup f).ps = s.ps := rfl
@[simp] theorem State.setSup_psBlk (s : State) (f : Supply → Supply) : (s.setSup f).psBlk = s.psBlk := rfl
@[simp] theorem State.setSup_can (s : State) (f : Supply → Supply) : (s.setSup f).can = s.can := rfl
@[simp] theorem State.setSup_pev (s : State) (f : Supply → Supply) : (s.setSup f).pev = s.pev := rfl
@[simp] theorem State.setSup_ann (s : State) (f : Supply → Supply) : (s.setSup f).ann = s.ann := rfl
@[simp] theorem State.setSup_grp (s : State) (f : Supply → Supply) : (s.setSup f).grp = s.grp := rfl
@[simp] theorem State.setSup_call (s : State) (f : Supply → Supply) : (s.setSup f).call = s.call := rfl
@[simp] theorem State.setSup_imz (s : State) (f : Supply → Supply) : (s.setSup f).imz = s.imz := rfl
@[simp] theorem State.setSup_tim (s : State) (f : Supply → Supply) : (s.setSup f).tim = s.tim := rfl
@[simp] theorem State.setSup_lvn (s : State) (f : Supply → Supply) : (s.setSup f).lvn = s.lvn := rfl
@[simp] theorem State.setSup_recd (s : State) (f : Supply → Supply) : (s.setSup f).recd = s.recd := rfl
@[simp] theorem State.setSup_mmc (s : State) (f : Supply → Supply) : (s.setSup f).mmc = s.mmc := rfl
@[simp] theorem State.setSup_pnl (s : State) (f : Supply → Supply) : (s.setSup f).pnl = s.pnl := rfl
@[simp] theorem State.setSup_rnd (s : State) (f : Supply → Supply) : (s.setSup f).rnd = s.rnd := rfl
@[simp] theorem State.setSup_age (s : State) (f : Supply → Supply) : (s.setSup f).age = s.age := rfl
@[simp] theorem State.setSup_tst (s : State) (f : Supply → Supply) : (s.setSup f).tst = s.tst := rfl
/-! ### `setFab` -/
@[simp] theorem State.setFab_pending (s : State) (f : Fabric → Fabric) : (s.setFab f).pending = s.pending := rfl
@[simp] theorem State.setFab_now (s : State) (f : Fabric → Fabric) : (s.setFab f).now = s.now := rfl
@[simp] theorem State.setFab_mono (s : State) (f : Fabric → Fabric) : (s.setFab f).mono = s.mono := rfl
@[simp] theorem State.setFab_drawn (s : State) (f : Fabric → Fabric) : (s.setFab f).drawn = s.drawn := rfl
@[simp] theorem State.setFab_sys (s : State) (f : Fabric → Fabric) : (s.setFab f).sys = s.sys := rfl
@[simp] theorem State.setFab_fab (s : State) (f : Fabric → Fabric) : (s.setFab f).fab = f s.fab := rfl
@[simp] theorem State.setFab_sup (s : State) (f : Fabric → Fabric) : (s.setFab f).sup = s.sup := rfl
@[simp] theorem State.setFab_rcp (s : State) (f : Fabric → Fabric) : (s.setFab f).rcp = s.rcp := rfl
@[simp] theorem State.setFab_evr (s : State) (f : Fabric → Fabric) : (s.setFab f).evr = s.evr := rfl
@[simp] theorem State.setFab_hp (s : State) (f : Fabric → Fabric) : (s.setFab f).hp = s.hp := rfl
@[simp] theorem State.setFab_ui (s : State) (f : Fabric → Fabric) : (s.setFab f).ui = s.ui := rfl
@[simp] theorem State.setFab_uiBlk (s : State) (f : Fabric → Fabric) : (s.setFab f).uiBlk = s.uiBlk := rfl
@[simp] theorem State.setFab_ao (s : State) (f : Fabric → Fabric) : (s.setFab f).ao = s.ao := rfl
@[simp] theorem State.setFab_aoBlk (s : State) (f : Fabric → Fabric) : (s.setFab f).aoBlk = s.aoBlk := rfl
@[simp] theorem State.setFab_dio (s : State) (f : Fabric → Fabric) : (s.setFab f).dio = s.dio := rfl
@[simp] theorem State.setFab_dioBlk (s : State) (f : Fabric → Fabric) : (s.setFab f).dioBlk = s.dioBlk := rfl
@[simp] theorem State.setFab_ps (s : State) (f : Fabric → Fabric) : (s.setFab f).ps = s.ps := rfl
@[simp] theorem State.setFab_psBlk (s : State) (f : Fabric → Fabric) : (s.setFab f).psBlk = s.psBlk := rfl
@[simp] theorem State.setFab_can (s : State) (f : Fabric → Fabric) : (s.setFab f).can = s.can := rfl
@[simp] theorem State.setFab_pev (s : State) (f : Fabric → Fabric) : (s.setFab f).pev = s.pev := rfl
@[simp] theorem State.setFab_ann (s : State) (f : Fabric → Fabric) : (s.setFab f).ann = s.ann := rfl
@[simp] theorem State.setFab_grp (s : State) (f : Fabric → Fabric) : (s.setFab f).grp = s.grp := rfl
@[simp] theorem State.setFab_call (s : State) (f : Fabric → Fabric) : (s.setFab f).call = s.call := rfl
@[simp] theorem State.setFab_imz (s : State) (f : Fabric → Fabric) : (s.setFab f).imz = s.imz := rfl
@[simp] theorem State.setFab_tim (s : State) (f : Fabric → Fabric) : (s.setFab f).tim = s.tim := rfl
@[simp] theorem State.setFab_lvn (s : State) (f : Fabric → Fabric) : (s.setFab f).lvn = s.lvn := rfl
@[simp] theorem State.setFab_recd (s : State) (f : Fabric → Fabric) : (s.setFab f).recd = s.recd := rfl
@[simp] theorem State.setFab_mmc (s : State) (f : Fabric → Fabric) : (s.setFab f).mmc = s.mmc := rfl
@[simp] theorem State.setFab_pnl (s : State) (f : Fabric → Fabric) : (s.setFab f).pnl = s.pnl := rfl
@[simp] theorem State.setFab_rnd (s : State) (f : Fabric → Fabric) : (s.setFab f).rnd = s.rnd := rfl
@[simp] theorem State.setFab_age (s : State) (f : Fabric → Fabric) : (s.setFab f).age = s.age := rfl
@[simp] theorem State.setFab_tst (s : State) (f : Fabric → Fabric) : (s.setFab f).tst = s.tst := rfl
/-! ### `setRcp` -/
@[simp] theorem State.setRcp_pending (s : State) (f : Rcp → Rcp) : (s.setRcp f).pending = s.pending := rfl
@[simp] theorem State.setRcp_now (s : State) (f : Rcp → Rcp) : (s.setRcp f).now = s.now := rfl
@[simp] theorem State.setRcp_mono (s : State) (f : Rcp → Rcp) : (s.setRcp f).mono = s.mono := rfl
@[simp] theorem State.setRcp_drawn (s : State) (f : Rcp → Rcp) : (s.setRcp f).drawn = s.drawn := rfl
@[simp] theorem State.setRcp_sys (s : State) (f : Rcp → Rcp) : (s.setRcp f).sys = s.sys := rfl
@[simp] theorem State.setRcp_fab (s : State) (f : Rcp → Rcp) : (s.setRcp f).fab = s.fab := rfl
@[simp] theorem State.setRcp_sup (s : State) (f : Rcp → Rcp) : (s.setRcp f).sup = s.sup := rfl
@[simp] theorem State.setRcp_rcp (s : State) (f : Rcp → Rcp) : (s.setRcp f).rcp = f s.rcp := rfl
@[simp] theorem State.setRcp_evr (s : State) (f : Rcp → Rcp) : (s.setRcp f).evr = s.evr := rfl
@[simp] theorem State.setRcp_hp (s : State) (f : Rcp → Rcp) : (s.setRcp f).hp = s.hp := rfl
@[simp] theorem State.setRcp_ui (s : State) (f : Rcp → Rcp) : (s.setRcp f).ui = s.ui := rfl
@[simp] theorem State.setRcp_uiBlk (s : State) (f : Rcp → Rcp) : (s.setRcp f).uiBlk = s.uiBlk := rfl
@[simp] theorem State.setRcp_ao (s : State) (f : Rcp → Rcp) : (s.setRcp f).ao = s.ao := rfl
@[simp] theorem State.setRcp_aoBlk (s : State) (f : Rcp → Rcp) : (s.setRcp f).aoBlk = s.aoBlk := rfl
@[simp] theorem State.setRcp_dio (s : State) (f : Rcp → Rcp) : (s.setRcp f).dio = s.dio := rfl
@[simp] theorem State.setRcp_dioBlk (s : State) (f : Rcp → Rcp) : (s.setRcp f).dioBlk = s.dioBlk := rfl
@[simp] theorem State.setRcp_ps (s : State) (f : Rcp → Rcp) : (s.setRcp f).ps = s.ps := rfl
@[simp] theorem State.setRcp_psBlk (s : State) (f : Rcp → Rcp) : (s.setRcp f).psBlk = s.psBlk := rfl
@[simp] theorem State.setRcp_can (s : State) (f : Rcp → Rcp) : (s.setRcp f).can = s.can := rfl
@[simp] theorem State.setRcp_pev (s : State) (f : Rcp → Rcp) : (s.setRcp f).pev = s.pev := rfl
@[simp] theorem State.setRcp_ann (s : State) (f : Rcp → Rcp) : (s.setRcp f).ann = s.ann := rfl
@[simp] theorem State.setRcp_grp (s : State) (f : Rcp → Rcp) : (s.setRcp f).grp = s.grp := rfl
@[simp] theorem State.setRcp_call (s : State) (f : Rcp → Rcp) : (s.setRcp f).call = s.call := rfl
@[simp] theorem State.setRcp_imz (s : State) (f : Rcp → Rcp) : (s.setRcp f).imz = s.imz := rfl
@[simp] theorem State.setRcp_tim (s : State) (f : Rcp → Rcp) : (s.setRcp f).tim = s.tim := rfl
@[simp] theorem State.setRcp_lvn (s : State) (f : Rcp → Rcp) : (s.setRcp f).lvn = s.lvn := rfl
@[simp] theorem State.setRcp_recd (s : State) (f : Rcp → Rcp) : (s.setRcp f).recd = s.recd := rfl
@[simp] theorem State.setRcp_mmc (s : State) (f : Rcp → Rcp) : (s.setRcp f).mmc = s.mmc := rfl
@[simp] theorem State.setRcp_pnl (s : State) (f : Rcp → Rcp) : (s.setRcp f).pnl = s.pnl := rfl
@[simp] theorem State.setRcp_rnd (s : State) (f : Rcp → Rcp) : (s.setRcp f).rnd = s.rnd := rfl
@[simp] theorem State.setRcp_age (s : State) (f : Rcp → Rcp) : (s.setRcp f).age = s.age := rfl
@[simp] theorem State.setRcp_tst (s : State) (f : Rcp → Rcp) : (s.setRcp f).tst = s.tst := rfl
/-! ### `setGrps` -/
@[simp] theorem State.setGrps_pending (s : State) (f : GrpBlk → GrpBlk) : (s.setGrps f).pending = s.pending := rfl
@[simp] theorem State.setGrps_now (s : State) (f : GrpBlk → GrpBlk) : (s.setGrps f).now = s.now := rfl
@[simp] theorem State.setGrps_mono (s : State) (f : GrpBlk → GrpBlk) : (s.setGrps f).mono = s.mono := rfl
@[simp] theorem State.setGrps_drawn (s : State) (f : GrpBlk → GrpBlk) : (s.setGrps f).drawn = s.drawn := rfl
@[simp] theorem State.setGrps_sys (s : State) (f : GrpBlk → GrpBlk) : (s.setGrps f).sys = s.sys := rfl
@[simp] theorem State.setGrps_fab (s : State) (f : GrpBlk → GrpBlk) : (s.setGrps f).fab = s.fab := rfl
@[simp] theorem State.setGrps_sup (s : State) (f : GrpBlk → GrpBlk) : (s.setGrps f).sup = s.sup := rfl
@[simp] theorem State.setGrps_rcp (s : State) (f : GrpBlk → GrpBlk) : (s.setGrps f).rcp = s.rcp := rfl
@[simp] theorem State.setGrps_evr (s : State) (f : GrpBlk → GrpBlk) : (s.setGrps f).evr = s.evr := rfl
@[simp] theorem State.setGrps_hp (s : State) (f : GrpBlk → GrpBlk) : (s.setGrps f).hp = s.hp := rfl
@[simp] theorem State.setGrps_ui (s : State) (f : GrpBlk → GrpBlk) : (s.setGrps f).ui = s.ui := rfl
@[simp] theorem State.setGrps_uiBlk (s : State) (f : GrpBlk → GrpBlk) : (s.setGrps f).uiBlk = s.uiBlk := rfl
@[simp] theorem State.setGrps_ao (s : State) (f : GrpBlk → GrpBlk) : (s.setGrps f).ao = s.ao := rfl
@[simp] theorem State.setGrps_aoBlk (s : State) (f : GrpBlk → GrpBlk) : (s.setGrps f).aoBlk = s.aoBlk := rfl
@[simp] theorem State.setGrps_dio (s : State) (f : GrpBlk → GrpBlk) : (s.setGrps f).dio = s.dio := rfl
@[simp] theorem State.setGrps_dioBlk (s : State) (f : GrpBlk → GrpBlk) : (s.setGrps f).dioBlk = s.dioBlk := rfl
@[simp] theorem State.setGrps_ps (s : State) (f : GrpBlk → GrpBlk) : (s.setGrps f).ps = s.ps := rfl
@[simp] theorem State.setGrps_psBlk (s : State) (f : GrpBlk → GrpBlk) : (s.setGrps f).psBlk = s.psBlk := rfl
@[simp] theorem State.setGrps_can (s : State) (f : GrpBlk → GrpBlk) : (s.setGrps f).can = s.can := rfl
@[simp] theorem State.setGrps_pev (s : State) (f : GrpBlk → GrpBlk) : (s.setGrps f).pev = s.pev := rfl
@[simp] theorem State.setGrps_ann (s : State) (f : GrpBlk → GrpBlk) : (s.setGrps f).ann = s.ann := rfl
@[simp] theorem State.setGrps_grp (s : State) (f : GrpBlk → GrpBlk) : (s.setGrps f).grp = f s.grp := rfl
@[simp] theorem State.setGrps_call (s : State) (f : GrpBlk → GrpBlk) : (s.setGrps f).call = s.call := rfl
@[simp] theorem State.setGrps_imz (s : State) (f : GrpBlk → GrpBlk) : (s.setGrps f).imz = s.imz := rfl
@[simp] theorem State.setGrps_tim (s : State) (f : GrpBlk → GrpBlk) : (s.setGrps f).tim = s.tim := rfl
@[simp] theorem State.setGrps_lvn (s : State) (f : GrpBlk → GrpBlk) : (s.setGrps f).lvn = s.lvn := rfl
@[simp] theorem State.setGrps_recd (s : State) (f : GrpBlk → GrpBlk) : (s.setGrps f).recd = s.recd := rfl
@[simp] theorem State.setGrps_mmc (s : State) (f : GrpBlk → GrpBlk) : (s.setGrps f).mmc = s.mmc := rfl
@[simp] theorem State.setGrps_pnl (s : State) (f : GrpBlk → GrpBlk) : (s.setGrps f).pnl = s.pnl := rfl
@[simp] theorem State.setGrps_rnd (s : State) (f : GrpBlk → GrpBlk) : (s.setGrps f).rnd = s.rnd := rfl
@[simp] theorem State.setGrps_age (s : State) (f : GrpBlk → GrpBlk) : (s.setGrps f).age = s.age := rfl
@[simp] theorem State.setGrps_tst (s : State) (f : GrpBlk → GrpBlk) : (s.setGrps f).tst = s.tst := rfl
/-! ### `setCall` -/
@[simp] theorem State.setCall_pending (s : State) (f : Call → Call) : (s.setCall f).pending = s.pending := rfl
@[simp] theorem State.setCall_now (s : State) (f : Call → Call) : (s.setCall f).now = s.now := rfl
@[simp] theorem State.setCall_mono (s : State) (f : Call → Call) : (s.setCall f).mono = s.mono := rfl
@[simp] theorem State.setCall_drawn (s : State) (f : Call → Call) : (s.setCall f).drawn = s.drawn := rfl
@[simp] theorem State.setCall_sys (s : State) (f : Call → Call) : (s.setCall f).sys = s.sys := rfl
@[simp] theorem State.setCall_fab (s : State) (f : Call → Call) : (s.setCall f).fab = s.fab := rfl
@[simp] theorem State.setCall_sup (s : State) (f : Call → Call) : (s.setCall f).sup = s.sup := rfl
@[simp] theorem State.setCall_rcp (s : State) (f : Call → Call) : (s.setCall f).rcp = s.rcp := rfl
@[simp] theorem State.setCall_evr (s : State) (f : Call → Call) : (s.setCall f).evr = s.evr := rfl
@[simp] theorem State.setCall_hp (s : State) (f : Call → Call) : (s.setCall f).hp = s.hp := rfl
@[simp] theorem State.setCall_ui (s : State) (f : Call → Call) : (s.setCall f).ui = s.ui := rfl
@[simp] theorem State.setCall_uiBlk (s : State) (f : Call → Call) : (s.setCall f).uiBlk = s.uiBlk := rfl
@[simp] theorem State.setCall_ao (s : State) (f : Call → Call) : (s.setCall f).ao = s.ao := rfl
@[simp] theorem State.setCall_aoBlk (s : State) (f : Call → Call) : (s.setCall f).aoBlk = s.aoBlk := rfl
@[simp] theorem State.setCall_dio (s : State) (f : Call → Call) : (s.setCall f).dio = s.dio := rfl
@[simp] theorem State.setCall_dioBlk (s : State) (f : Call → Call) : (s.setCall f).dioBlk = s.dioBlk := rfl
@[simp] theorem State.setCall_ps (s : State) (f : Call → Call) : (s.setCall f).ps = s.ps := rfl
@[simp] theorem State.setCall_psBlk (s : State) (f : Call → Call) : (s.setCall f).psBlk = s.psBlk := rfl
@[simp] theorem State.setCall_can (s : State) (f : Call → Call) : (s.setCall f).can = s.can := rfl
@[simp] theorem State.setCall_pev (s : State) (f : Call → Call) : (s.setCall f).pev = s.pev := rfl
@[simp] theorem State.setCall_ann (s : State) (f : Call → Call) : (s.setCall f).ann = s.ann := rfl
@[simp] theorem State.setCall_grp (s : State) (f : Call → Call) : (s.setCall f).grp = s.grp := rfl
@[simp] theorem State.setCall_call (s : State) (f : Call → Call) : (s.setCall f).call = f s.call := rfl
@[simp] theorem State.setCall_imz (s : State) (f : Call → Call) : (s.setCall f).imz = s.imz := rfl
@[simp] theorem State.setCall_tim (s : State) (f : Call → Call) : (s.setCall f).tim = s.tim := rfl
@[simp] theorem State.setCall_lvn (s : State) (f : Call → Call) : (s.setCall f).lvn = s.lvn := rfl
@[simp] theorem State.setCall_recd (s : State) (f : Call → Call) : (s.setCall f).recd = s.recd := rfl
@[simp] theorem State.setCall_mmc (s : State) (f : Call → Call) : (s.setCall f).mmc = s.mmc := rfl
@[simp] theorem State.setCall_pnl (s : State) (f : Call → Call) : (s.setCall f).pnl = s.pnl := rfl
@[simp] theorem State.setCall_rnd (s : State) (f : Call → Call) : (s.setCall f).rnd = s.rnd := rfl
@[simp] theorem State.setCall_age (s : State) (f : Call → Call) : (s.setCall f).age = s.age := rfl
@[simp] theorem State.setCall_tst (s : State) (f : Call → Call) : (s.setCall f).tst = s.tst := rfl
/-! ### `setImz` -/
@[simp] theorem State.setImz_pending (s : State) (f : Imz → Imz) : (s.setImz f).pending = s.pending := rfl
@[simp] theorem State.setImz_now (s : State) (f : Imz → Imz) : (s.setImz f).now = s.now := rfl
@[simp] theorem State.setImz_mono (s : State) (f : Imz → Imz) : (s.setImz f).mono = s.mono := rfl
@[simp] theorem State.setImz_drawn (s : State) (f : Imz → Imz) : (s.setImz f).drawn = s.drawn := rfl
@[simp] theorem State.setImz_sys (s : State) (f : Imz → Imz) : (s.setImz f).sys = s.sys := rfl
@[simp] theorem State.setImz_fab (s : State) (f : Imz → Imz) : (s.setImz f).fab = s.fab := rfl
@[simp] theorem State.setImz_sup (s : State) (f : Imz → Imz) : (s.setImz f).sup = s.sup := rfl
@[simp] theorem State.setImz_rcp (s : State) (f : Imz → Imz) : (s.setImz f).rcp = s.rcp := rfl
@[simp] theorem State.setImz_evr (s : State) (f : Imz → Imz) : (s.setImz f).evr = s.evr := rfl
@[simp] theorem State.setImz_hp (s : State) (f : Imz → Imz) : (s.setImz f).hp = s.hp := rfl
@[simp] theorem State.setImz_ui (s : State) (f : Imz → Imz) : (s.setImz f).ui = s.ui := rfl
@[simp] theorem State.setImz_uiBlk (s : State) (f : Imz → Imz) : (s.setImz f).uiBlk = s.uiBlk := rfl
@[simp] theorem State.setImz_ao (s : State) (f : Imz → Imz) : (s.setImz f).ao = s.ao := rfl
@[simp] theorem State.setImz_aoBlk (s : State) (f : Imz → Imz) : (s.setImz f).aoBlk = s.aoBlk := rfl
@[simp] theorem State.setImz_dio (s : State) (f : Imz → Imz) : (s.setImz f).dio = s.dio := rfl
@[simp] theorem State.setImz_dioBlk (s : State) (f : Imz → Imz) : (s.setImz f).dioBlk = s.dioBlk := rfl
@[simp] theorem State.setImz_ps (s : State) (f : Imz → Imz) : (s.setImz f).ps = s.ps := rfl
@[simp] theorem State.setImz_psBlk (s : State) (f : Imz → Imz) : (s.setImz f).psBlk = s.psBlk := rfl
@[simp] theorem State.setImz_can (s : State) (f : Imz → Imz) : (s.setImz f).can = s.can := rfl
@[simp] theorem State.setImz_pev (s : State) (f : Imz → Imz) : (s.setImz f).pev = s.pev := rfl
@[simp] theorem State.setImz_ann (s : State) (f : Imz → Imz) : (s.setImz f).ann = s.ann := rfl
@[simp] theorem State.setImz_grp (s : State) (f : Imz → Imz) : (s.setImz f).grp = s.grp := rfl
@[simp] theorem State.setImz_call (s : State) (f : Imz → Imz) : (s.setImz f).call = s.call := rfl
@[simp] theorem State.setImz_imz (s : State) (f : Imz → Imz) : (s.setImz f).imz = f s.imz := rfl
@[simp] theorem State.setImz_tim (s : State) (f : Imz → Imz) : (s.setImz f).tim = s.tim := rfl
@[simp] theorem State.setImz_lvn (s : State) (f : Imz → Imz) : (s.setImz f).lvn = s.lvn := rfl
@[simp] theorem State.setImz_recd (s : State) (f : Imz → Imz) : (s.setImz f).recd = s.recd := rfl
@[simp] theorem State.setImz_mmc (s : State) (f : Imz → Imz) : (s.setImz f).mmc = s.mmc := rfl
@[simp] theorem State.setImz_pnl (s : State) (f : Imz → Imz) : (s.setImz f).pnl = s.pnl := rfl
@[simp] theorem State.setImz_rnd (s : State) (f : Imz → Imz) : (s.setImz f).rnd = s.rnd := rfl
@[simp] theorem State.setImz_age (s : State) (f : Imz → Imz) : (s.setImz f).age = s.age := rfl
@[simp] theorem State.setImz_tst (s : State) (f : Imz → Imz) : (s.setImz f).tst = s.tst := rfl
/-! ### `setAnn` -/
@[simp] theorem State.setAnn_pending (s : State) (f : Ann → Ann) : (s.setAnn f).pending = s.pending := rfl
@[simp] theorem State.setAnn_now (s : State) (f : Ann → Ann) : (s.setAnn f).now = s.now := rfl
@[simp] theorem State.setAnn_mono (s : State) (f : Ann → Ann) : (s.setAnn f).mono = s.mono := rfl
@[simp] theorem State.setAnn_drawn (s : State) (f : Ann → Ann) : (s.setAnn f).drawn = s.drawn := rfl
@[simp] theorem State.setAnn_sys (s : State) (f : Ann → Ann) : (s.setAnn f).sys = s.sys := rfl
@[simp] theorem State.setAnn_fab (s : State) (f : Ann → Ann) : (s.setAnn f).fab = s.fab := rfl
@[simp] theorem State.setAnn_sup (s : State) (f : Ann → Ann) : (s.setAnn f).sup = s.sup := rfl
@[simp] theorem State.setAnn_rcp (s : State) (f : Ann → Ann) : (s.setAnn f).rcp = s.rcp := rfl
@[simp] theorem State.setAnn_evr (s : State) (f : Ann → Ann) : (s.setAnn f).evr = s.evr := rfl
@[simp] theorem State.setAnn_hp (s : State) (f : Ann → Ann) : (s.setAnn f).hp = s.hp := rfl
@[simp] theorem State.setAnn_ui (s : State) (f : Ann → Ann) : (s.setAnn f).ui = s.ui := rfl
@[simp] theorem State.setAnn_uiBlk (s : State) (f : Ann → Ann) : (s.setAnn f).uiBlk = s.uiBlk := rfl
@[simp] theorem State.setAnn_ao (s : State) (f : Ann → Ann) : (s.setAnn f).ao = s.ao := rfl
@[simp] theorem State.setAnn_aoBlk (s : State) (f : Ann → Ann) : (s.setAnn f).aoBlk = s.aoBlk := rfl
@[simp] theorem State.setAnn_dio (s : State) (f : Ann → Ann) : (s.setAnn f).dio = s.dio := rfl
@[simp] theorem State.setAnn_dioBlk (s : State) (f : Ann → Ann) : (s.setAnn f).dioBlk = s.dioBlk := rfl
@[simp] theorem State.setAnn_ps (s : State) (f : Ann → Ann) : (s.setAnn f).ps = s.ps := rfl
@[simp] theorem State.setAnn_psBlk (s : State) (f : Ann → Ann) : (s.setAnn f).psBlk = s.psBlk := rfl
@[simp] theorem State.setAnn_can (s : State) (f : Ann → Ann) : (s.setAnn f).can = s.can := rfl
@[simp] theorem State.setAnn_pev (s : State) (f : Ann → Ann) : (s.setAnn f).pev = s.pev := rfl
@[simp] theorem State.setAnn_ann (s : State) (f : Ann → Ann) : (s.setAnn f).ann = f s.ann := rfl
@[simp] theorem State.setAnn_grp (s : State) (f : Ann → Ann) : (s.setAnn f).grp = s.grp := rfl
@[simp] theorem State.setAnn_call (s : State) (f : Ann → Ann) : (s.setAnn f).call = s.call := rfl
@[simp] theorem State.setAnn_imz (s : State) (f : Ann → Ann) : (s.setAnn f).imz = s.imz := rfl
@[simp] theorem State.setAnn_tim (s : State) (f : Ann → Ann) : (s.setAnn f).tim = s.tim := rfl
@[simp] theorem State.setAnn_lvn (s : State) (f : Ann → Ann) : (s.setAnn f).lvn = s.lvn := rfl
@[simp] theorem State.setAnn_recd (s : State) (f : Ann → Ann) : (s.setAnn f).recd = s.recd := rfl
@[simp] theorem State.setAnn_mmc (s : State) (f : Ann → Ann) : (s.setAnn f).mmc = s.mmc := rfl
@[simp] theorem State.setAnn_pnl (s : State) (f : Ann → Ann) : (s.setAnn f).pnl = s.pnl := rfl
@[simp] theorem State.setAnn_rnd (s : State) (f : Ann → Ann) : (s.setAnn f).rnd = s.rnd := rfl
@[simp] theorem State.setAnn_age (s : State) (f : Ann → Ann) : (s.setAnn f).age = s.age := rfl
@[simp] theorem State.setAnn_tst (s : State) (f : Ann → Ann) : (s.setAnn f).tst = s.tst := rfl
/-! ### `setRec` -/
@[simp] theorem State.setRec_pending (s : State) (f : Rec → Rec) : (s.setRec f).pending = s.pending := rfl
@[simp] theorem State.setRec_now (s : State) (f : Rec → Rec) : (s.setRec f).now = s.now := rfl
@[simp] theorem State.setRec_mono (s : State) (f : Rec → Rec) : (s.setRec f).mono = s.mono := rfl
@[simp] theorem State.setRec_drawn (s : State) (f : Rec → Rec) : (s.setRec f).drawn = s.drawn := rfl
@[simp] theorem State.setRec_sys (s : State) (f : Rec → Rec) : (s.setRec f).sys = s.sys := rfl
@[simp] theorem State.setRec_fab (s : State) (f : Rec → Rec) : (s.setRec f).fab = s.fab := rfl
@[simp] theorem State.setRec_sup (s : State) (f : Rec → Rec) : (s.setRec f).sup = s.sup := rfl
@[simp] theorem State.setRec_rcp (s : State) (f : Rec → Rec) : (s.setRec f).rcp = s.rcp := rfl
@[simp] theorem State.setRec_evr (s : State) (f : Rec → Rec) : (s.setRec f).evr = s.evr := rfl
@[simp] theorem State.setRec_hp (s : State) (f : Rec → Rec) : (s.setRec f).hp = s.hp := rfl
@[simp] theorem State.setRec_ui (s : State) (f : Rec → Rec) : (s.setRec f).ui = s.ui := rfl
@[simp] theorem State.setRec_uiBlk (s : State) (f : Rec → Rec) : (s.setRec f).uiBlk = s.uiBlk := rfl
@[simp] theorem State.setRec_ao (s : State) (f : Rec → Rec) : (s.setRec f).ao = s.ao := rfl
@[simp] theorem State.setRec_aoBlk (s : State) (f : Rec → Rec) : (s.setRec f).aoBlk = s.aoBlk := rfl
@[simp] theorem State.setRec_dio (s : State) (f : Rec → Rec) : (s.setRec f).dio = s.dio := rfl
@[simp] theorem State.setRec_dioBlk (s : State) (f : Rec → Rec) : (s.setRec f).dioBlk = s.dioBlk := rfl
@[simp] theorem State.setRec_ps (s : State) (f : Rec → Rec) : (s.setRec f).ps = s.ps := rfl
@[simp] theorem State.setRec_psBlk (s : State) (f : Rec → Rec) : (s.setRec f).psBlk = s.psBlk := rfl
@[simp] theorem State.setRec_can (s : State) (f : Rec → Rec) : (s.setRec f).can = s.can := rfl
@[simp] theorem State.setRec_pev (s : State) (f : Rec → Rec) : (s.setRec f).pev = s.pev := rfl
@[simp] theorem State.setRec_ann (s : State) (f : Rec → Rec) : (s.setRec f).ann = s.ann := rfl
@[simp] theorem State.setRec_grp (s : State) (f : Rec → Rec) : (s.setRec f).grp = s.grp := rfl
@[simp] theorem State.setRec_call (s : State) (f : Rec → Rec) : (s.setRec f).call = s.call := rfl
@[simp] theorem State.setRec_imz (s : State) (f : Rec → Rec) : (s.setRec f).imz = s.imz := rfl
@[simp] theorem State.setRec_tim (s : State) (f : Rec → Rec) : (s.setRec f).tim = s.tim := rfl
@[simp] theorem State.setRec_lvn (s : State) (f : Rec → Rec) : (s.setRec f).lvn = s.lvn := rfl
@[simp] theorem State.setRec_recd (s : State) (f : Rec → Rec) : (s.setRec f).recd = f s.recd := rfl
@[simp] theorem State.setRec_mmc (s : State) (f : Rec → Rec) : (s.setRec f).mmc = s.mmc := rfl
@[simp] theorem State.setRec_pnl (s : State) (f : Rec → Rec) : (s.setRec f).pnl = s.pnl := rfl
@[simp] theorem State.setRec_rnd (s : State) (f : Rec → Rec) : (s.setRec f).rnd = s.rnd := rfl
@[simp] theorem State.setRec_age (s : State) (f : Rec → Rec) : (s.setRec f).age = s.age := rfl
@[simp] theorem State.setRec_tst (s : State) (f : Rec → Rec) : (s.setRec f).tst = s.tst := rfl
/-! ### `setMmc` -/
@[simp] theorem State.setMmc_pending (s : State) (f : Mmc → Mmc) : (s.setMmc f).pending = s.pending := rfl
@[simp] theorem State.setMmc_now (s : State) (f : Mmc → Mmc) : (s.setMmc f).now = s.now := rfl
@[simp] theorem State.setMmc_mono (s : State) (f : Mmc → Mmc) : (s.setMmc f).mono = s.mono := rfl
@[simp] theorem State.setMmc_drawn (s : State) (f : Mmc → Mmc) : (s.setMmc f).drawn = s.drawn := rfl
@[simp] theorem State.setMmc_sys (s : State) (f : Mmc → Mmc) : (s.setMmc f).sys = s.sys := rfl
@[simp] theorem State.setMmc_fab (s : State) (f : Mmc → Mmc) : (s.setMmc f).fab = s.fab := rfl
@[simp] theorem State.setMmc_sup (s : State) (f : Mmc → Mmc) : (s.setMmc f).sup = s.sup := rfl
@[simp] theorem State.setMmc_rcp (s : State) (f : Mmc → Mmc) : (s.setMmc f).rcp = s.rcp := rfl
@[simp] theorem State.setMmc_evr (s : State) (f : Mmc → Mmc) : (s.setMmc f).evr = s.evr := rfl
@[simp] theorem State.setMmc_hp (s : State) (f : Mmc → Mmc) : (s.setMmc f).hp = s.hp := rfl
@[simp] theorem State.setMmc_ui (s : State) (f : Mmc → Mmc) : (s.setMmc f).ui = s.ui := rfl
@[simp] theorem State.setMmc_uiBlk (s : State) (f : Mmc → Mmc) : (s.setMmc f).uiBlk = s.uiBlk := rfl
@[simp] theorem State.setMmc_ao (s : State) (f : Mmc → Mmc) : (s.setMmc f).ao = s.ao := rfl
@[simp] theorem State.setMmc_aoBlk (s : State) (f : Mmc → Mmc) : (s.setMmc f).aoBlk = s.aoBlk := rfl
@[simp] theorem State.setMmc_dio (s : State) (f : Mmc → Mmc) : (s.setMmc f).dio = s.dio := rfl
@[simp] theorem State.setMmc_dioBlk (s : State) (f : Mmc → Mmc) : (s.setMmc f).dioBlk = s.dioBlk := rfl
@[simp] theorem State.setMmc_ps (s : State) (f : Mmc → Mmc) : (s.setMmc f).ps = s.ps := rfl
@[simp] theorem State.setMmc_psBlk (s : State) (f : Mmc → Mmc) : (s.setMmc f).psBlk = s.psBlk := rfl
@[simp] theorem State.setMmc_can (s : State) (f : Mmc → Mmc) : (s.setMmc f).can = s.can := rfl
@[simp] theorem State.setMmc_pev (s : State) (f : Mmc → Mmc) : (s.setMmc f).pev = s.pev := rfl
@[simp] theorem State.setMmc_ann (s : State) (f : Mmc → Mmc) : (s.setMmc f).ann = s.ann := rfl
@[simp] theorem State.setMmc_grp (s : State) (f : Mmc → Mmc) : (s.setMmc f).grp = s.grp := rfl
@[simp] theorem State.setMmc_call (s : State) (f : Mmc → Mmc) : (s.setMmc f).call = s.call := rfl
@[simp] theorem State.setMmc_imz (s : State) (f : Mmc → Mmc) : (s.setMmc f).imz = s.imz := rfl
@[simp] theorem State.setMmc_tim (s : State) (f : Mmc → Mmc) : (s.setMmc f).tim = s.tim := rfl
@[simp] theorem State.setMmc_lvn (s : State) (f : Mmc → Mmc) : (s.setMmc f).lvn = s.lvn := rfl
@[simp] theorem State.setMmc_recd (s : State) (f : Mmc → Mmc) : (s.setMmc f).recd = s.recd := rfl
@[simp] theorem State.setMmc_mmc (s : State) (f : Mmc → Mmc) : (s.setMmc f).mmc = f s.mmc := rfl
@[simp] theorem State.setMmc_pnl (s : State) (f : Mmc → Mmc) : (s.setMmc f).pnl = s.pnl := rfl
@[simp] theorem State.setMmc_rnd (s : State) (f : Mmc → Mmc) : (s.setMmc f).rnd = s.rnd := rfl
@[simp] theorem State.setMmc_age (s : State) (f : Mmc → Mmc) : (s.setMmc f).age = s.age := rfl
@[simp] theorem State.setMmc_tst (s : State) (f : Mmc → Mmc) : (s.setMmc f).tst = s.tst := rfl
/-! ### `setLvn` -/
@[simp] theorem State.setLvn_pending (s : State) (f : Lvn → Lvn) : (s.setLvn f).pending = s.pending := rfl
@[simp] theorem State.setLvn_now (s : State) (f : Lvn → Lvn) : (s.setLvn f).now = s.now := rfl
@[simp] theorem State.setLvn_mono (s : State) (f : Lvn → Lvn) : (s.setLvn f).mono = s.mono := rfl
@[simp] theorem State.setLvn_drawn (s : State) (f : Lvn → Lvn) : (s.setLvn f).drawn = s.drawn := rfl
@[simp] theorem State.setLvn_sys (s : State) (f : Lvn → Lvn) : (s.setLvn f).sys = s.sys := rfl
@[simp] theorem State.setLvn_fab (s : State) (f : Lvn → Lvn) : (s.setLvn f).fab = s.fab := rfl
@[simp] theorem State.setLvn_sup (s : State) (f : Lvn → Lvn) : (s.setLvn f).sup = s.sup := rfl
@[simp] theorem State.setLvn_rcp (s : State) (f : Lvn → Lvn) : (s.setLvn f).rcp = s.rcp := rfl
@[simp] theorem State.setLvn_evr (s : State) (f : Lvn → Lvn) : (s.setLvn f).evr = s.evr := rfl
@[simp] theorem State.setLvn_hp (s : State) (f : Lvn → Lvn) : (s.setLvn f).hp = s.hp := rfl
@[simp] theorem State.setLvn_ui (s : State) (f : Lvn → Lvn) : (s.setLvn f).ui = s.ui := rfl
@[simp] theorem State.setLvn_uiBlk (s : State) (f : Lvn → Lvn) : (s.setLvn f).uiBlk = s.uiBlk := rfl
@[simp] theorem State.setLvn_ao (s : State) (f : Lvn → Lvn) : (s.setLvn f).ao = s.ao := rfl
@[simp] theorem State.setLvn_aoBlk (s : State) (f : Lvn → Lvn) : (s.setLvn f).aoBlk = s.aoBlk := rfl
@[simp] theorem State.setLvn_dio (s : State) (f : Lvn → Lvn) : (s.setLvn f).dio = s.dio := rfl
@[simp] theorem State.setLvn_dioBlk (s : State) (f : Lvn → Lvn) : (s.setLvn f).dioBlk = s.dioBlk := rfl
@[simp] theorem State.setLvn_ps (s : State) (f : Lvn → Lvn) : (s.setLvn f).ps = s.ps := rfl
@[simp] theorem State.setLvn_psBlk (s : State) (f : Lvn → Lvn) : (s.setLvn f).psBlk = s.psBlk := rfl
@[simp] theorem State.setLvn_can (s : State) (f : Lvn → Lvn) : (s.setLvn f).can = s.can := rfl
@[simp] theorem State.setLvn_pev (s : State) (f : Lvn → Lvn) : (s.setLvn f).pev = s.pev := rfl
@[simp] theorem State.setLvn_ann (s : State) (f : Lvn → Lvn) : (s.setLvn f).ann = s.ann := rfl
@[simp] theorem State.setLvn_grp (s : State) (f : Lvn → Lvn) : (s.setLvn f).grp = s.grp := rfl
@[simp] theorem State.setLvn_call (s : State) (f : Lvn → Lvn) : (s.setLvn f).call = s.call := rfl
@[simp] theorem State.setLvn_imz (s : State) (f : Lvn → Lvn) : (s.setLvn f).imz = s.imz := rfl
@[simp] theorem State.setLvn_tim (s : State) (f : Lvn → Lvn) : (s.setLvn f).tim = s.tim := rfl
@[simp] theorem State.setLvn_lvn (s : State) (f : Lvn → Lvn) : (s.setLvn f).lvn = f s.lvn := rfl
@[simp] theorem State.setLvn_recd (s : State) (f : Lvn → Lvn) : (s.setLvn f).recd = s.recd := rfl
@[simp] theorem State.setLvn_mmc (s : State) (f : Lvn → Lvn) : (s.setLvn f).mmc = s.mmc := rfl
@[simp] theorem State.setLvn_pnl (s : State) (f : Lvn → Lvn) : (s.setLvn f).pnl = s.pnl := rfl
@[simp] theorem State.setLvn_rnd (s : State) (f : Lvn → Lvn) : (s.setLvn f).rnd = s.rnd := rfl
@[simp] theorem State.setLvn_age (s : State) (f : Lvn → Lvn) : (s.setLvn f).age = s.age := rfl
@[simp] theorem State.setLvn_tst (s : State) (f : Lvn → Lvn) : (s.setLvn f).tst = s.tst := rfl
/-! ### `setTim` -/
@[simp] theorem State.setTim_pending (s : State) (f : Tim → Tim) : (s.setTim f).pending = s.pending := rfl
@[simp] theorem State.setTim_now (s : State) (f : Tim → Tim) : (s.setTim f).now = s.now := rfl
@[simp] theorem State.setTim_mono (s : State) (f : Tim → Tim) : (s.setTim f).mono = s.mono := rfl
@[simp] theorem State.setTim_drawn (s : State) (f : Tim → Tim) : (s.setTim f).drawn = s.drawn := rfl
@[simp] theorem State.setTim_sys (s : State) (f : Tim → Tim) : (s.setTim f).sys = s.sys := rfl
@[simp] theorem State.setTim_fab (s : State) (f : Tim → Tim) : (s.setTim f).fab = s.fab := rfl
@[simp] theorem State.setTim_sup (s : State) (f : Tim → Tim) : (s.setTim f).sup = s.sup := rfl
@[simp] theorem State.setTim_rcp (s : State) (f : Tim → Tim) : (s.setTim f).rcp = s.rcp := rfl
@[simp] theorem State.setTim_evr (s : State) (f : Tim → Tim) : (s.setTim f).evr = s.evr := rfl
@[simp] theorem State.setTim_hp (s : State) (f : Tim → Tim) : (s.setTim f).hp = s.hp := rfl
@[simp] theorem State.setTim_ui (s : State) (f : Tim → Tim) : (s.setTim f).ui = s.ui := rfl
@[simp] theorem State.setTim_uiBlk (s : State) (f : Tim → Tim) : (s.setTim f).uiBlk = s.uiBlk := rfl
@[simp] theorem State.setTim_ao (s : State) (f : Tim → Tim) : (s.setTim f).ao = s.ao := rfl
@[simp] theorem State.setTim_aoBlk (s : State) (f : Tim → Tim) : (s.setTim f).aoBlk = s.aoBlk := rfl
@[simp] theorem State.setTim_dio (s : State) (f : Tim → Tim) : (s.setTim f).dio = s.dio := rfl
@[simp] theorem State.setTim_dioBlk (s : State) (f : Tim → Tim) : (s.setTim f).dioBlk = s.dioBlk := rfl
@[simp] theorem State.setTim_ps (s : State) (f : Tim → Tim) : (s.setTim f).ps = s.ps := rfl
@[simp] theorem State.setTim_psBlk (s : State) (f : Tim → Tim) : (s.setTim f).psBlk = s.psBlk := rfl
@[simp] theorem State.setTim_can (s : State) (f : Tim → Tim) : (s.setTim f).can = s.can := rfl
@[simp] theorem State.setTim_pev (s : State) (f : Tim → Tim) : (s.setTim f).pev = s.pev := rfl
@[simp] theorem State.setTim_ann (s : State) (f : Tim → Tim) : (s.setTim f).ann = s.ann := rfl
@[simp] theorem State.setTim_grp (s : State) (f : Tim → Tim) : (s.setTim f).grp = s.grp := rfl
@[simp] theorem State.setTim_call (s : State) (f : Tim → Tim) : (s.setTim f).call = s.call := rfl
@[simp] theorem State.setTim_imz (s : State) (f : Tim → Tim) : (s.setTim f).imz = s.imz := rfl
@[simp] theorem State.setTim_tim (s : State) (f : Tim → Tim) : (s.setTim f).tim = f s.tim := rfl
@[simp] theorem State.setTim_lvn (s : State) (f : Tim → Tim) : (s.setTim f).lvn = s.lvn := rfl
@[simp] theorem State.setTim_recd (s : State) (f : Tim → Tim) : (s.setTim f).recd = s.recd := rfl
@[simp] theorem State.setTim_mmc (s : State) (f : Tim → Tim) : (s.setTim f).mmc = s.mmc := rfl
@[simp] theorem State.setTim_pnl (s : State) (f : Tim → Tim) : (s.setTim f).pnl = s.pnl := rfl
@[simp] theorem State.setTim_rnd (s : State) (f : Tim → Tim) : (s.setTim f).rnd = s.rnd := rfl
@[simp] theorem State.setTim_age (s : State) (f : Tim → Tim) : (s.setTim f).age = s.age := rfl
@[simp] theorem State.setTim_tst (s : State) (f : Tim → Tim) : (s.setTim f).tst = s.tst := rfl
/-! ### `setPnl` -/
@[simp] theorem State.setPnl_pending (s : State) (f : Pnl → Pnl) : (s.setPnl f).pending = s.pending := rfl
@[simp] theorem State.setPnl_now (s : State) (f : Pnl → Pnl) : (s.setPnl f).now = s.now := rfl
@[simp] theorem State.setPnl_mono (s : State) (f : Pnl → Pnl) : (s.setPnl f).mono = s.mono := rfl
@[simp] theorem State.setPnl_drawn (s : State) (f : Pnl → Pnl) : (s.setPnl f).drawn = s.drawn := rfl
@[simp] theorem State.setPnl_sys (s : State) (f : Pnl → Pnl) : (s.setPnl f).sys = s.sys := rfl
@[simp] theorem State.setPnl_fab (s : State) (f : Pnl → Pnl) : (s.setPnl f).fab = s.fab := rfl
@[simp] theorem State.setPnl_sup (s : State) (f : Pnl → Pnl) : (s.setPnl f).sup = s.sup := rfl
@[simp] theorem State.setPnl_rcp (s : State) (f : Pnl → Pnl) : (s.setPnl f).rcp = s.rcp := rfl
@[simp] theorem State.setPnl_evr (s : State) (f : Pnl → Pnl) : (s.setPnl f).evr = s.evr := rfl
@[simp] theorem State.setPnl_hp (s : State) (f : Pnl → Pnl) : (s.setPnl f).hp = s.hp := rfl
@[simp] theorem State.setPnl_ui (s : State) (f : Pnl → Pnl) : (s.setPnl f).ui = s.ui := rfl
@[simp] theorem State.setPnl_uiBlk (s : State) (f : Pnl → Pnl) : (s.setPnl f).uiBlk = s.uiBlk := rfl
@[simp] theorem State.setPnl_ao (s : State) (f : Pnl → Pnl) : (s.setPnl f).ao = s.ao := rfl
@[simp] theorem State.setPnl_aoBlk (s : State) (f : Pnl → Pnl) : (s.setPnl f).aoBlk = s.aoBlk := rfl
@[simp] theorem State.setPnl_dio (s : State) (f : Pnl → Pnl) : (s.setPnl f).dio = s.dio := rfl
@[simp] theorem State.setPnl_dioBlk (s : State) (f : Pnl → Pnl) : (s.setPnl f).dioBlk = s.dioBlk := rfl
@[simp] theorem State.setPnl_ps (s : State) (f : Pnl → Pnl) : (s.setPnl f).ps = s.ps := rfl
@[simp] theorem State.setPnl_psBlk (s : State) (f : Pnl → Pnl) : (s.setPnl f).psBlk = s.psBlk := rfl
@[simp] theorem State.setPnl_can (s : State) (f : Pnl → Pnl) : (s.setPnl f).can = s.can := rfl
@[simp] theorem State.setPnl_pev (s : State) (f : Pnl → Pnl) : (s.setPnl f).pev = s.pev := rfl
@[simp] theorem State.setPnl_ann (s : State) (f : Pnl → Pnl) : (s.setPnl f).ann = s.ann := rfl
@[simp] theorem State.setPnl_grp (s : State) (f : Pnl → Pnl) : (s.setPnl f).grp = s.grp := rfl
@[simp] theorem State.setPnl_call (s : State) (f : Pnl → Pnl) : (s.setPnl f).call = s.call := rfl
@[simp] theorem State.setPnl_imz (s : State) (f : Pnl → Pnl) : (s.setPnl f).imz = s.imz := rfl
@[simp] theorem State.setPnl_tim (s : State) (f : Pnl → Pnl) : (s.setPnl f).tim = s.tim := rfl
@[simp] theorem State.setPnl_lvn (s : State) (f : Pnl → Pnl) : (s.setPnl f).lvn = s.lvn := rfl
@[simp] theorem State.setPnl_recd (s : State) (f : Pnl → Pnl) : (s.setPnl f).recd = s.recd := rfl
@[simp] theorem State.setPnl_mmc (s : State) (f : Pnl → Pnl) : (s.setPnl f).mmc = s.mmc := rfl
@[simp] theorem State.setPnl_pnl (s : State) (f : Pnl → Pnl) : (s.setPnl f).pnl = f s.pnl := rfl
@[simp] theorem State.setPnl_rnd (s : State) (f : Pnl → Pnl) : (s.setPnl f).rnd = s.rnd := rfl
@[simp] theorem State.setPnl_age (s : State) (f : Pnl → Pnl) : (s.setPnl f).age = s.age := rfl
@[simp] theorem State.setPnl_tst (s : State) (f : Pnl → Pnl) : (s.setPnl f).tst = s.tst := rfl
/-! ### `setRnd` -/
@[simp] theorem State.setRnd_pending (s : State) (f : Rnd → Rnd) : (s.setRnd f).pending = s.pending := rfl
@[simp] theorem State.setRnd_now (s : State) (f : Rnd → Rnd) : (s.setRnd f).now = s.now := rfl
@[simp] theorem State.setRnd_mono (s : State) (f : Rnd → Rnd) : (s.setRnd f).mono = s.mono := rfl
@[simp] theorem State.setRnd_drawn (s : State) (f : Rnd → Rnd) : (s.setRnd f).drawn = s.drawn := rfl
@[simp] theorem State.setRnd_sys (s : State) (f : Rnd → Rnd) : (s.setRnd f).sys = s.sys := rfl
@[simp] theorem State.setRnd_fab (s : State) (f : Rnd → Rnd) : (s.setRnd f).fab = s.fab := rfl
@[simp] theorem State.setRnd_sup (s : State) (f : Rnd → Rnd) : (s.setRnd f).sup = s.sup := rfl
@[simp] theorem State.setRnd_rcp (s : State) (f : Rnd → Rnd) : (s.setRnd f).rcp = s.rcp := rfl
@[simp] theorem State.setRnd_evr (s : State) (f : Rnd → Rnd) : (s.setRnd f).evr = s.evr := rfl
@[simp] theorem State.setRnd_hp (s : State) (f : Rnd → Rnd) : (s.setRnd f).hp = s.hp := rfl
@[simp] theorem State.setRnd_ui (s : State) (f : Rnd → Rnd) : (s.setRnd f).ui = s.ui := rfl
@[simp] theorem State.setRnd_uiBlk (s : State) (f : Rnd → Rnd) : (s.setRnd f).uiBlk = s.uiBlk := rfl
@[simp] theorem State.setRnd_ao (s : State) (f : Rnd → Rnd) : (s.setRnd f).ao = s.ao := rfl
@[simp] theorem State.setRnd_aoBlk (s : State) (f : Rnd → Rnd) : (s.setRnd f).aoBlk = s.aoBlk := rfl
@[simp] theorem State.setRnd_dio (s : State) (f : Rnd → Rnd) : (s.setRnd f).dio = s.dio := rfl
@[simp] theorem State.setRnd_dioBlk (s : State) (f : Rnd → Rnd) : (s.setRnd f).dioBlk = s.dioBlk := rfl
@[simp] theorem State.setRnd_ps (s : State) (f : Rnd → Rnd) : (s.setRnd f).ps = s.ps := rfl
@[simp] theorem State.setRnd_psBlk (s : State) (f : Rnd → Rnd) : (s.setRnd f).psBlk = s.psBlk := rfl
@[simp] theorem State.setRnd_can (s : State) (f : Rnd → Rnd) : (s.setRnd f).can = s.can := rfl
@[simp] theorem State.setRnd_pev (s : State) (f : Rnd → Rnd) : (s.setRnd f).pev = s.pev := rfl
@[simp] theorem State.setRnd_ann (s : State) (f : Rnd → Rnd) : (s.setRnd f).ann = s.ann := rfl
@[simp] theorem State.setRnd_grp (s : State) (f : Rnd → Rnd) : (s.setRnd f).grp = s.grp := rfl
@[simp] theorem State.setRnd_call (s : State) (f : Rnd → Rnd) : (s.setRnd f).call = s.call := rfl
@[simp] theorem State.setRnd_imz (s : State) (f : Rnd → Rnd) : (s.setRnd f).imz = s.imz := rfl
@[simp] theorem State.setRnd_tim (s : State) (f : Rnd → Rnd) : (s.setRnd f).tim = s.tim := rfl
@[simp] theorem State.setRnd_lvn (s : State) (f : Rnd → Rnd) : (s.setRnd f).lvn = s.lvn := rfl
@[simp] theorem State.setRnd_recd (s : State) (f : Rnd → Rnd) : (s.setRnd f).recd = s.recd := rfl
@[simp] theorem State.setRnd_mmc (s : State) (f : Rnd → Rnd) : (s.setRnd f).mmc = s.mmc := rfl
@[simp] theorem State.setRnd_pnl (s : State) (f : Rnd → Rnd) : (s.setRnd f).pnl = s.pnl := rfl
@[simp] theorem State.setRnd_rnd (s : State) (f : Rnd → Rnd) : (s.setRnd f).rnd = f s.rnd := rfl
@[simp] theorem State.setRnd_age (s : State) (f : Rnd → Rnd) : (s.setRnd f).age = s.age := rfl
@[simp] theorem State.setRnd_tst (s : State) (f : Rnd → Rnd) : (s.setRnd f).tst = s.tst := rfl
/-! ### `setAge` -/
@[simp] theorem State.setAge_pending (s : State) (f : Age → Age) : (s.setAge f).pending = s.pending := rfl
@[simp] theorem State.setAge_now (s : State) (f : Age → Age) : (s.setAge f).now = s.now := rfl
@[simp] theorem State.setAge_mono (s : State) (f : Age → Age) : (s.setAge f).mono = s.mono := rfl
@[simp] theorem State.setAge_drawn (s : State) (f : Age → Age) : (s.setAge f).drawn = s.drawn := rfl
@[simp] theorem State.setAge_sys (s : State) (f : Age → Age) : (s.setAge f).sys = s.sys := rfl
@[simp] theorem State.setAge_fab (s : State) (f : Age → Age) : (s.setAge f).fab = s.fab := rfl
@[simp] theorem State.setAge_sup (s : State) (f : Age → Age) : (s.setAge f).sup = s.sup := rfl
@[simp] theorem State.setAge_rcp (s : State) (f : Age → Age) : (s.setAge f).rcp = s.rcp := rfl
@[simp] theorem State.setAge_evr (s : State) (f : Age → Age) : (s.setAge f).evr = s.evr := rfl
@[simp] theorem State.setAge_hp (s : State) (f : Age → Age) : (s.setAge f).hp = s.hp := rfl
@[simp] theorem State.setAge_ui (s : State) (f : Age → Age) : (s.setAge f).ui = s.ui := rfl
@[simp] theorem State.setAge_uiBlk (s : State) (f : Age → Age) : (s.setAge f).uiBlk = s.uiBlk := rfl
@[simp] theorem State.setAge_ao (s : State) (f : Age → Age) : (s.setAge f).ao = s.ao := rfl
@[simp] theorem State.setAge_aoBlk (s : State) (f : Age → Age) : (s.setAge f).aoBlk = s.aoBlk := rfl
@[simp] theorem State.setAge_dio (s : State) (f : Age → Age) : (s.setAge f).dio = s.dio := rfl
@[simp] theorem State.setAge_dioBlk (s : State) (f : Age → Age) : (s.setAge f).dioBlk = s.dioBlk := rfl
@[simp] theorem State.setAge_ps (s : State) (f : Age → Age) : (s.setAge f).ps = s.ps := rfl
@[simp] theorem State.setAge_psBlk (s : State) (f : Age → Age) : (s.setAge f).psBlk = s.psBlk := rfl
@[simp] theorem State.setAge_can (s : State) (f : Age → Age) : (s.setAge f).can = s.can := rfl
@[simp] theorem State.setAge_pev (s : State) (f : Age → Age) : (s.setAge f).pev = s.pev := rfl
@[simp] theorem State.setAge_ann (s : State) (f : Age → Age) : (s.setAge f).ann = s.ann := rfl
@[simp] theorem State.setAge_grp (s : State) (f : Age → Age) : (s.setAge f).grp = s.grp := rfl
@[simp] theorem State.setAge_call (s : State) (f : Age → Age) : (s.setAge f).call = s.call := rfl
@[simp] theorem State.setAge_imz (s : State) (f : Age → Age) : (s.setAge f).imz = s.imz := rfl
@[simp] theorem State.setAge_tim (s : State) (f : Age → Age) : (s.setAge f).tim = s.tim := rfl
@[simp] theorem State.setAge_lvn (s : State) (f : Age → Age) : (s.setAge f).lvn = s.lvn := rfl
@[simp] theorem State.setAge_recd (s : State) (f : Age → Age) : (s.setAge f).recd = s.recd := rfl
@[simp] theorem State.setAge_mmc (s : State) (f : Age → Age) : (s.setAge f).mmc = s.mmc := rfl
@[simp] theorem State.setAge_pnl (s : State) (f : Age → Age) : (s.setAge f).pnl = s.pnl := rfl
@[simp] theorem State.setAge_rnd (s : State) (f : Age → Age) : (s.setAge f).rnd = s.rnd := rfl
@[simp] theorem State.setAge_age (s : State) (f : Age → Age) : (s.setAge f).age = f s.age := rfl
@[simp] theorem State.setAge_tst (s : State) (f : Age → Age) : (s.setAge f).tst = s.tst := rfl
/-! ### `setUi` -/
@[simp] theorem State.setUi_pending (s : State) (c : Fin 16) (f : Ui → Ui) : (s.setUi c f).pending = s.pending := rfl
@[simp] theorem State.setUi_now (s : State) (c : Fin 16) (f : Ui → Ui) : (s.setUi c f).now = s.now := rfl
@[simp] theorem State.setUi_mono (s : State) (c : Fin 16) (f : Ui → Ui) : (s.setUi c f).mono = s.mono := rfl
@[simp] theorem State.setUi_drawn (s : State) (c : Fin 16) (f : Ui → Ui) : (s.setUi c f).drawn = s.drawn := rfl
@[simp] theorem State.setUi_sys (s : State) (c : Fin 16) (f : Ui → Ui) : (s.setUi c f).sys = s.sys := rfl
@[simp] theorem State.setUi_fab (s : State) (c : Fin 16) (f : Ui → Ui) : (s.setUi c f).fab = s.fab := rfl
@[simp] theorem State.setUi_sup (s : State) (c : Fin 16) (f : Ui → Ui) : (s.setUi c f).sup = s.sup := rfl
@[simp] theorem State.setUi_rcp (s : State) (c : Fin 16) (f : Ui → Ui) : (s.setUi c f).rcp = s.rcp := rfl
@[simp] theorem State.setUi_evr (s : State) (c : Fin 16) (f : Ui → Ui) : (s.setUi c f).evr = s.evr := rfl
@[simp] theorem State.setUi_hp (s : State) (c : Fin 16) (f : Ui → Ui) : (s.setUi c f).hp = s.hp := rfl
@[simp] theorem State.setUi_uiBlk (s : State) (c : Fin 16) (f : Ui → Ui) : (s.setUi c f).uiBlk = s.uiBlk := rfl
@[simp] theorem State.setUi_ao (s : State) (c : Fin 16) (f : Ui → Ui) : (s.setUi c f).ao = s.ao := rfl
@[simp] theorem State.setUi_aoBlk (s : State) (c : Fin 16) (f : Ui → Ui) : (s.setUi c f).aoBlk = s.aoBlk := rfl
@[simp] theorem State.setUi_dio (s : State) (c : Fin 16) (f : Ui → Ui) : (s.setUi c f).dio = s.dio := rfl
@[simp] theorem State.setUi_dioBlk (s : State) (c : Fin 16) (f : Ui → Ui) : (s.setUi c f).dioBlk = s.dioBlk := rfl
@[simp] theorem State.setUi_ps (s : State) (c : Fin 16) (f : Ui → Ui) : (s.setUi c f).ps = s.ps := rfl
@[simp] theorem State.setUi_psBlk (s : State) (c : Fin 16) (f : Ui → Ui) : (s.setUi c f).psBlk = s.psBlk := rfl
@[simp] theorem State.setUi_can (s : State) (c : Fin 16) (f : Ui → Ui) : (s.setUi c f).can = s.can := rfl
@[simp] theorem State.setUi_pev (s : State) (c : Fin 16) (f : Ui → Ui) : (s.setUi c f).pev = s.pev := rfl
@[simp] theorem State.setUi_ann (s : State) (c : Fin 16) (f : Ui → Ui) : (s.setUi c f).ann = s.ann := rfl
@[simp] theorem State.setUi_grp (s : State) (c : Fin 16) (f : Ui → Ui) : (s.setUi c f).grp = s.grp := rfl
@[simp] theorem State.setUi_call (s : State) (c : Fin 16) (f : Ui → Ui) : (s.setUi c f).call = s.call := rfl
@[simp] theorem State.setUi_imz (s : State) (c : Fin 16) (f : Ui → Ui) : (s.setUi c f).imz = s.imz := rfl
@[simp] theorem State.setUi_tim (s : State) (c : Fin 16) (f : Ui → Ui) : (s.setUi c f).tim = s.tim := rfl
@[simp] theorem State.setUi_lvn (s : State) (c : Fin 16) (f : Ui → Ui) : (s.setUi c f).lvn = s.lvn := rfl
@[simp] theorem State.setUi_recd (s : State) (c : Fin 16) (f : Ui → Ui) : (s.setUi c f).recd = s.recd := rfl
@[simp] theorem State.setUi_mmc (s : State) (c : Fin 16) (f : Ui → Ui) : (s.setUi c f).mmc = s.mmc := rfl
@[simp] theorem State.setUi_pnl (s : State) (c : Fin 16) (f : Ui → Ui) : (s.setUi c f).pnl = s.pnl := rfl
@[simp] theorem State.setUi_rnd (s : State) (c : Fin 16) (f : Ui → Ui) : (s.setUi c f).rnd = s.rnd := rfl
@[simp] theorem State.setUi_age (s : State) (c : Fin 16) (f : Ui → Ui) : (s.setUi c f).age = s.age := rfl
@[simp] theorem State.setUi_tst (s : State) (c : Fin 16) (f : Ui → Ui) : (s.setUi c f).tst = s.tst := rfl
@[simp] theorem State.setUi_ui_self (s : State) (c : Fin 16) (f : Ui → Ui) : (s.setUi c f).ui[c] = f s.ui[c] := by
  simp [State.setUi]
@[simp] theorem State.setUi_ui_other (s : State) (c e : Fin 16) (f : Ui → Ui) (h : e ≠ c) :
    (s.setUi c f).ui[e] = s.ui[e] := by
  have k : c.val ≠ e.val := fun g => h (Fin.ext g.symm)
  simp [State.setUi, Vector.getElem_set, k]
/-! ### `setAo` -/
@[simp] theorem State.setAo_pending (s : State) (c : Fin 4) (f : Ao → Ao) : (s.setAo c f).pending = s.pending := rfl
@[simp] theorem State.setAo_now (s : State) (c : Fin 4) (f : Ao → Ao) : (s.setAo c f).now = s.now := rfl
@[simp] theorem State.setAo_mono (s : State) (c : Fin 4) (f : Ao → Ao) : (s.setAo c f).mono = s.mono := rfl
@[simp] theorem State.setAo_drawn (s : State) (c : Fin 4) (f : Ao → Ao) : (s.setAo c f).drawn = s.drawn := rfl
@[simp] theorem State.setAo_sys (s : State) (c : Fin 4) (f : Ao → Ao) : (s.setAo c f).sys = s.sys := rfl
@[simp] theorem State.setAo_fab (s : State) (c : Fin 4) (f : Ao → Ao) : (s.setAo c f).fab = s.fab := rfl
@[simp] theorem State.setAo_sup (s : State) (c : Fin 4) (f : Ao → Ao) : (s.setAo c f).sup = s.sup := rfl
@[simp] theorem State.setAo_rcp (s : State) (c : Fin 4) (f : Ao → Ao) : (s.setAo c f).rcp = s.rcp := rfl
@[simp] theorem State.setAo_evr (s : State) (c : Fin 4) (f : Ao → Ao) : (s.setAo c f).evr = s.evr := rfl
@[simp] theorem State.setAo_hp (s : State) (c : Fin 4) (f : Ao → Ao) : (s.setAo c f).hp = s.hp := rfl
@[simp] theorem State.setAo_ui (s : State) (c : Fin 4) (f : Ao → Ao) : (s.setAo c f).ui = s.ui := rfl
@[simp] theorem State.setAo_uiBlk (s : State) (c : Fin 4) (f : Ao → Ao) : (s.setAo c f).uiBlk = s.uiBlk := rfl
@[simp] theorem State.setAo_aoBlk (s : State) (c : Fin 4) (f : Ao → Ao) : (s.setAo c f).aoBlk = s.aoBlk := rfl
@[simp] theorem State.setAo_dio (s : State) (c : Fin 4) (f : Ao → Ao) : (s.setAo c f).dio = s.dio := rfl
@[simp] theorem State.setAo_dioBlk (s : State) (c : Fin 4) (f : Ao → Ao) : (s.setAo c f).dioBlk = s.dioBlk := rfl
@[simp] theorem State.setAo_ps (s : State) (c : Fin 4) (f : Ao → Ao) : (s.setAo c f).ps = s.ps := rfl
@[simp] theorem State.setAo_psBlk (s : State) (c : Fin 4) (f : Ao → Ao) : (s.setAo c f).psBlk = s.psBlk := rfl
@[simp] theorem State.setAo_can (s : State) (c : Fin 4) (f : Ao → Ao) : (s.setAo c f).can = s.can := rfl
@[simp] theorem State.setAo_pev (s : State) (c : Fin 4) (f : Ao → Ao) : (s.setAo c f).pev = s.pev := rfl
@[simp] theorem State.setAo_ann (s : State) (c : Fin 4) (f : Ao → Ao) : (s.setAo c f).ann = s.ann := rfl
@[simp] theorem State.setAo_grp (s : State) (c : Fin 4) (f : Ao → Ao) : (s.setAo c f).grp = s.grp := rfl
@[simp] theorem State.setAo_call (s : State) (c : Fin 4) (f : Ao → Ao) : (s.setAo c f).call = s.call := rfl
@[simp] theorem State.setAo_imz (s : State) (c : Fin 4) (f : Ao → Ao) : (s.setAo c f).imz = s.imz := rfl
@[simp] theorem State.setAo_tim (s : State) (c : Fin 4) (f : Ao → Ao) : (s.setAo c f).tim = s.tim := rfl
@[simp] theorem State.setAo_lvn (s : State) (c : Fin 4) (f : Ao → Ao) : (s.setAo c f).lvn = s.lvn := rfl
@[simp] theorem State.setAo_recd (s : State) (c : Fin 4) (f : Ao → Ao) : (s.setAo c f).recd = s.recd := rfl
@[simp] theorem State.setAo_mmc (s : State) (c : Fin 4) (f : Ao → Ao) : (s.setAo c f).mmc = s.mmc := rfl
@[simp] theorem State.setAo_pnl (s : State) (c : Fin 4) (f : Ao → Ao) : (s.setAo c f).pnl = s.pnl := rfl
@[simp] theorem State.setAo_rnd (s : State) (c : Fin 4) (f : Ao → Ao) : (s.setAo c f).rnd = s.rnd := rfl
@[simp] theorem State.setAo_age (s : State) (c : Fin 4) (f : Ao → Ao) : (s.setAo c f).age = s.age := rfl
@[simp] theorem State.setAo_tst (s : State) (c : Fin 4) (f : Ao → Ao) : (s.setAo c f).tst = s.tst := rfl
@[simp] theorem State.setAo_ao_self (s : State) (c : Fin 4) (f : Ao → Ao) : (s.setAo c f).ao[c] = f s.ao[c] := by
  simp [State.setAo]
@[simp] theorem State.setAo_ao_other (s : State) (c e : Fin 4) (f : Ao → Ao) (h : e ≠ c) :
    (s.setAo c f).ao[e] = s.ao[e] := by
  have k : c.val ≠ e.val := fun g => h (Fin.ext g.symm)
  simp [State.setAo, Vector.getElem_set, k]
/-! ### `setDio` -/
@[simp] theorem State.setDio_pending (s : State) (c : Fin 16) (f : Dio → Dio) : (s.setDio c f).pending = s.pending := rfl
@[simp] theorem State.setDio_now (s : State) (c : Fin 16) (f : Dio → Dio) : (s.setDio c f).now = s.now := rfl
@[simp] theorem State.setDio_mono (s : State) (c : Fin 16) (f : Dio → Dio) : (s.setDio c f).mono = s.mono := rfl
@[simp] theorem State.setDio_drawn (s : State) (c : Fin 16) (f : Dio → Dio) : (s.setDio c f).drawn = s.drawn := rfl
@[simp] theorem State.setDio_sys (s : State) (c : Fin 16) (f : Dio → Dio) : (s.setDio c f).sys = s.sys := rfl
@[simp] theorem State.setDio_fab (s : State) (c : Fin 16) (f : Dio → Dio) : (s.setDio c f).fab = s.fab := rfl
@[simp] theorem State.setDio_sup (s : State) (c : Fin 16) (f : Dio → Dio) : (s.setDio c f).sup = s.sup := rfl
@[simp] theorem State.setDio_rcp (s : State) (c : Fin 16) (f : Dio → Dio) : (s.setDio c f).rcp = s.rcp := rfl
@[simp] theorem State.setDio_evr (s : State) (c : Fin 16) (f : Dio → Dio) : (s.setDio c f).evr = s.evr := rfl
@[simp] theorem State.setDio_hp (s : State) (c : Fin 16) (f : Dio → Dio) : (s.setDio c f).hp = s.hp := rfl
@[simp] theorem State.setDio_ui (s : State) (c : Fin 16) (f : Dio → Dio) : (s.setDio c f).ui = s.ui := rfl
@[simp] theorem State.setDio_uiBlk (s : State) (c : Fin 16) (f : Dio → Dio) : (s.setDio c f).uiBlk = s.uiBlk := rfl
@[simp] theorem State.setDio_ao (s : State) (c : Fin 16) (f : Dio → Dio) : (s.setDio c f).ao = s.ao := rfl
@[simp] theorem State.setDio_aoBlk (s : State) (c : Fin 16) (f : Dio → Dio) : (s.setDio c f).aoBlk = s.aoBlk := rfl
@[simp] theorem State.setDio_dioBlk (s : State) (c : Fin 16) (f : Dio → Dio) : (s.setDio c f).dioBlk = s.dioBlk := rfl
@[simp] theorem State.setDio_ps (s : State) (c : Fin 16) (f : Dio → Dio) : (s.setDio c f).ps = s.ps := rfl
@[simp] theorem State.setDio_psBlk (s : State) (c : Fin 16) (f : Dio → Dio) : (s.setDio c f).psBlk = s.psBlk := rfl
@[simp] theorem State.setDio_can (s : State) (c : Fin 16) (f : Dio → Dio) : (s.setDio c f).can = s.can := rfl
@[simp] theorem State.setDio_pev (s : State) (c : Fin 16) (f : Dio → Dio) : (s.setDio c f).pev = s.pev := rfl
@[simp] theorem State.setDio_ann (s : State) (c : Fin 16) (f : Dio → Dio) : (s.setDio c f).ann = s.ann := rfl
@[simp] theorem State.setDio_grp (s : State) (c : Fin 16) (f : Dio → Dio) : (s.setDio c f).grp = s.grp := rfl
@[simp] theorem State.setDio_call (s : State) (c : Fin 16) (f : Dio → Dio) : (s.setDio c f).call = s.call := rfl
@[simp] theorem State.setDio_imz (s : State) (c : Fin 16) (f : Dio → Dio) : (s.setDio c f).imz = s.imz := rfl
@[simp] theorem State.setDio_tim (s : State) (c : Fin 16) (f : Dio → Dio) : (s.setDio c f).tim = s.tim := rfl
@[simp] theorem State.setDio_lvn (s : State) (c : Fin 16) (f : Dio → Dio) : (s.setDio c f).lvn = s.lvn := rfl
@[simp] theorem State.setDio_recd (s : State) (c : Fin 16) (f : Dio → Dio) : (s.setDio c f).recd = s.recd := rfl
@[simp] theorem State.setDio_mmc (s : State) (c : Fin 16) (f : Dio → Dio) : (s.setDio c f).mmc = s.mmc := rfl
@[simp] theorem State.setDio_pnl (s : State) (c : Fin 16) (f : Dio → Dio) : (s.setDio c f).pnl = s.pnl := rfl
@[simp] theorem State.setDio_rnd (s : State) (c : Fin 16) (f : Dio → Dio) : (s.setDio c f).rnd = s.rnd := rfl
@[simp] theorem State.setDio_age (s : State) (c : Fin 16) (f : Dio → Dio) : (s.setDio c f).age = s.age := rfl
@[simp] theorem State.setDio_tst (s : State) (c : Fin 16) (f : Dio → Dio) : (s.setDio c f).tst = s.tst := rfl
@[simp] theorem State.setDio_dio_self (s : State) (c : Fin 16) (f : Dio → Dio) : (s.setDio c f).dio[c] = f s.dio[c] := by
  simp [State.setDio]
@[simp] theorem State.setDio_dio_other (s : State) (c e : Fin 16) (f : Dio → Dio) (h : e ≠ c) :
    (s.setDio c f).dio[e] = s.dio[e] := by
  have k : c.val ≠ e.val := fun g => h (Fin.ext g.symm)
  simp [State.setDio, Vector.getElem_set, k]
/-! ### `setPs` -/
@[simp] theorem State.setPs_pending (s : State) (c : Fin 2) (f : Ps → Ps) : (s.setPs c f).pending = s.pending := rfl
@[simp] theorem State.setPs_now (s : State) (c : Fin 2) (f : Ps → Ps) : (s.setPs c f).now = s.now := rfl
@[simp] theorem State.setPs_mono (s : State) (c : Fin 2) (f : Ps → Ps) : (s.setPs c f).mono = s.mono := rfl
@[simp] theorem State.setPs_drawn (s : State) (c : Fin 2) (f : Ps → Ps) : (s.setPs c f).drawn = s.drawn := rfl
@[simp] theorem State.setPs_sys (s : State) (c : Fin 2) (f : Ps → Ps) : (s.setPs c f).sys = s.sys := rfl
@[simp] theorem State.setPs_fab (s : State) (c : Fin 2) (f : Ps → Ps) : (s.setPs c f).fab = s.fab := rfl
@[simp] theorem State.setPs_sup (s : State) (c : Fin 2) (f : Ps → Ps) : (s.setPs c f).sup = s.sup := rfl
@[simp] theorem State.setPs_rcp (s : State) (c : Fin 2) (f : Ps → Ps) : (s.setPs c f).rcp = s.rcp := rfl
@[simp] theorem State.setPs_evr (s : State) (c : Fin 2) (f : Ps → Ps) : (s.setPs c f).evr = s.evr := rfl
@[simp] theorem State.setPs_hp (s : State) (c : Fin 2) (f : Ps → Ps) : (s.setPs c f).hp = s.hp := rfl
@[simp] theorem State.setPs_ui (s : State) (c : Fin 2) (f : Ps → Ps) : (s.setPs c f).ui = s.ui := rfl
@[simp] theorem State.setPs_uiBlk (s : State) (c : Fin 2) (f : Ps → Ps) : (s.setPs c f).uiBlk = s.uiBlk := rfl
@[simp] theorem State.setPs_ao (s : State) (c : Fin 2) (f : Ps → Ps) : (s.setPs c f).ao = s.ao := rfl
@[simp] theorem State.setPs_aoBlk (s : State) (c : Fin 2) (f : Ps → Ps) : (s.setPs c f).aoBlk = s.aoBlk := rfl
@[simp] theorem State.setPs_dio (s : State) (c : Fin 2) (f : Ps → Ps) : (s.setPs c f).dio = s.dio := rfl
@[simp] theorem State.setPs_dioBlk (s : State) (c : Fin 2) (f : Ps → Ps) : (s.setPs c f).dioBlk = s.dioBlk := rfl
@[simp] theorem State.setPs_psBlk (s : State) (c : Fin 2) (f : Ps → Ps) : (s.setPs c f).psBlk = s.psBlk := rfl
@[simp] theorem State.setPs_can (s : State) (c : Fin 2) (f : Ps → Ps) : (s.setPs c f).can = s.can := rfl
@[simp] theorem State.setPs_pev (s : State) (c : Fin 2) (f : Ps → Ps) : (s.setPs c f).pev = s.pev := rfl
@[simp] theorem State.setPs_ann (s : State) (c : Fin 2) (f : Ps → Ps) : (s.setPs c f).ann = s.ann := rfl
@[simp] theorem State.setPs_grp (s : State) (c : Fin 2) (f : Ps → Ps) : (s.setPs c f).grp = s.grp := rfl
@[simp] theorem State.setPs_call (s : State) (c : Fin 2) (f : Ps → Ps) : (s.setPs c f).call = s.call := rfl
@[simp] theorem State.setPs_imz (s : State) (c : Fin 2) (f : Ps → Ps) : (s.setPs c f).imz = s.imz := rfl
@[simp] theorem State.setPs_tim (s : State) (c : Fin 2) (f : Ps → Ps) : (s.setPs c f).tim = s.tim := rfl
@[simp] theorem State.setPs_lvn (s : State) (c : Fin 2) (f : Ps → Ps) : (s.setPs c f).lvn = s.lvn := rfl
@[simp] theorem State.setPs_recd (s : State) (c : Fin 2) (f : Ps → Ps) : (s.setPs c f).recd = s.recd := rfl
@[simp] theorem State.setPs_mmc (s : State) (c : Fin 2) (f : Ps → Ps) : (s.setPs c f).mmc = s.mmc := rfl
@[simp] theorem State.setPs_pnl (s : State) (c : Fin 2) (f : Ps → Ps) : (s.setPs c f).pnl = s.pnl := rfl
@[simp] theorem State.setPs_rnd (s : State) (c : Fin 2) (f : Ps → Ps) : (s.setPs c f).rnd = s.rnd := rfl
@[simp] theorem State.setPs_age (s : State) (c : Fin 2) (f : Ps → Ps) : (s.setPs c f).age = s.age := rfl
@[simp] theorem State.setPs_tst (s : State) (c : Fin 2) (f : Ps → Ps) : (s.setPs c f).tst = s.tst := rfl
@[simp] theorem State.setPs_ps_self (s : State) (c : Fin 2) (f : Ps → Ps) : (s.setPs c f).ps[c] = f s.ps[c] := by
  simp [State.setPs]
@[simp] theorem State.setPs_ps_other (s : State) (c e : Fin 2) (f : Ps → Ps) (h : e ≠ c) :
    (s.setPs c f).ps[e] = s.ps[e] := by
  have k : c.val ≠ e.val := fun g => h (Fin.ext g.symm)
  simp [State.setPs, Vector.getElem_set, k]
/-! ### `setCan` -/
@[simp] theorem State.setCan_pending (s : State) (c : Fin 4) (f : Can → Can) : (s.setCan c f).pending = s.pending := rfl
@[simp] theorem State.setCan_now (s : State) (c : Fin 4) (f : Can → Can) : (s.setCan c f).now = s.now := rfl
@[simp] theorem State.setCan_mono (s : State) (c : Fin 4) (f : Can → Can) : (s.setCan c f).mono = s.mono := rfl
@[simp] theorem State.setCan_drawn (s : State) (c : Fin 4) (f : Can → Can) : (s.setCan c f).drawn = s.drawn := rfl
@[simp] theorem State.setCan_sys (s : State) (c : Fin 4) (f : Can → Can) : (s.setCan c f).sys = s.sys := rfl
@[simp] theorem State.setCan_fab (s : State) (c : Fin 4) (f : Can → Can) : (s.setCan c f).fab = s.fab := rfl
@[simp] theorem State.setCan_sup (s : State) (c : Fin 4) (f : Can → Can) : (s.setCan c f).sup = s.sup := rfl
@[simp] theorem State.setCan_rcp (s : State) (c : Fin 4) (f : Can → Can) : (s.setCan c f).rcp = s.rcp := rfl
@[simp] theorem State.setCan_evr (s : State) (c : Fin 4) (f : Can → Can) : (s.setCan c f).evr = s.evr := rfl
@[simp] theorem State.setCan_hp (s : State) (c : Fin 4) (f : Can → Can) : (s.setCan c f).hp = s.hp := rfl
@[simp] theorem State.setCan_ui (s : State) (c : Fin 4) (f : Can → Can) : (s.setCan c f).ui = s.ui := rfl
@[simp] theorem State.setCan_uiBlk (s : State) (c : Fin 4) (f : Can → Can) : (s.setCan c f).uiBlk = s.uiBlk := rfl
@[simp] theorem State.setCan_ao (s : State) (c : Fin 4) (f : Can → Can) : (s.setCan c f).ao = s.ao := rfl
@[simp] theorem State.setCan_aoBlk (s : State) (c : Fin 4) (f : Can → Can) : (s.setCan c f).aoBlk = s.aoBlk := rfl
@[simp] theorem State.setCan_dio (s : State) (c : Fin 4) (f : Can → Can) : (s.setCan c f).dio = s.dio := rfl
@[simp] theorem State.setCan_dioBlk (s : State) (c : Fin 4) (f : Can → Can) : (s.setCan c f).dioBlk = s.dioBlk := rfl
@[simp] theorem State.setCan_ps (s : State) (c : Fin 4) (f : Can → Can) : (s.setCan c f).ps = s.ps := rfl
@[simp] theorem State.setCan_psBlk (s : State) (c : Fin 4) (f : Can → Can) : (s.setCan c f).psBlk = s.psBlk := rfl
@[simp] theorem State.setCan_pev (s : State) (c : Fin 4) (f : Can → Can) : (s.setCan c f).pev = s.pev := rfl
@[simp] theorem State.setCan_ann (s : State) (c : Fin 4) (f : Can → Can) : (s.setCan c f).ann = s.ann := rfl
@[simp] theorem State.setCan_grp (s : State) (c : Fin 4) (f : Can → Can) : (s.setCan c f).grp = s.grp := rfl
@[simp] theorem State.setCan_call (s : State) (c : Fin 4) (f : Can → Can) : (s.setCan c f).call = s.call := rfl
@[simp] theorem State.setCan_imz (s : State) (c : Fin 4) (f : Can → Can) : (s.setCan c f).imz = s.imz := rfl
@[simp] theorem State.setCan_tim (s : State) (c : Fin 4) (f : Can → Can) : (s.setCan c f).tim = s.tim := rfl
@[simp] theorem State.setCan_lvn (s : State) (c : Fin 4) (f : Can → Can) : (s.setCan c f).lvn = s.lvn := rfl
@[simp] theorem State.setCan_recd (s : State) (c : Fin 4) (f : Can → Can) : (s.setCan c f).recd = s.recd := rfl
@[simp] theorem State.setCan_mmc (s : State) (c : Fin 4) (f : Can → Can) : (s.setCan c f).mmc = s.mmc := rfl
@[simp] theorem State.setCan_pnl (s : State) (c : Fin 4) (f : Can → Can) : (s.setCan c f).pnl = s.pnl := rfl
@[simp] theorem State.setCan_rnd (s : State) (c : Fin 4) (f : Can → Can) : (s.setCan c f).rnd = s.rnd := rfl
@[simp] theorem State.setCan_age (s : State) (c : Fin 4) (f : Can → Can) : (s.setCan c f).age = s.age := rfl
@[simp] theorem State.setCan_tst (s : State) (c : Fin 4) (f : Can → Can) : (s.setCan c f).tst = s.tst := rfl
@[simp] theorem State.setCan_can_self (s : State) (c : Fin 4) (f : Can → Can) : (s.setCan c f).can[c] = f s.can[c] := by
  simp [State.setCan]
@[simp] theorem State.setCan_can_other (s : State) (c e : Fin 4) (f : Can → Can) (h : e ≠ c) :
    (s.setCan c f).can[e] = s.can[e] := by
  have k : c.val ≠ e.val := fun g => h (Fin.ext g.symm)
  simp [State.setCan, Vector.getElem_set, k]
/-! ### `setHp` -/
@[simp] theorem State.setHp_pending (s : State) (c : Fin 2) (f : HostPort → HostPort) : (s.setHp c f).pending = s.pending := rfl
@[simp] theorem State.setHp_now (s : State) (c : Fin 2) (f : HostPort → HostPort) : (s.setHp c f).now = s.now := rfl
@[simp] theorem State.setHp_mono (s : State) (c : Fin 2) (f : HostPort → HostPort) : (s.setHp c f).mono = s.mono := rfl
@[simp] theorem State.setHp_drawn (s : State) (c : Fin 2) (f : HostPort → HostPort) : (s.setHp c f).drawn = s.drawn := rfl
@[simp] theorem State.setHp_sys (s : State) (c : Fin 2) (f : HostPort → HostPort) : (s.setHp c f).sys = s.sys := rfl
@[simp] theorem State.setHp_fab (s : State) (c : Fin 2) (f : HostPort → HostPort) : (s.setHp c f).fab = s.fab := rfl
@[simp] theorem State.setHp_sup (s : State) (c : Fin 2) (f : HostPort → HostPort) : (s.setHp c f).sup = s.sup := rfl
@[simp] theorem State.setHp_rcp (s : State) (c : Fin 2) (f : HostPort → HostPort) : (s.setHp c f).rcp = s.rcp := rfl
@[simp] theorem State.setHp_evr (s : State) (c : Fin 2) (f : HostPort → HostPort) : (s.setHp c f).evr = s.evr := rfl
@[simp] theorem State.setHp_ui (s : State) (c : Fin 2) (f : HostPort → HostPort) : (s.setHp c f).ui = s.ui := rfl
@[simp] theorem State.setHp_uiBlk (s : State) (c : Fin 2) (f : HostPort → HostPort) : (s.setHp c f).uiBlk = s.uiBlk := rfl
@[simp] theorem State.setHp_ao (s : State) (c : Fin 2) (f : HostPort → HostPort) : (s.setHp c f).ao = s.ao := rfl
@[simp] theorem State.setHp_aoBlk (s : State) (c : Fin 2) (f : HostPort → HostPort) : (s.setHp c f).aoBlk = s.aoBlk := rfl
@[simp] theorem State.setHp_dio (s : State) (c : Fin 2) (f : HostPort → HostPort) : (s.setHp c f).dio = s.dio := rfl
@[simp] theorem State.setHp_dioBlk (s : State) (c : Fin 2) (f : HostPort → HostPort) : (s.setHp c f).dioBlk = s.dioBlk := rfl
@[simp] theorem State.setHp_ps (s : State) (c : Fin 2) (f : HostPort → HostPort) : (s.setHp c f).ps = s.ps := rfl
@[simp] theorem State.setHp_psBlk (s : State) (c : Fin 2) (f : HostPort → HostPort) : (s.setHp c f).psBlk = s.psBlk := rfl
@[simp] theorem State.setHp_can (s : State) (c : Fin 2) (f : HostPort → HostPort) : (s.setHp c f).can = s.can := rfl
@[simp] theorem State.setHp_pev (s : State) (c : Fin 2) (f : HostPort → HostPort) : (s.setHp c f).pev = s.pev := rfl
@[simp] theorem State.setHp_ann (s : State) (c : Fin 2) (f : HostPort → HostPort) : (s.setHp c f).ann = s.ann := rfl
@[simp] theorem State.setHp_grp (s : State) (c : Fin 2) (f : HostPort → HostPort) : (s.setHp c f).grp = s.grp := rfl
@[simp] theorem State.setHp_call (s : State) (c : Fin 2) (f : HostPort → HostPort) : (s.setHp c f).call = s.call := rfl
@[simp] theorem State.setHp_imz (s : State) (c : Fin 2) (f : HostPort → HostPort) : (s.setHp c f).imz = s.imz := rfl
@[simp] theorem State.setHp_tim (s : State) (c : Fin 2) (f : HostPort → HostPort) : (s.setHp c f).tim = s.tim := rfl
@[simp] theorem State.setHp_lvn (s : State) (c : Fin 2) (f : HostPort → HostPort) : (s.setHp c f).lvn = s.lvn := rfl
@[simp] theorem State.setHp_recd (s : State) (c : Fin 2) (f : HostPort → HostPort) : (s.setHp c f).recd = s.recd := rfl
@[simp] theorem State.setHp_mmc (s : State) (c : Fin 2) (f : HostPort → HostPort) : (s.setHp c f).mmc = s.mmc := rfl
@[simp] theorem State.setHp_pnl (s : State) (c : Fin 2) (f : HostPort → HostPort) : (s.setHp c f).pnl = s.pnl := rfl
@[simp] theorem State.setHp_rnd (s : State) (c : Fin 2) (f : HostPort → HostPort) : (s.setHp c f).rnd = s.rnd := rfl
@[simp] theorem State.setHp_age (s : State) (c : Fin 2) (f : HostPort → HostPort) : (s.setHp c f).age = s.age := rfl
@[simp] theorem State.setHp_tst (s : State) (c : Fin 2) (f : HostPort → HostPort) : (s.setHp c f).tst = s.tst := rfl
@[simp] theorem State.setHp_hp_self (s : State) (c : Fin 2) (f : HostPort → HostPort) : (s.setHp c f).hp[c] = f s.hp[c] := by
  simp [State.setHp]
@[simp] theorem State.setHp_hp_other (s : State) (c e : Fin 2) (f : HostPort → HostPort) (h : e ≠ c) :
    (s.setHp c f).hp[e] = s.hp[e] := by
  have k : c.val ≠ e.val := fun g => h (Fin.ext g.symm)
  simp [State.setHp, Vector.getElem_set, k]
/-! ### The count of free values drawn -/
@[simp] theorem State.drew_pending (s : State) : s.drew.pending = s.pending := rfl
@[simp] theorem State.drew_now (s : State) : s.drew.now = s.now := rfl
@[simp] theorem State.drew_mono (s : State) : s.drew.mono = s.mono := rfl
@[simp] theorem State.drew_drawn (s : State) : s.drew.drawn = s.drawn + 1 := rfl
@[simp] theorem State.drew_sys (s : State) : s.drew.sys = s.sys := rfl
@[simp] theorem State.drew_fab (s : State) : s.drew.fab = s.fab := rfl
@[simp] theorem State.drew_sup (s : State) : s.drew.sup = s.sup := rfl
@[simp] theorem State.drew_rcp (s : State) : s.drew.rcp = s.rcp := rfl
@[simp] theorem State.drew_evr (s : State) : s.drew.evr = s.evr := rfl
@[simp] theorem State.drew_hp (s : State) : s.drew.hp = s.hp := rfl
@[simp] theorem State.drew_ui (s : State) : s.drew.ui = s.ui := rfl
@[simp] theorem State.drew_uiBlk (s : State) : s.drew.uiBlk = s.uiBlk := rfl
@[simp] theorem State.drew_ao (s : State) : s.drew.ao = s.ao := rfl
@[simp] theorem State.drew_aoBlk (s : State) : s.drew.aoBlk = s.aoBlk := rfl
@[simp] theorem State.drew_dio (s : State) : s.drew.dio = s.dio := rfl
@[simp] theorem State.drew_dioBlk (s : State) : s.drew.dioBlk = s.dioBlk := rfl
@[simp] theorem State.drew_ps (s : State) : s.drew.ps = s.ps := rfl
@[simp] theorem State.drew_psBlk (s : State) : s.drew.psBlk = s.psBlk := rfl
@[simp] theorem State.drew_can (s : State) : s.drew.can = s.can := rfl
@[simp] theorem State.drew_pev (s : State) : s.drew.pev = s.pev := rfl
@[simp] theorem State.drew_ann (s : State) : s.drew.ann = s.ann := rfl
@[simp] theorem State.drew_grp (s : State) : s.drew.grp = s.grp := rfl
@[simp] theorem State.drew_call (s : State) : s.drew.call = s.call := rfl
@[simp] theorem State.drew_imz (s : State) : s.drew.imz = s.imz := rfl
@[simp] theorem State.drew_tim (s : State) : s.drew.tim = s.tim := rfl
@[simp] theorem State.drew_lvn (s : State) : s.drew.lvn = s.lvn := rfl
@[simp] theorem State.drew_recd (s : State) : s.drew.recd = s.recd := rfl
@[simp] theorem State.drew_mmc (s : State) : s.drew.mmc = s.mmc := rfl
@[simp] theorem State.drew_pnl (s : State) : s.drew.pnl = s.pnl := rfl
@[simp] theorem State.drew_rnd (s : State) : s.drew.rnd = s.rnd := rfl
@[simp] theorem State.drew_age (s : State) : s.drew.age = s.age := rfl
@[simp] theorem State.drew_tst (s : State) : s.drew.tst = s.tst := rfl

end Sys2Proof.Machine
end

