-- ==== Sys2Proof/Machine/Contacts.lean ====
section
/-! DEFINITION. Contacts: the level that every contact which the module drives shows in a state (R24, R25, R27, R29, R33,
R410 to R412, R486). The bits within a frame or transfer on an interface belong to the wire, and are outside the model. -/
namespace Sys2Proof.Machine

open Sys2Proof

/-- What a contact shows. -/
inductive Level where
  | low
  | high
  /-- High impedance, or an open loop. -/
  | open'
  /-- Electrical idle of a leaven lane. -/
  | idle
  /-- A rail, in mV. -/
  | rail (mV : Int)
  /-- A current out of the module, in nA. -/
  | current (nA : Int)
  /-- The interface is in use: its bits are those of the frames or transfers that it carries. -/
  | inUse
  /-- A cell of the boundary register, whose value is shifted in from outside (R486). -/
  | boundary
deriving DecidableEq, Repr

/-- A contact that the module drives, or a loop or differential pair of contacts. -/
inductive Contact where
  | canTx (k : Fin 4)
  | canStb (k : Fin 4)
  | mmcClk
  | mmcCmd
  | mmcData (i : Fin 4)
  | mmcRstn
  | mmcPwr
  | hostSdo (h : Fin 2)
  | hostIntn (h : Fin 2)
  | lvTx (lane : Fin 2)
  | lvPresOut
  | pnlData (i : Fin 8)
  /-- `PNL_SDCLK`, `PNL_SDLE`, `PNL_SDOE`, `PNL_SDCE`, `PNL_GDCLK`, `PNL_GDSP`, `PNL_GDOE`. -/
  | pnlDrive (i : Fin 7)
  | pnlVgh
  | pnlVgl
  | pnlVsh
  | pnlVsl
  | pnlVcom
  | pnlPwren
  | syncOut
  | tdo
  | faultn
  | stat1
  | stat2
  /-- `UIn_EXC`: the excitation source. -/
  | uiExc (c : Fin 16)
  /-- `AOn_P` to `AOn_N`: the loop. -/
  | aoLoop (c : Fin 4)
  | dioOut (c : Fin 16)
deriving DecidableEq, Repr

/-- A level by its bit. -/
def levelOf (b : Bool) : Level := if b then .high else .low

/-- The contact has a cell in the boundary register (R486). -/
def Contact.hasCell : Contact → Bool
  | .lvTx _ | .pnlVgh | .pnlVgl | .pnlVsh | .pnlVsl | .pnlVcom | .tdo | .uiExc _ | .aoLoop _ | .dioOut _ => false
  | _ => true

/-- The panel rails are up (R411, R412). -/
def railsUp (s : State) : Bool := s.pnl.st == .run

/-- A rail of configuration L; in configuration S it stays at 0 V (R409, R410). -/
def railL (s : State) (mV : Int) : Level := .rail (if railsUp s && s.panel 0 1 == 1 then mV else 0)

/-- Lines of the eMMC: low while its supply is off, then those of the bus (R27, R29). -/
def mmcLine (s : State) : Level := if s.sys.pins.mmcPwr then .inUse else .low

/-- The level of a contact while boundary scan leaves it to the module (R24, R27). -/
def ownLevel (s : State) : Contact → Level
  | .canTx k => if s.can[k].onBus then .inUse else .high
  | .canStb k => levelOf s.sys.pins.canStb[k]
  | .mmcClk | .mmcCmd | .mmcData _ => mmcLine s
  | .mmcRstn => levelOf s.sys.pins.mmcRstn
  | .mmcPwr => levelOf s.sys.pins.mmcPwr
  | .hostSdo _ => .open'
  | .hostIntn h => levelOf !s.sys.pins.intLow[h]
  | .lvTx l => if s.lvn.lanes[l] then .inUse else .idle
  | .lvPresOut => levelOf s.sys.pins.presOut
  | .pnlData _ | .pnlDrive _ => if railsUp s && !s.pnl.slots.isEmpty then .inUse else .low
  | .pnlVgh => railL s 22000
  | .pnlVgl => railL s (-20000)
  | .pnlVsh => railL s 15000
  | .pnlVsl => railL s (-15000)
  | .pnlVcom => .rail (if railsUp s then 10 * vcomOf s s.pnl.vcomBand else 0)
  | .pnlPwren => levelOf s.sys.pins.pnlPwren
  | .syncOut => levelOf (decide (s.mono < s.sys.pins.syncEnd))
  | .tdo => .open'
  | .faultn => levelOf !s.sys.pins.faultLow
  | .stat1 => levelOf (bit s.sys.pins.stat 0)
  | .stat2 => levelOf (bit s.sys.pins.stat 1)
  | .uiExc c => if s.ui[c].excOn then .current (1000 * s.ui[c].excDriven) else .open'
  | .aoLoop c => if s.ao[c].why = 8 then .open' else .current (400 * s.ao[c].code)
  | .dioOut c => levelOf (s.dio[c].output && s.dio[c].on)

/-- The level of a contact: HIGHZ, EXTEST and CLAMP take those with a boundary cell (R486, R487). The host's SDO is shown
between transactions, and TDO between shifts. -/
def contactLevel (s : State) (k : Contact) : Level :=
  if k.hasCell && jtagTakes s.tst.jtag then (if s.tst.jtag = 4 then .open' else .boundary) else ownLevel s k

/-- The word that the TAP shifts out under IDCODE (R486). -/
def jtagIdcode : Word := put 28 4 (Config.hwRev.toNat % 16) ||| put 12 16 0x4080 ||| put 1 11 0x4C9 ||| putB 0 true

end Sys2Proof.Machine
end

