-- ==== Sys2Proof/Tests/Slice0.lean ====
section
/-! SUPPORT. Slice0: witnesses for the statements, terms that the checks refuse, and values that the spec works out. -/
namespace Sys2Proof.Tests

open Sys2Proof Sys2Proof.Machine

set_option maxRecDepth 100000
set_option Elab.async false

/-! ### A valid image: the smallest that R89 takes, its check values left as the CRCs that they are -/

/-- Its four sections: IDENT, ACQ, POINTS and NET. -/
def body : Memory := [
  (260, 255), (261, 255), (262, 255), (263, 4), (1480, 80), (1482, 128), (20121, 31), (20122, 126), (20123, 31),
  (20125, 3), (20126, 10), (20127, 3), (20129, 12), (20131, 128), (20145, 1), (20148, 10), (20149, 3), (20150, 25),
  (20152, 128), (20154, 10)]

def lo (n : Nat) : Byte := BitVec.ofNat 8 n
def hi (n : Nat) : Byte := BitVec.ofNat 8 (n / 256)

/-- Check values, which the kernel need not compute. -/
opaque bodyCrc (off len : Nat) : { n : Nat // n = crc16 (memBytes body off len) } := ⟨_, rfl⟩
opaque wordCrc (l : List Byte) : { w : Word // w = crc32 l } := ⟨_, rfl⟩

/-- Its header up to the header CRC, the table's entry of ACQ first. -/
def front : Memory := [
  (48, 1), (60, 2), (64, 8), (65, 1), (66, 0), (67, 0), (68, 192), (69, 4), (70, 0), (71, 0), (0, 67), (1, 86), (2,
  82), (3, 78), (5, 1), (7, 1), (8, 5), (12, 216), (13, 79), (19, 4), (49, 1), (50, lo   (bodyCrc 256 8)), (51, hi
  (bodyCrc 256 8).val), (53, 1), (56, 8), (61, 1), (62, lo (bodyCrc 264 1216).val), (63, hi   (bodyCrc 264 1216)),
  (72, 3), (73, 1), (74, lo (bodyCrc 1480 18640).val), (75, hi   (bodyCrc 1480 18640)), (76, 200), (77, 5), (80, 208),
  (81, 72), (84, 6), (85, 1), (86, lo (bodyCrc 20120 320).val), (87, hi (bodyCrc 20120 320).val), (88, 152), (89, 78), (92, 64), (93, 1)]

def wordAt (a : Nat) (w : Word) : Memory :=
  [(a, lo w.toNat), (a + 1, hi w.toNat), (a + 2, lo (w.toNat / 65536)), (a + 3, hi (w.toNat / 65536))]

def headed : Memory := front ++ wordAt 248 (wordCrc (memBytes front 0 248)).val

def good : Memory :=
  headed ++ (wordAt 252 (wordCrc (memBytes headed 0 252 ++ List.replicate 4 0 ++ memBytes body 256 20184)).val ++ body)

theorem memGet_append (a b : Memory) (i : Nat) (h : ∀ p ∈ b, p.1 ≠ i) : memGet (a ++ b) i = memGet a i := by
  unfold memGet
  induction a with
  | nil => exact tblGet_none _ _ _ h
  | cons p l ih => obtain ⟨j, v⟩ := p; simp only [List.cons_append, tblGet, ih]

theorem memGet_append_right (a b : Memory) (i : Nat) (h : ∀ p ∈ a, p.1 ≠ i) : memGet (a ++ b) i = memGet b i := by
  unfold memGet
  induction a with
  | nil => rfl
  | cons p l ih =>
    obtain ⟨j, v⟩ := p
    simp only [List.cons_append, tblGet]
    rw [if_neg (h (j, v) (by simp)), ih fun q hq => h q (by simp [hq])]

theorem memBytes_congr (m k : Memory) (a n : Nat) (h : ∀ i < n, memGet m (a + i) = memGet k (a + i)) :
    memBytes m a n = memBytes k a n :=
  List.map_congr_left fun i hi => h i (List.mem_range.1 hi)

theorem crc16Byte_lt (c : Nat) (b : Byte) : crc16Byte c b < 65536 := by
  unfold crc16Byte
  simp only [List.range, List.range.loop, List.foldl_cons, List.foldl_nil]
  exact Nat.mod_lt _ (by decide)

theorem crc16_lt (l : List Byte) : crc16 l < 65536 := by
  unfold crc16
  rw [← List.foldr_reverse]
  cases l.reverse with
  | nil => decide
  | cons b t => exact crc16Byte_lt _ _

theorem keys (l : Memory) (a b : Nat) (h : l.all (fun p => decide (a ≤ p.1) && decide (p.1 < b)) = true) :
    ∀ p ∈ l, a ≤ p.1 ∧ p.1 < b := by
  intro p hp
  simpa using List.all_eq_true.1 h p hp

theorem half_back (n : Nat) (h : n < 65536) : (lo n).toNat + 256 * (hi n).toNat = n := by
  simp only [lo, hi, BitVec.toNat_ofNat]; omega

theorem word_back (w : Word) : (lo w.toNat).toNat + 256 * ((hi w.toNat).toNat + 256 * ((lo (w.toNat / 65536)).toNat +
    256 * (hi (w.toNat / 65536)).toNat)) = w.toNat := by
  have := w.isLt
  simp only [lo, hi, BitVec.toNat_ofNat]; omega

theorem headed_keys : ∀ p ∈ headed, 0 ≤ p.1 ∧ p.1 < 252 := keys _ _ _ (by decide +kernel)
theorem front_keys : ∀ p ∈ front, 0 ≤ p.1 ∧ p.1 < 248 := keys _ _ _ (by decide +kernel)
theorem body_keys : ∀ p ∈ body, 256 ≤ p.1 ∧ p.1 < 20440 := keys _ _ _ (by decide +kernel)

theorem good_low (i : Nat) (h : i < 252) : memGet good i = memGet headed i := by
  refine memGet_append _ _ _ fun p hp => ?_
  rcases List.mem_append.1 hp with hp | hp
  · simp only [wordAt, List.mem_cons, List.not_mem_nil, or_false] at hp
    rcases hp with rfl | rfl | rfl | rfl <;> simp <;> omega
  · have := body_keys p hp; omega

theorem good_high (i : Nat) (h : 256 ≤ i) : memGet good i = memGet body i := by
  unfold good
  rw [memGet_append_right _ _ _ fun p hp => by have := headed_keys p hp; omega]
  refine memGet_append_right _ _ _ fun p hp => ?_
  simp only [wordAt, List.mem_cons, List.not_mem_nil, or_false] at hp
  rcases hp with rfl | rfl | rfl | rfl <;> simp <;> omega

theorem headed_low (i : Nat) (h : i < 248) : memGet headed i = memGet front i := by
  refine memGet_append _ _ _ fun p hp => ?_
  simp only [wordAt, List.mem_cons, List.not_mem_nil, or_false] at hp
  rcases hp with rfl | rfl | rfl | rfl <;> simp <;> omega


/-- Four bytes that a word's bytes fill. -/
theorem word_read (m : Memory) (a : Nat) (w : Word) (h : ∀ i, a ≤ i → i < a + 4 → memGet m i = memGet (wordAt a w) i) :
    BitVec.ofNat 32 (memNat m a 4) = w := by
  have k := word_back w
  simp only [memNat, h a (by omega) (by omega), h (a + 1) (by omega) (by omega), h (a + 1 + 1) (by omega) (by omega),
    h (a + 1 + 1 + 1) (by omega) (by omega)]
  rw [show memGet (wordAt a w) a = lo w.toNat by simp [memGet, wordAt, tblGet],
    show memGet (wordAt a w) (a + 1) = hi w.toNat by simp [memGet, wordAt, tblGet],
    show memGet (wordAt a w) (a + 1 + 1) = lo (w.toNat / 65536) by simp [memGet, wordAt, tblGet]; omega,
    show memGet (wordAt a w) (a + 1 + 1 + 1) = hi (w.toNat / 65536) by simp [memGet, wordAt, tblGet]; omega]
  simp only [Nat.mul_zero, Nat.add_zero, k, BitVec.ofNat_toNat, BitVec.setWidth_eq]

theorem good_head : BitVec.ofNat 32 (memNat good 248 4) = crc32 (memBytes good 0 248) := by
  have a : memBytes good 0 248 = memBytes front 0 248 := memBytes_congr _ _ _ _ fun i h => by
    rw [good_low _ (by omega), headed_low _ (by omega)]
  rw [a, ← (wordCrc (memBytes front 0 248)).2]
  refine word_read _ _ _ fun i h k => ?_
  rw [good_low _ k]
  exact memGet_append_right _ _ _ fun p hp => by have := front_keys p hp; omega

theorem good_length : imgLength good = 20440 := by decide +kernel

theorem good_crc : imgCrc good = crc32 (crcBytes good) := by
  have a : memBytes good 0 252 = memBytes headed 0 252 := memBytes_congr _ _ _ _ fun i h => good_low _ (by omega)
  have b : memBytes good 256 20184 = memBytes body 256 20184 := memBytes_congr _ _ _ _ fun i h => good_high _ (by omega)
  rw [crcBytes, good_length, a, b, ← (wordCrc _).2]
  refine word_read _ _ _ fun i h k => ?_
  unfold good
  rw [memGet_append_right _ _ _ fun p hp => by have := headed_keys p hp; omega]
  exact memGet_append _ _ _ fun p hp => by have := body_keys p hp; omega

theorem sec_crc (a off len : Nat) (h : 256 ≤ off) (e : memGet good a = lo (bodyCrc off len).val)
    (f : memGet good (a + 1) = hi (bodyCrc off len).val) : memNat good a 2 = crc16 (memBytes good off len) := by
  have b : memBytes good off len = memBytes body off len := memBytes_congr _ _ _ _ fun i _ => good_high _ (by omega)
  have c := half_back (bodyCrc off len).val (by rw [(bodyCrc off len).2]; exact crc16_lt _)
  simp only [memNat, e, f, Nat.mul_zero, Nat.add_zero, c]
  rw [b, (bodyCrc off len).2]

theorem good_entries : secEntries good = [secEntry good 0, secEntry good 1, secEntry good 2, secEntry good 3] := by
  rw [secEntries, show imgCount good = 4 by decide +kernel]; rfl

theorem good_ids : (secEntry good 0).id = 1 ∧ (secEntry good 1).id = 2 ∧ (secEntry good 2).id = 3 ∧ (secEntry good 3).id = 6 := by
  decide +kernel

theorem good_identOk : identOk good = true := by decide +kernel

/-- A run of a section in which the image's body holds nothing reads 0. -/
theorem run_zero (id o l off n : Nat) (e : sectionOffset good id = some (o, l)) (h : 256 ≤ o + off)
    (k : ∀ p ∈ body, p.1 < o + off ∨ o + off + n ≤ p.1) : bankNat good id off n = 0 := by
  have z : ∀ i, o + off ≤ i → i < o + off + n → memGet good i = 0 := fun i h k' => by
    rw [good_high _ (by omega)]
    exact tblGet_none _ _ _ fun p hp => by have := k p hp; omega
  rw [bankNat, e]
  show memNat good (o + off) n = 0
  clear e k
  generalize o + off = a at h z
  induction n generalizing a with
  | zero => rfl
  | succ n ih => rw [memNat, z _ (by omega) (by omega), ih (a + 1) (by omega) fun i p q => z i (by omega) (by omega)]; rfl

theorem good_acq : sectionOffset good secACQ = some (264, 1216) := by decide +kernel
theorem acq_keys : body.all (fun p => decide (p.1 < 264) || decide (1480 ≤ p.1)) = true := by decide +kernel

/-- The ACQ section is all 0. -/
theorem acq_zero (off n : Nat) (k : off + n ≤ 1216) : bankNat good secACQ off n = 0 :=
  run_zero _ _ _ _ _ good_acq (by omega) fun p hp => by
    have := List.all_eq_true.1 acq_keys p hp
    simp at this; omega

theorem good_unused : bankNat good secIDENT 4 2 = 65535 ∧ bankNat good secIDENT 6 1 = 255 := by decide +kernel

theorem slots_unused (n : Nat) (h : n < 40) : slotUnused good n = true := by
  unfold slotUnused
  rw [good_unused.1, good_unused.2]
  have : ∀ m : Fin 40, (if m.val < 16 then (65535).testBit m.val
    else if m.val < 20 then (255).testBit (m.val - 16)
    else if m.val < 36 then (255).testBit (4 + (m.val - 20) / 8)
    else if m.val < 40 then (255).testBit (6 + (m.val - 36) / 2) else false) = true := by decide +kernel
  exact this ⟨n, h⟩

theorem acq_secZero (off n : Nat) (k : off + n ≤ 1216) : secZero good secACQ off n = true := by
  rw [secZero, List.all_eq_true]
  intro i hi
  have := List.mem_range.1 hi
  rw [acq_zero _ _ (by omega)]; rfl

theorem good_acqOk : acqOk good = true := by
  have d : ∀ c : Nat, c < 16 → dioBankCfg good c = Vector.replicate 4 0 := fun c h => by
    unfold dioBankCfg
    refine Vector.ext fun i hi => ?_
    simp only [Vector.getElem_ofFn, Vector.getElem_replicate, acq_zero (640 + 32 * c + 4 * i) 4 (by omega)]; rfl
  have m : (List.range 16).map (dioBankCfg good) = List.replicate 16 (Vector.replicate 4 0) := by
    refine List.eq_replicate_iff.2 ⟨by simp, fun b hb => ?_⟩
    obtain ⟨c, hc, rfl⟩ := List.mem_map.1 hb
    exact d c (List.mem_range.1 hc)
  unfold acqOk uiBankOk aoBankOk dioBankOk psBankOk
  rw [m, good_unused.1]
  simp only [Bool.and_eq_true, List.all_eq_true, List.mem_range]
  refine ⟨⟨⟨fun c h => ⟨?_, ?_⟩, fun c h => ?_⟩, fun c h => ?_, by decide +kernel⟩, fun c h => ?_⟩
  · rw [acq_zero _ _ (by omega)]; rfl
  · have : ∀ c : Fin 16, (65535).testBit c.val = true := by decide
    rw [if_pos (this ⟨c, h⟩), acq_zero _ _ (by omega)]; rfl
  · rw [if_pos (slots_unused _ (by omega))]; exact acq_secZero _ _ (by omega)
  · rw [if_pos (slots_unused _ (by omega))]; exact acq_secZero _ _ (by omega)
  · rw [if_pos (slots_unused _ (by omega)), List.all_eq_true]
    intro i hi
    have := List.mem_range.1 hi
    rw [acq_zero _ _ (by omega)]; rfl

theorem good_points : sectionOffset good secPOINTS = some (1480, 18640) := by decide +kernel
theorem points_keys : body.all (fun p => decide (p.1 < 1484) || decide (20120 ≤ p.1)) = true := by decide +kernel

/-- Behind its first four bytes the POINTS section holds nothing. -/
theorem points_zero (off n : Nat) (h : 4 ≤ off) (k : off + n ≤ 18640) : bankNat good secPOINTS off n = 0 :=
  run_zero _ _ _ _ _ good_points (by omega) fun p hp => by
    have := List.all_eq_true.1 points_keys p hp
    simp at this; omega

theorem points_secZero (off n : Nat) (h : 4 ≤ off) (k : off + n ≤ 18640) : secZero good secPOINTS off n = true := by
  rw [secZero, List.all_eq_true]
  intro i hi
  have := List.mem_range.1 hi
  rw [points_zero _ _ (by omega) (by omega)]; rfl

theorem points_kind (n : Nat) : slotKind good n = 0 := by
  unfold slotKind bankPt
  split
  · exact points_zero _ _ (by omega) (by omega)
  · rfl

theorem good_pointsOk : pointsOk good = true := by
  have u : (List.range 80).flatMap (termsUsed good) = [] := by simp [termsUsed, points_kind]
  have a : bankNat good secPOINTS 0 2 = 80 ∧ bankNat good secPOINTS 2 2 = 128 := by decide +kernel
  unfold pointsOk
  rw [u, a.1, a.2, points_secZero _ _ (by omega) (by omega)]
  simp only [points_kind, if_true, Bool.and_eq_true, List.all_eq_true, List.mem_range, dioSrcOk, distinct, Bool.or_eq_true,
    beq_self_eq_true, true_and]
  refine ⟨⟨⟨⟨⟨fun n h => points_secZero _ _ (by omega) (by omega), trivial⟩, fun k h => ?_⟩, fun k h => ?_⟩, fun i h => ⟨?_, Or.inr
    (points_secZero _ _ (by omega) (by omega))⟩⟩, ?_⟩
  · unfold setOk imgSetMin imgSetN
    simp only [points_zero (10256 + 16 * (k + 1 - 1) + 0) 1 (by omega) (by omega), if_true]
    exact points_secZero _ _ (by omega) (by omega)
  · unfold tabOk imgTabN
    simp only [points_zero (10384 + 260 * (k + 1 - 1) + 0) 1 (by omega) (by omega), if_true]
    exact points_secZero _ _ (by omega) (by omega)
  · unfold termOk bankTerm
    simp only [points_zero (14544 + 8 * i + 2) 1 (by omega) (by omega), points_zero (14544 + 8 * i + 3) 1 (by omega) (by omega),
      points_zero (14544 + 8 * i + 4) 4 (by omega) (by omega)]
    decide
  · have d : (List.range 16).all (fun c => fld (dioBankCfg good c)[0] 4 2 != 1) = true := by decide +kernel
    intro c h
    exact Or.inl (by simpa using List.all_eq_true.1 d c (by simpa using h))

theorem good_netOk : netOk good = true := by decide +kernel

theorem good_rest :
    (List.range 4).all (fun i => (secEntry good i).ver == 1 && !secLenBad good (secEntry good i) &&
      !secExcluded good (secEntry good i).id) = true ∧
    (secEntry good 0).off = 256 ∧ (secEntry good 0).len = 8 ∧ (secEntry good 1).off = 264 ∧ (secEntry good 1).len = 1216 ∧
    (secEntry good 2).off = 1480 ∧ (secEntry good 2).len = 18640 ∧ (secEntry good 3).off = 20120 ∧
    (secEntry good 3).len = 320 := by decide +kernel

theorem good_others : bit (imgFlags good) 1 = false ∧ bankHas good secPANEL = false ∧
    (bankNat good secIDENT 7 1).testBit 2 = true := by decide +kernel

theorem good_table : tableErr good [] (secEntries good) = none ∧ unusedErr good = none ∧ lengthBad good = false := by
  decide +kernel

/-- The image is valid: every check of R89 passes. -/
theorem good_valid : imageErr good = none := by
  have h1 : headerBad good = false := by
    have e : memNat good 0 4 = 0x4E525643 ∧ memNat good 5 1 = 1 ∧ memNat good 6 2 = 256 ∧ imgMinor good = 0 ∧
      imgCount good = 4 ∧ imgFlags good = 0 ∧ memNat good 240 8 = 0 := by decide +kernel
    obtain ⟨a, b, c, d, e, f, g⟩ := e
    simp [headerBad, a, b, c, d, e, f, g, good_head]
  have h2 : imageCrcBad good = false := by simp [imageCrcBad, good_crc]
  obtain ⟨i0, i1, i2, i3⟩ := good_ids
  obtain ⟨al, o0, l0, o1, l1, o2, l2, o3, l3⟩ := good_rest
  obtain ⟨p, q, r⟩ := good_others
  simp only [List.all_eq_true, List.mem_range, Bool.and_eq_true, beq_iff_eq, Bool.not_eq_true'] at al
  have c0 : (secEntry good 0).crc = crc16 (memBytes good 256 8) := sec_crc 50 256 8 (by omega) rfl rfl
  have c1 : (secEntry good 1).crc = crc16 (memBytes good 264 1216) := sec_crc 62 264 1216 (by omega) rfl rfl
  have c2 : (secEntry good 2).crc = crc16 (memBytes good 1480 18640) := sec_crc 74 1480 18640 (by omega) rfl rfl
  have c3 : (secEntry good 3).crc = crc16 (memBytes good 20120 320) := sec_crc 86 20120 320 (by omega) rfl rfl
  have h3 : secFirstFail good = none := by
    rw [secFirstFail, List.find?_eq_none]
    intro id _
    rw [secFails, good_entries]
    by_cases e0 : id = 1
    · subst e0
      have := al 0 (by omega)
      simp [List.find?, i0, c0, o0, l0, this.1.1, this.1.2, i0 ▸ this.2, secKnown, secContentOk, good_identOk]
    by_cases e1 : id = 2
    · subst e1
      have := al 1 (by omega)
      simp [List.find?, i0, i1, c1, o1, l1, this.1.1, this.1.2, i1 ▸ this.2, secKnown, secContentOk, good_acqOk]
    by_cases e2 : id = 3
    · subst e2
      have := al 2 (by omega)
      simp [List.find?, i0, i1, i2, c2, o2, l2, this.1.1, this.1.2, i2 ▸ this.2, secKnown, secContentOk, good_pointsOk]
    by_cases e3 : id = 6
    · subst e3
      have := al 3 (by omega)
      simp [List.find?, i0, i1, i2, i3, c3, o3, l3, this.1.1, this.1.2, i3 ▸ this.2, secKnown, secContentOk, good_netOk]
    · have : ∀ k : Nat, id ≠ k → (k == id) = false := fun k h => by simp [Ne.symm h]
      have n : ∀ k : Nat, id ≠ k → (id == k) = false := fun k h => by simp [h]
      simp only [List.find?, i0, i1, i2, i3, this _ e0, this _ e1, this _ e2, this _ e3, r]
      simp [secRequired, p, q, secIDENT, secACQ, secPOINTS, secNET, n _ e0, n _ e1, n _ e2, n _ e3]
  rw [imageErr, h1, h2, good_table.1, good_table.2.1, good_table.2.2, h3]
  rfl

/-! ### Small states -/

/-- A recipe bank with node number, flags and the bytes of some sections, which stand 64 KiB apart. -/
def bank (node flags : Nat) (secs : List (Nat × Memory)) : Memory :=
  (secs.mapIdx fun i p => [(48 + 12 * i, BitVec.ofNat 8 p.1), (54 + 12 * i, BitVec.ofNat 8 (i + 1))]).flatten ++
  [(16, BitVec.ofNat 8 node), (17, BitVec.ofNat 8 (node / 256)), (18, BitVec.ofNat 8 flags)] ++
  (secs.mapIdx fun i p => p.2.map fun b => (65536 * (i + 1) + b.1, b.2)).flatten

/-- A module in service on a bank, every region ready. -/
def run (b : Memory) : State :=
  { State.reset with
    sup := { powerGood := true }
    sys := { regions := Vector.replicate 5 { st := .ready }, mode := .inService, step := 12, power := .run, outEn := true }
    rcp := { recipes := #v[{ bank := b, st := .active }, {}], loaded := true }
    pev := { running := true }
    imz := { joined := true } }

/-- An unpaired node of the network. -/
def node : State := run (bank 5 0 [])

def State.sysOf (s : State) (f : Sys → Sys) : State := { s with sys := f s.sys }
def State.lvnOf (s : State) (f : Lvn → Lvn) : State := { s with lvn := f s.lvn }
def State.supOf (s : State) (f : Supply → Supply) : State := { s with sup := f s.sup }
def State.rcpOf (s : State) (f : Rcp → Rcp) : State := { s with rcp := f s.rcp }

/-- Two feeds in given conditions. -/
def fed (a b : FeedCond) (pf : Bool) : State :=
  State.supOf node fun u => { u with feeds := #v[{ cond := a }, { cond := b }], pfail := pf }

/-- A module during its start, at a step. -/
def starting (n : Nat) : State := State.sysOf node fun y => { y with mode := .starting, step := n, power := .start }

/-- A module in BARE. -/
def bare : State := State.sysOf node fun y => { y with mode := .bare }

/-- A module in the safe state. -/
def safe (flags : Byte) : State := State.sysOf (run (bank 5 0 [(1, [(1, flags)])])) fun y => { y with mode := .safe, power := .safe }

/-- A module in DOZE. -/
def doze : State := State.sysOf node fun y => { y with power := .doze, dozeEn := true }

/-- A unit of a pair in a state, its link up, its partner in another. -/
def unit (st p : PairState) : State :=
  State.lvnOf (run (bank 5 2 [])) fun v => { v with st := st, pState := p, lanes := #v[true, true], trained := true, synced := true }

/-! ### Witnesses: states and operands that meet the hypotheses of the statements, clause by clause -/

theorem witness_FeedConditionsAreReported :
    (fed .inRange .inRange false).powered = true ∧
    (fed .inRange .inRange false).sup.holdoff[quantityIndex (feedQuantity 0)].running = false ∧
    (1799#16).toNat < 1800 ∧ (fed .inRange .inRange false).sup.feeds[0].cond = .inRange ∧
    (1499#16).toNat < 1500 ∧ (fed .inRange .inRange false).sup.feeds[0].cond ≠ .lost ∧
    (fed .inRange .inRange false).sup.feeds[1 - 0].cond ≠ .lost ∧
    (fed .inRange .lost false).sup.feeds[0].cond ≠ .lost ∧ (fed .inRange .lost false).sup.feeds[1 - 0].cond = .lost ∧
    (fed .inRange .lost false).sup.pfail = false ∧
    1650 < (1651#16).toNat ∧ (fed .lost .inRange false).sup.feeds[0].cond = .lost ∧ (fed .lost .inRange false).sup.pfail = false ∧
    (fed .lost .lost true).sup.feeds[0].cond = .lost ∧ (fed .lost .lost true).sup.pfail = true ∧
    (fed .lost .lost true).sys.mode ≠ .lastBreath ∧
    3250 < (3251#16).toNat ∧ (fed .low .inRange false).sup.feeds[0].cond = .low ∧ 1850 < (1851#16).toNat ∧
    (fed .high .inRange false).sup.feeds[0].cond = .high ∧ (3199#16).toNat < 3200 := by decide +kernel

def charging : State := State.supOf node fun u => { u with charging := true }
def ranOut : State := State.supOf node fun u => { u with hold := .fault }
def clocked : State := State.sysOf node fun y => { y with onRc := false }
def heldOff (last : Nat) : State :=
  State.supOf node fun u => { u with holdoff := u.holdoff.set 3 { running := true, last := last } }

theorem witness_SupplyMonitorFollowsTheHoldUpAndTheClocks :
    charging.powered = true ∧ charging.sup.charging = true ∧
    (State.supOf bare fun u => { u with charging := true }).bare = true ∧ charging.bare = false ∧
    (State.rcpOf charging fun c => { c with loaded := false }).rcp.loaded = false ∧ charging.rcp.loaded = true ∧
    charging.identFlag 3 = false ∧ (State.supOf (safe 8) fun u => { u with charging := true }).identFlag 3 = true ∧
    (State.supOf (safe 8) fun u => { u with charging := true }).bare = false ∧
    ranOut.powered = true ∧ ranOut.sup.hold = .fault ∧ ranOut.sup.charging = false ∧
    clocked.powered = true ∧ clocked.sys.onRc = false ∧ clocked.sys.xtalFail = false ∧ clocked.tim.st ≠ .locked ∧
    (-32767 : Int).natAbs ≤ 32767 ∧ 50000 < (-50001 : Int).natAbs ∧
    node.sup.temp = .normal ∧ node.sup.plateOver = false ∧ node.sup.dieOver = false ∧ node.sup.holdoff[2].running = false ∧
    -400 < ((-399 : BitVec 16)).toInt ∧ (1049#16).toInt < 1050 ∧ (1399#16).toInt < 1400 ∧ (1099#16).toInt < 1100 ∧
    1200 ≤ (1200#16).toInt ∧
    (heldOff 0x112).powered = true ∧ (heldOff 0x112).sup.holdoff[quantityIndex .group1].running = true ∧
    quantityCode (heldOff (quantityCode node .group1)) .group1 =
      (heldOff (quantityCode node .group1)).sup.holdoff[quantityIndex .group1].last ∧
    quantityCode (heldOff 0) .group1 ≠ (heldOff 0).sup.holdoff[quantityIndex .group1].last ∧
    quantityUnused (heldOff 0) .group1 = false ∧
    quantityUnused (run (bank 5 0 [(1, [(6, 0x10)])])) .group1 = true := by decide +kernel

def resetHeld : State := State.sysOf node fun y => { y with inp := { y.inp with resetn := false } }
def boundary : State := { safe 0 with tst := { jtag := 3 } }
def restarted (n : Nat) : State := State.sysOf (safe 1) fun y => { y with restarts := List.replicate n 0 }

theorem witness_StartsAndEndsOfARun :
    State.reset.sup.powerGood = false ∧ State.reset.sys.inp.resetn = true ∧ node.sup.powerGood = true ∧
    node.sys.inp.resetn = true ∧ jtagHolds node = false ∧ boundary.sys.inp.resetn = true ∧ jtagHolds boundary = true ∧
    resetHeld.sys.inp.resetn = false ∧ jtagHolds resetHeld = false ∧ resetHeld.sup.powerGood = true ∧
    resetHeld.sys.testHold = false ∧ true ≠ node.sys.inp.role ∧ node.powered = true ∧
    (restarted 2).powered = true ∧ (restarted 2).sys.mode = .safe ∧ (restarted 2).identFlag 0 = true ∧
    jtagTakes (restarted 2).tst.jtag = false ∧
    (recent (sec 3600) (restarted 2).mono (restarted 2).sys.restarts).length < 3 ∧
    3 ≤ (recent (sec 3600) (restarted 3).mono (restarted 3).sys.restarts).length ∧ (restarted 3).identFlag 0 = true := by
  decide +kernel

def breathing : State :=
  State.supOf (State.sysOf node fun y => { y with mode := .lastBreath, power := .lastBreath }) fun u =>
    { u with pfail := true, breathFeed := true }

theorem witness_LastBreathEndsInSleepAndRestarts :
    (fed .lost .lost true).powered = true ∧ (fed .lost .lost true).sup.pfail = true ∧ (1299#16).toNat < 1300 ∧
    (fed .lost .lost true).sys.mode ≠ .lastBreath ∧
    breathing.powered = true ∧ breathing.sys.mode = .lastBreath ∧ breathing.sup.breathFeed = true := by decide +kernel

/-- KEP and FCE powered down in DOZE. -/
def dozing : State :=
  State.sysOf doze fun y => { y with regions := #v[{ st := .ready }, { st := .ready }, { st := .ready }, { st := .down, dozing := true }, { st := .down, dozing := true }] }
/-- A recipe with one point in ALARM_UNACK that permits DORMANT. -/
def alarmed : State :=
  let s := run (bank 5 0 [(1, [(1, 2)]), (3, [(36, 1)])])
  { s with pev := { s.pev with pts := s.pev.pts.set 0 { flags := 6 } } }
def asleep : State :=
  State.sysOf node fun y => { y with power := .dormant, watch := y.watch.set 0 0x00008014 }

/-- A router without pending sources has nothing to write. -/
theorem no_source (h : Fin 2) : nextSource {} h = none := by
  have e : ∀ n, eligible {} h n = false := fun n => by simp [eligible]
  simp only [nextSource, e]
  generalize List.finRange 512 = l
  induction l with
  | nil => rfl
  | cons a l ih => simpa using ih

theorem doze_idle : fceBusy doze = false := by
  have e : doze.evr = {} := rfl
  rw [fceBusy, e, no_source, no_source]
  decide +kernel

theorem witness_DozeAndDormantPowerTheRegions :
    node.sys.power = .run ∧ node.sys.mode = .inService ∧ doze.sys.power = .doze ∧ regionUp rKEP doze = true ∧
    kepBusy doze = false ∧ regionUp rFCE doze = true ∧ dozing.sys.power = .doze ∧
    (dozing.sys.regions[rKEP]).dozing = true ∧ (dozing.sys.regions[rKEP]).hold = false ∧
    (dozing.sys.regions[rFCE]).dozing = true ∧ (dozing.sys.regions[rFCE]).hold = false ∧
    node.identFlag 1 = false ∧
    (run (bank 5 1 [(1, [(1, 2)])])).identFlag 1 = true ∧ (run (bank 5 1 [(1, [(1, 2)])])).isManager = true ∧
    (State.lvnOf (run (bank 5 2 [(1, [(1, 2)])])) fun v => { v with st := .active }).identFlag 1 = true ∧
    (State.lvnOf (run (bank 5 2 [(1, [(1, 2)])])) fun v => { v with st := .active }).isManager = false ∧
    (State.lvnOf (run (bank 5 2 [(1, [(1, 2)])])) fun v => { v with st := .active }).isPaired = true ∧
    (State.lvnOf (run (bank 5 2 [(1, [(1, 2)])])) fun v => { v with st := .active }).activeUnit = true ∧
    alarmed.identFlag 1 = true ∧ alarmed.isManager = false ∧ alarmed.isPaired = false ∧ alarmHeld alarmed = true ∧
    (run (bank 5 0 [(1, [(1, 2)])])).identFlag 1 = true ∧ alarmHeld (run (bank 5 0 [(1, [(1, 2)])])) = false ∧
    (State.sysOf node fun y => { y with dormantReq := true }).sys.dormantReq = true ∧
    asleep.sys.power = .dormant ∧ watchable 20 = true ∧ watched asleep 20 = true ∧ watched asleep 21 = false := by
  decide +kernel

def failing (n : Nat) : State := State.rcpOf (starting 2) fun c => { c with mmcFails := n }
/-- Recipe A holds the valid image, recipe B nothing, at a step of the start. -/
def imaged (n : Nat) : State := State.rcpOf (starting n) fun c => { c with recipes := #v[{ part := good }, {}], loaded := false }
/-- The shadow's partition holds an image and is to be checked. -/
def shadowed (m : Memory) : State :=
  State.rcpOf node fun c => { c with recipes := c.recipes.set 1 { part := m, st := .verifying } }
/-- A unit whose partner sends its image. -/
def updated (m : Memory) : State :=
  State.rcpOf (unit .updating .active) fun c => { c with recipes := c.recipes.set 1 { part := m, st := .writing } }

theorem not_image (m : Memory) (h : headerBad m = true) : imageErr m ≠ none := by simp [imageErr, h]

theorem good_header : headerBad good = false := by
  cases h : headerBad good with
  | false => rfl
  | true => have := good_valid; simp [imageErr, h] at this

theorem good_candidate : (headerTake { part := good }).candidate = true := by
  have h : hasHeader good = true := by decide +kernel
  unfold headerTake
  rw [show (({ part := good } : Recipe).part) = good from rfl, h, good_header, good_table.2.2]
  rfl

theorem witness_StartReadsTheRecipes :
    (17 ≤ (17#8).toNat ∧ mmcAwaited (failing 0) = true ∧ (failing 0).rcp.mmcFails = 0 ∧ mmcAwaited (failing 1) = true ∧
      0 < (failing 1).rcp.mmcFails ∧ mmcAwaited (failing 2) = true ∧ 2 ≤ (failing 2).rcp.mmcFails) ∧
    ((starting 3).powered = true ∧ (starting 3).sys.mode = .starting ∧ (starting 3).sys.step = 3 ∧
      (starting 3).rcp.recipes.toList.all (fun r => !(headerTake r).candidate) = true) ∧
    ((imaged 3).powered = true ∧ (imaged 3).sys.mode = .starting ∧ (imaged 3).sys.step = 3 ∧
      (headerTake (imaged 3).rcp.recipes[0]).candidate = true ∧ (headerTake (imaged 3).rcp.recipes[1]).candidate = false) ∧
    ((imaged 5).powered = true ∧ (imaged 5).sys.mode = .starting ∧ (imaged 5).sys.step = 5 ∧
      imageErr (imaged 5).rcp.recipes[(imaged 5).rcp.active].part = none) ∧
    ((starting 5).sys.step = 5 ∧ imageErr (starting 5).rcp.recipes[(starting 5).rcp.active].part ≠ none ∧ ((starting 5).rcp.recipes[1 - (starting 5).rcp.active]).candidate = false) ∧
    ((shadowed good).rcp.loaded = true ∧ ((shadowed good).rcp.recipes[1 - (shadowed good).rcp.active]).st = .verifying ∧
      (shadowed good).rcp.verifying = false ∧ hasHeader (shadowed good).rcp.recipes[1 - (shadowed good).rcp.active].part = true ∧
      imageErr (shadowed good).rcp.recipes[1 - (shadowed good).rcp.active].part = none) ∧
    (((shadowed [(0, 1)]).rcp.recipes[1 - (shadowed [(0, 1)]).rcp.active]).st = .verifying ∧
      hasHeader (shadowed [(0, 1)]).rcp.recipes[1 - (shadowed [(0, 1)]).rcp.active].part = true ∧
      imageErr (shadowed [(0, 1)]).rcp.recipes[1 - (shadowed [(0, 1)]).rcp.active].part ≠ none) := by
  refine ⟨by decide +kernel, by decide +kernel, ⟨by decide +kernel, by decide +kernel, by decide +kernel, good_candidate, by decide +kernel⟩,
    ⟨by decide +kernel, by decide +kernel, by decide +kernel, good_valid⟩, ⟨by decide +kernel, not_image _ (by decide +kernel), by decide +kernel⟩,
    ⟨by decide +kernel, by decide +kernel, by decide +kernel, by decide +kernel, good_valid⟩,
    by decide +kernel, by decide +kernel, not_image _ (by decide +kernel)⟩

def recorded (f : Bool) : State := State.rcpOf node fun c => { c with cfgPend := true, cfgFailed := f }
def found (b : Bool) : State := State.rcpOf bare fun c => { c with bareFound := b }

theorem witness_BareSearchesAndClaims :
    ((found false).bare = true ∧ (found false).rcp.bareFound = false ∧ (found true).bare = true ∧
      (found true).rcp.bareFound = true ∧ (recorded false).rcp.cfgPend = true ∧ (recorded false).rcp.cfgFailed = false ∧
      (recorded true).rcp.cfgPend = true ∧ (recorded true).rcp.cfgFailed = true) ∧
    ((updated good).powered = true ∧ (updated good).lvn.st = .updating ∧ (updated good).lvn.imageKind = 0 ∧
      ((updated good).rcp.recipes[imageTarget (updated good)]).st = .writing ∧
      imageErr (updated good).rcp.recipes[imageTarget (updated good)].part = none) := by
  refine ⟨by decide +kernel, by decide +kernel, by decide +kernel, by decide +kernel, by decide +kernel, good_valid⟩

def State.uiOf (s : State) (c : Fin 16) (u : Ui) : State := { s with ui := s.ui.set c u }
def State.aoOf (s : State) (c : Fin 4) (a : Ao) : State := { s with ao := s.ao.set c a }
def State.dioOf (s : State) (c : Fin 16) (d : Dio) : State := { s with dio := s.dio.set c d }

def owned (o : Option Source) (st : RcpState) : State :=
  State.rcpOf node fun c => { c with owner := o, recipes := c.recipes.set 1 { st := st } }
/-- The shadow's partition and the first block hold a good image, and it is to be verified. -/
def verified : State :=
  State.rcpOf node fun c =>
    { c with owner := some .chip, verifying := true, block0 := good, written := [0, 1, 2, 3, 4], recipes := c.recipes.set 1 { part := good, st := .verifying } }
def unverified : State := State.rcpOf verified fun c => { c with written := [0, 1, 2] }

theorem verified_image : verifyImage verified = good := rfl

theorem witness_RecipeOperationsEndWithTheirCodes :
    (rcpUp node = true ∧ node.rcp.verifying = false ∧ noMedia node = false ∧ node.standby = false ∧
      otherOwns .hostA node = false ∧ node.rcp.swapPend = false) ∧
    (rcpUp (owned (some .chip) .writing) = true ∧ (owned (some .chip) .writing).rcp.verifying = false ∧
      otherOwns .hostA (owned (some .chip) .writing) = true ∧
      (owned (some .chip) .writing).rcp.owner = some .chip ∧ (511#16).toNat ≤ 511 ∧ 511 < (512#16).toNat ∧
      (owned (some .chip) .writing).rcp.owner ≠ some .hostA ∧
      ((owned (some .chip) .writing).rcp.recipes[imageTarget (owned (some .chip) .writing)]).st = .writing) ∧
    ({ owned (some .chip) .writing with imz := { chunks := BitVec.allOnes 128 } } : State).imz.chunks = BitVec.allOnes 128 ∧
    (rcpUp (owned none .valid) = true ∧ swapRefusal true (owned none .valid) = none ∧ regionUp rALM (owned none .valid) = true ∧
      (owned none .valid).bare = false ∧ (0x5D#8) ≠ 0x5C ∧ 8 ≤ (8#8).toNat) ∧
    (rcpUp (shadowed good) = true ∧ (shadowed good).rcp.verifying = false ∧ (shadowed good).rcp.owner = none ∧
      (shadowed good).rcp.swapPend = false ∧ (shadowed good).bare = false ∧ hasHeader (shadow (shadowed good)).part = true ∧
      imageErr (shadow (shadowed good)).part = none) := by
  refine ⟨by decide +kernel, by decide +kernel, rfl, by decide +kernel, by decide +kernel, by decide +kernel,
    by decide +kernel, by decide +kernel, by decide +kernel, by decide +kernel, good_valid⟩

theorem witness_RecipeBuffersAndChecksEnd :
    (rcpUp node = true ∧ otherOwns .hostA node = false ∧ otherOwns .hostA (owned (some .chip) .writing) = true ∧
      rcpUp (owned (some .chip) .writing) = true ∧ (List.replicate 32 (0 : Byte)).length = 32 ∧
      otherOwns (.imzin 7) node = false ∧ otherOwns (.imzin 7) (owned (some .chip) .writing) = true) ∧
    (rcpUp verified = true ∧ verified.rcp.verifying = true ∧ verified.bare = false ∧ verified.isPaired = false ∧
      verifyErr verified = none) ∧
    (rcpUp unverified = true ∧ unverified.rcp.verifying = true ∧ verifyErr unverified = some (rcINCOMPLETE, 3)) ∧
    ((owned (some .chip) .writing).rcp.owner.isSome = true ∧ (owned (some .chip) .writing).rcp.verifying = false) ∧
    ((State.sysOf (run (bank 5 0 [(1, [])])) fun y => { y with reloading := [1] }).powered = true ∧
      (State.sysOf (run (bank 5 0 [(1, [])])) fun y => { y with reloading := [1] }).sys.reloading.contains (1#8).toNat = true ∧
      sectionOffset (State.sysOf (run (bank 5 0 [(1, [])])) fun y => { y with reloading := [1] }).activeBank (1#8).toNat =
        some (65536, 0)) := by
  refine ⟨by decide +kernel, ⟨by decide +kernel, by decide +kernel, by decide +kernel, by decide +kernel, ?_⟩,
    by decide +kernel, by decide +kernel, by decide +kernel⟩
  have m : missingBlock verified = none := by decide +kernel
  have q : ¬((!verified.bare) = true ∧ (imgSeq verified.rcp.block0).toNat ≤ (verified.rcp.recipes[verified.rcp.active]).seq.toNat) := by
    decide +kernel
  rw [verifyErr, m, verified_image, good_valid]
  simp only [if_neg q]

def swapping : State := State.rcpOf { node with mono := ms 1, now := ms 1 } fun c => { c with swapPend := true }
def almDown : State :=
  State.sysOf swapping fun y => { y with regions := y.regions.set 1 { st := .inReset } }

theorem witness_SwapChangesTheBanksAtABoundary :
    swapDue swapping = true ∧ swapDue node = false ∧ almDown.powered = true ∧ regionUp rALM almDown = false ∧
    almDown.rcp.swapPend = true := by decide +kernel

/-- A running universal input of a type, with wiring and a test period. -/
def uiChan (ty w : Nat) : Ui := { phase := .run, use := #v[0, 0, 0, BitVec.ofNat 32 (ty + 256 * w), 0, 0, 0] }
def uiAt (u : Ui) : State := State.uiOf node 3 u
def meas : UiMeas := { vSig := 5, vExc := 5, iExc := 5, compliance := false, overload := none, cjInt := 0, island := 0, raw := 5, txsVolt := 0, txsCurr := 0, txsLimit := false, overlap := false, fail := none }

theorem witness_UniversalInputsConvert :
    uiCode (uiAt (uiChan 16 0)) 3 = 3 ∧ meas.fail = none ∧ (uiChan 16 0).changing = false ∧ (uiChan 16 0).hold = 0 ∧
    (uiChan 16 0).settle = 0 ∧ uiCode (uiAt { uiChan 16 0 with changing := true }) 3 = 3 ∧
    uiCode (uiAt { uiChan 16 0 with hold := 2 }) 3 = 3 ∧ uiCode (uiAt { uiChan 16 0 with settle := 1 }) 3 = 3 ∧
    uiConverting (uiAt (uiChan 16 0)) 3 = true ∧ ({ meas with fail := some (true, 1) } : UiMeas).fail = some (true, 1) ∧
    ((uiAt { uiChan 16 0 with phase := .powering }).ui[(3 : Fin 16)]).phase = .powering ∧
    ((uiAt { uiChan 16 0 with phase := .calibrating }).ui[(3 : Fin 16)]).phase = .calibrating := by decide +kernel

theorem witness_UniversalInputsTestAndGuard :
    uiCode (uiAt (uiChan 6 0)) 3 = 3 ∧ isTc (uiChan 6 0).type = true ∧ uiCode (uiAt (uiChan 1 2)) 3 = 3 ∧
    isResistive (uiChan 1 2).type = true ∧ (uiChan 1 2).wire = 2 ∧
    uiCode (uiAt { uiChan 14 0 with use := #v[0, 0x100, 0, 14, 0, 0, 0] }) 3 < 4 ∧
    ({ uiChan 14 0 with use := #v[0, 0x100, 0, 14, 0, 0, 0] } : Ui).txsEnabled = true ∧
    4 ≤ uiCode (uiAt { uiChan 1 0 with phase := .listen }) 3 ∧
    uiConverting (uiAt { uiChan 1 0 with use := #v[0x100, 0, 0, 1, 0, 0, 0] }) 3 = true ∧
    fld ({ uiChan 1 0 with use := #v[0x100, 0, 0, 1, 0, 0, 0] } : Ui).use[0] 8 8 ≠ 0 ∧ (uiChan 1 0).type ≠ 0 ∧
    ({ uiChan 14 0 with txsOn := true, use := #v[0, 0x100, 0, 14, 0, 0, 0] } : Ui).rated = true ∧
    bit ({ uiChan 14 0 with dstat := 0x1000, use := #v[0, 0x1100, 0, 14, 0, 0, 0] } : Ui).dstat 12 = true ∧
    fld ({ uiChan 14 0 with use := #v[0, 0x1100, 0, 14, 0, 0, 0] } : Ui).use[1] 12 4 ≠ 0 ∧
    ({ uiChan 14 0 with use := #v[0, 0x1100, 0, 14, 0, 0, 0] } : Ui).txsEnabled = true ∧ uiMayDrive node = true ∧
    uiListens (uiAt { uiChan 14 0 with use := #v[0, 0x1100, 0, 14, 0, 0, 0] }) 3 = false ∧
    ({ uiChan 1 0 with excWait := true, phase := .listen } : Ui).excWait = true ∧ (9999999 : Int).natAbs < 10000000 := by
  decide +kernel

/-- A running loop output, its channel a sink or not. -/
def aoChan (sink : Bool) : Ao := { phase := .run, use := #v[if sink then 1 else 0, 0, 0, 0, 0] }
def aoAt (a : Ao) : State := State.aoOf node 1 a
def aoMeas : AoMeas := { curr := 4000000, term := 0, die := 0, atLimit := false, answers := true, fail := none }

theorem witness_LoopOutputsDriveTheirLevel :
    regionUp rACQ node = true ∧ aoMeas.fail = none ∧ (aoChan false).sink = false ∧ (aoChan true).sink = true ∧
    aoCode (aoAt (aoChan false)) 1 = 3 ∧ (aoChan false).retry = 0 ∧
    aoCode { aoAt (aoChan false) with aoBlk := { stop := true } } 1 = 5 ∧ aoCode (aoAt (aoChan true)) 1 = 3 ∧
    aoCode (aoAt { aoChan true with phase := .calibrating }) 1 = 2 ∧
    regionUp rACQ (State.sysOf node fun y => { y with regions := y.regions.set 0 { st := .inReset } }) = false ∧
    clkThreshold (({ aoChan true with clk := 1, curr := 90000000 } : Ao).clk - 1) + 100000 ≤ ({ aoChan true with clk := 1, curr := 90000000 } : Ao).curr ∧
    (aoChan true).phase ≠ .off ∧ (aoChan true).phase ≠ .noPower ∧
    (∀ d : Fin 4, node.aoUnused d.val = false ∧ ({ node with ao := Vector.replicate 4 (aoChan false) } : State).ao[d].phase ≠ .off) ∧
    bit ({ aoChan false with dstat := 2, use := #v[0, 0x10, 0, 0, 0] } : Ao).dstat 1 = true ∧
    ({ aoChan false with dstat := 2, use := #v[0, 0x10, 0, 0, 0] } : Ao).compAct = 1 ∧
    aoCode (aoAt { aoChan false with dstat := 2, use := #v[0, 0x10, 0, 0, 0] }) 1 = 3 ∧ bit (aoChan false).dstat 1 = false ∧
    (aoCode (aoAt { aoChan true with phase := .noPower }) 1 = 9) := by decide +kernel

/-- Loop output 1 runs; inputs 0 and 1 are its ZERO and SPAN buttons, pressed or not. -/
def buttons (a b : Bool) (x : Ao) : State :=
  State.dioOf (State.dioOf (aoAt x) 0 { running := true, use := #v[0x01200000, 0, 0, 0], level := a }) 1 { running := true, use := #v[0x01300000, 0, 0, 0], level := b }

theorem witness_LoopOutputsTrimAndTalkHart :
    trimPressed (buttons true false (aoChan false)) 1 false = true ∧ (buttons true false (aoChan false)).standby = false ∧
    aoCode (buttons true false (aoChan false)) 1 = 3 ∧ (buttons true false (aoChan false)).sys.mode ≠ .safe ∧
    trimPressed (buttons true false { aoChan false with phase := .calibrating }) 1 false = true ∧
    aoCode (buttons true false { aoChan false with phase := .calibrating }) 1 ≠ 3 ∧
    trimPressed (buttons true true { aoChan false with trimMode := some (false, 3, 4) }) 1 false = true ∧
    trimPressed (buttons true true { aoChan false with trimMode := some (false, 3, 4) }) 1 true = true ∧
    trimPressed (buttons false false { aoChan false with trimMode := some (false, 3, 4) }) 1 true = false ∧
    trimButton (buttons false false { aoChan false with trimMode := some (false, 3, 4) }) 1 true = true ∧
    trimButton node 1 true = false ∧ trimOk (3 + if true then 5 else -5) = true ∧ trimOk (500 + if true then 5 else -5) = false ∧
    trimOk (trimField 0x00050005 16) = true ∧ trimOk (trimField 0x00050005 0) = true ∧ trimOk (trimField 0x7FFF 0) = false ∧
    aoHartOff (aoAt { aoChan false with use := #v[0, 1, 0, 0, 0], txLen := 9 }) 1 = false ∧
    ({ aoChan false with use := #v[0, 1, 0, 0, 0], txLen := 9 } : Ao).clk = 0 ∧ aoHartOff (aoAt (aoChan false)) 1 = true ∧
    aoCode (aoAt { aoChan false with use := #v[0, 1, 0, 0, 0], txBusy := true }) 1 ≠ 5 ∧
    aoReceives (aoAt { aoChan false with use := #v[0, 1, 0, 0, 0] }) 1 = true ∧
    aoCode (aoAt { aoChan false with released := true, phase := .run }) 1 = 4 := by decide +kernel

def State.psOf (s : State) (c : Fin 2) (p : Ps) : State := { s with ps := s.ps.set c p }
def State.pntOf (s : State) (n : Fin 80) (p : Pnt) : State := { s with pev := { s.pev with pts := s.pev.pts.set n p } }
def supplied (s : State) : State := { s with dioBlk := { groups := #v[{ cond := .normal }, { cond := .normal }] } }
def dioAt (d : Dio) : State := supplied (State.dioOf node 2 d)
/-- A digital input, and a digital output that is on or off. -/
def dIn : Dio := { running := true }
def dOut (on : Bool) : Dio := { running := true, on := on, latch := 1, use := #v[1, 0x01100000, 0x01010000, 0] }
/-- A lamp output. -/
def lamp (on : Bool) : Dio := { dOut on with use := #v[1, 0, 0, 0x1001] }
def grouped (k : GrpCond) : State := { node with dioBlk := { groups := #v[{ cond := k }, {}] } }
def lampOff (s : State) : State := State.dioOf s 2 { lamp true with stored := (0, 0, 0, 0) }
def stopped : State :=
  { State.dioOf (dioAt (dOut false)) 3 dIn with dioBlk := { groups := #v[{ stop := true }, {}] } }
def pairUnit (st : PairState) : State := supplied (State.dioOf (unit st .active) 2 (dOut false))

theorem witness_DigitalOutputsTakeTheirLevel :
    (dOut true).output = true ∧ (dOut true).running = true ∧ (dOut true).inrushSet = false ∧
    ({ dOut true with inrush := true } : Dio).inrush = true ∧ ({ dOut true with inrush := true } : Dio).on = true ∧
    (dioWant (dioAt { dOut true with inrush := true }) 2).1 = true ∧ dioGroup 2 = 0 := by decide +kernel

theorem witness_DigitalChannelsDiagnose :
    node.powered = true ∧ regionUp rACQ (dioAt dIn) = true ∧ dioAccepts (dioAt dIn) 2 true = true ∧ dIn.func = 0 ∧
    dioEvals (dioAt { dIn with use := #v[0, 0, 0x100, 0] }) 2 = true ∧ dIn.output = false ∧
    ({ dIn with use := #v[0, 0, 0x100, 0] } : Dio).lineMon = true ∧ dioActive (dioAt dIn) 2 = true ∧
    ({ dIn with use := #v[0x00100000, 0, 0, 0] } : Dio).func = 1 ∧
    (dOut true).output = true ∧ (dOut true).on = true ∧ (dOut true).running = true ∧ dioJudged (dioAt (dOut true)) 2 = true ∧
    dioJudged (dioAt { dOut true with frozen := some true }) 2 = false ∧ (dOut true).inrush = false ∧
    (dOut true).ovlTh * 10 < 5000 ∧ bit ({ dOut true with dstat := 4 } : Dio).dstat 2 = true ∧
    dioEvals (dioAt (dOut true)) 2 = true ∧ (dOut true).ucTh ≠ 0 ∧ (dOut true).lampEn = false ∧
    dioEvals (dioAt (dOut false)) 2 = true ∧ (dOut false).on = false ∧ (dOut false).offTest = true ∧ (dioAt (dOut false)).standby = false ∧
    dioMayBackfeed (dioAt (dOut false)) 2 = true ∧ dioActive (pairUnit .standby) 2 = true ∧
    (pairUnit .standby).isPaired = true ∧ (pairUnit .standby).standby = true ∧
    dioClearable node 2 9 = false ∧ (dOut true).latch ≠ 0 ∧ ({ dOut true with tripped := true } : Dio).tripped = true ∧
    (dOut true).ovlRetry ≠ 0 ∧ (dOut true).fails < 8 ∧ ({ dOut true with retrying := true } : Dio).retrying = true := by
  decide +kernel

theorem witness_FieldSupplyGroupsAndLampsAreWatched :
    node.grpUnused 0 = false ∧ (grouped .normal).dioBlk.groups[0].cond ≠ .warn ∧ (grouped .normal).dioBlk.groups[0].cond = .normal ∧
    (grouped .normal).dioBlk.groups[0].cond.bad = false ∧ (grouped .low).dioBlk.groups[0].cond.bad = true ∧
    (grouped .low).dioBlk.groups[0].cond ≠ grpReturn 2400 ∧ (grouped .low).dioBlk.groups[0].cond.leaves (2400#16).toNat = true ∧
    (400#16).toNat ≤ 400 ∧ 400 < (401#16).toNat ∧ latestOn (dioAt (dOut true)) 0 = some 2 ∧
    ({ dOut true with shed := true } : Dio).shed = true ∧ lampWatch (dioAt (lamp true)) 2 = true ∧ (lamp true).on = true ∧
    lampWatch (dioAt (lamp false)) 2 = true ∧ (lamp false).on = false ∧ (lamp false).waiting = false ∧ (lamp false).probeInt ≠ 0 ∧
    ({ lamp true with learnOn := true, onCnt := 1600 } : Dio).onCnt = 1600 ∧
    ({ lamp false with learnProbe := true, prCnt := 64 } : Dio).prCnt = 64 ∧ (dioAt (lamp true)).standby = false ∧
    (lamp true).lampEn = true ∧ dioActive (dioAt (dOut true)) 2 = true ∧ node.isPaired = false ∧
    grpCond (dioAt (dOut true)) 0 = .normal ∧ fieldChan 3 = some 2 ∧ fieldChan 4 = some 3 ∧ fieldMayRun stopped 2 3 = true ∧
    stopped.tst.field = none ∧ dioCode { stopped with tst := { stopped.tst with field := some (2, 3) } } 3 = 3 := by decide +kernel

def pulses : Ps := { running := true, use := #v[0, 999, 0, 0] }
def psOn (p : Ps) : State := State.psOf node 1 p

theorem witness_SpeedAndPositionChannelsCount :
    psCounts (psOn pulses) 1 = true ∧ pulses.upDown = false ∧ false = pulses.inv ∧ true ≠ pulses.inv ∧
    ({ pulses with use := #v[0x00100000, 999, 0, 0] } : Ps).zMode = 1 ∧ ({ pulses with use := #v[0x00200000, 999, 0, 0] } : Ps).zMode = 2 ∧
    pulses.stands 0 = true ∧ ({ pulses with lastCnt := 5 } : Ps).stands 0 = false ∧
    fld ({ pulses with presetPos := 999 } : Ps).presetPos 0 24 < pulses.cpr ∧
    pulses.cpr ≤ fld ({ pulses with presetPos := 1000 } : Ps).presetPos 0 24 ∧ psCmpOk pulses.cpr 0x20000005 = true ∧
    psCmpOk pulses.cpr 0x30000005 = false ∧ pulses.rateAt + ms 100 ≤ ms 100 ∧
    (recent (ms 100) 0 ({ pulses with rejects := List.replicate 10 0 } : Ps).rejects).length = 10 := by decide +kernel

def pointed : State := run (bank 5 0 [(3, [(36, 1)])])
def pntAt (p : Pnt) : State := State.pntOf pointed 0 p

theorem witness_DelaysExpireForTheNextScan :
    (pntAt { stage := .onDelay }).pev.pts[(0 : Fin 80)].stage = .onDelay ∧
    (pntAt { stage := .offDelay }).pev.pts[(0 : Fin 80)].stage = .offDelay ∧
    (pntAt { relEnd := some 5 }).pev.pts[(0 : Fin 80)].relEnd.isSome = true ∧
    (pntAt { faultSince := some 5 }).pev.pts[(0 : Fin 80)].faultSince.isSome = true ∧ (0 : Fin 80).val < 40 ∧ pointed.ptUsed 0 = true ∧
    (State.sysOf node fun y => { y with inhEnd := some 9 }).sys.inhEnd.isSome = true ∧ node.standby = false ∧ node.pev.cmd = none ∧
    ({ node with pev := { node.pev with cmd := some { op := 1, slot := 0, subst := 0, org := node.originOf .chip } } } : State).pev.cmd.isSome = true ∧
    (unit .standby .active).standby = true := by decide +kernel

theorem witness_ABaseScanRuns :
    scanLive node = true ∧ node.pev.minStart ≤ scanDue node ∧ node.standby = false ∧ node.lvn.replay = false ∧
    regionUp rACQ node = true ∧ scanLive (unit .standby .active) = true ∧
    (unit .standby .active).pev.minStart ≤ scanDue (unit .standby .active) ∧ (unit .standby .active).standby = true ∧
    scanLive bare = false ∧ scanDue { node with pev := { node.pev with minStart := 1 } } < 1 := by decide +kernel

/-- A node with one group, whose one member is its own point 0. -/
def grouping : State :=
  let s := run (bank 5 0 [(3, [(36, 1), (39, 1)]), (4, [(0, 1), (422, 1), (432, 0x80), (433, 2)])])
  { s with pev := { s.pev with pts := s.pev.pts.set 0 { flags := 6 } } }

theorem witness_AnnunciationCommandsAreQueued :
    node.ann.pend = false ∧ node.standby = false ∧ node.ann.queue.length < 32 ∧
    ({ node with ann := { pend := true } } : State).ann.pend = true ∧ (unit .standby .active).ann.pend = false ∧
    (unit .standby .active).standby = true ∧ 5 ≤ (5 : Fin 8).val ∧
    bit (pntAt { flags := 0x40 }).pev.pts[(0 : Fin 80)].flags 6 = true ∧ bit (pntAt {}).pev.pts[(0 : Fin 80)].flags 6 = false ∧
    0 < grouping.grpCount ∧ grpMembers grouping 0 = [640] ∧ inEpisode (memView grouping 640).st = true := by decide +kernel

theorem witness_AnnunciationActsOnItsPoint :
    bit (pntAt { flags := 6 }).pev.pts[(0 : Fin 80)].flags 2 = true ∧ bit (pntAt { flags := 6 }).pev.pts[(0 : Fin 80)].flags 5 = false ∧
    (pntAt { flags := 6 }).pev.pts[(0 : Fin 80)].tUnack ≤ (node.originOf .chip).ack ∧
    ({ node.originOf .chip with ack := 4 } : Origin).ack < (pntAt { flags := 6, tUnack := 5 }).pev.pts[(0 : Fin 80)].tUnack ∧
    bit (pntAt {}).pev.pts[(0 : Fin 80)].flags 6 = false ∧ bit (pntAt { flags := 0x40 }).pev.pts[(0 : Fin 80)].flags 6 = true ∧
    grouping.ptCat 0 ≠ 0 ∧ (pntAt {}).pev.pts[(0 : Fin 80)].flags = 0 := by decide +kernel

/-- A manager whose recipe has the CALL section, with one MACHINERY unit. -/
def calling : State := run (bank 5 1 [(5, [(530, 1)])])

theorem witness_CallSessionsAdvanceByTheirRows :
    (∀ st ∈ [1, 2, 4, 5], (({ sess := [(3, { st := st })] } : Call).get 3).st = st) ∧ callActive calling = true ∧
    regionUp rLNK calling = true ∧ unitKind calling 0 ≠ 0 ∧ unitLost calling 0 = false ∧ callOn node = false ∧ callOn calling = true ∧
    calling.standby = false ∧ calling.call.pend = false ∧ ((calling.call.get 3).st ≠ 1) := by decide +kernel

/-- A router in which one source alone may be written has that source as the next. -/
theorem only_source (e : Evr) (h : Fin 2) (k : Fin 512) (a : eligible e h k = true)
    (o : ∀ n, eligible e h n = true → n = k) : nextSource e h = some k := by
  have one : ∀ l : List (Fin 512), l.foldl (fun best n =>
      if eligible e h n then
        match best with
        | none => some n
        | some b => if e.srcs[b].pri.toNat < e.srcs[n].pri.toNat then some n else best
      else best) (some k) = some k := by
    intro l
    induction l with
    | nil => rfl
    | cons n l ih =>
      rw [List.foldl_cons]
      by_cases q : eligible e h n = true
      · rw [o n q, if_pos a]
        simp only [Nat.lt_irrefl, if_false]
        exact ih
      · rw [if_neg q]; exact ih
  have all : ∀ l : List (Fin 512), k ∈ l → l.foldl (fun best n =>
      if eligible e h n then
        match best with
        | none => some n
        | some b => if e.srcs[b].pri.toNat < e.srcs[n].pri.toNat then some n else best
      else best) none = some k := by
    intro l
    induction l with
    | nil => simp
    | cons n l ih =>
      intro m
      rw [List.foldl_cons]
      by_cases q : eligible e h n = true
      · rw [o n q, if_pos a]; exact one l
      · rw [if_neg q]
        rcases List.mem_cons.1 m with rfl | m
        · exact absurd a q
        · exact ih m
  exact all _ (List.mem_finRange k)

/-- Source 3 may be written for host 0. -/
def sourced : State := { node with evr := { srcs := ({} : Evr).srcs.set 3 { en := true, pend := true, pri := 1 } } }

theorem sourced_next : nextSource sourced.evr 0 = some 3 := by
  refine only_source _ _ _ (by decide +kernel) fun n q => ?_
  by_cases e : n.val = 3
  · exact Fin.ext e
  · have : sourced.evr.srcs[n] = {} := by
      show (Vector.set ({} : Evr).srcs 3 { en := true, pend := true, pri := 1 } (by decide))[n.val] = {}
      rw [Vector.getElem_set_ne _ _ (Ne.symm e)]
      exact Vector.getElem_replicate _
    simp [eligible, this] at q

def ringed (h : EvrHost) : State := { node with evr := { hosts := #v[h, {}] } }
def held : State := { node with evr := { hold := true, hosts := #v[{ unclaimed := [4] }, {}] } }

theorem witness_EventRouterWritesARecord :
    evrUp sourced = true ∧ (sourced.evr.hosts[(0 : Fin 2)]).slotBusy sourced.evr.hosts[(0 : Fin 2)].write = false ∧
    nextSource sourced.evr 0 = some 3 := ⟨by decide +kernel, by decide +kernel, sourced_next⟩

theorem witness_EventRouterClaimsAndEnds :
    evrUp (ringed { unclaimed := [4, 5] }) = true ∧ (ringed { unclaimed := [4, 5] }).evr.hosts[(0 : Fin 2)].unclaimed = 4 :: [5] ∧
    (ringed { unclaimed := [4, 5] }).evr.hosts[(0 : Fin 2)].stack.length < 8 ∧
    (tblGet ({} : RingRec) (ringed { unclaimed := [4, 5] }).evr.hosts[(0 : Fin 2)].ring 4).withdrawn = false ∧
    node.evr.hosts[(0 : Fin 2)].unclaimed = [] ∧ node.evr.hosts[(0 : Fin 2)].stack = [] ∧
    (ringed { stack := [(1, 4)] }).evr.hosts[(0 : Fin 2)].stack = (1, 4) :: [] ∧
    (ringed { window := some 9, unclaimed := [4] }).evr.hosts[(0 : Fin 2)].window.isSome = true ∧
    (ringed { window := some 9, unclaimed := [4] }).evr.hosts[(0 : Fin 2)].unclaimed.isEmpty = false := by decide +kernel

/-- Source 3 is enabled for host A, and IDENT marks port B unused. -/
def portless : State := { run (bank 5 0 [(1, [(7, 2)])]) with evr := { srcs := ({} : Evr).srcs.set 3 { en := true } } }

theorem witness_EventRouterEnablesAndHolds :
    evrUp node = true ∧ inMask 1 0x80000000 63 = false ∧ inMask 1 0x00800000 55 = true ∧ inMask 2 1 63 = false ∧
    srcReserved (55#9).toNat = false ∧ node.evr.srcs[(55#9).toFin].target ≠ 1 ∧
    unclaimedCount node.evr.hosts[node.evr.srcs[(55#9).toFin].target] (55#9).toNat = none ∧ evrUp held = true ∧ held.evr.hold = true ∧
    targetRefused node (55#9).toFin 1 = false ∧ srcReserved (3#9).toNat = false ∧ targetRefused portless (3#9).toFin 1 = true ∧ evrUp portless = true ∧
    held.evr.hosts[(0 : Fin 2)].unclaimed = 4 :: [] ∧ held.evr.hosts[(0 : Fin 2)].stack.length < 8 := by decide +kernel

/-- While HOLD is 1 a source that could be written stays; once it is 0 it is the next. -/
theorem witness_EventRouterResumes :
    (sourced.evr.hosts[(0 : Fin 2)]).slotBusy sourced.evr.hosts[(0 : Fin 2)].write = false ∧ nextSource sourced.evr 0 = some 3 ∧
    nextSource { sourced.evr with hold := true } 0 = none := by
  refine ⟨by decide +kernel, sourced_next, ?_⟩
  have e : ∀ n, eligible { sourced.evr with hold := true } 0 n = false := fun n => by simp [eligible]
  simp only [nextSource, e]
  generalize List.finRange 512 = l
  induction l with
  | nil => rfl
  | cons a l ih => simpa using ih

theorem witness_HostTransactionsAreTaken :
    hostUp node 0 = true ∧ node.sys.power ≠ .doze ∧ ([0x40, 4, 0, 0x14, 1, 0, 0, 0] : List Byte) ≠ [] ∧
    hdrWrite [0x40, 4, 0, 0x14, 1, 0, 0, 0] = true ∧ hdrCrc [0x40, 4, 0, 0x14, 1, 0, 0, 0] = false ∧ node.hp[(0 : Fin 2)].crcReq = false ∧
    ([0x40, 4, 0, 0x14, 1, 0, 0, 0] : List Byte).length = 4 + 4 * hdrCount [0x40, 4, 0, 0x14, 1, 0, 0, 0] ∧
    (hdrAddr [0x40, 4, 0, 0x14, 1, 0, 0, 0]).toNat % 4 = 0 ∧ node.hp[(0 : Fin 2)].held.length < 2 ∧ node.hp[(0 : Fin 2)].held = [] ∧
    ([0, 4, 0, 0x14] : List Byte).length = 4 ∧ hdrWrite [0, 4, 0, 0x14] = false ∧ hdrCrc [0, 4, 0, 0x14] = false ∧
    hdrCount [0, 4, 0, 0x14] = 1 ∧ (hdrAddr [0, 4, 0, 0x14]).toNat % 4 = 0 ∧ node.powered = true := by decide +kernel

theorem witness_RegisterWritesAct :
    node.powered = true ∧ reach node 0x040014 = 0 ∧ (0x180000#24).toNat % 4 = 0 ∧ reach node (0x180000#24).toNat ≠ 0 ∧
    (0x090000#24).toNat % 4 = 0 ∧ reach bare (0x090000#24).toNat ≠ 0 := by decide +kernel

def request (op : FabOp) (g : BitVec 6) : FabReq := { requester := 1, tag := 9, target := g, op := op, addr := 0x040014, point := none }
def asked (st : FabStat) (n : Nat) (g : BitVec 6) : State :=
  { node with fab := { node.fab with out := [{ req := request .read g, stat := st, tries := n }] } }

theorem witness_FabricRequestsAreServed :
    fabLive node = true ∧ srcReserved (7#9).toNat = false ∧ (request (.event 7 5) 0x24).target = 0x24 ∧ regionUp rFCE node = true ∧
    fabFind 1 9 node = none ∧ fabCount 1 node < 16 ∧ blockKnown (request (.event 7 5) 0x24).requester = true ∧
    (fabFind 1 9 (asked (.replied 0 5) 0 8)).isSome = true ∧ (asked (.replied 0 5) 0 8).fab.out.map FabOut.stat = [.replied 0 5] ∧
    reqIdem (request .read 0x28) = true ∧ blockRegion (request .read 0x28).target = none ∧
    (fabFind 1 9 (asked .inFlight 1 0x28)).isSome = true ∧ (asked .inFlight 1 0x28).fab.out.map FabOut.tries = [1] ∧
    (fabFind 1 9 (asked .waitBusy 0 8)).isSome = true ∧ (asked .waitBusy 0 8).fab.out.map FabOut.stat = [.waitBusy] := by decide +kernel

def apart : State := State.sysOf node fun y => { y with isolated := [(3, 2)] }
def resetting (r : Fin 5) : State := State.sysOf node fun y => { y with regions := y.regions.set r { st := .inReset } }

theorem witness_CellFaultsIsolateTheCell :
    fabLive node = true ∧ blockKnown 3 = true ∧ blockUp 3 node = true ∧ isIsolated (3#6).toNat (2#8).toNat node = false ∧
    node.sys.fltLatched = false ∧ cellSlots (3#6).toNat (2#8).toNat ≠ [] ∧ isIsolated (3#6).toNat (2#8).toNat apart = true ∧
    (3#6).toNat < 6 ∧ regionUp rACQ apart = true ∧ bit (4#16) 2 = true := by decide +kernel

theorem witness_SupervisorFaultsEnterTheSafeState :
    fabLive node = true ∧ node.sys.mode ≠ .safe ∧ node.sys.mode ≠ .lastBreath ∧ readyDue 2 (resetting 2) = true ∧
    (resetting 2).sys.mode ≠ .safe := by decide +kernel

theorem witness_RegionsResetAndReturn :
    fabLive node = true ∧ (∀ r : Fin 5, regionUp r node = true ∧ readyDue r (resetting r) = true) ∧ node.powered = true ∧
    bit (4#5) 2 = true ∧ node.sys.secErrs = [] ∧ (shadow (owned none .valid)).st = .valid := by decide +kernel

def State.canOf (s : State) (k : Fin 4) (c : Can) : State := { s with can := s.can.set k c }
def State.imzOf (s : State) (f : Imz → Imz) : State := { s with imz := f s.imz }
def State.timOf (s : State) (f : Tim → Tim) : State := { s with tim := f s.tim }
def canAt (c : Can) : State := State.canOf node 1 c
/-- A controller that takes part on its bus; buffer 2 requested. -/
def canOn : Can := { mode := 1, st := 2, txPend := 4 }
/-- Buffer 2 gives up after its first lost arbitration, or after three. -/
def counted (r : Nat) : Can := { canOn with ram := [(261, BitVec.ofNat 8 (16 + r))] }
def joining : State := State.imzOf node fun z => { z with joined := false }

theorem witness_TransmitBuffersCompleteWithTheirResult :
    canPresent node 1 = true ∧ bit ({ mode := 1 } : Can).txPend 2 = false ∧ canQuiet node = false ∧ canBadId (canAt { mode := 1 }) 1 2 = false ∧
    canBadId (canAt { mode := 1, alone := true }) 1 2 = true ∧ bit canOn.txPend 2 = true ∧ (28 : Fin 32).val ≥ 28 ∧
    canBadId (canAt { mode := 1 }) 1 28 = true ∧ Source.hostA ≠ .chip ∧ (27 : Fin 32).val < 28 ∧ canOn.onBus = true ∧ canTxMode canOn.mode = true ∧
    imzOpen (State.canOf joining 1 canOn) = false ∧ bit canOn.abortReq 2 = false ∧ canOn.mode = 1 ∧
    (counted 0).txArbCnt 2 = true ∧ (counted 0).failures 2 < 31 ∧ (counted 0).txRetry 2 ≤ (counted 0).failures 2 ∧
    (counted 2).txArbCnt 2 = true ∧ (counted 2).failures 2 < (counted 2).txRetry 2 := by decide +kernel

theorem witness_ControllersChangeModeAndState :
    canPresent node 1 = true ∧ (6#3) ≠ 7 ∧ ({ canOn with modeReq := some 0 } : Can).modeReq = some 0 ∧ canOn.mode ≠ 0 ∧
    ({ modeReq := some 5 } : Can).modeReq = some 5 ∧ ({ modeReq := some 2 } : Can).mode = 0 ∧
    ({ st := 1, tec := 127, recv := 127 } : Can).tec ≤ 127 ∧ ({ st := 1, tec := 127, recv := 127 } : Can).recv ≤ 127 ∧
    ({ st := 4 } : Can).st = 4 ∧ ({ st := 5 } : Can).st = 5 ∧ canOn.st ≠ 1 ∧ canHears (canAt canOn) 1 = true := by decide +kernel

def frame (b r : Bool) : CanFrame := { id := 5, base := b, remote := r, fdf := true, brs := true, esi := false, dlc := 8, data := List.replicate 8 0 }

theorem witness_ControllersReceiveAndCaptureErrors :
    canHears (canAt canOn) 1 = true ∧ (canAt canOn).bare = false ∧ (frame false false).base = false ∧ (frame false false).remote = false ∧
    canHears (State.sysOf (canAt canOn) fun y => { y with mode := .safe }) 1 = true ∧
    imzLive (State.sysOf (canAt canOn) fun y => { y with mode := .safe }) = false ∧
    (frame true false).base = true ∧ (frame false true).remote = true ∧ (5#4) ≠ 6 ∧ ¬((3#4) = 3 ∧ (5#4) = 1) ∧ canOn.tec + 8 ≤ 255 ∧
    ¬((5#4) = 5 ∧ canOn.st = 3) ∧ ({ canOn with tec := 247 } : Can).tec + 8 ≤ 255 ∧ canOn.pxd = false := by decide +kernel

theorem witness_SubmittedFramesWaitInABuffer :
    canTxMode ({ canOn with fdEn := true } : Can).mode = true ∧ ({ canOn with fdEn := true } : Can).freeBuf = some 0 ∧ canQuiet (canAt canOn) = false ∧
    canOn.alone = false ∧ frameId 7 0x73 3 0xFFFF < 2 ^ 29 ∧ (List.replicate 64 (0 : Byte)).length = 64 ∧ canTxMode 0 = false ∧
    ({ canOn with txPend := 0x0FFFFFFF } : Can).freeBuf = none := by decide +kernel

/-- The eight bytes of a 64-bit word spell it. -/
theorem bytes_back (w : BitVec 64) (l : List Byte) : BitVec.ofNat 64 (dataNat (bytesLE 8 w.toNat ++ l) 0 8) = w := by
  have k : ofBytesLE (bytesLE 8 w.toNat) = w.toNat := by
    have := w.isLt
    simp only [bytesLE, List.range, List.range.loop, List.map_cons, List.map_nil, ofBytesLE, BitVec.toNat_ofNat]
    omega
  have t : (bytesLE 8 w.toNat ++ l).take 8 = bytesLE 8 w.toNat := List.take_left' (by simp [bytesLE])
  rw [dataNat, List.drop_zero, t, k]
  simp

def rx (bus : Fin 4) (src : Half) (d : List Byte) : ImzRx := { bus := bus, dir := 1, src := src, data := d, age := 0 }
/-- A manager of the network with the members 7 and 8. -/
def manager : State := run (bank 5 1 [(6, [(29, 1), (32, 4), (35, 2), (64, 7), (68, 8)])])
def top : State := run (bank 5 1 [(6, [(24, 3), (32, 4), (35, 2), (64, 7), (68, 8)])])
def claim (w : BitVec 64) (b : Byte) : List Byte := bytesLE 8 w.toNat ++ [0, 0, 0, 0, b, 0, 7, 0]

theorem claim_length (w : BitVec 64) (b : Byte) : (claim w b).length = 16 := by simp [claim, bytesLE]

/-- Some claim of the own number names another serial number. -/
theorem witness_AddressConflict : ∃ f : ImzRx, imzLive node = true ∧ f.data.length = 16 ∧ f.src = node.nodeNum ∧
    (node.isPaired && true != node.sys.roleB) = false ∧ claimSerial f ≠ Config.serial ∧ node.imz.conflict = false ∧
    fromBelow node f = false ∧ (dataNat f.data 12 1).testBit 0 = false := by
  by_cases h : Config.serial = 0
  · exact ⟨rx 0 5 (claim 1 0), by decide +kernel, by decide +kernel, by decide +kernel, by decide +kernel, by rw [h]; decide +kernel, by decide +kernel⟩
  · exact ⟨rx 0 5 (claim 0 0), by decide +kernel, by decide +kernel, by decide +kernel, by decide +kernel,
      fun e => h (e.symm.trans (by decide +kernel)), by decide +kernel⟩

theorem witness_NetworkMembershipKeepsItsTables :
    imzLive joining = true ∧ 9 ≤ joining.sys.step ∧ joining.imz.joined = false ∧ joining.netTop = false ∧ node.imz.joined = true ∧
    (State.imzOf node fun z => { z with conflict := true }).imz.conflict = true ∧ imzOpen node = true ∧
    (∀ k : Fin 4, beatQuiet k node = false) ∧ (claim 3 0).length = 16 ∧ fromBelow manager (rx 2 7 (claim 3 0)) = true ∧
    (dataNat (claim 3 1) 12 1).testBit 0 = true ∧ manager.isManager = true ∧
    heard 16 (rx 2 7 (claim 3 0)) manager = true ∧ (memberOf manager 7).isSome = true ∧ manager.isPaired = false ∧
    (1 : Fin 64).val < manager.netCount ∧ bit manager.imz.lost 1 = false ∧ manager.standby = false ∧ node.imz.mgrLost = false ∧
    (State.sysOf node fun y => { y with step := 10 }).sys.step = 10 ∧ (State.sysOf (unit .training .training) fun y => { y with step := 10 }).isPaired = true ∧
    node.imz.queue.length < 128 := by decide +kernel

/-- The point address of slot 0 of node 7. -/
def transition (cat : Byte) : List Byte :=
  [0x80, 3, 0, 0, 0, 0, 0, 0, 0, 0, 0, 0, 0, 0, 0, 0, 0, 0, 0, 0, 0x20, cat, 0, 0, 0, 0, 0, 0, 0, 0, 0, 0]
def flooded (n : Nat) : State :=
  State.imzOf manager fun z => { z with flood := true, suppNodes := (List.range n).map fun i => (i + 7, 1) }
def groupedManager : State := run (bank 5 1 [(4, [(0, 1), (422, 1), (432, 0x80), (433, 3)]), (6, [(35, 2), (64, 7), (68, 8)])])
def noticed (st : Nat) : State := { groupedManager with grp := { groupedManager.grp with mems := [(896, { st := st })] } }

theorem witness_AlarmFramesReachGroupsAndGoUp :
    fromBelow manager (rx 2 7 (transition 0x10)) = true ∧ heard 32 (rx 2 7 (transition 0x10)) manager = true ∧ speaksUp manager = true ∧
    addrSlot (entryOf (transition 0x10)).addr < 80 ∧ (entryOf (transition 0x10)).addr = 896 ∧
    (manager.imz.notices.all fun n => !n.isFor 896 (entryOf (transition 0x10)).onset) = true ∧ groupedManager.isOwn 896 = false ∧
    (allMembers groupedManager).contains 896 = true ∧ speaksUp groupedManager = true ∧ (entryOf (transition 0x30)).cat = 3 ∧ (entryOf (transition 0x10)).cat ≠ 3 ∧
    0 < (State.imzOf manager fun z => { z with tokens := 1 }).imz.tokens ∧ manager.imz.tokens = 0 ∧
    fromBelow groupedManager (rx 2 7 ((transition 0).take 24)) = true ∧ heard 24 (rx 2 7 ((transition 0).take 24)) groupedManager = true ∧
    noticeAddr (rx 2 7 ((transition 0).take 24)) = 896 ∧ ((noticed 3).grp.mem 896).st ≠ 1 ∧ ((noticed 1).grp.mem 896).st = 1 ∧
    stampValid (noticeOnset (rx 2 7 ((transition 0).take 24))) = true ∧
    ((noticed 1).grp.mem 896).onset = ticksOf (noticeOnset (rx 2 7 ((transition 0).take 24))) ∧ node.imz.joined = true ∧ node.imz.queue = [] ∧
    (flooded 1).imz.flood = true ∧ speaksUp (flooded 1) = true ∧ (flooded 1).isManager = true ∧ 0 < (flooded 1).imz.suppNodes.length ∧
    (flooded 11).imz.suppNodes.length ≤ 11 ∧ (State.imzOf (flooded 1) fun z => { z with tokens := 128 }).netBurst ≤ 128 ∧ heard 64 (rx 2 7 (List.replicate 16 0 ++ [1, 0, 0, 0, 7, 0, 5, 0] ++ List.replicate 40 0)) manager = true ∧
    floodEntries (rx 2 7 (List.replicate 16 0 ++ [1, 0, 0, 0, 7, 0, 5, 0] ++ List.replicate 40 0)) = [(7, 5)] ∧ speaksDown manager = true := by
  decide +kernel

def callAck (n : Byte) : List Byte := [3, 0, 0, 2, n, 0, 0, 0, 0, 0, 0, 0, 0, 0, 0, 0]
/-- A manager whose recipe has the CALL section. -/
def callManager : State := run (bank 5 1 [(5, []), (6, [(35, 2), (64, 7), (68, 8)])])

theorem witness_ReportsDigestsAndCallFramesTravel :
    imzOpen node = true ∧ node.activeUnit = true ∧ heard 48 (rx 2 7 (List.replicate 48 0xFF)) manager = true ∧
    fromBelow manager (rx 2 7 (64 :: List.replicate 47 0xFF)) = true ∧ dataNat (64 :: List.replicate 47 0xFF) 0 1 + 16 ≤ 80 ∧
    bit (BitVec.ofNat 16 (dataNat (64 :: List.replicate 47 0xFF) 46 2) : Half) 15 = true ∧ manager.isManager = true ∧ speaksUp manager = true ∧
    heard 32 (rx 2 8 (List.replicate 32 1)) manager = true ∧ memberOf manager 8 = some 1 ∧ heard 32 (rx 1 4 (List.replicate 32 1)) manager = true ∧
    fromAbove (rx 1 4 (List.replicate 32 1)) = true ∧ speaksDown manager = true ∧ heard 16 (rx 2 7 (callAck 5)) callManager = true ∧
    fromBelow callManager (rx 2 7 (callAck 5)) = true ∧ dataNat (callAck 5) 4 2 = callManager.nodeNum.toNat ∧ callOn callManager = true ∧
    dataNat (callAck 6) 4 2 ≠ callManager.nodeNum.toNat := by decide +kernel

/-- A command frame for node 5. -/
def cmdFrame (op : Byte) (rest : List Byte) : ImzRx :=
  rx 0 4 (([5, 0, 9, op] ++ List.replicate 12 0 ++ rest) ++ List.replicate (48 - rest.length) 0)
def tagged : State := State.imzOf node fun z => { z with tags := [{ node := 4, tag := 9, rsp := [1] }] }
def called : State := run (bank 5 1 [(5, [])])

theorem witness_CommandsForThisNodeActOnce :
    (∀ op ∈ ([0x01, 0x02, 0x10, 0x11, 0x20, 0x30, 0x31] : List Byte), commandHere op.toNat (cmdFrame op []) node = true ∧
      (tagOf (cmdFrame op []) tagged).isSome = true ∧ tagOf (cmdFrame op []) node = none) ∧
    rxByte (cmdFrame 1 [0x14, 0, 4, 0, 0]) 20 = 0 ∧ 8 < rxByte (cmdFrame 1 [0x14, 0, 4, 0, 9]) 20 ∧ rxByte (cmdFrame 1 [0x14, 0, 4, 0, 1]) 20 = 1 ∧
    dataNat (cmdFrame 1 [0x14, 0, 4, 0, 1]).data 16 4 % 4 = 0 ∧ readIdem (dataNat (cmdFrame 1 [0x14, 0, 4, 0, 1]).data 16 4) = true ∧
    (busFetch (dataNat (cmdFrame 1 [0x14, 0, 4, 0, 1]).data 16 4) (cmdTake (cmdFrame 1 [0x14, 0, 4, 0, 1]) (imzTook 4 0x40 (cmdFrame 1 [0x14, 0, 4, 0, 1]) node))).1 = 0 ∧
    rxByte (cmdFrame 0x10 [1, 1]) 17 ≠ 0 ∧ node.ann.queue.length < 32 ∧ 1 ≤ rxByte (cmdFrame 0x11 [3, 0]) 16 ∧ rxByte (cmdFrame 0x11 [3, 0]) 16 ≤ 3 ∧
    pointed.ptUsed (rxByte (cmdFrame 0x11 [3, 0]) 17) = true ∧ pointed.pev.cmd = none ∧ commandHere 0x11 (cmdFrame 0x11 [3, 0]) pointed = true ∧
    callOn called = true ∧ commandHere 0x20 (cmdFrame 0x20 [1]) called = true ∧ (State.imzOf node fun z => { z with mgrLost := true }).imz.mgrLost = true ∧
    node.netTop = false ∧ top.netTop = true ∧ timLive top = true ∧ commandHere 0x31 (cmdFrame 0x31 [0, 0, 0, 0, 1, 0, 0, 0, 1]) top = true ∧
    (rxByte (cmdFrame 0x31 [0, 0, 0, 0, 1, 0, 0, 0, 1]) 24).testBit 0 = true ∧
    stampValid (BitVec.ofNat 64 (dataNat (cmdFrame 0x31 [0, 0, 0, 0, 1, 0, 0, 0, 1]).data 16 8) : Ts) = true := by decide +kernel

theorem witness_NothingIsOff : ∀ n : Fin 80, annOff node n = true := by decide +kernel

/-- Some CONFLICT command names the own serial number. -/
theorem witness_ConflictCommand : ∃ f : ImzRx, imzLive node = true ∧ f.data.length = 64 ∧ rxByte f 3 = 0x40 ∧ dataNat f.data 0 2 = node.nodeNum.toNat ∧
    node.imz.conflict = false ∧ BitVec.ofNat 64 (dataNat f.data 16 8) = Config.serial := by
  refine ⟨rx 0 4 ([5, 0, 9, 0x40] ++ List.replicate 12 0 ++ (bytesLE 8 Config.serial.toNat ++ List.replicate 40 0)), by decide +kernel, ?_, rfl,
    by decide +kernel, by decide +kernel, ?_⟩
  · simp [rx, bytesLE]
  · exact bytes_back Config.serial _

def sentCmd (n : Nat) : SentCmd := { target := 4, tag := 9, down := false, data := [], tries := n }
def waitingFor (n : Nat) : State := State.imzOf node fun z => { z with sent := [sentCmd n] }
def sendingPage : State :=
  State.imzOf node fun z => { z with xferTo := some { node := 4, tag := 9, op := 3, down := false }, xferOut := List.replicate 33 [] }

theorem witness_AnswersAndPagesReachTheirRequester :
    heard 48 (rx 0 4 ([5, 0, 9] ++ List.replicate 45 0)) (waitingFor 0) = true ∧ dataNat ([5, 0, 9] ++ List.replicate 45 0) 0 2 = (waitingFor 0).nodeNum.toNat ∧
    (∃ c ∈ (waitingFor 0).imz.sent, c.tag = ([5, 0, 9] ++ List.replicate 45 0 : List Byte).getD 2 0 ∧ c.target = 4) ∧
    heard 48 (rx 2 7 ([4, 0, 9] ++ List.replicate 45 0)) manager = true ∧ speaksUp manager = true ∧ fromBelow manager (rx 2 7 ([4, 0, 9] ++ List.replicate 45 0)) = true ∧
    (rx 2 7 ([4, 0, 9] ++ List.replicate 45 0)).dir = 1 ∧ dataNat ([4, 0, 9] ++ List.replicate 45 0) 0 2 ≠ manager.nodeNum.toNat ∧
    inSubtree manager 4 = false ∧ (waitingFor 1).imz.sent = [sentCmd 1] ∧ (sentCmd 1).tries < 2 ∧ 2 ≤ (sentCmd 2).tries ∧ (sentCmd 1).down = false ∧
    speaksUp (waitingFor 1) = true ∧ heard 64 (rx 0 4 ([5, 0, 9, 0x10, 0, 127] ++ List.replicate 58 0)) node = true ∧
    dataNat ([5, 0, 9, 0x10, 0, 127] ++ List.replicate 58 0) 3 1 = 0x10 ∧ dataNat ([5, 0, 9, 0x10, 0, 127] ++ List.replicate 58 0) 5 1 < 128 ∧
    dataNat ([5, 0, 9, 0x11] ++ List.replicate 60 0) 3 1 = 0x11 ∧ imzOpen sendingPage = true ∧ sendingPage.standby = false ∧
    sendingPage.imz.xferTo.isSome = true ∧ 32 < sendingPage.imz.xferOut.length := by decide +kernel

def master : State := State.timOf manager fun t => { t with st := .locked, sofs := #v[some (3, 4), none] }
def following (st : TimState) : State :=
  State.timOf (run (bank 5 0 [(6, [(26, 4), (36, 50)])])) fun t => { t with st := st, refs := #v[some { seq := 3, sof := 100, at' := 0 }, none] }

/-- A worker in HOLDOVER whose ledger knows its oscillator. -/
def drifting : State := { following .holdover with age := { st := .run, bands := Vector.replicate 16 (5, 1) } }

theorem witness_TimeIsSentAndFollowed :
    timeMaster master = true ∧ master.tim.sofs[(0 : Fin 2)] = some (3, 4) ∧ (0 : Fin 2) = (if false then 1 else 0) ∧ imzLive (following .free) = true ∧
    fromAbove (rx 0 4 (List.replicate 8 0)) = true ∧ (4 : Half) = (following .free).netMgr ∧ (following .free).netTop = false ∧
    (List.replicate 8 (0 : Byte)).length = 8 ∧ (following .free).imz.mgrLost = false ∧ (following .free).tim.refs[(1 : Fin 2)] = none ∧
    linkTimed (following .free) = false ∧ linkTimed (unit .standby .active) = true ∧ linkTimed top = false ∧ (following .free).tim.st ≠ .locked ∧ busOf (rx 0 4 []) = 0 ∧ busOf (rx 1 4 []) = 1 ∧
    (following .free).tim.refs[(0 : Fin 2)] = some { seq := 3, sof := 100, at' := 0 } ∧
    (3 : Half) = BitVec.ofNat 16 (dataNat ([3, 0] ++ List.replicate 14 0) 0 2) ∧ (following .free).mono ≤ 0 + ms 50 ∧
    stampValid (BitVec.ofNat 64 (dataNat ([3, 0] ++ List.replicate 14 0) 8 8) : Ts) = true ∧ (following .locked).tim.st = .locked ∧
    (following .holdover).tim.st = .holdover ∧ (following .holdover).age.st = .off ∧ drifting.age.st = .run ∧ drifting.ageEn 4 = true ∧
    (drifting.age.bands[tempBand drifting]).2 ≠ 0 ∧ drifting.tim.st = .holdover ∧ drifting.netTop = false := by decide +kernel

def pulsed (f : Tim → Tim) (n : Nat) : State := { State.timOf top f with now := n }

theorem witness_TheGrandMasterKeepsItsTime :
    syncSource top = true ∧ timLive top = true ∧ (syncPhase (pulsed (fun t => { t with goodRow := 9 }) 5).now).natAbs ≤ 5 ∧
    (pulsed (fun t => { t with goodRow := 9 }) 5).tim.atPulse = none ∧ 500 < (syncPhase (pulsed (fun t => { t with rejRow := 2 }) 501).now).natAbs ∧
    (pulsed (fun t => { t with rejRow := 2 }) 501).tim.rejRow < 3 ∧ 3 ≤ (pulsed (fun t => { t with rejRow := 3 }) 501).tim.rejRow ∧
    (pulsed (fun t => { t with atPulse := some 5 }) 0).tim.atPulse = some 5 ∧ (pulsed (fun t => { t with traceable := true }) 0).tim.traceable = true ∧
    node.bare = false ∧ node.sys.mode ≠ .safe ∧ node.ident7 3 = false ∧ top.netTop = true ∧ stampValid (timSetReg top) = true ∧ node.netTop = false ∧
    stampValid (timSetReg (pulsed (fun t => { t with setLo := 0x3FFFFFFF }) 0)) = false := by decide +kernel

def pair (f : Lvn → Lvn) (st p : PairState) : State := State.lvnOf (unit st p) f
/-- A unit of a pair at step 11 that has heard its partner, or not. -/
def negotiating (h : Option Hello) (pres : Bool) (b : Bool) : State :=
  State.lvnOf (State.sysOf (unit .negotiating .negotiating) fun y => { y with mode := .starting, step := 11, roleB := b, inp := { y.inp with presIn := pres } })
    fun v => { v with hello := h }
def hello (b : Bool) (st : PairState) (seq : Word) : Hello := { unitB := b, st := st, seq := seq, crc := 0, serial := 0 }

theorem witness_TheLinkCarriesHeartbeats :
    lvnUp (unit .active .standby) = true ∧ (pair (fun v => { v with trained := false }) .training .training).lvn.trained = false ∧
    lvnUp (pair (fun v => { v with trained := false }) .training .training) = true ∧ (unit .active .standby).lvn.lanes[(0 : Fin 2)] = true ∧
    (unit .active .standby).lvn.lanes[(1 : Fin 2)] = true ∧ (pair (fun v => { v with lanes := #v[true, false] }) .active .standby).lvn.lanes[(1 : Fin 2)] = false ∧
    (pair (fun v => { v with lanes := #v[true, false] }) .active .standby).lvn.trained = true ∧ linkUp (unit .active .standby).lvn = true ∧
    (unit .negotiating .training).lvn.st = .negotiating ∧ (unit .negotiating .training).lvn.presCheck = false ∧ (unit .standby .active).lvn.st = .standby := by
  decide +kernel

theorem witness_RolesAreTakenByTheirTable :
    (negotiating (some (hello true .active 0)) true false).lvn.st = .negotiating ∧ (negotiating (some (hello true .active 0)) true false).sys.step = 11 ∧
    roleByTable (negotiating (some (hello true .active 0)) true false) = some .standby ∧
    roleByTable (negotiating (some (hello true .negotiating 0)) true false) = some .active ∧
    roleByTable (negotiating none false false) = some .solo ∧ (negotiating none false false).sup.pfail = false ∧
    roleByTable (negotiating (some (hello true .active 4)) true false) = some .updating ∧
    roleByTable (negotiating (some (hello false .active 4)) true false) = some .roleClash ∧
    roleByTable (negotiating (some { hello false .negotiating 0 with crc := 9 }) true true) = some .recipeClash ∧
    (negotiating none true true).lvn.hello = none ∧ (negotiating none true true).sys.inp.presIn = true ∧
    (unit .standby .active).lvn.st = .standby ∧ (unit .standby .active).sup.pfail = false ∧ (unit .standby .active).sys.mode = .inService ∧
    (pair (fun v => { v with presCheck := true }) .standby .active).lvn.presCheck = true ∧ lvnUp (unit .standby .active) = true ∧
    linkUp (unit .standby .active).lvn = true ∧ (unit .active .standby).lvn.st = .active ∧
    ({ aoChan false with held := true } : Ao).held = true ∧ (pair (fun v => { v with check := true }) .splitActive .off).lvn.check = true ∧
    (pair (fun v => { v with check := true }) .splitStandby .off).lvn.st = .splitStandby ∧ (unit .splitStandby .off).lvn.check = false := by decide +kernel

def receiving (o : Option (Word × Word × Ts)) (recs : List LvRec) : State :=
  pair (fun v => { v with opened := o, recs := recs, deltas := recs.length, recBytes := 128 * recs.length }) .standby .active

theorem witness_EpochsCarryTheState :
    epochsRun (unit .active .standby) = true ∧ (unit .active .standby).lvn.want = [] ∧
    (pair (fun v => { v with want := [0] }) .active .standby).lvn.want = [(0 : Fin 80).val] ∧ (unit .active .standby).rcp.swapPend = false ∧
    (State.rcpOf (unit .active .standby) fun c => { c with swapPend := true }).rcp.swapPend = true ∧
    (State.rcpOf (unit .active .standby) fun c => { c with swapPend := true }).rcp.swapEpoch = none ∧ epochsRun (unit .active .off) = false ∧
    lvnUp (unit .standby .active) = true ∧ linkUp (unit .standby .active).lvn = true ∧ (unit .standby .active).lvn.st = .standby ∧
    (receiving (some (1, 0, 5)) []).lvn.opened = some (1, 0, 5) ∧ (receiving (some (1, 0, 5)) []).lvn.opened.isSome = true ∧
    (unit .standby .active).lvn.opened = none ∧ (0 : Word) = (receiving (some (1, 0, 5)) []).lvn.epoch ∧
    (receiving (some (1, 0, 5)) [.point 0 { flags := 6 }]).lvn.recs = [.point 0 { flags := 6 }] ∧
    (receiving (some (1, 0, 5)) [.point 0 { flags := 6 }]).lvn.recBytes = (128#32).toNat ∧
    (receiving (some (1, 0, 5)) [.point 0 { flags := 6 }]).lvn.deltas = (1#16).toNat ∧ (7 : Word) ≠ (receiving (some (1, 7, 5)) []).lvn.epoch ∧
    (unit .standby .active).lvn.log.length < 256 ∧ bit (2#16) 1 = true := by decide +kernel

/-- A standby unit that may take control back by itself. -/
def reverting : State :=
  State.lvnOf (State.sysOf (run (bank 5 2 [(7, [(2, 1)])])) fun y => { y with pins := { y.pins with faultLow := false } }) fun v => { v with st := .standby, pState := .active, lanes := #v[true, true], trained := true, synced := true, pHealth := 0xFFFF }
def handing (take : Bool) (f : Lvn → Lvn) : State :=
  pair (fun v => f { v with reverting := true, freeze := true, taking := take }) (if take then .standby else .active) (if take then .active else .standby)

theorem witness_RevertsArePlannedAndSwitched :
    revertReady reverting = true ∧ reverting.lvn.reverting = false ∧ (unit .active .standby).lvn.st = .active ∧
    (unit .active .standby).lvn.pState = .standby ∧ (unit .active .standby).lvn.synced = true ∧ linkUp (unit .active .standby).lvn = true ∧
    (unit .active .standby).lvn.reverting = false ∧ lvnUp (unit .active .standby) = true ∧ (unit .standby .active).lvn.st ≠ .active ∧
    lvnUp (unit .standby .active) = true ∧ (5 : Ts) ≠ 0 ∧ stampValid (5 : Ts) = true ∧ stampValid (0x3FFFFFFF : Ts) = false ∧
    (handing true fun v => { v with freeze := false }).lvn.reverting = true ∧ (handing true fun v => { v with freeze := false }).lvn.freeze = false ∧
    (handing true fun v => { v with freeze := false }).lvn.taking = true ∧ (handing false fun v => { v with freeze := false }).lvn.taking = false ∧
    (handing false id).lvn.handAck = false ∧ (handing true fun v => { v with handAck := true }).lvn.handAck = true ∧
    (handing true id).sup.pfail = false ∧ (State.supOf (handing true id) fun x => { x with pfail := true }).sup.pfail = true ∧
    dioUsedMask (handing true id) &&& ~~~(3 : BitVec 2) = 0 ∧ aoUsedMask (handing true id) &&& ~~~(15 : BitVec 4) = 0 ∧
    ¬(dioUsedMask (handing true id) &&& ~~~(1 : BitVec 2) = 0 ∧ aoUsedMask (handing true id) &&& ~~~(15 : BitVec 4) = 0) ∧
    handingOver (handing false id) = true ∧ (handing false id).lvn.failed = false ∧ lvnUp (handing false id) = true ∧ linkUp (handing false id).lvn = true ∧
    allConfirmed (handing false id) = false ∧ allConfirmed (handing false fun v => { v with confDio := 3, confAo := 15 }) = true ∧
    handingOver (handing false fun v => { v with confDio := 3, confAo := 15 }) = true ∧
    (handing true fun v => { v with failed := true }).lvn.failed = true := by decide +kernel

def stoppedLink : State := State.lvnOf node fun v => { v with stop := true }

theorem witness_ImagesAndLinkTestsRun :
    lvnUp (pair (fun v => { v with sending := some (0, 0) }) .active .updating) = true ∧
    linkUp (pair (fun v => { v with sending := some (0, 0) }) .active .updating).lvn = true ∧ (PairState.active).holds = true ∧
    (unit .active .updating).lvn.pState = .updating ∧
    0 < imgLength (((State.rcpOf (unit .active .updating) fun c => { c with recipes := #v[{ bank := (12, 1) :: bank 5 2 [], st := .active }, {}] }).rcp.recipes[(0 : Fin 2)]).bank) ∧
    imageTakes (unit .updating .active) = true ∧ dataNat [0, 0, 0, 0, 0xFF, 0xFF, 0x1F, 0, 9] 0 1 ≤ 1 ∧
    dataNat [0, 0, 0, 0, 0xFF, 0xFF, 0x1F, 0, 9] 4 4 + (([0, 0, 0, 0, 0xFF, 0xFF, 0x1F, 0, 9] : List Byte).drop 8).length ≤ 0x200000 ∧
    0x200000 < dataNat [0, 0, 0, 0, 0xFF, 0xFF, 0x1F, 0, 9, 9] 4 4 + (([0, 0, 0, 0, 0xFF, 0xFF, 0x1F, 0, 9, 9] : List Byte).drop 8).length ∧
    node.lvn.stop = false ∧ lvnMayStop node = true ∧ lvnMayStop (unit .active .standby) = false ∧ stoppedLink.lvn.stop = true ∧ (2#2) ≠ 0 ∧
    node.bare = false ∧ (2#2).toNat ≠ node.lvn.loop ∧ (State.lvnOf node fun v => { v with loopRes := 1 }).lvn.loopRes = 1 := by decide +kernel

def State.recOf (s : State) (f : Rec → Rec) : State := { s with recd := f s.recd }
def State.mmcOf (s : State) (f : Mmc → Mmc) : State := { s with mmc := f s.mmc }
def State.pnlOf (s : State) (f : Pnl → Pnl) : State := { s with pnl := f s.pnl }
def State.rndOf (s : State) (f : Rnd → Rnd) : State := { s with rnd := f s.rnd }
def State.ageOf (s : State) (f : Age → Age) : State := { s with age := f s.age }

def recording : State := State.mmcOf (State.recOf node fun r => { r with st := .run, ring := 1 }) fun m => { m with st := .ready, cap := 100000 }
def slicing (n w : Nat) : State :=
  State.recOf (State.pntOf recording 0 { slice := some {} }) fun r => { r with slOpen := List.replicate n [], slWait := List.replicate w [] }
def anEntry : TrEntry := entryOf (List.replicate 32 0)
def queued (n : Nat) (st : RecState) : State :=
  { State.recOf recording (fun r => { r with st := st, rgOpen := { entries := List.replicate n [] }, subQ := [anEntry] }) with ann := { node.ann with recQ := [anEntry] } }

def someCommit : Commit := { ring := true, data := [1], records := 1, first := 0, last := 0, slot := 3, seq := 4 }
def committing : State := State.recOf recording fun r => { r with busy := some someCommit, ckCommits := 14 }

theorem witness_RecordsEnterTheirPages :
    (slicing 30 7).pev.pts[(0 : Fin 80)].slice = some {} ∧ ({} : Slice).stop ≤ (slicing 30 7).pev.start + scanTicksOf (slicing 30 7).scanCode ∧
    (slicing 30 7).activeUnit = true ∧ (slicing 30 7).recd.st = .run ∧ (slicing 30 7).recd.slWait.length < 8 ∧ (slicing 30 7).recd.slOpen.length < 31 ∧
    31 ≤ (slicing 31 7).recd.slOpen.length ∧ 8 ≤ (slicing 31 8).recd.slWait.length ∧ regionUp rKEP (queued 126 .run) = true ∧
    (queued 126 .run).ann.recQ = anEntry :: [] ∧ (queued 126 .run).recd.subQ = anEntry :: [] ∧ (queued 126 .run).activeUnit = true ∧
    (queued 126 .run).recd.rgOpen.entries.length < 127 ∧ (queued 126 .run).recd.lost = 0 ∧ 127 ≤ (queued 127 .run).recd.rgOpen.entries.length ∧
    (queued 127 .run).recd.rgWait.length < 64 ∧ (queued 126 .stopped).recd.st = .stopped ∧ (queued 126 .mediaError).recd.st = .mediaError ∧
    (queued 126 .run).recd.rgOpen.entries ≠ [] ∧ commitMay (slicing 31 0) = true ∧ (slicing 31 0).recd.rgWait = [] ∧
    (slicing 31 0).recd.slWait = [] ∧ (slicing 31 0).recd.slOpen ≠ [] ∧ commitMay (queued 127 .run) = true ∧ (queued 127 .run).recd.rgWait = [] ∧
    committing.recd.busy.isSome = true ∧ commitMay committing = false := by decide +kernel

def recless (cap : Nat) : State :=
  State.mmcOf (run (bank 5 0 [(8, [(0, 1), (4, 1)])])) fun m => { m with st := .ready, cap := cap }

theorem witness_PagesAreCommittedAndRecovered :
    regionUp rKEP (queued 126 .run) = true ∧ (queued 126 .run).recd.busy = none ∧ (queued 126 .run).mmc.st = .ready ∧ (queued 126 .run).recd.st = .run ∧
    (queued 126 .run).recd.rgWait = [] ∧ (queued 126 .run).recd.rgOpen.entries ≠ [] ∧ committing.recd.busy = some someCommit ∧ committing.recd.st = .run ∧
    committing.recd.rgWait = [] ∧ committing.recd.slWait = [] ∧ committing.recd.ckCommits < 15 ∧ tblWf zeroSector committing.mmc.user = true ∧
    committing.recd.busy.isSome = true ∧ (recless 5).recd.st = .off ∧ 7 ≤ (recless 5).sys.step ∧ bankHas (recless 5).activeBank secREC = true ∧
    (recless 5).mmc.st = .ready ∧ (recless 5).mmc.cap < mibSectors * (1 + (recSizes (recless 5)).1 + (recSizes (recless 5)).2 + 16) ∧
    mibSectors * (1 + (recSizes (recless 38912)).1 + (recSizes (recless 38912)).2 + 16) ≤ (recless 38912).mmc.cap ∧
    (queued 1 .scanning).recd.st = .scanning ∧ (queued 1 .scanning).recd.slWait = [] ∧ (queued 1 .stopped).recd.st = .stopped ∧
    (queued 1 .noSpace).recd.st = .noSpace ∧ (queued 1 .mediaError).recd.st = .mediaError ∧ commitMay (queued 126 .run) = true ∧
    node.recd.st = .off ∧ bankHas node.activeBank secREC = false ∧ (0x5D#8) ≠ 0x5C := by
  decide +kernel

/-- The page of slot 0 of the ring, all 0, behind its trailer; its CRCs need not be computed. -/
opaque pageCrc : { w : Word // w = crc32 (List.replicate 4096 0) } := ⟨_, rfl⟩
def trailerHead : List Byte := bytesLE 4 0x5A5AC3C3 ++ [0, 0, 0, 0, 2, 1, 0, 0, 0, 0, 0, 0, 0, 0, 0, 0] ++ (bytesLE 4 pageCrc.val.toNat ++ List.replicate 484 0)
opaque trailerCrc : { w : Word // w = crc32 trailerHead } := ⟨_, rfl⟩
def trailer : List Byte := trailerHead ++ bytesLE 4 trailerCrc.val.toNat
def paged : State :=
  State.mmcOf (State.recOf recording fun r => { r with rdPend := true, rdOp := 1, rdRing := true, ringArea := { seq := 1 } }) fun m => { m with user := [(2056, trailer)] }

/-- Four bytes of a word within a list spell it. -/
theorem four_back (a b : List Byte) (w : Word) : dataNat (a ++ (bytesLE 4 w.toNat ++ b)) a.length 4 = w.toNat := by
  have k : ofBytesLE (bytesLE 4 w.toNat) = w.toNat := by
    have := w.isLt
    simp only [bytesLE, List.range, List.range.loop, List.map_cons, List.map_nil, ofBytesLE, BitVec.toNat_ofNat]
    omega
  rw [dataNat, List.drop_left' rfl, List.take_left' (by simp [bytesLE]), k]

theorem trailerHead_length : trailerHead.length = 508 := by simp [trailerHead, bytesLE]

theorem paged_trailer : sectorGet paged (slotBase paged.recd true 0 + 8) = trailer := rfl

theorem paged_ok : trailerOk paged true 0 = true := by
  have c : dataNat trailer 508 4 = trailerCrc.val.toNat := by
    have := four_back trailerHead [] trailerCrc.val
    rwa [trailerHead_length, List.append_nil] at this
  have e : trailer.take 508 = trailerHead := List.take_left' trailerHead_length
  have r : dataNat trailer 0 4 = 0x5A5AC3C3 ∧ dataNat trailer 4 4 = 0 ∧ dataNat trailer 8 1 = 2 ∧ dataNat trailer 16 4 = 0 := by decide +kernel
  simp only [trailerOk, paged_trailer, c, e, trailerCrc.2, r, beq_self_eq_true, Bool.true_and]
  decide +kernel

theorem paged_held : heldPages paged true = [(0, 0)] := by
  have f : (paged.mmc.user.filterMap fun (n, _) =>
      if areaBase paged.recd true ≤ n ∧ (n - areaBase paged.recd true) % 9 = 8 ∧ (n - areaBase paged.recd true) / 9 < areaSlots paged true
      then some ((n - areaBase paged.recd true) / 9) else none) = [0] := by decide +kernel
  have h : heldSlots paged true = [0] := by
    show (List.filterMap _ _).filter _ = _
    rw [f, List.filter_cons_of_pos paged_ok]; rfl
  rw [heldPages, h]
  have : trailerNat paged true 0 12 4 = 0 := by decide +kernel
  simp only [List.map_cons, List.map_nil, this]
  decide +kernel

theorem paged_data : dataOk paged true 0 = true := by
  have z : slotData paged true 0 = List.replicate 4096 0 := by decide +kernel
  have n : trailerNat paged true 0 20 4 = pageCrc.val.toNat := by
    have := four_back (bytesLE 4 0x5A5AC3C3 ++ [0, 0, 0, 0, 2, 1, 0, 0, 0, 0, 0, 0, 0, 0, 0, 0]) (List.replicate 484 0 ++ bytesLE 4 trailerCrc.val.toNat) pageCrc.val
    rw [← List.append_assoc (bytesLE 4 pageCrc.val.toNat), ← List.append_assoc] at this
    exact this
  rw [dataOk, z, n, pageCrc.2]
  exact beq_self_eq_true _

def reading (op : Nat) : State := State.recOf recording fun r => { r with rdPend := true, rdOp := op, rdRing := true }
def card (n : Nat) (st : MmcState) : State := State.mmcOf recording fun m => { m with st := st, retries := n }

theorem witness_PagesAreReadAndCardErrorsHandled :
    (regionUp rKEP recording = true ∧ recording.recd.rdPend = false ∧ (reading 4).recd.rdPend = true ∧ (reading 4).recd.st = .run ∧
      (reading 4).recd.rdOp = 4 ∧ (reading 4).recd.rdRing = true ∧ (reading 1).recd.rdOp = 1 ∧ heldPages (reading 1) (reading 1).recd.rdRing = [] ∧
      paged.recd.rdPend = true ∧ paged.recd.st = .run ∧ paged.recd.rdOp = 1 ∧ paged.recd.rdRing = true ∧ paged.recd.argHi = 0 ∧
      (card 2 .ready).mmc.st = .ready ∧ (card 2 .ready).mmc.retries < 3 ∧ 3 ≤ (card 3 .ready).mmc.retries ∧ (card 3 .ready).mmc.reinits = [] ∧
      (card 3 .ready).recd.busy = none ∧ (card 0 .error).mmc.st = .error ∧ bankHas (card 0 .error).activeBank secREC = false ∧
      (card 0 .error).age.setDirty = false) ∧
    heldPages paged true = (paged.recd.argLo.toNat, 0) :: [] ∧ dataOk paged true 0 = true :=
  ⟨by decide +kernel, paged_held, paged_data⟩

/-- A panel of 64 by 8 pixels; the renderer is enabled or not. Mode 0 has frames. -/
def shown (rnd : Bool) : State :=
  State.pnlOf (run (bank 5 0 [(9, [(1, if rnd then 2 else 0), (2, 64), (4, 8)]), (11, [(36, 1)]), (4, [(0, 2)])])) fun p =>
    { p with st := .run, wh := 0x00020008 }
def railOff (n : Nat) : State := State.pnlOf (shown false) fun p => { p with st := .off, resting := true, faults := List.replicate n 0 }
def driving (n : Nat) : State :=
  State.pnlOf (shown false) fun p => { p with slots := [{ req := { rect := { x := 0, y := 0, w := 8, h := 2 }, mode := 0, tags := [], split := false }, band := 0, frame := 0, frames := n, target := [] }] }
def cooled (t : Bool) : State := State.pnlOf (shown false) fun p => { p with tempFault := t, band := 3 }

theorem witness_ThePanelDrivesItsUpdates :
    pnlUp (shown false) = true ∧ canQuiet (railOff 0) = false ∧ canQuiet (State.pnlOf (shown false) fun p => { p with st := .railFault }) = false ∧ updRefusal (shown false) (Source.hostA == .chip) (updRect (shown false).pnl) (0#4).toNat = 0 ∧
    (railOff 0).pnl.st = .off ∧ updRefusal (railOff 0) false (updRect (railOff 0).pnl) 0 = 0 ∧
    updRefusal (State.pnlOf (railOff 0) fun p => { p with resting := false }) false (updRect (railOff 0).pnl) 0 = 0 ∧
    updRefusal (shown false) false (updRect (shown false).pnl) (5#4).toNat = 3 ∧ node.pnl.st = .none ∧
    updRefusal (shown false) true (shown false).wholePanel (shown false).clearMode = 0 ∧ (shown false).pnl.st = .run ∧
    (State.pnlOf (shown false) fun p => { p with st := .powering }).pnl.repairs = [] ∧ (shown false).pnl.slots = [] ∧ (shown false).pnl.queue = [] ∧
    (recent (sec 600) (shown false).now (shown false).pnl.faults).length < 2 ∧
    2 ≤ (recent (sec 600) (railOff 2).now (railOff 2).pnl.faults).length ∧ (railOff 0).pnl.resting = true ∧
    (State.pnlOf (shown false) fun p => { p with st := .railFault }).pnl.st = .railFault ∧ (shown false).pnl.samples = [] ∧
    50 ≤ (50#12).toNat ∧ (2450#12).toNat ≤ 2450 ∧ (49#12).toNat < 50 ∧ (cooled false).pnl.tempFault = false ∧
    (cooled false).pnl.band ≠ (cooled false).pnl.vcomBand ∧ (driving 2).pnl.queue = [] ∧ (driving 2).pnl.band = (driving 2).pnl.vcomBand ∧
    (driving 2).pnl.slots.map (fun k => decide (k.frame + 1 < k.frames)) = [true] ∧
    (driving 1).pnl.slots.map (fun k => decide (k.frame + 1 < k.frames)) = [false] ∧ (shown false).stride ≠ 0 ∧
    byteIn (shown false) (shown false).hostArea (65536 * (shown false).pnl.fbPage + (255#16).toNat / 4 * 4) = true ∧
    byteIn (shown false) (shown false).hostArea (65536 * (shown false).pnl.fbPage + (256#16).toNat / 4 * 4) = false ∧ node.stride = 0 := by decide +kernel

def painted : State := State.rndOf (shown true) fun r => { r with body := bodyNow (shown true), head := headNow (shown true), foot := footNow (shown true) }
def listing (p : Nat) : State := State.rndOf (shown true) fun r => { r with page := p, listed := [640, 641] }
/-- A body of two lines. -/
def tall (p : Nat) : State :=
  State.rndOf (run (bank 5 1 [(9, [(1, 2), (2, 64), (4, 64)]), (5, []), (4, [(0, 2)])])) fun r => { r with page := p, listed := [640, 641], session := some 3 }

theorem painted_stands : bodyNow painted = painted.rnd.body ∧ headNow painted = painted.rnd.head ∧ footNow painted = painted.rnd.foot := by
  decide +kernel

theorem witness_TheRendererShowsAndTakesKeys :
    rndOn painted = true ∧ painted.rnd.owed = [] ∧ rndOn (shown true) = true ∧ headNow (shown true) ≠ (shown true).rnd.head ∧ pnlUp (shown true) = true ∧
    (2#2) ≠ 3 ∧ (1#10).toNat < (shown true).grpCount ∧ (shown true).grpCount ≤ (2#10).toNat ∧
    (State.rndOf (shown true) fun r => { r with keyPend := true }).rnd.keyPend = true ∧ (shown true).rnd.keyPend = false ∧
    (unit .standby .active).standby = true ∧ pnlUp (unit .standby .active) = true ∧ (listing 1).rnd.page = 1 ∧ (listing 1).rnd.sel < (listing 1).grpCount ∧
    10 ≤ (10#4).toNat ∧ (listing 0).standby = false ∧ (listing 0).ann.queue.length < 32 ∧ (listing 0).rnd.page = 0 ∧
    (listing 0).rnd.listed[(listing 0).rnd.sel]? = some 640 ∧ callOn (tall 0) = true ∧ (tall 0).call.pend = false ∧ (tall 0).rnd.session = some 3 ∧
    pnlUp grouping = true ∧ grouping.ann.queue.length < 32 ∧ shownPoints (State.rndOf grouping fun r => { r with page := 2 }) = 640 :: [] := by
  decide +kernel

def ageing (f : Age → Age) : State := State.mmcOf (State.ageOf node fun a => f { a with st := .run }) fun m => { m with st := .ready }
def agedOut : State := State.dioOf (ageing id) 2 (dOut true)
def mayTest : State :=
  State.supOf (ageing id) fun u => { u with hold := .ok, feeds := #v[{ cond := .inRange, volt := 2200 }, { cond := .inRange, volt := 2200 }] }

theorem witness_TheLedgerMeasuresAndCorrects :
    node.age.st = .off ∧ (ageing id).age.st ≠ .off ∧ itemNa (ageing id) (measItem (.ref 3 50000 0)) = false ∧ (50000 : Int).natAbs ≤ 50000 ∧
    50000 < (50001 : Int).natAbs ∧ (ageing id).ageEn 0 = true ∧ 100000 < ((100001 : Int) - (ageing id).age.items[(3 : Fin 64)].corr).natAbs ∧
    itemNa (ageing id) (measItem (.gain 1 5 600)) = false ∧ (ageing id).ageEn 1 = true ∧
    (State.ageOf (run (bank 5 0 [(13, [(2, 5)])])) fun a => { a with st := .run }).ageEn 1 = false ∧
    itemNa agedOut (measItem (.switch 2 5)) = false ∧ itemNa (ageing id) (measItem .tcxo) = false ∧
    (State.timOf (ageing id) fun t => { t with st := .locked }).tim.st = .locked ∧ (ageing id).tim.st ≠ .locked ∧ (ageing id).ageEn 4 = true ∧
    ((ageing fun a => { a with bands := Vector.replicate 16 (5, 1) }).age.bands[tempBand (ageing fun a => { a with bands := Vector.replicate 16 (5, 1) })]).2 ≠ 0 ∧
    ((ageing id).age.bands[tempBand (ageing id)]).2 = 0 ∧ itemNa (ageing id) (measItem (.hold 5 5 false false)) = false ∧
    holdMayTest (ageing id) false = false ∧ (ageing id).age.holdTries < 6 ∧ 6 ≤ (ageing fun a => { a with holdTries := 6 }).age.holdTries ∧
    holdMayTest mayTest false = true ∧ itemNa (ageing id) (measItem (.wear 1 1 1)) = false ∧ ledgerUp (ageing id) = true ∧
    ledgerUp (State.mmcOf (ageing id) fun m => { m with st := .error }) = false ∧ itemNa (ageing id) (measItem (.barrier 5 5)) = false ∧
    (State.recOf (ageing id) fun r => { r with ledger := 1 }).age.slot < ledgerSlots (State.recOf (ageing id) fun r => { r with ledger := 1 }) ∧
    (ageing id).age.scanning = false ∧ (ageing fun a => { a with scanning := true }).age.scanning = true ∧ (ageing id).standby = false ∧
    (63#8).toNat = (63 : Fin 64).val ∧ 64 ≤ (64#8).toNat ∧ (unit .standby .active).standby = true ∧ 16 ≤ (16#8).toNat ∧ (35#8).toNat ≤ 35 := by decide +kernel

theorem witness_ReadsClearLatchAndLoopbacksIsolate :
    State.reset.powered = false ∧ rcRegs.contains (0x000024#24).toNat = true ∧ rcRegs.contains (0x000020#24).toNat = false ∧ node.powered = true ∧
    (∀ a ∈ [0x000024, 0x0C0000, 0x040000, 0x064004, 0x066000, 0x080014, 0x0A0020, 0x063018], rcRegs.contains a = true ∧ (busRead node a).1 = 0) ∧
    (busRead bare 0x0C0000).1 ≠ 0 ∧ loRegs.contains (0x000110#24).toNat = true ∧ (busRead node (0x000110#24).toNat).1 = 0 ∧
    loRegs.contains (0x000114#24).toNat = false ∧ (busRead bare (0x066010#24).toNat).1 ≠ 0 ∧ loopCell node (.ui 0) = none ∧
    loopCell (uiAt (uiChan 16 0)) (.ui 3) = some (0, 3) ∧ jtagTakes 1 = false ∧ jtagTakes 3 = true ∧ node.sup.powerGood = true ∧
    node.sys.inp.resetn = true ∧ node.sys.mode ≠ .safe ∧ node.sys.mode ≠ .lastBreath := by decide +kernel

theorem witness_OneFeedKeepsFullService :
    (fed .inRange .inRange false).powered = true ∧ (fed .inRange .inRange false).sup.feeds[1 - (0 : Fin 2)].cond = .inRange ∧ (1799#16).toNat < 1800 ∧
    (fed .inRange .inRange false).sup.feeds[(0 : Fin 2)].cond = .inRange ∧ (fed .high .inRange false).sup.feeds[(0 : Fin 2)].cond = .high ∧
    (1499#16).toNat < 1500 ∧ (fed .high .inRange false).sup.feeds[(0 : Fin 2)].cond ≠ .lost ∧
    (fed .lost .inRange false).sup.feeds[(0 : Fin 2)].cond = .lost ∧ (fed .lost .inRange false).sup.feeds[1 - (0 : Fin 2)].cond = .inRange ∧
    (fed .lost .inRange false).sup.pfail = false ∧ 1650 < (1651#16).toNat ∧ (1651#16).toNat < 1800 ∧
    (fed .inRange .inRange false).sup.holdoff[quantityIndex (feedQuantity 0)].running = false ∧
    (State.supOf (fed .inRange .inRange false) fun u => { u with holdoff := Vector.replicate 5 { running := true, last := 0 } }).sup.holdoff[quantityIndex (feedQuantity 0)].running = true := by
  decide +kernel

def fifth (c : Int) : State := { State.timOf node (fun t => { t with corr := c }) with mono := 4999 }

theorem witness_AStepTakesTheFrontCommand :
    node.pending = [] ∧ (fifth 0).pending = [] ∧ (fifth 0).powered = true ∧ ((fifth 0).mono + 1) % 5000 = 0 ∧ ¬(node.powered = true ∧ (node.mono + 1) % 5000 = 0) ∧
    (State.supOf (fifth 0) fun u => { u with feeds := Vector.replicate 2 { rev := true } }).sup.feeds[(1 : Fin 2)].rev = true ∧
    (fifth 9999).tim.frac + (fifth 9999).tim.corr < 1000000000 ∧ -1000000000 < (fifth 9999).tim.frac + (fifth 9999).tim.corr := by decide +kernel

theorem witness_EveryStepKeepsTheMemoriesCanonical : MemWf State.reset ∧ (∃ t, step State.reset = .next t) :=
  ⟨⟨by simp only [RecipeWf]; decide, by decide, by decide, by decide, by decide, by decide, by decide, by decide, by decide, by decide +kernel, by decide⟩, _, rfl⟩

/-! ### Ill-formed operands are refused, one term for each check -/

def freq (op : FabOp) (a : BitVec 24) : Instr :=
  .fabricRequest { requester := 0, tag := 0, target := 0, op := op, addr := a, point := none } false false false

theorem test_ill_formed_read_address : wellFormed (freq .read 0x040012) = false := by decide +kernel
theorem test_ill_formed_write_address : wellFormed (freq (.write 0) 0x040012) = false := by decide +kernel
theorem test_ill_formed_entry : wellFormed (freq (.entry (List.replicate 31 0)) 0) = false := by decide +kernel
theorem test_ill_formed_imzin_command : wellFormed (freq (.imzinCmd 5 false (List.replicate 63 0)) 0) = false := by decide +kernel
theorem test_ill_formed_hart_length : wellFormed (.aoHartRxDone 0 (List.replicate 4097 0) 0) = false := by decide +kernel
theorem test_ill_formed_hart_parity : wellFormed (.aoHartRxDone 0 [0] 2) = false := by decide +kernel
theorem test_ill_formed_can_length : wellFormed (.canFrameReceived 0 { frame false false with dlc := 9 } 0 false) = false := by decide +kernel
theorem test_ill_formed_can_remote : wellFormed (.canFrameReceived 0 { frame false true with dlc := 0, data := [] } 0 false) = false := by decide +kernel
theorem test_ill_formed_imzin_length : wellFormed (.heartbeatReceived (rx 0 4 (List.replicate 9 0)) false) = false := by decide +kernel
theorem test_ill_formed_chunk : wellFormed (.rcpXferData 5 0 (List.replicate 31 0)) = false := by decide +kernel
theorem test_ill_formed_heartbeat : wellFormed (.lvHeartbeatReceived (List.replicate 33 0) true 0) = false := by decide +kernel
theorem test_ill_formed_hello : wellFormed (.lvHelloReceived (List.replicate 47 0) true) = false := by decide +kernel
theorem test_ill_formed_forward : wellFormed (.lvCmdFwdReceived (List.replicate 67 0) true) = false := by decide +kernel
theorem test_ill_formed_image_short : wellFormed (.lvImageReceived (List.replicate 7 0) true) = false := by decide +kernel
theorem test_ill_formed_image_long : wellFormed (.lvImageReceived (List.replicate 4097 0) true) = false := by decide +kernel
theorem test_ill_formed_key : wellFormed (.rndKeyBad 9) = false := by decide +kernel
theorem test_ill_formed_read_header : wellFormed (.hostRead 0 false [0, 4, 0]) = false := by decide +kernel
theorem test_well_formed_key : wellFormed (.rndKeyBad 10) = true := by decide +kernel

/-! ### Values that the spec works out -/

/-- 06_loop_outputs.md, the example of R155: −30 codes at 4 mA, +25 at 20 mA; R152 rounds the result 29,997.5 away from zero
(log 7). -/
theorem test_trim_code : trimCode (-30) 25 10000 = 9970 ∧ trimCode (-30) 25 50000 = 50025 ∧ trimCode (-30) 25 30000 = 29998 := by
  decide +kernel

/-- 15_recorder.md, the example of R393: LO 20.0, HI 80.0, sample 47.3. -/
theorem test_slice_bin : sliceBin 0x41A00000 0x42A00000 0x423D3333 = 14 := by decide +kernel
/-- The same example: 60,000 and 360,000 scans; 1234 samples over 8. -/
theorem test_slice_shift : binShift 60000 = 0 ∧ binShift 360000 = 3 ∧ binScaled 3 1234 = 154 := by decide +kernel

/-- 05_universal_inputs.md, first example: UI_CFG2 0x0032_1464 holds TEST_INT 100, LEAD_MAX 20 and MISMATCH 50. -/
theorem test_lead_window : (({ uiChan 1 1 with use := #v[0, 0, 0x00321464, 0x101, 0, 0, 0] } : Ui).leadWindow { r1 := 320, r2 := 318, r3 := 322, r4 := 0, loop := 0 }).dstat = 0 := by
  decide +kernel

/-- 08_speed_and_position.md: the settings of the example. -/
theorem test_ps_settings : let p : Ps := { use := #v[0x19221000, 0x77, 0xC83200C8, 2] }
    p.cpr = 120 ∧ p.zMode = 2 ∧ p.filt = 25 ∧ p.rpmUnit = true ∧ p.homeReq = true ∧ p.still = ms 2000 ∧ p.gateMs = 50 ∧ p.cross = 200 := by
  decide +kernel

/-- 08_speed_and_position.md, the example's third step: at position 39 the edge to 40 fires the compare and clears EN. -/
theorem test_ps_compare : let p : Ps := { running := true, pos := 39, cmp := 0x80000028, use := #v[0x19221000, 0x77, 0xC83200C8, 2] }
    (psEdge (psOn p) 1 true false false false false).ps[(1 : Fin 2)].cmp = 0x28 := by decide +kernel

/-- 19_register_summary.md, R492's example: DIO_STAT of DIO12 lies at 0x02_8B44. -/
theorem test_dio_address : dioAddr 11 0x44 = 0x028B44 := by decide +kernel

/-- 07_digital_channels.md, the lamp example: DIO_CFG0, 1 and 3 hold the settings. -/
theorem test_lamp_settings : let d : Dio := { use := #v[0x00010001, 0x41510000, 0, 0x191E4101] }
    d.output = true ∧ d.src = 0 ∧ d.safe = 1 ∧ d.ovlTh = 65 ∧ d.ovlRetry = 5 ∧ d.inrushSet = true ∧ d.lampEn = true ∧ d.lampK = 1 ∧
    d.probeInt = 4 ∧ d.lwLo = 30 ∧ d.lwHi = 25 := by decide +kernel

/-- The same example: 313.1 mA bounds the window below at 27.5 V: 3130 of 0.1 mA lies below 70 % of the expected current, 3131
does not. -/
theorem test_lamp_low : let d : Dio := { use := #v[0x00010001, 0x41510000, 0, 0x191E4101], iOn := 4150, vLearn := 120 }
    d.below 3130 100 70 2750 = true ∧ d.below 3131 100 70 2750 = false := by decide +kernel

/-! ### Single steps -/

theorem test_front_command_first : step { node with pending := [.aoBlockStop true, .dioKeepalive] } =
    exec (.aoBlockStop true) { node with pending := [.dioKeepalive] } := rfl

/-- R30: with both feeds lost POWER_FAIL begins. -/
theorem test_power_fail : (match exec (.feedLost 0 0 2000) (fed .inRange .lost false) with | .next t => t.sup.pfail | _ => false) = true := by
  decide +kernel

/-- R171: DIO_SET of an input channel's neighbour does not reach it. -/
theorem test_dio_neighbour : (match exec (.dioOverload 2 660) (dioAt (dOut true)) with | .next t => t.dio[(3 : Fin 16)] == {} | _ => false) = true := by
  decide +kernel

end Sys2Proof.Tests
end

section
/-! Proofs about the whole block: what a command may change, how the block steps, reads with effects (R5, R8), periodic
loopbacks (R43, R483) and the TAP (R487). -/
namespace Sys2Proof.Machine

open Sys2Proof

/-! ### The frame of every command -/

/-- Every command completes and changes its own parts only: the frame of each meaning, arm by arm as `exec` dispatches. -/
theorem exec_next_only (s : State) : ∀ c : Instr, ∃ t, exec c s = .next t ∧ Only (partsOf c) s t
  | .fabricRequest r queueFull parity waits => execFabricRequest_only r queueFull parity waits s
  | .fabricResponse requester tag parity => execFabricResponse_only requester tag parity s
  | .fabricTimeout requester tag => execFabricTimeout_only requester tag s
  | .seqQuery requester target => execSeqQuery_only requester target s
  | .busyResend requester tag => execBusyResend_only requester tag s
  | .grantHoldOverrun block cell retryOk => execGrantHoldOverrun_only block cell retryOk s
  | .requestDeadlineMiss block cell parity retryOk => execRequestDeadlineMiss_only block cell parity retryOk s
  | .readmissionTest block cell pass => execReadmissionTest_only block cell pass s
  | .cellReadmit block cells => execCellReadmit_only block cells s
  | .regionWatchdogExpiry r => execRegionWatchdogExpiry_only r s
  | .regionReady r partnerSame => execRegionReady_only r partnerSame s
  | .readyLimitExpiry r => execReadyLimitExpiry_only r s
  | .sysRgnReset src mask => execSysRgnReset_only src mask s
  | .sysRgnHold src mask => execSysRgnHold_only src mask s
  | .supervisorWatchdogExpiry => execSupervisorWatchdogExpiry_only s
  | .fabricRootError timeout => execFabricRootError_only timeout s
  | .pllLoss => execPllLoss_only s
  | .safeStateRestart => execSafeStateRestart_only s
  | .scrubPass corrected errors => execScrubPass_only corrected errors s
  | .testmodeHigh => execTestmodeHigh_only s
  | .roleChange level => execRoleChange_only level s
  | .resetnLow => execResetnLow_only s
  | .resetnRise => execResetnRise_only s
  | .feedLow f v => execFeedLow_only f v s
  | .feedLost f v hold => execFeedLost_only f v hold s
  | .feedLostEnd f v hold => execFeedLostEnd_only f v hold s
  | .feedHigh f v => execFeedHigh_only f v s
  | .feedInRange f v => execFeedInRange_only f v s
  | .feedDisconnect f => execFeedDisconnect_only f s
  | .feedReconnect f => execFeedReconnect_only f s
  | .feedReversed f hold => execFeedReversed_only f hold s
  | .powerGood testmode => execPowerGood_only testmode s
  | .powerGoodLoss => execPowerGoodLoss_only s
  | .holdAbsent v => execHoldAbsent_only v s
  | .holdOk v => execHoldOk_only v s
  | .holdFault v => execHoldFault_only v s
  | .holdChargeRetry => execHoldChargeRetry_only s
  | .lastBreath hold dataDone => execLastBreath_only hold dataDone s
  | .lastBreathRestart => execLastBreathRestart_only s
  | .xtalHandover => execXtalHandover_only s
  | .clockCheck diff tcxoNet xtalNet => execClockCheck_only diff tcxoNet xtalNet s
  | .tempMeasure plate die => execTempMeasure_only plate die s
  | .supplyEventHoldoff q v => execSupplyEventHoldoff_only q v s
  | .dozeEnable src en => execDozeEnable_only src en s
  | .dozePowerDown fce => execDozePowerDown_only fce s
  | .dozePowerUp fce => execDozePowerUp_only fce s
  | .dormantRequest src => execDormantRequest_only src s
  | .dormantEntry => execDormantEntry_only s
  | .wakeCommand src => execWakeCommand_only src s
  | .dormantWake src => execDormantWake_only src s
  | .emmcInit ok info => execEmmcInit_only ok info s
  | .emmcInitRetry ok info => execEmmcInitRetry_only ok info s
  | .bootHeadersRead ok => execBootHeadersRead_only ok s
  | .activeImageLoaded ok => execActiveImageLoaded_only ok s
  | .shadowLoaded ok => execShadowLoaded_only ok s
  | .startInhibitEnd => execStartInhibitEnd_only s
  | .bareRateSearchStep => execBareRateSearchStep_only s
  | .bareAddrClaim => execBareAddrClaim_only s
  | .rcpOpen src ok => execRcpOpen_only src ok s
  | .rcpWriteBlock src n ok => execRcpWriteBlock_only src n ok s
  | .rcpVerify src => execRcpVerify_only src s
  | .rcpVerifyDone fail partner => execRcpVerifyDone_only fail partner s
  | .rcpClose src => execRcpClose_only src s
  | .rcpSwap src key partnerSame => execRcpSwap_only src key partnerSame s
  | .rcpSetActive src key ok => execRcpSetActive_only src key ok s
  | .rcpReloadShadow src ok => execRcpReloadShadow_only src ok s
  | .rcpBadOp src op => execRcpBadOp_only src op s
  | .rcpBufWrite src w v => execRcpBufWrite_only src w v s
  | .rcpOwnerTimeout => execRcpOwnerTimeout_only s
  | .swapBoundary => execSwapBoundary_only s
  | .swapAbort => execSwapAbort_only s
  | .bootConfigWritten ok => execBootConfigWritten_only ok s
  | .bootConfigRetry ok => execBootConfigRetry_only ok s
  | .uiIslandPowered c => execUiIslandPowered_only c s
  | .uiConversion c m => execUiConversion_only c m s
  | .uiTestWindow c w => execUiTestWindow_only c w s
  | .uiTestCmd src c => execUiTestCmd_only src c s
  | .uiCalInterval c => execUiCalInterval_only c s
  | .uiCalCmd src c => execUiCalCmd_only src c s
  | .uiCalDone c ofs gain island => execUiCalDone_only c ofs gain island s
  | .uiRefCheck c ppm => execUiRefCheck_only c ppm s
  | .uiNe43Confirm c past => execUiNe43Confirm_only c past s
  | .uiTxsOverload c => execUiTxsOverload_only c s
  | .uiTxsRetry c => execUiTxsRetry_only c s
  | .uiTxsOn src c => execUiTxsOn_only src c s
  | .uiTrendReset c => execUiTrendReset_only c s
  | .uiCrumb src c pass => execUiCrumb_only src c pass s
  | .uiBarrier src c pass => execUiBarrier_only src c pass s
  | .uiBlockStop stop => execUiBlockStop_only stop s
  | .uiSharedExcCheck c v => execUiSharedExcCheck_only c v s
  | .aoCellCycle c m => execAoCellCycle_only c m s
  | .aoClockStepUp c => execAoClockStepUp_only c s
  | .aoBrownout c => execAoBrownout_only c s
  | .aoIslandRestart c => execAoIslandRestart_only c s
  | .aoBrownoutClear c => execAoBrownoutClear_only c s
  | .aoKeepalive echoes => execAoKeepalive_only echoes s
  | .aoKeepaliveLost c => execAoKeepaliveLost_only c s
  | .aoComplianceRetry c => execAoComplianceRetry_only c s
  | .aoSwitchReclose c => execAoSwitchReclose_only c s
  | .aoRestart src c => execAoRestart_only src c s
  | .aoCalDone c => execAoCalDone_only c s
  | .aoTrimApply src c => execAoTrimApply_only src c s
  | .aoTrimClear src c => execAoTrimClear_only src c s
  | .aoHartTx src c => execAoHartTx_only src c s
  | .aoHartTxStart c => execAoHartTxStart_only c s
  | .aoHartTxDone c => execAoHartTxDone_only c s
  | .aoHartCarrierDetect c => execAoHartCarrierDetect_only c s
  | .aoHartRxDone c bytes perr => execAoHartRxDone_only c bytes perr s
  | .aoCrust src c diff => execAoCrust_only src c diff s
  | .aoTrimEnter c span => execAoTrimEnter_only c span s
  | .aoTrimAdjust c up => execAoTrimAdjust_only c up s
  | .aoTrimStore c => execAoTrimStore_only c s
  | .aoTrimDiscard c => execAoTrimDiscard_only c s
  | .aoTrimTimeout c => execAoTrimTimeout_only c s
  | .aoBlockStop stop => execAoBlockStop_only stop s
  | .dioInputTransition c level at' => execDioInputTransition_only c level at' s
  | .dioLineBreak c => execDioLineBreak_only c s
  | .dioButtonStuck c => execDioButtonStuck_only c s
  | .dioBlinkPhase => execDioBlinkPhase_only s
  | .dioInrushEnd c => execDioInrushEnd_only c s
  | .dioKeepalive => execDioKeepalive_only s
  | .dioKeepaliveLost g => execDioKeepaliveLost_only g s
  | .dioOverload c curr => execDioOverload_only c curr s
  | .dioShortCircuit c => execDioShortCircuit_only c s
  | .dioOvertemp c => execDioOvertemp_only c s
  | .dioOvertempEnd c => execDioOvertempEnd_only c s
  | .dioOpenOn c => execDioOpenOn_only c s
  | .dioOpenOff c v pin => execDioOpenOff_only c v pin s
  | .dioShortFsp c v pin => execDioShortFsp_only c v pin s
  | .dioBackfeed c v pin => execDioBackfeed_only c v pin s
  | .dioPartnerDrive c v pin => execDioPartnerDrive_only c v pin s
  | .dioOvlRetry c => execDioOvlRetry_only c s
  | .dioRetryCmd src c => execDioRetryCmd_only src c s
  | .dioRetryCountReset c => execDioRetryCountReset_only c s
  | .dioGroupWarn g v => execDioGroupWarn_only g v s
  | .dioGroupLow g v => execDioGroupLow_only g v s
  | .dioGroupOvervolt g v => execDioGroupOvervolt_only g v s
  | .dioGroupLost g v => execDioGroupLost_only g v s
  | .dioGroupNormal g v => execDioGroupNormal_only g v s
  | .dioGroupShed g mean => execDioGroupShed_only g mean s
  | .dioShedRetry c => execDioShedRetry_only c s
  | .dioLampAverage c curr v settled => execDioLampAverage_only c curr v settled s
  | .dioLampProbe c curr => execDioLampProbe_only c curr s
  | .dioLearnPartDone c probe => execDioLearnPartDone_only c probe s
  | .dioLearn src c => execDioLearn_only src c s
  | .dioLearnClr src c => execDioLearnClr_only src c s
  | .dioCrumb src c pass => execDioCrumb_only src c pass s
  | .dioBarrier src c pass => execDioBarrier_only src c pass s
  | .dioCrust src c pass => execDioCrust_only src c pass s
  | .dioBlockStop stop => execDioBlockStop_only stop s
  | .psEdge c a b bLevel bChanged z => execPsEdge_only c a b bLevel bChanged z s
  | .psIndexEdge c => execPsIndexEdge_only c s
  | .psStandstill c => execPsStandstill_only c s
  | .psSetPos src c => execPsSetPos_only src c s
  | .psArmZ c => execPsArmZ_only c s
  | .psCmpWrite src c v => execPsCmpWrite_only src c v s
  | .psCrumb src c pass => execPsCrumb_only src c pass s
  | .psBarrier src c pass => execPsBarrier_only src c pass s
  | .psBlockStop stop => execPsBlockStop_only stop s
  | .psDiagClear c bit' => execPsDiagClear_only c bit' s
  | .scanStart dur => execScanStart_only dur s
  | .onDelayExpiry n => execOnDelayExpiry_only n s
  | .offDelayExpiry n => execOffDelayExpiry_only n s
  | .releaseDelayExpiry n => execReleaseDelayExpiry_only n s
  | .faultDelayExpiry n => execFaultDelayExpiry_only n s
  | .staleTimeout n => execStaleTimeout_only n s
  | .ptCmdOos src slot => execPtCmdOos_only src slot s
  | .ptCmdRts src slot => execPtCmdRts_only src slot s
  | .ptCmdSubst src slot => execPtCmdSubst_only src slot s
  | .almCmdAck src scope target => execAlmCmdAck_only src scope target s
  | .almCmdSilence src scope target => execAlmCmdSilence_only src scope target s
  | .almCmdShelve src scope target => execAlmCmdShelve_only src scope target s
  | .almCmdUnshelve src scope target => execAlmCmdUnshelve_only src scope target s
  | .almCmdBadOp src op scope target => execAlmCmdBadOp_only src op scope target s
  | .shelveExpiry n => execShelveExpiry_only n s
  | .foSettleExpiry g => execFoSettleExpiry_only g s
  | .imzResyncSend => execImzResyncSend_only s
  | .callT1Expiry n => execCallT1Expiry_only n s
  | .callT2Expiry n => execCallT2Expiry_only n s
  | .callT3Expiry n => execCallT3Expiry_only n s
  | .callClearedExpiry n => execCallClearedExpiry_only n s
  | .callStepRepeat n => execCallStepRepeat_only n s
  | .callClearRepeat n => execCallClearRepeat_only n s
  | .callUnitLost u => execCallUnitLost_only u s
  | .callCmdSelectDuty src eng session => execCallCmdSelectDuty_only src eng session s
  | .callCmdAckCall src eng session => execCallCmdAckCall_only src eng session s
  | .callCmdBadOp src session => execCallCmdBadOp_only src session s
  | .canFrameReceived k f age parity => execCanFrameReceived_only k f age parity s
  | .canTxRequest src k mask => execCanTxRequest_only src k mask s
  | .canTxAttemptEnd k b e tdcv age => execCanTxAttemptEnd_only k b e tdcv age s
  | .canTxAbort src k mask onBus => execCanTxAbort_only src k mask onBus s
  | .canError k field type tx heavy ident => execCanError_only k field type tx heavy ident s
  | .canBusoffRecovered k => execCanBusoffRecovered_only k s
  | .canDominantTimeout k => execCanDominantTimeout_only k s
  | .canModeWrite src k mode => execCanModeWrite_only src k mode s
  | .canModeChange k => execCanModeChange_only k s
  | .canIntegrated k => execCanIntegrated_only k s
  | .networkJoin => execNetworkJoin_only s
  | .addrClaimSend => execAddrClaimSend_only s
  | .heartbeatSend => execHeartbeatSend_only s
  | .addrClaimReceived f unitB => execAddrClaimReceived_only f unitB s
  | .addressConflictProbeEnd => execAddressConflictProbeEnd_only s
  | .heartbeatReceived f unitB => execHeartbeatReceived_only f unitB s
  | .timeRefSend => execTimeRefSend_only s
  | .timeFollowSend d => execTimeFollowSend_only d s
  | .timeRefReceived f => execTimeRefReceived_only f s
  | .timeFollowReceived f => execTimeFollowReceived_only f s
  | .timHoldover => execTimHoldover_only s
  | .timFree => execTimFree_only s
  | .almTransReceived f full => execAlmTransReceived_only f full s
  | .almPendingReceived f full => execAlmPendingReceived_only f full s
  | .almRetractReceived f full => execAlmRetractReceived_only f full s
  | .almFrameRelease => execAlmFrameRelease_only s
  | .floodDigestSend => execFloodDigestSend_only s
  | .floodDigestReceived f => execFloodDigestReceived_only f s
  | .floodEnd => execFloodEnd_only s
  | .callStepReceived f => execCallStepReceived_only f s
  | .callAckReceived f => execCallAckReceived_only f s
  | .pointStateSweep => execPointStateSweep_only s
  | .pointStateReceived f => execPointStateReceived_only f s
  | .digestSend => execDigestSend_only s
  | .digestReceived f => execDigestReceived_only f s
  | .cmdRegRead f => execCmdRegRead_only f s
  | .cmdRegWrite f => execCmdRegWrite_only f s
  | .cmdAlarm f => execCmdAlarm_only f s
  | .cmdPoint f => execCmdPoint_only f s
  | .cmdDuty f => execCmdDuty_only f s
  | .cmdStateReq f => execCmdStateReq_only f s
  | .cmdTimeSet f => execCmdTimeSet_only f s
  | .cmdConflict f => execCmdConflict_only f s
  | .rspReceived f => execRspReceived_only f s
  | .cmdRspTimeout tag => execCmdRspTimeout_only tag s
  | .cmdTagExpiry node tag => execCmdTagExpiry_only node tag s
  | .rcpXferData src chunk bytes => execRcpXferData_only src chunk bytes s
  | .recXferDataReceived f => execRecXferDataReceived_only f s
  | .recXferEndReceived f => execRecXferEndReceived_only f s
  | .recXferSendPace => execRecXferSendPace_only s
  | .memberLost m => execMemberLost_only m s
  | .mgrLost => execMgrLost_only s
  | .syncInPulse ok => execSyncInPulse_only ok s
  | .syncInLoss => execSyncInLoss_only s
  | .syncOutPulse => execSyncOutPulse_only s
  | .timSet src => execTimSet_only src s
  | .timSetAtPulse src => execTimSetAtPulse_only src s
  | .lvnLinkTrained lat => execLvnLinkTrained_only lat s
  | .lvnLaneDown l => execLvnLaneDown_only l s
  | .lvnLaneRetrain l ok => execLvnLaneRetrain_only l ok s
  | .lvHeartbeatSend => execLvHeartbeatSend_only s
  | .lvHeartbeatReceived d ok age => execLvHeartbeatReceived_only d ok age s
  | .lvHelloSend => execLvHelloSend_only s
  | .lvHelloReceived d ok => execLvHelloReceived_only d ok s
  | .roleNegotiation => execRoleNegotiation_only s
  | .peerWaitExpiry => execPeerWaitExpiry_only s
  | .epochBoundary bytes frames => execEpochBoundary_only bytes frames s
  | .lvEpochOpenReceived n base t ok => execLvEpochOpenReceived_only n base t ok s
  | .lvDeltaReceived recs bytes ok => execLvDeltaReceived_only recs bytes ok s
  | .lvCommitReceived n bytes frames flags crc ok => execLvCommitReceived_only n bytes frames flags crc ok s
  | .lvCmdFwdReceived d ok => execLvCmdFwdReceived_only d ok s
  | .lvFaultReceived volts swap ok => execLvFaultReceived_only volts swap ok s
  | .lvPresInFall => execLvPresInFall_only s
  | .presCheckExpiry volts swap => execPresCheckExpiry_only volts swap s
  | .lvHeartbeatLoss volts swap => execLvHeartbeatLoss_only volts swap s
  | .aoHeldRecheck c v low => execAoHeldRecheck_only c v low s
  | .splitCheckExpiry => execSplitCheckExpiry_only s
  | .splitPartnerLoss => execSplitPartnerLoss_only s
  | .revertHoldExpiry => execRevertHoldExpiry_only s
  | .lvnHandover src => execLvnHandover_only src s
  | .lvRevertReqReceived handover ok => execLvRevertReqReceived_only handover ok s
  | .lvRevertPlanReceived t ok => execLvRevertPlanReceived_only t ok s
  | .revertFreeze => execRevertFreeze_only s
  | .revertAckDeadline => execRevertAckDeadline_only s
  | .revertSwitch dio ao => execRevertSwitch_only dio ao s
  | .lvConfirmReceived dio ao ok => execLvConfirmReceived_only dio ao ok s
  | .lvRevertFailReceived ok => execLvRevertFailReceived_only ok s
  | .revertRelease => execRevertRelease_only s
  | .revertEnd => execRevertEnd_only s
  | .lvImageReceived d ok => execLvImageReceived_only d ok s
  | .partnerUpdateDone ok => execPartnerUpdateDone_only ok s
  | .lvnStop src stop => execLvnStop_only src stop s
  | .lvnLoopTest src depth => execLvnLoopTest_only src depth s
  | .lvnLoopDone errors => execLvnLoopDone_only errors s
  | .sliceClose n => execSliceClose_only n s
  | .recEntry sub => execRecEntry_only sub s
  | .sliceFlushExpiry => execSliceFlushExpiry_only s
  | .ringFlushExpiry => execRingFlushExpiry_only s
  | .recFlush => execRecFlush_only s
  | .pageCommitDone => execPageCommitDone_only s
  | .recCommitTimeout => execRecCommitTimeout_only s
  | .checkpointTimer => execCheckpointTimer_only s
  | .recRecovery => execRecRecovery_only s
  | .recRecoveryDone => execRecRecoveryDone_only s
  | .recFormat src key => execRecFormat_only src key s
  | .recStop stop => execRecStop_only stop s
  | .recReadSeq ring => execRecReadSeq_only ring s
  | .recFindTime ring => execRecFindTime_only ring s
  | .recReadNext ring => execRecReadNext_only ring s
  | .recReadOpen ring => execRecReadOpen_only ring s
  | .recReadDone media => execRecReadDone_only media s
  | .mmcCommandFail crc cmd rsp ok => execMmcCommandFail_only crc cmd rsp ok s
  | .mmcReinitTimer ok => execMmcReinitTimer_only ok s
  | .pnlUpdateRequest src tag split mode => execPnlUpdateRequest_only src tag split mode s
  | .pnlRailsReady => execPnlRailsReady_only s
  | .pnlRailIdle => execPnlRailIdle_only s
  | .pnlRailFault => execPnlRailFault_only s
  | .pnlRailRetry => execPnlRailRetry_only s
  | .pnlRailFaultRetry => execPnlRailFaultRetry_only s
  | .pnlRetry => execPnlRetry_only s
  | .pnlRefresh => execPnlRefresh_only s
  | .pnlTempSample mv => execPnlTempSample_only mv s
  | .pnlVcomChange => execPnlVcomChange_only s
  | .pnlFrameBoundary late => execPnlFrameBoundary_only late s
  | .fbApertureWrite src off v => execFbApertureWrite_only src off v s
  | .rndRedraw => execRndRedraw_only s
  | .rndPageSelect src page group => execRndPageSelect_only src page group s
  | .rndKeyUp => execRndKeyUp_only s
  | .rndKeyDown => execRndKeyDown_only s
  | .rndKeyPage => execRndKeyPage_only s
  | .rndKeySelect => execRndKeySelect_only s
  | .rndKeyAck => execRndKeyAck_only s
  | .rndKeyAckPage => execRndKeyAckPage_only s
  | .rndKeySilence => execRndKeySilence_only s
  | .rndKeyAckCall eng => execRndKeyAckCall_only eng s
  | .rndKeyDuty eng => execRndKeyDuty_only eng s
  | .rndKeyBad key => execRndKeyBad_only key s
  | .hostRead h mode3 header => execHostRead_only h mode3 header s
  | .hostWrite h mode3 bytes => execHostWrite_only h mode3 bytes s
  | .hostWriteApply h => execHostWriteApply_only h s
  | .hostSleepChange h level => execHostSleepChange_only h level s
  | .hostIdleDoorbell h idle => execHostIdleDoorbell_only h idle s
  | .hostDoorbell b payload => execHostDoorbell_only b payload s
  | .evrRecordWrite h => execEvrRecordWrite_only h s
  | .evrClaim h => execEvrClaim_only h s
  | .evrEoi h => execEvrEoi_only h s
  | .evrEnSet src n mask => execEvrEnSet_only src n mask s
  | .evrEnClr n mask => execEvrEnClr_only n mask s
  | .evrPndSet n mask => execEvrPndSet_only n mask s
  | .evrPndClr n mask => execEvrPndClr_only n mask s
  | .evrTargetChange src target => execEvrTargetChange_only src target s
  | .evrHoldWrite hold => execEvrHoldWrite_only hold s
  | .evrHoldoffExpiry h => execEvrHoldoffExpiry_only h s
  | .ageRefCheck c a b => execAgeRefCheck_only c a b s
  | .ageAoGain c err secs => execAgeAoGain_only c err secs s
  | .ageDioSwitch c r25 => execAgeDioSwitch_only c r25 s
  | .ageTcxoSample => execAgeTcxoSample_only s
  | .ageHoldTest cap esr partner abandoned => execAgeHoldTest_only cap esr partner abandoned s
  | .ageEmmcWear lifeA lifeB eol => execAgeEmmcWear_only lifeA lifeB eol s
  | .ageBarrierTest d r => execAgeBarrierTest_only d r s
  | .ageLedgerPage ok => execAgeLedgerPage_only ok s
  | .ageLedgerScanDone => execAgeLedgerScanDone_only s
  | .ageAckDue src item => execAgeAckDue_only src item s
  | .ageRebase src item => execAgeRebase_only src item s
  | .ageTestHold cap esr partner abandoned => execAgeTestHold_only cap esr partner abandoned s
  | .ageMeasure m => execAgeMeasure_only m s
  | .ageCmdBadOp src => execAgeCmdBadOp_only src s
  | .periodicLoopback t pass retry cause => execPeriodicLoopback_only t pass retry cause s
  | .dioFieldLoopback src sink => execDioFieldLoopback_only src sink s
  | .fieldLoopbackDone levels skew => execFieldLoopbackDone_only levels skew s
  | .jtagInstruction ir trstn => execJtagInstruction_only ir trstn s
  | .registerWrite src addr value => execRegisterWrite_only src addr value s
  | .readClear addr => execReadClear_only addr s
  | .timeLoRead addr => execTimeLoRead_only addr s
  | .networkTimeWaitExpiry => execNetworkTimeWaitExpiry_only s
  | .aoIslandPowered c => execAoIslandPowered_only c s
  | .dioDiagClear c bit' => execDioDiagClear_only c bit' s
  | .psPulseRejected c => execPsPulseRejected_only c s
  | .floodStateReqPace => execFloodStateReqPace_only s
  | .lvPresInRise => execLvPresInRise_only s
  | .lvImageSend => execLvImageSend_only s
  | .recipeSectionReloadDone sec => execRecipeSectionReloadDone_only sec s

theorem partsOf_no_pending (c : Instr) : (partsOf c).contains .pending = false := by
  cases c <;> rfl

/-- Settles O59: each meaning's frame lemma gives the next state, and no list of parts names the queue. -/
theorem everyCommandCompletesAndKeepsTheRest : Obligations.EveryCommandCompletesAndKeepsTheRest := by
  intro c s
  obtain ⟨t, hnext, honly⟩ := exec_next_only s c
  exact ⟨⟨t, hnext, honly, honly.same .pending (partsOf_no_pending c)⟩, partsOf_no_pending c⟩

/-! ### Steps (R6, R60, R70) -/

theorem State.clockCycle_mono (s : State) : s.clockCycle.mono = s.mono + 1 := by
  unfold State.clockCycle
  dsimp only
  split
  · rfl
  · split <;> rfl

/-- Within the bounds of the rate correction a cycle is one increment of system time (R347). -/
theorem State.clockCycle_now (s : State) (h : s.tim.frac + s.tim.corr < 1000000000)
    (g : -1000000000 < s.tim.frac + s.tim.corr) : s.clockCycle.now = s.now + 1 := by
  unfold State.clockCycle
  dsimp only
  rw [if_neg (by omega), if_neg (by omega)]

theorem State.clockCycle_sup (s : State) : s.clockCycle.sup = s.sup := s.clockCycle_only.same .sup rfl

theorem State.clockCycle_powered (s : State) : s.clockCycle.powered = s.powered := by
  have hsys : s.clockCycle.sys = s.sys := s.clockCycle_only.same .sys rfl
  simp only [State.powered, State.clockCycle_sup, hsys]

theorem feedsMeasure_of_not_due (s : State) (h : ¬ (s.powered = true ∧ s.mono % 5000 = 0)) : feedsMeasure s = s := if_neg h

/-- A measurement that is due: each feed takes a value, 0 where it is reversed, and the rest of the supply stays (R59, R60). -/
theorem feedsMeasure_of_due (s : State) (h : s.powered = true ∧ s.mono % 5000 = 0) :
    (feedsMeasure s).sup = { s.sup with feeds := (feedsMeasure s).sup.feeds } ∧
    ∀ f : Fin 2, (feedsMeasure s).sup.feeds[f] = s.sup.feeds[f].measured (feedsMeasure s).sup.feeds[f].volt ∧
      (s.sup.feeds[f].rev = true → (feedsMeasure s).sup.feeds[f].volt = 0) := by
  unfold feedsMeasure
  rw [if_pos h]
  refine ⟨rfl, fun f => ⟨?_, fun hrev => ?_⟩⟩
  · simp only [Feed.measured, Fin.getElem_fin, Vector.getElem_mapFinIdx]
  · have hrev' : s.sup.feeds[f.val].rev = true := hrev
    simp only [Feed.measured, Fin.getElem_fin, Vector.getElem_mapFinIdx, hrev', if_true]

theorem State.tick_mono (s : State) : s.tick.mono = s.mono + 1 :=
  ((feedsMeasure_only s.clockCycle).same .mono rfl).trans s.clockCycle_mono

theorem State.tick_now (s : State) : s.tick.now = s.clockCycle.now := (feedsMeasure_only s.clockCycle).same .now rfl

theorem State.tick_of_not_due (s : State) (h : ¬ (s.powered = true ∧ (s.mono + 1) % 5000 = 0)) : s.tick = s.clockCycle :=
  feedsMeasure_of_not_due _ (by rwa [s.clockCycle_powered, s.clockCycle_mono])

theorem State.tick_of_due (s : State) (h : s.powered = true ∧ (s.mono + 1) % 5000 = 0) :
    s.tick.sup = { s.sup with feeds := s.tick.sup.feeds } ∧
    ∀ f : Fin 2, s.tick.sup.feeds[f] = s.sup.feeds[f].measured s.tick.sup.feeds[f].volt ∧
      (s.sup.feeds[f].rev = true → s.tick.sup.feeds[f].volt = 0) := by
  have hdue := feedsMeasure_of_due s.clockCycle (by rwa [s.clockCycle_powered, s.clockCycle_mono])
  rwa [s.clockCycle_sup] at hdue

theorem step_cons (c : Instr) (s : State) : step { s with pending := c :: s.pending } = exec c s := rfl

theorem step_nil (s : State) (h : s.pending = []) : step s = .next s.tick := by
  simp only [step, h]

/-- Settles O57: the queue's front is what `step` dispatches on, and on an empty queue `tick` is a clock cycle followed by
the feeds' measurement where it is due. -/
theorem aStepTakesTheFrontCommand : Obligations.AStepTakesTheFrontCommand := by
  refine ⟨step_cons, fun s hq => ?_, fun _ _ _ => rfl⟩
  refine ⟨s.tick, step_nil s hq, s.tick_mono, s.tick_only.mono rfl, fun hnot => ?_, fun hp hm => s.tick_of_due ⟨hp, hm⟩,
    fun hlt hgt => s.tick_now.trans (s.clockCycle_now hlt hgt)⟩
  rw [s.tick_of_not_due hnot]
  exact s.clockCycle_only

/-! ### Reads with effects (R5, R8) -/

/-- No register with an RC field is a claim register or the low half of a timestamp. -/
theorem rcRegs_plain : ∀ a ∈ rcRegs, claimRegs.contains a = false ∧ loRegs.contains a = false := by decide

/-- No low half of a timestamp is a claim register or holds an RC field. -/
theorem loRegs_plain : ∀ a ∈ loRegs, claimRegs.contains a = false ∧ a ∉ rcRegs := by decide

theorem clearCan_of_no_count (k : Fin 4) (off : Nat) (s : State) (h : ¬ (off = 0x014 ∨ off = 0x018 ∨ off = 0x01C)) :
    clearCan k off s = s := by
  obtain ⟨h14, h18, h1C⟩ : off ≠ 0x014 ∧ off ≠ 0x018 ∧ off ≠ 0x01C := by simpa only [not_or] using h
  unfold clearCan State.setCan
  simp only [Fin.getElem_fin, Vector.set_getElem_self]

theorem mem_rcRegs_of_can (a : Nat) (hcan : 0x060000 ≤ a ∧ a < 0x064000)
    (h : a % 0x1000 = 0x014 ∨ a % 0x1000 = 0x018 ∨ a % 0x1000 = 0x01C) : a ∈ rcRegs := by
  refine List.mem_append_right _ (List.mem_flatMap.mpr ⟨(a - 0x060000) / 0x1000, List.mem_range.mpr (by omega), ?_⟩)
  simp only [List.mem_cons, List.not_mem_nil, or_false]
  omega

/-- A read clears nothing of a register without an RC field (R5). -/
theorem rcClear_of_not_mem (a : Nat) (s : State) (h : a ∉ rcRegs) : rcClear a s = s := by
  unfold rcClear
  split
  case h_22 =>
    split
    case isTrue hcan => exact clearCan_of_no_count _ _ s fun hoff => h (mem_rcRegs_of_can a hcan hoff)
    case isFalse => rfl
  all_goals exact absurd (by decide) h

theorem rcClear_canCounts (k : Fin 4) (s : State) : rcClear (0x060018 + 0x1000 * k.val) s = s.setCan k fun c =>
    { c with cntBusoff := 0, cntDbit := 0, cntForeign := 0, cntPxe := 0 } := by
  match k with
  | 0 => rfl
  | 1 => rfl
  | 2 => rfl
  | 3 => rfl

theorem latchHi_of_not_lo (a : Nat) (s : State) (h : loRegs.contains a = false) : latchHi a s = s := by
  simp only [latchHi, h, Bool.false_eq_true, if_false]

theorem busFetch_refused (a : Nat) (s : State) (ha : claimRegs.contains a = false) (h : (busRead s a).1 ≠ 0) :
    busFetch a s = ((busRead s a).1, 0, s) := by
  simp only [busFetch, ha, h, Bool.false_eq_true, if_false]

theorem busFetch_answered (a : Nat) (s : State) (ha : claimRegs.contains a = false) (h : (busRead s a).1 = 0) :
    busFetch a s = (0, (busRead s a).2, latchHi a (rcClear a s)) := by
  simp only [busFetch, ha, h, Bool.false_eq_true, if_false, if_true]

/-- The state with the code and the word of a read shown in it. -/
def State.shows (s : State) (code : Nat) (w : Word) : State := { s with sys := { s.sys with readOut := (code, w) } }

@[simp] theorem State.shows_can (s : State) (code : Nat) (w : Word) : (s.shows code w).can = s.can := rfl

theorem Only.shows {l : List Part} {s t : State} (h : Only l s t) (k : Part.sub [.sys] l = true) (code : Nat) (w : Word) :
    Only l s (t.shows code w) := h.set_sys k

theorem readNow_refused (a : Nat) (s : State) (ha : claimRegs.contains a = false) (h : (busRead s a).1 ≠ 0) :
    readNow a s = s.shows (busRead s a).1 0 := by
  simp only [readNow, busFetch_refused a s ha h, State.shows]

theorem readNow_answered (a : Nat) (s : State) (ha : claimRegs.contains a = false) (h : (busRead s a).1 = 0) :
    readNow a s = (latchHi a (rcClear a s)).shows 0 (busRead s a).2 := by
  simp only [readNow, busFetch_answered a s ha h, State.shows]

theorem exec_readClear (addr : BitVec 24) (s : State) : exec (.readClear addr) s =
    .next (if s.powered ∧ rcRegs.contains addr.toNat then readNow addr.toNat s else s) := rfl

theorem exec_timeLoRead (addr : BitVec 24) (s : State) : exec (.timeLoRead addr) s =
    .next (if s.powered ∧ loRegs.contains addr.toNat then readNow addr.toNat s else s) := rfl

theorem runs_readClear_idle (addr : BitVec 24) (s : State) (h : s.powered = false ∨ rcRegs.contains addr.toNat = false) :
    Runs (.readClear addr) s fun t => t = s := by
  refine ⟨s, ?_, rfl⟩
  rw [exec_readClear, if_neg]
  rcases h with h | h <;> simp only [h, Bool.false_eq_true, false_and, and_false, not_false_eq_true]

theorem runs_timeLoRead_idle (addr : BitVec 24) (s : State) (h : s.powered = false ∨ loRegs.contains addr.toNat = false) :
    Runs (.timeLoRead addr) s fun t => t = s := by
  refine ⟨s, ?_, rfl⟩
  rw [exec_timeLoRead, if_neg]
  rcases h with h | h <;> simp only [h, Bool.false_eq_true, false_and, and_false, not_false_eq_true]

section
variable {addr : BitVec 24} {s : State}

theorem exec_readClear_refused (hp : s.powered = true) (hr : rcRegs.contains addr.toNat = true)
    (h : (busRead s addr.toNat).1 ≠ 0) : exec (.readClear addr) s = .next (s.shows (busRead s addr.toNat).1 0) := by
  obtain ⟨hclaim, -⟩ := rcRegs_plain _ (List.contains_iff_mem.mp hr)
  rw [exec_readClear, if_pos ⟨hp, hr⟩, readNow_refused _ _ hclaim h]

theorem exec_readClear_answered (hp : s.powered = true) (hr : rcRegs.contains addr.toNat = true)
    (h : (busRead s addr.toNat).1 = 0) :
    exec (.readClear addr) s = .next ((rcClear addr.toNat s).shows 0 (busRead s addr.toNat).2) := by
  obtain ⟨hclaim, hlo⟩ := rcRegs_plain _ (List.contains_iff_mem.mp hr)
  rw [exec_readClear, if_pos ⟨hp, hr⟩, readNow_answered _ _ hclaim h, latchHi_of_not_lo _ _ hlo]

theorem exec_timeLoRead_refused (hp : s.powered = true) (hr : loRegs.contains addr.toNat = true)
    (h : (busRead s addr.toNat).1 ≠ 0) : exec (.timeLoRead addr) s = .next (s.shows (busRead s addr.toNat).1 0) := by
  obtain ⟨hclaim, -⟩ := loRegs_plain _ (List.contains_iff_mem.mp hr)
  rw [exec_timeLoRead, if_pos ⟨hp, hr⟩, readNow_refused _ _ hclaim h]

theorem exec_timeLoRead_answered (hp : s.powered = true) (hr : loRegs.contains addr.toNat = true)
    (h : (busRead s addr.toNat).1 = 0) :
    exec (.timeLoRead addr) s = .next ((latchHi addr.toNat s).shows 0 (busRead s addr.toNat).2) := by
  obtain ⟨hclaim, hrc⟩ := loRegs_plain _ (List.contains_iff_mem.mp hr)
  rw [exec_timeLoRead, if_pos ⟨hp, hr⟩, readNow_answered _ _ hclaim h, rcClear_of_not_mem _ _ hrc]

end

theorem latchHi_hiLatch (a : Nat) (s : State) (h : loRegs.contains a = true) (w : Word) :
    tblGet w (latchHi a s).sys.hiLatch a = (regLive s (a + 4)).getD 0 := by
  simp only [latchHi, h, if_true, tblGet_tblIns_self]

theorem latchHi_werr (a : Nat) (s : State) : (latchHi a s).sys.werr = s.sys.werr := by
  unfold latchHi
  split <;> rfl

/-! ### Loopbacks (R43, R483) -/

theorem isolate_isIsolated (block cell : Nat) (s : State) : isIsolated block cell (isolate block cell s) = true := by
  unfold isolate
  split
  case isTrue h => exact h
  case isFalse => exact List.contains_iff_mem.mpr (List.mem_append_right _ List.mem_cons_self)

theorem cellIsolate_isIsolated (block cell : Nat) (s : State) : isIsolated block cell (cellIsolate block cell s) = true := by
  unfold cellIsolate
  split <;> exact isolate_isIsolated _ _ _

theorem cellFault_isIsolated (block cell cause : Nat) (s : State) :
    isIsolated block cell (cellFault block cell cause s) = true := by
  have hnotify : ∀ u v, (cellNotify u v).sys = v.sys := fun u v => (cellNotify_only u v).same .sys rfl
  rw [cellFault, isIsolated, hnotify]
  exact cellIsolate_isIsolated _ _ _

theorem periodicLoop_of_idle (l : LoopCell) (pass retry : Bool) (cause : Fin 5) (s : State)
    (h : pass = true ∨ retry = true ∨ loopCell s l = none) : periodicLoop l pass retry cause s = s := by
  unfold periodicLoop
  split
  case h_1 => rfl
  case h_2 b c hcell =>
    have hor : (pass || retry) = true := by
      rcases h with rfl | rfl | h
      · rfl
      · exact Bool.or_true _
      · rw [hcell] at h; cases h
    rw [if_pos hor]

theorem periodicLoop_of_failed_retry (l : LoopCell) (cause : Fin 5) (s : State) (b c : Nat)
    (h : loopCell s l = some (b, c)) : periodicLoop l false false cause s = cellFault b c (cause.val + 1) s := by
  simp only [periodicLoop, h, Bool.or_self, Bool.false_eq_true, if_false]

/-! ### The TAP (R58, R487) -/

theorem letGo_sys (s : State) : (letGo s).sys = { s.sys with outEn := false } := by
  have hui : (letGo s).sys = (dioReleaseAll (setOut false (clearHand (aoLetGo s)))).sys := (uiListenEntry_only _).same .sys rfl
  have hdio : (dioReleaseAll (setOut false (clearHand (aoLetGo s)))).sys = (setOut false (clearHand (aoLetGo s))).sys :=
    (dioReleaseAll_only _).same .sys rfl
  have hao : (aoLetGo s).sys = s.sys := (aoLetGo_only s).same .sys rfl
  rw [hui, hdio]
  simp only [setOut, clearHand, hao]

theorem pnlCut_sys (s : State) : (pnlCut s).sys = { s.sys with pins := { s.sys.pins with pnlPwren := false } } := by
  have hslots : (s.pnl.slots.foldl slotAbandon s).sys = s.sys :=
    (Only.foldl slotAbandon_only (Only.refl [.evr, .pnl] s)).same .sys rfl
  simp only [pnlCut, State.setPnl, hslots]

/-- What an entry into the safe state does before the mode changes. -/
def beforeSafe (cause : Nat) (s : State) : State :=
  let s1 := swapAbort (if pairHolds s then faultFrame cause s else s)
  let s2 := dioMark (if s.standby then s1 else lastBeat s1)
  if s.isPaired then aoEndSpell s2 else s2

theorem beforeSafe_only (cause : Nat) (s : State) :
    Only [.drawn, .rcp, .evr, .ao, .dio, .can, .imz, .lvn] s (beforeSafe cause s) := by
  have hfault := Only.ite (c := pairHolds s = true) ((faultFrame_only cause s).mono rfl)
    (Only.refl [.drawn, .rcp, .evr, .ao, .dio, .can, .imz, .lvn] s)
  have hswap := Only.after (swapAbort_only _) rfl hfault
  have hmark := Only.after (dioMark_only _) rfl (Only.ite (c := s.standby = true) hswap (Only.after (lastBeat_only _) rfl hswap))
  exact Only.ite (Only.after (aoEndSpell_only _) rfl hmark) hmark

theorem safeEntry_eq (cause : Nat) (s : State) : safeEntry cause s =
    restat (pnlCut (cellNotify (beforeSafe cause s) (uiQuiet
      (if s.isPaired then letGo (safeMode (beforeSafe cause s)) else driveSafe (safeMode (beforeSafe cause s)))))) := rfl

theorem safeMode_sys (s : State) : (safeMode s).sys =
    { s.sys with mode := .safe, power := .safe, pins := { s.sys.pins with faultLow := true, presOut := false } } := rfl

/-- What is done to the outputs on entry leaves the rest of the module-level state as it is. -/
theorem safeOutputs_sys (s : State) (paired : Bool) :
    ∃ b, (if paired then letGo s else driveSafe s).sys = { s.sys with outEn := b } := by
  cases paired
  · exact ⟨s.sys.outEn, (driveSafe_only s).same .sys rfl⟩
  · exact ⟨false, letGo_sys s⟩

/-- The safe state is shown on entry, and the latch of the fault stays as it was (R58). -/
theorem safeEntry_sys (cause : Nat) (s : State) : (safeEntry cause s).sys.mode = .safe ∧
    (safeEntry cause s).sys.fltLatched = s.sys.fltLatched ∧ (safeEntry cause s).sys.pins.faultLow = true := by
  have hbefore : (beforeSafe cause s).sys = s.sys := (beforeSafe_only cause s).same .sys rfl
  obtain ⟨b, hout⟩ := safeOutputs_sys (safeMode (beforeSafe cause s)) s.isPaired
  have hquiet : ∀ v u, (cellNotify v (uiQuiet u)).sys = u.sys := fun v u =>
    ((cellNotify_only v (uiQuiet u)).same .sys rfl).trans ((uiQuiet_only u).same .sys rfl)
  rw [safeEntry_eq]
  simp only [restat, pnlCut_sys, hquiet, hout, safeMode_sys, hbefore, and_self]

/-- A module-level fault is latched and shown, and outside LAST_BREATH the module is then in the safe state (R57, R58). -/
theorem moduleFault_sys (block cell cause : Nat) (s : State) :
    (moduleFault block cell cause s).sys.fltLatched = true ∧ (moduleFault block cell cause s).sys.pins.faultLow = true ∧
    (s.sys.mode ≠ .safe → s.sys.mode ≠ .lastBreath → (moduleFault block cell cause s).sys.mode = .safe) := by
  unfold moduleFault
  dsimp only
  split
  case isTrue h => exact ⟨rfl, rfl, fun hsafe hbreath => absurd h (not_or.mpr ⟨hsafe, hbreath⟩)⟩
  case isFalse =>
    obtain ⟨hmode, hlatch, hlow⟩ := safeEntry_sys cause _
    exact ⟨hlatch, hlow, fun _ _ => hmode⟩

theorem jtagLoad_in_reset (i : BitVec 4) (s : State) : jtagLoad i false s = { s with tst := { s.tst with jtag := 1 } } := by
  simp only [jtagLoad, Bool.false_eq_true, false_and, if_false]

theorem jtagLoad_of_not_takes (i : BitVec 4) (s : State) (h : jtagTakes i = false) :
    jtagLoad i true s = { s with tst := { s.tst with jtag := i } } := by
  simp only [jtagLoad, h, Bool.false_eq_true, false_and, and_false, if_false, if_true]

theorem jtagLoad_of_takes (i : BitVec 4) (s : State) (h : jtagTakes i = true) (hgood : s.sup.powerGood = true)
    (hrst : s.sys.inp.resetn = true) :
    jtagLoad i true s = supervisorFault 0 0x0C { s with tst := { s.tst with jtag := i } } := by
  simp only [jtagLoad, h, hgood, hrst, and_self, if_true]

/-! ### The obligation -/

theorem runs_readClear_refused (addr : BitVec 24) (s : State) (hp : s.powered = true)
    (hr : rcRegs.contains addr.toNat = true) (h : (busRead s addr.toNat).1 ≠ 0) :
    Runs (.readClear addr) s fun t => t.sys.readOut = ((busRead s addr.toNat).1, 0) ∧ t.sys.werr = s.sys.werr ∧
      Only [.sys] s t :=
  ⟨_, exec_readClear_refused hp hr h, rfl, rfl, (Only.refl _ s).shows rfl _ _⟩

theorem runs_timeLoRead_refused (addr : BitVec 24) (s : State) (hp : s.powered = true)
    (hr : loRegs.contains addr.toNat = true) (h : (busRead s addr.toNat).1 ≠ 0) :
    Runs (.timeLoRead addr) s fun t => t.sys = { s.sys with readOut := ((busRead s addr.toNat).1, 0) } ∧ Only [.sys] s t :=
  ⟨_, exec_timeLoRead_refused hp hr h, rfl, (Only.refl _ s).shows rfl _ _⟩

/-- A read of a _LO register that answers holds the present high half (R8). -/
theorem runs_timeLoRead_answered (addr : BitVec 24) (s : State) (hp : s.powered = true)
    (hr : loRegs.contains addr.toNat = true) (h : (busRead s addr.toNat).1 = 0) :
    Runs (.timeLoRead addr) s fun t => t.sys.readOut = (0, (busRead s addr.toNat).2) ∧
      (∀ w : Word, tblGet w t.sys.hiLatch addr.toNat = (regLive s (addr.toNat + 4)).getD 0) ∧ t.sys.werr = s.sys.werr ∧
      Only [.sys] s t :=
  ⟨_, exec_timeLoRead_answered hp hr h, rfl, latchHi_hiLatch _ s hr, latchHi_werr _ s, (latchHi_only _ s).shows rfl _ _⟩

theorem runs_periodicLoopback_failed_retry (l : LoopCell) (cause : Fin 5) (s : State) (b c : Nat)
    (h : loopCell s l = some (b, c)) : Runs (.periodicLoopback l false false cause) s fun t =>
      isIsolated b c t = true ∧ t.pending = s.pending ∧ t.now = s.now := by
  have hframe := cellFault_only b c (cause.val + 1) s
  refine ⟨cellFault b c (cause.val + 1) s, ?_, cellFault_isIsolated _ _ _ _, hframe.same .pending rfl, hframe.same .now rfl⟩
  exact congrArg Host.Outcome.next (periodicLoop_of_failed_retry l cause s b c h)

/-- An instruction that takes the contacts is a module-level fault that leaves the instruction loaded (R487). -/
theorem runs_jtagInstruction_takes (i : BitVec 4) (s : State) (h : jtagTakes i = true) (hgood : s.sup.powerGood = true)
    (hrst : s.sys.inp.resetn = true) : Runs (.jtagInstruction i true) s fun t =>
      t.tst = { s.tst with jtag := i } ∧ t.sys.fltLatched = true ∧ t.sys.pins.faultLow = true ∧
      (s.sys.mode ≠ .safe → s.sys.mode ≠ .lastBreath → t.sys.mode = .safe) :=
  ⟨_, congrArg Host.Outcome.next (jtagLoad_of_takes i s h hgood hrst), (supervisorFault_only _ _ _).same .tst rfl,
    moduleFault_sys 0x2F 0 0x0C _⟩

/-- Settles O55: a read that answers is `rcClear` or `latchHi` with the word shown, a failed retry ends in `isolate`, and a
contact-taking instruction in `moduleFault`. -/
theorem readsClearLatchAndLoopbacksIsolate : Obligations.ReadsClearLatchAndLoopbacksIsolate := by
  intro s
  refine ⟨fun addr => ⟨runs_readClear_idle addr s, fun hp hr => ⟨runs_readClear_refused addr s hp hr, fun h => ?_⟩,
      runs_timeLoRead_idle addr s,
      fun hp hr => ⟨runs_timeLoRead_refused addr s hp hr, runs_timeLoRead_answered addr s hp hr⟩⟩,
    fun l pass retry cause => ⟨fun h => ⟨s, congrArg Host.Outcome.next (periodicLoop_of_idle l pass retry cause s h), rfl⟩,
      fun b c => runs_periodicLoopback_failed_retry l cause s b c⟩,
    fun i => ⟨⟨_, congrArg Host.Outcome.next (jtagLoad_in_reset i s), rfl, (Only.refl _ s).set_tst rfl⟩,
      fun h => ⟨_, congrArg Host.Outcome.next (jtagLoad_of_not_takes i s h), rfl, (Only.refl _ s).set_tst rfl⟩,
      runs_jtagInstruction_takes i s⟩⟩
  refine ⟨_, exec_readClear_answered hp hr h, rfl, ?_, ?_, ?_, ?_, ?_, ?_, ?_, fun k hk => ?_⟩
  · rintro rfl
    exact ⟨rfl, ((Only.refl _ s).set_sys rfl).shows rfl _ _⟩
  · rintro rfl
    exact ⟨rfl, ((s.setAge_only _).mono rfl).shows rfl _ _⟩
  · rintro rfl
    exact ⟨rfl, ((Only.refl _ s).set_pev rfl).shows rfl _ _⟩
  · rintro rfl
    exact ⟨rfl, ((s.setImz_only _).mono rfl).shows rfl _ _⟩
  · rintro rfl
    exact ⟨rfl, ((s.setTim_only _).mono rfl).shows rfl _ _⟩
  · rintro rfl
    exact ⟨rfl, ((s.setRec_only _).mono rfl).shows rfl _ _⟩
  · rintro rfl
    exact ⟨rfl, ((s.setPnl_only _).mono rfl).shows rfl _ _⟩
  · rw [hk, rcClear_canCounts]
    simp only [State.shows_can]
    exact ⟨s.setCan_can_self k _, fun j hj => s.setCan_can_other k j _ hj, ((s.setCan_only k _).mono rfl).shows rfl _ _⟩

end Sys2Proof.Machine
end

section
/-! Proofs about the supervisor: the module-level faults that it finds (R52, R57, R58), its monitor of supply, clocks and
temperature (R34, R64, R70, R71, R78, R79), what begins and ends a run (R30, R33, R58, R62, R80, R502), and the state that
reset leaves (R24, R38, R491). -/
namespace Sys2Proof.Machine

open Sys2Proof

/-! ### Guarded commands -/

/-- A command with a guard runs to its guarded state where the guard holds. -/
theorem Runs.of_guard {c : Instr} {s t u : State} {P : State → Prop} {g : Prop} [Decidable g]
    (h : exec c s = .next (if g then t else u)) (hg : g) (ht : P t) : Runs c s P :=
  ⟨t, h.trans (congrArg Host.Outcome.next (if_pos hg)), ht⟩

theorem Runs.of_not_guard {c : Instr} {s t u : State} {P : State → Prop} {g : Prop} [Decidable g]
    (h : exec c s = .next (if g then t else u)) (hg : ¬ g) (hu : P u) : Runs c s P :=
  ⟨u, h.trans (congrArg Host.Outcome.next (if_neg hg)), hu⟩

/-! ### Module-level faults that the supervisor finds (R52, R57, R58) -/

/-- The safe state with a fault latched and shown, in which no scan runs (R57, R58). -/
def SafeWithFault (t : State) : Prop :=
  t.sys.mode = .safe ∧ t.sys.power = .safe ∧ t.sys.fltLatched = true ∧ t.sys.pins.faultLow = true ∧ t.pev.running = false

/-- What an entry into the safe state does to outputs and contacts, after its mode is set, leaves the points and the power
state. -/
theorem safeEntry_after_safeMode (cause : Nat) (s : State) :
    Only [.sys, .evr, .ui, .ao, .dio, .dioBlk, .pnl] (safeMode (beforeSafe cause s)) (safeEntry cause s) ∧
    (safeEntry cause s).sys.power = (safeMode (beforeSafe cause s)).sys.power := by
  have hquiet : ∀ v u, (cellNotify v (uiQuiet u)).sys = u.sys := fun v u =>
    ((cellNotify_only v (uiQuiet u)).same .sys rfl).trans ((uiQuiet_only u).same .sys rfl)
  have hout : ∀ u, Only [.sys, .ui, .ao, .dio, .dioBlk] u (if s.isPaired then letGo u else driveSafe u) := fun u =>
    Only.ite (letGo_only u) ((driveSafe_only u).mono rfl)
  obtain ⟨b, hsys⟩ := safeOutputs_sys (safeMode (beforeSafe cause s)) s.isPaired
  rw [safeEntry_eq]
  constructor
  · exact Only.after (restat_only _) rfl (Only.after (pnlCut_only _) rfl (Only.after (cellNotify_only _ _) rfl
      (Only.after (uiQuiet_only _) rfl ((hout _).mono rfl))))
  · simp only [restat, pnlCut_sys, hquiet, hsys]

theorem safeEntry_power (cause : Nat) (s : State) : (safeEntry cause s).sys.power = .safe :=
  (safeEntry_after_safeMode cause s).2

theorem safeEntry_running (cause : Nat) (s : State) : (safeEntry cause s).pev.running = false :=
  congrArg Pev.running ((safeEntry_after_safeMode cause s).1.same .pev rfl)

theorem moduleFault_safe (block cell cause : Nat) (s : State) (hsafe : s.sys.mode ≠ .safe)
    (hbreath : s.sys.mode ≠ .lastBreath) : SafeWithFault (moduleFault block cell cause s) := by
  obtain ⟨hlatch, hlow, hmode⟩ := moduleFault_sys block cell cause s
  refine ⟨hmode hsafe hbreath, ?_, hlatch, hlow, ?_⟩ <;> rw [moduleFault, if_neg (not_or.mpr ⟨hsafe, hbreath⟩)]
  · exact safeEntry_power _ _
  · exact safeEntry_running _ _

/-- What waits for the region fails before the module does, and that leaves the mode (R52). -/
theorem readyLimit_safe (r : Fin 5) (s : State) (hdue : readyDue r s = true) (hsafe : s.sys.mode ≠ .safe)
    (hbreath : s.sys.mode ≠ .lastBreath) : SafeWithFault (readyLimit r s) := by
  have hfail : ∀ waits : List FabOut,
      (waits.foldl (fun a o => pointLost o.req.point (fabReport o o.last a)) s).sys = s.sys := fun waits =>
    (Only.foldl (l := [.fab, .pev]) (fun u o => Only.after (pointLost_only _ _) rfl ((fabReport_only o o.last u).mono rfl))
      (Only.refl _ s)).same .sys rfl
  rw [readyLimit, if_pos hdue]
  refine moduleFault_safe _ _ _ _ ?_ ?_ <;> rwa [hfail]

/-- Settles O31: each of the five commands ends in `moduleFault`, which enters the safe state from every other mode but
LAST_BREATH. -/
theorem supervisorFaultsEnterTheSafeState : Obligations.SupervisorFaultsEnterTheSafeState := by
  rintro s hlive hsafe hbreath c (rfl | ⟨timeout, rfl⟩ | rfl | rfl | ⟨r, hdue, rfl⟩)
  · exact .of_guard rfl hlive (moduleFault_safe _ _ _ _ hsafe hbreath)
  · exact .of_guard rfl hlive (moduleFault_safe _ _ _ _ hsafe hbreath)
  · exact .of_guard rfl hlive (moduleFault_safe _ _ _ _ hsafe hbreath)
  · exact .of_guard rfl hlive (moduleFault_safe _ _ _ _ hsafe hbreath)
  · exact ⟨_, rfl, readyLimit_safe r s hdue hsafe hbreath⟩

/-! ### Events of the supply monitor (R79) -/

theorem supplyRaise_raised (code : Nat) (v : Half) (s : State) : Raised 52 (supplyWord code v) s (supplyRaise code v s) :=
  Vector.getElem_set_self (xs := s.evr.srcs) (i := 52) _

section
variable (q : Quantity) (code : Nat) (v : Half) (s : State)

theorem supplyEvent_of_free (h : s.sup.holdoff[quantityIndex q].running = false) : supplyEvent q code v s =
    (supplyRaise code v s).setSup fun u =>
      { u with holdoff := u.holdoff.set (quantityIndex q) { running := true, last := code } } := by
  rw [supplyEvent, if_neg (Bool.eq_false_iff.mp h)]
  rfl

theorem supplyEvent_raised (h : s.sup.holdoff[quantityIndex q].running = false) :
    Raised 52 (supplyWord code v) s (supplyEvent q code v s) := by
  rw [supplyEvent_of_free q code v s h]
  exact supplyRaise_raised code v s

theorem supplyEvent_holdoff (h : s.sup.holdoff[quantityIndex q].running = false) :
    (supplyEvent q code v s).sup.holdoff[quantityIndex q] = { running := true, last := code } := by
  rw [supplyEvent_of_free q code v s h]
  exact Vector.getElem_set_self _

theorem supplyEvent_temp : (supplyEvent q code v s).sup.temp = s.sup.temp := by
  unfold supplyEvent
  split <;> rfl

end

/-! ### The hold-up capacitor (R64) -/

section
variable {s : State} (v : Half) (hp : s.powered = true) (hc : s.sup.charging = true)
include hp hc

theorem runs_holdAbsent_bare (hbare : s.bare = true) : Runs (.holdAbsent v) s fun t =>
    t.sup.hold = .absent ∧ t.sup.charging = false ∧ t.sup.diodeOpen = false ∧ t.sup.absentHeld = false ∧
    Raised 52 (supplyWord 0x30 0) s t := by
  refine .of_guard rfl ⟨hp, hc⟩ ?_
  rw [if_pos hbare]
  exact ⟨rfl, rfl, rfl, rfl, supplyRaise_raised 0x30 0 _⟩

/-- A capacitor that the recipe declares absent is no event. -/
theorem runs_holdAbsent_declared (hbare : s.bare = false) (hload : s.rcp.loaded = true) (hflag : s.identFlag 3 = true) :
    Runs (.holdAbsent v) s fun t =>
      t.sup.hold = .absent ∧ t.sup.charging = false ∧ t.sup.absentHeld = false ∧ t.evr = s.evr := by
  refine .of_guard rfl ⟨hp, hc⟩ ?_
  rw [if_neg (Bool.eq_false_iff.mp hbare), if_pos hload, hflag]
  exact ⟨rfl, rfl, rfl, rfl⟩

theorem runs_holdAbsent_undeclared (hbare : s.bare = false) (hload : s.rcp.loaded = true) (hflag : s.identFlag 3 = false) :
    Runs (.holdAbsent v) s fun t =>
      t.sup.hold = .absent ∧ t.sup.absentHeld = false ∧ Raised 52 (supplyWord 0x30 0) s t := by
  refine .of_guard rfl ⟨hp, hc⟩ ?_
  rw [if_neg (Bool.eq_false_iff.mp hbare), if_pos hload, hflag]
  exact ⟨rfl, rfl, supplyRaise_raised 0x30 0 _⟩

/-- Before a recipe is loaded the event is held back. -/
theorem runs_holdAbsent_unloaded (hbare : s.bare = false) (hload : s.rcp.loaded = false) :
    Runs (.holdAbsent v) s fun t => t.sup.hold = .absent ∧ t.sup.absentHeld = true ∧ t.evr = s.evr := by
  refine .of_guard rfl ⟨hp, hc⟩ ?_
  rw [if_neg (Bool.eq_false_iff.mp hbare), if_neg (Bool.eq_false_iff.mp hload)]
  exact ⟨rfl, rfl, rfl⟩

theorem runs_holdOk : Runs (.holdOk v) s fun t => t.sup.hold = .ok ∧ t.sup.charging = false ∧ t.sup.diodeOpen = false ∧
    t.sup.holdVolt = v ∧ t.evr = s.evr :=
  .of_guard rfl ⟨hp, hc⟩ ⟨rfl, rfl, rfl, rfl, rfl⟩

theorem runs_holdFault : Runs (.holdFault v) s fun t => t.sup.hold = .fault ∧ t.sup.charging = false ∧
    t.sup.diodeOpen = true ∧ Raised 52 (supplyWord 0x31 v) s t :=
  .of_guard rfl ⟨hp, hc⟩ ⟨rfl, rfl, rfl, supplyRaise_raised 0x31 v _⟩

end

/-! ### Clocks (R70, R71) -/

theorem State.powered_iff (s : State) :
    s.powered = true ↔ s.sup.powerGood = true ∧ s.sys.inp.resetn = true ∧ s.sys.testHold = false := by
  simp only [State.powered, Bool.and_eq_true, Bool.not_eq_true', and_assoc]

theorem fit16_of_fits (v : Int) (w : BitVec 64) (h : v.natAbs ≤ 32767) : fit16 v w = v := if_pos (by omega)

/-- Without network time it is the crystal that has failed (R71). -/
theorem clockMismatch_unlocked (diff tcxoNet xtalNet : Int) (s : State) (h : s.tim.st ≠ .locked) :
    ∃ u, clockMismatch diff tcxoNet xtalNet s = crystalFailed u ∧ u.sys.mismatch = true ∧ u.sys.mode = s.sys.mode := by
  have hnet : netTimeLocked s = false := beq_eq_false_iff_ne.mpr h
  refine ⟨_, Eq.trans (if_neg fun g => ?_) (if_pos (.inl ?_)), rfl, rfl⟩
  · exact Bool.false_ne_true (hnet.symm.trans g.1)
  · exact congrArg not hnet

section
variable {s : State} (diff tcxoNet xtalNet : Int) (hp : s.powered = true) (hrc : s.sys.onRc = false)
  (hxtal : s.sys.xtalFail = false)
include hp hrc hxtal

theorem runs_clockCheck_near (h : diff.natAbs ≤ 32767) : Runs (.clockCheck diff tcxoNet xtalNet) s fun t =>
    t.sys = { s.sys with tcxoOfs := diff } ∧ t.evr = s.evr ∧ t.sup = s.sup := by
  refine .of_guard rfl ⟨hp, congrArg not hrc, congrArg not hxtal⟩ ?_
  rw [if_neg (by omega), fit16_of_fits _ _ h]
  exact ⟨rfl, rfl, rfl⟩

theorem runs_clockCheck_far (h : 50000 < diff.natAbs) (hfree : s.tim.st ≠ .locked) :
    Runs (.clockCheck diff tcxoNet xtalNet) s fun t => t.sys.mismatch = true ∧ t.sys.xtalFail = true ∧
      t.evr.srcs[52].payload = supplyWord 0x51 0 ∧ t.sys.mode = s.sys.mode := by
  refine .of_guard rfl ⟨hp, congrArg not hrc, congrArg not hxtal⟩ ?_
  rw [if_pos h]
  obtain ⟨u, heq, hmis, hmode⟩ := clockMismatch_unlocked diff tcxoNet xtalNet
    { s.drew with sys := { s.sys with tcxoOfs := fit16 diff s.freeVal } } hfree
  rw [heq]
  exact ⟨hmis, rfl, congrArg EvrSrc.payload (supplyRaise_raised 0x51 0 _), hmode⟩

end

/-! ### Temperature (R78) -/

theorem tempNext_from_normal (plate : Int) : tempNext .normal plate =
    if 1100 ≤ plate then .over110 else if 1050 ≤ plate then .high else if plate ≤ -400 then .low else .normal := by
  simp only [tempNext, reduceCtorEq, false_and, or_self, or_false]

theorem tempNext_normal {plate : Int} (hlo : -400 < plate) (hhi : plate < 1050) : tempNext .normal plate = .normal := by
  rw [tempNext_from_normal, if_neg (by omega), if_neg (by omega), if_neg (by omega)]

theorem tempNext_high {plate : Int} (hlo : 1050 ≤ plate) (hhi : plate < 1100) : tempNext .normal plate = .high := by
  rw [tempNext_from_normal, if_neg (by omega), if_pos hlo]

theorem tempNext_over {plate : Int} (h : 1100 ≤ plate) (old : TempCond) : tempNext old plate = .over110 := if_pos (.inl h)

/-- The monitor with a measurement of both temperatures stored. -/
def tempStored (plate die : Half) (s : State) : State :=
  s.setSup fun u =>
    { u with temp := tempNext u.temp plate.toInt, plate := plate.toInt, die := die.toInt,
             plateOver := decide (1200 ≤ plate.toInt) || (u.plateOver && decide (1150 ≤ plate.toInt)),
             dieOver := decide (1400 ≤ die.toInt) || (u.dieOver && decide (1350 ≤ die.toInt)) }

/-- A measurement is stored, and a condition with another code is an event. -/
def tempShown (plate die : Half) (s : State) : State :=
  let s1 := tempStored plate die s
  if tempCode s1.sup.temp = tempCode s.sup.temp then s1 else supplyEvent .plate (tempCode s1.sup.temp) plate s1

/-- A measurement is shown, and each sensor that newly reaches its limit is a module-level fault. -/
theorem exec_tempMeasure (plate die : Half) (s : State) (hp : s.powered = true) :
    exec (.tempMeasure plate die) s = .next (
      let s2 := tempShown plate die s
      let s3 := if (tempStored plate die s).sup.plateOver ∧ !s.sup.plateOver then supervisorFault 0 0x0B s2 else s2
      if (tempStored plate die s).sup.dieOver ∧ !s.sup.dieOver then supervisorFault 1 0x0B s3 else s3) :=
  congrArg Host.Outcome.next (if_pos hp)

theorem tempShown_temp (plate die : Half) (s : State) :
    (tempShown plate die s).sup.temp = tempNext s.sup.temp plate.toInt := by
  unfold tempShown
  dsimp only
  split
  · rfl
  · exact supplyEvent_temp _ _ _ _

theorem supervisorFault_sup (cell cause : Nat) (s : State) : (supervisorFault cell cause s).sup = s.sup :=
  (supervisorFault_only cell cause s).same .sup rfl

theorem supervisorFault_latched (cell cause : Nat) (s : State) : (supervisorFault cell cause s).sys.fltLatched = true :=
  (moduleFault_sys 0x2F cell cause s).1

section
variable {plate die : Half} {s : State} (hp : s.powered = true) (hplate : s.sup.plateOver = false)

include hp hplate in
/-- At 120 °C the plate's fault latches, whether or not the die's follows. -/
theorem runs_tempMeasure_over (h : 1200 ≤ plate.toInt) : Runs (.tempMeasure plate die) s fun t =>
    t.sup.temp = .over110 ∧ t.sys.fltLatched = true := by
  have htrip : (tempStored plate die s).sup.plateOver ∧ !s.sup.plateOver :=
    ⟨Bool.or_eq_true_iff.mpr (.inl (decide_eq_true h)), congrArg not hplate⟩
  have htemp : (tempShown plate die s).sup.temp = .over110 := (tempShown_temp plate die s).trans (tempNext_over (by omega) _)
  refine ⟨_, exec_tempMeasure plate die s hp, ?_⟩
  dsimp only
  rw [if_pos htrip]
  split
  · exact ⟨by rw [supervisorFault_sup, supervisorFault_sup, htemp], supervisorFault_latched _ _ _⟩
  · exact ⟨by rw [supervisorFault_sup, htemp], supervisorFault_latched _ _ _⟩

variable (hdie : s.sup.dieOver = false)
include hplate hdie

/-- Below both limits neither sensor is over its limit afterwards. -/
theorem tempStored_cool (h : plate.toInt < 1200) (h' : die.toInt < 1400) :
    (tempStored plate die s).sup.plateOver = false ∧ (tempStored plate die s).sup.dieOver = false := by
  have hp' : decide (1200 ≤ plate.toInt) = false := decide_eq_false (by omega)
  have hd' : decide (1400 ≤ die.toInt) = false := decide_eq_false (by omega)
  simp only [tempStored, State.setSup_sup, hp', hd', hplate, hdie, Bool.false_and, Bool.or_self, and_self]

include hp

theorem exec_tempMeasure_cool (h : plate.toInt < 1200) (h' : die.toInt < 1400) :
    exec (.tempMeasure plate die) s = .next (tempShown plate die s) := by
  obtain ⟨hp', hd'⟩ := tempStored_cool hplate hdie h h'
  rw [exec_tempMeasure plate die s hp]
  simp only [hp', hd', Bool.false_eq_true, false_and, if_false]

variable (htemp : s.sup.temp = .normal)
include htemp

theorem runs_tempMeasure_normal (hlo : -400 < plate.toInt) (hhi : plate.toInt < 1050) (hd : die.toInt < 1400) :
    Runs (.tempMeasure plate die) s fun t =>
      t.sup = { s.sup with plate := plate.toInt, die := die.toInt } ∧ t.sys = s.sys ∧ t.evr = s.evr := by
  obtain ⟨hp', hd'⟩ := tempStored_cool hplate hdie (Int.lt_trans hhi (by decide)) hd
  have hnext : (tempStored plate die s).sup.temp = s.sup.temp := by
    rw [htemp]
    exact (congrArg (tempNext · plate.toInt) htemp).trans (tempNext_normal hlo hhi)
  have hshown : tempShown plate die s = tempStored plate die s := if_pos (congrArg tempCode hnext)
  have hstored : (tempStored plate die s).sup = { s.sup with
      temp := (tempStored plate die s).sup.temp, plate := plate.toInt, die := die.toInt
      plateOver := (tempStored plate die s).sup.plateOver, dieOver := (tempStored plate die s).sup.dieOver } := rfl
  refine ⟨_, exec_tempMeasure_cool hp hplate hdie (by omega) hd, ?_⟩
  rw [hshown]
  refine ⟨?_, rfl, rfl⟩
  rw [hstored, hnext, hp'.trans hplate.symm, hd'.trans hdie.symm]

theorem runs_tempMeasure_high (hlo : 1050 ≤ plate.toInt) (hhi : plate.toInt < 1100) (hd : die.toInt < 1400)
    (hfree : s.sup.holdoff[2].running = false) : Runs (.tempMeasure plate die) s fun t =>
      t.sup.temp = .high ∧ t.sys = s.sys ∧ Raised 52 (supplyWord 0x40 plate) s t := by
  have hnext : (tempStored plate die s).sup.temp = .high :=
    (congrArg (tempNext · plate.toInt) htemp).trans (tempNext_high hlo hhi)
  have hshown : tempShown plate die s = supplyEvent .plate 0x40 plate (tempStored plate die s) := by
    rw [tempShown, hnext, htemp]
    rfl
  refine ⟨_, exec_tempMeasure_cool hp hplate hdie (by omega) hd, ?_⟩
  rw [hshown]
  exact ⟨(supplyEvent_temp _ _ _ _).trans hnext, (supplyEvent_only _ _ _ _).same .sys rfl,
    supplyEvent_raised .plate 0x40 plate (tempStored plate die s) hfree⟩

end

/-! ### The rate limit (R34, R79) -/

/-- The monitor with the 100 ms of a quantity at their end. -/
def holdoffEnded (q : Quantity) (s : State) : State :=
  s.setSup fun u =>
    { u with holdoff := u.holdoff.set (quantityIndex q) { u.holdoff[quantityIndex q] with running := false } }

theorem holdoffEnded_running (q : Quantity) (s : State) : (holdoffEnded q s).sup.holdoff[quantityIndex q].running = false :=
  congrArg Holdoff.running (Vector.getElem_set_self _)

section
variable {q : Quantity} {s : State} (v : Half) (hrun : s.sup.holdoff[quantityIndex q].running = true)
include hrun

theorem runs_supplyEventHoldoff_silent
    (h : quantityCode s q = s.sup.holdoff[quantityIndex q].last ∨ quantityUnused s q = true) :
    Runs (.supplyEventHoldoff q v) s fun t => t.sup.holdoff[quantityIndex q].running = false ∧ t.evr = s.evr := by
  refine .of_guard rfl hrun ?_
  rw [if_pos h]
  exact ⟨holdoffEnded_running q s, rfl⟩

theorem runs_supplyEventHoldoff_reports (h : quantityCode s q ≠ s.sup.holdoff[quantityIndex q].last)
    (hused : quantityUnused s q = false) : Runs (.supplyEventHoldoff q v) s fun t =>
      t.sup.holdoff[quantityIndex q] = { running := true, last := quantityCode s q } ∧
      Raised 52 (supplyWord (quantityCode s q) v) s t := by
  refine .of_guard rfl hrun ?_
  rw [if_neg (not_or.mpr ⟨h, Bool.eq_false_iff.mp hused⟩)]
  exact ⟨supplyEvent_holdoff q _ v (holdoffEnded q s) (holdoffEnded_running q s),
    supplyEvent_raised q _ v (holdoffEnded q s) (holdoffEnded_running q s)⟩

end

/-- Settles O2: row by row, where an event of the monitor is one more occurrence at source 52. -/
theorem supplyMonitorFollowsTheHoldUpAndTheClocks : Obligations.SupplyMonitorFollowsTheHoldUpAndTheClocks := by
  intro s hp
  refine ⟨fun v hc => ⟨runs_holdAbsent_bare v hp hc, runs_holdAbsent_declared v hp hc, runs_holdAbsent_undeclared v hp hc,
      runs_holdAbsent_unloaded v hp hc, runs_holdOk v hp hc, runs_holdFault v hp hc⟩,
    fun hfault hidle => .of_guard rfl ⟨hp, hfault, congrArg not hidle⟩ rfl, ?_,
    fun diff a b hrc hxtal => ⟨runs_clockCheck_near diff a b hp hrc hxtal, runs_clockCheck_far diff a b hp hrc hxtal⟩,
    fun plate die htemp hplate hdie => ⟨runs_tempMeasure_normal hp hplate hdie htemp,
      runs_tempMeasure_high hp hplate hdie htemp, runs_tempMeasure_over hp hplate⟩,
    fun q v hrun => ⟨fun h => runs_supplyEventHoldoff_silent v hrun (.inl h),
      fun h => runs_supplyEventHoldoff_silent v hrun (.inr h), runs_supplyEventHoldoff_reports v hrun⟩⟩
  obtain ⟨hgood, -, -⟩ := s.powered_iff.mp hp
  exact .of_guard rfl hgood rfl

/-! ### Starts and ends of a run (R30, R33, R58, R62, R80, R502) -/

/-- A start begins with the supervisor running where power-good stands and `RESETN` is high. -/
theorem startBegin_powered (s : State) (hgood : s.sup.powerGood = true) (hrst : s.sys.inp.resetn = true) :
    (startBegin s).powered = true :=
  (State.powered_iff _).mpr ⟨hgood, hrst, rfl⟩

theorem not_powered_of_held (s : State) (h : s.sys.testHold = true) : s.powered = false := by
  simp only [State.powered, h, Bool.not_true, Bool.and_false]

theorem not_powered_in_reset (s : State) (h : s.sys.inp.resetn = false) : s.powered = false := by
  simp only [State.powered, h, Bool.and_false, Bool.false_and]

theorem runs_powerGood {s : State} (hoff : s.sup.powerGood = false) (hrst : s.sys.inp.resetn = true) :
    Runs (.powerGood false) s fun t =>
      t.powered = true ∧ t.sys.step = 2 ∧ t.sys.mode = .starting ∧ t.sys.power = .start ∧ t.sys.pllLock = true ∧
      t.sys.roleB = s.sys.inp.role ∧ t.sys.pins.presOut = true ∧ t.sup.charging = true ∧ t.evr = {} ∧
      t.hp = Vector.replicate 2 {} ∧ t.ao = Vector.replicate 4 {} ∧ t.dio = Vector.replicate 16 {} ∧ t.pev = {} ∧
      t.mmc.user = s.mmc.user ∧ t.pending = s.pending := by
  refine .of_not_guard rfl (Bool.eq_false_iff.mp hoff) ?_
  rw [if_neg (by simp only [powerless, coldStart, hrst, Bool.not_true, Bool.false_eq_true, or_self, not_false_eq_true])]
  exact ⟨startBegin_powered _ rfl hrst, rfl, rfl, rfl, rfl, rfl, rfl, rfl, rfl, rfl, rfl, rfl, rfl, rfl, rfl⟩

theorem runs_powerGood_held {s : State} (hoff : s.sup.powerGood = false) : Runs (.powerGood true) s fun t =>
    t.sys.testHold = true ∧ t.powered = false ∧ t.sys.step = 1 ∧ t.sup.powerGood = true := by
  refine .of_not_guard rfl (Bool.eq_false_iff.mp hoff) ?_
  rw [if_pos (.inl rfl)]
  exact ⟨rfl, not_powered_of_held _ rfl, rfl, rfl⟩

section
variable {s : State} (hrst : s.sys.inp.resetn = true)
include hrst

theorem runs_resetnLow (hscan : jtagHolds s = false) : Runs .resetnLow s fun t =>
    t.powered = false ∧ t.sup = { powerGood := s.sup.powerGood } ∧ t.evr = {} ∧ t.ao = Vector.replicate 4 {} ∧
    t.dio = Vector.replicate 16 {} ∧ t.sys.pins = {} ∧ t.sys.fltLast = s.sys.fltLast ∧ t.now = s.now := by
  refine .of_not_guard rfl (by simp only [hrst, Bool.not_true, Bool.false_eq_true, not_false_eq_true]) ?_
  rw [if_neg (Bool.eq_false_iff.mp hscan)]
  exact ⟨not_powered_in_reset _ rfl, rfl, rfl, rfl, rfl, rfl, rfl, rfl⟩

theorem runs_resetnLow_scanned (hscan : jtagHolds s = true) : Runs .resetnLow s fun t =>
    t.sys = { s.sys with inp := { s.sys.inp with resetn := false } } ∧ Only [.sys] s t := by
  refine .of_not_guard rfl (by simp only [hrst, Bool.not_true, Bool.false_eq_true, not_false_eq_true]) ?_
  rw [if_pos hscan]
  exact ⟨rfl, (Only.refl _ s).set_sys rfl⟩

end

theorem runs_resetnRise {s : State} (hrst : s.sys.inp.resetn = false) (hscan : jtagHolds s = false)
    (hgood : s.sup.powerGood = true) (hheld : s.sys.testHold = false) : Runs .resetnRise s fun t =>
      t.powered = true ∧ t.sys.step = 2 ∧ t.sys.mode = .starting ∧ t.evr = {} ∧ t.sys.roleB = s.sys.inp.role ∧
      t.sys.fltLast = s.sys.fltLast := by
  refine .of_not_guard rfl (Bool.eq_false_iff.mp hrst) ?_
  rw [if_neg (by simp only [hscan, hgood, hheld, Bool.not_true, Bool.false_eq_true, or_self, not_false_eq_true])]
  exact ⟨startBegin_powered _ hgood rfl, rfl, rfl, rfl, rfl, rfl⟩

theorem runs_roleChange {s : State} {level : Bool} (hnew : level ≠ s.sys.inp.role) (hp : s.powered = true) :
    Runs (.roleChange level) s fun t => t.sys.roleB = s.sys.roleB ∧ t.sys.inp.role = level ∧
      t.sys.werr = { reason := 3, src := 3, addr := 0, cnt := satInc 255 s.sys.werr.cnt } ∧ Only [.sys] s t :=
  .of_guard rfl ⟨hnew, hp⟩ ⟨rfl, rfl, rfl, Only.after (logWerr_only _ _ _ _) rfl ((Only.refl _ s).set_sys rfl)⟩

/-- The fourth restart within 60 min does not take place (R58). -/
theorem runs_safeStateRestart_spent {s : State} (h : 3 ≤ (recent (sec 3600) s.mono s.sys.restarts).length) :
    Runs .safeStateRestart s fun t => t = s := by
  refine .of_not_guard rfl ?_ rfl
  rintro ⟨-, -, -, hfew, -⟩
  exact absurd hfew (by omega)

/-- Settles O3: a start is `startBegin`, and what ends a run is `powerless` or `coldStart`, whose fields are read off. -/
theorem startsAndEndsOfARun : Obligations.StartsAndEndsOfARun := by
  intro s
  refine ⟨runs_powerGood, runs_powerGood_held, fun hgood => .of_guard rfl hgood ⟨rfl, rfl, rfl, rfl, rfl, rfl, rfl, rfl⟩,
    runs_resetnLow, runs_resetnLow_scanned, runs_resetnRise, fun level => runs_roleChange,
    fun hp hmode hflag hscan => ⟨fun hfew => ?_, runs_safeStateRestart_spent⟩⟩
  exact .of_guard rfl ⟨hp, hmode, hflag, hfew, congrArg not hscan⟩ ⟨rfl, rfl, rfl, rfl⟩

/-! ### The reset state (R24, R38, R491) -/

theorem reset_recipes (i : Fin 2) : State.reset.rcp.recipes[i] = {} := Vector.getElem_replicate i.isLt
theorem reset_ao (c : Fin 4) : State.reset.ao[c] = {} := Vector.getElem_replicate c.isLt
theorem reset_can (k : Fin 4) : State.reset.can[k] = {} := Vector.getElem_replicate k.isLt

/-- Every memory is empty after reset, and an empty table is canonical. -/
theorem memWf_reset : MemWf State.reset :=
  .of ⟨fun i => reset_recipes i ▸ ⟨rfl, rfl⟩, rfl, rfl⟩ (fun c => reset_ao c ▸ ⟨rfl, rfl⟩) (fun k => reset_can k ▸ rfl) rfl
    ⟨rfl, rfl, fun _ hk => absurd hk List.not_mem_nil⟩ rfl

/-- Settles O58: the memories are empty, and each register of the lists is read in the one closed state. -/
theorem resetIsPlainAndCanonical : Obligations.ResetIsPlainAndCanonical :=
  ⟨memWf_reset, rfl, rfl, rfl, rfl, by decide, by decide, by decide, by decide, by decide⟩

end Sys2Proof.Machine
end

section
/-! Proofs about supply and power states: the feeds (R59 to R61, R66, R79), LAST_BREATH and its restart (R67, R68), and DOZE
and DORMANT (R73 to R77). -/
namespace Sys2Proof.Machine

open Sys2Proof

/-! ### Fields of words -/

theorem testBit_fld {k : Nat} (w : BitVec k) (lo n i : Nat) :
    (fld w lo n).testBit i = (decide (i < n) && w.toNat.testBit (i + lo)) := by
  rw [fld, Nat.testBit_mod_two_pow, Nat.testBit_div_two_pow]

theorem fld_or {k : Nat} (a b : BitVec k) (lo n : Nat) : fld (a ||| b) lo n = fld a lo n ||| fld b lo n := by
  refine Nat.eq_of_testBit_eq fun i => ?_
  simp only [testBit_fld, BitVec.toNat_or, Nat.testBit_or, Bool.and_or_distrib_left]

theorem testBit_put (lo n v i : Nat) : (put lo n v).toNat.testBit i =
    (decide (i < 32) && (decide (lo ≤ i) && (decide (i - lo < n) && v.testBit (i - lo)))) := by
  rw [put, BitVec.toNat_ofNat, Nat.testBit_mod_two_pow, Nat.testBit_mul_two_pow, Nat.testBit_mod_two_pow]

/-- A field that another field of the word does not overlap reads none of it. -/
theorem fld_put_apart {lo n at' m : Nat} (v : Nat) (h : at' + m ≤ lo ∨ lo + n ≤ at') : fld (put at' m v) lo n = 0 := by
  refine Nat.eq_of_testBit_eq fun i => ?_
  rw [testBit_fld, testBit_put, Nat.zero_testBit]
  simp only [Bool.and_eq_false_imp, decide_eq_true_eq]
  intro hi _ hat hm
  omega

theorem fld_put_self {lo n v : Nat} (hv : v < 2 ^ n) (h : lo + n ≤ 32) : fld (put lo n v) lo n = v := by
  refine Nat.eq_of_testBit_eq fun i => ?_
  rw [testBit_fld, testBit_put, Nat.add_sub_cancel]
  by_cases hi : i < n
  · have h32 : i + lo < 32 := by omega
    simp only [hi, h32, Nat.le_add_left, decide_true, Bool.true_and]
  · have hzero : v.testBit i = false :=
      Nat.testBit_lt_two_pow (Nat.lt_of_lt_of_le hv (Nat.pow_le_pow_right (by decide) (Nat.not_lt.mp hi)))
    simp only [hi, hzero, decide_false, Bool.false_and]

theorem fld_putB_apart {lo n at' : Nat} (b : Bool) (h : at' + 1 ≤ lo ∨ lo + n ≤ at') : fld (putB at' b) lo n = 0 := by
  cases b
  · exact (congrArg (· % 2 ^ n) (Nat.zero_div _)).trans (Nat.zero_mod _)
  · exact fld_put_apart 1 h

theorem FeedCond.code_lt (c : FeedCond) : c.code < 4 := by cases c <;> decide

/-- `SYS_SUP_STAT` shows the condition of each feed in a field of its own. -/
theorem fld_supWord_feed (u : Supply) (f : Fin 2) : fld (supWord u) (2 + 4 * f.val) 2 = u.feeds[f].cond.code := by
  match f with
  | 0 => simp [supWord, fld_or, fld_put_apart, fld_putB_apart, fld_put_self, FeedCond.code_lt]
  | 1 => simp [supWord, fld_or, fld_put_apart, fld_putB_apart, fld_put_self, FeedCond.code_lt]

/-! ### One feed changed -/

theorem feed_other_ne (f : Fin 2) : 1 - f ≠ f := by decide +revert

section
variable (s : State) (f : Fin 2) (g : Feed → Feed)

@[simp] theorem State.setFeed_self : (s.setFeed f g).sup.feeds[f] = g s.sup.feeds[f] := Vector.getElem_set_self _

@[simp] theorem State.setFeed_other : (s.setFeed f g).sup.feeds[1 - f] = s.sup.feeds[1 - f] :=
  Vector.getElem_set_ne f.isLt (1 - f).isLt fun h => feed_other_ne f (Fin.ext h.symm)

theorem State.setFeed_setFeed (h : Feed → Feed) : (s.setFeed f g).setFeed f h = s.setFeed f fun x => h (g x) := by
  simp only [State.setFeed, State.setSup, Supply.setFeed, Fin.getElem_fin, Vector.getElem_set_self, Vector.set_set]

end

/-! ### A feed takes a condition (R61, R79) -/

section
variable (q : Quantity) (code : Nat) (v : Half) (s : State)

theorem supplyEvent_of_held (h : s.sup.holdoff[quantityIndex q].running = true) : supplyEvent q code v s = s := if_pos h

/-- An event of the monitor starts the 100 ms of its quantity at most. -/
theorem supplyEvent_sup : (supplyEvent q code v s).sup = { s.sup with holdoff := (supplyEvent q code v s).sup.holdoff } := by
  unfold supplyEvent
  split <;> rfl

theorem supplyEvent_feeds : (supplyEvent q code v s).sup.feeds = s.sup.feeds := by rw [supplyEvent_sup]

theorem supplyEvent_setFeed (f : Fin 2) (g : Feed → Feed) :
    supplyEvent q code v (s.setFeed f g) = (supplyEvent q code v s).setFeed f g := by
  cases h : s.sup.holdoff[quantityIndex q].running
  · rw [supplyEvent_of_free q code v s h, supplyEvent_of_free q code v (s.setFeed f g) h]
    rfl
  · rw [supplyEvent_of_held q code v s h, supplyEvent_of_held q code v (s.setFeed f g) h]

theorem supplyRaise_srcs_other (k : Fin 512) (h : k ≠ 52) : (supplyRaise code v s).evr.srcs[k] = s.evr.srcs[k] :=
  Vector.getElem_set_ne (xs := s.evr.srcs) (i := 52) (by decide) k.isLt fun heq => h (Fin.ext heq.symm)

theorem supplyEvent_evr : (supplyEvent q code v s).evr = s.evr ∨ (supplyEvent q code v s).evr = (supplyRaise code v s).evr := by
  unfold supplyEvent
  split
  · exact .inl rfl
  · exact .inr rfl

/-- An event of the monitor reaches no other source and no host's ring. -/
theorem supplyEvent_others : (∀ k : Fin 512, k ≠ 52 → (supplyEvent q code v s).evr.srcs[k] = s.evr.srcs[k]) ∧
    (supplyEvent q code v s).evr.hosts = s.evr.hosts := by
  rcases supplyEvent_evr q code v s with h | h <;> rw [h]
  · exact ⟨fun _ _ => rfl, rfl⟩
  · exact ⟨supplyRaise_srcs_other code v s, rfl⟩

end

/-- A feed with a new condition, voltage and REV bit, and the condition's event: what the feed rows come to (R61). With the
feed's own REV bit it is `feedEnter`, by definition. -/
def feedShown (f : Fin 2) (c : FeedCond) (v : Half) (rev : Bool) (s : State) : State :=
  supplyEvent (feedQuantity f) (feedCode f c) v (s.setFeed f fun x => { x with cond := c, volt := v, rev := rev })

section
variable (f : Fin 2) (c : FeedCond) (v : Half) (rev : Bool) (s : State)

theorem feedEnter_setRev : (feedEnter f c v s).setFeed f (fun x => { x with rev := rev }) = feedShown f c v rev s := by
  rw [feedEnter, ← supplyEvent_setFeed, State.setFeed_setFeed, feedShown]

theorem setRev_feedEnter : feedEnter f c v (s.setFeed f fun x => { x with rev := rev }) = feedShown f c v rev s := by
  rw [feedEnter, State.setFeed_setFeed, feedShown]

theorem feedShown_feed : (feedShown f c v rev s).sup.feeds[f] = { s.sup.feeds[f] with cond := c, volt := v, rev := rev } := by
  rw [feedShown, supplyEvent_feeds, State.setFeed_self]

theorem feedShown_other : (feedShown f c v rev s).sup.feeds[1 - f] = s.sup.feeds[1 - f] := by
  rw [feedShown, supplyEvent_feeds, State.setFeed_other]

theorem feedShown_sup : (feedShown f c v rev s).sup =
    { s.sup with feeds := (feedShown f c v rev s).sup.feeds, holdoff := (feedShown f c v rev s).sup.holdoff } := by
  rw [feedShown, supplyEvent_sup]
  rfl

theorem feedShown_pfail : (feedShown f c v rev s).sup.pfail = s.sup.pfail := by rw [feedShown_sup]

theorem feedShown_raised (h : s.sup.holdoff[quantityIndex (feedQuantity f)].running = false) {code : Nat}
    (hcode : feedCode f c = code) : Raised 52 (supplyWord code v) s (feedShown f c v rev s) :=
  hcode ▸ supplyEvent_raised (feedQuantity f) (feedCode f c) v (s.setFeed f _) h

theorem feedShown_reported (h : s.sup.holdoff[quantityIndex (feedQuantity f)].running = false) {code : Nat}
    (hcode : feedCode f c = code) :
    (feedShown f c v rev s).sup.feeds[f] = { s.sup.feeds[f] with cond := c, volt := v, rev := rev } ∧
    (feedShown f c v rev s).sup.feeds[1 - f] = s.sup.feeds[1 - f] ∧ Raised 52 (supplyWord code v) s (feedShown f c v rev s) :=
  ⟨feedShown_feed f c v rev s, feedShown_other f c v rev s, feedShown_raised f c v rev s h hcode⟩

theorem feedShown_evr_of_held (h : s.sup.holdoff[quantityIndex (feedQuantity f)].running = true) :
    (feedShown f c v rev s).evr = s.evr := by
  rw [feedShown, supplyEvent_of_held _ _ _ (s.setFeed f _) h]
  rfl

theorem feedShown_only : Only [.sup, .evr] s (feedShown f c v rev s) :=
  Only.after (supplyEvent_only _ _ _ _) rfl ((s.setFeed_only f _).mono rfl)

end

theorem feedCode_above_lost (f : Fin 2) (v : Half) :
    feedCode f (if v.toNat < 1800 then .low else .inRange) = 16 * f.val + if v.toNat < 1800 then 1 else 4 := by
  split <;> rfl

/-! ### POWER_FAIL and its end (R66) -/

theorem bothLost_iff (s : State) (f : Fin 2) :
    bothLost s = true ↔ s.sup.feeds[f].cond = .lost ∧ s.sup.feeds[1 - f].cond = .lost := by
  simp only [bothLost, Bool.and_eq_true, beq_iff_eq]
  match f with
  | 0 => exact Iff.rfl
  | 1 => exact And.comm

theorem powerFail_of_feed (volts : Vector Half 2) (hold : Half) (s : State) (f : Fin 2) (h : s.sup.feeds[1 - f].cond ≠ .lost) :
    powerFail volts hold s = s := by
  have hboth : bothLost s = false := Bool.eq_false_iff.mpr fun hb => h ((bothLost_iff s f).mp hb).2
  rw [powerFail, if_pos (.inl (congrArg not hboth))]

/-- With both feeds LOST, POWER_FAIL is raised with the voltages measured before. -/
theorem powerFail_of_both (volts : Vector Half 2) (hold : Half) (s : State) (f : Fin 2) (hf : s.sup.feeds[f].cond = .lost)
    (hother : s.sup.feeds[1 - f].cond = .lost) (hpf : s.sup.pfail = false) :
    (powerFail volts hold s).sup = { s.sup with pfail := true, pfTime := s.stamp, pfVolt := volts, holdVolt := hold } ∧
    (powerFail volts hold s).imz.pfHb = true ∧ (powerFail volts hold s).evr.srcs[52].payload = supplyWord 0x20 hold := by
  have hboth : bothLost s = true := (bothLost_iff s f).mpr ⟨hf, hother⟩
  rw [powerFail, if_neg (by simp only [hboth, hpf, Bool.not_true, Bool.false_eq_true, or_self, not_false_eq_true])]
  exact ⟨rfl, rfl, congrArg EvrSrc.payload (supplyRaise_raised 0x20 hold _)⟩

theorem powerRestore_of_standing (hold : Half) (s : State) (h : s.sup.pfail = false) : powerRestore hold s = s :=
  if_pos (congrArg not h)

/-- Outside LAST_BREATH a feed that leaves LOST ends POWER_FAIL. -/
theorem powerRestore_of_failed (hold : Half) (s : State) (h : s.sup.pfail = true) (hmode : s.sys.mode ≠ .lastBreath) :
    (powerRestore hold s).sup = { s.sup with pfail := false, holdVolt := hold } ∧ (powerRestore hold s).imz.pfHb = false ∧
    (powerRestore hold s).sys = s.sys ∧ (powerRestore hold s).evr.srcs[52].payload = supplyWord 0x21 hold := by
  rw [powerRestore, if_neg (by simp only [h, Bool.not_true, Bool.false_eq_true, not_false_eq_true]), if_neg hmode]
  exact ⟨rfl, rfl, rfl, congrArg EvrSrc.payload (supplyRaise_raised 0x21 hold _)⟩

/-! ### The feed rows (R59, R60) -/

theorem before_getElem (s : State) (f : Fin 2) :
    #v[s.sup.feeds[0].before, s.sup.feeds[1].before][f] = s.sup.feeds[f].before := by
  match f with
  | 0 => rfl
  | 1 => rfl

theorem feedLost_of_entry (f : Fin 2) (rev : Bool) (v hold : Half) (s : State) (h : s.sup.feeds[f].cond ≠ .lost) :
    feedLost f rev v hold s =
      powerFail #v[s.sup.feeds[0].before, s.sup.feeds[1].before] hold (feedShown f .lost v rev s) := by
  rw [feedLost, if_neg h, feedEnter_setRev]

/-- A feed LOST beside one that is not is no POWER_FAIL. -/
theorem feedLost_alone (f : Fin 2) (rev : Bool) (v hold : Half) (s : State) (h : s.sup.feeds[f].cond ≠ .lost)
    (hother : s.sup.feeds[1 - f].cond ≠ .lost) : feedLost f rev v hold s = feedShown f .lost v rev s := by
  rw [feedLost_of_entry f rev v hold s h, powerFail_of_feed _ _ _ f (by rwa [feedShown_other])]

section
variable {f : Fin 2} {v : Half} {s : State} {P : State → Prop} (hp : s.powered = true)
include hp

theorem runs_feedLow (hv : v.toNat < 1800) (h : s.sup.feeds[f].cond = .inRange ∨ s.sup.feeds[f].cond = .high)
    (ht : P (feedShown f .low v s.sup.feeds[f].rev s)) : Runs (.feedLow f v) s P :=
  .of_guard rfl ⟨hp, hv, h⟩ ht

theorem runs_feedHigh (hv : 3250 < v.toNat) (h : s.sup.feeds[f].cond = .inRange ∨ s.sup.feeds[f].cond = .low)
    (ht : P (feedShown f .high v s.sup.feeds[f].rev s)) : Runs (.feedHigh f v) s P :=
  .of_guard rfl ⟨hp, hv, h⟩ ht

theorem runs_feedInRange
    (h : (s.sup.feeds[f].cond = .low ∧ 1850 < v.toNat) ∨ (s.sup.feeds[f].cond = .high ∧ v.toNat < 3200))
    (ht : P (feedShown f .inRange v s.sup.feeds[f].rev s)) : Runs (.feedInRange f v) s P :=
  .of_guard rfl ⟨hp, h⟩ ht

theorem runs_feedLost_alone (hold : Half) (hv : v.toNat < 1500) (h : s.sup.feeds[f].cond ≠ .lost)
    (hother : s.sup.feeds[1 - f].cond ≠ .lost) (ht : P (feedShown f .lost v false s)) : Runs (.feedLost f v hold) s P :=
  .of_guard rfl ⟨hp, hv, h⟩ (feedLost_alone f false v hold s h hother ▸ ht)

theorem runs_feedReversed_alone (hold : Half) (h : s.sup.feeds[f].cond ≠ .lost) (hother : s.sup.feeds[1 - f].cond ≠ .lost)
    (ht : P (feedShown f .lost 0 true s)) : Runs (.feedReversed f hold) s P :=
  .of_guard rfl hp (feedLost_alone f true 0 hold s h hother ▸ ht)

/-- A feed above 16.5 V leaves LOST, to LOW where it is below 18.0 V. -/
theorem runs_feedLostEnd (hold : Half) (hv : 1650 < v.toNat) (h : s.sup.feeds[f].cond = .lost)
    (ht : P (powerRestore hold (feedShown f (if v.toNat < 1800 then .low else .inRange) v false s))) :
    Runs (.feedLostEnd f v hold) s P := by
  refine .of_guard rfl ⟨hp, hv, h⟩ ?_
  rwa [setRev_feedEnter]

theorem runs_feedLostEnd_standing (hold : Half) (hv : 1650 < v.toNat) (h : s.sup.feeds[f].cond = .lost)
    (hpf : s.sup.pfail = false) (ht : P (feedShown f (if v.toNat < 1800 then .low else .inRange) v false s)) :
    Runs (.feedLostEnd f v hold) s P := by
  refine runs_feedLostEnd hp hold hv h ?_
  rwa [powerRestore_of_standing _ _ ((feedShown_pfail f _ v false s).trans hpf)]

/-- The second feed LOST is POWER_FAIL, with what both feeds measured before. -/
theorem runs_feedLost_both (hold : Half) (hv : v.toNat < 1500) (h : s.sup.feeds[f].cond ≠ .lost)
    (hother : s.sup.feeds[1 - f].cond = .lost) (hpf : s.sup.pfail = false) : Runs (.feedLost f v hold) s fun t =>
      t.sup.feeds[f].cond = .lost ∧ t.sup.pfail = true ∧ t.sup.pfTime = s.stamp ∧ t.sup.pfVolt[f] = s.sup.feeds[f].before ∧
      t.sup.pfVolt[1 - f] = s.sup.feeds[1 - f].before ∧ t.imz.pfHb = true ∧
      t.evr.srcs[52].payload = supplyWord 0x20 hold := by
  have hnow : (feedShown f .lost v false s).now = s.now := (feedShown_only f .lost v false s).same .now rfl
  have hlost : (feedShown f .lost v false s).sup.feeds[f].cond = .lost := congrArg Feed.cond (feedShown_feed f .lost v false s)
  obtain ⟨hsup, hhb, hevent⟩ := powerFail_of_both #v[s.sup.feeds[0].before, s.sup.feeds[1].before] hold
    (feedShown f .lost v false s) f hlost (by rwa [feedShown_other]) ((feedShown_pfail f _ v false s).trans hpf)
  refine .of_guard rfl ⟨hp, hv, h⟩ ?_
  rw [feedLost_of_entry f false v hold s h, hsup]
  refine ⟨hlost, rfl, congrArg stampOf hnow, ?_, ?_, hhb, hevent⟩
  · exact before_getElem s f
  · exact before_getElem s (1 - f)

/-- A feed that leaves LOST ends POWER_FAIL. -/
theorem runs_feedLostEnd_failed (hold : Half) (hv : 1650 < v.toNat) (h : s.sup.feeds[f].cond = .lost)
    (hpf : s.sup.pfail = true) (hmode : s.sys.mode ≠ .lastBreath) : Runs (.feedLostEnd f v hold) s fun t =>
      t.sup.feeds[f].cond ≠ .lost ∧ t.sup.pfail = false ∧ t.imz.pfHb = false ∧ t.sys = s.sys ∧
      t.evr.srcs[52].payload = supplyWord 0x21 hold := by
  have hcond : ∀ c : FeedCond, (feedShown f c v false s).sup.feeds[f].cond = c := fun c =>
    congrArg Feed.cond (feedShown_feed f c v false s)
  have hsys : ∀ c : FeedCond, (feedShown f c v false s).sys = s.sys := fun c => (feedShown_only f c v false s).same .sys rfl
  obtain ⟨hsup, hhb, hsame, hevent⟩ := powerRestore_of_failed hold
    (feedShown f (if v.toNat < 1800 then .low else .inRange) v false s) ((feedShown_pfail f _ v false s).trans hpf)
    (by rwa [hsys])
  refine runs_feedLostEnd hp hold hv h ?_
  rw [hsup]
  refine ⟨?_, rfl, hhb, hsame.trans (hsys _), hevent⟩
  rw [hcond]
  split <;> decide

end

/-- Settles O56: each of the four rows comes to `feedShown` with the condition's code, and beside a feed in range no more. -/
theorem oneFeedKeepsFullService : Obligations.OneFeedKeepsFullService := by
  intro s f v hold w c rv x hp hother hrow
  have hstands : s.sup.feeds[1 - f].cond ≠ .lost := by rw [hother]; decide
  obtain ⟨hcode, t, hnext, rfl⟩ : feedCode f c = 16 * f.val + (if c = .low then 1 else 2) ∧
      Runs x s fun t => t = feedShown f c w rv s := by
    rcases hrow with ⟨rfl, hv, hfrom, rfl, rfl, rfl⟩ | ⟨rfl, hv, hfrom, rfl, rfl, rfl⟩ | ⟨rfl, hfrom, rfl, rfl, rfl⟩ |
      ⟨rfl, hv, hlow, hfrom, hpf, rfl, rfl, rfl⟩
    · exact ⟨rfl, runs_feedLow hp hv hfrom rfl⟩
    · exact ⟨rfl, runs_feedLost_alone hp hold hv hfrom hstands rfl⟩
    · exact ⟨rfl, runs_feedReversed_alone hp hold hfrom hstands rfl⟩
    · exact ⟨rfl, runs_feedLostEnd_standing hp hold hv hfrom hpf (by rw [if_pos hlow])⟩
  obtain ⟨hsrcs, hhosts⟩ := supplyEvent_others (feedQuantity f) (feedCode f c) w
    (s.setFeed f fun x => { x with cond := c, volt := w, rev := rv })
  refine ⟨_, hnext, feedShown_feed f c w rv s, feedShown_other f c w rv s, feedShown_sup f c w rv s, rfl, ?_,
    fun hfree => feedShown_raised f c w rv s hfree hcode, feedShown_evr_of_held f c w rv s, hsrcs, hhosts,
    feedShown_only f c w rv s⟩
  rw [fld_supWord_feed, feedShown_feed]

/-- Settles O1: every row that enters a condition comes to `feedShown`, with POWER_FAIL or its end after it where R66 asks. -/
theorem feedConditionsAreReported : Obligations.FeedConditionsAreReported := by
  intro s f v hold hp hfree
  refine ⟨fun hv hfrom => runs_feedLow hp hv hfrom ?_,
    fun hv hfrom hother => runs_feedLost_alone hp hold hv hfrom hother ?_,
    runs_feedLost_both hp hold,
    fun hv hfrom hpf => runs_feedLostEnd_standing hp hold hv hfrom hpf
      (feedShown_reported f _ v false s hfree (feedCode_above_lost f v)),
    runs_feedLostEnd_failed hp hold,
    fun hv hfrom => runs_feedHigh hp hv hfrom (feedShown_reported f .high v _ s hfree rfl),
    fun hfrom => runs_feedInRange hp hfrom (feedShown_reported f .inRange v _ s hfree rfl),
    fun hfrom hother => runs_feedReversed_alone hp hold hfrom hother (feedShown_reported f .lost 0 true s hfree rfl),
    .of_guard rfl hp ⟨s.setFeed_only f _, s.setFeed_self f _, s.setFeed_other f _⟩,
    .of_guard rfl hp ⟨s.setFeed_only f _, s.setFeed_self f _, s.setFeed_other f _⟩⟩
  all_goals
    exact ⟨feedShown_feed _ _ _ _ _, feedShown_other _ _ _ _ _, feedShown_pfail _ _ _ _ _,
      feedShown_raised _ _ _ _ _ hfree rfl⟩

/-! ### LAST_BREATH (R67) -/

section
variable (v s : State)

theorem cellNotify_sys : (cellNotify v s).sys = s.sys := (cellNotify_only v s).same .sys rfl

theorem cellNotify_ui : (cellNotify v s).ui = s.ui := (cellNotify_only v s).same .ui rfl

theorem aoEndSpell_sys : (aoEndSpell s).sys = s.sys := (aoEndSpell_only s).same .sys rfl

theorem outputsOff_pev : (outputsOff s).pev = s.pev := (outputsOff_only s).same .pev rfl

theorem annToRec_pev : (annToRec s).pev = s.pev := (annToRec_only s).same .pev rfl

theorem swapAbort_pev : (swapAbort s).pev = s.pev := (swapAbort_only s).same .pev rfl

theorem pnlCut_pev : (pnlCut s).pev = s.pev := (pnlCut_only s).same .pev rfl

theorem pnlCut_ui : (pnlCut s).ui = s.ui := (pnlCut_only s).same .ui rfl

theorem breathMedia_sys (dataDone : Bool) : (breathMedia dataDone s).sys = s.sys := (breathMedia_only dataDone s).same .sys rfl

theorem breathMedia_pev (dataDone : Bool) : (breathMedia dataDone s).pev = s.pev := (breathMedia_only dataDone s).same .pev rfl

theorem breathMedia_ui (dataDone : Bool) : (breathMedia dataDone s).ui = s.ui := (breathMedia_only dataDone s).same .ui rfl

theorem allOff_sys : (allOff s).sys = { s.sys with outEn := false } := rfl

theorem uiQuiet_ui (c : Fin 16) : (uiQuiet s).ui[c] = { s.ui[c] with excOn := false, txsOn := false, excWait := false } :=
  Vector.getElem_map _ c.isLt

theorem outputsOff_eq : outputsOff s = cellNotify (aoEndSpell s) (allOff (aoEndSpell s)) := rfl

/-- The outputs are no longer driven; the rest of the module-level state stays. -/
theorem outputsOff_sys : (outputsOff s).sys = { s.sys with outEn := false } := by
  rw [outputsOff_eq, cellNotify_sys, allOff_sys, aoEndSpell_sys]

theorem outputsOff_quiet (c : Fin 16) : (outputsOff s).ui[c].excOn = false ∧ (outputsOff s).ui[c].txsOn = false := by
  rw [outputsOff_eq, cellNotify_ui, allOff, uiQuiet_ui]
  exact ⟨rfl, rfl⟩

end

/-- LAST_BREATH up to the outputs: control is handed over, KEP runs, scans stop, and the queue passes to the recorder (R67
steps 1 and 2). -/
def breathBefore (hold : Half) (s : State) : State :=
  let s1 := breathKep (breathHand (supplyRaise 0x22 0 (s.setSup fun u => { u with holdVolt := hold, breathStep := 1 })))
  annToRec (swapAbort { s1 with pev := { s1.pev with running := false } })

/-- LAST_BREATH up to the eMMC: outputs and panel rails are off, and the mode is entered (R67 steps 3 and 4). -/
def breathDark (hold : Half) (s : State) : State :=
  let s3 := pnlCut (outputsOff (breathBefore hold s))
  { s3 with sys := { s3.sys with mode := .lastBreath, power := .lastBreath } }

/-- The levels of the contacts at the end, and the step reached (R67 step 7). -/
def breathEnd (s : State) : State :=
  restat { s with sys := { s.sys with pins := { s.sys.pins with faultLow := true, presOut := false, mmcPwr := false,
                                                                mmcRstn := false } }
                  sup := { s.sup with breathStep := 7 } }

theorem lastBreath_eq (hold : Half) (dataDone : Bool) (s : State) :
    lastBreath hold dataDone s = breathEnd (breathMedia dataDone (breathDark hold s)) := by
  simp only [lastBreath, breathEnd, breathDark, breathBefore]

section
variable (hold : Half) (s : State)

theorem breathBefore_running : (breathBefore hold s).pev.running = false := by
  rw [breathBefore, annToRec_pev, swapAbort_pev]

theorem breathDark_sys : (breathDark hold s).sys.mode = .lastBreath ∧ (breathDark hold s).sys.power = .lastBreath ∧
    (breathDark hold s).sys.outEn = false := by
  rw [breathDark]
  simp only [pnlCut_sys, outputsOff_sys, and_self]

theorem breathDark_running : (breathDark hold s).pev.running = false := by
  rw [breathDark, pnlCut_pev, outputsOff_pev, breathBefore_running]

theorem breathDark_quiet (c : Fin 16) : (breathDark hold s).ui[c].excOn = false ∧ (breathDark hold s).ui[c].txsOn = false := by
  rw [breathDark, pnlCut_ui]
  exact outputsOff_quiet _ c

/-- Nothing is driven, excited or supplied in LAST_BREATH, and no scan runs. -/
def Dark (s : State) : Prop :=
  s.sys.mode = .lastBreath ∧ s.sys.power = .lastBreath ∧ s.sys.outEn = false ∧ s.pev.running = false ∧
  ∀ c : Fin 16, s.ui[c].excOn = false ∧ s.ui[c].txsOn = false

theorem breathDark_dark : Dark (breathDark hold s) := by
  obtain ⟨hmode, hpower, hout⟩ := breathDark_sys hold s
  exact ⟨hmode, hpower, hout, breathDark_running hold s, breathDark_quiet hold s⟩

end

theorem Dark.breathMedia {s : State} (dataDone : Bool) (h : Dark s) : Dark (breathMedia dataDone s) := by
  unfold Dark
  rwa [breathMedia_sys, breathMedia_pev, breathMedia_ui]

theorem Dark.breathEnd {s : State} (h : Dark s) : Dark (breathEnd s) := h

theorem breathEnd_shown (s : State) : (breathEnd s).sys.pins.faultLow = true ∧ (breathEnd s).sys.pins.mmcPwr = false ∧
    (breathEnd s).sys.pins.presOut = false ∧ (breathEnd s).sup.breathStep = 7 := ⟨rfl, rfl, rfl, rfl⟩

/-- Settles O4: LAST_BREATH makes the module dark and ends with the contacts' levels; its restart is `startBegin`. -/
theorem lastBreathEndsInSleepAndRestarts : Obligations.LastBreathEndsInSleepAndRestarts := by
  refine ⟨fun s hold d hp hpf hlow hmode => .of_guard rfl ⟨hp, hpf, hlow, hmode⟩ ?_, fun s hp hmode hfeed => ?_⟩
  · rw [lastBreath_eq]
    obtain ⟨hentered, hpower, hout, hscan, hquiet⟩ := ((breathDark_dark hold s).breathMedia d).breathEnd
    obtain ⟨hfault, hmmc, hpres, hstep⟩ := breathEnd_shown (breathMedia d (breathDark hold s))
    exact ⟨hentered, hpower, hfault, hmmc, hpres, hout, hstep, hscan, hquiet⟩
  · obtain ⟨hgood, hrst, -⟩ := s.powered_iff.mp hp
    exact .of_guard rfl ⟨hp, hmode, hfeed⟩ ⟨rfl, rfl, startBegin_powered s hgood hrst, rfl, rfl⟩

/-! ### One region changed -/

section
variable (s : State) (r : Fin 5) (g : Region → Region)

@[simp] theorem State.setRegion_self : (s.setRegion r g).sys.regions[r] = g s.sys.regions[r] := Vector.getElem_set_self _

theorem State.setRegion_other (e : Fin 5) (h : e ≠ r) : (s.setRegion r g).sys.regions[e] = s.sys.regions[e] :=
  Vector.getElem_set_ne r.isLt e.isLt fun heq => h (Fin.ext heq.symm)

end

/-- The regions alone change where each is changed in turn. -/
theorem setRegions_sys (g : Region → Region) (l : List (Fin 5)) (s : State) :
    ∃ rs, (l.foldl (fun a r => a.setRegion r g) s).sys = { s.sys with regions := rs } := by
  induction l generalizing s with
  | nil => exact ⟨s.sys.regions, rfl⟩
  | cons r l ih => exact ih (s.setRegion r g)

/-! ### DOZE (R74) -/

section
variable (r : Fin 5) (s : State)

theorem dozeUp_of_dozing (h : s.sys.regions[r].dozing = true) :
    dozeUp r s = s.setRegion r fun g => { g with st := if g.hold then .held else .init, dozing := false } := if_pos h

theorem dozeUp_of_awake (h : s.sys.regions[r].dozing = false) : dozeUp r s = s := if_neg (Bool.eq_false_iff.mp h)

/-- Powering a region up changes no other part of the module level. -/
theorem dozeUp_sys : ∃ rs, (dozeUp r s).sys = { s.sys with regions := rs } := by
  cases h : s.sys.regions[r].dozing
  · exact ⟨s.sys.regions, by rw [dozeUp_of_awake r s h]⟩
  · exact ⟨_, by rw [dozeUp_of_dozing r s h]; rfl⟩

theorem dozeUp_power : (dozeUp r s).sys.power = s.sys.power := by
  obtain ⟨rs, h⟩ := dozeUp_sys r s
  rw [h]

theorem dozeUp_dozeEn : (dozeUp r s).sys.dozeEn = s.sys.dozeEn := by
  obtain ⟨rs, h⟩ := dozeUp_sys r s
  rw [h]

theorem dozeUp_dozing : (dozeUp r s).sys.regions[r].dozing = false := by
  cases h : s.sys.regions[r].dozing
  · rw [dozeUp_of_awake r s h, h]
  · rw [dozeUp_of_dozing r s h, State.setRegion_self]

theorem dozeUp_other (e : Fin 5) (h : e ≠ r) : (dozeUp r s).sys.regions[e] = s.sys.regions[e] := by
  unfold dozeUp
  split
  · exact s.setRegion_other r _ e h
  · rfl

end

theorem runs_dozeEnable {s : State} (src : Source) (hpower : s.sys.power = .run) (hmode : s.sys.mode = .inService) :
    Runs (.dozeEnable src true) s fun t => t.sys = { s.sys with dozeEn := true, power := .doze } ∧ Only [.sys] s t := by
  refine ⟨_, rfl, ?_, dozeEnable_only true s⟩
  rw [dozeEnable, dozeSync, if_pos rfl, if_pos ⟨hpower, hmode⟩]
  rfl

section
variable {s : State} (hpower : s.sys.power = .doze)
include hpower

theorem runs_dozeDisable (src : Source) : Runs (.dozeEnable src false) s fun t =>
    t.sys.power = .run ∧ t.sys.dozeEn = false ∧ t.sys.regions[rKEP].dozing = false ∧ t.sys.regions[rFCE].dozing = false ∧
    Only [.sys] s t := by
  have hup : dozeEnable false s =
      dozeUp rFCE (dozeUp rKEP (State.setPower { s with sys := { s.sys with dozeEn := false } } .run)) := by
    rw [dozeEnable, dozeSync, if_neg Bool.false_ne_true, if_pos hpower]
  refine ⟨_, rfl, ?_, ?_, ?_, ?_, dozeEnable_only false s⟩
  · rw [hup, dozeUp_power, dozeUp_power]
    rfl
  · rw [hup, dozeUp_dozeEn, dozeUp_dozeEn]
    rfl
  · rw [hup, dozeUp_other rFCE _ rKEP (by decide), dozeUp_dozing]
  · rw [hup, dozeUp_dozing]

/-- A ready region without work powers down; ACQ goes on, and the eMMC is left alone. -/
theorem runs_dozePowerDown (fce : Bool) (hup : regionUp (if fce then rFCE else rKEP) s = true)
    (hidle : (if fce then fceBusy s else kepBusy s) = false) : Runs (.dozePowerDown fce) s fun t =>
      t.sys.regions[if fce then rFCE else rKEP].st = .down ∧ t.sys.regions[if fce then rFCE else rKEP].dozing = true ∧
      t.sys.regions[rACQ] = s.sys.regions[rACQ] ∧ t.mmc = s.mmc := by
  refine .of_guard rfl ⟨hpower, hup, congrArg not hidle⟩ ⟨?_, ?_, ?_, rfl⟩
  · exact congrArg Region.st (s.setRegion_self _ _)
  · exact congrArg Region.dozing (s.setRegion_self _ _)
  · exact s.setRegion_other _ _ rACQ (by cases fce <;> decide)

theorem runs_dozePowerUp (fce : Bool) (hdoze : (s.sys.regions[if fce then rFCE else rKEP]).dozing = true)
    (hfree : (s.sys.regions[if fce then rFCE else rKEP]).hold = false) : Runs (.dozePowerUp fce) s fun t =>
      (t.sys.regions[if fce then rFCE else rKEP]).st = .init ∧ (t.sys.regions[if fce then rFCE else rKEP]).dozing = false ∧
      Only [.sys] s t := by
  refine .of_guard rfl hpower ⟨?_, dozeUp_dozing _ _, dozeUp_only _ _⟩
  rw [dozeUp_of_dozing _ _ hdoze, State.setRegion_self, hfree]
  rfl

end

/-! ### A request for DORMANT (R75) -/

theorem dormantCode_of_barred (s : State) (h : s.identFlag 1 = false) : dormantCode s = 1 := if_pos (.inr (congrArg not h))

theorem dormantCode_of_permitted (s : State) (hbare : s.bare = false) (h : s.identFlag 1 = true) : dormantCode s =
    if s.isManager then 2 else if s.isPaired ∧ s.activeUnit then 3 else if alarmHeld s then 4 else 0 := by
  simp only [dormantCode, hbare, h, Bool.not_true, Bool.false_eq_true, or_self, if_false]

section
variable {s : State} (hbare : s.bare = false) (hflag : s.identFlag 1 = true)
include hbare hflag

theorem dormantCode_of_manager (hman : s.isManager = true) : dormantCode s = 2 := by
  rw [dormantCode_of_permitted s hbare hflag, if_pos hman]

theorem dormantCode_of_active (hman : s.isManager = false) (hpair : s.isPaired = true) (hact : s.activeUnit = true) :
    dormantCode s = 3 := by
  rw [dormantCode_of_permitted s hbare hflag, if_neg (Bool.eq_false_iff.mp hman), if_pos ⟨hpair, hact⟩]

theorem dormantCode_of_unpaired (hman : s.isManager = false) (hpair : s.isPaired = false) :
    dormantCode s = if alarmHeld s then 4 else 0 := by
  rw [dormantCode_of_permitted s hbare hflag, if_neg (Bool.eq_false_iff.mp hman),
    if_neg fun h => Bool.eq_false_iff.mp hpair h.1]

end

/-- In service a request shows its code, and code 0 accepts it. -/
theorem runs_dormantRequest {s : State} (src : Source) {code : Nat} {b : Bool} (hmode : s.sys.mode = .inService)
    (hpower : s.sys.power = .run) (hcode : dormantCode s = code) (hb : (code == 0) = b) :
    Runs (.dormantRequest src) s fun t => t.sys = { s.sys with lastReq := code, dormantReq := b } := by
  refine .of_not_guard rfl ?_ ?_
  · simp only [hmode, hpower, beq_self_eq_true, Bool.true_or, Bool.and_self, Bool.not_true, Bool.false_eq_true, and_false,
      not_false_eq_true]
  · rw [hcode, hb]

/-! ### DORMANT is entered (R73, R75) -/

theorem foldl_keeps_power {α : Type} (f : State → α → State) (h : ∀ u x, (f u x).sys.power = u.sys.power) (l : List α)
    (s : State) : (l.foldl f s).sys.power = s.sys.power := by
  induction l generalizing s with
  | nil => rfl
  | cons x l ih => exact (ih (f s x)).trans (h s x)

section
variable (s : State)

theorem canReset_power (k : Fin 4) : (canReset k s).sys.power = s.sys.power := rfl

theorem laneDown_sys (l : Fin 2) : (laneDown l s).sys = s.sys := (laneDown_only l s).same .sys rfl

theorem timEnter_sys (st : TimState) : (timEnter st s).sys = s.sys := (timEnter_only st s).same .sys rfl

theorem lnkReset_power : (lnkReset s).sys.power = s.sys.power := by
  simp only [lnkReset, State.setLvn_sys, timEnter_sys]
  rw [foldl_keeps_power _ (fun u k => ?_), laneDown_sys, laneDown_sys]
  exact canReset_power u k

theorem fceReset_power : (fceReset s).sys.power = s.sys.power := by
  simp only [fceReset, pnlFceReset, State.setPnl, pnlCut_sys]

/-- The reset of a region's blocks is no change of the power state. -/
theorem regionClear_power (r : Fin 5) : (regionClear r s).sys.power = s.sys.power := by
  unfold regionClear
  split
  · exact congrArg Sys.power ((acqReset_only s).same .sys rfl)
  split
  · exact congrArg Sys.power ((almReset_only s).same .sys rfl)
  split
  · exact lnkReset_power s
  split
  · exact congrArg Sys.power ((kepReset_only s).same .sys rfl)
  · exact fceReset_power s

theorem regionsDown_power : (regionsDown s).sys.power = s.sys.power := by
  rw [regionsDown, foldl_keeps_power _ (fun u r => ?_)]
  exact regionClear_power u r

theorem driveSafe_sys : (driveSafe s).sys = s.sys := (driveSafe_only s).same .sys rfl

theorem dormantEnter_sys : (dormantEnter s).sys.power = .dormant ∧ (dormantEnter s).sys.dormantReq = false ∧
    (dormantEnter s).sys.pllLock = false ∧ (dormantEnter s).sys.pins.presOut = false := by
  have hoff : ∀ u : State, (islandsOff u).sys = u.sys := fun _ => rfl
  have hset : ∀ u : State, (u.setPower .dormant).sys.power = .dormant := fun _ => rfl
  simp only [dormantEnter, State.setMmc_sys, cellNotify_sys, hoff, regionsDown_power, driveSafe_sys, hset, and_self]

end

theorem runs_dormantEntry {s : State} (hreq : s.sys.dormantReq = true) (hmode : s.sys.mode = .inService) :
    Runs .dormantEntry s fun t =>
      t.sys.power = .dormant ∧ t.sys.dormantReq = false ∧ t.sys.pllLock = false ∧ t.sys.pins.presOut = false :=
  .of_guard rfl ⟨hreq, hmode⟩ (dormantEnter_sys s)

/-! ### The module wakes (R76) -/

theorem pairTrain_sys (s : State) : (pairTrain s).sys = s.sys := (pairTrain_only s).same .sys rfl

theorem outputsAtWake_sys (s : State) :
    ((List.finRange 16).foldl uiApply (aoLetGo (dioReleaseAll s))).sys = s.sys :=
  (Only.foldl (l := [.ui, .ao, .dio]) (fun u c => (uiApply_only u c).mono rfl)
    (Only.after (aoLetGo_only _) rfl ((dioReleaseAll_only s).mono rfl))).same .sys rfl

/-- The start goes on from step 7 with the source of the wake shown, and no output driven. -/
def Woken (code : Nat) (s : State) : Prop :=
  s.sys.power = .start ∧ s.sys.mode = .starting ∧ s.sys.step = 7 ∧ s.sys.wakeSrc = code ∧ s.sys.pllLock = true ∧
  s.sys.outEn = false

theorem Woken.restat {code : Nat} {s : State} (h : Woken code s) : Woken code (restat s) := h

theorem wakeUp_woken (code : Nat) (s : State) : Woken code (wakeUp code s) := by
  rw [wakeUp]
  refine Woken.restat ?_
  unfold Woken
  simp only [pairTrain_sys, cellNotify_sys, outputsAtWake_sys, State.setImz_sys, State.setMmc_sys]
  obtain ⟨rs, hrs⟩ := setRegions_sys (fun g => { g with st := if g.hold then .held else .init }) (List.finRange 5) _
  rw [hrs]
  exact ⟨rfl, rfl, rfl, rfl, rfl, rfl⟩

/-- A watched source that fires wakes the module, and it is shown (R76, R77). -/
theorem runs_dormantWake_watched {s : State} (n : BitVec 9) (hdormant : s.sys.power = .dormant)
    (hable : watchable n.toNat = true) (hwatch : watched s n.toNat = true) :
    Runs (.dormantWake (some n)) s (Woken n.toNat) := by
  refine .of_guard rfl hdormant ?_
  dsimp only
  rw [if_pos ⟨hable, hwatch⟩]
  exact wakeUp_woken _ _

theorem runs_dormantWake_unwatched {s : State} (n : BitVec 9) (hdormant : s.sys.power = .dormant)
    (hwatch : watched s n.toNat = false) : Runs (.dormantWake (some n)) s fun t => t = s := by
  refine .of_guard rfl hdormant (if_neg ?_)
  rintro ⟨-, hwatched⟩
  exact Bool.eq_false_iff.mp hwatch hwatched

theorem runs_dormantWake_feed {s : State} (hdormant : s.sys.power = .dormant) : Runs (.dormantWake none) s (Woken 0x3FE) :=
  .of_guard rfl hdormant (wakeUp_woken _ _)

/-- Settles O5: row by row, each on what its operation leaves in the module-level state. -/
theorem dozeAndDormantPowerTheRegions : Obligations.DozeAndDormantPowerTheRegions := by
  intro s src
  refine ⟨runs_dozeEnable src, fun hdoze => runs_dozeDisable hdoze src, fun hdoze hup hidle => ?_,
    fun hdoze hup hidle => ?_, fun fce hdoze => runs_dozePowerUp hdoze fce,
    fun hmode hpower => ?_, runs_dormantEntry,
    fun hdormant => .of_guard rfl hdormant (wakeUp_woken 0x3FE s),
    fun n hdormant => ⟨fun hable hwatch => ?_, runs_dormantWake_unwatched n hdormant, ?_⟩⟩
  · obtain ⟨t, hnext, hst, hdozing, hacq, hmmc⟩ := runs_dozePowerDown hdoze false hup hidle
    exact ⟨t, hnext, hst, hdozing, hacq, congrArg Mmc.user hmmc⟩
  · obtain ⟨t, hnext, hst, hdozing, hacq, -⟩ := runs_dozePowerDown hdoze true hup hidle
    exact ⟨t, hnext, hst, hdozing, hacq⟩
  · have hbare : s.bare = false := by rw [State.bare, hmode]; rfl
    refine ⟨fun hflag => runs_dormantRequest src hmode hpower (dormantCode_of_barred s hflag) rfl,
      fun hflag hman => runs_dormantRequest src hmode hpower (dormantCode_of_manager hbare hflag hman) rfl,
      fun hflag hman hpair hact => runs_dormantRequest src hmode hpower (dormantCode_of_active hbare hflag hman hpair hact) rfl,
      fun hflag hman hpair halarm => runs_dormantRequest src hmode hpower ?_ rfl,
      fun hflag hman hpair halarm => runs_dormantRequest src hmode hpower ?_ rfl⟩
    · rw [dormantCode_of_unpaired hbare hflag hman hpair, if_pos halarm]
    · rw [dormantCode_of_unpaired hbare hflag hman hpair, if_neg (Bool.eq_false_iff.mp halarm)]
  · obtain ⟨t, hnext, hpower, -, hstep, hsrc, hpll, -⟩ := runs_dormantWake_watched n hdormant hable hwatch
    exact ⟨t, hnext, hpower, hstep, hsrc, hpll⟩
  · obtain ⟨t, hnext, hpower, -, hstep, hsrc, -⟩ := runs_dormantWake_feed hdormant
    exact ⟨t, hnext, hpower, hstep, hsrc⟩

end Sys2Proof.Machine
end

section
/-! Proofs about the universal inputs: test windows, loopbacks and commands, calibration, references, NE 43, transmitter
supplies, block stops and shared excitation (R118 to R131, R482). -/
namespace Sys2Proof.Machine

open Sys2Proof

/-! ### Bits of the conditions -/

theorem bit_or {k : Nat} (a b : BitVec k) (i : Nat) : bit (a ||| b) i = (bit a i || bit b i) := BitVec.getLsbD_or

theorem bit_and {k : Nat} (a b : BitVec k) (i : Nat) : bit (a &&& b) i = (bit a i && bit b i) := BitVec.getLsbD_and

theorem bit_condBit (i j : Nat) (b : Bool) : bit (condBit i b) j = (b && (decide (j < 17) && decide (i = j))) := by
  cases b
  · exact BitVec.getLsbD_zero
  · rw [bit, condBit, if_pos rfl, BitVec.getLsbD_ofNat, Nat.testBit_two_pow, Bool.true_and]

/-- A condition that a mask drops and that is judged again reads as it is judged. -/
theorem bit_judged (d mask : BitVec 17) (i : Nat) (b : Bool) (hi : i < 17) (hmask : bit mask i = false) :
    bit ((d &&& mask) ||| condBit i b) i = b := by
  simp only [bit_or, bit_and, bit_condBit, hmask, hi, decide_true, Bool.and_true, Bool.and_false, Bool.false_or]

/-! ### New conditions of a channel (R119, R120) -/

section
variable (u : Ui) (d : BitVec 17)

/-- New conditions touch DSTAT, DIAG, the quality and the value. -/
theorem Ui.setConds_eq : u.setConds d =
    { u with dstat := d, diag := (u.setConds d).diag, qual := (u.setConds d).qual, val := (u.setConds d).val } := by
  unfold Ui.setConds
  split <;> rfl

@[simp] theorem Ui.setConds_dstat : (u.setConds d).dstat = d := by rw [u.setConds_eq]
@[simp] theorem Ui.setConds_phase : (u.setConds d).phase = u.phase := by rw [u.setConds_eq]
@[simp] theorem Ui.setConds_leads : (u.setConds d).leads = u.leads := by rw [u.setConds_eq]
@[simp] theorem Ui.setConds_tcLoop : (u.setConds d).tcLoop = u.tcLoop := by rw [u.setConds_eq]
@[simp] theorem Ui.setConds_tcTests : (u.setConds d).tcTests = u.tcTests := by rw [u.setConds_eq]
@[simp] theorem Ui.setConds_tcSum : (u.setConds d).tcSum = u.tcSum := by rw [u.setConds_eq]
@[simp] theorem Ui.setConds_settle : (u.setConds d).settle = u.settle := by rw [u.setConds_eq]
@[simp] theorem Ui.setConds_txsOn : (u.setConds d).txsOn = u.txsOn := by rw [u.setConds_eq]
@[simp] theorem Ui.setConds_excOn : (u.setConds d).excOn = u.excOn := by rw [u.setConds_eq]
@[simp] theorem Ui.setConds_excWait : (u.setConds d).excWait = u.excWait := by rw [u.setConds_eq]
@[simp] theorem Ui.setConds_refBad : (u.setConds d).refBad = u.refBad := by rw [u.setConds_eq]

/-- Where no failure stands and the quality is judged, TXS_OVL is BAD_SENSOR, and the value the last good one. -/
theorem Ui.setConds_overload (hrated : u.rated = true) (hfail : u.failQ = 0) (hd : bit d 12 = true) :
    (u.setConds d).qual = 2 ∧ (u.setConds d).val = u.lastGood := by
  have hnoted : (u.note d).rated = true := hrated
  have hqual : (u.note d).qualNow = 2 := by
    simp only [Ui.qualNow, Ui.note, hfail, ne_eq, not_true_eq_false, if_false, qualOf, condSensor, hd, Bool.or_true,
      Bool.true_or, if_true]
  rw [Ui.setConds, if_pos hnoted]
  exact ⟨hqual, if_pos (.inl hqual)⟩

end

/-! ### A channel and what it answers -/

theorem UiPhase.code_eq_run {p : UiPhase} (h : p.code = 3) : p = .run := by revert h; cases p <;> decide

theorem UiPhase.code_eq_listen {p : UiPhase} (h : p.code = 4) : p = .listen := by revert h; cases p <;> decide

/-- A code below 5 is the phase's: what lies over a phase reads 5 to 7. -/
theorem uiPhase_of_code {s : State} {c : Fin 16} (h : uiCode s c < 5) : s.ui[c].phase.code = uiCode s c := by
  unfold uiCode at h ⊢
  split at h
  · omega
  next hused =>
    split at h
    · omega
    next hpresent =>
      split at h
      · omega
      next hgoes => rw [if_neg hused, if_neg hpresent, if_neg hgoes]

/-- An island that converts is in RUN or LISTEN (R123). -/
theorem uiConverting_phase {s : State} {c : Fin 16} (h : uiConverting s c = true) :
    s.ui[c].phase = .run ∨ s.ui[c].phase = .listen := by
  have hcode : uiCode s c = 3 ∨ uiCode s c = 4 := by
    simpa only [uiConverting, Bool.or_eq_true, beq_iff_eq] using h
  have hphase : s.ui[c].phase.code = uiCode s c := uiPhase_of_code (by omega)
  rcases hcode with h3 | h4
  · exact .inl (UiPhase.code_eq_run (hphase.trans h3))
  · exact .inr (UiPhase.code_eq_listen (hphase.trans h4))

theorem isTc_of_isResistive {t : Nat} (h : isResistive t = true) : isTc t = false := by
  simp only [isResistive, isRtd, Bool.or_eq_true, Bool.and_eq_true, decide_eq_true_eq, beq_iff_eq] at h
  simp only [isTc, Bool.and_eq_false_iff, decide_eq_false_iff_not]
  omega

theorem uiNotify_ui (c : Fin 16) (s0 s1 : State) : (uiNotify c s0 s1).ui = s1.ui := (uiNotify_only c s0 s1).same .ui rfl

/-- A row that changes one channel, with its event, leaves the other channels and every other part (R133). -/
theorem Runs.of_uiChange {x : Instr} {s : State} {c : Fin 16} {f : Ui → Ui} {P : State → Prop}
    (h : exec x s = .next (uiNotify c s (s.setUi c f)))
    (hP : ∀ t : State, t.ui[c] = f s.ui[c] → (∀ d : Fin 16, d ≠ c → t.ui[d] = s.ui[d]) → Only [.ui, .evr] s t → P t) :
    Runs x s P := by
  refine ⟨_, h, hP _ ?_ (fun d hd => ?_) ?_⟩
  · rw [uiNotify_ui, State.setUi_ui_self]
  · rw [uiNotify_ui, State.setUi_ui_other s c d f hd]
  · exact Only.after (uiNotify_only _ _ _) rfl ((s.setUi_only c f).mono rfl)

/-! ### Test windows (R118) -/

section
variable {s : State} {c : Fin 16} (w : UiWindow) (hrun : uiCode s c = 3)
include hrun

theorem uiWindow_of_tc (htc : isTc s.ui[c].type = true) :
    uiWindow s c w = s.setUi c fun u => { u.tcWindow w.loop with testReq := false } := by
  rw [uiWindow, if_neg (Decidable.not_not.mpr hrun), if_pos htc]

theorem uiWindow_of_resistive (htype : isResistive s.ui[c].type = true) (hwire : s.ui[c].wire ≠ 0) :
    uiWindow s c w = s.setUi c fun u => { u.leadWindow w with testReq := false } := by
  rw [uiWindow, if_neg (Decidable.not_not.mpr hrun), if_neg (Bool.eq_false_iff.mp (isTc_of_isResistive htype)),
    if_pos ⟨htype, hwire⟩]

end

theorem Ui.trendBase_tcLoop (u : Ui) (loop : Nat) (degraded : Bool) : (u.trendBase loop degraded).tcLoop = u.tcLoop := by
  unfold Ui.trendBase
  dsimp only
  split
  · rfl
  · split <;> rfl

theorem Ui.tcWindow_tcLoop (u : Ui) (loop : Nat) : (u.tcWindow loop).tcLoop = loop := by
  simp only [Ui.tcWindow, Ui.setConds_tcLoop, Ui.trendBase_tcLoop]

/-- A loop of more than 10 kΩ is a broken thermocouple (R119). -/
theorem Ui.tcWindow_open (u : Ui) (loop : Nat) : bit (u.tcWindow loop).dstat 5 = decide (100000 < loop) := by
  rw [Ui.tcWindow, Ui.setConds_dstat, bit_or, bit_judged _ _ _ _ (by decide) rfl, bit_condBit]
  simp only [show ¬ 6 = 5 by decide, decide_false, Bool.and_false, Bool.or_false]

theorem Ui.leadWindow_leads (u : Ui) (w : UiWindow) (hwire : u.wire = 2) :
    (u.leadWindow w).leads = #v[w.r1, w.r2, w.r3, w.r4] := by
  rw [Ui.leadWindow, Ui.setConds_leads]
  exact if_neg (by omega)

section
variable {s : State} {c : Fin 16} (w : UiWindow) (hrun : uiCode s c = 3)
include hrun

theorem runs_uiTestWindow_tc (htc : isTc s.ui[c].type = true) : Runs (.uiTestWindow c w) s fun t =>
    t.ui[c].tcLoop = w.loop ∧ t.ui[c].testReq = false ∧ bit t.ui[c].dstat 5 = decide (100000 < w.loop) ∧
    (∀ d : Fin 16, d ≠ c → t.ui[d] = s.ui[d]) ∧ Only [.ui, .evr] s t := by
  refine .of_uiChange (congrArg (Host.Outcome.next ∘ uiNotify c s) (uiWindow_of_tc w hrun htc))
    fun t hself hother honly => ?_
  rw [hself]
  exact ⟨Ui.tcWindow_tcLoop _ _, rfl, Ui.tcWindow_open _ _, hother, honly⟩

theorem runs_uiTestWindow_leads (htype : isResistive s.ui[c].type = true) (hwire : s.ui[c].wire = 2) :
    Runs (.uiTestWindow c w) s fun t =>
      t.ui[c].leads = #v[w.r1, w.r2, w.r3, w.r4] ∧ t.ui[c].testReq = false ∧
      (∀ d : Fin 16, d ≠ c → t.ui[d] = s.ui[d]) ∧ Only [.ui, .evr] s t := by
  have hwindow := uiWindow_of_resistive w hrun htype (by omega)
  refine .of_uiChange (congrArg (Host.Outcome.next ∘ uiNotify c s) hwindow) fun t hself hother honly => ?_
  rw [hself]
  exact ⟨Ui.leadWindow_leads _ w hwire, rfl, hother, honly⟩

end

/-! ### Commands of `UI_CMD` (R104, R118, R122, R123) -/

section
variable {s : State} {c : Fin 16} (src : Source) (f : Ui → Ui)

theorem uiCmdRefused_of_answering (h : uiCode s c < 4) : uiCmdRefused s c = false := decide_eq_false (Nat.not_le.mpr h)

theorem uiCommand_of_answering (h : uiCode s c < 4) : uiCommand src c f s = uiNotify c s (s.setUi c f) :=
  if_neg (Bool.eq_false_iff.mp (uiCmdRefused_of_answering h))

theorem uiCommand_of_refusing (h : 4 ≤ uiCode s c) : uiCommand src c f s = logWerr 8 src (uiAddr c 0x80) s :=
  if_pos (decide_eq_true h)

/-- A command that the channel does not answer is logged, and no more. -/
theorem runs_uiCommand_refused {x : Instr} (hexec : exec x s = .next (uiCommand src c f s)) (h : 4 ≤ uiCode s c) :
    Runs x s fun t => t.sys.werr.reason = 8 ∧ t.sys.werr.cnt = satInc 255 s.sys.werr.cnt ∧ Only [.sys] s t := by
  rw [uiCommand_of_refusing src f h] at hexec
  exact ⟨_, hexec, rfl, rfl, logWerr_only _ _ _ _⟩

end

theorem Ui.startCalib_of_converting {u : Ui} (h : u.phase = .run ∨ u.phase = .listen) :
    u.startCalib = { u with phase := .calibrating } := if_pos h

theorem Ui.txsSwitchOn_of_enabled {u : Ui} (h : u.txsEnabled = true) : u.txsSwitchOn = { u with txsOn := true } := if_pos h

section
variable {s : State} {c : Fin 16} (src : Source) (hanswers : uiCode s c < 4)
include hanswers

theorem runs_uiTestCmd : Runs (.uiTestCmd src c) s fun t =>
    t.ui[c] = { s.ui[c] with testReq := true } ∧ Only [.ui, .evr] s t :=
  .of_uiChange (congrArg Host.Outcome.next (uiCommand_of_answering src _ hanswers)) fun _ hself _ honly => ⟨hself, honly⟩

theorem runs_uiCalCmd (hrun : s.ui[c].phase = .run) : Runs (.uiCalCmd src c) s fun t =>
    t.ui[c] = { s.ui[c] with phase := .calibrating } ∧ (∀ d : Fin 16, d ≠ c → t.ui[d] = s.ui[d]) ∧ Only [.ui, .evr] s t :=
  .of_uiChange (congrArg Host.Outcome.next (uiCommand_of_answering src _ hanswers)) fun _ hself hother honly =>
    ⟨hself.trans (Ui.startCalib_of_converting (.inl hrun)), hother, honly⟩

theorem runs_uiTxsOn (htxs : s.ui[c].txsEnabled = true) : Runs (.uiTxsOn src c) s fun t =>
    t.ui[c] = { s.ui[c] with txsOn := true } ∧ Only [.ui, .evr] s t :=
  .of_uiChange (congrArg Host.Outcome.next (uiCommand_of_answering src _ hanswers)) fun _ hself _ honly =>
    ⟨hself.trans (Ui.txsSwitchOn_of_enabled htxs), honly⟩

end

theorem runs_uiTrendReset (s : State) (c : Fin 16) : Runs (.uiTrendReset c) s fun t =>
    t.ui[c].tcTests = 0 ∧ t.ui[c].tcSum = 0 ∧ bit t.ui[c].dstat 6 = false ∧
    (∀ d : Fin 16, d ≠ c → t.ui[d] = s.ui[d]) ∧ Only [.ui, .evr] s t := by
  refine .of_uiChange rfl fun t hself hother honly => ?_
  rw [hself, Ui.trendReset, Ui.setConds_tcTests, Ui.setConds_tcSum, Ui.setConds_dstat, bit_and]
  exact ⟨rfl, rfl, Bool.and_false _, hother, honly⟩

/-! ### Loopbacks (R482) -/

theorem testResult_tst (face depth chan st detail : Nat) (s : State) : (testResult face depth chan st detail s).tst =
    { s.tst with detail := min 0xFFFF detail, st := st, face := face, depth := depth, chan := chan } :=
  (ageEvent_only _ _ _ _).same .tst rfl

theorem testResult_ui (face depth chan st detail : Nat) (s : State) : (testResult face depth chan st detail s).ui = s.ui :=
  (testResult_only face depth chan st detail s).same .ui rfl

section
variable {s : State} {c : Fin 16} (src : Source) (hanswers : uiCode s c < 4) (pass : Bool)
include hanswers

theorem uiLoop_of_answering (depth : Nat) : uiLoop src c depth pass s =
    testResult 0 depth c.val (passCode pass) 0
      (if depth = 1 then s.setUi c fun u => { u with hold := 2, crumbed := true } else s) :=
  if_neg (Bool.eq_false_iff.mp (uiCmdRefused_of_answering hanswers))

/-- A crumb holds the point for two conversions. -/
theorem runs_uiCrumb : Runs (.uiCrumb src c pass) s fun t =>
    t.ui[c].hold = 2 ∧ t.tst.st = (if pass then 2 else 3) ∧ t.tst.face = 0 ∧ t.tst.depth = 1 ∧ t.tst.chan = c.val ∧
    ∀ d : Fin 16, d ≠ c → t.ui[d] = s.ui[d] := by
  refine ⟨_, congrArg Host.Outcome.next (uiLoop_of_answering src hanswers pass 1), ?_⟩
  simp only [if_true, testResult_tst, testResult_ui, State.setUi_ui_self]
  exact ⟨trivial, rfl, trivial, trivial, trivial, fun d hd => s.setUi_ui_other c d _ hd⟩

theorem runs_uiBarrier : Runs (.uiBarrier src c pass) s fun t =>
    t.ui = s.ui ∧ t.tst.st = (if pass then 2 else 3) ∧ t.tst.depth = 2 ∧ t.tst.chan = c.val :=
  ⟨_, congrArg Host.Outcome.next (uiLoop_of_answering src hanswers pass 2), testResult_ui _ _ _ _ _ _,
    congrArg Tst.st (testResult_tst _ _ _ _ _ _), congrArg Tst.depth (testResult_tst _ _ _ _ _ _),
    congrArg Tst.chan (testResult_tst _ _ _ _ _ _)⟩

end

/-! ### Calibration, references and NE 43 while the island converts (R119, R123) -/

section
variable {s : State} {c : Fin 16} (hconv : uiConverting s c = true)
include hconv

theorem runs_uiCalInterval (hint : fld s.ui[c].use[0] 8 8 ≠ 0) : Runs (.uiCalInterval c) s fun t =>
    t.ui[c] = { s.ui[c] with phase := .calibrating } ∧ (∀ d : Fin 16, d ≠ c → t.ui[d] = s.ui[d]) ∧ Only [.ui, .evr] s t :=
  .of_uiChange (congrArg Host.Outcome.next (if_pos ⟨hint, hconv⟩)) fun _ hself hother honly =>
    ⟨hself.trans (Ui.startCalib_of_converting (uiConverting_phase hconv)), hother, honly⟩

theorem runs_uiRefCheck (ppm : Nat) (htype : s.ui[c].type ≠ 0) : Runs (.uiRefCheck c ppm) s fun t =>
    bit t.ui[c].dstat 15 = decide (200 < ppm) ∧ t.ui[c].refBad = decide (1000 < ppm) ∧
    (∀ d : Fin 16, d ≠ c → t.ui[d] = s.ui[d]) ∧ Only [.ui, .evr] s t := by
  refine .of_uiChange (congrArg Host.Outcome.next (if_pos ⟨htype, hconv⟩)) fun t hself hother honly => ?_
  rw [hself, Ui.setConds_dstat, Ui.setConds_refBad]
  exact ⟨bit_judged _ _ _ _ (by decide) rfl, rfl, hother, honly⟩

theorem runs_uiNe43Confirm (past : BitVec 3) : Runs (.uiNe43Confirm c past) s fun t =>
    t.ui[c].dstat = s.ui[c].dstat ||| condBit 7 (bit past 0 && s.ui[c].neLow) |||
      condBit 8 (bit past 1 && s.ui[c].neHigh) ||| condBit 10 (bit past 2 && s.ui[c].neOpen) ∧
    (∀ d : Fin 16, d ≠ c → t.ui[d] = s.ui[d]) ∧ Only [.ui, .evr] s t := by
  refine .of_uiChange (congrArg Host.Outcome.next (if_pos hconv)) fun t hself hother honly => ⟨?_, hother, honly⟩
  rw [hself, Ui.setConds_dstat]

end

/-! ### Transmitter supplies (R122) -/

section
variable {s : State} {c : Fin 16} (htxs : s.ui[c].txsEnabled = true)
include htxs

theorem runs_uiTxsOverload (hon : s.ui[c].txsOn = true) : Runs (.uiTxsOverload c) s fun t =>
    t.ui[c].txsOn = false ∧ t.ui[c].dstat = s.ui[c].dstat ||| condBit 12 true ∧
    (s.ui[c].rated = true → s.ui[c].failQ = 0 → t.ui[c].qual = 2 ∧ t.ui[c].val = s.ui[c].lastGood) ∧
    (∀ d : Fin 16, d ≠ c → t.ui[d] = s.ui[d]) ∧ Only [.ui, .evr] s t := by
  refine .of_uiChange (congrArg Host.Outcome.next (if_pos ⟨hon, htxs⟩)) fun t hself hother honly => ?_
  have hovl : bit (s.ui[c].dstat ||| condBit 12 true) 12 = true := by
    rw [bit_or, bit_condBit]
    exact Bool.or_true _
  rw [hself, Ui.setConds_dstat, Ui.setConds_txsOn]
  exact ⟨rfl, rfl, fun hrated hfail => Ui.setConds_overload _ _ hrated hfail hovl, hother, honly⟩

theorem runs_uiTxsRetry (hovl : bit s.ui[c].dstat 12 = true) (hretry : fld s.ui[c].use[1] 12 4 ≠ 0)
    (hdrive : uiMayDrive s = true) (hlisten : uiListens s c = false) : Runs (.uiTxsRetry c) s fun t =>
      t.ui[c] = { s.ui[c] with txsOn := true } ∧ Only [.ui] s t :=
  .of_guard rfl ⟨hovl, hretry, htxs, hdrive, hlisten⟩ ⟨s.setUi_ui_self c _, s.setUi_only c _⟩

end

/-! ### Block stops (R131) -/

theorem uiBlkWrite_uiBlk (stop : BitVec 2) (s : State) : (uiBlkWrite stop s).uiBlk = { stop := #v[bit stop 0, bit stop 1] } := by
  have hrel : ∀ (c : Prop) [Decidable c] (u : State) (b : Fin 2), (if c then uiRelease u b else u).uiBlk = u.uiBlk :=
    fun c _ u b => (Only.ite (c := c) (uiRelease_only u b) (Only.refl _ u)).same .uiBlk rfl
  have hnotify : ∀ u : State, ((List.finRange 16).foldl (fun a c => uiNotify c s a) u).uiBlk = u.uiBlk := fun u =>
    (Only.foldl (l := [.evr]) (fun a c => uiNotify_only c s a) (Only.refl _ u)).same .uiBlk rfl
  simp only [uiBlkWrite, hnotify, hrel]

theorem runs_uiBlockStop (stop : BitVec 2) (s : State) : Runs (.uiBlockStop stop) s fun t =>
    t.uiBlk.stop = #v[bit stop 0, bit stop 1] ∧ Only [.ui, .uiBlk, .evr] s t :=
  ⟨_, rfl, congrArg UiBlk.stop (uiBlkWrite_uiBlk stop s), (uiBlkWrite_only stop s).mono rfl⟩

/-! ### Shared excitation (R128) -/

/-- With less than 10 mV at the sensor the partner's excitation has ended, and the island drives its own. -/
theorem runs_uiSharedExcCheck {s : State} {c : Fin 16} (v : Int) (hwait : s.ui[c].excWait = true)
    (hlisten : s.ui[c].phase = .listen) (hdrive : uiMayDrive s = true) (hv : v.natAbs < 10000000) :
    Runs (.uiSharedExcCheck c v) s fun t =>
      t.ui[c].excWait = false ∧ t.ui[c].excOn = true ∧ t.ui[c].phase = .run ∧ t.ui[c].settle = 1 ∧
      (∀ d : Fin 16, d ≠ c → t.ui[d] = s.ui[d]) ∧ Only [.ui, .evr] s t := by
  refine .of_uiChange (congrArg Host.Outcome.next (if_pos ⟨hwait, hlisten, hdrive⟩)) fun t hself hother honly => ?_
  rw [hself, if_pos (.inl hv), Ui.setConds_excWait, Ui.setConds_excOn, Ui.setConds_phase, Ui.setConds_settle]
  exact ⟨rfl, rfl, rfl, rfl, hother, honly⟩

/-- Settles O12: row by row, each on what its change of the one channel leaves there. -/
theorem universalInputsTestAndGuard : Obligations.UniversalInputsTestAndGuard := by
  intro s c src
  refine ⟨fun w hrun => ⟨runs_uiTestWindow_tc w hrun, runs_uiTestWindow_leads w hrun⟩,
    fun hanswers => ⟨runs_uiTestCmd src hanswers, runs_uiCalCmd src hanswers, runs_uiTxsOn src hanswers,
      fun pass => ⟨runs_uiCrumb src hanswers pass, runs_uiBarrier src hanswers pass⟩⟩,
    fun hrefuses x hx => ?_, runs_uiCalInterval, fun ppm htype hconv => runs_uiRefCheck hconv ppm htype,
    fun past hconv => runs_uiNe43Confirm hconv past, fun hon htxs => runs_uiTxsOverload htxs hon,
    fun hovl hretry htxs => runs_uiTxsRetry htxs hovl hretry, runs_uiTrendReset s c, fun stop => runs_uiBlockStop stop s,
    runs_uiSharedExcCheck⟩
  rcases hx with rfl | rfl | rfl
  · exact runs_uiCommand_refused src _ rfl hrefuses
  · exact runs_uiCommand_refused src _ rfl hrefuses
  · exact runs_uiCommand_refused src _ rfl hrefuses

end Sys2Proof.Machine
end

section
/-! Proofs about the levels of the digital outputs: what a drive of one output can do, the rows that drive every output, and
block stops (R172 to R175, R190). -/
namespace Sys2Proof.Machine

open Sys2Proof

/-! ### One channel beside the others -/

/-- `u` keeps channel `c`, the groups, and every part but the digital channels': all that the level of `c` rests on. -/
structure KeepsDio (c : Fin 16) (s u : State) : Prop where
  chan : u.dio[c] = s.dio[c]
  groups : u.dioBlk.groups = s.dioBlk.groups
  only : Only [.dio, .dioBlk] s u

theorem KeepsDio.refl (c : Fin 16) (s : State) : KeepsDio c s s := ⟨rfl, rfl, Only.refl _ s⟩

theorem KeepsDio.trans {c : Fin 16} {s t u : State} (h : KeepsDio c s t) (k : KeepsDio c t u) : KeepsDio c s u :=
  ⟨k.chan.trans h.chan, k.groups.trans h.groups, h.only.trans k.only⟩

theorem setDio_keepsDio {c e : Fin 16} (h : e ≠ c) (f : Dio → Dio) (s : State) : KeepsDio c s (s.setDio e f) :=
  ⟨s.setDio_dio_other e c f h.symm, rfl, (s.setDio_only e f).mono rfl⟩

/-- A pass over the channels reaches channel `c` once, in a state that keeps what its level rests on, and leaves it as that
step does. -/
theorem foldl_dio {f : State → Fin 16 → State} {c : Fin 16} (hf : ∀ u e, e ≠ c → KeepsDio c u (f u e)) (s : State) :
    ∃ u, KeepsDio c s u ∧ ((List.finRange 16).foldl f s).dio[c] = (f u c).dio[c] := by
  have hpass : ∀ (l : List (Fin 16)) (u : State), c ∉ l → KeepsDio c u (l.foldl f u) := fun l u hl =>
    List.foldlRecOn l f (KeepsDio.refl c u) fun v hv e he => hv.trans (hf v e (ne_of_mem_of_not_mem he hl))
  obtain ⟨before, after, hlist⟩ := List.append_of_mem (List.mem_finRange c)
  have hnodup : (before ++ c :: after).Nodup := hlist ▸ List.nodup_finRange 16
  obtain ⟨-, hcons, hapart⟩ := List.nodup_append.mp hnodup
  refine ⟨before.foldl f s, hpass before s fun h => hapart c h c List.mem_cons_self rfl, ?_⟩
  rw [hlist, List.foldl_append, List.foldl_cons]
  exact (hpass after _ (List.nodup_cons.mp hcons).1).chan

theorem foldl_groups {f : State → Fin 16 → State} (hf : ∀ u e, (f u e).dioBlk.groups = u.dioBlk.groups) (s : State) :
    ((List.finRange 16).foldl f s).dioBlk.groups = s.dioBlk.groups :=
  List.foldlRecOn (motive := fun u => u.dioBlk.groups = s.dioBlk.groups) _ f rfl fun u hu e _ => (hf u e).trans hu

/-! ### What an output's drive can do (R173, R174) -/

/-- What a drive makes of channel `d` where its level and WHY are `w`. -/
inductive DioDriven (d : Dio) (w : Bool × Nat) : Dio → Prop where
  | idle (h : d.output = false ∨ d.running = false) : DioDriven d w d
  | stays (h : d.on = w.1) : DioDriven d w { d with why := w.2 }
  | waits (hon : d.on = false) (hinrush : d.inrushSet = true) (hwant : w.1 = true) :
      DioDriven d w { d with why := 6, waiting := true }
  | goesOn (seq : Nat) (hon : d.on = false) (hwant : w.1 = true) : DioDriven d w (d.switchOn w.2 seq)
  | goesOff (hwant : w.1 = false) : DioDriven d w (d.switchOff w.2 false)

theorem dioDrive_dio (s : State) (c : Fin 16) :
    ∃ e, DioDriven s.dio[c] (dioWant s c) e ∧ (dioDrive s c).dio = s.dio.set c e := by
  unfold dioDrive
  dsimp only
  split
  case isTrue hidle => exact ⟨_, .idle (by simpa only [Bool.or_eq_true, Bool.not_eq_true'] using hidle), (Vector.set_getElem_self _).symm⟩
  case isFalse =>
    split
    case isTrue hwant =>
      split
      case isTrue hon => exact ⟨_, .stays (hon.trans hwant.symm), rfl⟩
      case isFalse hoff =>
        have hoff : s.dio[c].on = false := Bool.eq_false_iff.mpr hoff
        split
        case isTrue hwaits => exact ⟨_, .waits hoff hwaits.1 hwant, rfl⟩
        case isFalse => exact ⟨_, .goesOn _ hoff hwant, rfl⟩
    case isFalse hwant =>
      have hwant : (dioWant s c).1 = false := Bool.eq_false_iff.mpr hwant
      split
      case isTrue => exact ⟨_, .goesOff hwant, rfl⟩
      case isFalse hstays =>
        have hoff : s.dio[c].on = false := Bool.eq_false_iff.mpr fun hon => hstays (.inl hon)
        exact ⟨_, .stays (hoff.trans hwant.symm), rfl⟩

theorem dioDrive_driven (s : State) (c : Fin 16) : DioDriven s.dio[c] (dioWant s c) (dioDrive s c).dio[c] := by
  obtain ⟨e, hdriven, hdio⟩ := dioDrive_dio s c
  simpa only [hdio, Fin.getElem_fin, Vector.getElem_set_self] using hdriven

theorem dioDrive_dio_other (s : State) {c e : Fin 16} (h : e ≠ c) : (dioDrive s c).dio[e] = s.dio[e] := by
  obtain ⟨d, -, hdio⟩ := dioDrive_dio s c
  rw [hdio]
  exact Vector.getElem_set_ne c.isLt e.isLt fun heq => h (Fin.ext heq.symm)

theorem dioDrive_groups (s : State) (c : Fin 16) : (dioDrive s c).dioBlk.groups = s.dioBlk.groups := by
  unfold dioDrive
  dsimp only
  split
  · rfl
  split
  · split
    · rfl
    · split <;> rfl
  · split <;> rfl

section
variable {d e : Dio} {w : Bool × Nat} (h : DioDriven d w e)
include h

/-- An output that runs takes its level and WHY, where no inrush window has to be waited for. -/
theorem DioDriven.level (hout : d.output = true) (hrun : d.running = true) (hinrush : d.inrushSet = false ∨ w.1 = false) :
    e.on = w.1 ∧ e.why = w.2 := by
  cases h with
  | idle hidle => simp only [hout, hrun, Bool.true_eq_false, or_self] at hidle
  | stays hon => exact ⟨hon, rfl⟩
  | waits _ hset hwant => simp only [hset, hwant, Bool.true_eq_false, or_self] at hinrush
  | goesOn _ _ hwant => exact ⟨hwant.symm, rfl⟩
  | goesOff hwant => exact ⟨hwant.symm, rfl⟩

/-- An output that is on and wanted on stays as it is, but for WHY. -/
theorem DioDriven.stays_on (hon : d.on = true) (hwant : w.1 = true) : e.on = true ∧ e.inrush = d.inrush := by
  cases h with
  | idle => exact ⟨hon, rfl⟩
  | stays => exact ⟨hon, rfl⟩
  | waits hoff => cases hon.symm.trans hoff
  | goesOn _ hoff => cases hon.symm.trans hoff
  | goesOff hoff => cases hwant.symm.trans hoff

theorem DioDriven.dstat : e.dstat = d.dstat := by cases h <;> rfl

theorem DioDriven.shed : e.shed = d.shed := by cases h <;> rfl

end

theorem dioDrive_keepsDio (s : State) {c e : Fin 16} (h : e ≠ c) : KeepsDio c s (dioDrive s e) :=
  ⟨dioDrive_dio_other s h.symm, dioDrive_groups s e, dioDrive_only s e⟩

theorem KeepsDio.want {c : Fin 16} {s u : State} (h : KeepsDio c s u) : dioWant u c = dioWant s c := by
  have hsys : u.sys = s.sys := h.only.same .sys rfl
  have hrcp : u.rcp = s.rcp := h.only.same .rcp rfl
  have hnow : u.now = s.now := h.only.same .now rfl
  simp only [dioWant, dioReleased, dioUnused, dioGrp, grpCond, State.grpUnused, State.cfgNat, State.isPaired,
    State.activeBank, h.chan, h.groups, hsys, hrcp, hnow] <;> rfl

theorem dioDriveAll_driven (s : State) (c : Fin 16) : DioDriven s.dio[c] (dioWant s c) (dioDriveAll s).dio[c] := by
  obtain ⟨u, hkeeps, hdrive⟩ := foldl_dio (c := c) (fun u e he => dioDrive_keepsDio u he) s
  rw [← hkeeps.chan, ← hkeeps.want, dioDriveAll, hdrive]
  exact dioDrive_driven u c

theorem dioDriveAll_groups (s : State) : (dioDriveAll s).dioBlk.groups = s.dioBlk.groups := foldl_groups dioDrive_groups s

/-! ### Events leave channels and groups -/

section
variable (s0 s1 : State)

theorem dioNotify_dio (c : Fin 16) : (dioNotify c s0 s1).dio = s1.dio := (dioNotify_only c s0 s1).same .dio rfl

theorem dioNotifyAll_dio : (dioNotifyAll s0 s1).dio = s1.dio := (dioNotifyAll_only s0 s1).same .dio rfl

theorem dioNotifyAll_dioBlk : (dioNotifyAll s0 s1).dioBlk = s1.dioBlk := (dioNotifyAll_only s0 s1).same .dioBlk rfl

end

/-! ### One group changed -/

theorem group_other_ne (g : Fin 2) : 1 - g ≠ g := by decide +revert

section
variable (s : State) (g : Fin 2) (f : DioGroup → DioGroup)

@[simp] theorem State.setGrp_dio : (s.setGrp g f).dio = s.dio := rfl

@[simp] theorem State.setGrp_self : (s.setGrp g f).dioBlk.groups[g] = f s.dioBlk.groups[g] := Vector.getElem_set_self _

theorem State.setGrp_ne {k : Fin 2} (h : k ≠ g) : (s.setGrp g f).dioBlk.groups[k] = s.dioBlk.groups[k] :=
  Vector.getElem_set_ne g.isLt k.isLt fun heq => h (Fin.ext heq.symm)

@[simp] theorem State.setGrp_other : (s.setGrp g f).dioBlk.groups[1 - g] = s.dioBlk.groups[1 - g] :=
  s.setGrp_ne g f (group_other_ne g)

end

/-- Both groups changed in turn, each by a change of its own. -/
theorem State.setGrp_both (s : State) (f : Fin 2 → DioGroup → DioGroup) (g : Fin 2) :
    ((s.setGrp 0 (f 0)).setGrp 1 (f 1)).dioBlk.groups[g] = f g s.dioBlk.groups[g] := by
  match g with
  | 0 => exact (State.setGrp_ne _ 1 _ (by decide)).trans (s.setGrp_self 0 _)
  | 1 => exact (State.setGrp_self _ 1 _).trans (congrArg (f 1) (s.setGrp_ne 0 _ (by decide)))

theorem State.setGrp_both_only (s : State) (f f' : DioGroup → DioGroup) :
    Only [.dioBlk] s ((s.setGrp 0 f).setGrp 1 f') := (State.setGrp_only _ 1 f').after rfl (s.setGrp_only 0 f)

/-! ### Rows that drive every output (R172 to R175) -/

theorem runs_dioBlinkPhase (s : State) : Runs .dioBlinkPhase s fun t => Only [.dio, .dioBlk] s t ∧
    ∀ c : Fin 16, s.dio[c].output = true → s.dio[c].running = true → s.dio[c].inrushSet = false →
      t.dio[c].on = (dioWant s c).1 ∧ t.dio[c].why = (dioWant s c).2 :=
  ⟨_, rfl, dioDriveAll_only s, fun c hout hrun hinrush => (dioDriveAll_driven s c).level hout hrun (.inl hinrush)⟩

theorem dioWant_of_inrush (s : State) (c : Fin 16) (b : Bool) :
    dioWant (s.setDio c fun d => { d with inrush := b }) c = dioWant s c := by
  simp only [dioWant, dioReleased, State.setDio_dio_self] <;> rfl

theorem runs_dioInrushEnd {s : State} {c : Fin 16} (hon : s.dio[c].on = true) (hwant : (dioWant s c).1 = true) :
    Runs (.dioInrushEnd c) s fun t => t.dio[c].inrush = false ∧ t.dio[c].on = true ∧ Only [.dio, .dioBlk] s t := by
  have hdriven := dioDriveAll_driven (s.setDio c fun d => { d with inrush := false }) c
  rw [dioWant_of_inrush, State.setDio_dio_self] at hdriven
  obtain ⟨hon', hinrush⟩ := hdriven.stays_on hon hwant
  exact ⟨_, rfl, hinrush, hon', Only.after (dioDriveAll_only _) rfl ((s.setDio_only c _).mono rfl)⟩

/-- A change of the groups after which every output takes its level, with the channels' events (R175). -/
theorem runs_dioDriveAll {x : Instr} {s u : State} {P : State → Prop}
    (h : exec x s = .next (dioNotifyAll s (dioDriveAll u))) (hu : Only [.dioBlk] s u)
    (hP : ∀ t : State, t.dioBlk.groups = u.dioBlk.groups → (∀ c : Fin 16, DioDriven u.dio[c] (dioWant u c) t.dio[c]) →
      Only [.dio, .dioBlk, .evr] s t → P t) : Runs x s P := by
  refine ⟨_, h, hP _ ?_ (fun c => ?_) ?_⟩
  · rw [dioNotifyAll_dioBlk, dioDriveAll_groups]
  · rw [dioNotifyAll_dio]
    exact dioDriveAll_driven u c
  · exact Only.after (dioNotifyAll_only _ _) rfl (Only.after (dioDriveAll_only _) rfl (hu.mono rfl))

theorem runs_dioKeepalive (s : State) : Runs .dioKeepalive s fun t => (∀ g : Fin 2, t.dioBlk.groups[g].keepLost = false ∧
    t.dioBlk.groups[g].cond = s.dioBlk.groups[g].cond) ∧ Only [.dio, .dioBlk, .evr] s t := by
  refine runs_dioDriveAll rfl (s.setGrp_both_only _ _) fun t hgroups _ honly => ⟨fun g => ?_, honly⟩
  rw [hgroups, State.setGrp_both s (fun _ g => { g with keepLost := false })]
  exact ⟨rfl, rfl⟩

theorem dioWant_of_released {s : State} {c : Fin 16} (h : dioReleased s c = true) : dioWant s c = (false, 5) := if_pos h

theorem dioReleased_of_keepLost {s : State} {c : Fin 16} (h : (dioGrp s c).keepLost = true) : dioReleased s c = true := by
  simp only [dioReleased, h, Bool.or_true, Bool.true_or]

theorem runs_dioKeepaliveLost (s : State) (g : Fin 2) : Runs (.dioKeepaliveLost g) s fun t =>
    t.dioBlk.groups[g].keepLost = true ∧ t.dioBlk.groups[1 - g] = s.dioBlk.groups[1 - g] ∧
    Only [.dio, .dioBlk, .evr] s t ∧
    ∀ c : Fin 16, dioGroup c = g → s.dio[c].output = true → s.dio[c].running = true →
      t.dio[c].on = false ∧ t.dio[c].why = 5 := by
  refine runs_dioDriveAll rfl (s.setGrp_only g _) fun t hgroups hdriven honly => ?_
  rw [hgroups, State.setGrp_self, State.setGrp_other]
  refine ⟨rfl, rfl, honly, fun c hgroup hout hrun => ?_⟩
  have hlost : (dioGrp (s.setGrp g fun x => { x with keepLost := true }) c).keepLost = true := by
    simp only [dioGrp, hgroup, State.setGrp_self]
  have hwant := dioWant_of_released (dioReleased_of_keepLost hlost)
  have hlevel := (hdriven c).level hout hrun (.inr (congrArg Prod.fst hwant))
  rwa [hwant] at hlevel

/-! ### Block stops (R190) -/

theorem dioRelease_groups (s : State) (g : Fin 2) : (dioRelease s g).dioBlk.groups = s.dioBlk.groups := by
  have hretake : ∀ (u : State) (c : Fin 16), (dioRetake u c).dioBlk.groups = u.dioBlk.groups := fun u c =>
    (dioDrive_groups _ c).trans (congrArg DioBlk.groups ((dioApply_only u c).same .dioBlk rfl))
  refine foldl_groups (fun u c => ?_) s
  split
  · exact hretake u c
  · rfl

theorem dioBlkWrite_groups (stop : BitVec 2) (s : State) (g : Fin 2) :
    (dioBlkWrite stop s).dioBlk.groups[g] = { s.dioBlk.groups[g] with stop := bit stop g.val } := by
  have hrel : ∀ (p : Prop) [Decidable p] (u : State) (k : Fin 2),
      (if p then dioRelease u k else u).dioBlk.groups = u.dioBlk.groups := fun p _ u k => by
    split
    · exact dioRelease_groups u k
    · rfl
  rw [dioBlkWrite, dioNotifyAll_dioBlk, hrel, hrel]
  exact State.setGrp_both s (fun k x => { x with stop := bit stop k.val }) g

theorem runs_dioBlockStop (stop : BitVec 2) (s : State) : Runs (.dioBlockStop stop) s fun t =>
    t.dioBlk.groups[0].stop = bit stop 0 ∧ t.dioBlk.groups[1].stop = bit stop 1 ∧ Only [.dio, .dioBlk, .evr] s t :=
  ⟨_, rfl, congrArg DioGroup.stop (dioBlkWrite_groups stop s 0), congrArg DioGroup.stop (dioBlkWrite_groups stop s 1),
    (dioBlkWrite_only stop s).mono rfl⟩

/-- Settles O15: every row but the stop drives all outputs, and a drive is one of the cases of `DioDriven`. -/
theorem digitalOutputsTakeTheirLevel : Obligations.DigitalOutputsTakeTheirLevel := fun s =>
  ⟨runs_dioBlinkPhase s, fun _ _ hon hwant => runs_dioInrushEnd hon hwant, runs_dioKeepalive s, runs_dioKeepaliveLost s,
    fun stop => runs_dioBlockStop stop s⟩

end Sys2Proof.Machine
end

section
/-! Proofs about the digital channels' supply and lamps: group conditions and shedding (R178 to R181), lamp watch and
learning (R183 to R185), and loopbacks (R482, R484). -/
namespace Sys2Proof.Machine

open Sys2Proof

/-! ### A channel and what it leaves -/

theorem Runs.of_next {x : Instr} {s u : State} {P : State → Prop} (h : exec x s = .next u) (hu : P u) : Runs x s P :=
  ⟨u, h, hu⟩

/-- A row that changes one channel, with its event, leaves the other channels and every other part (R193). -/
theorem Runs.of_dioChange {x : Instr} {s : State} {c : Fin 16} {f : Dio → Dio} {P : State → Prop}
    (h : exec x s = .next (dioNotify c s (s.setDio c f)))
    (hP : ∀ t : State, t.dio[c] = f s.dio[c] → (∀ d : Fin 16, d ≠ c → t.dio[d] = s.dio[d]) → Only [.dio, .evr] s t → P t) :
    Runs x s P := by
  refine ⟨_, h, hP _ ?_ (fun d hd => ?_) ?_⟩
  · rw [dioNotify_dio, State.setDio_dio_self]
  · rw [dioNotify_dio, State.setDio_dio_other s c d f hd]
  · exact Only.after (dioNotify_only _ _ _) rfl ((s.setDio_only c f).mono rfl)

/-- A channel changed and then driven. -/
theorem dioDrive_setDio (s : State) (c : Fin 16) (f : Dio → Dio) :
    DioDriven (f s.dio[c]) (dioWant (s.setDio c f) c) (dioDrive (s.setDio c f) c).dio[c] ∧
    ∀ e : Fin 16, e ≠ c → (dioDrive (s.setDio c f) c).dio[e] = s.dio[e] :=
  ⟨s.setDio_dio_self c f ▸ dioDrive_driven (s.setDio c f) c,
    fun e he => (dioDrive_dio_other _ he).trans (s.setDio_dio_other c e f he)⟩

/-! ### Group conditions (R178 to R180) -/

/-- What a channel takes from its group's new condition: its SUPPLY bits, and detection anew after a bad supply. -/
def Dio.takeSupply (was k : GrpCond) (d : Dio) : Dio :=
  (if was.bad && !k.bad then d.detectAnew else d).setConds ((d.dstat &&& 0x7FC7F) ||| supplyBits k)

/-- A channel follows the new condition of group `g`, where it is of that group. -/
def grpFollow (g : Fin 2) (was k : GrpCond) (s : State) (c : Fin 16) : State :=
  if dioGroup c = g then dioDrive (s.setDio c (Dio.takeSupply was k)) c else s

section
variable (g : Fin 2) (was k : GrpCond) (s : State) (c : Fin 16)

theorem grpFollow_groups : (grpFollow g was k s c).dioBlk.groups = s.dioBlk.groups := by
  unfold grpFollow
  split
  · exact dioDrive_groups _ c
  · rfl

theorem grpFollow_keepsDio {e : Fin 16} (h : e ≠ c) : KeepsDio c s (grpFollow g was k s e) := by
  unfold grpFollow
  split
  · exact (setDio_keepsDio h _ s).trans (dioDrive_keepsDio _ h)
  · exact .refl c s

theorem grpFollow_dstat (h : dioGroup c = g) :
    (grpFollow g was k s c).dio[c].dstat = (s.dio[c].dstat &&& 0x7FC7F) ||| supplyBits k := by
  rw [grpFollow, if_pos h]
  exact (dioDrive_setDio s c _).1.dstat

/-- Every channel follows: those of the group take its SUPPLY bits, and the others nothing. -/
theorem grpFollow_all :
    (dioGroup c = g → ((List.finRange 16).foldl (grpFollow g was k) s).dio[c].dstat =
      (s.dio[c].dstat &&& 0x7FC7F) ||| supplyBits k) ∧
    (dioGroup c ≠ g → ((List.finRange 16).foldl (grpFollow g was k) s).dio[c] = s.dio[c]) := by
  obtain ⟨u, hkeeps, hfollow⟩ := foldl_dio (fun u e he => grpFollow_keepsDio g was k u c he) s
  rw [hfollow, ← hkeeps.chan]
  refine ⟨grpFollow_dstat g was k u c, fun hother => ?_⟩
  rw [grpFollow, if_neg hother]

end

theorem grpEnter_of_change {g : Fin 2} {k : GrpCond} (v : Half) {s : State} (hused : s.grpUnused g.val = false)
    (hnew : s.dioBlk.groups[g].cond ≠ k) : grpEnter g k v s =
      dioNotifyAll s (supplyEvent (grpQuantity g) (grpEventCode g k) v
        ((List.finRange 16).foldl (grpFollow g s.dioBlk.groups[g].cond k)
          (s.setGrp g fun x => { x with cond := k, volt := v }))) :=
  if_neg (not_or.mpr ⟨Bool.eq_false_iff.mp hused, hnew⟩)

/-- A group in use takes a condition that it is not in. -/
theorem runs_grpEnter {x : Instr} {g : Fin 2} {k : GrpCond} {v : Half} {s : State}
    (h : exec x s = .next (grpEnter g k v s)) (hused : s.grpUnused g.val = false) (hnew : s.dioBlk.groups[g].cond ≠ k) :
    Runs x s fun t => t.dioBlk.groups[g].cond = k ∧ t.dioBlk.groups[g].volt = v ∧
      t.dioBlk.groups[1 - g] = s.dioBlk.groups[1 - g] ∧
      (∀ c : Fin 16, (dioGroup c = g → t.dio[c].dstat = (s.dio[c].dstat &&& 0x7FC7F) ||| supplyBits k) ∧
        (dioGroup c ≠ g → t.dio[c] = s.dio[c])) ∧ Only [.dio, .dioBlk, .evr, .sup] s t := by
  have honly : Only [.dio, .dioBlk, .evr, .sup] s (grpEnter g k v s) := (grpEnter_only g k v s).mono rfl
  refine ⟨_, h, ?_⟩
  rw [grpEnter_of_change v hused hnew] at honly ⊢
  have hevent : ∀ q code u, (supplyEvent q code v u).dioBlk = u.dioBlk ∧ (supplyEvent q code v u).dio = u.dio :=
    fun q code u => ⟨(supplyEvent_only q code v u).same .dioBlk rfl, (supplyEvent_only q code v u).same .dio rfl⟩
  simp only [dioNotifyAll_dioBlk, dioNotifyAll_dio, hevent, foldl_groups (grpFollow_groups g _ k), State.setGrp_self,
    State.setGrp_other]
  exact ⟨trivial, trivial, trivial, fun c => grpFollow_all g _ k (s.setGrp g _) c, honly⟩

section
variable {g : Fin 2} (v : Half) {s : State}

theorem exec_dioGroupWarn_of_normal (h : s.dioBlk.groups[g].cond = .normal) :
    exec (.dioGroupWarn g v) s = .next (grpEnter g .warn v s) := congrArg Host.Outcome.next (if_pos h)

theorem grpFall_of_good (k : GrpCond) (h : s.dioBlk.groups[g].cond.bad = false) : grpFall g k v s = grpEnter g k v s :=
  if_neg (Bool.eq_false_iff.mp h)

/-- A group that is LOW, OVERVOLT or LOST takes the voltage alone (R178). -/
theorem grpFall_of_bad (k : GrpCond) (h : s.dioBlk.groups[g].cond.bad = true) :
    grpFall g k v s = s.setGrp g fun x => { x with volt := v } := if_pos h

theorem grpLeave_of_leaves (h : s.dioBlk.groups[g].cond.leaves v.toNat = true) :
    grpLeave g v s = grpEnter g (grpReturn v) v s := if_pos h

theorem runs_grpFall_of_bad {x : Instr} {k : GrpCond} (hexec : exec x s = .next (grpFall g k v s))
    (h : s.dioBlk.groups[g].cond.bad = true) : Runs x s fun t =>
      t.dioBlk.groups[g].cond = s.dioBlk.groups[g].cond ∧ t.dioBlk.groups[g].volt = v ∧ Only [.dioBlk] s t := by
  rw [grpFall_of_bad v k h] at hexec
  refine .of_next hexec ?_
  rw [State.setGrp_self]
  exact ⟨rfl, rfl, s.setGrp_only g _⟩

end

/-! ### Load shedding (R181) -/

theorem dioWant_of_shed {s : State} {c : Fin 16} (h : s.dio[c].shed = true) : (dioWant s c).1 = false := by
  simp only [dioWant, h, Bool.or_true, if_true]
  split
  · rfl
  · split <;> rfl

/-- An output that is shed (R181). -/
def Dio.takeShed (d : Dio) : Dio := ({ d with shed := true }).cond 15 true

/-- An output that is shed goes off, and no other channel changes. -/
theorem dioDrive_takeShed {s : State} {c : Fin 16} (hrun : s.dio[c].running = true) (hout : s.dio[c].output = true) :
    (dioDrive (s.setDio c Dio.takeShed) c).dio[c].shed = true ∧ (dioDrive (s.setDio c Dio.takeShed) c).dio[c].on = false ∧
    (dioDrive (s.setDio c Dio.takeShed) c).dio[c].dstat = (s.dio[c].cond 15 true).dstat ∧
    ∀ d : Fin 16, d ≠ c → (dioDrive (s.setDio c Dio.takeShed) c).dio[d] = s.dio[d] := by
  obtain ⟨hdriven, hother⟩ := dioDrive_setDio s c Dio.takeShed
  have hwant : (dioWant (s.setDio c Dio.takeShed) c).1 = false :=
    dioWant_of_shed (congrArg Dio.shed (s.setDio_dio_self c Dio.takeShed))
  exact ⟨hdriven.shed, (hdriven.level hout hrun (.inr hwant)).1.trans hwant, hdriven.dstat, hother⟩

section
variable (g : Fin 2) {m : Half} {s : State}

theorem grpShed_within (h : m.toNat ≤ 400) : grpShed g m s = s.setGrp g fun x => { x with curr := m.toNat } := if_pos h

theorem grpShed_of_latest {c : Fin 16} (hm : 400 < m.toNat) (hlatest : latestOn s g = some c) : grpShed g m s =
    dioNotify c s (supplyRaise (0x65 + 0x10 * g.val) m
      (dioDrive ((s.setGrp g fun x => { x with curr := m.toNat }).setDio c Dio.takeShed) c)) := by
  have hsame : latestOn (s.setGrp g fun x => { x with curr := m.toNat }) g = some c := hlatest
  rw [grpShed, if_neg (Nat.not_le.mpr hm), hsame]
  rfl

theorem runs_dioGroupShed_within (h : m.toNat ≤ 400) : Runs (.dioGroupShed g m) s fun t =>
    t.dioBlk.groups[g].curr = m.toNat ∧ t.dio = s.dio ∧ Only [.dioBlk] s t :=
  ⟨_, congrArg Host.Outcome.next (grpShed_within g h), congrArg DioGroup.curr (s.setGrp_self g _), rfl, s.setGrp_only g _⟩

/-- The output that switched on last is shed. -/
theorem runs_dioGroupShed_above {c : Fin 16} (hm : 400 < m.toNat) (hlatest : latestOn s g = some c)
    (hrun : s.dio[c].running = true) (hout : s.dio[c].output = true) : Runs (.dioGroupShed g m) s fun t =>
      t.dio[c].shed = true ∧ t.dio[c].on = false ∧ t.dio[c].dstat = ((s.dio[c]).cond 15 true).dstat ∧
      (∀ d : Fin 16, d ≠ c → t.dio[d] = s.dio[d]) := by
  have hraise : ∀ code u, (supplyRaise code m u).dio = u.dio := fun code u => (supplyRaise_only code m u).same .dio rfl
  refine .of_next (congrArg Host.Outcome.next (grpShed_of_latest g hm hlatest)) ?_
  rw [dioNotify_dio, hraise]
  exact dioDrive_takeShed (s := s.setGrp g _) hrun hout

end

theorem runs_dioShedRetry {s : State} {c : Fin 16} (hshed : s.dio[c].shed = true) (hlatch : s.dio[c].latch ≠ 0) :
    Runs (.dioShedRetry c) s fun t => t.dio[c].shed = false ∧ ∀ d : Fin 16, d ≠ c → t.dio[d] = s.dio[d] := by
  obtain ⟨hdriven, hother⟩ := dioDrive_setDio s c fun d => { d with shed := false }
  have hdue : (s.dio[c].shed && s.dio[c].latch != 0) = true := by
    rw [hshed, Bool.true_and, bne_iff_ne]
    exact hlatch
  refine .of_guard rfl hdue ?_
  rw [dioNotify_dio]
  exact ⟨hdriven.shed, hother⟩

/-! ### Lamp watch (R184, R185) -/

/-- A sample for learning touches the sums of learning alone. -/
theorem Dio.learnSample_eq (d : Dio) (curr v : Nat) (ok : Bool) : d.learnSample curr v ok =
    { d with onCnt := (d.learnSample curr v ok).onCnt, onSum := (d.learnSample curr v ok).onSum,
             vSum := (d.learnSample curr v ok).vSum } := by
  unfold Dio.learnSample
  split <;> rfl

theorem runOf_not (b : Bool) (n limit : Nat) : runOf (!b) n limit = if b then 0 else min limit (n + 1) := by
  cases b <;> rfl

section
variable {s : State} {c : Fin 16} (hwatch : lampWatch s c = true)
include hwatch

theorem runs_dioLampAverage (curr v : Nat) (settled : Bool) (hon : s.dio[c].on = true) :
    Runs (.dioLampAverage c curr v settled) s fun t =>
      t.dio[c].curr = curr ∧ t.dio[c].darkCnt = (if s.dio[c].belowDark curr v then min 7 (s.dio[c].darkCnt + 1) else 0) ∧
      t.dio[c].litCnt = (if s.dio[c].belowDark curr v then 0 else min 7 (s.dio[c].litCnt + 1)) ∧
      (∀ d : Fin 16, d ≠ c → t.dio[d] = s.dio[d]) ∧ Only [.dio, .evr] s t := by
  refine .of_dioChange (congrArg Host.Outcome.next (if_pos ⟨hwatch, hon⟩)) fun t hself hother honly => ?_
  rw [hself, Dio.learnSample_eq, ← runOf_not]
  exact ⟨rfl, rfl, rfl, hother, honly⟩

theorem runs_dioLampProbe (curr : Nat) (hoff : s.dio[c].on = false) (hready : s.dio[c].waiting = false)
    (hint : s.dio[c].probeInt ≠ 0) : Runs (.dioLampProbe c curr) s fun t =>
      t.dio[c].probeFails = (if s.dio[c].probePasses curr then 0 else s.dio[c].probeFails + 1) ∧
      (∀ d : Fin 16, d ≠ c → t.dio[d] = s.dio[d]) ∧ Only [.dio, .evr] s t := by
  refine .of_dioChange (congrArg Host.Outcome.next (if_pos ⟨hwatch, hoff, hready, hint⟩)) fun t hself hother honly =>
    ⟨?_, hother, honly⟩
  rw [hself]
  exact (apply_ite Dio.probeFails _ _ _).trans (ite_self _)

end

/-! ### Learning (R183) -/

theorem settingsSync_dio (s0 s1 : State) : (settingsSync s0 s1).dio = s1.dio := (settingsSync_only s0 s1).same .dio rfl

theorem dioEvent_dio (c : Fin 16) (marks : Word) (s : State) : (dioEvent c marks s).dio = s.dio :=
  (dioEvent_only c marks s).same .dio rfl

section
variable {s : State} {c : Fin 16}

theorem dioLearnDone_on (hon : s.dio[c].learnOn = true) (hcnt : s.dio[c].onCnt = 1600) :
    (dioLearnDone s c false).dio[c] = s.dio[c].learnedOn.learnFlag := by
  have hdone : dioLearnDone s c false = dioEvent c (putB 28 true) (s.setDio c fun d => d.learnedOn.learnFlag) :=
    if_pos ⟨hon, hcnt⟩
  rw [hdone, dioEvent_dio, State.setDio_dio_self]

theorem dioLearnDone_probe (hprobe : s.dio[c].learnProbe = true) (hcnt : s.dio[c].prCnt = 64) :
    (dioLearnDone s c true).dio[c] = s.dio[c].learnedProbe.learnFlag := by
  have hdone : dioLearnDone s c true =
      dioEvent c (putB 28 true ||| putB 29 true) (s.setDio c fun d => d.learnedProbe.learnFlag) := if_pos ⟨hprobe, hcnt⟩
  rw [hdone, dioEvent_dio, State.setDio_dio_self]

theorem learnR_probe (s : State) (c : Fin 16) : learnR c true s = s := rfl

/-- What is noted of the switch at the end of learning leaves the samples. -/
theorem learnR_samples (s : State) (c : Fin 16) : (learnR c false s).dio[c].learnOn = s.dio[c].learnOn ∧
    (learnR c false s).dio[c].onCnt = s.dio[c].onCnt ∧ (learnR c false s).dio[c].onSum = s.dio[c].onSum := by
  simp only [learnR, Bool.false_eq_true, if_false, State.setDio_dio_self, and_self]

theorem runs_dioLearnPartDone_on (hon : s.dio[c].learnOn = true) (hcnt : s.dio[c].onCnt = 1600) :
    Runs (.dioLearnPartDone c false) s fun t => t.dio[c].iOn = (openDiv s.dio[c].onSum 1600).toNat ∧
      t.dio[c].learnOn = false ∧ t.dio[c].stored.1 = t.dio[c].iOn := by
  obtain ⟨hlearn, hsamples, hsum⟩ := learnR_samples s c
  refine .of_next rfl ?_
  rw [settingsSync_dio, dioLearnDone_on (hlearn.trans hon) (hsamples.trans hcnt), ← hsum]
  exact ⟨rfl, rfl, rfl⟩

theorem runs_dioLearnPartDone_probe (hprobe : s.dio[c].learnProbe = true) (hcnt : s.dio[c].prCnt = 64) :
    Runs (.dioLearnPartDone c true) s fun t => t.dio[c].iProbe = (openDiv s.dio[c].prSum 64).toNat ∧
      t.dio[c].learnProbe = false ∧ t.dio[c].stored.2.1 = t.dio[c].iProbe := by
  refine .of_next rfl ?_
  rw [settingsSync_dio, learnR_probe, dioLearnDone_probe hprobe hcnt]
  exact ⟨rfl, rfl, rfl⟩

end

theorem Dio.relearn_of_lamp {d : Dio} (h : d.lampEn = true) : d.relearn =
    ({ d with learnOn := true, learnProbe := true, onCnt := 0, onSum := 0, vSum := 0, prCnt := 0,
              prSum := 0 }).learnFlag := if_pos h

/-- What was learned and stored stands while learning starts again. -/
theorem Dio.relearn_learned (d : Dio) : d.relearn.iOn = d.iOn ∧ d.relearn.iProbe = d.iProbe ∧ d.relearn.vLearn = d.vLearn ∧
    d.relearn.stored = d.stored := by
  unfold Dio.relearn
  split <;> exact ⟨rfl, rfl, rfl, rfl⟩

section
variable {s : State} (src : Source) (c : Fin 16) (hactive : s.standby = false)
include hactive

theorem dioCmd_of_active (f : State → State) : dioCmd src c f s = dioNotify c s (f s) :=
  if_neg (Bool.eq_false_iff.mp hactive)

theorem runs_dioLearn (hlamp : s.dio[c].lampEn = true) : Runs (.dioLearn src c) s fun t =>
    t.dio[c].learnOn = true ∧ t.dio[c].learnProbe = true ∧ t.dio[c].onCnt = 0 ∧ t.dio[c].prCnt = 0 ∧
    t.dio[c].iOn = s.dio[c].iOn ∧ ∀ d : Fin 16, d ≠ c → t.dio[d] = s.dio[d] := by
  refine .of_dioChange (congrArg Host.Outcome.next (dioCmd_of_active src c hactive _)) fun t hself hother _ => ?_
  rw [hself, Dio.relearn_of_lamp hlamp]
  exact ⟨rfl, rfl, rfl, rfl, rfl, hother⟩

theorem runs_dioLearnClr : Runs (.dioLearnClr src c) s fun t => t.dio[c].iOn = 0 ∧ t.dio[c].iProbe = 0 ∧
    t.dio[c].vLearn = 0 ∧ t.dio[c].stored = (0, 0, 0, 0) ∧ ∀ d : Fin 16, d ≠ c → t.dio[d] = s.dio[d] := by
  refine .of_next (congrArg (Host.Outcome.next ∘ settingsSync s) (dioCmd_of_active src c hactive _)) ?_
  rw [settingsSync_dio, dioNotify_dio, State.setDio_dio_self]
  obtain ⟨hOn, hProbe, hV, hStored⟩ :=
    ({ s.dio[c] with iOn := 0, iProbe := 0, vLearn := 0, rLearn := 0, stored := (0, 0, 0, 0) } : Dio).relearn_learned
  exact ⟨hOn, hProbe, hV, hStored, fun d hd => s.setDio_dio_other c d _ hd⟩

end

/-! ### Loopbacks of digital channels (R482, R484) -/

theorem runs_testResult {x : Instr} {s : State} {face depth chan st detail : Nat}
    (h : exec x s = .next (testResult face depth chan st detail s)) : Runs x s fun t =>
      t.tst.st = st ∧ t.tst.face = face ∧ t.tst.depth = depth ∧ t.tst.chan = chan ∧ Only [.tst, .evr] s t := by
  refine .of_next h ?_
  rw [testResult_tst]
  exact ⟨rfl, rfl, rfl, rfl, (testResult_only _ _ _ _ _ _).mono rfl⟩

section
variable {s : State} {c : Fin 16} (pass : Bool) (hactive : dioActive s c = true)
include hactive

theorem dioLoop_of_active (depth : Nat) : dioLoop c depth pass s = testResult 2 depth c.val (passCode pass) 0 s := by
  rw [dioLoop, if_pos hactive]

theorem dioCrust_of_output (hunpaired : s.isPaired = false) (hsupply : grpCond s (dioGroup c) = .normal)
    (hout : s.dio[c].output = true) : dioCrust c pass s = testResult 2 3 c.val (passCode pass) 0 s := by
  simp only [dioCrust, hactive, hunpaired, hsupply, hout, Bool.not_true, Bool.false_and, beq_self_eq_true, Bool.true_or,
    Bool.or_self, Bool.false_eq_true, if_false]

end

theorem runs_dioFieldLoopback {s : State} {src sink : BitVec 5} {a b : Fin 16} (hsrc : fieldChan src = some a)
    (hsink : fieldChan sink = some b) (hmay : fieldMayRun s a b = true) (hidle : s.tst.field = none) :
    Runs (.dioFieldLoopback src sink) s fun t => t.tst.st = 1 ∧ t.tst.face = 2 ∧ t.tst.depth = 4 ∧ t.tst.chan = a.val ∧
      t.tst.field = some (a, b) ∧ Only [.tst] s t := by
  have hstart : fieldStart src sink s =
      { s with tst := { s.tst with detail := 0, st := 1, face := 2, depth := 4, chan := a.val, field := some (a, b) } } := by
    simp only [fieldStart, hsrc, hsink, hmay, hidle, and_self, if_true]
  exact ⟨_, congrArg Host.Outcome.next hstart, rfl, rfl, rfl, rfl, rfl, (Only.refl _ s).set_tst rfl⟩

theorem runs_fieldLoopbackDone {s : State} (levels : Bool) (skew : Nat) {a b : Fin 16} (hfield : s.tst.field = some (a, b))
    (hstopped : dioCode s b = 3) : Runs (.fieldLoopbackDone levels skew) s fun t =>
      t.tst.st = (if levels && decide (skew ≤ s.dio[b].deb + 100) then 2 else 3) ∧ t.tst.detail = min 0xFFFF skew ∧
      t.tst.chan = a.val ∧ t.tst.field = none ∧ Only [.tst, .evr] s t := by
  have hpass : fieldPass s b levels skew = (levels && decide (skew ≤ s.dio[b].deb + 100)) := by
    rw [fieldPass, hstopped, beq_self_eq_true, Bool.and_true]
  have hdone : fieldDone levels skew s = testResult 2 4 a.val (passCode (fieldPass s b levels skew)) skew (fieldEnd s) := by
    simp only [fieldDone, hfield]
  refine .of_next (congrArg Host.Outcome.next hdone) ?_
  rw [testResult_tst, hpass]
  exact ⟨rfl, rfl, rfl, rfl, (testResult_only _ _ _ _ _ _).after rfl ((Only.refl _ s).set_tst rfl)⟩

/-- Settles O17: a group's new condition is one pass over its channels, and each other row changes one channel or
`TST_RES`. -/
theorem fieldSupplyGroupsAndLampsAreWatched : Obligations.FieldSupplyGroupsAndLampsAreWatched := by
  intro s
  refine ⟨fun g v x k hused hnew hrow => ?_, fun g v x hbad hrow => ?_,
    fun g m => ⟨runs_dioGroupShed_within g, fun c hm hlatest hrun hout _ => runs_dioGroupShed_above g hm hlatest hrun hout⟩,
    fun c => ⟨runs_dioShedRetry, fun i v b hwatch hon => runs_dioLampAverage hwatch i v b hon,
      fun i hwatch => runs_dioLampProbe hwatch i, runs_dioLearnPartDone_on, runs_dioLearnPartDone_probe,
      fun src => ⟨runs_dioLearn src c, runs_dioLearnClr src c,
        fun p hactive => ⟨runs_testResult (congrArg Host.Outcome.next (dioLoop_of_active p hactive 1)),
          runs_testResult (congrArg Host.Outcome.next (dioLoop_of_active p hactive 2))⟩,
        fun p hactive hunpaired hsupply hout =>
          runs_testResult (congrArg Host.Outcome.next (dioCrust_of_output p hactive hunpaired hsupply hout))⟩⟩,
    fun a b x y hsrc hsink => runs_dioFieldLoopback hsrc hsink, fun l k x y => runs_fieldLoopbackDone l k⟩
  · rcases hrow with ⟨rfl, rfl, hwas⟩ | ⟨rfl, rfl, hgood⟩ | ⟨rfl, rfl, hgood⟩ | ⟨rfl, rfl⟩ | ⟨rfl, rfl, hleaves⟩
    · exact runs_grpEnter (exec_dioGroupWarn_of_normal v hwas) hused hnew
    · exact runs_grpEnter (congrArg Host.Outcome.next (grpFall_of_good v .low hgood)) hused hnew
    · exact runs_grpEnter (congrArg Host.Outcome.next (grpFall_of_good v .overvolt hgood)) hused hnew
    · exact runs_grpEnter rfl hused hnew
    · exact runs_grpEnter (congrArg Host.Outcome.next (grpLeave_of_leaves v hleaves)) hused hnew
  · rcases hrow with rfl | rfl
    · exact runs_grpFall_of_bad v (k := .low) rfl hbad
    · exact runs_grpFall_of_bad v (k := .overvolt) rfl hbad

end Sys2Proof.Machine
end

section
/-! Proofs about the speed and position channels: counted edges, the index and its homing, standstill, presets, the compare
word, conditions, loopbacks and the block's stop (R196 to R209, R482). -/
namespace Sys2Proof.Machine

open Sys2Proof

/-! ### A channel and what it leaves -/

@[simp] theorem State.setPs_ps_mate (s : State) (c : Fin 2) (f : Ps → Ps) : (s.setPs c f).ps[1 - c] = s.ps[1 - c] :=
  s.setPs_ps_other c (1 - c) f (group_other_ne c)

theorem State.setPs_of_fixed {s : State} {c : Fin 2} {f : Ps → Ps} (h : f s.ps[c] = s.ps[c]) : s.setPs c f = s := by
  rw [State.setPs, h, Fin.getElem_fin, Vector.set_getElem_self]

@[simp] theorem psEvent_ps (c : Fin 2) (marks : Word) (t : Ts) (s : State) : (psEvent c marks t s).ps = s.ps :=
  (psEvent_only c marks t s).same .ps rfl

@[simp] theorem psNotify_ps (c : Fin 2) (s0 s1 : State) : (psNotify c s0 s1).ps = s1.ps :=
  (psNotify_only c s0 s1).same .ps rfl

theorem psEvent_drawn (c : Fin 2) (marks : Word) (t : Ts) (s : State) : (psEvent c marks t s).drawn = s.drawn :=
  (psEvent_only c marks t s).same .drawn rfl

theorem psNotify_drawn (c : Fin 2) (s0 s1 : State) : (psNotify c s0 s1).drawn = s1.drawn :=
  (psNotify_only c s0 s1).same .drawn rfl

theorem psNotify_psBlk (c : Fin 2) (s0 s1 : State) : (psNotify c s0 s1).psBlk = s1.psBlk :=
  (psNotify_only c s0 s1).same .psBlk rfl

/-- A part that is seen to stay leaves the list of what may change. -/
theorem Only.of_same {p : Part} {l : List Part} {s t : State} (h : Only (p :: l) s t) (k : p.same s t) : Only l s t := by
  constructor
  intro q hq
  by_cases heq : q = p
  · exact heq ▸ k
  · exact h.same q (by rw [List.contains_cons, hq, beq_false_of_ne heq]; rfl)

/-- A row that changes one channel without an event leaves the other channel and every other part. -/
theorem Runs.of_psSet {x : Instr} {s : State} {c : Fin 2} {f : Ps → Ps} {P : State → Prop}
    (h : exec x s = .next (s.setPs c f))
    (hP : ∀ t : State, t.ps[c] = f s.ps[c] → t.ps[1 - c] = s.ps[1 - c] → Only [.ps] s t → P t) : Runs x s P :=
  ⟨_, h, hP _ (s.setPs_ps_self c f) (s.setPs_ps_mate c f) (s.setPs_only c f)⟩

/-- A row that changes one channel, with its event, leaves the other channel and every other part (R207). -/
theorem Runs.of_psChange {x : Instr} {s : State} {c : Fin 2} {f : Ps → Ps} {P : State → Prop}
    (h : exec x s = .next (psNotify c s (s.setPs c f)))
    (hP : ∀ t : State, t.ps[c] = f s.ps[c] → t.ps[1 - c] = s.ps[1 - c] → Only [.ps, .evr] s t → P t) : Runs x s P := by
  refine ⟨_, h, hP _ ?_ ?_ ?_⟩
  · rw [psNotify_ps, State.setPs_ps_self]
  · rw [psNotify_ps, State.setPs_ps_mate]
  · exact (psNotify_only _ _ _).after rfl ((s.setPs_only c f).mono rfl)

/-! ### What leaves a channel's motion (R198, R205, R206) -/

/-- `q` has the settings in force, the position, the revolutions and the motion of `p`. -/
structure Ps.SameMotion (p q : Ps) : Prop where
  use : q.use = p.use
  pos : q.pos = p.pos
  rev : q.rev = p.rev
  moving : q.moving = p.moving
  down : q.down = p.down

theorem Ps.SameMotion.refl (p : Ps) : p.SameMotion p := ⟨rfl, rfl, rfl, rfl, rfl⟩

theorem Ps.SameMotion.trans {p q r : Ps} (h : p.SameMotion q) (k : q.SameMotion r) : p.SameMotion r :=
  ⟨k.use.trans h.use, k.pos.trans h.pos, k.rev.trans h.rev, k.moving.trans h.moving, k.down.trans h.down⟩

theorem Ps.SameMotion.ite {p q r : Ps} {g : Prop} [Decidable g] (h : p.SameMotion q) (k : p.SameMotion r) :
    p.SameMotion (if g then q else r) := by split <;> assumption

/-- A change made under a condition, after others. -/
theorem Ps.SameMotion.change {p q r : Ps} {g : Prop} [Decidable g] (h : p.SameMotion q) (k : q.SameMotion r) :
    p.SameMotion (if g then r else q) := .ite (h.trans k) h

section
variable (p : Ps)

theorem Ps.cond_sameMotion (i : Nat) (b : Bool) : p.SameMotion (p.cond i b) := ⟨rfl, rfl, rfl, rfl, rfl⟩

theorem Ps.rise_sameMotion (i : Fin 3) (t : Nat) : p.SameMotion (p.rise i t) :=
  .ite ⟨rfl, rfl, rfl, rfl, rfl⟩ ⟨rfl, rfl, rfl, rfl, rfl⟩

theorem Ps.zMissing_sameMotion : p.SameMotion p.zMissing := .ite (p.cond_sameMotion 3 true) (.refl p)

theorem Ps.fired_sameMotion (mono : Nat) : p.SameMotion (p.fired mono) := by
  unfold Ps.fired
  split
  · exact .ite ⟨rfl, rfl, rfl, rfl, rfl⟩ ⟨rfl, rfl, rfl, rfl, rfl⟩
  · exact ⟨rfl, rfl, rfl, rfl, rfl⟩

end

/-! ### Counting (R197, R198) -/

section
variable (p : Ps)

theorem Ps.count_up : (p.count false).pos = (if p.cpr ≤ p.pos + 1 then 0 else p.pos + 1) ∧
    (p.count false).rev = (if p.cpr ≤ p.pos + 1 then p.rev + 1 else p.rev) := by
  by_cases hwrap : p.cpr ≤ p.pos + 1
  · simp only [Ps.count, hwrap, Bool.false_eq_true, if_true, if_false]
    exact ⟨rfl, rfl⟩
  · simp only [Ps.count, hwrap, Bool.false_eq_true, if_false]
    exact ⟨trivial, rfl⟩

theorem Ps.count_down : (p.count true).pos = (if p.pos = 0 then p.cpr - 1 else p.pos - 1) ∧
    (p.count true).rev = (if p.pos = 0 then p.rev - 1 else p.rev) := by
  by_cases hzero : p.pos = 0
  · simp only [Ps.count, hzero, if_true]
    exact ⟨rfl, rfl⟩
  · simp only [Ps.count, hzero, if_true, if_false]
    exact ⟨trivial, rfl⟩

/-- The speed timers take the edge's direction and leave the count. -/
theorem Ps.timeEdge_motion (down : Bool) (t : Nat) : (p.timeEdge down t).pos = p.pos ∧ (p.timeEdge down t).rev = p.rev ∧
    (p.timeEdge down t).moving = true ∧ (p.timeEdge down t).down = down := by
  unfold Ps.timeEdge
  split
  case isTrue hsame => exact ⟨rfl, rfl, rfl, (beq_iff_eq.mp hsame).symm⟩
  case isFalse => exact ⟨rfl, rfl, rfl, rfl⟩

end

/-- A count rests on the position, the revolutions and CPR. -/
theorem Ps.SameMotion.count {p q : Ps} (h : p.SameMotion q) (down : Bool) :
    (q.count down).pos = (p.count down).pos ∧ (q.count down).rev = (p.count down).rev := by
  have hcpr : q.cpr = p.cpr := by rw [Ps.cpr, h.use, Ps.cpr]
  cases down
  · simp only [Ps.count_up, hcpr, h.pos, h.rev, and_self]
  · simp only [Ps.count_down, hcpr, h.pos, h.rev, and_self]

/-- What a counted edge leaves of the channel: one count in its direction, and the channel moving that way. -/
structure Ps.Counted (p : Ps) (down : Bool) (q : Ps) : Prop where
  pos : q.pos = (p.count down).pos
  rev : q.rev = (p.count down).rev
  moving : q.moving = true
  down : q.down = down

theorem Ps.Counted.after {p q r : Ps} {down : Bool} (h : p.Counted down q) (k : q.SameMotion r) : p.Counted down r :=
  ⟨k.pos.trans h.pos, k.rev.trans h.rev, k.moving.trans h.moving, k.down.trans h.down⟩

theorem Ps.Counted.of_sameMotion {p p' q : Ps} {down : Bool} {t : Nat} (h : p.SameMotion p')
    (k : ((p'.count down).timeEdge down t).SameMotion q) : p.Counted down q := by
  obtain ⟨hpos, hrev⟩ := h.count down
  obtain ⟨htpos, htrev, htmoving, htdown⟩ := (p'.count down).timeEdge_motion down t
  exact ⟨k.pos.trans (htpos.trans hpos), k.rev.trans (htrev.trans hrev), k.moving.trans htmoving, k.down.trans htdown⟩

theorem psFire_ps (c : Fin 2) (down : Bool) (t : Ts) (s : State) :
    s.ps[c].SameMotion (psFire c down t s).ps[c] ∧ (psFire c down t s).ps[1 - c] = s.ps[1 - c] := by
  simp only [psFire, psEvent_ps, State.setPs_ps_self, State.setPs_ps_mate, and_true]
  exact (s.ps[c].fired_sameMotion s.mono).trans ⟨rfl, rfl, rfl, rfl, rfl⟩

/-- The compare that may fire after an edge leaves the count, and the other channel. -/
theorem psFire_ite_ps (c : Fin 2) (down : Bool) (t : Ts) (s : State) (g : Prop) [Decidable g] :
    s.ps[c].SameMotion (if g then psFire c down t s else s).ps[c] ∧
    (if g then psFire c down t s else s).ps[1 - c] = s.ps[1 - c] := by
  split
  · exact psFire_ps c down t s
  · exact ⟨.refl _, rfl⟩

/-- An edge that counts: the conditions that it sets before and the compare after it leave the motion. -/
theorem psEdge_counted {s : State} {c : Fin 2} {a b bLevel down : Bool} (bChanged z : Bool) (hcounts : psCounts s c = true)
    (hdir : s.ps[c].edgeDir a b bLevel = some down) :
    s.ps[c].Counted down (psEdge s c a b bLevel bChanged z).ps[c] ∧
    (psEdge s c a b bLevel bChanged z).ps[1 - c] = s.ps[1 - c] := by
  simp only [psEdge, hcounts, hdir, Bool.not_true, Bool.false_eq_true, if_false]
  refine ⟨.after ?_ (psFire_ite_ps _ _ _ _ _).1, (psFire_ite_ps _ _ _ _ _).2.trans ?_⟩
  · rw [psNotify_ps, State.setPs_ps_self, State.setPs_ps_self]
    have hlast (q : Ps) (t : Nat) : q.SameMotion { q.zMissing with lastCnt := t } :=
      q.zMissing_sameMotion.trans ⟨rfl, rfl, rfl, rfl, rfl⟩
    refine .of_sameMotion ?_ (hlast _ _)
    exact .change (.change (.change (.change (.refl _) (Ps.rise_sameMotion _ 2 _)) (Ps.rise_sameMotion _ 0 _))
      (Ps.rise_sameMotion _ 1 _)) ⟨rfl, rfl, rfl, rfl, rfl⟩
  · rw [psNotify_ps, State.setPs_ps_mate, State.setPs_ps_mate]

section
variable {s : State} {c : Fin 2} (bChanged z : Bool) (hcounts : psCounts s c = true) (hquad : s.ps[c].upDown = false)
include hcounts hquad

/-- In quadrature a rising edge of A counts, down where B and INV differ (R197). -/
theorem runs_psEdge_quadrature {b down : Bool} (hdown : (b != s.ps[c].inv) = down) :
    Runs (.psEdge c true false b bChanged z) s fun t => s.ps[c].Counted down t.ps[c] ∧ t.ps[1 - c] = s.ps[1 - c] ∧
      Only [.ps, .evr] s t := by
  have hdir : s.ps[c].edgeDir true false b = some down := by
    simp only [Ps.edgeDir, hquad, Bool.false_eq_true, if_false, if_true, hdown]
  obtain ⟨hcount, hmate⟩ := psEdge_counted bChanged z hcounts hdir
  exact ⟨_, rfl, hcount, hmate, (psEdge_only s c true false b bChanged z).mono rfl⟩

theorem runs_psEdge_up {b : Bool} (hb : b = s.ps[c].inv) : Runs (.psEdge c true false b bChanged z) s fun t =>
    t.ps[c].pos = (if s.ps[c].cpr ≤ s.ps[c].pos + 1 then 0 else s.ps[c].pos + 1) ∧
    t.ps[c].rev = (if s.ps[c].cpr ≤ s.ps[c].pos + 1 then s.ps[c].rev + 1 else s.ps[c].rev) ∧
    t.ps[c].moving = true ∧ t.ps[1 - c] = s.ps[1 - c] ∧ Only [.ps, .evr] s t := by
  obtain ⟨t, hexec, hcount, hmate, honly⟩ :=
    runs_psEdge_quadrature bChanged z hcounts hquad (bne_eq_false_iff_eq.mpr hb)
  obtain ⟨hpos, hrev⟩ := s.ps[c].count_up
  exact ⟨t, hexec, hcount.pos.trans hpos, hcount.rev.trans hrev, hcount.moving, hmate, honly⟩

theorem runs_psEdge_down {b : Bool} (hb : b ≠ s.ps[c].inv) : Runs (.psEdge c true false b bChanged z) s fun t =>
    t.ps[c].pos = (if s.ps[c].pos = 0 then s.ps[c].cpr - 1 else s.ps[c].pos - 1) ∧
    t.ps[c].rev = (if s.ps[c].pos = 0 then s.ps[c].rev - 1 else s.ps[c].rev) ∧ t.ps[c].down = true ∧
    t.ps[c].moving = true ∧ t.ps[1 - c] = s.ps[1 - c] ∧ Only [.ps, .evr] s t := by
  obtain ⟨t, hexec, hcount, hmate, honly⟩ :=
    runs_psEdge_quadrature bChanged z hcounts hquad (bne_iff_ne.mpr hb)
  obtain ⟨hpos, hrev⟩ := s.ps[c].count_down
  exact ⟨t, hexec, hcount.pos.trans hpos, hcount.rev.trans hrev, hcount.down, hcount.moving, hmate, honly⟩

end

/-! ### Index (R199) -/

/-- Homing ends at position 0 with HOMED, and leaves what the index captured. -/
theorem Ps.home_at_zero (p : Ps) (free : Bool) : (p.home free).pos = 0 ∧ (p.home free).homed = true ∧
    (p.home free).zcap = p.zcap := by
  unfold Ps.home Ps.homeCond
  by_cases hdown : p.pos = 0 ∨ p.homesDown free = true
  · simp only [hdown, if_true]
    exact ⟨rfl, rfl, rfl⟩
  · simp only [hdown, if_false]
    exact ⟨rfl, rfl, rfl⟩

/-- The index captures the position, restarts the way travelled, and ends Z_MISSING (R199). -/
def Ps.captured (p : Ps) : Ps := { p with zcap := p.pos, travel := 0 }.cond 3 false

/-- An index in use captures the position, and homes where it homes; a free value is drawn only there. -/
theorem psIndex_captures {s : State} {c : Fin 2} (hcounts : psCounts s c = true) (hz : s.ps[c].zMode ≠ 0) :
    ∃ p free, s.ps[c].SameMotion p ∧
      (psIndex s c).ps[c] = (if p.homesNow then p.captured.home free else p.captured) ∧
      (psIndex s c).ps[1 - c] = s.ps[1 - c] ∧ (p.homesNow = false → (psIndex s c).drawn = s.drawn) := by
  have hgoes : ¬ ((!psCounts s c) = true ∨ s.ps[c].zMode = 0) := by
    simp only [hcounts, hz, Bool.not_true, Bool.false_eq_true, or_self, not_false_eq_true]
  rw [psIndex, if_neg hgoes]
  refine ⟨if s.ps[c].zInv then s.ps[c] else s.ps[c].rise 2 (psEdgeTick s c), bit s.freeVal 0,
    .ite (.refl _) (Ps.rise_sameMotion _ 2 _), ?_, ?_, fun hstays => ?_⟩
  · simp only [psEvent_ps, psNotify_ps, apply_ite State.ps, State.drew_ps, ite_self, State.setPs_ps_self]
    rfl
  · simp only [psEvent_ps, psNotify_ps, apply_ite State.ps, State.drew_ps, ite_self, State.setPs_ps_mate]
  · simp only [psEvent_drawn, psNotify_drawn, State.setPs_ps_self, hstays, Bool.false_and, Bool.false_eq_true, if_false,
      State.setPs_drawn]

theorem Ps.SameMotion.zMode {p q : Ps} (h : p.SameMotion q) : q.zMode = p.zMode := by rw [Ps.zMode, h.use, Ps.zMode]

section
variable {s : State} {c : Fin 2} (hcounts : psCounts s c = true)
include hcounts

theorem runs_psIndexEdge_capture (hz : s.ps[c].zMode = 1) : Runs (.psIndexEdge c) s fun t =>
    t.ps[c].zcap = s.ps[c].pos ∧ t.ps[c].pos = s.ps[c].pos ∧ t.ps[c].travel = 0 ∧ t.ps[1 - c] = s.ps[1 - c] ∧
    Only [.ps, .evr] s t := by
  obtain ⟨p, free, hsame, hself, hmate, hdrawn⟩ := psIndex_captures hcounts (by rw [hz]; decide)
  have hstays : p.homesNow = false := by
    rw [Ps.homesNow, hsame.zMode, hz]
    rfl
  refine .of_next rfl ?_
  rw [hself, if_neg (Bool.eq_false_iff.mp hstays)]
  exact ⟨hsame.pos, hsame.pos, rfl, hmate, ((psIndex_only s c).of_same (hdrawn hstays)).mono rfl⟩

theorem runs_psIndexEdge_home (hz : s.ps[c].zMode = 2) : Runs (.psIndexEdge c) s fun t =>
    t.ps[c].zcap = s.ps[c].pos ∧ t.ps[c].pos = 0 ∧ t.ps[c].homed = true ∧ t.ps[1 - c] = s.ps[1 - c] ∧
    Only [.ps, .evr, .drawn] s t := by
  obtain ⟨p, free, hsame, hself, hmate, -⟩ := psIndex_captures hcounts (by rw [hz]; decide)
  have hhomes : p.homesNow = true := by
    rw [Ps.homesNow, hsame.zMode, hz]
    rfl
  obtain ⟨hpos, hhomed, hzcap⟩ := p.captured.home_at_zero free
  refine .of_next rfl ?_
  rw [hself, if_pos hhomes]
  exact ⟨hzcap.trans hsame.pos, hpos, hhomed, hmate, (psIndex_only s c).mono rfl⟩

end

/-! ### Standstill, the arming of Z, presets and the compare word (R199, R200, R203, R205) -/

theorem runs_psStandstill {s : State} {c : Fin 2} (h : s.ps[c].stands s.mono = true) : Runs (.psStandstill c) s fun t =>
    t.ps[c].moving = false ∧ t.ps[c].lastEdge = none ∧ t.ps[c].pos = s.ps[c].pos ∧ t.ps[1 - c] = s.ps[1 - c] ∧
    Only [.ps] s t := by
  refine .of_psSet rfl fun t hself hmate honly => ?_
  rw [hself, if_pos h]
  exact ⟨rfl, rfl, rfl, hmate, honly⟩

theorem runs_psStandstill_moving {s : State} {c : Fin 2} (h : s.ps[c].stands s.mono = false) :
    Runs (.psStandstill c) s fun t => t = s :=
  .of_next rfl (State.setPs_of_fixed (if_neg (Bool.eq_false_iff.mp h)))

theorem runs_psArmZ (s : State) (c : Fin 2) : Runs (.psArmZ c) s fun t =>
    t.ps[c] = { s.ps[c] with armed := true } ∧ t.ps[1 - c] = s.ps[1 - c] ∧ Only [.ps] s t :=
  .of_psSet rfl fun _ hself hmate honly => ⟨hself, hmate, honly⟩

section
variable {s : State} {c : Fin 2} (src : Source)

theorem runs_psSetPos (h : fld s.ps[c].presetPos 0 24 < s.ps[c].cpr) : Runs (.psSetPos src c) s fun t =>
    t.ps[c].pos = fld s.ps[c].presetPos 0 24 ∧ t.ps[c].rev = s.ps[c].presetRev ∧ t.ps[c].homed = true ∧
    t.ps[1 - c] = s.ps[1 - c] ∧ Only [.ps, .evr] s t := by
  refine .of_psChange (congrArg Host.Outcome.next (if_neg (Nat.not_le.mpr h))) fun t hself hmate honly => ?_
  rw [hself]
  exact ⟨rfl, rfl, rfl, hmate, honly⟩

theorem runs_psSetPos_refused (h : s.ps[c].cpr ≤ fld s.ps[c].presetPos 0 24) : Runs (.psSetPos src c) s fun t =>
    t.sys.werr.reason = 9 ∧ Only [.sys] s t :=
  .of_guard rfl h ⟨rfl, logWerr_only _ _ _ _⟩

theorem psCmpWrite_of_ok {v : Word} (h : psCmpOk s.ps[c].cpr v = true) : (psCmpWrite src c v s).2 =
    s.setPs c fun p => { p with cmp := v &&& 0xF0FFFFFF, cmpOld := some (s.mono, p.cmpAt s.mono) } := by
  rw [psCmpWrite, if_pos h]

theorem runs_psCmpWrite {v : Word} (h : psCmpOk s.ps[c].cpr v = true) : Runs (.psCmpWrite src c v) s fun t =>
    t.ps[c] = { s.ps[c] with cmp := v &&& 0xF0FFFFFF, cmpOld := some (s.mono, s.ps[c].cmpAt s.mono) } ∧
    t.ps[1 - c] = s.ps[1 - c] ∧ Only [.ps] s t :=
  .of_psSet (congrArg Host.Outcome.next (psCmpWrite_of_ok src h)) fun _ hself hmate honly => ⟨hself, hmate, honly⟩

theorem runs_psCmpWrite_refused {v : Word} (h : psCmpOk s.ps[c].cpr v = false) : Runs (.psCmpWrite src c v) s fun t =>
    t.sys.werr.reason = 9 ∧ Only [.sys] s t :=
  .of_next (congrArg (Host.Outcome.next ∘ Prod.snd) (if_neg (Bool.eq_false_iff.mp h))) ⟨rfl, logWerr_only _ _ _ _⟩

end

/-! ### Loopbacks, the block's stop and conditions (R206, R209, R482) -/

theorem psLoop_of_counting {s : State} {c : Fin 2} (h : psCounts s c = true) (depth : Nat) (pass : Bool) :
    psLoop c depth pass s = testResult 3 depth c.val (passCode pass) 0 s := by rw [psLoop, if_pos h]

theorem psBlkWrite_psBlk (stop : Bool) (s : State) : (psBlkWrite stop s).psBlk = { stop := stop } := by
  rw [psBlkWrite, psNotify_psBlk, psNotify_psBlk]
  split <;> rfl

theorem runs_psBlockStop (stop : Bool) (s : State) : Runs (.psBlockStop stop) s fun t =>
    t.psBlk.stop = stop ∧ Only [.ps, .psBlk, .evr] s t :=
  .of_next rfl ⟨congrArg PsBlk.stop (psBlkWrite_psBlk stop s), (psBlkWrite_only stop s).mono rfl⟩

theorem Ps.clearable_rate {p : Ps} {mono : Nat} (h : p.rateAt + ms 100 ≤ mono) : p.clearable 0 mono = true := by
  rw [Ps.clearable, decide_eq_true h]
  rfl

theorem runs_psDiagClear_rate {s : State} {c : Fin 2} (h : s.ps[c].rateAt + ms 100 ≤ s.mono) :
    Runs (.psDiagClear c 0) s fun t => t.ps[c] = s.ps[c].cond 0 false ∧ t.ps[1 - c] = s.ps[1 - c] ∧ Only [.ps, .evr] s t :=
  .of_psChange (congrArg Host.Outcome.next (if_pos (Ps.clearable_rate h))) fun _ hself hmate honly => ⟨hself, hmate, honly⟩

/-- With 10 rejected pulses in the last 100 ms one more is the eleventh. -/
theorem runs_psPulseRejected {s : State} {c : Fin 2} (hcounts : psCounts s c = true)
    (hten : (recent (ms 100) s.mono s.ps[c].rejects).length = 10) : Runs (.psPulseRejected c) s fun t =>
      t.ps[c].dstat = (s.ps[c].cond 1 true).dstat ∧ t.ps[1 - c] = s.ps[1 - c] ∧ Only [.ps, .evr] s t := by
  have heleven : 10 < (s.mono :: recent (ms 100) s.mono s.ps[c].rejects).length := by
    rw [List.length_cons, hten]
    decide
  refine .of_psChange (congrArg Host.Outcome.next (if_pos hcounts)) fun t hself hmate honly => ?_
  rw [hself, if_pos heleven]
  exact ⟨rfl, hmate, honly⟩

/-- Settles O18: an edge that counts is `Ps.Counted`, an index in use is `Ps.captured` and under Z_MODE 2 homed, and each
other row changes its one channel, the stop bit, `TST_RES` or the log of ignored writes. -/
theorem speedAndPositionChannelsCount : Obligations.SpeedAndPositionChannelsCount := fun s c src =>
  ⟨fun _ z hcounts hquad => ⟨runs_psEdge_up false z hcounts hquad, runs_psEdge_down false z hcounts hquad⟩,
    fun hcounts => ⟨runs_psIndexEdge_capture hcounts, runs_psIndexEdge_home hcounts⟩,
    runs_psStandstill, runs_psStandstill_moving, runs_psSetPos src, runs_psSetPos_refused src, runs_psArmZ s c,
    fun _ => ⟨runs_psCmpWrite src, runs_psCmpWrite_refused src⟩,
    fun p hcounts => ⟨runs_testResult (congrArg Host.Outcome.next (psLoop_of_counting hcounts 1 p)),
      runs_testResult (congrArg Host.Outcome.next (psLoop_of_counting hcounts 2 p))⟩,
    fun stop => runs_psBlockStop stop s, runs_psDiagClear_rate, runs_psPulseRejected⟩

end Sys2Proof.Machine
end

section
/-! Proof about the commands that arrive for this node (R309, R340 to R342): with the answer to a repeated tag, the NEWDAT
of the command's own receive buffer clears too. -/
namespace Sys2Proof.Machine

open Sys2Proof

/-! ### A repeated command that still stands in its receive buffer (R309, R342) -/

/-- REG_READ with tag 9 from node 4, the manager of the segment, to node 5. -/
def repeatedRead : ImzRx := { bus := 0, dir := 2, src := 4, data := [5, 0, 9, 1] ++ List.replicate 60 0, age := 0 }

/-- Node 5 in service, which has applied tag 9 of node 4 and keeps its answer; its controllers are on their buses. -/
def tagNineApplied : State :=
  { State.reset with
    sys := { regions := Vector.replicate 5 { st := .ready }, mode := .inService, power := .run }
    rcp := { recipes := #v[{ bank := [(16, 5)], st := .active }, {}], loaded := true }
    can := Vector.replicate 4 { mode := 1, st := 2, fdEn := true }
    imz := { joined := true, tags := [{ node := 4, tag := 9, rsp := [1] }] } }

/-- CAN0 has stored the repeat, with NEWDAT for IMZ set. -/
def repeatedReadHeld : State :=
  canStore 0 false { id := BitVec.ofNat 29 (frameId 4 0x40 2 4), base := false, remote := false, fdf := true, brs := true,
                     esi := false, dlc := 15, data := repeatedRead.data } 0 tagNineApplied

theorem repeatedReadHeld_repeats_tag : commandHere 0x01 repeatedRead repeatedReadHeld = true ∧
    tagOf repeatedRead repeatedReadHeld = some { node := 4, tag := 9, rsp := [1] } := by decide +kernel

theorem repeatedReadHeld_answers_up : fromBelow repeatedReadHeld repeatedRead = false ∧
    speaksUp repeatedReadHeld = true := by decide +kernel

theorem cmdFor_repeatedRead_clears_newdat :
    (cmdFor 0x01 repeatedRead (cmdRegRead repeatedRead) repeatedReadHeld).can[0].imzNew = 0 := by decide +kernel

theorem canSubmit_repeatedReadHeld_keeps_newdat :
    (canSubmit 0 { id := frameId 4 0x41 1 repeatedReadHeld.nodeNum, data := [1] } repeatedReadHeld).can[0].imzNew = 1 := by
  decide +kernel

/-- Refutes O40, by the clause of the repeated tag: a command that CAN0 has stored is taken with its NEWDAT for IMZ cleared
(R309) before its answer enters a transmit buffer of the same controller, so that CAN0 is not what the answer alone makes of
it (`TookUp` compares the whole controller, receive side included). -/
theorem not_commandsForThisNodeActOnce : ¬ Obligations.CommandsForThisNodeActOnce := by
  unfold Obligations.CommandsForThisNodeActOnce
  intro h
  obtain ⟨hrepeat, -, -⟩ := h repeatedReadHeld repeatedRead
  obtain ⟨hhere, htag⟩ := repeatedReadHeld_repeats_tag
  obtain ⟨habove, hspeaks⟩ := repeatedReadHeld_answers_up
  obtain ⟨t, hnext, -, htook⟩ := hrepeat 0x01 (.cmdRegRead repeatedRead) _ hhere htag (.inl ⟨rfl, rfl⟩)
  obtain ⟨hcan0, -⟩ := htook (by decide) habove hspeaks
  have hnewdat : t.can[0].imzNew = 1 := (congrArg Can.imzNew hcan0).trans canSubmit_repeatedReadHeld_keeps_newdat
  have htaken : cmdFor 0x01 repeatedRead (cmdRegRead repeatedRead) repeatedReadHeld = t := Host.Outcome.next.inj hnext
  rw [← htaken, cmdFor_repeatedRead_clears_newdat] at hnewdat
  exact absurd hnewdat (by decide)

end Sys2Proof.Machine
end

section
/-! Proofs about annunciation and alarm groups: what writes of ALM_CMD and the expiries do (R257, R260, R261, R268, R271),
and what commands and results make of a point's flags and of the sequence number (R251, R256, R261 to R263). -/
namespace Sys2Proof.Machine

open Sys2Proof

/-! ### Writes of ALM_CMD (R257, R260, R261, R271) -/

section
variable {s : State}

theorem annForwarded_ann (c : AnnCmd) (s : State) : (annForwarded c s).ann = s.ann := (annForwarded_only c s).same .ann rfl

theorem almCmdWrite_taken (op scope target : Nat) (src : Source) (hpend : s.ann.pend = false) (hact : s.standby = false)
    (hroom : s.ann.queue.length < 32) : (almCmdWrite op scope target src s).ann =
      { s.ann with pend := true, queue := s.ann.queue ++ [.mk op scope target s.ann.arg true (s.originOf src) 0 []] } := by
  simp only [almCmdWrite, annSubmit, hpend, hact, Nat.not_le.mpr hroom, Bool.false_eq_true, if_false, if_true,
    State.setAnn_ann, annForwarded_ann]

/-- The write of `ALM_CMD` is refused: its operation and the code are shown, with no point acted on. -/
def almCmdRefused (op code : Nat) (s : State) : State :=
  s.setAnn fun a => { a with resOp := op, resCode := code, resCount := 0 }

theorem almCmdWrite_busy (op scope target : Nat) (src : Source) (hpend : s.ann.pend = true) :
    almCmdWrite op scope target src s = almCmdRefused op 6 s := if_pos hpend

theorem almCmdWrite_standby (op scope target : Nat) (src : Source) (hpend : s.ann.pend = false) (hstandby : s.standby = true) :
    almCmdWrite op scope target src s = almCmdRefused op 4 s := by
  have hcode : ¬ (4 = 0) := by decide
  simp only [almCmdWrite, annSubmit, almCmdRefused, hpend, hstandby, Bool.false_eq_true, if_false, if_true, hcode]

end

/-- Every row of ALM_CMD is the write of its operation. -/
theorem exec_almCmd {src : Source} {sc : Fin 4} {tg : BitVec 23} {op : Nat} {x : Instr} (s : State)
    (hx : (x = .almCmdAck src sc tg ∧ op = 1) ∨ (x = .almCmdSilence src sc tg ∧ op = 2) ∨
      (x = .almCmdShelve src sc tg ∧ op = 3) ∨ (x = .almCmdUnshelve src sc tg ∧ op = 4) ∨
      ∃ k : Fin 8, x = .almCmdBadOp src k sc tg ∧ op = k.val ∧ 5 ≤ k.val) :
    exec x s = .next (almCmdWrite op sc.val tg.toNat src s) := by
  rcases hx with ⟨rfl, rfl⟩ | ⟨rfl, rfl⟩ | ⟨rfl, rfl⟩ | ⟨rfl, rfl⟩ | ⟨k, rfl, rfl, hk⟩
  case inr.inr.inr.inr => exact congrArg Host.Outcome.next (if_pos hk)
  all_goals rfl

/-! ### One point changed -/

section
variable (s : State) (n : Fin 80) (f : Pnt → Pnt)

theorem State.setPt_pts_self : (s.setPt n f).pev.pts[n] = f s.pev.pts[n] := Vector.getElem_set_self _

theorem State.setPt_pts_other {m : Fin 80} (h : m ≠ n) : (s.setPt n f).pev.pts[m] = s.pev.pts[m] :=
  Vector.getElem_set_ne n.isLt m.isLt fun heq => h (Fin.ext heq.symm)

end

theorem runs_shelveExpiry {s : State} {n : Fin 80} (h : bit s.pev.pts[n].flags 6 = true) : Runs (.shelveExpiry n) s fun t =>
    t.pev.pts[n] = { s.pev.pts[n] with shlvDue := true } ∧ (∀ m : Fin 80, m ≠ n → t.pev.pts[m] = s.pev.pts[m]) ∧
      Only [.pev] s t :=
  .of_guard rfl h ⟨s.setPt_pts_self n _, fun _ hm => s.setPt_pts_other n _ hm, s.setPt_only n _⟩

theorem runs_shelveExpiry_unshelved {s : State} {n : Fin 80} (h : bit s.pev.pts[n].flags 6 = false) :
    Runs (.shelveExpiry n) s fun t => t = s :=
  .of_not_guard rfl (Bool.eq_false_iff.mp h) rfl

/-! ### A group judged anew in its episode (R267, R268) -/

section
variable {g : Grp} {vs : List MemView}

theorem Grp.episodeStep_of_running (hepi : g.epi.isSome = true) (hvs : (vs.any fun v => inEpisode v.st) = true) (now : Nat) :
    g.episodeStep vs now = g := by
  rw [Grp.episodeStep, if_pos hvs, if_pos hepi]

theorem Grp.chooseFo_settled (g : Grp) : g.chooseFo.settled = g.settled := by
  unfold Grp.chooseFo
  split
  · rfl
  · split
    · rfl
    · split
      · split <;> rfl
      · rfl

theorem Grp.finality_settled (h : g.settled = true) (now settle : Nat) : (g.finality vs now settle).settled = true := by
  unfold Grp.finality
  split
  · exact h
  · exact Bool.or_eq_true_iff.mpr (.inl h)

/-- Once settled, a group is provisional for a member PENDING alone (R268). -/
theorem Grp.finality_prov (h : g.settled = true) (hpend : ∀ v ∈ vs, v.st ≠ 1) (now settle : Nat) :
    (g.finality vs now settle).prov = false := by
  unfold Grp.finality
  split
  · rfl
  · simpa [h] using fun v hv hst => absurd hst (hpend v hv)

end

/-- Settled in its episode, a group stays so when it is judged, and is provisional for a member PENDING alone (R268). -/
theorem grpJudge_settled {s : State} {n : Nat} {g : Grp} (unlocked : Nat → Bool) (hset : g.settled = true)
    (hepi : g.epi.isSome = true) (hin : ∃ a ∈ grpMembers s n, inEpisode (memView s a).st = true) :
    (grpJudge s n unlocked g).settled = true ∧
    ((∀ a ∈ grpMembers s n, (memView s a).st ≠ 1) → (grpJudge s n unlocked g).prov = false) := by
  have hany : (((grpMembers s n).map (memView s)).any fun v => inEpisode v.st) = true := by
    simpa only [List.any_map, List.any_eq_true, Function.comp_apply] using hin
  have hchosen : ((g.takeCands ((grpMembers s n).map (memView s)) unlocked).chooseFo).settled = true :=
    (Grp.chooseFo_settled _).trans hset
  unfold grpJudge
  dsimp only
  rw [Grp.episodeStep_of_running hepi hany]
  exact ⟨Grp.finality_settled hchosen _ _, fun hpend => Grp.finality_prov hchosen (List.forall_mem_map.mpr hpend) _ _⟩

/-- A settled record is not the one that an unlisted group stands at. -/
theorem State.putGrp_get_settled {g : Grp} (h : g.settled = true) (s : State) (n : Nat) : (s.putGrp n g).grp.get n = g := by
  have hne : g ≠ {} := fun heq => Bool.false_ne_true ((congrArg Grp.settled heq).symm.trans h)
  rw [State.putGrp, State.setGrps_grp, GrpBlk.get, tblPut, if_neg hne, tblGet_tblIns_self]

theorem grpUpdate_grp (unlocked : Nat → Bool) (s : State) (n : Nat) :
    (grpUpdate unlocked s n).grp = (s.putGrp n (grpJudge s n unlocked (s.grp.get n))).grp := by
  unfold grpUpdate
  dsimp only
  split
  · rfl
  · exact (raise_only _ _ _).same .grp rfl

theorem grpUpdate_settled {s : State} {n : Nat} (unlocked : Nat → Bool) (hset : (s.grp.get n).settled = true)
    (hepi : (s.grp.get n).epi.isSome = true) (hin : ∃ a ∈ grpMembers s n, inEpisode (memView s a).st = true) :
    ((grpUpdate unlocked s n).grp.get n).settled = true ∧
    ((∀ a ∈ grpMembers s n, (memView s a).st ≠ 1) → ((grpUpdate unlocked s n).grp.get n).prov = false) := by
  have hjudge := grpJudge_settled unlocked hset hepi hin
  rwa [grpUpdate_grp, State.putGrp_get_settled hjudge.1]

theorem runs_foSettleExpiry {s : State} {g : Fin 1024} (hepi : (s.grp.get g.val).epi.isSome = true) (hg : g.val < s.grpCount)
    (hin : ∃ a ∈ grpMembers s g.val, inEpisode (memView s a).st = true) : Runs (.foSettleExpiry g) s fun t =>
      (t.grp.get g.val).settled = true ∧ Only [.grp, .evr] s t ∧
      ((∀ a ∈ grpMembers s g.val, (memView s a).st ≠ 1) → (t.grp.get g.val).prov = false) := by
  have hget := State.putGrp_get_settled (g := { s.grp.get g.val with settled := true }) rfl s g.val
  obtain ⟨hset, hprov⟩ := grpUpdate_settled (fun _ => false) (congrArg Grp.settled hget)
    ((congrArg (·.epi.isSome) hget).trans hepi) hin
  exact .of_guard rfl ⟨hepi, hg⟩ ⟨hset, Only.after (grpUpdate_only _ _ _) rfl ((s.putGrp_only _ _).mono rfl), hprov⟩

/-- Settles O21: every row of ALM_CMD is `almCmdWrite`, which a standby and a command that waits refuse; a settled group in
its episode stays provisional for a PENDING member alone. -/
theorem annunciationCommandsAreQueued : Obligations.AnnunciationCommandsAreQueued := fun s =>
  ⟨fun src sc tg op x hx =>
    ⟨fun hpend hact hroom => .of_next (exec_almCmd s hx)
        ⟨almCmdWrite_taken op sc.val tg.toNat src hpend hact hroom, almCmdWrite_only _ _ _ _ s⟩,
      fun hpend => .of_next (exec_almCmd s hx) (by
        rw [almCmdWrite_busy _ _ _ _ hpend]
        exact ⟨rfl, s.setAnn_only _⟩),
      fun hpend hstandby => .of_next (exec_almCmd s hx) (by
        rw [almCmdWrite_standby _ _ _ _ hpend hstandby]
        exact ⟨rfl, s.setAnn_only _⟩)⟩,
    fun _ => ⟨runs_shelveExpiry, runs_shelveExpiry_unshelved⟩,
    fun _ => runs_foSettleExpiry⟩

/-! ### Flags (R251) -/

theorem bit_flagPut (f : BitVec 8) {i : Nat} (hi : i < 8) (b : Bool) : bit (flagPut f i b) i = b := by
  have hmask : (BitVec.ofNat 8 (2 ^ i)).getLsbD i = true := by
    simp only [BitVec.getLsbD_ofNat, hi, decide_true, Nat.testBit_two_pow_self, Bool.and_self]
  cases b
  · simp only [flagPut, bit, Bool.false_eq_true, if_false, BitVec.getLsbD_and, BitVec.getLsbD_not, hmask, Bool.not_true,
      Bool.and_false]
  · simp only [flagPut, bit, if_true, BitVec.getLsbD_or, hmask, Bool.or_true]

theorem flagPut_ne {f : BitVec 8} {i : Nat} {b : Bool} (hi : i < 8) (h : bit f i = !b) : flagPut f i b ≠ f := fun heq => by
  have hbit := bit_flagPut f hi b
  rw [heq, h] at hbit
  cases b <;> exact Bool.noConfusion hbit

/-! ### A transition and its entry (R252, R262, R263) -/

/-- What an entry on its way leaves: point `n` but for its RESYNC mark, and the sequence number. -/
structure KeepsPoint (n : Fin 80) (s t : State) : Prop where
  point : t.pev.pts[n] = { s.pev.pts[n] with resync := t.pev.pts[n].resync }
  seq : t.ann.seq = s.ann.seq

section
variable {n : Fin 80} {s t u : State}

theorem KeepsPoint.trans (h : KeepsPoint n s t) (k : KeepsPoint n t u) : KeepsPoint n s u :=
  ⟨by rw [k.point, h.point], k.seq.trans h.seq⟩

theorem KeepsPoint.of_same (hpev : t.pev = s.pev) (hseq : t.ann.seq = s.ann.seq) : KeepsPoint n s t :=
  ⟨by rw [hpev], hseq⟩

theorem KeepsPoint.of_only {l : List Part} (h : Only l s t) (hpev : l.contains .pev = false) (hann : l.contains .ann = false) :
    KeepsPoint n s t :=
  .of_same (h.same .pev hpev) (congrArg Ann.seq (h.same .ann hann))

theorem KeepsPoint.ite {c : Prop} [Decidable c] (h : KeepsPoint n s t) (k : KeepsPoint n s u) :
    KeepsPoint n s (if c then t else u) := by split <;> assumption

theorem imzEntry_keepsPoint (n : Fin 80) (e : TrEntry) (s : State) : KeepsPoint n s (imzEntry n e s) := by
  unfold imzEntry
  split
  · exact .of_same rfl rfl
  · split
    · exact .of_only (imzEnqueue_only _ s) rfl rfl
    · exact ⟨by simp only [imzLoss, State.setAnn_pev, State.setPt_pts_self], rfl⟩

theorem recLose_keepsPoint (n : Fin 80) (t : Ts) (s : State) : KeepsPoint n s (recLose t s) :=
  have honly := recLose_only t s
  .of_only honly rfl rfl

theorem annSend_keepsPoint (n : Fin 80) (e : TrEntry) (s : State) : KeepsPoint n s (annSend n e s) := by
  have htaken : KeepsPoint n s (s.setAnn fun a => { a with recQ := a.recQ ++ [e] }) := .of_same rfl rfl
  have hlost : KeepsPoint n s (s.setAnn fun a => { a with lostRec := satInc 255 a.lostRec }) := .of_same rfl rfl
  have hqueue := KeepsPoint.ite (c := s.ann.recQ.length < 64) htaken (hlost.trans (recLose_keepsPoint n e.time _))
  exact .ite (hqueue.trans (imzEntry_keepsPoint n e _)) hqueue

/-- The outcome of a change of flags: the new flags, with one more sequence number but on a standby, which makes no entry
(R252, R262, R263); the times of raising and the end of a shelving stay. -/
structure Announced (n : Fin 80) (flags : BitVec 8) (s t : State) : Prop where
  flags : t.pev.pts[n].flags = flags
  tUnack : t.pev.pts[n].tUnack = s.pev.pts[n].tUnack
  shlvEnd : t.pev.pts[n].shlvEnd = s.pev.pts[n].shlvEnd
  seq : t.ann.seq = if s.standby then s.ann.seq else s.ann.seq + 1

theorem Announced.keeps {flags : BitVec 8} (h : Announced n flags s t) (k : KeepsPoint n t u) : Announced n flags s u :=
  ⟨by rw [k.point]; exact h.flags, by rw [k.point]; exact h.tUnack, by rw [k.point]; exact h.shlvEnd, k.seq.trans h.seq⟩

theorem annTrans_announced {flags : BitVec 8} (h : flags ≠ s.pev.pts[n].flags) (ev keep cause onset time : Nat) (org : Origin) :
    Announced n flags s (annTrans n ev flags keep cause onset time org s) := by
  unfold annTrans
  dsimp only
  rw [if_neg fun hsame => h hsame.1]
  split
  case isTrue hstandby =>
    refine ⟨?_, ?_, ?_, (if_pos hstandby).symm⟩ <;> rw [State.setPt_pts_self]
  case isFalse hactive =>
    refine Announced.keeps ⟨?_, ?_, ?_, (if_neg hactive).symm⟩ (annSend_keepsPoint n _ _) <;>
      rw [State.setAnn_pev, State.setPt_pts_self]

theorem annTrans_unchanged {flags : BitVec 8} {keep : Nat} (hflags : flags = s.pev.pts[n].flags)
    (hkeep : keep = s.pev.pts[n].annCause) (ev cause onset time : Nat) (org : Origin) :
    annTrans n ev flags keep cause onset time org s = s :=
  if_pos ⟨hflags, hkeep⟩

end

/-! ### Commands and results on a point (R251, R256, R261) -/

section
variable {s : State} {n : Fin 80} {org : Origin}

theorem annAck_clears (hset : bit s.pev.pts[n].flags 2 = true) (hold : s.pev.pts[n].tUnack ≤ org.ack)
    (hfault : bit s.pev.pts[n].flags 5 = false) : Announced n (flagPut s.pev.pts[n].flags 2 false) s (annAck n org s) := by
  simp only [annAck, hset, hold, hfault, true_and, Bool.false_eq_true, false_and, if_true, if_false]
  exact annTrans_announced (flagPut_ne (by decide) hset) ..

/-- What was raised after the ack time stays unacknowledged (R256). -/
theorem annAck_of_later (hlate : org.ack < s.pev.pts[n].tUnack) (hfault : bit s.pev.pts[n].flags 5 = false) :
    annAck n org s = s := by
  simp only [annAck, hfault, Nat.not_le.mpr hlate, and_false, Bool.false_eq_true, false_and, if_false]
  exact annTrans_unchanged rfl rfl ..

/-- The point with its shelving's end set, before its flags change. -/
def shelvedUntil (n : Fin 80) (t : Nat) (s : State) : State := s.setPt n fun p => { p with shlvEnd := t, shlvDue := false }

theorem shelvedUntil_point (n : Fin 80) (t : Nat) (s : State) :
    (shelvedUntil n t s).pev.pts[n] = { s.pev.pts[n] with shlvEnd := t, shlvDue := false } := State.setPt_pts_self ..

theorem annShelve_announced (m : Nat) (h : bit s.pev.pts[n].flags 6 = false) :
    Announced n (flagPut s.pev.pts[n].flags 6 true) (shelvedUntil n (org.ack + m * sec 60) s) (annShelve n m org s) :=
  annTrans_announced (by rw [shelvedUntil_point]; exact flagPut_ne (by decide) h) ..

theorem annUnshelve_announced (h : bit s.pev.pts[n].flags 6 = true) :
    Announced n (flagPut s.pev.pts[n].flags 6 false) (shelvedUntil n 0 s) (annUnshelve n org s) :=
  annTrans_announced (by rw [shelvedUntil_point]; exact flagPut_ne (by decide) h) ..

/-- An alarm of a category that needs acknowledgement, raised at the scan start, sets ACTIVE and UNACK (R251, R253). -/
theorem annResult_alarm (onset cause : Nat) (hcat : s.ptCat n.val ≠ 0) (hflags : s.pev.pts[n].flags = 0) :
    Announced n 0x06 (s.setPt n fun p => { p with tUnack := s.pev.start })
      (annResult s { slot := n, ev := 3, onset := onset, cause := cause }) := by
  have hneed : (s.ptCat n.val != 0) = true := bne_iff_ne.mpr hcat
  simp only [annResult, hneed, hflags, true_and, if_true]
  exact annTrans_announced (by rw [State.setPt_pts_self, hflags]; decide) ..

end

/-- Settles O22: a command or a result that changes the point's flags is `Announced` by `annTrans`, and one that leaves flags
and cause as they are leaves the state. -/
theorem annunciationActsOnItsPoint : Obligations.AnnunciationActsOnItsPoint := by
  intro s n org
  refine ⟨fun hset hold hfault => ?_, fun _ hlate hfault => annAck_of_later hlate hfault, fun m h => ?_, fun h => ?_,
    fun onset cause hcat hflags => ?_⟩
  · obtain ⟨hput, -, -, hseq⟩ := annAck_clears hset hold hfault
    exact ⟨hput, hseq⟩
  · obtain ⟨hput, -, hend, hseq⟩ := annShelve_announced (org := org) m h
    exact ⟨by rw [hput, bit_flagPut _ (by decide)], hend.trans (by rw [shelvedUntil_point]), hseq⟩
  · obtain ⟨hput, -, -, hseq⟩ := annUnshelve_announced (org := org) h
    exact ⟨by rw [hput, bit_flagPut _ (by decide)], hseq⟩
  · obtain ⟨hput, hraised, -, hseq⟩ := annResult_alarm onset cause hcat hflags
    exact ⟨hput, hraised.trans (by rw [State.setPt_pts_self]), hseq⟩

end Sys2Proof.Machine
end

section
/-! Proofs about alarm and flood frames from below: how they enter the state table and the groups, and how they go up while
tokens last (R265, R306, R328, R331, R332). -/
namespace Sys2Proof.Machine

open Sys2Proof

/-! ### What the recipe alone decides -/

section
variable {s t : State} (h : t.rcp = s.rcp)
include h

theorem activeBank_congr : t.activeBank = s.activeBank := congrArg (fun r : Rcp => r.recipes[r.active].bank) h

theorem isManager_congr : t.isManager = s.isManager := by simp only [State.isManager, activeBank_congr h]

theorem isOwn_congr (a : Nat) : t.isOwn a = s.isOwn a := by simp only [State.isOwn, State.nodeNum, activeBank_congr h]

theorem allMembers_congr : allMembers t = allMembers s := by
  have hcfg : t.cfgNat = s.cfgNat := congrArg bankNat (activeBank_congr h)
  have hcount : t.grpCount = s.grpCount := by simp only [State.grpCount, hcfg]
  have hfield : t.grpField = s.grpField := by funext g off n; simp only [State.grpField, hcfg]
  have hgroup : grpMembers t = grpMembers s := by funext g; simp only [grpMembers, hcount, hfield, hcfg]
  simp only [allMembers, hgroup, hcount]

end

/-! ### A controller takes a frame (R306) -/

/-- A controller with a buffer completed. -/
def Can.completed (b result : Nat) (c : Can) : Can :=
  { c with ram := memPut c.ram (txOff b + 16) (BitVec.ofNat 8 result), txPend := c.txPend &&& ~~~(bufBit b),
           abortReq := c.abortReq &&& ~~~(bufBit b) }

section
variable {k : Fin 4} {s t : State}

theorem canEvent_can (k : Fin 4) (kind buf : Nat) (s : State) : (canEvent k kind buf s).can = s.can :=
  (canEvent_only k kind buf s).same .can rfl

theorem canComplete_can (k : Fin 4) (b result : Nat) (s : State) :
    (canComplete k b result s).can = (s.setCan k (Can.completed b result)).can := by
  unfold canComplete
  dsimp only
  split
  · exact canEvent_can k 6 b _
  · split
    · exact canEvent_can k 7 b _
    · rfl

theorem canComplete_can_self (k : Fin 4) (b result : Nat) (s : State) :
    (canComplete k b result s).can[k] = s.can[k].completed b result := by
  simp only [canComplete_can, State.setCan_can_self]

theorem canComplete_can_other {j : Fin 4} (h : j ≠ k) (b result : Nat) (s : State) :
    (canComplete k b result s).can[j] = s.can[j] := by
  simp only [canComplete_can, State.setCan_can_other _ _ _ _ h]

theorem canRequest_can_other {j : Fin 4} (h : j ≠ k) (b : Fin 32) (s : State) : (canRequest k s b).can[j] = s.can[j] := by
  unfold canRequest
  split
  · rfl
  · dsimp only
    split
    · exact (canComplete_can_other h _ _ _).trans (State.setCan_can_other _ _ _ _ h)
    · exact (State.setCan_can_other _ _ _ _ h).trans (State.setCan_can_other _ _ _ _ h)

theorem canSubmit_can_other {j : Fin 4} (h : j ≠ k) (f : OutFrame) (s : State) : (canSubmit k f s).can[j] = s.can[j] := by
  unfold canSubmit
  dsimp only
  split
  · rfl
  · split
    · rfl
    · exact (canRequest_can_other h _ _).trans (State.setCan_can_other _ _ _ _ h)

/-- What a controller makes of a request depends on itself, the recipe and the module's state. -/
theorem canRequest_can_congr (hcan : t.can[k] = s.can[k]) (hsys : t.sys = s.sys) (hrcp : t.rcp = s.rcp) (b : Fin 32) :
    (canRequest k t b).can[k] = (canRequest k s b).can[k] := by
  have hquiet : canQuiet t = canQuiet s := by rw [canQuiet, hsys, canQuiet]
  have hbad : canBadId t k b.val = canBadId s k b.val := by
    simp only [canBadId, State.nodeNum, State.activeBank, hcan, hrcp]
  unfold canRequest
  dsimp only
  rw [hcan, hquiet, hbad]
  split
  · exact hcan
  · split
    · rw [canComplete_can_self, canComplete_can_self, State.setCan_can_self, State.setCan_can_self, hcan]
    · simp only [State.setCan_can_self, hcan]

theorem canSubmit_can_congr (hcan : t.can[k] = s.can[k]) (hsys : t.sys = s.sys) (hrcp : t.rcp = s.rcp) (f : OutFrame) :
    (canSubmit k f t).can[k] = (canSubmit k f s).can[k] := by
  have hretry : t.netRetry = s.netRetry := by simp only [State.netRetry, State.cfgNat, State.activeBank, hrcp]
  unfold canSubmit
  dsimp only
  rw [hcan, hretry]
  split
  · exact hcan
  · cases s.can[k].freeBuf with
    | none => exact hcan
    | some b =>
      dsimp only
      apply canRequest_can_congr
      · rw [State.setCan_can_self, State.setCan_can_self, hcan]
      · rw [State.setCan_sys, State.setCan_sys, hsys]
      · rw [State.setCan_rcp, State.setCan_rcp, hrcp]

end

/-! ### The segment above (R319, R320, R322) -/

/-- Towards the segment above `t` stands as `s` does: what it sends there, and whether, is the same. -/
structure SameUplink (s t : State) : Prop where
  can0 : t.can[0] = s.can[0]
  can1 : t.can[1] = s.can[1]
  sys : t.sys = s.sys
  rcp : t.rcp = s.rcp
  lvn : t.lvn = s.lvn
  joined : t.imz.joined = s.imz.joined
  conflict : t.imz.conflict = s.imz.conflict

section
variable {s t u : State}

theorem SameUplink.refl (s : State) : SameUplink s s := ⟨rfl, rfl, rfl, rfl, rfl, rfl, rfl⟩

theorem SameUplink.trans (h : SameUplink s t) (k : SameUplink t u) : SameUplink s u where
  can0 := k.can0.trans h.can0
  can1 := k.can1.trans h.can1
  sys := k.sys.trans h.sys
  rcp := k.rcp.trans h.rcp
  lvn := k.lvn.trans h.lvn
  joined := k.joined.trans h.joined
  conflict := k.conflict.trans h.conflict

theorem SameUplink.setImz (h : SameUplink s t) {f : Imz → Imz} (hjoined : (f t.imz).joined = t.imz.joined)
    (hconflict : (f t.imz).conflict = t.imz.conflict) : SameUplink s (t.setImz f) where
  can0 := h.can0
  can1 := h.can1
  sys := h.sys
  rcp := h.rcp
  lvn := h.lvn
  joined := hjoined.trans h.joined
  conflict := hconflict.trans h.conflict

theorem SameUplink.speaksUp (h : SameUplink s t) : speaksUp t = speaksUp s := by
  simp only [Machine.speaksUp, imzOpen, imzLive, regionUp, State.bare, State.activeUnit, State.isPaired, State.netTop,
    State.cfgNat, State.activeBank, h.sys, h.rcp, h.lvn, h.joined, h.conflict]

theorem speaksUp_iff (s : State) : speaksUp s = true ↔ imzOpen s = true ∧ s.activeUnit = true ∧ s.netTop = false := by
  rw [speaksUp, Bool.and_eq_true, Bool.and_eq_true, Bool.not_eq_true', and_assoc]

/-- Both controllers above take a frame, each as its own state has it take it. -/
theorem SameUplink.tookUp (h : SameUplink s t) (htop : t.netTop = false) (f : OutFrame) : TookUp f s (imzUp f t) := by
  rw [imzUp, if_neg (Bool.eq_false_iff.mp htop)]
  have hfirst := canSubmit_only 0 f t
  constructor
  · exact (canSubmit_can_other (by decide) f _).trans (canSubmit_can_congr h.can0 h.sys h.rcp f)
  · exact canSubmit_can_congr ((canSubmit_can_other (by decide) f t).trans h.can1) ((hfirst.same .sys rfl).trans h.sys)
      ((hfirst.same .rcp rfl).trans h.rcp) f

theorem SameUplink.tookUp_of (h : SameUplink s t) {f : OutFrame} (htook : TookUp f t u) : TookUp f s u := by
  obtain ⟨h0, h1⟩ := htook
  exact ⟨h0.trans (canSubmit_can_congr h.can0 h.sys h.rcp f), h1.trans (canSubmit_can_congr h.can1 h.sys h.rcp f)⟩

end

/-! ### A frame that is heard (R309, R333) -/

/-- The state with other controllers. -/
def State.setCans (s : State) (v : Vector Can 4) : State := { s with can := v }

theorem imzTook_eq (cls typ : Nat) (f : ImzRx) (s : State) : imzTook cls typ f s = s.setCans (imzTook cls typ f s).can := by
  unfold imzTook
  dsimp only
  split <;> rfl

theorem fromBelow_iff (s : State) (f : ImzRx) : fromBelow s f = true ↔ 2 ≤ f.bus.val ∧ s.isManager = true := by
  rw [fromBelow, Bool.and_eq_true, decide_eq_true_eq]

theorem heard_iff (n : Nat) (f : ImzRx) (s : State) :
    heard n f s = true ↔ (imzLive s = true ∧ s.standby = false) ∧ f.data.length = n := by
  rw [heard, Bool.and_eq_true, Bool.and_eq_true, Bool.not_eq_true', beq_iff_eq]

/-- A frame from below clears NEWDAT on a controller below. -/
theorem imzTook_can_above {f : ImzRx} {j : Fin 4} (hbus : 2 ≤ f.bus.val) (hj : j.val < 2) (cls typ : Nat) (s : State) :
    (imzTook cls typ f s).can[j] = s.can[j] := by
  unfold imzTook
  dsimp only
  split
  · rfl
  · exact State.setCan_can_other _ _ _ _ (by rintro rfl; omega)

/-- A frame from below that is heard acts on a state in which the controllers below alone have changed. -/
theorem imzRx_heard {typ cls n : Nat} {f : ImzRx} {s : State} (hshape : typeShape typ = some (cls, n))
    (hheard : heard n f s = true) (hbelow : fromBelow s f = true) (act : State → State) :
    ∃ v, SameUplink s (s.setCans v) ∧ imzRx typ f act s = act (s.setCans v) := by
  obtain ⟨⟨hlive, hstandby⟩, hlen⟩ := (heard_iff n f s).mp hheard
  obtain ⟨hbus, -⟩ := (fromBelow_iff s f).mp hbelow
  refine ⟨(imzTook cls typ f s).can, ⟨imzTook_can_above (j := 0) hbus (by decide) cls typ s,
    imzTook_can_above (j := 1) hbus (by decide) cls typ s, rfl, rfl, rfl, rfl, rfl⟩, ?_⟩
  simp only [imzRx, hshape, hlive, hstandby, hlen, and_self, if_true]
  rw [← imzTook_eq]

/-! ### A member's record (R265) -/

theorem foldl_keeps {α β : Type} {g : State → α → State} (part : State → β) (h : ∀ u x, part (g u x) = part u)
    (l : List α) (s : State) : part (l.foldl g s) = part s := by
  induction l generalizing s with
  | nil => rfl
  | cons x l ih => exact (ih _).trans (h s x)

theorem grpUpdate_mems (unlocked : Nat → Bool) (s : State) (n : Nat) : (grpUpdate unlocked s n).grp.mems = s.grp.mems :=
  (congrArg GrpBlk.mems (grpUpdate_grp unlocked s n)).trans rfl

theorem grpUnsilence_mems (p : Nat → Bool) (s : State) : (grpUnsilence p s).grp.mems = s.grp.mems := by
  unfold grpUnsilence
  dsimp only
  rw [State.setAnn_grp]
  refine foldl_keeps (fun u => u.grp.mems) ?_ _ s
  intro u n
  rfl

theorem callStart_grp (v : MemView) (time : Nat) (noTime : Bool) (s : State) : (callStart v time noTime s).grp = s.grp :=
  (callStart_only v time noTime s).same .grp rfl

section
variable {s : State} {a : Nat}

/-- A remote member's record is the one put, where a report has arrived with it. -/
theorem grpRemote_mem {r : RemRec} (hown : s.isOwn a = false) (hmem : (allMembers s).contains a = true) (hrep : r.rep = true)
    (unlocked : Bool) (time : Option Nat) : (grpRemote a r unlocked time s).grp.mem a = r := by
  have hne : r ≠ {} := fun heq => Bool.false_ne_true ((congrArg RemRec.rep heq).symm.trans hrep)
  have hput : tblGet {} (tblPut {} s.grp.mems a r) a = r := by rw [tblPut, if_neg hne, tblGet_tblIns_self]
  have hguard : ¬ (s.isOwn a = true ∨ (allMembers s).contains a = false) := by simp only [hown, hmem]; decide
  unfold grpRemote
  rw [if_neg hguard]
  dsimp only
  rw [GrpBlk.mem, foldl_keeps (fun u => u.grp.mems) fun u n => grpUpdate_mems _ u n]
  split
  · rw [callStart_grp, grpUnsilence_mems]
    exact hput
  · exact hput

/-- The member of a transition stands in GRP's records as the entry leaves it. -/
def MemberTook (e : TrEntry) (t : State) : Prop :=
  (t.grp.mem e.addr).st = knownState e.after ∧ (t.grp.mem e.addr).cat = e.cat ∧ (t.grp.mem e.addr).rep = true

theorem grpTrans_mem {e : TrEntry} (hown : s.isOwn e.addr = false) (hmem : (allMembers s).contains e.addr = true)
    (onset time : Nat) : MemberTook e (grpTrans e onset time s) := by
  have hrec := fun r (h : RemRec.rep r = true) => grpRemote_mem hown hmem h e.unlocked (some time)
  rw [MemberTook, grpTrans, hrec _ rfl]
  exact ⟨rfl, rfl, rfl⟩

theorem grpPend_mem (hown : s.isOwn a = false) (hmem : (allMembers s).contains a = true) (cat onset : Nat) :
    ((grpPend a cat onset s).grp.mem a).st = 1 ∧
    ((s.grp.mem a).st ≠ 1 → ((grpPend a cat onset s).grp.mem a).prev = (s.grp.mem a).st) := by
  rw [grpPend, grpRemote_mem hown hmem rfl]
  exact ⟨rfl, fun h => if_neg h⟩

theorem grpRetract_mem (hown : s.isOwn a = false) (hmem : (allMembers s).contains a = true) {onset : Nat}
    (hpend : (s.grp.mem a).st = 1) (hsame : (s.grp.mem a).onset = onset) :
    ((grpRetract a onset s).grp.mem a).st = (s.grp.mem a).prev := by
  rw [grpRetract, if_pos ⟨hpend, hsame⟩, grpRemote_mem hown hmem rfl]

end

/-! ### Alarm frames upward (R331) -/

theorem imzUp_imz (f : OutFrame) (s : State) : (imzUp f s).imz = s.imz := (imzUp_only f s).same .imz rfl

theorem imzEvent_imz (kind : Nat) (node : Half) (s : State) : (imzEvent kind node s).imz = s.imz :=
  (imzEvent_only kind node s).same .imz rfl

section
variable {typ addr : Nat} {f : ImzRx} {onset : Ts} {s : State}

/-- A forwarded frame goes up, and notices of its point and onset are closed, or the one of its PENDING stands. -/
def forwardSend (typ : Nat) (f : ImzRx) (addr : Nat) (onset : Ts) (s : State) : State :=
  imzUp { id := frameId 1 typ 1 f.src, data := f.data } (s.setImz fun z =>
    { z with notices :=
        if typ = 0x11 then
          (z.notices.filter fun n => !n.isFor addr onset) ++ [{ addr := addr, onset := onset, won := true, sent := true }]
        else z.notices.filter fun n => !n.isFor addr onset })

theorem forwardSend_imz (typ : Nat) (f : ImzRx) (addr : Nat) (onset : Ts) (s : State) :
    (forwardSend typ f addr onset s).imz = { s.imz with notices := (forwardSend typ f addr onset s).imz.notices } := by
  simp only [forwardSend, imzUp_imz, State.setImz_imz]

theorem forwardSend_tookUp {t : State} (h : SameUplink s t) (htop : t.netTop = false) :
    TookUp { id := frameId 1 typ 1 f.src, data := f.data } s (forwardSend typ f addr onset t) :=
  (h.setImz rfl rfl).tookUp htop _

/-- Without a notice of its point and onset a transition passes free where it is an EMERGENCY one (R331). -/
theorem passesFree_of_no_notice (z : Imz) (g : AlmFrame) (h : (z.notices.all fun n => !n.isFor g.addr g.onset) = true) :
    passesFree z g = g.free := by
  have hnone : (z.notices.any fun n => n.isFor g.addr g.onset && n.sent) = false := by
    simp only [List.any_eq_false, List.all_eq_true, Bool.not_eq_true'] at h ⊢
    intro n hn
    simp [h n hn]
  rw [passesFree, hnone, Bool.and_false, Bool.or_false]

theorem forwardAlarm_of_speaksUp (hup : speaksUp s = true) (emergency : Bool) :
    forwardAlarm typ f addr onset emergency s =
      if passesFree s.imz { typ := typ, addr := addr, onset := onset, free := emergency, data := f.data } then
        forwardSend typ f addr onset s
      else if 0 < s.imz.tokens then forwardSend typ f addr onset (s.setImz fun z => { z with tokens := z.tokens - 1 })
      else suppress f.src s := by
  obtain ⟨hopen, hactive, htop⟩ := (speaksUp_iff s).mp hup
  simp only [forwardAlarm, hopen, hactive, htop, Bool.not_true, Bool.false_eq_true, or_self, if_false]
  rfl

theorem suppress_imz (node : Half) (s : State) : (suppress node s).imz.flood = true ∧
    (suppress node s).imz.suppTotal = satInc 0xFFFF s.imz.suppTotal ∧ (suppress node s).imz.table = s.imz.table := by
  unfold suppress
  dsimp only
  split
  · exact ⟨rfl, rfl, rfl⟩
  · rw [imzEvent_imz]
    exact ⟨rfl, rfl, rfl⟩

theorem forwardAlarm_table (hup : speaksUp s = true) (emergency : Bool) :
    (forwardAlarm typ f addr onset emergency s).imz.table = s.imz.table := by
  obtain ⟨-, -, htable⟩ := suppress_imz f.src s
  rw [forwardAlarm_of_speaksUp hup]
  split
  · rw [forwardSend_imz]
  · split
    · rw [forwardSend_imz, State.setImz_imz]
    · exact htable

end

/-! ### A transition from below (R265, R328, R331) -/

section
variable {f : ImzRx} {s : State}

theorem tableEntry_ne_zero (cause : Nat) (unack : Bool) (qual cat st : Nat) : tableEntry cause unack qual cat st ≠ 0 := by
  intro hzero
  have hnat := congrArg BitVec.toNat hzero
  rw [tableEntry, BitVec.toNat_ofNat] at hnat
  change _ = 0 at hnat
  split at hnat <;> omega

/-- A transition from below as REC, the state table and the groups have taken it; it has yet to go up. -/
def transTaken (f : ImzRx) (s : State) : State :=
  let e := entryOf f.data
  grpFrame e false f.src (tableSet e.addr (entryInTable e) (recSubtree e s))

theorem almTransRx_below (h : fromBelow s f = true) : almTransRx f false s =
    forwardAlarm 0x10 f (entryOf f.data).addr (entryOf f.data).onset (decide ((entryOf f.data).cat = 3)) (transTaken f s) :=
  if_pos h

/-- With room in its queue GRP takes a transition without touching what the network holds (R265). -/
theorem grpFrame_taken_only (e : TrEntry) (src : Half) (s : State) :
    Only [.evr, .ann, .grp, .call] s (grpFrame e false src s) :=
  Only.after (grpTrans_only _ _ _ _) rfl (Only.ite ((s.setCall_only _).mono rfl) (Only.refl _ s))

theorem tableSet_imz (e : Half) {a : Nat} (hmgr : s.isManager = true) (hslot : addrSlot a < 80) :
    (tableSet a e s).imz = { s.imz with table := tblPut 0 s.imz.table (tableKey a) e } :=
  congrArg State.imz (if_pos ⟨hmgr, hslot⟩)

theorem transTaken_imz (hbelow : fromBelow s f = true) (hslot : addrSlot (entryOf f.data).addr < 80) :
    (transTaken f s).imz = { s.imz with
      table := tblPut 0 s.imz.table (tableKey (entryOf f.data).addr) (entryInTable (entryOf f.data)) } := by
  obtain ⟨-, hmgr⟩ := (fromBelow_iff s f).mp hbelow
  have hrec := recSubtree_only (entryOf f.data) s
  have hmgr' : (recSubtree (entryOf f.data) s).isManager = true := (isManager_congr (hrec.same .rcp rfl)).trans hmgr
  have hgrp : (transTaken f s).imz = _ := (grpFrame_taken_only _ _ _).same .imz rfl
  rw [hgrp, tableSet_imz _ hmgr' hslot, hrec.same .imz rfl]

theorem transTaken_only (f : ImzRx) (s : State) : Only [.evr, .ann, .grp, .call, .imz, .recd] s (transTaken f s) :=
  Only.after (grpFrame_taken_only _ _ _) rfl (Only.after (tableSet_only _ _ _) rfl ((recSubtree_only _ s).mono rfl))

theorem transTaken_uplink (hbelow : fromBelow s f = true) (hslot : addrSlot (entryOf f.data).addr < 80) :
    SameUplink s (transTaken f s) := by
  have honly := transTaken_only f s
  have hcan : (transTaken f s).can = s.can := honly.same .can rfl
  have himz := transTaken_imz hbelow hslot
  exact ⟨by rw [hcan], by rw [hcan], honly.same .sys rfl, honly.same .rcp rfl, honly.same .lvn rfl, by rw [himz],
    by rw [himz]⟩

theorem grpFrame_taken_mem {e : TrEntry} (hown : s.isOwn e.addr = false) (hmem : (allMembers s).contains e.addr = true)
    (src : Half) : MemberTook e (grpFrame e false src s) := by
  rw [grpFrame, if_neg Bool.false_ne_true]
  split
  · exact grpTrans_mem (s := s.setCall _) hown hmem _ _
  · exact grpTrans_mem hown hmem _ _

theorem transTaken_mem (hown : s.isOwn (entryOf f.data).addr = false)
    (hmem : (allMembers s).contains (entryOf f.data).addr = true) : MemberTook (entryOf f.data) (transTaken f s) := by
  have hrcp : (tableSet (entryOf f.data).addr (entryInTable (entryOf f.data)) (recSubtree (entryOf f.data) s)).rcp = s.rcp :=
    ((tableSet_only _ _ _).same .rcp rfl).trans ((recSubtree_only _ s).same .rcp rfl)
  exact grpFrame_taken_mem ((isOwn_congr hrcp _).trans hown) (by rwa [allMembers_congr hrcp]) f.src

theorem entryInTable_ne_zero (e : TrEntry) : entryInTable e ≠ 0 := tableEntry_ne_zero _ _ _ _ _

end

section
variable {f : ImzRx} {s : State} (hbelow : fromBelow s f = true) (hslot : addrSlot (entryOf f.data).addr < 80)
  (hup : speaksUp s = true)
include hbelow hslot hup

theorem almTransRx_table :
    tblGet 0 (almTransRx f false s).imz.table (tableKey (entryOf f.data).addr) = entryInTable (entryOf f.data) := by
  have hup' := (transTaken_uplink hbelow hslot).speaksUp.trans hup
  rw [almTransRx_below hbelow, forwardAlarm_table hup', transTaken_imz hbelow hslot]
  dsimp only
  rw [tblPut, if_neg (entryInTable_ne_zero _), tblGet_tblIns_self]

variable (hnone : (s.imz.notices.all fun n => !n.isFor (entryOf f.data).addr (entryOf f.data).onset) = true)
include hnone

/-- A transition goes up free where it is an EMERGENCY one, else with a token, else not at all (R331). -/
theorem almTransRx_eq : almTransRx f false s =
    if (entryOf f.data).cat = 3 then forwardSend 0x10 f (entryOf f.data).addr (entryOf f.data).onset (transTaken f s)
    else if 0 < s.imz.tokens then forwardSend 0x10 f (entryOf f.data).addr (entryOf f.data).onset
      ((transTaken f s).setImz fun z => { z with tokens := z.tokens - 1 })
    else suppress f.src (transTaken f s) := by
  have himz := transTaken_imz hbelow hslot
  have hup' := (transTaken_uplink hbelow hslot).speaksUp.trans hup
  rw [almTransRx_below hbelow, forwardAlarm_of_speaksUp hup', passesFree_of_no_notice _ _ (by rw [himz]; exact hnone), himz]
  simp only [decide_eq_true_eq]

theorem almTransRx_emergency (hcat : (entryOf f.data).cat = 3) : (almTransRx f false s).imz.tokens = s.imz.tokens ∧
    TookUp { id := frameId 1 0x10 1 f.src, data := f.data } s (almTransRx f false s) := by
  have hlink := transTaken_uplink hbelow hslot
  obtain ⟨-, -, htop⟩ := (speaksUp_iff _).mp (hlink.speaksUp.trans hup)
  rw [almTransRx_eq hbelow hslot hup hnone, if_pos hcat]
  exact ⟨by rw [forwardSend_imz, transTaken_imz hbelow hslot], forwardSend_tookUp hlink htop⟩

theorem almTransRx_token (hcat : (entryOf f.data).cat ≠ 3) (htok : 0 < s.imz.tokens) :
    (almTransRx f false s).imz.tokens = s.imz.tokens - 1 ∧
    TookUp { id := frameId 1 0x10 1 f.src, data := f.data } s (almTransRx f false s) := by
  have hlink := transTaken_uplink hbelow hslot
  obtain ⟨-, -, htop⟩ := (speaksUp_iff _).mp (hlink.speaksUp.trans hup)
  rw [almTransRx_eq hbelow hslot hup hnone, if_neg hcat, if_pos htok]
  exact ⟨by rw [forwardSend_imz, State.setImz_imz, transTaken_imz hbelow hslot],
    forwardSend_tookUp (hlink.setImz rfl rfl) htop⟩

theorem almTransRx_suppressed (hcat : (entryOf f.data).cat ≠ 3) (htok : s.imz.tokens = 0) :
    (almTransRx f false s).imz.flood = true ∧ (almTransRx f false s).imz.suppTotal = satInc 0xFFFF s.imz.suppTotal ∧
    (almTransRx f false s).can[0] = s.can[0] ∧ (almTransRx f false s).can[1] = s.can[1] := by
  have hlink := transTaken_uplink hbelow hslot
  obtain ⟨hflood, htotal, -⟩ := suppress_imz f.src (transTaken f s)
  have hcan : (suppress f.src (transTaken f s)).can = (transTaken f s).can := (suppress_only _ _).same .can rfl
  rw [almTransRx_eq hbelow hslot hup hnone, if_neg hcat, if_neg (Nat.not_lt.mpr (Nat.le_of_eq htok))]
  exact ⟨hflood, by rw [htotal, transTaken_imz hbelow hslot], by rw [hcan, hlink.can0], by rw [hcan, hlink.can1]⟩

end

section
variable {f : ImzRx} {s : State}

theorem almTransRx_mem (hbelow : fromBelow s f = true) (hown : s.isOwn (entryOf f.data).addr = false)
    (hmem : (allMembers s).contains (entryOf f.data).addr = true) : MemberTook (entryOf f.data) (almTransRx f false s) := by
  rw [MemberTook, almTransRx_below hbelow, (forwardAlarm_only _ _ _ _ _ _).same .grp rfl]
  exact transTaken_mem hown hmem

theorem runs_almTransReceived {e : TrEntry} (hbelow : fromBelow s f = true) (hheard : heard 32 f s = true)
    (he : e = entryOf f.data) (hup : speaksUp s = true) (hslot : addrSlot e.addr < 80)
    (hnone : (s.imz.notices.all fun n => !n.isFor e.addr e.onset) = true) : Runs (.almTransReceived f false) s fun t =>
      tblGet 0 t.imz.table (tableKey e.addr) = entryInTable e ∧
      (s.isOwn e.addr = false → (allMembers s).contains e.addr = true →
        (t.grp.mem e.addr).st = knownState e.after ∧ (t.grp.mem e.addr).cat = e.cat ∧ (t.grp.mem e.addr).rep = true) ∧
      (e.cat = 3 → t.imz.tokens = s.imz.tokens ∧ TookUp { id := frameId 1 0x10 1 f.src, data := f.data } s t) ∧
      (e.cat ≠ 3 → 0 < s.imz.tokens → t.imz.tokens = s.imz.tokens - 1 ∧
        TookUp { id := frameId 1 0x10 1 f.src, data := f.data } s t) ∧
      (e.cat ≠ 3 → s.imz.tokens = 0 → t.imz.flood = true ∧ t.imz.suppTotal = satInc 0xFFFF s.imz.suppTotal ∧
        t.can[0] = s.can[0] ∧ t.can[1] = s.can[1]) := by
  subst he
  obtain ⟨v, hv, htaken⟩ := imzRx_heard (typ := 0x10) rfl hheard hbelow (almTransRx f false)
  have hbelow' : fromBelow (s.setCans v) f = true := hbelow
  have hup' : speaksUp (s.setCans v) = true := hv.speaksUp.trans hup
  refine .of_next (congrArg Host.Outcome.next htaken) ⟨?_, fun hown hmem => ?_,
    fun hcat => ?_, fun hcat htok => ?_, fun hcat htok => ?_⟩
  · exact almTransRx_table hbelow' hslot hup'
  · exact almTransRx_mem hbelow' ((isOwn_congr hv.rcp _).trans hown) (by rwa [allMembers_congr hv.rcp])
  · obtain ⟨htokens, htook⟩ := almTransRx_emergency hbelow' hslot hup' hnone hcat
    exact ⟨htokens, hv.tookUp_of htook⟩
  · obtain ⟨htokens, htook⟩ := almTransRx_token hbelow' hslot hup' hnone hcat htok
    exact ⟨htokens, hv.tookUp_of htook⟩
  · obtain ⟨hflood, htotal, hcan0, hcan1⟩ := almTransRx_suppressed hbelow' hslot hup' hnone hcat htok
    exact ⟨hflood, htotal, hcan0.trans hv.can0, hcan1.trans hv.can1⟩

/-! ### Notices from below (R265) -/

theorem noticeRx_grp (typ : Nat) (hbelow : fromBelow s f = true) : (noticeRx typ f false s).grp =
    (if typ = 0x11 then grpPend (noticeAddr f) (dataNat f.data 0 4 / 2 ^ 27 % 4) (stampTicks (noticeOnset f) s.now) s
      else grpRetract (noticeAddr f) (stampTicks (noticeOnset f) s.now) s).grp := by
  rw [noticeRx, if_pos hbelow]
  exact (forwardAlarm_only _ _ _ _ _ _).same .grp rfl

theorem runs_almPendingReceived (hbelow : fromBelow s f = true) (hheard : heard 24 f s = true)
    (hown : s.isOwn (noticeAddr f) = false) (hmem : (allMembers s).contains (noticeAddr f) = true) :
    Runs (.almPendingReceived f false) s fun t => (t.grp.mem (noticeAddr f)).st = 1 ∧
      ((s.grp.mem (noticeAddr f)).st ≠ 1 → (t.grp.mem (noticeAddr f)).prev = (s.grp.mem (noticeAddr f)).st) := by
  obtain ⟨v, hv, htaken⟩ := imzRx_heard (typ := 0x11) rfl hheard hbelow (noticeRx 0x11 f false)
  refine .of_next (congrArg Host.Outcome.next htaken) ?_
  rw [noticeRx_grp 0x11 (s := s.setCans v) hbelow, if_pos rfl]
  exact grpPend_mem ((isOwn_congr hv.rcp _).trans hown) (by rwa [allMembers_congr hv.rcp]) _ _

theorem runs_almRetractReceived (hbelow : fromBelow s f = true) (hheard : heard 24 f s = true)
    (hown : s.isOwn (noticeAddr f) = false) (hmem : (allMembers s).contains (noticeAddr f) = true)
    (hpend : (s.grp.mem (noticeAddr f)).st = 1) (hvalid : stampValid (noticeOnset f) = true)
    (hsame : (s.grp.mem (noticeAddr f)).onset = ticksOf (noticeOnset f)) :
    Runs (.almRetractReceived f false) s fun t => (t.grp.mem (noticeAddr f)).st = (s.grp.mem (noticeAddr f)).prev := by
  obtain ⟨v, hv, htaken⟩ := imzRx_heard (typ := 0x12) rfl hheard hbelow (noticeRx 0x12 f false)
  refine .of_next (congrArg Host.Outcome.next htaken) ?_
  rw [noticeRx_grp 0x12 (s := s.setCans v) hbelow, if_neg (by decide), stampTicks, if_pos hvalid]
  exact grpRetract_mem ((isOwn_congr hv.rcp _).trans hown) (by rwa [allMembers_congr hv.rcp]) hpend hsame

/-! ### Tokens (R331) -/

/-- Nothing leaves the queue while the manager is lost or where nothing waits. -/
theorem imzDrain_of_idle (h : s.imz.mgrLost = true ∨ s.imz.queue = []) : imzDrain s = s := by
  rw [imzDrain]
  split
  case isFalse => rfl
  case isTrue hgo =>
    obtain ⟨-, -, hmgr⟩ := hgo
    have hnil : s.imz.queue = [] := h.resolve_left (Bool.eq_false_iff.mp hmgr)
    have hsame : { s.imz with queue := [] } = s.imz := by rw [← hnil]
    rw [hnil, drainList, State.setImz, hsame]

theorem runs_almFrameRelease (hjoined : s.imz.joined = true) (hidle : s.imz.mgrLost = true ∨ s.imz.queue = []) :
    Runs .almFrameRelease s fun t =>
      t.imz = { s.imz with tokens := min s.netBurst (s.imz.tokens + 1) } ∧ Only [.imz] s t := by
  have hdrain := imzDrain_of_idle (s := s.setImz fun z => { z with tokens := min s.netBurst (z.tokens + 1) }) hidle
  refine .of_guard rfl hjoined ?_
  rw [hdrain]
  exact ⟨rfl, s.setImz_only _⟩

/-! ### Flood digests (R332) -/

theorem inElevens_short {l : List (Nat × Nat)} (hpos : 0 < l.length) (hlen : l.length ≤ 11) : inElevens l.length l = [l] := by
  obtain ⟨x, xs, rfl⟩ := List.exists_cons_of_length_pos hpos
  have hrest : ∀ k, inElevens k [] = [] := fun k => by cases k <;> rfl
  rw [List.length_cons, inElevens, if_neg (by simp), List.take_of_length_le hlen, List.drop_of_length_le hlen, hrest]

theorem runs_floodDigestSend (hflood : s.imz.flood = true) (hup : speaksUp s = true) (hmgr : s.isManager = true)
    (hpos : 0 < s.imz.suppNodes.length) (hlen : s.imz.suppNodes.length ≤ 11) : Runs .floodDigestSend s fun t =>
      TookUp { id := frameId 1 0x13 1 s.nodeNum, data := floodBytes s s.imz.suppNodes } s t ∧ Only [.can, .evr] s t := by
  obtain ⟨hopen, hactive, htop⟩ := (speaksUp_iff s).mp hup
  refine .of_next rfl ⟨?_, (floodSend_only s).mono rfl⟩
  rw [floodSend, if_pos ⟨hflood, hmgr⟩, inElevens_short hpos hlen, List.foldl_cons, List.foldl_nil, imzSendUp,
    if_pos ⟨hopen, hactive⟩]
  exact (SameUplink.refl s).tookUp htop _

theorem runs_floodDigestReceived {n c : Nat} (hbelow : fromBelow s f = true) (hheard : heard 64 f s = true)
    (hentries : floodEntries f = [(n, c)]) : Runs (.floodDigestReceived f) s fun t =>
      t.imz.flood = true ∧ t.imz.suppTotal = satAdd 0xFFFF s.imz.suppTotal c ∧
      tblGet 0 t.imz.suppNodes n = satAdd 0xFFFF (tblGet 0 s.imz.suppNodes n) c := by
  obtain ⟨v, -, htaken⟩ := imzRx_heard (typ := 0x13) rfl hheard hbelow (floodRx f)
  refine .of_next (congrArg Host.Outcome.next htaken) ?_
  have hgrp : ∀ node u, (grpIncomplete node true u).imz = u.imz := fun node u => (grpIncomplete_only node true u).same .imz rfl
  rw [floodRx, if_pos (show fromBelow (s.setCans v) f = true from hbelow), hentries, List.foldl_cons, List.foldl_nil]
  dsimp only
  rw [hgrp]
  split
  · exact ⟨rfl, rfl, tblGet_tblIns_self _ _ _ _⟩
  · rw [imzEvent_imz]
    exact ⟨rfl, rfl, tblGet_tblIns_self _ _ _ _⟩

/-! ### Requests after a flood (R329, R332) -/

theorem imzStateReq_imz (node : Half) (s : State) : ∃ c, (imzStateReq node s).imz =
    { s.imz with nextTag := s.imz.nextTag + 1, sent := s.imz.sent ++ [c] } :=
  ⟨_, (imzToward_only _ _ _ _ _).same .imz rfl⟩

/-- Each node asked gets a command that awaits its answer; nothing else of the network's state changes. -/
theorem imzStateReqs_imz (l : List Nat) (s : State) : ∃ tag sent,
    (l.foldl (fun a n => imzStateReq (BitVec.ofNat 16 n) a) s).imz = { s.imz with nextTag := tag, sent := sent } ∧
    sent.length = s.imz.sent.length + l.length := by
  induction l generalizing s with
  | nil => exact ⟨_, _, rfl, rfl⟩
  | cons n l ih =>
    obtain ⟨tag, sent, himz, hlen⟩ := ih (imzStateReq (BitVec.ofNat 16 n) s)
    obtain ⟨c, hreq⟩ := imzStateReq_imz (BitVec.ofNat 16 n) s
    rw [hreq] at himz hlen
    refine ⟨tag, sent, himz, hlen.trans ?_⟩
    rw [List.length_append, List.length_singleton, List.length_cons]
    omega

/-- Up to four of the listed nodes are asked (R332). -/
theorem floodAsk_imz (s : State) : ∃ tag sent,
    (floodAsk s).imz = { s.imz with askList := s.imz.askList.drop 4, nextTag := tag, sent := sent } ∧
    sent.length = s.imz.sent.length + min 4 s.imz.askList.length := by
  obtain ⟨tag, sent, himz, hlen⟩ := imzStateReqs_imz (s.imz.askList.take 4)
    (s.setImz fun z => { z with askList := z.askList.drop 4 })
  exact ⟨tag, sent, himz, by rw [hlen, List.length_take]; rfl⟩

theorem runs_floodStateReqPace (s : State) : Runs .floodStateReqPace s fun t => t.imz.askList = s.imz.askList.drop 4 ∧
    t.imz.sent.length = s.imz.sent.length + min 4 s.imz.askList.length ∧ Only [.can, .evr, .imz] s t := by
  obtain ⟨tag, sent, himz, hlen⟩ := floodAsk_imz s
  refine .of_next rfl ⟨?_, ?_, (floodAsk_only s).mono rfl⟩
  · rw [himz]
  · rw [himz, ← hlen]

theorem runs_floodEnd (hflood : s.imz.flood = true) (hfull : s.netBurst ≤ s.imz.tokens) : Runs .floodEnd s fun t =>
    t.imz.flood = false ∧ t.imz.tokens = s.imz.tokens ∧ t.imz.suppNodes = [] ∧ t.imz.suppTotal = 0 ∧
    t.imz.askList = (s.imz.askList ++ s.imz.suppNodes.map (·.1)).drop 4 ∧ Only [.can, .evr, .imz] s t := by
  refine .of_guard rfl ⟨hflood, hfull⟩ ?_
  obtain ⟨tag, sent, himz, -⟩ := floodAsk_imz (imzEvent 8 s.nodeNum (s.setImz fun z =>
    { z with flood := false, askList := z.askList ++ z.suppNodes.map (·.1), suppNodes := [], suppTotal := 0 }))
  rw [himz, imzEvent_imz]
  exact ⟨rfl, rfl, rfl, rfl, rfl,
    Only.after (floodAsk_only _) rfl (Only.after (imzEvent_only _ _ _) rfl ((s.setImz_only _).mono rfl))⟩

end

/-- Settles O38: a transition goes up by `almTransRx_eq`, the notices change the member's record by `grpPend_mem` and
`grpRetract_mem`, and what a flood asks of its nodes changes the tags and the sent commands alone. -/
theorem alarmFramesReachGroupsAndGoUp : Obligations.AlarmFramesReachGroupsAndGoUp := fun _ =>
  ⟨fun _ _ hbelow hheard he hup hslot hnone => runs_almTransReceived hbelow hheard he hup hslot hnone,
    fun _ hbelow hheard hown hmem => ⟨runs_almPendingReceived hbelow hheard hown hmem,
      runs_almRetractReceived hbelow hheard hown hmem⟩,
    runs_almFrameRelease, runs_floodDigestSend, fun _ _ _ => runs_floodDigestReceived, runs_floodEnd,
    fun _ => runs_floodStateReqPace _⟩

end Sys2Proof.Machine
end

section
/-! Proofs about the event router: records, claims, ends of interrupt, moderation, and the writes of enables, pending bits,
targets and HOLD (R454, R456 to R461, R464). -/
namespace Sys2Proof.Machine

open Sys2Proof

/-! ### One source or one host changed -/

section
variable (e : Evr)

theorem Evr.setSrc_self (n : Fin 512) (f : EvrSrc → EvrSrc) : (e.setSrc n f).srcs[n] = f e.srcs[n] :=
  Vector.getElem_set_self n.isLt

theorem Evr.setSrc_other {n m : Fin 512} (h : m ≠ n) (f : EvrSrc → EvrSrc) : (e.setSrc n f).srcs[m] = e.srcs[m] :=
  Vector.getElem_set_ne n.isLt m.isLt fun heq => h (Fin.ext heq.symm)

theorem Evr.setHost_self (h : Fin 2) (f : EvrHost → EvrHost) : (e.setHost h f).hosts[h] = f e.hosts[h] :=
  Vector.getElem_set_self h.isLt

theorem Evr.setHost_other {h g : Fin 2} (hne : g ≠ h) (f : EvrHost → EvrHost) : (e.setHost h f).hosts[g] = e.hosts[g] :=
  Vector.getElem_set_ne h.isLt g.isLt fun heq => hne (Fin.ext heq.symm)

theorem Evr.setHost_of_fixed {h : Fin 2} {f : EvrHost → EvrHost} (hf : f e.hosts[h] = e.hosts[h]) : e.setHost h f = e := by
  rw [Evr.setHost, hf]
  simp only [Fin.getElem_fin, Vector.set_getElem_self]

end

/-! ### Records (R458, R459, R464) -/

section
variable (h : Fin 2) (pri : Nat) (s : State)

/-- Moderation changes nothing of the router but the host's window. -/
theorem moderate_evr : ∃ w p, (moderate h pri s).evr = s.evr.setHost h fun k => { k with window := w, winPri := p } := by
  unfold moderate
  split
  · exact ⟨s.evr.hosts[h].window, s.evr.hosts[h].winPri, (s.evr.setHost_of_fixed rfl).symm⟩
  · exact ⟨_, _, (apply_ite State.evr _ _ _).trans (ite_self _)⟩

variable {h s} {n : Fin 512}

/-- The router with the record of a source entered in a host's ring, and the source drained. -/
def Evr.recorded (e : Evr) (h : Fin 2) (n : Fin 512) : Evr :=
  (e.setSrc n EvrSrc.drained).setHost h fun k => k.enter (recordOf n.val e.srcs[n])

theorem evrRecordWrite_eq (hup : evrUp s = true) (hfree : s.evr.hosts[h].slotBusy s.evr.hosts[h].write = false)
    (hnext : nextSource s.evr h = some n) :
    evrRecordWrite h s = moderate h s.evr.srcs[n].pri.toNat { s with evr := s.evr.recorded h n } := by
  unfold evrRecordWrite
  rw [hup, hfree, hnext]
  rfl

/-- Where it may, EVR_RECORD_WRITE enters the record of the next source in the host's ring. -/
theorem runs_evrRecordWrite (hup : evrUp s = true) (hfree : s.evr.hosts[h].slotBusy s.evr.hosts[h].write = false)
    (hnext : nextSource s.evr h = some n) : Runs (.evrRecordWrite h) s fun t =>
      t.evr.hosts[h].ring = tblPut {} s.evr.hosts[h].ring s.evr.hosts[h].write (recordOf n.val s.evr.srcs[n]) ∧
      t.evr.hosts[h].unclaimed = s.evr.hosts[h].unclaimed ++ [s.evr.hosts[h].write] ∧
      t.evr.hosts[h].write = (s.evr.hosts[h].write + 1) % 1024 ∧ t.evr.srcs[n] = EvrSrc.drained s.evr.srcs[n] ∧
      t.evr.hosts[1 - h] = s.evr.hosts[1 - h] ∧ ∀ m : Fin 512, m ≠ n → t.evr.srcs[m] = s.evr.srcs[m] := by
  refine .of_next (u := moderate h s.evr.srcs[n].pri.toNat { s with evr := s.evr.recorded h n })
    (congrArg Host.Outcome.next (evrRecordWrite_eq hup hfree hnext)) ?_
  obtain ⟨w, p, hmod⟩ := moderate_evr h s.evr.srcs[n].pri.toNat { s with evr := s.evr.recorded h n }
  have hother : (1 - h) ≠ h := feed_other_ne h
  have hhost : (s.evr.recorded h n).hosts[h] = s.evr.hosts[h].enter (recordOf n.val s.evr.srcs[n]) := Evr.setHost_self _ h _
  rw [hmod, Evr.setHost_self, hhost]
  refine ⟨rfl, rfl, rfl, Evr.setSrc_self _ n _, ?_, fun m hm => Evr.setSrc_other _ hm _⟩
  exact (Evr.setHost_other _ hother _).trans (Evr.setHost_other _ hother _)

end

/-- Settles O24: the record enters by `Evr.recorded`, and moderation changes the host's window alone. -/
theorem eventRouterWritesARecord : Obligations.EventRouterWritesARecord :=
  fun _ _ _ => runs_evrRecordWrite

/-! ### Claims and ends of interrupt (R452, R460, R461, R464) -/

section
variable {h : Fin 2} {s : State}

/-- The router after the line has settled: only the host's window may have changed. -/
theorem settleLine_evr (h : Fin 2) (s : State) : ∃ w, (settleLine h s).evr = s.evr.setHost h fun k => { k with window := w } := by
  unfold settleLine
  split
  · exact ⟨none, rfl⟩
  · exact ⟨s.evr.hosts[h].window, (s.evr.setHost_of_fixed rfl).symm⟩

theorem clearIdle_idle (h : Fin 2) (s : State) : (clearIdle h s).hp[h].idle = false := by
  simp only [clearIdle, Fin.getElem_fin, Vector.getElem_set_self]

theorem evrClaim_hp (h : Fin 2) (s : State) : (evrClaim h s).2.hp = s.hp := (evrClaim_only h s).same .hp rfl

/-- An answered claim reads the claim register of a state in which the idle doorbell has ended. -/
theorem Runs.of_evrClaim {P : State → Prop} (hup : evrUp s = true) (hP : P (evrClaim h (clearIdle h s)).2) :
    Runs (.evrClaim h) s P := .of_guard rfl hup hP

theorem evrClaim_idle (h : Fin 2) (s : State) : (evrClaim h (clearIdle h s)).2.hp[h].idle = false := by
  rw [evrClaim_hp, clearIdle_idle]

/-- The state with a record taken from a host's ring: `f` says what else the host keeps of it. -/
def claimTaken (h : Fin 2) (f : EvrHost → EvrHost) (s : State) : State := settleLine h { s with evr := s.evr.setHost h f }

theorem claimTaken_evr (h : Fin 2) (f : EvrHost → EvrHost) (s : State) :
    ∃ w, (claimTaken h f s).evr.hosts[h] = { f s.evr.hosts[h] with window := w } ∧ (claimTaken h f s).evr.hold = s.evr.hold := by
  obtain ⟨w, hw⟩ := settleLine_evr h { s with evr := s.evr.setHost h f }
  refine ⟨w, ?_⟩
  rw [claimTaken, hw, Evr.setHost_self, Evr.setHost_self]
  exact ⟨rfl, rfl⟩

section
variable {i : Nat} {rest : List Nat} (hrec : s.evr.hosts[h].unclaimed = i :: rest) (hroom : s.evr.hosts[h].stack.length < 8)
include hrec hroom

/-- With room on the stack a claim of a withdrawn record only removes it, and any other claim opens at the record's priority
or the running one. -/
theorem evrClaim_state {r : RingRec} (hr : tblGet ({} : RingRec) s.evr.hosts[h].ring i = r) :
    (evrClaim h s).2 = if r.withdrawn then claimTaken h (fun k => { k with unclaimed := rest, claims := k.claims + 1, lastClaim := claimWord s.evr.hosts[h] i r.pri 0x3FF, spurious := satInc 255 k.spurious }) s
      else claimTaken h (fun k => { k with unclaimed := rest, claims := k.claims + 1, lastClaim := claimWord s.evr.hosts[h] i r.pri r.src, stack := (max (s.evr.hosts[h].running.getD 0) r.pri, i) :: k.stack }) s := by
  unfold evrClaim
  dsimp only
  rw [hrec]
  dsimp only
  rw [if_neg (Nat.not_le.mpr hroom), hr]
  split
  · rfl
  · cases s.evr.hosts[h].running with
    | none => rw [Option.getD_none, Nat.zero_max]; rfl
    | some q => rfl

theorem evrClaim_taken : (evrClaim h s).2.evr.hosts[h].unclaimed = rest ∧ (evrClaim h s).2.evr.hold = s.evr.hold := by
  rw [evrClaim_state hrec hroom rfl]
  split
  · obtain ⟨w, hhost, hhold⟩ := claimTaken_evr h _ s
    rw [hhost]
    exact ⟨rfl, hhold⟩
  · obtain ⟨w, hhost, hhold⟩ := claimTaken_evr h _ s
    rw [hhost]
    exact ⟨rfl, hhold⟩

theorem evrClaim_standing {r : RingRec} (hr : tblGet ({} : RingRec) s.evr.hosts[h].ring i = r) (hstands : r.withdrawn = false) :
    (evrClaim h s).2.evr.hosts[h].stack = (max (s.evr.hosts[h].running.getD 0) r.pri, i) :: s.evr.hosts[h].stack ∧
    (evrClaim h s).2.evr.hosts[h].lastClaim = claimWord s.evr.hosts[h] i r.pri r.src := by
  rw [evrClaim_state hrec hroom hr, if_neg (Bool.eq_false_iff.mp hstands)]
  obtain ⟨w, hhost, -⟩ := claimTaken_evr h _ s
  rw [hhost]
  exact ⟨rfl, rfl⟩

end

/-- With nothing unclaimed a claim only counts. -/
theorem evrClaim_empty (hnone : s.evr.hosts[h].unclaimed = []) : (evrClaim h s).2 = { s with evr := s.evr.setHost h fun k => { k with spurious := satInc 255 k.spurious, stackFull := if 8 ≤ k.stack.length then satInc 255 k.stackFull else k.stackFull } } := by
  unfold evrClaim
  dsimp only
  rw [hnone]

end

/-- Settles O25: a claim changes the host's window beside its own fields (`settleLine_evr`), an end of interrupt the stack
alone. -/
theorem eventRouterClaimsAndEnds : Obligations.EventRouterClaimsAndEnds := by
  refine ⟨fun s h i rest hup hrec hroom hstands => ?_, fun s h hup hnone => ?_, fun s h p l hup hstack => ?_,
    fun s h hup hempty => ?_, fun s h hup hwin hun => ?_⟩
  · obtain ⟨hrest, -⟩ := evrClaim_taken (s := clearIdle h s) hrec hroom
    obtain ⟨hstack, hword⟩ := evrClaim_standing (s := clearIdle h s) hrec hroom rfl hstands
    exact .of_evrClaim hup ⟨hrest, evrClaim_idle h s, hstack, hword⟩
  · have hcount := evrClaim_empty (s := clearIdle h s) hnone
    refine .of_evrClaim hup ⟨?_, ?_, evrClaim_idle h s⟩
    · rw [hcount, Evr.setHost_self]
      rfl
    · rw [hcount, Evr.setHost_self]
      rfl
  · refine .of_guard rfl hup ?_
    rw [evrEoi, Evr.setHost_self, hstack]
    exact ⟨rfl, rfl⟩
  · refine .of_guard rfl hup ?_
    rw [evrEoi, Evr.setHost_self, hempty]
    exact ⟨rfl, rfl⟩
  · refine .of_guard rfl (by simp only [hup, hwin, hun, Bool.not_false, Bool.and_self]) ⟨?_, rfl⟩
    exact Vector.getElem_set_self h.isLt

/-! ### Enables, pending bits, targets and HOLD (R104, R454, R456, R457) -/

section
variable {s : State}

theorem Evr.onMask_srcs (e : Evr) (n : Fin 16) (mask : Word) (f : EvrSrc → EvrSrc) (m : Fin 512) :
    (e.onMask n mask f).srcs[m] = if inMask n mask m.val = true then f e.srcs[m] else e.srcs[m] := by
  simp only [Evr.onMask, inMask, Fin.getElem_fin, Vector.getElem_mapFinIdx, Bool.and_eq_true, Bool.not_eq_true',
    decide_eq_true_eq, and_assoc]

theorem evrEnSet_evr (w : Source) (n : Fin 16) (mask : Word) (s : State) : (evrEnSet w n mask s).evr =
    s.evr.onMask n mask fun x => if targetUnused s x then x else { x with en := true } := by
  unfold evrEnSet
  dsimp only
  split <;> rfl

/-- A masked write acts on each source of its word whose bit is 1, and on no other. -/
theorem Runs.of_masked {x : Instr} {u : State} {m : Fin 512} {p : Bool} {a b : EvrSrc}
    (hx : exec x s = .next (if evrUp s = true then u else s)) (hup : evrUp s = true)
    (hsrc : u.evr.srcs[m] = if p = true then a else b) :
    (p = true → Runs x s fun t => t.evr.srcs[m] = a) ∧ (p = false → Runs x s fun t => t.evr.srcs[m] = b) :=
  ⟨fun hp => .of_guard hx hup (hsrc.trans (if_pos hp)),
    fun hp => .of_guard hx hup (hsrc.trans (if_neg (Bool.eq_false_iff.mp hp)))⟩

theorem not_eligible_of_hold {e : Evr} (hold : e.hold = true) (h : Fin 2) (n : Fin 512) : eligible e h n = false := by
  simp only [eligible, hold, Bool.not_true, Bool.and_false, Bool.false_and]

theorem nextSource_of_hold {e : Evr} (hold : e.hold = true) (h : Fin 2) : nextSource e h = none := by
  simp only [nextSource, not_eligible_of_hold hold, Bool.false_eq_true, if_false]
  exact List.foldl_fixed _

theorem evrRecordWrite_of_hold (hold : s.evr.hold = true) (h : Fin 2) : evrRecordWrite h s = s := by
  unfold evrRecordWrite
  rw [nextSource_of_hold hold]
  exact ite_self s

theorem raise_evr {n : Fin 512} (hn : srcReserved n.val = false) (w : Word) (s : State) :
    (raise n.val w s).evr = s.evr.setSrc n fun x => x.occur w s.stamp := by
  have hreal : ¬ (56 ≤ n.val ∧ n.val ≤ 63) := of_decide_eq_false hn
  rw [raise, raiseAt, dif_pos n.isLt, if_neg hreal]

/-- A change of target that a recipe could give, of a source without an unclaimed record. -/
theorem runs_evrTargetChange (hup : evrUp s = true) {src : BitVec 9} {g : Fin 2} (hreal : srcReserved src.toNat = false)
    (hok : targetRefused s src.toFin g = false) (hnew : s.evr.srcs[src.toFin].target ≠ g)
    (hnone : unclaimedCount s.evr.hosts[s.evr.srcs[src.toFin].target] src.toNat = none) :
    Runs (.evrTargetChange src g) s fun t =>
      t.evr.srcs[src.toFin] = { s.evr.srcs[src.toFin] with target := g } ∧ t.evr.hosts = s.evr.hosts := by
  have hchange : evrTargetChange src.toFin g s =
      { s with evr := s.evr.setSrc src.toFin fun x => { x with target := g } } := by
    have hnone' : unclaimedCount s.evr.hosts[s.evr.srcs[src.toFin].target] src.toFin.val = none := hnone
    unfold evrTargetChange
    dsimp only
    rw [if_neg hnew, hnone']
  refine .of_not_guard rfl (by simp only [hup, hreal, Bool.not_true, Bool.or_self, Bool.false_eq_true, not_false_iff]) ?_
  rw [if_neg (Bool.eq_false_iff.mp hok), hchange]
  exact ⟨Evr.setSrc_self _ _ _, rfl⟩

theorem runs_evrTargetChange_refused (hup : evrUp s = true) {src : BitVec 9} {g : Fin 2}
    (hreal : srcReserved src.toNat = false) (hbad : targetRefused s src.toFin g = true) :
    Runs (.evrTargetChange src g) s fun t => t.evr = s.evr ∧ t.sys.werr.reason = 9 := by
  refine .of_not_guard rfl (by simp only [hup, hreal, Bool.not_true, Bool.or_self, Bool.false_eq_true, not_false_iff]) ?_
  rw [if_pos hbad]
  exact ⟨rfl, rfl⟩

end

/-- Settles O26: a masked write is `Evr.onMask`, no source is eligible while HOLD is 1, and a record after it is written as
`runs_evrRecordWrite` says. -/
theorem eventRouterEnablesAndHolds : Obligations.EventRouterEnablesAndHolds := by
  intro s hup
  refine ⟨fun n mask m => ?_, fun b => .of_guard (t := evrHoldWrite b s) rfl hup rfl, fun src g => runs_evrTargetChange hup,
    fun src g => runs_evrTargetChange_refused hup, fun hold => ⟨fun h => ?_, fun n w hn => ?_, fun h k rest hrec hroom => ?_, ?_⟩⟩
  · have hset := fun w : Source => Runs.of_masked (s := s) (x := .evrEnSet w n mask) rfl hup
      ((congrArg (fun e : Evr => e.srcs[m]) (evrEnSet_evr w n mask s)).trans (Evr.onMask_srcs _ n mask _ m))
    have hclr := Runs.of_masked (s := s) (x := .evrEnClr n mask) rfl hup (Evr.onMask_srcs _ n mask _ m)
    have hpend := Runs.of_masked (s := s) (x := .evrPndSet n mask) rfl hup (Evr.onMask_srcs _ n mask _ m)
    have hdrain := Runs.of_masked (s := s) (x := .evrPndClr n mask) rfl hup (Evr.onMask_srcs _ n mask _ m)
    exact ⟨fun hm => ⟨fun w => (hset w).1 hm, hclr.1 hm, hpend.1 hm, hdrain.1 hm⟩,
      fun hm => ⟨fun w => (hset w).2 hm, hclr.2 hm, hpend.2 hm, hdrain.2 hm⟩⟩
  · exact .of_next rfl (evrRecordWrite_of_hold hold h)
  · rw [raise_evr hn]
    exact ⟨Evr.setSrc_self _ n _, rfl⟩
  · obtain ⟨hrest, hstays⟩ := evrClaim_taken (s := clearIdle h s) hrec hroom
    exact .of_evrClaim hup ⟨hrest, hstays.trans hold⟩
  · refine .of_guard rfl hup fun h n hfree hnext => ?_
    obtain ⟨u, hu, -, hun, -, hsrc, -⟩ := runs_evrRecordWrite (s := evrHoldWrite false s) hup hfree hnext
    exact ⟨u, hu, hun, hsrc⟩

end Sys2Proof.Machine
end

section
/-! Proofs about the host ports: transactions, the sleep contact and the doorbells (R442, R443, R445, R452, R453). -/
namespace Sys2Proof.Machine

open Sys2Proof

section
variable {s : State} {h : Fin 2} {m : Bool} {b : List Byte}

/-- Out of DOZE a falling edge of `Hx_CSN` only takes the clock's mode. -/
theorem hostSelect_awake (hawake : s.sys.power ≠ .doze) : hostSelect h m s = s.setHp h fun p => { p with mode3 := m } := by
  rw [hostSelect, if_neg hawake]

theorem hostApply_idle (hheld : s.hp[h].held = []) : hostApply h s = s := by
  unfold hostApply
  rw [hheld]

theorem countAbsent_reply (codes : List Nat) (reply : List Byte) (s : State) :
    ((countAbsent h codes s).setHp h fun p => { p with reply := reply }).hp[h].reply = reply := by
  rw [State.setHp_hp_self]

/-! ### A write (R442, R445) -/

theorem hostTransact_write (hup : hostUp s h = true) (hsome : b ≠ []) (hdir : hdrWrite b = true) :
    hostTransact h m b s = hostWrite h b (hostDone h (hostSelect h m s)) := by
  have hup' : ¬ hostUp s h = false := by rw [hup]; decide
  unfold hostTransact
  rw [if_neg hup']
  dsimp only
  rw [if_neg hsome, if_pos hdir]

/-- A write with every check met is held. -/
theorem hostWrite_held (hcrc : hdrCrc b = false) (hreq : s.hp[h].crcReq = false) (hlen : b.length = 4 + 4 * hdrCount b)
    (haddr : (hdrAddr b).toNat % 4 = 0) (hroom : s.hp[h].held.length < 2) : hostWrite h b s = s.setHp h fun p =>
      { p with held := p.held ++ [{ seq := p.seq, addr := hdrAddr b, words := wordsOf (hdrCount b) b }] } := by
  simp only [hostWrite, hcrc, hreq, hlen, haddr, Nat.not_le.mpr hroom, Bool.false_and, Bool.and_false, Bool.false_eq_true,
    ne_eq, not_true_eq_false, if_false]

theorem runs_hostWrite (hup : hostUp s h = true) (hawake : s.sys.power ≠ .doze) (hsome : b ≠ []) (hdir : hdrWrite b = true)
    (hcrc : hdrCrc b = false) (hreq : s.hp[h].crcReq = false) (hlen : b.length = 4 + 4 * hdrCount b)
    (haddr : (hdrAddr b).toNat % 4 = 0) (hroom : s.hp[h].held.length < 2) : Runs (.hostWrite h m b) s fun t =>
      t.hp[h].held = s.hp[h].held ++ [{ seq := s.hp[h].seq + 1, addr := hdrAddr b, words := wordsOf (hdrCount b) b }] ∧
      t.hp[h].seq = s.hp[h].seq + 1 ∧ t.hp[h].mode3 = m ∧ t.sys = s.sys ∧ t.evr = s.evr := by
  refine .of_next (congrArg Host.Outcome.next (hostTransact_write hup hsome hdir)) ?_
  have hport : (hostDone h (hostSelect h m s)).hp[h] = { s.hp[h] with mode3 := m, seq := s.hp[h].seq + 1 } := by
    rw [hostDone, State.setHp_hp_self, hostSelect_awake hawake, State.setHp_hp_self]
  have hpart : (hostDone h (hostSelect h m s)).sys = s.sys ∧ (hostDone h (hostSelect h m s)).evr = s.evr := by
    rw [hostSelect_awake hawake]
    exact ⟨rfl, rfl⟩
  rw [hostWrite_held hcrc (by rw [hport]; exact hreq) hlen haddr (by rw [hport]; exact hroom), State.setHp_hp_self, hport]
  exact ⟨rfl, rfl, rfl, hpart⟩

/-! ### A read of one word (R443) -/

theorem hostFetch_one (a : Nat) (s : State) :
    hostFetch a 1 s = ([((busFetch a s).1, (busFetch a s).2.1)], (busFetch a s).2.2) := rfl

theorem hostTransact_read (hup : hostUp s h = true) (hlen : b.length = 4) (hdir : hdrWrite b = false)
    (hcrc : hdrCrc b = false) : hostTransact h m b s = hostDone h (hostRead h b (hostSelect h m s)) := by
  have hup' : ¬ hostUp s h = false := by rw [hup]; decide
  have hsome : b ≠ [] := by rintro rfl; exact absurd hlen (by decide)
  unfold hostTransact
  rw [if_neg hup']
  dsimp only
  rw [if_neg hsome, hdir, hcrc, if_neg Bool.false_ne_true, if_neg Bool.false_ne_true, if_neg (by omega),
    List.take_of_length_le (by omega)]

/-- A read of one word that finds nothing held and passes its checks is answered with the word. -/
theorem hostRead_reply (hheld : s.hp[h].held = []) (hcrc : hdrCrc b = false) (hreq : s.hp[h].crcReq = false)
    (hcount : hdrCount b = 1) (haddr : (hdrAddr b).toNat % 4 = 0) : (hostRead h b s).hp[h].reply = replyBytes false false
      [((busFetch (hdrAddr b).toNat s).1, (busFetch (hdrAddr b).toNat s).2.1)] := by
  simp only [hostRead, hostApply_idle hheld, hcrc, hreq, hcount, haddr, Bool.false_and, Bool.and_false,
    Bool.false_eq_true, ne_eq, not_true_eq_false, if_false, hostFetch_one]
  exact countAbsent_reply _ _ _

theorem runs_hostRead (hup : hostUp s h = true) (hheld : s.hp[h].held = []) (hawake : s.sys.power ≠ .doze)
    (hlen : b.length = 4) (hdir : hdrWrite b = false) (hcrc : hdrCrc b = false) (hreq : s.hp[h].crcReq = false)
    (hcount : hdrCount b = 1) (haddr : (hdrAddr b).toNat % 4 = 0) :
    Runs (.hostRead h m b) s fun t => t.hp[h].reply = replyBytes false false
      [((busFetch (hdrAddr b).toNat (hostSelect h m s)).1, (busFetch (hdrAddr b).toNat (hostSelect h m s)).2.1)] := by
  have hport : (hostSelect h m s).hp[h] = { s.hp[h] with mode3 := m } := by
    rw [hostSelect_awake hawake, State.setHp_hp_self]
  refine .of_next (congrArg Host.Outcome.next (hostTransact_read hup hlen hdir hcrc)) ?_
  rw [hostDone, State.setHp_hp_self]
  exact hostRead_reply (by rw [hport]; exact hheld) hcrc (by rw [hport]; exact hreq) hcount haddr

/-! ### Contacts and doorbells (R452, R453) -/

theorem idleEndsHold_hp (h : Fin 2) (s : State) : (idleEndsHold h s).hp = s.hp := (idleEndsHold_only h s).same .hp rfl

theorem idleEndsHold_evr (h : Fin 2) (s : State) : (idleEndsHold h s).evr = s.evr := (idleEndsHold_only h s).same .evr rfl

/-- A new level of idleness changes the port, and the interrupt line at most. -/
theorem Runs.of_idleEndsHold {x : Instr} {f : HostPort → HostPort} (hp : s.powered = true)
    (hx : exec x s = .next (if s.powered = true then idleEndsHold h (s.setHp h f) else s)) :
    Runs x s fun t => t.hp[h] = f s.hp[h] ∧ t.evr = s.evr := by
  refine .of_guard hx hp ⟨?_, idleEndsHold_evr _ _⟩
  rw [idleEndsHold_hp, State.setHp_hp_self]

theorem runs_hostDoorbell (b : Bool) (w : Word) (hp : s.powered = true) : Runs (.hostDoorbell b w) s fun t =>
    t.evr.srcs[if b then (51 : Fin 512) else 50] = (s.evr.srcs[if b then (51 : Fin 512) else 50]).occur w s.stamp := by
  refine .of_guard rfl hp ?_
  cases b with
  | false => exact (congrArg (fun e : Evr => e.srcs[(50 : Fin 512)]) (raise_evr (n := 50) rfl w s)).trans (Evr.setSrc_self _ _ _)
  | true => exact (congrArg (fun e : Evr => e.srcs[(51 : Fin 512)]) (raise_evr (n := 51) rfl w s)).trans (Evr.setSrc_self _ _ _)

end

/-- Settles O27: the checks of `hostWrite` and `hostRead` are met one by one, and an idleness changes its port alone. -/
theorem hostTransactionsAreTaken : Obligations.HostTransactionsAreTaken := by
  refine ⟨fun _ _ _ _ => runs_hostWrite, fun _ _ _ _ => runs_hostRead, fun s h b hp => ⟨?_, ?_⟩, fun _ b w => runs_hostDoorbell b w⟩
  · obtain ⟨t, hnext, hport, hevr⟩ := Runs.of_idleEndsHold (h := h) (x := .hostSleepChange h b) hp rfl
    exact ⟨t, hnext, by rw [hport], by rw [hport], hevr⟩
  · obtain ⟨t, hnext, hport, hevr⟩ := Runs.of_idleEndsHold (h := h) (x := .hostIdleDoorbell h b)
      (f := fun p => { p with idle := b }) hp rfl
    exact ⟨t, hnext, by rw [hport], by rw [hport], hevr⟩

end Sys2Proof.Machine
end

section
/-! Proofs about the transmit side of the CAN controllers: requests, withdrawals, the end of an attempt, and the frames that
IMZ submits (R305 to R308, R312, R313, R318). -/
namespace Sys2Proof.Machine

open Sys2Proof

/-! ### Bytes of a memory -/

/-- A byte other than 0 stands where it is stored, in any memory. -/
theorem memGet_memPut_of_ne {v : Byte} (hv : v ≠ 0) (m : Memory) (a : Nat) : memGet (memPut m a v) a = v := by
  rw [memGet, memPut, tblPut, if_neg hv, tblGet_tblIns_self]

theorem memGet_memPut_other {a j : Nat} (h : j ≠ a) (m : Memory) (v : Byte) : memGet (memPut m a v) j = memGet m j :=
  tblGet_tblPut_other 0 m a j v h

/-! ### Masks of buffers (R306) -/

theorem bit_bufBit : ∀ b i : Fin 32, bit (bufBit b.val) i.val = decide (i = b) := by decide +kernel

theorem bit_and_not_bufBit (x : BitVec 32) (b : Fin 32) : bit (x &&& ~~~(bufBit b.val)) b.val = false := by
  have hself : (bufBit b.val).getLsbD b.val = true := (bit_bufBit b b).trans (decide_eq_true rfl)
  rw [bit, BitVec.getLsbD_and, BitVec.getLsbD_not, hself, Bool.not_true, Bool.and_false, Bool.and_false]

theorem maskBufs_bufBit : ∀ b : Fin 32, maskBufs (bufBit b.val) = [b] := by decide +kernel

/-- A writer that may use a buffer reaches it, and its write names no other writer's bits. -/
theorem canMask_of_allowed {src : Source} {b : Fin 32} (h : src = .chip ∨ 28 ≤ b.val) :
    canMask src (bufBit b.val) = bufBit b.val ∧ ¬ (src ≠ .chip ∧ bufBit b.val &&& 0x0FFFFFFF ≠ 0) := by
  have hhost : ∀ b : Fin 32, 28 ≤ b.val → bufBit b.val &&& 0xF0000000 = bufBit b.val ∧ bufBit b.val &&& 0x0FFFFFFF = 0 := by
    decide
  rcases h with rfl | hb
  · exact ⟨if_pos rfl, fun hne => hne.1 rfl⟩
  · obtain ⟨hmask, hlow⟩ := hhost b hb
    refine ⟨?_, fun hne => hne.2 hlow⟩
    unfold canMask
    split
    · rfl
    · exact hmask

theorem canMask_of_imz {src : Source} {b : Fin 32} (hsrc : src ≠ .chip) (hb : b.val < 28) :
    maskBufs (canMask src (bufBit b.val)) = [] ∧ (src ≠ .chip ∧ bufBit b.val &&& 0x0FFFFFFF ≠ 0) := by
  have himz : ∀ b : Fin 32, b.val < 28 → bufBit b.val &&& 0xF0000000 = 0 ∧ bufBit b.val &&& 0x0FFFFFFF ≠ 0 := by decide
  obtain ⟨hmask, hlow⟩ := himz b hb
  rw [canMask, if_neg hsrc, hmask]
  exact ⟨by decide, hsrc, hlow⟩

/-! ### A buffer's requests and withdrawals (R306, R307) -/

section
variable {s : State} {k : Fin 4} {b : Fin 32} {src : Source}

theorem State.setCan_setCan (s : State) (k : Fin 4) (f g : Can → Can) : (s.setCan k f).setCan k g = s.setCan k fun c => g (f c) := by
  simp only [State.setCan, Fin.getElem_fin, Vector.getElem_set_self, Vector.set_set]

theorem State.setCan_of_fixed {f : Can → Can} (hf : f s.can[k] = s.can[k]) : s.setCan k f = s := by
  rw [State.setCan, hf]
  simp only [Fin.getElem_fin, Vector.set_getElem_self]

theorem canComplete_completed (k : Fin 4) (b : Fin 32) {result : Nat} (hresult : BitVec.ofNat 8 result ≠ (0 : Byte)) (s : State) :
    memGet (canComplete k b.val result s).can[k].ram (txOff b.val + 16) = BitVec.ofNat 8 result ∧
    bit (canComplete k b.val result s).can[k].txPend b.val = false := by
  rw [canComplete_can_self]
  exact ⟨memGet_memPut_of_ne hresult _ _, bit_and_not_bufBit _ b⟩

theorem canTxReq_one (hpres : canPresent s k = true) (h : src = .chip ∨ 28 ≤ b.val) :
    canTxReq src k (bufBit b.val) s = canRequest k s b := by
  obtain ⟨hmask, hlog⟩ := canMask_of_allowed h
  rw [canTxReq, if_pos hpres, hmask, maskBufs_bufBit, canLogMask, if_neg hlog]
  rfl

theorem canTxAbort_one (hpres : canPresent s k = true) (h : src = .chip ∨ 28 ≤ b.val) (o : Option (Fin 32)) :
    canTxAbort src k (bufBit b.val) o s = canAbort k o s b := by
  obtain ⟨hmask, hlog⟩ := canMask_of_allowed h
  rw [canTxAbort, if_pos hpres, hmask, maskBufs_bufBit, canLogMask, if_neg hlog]
  rfl

/-- A buffer that starts anew: result, failures and ARB_WON at 0. -/
def Can.cleared (b : Nat) (c : Can) : Can := { c with ram := memPut (memPut c.ram (txOff b + 16) 0) (txOff b + 17) 0 }

theorem canRequest_of_free (hfree : bit s.can[k].txPend b.val = false) (hquiet : canQuiet s = false) : canRequest k s b =
    if canBadId s k b.val then canComplete k b.val 4 (s.setCan k (Can.cleared b.val))
    else s.setCan k fun c => { c.cleared b.val with txPend := c.txPend ||| bufBit b.val } := by
  unfold canRequest
  rw [hfree, hquiet, if_neg (by decide)]
  dsimp only
  split
  · rfl
  · rw [State.setCan_setCan]
    rfl

theorem runs_canTxRequest (hpres : canPresent s k = true) (h : src = .chip ∨ 28 ≤ b.val)
    (hfree : bit s.can[k].txPend b.val = false) (hquiet : canQuiet s = false) (hok : canBadId s k b.val = false) :
    Runs (.canTxRequest src k (bufBit b.val)) s fun t =>
      t.can[k] = { s.can[k] with ram := memPut (memPut s.can[k].ram (txOff b.val + 16) 0) (txOff b.val + 17) 0, txPend := s.can[k].txPend ||| bufBit b.val } ∧
      (∀ j : Fin 4, j ≠ k → t.can[j] = s.can[j]) ∧ Only [.can] s t := by
  refine .of_next (congrArg Host.Outcome.next (canTxReq_one hpres h)) ?_
  rw [canRequest_of_free hfree hquiet, if_neg (Bool.eq_false_iff.mp hok)]
  exact ⟨State.setCan_can_self _ _ _, fun j hj => State.setCan_can_other _ _ _ _ hj, s.setCan_only _ _⟩

theorem runs_canTxRequest_bad (hpres : canPresent s k = true) (h : src = .chip ∨ 28 ≤ b.val)
    (hfree : bit s.can[k].txPend b.val = false) (hquiet : canQuiet s = false) (hbad : canBadId s k b.val = true) :
    Runs (.canTxRequest src k (bufBit b.val)) s fun t => memGet t.can[k].ram (txOff b.val + 16) = 4 ∧
      bit t.can[k].txPend b.val = false ∧ (∀ j : Fin 4, j ≠ k → t.can[j] = s.can[j]) ∧ Only [.can, .evr] s t := by
  refine .of_next (congrArg Host.Outcome.next (canTxReq_one hpres h)) ?_
  obtain ⟨hres, hpend⟩ := canComplete_completed k b (result := 4) (by decide) (s.setCan k (Can.cleared b.val))
  rw [canRequest_of_free hfree hquiet, if_pos hbad]
  exact ⟨hres, hpend, fun j hj => (canComplete_can_other hj _ _ _).trans (State.setCan_can_other _ _ _ _ hj),
    Only.after (canComplete_only _ _ _ _) rfl ((s.setCan_only _ _).mono rfl)⟩

theorem runs_canTxAbort (hpres : canPresent s k = true) (h : src = .chip ∨ 28 ≤ b.val)
    (hpend : bit s.can[k].txPend b.val = true) {o : Option (Fin 32)} (ho : o ≠ some b) :
    Runs (.canTxAbort src k (bufBit b.val) o) s fun t => memGet t.can[k].ram (txOff b.val + 16) = 2 ∧
      bit t.can[k].txPend b.val = false ∧ (∀ j : Fin 4, j ≠ k → t.can[j] = s.can[j]) ∧ Only [.can, .evr] s t := by
  refine .of_next (congrArg Host.Outcome.next (canTxAbort_one hpres h o)) ?_
  obtain ⟨hres, hclear⟩ := canComplete_completed k b (result := 2) (by decide) s
  rw [canAbort, if_pos hpend, if_neg ho]
  exact ⟨hres, hclear, fun j hj => canComplete_can_other hj _ _ _, (canComplete_only _ _ _ _).mono rfl⟩

theorem runs_canTxAbort_onBus (hpres : canPresent s k = true) (h : src = .chip ∨ 28 ≤ b.val)
    (hpend : bit s.can[k].txPend b.val = true) {o : Option (Fin 32)} (ho : o = some b) :
    Runs (.canTxAbort src k (bufBit b.val) o) s fun t =>
      t.can[k] = { s.can[k] with abortReq := s.can[k].abortReq ||| bufBit b.val } ∧
      (∀ j : Fin 4, j ≠ k → t.can[j] = s.can[j]) ∧ Only [.can] s t := by
  refine .of_next (congrArg Host.Outcome.next (canTxAbort_one hpres h o)) ?_
  rw [canAbort, if_pos hpend, if_pos ho]
  exact ⟨State.setCan_can_self _ _ _, fun j hj => State.setCan_can_other _ _ _ _ hj, s.setCan_only _ _⟩

/-- Another writer's request or withdrawal of an IMZ buffer is only logged. -/
theorem runs_canTx_of_imz (hpres : canPresent s k = true) (hsrc : src ≠ .chip) (hb : b.val < 28) {o : Option (Fin 32)}
    {x : Instr} (hx : x = .canTxRequest src k (bufBit b.val) ∨ x = .canTxAbort src k (bufBit b.val) o) :
    Runs x s fun t => t.sys.werr.reason = 7 ∧ Only [.sys] s t := by
  obtain ⟨hnone, hlog⟩ := canMask_of_imz hsrc hb
  rcases hx with rfl | rfl
  · have hreq : canTxReq src k (bufBit b.val) s = logWerr 7 src (canAddr k 0x20) s := by
      rw [canTxReq, if_pos hpres, hnone, canLogMask, if_pos hlog]
      rfl
    exact .of_next (congrArg Host.Outcome.next hreq) ⟨rfl, logWerr_only _ _ _ _⟩
  · have habort : canTxAbort src k (bufBit b.val) o s = logWerr 7 src (canAddr k 0x24) s := by
      rw [canTxAbort, if_pos hpres, hnone, canLogMask, if_pos hlog]
      rfl
    exact .of_next (congrArg Host.Outcome.next habort) ⟨rfl, logWerr_only _ _ _ _⟩

end

/-! ### IMZ at rest at the end of an attempt (R322) -/

section
variable {s t : State}

theorem imzOpen_congr (hsys : t.sys = s.sys) (himz : t.imz = s.imz) : imzOpen t = imzOpen s := by
  simp only [imzOpen, imzLive, regionUp, State.bare, hsys, himz]

theorem imzDrain_of_closed (h : imzOpen s = false) : imzDrain s = s :=
  if_neg fun hopen => Bool.false_ne_true (h.symm.trans hopen.1)

/-- `t` is `s` with other notices and another queue, which leaves a closed network closed. -/
structure NoticesOnly (s t : State) : Prop where
  eq : t = s.setImz fun _ => t.imz
  joined : t.imz.joined = s.imz.joined
  conflict : t.imz.conflict = s.imz.conflict

theorem NoticesOnly.refl (s : State) : NoticesOnly s s := ⟨rfl, rfl, rfl⟩

theorem NoticesOnly.trans {u : State} (h : NoticesOnly s t) (g : NoticesOnly t u) : NoticesOnly s u where
  eq := g.eq.trans (by rw [h.eq]; rfl)
  joined := g.joined.trans h.joined
  conflict := g.conflict.trans h.conflict

theorem NoticesOnly.closed (h : NoticesOnly s t) (hclosed : imzOpen s = false) : imzOpen t = false := by
  have hsys : t.sys = s.sys := by rw [h.eq]; rfl
  simpa only [imzOpen, imzLive, regionUp, State.bare, hsys, h.joined, h.conflict] using hclosed

theorem dropNotice_noticesOnly (a : Nat) (onset : Ts) (s : State) : NoticesOnly s (dropNotice a onset s) := ⟨rfl, rfl, rfl⟩

theorem setNotice_noticesOnly (a : Nat) (onset : Ts) (f : Notice → Notice) (s : State) : NoticesOnly s (setNotice a onset f s) :=
  ⟨rfl, rfl, rfl⟩

theorem noticeWon_noticesOnly (k : Fin 4) (b : Fin 32) (s : State) : NoticesOnly s (noticeWon k b s) := by
  unfold noticeWon
  dsimp only
  split
  · exact setNotice_noticesOnly _ _ _ s
  · exact .refl s

theorem retractSend_noticesOnly (h : imzOpen s = false) (a : Nat) (onset : Ts) (d : List Byte) :
    NoticesOnly s (retractSend a onset d s) := by
  unfold retractSend imzEnqueue
  split
  · exact .refl s
  · have hdrain := imzDrain_of_closed (s := s.setImz fun z =>
      { z with queue := z.queue ++ [{ typ := 0x12, addr := a, onset := onset, free := true, data := d }] }) h
    rw [hdrain]
    exact ⟨rfl, rfl, rfl⟩

theorem noticeClose_noticesOnly (h : imzOpen s = false) (n : Notice) : NoticesOnly s (noticeClose s n) := by
  unfold noticeClose
  cases n.ret with
  | none => exact .refl s
  | some d =>
    dsimp only
    split
    · exact (dropNotice_noticesOnly _ _ s).trans (retractSend_noticesOnly (s := dropNotice n.addr n.onset s) h _ _ d)
    · split
      · exact .refl s
      · exact dropNotice_noticesOnly _ _ s

theorem foldl_noticeClose_noticesOnly (h : imzOpen s = false) (l : List Notice) : NoticesOnly s (l.foldl noticeClose s) := by
  induction l generalizing s with
  | nil => exact .refl s
  | cons n l ih =>
    have hfirst := noticeClose_noticesOnly h n
    exact hfirst.trans (ih (hfirst.closed h))

end

section
variable {s : State} {k : Fin 4} {b : Fin 32}

/-- While nothing may be sent, what follows an attempt concerns the notices alone. -/
theorem afterAttempt_noticesOnly (h : imzOpen s = false) : NoticesOnly s (imzDrain (s.imz.notices.foldl noticeClose s)) := by
  have hclose := foldl_noticeClose_noticesOnly h s.imz.notices
  rwa [imzDrain_of_closed (hclose.closed h)]

theorem canAttempt_closed (h : imzOpen s = false) (e : TxEnd) (v : Option (BitVec 8)) (age : Nat) :
    imzOpen (canAttempt k b e v age s) = false :=
  (imzOpen_congr ((canAttempt_only k b e v age s).same .sys rfl) ((canAttempt_only k b e v age s).same .imz rfl)).trans h

/-- The attempt of a pending buffer of a controller that transmits on its bus. -/
structure Attempts (s : State) (k : Fin 4) (b : Fin 32) : Prop where
  pend : bit s.can[k].txPend b.val = true
  onBus : s.can[k].onBus = true
  mode : canTxMode s.can[k].mode = true

theorem Attempts.live (h : Attempts s k b) :
    (!bit s.can[k].txPend b.val || !s.can[k].onBus || !canTxMode s.can[k].mode) = false := by
  simp only [h.pend, h.onBus, h.mode, Bool.not_true, Bool.or_self]

/-- The end of an attempt that was not won: the attempt itself, then the notices. -/
theorem runs_canTxAttemptEnd_lost (hclosed : imzOpen s = false) {e : TxEnd} (he : e = .parity ∨ e = .lost) {age : Nat}
    {P : State → Prop} (hP : ∀ t, NoticesOnly (canAttempt k b e none age s) t → P t) : Runs (.canTxAttemptEnd k b e none age) s P := by
  refine .of_next rfl (hP _ ?_)
  unfold attemptEnd
  dsimp only
  rcases he with rfl | rfl
  · rw [ite_self]
    exact afterAttempt_noticesOnly (canAttempt_closed hclosed _ _ _)
  · rw [ite_self]
    exact afterAttempt_noticesOnly (canAttempt_closed hclosed _ _ _)

/-- A successful attempt begins with its notice and the start of frame of a TIME_REF. -/
def attemptWon (k : Fin 4) (b : Fin 32) (age : Nat) (s : State) : State := refSent k b age (noticeWon k b s)

theorem attemptWon_only (k : Fin 4) (b : Fin 32) (age : Nat) (s : State) : Only [.imz, .tim] s (attemptWon k b age s) :=
  Only.after (refSent_only _ _ _ _) rfl ((noticeWon_only _ _ _).mono rfl)

theorem attemptWon_closed (h : imzOpen s = false) (age : Nat) : imzOpen (attemptWon k b age s) = false := by
  have href := refSent_only k b age (noticeWon k b s)
  exact (imzOpen_congr (href.same .sys rfl) (href.same .imz rfl)).trans ((noticeWon_noticesOnly k b s).closed h)

theorem runs_canTxAttemptEnd_sent (hclosed : imzOpen s = false) (h : Attempts s k b) {age : Nat} {P : State → Prop}
    (hP : ∀ t, NoticesOnly (canAttempt k b .sent none age (attemptWon k b age s)) t → P t) :
    Runs (.canTxAttemptEnd k b .sent none age) s P := by
  refine .of_next rfl (hP _ ?_)
  have hlive : (bit s.can[k].txPend b.val && s.can[k].onBus && canTxMode s.can[k].mode) = true := by
    rw [h.pend, h.onBus, h.mode]
    rfl
  unfold attemptEnd
  dsimp only
  rw [hlive, Bool.not_true, if_neg Bool.false_ne_true]
  exact afterAttempt_noticesOnly (canAttempt_closed (attemptWon_closed hclosed age) _ _ _)

end

/-! ### What an attempt makes of its buffer (R307, R313, R315) -/

section
variable (k : Fin 4) (s : State)

/-- The error state is all that `canState` may change of the controllers. -/
theorem canState_can : ∃ n, (canState k s).can = (s.setCan k fun c => { c with st := n }).can := by
  unfold canState
  extract_lets c n
  split
  case isTrue => exact ⟨s.can[k].st, congrArg State.can (State.setCan_of_fixed rfl).symm⟩
  case isFalse => exact ⟨n, canEvent_can _ _ _ _⟩

theorem canState_can_self : ∃ n, (canState k s).can[k] = { s.can[k] with st := n } := by
  obtain ⟨n, hcan⟩ := canState_can k s
  exact ⟨n, by rw [hcan, State.setCan_can_self]⟩

theorem canState_can_other {j : Fin 4} (h : j ≠ k) : (canState k s).can[j] = s.can[j] := by
  obtain ⟨n, hcan⟩ := canState_can k s
  rw [hcan, State.setCan_can_other _ _ _ _ h]

theorem canAloneEnd_can : (canAloneEnd k s).can = (s.setCan k fun c => { c with ackErrs := 0, alone := false }).can := by
  unfold canAloneEnd
  dsimp only
  split
  case isTrue => rw [canEvent_can, State.setCan_setCan]
  case isFalse h =>
    have hoff : s.can[k].alone = false := Bool.eq_false_iff.mpr h
    simp only [State.setCan, ← hoff]

theorem canAloneEnd_can_self : (canAloneEnd k s).can[k] = { s.can[k] with ackErrs := 0, alone := false } := by
  rw [canAloneEnd_can, State.setCan_can_self]

theorem canAloneEnd_can_other {j : Fin 4} (h : j ≠ k) : (canAloneEnd k s).can[j] = s.can[j] := by
  rw [canAloneEnd_can, State.setCan_can_other _ _ _ _ h]

end

section
variable {s : State} {k : Fin 4} {b : Fin 32}

/-- A successful attempt in NORMAL: the buffer is SENT, the transmit counter falls, ALONE ends. -/
theorem canSent_normal (hmode : s.can[k].mode = 1) (age : Nat) :
    memGet (canSent k b age s).can[k].ram (txOff b.val + 16) = 1 ∧ bit (canSent k b age s).can[k].txPend b.val = false ∧
    (canSent k b age s).can[k].tec = s.can[k].tec - 1 ∧ (canSent k b age s).can[k].alone = false ∧
    ∀ j : Fin 4, j ≠ k → (canSent k b age s).can[j] = s.can[j] := by
  have hown : (s.can[k].mode == 4 || s.can[k].mode == 5 || s.can[k].mode == 6) = false := by rw [hmode]; rfl
  unfold canSent
  dsimp only
  rw [hown, if_neg Bool.false_ne_true, State.setCan_setCan]
  refine ⟨?_, ?_, ?_, ?_, fun j hj => ?_⟩
  case refine_5 =>
    rw [canState_can_other _ _ hj, canAloneEnd_can_other _ _ hj, canComplete_can_other hj, State.setCan_can_other _ _ _ _ hj]
  all_goals
    obtain ⟨n, hst⟩ := canState_can_self k (canAloneEnd k (canComplete k b.val 1 (s.setCan k fun c => { c.setAttempt b.val true false with tec := c.tec - 1, ram := memFill (c.setAttempt b.val true false).ram (txOff b.val + 8) (bytesLE 8 (sofStamp s age).toNat) })))
    rw [hst, canAloneEnd_can_self, canComplete_can_self, State.setCan_can_self]
  · exact memGet_memPut_of_ne (v := 1) (by decide) _ _
  · exact bit_and_not_bufBit _ b
  · rfl

theorem Attempts.of_can (h : Attempts s k b) {t : State} (hcan : t.can = s.can) : Attempts t k b :=
  ⟨by rw [hcan]; exact h.pend, by rw [hcan]; exact h.onBus, by rw [hcan]; exact h.mode⟩

theorem canAttempt_sent (h : Attempts s k b) (age : Nat) : canAttempt k b .sent none age s = canSent k b age s := by
  have hdelay : canDelay s k b none = none := by
    unfold canDelay
    split <;> rfl
  unfold canAttempt
  rw [h.live, if_neg Bool.false_ne_true]
  dsimp only
  rw [hdelay]
  rfl

theorem canAttempt_parity (h : Attempts s k b) (age : Nat) : canAttempt k b .parity none age s = canComplete k b.val 5 s := by
  unfold canAttempt
  rw [h.live, if_neg Bool.false_ne_true]

theorem canAttempt_lost (h : Attempts s k b) (age : Nat) :
    canAttempt k b .lost none age s = canFail k b false (s.can[k].txArbCnt b.val) s := by
  unfold canAttempt
  rw [h.live, if_neg Bool.false_ne_true]

/-- A failure that is counted stands in byte 17 of its buffer. -/
theorem setAttempt_failed (c : Can) {b : Nat} (h : c.failures b < 31) :
    (c.setAttempt b false true).failures b = c.failures b + 1 ∧ (c.setAttempt b false true).txRetry b = c.txRetry b := by
  have hbyte : ∀ v : BitVec 8, fld v 0 5 < 31 →
      BitVec.ofNat 8 ((fld v 0 5 + 1) % 32 + if (bit v 7 || false) = true then 0x80 else 0) ≠ 0 ∧
      fld (BitVec.ofNat 8 ((fld v 0 5 + 1) % 32 + if (bit v 7 || false) = true then 0x80 else 0)) 0 5 = fld v 0 5 + 1 := by
    decide
  obtain ⟨hne, hcount⟩ := hbyte (memGet c.ram (txOff b + 17)) h
  constructor
  · exact (congrArg (fld · 0 5) (memGet_memPut_of_ne hne _ _)).trans hcount
  · exact congrArg (fld · 0 4) (memGet_memPut_other (by omega) _ _)

/-- A counted failure beyond RETRY drops the buffer, an earlier one leaves it pending. -/
theorem canFail_counted (hkeep : bit s.can[k].abortReq b.val = false) (h : s.can[k].failures b.val < 31) :
    canFail k b false true s = if s.can[k].txRetry b.val ≤ s.can[k].failures b.val then
      canComplete k b.val 3 (s.setCan k fun c => c.setAttempt b.val false true)
    else s.setCan k fun c => c.setAttempt b.val false true := by
  obtain ⟨hfail, hretry⟩ := setAttempt_failed s.can[k] h
  unfold canFail
  dsimp only
  rw [hkeep, if_neg Bool.false_ne_true, State.setCan_can_self, hfail, hretry]
  simp only [Nat.add_le_add_iff_right]

theorem canEvent_raised (k : Fin 4) (kind buf : Nat) (s : State) :
    Raised ⟨38 + k.val, by omega⟩ (put 0 4 kind ||| put 4 4 s.can[k].st ||| put 8 8 buf) s (canEvent k kind buf s) := by
  have hreal : ∀ k : Fin 4, srcReserved (38 + k.val) = false := by decide
  rw [Raised, canEvent, raise_evr (n := ⟨38 + k.val, by omega⟩) (hreal k), Evr.setSrc_self]

theorem NoticesOnly.only {t : State} (h : NoticesOnly s t) : Only [.imz] s t := by
  rw [h.eq]
  exact s.setImz_only _

theorem NoticesOnly.can {t : State} (h : NoticesOnly s t) : t.can = s.can := h.only.same .can rfl

end

section
variable {s : State} {k : Fin 4} {b : Fin 32} (hatt : Attempts s k b) (hclosed : imzOpen s = false) (age : Nat)
include hatt hclosed

theorem runs_attempt_sent (hmode : s.can[k].mode = 1) : Runs (.canTxAttemptEnd k b .sent none age) s fun t =>
    memGet t.can[k].ram (txOff b.val + 16) = 1 ∧ bit t.can[k].txPend b.val = false ∧ t.can[k].tec = s.can[k].tec - 1 ∧
    t.can[k].alone = false ∧ (∀ j : Fin 4, j ≠ k → t.can[j] = s.can[j]) ∧ Only [.can, .evr, .imz, .tim] s t := by
  refine runs_canTxAttemptEnd_sent hclosed hatt fun t ht => ?_
  have hwon := attemptWon_only k b age s
  have hcan : (attemptWon k b age s).can = s.can := hwon.same .can rfl
  rw [canAttempt_sent (hatt.of_can hcan)] at ht
  obtain ⟨hres, hpend, htec, halone, hothers⟩ := canSent_normal (s := attemptWon k b age s) (k := k) (b := b) (by rw [hcan]; exact hmode) age
  rw [hcan] at htec
  rw [ht.can]
  refine ⟨hres, hpend, htec, halone, fun j hj => (hothers j hj).trans (by rw [hcan]), ?_⟩
  exact Only.after ht.only rfl (Only.after (canSent_only _ _ _ _) rfl (hwon.mono rfl))

theorem runs_attempt_parity : Runs (.canTxAttemptEnd k b .parity none age) s fun t =>
    memGet t.can[k].ram (txOff b.val + 16) = 5 ∧ bit t.can[k].txPend b.val = false ∧
    (∀ j : Fin 4, j ≠ k → t.can[j] = s.can[j]) ∧ Only [.can, .evr, .imz] s t := by
  refine runs_canTxAttemptEnd_lost hclosed (.inl rfl) fun t ht => ?_
  rw [canAttempt_parity hatt] at ht
  obtain ⟨hres, hpend⟩ := canComplete_completed k b (result := 5) (by decide) s
  rw [ht.can]
  exact ⟨hres, hpend, fun j hj => canComplete_can_other hj _ _ _,
    Only.after ht.only rfl ((canComplete_only _ _ _ _).mono rfl)⟩

variable (hkeep : bit s.can[k].abortReq b.val = false) (harb : s.can[k].txArbCnt b.val = true)
include hkeep harb

theorem runs_attempt_dropped (hcount : s.can[k].failures b.val < 31) (hlast : s.can[k].txRetry b.val ≤ s.can[k].failures b.val) :
    Runs (.canTxAttemptEnd k b .lost none age) s fun t =>
      memGet t.can[k].ram (txOff b.val + 16) = 3 ∧ bit t.can[k].txPend b.val = false ∧
      Raised ⟨38 + k.val, by omega⟩ (put 0 4 6 ||| put 4 4 s.can[k].st ||| put 8 8 b.val) s t ∧ Only [.can, .evr, .imz] s t := by
  refine runs_canTxAttemptEnd_lost hclosed (.inr rfl) fun t ht => ?_
  rw [canAttempt_lost hatt, harb, canFail_counted hkeep hcount, if_pos hlast] at ht
  obtain ⟨hres, hpend⟩ := canComplete_completed k b (result := 3) (by decide) (s.setCan k fun c => c.setAttempt b.val false true)
  have hraised := canEvent_raised k 6 b.val ((s.setCan k fun c => c.setAttempt b.val false true).setCan k (Can.completed b.val 3))
  rw [State.setCan_can_self, State.setCan_can_self] at hraised
  refine ⟨by rw [ht.can]; exact hres, by rw [ht.can]; exact hpend, ?_, ?_⟩
  · exact (congrArg (fun e : Evr => e.srcs[(⟨38 + k.val, by omega⟩ : Fin 512)]) (ht.only.same .evr rfl)).trans hraised
  · exact Only.after ht.only rfl (Only.after (canComplete_only _ _ _ _) rfl ((s.setCan_only _ _).mono rfl))

theorem runs_attempt_retried (hmore : s.can[k].failures b.val < s.can[k].txRetry b.val) :
    Runs (.canTxAttemptEnd k b .lost none age) s fun t => bit t.can[k].txPend b.val = true ∧
      t.can[k].failures b.val = s.can[k].failures b.val + 1 ∧ Only [.can, .imz] s t := by
  have hcount : s.can[k].failures b.val < 31 := by
    have hretry : s.can[k].txRetry b.val < 16 := Nat.mod_lt _ (by decide)
    omega
  refine runs_canTxAttemptEnd_lost hclosed (.inr rfl) fun t ht => ?_
  rw [canAttempt_lost hatt, harb, canFail_counted hkeep hcount, if_neg (Nat.not_le.mpr hmore)] at ht
  obtain ⟨hfail, -⟩ := setAttempt_failed s.can[k] hcount
  rw [ht.can, State.setCan_can_self]
  exact ⟨hatt.pend, hfail, Only.after ht.only rfl ((s.setCan_only _ _).mono rfl)⟩

end

/-- Settles O33: a request or a withdrawal of one buffer is `canRequest` or `canAbort`, and the end of an attempt is
`canAttempt`, with changes of IMZ's notices alone while nothing may be sent. -/
theorem transmitBuffersCompleteWithTheirResult : Obligations.TransmitBuffersCompleteWithTheirResult := by
  intro s k b src hpres
  refine ⟨fun h => ⟨fun hfree hquiet => ⟨runs_canTxRequest hpres h hfree hquiet, runs_canTxRequest_bad hpres h hfree hquiet⟩,
      fun hpend o => ⟨runs_canTxAbort hpres h hpend, runs_canTxAbort_onBus hpres h hpend⟩⟩,
    fun hsrc hb o x => runs_canTx_of_imz hpres hsrc hb, fun hpend hon hmode hclosed hkeep => ?_⟩
  have hatt : Attempts s k b := ⟨hpend, hon, hmode⟩
  exact ⟨runs_attempt_sent hatt hclosed, runs_attempt_parity hatt hclosed, fun age harb =>
    ⟨runs_attempt_dropped hatt hclosed age hkeep harb, runs_attempt_retried hatt hclosed age hkeep harb⟩⟩

end Sys2Proof.Machine
end

section
/-! Proofs about the modes of the CAN controllers, what they receive, and the errors that they detect (R301, R305, R309, R312
to R316). -/
namespace Sys2Proof.Machine

open Sys2Proof

/-! ### Modes (R305) -/

section
variable {s : State} {k : Fin 4} {src : Source}

theorem canAbort_pend (k : Fin 4) (b i : Fin 32) (s : State) : bit (canAbort k none s b).can[k].txPend i.val =
    (bit s.can[k].txPend i.val && decide (i ≠ b)) := by
  have hother : bit (s.can[k].txPend &&& ~~~(bufBit b.val)) i.val = (bit s.can[k].txPend i.val && decide (i ≠ b)) := by
    have hbit : (bufBit b.val).getLsbD i.val = decide (i = b) := bit_bufBit b i
    rw [bit, BitVec.getLsbD_and, BitVec.getLsbD_not, hbit, decide_eq_true i.isLt, Bool.true_and, ← decide_not]
    rfl
  unfold canAbort
  split
  case isTrue hp =>
    rw [if_neg (Option.some_ne_none b ∘ Eq.symm), canComplete_can_self]
    exact hother
  case isFalse hp =>
    by_cases hib : i = b
    · subst hib
      rw [Bool.eq_false_iff.mpr hp, Bool.false_and]
    · rw [decide_eq_true hib, Bool.and_true]

theorem canAbort_can_other {j : Fin 4} (h : j ≠ k) (o : Option (Fin 32)) (s : State) (b : Fin 32) :
    (canAbort k o s b).can[j] = s.can[j] := by
  unfold canAbort
  split
  · split
    · exact State.setCan_can_other _ _ _ _ h
    · exact canComplete_can_other h _ _ _
  · rfl

theorem canAbortAll_can_other {j : Fin 4} (h : j ≠ k) (o : Option (Fin 32)) (pick : Nat → Bool) (s : State) :
    (canAbortAll k o pick s).can[j] = s.can[j] := by
  refine foldl_keeps (fun u => u.can[j]) (fun u b => ?_) _ s
  split
  · exact canAbort_can_other h _ _ _
  · rfl

theorem foldl_canAbort_pend (k : Fin 4) (i : Fin 32) (l : List (Fin 32)) (s : State) :
    bit (l.foldl (canAbort k none) s).can[k].txPend i.val = (bit s.can[k].txPend i.val && decide (i ∉ l)) := by
  induction l generalizing s with
  | nil => rw [decide_eq_true List.not_mem_nil, Bool.and_true]; rfl
  | cons b l ih =>
    rw [List.foldl_cons, ih, canAbort_pend, Bool.and_assoc, ← Bool.decide_and]
    simp only [List.mem_cons, not_or, ne_eq]

/-- With everything withdrawn and no frame on the bus no buffer is pending. -/
theorem canAbortAll_pend (k : Fin 4) (s : State) : (canAbortAll k none (fun _ => true) s).can[k].txPend = 0 := by
  have hall : canAbortAll k none (fun _ => true) s = (List.finRange 32).foldl (canAbort k none) s := rfl
  refine BitVec.eq_of_getLsbD_eq fun i hi => ?_
  have hbit := foldl_canAbort_pend k ⟨i, hi⟩ (List.finRange 32) s
  rw [decide_eq_false (fun h => h (List.mem_finRange _)), Bool.and_false] at hbit
  rw [hall]
  exact hbit.trans BitVec.getLsbD_zero.symm

theorem canAbortAll_modeReq (k : Fin 4) (o : Option (Fin 32)) (pick : Nat → Bool) (s : State) :
    (canAbortAll k o pick s).can[k].modeReq = s.can[k].modeReq := by
  have habort : ∀ (u : State) (b : Fin 32), (canAbort k o u b).can[k].modeReq = u.can[k].modeReq := by
    intro u b
    unfold canAbort
    split
    · split
      · rw [State.setCan_can_self]
      · rw [canComplete_can_self]
        rfl
    · rfl
  refine foldl_keeps (fun u => u.can[k].modeReq) (fun u b => ?_) _ s
  split
  · exact habort u b
  · rfl

theorem canEnterMode_off (h : s.can[k].mode ≠ 0) : canEnterMode k 0 s =
    (canAbortAll k none (fun _ => true) (s.setCan k fun c => { c with modeReq := none })).setCan k fun c =>
      { c with mode := 0, st := 0, alone := false, ackErrs := 0 } := by
  unfold canEnterMode
  dsimp only
  rw [if_neg (Ne.symm h), if_pos rfl]

theorem State.setCan_congr {f g : Can → Can} (h : f s.can[k] = g s.can[k]) : s.setCan k f = s.setCan k g := by
  rw [State.setCan, h, State.setCan]

theorem canEnterMode_from_off {m : Nat} (hoff : s.can[k].mode = 0) (hm : m ≠ 0) : canEnterMode k m s = s.setCan k fun c =>
    { c with modeReq := none, mode := m, st := if canTxMode m then 1 else 2, tec := 0, recv := 0,
             alone := c.alone && m == 1, ackErrs := 0 } := by
  unfold canEnterMode
  dsimp only
  rw [hoff, if_neg hm, if_neg hm, State.setCan_setCan]
  refine State.setCan_congr ?_
  simp only [hoff, beq_self_eq_true, Bool.true_or, Bool.and_true, if_true]

/-- A mode takes effect on its controller, and on the transceiver's standby contact. -/
theorem canSetMode_can (k : Fin 4) (m : Nat) (s : State) : (canSetMode k m s).can = (canEnterMode k m s).can := rfl

theorem canSetMode_stb (k : Fin 4) (m : Nat) (s : State) : (canSetMode k m s).sys.pins.canStb[k] =
    ((canEnterMode k m s).can[k].mode == 0 || (canEnterMode k m s).can[k].mode == 4) :=
  Vector.getElem_set_self k.isLt

theorem canModeChange_of_request {m : Nat} (hreq : s.can[k].modeReq = some m) :
    exec (.canModeChange k) s = .next (canSetMode k m s) := by
  change Host.Outcome.next _ = _
  rw [hreq]

theorem runs_canModeWrite (hpres : canPresent s k = true) {m : BitVec 3} (hm : m ≠ 7) : Runs (.canModeWrite src k m) s fun t =>
    t.can[k] = { s.can[k] with modeReq := some m.toNat } ∧ (∀ j : Fin 4, j ≠ k → t.can[j] = s.can[j]) ∧ Only [.can] s t := by
  have hwrite : (canModeWrite src k m s).2 = s.setCan k fun c => { c with modeReq := some m.toNat } := by
    rw [canModeWrite, hpres, Bool.not_true, if_neg Bool.false_ne_true, if_neg hm]
  refine .of_next (congrArg Host.Outcome.next hwrite) ?_
  exact ⟨State.setCan_can_self _ _ _, fun j hj => State.setCan_can_other _ _ _ _ hj, s.setCan_only _ _⟩

theorem runs_canModeWrite_bad (hpres : canPresent s k = true) {m : BitVec 3} (hm : m = 7) :
    Runs (.canModeWrite src k m) s fun t => t.sys.werr.reason = 9 ∧ Only [.sys] s t := by
  have hwrite : (canModeWrite src k m s).2 = logWerr 9 src (canAddr k 0) s := by
    rw [canModeWrite, hpres, Bool.not_true, if_neg Bool.false_ne_true, if_pos hm]
  exact .of_next (congrArg Host.Outcome.next hwrite) ⟨rfl, logWerr_only _ _ _ _⟩

theorem runs_canModeChange_off (hreq : s.can[k].modeReq = some 0) (hmode : s.can[k].mode ≠ 0) :
    Runs (.canModeChange k) s fun t => t.can[k].mode = 0 ∧ t.can[k].st = 0 ∧ t.can[k].txPend = 0 ∧ t.can[k].alone = false ∧
      t.can[k].modeReq = none ∧ t.sys.pins.canStb[k] = true ∧ (∀ j : Fin 4, j ≠ k → t.can[j] = s.can[j]) ∧
      Only [.sys, .can, .evr] s t := by
  refine .of_next (canModeChange_of_request hreq) ?_
  have hkept : (canAbortAll k none (fun _ => true) (s.setCan k fun c => { c with modeReq := none })).can[k].modeReq = none :=
    (canAbortAll_modeReq _ _ _ _).trans (congrArg Can.modeReq (State.setCan_can_self s k _))
  refine ⟨?_, ?_, ?_, ?_, ?_, ?_, fun j hj => ?_, ?_⟩
  case refine_6 => rw [canSetMode_stb, canEnterMode_off hmode, State.setCan_can_self]; rfl
  case refine_7 =>
    rw [canSetMode_can, canEnterMode_off hmode, State.setCan_can_other _ _ _ _ hj, canAbortAll_can_other hj,
      State.setCan_can_other _ _ _ _ hj]
  case refine_8 => exact (canSetMode_only _ _ _).mono rfl
  all_goals rw [canSetMode_can, canEnterMode_off hmode, State.setCan_can_self]
  · exact canAbortAll_pend _ _
  · exact hkept

theorem runs_canModeChange_on {m : Nat} (hreq : s.can[k].modeReq = some m) (hoff : s.can[k].mode = 0) (hm : m ≠ 0) (hcrumb : m ≠ 4) :
    Runs (.canModeChange k) s fun t => t.can[k].mode = m ∧ t.can[k].st = (if canTxMode m then 1 else 2) ∧ t.can[k].tec = 0 ∧
      t.can[k].recv = 0 ∧ t.can[k].txPend = s.can[k].txPend ∧ t.sys.pins.canStb[k] = false ∧
      (∀ j : Fin 4, j ≠ k → t.can[j] = s.can[j]) ∧ Only [.sys, .can] s t := by
  refine .of_next (canModeChange_of_request hreq) ?_
  have hcan := (canSetMode_can k m s).trans (congrArg State.can (canEnterMode_from_off hoff hm))
  rw [hcan, State.setCan_can_self]
  refine ⟨rfl, rfl, rfl, rfl, rfl, ?_, fun j hj => State.setCan_can_other _ _ _ _ hj, ?_⟩
  · rw [canSetMode_stb, canEnterMode_from_off hoff hm, State.setCan_can_self]
    simp only [beq_eq_false_iff_ne.mpr hm, beq_eq_false_iff_ne.mpr hcrumb, Bool.or_self]
  · rw [canSetMode, canEnterMode_from_off hoff hm]
    exact Only.after (canStandby_only _ _) rfl ((s.setCan_only _ _).mono rfl)

/-! ### Integration and bus-off (R305, R313) -/

/-- The error state stands where the counters agree with it. -/
theorem canState_of_agreed (h : (if s.can[k].onBus then (if 127 < s.can[k].tec ∨ 127 < s.can[k].recv then 3 else 2)
    else s.can[k].st) = s.can[k].st) : canState k s = s := if_pos h

theorem runs_canIntegrated (hst : s.can[k].st = 1) (htec : s.can[k].tec ≤ 127) (hrecv : s.can[k].recv ≤ 127) :
    Runs (.canIntegrated k) s fun t => t.can[k] = { s.can[k] with st := 2 } ∧ Only [.can] s t := by
  refine .of_guard rfl hst ?_
  rw [canState_of_agreed ?_]
  · exact ⟨State.setCan_can_self _ _ _, s.setCan_only _ _⟩
  · rw [State.setCan_can_self]
    have hlow : ¬ (127 < s.can[k].tec ∨ 127 < s.can[k].recv) := by omega
    simp only [Can.onBus, hlow, if_false, ite_self]

theorem runs_canBusoffRecovered (h : s.can[k].st = 4 ∨ s.can[k].st = 5) : Runs (.canBusoffRecovered k) s fun t =>
    t.can[k] = { s.can[k] with st := 2, tec := 0, recv := 0 } ∧
    Raised ⟨38 + k.val, by omega⟩ (put 0 4 3 ||| put 4 4 2) s t ∧ Only [.can, .evr] s t := by
  refine .of_guard rfl h ⟨?_, ?_, Only.after (canEvent_only _ _ _ _) rfl ((s.setCan_only _ _).mono rfl)⟩
  · rw [canEvent_can, State.setCan_can_self]
  · have hraised := canEvent_raised k 3 0 (s.setCan k fun c => { c with st := 2, tec := 0, recv := 0 })
    rw [State.setCan_can_self] at hraised
    have hword : put 0 4 3 ||| put 4 4 2 ||| put 8 8 0 = put 0 4 3 ||| put 4 4 2 := by decide
    rwa [hword] at hraised

end

/-! ### The dominant time-out (R316) -/

/-- Every controller has in `t` the mode that it has in `s`. -/
def ModesKept (s t : State) : Prop := ∀ j : Fin 4, t.can[j].mode = s.can[j].mode

section
variable {s t u : State}

theorem ModesKept.refl (s : State) : ModesKept s s := fun _ => rfl

theorem ModesKept.trans (h : ModesKept s t) (g : ModesKept t u) : ModesKept s u := fun j => (g j).trans (h j)

theorem ModesKept.of_can (h : t.can = s.can) : ModesKept s t := fun j => by rw [h]

theorem ModesKept.of_only {l : List Part} (h : Only l s t) (hl : l.contains .can = false) : ModesKept s t :=
  .of_can (h.same .can hl)

theorem ModesKept.foldl {α : Type} {g : State → α → State} (h : ∀ u x, ModesKept u (g u x)) (l : List α) (s : State) :
    ModesKept s (l.foldl g s) := by
  induction l generalizing s with
  | nil => exact .refl s
  | cons x l ih => exact (h s x).trans (ih _)

theorem setCan_modesKept (k : Fin 4) {f : Can → Can} (s : State)
    (hf : ∀ c, (f c).mode = c.mode := by intro; rfl) : ModesKept s (s.setCan k f) := by
  intro j
  by_cases hj : j = k
  · subst hj
    rw [State.setCan_can_self, hf]
  · rw [State.setCan_can_other _ _ _ _ hj]

theorem canComplete_modesKept (k : Fin 4) (b result : Nat) (s : State) : ModesKept s (canComplete k b result s) :=
  (setCan_modesKept k (f := Can.completed b result) s).trans (.of_can (canComplete_can k b result s))

theorem canAbort_modesKept (k : Fin 4) (o : Option (Fin 32)) (s : State) (b : Fin 32) : ModesKept s (canAbort k o s b) := by
  unfold canAbort
  split
  · split
    · exact setCan_modesKept k s
    · exact canComplete_modesKept _ _ _ _
  · exact .refl s

theorem canAbortAll_modesKept (k : Fin 4) (o : Option (Fin 32)) (pick : Nat → Bool) (s : State) :
    ModesKept s (canAbortAll k o pick s) := by
  refine .foldl (fun u b => ?_) _ s
  split
  · exact canAbort_modesKept _ _ _ _
  · exact .refl u

theorem canRequest_modesKept (k : Fin 4) (b : Fin 32) (s : State) : ModesKept s (canRequest k s b) := by
  unfold canRequest
  split
  · exact .refl s
  · dsimp only
    split
    · exact (setCan_modesKept k s).trans (canComplete_modesKept _ _ _ _)
    · exact (setCan_modesKept k s).trans (setCan_modesKept k _)

theorem canSubmit_modesKept (k : Fin 4) (f : OutFrame) (s : State) : ModesKept s (canSubmit k f s) := by
  unfold canSubmit
  dsimp only
  split
  · exact .refl s
  · split
    · exact .refl s
    · exact (setCan_modesKept k s).trans (canRequest_modesKept _ _ _)

theorem imzUp_modesKept (f : OutFrame) (s : State) : ModesKept s (imzUp f s) := by
  unfold imzUp
  split
  · exact .refl s
  · exact (canSubmit_modesKept _ _ s).trans (canSubmit_modesKept _ _ _)

theorem imzDown_modesKept (f : OutFrame) (s : State) : ModesKept s (imzDown f s) := by
  unfold imzDown
  split
  · exact (canSubmit_modesKept _ _ s).trans (canSubmit_modesKept _ _ _)
  · exact .refl s

theorem imzToward_modesKept (down : Bool) (cls typ : Nat) (d : List Byte) (s : State) :
    ModesKept s (imzToward down cls typ d s) := by
  unfold imzToward imzSendDown imzSendUp
  split
  · split
    · exact imzDown_modesKept _ _
    · exact .refl s
  · split
    · exact imzUp_modesKept _ _
    · exact .refl s

theorem bareSend_modesKept (f : OutFrame) (s : State) : ModesKept s (bareSend f s) := by
  unfold bareSend
  split
  · exact (canSubmit_modesKept _ _ s).trans (canSubmit_modesKept _ _ _)
  · exact .refl s

theorem rcpRsp_modesKept (node : Half) (s : State) : ModesKept s (rcpRsp node s) := by
  unfold rcpRsp
  split
  · exact .refl s
  · dsimp only
    split
    · exact bareSend_modesKept _ s.drew
    · exact imzToward_modesKept _ _ _ _ s.drew

theorem rcpEnd_modesKept (op code detail : Nat) (s : State) : ModesKept s (rcpEnd op code detail s) :=
  .of_only (rcpEnd_only op code detail s) rfl

theorem swapFinish_modesKept (code : Nat) (s : State) : ModesKept s (swapFinish code s) := by
  unfold swapFinish
  dsimp only
  split
  · exact (rcpEnd_modesKept _ _ _ (s.setRcp _)).trans (rcpRsp_modesKept _ _)
  · exact rcpEnd_modesKept _ _ _ (s.setRcp _)

theorem swapAbort_modesKept (s : State) : ModesKept s (swapAbort s) := by
  unfold swapAbort
  split
  · exact swapFinish_modesKept _ _
  · exact .refl s

theorem beatOn_modesKept (k : Fin 4) (dormant fault : Bool) (s : State) : ModesKept s (beatOn k dormant fault s) := by
  unfold beatOn
  split
  · exact .refl s
  · exact canSubmit_modesKept _ _ (s.setImz _)

theorem imzBeat_modesKept (dormant fault : Bool) (s : State) : ModesKept s (imzBeat dormant fault s) := by
  have hpair : ∀ (i j : Fin 4) (u : State), ModesKept u (beatOn j dormant fault (beatOn i dormant fault u)) :=
    fun i j u => (beatOn_modesKept _ _ _ u).trans (beatOn_modesKept _ _ _ _)
  unfold imzBeat
  dsimp only
  split
  · split
    · split
      · exact hpair 2 3 (s.setImz _)
      · exact (hpair 0 1 (s.setImz _)).trans (hpair 2 3 _)
    · split
      · exact .refl s
      · exact hpair 0 1 (s.setImz _)
  · exact .refl s

theorem lastBeat_modesKept (s : State) : ModesKept s (lastBeat s) := by
  unfold lastBeat
  refine ModesKept.trans ?_ (imzBeat_modesKept _ _ _)
  refine ModesKept.trans ?_ (.of_only (State.drew_only _) rfl)
  exact .foldl (fun u k => canAbortAll_modesKept k (canOnBus s k) _ u) _ s

theorem safeEntry_modesKept (cause : Nat) (s : State) : ModesKept s (safeEntry cause s) := by
  have hfault : ModesKept s (if pairHolds s then faultFrame cause s else s) := by
    split
    · exact .of_only (faultFrame_only cause s) rfl
    · exact .refl s
  have hlast : ∀ u : State, ModesKept u (if s.standby then u else lastBeat u) := fun u => by
    split
    · exact .refl u
    · exact lastBeat_modesKept u
  have hend : ∀ u : State, ModesKept u (if s.isPaired then aoEndSpell u else u) := fun u => by
    split
    · exact .of_only (aoEndSpell_only u) rfl
    · exact .refl u
  have hout : ∀ u : State, ModesKept u (if s.isPaired then letGo u else driveSafe u) := fun u => by
    split
    · exact .of_only (letGo_only u) rfl
    · exact .of_only (driveSafe_only u) rfl
  have hdark : ∀ u v : State, ModesKept v (restat (pnlCut (cellNotify u (uiQuiet v)))) := fun u v =>
    ((ModesKept.of_only (uiQuiet_only v) rfl).trans (.of_only (cellNotify_only u _) rfl)).trans
      ((ModesKept.of_only (pnlCut_only _) rfl).trans (.of_only (restat_only _) rfl))
  unfold safeEntry
  dsimp only
  refine (hfault.trans (swapAbort_modesKept _)).trans ((hlast _).trans ?_)
  refine (ModesKept.of_only (dioMark_only _) rfl).trans ((hend _).trans ?_)
  exact (ModesKept.of_only (safeMode_only _) rfl).trans ((hout _).trans (hdark _ _))

theorem moduleFault_modesKept (block cell cause : Nat) (s : State) : ModesKept s (moduleFault block cell cause s) := by
  have hrec : ModesKept s (recordFault 3 block cell cause s) := .of_only (recordFault_only _ _ _ _ s) rfl
  unfold moduleFault
  extract_lets s1 _ _ s2
  have hlatch : ModesKept s s2 := hrec.trans (.of_can rfl)
  split
  · exact hlatch
  · exact hlatch.trans (safeEntry_modesKept cause s2)

/-- One controller as a reset of LNK leaves it: OFF, with the buffers that were pending kept (R308). -/
def canCut (s : State) (k : Fin 4) : State := (canReset k s).setCan k fun c => { c with kept := s.can[k].txPend }

theorem canReset_off (k : Fin 4) (s : State) : (canReset k s).can[k].mode = 0 := by
  have hcan : (canReset k s).can = (s.setCan k fun _ => { ram := s.can[k].ram, offs := s.can[k].offs }).can := rfl
  rw [hcan, State.setCan_can_self]

theorem canReset_can_other {k j : Fin 4} (h : j ≠ k) (s : State) : (canReset k s).can[j] = s.can[j] := by
  have hcan : (canReset k s).can = (s.setCan k fun _ => { ram := s.can[k].ram, offs := s.can[k].offs }).can := rfl
  rw [hcan, State.setCan_can_other _ _ _ _ h]

theorem canCut_off (j k : Fin 4) (s : State) (h : j = k ∨ s.can[j].mode = 0) : (canCut s k).can[j].mode = 0 := by
  by_cases hj : j = k
  · subst hj
    rw [canCut, State.setCan_can_self]
    exact canReset_off j s
  · rw [canCut, State.setCan_can_other _ _ _ _ hj, canReset_can_other hj]
    exact h.resolve_left hj

theorem foldl_canCut_off (j : Fin 4) (l : List (Fin 4)) (s : State) (h : j ∈ l ∨ s.can[j].mode = 0) :
    (l.foldl canCut s).can[j].mode = 0 := by
  induction l generalizing s with
  | nil => exact h.resolve_left List.not_mem_nil
  | cons k l ih =>
    refine ih _ ?_
    rcases h with hmem | hoff
    · exact (List.mem_cons.mp hmem).symm.imp_right fun hjk => canCut_off j k s (.inl hjk)
    · exact .inr (canCut_off j k s (.inr hoff))

/-- A reset of LNK leaves every controller OFF (R308). -/
theorem lnkReset_off (j : Fin 4) (s : State) : (lnkReset s).can[j].mode = 0 := by
  have hcan : (lnkReset s).can = (timEnter .free ((List.finRange 4).foldl canCut (laneDown 1 (laneDown 0 s)))).can := rfl
  rw [hcan, (timEnter_only _ _).same .can rfl]
  exact foldl_canCut_off j _ _ (.inl (List.mem_finRange j))

theorem regionReset_lnk_off (block cell cause : Nat) (j : Fin 4) (s : State) :
    (regionReset rLNK block cell cause s).can[j].mode = 0 := lnkReset_off j _

theorem regionFault_lnk_off (block cell cause : Nat) (j : Fin 4) (s : State) :
    (regionFault rLNK block cell cause s).can[j].mode = 0 := by
  have hreset := regionReset_lnk_off block cell cause j s
  unfold regionFault
  dsimp only
  split
  · exact hreset
  · exact (moduleFault_modesKept _ _ _ _ j).trans hreset

/-- A block fault of a controller leaves an OFF controller OFF. -/
theorem blockFault_can_off {k : Fin 4} (cell cause : Nat) {j : Fin 4} (hoff : s.can[j].mode = 0) :
    (blockFault (canBlock k) cell cause s).can[j].mode = 0 := by
  have hregion : ∀ k : Fin 4, blockRegion (BitVec.ofNat 6 (canBlock k)) = some rLNK := by decide
  have hrec : (recordFault 1 (canBlock k) cell cause s).can = s.can := (recordFault_only _ _ _ _ s).same .can rfl
  unfold blockFault
  dsimp only
  rw [hregion k]
  dsimp only
  split
  · exact (congrArg (fun v : Vector Can 4 => v[j].mode) hrec).trans hoff
  · exact regionFault_lnk_off _ _ _ j _

theorem cellFault_can_off {k : Fin 4} (cell cause : Nat) {j : Fin 4} (hoff : s.can[j].mode = 0) :
    (cellFault (canBlock k) cell cause s).can[j].mode = 0 := by
  have hnotify : ∀ u v : State, (cellNotify u v).can = v.can := fun u v => (cellNotify_only u v).same .can rfl
  have hisolate : ∀ u : State, (cellIsolate (canBlock k) cell u).can = u.can := fun u => (cellIsolate_only _ _ u).same .can rfl
  rw [cellFault, hnotify, hisolate]
  exact blockFault_can_off cell cause hoff

theorem canHears_mode {k : Fin 4} (h : canHears s k = true) : s.can[k].mode ≠ 0 := by
  simp only [canHears, Bool.and_eq_true, bne_iff_ne] at h
  obtain ⟨⟨-, hmode⟩, -⟩ := h
  exact hmode

theorem runs_canDominantTimeout {k : Fin 4} (h : canHears s k = true) : Runs (.canDominantTimeout k) s fun t =>
    t.can[k].mode = 0 ∧ isIsolated (canBlock k) 0 t = true := by
  refine .of_guard rfl h ⟨cellFault_can_off 0 _ ?_, cellFault_isIsolated _ _ _ _⟩
  have hmode : s.drew.can[k].mode ≠ 0 := canHears_mode h
  rw [canEvent_can, canSetMode_can, canEnterMode_off hmode, State.setCan_can_self]

end

/-- Settles O34: a mode takes effect by `canEnterMode`, and nothing that a block fault of a controller leads to turns an OFF
controller on (`blockFault_can_off`). -/
theorem controllersChangeModeAndState : Obligations.ControllersChangeModeAndState := by
  intro s k src hpres
  refine ⟨fun m => ⟨runs_canModeWrite hpres, runs_canModeWrite_bad hpres⟩, runs_canModeChange_off, fun m hm hreq hoff => ?_,
    fun hreq hoff => ?_, runs_canIntegrated, fun h => .of_not_guard rfl h rfl, runs_canBusoffRecovered, runs_canDominantTimeout⟩
  · obtain ⟨htx, hzero, hcrumb⟩ : canTxMode m = true ∧ m ≠ 0 ∧ m ≠ 4 := by rcases hm with rfl | rfl | rfl <;> decide
    have hon := runs_canModeChange_on hreq hoff hzero hcrumb
    rwa [htx, if_pos rfl] at hon
  · obtain ⟨t, hnext, hmode, hst, -, -, -, hstb, -, honly⟩ := runs_canModeChange_on hreq hoff (by decide) (by decide)
    exact ⟨t, hnext, hmode, hst, hstb, honly⟩

end Sys2Proof.Machine
end

section
/-! Proofs about what the CAN controllers receive and the errors they detect (R301, R309, R312 to R314). -/
namespace Sys2Proof.Machine

open Sys2Proof

/-! ### An error-free frame (R309, R312, R313, R315) -/

section
variable {s : State} {k : Fin 4}

theorem imzLive_congr {s t : State} (hsys : t.sys = s.sys) : imzLive t = imzLive s := by
  simp only [imzLive, regionUp, State.bare, hsys]

theorem bareFrame_of_loaded (hbare : s.bare = false) (k : Fin 4) : bareFrame k s = s := by
  have hrates : bareRatesFound s = s := if_neg fun h => Bool.false_ne_true (hbare.symm.trans h.1)
  unfold bareFrame
  split
  · dsimp only
    rw [hbare, if_neg Bool.false_ne_true, hrates]
  · rfl

theorem bareErrorOn_of_loaded (hbare : s.bare = false) (k : Fin 4) : bareErrorOn k s = s := by
  unfold bareErrorOn
  split
  · exact if_neg fun h => Bool.false_ne_true (hbare.symm.trans h.1)
  · rfl

/-- What a write leaves of the controllers depends on the controllers alone. -/
theorem State.setCan_can_of_can_eq {t : State} (hcan : t.can = s.can) (k : Fin 4) (f : Can → Can) :
    (t.setCan k f).can = (s.setCan k f).can := by
  unfold State.setCan
  dsimp only
  rw [hcan]

theorem canState_drew_can (k : Fin 4) (f : Can → Can) (s : State) :
    ∃ n, (canState k (s.setCan k f).drew).can = (s.setCan k fun c => { f c with st := n }).can := by
  obtain ⟨n, hcan⟩ := canState_can k (s.setCan k f).drew
  refine ⟨n, hcan.trans ?_⟩
  rw [State.setCan_can_of_can_eq (s := s.setCan k f) (t := (s.setCan k f).drew) rfl, State.setCan_setCan]

theorem canRecDown_can (k : Fin 4) (s : State) :
    ∃ r n, (canRecDown k s).can = (s.setCan k fun c => { c with recv := r, st := n }).can := by
  unfold canRecDown
  split
  · obtain ⟨n, hcan⟩ := canState_drew_can k (fun c => { c with recv := 119 + s.freeVal.toNat % 9 }) s
    exact ⟨_, n, hcan⟩
  · obtain ⟨n, hcan⟩ := canState_can k (s.setCan k fun c => { c with recv := c.recv - 1 })
    refine ⟨s.can[k].recv - 1, n, hcan.trans ?_⟩
    rw [State.setCan_setCan]
    exact congrArg State.can (State.setCan_congr rfl)

/-- A controller that has heard an error-free frame: ALONE has ended and the receive counter has fallen. -/
def canHeard (k : Fin 4) (s : State) : State := canRecDown k (canAloneEnd k s)

theorem canHeard_only (k : Fin 4) (s : State) : Only [.can, .evr, .drawn] s (canHeard k s) :=
  Only.after (canRecDown_only _ _) rfl ((canAloneEnd_only _ _).mono rfl)

theorem canHeard_can (k : Fin 4) (s : State) : ∃ r n, (canHeard k s).can =
    (s.setCan k fun c => { c with ackErrs := 0, alone := false, recv := r, st := n }).can := by
  obtain ⟨r, n, hcan⟩ := canRecDown_can k (canAloneEnd k s)
  refine ⟨r, n, ?_⟩
  rw [canHeard, hcan, State.setCan_can_of_can_eq (canAloneEnd_can k s), State.setCan_setCan]

theorem canHeard_can_other {j : Fin 4} (h : j ≠ k) (s : State) : (canHeard k s).can[j] = s.can[j] := by
  obtain ⟨r, n, hcan⟩ := canHeard_can k s
  rw [hcan, State.setCan_can_other _ _ _ _ h]

theorem canHeard_can_self (k : Fin 4) (s : State) :
    ∃ r n, (canHeard k s).can[k] = { s.can[k] with ackErrs := 0, alone := false, recv := r, st := n } := by
  obtain ⟨r, n, hcan⟩ := canHeard_can k s
  exact ⟨r, n, by rw [hcan, State.setCan_can_self]⟩

theorem canReceive_of_loaded (hbare : s.bare = false) (f : CanFrame) (age : Nat) (p : Bool) : canReceive k f age p s =
    if f.base || f.remote then (canHeard k s).setCan k fun c => { c with cntForeign := satInc 255 c.cntForeign }
    else if p then (canHeard k s).setCan k fun c => { c with rxParity := satInc 255 c.rxParity }
    else imzIntake k f age (canStore k false f age (canHeard k s)) := by
  have hsys : (canHeard k s).sys = s.sys := (canHeard_only k s).same .sys rfl
  have hbare' : (canHeard k s).bare = false := by rwa [State.bare, hsys]
  unfold canReceive
  dsimp only
  rw [show canRecDown k (canAloneEnd k s) = canHeard k s from rfl, bareFrame_of_loaded hbare']

/-- A frame enters the ring at the head, marked new for the hosts and for IMZ. -/
theorem canStore_stored (k : Fin 4) (own : Bool) (f : CanFrame) (age : Nat) (s : State) :
    (∃ ram, (canStore k own f age s).can[k] = { s.can[k] with
      ram := ram, rxNew := s.can[k].rxNew ||| BitVec.ofNat 64 (2 ^ s.can[k].head), imzNew := s.can[k].imzNew ||| BitVec.ofNat 64 (2 ^ s.can[k].head),
      head := (s.can[k].head + 1) % 64, frames := s.can[k].frames + 1,
      hostOvr := if s.can[k].rxNew.getLsbD s.can[k].head then satInc 0xFFFF s.can[k].hostOvr else s.can[k].hostOvr,
      imzOvr := if s.can[k].imzNew.getLsbD s.can[k].head then satInc 255 s.can[k].imzOvr else s.can[k].imzOvr }) ∧
    ∀ j : Fin 4, j ≠ k → (canStore k own f age s).can[j] = s.can[j] := by
  have hevent : ∀ (p : Prop) [Decidable p] (buf : Nat) (u : State), (if p then canEvent k 8 buf u else u).can = u.can := by
    intro p _ buf u
    split
    · exact canEvent_can _ _ _ _
    · rfl
  unfold canStore
  dsimp only
  rw [hevent]
  exact ⟨⟨_, State.setCan_can_self _ _ _⟩, fun j hj => State.setCan_can_other _ _ _ _ hj⟩

theorem imzIntake_of_not_live (h : imzLive s = false) (f : CanFrame) (age : Nat) : imzIntake k f age s = s := by
  unfold imzIntake
  dsimp only
  rw [h, Bool.not_false, if_pos rfl]

theorem runs_canFrameReceived (hears : canHears s k = true) (hbare : s.bare = false) {f : CanFrame} (age : Nat)
    (hbase : f.base = false) (hremote : f.remote = false) (hlive : imzLive s = false) :
    Runs (.canFrameReceived k f age false) s fun t =>
      t.can[k].head = (s.can[k].head + 1) % 64 ∧ t.can[k].frames = s.can[k].frames + 1 ∧
      t.can[k].rxNew = s.can[k].rxNew ||| BitVec.ofNat 64 (2 ^ s.can[k].head) ∧
      t.can[k].imzNew = s.can[k].imzNew ||| BitVec.ofNat 64 (2 ^ s.can[k].head) ∧ t.can[k].alone = false ∧
      t.can[k].hostOvr = (if (s.can[k].rxNew).getLsbD s.can[k].head then satInc 0xFFFF s.can[k].hostOvr else s.can[k].hostOvr) ∧
      (∀ j : Fin 4, j ≠ k → t.can[j] = s.can[j]) ∧ Only [.can, .evr, .drawn] s t := by
  refine .of_guard rfl hears ?_
  have hstore := canStore_only k false f age (canHeard k s)
  have hheard := canHeard_only k s
  have hlive' : imzLive (canStore k false f age (canHeard k s)) = false :=
    (imzLive_congr ((hstore.same .sys rfl).trans (hheard.same .sys rfl))).trans hlive
  rw [canReceive_of_loaded hbare, hbase, hremote, Bool.or_false, if_neg Bool.false_ne_true, if_neg Bool.false_ne_true,
    imzIntake_of_not_live hlive']
  obtain ⟨⟨ram, hself⟩, hothers⟩ := canStore_stored k false f age (canHeard k s)
  obtain ⟨r, n, hbefore⟩ := canHeard_can_self k s
  rw [hself, hbefore]
  exact ⟨rfl, rfl, rfl, rfl, rfl, rfl, fun j hj => (hothers j hj).trans (canHeard_can_other hj s),
    Only.after hstore rfl (hheard.mono rfl)⟩

theorem runs_canFrameReceived_foreign (hears : canHears s k = true) (hbare : s.bare = false) {f : CanFrame} (age : Nat) (p : Bool)
    (hforeign : f.base = true ∨ f.remote = true) : Runs (.canFrameReceived k f age p) s fun t =>
      t.can[k].cntForeign = satInc 255 s.can[k].cntForeign ∧ t.can[k].head = s.can[k].head ∧ t.can[k].ram = s.can[k].ram ∧
      Only [.can, .evr, .drawn] s t := by
  refine .of_guard rfl hears ?_
  obtain ⟨r, n, hbefore⟩ := canHeard_can_self k s
  rw [canReceive_of_loaded hbare, if_pos (Bool.or_eq_true_iff.mpr hforeign), State.setCan_can_self, hbefore]
  exact ⟨rfl, rfl, rfl, Only.after (State.setCan_only _ _ _) rfl (canHeard_only k s)⟩

theorem runs_canFrameReceived_parity (hears : canHears s k = true) (hbare : s.bare = false) {f : CanFrame} (age : Nat)
    (hbase : f.base = false) (hremote : f.remote = false) : Runs (.canFrameReceived k f age true) s fun t =>
      t.can[k].rxParity = satInc 255 s.can[k].rxParity ∧ t.can[k].head = s.can[k].head ∧ t.can[k].ram = s.can[k].ram ∧
      Only [.can, .evr, .drawn] s t := by
  refine .of_guard rfl hears ?_
  obtain ⟨r, n, hbefore⟩ := canHeard_can_self k s
  rw [canReceive_of_loaded hbare, hbase, hremote, Bool.or_false, if_neg Bool.false_ne_true, if_pos rfl, State.setCan_can_self, hbefore]
  exact ⟨rfl, rfl, rfl, Only.after (State.setCan_only _ _ _) rfl (canHeard_only k s)⟩

/-! ### Errors (R301, R313, R314) -/

/-- The controller with an error captured. -/
def Can.captured (field type : BitVec 4) (tx : Bool) (c : Can) : Can :=
  { c with errField := field.toNat, errType := type.toNat, errTx := tx }

theorem canCount_can {type : BitVec 4} {tx heavy : Bool} {g : Can → Can}
    (hg : (if tx then (if type = 5 ∧ s.can[k].st = 3 then s.can[k] else { s.can[k] with tec := s.can[k].tec + 8 })
      else { s.can[k] with recv := min 128 (s.can[k].recv + (if heavy then 8 else 1)) }) = g s.can[k])
    (hlow : (g s.can[k]).tec ≤ 255) : canCount k type tx heavy s = canState k (s.setCan k g) := by
  unfold canCount
  dsimp only
  rw [State.setCan_congr hg, State.setCan_can_self, if_neg (Nat.not_lt.mpr hlow)]

/-- An error other than a data-field bit error of an own frame is captured and counted, and no more where the module is not
in BARE. -/
theorem canErrored_of_loaded (hbare : s.bare = false) {field type : BitVec 4} (hplain : ¬ (field = 3 ∧ type = 1)) (tx heavy : Bool)
    (i : BitVec 29) : canErrored k field type tx heavy i s = canCount k type tx heavy (s.setCan k (Can.captured field type tx)) := by
  have hsys : (canCount k type tx heavy (s.setCan k (Can.captured field type tx))).sys = s.sys :=
    (canCount_only _ _ _ _ _).same .sys rfl
  have hbare' : (canCount k type tx heavy (s.setCan k (Can.captured field type tx))).bare = false := by rwa [State.bare, hsys]
  unfold canErrored
  dsimp only
  rw [if_neg fun h => hplain h.2]
  split
  · rfl
  · exact bareErrorOn_of_loaded hbare' k

theorem runs_canError {field type : BitVec 4} {tx heavy : Bool} {i : BitVec 29} {g : Can → Can} (hears : canHears s k = true)
    (hbare : s.bare = false) (htype : type ≠ 6) (hplain : ¬ (field = 3 ∧ type = 1))
    (hg : ∀ c : Can, c = Can.captured field type tx s.can[k] →
      (if tx then (if type = 5 ∧ c.st = 3 then c else { c with tec := c.tec + 8 })
        else { c with recv := min 128 (c.recv + (if heavy then 8 else 1)) }) = g c ∧ (g c).tec ≤ 255) :
    Runs (.canError k field type tx heavy i) s fun t =>
      (∃ n, t.can[k] = { g (Can.captured field type tx s.can[k]) with st := n }) ∧
      (∀ j : Fin 4, j ≠ k → t.can[j] = s.can[j]) ∧ Only [.can, .evr] s t := by
  have hself : (s.setCan k (Can.captured field type tx)).can[k] = Can.captured field type tx s.can[k] := State.setCan_can_self _ _ _
  obtain ⟨hcount, hlow⟩ := hg _ hself
  refine .of_guard rfl hears ?_
  rw [if_neg htype, canErrored_of_loaded hbare hplain, canCount_can hcount hlow, State.setCan_setCan]
  obtain ⟨n, hst⟩ := canState_can_self k (s.setCan k fun c => g (Can.captured field type tx c))
  rw [State.setCan_can_self] at hst
  exact ⟨⟨n, hst⟩, fun j hj => (canState_can_other _ _ hj).trans (State.setCan_can_other _ _ _ _ hj),
    Only.after (canState_only _ _) rfl ((s.setCan_only _ _).mono rfl)⟩

theorem runs_canError_exception {field : BitVec 4} {tx heavy : Bool} {i : BitVec 29} (hears : canHears s k = true)
    (hpxd : s.can[k].pxd = false) : Runs (.canError k field 6 tx heavy i) s fun t =>
      t.can[k] = { s.can[k] with cntPxe := satInc 255 s.can[k].cntPxe, st := 1 } ∧
      (∀ j : Fin 4, j ≠ k → t.can[j] = s.can[j]) ∧ Only [.can, .evr] s t := by
  have hexc : canException k s = s.setCan k fun c => { c with cntPxe := satInc 255 c.cntPxe, st := 1 } :=
    canState_of_agreed (by rw [State.setCan_can_self]; rfl)
  refine .of_guard rfl hears ?_
  rw [if_pos rfl, hpxd, if_neg Bool.false_ne_true, hexc]
  exact ⟨State.setCan_can_self _ _ _, fun j hj => State.setCan_can_other _ _ _ _ hj, (s.setCan_only _ _).mono rfl⟩

end

/-- Settles O35: an error-free frame makes of its controller what `canHeard` says and then stores or counts it, and an error is
captured and then counted by `canCount`. -/
theorem controllersReceiveAndCaptureErrors : Obligations.ControllersReceiveAndCaptureErrors := by
  intro s k hears hbare
  refine ⟨fun f age => runs_canFrameReceived hears hbare age, fun f age p => runs_canFrameReceived_foreign hears hbare age p,
    fun f age => runs_canFrameReceived_parity hears hbare age, fun field type heavy i htype hplain => ⟨fun hlow hact => ?_, fun hlow => ?_⟩,
    fun field tx heavy i => runs_canError_exception hears⟩
  · obtain ⟨t, hnext, ⟨n, hself⟩, hothers, honly⟩ := runs_canError (tx := true) (heavy := heavy) (i := i)
      (g := fun c => { c with tec := c.tec + 8 }) hears hbare htype hplain (by
        rintro c rfl
        exact ⟨by rw [if_pos rfl]; exact if_neg hact, hlow⟩)
    exact ⟨t, hnext, by rw [hself]; rfl, by rw [hself]; rfl, by rw [hself]; rfl, by rw [hself]; rfl, hothers, honly⟩
  · obtain ⟨t, hnext, ⟨n, hself⟩, hothers, honly⟩ := runs_canError (tx := false) (heavy := heavy) (i := i)
      (g := fun c => { c with recv := min 128 (c.recv + (if heavy then 8 else 1)) }) hears hbare htype hplain (by
        rintro c rfl
        exact ⟨rfl, hlow⟩)
    exact ⟨t, hnext, by rw [hself]; rfl, by rw [hself]; rfl, by rw [hself]; rfl, by rw [hself]; rfl, hothers, honly⟩

end Sys2Proof.Machine
end

section
/-! Proofs about the frames that IMZ submits to a controller (R306, R312, R318). -/
namespace Sys2Proof.Machine

open Sys2Proof

/-! ### Bytes stored where a memory holds none -/

/-- No byte of a memory is stored from address `a` on over `n` bytes. -/
def FreshAt (m : Memory) (a n : Nat) : Prop := ∀ p ∈ m, p.1 < a ∨ a + n ≤ p.1

section
variable {m : Memory} {a n : Nat}

theorem FreshAt.sub (h : FreshAt m a n) {b k : Nat} (hlow : a ≤ b) (hhigh : b + k ≤ a + n) : FreshAt m b k := by
  intro p hp
  rcases h p hp with hbelow | habove <;> omega

theorem freshAt_memZero (m : Memory) (a n : Nat) : FreshAt (memZero m a n) a n := by
  intro p hp
  have hout := (List.mem_filter.mp hp).2
  simp only [Bool.not_eq_true', Bool.and_eq_false_iff, decide_eq_false_iff_not] at hout
  omega

theorem FreshAt.memPut (h : FreshAt m a n) {b : Nat} (v : Byte) (hb : b < a ∨ a + n ≤ b) : FreshAt (memPut m b v) a n := by
  intro p hp
  unfold Machine.memPut tblPut at hp
  split at hp
  · exact h p (mem_tblDel _ _ _ hp)
  · rcases mem_tblIns _ _ _ _ hp with rfl | hp
    · exact hb
    · exact h p hp

theorem FreshAt.memFill (h : FreshAt m a n) {b : Nat} {l : List Byte} (hb : b + l.length ≤ a ∨ a + n ≤ b) :
    FreshAt (memFill m b l) a n := by
  induction l generalizing m b with
  | nil => exact h
  | cons v l ih =>
    rw [List.length_cons] at hb
    exact ih (h.memPut v (by omega)) (by omega)

theorem memGet_memPut_of_freshAt (h : FreshAt m a 1) (v : Byte) : memGet (memPut m a v) a = v := by
  by_cases hv : v = 0
  · rw [memGet, memPut, tblPut, if_pos hv, hv]
    refine tblGet_none _ _ _ fun p hp => ?_
    have := h p (mem_tblDel _ _ _ hp)
    omega
  · exact memGet_memPut_of_ne hv m a

theorem memGet_memFill_of_freshAt {l : List Byte} (h : FreshAt m a l.length) {i : Nat} (hi : i < l.length) :
    memGet (memFill m a l) (a + i) = l[i] := by
  induction l generalizing m a i with
  | nil => exact absurd hi (Nat.not_lt_zero i)
  | cons v l ih =>
    rw [List.length_cons] at h hi
    cases i with
    | zero =>
      rw [memFill, memGet_memFill_other _ _ _ _ (by omega)]
      exact memGet_memPut_of_freshAt (h.sub (Nat.le_refl a) (by omega)) v
    | succ i =>
      rw [memFill, show a + (i + 1) = a + 1 + i by omega]
      exact ih ((h.sub (by omega) (by omega) : FreshAt m (a + 1) l.length).memPut v (.inl (Nat.lt_succ_self a)))
        (Nat.lt_of_succ_lt_succ hi)

/-- A memory that reads a list from an address gives it as its bytes there. -/
theorem memBytes_of_get {l : List Byte} (h : ∀ i (hi : i < l.length), memGet m (a + i) = l[i]) : memBytes m a l.length = l := by
  refine List.ext_getElem (by simp [memBytes]) fun i hleft hright => ?_
  rw [← h i hright]
  simp [memBytes]

/-- A memory that reads the bytes of a number gives it back. -/
theorem memNat_of_get (v : Nat) (h : ∀ i (hi : i < (bytesLE n v).length), memGet m (a + i) = (bytesLE n v)[i]) :
    memNat m a n = v % 256 ^ n := by
  induction n generalizing a v with
  | zero => simp [memNat, Nat.mod_one]
  | succ n ih =>
    have hlen : (bytesLE (n + 1) v).length = n + 1 := by simp [bytesLE]
    have hfirst : memGet m a = BitVec.ofNat 8 v := by
      rw [← Nat.add_zero a, h 0 (by omega)]
      simp [bytesLE]
    have hrest : memNat m (a + 1) n = v / 256 % 256 ^ n := by
      refine ih _ fun i hi => ?_
      have hi' : i < n := by simpa [bytesLE] using hi
      rw [show a + 1 + i = a + (i + 1) by omega, h (i + 1) (by omega)]
      simp only [bytesLE, List.getElem_map, List.getElem_range]
      rw [Nat.div_div_eq_div_mul, show (256 : Nat) = 2 ^ 8 from rfl, ← Nat.pow_add, Nat.mul_add, Nat.add_comm]
    rw [memNat, hfirst, hrest, BitVec.toNat_ofNat, Nat.pow_succ' (m := 256), Nat.mod_mul]

end

/-! ### A frame in its buffer (R306, R312, R318) -/

/-- The first bytes of a transmit buffer: identifier, FDF, BRS and DLC, and RETRY. -/
def OutFrame.head (f : OutFrame) (retry : Nat) : List Byte :=
  bytesLE 4 f.id ++ [BitVec.ofNat 8 (lenDlc f.data.length + 0x30), BitVec.ofNat 8 (retry % 16)]

/-- A controller with a frame of IMZ in a buffer. -/
def Can.loaded (b : Nat) (f : OutFrame) (retry : Nat) (c : Can) : Can :=
  { c with ram := memFill (memFill (memZero c.ram (txOff b) 128) (txOff b) (f.head retry)) (txOff b + 24) f.data }

section
variable {s : State} {k : Fin 4} {f : OutFrame} {b : Nat} {retry : Nat} {c : Can}

theorem OutFrame.head_length (f : OutFrame) (retry : Nat) : (f.head retry).length = 6 := by simp [head, bytesLE]

/-- The lengths that a frame of the network can have (R312). -/
def OutFrame.sized (f : OutFrame) : Prop := f.data.length = 8 ∨ f.data.length = 16 ∨ f.data.length = 24 ∨ f.data.length = 32 ∨
  f.data.length = 48 ∨ f.data.length = 64

theorem OutFrame.sized.le (h : f.sized) : f.data.length ≤ 64 := by rcases h with h | h | h | h | h | h <;> omega

theorem dlcLen_of_sized (h : f.sized) : dlcLen true (lenDlc f.data.length) = f.data.length := by
  rcases h with h | h | h | h | h | h <;> rw [h] <;> rfl

theorem dlcByte_of_sized (h : f.sized) : fld (BitVec.ofNat 8 (lenDlc f.data.length + 0x30)) 0 4 = lenDlc f.data.length ∧
    bit (BitVec.ofNat 8 (lenDlc f.data.length + 0x30)) 4 = true := by
  rcases h with h | h | h | h | h | h <;> rw [h] <;> exact ⟨rfl, rfl⟩

theorem loaded_head (b : Nat) (retry : Nat) (c : Can) {i : Nat} (hi : i < (f.head retry).length) :
    memGet ((c.loaded b f retry).cleared b).ram (txOff b + i) = (f.head retry)[i] := by
  have hlen := f.head_length retry
  unfold Can.cleared Can.loaded
  dsimp only
  rw [memGet_memPut_other (by omega), memGet_memPut_other (by omega), memGet_memFill_other _ _ _ _ (by omega)]
  exact memGet_memFill_of_freshAt ((freshAt_memZero _ _ _).sub (Nat.le_refl _) (by omega)) hi

theorem loaded_data (h : f.sized) (b : Nat) (retry : Nat) (c : Can) {i : Nat} (hi : i < f.data.length) :
    memGet ((c.loaded b f retry).cleared b).ram (txOff b + 24 + i) = f.data[i] := by
  have hlen := f.head_length retry
  have hle := h.le
  unfold Can.cleared Can.loaded
  dsimp only
  rw [memGet_memPut_other (by omega), memGet_memPut_other (by omega)]
  exact memGet_memFill_of_freshAt (((freshAt_memZero c.ram (txOff b) 128).sub (by omega) (by omega)).memFill (.inl (by omega))) hi

theorem loaded_dlc (b : Nat) (f : OutFrame) (retry : Nat) (c : Can) :
    memGet ((c.loaded b f retry).cleared b).ram (txOff b + 4) = BitVec.ofNat 8 (lenDlc f.data.length + 0x30) :=
  loaded_head b retry c (by rw [f.head_length]; decide)

theorem loaded_txFdf (h : f.sized) (b : Nat) (retry : Nat) (c : Can) : ((c.loaded b f retry).cleared b).txFdf b = true := by
  rw [Can.txFdf, loaded_dlc]
  exact (dlcByte_of_sized h).2

theorem loaded_txId (hid : f.id < 2 ^ 29) (b : Nat) (retry : Nat) (c : Can) : ((c.loaded b f retry).cleared b).txId b = f.id := by
  have hnum : memNat ((c.loaded b f retry).cleared b).ram (txOff b) 4 = f.id % 256 ^ 4 := by
    refine memNat_of_get _ fun i hi => ?_
    rw [loaded_head b retry c (by rw [OutFrame.head, List.length_append]; omega)]
    exact List.getElem_append_left hi
  rw [Can.txId, hnum]
  omega

theorem loaded_txData (h : f.sized) (b : Nat) (retry : Nat) (c : Can) : ((c.loaded b f retry).cleared b).txData b = f.data := by
  rw [Can.txData, loaded_txFdf h, loaded_dlc, (dlcByte_of_sized h).1, dlcLen_of_sized h]
  exact memBytes_of_get fun i hi => loaded_data h b retry c hi

theorem freeBuf_free {b : Fin 32} (h : c.freeBuf = some b) : b.val < 28 ∧ bit c.txPend b.val = false := by
  have hfound := List.find?_some h
  rw [Bool.and_eq_true, decide_eq_true_eq, Bool.not_eq_true'] at hfound
  exact hfound

theorem canSubmit_of_free {b : Fin 32} (hmode : canTxMode s.can[k].mode = true) (hfree : s.can[k].freeBuf = some b) (f : OutFrame) :
    canSubmit k f s = canRequest k (s.setCan k (Can.loaded b.val f s.netRetry)) b := by
  unfold canSubmit
  dsimp only
  rw [hmode, Bool.not_true, if_neg Bool.false_ne_true, hfree]
  rfl

theorem canSubmit_of_none (h : canTxMode s.can[k].mode = false ∨ s.can[k].freeBuf = none) (f : OutFrame) : canSubmit k f s = s := by
  unfold canSubmit
  dsimp only
  split
  · rfl
  · next hmode =>
    rcases h with h | h
    · exact absurd (by rw [h]; rfl) hmode
    · rw [h]

/-- The controller that has taken a frame. -/
theorem canSubmit_loaded {b : Fin 32} (hmode : canTxMode s.can[k].mode = true) (hfree : s.can[k].freeBuf = some b)
    (hquiet : canQuiet s = false) (halone : s.can[k].alone = false) (hfd : s.can[k].fdEn = true) (f : OutFrame) :
    (canSubmit k f s).can[k] = { (s.can[k].loaded b.val f s.netRetry).cleared b.val with txPend := s.can[k].txPend ||| bufBit b.val } ∧
      Only [.can] s (canSubmit k f s) := by
  obtain ⟨hlow, hpend⟩ := freeBuf_free hfree
  have hself : (s.setCan k (Can.loaded b.val f s.netRetry)).can[k] = s.can[k].loaded b.val f s.netRetry := State.setCan_can_self _ _ _
  have hok : canBadId (s.setCan k (Can.loaded b.val f s.netRetry)) k b.val = false := by
    unfold canBadId
    dsimp only
    rw [hself, show (s.can[k].loaded b.val f s.netRetry).alone = false from halone,
      show (s.can[k].loaded b.val f s.netRetry).fdEn = true from hfd, decide_eq_false (Nat.not_le.mpr hlow)]
    simp only [Bool.false_and, Bool.or_self, Bool.not_true, Bool.and_false]
  rw [canSubmit_of_free hmode hfree, canRequest_of_free (by rw [hself]; exact hpend) (by rwa [canQuiet, State.setCan_sys]),
    if_neg (Bool.eq_false_iff.mp hok)]
  refine ⟨?_, ((s.setCan_only _ _).trans (State.setCan_only _ _ _)).mono rfl⟩
  rw [State.setCan_can_self, hself]
  rfl

end

/-- Settles O36: a submitted frame is `canSubmit_loaded`, whose bytes read back as they were stored. -/
theorem submittedFramesWaitInABuffer : Obligations.SubmittedFramesWaitInABuffer := by
  intro s k f
  refine ⟨fun b hmode hfree hquiet halone hfd hid hsized => ?_, fun h => canSubmit_of_none h f⟩
  obtain ⟨hself, honly⟩ := canSubmit_loaded hmode hfree hquiet halone hfd f
  rw [hself]
  exact ⟨loaded_txId hid _ _ _, loaded_txData hsized _ _ _, loaded_txFdf hsized _ _ _, rfl, fun j hj => canSubmit_can_other hj f s, honly⟩

end Sys2Proof.Machine
end

section
/-! Proofs about system time: its frames, the offset that a pair gives, the loss of pairs, and the grand master (R345 to
R349). -/
namespace Sys2Proof.Machine

open Sys2Proof

/-! ### Events and steps of the time (R347, R354) -/

theorem raise_raised {n : Fin 512} (hn : srcReserved n.val = false) (w : Word) (s : State) : Raised n w s (raise n.val w s) := by
  rw [Raised, raise_evr hn, Evr.setSrc_self]

theorem timEvent_raised (kind : Nat) (extra : Int) (s : State) : Raised 43 (put 0 4 kind ||| putI 4 28 extra) s (timEvent kind extra s) :=
  raise_raised (n := 43) rfl _ s

theorem timEvent_tim (kind : Nat) (extra : Int) (s : State) : (timEvent kind extra s).tim = s.tim :=
  (timEvent_only kind extra s).same .tim rfl

theorem timEvent_now (kind : Nat) (extra : Int) (s : State) : (timEvent kind extra s).now = s.now :=
  (timEvent_only kind extra s).same .now rfl

theorem timEnter_of_ne {st : TimState} {s : State} (h : s.tim.st ≠ st) :
    timEnter st s = timEvent 1 (st.code : Int) (s.setTim fun t => { t with st := st }) := if_neg h

theorem timEnter_tim (st : TimState) (s : State) : (timEnter st s).tim = { s.tim with st := st } := by
  by_cases h : s.tim.st = st
  · rw [timEnter, if_pos h, ← h]
  · rw [timEnter_of_ne h]
    exact timEvent_tim _ _ _

theorem timEnter_now (st : TimState) (s : State) : (timEnter st s).now = s.now := (timEnter_only st s).same .now rfl

theorem timStep_now (d : Int) (s : State) : (timStep d s).now = ((s.now : Int) + d).toNat := by
  unfold timStep
  dsimp only
  rw [timEvent_now, State.setTim_now,
    foldl_keeps State.now (fun u n => (sliceStep_only _ u n).same .now rfl)]
  exact (callShift_only _ _).same .now rfl

theorem timStep_tim (d : Int) (s : State) : (timStep d s).tim = { s.tim with steps := satInc 0xFFFF s.tim.steps, stepped := true } := by
  unfold timStep
  dsimp only
  rw [timEvent_tim, State.setTim_tim, foldl_keeps State.tim (fun u n => (sliceStep_only _ u n).same .tim rfl)]
  rfl

/-! ### The master of a segment (R345) -/

section
variable {s : State}

/-- A frame goes down from a state that differs from the first in no part that a submission reads. -/
theorem imzDown_tookDown {t : State} (hcan : t.can = s.can) (hsys : t.sys = s.sys) (hrcp : t.rcp = s.rcp)
    (hmgr : s.isManager = true) (f : OutFrame) : TookDown f s (imzDown f t) := by
  have hmgr' : t.isManager = true := by
    simp only [State.isManager, State.activeBank, hrcp] at hmgr ⊢
    exact hmgr
  have hfirst := canSubmit_only 2 f t
  rw [imzDown, if_pos hmgr']
  constructor
  · exact (canSubmit_can_other (by decide) f _).trans (canSubmit_can_congr (by rw [hcan]) hsys hrcp f)
  · refine canSubmit_can_congr ?_ ((hfirst.same .sys rfl).trans hsys) ((hfirst.same .rcp rfl).trans hrcp) f
    rw [canSubmit_can_other (by decide), hcan]

theorem imzSendDown_tookDown {t : State} (hcan : t.can = s.can) (hsys : t.sys = s.sys) (hrcp : t.rcp = s.rcp) (himz : t.imz = s.imz)
    (hlvn : t.lvn = s.lvn) (hspeaks : speaksDown s = true) (cls typ dir : Nat) (data : List Byte) :
    TookDown { id := frameId cls typ dir s.nodeNum, data := data } s (imzSendDown cls typ dir data t) := by
  rw [speaksDown, Bool.and_eq_true, Bool.and_eq_true] at hspeaks
  obtain ⟨⟨hopen, hactive⟩, hmgr⟩ := hspeaks
  have hopen' : imzOpen t = true := by
    rw [← hopen]
    simp only [imzOpen, imzLive, regionUp, State.bare, hsys, himz]
  have hactive' : t.activeUnit = true := by
    rw [← hactive]
    simp only [State.activeUnit, State.isPaired, State.activeBank, hlvn, hrcp]
  have hnode : t.nodeNum = s.nodeNum := by simp only [State.nodeNum, State.activeBank, hrcp]
  rw [imzSendDown, if_pos ⟨hopen', hactive'⟩, hnode]
  exact imzDown_tookDown hcan hsys hrcp hmgr _

theorem timeMaster_speaks (h : timeMaster s = true) : speaksDown s = true := by
  simp only [timeMaster, speaksDown, Bool.and_eq_true] at h ⊢
  obtain ⟨⟨⟨hopen, hmgr⟩, hactive⟩, -⟩ := h
  exact ⟨⟨hopen, hactive⟩, hmgr⟩

/-- A master that has sent a TIME_REF with a sequence number and its tail. -/
def Tim.sent (seq : Half) (tail : List Byte) (t : Tim) : Tim := { t with refSeq := seq, stepped := false, refTail := tail }

theorem refSend_of_master (hmaster : timeMaster s = true) : refSend s =
    imzSendDown 0 0x01 0 (bytesLE 2 (s.tim.refSeq + 1).toNat ++ refTail s s.tim.stepped)
      (s.setTim (Tim.sent (s.tim.refSeq + 1) (refTail s s.tim.stepped))) := if_pos hmaster

/-- A controller takes a frame as it would in a state that agrees in what a submission reads. -/
theorem took_of_same {k : Fin 4} {t : State} (hcan : t.can = s.can) (hsys : t.sys = s.sys) (hrcp : t.rcp = s.rcp) (f : OutFrame) :
    Took k f s (canSubmit k f t) := canSubmit_can_congr (by rw [hcan]) hsys hrcp f

theorem runs_timeRefSend (hmaster : timeMaster s = true) : Runs .timeRefSend s fun t =>
    t.tim = { s.tim with refSeq := s.tim.refSeq + 1, stepped := false, refTail := refTail s s.tim.stepped } ∧
    TookDown { id := frameId 0 0x01 0 s.nodeNum, data := bytesLE 2 (s.tim.refSeq + 1).toNat ++ refTail s s.tim.stepped } s t ∧
    Only [.can, .evr, .tim] s t := by
  have htim : ∀ data u, (imzSendDown 0 0x01 0 data u).tim = u.tim := fun data u => (imzSendDown_only 0 0x01 0 data u).same .tim rfl
  refine .of_next (congrArg Host.Outcome.next (refSend_of_master hmaster)) ⟨htim _ _, ?_, ?_⟩
  swap
  · exact Only.after (imzSendDown_only _ _ _ _ _) rfl ((s.setTim_only _).mono rfl)
  exact imzSendDown_tookDown (s := s) (t := s.setTim _) rfl rfl rfl rfl rfl (timeMaster_speaks hmaster) _ _ _ _

theorem runs_timeFollowSend {d : Bool} {k : Fin 2} (hk : k = if d then 1 else 0) (hmaster : timeMaster s = true) {q : Half} {sof : Ts}
    (hsof : s.tim.sofs[k] = some (q, sof)) : Runs (.timeFollowSend d) s fun t => t.tim.sofs[k] = none ∧
      Took (if d then 3 else 2) { id := frameId 0 0x02 0 s.nodeNum, data := bytesLE 2 q.toNat ++ s.tim.refTail ++ bytesLE 8 sof.toNat } s t ∧
      Only [.can, .evr, .tim] s t := by
  have hbus : (if k = 0 then 2 else 3 : Fin 4) = if d then 3 else 2 := by
    cases d <;> rw [hk] <;> rfl
  refine .of_next (u := followSend k s) (by rw [hk]; rfl) ?_
  unfold followSend
  rw [hsof]
  dsimp only
  rw [if_pos hmaster, hbus]
  refine ⟨?_, took_of_same (s := s) (t := s.setTim _) rfl rfl rfl _, Only.after (canSubmit_only _ _ _) rfl ((s.setTim_only _).mono rfl)⟩
  rw [(canSubmit_only _ _ _).same .tim rfl]
  exact Vector.getElem_set_self _

/-! ### The frames of the manager (R346, R347) -/

theorem timRx_heard {f : ImzRx} {n : Nat} (hlive : imzLive s = true) (hlen : f.data.length = n) (habove : fromAbove f = true)
    (hsrc : f.src = s.netMgr) (htop : s.netTop = false) (typ : Nat) (act : State → State) :
    ∃ v, timRx typ n f act s = act (s.setCans v) :=
  ⟨_, (if_pos ⟨hlive, hlen, habove, hsrc, by rw [htop]; rfl⟩).trans (congrArg act (imzTook_eq 0 typ f s))⟩

theorem setCans_only (s : State) (v : Vector Can 4) : Only [.can] s (s.setCans v) :=
  (Only.refl _ s).set_can rfl

theorem runs_timeRefReceived {f : ImzRx} (hlive : imzLive s = true) (habove : fromAbove f = true) (hsrc : f.src = s.netMgr)
    (htop : s.netTop = false) (hlen : f.data.length = 8) (hseen : s.imz.mgrLost = false) : Runs (.timeRefReceived f) s fun t =>
      (linkTimed s = true → t.tim.refs = s.tim.refs) ∧
      (linkTimed s = false → t.tim.refs[busOf f] = some { seq := BitVec.ofNat 16 (dataNat f.data 0 2), sof := s.now - f.age, at' := s.mono }) ∧
      t.tim.hops = min 0xFF (dataNat f.data 3 1 + 1) ∧ t.tim.mstate = min 3 (dataNat f.data 2 1) ∧ Only [.can, .tim] s t := by
  obtain ⟨v, hrx⟩ := timRx_heard hlive hlen habove hsrc htop 0x01 (refRx f)
  have hmgr : mgrSeen (s.setCans v) = s.setCans v := if_neg (Bool.eq_false_iff.mp hseen)
  have honly : Only [.can, .tim] s (refRx f (s.setCans v)) := by
    unfold refRx
    dsimp only
    rw [hmgr]
    exact Only.after (State.setTim_only _ _) rfl ((setCans_only s v).mono rfl)
  refine .of_next (congrArg Host.Outcome.next hrx) ?_
  refine ⟨fun hlink => ?_, fun hlink => ?_, ?_, ?_, honly⟩ <;> unfold refRx <;> dsimp only <;> rw [hmgr]
  · exact if_pos hlink
  · have hlink' : ¬ linkTimed (s.setCans v) = true := Bool.eq_false_iff.mp hlink
    rw [State.setTim_tim, if_neg hlink']
    exact Vector.getElem_set_self _
  · rfl
  · rfl

theorem runs_timeFollowReceived_unpaired {f : ImzRx} (hlive : imzLive s = true) (habove : fromAbove f = true) (hsrc : f.src = s.netMgr)
    (htop : s.netTop = false) (hlen : f.data.length = 16) (hnone : s.tim.refs[busOf f] = none) (hst : s.tim.st ≠ .locked) :
    Runs (.timeFollowReceived f) s fun t => Only [.can] s t := by
  obtain ⟨v, hrx⟩ := timRx_heard hlive hlen habove hsrc htop 0x02 (followRx f)
  have hfollow : followRx f (s.setCans v) = s.setCans v := by
    unfold followRx
    dsimp only
    rw [show (s.setCans v).tim = s.tim from rfl, hnone]
  refine .of_next (u := s.setCans v) ?_ (setCans_only s v)
  refine congrArg Host.Outcome.next ?_
  rw [hrx, hfollow]
  exact if_neg hst

theorem pairState_free {t : Tim} (h : t.st = .free) (off : Nat) : pairState t off = .acquiring := by
  unfold pairState
  rw [h]

/-- From FREE a pair leads to ACQUIRING; it steps the time where its offset is beyond 1 µs, and slews it otherwise. -/
theorem timPair_free (hst : s.tim.st = .free) (theta : Int) :
    (timPair theta s).tim.st = .acquiring ∧ (timPair theta s).tim.theta = clampI (-(2 ^ 31 : Int)) (2 ^ 31 - 1) theta ∧
    (timPair theta s).tim.busB = s.tim.busB ∧ (theta.natAbs ≤ 1000 → (timPair theta s).now = s.now) ∧
    (1000 < theta.natAbs → (timPair theta s).now = ((s.now : Int) - nsTicks theta).toNat ∧ (timPair theta s).tim.stepped = true) := by
  unfold timPair
  dsimp only
  rw [timEnter_tim, timEnter_now, pairState_free]
  swap
  · exact hst
  by_cases hlarge : 1000 < theta.natAbs
  · rw [if_pos (.inl ⟨.inl hst, hlarge⟩), timStep_now, timStep_tim]
    exact ⟨rfl, rfl, rfl, fun hsmall => absurd hlarge (Nat.not_lt.mpr hsmall), fun _ => ⟨rfl, rfl⟩⟩
  · rw [if_neg (by omega)]
    exact ⟨rfl, rfl, rfl, fun _ => rfl, fun h => absurd h hlarge⟩

theorem runs_timeFollowReceived {f : ImzRx} {r : RefRx} (hlive : imzLive s = true) (habove : fromAbove f = true)
    (hsrc : f.src = s.netMgr) (htop : s.netTop = false) (hlen : f.data.length = 16) (hbus : busOf f = 0)
    (href : s.tim.refs[(0 : Fin 2)] = some r) (hseq : r.seq = BitVec.ofNat 16 (dataNat f.data 0 2)) (hage : s.mono ≤ r.at' + ms 50)
    (hvalid : stampValid (BitVec.ofNat 64 (dataNat f.data 8 8) : Ts) = true) (hst : s.tim.st = .free) {theta : Int}
    (htheta : theta = (r.sof : Int) * 20 - (stampNs (BitVec.ofNat 64 (dataNat f.data 8 8)) + propNs s)) :
    Runs (.timeFollowReceived f) s fun t => t.tim.st = .acquiring ∧
      t.tim.theta = clampI (-(2 ^ 31 : Int)) (2 ^ 31 - 1) theta ∧ t.tim.busB = false ∧ (theta.natAbs ≤ 1000 → t.now = s.now) ∧
      (1000 < theta.natAbs → t.now = ((s.now : Int) - nsTicks theta).toNat ∧ t.tim.stepped = true) := by
  obtain ⟨v, hrx⟩ := timRx_heard hlive hlen habove hsrc htop 0x02 (followRx f)
  have href' : ∀ bus : Fin 2, bus = 0 → s.tim.refs[bus] = some r := by
    rintro _ rfl
    exact href
  have hfollow : ∃ u : State, u.now = s.now ∧ u.tim.st = .free ∧ u.tim.busB = false ∧ followRx f (s.setCans v) = timPair theta u := by
    unfold followRx
    dsimp only
    rw [show (s.setCans v).tim = s.tim from rfl, href' _ hbus]
    dsimp only
    rw [if_pos ⟨hseq, hage, hvalid⟩, if_pos hbus, show propNs (s.setCans v) = propNs s from rfl, ← htheta]
    refine ⟨_, ?_, ?_, rfl, rfl⟩
    · split
      · rw [State.setTim_now, State.setTim_now, timEvent_now]
        rfl
      · rfl
    · rw [State.setTim_tim, State.setTim_tim]
      split
      · rw [timEvent_tim]
        exact hst
      · exact hst
  obtain ⟨u, hnow, hfree, hbusB, hpair⟩ := hfollow
  have hsettle := timPair_free hfree theta
  rw [hnow, hbusB] at hsettle
  refine .of_next (u := timPair theta u) ?_ hsettle
  refine congrArg Host.Outcome.next ?_
  rw [hrx, hpair, if_neg (by rw [hsettle.1]; decide)]

/-! ### The loss of pairs (R347, R473) -/

theorem runs_timHoldover (hst : s.tim.st = .locked) (htop : s.netTop = false) (hlive : imzLive s = true) :
    Runs .timHoldover s fun t => t.tim.st = .holdover ∧ t.tim.corr = s.tim.corr := by
  refine .of_guard rfl ⟨hst, by rw [htop]; rfl, hlive⟩ ?_
  rw [timEnter_tim]
  exact ⟨rfl, rfl⟩

/-- The state that a second in HOLDOVER leads to. -/
theorem timFree_holdover (hst : s.tim.st = .holdover) (htop : s.netTop = false) :
    (timFree s).tim = { s.tim with pairsOk := 0, st := .free } ∧ Raised 43 (put 0 4 1 ||| putI 4 28 0) s (timFree s) ∧
      Only [.evr, .tim] s (timFree s) := by
  have hne : (s.setTim fun t => { t with pairsOk := 0 }).tim.st ≠ .free := by
    rw [State.setTim_tim, hst]
    decide
  rw [timFree, if_pos ⟨hst, by rw [htop]; rfl⟩]
  refine ⟨timEnter_tim _ _, ?_, Only.after (timEnter_only _ _) rfl ((s.setTim_only _).mono rfl)⟩
  rw [timEnter_of_ne hne]
  exact timEvent_raised 1 0 _

theorem oscApply_of_off (hoff : s.age.st = .off) : oscApply s = s := if_pos (.inr (.inr hoff))

theorem oscApply_of_sampled (hst : s.tim.st = .free) (hrun : s.age.st = .run) (hen : s.ageEn 4 = true) {k : Fin 16}
    (hk : tempBand s = k) (hsample : s.age.bands[k].2 ≠ 0) : (oscApply s).tim = { s.tim with
      corr := clampI (-(s.ageNat 12 2 1000 * 10 : Int)) (s.ageNat 12 2 1000 * 10) (bandMean s.age.bands[k]) } := by
  have hactive : ¬ (s.tim.st = .locked ∨ s.tim.st = .holdover ∨ s.age.st = .off) := by
    rw [hst, hrun]
    decide
  have hen' : ¬ (!s.ageEn 4) = true := by rw [hen]; decide
  subst hk
  unfold oscApply
  dsimp only
  rw [if_neg hactive, if_neg hen', if_neg hsample]
  exact (itemCorrect_only _ _ _ _).same .tim rfl

theorem runs_timFree_off (hst : s.tim.st = .holdover) (htop : s.netTop = false) (hoff : s.age.st = .off) : Runs .timFree s fun t =>
    t.tim = { s.tim with pairsOk := 0, st := .free } ∧ Raised 43 (put 0 4 1 ||| putI 4 28 0) s t ∧ Only [.evr, .tim] s t := by
  obtain ⟨htim, hraised, honly⟩ := timFree_holdover hst htop
  have hoff' : (timFree s).age.st = .off := by rw [honly.same .age rfl, hoff]
  exact .of_next (congrArg Host.Outcome.next (oscApply_of_off hoff')) ⟨htim, hraised, honly⟩

theorem runs_timFree_run {b : Int} (hst : s.tim.st = .holdover) (htop : s.netTop = false) (hrun : s.age.st = .run)
    (hen : s.ageEn 4 = true) (hsample : s.age.bands[tempBand s].2 ≠ 0) (hb : b = s.ageNat 12 2 1000 * 10) : Runs .timFree s fun t =>
      t.tim = { s.tim with pairsOk := 0, st := .free, corr := clampI (-b) b (bandMean s.age.bands[tempBand s]) } ∧
      Only [.evr, .tim, .age] s t := by
  obtain ⟨htim, -, honly⟩ := timFree_holdover hst htop
  have hage : (timFree s).age = s.age := honly.same .age rfl
  have hrcp : (timFree s).rcp = s.rcp := honly.same .rcp rfl
  have hsup : (timFree s).sup = s.sup := honly.same .sup rfl
  have hband : tempBand (timFree s) = tempBand s := by rw [tempBand, hsup, tempBand]
  have hnat : ∀ off n d, (timFree s).ageNat off n d = s.ageNat off n d := by
    intro off n d
    have hbank : (timFree s).activeBank = s.activeBank := by simp only [State.activeBank, hrcp]
    rw [State.ageNat, State.cfgNat, hbank, State.ageNat, State.cfgNat]
  refine .of_next (u := oscApply (timFree s)) rfl ⟨?_, Only.after (oscApply_only _) rfl (honly.mono rfl)⟩
  rw [oscApply_of_sampled (by rw [htim]) (by rw [hage, hrun]) (by rw [State.ageEn, hnat]; exact hen) hband (by rwa [hage]),
    htim, hage, hnat, hb]

end

/-- Settles O42, row by row. -/
theorem timeIsSentAndFollowed : Obligations.TimeIsSentAndFollowed := by
  intro s
  refine ⟨runs_timeRefSend, fun d k q sof hk hmaster hsof => runs_timeFollowSend hk hmaster hsof,
    fun f hlive habove hsrc htop => ⟨runs_timeRefReceived hlive habove hsrc htop,
      runs_timeFollowReceived_unpaired hlive habove hsrc htop,
      fun r theta hlen hbus href hseq hage hvalid hst htheta =>
        runs_timeFollowReceived hlive habove hsrc htop hlen hbus href hseq hage hvalid hst htheta⟩,
    runs_timHoldover, runs_timFree_off, fun b => runs_timFree_run⟩

end Sys2Proof.Machine
end

section
/-! Proofs about the grand master: its pulses and their loss, the settings of its time, and its output pulse (R348, R349,
R381). -/
namespace Sys2Proof.Machine

open Sys2Proof

section
variable {s : State}

/-! ### The pulses (R348, R381) -/

theorem runs_syncInPulse_ignored {ok : Bool} (h : linkTimed s = true ∨ ok = false) : Runs (.syncInPulse ok) s (fun t => t = s) := by
  refine .of_not_guard rfl ?_ rfl
  rintro ⟨hok, -, -, hlink⟩
  rcases h with h | h
  · exact Bool.false_ne_true (hlink.symm.trans h)
  · exact Bool.false_ne_true (h.symm.trans hok)

section
variable (hsource : syncSource s = true) (hlive : timLive s = true) (hlink : linkTimed s = false)
include hsource hlive hlink

/-- A pulse of the right width acts on a grand master that takes its time from the pulses. -/
theorem runs_syncInPulse {P : State → Prop} (hP : P (syncPulse s)) : Runs (.syncInPulse true) s P :=
  .of_guard rfl ⟨rfl, hsource, hlive, hlink⟩ hP

theorem runs_syncInPulse_traceable (hwait : s.tim.atPulse = none) (hnear : (syncPhase s.now).natAbs ≤ 5) (hrow : 9 ≤ s.tim.goodRow) :
    Runs (.syncInPulse true) s fun t => t.tim.traceable = true ∧ t.tim.phase = syncPhase s.now * 20 ∧ t.tim.rejRow = 0 ∧
      t.now = s.now ∧ Only [.drawn, .evr, .tim] s t := by
  refine runs_syncInPulse hsource hlive hlink ?_
  have htrace : ∀ u : State, (timTrace true u).tim = { u.tim with traceable := true } := by
    intro u
    unfold timTrace
    split
    · next h => rw [← h]
    · exact timEvent_tim _ _ _
  have honly : Only [.drawn, .evr, .tim] s (syncPulse s) ∧ (syncPulse s).tim.traceable = true ∧
      (syncPulse s).tim.phase = syncPhase s.now * 20 ∧ (syncPulse s).tim.rejRow = 0 := by
    unfold syncPulse
    dsimp only
    rw [hwait]
    dsimp only
    rw [if_neg (show ¬ 500 < (syncPhase s.now).natAbs by omega), if_pos hnear, if_pos (show 10 ≤ s.tim.goodRow + 1 by omega), htrace]
    exact ⟨Only.after (timTrace_only _ _) rfl (Only.after (timSlew_only _) rfl
      (((s.setTim_only _).trans (State.setTim_only _ _)).mono rfl)), rfl, rfl, rfl⟩
  obtain ⟨honly, htraceable, hphase, hrej⟩ := honly
  exact ⟨htraceable, hphase, hrej, honly.same .now rfl, honly⟩

theorem runs_syncInPulse_rejected (hwait : s.tim.atPulse = none) (hfar : 500 < (syncPhase s.now).natAbs) (hrow : s.tim.rejRow < 3) :
    Runs (.syncInPulse true) s fun t =>
      t.tim = { s.tim with phase := syncPhase s.now * 20, rej := satInc 255 s.tim.rej, rejRow := s.tim.rejRow + 1, goodRow := 0 } ∧
      Only [.tim] s t := by
  have hpulse : syncPulse s = s.setTim fun t =>
      { t with phase := syncPhase s.now * 20, rej := satInc 255 t.rej, rejRow := t.rejRow + 1, goodRow := 0 } := by
    unfold syncPulse
    dsimp only
    rw [hwait]
    dsimp only
    rw [if_pos hfar, if_neg (Nat.not_le.mpr hrow)]
    rfl
  refine runs_syncInPulse hsource hlive hlink ?_
  rw [hpulse]
  exact ⟨rfl, s.setTim_only _⟩

theorem runs_syncInPulse_stepped (hwait : s.tim.atPulse = none) (hfar : 500 < (syncPhase s.now).natAbs) (hrow : 3 ≤ s.tim.rejRow) :
    Runs (.syncInPulse true) s fun t =>
      t.now = ((s.now : Int) - syncPhase s.now).toNat ∧ t.tim.rejRow = 0 ∧ t.tim.stepped = true := by
  refine runs_syncInPulse hsource hlive hlink ?_
  unfold syncPulse
  dsimp only
  rw [hwait]
  dsimp only
  rw [if_pos hfar, if_pos hrow, timStep_now, timStep_tim]
  exact ⟨rfl, rfl, rfl⟩

theorem runs_syncInPulse_set {v : Nat} (hwait : s.tim.atPulse = some v) :
    Runs (.syncInPulse true) s fun t => t.now = v * ticksPerSec ∧ t.tim.atPulse = none := by
  refine runs_syncInPulse hsource hlive hlink ?_
  unfold syncPulse
  dsimp only
  rw [hwait]
  dsimp only
  rw [timStep_now, timStep_tim]
  refine ⟨?_, rfl⟩
  rw [State.setTim_now, State.setTim_now]
  omega

end

theorem runs_syncInLoss (hsource : syncSource s = true) (htraceable : s.tim.traceable = true) : Runs .syncInLoss s fun t =>
    t.tim = { s.tim with traceable := false, goodRow := 0 } ∧ Raised 43 (put 0 4 4 ||| putI 4 28 0) s t ∧ Only [.evr, .tim] s t := by
  have hloss : timTrace false (s.setTim fun t => { t with goodRow := 0 }) =
      timEvent 4 0 (s.setTim fun t => { t with traceable := false, goodRow := 0 }) :=
    if_neg fun h => Bool.false_ne_true (h.symm.trans htraceable)
  refine .of_guard rfl hsource ?_
  rw [hloss]
  exact ⟨timEvent_tim _ _ _, timEvent_raised 4 0 _, Only.after (timEvent_only _ _ _) rfl ((s.setTim_only _).mono rfl)⟩

theorem runs_syncOutPulse (hbare : s.bare = false) (hsafe : s.sys.mode ≠ .safe) (hident : s.ident7 3 = false) :
    Runs .syncOutPulse s fun t => t.sys = { s.sys with pins := { s.sys.pins with syncEnd := s.mono + ms 100 } } ∧ Only [.sys] s t := by
  refine .of_not_guard rfl ?_ ⟨rfl, (Only.refl _ s).set_sys rfl⟩
  rw [hbare, hident]
  simp [hsafe]

/-! ### Settings of the time (R348) -/

section
variable (htop : s.netTop = true) (hlive : timLive s = true) (hvalid : stampValid (timSetReg s) = true)
include htop hlive hvalid

theorem runs_timSet (src : Source) : Runs (.timSet src) s fun t => t.now = ticksOf (timSetReg s) ∧ t.tim.stepped = true := by
  have hset : timSet (timSetReg s) s = (true, timStep ((ticksOf (timSetReg s) : Int) - s.now) s) := if_pos ⟨htop, hlive, hvalid⟩
  have hcmd : timCmd src false s = timStep ((ticksOf (timSetReg s) : Int) - s.now) s := by
    rw [timCmd, if_neg Bool.false_ne_true, hset]
    rfl
  refine .of_next (congrArg Host.Outcome.next hcmd) ?_
  rw [timStep_now, timStep_tim]
  exact ⟨by omega, rfl⟩

theorem runs_timSetAtPulse (src : Source) : Runs (.timSetAtPulse src) s fun t =>
    t.tim = { s.tim with atPulse := some (fld (timSetReg s) 30 34) } ∧ Only [.tim] s t := by
  have hset : timSetAtPulse (timSetReg s) s = (true, s.setTim fun m => { m with atPulse := some (fld (timSetReg s) 30 34) }) :=
    if_pos ⟨htop, hlive, hvalid⟩
  have hcmd : timCmd src true s = s.setTim fun m => { m with atPulse := some (fld (timSetReg s) 30 34) } := by
    rw [timCmd, if_pos rfl, hset]
    rfl
  exact .of_next (congrArg Host.Outcome.next hcmd) ⟨rfl, s.setTim_only _⟩

end

/-- Elsewhere than on a grand master, or with a timestamp that is not valid, a setting is logged and ignored. -/
theorem timCmd_refused (h : s.netTop = false ∨ stampValid (timSetReg s) = false) (src : Source) (b : Bool) :
    timCmd src b s = if s.netTop then logWerr 9 src 0x066020 s else logWerr 8 src 0x066020 s := by
  have hnot : ¬ (s.netTop = true ∧ timLive s = true ∧ stampValid (timSetReg s) = true) := by
    rintro ⟨htop, -, hvalid⟩
    rcases h with h | h
    · exact Bool.false_ne_true (h.symm.trans htop)
    · exact Bool.false_ne_true (h.symm.trans hvalid)
  have hset : timSet (timSetReg s) s = (false, s) := if_neg hnot
  have hpulse : timSetAtPulse (timSetReg s) s = (false, s) := if_neg hnot
  have hboth : (if b then timSetAtPulse (timSetReg s) s else timSet (timSetReg s) s) = (false, s) := by
    rw [hset, hpulse, ite_self]
  unfold timCmd
  dsimp only
  rw [hboth]
  rfl

/-- Both settings are the same command but for the pulse. -/
theorem exec_setting {src : Source} {x : Instr} (hx : x = .timSet src ∨ x = .timSetAtPulse src) :
    ∃ b, exec x s = .next (timCmd src b s) := by
  rcases hx with rfl | rfl
  · exact ⟨false, rfl⟩
  · exact ⟨true, rfl⟩

theorem runs_setting_refused {src : Source} {x : Instr} (hx : x = .timSet src ∨ x = .timSetAtPulse src) :
    (s.netTop = false → Runs x s fun t => t.sys.werr.reason = 8 ∧ Only [.sys] s t) ∧
    (s.netTop = true → stampValid (timSetReg s) = false → Runs x s fun t => t.sys.werr.reason = 9 ∧ Only [.sys] s t) := by
  obtain ⟨b, hexec⟩ := exec_setting (s := s) hx
  refine ⟨fun htop => ?_, fun htop hvalid => ?_⟩
  · rw [timCmd_refused (.inl htop), htop, if_neg Bool.false_ne_true] at hexec
    exact .of_next hexec ⟨rfl, logWerr_only _ _ _ _⟩
  · rw [timCmd_refused (.inr hvalid), htop, if_pos rfl] at hexec
    exact .of_next hexec ⟨rfl, logWerr_only _ _ _ _⟩

end

/-- Settles O43, row by row. -/
theorem theGrandMasterKeepsItsTime : Obligations.TheGrandMasterKeepsItsTime := by
  intro s
  refine ⟨fun hlink ok => runs_syncInPulse_ignored (.inl hlink), fun hsource hlive hlink => ?_, runs_syncInLoss, runs_syncOutPulse,
    fun src => ⟨fun htop hlive hvalid => ⟨runs_timSet htop hlive hvalid src, runs_timSetAtPulse htop hlive hvalid src⟩,
      fun x hx => runs_setting_refused hx⟩⟩
  exact ⟨runs_syncInPulse_traceable hsource hlive hlink, runs_syncInPulse_rejected hsource hlive hlink,
    runs_syncInPulse_stepped hsource hlive hlink, fun v => runs_syncInPulse_set hsource hlive hlink,
    runs_syncInPulse_ignored (.inr rfl)⟩

end Sys2Proof.Machine
end

section
/-! Proofs about the leaven link: training, lanes, and the frames sent and received over it (R355, R357 to R360). -/
namespace Sys2Proof.Machine

open Sys2Proof

/-! ### Numbers in a frame -/

theorem ofBytesLE_bytesLE (n v : Nat) : ofBytesLE (bytesLE n v) = v % 256 ^ n := by
  induction n generalizing v with
  | zero => simp [bytesLE, ofBytesLE, Nat.mod_one]
  | succ n ih =>
    have hsplit : bytesLE (n + 1) v = BitVec.ofNat 8 v :: bytesLE n (v / 256) := by
      simp only [bytesLE, List.range_succ_eq_map, List.map_cons, List.map_map, Nat.mul_zero, Nat.pow_zero, Nat.div_one]
      refine congrArg _ (List.map_congr_left fun i _ => ?_)
      rw [Function.comp_apply, Nat.div_div_eq_div_mul, show (256 : Nat) = 2 ^ 8 from rfl, ← Nat.pow_add, Nat.mul_succ, Nat.add_comm]
    rw [hsplit, ofBytesLE, ih, BitVec.toNat_ofNat, Nat.pow_succ' (m := 256), Nat.mod_mul]

theorem bytesLE_length (n v : Nat) : (bytesLE n v).length = n := by simp [bytesLE]

theorem word_lt (w : Word) : w.toNat < 256 ^ 4 := by have := w.isLt; omega

theorem double_lt (w : BitVec 64) : w.toNat < 256 ^ 8 := by have := w.isLt; omega

/-- The bytes of a number within a frame give it back. -/
theorem dataNat_bytesLE {a : List Byte} {o n v : Nat} (ha : a.length = o) (hv : v < 256 ^ n) (b : List Byte) :
    dataNat (a ++ (bytesLE n v ++ b)) o n = v := by
  rw [dataNat, List.drop_left' ha, List.take_left' (bytesLE_length n v), ofBytesLE_bytesLE, Nat.mod_eq_of_lt hv]

theorem dataNat_bytesLE_head {n v : Nat} (hv : v < 256 ^ n) (b : List Byte) : dataNat (bytesLE n v ++ b) 0 n = v := by
  have hnum := dataNat_bytesLE (a := []) List.length_nil hv b
  rwa [List.nil_append] at hnum

section
variable {s : State}

/-! ### Lanes (R355) -/

theorem lvnEvent_lvn (kind lane detail : Nat) (s : State) : (lvnEvent kind lane detail s).lvn = s.lvn :=
  (lvnEvent_only kind lane detail s).same .lvn rfl

theorem lvnEvent_raised (kind lane detail : Nat) (s : State) :
    Raised 44 (put 0 4 kind ||| put 4 1 lane ||| put 16 16 detail) s (lvnEvent kind lane detail s) := raise_raised (n := 44) rfl _ s

theorem Vector.set_other {α : Type} {n : Nat} (v : Vector α n) {l m : Fin n} (h : m ≠ l) (x : α) : (v.set l x)[m] = v[m] :=
  Vector.getElem_set_ne _ _ fun heq => h (Fin.ext heq).symm

theorem other_lane_ne (l : Fin 2) : 1 - l ≠ l := by revert l; decide

theorem lane_eq_or (l m : Fin 2) : m = l ∨ m = 1 - l := by revert l m; decide

/-- The link is up with either lane. -/
theorem linkUp_iff_of_lane {v : Lvn} (l : Fin 2) : linkUp v = (v.lanes[l] || v.lanes[1 - l]) := by
  rw [linkUp]
  rcases lane_eq_or 0 l with rfl | rfl
  · rfl
  · exact Bool.or_comm _ _

/-- What a lane that comes up leaves of the engine: the lane, and with a link that comes up the bytes swept. -/
theorem laneUp_lvn (s : State) (l : Fin 2) : ∃ n, (laneUp s l).lvn = { s.lvn with lanes := s.lvn.lanes.set l true, swept := n } := by
  unfold laneUp
  split
  · next hup => 
    refine ⟨s.lvn.swept, ?_⟩
    rw [show s.lvn.lanes.set l true = s.lvn.lanes from by rw [← hup]; exact Vector.set_getElem_self _]
  · dsimp only
    split
    · exact ⟨s.lvn.swept, lvnEvent_lvn _ _ _ _⟩
    · refine ⟨0, ?_⟩
      rw [lvnEvent_lvn, State.setLvn_lvn, lvnEvent_lvn]
      rfl

theorem runs_lvnLinkTrained (hup : lvnUp s = true) (hfresh : s.lvn.trained = false) (lat : Nat) : Runs (.lvnLinkTrained lat) s fun t =>
    t.lvn.trained = true ∧ t.lvn.lat = min 0xFFFF lat ∧ t.lvn.lanes[0] = true ∧ t.lvn.lanes[1] = true ∧
    t.lvn.st = s.lvn.st ∧ Only [.lvn, .evr] s t := by
  refine .of_guard rfl ⟨hup, hfresh⟩ ?_
  obtain ⟨n, hfirst⟩ := laneUp_lvn (s.setLvn fun v => { v with trained := true, lat := min 0xFFFF lat }) 0
  obtain ⟨m, hboth⟩ := laneUp_lvn (laneUp (s.setLvn fun v => { v with trained := true, lat := min 0xFFFF lat }) 0) 1
  rw [hboth, hfirst]
  refine ⟨rfl, rfl, ?_, Vector.getElem_set_self _, rfl, Only.after (laneUp_only _ _) rfl (Only.after (laneUp_only _ _) rfl ((s.setLvn_only _).mono rfl))⟩
  exact (Vector.set_other _ (l := 1) (m := 0) (by decide) true).trans (Vector.getElem_set_self _)

theorem laneDown_of_up {l : Fin 2} (hlane : s.lvn.lanes[l] = true) : laneDown l s =
    if linkUp (lvnEvent 1 l.val 0 (s.setLvn fun v => { v with lanes := v.lanes.set l false })).lvn then
      lvnEvent 1 l.val 0 (s.setLvn fun v => { v with lanes := v.lanes.set l false })
    else lvnEvent 3 0 0 ((lvnEvent 1 l.val 0 (s.setLvn fun v => { v with lanes := v.lanes.set l false })).setLvn fun v =>
      { v with synced := false, opened := none, recs := [], deltas := 0, recBytes := 0, hello := none }) :=
  if_neg fun h => Bool.false_ne_true (h.symm.trans hlane)

theorem linkUp_lane_lost (l : Fin 2) (v : Lvn) : linkUp { v with lanes := v.lanes.set l false } = v.lanes[1 - l] := by
  rw [linkUp_iff_of_lane l]
  dsimp only
  rw [Vector.set_other _ (other_lane_ne l), Fin.getElem_fin, Vector.getElem_set_self, Bool.false_or]

theorem runs_lvnLaneDown (hup : lvnUp s = true) {l : Fin 2} (hlane : s.lvn.lanes[l] = true) (hother : s.lvn.lanes[1 - l] = true) :
    Runs (.lvnLaneDown l) s fun t => t.lvn = { s.lvn with lanes := s.lvn.lanes.set l false } ∧
      Raised 44 (put 0 4 1 ||| put 4 1 l.val) s t ∧ Only [.lvn, .evr] s t := by
  have hlink : linkUp (lvnEvent 1 l.val 0 (s.setLvn fun v => { v with lanes := v.lanes.set l false })).lvn = true := by
    rw [lvnEvent_lvn]
    exact (linkUp_lane_lost l s.lvn).trans hother
  refine .of_guard rfl hup ?_
  rw [laneDown_of_up hlane, if_pos hlink]
  have hraised := lvnEvent_raised 1 l.val 0 (s.setLvn fun v => { v with lanes := v.lanes.set l false })
  rw [show ∀ w : Word, w ||| put 16 16 0 = w from fun _ => BitVec.or_zero] at hraised
  exact ⟨lvnEvent_lvn _ _ _ _, hraised, Only.after (lvnEvent_only _ _ _ _) rfl ((s.setLvn_only _).mono rfl)⟩

theorem runs_lvnLaneDown_last (hup : lvnUp s = true) {l : Fin 2} (hlane : s.lvn.lanes[l] = true) (hother : s.lvn.lanes[1 - l] = false) :
    Runs (.lvnLaneDown l) s fun t => linkUp t.lvn = false ∧ t.lvn.synced = false ∧ t.lvn.opened = none ∧ t.lvn.hello = none ∧
      t.lvn.st = s.lvn.st ∧ Only [.lvn, .evr] s t := by
  have hlink : linkUp (lvnEvent 1 l.val 0 (s.setLvn fun v => { v with lanes := v.lanes.set l false })).lvn = false := by
    rw [lvnEvent_lvn]
    exact (linkUp_lane_lost l s.lvn).trans hother
  have honly := Only.after (laneDown_only l s) (l := [.lvn, .evr]) rfl (Only.refl _ s)
  refine .of_guard rfl hup ?_
  rw [laneDown_of_up hlane, hlink, if_neg Bool.false_ne_true] at honly ⊢
  rw [lvnEvent_lvn, State.setLvn_lvn, lvnEvent_lvn] 
  exact ⟨(linkUp_lane_lost l s.lvn).trans hother, rfl, rfl, rfl, rfl, honly⟩

theorem runs_lvnLaneRetrain (hup : lvnUp s = true) (htrained : s.lvn.trained = true) (l : Fin 2) :
    Runs (.lvnLaneRetrain l true) s (fun t => t.lvn.lanes[l] = true ∧ t.lvn.lanes[1 - l] = s.lvn.lanes[1 - l] ∧ Only [.lvn, .evr] s t) ∧
    Runs (.lvnLaneRetrain l false) s (fun t => t = s) := by
  refine ⟨.of_guard rfl ⟨hup, htrained, rfl⟩ ?_, .of_not_guard rfl (fun h => Bool.false_ne_true h.2.2) rfl⟩
  obtain ⟨n, hlane⟩ := laneUp_lvn s l
  rw [hlane]
  refine ⟨Vector.getElem_set_self _, Vector.set_other _ (other_lane_ne l) _, ?_⟩
  exact (laneUp_only _ _).mono rfl

/-! ### Frames sent (R358, R359) -/

theorem PairState.code_lt (p : PairState) : p.code < 256 ^ 1 := by cases p <;> decide

/-- The first part of a HEARTBEAT's body, then its state, then the rest. -/
theorem lvBeat_numbers (s : State) (b : List Byte) : dataNat (lvBeat s ++ b) 0 4 = s.lvn.hbSeq.toNat ∧
    dataNat (lvBeat s ++ b) 4 1 = s.lvn.st.code := by
  unfold lvBeat
  dsimp only
  simp only [List.append_assoc]
  exact ⟨dataNat_bytesLE_head (word_lt s.lvn.hbSeq) _, dataNat_bytesLE (bytesLE_length _ _) (PairState.code_lt _) _⟩

theorem lvBeat_length (s : State) : (lvBeat s).length = 32 := by
  simp only [lvBeat, List.length_append, bytesLE_length, List.length_replicate]

theorem runs_lvHeartbeatSend (hup : lvnUp s = true) (hlink : linkUp s.lvn = true) : Runs .lvHeartbeatSend s fun t =>
    t.lvn.hbSeq = s.lvn.hbSeq + 1 ∧ t.lvn.sent.length = (if s.lvn.lanes[0] && s.lvn.lanes[1] then 2 else 1) ∧
    (∀ x ∈ t.lvn.sent, x.1 = 1 ∧ dataNat x.2.2 0 4 = (s.lvn.hbSeq + 1).toNat ∧ dataNat x.2.2 4 1 = s.lvn.st.code) ∧ Only [.lvn] s t := by
  refine .of_guard rfl ⟨hup, hlink⟩ ⟨rfl, ?_, fun x hx => ?_, (s.setLvn_only _).trans (State.setLvn_only _ _)⟩
  · refine List.length_replicate.trans ?_
    rw [linkUp] at hlink
    revert hlink
    cases s.lvn.lanes[0] <;> cases s.lvn.lanes[1] <;> decide
  · obtain ⟨-, rfl⟩ := List.mem_replicate.mp hx
    have hnums := lvBeat_numbers (s.setLvn fun v => { v with hbSeq := v.hbSeq + 1 }) []
    rw [List.append_nil] at hnums
    exact ⟨rfl, hnums⟩

theorem runs_lvHelloSend (hup : lvnUp s = true) (hlink : linkUp s.lvn = true) (hst : s.lvn.st = .negotiating) :
    Runs .lvHelloSend s fun t => t.lvn.sent.length = 1 ∧
      (∀ x ∈ t.lvn.sent, x.1 = 2 ∧ dataNat x.2.2 32 4 = (s.rcp.recipes[s.rcp.active]).seq.toNat ∧
        dataNat x.2.2 40 8 = Config.serial.toNat) ∧ Only [.lvn] s t := by
  refine .of_guard rfl ⟨hup, hlink, .inl (by rw [hst]; rfl)⟩ ⟨rfl, fun x hx => ?_, s.setLvn_only _⟩
  obtain rfl := List.mem_singleton.mp hx
  have hlen := lvBeat_length s
  refine ⟨rfl, ?_, ?_⟩
  · dsimp only
    rw [List.append_assoc, List.append_assoc]
    exact dataNat_bytesLE hlen (word_lt _) _
  · dsimp only
    rw [← List.append_nil (_ ++ bytesLE 8 _), List.append_assoc]
    exact dataNat_bytesLE (by simp only [List.length_append, bytesLE_length, hlen]) (double_lt _) _

/-! ### Frames received (R358 to R360) -/

theorem lvFrame_ok (hup : lvnUp s = true) (hlink : linkUp s.lvn = true) (f : State → State) : lvFrame true f s = f s :=
  if_pos ⟨hup, hlink⟩

theorem lvFrame_bad (hup : lvnUp s = true) (hlink : linkUp s.lvn = true) (f : State → State) : lvFrame false f s =
    s.setLvn fun v => { v with cntCrc := satInc 255 v.cntCrc } := if_pos ⟨hup, hlink⟩

/-- While roles are negotiated a HEARTBEAT only says how the partner stands. -/
theorem lvBeatRx_negotiating (hst : s.lvn.st = .negotiating) (hcheck : s.lvn.presCheck = false) (d : List Byte) (age : Nat) :
    (lvBeatRx d age s).lvn.pState = pairOfCode (dataNat d 4 1) ∧ (lvBeatRx d age s).lvn.pHealth = BitVec.ofNat 16 (dataNat d 6 2) ∧
    (lvBeatRx d age s).lvn.pEpoch = BitVec.ofNat 32 (dataNat d 8 4) ∧ Only [.lvn] s (lvBeatRx d age s) := by
  have hacked : ∀ u : State, u.lvn.st = .negotiating → epochAcked u = u := fun u hu => if_neg fun h => by rw [hu] at h; exact nomatch h.1
  have hfault : ∀ u : State, u.lvn.presCheck = false → presFault u = u := fun u hu => if_neg (Bool.eq_false_iff.mp hu)
  have hrejoin : ∀ u : State, u.lvn.st = .negotiating → lvRejoin u = u := by
    intro u hu
    unfold lvRejoin
    rw [hu]
  unfold lvBeatRx lvBeatTake
  dsimp only
  rw [hacked, if_neg (fun h => by rw [hst] at h; exact nomatch h.1), if_neg (fun h => by rw [hst] at h; exact nomatch h.1),
    hfault, hrejoin]
  · exact ⟨rfl, rfl, rfl, s.setLvn_only _⟩
  · exact hst
  · exact hcheck
  · exact hst

theorem runs_lvHeartbeatReceived (hup : lvnUp s = true) (hlink : linkUp s.lvn = true) (hst : s.lvn.st = .negotiating)
    (hcheck : s.lvn.presCheck = false) (d : List Byte) (age : Nat) : Runs (.lvHeartbeatReceived d true age) s fun t =>
      t.lvn.pState = pairOfCode (dataNat d 4 1) ∧ t.lvn.pHealth = BitVec.ofNat 16 (dataNat d 6 2) ∧
      t.lvn.pEpoch = BitVec.ofNat 32 (dataNat d 8 4) ∧ Only [.lvn] s t :=
  .of_next (congrArg Host.Outcome.next (lvFrame_ok hup hlink _)) (lvBeatRx_negotiating hst hcheck d age)

theorem runs_lvHelloReceived (hup : lvnUp s = true) (hlink : linkUp s.lvn = true) (d : List Byte) :
    Runs (.lvHelloReceived d true) s fun t =>
      (∃ h, t.lvn.hello = some h ∧ h.unitB = (dataNat d 5 1).testBit 0 ∧ h.seq = BitVec.ofNat 32 (dataNat d 32 4)) ∧
      t.lvn.pState = pairOfCode (dataNat d 4 1) ∧ Only [.lvn] s t :=
  .of_next (congrArg Host.Outcome.next (lvFrame_ok hup hlink _)) ⟨⟨_, rfl, rfl, rfl⟩, rfl, lvHelloRx_only d s⟩

theorem runs_frame_bad (hup : lvnUp s = true) (hlink : linkUp s.lvn = true) {d : List Byte} {v : Vector Int 4} {w : Bool} {x : Instr}
    (hx : x = .lvHelloReceived d false ∨ x = .lvCmdFwdReceived d false ∨ x = .lvFaultReceived v w false) :
    Runs x s fun t => t.lvn = { s.lvn with cntCrc := satInc 255 s.lvn.cntCrc } ∧ Only [.lvn] s t := by
  have hexec : exec x s = .next (s.setLvn fun v => { v with cntCrc := satInc 255 v.cntCrc }) := by
    rcases hx with rfl | rfl | rfl <;> exact congrArg Host.Outcome.next (lvFrame_bad hup hlink _)
  exact .of_next hexec ⟨rfl, s.setLvn_only _⟩

theorem runs_lvHeartbeatReceived_bad (hup : lvnUp s = true) (hlink : linkUp s.lvn = true) (d : List Byte) (age : Nat) :
    Runs (.lvHeartbeatReceived d false age) s fun t =>
      t.lvn = { s.lvn with cntCrc := satInc 255 s.lvn.cntCrc, cntMiss := satInc 255 s.lvn.cntMiss } ∧ Only [.lvn] s t := by
  have hmiss : (if (!false) = true ∧ lvnUp s = true ∧ linkUp s.lvn = true then
      s.setLvn fun v => { v with cntMiss := satInc 255 v.cntMiss } else s) = s.setLvn fun v => { v with cntMiss := satInc 255 v.cntMiss } :=
    if_pos ⟨rfl, hup, hlink⟩
  have hexec : exec (.lvHeartbeatReceived d false age) s = .next ((s.setLvn fun v => { v with cntMiss := satInc 255 v.cntMiss }).setLvn
      fun v => { v with cntCrc := satInc 255 v.cntCrc }) := by
    refine congrArg Host.Outcome.next ?_
    rw [hmiss]
    exact lvFrame_bad (s := s.setLvn fun v => { v with cntMiss := satInc 255 v.cntMiss }) hup hlink _
  exact .of_next hexec ⟨rfl, (s.setLvn_only _).trans (State.setLvn_only _ _)⟩

/-! ### Presence (R357, R370) -/

theorem runs_lvPresInFall (hst : s.lvn.st = .standby) : Runs .lvPresInFall s fun t =>
    t.sys = { s.sys with inp := { s.sys.inp with presIn := false } } ∧ t.lvn = { s.lvn with presCheck := true } ∧ Only [.sys, .lvn] s t := by
  refine .of_guard rfl hst ⟨rfl, rfl, ?_⟩
  exact Only.after (State.setLvn_only _ _) rfl ((Only.refl _ s).set_sys rfl)

theorem runs_lvPresInRise (s : State) : Runs .lvPresInRise s fun t =>
    t.sys = { s.sys with inp := { s.sys.inp with presIn := true } } ∧ t.lvn = { s.lvn with presCheck := false } ∧ Only [.sys, .lvn] s t :=
  .of_next rfl ⟨rfl, rfl, Only.after (State.setLvn_only _ _) rfl ((Only.refl _ s).set_sys rfl)⟩

end

/-- Settles O44, row by row. -/
theorem theLinkCarriesHeartbeats : Obligations.TheLinkCarriesHeartbeats := by
  intro s
  refine ⟨fun hup => ⟨fun lat hfresh => runs_lvnLinkTrained hup hfresh lat,
    fun l hlane => ⟨runs_lvnLaneDown hup hlane, runs_lvnLaneDown_last hup hlane⟩,
    fun l htrained _ => runs_lvnLaneRetrain hup htrained l, fun hlink => ?_⟩, runs_lvPresInFall, runs_lvPresInRise s⟩
  exact ⟨runs_lvHeartbeatSend hup hlink, runs_lvHelloSend hup hlink,
    fun d age hst hcheck => runs_lvHeartbeatReceived hup hlink hst hcheck d age, runs_lvHelloReceived hup hlink,
    fun d v w x hx => runs_frame_bad hup hlink hx, runs_lvHeartbeatReceived_bad hup hlink⟩

end Sys2Proof.Machine
end

section
/-! Proofs about the roles of a pair: negotiation, take-over, the loss of the partner, and the split check (R360, R361, R370 to
R376). -/
namespace Sys2Proof.Machine

open Sys2Proof

section
variable {s : State}

/-! ### Roles (R360, R385) -/

theorem setPair_lvn (st : PairState) (s : State) : (setPair st s).lvn = { s.lvn with st := st } := by
  unfold setPair
  split
  · next h => rw [← h]
  · exact (raise_only _ _ _).same .lvn rfl

theorem setRole_lvn (st : PairState) (cause : Nat) (s : State) : (setRole st cause s).lvn =
    { s.lvn with takeCause := cause, takeNew := st, takeCount := s.lvn.takeCount + 1, takeTime := s.stamp, st := st } :=
  setPair_lvn st _

/-- A role that is taken shows on the status contact; nothing else of the module's state changes. -/
theorem setRole_sys (st : PairState) (cause : Nat) (s : State) :
    ∃ c, (setRole st cause s).sys = { s.sys with pins := { s.sys.pins with stat := c } } := by
  refine ⟨statCode (setPair st (s.setLvn fun v =>
    { v with takeCause := cause, takeNew := st, takeCount := v.takeCount + 1, takeTime := s.stamp })), ?_⟩
  have hsys : ∀ u : State, (setPair st u).sys = u.sys := fun u => (setPair_only st u).same .sys rfl
  unfold setRole restat
  dsimp only
  rw [hsys]
  rfl

theorem fullService_lvn (s : State) : (fullService s).lvn = s.lvn := (fullService_only s).same .lvn rfl

theorem fullService_sys (s : State) : (fullService s).sys.mode = .inService ∧ (fullService s).sys.step = 12 ∧
    (fullService s).sys.pins.faultLow = false := by
  have hsys : ∀ u : State, (timMaster u).sys = u.sys := fun u => (timMaster_only u).same .sys rfl
  unfold fullService restat
  dsimp only
  rw [hsys]
  exact ⟨rfl, rfl, rfl⟩

/-- A role taken at step 11, before what it begins: the shared islands change with it. -/
def roleTaken (st : PairState) (s : State) : State :=
  if st.holds then uiTakeControl (setRole st 7 s) else noted uiListenEntry (setRole st 7 s)

theorem roleTaken_only (st : PairState) (s : State) : Only [.evr, .ui] (setRole st 7 s) (roleTaken st s) := by
  unfold roleTaken
  split
  · exact uiTakeControl_only _
  · exact noted_only _ _ (fun u => (uiListenEntry_only u).mono rfl) rfl (Only.refl _ _)

theorem roleTaken_lvn (st : PairState) (s : State) : (roleTaken st s).lvn = (setRole st 7 s).lvn := (roleTaken_only st s).same .lvn rfl

theorem roleTaken_sys (st : PairState) (s : State) : (roleTaken st s).sys = (setRole st 7 s).sys := (roleTaken_only st s).same .sys rfl

/-- The roles that end the start sequence. -/
theorem settleRole_serves {st : PairState} (h : st ≠ .roleClash ∧ st ≠ .recipeClash ∧ st ≠ .updating) (s : State) :
    settleRole st s = fullService (roleTaken st s) := by
  obtain ⟨hrole, hrecipe, hupdating⟩ := h
  cases st with
  | roleClash => exact absurd rfl hrole
  | recipeClash => exact absurd rfl hrecipe
  | updating => exact absurd rfl hupdating
  | _ => rfl

/-- The others leave the unit at step 11. -/
theorem settleRole_waits {st : PairState} (h : st = .updating ∨ st = .roleClash ∨ st = .recipeClash) (s : State) :
    Only [.evr, .imz] (roleTaken st s) (settleRole st s) := by
  rcases h with rfl | rfl | rfl
  · exact (lvnEvent_only 14 0 0 (roleTaken .updating s)).mono rfl
  · exact Only.after (enterConflict_only _) rfl ((lvnEvent_only 12 0 0 (roleTaken .roleClash s)).mono rfl)
  · exact (lvnEvent_only 12 0 1 (roleTaken .recipeClash s)).mono rfl

theorem negotiate_of_table (hst : s.lvn.st = .negotiating) (hstep : s.sys.step = 11) {st : PairState} (hrole : roleByTable s = some st) :
    negotiate s = if st.holds ∧ s.sup.pfail then s else settleRole st s := by
  have hready : ¬ (s.lvn.st ≠ .negotiating ∨ s.sys.step ≠ 11) := fun h => h.elim (· hst) (· hstep)
  unfold negotiate
  rw [if_neg hready, hrole]

theorem runs_roleNegotiation_serves (hst : s.lvn.st = .negotiating) (hstep : s.sys.step = 11) {st : PairState}
    (hrole : roleByTable s = some st) (hserves : st = .active ∨ st = .standby ∨ st = .solo) (hpower : s.sup.pfail = false) :
    Runs .roleNegotiation s fun t => t.lvn.st = st ∧ t.lvn.takeCause = 7 ∧ t.lvn.takeNew = st ∧
      t.lvn.takeCount = s.lvn.takeCount + 1 ∧ t.sys.mode = .inService ∧ t.sys.step = 12 ∧ t.sys.pins.faultLow = false := by
  have hsettle : settleRole st s = fullService (roleTaken st s) := by
    refine settleRole_serves ?_ s
    rcases hserves with rfl | rfl | rfl <;> decide
  refine .of_next (congrArg Host.Outcome.next (negotiate_of_table hst hstep hrole)) ?_
  rw [if_neg (fun h => Bool.false_ne_true (hpower.symm.trans h.2)), hsettle, fullService_lvn, roleTaken_lvn, setRole_lvn]
  exact ⟨rfl, rfl, rfl, rfl, fullService_sys _⟩

theorem runs_roleNegotiation_waits (hst : s.lvn.st = .negotiating) (hstep : s.sys.step = 11) {st : PairState}
    (hrole : roleByTable s = some st) (hwaits : st = .updating ∨ st = .roleClash ∨ st = .recipeClash) :
    Runs .roleNegotiation s fun t => t.lvn.st = st ∧ t.sys.step = 11 ∧ t.sys.mode = s.sys.mode := by
  have hholds : st.holds = false := by rcases hwaits with rfl | rfl | rfl <;> rfl
  obtain ⟨c, hsys⟩ := setRole_sys st 7 s
  have honly := settleRole_waits hwaits s
  refine .of_next (congrArg Host.Outcome.next (negotiate_of_table hst hstep hrole)) ?_
  rw [if_neg (fun h => Bool.false_ne_true (hholds.symm.trans h.1)), honly.same .lvn rfl, honly.same .sys rfl, roleTaken_lvn,
    roleTaken_sys, setRole_lvn, hsys]
  exact ⟨rfl, hstep, rfl⟩

/-! ### The split check begins and ends (R374, R375) -/

theorem splitStart_lvn (s : State) : (splitStart s).lvn = { s.lvn with check := true } := by
  rw [splitStart, (imzBeat_only _ _ _).same .lvn rfl]
  exact lvnEvent_lvn _ _ _ _

theorem splitStart_sys (s : State) : (splitStart s).sys = s.sys := (splitStart_only s).same .sys rfl

theorem splitEnd_lvn (s : State) : (splitEnd s).lvn = { s.lvn with check := false } := by
  unfold splitEnd
  split
  · exact lvnEvent_lvn _ _ _ _
  · next h => rw [← Bool.eq_false_iff.mpr h]

theorem runs_peerWaitExpiry (hst : s.lvn.st = .negotiating) (hstep : s.sys.step = 11) (hhello : s.lvn.hello = none)
    (hpres : s.sys.inp.presIn = true) (hpower : s.sup.pfail = false) : Runs .peerWaitExpiry s fun t =>
      t.lvn.st = (if s.sys.roleB then .splitStandby else .splitActive) ∧ t.lvn.check = true ∧ t.sys.mode = .inService := by
  refine .of_guard rfl ⟨hst, hstep, hhello, hpres, .inr (by rw [hpower]; rfl)⟩ ?_
  generalize hrole : (if s.sys.roleB then PairState.splitStandby else .splitActive) = st
  have hserves : st ≠ .roleClash ∧ st ≠ .recipeClash ∧ st ≠ .updating := by
    rw [← hrole]
    split <;> decide
  rw [splitStart_lvn, splitStart_sys, settleRole_serves hserves, fullService_lvn, roleTaken_lvn, setRole_lvn]
  exact ⟨rfl, rfl, (fullService_sys _).1⟩

/-! ### Take-over (R370, R371) -/

/-- The outputs of a standby that has taken control, after its role. -/
def takenOuts (volts : Vector Int 4) (s : State) : State :=
  noted (fun a => uiTakeOver (aoTake volts (dioTake (setOut true (clearHand a))))) s

theorem takenOuts_lvn (volts : Vector Int 4) (s : State) : (takenOuts volts s).lvn = s.lvn := by
  have hinner : ∀ a : State, (uiTakeOver (aoTake volts (dioTake (setOut true (clearHand a))))).lvn = a.lvn := by
    intro a
    rw [(uiTakeOver_only _).same .lvn rfl, (aoTake_only _ _).same .lvn rfl, (dioTake_only _).same .lvn rfl]
    rfl
  rw [takenOuts, noted, (cellNotify_only _ _).same .lvn rfl, hinner]

theorem takenOuts_outEn (volts : Vector Int 4) (s : State) : (takenOuts volts s).sys.outEn = true := by
  have hinner : ∀ a : State, (uiTakeOver (aoTake volts (dioTake (setOut true (clearHand a))))).sys = (setOut true (clearHand a)).sys := by
    intro a
    rw [(uiTakeOver_only _).same .sys rfl, (aoTake_only _ _).same .sys rfl, (dioTake_only _).same .sys rfl]
  rw [takenOuts, noted, (cellNotify_only _ _).same .sys rfl, hinner]
  rfl

/-- A standby in service that loses its partner has control, its outputs enabled, and counts nothing new. -/
theorem takeOver_standby (hst : s.lvn.st = .standby) (hpower : s.sup.pfail = false) (hmode : s.sys.mode = .inService) (cause : Nat)
    (volts : Vector Int 4) (swap : Bool) :
    (takeOver cause volts swap s).lvn.st = .active ∧ (takeOver cause volts swap s).lvn.takeCause = cause ∧
    (takeOver cause volts swap s).sys.outEn = true ∧ (takeOver cause volts swap s).lvn.replay = true ∧
    (takeOver cause volts swap s).lvn.cntMiss = s.lvn.cntMiss ∧ (cause ≠ 1 → (takeOver cause volts swap s).lvn.check = true) := by
  have hmay : ¬ (s.lvn.st ≠ .standby ∨ s.sup.pfail = true ∨ s.sys.mode = .lastBreath ∨ s.sys.mode = .safe) := by
    rw [hst, hpower, hmode]
    decide
  have hlvn : ∀ u : State, (swapLost swap (recTake u)).lvn = u.lvn := fun u =>
    ((swapLost_only _ _).same .lvn rfl).trans ((recTake_only u).same .lvn rfl)
  have hsys : ∀ u : State, (swapLost swap (recTake u)).sys = u.sys := fun u =>
    ((swapLost_only _ _).same .sys rfl).trans ((recTake_only u).same .sys rfl)
  have hrole : ∀ (p : Prop) [Decidable p] (u : State), (if p then u else lvnEvent 13 0 0 (inhibitAll u)).lvn = u.lvn := by
    intro p _ u
    split
    · rfl
    · exact lvnEvent_lvn _ _ _ _
  unfold takeOver
  rw [if_neg hmay]
  dsimp only
  rw [show ∀ u, noted (fun a => uiTakeOver (aoTake volts (dioTake (setOut true (clearHand a))))) u = takenOuts volts u from fun _ => rfl]
  split
  · next hcause =>
    rw [State.setLvn_lvn, State.setLvn_sys, hlvn, hsys, takenOuts_lvn, takenOuts_outEn, hrole, setRole_lvn]
    exact ⟨rfl, rfl, rfl, rfl, rfl, fun h => absurd hcause h⟩
  · rw [splitStart_lvn, splitStart_sys, State.setLvn_lvn, State.setLvn_sys, hlvn, hsys, takenOuts_lvn, takenOuts_outEn, hrole, setRole_lvn]
    exact ⟨rfl, rfl, rfl, rfl, rfl, fun _ => rfl⟩

section
variable (hst : s.lvn.st = .standby) (hpower : s.sup.pfail = false) (hmode : s.sys.mode = .inService) (volts : Vector Int 4)
  (swap : Bool)
include hst hpower hmode

theorem runs_lvFaultReceived (hup : lvnUp s = true) (hlink : linkUp s.lvn = true) : Runs (.lvFaultReceived volts swap true) s fun t =>
    t.lvn.st = .active ∧ t.lvn.takeCause = 1 ∧ t.sys.outEn = true ∧ t.lvn.replay = true := by
  obtain ⟨hactive, hcause, hout, hreplay, -, -⟩ := takeOver_standby hst hpower hmode 1 volts swap
  exact .of_next (congrArg Host.Outcome.next (lvFrame_ok hup hlink _)) ⟨hactive, hcause, hout, hreplay⟩

theorem runs_presCheckExpiry (hcheck : s.lvn.presCheck = true) : Runs (.presCheckExpiry volts swap) s fun t =>
    t.lvn.st = .active ∧ t.lvn.takeCause = 2 ∧ t.sys.outEn = true ∧ t.lvn.replay = true ∧ t.lvn.check = true := by
  obtain ⟨hactive, hcause, hout, hreplay, -, hsplit⟩ :=
    takeOver_standby (s := s.setLvn fun v => { v with presCheck := false }) hst hpower hmode 2 volts swap
  exact .of_guard rfl hcheck ⟨hactive, hcause, hout, hreplay, hsplit (by decide)⟩

theorem runs_lvHeartbeatLoss_standby (hup : lvnUp s = true) : Runs (.lvHeartbeatLoss volts swap) s fun t =>
    t.lvn.st = .active ∧ t.lvn.takeCause = 3 ∧ t.sys.outEn = true ∧ t.lvn.cntMiss = satAdd 255 s.lvn.cntMiss 4 := by
  obtain ⟨hactive, hcause, hout, -, hmiss, -⟩ :=
    takeOver_standby (s := s.setLvn fun v => { v with cntMiss := satAdd 255 v.cntMiss 4 }) hst hpower hmode 3 volts swap
  have hloss : beatLoss volts swap s = takeOver 3 volts swap (s.setLvn fun v => { v with cntMiss := satAdd 255 v.cntMiss 4 }) := by
    unfold beatLoss
    rw [hst]
  refine .of_guard rfl hup ?_
  rw [hloss]
  exact ⟨hactive, hcause, hout, hmiss⟩

end

/-! ### The loss of the partner (R374) -/

theorem runs_lvHeartbeatLoss_active (hst : s.lvn.st = .active) (hup : lvnUp s = true) (volts : Vector Int 4) (swap : Bool) :
    Runs (.lvHeartbeatLoss volts swap) s fun t => t.lvn.st = (if s.sys.inp.presIn then .splitActive else .solo) ∧
      t.lvn.synced = false ∧ t.lvn.check = (if s.sys.inp.presIn then true else s.lvn.check) ∧ t.sys = s.sys := by
  have hloss : beatLoss volts swap s = splitEnter (s.setLvn fun v => { v with cntMiss := satAdd 255 v.cntMiss 4 }) := by
    unfold beatLoss
    rw [hst]
  have hsys := (splitEnter_only (s.setLvn fun v => { v with cntMiss := satAdd 255 v.cntMiss 4 })).same .sys rfl
  refine .of_guard rfl hup ?_
  rw [hloss]
  refine (and_assoc.trans (and_congr_right fun _ => and_assoc)).mp ⟨?_, hsys⟩
  unfold splitEnter
  dsimp only
  rw [State.setLvn_sys]
  split
  · rw [splitStart_lvn, setPair_lvn]
    exact ⟨rfl, rfl, rfl⟩
  · rw [setPair_lvn]
    exact ⟨rfl, rfl, rfl⟩

/-! ### Islands held open (R373) -/

theorem aoSelect_held (s : State) (c : Fin 4) : (aoSelect s c).held = s.ao[c].held := by
  have hdrive : ∀ (a : Ao) (l w : Nat), (a.drive l w).held = a.held := by
    intro a l w
    unfold Ao.drive
    dsimp only
    split <;> rfl
  unfold aoSelect
  dsimp only
  split
  · rfl
  · split
    · exact hdrive _ _ _
    · split
      · exact hdrive _ _ _
      · split <;> exact hdrive _ _ _

theorem aoNotify_ao (c : Fin 4) (s0 s1 : State) : (aoNotify c s0 s1).ao = s1.ao := (aoNotify_only c s0 s1).same .ao rfl

theorem runs_aoHeldRecheck {c : Fin 4} (hheld : s.ao[c].held = true) (v : Int) :
    Runs (.aoHeldRecheck c v false) s (fun t => t.ao[c].held = true ∧ t.ao[c].term = v ∧ t.ao[c].code = s.ao[c].code ∧
      (∀ d : Fin 4, d ≠ c → t.ao[d] = s.ao[d]) ∧ Only [.ao, .evr] s t) ∧
    Runs (.aoHeldRecheck c v true) s (fun t => t.ao[c].held = false ∧
      t.ao[c] = aoSelect (s.setAo c fun a => { a with term := v, held := false }) c ∧
      (∀ d : Fin 4, d ≠ c → t.ao[d] = s.ao[d]) ∧ Only [.ao, .evr] s t) := by
  constructor
  · refine .of_guard rfl hheld ?_
    dsimp only
    rw [if_neg Bool.false_ne_true, aoNotify_ao, State.setAo_ao_self]
    exact ⟨rfl, rfl, rfl, fun d hd => State.setAo_ao_other _ _ _ _ hd,
      Only.after (aoNotify_only _ _ _) rfl ((s.setAo_only _ _).mono rfl)⟩
  · refine .of_guard rfl hheld ?_
    dsimp only
    rw [if_pos rfl, aoNotify_ao, State.setAo_ao_self, aoSelect_held]
    refine ⟨by rw [State.setAo_ao_self]; rfl, rfl, fun d hd => ?_, ?_⟩
    · rw [State.setAo_ao_other _ _ _ _ hd, State.setAo_ao_other _ _ _ _ hd]
    · exact Only.after (aoNotify_only _ _ _) rfl (((s.setAo_only _ _).trans (State.setAo_only _ _ _)).mono rfl)

/-! ### Split (R375, R376) -/

theorem runs_splitCheckExpiry_active (hcheck : s.lvn.check = true) (hst : s.lvn.st = .splitActive) :
    Runs .splitCheckExpiry s fun t => t.lvn.st = .solo ∧ t.lvn.check = false := by
  refine .of_guard rfl hcheck ?_
  rw [splitKeep, if_neg (by rw [hst]; decide), (aoUnhold_only _).same .lvn rfl, splitEnd_lvn, setPair_lvn]
  exact ⟨rfl, rfl⟩

/-- A unit without the state copy that may take control. -/
theorem splitTake_free (hpower : s.sup.pfail = false) (hmode : s.sys.mode = .inService) (st : PairState) :
    (splitTake st s).lvn = (setRole st 6 s).lvn ∧ (splitTake st s).sys = (inhibitAll (setRole st 6 s)).sys := by
  have hmay : ¬ (s.sup.pfail = true ∨ s.sys.mode = .safe ∨ s.sys.mode = .lastBreath) := by
    rw [hpower, hmode]
    decide
  rw [splitTake, if_neg hmay]
  exact ⟨(uiTakeControl_only _).same .lvn rfl, (uiTakeControl_only _).same .sys rfl⟩

theorem runs_splitCheckExpiry_standby (hcheck : s.lvn.check = true) (hst : s.lvn.st = .splitStandby) (hpower : s.sup.pfail = false)
    (hmode : s.sys.mode = .inService) : Runs .splitCheckExpiry s fun t =>
      t.lvn.st = .solo ∧ t.lvn.check = false ∧ t.lvn.takeCause = 6 := by
  refine .of_guard rfl hcheck ?_
  rw [splitKeep, if_pos hst, splitEnd_lvn, (splitTake_free hpower hmode .solo).1, setRole_lvn]
  exact ⟨rfl, rfl, rfl⟩

theorem runs_splitPartnerLoss (hst : s.lvn.st = .splitStandby) (hcheck : s.lvn.check = false) (hpower : s.sup.pfail = false)
    (hmode : s.sys.mode = .inService) : Runs .splitPartnerLoss s fun t => t.lvn.st = .solo ∧ t.lvn.takeCause = 6 ∧
      t.sys.inhEnd = (if s.startTime = 0 then none else some (s.now + sec s.startTime)) := by
  obtain ⟨hlvn, hsys⟩ := splitTake_free hpower hmode .solo
  have hnow : (setRole .solo 6 s).now = s.now := (setRole_only _ _ _).same .now rfl
  have hrcp : (setRole .solo 6 s).rcp = s.rcp := (setRole_only _ _ _).same .rcp rfl
  have htime : (setRole .solo 6 s).startTime = s.startTime := by
    have hbank : (setRole .solo 6 s).activeBank = s.activeBank := by simp only [State.activeBank, hrcp]
    rw [State.startTime, State.cfgNat, hbank, State.startTime, State.cfgNat]
  refine .of_guard rfl ⟨hst, hcheck⟩ ?_
  rw [hlvn, hsys, setRole_lvn, inhibitAll]
  dsimp only
  rw [htime, hnow]
  exact ⟨rfl, rfl, rfl⟩

end

/-- Settles O45, row by row. -/
theorem rolesAreTakenByTheirTable : Obligations.RolesAreTakenByTheirTable := by
  intro s
  refine ⟨fun hst hstep => ⟨fun st => runs_roleNegotiation_serves hst hstep, fun st => runs_roleNegotiation_waits hst hstep,
      runs_peerWaitExpiry hst hstep⟩,
    fun hst hpower hmode volts swap => ⟨runs_lvFaultReceived hst hpower hmode volts swap,
      runs_presCheckExpiry hst hpower hmode volts swap, runs_lvHeartbeatLoss_standby hst hpower hmode volts swap⟩,
    fun hst hup volts swap => runs_lvHeartbeatLoss_active hst hup volts swap, fun c v hheld => runs_aoHeldRecheck hheld v,
    runs_splitCheckExpiry_active, runs_splitCheckExpiry_standby, runs_splitPartnerLoss⟩

end Sys2Proof.Machine
end

section
/-! Proofs about the partner's images, and about the stop and the loopback test of the link (R358, R380, R383). -/
namespace Sys2Proof.Machine

open Sys2Proof

section
variable {s : State}

/-! ### Images (R358, R380) -/

theorem imageSend_of_updating (hup : lvnUp s = true) (hlink : linkUp s.lvn = true) (hholds : s.lvn.st.holds = true)
    (hpartner : s.lvn.pState = .updating) {o : Nat} (hsending : s.lvn.sending = some (0, o))
    (hmore : o < imgLength (s.rcp.recipes[s.rcp.active]).bank) :
    imageSend s = lvSend [(0x0B, 0, bytesLE 1 0 ++ bytesLE 3 0 ++ bytesLE 4 o ++
        memBytes (s.rcp.recipes[s.rcp.active]).bank o (min 4088 (imgLength (s.rcp.recipes[s.rcp.active]).bank - o)))]
      (s.setLvn fun v => { v with sending := some (0, o + min 4088 (imgLength (s.rcp.recipes[s.rcp.active]).bank - o)) }) := by
  have hwanted : imageWanted s = some 0 := if_pos (.inl hpartner)
  have himage : imageOf s 0 = (s.rcp.recipes[s.rcp.active]).bank := by
    unfold imageOf
    dsimp only
    rw [if_neg fun h => h.1 rfl]
    rfl
  have hpart : min 4088 (imgLength (s.rcp.recipes[s.rcp.active]).bank - o) ≠ 0 := by omega
  unfold imageSend
  rw [if_pos ⟨hup, hlink, hholds⟩, hwanted]
  dsimp only
  rw [hsending, himage]
  simp only [↓reduceIte, if_neg hpart]

theorem runs_lvImageSend (hup : lvnUp s = true) (hlink : linkUp s.lvn = true) (hholds : s.lvn.st.holds = true)
    (hpartner : s.lvn.pState = .updating) {o : Nat} (hsending : s.lvn.sending = some (0, o))
    (hmore : o < imgLength (s.rcp.recipes[s.rcp.active]).bank) : Runs .lvImageSend s fun t =>
      t.lvn.sending = some (0, o + min 4088 (imgLength (s.rcp.recipes[s.rcp.active]).bank - o)) ∧
      t.lvn.sent = [(0x0B, 0, bytesLE 1 0 ++ bytesLE 3 0 ++ bytesLE 4 o ++
        memBytes (s.rcp.recipes[s.rcp.active]).bank o (min 4088 (imgLength (s.rcp.recipes[s.rcp.active]).bank - o)))] ∧
      Only [.lvn] s t :=
  .of_next (congrArg Host.Outcome.next (imageSend_of_updating hup hlink hholds hpartner hsending hmore))
    ⟨rfl, rfl, (s.setLvn_only _).trans (State.setLvn_only _ _)⟩

theorem other_recipe_ne (i : Fin 2) : 1 - i ≠ i := by revert i; decide

theorem runs_lvImageReceived {d : List Byte} (hup : lvnUp s = true) (hlink : linkUp s.lvn = true) (htakes : imageTakes s = true)
    (hkind : dataNat d 0 1 ≤ 1) (hfits : dataNat d 4 4 + (d.drop 8).length ≤ 0x200000) : Runs (.lvImageReceived d true) s fun t =>
      t.rcp.recipes[imageTarget s].part = memFill s.rcp.recipes[imageTarget s].part (dataNat d 4 4) (d.drop 8) ∧
      t.rcp.recipes[imageTarget s].st = .writing ∧ t.rcp.recipes[imageTarget s].bank = s.rcp.recipes[imageTarget s].bank ∧
      t.rcp.recipes[1 - imageTarget s] = s.rcp.recipes[1 - imageTarget s] ∧ t.lvn.imageKind = dataNat d 0 1 ∧
      Only [.rcp, .lvn] s t := by
  have htake : lvFrame true (imageTake d) s = imageTake d s := lvFrame_ok hup hlink _
  have honly : Only [.rcp, .lvn] s (imageTake d s) := imageTake_only d s
  refine .of_next (congrArg Host.Outcome.next htake) ?_
  rw [imageTake, if_pos ⟨htakes, hfits, hkind⟩] at honly ⊢
  have hself : ∀ f : Recipe → Recipe, (s.rcp.setRecipe (imageTarget s) f).recipes[imageTarget s] = f s.rcp.recipes[imageTarget s] :=
    fun f => Vector.getElem_set_self _
  rw [State.setLvn_rcp, hself]
  exact ⟨rfl, rfl, rfl, Vector.set_other _ (other_recipe_ne _) _, rfl, honly⟩

theorem runs_lvImageReceived_beyond {d : List Byte} (hup : lvnUp s = true) (hlink : linkUp s.lvn = true)
    (hbeyond : 0x200000 < dataNat d 4 4 + (d.drop 8).length) : Runs (.lvImageReceived d true) s fun t => t = s :=
  .of_next (congrArg Host.Outcome.next (lvFrame_ok hup hlink _)) (if_neg fun h => Nat.not_le.mpr hbeyond h.2.1)

/-! ### Stop (R383) -/

/-- A lane that has been taken down is down. -/
theorem laneDown_lane (l : Fin 2) (s : State) : (laneDown l s).lvn.lanes = s.lvn.lanes.set l false := by
  unfold laneDown
  split
  · next h => rw [← h]; exact (Vector.set_getElem_self _).symm
  · dsimp only
    split
    · rw [lvnEvent_lvn]
      rfl
    · rw [lvnEvent_lvn, State.setLvn_lvn, lvnEvent_lvn]
      rfl

theorem runs_lvnStop (hrun : s.lvn.stop = false) (hmay : lvnMayStop s = true) (src : Source) : Runs (.lvnStop src true) s fun t =>
    t.lvn.stop = true ∧ linkUp t.lvn = false ∧ Only [.lvn, .evr] s t := by
  have hstop : lvnStop src true s = (laneDown 1 (laneDown 0 s)).setLvn fun v => { v with stop := true } := by
    rw [lvnStop, if_neg (by rw [hrun]; decide), if_neg (by rw [hmay]; decide), if_pos rfl]
  have hlanes : (laneDown 1 (laneDown 0 s)).lvn.lanes = (s.lvn.lanes.set 0 false).set 1 false := by
    rw [laneDown_lane, laneDown_lane]
    rfl
  refine .of_next (congrArg Host.Outcome.next hstop) ⟨rfl, ?_, ?_⟩
  · rw [State.setLvn_lvn, linkUp]
    dsimp only
    rw [hlanes]
    simp
  · exact Only.after (State.setLvn_only _ _) rfl (Only.after (laneDown_only _ _) rfl ((laneDown_only _ _).mono rfl))

theorem runs_lvnStop_refused (hrun : s.lvn.stop = false) (hmay : lvnMayStop s = false) (src : Source) :
    Runs (.lvnStop src true) s fun t => t.sys.werr.reason = 8 ∧ t.lvn = s.lvn ∧ Only [.sys] s t := by
  have hstop : lvnStop src true s = logWerr 8 src lvnCtlAddr s := by
    rw [lvnStop, if_neg (by rw [hrun]; decide), if_pos (by rw [hmay]; decide)]
  exact .of_next (congrArg Host.Outcome.next hstop) ⟨rfl, rfl, logWerr_only _ _ _ _⟩

theorem runs_lvnStop_ended (hstopped : s.lvn.stop = true) (src : Source) : Runs (.lvnStop src false) s fun t =>
    t.lvn = { s.lvn with stop := false, loop := 0 } ∧ Only [.lvn] s t := by
  have hstop : lvnStop src false s = s.setLvn fun v => { v with stop := false, loop := 0 } := by
    rw [lvnStop, if_neg (by rw [hstopped]; decide), if_neg (fun h => Bool.false_ne_true h.1), if_neg Bool.false_ne_true]
  exact .of_next (congrArg Host.Outcome.next hstop) ⟨rfl, s.setLvn_only _⟩

/-! ### Loopback (R383) -/

theorem depth_ne_zero {d : BitVec 2} (h : d ≠ 0) : d.toNat ≠ 0 := fun hz => h (BitVec.eq_of_toNat_eq hz)

theorem runs_lvnLoopTest {d : BitVec 2} (hd : d ≠ 0) (hstopped : s.lvn.stop = true) (src : Source) : Runs (.lvnLoopTest src d) s fun t =>
    t.lvn.loop = d.toNat ∧ t.lvn.loopDepth = d.toNat ∧ t.lvn.loopRes = 1 ∧ t.lvn.loopErr = 0 ∧ Only [.lvn] s t := by
  refine .of_guard rfl hstopped ?_
  rw [if_neg (depth_ne_zero hd)]
  exact ⟨rfl, rfl, rfl, rfl, (s.setLvn_only _).trans (State.setLvn_only _ _)⟩

theorem runs_lvnLoopTest_refused {d : BitVec 2} (hd : d ≠ 0) (hrun : s.lvn.stop = false) (hbare : s.bare = false)
    (hnew : d.toNat ≠ s.lvn.loop) (src : Source) : Runs (.lvnLoopTest src d) s fun t =>
      t.lvn = { s.lvn with loopDepth := d.toNat, loopRes := 4, loopErr := 0 } ∧ t.sys.werr.reason = 1 ∧ Only [.sys, .lvn] s t := by
  refine .of_not_guard rfl (Bool.eq_false_iff.mp hrun) ?_
  dsimp only
  rw [if_neg hnew, hbare, if_neg Bool.false_ne_true, if_neg (depth_ne_zero hd)]
  exact ⟨rfl, rfl, Only.after (State.setLvn_only _ _) rfl ((logWerr_only _ _ _ _).mono rfl)⟩

theorem runs_lvnLoopDone (hrunning : s.lvn.loopRes = 1) (n : Nat) : Runs (.lvnLoopDone n) s fun t =>
    t.lvn = { s.lvn with loopRes := (if n = 0 then 2 else 3), loopErr := min 255 n, loop := 0 } ∧ Only [.lvn] s t :=
  .of_guard rfl hrunning ⟨rfl, s.setLvn_only _⟩

end

/-- Settles O48, row by row. -/
theorem imagesAndLinkTestsRun : Obligations.ImagesAndLinkTestsRun := by
  intro s
  refine ⟨fun o hup hlink hholds hpartner => runs_lvImageSend hup hlink hholds hpartner, fun d hup hlink htakes hkind => ⟨runs_lvImageReceived hup hlink htakes hkind,
      runs_lvImageReceived_beyond hup hlink⟩,
    fun src => ⟨fun hrun hmay => runs_lvnStop hrun hmay src, fun hrun hmay => runs_lvnStop_refused hrun hmay src,
      fun hstopped => runs_lvnStop_ended hstopped src, fun d hd => ⟨fun hstopped => runs_lvnLoopTest hd hstopped src,
        fun hrun hbare hnew => runs_lvnLoopTest_refused hd hrun hbare hnew src⟩⟩,
    fun n hrunning => runs_lvnLoopDone hrunning n⟩

end Sys2Proof.Machine
end

section
/-! Proofs about the recorder's pages: slices and entries enter the open pages, and full and flushed pages wait for their commit
(R386, R390, R394, R397, R398). -/
namespace Sys2Proof.Machine

open Sys2Proof

section
variable {s t : State}

/-! ### Commits that begin (R394, R396, R398) -/

theorem commitMay_congr (hbusy : t.recd.busy = s.recd.busy) (hst : t.recd.st = s.recd.st) (hmmc : t.mmc = s.mmc)
    (hsys : t.sys = s.sys) (hlvn : t.lvn = s.lvn) (hsup : t.sup = s.sup) : commitMay t = commitMay s := by
  simp only [commitMay, regionUp, State.standby, hbusy, hst, hmmc, hsys, hlvn, hsup]

theorem commitNext_of_not (h : commitMay s = false) : commitNext s = s := if_pos h

/-- The recorder and the eMMC with a commit under way. -/
def State.committing (s : State) (c : Commit) (r : Rec) : State :=
  (s.setRec fun _ => { r with busy := some c }).setMmc fun m => { m with st := .busy }

theorem commitNext_ring (h : commitMay s = true) {p : RingPage} {l : List RingPage} (hwait : s.recd.rgWait = p :: l) :
    commitNext s = s.committing (ringCommit s.recd p) { s.recd with rgWait := l } := by
  unfold commitNext
  rw [h, if_neg (by decide), hwait]
  rfl

theorem commitNext_slice (h : commitMay s = true) (hring : s.recd.rgWait = []) {p : List (List Byte)} {l : List (List (List Byte))}
    (hwait : s.recd.slWait = p :: l) : commitNext s = s.committing (sliceCommit s.recd p) { s.recd with slWait := l } := by
  unfold commitNext
  rw [h, if_neg (by decide), hring, hwait]
  rfl

/-- A commit that begins takes its page from those that wait; the open pages, the counts and the stored sectors stay. -/
theorem commitNext_keeps_open (s : State) : (∃ b rg sl, (commitNext s).recd = { s.recd with busy := b, rgWait := rg, slWait := sl }) ∧
    (commitNext s).mmc.user = s.mmc.user := by
  unfold commitNext
  split
  · exact ⟨⟨_, _, _, rfl⟩, rfl⟩
  · dsimp only
    split <;> exact ⟨⟨_, _, _, rfl⟩, rfl⟩

theorem commitMay_of_occupied (h : s.recd.busy.isSome = true ∨ s.mmc.st ≠ .ready) : commitMay s = false := by
  rw [commitMay]
  rcases h with h | h
  · rw [Option.isNone_eq_false_iff.mpr h]
    simp only [Bool.false_and]
  · rw [beq_false_of_ne h]
    simp only [Bool.and_false, Bool.false_and]

/-! ### A page that joins those that wait (R394, R397) -/

theorem slicePage_of_open {r : Rec} (h : r.slOpen ≠ []) : slicePage r = { r with slWait := r.slWait ++ [r.slOpen], slOpen := [] } :=
  if_neg h

theorem slicePage_slOpen (r : Rec) : (slicePage r).slOpen = [] := by
  unfold slicePage
  split
  · assumption
  · rfl

theorem slicePage_slWait (r : Rec) : (slicePage r).slWait = r.slWait ++ (if r.slOpen = [] then [] else [r.slOpen]) := by
  unfold slicePage
  split
  · exact (List.append_nil _).symm
  · rfl

theorem commitMay_slicePage (s : State) : commitMay (s.setRec slicePage) = commitMay s := by
  refine commitMay_congr ?_ ?_ rfl rfl rfl rfl <;> rw [State.setRec_recd, slicePage] <;> split <;> rfl

/-- The open slice page is closed, and a commit begins where one may. -/
def sliceTurn (s : State) : State := commitNext (s.setRec slicePage)

theorem sliceTurn_only (s : State) : Only [.recd, .mmc] s (sliceTurn s) :=
  Only.after (commitNext_only _) rfl ((s.setRec_only _).mono rfl)

theorem sliceTurn_user (s : State) : (sliceTurn s).mmc.user = s.mmc.user := (commitNext_keeps_open _).2

theorem sliceTurn_slOpen (s : State) : (sliceTurn s).recd.slOpen = [] := by
  obtain ⟨⟨b, rg, sl, hrecd⟩, -⟩ := commitNext_keeps_open (s.setRec slicePage)
  rw [sliceTurn, hrecd]
  exact slicePage_slOpen _

theorem sliceTurn_of_not (h : commitMay s = false) : sliceTurn s = s.setRec slicePage :=
  commitNext_of_not ((commitMay_slicePage s).trans h)

theorem sliceTurn_commits (h : commitMay s = true) (hring : s.recd.rgWait = []) (hwait : s.recd.slWait = [])
    (hopen : s.recd.slOpen ≠ []) : (sliceTurn s).recd.busy = some (sliceCommit s.recd s.recd.slOpen) ∧
      (sliceTurn s).recd.slWait = [] ∧ (sliceTurn s).mmc.st = .busy := by
  have hpage : (s.setRec slicePage).recd = { s.recd with slWait := [s.recd.slOpen], slOpen := [] } := by
    rw [State.setRec_recd, slicePage_of_open hopen, hwait]
    rfl
  have hturn := commitNext_slice ((commitMay_slicePage s).trans h) (by rw [hpage]; exact hring) (by rw [hpage])
  rw [sliceTurn, hturn, hpage]
  exact ⟨rfl, rfl, rfl⟩

theorem ringPage_of_open {r : Rec} (hopen : r.rgOpen.entries ≠ []) (hroom : r.rgWait.length < 64) :
    ringPage r = { r with rgWait := r.rgWait ++ [r.rgOpen], rgOpen := {} } :=
  if_neg fun h => h.elim hopen (Nat.not_le.mpr hroom)

/-- The open ring page is closed, and a commit begins where one may. -/
def ringTurn (s : State) : State := commitNext (s.setRec ringPage)

theorem ringTurn_only (s : State) : Only [.recd, .mmc] s (ringTurn s) :=
  Only.after (commitNext_only _) rfl ((s.setRec_only _).mono rfl)

theorem ringTurn_user (s : State) : (ringTurn s).mmc.user = s.mmc.user := (commitNext_keeps_open _).2

section
variable (hopen : s.recd.rgOpen.entries ≠ []) (hroom : s.recd.rgWait.length < 64)
include hopen hroom

theorem ringTurn_open : (ringTurn s).recd.rgOpen = {} ∧ (ringTurn s).recd.lost = s.recd.lost := by
  obtain ⟨⟨b, rg, sl, hrecd⟩, -⟩ := commitNext_keeps_open (s.setRec ringPage)
  rw [ringTurn, hrecd, State.setRec_recd, ringPage_of_open hopen hroom]
  exact ⟨rfl, rfl⟩

theorem commitMay_ringPage : commitMay (s.setRec ringPage) = commitMay s := by
  refine commitMay_congr ?_ ?_ rfl rfl rfl rfl <;> rw [State.setRec_recd, ringPage_of_open hopen hroom]

theorem ringTurn_of_not (h : commitMay s = false) : (ringTurn s).recd.busy = s.recd.busy ∧
    (ringTurn s).recd.rgWait = s.recd.rgWait ++ [s.recd.rgOpen] := by
  rw [ringTurn, commitNext_of_not ((commitMay_ringPage hopen hroom).trans h), State.setRec_recd, ringPage_of_open hopen hroom]
  exact ⟨rfl, rfl⟩

theorem ringTurn_commits (h : commitMay s = true) (hwait : s.recd.rgWait = []) :
    (ringTurn s).recd.busy = some (ringCommit s.recd s.recd.rgOpen) ∧ (ringTurn s).recd.rgWait = [] ∧ (ringTurn s).mmc.st = .busy := by
  have hpage : (s.setRec ringPage).recd = { s.recd with rgWait := [s.recd.rgOpen], rgOpen := {} } := by
    rw [State.setRec_recd, ringPage_of_open hopen hroom, hwait]
    rfl
  have hturn := commitNext_ring ((commitMay_ringPage hopen hroom).trans h) (by rw [hpage])
  rw [ringTurn, hturn, hpage]
  exact ⟨rfl, rfl, rfl⟩

end

/-! ### Slices (R390, R394) -/

/-- The open slice page with one slice more. -/
def Rec.withSlice (d : List Byte) (r : Rec) : Rec := { r with slOpen := r.slOpen ++ [d] }

theorem slicePush_of_run (hactive : s.activeUnit = true) (hst : s.recd.st = .run) (hroom : s.recd.slWait.length < 8) (n : Nat) (d : List Byte) :
    slicePush n d s = if 31 ≤ s.recd.slOpen.length then sliceTurn (s.setRec (Rec.withSlice d)) else s.setRec (Rec.withSlice d) := by
  have hfull : (32 ≤ (s.recd.slOpen ++ [d]).length) = (31 ≤ s.recd.slOpen.length) := by
    rw [List.length_append, List.length_singleton]
    exact propext ⟨Nat.le_of_succ_le_succ, Nat.succ_le_succ⟩
  unfold slicePush
  rw [hactive, if_neg (by decide), hst]
  dsimp only
  rw [if_neg (Nat.not_le.mpr hroom)]
  simp only [State.setRec_recd, hfull]
  rfl

theorem slicePush_lost (hactive : s.activeUnit = true) (hst : s.recd.st = .run) (hfull : 8 ≤ s.recd.slWait.length) (n : Nat) (d : List Byte) :
    slicePush n d s = sliceLost n s := by
  unfold slicePush
  rw [hactive, if_neg (by decide), hst]
  dsimp only
  rw [if_pos hfull]

theorem sliceLost_recd (n : Nat) (s : State) : (sliceLost n s).recd =
    { s.recd with lostSlices := satInc 255 s.recd.lostSlices, slicesLost := satInc 0xFFFFFFFF s.recd.slicesLost } :=
  (recEvent_only _ _ _).same .recd rfl

section
variable {n : Fin 80} {x : Slice}

/-- The state with no open slice of a point. -/
def State.unsliced (s : State) (n : Fin 80) : State := s.setPt n fun p => { p with slice := none }

theorem sliceClose_of_open (hslice : s.pev.pts[n].slice = some x) :
    sliceClose n s = slicePush n.val (sliceBytes s n.val x) (s.unsliced n) := by
  unfold sliceClose
  rw [hslice]
  rfl

/-- A slice whose interval has ended closes. -/
theorem runs_sliceClose {P : State → Prop} (hslice : s.pev.pts[n].slice = some x) (hend : x.stop ≤ s.pev.start + scanTicksOf s.scanCode)
    (hP : P (slicePush n.val (sliceBytes s n.val x) (s.unsliced n))) : Runs (.sliceClose n) s P := by
  refine .of_next (congrArg Host.Outcome.next ?_) hP
  rw [← sliceClose_of_open hslice, hslice]
  exact if_pos hend

/-- What a slice that closes leaves of the points. -/
theorem unsliced_pts {u : State} (hpev : u.pev = (s.unsliced n).pev) :
    u.pev.pts[n].slice = none ∧ ∀ m : Fin 80, m ≠ n → u.pev.pts[m] = s.pev.pts[m] := by
  rw [hpev]
  refine ⟨?_, fun m hm => State.setPt_pts_other _ _ _ hm⟩
  rw [State.unsliced, State.setPt_pts_self]

theorem runs_sliceClose_page (hslice : s.pev.pts[n].slice = some x) (hend : x.stop ≤ s.pev.start + scanTicksOf s.scanCode)
    (hactive : s.activeUnit = true) (hst : s.recd.st = .run) (hroom : s.recd.slWait.length < 8) : Runs (.sliceClose n) s fun t =>
      t.pev.pts[n].slice = none ∧
      (s.recd.slOpen.length < 31 → t.recd.slOpen = s.recd.slOpen ++ [sliceBytes s n.val x] ∧ t.recd.slWait = s.recd.slWait) ∧
      (31 ≤ s.recd.slOpen.length → t.recd.slOpen = [] ∧
        (s.recd.busy.isSome = true ∨ s.mmc.st ≠ .ready → t.recd.busy = s.recd.busy ∧
          t.recd.slWait = s.recd.slWait ++ [s.recd.slOpen ++ [sliceBytes s n.val x]]) ∧
        (commitMay s = true → s.recd.rgWait = [] → s.recd.slWait = [] → t.recd.slWait = [] ∧ t.mmc.st = .busy ∧
          t.recd.busy = some (sliceCommit s.recd (s.recd.slOpen ++ [sliceBytes s n.val x])))) ∧
      (∀ m : Fin 80, m ≠ n → t.pev.pts[m] = s.pev.pts[m]) ∧ t.mmc.user = s.mmc.user ∧ Only [.pev, .recd, .mmc] s t := by
  generalize hd : sliceBytes s n.val x = d
  have hentered : Only [.pev, .recd, .mmc] s ((s.unsliced n).setRec (Rec.withSlice d)) :=
    Only.after (State.setRec_only _ _) rfl ((s.setPt_only _ _).mono rfl)
  refine runs_sliceClose hslice hend ?_
  rw [hd, slicePush_of_run (s := s.unsliced n) hactive hst hroom]
  by_cases hfull : 31 ≤ s.recd.slOpen.length
  · rw [if_pos (show 31 ≤ (s.unsliced n).recd.slOpen.length from hfull)]
    have hturn := sliceTurn_only ((s.unsliced n).setRec (Rec.withSlice d))
    have hne : ((s.unsliced n).setRec (Rec.withSlice d)).recd.slOpen ≠ [] := List.append_ne_nil_of_right_ne_nil _ (List.cons_ne_nil _ _)
    obtain ⟨hnone, hothers⟩ := unsliced_pts (s := s) (n := n) (hturn.same .pev rfl)
    refine ⟨hnone, fun h => absurd hfull (Nat.not_le.mpr h), fun _ => ⟨sliceTurn_slOpen _, fun hocc => ?_, fun hmay hring hwait => ?_⟩,
      hothers, sliceTurn_user _, Only.after hturn rfl hentered⟩
    · rw [sliceTurn_of_not (commitMay_of_occupied (s := (s.unsliced n).setRec (Rec.withSlice d)) hocc), State.setRec_recd, slicePage_of_open hne]
      exact ⟨rfl, rfl⟩
    · obtain ⟨hbusy, hleft, hmmc⟩ := sliceTurn_commits (s := (s.unsliced n).setRec (Rec.withSlice d)) hmay hring hwait hne
      exact ⟨hleft, hmmc, hbusy⟩
  · rw [if_neg (show ¬ 31 ≤ (s.unsliced n).recd.slOpen.length from hfull)]
    obtain ⟨hnone, hothers⟩ := unsliced_pts (s := s) (n := n) (u := (s.unsliced n).setRec (Rec.withSlice d)) rfl
    exact ⟨hnone, fun _ => ⟨rfl, rfl⟩, fun h => absurd h hfull, hothers, rfl, hentered⟩

theorem runs_sliceClose_lost (hslice : s.pev.pts[n].slice = some x) (hend : x.stop ≤ s.pev.start + scanTicksOf s.scanCode)
    (hactive : s.activeUnit = true) (hst : s.recd.st = .run) (hfull : 8 ≤ s.recd.slWait.length) : Runs (.sliceClose n) s fun t =>
      t.pev.pts[n].slice = none ∧ t.recd.lostSlices = satInc 255 s.recd.lostSlices ∧ t.recd.slOpen = s.recd.slOpen ∧
      Only [.pev, .recd, .evr] s t := by
  refine runs_sliceClose hslice hend ?_
  rw [slicePush_lost (s := s.unsliced n) hactive hst hfull]
  have hlost := sliceLost_only n.val (s.unsliced n)
  obtain ⟨hnone, -⟩ := unsliced_pts (s := s) (n := n) (hlost.same .pev rfl)
  refine ⟨hnone, ?_, ?_, Only.after hlost rfl ((s.setPt_only _ _).mono rfl)⟩ <;> rw [sliceLost_recd] <;> rfl

end

/-! ### Entries (R397, R398) -/

/-- The open ring page with one entry more. -/
def Rec.withEntry (d : List Byte) (r : Rec) : Rec := { r with rgOpen := { r.rgOpen with entries := r.rgOpen.entries ++ [d] } }

section
variable {e : TrEntry}

theorem recStore_open (hactive : s.activeUnit = true) (hst : s.recd.st = .run) (hroom : s.recd.rgOpen.entries.length < 127)
    (hlost : s.recd.lost = 0) : recStore e s = s.setRec (Rec.withEntry (entryBytes e)) := by
  unfold recStore
  rw [hactive, if_neg (by decide), hst]
  dsimp only
  rw [decide_eq_false (Nat.not_le.mpr hroom), hlost]
  simp only [Nat.lt_irrefl, decide_false, Bool.false_and, Bool.or_self, Bool.false_eq_true, if_false, false_and, hlost]
  rfl

theorem recStore_turn (hactive : s.activeUnit = true) (hst : s.recd.st = .run) (hfull : 127 ≤ s.recd.rgOpen.entries.length)
    (hroom : s.recd.rgWait.length < 64) (hlost : s.recd.lost = 0) :
    recStore e s = (ringTurn s).setRec (Rec.withEntry (entryBytes e)) := by
  have hopen : s.recd.rgOpen.entries ≠ [] := by
    intro h
    rw [h] at hfull
    exact absurd hfull (by decide)
  obtain ⟨hpage, hcount⟩ := ringTurn_open hopen hroom
  unfold recStore
  rw [hactive, if_neg (by decide), hst]
  dsimp only
  rw [decide_eq_true hfull, Bool.true_or, if_pos rfl, show commitNext (s.setRec ringPage) = ringTurn s from rfl, hpage, hcount, hlost,
    if_neg (fun h => h.2 rfl), if_neg (Nat.lt_irrefl 0)]
  rfl

theorem recStore_lost (hactive : s.activeUnit = true) (hst : s.recd.st = .mediaError ∨ s.recd.st = .stopped) :
    (recStore e s).recd.rgOpen = s.recd.rgOpen ∧ (recStore e s).recd.lost = satInc 0xFFFFFFFF s.recd.lost ∧
    Only [.recd, .evr] s (recStore e s) := by
  have hstore : recStore e s = recLose e.time s := by
    unfold recStore
    rw [hactive, if_neg (by decide)]
    rcases hst with hst | hst <;> rw [hst]
  have hcounts : ¬ (s.recd.st = .off ∨ s.recd.st = .noSpace) := by
    rcases hst with hst | hst <;> rw [hst] <;> decide
  have hevent : ∀ u : State, (recEvent 2 0 u).recd = u.recd := fun u => (recEvent_only 2 0 u).same .recd rfl
  rw [hstore]
  refine (and_assoc.mp ⟨?_, (recLose_only _ _).mono rfl⟩)
  unfold recLose
  rw [if_neg hcounts]
  dsimp only
  split
  · exact ⟨rfl, rfl⟩
  · rw [hevent]
    exact ⟨rfl, rfl⟩

section
variable {l : List TrEntry} (hup : regionUp rKEP s = true) (hqueue : s.ann.recQ = e :: l)
include hup hqueue

/-- The annunciator's queue without its oldest entry, which reaches the recorder. -/
theorem runs_recEntry {P : State → Prop} (hP : P (recStore e (s.setAnn fun a => { a with recQ := l }))) : Runs (.recEntry false) s P := by
  have hentry : recEntry false s = recStore e (s.setAnn fun a => { a with recQ := l }) := by
    unfold recEntry
    rw [hup, if_neg (by decide), if_neg Bool.false_ne_true, hqueue]
  exact .of_next (congrArg Host.Outcome.next hentry) hP

variable (hactive : s.activeUnit = true)
include hactive

theorem runs_recEntry_open (hst : s.recd.st = .run) (hroom : s.recd.rgOpen.entries.length < 127) (hlost : s.recd.lost = 0) :
    Runs (.recEntry false) s fun t => t.ann.recQ = l ∧ t.recd.rgOpen.entries = s.recd.rgOpen.entries ++ [entryBytes e] ∧
      t.recd.rgWait = s.recd.rgWait ∧ Only [.ann, .recd] s t := by
  refine runs_recEntry hup hqueue ?_
  rw [recStore_open (s := s.setAnn fun a => { a with recQ := l }) hactive hst hroom hlost]
  exact ⟨rfl, rfl, rfl, Only.after (State.setRec_only _ _) rfl ((s.setAnn_only _).mono rfl)⟩

theorem runs_recEntry_turn (hst : s.recd.st = .run) (hfull : 127 ≤ s.recd.rgOpen.entries.length) (hroom : s.recd.rgWait.length < 64)
    (hlost : s.recd.lost = 0) : Runs (.recEntry false) s fun t => t.recd.rgOpen.entries = [entryBytes e] ∧
      (s.recd.busy.isSome = true ∨ s.mmc.st ≠ .ready → t.recd.busy = s.recd.busy ∧
        t.recd.rgWait = s.recd.rgWait ++ [s.recd.rgOpen]) ∧
      (commitMay s = true → s.recd.rgWait = [] → t.recd.rgWait = [] ∧ t.mmc.st = .busy ∧
        t.recd.busy = some (ringCommit s.recd s.recd.rgOpen)) ∧ t.mmc.user = s.mmc.user ∧ Only [.ann, .recd, .mmc] s t := by
  have hopen : s.recd.rgOpen.entries ≠ [] := by
    intro h
    rw [h] at hfull
    exact absurd hfull (by decide)
  refine runs_recEntry hup hqueue ?_
  generalize hu : (s.setAnn fun a => { a with recQ := l }) = u
  have hrecd : u.recd = s.recd := by rw [← hu]; rfl
  have hmmc : u.mmc = s.mmc := by rw [← hu]; rfl
  have hmay : commitMay u = commitMay s := by
    rw [← hu]
    exact commitMay_congr rfl rfl rfl rfl rfl rfl
  have honly : Only [.ann, .recd, .mmc] s u := by
    rw [← hu]
    exact (s.setAnn_only _).mono rfl
  rw [← hrecd] at hst hfull hroom hlost hopen
  rw [← hrecd, ← hmmc, ← hmay, recStore_turn (s := u) (by rw [← hu]; exact hactive) hst hfull hroom hlost]
  refine ⟨?_, fun hocc => ringTurn_of_not hopen hroom (commitMay_of_occupied hocc), fun hc hwait => ?_, ringTurn_user u,
    Only.after (State.setRec_only _ _) rfl (Only.after (ringTurn_only u) rfl honly)⟩
  · rw [State.setRec_recd, Rec.withEntry, (ringTurn_open hopen hroom).1]
    rfl
  · obtain ⟨hbusy, hleft, hst'⟩ := ringTurn_commits hopen hroom hc hwait
    exact ⟨hleft, hst', hbusy⟩

theorem runs_recEntry_lost (hst : s.recd.st = .mediaError ∨ s.recd.st = .stopped) : Runs (.recEntry false) s fun t =>
    t.ann.recQ = l ∧ t.recd.rgOpen = s.recd.rgOpen ∧ t.recd.lost = satInc 0xFFFFFFFF s.recd.lost ∧ Only [.ann, .recd, .evr] s t := by
  refine runs_recEntry hup hqueue ?_
  obtain ⟨hpage, hlost, honly⟩ := recStore_lost (e := e) (s := s.setAnn fun a => { a with recQ := l }) hactive hst
  refine ⟨?_, hpage, hlost, Only.after honly rfl ((s.setAnn_only _).mono rfl)⟩
  rw [honly.same .ann rfl]
  rfl

end

theorem runs_recEntry_sub {l : List TrEntry} (hup : regionUp rKEP s = true) (hqueue : s.recd.subQ = e :: l) (hactive : s.activeUnit = true)
    (hst : s.recd.st = .run) (hroom : s.recd.rgOpen.entries.length < 127) (hlost : s.recd.lost = 0) : Runs (.recEntry true) s fun t =>
      t.recd.subQ = l ∧ t.recd.rgOpen.entries = s.recd.rgOpen.entries ++ [entryBytes e] ∧ Only [.recd] s t := by
  have hentry : recEntry true s = recStore e (s.setRec fun r => { r with subQ := l }) := by
    unfold recEntry
    rw [hup, if_neg (by decide), if_pos rfl, hqueue]
  refine .of_next (congrArg Host.Outcome.next hentry) ?_
  rw [recStore_open (s := s.setRec fun r => { r with subQ := l }) hactive hst hroom hlost]
  exact ⟨rfl, rfl, (s.setRec_only _).trans (State.setRec_only _ _)⟩

end

/-! ### The flush timers (R394, R397) -/

theorem runs_sliceFlushExpiry (hup : regionUp rKEP s = true) (hroom : s.recd.slWait.length < 8) : Runs .sliceFlushExpiry s fun t =>
    t.recd.slOpen = [] ∧
    (commitMay s = false → t.recd.slWait = s.recd.slWait ++ (if s.recd.slOpen = [] then [] else [s.recd.slOpen])) ∧
    (commitMay s = true → s.recd.rgWait = [] → s.recd.slWait = [] → s.recd.slOpen ≠ [] →
      t.recd.busy = some (sliceCommit s.recd s.recd.slOpen) ∧ t.recd.slWait = [] ∧ t.mmc.st = .busy) ∧
    t.mmc.user = s.mmc.user ∧ Only [.recd, .mmc] s t := by
  refine .of_guard (t := sliceTurn s) rfl ⟨hup, hroom⟩
    ⟨sliceTurn_slOpen s, fun h => ?_, sliceTurn_commits, sliceTurn_user s, sliceTurn_only s⟩
  rw [sliceTurn_of_not h]
  exact slicePage_slWait s.recd

theorem runs_ringFlushExpiry (hup : regionUp rKEP s = true) (hroom : s.recd.rgWait.length < 64) (hopen : s.recd.rgOpen.entries ≠ []) :
    Runs .ringFlushExpiry s fun t => t.recd.rgOpen = {} ∧ (commitMay s = false → t.recd.rgWait = s.recd.rgWait ++ [s.recd.rgOpen]) ∧
      (commitMay s = true → s.recd.rgWait = [] → t.recd.busy = some (ringCommit s.recd s.recd.rgOpen) ∧
        t.recd.rgWait = [] ∧ t.mmc.st = .busy) ∧ t.mmc.user = s.mmc.user ∧ Only [.recd, .mmc] s t :=
  .of_guard (t := ringTurn s) rfl hup ⟨(ringTurn_open hopen hroom).1, fun h => (ringTurn_of_not hopen hroom h).2,
    ringTurn_commits hopen hroom, ringTurn_user s, ringTurn_only s⟩

end

/-- Settles O49, row by row. -/
theorem recordsEnterTheirPages : Obligations.RecordsEnterTheirPages := by
  intro s
  refine ⟨fun n x hslice hend hactive hst => ⟨runs_sliceClose_page hslice hend hactive hst, runs_sliceClose_lost hslice hend hactive hst⟩,
    fun e l hup hqueue hactive => ⟨runs_recEntry_open hup hqueue hactive, runs_recEntry_turn hup hqueue hactive,
      runs_recEntry_lost hup hqueue hactive⟩,
    fun e l => runs_recEntry_sub, runs_sliceFlushExpiry, runs_ringFlushExpiry⟩

end Sys2Proof.Machine
end

section
/-! Proofs about the renderer: redraws, pages and keys (R430, R431, R433, R436). -/
namespace Sys2Proof.Machine

open Sys2Proof

/-! ### Redraws (R431, R433) -/

/-- Two states show the same, and the panel's previous plane is one. -/
structure SameShown (s t : State) : Prop where
  body : t.rnd.body = s.rnd.body
  head : t.rnd.head = s.rnd.head
  foot : t.rnd.foot = s.rnd.foot
  listed : t.rnd.listed = s.rnd.listed
  prev : t.pnl.prev = s.pnl.prev

section
variable {s t u : State}

theorem SameShown.refl (s : State) : SameShown s s := ⟨rfl, rfl, rfl, rfl, rfl⟩

theorem SameShown.trans (h : SameShown s t) (k : SameShown t u) : SameShown s u :=
  ⟨k.body.trans h.body, k.head.trans h.head, k.foot.trans h.foot, k.listed.trans h.listed, k.prev.trans h.prev⟩

/-- What is owed or counted is not shown. -/
theorem sameShown_setRnd {f : Rnd → Rnd} (s : State) (hbody : (f s.rnd).body = s.rnd.body) (hhead : (f s.rnd).head = s.rnd.head)
    (hfoot : (f s.rnd).foot = s.rnd.foot) (hlisted : (f s.rnd).listed = s.rnd.listed) : SameShown s (s.setRnd f) :=
  ⟨hbody, hhead, hfoot, hlisted, rfl⟩

theorem sameShown_drawRect (r : Rect) (s : State) : SameShown s (drawRect r s) := ⟨rfl, rfl, rfl, rfl, rfl⟩

theorem pnlSubmit_prev (own : Bool) (r : Rect) (mode : Nat) (tag : Byte) (split : Bool) (s : State) :
    (pnlSubmit own r mode tag split s).2.pnl.prev = s.pnl.prev := by
  have hpower : ∀ u : State, (pnlPower u).pnl.prev = u.pnl.prev := by
    intro u
    unfold pnlPower
    split <;> rfl
  unfold pnlSubmit
  dsimp only
  split
  · rfl
  · split
    · rfl
    · exact hpower _

theorem sameShown_pnlOwn (r : Rect) (mode : Nat) (s : State) : SameShown s (pnlOwn r mode s).2 := by
  have hrnd : (pnlOwn r mode s).2.rnd = s.rnd := (pnlOwn_only r mode s).same .rnd rfl
  exact ⟨by rw [hrnd], by rw [hrnd], by rw [hrnd], by rw [hrnd], pnlSubmit_prev _ _ _ _ _ _⟩

theorem sameShown_askRect (mode : Nat) (r : Rect) (s : State) : SameShown s (askRect mode r s) := by
  unfold askRect
  dsimp only
  split
  · exact (sameShown_pnlOwn r mode s).trans (sameShown_setRnd _ rfl rfl rfl rfl)
  · exact sameShown_pnlOwn r mode s

theorem sameShown_redrawPart (s : State) (r : Option Rect) : SameShown s (redrawPart s r) := by
  cases r with
  | none => exact .refl s
  | some x => exact (sameShown_drawRect x s).trans (sameShown_askRect _ x _)

theorem sameShown_drawWhole (s : State) : SameShown s (drawWhole s) := by
  have hdrawn : SameShown s (drawRect (footRect s) (drawRect (bodyRect s) (drawRect (headRect s) s))) :=
    ((sameShown_drawRect _ _).trans (sameShown_drawRect _ _)).trans (sameShown_drawRect _ _)
  have howed := hdrawn.trans (sameShown_setRnd (f := fun x => { x with owed := [] }) _ rfl rfl rfl rfl)
  unfold drawWhole
  dsimp only
  refine (howed.trans (sameShown_pnlOwn s.wholePanel s.clearMode _)).trans (sameShown_setRnd _ ?_ ?_ ?_ ?_) <;> split <;> rfl

/-- A redraw with something to show shows the present contents. -/
theorem sameShown_rndRedraw (hon : rndOn s = true) (hhead : headNow s ≠ s.rnd.head) : SameShown (rndShown s) (rndRedraw s) := by
  unfold rndRedraw
  dsimp only
  rw [if_neg (fun h => by rw [if_neg hhead] at h; exact nomatch h.2.1)]
  split
  · rw [rndFull, if_pos hon]
    exact sameShown_drawWhole _
  · simp only [List.foldl_cons, List.foldl_nil]
    exact (sameShown_setRnd (rndShown s) rfl rfl rfl rfl).trans
      (((sameShown_redrawPart _ _).trans (sameShown_redrawPart _ _)).trans (sameShown_redrawPart _ _))

theorem runs_rndRedraw_same (hon : rndOn s = true) (hbody : bodyNow s = s.rnd.body) (hhead : headNow s = s.rnd.head)
    (hfoot : footNow s = s.rnd.foot) (howed : s.rnd.owed = []) : Runs .rndRedraw s fun t => t = s := by
  refine .of_guard (t := rndRedraw s) rfl hon ?_
  exact if_pos ⟨if_pos hbody, if_pos hhead, if_pos hfoot, howed⟩

theorem runs_rndRedraw (hon : rndOn s = true) (hhead : headNow s ≠ s.rnd.head) : Runs .rndRedraw s fun t =>
    t.rnd.body = bodyNow s ∧ t.rnd.head = headNow s ∧ t.rnd.foot = footNow s ∧ t.rnd.listed = (alarmList s).map (·.addr) ∧
    t.pnl.prev = s.pnl.prev := by
  obtain ⟨hb, hh, hf, hl, hp⟩ := sameShown_rndRedraw hon hhead
  exact .of_guard (t := rndRedraw s) rfl hon ⟨hb, hh, hf, hl, hp⟩

/-! ### Pages (R430, R437) -/

theorem rndEvent_rnd (kind detail : Nat) (s : State) : (rndEvent kind detail s).rnd = s.rnd := (raise_only _ _ _).same .rnd rfl

theorem rndEvent_raised (kind detail : Nat) (s : State) : Raised 49 (put 0 4 kind ||| put 8 8 detail) s (rndEvent kind detail s) :=
  raise_raised (n := 49) rfl _ s

/-- The renderer with a page and a group shown. -/
def Rnd.showing (page group : Nat) (x : Rnd) : Rnd :=
  if page = x.page ∧ group = x.group then x else { x with page := page, group := group, sel := 0, top := 0 }

theorem showPage_rnd (page group : Nat) (s : State) : (showPage page group s).rnd = s.rnd.showing page group := by
  unfold showPage
  dsimp only
  split
  · rfl
  · exact rndEvent_rnd _ _ _

theorem showing_page (page group : Nat) (x : Rnd) : (x.showing page group).page = page ∧ (x.showing page group).group = group ∧
    (page ≠ x.page → (x.showing page group).sel = 0 ∧ (x.showing page group).top = 0) := by
  unfold Rnd.showing
  split
  · next h => exact ⟨h.1.symm, h.2.symm, fun hne => absurd h.1 hne⟩
  · exact ⟨rfl, rfl, fun _ => ⟨rfl, rfl⟩⟩

theorem showPage_raised {page : Nat} (hne : page ≠ s.rnd.page) (group : Nat) :
    Raised 49 (put 0 4 2 ||| put 8 8 page) s (showPage page group s) := by
  have hshow : showPage page group s = rndEvent 2 page (s.setRnd (Rnd.showing page group)) := if_neg hne
  rw [hshow]
  exact rndEvent_raised 2 page (s.setRnd (Rnd.showing page group))

theorem showPage_same (s : State) : showPage s.rnd.page s.rnd.group s = s := by
  rw [showPage, if_pos rfl, State.setRnd, if_pos ⟨rfl, rfl⟩]

theorem page_toNat {p : BitVec 2} : p.toNat = 3 ↔ p = 3 := by revert p; decide

theorem runs_rndPageSelect (hup : pnlUp s = true) {p : BitVec 2} {g : BitVec 10} (hp : p ≠ 3) (hg : g.toNat < s.grpCount)
    (src : Source) : Runs (.rndPageSelect src p g) s fun t => t.rnd.page = p.toNat ∧ t.rnd.group = g.toNat ∧
      (p.toNat ≠ s.rnd.page → t.rnd.sel = 0 ∧ t.rnd.top = 0 ∧ Raised 49 (put 0 4 2 ||| put 8 8 p.toNat) s t) ∧
      Only [.rnd, .evr] s t := by
  have hwrite : rndCtlWrite src p.toNat g.toNat s = (0, showPage p.toNat g.toNat s) := by
    unfold rndCtlWrite
    dsimp only
    rw [beq_false_of_ne (fun h => hp (page_toNat.mp h)), decide_eq_false (Nat.not_le.mpr hg)]
    rfl
  obtain ⟨hpage, hgroup, hnew⟩ := showing_page p.toNat g.toNat s.rnd
  refine .of_guard rfl hup ?_
  dsimp only
  rw [hwrite]
  dsimp only
  rw [showPage_rnd]
  exact ⟨hpage, hgroup, fun hne => ⟨(hnew hne).1, (hnew hne).2, showPage_raised hne _⟩, (showPage_only _ _ _).mono rfl⟩

theorem runs_rndPageSelect_refused (hup : pnlUp s = true) {p : BitVec 2} {g : BitVec 10} (hp : p = 3) (hg : s.grpCount ≤ g.toNat)
    (src : Source) : Runs (.rndPageSelect src p g) s fun t => t.rnd = s.rnd ∧ t.sys.werr.reason = 9 ∧ Only [.sys] s t := by
  have hwrite : rndCtlWrite src p.toNat g.toNat s = (7, logWerr 9 src 0x0A4004 s) := by
    unfold rndCtlWrite
    dsimp only
    rw [page_toNat.mpr hp, beq_self_eq_true, decide_eq_true hg, if_pos rfl, if_pos rfl, showPage_same]
    rfl
  refine .of_guard rfl hup ?_
  dsimp only
  rw [hwrite]
  exact ⟨rfl, rfl, logWerr_only _ _ _ _⟩

/-! ### A key is judged (R436) -/

/-- The command of each key writes its number to the key register. -/
theorem exec_key (hup : pnlUp s = true) {e : BitVec 5} {b : BitVec 4} {key : Nat} {x : Instr}
    (hx : (x = .rndKeyUp ∧ key = 1) ∨ (x = .rndKeyDown ∧ key = 2) ∨ (x = .rndKeyPage ∧ key = 3) ∨ (x = .rndKeySelect ∧ key = 4) ∨
      (x = .rndKeyAck ∧ key = 5) ∨ (x = .rndKeyAckPage ∧ key = 6) ∨ (x = .rndKeySilence ∧ key = 7) ∨
      (x = .rndKeyAckCall e ∧ key = 8) ∨ (x = .rndKeyDuty e ∧ key = 9) ∨ (x = .rndKeyBad b ∧ key = b.toNat ∧ 10 ≤ key)) :
    ∃ eng, exec x s = .next (rndKeyWrite key eng s) := by
  have hin : ∀ eng key, inRnd (rndKeyWrite key eng) s = rndKeyWrite key eng s := fun eng key => if_pos hup
  rcases hx with ⟨rfl, rfl⟩ | ⟨rfl, rfl⟩ | ⟨rfl, rfl⟩ | ⟨rfl, rfl⟩ | ⟨rfl, rfl⟩ | ⟨rfl, rfl⟩ | ⟨rfl, rfl⟩ | ⟨rfl, rfl⟩ | ⟨rfl, rfl⟩ |
    ⟨rfl, rfl, hlarge⟩
  case inr.inr.inr.inr.inr.inr.inr.inr.inr =>
    exact ⟨0, congrArg Host.Outcome.next ((if_pos (.inr hlarge)).trans (hin 0 _))⟩
  case inr.inr.inr.inr.inr.inr.inr.inl => exact ⟨_, congrArg Host.Outcome.next (hin _ 8)⟩
  case inr.inr.inr.inr.inr.inr.inr.inr.inl => exact ⟨_, congrArg Host.Outcome.next (hin _ 9)⟩
  all_goals exact ⟨0, congrArg Host.Outcome.next (hin 0 _)⟩

theorem rndKeyWrite_busy (hpend : s.rnd.keyPend = true) (key eng : Nat) : rndKeyWrite key eng s = keyBusy key s := if_pos hpend

theorem rndKeyWrite_standby (hpend : s.rnd.keyPend = false) (hstandby : s.standby = true) {key : Nat} (hlow : 5 ≤ key) (hhigh : key ≤ 9)
    (eng : Nat) : rndKeyWrite key eng s = keyDone key 0 2 s :=
  (if_neg (Bool.eq_false_iff.mp hpend)).trans (if_pos ⟨hstandby, hlow, hhigh⟩)

theorem keyBusy_rnd (key : Nat) (s : State) : (keyBusy key s).rnd = { s.rnd with resKey := key, resBlk := 0, resCode := 1 } :=
  rndEvent_rnd _ _ _

theorem keyDone_rnd (key blk code : Nat) (s : State) : (keyDone key blk code s).rnd =
    { s.rnd with keyPend := false, resKey := key, resBlk := blk, resCode := code } := (raise_only _ _ _).same .rnd rfl

/-- A result of a key where none was pending. -/
theorem keyDone_rnd_of_free (hpend : s.rnd.keyPend = false) (key blk code : Nat) : (keyDone key blk code s).rnd =
    { s.rnd with resKey := key, resBlk := blk, resCode := code } := by rw [keyDone_rnd, ← hpend]

theorem runs_key_judged (hup : pnlUp s = true) {e : BitVec 5} {b : BitVec 4} {key : Nat} {x : Instr}
    (hx : (x = .rndKeyUp ∧ key = 1) ∨ (x = .rndKeyDown ∧ key = 2) ∨ (x = .rndKeyPage ∧ key = 3) ∨ (x = .rndKeySelect ∧ key = 4) ∨
      (x = .rndKeyAck ∧ key = 5) ∨ (x = .rndKeyAckPage ∧ key = 6) ∨ (x = .rndKeySilence ∧ key = 7) ∨
      (x = .rndKeyAckCall e ∧ key = 8) ∨ (x = .rndKeyDuty e ∧ key = 9) ∨ (x = .rndKeyBad b ∧ key = b.toNat ∧ 10 ≤ key)) :
    (s.rnd.keyPend = true → Runs x s fun t => t.rnd = { s.rnd with resKey := key, resBlk := 0, resCode := 1 } ∧
      Raised 49 (put 0 4 1 ||| put 8 8 1) s t ∧ Only [.rnd, .evr] s t) ∧
    (s.rnd.keyPend = false → s.standby = true → 5 ≤ key → key ≤ 9 → Runs x s fun t =>
      t.rnd = { s.rnd with resKey := key, resBlk := 0, resCode := 2 } ∧ Only [.rnd, .evr] s t) := by
  obtain ⟨eng, hexec⟩ := exec_key hup hx
  constructor
  · intro hpend
    rw [rndKeyWrite_busy hpend] at hexec
    exact .of_next hexec ⟨keyBusy_rnd key s, rndEvent_raised 1 1 _, (keyBusy_only key s).mono rfl⟩
  · intro hpend hstandby hlow hhigh
    rw [rndKeyWrite_standby hpend hstandby hlow hhigh] at hexec
    exact .of_next hexec ⟨keyDone_rnd_of_free hpend _ _ _, (keyDone_only _ _ _ _).mono rfl⟩

/-! ### What a key hands on (R436) -/

/-- A command of a key enters the annunciator's queue, and the key is pending. -/
theorem keyAnn_taken (hactive : s.standby = false) (hroom : s.ann.queue.length < 32) (key op scope target : Nat) (more : List Nat) :
    (keyAnn key op scope target more s).ann.queue = s.ann.queue ++ [.mk op scope target 0 false (keyOrigin s) key more] ∧
    (keyAnn key op scope target more s).rnd = { s.rnd with keyPend := true } ∧
    Only [.ann, .rnd, .lvn] s (keyAnn key op scope target more s) := by
  have hsubmit : annSubmit (.mk op scope target 0 false (keyOrigin s) key more) s = (0, annForwarded (.mk op scope target 0 false (keyOrigin s) key more)
      (s.setAnn fun a => { a with queue := a.queue ++ [.mk op scope target 0 false (keyOrigin s) key more] })) := by
    rw [annSubmit, if_neg (Bool.eq_false_iff.mp hactive), if_neg (Nat.not_le.mpr hroom)]
  have hforward := annForwarded_only (.mk op scope target 0 false (keyOrigin s) key more)
    (s.setAnn fun a => { a with queue := a.queue ++ [.mk op scope target 0 false (keyOrigin s) key more] })
  unfold keyAnn
  dsimp only
  rw [hsubmit, if_pos rfl]
  refine ⟨?_, ?_, Only.after (State.setRnd_only _ _) rfl (Only.after hforward rfl ((s.setAnn_only _).mono rfl))⟩
  · rw [State.setRnd_ann, hforward.same .ann rfl]
    rfl
  · rw [State.setRnd_rnd, hforward.same .rnd rfl]
    rfl

/-- A call command of a key waits for the scan end, and the key is pending. -/
theorem keyCall_taken (hactive : s.standby = false) (hon : callOn s = true) (hfree : s.call.pend = false) {op : Nat} (hop : op ≠ 3)
    (key eng session src : Nat) :
    (keyCall key op eng session src s).call.cmds = s.call.cmds ++ [.mk op eng session src 0 false (keyOrigin s) key] ∧
    (keyCall key op eng session src s).rnd.keyPend = true ∧ Only [.call, .rnd, .lvn] s (keyCall key op eng session src s) := by
  have hcode : callRefusal s op = 0 := by
    rw [callRefusal, hon, hactive, hfree, if_neg (by decide), if_neg (by decide), if_neg (by decide), if_neg hop]
  have hpush := callPush_only (.mk op eng session src 0 false (keyOrigin s) key) s
  have hforward : ∀ org l, (lvForward org l (s.setCall fun k =>
      { k with cmds := k.cmds ++ [.mk op eng session src 0 false (keyOrigin s) key] })).call.cmds =
        s.call.cmds ++ [.mk op eng session src 0 false (keyOrigin s) key] := by
    intro org l
    rw [(lvForward_only org l _).same .call rfl]
    rfl
  have hcmds : (callPush (.mk op eng session src 0 false (keyOrigin s) key) s).call.cmds =
      s.call.cmds ++ [.mk op eng session src 0 false (keyOrigin s) key] := by
    unfold callPush
    dsimp only
    split <;> exact hforward _ _
  unfold keyCall
  dsimp only
  rw [hcode, if_neg (fun h => h rfl)]
  exact ⟨hcmds, rfl, Only.after (State.setRnd_only _ _) rfl (hpush.mono rfl)⟩

/-! ### Keys (R436) -/

section
variable (hup : pnlUp s = true) (hpend : s.rnd.keyPend = false)
include hup hpend

/-- A key that only moves the selection or the page is judged no further. -/
theorem runs_key_plain {x : Instr} {key : Nat} {act : State → State} {P : State → Prop}
    (hexec : exec x s = .next (inRnd (rndKey key act) s)) (hkey : key < 5 ∨ 9 < key ∨ s.standby = false) (hP : P (act s)) : Runs x s P := by
  refine .of_next (hexec.trans (congrArg Host.Outcome.next ((if_pos hup).trans ?_))) hP
  rw [rndKey, if_neg (Bool.eq_false_iff.mp hpend), if_neg]
  rintro ⟨hstandby, hlow, hhigh⟩
  rcases hkey with hkey | hkey | hkey
  · omega
  · omega
  · exact Bool.false_ne_true (hkey.symm.trans hstandby)

theorem runs_rndKeyUp : Runs .rndKeyUp s fun t => t.rnd.sel = min (s.rnd.sel - 1) (selCount s - 1) ∧ t.rnd.resKey = 1 ∧
    t.rnd.resCode = 0 ∧ Only [.rnd, .evr] s t := by
  refine runs_key_plain hup hpend (key := 1) (act := fun s => keyOk 1 (moveSel false s)) rfl (.inl (by decide)) ?_
  rw [keyOk, keyDone_rnd]
  exact ⟨rfl, rfl, rfl, Only.after (keyDone_only _ _ _ _) rfl ((moveSel_only _ s).mono rfl)⟩

theorem runs_rndKeyDown : Runs .rndKeyDown s fun t => t.rnd.sel = min (s.rnd.sel + 1) (selCount s - 1) ∧ t.rnd.resKey = 2 ∧
    t.rnd.resCode = 0 ∧ Only [.rnd, .evr] s t := by
  refine runs_key_plain hup hpend (key := 2) (act := fun s => keyOk 2 (moveSel true s)) rfl (.inl (by decide)) ?_
  rw [keyOk, keyDone_rnd]
  exact ⟨rfl, rfl, rfl, Only.after (keyDone_only _ _ _ _) rfl ((moveSel_only _ s).mono rfl)⟩

theorem runs_rndKeyPage : Runs .rndKeyPage s fun t => t.rnd.page = (s.rnd.page + 1) % 3 ∧ t.rnd.group = s.rnd.group ∧
    t.rnd.resCode = 0 ∧ Only [.rnd, .evr] s t := by
  refine runs_key_plain hup hpend (key := 3) (act := fun s => keyOk 3 (nextPage s)) rfl (.inl (by decide)) ?_
  obtain ⟨hpage, hgroup, -⟩ := showing_page ((s.rnd.page + 1) % 3) s.rnd.group s.rnd
  rw [keyOk, keyDone_rnd, nextPage, showPage_rnd]
  exact ⟨hpage, hgroup, rfl, Only.after (keyDone_only _ _ _ _) rfl ((showPage_only _ _ _).mono rfl)⟩

theorem runs_rndKeySelect (hsummary : s.rnd.page = 1) (hcell : s.rnd.sel < s.grpCount) : Runs .rndKeySelect s fun t =>
    t.rnd.page = 2 ∧ t.rnd.group = s.rnd.sel ∧ t.rnd.resKey = 4 ∧ t.rnd.resCode = 0 ∧ Only [.rnd, .evr] s t := by
  refine runs_key_plain hup hpend (key := 4) (act := selectGroup) rfl (.inl (by decide)) ?_
  obtain ⟨hpage, hgroup, -⟩ := showing_page 2 s.rnd.sel s.rnd
  rw [selectGroup, if_pos ⟨hsummary, hcell⟩, keyOk, keyDone_rnd, showPage_rnd]
  exact ⟨hpage, hgroup, rfl, rfl, Only.after (keyDone_only _ _ _ _) rfl ((showPage_only _ _ _).mono rfl)⟩

theorem runs_rndKeyBad {b : BitVec 4} (hb : b = 0 ∨ 10 ≤ b.toNat) : Runs (.rndKeyBad b) s fun t =>
    t.rnd = { s.rnd with resKey := b.toNat, resBlk := 0, resCode := 3 } ∧ Only [.rnd, .evr] s t := by
  have hkey : ∀ b : BitVec 4, (b = 0 ∨ 10 ≤ b.toNat) → (b.toNat < 5 ∨ 9 < b.toNat) ∧
      rndKeyWrite b.toNat 0 = rndKey b.toNat (keyDone b.toNat 0 3) := by
    intro b hb
    rcases hb with rfl | hb
    · exact ⟨.inl (by decide), rfl⟩
    · refine ⟨.inr hb, ?_⟩
      unfold rndKeyWrite
      funext u
      generalize b.toNat = key at hb
      match key, hb with
      | key + 10, _ => rfl
  obtain ⟨hrange, hwrite⟩ := hkey b hb
  refine runs_key_plain hup hpend (key := b.toNat) (act := keyDone b.toNat 0 3) ?_ (hrange.imp_right .inl) ?_
  · rw [← hwrite]
    exact congrArg Host.Outcome.next (if_pos hb)
  · exact ⟨keyDone_rnd_of_free hpend _ _ _, (keyDone_only _ _ _ _).mono rfl⟩

section
variable (hactive : s.standby = false)
include hactive

section
variable (hroom : s.ann.queue.length < 32)
include hroom

theorem runs_rndKeyAck {a : Nat} (hpage : s.rnd.page = 0) (hline : s.rnd.listed[s.rnd.sel]? = some a) : Runs .rndKeyAck s fun t =>
    t.ann.queue = s.ann.queue ++ [.mk 1 0 a 0 false (keyOrigin s) 5 []] ∧ t.rnd = { s.rnd with keyPend := true } ∧
    Only [.ann, .rnd, .lvn] s t := by
  have hack : keyAck s = keyAnn 5 1 0 a [] s := by
    unfold keyAck
    rw [hpage, hline]
    rfl
  refine runs_key_plain hup hpend (key := 5) (act := keyAck) rfl (.inr (.inr hactive)) ?_
  rw [hack]
  exact keyAnn_taken hactive hroom 5 1 0 a []

theorem runs_rndKeyAckPage {a : Nat} {l : List Nat} (hshown : shownPoints s = a :: l) : Runs .rndKeyAckPage s fun t =>
    t.ann.queue = s.ann.queue ++ [.mk 1 0 a 0 false (keyOrigin s) 6 l] ∧ t.rnd = { s.rnd with keyPend := true } ∧
    Only [.ann, .rnd, .lvn] s t := by
  have hack : keyAckPage s = keyAnn 6 1 0 a l s := by
    unfold keyAckPage
    rw [hshown]
  refine runs_key_plain hup hpend (key := 6) (act := keyAckPage) rfl (.inr (.inr hactive)) ?_
  rw [hack]
  exact keyAnn_taken hactive hroom 6 1 0 a l

theorem runs_rndKeySilence : Runs .rndKeySilence s fun t =>
    t.ann.queue = s.ann.queue ++ [.mk 2 2 0 0 false (keyOrigin s) 7 []] ∧ t.rnd = { s.rnd with keyPend := true } ∧
    Only [.ann, .rnd, .lvn] s t :=
  runs_key_plain hup hpend (key := 7) (act := keyAnn 7 2 2 0 []) rfl (.inr (.inr hactive)) (keyAnn_taken hactive hroom 7 2 2 0 [])

end

section
variable (hon : callOn s = true) (hfree : s.call.pend = false)
include hon hfree

theorem runs_rndKeyAckCall {n : Nat} (hsession : s.rnd.session = some n) (e : BitVec 5) : Runs (.rndKeyAckCall e) s fun t =>
    t.call.cmds.length = s.call.cmds.length + 1 ∧ (∃ c ∈ t.call.cmds, c.op = 2 ∧ c.session = n ∧ c.src = 0xFB ∧ c.key = 8) ∧
    t.rnd.keyPend = true ∧ Only [.call, .rnd, .lvn] s t := by
  have hack : keyAckCall e.toNat s = keyCall 8 2 (if e.toNat = 0x1F then 0xFF else e.toNat) n 0xFB s := by
    unfold keyAckCall
    rw [hsession]
  obtain ⟨hcmds, hpending, honly⟩ :=
    keyCall_taken hactive hon hfree (op := 2) (by decide) 8 (if e.toNat = 0x1F then 0xFF else e.toNat) n 0xFB
  refine runs_key_plain hup hpend (key := 8) (act := keyAckCall e.toNat) rfl (.inr (.inr hactive)) ?_
  rw [hack, hcmds]
  exact ⟨List.length_append, ⟨_, List.mem_append_right _ (List.mem_singleton_self _), rfl, rfl, rfl, rfl⟩, hpending, honly⟩

theorem runs_rndKeyDuty (e : BitVec 5) : Runs (.rndKeyDuty e) s fun t => t.call.cmds.length = s.call.cmds.length + 1 ∧
    (∃ c ∈ t.call.cmds, c.op = 1 ∧ c.eng = e.toNat ∧ c.src = 5 ∧ c.key = 9) ∧ t.rnd.keyPend = true ∧
    Only [.call, .rnd, .lvn] s t := by
  obtain ⟨hcmds, hpending, honly⟩ := keyCall_taken hactive hon hfree (op := 1) (by decide) 9 e.toNat 0 5
  refine runs_key_plain hup hpend (key := 9) (act := keyDuty e.toNat) rfl (.inr (.inr hactive)) ?_
  rw [keyDuty, if_pos (.inl hon), hcmds]
  exact ⟨List.length_append, ⟨_, List.mem_append_right _ (List.mem_singleton_self _), rfl, rfl, rfl, rfl⟩, hpending, honly⟩

end

end

end

end

/-- Settles O53, row by row. -/
theorem theRendererShowsAndTakesKeys : Obligations.TheRendererShowsAndTakesKeys := by
  intro s
  refine ⟨fun hon => ⟨runs_rndRedraw_same hon, runs_rndRedraw hon⟩, fun hup => ⟨fun src p g =>
    ⟨fun hp hg => runs_rndPageSelect hup hp hg src, fun hp hg => runs_rndPageSelect_refused hup hp hg src⟩,
    fun e b key x hx => runs_key_judged hup hx, fun hpend => ⟨runs_rndKeyUp hup hpend, runs_rndKeyDown hup hpend,
      runs_rndKeyPage hup hpend, runs_rndKeySelect hup hpend, fun b => runs_rndKeyBad hup hpend, fun hactive hroom => ?_,
      fun hactive hon hfree e => ⟨fun n hsession => runs_rndKeyAckCall hup hpend hactive hon hfree hsession e,
        runs_rndKeyDuty hup hpend hactive hon hfree e⟩⟩⟩⟩
  exact ⟨fun a => runs_rndKeyAck hup hpend hactive hroom, fun a l => runs_rndKeyAckPage hup hpend hactive hroom,
    runs_rndKeySilence hup hpend hactive hroom⟩

end Sys2Proof.Machine
end

section
/-! What the operations on the ledger's items do: a value that is measured, a mark that it is due, a correction that is set and
one that follows its wanted value (R468, R477, R478). -/
namespace Sys2Proof.Machine

open Sys2Proof

section
variable {s t u : State} {i : Fin 64}

/-! ### One item changed -/

/-- In the ageing service `t` differs from `s` in one item only. -/
structure OneItem (i : Fin 64) (s t : State) : Prop where
  rest : t.age = { s.age with items := t.age.items }
  others : ∀ k : Fin 64, k ≠ i → t.age.items[k] = s.age.items[k]

theorem OneItem.of_age (i : Fin 64) (h : t.age = s.age) : OneItem i s t := ⟨by rw [h], fun _ _ => by rw [h]⟩

theorem OneItem.trans (h : OneItem i s t) (k : OneItem i t u) : OneItem i s u where
  rest := by rw [k.rest, h.rest]
  others j hj := (k.others j hj).trans (h.others j hj)

theorem State.setItem_items_self (s : State) (i : Fin 64) (f : AgeItem → AgeItem) : (s.setItem i f).age.items[i] = f s.age.items[i] :=
  Vector.getElem_set_self _

theorem State.setItem_items_other {k : Fin 64} (h : k ≠ i) (s : State) (f : AgeItem → AgeItem) :
    (s.setItem i f).age.items[k] = s.age.items[k] := Vector.set_other _ h _

theorem oneItem_setItem (s : State) (i : Fin 64) (f : AgeItem → AgeItem) : OneItem i s (s.setItem i f) :=
  ⟨rfl, fun _ hk => State.setItem_items_other hk s f⟩

theorem ageEvent_age (kind item : Nat) (detail : Int) (s : State) : (ageEvent kind item detail s).age = s.age :=
  (ageEvent_only kind item detail s).same .age rfl

theorem ageEvent_raised (kind item : Nat) (detail : Int) (s : State) :
    Raised 53 (put 0 4 kind ||| put 8 8 item ||| putI 16 16 detail) s (ageEvent kind item detail s) := raise_raised (n := 53) rfl _ s

/-- An item changed, with an event. -/
theorem oneItem_ageEvent (s : State) (i : Fin 64) (f : AgeItem → AgeItem) (kind item : Nat) (detail : Int) :
    OneItem i s (ageEvent kind item detail (s.setItem i f)) ∧
    (ageEvent kind item detail (s.setItem i f)).age.items[i] = f s.age.items[i] := by
  have hage := ageEvent_age kind item detail (s.setItem i f)
  refine ⟨(oneItem_setItem s i f).trans (.of_age i hage), ?_⟩
  rw [hage, State.setItem_items_self]

/-! ### A value that is measured (R477, R478) -/

/-- SERVICE_DUE and its acknowledgement follow the margin; a forced one stands. -/
theorem itemDue_item (i : Fin 64) (forced : Bool) (s : State) : OneItem i s (itemDue i forced s) ∧
    ∃ d a q, (itemDue i forced s).age.items[i] = { s.age.items[i] with due := d, ack := a, tDue := q } ∧
      (forced = true → d = true) := by
  unfold itemDue
  dsimp only
  split
  · next hdue =>
    split
    · obtain ⟨hone, hitem⟩ := oneItem_ageEvent s i (fun x => { x with due := true, ack := false, tDue := s.stamp }) 1 i.val
        (s.age.items[i].margin / 100)
      exact ⟨hone, _, _, _, hitem, fun _ => rfl⟩
    · split
      · next hclear =>
        obtain ⟨hone, hitem⟩ := oneItem_ageEvent s i (fun x => { x with due := false, ack := false }) 2 i.val
          (s.age.items[i].margin / 100)
        refine ⟨hone, _, _, _, hitem, fun hforced => ?_⟩
        rw [hforced] at hclear
        exact absurd hclear (by simp)
      · exact ⟨.of_age i rfl, s.age.items[i].due, _, _, rfl, fun _ => hdue⟩
  · split
    · obtain ⟨hone, hitem⟩ := oneItem_ageEvent s i (fun x => { x with due := true, ack := false, tDue := s.stamp }) 1 i.val
        (s.age.items[i].margin / 100)
      exact ⟨hone, _, _, _, hitem, fun _ => rfl⟩
    · next hlow =>
      refine ⟨.of_age i rfl, s.age.items[i].due, _, _, rfl, fun hforced => absurd ?_ hlow⟩
      rw [hforced]
      rfl

/-- A measured item: its value stands, and it is due where that is forced. -/
structure Measured (i : Fin 64) (v : Int) (forced : Bool) (s t : State) : Prop where
  one : OneItem i s t
  value : t.age.items[i].value = v
  valid : t.age.items[i].valid = true
  tMeas : t.age.items[i].tMeas = s.stamp
  corr : t.age.items[i].corr = s.age.items[i].corr
  due : forced = true → t.age.items[i].due = true

theorem measured_itemMeasure (i : Fin 64) (v : Int) (forced : Bool) (s : State) : Measured i v forced s (itemMeasure i v forced s) := by
  obtain ⟨hone, d, a, q, hitem, hdue⟩ := itemDue_item i forced
    (s.setItem i fun x => { x.take i.val (itemLimit s i.val) v s.now with bound := itemBound s i.val })
  rw [State.setItem_items_self] at hitem
  have hall : (itemMeasure i v forced s).age.items[i] = { s.age.items[i].take i.val (itemLimit s i.val) v s.now with
    bound := itemBound s i.val, due := d, ack := a, tDue := q } := hitem
  refine ⟨(oneItem_setItem s i _).trans hone, ?_, ?_, ?_, ?_, fun hforced => ?_⟩ <;> rw [hall]
  case refine_5 => exact hdue hforced
  all_goals rfl

/-! ### Corrections (R468, R470, R471) -/

/-- A correction that is set leaves the rest of its item but its bound. -/
theorem itemCorrect_item (i : Fin 64) (new bound : Int) (s : State) : OneItem i s (itemCorrect i new bound s) ∧
    ∃ b m, (itemCorrect i new bound s).age.items[i] = { s.age.items[i] with corr := new, bound := bound, atBound := b, moves := m } := by
  generalize hf : (fun x : AgeItem => { x with
    corr := new, bound := bound, atBound := decide (bound ≤ new.natAbs),
    moves := if new = x.corr then x.moves
      else (s.now, new - x.corr) :: x.moves.filter fun p => decide (s.now < p.1 + dayTicks) }) = f
  have hage : (itemCorrect i new bound s).age = (s.setItem i f).age := by
    unfold itemCorrect
    dsimp only
    rw [hf]
    split <;> split
    · exact ageEvent_age _ _ _ _
    · exact (ageEvent_age _ _ _ _).trans (ageEvent_age _ _ _ _)
    · rfl
    · exact ageEvent_age _ _ _ _
  refine ⟨(oneItem_setItem s i f).trans (.of_age i hage), ?_⟩
  rw [hage, State.setItem_items_self, ← hf]
  exact ⟨_, _, rfl⟩

theorem foldl_natAbs_nonneg (l : List (Nat × Int)) {n : Int} (h : 0 ≤ n) :
    0 ≤ (l.map fun p => (p.2.natAbs : Int)).foldl (· + ·) n := by
  induction l generalizing n with
  | nil => exact h
  | cons p l ih => exact ih (Int.add_nonneg h (Int.natCast_nonneg _))

theorem moved_nonneg (x : AgeItem) (now : Nat) : 0 ≤ x.moved now := foldl_natAbs_nonneg _ (Int.le_refl 0)

theorem clampI_natAbs_le {r : Int} (h : 0 ≤ r) (v : Int) : ((clampI (-r) r v).natAbs : Int) ≤ r := by
  unfold clampI
  split
  · omega
  · split <;> omega

/-- A correction that follows: disabled it is 0, enabled it moves by no more than it may in a day. -/
theorem itemFollow_item (i : Fin 64) (en : Bool) (want bound perDay : Int) (s : State) :
    OneItem i s (itemFollow i en want bound perDay s) ∧
    (itemFollow i en want bound perDay s).age.items[i].value = s.age.items[i].value ∧
    (itemFollow i en want bound perDay s).age.items[i].valid = s.age.items[i].valid ∧
    (en = false → (itemFollow i en want bound perDay s).age.items[i].corr = 0) ∧
    (en = true → 0 ≤ perDay →
      (((itemFollow i en want bound perDay s).age.items[i].corr - s.age.items[i].corr).natAbs : Int) ≤ perDay) := by
  cases en with
  | false =>
    obtain ⟨hone, b, m, hitem⟩ := itemCorrect_item i 0 bound s
    have hset : itemFollow i false want bound perDay s = itemCorrect i 0 bound s := rfl
    rw [hset, hitem]
    exact ⟨hone, rfl, rfl, fun _ => rfl, fun h => nomatch h⟩
  | true =>
    unfold itemFollow
    dsimp only
    rw [Bool.not_true, if_neg Bool.false_ne_true]
    split
    · exact ⟨.of_age i rfl, rfl, rfl, fun h => (nomatch h), fun _ hday => by rw [Int.sub_self]; exact hday⟩
    · generalize hroom : max 0 (perDay - s.age.items[i].moved s.now) = room
      generalize hmove : clampI (-bound) bound want - s.age.items[i].corr = move
      obtain ⟨hone, b, m, hitem⟩ := itemCorrect_item i (s.age.items[i].corr + clampI (-room) room move) bound s
      rw [hitem]
      refine ⟨hone, rfl, rfl, fun h => (nomatch h), fun _ hday => ?_⟩
      have hmoved := moved_nonneg s.age.items[i] s.now
      have hclamp := clampI_natAbs_le (r := room) (by omega) move
      dsimp only
      rw [Int.add_comm, Int.add_sub_cancel]
      omega

/-! ### Fields of the AGE section (R488) -/

theorem ageNat_congr (h : t.rcp = s.rcp) (off n dflt : Nat) : t.ageNat off n dflt = s.ageNat off n dflt := by
  have hbank : t.activeBank = s.activeBank := by simp only [State.activeBank, h]
  rw [State.ageNat, State.cfgNat, hbank, State.ageNat, State.cfgNat]

theorem ageEn_congr (h : t.rcp = s.rcp) (k : Nat) : t.ageEn k = s.ageEn k := by
  rw [State.ageEn, ageNat_congr h, State.ageEn]

end

end Sys2Proof.Machine
end

section
/-! What the measurements of references, gains, switches and the oscillator do in the ledger (R470 to R473). -/
namespace Sys2Proof.Machine

open Sys2Proof

section
variable {s : State} {i : Fin 64}

/-- The item of a UI channel's reference (R469). -/
abbrev refItem (c : Fin 16) : Fin 64 := ⟨c.val, by omega⟩

/-- The item of an AO channel's gain (R469). -/
abbrev gainItem (c : Fin 4) : Fin 64 := ⟨16 + c.val, by omega⟩

/-- The item of a DIO channel's switch (R469). -/
abbrev switchItem (c : Fin 16) : Fin 64 := ⟨20 + c.val, by omega⟩

/-! ### References (R470) -/

/-- A reference whose value has entered its item, where it does not differ from the master together with the other one. -/
def refTaken (c : Fin 16) (a : Int) (jump : Bool) (s : State) : State :=
  (itemMeasure (refItem c) a jump s).setAge fun g => { g with refBad := g.refBad.set c none }

theorem refTaken_only (c : Fin 16) (a : Int) (jump : Bool) (s : State) : Only [.age, .evr] s (refTaken c a jump s) :=
  ((itemMeasure_only _ _ _ _).mono rfl).set_age rfl

theorem refTaken_item {c : Fin 16} (hi : i.val = c.val) (a : Int) (jump : Bool) (s : State) :
    (refTaken c a jump s).age.items[i].valid = true ∧ (refTaken c a jump s).age.items[i].value = a ∧
    (refTaken c a jump s).age.items[i].tMeas = s.stamp ∧
    (refTaken c a jump s).age.items[i].corr = s.age.items[i].corr ∧
    (jump = true → (refTaken c a jump s).age.items[i].due = true) := by
  obtain rfl : i = refItem c := Fin.ext hi
  obtain ⟨-, hvalue, hvalid, htime, hcorr, hdue⟩ := measured_itemMeasure (refItem c) a jump s
  exact ⟨hvalid, hvalue, htime, hcorr, hdue⟩

section
variable {c : Fin 16} {a b : Int}

theorem ageRef_near (ha : a.natAbs ≤ 50000) : ageRef c a b s = refTaken c a false s := by
  have hnear : decide (50000 < a.natAbs) = false := decide_eq_false (by omega)
  unfold ageRef refTaken
  simp only [hnear, Bool.false_and, Bool.false_eq_true, if_false]

section
variable (ha : 50000 < a.natAbs) (hb : b.natAbs ≤ 50000)
include ha hb

theorem ageRef_jump (hi : i.val = c.val) (hjump : 100000 < (a - s.age.items[i].corr).natAbs) :
    ageRef c a b s = ageEvent 8 c.val (clampI (-32768) 32767 ((a - s.age.items[i].corr) / 1000)) (refTaken c a true s) := by
  obtain rfl : i = refItem c := Fin.ext hi
  have hfar : decide (50000 < a.natAbs) = true := decide_eq_true ha
  have hnear : decide (50000 < b.natAbs) = false := decide_eq_false (by omega)
  have hjump' := decide_eq_true hjump
  unfold ageRef refTaken
  simp only [hfar, hnear, hjump', Bool.and_false, Bool.false_and, Bool.not_false, Bool.and_true, Bool.false_eq_true, if_false,
    if_true]

theorem ageRef_follow (hi : i.val = c.val) (hjump : ¬ 100000 < (a - s.age.items[i].corr).natAbs) (hen : s.ageEn 0 = true) :
    ∃ bound : Int, ∃ t : State, t = itemFollow i true a bound 20000 (refTaken c a false s) ∧
      (ageRef c a b s = t ∨ ageRef c a b s = gainMoved c t) := by
  obtain rfl : i = refItem c := Fin.ext hi
  have hfar : decide (50000 < a.natAbs) = true := decide_eq_true ha
  have hnear : decide (50000 < b.natAbs) = false := decide_eq_false (by omega)
  have hjump' := decide_eq_false hjump
  have hen' : (refTaken c a false s).ageEn 0 = true := by
    rw [ageEn_congr ((refTaken_only c a false s).same .rcp rfl), hen]
  refine ⟨itemBound (refTaken c a false s) c.val, _, rfl, ?_⟩
  unfold ageRef refTaken
  unfold refTaken at hen'
  simp only [hfar, hnear, hjump', Bool.and_false, Bool.false_and, Bool.not_false, Bool.and_true, Bool.false_eq_true, if_false,
    if_true]
  simp only [hen']
  split
  · exact .inl rfl
  · exact .inr rfl

/-- A reference that is off, proved by the other one: a jump is not followed, and the trim moves by no more than it may in a
day. -/
theorem ageRef_far (hi : i.val = c.val) (hen : s.ageEn 0 = true) :
    ((ageRef c a b s).age.items[i].corr - s.age.items[i].corr).natAbs ≤ 20000 ∧
    (100000 < (a - s.age.items[i].corr).natAbs → (ageRef c a b s).age.items[i].corr = s.age.items[i].corr ∧
      (ageRef c a b s).age.items[i].due = true ∧ (ageRef c a b s).ui = s.ui) ∧
    Only [.age, .evr, .ui, .drawn] s (ageRef c a b s) := by
  by_cases hjump : 100000 < (a - s.age.items[i].corr).natAbs
  · obtain ⟨-, -, -, hcorr, hdue⟩ := refTaken_item hi a true s
    have honly : Only [.age, .evr] s (ageRef c a b s) := by
      rw [ageRef_jump ha hb hi hjump]
      exact .after (ageEvent_only _ _ _ _) rfl (refTaken_only c a true s)
    have hage : (ageRef c a b s).age = (refTaken c a true s).age := by
      rw [ageRef_jump ha hb hi hjump, ageEvent_age]
    rw [hage, hcorr, Int.sub_self]
    exact ⟨by decide, fun _ => ⟨rfl, hdue rfl, honly.same .ui rfl⟩, honly.mono rfl⟩
  · obtain ⟨-, -, -, hcorr, -⟩ := refTaken_item hi a false s
    obtain ⟨bound, t, ht, hor⟩ := ageRef_follow (b := b) ha hb hi hjump hen
    obtain ⟨-, -, -, -, hmove⟩ := itemFollow_item i true a bound 20000 (refTaken c a false s)
    have hstep := hmove rfl (by decide)
    rw [← ht, hcorr] at hstep
    have honly : Only [.age, .evr, .ui, .drawn] s t := by
      rw [ht]
      exact .after (itemFollow_only _ _ _ _ _ _) rfl ((refTaken_only c a false s).mono rfl)
    refine ⟨?_, fun h => absurd h hjump, ?_⟩ <;> rcases hor with hsame | hmoved
    · rw [hsame]
      omega
    · rw [hmoved, (gainMoved_only c t).same .age rfl]
      omega
    · rwa [hsame]
    · rw [hmoved]
      exact .after (gainMoved_only c t) rfl honly

end

end

/-! ### Gains (R471) -/

theorem ageGain_sampled {c : Fin 4} {err : Int} {secs : Nat} (hi : i.val = 16 + c.val) (hsecs : 600 ≤ secs) :
    (ageGain c err secs s).age.items[i].value = err ∧ (ageGain c err secs s).age.items[i].valid = true ∧
    (s.ageEn 1 = false → (ageGain c err secs s).age.items[i].corr = 0) ∧
    (s.ageEn 1 = true → ((ageGain c err secs s).age.items[i].corr - s.age.items[i].corr).natAbs ≤ 200000) := by
  obtain rfl : i = gainItem c := Fin.ext hi
  obtain ⟨-, hvalue, hvalid, -, hcorr, -⟩ := measured_itemMeasure (gainItem c) err false s
  obtain ⟨-, hvalue', hvalid', hoff, hon⟩ := itemFollow_item (gainItem c) (s.ageEn 1) (-err)
    (itemBound s (16 + c.val)) 200000 (itemMeasure (gainItem c) err false s)
  unfold ageGain
  dsimp only
  rw [if_neg (Nat.not_lt.mpr hsecs)]
  refine ⟨hvalue'.trans hvalue, hvalid'.trans hvalid, hoff, fun hen => ?_⟩
  have hstep := hon hen (by decide)
  rw [hcorr] at hstep
  exact Int.ofNat_le.mp hstep

/-! ### Switches (R472) -/

/-- A switch whose mean has entered its item, with the values that act on its channel. -/
def switchTaken (c : Fin 16) (r cut : Nat) (s : State) : State :=
  (itemMeasure (switchItem c) r false s).setDio c fun d =>
    { d with ovlCut := cut, lampRise := lampRiseOf (itemMeasure (switchItem c) r false s) c r,
             lampBound := (itemMeasure (switchItem c) r false s).ageNat 11 1 10 }

/-- The mean is taken with its derating, 0 where that is disabled; the item's correction follows where it has changed. -/
theorem ageSwitch_eq (c : Fin 16) (r : Nat) (s : State) : ∃ cut, (s.ageEn 2 = false → cut = 0) ∧
    (ageSwitch c r s = switchTaken c r cut s ∨
      ∃ new bound, ageSwitch c r s = itemCorrect (switchItem c) new bound (switchTaken c r cut s)) := by
  have hrcp : (itemMeasure (switchItem c) r false s).rcp = s.rcp := (itemMeasure_only _ _ _ _).same .rcp rfl
  unfold ageSwitch
  dsimp only
  generalize hcut : (if (itemMeasure (switchItem c) r false s).ageEn 2 = true then _ else 0 : Nat) = cut
  refine ⟨cut, fun hoff => ?_, ?_⟩
  · rw [← hcut, ageEn_congr hrcp, hoff, if_neg Bool.false_ne_true]
  · split
    · exact .inl rfl
    · exact .inr ⟨_, _, rfl⟩

theorem switchTaken_dio (c : Fin 16) (r cut : Nat) (s : State) :
    (switchTaken c r cut s).dio[c].lampBound = s.ageNat 11 1 10 ∧ (switchTaken c r cut s).dio[c].ovlCut = cut ∧
    (s.ageEn 3 = false → (switchTaken c r cut s).dio[c].lampRise = 0) ∧
    (∀ k : Fin 16, k ≠ c → (switchTaken c r cut s).dio[k] = s.dio[k]) := by
  have honly := itemMeasure_only (switchItem c) r false s
  have hrcp : (itemMeasure (switchItem c) r false s).rcp = s.rcp := honly.same .rcp rfl
  have hdio : (itemMeasure (switchItem c) r false s).dio = s.dio := honly.same .dio rfl
  unfold switchTaken
  rw [State.setDio_dio_self]
  refine ⟨ageNat_congr hrcp 11 1 10, rfl, fun hoff => ?_, fun k hk => ?_⟩
  · dsimp only
    rw [lampRiseOf, ageEn_congr hrcp, hoff, if_neg fun hen => Bool.false_ne_true hen.1]
  · rw [State.setDio_dio_other _ _ _ _ hk, hdio]

theorem ageSwitch_item {c : Fin 16} (hi : i.val = 20 + c.val) (r : Nat) :
    (ageSwitch c r s).age.items[i].value = r ∧ (ageSwitch c r s).age.items[i].valid = true ∧
    (ageSwitch c r s).dio[c].lampBound = s.ageNat 11 1 10 ∧
    (s.ageEn 2 = false → (ageSwitch c r s).dio[c].ovlCut = 0) ∧
    (s.ageEn 3 = false → (ageSwitch c r s).dio[c].lampRise = 0) ∧
    (∀ k : Fin 16, k ≠ c → (ageSwitch c r s).dio[k] = s.dio[k]) := by
  obtain rfl : i = switchItem c := Fin.ext hi
  obtain ⟨-, hvalue, hvalid, -, -, -⟩ := measured_itemMeasure (switchItem c) r false s
  obtain ⟨cut, hcut, hor⟩ := ageSwitch_eq c r s
  obtain ⟨hbound, hovl, hrise, hothers⟩ := switchTaken_dio c r cut s
  rcases hor with hsame | ⟨new, bound, hcorr⟩
  · rw [hsame]
    exact ⟨hvalue, hvalid, hbound, fun h => hovl.trans (hcut h), hrise, hothers⟩
  · have hdio : (itemCorrect (switchItem c) new bound (switchTaken c r cut s)).dio = (switchTaken c r cut s).dio :=
      (itemCorrect_only _ _ _ _).same .dio rfl
    obtain ⟨-, at', moves, hitem⟩ := itemCorrect_item (switchItem c) new bound (switchTaken c r cut s)
    rw [hcorr, hitem, hdio]
    exact ⟨hvalue, hvalid, hbound, fun h => hovl.trans (hcut h), hrise, hothers⟩

end

end Sys2Proof.Machine
end

section
/-! What the oscillator's samples, the HOLD test, the eMMC's wear and a barrier's test do in the ledger (R473 to R476). -/
namespace Sys2Proof.Machine

open Sys2Proof

section
variable {s : State}

/-! ### The oscillator (R473) -/

/-- The state with a sample of `TIM_FREQ` in its band and in the last day's samples. -/
def tcxoSampled (s : State) : State := s.setAge fun a =>
  { a with bands := a.bands.set (tempBand s) (a.bands[tempBand s].1 + s.tim.corr, a.bands[tempBand s].2 + 1),
           day := (s.now, s.tim.corr) :: s.age.day.filter fun p => decide (s.now < p.1 + dayTicks) }

theorem tcxoSampled_band (s : State) : (tcxoSampled s).age.bands[tempBand s] =
    (s.age.bands[tempBand s].1 + s.tim.corr, s.age.bands[tempBand s].2 + 1) := Vector.getElem_set_self _

/-- A node that is LOCKED takes its sample, and once a day the mean enters the item. -/
theorem ageTcxo_eq (hna : itemNa s 36 = false) (hst : s.tim.st = .locked) :
    (∃ v, ageTcxo s = itemMeasure 36 v false (tcxoSampled s)) ∨ ageTcxo s = tcxoSampled s := by
  have hsample : s.tim.st = .locked ∧ (!itemNa s 36) = true := ⟨hst, by rw [hna]; rfl⟩
  unfold ageTcxo
  dsimp only
  rw [if_pos hsample]
  split
  · exact .inl ⟨_, rfl⟩
  · exact .inr rfl

theorem ageTcxo_locked (hna : itemNa s 36 = false) (hst : s.tim.st = .locked) :
    (ageTcxo s).age.bands[tempBand s] = (s.age.bands[tempBand s].1 + s.tim.corr, s.age.bands[tempBand s].2 + 1) ∧
    Only [.age, .evr] s (ageTcxo s) := by
  have honly : Only [.age, .evr] s (tcxoSampled s) := (Only.refl _ s).set_age rfl
  rcases ageTcxo_eq hna hst with ⟨v, hmean⟩ | hsame
  · rw [hmean, (measured_itemMeasure 36 v false (tcxoSampled s)).one.rest]
    exact ⟨tcxoSampled_band s, .after (itemMeasure_only _ _ _ _) rfl honly⟩
  · rw [hsame]
    exact ⟨tcxoSampled_band s, honly⟩

/-- A node that is not LOCKED takes no sample. -/
theorem ageTcxo_unlocked (hst : s.tim.st ≠ .locked) : ageTcxo s = oscApply s := if_neg fun h => hst h.1

/-- In FREE and ACQUIRING the timebase takes its band's mean. -/
theorem oscApply_tim (hst : s.tim.st = .free ∨ s.tim.st = .acquiring) (hage : s.age.st ≠ .off) (hen : s.ageEn 4 = true)
    (hsample : s.age.bands[tempBand s].2 ≠ 0) {b : Int} (hb : b = s.ageNat 12 2 1000 * 10) :
    (oscApply s).tim = { s.tim with corr := clampI (-b) b (bandMean s.age.bands[tempBand s]) } := by
  have hactive : ¬ (s.tim.st = .locked ∨ s.tim.st = .holdover ∨ s.age.st = .off) := by
    rcases hst with h | h <;> rw [h] <;> simp [hage]
  subst hb
  unfold oscApply
  dsimp only
  rw [if_neg hactive, if_neg (by rw [hen]; decide), if_neg hsample]
  exact (itemCorrect_only _ _ _ _).same .tim rfl

theorem oscApply_idle (h : s.tim.st = .holdover ∨ (s.tim.st ≠ .locked ∧ (s.ageEn 4 = false ∨ s.age.bands[tempBand s].2 = 0))) :
    oscApply s = s := by
  unfold oscApply
  dsimp only
  split
  · rfl
  · next hactive =>
    split
    · rfl
    · next hen =>
      split
      · rfl
      · next hsample =>
        rcases h with hover | ⟨-, hoff | hempty⟩
        · exact absurd (.inr (.inl hover)) hactive
        · exact absurd (by rw [hoff]; rfl) hen
        · exact absurd hempty hsample

theorem ageTcxo_idle (h : s.tim.st = .holdover ∨ (s.tim.st ≠ .locked ∧ (s.ageEn 4 = false ∨ s.age.bands[tempBand s].2 = 0))) :
    ageTcxo s = s := by
  have hst : s.tim.st ≠ .locked := by
    rcases h with hover | ⟨hne, -⟩
    · rw [hover]
      decide
    · exact hne
  exact (ageTcxo_unlocked hst).trans (oscApply_idle h)

/-! ### The HOLD test (R474) -/

section
variable {p : Bool} (cap esr : Nat) (ab : Bool)

theorem ageHold_waits (hmay : holdMayTest s p = false) (htries : s.age.holdTries < 6) :
    ageHold cap esr p ab s = s.setAge fun a => { a with holdTries := a.holdTries + 1 } := by
  unfold ageHold
  rw [hmay, Bool.not_false, if_pos rfl, if_neg (Nat.not_le.mpr htries)]

theorem ageHold_gives_up (hmay : holdMayTest s p = false) (htries : 6 ≤ s.age.holdTries) :
    ageHold cap esr p ab s = ageEvent 5 37 0 (s.setAge fun a => { a with holdTries := 0 }) := by
  unfold ageHold
  rw [hmay, Bool.not_false, if_pos rfl, if_pos htries]

theorem ageHold_abandoned (hmay : holdMayTest s p = true) :
    ageHold cap esr p true s = ageEvent 5 37 0 (s.setAge fun a => { a with holdTries := 0 }) := by
  unfold ageHold
  rw [hmay, Bool.not_true, if_neg Bool.false_ne_true]
  rfl

/-- An abandoned test, or one that is given up, starts its tries again, with its event. -/
theorem holdEnded (s : State) : (ageEvent 5 37 0 (s.setAge fun a => { a with holdTries := 0 })).age = { s.age with holdTries := 0 } ∧
    Raised 53 (put 0 4 5 ||| put 8 8 37) s (ageEvent 5 37 0 (s.setAge fun a => { a with holdTries := 0 })) ∧
    Only [.age, .evr] s (ageEvent 5 37 0 (s.setAge fun a => { a with holdTries := 0 })) :=
  ⟨ageEvent_age _ _ _ _, ageEvent_raised 5 37 0 _, .after (ageEvent_only _ _ _ _) rfl ((Only.refl _ s).set_age rfl)⟩

/-- The supervisor with the capacitance and the ESR of a test that has run to its end. -/
def holdTaken (cap esr : Nat) (s : State) : State :=
  { s.setAge fun a => { a with holdTries := 0 } with
    sup := { s.sup with cap := min 4095 (openDiv cap 10000).toNat, esr := min 255 (openDiv esr 2000).toNat } }

/-- A test that runs to its end enters capacitance and ESR. -/
theorem ageHold_measured (hmay : holdMayTest s p = true) : (ageHold cap esr p false s).age.holdTries = 0 ∧
    (ageHold cap esr p false s).age.items[37].value = cap ∧ (ageHold cap esr p false s).age.items[38].value = esr := by
  unfold ageHold
  rw [hmay, Bool.not_true, if_neg Bool.false_ne_true]
  dsimp only
  rw [if_neg Bool.false_ne_true, ageEvent_age]
  have h37 := measured_itemMeasure 37 cap false (holdTaken cap esr s)
  have h38 := measured_itemMeasure 38 esr false (itemMeasure 37 cap false (holdTaken cap esr s))
  refine ⟨?_, ?_, h38.value⟩
  · have hrest := h38.one.rest
    rw [h37.one.rest] at hrest
    exact congrArg Age.holdTries hrest
  · exact (congrArg AgeItem.value (h38.one.others 37 (by decide))).trans h37.value

end

/-! ### Wear (R475) -/

/-- The codes that the eMMC answers, with the share of its life that is used in its item. -/
def wearTaken (a b e : Byte) (s : State) : State :=
  itemMeasure 39 (max (lifePercent a) (lifePercent b) * 1000) (e == 2 || e == 3)
    { s with mmc := { s.mmc with lifeA := a.toNat, lifeB := b.toNat, preEol := e.toNat } }

theorem ageWear_eq (hup : ledgerUp s = true) (a b e : Byte) :
    ageWear a b e s = mmcEvent 5 e.toNat (wearTaken a b e s) ∨ ageWear a b e s = wearTaken a b e s := by
  unfold ageWear
  dsimp only
  rw [if_pos hup]
  split
  · exact .inl rfl
  · exact .inr rfl

theorem ageWear_taken (hup : ledgerUp s = true) (a b e : Byte) :
    (ageWear a b e s).mmc.lifeA = a.toNat ∧ (ageWear a b e s).mmc.lifeB = b.toNat ∧ (ageWear a b e s).mmc.preEol = e.toNat ∧
    (ageWear a b e s).age.items[39].value = max (lifePercent a) (lifePercent b) * 1000 := by
  have hmmc : (wearTaken a b e s).mmc = { s.mmc with lifeA := a.toNat, lifeB := b.toNat, preEol := e.toNat } :=
    (itemMeasure_only _ _ _ _).same .mmc rfl
  have hvalue : (wearTaken a b e s).age.items[39].value = max (lifePercent a) (lifePercent b) * 1000 :=
    (measured_itemMeasure 39 _ _ _).value
  rcases ageWear_eq hup a b e with hevent | hsame
  · have honly := mmcEvent_only 5 e.toNat (wearTaken a b e s)
    have hmmc' : (mmcEvent 5 e.toNat (wearTaken a b e s)).mmc = (wearTaken a b e s).mmc := honly.same .mmc rfl
    have hage : (mmcEvent 5 e.toNat (wearTaken a b e s)).age = (wearTaken a b e s).age := honly.same .age rfl
    rw [hevent, hmmc', hage, hmmc]
    exact ⟨rfl, rfl, rfl, hvalue⟩
  · rw [hsame, hmmc]
    exact ⟨rfl, rfl, rfl, hvalue⟩

/-! ### Barriers (R476) -/

/-- The item of a domain's barrier (R469). -/
abbrev barrierItem (d : Fin 24) : Fin 64 := ⟨40 + d.val, by omega⟩

theorem twoPow_getLsbD_self (d : Fin 24) : (BitVec.ofNat 24 (2 ^ d.val)).getLsbD d.val = true := by
  rw [BitVec.getLsbD_ofNat, Nat.testBit_two_pow_self, decide_eq_true d.isLt]
  rfl

/-- A barrier whose value has entered its item. -/
def barrierTaken (d : Fin 24) (r : Nat) (s : State) : State :=
  itemMeasure (barrierItem d) (max 1000 r : Nat) (decide (((max 1000 r : Nat) : Int) < itemLimit s (40 + d.val))) s

theorem barrierTaken_item (d : Fin 24) (r : Nat) (s : State) :
    (barrierTaken d r s).age.items[barrierItem d].value = max 1000 r ∧ (barrierTaken d r s).age.lowBar = s.age.lowBar := by
  obtain ⟨⟨hrest, -⟩, hvalue, -, -, -, -⟩ := measured_itemMeasure (barrierItem d) ((max 1000 r : Nat) : Int)
    (decide (((max 1000 r : Nat) : Int) < itemLimit s (40 + d.val))) s
  unfold barrierTaken
  rw [hvalue, hrest]
  exact ⟨by push_cast; rfl, rfl⟩

section
variable {d : Fin 24} {r : Nat}

/-- Below 20 MΩ the low flag is set, with its event. -/
theorem ageBarrier_falls (h : max 1000 r < 20000) (hlow : s.age.lowBar.getLsbD d.val = false) :
    ageBarrier d r s = ageEvent 9 (40 + d.val) (((max 1000 r : Nat) : Int) / 1000)
      ((barrierTaken d r s).setAge fun a => { a with lowBar := a.lowBar ||| BitVec.ofNat 24 (2 ^ d.val) }) := by
  unfold ageBarrier barrierTaken
  dsimp only
  rw [Nat.min_eq_right (by omega : r ≤ 100000000), if_pos ⟨h, by rw [hlow]; rfl⟩]

/-- Above 25 MΩ it is cleared, with its event. -/
theorem ageBarrier_rises (hr : r ≤ 100000000) (h : 25000 < max 1000 r) (hlow : s.age.lowBar.getLsbD d.val = true) :
    ageBarrier d r s = ageEvent 10 (40 + d.val) (min 65535 (((max 1000 r : Nat) : Int) / 1000))
      ((barrierTaken d r s).setAge fun a => { a with lowBar := a.lowBar &&& ~~~BitVec.ofNat 24 (2 ^ d.val) }) := by
  unfold ageBarrier barrierTaken
  dsimp only
  rw [Nat.min_eq_right hr, if_neg (fun k => absurd k.1 (by omega)), if_pos ⟨h, hlow⟩]

theorem ageBarrier_stays (hr : r ≤ 100000000) (hfall : ¬ (max 1000 r < 20000 ∧ s.age.lowBar.getLsbD d.val = false))
    (hrise : ¬ (25000 < max 1000 r ∧ s.age.lowBar.getLsbD d.val = true)) : ageBarrier d r s = barrierTaken d r s := by
  unfold ageBarrier barrierTaken
  dsimp only
  rw [Nat.min_eq_right hr, if_neg (fun k => hfall ⟨k.1, by simpa using k.2⟩), if_neg hrise]

/-- A barrier's test: the value stands, and the low flag falls below 20 MΩ and rises above 25 MΩ. -/
theorem ageBarrier_item {i : Fin 64} (hi : i.val = 40 + d.val) (hr : r ≤ 100000000) :
    (ageBarrier d r s).age.items[i].value = max 1000 r ∧ (r < 20000 → (ageBarrier d r s).age.lowBar.getLsbD d.val = true) ∧
    (25000 < r → (ageBarrier d r s).age.lowBar.getLsbD d.val = false) ∧
    (20000 ≤ r → r ≤ 25000 → (ageBarrier d r s).age.lowBar = s.age.lowBar) := by
  obtain rfl : i = barrierItem d := Fin.ext hi
  obtain ⟨hvalue, hlow⟩ := barrierTaken_item d r s
  have hmask := twoPow_getLsbD_self d
  by_cases hfall : max 1000 r < 20000 ∧ s.age.lowBar.getLsbD d.val = false
  · rw [ageBarrier_falls hfall.1 hfall.2, ageEvent_age]
    refine ⟨hvalue, fun _ => ?_, fun h => absurd hfall.1 (by omega), fun h => absurd hfall.1 (by omega)⟩
    change ((barrierTaken d r s).age.lowBar ||| BitVec.ofNat 24 (2 ^ d.val)).getLsbD d.val = true
    rw [BitVec.getLsbD_or, hmask, Bool.or_true]
  · by_cases hrise : 25000 < max 1000 r ∧ s.age.lowBar.getLsbD d.val = true
    · rw [ageBarrier_rises hr hrise.1 hrise.2, ageEvent_age]
      refine ⟨hvalue, fun h => absurd hrise.1 (by omega), fun _ => ?_, fun _ h => absurd hrise.1 (by omega)⟩
      change ((barrierTaken d r s).age.lowBar &&& ~~~BitVec.ofNat 24 (2 ^ d.val)).getLsbD d.val = false
      rw [BitVec.getLsbD_and, BitVec.getLsbD_not, hmask, Bool.not_true, Bool.and_false, Bool.and_false]
    · rw [ageBarrier_stays hr hfall hrise, hlow]
      refine ⟨hvalue, fun h => ?_, fun h => ?_, fun _ _ => rfl⟩
      · exact Bool.of_not_eq_false fun hclear => hfall ⟨by omega, hclear⟩
      · exact Bool.of_not_eq_true fun hset => hrise ⟨by omega, hset⟩

end

end

end Sys2Proof.Machine
end

section
/-! What the ledger's pages, their restoration and the commands on items do (R478, R480), and the ledger's obligation. -/
namespace Sys2Proof.Machine

open Sys2Proof

section
variable {s : State}

/-! ### Pages and their restoration (R480) -/

theorem ledgerPage_off (hoff : s.age.st = .off) (ok : Bool) : ledgerPage ok s = s := if_pos hoff

theorem ledgerFail_fails (s : State) : (ledgerFail s).age = { s.age with wfail := satInc 255 s.age.wfail } ∧
    Raised 53 (put 0 4 7) s (ledgerFail s) ∧ Only [.age, .evr] s (ledgerFail s) :=
  ⟨ageEvent_age _ _ _ _, ageEvent_raised 7 0 0 _, (ledgerFail_only s).mono rfl⟩

theorem ledgerPage_fails (hon : s.age.st ≠ .off) : ledgerPage false s = ledgerFail s := by
  unfold ledgerPage
  dsimp only
  rw [if_neg hon, if_neg fun h => Bool.false_ne_true h.1]

/-- A page that is written advances the sequence and its slot, and reaches the eMMC only. -/
theorem ledgerPage_written (hon : s.age.st ≠ .off) (hup : ledgerUp s = true) (hslot : s.age.slot < ledgerSlots s) :
    (ledgerPage true s).age =
      { s.age with seq := s.age.seq + 1, slot := (if s.age.slot + 1 < ledgerSlots s then s.age.slot + 1 else 0) } ∧
    Only [.age, .mmc] s (ledgerPage true s) := by
  unfold ledgerPage
  dsimp only
  rw [if_neg hon, if_pos ⟨rfl, hup, hslot⟩]
  generalize hput : (fun (a : State) (i : Nat) => sectorPut _ _ a) = put8
  have hsector : ∀ u i, Only [.mmc] u (put8 u i) := fun u i => by
    rw [← hput]
    exact sectorPut_only _ _ _
  generalize hall : sectorPut _ _ _ = s2
  have honly : Only [.mmc] s s2 := by
    rw [← hall]
    exact .after (sectorPut_only _ _ _) rfl (.foldl hsector (.refl _ s))
  have hage : s2.age = s.age := honly.same .age rfl
  refine ⟨?_, (honly.mono rfl).set_age rfl⟩
  unfold State.setAge
  rw [hage]

/-- A correction held within its bound leaves the service but its item. -/
theorem oneItem_corrKeep (s : State) (i : Fin 64) : OneItem i s (corrKeep s i) := by
  unfold corrKeep
  extract_lets x b new s1
  have hone : OneItem i s s1 := by
    unfold s1
    split
    · exact oneItem_setItem s i _
    · exact (itemCorrect_item i _ _ s).1
  clear_value s1
  split
  · split
    · exact hone
    · exact hone.trans (.of_age i ((gainMoved_only _ _).same .age rfl))
  · split
    · exact hone.trans (.of_age i rfl)
    · exact hone

theorem ageBounds_keeps (s : State) : (ageBounds s).age.st = s.age.st ∧ (ageBounds s).age.scanning = s.age.scanning := by
  unfold ageBounds
  split
  · exact ⟨rfl, rfl⟩
  · exact ⟨foldl_keeps (fun u => u.age.st) (fun u i => by rw [(oneItem_corrKeep u i).rest]) _ s,
      foldl_keeps (fun u => u.age.scanning) (fun u i => by rw [(oneItem_corrKeep u i).rest]) _ s⟩

/-- The items restored, from a page or from none, AGE runs. -/
theorem ledgerRestore_runs (s : State) : (ledgerRestore s).age.st = .run ∧ (ledgerRestore s).age.scanning = false := by
  unfold ledgerRestore
  extract_lets l top newest
  clear_value top
  split
  · exact ⟨rfl, rfl⟩
  · exact ageBounds_keeps _

/-! ### Commands (R478) -/

section
variable (src : Source) {item : Byte} (f : Fin 64 → State → State)

theorem ageCmd_item {i : Fin 64} (hi : item.toNat = i.val) (hdrives : s.standby = false ∨ i.val < 16 ∨ 35 < i.val) :
    ageCmd src item f s = f i s := by
  have hlt : item.toNat < 64 := hi ▸ i.isLt
  have hmine : ¬ (s.standby = true ∧ 16 ≤ item.toNat ∧ item.toNat ≤ 35) := by
    rintro ⟨hstandby, hlo, hhi⟩
    rcases hdrives with h | h | h
    · exact absurd hstandby (by rw [h]; decide)
    · omega
    · omega
  unfold ageCmd
  rw [dif_pos hlt, if_neg hmine]
  exact congrArg (f · s) (Fin.ext hi)

theorem ageCmd_beyond (hbeyond : 64 ≤ item.toNat) : ageCmd src item f s = logWerr 9 src ageCmdAddr s :=
  dif_neg (Nat.not_lt.mpr hbeyond)

theorem ageCmd_standby (hstandby : s.standby = true) (hlo : 16 ≤ item.toNat) (hhi : item.toNat ≤ 35) :
    ageCmd src item f s = logWerr 8 src ageCmdAddr s := by
  unfold ageCmd
  rw [dif_pos (by omega : item.toNat < 64), if_pos ⟨hstandby, hlo, hhi⟩]

end

section
variable (i : Fin 64)

theorem ageAck_item (s : State) : (ageAck i s).age.items[i].due = s.age.items[i].due ∧
    (s.age.items[i].due = true → (ageAck i s).age.items[i].ack = true ∧
      (ageAck i s).age.items[i].ackMargin = s.age.items[i].margin) ∧
    (∀ k : Fin 64, k ≠ i → (ageAck i s).age.items[k] = s.age.items[k]) := by
  unfold ageAck
  rw [State.setItem_items_self]
  refine ⟨?_, fun hdue => ?_, fun k hk => State.setItem_items_other hk s _⟩
  · split <;> rfl
  · rw [if_pos hdue]
    exact ⟨rfl, rfl⟩

/-- The item with its history gone, as REBASE leaves it. -/
def AgeItem.rebased (x : AgeItem) : AgeItem :=
  { x with base := none, hist := [], held := 0, due := false, ack := false, atLimit := false, days := 0xFFFF,
           trendN := 0, trendD := 1 }

theorem ageRebase_age (s : State) : (ageRebase i s).age = (s.setItem i AgeItem.rebased).age := by
  unfold ageRebase
  dsimp only
  split
  · exact ageEvent_age _ _ _ _
  · rfl

theorem ageRebase_item (s : State) : (ageRebase i s).age.items[i].base = none ∧ (ageRebase i s).age.items[i].due = false ∧
    (ageRebase i s).age.items[i].atLimit = false ∧ (ageRebase i s).age.items[i].corr = s.age.items[i].corr ∧
    (∀ k : Fin 64, k ≠ i → (ageRebase i s).age.items[k] = s.age.items[k]) := by
  rw [ageRebase_age, State.setItem_items_self]
  exact ⟨rfl, rfl, rfl, rfl, fun k hk => State.setItem_items_other hk s _⟩

end

end

/-! ### The obligation -/

/-- The measurement that a command brings: each row of the ledger has its own command beside AGE_MEASURE (R469 to R476). -/
def Brings (m : AgeMeas) (x : Instr) : Prop :=
  x = .ageMeasure m ∨
  (∃ (c : Fin 16) (a b : Int), x = .ageRefCheck c a b ∧ m = .ref c a b) ∨
  (∃ (c : Fin 4) (err : Int) (secs : Nat), x = .ageAoGain c err secs ∧ m = .gain c err secs) ∨
  (∃ (c : Fin 16) (r : Nat), x = .ageDioSwitch c r ∧ m = .switch c r) ∨ (x = .ageTcxoSample ∧ m = .tcxo) ∨
  (∃ (cap esr : Nat) (p ab : Bool), (x = .ageHoldTest cap esr p ab ∨ x = .ageTestHold cap esr p ab) ∧ m = .hold cap esr p ab) ∨
  (∃ a b e : Byte, x = .ageEmmcWear a b e ∧ m = .wear a b e) ∨
  (∃ (d : Fin 24) (r : Nat), x = .ageBarrierTest d r ∧ m = .barrier d r)

section
variable {s : State} {m : AgeMeas} {x : Instr} (hx : Brings m x)
include hx

/-- Whichever command brings it, the measurement is taken. -/
theorem exec_brings (s : State) : exec x s = .next (ageTake m s) := by
  rcases hx with rfl | ⟨c, a, b, rfl, rfl⟩ | ⟨c, err, secs, rfl, rfl⟩ | ⟨c, r, rfl, rfl⟩ | ⟨rfl, rfl⟩ |
    ⟨cap, esr, p, ab, rfl | rfl, rfl⟩ | ⟨a, b, e, rfl, rfl⟩ | ⟨d, r, rfl, rfl⟩ <;> rfl

theorem runs_brings_not_taken (h : s.age.st = .off ∨ itemNa s (measItem m) = true) : Runs x s fun t => t = s :=
  .of_next (exec_brings hx s) (if_pos h)

end

/-- The operation of a measurement's row. -/
def ageRow : AgeMeas → State → State
  | .ref c a b => ageRef c a b
  | .gain c err secs => ageGain c err secs
  | .switch c r => ageSwitch c r
  | .tcxo => ageTcxo
  | .hold cap esr p ab => ageHold cap esr p ab
  | .wear a b e => ageWear a b e
  | .barrier d r => ageBarrier d r

theorem ageTake_taken {m : AgeMeas} {s : State} (hon : s.age.st ≠ .off) (hna : itemNa s (measItem m) = false) :
    ageTake m s = ageRow m s := by
  have htaken : ¬ (s.age.st = .off ∨ itemNa s (measItem m) = true) := by
    rintro (h | h)
    · exact hon h
    · exact Bool.false_ne_true (hna.symm.trans h)
  unfold ageTake
  rw [if_neg htaken]
  cases m <;> rfl

/-- While AGE runs, a measurement of an item that applies is taken as its row says. -/
theorem runs_brings {s : State} {m : AgeMeas} {x : Instr} {P : State → Prop} (hx : Brings m x) (hon : s.age.st ≠ .off)
    (hna : itemNa s (measItem m) = false) (h : P (ageRow m s)) : Runs x s P :=
  .of_next ((exec_brings hx s).trans (congrArg Host.Outcome.next (ageTake_taken hon hna))) h

section
variable {s : State} {x : Instr} (hon : s.age.st ≠ .off)
include hon

section
variable {c : Fin 16} {a b : Int} {i : Fin 64} (hx : Brings (.ref c a b) x) (hna : itemNa s c.val = false) (hi : i.val = c.val)
include hx hna hi

theorem runs_ref_near (ha : a.natAbs ≤ 50000) : Runs x s fun t => t.age.items[i].valid = true ∧ t.age.items[i].value = a ∧
    t.age.items[i].tMeas = s.stamp ∧ t.age.items[i].corr = s.age.items[i].corr ∧ Only [.age, .evr] s t := by
  obtain ⟨hvalid, hvalue, htime, hcorr, -⟩ := refTaken_item hi a false s
  refine runs_brings hx hon hna ?_
  rw [ageRow, ageRef_near ha]
  exact ⟨hvalid, hvalue, htime, hcorr, refTaken_only c a false s⟩

theorem runs_ref_far (ha : 50000 < a.natAbs) (hb : b.natAbs ≤ 50000) (hen : s.ageEn 0 = true) : Runs x s fun t =>
    (t.age.items[i].corr - s.age.items[i].corr).natAbs ≤ 20000 ∧
    (100000 < (a - s.age.items[i].corr).natAbs → t.age.items[i].corr = s.age.items[i].corr ∧ t.age.items[i].due = true ∧
      t.ui = s.ui) ∧ Only [.age, .evr, .ui, .drawn] s t :=
  runs_brings hx hon hna (ageRef_far ha hb hi hen)

end

section
variable {c : Fin 4} {err : Int} {secs : Nat} {i : Fin 64} (hx : Brings (.gain c err secs) x) (hna : itemNa s (16 + c.val) = false)
include hx hna

theorem runs_gain_short (hsecs : secs < 600) : Runs x s fun t => t = s := runs_brings hx hon hna (if_pos hsecs)

theorem runs_gain (hi : i.val = 16 + c.val) (hsecs : 600 ≤ secs) : Runs x s fun t =>
    t.age.items[i].value = err ∧ t.age.items[i].valid = true ∧ (s.ageEn 1 = false → t.age.items[i].corr = 0) ∧
    (s.ageEn 1 = true → (t.age.items[i].corr - s.age.items[i].corr).natAbs ≤ 200000) ∧ Only [.age, .evr] s t := by
  obtain ⟨hvalue, hvalid, hoff, hstep⟩ := ageGain_sampled (s := s) (err := err) hi hsecs
  exact runs_brings hx hon hna ⟨hvalue, hvalid, hoff, hstep, (ageGain_only c err secs s).mono rfl⟩

end

theorem runs_switch {c : Fin 16} {r : Nat} {i : Fin 64} (hx : Brings (.switch c r) x) (hna : itemNa s (20 + c.val) = false)
    (hi : i.val = 20 + c.val) : Runs x s fun t =>
      t.age.items[i].value = r ∧ t.age.items[i].valid = true ∧ t.dio[c].lampBound = s.ageNat 11 1 10 ∧
      (s.ageEn 2 = false → t.dio[c].ovlCut = 0) ∧ (s.ageEn 3 = false → t.dio[c].lampRise = 0) ∧
      (∀ k : Fin 16, k ≠ c → t.dio[k] = s.dio[k]) ∧ Only [.age, .evr, .dio] s t := by
  obtain ⟨hvalue, hvalid, hbound, hcut, hrise, hothers⟩ := ageSwitch_item (s := s) hi r
  exact runs_brings hx hon hna ⟨hvalue, hvalid, hbound, hcut, hrise, hothers, (ageSwitch_only c r s).mono rfl⟩

section
variable (hx : Brings .tcxo x) (hna : itemNa s 36 = false)
include hx hna

theorem runs_tcxo_free (hst : s.tim.st = .free ∨ s.tim.st = .acquiring) (hen : s.ageEn 4 = true)
    (hsample : (s.age.bands[tempBand s]).2 ≠ 0) : Runs x s fun t =>
      (∀ b : Int, b = s.ageNat 12 2 1000 * 10 →
        t.tim = { s.tim with corr := clampI (-b) b (bandMean s.age.bands[tempBand s]) }) ∧ Only [.age, .evr, .tim] s t := by
  have hunlocked : s.tim.st ≠ .locked := by
    rcases hst with h | h <;> rw [h] <;> decide
  refine runs_brings hx hon hna ⟨fun b hb => ?_, (ageTcxo_only s).mono rfl⟩
  rw [ageRow, ageTcxo_unlocked hunlocked]
  exact oscApply_tim hst hon hen hsample hb

end

section
variable {cap esr : Nat} {p ab : Bool} (hx : Brings (.hold cap esr p ab) x) (hna : itemNa s 37 = false)
include hx hna

theorem runs_hold_waits (hmay : holdMayTest s p = false) (htries : s.age.holdTries < 6) : Runs x s fun t =>
    t.age = { s.age with holdTries := s.age.holdTries + 1 } ∧ Only [.age] s t := by
  refine runs_brings hx hon hna ?_
  rw [ageRow, ageHold_waits cap esr ab hmay htries]
  exact ⟨rfl, (Only.refl _ s).set_age rfl⟩

theorem runs_hold_gives_up (hmay : holdMayTest s p = false) (htries : 6 ≤ s.age.holdTries) : Runs x s fun t =>
    t.age = { s.age with holdTries := 0 } ∧ Raised 53 (put 0 4 5 ||| put 8 8 37) s t ∧ Only [.age, .evr] s t := by
  refine runs_brings hx hon hna ?_
  rw [ageRow, ageHold_gives_up cap esr ab hmay htries]
  exact holdEnded s

theorem runs_hold_abandoned (hmay : holdMayTest s p = true) (hab : ab = true) : Runs x s fun t =>
    t.age = { s.age with holdTries := 0 } ∧ Only [.age, .evr] s t := by
  obtain ⟨hage, -, honly⟩ := holdEnded s
  subst hab
  refine runs_brings hx hon hna ?_
  rw [ageRow, ageHold_abandoned cap esr hmay]
  exact ⟨hage, honly⟩

theorem runs_hold_measured (hmay : holdMayTest s p = true) (hab : ab = false) : Runs x s fun t => t.age.holdTries = 0 ∧
    t.age.items[37].value = cap ∧ t.age.items[38].value = esr ∧ Only [.age, .evr, .sup] s t := by
  subst hab
  obtain ⟨htries, hcap, hesr⟩ := ageHold_measured cap esr hmay
  exact runs_brings hx hon hna ⟨htries, hcap, hesr, (ageHold_only cap esr p false s).mono rfl⟩

end

section
variable {a b e : Byte} (hx : Brings (.wear a b e) x)
include hx

theorem runs_wear_down (hup : ledgerUp s = false) : Runs x s fun t => t = s :=
  runs_brings hx hon rfl (if_neg fun h => Bool.false_ne_true (hup.symm.trans h))

theorem runs_wear (hup : ledgerUp s = true) : Runs x s fun t => t.mmc.lifeA = a.toNat ∧ t.mmc.lifeB = b.toNat ∧
    t.mmc.preEol = e.toNat ∧ t.age.items[39].value = max (lifePercent a) (lifePercent b) * 1000 ∧
    Only [.age, .evr, .mmc] s t := by
  obtain ⟨ha, hb, he, hvalue⟩ := ageWear_taken hup a b e
  exact runs_brings hx hon rfl ⟨ha, hb, he, hvalue, (ageWear_only a b e s).mono rfl⟩

end

theorem runs_barrier {d : Fin 24} {r : Nat} {i : Fin 64} (hx : Brings (.barrier d r) x) (hna : itemNa s (40 + d.val) = false)
    (hi : i.val = 40 + d.val) (hr : r ≤ 100000000) : Runs x s fun t =>
      t.age.items[i].value = max 1000 r ∧ (r < 20000 → t.age.lowBar.getLsbD d.val = true) ∧
      (25000 < r → t.age.lowBar.getLsbD d.val = false) ∧ (20000 ≤ r → r ≤ 25000 → t.age.lowBar = s.age.lowBar) ∧
      Only [.age, .evr] s t := by
  obtain ⟨hvalue, hlow, hhigh, hbetween⟩ := ageBarrier_item (s := s) hi hr
  exact runs_brings hx hon hna ⟨hvalue, hlow, hhigh, hbetween, (ageBarrier_only d r s).mono rfl⟩

end

theorem runs_ageLedgerScanDone {s : State} (hscan : s.age.scanning = true) : Runs .ageLedgerScanDone s fun t =>
    t.age.st = .run ∧ t.age.scanning = false ∧ Only [.age, .dio, .evr, .ui, .drawn] s t := by
  obtain ⟨hrun, hdone⟩ := ledgerRestore_runs s
  exact .of_next (congrArg Host.Outcome.next (if_pos hscan)) ⟨hrun, hdone, (ledgerRestore_only s).mono rfl⟩

section
variable {s : State} (src : Source) {item : Byte}

section
variable {i : Fin 64} (hi : item.toNat = i.val) (hdrives : s.standby = false ∨ i.val < 16 ∨ 35 < i.val)
include hi hdrives

theorem runs_ageAckDue : Runs (.ageAckDue src item) s fun t => t.age.items[i].due = s.age.items[i].due ∧
    (s.age.items[i].due = true → t.age.items[i].ack = true ∧ t.age.items[i].ackMargin = s.age.items[i].margin) ∧
    (∀ k : Fin 64, k ≠ i → t.age.items[k] = s.age.items[k]) ∧ Only [.age] s t := by
  obtain ⟨hdue, hack, hothers⟩ := ageAck_item i s
  exact .of_next (congrArg Host.Outcome.next (ageCmd_item src ageAck hi hdrives)) ⟨hdue, hack, hothers, ageAck_only i s⟩

theorem runs_ageRebase : Runs (.ageRebase src item) s fun t => t.age.items[i].base = none ∧ t.age.items[i].due = false ∧
    t.age.items[i].atLimit = false ∧ t.age.items[i].corr = s.age.items[i].corr ∧
    (∀ k : Fin 64, k ≠ i → t.age.items[k] = s.age.items[k]) ∧ Only [.age, .evr] s t := by
  obtain ⟨hbase, hdue, hlimit, hcorr, hothers⟩ := ageRebase_item i s
  exact .of_next (congrArg Host.Outcome.next (ageCmd_item src ageRebase hi hdrives))
    ⟨hbase, hdue, hlimit, hcorr, hothers, (ageRebase_only i s).mono rfl⟩

end

/-- A command on an item that it may not reach is logged. -/
theorem runs_ageCmd_refused {x : Instr} (hx : x = .ageAckDue src item ∨ x = .ageRebase src item) {reason : Nat}
    (href : ∀ f, ageCmd src item f s = logWerr reason src ageCmdAddr s) :
    Runs x s fun t => t.sys.werr.reason = reason ∧ Only [.sys] s t := by
  rcases hx with rfl | rfl
  · exact .of_next (congrArg Host.Outcome.next (href ageAck)) ⟨rfl, logWerr_only _ _ _ s⟩
  · exact .of_next (congrArg Host.Outcome.next (href ageRebase)) ⟨rfl, logWerr_only _ _ _ s⟩

end

/-- Settles O54, row by row. -/
theorem theLedgerMeasuresAndCorrects : Obligations.TheLedgerMeasuresAndCorrects := by
  intro s
  refine ⟨fun m x hx => ⟨runs_brings_not_taken hx, fun hon hna => ⟨?_, ?_, ?_, ?_, ?_, ?_, ?_⟩⟩,
    fun hoff ok => .of_next (congrArg Host.Outcome.next (ledgerPage_off hoff ok)) rfl,
    fun hon => .of_next (congrArg Host.Outcome.next (ledgerPage_fails hon)) (ledgerFail_fails s),
    fun hon hup hslot => .of_next rfl (ledgerPage_written hon hup hslot),
    fun hscan => .of_next (congrArg Host.Outcome.next (if_neg fun h => Bool.false_ne_true (hscan.symm.trans h))) rfl,
    runs_ageLedgerScanDone,
    fun src item => ⟨fun i hi hdrives => ⟨runs_ageAckDue src hi hdrives, runs_ageRebase src hi hdrives⟩,
      fun x hx => ⟨fun h => runs_ageCmd_refused src hx fun f => ageCmd_beyond src f h,
        fun hst hlo hhi => runs_ageCmd_refused src hx fun f => ageCmd_standby src f hst hlo hhi⟩,
      .of_next rfl ⟨rfl, logWerr_only _ _ _ s⟩⟩⟩
  · rintro c a b i rfl hi
    exact ⟨runs_ref_near hon hx hna hi, runs_ref_far hon hx hna hi⟩
  · rintro c err secs i rfl hi
    exact ⟨runs_gain_short hon hx hna, runs_gain hon hx hna hi⟩
  · rintro c r i rfl hi
    exact runs_switch hon hx hna hi
  · rintro rfl
    exact ⟨fun hst => runs_brings hx hon hna (ageTcxo_locked hna hst), runs_tcxo_free hon hx hna,
      fun h => runs_brings hx hon hna (ageTcxo_idle h)⟩
  · rintro cap esr p ab rfl
    exact ⟨runs_hold_waits hon hx hna, runs_hold_gives_up hon hx hna, runs_hold_abandoned hon hx hna,
      runs_hold_measured hon hx hna⟩
  · rintro a b e rfl
    exact ⟨runs_wear_down hon hx, runs_wear hon hx⟩
  · rintro d r i rfl hi hr
    exact runs_barrier hon hx hna hi hr

end Sys2Proof.Machine
end
